-- ==== Sys2Proof/Word.lean ====
section
/-! DEFINITION. The words of the Y9: bytes, 32-bit setup registers (R7), 64-bit counters and the byte-list helpers
every layer shares. -/
namespace Sys2Proof

/-- One byte. -/
abbrev Byte := BitVec 8

/-- One setup register (R7: 32 bits, little-endian). -/
abbrev Word := BitVec 32

/-- A 64-bit count: a commit sequence number (R18) or a device time in nanoseconds (R26). -/
abbrev Word64 := BitVec 64

end Sys2Proof
end

