-- ==== Sys2Proof/Syntax.lean ====
section
/-! DEFINITION. The commands and events of the Y9: one constructor of Instr for each row of spec/opcode_table.json, with the
operands the row's command carries. What the outside world decides (a level on a pin, the bytes of a transfer, whether a NAND
operation passed, a measured duration) is an operand; what the part decides itself is computed from State. -/
namespace Sys2Proof

/-- A host port (Table 3.1). In single-port mode only port A exists. -/
inductive Port where
  | a
  | b
  deriving DecidableEq, Repr

/-- Who writes a setup register (R49). -/
inductive Writer where
  | host
  | mgmt
  deriving DecidableEq, Repr

/-- The twelve modes of Table 2.1. -/
inductive Mode where
  | reset
  | boot
  | recovery
  | provision
  | service
  | lowpower
  | standby
  | ingest
  | drain
  | sealed
  | diagnostic
  | quarantine
  deriving DecidableEq, Repr

/-- Device power states (Table 4.12). -/
inductive PowerState where
  | ps0
  | ps1
  | ps2
  | ps3
  | ps4
  deriving DecidableEq, Repr

/-- What a Conventional reset was caused by (Table 2.4a). -/
inductive ConventionalCause where
  | perst
  | hotReset
  | linkDisable
  deriving DecidableEq, Repr

/-- Which clock was lost (R390, R407). -/
inductive ClockLoss where
  | crystal
  | pll
  | islandClock
  deriving DecidableEq, Repr

/-- The facts about one firmware component that the digest of R358 establishes: whether its context saw the length declared, and the two flags
of the comparison with the manifest's digest (R348, R349). -/
structure Component where
  typ : Nat
  lengthOk : Bool
  flagA : Nat
  flagB : Nat
  digest : Nat
  deriving DecidableEq, Repr

/-- What the boot ROM or a Firmware Commit finds in one firmware slot: the manifest fields of Table 14.9 and the outcome of
each check of R358, in the order the procedure makes them. The signature arithmetic itself is outside the model. -/
structure SlotImage where
  magicOk : Bool
  /-- The flags of the comparison of VKEY's digest with ROOTHASH (R348). -/
  rootA : Nat
  rootB : Nat
  vendorSigOk : Bool
  ownerSigSet : Bool
  ownerKeySlot : Option Nat
  ownerSigOk : Bool
  svn : Nat
  deferArb : Bool
  fwRev : Word64
  comps : List Component
  /-- SHA-512 of manifest bytes 0 to 1,231 (Table 14.11). -/
  manifest : Nat
  deriving DecidableEq, Repr

/-- A substitution entry (Table 8.4). -/
structure Subst where
  src : Nat
  dst : Nat
  group : Nat
  /-- 1 assigned, 2 rebuilding, 3 done, 4 superseded. -/
  state : Nat
  nextRow : Nat
  deriving DecidableEq, Repr

/-- A void entry (Table 8.4). -/
structure VoidEnt where
  barrel : Nat
  pos : Nat
  first : Nat
  count : Nat
  cause : Nat
  deriving DecidableEq, Repr

/-- An open-stripe entry (Table 8.4). -/
structure OpenStripe where
  barrel : Nat
  stripe : Nat
  /-- Member positions that passed program verify. -/
  verified : List Nat
  started : Bool
  deriving DecidableEq, Repr

/-- A stripe-journal snapshot (Table 8.3). -/
structure Snap where
  seq : Nat
  dtime : Nat
  csn : Nat
  jseq : Nat
  opens : List OpenStripe
  subst : List Subst
  voids : List VoidEnt
  deriving DecidableEq, Repr

/-- A die that answered at identification (R258): its position on the channel, whether its identification matches the
installed profile, and its factory bad blocks. -/
structure DieFound where
  pos : Nat
  idMatches : Bool
  badBlocks : List Nat
  deriving DecidableEq, Repr

/-- The steps of channel training (R259). -/
inductive TrainStep where
  | fanout
  | identify
  | zq
  | enterMode
  | gating
  | readDeskew
  | writeDeskew
  deriving DecidableEq, Repr

/-- The commit points that Staged fields name (R51, R146). -/
inductive CommitPoint where
  | journalFlush
  | turnEnd
  | sweepStart
  | horizonBoundary
  deriving DecidableEq, Repr

/-- A place in host memory or in the controller memory buffer that a descriptor names. -/
structure SglDesc where
  typ : Nat
  malformed : Bool
  length : Nat
  address : Nat
  deriving DecidableEq, Repr

/-- The data pointer of a command (R119). `prp` gives the byte addresses of PRP1, PRP2 and the list's entries; `sgl` gives the
segments in order, each with the number of descriptors its length allows. `unread` stands for a PRP list or an SGL segment of which a read
and its reissue failed (R77). -/
inductive DataPtr where
  | prp (entries : List Nat)
  | sgl (segments : List (List SglDesc)) (capacities : List Nat)
  | unread
  deriving DecidableEq, Repr

/-- The metadata pointer of a command whose metadata has a separate buffer: none used, an address, or an SGL's descriptors (R119). -/
inductive MetaPtr where
  | unused
  | flat (address : Nat)
  | sgl (descs : List SglDesc)
  deriving DecidableEq, Repr

/-- The header of an admin command: where it came from and the fields every command carries. `tunnelled` marks a command
that NVMe-MI carried (R387). -/
structure AdminHdr where
  port : Port
  cid : BitVec 16
  fuse : BitVec 2
  nsid : Nat
  reservedZero : Bool
  data : DataPtr
  tunnelled : Bool
  deriving DecidableEq, Repr

/-- The header of an I/O command as its submission queue entry carries it. `sqeArrivalNs` is the time the entry's read took
beyond its issue (R142, cause 0). -/
structure IoHdr where
  port : Port
  sq : Nat
  cid : BitVec 16
  fuse : BitVec 2
  reservedZero : Bool
  nsid : Nat
  data : DataPtr
  mptr : MetaPtr
  t0 : Nat
  slowNs : Nat
  deriving DecidableEq, Repr

/-- The protection-information fields of a read, write, Verify or Copy (R234, R235). -/
structure PrInfo where
  pract : Bool
  chkGuard : Bool
  chkApp : Bool
  chkRef : Bool
  appTag : Nat
  appMask : Nat
  refTag : Nat
  deriving DecidableEq, Repr

/-- One logical block as the host supplies it: its data and its metadata bytes. -/
structure HostLba where
  data : List Byte
  md : List Byte
  deriving DecidableEq, Repr

/-- How one media step ended, as the channel sequencer reports it. -/
inductive DecodeResult where
  | ok (corrected : Nat)
  | hardFail
  | softOk (attempts : Nat)
  | softFail
  | reconstructed
  | formatError
  | formatErrorAgain
  | missingThree
  deriving DecidableEq, Repr

/-- Why a sequencer is faulted (R262). -/
inductive SeqFault where
  | microwordCheck
  | reservedCode
  | stack
  | selfTest
  deriving DecidableEq, Repr

/-- A microword's patch match entry (Table 10.6). -/
structure MatchEntry where
  romAddr : Nat
  target : Nat
  enable : Bool
  deriving DecidableEq, Repr

/-- A patch set as it streams in (Table 10.6). -/
structure PatchSet where
  magic : Nat
  major : Nat
  minor : Nat
  build : Nat
  setId : Nat
  yMax : Nat
  romId : Nat
  profile : Nat
  matches_ : List MatchEntry
  words : List (BitVec 256)
  sigOk : Bool
  /-- The two comparison flags of the digest's context (R270, R348). -/
  flagA : Nat
  flagB : Nat
  deriving DecidableEq, Repr

/-- Which memory line fails its check, and what its source is (Table 11.5). -/
inductive LineKind where
  | hostWriteUncommitted (cmd : Nat) (redmaOk : Bool)
  | hostWriteCommitted (stidx : Nat) (lineInForm : Bool)
  | mirrorReceive (ownerSupplies : Bool)
  | hostReadMedia (cmd : Nat)
  | rackingBuffer
  | rebuildBuffer (recomputed : Bool)
  | parity
  | mapCache (dramGood : Bool) (nsid grain : Nat)
  | mapDram (nsid grain : Nat)
  | blockState (die block : Nat)
  | journalStaging
  | gareoTransmit (sourceGood : Bool)
  | gareoReceive
  | digestSave (ctx : Nat)
  | cmb (port : Port) (line : Nat)
  | coreData
  | coreCode
  | linkLine
  | hardwareState
  deriving DecidableEq, Repr

/-- A Gareo neighbour's report of one of its links (LSR content, Table 12.4). -/
structure LinkReport where
  link : Nat
  peerUid : Nat
  peerLink : Nat
  up : Bool
  deriving DecidableEq, Repr

/-- The header fields of a frame that delivery needs (Table 12.3), with the checks of R310 on its bytes. -/
structure FrameHdr where
  link : Nat
  vc : Nat
  src : Nat
  dst : Nat
  ftype : Nat
  hops : Nat
  len : Nat
  xseq : Nat
  tag : Nat
  addr : Nat
  poison : Word64
  trailerAgrees : Bool
  fcrcOk : Bool
  linesOk : Bool
  deriving DecidableEq, Repr

/-- One routing entry (Table 12.20). -/
structure Route where
  prim : Nat
  alt : Nat
  bundle : BitVec 12
  hops : Nat
  valid : Bool
  deriving DecidableEq, Repr

/-- One stored grain as a stream carries it: a mirrored grain, a seed grain or a migration record (R326, R338). -/
structure GrainRec where
  nsid : Nat
  grain : Nat
  csn : Nat
  glen : Nat
  dealloc : Bool
  lost : Bool
  /-- The cause that log C4h gives a lost grain; 0 where the log lists none (R338). -/
  cause : Nat
  mask : Nat
  lbas : List HostLba
  deriving DecidableEq, Repr

/-- A namespace's description as it crosses the fabric or a create command supplies it (Tables 4.5, 13.2, 13.6). -/
structure NsDesc where
  nsid : Nat
  nsze : Nat
  ncap : Nat
  lbaf : Nat
  extLba : Bool
  dps : Nat
  nmic : Nat
  grainCode : Nat
  xts : Bool
  thin : Bool
  reservedZero : Bool
  nguid : Nat
  eui : Nat
  deriving DecidableEq, Repr

/-- A mirrored namespace operation (Table 13.2, kind 0x0003). -/
inductive NsOp where
  | create (d : NsDesc)
  | delete (nsid : Nat)
  | format (nsid lbaf : Nat) (extLba : Bool) (pi : Nat)
  | attach (nsid : Nat) (on : Bool)
  | seal (nsid csn : Nat) (perm : Bool)
  | unseal (nsid : Nat)
  deriving DecidableEq, Repr

/-- Requesters of a digest context (Table 14.3). -/
inductive DigestReq where
  | bootRom
  | patchLoad
  | attestation
  | migrationVerify
  | audit
  | fixity (cmd : Nat)
  | firmware
  deriving DecidableEq, Repr

/-- Parameters of a digest context (Table 14.2). -/
structure DigestParams where
  requester : DigestReq
  alg : Nat
  snoop : Bool
  prio : Nat
  blocks : Nat
  compare : Bool
  expect : List Byte
  key : List Byte
  noRelease : Bool
  deriving DecidableEq, Repr

/-- Units the runtime sparing controller replaces (R389, Table 16.1): the resource codes of R372. -/
inductive UnitFault where
  | policyCore
  | ldpcEngine
  | digestLane (ctx : Option Nat)
  | compressLane
  | decompressLane
  | sramRow (row : Nat) (hardwareState : Bool) (buffers : List Nat)
  deriving DecidableEq, Repr

/-- One sample of the 44 monitors (R369): tenths of a degree, millivolts, tens of milliamperes, and how long each trip
condition has held. -/
structure SensorSample where
  temps : List Int
  volts : List Nat
  amps : List Nat
  hotMs : Nat
  coolMs : Nat
  lowUs : Nat
  highUs : Nat
  warnMs : Nat
  powerMw : Nat
  deriving DecidableEq, Repr

/-- The commands and events of the Y9, in the order of spec/opcode_table.json. -/
inductive Instr where
  -- pins and supplies
  | porNAssert (lowUs : Nat)
  | porNDeassert (bifur : Bool) (pwrHighUs : Nat)
  | pwrFailNAssert (lowNs : Nat)
  | pwrFailNDeassert (highUs : Nat)
  | drainFlushComplete
  | twinFenceInAssert
  | twinFenceInDeassert
  | twinHbInChange (heldNs : Nat)
  | tsyncInEdge
  | huGoodDeassert
  | huGoodReassert
  | huSenseBelowVLow (mv : Nat)
  | holdupVerificationStart (v0mv : Nat)
  | holdupVerificationEnd (dvTenthMv : Nat)
  | heRefclkLoss
  | gfRefclkLoss
  | mgXtalLoss (what : ClockLoss)
  | dramChannelTrainingLoss (channel : Fin 8)
  -- start-up
  | bootImageVerify (slot1 slot2 : SlotImage)
  | hostIslandRelease
  | dramTraining (sizeGiB : Nat) (trained : BitVec 8) (hpprFails : List Nat)
  | channelTraining (channel : Fin 64) (failedTwice : Option TrainStep) (dies : List DieFound)
  | journalRootRead (rootCopyBad anchorBad snapshotCopyBad : Bool) (peerSnapshot : Option Snap)
  | residentMapLoad
  | mapRecovery (unreadableSegs : List Nat) (unreadable : List (Nat × Nat)) (replayMs scanMs : Nat)
  | halfErasedBlockRedo (die block : Nat) (blankPass1 blankPass2 : Bool)
  | openStripeCompletion (unreadable : List (Nat × Nat))
  | startupComplete (durationMs : Nat)
  -- resets
  | genResetY9 (who : Writer) (key : BitVec 16)
  | genResetManagement (who : Writer) (key : BitVec 16)
  | watchdogExpiry
  | lockstepMismatch
  | conventionalReset (cause : ConventionalCause)
  | functionLevelReset (port : Port)
  | ccEnSet (port : Port) (iosqes iocqes mps ams css : Nat) (asqs acqs : Nat) (asq acq : Nat)
  | ccEnClear (port : Port)
  | shutdownNotification (port : Port) (shn : BitVec 2)
  -- mode requests and the setup token
  | genModereqDiagnostic (who : Writer) (key : BitVec 16)
  | diagnosticEntry
  | genModereqService (who : Writer) (key : BitVec 16)
  | genModereqQuarantine (who : Writer) (key : BitVec 16)
  | genModereqProvision (who : Writer) (key : BitVec 16)
  | modereqKeyTimeout
  | provisioningCommit (who : Writer)
  | genOwnerClaim (who : Writer)
  | genOwnerRelease (who : Writer)
  | genOwnerSeize (who : Writer)
  | genOwnerSeizedClear (who : Writer)
  -- setup registers
  | registerWrite (who : Writer) (offset : Nat) (value : Word) (poisoned : Bool)
  | latchingRead (who : Writer) (offset : Nat)
  | stagedCommitPoint (point : CommitPoint)
  | bar0BadAccess (port : Port) (isRead : Bool) (offset len : Nat)
  | configBarWrite (port : Port) (dword : Fin 6) (value : Word)
  -- doorbells and fetch
  | sqTailDoorbell (port : Port) (qid value : Nat) (poisoned : Bool)
  | cqHeadDoorbell (port : Port) (qid value : Nat) (poisoned : Bool)
  | sqeFetch (port : Port)
  | pollRound (port : Port)
  | pollCompletion (port : Port) (tails heads : List (Nat × Nat))
  | pollStop (port : Port) (idleUs : Nat) (finalTails : List (Nat × Nat))
  -- controller memory buffer and windows
  | cmbMmioRead (port : Port) (offset len : Nat) (tag : Nat)
  | cmbMmioWrite (port : Port) (offset : Nat) (data : List Byte) (ep : Bool)
  | windowTlpRead (port : Port) (offset len rid tag : Nat)
  | windowTlpWrite (port : Port) (offset : Nat) (data : List Byte) (rid : Nat) (ep : Bool)
  | windowWriteAck (port : Port) (dest : Option Nat)
  | unsupportedTlp (port : Port) (tag : Nat)
  | malformedTlp (port : Port)
  | heWincommitA (who : Writer) (copy : Bool)
  | heWincommitB (who : Writer) (copy : Bool)
  | windowCopyDone (port : Port)
  | heWinlogClr (who : Writer)
  -- host reads, link
  | hostReadCompletion (port : Port) (tag : Nat) (poisoned : Bool) (lbas : List HostLba) (slowNs : Nat)
  | hostReadTimeout (port : Port) (tag : Nat)
  | linkTrained (port : Port) (rate width : Nat) (flit : Bool)
  | linkRecoveryEntry (port : Port)
  | linkRecoveryExit (port : Port) (durationUs : Nat)
  | surpriseDown (port : Port)
  | l0pWidthChange (port : Port) (width durationNs : Nat)
  | aspmL1Entry (port : Port) (idleUs : Nat) (l12 : Bool)
  | d3hotEntry (port : Port)
  | doeRequest (port : Port) (vendor objType : Nat) (dwords : List Word)
  | doeAbort (port : Port)
  -- admin commands
  | deleteIoSq (h : AdminHdr) (qid : Nat)
  | createIoSq (h : AdminHdr) (qid size cqid qprio : Nat) (base : Nat) (contiguous : Bool)
  | getLogPage (h : AdminHdr) (lid : Nat) (offset numDwords : Nat) (rae : Bool)
  | deleteIoCq (h : AdminHdr) (qid : Nat)
  | createIoCq (h : AdminHdr) (qid size vector : Nat) (ien : Bool) (base : Nat) (contiguous : Bool)
  | identify (h : AdminHdr) (cns cntid : Nat)
  | abort (h : AdminHdr) (sqid : Nat) (cid : BitVec 16)
  | setFeaturesArbitration (h : AdminHdr) (sv : Bool) (dw11 : Word)
  | setFeaturesPowerManagement (h : AdminHdr) (sv : Bool) (ps wh : Nat)
  | powerStateEntry (done : Bool)
  | setFeaturesTemperatureThreshold (h : AdminHdr) (sv : Bool) (tmpsel thsel kelvin : Nat)
  | setFeaturesVolatileWriteCache (h : AdminHdr) (sv : Bool) (wce : Bool)
  | setFeaturesNumberOfQueues (h : AdminHdr) (sv : Bool) (nsqr ncqr : Nat)
  | setFeaturesInterruptCoalescing (h : AdminHdr) (sv : Bool) (thr time : Nat)
  | setFeaturesInterruptVectorConfig (h : AdminHdr) (sv : Bool) (vector : Nat) (disable : Bool)
  | setFeaturesAsyncEventConfig (h : AdminHdr) (sv : Bool) (dw11 : Word)
  | setFeaturesLatencyClassTable (h : AdminHdr) (sv : Bool) (mask : BitVec 8) (reservedMask : Bool) (entries : List (List Nat))
  | setFeaturesQueueLatencyBinding (h : AdminHdr) (sv : Bool) (sqid cls : Nat)
  | setFeaturesWriteCacheProtection (h : AdminHdr) (sv : Bool)
  | getFeatures (h : AdminHdr) (fid sel : Nat) (dw11 : Word)
  | asynchronousEventRequest (h : AdminHdr)
  | namespaceManagementCreate (h : AdminHdr) (d : NsDesc)
  | namespaceManagementDelete (h : AdminHdr)
  | namespaceAttachment (h : AdminHdr) (attach : Bool) (ctrls : List Nat)
  | firmwareImageDownload (h : AdminHdr) (offset length : Nat)
  | firmwareCommitWrite (h : AdminHdr) (slot : Nat) (img : SlotImage)
  | firmwareCommitWriteSelect (h : AdminHdr) (slot : Nat) (img : SlotImage)
  | firmwareCommitSelect (h : AdminHdr) (slot : Nat) (img : SlotImage)
  | firmwareCommitActivate (h : AdminHdr) (slot : Nat) (img : SlotImage)
  | deviceSelfTest (h : AdminHdr) (code : Nat)
  | directiveSend (h : AdminHdr) (dtype doper dspec : Nat) (enable : Bool) (tdtype : Nat)
  | directiveReceive (h : AdminHdr) (dtype doper dspec : Nat) (nsr : Nat)
  | doorbellBufferConfig (h : AdminHdr) (prp1 prp2 : Nat)
  | formatNvm (h : AdminHdr) (lbaf : Nat) (mset : Bool) (pi pil ses : Nat)
  | formatNvmCryptoErase (h : AdminHdr) (lbaf : Nat) (mset : Bool) (pi pil : Nat)
  | sanitizeBlockErase (h : AdminHdr) (noDealloc : Bool)
  | sanitizeCryptoErase (h : AdminHdr) (noDealloc : Bool)
  | twinControlPair (h : AdminHdr) (peer : Nat) (idDigest : Nat) (peerReachable : Bool)
  | twinControlSwitch (h : AdminHdr)
  | twinControlRejoin (h : AdminHdr) (peer : Nat) (idDigest : Nat) (returnerCsn : Nat)
  | twinControlUnpair (h : AdminHdr)
  | twinControlRelease (h : AdminHdr)
  | migrationControlArm (h : AdminHdr) (peer : Nat) (idDigest : Nat)
  | migrationControlStart (h : AdminHdr) (auto : Bool) (peer : Nat) (idDigest : Nat) (nsids : List Nat)
  | migrationControlSeal (h : AdminHdr)
  | migrationControlAbort (h : AdminHdr)
  | migrationControlStatus (h : AdminHdr)
  | migrationControlResolve (h : AdminHdr) (cutOver : Bool)
  | sealDevice (h : AdminHdr) (perm : Bool)
  | unsealDevice (h : AdminHdr)
  | sealNamespace (h : AdminHdr) (perm : Bool)
  | unsealNamespace (h : AdminHdr)
  -- I/O commands and their steps
  | read (h : IoHdr) (slba nlb : Nat) (fua : Bool) (pr : PrInfo)
  | write (h : IoHdr) (slba nlb : Nat) (fua : Bool) (pr : PrInfo) (stream : Nat)
  | flush (h : IoHdr)
  | writeUncorrectable (h : IoHdr) (slba nlb : Nat)
  | writeZeroes (h : IoHdr) (slba nlb : Nat) (fua deac : Bool) (pr : PrInfo)
  | datasetManagement (h : IoHdr) (ad : Bool) (ranges : List (Nat × Nat))
  | verify (h : IoHdr) (slba nlb : Nat) (pr : PrInfo)
  | copy (h : IoHdr) (sdlba : Nat) (format : Nat) (ranges : List (Nat × Nat)) (fua : Bool) (prr prw : PrInfo)
  | fixityDigest (h : IoHdr) (slba nlb : Nat) (alg : Nat)
  | mapPageLoaded (cmd : Nat)
  | lc7AdmissionRetry (cmd : Nat)
  | dcForwardDone (cmd : Nat)
  | completionPost (cmd : Nat)
  | partialGrainMerge (stidx : Nat) (unreadableCause : Option Nat)
  | wordlineProgramStart (barrel member : Nat)
  | programVerifyDone (die block page : Nat) (pass : Bool)
  | gatherTimeout (vintage : Fin 6)
  | barrelOpen (vintage : Fin 5) (group : Nat)
  | readRoundDone (cmd : Nat) (lba : Nat) (result : DecodeResult)
  | readReadyTimeout (die : Nat) (afterRetrain : Bool) (cmd : Option Nat)
  | spDieoutWrite (who : Writer) (die : Nat) (key : BitVec 16)
  | fretTick
  | suspendRequest (die : Nat)
  | vatTurnEnd (group : Nat)
  | groupWordlineBoundary (group : Nat)
  | journalFlush
  | journalSegmentDurable (copyFailed : Bool)
  | checkpointSweepStart
  | sweepTimeout
  | sweepRootDurable (copyFailed : Bool)
  | mapLineRestored (nsid grain : Nat) (readable : Bool)
  | rackingStart (unreadable : List (Nat × Nat))
  | rackdoneDurable (barrel : Nat)
  | eraseintDurable (die block : Nat)
  | eraseDone (die block : Nat) (pass : Bool)
  | bottlingStart (die slot : Nat) (unreadable : List (Nat × Nat))
  | vatSlotErase (die slot : Nat)
  | ageRefresh (barrel : Nat) (unreadable : List (Nat × Nat))
  | blockRefresh (die block : Nat) (unreadable : List (Nat × Nat))
  | v4Reclaim
  | snapshotWrite
  | snapshotDurable (copyFailed : Bool)
  | rebuildStart (die : Nat)
  | rebuildWordlineDone (die : Nat) (row wordline : Nat) (last : Bool) (lostGrains : List (Nat × Nat))
  | groupDissolution (group : Nat)
  -- sequencers and channels
  | sequencerFault (cluster : Fin 8) (seq : Fin 9) (cause : SeqFault) (tookTenthUs : Nat)
  | yieldTimeout (cluster : Fin 8) (seq : Fin 9) (tookTenthUs : Nat)
  | channelRetrain (channel : Fin 64) (tempDelta : Nat)
  | retrainStep (channel : Fin 64) (failedTwice : Bool) (idChanged : List Nat)
  | patchSetLoad (cluster : Fin 8) (set : PatchSet) (atStartup : Bool)
  | patchHandoff (cluster : Fin 8) (phy : Fin 8)
  -- buffers and memories
  | bufferAllocate (owner : Fin 16) (n : Nat) (vc0 : Bool)
  | bufferFree (index : Nat) (owner : Fin 16)
  | poolRebuildDone (pool : Fin 16)
  | lineCheckFailure (address : Nat) (kind : LineKind)
  | staleGenerationAccess (address index : Nat) (generation : Nat) (isWrite : Bool)
  | mergeEntryTimeout (meport : Fin 8)
  -- fabric
  | gareoLinkTrained (link : Fin 12) (lanes : BitVec 4) (reversed : Bool) (peerUid peerNode peerLink : Nat)
  | flitReceived (link : Fin 12) (bytes : List Byte)
  | linkSilenceTimeout (link : Fin 12)
  | linkRetrainDone (link : Fin 12) (lanes : BitVec 4)
  | linkRetryTimer (link : Fin 12)
  | ackTimer (vc : Fin 4) (src : Nat)
  | frameResendTimeout (vc : Fin 4) (dst xseq : Nat)
  | hello (link : Fin 12) (uid candUid candDist epoch pref : Nat)
  | discoveryQuietTimeout
  | lsr (uid : Nat) (node : Option Nat) (pref : Option Nat) (links : List LinkReport)
  | table (epoch : Nat) (first : Nat) (entries : List Route)
  | epoch (num : Nat) (atNs : Nat)
  | epochApply
  | resync (vc : Fin 4) (src nextXseq : Nat)
  | ack (vc : Fin 4) (src xseq : Nat)
  | nak (vc : Fin 4) (src xseq cause : Nat)
  | timeExchangeTimer
  | time (t1 t2 t3 t4 : Nat) (masterStep : Nat)
  | coordinatorHeartbeat (answered : Bool)
  | coordinatorLoss
  | gfNodeReassign (who : Writer)
  | rdreq (h : FrameHdr) (offset len : Nat)
  | rdresp (h : FrameHdr) (data : List Byte)
  | writeFrame (h : FrameHdr) (offset : Nat) (data : List Byte)
  | mgmt (h : FrameHdr) (spdm : Bool) (descs : List NsDesc)
  -- twin
  | mirrorGranules (g : GrainRec)
  | mirrorCommitRecord (csn : Nat) (deltas : List GrainRec)
  | mirrorNamespaceOperation (op : NsOp)
  | mirrorLatencyClassTable (entries : List (Nat × List Nat))
  | mirrorXtsKey (nsid : Nat) (wrapped : Nat)
  | mirrorSnapshot (snap : Snap)
  | mirrorRepair (isAnswer : Bool) (g : GrainRec) (lostCsn : Nat)
  | hbSendTimer
  | hb (seq peerState : Nat) (csn : Nat)
  | hbPathLost (pathB : Bool) (sinceUs : Nat)
  | drainNotice (csn : Nat)
  | soloEntry (cmd : Nat)
  | soloExit (goodMs : Nat)
  | pairreq (src : Nat) (action : Nat) (idOk : Bool) (nsCount : Nat)
  | pairack (accepted identityOk : Bool)
  | switch (csn : Nat)
  | switchack (csn : Nat)
  | seedSegmentSend (nsid seg : Nat) (grains : List GrainRec)
  -- migration
  | migstart (src : Nat) (idOk : Bool) (descs : List NsDesc)
  | migack (result : Nat)
  | migrationSegmentSend (nsid seg : Nat)
  | migseg (g : GrainRec)
  | segdig (nsid seg pass : Nat) (theirs : Nat) (flip : Option (Fin 64))
  | segres (nsid seg pass result : Nat)
  | dirtyPassEnd
  | cutover (nsid sealCsn nguid eui : Nat) (last : Bool)
  | cutack (count : Nat)
  | migrationAbortMessage (cause : Nat)
  | migrationRouteTimeout (downMs : Nat)
  | stop (vc : Nat) (stream : Nat)
  -- digest engine
  | digestContextOpen (p : DigestParams)
  | digestSaveDone (ctx : Fin 64) (unwrapOk : Bool)
  | digestBlock (ctx : Fin 64) (block : List Byte) (poisoned last : Bool)
  | auditStart (who : Writer)
  | auditPeriodTimer
  | dgSecAdvance (who : Writer)
  | rngHealthFailure
  | ecMaxcorrClr (who : Writer)
  | spSubselWrite (who : Writer) (index : Nat)
  -- management
  | sensorSample (x : SensorSample)
  | eventLogFlush (count : Nat)
  | timeMarkWrite
  | mgWdogKick (who : Writer)
  | mgLogackWrite (who : Writer) (seq : Word)
  | ffRead (who : Writer)
  | ffProgram (who : Writer)
  | ffErase (who : Writer) (count : Nat)
  | ffReadhdr (who : Writer)
  | ffOperationDone (ok : Bool)
  | readNvmeMiDataStructure (dtyp portid cntlid : Nat)
  | nvmSubsystemHealthStatusPoll (clear : Bool)
  | controllerHealthStatusPoll (startCtrl maxCount : Nat) (clear : Bool)
  | configurationGet (cfg : Nat) (transport : Nat)
  | configurationSet (cfg : Nat) (transport value : Nat)
  | vpdRead (offset len : Nat)
  | miTunnelledAdminCommand (port : Port) (opcode nsid : Nat) (cdw : List Nat) (img : SlotImage)
  | setupRegisterRead (offset : Nat)
  | setupRegisterWrite (offset : Nat) (value : Word)
  | eventLogRead (firstSeq count area : Nat)
  | eventLogAcknowledge (seq : Nat)
  -- SPDM
  | getVersion (transport : Nat)
  | getCapabilities (transport : Nat)
  | negotiateAlgorithms (transport : Nat) (asym hash dhe aead : Nat)
  | getDigests (transport : Nat)
  | getCertificate (transport slot offset len : Nat)
  | setCertificate (transport slot : Nat) (chain : List Byte) (leafIsIdentity : Bool)
  | challenge (transport slot : Nat) (nonce : Nat)
  | getMeasurements (transport index : Nat) (signed : Bool) (nonce : Nat)
  | keyExchange (transport session : Nat) (mutualAuth : Bool)
  | finish (transport session : Nat) (peerIdOk : Bool)
  | endSession (transport session : Nat)
  -- faults and fault injection
  | policyCoreFault (unit : UnitFault)
  | fiArmKey (who : Writer) (key : BitVec 16)
  | fiDisarm (who : Writer)
  | fiArmTimeout
  | fiGfEn (who : Writer) (value : Word)
  | fiFlEn (who : Writer) (value : Word)
  | fiPcieEn (who : Writer) (value : Word)
  | fiKeySequenceTimeout
  | rngHealthRestored
  | managementResetEnd
  | configRegisterWrite (port : Port) (reg : Nat) (value : Word)
  | aspmL1Exit (port : Port)
  | cmbmscWrite (port : Port) (cmse : Bool) (cba : Nat)
  | deviceSelfTestComplete (result : Nat)
  | interruptCoalescingTimeout (port : Port) (vector : Nat)
  deriving DecidableEq, Repr

end Sys2Proof
end

