-- ==== Sys2Proof/Decode.lean ====
section
/-! DEFINITION. The command a word of spec/opcode_table.json spells. The table gives no row any bits: its rows are commands and
events named by their mnemonics, so no word spells one. -/
namespace Sys2Proof

/-- The command that the word `w` of `nbits` bits spells by the table's bits: the table gives none, so none. -/
def decodeTableWord (nbits w : Nat) : Option Instr :=
  match nbits, w with
  | _, _ => none

end Sys2Proof
end

