-- ==== Sys2Proof/Machine/Coding.lean ====
section
/-! DEFINITION. Data coding that the manual gives in full or by the standard it names: the SHA-512 family (R344, R109), CRC guards of protection
information (R233, R234), and the little list helpers they need. -/
namespace Sys2Proof.Machine

/-! The SHA-512 family (FIPS 180-4). -/

/-- The round constants of SHA-512. -/
def shaK : List Word64 :=
  [0x428A2F98D728AE22, 0x7137449123EF65CD, 0xB5C0FBCFEC4D3B2F, 0xE9B5DBA58189DBBC, 0x3956C25BF348B538] ++
  [0x59F111F1B605D019, 0x923F82A4AF194F9B, 0xAB1C5ED5DA6D8118, 0xD807AA98A3030242, 0x12835B0145706FBE] ++
  [0x243185BE4EE4B28C, 0x550C7DC3D5FFB4E2, 0x72BE5D74F27B896F, 0x80DEB1FE3B1696B1, 0x9BDC06A725C71235] ++
  [0xC19BF174CF692694, 0xE49B69C19EF14AD2, 0xEFBE4786384F25E3, 0x0FC19DC68B8CD5B5, 0x240CA1CC77AC9C65] ++
  [0x2DE92C6F592B0275, 0x4A7484AA6EA6E483, 0x5CB0A9DCBD41FBD4, 0x76F988DA831153B5, 0x983E5152EE66DFAB] ++
  [0xA831C66D2DB43210, 0xB00327C898FB213F, 0xBF597FC7BEEF0EE4, 0xC6E00BF33DA88FC2, 0xD5A79147930AA725] ++
  [0x06CA6351E003826F, 0x142929670A0E6E70, 0x27B70A8546D22FFC, 0x2E1B21385C26C926, 0x4D2C6DFC5AC42AED] ++
  [0x53380D139D95B3DF, 0x650A73548BAF63DE, 0x766A0ABB3C77B2A8, 0x81C2C92E47EDAEE6, 0x92722C851482353B] ++
  [0xA2BFE8A14CF10364, 0xA81A664BBC423001, 0xC24B8B70D0F89791, 0xC76C51A30654BE30, 0xD192E819D6EF5218] ++
  [0xD69906245565A910, 0xF40E35855771202A, 0x106AA07032BBD1B8, 0x19A4C116B8D2D0C8, 0x1E376C085141AB53] ++
  [0x2748774CDF8EEB99, 0x34B0BCB5E19B48A8, 0x391C0CB3C5C95A63, 0x4ED8AA4AE3418ACB, 0x5B9CCA4F7763E373] ++
  [0x682E6FF3D6B2B8A3, 0x748F82EE5DEFB2FC, 0x78A5636F43172F60, 0x84C87814A1F0AB72, 0x8CC702081A6439EC] ++
  [0x90BEFFFA23631E28, 0xA4506CEBDE82BDE9, 0xBEF9A3F7B2C67915, 0xC67178F2E372532B, 0xCA273ECEEA26619C] ++
  [0xD186B8C721C0C207, 0xEADA7DD6CDE0EB1E, 0xF57D4F7FEE6ED178, 0x06F067AA72176FBA, 0x0A637DC5A2C898A6] ++
  [0x113F9804BEF90DAE, 0x1B710B35131C471B, 0x28DB77F523047D84, 0x32CAAB7B40C72493, 0x3C9EBE0A15C9BEBC] ++
  [0x431D67C49C100D4C, 0x4CC5D4BECB3E42B6, 0x597F299CFC657E2A, 0x5FCB6FAB3AD6FAEC, 0x6C44198C4A475817]

/-- Initial hash value of SHA-512. -/
def shaInit512 : List Word64 :=
  [0x6A09E667F3BCC908, 0xBB67AE8584CAA73B, 0x3C6EF372FE94F82B, 0xA54FF53A5F1D36F1, 0x510E527FADE682D1] ++
  [0x9B05688C2B3E6C1F, 0x1F83D9ABFB41BD6B, 0x5BE0CD19137E2179]

/-- Initial hash value of SHA-384. -/
def shaInit384 : List Word64 :=
  [0xCBBB9D5DC1059ED8, 0x629A292A367CD507, 0x9159015A3070DD17, 0x152FECD8F70E5939, 0x67332667FFC00B31] ++
  [0x8EB44A8768581511, 0xDB0C2E0D64F98FA7, 0x47B5481DBEFA4FA4]

/-- Initial hash value of SHA-512/256. -/
def shaInit256 : List Word64 :=
  [0x22312194FC2BF72C, 0x9F555FA3C84C64C2, 0x2393B86B6F53B151, 0x963877195940EABD, 0x96283EE2A88EFFE3] ++
  [0xBE5E1E2553863992, 0x2B0199FC2C85B8AA, 0x0EB72DDC81C52CA2]

/-- Rotate right. -/
def ror64 (x : Word64) (n : Nat) : Word64 := x.rotateRight n

/-- Bytes as a big-endian number. -/
def beNat : List Byte → Nat
  | [] => 0
  | b :: t => b.toNat * 256 ^ t.length + beNat t

/-- A number as `n` bytes, most significant first. -/
def beBytes : (n : Nat) → Nat → List Byte
  | 0, _ => []
  | n + 1, v => BitVec.ofNat 8 (v / 256 ^ n) :: beBytes n v

/-- A number as `n` bytes, least significant first. -/
def leBytes : (n : Nat) → Nat → List Byte
  | 0, _ => []
  | n + 1, v => BitVec.ofNat 8 v :: leBytes n (v / 256)

/-- The `i`-th word of a schedule. -/
def wordAt (w : List Word64) (i : Nat) : Word64 := (w[i]?).getD 0

/-- Extend a block's 16 words by `n` words; the list is kept newest first. -/
def shaExtend : (n : Nat) → List Word64 → List Word64
  | 0, w => w
  | n + 1, w =>
    let a := wordAt w 14
    let b := wordAt w 1
    let s0 := ror64 a 1 ^^^ ror64 a 8 ^^^ (a >>> 7)
    let s1 := ror64 b 19 ^^^ ror64 b 61 ^^^ (b >>> 6)
    shaExtend n ((wordAt w 15 + s0 + wordAt w 6 + s1) :: w)

/-- The 16 words of a 128-byte block. -/
def blockWords (b : List Byte) : List Word64 := (List.range 16).map (fun i => BitVec.ofNat 64 (beNat ((b.drop (8 * i)).take 8)))

/-- One round on the working variables a to h. -/
def shaRound (v : List Word64) (kw : Word64) : List Word64 :=
  match v with
  | [a, b, c, d, e, f, g, h] =>
    let t1 := h + (ror64 e 14 ^^^ ror64 e 18 ^^^ ror64 e 41) + ((e &&& f) ^^^ (~~~ e &&& g)) + kw
    let t2 := (ror64 a 28 ^^^ ror64 a 34 ^^^ ror64 a 39) + ((a &&& b) ^^^ (a &&& c) ^^^ (b &&& c))
    [t1 + t2, a, b, c, d + t1, e, f, g]
  | _ => v

/-- The compression of one block. -/
def shaBlock (h : List Word64) (b : List Byte) : List Word64 :=
  let w := (shaExtend 64 (blockWords b).reverse).reverse
  let v := (shaK.zip w).foldl (fun v x => shaRound v (x.1 + x.2)) h
  (h.zip v).map (fun x => x.1 + x.2)

/-- Padding of a message of `n` bytes: 0x80, zeros, the length in bits as 128 bits. -/
def shaPad (n : Nat) : List Byte :=
  (0x80 : Byte) :: (List.replicate ((239 - n % 128) % 128) 0 ++ beBytes 16 (8 * n))

/-- Compress every block. -/
def shaBlocks : (n : Nat) → List Word64 → List Byte → List Word64
  | 0, h, _ => h
  | n + 1, h, m => shaBlocks n (shaBlock h (m.take 128)) (m.drop 128)

/-- A digest from an initial value. -/
def shaWith (init : List Word64) (m : List Byte) : List Byte :=
  let p := m ++ shaPad m.length
  (shaBlocks (p.length / 128) init p).flatMap (fun w => beBytes 8 w.toNat)

/-- The three algorithms of R109: 0 SHA-512, 1 SHA-384, else SHA-512/256. -/
def shaDigest (alg : Nat) (m : List Byte) : List Byte :=
  match alg with
  | 0 => shaWith shaInit512 m
  | 1 => (shaWith shaInit384 m).take 48
  | _ => (shaWith shaInit256 m).take 32

/-! Guards (R233). -/

/-- One bit of a most-significant-bit-first CRC-16. -/
def crc16Bit (poly : BitVec 16) (c : BitVec 16) : BitVec 16 := if c.msb then (c <<< 1) ^^^ poly else c <<< 1

/-- One byte. -/
def crc16Byte (poly : BitVec 16) (c : BitVec 16) (b : Byte) : BitVec 16 :=
  (List.range 8).foldl (fun x _ => crc16Bit poly x) (c ^^^ (b.zeroExtend 16 <<< 8))

/-- CRC-16 of a polynomial, from an initial value. -/
def crc16 (poly init : BitVec 16) (m : List Byte) : BitVec 16 := m.foldl (crc16Byte poly) init

/-- The 16-bit guard: CRC-16 of polynomial 0x8BB7. -/
def guard16 (m : List Byte) : Nat := (crc16 0x8BB7 0 m).toNat

/-- One bit of the reflected CRC-64. -/
def crc64Bit (c : Word64) : Word64 := if c.getLsbD 0 then (c >>> 1) ^^^ 0x9A6C9329AC4BC9B5 else c >>> 1

/-- One byte. -/
def crc64Byte (c : Word64) (b : Byte) : Word64 := (List.range 8).foldl (fun x _ => crc64Bit x) (c ^^^ b.zeroExtend 64)

/-- The NVMe CRC-64. -/
def guard64 (m : List Byte) : Nat := (~~~ (m.foldl crc64Byte (BitVec.allOnes 64))).toNat

/-- One bit of the reflected CRC-32C. -/
def crc32cBit (c : Word) : Word := if c.getLsbD 0 then (c >>> 1) ^^^ 0x82F63B78 else c >>> 1

/-- CRC-32C. -/
def crc32c (m : List Byte) : Word :=
  ~~~ (m.foldl (fun c b => (List.range 8).foldl (fun x _ => crc32cBit x) (c ^^^ b.zeroExtend 32)) (BitVec.allOnes 32))

end Sys2Proof.Machine
end

