-- ==== Sys2Proof/Machine/Cipher.lean ====
section
/-! DEFINITION. The ciphers of Table 0.1: AES-256 (FIPS 197), AES-256-XTS (IEEE 1619) on a granule of the stored form (R245), and AES-256 key
wrap (SP 800-38F), which keeps XTS keys in the firmware flash and carries them under the transport key (R244, R365). A byte is a number below
256. -/
namespace Sys2Proof.Machine

/-! AES-256. -/

/-- The S-box, 32 bytes to a number, the lowest byte first. -/
def aesSbox : List Nat :=
  [0xc072a49cafa2d4adf04759fa7dc982ca76abd7fe2b670130c56f6bf27b777c63,
   0x75b227ebe28012079a059618c323c7041531d871f1e5a534ccf73f362693fdb7,
   0xcf584c4a39becb6a5bb1fc20ed00d153842fe329b3d63b52a05a6e1b1a2c8309,
   0xd2f3ff1021dab6bcf5389d928f40a351a89f3c507f02f94585334d43fbaaefd0,
   0xdb0b5ede14b8ee4688902a22dc4f816073195d643d7ea7c41744975fec130ccd,
   0x08ae7a65eaf4566ca94ed58d6d37c8e779e4959162acd3c25c2406490a3a32e0,
   0x9e1dc186b95735610ef6034866b53e708a8bbd4b1f74dde8c6b4a61c2e2578ba,
   0x16bb54b00f2d99416842e6bf0d89a18cdf2855cee9871e9b948ed9691198f8e1]

/-- The inverse S-box. -/
def aesInvSbox : List Nat :=
  [0xcbe9dec444438e3487ff2f9b8239e37cfbd7f3819ea340bf38a53630d56a0952,
   0x25d18b6d49a25b76b224d92866a12e084ec3fa420b954cee3d23c2a632947b54,
   0x849d8da75746155edab9edfd5048706c92b6655dcc5ca4d41698688664f6f872,
   0x6b8a130103bdafc1020f3fca8f1e2cd00645b3b80558e4f70ad3bc8c00abd890,
   0x6edf751ce837f9e28535ade72274ac9673e6b4f0cecff297eadc674f4111913a,
   0xf45acd78fec0db9a2079d2c64b3e56fc1bbe18aa0e62b76f89c5291d711af147,
   0xef9cc9939f7ae52d0d4ab519a97f51605fec8027591012b131c7078833a8dd1f,
   0x7d0c2155631469e126d677ba7e042b17619953833cbbebc8b0f52aae4d3be0a0]

/-- The entry of a box for a byte. -/
def boxAt (box : List Nat) (x : Nat) : Nat := ((box[x / 32]?).getD 0) / 2 ^ (8 * (x % 32)) % 256

/-- Twice a byte in the field of AES. -/
def aesDouble (x : Nat) : Nat := if x < 128 then 2 * x else (2 * x - 256) ^^^ 0x1B

/-- The product of a byte with a constant below 16 in the field of AES. -/
def aesTimes (k x : Nat) : Nat :=
  let y := aesDouble x
  let z := aesDouble y
  (if k.testBit 0 then x else 0) ^^^ (if k.testBit 1 then y else 0) ^^^ (if k.testBit 2 then z else 0) ^^^ (if k.testBit 3 then aesDouble z else 0)

/-- Bytes combined one by one. -/
def xorBytes (a b : List Nat) : List Nat := List.zipWith (fun x y => x ^^^ y) a b

/-- The next round key from the two before it; `i` numbers it from 2. An even one rotates, substitutes and adds its round constant. -/
def nextRoundKey (i : Nat) (a b : List Nat) : List Nat :=
  let t := (b.drop 12).map (boxAt aesSbox)
  let t := if i % 2 = 0 then xorBytes (t.drop 1 ++ t.take 1) [2 ^ (i / 2 - 1), 0, 0, 0] else t
  let w0 := xorBytes (a.take 4) t
  let w1 := xorBytes ((a.drop 4).take 4) w0
  let w2 := xorBytes ((a.drop 8).take 4) w1
  w0 ++ w1 ++ w2 ++ xorBytes (a.drop 12) w2

/-- `n` round keys that follow two others. -/
def roundKeysFrom : (n i : Nat) → List Nat → List Nat → List (List Nat)
  | 0, _, _, _ => []
  | n + 1, i, a, b =>
    let k := nextRoundKey i a b
    k :: roundKeysFrom n (i + 1) b k

/-- The fifteen round keys of a 32-byte key. -/
def aesKeys (key : List Nat) : List (List Nat) :=
  key.take 16 :: key.drop 16 :: roundKeysFrom 13 2 (key.take 16) (key.drop 16)

/-- The rows of a block shift by their number, `k` places to a row. -/
def shiftRows (k : Nat) (b : List Nat) : List Nat := (List.range 16).map (fun i => (b[k * i % 16]?).getD 0)

/-- The columns of a block multiplied by a circulant matrix, given by its first row. -/
def mixColumns (m : List Nat) (b : List Nat) : List Nat :=
  (List.range 16).map (fun i =>
    let at_ := fun (j : Nat) => aesTimes ((m[j]?).getD 0) ((b[i / 4 * 4 + (i + j) % 4]?).getD 0)
    at_ 0 ^^^ at_ 1 ^^^ at_ 2 ^^^ at_ 3)

/-- The rounds of the cipher; the last does not mix. -/
def aesRounds : List (List Nat) → List Nat → List Nat
  | [], b => b
  | [k], b => xorBytes (shiftRows 5 (b.map (boxAt aesSbox))) k
  | k :: ks, b => aesRounds ks (xorBytes (mixColumns [2, 3, 1, 1] (shiftRows 5 (b.map (boxAt aesSbox)))) k)

/-- The rounds of the inverse cipher, with the round keys in reverse order. -/
def aesInvRounds : List (List Nat) → List Nat → List Nat
  | [], b => b
  | [k], b => xorBytes ((shiftRows 13 b).map (boxAt aesInvSbox)) k
  | k :: ks, b => aesInvRounds ks (mixColumns [14, 11, 13, 9] (xorBytes ((shiftRows 13 b).map (boxAt aesInvSbox)) k))

/-- AES-256 of a 16-byte block under fifteen round keys. -/
def aesBlock (ks : List (List Nat)) (b : List Nat) : List Nat := match ks with
  | [] => b
  | k :: t => aesRounds t (xorBytes b k)

/-- The inverse of AES-256. -/
def aesInvBlock (ks : List (List Nat)) (b : List Nat) : List Nat := match ks.reverse with
  | [] => b
  | k :: t => aesInvRounds t (xorBytes b k)

/-! XTS (R245). -/

/-- A number as bytes, the lowest first. -/
def numLe : (n v : Nat) → List Nat
  | 0, _ => []
  | n + 1, v => v % 256 :: numLe n (v / 256)

/-- Bytes as a number, the lowest first. -/
def leNum : List Nat → Nat
  | [] => 0
  | x :: t => x + 256 * leNum t

/-- The next tweak: times the primitive element of IEEE 1619. -/
def xtsNext (t : Nat) : Nat := if t < 2 ^ 127 then 2 * t else (2 * t - 2 ^ 128) ^^^ 0x87

/-- Blocks of a data unit through a block cipher with their tweaks. -/
def xtsBlocks (f : List Nat → List Nat) : (fuel t : Nat) → List Nat → List Nat
  | 0, _, _ => []
  | n + 1, t, d =>
    if d = [] then []
    else
      let w := numLe 16 t
      xorBytes (f (xorBytes (d.take 16) w)) w ++ xtsBlocks f n (xtsNext t) (d.drop 16)

/-- AES-256-XTS of a data unit of whole blocks: the first key enciphers, the second makes the tweak. -/
def xtsEncrypt (key1 key2 tweak data : List Nat) : List Nat :=
  xtsBlocks (aesBlock (aesKeys key1)) (data.length / 16) (leNum (aesBlock (aesKeys key2) tweak)) data

/-- The plaintext of a data unit. -/
def xtsDecrypt (key1 key2 tweak data : List Nat) : List Nat :=
  xtsBlocks (aesInvBlock (aesKeys key1)) (data.length / 16) (leNum (aesBlock (aesKeys key2) tweak)) data

/-- The 128-bit tweak of granule `j` of grain `g` with origin CSN `c` (R245). -/
def xtsTweak (c g j : Nat) : List Byte := leBytes 8 c ++ leBytes 5 g ++ leBytes 1 j ++ [0, 0]

/-- Granule `j` of a stored form as the media hold it in a namespace with XTS: `key` is the 512-bit key, the first AES-256 key in its first 32
bytes (R244, R245). -/
def granuleCipher (key : List Nat) (c g j : Nat) (granule : List Byte) : List Byte :=
  (xtsEncrypt (key.take 32) (key.drop 32) ((xtsTweak c g j).map (·.toNat)) (granule.map (·.toNat))).map (BitVec.ofNat 8)

/-- The stored form from the media's granule. -/
def granulePlain (key : List Nat) (c g j : Nat) (granule : List Byte) : List Byte :=
  (xtsDecrypt (key.take 32) (key.drop 32) ((xtsTweak c g j).map (·.toNat)) (granule.map (·.toNat))).map (BitVec.ofNat 8)

/-! Key wrap (SP 800-38F). -/

/-- A number as bytes, the highest first. -/
def numBe (n v : Nat) : List Nat := (numLe n v).reverse

/-- Bytes as a number, the highest first. -/
def beNum (l : List Nat) : Nat := leNum l.reverse

/-- One step of the wrap: the integrity block and a 64-bit part with step number `t`. -/
def wrapStep (ks : List (List Nat)) (t a r : Nat) : Nat × Nat :=
  let b := beNum (aesBlock ks (numBe 8 a ++ numBe 8 r))
  ((b / 2 ^ 64) ^^^ t, b % 2 ^ 64)

/-- One pass over the parts. -/
def wrapPass (ks : List (List Nat)) : (t a : Nat) → List Nat → Nat × List Nat
  | _, a, [] => (a, [])
  | t, a, r :: rs =>
    let x := wrapStep ks t a r
    let y := wrapPass ks (t + 1) x.1 rs
    (y.1, x.2 :: y.2)

/-- AES-256 key wrap of 64-bit parts: the integrity block, then the wrapped parts. -/
def keyWrap (kek : List Nat) (parts : List Nat) : List Nat :=
  let ks := aesKeys kek
  let y := (List.range 6).foldl (fun (x : Nat × List Nat) j => wrapPass ks (parts.length * j + 1) x.1 x.2) (0xA6A6A6A6A6A6A6A6, parts)
  y.1 :: y.2

/-- One step of the unwrap. -/
def unwrapStep (ks : List (List Nat)) (t a r : Nat) : Nat × Nat :=
  let b := beNum (aesInvBlock ks (numBe 8 (a ^^^ t) ++ numBe 8 r))
  (b / 2 ^ 64, b % 2 ^ 64)

/-- One pass over the parts in reverse order, `t` the number of the first. -/
def unwrapPass (ks : List (List Nat)) : (t a : Nat) → List Nat → Nat × List Nat
  | _, a, [] => (a, [])
  | t, a, r :: rs =>
    let x := unwrapStep ks t a r
    let y := unwrapPass ks (t - 1) x.1 rs
    (y.1, x.2 :: y.2)

/-- The parts of a wrapped key; `none` where the integrity check fails. -/
def keyUnwrap (kek : List Nat) (wrapped : List Nat) : Option (List Nat) :=
  match wrapped with
  | [] => none
  | a :: rs =>
    let ks := aesKeys kek
    let n := rs.length
    let y := (List.range 6).foldl (fun (x : Nat × List Nat) j => unwrapPass ks (n * (6 - j)) x.1 x.2) (a, rs.reverse)
    if y.1 = 0xA6A6A6A6A6A6A6A6 then some y.2.reverse else none

/-- A 512-bit key as eight 64-bit parts. -/
def keyParts (key : Nat) : List Nat := (List.range 8).map (fun i => key / 2 ^ (64 * (7 - i)) % 2 ^ 64)

/-- A 512-bit XTS key wrapped under a 256-bit key, as a number (R244). -/
def wrapXtsKey (kek key : Nat) : Nat := (keyWrap (numBe 32 kek) (keyParts key)).foldl (fun a w => a * 2 ^ 64 + w) 0

/-- A wrapped XTS key; `none` where it does not unwrap (R246). -/
def unwrapXtsKey (kek wrapped : Nat) : Option Nat :=
  (keyUnwrap (numBe 32 kek) ((List.range 9).map (fun i => wrapped / 2 ^ (64 * (8 - i)) % 2 ^ 64))).map (fun ps => ps.foldl (fun a w => a * 2 ^ 64 + w) 0)

end Sys2Proof.Machine
end

