-- ==== Sys2Proof/Config.lean ====
section
/-! DEFINITION. What an implementation fixes, and the values the spec leaves open: the free values have no body, so no proof can
see what they are. Each is named in the assumption log. -/
namespace Sys2Proof.Config

/-- A fresh free value: the n-th value that the part determines and the spec does not state (log entry 2). -/
opaque freeValue : Nat → Nat

/-- The stored length in granules that the compressor reaches (R240: its output is not specified): bounded by its user to what
R236 allows, 1 to the raw length (log entry 3). -/
opaque compressedGranules : Nat → Nat

/-- The 512-bit key that the random generator serves (R361), or that a peer sends wrapped, as a number (log entries 4 and 119). -/
opaque randomKey : Nat → Nat

/-- The base matrix of the LDPC code (R249): published through EC_HDATA, its entries not given. `none` is a zero block (log
entry 5). -/
opaque baseMatrix : Nat → Nat → Option (Fin 128)

/-- The digest of this Y9's identity public key (R362), as a number (log entry 4). -/
opaque identityDigest : Nat → Nat

/-- The worst-case power-loss start-up time in ms that the Y9 computes for the installed geometry and DRAM (R41), by number of
dies, blocks per die and DRAM size (log entry 6). -/
opaque worstStartupMs : Nat → Nat → Nat → Nat

/-- The content of the fields Identify leaves to the part: identifiers read from fuses (R96) (log entry 5). -/
opaque fuseIdent : Nat → Nat

/-- The SRAM repair row of a device address: the geometry of SRAM rows is not given (R296, R389) (log entry 50). -/
opaque sramRow : Nat → Nat

/-- The 256-bit device key-encryption key in the security fuses (Table 14.8), as a number (log entry 119). -/
opaque kek : Nat

/-- The 256-bit transport key last agreed with a fabric node (R365), as a number (log entry 119). -/
opaque transportKey : Nat → Nat

/-- The descriptor base of an operation on a die, block and page: FS, MM and SP place descriptors before the operation is queued, and the spec
does not say where (R263, R267) (log entry 117). -/
opaque descBase : Nat → Nat → Nat → Nat

end Sys2Proof.Config
end

