-- ==== Sys2Proof/Machine/Regs.lean ====
section
/-! DEFINITION. Every field of every setup register (Tables 2.6 to 16.x, R7 to R9): its BAR0 offset, place, access, timing,
reset value and the range outside which a write is ignored. A field's name is the spec's: Reg.GEN_ERR.LOCKWR. -/
namespace Sys2Proof.Machine

/-- How a field may be written (R8). -/
inductive Access where
  | ro
  | rw
  | w1c
  | w1s
  | wo
  deriving DecidableEq, Repr

/-- When a write takes effect (R9). -/
inductive Timing where
  | live
  | locked
  | staged (at_ : CommitPoint)
  deriving DecidableEq, Repr

/-- One field: register offset, lowest bit, width, access, timing, reset value and permitted range. -/
structure Field where
  reg : Nat
  lo : Nat
  width : Nat
  acc : Access
  tim : Timing
  rst : Nat
  rmin : Nat
  rmax : Nat
  deriving DecidableEq, Repr

/-- The field's key in the register store: the position of its lowest bit in the setup space. -/
def Field.key (f : Field) : Nat := f.reg * 8 + f.lo


/-! The GEN block (chapter 2). -/

def Reg.GEN_ID.STEP : Field := ⟨0x80000, 0, 8, .ro, .live, 0xb0, 0, 255⟩
def Reg.GEN_ID.PART : Field := ⟨0x80000, 8, 16, .ro, .live, 0x9, 0, 65535⟩
def Reg.GEN_MODE.MODE : Field := ⟨0x80004, 0, 4, .ro, .live, 0x0, 0, 15⟩
def Reg.GEN_MODE.PREV : Field := ⟨0x80004, 4, 4, .ro, .live, 0x0, 0, 15⟩
def Reg.GEN_MODE.CAUSE : Field := ⟨0x80004, 8, 8, .ro, .live, 0x0, 0, 255⟩
def Reg.GEN_MODEREQ.TARGET : Field := ⟨0x80008, 0, 4, .wo, .live, 0x0, 0, 15⟩
def Reg.GEN_MODEREQ.KEY : Field := ⟨0x80008, 16, 16, .wo, .live, 0x0, 0, 65535⟩
def Reg.GEN_OWNER.HOLDER : Field := ⟨0x8000c, 0, 2, .ro, .live, 0x2, 0, 3⟩
def Reg.GEN_OWNER.CLAIM : Field := ⟨0x8000c, 4, 1, .w1s, .live, 0x0, 0, 1⟩
def Reg.GEN_OWNER.RELEASE : Field := ⟨0x8000c, 5, 1, .w1s, .live, 0x0, 0, 1⟩
def Reg.GEN_OWNER.SEIZE : Field := ⟨0x8000c, 6, 1, .w1s, .live, 0x0, 0, 1⟩
def Reg.GEN_OWNER.SEIZED : Field := ⟨0x8000c, 8, 1, .w1c, .live, 0x0, 0, 1⟩
def Reg.GEN_ERR.LOCKWR : Field := ⟨0x80010, 0, 1, .w1c, .live, 0x0, 0, 1⟩
def Reg.GEN_ERR.OWNWR : Field := ⟨0x80010, 1, 1, .w1c, .live, 0x0, 0, 1⟩
def Reg.GEN_ERR.MODEREQ : Field := ⟨0x80010, 2, 1, .w1c, .live, 0x0, 0, 1⟩
def Reg.GEN_ERR.RANGE : Field := ⟨0x80010, 3, 1, .w1c, .live, 0x0, 0, 1⟩
def Reg.GEN_ERRADDR.OFFSET : Field := ⟨0x80014, 0, 20, .ro, .live, 0x0, 0, 1048575⟩
def Reg.GEN_ERRADDR.SRC : Field := ⟨0x80014, 30, 2, .ro, .live, 0x0, 0, 3⟩
def Reg.GEN_RESET.KIND : Field := ⟨0x80018, 0, 3, .wo, .live, 0x0, 0, 7⟩
def Reg.GEN_RESET.KEY : Field := ⟨0x80018, 16, 16, .wo, .live, 0x0, 0, 65535⟩
def Reg.GEN_RSTCAUSE.POR : Field := ⟨0x8001c, 0, 1, .w1c, .live, 0x1, 0, 1⟩
def Reg.GEN_RSTCAUSE.Y9RST : Field := ⟨0x8001c, 1, 1, .w1c, .live, 0x0, 0, 1⟩
def Reg.GEN_RSTCAUSE.MGRST : Field := ⟨0x8001c, 2, 1, .w1c, .live, 0x0, 0, 1⟩
def Reg.GEN_RSTCAUSE.WDOG : Field := ⟨0x8001c, 3, 1, .w1c, .live, 0x0, 0, 1⟩
def Reg.GEN_RSTCAUSE.LOCKSTEP : Field := ⟨0x8001c, 4, 1, .w1c, .live, 0x0, 0, 1⟩
def Reg.GEN_RSTCAUSE.PERST : Field := ⟨0x8001c, 5, 1, .w1c, .live, 0x0, 0, 1⟩
def Reg.GEN_RSTCAUSE.FLR0 : Field := ⟨0x8001c, 6, 1, .w1c, .live, 0x0, 0, 1⟩
def Reg.GEN_RSTCAUSE.FLR1 : Field := ⟨0x8001c, 7, 1, .w1c, .live, 0x0, 0, 1⟩
def Reg.GEN_START.KIND : Field := ⟨0x80020, 0, 1, .ro, .live, 0x0, 0, 1⟩
def Reg.GEN_START.DRAINOK : Field := ⟨0x80020, 1, 1, .ro, .live, 0x0, 0, 1⟩
def Reg.GEN_START.BOOTBLK : Field := ⟨0x80020, 2, 1, .ro, .live, 0x0, 0, 1⟩
def Reg.GEN_START.SLOWGEO : Field := ⟨0x80020, 3, 1, .ro, .live, 0x0, 0, 1⟩
def Reg.GEN_START.DURATION : Field := ⟨0x80020, 16, 16, .ro, .live, 0x0, 0, 65535⟩
def Reg.GEN_DRAIN.DIRTYCAP : Field := ⟨0x80024, 0, 16, .rw, (.staged .journalFlush), 0x100, 16, 256⟩
def Reg.GEN_DRAIN.ACTIVE : Field := ⟨0x80024, 16, 1, .ro, .live, 0x0, 0, 1⟩
def Reg.GEN_HOLDUP.ENERGY : Field := ⟨0x80028, 0, 16, .ro, .live, 0x0, 0, 65535⟩
def Reg.GEN_HOLDUP.VERIFIED : Field := ⟨0x80028, 16, 1, .ro, .live, 0x0, 0, 1⟩
def Reg.GEN_HOLDUP.WTHRU : Field := ⟨0x80028, 17, 1, .ro, .live, 0x1, 0, 1⟩

/-- The fields of GEN, part 0. -/
def fieldsGEN0 : List Field :=
  [Reg.GEN_ID.STEP, Reg.GEN_ID.PART, Reg.GEN_MODE.MODE, Reg.GEN_MODE.PREV, Reg.GEN_MODE.CAUSE,
   Reg.GEN_MODEREQ.TARGET, Reg.GEN_MODEREQ.KEY, Reg.GEN_OWNER.HOLDER, Reg.GEN_OWNER.CLAIM,
   Reg.GEN_OWNER.RELEASE, Reg.GEN_OWNER.SEIZE, Reg.GEN_OWNER.SEIZED, Reg.GEN_ERR.LOCKWR, Reg.GEN_ERR.OWNWR,
   Reg.GEN_ERR.MODEREQ, Reg.GEN_ERR.RANGE, Reg.GEN_ERRADDR.OFFSET, Reg.GEN_ERRADDR.SRC, Reg.GEN_RESET.KIND,
   Reg.GEN_RESET.KEY, Reg.GEN_RSTCAUSE.POR, Reg.GEN_RSTCAUSE.Y9RST, Reg.GEN_RSTCAUSE.MGRST,
   Reg.GEN_RSTCAUSE.WDOG, Reg.GEN_RSTCAUSE.LOCKSTEP, Reg.GEN_RSTCAUSE.PERST, Reg.GEN_RSTCAUSE.FLR0,
   Reg.GEN_RSTCAUSE.FLR1, Reg.GEN_START.KIND, Reg.GEN_START.DRAINOK, Reg.GEN_START.BOOTBLK,
   Reg.GEN_START.SLOWGEO, Reg.GEN_START.DURATION, Reg.GEN_DRAIN.DIRTYCAP, Reg.GEN_DRAIN.ACTIVE,
   Reg.GEN_HOLDUP.ENERGY, Reg.GEN_HOLDUP.VERIFIED, Reg.GEN_HOLDUP.WTHRU]

/-- The fields of GEN. -/
def fieldsGEN : List Field := fieldsGEN0

/-! The HE block (chapter 3). -/

def Reg.HE_CFG.APMODE : Field := ⟨0x88000, 0, 1, .rw, .locked, 0x0, 0, 1⟩
def Reg.HE_CFG.CMBSZ_A : Field := ⟨0x88000, 4, 4, .rw, .locked, 0x0, 0, 9⟩
def Reg.HE_CFG.CMBSZ_B : Field := ⟨0x88000, 8, 4, .rw, .locked, 0x0, 0, 9⟩
def Reg.HE_CFG.MAXRATE : Field := ⟨0x88000, 12, 3, .rw, .locked, 0x5, 0, 5⟩
def Reg.HE_LINKSTAT.BIFUR : Field := ⟨0x88004, 0, 1, .ro, .live, 0x0, 0, 1⟩
def Reg.HE_LINKSTAT.A_RATE : Field := ⟨0x88004, 1, 3, .ro, .live, 0x0, 0, 7⟩
def Reg.HE_LINKSTAT.A_WIDTH : Field := ⟨0x88004, 4, 5, .ro, .live, 0x0, 0, 31⟩
def Reg.HE_LINKSTAT.A_FLIT : Field := ⟨0x88004, 9, 1, .ro, .live, 0x0, 0, 1⟩
def Reg.HE_LINKSTAT.A_UP : Field := ⟨0x88004, 10, 1, .ro, .live, 0x0, 0, 1⟩
def Reg.HE_LINKSTAT.B_RATE : Field := ⟨0x88004, 17, 3, .ro, .live, 0x0, 0, 7⟩
def Reg.HE_LINKSTAT.B_WIDTH : Field := ⟨0x88004, 20, 5, .ro, .live, 0x0, 0, 31⟩
def Reg.HE_LINKSTAT.B_FLIT : Field := ⟨0x88004, 25, 1, .ro, .live, 0x0, 0, 1⟩
def Reg.HE_LINKSTAT.B_UP : Field := ⟨0x88004, 26, 1, .ro, .live, 0x0, 0, 1⟩
def Reg.HE_LINKREC_A.LAST : Field := ⟨0x88008, 0, 16, .ro, .live, 0x0, 0, 65535⟩
def Reg.HE_LINKREC_A.COUNT : Field := ⟨0x88008, 16, 16, .ro, .live, 0x0, 0, 65535⟩
def Reg.HE_LINKREC_B.LAST : Field := ⟨0x8800c, 0, 16, .ro, .live, 0x0, 0, 65535⟩
def Reg.HE_LINKREC_B.COUNT : Field := ⟨0x8800c, 16, 16, .ro, .live, 0x0, 0, 65535⟩
def Reg.HE_TAGLIM.A_LIMIT : Field := ⟨0x88010, 0, 13, .rw, .live, 0x1000, 16, 4096⟩
def Reg.HE_TAGLIM.B_LIMIT : Field := ⟨0x88010, 16, 13, .rw, .live, 0x1000, 16, 4096⟩
def Reg.HE_ERRSTAT.A_CTO : Field := ⟨0x88014, 0, 1, .w1c, .live, 0x0, 0, 1⟩
def Reg.HE_ERRSTAT.A_POISRX : Field := ⟨0x88014, 1, 1, .w1c, .live, 0x0, 0, 1⟩
def Reg.HE_ERRSTAT.A_UNEXP : Field := ⟨0x88014, 2, 1, .w1c, .live, 0x0, 0, 1⟩
def Reg.HE_ERRSTAT.A_BADMMIO : Field := ⟨0x88014, 3, 1, .w1c, .live, 0x0, 0, 1⟩
def Reg.HE_ERRSTAT.A_SQEFAIL : Field := ⟨0x88014, 4, 1, .w1c, .live, 0x0, 0, 1⟩
def Reg.HE_ERRSTAT.B_CTO : Field := ⟨0x88014, 16, 1, .w1c, .live, 0x0, 0, 1⟩
def Reg.HE_ERRSTAT.B_POISRX : Field := ⟨0x88014, 17, 1, .w1c, .live, 0x0, 0, 1⟩
def Reg.HE_ERRSTAT.B_UNEXP : Field := ⟨0x88014, 18, 1, .w1c, .live, 0x0, 0, 1⟩
def Reg.HE_ERRSTAT.B_BADMMIO : Field := ⟨0x88014, 19, 1, .w1c, .live, 0x0, 0, 1⟩
def Reg.HE_ERRSTAT.B_SQEFAIL : Field := ⟨0x88014, 20, 1, .w1c, .live, 0x0, 0, 1⟩
def Reg.HE_EPCNT.A_COUNT : Field := ⟨0x88018, 0, 16, .ro, .live, 0x0, 0, 65535⟩
def Reg.HE_EPCNT.B_COUNT : Field := ⟨0x88018, 16, 16, .ro, .live, 0x0, 0, 65535⟩
def Reg.HE_WINCOMMIT.COMMIT_A : Field := ⟨0x88020, 0, 1, .wo, .live, 0x0, 0, 1⟩
def Reg.HE_WINCOMMIT.COMMIT_B : Field := ⟨0x88020, 1, 1, .wo, .live, 0x0, 0, 1⟩
def Reg.HE_WINCOMMIT.COPY : Field := ⟨0x88020, 4, 1, .wo, .live, 0x0, 0, 1⟩
def Reg.HE_WINSTAT.A_GEN : Field := ⟨0x88024, 0, 8, .ro, .live, 0x0, 0, 255⟩
def Reg.HE_WINSTAT.A_BUSY : Field := ⟨0x88024, 8, 1, .ro, .live, 0x0, 0, 1⟩
def Reg.HE_WINSTAT.A_BAD : Field := ⟨0x88024, 9, 1, .ro, .live, 0x0, 0, 1⟩
def Reg.HE_WINSTAT.A_BUSYWR : Field := ⟨0x88024, 10, 1, .w1c, .live, 0x0, 0, 1⟩
def Reg.HE_WINSTAT.B_GEN : Field := ⟨0x88024, 16, 8, .ro, .live, 0x0, 0, 255⟩
def Reg.HE_WINSTAT.B_BUSY : Field := ⟨0x88024, 24, 1, .ro, .live, 0x0, 0, 1⟩
def Reg.HE_WINSTAT.B_BAD : Field := ⟨0x88024, 25, 1, .ro, .live, 0x0, 0, 1⟩
def Reg.HE_WINSTAT.B_BUSYWR : Field := ⟨0x88024, 26, 1, .w1c, .live, 0x0, 0, 1⟩
def Reg.HE_WINBAD.IDX : Field := ⟨0x88028, 0, 8, .ro, .live, 0x0, 0, 255⟩
def Reg.HE_WINBAD.CAUSE : Field := ⟨0x88028, 8, 3, .ro, .live, 0x0, 0, 7⟩
def Reg.HE_WINBAD.PORT : Field := ⟨0x88028, 16, 1, .ro, .live, 0x0, 0, 1⟩
def Reg.HE_WINLOG.COUNT : Field := ⟨0x8802c, 0, 16, .ro, .live, 0x0, 0, 65535⟩
def Reg.HE_WINLOG.CAUSE : Field := ⟨0x8802c, 16, 3, .ro, .live, 0x0, 0, 7⟩
def Reg.HE_WINLOG.PORT : Field := ⟨0x8802c, 19, 1, .ro, .live, 0x0, 0, 1⟩
def Reg.HE_WINLOG.CLR : Field := ⟨0x8802c, 31, 1, .w1s, .live, 0x0, 0, 1⟩
def Reg.HE_WINLOGLO.OFFSET : Field := ⟨0x88030, 0, 32, .ro, .live, 0x0, 0, 4294967295⟩
def Reg.HE_WINLOGHI.OFFSET : Field := ⟨0x88034, 0, 4, .ro, .live, 0x0, 0, 15⟩
def Reg.HE_WINLOGHI.RID : Field := ⟨0x88034, 16, 16, .ro, .live, 0x0, 0, 65535⟩

/-- The fields of HE, part 0. -/
def fieldsHE0 : List Field :=
  [Reg.HE_CFG.APMODE, Reg.HE_CFG.CMBSZ_A, Reg.HE_CFG.CMBSZ_B, Reg.HE_CFG.MAXRATE, Reg.HE_LINKSTAT.BIFUR,
   Reg.HE_LINKSTAT.A_RATE, Reg.HE_LINKSTAT.A_WIDTH, Reg.HE_LINKSTAT.A_FLIT, Reg.HE_LINKSTAT.A_UP,
   Reg.HE_LINKSTAT.B_RATE, Reg.HE_LINKSTAT.B_WIDTH, Reg.HE_LINKSTAT.B_FLIT, Reg.HE_LINKSTAT.B_UP,
   Reg.HE_LINKREC_A.LAST, Reg.HE_LINKREC_A.COUNT, Reg.HE_LINKREC_B.LAST, Reg.HE_LINKREC_B.COUNT,
   Reg.HE_TAGLIM.A_LIMIT, Reg.HE_TAGLIM.B_LIMIT, Reg.HE_ERRSTAT.A_CTO, Reg.HE_ERRSTAT.A_POISRX,
   Reg.HE_ERRSTAT.A_UNEXP, Reg.HE_ERRSTAT.A_BADMMIO, Reg.HE_ERRSTAT.A_SQEFAIL, Reg.HE_ERRSTAT.B_CTO,
   Reg.HE_ERRSTAT.B_POISRX, Reg.HE_ERRSTAT.B_UNEXP, Reg.HE_ERRSTAT.B_BADMMIO, Reg.HE_ERRSTAT.B_SQEFAIL,
   Reg.HE_EPCNT.A_COUNT, Reg.HE_EPCNT.B_COUNT, Reg.HE_WINCOMMIT.COMMIT_A, Reg.HE_WINCOMMIT.COMMIT_B,
   Reg.HE_WINCOMMIT.COPY, Reg.HE_WINSTAT.A_GEN, Reg.HE_WINSTAT.A_BUSY, Reg.HE_WINSTAT.A_BAD,
   Reg.HE_WINSTAT.A_BUSYWR, Reg.HE_WINSTAT.B_GEN, Reg.HE_WINSTAT.B_BUSY]

/-- The fields of HE, part 1. -/
def fieldsHE1 : List Field :=
  [Reg.HE_WINSTAT.B_BAD, Reg.HE_WINSTAT.B_BUSYWR, Reg.HE_WINBAD.IDX, Reg.HE_WINBAD.CAUSE, Reg.HE_WINBAD.PORT,
   Reg.HE_WINLOG.COUNT, Reg.HE_WINLOG.CAUSE, Reg.HE_WINLOG.PORT, Reg.HE_WINLOG.CLR, Reg.HE_WINLOGLO.OFFSET,
   Reg.HE_WINLOGHI.OFFSET, Reg.HE_WINLOGHI.RID]

/-- The fields of HE. -/
def fieldsHE : List Field := fieldsHE0 ++ fieldsHE1

/-! The QE block (chapter 5). -/

def Reg.QE_POLL.INTERVAL : Field := ⟨0x90000, 0, 5, .rw, .live, 0x2, 1, 16⟩
def Reg.QE_POLL.A_STOPPED : Field := ⟨0x90000, 8, 1, .ro, .live, 0x0, 0, 1⟩
def Reg.QE_POLL.B_STOPPED : Field := ⟨0x90000, 9, 1, .ro, .live, 0x0, 0, 1⟩
def Reg.QE_REFUSE.COUNT : Field := ⟨0x90004, 0, 32, .ro, .live, 0x0, 0, 4294967295⟩
def Reg.QE_HOSTXS.LAST : Field := ⟨0x90008, 0, 16, .ro, .live, 0x0, 0, 65535⟩
def Reg.QE_HOSTXS.COUNT : Field := ⟨0x90008, 16, 16, .ro, .live, 0x0, 0, 65535⟩
def Reg.QE_CQFULL.LAST : Field := ⟨0x9000c, 0, 16, .ro, .live, 0x0, 0, 65535⟩
def Reg.QE_CQFULL.COUNT : Field := ⟨0x9000c, 16, 16, .ro, .live, 0x0, 0, 65535⟩

/-- The fields of QE, part 0. -/
def fieldsQE0 : List Field :=
  [Reg.QE_POLL.INTERVAL, Reg.QE_POLL.A_STOPPED, Reg.QE_POLL.B_STOPPED, Reg.QE_REFUSE.COUNT, Reg.QE_HOSTXS.LAST,
   Reg.QE_HOSTXS.COUNT, Reg.QE_CQFULL.LAST, Reg.QE_CQFULL.COUNT]

/-- The fields of QE. -/
def fieldsQE : List Field := fieldsQE0

/-! The FS block (chapter 5). -/

def Reg.FS_CFG.SEGMAX : Field := ⟨0x98000, 0, 4, .rw, .locked, 0xc, 4, 12⟩
def Reg.FS_CFG.WINRDS : Field := ⟨0x98000, 4, 3, .rw, (.staged .horizonBoundary), 0x2, 1, 4⟩
def Reg.FS_CFG.CSLOTS : Field := ⟨0x98000, 8, 3, .rw, (.staged .horizonBoundary), 0x2, 1, 4⟩
def Reg.FS_VAT.GROUPS : Field := ⟨0x98004, 0, 4, .rw, (.staged .turnEnd), 0x2, 1, 8⟩
def Reg.FS_BGBUD0.RACK : Field := ⟨0x98008, 0, 8, .rw, (.staged .horizonBoundary), 0x20, 0, 255⟩
def Reg.FS_BGBUD0.REFRESH : Field := ⟨0x98008, 8, 8, .rw, (.staged .horizonBoundary), 0x8, 0, 255⟩
def Reg.FS_BGBUD0.REBUILD : Field := ⟨0x98008, 16, 8, .rw, (.staged .horizonBoundary), 0x10, 0, 255⟩
def Reg.FS_BGBUD0.AUDIT : Field := ⟨0x98008, 24, 8, .rw, (.staged .horizonBoundary), 0x4, 0, 255⟩
def Reg.FS_BGBUD1.MIGR : Field := ⟨0x9800c, 0, 8, .rw, (.staged .horizonBoundary), 0x10, 0, 255⟩
def Reg.FS_BGBUD1.BOTTLE : Field := ⟨0x9800c, 8, 8, .rw, (.staged .horizonBoundary), 0x10, 0, 255⟩
def Reg.FS_THROT.LEVEL : Field := ⟨0x98010, 0, 2, .ro, .live, 0x0, 0, 3⟩
def Reg.FS_THROT.SHARE : Field := ⟨0x98010, 8, 8, .ro, .live, 0x0, 0, 255⟩
def Reg.FS_CONT.CLAIMS : Field := ⟨0x98014, 0, 16, .ro, .live, 0x0, 0, 65535⟩
def Reg.FS_CONT.DISPL : Field := ⟨0x98014, 16, 8, .ro, .live, 0x0, 0, 255⟩
def Reg.FS_CONT.BEYOND : Field := ⟨0x98014, 24, 8, .ro, .live, 0x0, 0, 255⟩
def Reg.FS_FRET.NUM : Field := ⟨0x98018, 0, 32, .ro, .live, 0x0, 0, 4294967295⟩

/-- The fields of FS, part 0. -/
def fieldsFS0 : List Field :=
  [Reg.FS_CFG.SEGMAX, Reg.FS_CFG.WINRDS, Reg.FS_CFG.CSLOTS, Reg.FS_VAT.GROUPS, Reg.FS_BGBUD0.RACK,
   Reg.FS_BGBUD0.REFRESH, Reg.FS_BGBUD0.REBUILD, Reg.FS_BGBUD0.AUDIT, Reg.FS_BGBUD1.MIGR, Reg.FS_BGBUD1.BOTTLE,
   Reg.FS_THROT.LEVEL, Reg.FS_THROT.SHARE, Reg.FS_CONT.CLAIMS, Reg.FS_CONT.DISPL, Reg.FS_CONT.BEYOND,
   Reg.FS_FRET.NUM]

/-- The fields of FS. -/
def fieldsFS : List Field := fieldsFS0

/-! The MX block (chapter 6). -/

def Reg.MX_CFG.REGION : Field := ⟨0xa0000, 0, 10, .rw, .locked, 0xc0, 0, 480⟩
def Reg.MX_CFG.PGCACHE : Field := ⟨0xa0000, 12, 8, .rw, .locked, 0x10, 1, 64⟩
def Reg.MX_CSNLO.CSN : Field := ⟨0xa0004, 0, 32, .ro, .live, 0x0, 0, 4294967295⟩
def Reg.MX_CSNHI.CSN : Field := ⟨0xa0008, 0, 32, .ro, .live, 0x0, 0, 4294967295⟩
def Reg.MX_CEILLO.CEIL : Field := ⟨0xa000c, 0, 32, .ro, .live, 0x0, 0, 4294967295⟩
def Reg.MX_CEILHI.CEIL : Field := ⟨0xa0010, 0, 32, .ro, .live, 0x0, 0, 4294967295⟩
def Reg.MX_JSEQLO.SEQ : Field := ⟨0xa0014, 0, 32, .ro, .live, 0x0, 0, 4294967295⟩
def Reg.MX_JSEQHI.SEQ : Field := ⟨0xa0018, 0, 32, .ro, .live, 0x0, 0, 4294967295⟩
def Reg.MX_CKPT.REPLAYMAX : Field := ⟨0xa001c, 0, 3, .rw, .locked, 0x2, 1, 4⟩
def Reg.MX_CKPT.RATE : Field := ⟨0xa001c, 4, 8, .rw, (.staged .sweepStart), 0xa, 2, 40⟩
def Reg.MX_CKPT.SWEEPS : Field := ⟨0xa001c, 16, 16, .ro, .live, 0x0, 0, 65535⟩
def Reg.MX_LAG.RECORDS : Field := ⟨0xa0020, 0, 32, .ro, .live, 0x0, 0, 4294967295⟩
def Reg.MX_MAPUSE.USED : Field := ⟨0xa0024, 0, 10, .ro, .live, 0x0, 0, 1023⟩
def Reg.MX_MAPUSE.DIRTY : Field := ⟨0xa0024, 12, 16, .ro, .live, 0x0, 0, 65535⟩
def Reg.MX_PGMISS.COUNT : Field := ⟨0xa0028, 0, 32, .ro, .live, 0x0, 0, 4294967295⟩
def Reg.MX_STARTUP.REPLAY : Field := ⟨0xa002c, 0, 16, .ro, .live, 0x0, 0, 65535⟩
def Reg.MX_STARTUP.SCAN : Field := ⟨0xa002c, 16, 16, .ro, .live, 0x0, 0, 65535⟩
def Reg.MX_SCAN.BARRELS : Field := ⟨0xa0030, 0, 8, .ro, .live, 0x0, 0, 255⟩
def Reg.MX_SCAN.DUPS : Field := ⟨0xa0030, 8, 24, .ro, .live, 0x0, 0, 16777215⟩
def Reg.MX_ERR.JNLCOPY : Field := ⟨0xa0034, 0, 1, .w1c, .live, 0x0, 0, 1⟩
def Reg.MX_ERR.ROOTCOPY : Field := ⟨0xa0034, 1, 1, .w1c, .live, 0x0, 0, 1⟩
def Reg.MX_ERR.REPLAYOVER : Field := ⟨0xa0034, 2, 1, .w1c, .live, 0x0, 0, 1⟩
def Reg.MX_ERR.JNLGAP : Field := ⟨0xa0034, 3, 1, .w1c, .live, 0x0, 0, 1⟩
def Reg.MX_ERR.CEILHOLD : Field := ⟨0xa0034, 4, 1, .w1c, .live, 0x0, 0, 1⟩

/-- The fields of MX, part 0. -/
def fieldsMX0 : List Field :=
  [Reg.MX_CFG.REGION, Reg.MX_CFG.PGCACHE, Reg.MX_CSNLO.CSN, Reg.MX_CSNHI.CSN, Reg.MX_CEILLO.CEIL,
   Reg.MX_CEILHI.CEIL, Reg.MX_JSEQLO.SEQ, Reg.MX_JSEQHI.SEQ, Reg.MX_CKPT.REPLAYMAX, Reg.MX_CKPT.RATE,
   Reg.MX_CKPT.SWEEPS, Reg.MX_LAG.RECORDS, Reg.MX_MAPUSE.USED, Reg.MX_MAPUSE.DIRTY, Reg.MX_PGMISS.COUNT,
   Reg.MX_STARTUP.REPLAY, Reg.MX_STARTUP.SCAN, Reg.MX_SCAN.BARRELS, Reg.MX_SCAN.DUPS, Reg.MX_ERR.JNLCOPY,
   Reg.MX_ERR.ROOTCOPY, Reg.MX_ERR.REPLAYOVER, Reg.MX_ERR.JNLGAP, Reg.MX_ERR.CEILHOLD]

/-- The fields of MX. -/
def fieldsMX : List Field := fieldsMX0

/-! The MM block (chapter 7). -/

def Reg.MM_CFG.VATBLK : Field := ⟨0xa8000, 0, 7, .rw, .locked, 0x37, 16, 127⟩
def Reg.MM_CFG.SPMIN : Field := ⟨0xa8000, 8, 7, .rw, .locked, 0x1b, 8, 127⟩
def Reg.MM_GATHER.TMO : Field := ⟨0xa8004, 0, 6, .rw, .live, 0x8, 1, 32⟩
def Reg.MM_STREAM.HOT : Field := ⟨0xa8008, 0, 16, .rw, .live, 0x0, 0, 65535⟩
def Reg.MM_RACK.FREELO : Field := ⟨0xa800c, 0, 8, .rw, .live, 0x80, 0, 255⟩
def Reg.MM_RACK.FREEHI : Field := ⟨0xa800c, 8, 8, .rw, .live, 0xff, 0, 255⟩
def Reg.MM_RACK.FREECRIT : Field := ⟨0xa800c, 16, 8, .rw, .live, 0x20, 0, 255⟩
def Reg.MM_FREE.FREE : Field := ⟨0xa8010, 0, 20, .ro, .live, 0x0, 0, 1048575⟩
def Reg.MM_FREE.OPEN : Field := ⟨0xa8010, 20, 9, .ro, .live, 0x0, 0, 511⟩
def Reg.MM_REFR.CORRPCT : Field := ⟨0xa8014, 0, 7, .rw, .live, 0x3c, 30, 90⟩
def Reg.MM_REFR.SCRUBDAYS : Field := ⟨0xa8014, 8, 8, .rw, .live, 0x1e, 1, 255⟩
def Reg.MM_RDLIM.QLC : Field := ⟨0xa8018, 0, 8, .rw, .live, 0xe8, 0, 255⟩
def Reg.MM_RDLIM.SLC : Field := ⟨0xa8018, 8, 8, .rw, .live, 0xf0, 0, 255⟩
def Reg.MM_REFCNT.BLOCK : Field := ⟨0xa801c, 0, 16, .ro, .live, 0x0, 0, 65535⟩
def Reg.MM_REFCNT.AGE : Field := ⟨0xa801c, 16, 16, .ro, .live, 0x0, 0, 65535⟩
def Reg.MM_RETIRE.COUNT : Field := ⟨0xa8020, 0, 24, .ro, .live, 0x0, 0, 16777215⟩
def Reg.MM_RETLAST.DIE : Field := ⟨0xa8024, 0, 11, .ro, .live, 0x0, 0, 2047⟩
def Reg.MM_RETLAST.BLOCK : Field := ⟨0xa8024, 11, 14, .ro, .live, 0x0, 0, 16383⟩
def Reg.MM_RETLAST.CAUSE : Field := ⟨0xa8024, 25, 3, .ro, .live, 0x0, 0, 7⟩
def Reg.MM_VATUSE.USED : Field := ⟨0xa8028, 0, 12, .ro, .live, 0x0, 0, 4095⟩
def Reg.MM_VATUSE.UNBOTTLED : Field := ⟨0xa8028, 16, 12, .ro, .live, 0x0, 0, 4095⟩
def Reg.MM_ERR.BLANKFAIL : Field := ⟨0xa802c, 0, 1, .w1c, .live, 0x0, 0, 1⟩
def Reg.MM_ERR.SHORTCLOSE : Field := ⟨0xa802c, 1, 1, .w1c, .live, 0x0, 0, 1⟩
def Reg.MM_ERR.ROWWD : Field := ⟨0xa802c, 2, 1, .w1c, .live, 0x0, 0, 1⟩
def Reg.MM_ERR.VATSLOT : Field := ⟨0xa802c, 3, 1, .w1c, .live, 0x0, 0, 1⟩
def Reg.MM_ERR.VATFULL : Field := ⟨0xa802c, 4, 1, .w1c, .live, 0x0, 0, 1⟩
def Reg.MM_ERR.FREECRIT : Field := ⟨0xa802c, 5, 1, .w1c, .live, 0x0, 0, 1⟩

/-- The fields of MM, part 0. -/
def fieldsMM0 : List Field :=
  [Reg.MM_CFG.VATBLK, Reg.MM_CFG.SPMIN, Reg.MM_GATHER.TMO, Reg.MM_STREAM.HOT, Reg.MM_RACK.FREELO,
   Reg.MM_RACK.FREEHI, Reg.MM_RACK.FREECRIT, Reg.MM_FREE.FREE, Reg.MM_FREE.OPEN, Reg.MM_REFR.CORRPCT,
   Reg.MM_REFR.SCRUBDAYS, Reg.MM_RDLIM.QLC, Reg.MM_RDLIM.SLC, Reg.MM_REFCNT.BLOCK, Reg.MM_REFCNT.AGE,
   Reg.MM_RETIRE.COUNT, Reg.MM_RETLAST.DIE, Reg.MM_RETLAST.BLOCK, Reg.MM_RETLAST.CAUSE, Reg.MM_VATUSE.USED,
   Reg.MM_VATUSE.UNBOTTLED, Reg.MM_ERR.BLANKFAIL, Reg.MM_ERR.SHORTCLOSE, Reg.MM_ERR.ROWWD, Reg.MM_ERR.VATSLOT,
   Reg.MM_ERR.VATFULL, Reg.MM_ERR.FREECRIT]

/-- The fields of MM. -/
def fieldsMM : List Field := fieldsMM0

/-! The SP block (chapter 8). -/

def Reg.SP_CFG.WIDTH : Field := ⟨0xb0000, 0, 6, .rw, .locked, 0x1e, 8, 32⟩
def Reg.SP_CFG.SPARES : Field := ⟨0xb0000, 8, 5, .rw, .locked, 0x1, 1, 16⟩
def Reg.SP_GEOM.GROUPS : Field := ⟨0xb0004, 0, 9, .ro, .live, 0x0, 0, 511⟩
def Reg.SP_GEOM.LIVE : Field := ⟨0xb0004, 9, 9, .ro, .live, 0x0, 0, 511⟩
def Reg.SP_GEOM.HOTSPARE : Field := ⟨0xb0004, 18, 10, .ro, .live, 0x0, 0, 1023⟩
def Reg.SP_SJSEQLO.SEQ : Field := ⟨0xb0008, 0, 32, .ro, .live, 0x0, 0, 4294967295⟩
def Reg.SP_SJSEQHI.SEQ : Field := ⟨0xb000c, 0, 32, .ro, .live, 0x0, 0, 4294967295⟩
def Reg.SP_REBCFG.MAXGRP : Field := ⟨0xb0010, 0, 4, .rw, .live, 0x8, 1, 15⟩
def Reg.SP_REBSTAT.DEGRADED : Field := ⟨0xb0014, 0, 9, .ro, .live, 0x0, 0, 511⟩
def Reg.SP_REBSTAT.REBUILDING : Field := ⟨0xb0014, 9, 9, .ro, .live, 0x0, 0, 511⟩
def Reg.SP_REBSTAT.WAITING : Field := ⟨0xb0014, 18, 9, .ro, .live, 0x0, 0, 511⟩
def Reg.SP_REBSTAT.DISSOLVING : Field := ⟨0xb0014, 27, 1, .ro, .live, 0x0, 0, 1⟩
def Reg.SP_SUBSEL.INDEX : Field := ⟨0xb0018, 0, 8, .rw, .live, 0x0, 0, 255⟩
def Reg.SP_SUBDATA0.FROM : Field := ⟨0xb001c, 0, 11, .ro, .live, 0x0, 0, 2047⟩
def Reg.SP_SUBDATA0.TO : Field := ⟨0xb001c, 16, 11, .ro, .live, 0x0, 0, 2047⟩
def Reg.SP_SUBDATA1.GROUP : Field := ⟨0xb0020, 0, 8, .ro, .live, 0x0, 0, 255⟩
def Reg.SP_SUBDATA1.STATE : Field := ⟨0xb0020, 8, 3, .ro, .live, 0x0, 0, 7⟩
def Reg.SP_SUBDATA1.NEXTROW : Field := ⟨0xb0020, 16, 13, .ro, .live, 0x0, 0, 8191⟩
def Reg.SP_RECON.UNITS : Field := ⟨0xb0024, 0, 16, .ro, .live, 0x0, 0, 65535⟩
def Reg.SP_RECON.TWOMISS : Field := ⟨0xb0024, 16, 16, .ro, .live, 0x0, 0, 65535⟩
def Reg.SP_LOSTCNT.POSITIONS : Field := ⟨0xb0028, 0, 16, .ro, .live, 0x0, 0, 65535⟩
def Reg.SP_LOSTCNT.REPAIRED : Field := ⟨0xb0028, 16, 16, .ro, .live, 0x0, 0, 65535⟩
def Reg.SP_DIEOUT.DIE : Field := ⟨0xb002c, 0, 11, .wo, .live, 0x0, 0, 2047⟩
def Reg.SP_DIEOUT.KEY : Field := ⟨0xb002c, 16, 16, .wo, .live, 0x0, 0, 65535⟩
def Reg.SP_ERR.SJCOPY : Field := ⟨0xb0030, 0, 1, .w1c, .live, 0x0, 0, 1⟩
def Reg.SP_ERR.SJLOST : Field := ⟨0xb0030, 1, 1, .w1c, .live, 0x0, 0, 1⟩
def Reg.SP_ERR.NOSPARE : Field := ⟨0xb0030, 2, 1, .w1c, .live, 0x0, 0, 1⟩
def Reg.SP_ERR.THREEMISS : Field := ⟨0xb0030, 3, 1, .w1c, .live, 0x0, 0, 1⟩
def Reg.SP_ERR.SPAREFAIL : Field := ⟨0xb0030, 4, 1, .w1c, .live, 0x0, 0, 1⟩
def Reg.SP_ERR.DISSOLVED : Field := ⟨0xb0030, 5, 1, .w1c, .live, 0x0, 0, 1⟩
def Reg.SP_ERR.DIEOUT : Field := ⟨0xb0030, 6, 1, .w1c, .live, 0x0, 0, 1⟩
def Reg.SP_ERR.ORPHAN : Field := ⟨0xb0030, 7, 1, .w1c, .live, 0x0, 0, 1⟩

/-- The fields of SP, part 0. -/
def fieldsSP0 : List Field :=
  [Reg.SP_CFG.WIDTH, Reg.SP_CFG.SPARES, Reg.SP_GEOM.GROUPS, Reg.SP_GEOM.LIVE, Reg.SP_GEOM.HOTSPARE,
   Reg.SP_SJSEQLO.SEQ, Reg.SP_SJSEQHI.SEQ, Reg.SP_REBCFG.MAXGRP, Reg.SP_REBSTAT.DEGRADED,
   Reg.SP_REBSTAT.REBUILDING, Reg.SP_REBSTAT.WAITING, Reg.SP_REBSTAT.DISSOLVING, Reg.SP_SUBSEL.INDEX,
   Reg.SP_SUBDATA0.FROM, Reg.SP_SUBDATA0.TO, Reg.SP_SUBDATA1.GROUP, Reg.SP_SUBDATA1.STATE,
   Reg.SP_SUBDATA1.NEXTROW, Reg.SP_RECON.UNITS, Reg.SP_RECON.TWOMISS, Reg.SP_LOSTCNT.POSITIONS,
   Reg.SP_LOSTCNT.REPAIRED, Reg.SP_DIEOUT.DIE, Reg.SP_DIEOUT.KEY, Reg.SP_ERR.SJCOPY, Reg.SP_ERR.SJLOST,
   Reg.SP_ERR.NOSPARE, Reg.SP_ERR.THREEMISS, Reg.SP_ERR.SPAREFAIL, Reg.SP_ERR.DISSOLVED, Reg.SP_ERR.DIEOUT,
   Reg.SP_ERR.ORPHAN]

/-- The fields of SP. -/
def fieldsSP : List Field := fieldsSP0

/-! The DC block (chapter 9 (with EC_*)). -/

def Reg.DC_CFG.SHAPEPOL : Field := ⟨0xb8000, 0, 1, .rw, .locked, 0x1, 0, 1⟩
def Reg.DC_LANES.CACT : Field := ⟨0xb8004, 0, 5, .ro, .live, 0x18, 0, 31⟩
def Reg.DC_LANES.CSPARE : Field := ⟨0xb8004, 5, 2, .ro, .live, 0x2, 0, 3⟩
def Reg.DC_LANES.DACT : Field := ⟨0xb8004, 8, 5, .ro, .live, 0x1a, 0, 31⟩
def Reg.DC_RAWCNT.COUNT : Field := ⟨0xb8008, 0, 32, .ro, .live, 0x0, 0, 4294967295⟩
def Reg.DC_SAVED.GRANULES : Field := ⟨0xb800c, 0, 32, .ro, .live, 0x0, 0, 4294967295⟩
def Reg.DC_PIERR.GUARD : Field := ⟨0xb8010, 0, 16, .ro, .live, 0x0, 0, 65535⟩
def Reg.DC_PIERR.APP : Field := ⟨0xb8010, 16, 8, .ro, .live, 0x0, 0, 255⟩
def Reg.DC_PIERR.REF : Field := ⟨0xb8010, 24, 8, .ro, .live, 0x0, 0, 255⟩
def Reg.DC_FMTERR.COUNT : Field := ⟨0xb8014, 0, 16, .ro, .live, 0x0, 0, 65535⟩
def Reg.DC_FMTERR.UNREC : Field := ⟨0xb8014, 16, 16, .ro, .live, 0x0, 0, 65535⟩
def Reg.DC_KEYS.USED : Field := ⟨0xb8018, 0, 11, .ro, .live, 0x0, 0, 2047⟩
def Reg.DC_ERR.FMT : Field := ⟨0xb801c, 0, 1, .w1c, .live, 0x0, 0, 1⟩
def Reg.DC_ERR.UNWRAP : Field := ⟨0xb801c, 1, 1, .w1c, .live, 0x0, 0, 1⟩
def Reg.DC_ERR.CEKEY : Field := ⟨0xb801c, 2, 1, .w1c, .live, 0x0, 0, 1⟩
def Reg.EC_CFG.HITER : Field := ⟨0xb8100, 0, 5, .rw, .locked, 0x10, 8, 16⟩
def Reg.EC_CFG.SITER : Field := ⟨0xb8100, 8, 6, .rw, .live, 0x20, 8, 63⟩
def Reg.EC_CFG.SRETRY : Field := ⟨0xb8100, 16, 2, .rw, .live, 0x3, 1, 3⟩
def Reg.EC_ENG.ACTIVE : Field := ⟨0xb8104, 0, 6, .ro, .live, 0x2c, 0, 63⟩
def Reg.EC_ENG.SPARE : Field := ⟨0xb8104, 6, 3, .ro, .live, 0x4, 0, 7⟩
def Reg.EC_CAP.HCAP : Field := ⟨0xb8108, 0, 10, .ro, .live, 0x78, 0, 1023⟩
def Reg.EC_HARD.FAIL : Field := ⟨0xb810c, 0, 32, .ro, .live, 0x0, 0, 4294967295⟩
def Reg.EC_SOFT.OK : Field := ⟨0xb8110, 0, 16, .ro, .live, 0x0, 0, 65535⟩
def Reg.EC_SOFT.FAIL : Field := ⟨0xb8110, 16, 16, .ro, .live, 0x0, 0, 65535⟩
def Reg.EC_MAXCORR.MAX : Field := ⟨0xb8114, 0, 10, .ro, .live, 0x0, 0, 1023⟩
def Reg.EC_MAXCORR.CLR : Field := ⟨0xb8114, 31, 1, .w1s, .live, 0x0, 0, 1⟩
def Reg.EC_HSEL.ROW : Field := ⟨0xb8118, 0, 5, .rw, .live, 0x0, 0, 29⟩
def Reg.EC_HSEL.COL : Field := ⟨0xb8118, 8, 9, .rw, .live, 0x0, 0, 289⟩
def Reg.EC_HDATA.SHIFT : Field := ⟨0xb811c, 0, 7, .ro, .live, 0x0, 0, 127⟩
def Reg.EC_HDATA.NONZERO : Field := ⟨0xb811c, 7, 1, .ro, .live, 0x0, 0, 1⟩

/-- The fields of DC, part 0. -/
def fieldsDC0 : List Field :=
  [Reg.DC_CFG.SHAPEPOL, Reg.DC_LANES.CACT, Reg.DC_LANES.CSPARE, Reg.DC_LANES.DACT, Reg.DC_RAWCNT.COUNT,
   Reg.DC_SAVED.GRANULES, Reg.DC_PIERR.GUARD, Reg.DC_PIERR.APP, Reg.DC_PIERR.REF, Reg.DC_FMTERR.COUNT,
   Reg.DC_FMTERR.UNREC, Reg.DC_KEYS.USED, Reg.DC_ERR.FMT, Reg.DC_ERR.UNWRAP, Reg.DC_ERR.CEKEY, Reg.EC_CFG.HITER,
   Reg.EC_CFG.SITER, Reg.EC_CFG.SRETRY, Reg.EC_ENG.ACTIVE, Reg.EC_ENG.SPARE, Reg.EC_CAP.HCAP, Reg.EC_HARD.FAIL,
   Reg.EC_SOFT.OK, Reg.EC_SOFT.FAIL, Reg.EC_MAXCORR.MAX, Reg.EC_MAXCORR.CLR, Reg.EC_HSEL.ROW, Reg.EC_HSEL.COL,
   Reg.EC_HDATA.SHIFT, Reg.EC_HDATA.NONZERO]

/-- The fields of DC. -/
def fieldsDC : List Field := fieldsDC0

/-! The CS block (chapter 10). -/

def Reg.CS_CFG.MODE : Field := ⟨0xc0000, 0, 2, .rw, .locked, 0x2, 0, 2⟩
def Reg.CS_CFG.RATE : Field := ⟨0xc0000, 2, 3, .rw, .locked, 0x6, 0, 6⟩
def Reg.CS_CFG.BUF : Field := ⟨0xc0000, 5, 1, .rw, .locked, 0x1, 0, 1⟩
def Reg.CS_TRAIN.PERIOD : Field := ⟨0xc0004, 0, 8, .rw, .live, 0xa, 1, 255⟩
def Reg.CS_TRAIN.TDELTA : Field := ⟨0xc0004, 8, 4, .rw, .live, 0xa, 2, 15⟩
def Reg.CS_CHOK0.OK : Field := ⟨0xc0008, 0, 32, .ro, .live, 0x0, 0, 4294967295⟩
def Reg.CS_CHOK1.OK : Field := ⟨0xc000c, 0, 32, .ro, .live, 0x0, 0, 4294967295⟩
def Reg.CS_CLSEL.CLUSTER : Field := ⟨0xc0010, 0, 3, .rw, .live, 0x0, 0, 7⟩
def Reg.CS_CLSEL.BANK : Field := ⟨0xc0010, 4, 1, .rw, .live, 0x0, 0, 1⟩
def Reg.CS_CLSTAT.SEQBANK : Field := ⟨0xc0014, 0, 9, .ro, .live, 0x0, 0, 511⟩
def Reg.CS_CLSTAT.SPARE : Field := ⟨0xc0014, 9, 4, .ro, .live, 0x8, 0, 15⟩
def Reg.CS_CLSTAT.FAULTED : Field := ⟨0xc0014, 13, 9, .ro, .live, 0x0, 0, 511⟩
def Reg.CS_CLSTAT.LOCKA : Field := ⟨0xc0014, 22, 1, .ro, .live, 0x0, 0, 1⟩
def Reg.CS_CLSTAT.LOCKB : Field := ⟨0xc0014, 23, 1, .ro, .live, 0x0, 0, 1⟩
def Reg.CS_CHMAP.SEQ : Field := ⟨0xc0018, 0, 32, .ro, .live, 0x76543210, 0, 4294967295⟩
def Reg.CS_PATCHVER.BUILD : Field := ⟨0xc001c, 0, 8, .ro, .live, 0x0, 0, 255⟩
def Reg.CS_PATCHVER.MINOR : Field := ⟨0xc001c, 8, 8, .ro, .live, 0x0, 0, 255⟩
def Reg.CS_PATCHVER.MAJOR : Field := ⟨0xc001c, 16, 4, .ro, .live, 0x0, 0, 15⟩
def Reg.CS_PATCHVER.SETID : Field := ⟨0xc001c, 20, 12, .ro, .live, 0x0, 0, 4095⟩
def Reg.CS_ROMID.ROMID : Field := ⟨0xc0020, 0, 32, .ro, .live, 0x0, 0, 4294967295⟩
def Reg.CS_MATCHSEL.INDEX : Field := ⟨0xc0024, 0, 6, .rw, .live, 0x0, 0, 63⟩
def Reg.CS_MATCHDATA.ROMADDR : Field := ⟨0xc0028, 0, 15, .ro, .live, 0x0, 0, 32767⟩
def Reg.CS_MATCHDATA.TARGET : Field := ⟨0xc0028, 16, 9, .ro, .live, 0x0, 0, 511⟩
def Reg.CS_MATCHDATA.EN : Field := ⟨0xc0028, 31, 1, .ro, .live, 0x0, 0, 1⟩
def Reg.CS_ACT.BUSY : Field := ⟨0xc002c, 0, 1, .ro, .live, 0x0, 0, 1⟩
def Reg.CS_ACT.CLUSTER : Field := ⟨0xc002c, 1, 3, .ro, .live, 0x0, 0, 7⟩
def Reg.CS_ACT.PHY : Field := ⟨0xc002c, 4, 3, .ro, .live, 0x0, 0, 7⟩
def Reg.CS_ACT.STALL : Field := ⟨0xc002c, 7, 1, .w1c, .live, 0x0, 0, 1⟩
def Reg.CS_ACT.HANDOFFS : Field := ⟨0xc002c, 8, 8, .ro, .live, 0x0, 0, 255⟩
def Reg.CS_TAKEOVER.COUNT : Field := ⟨0xc0030, 0, 8, .ro, .live, 0x0, 0, 255⟩
def Reg.CS_TAKEOVER.LAST : Field := ⟨0xc0030, 8, 16, .ro, .live, 0x0, 0, 65535⟩
def Reg.CS_TAKEOVER.FAILSEQ : Field := ⟨0xc0030, 24, 7, .ro, .live, 0x0, 0, 127⟩
def Reg.CS_REFUSE.NOTERASED : Field := ⟨0xc0034, 0, 16, .ro, .live, 0x0, 0, 65535⟩
def Reg.CS_REFUSE.ORDER : Field := ⟨0xc0034, 16, 16, .ro, .live, 0x0, 0, 65535⟩
def Reg.CS_ERRLOC0.DIE : Field := ⟨0xc0038, 0, 11, .ro, .live, 0x0, 0, 2047⟩
def Reg.CS_ERRLOC0.BLOCK : Field := ⟨0xc0038, 11, 14, .ro, .live, 0x0, 0, 16383⟩
def Reg.CS_ERRLOC1.PAGE : Field := ⟨0xc003c, 0, 11, .ro, .live, 0x0, 0, 2047⟩
def Reg.CS_ERRLOC1.PPTR : Field := ⟨0xc003c, 11, 11, .ro, .live, 0x0, 0, 2047⟩
def Reg.CS_ERR.NOTERASED : Field := ⟨0xc0040, 0, 1, .w1c, .live, 0x0, 0, 1⟩
def Reg.CS_ERR.ORDER : Field := ⟨0xc0040, 1, 1, .w1c, .live, 0x0, 0, 1⟩
def Reg.CS_ERR.MWCHK : Field := ⟨0xc0040, 2, 1, .w1c, .live, 0x0, 0, 1⟩
def Reg.CS_ERR.YIELDTO : Field := ⟨0xc0040, 3, 1, .w1c, .live, 0x0, 0, 1⟩
def Reg.CS_ERR.SEQFAULT : Field := ⟨0xc0040, 4, 1, .w1c, .live, 0x0, 0, 1⟩
def Reg.CS_ERR.PATCHSIG : Field := ⟨0xc0040, 5, 1, .w1c, .live, 0x0, 0, 1⟩
def Reg.CS_ERR.PATCHFMT : Field := ⟨0xc0040, 6, 1, .w1c, .live, 0x0, 0, 1⟩
def Reg.CS_ERR.TRAINFAIL : Field := ⟨0xc0040, 7, 1, .w1c, .live, 0x0, 0, 1⟩
def Reg.CS_ERR.IDCHANGE : Field := ⟨0xc0040, 8, 1, .w1c, .live, 0x0, 0, 1⟩

/-- The fields of CS, part 0. -/
def fieldsCS0 : List Field :=
  [Reg.CS_CFG.MODE, Reg.CS_CFG.RATE, Reg.CS_CFG.BUF, Reg.CS_TRAIN.PERIOD, Reg.CS_TRAIN.TDELTA, Reg.CS_CHOK0.OK,
   Reg.CS_CHOK1.OK, Reg.CS_CLSEL.CLUSTER, Reg.CS_CLSEL.BANK, Reg.CS_CLSTAT.SEQBANK, Reg.CS_CLSTAT.SPARE,
   Reg.CS_CLSTAT.FAULTED, Reg.CS_CLSTAT.LOCKA, Reg.CS_CLSTAT.LOCKB, Reg.CS_CHMAP.SEQ, Reg.CS_PATCHVER.BUILD,
   Reg.CS_PATCHVER.MINOR, Reg.CS_PATCHVER.MAJOR, Reg.CS_PATCHVER.SETID, Reg.CS_ROMID.ROMID,
   Reg.CS_MATCHSEL.INDEX, Reg.CS_MATCHDATA.ROMADDR, Reg.CS_MATCHDATA.TARGET, Reg.CS_MATCHDATA.EN,
   Reg.CS_ACT.BUSY, Reg.CS_ACT.CLUSTER, Reg.CS_ACT.PHY, Reg.CS_ACT.STALL, Reg.CS_ACT.HANDOFFS,
   Reg.CS_TAKEOVER.COUNT, Reg.CS_TAKEOVER.LAST, Reg.CS_TAKEOVER.FAILSEQ, Reg.CS_REFUSE.NOTERASED,
   Reg.CS_REFUSE.ORDER, Reg.CS_ERRLOC0.DIE, Reg.CS_ERRLOC0.BLOCK, Reg.CS_ERRLOC1.PAGE, Reg.CS_ERRLOC1.PPTR,
   Reg.CS_ERR.NOTERASED, Reg.CS_ERR.ORDER]

/-- The fields of CS, part 1. -/
def fieldsCS1 : List Field :=
  [Reg.CS_ERR.MWCHK, Reg.CS_ERR.YIELDTO, Reg.CS_ERR.SEQFAULT, Reg.CS_ERR.PATCHSIG, Reg.CS_ERR.PATCHFMT,
   Reg.CS_ERR.TRAINFAIL, Reg.CS_ERR.IDCHANGE]

/-- The fields of CS. -/
def fieldsCS : List Field := fieldsCS0 ++ fieldsCS1

/-! The BP block (chapter 11). -/

def Reg.BP_OWNSEL.OWNER : Field := ⟨0xc8000, 0, 4, .rw, .live, 0x0, 0, 15⟩
def Reg.BP_OWNMEM.MEM : Field := ⟨0xc8004, 0, 1, .rw, .locked, 0x0, 0, 1⟩
def Reg.BP_OWNMIN.MIN : Field := ⟨0xc8008, 0, 24, .rw, .live, 0x0, 0, 16777215⟩
def Reg.BP_OWNCAP.CAP : Field := ⟨0xc800c, 0, 24, .rw, .live, 0x0, 0, 16777215⟩
def Reg.BP_OWNUSE.USED : Field := ⟨0xc8010, 0, 24, .ro, .live, 0x0, 0, 16777215⟩
def Reg.BP_OWNFAIL.CAP : Field := ⟨0xc8014, 0, 16, .ro, .live, 0x0, 0, 65535⟩
def Reg.BP_OWNFAIL.MIN : Field := ⟨0xc8014, 16, 16, .ro, .live, 0x0, 0, 65535⟩
def Reg.BP_POOLSEL.POOL : Field := ⟨0xc8018, 0, 4, .rw, .live, 0x0, 0, 15⟩
def Reg.BP_POOLSTAT.FREE : Field := ⟨0xc801c, 0, 21, .ro, .live, 0x0, 0, 2097151⟩
def Reg.BP_POOLSTAT.QUAR : Field := ⟨0xc801c, 21, 1, .ro, .live, 0x0, 0, 1⟩
def Reg.BP_POOLSTAT.QCOUNT : Field := ⟨0xc801c, 22, 8, .ro, .live, 0x0, 0, 255⟩
def Reg.BP_FREESRAM.FREE : Field := ⟨0xc8020, 0, 13, .ro, .live, 0x0, 0, 8191⟩
def Reg.BP_FREEDRAM.FREE : Field := ⟨0xc8024, 0, 24, .ro, .live, 0x0, 0, 16777215⟩
def Reg.BP_ERRBUF.INDEX : Field := ⟨0xc8028, 0, 24, .ro, .live, 0x0, 0, 16777215⟩
def Reg.BP_ERRBUF.OWNER : Field := ⟨0xc8028, 24, 4, .ro, .live, 0x0, 0, 15⟩
def Reg.BP_ERRBUF.CAUSE : Field := ⟨0xc8028, 28, 3, .ro, .live, 0x0, 0, 7⟩
def Reg.BP_ERR.DBLFREE : Field := ⟨0xc802c, 0, 1, .w1c, .live, 0x0, 0, 1⟩
def Reg.BP_ERR.OWNFREE : Field := ⟨0xc802c, 1, 1, .w1c, .live, 0x0, 0, 1⟩
def Reg.BP_ERR.LISTCHK : Field := ⟨0xc802c, 2, 1, .w1c, .live, 0x0, 0, 1⟩
def Reg.BP_ERR.REVOKE : Field := ⟨0xc802c, 3, 1, .w1c, .live, 0x0, 0, 1⟩

/-- The fields of BP, part 0. -/
def fieldsBP0 : List Field :=
  [Reg.BP_OWNSEL.OWNER, Reg.BP_OWNMEM.MEM, Reg.BP_OWNMIN.MIN, Reg.BP_OWNCAP.CAP, Reg.BP_OWNUSE.USED,
   Reg.BP_OWNFAIL.CAP, Reg.BP_OWNFAIL.MIN, Reg.BP_POOLSEL.POOL, Reg.BP_POOLSTAT.FREE, Reg.BP_POOLSTAT.QUAR,
   Reg.BP_POOLSTAT.QCOUNT, Reg.BP_FREESRAM.FREE, Reg.BP_FREEDRAM.FREE, Reg.BP_ERRBUF.INDEX, Reg.BP_ERRBUF.OWNER,
   Reg.BP_ERRBUF.CAUSE, Reg.BP_ERR.DBLFREE, Reg.BP_ERR.OWNFREE, Reg.BP_ERR.LISTCHK, Reg.BP_ERR.REVOKE]

/-- The fields of BP. -/
def fieldsBP : List Field := fieldsBP0

/-! The ME block (chapter 11). -/

def Reg.ME_DRAMINFO.SIZE : Field := ⟨0xd0000, 0, 10, .ro, .live, 0x0, 0, 1023⟩
def Reg.ME_DRAMINFO.CHOK : Field := ⟨0xd0000, 10, 8, .ro, .live, 0x0, 0, 255⟩
def Reg.ME_POOLMAP.BASE : Field := ⟨0xd0004, 0, 10, .ro, .live, 0x0, 0, 1023⟩
def Reg.ME_POOLMAP.BUFS : Field := ⟨0xd0004, 12, 12, .ro, .live, 0x0, 0, 4095⟩
def Reg.ME_RESERVE.SIZE : Field := ⟨0xd0008, 0, 10, .ro, .live, 0x0, 0, 1023⟩
def Reg.ME_RESERVE.REMAP : Field := ⟨0xd0008, 10, 13, .ro, .live, 0x0, 0, 8191⟩
def Reg.ME_CHKERR.SRAM : Field := ⟨0xd000c, 0, 16, .ro, .live, 0x0, 0, 65535⟩
def Reg.ME_CHKERR.DRAM : Field := ⟨0xd000c, 16, 16, .ro, .live, 0x0, 0, 65535⟩
def Reg.ME_REFETCH.RESTORED : Field := ⟨0xd0010, 0, 16, .ro, .live, 0x0, 0, 65535⟩
def Reg.ME_REFETCH.POISONED : Field := ⟨0xd0010, 16, 16, .ro, .live, 0x0, 0, 65535⟩
def Reg.ME_POISON.CONSUMED : Field := ⟨0xd0014, 0, 32, .ro, .live, 0x0, 0, 4294967295⟩
def Reg.ME_LASTLO.ADDR : Field := ⟨0xd0018, 0, 32, .ro, .live, 0x0, 0, 4294967295⟩
def Reg.ME_LASTHI.ADDR : Field := ⟨0xd001c, 0, 16, .ro, .live, 0x0, 0, 65535⟩
def Reg.ME_LASTHI.KIND : Field := ⟨0xd001c, 16, 4, .ro, .live, 0x0, 0, 15⟩
def Reg.ME_REPAIR.SRAMUSED : Field := ⟨0xd0020, 0, 9, .ro, .live, 0x0, 0, 511⟩
def Reg.ME_REPAIR.HPPR : Field := ⟨0xd0020, 12, 9, .ro, .live, 0x0, 0, 511⟩
def Reg.ME_MERGE.MERGES : Field := ⟨0xd0024, 0, 16, .ro, .live, 0x0, 0, 65535⟩
def Reg.ME_MERGE.EVICT : Field := ⟨0xd0024, 16, 16, .ro, .live, 0x0, 0, 65535⟩
def Reg.ME_STALE.WR : Field := ⟨0xd0028, 0, 16, .ro, .live, 0x0, 0, 65535⟩
def Reg.ME_STALE.RD : Field := ⟨0xd0028, 16, 16, .ro, .live, 0x0, 0, 65535⟩
def Reg.ME_ERR.CHK : Field := ⟨0xd002c, 0, 1, .w1c, .live, 0x0, 0, 1⟩
def Reg.ME_ERR.POISON : Field := ⟨0xd002c, 1, 1, .w1c, .live, 0x0, 0, 1⟩
def Reg.ME_ERR.STALEWR : Field := ⟨0xd002c, 2, 1, .w1c, .live, 0x0, 0, 1⟩
def Reg.ME_ERR.STALERD : Field := ⟨0xd002c, 3, 1, .w1c, .live, 0x0, 0, 1⟩
def Reg.ME_ERR.REMAPFULL : Field := ⟨0xd002c, 4, 1, .w1c, .live, 0x0, 0, 1⟩
def Reg.ME_ERR.REPAIRFULL : Field := ⟨0xd002c, 5, 1, .w1c, .live, 0x0, 0, 1⟩

/-- The fields of ME, part 0. -/
def fieldsME0 : List Field :=
  [Reg.ME_DRAMINFO.SIZE, Reg.ME_DRAMINFO.CHOK, Reg.ME_POOLMAP.BASE, Reg.ME_POOLMAP.BUFS, Reg.ME_RESERVE.SIZE,
   Reg.ME_RESERVE.REMAP, Reg.ME_CHKERR.SRAM, Reg.ME_CHKERR.DRAM, Reg.ME_REFETCH.RESTORED,
   Reg.ME_REFETCH.POISONED, Reg.ME_POISON.CONSUMED, Reg.ME_LASTLO.ADDR, Reg.ME_LASTHI.ADDR, Reg.ME_LASTHI.KIND,
   Reg.ME_REPAIR.SRAMUSED, Reg.ME_REPAIR.HPPR, Reg.ME_MERGE.MERGES, Reg.ME_MERGE.EVICT, Reg.ME_STALE.WR,
   Reg.ME_STALE.RD, Reg.ME_ERR.CHK, Reg.ME_ERR.POISON, Reg.ME_ERR.STALEWR, Reg.ME_ERR.STALERD,
   Reg.ME_ERR.REMAPFULL, Reg.ME_ERR.REPAIRFULL]

/-- The fields of ME. -/
def fieldsME : List Field := fieldsME0

/-! The GF block (chapter 12). -/

def Reg.GF_CFG.LINKEN : Field := ⟨0xd8000, 0, 12, .rw, .locked, 0xfff, 0, 4095⟩
def Reg.GF_CFG.TSYNCEN : Field := ⟨0xd8000, 16, 1, .rw, .locked, 0x0, 0, 1⟩
def Reg.GF_CFG.TSOUTEN : Field := ⟨0xd8000, 17, 1, .rw, .live, 0x0, 0, 1⟩
def Reg.GF_NODE.ID : Field := ⟨0xd8004, 0, 12, .ro, .live, 0x0, 0, 4095⟩
def Reg.GF_NODE.VALID : Field := ⟨0xd8004, 12, 1, .ro, .live, 0x0, 0, 1⟩
def Reg.GF_NODE.COORD : Field := ⟨0xd8004, 13, 1, .ro, .live, 0x0, 0, 1⟩
def Reg.GF_NODE.HELDOUT : Field := ⟨0xd8004, 14, 1, .ro, .live, 0x0, 0, 1⟩
def Reg.GF_NODE.TMASTER : Field := ⟨0xd8004, 15, 1, .ro, .live, 0x0, 0, 1⟩
def Reg.GF_NODE.PREF : Field := ⟨0xd8004, 16, 12, .ro, .live, 0x0, 0, 4095⟩
def Reg.GF_NODE.REASSIGN : Field := ⟨0xd8004, 31, 1, .w1s, .live, 0x0, 0, 1⟩
def Reg.GF_COORD.NODE : Field := ⟨0xd8008, 0, 12, .ro, .live, 0x0, 0, 4095⟩
def Reg.GF_COORD.EPOCH : Field := ⟨0xd8008, 16, 16, .ro, .live, 0x0, 0, 65535⟩
def Reg.GF_EXPBASE.BASE : Field := ⟨0xd801c, 0, 28, .ro, .live, 0x0, 0, 268435455⟩
def Reg.GF_EXPCTL.SIZE : Field := ⟨0xd8020, 0, 5, .rw, .locked, 0x0, 0, 16⟩
def Reg.GF_EXPCTL.RDEN : Field := ⟨0xd8020, 8, 1, .rw, .live, 0x0, 0, 1⟩
def Reg.GF_EXPCTL.WREN : Field := ⟨0xd8020, 9, 1, .rw, .live, 0x0, 0, 1⟩
def Reg.GF_LINKSEL.LINK : Field := ⟨0xd8024, 0, 4, .rw, .live, 0x0, 0, 11⟩
def Reg.GF_LINKSTAT.STATE : Field := ⟨0xd8028, 0, 3, .ro, .live, 0x0, 0, 7⟩
def Reg.GF_LINKSTAT.REVERSED : Field := ⟨0xd8028, 3, 1, .ro, .live, 0x0, 0, 1⟩
def Reg.GF_LINKSTAT.LANES : Field := ⟨0xd8028, 4, 4, .ro, .live, 0x0, 0, 15⟩
def Reg.GF_LINKSTAT.PEERNODE : Field := ⟨0xd8028, 8, 12, .ro, .live, 0x0, 0, 4095⟩
def Reg.GF_LINKSTAT.PEERLINK : Field := ⟨0xd8028, 20, 4, .ro, .live, 0x0, 0, 15⟩
def Reg.GF_LINKSTAT.RETRAINS : Field := ⟨0xd8028, 24, 8, .ro, .live, 0x0, 0, 255⟩
def Reg.GF_LINKERR.CRC : Field := ⟨0xd802c, 0, 16, .ro, .live, 0x0, 0, 65535⟩
def Reg.GF_LINKERR.REPLAY : Field := ⟨0xd802c, 16, 16, .ro, .live, 0x0, 0, 65535⟩
def Reg.GF_VCARB.W1 : Field := ⟨0xd8030, 0, 8, .rw, .live, 0x8, 1, 255⟩
def Reg.GF_VCARB.W2 : Field := ⟨0xd8030, 8, 8, .rw, .live, 0x4, 1, 255⟩
def Reg.GF_VCARB.W3 : Field := ⟨0xd8030, 16, 8, .rw, .live, 0x1, 1, 255⟩
def Reg.GF_RETRY.TMO : Field := ⟨0xd8034, 0, 8, .rw, .live, 0x14, 5, 200⟩
def Reg.GF_RETRY.MAXRETRY : Field := ⟨0xd8034, 8, 4, .rw, .live, 0x8, 1, 15⟩
def Reg.GF_RTSEL.NODE : Field := ⟨0xd8038, 0, 12, .rw, .live, 0x0, 0, 4095⟩
def Reg.GF_RTDATA.PRIM : Field := ⟨0xd803c, 0, 4, .ro, .live, 0xf, 0, 15⟩
def Reg.GF_RTDATA.ALT : Field := ⟨0xd803c, 4, 4, .ro, .live, 0xf, 0, 15⟩
def Reg.GF_RTDATA.BUNDLE : Field := ⟨0xd803c, 8, 12, .ro, .live, 0x0, 0, 4095⟩
def Reg.GF_RTDATA.HOPS : Field := ⟨0xd803c, 20, 5, .ro, .live, 0x0, 0, 31⟩
def Reg.GF_RTDATA.VALID : Field := ⟨0xd803c, 25, 1, .ro, .live, 0x0, 0, 1⟩
def Reg.GF_RTDATA.LOCAL : Field := ⟨0xd803c, 26, 1, .ro, .live, 0x0, 0, 1⟩
def Reg.GF_TIMECTL.PERIOD : Field := ⟨0xd8040, 0, 8, .rw, .live, 0xa, 1, 100⟩
def Reg.GF_TIMECTL.SYNCED : Field := ⟨0xd8040, 8, 1, .ro, .live, 0x0, 0, 1⟩
def Reg.GF_TOFFS.OFFSET : Field := ⟨0xd8044, 0, 16, .ro, .live, 0x0, 0, 65535⟩
def Reg.GF_TOFFS.DEPTH : Field := ⟨0xd8044, 16, 5, .ro, .live, 0x0, 0, 31⟩
def Reg.GF_TOFFS.STEPS : Field := ⟨0xd8044, 24, 8, .ro, .live, 0x0, 0, 255⟩
def Reg.GF_DISC.LAST : Field := ⟨0xd8048, 0, 16, .ro, .live, 0x0, 0, 65535⟩
def Reg.GF_DISC.COUNT : Field := ⟨0xd8048, 16, 16, .ro, .live, 0x0, 0, 65535⟩
def Reg.GF_LENERR.LEN : Field := ⟨0xd804c, 0, 16, .ro, .live, 0x0, 0, 65535⟩
def Reg.GF_LENERR.FCRC : Field := ⟨0xd804c, 16, 16, .ro, .live, 0x0, 0, 65535⟩
def Reg.GF_XFER.RESENT : Field := ⟨0xd8050, 0, 16, .ro, .live, 0x0, 0, 65535⟩
def Reg.GF_XFER.FAILED : Field := ⟨0xd8050, 16, 16, .ro, .live, 0x0, 0, 65535⟩
def Reg.GF_ERR.LINKDOWN : Field := ⟨0xd8054, 0, 1, .w1c, .live, 0x0, 0, 1⟩
def Reg.GF_ERR.DEGRADE : Field := ⟨0xd8054, 1, 1, .w1c, .live, 0x0, 0, 1⟩
def Reg.GF_ERR.LENERR : Field := ⟨0xd8054, 2, 1, .w1c, .live, 0x0, 0, 1⟩
def Reg.GF_ERR.XFERFAIL : Field := ⟨0xd8054, 3, 1, .w1c, .live, 0x0, 0, 1⟩
def Reg.GF_ERR.HOPDROP : Field := ⟨0xd8054, 4, 1, .w1c, .live, 0x0, 0, 1⟩
def Reg.GF_ERR.HELDOUT : Field := ⟨0xd8054, 5, 1, .w1c, .live, 0x0, 0, 1⟩
def Reg.GF_ERR.TIMESTEP : Field := ⟨0xd8054, 6, 1, .w1c, .live, 0x0, 0, 1⟩
def Reg.GF_UID0.UID : Field := ⟨0xd800c, 0, 32, .ro, .live, 0x0, 0, 4294967295⟩
def Reg.GF_UID1.UID : Field := ⟨0xd8010, 0, 32, .ro, .live, 0x0, 0, 4294967295⟩
def Reg.GF_UID2.UID : Field := ⟨0xd8014, 0, 32, .ro, .live, 0x0, 0, 4294967295⟩
def Reg.GF_UID3.UID : Field := ⟨0xd8018, 0, 32, .ro, .live, 0x0, 0, 4294967295⟩

/-- The fields of GF, part 0. -/
def fieldsGF0 : List Field :=
  [Reg.GF_CFG.LINKEN, Reg.GF_CFG.TSYNCEN, Reg.GF_CFG.TSOUTEN, Reg.GF_NODE.ID, Reg.GF_NODE.VALID,
   Reg.GF_NODE.COORD, Reg.GF_NODE.HELDOUT, Reg.GF_NODE.TMASTER, Reg.GF_NODE.PREF, Reg.GF_NODE.REASSIGN,
   Reg.GF_COORD.NODE, Reg.GF_COORD.EPOCH, Reg.GF_EXPBASE.BASE, Reg.GF_EXPCTL.SIZE, Reg.GF_EXPCTL.RDEN,
   Reg.GF_EXPCTL.WREN, Reg.GF_LINKSEL.LINK, Reg.GF_LINKSTAT.STATE, Reg.GF_LINKSTAT.REVERSED,
   Reg.GF_LINKSTAT.LANES, Reg.GF_LINKSTAT.PEERNODE, Reg.GF_LINKSTAT.PEERLINK, Reg.GF_LINKSTAT.RETRAINS,
   Reg.GF_LINKERR.CRC, Reg.GF_LINKERR.REPLAY, Reg.GF_VCARB.W1, Reg.GF_VCARB.W2, Reg.GF_VCARB.W3,
   Reg.GF_RETRY.TMO, Reg.GF_RETRY.MAXRETRY, Reg.GF_RTSEL.NODE, Reg.GF_RTDATA.PRIM, Reg.GF_RTDATA.ALT,
   Reg.GF_RTDATA.BUNDLE, Reg.GF_RTDATA.HOPS, Reg.GF_RTDATA.VALID, Reg.GF_RTDATA.LOCAL, Reg.GF_TIMECTL.PERIOD,
   Reg.GF_TIMECTL.SYNCED, Reg.GF_TOFFS.OFFSET]

/-- The fields of GF, part 1. -/
def fieldsGF1 : List Field :=
  [Reg.GF_TOFFS.DEPTH, Reg.GF_TOFFS.STEPS, Reg.GF_DISC.LAST, Reg.GF_DISC.COUNT, Reg.GF_LENERR.LEN,
   Reg.GF_LENERR.FCRC, Reg.GF_XFER.RESENT, Reg.GF_XFER.FAILED, Reg.GF_ERR.LINKDOWN, Reg.GF_ERR.DEGRADE,
   Reg.GF_ERR.LENERR, Reg.GF_ERR.XFERFAIL, Reg.GF_ERR.HOPDROP, Reg.GF_ERR.HELDOUT, Reg.GF_ERR.TIMESTEP,
   Reg.GF_UID0.UID, Reg.GF_UID1.UID, Reg.GF_UID2.UID, Reg.GF_UID3.UID]

/-- The fields of GF. -/
def fieldsGF : List Field := fieldsGF0 ++ fieldsGF1

/-! The TW block (chapter 13). -/

def Reg.TW_PAIR.STATE : Field := ⟨0xe0000, 0, 3, .ro, .live, 0x0, 0, 7⟩
def Reg.TW_PAIR.ACTIVE : Field := ⟨0xe0000, 3, 1, .ro, .live, 0x0, 0, 1⟩
def Reg.TW_PAIR.PEER : Field := ⟨0xe0000, 4, 12, .ro, .live, 0x0, 0, 4095⟩
def Reg.TW_PAIR.HBLINK : Field := ⟨0xe0000, 16, 4, .ro, .live, 0x0, 0, 15⟩
def Reg.TW_PAIR.PATHA : Field := ⟨0xe0000, 20, 1, .ro, .live, 0x0, 0, 1⟩
def Reg.TW_PAIR.PATHB : Field := ⟨0xe0000, 21, 1, .ro, .live, 0x0, 0, 1⟩
def Reg.TW_PAIR.FENCEOUT : Field := ⟨0xe0000, 22, 1, .ro, .live, 0x0, 0, 1⟩
def Reg.TW_PAIR.FENCEIN : Field := ⟨0xe0000, 23, 1, .ro, .live, 0x0, 0, 1⟩
def Reg.TW_ACKLO.CSN : Field := ⟨0xe0004, 0, 32, .ro, .live, 0x0, 0, 4294967295⟩
def Reg.TW_ACKHI.CSN : Field := ⟨0xe0008, 0, 32, .ro, .live, 0x0, 0, 4294967295⟩
def Reg.TW_TAKE.COUNT : Field := ⟨0xe000c, 0, 8, .ro, .live, 0x0, 0, 255⟩
def Reg.TW_TAKE.LAST : Field := ⟨0xe000c, 8, 12, .ro, .live, 0x0, 0, 4095⟩
def Reg.TW_TAKE.CAUSE : Field := ⟨0xe000c, 20, 2, .ro, .live, 0x0, 0, 3⟩
def Reg.TW_SEED.TODO : Field := ⟨0xe0010, 0, 24, .ro, .live, 0x0, 0, 16777215⟩
def Reg.TW_SEED.FULL : Field := ⟨0xe0010, 24, 1, .ro, .live, 0x0, 0, 1⟩
def Reg.TW_MIGCFG.PAR : Field := ⟨0xe0014, 0, 6, .rw, .live, 0x10, 1, 32⟩
def Reg.TW_MIGCFG.LANES : Field := ⟨0xe0014, 8, 6, .rw, .live, 0x1e, 1, 30⟩
def Reg.TW_MIGCFG.CUTSEGS : Field := ⟨0xe0014, 16, 16, .rw, .live, 0x40, 1, 65535⟩
def Reg.TW_MIGSTAT.PHASE : Field := ⟨0xe0018, 0, 4, .ro, .live, 0x0, 0, 15⟩
def Reg.TW_MIGSTAT.ROLE : Field := ⟨0xe0018, 4, 2, .ro, .live, 0x0, 0, 3⟩
def Reg.TW_MIGSTAT.PEER : Field := ⟨0xe0018, 6, 12, .ro, .live, 0x0, 0, 4095⟩
def Reg.TW_MIGSTAT.PASS : Field := ⟨0xe0018, 18, 8, .ro, .live, 0x0, 0, 255⟩
def Reg.TW_MIGSEG.DIRTY : Field := ⟨0xe001c, 0, 24, .ro, .live, 0x0, 0, 16777215⟩
def Reg.TW_MIGSEG.RESENT : Field := ⟨0xe001c, 24, 8, .ro, .live, 0x0, 0, 255⟩
def Reg.TW_MIGDONE.SENT : Field := ⟨0xe0020, 0, 32, .ro, .live, 0x0, 0, 4294967295⟩
def Reg.TW_ERR.HBPATH : Field := ⟨0xe0024, 0, 1, .w1c, .live, 0x0, 0, 1⟩
def Reg.TW_ERR.WINHOLD : Field := ⟨0xe0024, 1, 1, .w1c, .live, 0x0, 0, 1⟩
def Reg.TW_ERR.SOLO : Field := ⟨0xe0024, 2, 1, .w1c, .live, 0x0, 0, 1⟩
def Reg.TW_ERR.DIGEST : Field := ⟨0xe0024, 3, 1, .w1c, .live, 0x0, 0, 1⟩
def Reg.TW_ERR.PEERID : Field := ⟨0xe0024, 4, 1, .w1c, .live, 0x0, 0, 1⟩
def Reg.TW_ERR.CUTUNK : Field := ⟨0xe0024, 5, 1, .ro, .live, 0x0, 0, 1⟩
def Reg.TW_ERR.TOUCHFULL : Field := ⟨0xe0024, 6, 1, .w1c, .live, 0x0, 0, 1⟩
def Reg.TW_ERR.SINKCAP : Field := ⟨0xe0024, 7, 1, .w1c, .live, 0x0, 0, 1⟩

/-- The fields of TW, part 0. -/
def fieldsTW0 : List Field :=
  [Reg.TW_PAIR.STATE, Reg.TW_PAIR.ACTIVE, Reg.TW_PAIR.PEER, Reg.TW_PAIR.HBLINK, Reg.TW_PAIR.PATHA,
   Reg.TW_PAIR.PATHB, Reg.TW_PAIR.FENCEOUT, Reg.TW_PAIR.FENCEIN, Reg.TW_ACKLO.CSN, Reg.TW_ACKHI.CSN,
   Reg.TW_TAKE.COUNT, Reg.TW_TAKE.LAST, Reg.TW_TAKE.CAUSE, Reg.TW_SEED.TODO, Reg.TW_SEED.FULL,
   Reg.TW_MIGCFG.PAR, Reg.TW_MIGCFG.LANES, Reg.TW_MIGCFG.CUTSEGS, Reg.TW_MIGSTAT.PHASE, Reg.TW_MIGSTAT.ROLE,
   Reg.TW_MIGSTAT.PEER, Reg.TW_MIGSTAT.PASS, Reg.TW_MIGSEG.DIRTY, Reg.TW_MIGSEG.RESENT, Reg.TW_MIGDONE.SENT,
   Reg.TW_ERR.HBPATH, Reg.TW_ERR.WINHOLD, Reg.TW_ERR.SOLO, Reg.TW_ERR.DIGEST, Reg.TW_ERR.PEERID,
   Reg.TW_ERR.CUTUNK, Reg.TW_ERR.TOUCHFULL, Reg.TW_ERR.SINKCAP]

/-- The fields of TW. -/
def fieldsTW : List Field := fieldsTW0

/-! The DG block (chapter 14). -/

def Reg.DG_LANES.ACTIVE : Field := ⟨0xe8000, 0, 6, .ro, .live, 0x20, 0, 63⟩
def Reg.DG_LANES.SPARE : Field := ⟨0xe8000, 6, 2, .ro, .live, 0x2, 0, 3⟩
def Reg.DG_LANES.SNOOP : Field := ⟨0xe8000, 8, 6, .ro, .live, 0x0, 0, 63⟩
def Reg.DG_LANES.FREE : Field := ⟨0xe8000, 14, 6, .ro, .live, 0x20, 0, 63⟩
def Reg.DG_LANES.QUEUED : Field := ⟨0xe8000, 20, 7, .ro, .live, 0x0, 0, 127⟩
def Reg.DG_CTXSEL.CTX : Field := ⟨0xe8004, 0, 6, .rw, .live, 0x0, 0, 63⟩
def Reg.DG_CTXSTAT.STATE : Field := ⟨0xe8008, 0, 3, .ro, .live, 0x0, 0, 7⟩
def Reg.DG_CTXSTAT.ALG : Field := ⟨0xe8008, 4, 2, .ro, .live, 0x0, 0, 3⟩
def Reg.DG_CTXSTAT.SNOOP : Field := ⟨0xe8008, 6, 1, .ro, .live, 0x0, 0, 1⟩
def Reg.DG_CTXSTAT.MODE : Field := ⟨0xe8008, 7, 1, .ro, .live, 0x0, 0, 1⟩
def Reg.DG_CTXSTAT.PRIO : Field := ⟨0xe8008, 8, 2, .ro, .live, 0x0, 0, 3⟩
def Reg.DG_CTXSTAT.LANE : Field := ⟨0xe8008, 10, 6, .ro, .live, 0x3f, 0, 63⟩
def Reg.DG_CTXSTAT.CAUSE : Field := ⟨0xe8008, 16, 4, .ro, .live, 0x0, 0, 15⟩
def Reg.DG_CMPA.FLAG : Field := ⟨0xe800c, 0, 32, .ro, .live, 0xc33ca5a5, 0, 4294967295⟩
def Reg.DG_CMPB.FLAG : Field := ⟨0xe8010, 0, 32, .ro, .live, 0x3cc35a5a, 0, 4294967295⟩
def Reg.DG_PREEMPT.COUNT : Field := ⟨0xe8014, 0, 16, .ro, .live, 0x0, 0, 65535⟩
def Reg.DG_PREEMPT.WRAPPED : Field := ⟨0xe8014, 16, 16, .ro, .live, 0x0, 0, 65535⟩
def Reg.DG_LENERR.LEN : Field := ⟨0xe8018, 0, 16, .ro, .live, 0x0, 0, 65535⟩
def Reg.DG_LENERR.PAD : Field := ⟨0xe8018, 16, 16, .ro, .live, 0x0, 0, 65535⟩
def Reg.DG_AUDCTL.EN : Field := ⟨0xe801c, 0, 1, .rw, .live, 0x0, 0, 1⟩
def Reg.DG_AUDCTL.PERIOD : Field := ⟨0xe801c, 1, 8, .rw, .live, 0x0, 0, 255⟩
def Reg.DG_AUDCTL.START : Field := ⟨0xe801c, 9, 1, .w1s, .live, 0x0, 0, 1⟩
def Reg.DG_AUDCTL.LANES : Field := ⟨0xe801c, 10, 6, .rw, .live, 0x20, 1, 32⟩
def Reg.DG_AUDSTAT.DONE : Field := ⟨0xe8020, 0, 20, .ro, .live, 0x0, 0, 1048575⟩
def Reg.DG_AUDSTAT.MISMATCH : Field := ⟨0xe8020, 20, 8, .ro, .live, 0x0, 0, 255⟩
def Reg.DG_AUDSTAT.ACTIVE : Field := ⟨0xe8020, 28, 1, .ro, .live, 0x0, 0, 1⟩
def Reg.DG_SEC.ARB : Field := ⟨0xe8024, 0, 7, .ro, .live, 0x0, 0, 127⟩
def Reg.DG_SEC.SVN : Field := ⟨0xe8024, 8, 7, .ro, .live, 0x0, 0, 127⟩
def Reg.DG_SEC.OKSLOT : Field := ⟨0xe8024, 16, 2, .ro, .live, 0x0, 0, 3⟩
def Reg.DG_SEC.OKPROG : Field := ⟨0xe8024, 18, 3, .ro, .live, 0x0, 0, 7⟩
def Reg.DG_SEC.OKREV : Field := ⟨0xe8024, 21, 3, .ro, .live, 0x0, 0, 7⟩
def Reg.DG_SEC.BOOTFAIL : Field := ⟨0xe8024, 24, 4, .ro, .live, 0x0, 0, 15⟩
def Reg.DG_SEC.ADVANCE : Field := ⟨0xe8024, 31, 1, .w1s, .live, 0x0, 0, 1⟩
def Reg.DG_RNG.HEALTH : Field := ⟨0xe8028, 0, 1, .ro, .live, 0x0, 0, 1⟩
def Reg.DG_RNG.FAILS : Field := ⟨0xe8028, 8, 8, .ro, .live, 0x0, 0, 255⟩
def Reg.DG_RNG.RESEEDS : Field := ⟨0xe8028, 16, 16, .ro, .live, 0x0, 0, 65535⟩
def Reg.DG_ERR.LENGTH : Field := ⟨0xe802c, 0, 1, .w1c, .live, 0x0, 0, 1⟩
def Reg.DG_ERR.PADDING : Field := ⟨0xe802c, 1, 1, .w1c, .live, 0x0, 0, 1⟩
def Reg.DG_ERR.UNWRAP : Field := ⟨0xe802c, 2, 1, .w1c, .live, 0x0, 0, 1⟩
def Reg.DG_ERR.AUDITMIS : Field := ⟨0xe802c, 3, 1, .w1c, .live, 0x0, 0, 1⟩
def Reg.DG_ERR.BOOTFAIL : Field := ⟨0xe802c, 4, 1, .w1c, .live, 0x0, 0, 1⟩
def Reg.DG_ERR.RNG : Field := ⟨0xe802c, 5, 1, .w1c, .live, 0x0, 0, 1⟩

/-- The fields of DG, part 0. -/
def fieldsDG0 : List Field :=
  [Reg.DG_LANES.ACTIVE, Reg.DG_LANES.SPARE, Reg.DG_LANES.SNOOP, Reg.DG_LANES.FREE, Reg.DG_LANES.QUEUED,
   Reg.DG_CTXSEL.CTX, Reg.DG_CTXSTAT.STATE, Reg.DG_CTXSTAT.ALG, Reg.DG_CTXSTAT.SNOOP, Reg.DG_CTXSTAT.MODE,
   Reg.DG_CTXSTAT.PRIO, Reg.DG_CTXSTAT.LANE, Reg.DG_CTXSTAT.CAUSE, Reg.DG_CMPA.FLAG, Reg.DG_CMPB.FLAG,
   Reg.DG_PREEMPT.COUNT, Reg.DG_PREEMPT.WRAPPED, Reg.DG_LENERR.LEN, Reg.DG_LENERR.PAD, Reg.DG_AUDCTL.EN,
   Reg.DG_AUDCTL.PERIOD, Reg.DG_AUDCTL.START, Reg.DG_AUDCTL.LANES, Reg.DG_AUDSTAT.DONE, Reg.DG_AUDSTAT.MISMATCH,
   Reg.DG_AUDSTAT.ACTIVE, Reg.DG_SEC.ARB, Reg.DG_SEC.SVN, Reg.DG_SEC.OKSLOT, Reg.DG_SEC.OKPROG,
   Reg.DG_SEC.OKREV, Reg.DG_SEC.BOOTFAIL, Reg.DG_SEC.ADVANCE, Reg.DG_RNG.HEALTH, Reg.DG_RNG.FAILS,
   Reg.DG_RNG.RESEEDS, Reg.DG_ERR.LENGTH, Reg.DG_ERR.PADDING, Reg.DG_ERR.UNWRAP, Reg.DG_ERR.AUDITMIS]

/-- The fields of DG, part 1. -/
def fieldsDG1 : List Field :=
  [Reg.DG_ERR.BOOTFAIL, Reg.DG_ERR.RNG]

/-- The fields of DG. -/
def fieldsDG : List Field := fieldsDG0 ++ fieldsDG1

/-! The MG block (chapter 15 (with FF_*)). -/

def Reg.MG_STAT.RUN : Field := ⟨0xf0000, 0, 1, .ro, .live, 0x0, 0, 1⟩
def Reg.MG_STAT.SLOT : Field := ⟨0xf0000, 1, 1, .ro, .live, 0x0, 0, 1⟩
def Reg.MG_STAT.MGRESETS : Field := ⟨0xf0000, 8, 8, .ro, .live, 0x0, 0, 255⟩
def Reg.MG_WDOG.PERIOD : Field := ⟨0xf0004, 0, 8, .rw, .live, 0x64, 10, 255⟩
def Reg.MG_WDOG.KICK : Field := ⟨0xf0004, 31, 1, .w1s, .live, 0x0, 0, 1⟩
def Reg.MG_SENSEL.SENSOR : Field := ⟨0xf0008, 0, 6, .rw, .live, 0x0, 0, 43⟩
def Reg.MG_SENDATA.VALUE : Field := ⟨0xf000c, 0, 16, .ro, .live, 0x0, 0, 65535⟩
def Reg.MG_SENDATA.WARN : Field := ⟨0xf000c, 16, 1, .ro, .live, 0x0, 0, 1⟩
def Reg.MG_SENDATA.TRIP : Field := ⟨0xf000c, 17, 1, .ro, .live, 0x0, 0, 1⟩
def Reg.MG_HUCFG.VMIN : Field := ⟨0xf0010, 0, 11, .rw, .locked, 0x258, 0, 2047⟩
def Reg.MG_HUCFG.EFF : Field := ⟨0xf0010, 16, 7, .rw, .locked, 0x55, 50, 100⟩
def Reg.MG_HUCFG.PERIOD : Field := ⟨0xf0010, 24, 8, .rw, .live, 0x18, 1, 255⟩
def Reg.MG_HUSTAT.CAP : Field := ⟨0xf0014, 0, 16, .ro, .live, 0x0, 0, 65535⟩
def Reg.MG_HUSTAT.VOLT : Field := ⟨0xf0014, 16, 16, .ro, .live, 0x0, 0, 65535⟩
def Reg.MG_LOGSTAT.UNACK : Field := ⟨0xf0018, 0, 11, .ro, .live, 0x0, 0, 2047⟩
def Reg.MG_LOGSTAT.PFULL : Field := ⟨0xf0018, 11, 1, .ro, .live, 0x0, 0, 1⟩
def Reg.MG_LOGSTAT.RATE : Field := ⟨0xf0018, 12, 8, .rw, .live, 0xa, 1, 255⟩
def Reg.MG_LOGSTAT.DROPPED : Field := ⟨0xf0018, 20, 12, .ro, .live, 0x0, 0, 4095⟩
def Reg.MG_LOGACK.SEQ : Field := ⟨0xf001c, 0, 32, .wo, .live, 0x0, 0, 4294967295⟩
def Reg.MG_LOGSEL.BACK : Field := ⟨0xf0020, 0, 16, .rw, .live, 0x0, 0, 65535⟩
def Reg.MG_LOGSEL.DWORD : Field := ⟨0xf0020, 16, 4, .rw, .live, 0x0, 0, 15⟩
def Reg.MG_LOGSEL.AREA : Field := ⟨0xf0020, 20, 1, .rw, .live, 0x0, 0, 1⟩
def Reg.MG_LOGDATA.DATA : Field := ⟨0xf0024, 0, 32, .ro, .live, 0x0, 0, 4294967295⟩
def Reg.MG_UPD.BUSY : Field := ⟨0xf0028, 0, 1, .ro, .live, 0x0, 0, 1⟩
def Reg.MG_UPD.STEP : Field := ⟨0xf0028, 1, 3, .ro, .live, 0x0, 0, 7⟩
def Reg.MG_UPD.ROLE : Field := ⟨0xf0028, 4, 5, .ro, .live, 0x0, 0, 31⟩
def Reg.MG_UPD.STAGED : Field := ⟨0xf0028, 9, 7, .ro, .live, 0x0, 0, 127⟩
def Reg.FF_CMD.OP : Field := ⟨0xf0030, 0, 3, .wo, .live, 0x0, 0, 7⟩
def Reg.FF_CMD.COUNT : Field := ⟨0xf0030, 3, 2, .wo, .live, 0x0, 0, 3⟩
def Reg.FF_ADDR.ADDR : Field := ⟨0xf0034, 3, 23, .rw, .live, 0x0, 0, 8388607⟩
def Reg.FF_DATALO.DATA : Field := ⟨0xf0038, 0, 32, .rw, .live, 0x0, 0, 4294967295⟩
def Reg.FF_DATAHI.DATA : Field := ⟨0xf003c, 0, 32, .rw, .live, 0x0, 0, 4294967295⟩
def Reg.FF_STATUS.BUSY : Field := ⟨0xf0040, 0, 1, .ro, .live, 0x0, 0, 1⟩
def Reg.FF_STATUS.NOTERASED : Field := ⟨0xf0040, 1, 1, .w1c, .live, 0x0, 0, 1⟩
def Reg.FF_STATUS.PROTECT : Field := ⟨0xf0040, 2, 1, .w1c, .live, 0x0, 0, 1⟩
def Reg.FF_STATUS.PROGFAIL : Field := ⟨0xf0040, 3, 1, .w1c, .live, 0x0, 0, 1⟩
def Reg.FF_STATUS.ERASEFAIL : Field := ⟨0xf0040, 4, 1, .w1c, .live, 0x0, 0, 1⟩
def Reg.FF_STATUS.RANGE : Field := ⟨0xf0040, 5, 1, .w1c, .live, 0x0, 0, 1⟩
def Reg.FF_WEAR.MAX : Field := ⟨0xf0044, 0, 24, .ro, .live, 0x0, 0, 16777215⟩
def Reg.FF_WEAR.HALFERASED : Field := ⟨0xf0044, 24, 8, .ro, .live, 0x0, 0, 255⟩
def Reg.MG_ERR.HUFAIL : Field := ⟨0xf0048, 0, 1, .w1c, .live, 0x0, 0, 1⟩
def Reg.MG_ERR.HULOW : Field := ⟨0xf0048, 1, 1, .w1c, .live, 0x0, 0, 1⟩
def Reg.MG_ERR.CRITTEMP : Field := ⟨0xf0048, 2, 1, .w1c, .live, 0x0, 0, 1⟩
def Reg.MG_ERR.SUPPLY : Field := ⟨0xf0048, 3, 1, .w1c, .live, 0x0, 0, 1⟩
def Reg.MG_ERR.LOGDROP : Field := ⟨0xf0048, 4, 1, .w1c, .live, 0x0, 0, 1⟩
def Reg.MG_ERR.WEAR : Field := ⟨0xf0048, 5, 1, .w1c, .live, 0x0, 0, 1⟩

/-- The fields of MG, part 0. -/
def fieldsMG0 : List Field :=
  [Reg.MG_STAT.RUN, Reg.MG_STAT.SLOT, Reg.MG_STAT.MGRESETS, Reg.MG_WDOG.PERIOD, Reg.MG_WDOG.KICK,
   Reg.MG_SENSEL.SENSOR, Reg.MG_SENDATA.VALUE, Reg.MG_SENDATA.WARN, Reg.MG_SENDATA.TRIP, Reg.MG_HUCFG.VMIN,
   Reg.MG_HUCFG.EFF, Reg.MG_HUCFG.PERIOD, Reg.MG_HUSTAT.CAP, Reg.MG_HUSTAT.VOLT, Reg.MG_LOGSTAT.UNACK,
   Reg.MG_LOGSTAT.PFULL, Reg.MG_LOGSTAT.RATE, Reg.MG_LOGSTAT.DROPPED, Reg.MG_LOGACK.SEQ, Reg.MG_LOGSEL.BACK,
   Reg.MG_LOGSEL.DWORD, Reg.MG_LOGSEL.AREA, Reg.MG_LOGDATA.DATA, Reg.MG_UPD.BUSY, Reg.MG_UPD.STEP,
   Reg.MG_UPD.ROLE, Reg.MG_UPD.STAGED, Reg.FF_CMD.OP, Reg.FF_CMD.COUNT, Reg.FF_ADDR.ADDR, Reg.FF_DATALO.DATA,
   Reg.FF_DATAHI.DATA, Reg.FF_STATUS.BUSY, Reg.FF_STATUS.NOTERASED, Reg.FF_STATUS.PROTECT,
   Reg.FF_STATUS.PROGFAIL, Reg.FF_STATUS.ERASEFAIL, Reg.FF_STATUS.RANGE, Reg.FF_WEAR.MAX, Reg.FF_WEAR.HALFERASED]

/-- The fields of MG, part 1. -/
def fieldsMG1 : List Field :=
  [Reg.MG_ERR.HUFAIL, Reg.MG_ERR.HULOW, Reg.MG_ERR.CRITTEMP, Reg.MG_ERR.SUPPLY, Reg.MG_ERR.LOGDROP,
   Reg.MG_ERR.WEAR]

/-- The fields of MG. -/
def fieldsMG : List Field := fieldsMG0 ++ fieldsMG1

/-! The FI block (chapter 16). -/

def Reg.FI_ARM.ARMED : Field := ⟨0xf8000, 0, 1, .ro, .live, 0x0, 0, 1⟩
def Reg.FI_ARM.DISARM : Field := ⟨0xf8000, 1, 1, .w1s, .live, 0x0, 0, 1⟩
def Reg.FI_ARM.DCAUSE : Field := ⟨0xf8000, 2, 3, .ro, .live, 0x0, 0, 7⟩
def Reg.FI_ARM.KEY : Field := ⟨0xf8000, 16, 16, .wo, .live, 0x0, 0, 65535⟩
def Reg.FI_CFG.TMO : Field := ⟨0xf8004, 0, 8, .rw, .live, 0x3c, 1, 255⟩
def Reg.FI_GF.LINK : Field := ⟨0xf8008, 0, 4, .rw, .live, 0x0, 0, 11⟩
def Reg.FI_GF.VC : Field := ⟨0xf8008, 4, 2, .rw, .live, 0x0, 0, 3⟩
def Reg.FI_GF.OP : Field := ⟨0xf8008, 6, 2, .rw, .live, 0x0, 0, 3⟩
def Reg.FI_GF.RATE : Field := ⟨0xf8008, 8, 5, .rw, .live, 0x0, 0, 31⟩
def Reg.FI_GF.EN : Field := ⟨0xf8008, 13, 1, .rw, .live, 0x0, 0, 1⟩
def Reg.FI_FL.CHANNEL : Field := ⟨0xf800c, 0, 6, .rw, .live, 0x0, 0, 63⟩
def Reg.FI_FL.POS : Field := ⟨0xf800c, 6, 5, .rw, .live, 0x0, 0, 31⟩
def Reg.FI_FL.OP : Field := ⟨0xf800c, 11, 2, .rw, .live, 0x0, 0, 2⟩
def Reg.FI_FL.BITS : Field := ⟨0xf800c, 13, 8, .rw, .live, 0x0, 1, 255⟩
def Reg.FI_FL.RATE : Field := ⟨0xf800c, 21, 5, .rw, .live, 0x0, 0, 31⟩
def Reg.FI_FL.EN : Field := ⟨0xf800c, 26, 1, .rw, .live, 0x0, 0, 1⟩
def Reg.FI_PCIE.PORT : Field := ⟨0xf8010, 0, 1, .rw, .live, 0x0, 0, 1⟩
def Reg.FI_PCIE.RATE : Field := ⟨0xf8010, 1, 5, .rw, .live, 0x0, 0, 31⟩
def Reg.FI_PCIE.EN : Field := ⟨0xf8010, 6, 1, .rw, .live, 0x0, 0, 1⟩
def Reg.FI_CNT.INJECTED : Field := ⟨0xf8014, 0, 32, .ro, .live, 0x0, 0, 4294967295⟩
def Reg.FI_ERR.NOTARMED : Field := ⟨0xf8018, 0, 1, .w1c, .live, 0x0, 0, 1⟩
def Reg.FI_ERR.KEY : Field := ⟨0xf8018, 1, 1, .w1c, .live, 0x0, 0, 1⟩
def Reg.FI_ERR.REALFAULT : Field := ⟨0xf8018, 2, 1, .w1c, .live, 0x0, 0, 1⟩

/-- The fields of FI, part 0. -/
def fieldsFI0 : List Field :=
  [Reg.FI_ARM.ARMED, Reg.FI_ARM.DISARM, Reg.FI_ARM.DCAUSE, Reg.FI_ARM.KEY, Reg.FI_CFG.TMO, Reg.FI_GF.LINK,
   Reg.FI_GF.VC, Reg.FI_GF.OP, Reg.FI_GF.RATE, Reg.FI_GF.EN, Reg.FI_FL.CHANNEL, Reg.FI_FL.POS, Reg.FI_FL.OP,
   Reg.FI_FL.BITS, Reg.FI_FL.RATE, Reg.FI_FL.EN, Reg.FI_PCIE.PORT, Reg.FI_PCIE.RATE, Reg.FI_PCIE.EN,
   Reg.FI_CNT.INJECTED, Reg.FI_ERR.NOTARMED, Reg.FI_ERR.KEY, Reg.FI_ERR.REALFAULT]

/-- The fields of FI. -/
def fieldsFI : List Field := fieldsFI0

/-- The fields of the setup block that holds BAR0 offset `off` (Table 1.7: 32 KiB each from 0x8_0000). -/
def blockFields (off : Nat) : List Field :=
  match (off - 0x80000) / 0x8000 with
  | 0 => fieldsGEN
  | 1 => fieldsHE
  | 2 => fieldsQE
  | 3 => fieldsFS
  | 4 => fieldsMX
  | 5 => fieldsMM
  | 6 => fieldsSP
  | 7 => fieldsDC
  | 8 => fieldsCS
  | 9 => fieldsBP
  | 10 => fieldsME
  | 11 => fieldsGF
  | 12 => fieldsTW
  | 13 => fieldsDG
  | 14 => fieldsMG
  | 15 => fieldsFI
  | _ => []

/-- Every field of the sixteen blocks. -/
def allFields : List Field :=
  fieldsGEN ++ fieldsHE ++ fieldsQE ++ fieldsFS ++ fieldsMX ++ fieldsMM ++ fieldsSP ++ fieldsDC ++ fieldsCS ++ fieldsBP ++
  fieldsME ++ fieldsGF ++ fieldsTW ++ fieldsDG ++ fieldsMG ++ fieldsFI

/-- The keys of the Locked fields (R50). -/
def lockedKeys : List Nat := (allFields.filter (fun f => decide (f.tim = .locked))).map Field.key

/-- The fields of the register at BAR0 offset `off`, empty for a reserved offset. -/
def fieldsAt (off : Nat) : List Field :=
  if 0x80000 ≤ off ∧ off < 0x100000 then (blockFields off).filter (fun f => f.reg == off) else []

end Sys2Proof.Machine
end

