-- ==== Sys2Proof/Machine/Sparse.lean ====
section
/-! DEFINITION. The one canonical form every large store of the model uses: a list of (key, value) pairs with keys strictly
rising and no entry equal to what an unlisted key reads as. Registers, memories, the map and the block state table are all
stores of this form, so equal contents are equal data. -/
namespace Sys2Proof.Machine

/-- The value at key `k`; `d` is what an unlisted key reads as. -/
def sGet {α : Type} (l : List (Nat × α)) (d : α) (k : Nat) : α :=
  match l with
  | [] => d
  | (k', v) :: t => if k' = k then v else sGet t d k

/-- Remove every entry of key `k`. -/
def sDel {α : Type} (l : List (Nat × α)) (k : Nat) : List (Nat × α) :=
  match l with
  | [] => []
  | (k', v) :: t => if k' = k then sDel t k else (k', v) :: sDel t k

/-- Insert or replace key `k` keeping the keys rising. -/
def sIns {α : Type} (l : List (Nat × α)) (k : Nat) (v : α) : List (Nat × α) :=
  match l with
  | [] => [(k, v)]
  | (k', v') :: t =>
    if k < k' then (k, v) :: (k', v') :: t
    else if k = k' then (k, v) :: t
    else (k', v') :: sIns t k v

/-- Write value `v` at key `k` of a store whose unlisted keys read `d`: writing the default removes the entry. -/
def sPut {α : Type} [DecidableEq α] (l : List (Nat × α)) (d : α) (k : Nat) (v : α) : List (Nat × α) :=
  if v = d then sDel l k else sIns l k v

/-- Change the value at key `k` by `f`. -/
def sUpd {α : Type} [DecidableEq α] (l : List (Nat × α)) (d : α) (k : Nat) (f : α → α) : List (Nat × α) :=
  sPut l d k (f (sGet l d k))

/-- The keys are strictly rising and all above `lo`. -/
def sSorted {α : Type} (l : List (Nat × α)) : Bool :=
  match l with
  | [] => true
  | (k, _) :: t => t.all (fun p => decide (k < p.1)) && sSorted t

/-- The canonical form: keys rising, no entry equal to the default. -/
def sWf {α : Type} [DecidableEq α] (l : List (Nat × α)) (d : α) : Bool :=
  sSorted l && l.all (fun p => decide (p.2 ≠ d))

/-- Update the first element that satisfies `p`. -/
def updFirst {α : Type} (l : List α) (p : α → Bool) (f : α → α) : List α :=
  match l with
  | [] => []
  | a :: t => if p a then f a :: t else a :: updFirst t p f

/-- Update every element that satisfies `p`. -/
def updAll {α : Type} (l : List α) (p : α → Bool) (f : α → α) : List α :=
  l.map (fun a => if p a then f a else a)

/-- Add `a` at the end unless it is there. -/
def addOnce {α : Type} [DecidableEq α] (l : List α) (a : α) : List α :=
  if a ∈ l then l else l ++ [a]

/-- Least element of a list of naturals, `d` for the empty list. -/
def minOf (l : List Nat) (d : Nat) : Nat :=
  match l with
  | [] => d
  | a :: t => Nat.min a (minOf t a)

/-- Greatest element of a list of naturals, 0 for the empty list. -/
def maxOf (l : List Nat) : Nat := l.foldl Nat.max 0

/-- Sum of a list of naturals. -/
def sumOf (l : List Nat) : Nat := l.foldl (· + ·) 0

/-- Division rounded up. -/
def ceilDiv (a b : Nat) : Nat := (a + b - 1) / b

end Sys2Proof.Machine
end

