-- ==== Sys2Proof/Machine/StateHost.lean ====
section
/-! DEFINITION. State of the power and mode control (GEN), the host endpoint (HE) and the queue engine (QE): chapters 2 to 5. -/
namespace Sys2Proof.Machine

/-- Two of a kind, one for each host port (Table 3.1). -/
structure Two (α : Type) where
  a : α
  b : α
  deriving DecidableEq, Repr

/-- Who holds the setup token (Table 2.9, HOLDER). -/
inductive Holder where
  | none
  | host
  | mgmt
  deriving DecidableEq, Repr

/-- Mode control: GEN_MODE, the setup token and what a mode change in progress waits for (R33 to R38, R49). -/
structure Gen where
  /-- GEN_MODE.MODE (R33, Table 2.7), 4 bits. -/
  mode : Mode
  /-- GEN_MODE.PREV (Table 2.7), 4 bits. -/
  prev : Mode
  /-- GEN_MODE.CAUSE: row of Table 2.2 that entered the mode (R34), 8 bits. -/
  cause : Nat
  /-- GEN_OWNER.HOLDER (R49), 2 bits. -/
  holder : Holder
  /-- Target of the first half of a two-step GEN_MODEREQ whose 1 ms runs (Table 2.8). -/
  reqTarget : Option Mode
  /-- A granted request for DIAGNOSTIC waits for the commands admitted under a bound (row 18). -/
  diagPending : Bool
  /-- The mode before LOWPOWER (row 9). -/
  lowFrom : Mode
  /-- PS3 or PS4 whose entry is in progress (R117). -/
  psEntry : Option PowerState
  /-- The entry flush of QUARANTINE is running (R36). -/
  quarFlush : Bool
  /-- Steps 2 and 3 of start-up have completed: boot image verified (Table 2.3). -/
  bootVerified : Bool
  /-- The host island is released: HE leaves RRS (R40). -/
  hostReleased : Bool
  /-- The shutdown's or reset's clean stop has run since the last change (R45). -/
  cleanStop : Bool
  /-- Hold-up has verified at least once since start-up (R420 bit 4). -/
  verifiedOnce : Bool
  /-- What verification found at start-up: 0 nothing failed, 4 the selected block failed, 5 both failed (rows 4 and 5). -/
  bootRow : Nat
  /-- The other boot block verifies (row 4). -/
  otherOk : Bool
  deriving DecidableEq, Repr

/-- Levels of the input pins the model reads (chapter 17). -/
structure Pins where
  /-- POR_N (R408). -/
  porN : Bool
  /-- PWR_FAIL_N (R409). -/
  pwrFailN : Bool
  /-- TWIN_FENCE_IN (R36, R412). -/
  fenceIn : Bool
  /-- TWIN_FENCE_OUT (R331). -/
  fenceOut : Bool
  /-- TWIN_HB_IN as last sampled (R330). -/
  hbIn : Bool
  /-- TWIN_HB_OUT (R330). -/
  hbOut : Bool
  /-- HU_GOOD (R371, R410). -/
  huGood : Bool
  /-- HU_TEST drives the verification discharge (R370). -/
  huTest : Bool
  /-- HE_BIFUR as sampled (R53). -/
  bifur : Bool
  deriving DecidableEq, Repr

/-- One entry of a window table (R66, Tables 3.25 to 3.28). -/
structure Win where
  en : Bool
  rd : Bool
  wr : Bool
  /-- SIZE, 5 bits: 2^SIZE MiB. -/
  size : Nat
  /-- BASE: aperture offset [35:20], 16 bits. -/
  base : Nat
  /-- Target [47:20], 28 bits. -/
  tgt : Nat
  deriving DecidableEq, Repr

/-- The reset value of a window entry: every field 0. -/
def Win.zero : Win := ⟨false, false, false, 0, 0, 0⟩

/-- Why HE has a host read outstanding (R75, R77). -/
inductive ReadUse where
  /-- Part `part` of a command's data. -/
  | data (cmd part : Nat)
  | list (cmd : Nat)
  | sqe (sq slot : Nat)
  /-- Shadow doorbell lines (R88). -/
  | poll (addr len : Nat)
  deriving DecidableEq, Repr

/-- One outstanding non-posted read (R74 to R77). -/
structure Tag where
  tag : Nat
  use : ReadUse
  /-- Reissues still allowed: one for data and list reads, two for a fetch (R77). -/
  retries : Nat
  /-- Its function was reset while it was outstanding: the completion is discarded (R76). -/
  dead : Bool
  deriving DecidableEq, Repr

/-- A window access that waits for earlier posted writes to another destination (R71). -/
structure HeldTlp where
  /-- Aperture offset it arrived at. -/
  off : Nat
  dest : Option Nat
  isRead : Bool
  addr : Nat
  len : Nat
  tag : Nat
  data : List Byte
  ep : Bool
  deriving DecidableEq, Repr

/-- Advanced Error Reporting of a function (R77): status, mask and severity of uncorrectable errors, status and mask of correctable ones, by the
bit places of PCI Express Base 6.0 (log entry 31). -/
structure Aer where
  ue : Nat
  ueMask : Nat
  ueSev : Nat
  ce : Nat
  ceMask : Nat
  deriving DecidableEq, Repr

/-- State of one host port (chapter 3). -/
structure HostPort where
  /-- HE_LINKSTAT x_UP (R54). -/
  up : Bool
  /-- HE_LINKSTAT x_RATE, encoded as MAXRATE, 3 bits. -/
  rate : Nat
  /-- HE_LINKSTAT x_WIDTH, 5 bits. -/
  width : Nat
  /-- HE_LINKSTAT x_FLIT. -/
  flit : Bool
  /-- The LTSSM is in Recovery (R59). -/
  recovery : Bool
  /-- The port is in ASPM L1 (R57). -/
  l1 : Bool
  /-- L1 substate L1.2 in use (R57). -/
  l12 : Bool
  /-- The function is in D3hot (R56). -/
  d3hot : Bool
  /-- PCI Command register, 16 bits (R79). -/
  command : Nat
  /-- Link Control: ASPM L1 enabled by the host (R57). -/
  aspmL1 : Bool
  /-- 10-Bit Tag Requester Enable (R74). -/
  tag10 : Bool
  /-- MPS in bytes, up to 512 (R76). -/
  mps : Nat
  /-- MRRS in bytes, up to 4,096 (R76). -/
  mrrs : Nat
  /-- Read Completion Boundary in bytes: 64 or 128 (R65). -/
  rcb : Nat
  /-- Advanced Error Reporting (R77). -/
  aer : Aer
  /-- MSI-X enable and function mask (Table 3.2). -/
  msixEn : Bool
  /-- MSI-X function mask. -/
  msixMask : Bool
  /-- The MSI-X table in BAR0 at 0x8000, by dword (Table 3.4); mask bits reset to 1, which the accessor applies. -/
  msixTable : List (Nat × Nat)
  /-- Pending bits of the MSI-X PBA: vectors pending. -/
  pba : List Nat
  /-- The six BAR dwords as written above their size bits (R61). -/
  bars : List Word
  /-- Reads outstanding (R74). -/
  tags : List Tag
  /-- Staging window table (R67): entries not all zero. -/
  staging : List (Nat × Win)
  /-- Active window table (R67). -/
  active : List (Nat × Win)
  /-- HE_WINSTAT x_BUSY: the copy of R69 runs. -/
  copyBusy : Bool
  /-- HE_WINSTAT x_GEN, 8 bits. -/
  winGen : Nat
  /-- Destinations of posted window writes not yet acknowledged, oldest first (R71); `none` is the local exported region. -/
  unacked : List (Option Nat)
  /-- Window accesses that wait (R71), oldest first. -/
  heldTlps : List HeldTlp
  /-- Contents of the controller memory buffer (R63, R65): bytes not zero. -/
  cmb : List (Nat × Byte)
  /-- Poisoned 64-byte lines of the CMB (R78). -/
  cmbPoison : List Nat
  /-- CMBMSC.CMSE (R64). -/
  cmse : Bool
  /-- CMBMSC.CBA, bits [63:12] as a byte address (R64). -/
  cba : Nat
  /-- The DOE mailbox: the request being answered (R80). -/
  doeReq : Option (List Word)
  /-- The DOE mailbox: the response ready to read (R80). -/
  doeResp : List Word
  /-- A DOE object written while Busy, with its type: it waits for the responder (R80). -/
  doeWait : Option (Nat × List Word)
  /-- DOE Busy (R80). -/
  doeBusy : Bool
  /-- Recovery stays and L0p changes that entries seen and not yet commands overlap: (cause, device time of the end, ns) (R142). -/
  stays : List (Nat × Nat × Nat)
  deriving DecidableEq, Repr

/-- A completion queue entry (NVM Express; R121). -/
structure Cqe where
  cq : Nat
  sq : Nat
  sqHead : Nat
  cid : BitVec 16
  sct : Nat
  sc : Nat
  dw0 : Nat
  dw1 : Nat
  phase : Bool
  deriving DecidableEq, Repr

/-- What the class counters of Table 5.8 need of an I/O command at its completion: its class, the bound it carried (0 read, 1 write, 2 FUA),
T0, its deadline without extensions by cause 6, and its extensions. -/
structure Done where
  cls : Nat
  kind : Nat
  t0 : Nat
  deadline : Option Nat
  ext : List (Nat × Nat)
  deriving DecidableEq, Repr

/-- A completion held because its queue is full (R85): since when, the entry, and what the counters need. -/
structure HeldCqe where
  at_ : Nat
  e : Cqe
  done : Option Done
  deriving DecidableEq, Repr

/-- A submission queue (R83). Queue 0 is the admin queue. -/
structure Sq where
  qid : Nat
  /-- Entries, 2 to 65,536. -/
  size : Nat
  cq : Nat
  /-- QPRIO: 0 urgent, 1 high, 2 medium, 3 low (R92). -/
  prio : Nat
  base : Nat
  head : Nat
  tail : Nat
  /-- Latency class bound by Feature C1h (R100), 0 to 7. -/
  cls : Nat
  /-- Device time at which each unfetched entry was first seen (R86, R89), oldest first. -/
  t0s : List Nat
  /-- CID of the Delete I/O SQ that waits for this queue's commands (R84). -/
  deleting : Option (BitVec 16)
  /-- Polled under shadow doorbells (R88). -/
  polled : Bool
  /-- T0 of each entry fetched and not yet a command, oldest first (R84, R86). -/
  fetched : List Nat
  /-- T0 of the entry that became a command last. -/
  t0 : Option Nat
  deriving DecidableEq, Repr

/-- A completion queue (R83). -/
structure Cq where
  qid : Nat
  size : Nat
  vector : Nat
  ien : Bool
  base : Nat
  head : Nat
  tail : Nat
  phase : Bool
  /-- Completions held because the queue is full (R85), oldest first, each with the device time it was held. -/
  held : List HeldCqe
  polled : Bool
  deriving DecidableEq, Repr

/-- An asynchronous event (R120): type, information and log page. -/
structure AsyncEvent where
  typ : Nat
  info : Nat
  lid : Nat
  deriving DecidableEq, Repr

/-- An Error Information log entry (R86). -/
structure ErrEntry where
  count : Nat
  sqid : Nat
  cid : Nat
  sct : Nat
  sc : Nat
  loc : Nat
  lba : Nat
  nsid : Nat
  deriving DecidableEq, Repr

/-- One NVMe controller (chapter 4). -/
structure Ctl where
  /-- CC.EN. -/
  en : Bool
  /-- CC.IOSQES, IOCQES, MPS, AMS, CSS, SHN (R82). -/
  iosqes : Nat
  iocqes : Nat
  mps : Nat
  ams : Nat
  css : Nat
  shn : Nat
  /-- AQA.ASQS, AQA.ACQS (0's based, 12 bits). -/
  asqs : Nat
  acqs : Nat
  /-- ASQ and ACQ. -/
  asq : Nat
  acq : Nat
  /-- CSTS.CFS (R77, R82). -/
  cfs : Bool
  /-- CSTS.SHST (R45), 2 bits. -/
  shst : Nat
  /-- INTMS/INTMC are not used with MSI-X. Submission queues, the admin queue first. -/
  sqs : List Sq
  cqs : List Cq
  /-- Number of Queues was set since the last Controller reset (R83). -/
  nqSet : Bool
  /-- Granted I/O submission and completion queues (R83). -/
  nsq : Nat
  ncq : Nat
  /-- Arbitration feature (R92), 32 bits. -/
  arb : Nat
  /-- Interrupt Coalescing: THR and TIME (Table 4.6). -/
  icThr : Nat
  icTime : Nat
  /-- Vectors with coalescing disabled (feature 09h). -/
  icOff : List Nat
  /-- Completions whose MSI-X message is being coalesced, per vector (feature 08h). -/
  icPend : List (Nat × Nat)
  /-- Asynchronous Event Configuration (feature 0Bh), 32 bits. -/
  aec : Nat
  /-- CIDs of Aborts whose completion is held (R113). -/
  aborts : List (BitVec 16)
  /-- CIDs of outstanding Asynchronous Event Requests, oldest first (R120). -/
  aers : List (BitVec 16)
  /-- Events waiting for a request (R120), oldest first. -/
  events : List AsyncEvent
  /-- Events posted and not yet cleared: their (type, information) is masked (R120). -/
  masked : List AsyncEvent
  /-- Error Information entries, newest first, at most 256 (Table 4.8). -/
  errLog : List ErrEntry
  /-- Errors since power-on, the count of the newest entry. -/
  errCount : Nat
  /-- Changed Namespace List (log 04h). -/
  changedNs : List Nat
  /-- Shadow doorbell and EventIdx buffers (R87). -/
  shadow : Option (Nat × Nat)
  /-- QE is polling (R88). -/
  polling : Bool
  /-- EventIdx entries as last written: (doorbell index, value) (R90). -/
  eventIdx : List (Nat × Nat)
  /-- A poll round is outstanding (R88). -/
  pollOut : Bool
  /-- Namespaces with Streams enabled and their open streams (directives, R94). -/
  streamsOn : List Nat
  /-- Open stream identifiers: (NSID, stream). -/
  streams : List (Nat × Nat)
  /-- Stream resources allocated: (NSID, count). -/
  streamRes : List (Nat × Nat)
  /-- Device Self-test running: code and completing CID (Table 4.3). -/
  selfTest : Option Nat
  /-- Self-test results, newest first (log 06h). -/
  selfTests : List (Nat × Nat)
  /-- Queue last served of: all I/O queues, and the urgent, high, medium and low classes (R92). -/
  rrPtr : List Nat
  /-- Commands left of the Arbitration Burst of the queue last served (R92). -/
  burst : Nat
  /-- Weighted round robin: credits left for high, medium, low (R92). -/
  wrr : List Nat
  deriving DecidableEq, Repr

/-- One row of the Latency Class Table (Table 4.7). -/
structure LatClass where
  rdBound : Nat
  rdSize : Nat
  wrBound : Nat
  wrBoundT : Nat
  fuaBound : Nat
  deriving DecidableEq, Repr

/-- Admin state shared by both controllers (R98, second group) and device-wide logs. -/
structure Shared where
  /-- Power Management: the power state in force (R116). -/
  ps : PowerState
  /-- The operational state before PS3 or PS4 (R116). -/
  psOp : PowerState
  /-- Temperature Threshold: over, under, in kelvin (Table 4.6). -/
  tOver : Nat
  tUnder : Nat
  /-- Volatile Write Cache enable (R110). -/
  wce : Bool
  /-- Latency Class Table entries LC3 to LC6 (R99). -/
  lct : List LatClass
  /-- Sanitize: 0 never, 1 block erase in progress, 2 completed, 3 crypto erase in progress (log 81h). -/
  sanState : Nat
  /-- Admitted commands' status counters of SMART: host reads, host writes. -/
  hostReads : Nat
  hostWrites : Nat
  /-- Deferred-fault records, newest first (R104, R114). -/
  dfTotal : Nat
  /-- Lost-data extents: TOTAL (R106). -/
  lostTotal : Nat
  /-- Lost-data OVERFLOW (R106). -/
  lostOver : Bool
  /-- Downloaded firmware bytes staged: (offset, length) extents (R383). -/
  fwDown : List (Nat × Nat)
  /-- Composite temperature in kelvin (R369). -/
  compTempK : Nat
  /-- T0 of the doorbell that last ended PS3 or PS4, or their entry, with the extension cause 4 or 5 (R117). -/
  wake : Option (Nat × Nat)
  deriving DecidableEq, Repr

/-- A deferred-fault record (Table 4.10). -/
structure DefFault where
  nsid : Nat
  cause : Nat
  /-- Reported on port A, on port B; repaired (Table 4.10 FLAGS). -/
  repA : Bool
  repB : Bool
  repaired : Bool
  dtime : Nat
  csnFirst : Nat
  csnLast : Nat
  slba : Nat
  nlb : Nat
  deriving DecidableEq, Repr

/-- A lost-data entry (R106). -/
structure LostExt where
  nsid : Nat
  cause : Nat
  repaired : Bool
  slba : Nat
  nlb : Nat
  csn : Nat
  /-- Its LBAs written or deallocated since. -/
  gone : List Nat
  deriving DecidableEq, Repr

end Sys2Proof.Machine
end

