-- ==== Sys2Proof/Machine/StateMedia.lean ====
section
/-! DEFINITION. State of the fret scheduler (FS), translation (MX), media management (MM) and die parity (SP), of the commands in
flight through them, and of the NAND they keep: chapters 5 to 8. -/
namespace Sys2Proof.Machine

/-- A map entry (Table 6.1). Its 64-bit word is `MapEntry.word` of Machine/Formats.lean. -/
structure MapEntry where
  die : Nat
  block : Nat
  plane : Nat
  page : Nat
  goff : Nat
  glen : Nat
  lost : Bool
  dealloc : Bool
  rgen : Nat
  vhint : Nat
  staged : Bool
  stidx : Nat
  deriving DecidableEq, Repr

/-- The entry every grain has at namespace creation and after a Format (R153): DEALLOC and nothing else. -/
def MapEntry.initial : MapEntry := ⟨0, 0, 0, 0, 0, 0, false, true, 0, 0, false, 0⟩

/-- The content of one LBA inside a grain (R149, R150): data, a deallocated mark, a lost mark, or still the prior copy's. -/
inductive LbaVal where
  | data (d : HostLba)
  | dealloc
  | lost
  | prior
  deriving DecidableEq, Repr

/-- What a lookup saw for one LBA (R20, R162). -/
inductive View where
  /-- Deallocated: zeros, every metadata byte 0xFF (R160). -/
  | zero
  /-- Lost: the command fails with 2h/81h (Table 6.2). -/
  | lost
  /-- In the staging buffers of staging record `stidx`. -/
  | buffered (stidx : Nat) (d : HostLba)
  /-- On the media at the entry's location. -/
  | media (e : MapEntry)
  deriving DecidableEq, Repr

/-- A staging record (R151, R159): a committed grain that is not yet placed. -/
structure Staged where
  stidx : Nat
  nsid : Nat
  grain : Nat
  csn : Nat
  lbas : List LbaVal
  /-- The entry that held the grain before the commit (R162). -/
  prior : MapEntry
  /-- The entry's RGEN after the commit. -/
  rgen : Nat
  vintage : Nat
  /-- Granules of the stored form (R236, R242). -/
  glen : Nat
  /-- Device time of the commit (R189). -/
  born : Nat
  /-- MM_GATHER.TMO when it was committed, in units of 0.5 ms (R189). -/
  tmo : Nat
  /-- The uncovered LBAs have been merged (R149). -/
  merged : Bool
  /-- It has been given a place in a wordline row or a vat page. -/
  queued : Bool
  /-- A line of its buffers is poisoned (R299). -/
  poisoned : Bool
  /-- Commands whose lookup saw it and that have not yet taken its data (R162). -/
  readers : List Nat
  /-- A command handled as FUA, or a Flush, waits for its copies, though a newer commit may have taken its place (R111, R112). -/
  hold : Bool
  /-- Records whose grains share a unit of its wordline: their buffers go together (R188). -/
  mates : List Nat
  /-- Buffers it holds (R283). -/
  bufs : List Nat
  deriving DecidableEq, Repr

/-- The stored form of a grain on the media: what one tag entry and its granules say (R171, R172). -/
structure Copy where
  loc : MapEntry
  nsid : Nat
  grain : Nat
  csn : Nat
  vintage : Nat
  lbas : List LbaVal
  /-- A vat copy also lies on the partner die of the pair (R184). -/
  vat : Bool
  /-- The first, and for a vat copy the second, cannot be decoded (R191). -/
  bad1 : Bool
  bad2 : Bool
  deriving DecidableEq, Repr

/-- A journal record (Tables 6.3 and 6.4). -/
structure JRec where
  typ : Nat
  flags : Nat
  nsid : Nat
  aux : Nat
  key : Nat
  a : Nat
  /-- The entry B carries for COMMIT, PLACE and RACK, else `none`. -/
  be : Option MapEntry
  /-- B of the other records; for RACK the source entry is A's word. -/
  b : Nat
  deriving DecidableEq, Repr

/-- A durable journal segment (R165): its sequence number, records and readable copies. -/
structure Segment where
  seq : Nat
  recs : List JRec
  copies : Nat
  deriving DecidableEq, Repr

/-- A physical block (Table 7.2). STATE and ROW follow from the geometry and from these fields. -/
structure Block where
  erases : Nat
  retired : Bool
  intent : Bool
  refresh : Bool
  reads : Nat
  pptr : Nat
  age : Nat
  deriving DecidableEq, Repr

/-- A block never used: every field 0. -/
def Block.fresh : Block := ⟨0, false, false, false, 0, 0, 0⟩

/-- A checkpoint root and the tree it names (R168, R169). -/
structure Root where
  sweep : Nat
  replaySeq : Nat
  replayCsn : Nat
  clean : Bool
  /-- The map the tree holds: (packed grain key, entry). -/
  map : List (Nat × MapEntry)
  /-- The block state table it stored, READS in its 8-bit code. -/
  blocks : List (Nat × Block)
  /-- The barrel digest table it stored: (barrel, digest). -/
  digests : List (Nat × Nat)
  /-- The highest CSN of each namespace at the root: (nsid, CSN) (R24; log entry 108). -/
  nsCsn : List (Nat × Nat)
  copies : Nat
  deriving DecidableEq, Repr

/-- A barrel that is not free (R180, R193). -/
structure Barrel where
  num : Nat
  vintage : Nat
  /-- 0 open, 1 closed, 2 RACKDONE durable. -/
  state : Nat
  openCsn : Nat
  short : Bool
  /-- Last stripe programmed (CLOSE, AUX). -/
  lastStripe : Nat
  /-- Device time of its first program (R198). -/
  age : Nat
  deriving DecidableEq, Repr

/-- A grain given a place in a wordline row (R187): where it goes and which members hold it. -/
structure Placed where
  nsid : Nat
  grain : Nat
  csn : Nat
  /-- Its staging record; `none` for a racking, refresh or bottling copy. -/
  stidx : Option Nat
  /-- The source of a copy (R162). -/
  src : Option MapEntry
  dst : MapEntry
  members : List Nat
  lbas : List LbaVal
  deriving DecidableEq, Repr

/-- A wordline row being programmed (R187). -/
structure Row where
  w : Nat
  placed : List Placed
  started : List Nat
  verified : List Nat
  failed : List Nat
  deriving DecidableEq, Repr

/-- An open barrel (R187). -/
structure OpenBarrel where
  num : Nat
  group : Nat
  vintage : Nat
  /-- Its OPEN record is durable (R166). -/
  durable : Bool
  /-- The next wordline to compose. -/
  nextW : Nat
  rows : List Row
  /-- It composes no further row and closes short once the rows in program have finished (R206, R222). -/
  halt : Bool
  deriving DecidableEq, Repr

/-- A host data page booked or programmed in the vat (R185). -/
structure VatPage where
  group : Nat
  /-- The lower member position of the pair. -/
  pos : Nat
  slot : Nat
  page : Nat
  placed : List Placed
  /-- Copies that have verified, by member position. -/
  verified : List Nat
  /-- Commands that wait for the copies (FUA, Flush). -/
  cmds : List Nat
  deriving DecidableEq, Repr

/-- The ring of vat slots of one pair (R185). -/
structure VatPair where
  group : Nat
  pos : Nat
  openSlot : Nat
  nextPage : Nat
  /-- Slots filled, oldest first. -/
  full : List Nat
  /-- Slots retired (R205). -/
  retired : List Nat
  /-- Slots whose ERASEINT has no ERASEDONE. -/
  erasing : List Nat
  /-- Retired slots for which no block good on both dies was left (R205). -/
  gone : List Nat
  deriving DecidableEq, Repr

/-- A stripe group (R209, R213). -/
structure Group where
  num : Nat
  /-- Original die slots, by member position. -/
  members : List Nat
  /-- Rows in use (R180). -/
  rows : Nat
  /-- Rows withdrawn (R205). -/
  withdrawn : List Nat
  /-- Member positions now missing. -/
  missing : List Nat
  waiting : Bool
  dissolving : Bool
  dissolved : Bool
  deriving DecidableEq, Repr

/-- A block taken over by another: row r of a die now lives in another block (R205). -/
structure Replace where
  die : Nat
  block : Nat
  by_ : Nat
  deriving DecidableEq, Repr

/-- Kinds of I/O command (Table 4.4). -/
inductive IoKind where
  | read
  | write
  | flush
  | writeUncor
  | writeZeroes
  | dsm
  | verify
  | copy
  | fixity
  deriving DecidableEq, Repr

/-- Where an admitted command stands. -/
inductive Stage where
  /-- Its map pages are being read (R134). -/
  | pages
  /-- An LC7 command waits for buffers, vat space and frets (R136). -/
  | waiting
  /-- Host data is being read (R17). -/
  | dataIn
  /-- DC checks and compresses (R17). -/
  | forward
  /-- The media are being read. -/
  | media
  /-- Committed; waits for the conditions of R22. -/
  | commit
  deriving DecidableEq, Repr

/-- A command in flight from its fetch to its completion entry. -/
structure IoCmd where
  id : Nat
  port : Port
  sq : Nat
  cid : BitVec 16
  kind : IoKind
  nsid : Nat
  slba : Nat
  nlb : Nat
  cls : Nat
  t0 : Nat
  /-- Deadline in ns of device time; `none` in LC7. -/
  deadline : Option Nat
  /-- Extensions: (cause of Table 5.6, ns). -/
  ext : List (Nat × Nat)
  /-- FUA as asked, or as handled (R110). -/
  fua : Bool
  stream : Nat
  prr : PrInfo
  prw : PrInfo
  /-- Copy: destination. Dataset Management: ranges. -/
  dst : Nat
  ranges : List (Nat × Nat)
  alg : Nat
  stage : Stage
  /-- Data from the host, or read for Copy. -/
  data : List HostLba
  /-- What the lookups saw, by LBA. -/
  views : List (Nat × View)
  /-- LBAs whose media read is still owed. -/
  owed : List Nat
  /-- CSN assigned at commit. -/
  csn : Option Nat
  /-- For a Flush: c (R112). -/
  flushCsn : Nat
  /-- Where its data lies, from the data pointer: (address, length), in order (R64, R119). -/
  addrs : List (Nat × Nat)
  /-- Where its separate metadata lies. -/
  mdAddrs : List (Nat × Nat)
  /-- Reads its data from the host is split into (R76), and how many have still to be issued. -/
  reads : Nat
  toRead : Nat
  /-- The parts that have arrived, by number. -/
  parts : List (Nat × List HostLba)
  /-- LBAs of its data that came from poisoned lines (R297). -/
  bad : List Nat
  /-- The fret at which its booked path ends, contingency and back end included (R124). -/
  planEnd : Nat
  /-- Soft re-reads claimed so far, by LBA (R138). -/
  soft : List (Nat × Nat)
  /-- Mirrored data and commit record acknowledged (R22). -/
  acked : Bool
  /-- Journal sequence that must be durable before completion (R111). -/
  needSeq : Nat
  /-- Buffers held (R283). -/
  bufs : List Nat
  /-- Its lookups, and the check for deferred faults made with them, have taken place (R134). -/
  looked : Bool
  /-- How far the slowest read of its data exceeded 4 µs, in ns (R142). -/
  slow : Nat
  deriving DecidableEq, Repr

/-- A time line of FS (R122). -/
inductive Line where
  | die (d : Nat)
  | chan (c : Nat)
  | link (p : Port) (toHost : Bool)
  deriving DecidableEq, Repr

/-- A booking (R124): frets on a line for a command or for background work. -/
structure Booking where
  line : Line
  start : Nat
  len : Nat
  /-- Bytes of a link booking; codewords of a data-out. -/
  bytes : Nat
  cmd : Option Nat
  cls : Nat
  deadline : Nat
  /-- A contingency round. -/
  cont : Bool
  /-- SLC programs of vat copies, else a read round (R128). -/
  prog : Bool
  deriving DecidableEq, Repr

/-- A read window of a die (R127). -/
structure Window where
  die : Nat
  opens : Nat
  /-- Primary rounds booked, and the fret after the last round. -/
  rounds : Nat
  next : Nat
  /-- Contingency rounds claimed. -/
  claimed : Nat
  deriving DecidableEq, Repr

/-- A class's counters (Table 5.8). -/
structure ClassCnt where
  admitted : Nat
  refused : Nat
  never : Nat
  extended : Nat
  maxRead : Nat
  maxWrite : Nat
  maxFua : Nat
  late : Nat
  deriving DecidableEq, Repr

/-- The counters a class has after a power-on reset (R145). -/
def ClassCnt.zero : ClassCnt := ⟨0, 0, 0, 0, 0, 0, 0, 0⟩

/-- The fret scheduler (chapter 5). -/
structure Fs where
  bookings : List Booking
  windows : List Window
  /-- Dies with a program or erase in progress and the fret its segment ends (R126). -/
  segs : List (Nat × Nat)
  /-- Dies whose suspend has been requested of CS. -/
  suspended : List Nat
  /-- Groups on vat turn with the fret their turn began (R128). -/
  turn : List (Nat × Nat)
  /-- Groups prepared to come on turn. -/
  prepared : List Nat
  /-- Groups whose turn ended and that wait to leave. -/
  leaving : List Nat
  /-- Staged writes of horizon-boundary fields: (fret, field key, value) (R146). -/
  horizon : List (Nat × Nat × Nat)
  classes : List ClassCnt
  /-- (count, total ns) for each cause of Table 5.6. -/
  exts : List (Nat × Nat)
  deriving DecidableEq, Repr

/-- The translation engine (chapter 6). -/
structure Mx where
  /-- Last CSN assigned or applied (R18), 64 bits. -/
  csn : Nat
  /-- Durable reservation ceiling (R163). -/
  ceil : Nat
  /-- Ceiling appended and not yet durable. -/
  ceilPend : Option Nat
  /-- The map by packed grain key; unlisted grains hold `MapEntry.initial`. -/
  map : List (Nat × MapEntry)
  staged : List Staged
  nextStidx : Nat
  /-- Records appended, not yet in a segment. -/
  jpend : List JRec
  /-- The segment being written. -/
  jfly : Option (Nat × List JRec)
  /-- Sequence of the last durable segment (Table 6.17). -/
  jseq : Nat
  /-- Highest CSN in the last durable segment. -/
  jlast : Nat
  /-- Device time the previous flush started (R165). -/
  flushAt : Nat
  /-- Sweep in progress: the root it will write, the records then pending. -/
  sweep : Option Root
  /-- Records since the replay point (R170). -/
  lag : Nat
  /-- Cached map pages of non-resident namespaces, least recently used first: (nsid, page, dirty). -/
  cache : List (Nat × Nat × Bool)
  /-- Device time of the last durable root. -/
  rootAt : Nat
  /-- Something a sweep writes is dirty. -/
  dirty : Bool
  /-- Erase intents replay found without completion: (die, block) (R203). -/
  redo : List (Nat × Nat)
  /-- Commits held at the ceiling: command ids (R163). -/
  ceilWait : List Nat
  /-- Grains waiting for their map line (R294): (nsid, grain). -/
  heldLines : List (Nat × Nat)
  /-- Start-up resolution is finished. -/
  recovered : Bool
  /-- Raw-form granules minus stored granules over the grains placed (DC_SAVED shows them in units of 2^20). -/
  saved : Nat
  deriving DecidableEq, Repr

/-- Media management (chapter 7). -/
structure Mm where
  blocks : List (Nat × Block)
  barrels : List Barrel
  openB : List OpenBarrel
  vat : List VatPair
  vatPages : List VatPage
  replaced : List Replace
  /-- Barrels being racked, with the grains still to swap. -/
  racking : List (Nat × List Placed)
  /-- Barrels whose RACKDONE record is appended, not durable. -/
  rackdone : List Nat
  /-- Blocks whose ERASEINT is appended: (die, block, durable). -/
  eraseInt : List (Nat × Nat × Bool)
  /-- Device times of retirements per die within 24 h (R215): (die, time). -/
  retireAt : List (Nat × Nat)
  /-- Bottling is boosted until the vat is below 75 % (R186). -/
  boost : Bool
  /-- Spare supply exhausted (R392). -/
  exhausted : Bool
  /-- Staging records that write-through is making durable (R393 step 3). -/
  wtLeft : List Nat
  /-- Racking has started below FREELO and not yet reached FREEHI (Table 7.6). -/
  rackOn : Bool
  /-- Vintages whose gather timeout found no free vat page (R189). -/
  gatherWait : List Nat
  deriving DecidableEq, Repr

/-- Die parity (chapter 8). -/
structure Sp where
  groups : List Group
  spares : List Nat
  subst : List Subst
  voids : List VoidEnt
  failedDies : List Nat
  failedChans : List Nat
  /-- Dies that gave no ready once, with a retrain since (R215). -/
  suspects : List Nat
  /-- Sequence of the latest durable snapshot. -/
  snapSeq : Nat
  /-- The snapshot being written. -/
  snapFly : Option Snap
  /-- The snapshot that start-up took at step 9 (R220). -/
  taken : Option Snap
  /-- Orphan handling is done (R221). -/
  stripesDone : Bool
  deriving DecidableEq, Repr

/-- What the media physically hold beside the copies: programmed and erased blocks, barrels, vat slots, and the groups that the journal and
the substitution table describe. Start-up reads it back. -/
structure Phys where
  blocks : List (Nat × Block)
  barrels : List Barrel
  openB : List OpenBarrel
  vat : List VatPair
  replaced : List Replace
  groups : List Group
  spares : List Nat
  failedDies : List Nat
  deriving DecidableEq, Repr

/-- Media never written. -/
def Phys.blank : Phys := ⟨[], [], [], [], [], [], [], []⟩

/-- A vat page that holds what the Y9 keeps there for itself (Table 7.5): kind 0 a journal segment's page, 1 a checkpoint root, 2 a stripe
journal snapshot, with its sequence number. Its two copies lie on the pair's two dies. -/
structure SysPage where
  kind : Nat
  seq : Nat
  group : Nat
  pos : Nat
  slot : Nat
  page : Nat
  deriving DecidableEq, Repr

/-- An anchor record (R167): its sequence number, the sweep number and pages of the root, the SEQ of the first segment in the journal blocks it
names, and those blocks: the current one of each copy, as (group, pair, slot). -/
structure Anchor where
  seq : Nat
  sweep : Nat
  root : List SysPage
  firstSeq : Nat
  block : Option (Nat × Nat × Nat)
  deriving DecidableEq, Repr

/-- The interface mode a die runs (Table 10.1). -/
inductive DieIface where
  | sdr
  | nvddr3
  | ddr
  | extended
  deriving DecidableEq, Repr

/-- What the NAND keeps without power: the durable state of chapters 6 to 8; and the interface modes of its dies. -/
structure Nand where
  /-- Dies that are not in SDR, and the mode each runs: kept over a die Reset in the extended-rate mode (R256), lost with VCCQ_NAND. -/
  iface : List (Nat × DieIface)
  /-- Die slots that hold a good die, in ascending order (R258). -/
  dies : List Nat
  /-- Dies found bad, and slots answering with a wrong identification. -/
  badDies : List Nat
  /-- Factory bad blocks: (die, block). -/
  factoryBad : List (Nat × Nat)
  copies : List Copy
  segs : List Segment
  /-- Valid roots, newest first. -/
  roots : List Root
  /-- Durable snapshots, newest first. -/
  snaps : List Snap
  /-- Blocks, barrels and vat slots as the media hold them at the last reset. -/
  phys : Phys
  /-- The reservation ceiling that is durable in the journal (R163). -/
  ceil : Nat
  /-- Anchor records appended (R167), and the newest. -/
  anchors : Nat
  anchor : Option Anchor
  /-- Vat pages that hold journal segments, roots and snapshots (R165, R184). -/
  sysPages : List SysPage
  /-- A DRAIN-complete record is durable (R47 step 7). -/
  drainDone : Bool
  deriving DecidableEq, Repr

/-- A namespace (R97, R153, R173): its entry of the namespace table and what MX keeps for it. -/
structure Ns where
  nsid : Nat
  nsze : Nat
  ncap : Nat
  /-- LBA format index 0 to 4 (R233). -/
  lbaf : Nat
  extLba : Bool
  /-- DPS: protection information type and position. -/
  dps : Nat
  nmic : Nat
  /-- Grain code: 0 4 KiB, 1 16 KiB, 2 64 KiB. -/
  grainCode : Nat
  xts : Bool
  thin : Bool
  nguid : Nat
  eui : Nat
  /-- CNTLIDs it is attached to. -/
  attached : List Nat
  /-- Seal CSN and permanence (R108). -/
  sealInfo : Option (Nat × Bool)
  /-- OPCSN (R173). -/
  opcsn : Nat
  /-- Received by migration (NSSTATE bit 3). -/
  migrated : Bool
  /-- Not yet cut over at a sink (7h/83h). -/
  ingesting : Bool
  /-- This Y9 is the owner (R324); else the standby role. -/
  owner : Bool
  /-- Ownership is moving (3h/03h). -/
  moving : Bool
  /-- Resident in the map region (R155). -/
  resident : Bool
  /-- Highest CSN committed on it (Table 4.5). -/
  lastCsn : Nat
  /-- Deletion or detach accepted: CNTLIDs affected (R97). -/
  leaving : List Nat
  /-- A Format runs (0h/84h). -/
  formatting : Bool
  /-- XTS key slot in use (R244). -/
  keyGen : Nat
  /-- Crypto erase recorded and not finished (R247). -/
  cekey : Bool
  /-- A migration source has sent CUTOVER for it: detached, and attached again by no command (R339, R340). -/
  cutAway : Bool
  deriving DecidableEq, Repr

/-- What an accepted admin command waits to do (R97, R108, R244, R247, R361). -/
inductive NsWaitOp where
  | create (d : NsDesc)
  | delete
  | detach (ctrls : List Nat)
  /-- SES 1 when `erase`, SES 2 when `crypto`. -/
  | format (lbaf : Nat) (ext : Bool) (dps : Nat) (erase crypto : Bool)
  | sealNs (perm : Bool)
  | sealDevice (perm : Bool)
  deriving DecidableEq, Repr

/-- An accepted admin command that waits: for the admitted commands it must come after, or for the random generator. -/
structure NsWait where
  port : Port
  /-- `none` once its controller was reset: nobody hears of its end. -/
  cid : Option (BitVec 16)
  nsid : Nat
  op : NsWaitOp
  deriving DecidableEq, Repr

end Sys2Proof.Machine
end

