-- ==== Sys2Proof/Machine/StateUnits.lean ====
section
/-! DEFINITION. State of the coding keys, the channel clusters (CS), buffers and memories (BP, ME), the Gareo fabric (GF), twin and
migration (TW), the digest engine (DG), management (MG), the firmware flash (FF) and fault injection (FI): chapters 9 to 16. -/
namespace Sys2Proof.Machine

/-- One tablature bank of a cluster (R268 to R270). -/
structure Bank where
  loaded : Bool
  locked : Bool
  major : Nat
  minor : Nat
  build : Nat
  setId : Nat
  /-- The bank's match registers, at most 32. -/
  matches_ : List MatchEntry
  words : List (BitVec 256)
  deriving DecidableEq, Repr

/-- An empty bank. -/
def Bank.empty : Bank := ⟨false, false, 0, 0, 0, 0, [], []⟩

/-- The operation a sequencer runs on a die (R263). -/
inductive DieOp where
  | read
  | programSlc
  | programQlc
  | erase
  deriving DecidableEq, Repr

/-- The state code of a context record, as Table 10.3 tells the states apart (log entry 117). -/
inductive CtxCode where
  | idle
  /-- Read command issued, data not yet out. -/
  | readIssued
  | dataOut
  /-- Program data-in under way, no confirm. -/
  | dataIn
  /-- Program or erase confirmed, in progress. -/
  | confirmed
  | suspended
  /-- Status read pending. -/
  | statusPending
  deriving DecidableEq, Repr

/-- A context record of a die (R263): the operation, its descriptor base and a state code. -/
structure CtxRec where
  die : Nat
  op : DieOp
  base : Nat
  code : CtxCode
  deriving DecidableEq, Repr

/-- A channel cluster (R261): nine sequencers, eight PHYs, two banks, and context SRAM. -/
structure Cluster where
  bankA : Bank
  bankB : Bank
  /-- Bank each of the sequencers 0 to 8 runs: `true` is B. -/
  onB : List Bool
  /-- Sequencer serving PHY n, 15 for none (CS_CHMAP). -/
  chmap : List Nat
  /-- Sequencers out of service. -/
  faulted : List Nat
  /-- The sequencer that is the cluster's spare (R261, R271). -/
  spare : Option Nat
  /-- Context SRAM, shared by the whole cluster: the records of its dies (R263). -/
  ctx : List CtxRec
  deriving DecidableEq, Repr

/-- A channel's training (R259, R260). -/
structure Channel where
  ok : Bool
  /-- A retrain is in progress: steps left. -/
  retrain : Nat
  deriving DecidableEq, Repr

/-- The channel clusters (chapter 10). -/
structure Cs where
  clusters : List Cluster
  chans : List Channel
  /-- The activation in progress: next cluster and PHY (R271). -/
  act : Option (Nat × Nat)
  deriving DecidableEq, Repr

/-- A buffer that is not in its reset state (R283, R285): free, never allocated. -/
structure Buf where
  /-- The state bit: allocated. -/
  used : Bool
  owner : Option Nat
  /-- Generation, 0x01 to 0xEF once allocated (R290). -/
  gen : Nat
  /-- Some line of it was written poisoned since its allocation (R297). -/
  poison : Bool
  /-- Its row or page is withdrawn for good (R285). -/
  withdrawn : Bool
  deriving DecidableEq, Repr

/-- A buffer as it stands after reset. -/
def Buf.fresh : Buf := ⟨false, none, 0, false, false⟩

/-- An owner's setup (Table 11.2). -/
structure Owner where
  dram : Bool
  min : Nat
  cap : Nat
  /-- BP_OWNFAIL CAP and MIN, saturating. -/
  failsCap : Nat
  failsMin : Nat
  deriving DecidableEq, Repr

/-- A pool's free list (R285 to R287): the buffers pushed by frees, newest first, then every buffer from position `fresh` upward
whose state bit is 0. -/
structure Pool where
  /-- Quarantined after a link line failure; `usable` then holds the indices already verified. -/
  quar : Bool
  usable : List Nat
  head : List Nat
  fresh : Nat
  /-- BP_POOLSTAT.QCOUNT: quarantines since power-on. -/
  qcount : Nat
  deriving DecidableEq, Repr

/-- Buffer pools (chapter 11). -/
structure Bp where
  bufs : List (Nat × Buf)
  owners : List Owner
  pools : List Pool
  deriving DecidableEq, Repr

/-- A merge entry (R291). -/
structure Merge where
  port : Nat
  line : Nat
  mask : Nat
  poison : Bool
  deriving DecidableEq, Repr

/-- Memories (chapter 11). -/
structure Me where
  /-- Installed DRAM in GiB (R414). -/
  dramGiB : Nat
  /-- Trained DRAM channels (bits). -/
  chOk : Nat
  /-- Poisoned lines by line address. -/
  poisoned : List Nat
  merges : List Merge
  /-- Check failures per DRAM page within 24 h: (page, device time) (R296). -/
  pageFail : List (Nat × Nat)
  /-- Check failures per SRAM row within 24 h. -/
  rowFail : List (Nat × Nat)
  /-- Pages remapped (R296). -/
  remap : List Nat
  /-- SRAM rows repaired. -/
  repaired : List Nat
  /-- Device times of entries brought in within 24 h: SRAM, DRAM (R391). -/
  repairAt : List Nat
  remapAt : List Nat
  /-- Bytes of the exported region by offset, those not zero (R317). -/
  exported : List (Nat × Byte)
  /-- Device address of the latest event (ME_LASTLO and ME_LASTHI, 48 bits). -/
  last : Nat
  /-- Merge entries completed by read, check, merge and rewrite (ME_MERGE.MERGES counts them in units of 2^16). -/
  mergeCnt : Nat
  deriving DecidableEq, Repr

/-- One Gareo link (R302 to R305). -/
structure GLink where
  /-- 0 down, 1 training, 2 four lanes, 3 two lanes, 4 disabled (R105). -/
  st : Nat
  peerUid : Nat
  /-- 0xFFFF if never up. -/
  peerNode : Nat
  /-- 0xFF if never up. -/
  peerLink : Nat
  sent : Nat
  crcErr : Nat
  retries : Nat
  reroutes : Nat
  /-- SEQ of the next data flit to send, and highest received in order (12 bits). -/
  txSeq : Nat
  rxSeq : Nat
  /-- Data flits unacknowledged in the replay buffer: SEQ and VC. -/
  replay : List (Nat × Nat)
  /-- Times the oldest has been resent. -/
  resent : Nat
  /-- Send credits of each VC. -/
  credits : List Nat
  /-- Flits of each VC that wait for a credit or for a place in the replay buffer, and of those the ACK and NAK frames' (R305). -/
  waits : List Nat
  ackWaits : List Nat
  /-- Weighted round robin: the VC whose turn it is, and the flits left of it (R306). -/
  turn : Nat
  turnLeft : Nat
  /-- Bytes received of each VC's frame stream and not yet framed. -/
  rxBytes : List (List Byte)
  /-- Lanes trained (4 bits), lane reversal, and retrains since power-on (Table 12.15). -/
  lanes : Nat
  reversed : Bool
  retrains : Nat
  deriving DecidableEq, Repr

/-- A frame kept for resending (R309). -/
structure TxFrame where
  vc : Nat
  dst : Nat
  xseq : Nat
  ftype : Nat
  link : Nat
  resends : Nat
  /-- Requester's tag (Table 12.3). -/
  tag : Nat
  /-- What the requester needs if the frame fails: for a window access, port, aperture offset and requester or host tag. -/
  info : List Nat
  /-- Transmit buffers it holds (owner 5). -/
  bufs : List Nat
  deriving DecidableEq, Repr

/-- A frame held ahead of its turn (R308): its XSEQ, what it carries, and its receive buffers (owner 4). -/
structure HeldFrame where
  xseq : Nat
  cmd : Instr
  bufs : List Nat
  deriving DecidableEq, Repr

/-- A stream at its destination (R308). -/
structure RxStream where
  vc : Nat
  src : Nat
  next : Nat
  /-- Frames held early. -/
  early : List HeldFrame
  /-- Delivered since the last ACK. -/
  unacked : Nat
  deriving DecidableEq, Repr

/-- A stream at its source: next XSEQ. -/
structure TxStream where
  vc : Nat
  dst : Nat
  next : Nat
  /-- A RESYNC must go before the next frame (R309). -/
  resync : Bool
  deriving DecidableEq, Repr

/-- A link-state report the coordinator holds (R312). -/
structure Lsr where
  uid : Nat
  node : Option Nat
  pref : Option Nat
  links : List LinkReport
  deriving DecidableEq, Repr

/-- What the part sends to the outside world. The model's own observation, not state the spec names. -/
inductive Output where
  | cqe (p : Port) (e : Cqe)
  | msix (p : Port) (vector : Nat)
  /-- One TLP of a data write: part `tlp` of an LBA, split at MPS (R76). -/
  | hostData (p : Port) (cid : BitVec 16) (lba tlp : Nat) (d : HostLba) (ep : Bool)
  | hostBytes (p : Port) (cid : BitVec 16) (data : List Nat)
  | hostRead (p : Port) (tag : Nat) (use : ReadUse)
  | eventIdx (p : Port) (idx value : Nat)
  | tlpCpl (p : Port) (tag : Nat) (status : Nat) (data : List Byte) (ep : Bool)
  /-- An error message: 0 correctable, 1 non-fatal, 2 fatal (Table 3.9). -/
  | tlpErr (p : Port) (sev : Nat)
  /-- A remote access, with a write's data and the lines its POISON field marks (Table 12.3). -/
  | remote (dst : Nat) (isRead : Bool) (addr len : Nat) (data : List Byte) (poison : Nat)
  /-- The synchronous bus error of a core (R30). -/
  | busError (addr : Nat)
  | frame (vc dst ftype xseq link : Nat)
  /-- A forwarded frame whose trailer this node replaced by one with an inverted FCRC (R310). -/
  | badTrailer (vc src dst xseq : Nat)
  | ctrl (dst msg : Nat) (fields : List Nat)
  | record (dst kind : Nat) (fields : List Nat)
  | flit (link : Nat) (nak : Bool) (seq : Nat)
  | hello (link : Nat) (fields : List Nat)
  | nak (vc dst xseq cause : Nat)
  | ack (vc dst xseq : Nat)
  /-- 2 TWIN_FENCE_OUT, 3 TWIN_HB_OUT, 4 TSYNC_OUT. -/
  | pin (name : Nat) (level : Bool)
  | mi (status : Nat) (data : List Nat)
  | spdm (transport : Nat) (code : Nat) (data : List Nat)
  | reg (offset value : Nat)
  /-- Set Features (EFh) to a die: feature address, P1 and P2 (R256). -/
  | setFeatures (die addr p1 p2 : Nat)
  deriving DecidableEq, Repr

/-- The Gareo fabric (chapter 12). -/
structure Gf where
  links : List GLink
  /-- Node ID held (R312). -/
  node : Option Nat
  heldOut : Bool
  /-- Candidate coordinator: unique ID and distance. -/
  candUid : Nat
  candDist : Nat
  isCoord : Bool
  coordNode : Nat
  epoch : Nat
  /-- Discovery is running, since this device time. -/
  discovering : Bool
  discAt : Nat
  lsrs : List Lsr
  /-- Routing entries in force by node ID (R313). -/
  routes : List (Nat × Route)
  /-- The set kept aside (R315): its epoch and entries. -/
  aside : List (Nat × Route)
  asideEpoch : Nat
  /-- The EPOCH received: number and time. -/
  epochAt : Option (Nat × Nat)
  txFrames : List TxFrame
  rxStreams : List RxStream
  txStreams : List TxStream
  /-- Next link of a bundle for VC1 and VC2 (R313). -/
  spread : Nat
  /-- Missed coordinator heartbeats (R316). -/
  missed : Nat
  /-- Frames that fault injection holds back behind the next of their stream (R395): VC, destination and the frame. -/
  late : List (Nat × Nat × Output)
  /-- Successive time exchanges within ±20 ns (R318). -/
  goodEx : Nat
  /-- Offset still to slew, ns, signed. -/
  slew : Int
  /-- Windows' remote reads waiting: (tag, port, host tag, bytes asked for, node). -/
  pendRd : List (Nat × Port × Nat × Nat × Nat)
  deriving DecidableEq, Repr

/-- Pair states (Table 13.1). -/
inductive PairState where
  | none
  | seeding
  | paired
  | solo
  | lost
  | fenced
  deriving DecidableEq, Repr

/-- A migration session at this end (R337). -/
structure Mig where
  /-- Table 13.5 phase 0 to 6. -/
  phase : Nat
  /-- 0 none, 1 source, 2 sink. -/
  role : Nat
  peer : Nat
  auto : Bool
  nsids : List Nat
  idDigest : Nat
  /-- Namespaces that the session itself sealed. -/
  sealed : List Nat
  /-- Segments the pass has still to send: (nsid, segment). -/
  todo : List (Nat × Nat)
  /-- Dirty segments: (nsid, segment). -/
  dirty : List (Nat × Nat)
  /-- Segments whose latest send matched. -/
  matched : List (Nat × Nat)
  /-- Segments in flight. -/
  flying : List (Nat × Nat)
  /-- Mismatches per segment. -/
  misses : List (Nat × Nat × Nat)
  sent : Nat
  resent : Nat
  pass : Nat
  /-- CUTOVER has been sent; namespaces cut over so far. -/
  cutSent : Bool
  cutDone : List Nat
  /-- The source's result is not known after a restart (TW_ERR.CUTUNK). -/
  unknown : Bool
  deriving DecidableEq, Repr

/-- Twin (chapter 13). -/
structure Tw where
  st : PairState
  /-- This member is the active. -/
  active : Bool
  peer : Nat
  peerIdDigest : Nat
  /-- Highest CSN acknowledged (active) or applied (standby). -/
  ack : Nat
  /-- Highest CSN carried by any HB received (R331). -/
  hbCsn : Nat
  hbSeq : Nat
  /-- Direct link of path A, chosen at PAIR (TW_PAIR.HBLINK). -/
  hbLink : Nat
  /-- The seeding in progress is a full reseed (TW_SEED.FULL). -/
  seedFull : Bool
  pathALost : Bool
  pathBLost : Bool
  /-- Granules held at the standby without a commit record (R331), with their Gareo receive buffers. -/
  heldGranules : List (GrainRec × List Nat)
  /-- Segments still to seed: (nsid, segment). -/
  seedTodo : List (Nat × Nat)
  /-- Seeds under way: at the active, segments sent and not answered; at the standby, segments stored and not yet compared. -/
  seedFly : List (Nat × Nat)
  /-- Touched bitmaps: packed grain keys (R329). -/
  touched : List Nat
  /-- Unseeded segments with a touched bitmap, and the Gareo receive buffers that hold it. -/
  touchBufs : List ((Nat × Nat) × List Nat)
  /-- Unseeded segments whose bitmap found no buffer: their next seed is dropped. -/
  touchLost : List (Nat × Nat)
  /-- Changed set since the takeover: (nsid, segment); `none` when it is not kept (R335). -/
  changed : Option (List (Nat × Nat))
  /-- Highest applied CSN at the takeover (h). -/
  takeH : Nat
  /-- Commits waiting for the mirror window: command ids (R327). -/
  winWait : List Nat
  /-- A switchover is running (R334); the active has sent SWITCH; the standby waits to have applied this CSN. -/
  switching : Bool
  switchSent : Bool
  switchAt : Option Nat
  /-- Virtual channels whose traffic of the pair or session STOP has halted (R342). -/
  stopped : List Nat
  /-- The Twin Control or pairing command waiting: port, CID. -/
  waitCmd : Option (Port × BitVec 16)
  /-- Snapshots of the peer, newest first, at most 2 (R218). -/
  peerSnaps : List Snap
  /-- Lost grains found in start-up, whose repair is asked of the peer once the pair serves: nsid, grain, CSN (R48). -/
  repairDue : List (Nat × Nat × Nat)
  mig : Mig
  deriving DecidableEq, Repr

/-- A digest context (R344, R345). -/
structure Ctx where
  /-- 0 closed, 1 queued, 2 running, 3 saved, 4 done, 5 failed (Table 14.15). -/
  st : Nat
  params : Option DigestParams
  cause : Nat
  /-- Blocks processed. -/
  done : Nat
  /-- The message bytes fed so far; the digest is computed when the last block arrives. -/
  fed : List Byte
  /-- Order of start, for R352. -/
  started : Nat
  /-- A save is in progress (R353). -/
  saving : Bool
  flagA : Nat
  flagB : Nat
  /-- The released digest (MODE 0). -/
  result : List Byte
  /-- A keyed save is wrapped under the KCTX of this generation. -/
  kctxGen : Nat
  deriving DecidableEq, Repr

/-- A closed context. -/
def Ctx.closed : Ctx := ⟨0, none, 0, 0, [], 0, false, 0xC33CA5A5, 0x3CC35A5A, [], 0⟩

/-- An SPDM request that waits for the generator, with its transport. -/
inductive SpdmHeld where
  | challenge (transport slot nonce : Nat)
  | measurements (transport index nonce : Nat)
  | keyExchange (transport session : Nat) (mutualAuth : Bool)
  deriving DecidableEq, Repr

/-- The digest engine and trust (chapter 14). -/
structure Dg where
  ctxs : List (Nat × Ctx)
  /-- Active and spare lanes (Table 14.13). -/
  active : Nat
  spare : Nat
  /-- Contexts waiting for a lane, in order (R352). -/
  queue : List Nat
  /-- Buffers of the digest owner that hold the open contexts' save slots (R345). -/
  slotBufs : List Nat
  nextStart : Nat
  /-- KCTX draws so far (R353). -/
  kctxGen : Nat
  /-- Generator requests since the last reseed (R361). -/
  rngReqs : Nat
  /-- An audit pass runs: barrels still to digest. -/
  audit : Option (List Nat)
  /-- The barrel at the head differed once and is digested again (R355). -/
  auditAgain : Bool
  /-- Barrel digest table: (barrel, digest) (R355). -/
  barrelDigests : List (Nat × Nat)
  /-- The image that runs, as verification found it (R358, R359). -/
  runImg : Option SlotImage
  /-- Measurements 2 to 5 (R364). -/
  meas : List Nat
  /-- The transport key is held for a pairing or session (R365). -/
  transport : Bool
  /-- SPDM sessions: (transport, session, authenticated) (R363). -/
  sessions : List (Nat × Nat × Bool)
  /-- SPDM requests that wait for the generator (R361), oldest first. -/
  spdmWait : List SpdmHeld
  /-- SPDM connections past NEGOTIATE_ALGORITHMS: transport, step reached. -/
  spdm : List (Nat × Nat)
  deriving DecidableEq, Repr

/-- An event-log entry (Table 15.2). -/
structure LogEntry where
  dtime : Nat
  csn : Nat
  seq : Nat
  code : Nat
  sev : Nat
  src : Nat
  /-- DATA bytes 28 to 59 as the fields of Table 15.2A in order. -/
  data : List Nat
  /-- Count of a coalesced entry. -/
  count : Nat
  deriving DecidableEq, Repr

/-- Sahtex management (chapter 15). -/
structure Mg where
  /-- The management image runs (MG_STAT.RUN). -/
  run : Bool
  /-- Device times of management resets within 10 s (R368). -/
  resets : List Nat
  /-- Entries waiting to be written to flash, oldest first (R375). -/
  pend : List LogEntry
  nextSeq : Nat
  /-- Entries dropped and not yet recorded (R375). -/
  droppedNow : Nat
  /-- Entries not written in DRAIN, for the next start-up (R376). -/
  drainLost : Nat
  /-- The latest sample of the monitors (R369). -/
  sample : SensorSample
  /-- Throttle level per cluster (Table 15.1). -/
  levels : List Nat
  /-- The power limit of Table 15.1 holds. -/
  powerLim : Bool
  /-- The host temperature threshold of Table 15.1 is exceeded. -/
  hotHost : Bool
  /-- Voltage monitors under a supply warning, by number as MG_SENSEL (Table 15.1). -/
  warn : List Nat
  /-- Monitors whose hardware condition has tripped since power-on (Table 15.10). -/
  trip : List Nat
  /-- When the watchdog's period last began, device time (R367). -/
  wdogAt : Nat
  /-- Entries written to flash in the last 60 s: (device time, number) (R375). -/
  wrote : List (Nat × Nat)
  /-- A verification is running: V0 in mV (R370). -/
  verifying : Option Nat
  /-- The capacitance last measured, as the divisor of 10 F: ΔV + 0.1 mV in tenths of a millivolt (R370). -/
  capDen : Nat
  /-- The rolling activation in progress: step 1 to 4 (R385). -/
  activation : Option Nat
  /-- The Firmware Commit that waits for it: port, CID, and whether NVMe-MI carried it. -/
  fwWait : Option (Port × BitVec 16 × Bool)
  /-- The image being activated. -/
  newImg : Option SlotImage
  /-- NVMe-MI configuration: SMBus frequency code, MCTP MTU per transport (R386). -/
  smbusFreq : Nat
  mtu : List Nat
  /-- Policy cores working and spare; LDPC engines; compress, decompress lanes (R391). -/
  cores : Nat
  coreSpare : Nat
  engines : Nat
  engineSpare : Nat
  comp : Nat
  compSpare : Nat
  decomp : Nat
  deriving DecidableEq, Repr

/-- The firmware flash (R377 to R382): words not erased, erase counts, and the structured regions of Table 15.3. -/
structure Ff where
  /-- 64-bit words by byte address; unlisted words read all ones. -/
  words : List (Nat × Nat)
  /-- Sectors of the structured regions that an ERASE command blanked: their words are `words` alone. -/
  blank : List Nat
  /-- Erase counts by sector (24 bits). -/
  erases : List (Nat × Nat)
  /-- Sectors with BEGIN and no END (R381): (sector, count in the BEGIN). -/
  half : List (Nat × Nat)
  /-- The command that runs: OP, address or first sector, data word or COUNT (R377). -/
  busy : Option (Nat × Nat × Nat)
  /-- Valid boot selector: SEQ, BLOCK (R382). -/
  selSeq : Nat
  selBlock : Nat
  /-- Slot contents: empty or image facts. -/
  slot1 : Option SlotImage
  slot2 : Option SlotImage
  /-- Event-log ring entries, oldest first, at most 65,536 (R373). -/
  ring : List LogEntry
  /-- Protected entries with their acknowledged mark, at most 1,024 (R374). -/
  prot : List (LogEntry × Bool)
  /-- Newest time mark, ns (R320). -/
  timeMark : Nat
  /-- SPDM slot 1 chain (R363). -/
  cert1 : List Byte
  /-- An identity key has been generated (R362). -/
  identity : Bool
  /-- Namespaces with wrapped key copies: (nsid, good copies) (R244). -/
  keys : List (Nat × Nat)
  /-- The wrapped XTS keys that those copies hold: (nsid, key under KEK) (R244). -/
  wraps : List (Nat × Nat)
  deriving DecidableEq, Repr

/-- The provisioning record and the sparing record (Table 15.3, R50, R173, R391): kept without power. -/
structure Prov where
  /-- A valid provisioning record exists. -/
  valid : Bool
  /-- Recorded mode (R35). -/
  mode : Mode
  /-- An exhaustion seal is recorded (R38). -/
  exhaustSeal : Bool
  /-- The device-wide seal: its CSN and permanence (R108). -/
  devSeal : Option (Nat × Bool)
  /-- Locked field values, by field key (R50). -/
  locked : List (Nat × Nat)
  /-- Owners whose Locked field BP_OWNMEM.MEM was recorded as SRAM (R50, Table 11.2). -/
  sramOwners : List Nat
  /-- Blocks retired before the commit: no row, vat slot or spare is formed of them (R180). -/
  bad : List (Nat × Nat)
  /-- The namespace table (R173). -/
  ns : List Ns
  groups : List Group
  spares : List Nat
  /-- User capacity U in bytes (R243). -/
  userCap : Nat
  /-- Preferred node ID (R312). -/
  prefNode : Option Nat
  /-- Whether management keeps the token after start-up (Table 2.9). -/
  keepToken : Bool
  /-- Units out of service: (resource code, unit) (R391). -/
  outUnits : List (Nat × Nat)
  /-- Hot spares and other spares at provisioning (R391). -/
  hotAtProv : Nat
  /-- Base of the exported region, in MiB (R317). -/
  expBase : Nat
  /-- Pair this member belongs to: peer, active, fenced (R323, R335). -/
  pair : Option (Nat × Bool)
  /-- Migration outcome kept over a restart: 0 none, 1 CUTOVER sent without CUTACK, 2 identities durable. -/
  migMark : Nat
  deriving DecidableEq, Repr

/-- Security fuses (Table 14.8). -/
structure Fuses where
  uid : Nat
  /-- Owner slots: digest of a programmed key, and revoked. -/
  owners : List (Option Nat × Bool)
  arb : Nat
  romId : Nat
  deriving DecidableEq, Repr

/-- Fault injection (chapter 16). -/
structure Fi where
  armed : Bool
  /-- The first key of the arming sequence was written within the last 1 ms. -/
  keyed : Bool
  /-- Eligible units since EN was set, per mechanism GF, FL, PCIe (R395). -/
  units : List Nat
  deriving DecidableEq, Repr

/-- Device time (R26, R320): the fabric's counter and the always-on counter, in ns. -/
structure Time where
  fabric : Nat
  aon : Nat
  /-- What slews and steps have moved device time by, against the crystal's own count: device time minus that count (R318, R320). -/
  corr : Int
  deriving DecidableEq, Repr

end Sys2Proof.Machine
end

