-- ==== Sys2Proof/Machine/State.lean ====
section
/-! DEFINITION. The state of the Y9 as plain data, the reasons a step could stop, and the state after a power-on reset of a part
as shipped: POR_N low, no provisioning record, every register at its Reset column. -/
namespace Sys2Proof.Machine

/-- The reasons a step could stop with a fault. No meaning of this model raises one: every command of the table has an effect. -/
inductive Fault where
  /-- Raised by nothing; the type needs a name. Safe: no step ever stops here. -/
  | unused
  deriving DecidableEq, Repr

/-- The reasons a step could be refused. -/
inductive Refusal where
  /-- Answered only by an arm of `exec` that has no meaning yet. Safe: nothing is claimed of the command. -/
  | notModelled (mnemonic : String)
  deriving DecidableEq, Repr

/-- The Y9: the state of every block, and the queue of commands that wait. -/
structure State where
  /-- Commands waiting, first in, first out. The model's own field. -/
  pending : List Instr
  /-- Number of free values consumed so far. The model's own field (Config.freeValue). -/
  freeCtr : Nat
  /-- What the part has sent, newest first. The model's own field. -/
  out : List Output
  /-- Register fields that differ from their Reset column, by field key (R7 to R9). -/
  regs : List (Nat × Nat)
  /-- Values in force of Staged fields that differ from the stored ones' reset (R51). -/
  eff : List (Nat × Nat)
  time : Time
  pins : Pins
  gen : Gen
  he : Two HostPort
  ctl : Two Ctl
  sh : Shared
  /-- Deferred-fault records, newest first, at most 256 (R104). -/
  defFaults : List DefFault
  /-- Log C4h entries, oldest first, at most 65,536 (R106); the journal and the event log keep them without power. -/
  lost : List LostExt
  /-- Commands in flight. -/
  cmds : List IoCmd
  nextCmd : Nat
  fs : Fs
  mx : Mx
  /-- The namespaces served (R97). -/
  ns : List Ns
  /-- Accepted admin commands that wait for admitted commands or for the generator (R97, R108, R247, R361), oldest first. -/
  nsWait : List NsWait
  mm : Mm
  sp : Sp
  cs : Cs
  bp : Bp
  me : Me
  gf : Gf
  tw : Tw
  dg : Dg
  mg : Mg
  fi : Fi
  /-- Kept without power. -/
  nand : Nand
  ff : Ff
  prov : Prov
  fuses : Fuses
  deriving DecidableEq, Repr

/-- AER after reset: the severities of Table 3.9; of the correctable errors the advisory one is masked, as PCI Express has it (log entry 31). -/
def Aer.reset : Aer := { ue := 0, ueMask := 0, ueSev := 0x00462030, ce := 0, ceMask := 0x2000 }

/-- A window port after a power-on reset: link down, tables empty. -/
def HostPort.reset : HostPort :=
  { up := false, rate := 0, width := 0, flit := false, recovery := false, l1 := false, l12 := false, d3hot := false,
    command := 0, aspmL1 := false, tag10 := false, mps := 128, mrrs := 512, rcb := 64, aer := .reset, msixEn := false, msixMask := false,
    msixTable := [], pba := [], bars := [0, 0, 0, 0, 0, 0], tags := [], staging := [], active := [], copyBusy := false,
    winGen := 0, unacked := [], heldTlps := [], cmb := [], cmbPoison := [], cmse := false, cba := 0, doeReq := none,
    doeResp := [], doeWait := none, doeBusy := false, stays := [] }

/-- A controller after reset: disabled, no queues, every per-controller feature at its default (R83, R98). -/
def Ctl.reset : Ctl :=
  { en := false, iosqes := 0, iocqes := 0, mps := 0, ams := 0, css := 0, shn := 0, asqs := 0, acqs := 0, asq := 0,
    acq := 0, cfs := false, shst := 0, sqs := [], cqs := [], nqSet := false, nsq := 2048, ncq := 2048, arb := 0,
    icThr := 0, icTime := 0, icOff := [], icPend := [], aec := 0, aborts := [], aers := [], events := [], masked := [], errLog := [],
    errCount := 0, changedNs := [], shadow := none, polling := false, eventIdx := [], pollOut := false, streamsOn := [],
    streams := [], streamRes := [], selfTest := none, selfTests := [], rrPtr := [0, 0, 0, 0, 0], burst := 0, wrr := [0, 0, 0] }

/-- The LC2 values of Table 5.2, the default of LC3 to LC6 (R99). -/
def LatClass.lc2 : LatClass := ⟨10000, 2048, 2000, 2000, 10000⟩

/-- The shared features at their defaults (R98, R110). -/
def Shared.reset : Shared :=
  { ps := .ps0, psOp := .ps0, tOver := 368, tUnder := 0, wce := true,
    lct := [.lc2, .lc2, .lc2, .lc2], sanState := 0, hostReads := 0, hostWrites := 0, dfTotal := 0, lostTotal := 0,
    lostOver := false, fwDown := [], compTempK := 273, wake := none }

/-- The fret scheduler with nothing booked. -/
def Fs.reset : Fs :=
  { bookings := [], windows := [], segs := [], suspended := [], turn := [], prepared := [], leaving := [],
    horizon := [], classes := List.replicate 8 .zero, exts := List.replicate 8 (0, 0) }

/-- The translation engine before start-up. -/
def Mx.reset : Mx :=
  { csn := 0, ceil := 0, ceilPend := none, map := [], staged := [], nextStidx := 0, jpend := [], jfly := none, jseq := 0,
    jlast := 0, flushAt := 0, sweep := none, lag := 0, cache := [], rootAt := 0, dirty := false,
    redo := [], ceilWait := [], heldLines := [], recovered := false, saved := 0 }

/-- Media management before start-up. -/
def Mm.reset : Mm :=
  { blocks := [], barrels := [], openB := [], vat := [], vatPages := [], replaced := [], racking := [], rackdone := [],
    eraseInt := [], retireAt := [], boost := false, exhausted := false, wtLeft := [], rackOn := false, gatherWait := [] }

/-- Die parity before start-up. -/
def Sp.reset : Sp :=
  { groups := [], spares := [], subst := [], voids := [], failedDies := [], failedChans := [], suspects := [],
    snapSeq := 0, snapFly := none, taken := none, stripesDone := false }

/-- A cluster after reset (R261): sequencer n serves PHY n, sequencer 8 is the spare, both banks empty. -/
def Cluster.reset : Cluster :=
  { bankA := .empty, bankB := .empty, onB := List.replicate 9 false, chmap := [0, 1, 2, 3, 4, 5, 6, 7], faulted := [],
    spare := some 8, ctx := [] }

/-- The channel clusters after reset: no channel trained. -/
def Cs.reset : Cs :=
  { clusters := List.replicate 8 .reset, chans := List.replicate 64 ⟨false, 0⟩, act := none }

/-- The owners of Table 11.2. -/
def ownersReset : List Owner :=
  [⟨false, 1024, 4096, 0, 0⟩, ⟨true, 65536, 1048576, 0, 0⟩, ⟨true, 16384, 1048576, 0, 0⟩, ⟨true, 8192, 262144, 0, 0⟩,
   ⟨true, 8192, 524288, 0, 0⟩, ⟨false, 256, 1024, 0, 0⟩, ⟨false, 128, 512, 0, 0⟩, ⟨false, 256, 512, 0, 0⟩, ⟨true, 8192, 262144, 0, 0⟩,
   ⟨false, 512, 1024, 0, 0⟩, ⟨true, 0, 0, 0, 0⟩, ⟨true, 0, 0, 0, 0⟩, ⟨true, 0, 0, 0, 0⟩, ⟨true, 0, 0, 0, 0⟩, ⟨true, 0, 0, 0, 0⟩,
   ⟨true, 0, 0, 0, 0⟩]

/-- Buffer pools after reset: every buffer free. -/
def Bp.reset : Bp := { bufs := [], owners := ownersReset, pools := List.replicate 16 ⟨false, [], [], 0, 0⟩ }

/-- Memories before training. -/
def Me.reset : Me :=
  { dramGiB := 0, chOk := 0, poisoned := [], merges := [], pageFail := [], rowFail := [], remap := [], repaired := [],
    repairAt := [], remapAt := [], exported := [], last := 0, mergeCnt := 0 }

/-- A link that has never been up (R105), with the receive buffers of Table 12.2 as credits. -/
def GLink.reset : GLink :=
  { st := 0, peerUid := 0, peerNode := 0xFFFF, peerLink := 0xFF, sent := 0, crcErr := 0, retries := 0, reroutes := 0,
    txSeq := 0, rxSeq := 0xFFF, replay := [], resent := 0, credits := [32, 448, 448, 96],
    waits := [0, 0, 0, 0], ackWaits := [0, 0, 0, 0], turn := 3, turnLeft := 0,
    rxBytes := [[], [], [], []], lanes := 0,
    reversed := false, retrains := 0 }

/-- The fabric before discovery. -/
def Gf.reset : Gf :=
  { links := List.replicate 12 .reset, node := none, heldOut := false, candUid := 0, candDist := 0, isCoord := false,
    coordNode := 0, epoch := 0, discovering := false, discAt := 0, lsrs := [], routes := [], aside := [], asideEpoch := 0,
    epochAt := none, txFrames := [], rxStreams := [], txStreams := [], spread := 0, missed := 0, late := [],
    goodEx := 0, slew := 0, pendRd := [] }

/-- No migration session. -/
def Mig.none : Mig :=
  { phase := 0, role := 0, peer := 0, auto := false, nsids := [], idDigest := 0, sealed := [], todo := [], dirty := [], matched := [], flying := [],
    misses := [], sent := 0, resent := 0, pass := 0, cutSent := false, cutDone := [], unknown := false }

/-- Unpaired. -/
def Tw.reset : Tw :=
  { st := .none, active := false, peer := 0, peerIdDigest := 0, ack := 0, hbCsn := 0, hbSeq := 0, hbLink := 0, seedFull := false, pathALost := false,
    pathBLost := false, heldGranules := [], seedTodo := [], seedFly := [], touched := [], touchBufs := [], touchLost := [], changed := none, takeH := 0, winWait := [],
    switching := false, switchSent := false, switchAt := none, stopped := [], waitCmd := none, peerSnaps := [], repairDue := [], mig := .none }

/-- The digest engine with no context open. -/
def Dg.reset : Dg :=
  { ctxs := [], active := 32, spare := 2, queue := [], slotBufs := [], nextStart := 0, kctxGen := 0, rngReqs := 0,
    audit := none, auditAgain := false, barrelDigests := [], runImg := none, meas := [0, 0, 0, 0], transport := false, sessions := [], spdmWait := [], spdm := [] }

/-- A monitor sample of all zeros: nothing sampled yet. -/
def sampleZero : SensorSample :=
  { temps := List.replicate 24 0, volts := List.replicate 16 0, amps := List.replicate 4 0, hotMs := 0, coolMs := 0,
    lowUs := 0, highUs := 0, warnMs := 0, powerMw := 0 }

/-- Management before its image runs. -/
def Mg.reset : Mg :=
  { run := false, resets := [], pend := [], nextSeq := 0, droppedNow := 0, drainLost := 0, sample := sampleZero,
    levels := List.replicate 8 0, powerLim := false, hotHost := false, warn := [], trip := [], wdogAt := 0, wrote := [], verifying := none, capDen := 0, activation := none, fwWait := none, newImg := none, smbusFreq := 1,
    mtu := [64, 64], cores := 16, coreSpare := 4, engines := 44, engineSpare := 4, comp := 24,
    compSpare := 2, decomp := 26 }

/-- The firmware flash as the model starts it: erased, no valid selector record (R382 then takes slot 1). -/
def Ff.reset : Ff :=
  { words := [], blank := [], erases := [], half := [], busy := none, selSeq := 0, selBlock := 0, slot1 := none, slot2 := none,
    ring := [], prot := [], timeMark := 0, cert1 := [], identity := false, keys := [], wraps := [] }

/-- No provisioning record. -/
def Prov.reset : Prov :=
  { valid := false, mode := .service, exhaustSeal := false, devSeal := none, locked := [], sramOwners := [], bad := [], ns := [], groups := [],
    spares := [], userCap := 0, prefNode := none, keepToken := true, outUnits := [], hotAtProv := 0, expBase := 0,
    pair := none, migMark := 0 }

/-- NAND with no die identified yet. -/
def Nand.reset : Nand :=
  { iface := [], dies := [], badDies := [], factoryBad := [], copies := [], segs := [], roots := [], snaps := [], phys := .blank, ceil := 0, anchors := 0, anchor := none, sysPages := [],
    drainDone := false }

/-- Mode control in RESET (R33). -/
def Gen.reset : Gen :=
  { mode := .reset, prev := .reset, cause := 0, holder := .mgmt, reqTarget := none, diagPending := false,
    lowFrom := .service, psEntry := none, quarFlush := false, bootVerified := false,
    hostReleased := false, cleanStop := false, verifiedOnce := false, bootRow := 0, otherOk := false }

/-- The pins while POR_N is asserted: HU_GOOD, the fence and the straps at the levels the model starts them at. -/
def Pins.reset : Pins :=
  { porN := false, pwrFailN := false, fenceIn := false, fenceOut := false, hbIn := false, hbOut := false, huGood := true,
    huTest := false, bifur := false }

/-- The machine under power-on reset. -/
def State.reset : State :=
  { pending := [], freeCtr := 0, out := [], regs := [], eff := [], time := ⟨0, 0, 0⟩, pins := .reset, gen := .reset,
    he := ⟨.reset, .reset⟩, ctl := ⟨.reset, .reset⟩, sh := .reset, defFaults := [], lost := [], cmds := [], nextCmd := 0,
    fs := .reset, mx := .reset, ns := [], nsWait := [], mm := .reset, sp := .reset, cs := .reset, bp := .reset, me := .reset,
    gf := .reset, tw := .reset, dg := .reset, mg := .reset, fi := ⟨false, false, [0, 0, 0]⟩, nand := .reset,
    ff := .reset, prov := .reset, fuses := ⟨0, [(none, false), (none, false), (none, false)], 0, 0⟩ }

end Sys2Proof.Machine
end

