-- ==== Sys2Proof/Machine/Flags.lean ====
section
/-! DEFINITION. Register fields, flags and counters: reading a field, writing it, setting an error flag, counting with saturation,
and the error reports of GEN_ERR (R7 to R9, R418). -/
namespace Sys2Proof.Machine

/-- The stored value of a field; its reset value when nothing was stored (R8). -/
def getF (f : Field) (s : State) : Nat := sGet s.regs f.rst f.key

/-- Store a field's value, cut to its width. -/
def setF (f : Field) (v : Nat) (s : State) : State :=
  { s with regs := sPut s.regs f.rst f.key (v % 2 ^ f.width) }

/-- Set a one-bit flag. -/
def flagOn (f : Field) (s : State) : State := setF f 1 s

/-- Clear a one-bit flag. -/
def flagOff (f : Field) (s : State) : State := setF f 0 s

/-- Whether a flag is set. -/
def isOn (f : Field) (s : State) : Bool := getF f s == 1

/-- Set a flag when the condition holds. -/
def flagIf (c : Bool) (f : Field) (s : State) : State := if c then flagOn f s else s

/-- Count up by `n`, saturating at the field's largest value. -/
def bumpBy (f : Field) (n : Nat) (s : State) : State := setF f (Nat.min (getF f s + n) (2 ^ f.width - 1)) s

/-- Count up by one, saturating. -/
def bump (f : Field) (s : State) : State := bumpBy f 1 s

/-- Store a value, saturating at the field's largest value. -/
def setSat (f : Field) (v : Nat) (s : State) : State := setF f (Nat.min v (2 ^ f.width - 1)) s

/-- The value in force of a Staged field (R51). -/
def inForce (f : Field) (s : State) : Nat := sGet s.eff f.rst f.key

/-- The value in force at fret `n` of a field whose commit point is the horizon boundary: the latest write whose own boundary lies
before `n`, else the value in force (R146). -/
def inForceAt (f : Field) (n : Nat) (s : State) : Nat :=
  (s.fs.horizon.foldl (fun (acc : Nat × Nat) w =>
    if w.2.1 == f.key && decide (w.1 < n) && decide (acc.1 ≤ w.1) then (w.1, w.2.2) else acc) (0, inForce f s)).2

/-- The SRC code of GEN_ERRADDR (Table 2.11). -/
def writerSrc (w : Writer) : Nat := match w with
  | .host => 1
  | .mgmt => 2

/-- The holder a writer is. -/
def writerHolder (w : Writer) : Holder := match w with
  | .host => .host
  | .mgmt => .mgmt

/-- A write that sets a GEN_ERR bit also records its BAR0 offset and source (Table 2.11). -/
def genErr (f : Field) (off : Nat) (w : Writer) (s : State) : State :=
  setF Reg.GEN_ERRADDR.SRC (writerSrc w) (setF Reg.GEN_ERRADDR.OFFSET off (flagOn f s))

/-- The writer holds the setup token (R49). -/
def holds (w : Writer) (s : State) : Bool := decide (s.gen.holder = writerHolder w)

/-- A block is enabled in every mode except RESET, BOOT and PROVISION (R50). -/
def blocksEnabled (s : State) : Bool :=
  match s.gen.mode with
  | .reset | .boot | .provision => false
  | _ => true

end Sys2Proof.Machine
end

