-- ==== Sys2Proof/Machine/Ops.lean ====
section
/-! DEFINITION. The operations the meanings share: the clock, outputs, the event log, asynchronous events, completions, and a
change of mode. -/
namespace Sys2Proof.Machine

/-! Comparison flags. -/

/-- The two flags of a comparison (R348, Table 14.4): A compares the digest, B its complement. -/
def flagsOf (same : Bool) : Nat × Nat := if same then (0x5A5AC33C, 0xA5A53CC3) else (0xC33CA5A5, 0x3CC35A5A)

/-- accept() of R349: flag a is read and tested, and only on its match value flag b is read and tested. -/
def acceptFlags (a b : Nat) : Bool :=
  if a ≠ 0x5A5AC33C then false
  else if b ≠ 0xA5A53CC3 then false
  else true

/-- The flags as they are read when a fault has flipped one bit of the pair, A's bits first (R349). -/
def flagsRead (same : Bool) (flip : Option (Fin 64)) : Nat × Nat :=
  match flip with
  | none => flagsOf same
  | some b => if b.val < 32 then ((flagsOf same).1 ^^^ 2 ^ b.val, (flagsOf same).2)
    else ((flagsOf same).1, (flagsOf same).2 ^^^ 2 ^ (b.val - 32))

/-- A comparison accepted through its two flags as they are read. -/
def comparedAs (same : Bool) (flip : Option (Fin 64)) : Bool := acceptFlags (flagsRead same flip).1 (flagsRead same flip).2

/-- A comparison as the boot ROM, the migration logic and the firmware accept it (R349): through its two flags. -/
def compared (same : Bool) : Bool := acceptFlags (flagsOf same).1 (flagsOf same).2

/-! Ports and controllers. -/

/-- The one of two that belongs to a port. -/
def Two.get {α : Type} (t : Two α) (p : Port) : α := match p with
  | .a => t.a
  | .b => t.b

/-- Replace the one of two that belongs to a port. -/
def Two.set {α : Type} (t : Two α) (p : Port) (x : α) : Two α := match p with
  | .a => { t with a := x }
  | .b => { t with b := x }

/-- The host port `p`. -/
def State.port (s : State) (p : Port) : HostPort := s.he.get p

/-- Change host port `p`. -/
def State.updPort (s : State) (p : Port) (f : HostPort → HostPort) : State := { s with he := s.he.set p (f (s.he.get p)) }

/-- The controller of port `p`. -/
def State.con (s : State) (p : Port) : Ctl := s.ctl.get p

/-- Change the controller of port `p`. -/
def State.updCon (s : State) (p : Port) (f : Ctl → Ctl) : State := { s with ctl := s.ctl.set p (f (s.ctl.get p)) }

/-- The port exists: port B only in dual-port mode (Table 3.1). -/
def portExists (p : Port) (s : State) : Bool := match p with
  | .a => true
  | .b => s.pins.bifur

/-- A pair of fields, one for each port. -/
def portF (p : Port) (fa fb : Field) : Field := match p with
  | .a => fa
  | .b => fb

/-- The CNTLID of a port's controller (Table 3.1, R323: the pair member with the higher unique ID reports 3 and 4; its peer's
unique ID is the one its direct link reported). -/
def cntlid (p : Port) (s : State) : Nat :=
  let base := match p with
    | .a => 1
    | .b => 2
  let peerUid := (s.gf.links.find? (fun l => decide (l.peerNode = s.tw.peer))).map (·.peerUid)
  if s.tw.st ≠ .none ∧ peerUid.any (fun u => decide (u < s.fuses.uid)) then base + 2 else base

/-! The clock. -/

/-- Device time in ns (R26). -/
def now (s : State) : Nat := s.time.fabric

/-- The current fret number (R122). -/
def fretNow (s : State) : Nat := s.time.fabric / 4000

/-! Outputs and free values. -/

/-- Send an output. -/
def emit (o : Output) (s : State) : State := { s with out := o :: s.out }

/-- Send several outputs in order. -/
def emits (os : List Output) (s : State) : State := os.foldl (fun t o => emit o t) s

/-! Completions and errors toward the host (R40, R56, R62, R65, R70, R77). -/

/-- PCIe completion status codes. -/
def cplSC : Nat := 0

/-- Unsupported Request. -/
def cplUR : Nat := 1

/-- Completer Abort. -/
def cplCA : Nat := 4

/-- Request Retry Status. -/
def cplRRS : Nat := 2

/-- Set a bit of a word. -/
def setBit (w n : Nat) : Nat := w ||| 2 ^ n

/-- HE detects an error of Table 3.9 that AER holds at a bit: its status is set and, unless masked, its message is sent with the severity AER
gives it. An advisory non-fatal error is reported as correctable. -/
def pcieError (p : Port) (bit : Nat) (advisory : Bool) (s : State) : State :=
  let a := (s.port p).aer
  let fatal := a.ueSev.testBit bit
  let adv := advisory && !fatal
  let s := s.updPort p (fun h => { h with aer := { a with ue := setBit a.ue bit, ce := if adv then setBit a.ce 13 else a.ce } })
  if a.ueMask.testBit bit ∨ (adv ∧ a.ceMask.testBit 13) then s
  else emit (.tlpErr p (if fatal then 2 else if adv then 0 else 1)) s

/-- Poisoned TLP Received. -/
def aerPoison : Nat := 12
/-- Completion Timeout. -/
def aerCto : Nat := 14
/-- Completer Abort. -/
def aerCa : Nat := 15
/-- Unexpected Completion. -/
def aerUnexp : Nat := 16
/-- Malformed TLP. -/
def aerMalformed : Nat := 18
/-- Unsupported Request. -/
def aerUr : Nat := 20
/-- Uncorrectable Internal Error. -/
def aerInternal : Nat := 22

/-- A poisoned TLP arrives: POISRX, and its advisory error (Tables 3.9, 3.10). -/
def poisonRx (p : Port) (s : State) : State :=
  pcieError p aerPoison true (flagOn (portF p Reg.HE_ERRSTAT.A_POISRX Reg.HE_ERRSTAT.B_POISRX) s)

/-- HE issues TLPs: its island is released, and DRAIN stops it (R40, Table 2.4). -/
def heAnswers (s : State) : Bool := s.gen.hostReleased && s.gen.mode != .drain

/-- Complete a request with Unsupported Request. -/
def urCpl (p : Port) (tag : Nat) (s : State) : State := emit (.tlpCpl p tag cplUR [] false) (pcieError p aerUr true s)

/-- Complete a request with Completer Abort. -/
def caCpl (p : Port) (tag : Nat) (s : State) : State := emit (.tlpCpl p tag cplCA [] false) (pcieError p aerCa true s)

/-- The bytes of a read's completions: each ends at a Read Completion Boundary of its address, or with the data (R65). -/
def rcbParts (rcb : Nat) : (fuel addr : Nat) → List Byte → List (List Byte)
  | 0, _, bs => if bs.isEmpty then [] else [bs]
  | f + 1, addr, bs =>
    let n := rcb - addr % rcb
    if bs.isEmpty then [] else bs.take n :: rcbParts rcb f (addr + n) (bs.drop n)

/-- Successful completions of a read of `data` from an address, split at the port's Read Completion Boundary. -/
def readCpl (p : Port) (tag addr : Nat) (data : List Byte) (ep : Bool) (s : State) : State :=
  emits ((rcbParts (s.port p).rcb (data.length / 64 + 1) addr data).map (fun d => .tlpCpl p tag cplSC d ep)) s

/-- The function answers memory requests: released, in D0, with Memory Space Enable set (R56, R79). -/
def memOpen (p : Port) (s : State) : Bool :=
  portExists p s && heAnswers s && !(s.port p).d3hot && (s.port p).command.testBit 1

/-- The function serves its CMB and windows: QUARANTINE has stopped host service (R36, log entry 110). -/
def memServed (p : Port) (s : State) : Bool := memOpen p s && s.gen.mode != .quarantine

/-- Advance device time by `ns` on both counters. With TSOUTEN = 1 a whole second of device time gives a 1 µs pulse on TSYNC_OUT (R320). -/
def advance (ns : Nat) (s : State) : State :=
  let t := s.time.fabric + ns
  let pulse := isOn Reg.GF_CFG.TSOUTEN s && decide (s.time.fabric / 1000000000 < t / 1000000000)
  let s := { s with time := { s.time with fabric := t, aon := t } }
  if pulse then emits [.pin 4 true, .pin 4 false] s else s

/-- A correction of device time by `d` ns against the crystal (R318). -/
def corrected (d : Int) (s : State) : State := { s with time := { s.time with corr := s.time.corr + d } }

/-- Consume a free value. -/
def tickFree (s : State) : State := { s with freeCtr := s.freeCtr + 1 }

/-! The event log (R372 to R375). -/

/-- Put an entry into the pending buffer, coalescing it where its code allows (R375). -/
def logPut (e : LogEntry) (coalesce : Bool) (m : Mg) : Mg × Bool :=
  if coalesce && m.pend.any (fun x => decide (x.code = e.code ∧ x.src = e.src)) then
    let same := fun (x : LogEntry) => decide (x.code = e.code ∧ x.src = e.src)
    ({ m with pend := updFirst m.pend same (fun x => { x with count := x.count + 1 }) }, false)
  else if m.pend.length < 256 then
    ({ m with pend := m.pend ++ [{ e with seq := m.nextSeq }], nextSeq := m.nextSeq + 1 }, false)
  else if e.sev = 3 ∧ m.pend.any (fun x => decide (x.sev ≠ 3)) then
    -- a critical entry takes the place of a non-critical one, which is dropped
    let keep := m.pend.eraseP (fun x => decide (x.sev ≠ 3))
    ({ m with pend := keep ++ [{ e with seq := m.nextSeq }], nextSeq := m.nextSeq + 1,
              droppedNow := m.droppedNow + 1 }, true)
  else ({ m with droppedNow := m.droppedNow + 1 }, true)

/-- Make an event-log entry with device time and CSN (R27, R372). -/
def logEvent (code sev src : Nat) (coalesce : Bool) (data : List Nat) (s : State) : State :=
  let r := logPut ⟨now s, s.mx.csn, 0, code, sev, src, data, 1⟩ coalesce s.mg
  let s := { s with mg := r.1 }
  if r.2 then flagOn Reg.MG_ERR.LOGDROP (bump Reg.MG_LOGSTAT.DROPPED s) else s

/-! Completions. -/

/-- The dword of a port's MSI-X table at index `i`; the vector control mask bits reset to 1 (Table 3.2). -/
def msixDword (h : HostPort) (i : Nat) : Nat := sGet h.msixTable (if i % 4 = 3 then 1 else 0) i

/-- Send an MSI-X message, or set its pending bit while it is masked. -/
def msix (p : Port) (v : Nat) (s : State) : State :=
  let h := s.port p
  if ¬ h.msixEn then s
  else if h.msixMask ∨ msixDword h (4 * v + 3) % 2 = 1 then s.updPort p (fun h => { h with pba := addOnce h.pba v })
  else emit (.msix p v) s

/-- Raise a completion queue's interrupt, coalesced where feature 08h says so (Table 4.6). -/
def cqInterrupt (p : Port) (q : Cq) (s : State) : State :=
  let c := s.con p
  if ¬ q.ien then s
  else if q.qid = 0 ∨ c.icTime = 0 ∨ q.vector ∈ c.icOff then msix p q.vector s
  else
    let n := sGet c.icPend 0 q.vector + 1
    if n > c.icThr then msix p q.vector (s.updCon p (fun c => { c with icPend := sPut c.icPend 0 q.vector 0 }))
    else s.updCon p (fun c => { c with icPend := sPut c.icPend 0 q.vector n })

/-- A completion queue has a free entry (R85): one slot stays empty. -/
def Cq.hasRoom (q : Cq) : Bool := decide ((q.tail + 1) % q.size ≠ q.head)

/-- Write an entry into a queue that has room: the tail moves and the phase turns at the wrap. -/
def Cq.push (q : Cq) : Cq :=
  { q with tail := (q.tail + 1) % q.size, phase := if q.tail + 1 = q.size then !q.phase else q.phase }

/-- Change a class's counters. -/
def updClass (k : Nat) (f : ClassCnt → ClassCnt) (s : State) : State :=
  { s with fs := { s.fs with classes := s.fs.classes.modify k f } }

/-- T1 of an admitted command (R145): the largest T1 − T0 in µs of commands with no extension, by the bound carried; and LATE. -/
def countDone (d : Done) (s : State) : State :=
  let us := (now s - d.t0) / 1000
  let s := if d.ext ≠ [] then s else updClass d.cls (fun k =>
    match d.kind with
    | 0 => { k with maxRead := Nat.max k.maxRead us }
    | 1 => { k with maxWrite := Nat.max k.maxWrite us }
    | _ => { k with maxFua := Nat.max k.maxFua us }) s
  if d.deadline.any (fun l => decide (l < now s)) then updClass d.cls (fun k => { k with late := k.late + 1 }) s else s

/-- Count an admitted command's completion, if it is one. -/
def countDone? (d : Option Done) (s : State) : State := match d with
  | some d => countDone d s
  | none => s

/-- Change a completion queue. -/
def updCq (p : Port) (q : Nat) (f : Cq → Cq) (s : State) : State :=
  s.updCon p (fun c => { c with cqs := updFirst c.cqs (fun x => x.qid == q) f })

/-- Change a submission queue. -/
def updSq (p : Port) (q : Nat) (f : Sq → Sq) (s : State) : State :=
  s.updCon p (fun c => { c with sqs := updFirst c.sqs (fun x => x.qid == q) f })

/-- Post a completion entry, or hold it while the queue is full (R22, R85). -/
def postDone (p : Port) (sq : Nat) (cid : BitVec 16) (sct sc dw0 dw1 : Nat) (d : Option Done) (s : State) : State :=
  match (s.con p).sqs.find? (fun q => q.qid == sq) with
  | none => s
  | some q =>
    match (s.con p).cqs.find? (fun c => c.qid == q.cq) with
    | none => s
    | some cq =>
      let e : Cqe := ⟨cq.qid, sq, q.head, cid, sct, sc, dw0, dw1, cq.phase⟩
      if cq.hasRoom ∧ cq.held = [] then
        cqInterrupt p cq (emit (.cqe p e) (countDone? d (updCq p cq.qid Cq.push s)))
      else
        -- log C2h counts the event (cause 1)
        let s := { s with fs := { s.fs with exts := s.fs.exts.modify 1 (fun e => (e.1 + 1, e.2)) } }
        bump Reg.QE_CQFULL.COUNT (updCq p cq.qid (fun x => { x with held := x.held ++ [⟨now s, e, d⟩] }) s)

/-- Post the completion of a command without class counters. -/
def postCqe (p : Port) (sq : Nat) (cid : BitVec 16) (sct sc dw0 dw1 : Nat) (s : State) : State :=
  postDone p sq cid sct sc dw0 dw1 none s

/-- A held completion goes out (R85): the held time, which log C2h adds up, extends its command for cause 1; the entry takes the queue's
present phase. -/
def releaseOne (p : Port) (q : Cq) (h : HeldCqe) (s : State) : State :=
  let ns := now s - h.at_
  let s := setSat Reg.QE_CQFULL.LAST (ns / 1000) s
  let s := { s with fs := { s.fs with exts := s.fs.exts.modify 1 (fun e => (e.1, e.2 + ns)) } }
  let s := match h.done with
    | none => s
    | some d =>
      if d.deadline.isNone then countDone d s
      else
        let s := if d.ext.isEmpty then updClass d.cls (fun k => { k with extended := k.extended + 1 }) s else s
        countDone { d with deadline := d.deadline.map (· + ns), ext := d.ext ++ [(1, ns)] } s
  cqInterrupt p q (emit (.cqe p { h.e with phase := q.phase }) (updCq p q.qid Cq.push s))

/-- Held completions go out while the queue has room. -/
def releaseHeldCqes (p : Port) (qid : Nat) : Nat → State → State
  | 0, s => s
  | n + 1, s => match (s.con p).cqs.find? (fun c => c.qid == qid) with
    | none => s
    | some q => match q.held with
      | [] => s
      | h :: t => if q.hasRoom then releaseHeldCqes p qid n (releaseOne p q h (updCq p qid (fun x => { x with held := t }) s)) else s

/-! Asynchronous events (R120). -/

/-- Whether an event of this type is masked: vendor events by information value, the others by type. -/
def eventMasked (c : Ctl) (e : AsyncEvent) : Bool :=
  c.masked.any (fun m => decide (m.typ = e.typ) && (e.typ != 7 || decide (m.info = e.info)))

/-- DW0 of an Asynchronous Event Request completion. -/
def AsyncEvent.dw0 (e : AsyncEvent) : Nat := e.typ + 256 * e.info + 65536 * e.lid

/-- Post an event on a controller: on an outstanding request, or on the next one (R120). -/
def postEvent (p : Port) (e : AsyncEvent) (s : State) : State :=
  let c := s.con p
  if ¬ c.en ∨ eventMasked c e then s
  else match c.aers with
    | cid :: rest =>
      postCqe p 0 cid 0 0 e.dw0 0 (s.updCon p (fun c => { c with aers := rest, masked := c.masked ++ [e] }))
    | [] => s.updCon p (fun c => { c with events := c.events ++ [e], masked := c.masked ++ [e] })

/-- Post a vendor event on both controllers (Table 4.14, Table 16.3). -/
def vendorEvent (info lid : Nat) (s : State) : State := postEvent .b ⟨7, info, lid⟩ (postEvent .a ⟨7, info, lid⟩ s)

/-- Mode Changed. -/
def evModeChanged (s : State) : State := vendorEvent 0x00 0x02 s
/-- Deferred Write Fault. -/
def evDeferred (s : State) : State := vendorEvent 0x01 0xC1 s
/-- Lost Data. -/
def evLost (s : State) : State := vendorEvent 0x02 0xC4 s
/-- Latency Contract Changed. -/
def evLatency (s : State) : State := vendorEvent 0x03 0xC2 s
/-- Fabric Status Changed. -/
def evFabric (s : State) : State := vendorEvent 0x04 0xC3 s

/-- A standard notice (type 2) that the Asynchronous Event Configuration bit enables, on both controllers. -/
def notice (bit info lid : Nat) (s : State) : State :=
  let one := fun (p : Port) (t : State) =>
    if (t.con p).aec.testBit bit then postEvent p ⟨2, info, lid⟩ t else t
  one .b (one .a s)

/-- Namespace Attribute notice: the namespace joins the Changed Namespace List of both controllers (Table 4.8). -/
def evNsChanged (nsid : Nat) (s : State) : State :=
  notice 8 0x00 0x04 { s with ctl := ⟨{ s.ctl.a with changedNs := addOnce s.ctl.a.changedNs nsid },
                                     { s.ctl.b with changedNs := addOnce s.ctl.b.changedNs nsid }⟩ }

/-- ANA Change notice. -/
def evAna (s : State) : State := notice 11 0x03 0x0C s

/-! Modes (R33 to R35). -/

/-- The four modes the provisioning record holds (R35). -/
def modeRecorded (m : Mode) : Bool := match m with
  | .service | .standby | .ingest | .sealed => true
  | _ => false

/-- Code of a mode (Table 2.1). -/
def modeCode (m : Mode) : Nat := match m with
  | .reset => 0
  | .boot => 1
  | .recovery => 2
  | .provision => 3
  | .service => 4
  | .lowpower => 5
  | .standby => 6
  | .ingest => 7
  | .drain => 8
  | .sealed => 9
  | .diagnostic => 10
  | .quarantine => 11

/-- Modes that leave a clean stop standing (R39): every other one starts work after which the last stop is no longer clean. -/
def keepsClean (m : Mode) : Bool := match m with
  | .reset | .boot | .lowpower => true
  | _ => false

/-- The mode changes by a row of Table 2.2 (R34); SERVICE, STANDBY, INGEST and SEALED are recorded (R35). -/
def setMode (row : Nat) (m : Mode) (s : State) : State :=
  { s with
    gen := { s.gen with mode := m, prev := s.gen.mode, cause := row, cleanStop := s.gen.cleanStop && keepsClean m },
    prov := if modeRecorded m = true ∧ s.prov.valid then { s.prov with mode := m } else s.prov }

/-- Whether FI may be armed in a mode (R394). -/
def fiMode (m : Mode) : Bool := match m with
  | .service | .diagnostic => true
  | _ => false

/-- FI disarms (R394): every EN bit clears; DCAUSE and an event-log entry record the cause. -/
def fiDisarmed (cause : Nat) (s : State) : State :=
  if ¬ s.fi.armed then s
  else
    let s := { s with fi := { s.fi with armed := false, keyed := false } }
    let s := setF Reg.FI_ARM.DCAUSE cause (flagOff Reg.FI_ARM.ARMED s)
    let s := flagOff Reg.FI_PCIE.EN (flagOff Reg.FI_FL.EN (flagOff Reg.FI_GF.EN s))
    logEvent 0xF002 1 15 false [cause] s

/-- FI arms (R394): event 14h and an event-log entry. -/
def fiArmed (diag : Bool) (s : State) : State :=
  let s := { s with fi := { s.fi with armed := true, keyed := false } }
  let s := flagOn Reg.FI_ARM.ARMED s
  vendorEvent 0x14 0x02 (logEvent 0xF001 1 15 false [if diag then 1 else 0] s)

/-- A real fault brought in a spare or made a member missing: FI disarms (R394). -/
def fiRealFault (s : State) : State :=
  if s.fi.armed then flagOn Reg.FI_ERR.REALFAULT (fiDisarmed 4 s) else s

/-- A register's value from its fields. -/
def fieldsWord (fs : List Field) (s : State) : Nat := (fs.map (fun f => getF f s * 2 ^ f.lo)).foldl (· + ·) 0

/-- `n` eligible units of an injection mechanism (0 Gareo, 1 flash) pass; every 2^RATE-th is injected (R395). -/
def fiHits (i rate n : Nat) (s : State) : Nat × State :=
  let c := (s.fi.units[i]?).getD 0
  ((c + n) / 2 ^ rate - c / 2 ^ rate, { s with fi := { s.fi with units := s.fi.units.set i (c + n) } })

/-- Injections are counted, and logged with the target register's value (R396). -/
def fiInjected (n code data : Nat) (s : State) : State :=
  (List.range n).foldl (fun t _ => logEvent code 0 15 true [data] t) (bumpBy Reg.FI_CNT.INJECTED n s)

/-- A transition of Table 2.2: the mode, its record, and what FI does on it (R34, R394). -/
def enterMode (row : Nat) (m : Mode) (s : State) : State :=
  let s := setMode row m s
  if m = .diagnostic then fiArmed true (fiDisarmed 2 s)
  else if fiMode m then
    -- DIAGNOSTIC to SERVICE leaves DIAGNOSTIC: the arming of that mode ends
    if s.gen.prev = .diagnostic then fiDisarmed 2 s else s
  else fiDisarmed (if row = 14 ∨ row = 23 then 3 else 2) s

/-! Which modes serve what (Table 2.1, R40). -/

/-- Modes in which CSTS.RDY may be 1 (R40). -/
def rdyMode (m : Mode) : Bool := match m with
  | .recovery | .provision | .service | .standby | .ingest | .sealed | .diagnostic | .lowpower => true
  | _ => false

/-- CSTS.RDY of a controller (R40, R82). -/
def rdy (p : Port) (s : State) : Bool :=
  portExists p s && (s.con p).en && !(s.con p).cfs && rdyMode s.gen.mode

/-- Modes that run background work of every kind (Table 2.1). -/
def backgroundMode (m : Mode) : Bool := match m with
  | .service | .sealed | .diagnostic => true
  | _ => false

/-- Modes that bottle (Table 2.1). -/
def bottleMode (m : Mode) : Bool := match m with
  | .service | .diagnostic => true
  | _ => false

/-- Modes that run refresh (Table 2.1). -/
def refreshMode (m : Mode) : Bool := match m with
  | .service | .standby | .sealed | .diagnostic => true
  | _ => false

/-- Modes that run racking (R192). -/
def rackMode (m : Mode) : Bool := match m with
  | .service | .standby | .ingest | .sealed | .diagnostic => true
  | _ => false

/-- Modes in which MX serves: commits, journal and sweeps run (Table 2.1). -/
def mediaMode (m : Mode) : Bool := match m with
  | .service | .standby | .ingest | .sealed | .diagnostic | .lowpower => true
  | _ => false

/-- Modes in which the fabric serves: every mode past start-up but DRAIN and QUARANTINE, and BOOT for discovery (R312). -/
def fabricMode (m : Mode) : Bool := match m with
  | .reset | .drain | .quarantine => false
  | _ => true

/-- What the fabric brings takes effect where the fabric serves: entering QUARANTINE stops it, and DRAIN serves none (R36, R37). -/
def onFabric (f : State → State) (s : State) : State := if fabricMode s.gen.mode then f s else s

/-- NVMe-MI is served from step 3 of start-up until DRAIN, QUARANTINE included, while the management image runs (R386). -/
def miMode (s : State) : Bool := match s.gen.mode with
  | .reset | .drain => false
  | .boot => s.gen.bootVerified && s.mg.run
  | _ => s.mg.run

/-- Write-through is in force (R42, R393). -/
def writeThrough (s : State) : Bool := isOn Reg.GEN_HOLDUP.WTHRU s

end Sys2Proof.Machine
end

