-- ==== Sys2Proof/Machine/Bufs.lean ====
section
/-! DEFINITION. The buffer pools: counts, allocation and free (R279 to R287). -/
namespace Sys2Proof.Machine

/-- Buffers in SRAM (R278). -/
def sramBufs : Nat := 6144

/-- Buffers of the DRAM pool: the smaller of what is left above the map and system areas and 32 GiB, down to 32 KiB (R279). -/
def dramBufs (s : State) : Nat :=
  let left := s.me.dramGiB - getF Reg.MX_CFG.REGION s - getF Reg.MX_CFG.PGCACHE s - 4
  (Nat.min left 32) * 262144 / 8 * 8

/-- The pool of buffer `i` (R280). -/
def poolOf (i : Nat) : Nat := if i < sramBufs then i / 768 else 8 + (i - sramBufs) % 8

/-- Number of buffers in pool `p`. -/
def poolSize (p : Nat) (s : State) : Nat := if p < 8 then 768 else dramBufs s / 8

/-- Buffer number `k` of pool `p`. -/
def poolBuf (p k : Nat) : Nat := if p < 8 then p * 768 + k else sramBufs + (p - 8) + 8 * k

/-- A buffer's state. -/
def getBuf (i : Nat) (s : State) : Buf := sGet s.bp.bufs .fresh i

/-- Change a buffer's state. -/
def updBuf (i : Nat) (f : Buf → Buf) (s : State) : State :=
  { s with bp := { s.bp with bufs := sUpd s.bp.bufs .fresh i f } }

/-- A pool's list state. -/
def getPool (p : Nat) (s : State) : Pool := (s.bp.pools[p]?).getD ⟨false, [], [], 0, 0⟩

/-- Change a pool's list state. -/
def updPool (p : Nat) (f : Pool → Pool) (s : State) : State :=
  { s with bp := { s.bp with pools := s.bp.pools.modify p f } }

/-- An owner's setup. -/
def getOwner (o : Nat) (s : State) : Owner := (s.bp.owners[o]?).getD ⟨true, 0, 0, 0, 0⟩

/-- Change an owner's setup. -/
def updOwner (o : Nat) (f : Owner → Owner) (s : State) : State :=
  { s with bp := { s.bp with owners := s.bp.owners.modify o f } }

/-- Buffers of the exported region, held for good by owner 10 (R317): 256 for each MiB. -/
def expBufs (s : State) : Nat :=
  let n := getF Reg.GF_EXPCTL.SIZE s
  if n = 0 ∨ n > 16 then 0 else 2 ^ (n - 1) * 256

/-- Buffers of the region in each DRAM pool, and the first position they take there. -/
def expHole (s : State) : Nat × Nat :=
  let poolMiB := 4096 + 1024 * (getF Reg.MX_CFG.REGION s + getF Reg.MX_CFG.PGCACHE s + 4)
  (expBufs s / 8, (s.prov.expBase - poolMiB) * 256 / 8)

/-- used[o] (R283). -/
def ownerUse (o : Nat) (s : State) : Nat :=
  (s.bp.bufs.filter (fun b => decide (b.2.owner = some o))).length + (if o = 10 then expBufs s else 0)

/-- Free buffers of a pool: those with state bit 0; while it is quarantined, the verified ones only (R287). -/
def poolFree (p : Nat) (s : State) : Nat :=
  let P := getPool p s
  if P.quar then P.usable.length
  else poolSize p s - (s.bp.bufs.filter (fun b => b.2.used && poolOf b.1 == p)).length
    - (if p < 8 then 0 else (expHole s).1)

/-- free[m] (R283): over the pools of SRAM or of DRAM. -/
def memFree (dram : Bool) (s : State) : Nat :=
  sumOf ((if dram then [8, 9, 10, 11, 12, 13, 14, 15] else [0, 1, 2, 3, 4, 5, 6, 7]).map (fun p => poolFree p s))

/-- The reserve that an allocation by `o` must leave: what the other owners of its memory have not taken of their minima. -/
def reserveFor (o : Nat) (s : State) : Nat :=
  let m := (getOwner o s).dram
  sumOf ((List.range 16).map (fun q =>
    let Q := getOwner q s
    if q ≠ o ∧ Q.dram = m then Q.min - ownerUse q s else 0))

/-- Why an allocation fails (R283, R284). -/
inductive AllocFail where
  | cap
  | minimum
  | vc0Reserve
  deriving DecidableEq, Repr

/-- The conditions of R283 and, for Gareo receive outside VC0, of R284. -/
def allocCheck (o n : Nat) (vc0 : Bool) (s : State) : Option AllocFail :=
  let O := getOwner o s
  if ownerUse o s + n > O.cap then some .cap
  else if o = 4 ∧ ¬ vc0 ∧ O.cap < ownerUse o s + n + 64 then some .vc0Reserve
  else if memFree O.dram s < n + reserveFor o s then some .minimum
  else none

/-- The first free position of a pool at or above `k`. -/
def scanFree (p : Nat) (s : State) : (fuel k : Nat) → Option Nat
  | 0, _ => none
  | f + 1, k =>
    let h := expHole s
    if k ≥ poolSize p s then none
    else if 8 ≤ p ∧ h.2 ≤ k ∧ k < h.2 + h.1 then scanFree p s f (h.2 + h.1)
    else if (getBuf (poolBuf p k) s).used then scanFree p s f (k + 1)
    else some k

/-- Take the next buffer from a pool's list. -/
def popPool (p : Nat) (s : State) : Option (Nat × State) :=
  let P := getPool p s
  if P.quar then match P.usable with
    | i :: t => some (i, updPool p (fun P => { P with usable := t }) s)
    | [] => none
  else match P.head.dropWhile (fun i => (getBuf i s).used) with
    | i :: t => some (i, updPool p (fun P => { P with head := t }) s)
    | [] => match scanFree p s (s.bp.bufs.length + 1) P.fresh with
      | some k => some (poolBuf p k, updPool p (fun P => { P with fresh := k + 1 }) s)
      | none => none

/-- The pool of a memory with the most free buffers, the lowest numbered among equals (R280). -/
def richestPool (dram : Bool) (s : State) : Nat :=
  (if dram then [9, 10, 11, 12, 13, 14, 15] else [1, 2, 3, 4, 5, 6, 7]).foldl
    (fun best p => if poolFree p s > poolFree best s then p else best) (if dram then 8 else 0)

/-- The next generation: 0x01 to 0xEF, wrapping (R290). -/
def nextGen (g : Nat) : Nat := if g ≥ 0xEF then 1 else g + 1

/-- Deliver one buffer to an owner (R283). -/
def takeBuf (o : Nat) (s : State) : Option (Nat × State) :=
  match popPool (richestPool (getOwner o s).dram s) s with
  | none => none
  | some (i, s) => some (i, updBuf i (fun b => { b with used := true, owner := some o, gen := nextGen b.gen, poison := false }) s)

/-- Deliver `n` buffers: the indices in order, and whether all could be delivered (R287). -/
def takeBufs (o : Nat) : Nat → State → List Nat × Bool × State
  | 0, s => ([], true, s)
  | n + 1, s => match takeBuf o s with
    | none => ([], false, s)
    | some (i, s1) => match takeBufs o n s1 with
      | (is, ok, s2) => (i :: is, ok, s2)

/-- Put a buffer back on its pool's list, without the checks of a requester's free (R285). -/
def putBuf (i : Nat) (s : State) : State :=
  if (getBuf i s).withdrawn then updBuf i (fun b => { b with owner := none, poison := false }) s
  else
    let s := updBuf i (fun b => { b with used := false, owner := none, poison := false }) s
    -- a pool under rebuild takes the buffer from the state bitmap
    if (getPool (poolOf i) s).quar then s else updPool (poolOf i) (fun P => { P with head := i :: P.head }) s

/-- Return buffers that their owner held. -/
def putBufs (is : List Nat) (s : State) : State := is.foldl (fun t i => putBuf i t) s

/-- A failed allocation counts in BP_OWNFAIL (R283): at the cap, Gareo receive's own reserve below its cap included, or for another owner's
minimum. -/
def allocFailed (o : Nat) (why : AllocFail) (s : State) : State :=
  updOwner o (fun O => match why with
    | .minimum => { O with failsMin := Nat.min (O.failsMin + 1) 65535 }
    | _ => { O with failsCap := Nat.min (O.failsCap + 1) 65535 }) s

/-- BP_ERRBUF: the latest error's buffer, named owner and cause. -/
def bpErr (index owner cause : Nat) (s : State) : State :=
  setF Reg.BP_ERRBUF.CAUSE cause (setF Reg.BP_ERRBUF.OWNER owner (setF Reg.BP_ERRBUF.INDEX index s))

/-- allocate(o, n) of R283: all or nothing. A grant that no pool can deliver is revoked (R287). -/
def bpAlloc (o n : Nat) (vc0 : Bool) (s : State) : Option (List Nat) × State :=
  match allocCheck o n vc0 s with
  | some why => (none, allocFailed o why s)
  | none =>
    match takeBufs o n s with
    | (is, true, t) => (some is, t)
    | (is, false, t) => (none, flagOn Reg.BP_ERR.REVOKE (bpErr (is.getLast?.getD 0) o 3 (putBufs is t)))

end Sys2Proof.Machine
end

