-- ==== Sys2Proof/Machine/Media.lean ====
section
/-! DEFINITION. The media: geometry of groups, rows and vat slots, the block state table, retirement, the map, the journal and the
placing of grains (chapters 6 to 8). -/
namespace Sys2Proof.Machine

/-! The reference die profile (Table 7.1). -/

/-- Multi-plane blocks per die. -/
def blocksPerDie : Nat := 5461
/-- QLC pages per block per plane. -/
def qlcPages : Nat := 1536
/-- SLC pages per block per plane. -/
def slcPages : Nat := 384
/-- Granules of a QLC stripe unit (R152). -/
def qlcUnit : Nat := 120
/-- Granules of an SLC page (R152). -/
def slcUnit : Nat := 128

/-- Channel of a die slot (Table 6.1). -/
def dieChan (d : Nat) : Nat := d / 32

/-! Clusters and their context records (R263). -/

/-- A cluster. -/
def getCluster (k : Nat) (s : State) : Cluster := (s.cs.clusters[k]?).getD .reset

/-- Change a cluster. -/
def updCluster (k : Nat) (f : Cluster → Cluster) (s : State) : State :=
  { s with cs := { s.cs with clusters := s.cs.clusters.modify k f } }

/-- The cluster whose sequencers operate a die (R261). -/
def dieCluster (d : Nat) : Nat := dieChan d / 8

/-- The context record of a die. -/
def ctxOf (d : Nat) (s : State) : Option CtxRec := (getCluster (dieCluster d) s).ctx.find? (fun r => r.die == d)

/-- A sequencer writes the context record of an operation on a block and page of a die (R263). -/
def ctxPut (d : Nat) (op : DieOp) (b page : Nat) (code : CtxCode) (s : State) : State :=
  updCluster (dieCluster d) (fun c => { c with ctx := c.ctx.filter (fun r => r.die != d) ++ [⟨d, op, Config.descBase d b page, code⟩] }) s

/-- The record of a die moves to another state code. -/
def ctxCode (d : Nat) (code : CtxCode) (s : State) : State :=
  updCluster (dieCluster d) (fun c => { c with ctx := c.ctx.map (fun r => if r.die = d then { r with code := code } else r) }) s
/-- Position of a die slot on its channel. -/
def diePos (d : Nat) : Nat := d % 32

/-! Namespaces. -/

/-- The namespace with an NSID. -/
def findNs (n : Nat) (s : State) : Option Ns := s.ns.find? (fun x => x.nsid == n)

/-- Change a namespace. -/
def updNs (n : Nat) (f : Ns → Ns) (s : State) : State := { s with ns := updFirst s.ns (fun x => x.nsid == n) f }

/-- Bytes of an LBA of a format (Table 9.2). -/
def lbaBytes (lbaf : Nat) : Nat := if lbaf ≥ 3 then 16384 else 4096

/-- Metadata bytes of a format (Table 9.2). -/
def mdBytes (lbaf : Nat) : Nat := match lbaf with
  | 1 => 8
  | 2 => 16
  | 4 => 16
  | _ => 0

/-- Bytes of a grain (Table 4.5). -/
def grainBytes (code : Nat) : Nat := match code with
  | 0 => 4096
  | 1 => 16384
  | _ => 65536

/-- LBAs of a grain, k (R148). -/
def Ns.k (n : Ns) : Nat := Nat.max 1 (grainBytes n.grainCode / lbaBytes n.lbaf)

/-- Grains of a namespace (R148). -/
def Ns.grains (n : Ns) : Nat := ceilDiv n.nsze n.k

/-- Map pages of a namespace (R154). -/
def Ns.mapPages (n : Ns) : Nat := ceilDiv n.grains 512

/-! The map (R151 to R153). -/

/-- The key of a grain: grain indices are below 2^40 (R148). -/
def gkey (nsid grain : Nat) : Nat := nsid * 2 ^ 40 + grain

/-- The map entry of a grain. -/
def getEntry (nsid grain : Nat) (s : State) : MapEntry := sGet s.mx.map .initial (gkey nsid grain)

/-- Write a map entry; its page becomes dirty. -/
def putEntry (nsid grain : Nat) (e : MapEntry) (s : State) : State :=
  { s with mx := { s.mx with
      map := sPut s.mx.map .initial (gkey nsid grain) e, dirty := true,
      cache := s.mx.cache.map (fun x => if x.1 = nsid ∧ x.2.1 = grain / 512 then (x.1, x.2.1, true) else x) } }

/-- The entry of a deallocated grain (R160). -/
def MapEntry.deallocated : MapEntry := .initial

/-- The entry of a lost grain (R159): LOST set, location and GLEN 0. DESIGN CHOICE: of VHINT and RGEN the spec says nothing; the model sets
VHINT 0 and keeps RGEN (log entry 112). -/
def MapEntry.asLost (e : MapEntry) : MapEntry :=
  { MapEntry.initial with lost := true, dealloc := false, rgen := e.rgen }

/-- Two entries name the same location: bits [42:0] (R162). -/
def sameLoc (a b : MapEntry) : Bool :=
  decide (a.die = b.die ∧ a.block = b.block ∧ a.plane = b.plane ∧ a.page = b.page ∧ a.goff = b.goff)

/-- The entry holds a location: stored, neither staged nor lost nor deallocated (Table 6.2). -/
def MapEntry.stored (e : MapEntry) : Bool := !e.staged && !e.lost && !e.dealloc

/-! The journal (R164, R165). -/

/-- Append a record. -/
def jAppend (r : JRec) (s : State) : State :=
  { s with mx := { s.mx with jpend := s.mx.jpend ++ [r], lag := s.mx.lag + 1 } }

/-- Append several records in order. -/
def jAppends (rs : List JRec) (s : State) : State :=
  { s with mx := { s.mx with jpend := s.mx.jpend ++ rs, lag := s.mx.lag + rs.length } }

/-- COMMIT (Table 6.4). -/
def jCommit (nsid grain csn aux flags : Nat) (e : MapEntry) : JRec := ⟨0x01, flags, nsid, aux, grain, csn, some e, 0⟩
/-- PLACE. -/
def jPlace (nsid grain csn : Nat) (e : MapEntry) : JRec := ⟨0x02, 0, nsid, 0, grain, csn, some e, 0⟩
/-- DEALLOC. -/
def jDealloc (nsid first count csn : Nat) : JRec := ⟨0x03, 0, nsid, count, first, csn, none, 0⟩
/-- LOST. -/
def jLost (nsid first count csn cause : Nat) : JRec := ⟨0x04, 0, nsid, count, first, csn, none, cause⟩
/-- The 64-bit word of a map entry (Table 6.1): bits [37:0] hold STIDX while it is staged. -/
def MapEntry.word (e : MapEntry) : Nat :=
  (if e.staged then e.stidx else e.die + 2 ^ 11 * e.block + 2 ^ 25 * e.plane + 2 ^ 27 * e.page) + 2 ^ 38 * e.goff + 2 ^ 43 * e.glen +
  (if e.lost then 2 ^ 51 else 0) + (if e.dealloc then 2 ^ 52 else 0) + 2 ^ 53 * e.rgen + 2 ^ 55 * e.vhint + (if e.staged then 2 ^ 58 else 0)

/-- The map entry of a 64-bit word; reserved bits are ignored (Table 6.1). -/
def MapEntry.ofWord (w : Nat) : MapEntry :=
  let st := w.testBit 58
  let loc := fun (v : Nat) => if st then 0 else v
  ⟨loc (w % 2 ^ 11), loc (w / 2 ^ 11 % 2 ^ 14), loc (w / 2 ^ 25 % 4), loc (w / 2 ^ 27 % 2 ^ 11), loc (w / 2 ^ 38 % 32), w / 2 ^ 43 % 256,
   w.testBit 51, w.testBit 52, w / 2 ^ 53 % 4, w / 2 ^ 55 % 8, st, if st then w % 2 ^ 38 else 0⟩

/-- The location bits [42:0] of an entry's word, with its LOST bit (Table 6.1). -/
def wordLoc (w : Nat) : Nat := w % 2 ^ 43 + (if w.testBit 51 then 2 ^ 51 else 0)

/-- RACK: A is the source entry. -/
def jRack (nsid grain : Nat) (src dst : MapEntry) : JRec := ⟨0x05, 0, nsid, 0, grain, src.word, some dst, 0⟩
/-- RACKDONE. -/
def jRackDone (barrel csn : Nat) : JRec := ⟨0x06, 0, 0, 0, barrel, csn, none, 0⟩
/-- OPEN. -/
def jOpen (vintage barrel csn : Nat) : JRec := ⟨0x07, 0, 0, vintage, barrel, csn, none, 0⟩
/-- CLOSE. -/
def jClose (last barrel csn : Nat) (short : Bool) : JRec := ⟨0x08, 0, 0, last, barrel, csn, none, if short then 1 else 0⟩
/-- ERASEINT. -/
def jEraseInt (die block csn : Nat) : JRec := ⟨0x09, 0, 0, 0, die + 2 ^ 11 * block, csn, none, 0⟩
/-- ERASEDONE: B carries the erase count, the operations since the intent and the retired flag. -/
def jEraseDone (die block csn erases ops : Nat) (retired : Bool) : JRec :=
  ⟨0x0A, 0, 0, 0, die + 2 ^ 11 * block, csn, none, erases + 2 ^ 24 * ops + (if retired then 2 ^ 32 else 0)⟩
/-- CSNRES. -/
def jCsnRes (ceil : Nat) : JRec := ⟨0x0B, 0, 0, 0, 0, ceil, none, 0⟩
/-- NSOP: 1 create, 2 delete, 3 format. -/
def jNsOp (op nsid csn grains : Nat) : JRec := ⟨0x0C, 0, nsid, op, 0, csn, none, grains⟩
/-- DRAINDONE. -/
def jDrainDone (csn : Nat) : JRec := ⟨0x0D, 0, 0, 0, 0, csn, none, 0⟩

/-- The highest CSN of a list's COMMIT records; 0 if there are none (LASTCSN of Table 6.5). -/
def lastCommitOf (rs : List JRec) : Nat := maxOf ((rs.filter (fun r => r.typ == 1)).map (·.a))

/-- The highest CSN carried by a list's COMMIT, DEALLOC and LOST records (R169). -/
def lastCsnOf (rs : List JRec) : Nat :=
  maxOf ((rs.filter (fun r => r.typ == 1 || r.typ == 3 || r.typ == 4)).map (·.a))

/-! Geometry (R180, R184, R209). -/

/-- A die's block is good: not marked bad at the factory, and not retired before the commit of the provisioning. -/
def goodBlk (s : State) (d b : Nat) : Bool :=
  decide (b < blocksPerDie) && !(s.nand.factoryBad.contains (d, b)) && !(s.prov.bad.contains (d, b))

/-- The (n+1)-th block from `b` up that satisfies `ok`. -/
def nthBlock (ok : Nat → Bool) : (fuel b n : Nat) → Option Nat
  | 0, _, _ => none
  | f + 1, b, n =>
    if ok b then (if n = 0 then some b else nthBlock ok f (b + 1) (n - 1)) else nthBlock ok f (b + 1) n

/-- Follow replacements of a die's block (R205). -/
def replacedBlk (s : State) (d b : Nat) : Nat :=
  s.mm.replaced.foldl (fun x r => if r.die = d ∧ r.block = x then r.by_ else x) b

/-- The group a die slot is an original member of. -/
def groupOfDie (d : Nat) (s : State) : Option Group := s.sp.groups.find? (fun g => g.members.contains d)

/-- A group by number. -/
def findGroup (g : Nat) (s : State) : Option Group := s.sp.groups.find? (fun x => x.num == g)

/-- Change a group. -/
def updGroup (g : Nat) (f : Group → Group) (s : State) : State :=
  { s with sp := { s.sp with groups := updFirst s.sp.groups (fun x => x.num == g) f } }

/-- A member position of a group. -/
def Group.posOf (g : Group) (d : Nat) : Nat := g.members.findIdx (· == d)

/-- The die slot at a member position. -/
def Group.die (g : Group) (pos : Nat) : Nat := (g.members[pos]?).getD 0

/-- The width of a group. -/
def Group.width (g : Group) : Nat := g.members.length

/-- The lower position of the vat pair that holds position `m`, if any (R184). -/
def Group.pairPos (g : Group) (m : Nat) : Option Nat :=
  let h := g.width / 2
  if m < h then some m else if m < 2 * h then some (m - h) else none

/-- The block that vat slot `v` of the pair at position `m` was given at provisioning (R184). -/
def vatBlockFirst (g : Group) (m v : Nat) (s : State) : Option Nat :=
  nthBlock (fun x => goodBlk s (g.die m) x && goodBlk s (g.die (m + g.width / 2)) x) blocksPerDie 0 v

/-- The block of vat slot `v` of the pair at position `m`: a slot rebuilt after a retirement has another (R184, R205). -/
def vatBlock (g : Group) (m v : Nat) (s : State) : Option Nat := (vatBlockFirst g m v s).map (replacedBlk s (g.die m))

/-- A block number is one of the vat blocks given at provisioning to the pair a die belongs to (R184). -/
def isVatBlk (g : Group) (m b : Nat) (s : State) : Bool :=
  match g.pairPos m with
  | none => false
  | some p => (List.range (getF Reg.MM_CFG.VATBLK s)).any (fun v => vatBlockFirst g p v s == some b)

/-- The block of row `r` on a die `d` that serves the member at position `m` (R180, R217): the (r+1)-th good block that is not a vat block. -/
def rowBlockOn (g : Group) (m d r : Nat) (s : State) : Nat :=
  replacedBlk s d ((nthBlock (fun x => goodBlk s d x && !isVatBlk g m x s) blocksPerDie 0 r).getD 0)

/-- The block of row `r` by which the map names the member at position `m`: its original die's. -/
def rowBlock (g : Group) (m r : Nat) (s : State) : Nat := rowBlockOn g m (g.die m) r s

/-- Good blocks of a die. -/
def goodCount (s : State) (d : Nat) : Nat := blocksPerDie - ((s.nand.factoryBad ++ s.prov.bad).filter (fun x => x.1 == d)).length

/-- The rows of a group at provisioning (R180): the smallest row-block count among its members. -/
def rowsFor (members : List Nat) (s : State) : Nat :=
  minOf (members.map (fun d => goodCount s d - getF Reg.MM_CFG.VATBLK s - getF Reg.MM_CFG.SPMIN s)) 0

/-- A barrel number (R181). -/
def barrelNum (group row : Nat) : Nat := row + 2 ^ 13 * group
/-- The group of a barrel. -/
def barrelGroup (b : Nat) : Nat := b / 2 ^ 13 % 256
/-- The row of a barrel. -/
def barrelRow (b : Nat) : Nat := b % 2 ^ 13

/-- Positions of P and Q in a row (R209). -/
def posP (g : Group) (r : Nat) : Nat := r % g.width
/-- Position of Q. -/
def posQ (g : Group) (r : Nat) : Nat := (r + 1) % g.width
/-- Position of data member index `i` in row `r` (R209). -/
def posData (g : Group) (r i : Nat) : Nat := (r + 2 + i) % g.width

/-- All barrels formed and not withdrawn or dissolved. -/
def barrelCount (s : State) : Nat :=
  sumOf ((s.sp.groups.filter (fun g => !g.dissolved)).map (fun g => g.rows - g.withdrawn.length))

/-- Free barrels (R192): formed, and not listed as holding data or waiting for an erase. -/
def freeBarrels (s : State) : Nat := barrelCount s - s.mm.barrels.length

/-- Data bytes of a barrel before compression (R180). -/
def barrelBytes (s : State) : Nat := (getF Reg.SP_CFG.WIDTH s - 2) * qlcPages * 61440

/-- The lowest row of a group whose barrel is free (R187 leaves the choice among free rows open; log entry 12). -/
def freeRow (g : Group) (s : State) : Option Nat :=
  (List.range g.rows).find? (fun r =>
    !g.withdrawn.contains r && !s.mm.barrels.any (fun b => b.num == barrelNum g.num r))

/-! The block state table (R182). -/

/-- The key of a block. -/
def blkKey (d b : Nat) : Nat := d * 16384 + b
/-- A block's entry. -/
def getBlk (d b : Nat) (s : State) : Block := sGet s.mm.blocks .fresh (blkKey d b)
/-- Change a block's entry. -/
def updBlk (d b : Nat) (f : Block → Block) (s : State) : State :=
  { s with mm := { s.mm with blocks := sUpd s.mm.blocks .fresh (blkKey d b) f }, mx := { s.mx with dirty := true } }

/-- The die that serves a slot now: the spare of its substitution, if its entry is assigned (R217). -/
def servingDie (d : Nat) (s : State) : Nat :=
  match s.sp.subst.find? (fun e => decide (e.src = d ∧ e.state ≠ 4)) with
  | some e => e.dst
  | none => d

/-- A die is missing: declared failed, or its channel failed (R216). -/
def dieFailed (d : Nat) (s : State) : Bool := s.sp.failedDies.contains d || s.sp.failedChans.contains (dieChan d)

/-- The die that takes programs for a member: its own, or a spare whose rebuild has begun (R223). -/
def memberDie (g : Group) (m : Nat) (s : State) : Option Nat :=
  if ¬ dieFailed (g.die m) s then some (g.die m)
  else match s.sp.subst.find? (fun e => decide (e.src = g.die m ∧ (e.state = 2 ∨ e.state = 3))) with
    | some e => if dieFailed e.dst s then none else some e.dst
    | none => none

/-! Capacity (R205, R243). -/

/-- NCAP in bytes of every namespace that is not thin, and stored granules of the thin ones. -/
def allocatedBytes (s : State) : Nat :=
  sumOf (s.ns.map (fun n =>
    if n.thin then 512 * sumOf ((s.nand.copies.filter (fun c => decide (c.nsid = n.nsid) &&
        sameLoc c.loc (getEntry n.nsid c.grain s))).map (·.loc.glen))
    else n.ncap * lbaBytes n.lbaf))

/-- Free capacity (R243). -/
def freeCapacity (s : State) : Nat := s.prov.userCap - allocatedBytes s

/-- Too few barrels remain for the allocated capacity plus FREECRIT (R205). -/
def barrelsExhausted (s : State) : Bool :=
  decide (barrelCount s < ceilDiv (allocatedBytes s) (Nat.max 1 (barrelBytes s)) + 16 * getF Reg.MM_RACK.FREECRIT s)

/-! Spares (R391). -/

/-- Spares of the resources that Available Spare counts: (left, at provisioning). -/
def spareRatios (s : State) : List (Nat × Nat) :=
  [(s.sp.spares.length, s.prov.hotAtProv), (s.mg.coreSpare, 4),
   ((s.cs.clusters.filter (fun c => c.spare.isSome)).length, 8), (s.mg.engineSpare, 4), (s.dg.spare, 2),
   (s.mg.compSpare, 2), (256 - s.me.repaired.length, 256), (4096 - s.me.remap.length, 4096)]

/-- SMART Available Spare in percent (R391). A resource with no spare at provisioning takes no part. -/
def availableSpare (s : State) : Nat :=
  minOf (((spareRatios s).filter (fun r => decide (0 < r.2))).map (fun r => 100 * r.1 / r.2)) 100

/-- A spare was brought in: event 12h and an entry 0x0E10 (R392). -/
def spareIn (resource left : Nat) (s : State) : State :=
  fiRealFault (vendorEvent 0x12 0x02 (logEvent 0x0E10 1 14 false [resource, left] s))

/-- Record a unit taken out of service in the sparing record (R391). -/
def unitOut (resource unit : Nat) (s : State) : State :=
  { s with prov := { s.prov with outUnits := addOnce s.prov.outUnits (resource, unit) } }

/-- Make the device seal permanent in the record (R38, R392). -/
def recordExhaustSeal (s : State) : State :=
  { s with prov := { s.prov with exhaustSeal := true, devSeal := some (s.mx.csn, true) },
           mm := { s.mm with exhausted := true } }

/-- Mode Changed after a transition, as the rows that list it do. -/
def enterModeEv (row : Nat) (m : Mode) (s : State) : State := evModeChanged (enterMode row m s)

/-! Losses (R104, R106, R114, R227). -/

/-- First LBA of a grain. -/
def grainSlba (nsid grain : Nat) (s : State) : Nat := match findNs nsid s with
  | some n => grain * n.k
  | none => grain

/-- LBAs of a grain. -/
def grainNlb (nsid : Nat) (s : State) : Nat := match findNs nsid s with
  | some n => n.k
  | none => 1

/-- List a lost extent in log C4h, with its event and event-log entry (R106). -/
def listLost (nsid slba nlb cause csn : Nat) (s : State) : State :=
  let e : LostExt := ⟨nsid, cause, false, slba, nlb, csn, []⟩
  let s := { s with sh := { s.sh with lostTotal := s.sh.lostTotal + 1 } }
  let s :=
    if s.lost.length < 65536 then { s with lost := s.lost ++ [e] }
    else if s.lost.any (·.repaired) then { s with lost := s.lost.eraseP (·.repaired) ++ [e] }
    else { s with sh := { s.sh with lostOver := true } }
  evLost (logEvent 0x0101 2 3 false [nsid, cause, 0, slba, nlb, csn] s)

/-- Record a deferred write fault (R114): the newest 256 are kept, and the event is posted. -/
def deferFault (nsid cause csnFirst csnLast slba nlb : Nat) (s : State) : State :=
  let d : DefFault := ⟨nsid, cause, false, false, false, now s, csnFirst, csnLast, slba, nlb⟩
  evDeferred { s with defFaults := (d :: s.defFaults).take 256, sh := { s.sh with dfTotal := s.sh.dfTotal + 1 } }

/-- Mark a grain lost with no command (R227): the entry, the LOST record with CSN 0, log C4h. -/
def markLost (nsid grain cause csn : Nat) (s : State) : State :=
  let e := getEntry nsid grain s
  let s := jAppend (jLost nsid grain 1 0 cause) (putEntry nsid grain e.asLost s)
  listLost nsid (grainSlba nsid grain s) (grainNlb nsid s) cause csn s

/-- The copy of a grain that an entry names (R171). -/
def copyAt (nsid grain : Nat) (e : MapEntry) (s : State) : Option Copy :=
  s.nand.copies.find? (fun c => decide (c.nsid = nsid ∧ c.grain = grain) && sameLoc c.loc e)

/-! Staging and placing (R159 to R162). -/

/-- The staging record of an index. -/
def findStaged (i : Nat) (s : State) : Option Staged := s.mx.staged.find? (fun x => x.stidx == i)

/-- Change a staging record. -/
def updStaged (i : Nat) (f : Staged → Staged) (s : State) : State :=
  { s with mx := { s.mx with staged := updFirst s.mx.staged (fun x => x.stidx == i) f } }

/-- The staging record a grain's entry names. -/
def stagedOf (nsid grain : Nat) (s : State) : Option Staged :=
  let e := getEntry nsid grain s
  if e.staged then findStaged e.stidx s else none

/-- Remove a staging record no entry names, whose copies nobody waits for and of whose unit no read still needs a grain, and free its
buffers (R162, R188). -/
def releaseStaged (i : Nat) (s : State) : State :=
  match findStaged i s with
  | none => s
  | some r =>
    let e := getEntry r.nsid r.grain s
    if r.readers ≠ [] ∨ r.hold ∨ (e.staged ∧ e.stidx = i) ∨ s.mx.staged.any (fun q => r.mates.contains q.stidx && q.readers != []) then s
    else putBufs r.bufs { s with mx := { s.mx with staged := s.mx.staged.filter (fun x => x.stidx != i) } }

/-- A staging record is durable, or gone: whoever held it waits no longer. -/
def unhold (i : Nat) (s : State) : State := updStaged i (fun r => { r with hold := false }) s

/-- PLACE (R161): the staged entry becomes the stored location, provided it is still STAGED with the same STIDX; else the copy is
lees. -/
def placeStaged (i : Nat) (loc : MapEntry) (s : State) : State :=
  match findStaged i s with
  | none => s
  | some r =>
    let s := unhold i s
    let e := getEntry r.nsid r.grain s
    if e.staged ∧ e.stidx = i then
      let d := { loc with rgen := e.rgen, staged := false, lost := false, dealloc := false, stidx := 0 }
      releaseStaged i (jAppend (jPlace r.nsid r.grain r.csn d) (putEntry r.nsid r.grain d s))
    else releaseStaged i s

/-- The compare-and-swap of R162: the location is written only where the entry, or a staging record's prior copy, still names the
source. -/
def swapEntry (nsid grain : Nat) (src dst : MapEntry) (s : State) : State :=
  let e := getEntry nsid grain s
  if !e.staged && !e.lost && !e.dealloc && sameLoc e src then
    let d := { dst with rgen := e.rgen, staged := false, lost := false, dealloc := false, stidx := 0 }
    jAppend (jRack nsid grain src d) (putEntry nsid grain d s)
  else match stagedOf nsid grain s with
    | some r =>
      if r.prior.stored && sameLoc r.prior src then
        let d := { dst with rgen := r.prior.rgen, staged := false, lost := false, dealloc := false, stidx := 0 }
        jAppend (jRack nsid grain src d) (updStaged r.stidx (fun r => { r with prior := d }) s)
      else s
    | none => s

/-- Start granules of stored forms packed into units of `cap` granules (R242): at most 60 start in a unit, and none may end beyond
the unit after the one it starts in. -/
def packStarts (cap : Nat) : List Nat → (at_ starts : Nat) → List Nat
  | [], _, _ => []
  | g :: t, at_, starts =>
    let skip := decide (starts ≥ 60) || decide (at_ % cap + g > 2 * cap)
    let p := if skip then (at_ / cap + 1) * cap else at_
    let n := if skip then 1 else starts + 1
    let q := p + g
    p :: packStarts cap t q (if q / cap = p / cap then n else 0)

/-- Units that a packing fills, from unit 0. -/
def packedUnits (cap : Nat) (starts glens : List Nat) : Nat :=
  maxOf ((starts.zip glens).map (fun x => ceilDiv (x.1 + x.2) cap))

/-! The vat (R184, R185). -/

/-- The ring of a pair; a pair never used stands at slot 0, page 0. -/
def getPair (g m : Nat) (s : State) : VatPair :=
  (s.mm.vat.find? (fun p => decide (p.group = g ∧ p.pos = m))).getD ⟨g, m, 0, 0, [], [], [], []⟩

/-- Store a pair's ring. -/
def putPair (p : VatPair) (s : State) : State :=
  if s.mm.vat.any (fun q => decide (q.group = p.group ∧ q.pos = p.pos)) then
    { s with mm := { s.mm with vat := updFirst s.mm.vat (fun q => decide (q.group = p.group ∧ q.pos = p.pos)) (fun _ => p) } }
  else { s with mm := { s.mm with vat := s.mm.vat ++ [p] } }

/-- The slot that a full open slot gives way to: the next in the ring that is erased and not retired. -/
def nextSlot (p : VatPair) (n : Nat) : Option Nat :=
  (List.range n).map (fun i => (p.openSlot + 1 + i) % n) |>.find?
    (fun v => v != p.openSlot && !p.full.contains v && !p.retired.contains v && !p.erasing.contains v)

/-- The pair after its next page is taken, and that page's (slot, page); `none` when it has no free page. -/
def pairTake (p : VatPair) (n : Nat) : Option (Nat × Nat × VatPair) :=
  if p.nextPage < slcPages ∧ ¬ p.retired.contains p.openSlot then
    some (p.openSlot, p.nextPage, { p with nextPage := p.nextPage + 1 })
  else match nextSlot p n with
    | some v => some (v, 0, { p with full := p.full ++ [p.openSlot], openSlot := v, nextPage := 1 })
    | none => none

/-- Pairs that may take host data copies: those of groups on vat turn, with both dies in service; in DRAIN every pair (R185). -/
def openPairs (s : State) : List (Nat × Nat) :=
  s.sp.groups.flatMap (fun g =>
    if !g.dissolved && (decide (s.gen.mode = .drain) || decide (s.gen.mode = .boot) || s.gen.quarFlush || s.fs.turn.any (fun t => t.1 == g.num)) then
      ((List.range (g.width / 2)).filter (fun m =>
        (memberDie g m s).isSome && (memberDie g (m + g.width / 2) s).isSome)).map (fun m => (g.num, m))
    else [])

/-- Take the next free vat page of the first eligible pair: (group, position, slot, page). DESIGN CHOICE: which of several open pairs takes the
next copies the spec leaves open; the model takes them in group order (log entry 113). -/
def takeVatPage (pairs : List (Nat × Nat)) (s : State) : Option ((Nat × Nat × Nat × Nat) × State) :=
  match pairs with
  | [] => none
  | (g, m) :: t => match pairTake (getPair g m s) (getF Reg.MM_CFG.VATBLK s) with
    | some (v, pg, p) => some ((g, m, v, pg), putPair p s)
    | none => takeVatPage t s

/-- A free vat page exists on a pair on vat turn (R186). -/
def vatRoom (s : State) : Bool := (takeVatPage (openPairs s) s).isSome

/-- The map entry of granule offset `o` of a vat page (R152, R161). -/
def vatEntry (g m v pg o glen : Nat) (s : State) : MapEntry :=
  let G := (findGroup g s).getD ⟨g, [], 0, [], [], false, false, false⟩
  { MapEntry.initial with
    die := G.die m, block := (vatBlock G m v s).getD 0, plane := o / 32, page := pg, goff := o % 32, glen := glen,
    dealloc := false, vhint := 5 }

/-- Take `n` vat pages, all from the pairs in order. -/
def takeVatPages (pairs : List (Nat × Nat)) : Nat → State → List (Nat × Nat × Nat × Nat) × State
  | 0, s => ([], s)
  | n + 1, s => match takeVatPage pairs s with
    | none => ([], s)
    | some (l, s1) => match takeVatPages pairs n s1 with
      | (ls, s2) => (l :: ls, s2)

/-- Record that a vat page was programmed on both dies of its pair: PPTR moves (R275). -/
def vatProgrammed (l : Nat × Nat × Nat × Nat) (s : State) : State :=
  match findGroup l.1 s with
  | none => s
  | some g =>
    let b := (vatBlock g l.2.1 l.2.2.1 s).getD 0
    ((memberDie g l.2.1 s).toList ++ (memberDie g (l.2.1 + g.width / 2) s).toList).foldl
      (fun t d => updBlk d b (fun x => { x with pptr := l.2.2.2 + 1, age := if l.2.2.2 = 0 then now s else x.age }) t) s

/-- Write staged grains as verified vat copies in one go: DRAIN step 5, the clean stop, write-through and PS4 (R37, R47, R393). Grains
for which no page is left stay staged. -/
def vatFlush (rs : List Staged) (s : State) : State :=
  let glens := rs.map (·.glen)
  let starts := packStarts slcUnit glens 0 0
  let got := takeVatPages (openPairs s) (packedUnits slcUnit starts glens) s
  let s1 := got.1.foldl (fun t l => vatProgrammed l t) got.2
  (rs.zip starts).foldl (fun t x =>
    let r := x.1
    match got.1[x.2 / slcUnit]?, got.1[(x.2 + r.glen - 1) / slcUnit]? with
    | some (g, m, v, pg), some _ =>
      let loc := vatEntry g m v pg (x.2 % slcUnit) r.glen t
      let c : Copy := ⟨loc, r.nsid, r.grain, r.csn, 5, r.lbas, true, false, false⟩
      placeStaged r.stidx loc { t with nand := { t.nand with copies := t.nand.copies ++ [c] } }
    | _, _ => t) s1

/-- The value a merged grain takes for its uncovered LBAs (R149, R150): what the prior copy holds; lost where it cannot be read. -/
def priorLbas (r : Staged) (s : State) : List LbaVal :=
  if r.prior.dealloc then r.lbas.map (fun _ => .dealloc)
  else if r.prior.lost then r.lbas.map (fun _ => .lost)
  else match copyAt r.nsid r.grain r.prior s with
    | some c => if c.bad1 ∧ (¬ c.vat ∨ c.bad2) then r.lbas.map (fun _ => .lost) else c.lbas
    | none => r.lbas.map (fun _ => .lost)

/-- Fill the uncovered LBAs from the prior content. -/
def mergeLbas : List LbaVal → List LbaVal → List LbaVal
  | [], _ => []
  | .prior :: t, p :: ps => p :: mergeLbas t ps
  | .prior :: t, [] => .lost :: mergeLbas t []
  | v :: t, _ :: ps => v :: mergeLbas t ps
  | v :: t, [] => v :: mergeLbas t []

/-- Why the prior copy of a partial grain cannot be read now, as a cause of log C4h: 1, or 4 where both vat copies fail (R191, R227). A
deallocated or lost prior copy needs no read. -/
def priorUnread (r : Staged) (s : State) : Option Nat :=
  if r.prior.dealloc ∨ r.prior.lost then none
  else match copyAt r.nsid r.grain r.prior s with
    | some c => if c.vat then (if c.bad1 ∧ c.bad2 then some 4 else none) else (if c.bad1 then some 1 else none)
    | none => some 1

/-- The merge of a partial grain (R149): it takes no CSN. LBAs that cannot be read are listed under their cause (R150). -/
def mergeStaged (i : Nat) (s : State) : State :=
  match findStaged i s with
  | none => s
  | some r =>
    let t := updStaged i (fun r => { r with lbas := mergeLbas r.lbas (priorLbas r s), merged := true }) s
    match priorUnread r s with
    | none => t
    | some cause => (r.lbas.zipIdx.filter (fun x => x.1 == .prior)).foldl
        (fun u x => listLost r.nsid (grainSlba r.nsid r.grain u + x.2) 1 cause r.csn u) t

/-- Poison was consumed (R298): the count, the flag and the address of the event. -/
def poisonConsumed (addr : Nat) (s : State) : State :=
  let s := { s with me := { s.me with last := addr } }
  setF Reg.ME_LASTHI.KIND 1 (flagOn Reg.ME_ERR.POISON (bump Reg.ME_POISON.CONSUMED s))

/-- Which line of a withdrawn grain the event names is not stated: a free value (log entry 90). -/
def poisonAddr (s : State) : Nat := Config.freeValue s.freeCtr % 2 ^ 48

/-- Every staged grain merged and written to the vat: everything acknowledged becomes durable. A poisoned grain is withdrawn instead,
lost with cause 3 and reported (R299). -/
def flushStaged (s : State) : State :=
  let s := s.mx.staged.foldl (fun t r => if r.merged then t else mergeStaged r.stidx t) s
  let s := (s.mx.staged.filter (·.poisoned)).foldl (fun t r =>
    let e := getEntry r.nsid r.grain t
    if e.staged ∧ e.stidx = r.stidx then
      deferFault r.nsid 1 r.csn r.csn (grainSlba r.nsid r.grain t) (grainNlb r.nsid t)
        (releaseStaged r.stidx (unhold r.stidx (markLost r.nsid r.grain 3 r.csn (poisonConsumed (poisonAddr t) t))))
    else t) s
  vatFlush (s.mx.staged.filter (fun r => !r.poisoned)) s

/-- Book vat pages of some pairs for staged grains (R185, R393): each page's copies then program on both dies of its pair, and a grain that
runs into the next page is listed in both. Commands named wait for the pages. Grains for which no page is left stay unbooked. -/
def bookVatOn (pairs : List (Nat × Nat)) (rs : List Staged) (cmds : List Nat) (s : State) : State :=
  let glens := rs.map (·.glen)
  let starts := packStarts slcUnit glens 0 0
  let got := takeVatPages pairs (packedUnits slcUnit starts glens) s
  let s1 := got.2
  let place := fun (x : Staged × Nat) (l : Nat × Nat × Nat × Nat) =>
    (⟨x.1.nsid, x.1.grain, x.1.csn, some x.1.stidx, none, vatEntry l.1 l.2.1 l.2.2.1 l.2.2.2 (x.2 % slcUnit) x.1.glen s1,
      [l.2.1, l.2.1 + ((findGroup l.1 s1).map (fun g => g.width / 2)).getD 0], x.1.lbas⟩ : Placed)
  let pages := got.1.zipIdx.map (fun (li : (Nat × Nat × Nat × Nat) × Nat) =>
    let l := li.1
    let inPage := (rs.zip starts).filter (fun (x : Staged × Nat) =>
      decide (x.2 / slcUnit ≤ li.2 ∧ li.2 * slcUnit < x.2 + x.1.glen) && (got.1[x.2 / slcUnit]?).isSome)
    (⟨l.1, l.2.1, l.2.2.1, l.2.2.2, inPage.map (fun x => place x ((got.1[x.2 / slcUnit]?).getD l)), [], cmds⟩ : VatPage))
  let booked := pages.flatMap (fun p => p.placed.filterMap (·.stidx))
  { s1 with
    mm := { s1.mm with vatPages := s1.mm.vatPages ++ pages },
    mx := { s1.mx with staged := s1.mx.staged.map (fun (r : Staged) => if booked.contains r.stidx then { r with queued := true } else r) } }

/-- Book vat pages on the pairs on vat turn. -/
def bookVat (rs : List Staged) (cmds : List Nat) (s : State) : State := bookVatOn (openPairs s) rs cmds s

/-- The staged grains that are not yet in a QLC program (R393 step 3): those of no row whose program has started, and of no booked vat
page. -/
def notInProgram (s : State) : List Staged :=
  let inRows := s.mm.openB.flatMap (fun b => (b.rows.filter (fun r => !r.started.isEmpty)).flatMap (fun r => r.placed.filterMap (·.stidx)))
  let inVat := s.mm.vatPages.flatMap (fun p => p.placed.filterMap (·.stidx))
  s.mx.staged.filter (fun r => !inRows.contains r.stidx && !inVat.contains r.stidx)

/-! Journal segments and roots. -/

/-- Records of a full segment: four pages of 2,048. -/
def segmentMax : Nat := 8192

/-- Pairs that may take the Y9's own pages: all with both dies in service, of groups that stay (R165, R228, Table 7.5). -/
def sysPairs (s : State) : List (Nat × Nat) :=
  s.sp.groups.flatMap (fun g =>
    if g.dissolved || g.dissolving then []
    else ((List.range (g.width / 2)).filter (fun m => (memberDie g m s).isSome && (memberDie g (m + g.width / 2) s).isSome)).map (fun m => (g.num, m)))

/-- `n` pages of the vat take two copies each of what the Y9 keeps there for itself. -/
def takeSysPages (kind seq n : Nat) (s : State) : State :=
  let got := takeVatPages (sysPairs s) n s
  let s := got.1.foldl (fun t l => vatProgrammed l t) got.2
  { s with nand := { s.nand with sysPages := s.nand.sysPages ++ got.1.map (fun l => ⟨kind, seq, l.1, l.2.1, l.2.2.1, l.2.2.2⟩) } }

/-- Pages of the vat that are still needed: segments not yet dropped, the roots kept and the snapshots kept (Table 7.5). -/
def sysLive (p : SysPage) (s : State) : Bool :=
  match p.kind with
  | 0 => s.nand.segs.any (fun g => g.seq == p.seq)
  | 1 => s.nand.roots.any (fun r => r.sweep == p.seq)
  | _ => s.nand.snaps.any (fun x => x.seq == p.seq)

/-- The newest valid root: of the roots, the one with the highest SWEEP (R173). -/
def newestRoot (s : State) : Option Root := s.nand.roots.find? (fun r => decide (r.sweep = maxOf (s.nand.roots.map (·.sweep))))

/-- The block that holds the newest journal page. -/
def journalBlock (s : State) : Option (Nat × Nat × Nat) :=
  ((s.nand.sysPages.filter (fun p => p.kind == 0)).getLast?).map (fun p => (p.group, p.pos, p.slot))

/-- An anchor record goes to both areas (R167). -/
def anchorNow (s : State) : State :=
  let sw := ((newestRoot s).map (·.sweep)).getD 0
  let first := (s.nand.segs.head?.map (·.seq)).getD 0
  { s with nand := { s.nand with
      anchors := s.nand.anchors + 1,
      anchor := some ⟨s.nand.anchors + 1, sw, s.nand.sysPages.filter (fun p => p.kind == 1 && p.seq == sw), first, journalBlock s⟩ } }

/-- A durable segment takes its pages; an anchor record follows when the journal has moved to new vat blocks (R165, R167). -/
def segmentPages (seq n : Nat) (s : State) : State :=
  let before := journalBlock s
  let s := takeSysPages 0 seq (Nat.max 1 (ceilDiv n 2048)) s
  if journalBlock s = before then s else anchorNow s

/-- Pages of the Y9's own of which a copy is gone, and that are still needed, are written again on other pairs (R205, R223 step 3); an anchor
record names the new places. -/
def rewriteSysPages (gone : SysPage → Bool) (s : State) : State :=
  let ps := s.nand.sysPages.filter (fun p => gone p && sysLive p s)
  if ps = [] then s
  else
    let s := { s with nand := { s.nand with sysPages := s.nand.sysPages.filter (fun p => !ps.contains p) } }
    anchorNow (ps.foldl (fun t p => takeSysPages p.kind p.seq 1 t) s)

/-- A segment's OPEN records let their barrels be programmed (R166). -/
def openDurable (rs : List JRec) (s : State) : State :=
  let named := (rs.filter (fun r => r.typ == 0x07)).map (·.key)
  { s with mm := { s.mm with openB := s.mm.openB.map (fun (b : OpenBarrel) => if named.contains b.num then { b with durable := true } else b) } }

/-- The records not yet durable: those of the segment being written, then those pending. -/
def undurable (s : State) : List JRec :=
  (match s.mx.jfly with
    | some f => f.2
    | none => []) ++ s.mx.jpend

/-- Records between a replay point and the end of the journal. -/
def lagFrom (seq : Nat) (s : State) : Nat :=
  sumOf ((s.nand.segs.filter (fun g => decide (seq ≤ g.seq))).map (fun g => g.recs.length)) + (undurable s).length

/-- The records not yet durable become segments of at most four pages at once, with a ceiling above the counter if one is due (R163, R165,
R166). -/
def journalNow (s : State) : State :=
  let recs := undurable s
  let last := lastCsnOf recs
  let n := ceilDiv recs.length segmentMax
  let segs := (List.range n).map (fun k => (⟨s.mx.jseq + 1 + k, (recs.drop (k * segmentMax)).take segmentMax, 2⟩ : Segment))
  let s := { s with
    mx := { s.mx with
      jpend := [], jfly := none, jseq := s.mx.jseq + n, jlast := if last = 0 then s.mx.jlast else last,
      ceil := s.mx.ceilPend.getD s.mx.ceil, ceilPend := none },
    nand := { s.nand with ceil := s.mx.ceilPend.getD s.mx.ceil, segs := s.nand.segs ++ segs } }
  segs.foldl (fun t g => segmentPages g.seq g.recs.length t) (openDurable recs s)

/-- READS in its 8-bit code and back (R201): the smallest code whose value is at least READS. -/
def readsValue (c : Nat) : Nat := let e := c / 16; let m := c % 16; if e = 0 then m else (16 + m) * 2 ^ (e - 1)

/-- The smallest code `c` from `from_` up with V(c) ≥ n, at most 0xFF. -/
def readsCode (n : Nat) : (fuel from_ : Nat) → Nat
  | 0, c => c
  | f + 1, c => if readsValue c ≥ n ∨ c ≥ 255 then c else readsCode n f (c + 1)

/-- The map as its pages are written: a grain still staged shows the copy it had before the commit, which its COMMIT record, at or behind the
replay point, replaces (R169, R175; log entry 84). -/
def mapToWrite (s : State) : List (Nat × MapEntry) :=
  s.mx.staged.foldl (fun m (r : Staged) =>
    let e := sGet m .initial (gkey r.nsid r.grain)
    if e.staged ∧ e.stidx = r.stidx then sPut m .initial (gkey r.nsid r.grain) r.prior else m) s.mx.map

/-- The highest CSN carried by a COMMIT, DEALLOC or LOST record before a position of the journal (R169). -/
def carriedCsn (seq : Nat) (s : State) : Nat :=
  Nat.max (lastCsnOf ((s.nand.segs.filter (fun g => decide (g.seq < seq))).flatMap (·.recs))) (((newestRoot s).map (·.replayCsn)).getD 0)

/-- The number of the next sweep: SWEEP has 64 bits, of which MX_CKPT.SWEEPS shows the lowest. -/
def nextSweep (s : State) : Nat := maxOf (s.nand.roots.map (·.sweep)) + 1

/-- A root over the present map (R168, R169). Its replay point is the segment after `replaySeq - 1`. -/
def rootNow (clean : Bool) (sweep replaySeq : Nat) (s : State) : Root :=
  { sweep := sweep, replaySeq := replaySeq, replayCsn := carriedCsn replaySeq s, clean := clean, map := mapToWrite s,
    blocks := s.mm.blocks.map (fun b => (b.1, { b.2 with reads := readsValue (readsCode b.2.reads 256 0) })),
    digests := s.dg.barrelDigests, nsCsn := s.ns.map (fun n => (n.nsid, n.lastCsn)), copies := 2 }

/-- A root becomes durable: the sweep count rises, the newest is first, and an anchor record names it (R167, R169). Pages of roots and segments
no longer needed are forgotten. -/
def rootDurable (r : Root) (s : State) : State :=
  let s := setF Reg.MX_CKPT.SWEEPS (getF Reg.MX_CKPT.SWEEPS s + 1) s
  let s := takeSysPages 1 r.sweep 1 { s with nand := { s.nand with roots := (r :: s.nand.roots).take 3 } }
  let s := anchorNow { s with nand := { s.nand with sysPages := s.nand.sysPages.filter (fun p => sysLive p s) } }
  { s with mx := { s.mx with sweep := none, rootAt := now s, dirty := !s.mx.jpend.isEmpty } }

/-- The open stripes of open barrels: those of rows not yet settled (R218). -/
def opensOf (bs : List OpenBarrel) : List OpenStripe :=
  bs.flatMap (fun b => b.rows.flatMap (fun r => (List.range 4).map (fun i => (⟨b.num, 4 * r.w + i, r.verified, r.started != []⟩ : OpenStripe))))

/-- A stripe-journal snapshot of the present (R218). -/
def snapNow (s : State) : Snap :=
  { seq := s.sp.snapSeq + 1, dtime := now s, csn := s.mx.csn, jseq := s.mx.jseq,
    opens := opensOf s.mm.openB,
    subst := s.sp.subst, voids := s.sp.voids }

/-- A snapshot becomes durable; the two newest are kept. -/
def snapDurableNow (n : Snap) (s : State) : State :=
  takeSysPages 2 n.seq 1
    { s with sp := { s.sp with snapSeq := n.seq, snapFly := none }, nand := { s.nand with snaps := (n :: s.nand.snaps).take 2 } }

/-- The clean stop (R45): everything acknowledged durable, then a final checkpoint whose root has CLEAN = 1 and whose replay point is
the end of the journal. -/
def cleanStop (s : State) : State :=
  if ¬ s.prov.valid then { s with gen := { s.gen with cleanStop := true } }
  else
    let s := journalNow (flushStaged s)
    let s := snapDurableNow (snapNow s) s
    let s := rootDurable (rootNow true (nextSweep s) (s.mx.jseq + 1) s) s
    { s with gen := { s.gen with cleanStop := true }, mx := { s.mx with lag := 0, dirty := false } }

end Sys2Proof.Machine
end

