-- ==== Sys2Proof/Machine/FabricOps.lean ====
section
/-! DEFINITION. What several families do with the fabric: sending a frame, failing one, losing a link, logging a discarded window
TLP (R70, R304, R308, R309, R313, R314). -/
namespace Sys2Proof.Machine

/-- A link's state. -/
def getLink (k : Nat) (s : State) : GLink := (s.gf.links[k]?).getD .reset

/-- Change a link. -/
def updLink (k : Nat) (f : GLink → GLink) (s : State) : State :=
  { s with gf := { s.gf with links := s.gf.links.modify k f } }

/-- A link is up: four lanes or two (R105). -/
def GLink.up (l : GLink) : Bool := l.st == 2 || l.st == 3

/-- What a training makes of a link's bookkeeping: sequence 0, full credits, nothing waiting or half received (log entry 65). -/
def GLink.fresh (l : GLink) : GLink :=
  { l with txSeq := 0, rxSeq := 0xFFF, replay := [], resent := 0, credits := [32, 448, 448, 96], waits := [0, 0, 0, 0],
           ackWaits := [0, 0, 0, 0], turn := 3, turnLeft := 0, rxBytes := [[], [], [], []] }

/-- Credits of a VC that only ACK and NAK frames may use (R305). -/
def ackReserve (vc : Nat) : Nat := if vc = 0 then 0 else 4

/-- The link holds a credit that any frame of the VC may use. -/
def GLink.hasCredit (l : GLink) (vc : Nat) : Bool := decide (ackReserve vc < (l.credits[vc]?).getD 0)

/-- No route. -/
def routeNone : Route := ⟨0xF, 0xF, 0, 0, false⟩

/-- The routing entry of a node. -/
def routeTo (node : Nat) (s : State) : Route := sGet s.gf.routes routeNone node

/-- The link a frame of a VC leaves on (R313): PRIM for VC0 and VC3; for VC1 and VC2 the next link of the bundle that holds a
credit, and PRIM when the bundle has none. `none` is "no usable link" (R314). -/
def pickLink (vc dst : Nat) (s : State) : Option Nat :=
  let r := routeTo dst s
  let prim := if r.valid ∧ r.prim < 12 ∧ (getLink r.prim s).up then some r.prim else none
  if vc = 0 ∨ vc = 3 then prim
  else
    let turn := (List.range 12).map (fun i => (s.gf.spread + 1 + i) % 12)
    let cand := turn.filter (fun k => r.valid && r.bundle.toNat.testBit k && (getLink k s).up)
    match cand.find? (fun k => (getLink k s).hasCredit vc) with
    | some k => some k
    | none => match cand with
      | k :: _ => some k
      | [] => prim

/-- Change a source stream, opening it at XSEQ 0. -/
def updTxStream (vc dst : Nat) (f : TxStream → TxStream) (s : State) : State :=
  let l := if s.gf.txStreams.any (fun x => decide (x.vc = vc ∧ x.dst = dst)) then s.gf.txStreams
    else s.gf.txStreams ++ [⟨vc, dst, 0, false⟩]
  { s with gf := { s.gf with txStreams := updFirst l (fun x => decide (x.vc = vc ∧ x.dst = dst)) f } }

/-- A source stream. -/
def getTxStream (vc dst : Nat) (s : State) : TxStream :=
  (s.gf.txStreams.find? (fun x => decide (x.vc = vc ∧ x.dst = dst))).getD ⟨vc, dst, 0, false⟩

/-- Log a discarded posted window TLP (R70): the count, cause, port, aperture offset and requester. -/
def winLog (p : Port) (cause offset rid : Nat) (s : State) : State :=
  let s := setF Reg.HE_WINLOG.CAUSE cause (bump Reg.HE_WINLOG.COUNT s)
  let s := setF Reg.HE_WINLOG.PORT (if p = .a then 0 else 1) s
  let s := setF Reg.HE_WINLOGLO.OFFSET (offset % 2 ^ 32) s
  setF Reg.HE_WINLOGHI.RID rid (setF Reg.HE_WINLOGHI.OFFSET (offset / 2 ^ 32) s)

/-- The port a stored port number names. -/
def portOf (n : Nat) : Port := if n = 1 then .b else .a

/-- The stored number of a port. -/
def portNum (p : Port) : Nat := match p with
  | .a => 0
  | .b => 1

/-- A window request's transfer failed at its target (Table 3.7): a read completes with Completer Abort, a write is discarded and
logged with the cause, and no longer holds back accesses to other destinations. -/
def windowFail (ftype dst cause : Nat) (info : List Nat) (s : State) : State :=
  match info with
  | [pn, off, id] =>
    if ftype = 0x20 then
      caCpl (portOf pn) id
        { s with gf := { s.gf with pendRd := s.gf.pendRd.filter (fun x => decide (x.2.1 ≠ portOf pn ∨ x.2.2.1 ≠ id)) } }
    else if ftype = 0x22 then
      winLog (portOf pn) cause off id (s.updPort (portOf pn) (fun h => { h with unacked := h.unacked.erase (some dst) }))
    else s
  | _ => s

/-- A frame fails (R309): it is counted, its transfer's remaining frames are cancelled, the stream owes a RESYNC, and the requester
hears of it with Table 3.7's cause 2. -/
def frameFailed (fr : TxFrame) (s : State) : State :=
  let gone := s.gf.txFrames.filter (fun x => decide (x.vc = fr.vc ∧ x.dst = fr.dst ∧ x.tag = fr.tag ∧ x.ftype = fr.ftype))
  let s := putBufs (gone.flatMap (·.bufs)) s
  let s := { s with gf := { s.gf with
    txFrames := s.gf.txFrames.filter (fun x => decide (¬ (x.vc = fr.vc ∧ x.dst = fr.dst ∧ x.tag = fr.tag ∧ x.ftype = fr.ftype))) } }
  let s := flagOn Reg.GF_ERR.XFERFAIL (bump Reg.GF_XFER.FAILED s)
  windowFail fr.ftype fr.dst 2 fr.info (updTxStream fr.vc fr.dst (fun x => { x with resync := true }) s)

/-! Flits (R303 to R307, R395). -/

/-- The flits a frame of a type takes: header, payload of the type's longest form and trailer, at 240 bytes a flit (log entry 51). -/
def frameFlits (ftype : Nat) : Nat := match ftype with
  | 0x10 | 0x21 | 0x22 | 0x23 | 0x31 | 0x32 => 18
  | 0x30 => 5
  | _ => 1

/-- The value of FI_GF. -/
def fiGfWord (s : State) : Nat :=
  fieldsWord [Reg.FI_GF.LINK, Reg.FI_GF.VC, Reg.FI_GF.OP, Reg.FI_GF.RATE, Reg.FI_GF.EN] s

/-- FI_GF injects one operation into this link and VC. -/
def fiGfOn (op k vc : Nat) (s : State) : Bool :=
  s.fi.armed && isOn Reg.FI_GF.EN s && decide (getF Reg.FI_GF.OP s = op ∧ getF Reg.FI_GF.LINK s = k ∧ getF Reg.FI_GF.VC s = vc)

/-- Injections among `n` units sent on a link and VC. -/
def fiGf (k vc n : Nat) (s : State) : Nat × State :=
  let r := fiHits 0 (getF Reg.FI_GF.RATE s) n s
  (r.1, fiInjected r.1 0xF010 (fiGfWord s) r.2)

/-- A flit of the VC may start: it holds a credit, a reserved one serving ACK and NAK frames only, and the 256-flit replay buffer has a
place (R304, R305). -/
def GLink.mayStart (l : GLink) (vc : Nat) : Bool :=
  decide (l.replay.length < 256) &&
    ((decide (0 < (l.ackWaits[vc]?).getD 0) && decide (0 < (l.credits[vc]?).getD 0)) ||
     (decide (0 < (l.waits[vc]?).getD 0) && l.hasCredit vc))

/-- The VC that sends next, the VC whose turn it then is, and what that turn leaves (R306): VC0 whenever it can; the others by weighted
round robin in flits. -/
def GLink.nextVc (w : Nat → Nat) (l : GLink) : Option (Nat × Nat × Nat) :=
  if l.mayStart 0 then some (0, l.turn, l.turnLeft)
  else if 0 < l.turnLeft ∧ l.mayStart l.turn then some (l.turn, l.turn, l.turnLeft - 1)
  else (([0, 1, 2].map (fun i => 1 + (l.turn + i) % 3)).find? l.mayStart).map (fun v => (v, v, w v - 1))

/-- One flit of a VC starts: it takes the next SEQ, a place in the replay buffer and a credit. -/
def GLink.startFlit (vc : Nat) (l : GLink) : GLink :=
  let l := if 0 < (l.ackWaits[vc]?).getD 0 then { l with ackWaits := l.ackWaits.modify vc (fun n => n - 1) }
    else { l with waits := l.waits.modify vc (fun n => n - 1) }
  { l with sent := l.sent + 1, replay := l.replay ++ [(l.txSeq, vc)], txSeq := (l.txSeq + 1) % 4096, credits := l.credits.modify vc (fun c => c - 1) }

/-- Start waiting flits until none may start. -/
def GLink.drain (w : Nat → Nat) : Nat → GLink → GLink
  | 0, l => l
  | n + 1, l => match l.nextVc w with
    | some (v, t, left) => GLink.drain w n (GLink.startFlit v { l with turn := t, turnLeft := left })
    | none => l

/-- The weight of a VC (Table 12.17). -/
def vcWeight (s : State) (vc : Nat) : Nat := match vc with
  | 1 => getF Reg.GF_VCARB.W1 s
  | 2 => getF Reg.GF_VCARB.W2 s
  | _ => getF Reg.GF_VCARB.W3 s

/-- The flits a link can start now start. -/
def drainLink (k : Nat) (s : State) : State :=
  updLink k (fun l => l.drain (vcWeight s) (l.waits.foldl (· + ·) 0 + l.ackWaits.foldl (· + ·) 0)) s

/-- Put a frame's flits on a link. A dropped or corrupted flit still takes its SEQ. -/
def sendFlits (k vc n : Nat) (s : State) : State :=
  let s := if fiGfOn 1 k vc s ∨ fiGfOn 2 k vc s then (fiGf k vc n s).2 else s
  drainLink k (updLink k (fun l => { l with waits := l.waits.modify vc (· + n) }) s)

/-- Put an ACK or NAK frame's flit on the stream's VC toward its source: it may use the reserved credits (R305, R308). -/
def sendAckFlit (vc src : Nat) (s : State) : State := match pickLink vc src s with
  | some k => drainLink k (updLink k (fun l => { l with ackWaits := l.ackWaits.modify vc (· + 1) }) s)
  | none => s

/-- A frame leaves. A reordered one leaves after the next frame of its stream (R395). -/
def frameOut (vc dst ftype x k : Nat) (s : State) : State :=
  let o := Output.frame vc dst ftype x k
  let late := s.gf.late.filter (fun y => decide (y.1 = vc ∧ y.2.1 = dst))
  let s := { s with gf := { s.gf with late := s.gf.late.filter (fun y => ¬ decide (y.1 = vc ∧ y.2.1 = dst)) } }
  if fiGfOn 3 k vc s then
    let r := fiGf k vc 1 s
    if r.1 ≥ 1 ∧ late = [] then { r.2 with gf := { r.2.gf with late := r.2.gf.late ++ [(vc, dst, o)] } }
    else emits (late.map (·.2.2)) (emit o r.2)
  else emits (late.map (·.2.2)) (emit o s)

/-- Send one frame on a stream and a link, with no RESYNC before it; with no usable link it fails at once. -/
def sendVia (via : Option Nat) (vc dst ftype tag : Nat) (info : List Nat) (s : State) : State :=
  match via with
  | none =>
    let s := flagOn Reg.GF_ERR.XFERFAIL (bump Reg.GF_XFER.FAILED s)
    windowFail ftype dst 2 info s
  | some k =>
    let x := (getTxStream vc dst s).next
    let r := bpAlloc 5 1 false s
    let s := updTxStream vc dst (fun t => { t with next := t.next + 1 }) r.2
    let s := { s with gf := { s.gf with
      txFrames := s.gf.txFrames ++ [⟨vc, dst, x, ftype, k, 0, tag, info, r.1.getD []⟩],
      spread := if vc = 1 ∨ vc = 2 then k else s.gf.spread } }
    frameOut vc dst ftype x k (sendFlits k vc (frameFlits ftype) s)

/-- Send one frame on a stream, along the routes. -/
def rawSend (vc dst ftype tag : Nat) (info : List Nat) (s : State) : State := sendVia (pickLink vc dst s) vc dst ftype tag info s

/-- The next XSEQ of a stream that still has a frame to deliver: the lowest one kept from `lo` on, else the next one to be sent. -/
def nextLive (vc dst lo : Nat) (s : State) : Nat :=
  ((s.gf.txFrames.filter (fun x => decide (x.vc = vc ∧ x.dst = dst ∧ lo ≤ x.xseq))).map (·.xseq)).foldl Nat.min
    (getTxStream vc dst s).next

/-- The RESYNC that a stream owes goes before any further frame of it (R309). -/
def payResync (vc dst : Nat) (s : State) : State :=
  if (getTxStream vc dst s).resync then
    rawSend 0 dst 0x02 0 [vc, nextLive vc dst 0 s] (updTxStream vc dst (fun x => { x with resync := false }) s)
  else s

/-- Send one frame, after the RESYNC its stream owes (R309). -/
def sendFrame (vc dst ftype tag : Nat) (info : List Nat) (s : State) : State :=
  rawSend vc dst ftype tag info (payResync vc dst s)

/-- Send a control message (Table 13.6): a CTRL frame on VC0. -/
def sendCtrl (dst msg : Nat) (fields : List Nat) (s : State) : State :=
  sendFrame 0 dst 0x03 0 [] (emit (.ctrl dst msg fields) s)

/-- The pair's active sends a mirrored record (Table 13.2) while it has a standby to send to (R326). Fields start with the CSN. -/
def mirror (kind : Nat) (fields : List Nat) (s : State) : State :=
  match s.tw.st with
  | .seeding | .paired | .solo =>
    if s.tw.active ∧ ¬ s.tw.stopped.contains 1 then
      sendFrame 1 s.tw.peer 0x10 0 (kind :: fields.take 1) (emit (.record s.tw.peer kind fields) s)
    else s
  | _ => s

/-- Resend one kept frame (R309): at the limit it fails; with no usable link it fails. -/
def resendFrame (fr : TxFrame) (s : State) : State :=
  if fr.resends ≥ getF Reg.GF_RETRY.MAXRETRY s then frameFailed fr s
  else match pickLink fr.vc fr.dst s with
    | none => frameFailed fr s
    | some k =>
      let s := payResync fr.vc fr.dst s
      let same := fun (x : TxFrame) => decide (x.vc = fr.vc ∧ x.dst = fr.dst ∧ x.xseq = fr.xseq)
      let again := fun (x : TxFrame) => { x with link := k, resends := x.resends + 1 }
      let s := { s with gf := { s.gf with txFrames := updFirst s.gf.txFrames same again } }
      frameOut fr.vc fr.dst fr.ftype fr.xseq k (sendFlits k fr.vc (frameFlits fr.ftype) (bump Reg.GF_XFER.RESENT s))

/-- A routing entry after link `k` went down (R314). -/
def routeWithout (k : Nat) (r : Route) : Route :=
  let b := BitVec.ofNat 12 (r.bundle.toNat - (if r.bundle.toNat.testBit k then 2 ^ k else 0))
  if r.prim = k then
    match (List.range 12).find? (fun i => b.toNat.testBit i) with
    | some i => { r with bundle := b, prim := i }
    | none => { r with bundle := b, prim := r.alt, alt := 0xF }
  else { r with bundle := b }

/-- The content of this node's link-state report (Table 12.4). -/
def lsrFields (s : State) : List Nat :=
  s.fuses.uid :: (s.gf.node.getD 0xFFFF) :: now s ::
    (s.gf.links.flatMap (fun l => if l.up then [l.peerUid, l.peerLink] else [0, 0xFF]))

/-- Send an LSR to the coordinator (R314); the coordinator keeps its own. -/
def sendLsr (s : State) : State :=
  if s.gf.isCoord then s else sendFrame 3 s.gf.coordNode 0x30 0 [] (emit (.ctrl s.gf.coordNode 0x30 (lsrFields s)) s)

/-- Window reads whose route has failed, its alternate included, complete with Completer Abort, whether or not their RDREQ was acknowledged
(R72). -/
def failRoutes (s : State) : State :=
  let lost := s.gf.pendRd.filter (fun x => (pickLink 2 x.2.2.2.2 s).isNone)
  lost.foldl (fun t x => caCpl x.2.1 x.2.2.1 t)
    { s with gf := { s.gf with pendRd := s.gf.pendRd.filter (fun x => !lost.contains x) } }

/-- A link goes down (R304, R314): every BUNDLE loses it, unacknowledged frames sent on it go again on a remaining route, the
coordinator hears of it, and Fabric Status Changed is posted. -/
def linkDown (k : Nat) (s : State) : State :=
  if ¬ (getLink k s).up then s
  else
    let s := updLink k (fun l => { l.fresh with st := 0 }) s
    let s := { s with gf := { s.gf with routes := s.gf.routes.map (fun e => (e.1, routeWithout k e.2)) } }
    let s := flagOn Reg.GF_ERR.LINKDOWN s
    let lostOn := s.gf.txFrames.filter (fun x => x.link == k)
    let s := lostOn.foldl (fun t fr => updLink k (fun l => { l with reroutes := l.reroutes + 1 }) (resendFrame fr t)) s
    failRoutes (evFabric (sendLsr s))

/-- Every link that is up goes down, the lowest first. -/
def allLinksDown (s : State) : State := (List.range 12).foldl (fun t k => linkDown k t) s

/-! Routes from link-state reports (R312, R313). -/

/-- This node's own report. -/
def ownReport (s : State) : Lsr :=
  ⟨s.fuses.uid, s.gf.node, s.prov.prefNode, s.gf.links.zipIdx.map (fun x => ⟨x.2, x.1.peerUid, x.1.peerLink, x.1.up⟩)⟩

/-- Insert by ascending unique ID. -/
def insLsr (a : Lsr) : List Lsr → List Lsr
  | [] => [a]
  | b :: t => if a.uid < b.uid then a :: b :: t else b :: insLsr a t

/-- Every report the coordinator holds, its own included, in ascending unique ID. -/
def allLsrs (s : State) : List Lsr := insLsr (ownReport s) (s.gf.lsrs.filter (fun r => r.uid != s.fuses.uid))

/-- The lowest ID no list holds. -/
def freeNode (used : List Nat) : (fuel n : Nat) → Nat
  | 0, n => n
  | f + 1, n => if used.contains n then freeNode used f (n + 1) else n

/-- IDs already held: of two holders of one ID the lower unique ID keeps it (R316). -/
def heldIds : List Lsr → List (Nat × Nat) → List (Nat × Nat)
  | [], acc => acc
  | r :: t, acc => match r.node with
    | some n => if acc.any (fun x => x.2 == n) then heldIds t acc else heldIds t (acc ++ [(r.uid, n)])
    | none => heldIds t acc

/-- Assign the rest in ascending unique ID: the preferred ID if free, else the lowest free one. A held-out node gets none (R312, R316). -/
def assignIds : List Lsr → List (Nat × Nat) → List (Nat × Nat)
  | [], acc => acc
  | r :: t, acc =>
    if r.node.isSome then assignIds t acc
    else
      let used := acc.map (·.2)
      let n := match r.pref with
        | some p => if used.contains p then freeNode used 4096 0 else p
        | none => freeNode used 4096 0
      assignIds t (acc ++ [(r.uid, n)])

/-- Unique IDs and node IDs of the fabric. -/
def nodeIds (ls : List Lsr) : List (Nat × Nat) := assignIds ls (heldIds ls [])

/-- Neighbours of a node, by link. -/
def neighbours (ls : List Lsr) (u : Nat) : List (Nat × Nat) := match ls.find? (fun r => r.uid == u) with
  | some r => (r.links.filter (·.up)).map (fun k => (k.link, k.peerUid))
  | none => []

/-- Hop counts from a node, itself excluded from the paths of others by leaving it out of `ls`. -/
def hopsFrom (ls : List Lsr) : (fuel d : Nat) → List Nat → List (Nat × Nat) → List (Nat × Nat)
  | 0, _, _, seen => seen
  | f + 1, d, front, seen =>
    let next := ((front.flatMap (fun u => (neighbours ls u).map (·.2))).filter (fun u => !seen.any (fun x => x.1 == u))).eraseDups
    if next = [] then seen else hopsFrom ls f (d + 1) next (seen ++ next.map (fun u => (u, d + 1)))

/-- Hops between two nodes. -/
def hopsBetween (ls : List Lsr) (a b : Nat) : Option Nat := ((hopsFrom ls 16 0 [a] [(a, 0)]).find? (fun x => x.1 == b)).map (·.2)

/-- One routing entry of node `u` toward `t` (R313). -/
def routeEntry (ls : List Lsr) (u t : Nat) : Route :=
  let rest := ls.filter (fun r => r.uid != u)
  let via := (neighbours ls u).filterMap (fun k => (hopsBetween rest k.2 t).map (fun d => (k.1, d + 1)))
  let best := minOf (via.map (·.2)) 17
  if best > 16 then routeNone
  else
    let inB := (via.filter (fun x => x.2 == best)).map (·.1)
    let out := via.filter (fun x => x.2 != best)
    let alt := minOf ((out.filter (fun x => x.2 == minOf (out.map (·.2)) 17)).map (·.1)) 0xF
    ⟨minOf inB 0xF, alt, BitVec.ofNat 12 (inB.foldl (fun m k => m + 2 ^ k) 0), best, true⟩

/-- Every entry of a node, by node ID; its own entry is local: valid with no hops. -/
def routeTable (ls : List Lsr) (ids : List (Nat × Nat)) (u : Nat) : List (Nat × Route) :=
  ids.foldl (fun m x => sPut m routeNone x.2 (if x.1 = u then ⟨0xF, 0xF, 0, 0, true⟩ else routeEntry ls u x.1)) []

/-- Send the tables and the EPOCH of the next epoch to one node, along the new routes (R312, R315). -/
def sendTables (num at_ dst : Nat) (s : State) : State :=
  let s := (List.range 4).foldl (fun t _ => sendFrame 3 dst 0x31 0 [] t) s
  sendFrame 0 dst 0x05 0 [] (emit (.ctrl dst 0x05 [num, at_]) s)

/-- The coordinator assigns IDs, computes the tables and sends them with an EPOCH 500 µs ahead, the least that R315 allows. -/
def distribute (s : State) : State :=
  let ls := allLsrs s
  let ids := nodeIds ls
  let mine := (ids.find? (fun x => x.1 == s.fuses.uid)).map (·.2)
  let s := match mine with
    | some n => { s with gf := { s.gf with node := some n, coordNode := n, heldOut := false } }
    | none => if s.gf.heldOut then s else evFabric (flagOn Reg.GF_ERR.HELDOUT { s with gf := { s.gf with heldOut := true } })
  let num := (s.gf.epoch + 1) % 65536
  let at_ := now s + 500000
  let new := routeTable ls ids s.fuses.uid
  let old := s.gf.routes
  let others := ids.filter (fun x => x.1 != s.fuses.uid)
  let s := others.foldl (fun t x => sendTables num at_ x.2 t) { s with gf := { s.gf with routes := new } }
  { s with gf := { s.gf with routes := old, aside := new, asideEpoch := num, epochAt := some (num, at_) } }

/-- A link changed state: the coordinator hears of it, or as coordinator sends new tables under a new epoch (R314). -/
def topologyChanged (s : State) : State := if s.gf.isCoord then distribute s else sendLsr s

/-! The links of PS4 (R405). -/

/-- PS4 keeps the link of heartbeat path A, and the PRIM link toward the coordinator. -/
def ps4Keeps (k : Nat) (s : State) : Bool :=
  (s.tw.st != .none && s.tw.hbLink == k) || (!s.gf.isCoord && (routeTo s.gf.coordNode s).valid && (routeTo s.gf.coordNode s).prim == k)

/-- A link that the power state in force keeps down. -/
def ps4Cut (k : Nat) (s : State) : Bool := s.gen.mode == .lowpower && s.sh.ps == .ps4 && !ps4Keeps k s

/-- The links that PS4 does not keep go down, and the fabric reroutes around them. -/
def ps4Links (s : State) : State :=
  let cut := (List.range 12).filter (fun k => ps4Cut k s && (getLink k s).up)
  let s' := cut.foldl (fun t k => linkDown k t) s
  if cut ≠ [] ∧ s.gf.isCoord then distribute s' else s'

end Sys2Proof.Machine
end

