-- ==== Sys2Proof/Machine/MemOps.lean ====
section
/-! DEFINITION. Lines of the memories that hosts and remote nodes write: bytes, poison and merge entries (R65, R78, R289, R291, R292, R297,
R298). -/
namespace Sys2Proof.Machine

/-- A line is 64 bytes (R288). -/
def lineBytes : Nat := 64

/-- Write bytes from an offset up into a store of bytes that reads 0 where nothing is listed. -/
def putBytes (l : List (Nat × Byte)) (off : Nat) : List Byte → List (Nat × Byte)
  | [] => l
  | b :: t => putBytes (sPut l 0 off b) (off + 1) t

/-- Read `n` bytes. -/
def getBytes (l : List (Nat × Byte)) (off n : Nat) : List Byte := (List.range n).map (fun i => sGet l 0 (off + i))

/-- The lines that [off, off + n) touches. -/
def linesOf (off n : Nat) : List Nat :=
  if n = 0 then [] else (List.range ((off + n - 1) / 64 - off / 64 + 1)).map (fun i => off / 64 + i)

/-- The bytes of line `line` that [off, off + n) covers, as a 64-bit mask. -/
def lineMask (off n line : Nat) : Nat :=
  let lo := Nat.max off (64 * line) - 64 * line
  let hi := Nat.min (off + n) (64 * line + 64) - 64 * line
  if hi ≤ lo then 0 else 2 ^ hi - 2 ^ lo

/-- A full line's mask. -/
def fullMask : Nat := 2 ^ 64 - 1

/-- Lines of the controller memory buffer as merge entries name them: beyond the 48-bit device address space. -/
def cmbLineKey (p : Port) (line : Nat) : Nat := 2 ^ 48 + portNum p * 2 ^ 40 + line

/-- The device address of an offset into the exported region: GF_EXPBASE + o (R317). -/
def expAddr (off : Nat) (s : State) : Nat := s.prov.expBase * 2 ^ 20 + off

/-- An entry completes by read, check, merge and rewrite (R292). The bytes were applied when they arrived; the line's poison is settled. -/
def mergeDone (line : Nat) (s : State) : State :=
  if s.me.merges.any (fun m => m.line == line) then
    { s with me := { s.me with merges := s.me.merges.filter (fun m => m.line != line), mergeCnt := s.me.mergeCnt + 1 } }
  else s

/-- The entries of lines about to be read, or written whole, complete first. -/
def mergesDone (ls : List Nat) (s : State) : State := ls.foldl (fun t l => mergeDone l t) s

/-- A sub-line write joins its line's entry, or opens one; the 17th entry of a port makes the oldest complete (R291, R292). A full mask writes
the line with no read. -/
def mergeIn (port line mask : Nat) (ep : Bool) (s : State) : State :=
  match s.me.merges.find? (fun m => m.line == line) with
  | some m =>
    let m' : Merge := { m with mask := m.mask ||| mask, poison := m.poison || ep }
    if m'.mask = fullMask then { s with me := { s.me with merges := s.me.merges.filter (fun x => x.line != line) } }
    else { s with me := { s.me with merges := updFirst s.me.merges (fun x => x.line == line) (fun _ => m') } }
  | none =>
    let mine := s.me.merges.filter (fun m => m.port == port)
    let s := match mine with
      | m :: _ => if mine.length ≥ 16 then bump Reg.ME_MERGE.EVICT (mergeDone m.line s) else s
      | [] => s
    { s with me := { s.me with merges := s.me.merges ++ [⟨port, line, mask, ep⟩] } }

/-- Whether a line is poisoned after a write of some of its bytes (R292, R297): poison stays or comes with the write; a line whose every byte
was written clean is good. -/
def poisonAfter (was ep : Bool) (line mask : Nat) (s : State) : Bool :=
  if mask = fullMask then ep
  else match s.me.merges.find? (fun m => m.line == line) with
    | some m => if m.mask ||| mask = fullMask then m.poison || ep else was || m.poison || ep
    | none => was || ep

/-- Write one line's share of a write: its poison in the list `pl`, and its merge entry. -/
def lineWrite (port key line mask : Nat) (ep : Bool) (pl : List Nat) (s : State) : List Nat × State :=
  let bad := poisonAfter (pl.contains line) ep key mask s
  let pl := if bad then addOnce pl line else pl.filter (fun x => x != line)
  if mask = fullMask then (pl, mergeDone key s) else (pl, mergeIn port key mask ep s)

/-- Write every line of a write. -/
def linesWrite (port : Nat) (key : Nat → Nat) (off n : Nat) (ep : Nat → Bool) (pl : List Nat) (s : State) : List Nat × State :=
  (linesOf off n).foldl (fun a l => lineWrite port (key l) l (lineMask off n l) (ep l) a.1 a.2) (pl, s)

/-- Write into the exported region at an offset (R291: port `meport`); `ep` says which device lines arrive poisoned. -/
def expWrite (meport off : Nat) (data : List Byte) (ep : Nat → Bool) (s : State) : State :=
  let r := linesWrite meport id (expAddr off s) data.length ep s.me.poisoned s
  let s := r.2
  { s with me := { s.me with exported := putBytes s.me.exported off data, poisoned := r.1 } }

/-- Whether any line of a range of the exported region is poisoned. -/
def expPoisoned (off n : Nat) (s : State) : Bool := (linesOf (expAddr off s) n).any (fun l => s.me.poisoned.contains l)

/-- Reads complete open merge entries on their lines first. -/
def expReadPrep (off n : Nat) (s : State) : State := mergesDone (linesOf (expAddr off s) n) s

/-- Bytes of the exported region (GF_EXPCTL). -/
def expSize (s : State) : Nat := expBufs s * 4096

end Sys2Proof.Machine
end

