-- ==== Sys2Proof/Machine/WinOps.lean ====
section
/-! DEFINITION. Window accesses: translation, the wait for an earlier destination's acknowledgement, and the access itself (R66, R70, R71,
R29, R317). -/
namespace Sys2Proof.Machine

/-- The window that covers an aperture offset, of the enabled entries of a set (R66). -/
def findWin (set : List (Nat × Win)) (off : Nat) : Option Win :=
  (set.find? (fun e => e.2.en && decide (e.2.base * 2 ^ 20 ≤ off ∧ off < e.2.base * 2 ^ 20 + 2 ^ (e.2.size + 20)))).map (·.2)

/-- The device address an offset translates to. -/
def Win.addr (w : Win) (off : Nat) : Nat := w.tgt * 2 ^ 20 + (off - w.base * 2 ^ 20)

/-- Bit 47 marks a remote address (R29). -/
def isRemote (addr : Nat) : Bool := addr.testBit 47
/-- The node of a remote address. -/
def remoteNode (addr : Nat) : Nat := addr / 2 ^ 35 % 2 ^ 12
/-- The offset of a remote address. -/
def remoteOff (addr : Nat) : Nat := addr % 2 ^ 35

/-- What a 48-bit device address is (Table 1.6). -/
inductive AddrKind where
  | sram
  | setup
  | dram
  | remote
  | unmapped
  deriving DecidableEq, Repr

/-- Table 1.6; of the DRAM range only the installed size is mapped, from the base upward. -/
def addrKind (addr : Nat) (s : State) : AddrKind :=
  if isRemote addr then .remote
  else if addr < 0x3000000 then .sram
  else if addr < 0x10000000 then .unmapped
  else if addr < 0x20000000 then .setup
  else if addr < 2 ^ 32 then .unmapped
  else if addr < 2 ^ 32 + Nat.min s.me.dramGiB 512 * 2 ^ 30 then .dram
  else .unmapped

/-- The destination of a device address: a node, or the local exported region, to which the own node ID also leads (R29). -/
def destOf (addr : Nat) (s : State) : Option Nat :=
  if isRemote addr ∧ s.gf.node ≠ some (remoteNode addr) then some (remoteNode addr) else none

/-- The offset into the local exported region that a local destination's address names. -/
def localOff (addr : Nat) (s : State) : Nat :=
  if isRemote addr then remoteOff addr else addr - s.prov.expBase * 2 ^ 20

/-- A local address lies wholly in the exported region. -/
def localOk (addr len : Nat) (s : State) : Bool :=
  decide ((isRemote addr ∨ s.prov.expBase * 2 ^ 20 ≤ addr) ∧ localOff addr s + len ≤ expSize s)

/-- A request waits (R71) while a posted write to another destination is unacknowledged, or stands ahead of it. -/
def mustWait (d : Option Nat) (h : HostPort) : Bool :=
  h.unacked.any (fun u => u != d) || h.heldTlps.any (fun t => !t.isRead && t.dest != d) || h.heldTlps.any (fun t => t.dest == d)

/-- A frame tag for a host's read: the port and the host's 14-bit tag. -/
def rdTag (p : Port) (tag : Nat) : Nat := portNum p * 2 ^ 14 + tag

/-- A read of the local region completes with its data; poison makes it an EP completion, counted (R78, R298). -/
def localRead (p : Port) (t : HeldTlp) (s : State) : State :=
  if ¬ localOk t.addr t.len s then caCpl p t.tag s
  else
    let off := localOff t.addr s
    let s := expReadPrep off t.len s
    let bad := expPoisoned off t.len s
    let s := if bad then bump (portF p Reg.HE_EPCNT.A_COUNT Reg.HE_EPCNT.B_COUNT) (poisonConsumed (expAddr off s) s) else s
    readCpl p t.tag t.off (getBytes s.me.exported off t.len) bad s

/-- Perform a window access at its destination (Table 3.7). For a write `tag` holds the requester ID. -/
def winGo (p : Port) (t : HeldTlp) (s : State) : State :=
  match t.dest with
  | none =>
    if t.isRead then localRead p t s
    else if ¬ localOk t.addr t.data.length s then winLog p 3 t.off t.tag s
    else
      let s := expWrite 0 (localOff t.addr s) t.data (fun _ => t.ep) s
      s.updPort p (fun h => { h with unacked := h.unacked ++ [none] })
  | some n =>
    if (pickLink 2 n s).isNone then
      if t.isRead then caCpl p t.tag s else winLog p 2 t.off t.tag s
    else if t.isRead then
      let s := { s with gf := { s.gf with pendRd := s.gf.pendRd ++ [(rdTag p t.tag, p, t.tag, t.len, n)] } }
      sendFrame 2 n 0x20 (rdTag p t.tag) [portNum p, t.off, t.tag] (emit (.remote n true (remoteOff t.addr) t.len [] 0) s)
    else
      let s := s.updPort p (fun h => { h with unacked := h.unacked ++ [some n] })
      sendFrame 2 n 0x22 0 [portNum p, t.off, t.tag] 
        (emit (.remote n false (remoteOff t.addr) t.data.length t.data (if t.ep then 2 ^ ceilDiv t.data.length 64 - 1 else 0)) s)

/-- Submit an access: it waits behind earlier destinations, or goes. -/
def winSubmit (p : Port) (t : HeldTlp) (s : State) : State :=
  if mustWait t.dest (s.port p) then s.updPort p (fun h => { h with heldTlps := h.heldTlps ++ [t] }) else winGo p t s

/-- Submit the accesses that waited again, in their order. -/
def releaseHeld (p : Port) (s : State) : State :=
  let l := (s.port p).heldTlps
  l.foldl (fun u t => winSubmit p t u) (s.updPort p (fun h => { h with heldTlps := [] }))

/-- Both ports' waiting accesses. -/
def releaseAll (s : State) : State := releaseHeld .b (releaseHeld .a s)

end Sys2Proof.Machine
end

