-- ==== Sys2Proof/Machine/ResetOps.lean ====
section
/-! DEFINITION. The resets of Table 2.4a and the entry to QUARANTINE, shared by the commands that cause them (R36, R43, R44, R50,
R335, R367). -/
namespace Sys2Proof.Machine

/-! What a reset does to commands in flight (R44). -/

/-- Save slots are 256 bytes, 16 to a 4 KiB buffer of the digest owner: what the open contexts need is held, and no more (R345). -/
def fitSlots (s : State) : State :=
  let need := ceilDiv (s.dg.ctxs.filter (fun c => decide (1 ≤ c.2.st ∧ c.2.st ≤ 3))).length 16
  let have_ := s.dg.slotBufs
  if have_.length < need then match bpAlloc 6 (need - have_.length) false s with
    | (some is, t) => { t with dg := { t.dg with slotBufs := have_ ++ is } }
    | (none, t) => t
  else putBufs (have_.drop need) { s with dg := { s.dg with slotBufs := have_.take need } }

/-- The digest contexts of Fixity Digest commands that are gone close, and give up their lanes (R354). -/
def closeFixity (dead : Nat → Bool) (s : State) : State :=
  fitSlots { s with dg := { s.dg with ctxs := s.dg.ctxs.filter (fun c => !(match c.2.params with
    | some p => (match p.requester with
      | .fixity k => dead k
      | _ => false)
    | none => false)) } }

/-- Commands end without a completion: buffers that no staging record owns are freed, and nothing waits for them any more. What they
committed stays staged. -/
def killCmds (dead : IoCmd → Bool) (s : State) : State :=
  let ids := (s.cmds.filter dead).map (·.id)
  let s1 := closeFixity ids.contains (putBufs ((s.cmds.filter dead).flatMap (·.bufs)) s)
  let live := fun (x : Nat) => !ids.contains x
  let s2 := { s1 with
    cmds := s1.cmds.filter (fun c => live c.id),
    fs := { s1.fs with bookings := s1.fs.bookings.filter (fun b => b.cmd.all live) },
    mx := { s1.mx with
      ceilWait := s1.mx.ceilWait.filter live,
      staged := s1.mx.staged.map (fun (r : Staged) => { r with readers := r.readers.filter live }) },
    tw := { s1.tw with winWait := s1.tw.winWait.filter live },
    mm := { s1.mm with vatPages := s1.mm.vatPages.map (fun (v : VatPage) => { v with cmds := v.cmds.filter live }) } }
  (s2.mx.staged.map (·.stidx)).foldl (fun t i => releaseStaged i t) s2

/-- A controller after its queues are cleared: the features it holds go to their defaults (R98); its Error Information and self-test
logs stay. -/
def Ctl.cleared (c : Ctl) : Ctl :=
  { Ctl.reset with errLog := c.errLog, errCount := c.errCount, selfTests := c.selfTests }

/-- QE state and queues of one function are cleared (Table 2.4a). QUARANTINE holds CSTS.CFS at 1 (Table 2.1). -/
def clearQe (p : Port) (s : State) : State :=
  let s := killCmds (fun c => decide (c.port = p)) s
  let s := s.updCon p (fun c => { c.cleared with cfs := decide (s.gen.mode = .quarantine) })
  { s with
    tw := { s.tw with waitCmd := if s.tw.waitCmd.any (fun w => decide (w.1 = p)) then none else s.tw.waitCmd },
    mg := { s.mg with fwWait := if s.mg.fwWait.any (fun w => decide (w.1 = p) && !w.2.2) then none else s.mg.fwWait },
    nsWait := s.nsWait.map (fun (w : NsWait) => if w.port = p then { w with cid := none } else w) }

/-- Reads outstanding at a function reset: each tag stays taken until its completion or its timeout (R76). -/
def deadTags (h : HostPort) : List Tag := h.tags.map (fun t => { t with dead := true })

/-- A function's configuration space as after an FLR (R79): BARs, Command register and MSI-X go back; CMB contents, window tables and
the link stay, and with them what PCI Express Base 6.0 has an FLR keep: MPS, ASPM Control, the Read Completion Boundary and the sticky AER
registers. -/
def HostPort.flr (h : HostPort) : HostPort :=
  { HostPort.reset with
    up := h.up, rate := h.rate, width := h.width, flit := h.flit, recovery := h.recovery, staging := h.staging,
    active := h.active, copyBusy := h.copyBusy, winGen := h.winGen, unacked := h.unacked, heldTlps := h.heldTlps,
    cmb := h.cmb, cmbPoison := h.cmbPoison, tags := deadTags h, mps := h.mps, aspmL1 := h.aspmL1, rcb := h.rcb, aer := h.aer }

/-- A port after its host island was cleared: only the CMB contents (R65) and the tags still owed a completion stay. -/
def HostPort.conventional (h : HostPort) : HostPort :=
  { HostPort.reset with cmb := h.cmb, cmbPoison := h.cmbPoison, tags := deadTags h }

/-- A field key lies in a range of BAR0 offsets. -/
def keyIn (lo hi key : Nat) : Bool := decide (lo ≤ key / 8 ∧ key / 8 < hi)

/-- The Locked fields of a range of registers take their provisioned values (R50): a value that was not recorded is the reset value. -/
def loadLocked (lo hi : Nat) (s : State) : State :=
  if ¬ s.prov.valid then s
  else
    let s := { s with regs := s.regs.filter (fun r => !(keyIn lo hi r.1 && lockedKeys.contains r.1)) }
    s.prov.locked.foldl (fun t e => if keyIn lo hi e.1 then { t with regs := sIns t.regs e.1 e.2 } else t) s

/-- Fields counted since power-on in islands that a reset short of a power-on reset clears. -/
def sincePowerOn : List Nat :=
  [Reg.HE_LINKREC_A.COUNT, Reg.HE_LINKREC_B.COUNT, Reg.CS_TAKEOVER.COUNT, Reg.GF_TOFFS.STEPS,
   Reg.GF_DISC.COUNT, Reg.TW_TAKE.COUNT, Reg.DG_RNG.FAILS, Reg.DG_RNG.RESEEDS].map (·.key)

/-- A Conventional reset (Table 2.4a): the host island and the QE state of both functions. -/
def conventional (s : State) : State :=
  let s := clearQe .b (clearQe .a s)
  let s := { s with
    he := ⟨s.he.a.conventional, s.he.b.conventional⟩,
    regs := s.regs.filter (fun r => decide (¬ (0x88000 ≤ r.1 / 8 ∧ r.1 / 8 < 0x90000)) || sincePowerOn.contains r.1) }
  loadLocked 0x88000 0x90000 s

/-- A Conventional reset of one port's function, as a Surprise Down is handled (R59). -/
def conventionalPort (p : Port) (s : State) : State :=
  (clearQe p s).updPort p HostPort.conventional

/-! The digest engine's lanes, which a management reset touches. -/

/-- Change a digest context. -/
def updCtx (i : Nat) (f : Ctx → Ctx) (s : State) : State :=
  { s with dg := { s.dg with ctxs := sUpd s.dg.ctxs .closed i f } }

/-- A digest context. -/
def getCtx (i : Nat) (s : State) : Ctx := sGet s.dg.ctxs .closed i

/-- Lanes in use: contexts running, or being saved. -/
def lanesBusy (s : State) : Nat := (s.dg.ctxs.filter (fun c => c.2.st == 2)).length

/-- Contexts that wait win free lanes, in order (R352). -/
def dgFill : Nat → State → State
  | 0, s => s
  | n + 1, s => match s.dg.queue with
    | [] => s
    | c :: rest =>
      if lanesBusy s < s.dg.active then
        dgFill n (updCtx c (fun x => { x with st := 2 }) { s with dg := { s.dg with queue := rest } })
      else s

/-- Contexts that end: they fail with a cause, leave the queue, and their lanes pass on. -/
def dgFail (ids : List Nat) (cause : Nat) (s : State) : State :=
  let s := ids.foldl (fun t i => updCtx i (fun c => { c with st := 5, cause := cause, saving := false }) t) s
  let s := fitSlots { s with dg := { s.dg with queue := s.dg.queue.filter (fun i => !ids.contains i) } }
  dgFill s.dg.queue.length s

/-- Contexts that management opened. -/
def mgmtCtx (c : Ctx) : Bool := match c.params with
  | some p => match p.requester with
    | .bootRom | .patchLoad | .attestation | .firmware => true
    | _ => false
  | none => false

/-! QUARANTINE (R36, R335, R390). -/

/-- Step 3 of Table 2.4: racking and bottling halt, and copies not yet swapped into the map are abandoned. -/
def abandonCopies (s : State) : State :=
  let row := fun (r : Row) => { r with placed := r.placed.filter (fun p => p.src.isNone) }
  { s with mm := { s.mm with racking := [], openB := s.mm.openB.map (fun b => { b with rows := b.rows.map row }) } }

/-- Enter QUARANTINE by row 20, or by row 5: a fenced member first records STANDBY; host service stops with CSTS.CFS = 1, copies
not yet swapped are abandoned (Table 2.4, step 3), and the entry flush starts. -/
def enterQuarantine (row : Nat) (s : State) : State :=
  let s := if s.pins.fenceIn ∧ (s.tw.st ≠ .none ∨ s.prov.pair.isSome) then
      { s with prov := { s.prov with mode := .standby, pair := s.prov.pair.map (fun x => (x.1, false)) },
               tw := { s.tw with st := .fenced } }
    else s
  let flush := mediaMode s.gen.mode
  let s := killCmds (fun _ => true) s
  let s := enterMode row .quarantine s
  let s := { s with
    gen := { s.gen with quarFlush := flush, reqTarget := none, diagPending := false, psEntry := none },
    ctl := ⟨{ s.ctl.a with cfs := true }, { s.ctl.b with cfs := true }⟩ }
  let s := flagIf flush Reg.GEN_DRAIN.ACTIVE (abandonCopies s)
  let s := pcieError .a aerInternal false s
  if portExists .b s then pcieError .b aerInternal false s else s

/-- Row 20 applies in any mode except RESET and DRAIN; in QUARANTINE it changes nothing. -/
def quarantineNow (s : State) : State :=
  match s.gen.mode with
  | .reset | .drain | .quarantine => s
  | _ => enterQuarantine 20 s

/-- A fatal fault (R390). -/
def fatalFault (s : State) : State :=
  match s.gen.mode with
  | .reset | .drain | .quarantine => s
  | _ => quarantineNow s

/-! The Y9 reset and the power-on reset. -/

/-- A cluster with a sequencer out of service: the spare serves its PHY, or nobody does (R264, R265). -/
def Cluster.without (c : Cluster) (q : Nat) : Cluster :=
  let c := { c with faulted := addOnce c.faulted q }
  match c.chmap.zipIdx.find? (fun x => x.1 == q) with
  | some x => { c with chmap := c.chmap.set x.2 (c.spare.getD 15), spare := none }
  | none => { c with spare := if c.spare = some q then none else c.spare }

/-- The sparing record is applied at every start-up: units taken out of service stay out (R391). -/
def applySparing (s : State) : State :=
  let gone := fun (r : Nat) => (s.prov.outUnits.filter (fun u => u.1 == r)).length
  let lanes := gone 3
  let out := fun k => (s.prov.outUnits.filter (fun u => decide (u.1 = 1 ∧ u.2 / 9 = k))).map (fun u => u.2 % 9)
  { s with
    dg := { s.dg with active := 32 - (lanes - 2), spare := 2 - lanes },
    mg := { s.mg with
      cores := Nat.min 16 (20 - gone 0), coreSpare := 4 - gone 0,
      engines := Nat.min 44 (48 - gone 2), engineSpare := 4 - gone 2,
      comp := Nat.min 24 (26 - gone 4), compSpare := 2 - gone 4, decomp := 26 - gone 5 },
    cs := { s.cs with clusters := s.cs.clusters.zipIdx.map (fun x => (out x.2).foldl Cluster.without x.1) } }

/-- Row 1 (R34, R409): with POR_N and PWR_FAIL_N deasserted the Y9 leaves RESET for BOOT; the Locked fields take their provisioned values
before any block is enabled (R50). -/
def rowOne (s : State) : State :=
  if s.gen.mode = .reset ∧ s.pins.porN ∧ s.pins.pwrFailN then
    let s := loadLocked 0x80000 0x100000 s
    let s := s.prov.sramOwners.foldl (fun t o => updOwner o (fun w => { w with dram := false }) t) s
    let region := expBufs s
    -- owner 10 is set again from GF_EXPCTL at the same moment (R50, R317)
    enterMode 1 .boot <| applySparing (updOwner 10 (fun o => { o with min := region, cap := region }) s)
  else s

/-- What the media hold when a reset strikes. Before start-up has read them they hold what they held. -/
def physNow (s : State) : Phys :=
  if s.mx.recovered then
    ⟨s.mm.blocks, s.mm.barrels, s.mm.openB, s.mm.vat, s.mm.replaced, s.sp.groups, s.sp.spares, s.sp.failedDies⟩
  else s.nand.phys

/-- What a link keeps over a Y9 reset: what log C3h and GF_LINKSTAT report "since power-on". -/
def GLink.afterReset (l : GLink) : GLink :=
  { GLink.reset with peerUid := l.peerUid, peerNode := l.peerNode, peerLink := l.peerLink, retrains := l.retrains }

/-- Buffers withdrawn for good stay withdrawn over every reset, held by nobody (R391). -/
def withdrawnBufs (s : State) : List (Nat × Buf) :=
  (s.bp.bufs.filter (fun b => b.2.withdrawn)).map (fun b => (b.1, ⟨true, none, 0, false, true⟩))

/-- Every island except always-on is cleared (Table 2.4a): GEN, MG, FF and FI, device time, the pins and everything kept without power
stay. -/
def clearIslands (s : State) : State :=
  { State.reset with
    pending := s.pending, freeCtr := s.freeCtr, out := s.out, time := s.time, pins := s.pins, gen := s.gen,
    regs := s.regs.filter (fun r =>
      decide (r.1 / 8 < 0x88000) || decide (0xF0000 ≤ r.1 / 8) || sincePowerOn.contains r.1),
    eff := s.eff.filter (fun r => decide (r.1 / 8 < 0x88000) || decide (0xF0000 ≤ r.1 / 8)),
    mg := { s.mg with run := false, activation := none, fwWait := none, newImg := none }, fi := s.fi,
    nand := { s.nand with phys := physNow s }, ff := s.ff, prov := s.prov,
    fuses := s.fuses, defFaults := s.defFaults, lost := s.lost,
    sh := { Shared.reset with dfTotal := s.sh.dfTotal, lostTotal := s.sh.lostTotal, lostOver := s.sh.lostOver,
                              sanState := s.sh.sanState },
    me := { Me.reset with repaired := s.me.repaired, remap := s.me.remap, repairAt := s.me.repairAt,
                          remapAt := s.me.remapAt },
    gf := { Gf.reset with links := s.gf.links.map GLink.afterReset },
    bp := { Bp.reset with bufs := withdrawnBufs s, pools := s.bp.pools.map (fun (p : Pool) => ⟨false, [], [], 0, p.qcount⟩) },
    -- the class counters are cleared only by a power-on reset (R145)
    fs := { Fs.reset with classes := s.fs.classes, exts := s.fs.exts } }

/-- A Y9 reset (Table 2.4a). `clean` runs the clean-stop sequence first; `row` is the row that enters RESET. Row 1 follows at once while the
pins allow it. -/
def y9Reset (clean : Bool) (row : Nat) (s : State) : State :=
  let s := if clean then cleanStop s else { s with gen := { s.gen with cleanStop := false } }
  let done := s.gen.cleanStop
  let s := clearIslands (enterMode row .reset s)
  let s := flagOff Reg.GEN_DRAIN.ACTIVE (flagIf (row != 23) Reg.GEN_RSTCAUSE.Y9RST s)
  let s := { s with gen := { s.gen with
    bootVerified := false, hostReleased := false, quarFlush := false, reqTarget := none,
    diagPending := false, psEntry := none, bootRow := 0, otherOk := false, cleanStop := done } }
  rowOne s

/-- An FF command abandoned by a reset: an ERASE leaves its BEGIN marker with no END; a PROGRAM leaves its word and its partner word in any
state (R367, R378). -/
def abandonFf (s : State) : State :=
  match s.ff.busy with
  | some (2, addr, _) =>
    let partner := if addr % 4096 < 2048 then addr + 2048 else addr - 2048
    let ones := 2 ^ 64 - 1
    let w1 := Config.freeValue s.freeCtr % 2 ^ 64
    let w2 := Config.freeValue (s.freeCtr + 1) % 2 ^ 64
    let s := tickFree (tickFree s)
    { s with ff := { s.ff with busy := none, words := sPut (sPut s.ff.words ones addr w1) ones partner w2 } }
  | _ => { s with ff := { s.ff with busy := none } }

/-- The last stop was a clean one (R39): the clean stop ran, start-up had not begun again, and nothing changed since. -/
def stillClean (s : State) : Bool :=
  s.gen.cleanStop && s.gen.mode != .boot && !s.mx.dirty && s.mx.jpend.isEmpty

/-- A power-on reset (Table 2.4a): every island; only flash, fuses and the firmware flash are kept. Device time restarts at the newest
time mark plus 10 s (R320). A flash command that runs is cut off (R378, R380). The rails were off, VCCQ_NAND among them: every die is in SDR (R256,
log entry 118). -/
def powerOnReset (s : State) : State :=
  let s := abandonFf s
  { State.reset with
    pending := s.pending, freeCtr := s.freeCtr, out := s.out, nand := { s.nand with phys := physNow s, iface := [] }, ff := s.ff, prov := s.prov, fuses := s.fuses,
    lost := s.lost,
    sh := { Shared.reset with lostTotal := s.sh.lostTotal, lostOver := s.sh.lostOver, sanState := s.sh.sanState },
    me := { Me.reset with repaired := s.me.repaired, remap := s.me.remap, repairAt := s.me.repairAt, remapAt := s.me.remapAt },
    bp := { Bp.reset with bufs := withdrawnBufs s },
    pins := { Pins.reset with pwrFailN := s.pins.pwrFailN, fenceIn := s.pins.fenceIn, hbIn := s.pins.hbIn,
                              huGood := s.pins.huGood },
    time := ⟨s.ff.timeMark + 10000000000, s.ff.timeMark + 10000000000, 0⟩,
    gen := { Gen.reset with prev := s.gen.mode, cause := 24, cleanStop := stillClean s },
    mg := { Mg.reset with nextSeq := s.mg.nextSeq, drainLost := s.mg.drainLost } }

/-! The management reset (R367). -/

/-- A management reset, its cause flag given (R367, R368, R80, R353). In DRAIN and RESET it is ignored (R43). A third within 10 s is a
fatal fault. -/
def managementReset (flag : Field) (s : State) : State :=
  match s.gen.mode with
  | .reset | .drain => s
  | _ =>
    let s := flagOn flag (bump Reg.MG_STAT.MGRESETS s)
    let recent := (s.mg.resets.filter (fun t => decide (now s < t + 10000000000))) ++ [now s]
    let s := { s with
      mg := { s.mg with run := false, resets := recent, activation := none },
      dg := { s.dg with sessions := [], spdmWait := [], spdm := [], kctxGen := s.dg.kctxGen + 1 },
      he := ⟨{ s.he.a with doeReq := none, doeResp := [], doeBusy := true, doeWait := none },
             { s.he.b with doeReq := none, doeResp := [], doeBusy := true, doeWait := none }⟩ }
    let s := flagOff Reg.FF_STATUS.BUSY (abandonFf (setF Reg.MG_WDOG.PERIOD Reg.MG_WDOG.PERIOD.rst s))
    let own := (s.dg.ctxs.filter (fun c => mgmtCtx c.2 && (c.2.st == 1 || c.2.st == 2 || c.2.st == 3))).map (·.1)
    let s := dgFail own 6 s
    if recent.length ≥ 3 then fatalFault s else s

end Sys2Proof.Machine
end

