-- ==== Sys2Proof/Machine/LogOps.lean ====
section
/-! DEFINITION. Writing the event log to the firmware flash (R373 to R376), steps of device time (R319), write-through (R393) and the DRAIN
flush (R47), each shared by several commands. -/
namespace Sys2Proof.Machine

/-! The event log in flash. -/

/-- Entries the ring holds: 2,048 sectors of 32, two of them kept erased ahead of the write position (R373). -/
def ringCap : Nat := 65472

/-- Append an entry to the ring; a full ring first loses its oldest sector. -/
def ringPut (e : LogEntry) (f : Ff) : Ff :=
  { f with ring := (if f.ring.length ≥ ringCap then f.ring.drop 32 else f.ring) ++ [e] }

/-- Critical entries also go to the protected area, while it has room (R374); the flag says it was full. -/
def protPut (e : LogEntry) (f : Ff) : Ff × Bool :=
  if e.sev ≠ 3 then (f, false)
  else
    -- a sector (32 entries) whose every entry is acknowledged gives up its place
    let p := if f.prot.length ≥ 1024 ∧ (f.prot.take 32).all (·.2) then f.prot.drop 32 else f.prot
    if p.length < 1024 then ({ f with prot := p ++ [(e, false)] }, false) else (f, true)

/-- Unacknowledged protected entries (MG_LOGSTAT.UNACK). -/
def unackCount (s : State) : Nat := (s.ff.prot.filter (fun e => !e.2)).length

/-- Write one entry to flash. -/
def flashPut (e : LogEntry) (s : State) : State :=
  let r := protPut e (ringPut e s.ff)
  flagIf r.2 Reg.MG_LOGSTAT.PFULL { s with ff := r.1 }

/-- Entries that were dropped are recorded under code 0x0001 by the next entry written (R375). -/
def recordDropped (s : State) : State :=
  if s.mg.droppedNow = 0 then s
  else
    let e : LogEntry := ⟨now s, s.mx.csn, s.mg.nextSeq, 0x0001, 1, 14, [s.mg.droppedNow], 1⟩
    flashPut e { s with mg := { s.mg with droppedNow := 0, nextSeq := s.mg.nextSeq + 1 } }

/-- Write up to `n` pending entries, oldest first. -/
def flushLog (n : Nat) (s : State) : State :=
  if n = 0 ∨ s.mg.pend = [] then s
  else
    let s := recordDropped s
    let w := s.mg.pend.take n
    w.foldl (fun t e => flashPut e t) { s with mg := { s.mg with pend := s.mg.pend.drop n } }

/-- In DRAIN up to 64 pending entries are written, critical entries first; the count of the rest is kept for the next start-up (R376). -/
def drainLog (s : State) : State :=
  let order := s.mg.pend.filter (fun e => e.sev == 3) ++ s.mg.pend.filter (fun e => e.sev != 3)
  let rest := order.length - 64
  let s := (order.take 64).foldl (fun t e => flashPut e t) s
  { s with mg := { s.mg with pend := [], drainLost := s.mg.drainLost + rest } }

/-! Device time. -/

/-- Device time steps forward by `ns`, a multiple of 4,000 (R319): fret numbers on FS's lines, T0s and deadlines of commands in flight move
with it. The step is logged and counted. -/
def timeStep (ns : Nat) (s : State) : State :=
  let k := ns / 4000
  let s := corrected ns (advance ns s)
  let book := fun (b : Booking) => { b with start := b.start + k, deadline := b.deadline + ns }
  let win := fun (w : Window) => { w with opens := w.opens + k, next := w.next + k }
  let cmd := fun (c : IoCmd) => { c with t0 := c.t0 + ns, deadline := c.deadline.map (· + ns) }
  let sq := fun (q : Sq) => { q with t0s := q.t0s.map (· + ns), fetched := q.fetched.map (· + ns) }
  let done := fun (d : Done) => { d with t0 := d.t0 + ns, deadline := d.deadline.map (· + ns) }
  let cq := fun (q : Cq) => { q with held := q.held.map (fun h => { h with at_ := h.at_ + ns, done := h.done.map done }) }
  let con := fun (c : Ctl) => { c with sqs := c.sqs.map sq, cqs := c.cqs.map cq }
  let s := { s with
    fs := { s.fs with
      bookings := s.fs.bookings.map book, windows := s.fs.windows.map win,
      segs := s.fs.segs.map (fun x => (x.1, x.2 + k)), turn := s.fs.turn.map (fun x => (x.1, x.2 + k)),
      horizon := s.fs.horizon.map (fun x => (x.1 + k, x.2)) },
    cmds := s.cmds.map cmd,
    ctl := ⟨con s.ctl.a, con s.ctl.b⟩ }
  flagOn Reg.GF_ERR.TIMESTEP (bump Reg.GF_TOFFS.STEPS (logEvent 0x0501 0 11 true [ns] s))

/-- Correct device time that is `behind` ns behind its reference: a step by whole multiples of 4,000 ns when it is more than 4,000 behind, and
the rest slewed (R318, R320). -/
def correctBehind (behind : Nat) (s : State) : State :=
  if behind ≤ 4000 then { s with gf := { s.gf with slew := behind } }
  else
    let r := behind % 4000
    let s := timeStep (behind - r) s
    { s with gf := { s.gf with slew := r } }

/-- This node is the time master: it takes TSYNC_IN, or no node does and it is coordinator (R318). The model knows of other nodes' TSYNCEN
only through its own role, so a node with TSYNCEN set counts as master. -/
def timeMaster (s : State) : Bool := isOn Reg.GF_CFG.TSYNCEN s || s.gf.isCoord

/-! Repair and withdrawal (R227, R299). -/

/-- Ask the peer of a twin for a lost grain (R227, Table 13.2 kind 7). A loss found in start-up waits until the pair serves (R48). -/
def askRepair (nsid grain csn : Nat) (s : State) : State :=
  if s.gen.mode = .boot then
    (if s.prov.pair.isSome then { s with tw := { s.tw with repairDue := s.tw.repairDue ++ [(nsid, grain, csn)] } } else s)
  else match s.tw.st with
  | .paired | .solo | .seeding =>
    if s.gen.mode = .drain then s else
    sendFrame 1 s.tw.peer 0x10 0 [] (emit (.record s.tw.peer 7 [nsid, grain, csn]) s)
  | _ => s

/-- The repairs that waited are asked for, where the pair has a peer to ask. -/
def askDue (s : State) : State :=
  match s.tw.st with
  | .paired | .solo | .seeding =>
    s.tw.repairDue.foldl (fun t x => askRepair x.1 x.2.1 x.2.2 t) { s with tw := { s.tw with repairDue := [] } }
  | _ => s

/-- A poisoned grain is withdrawn, which consumes its poison: it is lost with cause 3, reported, and asked of the peer; a grain written again
meanwhile is only dropped. -/
def withdrawPoisoned (r : Staged) (s : State) : State :=
  let e := getEntry r.nsid r.grain s
  let s := unhold r.stidx (tickFree (poisonConsumed (poisonAddr s) s))
  if e.staged ∧ e.stidx = r.stidx then
    askRepair r.nsid r.grain r.csn (deferFault r.nsid 1 r.csn r.csn (grainSlba r.nsid r.grain s) (grainNlb r.nsid s)
      (releaseStaged r.stidx (markLost r.nsid r.grain 3 r.csn s)))
  else releaseStaged r.stidx s

/-- The poisoned grains, not yet in a row or page, that `f` picks are withdrawn before their data is programmed. -/
def withdrawSel (f : Staged → Bool) (s : State) : State :=
  (s.mx.staged.filter (fun r => r.poisoned && !r.queued && f r)).foldl (fun t r => withdrawPoisoned r t) s

/-- Grains that go to the vat at once: partial ones merged, poisoned ones withdrawn (R149, R299). -/
def readyForVat (f : Staged → Bool) (s : State) : State :=
  withdrawSel f ((s.mx.staged.filter (fun r => f r && !r.merged && !r.queued)).foldl (fun t r => mergeStaged r.stidx t) s)

/-! Write-through (R393). -/

/-- Some grain that step 3 of write-through took on is not yet durable. -/
def wtPending (s : State) : Bool := s.mm.wtLeft.any (fun i => (findStaged i s).isSome)

/-- VERIFIED clears and write-through begins: events, and every acknowledged grain on its way to the vat. -/
def writeThroughEnter (s : State) : State :=
  if ¬ isOn Reg.GEN_HOLDUP.VERIFIED s then s
  else
    let s := flagOn Reg.GEN_HOLDUP.WTHRU (flagOff Reg.GEN_HOLDUP.VERIFIED s)
    let s := vendorEvent 0x10 0xC2 s
    let ids := (notInProgram s).map (·.stidx)
    let s := readyForVat (fun r => ids.contains r.stidx) s
    let rs := notInProgram s
    bookVat rs [] { s with mm := { s.mm with wtLeft := rs.map (·.stidx) } }

/-- Write-through ends once a verification has passed and step 3 has finished. -/
def writeThroughExit (s : State) : State :=
  if isOn Reg.GEN_HOLDUP.VERIFIED s ∧ isOn Reg.GEN_HOLDUP.WTHRU s ∧ ¬ wtPending s then
    vendorEvent 0x11 0xC2 (flagOff Reg.GEN_HOLDUP.WTHRU { s with mm := { s.mm with wtLeft := [] } })
  else s

/-! DRAIN (R47). -/

/-- Complete every open merge entry (R292). -/
def completeMerges (s : State) : State :=
  { s with me := { s.me with merges := [], mergeCnt := s.me.mergeCnt + s.me.merges.length } }

/-- Row 14 (Table 2.4, steps 1 to 3): DRAIN. In a twin the DRAIN notice leaves first; nothing further completes; racking halts and copies not
yet swapped are abandoned. -/
def enterDrain (s : State) : State :=
  let s := match s.tw.st with
    | .none | .fenced => s
    | _ => if s.gen.mode = .quarantine then s else sendCtrl s.tw.peer 0x02 [s.mx.csn] s
  let s := killCmds (fun _ => true) s
  let s := enterMode 14 .drain s
  let s := { s with
    gen := { s.gen with reqTarget := none, diagPending := false, psEntry := none, quarFlush := false,
                        cleanStop := false },
    nand := { s.nand with drainDone := false } }
  flagOn Reg.GEN_DRAIN.ACTIVE (abandonCopies s)

/-- The assertion of PWR_FAIL_N, or an undervoltage handled as one (R47, R409, R36, Table 15.1). -/
def powerFail (s : State) : State :=
  let s := { s with pins := { s.pins with pwrFailN := false, huTest := false }, mg := { s.mg with verifying := none } }
  match s.gen.mode with
  | .reset | .drain => s
  | .boot | .recovery | .provision => y9Reset false 23 s
  | .quarantine => if s.gen.quarFlush then enterDrain s else s
  | _ => enterDrain s

end Sys2Proof.Machine
end

