-- ==== Sys2Proof/Machine/NsCore.lean ====
section
/-! DEFINITION. What lies under namespaces and migration alike: the durable namespace table, deletion, the counter's ceiling, a session's end, and
spare exhaustion, which ends one (R18, R24, R38, R97, R163, R173, R340). -/
namespace Sys2Proof.Machine

/-! The namespace table (R97, R173). -/

/-- Insert or replace a namespace in ascending NSID. -/
def insNs (n : Ns) : List Ns → List Ns
  | [] => [n]
  | x :: t => if n.nsid < x.nsid then n :: x :: t else if n.nsid = x.nsid then n :: t else x :: insNs n t

/-- What the table keeps of a namespace: nothing of commands in progress. -/
def Ns.durable (n : Ns) : Ns := { n with leaving := [], formatting := false, moving := false }

/-- Make a namespace's table entry durable. -/
def saveNs (nsid : Nat) (s : State) : State :=
  match findNs nsid s with
  | some n => { s with prov := { s.prov with ns := insNs n.durable s.prov.ns } }
  | none => { s with prov := { s.prov with ns := s.prov.ns.filter (fun n => n.nsid != nsid) } }

/-- Change a namespace and make it durable. -/
def setNs (nsid : Nat) (f : Ns → Ns) (s : State) : State := saveNs nsid (updNs nsid f s)

/-- A key slot is zeroized and both wrapped copies are erased. -/
def dropKey (nsid : Nat) (s : State) : State :=
  { s with ff := { s.ff with keys := s.ff.keys.filter (fun k => k.1 != nsid), wraps := s.ff.wraps.filter (fun k => k.1 != nsid) } }

/-- A namespace's key wrapped under KEK (R244); the key itself, drawn here or come wrapped from a peer, is a free value (log entry 119). -/
def wrapKey (nsid : Nat) (s : State) : State :=
  tickFree { s with ff := { s.ff with
    wraps := s.ff.wraps.filter (fun k => k.1 != nsid) ++ [(nsid, wrapXtsKey Config.kek (Config.randomKey s.freeCtr % 2 ^ 512))] } }

/-- Two wrapped copies of a namespace's key in the firmware flash. -/
def putKey (nsid copies : Nat) (s : State) : State :=
  wrapKey nsid { s with ff := { s.ff with keys := s.ff.keys.filter (fun k => k.1 != nsid) ++ [(nsid, copies)] } }

/-- The key in a namespace's DC key slot: what its wrapped copy unwraps to (R244, R246). -/
def slotKey (nsid : Nat) (s : State) : Nat :=
  (((s.ff.wraps.find? (fun k => k.1 == nsid)).bind (fun k => unwrapXtsKey Config.kek k.2))).getD 0

/-- A namespace's key as it goes to a peer: wrapped under the transport key (R337, R365, Table 13.2). -/
def sentKey (peer nsid : Nat) (s : State) : Nat := wrapXtsKey (Config.transportKey peer) (slotKey nsid s)

/-- Every grain of a namespace is deallocated. -/
def deallocAll (nsid : Nat) (s : State) : State :=
  { s with mx := { s.mx with map := s.mx.map.filter (fun e => e.1 / 2 ^ 40 != nsid), dirty := true } }

/-- Every entry of a namespace goes to the initial entry; staged grains and cached pages of it are dropped. -/
def clearGrains (nsid : Nat) (s : State) : State :=
  let s := deallocAll nsid s
  let s := (s.mx.staged.filter (fun r => r.nsid == nsid)).foldl (fun t r => releaseStaged r.stidx t) s
  { s with mx := { s.mx with cache := s.mx.cache.filter (fun x => x.1 != nsid) } }

/-- Delete a namespace (R97, R173): the table first, then NSOP. -/
def deleteNs (nsid : Nat) (s : State) : State :=
  let s := saveNs nsid { s with ns := s.ns.filter (fun n => n.nsid != nsid) }
  let s := dropKey nsid (clearGrains nsid s)
  jAppend (jNsOp 2 nsid s.mx.csn 0) s

/-- Lift a namespace's seal. -/
def unsealNsNow (nsid : Nat) (s : State) : State := setNs nsid (fun n => { n with sealInfo := none }) s

/-! The CSN counter and the end of a migration session (R18, R163, Table 13.5A). -/

/-- Change the twin's state. -/
def updTw (f : Tw → Tw) (s : State) : State := { s with tw := f s.tw }

/-- Change the migration session. -/
def updMig (f : Mig → Mig) (s : State) : State := updTw (fun t => { t with mig := f t.mig }) s

/-- Row 13: SERVICE. -/
def rowThirteen (s : State) : State := enterMode 13 .service s

/-- Make a ceiling above a CSN durable at once, so that it may be applied or assigned: the ceiling rises in steps of 2^26 (R163). -/
def coverCsn (csn : Nat) (s : State) : State :=
  if csn ≤ s.mx.ceil then s
  else
    let c := s.mx.ceil + ceilDiv (csn - s.mx.ceil) (2 ^ 26) * 2 ^ 26
    journalNow (jAppend (jCsnRes c) (flagOn Reg.MX_ERR.CEILHOLD { s with mx := { s.mx with ceilPend := some c } }))

/-- The counter rises to a CSN, under a ceiling that covers it. -/
def raiseCsn (csn : Nat) (s : State) : State :=
  if csn ≤ s.mx.csn then s
  else
    let s := coverCsn csn s
    { s with mx := { s.mx with csn := csn } }

/-- The source lifts the seals that the session made, and tracks no more. -/
def liftSeals (s : State) : State := s.tw.mig.sealed.foldl (fun t n => unsealNsNow n t) s

/-- The sink deletes the session's namespaces. -/
def deleteIngested (s : State) : State := (s.ns.filter (·.ingesting)).foldl (fun t n => deleteNs n.nsid t) s

/-- The transport key is kept only while a pairing or session lasts (R365). -/
def dropTransport (s : State) : State :=
  if s.tw.st = .none ∧ (s.tw.mig.phase = 0 ∨ 6 ≤ s.tw.mig.phase) then { s with dg := { s.dg with transport := false } } else s

/-- The sink's counter rises to the highest origin CSN it has stored in the session before it assigns any (R18, R24). -/
def raiseToOrigins (s : State) : State :=
  raiseCsn (maxOf ((s.ns.filter (·.ingesting)).map (·.lastCsn))) s

/-- A session aborts at this end: phase 7. -/
def abortSession (s : State) : State :=
  let ended := fun (t : State) => dropTransport (updMig (fun m => { Mig.none with phase := 7, role := m.role, peer := m.peer }) t)
  if s.tw.mig.role = 2 then
    let s := ended (deleteIngested (raiseToOrigins s))
    if s.gen.mode = .ingest then evModeChanged (rowThirteen s) else s
  else ended (evFabric (liftSeals s))

/-- The spare supply is exhausted (R392, R38, Table 2.2a). The permanent seal is recorded, Spare Exhausted is posted in the modes whose
controllers serve Asynchronous Event Requests, and the mode moves as the table says; in INGEST the session aborts first. -/
def spareExhausted (resource : Nat) (s : State) : State :=
  let s := logEvent 0x0E11 3 14 false [resource] (recordExhaustSeal s)
  let s := if mediaMode s.gen.mode then vendorEvent 0x13 0x02 s else s
  match s.gen.mode with
  | .service => enterModeEv 16 .sealed s
  | .diagnostic => enterModeEv 16 .sealed (enterModeEv 19 .service s)
  | .lowpower =>
    let s := { s with sh := { s.sh with ps := s.sh.psOp } }
    if s.gen.lowFrom = .service then enterModeEv 16 .sealed (enterMode 9 .service s)
    else enterMode 9 .sealed s
  | .ingest => enterModeEv 16 .sealed (abortSession (sendCtrl s.tw.mig.peer 0x16 [0] s))
  | _ => s

end Sys2Proof.Machine
end

