-- ==== Sys2Proof/Machine/SpOps.lean ====
section
/-! DEFINITION. Failures of dies, channels and blocks, and the losses that follow them (R204 to R207, R215 to R217, R222, R226 to R229,
R391, R392). -/
namespace Sys2Proof.Machine

/-! Swaps of copies whose destination has settled (R162, R190, R194). -/

/-- The key under which `mm.racking` holds the refresh of one block. -/
def refreshKey (d b : Nat) : Nat := 2 ^ 33 + d * 16384 + b
/-- The key of the bottling of a vat slot: the barrel number of its vat pages (R181). -/
def bottleKey (d v : Nat) : Nat := 2 ^ 31 + v * 2 ^ 11 + d
/-- The key of a V4 barrel that waits for the next root (R196). -/
def v4Key (num : Nat) : Nat := 2 ^ 34 + num

/-- Two placings carry the same copy of a grain. -/
def samePlaced (p q : Placed) : Bool := decide (p.nsid = q.nsid ∧ p.grain = q.grain ∧ p.csn = q.csn ∧ p.src = q.src)

/-- The destination of a placing has verified on every member that holds it, and is settled (R190). -/
def placedSettled (b : OpenBarrel) (closed : Bool) (r : Row) (p : Placed) : Bool :=
  p.members.all (fun m => r.verified.contains m &&
    (closed || r.w == 383 || b.rows.any (fun n => n.w == r.w + 1 && n.verified.contains m)))

/-- Swap one copy, and strike it off the work it came from. -/
def swapPlaced (p : Placed) (s : State) : State :=
  match p.src with
  | none => s
  | some e =>
    let raw := (copyAt p.nsid p.grain e s).map (fun (c : Copy) => { c with loc := p.dst, vintage := p.dst.vhint, vat := false, bad1 := false, bad2 := false })
    let s := { s with nand := { s.nand with copies := s.nand.copies ++ raw.toList } }
    let s := swapEntry p.nsid p.grain e p.dst s
    { s with mm := { s.mm with racking := s.mm.racking.map (fun x => (x.1, x.2.filter (fun q => !samePlaced p q))) } }

/-- Sources with nothing left to swap: a racked barrel gets its RACKDONE record; refreshes and bottlings are done. -/
def finishRacking (s : State) : State :=
  let done := s.mm.racking.filter (fun x => decide (x.1 < 2 ^ 34) && x.2.isEmpty)
  let s := { s with mm := { s.mm with racking := s.mm.racking.filter (fun x => !(decide (x.1 < 2 ^ 34) && x.2.isEmpty)) } }
  done.foldl (fun t x =>
    if x.1 < 2 ^ 31 then
      jAppend (jRackDone x.1 t.mx.csn) { t with mm := { t.mm with rackdone := addOnce t.mm.rackdone x.1 } }
    else t) s

/-- Swap every copy of an open barrel whose destination has settled. -/
def settleBarrel (closed : Bool) (b : OpenBarrel) (s : State) : State :=
  let go := b.rows.flatMap (fun r => r.placed.filter (fun p => p.src.isSome && placedSettled b closed r p &&
    !s.mx.heldLines.contains (p.nsid, p.grain / 8 * 8)))
  let s := go.foldl (fun t p => swapPlaced p t) s
  let keep := fun (r : Row) => { r with placed := r.placed.filter (fun p => !go.any (fun q => samePlaced p q)) }
  finishRacking { s with mm := { s.mm with openB := s.mm.openB.map (fun (x : OpenBarrel) => if x.num = b.num then { x with rows := x.rows.map keep } else x) } }

/-! Closing a barrel short (R206, R222). -/

/-- The grains of rows not yet started go back to gathering. -/
def unqueueRows (rows : List Row) (s : State) : State :=
  let back := (rows.filter (fun r => r.started.isEmpty)).flatMap (fun r => r.placed.filterMap (·.stidx))
  { s with mx := { s.mx with
      staged := s.mx.staged.map (fun (r : Staged) => if back.contains r.stidx then { r with queued := false } else r) } }

/-- Close an open barrel short: CLOSE with B = 1, and the barrel becomes a racking candidate. -/
def closeShort (num : Nat) (s : State) : State :=
  match s.mm.openB.find? (fun b => b.num == num) with
  | none => s
  | some b =>
    let w := b.nextW - (b.rows.filter (fun r => r.started.isEmpty)).length
    let last := 4 * w - 1
    let s := unqueueRows b.rows (settleBarrel true b s)
    let close := fun (x : Barrel) => { x with state := 1, short := true, lastStripe := last }
    let s := { s with mm := { s.mm with
      openB := s.mm.openB.filter (fun x => x.num != num),
      barrels := updFirst s.mm.barrels (fun x => x.num == num) close } }
    flagOn Reg.MM_ERR.SHORTCLOSE (jAppend (jClose last num s.mx.csn true) s)

/-- A group opens no barrel and its open barrel closes short: at once, or when the row in program finishes (R222). -/
def stopGroup (g : Nat) (s : State) : State :=
  match s.mm.openB.find? (fun b => b.group == g) with
  | none => s
  | some b =>
    if b.rows.any (fun r => !r.started.isEmpty) then
      let s := unqueueRows b.rows s
      let halt := fun (x : OpenBarrel) => { x with halt := true, nextW := x.nextW - (x.rows.filter (fun r => r.started.isEmpty)).length, rows := x.rows.filter (fun r => !r.started.isEmpty) }
      { s with mm := { s.mm with openB := updFirst s.mm.openB (fun x => x.num == b.num) halt } }
    else closeShort b.num s

/-! Losses with three missing units (R227). -/

/-- A stored grain is lost with a cause: listed, and asked of the peer. -/
def loseStored (nsid grain cause : Nat) (s : State) : State :=
  let csn := ((copyAt nsid grain (getEntry nsid grain s) s).map (·.csn)).getD 0
  askRepair nsid grain csn (markLost nsid grain cause csn s)

/-- Codeword positions with three missing units take their grains with them. -/
def threeMissing (grains : List (Nat × Nat)) (s : State) : State :=
  let s := flagOn Reg.SP_ERR.THREEMISS (bump Reg.SP_LOSTCNT.POSITIONS s)
  grains.foldl (fun t g => if (getEntry g.1 g.2 t).stored then loseStored g.1 g.2 1 t else t) s

/-! Spares (R222, R228, R229). -/

/-- Channels a group uses: those of the dies that serve its members, missing ones apart. -/
def groupChans (g : Group) (s : State) : List Nat :=
  (g.members.zipIdx.filter (fun x => !g.missing.contains x.2)).map (fun x => dieChan (servingDie x.1 s))

/-- A spare is eligible for a group (R222). -/
def eligible (g : Group) (d : Nat) (s : State) : Bool :=
  !(groupChans g s).contains (dieChan d) && !s.sp.failedChans.contains (dieChan d) && !s.sp.failedDies.contains d &&
  decide (g.rows + getF Reg.MM_CFG.VATBLK s + getF Reg.MM_CFG.SPMIN s ≤ goodCount s d)

/-- Give the member at a position a spare, or make its group wait; the substitution table has 256 entries (R217, R222). -/
def assignSpare (g : Group) (pos : Nat) (s : State) : State :=
  let src := g.die pos
  if s.sp.subst.any (fun e => decide (e.src = src ∧ e.state ≠ 4)) then s
  else match (if s.sp.subst.length < 256 then s.sp.spares.find? (fun d => eligible g d s) else none) with
    | some d =>
      let s := { s with sp := { s.sp with
        spares := s.sp.spares.filter (fun x => x != d), subst := s.sp.subst ++ [⟨src, d, g.num, 1, 0⟩] } }
      spareIn 8 s.sp.spares.length (updGroup g.num (fun x => { x with waiting := false }) s)
    | none => flagOn Reg.SP_ERR.NOSPARE (updGroup g.num (fun x => { x with waiting := true }) s)

/-- Serve every missing member, groups in ascending number (R222). -/
def assignSpares (s : State) : State :=
  s.sp.groups.foldl (fun t g =>
    match findGroup g.num t with
    | some g' => if g'.dissolved then t else g'.missing.foldl (fun u p => assignSpare g' p u) t
    | none => t) s

/-- The group can be dissolved without breaking the capacity condition of R205 (R229). -/
def canDissolve (g : Group) (s : State) : Bool :=
  decide (ceilDiv (allocatedBytes s) (Nat.max 1 (barrelBytes s)) + 16 * getF Reg.MM_RACK.FREECRIT s
    + (g.rows - g.withdrawn.length) ≤ barrelCount s)

/-- A group waits and none can be dissolved: the spare supply is exhausted (R229). -/
def checkWaiting (s : State) : State :=
  let w := s.sp.groups.filter (fun g => g.waiting && !g.dissolved)
  if w ≠ [] ∧ ¬ s.sp.groups.any (·.dissolving) ∧ ¬ w.any (fun g => canDissolve g s) ∧ ¬ s.mm.exhausted then
    spareExhausted 8 s
  else s

/-- A stored form runs into the next unit (R152). -/
def spansUnits (e : MapEntry) : Bool := decide (qlcUnit < e.plane * 30 + e.goff + e.glen)

/-- The data member index a position has in a row (R209). -/
def memberIndex (g : Group) (pos r : Nat) : Nat := (pos + 2 * g.width - r % g.width - 2) % g.width

/-- The member positions that hold a stored form in row `r` (R152, R209). -/
def entryPositions (g : Group) (r : Nat) (e : MapEntry) : List Nat :=
  let p := g.posOf e.die
  let i := memberIndex g p r
  if spansUnits e then [p, posData g r (if i + 1 < g.width - 2 then i + 1 else 0)] else [p]

/-- The row a block serves on a member, by its original die's block numbers. -/
def rowOfBlock (g : Group) (m b : Nat) (s : State) : Option Nat :=
  (List.range g.rows).find? (fun r => rowBlock g m r s == b)

/-- The positions missing from a row: members missing from the group whose spare has not rebuilt it (R224). -/
def missingAt (g : Group) (r : Nat) (s : State) : List Nat :=
  g.missing.filter (fun p => !s.sp.subst.any (fun e => decide (e.src = g.die p ∧ (e.state = 3 ∨ (e.state = 2 ∧ r < e.nextRow)))))

/-- A third missing member, or a further one: grains with a granule on the missing members are lost (Table 8.6 row 6). -/
def loseGroup (g : Group) (s : State) : State :=
  let hit := s.mx.map.filter (fun e => e.2.stored && e.2.vhint != 5 && g.members.contains e.2.die &&
    (match rowOfBlock g (g.posOf e.2.die) e.2.block s with
    | some r => decide (3 ≤ (missingAt g r s).length) && (entryPositions g r e.2).any (fun p => (missingAt g r s).contains p)
    | none => false))
  threeMissing (hit.map (fun e => (e.1 / 2 ^ 40, e.1 % 2 ^ 40))) s

/-- The vat copies that a member held are gone with its die: reads go to the partner's (R191, R223). -/
def vatCopiesGone (g : Group) (pos : Nat) (s : State) : State :=
  match g.pairPos pos with
  | none => s
  | some p =>
    let lost := fun (c : Copy) => if c.vat ∧ c.loc.die = g.die p then (if pos = p then { c with bad1 := true } else { c with bad2 := true }) else c
    { s with nand := { s.nand with copies := s.nand.copies.map lost } }

/-- The member a serving die stands for becomes missing (R216, R222). -/
def memberMissing (g : Group) (pos : Nat) (s : State) : State :=
  let s := updGroup g.num (fun x => { x with missing := addOnce x.missing pos }) s
  let s := stopGroup g.num (vatCopiesGone g pos s)
  match findGroup g.num s with
  | some g' => if 3 ≤ g'.missing.length then loseGroup g' s else s
  | none => s

/-- SP declares a die failed (R215): a serving die makes its member missing, a serving spare is superseded, an unused spare is gone. -/
def dieOut (d : Nat) (s : State) : State :=
  if s.sp.failedDies.contains d then s
  else
    let s := { s with sp := { s.sp with failedDies := s.sp.failedDies ++ [d], spares := s.sp.spares.filter (fun x => x != d) } }
    match s.sp.subst.find? (fun e => decide (e.dst = d ∧ e.state ≠ 4)) with
    | some e =>
      let old := fun (x : Subst) => decide (x.dst = d ∧ x.state ≠ 4)
      let s := { s with sp := { s.sp with subst := updFirst s.sp.subst old (fun x => { x with state := 4 }) } }
      let s := flagOn Reg.SP_ERR.SPAREFAIL s
      match findGroup e.group s with
      | some g => memberMissing g (g.posOf e.src) s
      | none => s
    | none => match groupOfDie d s with
      | some g =>
        -- a slot already served by a spare keeps its spare
        if s.sp.subst.any (fun e => decide (e.src = d ∧ e.state ≠ 4)) ∨ g.dissolved then s
        else memberMissing g (g.posOf d) s
      | none => s

/-- The dies known on a channel. -/
def chanDies (c : Nat) (s : State) : List Nat := s.nand.dies.filter (fun d => dieChan d == c)

/-- SP declares a channel failed (R215, R216). -/
def chanOut (c : Nat) (s : State) : State :=
  if s.sp.failedChans.contains c then s
  else
    let s := { s with
      sp := { s.sp with failedChans := s.sp.failedChans ++ [c], spares := s.sp.spares.filter (fun d => dieChan d != c) },
      cs := { s.cs with chans := s.cs.chans.modify c (fun x => { x with ok := false, retrain := 0 }) } }
    (chanDies c s).foldl (fun t d => dieOut d t) s

/-- A die fails, with what follows for its channel, for spares and for FI (R215, R222, R229, R394). -/
def declareDieFailed (d : Nat) (s : State) : State :=
  let s := fiRealFault (dieOut d s)
  let c := dieChan d
  let s := if (chanDies c s).all (fun x => s.sp.failedDies.contains x) then chanOut c s else s
  checkWaiting (assignSpares s)

/-- A channel fails, with what follows. -/
def declareChannelFailed (c : Nat) (s : State) : State :=
  checkWaiting (assignSpares (fiRealFault (chanOut c s)))

/-! Retirement (R204, R205). -/

/-- The group and member position that a die serves: its own slot, or the slot it stands in for (R217). -/
def memberOf (d : Nat) (s : State) : Option (Group × Nat) :=
  match s.sp.subst.find? (fun e => decide (e.dst = d ∧ e.state ≠ 4)) with
  | some e => (findGroup e.group s).map (fun g => (g, g.posOf e.src))
  | none => (groupOfDie d s).map (fun g => (g, g.posOf d))

/-- The block a location lies in: the die that serves the member, and its block for the row (R217). -/
def physPlace (d b : Nat) (s : State) : Nat × Nat :=
  let x := servingDie d s
  if x = d then (d, b)
  else match groupOfDie d s with
    | some g => (match rowOfBlock g (g.posOf d) b s with
      | some r => (x, rowBlockOn g (g.posOf d) x r s)
      | none => (x, b))
    | none => (d, b)

/-- The name by which the map knows a block of a die: the original slot it serves and that die's block number (R217). -/
def namedPlace (d b : Nat) (s : State) : Nat × Nat :=
  match memberOf d s with
  | some (g, m) =>
    if g.die m = d then (d, b)
    else match (List.range g.rows).find? (fun r => rowBlockOn g m d r s == b) with
      | some r => (g.die m, rowBlock g m r s)
      | none => (g.die m, b)
  | none => (d, b)

/-- The vat slot a block serves on a member. -/
def slotOfBlock (g : Group) (m b : Nat) (s : State) : Option (Nat × Nat) :=
  match g.pairPos m with
  | none => none
  | some p => ((List.range (getF Reg.MM_CFG.VATBLK s)).find? (fun v => vatBlock g p v s == some b &&
      !(getPair g.num p s).gone.contains v)).map (fun v => (p, v))

/-- A block that lost its use became a spare of its die: that of a withdrawn row whose barrel is gone, or that of a vat slot given up or
rebuilt elsewhere (R205). -/
def freedBlock (g : Group) (m d b : Nat) (s : State) : Bool :=
  g.withdrawn.any (fun r => rowBlockOn g m d r s == b && !s.mm.barrels.any (fun x => x.num == barrelNum g.num r)) ||
  (match g.pairPos m with
  | none => false
  | some p => (List.range (getF Reg.MM_CFG.VATBLK s)).any (fun v =>
      (vatBlockFirst g p v s == some b && vatBlock g p v s != some b) || (vatBlock g p v s == some b && (getPair g.num p s).gone.contains v)))

/-- A block of a die that serves a member is a spare (R180, R205): good, not retired, above its last row block or freed, and not yet used as a
replacement. -/
def isSpareBlk (g : Group) (m d b : Nat) (s : State) : Bool :=
  let lastRow := (nthBlock (fun x => goodBlk s d x && !isVatBlk g m x s) blocksPerDie 0 (g.rows - 1)).getD blocksPerDie
  goodBlk s d b && !(getBlk d b s).retired &&
  (freedBlock g m d b s ||
    (decide (lastRow < b) && !isVatBlk g m b s && !s.mm.replaced.any (fun r => decide (r.die = d ∧ r.by_ = b))))

/-- The lowest spare block of a die that serves a member. -/
def spareBlock (g : Group) (m d : Nat) (s : State) : Option Nat :=
  (List.range blocksPerDie).find? (fun b => isSpareBlk g m d b s)

/-- What a retired block was: a row block takes a spare or its row is withdrawn; a vat block's slot takes no further writes, and what the Y9 keeps in it is
written again elsewhere. -/
def replaceBlock (d b : Nat) (s : State) : State :=
  match memberOf d s with
  | none => s
  | some (g, m) =>
    match slotOfBlock g m b s with
    | some (p, v) =>
      let q := getPair g.num p s
      rewriteSysPages (fun x => decide (x.group = g.num ∧ x.pos = p ∧ x.slot = v)) (putPair { q with retired := addOnce q.retired v } s)
    | none => match (List.range g.rows).find? (fun r => !g.withdrawn.contains r && rowBlockOn g m d r s == b) with
      | none => s
      | some r => match spareBlock g m d s with
        | some x => { s with mm := { s.mm with replaced := s.mm.replaced ++ [⟨d, b, x⟩] } }
        | none => flagOn Reg.MM_ERR.ROWWD (updGroup g.num (fun x => { x with withdrawn := addOnce x.withdrawn r }) s)

/-- MM retires a block: its count, its place in MM_RETLAST with the cause (0 program, 1 erase, 2 blank check), its replacement, and what 16
retirements in 24 h (R215) or too few barrels (R205) bring. -/
def retireBlock (d b cause : Nat) (s : State) : State :=
  if (getBlk d b s).retired then s
  else
    let s := setF Reg.MM_RETLAST.DIE d (setF Reg.MM_RETLAST.BLOCK b (setF Reg.MM_RETLAST.CAUSE cause s))
    let s := updBlk d b (fun x => { x with retired := true, intent := false }) s
    let day := 86400000000000
    let s := { s with mm := { s.mm with retireAt := (s.mm.retireAt.filter (fun x => decide (now s < x.2 + day))) ++ [(d, now s)] } }
    let s := replaceBlock d b (bump Reg.MM_RETIRE.COUNT s)
    let s := if (s.mm.retireAt.filter (fun x => x.1 == d)).length ≥ 16 then declareDieFailed d s else s
    if barrelsExhausted s ∧ ¬ s.mm.exhausted then spareExhausted 9 s else s

/-! Where barrels and vat slots lie, and erases (R180, R184, R202, R217). -/

/-- A location lies in a QLC barrel. -/
def inBarrel (num : Nat) (e : MapEntry) (s : State) : Bool :=
  match findGroup (barrelGroup num) s with
  | none => false
  | some g => e.vhint != 5 && g.members.contains e.die && rowBlock g (g.posOf e.die) (barrelRow num) s == e.block

/-- A member block of a barrel: the serving die and its block (R180, R217). -/
def rowPlace (g : Group) (m r : Nat) (s : State) : Nat × Nat := (servingDie (g.die m) s, rowBlockOn g m (servingDie (g.die m) s) r s)

/-- Every member block of a barrel whose die has not failed. -/
def barrelBlocks (num : Nat) (s : State) : List (Nat × Nat) :=
  match findGroup (barrelGroup num) s with
  | none => []
  | some g => ((List.range g.width).map (fun m => rowPlace g m (barrelRow num) s)).filter (fun x => !dieFailed x.1 s)

/-- The dies that hold the two blocks of a pair's vat slots. -/
def vatDies (g : Group) (m : Nat) (s : State) : List Nat := (memberDie g m s).toList ++ (memberDie g (m + g.width / 2) s).toList

/-! Reads of every kind (R198, R201). -/

/-- The READS limit that asks for a refresh, of a block's kind. -/
def readLimit (slc : Bool) (s : State) : Nat := readsValue (getF (if slc then Reg.MM_RDLIM.SLC else Reg.MM_RDLIM.QLC) s)

/-- A block asks for a refresh. -/
def wantRefresh (d b : Nat) (s : State) : State := updBlk d b (fun x => { x with refresh := true }) s

/-- A read round on a block: READS rises, and at the limit the block asks for a refresh. -/
def countRead (d b : Nat) (slc : Bool) (s : State) : State :=
  let s := updBlk d b (fun x => { x with reads := x.reads + 1 }) s
  if readLimit slc s ≤ (getBlk d b s).reads then wantRefresh d b s else s

/-- A read round on a block, `n` times. -/
def countReads (d b n : Nat) (slc : Bool) (s : State) : State :=
  let s := updBlk d b (fun x => { x with reads := x.reads + n }) s
  if readLimit slc s ≤ (getBlk d b s).reads then wantRefresh d b s else s

/-- Reading stored copies takes one round for each page they start in, on the die that serves it. -/
def countEntries (es : List MapEntry) (s : State) : State :=
  ((es.map (fun e => (e.die, e.block, e.page, e.vhint == 5))).eraseDups).foldl (fun t x =>
    let y := physPlace x.1 x.2.1 t
    countRead y.1 y.2 x.2.2.2 t) s

/-- Append the erase intent of a block. -/
def startErase (d b : Nat) (s : State) : State :=
  jAppend (jEraseInt d b s.mx.csn) { s with mm := { s.mm with eraseInt := s.mm.eraseInt ++ [(d, b, false)] } }

/-- Erases that were due when the Y9 stopped are scheduled again: barrels whose RACKDONE was durable, and vat slots (Table 7.7, rows 4 and 11). -/
def resumeErases (s : State) : State :=
  let due := fun (x : Nat × Nat) => (getBlk x.1 x.2 s).pptr != 0 && !(getBlk x.1 x.2 s).retired
  let ofBarrels := (s.mm.barrels.filter (fun b => b.state == 2)).flatMap (fun b => (barrelBlocks b.num s).filter due)
  let ofSlots := s.mm.vat.flatMap (fun (p : VatPair) => match findGroup p.group s with
    | some g => p.erasing.flatMap (fun v => ((vatBlock g p.pos v s).map (fun b => ((vatDies g p.pos s).map (fun d => (d, b))).filter due)).getD [])
    | none => [])
  (ofBarrels ++ ofSlots).foldl (fun t x => startErase x.1 x.2 t) s

end Sys2Proof.Machine
end

