-- ==== Sys2Proof/Machine/Startup.lean ====
section
/-! DEFINITION. Start-up: boot verification, island release, training, and the recovery of the map and the stripes (rows 18 to 27 of the
table; R39 to R42, R173 to R176, R197, R200 to R203, R220, R221, R246, R258, R259, R312, R358, R359, R381). -/
namespace Sys2Proof.Machine

/-! Boot verification (R358). -/

/-- The owner slot in force: the lowest that is programmed and not revoked (R360). -/
def ownerInForce (s : State) : Option Nat :=
  (s.fuses.owners.zipIdx.find? (fun o => o.1.1.isSome && !o.1.2)).map (·.2)

/-- The first failing component: 6 length, 7 digest. -/
def compFail (cs : List Component) : Nat :=
  match cs.find? (fun c => !c.lengthOk || !acceptFlags c.flagA c.flagB) with
  | none => 0
  | some c => if c.lengthOk then 7 else 6

/-- verify(block) of R358: 0, or the code of DG_SEC.BOOTFAIL; every comparison is accepted under R349. Patch sets (type 3) are checked at step 8. -/
def verifyImage (img : SlotImage) (s : State) : Nat :=
  if ¬ img.magicOk then 1
  else if ¬ acceptFlags img.rootA img.rootB then 2
  else if ¬ img.vendorSigOk then 3
  else if (ownerInForce s).any (fun n => !(img.ownerSigSet && compared (img.ownerKeySlot == some n) && img.ownerSigOk)) then 4
  else if img.svn < s.fuses.arb then 5
  else compFail (img.comps.filter (fun c => c.typ != 3))

/-- Record a failed verification. -/
def bootFailed (code : Nat) (s : State) : State :=
  flagOn Reg.DG_ERR.BOOTFAIL (setF Reg.DG_SEC.BOOTFAIL code s)

/-- Half-erased sectors are erased again with the count of their BEGIN carried forward (R381). -/
def redoSectors (s : State) : State :=
  let erased := s.ff.half.foldl (fun (t : Ff) h =>
    { t with
      words := t.words.filter (fun w => w.1 / 4096 != h.1),
      blank := addOnce t.blank h.1,
      erases := sPut t.erases 0 h.1 (Nat.min (h.2 + 1) 16777215),
      slot1 := if h.1 < 1024 then none else t.slot1,
      slot2 := if 8192 ≤ h.1 ∧ h.1 < 9216 then none else t.slot2 }) s.ff
  setSat Reg.FF_WEAR.HALFERASED s.ff.half.length { s with ff := { erased with half := [] } }

/-- A slot's image, unless half-erased sectors emptied the slot. -/
def slotAfter (half : List (Nat × Nat)) (second : Bool) (img : SlotImage) : Option SlotImage :=
  if half.any (fun h => if second then decide (8192 ≤ h.1 ∧ h.1 < 9216) else decide (h.1 < 1024)) then none else some img

/-- Measurements 2 to 5 of an image: the manifest, the management image, the policy-core image and the patch set (Table 14.11). -/
def measOf (i : SlotImage) : List Nat :=
  i.manifest :: [1, 2, 3].map (fun t => ((i.comps.find? (fun c => c.typ == t)).map (·.digest)).getD 0)

/-- The boot ROM's work up to step 5 (Table 2.3): marker rings, selector, verification; KCTX is drawn and the generator reseeded. -/
def bootImageVerifyEff (slot1 slot2 : SlotImage) (s : State) : State :=
  if s.gen.mode ≠ .boot ∨ s.gen.bootVerified ∨ s.gen.bootRow = 5 then s
  else
    let i1 := slotAfter s.ff.half false slot1
    let i2 := slotAfter s.ff.half true slot2
    let s := redoSectors s
    let s := { s with ff := { s.ff with slot1 := i1, slot2 := i2 } }
    let code := fun (o : Option SlotImage) => match o with
      | none => 1
      | some i => verifyImage i s
    let sel := s.ff.selBlock
    let first := if sel = 1 then i2 else i1
    let other := if sel = 1 then i1 else i2
    let run := fun (img : Option SlotImage) (blk row : Nat) (t : State) =>
      let t := setF Reg.GEN_START.BOOTBLK blk (setF Reg.MG_STAT.SLOT blk (flagOn Reg.MG_STAT.RUN t))
      let t := flagOn Reg.DG_RNG.HEALTH (bump Reg.DG_RNG.RESEEDS t)
      { t with
        gen := { t.gen with bootVerified := true, bootRow := row, otherOk := decide (code other = 0) },
        mg := { t.mg with run := true, wdogAt := now t },
        dg := { t.dg with runImg := img, kctxGen := t.dg.kctxGen + 1, meas := (img.map measOf).getD [0, 0, 0, 0] } }
    if code first = 0 then run first sel 0 s
    else if code other = 0 then run other (1 - sel) 4 (bootFailed (code first) s)
    else
      let s := bootFailed (code other) (bootFailed (code first) s)
      { s with gen := { s.gen with bootRow := 5 } }

/-- BOOT_IMAGE_VERIFY (R358, R381, R382; rows 4 and 5). -/
def execBootImageVerify (slot1 slot2 : SlotImage) (s : State) : Host.Outcome State Fault Refusal :=
  .next (bootImageVerifyEff slot1 slot2 s)

/-! Discovery begins (R312). -/

/-- Flood HELLO on every link that is up: own and candidate unique ID, distance, epoch, preferred ID. -/
def floodHello (s : State) : State :=
  (List.range 12).foldl (fun t k =>
    if (getLink k t).up then
      emit (.hello k [t.fuses.uid, t.gf.candUid, t.gf.candDist, t.gf.epoch, t.prov.prefNode.getD 0xFFFF]) t
    else t) s

/-- Discovery starts: this node is its own candidate. -/
def startDiscovery (s : State) : State :=
  floodHello (bump Reg.GF_DISC.COUNT
    { s with gf := { s.gf with discovering := true, discAt := now s, candUid := s.fuses.uid, candDist := 0, isCoord := false, lsrs := [] } })

/-- Step 4 of Table 2.3: the islands are released, HE leaves RRS, discovery starts and a hold-up verification begins. -/
def hostIslandReleaseEff (s : State) : State :=
  if s.gen.mode = .boot ∧ s.gen.bootVerified ∧ ¬ s.gen.hostReleased then
    let s := startDiscovery { s with gen := { s.gen with hostReleased := true } }
    { s with pins := { s.pins with huTest := true }, mg := { s.mg with verifying := some (getF Reg.MG_HUSTAT.VOLT s) } }
  else s

/-- HOST_ISLAND_RELEASE (R40, R42, R312). -/
def execHostIslandRelease (s : State) : Host.Outcome State Fault Refusal := .next (hostIslandReleaseEff s)

/-- Modes in which DRAM and channels are trained: start-up, and media discovery in PROVISION. -/
def trainMode (m : Mode) : Bool := match m with
  | .boot | .provision => true
  | _ => false

/-- Step 6 and 7: the channels trained, hPPR on the rows of remapped pages, every line written with a valid CRC. A page whose hPPR fails keeps
its remap entry (R296, R391). -/
def dramTrainingEff (sizeGiB : Nat) (trained : BitVec 8) (hpprFails : List Nat) (s : State) : State :=
  if trainMode s.gen.mode then
    setF Reg.ME_REPAIR.HPPR 0
      { s with me := { s.me with dramGiB := sizeGiB, chOk := trained.toNat, poisoned := [],
                                 remap := s.me.remap.filter (fun p => hpprFails.contains p) } }
  else s

/-- DRAM_TRAINING (R296). -/
def execDramTraining (sizeGiB : Nat) (trained : BitVec 8) (hpprFails : List Nat) (s : State) : Host.Outcome State Fault Refusal :=
  .next (dramTrainingEff sizeGiB trained hpprFails s)

/-- Insert a die slot in ascending order. -/
def insSlot (d : Nat) : List Nat → List Nat
  | [] => [d]
  | x :: t => if d < x then d :: x :: t else if d = x then x :: t else x :: insSlot d t

/-- Die positions of a channel (Table 10.2): 32 behind fan-out buffers, 16 on an unbuffered bus. -/
def diePositions (s : State) : Nat := if isOn Reg.CS_CFG.BUF s then 32 else 16

/-- What identification found on a channel (R258), before provisioning: good dies, bad dies and factory bad blocks. -/
def discoverDies (channel : Nat) (dies : List DieFound) (n : Nand) : Nand :=
  dies.foldl (fun n f =>
    let d := 32 * channel + f.pos
    if f.pos < 32 ∧ f.idMatches then
      { n with dies := insSlot d n.dies, factoryBad := n.factoryBad ++ (f.badBlocks.filter (fun b => !n.factoryBad.contains (d, b))).map (fun b => (d, b)) }
    else { n with badDies := insSlot d n.badDies }) n

/-- The mode a die runs. -/
def ifaceOf (d : Nat) (s : State) : DieIface := ((s.nand.iface.find? (fun x => x.1 == d)).map (·.2)).getD .sdr

/-- A die runs another mode. -/
def setIface (d : Nat) (m : DieIface) (s : State) : State :=
  { s with nand := { s.nand with iface := s.nand.iface.filter (fun x => x.1 != d) ++ (if m = .sdr then [] else [(d, m)]) } }

/-- Set Features (EFh) to feature address 0xB8 with the rate code 0x06: P2 = 0x01 enters the extended-rate mode, 0x00 returns the die to SDR
(R256). -/
def extendedRate (d : Nat) (on : Bool) (s : State) : State :=
  emit (.setFeatures d 0xB8 0x06 (if on then 1 else 0)) (setIface d (if on then .extended else .sdr) s)

/-- A die Reset (FFh) leaves the die in the extended-rate mode (R256); in another it returns to SDR, as ONFI has it (PRESUMED, log entry 118). -/
def dieReset (d : Nat) (s : State) : State := if ifaceOf d s = .extended then s else setIface d .sdr s

/-- Identification talks to a die in SDR (R258, Table 10.1). -/
def toSdr (d : Nat) (s : State) : State := dieReset d (if ifaceOf d s = .extended then extendedRate d false s else s)

/-- A die enters the service mode that CS_CFG.MODE selects; the extended-rate mode from NV-DDR3 (R255, R256). -/
def toService (d : Nat) (s : State) : State :=
  match getF Reg.CS_CFG.MODE s with
  | 0 => setIface d .nvddr3 s
  | 1 => setIface d .ddr s
  | _ => extendedRate d true (setIface d .nvddr3 s)

/-- Training steps 2 and 4 on the dies found on a channel, as far as training came: identification in SDR, then the service mode (R259). -/
def trainIface (ds : List Nat) (failed : Option TrainStep) (s : State) : State :=
  match failed with
  | some .fanout => s
  | some .identify | some .zq | some .enterMode => ds.foldl (fun t d => toSdr d t) s
  | some .gating | some .readDeskew | some .writeDeskew | none => ds.foldl (fun t d => toService d (toSdr d t)) s

/-- A channel trains (R259). Its dies are found; on a provisioned Y9 a die that changed or does not answer is failed (R215, R258), and a channel on
which a step fails twice fails. -/
def channelTrainingEff (channel : Fin 64) (failedTwice : Option TrainStep) (dies : List DieFound) (s : State) : State :=
  if ¬ trainMode s.gen.mode then s
  else
    let c := channel.val
    let s := trainIface ((dies.filter (fun f => f.idMatches && decide (f.pos < diePositions s))).map (fun f => 32 * c + f.pos)) failedTwice s
    let setOk := fun (ok : Bool) (t : State) =>
      { t with cs := { t.cs with chans := t.cs.chans.modify c (fun x => { x with ok := ok, retrain := 0 }) } }
    match failedTwice with
    | some _ =>
      let s := flagOn Reg.CS_ERR.TRAINFAIL (setOk false s)
      if s.prov.valid then declareChannelFailed c s else s
    | none =>
      let s := setOk true s
      if s.prov.valid then
        let gone := (chanDies c s).filter (fun d => !dies.any (fun f => decide (32 * c + f.pos = d) && f.idMatches))
        gone.foldl (fun t d => declareDieFailed d t) s
      else { s with nand := discoverDies c (dies.filter (fun f => decide (f.pos < diePositions s))) s.nand }

/-- CHANNEL_TRAINING (R258, R259). -/
def execChannelTraining (channel : Fin 64) (failedTwice : Option TrainStep) (dies : List DieFound) (s : State) :
    Host.Outcome State Fault Refusal :=
  .next (channelTrainingEff channel failedTwice dies s)

/-! Journal roots and snapshots (steps 9 and 10). -/

/-- The start-up kind is clean: the last stop was a clean stop, whose root is the newest and behind whose replay point no segment lies
(R39). A completed DRAIN is no clean stop. -/
def cleanKind (s : State) : Bool :=
  match newestRoot s with
  | none => false
  | some r => s.gen.cleanStop && r.clean && s.nand.segs.all (fun g => decide (g.seq < r.replaySeq))

/-- The snapshot that start-up takes: the newest local one, or the peer's where its SEQ is higher (R220). -/
def takenSnap (peer : Option Snap) (s : State) : Option Snap :=
  match s.nand.snaps.head?, peer with
  | some a, some b => if a.seq < b.seq then some b else some a
  | some a, none => some a
  | none, b => b

/-- Step 9: roots, anchors and the newest snapshot, local or the peer's (R167, R220); the start-up kind is set. -/
def journalRootReadEff (rootCopyBad anchorBad snapshotCopyBad : Bool) (peerSnapshot : Option Snap) (s : State) : State :=
  if s.gen.mode ≠ .boot ∨ ¬ s.prov.valid then s
  else
    let s := flagIf (rootCopyBad || anchorBad) Reg.MX_ERR.ROOTCOPY s
    let s := flagIf snapshotCopyBad Reg.SP_ERR.SJCOPY s
    let snap := takenSnap (if s.prov.pair.isSome then peerSnapshot else none) s
    let p := s.nand.phys
    let subst := (snap.map (·.subst)).getD []
    let fails := p.failedDies ++ (subst.filterMap (fun e => if e.state = 4 then none else some e.src)).filter (fun d => !p.failedDies.contains d)
    let s := { s with sp := { s.sp with
      snapSeq := (snap.map (·.seq)).getD 0, taken := snap, subst := subst, voids := (snap.map (·.voids)).getD [],
      groups := if p.groups.isEmpty then s.prov.groups else p.groups,
      spares := if p.groups.isEmpty then s.prov.spares else p.spares,
      failedDies := s.sp.failedDies ++ fails.filter (fun d => !s.sp.failedDies.contains d) } }
    let s := flagIf snap.isNone Reg.SP_ERR.SJLOST s
    let s := setF Reg.GEN_START.KIND (if cleanKind s then 0 else 1) s
    setF Reg.GEN_START.DRAINOK (if s.nand.drainDone then 1 else 0) s

/-- JOURNAL_ROOT_READ (R167, R39, R48, R220). -/
def execJournalRootRead (rootCopyBad anchorBad snapshotCopyBad : Bool) (peerSnapshot : Option Snap) (s : State) :
    Host.Outcome State Fault Refusal :=
  .next (journalRootReadEff rootCopyBad anchorBad snapshotCopyBad peerSnapshot s)

/-- Blocks as found: READS is what the last durable sweep stored (R201). -/
def blocksAtStart (p : Phys) (r : Option Root) : List (Nat × Block) :=
  p.blocks.map (fun b => (b.1, { b.2 with reads := ((r.map (fun x => (sGet x.blocks .fresh b.1).reads))).getD 0 }))

/-- Barrels whose RACKDONE record is durable and that have not been opened since (Table 7.7, rows 4 and 5). -/
def rackdoneAt (s : State) : List Nat :=
  (s.nand.segs.flatMap (·.recs)).foldl (fun l r =>
    if r.typ = 0x06 then addOnce l r.key else if r.typ = 0x07 then l.filter (fun x => x != r.key) else l) []

/-- An open barrel as start-up finds it: it goes on at its next wordline, and what its rows held is staged no longer (R197). -/
def barrelAtStart (b : OpenBarrel) : OpenBarrel :=
  { b with rows := [], nextW := b.nextW - (b.rows.filter (fun r => r.started.isEmpty)).length }

/-- A namespace whose highest CSN follows those found for it (R24). -/
def withCsns (found : List (Nat × Nat)) (n : Ns) : Ns :=
  { n with lastCsn := Nat.max n.lastCsn (maxOf ((found.filter (fun x => decide (x.1 = n.nsid ∧ n.opcsn < x.2))).map (·.2))) }

/-- The CSNs that records of a commit and tags carry, by namespace. -/
def csnsFound (recs : List JRec) (tags : List Copy) : List (Nat × Nat) :=
  (recs.filter (fun r => r.typ == 0x01 || r.typ == 0x03 || r.typ == 0x04)).map (fun r => (r.nsid, r.a)) ++ tags.map (fun c => (c.nsid, c.csn))

/-- Step 10: the map of the newest valid checkpoint tree, the namespace table, the block and barrel state (R173); the CSN counter begins at
the durable ceiling (R163). -/
def residentMapLoadEff (s : State) : State :=
  if s.gen.mode ≠ .boot ∨ ¬ s.prov.valid then s
  else
    let r := newestRoot s
    let p := s.nand.phys
    let seq := maxOf (s.nand.segs.map (·.seq))
    { s with
      ns := s.prov.ns.map (withCsns ((r.map (·.nsCsn)).getD [])),
      dg := { s.dg with barrelDigests := (r.map (·.digests)).getD [] },
      mx := { s.mx with
        map := (r.map (·.map)).getD [], csn := s.nand.ceil, ceil := s.nand.ceil, jseq := seq,
        jlast := maxOf (s.nand.segs.map (fun g => lastCsnOf g.recs)), staged := [], jpend := [] },
      mm := { s.mm with
        blocks := blocksAtStart p r, openB := (p.openB.filter (·.durable)).map barrelAtStart, vat := p.vat, replaced := p.replaced,
        barrels := p.barrels.filter (fun b => !p.openB.any (fun o => o.num == b.num && !o.durable)),
        rackdone := (rackdoneAt s).filter (fun n => p.barrels.any (fun b => decide (b.num = n ∧ b.state = 1))) } }

/-- RESIDENT_MAP_LOAD (R173, R163). -/
def execResidentMapLoad (s : State) : Host.Outcome State Fault Refusal := .next (residentMapLoadEff s)

/-! Recovery after a power loss (R173 to R176). -/

/-- What replay keeps: the map, the replay table (grain, CSN, pending), the highest CSN read, erase intents, DRAINDONE seen. -/
structure Replay where
  map : List (Nat × MapEntry)
  table : List (Nat × Nat × Bool)
  high : Nat
  redo : List (Nat × Nat)
  drain : Bool
  ceil : Nat
  deriving DecidableEq, Repr

/-- Set a grain's entry and its place in the replay table. -/
def Replay.put (r : Replay) (k : Nat) (e : MapEntry) (csn : Nat) (pend : Bool) : Replay :=
  { r with map := sPut r.map .initial k e, table := sIns r.table k (csn, pend) }

/-- What replay knows of a grain. -/
def Replay.get (r : Replay) (k : Nat) : Option (Nat × Bool) := (r.table.find? (fun x => x.1 == k)).map (·.2)

/-- A record is discarded for a namespace the table shows deleted, or at or below the OPCSN of its entry (R173). A LOST record with CSN 0 counts
as after the namespace's latest NSOP record when `afterOp` says so. -/
def discard (ns : List Ns) (nsid csn : Nat) (afterOp : Bool) : Bool :=
  match ns.find? (fun n => n.nsid == nsid) with
  | none => true
  | some n => if csn = 0 then !afterOp else decide (csn ≤ n.opcsn)

/-- Replay of one record (Table 6.9). -/
def Replay.step (ns : List Ns) (afterOp : Nat → Bool) (r : Replay) (x : JRec) : Replay :=
  let k := gkey x.nsid x.key
  let range := (List.range x.aux).map (fun i => k + i)
  match x.typ with
  | 0x01 =>
    let h := { r with high := Nat.max r.high x.a }
    if discard ns x.nsid x.a false then h else h.put k (x.be.getD .initial) x.a true
  | 0x02 => match r.get k with
    | some (c, true) => if c = x.a then r.put k (x.be.getD .initial) x.a false else r
    | _ => r
  | 0x03 =>
    let h := { r with high := Nat.max r.high x.a }
    if discard ns x.nsid x.a false then h else range.foldl (fun t i => t.put i .initial x.a false) h
  | 0x04 =>
    let h := { r with high := Nat.max r.high x.a }
    if discard ns x.nsid x.a (afterOp x.nsid) then h
    else range.foldl (fun t i => t.put i (sGet t.map .initial i).asLost (if x.a = 0 then r.high else x.a) false) h
  | 0x05 =>
    let e := sGet r.map .initial k
    -- a repair's source is the lost entry, which must be equal exactly (R227)
    if (if x.a.testBit 51 then decide (e.word = x.a) else decide (wordLoc e.word = wordLoc x.a) && e.stored) then { r with map := sPut r.map .initial k (x.be.getD .initial) } else r
  | 0x09 => { r with redo := addOnce r.redo (x.key % 2 ^ 11, x.key / 2 ^ 11) }
  | 0x0A => { r with redo := r.redo.filter (fun b => decide (b ≠ (x.key % 2 ^ 11, x.key / 2 ^ 11))) }
  | 0x0B => { r with ceil := Nat.max r.ceil x.a }
  | 0x0C => { r with map := r.map.filter (fun e => e.1 / 2 ^ 40 != x.nsid), table := r.table.filter (fun e => e.1 / 2 ^ 40 != x.nsid) }
  | 0x0D => { r with drain := true }
  | _ => r

/-- Replay of a list of records: whether a namespace's latest NSOP record has been passed is read off the records still ahead. -/
def replayAll (ns : List Ns) : List JRec → Replay → Replay
  | [], r => r
  | x :: t, r => replayAll ns t (r.step ns (fun n => !t.any (fun y => y.typ == 0x0C && y.nsid == n)) x)

/-- The segments replay reads: from the replay point in sequence order, up to the first with no readable copy (R173, R176). -/
def segsToReplay (unread : List Nat) (from_ : Nat) (segs : List Segment) : List Segment :=
  (segs.filter (fun g => decide (from_ ≤ g.seq))).takeWhile (fun g => !unread.contains g.seq)

/-- One tag found by the scan (R174): the copy with the higher origin CSN holds the grain; equal CSNs keep the map's copy. -/
def resolveTag (s : State) (ns : List Ns) (replayCsn : Nat) (r : Replay) (c : Copy) : Replay :=
  let k := gkey c.nsid c.grain
  if discard ns c.nsid c.csn false then r
  else
    let loc := { c.loc with rgen := (sGet r.map .initial k).rgen }
    match r.get k with
    | some (n, pend) =>
      if (pend ∧ n = c.csn) ∨ n < c.csn then r.put k loc c.csn false else r
    | none =>
      let cur := sGet r.map .initial k
      let have_ := ((copyAt c.nsid c.grain cur s).map (·.csn)).getD replayCsn
      if replayCsn < c.csn ∧ have_ < c.csn then r.put k loc c.csn false
      else if have_ < c.csn ∧ cur.stored then r.put k loc c.csn false
      else r

/-- A copy can be read: on an unlisted grain, with at least one decodable copy. -/
def copyReadable (unreadable : List (Nat × Nat)) (c : Copy) : Bool :=
  !unreadable.contains (c.nsid, c.grain) && !(c.bad1 && (!c.vat || c.bad2))

/-- Two locations lie in the same barrel, or in the same vat block. -/
def sameHome (a b : MapEntry) (s : State) : Bool :=
  if a.vhint = 5 ∨ b.vhint = 5 then decide (a.die = b.die ∧ a.block = b.block)
  else s.mm.barrels.any (fun x => inBarrel x.num a s && inBarrel x.num b s)

/-- The last stripe of a barrel, or page of a vat block, that holds a placed grain: of those the replayed map names and those of the PLACE
records (R173). -/
def lastPlaced (c : Copy) (entries : List MapEntry) (s : State) : Option Nat :=
  (entries.filter (fun e => sameHome c.loc e s)).foldl (fun (m : Option Nat) e => some (Nat.max (m.getD 0) e.page)) none

/-- A tag is read by the scan: it lies after the last placed stripe, or anywhere when a segment had no readable copy (R173, R176; log entry
87). -/
def scanned (s : State) (gap : Bool) (entries : List MapEntry) (c : Copy) : Bool :=
  gap || (match lastPlaced c entries s with
    | some p => decide (p < c.loc.page)
    | none => true)

/-- Entries of the root's map that still count: the namespace exists, and its latest create or format lies before the replay point (R173; log
entry 88). -/
def rootEntries (ns : List Ns) (replayCsn : Nat) (m : List (Nat × MapEntry)) : List (Nat × MapEntry) :=
  m.filter (fun x => ns.any (fun n => decide (n.nsid = x.1 / 2 ^ 40 ∧ (n.migrated ∨ n.opcsn < replayCsn))))

/-- A grain whose commit has no copy at or above its CSN: lost with cause 2, reported and asked of the peer (R175, R48). -/
def loseAcked (nsid grain csn : Nat) (s : State) : State :=
  let e := getEntry nsid grain s
  let s := jAppend (jLost nsid grain 1 csn 2) (putEntry nsid grain e.asLost s)
  let a := grainSlba nsid grain s
  let n := grainNlb nsid s
  askRepair nsid grain csn (deferFault nsid 2 csn csn a n (listLost nsid a n 2 csn s))

/-- Step 12 of Table 2.3 after a power loss. -/
def mapRecoveryEff (unreadableSegs : List Nat) (unreadable : List (Nat × Nat)) (replayMs scanMs : Nat) (s : State) : State :=
  if s.gen.mode ≠ .boot ∨ ¬ s.prov.valid ∨ getF Reg.GEN_START.KIND s ≠ 1 ∨ s.mx.recovered then s
  else
    let root := newestRoot s
    let from_ := (root.map (·.replaySeq)).getD 0
    let rcsn := (root.map (·.replayCsn)).getD 0
    let segs := segsToReplay unreadableSegs from_ s.nand.segs
    let gap := (s.nand.segs.filter (fun g => decide (from_ ≤ g.seq))).any (fun g => unreadableSegs.contains g.seq)
    let intents := ((root.map (·.blocks)).getD []).filterMap (fun b => if b.2.intent then some (b.1 / 16384, b.1 % 16384) else none)
    let r0 : Replay := ⟨rootEntries s.prov.ns rcsn s.mx.map, [], rcsn, intents, false, s.nand.ceil⟩
    let r1 := replayAll s.prov.ns (segs.flatMap (·.recs)) r0
    let placed := (r1.map.map (·.2)).filter (·.stored) ++ ((segs.flatMap (·.recs)).filter (fun x => x.typ == 0x02)).filterMap (·.be)
    let found := s.nand.copies.filter (scanned s gap placed)
    let tags := found.filter (copyReadable unreadable)
    let r2 := tags.foldl (resolveTag s s.prov.ns rcsn) r1
    let lostG := r2.table.filter (fun x => x.2.2)
    let resolved := r2.map.filter (fun x => x.2.stored && sGet r1.map .initial x.1 != x.2)
    let touched := s.mm.barrels.filter (fun b => gap || b.state == 0 || found.any (fun c => !c.vat && inBarrel b.num c.loc s))
    -- a copy that could not be read shows in JNLCOPY (Table 6.25)
    let s := flagIf (unreadableSegs != []) Reg.MX_ERR.JNLCOPY (flagIf gap Reg.MX_ERR.JNLGAP s)
    let s := setSat Reg.MX_STARTUP.REPLAY replayMs (setSat Reg.MX_STARTUP.SCAN scanMs s)
    let s := setSat Reg.MX_SCAN.BARRELS touched.length (setSat Reg.MX_SCAN.DUPS tags.length s)
    let last := match (segs.map (fun g => lastCommitOf g.recs)).filter (fun c => c != 0) with
      | [] => rcsn
      | l => l.getLastD 0
    let s := { s with
      mx := { s.mx with map := r2.map, redo := r2.redo, csn := r2.ceil, ceil := r2.ceil, dirty := true },
      ns := s.ns.map (withCsns (csnsFound (segs.flatMap (·.recs)) tags)) }
    let s := setF Reg.GEN_START.DRAINOK (if r1.drain then 1 else 0) s
    let s := resolved.foldl (fun t x =>
      jAppend (jPlace (x.1 / 2 ^ 40) (x.1 % 2 ^ 40) (((copyAt (x.1 / 2 ^ 40) (x.1 % 2 ^ 40) x.2 t).map (·.csn)).getD 0) x.2) t) s
    let s := lostG.foldl (fun t x => loseAcked (x.1 / 2 ^ 40) (x.1 % 2 ^ 40) x.2.1 t) s
    let s := if r1.drain then s
      else (s.prov.ns.filter (fun n => n.sealInfo.isNone)).foldl (fun t n => deferFault n.nsid 2 (last + 1) (2 ^ 64 - 1) 0 0 t) s
    -- every barrel that was open is closed short (R197)
    let s := (s.mm.openB.map (·.num)).foldl (fun t b => closeShort b t) s
    -- a new ceiling above the counter becomes durable (R163)
    let s := jAppend (jCsnRes (s.mx.ceil + 2 ^ 26)) { s with mx := { s.mx with recovered := true, ceilPend := some (s.mx.ceil + 2 ^ 26) } }
    let s := journalNow s
    { s with mx := { s.mx with lag := lagFrom from_ s } }

/-- MAP_RECOVERY (R173 to R176, R48, R197). -/
def execMapRecovery (unreadableSegs : List Nat) (unreadable : List (Nat × Nat)) (replayMs scanMs : Nat) (s : State) :
    Host.Outcome State Fault Refusal :=
  .next (mapRecoveryEff unreadableSegs unreadable replayMs scanMs s)

/-- A block is erased: what it held is gone, READS and PPTR are 0. -/
def wipeBlock (d b : Nat) (s : State) : State :=
  let inBlk := fun (c : Copy) => decide ((c.loc.die, c.loc.block) = namedPlace d b s)
  updBlk d b (fun x => { x with reads := 0, pptr := 0, age := 0, refresh := false, intent := false })
    { s with nand := { s.nand with copies := s.nand.copies.filter (fun c => !inBlk c) } }

/-- A half-erased block (R203): redone, blank-checked, recorded with 2 or 3 operations, or retired. -/
def halfErasedBlockRedoEff (die block : Nat) (blankPass1 blankPass2 : Bool) (s : State) : State :=
  if ¬ s.mx.redo.contains (die, block) then s
  else
    let ops := if blankPass1 then 2 else 3
    let bad := !blankPass1 && !blankPass2
    let count := Nat.min ((getBlk die block s).erases + ops) 16777215
    let s := wipeBlock die block s
    let s := updBlk die block (fun x => { x with erases := count }) s
    let s := flagIf (!blankPass1) Reg.MM_ERR.BLANKFAIL s
    let s := jAppend (jEraseDone die block s.mx.csn count ops bad)
      { s with mx := { s.mx with redo := s.mx.redo.filter (fun x => decide (x ≠ (die, block))) } }
    if bad then retireBlock die block 2 s else s

/-- HALF_ERASED_BLOCK_REDO (R203, R200, R204). -/
def execHalfErasedBlockRedo (die block : Nat) (blankPass1 blankPass2 : Bool) (s : State) : Host.Outcome State Fault Refusal :=
  .next (halfErasedBlockRedoEff die block blankPass1 blankPass2 s)

/-! Open stripes (R221). -/

/-- The positions missing from an open stripe: not verified, void, or on a failed member. -/
def stripeMissing (o : OpenStripe) (g : Group) (s : State) : List Nat :=
  (List.range g.width).filter (fun p =>
    !o.verified.contains p || g.missing.contains p ||
    s.sp.voids.any (fun v => decide (v.barrel = o.barrel ∧ v.pos = p ∧ v.first ≤ o.stripe ∧ o.stripe < v.first + v.count)))

/-- A stripe is whole. -/
def stripeWhole (o : OpenStripe) (g : Group) (s : State) : Bool :=
  let miss := stripeMissing o g s
  let r := barrelRow o.barrel
  let pq := (if miss.contains (posP g r) then 0 else 1) + (if miss.contains (posQ g r) then 0 else 1)
  (decide (miss.length ≤ 2) && pq == 2) || (decide (miss.length ≤ 1) && decide (1 ≤ pq))

/-- The grains the map names in the data units of a stripe. -/
def stripeGrains (o : OpenStripe) (g : Group) (s : State) : List (Nat × MapEntry) :=
  let r := barrelRow o.barrel
  let lastData := fun (e : MapEntry) => decide (memberIndex g (g.posOf e.die) r + 1 = g.width - 2)
  s.mx.map.filter (fun e => e.2.stored && e.2.vhint != 5 && g.members.contains e.2.die && rowBlock g (g.posOf e.2.die) r s == e.2.block &&
    (e.2.page == o.stripe || (e.2.page + 1 == o.stripe && spansUnits e.2 && lastData e.2)))

/-- Copy a grain to the vat with its origin CSN, and swap the map entry to it (R221, R227). -/
def copyToVat (nsid grain : Nat) (c : Copy) (s : State) : State :=
  match takeVatPage (openPairs s) s with
  | none => s
  | some (l, s1) =>
    let loc := vatEntry l.1 l.2.1 l.2.2.1 l.2.2.2 0 c.loc.glen s1
    let s1 := vatProgrammed l s1
    let d : Copy := { c with loc := loc, vintage := 5, vat := true, bad1 := false, bad2 := false }
    swapEntry nsid grain c.loc loc { s1 with nand := { s1.nand with copies := s1.nand.copies ++ [d] } }

/-- Handle one open stripe: voids for a whole one; relocation, or loss with cause 2, for the grains of an orphan. -/
def settleStripe (unreadable : List (Nat × Nat)) (o : OpenStripe) (s : State) : State :=
  match findGroup (barrelGroup o.barrel) s with
  | none => s
  | some g =>
    if stripeWhole o g s then
      let listed := fun (p : Nat) => s.sp.voids.any (fun v => decide (v.barrel = o.barrel ∧ v.pos = p ∧ v.first ≤ o.stripe ∧ o.stripe < v.first + v.count))
      let add := (stripeMissing o g s).filter (fun p => !listed p)
      { s with sp := { s.sp with voids := (s.sp.voids ++ add.map (fun p => (⟨o.barrel, p, o.stripe, 1, 2⟩ : VoidEnt))).take 1024 } }
    else
      let s := flagOn Reg.SP_ERR.ORPHAN s
      (stripeGrains o g s).foldl (fun t e =>
        let n := e.1 / 2 ^ 40
        let k := e.1 % 2 ^ 40
        match copyAt n k e.2 t with
        | some c => if unreadable.contains (n, k) then loseAcked n k c.csn t else copyToVat n k c t
        | none => loseAcked n k 0 t) s

/-- Step 14: every open stripe of the newest snapshot. -/
def openStripeCompletionEff (unreadable : List (Nat × Nat)) (s : State) : State :=
  if s.gen.mode ≠ .boot ∨ ¬ s.prov.valid ∨ s.sp.stripesDone then s
  else
    let opens := if getF Reg.GEN_START.KIND s ≠ 1 then [] else match s.sp.taken with
      | some n => n.opens
      | none => opensOf s.nand.phys.openB
    let s := opens.foldl (fun t o => settleStripe unreadable o t) s
    { s with sp := { s.sp with stripesDone := true } }

/-- OPEN_STRIPE_COMPLETION (R221). -/
def execOpenStripeCompletion (unreadable : List (Nat × Nat)) (s : State) : Host.Outcome State Fault Refusal :=
  .next (openStripeCompletionEff unreadable s)

/-! The end of start-up. -/

/-- Keys (R246) and unfinished crypto erases (R247) of one namespace. -/
def startNsKey (n : Ns) (s : State) : State :=
  if ¬ n.xts then s
  else if n.cekey then
    -- the wrapped copies are erased and a new key is drawn and wrapped (R247 steps 2 to 4)
    flagOn Reg.DC_ERR.CEKEY (deallocAll n.nsid (putKey n.nsid 2 (dropKey n.nsid (updNs n.nsid (fun x => { x with cekey := false, keyGen := x.keyGen + 1 }) s))))
  else match s.ff.keys.find? (fun k => k.1 == n.nsid) with
    | some (_, 0) =>
      let s := flagOn Reg.DC_ERR.UNWRAP s
      if s.prov.pair.isSome then wrapKey n.nsid { s with ff := { s.ff with keys := updFirst s.ff.keys (fun k => k.1 == n.nsid) (fun k => (k.1, 2)) } }
      else updNs n.nsid (fun x => { x with sealInfo := some (s.mx.csn, true) }) s
    | _ => s

/-- The mode row 2 ends in: the recorded mode; SEALED under an exhaustion seal, but for a member recorded STANDBY (R35, R38). -/
def startMode (s : State) : Mode :=
  if s.prov.exhaustSeal ∧ s.prov.mode ≠ .standby then .sealed else s.prov.mode

/-- The twin state a member starts in: the member that serves stands LOST until a rejoin; the standby waits as SEEDING. -/
def startTwin (m : Mode) (s : State) : Tw :=
  match s.prov.pair with
  | none => s.tw
  | some (peer, _) => { s.tw with st := if m = .standby then .seeding else .lost, active := decide (m ≠ .standby), peer := peer }

/-- What a restart does to a migration session (Table 13.5A). -/
def startMigration (s : State) : State :=
  if s.prov.migMark = 1 then
    let ids := (s.ns.filter (·.cutAway)).map (·.nsid)
    flagOn Reg.TW_ERR.CUTUNK { s with tw := { s.tw with mig := { s.tw.mig with unknown := true, role := 1, phase := 5, nsids := ids } } }
  else if s.gen.mode = .ingest then
    let keep := fun (n : Ns) => decide (s.prov.migMark = 2) || !n.ingesting
    -- the origin CSNs stored before the restart lie under the counter from here on (R18)
    let s := raiseToOrigins s
    let s := { s with ns := s.ns.filter keep, prov := { s.prov with ns := s.prov.ns.filter keep } }
    enterModeEv 13 .service { s with
      ns := s.ns.map (fun (n : Ns) => { n with ingesting := false }),
      prov := { s.prov with migMark := 0, ns := s.prov.ns.map (fun (n : Ns) => { n with ingesting := false }) } }
  else s

/-- ARB rises to the running image's SVN (R359). -/
def raiseArb (s : State) : State :=
  match s.dg.runImg with
  | some i => if s.fuses.arb < i.svn then { s with fuses := { s.fuses with arb := i.svn } } else s
  | none => s

/-- Row 2 of Table 2.2. -/
def startServe (s : State) : State :=
  let m := startMode s
  let s := { s with
    mx := { s.mx with recovered := true, ceilPend := some (s.mx.csn + 2 ^ 26), rootAt := now s },
    tw := startTwin m s, ns := s.ns.map (fun (n : Ns) => { n with owner := decide (m ≠ .standby) }) }
  -- a new ceiling is durable before the first commit (R163)
  let s := journalNow (jAppend (jCsnRes (s.mx.csn + 2 ^ 26)) s)
  let s := (s.ns).foldl (fun t n => startNsKey n t) s
  let groups := (s.sp.groups.filter (fun g => !g.dissolved)).map (·.num)
  let s := resumeErases s
  let s := { s with fs := { s.fs with turn := (groups.take (inForce Reg.FS_VAT.GROUPS s)).map (fun g => (g, fretNow s)) } }
  let old := s.prov.mode
  let s := askDue (enterMode 2 m s)
  let s := if old ≠ m then evModeChanged s else s
  let s := if (s.dg.runImg.map (·.deferArb)).getD true then s else raiseArb s
  startMigration s

/-- The token after start-up, as the provisioning record directs (Table 2.9); without a record management keeps it. -/
def startToken (s : State) : State :=
  if s.prov.valid ∧ ¬ s.prov.keepToken then { s with gen := { s.gen with holder := .none } }
  else { s with gen := { s.gen with holder := .mgmt } }

/-- Entries that DRAIN could not write are recorded as one (R376). -/
def startDrainLost (s : State) : State :=
  if s.mg.drainLost = 0 then s
  else logEvent 0x0002 1 14 false [s.mg.drainLost] { s with mg := { s.mg with drainLost := 0 } }

/-- Start-up ends by row 2, 3, 4 or 5; row 4 comes before row 5 under the fence (log entry 106). -/
def startupCompleteEff (durationMs : Nat) (s : State) : State :=
  if s.gen.mode ≠ .boot then s
  else if s.gen.bootRow = 5 then enterQuarantine 5 s
  else if ¬ s.gen.bootVerified then s
  else
    let s := startDrainLost (startToken s)
    if s.gen.bootRow = 4 then enterMode 4 .recovery s
    else if s.pins.fenceIn then enterQuarantine 5 s
    else if ¬ s.prov.valid then enterMode 3 .provision s
    else startServe (setSat Reg.GEN_START.DURATION durationMs s)

/-- STARTUP_COMPLETE (R34 rows 2 to 5, R35, R38, R128, R163, R246, R247, R335, R340, R359). -/
def execStartupComplete (durationMs : Nat) (s : State) : Host.Outcome State Fault Refusal :=
  .next (startupCompleteEff durationMs s)

end Sys2Proof.Machine
end

