-- ==== Sys2Proof/Machine/MmOps.lean ====
section
/-! DEFINITION. Media management's shared operations: what a barrel holds, wordline rows, program results, erases, and the choice of a racking
source (R183, R187 to R196, R200 to R207, R275, R276). -/
namespace Sys2Proof.Machine

/-! What lies where. -/

/-- A record of a kind is appended and not yet durable. -/
def recPending (p : JRec → Bool) (s : State) : Bool :=
  s.mx.jpend.any p || (match s.mx.jfly with
    | some f => f.2.any p
    | none => false)

/-- A location lies in a vat slot of the pair at member position `m`. -/
def inSlot (g : Group) (m v : Nat) (e : MapEntry) (s : State) : Bool :=
  e.vhint == 5 && decide (e.die = g.die m) && vatBlock g m v s == some e.block

/-- The vintage a copy of a grain takes (Table 7.4): bottling by RGEN, racking and refresh by the vintage it leaves. -/
def copyVintage (e : MapEntry) : Nat :=
  if e.vhint = 5 then (if e.rgen ≤ 1 then 1 else 0) else if e.vhint ≤ 1 then 2 else 3

/-- The valid grains whose location satisfies `f`, each as a copy to be placed: those the map names, and those a staging record's prior copy
still names (R194). -/
def validGrains (f : MapEntry → Bool) (s : State) : List Placed :=
  let one := fun (n k : Nat) (e : MapEntry) =>
    let c := copyAt n k e s
    (⟨n, k, (c.map (·.csn)).getD 0, none, some e, { MapEntry.initial with vhint := copyVintage e, glen := e.glen, dealloc := false }, [],
      (c.map (·.lbas)).getD []⟩ : Placed)
  (s.mx.map.filter (fun x => x.2.stored && f x.2)).map (fun x => one (x.1 / 2 ^ 40) (x.1 % 2 ^ 40) x.2) ++
  (s.mx.staged.filter (fun r => r.prior.stored && f r.prior)).map (fun r => one r.nsid r.grain r.prior)

/-- Valid granules of a barrel. -/
def validGranules (num : Nat) (s : State) : Nat := sumOf ((validGrains (fun e => inBarrel num e s) s).map (fun p => p.dst.glen))

/-- Granules a barrel has room for. -/
def barrelGranules (num : Nat) (s : State) : Nat :=
  match findGroup (barrelGroup num) s with
  | some g => qlcPages * (g.width - 2) * qlcUnit
  | none => 0

/-! Wordline rows (R187). -/

/-- A group is on vat turn (R128). -/
def onTurn (g : Nat) (s : State) : Bool := s.fs.turn.any (fun t => t.1 == g)

/-- A copy has a place in a row already. -/
def inRows (p : Placed) (s : State) : Bool := s.mm.openB.any (fun b => b.rows.any (fun r => r.placed.any (fun q => samePlaced p q)))

/-- The data that waits to be gathered into barrels of a vintage: merged staged grains in commit order, then copies (R183, R187, R299). -/
def pendingFor (v : Nat) (s : State) : List Placed :=
  (s.mx.staged.filter (fun r => r.vintage == v && r.merged && !r.queued && !r.poisoned)).map (fun r =>
    (⟨r.nsid, r.grain, r.csn, some r.stidx, none, { MapEntry.initial with glen := r.glen, vhint := v, dealloc := false }, [], r.lbas⟩ : Placed)) ++
  (s.mm.racking.flatMap (·.2)).filter (fun p => decide (p.dst.vhint = v) && !inRows p s)

/-- Place the grains of a row: unit `u` of the row is stripe 4w + u / (W − 2), data member u mod (W − 2) (R152, R209). -/
def placeAt (g : Group) (row w vintage start : Nat) (p : Placed) (s : State) : Placed :=
  let n := g.width - 2
  let u := start / qlcUnit
  let off := start % qlcUnit
  let last := (start + p.dst.glen - 1) / qlcUnit
  let pos := posData g row (u % n)
  { p with
    dst := { p.dst with die := g.die pos, block := rowBlock g pos row s, page := 4 * w + u / n, plane := off / 30, goff := off % 30, vhint := vintage },
    members := if last = u then [pos] else addOnce [pos] (posData g row (last % n)) }

/-- The next wordline row of a barrel, once its data is complete: the grains that fit, when they fill it. A V4 row is complete while a sweep
writes. -/
def composeRow (b : OpenBarrel) (g : Group) (s : State) : Option Row :=
  let cap := 4 * (g.width - 2) * qlcUnit
  let items := pendingFor b.vintage s
  let starts := packStarts qlcUnit (items.map (·.dst.glen)) 0 0
  let pairs := items.zip starts
  let full := if b.vintage = 4 then s.mx.sweep.isSome else pairs.any (fun x => decide (cap ≤ x.2 + x.1.dst.glen))
  if b.halt ∨ b.nextW ≥ 384 ∨ ¬ full then none
  else
    let fit := pairs.filter (fun x => decide (x.2 + x.1.dst.glen ≤ cap))
    some ⟨b.nextW, fit.map (fun x => placeAt g (barrelRow b.num) b.nextW b.vintage x.2 x.1 s), [], [], []⟩

/-- Change an open barrel. -/
def updOpen (num : Nat) (f : OpenBarrel → OpenBarrel) (s : State) : State :=
  { s with mm := { s.mm with openB := updFirst s.mm.openB (fun b => b.num == num) f } }

/-- Change a row of an open barrel. -/
def updRow (num w : Nat) (f : Row → Row) (s : State) : State :=
  updOpen num (fun b => { b with rows := updFirst b.rows (fun r => r.w == w) f }) s

/-- A row joins its barrel, and its staged grains have their place. -/
def addRow (num : Nat) (r : Row) (s : State) : State :=
  let ids := r.placed.filterMap (·.stidx)
  let s := updOpen num (fun b => { b with nextW := b.nextW + 1, rows := b.rows ++ [r] }) s
  { s with mx := { s.mx with staged := s.mx.staged.map (fun (x : Staged) => if ids.contains x.stidx then { x with queued := true } else x) } }

/-- The row a member programs next: the first row of its barrel that it has not started, once its earlier programs have ended; else a new row. -/
def nextRowOf (b : OpenBarrel) (g : Group) (m : Nat) (s : State) : Option (Row × Bool) :=
  if b.rows.any (fun r => r.started.contains m && !r.verified.contains m && !r.failed.contains m) then none
  else match b.rows.find? (fun r => !r.started.contains m) with
    | some r => some (r, false)
    | none => (composeRow b g s).map (fun r => (r, true))

/-! A member's program fails or is refused (R206, R207, R276). -/

/-- Copies of a set of valid grains are set to work under a key. A grain that cannot be read is lost: with cause 4 when both vat copies are
unreadable, else with cause 1 (R191, R227). -/
def startCopies (key : Nat) (unreadable : List (Nat × Nat)) (ps : List Placed) (s : State) : State :=
  let bad := fun (p : Placed) => unreadable.contains (p.nsid, p.grain) || (match p.src with
    | some e => match copyAt p.nsid p.grain e s with
      | some c => c.bad1 && (!c.vat || c.bad2)
      | none => true
    | none => true)
  let cause : Placed → Nat := fun p => if p.src.any (fun e => e.vhint == 5) then 4 else 1
  let good := ps.filter (fun p => !bad p)
  let s := (ps.filter bad).foldl (fun t p =>
    if (getEntry p.nsid p.grain t).stored then
      (if cause p = 1 then threeMissing [(p.nsid, p.grain)] t else loseStored p.nsid p.grain 4 t)
    else t) s
  finishRacking (countEntries (good.filterMap (·.src)) { s with mm := { s.mm with racking := s.mm.racking ++ [(key, good)] } })

/-- Grains already placed from wordline w − 1 of the member are read back and refreshed. -/
def refreshBefore (d b w : Nat) (s : State) : State :=
  if w = 0 then s
  else
    let ps := validGrains (fun e => decide (e.vhint ≠ 5 ∧ e.die = d ∧ e.block = b ∧ 4 * (w - 1) ≤ e.page ∧ e.page < 4 * w)) s
    let fresh := ps.filter (fun p => !(s.mm.racking.flatMap (·.2)).any (fun q => samePlaced p q))
    if fresh = [] then s else startCopies (refreshKey d b) [] fresh s

/-- Member `m` fails wordline `w` of a barrel. Its grains of w go back to gathering; copies on w and w − 1 are placed again elsewhere; the units
are void; the barrel halts. -/
def memberFailed (b : OpenBarrel) (g : Group) (w m : Nat) (s : State) : State :=
  let hit := fun (r : Row) (p : Placed) => p.members.contains m && (decide (r.w = w) || (p.src.isSome && decide (r.w + 1 = w)))
  let back := (b.rows.filter (fun r => r.w == w)).flatMap (fun r => (r.placed.filter (fun p => p.members.contains m)).filterMap (·.stidx))
  let s := unqueueRows b.rows s
  let s := { s with mx := { s.mx with
    staged := s.mx.staged.map (fun (x : Staged) => if back.contains x.stidx then { x with queued := false } else x) } }
  let row := fun (r : Row) =>
    { r with placed := r.placed.filter (fun p => !hit r p), failed := if r.w = w then addOnce r.failed m else r.failed,
             started := if r.w = w then addOnce r.started m else r.started }
  let s := updOpen b.num (fun x =>
    let rows := (x.rows.map row).filter (fun r => !r.started.isEmpty)
    { x with halt := true, rows := rows, nextW := x.nextW - (x.rows.filter (fun r => r.started.isEmpty && r.w != w)).length }) s
  let first := if w = 0 then 0 else 4 * (w - 1)
  let s := { s with sp := { s.sp with voids := (s.sp.voids ++ [(⟨b.num, m, first, 4 * w + 4 - first, 1⟩ : VoidEnt)]).take 1024 } }
  refreshBefore (g.die m) (rowBlock g m (barrelRow b.num) s) w s

/-! The end of a row. -/

/-- A missing member's place is taken by a spare whose rebuild has begun: new barrels use it (R223). -/
def spareServes (g : Group) (m : Nat) (s : State) : Bool := s.sp.subst.any (fun e => decide (e.src = g.die m ∧ (e.state = 2 ∨ e.state = 3)))

/-- Every member in service has ended a row's program. -/
def rowDone (g : Group) (s : State) (r : Row) : Bool :=
  (List.range g.width).all (fun m => (g.missing.contains m && !spareServes g m s) || r.verified.contains m || r.failed.contains m)

/-- Close a full barrel. -/
def closeFull (num : Nat) (s : State) : State :=
  match s.mm.openB.find? (fun b => b.num == num) with
  | none => s
  | some b =>
    let s := settleBarrel true b s
    let s := { s with mm := { s.mm with
      openB := s.mm.openB.filter (fun x => x.num != num),
      barrels := updFirst s.mm.barrels (fun x => x.num == num) (fun x => { x with state := 1, lastStripe := 1535 }) } }
    jAppend (jClose 1535 num s.mx.csn false) s

/-- After a program ended: settled copies are swapped, rows with nothing left to do are forgotten, and a finished barrel closes, short if it
was halted. -/
def afterProgram (num : Nat) (s : State) : State :=
  match s.mm.openB.find? (fun b => b.num == num), findGroup (barrelGroup num) s with
  | some b, some g =>
    let s := settleBarrel false b s
    let s := updOpen num (fun x => { x with rows := x.rows.filter (fun r =>
      !(rowDone g s r && r.placed.isEmpty && x.rows.any (fun n => n.w == r.w + 1 && rowDone g s n))) }) s
    if b.rows.all (rowDone g s) then
      (if b.halt then closeShort num s else if b.nextW ≥ 384 then closeFull num s else s)
    else s
  | _, _ => s

/-- Granules of a grain's raw form (R236). -/
def rawGranules (nsid : Nat) (s : State) : Nat :=
  match findNs nsid s with
  | some n => ceilDiv (n.k * (lbaBytes n.lbaf + mdBytes n.lbaf)) 512
  | none => 0

/-! Use of the vat (R186, Table 7.20). -/

/-- Bytes of the vat's unique space in use, and of host data in it that awaits bottling. -/
def vatBytes (s : State) : Nat :=
  sumOf (s.mm.vat.map (fun v => 65536 * (v.full.length * slcPages + v.nextPage)))

/-- Bytes of host data whose map entry names a vat copy. -/
def unbottledBytes (s : State) : Nat :=
  sumOf ((s.nand.copies.filter (fun c => c.vat && c.vintage == 5 && (getEntry c.nsid c.grain s).stored && sameLoc c.loc (getEntry c.nsid c.grain s))).map (fun c => 512 * c.loc.glen))

/-- A staged grain's data is stored at its destination: the copy exists, PLACE is recorded, and what compression saved is counted. -/
def storePlaced (vat : Bool) (p : Placed) (s : State) : State :=
  match p.stidx with
  | none => s
  | some i =>
    let c : Copy := ⟨p.dst, p.nsid, p.grain, p.csn, p.dst.vhint, p.lbas, vat, false, false⟩
    let s := { s with nand := { s.nand with copies := s.nand.copies ++ [c] }, mx := { s.mx with saved := s.mx.saved + (rawGranules p.nsid s - p.dst.glen) } }
    let marked := p.lbas.any (fun v => v == .dealloc || v == .lost)
    placeStaged i p.dst (if ¬ marked ∧ rawGranules p.nsid s ≤ p.dst.glen then bump Reg.DC_RAWCNT.COUNT s else s)

/-- The staged grains of a passed wordline learn which others share their unit (R188). -/
def withMates (ps : List Placed) (s : State) : State :=
  let mates := fun (i : Nat) => (ps.filter (fun p => ps.any (fun q => q.stidx == some i && decide (q.dst.die = p.dst.die ∧ q.dst.page = p.dst.page)))).filterMap (·.stidx)
  { s with mx := { s.mx with staged := s.mx.staged.map (fun (r : Staged) => { r with mates := mates r.stidx }) } }

/-- A member's wordline passed: grains whose every member has verified are stored (R161, R188). -/
def memberPassed (x : OpenBarrel) (r : Row) (m : Nat) (s : State) : State :=
  let ver := addOnce r.verified m
  let go := r.placed.filter (fun p => p.stidx.isSome && p.members.all (fun k => ver.contains k))
  let s := updRow x.num r.w (fun y => { y with verified := addOnce y.verified m, placed := y.placed.filter (fun p => !go.any (fun q => samePlaced p q)) }) s
  let s := withMates go s
  afterProgram x.num (go.foldl (fun t p => storePlaced false p t) s)

/-! Program refusal (R275). -/

/-- Whether CS refuses a program: 0 below PPTR, 1 for order or block state. -/
def programRefused (d b target : Nat) (s : State) : Option Nat :=
  let x := getBlk d b s
  if target < x.pptr then some 0 else if x.pptr < target ∨ x.retired ∨ x.intent then some 1 else none

/-- A refused program is counted, located and logged. -/
def refuseProgram (d b target why : Nat) (s : State) : State :=
  let p := (getBlk d b s).pptr
  let s := setF Reg.CS_ERRLOC0.DIE d (setF Reg.CS_ERRLOC0.BLOCK b (setF Reg.CS_ERRLOC1.PAGE target (setF Reg.CS_ERRLOC1.PPTR p s)))
  let s := if why = 0 then flagOn Reg.CS_ERR.NOTERASED (bump Reg.CS_REFUSE.NOTERASED s) else flagOn Reg.CS_ERR.ORDER (bump Reg.CS_REFUSE.ORDER s)
  logEvent 0x0301 2 8 true [d, b, target, p, why] s

/-! Erases (R200, R202). -/

/-- The intent of a block is appended and not yet durable. -/
def eraseIntPending (d b : Nat) (s : State) : Bool := recPending (fun r => r.typ == 0x09 && r.key == d + 2 ^ 11 * b) s

/-- The completion of a block's erase is appended and not yet durable. -/
def eraseDonePending (d b : Nat) (s : State) : Bool := recPending (fun r => r.typ == 0x0A && r.key == d + 2 ^ 11 * b) s

/-- A block is erased with its count and records, in one go. -/
def eraseNow (x : Nat × Nat) (s : State) : State :=
  let n := Nat.min ((getBlk x.1 x.2 s).erases + 1) 16777215
  let s := jAppend (jEraseInt x.1 x.2 s.mx.csn) s
  let s := updBlk x.1 x.2 (fun k => { k with erases := n }) (wipeBlock x.1 x.2 s)
  jAppend (jEraseDone x.1 x.2 s.mx.csn n 1 false) s

/-- A block of a vat slot still waits for its erase, or for the record of it. -/
def eraseOwed (d b : Nat) (s : State) : Bool :=
  s.mm.eraseInt.any (fun y => decide (y.1 = d ∧ y.2.1 = b)) || eraseDonePending d b s

/-- A vat slot's erase has not ended, or its record is not durable. -/
def slotErasing (p : VatPair) (v : Nat) (s : State) : Bool :=
  match findGroup p.group s with
  | some g => (match vatBlock g p.pos v s with
    | some b => (vatDies g p.pos s).any (fun d => eraseOwed d b s)
    | none => false)
  | none => false

/-- A retired slot whose partner's block is erased is rebuilt from the lowest block number that is spare and good on both dies; else the pair
runs with one slot fewer (R205). DESIGN CHOICE: the spec says only that such a block number exists; the model takes the lowest (log entry 114). -/
def reformSlot (p : VatPair) (v : Nat) (s : State) : State :=
  match findGroup p.group s with
  | none => s
  | some g => match memberDie g p.pos s, memberDie g (p.pos + g.width / 2) s, vatBlock g p.pos v s with
    | some a, some b, some old =>
      let q := getPair p.group p.pos s
      (match (List.range blocksPerDie).find? (fun x => isSpareBlk g p.pos a x s && isSpareBlk g (p.pos + g.width / 2) b x s) with
      | some x =>
        let s := { s with mm := { s.mm with replaced := s.mm.replaced ++ [⟨g.die p.pos, old, x⟩, ⟨g.die (p.pos + g.width / 2), old, x⟩] } }
        putPair { q with retired := q.retired.filter (fun y => y != v), nextPage := if q.openSlot = v then 0 else q.nextPage } s
      | none => flagOn Reg.MM_ERR.VATSLOT (putPair { q with gone := addOnce q.gone v } s))
    | _, _, _ => s

/-- Staged grains of a vintage that wait for a row. -/
def waiting (v : Nat) (s : State) : List Staged := s.mx.staged.filter (fun r => r.vintage == v && r.merged && !r.queued && !r.poisoned)

/-- Grains that a gather timeout left in staging for want of a vat page are written as soon as one is free (R189). -/
def retryGather (s : State) : State :=
  s.mm.gatherWait.foldl (fun t v =>
    let t := bookVat (waiting v t) [] t
    { t with mm := { t.mm with gatherWait := if waiting v t = [] then t.mm.gatherWait.filter (fun x => x != v) else t.mm.gatherWait } }) s

/-- Vat slots whose erase has ended and whose records are durable may open again (R202); retired ones are rebuilt (R205). -/
def freeSlots (s : State) : State :=
  retryGather <| s.mm.vat.foldl (fun t (p : VatPair) =>
    let done := p.erasing.filter (fun v => !slotErasing p v s)
    let t := putPair { getPair p.group p.pos t with erasing := p.erasing.filter (fun v => !done.contains v) } t
    (done.filter (fun v => p.retired.contains v)).foldl (fun u v => reformSlot p v u) t) s

/-- Barrels whose erase has ended and whose records are durable become free (R192). -/
def freeErased (s : State) : State :=
  let s := freeSlots s
  let still := fun (b : Barrel) => b.state != 2 || s.mm.rackdone.contains b.num ||
    (barrelBlocks b.num s).any (fun x => s.mm.eraseInt.any (fun y => decide (y.1 = x.1 ∧ y.2.1 = x.2)) || eraseDonePending x.1 x.2 s ||
      (getBlk x.1 x.2 s).pptr != 0)
  { s with mm := { s.mm with barrels := s.mm.barrels.filter still } }

/-! Racking (R192, R193). -/

/-- A member block of a barrel asks for a refresh. -/
def wantsRefresh (num : Nat) (s : State) : Bool := (barrelBlocks num s).any (fun x => (getBlk x.1 x.2 s).refresh)

/-- A barrel is being rebuilt: a substitution of its group is at its row. -/
def rebuilding (num : Nat) (s : State) : Bool :=
  s.sp.subst.any (fun e => decide (e.group = barrelGroup num ∧ e.state = 2 ∧ e.nextRow = barrelRow num))

/-- Barrels that racking may take. -/
def rackable (s : State) : List Barrel :=
  s.mm.barrels.filter (fun b => decide (b.state = 1 ∧ b.vintage ≠ 4) && !rebuilding b.num s && !s.mm.racking.any (fun x => x.1 == b.num) &&
    !s.mm.rackdone.contains b.num)

/-- The lees granules of a barrel; void and unprogrammed units count. -/
def leesOf (b : Barrel) (s : State) : Nat := barrelGranules b.num s - validGranules b.num s

/-- Of a list of barrels, the one with the lowest OPEN CSN. -/
def oldestBarrel : List Barrel → Option Barrel
  | [] => none
  | b :: t => match oldestBarrel t with
    | none => some b
    | some c => if c.openCsn < b.openCsn then some c else some b

/-- The most lees wins; within 1/64 of a barrel the lower OPEN CSN decides. -/
def mostLees (bs : List Barrel) (s : State) : Option Barrel :=
  let top := maxOf (bs.map (fun b => leesOf b s))
  oldestBarrel (bs.filter (fun b => decide (top - leesOf b s < Nat.max 1 (barrelGranules b.num s / 64))))

/-- The next source (R193): groups that dissolve first (R228), then barrels with a block to refresh, then by lees. -/
def rackSource (s : State) : Option Barrel :=
  let bs := rackable s
  let dis := bs.filter (fun b => (findGroup (barrelGroup b.num) s).any (·.dissolving))
  let ref := bs.filter (fun b => wantsRefresh b.num s)
  if dis ≠ [] then mostLees dis s else if ref ≠ [] then mostLees ref s else mostLees bs s

/-- Rack a barrel. -/
def rackBarrel (num : Nat) (unreadable : List (Nat × Nat)) (s : State) : State :=
  startCopies num unreadable (validGrains (fun e => inBarrel num e s) s) s

/-! Erasing a namespace's blocks (Table 4.3, SES 1 and Sanitize). -/

/-- A block is cleared for its erase: grains of other namespaces move to the vat first. -/
def moveOthers (gone : Nat → Bool) (f : MapEntry → Bool) (s : State) : State :=
  ((validGrains f s).filter (fun p => !gone p.nsid)).foldl (fun t p =>
    match p.src with
    | some e => match copyAt p.nsid p.grain e t with
      | some c => copyToVat p.nsid p.grain c t
      | none => t
    | none => t) s

/-- Erase a barrel that held the data, if nothing valid is left in it. -/
def eraseBarrel (gone : Nat → Bool) (num : Nat) (s : State) : State :=
  let s := moveOthers gone (fun e => inBarrel num e s) (closeShort num s)
  if (validGrains (fun e => inBarrel num e s) s).any (fun p => !gone p.nsid) then s
  else
    let s := (barrelBlocks num s).foldl (fun t x => eraseNow x t) s
    { s with mm := { s.mm with
        barrels := s.mm.barrels.filter (fun b => b.num != num), rackdone := s.mm.rackdone.filter (fun x => x != num),
        racking := s.mm.racking.filter (fun x => x.1 != num) } }

/-- Erase a vat slot that held the data, if nothing valid is left in it. -/
def eraseSlot (gone : Nat → Bool) (g : Group) (m v : Nat) (s : State) : State :=
  let s := moveOthers gone (fun e => inSlot g m v e s) s
  if (validGrains (fun e => inSlot g m v e s) s).any (fun p => !gone p.nsid) then s
  else match vatBlock g m v s with
    | none => s
    | some b =>
      let s := (vatDies g m s).foldl (fun t d => eraseNow (d, b) t) s
      let p := getPair g.num m s
      putPair { p with full := p.full.filter (fun x => x != v), nextPage := if p.openSlot = v then 0 else p.nextPage } s

/-- Every block that held data of the namespaces that `gone` names is erased, and their copies are gone. -/
def eraseNamespaces (gone : Nat → Bool) (s : State) : State :=
  let mine := s.nand.copies.filter (fun c => gone c.nsid)
  let barrels := (s.mm.barrels.map (·.num)).filter (fun n => mine.any (fun c => !c.vat && inBarrel n c.loc s))
  let s := barrels.foldl (fun t n => eraseBarrel gone n t) s
  let slots := s.sp.groups.flatMap (fun g => (List.range (g.width / 2)).flatMap (fun m => ((List.range (getF Reg.MM_CFG.VATBLK s)).filter (fun v =>
    mine.any (fun c => c.vat && inSlot g m v c.loc s))).map (fun v => (g, m, v))))
  let s := slots.foldl (fun t x => eraseSlot gone x.1 x.2.1 x.2.2 t) s
  { s with nand := { s.nand with copies := s.nand.copies.filter (fun c => !gone c.nsid) } }

end Sys2Proof.Machine
end

