-- ==== Sys2Proof/Machine/Drain.lean ====
section
/-! DEFINITION. The DRAIN flush, step by step, as DRAIN and the entry flush of QUARANTINE run it, and the resets that may cut it short (R36, R43,
R47, Table 2.4). -/
namespace Sys2Proof.Machine

/-- A member's program that is under way in a row ends well. -/
def programEnds (num w m : Nat) (s : State) : State :=
  match s.mm.openB.find? (fun b => b.num == num) with
  | none => s
  | some b => match b.rows.find? (fun r => r.w == w) with
    | some r => if r.started.contains m ∧ ¬ r.verified.contains m ∧ ¬ r.failed.contains m then memberPassed b r m s else s
    | none => s

/-- Step 4: QLC programs already under way finish; each wordline that verifies releases its buffers. -/
def drainPrograms (s : State) : State :=
  (s.mm.openB.flatMap (fun b => b.rows.flatMap (fun r => r.started.map (fun m => (b.num, r.w, m))))).foldl
    (fun t x => programEnds x.1 x.2.1 x.2.2 t) s

/-- Step 5: acknowledged data that is not yet durable is written as vat copies. -/
def drainVat (s : State) : State := flushStaged (completeMerges s)

/-- Step 6: the journal tail and the stripe journal. -/
def drainTail (s : State) : State :=
  let s := journalNow s
  snapDurableNow (snapNow s) s

/-- Step 7: the DRAIN-complete record, and the event log's share (R376). -/
def drainRecord (s : State) : State :=
  let s := drainLog (journalNow (jAppend (jDrainDone s.mx.csn) s))
  { s with nand := { s.nand with drainDone := true } }

/-- The first `n` of steps 4 to 7, in order. -/
def drainSteps (n : Nat) (s : State) : State :=
  ([drainPrograms, drainVat, drainTail, drainRecord].take n).foldl (fun t f => f t) s

/-- Steps 4 to 7 of Table 2.4; step 3 came with the mode. -/
def drainFlush (s : State) : State := drainSteps 4 s

/-- A power-on reset cuts a flush that runs short: how many of its steps had ended is a free value (R43, log entry 109). -/
def powerOnNow (s : State) : State :=
  if s.gen.mode = .drain ∨ s.gen.quarFlush then powerOnReset (drainSteps (Config.freeValue s.freeCtr % 5) (tickFree s))
  else powerOnReset s

/-- A requested or returning Y9 reset from QUARANTINE waits for the entry flush: row 21. -/
def resetFromQuarantine (s : State) : State :=
  y9Reset false 21 (if s.gen.quarFlush then drainFlush s else s)

end Sys2Proof.Machine
end

