-- ==== Sys2Proof/Machine/Power.lean ====
section
/-! DEFINITION. Pins and supplies: power-on reset, power failure and DRAIN, the twin's fence and heartbeat pins, TSYNC_IN, hold-up, and the
reference clocks (rows 0 to 17 of the table). -/
namespace Sys2Proof.Machine

/-- POR_N low for at least 10 µs is a power-on reset by row 24; a shorter pulse is filtered out (R408). -/
def porNAssertEff (lowUs : Nat) (s : State) : State := if lowUs < 10 then s else powerOnNow s

/-- POR_N_ASSERT (R43, R408, row 24). -/
def execPorNAssert (lowUs : Nat) (s : State) : Host.Outcome State Fault Refusal := .next (porNAssertEff lowUs s)

/-- POR_N deasserts: HE_BIFUR is sampled (R53), and row 1 is taken if PWR_FAIL_N has been high for 1 ms (R409). -/
def porNDeassertEff (bifur : Bool) (pwrHighUs : Nat) (s : State) : State :=
  if s.pins.porN then s
  else rowOne { s with pins := { s.pins with porN := true, bifur := bifur, pwrFailN := decide (1000 ≤ pwrHighUs) } }

/-- POR_N_DEASSERT (R409, R53, row 1). -/
def execPorNDeassert (bifur : Bool) (pwrHighUs : Nat) (s : State) : Host.Outcome State Fault Refusal :=
  .next (porNDeassertEff bifur pwrHighUs s)

/-- PWR_FAIL_N low for less than its 1 µs filter has no effect (R409). -/
def pwrFailNAssertEff (lowNs : Nat) (s : State) : State := if lowNs < 1000 then s else powerFail s

/-- PWR_FAIL_N_ASSERT (R47, R36, rows 14 and 23). -/
def execPwrFailNAssert (lowNs : Nat) (s : State) : Host.Outcome State Fault Refusal := .next (pwrFailNAssertEff lowNs s)

/-- PWR_FAIL_N deasserts: DRAIN goes on; in RESET row 1 is taken once it has been high for 1 ms (R47, R409). -/
def pwrFailNDeassertEff (highUs : Nat) (s : State) : State :=
  if s.gen.mode = .reset then
    (if highUs < 1000 then s else rowOne { s with pins := { s.pins with pwrFailN := true } })
  else { s with pins := { s.pins with pwrFailN := true } }

/-- PWR_FAIL_N_DEASSERT (R409). -/
def execPwrFailNDeassert (highUs : Nat) (s : State) : Host.Outcome State Fault Refusal :=
  .next (pwrFailNDeassertEff highUs s)

/-- The flush of DRAIN ends: its effect is durable and row 15 resets the Y9. In QUARANTINE the entry flush ends (R36). -/
def drainFlushCompleteEff (s : State) : State :=
  match s.gen.mode with
  | .drain => y9Reset false 15 (drainFlush s)
  | .quarantine =>
    if s.gen.quarFlush then
      let s := drainFlush s
      flagOff Reg.GEN_DRAIN.ACTIVE { s with gen := { s.gen with quarFlush := false } }
    else s
  | _ => s

/-- DRAIN_FLUSH_COMPLETE (R47, R36, row 15). -/
def execDrainFlushComplete (s : State) : Host.Outcome State Fault Refusal := .next (drainFlushCompleteEff s)

/-- The fence asserts: row 20, but for RESET and DRAIN (R36, R37). -/
def twinFenceInAssertEff (s : State) : State := quarantineNow { s with pins := { s.pins with fenceIn := true } }

/-- TWIN_FENCE_IN_ASSERT (R36, R335, row 20). -/
def execTwinFenceInAssert (s : State) : Host.Outcome State Fault Refusal := .next (twinFenceInAssertEff s)

/-- The fence is released: a fenced member in QUARANTINE performs its own Y9 reset, row 21 (R335). -/
def twinFenceInDeassertEff (s : State) : State :=
  let s := { s with pins := { s.pins with fenceIn := false } }
  if s.gen.mode = .quarantine ∧ s.tw.st = .fenced then resetFromQuarantine s else s

/-- TWIN_FENCE_IN_DEASSERT (R335, row 21). -/
def execTwinFenceInDeassert (s : State) : Host.Outcome State Fault Refusal := .next (twinFenceInDeassertEff s)

/-- A change of level on TWIN_HB_IN held for at least 100 ns counts as a heartbeat on path B (R330, R412). -/
def twinHbInChangeEff (heldNs : Nat) (s : State) : State :=
  if heldNs < 100 then s
  else
    { s with
      pins := { s.pins with hbIn := !s.pins.hbIn },
      tw := { s.tw with pathBLost := false } }

/-- TWIN_HB_IN_CHANGE (R330, R412). -/
def execTwinHbInChange (heldNs : Nat) (s : State) : Host.Outcome State Fault Refusal := .next (twinHbInChangeEff heldNs s)

/-- The master's correction at a whole second (R320): `m` is device time within its second. -/
def tsyncCorrect (m : Nat) (s : State) : State :=
  if m ≤ 4000 then { s with gf := { s.gf with slew := - (m : Int) } }
  else if m ≤ 500000000 then
    -- ahead: forward to the next whole second
    let d := 1000000000 - m
    let s := timeStep (d - d % 4000) s
    { s with gf := { s.gf with slew := (d % 4000 : Nat) } }
  else correctBehind (1000000000 - m) s

/-- A rising edge at TSYNC_IN is a whole second for a time master with TSYNCEN = 1 (R320). -/
def tsyncInEdgeEff (s : State) : State :=
  if isOn Reg.GF_CFG.TSYNCEN s ∧ s.gen.mode ≠ .reset then tsyncCorrect (now s % 1000000000) s else s

/-- TSYNC_IN_EDGE (R320, R319). -/
def execTsyncInEdge (s : State) : Host.Outcome State Fault Refusal := .next (tsyncInEdgeEff s)

/-- A charger fault: VERIFIED clears, write-through begins (R371). -/
def huGoodDeassertEff (s : State) : State :=
  let s := { s with pins := { s.pins with huGood := false } }
  if isOn Reg.GEN_HOLDUP.VERIFIED s then writeThroughEnter (flagOn Reg.MG_ERR.HULOW s) else s

/-- HU_GOOD_DEASSERT (R371). -/
def execHuGoodDeassert (s : State) : Host.Outcome State Fault Refusal := .next (huGoodDeassertEff s)

/-- A verification starts: V0 is recorded and the sink is switched on (R370). Before the management image runs none starts. -/
def startVerification (v0mv : Nat) (s : State) : State :=
  match s.gen.mode with
  | .reset | .drain => s
  | _ => setF Reg.MG_HUSTAT.VOLT v0mv
      { s with pins := { s.pins with huTest := true }, mg := { s.mg with verifying := some v0mv } }

/-- HU_GOOD reasserts: a verification starts from the voltage then on HU_SENSE (R370). -/
def huGoodReassertEff (s : State) : State :=
  startVerification (getF Reg.MG_HUSTAT.VOLT s) { s with pins := { s.pins with huGood := true } }

/-- HU_GOOD_REASSERT (R370). -/
def execHuGoodReassert (s : State) : Host.Outcome State Fault Refusal := .next (huGoodReassertEff s)

/-- Usable energy in mJ (R370): ½ × C × (V0² − VMIN²) × EFF / 100 with C = 10 F / den, V0 in mV and VMIN in units of 10 mV. -/
def holdupEnergy (v0mv den : Nat) (s : State) : Nat :=
  let vmin := getF Reg.MG_HUCFG.VMIN s * 10
  5 * (v0mv * v0mv - vmin * vmin) * getF Reg.MG_HUCFG.EFF s / (den * 100000)

/-- HU_SENSE is below V_LOW: the energy at that voltage, with the last measured C, is below 3,000 mJ (R371). -/
def huSenseBelowVLowEff (mv : Nat) (s : State) : State :=
  let s := setF Reg.MG_HUSTAT.VOLT mv s
  if isOn Reg.GEN_HOLDUP.VERIFIED s ∧ holdupEnergy mv s.mg.capDen s < 3000 then
    writeThroughEnter (flagOn Reg.MG_ERR.HULOW s)
  else s

/-- HU_SENSE_BELOW_V_LOW (R371). -/
def execHuSenseBelowVLow (mv : Nat) (s : State) : Host.Outcome State Fault Refusal := .next (huSenseBelowVLowEff mv s)

/-- HOLDUP_VERIFICATION_START (R370). -/
def execHoldupVerificationStart (v0mv : Nat) (s : State) : Host.Outcome State Fault Refusal :=
  .next (startVerification v0mv s)

/-- A verification ends: C = 1 mC / (ΔV + 0.1 mV) and E are computed; VERIFIED follows E ≥ 3,000 mJ (R370, R371, R393). With HU_GOOD
deasserted VERIFIED stays clear. -/
def holdupVerificationEndEff (dvTenthMv : Nat) (s : State) : State :=
  match s.mg.verifying with
  | none => s
  | some v0 =>
    let den := dvTenthMv + 1
    let e := holdupEnergy v0 den s
    let s := setSat Reg.GEN_HOLDUP.ENERGY e (setSat Reg.MG_HUSTAT.CAP (100000 / den) s)
    let s := { s with pins := { s.pins with huTest := false }, mg := { s.mg with verifying := none, capDen := den } }
    if 3000 ≤ e then
      if s.pins.huGood then
        writeThroughExit (flagOn Reg.GEN_HOLDUP.VERIFIED { s with gen := { s.gen with verifiedOnce := true } })
      else s
    else writeThroughEnter (flagOn Reg.MG_ERR.HUFAIL s)

/-- HOLDUP_VERIFICATION_END (R370, R371, R42). -/
def execHoldupVerificationEnd (dvTenthMv : Nat) (s : State) : Host.Outcome State Fault Refusal :=
  .next (holdupVerificationEndEff dvTenthMv s)

/-- A port goes down (R59): the link state clears, and its function sees a Conventional reset. -/
def portDown (p : Port) (s : State) : State := flagOn Reg.GEN_RSTCAUSE.PERST (conventionalPort p s)

/-- The host reference stops: every port whose link must be up goes down as a Surprise Down (R407). -/
def heRefclkLossEff (s : State) : State :=
  let one := fun (p : Port) (t : State) => if (t.port p).up ∧ ¬ (t.port p).l12 then portDown p t else t
  one .b (one .a s)

/-- HE_REFCLK_LOSS (R407, R59). -/
def execHeRefclkLoss (s : State) : Host.Outcome State Fault Refusal := .next (heRefclkLossEff s)

/-- GF_REFCLK_LOSS: every Gareo link goes down (R407, R304). -/
def execGfRefclkLoss (s : State) : Host.Outcome State Fault Refusal := .next (releaseAll (allLinksDown s))

/-- MG_XTAL_LOSS: loss of the crystal, a PLL or an island clock is fatal (R390, R407). -/
def execMgXtalLoss (_what : ClockLoss) (s : State) : Host.Outcome State Fault Refusal := .next (fatalFault s)

/-- Modes in which a DRAM channel's loss of training is fatal (R390). -/
def dramFatalMode (m : Mode) : Bool := match m with
  | .service | .standby | .ingest | .sealed | .diagnostic => true
  | _ => false

/-- A DRAM channel loses training: its CHOK bit clears; in an operating mode that is fatal (R390). -/
def dramChannelTrainingLossEff (channel : Fin 8) (s : State) : State :=
  let c := s.me.chOk
  let s := { s with me := { s.me with chOk := if c.testBit channel.val then c - 2 ^ channel.val else c } }
  if dramFatalMode s.gen.mode then fatalFault s else s

/-- DRAM_CHANNEL_TRAINING_LOSS (R390). -/
def execDramChannelTrainingLoss (channel : Fin 8) (s : State) : Host.Outcome State Fault Refusal :=
  .next (dramChannelTrainingLossEff channel s)

end Sys2Proof.Machine
end

