-- ==== Sys2Proof/Machine/Resets.lean ====
section
/-! DEFINITION. Resets, the controller's enable and the shutdown notification (rows 28 to 36 of the table; R43 to R45, R79, R82, R367). -/
namespace Sys2Proof.Machine

/-- A requested Y9 reset: row 7 from RECOVERY and row 21 from QUARANTINE with the fence released run no clean stop; in DRAIN and RESET it is
ignored (R43). The CAUSE shown for a mode without a row of its own is the model's choice (log entry 106). -/
def requestY9Reset (s : State) : State :=
  match s.gen.mode with
  | .reset | .drain => s
  | .recovery => y9Reset false 7 s
  | .quarantine => if s.pins.fenceIn then s else resetFromQuarantine s
  | _ => y9Reset s.mx.recovered 1 s

/-- GEN_RESET.KIND = 001: management only, with the key; a writer without the token is refused (R43, R49, Table 2.12). -/
def genResetY9Eff (who : Writer) (key : BitVec 16) (s : State) : State :=
  if ¬ holds who s then genErr Reg.GEN_ERR.OWNWR 0x80018 who s
  else if who = .mgmt ∧ key = 0x7B4D then requestY9Reset s
  else s

/-- GEN_RESET_Y9 (R43). -/
def execGenResetY9 (who : Writer) (key : BitVec 16) (s : State) : Host.Outcome State Fault Refusal :=
  .next (genResetY9Eff who key s)

/-- GEN_RESET.KIND = 010 with the key (R367, Table 2.12). -/
def genResetManagementEff (who : Writer) (key : BitVec 16) (s : State) : State :=
  if ¬ holds who s then genErr Reg.GEN_ERR.OWNWR 0x80018 who s
  else if key = 0x7B4D then managementReset Reg.GEN_RSTCAUSE.MGRST s
  else s

/-- GEN_RESET_MANAGEMENT (R367). -/
def execGenResetManagement (who : Writer) (key : BitVec 16) (s : State) : Host.Outcome State Fault Refusal :=
  .next (genResetManagementEff who key s)

/-- WATCHDOG_EXPIRY: the period, which began at the image's start or the last KICK, has passed; it runs while the management image runs
(R367). -/
def execWatchdogExpiry (s : State) : Host.Outcome State Fault Refusal :=
  .next (if s.mg.run then managementReset Reg.GEN_RSTCAUSE.WDOG s else s)

/-- LOCKSTEP_MISMATCH (R367). -/
def execLockstepMismatch (s : State) : Host.Outcome State Fault Refusal :=
  .next (managementReset Reg.GEN_RSTCAUSE.LOCKSTEP s)

/-- A host-side reset is ignored in DRAIN; in RESET there is nothing to reset (R43). -/
def hostResetMode (m : Mode) : Bool := match m with
  | .reset | .drain => false
  | _ => true

/-- A Conventional reset: PERST_N, a hot reset or a link disable (Table 2.4a). -/
def conventionalResetEff (s : State) : State :=
  if hostResetMode s.gen.mode then flagOn Reg.GEN_RSTCAUSE.PERST (conventional s) else s

/-- CONVENTIONAL_RESET (R43, R44). -/
def execConventionalReset (_cause : ConventionalCause) (s : State) : Host.Outcome State Fault Refusal :=
  .next (conventionalResetEff s)

/-- An FLR of one function (R79, R76, Table 2.4a). -/
def functionLevelResetEff (port : Port) (s : State) : State :=
  if hostResetMode s.gen.mode ∧ portExists port s then
    flagOn (portF port Reg.GEN_RSTCAUSE.FLR0 Reg.GEN_RSTCAUSE.FLR1) ((clearQe port s).updPort port HostPort.flr)
  else s

/-- FUNCTION_LEVEL_RESET (R79). -/
def execFunctionLevelReset (port : Port) (s : State) : Host.Outcome State Fault Refusal := .next (functionLevelResetEff port s)

/-- The configuration that sets CSTS.CFS (R82). -/
def ccInvalid (iosqes iocqes mps ams asqs acqs : Nat) : Bool :=
  decide (iosqes ≠ 6) || decide (iocqes ≠ 4) || decide (4 < mps) || decide (1 < ams) || decide (asqs = 0) || decide (acqs = 0)

/-- The admin queues of an enabled controller: AQA counts from 0. -/
def adminSq (asqs asq : Nat) : Sq := ⟨0, asqs + 1, 0, 0, asq, 0, 0, 7, [], none, false, [], none⟩
/-- The admin completion queue. -/
def adminCq (acqs acq : Nat) : Cq := ⟨0, acqs + 1, 0, true, acq, 0, 0, true, [], false⟩

/-- CC.EN from 0 to 1 (R82, R40). -/
def ccEnSetEff (port : Port) (iosqes iocqes mps ams css asqs acqs asq acq : Nat) (s : State) : State :=
  if ¬ portExists port s ∨ ¬ s.gen.hostReleased ∨ (s.port port).d3hot ∨ (s.con port).en ∨ ¬ hostResetMode s.gen.mode then s
  else
    let bad := ccInvalid iosqes iocqes mps ams asqs acqs
    -- a controller in use again ends the clean stop (R39)
    let s := { s with gen := { s.gen with cleanStop := false } }
    s.updCon port (fun c =>
      { c with en := true, iosqes := iosqes, iocqes := iocqes, mps := mps, ams := ams, css := css, asqs := asqs, acqs := acqs,
               asq := asq, acq := acq, cfs := c.cfs || bad, shst := 0,
               sqs := if bad then [] else [adminSq asqs asq], cqs := if bad then [] else [adminCq acqs acq] })

/-- CC_EN_SET (R82). -/
def execCcEnSet (port : Port) (iosqes iocqes mps ams css : Nat) (asqs acqs : Nat) (asq acq : Nat) (s : State) :
    Host.Outcome State Fault Refusal :=
  .next (ccEnSetEff port iosqes iocqes mps ams css asqs acqs asq acq s)

/-- CC.EN from 1 to 0: a Controller reset. CSTS.CFS clears, except in QUARANTINE, which holds it at 1 (Table 2.1, R82). -/
def ccEnClearEff (port : Port) (s : State) : State :=
  if hostResetMode s.gen.mode ∧ (s.con port).en ∧ ¬ (s.port port).d3hot then clearQe port s else s

/-- CC_EN_CLEAR (R43, R87). -/
def execCcEnClear (port : Port) (s : State) : Host.Outcome State Fault Refusal := .next (ccEnClearEff port s)

/-- A shutdown notification: CC.SHN = 01b or 10b completes with SHST = 10b once the final checkpoint is durable (R45). -/
def shutdownNotificationEff (port : Port) (shn : BitVec 2) (s : State) : State :=
  if ¬ hostResetMode s.gen.mode ∨ ¬ portExists port s ∨ (s.port port).d3hot ∨ s.gen.mode = .quarantine then s
  else if shn = 1 ∨ shn = 2 then
    let s := if mediaMode s.gen.mode ∧ s.mx.recovered then cleanStop s else s
    s.updCon port (fun c => { c with shn := shn.toNat, shst := 2 })
  else s.updCon port (fun c => { c with shn := shn.toNat })

/-- SHUTDOWN_NOTIFICATION (R45). -/
def execShutdownNotification (port : Port) (shn : BitVec 2) (s : State) : Host.Outcome State Fault Refusal :=
  .next (shutdownNotificationEff port shn s)

end Sys2Proof.Machine
end

