-- ==== Sys2Proof/Machine/Modes.lean ====
section
/-! DEFINITION. Mode requests, the provisioning commit and the setup token (rows 37 to 47 of the table; R33 to R35, R41, R49, R50, R52, R63,
R144, R154, R180, R212, R213, R243, R279, R282, R317, R362). -/
namespace Sys2Proof.Machine

/-- BAR0 offset of GEN_MODEREQ. -/
def modereqOff : Nat := 0x80008

/-- A mode request that the mode or the sequence does not allow (Table 2.8). -/
def modereqRefused (who : Writer) (s : State) : State :=
  genErr Reg.GEN_ERR.MODEREQ modereqOff who { s with gen := { s.gen with reqTarget := none } }

/-- A two-step request: KEY 0xA1A1, then within 1 ms KEY 0x5E5E with the same target. KEY 0x0000 writes nothing (R418). -/
def twoStep (who : Writer) (key : BitVec 16) (target : Mode) (allowed : Bool) (grant : State → State) (s : State) : State :=
  if ¬ holds who s then genErr Reg.GEN_ERR.OWNWR modereqOff who s
  else if key = 0 then s
  else if ¬ allowed then modereqRefused who s
  else if key = 0xA1A1 then { s with gen := { s.gen with reqTarget := some target } }
  else if key = 0x5E5E ∧ s.gen.reqTarget = some target then grant { s with gen := { s.gen with reqTarget := none } }
  else modereqRefused who s

/-- GEN_MODEREQ_DIAGNOSTIC (R34 row 18): the granted request waits for the commands admitted under a bound. -/
def execGenModereqDiagnostic (who : Writer) (key : BitVec 16) (s : State) : Host.Outcome State Fault Refusal :=
  .next (twoStep who key .diagnostic (decide (s.gen.mode = .service))
    (fun t => { t with gen := { t.gen with diagPending := true } }) s)

/-- No command admitted under a bound is in flight. -/
def boundedDone (s : State) : Bool := s.cmds.all (fun c => c.deadline.isNone)

/-- Row 18: the last command admitted under a bound has completed. -/
def diagnosticEntryEff (s : State) : State :=
  if s.gen.mode = .service ∧ s.gen.diagPending ∧ boundedDone s then
    enterModeEv 18 .diagnostic { s with gen := { s.gen with diagPending := false } }
  else s

/-- DIAGNOSTIC_ENTRY (R34 row 18). -/
def execDiagnosticEntry (s : State) : Host.Outcome State Fault Refusal := .next (diagnosticEntryEff s)

/-- A request that needs KEY 0x5E5E alone; KEY 0x0000 writes nothing (R418). -/
def oneStep (who : Writer) (key : BitVec 16) (allowed : Bool) (grant : State → State) (s : State) : State :=
  if ¬ holds who s then genErr Reg.GEN_ERR.OWNWR modereqOff who s
  else if key = 0 then s
  else if allowed ∧ key = 0x5E5E then grant { s with gen := { s.gen with reqTarget := none } }
  else modereqRefused who s

/-- GEN_MODEREQ_SERVICE (R34 row 19). -/
def execGenModereqService (who : Writer) (key : BitVec 16) (s : State) : Host.Outcome State Fault Refusal :=
  .next (oneStep who key (decide (s.gen.mode = .diagnostic)) (fun t => enterModeEv 19 .service t) s)

/-- GEN_MODEREQ_QUARANTINE (R34 row 20). -/
def execGenModereqQuarantine (who : Writer) (key : BitVec 16) (s : State) : Host.Outcome State Fault Refusal :=
  .next (oneStep who key (hostResetMode s.gen.mode) quarantineNow s)

/-- GEN_MODEREQ_PROVISION (R34 row 22): two steps, from SERVICE with no namespace. -/
def execGenModereqProvision (who : Writer) (key : BitVec 16) (s : State) : Host.Outcome State Fault Refusal :=
  .next (twoStep who key .provision (decide (s.gen.mode = .service ∧ s.ns = [])) (fun t => enterModeEv 22 .provision t) s)

/-- MODEREQ_KEY_TIMEOUT: the first half of a two-step request lapses after 1 ms (Table 2.8). -/
def execModereqKeyTimeout (s : State) : Host.Outcome State Fault Refusal :=
  .next { s with gen := { s.gen with reqTarget := none } }

/-! The provisioning commit (R50). -/

/-- H of R212. -/
def hotSpares (s : State) : Nat := ceilDiv (s.nand.dies.length * getF Reg.SP_CFG.SPARES s) 256

/-- Channels that hold a good die of a list. -/
def chansOf (ds : List Nat) : List Nat := (List.range 64).filter (fun c => ds.any (fun d => dieChan d == c))

/-- The die of a channel at the highest position. -/
def topDie (ds : List Nat) (c : Nat) : Nat := maxOf (ds.filter (fun d => dieChan d == c))

/-- choose_spares of R213: `k` of `h` spares are still to take, from the good dies left. -/
def chooseSpares (h : Nat) : (k : Nat) → (left used spares : List Nat) → List Nat × List Nat
  | 0, left, _, spares => (spares, left)
  | k + 1, left, used, spares =>
    let op := chansOf left
    let used := if op.all (fun c => used.contains c) then [] else used
    let start := (h - (k + 1)) * 64 / h
    match ((List.range 64).map (fun i => (start + i) % 64)).find? (fun c => op.contains c && !used.contains c) with
    | none => (spares, left)
    | some c =>
      let d := topDie left c
      chooseSpares h k (left.filter (fun x => x != d)) (c :: used) (spares ++ [d])

/-- Dies ordered by position, then by channel. -/
def byPosition (ds : List Nat) : List Nat := (List.range 32).flatMap (fun p => ds.filter (fun d => diePos d == p))

/-- One group: in list order, dies on channels not yet in it. -/
def pickGroup (w : Nat) : List Nat → List Nat → List Nat
  | [], m => m
  | d :: t, m =>
    if m.length ≥ w then m
    else if m.any (fun x => dieChan x == dieChan d) then pickGroup w t m
    else pickGroup w t (m ++ [d])

/-- form_groups of R213: the groups' members, and the dies left over. -/
def formGroups (w : Nat) : (fuel : Nat) → List Nat → List (List Nat) × List Nat
  | 0, ds => ([], ds)
  | f + 1, ds =>
    if (chansOf ds).length < w then ([], ds)
    else
      let m := pickGroup w ds []
      let r := formGroups w f (ds.filter (fun d => !m.contains d))
      (m :: r.1, r.2)

/-- The groups and spares a commit would form. -/
def layout (s : State) : List Group × List Nat :=
  let h := hotSpares s
  let c := chooseSpares h h s.nand.dies [] []
  let f := formGroups (getF Reg.SP_CFG.WIDTH s) s.nand.dies.length (byPosition c.2)
  (f.1.zipIdx.map (fun m => (⟨m.2, m.1, 0, [], [], false, false, false⟩ : Group)),
   (c.1 ++ f.2).foldl (fun l d => insSlot d l) [])

/-- Groups with their rows counted (R180). -/
def withRows (gs : List Group) (s : State) : List Group :=
  gs.map (fun (g : Group) => { g with rows := rowsFor g.members { s with sp := { s.sp with groups := gs } } })

/-- The CMB of a port in MiB (Table 3.12); a code above 9 is out of range. -/
def cmbMiB (code : Nat) : Nat := if code = 0 ∨ code > 9 then 0 else 2 ^ (code - 1)

/-- Sum of the minima of the owners of a memory. -/
def minimaSum (dram : Bool) (s : State) : Nat :=
  sumOf ((s.bp.owners.filter (fun o => o.dram == dram)).map (·.min))

/-- User capacity U in bytes (R243): B − 2 × FREEHI − V barrels. V holds map region, page cache, block state table (16 bytes a block) and barrel
digest table (64 bytes a barrel). -/
def userCapacity (barrels : Nat) (s : State) : Nat :=
  let bytes := (getF Reg.MX_CFG.REGION s + getF Reg.MX_CFG.PGCACHE s) * 2 ^ 30 + 16 * blocksPerDie * s.nand.dies.length + 64 * barrels
  let v := ceilDiv bytes (Nat.max 1 (barrelBytes s))
  (barrels - 2 * (16 * getF Reg.MM_RACK.FREEHI s) - v) * barrelBytes s

/-- A commit that GEN_ERR.RANGE refuses (R63, R154, R212, R282, R317). -/
def commitBad (s : State) : Bool :=
  let w := getF Reg.SP_CFG.WIDTH s
  let exp := expBufs s
  let t := updOwner 10 (fun o => { o with min := exp, cap := exp }) s
  decide (256 < cmbMiB (getF Reg.HE_CFG.CMBSZ_A s) + cmbMiB (getF Reg.HE_CFG.CMBSZ_B s)) ||
  decide (s.me.dramGiB < getF Reg.MX_CFG.REGION s + getF Reg.MX_CFG.PGCACHE s + 32) ||
  decide ((chansOf s.nand.dies).length < w + 1) || decide (s.nand.dies.length < hotSpares s + w) ||
  decide ((layout s).1 = []) || decide (dramBufs s < minimaSum true t)

/-- The exported region's base in MiB: the highest multiple of its size inside the pool (R317). -/
def exportBase (s : State) : Nat :=
  let size := expBufs s / 256
  let poolMiB := 4096 + 1024 * (getF Reg.MX_CFG.REGION s + getF Reg.MX_CFG.PGCACHE s + 4)
  if size = 0 then 0 else (poolMiB + dramBufs s / 256) / size * size - size

/-- Dies found and their factory bad blocks count as retired (R204). -/
def factoryRetired (s : State) : Nat := (s.nand.factoryBad.filter (fun x => s.nand.dies.contains x.1)).length

/-- What a commit records and lays out (R50, R180, R213, R218, R243, R279, R317, R362). -/
def provision (s : State) : State :=
  -- what has been retired since the last commit is used no more (R180)
  let s := { s with prov := { s.prov with bad := (s.mm.blocks.filter (fun x => x.2.retired)).map (fun x => (x.1 / 16384, x.1 % 16384)) } }
  let l := layout s
  let gs := withRows l.1 s
  let exp := expBufs s
  let base := exportBase s
  let locked := s.regs.filter (fun r => lockedKeys.contains r.1)
  let s := { s with sp := { s.sp with groups := gs, spares := l.2, subst := [], voids := [], stripesDone := true } }
  let s := updOwner 10 (fun o => { o with min := exp, cap := exp }) s
  let cap := userCapacity (barrelCount s) s
  let s := { s with
    prov := { s.prov with valid := true, locked := locked, sramOwners := [10, 11, 12, 13, 14, 15].filter (fun o => !(getOwner o s).dram), groups := gs, spares := l.2, userCap := cap,
                          hotAtProv := l.2.length, expBase := base },
    ff := { s.ff with identity := true },
    mx := { s.mx with recovered := true, ceilPend := some (s.mx.csn + 2 ^ 26), rootAt := now s },
    fs := { s.fs with turn := ((gs.map (·.num)).take (inForce Reg.FS_VAT.GROUPS s)).map (fun g => (g, fretNow s)) } }
  let s := bumpBy Reg.MM_RETIRE.COUNT (factoryRetired s) s
  let s := journalNow (jAppend (jCsnRes (s.mx.csn + 2 ^ 26)) s)
  snapDurableNow { snapNow s with seq := 1 } s

/-- The worst-case power-loss start-up in ms (R41): the reference configuration's is Table 2.3's, 40,000. -/
def worstStartup (s : State) : Nat :=
  if s.nand.dies.length = 2048 ∧ s.me.dramGiB = 256 then 40000
  else Config.worstStartupMs s.nand.dies.length blocksPerDie s.me.dramGiB

/-- The commit (R50, R41, row 6): outside PROVISION it has no effect; a geometry whose start-up would exceed 55 s sets SLOWGEO,
which no later commit clears (log entry 106). -/
def provisioningCommitEff (who : Writer) (s : State) : State :=
  if s.gen.mode ≠ .provision then s
  else if ¬ holds who s then genErr Reg.GEN_ERR.OWNWR (Config.freeValue s.freeCtr % 2 ^ 20) who (tickFree s)
  else if commitBad s then genErr Reg.GEN_ERR.RANGE (Config.freeValue s.freeCtr % 2 ^ 20) who (tickFree s)
  else if 55000 < worstStartup s then flagOn Reg.GEN_START.SLOWGEO s
  else enterModeEv 6 .service (provision s)

/-- PROVISIONING_COMMIT (R50, R34 row 6). -/
def execProvisioningCommit (who : Writer) (s : State) : Host.Outcome State Fault Refusal := .next (provisioningCommitEff who s)

/-! The setup token (R49, Table 2.9). -/

/-- BAR0 offset of GEN_OWNER. -/
def ownerOff : Nat := 0x8000C

/-- CLAIM takes effect only while nobody holds the token; by the holder it changes nothing. -/
def genOwnerClaimEff (who : Writer) (s : State) : State :=
  if s.gen.holder = .none then { s with gen := { s.gen with holder := writerHolder who } }
  else if holds who s then s
  else genErr Reg.GEN_ERR.OWNWR ownerOff who s

/-- GEN_OWNER_CLAIM (R49). -/
def execGenOwnerClaim (who : Writer) (s : State) : Host.Outcome State Fault Refusal := .next (genOwnerClaimEff who s)

/-- RELEASE takes effect only from the holder. -/
def genOwnerReleaseEff (who : Writer) (s : State) : State :=
  if holds who s then { s with gen := { s.gen with holder := .none } } else genErr Reg.GEN_ERR.OWNWR ownerOff who s

/-- GEN_OWNER_RELEASE (R49). -/
def execGenOwnerRelease (who : Writer) (s : State) : Host.Outcome State Fault Refusal := .next (genOwnerReleaseEff who s)

/-- SEIZE takes effect only from management; a seizure sets SEIZED and posts Mode Changed; management holding the token changes nothing. -/
def genOwnerSeizeEff (who : Writer) (s : State) : State :=
  match who with
  | .host => genErr Reg.GEN_ERR.OWNWR ownerOff who s
  | .mgmt =>
    if s.gen.holder = .mgmt then s
    else evModeChanged (flagOn Reg.GEN_OWNER.SEIZED { s with gen := { s.gen with holder := .mgmt } })

/-- GEN_OWNER_SEIZE (R49). -/
def execGenOwnerSeize (who : Writer) (s : State) : Host.Outcome State Fault Refusal := .next (genOwnerSeizeEff who s)

/-- A clear of SEIZED takes effect only from the holder. -/
def genOwnerSeizedClearEff (who : Writer) (s : State) : State :=
  if holds who s then flagOff Reg.GEN_OWNER.SEIZED s else genErr Reg.GEN_ERR.OWNWR ownerOff who s

/-- GEN_OWNER_SEIZED_CLEAR (R49). -/
def execGenOwnerSeizedClear (who : Writer) (s : State) : Host.Outcome State Fault Refusal := .next (genOwnerSeizedClearEff who s)

end Sys2Proof.Machine
end

