-- ==== Sys2Proof/Machine/Setup.lean ====
section
/-! DEFINITION. Writes of setup registers field by field, the commit points of Staged fields, refused BAR0 accesses and writes of the BARs
(R8, R9, R49 to R51, R61, R62, R146, R282, R379, R418). -/
namespace Sys2Proof.Machine

/-! Fields. -/

/-- The owner BP_OWNSEL shows. -/
def ownSel (s : State) : Nat := getF Reg.BP_OWNSEL.OWNER s

/-- The current value of an RW field: the owner registers show the selected owner (Table 11.2); every other field is stored. -/
def curVal (f : Field) (s : State) : Nat :=
  if f = Reg.BP_OWNMEM.MEM then (if (getOwner (ownSel s) s).dram then 1 else 0)
  else if f = Reg.BP_OWNMIN.MIN then (getOwner (ownSel s) s).min
  else if f = Reg.BP_OWNCAP.CAP then (getOwner (ownSel s) s).cap
  else getF f s

/-- Bits of a field in a register value. -/
def fieldBits (f : Field) (value : Nat) : Nat := value / 2 ^ f.lo % 2 ^ f.width

/-- A W1S or WO field acts only through a row of its own, as do the FI enables and the SEIZED flag. -/
def ownRowField (f : Field) : Bool :=
  f == Reg.FI_GF.EN || f == Reg.FI_FL.EN || f == Reg.FI_PCIE.EN || f == Reg.GEN_OWNER.SEIZED

/-- The field is written (R418): an RW field by a value that differs from its current one, a W1C field by a 1. -/
def fieldWritten (f : Field) (value : Nat) (s : State) : Bool :=
  match f.acc with
  | .rw => !ownRowField f && fieldBits f value != curVal f s
  | .w1c => !ownRowField f && fieldBits f value == 1
  | _ => false

/-- Buffers of a memory. -/
def memBufs (dram : Bool) (s : State) : Nat := if dram then dramBufs s else sramBufs

/-- The sum condition of R282 after one owner's setup is replaced. -/
def minimaFit (o : Nat) (f : Owner → Owner) (s : State) : Bool :=
  let t := updOwner o f s
  decide (minimaSum (getOwner o t).dram t ≤ memBufs (getOwner o t).dram s)

/-- The value lies in the field's stated range. Watermarks are held against the other watermarks of the same write (log entry 30),
CS_CFG.RATE 6 against the MODE of the same write (Table 10.8); the owners' fields against R282. -/
def inRange (f : Field) (value : Nat) (s : State) : Bool :=
  let v := fieldBits f value
  let o := ownSel s
  let lo := fieldBits Reg.MM_RACK.FREELO value
  decide (f.rmin ≤ v ∧ v ≤ f.rmax) &&
  (if f = Reg.MM_RACK.FREELO then decide (v < fieldBits Reg.MM_RACK.FREEHI value ∧ fieldBits Reg.MM_RACK.FREECRIT value < v)
   else if f = Reg.MM_RACK.FREEHI then decide (lo < v)
   else if f = Reg.MM_RACK.FREECRIT then decide (v < lo)
   else if f = Reg.CS_CFG.RATE then v != 6 || fieldBits Reg.CS_CFG.MODE value == 2
   else if f = Reg.BP_OWNMEM.MEM then
     decide (10 ≤ o) && decide (ownerUse o s = 0) && minimaFit o (fun O => { O with dram := v == 1 }) s
   else if f = Reg.BP_OWNMIN.MIN then decide (v ≤ (getOwner o s).cap) && minimaFit o (fun O => { O with min := v }) s
   else if f = Reg.BP_OWNCAP.CAP then decide ((getOwner o s).min ≤ v)
   else true)

/-- The last fret of the horizon in force (R122): a Staged value with that commit point counts for the frets beyond it. -/
def horizonEnd (s : State) : Nat := fretNow s + 4096

/-- Store a written RW field. A horizon-boundary field also notes the boundary of this write (R146). -/
def storeField (f : Field) (v : Nat) (s : State) : State :=
  if f = Reg.BP_OWNMEM.MEM then updOwner (ownSel s) (fun O => { O with dram := v == 1 }) s
  else if f = Reg.BP_OWNMIN.MIN then updOwner (ownSel s) (fun O => { O with min := v }) s
  else if f = Reg.BP_OWNCAP.CAP then updOwner (ownSel s) (fun O => { O with cap := v }) s
  else match f.tim with
    | .staged .horizonBoundary =>
      setF f v { s with fs := { s.fs with horizon := s.fs.horizon ++ [(horizonEnd s, f.key, v)] } }
    | _ => setF f v s

/-- One field of a register write (R418). A Locked field is written in PROVISION alone (R50); before that mode a write of it is ignored, and
since its block is not yet enabled LOCKWR stays as it is (log entry 32). -/
def writeField (who : Writer) (off value : Nat) (s : State) (f : Field) : State :=
  if ¬ fieldWritten f value s then s
  else match f.acc with
    | .w1c => flagOff f s
    | _ =>
      if f.tim = .locked ∧ blocksEnabled s then genErr Reg.GEN_ERR.LOCKWR off who s
      else if f.tim = .locked ∧ s.gen.mode ≠ .provision then s
      else if ¬ inRange f value s then genErr Reg.GEN_ERR.RANGE off who s
      else storeField f (fieldBits f value) s

/-- The shares of FS_BGBUD0 and FS_BGBUD1 (R146). -/
def budgetFields : List Field :=
  [Reg.FS_BGBUD0.RACK, Reg.FS_BGBUD0.REFRESH, Reg.FS_BGBUD0.REBUILD, Reg.FS_BGBUD0.AUDIT, Reg.FS_BGBUD1.MIGR,
   Reg.FS_BGBUD1.BOTTLE]

/-- The budget shares after a write would sum to more than 128 (R146): the write as a whole is ignored. -/
def budgetOver (off value : Nat) (s : State) : Bool :=
  budgetFields.any (fun f => f.reg == off && fieldWritten f value s) &&
  decide (128 < sumOf (budgetFields.map (fun f => if f.reg = off then fieldBits f value else getF f s)))

/-- Write the fields of one register. -/
def writeFields (who : Writer) (off value : Nat) (s : State) : State :=
  if budgetOver off value s then genErr Reg.GEN_ERR.RANGE off who s
  else (fieldsAt off).foldl (writeField who off value) s

/-! Window entries (Tables 3.25 to 3.28). -/

/-- The port, entry and register of a staging-set offset (Table 3.11). -/
def stagingAt (off : Nat) : Option (Port × Nat × Nat) :=
  let r := off - 0x88000
  if 0x1000 ≤ r ∧ r < 0x2000 then some (.a, (r - 0x1000) / 16, r % 16)
  else if 0x3000 ≤ r ∧ r < 0x4000 then some (.b, (r - 0x3000) / 16, r % 16)
  else none

/-- A window entry after one of its registers is written. -/
def Win.write (w : Win) (reg value : Nat) : Win :=
  if reg = 0 then
    { w with en := value.testBit 0, rd := value.testBit 1, wr := value.testBit 2, size := value / 256 % 32 }
  else if reg = 4 then { w with base := value % 65536 }
  else if reg = 8 then { w with tgt := w.tgt / 4096 * 4096 + value / 2 ^ 20 % 4096 }
  else { w with tgt := w.tgt % 4096 + 4096 * (value % 65536) }

/-- A write to the staging set (R69): ignored with BUSYWR while the copy runs; port B's set is reserved in single-port mode. -/
def writeStaging (p : Port) (i reg value : Nat) (s : State) : State :=
  if ¬ portExists p s then s
  else if (s.port p).copyBusy then flagOn (portF p Reg.HE_WINSTAT.A_BUSYWR Reg.HE_WINSTAT.B_BUSYWR) s
  else s.updPort p (fun h => { h with staging := sUpd h.staging .zero i (fun w => w.write reg value) })

/-! The MSI-X table (Table 3.4). -/

/-- A write of one dword of a port's MSI-X table; a pending vector that is no longer masked sends its message. -/
def writeMsix (p : Port) (i value : Nat) (s : State) : State :=
  let s := s.updPort p (fun h => { h with msixTable := sPut h.msixTable (if i % 4 = 3 then 1 else 0) i (value % 2 ^ 32) })
  let v := i / 4
  if (s.port p).pba.contains v then
    msix p v (s.updPort p (fun h => { h with pba := h.pba.filter (fun x => x != v) }))
  else s

/-! The write as a whole. -/

/-- Bit 20 of a host's offset says which function's BAR0 it came through; management has one view. -/
def offPort (offset : Nat) : Port := if (offset / 2 ^ 20) % 2 = 1 then .b else .a

/-- The FF registers, which only management writes (R379): FF_CMD to FF_WEAR. -/
def ffReg (off : Nat) : Bool := decide (Reg.FF_CMD.OP.reg ≤ off ∧ off ≤ Reg.FF_WEAR.MAX.reg)

/-- Whether a writer may write a setup register: it holds the token, and FF registers are management's own (R49, R379). -/
def mayWrite (who : Writer) (off : Nat) (s : State) : Bool :=
  if ffReg off then who == .mgmt else holds who s

/-- A device address of a setup block: its BAR0 offset above 0x1000_0000 (R31). -/
def blockAddr (addr : Nat) : Bool := decide (0x10080000 ≤ addr ∧ addr < 0x10100000)

/-- The setup space answers this writer: the host once its island is released, management while its image runs. -/
def setupOpen (who : Writer) (s : State) : Bool :=
  s.gen.mode != .reset && (match who with
    | .host => s.gen.hostReleased
    | .mgmt => true)

/-- A setup register write with no row of its own (R418, R49, R50). Reserved offsets ignore it. -/
def writeReg (who : Writer) (off value : Nat) (s : State) : State :=
  if ¬ setupOpen who s then s
  else match stagingAt off with
    | some (p, i, r) => if mayWrite who off s then writeStaging p i r value s else genErr Reg.GEN_ERR.OWNWR off who s
    | none =>
      if fieldsAt off = [] then s
      else if ¬ mayWrite who off s then genErr Reg.GEN_ERR.OWNWR off who s
      else writeFields who off value s

/-! Commit points (R51, R146). -/

/-- The Staged fields of a commit point. -/
def stagedFields : CommitPoint → List Field
  | .journalFlush => [Reg.GEN_DRAIN.DIRTYCAP]
  | .turnEnd => [Reg.FS_VAT.GROUPS]
  | .sweepStart => [Reg.MX_CKPT.RATE]
  | .horizonBoundary => [Reg.FS_CFG.WINRDS, Reg.FS_CFG.CSLOTS] ++ budgetFields

/-- The value in force becomes `v`. -/
def putEff (f : Field) (v : Nat) (s : State) : State := { s with eff := sPut s.eff f.rst f.key v }

/-- Horizon-boundary writes whose boundary has been reached take effect in the order they were made (R146). -/
def commitHorizon (s : State) : State :=
  let due := s.fs.horizon.filter (fun x => decide (x.1 < fretNow s))
  let s := due.foldl (fun t x =>
    match (stagedFields .horizonBoundary).find? (fun f => f.key == x.2.1) with
    | some f => putEff f x.2.2 t
    | none => t) s
  { s with fs := { s.fs with horizon := s.fs.horizon.filter (fun x => decide (¬ x.1 < fretNow s)) } }

/-- A commit point: the Staged fields written before it take effect together. -/
def commitPoint (p : CommitPoint) (s : State) : State :=
  match p with
  | .horizonBoundary => commitHorizon s
  | _ => (stagedFields p).foldl (fun t f => putEff f (getF f t) t) s

/-- STAGED_COMMIT_POINT (R51, R146). -/
def execStagedCommitPoint (point : CommitPoint) (s : State) : Host.Outcome State Fault Refusal := .next (commitPoint point s)

/-! BAR0 and the BARs (R61, R62). -/

/-- BAR0 offsets of the 64-bit NVMe registers: CAP, ASQ, ACQ, CMBMSC. -/
def nvme64 (off : Nat) : Bool := off == 0 || off == 0x28 || off == 0x30 || off == 0x50

/-- An access BAR0 accepts: aligned 32 bits, or aligned 64 bits to a 64-bit NVMe register. -/
def bar0Good (off len : Nat) : Bool :=
  (len == 4 && off % 4 == 0) || (len == 8 && off % 8 == 0 && nvme64 off)

/-- A refused BAR0 access: a read completes with Completer Abort, a write is discarded with BADMMIO. A function that does not answer memory
requests gives Unsupported Request, or discards. -/
def bar0BadAccessEff (port : Port) (isRead : Bool) (offset len : Nat) (s : State) : State :=
  if ¬ portExists port s ∨ ¬ heAnswers s then s
  else if ¬ memOpen port s then (if isRead then urCpl port 0 s else s)
  else if bar0Good offset len then s
  else if isRead then caCpl port 0 s
  else flagOn (portF port Reg.HE_ERRSTAT.A_BADMMIO Reg.HE_ERRSTAT.B_BADMMIO) s

/-- BAR0_BAD_ACCESS (R62). -/
def execBar0BadAccess (port : Port) (isRead : Bool) (offset len : Nat) (s : State) : Host.Outcome State Fault Refusal :=
  .next (bar0BadAccessEff port isRead offset len s)

/-- The CMB size of a port in MiB; window mode has none. -/
def cmbSizeMiB (p : Port) (s : State) : Nat :=
  if isOn Reg.HE_CFG.APMODE s then 0 else cmbMiB (getF (portF p Reg.HE_CFG.CMBSZ_A Reg.HE_CFG.CMBSZ_B) s)

/-- The type bits and the lowest writable bit of BAR dword `i` (Tables 3.3 and 3.5): (type bits, bits at and above this one are kept). -/
def barShape (p : Port) (i : Nat) (s : State) : Nat × Nat :=
  let win := isOn Reg.HE_CFG.APMODE s
  let mib := cmbSizeMiB p s
  match i with
  | 0 => (4, 20)
  | 1 => (0, 0)
  | 2 => if win then (0xC, 32) else if mib = 0 then (0, 32) else (0xC, 20 + Nat.log2 mib)
  | 3 => if win then (0, 4) else if mib = 0 then (0, 32) else (0, 0)
  | _ => (0, 32)

/-- What a BAR dword reads. -/
def barRead (p : Port) (i : Nat) (s : State) : Nat := (barShape p i s).1 + (((s.port p).bars[i]?).getD 0).toNat

/-- The answer to a configuration request that is not yet, or no longer, served: Request Retry Status until the host island is released
(R40); DRAIN and RESET send nothing. -/
def configRetry (port : Port) (s : State) : State :=
  if portExists port s ∧ ¬ s.gen.hostReleased ∧ s.gen.mode ≠ .reset then emit (.tlpCpl port 0 cplRRS [] false) s else s

/-- The completion of a configuration write. -/
def configDone (port : Port) (s : State) : State := emit (.tlpCpl port 0 cplSC [] false) s

/-- A configuration write to a BAR: bits at and above the size are held, the others read 0. -/
def configBarWriteEff (port : Port) (dword : Fin 6) (value : Word) (s : State) : State :=
  if ¬ portExists port s ∨ ¬ heAnswers s then configRetry port s
  else configDone port <|
    let b := (barShape port dword.val s).2
    s.updPort port (fun h => { h with bars := h.bars.set dword.val (BitVec.ofNat 32 (value.toNat / 2 ^ b * 2 ^ b)) })

/-- CONFIG_BAR_WRITE (R61). -/
def execConfigBarWrite (port : Port) (dword : Fin 6) (value : Word) (s : State) : Host.Outcome State Fault Refusal :=
  .next (configBarWriteEff port dword value s)

end Sys2Proof.Machine
end

