-- ==== Sys2Proof/Machine/HostPort.lean ====
section
/-! DEFINITION. The host ports: the controller memory buffer, windows, link states, configuration registers and the DOE mailbox (R54 to R59,
R63 to R72, R77 to R81). -/
namespace Sys2Proof.Machine

/-! The controller memory buffer (R63 to R65). -/

/-- Bytes of a port's CMB. -/
def cmbBytes (p : Port) (s : State) : Nat := cmbSizeMiB p s * 2 ^ 20

/-- An MMIO read of the CMB: open merge entries complete first; a poisoned line makes the completion EP (R78), and completions are
split at the Read Completion Boundary. -/
def cmbMmioReadEff (port : Port) (offset len : Nat) (tag : Nat) (s : State) : State :=
  if ¬ portExists port s ∨ ¬ heAnswers s then s
  else if ¬ memServed port s ∨ cmbBytes port s < offset + len then urCpl port tag s
  else
    let ls := linesOf offset len
    let s := mergesDone (ls.map (cmbLineKey port)) s
    let bad := ls.any (fun l => (s.port port).cmbPoison.contains l)
    let s := if bad then bump (portF port Reg.HE_EPCNT.A_COUNT Reg.HE_EPCNT.B_COUNT) (poisonConsumed (offset % 2 ^ 48) s) else s
    readCpl port tag offset (getBytes (s.port port).cmb offset len) bad s

/-- CMB_MMIO_READ (R65, R78). -/
def execCmbMmioRead (port : Port) (offset len : Nat) (tag : Nat) (s : State) : Host.Outcome State Fault Refusal :=
  .next (cmbMmioReadEff port offset len tag s)

/-- A posted write to the CMB, through merge entries where it is narrower than a line; EP poisons the written lines. -/
def cmbMmioWriteEff (port : Port) (offset : Nat) (data : List Byte) (ep : Bool) (s : State) : State :=
  if ¬ memServed port s ∨ cmbBytes port s < offset + data.length then s
  else
    let r := linesWrite 0 (cmbLineKey port) offset data.length (fun _ => ep) (s.port port).cmbPoison s
    let s := r.2.updPort port (fun h => { h with cmb := putBytes h.cmb offset data, cmbPoison := r.1 })
    if ep then poisonRx port s else s

/-- CMB_MMIO_WRITE (R65, R78, R291). -/
def execCmbMmioWrite (port : Port) (offset : Nat) (data : List Byte) (ep : Bool) (s : State) :
    Host.Outcome State Fault Refusal :=
  .next (cmbMmioWriteEff port offset data ep s)

/-- CMBMSC: CMSE and CBA (R64); CBA holds bits [63:12]. -/
def cmbmscWriteEff (port : Port) (cmse : Bool) (cba : Nat) (s : State) : State :=
  if ¬ memOpen port s then s
  else s.updPort port (fun h => { h with cmse := cmse, cba := cba % 2 ^ 64 / 4096 * 4096 })

/-- CMBMSC_WRITE (R64). -/
def execCmbmscWrite (port : Port) (cmse : Bool) (cba : Nat) (s : State) : Host.Outcome State Fault Refusal :=
  .next (cmbmscWriteEff port cmse cba s)

/-! Windows (R66 to R72). -/

/-- A BAR2 read in window mode. -/
def windowTlpReadEff (port : Port) (offset len _rid tag : Nat) (s : State) : State :=
  if ¬ portExists port s ∨ ¬ heAnswers s ∨ ¬ isOn Reg.HE_CFG.APMODE s then s
  else if ¬ memServed port s then urCpl port tag s
  else match findWin (s.port port).active offset with
    | none => urCpl port tag s
    | some w =>
      if ¬ w.rd then urCpl port tag s
      else winSubmit port ⟨offset, destOf (w.addr offset) s, true, w.addr offset, len, tag, [], false⟩ s

/-- WINDOW_TLP_READ (R66, R68, R70, R71). -/
def execWindowTlpRead (port : Port) (offset len rid tag : Nat) (s : State) : Host.Outcome State Fault Refusal :=
  .next (windowTlpReadEff port offset len rid tag s)

/-- A BAR2 posted write in window mode. -/
def windowTlpWriteEff (port : Port) (offset : Nat) (data : List Byte) (rid : Nat) (ep : Bool) (s : State) : State :=
  if ¬ memServed port s ∨ ¬ isOn Reg.HE_CFG.APMODE s then s
  else
    let s := if ep then poisonRx port s else s
    match findWin (s.port port).active offset with
    | none => winLog port 0 offset rid s
    | some w =>
      if ¬ w.wr then winLog port 1 offset rid s
      else winSubmit port ⟨offset, destOf (w.addr offset) s, false, w.addr offset, data.length, rid, data, ep⟩ s

/-- WINDOW_TLP_WRITE (R66, R70, R71). -/
def execWindowTlpWrite (port : Port) (offset : Nat) (data : List Byte) (rid : Nat) (ep : Bool) (s : State) :
    Host.Outcome State Fault Refusal :=
  .next (windowTlpWriteEff port offset data rid ep s)

/-- WINDOW_WRITE_ACK: the oldest unacknowledged posted write to that destination is acknowledged; accesses that waited go (R71). -/
def execWindowWriteAck (port : Port) (dest : Option Nat) (s : State) : Host.Outcome State Fault Refusal :=
  .next (releaseHeld port (s.updPort port (fun h => { h with unacked := h.unacked.erase dest })))

/-- UNSUPPORTED_TLP: AtomicOp and I/O requests are answered with Unsupported Request (R70). -/
def execUnsupportedTlp (port : Port) (tag : Nat) (s : State) : Host.Outcome State Fault Refusal :=
  .next (if portExists port s ∧ heAnswers s then urCpl port tag s else s)

/-- MALFORMED_TLP: dropped, and the error is reported, fatal unless AER says otherwise (Table 3.9, R77). -/
def execMalformedTlp (port : Port) (s : State) : Host.Outcome State Fault Refusal :=
  .next (if portExists port s ∧ s.gen.mode ≠ .reset then pcieError port aerMalformed false s else s)

/-! The window commit (R67 to R69). -/

/-- Two entries overlap in the aperture, in MiB. -/
def winOverlap (a b : Win) : Bool := decide (a.base < b.base + 2 ^ b.size ∧ b.base < a.base + 2 ^ a.size)

/-- The first check of Table 3.6 that entry `i` fails. -/
def winCheck (set : List (Nat × Win)) (i : Nat) (w : Win) (s : State) : Option Nat :=
  let n := 2 ^ w.size
  if 16 < w.size then some 0
  else if w.base % n ≠ 0 ∨ 65536 < w.base + n then some 1
  else if w.tgt % n ≠ 0 then some 2
  else if set.any (fun e => e.1 != i && e.2.en && winOverlap w e.2) then some 3
  else if (if w.tgt.testBit 27 then decide (2 ^ 15 < w.tgt % 2 ^ 15 + n)
           else decide (w.tgt < s.prov.expBase ∨ s.prov.expBase + expBufs s / 256 < w.tgt + n)) then some 4
  else if ¬ w.rd ∧ ¬ w.wr then some 5
  else none

/-- The lowest failing entry of a set and the check it fails. -/
def winBad (all : List (Nat × Win)) (s : State) : List (Nat × Win) → Option (Nat × Nat)
  | [] => none
  | (i, w) :: t =>
    if ¬ w.en then winBad all s t
    else match winCheck all i w s with
      | some c => some (i, c)
      | none => winBad all s t

/-- BAR0 offset of HE_WINCOMMIT. -/
def wincommitOff : Nat := 0x88020

/-- Validate and swap a port's sets. Port B has none in single-port mode. -/
def winCommit (p : Port) (copy : Bool) (s : State) : State :=
  if ¬ portExists p s then s
  else if (s.port p).copyBusy then flagOn (portF p Reg.HE_WINSTAT.A_BUSYWR Reg.HE_WINSTAT.B_BUSYWR) s
  else match winBad (s.port p).staging s (s.port p).staging with
    | some (i, c) =>
      let s := flagOn (portF p Reg.HE_WINSTAT.A_BAD Reg.HE_WINSTAT.B_BAD) s
      setF Reg.HE_WINBAD.PORT (portNum p) (setF Reg.HE_WINBAD.CAUSE c (setF Reg.HE_WINBAD.IDX i s))
    | none =>
      flagOff (portF p Reg.HE_WINSTAT.A_BAD Reg.HE_WINSTAT.B_BAD)
        (s.updPort p (fun h => { h with active := h.staging, staging := h.active, winGen := (h.winGen + 1) % 256, copyBusy := copy }))

/-- A commit written by the token's holder. -/
def wincommitEff (p : Port) (who : Writer) (copy : Bool) (s : State) : State :=
  if ¬ setupOpen who s then s
  else if ¬ holds who s then genErr Reg.GEN_ERR.OWNWR wincommitOff who s
  else winCommit p copy s

/-- HE_WINCOMMIT_A (R67, R68, R69). -/
def execHeWincommitA (who : Writer) (copy : Bool) (s : State) : Host.Outcome State Fault Refusal := .next (wincommitEff .a who copy s)

/-- HE_WINCOMMIT_B (R67, R68, R69). -/
def execHeWincommitB (who : Writer) (copy : Bool) (s : State) : Host.Outcome State Fault Refusal := .next (wincommitEff .b who copy s)

/-- WINDOW_COPY_DONE: the staging set equals the active set and BUSY clears (R69). -/
def execWindowCopyDone (port : Port) (s : State) : Host.Outcome State Fault Refusal :=
  .next (if (s.port port).copyBusy then s.updPort port (fun h => { h with staging := h.active, copyBusy := false }) else s)

/-- HE_WINLOG.CLR clears COUNT (Table 3.22). -/
def winlogClrEff (who : Writer) (s : State) : State :=
  if ¬ setupOpen who s then s
  else if ¬ holds who s then genErr Reg.GEN_ERR.OWNWR 0x8802C who s
  else setF Reg.HE_WINLOG.COUNT 0 s

/-- HE_WINLOG_CLR (R81). -/
def execHeWinlogClr (who : Writer) (s : State) : Host.Outcome State Fault Refusal := .next (winlogClrEff who s)

/-! The link (R54, R57 to R59). -/

/-- Training ends at the highest rate both ends support, within MAXRATE; 64 GT/s needs Flit mode; a port has 16 lanes alone and 8 of two. -/
def linkTrainedEff (port : Port) (rate width : Nat) (flit : Bool) (s : State) : State :=
  if ¬ portExists port s ∨ s.gen.mode = .reset then s
  else
    let r := Nat.min rate (Nat.min (getF Reg.HE_CFG.MAXRATE s) 5)
    let r := if flit then r else Nat.min r 4
    let w := Nat.min width (if s.pins.bifur then 8 else 16)
    s.updPort port (fun h =>
      { h with up := true, rate := r, width := w, flit := flit, recovery := false, l1 := false, l12 := false })

/-- LINK_TRAINED (R54). -/
def execLinkTrained (port : Port) (rate width : Nat) (flit : Bool) (s : State) : Host.Outcome State Fault Refusal :=
  .next (linkTrainedEff port rate width flit s)

/-- Extend a command's bound (R142): the amount adds to its deadline; the class and the cause count it once. A class without a bound is not
extended. -/
def extend (id cause ns : Nat) (s : State) : State :=
  match s.cmds.find? (fun c => c.id == id) with
  | none => s
  | some c =>
    if c.deadline.isNone then s
    else
      let first := !c.ext.any (fun e => e.1 == cause)
      let upd := fun (x : IoCmd) => { x with ext := x.ext ++ [(cause, ns)], deadline := x.deadline.map (· + ns) }
      let cls := if c.ext.all (fun e => e.1 == 6) then
          s.fs.classes.modify c.cls (fun (k : ClassCnt) => { k with extended := k.extended + 1 }) else s.fs.classes
      { s with
        cmds := updFirst s.cmds (fun x => x.id == id) upd,
        fs := { s.fs with
          classes := cls, exts := s.fs.exts.modify cause (fun e => (e.1 + (if first then 1 else 0), e.2 + ns)) } }

/-- A completion that a full queue holds is extended too: its T1 is still to come. -/
def extendHeld (p : Port) (cause ns : Nat) (s : State) : State :=
  let hit := fun (h : HeldCqe) => h.done.any (fun d => d.deadline.isSome)
  let n := sumOf ((s.con p).cqs.map (fun q => (q.held.filter hit).length))
  let upd := fun (d : Done) => if d.deadline.isNone then d else { d with deadline := d.deadline.map (· + ns), ext := d.ext ++ [(cause, ns)] }
  let s := s.updCon p (fun c => { c with cqs := c.cqs.map (fun q => { q with held := q.held.map (fun h => { h with done := h.done.map upd }) }) })
  { s with fs := { s.fs with exts := s.fs.exts.modify cause (fun e => (e.1 + n, e.2 + n * ns)) } }

/-- Extend every command of a port whose T0 to T1 overlaps a stay or a change that ends now: those in flight, those whose completion is held, and
those submitted that are no commands yet, for which the port keeps it. -/
def extendPort (p : Port) (cause ns : Nat) (s : State) : State :=
  let s := ((s.cmds.filter (fun c => decide (c.port = p))).map (·.id)).foldl (fun t i => extend i cause ns t) s
  let owed := (s.con p).sqs.any (fun q => q.qid != 0 && (q.t0s != [] || q.fetched != []))
  (extendHeld p cause ns s).updPort p (fun h => { h with stays := if owed then h.stays ++ [(cause, now s, ns)] else [] })

/-- LINK_RECOVERY_ENTRY: the entry is counted (R59). -/
def linkRecoveryEntryEff (port : Port) (s : State) : State :=
  if (s.port port).up ∧ ¬ (s.port port).recovery then
    bump (portF port Reg.HE_LINKREC_A.COUNT Reg.HE_LINKREC_B.COUNT)
      (s.updPort port (fun h => { h with recovery := true, l1 := false, l12 := false }))
  else s

/-- LINK_RECOVERY_ENTRY (R59). -/
def execLinkRecoveryEntry (port : Port) (s : State) : Host.Outcome State Fault Refusal := .next (linkRecoveryEntryEff port s)

/-- The stay's duration is recorded and extends the bounds of commands in flight on the port, cause 2 (R59, Table 5.6). -/
def linkRecoveryExitEff (port : Port) (durationUs : Nat) (s : State) : State :=
  if (s.port port).recovery then
    let s := setSat (portF port Reg.HE_LINKREC_A.LAST Reg.HE_LINKREC_B.LAST) durationUs s
    extendPort port 2 (1000 * durationUs) (s.updPort port (fun h => { h with recovery := false }))
  else s

/-- LINK_RECOVERY_EXIT (R59, R142). -/
def execLinkRecoveryExit (port : Port) (durationUs : Nat) (s : State) : Host.Outcome State Fault Refusal :=
  .next (linkRecoveryExitEff port durationUs s)

/-- SURPRISE_DOWN: handled as a Conventional reset of that port's function (R59). -/
def execSurpriseDown (port : Port) (s : State) : Host.Outcome State Fault Refusal :=
  .next (if (s.port port).up then portDown port s else s)

/-- An L0p width change is accepted; its duration extends the commands in flight on the port, cause 3 (R58, Table 5.6). -/
def l0pWidthChangeEff (port : Port) (width durationNs : Nat) (s : State) : State :=
  if (s.port port).up then extendPort port 3 durationNs (s.updPort port (fun h => { h with width := width })) else s

/-- L0P_WIDTH_CHANGE (R58, R125, R142). -/
def execL0pWidthChange (port : Port) (width durationNs : Nat) (s : State) : Host.Outcome State Fault Refusal :=
  .next (l0pWidthChangeEff port width durationNs s)

/-- The conditions on which HE asks for ASPM L1 (R57). -/
def l1Allowed (port : Port) (idleUs : Nat) (s : State) : Bool :=
  (s.port port).up && !(s.port port).recovery && (s.port port).aspmL1 && decide (16 ≤ idleUs) &&
  !s.cmds.any (fun c => decide (c.port = port))

/-- ASPM_L1_ENTRY (R57). -/
def execAspmL1Entry (port : Port) (idleUs : Nat) (l12 : Bool) (s : State) : Host.Outcome State Fault Refusal :=
  .next (if l1Allowed port idleUs s then s.updPort port (fun h => { h with l1 := true, l12 := l12 }) else s)

/-- ASPM_L1_EXIT (R57). -/
def execAspmL1Exit (port : Port) (s : State) : Host.Outcome State Fault Refusal :=
  .next (s.updPort port (fun h => { h with l1 := false, l12 := false }))

/-- D3HOT_ENTRY: only with the controller disabled or shutdown completed (R56). -/
def execD3hotEntry (port : Port) (s : State) : Host.Outcome State Fault Refusal :=
  .next (if portExists port s ∧ s.gen.hostReleased ∧ (¬ (s.con port).en ∨ (s.con port).shst = 2) then
    s.updPort port (fun h => { h with d3hot := true }) else s)

/-! Configuration registers (R56, R57, R74, R76, R79). The spec gives their effects and leaves their places and layouts to PCI Express Base 6.0
(log entry 31). -/

/-- Read sizes: 128 bytes doubled `code` times. -/
def pcieSize (code : Nat) : Nat := 128 * 2 ^ code

/-- The vectors that are pending and no longer masked send their messages. -/
def msixUnmask (p : Port) (s : State) : State :=
  let h := s.port p
  if h.msixEn ∧ ¬ h.msixMask then
    let ready := h.pba.filter (fun v => msixDword h (4 * v + 3) % 2 == 0)
    ready.foldl (fun t v => emit (.msix p v) t) (s.updPort p (fun h => { h with pba := h.pba.filter (fun v => !ready.contains v) }))
  else s

/-- Clear the bits of `w` that `v` sets. -/
def clearBits (w v : Nat) : Nat := w - (w &&& v)

/-- Change a port's AER registers. -/
def updAer (p : Port) (f : Aer → Aer) (s : State) : State := s.updPort p (fun h => { h with aer := f h.aer })

/-- What a configuration write of a register changes: 0x004 Command, 0x100 power management control, 0x101 Device Control, 0x102 Device
Control 2, 0x103 Link Control, 0x104 MSI-X Message Control, 0x105 to 0x109 the AER registers; other registers hold nothing that can be written. -/
def configStore (port : Port) (reg v : Nat) (s : State) : State :=
  match reg with
  | 0x004 => s.updPort port (fun h => { h with command := v % 65536 })
  | 0x100 => if v % 4 = 0 then s.updPort port (fun h => { h with d3hot := false }) else s
  | 0x101 => s.updPort port (fun h => { h with mps := Nat.min (pcieSize (v / 32 % 8)) 512, mrrs := Nat.min (pcieSize (v / 4096 % 8)) 4096 })
  | 0x102 => s.updPort port (fun h => { h with tag10 := v.testBit 12 })
  | 0x103 => s.updPort port (fun h => { h with aspmL1 := v.testBit 1, rcb := if v.testBit 3 then 128 else 64 })
  | 0x104 => msixUnmask port (s.updPort port (fun h => { h with msixEn := v.testBit 15, msixMask := v.testBit 14 }))
  | 0x105 => updAer port (fun a => { a with ue := clearBits a.ue v }) s
  | 0x106 => updAer port (fun a => { a with ueMask := v }) s
  | 0x107 => updAer port (fun a => { a with ueSev := v }) s
  | 0x108 => updAer port (fun a => { a with ce := clearBits a.ce v }) s
  | 0x109 => updAer port (fun a => { a with ceMask := v }) s
  | _ => s

/-- The capabilities of Table 3.2, by their PCI Express capability IDs: those of the first 256 bytes, then the extended ones. -/
def capabilityIds : List Nat × List Nat := ([0x01, 0x10, 0x11], [0x0001, 0x0019, 0x0025, 0x0026, 0x002A, 0x0031, 0x0027, 0x001E, 0x0018, 0x002E])

/-- LTR latency, snoop and no-snoop, in ns: 4 µs in PS0 to PS2, 1 ms in PS3 and PS4 (R57). -/
def ltrNs (s : State) : Nat := if s.sh.ps = .ps3 ∨ s.sh.ps = .ps4 then 1000000 else 4000

/-- Latencies that L1 PM Substates report (R57): L1 exit latency's encoding, T_POWER_ON and Common_Mode_Restore_Time in µs. -/
def l1Report : Nat × Nat × Nat := (3, 40, 10)

/-- CLKREQ_N is driven low outside the L1 substates (R57). -/
def clkreqLow (h : HostPort) : Bool := !(h.l1 && h.l12)

/-- What a configuration read of a register gives, by the codes of `configStore` and the header's byte offsets (R55, R57): 0x000 the Device ID
over the Vendor ID that fuses hold, 0x008 class code and revision, 0x010 to 0x024 the BARs, 0x10A Link Capabilities' L1 exit latency, 0x10B
L1 PM Substates' T_POWER_ON and Common_Mode_Restore_Time, 0x10C the LTR latency. Expansion ROM, INTx, MSI and ECRC read 0 with every other code. -/
def configRead (port : Port) (reg : Nat) (s : State) : Nat :=
  let h := s.port port
  let bar := fun (i : Nat) => ((h.bars[i]?).getD 0).toNat ||| (barShape port i s).1
  match reg with
  | 0x000 => 0x0009 * 65536 + Config.fuseIdent 0 % 65536
  | 0x004 => h.command
  | 0x008 => 0x010802B0
  | 0x010 => bar 0
  | 0x014 => bar 1
  | 0x018 => bar 2
  | 0x01C => bar 3
  | 0x020 => bar 4
  | 0x024 => bar 5
  | 0x100 => if h.d3hot then 3 else 0
  | 0x101 => 32 * (Nat.log2 h.mps - 7) + 4096 * (Nat.log2 h.mrrs - 7)
  | 0x102 => if h.tag10 then 2 ^ 12 else 0
  | 0x103 => (if h.aspmL1 then 2 else 0) + (if h.rcb = 128 then 8 else 0)
  | 0x104 => (if h.msixEn then 2 ^ 15 else 0) + (if h.msixMask then 2 ^ 14 else 0) + 2047
  | 0x105 => h.aer.ue
  | 0x106 => h.aer.ueMask
  | 0x107 => h.aer.ueSev
  | 0x108 => h.aer.ce
  | 0x109 => h.aer.ceMask
  | 0x10A => l1Report.1 * 2 ^ 15
  | 0x10B => l1Report.2.1 * 2 ^ 8 + l1Report.2.2
  | 0x10C => ltrNs s
  | _ => 0

/-- A configuration write: stored and completed, or answered with Request Retry Status. -/
def configRegisterWriteEff (port : Port) (reg : Nat) (value : Word) (s : State) : State :=
  if ¬ portExists port s ∨ ¬ heAnswers s then configRetry port s
  else configDone port (configStore port reg value.toNat s)

/-- CONFIG_REGISTER_WRITE (R56, R57, R74, R76, R79). -/
def execConfigRegisterWrite (port : Port) (reg : Nat) (value : Word) (s : State) : Host.Outcome State Fault Refusal :=
  .next (configRegisterWriteEff port reg value s)

/-! The DOE mailbox (R80). -/

/-- The answer of DOE Discovery to an index: protocol 0 is Discovery, protocol 1 is CMA/SPDM; the index after the last is 0. -/
def doeDiscovery (index : Nat) : List Word :=
  if index = 0 then [0x00000001#32, 3#32, 0x01000001#32] else [0x00000001#32, 3#32, 0x00010001#32]

/-- The mailbox takes an object: Discovery answers at once; a CMA/SPDM object waits for the SPDM responder; other types are not answered. -/
def doeTake (port : Port) (objType : Nat) (dwords : List Word) (s : State) : State :=
  match objType with
  | 0 => s.updPort port (fun h => { h with doeReq := none, doeResp := doeDiscovery ((dwords[2]?.getD 0).toNat % 256) })
  | 1 => s.updPort port (fun h => { h with doeReq := some dwords })
  | _ => s

/-- A DOE object is written. While a management reset runs, every request waits with Busy set. Objects above 2,048 dwords are not
answered. -/
def doeRequestEff (port : Port) (vendor objType : Nat) (dwords : List Word) (s : State) : State :=
  if ¬ portExists port s ∨ ¬ heAnswers s ∨ 2048 < dwords.length ∨ vendor ≠ 1 then s
  else if (s.port port).doeBusy then s.updPort port (fun h => { h with doeWait := some (objType, dwords) })
  else doeTake port objType dwords s

/-- Busy ends on a port: the object that waited is taken (R80). -/
def doeResume (port : Port) (s : State) : State :=
  let w := (s.port port).doeWait
  let s := s.updPort port (fun h => { h with doeBusy := false, doeWait := none })
  match w with
  | some (ty, ds) => doeTake port ty ds s
  | none => s

/-- DOE_REQUEST (R80). -/
def execDoeRequest (port : Port) (vendor objType : Nat) (dwords : List Word) (s : State) : Host.Outcome State Fault Refusal :=
  .next (doeRequestEff port vendor objType dwords s)

/-- DOE_ABORT: the object in progress is discarded (R80). -/
def execDoeAbort (port : Port) (s : State) : Host.Outcome State Fault Refusal :=
  .next (s.updPort port (fun h => { h with doeReq := none, doeResp := [], doeWait := none }))

end Sys2Proof.Machine
end

