-- ==== Sys2Proof/Machine/Queues.lean ====
section
/-! DEFINITION. Queues: doorbells, the fetch of submission queue entries, shadow doorbells and interrupt coalescing (R74, R75, R85 to R93, R117,
Table 4.6). -/
namespace Sys2Proof.Machine

/-! Tags (R74, R75). -/

/-- Tags a port may have outstanding. -/
def tagLimit (p : Port) (s : State) : Nat :=
  let h := s.port p
  let space := if h.flit then 16384 else if h.tag10 then 768 else 256
  Nat.min (getF (portF p Reg.HE_TAGLIM.A_LIMIT Reg.HE_TAGLIM.B_LIMIT) s) (Nat.min 4096 space)

/-- The share of the limit kept for fetches (R75). -/
def fetchShare (limit : Nat) : Nat := if limit ≥ 512 then 256 else limit / 4

/-- The lowest number no outstanding read uses. -/
def freeTag (h : HostPort) : Nat :=
  ((List.range (h.tags.length + 1)).find? (fun t => !h.tags.any (fun x => x.tag == t))).getD 0

/-- Issue a host read for a fetch, with its reissues (R77). -/
def issueFetch (p : Port) (use : ReadUse) (retries : Nat) (s : State) : State :=
  let t := freeTag (s.port p)
  emit (.hostRead p t use) (s.updPort p (fun h => { h with tags := h.tags ++ [⟨t, use, retries, false⟩] }))

/-- A fetch may be issued. -/
def fetchRoom (p : Port) (s : State) : Bool := decide ((s.port p).tags.length < tagLimit p s)

/-- A data read may be issued: the reserved share stays free. -/
def dataRoom (p : Port) (s : State) : Bool :=
  decide ((s.port p).tags.length < tagLimit p s - fetchShare (tagLimit p s))

/-! Waking from PS3 and PS4 (R117, row 9). -/

/-- The operational state returns: LOWPOWER goes back to the mode before entry, or an entry in progress is cancelled. -/
def wake (s : State) : State :=
  if s.gen.mode = .lowpower then
    enterMode 9 s.gen.lowFrom { s with sh := { s.sh with ps := s.sh.psOp } }
  else if s.gen.psEntry.isSome then
    { s with gen := { s.gen with psEntry := none }, sh := { s.sh with ps := s.sh.psOp } }
  else s

/-- The power state that a wake ends, if any: PS3 or PS4, entered or being entered. -/
def lowState (s : State) : Option PowerState :=
  if s.gen.mode = .lowpower then some s.sh.ps else s.gen.psEntry

/-- A doorbell's arrival wakes the Y9; the commands with its T0 are extended for cause 4 or 5. -/
def wakeDoorbell (s : State) : State :=
  match lowState s with
  | none => s
  | some ps =>
    let s := wake s
    { s with sh := { s.sh with wake := some (now s, if ps = .ps4 then 5 else 4) } }

/-! EventIdx (R90, R91). -/

/-- Write an EventIdx entry (R90). -/
def putEventIdx (p : Port) (idx value : Nat) (s : State) : State :=
  emit (.eventIdx p idx value) (s.updCon p (fun c =>
    { c with eventIdx := c.eventIdx.filter (fun e => e.1 != idx) ++ [(idx, value)] }))

/-- An EventIdx entry that is not at a value takes it. -/
def moveEventIdx (p : Port) (idx value : Nat) (s : State) : State :=
  if (s.con p).eventIdx.any (fun e => e == (idx, value)) then s else putEventIdx p idx value s

/-- While QE polls, every polled queue's entry stands at the last tail, or head, observed minus 1 modulo the queue's size. -/
def eventIdxPolled (p : Port) (s : State) : State :=
  let s := ((s.con p).sqs.filter (·.polled)).foldl (fun t q => moveEventIdx p (2 * q.qid) ((q.tail + q.size - 1) % q.size) t) s
  ((s.con p).cqs.filter (·.polled)).foldl (fun t q => moveEventIdx p (2 * q.qid + 1) ((q.head + q.size - 1) % q.size) t) s

/-- A queue created under shadow operation gets its EventIdx entry. -/
def eventIdxNew (p : Port) (s : State) : State := if (s.con p).polling then eventIdxPolled p s else s

/-- Polling that had stopped resumes at the next MMIO doorbell (R91). -/
def resumePolling (p : Port) (s : State) : State :=
  if (s.con p).shadow.isSome ∧ ¬ (s.con p).polling then eventIdxPolled p (s.updCon p (fun c => { c with polling := true })) else s

/-! Doorbells (R85, R86, R89). -/

/-- An Error Information log entry: at most 256 are kept, newest first (Table 4.8). -/
def logErr (p : Port) (sqid cid sct sc loc lba nsid : Nat) (s : State) : State :=
  s.updCon p (fun c =>
    { c with errCount := c.errCount + 1, errLog := (⟨c.errCount + 1, sqid, cid, sct, sc, loc, lba, nsid⟩ :: c.errLog).take 256 })

/-- An invalid doorbell write: logged, and an Error event posted (R86). -/
def badDoorbell (p : Port) (qid : Nat) (noQueue : Bool) (s : State) : State :=
  let s := logErr p qid 0xFFFF (if noQueue then 1 else 0) (if noQueue then 1 else 2) 0xFFFF 0 0 s
  postEvent p ⟨0, if noQueue then 0 else 1, 0x01⟩ s

/-- A tail is observed (R86, R89): entries not seen before get T0 now; a lower tail than the one known is ignored. -/
def Sq.observe (q : Sq) (tail t : Nat) : Sq :=
  if (tail + q.size - q.head) % q.size < (q.tail + q.size - q.head) % q.size then q
  else
    let n := (tail + q.size - q.tail) % q.size
    { q with tail := tail, t0s := q.t0s ++ List.replicate n t }

/-- What precedes a doorbell's effect: whether it is taken, and the state in which it is. A poisoned write is discarded; the link is in L0. -/
def doorbellTaken (p : Port) (poisoned : Bool) (s : State) : Bool := memOpen p s && !poisoned && rdy p s

/-- The port after a posted write has come in: out of L1; EP is flagged. -/
def doorbellIn (p : Port) (poisoned : Bool) (s : State) : State :=
  let s := s.updPort p (fun h => { h with l1 := false, l12 := false })
  flagIf (poisoned && memOpen p s) (portF p Reg.HE_ERRSTAT.A_POISRX Reg.HE_ERRSTAT.B_POISRX) s

/-- A submission queue tail doorbell. -/
def sqTailDoorbellEff (port : Port) (qid value : Nat) (poisoned : Bool) (s : State) : State :=
  let s := doorbellIn port poisoned s
  if ¬ doorbellTaken port poisoned s then s
  else match (s.con port).sqs.find? (fun q => q.qid == qid) with
    | none => badDoorbell port qid true s
    | some q =>
      if q.size ≤ value then badDoorbell port qid false s
      else
        let s := wakeDoorbell s
        let s := updSq port qid (fun q => q.observe value (now s)) s
        resumePolling port s

/-- SQ_TAIL_DOORBELL (R86, R91, R117). -/
def execSqTailDoorbell (port : Port) (qid value : Nat) (poisoned : Bool) (s : State) : Host.Outcome State Fault Refusal :=
  .next (sqTailDoorbellEff port qid value poisoned s)

/-- Nothing fetched from a submission queue is still open: no command in flight, no entry that has yet to become one, no entry's read and no
completion held in a full queue. -/
def sqIdle (p : Port) (q : Nat) (s : State) : Bool :=
  !s.cmds.any (fun c => decide (c.port = p ∧ c.sq = q)) &&
  !(s.con p).sqs.any (fun x => x.qid == q && x.fetched != []) &&
  !(s.con p).cqs.any (fun x => x.held.any (fun h => h.e.sq == q)) &&
  !(s.port p).tags.any (fun t => !t.dead && (match t.use with
    | .sqe x _ => x == q
    | _ => false))

/-- Complete the deletions of submission queues whose fetched commands have all completed (R84). -/
def finishDeletes (p : Port) (s : State) : State :=
  ((s.con p).sqs.filter (fun q => q.deleting.isSome)).foldl (fun t q =>
    if sqIdle p q.qid t then
      postCqe p 0 (q.deleting.getD 0) 0 0 0 0 (t.updCon p (fun c => { c with sqs := c.sqs.filter (fun x => x.qid != q.qid) }))
    else t) s

/-- The host advances a completion queue's head: held completions go out. -/
def cqHeadSeen (p : Port) (qid value : Nat) (s : State) : State :=
  let s := updCq p qid (fun q => { q with head := value }) s
  let n := (((s.con p).cqs.find? (fun q => q.qid == qid)).map (fun q => q.held.length)).getD 0
  finishDeletes p (releaseHeldCqes p qid n s)

/-- A completion queue head doorbell. -/
def cqHeadDoorbellEff (port : Port) (qid value : Nat) (poisoned : Bool) (s : State) : State :=
  let s := doorbellIn port poisoned s
  if ¬ doorbellTaken port poisoned s then s
  else match (s.con port).cqs.find? (fun q => q.qid == qid) with
    | none => badDoorbell port qid true s
    | some q =>
      if q.size ≤ value then badDoorbell port qid false s
      else
        resumePolling port (cqHeadSeen port qid value (wakeDoorbell s))

/-- CQ_HEAD_DOORBELL (R85, R86). -/
def execCqHeadDoorbell (port : Port) (qid value : Nat) (poisoned : Bool) (s : State) : Host.Outcome State Fault Refusal :=
  .next (cqHeadDoorbellEff port qid value poisoned s)

/-! The fetch (R92, R93). -/

/-- A queue with entries that QE may fetch: a queue being deleted is left alone (R84). -/
def Sq.ready (q : Sq) : Bool := q.head != q.tail && q.deleting.isNone

/-- Round robin: the first ready queue after `last` in cyclic order of identifiers. -/
def roundRobin (qs : List Sq) (last : Nat) : Option Sq :=
  match qs.find? (fun q => q.ready && decide (last < q.qid)) with
  | some q => some q
  | none => qs.find? (fun q => q.ready)

/-- I/O queues of a class, in ascending identifier. -/
def classQs (qs : List Sq) (prio : Nat) : List Sq := qs.filter (fun q => q.prio == prio)

/-- Weights of the high, medium and low classes: the Arbitration feature counts from 0. -/
def arbWeights (arb : Nat) : List Nat := [arb / 2 ^ 24 % 256 + 1, arb / 2 ^ 16 % 256 + 1, arb / 2 ^ 8 % 256 + 1]

/-- Commands of one Arbitration Burst: 2^AB, and no limit for 7. -/
def arbBurst (arb : Nat) : Nat := if arb % 8 = 7 then 65536 else 2 ^ (arb % 8)

/-- The first class of 0 high, 1 medium, 2 low that has an entry and credit left. -/
def wrrClass (qs : List Sq) (credits : List Nat) : Option Nat :=
  [0, 1, 2].find? (fun i => decide (0 < (credits[i]?).getD 0) && (classQs qs (i + 1)).any Sq.ready)

/-- The I/O queue that arbitration picks, and the controller's arbitration state after it. -/
def arbitrate (c : Ctl) : Option (Sq × Ctl) :=
  let qs := c.sqs.filter (fun q => q.qid != 0)
  if c.ams = 0 then
    (roundRobin qs ((c.rrPtr[0]?).getD 0)).map (fun q => (q, { c with rrPtr := c.rrPtr.set 0 q.qid }))
  else match roundRobin (classQs qs 0) ((c.rrPtr[1]?).getD 0) with
    | some q => some (q, { c with rrPtr := c.rrPtr.set 1 q.qid })
    | none =>
      let credits := if (wrrClass qs c.wrr).isSome then c.wrr else arbWeights c.arb
      match wrrClass qs credits with
      | none => none
      | some i =>
        let last := (c.rrPtr[i + 2]?).getD 0
        let again := qs.find? (fun q => q.qid == last && q.prio == i + 1 && q.ready)
        let pick := if 0 < c.burst ∧ again.isSome then again else roundRobin (classQs qs (i + 1)) last
        pick.map (fun q =>
          let left := if 0 < c.burst ∧ q.qid = last then c.burst - 1 else arbBurst c.arb - 1
          (q, { c with rrPtr := c.rrPtr.set (i + 2) q.qid, burst := left, wrr := credits.modify i (fun x => x - 1) }))

/-- An address lies in the CMB that QE serves internally (R64). -/
def inCmb (p : Port) (addr : Nat) (s : State) : Bool :=
  (s.port p).cmse && decide ((s.port p).cba ≤ addr ∧ addr < (s.port p).cba + cmbBytes p s)

/-- The oldest fetched entry of a queue leaves: as a command, whose T0 the queue keeps for it, or because its fetch failed. -/
def sqeGone (p : Port) (sq : Nat) (s : State) : State :=
  updSq p sq (fun q => { q with fetched := q.fetched.drop 1, t0 := q.fetched.head? }) s

/-- A submission queue entry cannot be fetched: CSTS.CFS (R77). -/
def sqeFailed (p : Port) (s : State) : State :=
  flagOn (portF p Reg.HE_ERRSTAT.A_SQEFAIL Reg.HE_ERRSTAT.B_SQEFAIL) (s.updCon p (fun c => { c with cfs := true }))

/-- Fetch the head entry of a queue: from the CMB at once, else with a host read. -/
def fetchFrom (p : Port) (q : Sq) (s : State) : State :=
  let adv := fun (x : Sq) => { x with head := (x.head + 1) % x.size, t0s := x.t0s.drop 1, fetched := x.fetched ++ x.t0s.take 1 }
  let addr := q.base + 64 * q.head
  let s := updSq p q.qid adv s
  if inCmb p addr s then
    let line := (addr - (s.port p).cba) / 64
    let s := mergeDone (cmbLineKey p line) s
    if (s.port p).cmbPoison.contains line then sqeFailed p (poisonConsumed line (sqeGone p q.qid s)) else s
  else issueFetch p (.sqe q.qid q.head) 2 s

/-- QE fetches: the admin queue first, else the arbitrated I/O queue. -/
def sqeFetchEff (port : Port) (s : State) : State :=
  if ¬ rdy port s ∨ s.gen.mode = .lowpower ∨ ¬ fetchRoom port s then s
  else match (s.con port).sqs.find? (fun q => q.qid == 0 && q.ready) with
    | some q => fetchFrom port q s
    | none =>
      -- an LC7 command that waits holds back its own queue (R136)
      let blocked := fun (q : Sq) => s.cmds.any (fun c => decide (c.port = port ∧ c.sq = q.qid ∧ c.stage = .waiting))
      let c0 := s.con port
      match arbitrate { c0 with sqs := c0.sqs.filter (fun q => !blocked q) } with
      | some (q, c) => fetchFrom port q (s.updCon port (fun _ => { c with sqs := c0.sqs }))
      | none => s

/-- SQE_FETCH (R92, R93, R74). -/
def execSqeFetch (port : Port) (s : State) : Host.Outcome State Fault Refusal := .next (sqeFetchEff port s)

/-- A fetched entry has arrived and becomes a command: its tag returns, and its T0 is the one first observed for it. -/
def sqeArrived (p : Port) (sq : Nat) (s : State) : State :=
  let isIt := fun (t : Tag) => !t.dead && (match t.use with
    | .sqe q _ => q == sq
    | _ => false)
  sqeGone p sq (s.updPort p (fun h => { h with tags := h.tags.eraseP isIt }))

/-- T0 of the command that a queue's entry has become: the observation of its tail (R86, R89), or `t0` where no fetch was seen. -/
def t0Of (p : Port) (sq t0 : Nat) (s : State) : Nat :=
  (((s.con p).sqs.find? (fun q => q.qid == sq)).bind (·.t0)).getD t0

/-! Shadow doorbells (R88 to R91). -/

/-- The stretch of the shadow buffer that a round reads: from the 64-byte line of the lowest polled queue to that of the highest (address,
length); `none` while no queue is polled. -/
def pollSpan (c : Ctl) : Option (Nat × Nat) :=
  let qs := (c.sqs.filter (·.polled)).map (·.qid) ++ (c.cqs.filter (·.polled)).map (·.qid)
  match c.shadow, qs with
  | some (base, _), q :: t =>
    let lo := t.foldl Nat.min q * 8 / 64
    let hi := t.foldl Nat.max q * 8 / 64
    some (base + 64 * lo, 64 * (hi - lo + 1))
  | _, _ => none

/-- A round's reads, split only at MRRS: (address, length). -/
def pollReads (p : Port) (s : State) : List (Nat × Nat) :=
  match pollSpan (s.con p) with
  | none => []
  | some (a, l) =>
    let m := Nat.max 64 (s.port p).mrrs
    (List.range ((l + m - 1) / m)).map (fun k => (a + k * m, Nat.min m (l - k * m)))

/-- Issue a round's reads. -/
def pollIssue (p : Port) (s : State) : State :=
  (pollReads p s).foldl (fun t r => issueFetch p (.poll r.1 r.2) 1 t) (s.updCon p (fun c => { c with pollOut := true }))

/-- A poll round goes out when polling is on, none is outstanding and there are tags for its reads. -/
def pollRoundEff (port : Port) (s : State) : State :=
  let c := s.con port
  if rdy port s ∧ c.shadow.isSome ∧ c.polling ∧ ¬ c.pollOut ∧ pollReads port s ≠ [] ∧
      (s.port port).tags.length + (pollReads port s).length ≤ tagLimit port s then pollIssue port s
  else s

/-- POLL_ROUND (R88). -/
def execPollRound (port : Port) (s : State) : Host.Outcome State Fault Refusal := .next (pollRoundEff port s)

/-- A shadow tail of a polled queue is observed; a new one is a doorbell's arrival for a Y9 in PS3 or PS4 (R117). -/
def shadowTail (p : Port) (x : Nat × Nat) (s : State) : State :=
  match (s.con p).sqs.find? (fun q => q.qid == x.1 && q.polled) with
  | none => s
  | some q =>
    if q.size ≤ x.2 ∨ (q.observe x.2 (now s)).tail = q.tail then s
    else
      let s := wakeDoorbell s
      updSq p x.1 (fun q => q.observe x.2 (now s)) s

/-- A shadow head of a polled completion queue. -/
def shadowHead (p : Port) (x : Nat × Nat) (s : State) : State :=
  match (s.con p).cqs.find? (fun q => q.qid == x.1 && q.polled) with
  | none => s
  | some q => if q.size ≤ x.2 ∨ q.head = x.2 then s else cqHeadSeen p x.1 x.2 s

/-- The round's reads return their tags. -/
def pollReturned (p : Port) (s : State) : State :=
  let s := s.updCon p (fun c => { c with pollOut := false })
  let keep := fun (t : Tag) => t.dead || (match t.use with
    | .poll _ _ => false
    | _ => true)
  s.updPort p (fun h => { h with tags := h.tags.filter keep })

/-- POLL_COMPLETION: T0 of new entries is the arrival of the poll completion that shows them (R89). A new tail resumes polling that was being
stopped (R91); QE then writes the EventIdx entries (R90). -/
def pollCompletionEff (port : Port) (tails heads : List (Nat × Nat)) (s : State) : State :=
  if ¬ (s.con port).pollOut then s
  else
    let s := pollReturned port s
    let before := (s.con port).sqs.map (·.tail)
    let s := tails.foldl (fun t x => shadowTail port x t) s
    let s := heads.foldl (fun t x => shadowHead port x t) s
    let fresh := (s.con port).sqs.map (·.tail) != before
    let s := s.updCon port (fun c => { c with polling := c.polling || fresh })
    if (s.con port).polling then eventIdxPolled port s else s

/-- POLL_COMPLETION (R89, R90). -/
def execPollCompletion (port : Port) (tails heads : List (Nat × Nat)) (s : State) : Host.Outcome State Fault Refusal :=
  .next (pollCompletionEff port tails heads s)

/-- Every polled queue's EventIdx entries take the values last observed (R91). -/
def eventIdxStopped (p : Port) (s : State) : State :=
  let s := ((s.con p).sqs.filter (·.polled)).foldl (fun t q => putEventIdx p (2 * q.qid) q.tail t) s
  ((s.con p).cqs.filter (·.polled)).foldl (fun t q => putEventIdx p (2 * q.qid + 1) q.head t) s

/-- A port has a command outstanding: in flight, fetched, submitted and not yet fetched, or completed and held. -/
def portBusy (p : Port) (s : State) : Bool :=
  s.cmds.any (fun x => decide (x.port = p)) || (s.con p).sqs.any (fun q => q.qid != 0 && (q.fetched != [] || q.head != q.tail)) ||
  (s.con p).cqs.any (fun q => q.held != [])

/-- QE_POLL x_STOPPED: polling of a port under shadow operation is stopped (R91). -/
def pollStopped (p : Port) (s : State) : Bool := (s.con p).shadow.isSome && !(s.con p).polling

/-- QE stops polling a port: the EventIdx entries take the values last observed, and then one final round goes out. -/
def stopPolling (p : Port) (s : State) : State :=
  if (s.con p).shadow.isSome ∧ (s.con p).polling then
    pollIssue p ((eventIdxStopped p (pollReturned p s)).updCon p (fun c => { c with polling := false }))
  else s

/-- QE stops polling after 100 µs without a new tail and with nothing outstanding, or in LOWPOWER; `finalTails` is what the final round
shows. -/
def pollStopEff (port : Port) (idleUs : Nat) (finalTails : List (Nat × Nat)) (s : State) : State :=
  let c := s.con port
  let quiet := decide (100 ≤ idleUs) && !portBusy port s
  if c.shadow.isSome ∧ c.polling ∧ (quiet ∨ s.gen.mode = .lowpower) then pollCompletionEff port finalTails [] (stopPolling port s)
  else s

/-- POLL_STOP (R91). -/
def execPollStop (port : Port) (idleUs : Nat) (finalTails : List (Nat × Nat)) (s : State) : Host.Outcome State Fault Refusal :=
  .next (pollStopEff port idleUs finalTails s)

/-! Interrupt coalescing (Table 4.6). -/

/-- INTERRUPT_COALESCING_TIMEOUT: the aggregation time of a vector runs out, and its message is sent (R98). -/
def execInterruptCoalescingTimeout (port : Port) (vector : Nat) (s : State) : Host.Outcome State Fault Refusal :=
  .next (if sGet (s.con port).icPend 0 vector = 0 then s
    else msix port vector (s.updCon port (fun c => { c with icPend := sPut c.icPend 0 vector 0 })))

end Sys2Proof.Machine
end

