-- ==== Sys2Proof/Machine/Operands.lean ====
section
/-! DEFINITION. The operand forms of commands: the data pointer and metadata pointer and their checks (R64, R119), and the header checks every
admin command takes (R94, Table 2.1). -/
namespace Sys2Proof.Machine

/-! Data pointers (R119, Table 4.13). -/

/-- The 64-bit address a pair of BAR dwords holds. -/
def barBase (p : Port) (i : Nat) (s : State) : Nat :=
  (((s.port p).bars[i]?).getD 0).toNat + 2 ^ 32 * (((s.port p).bars[i + 1]?).getD 0).toNat

/-- Bytes of BAR2. -/
def bar2Bytes (p : Port) (s : State) : Nat := if isOn Reg.HE_CFG.APMODE s then 2 ^ 36 else cmbBytes p s

/-- An address falls in the function's own BAR0 or BAR2 and not in the CMB that QE serves (R64). -/
def inOwnBar (p : Port) (addr : Nat) (s : State) : Bool :=
  let b0 := barBase p 0 s
  let b2 := barBase p 2 s
  (decide (b0 ≤ addr ∧ addr < b0 + 2 ^ 20) || decide (b2 ≤ addr ∧ addr < b2 + bar2Bytes p s)) && !inCmb p addr s

/-- Descriptor types of NVM Express. -/
def sglData : Nat := 0
/-- Segment. -/
def sglSegment : Nat := 2
/-- Last Segment. -/
def sglLast : Nat := 3

/-- Bytes that the Data Block descriptors of a chain describe. -/
def sglBytes (segs : List (List SglDesc)) : Nat :=
  sumOf (segs.flatMap (fun g => (g.filter (fun d => d.typ == sglData)).map (·.length)))

/-- A descriptor that points to another segment. -/
def pointsOn (d : SglDesc) : Bool := d.typ == sglSegment || d.typ == sglLast

/-- A Last Segment is followed by a further segment, or a pointing descriptor is malformed. -/
def badSegments : List (List SglDesc) → Bool
  | [] => false
  | [g] => g.any (fun d => pointsOn d && d.malformed)
  | g :: h :: t =>
    g.any (fun d => pointsOn d && d.malformed) ||
    (g.any (fun d => d.typ == sglLast) && (h.any pointsOn || !t.isEmpty)) || badSegments (h :: t)

/-- Some byte of a stretch of host memory falls in the function's own BAR0 or BAR2, outside the CMB that QE serves (R64). -/
def inOwnBarRange (p : Port) (r : Nat × Nat) (s : State) : Bool :=
  let cut := fun (b n : Nat) => (Nat.max r.1 b, Nat.min (r.1 + r.2) (b + n))
  let bad := fun (x : Nat × Nat) => decide (x.1 < x.2) &&
    !((s.port p).cmse && decide ((s.port p).cba ≤ x.1 ∧ x.2 ≤ (s.port p).cba + cmbBytes p s))
  bad (cut (barBase p 0 s) (2 ^ 20)) || bad (cut (barBase p 2 s) (bar2Bytes p s))

/-- A PRP entry has an offset where none may be (PRP2 that is itself an entry, and every list entry). `page` is the host page size. -/
def badPrp (page : Nat) : List Nat → Bool
  | [_, p2] => p2 % page != 0
  | _ :: _ :: rest => rest.any (fun e => e % page != 0)
  | _ => false

/-! Data in the controller memory buffer (R64). -/

/-- PRP entries as pieces of a transfer of `len` bytes: the first runs to its page's end, the others fill pages. -/
def prpPieces (page : Nat) : List Nat → (len : Nat) → List (Nat × Nat)
  | [], _ => []
  | e :: t, len =>
    let n := Nat.min len (page - e % page)
    if n = 0 then [] else (e, n) :: prpPieces page t (len - n)

/-- The pieces (address, length) of a transfer, in order. With more than two entries the second points to the list that the others form. -/
def dataPieces (page : Nat) (d : DataPtr) (len : Nat) : List (Nat × Nat) :=
  match d with
  | .unread => []
  | .prp (a :: _ :: c :: t) => prpPieces page (a :: c :: t) len
  | .prp es => prpPieces page es len
  | .sgl segs _ => segs.flatMap (fun g => (g.filter (fun d => d.typ == sglData)).map (fun d => (d.address, d.length)))

/-- The stretches (address, length) that hold a data pointer's list or segments. -/
def listRanges : DataPtr → List (Nat × Nat)
  | .prp (_ :: l :: c :: t) => [(l, 8 * (c :: t).length)]
  | .sgl segs _ => segs.flatMap (fun g => (g.filter pointsOn).map (fun d => (d.address, d.length)))
  | _ => []

/-- What the metadata pointer of a command describes: (described, required) bytes, its pieces, and whether a descriptor has a wrong type. -/
structure MdUse where
  described : Nat
  required : Nat
  pieces : List (Nat × Nat)
  badType : Bool
  deriving DecidableEq, Repr

/-- What QE serves internally of a transfer: (position in it, address, length) of every stretch in the CMB. -/
def cmbParts (p : Port) (s : State) : (pos : Nat) → List (Nat × Nat) → List (Nat × Nat × Nat)
  | _, [] => []
  | pos, (a, l) :: t =>
    let lo := Nat.max a (s.port p).cba
    let hi := Nat.min (a + l) ((s.port p).cba + cmbBytes p s)
    if (s.port p).cmse ∧ lo < hi then (pos + lo - a, lo, hi - lo) :: cmbParts p s (pos + l) t else cmbParts p s (pos + l) t

/-- The address in the CMB of a position of a transfer. -/
def cmbAt (parts : List (Nat × Nat × Nat)) (pos : Nat) : Option Nat :=
  (parts.find? (fun q => decide (q.1 ≤ pos ∧ pos < q.1 + q.2.2))).map (fun q => q.2.1 + (pos - q.1))

/-- Bytes of a transfer that lie in the CMB. -/
def cmbLen (parts : List (Nat × Nat × Nat)) : Nat := sumOf (parts.map (·.2.2))

/-- The bytes at a position of a transfer, with those of the CMB in place. -/
def cmbTake (p : Port) (parts : List (Nat × Nat × Nat)) (pos : Nat) (bs : List Byte) (s : State) : List Byte :=
  bs.zipIdx.map (fun x => match cmbAt parts (pos + x.2) with
    | some a => sGet (s.port p).cmb 0 (a - (s.port p).cba)
    | none => x.1)

/-- Some byte of a transfer's stretch of `n` bytes lies in a poisoned line of the CMB. -/
def cmbBad (p : Port) (parts : List (Nat × Nat × Nat)) (pos n : Nat) (s : State) : Bool :=
  parts.any (fun q =>
    let lo := Nat.max pos q.1
    let hi := Nat.min (pos + n) (q.1 + q.2.2)
    decide (lo < hi) && (linesOf (q.2.1 + (lo - q.1) - (s.port p).cba) (hi - lo)).any (fun l => (s.port p).cmbPoison.contains l))

/-- A stretch of a transfer's data enters the CMB where it lies there; poison goes with it (R297). -/
def cmbPut (p : Port) (parts : List (Nat × Nat × Nat)) (pos : Nat) (bs : List Byte) (ep : Bool) (s : State) : State :=
  parts.foldl (fun t q =>
    let lo := Nat.max pos q.1
    let hi := Nat.min (pos + bs.length) (q.1 + q.2.2)
    if lo < hi then
      let off := q.2.1 + (lo - q.1) - (t.port p).cba
      let r := linesWrite 0 (cmbLineKey p) off (hi - lo) (fun _ => ep) (t.port p).cmbPoison t
      r.2.updPort p (fun h => { h with cmb := putBytes h.cmb off ((bs.drop (lo - pos)).take (hi - lo)), cmbPoison := r.1 })
    else t) s

/-- The host page size of a controller (CC.MPS). -/
def hostPage (p : Port) (s : State) : Nat := 4096 * 2 ^ (s.con p).mps

/-- The first check of Table 4.13 that a command's pointers fail, in the table's order: (SCT, SC). `len` is the data length, `md` the metadata
that a separate buffer holds. A list that cannot be read fails the command with Data Transfer Error (R77). -/
def descCheck (p : Port) (d : DataPtr) (len : Nat) (md : Option MdUse) (s : State) : Option (Nat × Nat) :=
  let lenBad := match d with
    | .sgl segs _ => sglBytes segs != len
    | _ => false
  let prpBad := match d with
    | .prp es => badPrp (hostPage p s) es
    | _ => false
  let segs := match d with
    | .sgl segs _ => segs
    | _ => []
  let caps := match d with
    | .sgl _ caps => caps
    | _ => []
  let stretches := dataPieces (hostPage p s) d len ++ listRanges d ++ (md.map (·.pieces)).getD []
  if d = .unread then some (0, 0x04)
  else if lenBad then some (0, 0x0F)
  else if md.any (fun m => m.described != m.required) then some (0, 0x10)
  else if prpBad then some (0, 0x13)
  else if segs.any (fun g => g.any (fun x => x.typ != sglData && !pointsOn x)) || md.any (·.badType) then some (0, 0x11)
  else if badSegments segs then some (0, 0x0D)
  else if (segs.zip caps).any (fun x => decide (x.2 < x.1.length)) then some (0, 0x0E)
  else if stretches.any (fun r => inOwnBarRange p r s) then some (0, 0x04)
  else none

/-! Admin commands. -/

/-- The modes that serve a command of the full set: all but RESET, BOOT, RECOVERY, PROVISION, DRAIN and QUARANTINE (Table 2.1). -/
def modesAll (m : Mode) : Bool := match m with
  | .service | .lowpower | .standby | .ingest | .sealed | .diagnostic => true
  | _ => false

/-- The modes that serve Get and Set Features: PROVISION too. -/
def modesFeature (m : Mode) : Bool := modesAll m || m == .provision

/-- The modes that serve Identify, Get Log Page and the firmware commands: RECOVERY too. Queue and event commands, without which the admin
set cannot be used, are served with them (log entry 33). -/
def modesBasic (m : Mode) : Bool := modesFeature m || m == .recovery

/-- The completion of an admin command: an entry in the admin completion queue, or the response of a tunnelled command (R387). -/
def adminDone (h : AdminHdr) (sct sc dw0 dw1 : Nat) (s : State) : State :=
  if h.tunnelled then emit (.mi (sc + 256 * sct) [dw0, dw1]) s else postCqe h.port 0 h.cid sct sc dw0 dw1 s

/-- A payload cut into parts of at most `m` bytes (R76). -/
def cutAt {α : Type} (m : Nat) (bs : List α) : List (List α) :=
  (List.range (ceilDiv bs.length (Nat.max 1 m))).map (fun k => (bs.drop (k * Nat.max 1 m)).take (Nat.max 1 m))

/-- The payloads of the memory writes that carry data to the host: those of each piece that is not in the CMB, at most MPS bytes each. Bytes
beyond the last piece go out with it. -/
def writeTlps (p : Port) (s : State) : (pieces : List (Nat × Nat)) → (bytes : List Nat) → List (List Nat)
  | [], bs => cutAt (s.port p).mps bs
  | (a, l) :: t, bs => (if inCmb p a s then [] else cutAt (s.port p).mps (bs.take l)) ++ writeTlps p s t (bs.drop l)

/-- Data that a command returns through a data pointer: into the CMB where it points there, else to the host, split at MPS (R64, R76). -/
def dataOut (p : Port) (cid : BitVec 16) (pieces : List (Nat × Nat)) (bytes : List Nat) (s : State) : State :=
  let s := cmbPut p (cmbParts p s 0 pieces) 0 (bytes.map (BitVec.ofNat 8)) false s
  emits ((writeTlps p s pieces bytes).map (.hostBytes p cid)) s

/-- Data that an admin command returns. -/
def adminData (h : AdminHdr) (bytes : List Nat) (s : State) : State :=
  if h.tunnelled then emit (.mi 0 bytes) s
  else dataOut h.port h.cid (dataPieces (hostPage h.port s) h.data bytes.length) bytes s

/-- Success without a result. -/
def adminOk (h : AdminHdr) (s : State) : State := adminDone h 0 0 0 0 s

/-- A failure. -/
def adminFail (h : AdminHdr) (sct sc : Nat) (s : State) : State := adminDone h sct sc 0 0 s

/-- What every admin command meets first: mode, FUSE, reserved fields, and the descriptors of its data of `len` bytes. -/
def adminCheck (h : AdminHdr) (modes : Mode → Bool) (len : Nat) (s : State) : Option (Nat × Nat) :=
  if ¬ modes s.gen.mode then some (0, 0x01)
  else if h.fuse ≠ 0 ∨ ¬ h.reservedZero then some (0, 0x02)
  else if len = 0 then none
  else descCheck h.port h.data len none s

/-- An admin command arrives on a ready controller: its fetch tag returns, it ends LOWPOWER, and it is checked; then its own effect. -/
def adminCmd (h : AdminHdr) (modes : Mode → Bool) (len : Nat) (body : State → State) (s : State) : State :=
  if ¬ h.tunnelled ∧ ¬ rdy h.port s then s
  else
    let s := if h.tunnelled then s else wake (sqeArrived h.port 0 s)
    match adminCheck h modes len s with
    | some (sct, sc) => adminFail h sct sc s
    | none => body s

end Sys2Proof.Machine
end

