-- ==== Sys2Proof/Machine/Pages.lean ====
section
/-! DEFINITION. The data structures the Y9 returns: Identify, the log pages and the Latency Class Table, as bytes (R96, R97, R99, R102 to R106,
R145, R420, R421). The places of standard fields are NVM Express's own (log entry 34). -/
namespace Sys2Proof.Machine

/-- `n` bytes of a number, least significant first. -/
def le : Nat → Nat → List Nat
  | 0, _ => []
  | n + 1, v => v % 256 :: le n (v / 256)

/-- A page as pieces: (offset, bytes); every byte no piece covers is 0. -/
def pieceByte (ps : List (Nat × List Nat)) (i : Nat) : Nat :=
  match ps.find? (fun p => decide (p.1 ≤ i ∧ i < p.1 + p.2.length)) with
  | some p => (p.2[i - p.1]?).getD 0
  | none => 0

/-- A page: its length and its bytes. -/
structure Page where
  len : Nat
  byte : Nat → Nat

/-- A page made of pieces. -/
def Page.of (len : Nat) (ps : List (Nat × List Nat)) : Page := ⟨len, pieceByte ps⟩

/-- The bytes of a page from an offset, up to its end. -/
def Page.slice (p : Page) (off n : Nat) : List Nat := (List.range (Nat.min n (p.len - off))).map (fun i => p.byte (off + i))

/-! Classes (Tables 4.7, 5.2). -/

/-- The bounds in force of a class; `none` for LC7. -/
def classRow (k : Nat) (s : State) : Option LatClass :=
  match k with
  | 0 => some ⟨320, 16, 40, 60, 900⟩
  | 1 => some ⟨1500, 256, 200, 200, 3000⟩
  | 2 => some .lc2
  | 7 => none
  | n => s.sh.lct[n - 3]?

/-- An entry of the Latency Class Table. -/
def classBytes (k : Nat) (s : State) : List Nat :=
  match classRow k s with
  | some c => le 4 c.rdBound ++ le 4 c.rdSize ++ le 4 c.wrBound ++ le 4 c.wrBoundT ++ le 4 c.fuaBound ++
      le 4 (if k < 3 then 1 else 3) ++ le 8 0
  | none => le 32 0

/-- The table of Feature C0h. -/
def classTable (s : State) : Page := Page.of 256 ((List.range 8).map (fun k => (32 * k, classBytes k s)))

/-! Identify (R96, R97). -/

/-- Identify Controller (Table 4.5a). -/
def identController (p : Port) (s : State) : Page :=
  let ascii := [86, 69, 76, 90, 79, 83, 84, 65, 32, 89, 65, 76, 73, 78, 79, 32, 89, 57]
  let ps := fun (mw entlat exlat non : Nat) => le 2 mw ++ [0, non] ++ le 4 entlat ++ le 4 exlat ++ le 20 0
  Page.of 4096
    [(0, le 2 (Config.fuseIdent 0)), (2, le 2 (Config.fuseIdent 1)), (4, le 20 (Config.fuseIdent 2)),
     (24, ascii ++ List.replicate 22 32), (64, le 8 ((s.dg.runImg.map (fun i => i.fwRev.toNat)).getD 0)), (72, [6]),
     (73, le 3 (Config.fuseIdent 3)), (76, [0x0B]), (77, [9]), (78, le 2 (cntlid p s)),
     (84, le 4 10000000), (88, le 4 3000000), (92, le 4 (2 ^ 8 + 2 ^ 9 + 2 ^ 11)), (256, le 2 0x013E), (258, [3, 15, 0x14, 0x06, 255, 4]),
     (265, [0]), (266, le 2 368), (268, le 2 378), (328, le 4 3), (343, [0x05]), (344, le 4 1024), (348, le 4 1024),
     (512, [0x66, 0x44]), (516, le 4 1024), (520, le 2 0x018E), (524, [0x04, 0x07]), (534, le 2 0x0003), (536, le 4 0x00080002),
     (2048, ps 6500 0 0 0 ++ ps 4500 100 100 0 ++ ps 2800 100 100 0 ++ ps 700 1000 300 2 ++ ps 280 20000 5000 2)]

/-- The LBA formats of Table 9.2: metadata, data size and relative performance. -/
def lbaFormats : List Nat :=
  le 2 0 ++ [12, 0] ++ le 2 8 ++ [12, 0] ++ le 2 16 ++ [12, 0] ++ le 2 0 ++ [14, 1] ++ le 2 16 ++ [14, 1]

/-- NSSTATE of Table 4.5. -/
def nsState (n : Ns) : Nat :=
  (if n.resident then 1 else 0) + (if n.sealInfo.isSome then 2 else 0) + (if n.sealInfo.any (·.2) then 4 else 0) +
  (if n.migrated then 8 else 0)

/-- The entries of the Latency Class Table that a mask names, as a mirrored record carries them (Table 13.2). -/
def classEntries (mask : Nat) (s : State) : List Nat := ((List.range 8).filter mask.testBit).flatMap (fun k => classBytes k s)

/-- Identify Namespace (R97, Table 4.5). DESIGN CHOICE: NUSE, for which the spec gives no value, reports NCAP (log entry 110). -/
def identNs (n : Ns) : Page :=
  Page.of 4096
    [(0, le 8 n.nsze), (8, le 8 n.ncap), (16, le 8 n.ncap), (24, [if n.thin then 1 else 0, 4, n.lbaf + (if n.extLba then 16 else 0), 3]),
     (28, [0x1F, n.dps, n.nmic]), (33, [0x09]), (92, le 4 n.nsid), (104, le 16 n.nguid), (120, le 8 n.eui), (128, lbaFormats),
     (3072, [n.grainCode, (if n.xts then 1 else 0) + (if n.thin then 2 else 0), nsState n, if n.resident then 0 else 2]),
     (3080, le 8 n.lastCsn), (3088, le 8 ((n.sealInfo.map (·.1)).getD 0))]

/-- The Identify Namespace Y9 reports for NSID 0xFFFFFFFF: what is common to all namespaces. -/
def identCommon : Page := Page.of 4096 [(25, [4]), (27, [3]), (28, [0x1F]), (33, [0x09]), (128, lbaFormats)]

/-- Namespaces that answer on a controller: attached and not leaving (R97). -/
def attachedTo (p : Port) (n : Ns) (s : State) : Bool := n.attached.contains (cntlid p s) && !n.leaving.contains (cntlid p s)

/-- NSIDs above `from_` of namespaces that satisfy a condition, ascending, at most 1,024. -/
def nsList (keep : Ns → Bool) (from_ : Nat) (s : State) : Page :=
  let ids := ((s.ns.filter keep).map (·.nsid)).filter (fun i => decide (from_ < i))
  let sorted := (ids.foldl (fun (l : List (Nat × Unit)) i => sIns l i ()) []).map (·.1)
  Page.of 4096 [(0, (sorted.take 1024).flatMap (le 4))]

/-- Namespace identification descriptors: EUI-64, NGUID and the command set. -/
def identDescs (n : Ns) : Page := Page.of 4096 [(0, [1, 8, 0, 0] ++ le 8 n.eui ++ [2, 16, 0, 0] ++ le 16 n.nguid ++ [4, 1, 0, 0, 0])]

/-- A controller list: identifiers at or above `from_`. -/
def ctrlList (ids : List Nat) (from_ : Nat) : Page :=
  let l := ids.filter (fun i => decide (from_ ≤ i))
  Page.of 4096 [(0, le 2 l.length ++ l.flatMap (le 2))]

/-- The CNTLIDs of this Y9's controllers. -/
def ownCntlids (s : State) : List Nat := cntlid .a s :: (if s.pins.bifur then [cntlid .b s] else [])

/-! Log pages (Table 4.8). -/

/-- 00h: the supported pages. -/
def logSupported : Page :=
  Page.of 1024 ([0, 1, 2, 3, 4, 5, 6, 0x0C, 0x81, 0xC0, 0xC1, 0xC2, 0xC3, 0xC4].map (fun i => (4 * i, [1, 0, 0, 0])))

/-- 01h: Error Information, newest first. -/
def logErrors (c : Ctl) : Page :=
  Page.of (256 * 64) (c.errLog.zipIdx.map (fun x =>
    let e := x.1
    (64 * x.2, le 8 e.count ++ le 2 e.sqid ++ le 2 e.cid ++ le 2 (2 * (256 * e.sct + e.sc)) ++ le 2 e.loc ++ le 8 e.lba ++ le 4 e.nsid)))

/-- SMART critical warning (R420). -/
def critWarning (s : State) : Nat :=
  (if availableSpare s < 10 then 1 else 0) +
  (if s.sh.tOver ≤ s.sh.compTempK ∨ s.sh.compTempK ≤ s.sh.tUnder then 2 else 0) +
  (if s.gen.mode = .sealed then 8 else 0) + (if writeThrough s ∧ s.gen.verifiedOnce then 16 else 0)

/-- 02h: SMART. Counts of data units, hours and cycles are not stated by the spec and are free values (log entry 2). -/
def logSmart (s : State) : Page :=
  Page.of 512
    [(0, [critWarning s]), (1, le 2 s.sh.compTempK), (3, [availableSpare s, 10]), (5, [Config.freeValue s.freeCtr % 256]),
     (32, le 16 (Config.freeValue (s.freeCtr + 1))), (48, le 16 (Config.freeValue (s.freeCtr + 2))), (64, le 16 s.sh.hostReads),
     (80, le 16 s.sh.hostWrites), (96, le 16 (Config.freeValue (s.freeCtr + 3))), (112, le 16 (Config.freeValue (s.freeCtr + 4))),
     (128, le 16 (Config.freeValue (s.freeCtr + 5))), (144, le 16 (Config.freeValue (s.freeCtr + 6))),
     (160, le 16 (Config.freeValue (s.freeCtr + 7))), (176, le 16 (s.ctl.a.errCount + s.ctl.b.errCount))]

/-- 03h: Firmware Slot Information. -/
def logFirmware (s : State) : Page :=
  let rev := fun (i : Option SlotImage) => le 8 ((i.map (fun x => x.fwRev.toNat)).getD 0)
  let run := 1 + getF Reg.MG_STAT.SLOT s
  Page.of 512 [(0, [run + 16 * (if s.ff.selBlock + 1 = run then 0 else s.ff.selBlock + 1)]), (8, rev s.ff.slot1), (16, rev s.ff.slot2)]

/-- 04h: Changed Namespace List. -/
def logChanged (c : Ctl) : Page :=
  Page.of 4096 [(0, ((c.changedNs.foldl (fun (l : List (Nat × Unit)) i => sIns l i ()) []).map (·.1)).flatMap (le 4))]

/-- 05h: Commands Supported and Effects (Table 4.10a). -/
def logEffects : Page :=
  let adm : List (Nat × Nat) :=
    [(0x00, 1), (0x01, 1), (0x04, 1), (0x05, 1), (0x02, 1), (0x06, 1), (0x08, 1), (0x0A, 1), (0x0C, 1), (0x09, 0x11),
     (0x0D, 0x0D), (0x15, 0x09), (0x10, 0x11), (0x11, 1), (0x14, 1), (0x19, 1), (0x1A, 1), (0x7C, 1), (0x80, 0x10007), (0x84, 0x20007),
     (0xC0, 0x2001F), (0xC1, 0x2001F), (0xC2, 5)]
  let io : List (Nat × Nat) := [(0x01, 3), (0x04, 3), (0x08, 3), (0x09, 3), (0x19, 3), (0x00, 1), (0x02, 1), (0x0C, 1), (0x80, 1)]
  Page.of 4096 (adm.map (fun x => (4 * x.1, le 4 x.2)) ++ io.map (fun x => (1024 + 4 * x.1, le 4 x.2)))

/-- 06h: Device Self-test. -/
def logSelfTest (c : Ctl) : Page :=
  Page.of 564 ((0, [c.selfTest.getD 0]) ::
    (c.selfTests.take 20).zipIdx.map (fun x => (4 + 28 * x.2, [x.1.2 + 16 * x.1.1])))

/-- The ANA state of a namespace: 01h optimized, 03h inaccessible (R323). -/
def anaState (n : Ns) (s : State) : Nat :=
  if n.moving ∨ n.ingesting ∨ ¬ n.owner ∨ s.gen.mode = .standby then 3 else 1

/-- 0Ch: Asymmetric Namespace Access: one group for each namespace. -/
def logAna (p : Port) (s : State) : Page :=
  let ns := s.ns.filter (fun n => attachedTo p n s)
  Page.of (16 + 40 * ns.length) ((0, le 8 (Config.freeValue s.freeCtr) ++ le 2 ns.length) ::
    ns.zipIdx.map (fun x => (16 + 40 * x.2, le 4 x.1.nsid ++ le 4 1 ++ le 8 (Config.freeValue s.freeCtr) ++ [anaState x.1 s] ++ le 15 0 ++ le 4 x.1.nsid)))

/-- 81h: Sanitize Status. -/
def logSanitize (s : State) : Page := Page.of 512 [(0, le 2 0xFFFF ++ le 2 (match s.sh.sanState with
  | 0 => 0
  | 2 => 1
  | _ => 2))]

/-- Die slots the wear page covers (R103). -/
def wearDies (s : State) : Nat := maxOf ((s.nand.dies ++ s.nand.badDies).map (· + 1))

/-- Retired blocks, factory marks included. -/
def retiredBlocks (s : State) : Nat :=
  s.nand.factoryBad.length + (s.mm.blocks.filter (fun x => x.2.retired && !s.nand.factoryBad.contains (x.1 / 16384, x.1 % 16384))).length

/-- The member slot that a die serves: its own, or the one whose failed die it stands in for (R222). -/
def servedSlot (d : Nat) (s : State) : Option (Group × Nat) :=
  match groupOfDie d s with
  | some g => some (g, g.posOf d)
  | none => (s.sp.subst.find? (fun e => decide (e.dst = d ∧ e.state ≠ 4))).bind (fun e =>
      (groupOfDie e.src s).map (fun g => (g, g.posOf e.src)))

/-- The state code of a block (R103). -/
def blockState (d b : Nat) (s : State) : Nat :=
  if ¬ s.nand.dies.contains d then 6
  else if (getBlk d b s).retired ∨ s.nand.factoryBad.contains (d, b) then 4
  else match servedSlot d s with
    | none => if s.sp.spares.contains d then 5 else 0
    | some (g, m) =>
      if (slotOfBlock g m b s).isSome then 3
      else match rowOfBlock g m b s with
        | none => 0
        | some r => match s.mm.barrels.find? (fun x => x.num == barrelNum g.num r) with
          | none => 0
          | some x => if x.state = 0 then 1 else 2

/-- Erase counts of the good dies' blocks that have any. -/
def eraseCounts (s : State) : List Nat :=
  (s.mm.blocks.filter (fun e => s.nand.dies.contains (e.1 / 16384) && !e.2.retired)).map (·.2.erases)

/-- C0h: Media Wear (Table 4.9). -/
def logWear (s : State) : Page :=
  let dies := wearDies s
  let total := blocksPerDie * s.nand.dies.length - s.nand.factoryBad.length - (s.mm.blocks.filter (·.2.retired)).length
  let l := eraseCounts s
  let head := [(0, le 4 dies ++ le 2 blocksPerDie), (8, le 4 1500), (12, le 4 (if l.length < total then 0 else minOf l 0)), (16, le 4 (maxOf l)),
    (20, le 4 (sumOf l / Nat.max 1 total)), (24, le 4 (retiredBlocks s)), (28, le 4 s.sp.spares.length), (32, le 4 s.nand.dies.length)]
  ⟨512 + 4 * dies * blocksPerDie, fun i =>
    if i < 512 then pieceByte head i
    else
      let k := (i - 512) / 4
      let d := k / blocksPerDie
      let b := k % blocksPerDie
      let st := blockState d b s
      ((le 4 ((if st = 6 then 0 else (getBlk d b s).erases) + 2 ^ 24 * st))[(i - 512) % 4]?).getD 0⟩

/-- C1h: Deferred Fault (Table 4.10). -/
def logDeferred (s : State) : Page :=
  Page.of (64 + 64 * 256) ((0, le 4 s.sh.dfTotal ++ le 4 s.defFaults.length) :: s.defFaults.zipIdx.map (fun x =>
    let d := x.1
    let flags := (if d.repA then 1 else 0) + (if d.repB then 2 else 0) + (if d.repaired then 4 else 0)
    (64 + 64 * x.2, le 4 d.nsid ++ le 2 d.cause ++ le 2 flags ++ le 8 d.dtime ++ le 8 d.csnFirst ++ le 8 d.csnLast ++ le 8 d.slba ++
      le 4 (Nat.min d.nlb (2 ^ 32 - 1)))))

/-- C2h: Latency Contract (Tables 5.7 to 5.9). -/
def logLatency (s : State) : Page :=
  let sat := fun (n v : Nat) => le n (Nat.min v (2 ^ (8 * n) - 1))
  let flags := (if writeThrough s then 1 else 0) + (if s.sh.ps = .ps1 then 2 else 0) + (if s.sh.ps = .ps2 then 4 else 0)
  Page.of 1024
    ([(0, le 2 1 ++ le 2 1 ++ le 4 4000 ++ le 2 4096), (10, [getF Reg.FS_CFG.SEGMAX s, 4, 17, 7, 35]), (15, [4]),
      (16, [inForce Reg.FS_CFG.CSLOTS s, inForce Reg.FS_CFG.WINRDS s, maxOf s.mg.levels, flags]), (24, le 8 (now s))] ++
     (List.range 8).map (fun k => (64 + 32 * k, classBytes k s)) ++
     s.fs.classes.zipIdx.map (fun x => (320 + 64 * x.2,
       sat 8 x.1.admitted ++ sat 8 x.1.refused ++ sat 8 x.1.never ++ sat 8 x.1.extended ++ sat 4 x.1.maxRead ++ sat 4 x.1.maxWrite ++
       sat 4 x.1.maxFua ++ sat 4 x.1.late)) ++
     s.fs.exts.zipIdx.map (fun x => (832 + 16 * x.2, sat 8 x.1.1 ++ sat 8 x.1.2)))

/-- TWIN of log C3h. -/
def twinCode (s : State) : Nat := match s.tw.st with
  | .none => 0
  | .lost => 2
  | .fenced => 3
  | _ => 1

/-- MIG of log C3h. -/
def migCode (s : State) : Nat := if s.tw.mig.cutDone ≠ [] then 3 else s.tw.mig.role

/-- C3h: Fabric Status (R105). -/
def logFabric (s : State) : Page :=
  Page.of 448 ((0, le 2 (s.gf.node.getD 0xFFFF) ++ le 2 s.gf.coordNode ++ le 16 s.fuses.uid ++ [twinCode s, migCode s]) ::
    s.gf.links.zipIdx.map (fun x =>
      let l := x.1
      (64 + 32 * x.2, [if (getF Reg.GF_CFG.LINKEN s).testBit x.2 then l.st else 4, 0] ++ le 2 l.peerNode ++ [l.peerLink, 0, 0, 0] ++ le 8 l.sent ++
        le 4 l.crcErr ++ le 4 l.retries ++ le 4 l.reroutes)))

/-- C4h: Lost Data (R106). -/
def logLost (s : State) : Page :=
  Page.of (32 + 32 * 65536) ((0, le 4 s.lost.length ++ le 4 s.sh.lostTotal ++ [if s.sh.lostOver then 1 else 0]) ::
    s.lost.zipIdx.map (fun x =>
      let e := x.1
      (32 + 32 * x.2, le 4 e.nsid ++ le 2 e.cause ++ le 2 (if e.repaired then 1 else 0) ++ le 8 e.slba ++ le 4 e.nlb ++ le 4 0 ++ le 8 e.csn)))

/-- The log page of an identifier. -/
def logPage (p : Port) (lid : Nat) (s : State) : Option Page :=
  match lid with
  | 0x00 => some logSupported
  | 0x01 => some (logErrors (s.con p))
  | 0x02 => some (logSmart s)
  | 0x03 => some (logFirmware s)
  | 0x04 => some (logChanged (s.con p))
  | 0x05 => some logEffects
  | 0x06 => some (logSelfTest (s.con p))
  | 0x0C => some (logAna p s)
  | 0x81 => some (logSanitize s)
  | 0xC0 => some (logWear s)
  | 0xC1 => some (logDeferred s)
  | 0xC2 => some (logLatency s)
  | 0xC3 => some (logFabric s)
  | 0xC4 => some (logLost s)
  | _ => none

end Sys2Proof.Machine
end

