-- ==== Sys2Proof/Machine/Admin.lean ====
section
/-! DEFINITION. Admin commands on queues, logs, Identify, Abort, asynchronous event requests, directives, shadow doorbells and self-test (R83, R84,
R87, R94, R96, R102, R113, R120). -/
namespace Sys2Proof.Machine

/-! Data transfers of admin commands. -/

/-- The descriptors are checked once the command's fields are found good; then the body runs. -/
def withData (h : AdminHdr) (len : Nat) (body : State → State) (s : State) : State :=
  match (if len = 0 then none else descCheck h.port h.data len none s) with
  | some (sct, sc) => adminFail h sct sc s
  | none => body s

/-- Return a page's bytes and complete. -/
def adminPage (h : AdminHdr) (pg : Page) (off len : Nat) (s : State) : State :=
  withData h len (fun t => adminOk h (adminData h (pg.slice off len) t)) s

/-! I/O queues. -/

/-- Some I/O queue exists on a controller. -/
def hasIoQueue (c : Ctl) : Bool := c.sqs.any (fun q => q.qid != 0) || c.cqs.any (fun q => q.qid != 0)

/-- Delete I/O SQ: fetching stops at once. -/
def deleteIoSqBody (h : AdminHdr) (qid : Nat) (s : State) : State :=
  if qid = 0 ∨ ¬ (s.con h.port).sqs.any (fun q => q.qid == qid && q.deleting.isNone) then adminFail h 1 0x01 s
  else finishDeletes h.port (updSq h.port qid (fun q => { q with deleting := some h.cid }) s)

/-- DELETE_IO_SQ (R84). -/
def execDeleteIoSq (h : AdminHdr) (qid : Nat) (s : State) : Host.Outcome State Fault Refusal :=
  .next (adminCmd h modesBasic 0 (deleteIoSqBody h qid) s)

/-- What the checks of Create I/O SQ find (R83). `size` counts from 0. -/
def createSqBad (h : AdminHdr) (qid size cqid base : Nat) (contiguous : Bool) (s : State) : Option (Nat × Nat) :=
  let c := s.con h.port
  if qid = 0 ∨ c.nsq < qid ∨ c.sqs.any (fun q => q.qid == qid) then some (1, 0x01)
  else if size = 0 ∨ 65535 < size then some (1, 0x02)
  else if cqid = 0 ∨ ¬ c.cqs.any (fun q => q.qid == cqid) then some (1, 0x00)
  else if ¬ contiguous then some (0, 0x02)
  else if base % hostPage h.port s ≠ 0 then some (0, 0x13)
  else if inOwnBar h.port base s then some (0, 0x04)
  else none

/-- Create I/O SQ: a new queue is bound to LC7 (R100). -/
def createIoSqBody (h : AdminHdr) (qid size cqid qprio base : Nat) (contiguous : Bool) (s : State) : State :=
  match createSqBad h qid size cqid base contiguous s with
  | some (sct, sc) => adminFail h sct sc s
  | none =>
    adminOk h (eventIdxNew h.port (s.updCon h.port (fun c =>
      let q : Sq := ⟨qid, size + 1, cqid, qprio % 4, base, 0, 0, 7, [], none, c.shadow.isSome, [], none⟩
      { c with sqs := c.sqs.filter (fun x => decide (x.qid < qid)) ++ [q] ++ c.sqs.filter (fun x => decide (qid < x.qid)) })))

/-- CREATE_IO_SQ (R83). -/
def execCreateIoSq (h : AdminHdr) (qid size cqid qprio : Nat) (base : Nat) (contiguous : Bool) (s : State) :
    Host.Outcome State Fault Refusal :=
  .next (adminCmd h modesBasic 0 (createIoSqBody h qid size cqid qprio base contiguous) s)

/-- Delete I/O CQ: refused while a submission queue completes to it. -/
def deleteIoCqBody (h : AdminHdr) (qid : Nat) (s : State) : State :=
  let c := s.con h.port
  if qid = 0 ∨ ¬ c.cqs.any (fun q => q.qid == qid) then adminFail h 1 0x01 s
  else if c.sqs.any (fun q => q.cq == qid) then adminFail h 1 0x0C s
  else adminOk h (s.updCon h.port (fun c => { c with cqs := c.cqs.filter (fun x => x.qid != qid) }))

/-- DELETE_IO_CQ (R84). -/
def execDeleteIoCq (h : AdminHdr) (qid : Nat) (s : State) : Host.Outcome State Fault Refusal :=
  .next (adminCmd h modesBasic 0 (deleteIoCqBody h qid) s)

/-- What the checks of Create I/O CQ find (R83). -/
def createCqBad (h : AdminHdr) (qid size vector base : Nat) (contiguous : Bool) (s : State) : Option (Nat × Nat) :=
  let c := s.con h.port
  if qid = 0 ∨ c.ncq < qid ∨ c.cqs.any (fun q => q.qid == qid) then some (1, 0x01)
  else if size = 0 ∨ 65535 < size then some (1, 0x02)
  else if 2048 ≤ vector then some (1, 0x08)
  else if ¬ contiguous ∨ inCmb h.port base s then some (0, 0x02)
  else if base % hostPage h.port s ≠ 0 then some (0, 0x13)
  else if inOwnBar h.port base s then some (0, 0x04)
  else none

/-- Create I/O CQ. -/
def createIoCqBody (h : AdminHdr) (qid size vector : Nat) (ien : Bool) (base : Nat) (contiguous : Bool) (s : State) : State :=
  match createCqBad h qid size vector base contiguous s with
  | some (sct, sc) => adminFail h sct sc s
  | none =>
    adminOk h (eventIdxNew h.port
      (s.updCon h.port (fun c => { c with cqs := c.cqs ++ [⟨qid, size + 1, vector, ien, base, 0, 0, true, [], c.shadow.isSome⟩] })))

/-- CREATE_IO_CQ (R83). -/
def execCreateIoCq (h : AdminHdr) (qid size vector : Nat) (ien : Bool) (base : Nat) (contiguous : Bool) (s : State) :
    Host.Outcome State Fault Refusal :=
  .next (adminCmd h modesBasic 0 (createIoCqBody h qid size vector ien base contiguous) s)

/-! Log pages and Identify. -/

/-- A read with RAE = 0 clears the events of its page, those that still wait for a request among them, and log 04h's contents (R120, Table 4.8). -/
def logRead (p : Port) (lid : Nat) (s : State) : State :=
  s.updCon p (fun c =>
    { c with masked := c.masked.filter (fun e => e.lid != lid), events := c.events.filter (fun e => e.lid != lid), changedNs := if lid = 0x04 then [] else c.changedNs })

/-- Get Log Page. -/
def getLogPageBody (h : AdminHdr) (lid offset numDwords : Nat) (rae : Bool) (s : State) : State :=
  match logPage h.port lid s with
  | none => adminFail h 1 0x09 s
  | some pg =>
    if offset % 4 ≠ 0 ∨ pg.len ≤ offset then adminFail h 0 0x02 s
    else if lid = 0x02 ∧ h.nsid ≠ 0 ∧ h.nsid ≠ 0xFFFFFFFF then adminFail h 0 0x02 s
    else withData h (4 * numDwords) (fun t =>
      let t := adminData h (pg.slice offset (4 * numDwords)) t
      let t := if lid = 0x02 ∨ lid = 0x0C then { t with freeCtr := t.freeCtr + 8 } else t
      adminOk h (if rae then t else logRead h.port lid t)) s

/-- GET_LOG_PAGE (R102, R120). -/
def execGetLogPage (h : AdminHdr) (lid : Nat) (offset numDwords : Nat) (rae : Bool) (s : State) : Host.Outcome State Fault Refusal :=
  .next (adminCmd h modesBasic 0 (getLogPageBody h lid offset numDwords rae) s)

/-- The extended LBA formats of the NVM command set: the 64-bit guard on formats 2 and 4. -/
def identNvm : Page := Page.of 4096 [(8, [0]), (12, le 4 0 ++ le 4 0 ++ le 4 0x100 ++ le 4 0 ++ le 4 0x100)]

/-- The structure of a CNS value. -/
def identPage (h : AdminHdr) (cns cntid : Nat) (s : State) : Page ⊕ (Nat × Nat) :=
  let ns := findNs h.nsid s
  let live := ns.filter (fun n => attachedTo h.port n s)
  let blank := Page.of 4096 []
  let badId := decide (h.nsid = 0 ∨ 1024 < h.nsid)
  match cns with
  | 0x00 => if h.nsid = 0xFFFFFFFF then .inl identCommon else if badId then .inr (0, 0x0B) else .inl ((live.map identNs).getD blank)
  | 0x01 => .inl (identController h.port s)
  | 0x02 => if 0xFFFFFFFE ≤ h.nsid then .inr (0, 0x0B) else .inl (nsList (fun n => attachedTo h.port n s) h.nsid s)
  | 0x03 => match live with
    | some n => .inl (identDescs n)
    | none => .inr (0, 0x0B)
  | 0x05 => if badId then .inr (0, 0x0B) else .inl (if live.isSome then identNvm else blank)
  | 0x06 => .inl blank
  | 0x10 => if 0xFFFFFFFE ≤ h.nsid then .inr (0, 0x0B) else .inl (nsList (fun _ => true) h.nsid s)
  | 0x11 => if badId then .inr (0, 0x0B) else .inl ((ns.map identNs).getD blank)
  | 0x12 => match ns with
    | some n => .inl (ctrlList n.attached cntid)
    | none => .inr (0, 0x0B)
  | 0x13 => .inl (ctrlList (ownCntlids s) cntid)
  | _ => .inr (0, 0x02)

/-- Identify. -/
def identifyBody (h : AdminHdr) (cns cntid : Nat) (s : State) : State :=
  match identPage h cns cntid s with
  | .inl pg => adminPage h pg 0 4096 s
  | .inr (sct, sc) => adminFail h sct sc s

/-- IDENTIFY (R96, R97). -/
def execIdentify (h : AdminHdr) (cns cntid : Nat) (s : State) : Host.Outcome State Fault Refusal :=
  .next (adminCmd h modesBasic 0 (identifyBody h cns cntid) s)

/-! Abort and asynchronous events. -/

/-- Aborts outstanding on a controller: those whose completion a full admin queue holds. -/
def abortsOut (p : Port) (s : State) : List (BitVec 16) :=
  let held := (((s.con p).cqs.find? (fun q => q.qid == 0)).map (fun q => q.held.map (·.e.cid))).getD []
  (s.con p).aborts.filter held.contains

/-- Abort completes at once with DW0 bit 0 = 1, and the named command goes on; a fifth outstanding Abort fails. -/
def abortBody (h : AdminHdr) (s : State) : State :=
  let l := abortsOut h.port s
  if 4 ≤ l.length then adminFail h 1 0x03 s
  else adminDone h 0 0 1 0 (s.updCon h.port (fun c => { c with aborts := l ++ [h.cid] }))

/-- ABORT (R113). -/
def execAbort (h : AdminHdr) (_sqid : Nat) (_cid : BitVec 16) (s : State) : Host.Outcome State Fault Refusal :=
  .next (adminCmd h modesBasic 0 (abortBody h) s)

/-- Asynchronous Event Request: at most 16 outstanding; the oldest waiting event goes out on it. -/
def asynchronousEventRequestBody (h : AdminHdr) (s : State) : State :=
  let c := s.con h.port
  match c.events with
  | e :: rest => adminDone h 0 0 e.dw0 0 (s.updCon h.port (fun c => { c with events := rest }))
  | [] => if 16 ≤ c.aers.length then adminFail h 1 0x05 s else s.updCon h.port (fun c => { c with aers := c.aers ++ [h.cid] })

/-- ASYNCHRONOUS_EVENT_REQUEST (R120). -/
def execAsynchronousEventRequest (h : AdminHdr) (s : State) : Host.Outcome State Fault Refusal :=
  .next (adminCmd h modesBasic 0 (asynchronousEventRequestBody h) s)

/-! Self-test. -/

/-- Device Self-test: one at a time on a controller; code 0xF ends it with result 1. -/
def deviceSelfTestBody (h : AdminHdr) (code : Nat) (s : State) : State :=
  let c := s.con h.port
  match code with
  | 0xF => match c.selfTest with
    | some k => adminOk h (s.updCon h.port (fun c => { c with selfTest := none, selfTests := ((k, 1) :: c.selfTests).take 20 }))
    | none => adminOk h s
  | 1 => if c.selfTest.isSome then adminFail h 1 0x1D s else adminOk h (s.updCon h.port (fun c => { c with selfTest := some 1 }))
  | 2 => if c.selfTest.isSome then adminFail h 1 0x1D s else adminOk h (s.updCon h.port (fun c => { c with selfTest := some 2 }))
  | _ => adminFail h 0 0x02 s

/-- DEVICE_SELF_TEST (Table 4.3). -/
def execDeviceSelfTest (h : AdminHdr) (code : Nat) (s : State) : Host.Outcome State Fault Refusal :=
  .next (adminCmd h modesAll 0 (deviceSelfTestBody h code) s)

/-- A running self-test ends with a result, on each controller that runs one. -/
def selfTestDone (p : Port) (result : Nat) (s : State) : State :=
  match (s.con p).selfTest with
  | some k => s.updCon p (fun c => { c with selfTest := none, selfTests := ((k, result % 16) :: c.selfTests).take 20 })
  | none => s

/-- DEVICE_SELF_TEST_COMPLETE (Table 4.3). -/
def execDeviceSelfTestComplete (result : Nat) (s : State) : Host.Outcome State Fault Refusal :=
  .next (selfTestDone .b result (selfTestDone .a result s))

/-! Directives. -/

/-- Stream resources given to namespaces of a controller: 16 in all. -/
def streamsTaken (c : Ctl) : Nat := sumOf (c.streamRes.map (·.2))

/-- The NSID names a namespace attached to this controller and not being deleted or detached (R97, R121). -/
def nsHere (h : AdminHdr) (s : State) : Bool :=
  (findNs h.nsid s).any (fun n => n.attached.contains (cntlid h.port s) && !n.leaving.contains (cntlid h.port s) && !n.cutAway)

/-- Directive Send: Identify enables and disables Streams; Streams releases one identifier or every resource of the namespace. -/
def directiveSendBody (h : AdminHdr) (dtype doper dspec : Nat) (enable : Bool) (tdtype : Nat) (s : State) : State :=
  if ¬ nsHere h s then adminFail h 0 0x0B s
  else
    let on := (s.con h.port).streamsOn.contains h.nsid
    let close := fun (c : Ctl) =>
      { c with streams := c.streams.filter (fun x => x.1 != h.nsid), streamRes := c.streamRes.filter (fun x => x.1 != h.nsid) }
    match dtype, doper with
    | 0, 1 =>
      if tdtype ≠ 1 then adminFail h 0 0x02 s
      else if enable then adminOk h (s.updCon h.port (fun c => { c with streamsOn := addOnce c.streamsOn h.nsid }))
      else adminOk h (s.updCon h.port (fun c => { close c with streamsOn := c.streamsOn.filter (fun x => x != h.nsid) }))
    | 1, 1 =>
      if ¬ on then adminFail h 0 0x02 s
      else adminOk h (s.updCon h.port (fun c => { c with streams := c.streams.filter (fun x => x != (h.nsid, dspec)) }))
    | 1, 2 => if ¬ on then adminFail h 0 0x02 s else adminOk h (s.updCon h.port close)
    | _, _ => adminFail h 0 0x02 s

/-- DIRECTIVE_SEND (Table 4.3). -/
def execDirectiveSend (h : AdminHdr) (dtype doper dspec : Nat) (enable : Bool) (tdtype : Nat) (s : State) :
    Host.Outcome State Fault Refusal :=
  .next (adminCmd h modesAll 0 (directiveSendBody h dtype doper dspec enable tdtype) s)

/-- Directive Receive: Identify's parameters; Streams' parameters, status, and allocation of resources, 16 in all. -/
def directiveReceiveBody (h : AdminHdr) (dtype doper _dspec : Nat) (nsr : Nat) (s : State) : State :=
  if ¬ nsHere h s then adminFail h 0 0x0B s
  else
    let c := s.con h.port
    let on := c.streamsOn.contains h.nsid
    let mine := c.streams.filter (fun x => x.1 == h.nsid)
    match dtype, doper with
    | 0, 1 => adminPage h (Page.of 4096 [(0, [3]), (32, [if on then 3 else 1])]) 0 4096 s
    | 1, 1 =>
      adminPage h (Page.of 32 [(0, le 2 16 ++ le 2 (16 - streamsTaken c) ++ le 2 c.streams.length),
        (22, le 2 (sumOf ((c.streamRes.filter (fun x => x.1 == h.nsid)).map (·.2))) ++ le 2 mine.length)]) 0 32 s
    | 1, 2 => if ¬ on then adminFail h 0 0x02 s else adminPage h (Page.of 34 [(0, le 2 mine.length ++ mine.flatMap (fun x => le 2 x.2))]) 0 34 s
    | 1, 3 =>
      if ¬ on then adminFail h 0 0x02 s
      else
        let n := Nat.min nsr (16 - streamsTaken c)
        adminDone h 0 0 n 0 (s.updCon h.port (fun c => { c with streamRes := c.streamRes ++ [(h.nsid, n)] }))
    | _, _ => adminFail h 0 0x02 s

/-- DIRECTIVE_RECEIVE (Table 4.3). -/
def execDirectiveReceive (h : AdminHdr) (dtype doper dspec : Nat) (nsr : Nat) (s : State) : Host.Outcome State Fault Refusal :=
  .next (adminCmd h modesAll 0 (directiveReceiveBody h dtype doper dspec nsr) s)

/-! Shadow doorbells. -/

/-- Doorbell Buffer Config: only without I/O queues; the buffers start on host-page boundaries. -/
def doorbellBufferConfigBody (h : AdminHdr) (prp1 prp2 : Nat) (s : State) : State :=
  if hasIoQueue (s.con h.port) then adminFail h 0 0x0C s
  else if prp1 % hostPage h.port s ≠ 0 ∨ prp2 % hostPage h.port s ≠ 0 then adminFail h 0 0x13 s
  else if inOwnBar h.port prp1 s ∨ inOwnBar h.port prp2 s then adminFail h 0 0x04 s
  else adminOk h (s.updCon h.port (fun c => { c with shadow := some (prp1, prp2), polling := true, eventIdx := [] }))

/-- DOORBELL_BUFFER_CONFIG (R87). -/
def execDoorbellBufferConfig (h : AdminHdr) (prp1 prp2 : Nat) (s : State) : Host.Outcome State Fault Refusal :=
  .next (adminCmd h modesBasic 0 (doorbellBufferConfigBody h prp1 prp2) s)

end Sys2Proof.Machine
end

