-- ==== Sys2Proof/Machine/Features.lean ====
section
/-! DEFINITION. Set Features and Get Features (R92, R98 to R101, R110, R116 to R118). -/
namespace Sys2Proof.Machine

/-- A Set: saving is not supported (R98). -/
def setFeature (h : AdminHdr) (sv : Bool) (body : State → State) (s : State) : State :=
  adminCmd h modesFeature 0 (fun t => if sv then adminFail h 1 0x0D t else body t) s

/-- SET_FEATURES_ARBITRATION (R92). -/
def execSetFeaturesArbitration (h : AdminHdr) (sv : Bool) (dw11 : Word) (s : State) : Host.Outcome State Fault Refusal :=
  .next (setFeature h sv (fun t => adminOk h (t.updCon h.port (fun c => { c with arb := dw11.toNat }))) s)

/-- The power state of a number. -/
def psOf (n : Nat) : Option PowerState := match n with
  | 0 => some .ps0
  | 1 => some .ps1
  | 2 => some .ps2
  | 3 => some .ps3
  | 4 => some .ps4
  | _ => none

/-- The number of a power state. -/
def psNum (p : PowerState) : Nat := match p with
  | .ps0 => 0
  | .ps1 => 1
  | .ps2 => 2
  | .ps3 => 3
  | .ps4 => 4

/-- Power Management: PS0 to PS2 act at once; PS3 and PS4 are accepted in SERVICE and SEALED, and entry begins after the completion (R116,
R118). -/
def setPowerBody (h : AdminHdr) (ps wh : Nat) (s : State) : State :=
  match psOf ps with
  | none => adminFail h 0 0x02 s
  | some p =>
    if wh ≠ 0 then adminFail h 0 0x02 s
    else if ps ≤ 2 then adminOk h { s with sh := { s.sh with ps := p, psOp := p } }
    else if s.gen.mode = .service ∨ s.gen.mode = .sealed then
      let s := adminOk h s
      { s with sh := { s.sh with ps := p }, gen := { s.gen with psEntry := some p } }
    else adminFail h 0 0x0C s

/-- SET_FEATURES_POWER_MANAGEMENT (R116, R118). -/
def execSetFeaturesPowerManagement (h : AdminHdr) (sv : Bool) (ps wh : Nat) (s : State) : Host.Outcome State Fault Refusal :=
  .next (setFeature h sv (setPowerBody h ps wh) s)

/-- The entry that runs ends: row 8 is taken from SERVICE or SEALED; in another mode the entry is abandoned (log entry 58). Before PS4 every
acknowledged write is durable in the vat (R37). `done` false: the entry has not finished. -/
def powerStateEntryEff (done : Bool) (s : State) : State :=
  match s.gen.psEntry with
  | none => s
  | some p =>
    if ¬ done then s
    else if s.gen.mode ≠ .service ∧ s.gen.mode ≠ .sealed then
      { s with gen := { s.gen with psEntry := none }, sh := { s.sh with ps := s.sh.psOp } }
    else
      let s := if p = .ps4 then journalNow (flushStaged s) else s
      -- one snapshot on entry (R218)
      let s := snapDurableNow (snapNow s) s
      -- polling stops on entry (R91)
      ps4Links (stopPolling .b (stopPolling .a (enterMode 8 .lowpower { s with gen := { s.gen with psEntry := none, lowFrom := s.gen.mode } })))

/-- POWER_STATE_ENTRY (R37, R116, row 8). -/
def execPowerStateEntry (done : Bool) (s : State) : Host.Outcome State Fault Refusal := .next (powerStateEntryEff done s)

/-- Temperature Threshold: the Composite Temperature only. -/
def setTempBody (h : AdminHdr) (tmpsel thsel kelvin : Nat) (s : State) : State :=
  if tmpsel ≠ 0 ∨ 1 < thsel then adminFail h 0 0x02 s
  else if thsel = 0 then adminOk h { s with sh := { s.sh with tOver := kelvin % 65536 } }
  else adminOk h { s with sh := { s.sh with tUnder := kelvin % 65536 } }

/-- SET_FEATURES_TEMPERATURE_THRESHOLD (Table 4.6). -/
def execSetFeaturesTemperatureThreshold (h : AdminHdr) (sv : Bool) (tmpsel thsel kelvin : Nat) (s : State) :
    Host.Outcome State Fault Refusal :=
  .next (setFeature h sv (setTempBody h tmpsel thsel kelvin) s)

/-- SET_FEATURES_VOLATILE_WRITE_CACHE (R110). -/
def execSetFeaturesVolatileWriteCache (h : AdminHdr) (sv : Bool) (wce : Bool) (s : State) : Host.Outcome State Fault Refusal :=
  .next (setFeature h sv (fun t => adminOk h { t with sh := { t.sh with wce := wce } }) s)

/-- Number of Queues: once after each Controller reset, and only while no I/O queue exists. Counts are 0's based, at most 2,048 of each. -/
def setNumQueuesBody (h : AdminHdr) (nsqr ncqr : Nat) (s : State) : State :=
  let c := s.con h.port
  if nsqr = 0xFFFF ∨ ncqr = 0xFFFF then adminFail h 0 0x02 s
  else if c.nqSet ∨ hasIoQueue c then adminFail h 0 0x0C s
  else
    let a := Nat.min nsqr 2047
    let b := Nat.min ncqr 2047
    adminDone h 0 0 (a + 65536 * b) 0 (s.updCon h.port (fun c => { c with nqSet := true, nsq := a + 1, ncq := b + 1 }))

/-- SET_FEATURES_NUMBER_OF_QUEUES (R83). -/
def execSetFeaturesNumberOfQueues (h : AdminHdr) (sv : Bool) (nsqr ncqr : Nat) (s : State) : Host.Outcome State Fault Refusal :=
  .next (setFeature h sv (setNumQueuesBody h nsqr ncqr) s)

/-- SET_FEATURES_INTERRUPT_COALESCING (Table 4.6). -/
def execSetFeaturesInterruptCoalescing (h : AdminHdr) (sv : Bool) (thr time : Nat) (s : State) : Host.Outcome State Fault Refusal :=
  .next (setFeature h sv (fun t => adminOk h (t.updCon h.port (fun c => { c with icThr := thr % 256, icTime := time % 256 }))) s)

/-- Interrupt Vector Configuration: coalescing disabled, or enabled, for one vector. -/
def setVectorBody (h : AdminHdr) (vector : Nat) (disable : Bool) (s : State) : State :=
  if 2048 ≤ vector then adminFail h 0 0x02 s
  else adminOk h (s.updCon h.port (fun c =>
    { c with icOff := if disable then addOnce c.icOff vector else c.icOff.filter (fun v => v != vector) }))

/-- SET_FEATURES_INTERRUPT_VECTOR_CONFIG (Table 4.6). -/
def execSetFeaturesInterruptVectorConfig (h : AdminHdr) (sv : Bool) (vector : Nat) (disable : Bool) (s : State) :
    Host.Outcome State Fault Refusal :=
  .next (setFeature h sv (setVectorBody h vector disable) s)

/-- SET_FEATURES_ASYNC_EVENT_CONFIG (Table 4.6). -/
def execSetFeaturesAsyncEventConfig (h : AdminHdr) (sv : Bool) (dw11 : Word) (s : State) : Host.Outcome State Fault Refusal :=
  .next (setFeature h sv (fun t => adminOk h (t.updCon h.port (fun c => { c with aec := dw11.toNat }))) s)

/-! The Latency Class Table (R99). -/

/-- One entry as the host supplies it: read bound, largest read in KiB, write bounds standalone and twin, FUA bound, flags. -/
def classOf (e : List Nat) : LatClass :=
  ⟨(e[0]?).getD 0, (e[1]?).getD 0, (e[2]?).getD 0, (e[3]?).getD 0, (e[4]?).getD 0⟩

/-- The conditions a replaced entry must meet; the LC0 bounds are 320 µs and 900 µs. -/
def classOk (e : List Nat) : Bool :=
  let c := classOf e
  (((e[5]?).getD 0) % 2 == 1) && decide (320 ≤ c.rdBound ∧ 900 ≤ c.fuaBound ∧ 40 ≤ c.wrBound ∧ 60 ≤ c.wrBoundT) &&
  decide (c.rdSize % 4 = 0 ∧ 4 ≤ c.rdSize ∧ c.rdSize ≤ 2048)

/-- The table after the masked entries are replaced. -/
def replaceClasses (mask : Nat) (entries : List (List Nat)) (lct : List LatClass) : List LatClass :=
  lct.zipIdx.map (fun x => if mask.testBit (x.2 + 3) then classOf ((entries[x.2 + 3]?).getD []) else x.1)

/-- Set of the table: all masked entries must be valid; in a twin the table is mirrored. -/
def setClassesBody (h : AdminHdr) (mask : BitVec 8) (reservedMask : Bool) (entries : List (List Nat)) (s : State) : State :=
  let m := mask.toNat
  if reservedMask ∨ m % 8 ≠ 0 ∨ m.testBit 7 ∨
      [3, 4, 5, 6].any (fun k => m.testBit k && !classOk ((entries[k]?).getD [])) then adminFail h 0 0x02 s
  else withData h 256 (fun t =>
    let t := { t with sh := { t.sh with lct := replaceClasses m entries t.sh.lct } }
    mirror 4 ([t.mx.csn, m] ++ classEntries m t) (adminOk h t)) s

/-- SET_FEATURES_LATENCY_CLASS_TABLE (R99). -/
def execSetFeaturesLatencyClassTable (h : AdminHdr) (sv : Bool) (mask : BitVec 8) (reservedMask : Bool) (entries : List (List Nat))
    (s : State) : Host.Outcome State Fault Refusal :=
  .next (setFeature h sv (setClassesBody h mask reservedMask entries) s)

/-- Queue Latency Binding: an existing I/O submission queue. -/
def setBindingBody (h : AdminHdr) (sqid cls : Nat) (s : State) : State :=
  if sqid = 0 ∨ ¬ (s.con h.port).sqs.any (fun q => q.qid == sqid) then adminFail h 0 0x02 s
  else adminOk h (updSq h.port sqid (fun q => { q with cls := cls % 8 }) s)

/-- SET_FEATURES_QUEUE_LATENCY_BINDING (R100). -/
def execSetFeaturesQueueLatencyBinding (h : AdminHdr) (sv : Bool) (sqid cls : Nat) (s : State) : Host.Outcome State Fault Refusal :=
  .next (setFeature h sv (setBindingBody h sqid cls) s)

/-- SET_FEATURES_WRITE_CACHE_PROTECTION: read-only (R101). -/
def execSetFeaturesWriteCacheProtection (h : AdminHdr) (sv : Bool) (s : State) : Host.Outcome State Fault Refusal :=
  .next (setFeature h sv (adminFail h 1 0x0E) s)

/-! Get Features. -/

/-- DW0 of Feature C2h (R101). -/
def cacheProtection (s : State) : Nat :=
  (if isOn Reg.GEN_HOLDUP.VERIFIED s then 1 else 0) + (if writeThrough s then 2 else 0) + (if s.sh.wce then 4 else 0) +
  65536 * Nat.min (getF Reg.GEN_HOLDUP.ENERGY s) 0xFFFF

/-- The current value of a feature that returns one dword: DW0. -/
def featureNow (h : AdminHdr) (fid : Nat) (dw11 : Word) (s : State) : Option Nat :=
  let c := s.con h.port
  let v := dw11.toNat
  match fid with
  | 0x01 => some c.arb
  | 0x02 => some (psNum s.sh.ps)
  | 0x04 => if v / 65536 % 16 ≠ 0 ∨ 1 < v / 2 ^ 20 % 4 then none else some (if v / 2 ^ 20 % 4 = 0 then s.sh.tOver else s.sh.tUnder)
  | 0x06 => some (if s.sh.wce then 1 else 0)
  | 0x07 => some (c.nsq - 1 + 65536 * (c.ncq - 1))
  | 0x08 => some (c.icThr + 256 * c.icTime)
  | 0x09 => if 2048 ≤ v % 65536 then none else some (v % 65536 + (if c.icOff.contains (v % 65536) then 65536 else 0))
  | 0x0B => some c.aec
  | 0xC1 => ((c.sqs.find? (fun q => q.qid == v % 65536 && q.qid != 0)).map (·.cls))
  | 0xC2 => some (cacheProtection s)
  | _ => none

/-- The default value: what a reset controller and reset shared features return. -/
def featureDefault (h : AdminHdr) (fid : Nat) (dw11 : Word) (s : State) : Option Nat :=
  match fid with
  | 0xC1 => (featureNow h fid dw11 s).map (fun _ => 7)
  | 0xC2 => some (cacheProtection s)
  | _ => featureNow h fid dw11 { s with ctl := ⟨.reset, .reset⟩, sh := .reset }

/-- Get Features: current and default values; Feature C0h returns the table through the data pointer. -/
def getFeaturesBody (h : AdminHdr) (fid sel : Nat) (dw11 : Word) (s : State) : State :=
  if 1 < sel then adminFail h 0 0x02 s
  else if fid = 0xC0 then adminPage h (classTable (if sel = 1 then { s with sh := .reset } else s)) 0 256 s
  else match (if sel = 1 then featureDefault h fid dw11 s else featureNow h fid dw11 s) with
    | some v => adminDone h 0 0 v 0 s
    | none => adminFail h 0 0x02 s

/-- GET_FEATURES (R98 to R101). -/
def execGetFeatures (h : AdminHdr) (fid sel : Nat) (dw11 : Word) (s : State) : Host.Outcome State Fault Refusal :=
  .next (adminCmd h modesFeature 0 (getFeaturesBody h fid sel dw11) s)

end Sys2Proof.Machine
end

