-- ==== Sys2Proof/Machine/NsOps.lean ====
section
/-! DEFINITION. Operations on namespaces, shared by the host's commands, the twin's records and a migration sink: create, delete, format, seal,
and the wait for admitted commands and for the random generator (R97, R108, R148, R155, R156, R173, R243, R244, R247, R361). -/
namespace Sys2Proof.Machine

/-! Keys (R244, R361). -/

/-- The generator serves requests. -/
def rngServes (s : State) : Bool := isOn Reg.DG_RNG.HEALTH s

/-- One request to the generator; it is reseeded after every 2^20. -/
def rngDraw (s : State) : State :=
  let n := s.dg.rngReqs + 1
  let s := tickFree { s with dg := { s.dg with rngReqs := if n ≥ 2 ^ 20 then 0 else n } }
  if n ≥ 2 ^ 20 then bump Reg.DG_RNG.RESEEDS s else s

/-- Draw and wrap a namespace's key, and mirror it (R244, Table 13.2). -/
def drawKey (nsid : Nat) (s : State) : State :=
  let t := putKey nsid 2 (updNs nsid (fun n => { n with keyGen := n.keyGen + 1 }) (rngDraw s))
  mirror 5 [s.mx.csn, nsid, sentKey s.tw.peer nsid t] t

/-! Residency (R155, R156). -/

/-- Map pages of all namespaces. -/
def allPages (s : State) : Nat := sumOf (s.ns.map Ns.mapPages)

/-- Bytes of the map region that resident namespaces take. -/
def regionUsed (s : State) : Nat := sumOf ((s.ns.filter (·.resident)).map (fun n => n.mapPages * 4096))

/-- Largest number of map pages (R156). -/
def maxPages : Nat := 1071644672

/-! Create. -/

/-- The namespace a description makes. -/
def nsOf (d : NsDesc) (nsid : Nat) (migrated : Bool) (s : State) : Ns :=
  { nsid := nsid, nsze := d.nsze, ncap := d.ncap, lbaf := d.lbaf, extLba := d.extLba, dps := d.dps, nmic := d.nmic, grainCode := d.grainCode,
    xts := d.xts, thin := d.thin, nguid := d.nguid, eui := d.eui, attached := [], sealInfo := none, opcsn := s.mx.csn, migrated := migrated,
    ingesting := migrated, owner := true, moving := false, resident := false, lastCsn := 0, leaving := [], formatting := false, keyGen := 0,
    cekey := false, cutAway := false }

/-- What a create must satisfy (R97, R148, Table 4.5, Table 9.2): (SCT, SC) of the first failure. -/
def createBad (d : NsDesc) (s : State) : Option (Nat × Nat) :=
  let n := nsOf d 0 false s
  if ¬ d.reservedZero ∨ 2 < d.grainCode then some (0, 0x02)
  else if 4 < d.lbaf then some (0, 0x0B)
  else if grainBytes d.grainCode < lbaBytes d.lbaf ∨ d.nsze = 0 ∨ d.nsze < d.ncap then some (0, 0x02)
  else if 3 < d.dps % 8 ∨ (0 < d.dps % 8 ∧ mdBytes d.lbaf = 0) then some (0, 0x02)
  else if 2 ^ 40 ≤ n.grains then some (0, 0x02)
  else if ¬ d.thin ∧ freeCapacity s < d.ncap * lbaBytes d.lbaf then some (1, 0x15)
  else if maxPages < allPages s + n.mapPages then some (1, 0x15)
  else none

/-- The lowest NSID not in use. -/
def freeNsid (s : State) : Option Nat :=
  ((List.range 1024).map (· + 1)).find? (fun k => !s.ns.any (fun n => n.nsid == k))

/-- Create a namespace: its table entry durable first, then the NSOP record (R173); resident if its map fits (R155). -/
def createNs (n : Ns) (s : State) : State :=
  let n := { n with resident := decide (regionUsed s + n.mapPages * 4096 ≤ getF Reg.MX_CFG.REGION s * 2 ^ 30) }
  let s := saveNs n.nsid { s with ns := insNs n s.ns }
  let s := if n.xts ∧ ¬ n.migrated then drawKey n.nsid s else s
  jAppend (jNsOp 1 n.nsid n.opcsn n.grains) s

/-! Clearing a namespace's grains. -/

/-- The parameters a Format leaves (R148): the size in bytes stays. -/
def Ns.reformat (n : Ns) (lbaf : Nat) (ext : Bool) (dps csn : Nat) : Ns :=
  { n with lbaf := lbaf, extLba := ext && decide (0 < mdBytes lbaf), dps := dps, nsze := n.nsze * lbaBytes n.lbaf / lbaBytes lbaf,
           ncap := n.ncap * lbaBytes n.lbaf / lbaBytes lbaf, opcsn := csn, formatting := false, cekey := false }

/-- Format a namespace: every grain deallocated, its blocks erased for SES 1. -/
def formatNs (nsid lbaf : Nat) (ext : Bool) (dps : Nat) (erase : Bool) (s : State) : State :=
  let s := setNs nsid (fun n => n.reformat lbaf ext dps s.mx.csn) s
  let s := clearGrains nsid s
  let s := if erase then eraseNamespaces (fun x => x == nsid) s else s
  let grains := ((findNs nsid s).map Ns.grains).getD 0
  evNsChanged nsid (jAppend (jNsOp 3 nsid s.mx.csn grains) s)

/-- Seal a namespace; the seal CSN is the highest CSN committed on it (R24, R108). -/
def sealNsNow (nsid : Nat) (perm : Bool) (s : State) : State := setNs nsid (fun n => { n with sealInfo := some (n.lastCsn, perm) }) s

/-- The seal CSN of a namespace. -/
def sealCsn (nsid : Nat) (s : State) : Nat := (((findNs nsid s).bind (·.sealInfo)).map (·.1)).getD 0

/-- Attach a namespace to controllers, or detach it. -/
def attachNs (nsid : Nat) (on : Bool) (ctrls : List Nat) (s : State) : State :=
  let f := fun (n : Ns) =>
    if on then { n with attached := ctrls.foldl addOnce n.attached }
    else { n with attached := n.attached.filter (fun c => !ctrls.contains c), leaving := n.leaving.filter (fun c => !ctrls.contains c) }
  evNsChanged nsid (setNs nsid f s)

/-! What accepted commands wait for. -/

/-- Kinds of I/O command that change data. -/
def changesData : IoKind → Bool
  | .write | .writeUncor | .writeZeroes | .dsm | .copy => true
  | _ => false

/-- An I/O command touches a namespace; a Flush of NSID 0xFFFF_FFFF touches all. -/
def touches (c : IoCmd) (nsid : Nat) : Bool := c.nsid == nsid || c.nsid == 0xFFFFFFFF

/-- A command that changes data is admitted and not yet committed. -/
def uncommitted (c : IoCmd) : Bool := changesData c.kind && c.csn.isNone && c.stage != .waiting

/-- What an accepted command waits for has come. -/
def waitOver (w : NsWait) (s : State) : Bool :=
  let idle := fun (f : IoCmd → Bool) => !s.cmds.any f
  let admitted := fun (c : IoCmd) => touches c w.nsid && c.stage != .waiting
  match w.op with
  | .create d => !d.xts || rngServes s
  | .delete => idle (fun c => admitted c && ((findNs w.nsid s).map (·.attached)).any (fun a => a.contains (cntlid c.port s)))
  | .detach l => idle (fun c => admitted c && l.contains (cntlid c.port s))
  | .format _ _ _ _ crypto => idle admitted && (!crypto || rngServes s)
  | .sealNs _ => idle (fun c => c.nsid == w.nsid && uncommitted c)
  | .sealDevice _ => idle uncommitted

/-- Complete an accepted command. -/
def waitDone (w : NsWait) (sct sc dw0 dw1 : Nat) (s : State) : State :=
  match w.cid with
  | some cid => postCqe w.port 0 cid sct sc dw0 dw1 s
  | none => s

/-- The device-wide seal (Table 2.2 row 16). -/
def sealDeviceNow (perm : Bool) (s : State) : State :=
  enterModeEv 16 .sealed { s with prov := { s.prov with devSeal := some (s.mx.csn, perm) } }

/-- Do what an accepted command waited to do, and complete it. -/
def runWait (w : NsWait) (s : State) : State :=
  match w.op with
  | .create d => match createBad d s, freeNsid s with
    | some e, _ => waitDone w e.1 e.2 0 0 s
    | none, none => waitDone w 1 0x16 0 0 s
    | none, some k =>
      let v := Config.freeValue s.freeCtr
      let n := { nsOf d k false s with nguid := v % 2 ^ 128, eui := v / 2 ^ 128 % 2 ^ 64, extLba := d.extLba && decide (0 < mdBytes d.lbaf) }
      waitDone w 0 0 k 0 (mirror 3 [s.mx.csn, 1, k] (createNs n (tickFree s)))
  | .delete => waitDone w 0 0 0 0 (mirror 3 [s.mx.csn, 2, w.nsid] (deleteNs w.nsid (evNsChanged w.nsid s)))
  | .detach l => waitDone w 0 0 0 0 (mirror 3 [s.mx.csn, 5, w.nsid] (attachNs w.nsid false l s))
  | .format lbaf ext dps erase crypto =>
    let s := formatNs w.nsid lbaf ext dps erase s
    let s := if crypto then drawKey w.nsid s else s
    waitDone w 0 0 0 0 (mirror 3 [s.mx.csn, 3, w.nsid, lbaf] s)
  | .sealNs perm =>
    -- another seal that waited came first (Table 4.11)
    if (findNs w.nsid s).any (·.sealInfo.isSome) then waitDone w 0 0x0C 0 0 s else
    let s := sealNsNow w.nsid perm s
    let c := sealCsn w.nsid s
    waitDone w 0 0 (c % 2 ^ 32) (c / 2 ^ 32) (mirror 3 [s.mx.csn, 6, w.nsid] s)
  | .sealDevice perm =>
    if s.gen.mode = .service then
      let c := s.mx.csn
      waitDone w 0 0 (c % 2 ^ 32) (c / 2 ^ 32) (sealDeviceNow perm s)
    else waitDone w 0 0x0C 0 0 s

/-- A crypto erase whose commands have ended zeroizes the slot and erases the wrapped copies, and records that it did, before it asks the
generator (R247). -/
def beginCrypto (w : NsWait) (s : State) : State :=
  match w.op with
  | .format _ _ _ _ true =>
    if s.cmds.any (fun c => touches c w.nsid && c.stage != .waiting) then s
    else dropKey w.nsid (setNs w.nsid (fun n => { n with cekey := true }) s)
  | _ => s

/-- Every accepted command whose wait is over runs, oldest first. -/
def settleNs (s : State) : State :=
  s.nsWait.foldl (fun t w =>
    let t := beginCrypto w t
    if t.nsWait.contains w ∧ waitOver w t then runWait w { t with nsWait := t.nsWait.erase w } else t) s

/-- A delete of a namespace is accepted and waits (R97). -/
def beingDeleted (nsid : Nat) (s : State) : Bool := s.nsWait.any (fun w => w.nsid == nsid && w.op == .delete)

/-- A command is accepted, and runs as soon as it may. -/
def acceptNs (h : AdminHdr) (nsid : Nat) (op : NsWaitOp) (s : State) : State :=
  settleNs { s with nsWait := s.nsWait ++ [⟨h.port, some h.cid, nsid, op⟩] }

/-! Sanitize (Table 4.3, R247). -/

/-- A Sanitize in progress ends once no admitted command is left: every grain of every namespace is deallocated, and the blocks are erased or the
keys are replaced. -/
def settleSanitize (s : State) : State :=
  let crypto := s.sh.sanState == 3
  if s.sh.sanState ≠ 1 ∧ ¬ crypto then s
  else if s.cmds.any (fun c => c.stage != .waiting) ∨ (crypto ∧ ¬ rngServes s) then s
  else
    let s := s.ns.foldl (fun t n => clearGrains n.nsid (setNs n.nsid (fun x => { x with opcsn := t.mx.csn }) t)) s
    let s := if crypto then s.ns.foldl (fun t n => drawKey n.nsid (dropKey n.nsid t)) s else eraseNamespaces (fun _ => true) s
    let s := s.ns.foldl (fun t n => jAppend (jNsOp 3 n.nsid t.mx.csn n.grains) t) s
    { s with sh := { s.sh with sanState := 2 } }

end Sys2Proof.Machine
end

