-- ==== Sys2Proof/Machine/Firmware.lean ====
section
/-! DEFINITION. The firmware update path: Firmware Image Download, Firmware Commit and the rolling activation (R358, R359, R380 to R385,
Table 15.4). -/
namespace Sys2Proof.Machine

/-! Download. -/

/-- Bytes of the staging buffer: 4 MiB. -/
def imageMax : Nat := 4194304

/-- Firmware Image Download: one piece joins the staged image. -/
def firmwareImageDownloadBody (h : AdminHdr) (offset length : Nat) (s : State) : State :=
  if offset % 4 ≠ 0 ∨ length % 4 ≠ 0 ∨ imageMax < offset + length then adminFail h 0 0x02 s
  else withData h length (fun t => adminOk h { t with sh := { t.sh with fwDown := t.sh.fwDown ++ [(offset, length)] } }) s

/-- FIRMWARE_IMAGE_DOWNLOAD (R383). -/
def execFirmwareImageDownload (h : AdminHdr) (offset length : Nat) (s : State) : Host.Outcome State Fault Refusal :=
  .next (adminCmd h modesBasic 0 (firmwareImageDownloadBody h offset length) s)

/-! Slots and the selector. -/

/-- First sector of a slot (Table 15.3). -/
def slotSector (blk : Nat) : Nat := if blk = 0 then 0 else 8192

/-- The image a slot holds. -/
def slotImage (blk : Nat) (s : State) : Option SlotImage := if blk = 0 then s.ff.slot1 else s.ff.slot2

/-- Erase one sector: its words read all ones, its count rises, and a count past 90,000 shows in MG_ERR.WEAR (R380). -/
def eraseSector (sec : Nat) (s : State) : State :=
  let n := Nat.min (sGet s.ff.erases 0 sec + 1) 16777215
  let s := { s with ff := { s.ff with words := s.ff.words.filter (fun w => w.1 / 4096 != sec), blank := s.ff.blank.filter (fun b => b != sec), erases := sPut s.ff.erases 0 sec n } }
  flagIf (decide (90000 < n)) Reg.MG_ERR.WEAR s

/-- Erase, program and verify a slot (R384): it holds the image if it verifies, else it counts as empty. The staged image is consumed. -/
def writeSlot (blk : Nat) (img : SlotImage) (s : State) : State :=
  let s := (List.range 1024).foldl (fun t i => eraseSector (slotSector blk + i) t) s
  let keep := if verifyImage img s = 0 then some img else none
  { s with ff := { s.ff with slot1 := if blk = 0 then keep else s.ff.slot1, slot2 := if blk = 0 then s.ff.slot2 else keep },
           sh := { s.sh with fwDown := [] } }

/-- A selector record naming a slot (R382); after 256 records the other selector sector is erased and used. -/
def selectSlot (blk : Nat) (s : State) : State :=
  let seq := s.ff.selSeq + 1
  let s := if s.ff.selSeq ≠ 0 ∧ s.ff.selSeq % 256 = 0 then eraseSector (if s.ff.selSeq / 256 % 2 = 1 then 9216 else 1024) s else s
  { s with ff := { s.ff with selSeq := seq, selBlock := blk } }

/-- The slot a command names: slot 0 leaves the choice to the Y9, which takes the one the selector does not name. -/
def slotBlk (slot : Nat) (s : State) : Option Nat :=
  if slot = 0 then some (1 - s.ff.selBlock) else if slot ≤ 2 then some (slot - 1) else none

/-! Commit. -/

/-- A rebuild or a migration runs: activation is refused. -/
def rebuildOrMigration (s : State) : Bool :=
  s.sp.subst.any (fun e => e.state == 1 || e.state == 2) || decide (1 ≤ s.tw.mig.phase ∧ s.tw.mig.phase ≤ 5)

/-- What a write of the staged image is refused with. Without one: DESIGN CHOICE, 1h/07h (log entry 121). -/
def writeBad (blk : Nat) (s : State) : Option (Nat × Nat) :=
  if blk = s.ff.selBlock then some (1, 0x06) else if s.sh.fwDown = [] then some (1, 0x07) else none

/-- The part of a commit before activation: the slot written or verified, and selected. `none`: refused with (SCT, SC), or failed. A written slot
that does not verify ends 1h/07h under Commit Action 000b too (DESIGN CHOICE, log entry 121). -/
def commitSlot (write select : Bool) (blk : Nat) (img : SlotImage) (s : State) : Option (Nat × Nat) × State :=
  if write then
    match writeBad blk s with
    | some e => (some e, s)
    | none =>
      let s := writeSlot blk img s
      if slotImage blk s = none then (some (1, 0x07), s) else (none, if select then selectSlot blk s else s)
  else match slotImage blk s with
    | some i => if verifyImage i s = 0 then (none, if select then selectSlot blk s else s) else (some (1, 0x07), s)
    | none => (some (1, 0x07), s)

/-- Firmware Commit without activation. -/
def firmwareCommitBody (h : AdminHdr) (slot : Nat) (write select : Bool) (img : SlotImage) (s : State) : State :=
  if s.mg.activation.isSome then adminFail h 1 0x13 s
  else match slotBlk slot s with
    | none => adminFail h 1 0x06 s
    | some blk => match commitSlot write select blk img s with
      | (some (sct, sc), s) => adminFail h sct sc s
      | (none, s) => adminOk h s

/-- FIRMWARE_COMMIT_WRITE (R384). -/
def execFirmwareCommitWrite (h : AdminHdr) (slot : Nat) (img : SlotImage) (s : State) : Host.Outcome State Fault Refusal :=
  .next (adminCmd h modesBasic 0 (firmwareCommitBody h slot true false img) s)

/-- FIRMWARE_COMMIT_WRITE_SELECT (R384, R382). -/
def execFirmwareCommitWriteSelect (h : AdminHdr) (slot : Nat) (img : SlotImage) (s : State) : Host.Outcome State Fault Refusal :=
  .next (adminCmd h modesBasic 0 (firmwareCommitBody h slot true true img) s)

/-- FIRMWARE_COMMIT_SELECT (R384, R382). -/
def execFirmwareCommitSelect (h : AdminHdr) (slot : Nat) (img : SlotImage) (s : State) : Host.Outcome State Fault Refusal :=
  .next (adminCmd h modesBasic 0 (firmwareCommitBody h slot false true img) s)

/-! The rolling activation (R385). -/

/-- Complete the Firmware Commit that an activation belongs to. -/
def fwDone (sct sc : Nat) (s : State) : State :=
  let w := s.mg.fwWait
  let s := { s with mg := { s.mg with fwWait := none } }
  match w with
  | some (p, cid, mi) => if mi then emit (.mi (sc + 256 * sct) [0, 0]) s else postCqe p 0 cid sct sc 0 0 s
  | none => s

/-- Steps 3 and 4: the commit completes, Firmware Activation Starting is posted, management resets, the measurements follow the new image, and
ARB rises unless DEFERARB is set. -/
def activationDone (s : State) : State :=
  let img := s.mg.newImg
  let s := notice 9 0x01 0x03 (fwDone 0 0 s)
  let s := { s with cs := { s.cs with act := none }, mg := { s.mg with activation := none, newImg := none } }
  let s := managementReset Reg.GEN_RSTCAUSE.MGRST s
  match img with
  | none => s
  | some i =>
    let s := { s with dg := { s.dg with runImg := some i, meas := measOf i } }
    if i.deferArb then s else raiseArb s

/-- An activation ends without success: the clusters keep the sets they run, and the selector stands. -/
def activationFailed (s : State) : State :=
  fwDone 1 0x07 { s with cs := { s.cs with act := none }, mg := { s.mg with activation := none, newImg := none } }

/-- The activation begins once the selector record is durable: the policy cores take the new image in turn; a patch set then goes to the
clusters, one PATCH_HANDOFF at a time. -/
def startActivation (h : AdminHdr) (blk : Nat) (s : State) : State :=
  let img := slotImage blk s
  let s := setF Reg.MG_STAT.SLOT blk { s with mg := { s.mg with fwWait := some (h.port, h.cid, h.tunnelled), newImg := img, activation := some 2 } }
  if img.any (fun i => i.comps.any (fun c => c.typ == 3)) then { s with cs := { s.cs with act := some (0, 0) } }
  else activationDone s

/-- Action 011b. In RECOVERY a verified slot takes row 7. -/
def firmwareActivateBody (h : AdminHdr) (slot : Nat) (img : SlotImage) (s : State) : State :=
  if s.mg.activation.isSome ∨ rebuildOrMigration s then adminFail h 1 0x13 s
  else match slotBlk slot s with
    | none => adminFail h 1 0x06 s
    | some blk => match commitSlot (s.sh.fwDown != []) true blk img s with
      | (some (sct, sc), s) => adminFail h sct sc s
      | (none, s) =>
        if s.gen.mode = .recovery then y9Reset false 7 (adminOk h s) else startActivation h blk s

/-- FIRMWARE_COMMIT_ACTIVATE (R384, R385; row 7). -/
def execFirmwareCommitActivate (h : AdminHdr) (slot : Nat) (img : SlotImage) (s : State) : Host.Outcome State Fault Refusal :=
  .next (adminCmd h modesBasic 0 (firmwareActivateBody h slot img) s)

end Sys2Proof.Machine
end

