-- ==== Sys2Proof/Machine/Commit.lean ====
section
/-! DEFINITION. The commit of a command's grains, and what follows it in a twin and in a migration: CSN assignment, staging records, journal
records, the reservation ceiling, the mirror window, dirty and touched bits, and the lost-data list (R18 to R24, R106, R149 to R151, R159 to
R163, R326 to R329, R335, R339). -/
namespace Sys2Proof.Machine

/-! Changes. -/

/-- What a command does to one grain: the value each of its LBAs takes, `prior` where the command does not cover it. -/
structure Change where
  nsid : Nat
  grain : Nat
  vals : List LbaVal
  stream : Nat
  bufs : List Nat
  /-- Some of its data came from a poisoned line (R297). -/
  bad : Bool
  deriving DecidableEq, Repr

/-- LBAs that grain `g` of a namespace holds: k, fewer in the last grain. -/
def Ns.lbasOf (n : Ns) (g : Nat) : Nat := Nat.min n.k (n.nsze - g * n.k)

/-- The grains a range of LBAs touches. -/
def grainsOf (n : Ns) (slba nlb : Nat) : List Nat :=
  if nlb = 0 then [] else (List.range ((slba + nlb - 1) / n.k - slba / n.k + 1)).map (fun i => slba / n.k + i)

/-- The changes of a command that gives LBA `a` of [slba, slba + nlb) the value `f a`. -/
def changesFor (n : Ns) (slba nlb stream : Nat) (f : Nat → LbaVal) : List Change :=
  (grainsOf n slba nlb).map (fun g =>
    ⟨n.nsid, g, (List.range (n.lbasOf g)).map (fun i =>
      let a := g * n.k + i
      if slba ≤ a ∧ a < slba + nlb then f a else .prior), stream, [], false⟩)

/-- A change covers its grain wholly. -/
def Change.whole (c : Change) : Bool := !c.vals.contains .prior

/-- Mask of the covered LBAs; 0 for a whole grain (Table 6.4). -/
def Change.mask (c : Change) : Nat :=
  if c.whole then 0 else sumOf (c.vals.zipIdx.map (fun x => if x.1 = .prior then 0 else 2 ^ x.2))

/-- COMMIT's content code (Table 6.3): 0 data, 1 deallocated marks, 2 lost marks. -/
def Change.content (c : Change) : Nat :=
  if c.vals.contains .dealloc then 1 else if c.vals.contains .lost then 2 else 0

/-- A wholly deallocated grain. -/
def Change.isDealloc (c : Change) : Bool := c.vals.all (fun v => v == .dealloc)
/-- A grain wholly covered by Write Uncorrectable. -/
def Change.isLost (c : Change) : Bool := c.vals.all (fun v => v == .lost)

/-- Uncovered LBAs take what a newer copy in staging holds. -/
def overlay : List LbaVal → List LbaVal → List LbaVal
  | .prior :: t, o :: os => o :: overlay t os
  | v :: t, _ :: os => v :: overlay t os
  | t, [] => t
  | [], _ => []

/-- The vintage of a host write (Table 7.4): a stream chooses only for whole grains, a merged one goes by RGEN. -/
def hostVintage (stream rgen : Nat) (s : State) : Nat :=
  if stream = 0 then (if rgen ≤ 1 then 1 else 0) else if (getF Reg.MM_STREAM.HOT s).testBit (stream - 1) then 0 else 1

/-- The longest headed form of a grain with a mark: header, metadata, and 9 bits a byte of the other LBAs (R236, R237, R242). -/
def headedMost (nsid : Nat) (s : State) : Nat :=
  match findNs nsid s with
  | some n => ceilDiv (16 + n.k * mdBytes n.lbaf + ceilDiv (9 * ((n.k - 1) * lbaBytes n.lbaf)) 8 + 1) 512
  | none => 0

/-- Granules of a grain's stored form: what the compressor reaches, 1 to the raw length; a grain that may hold a mark takes the headed form,
whatever its length (R236, R240). -/
def storedLength (nsid : Nat) (vals : List LbaVal) (s : State) : Nat :=
  let whole := vals.all (fun v => match v with
    | .data _ => true
    | _ => false)
  let most := if whole then rawGranules nsid s else Nat.max (rawGranules nsid s) (headedMost nsid s)
  1 + Config.compressedGranules s.freeCtr % Nat.max 1 most

/-! What a commit of a grain tells the twin and a migration. -/

/-- The segment of a grain: 64 MiB of LBA data (R338). -/
def segOf (nsid grain : Nat) (s : State) : Nat := match findNs nsid s with
  | some n => grain * grainBytes n.grainCode / 2 ^ 26
  | none => 0

/-- A migration source keeps its dirty bitmap in these phases: FIRST, DIRTY, SEALED (Table 13.5). -/
def dirtyTracking (nsid : Nat) (s : State) : Bool :=
  decide (s.tw.mig.role = 1 ∧ 2 ≤ s.tw.mig.phase ∧ s.tw.mig.phase ≤ 4) && s.tw.mig.nsids.contains nsid

/-- A standby sets the touched bit of a grain in an unseeded segment (R329). The segment's first bit takes one Gareo receive buffer for the bitmap
(log entry 120); without one the bitmap is dropped, and with it the seed to come. -/
def touchGrain (nsid grain : Nat) (s : State) : State :=
  let sg := (nsid, segOf nsid grain s)
  if s.tw.active ∨ ¬ s.tw.seedTodo.contains sg ∨ s.tw.touchLost.contains sg then s
  else
    let put := fun (t : State) => { t with tw := { t.tw with touched := addOnce t.tw.touched (gkey nsid grain) } }
    if s.tw.touchBufs.any (fun x => x.1 == sg) then put s
    else match bpAlloc 4 1 false s with
      | (some is, t) => put { t with tw := { t.tw with touchBufs := t.tw.touchBufs ++ [(sg, is)] } }
      | (none, t) => flagOn Reg.TW_ERR.TOUCHFULL { t with tw := { t.tw with touchLost := t.tw.touchLost ++ [sg] } }

/-- A grain changed: the segment's dirty bit, the changed set since a takeover, and on a standby the touched bit of an unseeded segment. -/
def noteChange (nsid grain : Nat) (s : State) : State :=
  let sg := (nsid, segOf nsid grain s)
  let t := s.tw
  let mig := if dirtyTracking nsid s then { t.mig with dirty := addOnce t.mig.dirty sg } else t.mig
  touchGrain nsid grain { s with tw := { t with mig := mig, changed := t.changed.map (fun l => addOnce l sg) } }

/-! Lost LBAs (R106). -/

/-- The LBAs that a change writes or deallocates: a Write Uncorrectable does neither. -/
def Change.covered (c : Change) (n : Ns) : List Nat :=
  (c.vals.zipIdx.filter (fun x => match x.1 with
    | .prior | .lost => false
    | _ => true)).map (fun x => c.grain * n.k + x.2)

/-- An entry of log C4h notes which of its LBAs a change has written or deallocated, and leaves the page with the last of them. -/
def lostCleared (c : Change) (s : State) : State :=
  match findNs c.nsid s with
  | none => s
  | some n =>
    if s.lost.any (fun e => e.nsid == c.nsid) then
      let as_ := c.covered n
      let note := fun (e : LostExt) =>
        if e.nsid = c.nsid then { e with gone := (as_.filter (fun a => decide (e.slba ≤ a ∧ a < e.slba + e.nlb))).foldl addOnce e.gone } else e
      { s with lost := (s.lost.map note).filter (fun e => decide (e.gone.length < e.nlb)) }
    else s

/-! The commit itself. -/

/-- Append a CSNRES record once the counter is within 2^25 of the ceiling (R163). -/
def csnReserve (s : State) : State :=
  if s.mx.ceil < s.mx.csn + 2 ^ 25 ∧ s.mx.ceilPend = none then
    let c := s.mx.ceil + 2 ^ 26
    jAppend (jCsnRes c) { s with mx := { s.mx with ceilPend := some c } }
  else s

/-- A grain's staged form (Table 6.1). -/
def stagedEntry (stidx rgen glen : Nat) : MapEntry :=
  { MapEntry.initial with dealloc := false, staged := true, stidx := stidx, rgen := rgen, glen := glen, vhint := 6 }

/-- The staging record of a grain that gives way to a newer commit: its buffers pass on where the newer one takes content from it. -/
def dropBufs (i : Nat) (s : State) : State := updStaged i (fun r => { r with bufs := [] }) s

/-- Stage a grain under a CSN: `host` says that RGEN rises. -/
def stageGrain (csn : Nat) (host : Bool) (c : Change) (s : State) : State :=
  let e := getEntry c.nsid c.grain s
  let old := stagedOf c.nsid c.grain s
  -- on a held grain RGEN counts from 1 (R294)
  let rgen := if s.mx.heldLines.contains (c.nsid, c.grain / 8 * 8) then 1 else if host then Nat.min 3 (e.rgen + 1) else e.rgen
  let base := if c.whole then none else old
  let vals := match base with
    | some r => overlay c.vals r.lbas
    | none => c.vals
  let i := s.mx.nextStidx
  let glen := storedLength c.nsid vals s
  let prior := match old with
    | some r => r.prior
    | none => e
  let rec_ : Staged := { stidx := i, nsid := c.nsid, grain := c.grain, csn := csn, lbas := vals, prior := prior, rgen := rgen, vintage := hostVintage (if c.whole then c.stream else 0) rgen s, glen := glen, born := now s, tmo := getF Reg.MM_GATHER.TMO s, merged := !vals.contains .prior, queued := false, poisoned := c.bad || (base.map (·.poisoned)).getD false, readers := [], hold := false, mates := [], bufs := c.bufs ++ (base.map (·.bufs)).getD [] }
  let s := match base with
    | some r => dropBufs r.stidx s
    | none => s
  let s := tickFree { s with mx := { s.mx with staged := s.mx.staged ++ [rec_], nextStidx := i + 1 } }
  let s := putEntry c.nsid c.grain (stagedEntry i rgen glen) s
  let s := jAppend (jCommit c.nsid c.grain csn c.mask ((if c.whole then 0 else 1) + 2 * c.content) (stagedEntry 0 rgen glen)) s
  match old with
  | some r => releaseStaged r.stidx s
  | none => s

/-- One grain of a commit (R159). -/
def commitGrain (csn : Nat) (c : Change) (s : State) : State :=
  let old := stagedOf c.nsid c.grain s
  let release := fun (t : State) => match old with
    | some r => releaseStaged r.stidx t
    | none => t
  let s :=
    if c.isDealloc then putBufs c.bufs (release (jAppend (jDealloc c.nsid c.grain 1 csn) (putEntry c.nsid c.grain .deallocated s)))
    else if c.isLost then
      putBufs c.bufs (release (jAppend (jLost c.nsid c.grain 1 csn 255) (putEntry c.nsid c.grain (getEntry c.nsid c.grain s).asLost s)))
    else stageGrain csn true c s
  noteChange c.nsid c.grain s

/-- A commit: the counter takes the CSN, every grain changes under it, and the namespace's latest CSN follows. -/
def commitAll (csn : Nat) (cs : List Change) (s : State) : State :=
  let s := { s with mx := { s.mx with csn := csn } }
  let s := cs.foldl (fun t c => commitGrain csn c t) s
  let ids := (cs.map (·.nsid)).eraseDups
  let s := ids.foldl (fun t n => updNs n (fun x => { x with lastCsn := csn }) t) s
  let s := cs.foldl (fun t c => lostCleared c t) s
  csnReserve s

/-- The reservation ceiling holds back the next CSN. -/
def ceilHeld (s : State) : Bool := decide (s.mx.ceil < s.mx.csn + 1)

/-- A standby is filled or complete and acknowledges (R327). -/
def windowed (s : State) : Bool := s.tw.active && (s.tw.st == .seeding || s.tw.st == .paired)

/-- The mirror window holds back the next CSN. -/
def windowHeld (s : State) : Bool := windowed s && decide (s.tw.ack + 2 ^ 20 < s.mx.csn + 1)

/-! Grains stored under their origin CSN (R18, R24, R227, R329, R338). -/

/-- The LBA values a carried grain holds: covered LBAs in ascending order. -/
def recVals (g : GrainRec) : (n i : Nat) → List HostLba → List LbaVal
  | 0, _, _ => []
  | n + 1, i, ds =>
    if g.mask ≠ 0 ∧ ¬ g.mask.testBit i then .prior :: recVals g n (i + 1) ds
    else if g.dealloc then .dealloc :: recVals g n (i + 1) ds
    else if g.lost then .lost :: recVals g n (i + 1) ds
    else match ds with
      | d :: t => .data d :: recVals g n (i + 1) t
      | [] => .lost :: recVals g n (i + 1) []

/-- The change a carried grain makes. -/
def recChange (g : GrainRec) (s : State) : Change :=
  ⟨g.nsid, g.grain, recVals g (((findNs g.nsid s).map (fun n => n.lbasOf g.grain)).getD 0) 0 g.lbas, 0, [], false⟩

/-- The cause that log C4h gives a lost grain; 0 where it lists none. -/
def lostCauseOf (nsid grain : Nat) (s : State) : Nat :=
  let a := grainSlba nsid grain s
  ((s.lost.find? (fun x => decide (x.nsid = nsid ∧ x.slba ≤ a ∧ a < x.slba + x.nlb))).map (·.cause)).getD 0

/-- Store a carried grain in place of the copy held; the counter does not move, and the namespace's highest CSN follows (R24). A lost one is listed with the cause it carries. -/
def storeGrain (g : GrainRec) (s : State) : State :=
  let s := updNs g.nsid (fun n => { n with lastCsn := Nat.max n.lastCsn g.csn }) s
  let c := recChange g s
  if c.isDealloc then
    let old := stagedOf c.nsid c.grain s
    let s := jAppend (jDealloc c.nsid c.grain 1 g.csn) (putEntry c.nsid c.grain .deallocated s)
    match old with
    | some r => releaseStaged r.stidx s
    | none => s
  else if c.isLost then
    let old := stagedOf c.nsid c.grain s
    let s := putEntry c.nsid c.grain (getEntry c.nsid c.grain s).asLost s
    let s := jAppend (jLost c.nsid c.grain 1 g.csn (if g.cause = 0 then 255 else g.cause)) s
    let s := if g.cause = 0 then s else listLost c.nsid (grainSlba c.nsid c.grain s) (grainNlb c.nsid s) g.cause g.csn s
    match old with
    | some r => releaseStaged r.stidx s
    | none => s
  else lostCleared c (stageGrain g.csn false c s)

/-- What heads a carried grain's record (R338): NSID, grain, origin CSN, GLEN, the flags for deallocated and lost, and
the cause that log C4h gives a lost grain. -/
def grainHead (nsid grain : Nat) (s : State) : List Nat :=
  let e := getEntry nsid grain s
  if e.dealloc then [nsid, grain, 0, 0, 1, 0, 0]
  else if e.lost then [nsid, grain, 0, 0, 0, 1, lostCauseOf nsid grain s]
  else match stagedOf nsid grain s with
    | some r => [nsid, grain, r.csn, r.glen, 0, 0, 0]
    | none => [nsid, grain, ((copyAt nsid grain e s).map (·.csn)).getD 0, e.glen, 0, 0, 0]

end Sys2Proof.Machine
end

