-- ==== Sys2Proof/Machine/FretOps.lean ====
section
/-! DEFINITION. The fret scheduler's placement: time lines, read windows, link transfers, and the path terms of Tables 5.4 and 5.5 (R122 to
R128, R131 to R136, R141, R143). Lengths are in frets of 4 µs. -/
namespace Sys2Proof.Machine

/-! Terms. -/

/-- Frets of the horizon. -/
def horizonFrets : Nat := 4096

/-- Frets that `us` microseconds take. -/
def usFrets (us : Nat) : Nat := ceilDiv us 4

/-- Link payload per fret in bytes (R125); rate codes 0 to 5 stand for 2.5 to 64 GT/s. -/
def linkCap (p : Port) (s : State) : Nat :=
  let h := s.port p
  let r := match h.rate with
    | 5 => 640
    | 4 => 320
    | 3 => 160
    | 2 => 80
    | 1 => 50
    | _ => 25
  Nat.max 1 (if h.flit then 440000 * r * h.width / (640 * 16) else 440000 * r * h.width * 9 / (640 * 16 * 10))

/-- Codewords a read of `g` granules may touch in one page: shaped bytes, at any alignment (Table 5.4's note). -/
def codewordsFor (g : Nat) : Nat := Nat.min 16 (ceilDiv (g * 512 * 16) (15 * 4096) + 1)

/-- Frets of data-out and decode for `n` codewords (R127): n × 0.967 µs + 2 µs. -/
def outFrets (n : Nat) : Nat := ceilDiv (967 * n + 2000) 4000

/-- A read round: 17 frets of tR on QLC, 7 on SLC (Table 5.1), then the data-out. -/
def roundFrets (slc : Bool) (n : Nat) : Nat := (if slc then 7 else 17) + outFrets n

/-- The length at which a contingency round is reserved: a full QLC page. -/
def contRound : Nat := roundFrets false 16

/-- 4 KiB grains of a transfer. -/
def units4k (bytes : Nat) : Nat := ceilDiv bytes 4096

/-- DC reverse: passes of the decompress lanes in service, 2 µs each (Table 16.2). -/
def dcReverse (bytes : Nat) (s : State) : Nat := usFrets (2 * ceilDiv (units4k bytes) (Nat.max 1 s.mg.decomp))
/-- DC forward: passes of the compress lanes in service, 3 µs each, and the buffer write. -/
def dcForward (bytes : Nat) (s : State) : Nat := usFrets (3 * ceilDiv (units4k bytes) (Nat.max 1 s.mg.comp) + 2)
/-- Host data in: one read of at most 4 µs, then the link. -/
def dataIn (p : Port) (bytes : Nat) (s : State) : Nat := if bytes = 0 then 0 else 1 + ceilDiv bytes (linkCap p s)
/-- The mirror of granules and commit record, and the peer's acknowledgement. -/
def mirrorFrets (bytes : Nat) : Nat := if bytes ≤ 59200 then 5 else ceilDiv bytes 59200 + 5

/-! Lines. -/

/-- A booking occupies some of the frets [f, f + len) of a line. -/
def Booking.hits (b : Booking) (l : Line) (f len : Nat) : Bool := b.line == l && decide (b.start < f + len ∧ f < b.start + b.len)

/-- The first fret from `f` up at which `len` frets of a line are free. -/
def lineFree (bs : List Booking) (l : Line) (len : Nat) : (fuel f : Nat) → Nat
  | 0, f => f
  | n + 1, f => match bs.find? (fun b => b.hits l f len) with
    | some b => lineFree bs l len n (b.start + b.len)
    | none => f

/-- The share of a die's frets, in 1/256, that FS withholds (R143): the power state's or the throttle level's, whichever is larger. -/
def withheld (d : Nat) (s : State) : Nat :=
  let ps := match s.sh.ps with
    | .ps1 => 77
    | .ps2 => 154
    | _ => 0
  Nat.max ps (64 * (s.mg.levels[dieChan d / 8]?).getD 0)

/-- The shares of R141 in force at a fret. -/
def budgetShares (f : Nat) (s : State) : Nat :=
  sumOf ([Reg.FS_BGBUD0.RACK, Reg.FS_BGBUD0.REFRESH, Reg.FS_BGBUD0.REBUILD, Reg.FS_BGBUD0.AUDIT, Reg.FS_BGBUD1.MIGR,
    Reg.FS_BGBUD1.BOTTLE].map (fun x => inForceAt x f s))

/-- Frets that [a, a + n) and [b, b + m) share. -/
def overlap (a n b m : Nat) : Nat := Nat.min (a + n) (b + m) - Nat.max a b

/-- Frets of the span of 256 from `t` that host bookings take on a line. -/
def spanUse (bs : List Booking) (l : Line) (t : Nat) : Nat :=
  sumOf ((bs.filter (fun b => b.line == l && b.cmd.isSome)).map (fun b => overlap b.start b.len t 256))

/-- A placement of `len` frets at `f` leaves `free` frets of every span of 256 on a line to others. The fullest spans begin with a booking or
end with one. -/
def spanFits (l : Line) (free f len : Nat) (s : State) : Bool :=
  let bs := s.fs.bookings.filter (fun b => b.line == l && b.cmd.isSome)
  let ts := (f :: (f + len - 256) :: bs.flatMap (fun b => [b.start, b.start + b.len - 256])).filter (fun t => decide (t < f + len ∧ f < t + 256))
  ts.all (fun t => decide (spanUse bs l t + overlap f len t 256 + free ≤ 256))

/-- A placement on a die leaves the background and the withheld share of every span free (R141, R143). -/
def spanOk (d f len : Nat) (s : State) : Bool := spanFits (.die d) (budgetShares f s + withheld d s) f len s

/-- The fret beyond the horizon: nothing is placed there (R122). -/
def farFret (s : State) : Nat := fretNow s + horizonFrets

/-- The first fret from `f` up at which a die's line is free and its spans keep their shares; the horizon's end where the search finds none. -/
def dieFree (d len : Nat) (s : State) : (fuel f : Nat) → Nat
  | 0, f => Nat.max f (farFret s)
  | n + 1, f =>
    let f := lineFree s.fs.bookings (.die d) len (s.fs.bookings.length + 1) f
    if spanOk d f len s then f else dieFree d len s n (f + 16)

/-- Book frets. -/
def book (b : Booking) (s : State) : State := { s with fs := { s.fs with bookings := s.fs.bookings ++ [b] } }

/-- Bytes booked on a link in a fret. -/
def linkUse (bs : List Booking) (l : Line) (f : Nat) : Nat := sumOf ((bs.filter (fun b => b.hits l f 1)).map (·.bytes))

/-- Place a transfer on a link from a fret up: it takes what each fret has left. The fret after its last one. -/
def placeLink (p : Port) (toHost : Bool) (cmd cls deadline : Nat) : (fuel f bytes : Nat) → State → Nat × State
  | 0, f, _, s => (f, s)
  | n + 1, f, bytes, s =>
    if bytes = 0 then (f, s)
    else
      let room := linkCap p s - linkUse s.fs.bookings (.link p toHost) f
      let take := Nat.min room bytes
      let s := if take = 0 then s else book ⟨.link p toHost, f, 1, take, some cmd, cls, deadline, false, false⟩ s
      placeLink p toHost cmd cls deadline n (f + 1) (bytes - take) s

/-! Read windows (R126, R127). -/

/-- Primary rounds a window may hold, and its contingency rounds, at a fret. -/
def winRds (f : Nat) (s : State) : Nat := inForceAt Reg.FS_CFG.WINRDS f s
/-- Contingency rounds of a window. -/
def cSlots (f : Nat) (s : State) : Nat := inForceAt Reg.FS_CFG.CSLOTS f s

/-- The end of a window: its contingency rounds are reserved until its primary rounds have run; then it holds those that were claimed. -/
def Window.close (w : Window) (s : State) : Nat :=
  w.next + (if fretNow s < w.next then cSlots w.opens s else w.claimed) * contRound

/-- A die runs a program or an erase, in segments. -/
def inSegments (d : Nat) (s : State) : Bool := s.fs.segs.any (fun x => x.1 == d)

/-- The windows booked on a die in the order they open. -/
def windowsOf (d : Nat) (s : State) : List Window :=
  (s.fs.windows.filter (fun w => w.die == d)).foldl (fun l w => l.filter (fun v => decide (v.opens < w.opens)) ++ [w] ++
    l.filter (fun v => decide (w.opens ≤ v.opens))) []

/-- The fret at which a die's next new window opens, not before `f`: `at_` is the end of the segment that runs, or follows a window. A window
opens at the end of a segment, after the suspend, where it ends before the suspend of the one that follows. -/
def windowFrom (need maxSeg f : Nat) (s : State) : (at_ : Nat) → List Window → Nat
  | at_, [] => at_ + ceilDiv (f - 4 - at_) maxSeg * maxSeg + 4
  | at_, w :: t =>
    let o := at_ + ceilDiv (f - 4 - at_) maxSeg * maxSeg + 4
    if o + need + 4 ≤ w.opens then o else windowFrom need maxSeg f s (w.close s + maxSeg) t

/-- The next new window of a die from `f` up, with `need` frets for what it is to hold. -/
def nextWindow (d f need : Nat) (s : State) : Nat :=
  let seg := ((s.fs.segs.find? (fun x => x.1 == d)).map (·.2)).getD f
  windowFrom need (Nat.max 1 (getF Reg.FS_CFG.SEGMAX s)) (Nat.max f (fretNow s + 5)) s seg (windowsOf d s)

/-- Codeword transfers for decode that a fret may hold: ⌊engines × 18,000 / 4,640⌋ (Table 16.2). -/
def decodeCap (s : State) : Nat := s.mg.engines * 18000 / 4640

/-- Codeword transfers that a data-out of `cw` codewords over `n` frets may place in one fret: at most five of 0.967 µs touch it. -/
def cwPerFret (cw : Nat) : Nat := Nat.min 5 cw

/-- Codewords booked for decode in a fret. -/
def decodeUse (bs : List Booking) (f : Nat) : Nat :=
  sumOf ((bs.filter (fun b => (match b.line with
    | .chan _ => true
    | _ => false) && decide (b.start ≤ f ∧ f < b.start + b.len))).map (fun b => cwPerFret b.bytes))

/-- The data-out of `cw` codewords in the last `n` frets before fret `e` finds the channel bus free, its withheld share kept (R143), and the engines
within their rate. -/
def outFree (d e n cw : Nat) (s : State) : Bool :=
  !s.fs.bookings.any (fun b => b.hits (.chan (dieChan d)) (e - n) n) &&
  spanFits (.chan (dieChan d)) (withheld d s) (e - n) n s &&
  (List.range n).all (fun i => decide (decodeUse s.fs.bookings (e - n + i) + cwPerFret cw ≤ decodeCap s))

/-- The first fret from `f` up at which an idle die's line, its channel's bus and the engines all have room. -/
def roundFree (d len n cw : Nat) (s : State) : (fuel f : Nat) → Nat
  | 0, f => Nat.max f (farFret s)
  | k + 1, f =>
    let f := dieFree d len s 17 f
    if outFree d (f + len) n cw s then f else roundFree d len n cw s k (f + 1)

/-- The first new window from `f` up in which a round finds the die's line, the channel bus, the engines and the spans free. -/
def openWindow (d len n cw : Nat) (s : State) : (fuel f : Nat) → Nat
  | 0, f => Nat.max f (farFret s)
  | k + 1, f =>
    let o := nextWindow d f (len + cSlots f s * contRound) s
    if !(s.fs.bookings.any (fun b => b.hits (.die d) o len)) && outFree d (o + len) n cw s && spanOk d o len s then o
    else openWindow d len n cw s k (o + 1)

/-- Where the next primary round of a die goes: in a window with a free primary round, in a new window, or on free frets of an idle die. The
round's start, and the windows after it is booked. -/
def placeRound (d f len n cw : Nat) (s : State) : Nat × List Window :=
  if ¬ inSegments d s then (roundFree d len n cw s 64 f, s.fs.windows)
  else match s.fs.windows.find? (fun w => w.die == d && decide (f ≤ w.next ∧ 0 < w.rounds ∧ w.rounds < winRds w.opens s) &&
      !(s.fs.bookings.any (fun b => b.hits (.die d) w.next len)) && outFree d (w.next + len) n cw s && spanOk d w.next len s) with
    | some w => (w.next, updFirst s.fs.windows (fun x => decide (x.die = d ∧ x.opens = w.opens)) (fun x => { x with rounds := x.rounds + 1, next := w.next + len }))
    | none =>
      let o := openWindow d len n cw s 64 f
      (o, s.fs.windows ++ [⟨d, o, 1, o + len, 0⟩])

/-- Book one primary round of `cw` codewords, `n` frets of data-out: the fret after it. -/
def bookRound (d f len n cw cmd cls deadline : Nat) (s : State) : Nat × State :=
  let r := placeRound d f len n cw s
  let s := { s with fs := { s.fs with windows := r.2 } }
  let s := book ⟨.die d, r.1, len, 0, some cmd, cls, deadline, false, false⟩ s
  -- the data-out takes the channel bus at the round's end
  (r.1 + len, book ⟨.chan (dieChan d), r.1 + len - n, n, cw, some cmd, cls, deadline, false, false⟩ s)

/-! What a command's media step reads. -/

/-- One multi-plane page to read: die slot, block, page, SLC, granules taken from it. -/
structure PageRead where
  die : Nat
  block : Nat
  page : Nat
  slc : Bool
  granules : Nat
  deriving DecidableEq, Repr

/-- Add a grain to the pages read: grains on one page share its round. -/
def addRead (e : MapEntry) : List PageRead → List PageRead
  | [] => [⟨e.die, e.block, e.page, e.vhint == 5, e.glen⟩]
  | r :: t =>
    if r.die = e.die ∧ r.block = e.block ∧ r.page = e.page then { r with granules := r.granules + e.glen } :: t else r :: addRead e t

/-- The pages that hold the stored copies of some grains. -/
def pagesOf (es : List MapEntry) : List PageRead := es.eraseDups.foldl (fun l e => addRead e l) []

/-- The unit a page holds can be read where it lies: its own die is in service, or its spare has rebuilt the row, or holds a barrel opened
since (R224). -/
def unitReadable (r : PageRead) (s : State) : Bool :=
  if ¬ dieFailed r.die s then true
  else match s.sp.subst.find? (fun e => decide (e.src = r.die ∧ e.state ≠ 4)), groupOfDie r.die s with
    | some e, some g =>
      let row := (rowOfBlock g (g.posOf r.die) r.block s).getD 0
      !dieFailed e.dst s && !r.slc && (decide (e.state = 3 ∨ row < e.nextRow) || (e.state == 2 && s.mm.openB.any (fun b => b.num == barrelNum g.num row)))
    | _, _ => false

/-- The survivors of a stripe whose units a reconstruct reads: the other data units and P, and Q too once another unit is missing (R137, R139). -/
def survivors (g : Group) (m r : Nat) (s : State) : List Nat :=
  let others := (List.range g.width).filter (fun k => k != m)
  let up := others.filter (fun k => !dieFailed (servingDie (g.die k) s) s)
  let two := up.length < others.length
  (up.filter (fun k => two || k != posQ g r)).map (fun k => servingDie (g.die k) s)

/-- The dies a page is read on: its serving die, or the survivors of its stripe when the member is missing (R139). -/
def readDies (r : PageRead) (s : State) : List Nat :=
  let d := servingDie r.die s
  if unitReadable r s then [d]
  else match groupOfDie r.die s with
    | some g =>
      if r.slc then [g.die ((g.posOf r.die + g.width / 2) % g.width)]
      else survivors g (g.posOf r.die) r.page s
    | none => [d]

/-- Book every page: the fret after the last round. -/
def bookReads (cmd cls deadline f : Nat) : List PageRead → State → Nat × State
  | [], s => (f, s)
  | r :: t, s =>
    let cw := codewordsFor r.granules
    let len := roundFrets r.slc cw
    let x := (readDies r s).foldl (fun (a : Nat × State) d =>
      let y := bookRound d f len (outFrets cw) cw cmd cls deadline a.2
      (Nat.max a.1 y.1, y.2)) (f, s)
    let z := bookReads cmd cls deadline f t x.2
    (Nat.max x.1 z.1, z.2)

/-- The contingency path of a read: 16 frets to the next window, then the rounds of its busiest die. -/
def contPath (rs : List PageRead) : Nat :=
  if rs = [] then 0
  else 16 + maxOf (rs.map (fun r => sumOf ((rs.filter (fun q => q.die == r.die)).map (fun q => roundFrets q.slc (codewordsFor q.granules)))))

/-! Vat copies (Table 5.4). -/

/-- An SLC copy of one page on a die: data-in, program, status read. -/
def vatRun (bytes : Nat) : Nat := (if bytes ≤ 16384 then 2 else 4) + 35 + 1

/-- The first fret from `f` up at which a vat copy of `len` frets may run on a die: never inside a read window, nor on a die whose erase or
program is suspended for one (R128). -/
def vatSlot (d len : Nat) (s : State) : (fuel f : Nat) → Nat
  | 0, f => Nat.max f (farFret s)
  | n + 1, f =>
    let f := dieFree d len s 17 f
    match s.fs.windows.find? (fun w => w.die == d && decide (w.opens < f + len + 4 ∧ f < w.close s)) with
    | some w => vatSlot d len s n (w.close s)
    | none => if inSegments d s then Nat.max f (farFret s) else f

/-- The two dies that take the copies of a pair. -/
def pairDies (x : Nat × Nat) (s : State) : Option (Nat × Nat) :=
  (findGroup x.1 s).map (fun g => ((memberDie g x.2 s).getD (g.die x.2), (memberDie g (x.2 + g.width / 2) s).getD (g.die (x.2 + g.width / 2))))

/-- Pairs on vat turn, those with no erase in progress first. -/
def idlePairs (s : State) : List (Nat × Nat) :=
  let busy := fun (x : Nat × Nat) => (pairDies x s).any (fun d => inSegments d.1 s || inSegments d.2 s)
  (openPairs s).filter (fun x => !busy x) ++ (openPairs s).filter busy

/-- Book the vat copies of `bytes` on the pairs on vat turn: the fret after the last. -/
def bookVatFrets (cmd cls deadline f bytes : Nat) (s : State) : Nat × State :=
  let ps := idlePairs s
  let n := Nat.max 1 (ceilDiv bytes 65536)
  let use := ps.take (Nat.min n ps.length)
  let each := ceilDiv n (Nat.max 1 use.length) * vatRun bytes
  use.foldl (fun (a : Nat × State) x =>
    match pairDies x a.2 with
    | none => a
    | some d =>
      let st := vatSlot d.2 each a.2 17 (vatSlot d.1 each a.2 17 f)
      let s := book ⟨.die d.1, st, each, 0, some cmd, cls, deadline, false, true⟩ a.2
      (Nat.max a.1 (st + each), book ⟨.die d.2, st, each, 0, some cmd, cls, deadline, false, true⟩ s)) (f, s)

/-- A command's bookings all end within the horizon (R122, R131). -/
def withinHorizon (id : Nat) (s : State) : Bool := s.fs.bookings.all (fun b => b.cmd != some id || decide (b.start + b.len ≤ farFret s))

/-- The length of the vat contingency path. -/
def vatCont (bytes : Nat) : Nat :=
  let n := Nat.max 1 (ceilDiv bytes 65536)
  19 + (if n ≤ 4 then 1 else 2) * vatRun bytes

/-- Free vat pages on the pairs on vat turn. -/
def vatFree (s : State) : Nat :=
  let slots := getF Reg.MM_CFG.VATBLK s
  sumOf ((openPairs s).map (fun x =>
    let p := getPair x.1 x.2 s
    (if p.retired.contains p.openSlot then 0 else slcPages - p.nextPage) +
      slcPages * ((List.range slots).filter (fun v => v != p.openSlot && !p.full.contains v && !p.retired.contains v && !p.erasing.contains v)).length))

/-- Bottling stays boosted until the host data that awaits it is below 75 % of the vat's space (R186). -/
def boostEnds (s : State) : Bool := decide (4 * unbottledBytes s < 3 * (vatBytes s + 65536 * vatFree s))

/-! Forgetting. -/

/-- A command's bookings are released. -/
def unbook (id : Nat) (s : State) : State :=
  { s with fs := { s.fs with bookings := s.fs.bookings.filter (fun b => b.cmd != some id) } }

/-- Frets that have passed are forgotten, with the windows that have closed. -/
def trimFrets (s : State) : State :=
  let n := fretNow s
  { s with fs := { s.fs with
      bookings := s.fs.bookings.filter (fun b => decide (n < b.start + b.len)),
      windows := s.fs.windows.filter (fun w => decide (n < w.close s)) } }

end Sys2Proof.Machine
end

