-- ==== Sys2Proof/Machine/IoOps.lean ====
section
/-! DEFINITION. What I/O commands share: the checks of Table 4.13a, protection information, lookups, host data reads, completion and what
follows it (R20, R22, R74 to R77, R110 to R114, R121, R137, R145, R162, R233 to R235, R419). -/
namespace Sys2Proof.Machine

/-! Commands in flight. -/

/-- A command in flight. -/
def findCmd (id : Nat) (s : State) : Option IoCmd := s.cmds.find? (fun c => c.id == id)

/-- Change a command. -/
def updCmd (id : Nat) (f : IoCmd → IoCmd) (s : State) : State := { s with cmds := updFirst s.cmds (fun c => c.id == id) f }

/-- The kinds that a completion counter and a bound group (Table 5.8): 0 read, 1 write, 2 FUA. -/
def doneKind (c : IoCmd) : Nat :=
  match c.kind with
  | .read => if c.fua then 2 else 0
  | .verify | .fixity => 0
  | .flush => 2
  | _ => if c.fua then 2 else 1

/-! Protection information (R233 to R235). -/

/-- PI is in use on a namespace: its type is not 0. -/
def piOn (n : Ns) : Bool := decide (0 < n.dps % 8 ∧ 0 < mdBytes n.lbaf)

/-- The reference tag of the `i`-th LBA of a command; Type 3 does not count it up. -/
def refOf (n : Ns) (pr : PrInfo) (i : Nat) : Nat :=
  (pr.refTag + (if n.dps % 8 = 3 then 0 else i)) % 2 ^ (if mdBytes n.lbaf = 8 then 32 else 48)

/-- The guard of an LBA's data. -/
def guardOf (n : Ns) (data : List Byte) : Nat := if mdBytes n.lbaf = 8 then guard16 data else guard64 data

/-- Guard, application tag and reference tag in metadata bytes. -/
def piFields (n : Ns) (md : List Byte) : Nat × Nat × Nat :=
  if mdBytes n.lbaf = 8 then (beNat (md.take 2), beNat ((md.drop 2).take 2), beNat ((md.drop 4).take 4))
  else (beNat (md.take 8), beNat ((md.drop 8).take 2), beNat ((md.drop 10).take 6))

/-- The PI that PRACT generates. -/
def piMake (n : Ns) (pr : PrInfo) (i : Nat) (data : List Byte) : List Byte :=
  if mdBytes n.lbaf = 8 then beBytes 2 (guardOf n data) ++ beBytes 2 pr.appTag ++ beBytes 4 (refOf n pr i)
  else beBytes 8 (guardOf n data) ++ beBytes 2 pr.appTag ++ beBytes 6 (refOf n pr i)

/-- The check is switched off by the tag values NVM Express reserves for it. -/
def piEscape (n : Ns) (f : Nat × Nat × Nat) : Bool :=
  decide (f.2.1 = 0xFFFF) && (decide (n.dps % 8 ≠ 3) || decide (f.2.2 = 2 ^ (if mdBytes n.lbaf = 8 then 32 else 48) - 1))

/-- The first check an LBA fails: 82h guard, 83h application tag, 84h reference tag. -/
def piCheck (n : Ns) (pr : PrInfo) (i : Nat) (d : HostLba) : Option Nat :=
  let f := piFields n d.md
  if ¬ piOn n ∨ piEscape n f then none
  else if pr.chkGuard ∧ f.1 ≠ guardOf n d.data then some 0x82
  else if pr.chkApp ∧ (f.2.1 &&& pr.appMask) ≠ (pr.appTag &&& pr.appMask) then some 0x83
  else if pr.chkRef ∧ n.dps % 8 ≠ 3 ∧ f.2.2 ≠ refOf n pr i then some 0x84
  else none

/-- The status of the first failing LBA, in LBA order. -/
def piFirst (n : Ns) (pr : PrInfo) (ds : List (Nat × HostLba)) : Option Nat := (ds.findSome? (fun x => piCheck n pr x.1 x.2))

/-- Count a PI error (DC_PIERR). -/
def piCount (sc : Nat) (s : State) : State :=
  if sc = 0x82 then bump Reg.DC_PIERR.GUARD s else if sc = 0x83 then bump Reg.DC_PIERR.APP s else bump Reg.DC_PIERR.REF s

/-- Metadata that is exactly PI is stripped or generated by PRACT. -/
def piStrips (n : Ns) (pr : PrInfo) : Bool := pr.pract && piOn n

/-! Lengths. -/

/-- Bytes that cross the data pointer for `nlb` LBAs. -/
def moveBytes (n : Ns) (pr : PrInfo) (nlb : Nat) : Nat :=
  nlb * (lbaBytes n.lbaf + (if n.extLba && !piStrips n pr then mdBytes n.lbaf else 0))

/-- What the metadata pointer describes, where a separate buffer is used. -/
def mdPair (n : Ns) (pr : PrInfo) (nlb : Nat) (h : IoHdr) : Option MdUse :=
  let len := nlb * mdBytes n.lbaf
  if n.extLba ∨ len = 0 ∨ piStrips n pr then none
  else match h.mptr with
    | .unused => none
    | .flat a => some ⟨len, len, [(a, len)], false⟩
    | .sgl ds => some ⟨sglBytes [ds], len, (ds.filter (fun d => d.typ == sglData)).map (fun d => (d.address, d.length)),
        ds.any (fun d => d.typ != sglData && !pointsOn d)⟩

/-! The checks of Table 4.13a. -/

/-- Attached to this controller and not being deleted or detached (step 3). -/
def nsVisible (p : Port) (n : Ns) (s : State) : Bool :=
  n.attached.contains (cntlid p s) && !n.leaving.contains (cntlid p s) && !n.cutAway

/-- Step 4: the namespace's role and state. -/
def nsRole (n : Ns) (s : State) : Option (Nat × Nat) := if s.tw.switching then some (3, 0x03) else nsRoleBad n s
where
  /-- Inaccessible, transition, not yet ingested, or being formatted. -/
  nsRoleBad (n : Ns) (s : State) : Option (Nat × Nat) :=
    if n.moving then some (3, 0x03)
    else if ¬ n.owner ∨ s.gen.mode = .standby then some (3, 0x02)
    else if n.ingesting then some (7, 0x83)
    else if n.formatting then some (0, 0x84)
    else none

/-- Steps 1 to 4 for a command on one namespace: the namespace, or the status. -/
def ioTarget (h : IoHdr) (s : State) : Ns ⊕ (Nat × Nat) :=
  if ¬ modesAll s.gen.mode then .inr (0, 0x01)
  else if h.fuse ≠ 0 ∨ ¬ h.reservedZero then .inr (0, 0x02)
  else if s.sh.sanState = 1 ∨ s.sh.sanState = 3 then .inr (0, 0x1D)
  else match findNs h.nsid s with
    | none => .inr (0, 0x0B)
    | some n =>
      if ¬ nsVisible h.port n s then .inr (0, 0x0B)
      else match nsRole n s with
        | some e => .inr e
        | none => .inl n

/-- PRINFO is valid for the format (R234). -/
def prValid (n : Ns) (pr : PrInfo) : Bool := decide (0 < mdBytes n.lbaf) || !(pr.pract || pr.chkGuard || pr.chkApp || pr.chkRef)

/-- The largest transfer, 2 MiB (R95). -/
def mdtsBytes : Nat := 2097152

/-- The Y9 or the namespace is sealed (step 7). -/
def sealedNs (n : Ns) (s : State) : Bool :=
  s.gen.mode == .sealed || (s.gen.mode == .lowpower && s.gen.lowFrom == .sealed) || n.sealInfo.isSome

/-- The class of a submission queue. -/
def classOfSq (p : Port) (q : Nat) (s : State) : Nat := (((s.con p).sqs.find? (fun x => x.qid == q)).map (·.cls)).getD 7

/-- A refusal that no admission of this class can lift. -/
def never : Nat := 0xFFFFFFFF

/-- Step 8: the class's size limit and the residency LC0 and LC1 need. -/
def classBad (cls bytes : Nat) (n : Ns) (s : State) : Bool :=
  decide (cls ≠ 7) && (decide (((classRow cls s).map (fun c => c.rdSize * 1024)).getD 0 < bytes) || (!n.resident && decide (cls ≤ 1)))

/-! Refusals and failures before admission. -/

/-- Complete a command that a check turned away. -/
def ioFail (h : IoHdr) (sct sc dw0 : Nat) (s : State) : State :=
  finishDeletes h.port (postCqe h.port h.sq h.cid sct sc dw0 0 s)

/-- An admission refusal, counted (R135, R145). -/
def ioRefuse (h : IoHdr) (dw0 : Nat) (s : State) : State :=
  let k := classOfSq h.port h.sq s
  let s := updClass k (fun c => if dw0 = never then { c with never := c.never + 1 } else { c with refused := c.refused + 1 }) s
  ioFail h 7 0x80 dw0 (bump Reg.QE_REFUSE.COUNT s)

/-! Deferred-fault reports (R114). -/

/-- A report is due on a port for one of the namespaces. -/
def reportDue (p : Port) (on : Nat → Bool) (s : State) : Bool :=
  s.defFaults.any (fun d => on d.nsid && (match p with
    | .a => !d.repA
    | .b => !d.repB))

/-- The refusal delivers every report due. -/
def deliverReports (p : Port) (on : Nat → Bool) (s : State) : State :=
  { s with defFaults := s.defFaults.map (fun (d : DefFault) => if on d.nsid then (match p with
      | .a => { d with repA := true }
      | .b => { d with repB := true }) else d) }

/-! Lookups (R20, R162). -/

/-- What a lookup sees for an LBA of a stored copy, or of a mark. -/
def viewOf (e : MapEntry) : View := if e.dealloc then .zero else if e.lost then .lost else .media e

/-- No wrapped copy of a namespace's key unwrapped, and no peer gave it: its reads fail (R246). -/
def keyless (n : Ns) (s : State) : Bool := n.xts && s.ff.keys.any (fun k => decide (k.1 = n.nsid ∧ k.2 = 0))

/-- The lookup of one LBA. -/
def lookLba (n : Ns) (lba : Nat) (s : State) : View :=
  let e := getEntry n.nsid (lba / n.k) s
  if keyless n s then .lost
  else if ¬ e.staged then viewOf e
  else match findStaged e.stidx s with
    | none => .lost
    | some r => match r.lbas[lba % n.k]? with
      | some (.data d) => .buffered r.stidx d
      | some .dealloc => .zero
      | some .lost => .lost
      | _ => viewOf r.prior

/-- The lookups of a range, by LBA. -/
def lookRange (n : Ns) (slba nlb : Nat) (s : State) : List (Nat × View) := (List.range nlb).map (fun i => (slba + i, lookLba n (slba + i) s))

/-- The entries whose media copies the views need. -/
def mediaOf (vs : List (Nat × View)) : List MapEntry := vs.filterMap (fun x => match x.2 with
  | .media e => some e
  | _ => none)

/-- Register a command as a reader of the staging records it saw. -/
def addReaders (id : Nat) (vs : List (Nat × View)) (s : State) : State :=
  let ix := vs.filterMap (fun x => match x.2 with
    | .buffered i _ => some i
    | _ => none)
  { s with mx := { s.mx with staged := s.mx.staged.map (fun (r : Staged) => if ix.contains r.stidx then { r with readers := addOnce r.readers id } else r) } }

/-- A command has taken its data: staging records that waited for it may go. -/
def dropReaders (id : Nat) (s : State) : State :=
  let ix := (s.mx.staged.filter (fun r => r.readers.contains id)).map (·.stidx)
  let s := { s with mx := { s.mx with staged := s.mx.staged.map (fun (r : Staged) => { r with readers := r.readers.filter (fun x => x != id) }) } }
  let mates := (s.mx.staged.filter (fun r => r.mates.any (fun i => ix.contains i))).map (·.stidx)
  (ix ++ mates).foldl (fun t i => releaseStaged i t) s

/-- Map pages of a range that are neither resident nor cached (R134, R157). -/
def pagesMissing (n : Ns) (slba nlb : Nat) (s : State) : List Nat :=
  if n.resident ∨ nlb = 0 then []
  else
    let first := slba / n.k / 512
    ((List.range ((slba + nlb - 1) / n.k / 512 - first + 1)).map (fun i => first + i)).filter (fun p =>
      !s.mx.cache.any (fun c => decide (c.1 = n.nsid ∧ c.2.1 = p)))

/-! Host data reads (R74, R75). -/

/-- Kinds whose data comes from the host. -/
def takesData : IoKind → Bool
  | .write => true
  | _ => false

/-- Issue the last `n` of a command's `total` data reads, while tags last. -/
def issueFor (p : Port) (id total : Nat) : (n : Nat) → State → State
  | 0, s => s
  | n + 1, s =>
    if dataRoom p s then issueFor p id total n (issueFetch p (.data id (total - (n + 1))) 1 (updCmd id (fun x => { x with toRead := n }) s))
    else s

/-- Issue the data reads of a port's commands that wait for their data, while tags last. -/
def issueReads (p : Port) (s : State) : State :=
  s.cmds.foldl (fun t c => if c.port = p ∧ c.stage = .dataIn then issueFor p c.id c.reads c.toRead t else t) s

/-- Bytes of one LBA that cross the data pointer. -/
def lbaMoved (n : Ns) (pr : PrInfo) : Nat := moveBytes n pr 1

/-- The stretches of a command's data that lie in the CMB (R64). -/
def cmdParts (c : IoCmd) (s : State) : List (Nat × Nat × Nat) := cmbParts c.port s 0 c.addrs

/-- The stretches of a command's separate metadata that lie in the CMB (R64). -/
def mdParts (c : IoCmd) (s : State) : List (Nat × Nat × Nat) := cmbParts c.port s 0 c.mdAddrs

/-- An LBA's bytes as they cross the data pointer. -/
def lbaStream (n : Ns) (pr : PrInfo) (d : HostLba) : List Byte := if n.extLba && !piStrips n pr then d.data ++ d.md else d.data

/-- An LBA from the bytes that crossed the data pointer. -/
def lbaOf (n : Ns) (pr : PrInfo) (bs : List Byte) (d : HostLba) : HostLba :=
  if n.extLba && !piStrips n pr then ⟨bs.take (lbaBytes n.lbaf), bs.drop (lbaBytes n.lbaf)⟩ else ⟨bs, d.md⟩

/-- Every part of a write's data is there: DC takes it, with what lies in the CMB read there; merge entries on its lines complete first. -/
def takeData (id : Nat) (ds : List HostLba) (s : State) : State :=
  match findCmd id s with
  | none => s
  | some c => match findNs c.nsid s with
    | none => s
    | some n =>
      let parts := cmdParts c s
      let mparts := mdParts c s
      let sz := lbaMoved n c.prw
      let ms := mdBytes n.lbaf
      if parts = [] ∧ mparts = [] then updCmd id (fun x => { x with data := ds, stage := .forward }) s
      else
        let lines := (parts ++ mparts).flatMap (fun q => linesOf (q.2.1 - (s.port c.port).cba) q.2.2)
        let s := mergesDone (lines.map (cmbLineKey c.port)) s
        let base := (List.range c.nlb).map (fun i => (ds[i]?).getD ⟨List.replicate (lbaBytes n.lbaf) 0, List.replicate ms 0⟩)
        let data := base.zipIdx.map (fun x =>
          let d := lbaOf n c.prw (cmbTake c.port parts (x.2 * sz) (lbaStream n c.prw x.1) s) x.1
          if mparts = [] then d else { d with md := cmbTake c.port mparts (x.2 * ms) d.md s })
        let bad := (List.range c.nlb).filter (fun i => cmbBad c.port parts (i * sz) sz s || cmbBad c.port mparts (i * ms) ms s)
        updCmd id (fun x => { x with data := data, bad := bad.map (· + c.slba), stage := .forward }) s

/-- A write starts to read its data: the part that is not in the CMB in reads of at most MRRS bytes (R64, R76). -/
def startData (id : Nat) (s : State) : State :=
  match findCmd id s with
  | none => s
  | some c =>
    let m := Nat.max 1 (s.port c.port).mrrs
    -- metadata of a separate buffer has reads of its own
    let md := match findNs c.nsid s with
      | some n => if n.extLba ∨ piStrips n c.prw then 0 else c.nlb * mdBytes n.lbaf
      | none => 0
    let r := ceilDiv (sumOf (c.addrs.map (·.2)) - cmbLen (cmdParts c s)) m + ceilDiv (md - cmbLen (mdParts c s)) m
    if r = 0 then takeData id [] s
    else issueReads c.port (updCmd id (fun x => { x with reads := r, toRead := r, stage := .dataIn }) s)

/-! Completion (R22). -/

/-- The zero LBA of R160. -/
def zeroLba (n : Ns) : HostLba := ⟨List.replicate (lbaBytes n.lbaf) 0, List.replicate (mdBytes n.lbaf) 0xFF⟩

/-- The active of a switchover sends SWITCH with its highest CSN once every admitted command has completed (R334). -/
def switchNow (s : State) : State :=
  if s.tw.switching ∧ s.tw.active ∧ ¬ s.tw.switchSent ∧ s.cmds.all (fun c => c.stage == .waiting) then
    sendCtrl s.tw.peer 0x05 [s.mx.csn] { s with tw := { s.tw with switchSent := true } }
  else s

/-- After a command left: queue deletions, waiting admin commands and a Sanitize may go on, and data reads get their turn. -/
def afterCompletion (p : Port) (s : State) : State := issueReads p (settleSanitize (settleNs (finishDeletes p (switchNow s))))

/-- Lateness of a read that ran beyond the contingency coverage is its extension for cause 6 (R140). -/
def beyondExt (c : IoCmd) (s : State) : IoCmd × State :=
  if c.ext.any (fun e => e.1 == 6) ∧ c.deadline.any (fun d => decide (d < now s)) then
    let late := now s - c.deadline.getD 0
    let s := { s with fs := { s.fs with exts := s.fs.exts.modify 6 (fun e => (e.1 + 1, e.2 + late)) } }
    let s := if c.ext.all (fun e => e.1 == 6) then updClass c.cls (fun k => { k with extended := k.extended + 1 }) s else s
    ({ c with deadline := some (now s) }, evLatency s)
  else ({ c with ext := c.ext.filter (fun e => e.1 != 6) }, s)

/-- A command ends: its buffers, bookings and reads are released, and its completion entry is posted. -/
def finishCmd (id sct sc dw0 : Nat) (s : State) : State :=
  match findCmd id s with
  | none => s
  | some c0 =>
    let (c, s) := beyondExt c0 s
    let s := dropReaders id (unbook id (putBufs c.bufs s))
    let s := if c.kind = .fixity then (let t := closeFixity (fun k => k == id) s; dgFill t.dg.queue.length t) else s
    let s := { s with
      sh := { s.sh with hostReads := s.sh.hostReads + (if c.kind = .read then 1 else 0),
                        hostWrites := s.sh.hostWrites + (if c.kind = .write then 1 else 0) },
      cmds := s.cmds.filter (fun x => x.id != id),
      mx := { s.mx with ceilWait := s.mx.ceilWait.filter (fun x => x != id) },
      tw := { s.tw with winWait := s.tw.winWait.filter (fun x => x != id) } }
    afterCompletion c.port (postDone c.port c.sq c.cid sct sc dw0 0 (some ⟨c.cls, doneKind c, c.t0, c.deadline, c.ext⟩) s)

/-! Commit of a command (R159, R163, R327). -/

/-- Mark the changes of the grains that hold a poisoned LBA. -/
def markBad (n : Ns) (bad : List Nat) (cs : List Change) : List Change :=
  cs.map (fun c => { c with bad := bad.any (fun x => x / n.k == c.grain) })

/-- The changes of a Dataset Management deallocate: one to a grain, whichever of its ranges cover it (R159, R160). -/
def dsmChanges (n : Ns) (ranges : List (Nat × Nat)) : List Change :=
  ((ranges.flatMap (fun r => grainsOf n r.1 r.2)).eraseDups).map (fun g =>
    ⟨n.nsid, g, (List.range (n.lbasOf g)).map (fun i =>
      let a := g * n.k + i
      if ranges.any (fun r => decide (r.1 ≤ a ∧ a < r.1 + r.2)) then .dealloc else .prior), 0, [], false⟩)

/-- The changes a command commits; data in LBA order. -/
def cmdChanges (n : Ns) (c : IoCmd) : List Change :=
  let data := fun (first : Nat) (a : Nat) => match c.data[a - first]? with
    | some d => LbaVal.data d
    | none => LbaVal.lost
  match c.kind with
  | .write => markBad n c.bad (changesFor n c.slba c.nlb c.stream (data c.slba))
  | .copy => markBad n c.bad (changesFor n c.dst c.nlb 0 (data c.dst))
  | .writeUncor => changesFor n c.slba c.nlb 0 (fun _ => .lost)
  | .writeZeroes => changesFor n c.slba c.nlb 0 (fun _ => .dealloc)
  | .dsm => dsmChanges n c.ranges
  | _ => []

/-- Give a command's buffers to its grains, in order: each grain the buffers its bytes fill. -/
def giveBufs (per : Nat) : List Change → List Nat → List Change
  | [], _ => []
  | c :: t, bs => { c with bufs := bs.take per } :: giveBufs per t (bs.drop per)

/-- The journal records of a command without data are part of its durability (R111). -/
def needsJournal (c : IoCmd) : Bool := match c.kind with
  | .writeUncor | .writeZeroes | .dsm | .flush => true
  | _ => false

/-- A DEALLOC or LOST record of a namespace (of any, for all of them) is not yet durable. -/
def marksPending (nsid : Nat) (s : State) : Bool :=
  (undurable s).any (fun r => (r.typ == 3 || r.typ == 4) && (nsid == 0xFFFFFFFF || r.nsid == nsid))

/-- The sequence of the segment that will carry the records now pending; 0 when none is. -/
def pendSeq (s : State) : Nat :=
  if s.mx.jpend ≠ [] then s.mx.jseq + (if s.mx.jfly.isSome then 2 else 1)
  else match s.mx.jfly with
    | some f => f.1
    | none => 0

/-- Somebody waits for the copies of the staged grains that `f` picks. -/
def holdStaged (f : Staged → Bool) (s : State) : State :=
  { s with mx := { s.mx with staged := s.mx.staged.map (fun (r : Staged) => if f r then { r with hold := true } else r) } }

/-- A command handled as FUA, or a Flush, books the vat copies of the grains it waits for. -/
def bookFua (id csn : Nat) (s : State) : State :=
  let s := holdStaged (fun r => decide (r.csn = csn)) s
  let s := readyForVat (fun r => decide (r.csn = csn)) s
  bookVat (s.mx.staged.filter (fun r => decide (r.csn = csn) && !r.queued && !r.poisoned)) [id] s

/-- MX commits a command: its CSN, its grains, the commit record to a standby; a FUA command's data goes to the vat. -/
def commitCmd (id : Nat) (s : State) : State :=
  match findCmd id s with
  | none => s
  | some c => match findNs c.nsid s with
    | none => s
    | some n =>
      if ceilHeld s then
        flagOn Reg.MX_ERR.CEILHOLD { updCmd id (fun x => { x with stage := .commit }) s with mx := { s.mx with ceilWait := addOnce s.mx.ceilWait id } }
      else if windowHeld s then
        flagOn Reg.TW_ERR.WINHOLD { updCmd id (fun x => { x with stage := .commit }) s with tw := { s.tw with winWait := addOnce s.tw.winWait id } }
      else
        let csn := s.mx.csn + 1
        let s := commitAll csn (giveBufs (Nat.max 1 (grainBytes n.grainCode / 4096)) (cmdChanges n c) c.bufs) s
        let s := updCmd id (fun x => { x with stage := .commit, csn := some csn, bufs := [] }) s
        let s := if c.fua then bookFua id csn s else s
        let s := if needsJournal c ∧ c.fua then updCmd id (fun x => { x with needSeq := pendSeq s }) s else s
        mirror 2 [csn, c.nsid] s

/-- Commits that waited go on, oldest first, while nothing holds them. -/
def retryCommits (s : State) : State :=
  let ids := s.mx.ceilWait ++ s.tw.winWait
  let s := { s with mx := { s.mx with ceilWait := [] }, tw := { s.tw with winWait := [] } }
  ids.foldl (fun t i => commitCmd i t) s

/-! Physical space (R243). -/

/-- Bytes of the stored granules of all namespaces: placed grains at their stored size, staged grains and writes in progress at their raw size. -/
def storedBytes (s : State) : Nat :=
  512 * (sumOf (s.mx.map.map (fun x =>
      if x.2.stored then x.2.glen else if x.2.staged then rawGranules (x.1 / 2 ^ 40) s else 0)) +
    sumOf ((s.cmds.filter (fun c => (c.kind == .write || c.kind == .copy) && c.csn.isNone && c.stage != .waiting)).map (fun c =>
      match findNs c.nsid s with
      | some n => (grainsOf n (if c.kind = .copy then c.dst else c.slba) c.nlb).length * rawGranules c.nsid s
      | none => 0)))

/-- A write to a thin namespace would take the stored granules above the user capacity (log entry 89). -/
def noSpace (n : Ns) (s : State) : Bool := n.thin && decide (s.prov.userCap < storedBytes s)

/-! What a completion waits for. -/

/-- Some grain committed under a CSN is still only staged. -/
def stagedAt (csn : Nat) (s : State) : Bool :=
  s.mx.staged.any (fun r => decide (r.csn = csn) && (r.hold || (let e := getEntry r.nsid r.grain s; e.staged && decide (e.stidx = r.stidx))))

/-- Some grain that a Flush covers is still only staged. -/
def stagedUpTo (nsid csn : Nat) (s : State) : Bool :=
  s.mx.staged.any (fun r => decide (r.csn ≤ csn) && (nsid == 0xFFFFFFFF || r.nsid == nsid) &&
    (r.hold || (let e := getEntry r.nsid r.grain s; e.staged && decide (e.stidx = r.stidx))))

/-- The pair's completions wait for the standby (Table 13.1). -/
def ackNeeded (s : State) : Bool := s.tw.active && s.tw.st == .paired

/-- Host-write bytes held. -/
def dirtyBytes (s : State) : Nat := 4096 * ownerUse 1 s

/-- The dirty cap in bytes, the value in force (Table 2.15). -/
def dirtyCap (s : State) : Nat := inForce Reg.GEN_DRAIN.DIRTYCAP s * 2 ^ 20

/-- The completion rule: CSN assigned; the peer's acknowledgement; FUA copies and records durable; acknowledgements held under a lowered cap. -/
def mayComplete (c : IoCmd) (s : State) : Bool :=
  c.stage == .commit && decide (c.needSeq ≤ s.mx.jseq) &&
  (match c.kind with
    | .flush => !stagedUpTo c.nsid c.flushCsn s
    | _ => match c.csn with
      | none => false
      | some n => (c.acked || !ackNeeded s || decide (n ≤ s.tw.ack)) && (!c.fua || !stagedAt n s) && decide (dirtyBytes s ≤ dirtyCap s))

end Sys2Proof.Machine
end

