-- ==== Sys2Proof/Machine/Admit.lean ====
section
/-! DEFINITION. Admission of I/O commands: bounds, extensions known at fetch, buffers, the plan of frets, refusals with their estimate, and what
an admitted command does first (R109 to R112, R130 to R136, R142, R145, R149, R186, R419). -/
namespace Sys2Proof.Machine

/-! The command as it arrives. -/

/-- No protection information asked for. -/
def noPr : PrInfo := ⟨false, false, false, false, 0, 0, 0⟩

/-- A command that its header describes, with no operands of its own yet. -/
def ioDraft (h : IoHdr) (kind : IoKind) (s : State) : IoCmd :=
  { id := s.nextCmd, port := h.port, sq := h.sq, cid := h.cid, kind := kind, nsid := h.nsid, slba := 0, nlb := 0, cls := classOfSq h.port h.sq s,
    t0 := t0Of h.port h.sq h.t0 s, deadline := none, ext := [], fua := false, stream := 0, prr := noPr, prw := noPr, dst := 0, ranges := [], alg := 0,
    stage := .media, data := [], views := [], owed := [], csn := none, flushCsn := 0, acked := false, needSeq := 0, bufs := [],
    addrs := [], mdAddrs := [], reads := 0, toRead := 0, parts := [], bad := [], planEnd := 0, soft := [], looked := false, slow := 0 }

/-- FUA as asked, or as the cache setting makes the Y9 handle a command that changes data (R110). -/
def asFua (fua : Bool) (s : State) : Bool := fua || !s.sh.wce || writeThrough s

/-- Kinds that read media before anything else. -/
def readKind : IoKind → Bool
  | .read | .verify | .copy | .fixity => true
  | _ => false

/-- Kinds that change data. -/
def changeKind : IoKind → Bool
  | .write | .writeUncor | .writeZeroes | .dsm | .copy => true
  | _ => false

/-- The bound of Table 5.3 in µs. -/
def boundUs (e : LatClass) (c : IoCmd) (s : State) : Nat :=
  let w := if c.fua then e.fuaBound else if ackNeeded s then e.wrBoundT else e.wrBound
  match c.kind with
  | .read => if c.fua then e.fuaBound else e.rdBound
  | .verify | .fixity => e.rdBound
  | .flush => e.fuaBound
  | .copy => e.rdBound + w
  | _ => w

/-- The extension known at fetch, which admission counts on (R134): a doorbell that ended PS3 or PS4. -/
def knownExt (h : IoHdr) (s : State) : List (Nat × Nat) :=
  match s.sh.wake with
  | some (t, cause) => if t = t0Of h.port h.sq h.t0 s then [(cause, if cause = 5 then 5000000 else 300000)] else []
  | none => []

/-- Extensions that have come about before admission (Table 5.6): a slow read of the entry, and stays of the port that its T0 precedes. -/
def pastExt (h : IoHdr) (s : State) : List (Nat × Nat) :=
  (if h.slowNs = 0 then [] else [(0, h.slowNs)]) ++
  (((s.port h.port).stays.filter (fun x => decide (t0Of h.port h.sq h.t0 s < x.2.1))).map (fun x => (x.1, x.2.2)))

/-! Resources. -/

/-- Buffers a command takes and their owner: host read in SRAM, host write in DRAM; one for each 4 KiB (R278, Table 11.2). -/
def bufNeed (c : IoCmd) (bytes : Nat) : Nat × Nat :=
  match c.kind with
  | .read | .verify | .fixity => (0, units4k bytes)
  | .write | .copy => (1, units4k bytes)
  | _ => (0, 0)

/-- Staged grains a Flush waits for. -/
def flushGrains (nsid csn : Nat) (s : State) : List Staged :=
  s.mx.staged.filter (fun r => decide (r.csn ≤ csn) && (nsid == 0xFFFFFFFF || r.nsid == nsid) &&
    (let e := getEntry r.nsid r.grain s; e.staged && decide (e.stidx = r.stidx)))

/-- Vat space is needed and none is free on the pairs on vat turn (R186). -/
def vatLacks (c : IoCmd) (s : State) : Bool :=
  (match c.kind with
    | .flush => (flushGrains c.nsid c.flushCsn s).any (fun r => !r.queued)
    | k => changeKind k && c.fua) && decide (vatFree s = 0)

/-- The write would pass the dirty cap (R283). -/
def capLacks (c : IoCmd) (bytes : Nat) (s : State) : Bool :=
  let b := bufNeed c bytes
  b.1 == 1 && decide (dirtyCap s < 4096 * (ownerUse 1 s + b.2))

/-- Buffers for a command, all or nothing. -/
def grantBufs (c : IoCmd) (bytes : Nat) (s : State) : Option (List Nat) × State :=
  let b := bufNeed c bytes
  if b.2 = 0 then (some [], s) else if capLacks c bytes s then (none, s) else bpAlloc b.1 b.2 false s

/-! The page cache (R157). -/

/-- Pages the cache holds. -/
def cachePages (s : State) : Nat := getF Reg.MX_CFG.PGCACHE s * 2 ^ 18

/-- A write needs a page while every page of a full cache is dirty. -/
def cacheLacks (c : IoCmd) (pages : Bool) (s : State) : Bool :=
  changeKind c.kind && pages && decide (cachePages s ≤ (s.mx.cache.filter (·.2.2)).length)

/-- The map pages a command uses. -/
def usedPages (n : Ns) (c : IoCmd) : List Nat :=
  let rs := match c.kind with
    | .flush => []
    | .dsm => c.ranges
    | .copy => [(c.slba, c.nlb), (c.dst, c.nlb)]
    | _ => [(c.slba, c.nlb)]
  (if n.resident then [] else rs.flatMap (fun r => (grainsOf n r.1 r.2).map (fun g => g / 512))).eraseDups

/-- A page that an admitted command waits to look up stays in the cache until then (R157). -/
def pinned (x : Nat × Nat × Bool) (s : State) : Bool :=
  s.cmds.any (fun c => c.stage == .pages && c.nsid == x.1 && (findNs c.nsid s).any (fun n => (usedPages n c).contains x.2.1))

/-- A page is loaded, or used again: it becomes the most recent; a full cache gives up its least recent clean page that is not pinned. A page
that was not there is a miss. -/
def cacheTouch (nsid page : Nat) (s : State) : State :=
  let hit := fun (x : Nat × Nat × Bool) => decide (x.1 = nsid ∧ x.2.1 = page)
  let dirty := s.mx.cache.any (fun x => hit x && x.2.2)
  let rest := s.mx.cache.filter (fun x => !hit x)
  let rest := if cachePages s ≤ rest.length then rest.eraseP (fun x => !x.2.2 && !pinned x s) else rest
  let s := if s.mx.cache.any hit then s else bump Reg.MX_PGMISS.COUNT s
  { s with mx := { s.mx with cache := rest ++ [(nsid, page, dirty)] } }

/-- A command touches a grain whose map line waits to be restored (R294). -/
def heldTouched (n : Ns) (c : IoCmd) (s : State) : Bool :=
  let rs := match c.kind with
    | .flush => []
    | .dsm => c.ranges
    | .copy => [(c.slba, c.nlb), (c.dst, c.nlb)]
    | _ => [(c.slba, c.nlb)]
  s.mx.heldLines.any (fun h => h.1 == n.nsid && rs.any (fun r => decide (0 < r.2 ∧ r.1 / n.k < h.2 + 8 ∧ h.2 ≤ (r.1 + r.2 - 1) / n.k)))

/-- The expected end of a restore in µs from T0: the records of the lag at 80 M a second (R294). -/
def restoreUs (c : IoCmd) (s : State) : Nat := Nat.min ((now s - c.t0) / 1000 + s.mx.lag / 80 + 1) 0xFFFFFFFE

/-! The digest lane of a Fixity Digest (R345, R351, R354). -/

/-- Snoop contexts that hold a lane. -/
def snoopLanes (s : State) : Nat := (s.dg.ctxs.filter (fun c => c.2.st == 2 && c.2.params.any (·.snoop))).length

/-- The lowest context free to open: closed, else ended. -/
def freeCtx (s : State) : Option Nat :=
  match (List.range 64).find? (fun i => (getCtx i s).st == 0) with
  | some i => some i
  | none => (List.range 64).find? (fun i => 4 ≤ (getCtx i s).st)

/-- No lane, or no context, for a Fixity Digest: nothing has a higher PRIO number than 4, so it preempts no one. -/
def laneLacks (c : IoCmd) (s : State) : Bool :=
  c.kind == .fixity && (decide (s.dg.active - 4 ≤ snoopLanes s) || decide (s.dg.active ≤ lanesBusy s) || (freeCtx s).isNone)

/-- A Fixity Digest takes its lane: a snoop context at PRIO 4 over B = N / 128 + 1 blocks. -/
def openFixity (c : IoCmd) (bytes : Nat) (s : State) : State :=
  if c.kind ≠ .fixity then s
  else match freeCtx s with
    | none => s
    | some i =>
      let p : DigestParams := ⟨.fixity c.id, c.alg, true, 4, bytes / 128 + 1, false, [], [], false⟩
      let s := updCtx i (fun _ => { Ctx.closed with st := 2, params := some p, started := s.dg.nextStart }) s
      fitSlots { s with dg := { s.dg with nextStart := s.dg.nextStart + 1 } }

/-! The plan (R134). -/

/-- Bytes a Flush still has to write. -/
def flushBytes (c : IoCmd) (s : State) : Nat := 512 * sumOf (((flushGrains c.nsid c.flushCsn s).filter (fun r => !r.queued)).map (·.glen))

/-- The end of a command that has committed: the mirror runs beside the vat copies. -/
def planCommit (c : IoCmd) (bytes f : Nat) (s : State) : Nat × State :=
  let m := if ackNeeded s ∧ c.kind ≠ .flush then mirrorFrets bytes else 0
  if c.fua ∨ c.kind = .flush then
    let v := bookVatFrets c.id c.cls (c.deadline.getD 0) f bytes s
    (Nat.max (f + m) (v.1 + vatCont bytes) + 1, v.2)
  else (f + m + 1, s)

/-- The media reads of a command whose map pages are still to be read: the largest path of Table 5.5 (log entry 44). -/
def unknownMedia : Nat := 120

/-- Bytes that cross the link: not those QE serves from the CMB. -/
def linkBytes (c : IoCmd) (bytes : Nat) (s : State) : Nat := bytes - cmbLen (cmdParts c s)

/-- The media reads of a command's path: the fret after them, their contingency frets, and the state with the bookings. The pages of a command
whose segment is not held are not known yet. -/
def planMedia (c : IoCmd) (f0 : Nat) (pages : Bool) (s : State) : Nat × Nat × State :=
  if pages then (f0 + unknownMedia, 0, s)
  else
    let rs := pagesOf (mediaOf c.views)
    let r := bookReads c.id c.cls (c.deadline.getD 0) f0 rs s
    (r.1, contPath rs, r.2)

/-- The grains that a command handled as FUA covers in part: their uncovered LBAs are read in its own path, and the merged grain goes to the vat
(R149). -/
def partGrains (n : Ns) (c : IoCmd) : List Nat :=
  let part := fun (slba nlb : Nat) => (grainsOf n slba nlb).filter (fun g => decide (g * n.k < slba) || decide (slba + nlb < g * n.k + n.lbasOf g))
  if ¬ c.fua then []
  else match c.kind with
    | .write | .writeZeroes | .writeUncor => part c.slba c.nlb
    | .copy => part c.dst c.nlb
    | .dsm => ((dsmChanges n c.ranges).filter (fun x => !x.whole)).map (·.grain)
    | _ => []

/-- The merge reads of a command's path, and what follows its commit. -/
def planMerge (n : Ns) (c : IoCmd) (bytes f : Nat) (s : State) : Nat × State :=
  let part := partGrains n c
  let rs := pagesOf ((part.map (fun g => getEntry n.nsid g s)).filter (·.stored))
  let r := bookReads c.id c.cls (c.deadline.getD 0) f rs s
  planCommit c (Nat.max bytes (part.length * grainBytes n.grainCode)) (r.1 + contPath rs) r.2

/-- Place every operation of a command's path: the fret at which its completion entry leaves, and the state with the bookings. -/
def planIo (n : Ns) (c : IoCmd) (bytes : Nat) (pages : Bool) (s : State) : Nat × State :=
  let dl := c.deadline.getD 0
  let f0 := fretNow s + 1 + (if pages then 70 else 0)
  match c.kind with
  | .read | .verify | .fixity =>
    let m := planMedia c f0 pages s
    let f := m.1 + dcReverse bytes m.2.2
    let out := match c.kind with
      | .read => linkBytes c bytes m.2.2
      | .fixity => 64
      | _ => 0
    let l := placeLink c.port true c.id c.cls dl horizonFrets f out m.2.2
    (l.1 + (if out = 0 then 0 else 1) + 1 + m.2.1, l.2)
  | .copy =>
    let m := planMedia c f0 pages s
    planMerge n c bytes (m.1 + dcReverse bytes m.2.2 + dcForward bytes m.2.2 + m.2.1) m.2.2
  | .write =>
    -- one read of at most 4 µs, then the link
    let l := placeLink c.port false c.id c.cls dl horizonFrets f0 (linkBytes c bytes s) s
    planMerge n c bytes (l.1 + dcForward bytes l.2) l.2
  | .flush => planCommit c (flushBytes c s) f0 s
  | _ => planMerge n c 0 f0 s

/-- DW0 of a refusal: the earliest end found, in µs from T0, below 0xFFFFFFFF. -/
def planDw0 (c : IoCmd) (f : Nat) : Nat := Nat.min (ceilDiv (f * 4000 - c.t0) 1000) 0xFFFFFFFE

/-! After admission. -/

/-- The command's lookups take their place in the namespace's order. -/
def lookup (n : Ns) (c : IoCmd) (s : State) : IoCmd :=
  let c := { c with looked := true }
  if readKind c.kind then
    let vs := lookRange n c.slba c.nlb s
    { c with views := vs, owed := vs.filterMap (fun x => match x.2 with
      | .media _ => some x.1
      | _ => none) }
  else c

/-- The data a view yields, for views that need no media. -/
def viewData (n : Ns) : View → Option HostLba
  | .buffered _ d => some d
  | .zero => some (zeroLba n)
  | _ => none

/-- The data of a command's views in LBA order, with the LBAs counted from the first; a media view's data is the copy its lookup named. -/
def cmdData (n : Ns) (c : IoCmd) (s : State) : List HostLba :=
  c.views.map (fun x => match x.2 with
    | .media e => (match (copyAt n.nsid (x.1 / n.k) e s).bind (fun k => k.lbas[x.1 % n.k]?) with
      | some (.data d) => d
      | _ => zeroLba n)
    | v => (viewData n v).getD (zeroLba n))

/-- Some LBA of the views holds a lost mark or flag. -/
def viewsLost (n : Ns) (c : IoCmd) (s : State) : Bool :=
  c.views.any (fun x => match x.2 with
    | .lost => true
    | .media e => (match copyAt n.nsid (x.1 / n.k) e s with
      | some k => k.lbas[x.1 % n.k]? == some .lost
      | none => true)
    | _ => false)

/-- LBAs whose PI is checked: those with data, not deallocated ones (R160). -/
def piLbas (n : Ns) (c : IoCmd) (ds : List HostLba) (s : State) : List (Nat × HostLba) :=
  ((c.views.zip ds).zipIdx.filter (fun x => match x.1.1.2 with
    | .zero => false
    | .media e => (match copyAt n.nsid (x.1.1.1 / n.k) e s with
      | some k => k.lbas[x.1.1.1 % n.k]? != some .dealloc
      | none => false)
    | _ => true)).map (fun x => (x.2, x.1.2))

/-- LBAs of a command whose data stands in poisoned staging buffers (R297). -/
def badViews (c : IoCmd) (s : State) : List Nat :=
  c.views.filterMap (fun x => match x.2 with
    | .buffered i _ => if (findStaged i s).any (·.poisoned) then some x.1 else none
    | _ => none)

/-- Poison is consumed at a line whose address the spec does not state (log entry 90). -/
def consumedHere (s : State) : State := tickFree (poisonConsumed (Config.freeValue s.freeCtr % 2 ^ 48) s)

/-- The parts of an LBA's data and separate metadata that go to the host, at most `m` bytes each (R76); `d` and `x` say that the data, and
the metadata, lie in the CMB. -/
def lbaTlps (m : Nat) (data md : List Byte) (d x : Bool) : List HostLba :=
  (if d then [] else (cutAt m data).map (fun b => ⟨b, []⟩)) ++ (if x then [] else (cutAt m md).map (fun b => ⟨[], b⟩))

/-- The `n` bytes at a position of a transfer all lie in the CMB. -/
def allInCmb (parts : List (Nat × Nat × Nat)) (pos n : Nat) : Bool :=
  parts != [] && (List.range n).all (fun j => (cmbAt parts (pos + j)).isSome)

/-- The data of a Read leaves, LBA by LBA (position, LBA, data): into the CMB where it lies there, else to the host in TLPs of at most MPS
bytes, with EP and counted where it is poisoned. The number of LBAs that left with EP. -/
def readsOut (n : Ns) (c : IoCmd) : List (Nat × Nat × HostLba) → State → Nat × State
  | [], s => (0, s)
  | (i, lba, d) :: t, s =>
    let ep := (badViews c s).contains lba
    let parts := cmdParts c s
    let mparts := mdParts c s
    let bs := lbaStream n c.prr d
    let md := if n.extLba ∨ piStrips n c.prr then [] else d.md
    let at0 := i * lbaMoved n c.prr
    let s := cmbPut c.port mparts (i * md.length) md ep (cmbPut c.port parts at0 bs ep s)
    let tlps := lbaTlps (s.port c.port).mps bs md (allInCmb parts at0 bs.length) (allInCmb mparts (i * md.length) md.length)
    if tlps = [] then readsOut n c t s
    else
      let s := emits (tlps.zipIdx.map (fun x => .hostData c.port c.cid lba x.2 x.1 ep)) s
      let s := if ep then tlps.foldl (fun u _ => bump (portF c.port Reg.HE_EPCNT.A_COUNT Reg.HE_EPCNT.B_COUNT) u) (consumedHere s) else s
      let r := readsOut n c t s
      (r.1 + (if ep then 1 else 0), r.2)

/-- The contingency rounds of a read that has its data are released (R137). -/
def dropClaims (id : Nat) (s : State) : State :=
  { s with fs := { s.fs with bookings := s.fs.bookings.filter (fun b => !(b.cont && b.cmd == some id)) } }

/-- A read-like command has everything it reads: data out, digest or copy, or the failure its data brings (R109, R112, R234, R354). -/
def readsDone (id : Nat) (s : State) : State :=
  match findCmd id s with
  | none => s
  | some c => match findNs c.nsid s with
    | none => finishCmd id 2 0x81 0 s
    | some n =>
      let ds := cmdData n c s
      if viewsLost n c s then finishCmd id 2 0x81 0 s
      else match (if c.kind = .fixity then none else piFirst n c.prr (piLbas n c ds s)) with
        | some sc => finishCmd id 2 sc 0 (piCount sc s)
        | none => match c.kind with
          | .read =>
            let t := readsOut n c ((c.views.zip ds).zipIdx.map (fun x => (x.2, x.1.1.1, x.1.2))) s
            -- a poisoned line that leaves with EP fails the command (Table 3.10)
            if t.1 = 0 then finishCmd id 0 0 0 t.2 else finishCmd id 7 0x84 0 t.2
          | .fixity =>
            if badViews c s ≠ [] then finishCmd id 7 0x84 0 (consumedHere s)
            else
              let d := (shaDigest c.alg (ds.flatMap (·.data))).map (·.toNat)
              finishCmd id 0 0 0 (dataOut c.port c.cid c.addrs (d ++ List.replicate (64 - d.length) 0) s)
          | .copy =>
            let bad := (badViews c s).map (fun x => x - c.slba + c.dst)
            dropReaders id (dropClaims id (updCmd id (fun x => { x with data := ds, bad := bad, stage := .forward }) s))
          | _ => finishCmd id 0 0 0 s

/-- An admitted command takes its first step. -/
def startCmd (id : Nat) (s : State) : State :=
  match findCmd id s with
  | none => s
  | some c =>
    if readKind c.kind then
      let s := addReaders id c.views s
      if c.owed = [] then readsDone id s else s
    else match c.kind with
      | .write => startData id s
      | .flush =>
        let ids := (flushGrains c.nsid c.flushCsn s).map (·.stidx)
        let s := readyForVat (fun r => ids.contains r.stidx) (holdStaged (fun r => ids.contains r.stidx) s)
        let rs := (flushGrains c.nsid c.flushCsn s).filter (fun r => !r.queued && !r.poisoned)
        -- marks that its namespaces' commits left must be durable too (R112, R165)
        let seq := if marksPending c.nsid s then pendSeq s else 0
        updCmd id (fun x => { x with stage := .commit, needSeq := seq }) (bookVat rs [id] s)
      | _ => commitCmd id s

/-! Admission (R134 to R136). -/

/-- The pages a command has looked up become the most recent of the cache (R157). -/
def touchPages (n : Ns) (c : IoCmd) (s : State) : State := (usedPages n c).foldl (fun t p => cacheTouch n.nsid p t) s

/-- An admitted command joins the commands in flight, with its extensions counted. -/
def admitted (n : Ns) (c : IoCmd) (pages : Bool) (ext : List (Nat × Nat)) (s : State) : State :=
  let c' : IoCmd := { c with stage := if pages then .pages else .media, deadline := c.deadline.map (fun d => d - sumOf (ext.map (·.2))) }
  let s := updClass c.cls (fun k => { k with admitted := k.admitted + 1 })
    { s with cmds := s.cmds ++ [c'], nextCmd := s.nextCmd + 1 }
  let s := ext.foldl (fun t e => extend c.id e.1 e.2 t) s
  if pages then s else startCmd c.id (touchPages n c s)

/-- Admission of a command on LC0 to LC6. -/
def admitBound (h : IoHdr) (n : Ns) (c : IoCmd) (bytes : Nat) (pages : Bool) (s : State) : State :=
  match classRow c.cls s with
  | none => s
  | some e =>
    let known := knownExt h s
    let past := pastExt h s
    let c := { c with deadline := some (c.t0 + 1000 * boundUs e c s + sumOf (known.map (·.2))) }
    if vatLacks c s then ioRefuse h 0xFFFFFFFE (flagOn Reg.MM_ERR.VATFULL { s with mm := { s.mm with boost := true } })
    else if laneLacks c s ∨ cacheLacks c pages s then ioRefuse h (planDw0 c (planIo n c bytes pages s).1) s
    else if heldTouched n c s then ioRefuse h (restoreUs c s) s
    else match grantBufs c bytes s with
      | (none, s1) => ioRefuse h (planDw0 c (planIo n c bytes pages s).1) s1
      | (some is, s1) =>
        let p := planIo n c bytes pages s1
        if c.deadline.getD 0 < p.1 * 4000 ∨ ¬ withinHorizon c.id p.2 then ioRefuse h (planDw0 c p.1) (putBufs is s1)
        else
          let s := p.2
          let s := if h.slowNs = 0 then s
            else setSat Reg.QE_HOSTXS.LAST (h.slowNs / 1000) (bump Reg.QE_HOSTXS.COUNT s)
          let c := { c with bufs := is, planEnd := p.1, deadline := c.deadline.map (· + sumOf (past.map (·.2))) }
          admitted n c pages (known ++ past) (openFixity c bytes s)

/-- An LC7 command with everything it needs is placed; `none` when it has to wait. -/
def tryLc7 (n : Ns) (c : IoCmd) (bytes : Nat) (pages : Bool) (s : State) : Option (IoCmd × State) :=
  if vatLacks c s ∨ laneLacks c s ∨ cacheLacks c pages s ∨ heldTouched n c s then none
  else match grantBufs c bytes s with
    | (none, _) => none
    | (some is, s1) =>
      let p := planIo n c bytes pages s1
      if withinHorizon c.id p.2 then some ({ c with bufs := is }, openFixity c bytes p.2) else none

/-- Another LC7 command of the same queue waits: entries of a queue are admitted one at a time, in fetch order (R136). -/
def queueWaits (c : IoCmd) (s : State) : Bool := s.cmds.any (fun x => decide (x.port = c.port ∧ x.sq = c.sq) && x.stage == .waiting)

/-- An LC7 command waits. -/
def waitLc7 (c : IoCmd) (s : State) : State := { s with cmds := s.cmds ++ [{ c with stage := .waiting }], nextCmd := s.nextCmd + 1 }

/-- Admission of a command on LC7. -/
def admitLc7 (n : Ns) (c : IoCmd) (bytes : Nat) (pages : Bool) (s : State) : State :=
  match tryLc7 n c bytes pages s with
  | some (c, s) => admitted n c pages [] s
  | none => waitLc7 c s

/-- Map pages an admitted command's lookups need. -/
def needPages (n : Ns) (c : IoCmd) (s : State) : List Nat :=
  match c.kind with
  | .dsm => c.ranges.flatMap (fun r => pagesMissing n r.1 r.2 s)
  | .copy => pagesMissing n c.slba c.nlb s ++ pagesMissing n c.dst c.nlb s
  | .flush => []
  | _ => pagesMissing n c.slba c.nlb s

/-- Namespaces whose reports a command delivers. -/
def reportsOn (c : IoCmd) (x : Nat) : Bool := c.nsid == 0xFFFFFFFF || c.nsid == x

/-- Steps 10 and 11 of Table 4.13a. -/
def admission (h : IoHdr) (n : Ns) (c : IoCmd) (bytes : Nat) (s : State) : State :=
  if c.cls = 7 ∧ queueWaits c s then waitLc7 c s
  else
    let pages := !(needPages n c s).isEmpty
    let c := if pages then c else lookup n c s
    if ¬ pages ∧ reportDue h.port (reportsOn c) s then ioFail h 7 0x81 0 (deliverReports h.port (reportsOn c) s)
    else if c.cls = 7 then admitLc7 n c bytes pages s
    else admitBound h n c bytes pages s

/-! The whole path of a command. -/

/-- What a command is checked against: its own field check (step 5), ranges (step 6), bytes against MDTS and its class, bytes across the data
pointer, the metadata lengths, and the status that step 8 gives Fixity Digest. -/
structure IoPlan where
  cmd : IoCmd
  fieldsOk : Ns → Option (Nat × Nat)
  ranges : List (Nat × Nat)
  /-- Bytes moved. -/
  bytes : Ns → Nat
  /-- Bytes across the data pointer. -/
  moved : Ns → Nat
  md : Ns → Option MdUse

/-- A command that moves data within MDTS and has valid PRINFO. -/
def dataFields (nlb : Nat) (pr : PrInfo) (n : Ns) : Option (Nat × Nat) :=
  if mdtsBytes < nlb * lbaBytes n.lbaf then some (0, 0x02) else if ¬ prValid n pr then some (1, 0x81) else none

/-- A range lies within the namespace. -/
def rangeOk (n : Ns) (r : Nat × Nat) : Bool := decide (r.1 + r.2 ≤ n.nsze)

/-- A command on one namespace: it arrives, takes the checks in order, and is admitted or turned away. -/
def ioRun (h : IoHdr) (mk : State → IoPlan) (s : State) : State :=
  if ¬ rdy h.port s then s
  else
    let s := sqeArrived h.port h.sq s
    let p := mk s
    let c := p.cmd
    match ioTarget h s with
    | .inr e => ioFail h e.1 e.2 0 s
    | .inl n => match p.fieldsOk n with
      | some e => ioFail h e.1 e.2 0 s
      | none =>
        if ¬ p.ranges.all (rangeOk n) then ioFail h 0 0x80 0 s
        else if changeKind c.kind ∧ sealedNs n s then ioFail h 7 0x82 0 s
        else if classBad c.cls (p.bytes n) n s then
          (if c.kind = .fixity ∧ ¬ (¬ n.resident ∧ c.cls ≤ 1) then ioFail h 0 0x02 0 s else ioRefuse h never s)
        else match (if p.moved n = 0 then none else descCheck h.port h.data (p.moved n) (p.md n) s) with
          | some e => ioFail h e.1 e.2 0 s
          | none =>
            let md := ((p.md n).map (·.pieces)).getD []
            admission h n { c with addrs := dataPieces (hostPage h.port s) h.data (p.moved n), mdAddrs := md } (p.bytes n) s

end Sys2Proof.Machine
end

