-- ==== Sys2Proof/Machine/Io.lean ====
section
/-! DEFINITION. The I/O commands and their steps: rows 70, 71, 133 to 146 and 151 of the table. -/
namespace Sys2Proof.Machine

/-! The commands. -/

/-- READ (R17, R94, R134, Table 4.13a). -/
def execRead (h : IoHdr) (slba nlb : Nat) (fua : Bool) (pr : PrInfo) (s : State) : Host.Outcome State Fault Refusal :=
  .next (ioRun h (fun s => {
    cmd := { ioDraft h .read s with slba := slba, nlb := nlb, fua := fua, prr := pr }
    fieldsOk := dataFields nlb pr
    ranges := [(slba, nlb)]
    bytes := fun n => nlb * lbaBytes n.lbaf
    moved := fun n => moveBytes n pr nlb
    md := fun n => mdPair n pr nlb h }) s)

/-- WRITE (R17, R94, R110, R134). -/
def execWrite (h : IoHdr) (slba nlb : Nat) (fua : Bool) (pr : PrInfo) (stream : Nat) (s : State) : Host.Outcome State Fault Refusal :=
  .next (ioRun h (fun s => {
    cmd := { ioDraft h .write s with slba := slba, nlb := nlb, fua := asFua fua s, prw := pr, stream := stream }
    fieldsOk := dataFields nlb pr
    ranges := [(slba, nlb)]
    bytes := fun n => nlb * lbaBytes n.lbaf
    moved := fun n => moveBytes n pr nlb
    md := fun n => mdPair n pr nlb h }) s)

/-- A namespace no command names: what a Flush of all namespaces is admitted against. DESIGN CHOICE: R132 does not say what a map that is not
resident does to a Flush of all namespaces on LC0 or LC1; the model admits it (log entry 110). -/
def allNs : Ns :=
  { nsid := 0xFFFFFFFF, nsze := 0, ncap := 0, lbaf := 0, extLba := false, dps := 0, nmic := 0, grainCode := 0, xts := false, thin := false,
    nguid := 0, eui := 0, attached := [], sealInfo := none, opcsn := 0, migrated := false, ingesting := false, owner := true, moving := false,
    resident := true, lastCsn := 0, leaving := [], formatting := false, keyGen := 0, cekey := false, cutAway := false }

/-- A Flush of every namespace takes its place on each (R112, R114). -/
def flushAll (h : IoHdr) (s : State) : State :=
  if ¬ rdy h.port s then s
  else
    let s := sqeArrived h.port h.sq s
    let c := { ioDraft h .flush s with flushCsn := s.mx.csn }
    if ¬ modesAll s.gen.mode then ioFail h 0 0x01 0 s
    else if h.fuse ≠ 0 ∨ ¬ h.reservedZero then ioFail h 0 0x02 0 s
    else if s.sh.sanState = 1 ∨ s.sh.sanState = 3 then ioFail h 0 0x1D 0 s
    else if s.tw.switching then ioFail h 3 0x03 0 s
    else if s.gen.mode = .standby then ioFail h 3 0x02 0 s
    else if s.gen.mode = .ingest then ioFail h 7 0x83 0 s
    else admission h allNs c 0 s

/-- FLUSH (R112). -/
def execFlush (h : IoHdr) (s : State) : Host.Outcome State Fault Refusal :=
  .next (if h.nsid = 0xFFFFFFFF then flushAll h s
    else ioRun h (fun s => {
      cmd := { ioDraft h .flush s with flushCsn := ((findNs h.nsid s).map (·.lastCsn)).getD 0 }
      fieldsOk := fun _ => none
      ranges := []
      bytes := fun _ => 0
      moved := fun _ => 0
      md := fun _ => none }) s)

/-- WRITE_UNCORRECTABLE (R149, R159). -/
def execWriteUncorrectable (h : IoHdr) (slba nlb : Nat) (s : State) : Host.Outcome State Fault Refusal :=
  .next (ioRun h (fun s => {
    cmd := { ioDraft h .writeUncor s with slba := slba, nlb := nlb, fua := asFua false s }
    fieldsOk := fun _ => none
    ranges := [(slba, nlb)]
    bytes := fun _ => 0
    moved := fun _ => 0
    md := fun _ => none }) s)

/-- WRITE_ZEROES (R111, R159, R160): the range is deallocated whether DEAC is set or not. -/
def execWriteZeroes (h : IoHdr) (slba nlb : Nat) (fua _deac : Bool) (pr : PrInfo) (s : State) : Host.Outcome State Fault Refusal :=
  .next (ioRun h (fun s => {
    cmd := { ioDraft h .writeZeroes s with slba := slba, nlb := nlb, fua := asFua fua s }
    fieldsOk := fun n => if prValid n pr then none else some (1, 0x81)
    ranges := [(slba, nlb)]
    bytes := fun _ => 0
    moved := fun _ => 0
    md := fun _ => none }) s)

/-- A Dataset Management without deallocate has no effect and completes. -/
def dsmHint (h : IoHdr) (ranges : List (Nat × Nat)) (s : State) : State :=
  if ¬ rdy h.port s then s
  else
    let s := sqeArrived h.port h.sq s
    match ioTarget h s with
    | .inr e => ioFail h e.1 e.2 0 s
    | .inl n =>
      if ranges = [] ∨ 256 < ranges.length then ioFail h 0 0x02 0 s
      else if ¬ ranges.all (rangeOk n) then ioFail h 0 0x80 0 s
      else if classBad (classOfSq h.port h.sq s) 0 n s then ioRefuse h never s
      else match descCheck h.port h.data (16 * ranges.length) none s with
        | some e => ioFail h e.1 e.2 0 s
        | none =>
          if reportDue h.port (fun x => x == n.nsid) s then ioFail h 7 0x81 0 (deliverReports h.port (fun x => x == n.nsid) s)
          else ioFail h 0 0 0 s

/-- DATASET_MANAGEMENT (R94, R160): deallocates up to 256 ranges; the other attributes change nothing. -/
def execDatasetManagement (h : IoHdr) (ad : Bool) (ranges : List (Nat × Nat)) (s : State) : Host.Outcome State Fault Refusal :=
  .next (if ¬ ad then dsmHint h ranges s
    else ioRun h (fun s => {
      cmd := { ioDraft h .dsm s with ranges := ranges, fua := asFua false s }
      fieldsOk := fun _ => if ranges = [] ∨ 256 < ranges.length then some (0, 0x02) else none
      ranges := ranges
      bytes := fun _ => 0
      moved := fun _ => 16 * ranges.length
      md := fun _ => none }) s)

/-- VERIFY (R94, R235). -/
def execVerify (h : IoHdr) (slba nlb : Nat) (pr : PrInfo) (s : State) : Host.Outcome State Fault Refusal :=
  .next (ioRun h (fun s => {
    cmd := { ioDraft h .verify s with slba := slba, nlb := nlb, prr := pr }
    fieldsOk := dataFields nlb pr
    ranges := [(slba, nlb)]
    bytes := fun n => nlb * lbaBytes n.lbaf
    moved := fun _ => 0
    md := fun _ => none }) s)

/-- The descriptor format a Copy uses on an LBA format: 1 with the 64-bit guard, else 0. -/
def copyFormat (n : Ns) : Nat := if mdBytes n.lbaf = 16 then 1 else 0

/-- COPY (R94): one source range, copied to a destination under one CSN. -/
def execCopy (h : IoHdr) (sdlba : Nat) (format : Nat) (ranges : List (Nat × Nat)) (fua : Bool) (prr prw : PrInfo) (s : State) :
    Host.Outcome State Fault Refusal :=
  let src := ranges.headD (0, 0)
  .next (ioRun h (fun s => {
    cmd := { ioDraft h .copy s with slba := src.1, nlb := src.2, dst := sdlba, fua := asFua fua s, prr := prr, prw := prw }
    fieldsOk := fun n =>
      if format ≠ copyFormat n ∨ ranges.length ≠ 1 then some (0, 0x02)
      else match dataFields src.2 prr n with
        | some e => some e
        | none => if prValid n prw then none else some (1, 0x81)
    ranges := [src, (sdlba, src.2)]
    bytes := fun n => src.2 * lbaBytes n.lbaf
    moved := fun n => if copyFormat n = 1 then 40 else 32
    md := fun _ => none }) s)

/-- FIXITY_DIGEST (R109, R354). -/
def execFixityDigest (h : IoHdr) (slba nlb : Nat) (alg : Nat) (s : State) : Host.Outcome State Fault Refusal :=
  .next (ioRun h (fun s => {
    cmd := { ioDraft h .fixity s with slba := slba, nlb := nlb, alg := alg }
    fieldsOk := fun _ => if 3 ≤ alg ∨ 2 ^ 32 < nlb then some (0, 0x02) else none
    ranges := [(slba, nlb)]
    bytes := fun n => nlb * lbaBytes n.lbaf
    moved := fun _ => 64
    md := fun _ => none }) s)

/-! Host data (R77, R142). -/

/-- An issued read is struck off. -/
def dropTag (p : Port) (tag : Nat) (s : State) : State := s.updPort p (fun h => { h with tags := h.tags.filter (fun t => t.tag != tag) })

/-- A read goes out again with one reissue fewer. -/
def reissue (p : Port) (t : Tag) (s : State) : State :=
  let again := fun (x : Tag) => { x with retries := x.retries - 1 }
  emit (.hostRead p t.tag t.use) (s.updPort p (fun h => { h with tags := updFirst h.tags (fun x => x.tag == t.tag) again }))

/-- The last attempt of a read failed: a fetch sets CSTS.CFS, another read fails its command. -/
def readFailed (p : Port) (t : Tag) (s : State) : State :=
  let s := dropTag p t.tag s
  match t.use with
  | .sqe q _ => sqeFailed p (sqeGone p q s)
  | .data c _ => finishCmd c 0 0x04 0 s
  | .list c => finishCmd c 0 0x04 0 s
  | .poll _ _ => s.updCon p (fun c => { c with pollOut := false })

/-- A read failed once: again, or for good. -/
def readRetry (p : Port) (t : Tag) (s : State) : State := if t.retries = 0 then readFailed p t s else reissue p t s

/-- A slow read of a command's data extends it by what the slowest exceeds 4 µs (cause 0); the command is counted once. -/
def slowHost (id ns : Nat) (s : State) : State :=
  match findCmd id s with
  | none => s
  | some c =>
    if ns ≤ c.slow ∨ c.deadline.isNone then s
    else
      let s := updCmd id (fun x => { x with slow := ns }) s
      let s := if c.ext.any (fun e => e.1 == 0) then s else bump Reg.QE_HOSTXS.COUNT s
      setSat Reg.QE_HOSTXS.LAST (ns / 1000) (extend id 0 (ns - c.slow) s)

/-- A part of a command's data is there; with the last one DC takes it. -/
def partArrived (id part : Nat) (lbas : List HostLba) (s : State) : State :=
  let s := updCmd id (fun x => { x with parts := x.parts ++ [(part, lbas)] }) s
  match findCmd id s with
  | none => s
  | some c =>
    if c.parts.length < c.reads then s
    else takeData id ((List.range c.reads).flatMap (fun k => ((c.parts.find? (fun x => x.1 == k)).map (·.2)).getD [])) s

/-- Data of a command arrives: a part brings the LBAs that end in it. A fetch's entry and a poll round's lines arrive with the rows that carry
them. -/
def readArrived (p : Port) (t : Tag) (lbas : List HostLba) (slowNs : Nat) (s : State) : State :=
  match t.use with
  | .data c k => issueReads p (partArrived c k lbas (slowHost c slowNs (dropTag p t.tag s)))
  | .list c => slowHost c slowNs (dropTag p t.tag s)
  | _ => s

/-- HOST_READ_COMPLETION's effect. -/
def hostReadCompletionEff (port : Port) (tag : Nat) (poisoned : Bool) (lbas : List HostLba) (slowNs : Nat) (s : State) : State :=
  match (s.port port).tags.find? (fun t => t.tag == tag) with
  | none => pcieError port aerUnexp true (flagOn (portF port Reg.HE_ERRSTAT.A_UNEXP Reg.HE_ERRSTAT.B_UNEXP) s)
  | some t =>
    if t.dead then issueReads port (dropTag port tag s)
    else if poisoned then readRetry port t (poisonRx port s)
    else readArrived port t lbas slowNs s

/-- HOST_READ_COMPLETION (R76, R77, R142). -/
def execHostReadCompletion (port : Port) (tag : Nat) (poisoned : Bool) (lbas : List HostLba) (slowNs : Nat) (s : State) :
    Host.Outcome State Fault Refusal := .next (hostReadCompletionEff port tag poisoned lbas slowNs s)

/-- HOST_READ_TIMEOUT's effect. -/
def hostReadTimeoutEff (port : Port) (tag : Nat) (s : State) : State :=
  match (s.port port).tags.find? (fun t => t.tag == tag) with
  | none => s
  | some t =>
    let s := pcieError port aerCto false (flagOn (portF port Reg.HE_ERRSTAT.A_CTO Reg.HE_ERRSTAT.B_CTO) s)
    if t.dead then issueReads port (dropTag port tag s) else readRetry port t s

/-- HOST_READ_TIMEOUT (R76, R77). -/
def execHostReadTimeout (port : Port) (tag : Nat) (s : State) : Host.Outcome State Fault Refusal := .next (hostReadTimeoutEff port tag s)

/-! Steps of commands in flight. -/

/-- A command that was admitted is turned away with a deferred write fault: its bookings and buffers go, and no counter of completions moves. -/
def refuseLate (c : IoCmd) (s : State) : State :=
  let s := closeFixity (fun k => k == c.id) (unbook c.id (putBufs c.bufs s))
  let s := { s with cmds := s.cmds.filter (fun x => x.id != c.id) }
  afterCompletion c.port (postCqe c.port c.sq c.cid 7 0x81 0 0 (deliverReports c.port (reportsOn c) s))

/-- MAP_PAGE_LOADED: the pages join the cache; the lookups and the deferred-fault check take place, and the media reads are booked. -/
def mapPageLoadedEff (cmd : Nat) (s : State) : State :=
  match findCmd cmd s with
  | none => s
  | some c =>
    if c.stage ≠ .pages then s
    else match findNs c.nsid s with
      | none => finishCmd cmd 0 0x0B 0 s
      | some n =>
        let s := touchPages n c s
        let c := { lookup n c s with stage := .media }
        if reportDue c.port (reportsOn c) s then refuseLate c s
        else
          let r := bookReads c.id c.cls (c.deadline.getD 0) (fretNow s + 1) (pagesOf (mediaOf c.views)) s
          startCmd cmd (updCmd cmd (fun _ => c) r.2)

/-- MAP_PAGE_LOADED (R134, R157). -/
def execMapPageLoaded (cmd : Nat) (s : State) : Host.Outcome State Fault Refusal := .next (mapPageLoadedEff cmd s)

/-- Bytes a command moves. -/
def cmdBytes (n : Ns) (c : IoCmd) : Nat := if readKind c.kind || c.kind == .write then c.nlb * lbaBytes n.lbaf else 0

/-- The LC7 command of a queue that has waited longest. -/
def firstWaiting (c : IoCmd) (s : State) : Bool :=
  (s.cmds.find? (fun x => decide (x.port = c.port ∧ x.sq = c.sq) && x.stage == .waiting)).map (·.id) == some c.id

/-- LC7_ADMISSION_RETRY: the first command that waits in its queue takes its lookups, if it has not taken them, with the deferred-fault check, and
is admitted once everything is free; one whose namespace has gone is completed so. -/
def lc7AdmissionRetryEff (cmd : Nat) (s : State) : State :=
  match findCmd cmd s with
  | none => s
  | some c =>
    if c.stage ≠ .waiting ∨ ¬ firstWaiting c s then s
    else match (if c.nsid = 0xFFFFFFFF then some allNs else findNs c.nsid s) with
      | none => finishCmd cmd 0 0x0B 0 s
      | some n =>
        if c.nsid ≠ 0xFFFFFFFF ∧ ¬ nsVisible c.port n s then finishCmd cmd 0 0x0B 0 s
        else
          let pages := !(needPages n c s).isEmpty
          let c1 := if pages ∨ c.looked then c else lookup n c s
          if ¬ pages ∧ ¬ c.looked ∧ reportDue c.port (reportsOn c) s then refuseLate c s
          else match tryLc7 n c1 (cmdBytes n c1) pages s with
          | none => updCmd cmd (fun _ => c1) s
          | some (c', s') =>
            let s := updCmd cmd (fun _ => { c' with stage := if pages then .pages else .media }) s'
            let s := updClass c.cls (fun k => { k with admitted := k.admitted + 1 }) s
            if pages then s else startCmd cmd (touchPages n c s)

/-- LC7_ADMISSION_RETRY (R136). -/
def execLc7AdmissionRetry (cmd : Nat) (s : State) : Host.Outcome State Fault Refusal := .next (lc7AdmissionRetryEff cmd s)

/-- The data a write stores: metadata generated where PRACT asks for it. -/
def forwardData (n : Ns) (pr : PrInfo) (ds : List HostLba) : List HostLba :=
  if piStrips n pr then ds.zipIdx.map (fun x => { x.1 with md := piMake n pr x.2 x.1.data }) else ds

/-- DC_FORWARD_DONE: PI checked or generated, the granules mirrored, and MX commits. -/
def dcForwardDoneEff (cmd : Nat) (s : State) : State :=
  match findCmd cmd s with
  | none => s
  | some c =>
    if c.stage ≠ .forward then s
    else match findNs c.nsid s with
      | none => finishCmd cmd 0 0x0B 0 s
      | some n =>
        match (if piStrips n c.prw then none else piFirst n c.prw (c.data.zipIdx.map (fun x => (x.2, x.1)))) with
        | some sc => finishCmd cmd 2 sc 0 (piCount sc s)
        | none =>
          if noSpace n s then finishCmd cmd 0 0x81 0 s else
          let first := if c.kind = .copy then c.dst else c.slba
          let s := updCmd cmd (fun x => { x with data := forwardData n c.prw c.data }) s
          let s := (grainsOf n first c.nlb).foldl (fun t g => mirror 1 [t.mx.csn + 1, c.nsid, g] t) s
          commitCmd cmd s

/-- DC_FORWARD_DONE (R17, R235, R326). -/
def execDcForwardDone (cmd : Nat) (s : State) : Host.Outcome State Fault Refusal := .next (dcForwardDoneEff cmd s)

/-- COMPLETION_POST: once the conditions of R22 hold, the completion entry goes out. -/
def completionPostEff (cmd : Nat) (s : State) : State :=
  match findCmd cmd s with
  | none => s
  | some c => if mayComplete c s then finishCmd cmd 0 0 0 s else s

/-- COMPLETION_POST (R22, R111, R112). -/
def execCompletionPost (cmd : Nat) (s : State) : Host.Outcome State Fault Refusal := .next (completionPostEff cmd s)

/-- PARTIAL_GRAIN_MERGE: uncovered LBAs the merge could not read take lost marks, listed under the cause. -/
def partialGrainMergeEff (stidx : Nat) (unreadableCause : Option Nat) (s : State) : State :=
  match findStaged stidx s with
  | none => s
  | some r =>
    if r.merged then s
    else match unreadableCause with
      | none => mergeStaged stidx s
      | some cause =>
        let k := (r.lbas.zipIdx.filter (fun x => x.1 == .prior)).map (·.2)
        let s := updStaged stidx (fun r => { r with lbas := mergeLbas r.lbas (r.lbas.map (fun _ => .lost)), merged := true }) s
        k.foldl (fun t i => listLost r.nsid (grainSlba r.nsid r.grain t + i) 1 cause r.csn t) s

/-- PARTIAL_GRAIN_MERGE (R149, R150). -/
def execPartialGrainMerge (stidx : Nat) (unreadableCause : Option Nat) (s : State) : Host.Outcome State Fault Refusal :=
  .next (partialGrainMergeEff stidx unreadableCause s)

/-! Read rounds (R137 to R140, R201, R241, R255). -/

/-- Move a booked round of an admitted read out of a window, if the read's whole path still ends by its deadline: the round goes to the next
frets free for it, the command's later transfers as far as they must, and its room is kept current (R124, R140). -/
def moveRound (close : Nat) (b : Booking) (s : State) : Option State :=
  match b.cmd.bind (fun i => findCmd i s), b.line with
  | some c, .die d =>
    -- an LC7 command has no deadline: its operations move freely
    let dl := c.deadline.getD 0
    if ¬ readKind c.kind ∨ c.kind = .copy then none
    else
        let mine := fun (x : Booking) => x.cmd == some c.id
        let chan := fun (x : Booking) => mine x && x.line == .chan (dieChan d) && x.start + x.len == b.start + b.len
        let link := fun (x : Booking) => mine x && (match x.line with
          | .link _ _ => true
          | _ => false)
        let ends := fun (l : List Booking) => maxOf ((l.filter (fun x => mine x && !x.cont && (match x.line with
          | .die _ => true
          | _ => false))).map (fun x => x.start + x.len))
        let out := s.fs.bookings.find? chan
        let links := s.fs.bookings.filter link
        let rest := (s.fs.bookings.erase b).filter (fun x => !chan x && !link x)
        let y := bookRound d close b.len ((out.map (·.len)).getD 1) ((out.map (·.bytes)).getD 0) c.id b.cls b.deadline
          { s with fs := { s.fs with bookings := rest } }
        let late := ends y.2.fs.bookings - ends s.fs.bookings
        let z := placeLink c.port true c.id c.cls dl horizonFrets (minOf (links.map (·.start)) 0 + late) (sumOf (links.map (·.bytes))) y.2
        let e := c.planEnd + (if links = [] then late else z.1 - maxOf (links.map (fun x => x.start + x.len)))
        if c.deadline.isNone ∨ e * 4000 ≤ dl then some (updCmd c.id (fun x => { x with planEnd := e }) z.2) else none
  | _, _ => none

/-- Operations of a window that give way to a claim beyond its contingency rounds: background work first, then LC7 work, then operations of
admitted commands within their room (R140). The frets freed, and the state. -/
def displace (d opens close : Nat) (s : State) : Option (Nat × Nat × State) :=
  let inWin := fun (b : Booking) => b.line == .die d && decide (opens ≤ b.start ∧ b.start < close) && !b.cont
  let gone := fun (b : Booking) => (b.start, b.len, { s with fs := { s.fs with bookings := s.fs.bookings.erase b } })
  match s.fs.bookings.find? (fun b => inWin b && b.cmd.isNone) with
  | some b => some (gone b)
  | none => match s.fs.bookings.find? (fun b => inWin b && b.cls == 7) with
    | some b => some (((moveRound close b s).map (fun t => (b.start, b.len, t))).getD (gone b))
    | none => (s.fs.bookings.filter inWin).findSome? (fun b => (moveRound close b s).map (fun t => (b.start, b.len, t)))

/-- Book a contingency round, under the class and the deadline of its command (R124). -/
def bookClaim (cmd d start len : Nat) (s : State) : State :=
  let c := findCmd cmd s
  book ⟨.die d, start, len, 0, some cmd, (c.map (·.cls)).getD 7, (c.bind (·.deadline)).getD 0, true, false⟩ s

/-- Windows of a die that have not opened. -/
def comingWindows (d : Nat) (s : State) : List Window := (windowsOf d s).filter (fun w => decide (fretNow s ≤ w.opens))

/-- A claim takes a reserved round of a window: where the round starts, and the state. -/
def takeSlot (w : Window) (s : State) : Nat × State :=
  let same := fun (x : Window) => decide (x.die = w.die ∧ x.opens = w.opens)
  (w.next + w.claimed * contRound, { s with fs := { s.fs with windows := updFirst s.fs.windows same (fun x => { x with claimed := x.claimed + 1 }) } })

/-- The earliest round FS can give a claim: a reserved one of a coming window, else in a window opened for it. -/
def earliestRound (d : Nat) (s : State) : Nat × State :=
  match (comingWindows d s).find? (fun w => decide (w.claimed < cSlots w.opens s)) with
  | some w => takeSlot w s
  | none =>
    let o := nextWindow d (fretNow s + 1) contRound s
    (o, { s with fs := { s.fs with windows := s.fs.windows ++ [⟨d, o, 0, o, 1⟩] } })

/-- A claim beyond CSLOTS that displaces nothing runs as early as it can; in time for its read's deadline it is within the bounds, else beyond
coverage (R140). -/
def claimLate (cmd d : Nat) (s : State) : State :=
  let r := earliestRound d s
  let late := (findCmd cmd s).any (fun c => c.deadline.any (fun x => decide (x < (r.1 + contRound) * 4000)))
  let s := bookClaim cmd d r.1 contRound r.2
  if late then
    bump Reg.FS_CONT.BEYOND (updCmd cmd (fun c => { c with ext := if c.ext.any (fun e => e.1 == 6) then c.ext else c.ext ++ [(6, 0)] }) s)
  else s

/-- Claim one contingency round on a die for a read: on free frets of an idle die; in its next window, which a claim may open; past CSLOTS by
displacement; else in the earliest round there is. -/
def claimRound (cmd d : Nat) (s : State) : State :=
  let s := bump Reg.FS_CONT.CLAIMS s
  if ¬ inSegments d s then
    bookClaim cmd d (lineFree s.fs.bookings (.die d) contRound (s.fs.bookings.length + 1) (fretNow s + 1)) contRound s
  else match comingWindows d s with
  | [] => let r := earliestRound d s; bookClaim cmd d r.1 contRound r.2
  | w :: _ =>
    if w.claimed < cSlots w.opens s then let r := takeSlot w s; bookClaim cmd d r.1 contRound r.2
    else match displace d w.opens (w.close s) s with
      | some (f, n, s2) => bump Reg.FS_CONT.DISPL (bookClaim cmd d f n s2)
      | none => claimLate cmd d s

/-- Soft re-reads of an LBA claimed so far. -/
def softCount (c : IoCmd) (lba : Nat) : Nat := ((c.soft.find? (fun x => x.1 == lba)).map (·.2)).getD 0

/-- A soft re-read is claimed on the failing die. -/
def claimSoft (cmd lba d : Nat) (s : State) : State :=
  claimRound cmd d (updCmd cmd (fun c =>
    { c with soft := c.soft.filter (fun x => x.1 != lba) ++ [(lba, softCount c lba + 1)] }) s)

/-- The read has room for another soft re-read: one in any case, up to three with more room than a contingency path (R138). DESIGN CHOICE: with room of exactly 35 frets, neither less nor more, no further
one (log entry 115). -/
def softAgain (c : IoCmd) (lba : Nat) : Bool :=
  decide (softCount c lba < 3) && (match c.deadline with
    | some d => decide (c.planEnd + 35 < d / 4000)
    | none => true)

/-- Claims of a failed hard decode (R137, R139). A unit read where it lies: a soft re-read on its die, and a reconstruct round on each survivor.
A unit read as a reconstruct: the Q member, and a soft re-read of the survivor whose decode failed, which the command does not name (log entry
116); with two units missing the soft re-read alone. -/
def claimAll (cmd lba : Nat) (e : MapEntry) (s : State) : State :=
  let soft := claimSoft cmd lba (servingDie e.die s) s
  match groupOfDie e.die s with
  | none => soft
  | some g =>
    let m := g.posOf e.die
    let live := fun (l : List Nat) => l.filter (fun x => !dieFailed x s)
    if e.vhint = 5 then (live [g.die ((m + g.width / 2) % g.width)]).foldl (fun t x => claimRound cmd x t) soft
    else if unitReadable ⟨e.die, e.block, e.page, false, e.glen⟩ s then (live (survivors g m e.page s)).foldl (fun t x => claimRound cmd x t) soft
    else
      let up := survivors g m e.page s
      let s1 := claimSoft cmd lba ((up[Config.freeValue s.freeCtr % Nat.max 1 up.length]?).getD (servingDie e.die s)) (tickFree s)
      let q := servingDie (g.die (posQ g e.page)) s
      if up.contains q ∨ dieFailed q s then s1 else claimRound cmd q s1

/-- An LBA's data has arrived: once nothing is owed the command goes on. When the race of the last LBA with claims is decided, the rounds of the
path that lost are released (R137). -/
def lbaArrived (cmd lba : Nat) (s : State) : State :=
  let raced := (findCmd cmd s).any (fun c => c.soft.any (fun x => x.1 == lba))
  let s := updCmd cmd (fun c => { c with owed := c.owed.filter (fun x => x != lba), soft := c.soft.filter (fun x => x.1 != lba) }) s
  let s := if raced ∧ (findCmd cmd s).any (fun c => c.soft == []) then dropClaims cmd s else s
  match findCmd cmd s with
  | some c => if c.owed = [] then readsDone cmd s else s
  | none => s

/-- LBAs of a command that share the grain of one LBA. -/
def grainLbas (n : Ns) (c : IoCmd) (lba : Nat) : List Nat := c.owed.filter (fun x => x / n.k == lba / n.k)

/-- The grain of an LBA is lost: the views of the command see it so. -/
def viewLost (cmd grain : Nat) (n : Ns) (s : State) : State :=
  updCmd cmd (fun c => { c with views := c.views.map (fun x => if x.1 / n.k = grain then (x.1, .lost) else x) }) s

/-- A successful hard decode: the corrected count, and a refresh past CORRPCT percent of the correction capability 120 (R255). -/
def decodeOk (e : MapEntry) (corrected : Nat) (s : State) : State :=
  let s := if getF Reg.EC_MAXCORR.MAX s < corrected then setSat Reg.EC_MAXCORR.MAX corrected s else s
  if getF Reg.MM_REFR.CORRPCT s * 120 < 100 * corrected then
    wantRefresh (physPlace e.die e.block s).1 (physPlace e.die e.block s).2 s else s

/-- The value of FI_FL. -/
def fiFlWord (s : State) : Nat :=
  fieldsWord [Reg.FI_FL.CHANNEL, Reg.FI_FL.POS, Reg.FI_FL.OP, Reg.FI_FL.BITS, Reg.FI_FL.RATE, Reg.FI_FL.EN] s

/-- What fault injection makes of a hard read round on a die (R395): bit errors above 120, or a dropped response, are a hard-decode failure. -/
def fiRead (d glen : Nat) (result : DecodeResult) (s : State) : DecodeResult × State :=
  let hard : Bool := match result with
    | .ok _ | .hardFail => true
    | _ => false
  let op := getF Reg.FI_FL.OP s
  if s.fi.armed ∧ isOn Reg.FI_FL.EN s ∧ hard ∧ op ≠ 0 ∧ getF Reg.FI_FL.CHANNEL s = dieChan d ∧ getF Reg.FI_FL.POS s = diePos d then
    let r := fiHits 1 (getF Reg.FI_FL.RATE s) (if op = 1 then codewordsFor glen else 1) s
    let s1 := fiInjected r.1 0xF011 (fiFlWord s) r.2
    if r.1 > 0 ∧ (op = 2 ∨ 120 < getF Reg.FI_FL.BITS s) then (.hardFail, s1) else (result, s1)
  else (result, s)

/-- READ_ROUND_DONE on an owed LBA of a command, with the entry its lookup named. -/
def roundDone (cmd lba : Nat) (n : Ns) (e : MapEntry) (c : IoCmd) (result : DecodeResult) (s : State) : State :=
  let at_ := physPlace e.die e.block s
  let s := countRead at_.1 at_.2 (e.vhint == 5) s
  let all := fun (t : State) => (grainLbas n c lba).foldl (fun t x => lbaArrived cmd x t) t
  match result with
  | .ok corrected => all (decodeOk e corrected s)
  | .hardFail => claimAll cmd lba e (bump Reg.EC_HARD.FAIL s)
  | .softOk _ => all (wantRefresh at_.1 at_.2 (bump Reg.EC_SOFT.OK s))
  | .softFail =>
    let s := bump Reg.EC_SOFT.FAIL s
    if softAgain c lba then claimSoft cmd lba (servingDie e.die s) s else s
  | .reconstructed =>
    -- with another unit of the stripe missing, P and Q were both needed (R139)
    let two := (groupOfDie e.die s).any (fun g => g.missing.any (fun m => g.die m != e.die))
    let s := bump Reg.SP_RECON.UNITS (if two then bump Reg.SP_RECON.TWOMISS s else s)
    all (wantRefresh at_.1 at_.2 s)
  | .formatError => claimAll cmd lba e (flagOn Reg.DC_ERR.FMT (bump Reg.DC_FMTERR.COUNT s))
  | .formatErrorAgain =>
    let s := bump Reg.DC_FMTERR.UNREC s
    let s := if sameLoc (getEntry n.nsid (lba / n.k) s) e ∧ (getEntry n.nsid (lba / n.k) s).stored then loseStored n.nsid (lba / n.k) 5 s else s
    all (viewLost cmd (lba / n.k) n s)
  | .missingThree =>
    let s := if e.vhint = 5 then (if getEntry n.nsid (lba / n.k) s = e then loseStored n.nsid (lba / n.k) 4 s else s)
      else if sameLoc (getEntry n.nsid (lba / n.k) s) e then threeMissing [(n.nsid, lba / n.k)] s
      else flagOn Reg.SP_ERR.THREEMISS (bump Reg.SP_LOSTCNT.POSITIONS s)
    all (viewLost cmd (lba / n.k) n s)

/-- READ_ROUND_DONE's effect. -/
def readRoundDoneEff (cmd lba : Nat) (result : DecodeResult) (s : State) : State :=
  match findCmd cmd s with
  | none => s
  | some c => match findNs c.nsid s with
    | none => s
    | some n =>
      if ¬ c.owed.contains lba then s
      else match c.views.find? (fun x => x.1 == lba) with
        | some (_, .media e) => let r := fiRead (servingDie e.die s) e.glen result s; roundDone cmd lba n e c r.1 r.2
        | _ => s

/-- READ_ROUND_DONE (R137 to R140, R201, R227, R241, R255, R395). -/
def execReadRoundDone (cmd : Nat) (lba : Nat) (result : DecodeResult) (s : State) : Host.Outcome State Fault Refusal :=
  .next (readRoundDoneEff cmd lba result s)

end Sys2Proof.Machine
end

