-- ==== Sys2Proof/Machine/Journal.lean ====
section
/-! DEFINITION. The journal, checkpoints and the restore of map lines: rows 158 to 163 of the table (R163 to R170, R294). -/
namespace Sys2Proof.Machine

/-! The journal (R165). -/

/-- A segment is due: 1 ms, 8,192 records, an OPEN record, or a command that needs its records made durable. -/
def flushDue (s : State) : Bool :=
  s.mx.jpend != [] &&
  (decide (s.mx.flushAt + 1000000 ≤ now s) || decide (segmentMax ≤ s.mx.jpend.length) || s.mx.jpend.any (fun r => r.typ == 0x07) ||
    s.cmds.any (fun c => decide (s.mx.jseq < c.needSeq)))

/-- The lag has reached its limit (R170). -/
def replayOver (s : State) : Bool := decide (getF Reg.MX_CKPT.REPLAYMAX s * 2 ^ 30 ≤ s.mx.lag)

/-- MX writes a segment when one is due and the previous one is durable; the journal flush is a commit point (Table 2.15). -/
def journalFlushEff (s : State) : State :=
  if ¬ mediaMode s.gen.mode ∨ s.mx.jfly.isSome ∨ ¬ flushDue s then s
  else
    let s := flagIf (replayOver s) Reg.MX_ERR.REPLAYOVER (commitPoint .journalFlush s)
    { s with mx := { s.mx with
        jfly := some (s.mx.jseq + 1, s.mx.jpend.take segmentMax), jpend := s.mx.jpend.drop segmentMax, flushAt := now s } }

/-- JOURNAL_FLUSH (R165, R51). -/
def execJournalFlush (s : State) : Host.Outcome State Fault Refusal := .next (journalFlushEff s)

/-- The new ceiling that records carry, if any (R163). -/
def ceilOf (rs : List JRec) : Option Nat := ((rs.filter (fun r => r.typ == 0x0B)).getLast?).map (·.a)

/-- JOURNAL_SEGMENT_DURABLE: sequence, ceiling and highest CSN move; opened barrels may be programmed, erased ones are free, and commits held
at the ceiling go on. -/
def journalSegmentDurableEff (copyFailed : Bool) (s : State) : State :=
  match s.mx.jfly with
  | none => s
  | some (seq, recs) =>
    let last := lastCsnOf recs
    let ceil := (ceilOf recs).getD s.mx.ceil
    let s := flagIf copyFailed Reg.MX_ERR.JNLCOPY s
    let s := { s with
      mx := { s.mx with
        jfly := none, jseq := seq, jlast := if last = 0 then s.mx.jlast else last, ceil := ceil,
        ceilPend := if (ceilOf recs).isSome then none else s.mx.ceilPend },
      nand := { s.nand with ceil := ceil, segs := s.nand.segs ++ [⟨seq, recs, 2⟩] } }
    retryCommits (freeErased (openDurable recs (segmentPages seq recs.length s)))

/-- JOURNAL_SEGMENT_DURABLE (R163, R165, R166, R192). -/
def execJournalSegmentDurable (copyFailed : Bool) (s : State) : Host.Outcome State Fault Refusal := .next (journalSegmentDurableEff copyFailed s)

/-! Checkpoints (R168 to R170, R196). -/

/-- A sweep starts: its replay point is at most the present end of the durable journal; the start is a commit point. -/
def sweepStart (s : State) : State :=
  let s := commitPoint .sweepStart s
  { s with mx := { s.mx with
      sweep := some (rootNow false (nextSweep s) (s.mx.jseq + 1) s), dirty := false } }

/-- CHECKPOINT_SWEEP_START: as soon as something that a sweep writes is dirty. -/
def checkpointSweepStartEff (s : State) : State :=
  if mediaMode s.gen.mode ∧ s.mx.sweep.isNone ∧ s.mx.dirty then sweepStart s else s

/-- CHECKPOINT_SWEEP_START (R169, R51). -/
def execCheckpointSweepStart (s : State) : Host.Outcome State Fault Refusal := .next (checkpointSweepStartEff s)

/-- SWEEP_TIMEOUT: no later than 10 s after the previous root. -/
def sweepTimeoutEff (s : State) : State :=
  if mediaMode s.gen.mode ∧ s.mx.sweep.isNone ∧ s.mx.rootAt + 10000000000 ≤ now s then sweepStart s else s

/-- SWEEP_TIMEOUT (R169). -/
def execSweepTimeout (s : State) : Host.Outcome State Fault Refusal := .next (sweepTimeoutEff s)

/-- The segment that holds the COMMIT record of a staged grain: a durable one, else none before the end of the journal. -/
def commitSeq (r : Staged) (s : State) : Nat :=
  ((s.nand.segs.find? (fun g => g.recs.any (fun x => decide (x.typ = 0x01 ∧ x.nsid = r.nsid ∧ x.key = r.grain ∧ x.a = r.csn)))).map (·.seq)).getD
    (s.mx.jseq + 1)

/-- The replay point of a root: the sweep's start, or the COMMIT record of the oldest grain still staged. -/
def replayPoint (start : Nat) (s : State) : Nat := minOf (s.mx.staged.map (fun r => commitSeq r s)) start |>.min start

/-- V4 barrels whose pages the sweep has written again get their RACKDONE record (R196). -/
def v4Done (s : State) : State :=
  let done := (s.mm.racking.filter (fun x => decide (2 ^ 34 ≤ x.1))).map (fun x => x.1 - 2 ^ 34)
  let s := { s with mm := { s.mm with racking := s.mm.racking.filter (fun x => decide (x.1 < 2 ^ 34)) } }
  done.foldl (fun t n => jAppend (jRackDone n t.mx.csn) { t with mm := { t.mm with rackdone := addOnce t.mm.rackdone n } }) s

/-- SWEEP_ROOT_DURABLE: the root over what the sweep wrote is the newest; SWEEPS, the replay point and the lag move; segments no root needs go. -/
def sweepRootDurableEff (copyFailed : Bool) (s : State) : State :=
  match s.mx.sweep with
  | none => s
  | some r0 =>
    let again := s.mx.dirty
    let seq := replayPoint r0.replaySeq s
    let s := rootDurable (rootNow false r0.sweep seq s) (flagIf copyFailed Reg.MX_ERR.ROOTCOPY s)
    let keep := minOf (s.nand.roots.map (·.replaySeq)) seq
    let s := { s with
      nand := { s.nand with segs := s.nand.segs.filter (fun g => decide (keep ≤ g.seq)) },
      mx := { s.mx with dirty := again, lag := lagFrom seq s, cache := s.mx.cache.map (fun x => (x.1, x.2.1, false)) } }
    v4Done (flagIf (replayOver s) Reg.MX_ERR.REPLAYOVER s)

/-- SWEEP_ROOT_DURABLE (R169, R170, R196). -/
def execSweepRootDurable (copyFailed : Bool) (s : State) : Host.Outcome State Fault Refusal := .next (sweepRootDurableEff copyFailed s)

/-! Map lines (R294). -/

/-- The grains of a map line. -/
def lineGrains (nsid grain : Nat) (s : State) : List Nat :=
  let n := ((findNs nsid s).map (·.grains)).getD 0
  ((List.range 8).map (fun i => grain / 8 * 8 + i)).filter (fun g => decide (g < n))

/-- MAP_LINE_RESTORED: the line is held no longer; if its checkpoint copy could not be read, its grains are lost with cause 6 and asked of the
peer. -/
def mapLineRestoredEff (nsid grain : Nat) (readable : Bool) (s : State) : State :=
  if ¬ s.mx.heldLines.contains (nsid, grain / 8 * 8) then s
  else
    let s := { s with mx := { s.mx with heldLines := s.mx.heldLines.filter (fun x => x != (nsid, grain / 8 * 8)) } }
    if readable then s
    else (lineGrains nsid grain s).foldl (fun t g =>
      let e := getEntry nsid g t
      if e.lost then t
      else if ¬ e.staged then loseStored nsid g 6 t
      else (match findStaged e.stidx t with
        | some r => askRepair nsid g r.csn (releaseStaged r.stidx (markLost nsid g 6 r.csn t))
        | none => t)) s

/-- MAP_LINE_RESTORED (R294, R227). -/
def execMapLineRestored (nsid grain : Nat) (readable : Bool) (s : State) : Host.Outcome State Fault Refusal :=
  .next (mapLineRestoredEff nsid grain readable s)

end Sys2Proof.Machine
end

