-- ==== Sys2Proof/Machine/Program.lean ====
section
/-! DEFINITION. Programs on the media, the gather timeout, opening a barrel, dies that give no ready, and the fret scheduler's own events:
rows 147 to 150 and 152 to 157 of the table (R122, R126, R128, R161, R185 to R190, R206, R207, R215, R274 to R276, R299). -/
namespace Sys2Proof.Machine

/-- A die runs a program or an erase of its own: its first segment starts (R126). -/
def segStart (d : Nat) (s : State) : State :=
  { s with fs := { s.fs with segs := s.fs.segs.filter (fun x => x.1 != d) ++ [(d, fretNow s + getF Reg.FS_CFG.SEGMAX s)] } }

/-- It has ended, and its result is read: the die's context record is idle. -/
def segEnd (d : Nat) (s : State) : State :=
  ctxCode d .idle { s with fs := { s.fs with segs := s.fs.segs.filter (fun x => x.1 != d), suspended := s.fs.suspended.filter (fun x => x != d) } }

/-! Poisoned grains (R299). -/

/-- The poisoned grains of a row leave it before its first member starts. -/
def withdrawRow (num w : Nat) (r : Row) (s : State) : State :=
  let ids := (s.mx.staged.filter (·.poisoned)).map (·.stidx)
  let bad := r.placed.filter (fun p => p.stidx.any (fun i => ids.contains i))
  let s := updRow num w (fun x => { x with placed := x.placed.filter (fun p => !bad.any (fun q => p.stidx == q.stidx)) }) s
  bad.foldl (fun t p => match p.stidx.bind (fun i => findStaged i t) with
    | some r => withdrawPoisoned r t
    | none => t) s

/-! QLC programs (R187, R275). -/

/-- The program of a member's next wordline: refused by PPTR, or started. -/
def startMember (b : OpenBarrel) (g : Group) (m : Nat) (r : Row) (fresh : Bool) (s : State) : State :=
  let s := if fresh then addRow b.num r (withdrawSel (fun x => x.vintage == b.vintage && x.merged) s) else s
  let s := if r.started.isEmpty then withdrawRow b.num r.w r s else s
  let (d, blk) := rowPlace g m (barrelRow b.num) s
  match programRefused d blk (4 * r.w) s with
  | some why => afterProgram b.num (memberFailed b g r.w m (refuseProgram d blk (4 * r.w) why s))
  | none =>
    let s := updBlk d blk (fun x => { x with pptr := 4 * r.w + 4, age := if r.w = 0 then now s else x.age }) s
    let s := updRow b.num r.w (fun x => { x with started := addOnce x.started m }) s
    ctxPut d .programQlc blk (4 * r.w) .confirmed <| segStart d { s with mm := { s.mm with barrels := updFirst s.mm.barrels (fun x => x.num == b.num && x.age == 0) (fun x => { x with age := now s }) } }

/-- WORDLINE_PROGRAM_START's effect: only on an opened barrel of a group that takes QLC programs, by a member in service. -/
def wordlineProgramStartEff (num m : Nat) (s : State) : State :=
  match s.mm.openB.find? (fun b => b.num == num), findGroup (barrelGroup num) s with
  | some b, some g =>
    if ¬ mediaMode s.gen.mode ∨ ¬ b.durable ∨ onTurn g.num s ∨ s.fs.prepared.contains g.num ∨ g.width ≤ m ∨ (g.missing.contains m ∧ ¬ spareServes g m s) then s
    else match nextRowOf b g m s with
      | none => s
      | some (r, fresh) => startMember b g m r fresh s
  | _, _ => s

/-- WORDLINE_PROGRAM_START (R187, R128, R166, R275, R276). -/
def execWordlineProgramStart (barrel member : Nat) (s : State) : Host.Outcome State Fault Refusal := .next (wordlineProgramStartEff barrel member s)

/-- The barrel and row a member's program of a page belongs to. -/
def rowOfProgram (g : Group) (m d b page : Nat) (s : State) : Option (OpenBarrel × Row) :=
  match s.mm.openB.find? (fun x => x.group == g.num && rowPlace g m (barrelRow x.num) s == (d, b)) with
  | none => none
  | some x => (x.rows.find? (fun r => r.w == page / 4 && r.started.contains m && !r.verified.contains m && !r.failed.contains m)).map (fun r => (x, r))

/-! Vat programs (R185). -/

/-- Groups whose turn is over leave it once every vat copy booked on them has run, the earliest first, down to FS_VAT.GROUPS. -/
def departs (s : State) : State :=
  let want := inForce Reg.FS_VAT.GROUPS s
  s.fs.turn.foldl (fun t x =>
    if want < t.fs.turn.length ∧ t.fs.leaving.contains x.1 ∧ ¬ t.mm.vatPages.any (fun v => v.group == x.1) then
      { t with fs := { t.fs with turn := t.fs.turn.filter (fun y => y.1 != x.1), leaving := t.fs.leaving.filter (fun y => y != x.1) } }
    else t) s

/-- The booked vat page whose copy a die programs. -/
def vatPageAt (g : Group) (m b page : Nat) (s : State) : Option VatPage :=
  s.mm.vatPages.find? (fun v => decide (v.group = g.num ∧ v.page = page) && (v.pos == m || v.pos + g.width / 2 == m) &&
    vatBlock g v.pos v.slot s == some b)

/-- Two vat pages are the same page. -/
def sameVat (v w : VatPage) : Bool := decide (v.group = w.group ∧ v.pos = w.pos ∧ v.slot = w.slot ∧ v.page = w.page)

/-- Both copies of a page have verified: grains that no other booked page still owes are durable. -/
def vatPageDone (v : VatPage) (s : State) : State :=
  let s := vatProgrammed (v.group, v.pos, v.slot, v.page) { s with mm := { s.mm with vatPages := s.mm.vatPages.filter (fun w => !sameVat v w) } }
  let owed := fun (t : State) (p : Placed) => t.mm.vatPages.any (fun w => w.placed.any (fun q => q.stidx == p.stidx))
  v.placed.foldl (fun t p => if owed t p then t else storePlaced true p t) s

/-- One copy of a vat page passed or failed. A failure writes both copies of its grains again on another pair and retires the block. -/
def vatCopyDone (g : Group) (m d b : Nat) (v : VatPage) (pass : Bool) (s : State) : State :=
  if pass then
    let ver := addOnce v.verified m
    let s := { s with mm := { s.mm with vatPages := updFirst s.mm.vatPages (sameVat v) (fun w => { w with verified := ver }) } }
    if ver.contains v.pos ∧ ver.contains (v.pos + g.width / 2) then vatPageDone v s else s
  else
    let ids := v.placed.filterMap (·.stidx)
    let strip := fun (w : VatPage) => { w with placed := w.placed.filter (fun p => !p.stidx.any (fun i => ids.contains i)) }
    let s := { s with mm := { s.mm with vatPages := (s.mm.vatPages.filter (fun w => !sameVat v w)).map strip } }
    let s := withdrawSel (fun r => ids.contains r.stidx) { s with mx := { s.mx with staged := s.mx.staged.map (fun (r : Staged) =>
      if ids.contains r.stidx then { r with queued := false } else r) } }
    let s := retireBlock d b 0 s
    bookVatOn ((openPairs s).filter (fun x => decide (x ≠ (v.group, v.pos)))) (s.mx.staged.filter (fun r => ids.contains r.stidx && !r.poisoned)) v.cmds s

/-- PROGRAM_VERIFY_DONE's effect. -/
def programVerifyDoneEff (die block page : Nat) (pass : Bool) (s : State) : State :=
  match memberOf die s with
  | none => s
  | some (g, m) =>
    match vatPageAt g m block page s with
    | some v => departs (writeThroughExit (vatCopyDone g m die block v pass (ctxPut die .programSlc block page .idle s)))
    | none => match rowOfProgram g m die block page s with
      | none => s
      | some (x, r) =>
        let s := segEnd die s
        if pass then writeThroughExit (memberPassed x r m s)
        else afterProgram x.num (retireBlock die block 0 (memberFailed x g r.w m s))

/-- PROGRAM_VERIFY_DONE (R161, R185, R188, R190, R204, R206, R207, R393). -/
def execProgramVerifyDone (die block page : Nat) (pass : Bool) (s : State) : Host.Outcome State Fault Refusal :=
  .next (programVerifyDoneEff die block page pass s)

/-! Gathering (R189) and barrels (R166, R187, R192). -/

/-- GATHER_TIMEOUT: a vintage whose oldest grain has waited its timeout goes to the vat; with no page free it stays in staging. -/
def gatherTimeoutEff (vintage : Fin 6) (s : State) : State :=
  let mine := fun (r : Staged) => r.vintage == vintage.val && r.merged
  if mediaMode s.gen.mode ∧ s.mx.staged.any (fun r => mine r && !r.queued && decide (r.born + r.tmo * 500000 ≤ now s)) then
    let s := withdrawSel mine s
    let s := bookVat (waiting vintage.val s) [] s
    if waiting vintage.val s = [] then s else { s with mm := { s.mm with gatherWait := addOnce s.mm.gatherWait vintage.val } }
  else s

/-- GATHER_TIMEOUT (R189). -/
def execGatherTimeout (vintage : Fin 6) (s : State) : Host.Outcome State Fault Refusal := .next (gatherTimeoutEff vintage s)

/-- Granules that wait for barrels of a vintage. -/
def pendingGranules (v : Nat) (s : State) : Nat := sumOf ((pendingFor v s).map (fun p => p.dst.glen))

/-- Fewer barrels are free than a watermark, which counts in units of 16 barrels. -/
def freeBelow (f : Field) (s : State) : Bool := decide (freeBarrels s < 16 * getF f s)

/-- A group may open a barrel (R187, R222, R228). -/
def mayOpen (g : Group) (s : State) : Bool :=
  !g.dissolved && !g.dissolving && g.missing.all (fun m => spareServes g m s) && !onTurn g.num s && !s.mm.openB.any (fun b => b.group == g.num)

/-- A vintage may have a barrel opened for it: below FREECRIT only those of racking, refresh, rebuild and V4 (Table 7.6). -/
def vintageOpens (v : Nat) (s : State) : Bool :=
  (!freeBelow Reg.MM_RACK.FREECRIT s || decide (2 ≤ v)) && (if v = 4 then s.mx.sweep.isSome else decide (0 < pendingGranules v s))

/-- Map pages that differ from what the newest root's tree holds: a sweep writes them, 8 granules each (R153, R169). -/
def dirtyPages (s : State) : Nat :=
  let old := ((newestRoot s).map (·.map)).getD []
  let differs := fun (m : List (Nat × MapEntry)) (e : Nat × MapEntry) => sGet m .initial e.1 != e.2
  (((s.mx.map.filter (differs old)) ++ (old.filter (differs s.mx.map))).map (fun e => e.1 / 512)).eraseDups.length

/-- Granules of a vintage that wait: for V4 those of a sweep that runs. -/
def pendingOf (v : Nat) (s : State) : Nat :=
  if v = 4 then (if s.mx.sweep.isSome then Nat.max 1 (8 * dirtyPages s) else 0) else pendingGranules v s

/-- No vintage that may open a barrel has more data waiting (R187). -/
def mostPending (v : Nat) (s : State) : Bool :=
  [0, 1, 2, 3, 4].all (fun w => !vintageOpens w s || decide (pendingOf w s ≤ pendingOf v s))

/-- BARREL_OPEN: the barrel is named by an OPEN record, and is programmed once that record is durable. -/
def barrelOpenEff (vintage : Fin 5) (group : Nat) (s : State) : State :=
  match findGroup group s with
  | none => s
  | some g =>
    let s := flagIf (freeBelow Reg.MM_RACK.FREECRIT s) Reg.MM_ERR.FREECRIT s
    if ¬ mediaMode s.gen.mode ∨ ¬ mayOpen g s ∨ ¬ vintageOpens vintage.val s ∨ ¬ mostPending vintage.val s then s
    else match freeRow g s with
      | none => s
      | some r =>
        let num := barrelNum group r
        jAppend (jOpen vintage.val num s.mx.csn) { s with mm := { s.mm with
          openB := s.mm.openB ++ [⟨num, group, vintage.val, false, 0, [], false⟩],
          barrels := s.mm.barrels ++ [⟨num, vintage.val, 0, s.mx.csn, false, 0, 0⟩] } }

/-- BARREL_OPEN (R166, R187, R192). -/
def execBarrelOpen (vintage : Fin 5) (group : Nat) (s : State) : Host.Outcome State Fault Refusal := .next (barrelOpenEff vintage group s)

/-! Dies (R215). -/

/-- A command's reads on a die act as hard-decode failures: each claims contingency (R137, R142). -/
def dieReadsFail (cmd die : Nat) (s : State) : State :=
  match findCmd cmd s with
  | none => s
  | some c =>
    let es := (c.views.filterMap (fun x => match x.2 with
      | .media e => if c.owed.contains x.1 ∧ servingDie e.die s = die then some (x.1, e) else none
      | _ => none))
    -- LBAs of one grain share its claims
    (es.filter (fun x => (es.find? (fun y => y.2 == x.2)) == some x)).foldl (fun t x => claimAll cmd x.1 x.2 t) s

/-- READ_READY_TIMEOUT: the reads claim contingency at once; a second timeout with a retrain between fails the die. -/
def readReadyTimeoutEff (die : Nat) (afterRetrain : Bool) (cmd : Option Nat) (s : State) : State :=
  let s := match cmd with
    | some c => dieReadsFail c die s
    | none => s
  if s.sp.suspects.contains die ∧ afterRetrain then
    declareDieFailed die { s with sp := { s.sp with suspects := s.sp.suspects.filter (fun x => x != die) } }
  else { s with sp := { s.sp with suspects := addOnce s.sp.suspects die } }

/-- READ_READY_TIMEOUT (R215, R137). -/
def execReadReadyTimeout (die : Nat) (afterRetrain : Bool) (cmd : Option Nat) (s : State) : Host.Outcome State Fault Refusal :=
  .next (readReadyTimeoutEff die afterRetrain cmd s)

/-- A slot that SP_DIEOUT may name: a spare, or a member of a group with no missing member (Table 8.19). -/
def dieOutOk (d : Nat) (s : State) : Bool :=
  s.sp.spares.contains d || (match memberOf d s with
    | some (g, _) => g.missing.isEmpty && !g.dissolved && !dieFailed d s
    | none => false)

/-- SP_DIEOUT_WRITE: with the key the die is declared failed; else the write is refused with SP_ERR.DIEOUT; KEY
0x0000 writes nothing (R418). -/
def spDieoutWriteEff (who : Writer) (die : Nat) (key : BitVec 16) (s : State) : State :=
  if ¬ setupOpen who s then s
  else if ¬ mayWrite who Reg.SP_DIEOUT.DIE.reg s then genErr Reg.GEN_ERR.OWNWR Reg.SP_DIEOUT.DIE.reg who s
  else if key = 0 then s
  else if key ≠ 0x0D1E ∨ ¬ dieOutOk die s then flagOn Reg.SP_ERR.DIEOUT s
  else declareDieFailed die s

/-- SP_DIEOUT_WRITE (R215, Table 8.19). -/
def execSpDieoutWrite (who : Writer) (die : Nat) (key : BitVec 16) (s : State) : Host.Outcome State Fault Refusal :=
  .next (spDieoutWriteEff who die key s)

/-! The fret scheduler's events. -/

/-- Slewing moves device time against the crystal by at most 4 ns in every 5 frets, 200 ppm, until the offset is gone (R318). A fret is 4,000
ns of device time, so the correction shows in the crystal's count between two fret boundaries. -/
def slewStep (s : State) : State :=
  if fretNow s % 5 ≠ 0 then s
  else
    let x := s.gf.slew
    let y := if 4 ≤ x then x - 4 else if x ≤ -4 then x + 4 else 0
    corrected (x - y) { s with gf := { s.gf with slew := y } }

/-- A die's segments at a fret boundary: where a window opens the next segment follows it, after the suspend; else it follows directly. -/
def nextSeg (s : State) (x : Nat × Nat) : Nat × Nat :=
  let n := fretNow s
  let len := getF Reg.FS_CFG.SEGMAX s
  if n < x.2 then x
  else match s.fs.windows.find? (fun w => decide (w.die = x.1 ∧ w.opens ≤ n + 4 ∧ n < w.close s)) with
    | some w => (x.1, w.close s + len)
    | none => (x.1, n + len)

/-- Dies whose window has closed resume; the resume command writes their context records (R263, R274). -/
def resumeDies (s : State) : State :=
  let n := fretNow s
  let stay := fun (d : Nat) => s.fs.windows.any (fun w => decide (w.die = d ∧ w.opens ≤ n + 5 ∧ n < w.close s))
  let s1 := { s with fs := { s.fs with suspended := s.fs.suspended.filter stay } }
  (s.fs.suspended.filter (fun d => !stay d)).foldl (fun t d => ctxCode d .confirmed t) s1

/-- What a fret boundary brings to the context record of a die with a booking (R263): a read is issued at its first fret and puts its data out in
the frets of its channel booking; an SLC program takes its data in its first fret, is then confirmed, and has its status read at its end. -/
def bookingCtx (s : State) (b : Booking) : State :=
  match b.line with
  | .die d =>
    let n := fretNow s
    let outNow := s.fs.bookings.any (fun c => c.line == .chan (dieChan d) && c.cmd == b.cmd && decide (c.start = n ∧ c.start + c.len = b.start + b.len))
    if b.prog then
      if n = b.start then ctxPut d .programSlc 0 0 .dataIn s
      else if n = b.start + 1 then ctxCode d .confirmed s
      else if n = b.start + b.len ∧ (ctxOf d s).any (fun r => r.code == .confirmed) then ctxCode d .statusPending s
      else s
    else if n = b.start then ctxPut d .read 0 0 .readIssued s
    else if n = b.start + b.len then ctxCode d .idle s
    else if outNow then ctxCode d .dataOut s
    else s
  | _ => s

/-- The context records at a fret boundary: operations that end first, then those that start. -/
def ctxTick (s : State) : State :=
  let ends := fun (b : Booking) => decide (fretNow s = b.start + b.len)
  (s.fs.bookings.filter (fun b => !ends b)).foldl bookingCtx ((s.fs.bookings.filter ends).foldl bookingCtx s)

/-- PCIe injection (R395): how many eligible TLPs left in the fret is not stated, so the injections of a fret are a free value (log entry
52). -/
def fiTlps (s : State) : State :=
  if s.fi.armed ∧ s.gen.mode = .diagnostic ∧ isOn Reg.FI_PCIE.EN s then
    let n := Config.freeValue s.freeCtr
    let s1 := tickFree s
    if n = 0 then s1
    else logEvent 0xF012 0 15 true [fieldsWord [Reg.FI_PCIE.PORT, Reg.FI_PCIE.RATE, Reg.FI_PCIE.EN] s] (bumpBy Reg.FI_CNT.INJECTED n s1)
  else s

/-- FRET_TICK: the next fret boundary. Device time comes to it, lines advance, staged values whose boundary has passed take effect, and what
waited for time goes on. -/
def fretTickEff (s : State) : State :=
  let s := slewStep (advance ((fretNow s + 1) * 4000 - now s) s)
  let s := trimFrets (ctxTick s)
  let s := resumeDies { s with fs := { s.fs with segs := s.fs.segs.map (nextSeg s) } }
  let s := issueReads .b (issueReads .a (commitHorizon s))
  let s := if s.mm.boost ∧ boostEnds s then { s with mm := { s.mm with boost := false } } else s
  fiTlps (settleSanitize (settleNs s))

/-- FRET_TICK (R122, R126, R146, R186, R318, R320, R395). -/
def execFretTick (s : State) : Host.Outcome State Fault Refusal := .next (fretTickEff s)

/-- SUSPEND_REQUEST: CS is asked to suspend a die whose next window is about to open; a die that finished by itself needs none. -/
def suspendRequestEff (die : Nat) (s : State) : State :=
  let due := s.fs.windows.any (fun w => decide (w.die = die ∧ fretNow s ≤ w.opens ∧ w.opens ≤ fretNow s + 5))
  if inSegments die s ∧ due then ctxCode die .suspended { s with fs := { s.fs with suspended := addOnce s.fs.suspended die } } else s

/-- SUSPEND_REQUEST (R274). -/
def execSuspendRequest (die : Nat) (s : State) : Host.Outcome State Fault Refusal := .next (suspendRequestEff die s)

/-- Groups that may come on turn, in ascending number. -/
def turnGroups (s : State) : List Nat :=
  ((s.sp.groups.filter (fun g => !g.dissolved)).map (·.num)).foldl (fun l g => insSlot g l) []

/-- The next group in order after the one that came on turn, or was prepared, last. -/
def nextTurn (s : State) : Option Nat :=
  let last := match s.fs.prepared.getLast? with
    | some g => g
    | none => ((s.fs.turn.getLast?).map (·.1)).getD 0
  let free := (turnGroups s).filter (fun g => !onTurn g s && !s.fs.prepared.contains g)
  match free.find? (fun g => decide (last < g)) with
  | some g => some g
  | none => free.head?

/-- Prepare up to `n` further groups. -/
def prepare : Nat → State → State
  | 0, s => s
  | n + 1, s => match nextTurn s with
    | none => s
    | some g => prepare n { s with fs := { s.fs with prepared := s.fs.prepared ++ [g] } }

/-- Frets of a turn: one QLC wordline program of the reference profile. -/
def turnFrets : Nat := 721

/-- VAT_TURN_END: a commit point; the group leaves when its successor comes on turn; a raised count prepares more groups, a lowered one lets
the earliest go without successors. -/
def vatTurnEndEff (group : Nat) (s : State) : State :=
  match s.fs.turn.find? (fun t => t.1 == group) with
  | none => s
  | some t =>
    if fretNow s < t.2 + turnFrets ∨ s.fs.leaving.contains group then s
    else
      let s := commitPoint .turnEnd s
      let want := inForce Reg.FS_VAT.GROUPS s
      let s := { s with fs := { s.fs with leaving := s.fs.leaving ++ [group] } }
      let stay := (s.fs.turn.filter (fun x => !s.fs.leaving.contains x.1)).map (·.1)
      let have_ := stay.length + s.fs.prepared.length
      let s := { s with fs := { s.fs with leaving := s.fs.leaving ++ stay.take (have_ - want) } }
      departs (prepare (want - have_) s)

/-- VAT_TURN_END (R128, R51). -/
def execVatTurnEnd (group : Nat) (s : State) : Host.Outcome State Fault Refusal := .next (vatTurnEndEff group s)

/-- No member of a group has a QLC wordline program in progress. -/
def atBoundary (group : Nat) (s : State) : Bool :=
  !s.mm.openB.any (fun b => b.group == group && b.rows.any (fun r => r.started.any (fun m => !r.verified.contains m && !r.failed.contains m)))

/-- GROUP_WORDLINE_BOUNDARY: the prepared group comes on turn. -/
def groupWordlineBoundaryEff (group : Nat) (s : State) : State :=
  if s.fs.prepared.contains group ∧ atBoundary group s then
    retryGather (departs { s with fs := { s.fs with
      prepared := s.fs.prepared.filter (fun g => g != group), turn := s.fs.turn ++ [(group, fretNow s)] } })
  else s

/-- GROUP_WORDLINE_BOUNDARY (R128). -/
def execGroupWordlineBoundary (group : Nat) (s : State) : Host.Outcome State Fault Refusal := .next (groupWordlineBoundaryEff group s)

end Sys2Proof.Machine
end

