-- ==== Sys2Proof/Machine/Racking.lean ====
section
/-! DEFINITION. Racking, erases, bottling, refresh and the reclaim of V4 barrels: rows 164 to 172 of the table (R191 to R202). -/
namespace Sys2Proof.Machine

/-! Racking (R192 to R195). -/

/-- A source barrel is being racked. -/
def rackingNow (s : State) : Bool := s.mm.racking.any (fun x => decide (x.1 < 2 ^ 31))

/-- Racking starts below FREELO and takes further sources until FREEHI is reached (Table 7.6; log entry 86). -/
def rackWatch (s : State) : State :=
  { s with mm := { s.mm with rackOn := freeBelow Reg.MM_RACK.FREELO s || (s.mm.rackOn && freeBelow Reg.MM_RACK.FREEHI s) } }

/-- Work for racking: too few free barrels, or a group that dissolves. -/
def rackWanted (s : State) : Bool := s.mm.rackOn || s.sp.groups.any (fun g => g.dissolving && !g.dissolved)

/-- RACKING_START: MM picks the next source and copies its valid grains. -/
def rackingStartEff (unreadable : List (Nat × Nat)) (s : State) : State :=
  let s := rackWatch s
  let s := flagIf (rackMode s.gen.mode && freeBelow Reg.MM_RACK.FREECRIT s) Reg.MM_ERR.FREECRIT s
  if ¬ rackMode s.gen.mode ∨ rackingNow s ∨ ¬ rackWanted s then s
  else match rackSource s with
    | some b => rackBarrel b.num unreadable s
    | none => s

/-- RACKING_START (R192 to R194, R228). -/
def execRackingStart (unreadable : List (Nat × Nat)) (s : State) : Host.Outcome State Fault Refusal := .next (rackingStartEff unreadable s)

/-- A read that looked up a location still waits for its data. -/
def readsPending (f : MapEntry → Bool) (s : State) : Bool :=
  s.cmds.any (fun c => c.views.any (fun x => match x.2 with
    | .media e => c.owed.contains x.1 && f e
    | _ => false))

/-- RACKDONE_DURABLE: the source holds only lees; once the reads that looked into it have their data, its blocks are to be erased. -/
def rackdoneDurableEff (barrel : Nat) (s : State) : State :=
  if ¬ s.mm.rackdone.contains barrel ∨ recPending (fun r => r.typ == 0x06 && r.key == barrel) s ∨ readsPending (fun e => inBarrel barrel e s) s then s
  else
    let s := { s with
      mm := { s.mm with
        rackdone := s.mm.rackdone.filter (fun x => x != barrel),
        barrels := updFirst s.mm.barrels (fun x => x.num == barrel) (fun x => { x with state := 2 }) },
      dg := { s.dg with barrelDigests := s.dg.barrelDigests.filter (·.1 != barrel) } }
    (barrelBlocks barrel s).foldl (fun t x => startErase x.1 x.2 t) s

/-- RACKDONE_DURABLE (R194, R195). -/
def execRackdoneDurable (barrel : Nat) (s : State) : Host.Outcome State Fault Refusal := .next (rackdoneDurableEff barrel s)

/-! Erases (R200, R202). -/

/-- An intent that is appended for a block, in a stage: durable or not. -/
def intentAt (d b : Nat) (durable : Bool) (s : State) : Bool := s.mm.eraseInt.any (fun x => decide (x.1 = d ∧ x.2.1 = b ∧ x.2.2 = durable))

/-- ERASEINT_DURABLE: INTENT is set, and the erase runs in segments. -/
def eraseintDurableEff (die block : Nat) (s : State) : State :=
  if ¬ intentAt die block false s ∨ eraseIntPending die block s then s
  else
    let s := { s with mm := { s.mm with eraseInt := s.mm.eraseInt.map (fun x => if x.1 = die ∧ x.2.1 = block then (x.1, x.2.1, true) else x) } }
    ctxPut die .erase block 0 .confirmed (segStart die (updBlk die block (fun x => { x with intent := true }) s))

/-- ERASEINT_DURABLE (R202). -/
def execEraseintDurable (die block : Nat) (s : State) : Host.Outcome State Fault Refusal := .next (eraseintDurableEff die block s)

/-- ERASE_DONE: the count rises by the one operation; the block is erased, or its sequence ends in retirement with the flag in the record. -/
def eraseDoneEff (die block : Nat) (pass : Bool) (s : State) : State :=
  if ¬ intentAt die block true s then s
  else
    let s := segEnd die { s with mm := { s.mm with eraseInt := s.mm.eraseInt.filter (fun x => decide (¬ (x.1 = die ∧ x.2.1 = block))) } }
    let n := Nat.min ((getBlk die block s).erases + 1) 16777215
    let s := updBlk die block (fun k => { k with erases := n }) s
    if pass then jAppend (jEraseDone die block s.mx.csn n 1 false) (wipeBlock die block s)
    else jAppend (jEraseDone die block s.mx.csn n 1 true) (retireBlock die block 1 s)

/-- ERASE_DONE (R200, R202, R204). -/
def execEraseDone (die block : Nat) (pass : Bool) (s : State) : Host.Outcome State Fault Refusal := .next (eraseDoneEff die block pass s)

/-! The vat (R185, R191). -/

/-- The group and pair position of a die that holds first copies. -/
def pairOf (d : Nat) (s : State) : Option (Group × Nat) :=
  match groupOfDie d s with
  | none => none
  | some g => if g.posOf d < g.width / 2 then some (g, g.posOf d) else none

/-- The valid grains of a vat slot are copied to QLC. -/
def bottleSlot (die slot : Nat) (unreadable : List (Nat × Nat)) (s : State) : State :=
  match pairOf die s with
  | none => s
  | some (g, m) =>
    if s.mm.racking.any (fun x => x.1 == bottleKey die slot) then s
    else
      let ps := validGrains (fun e => inSlot g m slot e s) s
      if ps = [] then s else startCopies (bottleKey die slot) unreadable ps s

/-- A retired vat slot whose host data still waits to be bottled (R205). -/
def retiredWaits (s : State) : Bool :=
  s.mm.vat.any (fun (p : VatPair) => p.retired.any (fun v => !p.gone.contains v && (match findGroup p.group s with
    | some g => !s.mm.racking.any (fun x => x.1 == bottleKey (g.die p.pos) v) && !(validGrains (fun e => inSlot g p.pos v e s) s).isEmpty
    | none => false)))

/-- A slot of the pair of a die is retired. -/
def slotRetired (die slot : Nat) (s : State) : Bool :=
  match pairOf die s with
  | some (g, m) => (getPair g.num m s).retired.contains slot
  | none => false

/-- BOTTLING_START, in the modes that bottle (Table 2.1); what retired slots still hold goes ahead of all other bottling (R205). -/
def bottlingStartEff (die slot : Nat) (unreadable : List (Nat × Nat)) (s : State) : State :=
  if bottleMode s.gen.mode ∧ (slotRetired die slot s ∨ ¬ retiredWaits s) then bottleSlot die slot unreadable s else s

/-- BOTTLING_START (R191, R186). -/
def execBottlingStart (die slot : Nat) (unreadable : List (Nat × Nat)) (s : State) : Host.Outcome State Fault Refusal :=
  .next (bottlingStartEff die slot unreadable s)

/-- A vat slot holds nothing that is still needed. -/
def slotReclaimable (g : Group) (m v : Nat) (s : State) : Bool :=
  (validGrains (fun e => inSlot g m v e s) s).isEmpty &&
  !s.nand.sysPages.any (fun p => decide (p.group = g.num ∧ p.pos = m ∧ p.slot = v) && sysLive p s) && !s.mm.vatPages.any (fun p => decide (p.group = g.num ∧ p.pos = m ∧ p.slot = v)) &&
  !s.mm.racking.any (fun x => x.1 == bottleKey (g.die m) v) && !readsPending (fun e => inSlot g m v e s) s

/-- VAT_SLOT_ERASE: the oldest slot of a pair, or a retired one (R205), once every page in it is reclaimable; a retired block is not erased
again. -/
def vatSlotEraseEff (die slot : Nat) (s : State) : State :=
  match pairOf die s with
  | none => s
  | some (g, m) =>
    let p := getPair g.num m s
    let retired := p.retired.contains slot && !p.gone.contains slot && !p.erasing.contains slot
    if (p.full.head? ≠ some slot ∧ ¬ retired) ∨ ¬ slotReclaimable g m slot s then s
    else match vatBlock g m slot s with
      | none => s
      | some b =>
        let s := putPair { p with full := p.full.filter (fun v => v != slot), erasing := addOnce p.erasing slot } s
        ((vatDies g m s).filter (fun d => !(getBlk d b s).retired)).foldl (fun t d => startErase d b t) s

/-- VAT_SLOT_ERASE (R185, R202). -/
def execVatSlotErase (die slot : Nat) (s : State) : Host.Outcome State Fault Refusal := .next (vatSlotEraseEff die slot s)

/-! Refresh (R198, R199). -/

/-- The age of a barrel's first member block is past SCRUBDAYS. -/
def tooOld (num : Nat) (s : State) : Bool :=
  match (barrelBlocks num s).head? with
  | some x => decide (getF Reg.MM_REFR.SCRUBDAYS s * 86400000000000 < now s - (getBlk x.1 x.2 s).age)
  | none => false

/-- AGE_REFRESH: a barrel that is too old is racked whole. -/
def ageRefreshEff (barrel : Nat) (unreadable : List (Nat × Nat)) (s : State) : State :=
  if refreshMode s.gen.mode ∧ (rackable s).any (fun b => b.num == barrel) ∧ tooOld barrel s then
    bump Reg.MM_REFCNT.AGE (rackBarrel barrel unreadable s) else s

/-- AGE_REFRESH (R198, Table 7.8). -/
def execAgeRefresh (barrel : Nat) (unreadable : List (Nat × Nat)) (s : State) : Host.Outcome State Fault Refusal :=
  .next (ageRefreshEff barrel unreadable s)

/-- The barrel a block is a row block of. -/
def barrelOf (g : Group) (m d b : Nat) (s : State) : Option Nat :=
  ((List.range g.rows).find? (fun r => rowPlace g m r s == (d, b))).map (fun r => barrelNum g.num r)

/-- BLOCK_REFRESH: the valid grains of a flagged block are copied elsewhere; a vat block's are bottled; a barrel being racked needs nothing more. -/
def blockRefreshEff (die block : Nat) (unreadable : List (Nat × Nat)) (s : State) : State :=
  if ¬ refreshMode s.gen.mode ∨ ¬ (getBlk die block s).refresh then s
  else match memberOf die s with
    | none => s
    | some (g, m) => match slotOfBlock g m block s with
      | some (p, v) =>
        if s.mm.racking.any (fun x => x.1 == bottleKey (g.die p) v) then s else bump Reg.MM_REFCNT.BLOCK (bottleSlot (g.die p) v unreadable s)
      | none =>
        let d0 := g.die m
        let b0 := match barrelOf g m die block s with
          | some n => rowBlock g m (barrelRow n) s
          | none => block
        let busy := (barrelOf g m die block s).any (fun n => s.mm.racking.any (fun x => x.1 == n))
        let ps := validGrains (fun e => decide (e.vhint ≠ 5 ∧ e.die = d0 ∧ e.block = b0)) s
        if busy ∨ ps = [] ∨ s.mm.racking.any (fun x => x.1 == refreshKey die block) then s
        else bump Reg.MM_REFCNT.BLOCK (startCopies (refreshKey die block) unreadable ps s)

/-- BLOCK_REFRESH (R199). -/
def execBlockRefresh (die block : Nat) (unreadable : List (Nat × Nat)) (s : State) : Host.Outcome State Fault Refusal :=
  .next (blockRefreshEff die block unreadable s)

/-! V4 barrels (R196). -/

/-- V4_RECLAIM: the pages of the oldest closed V4 barrel are made dirty; the next root leaves it with lees only. -/
def v4ReclaimEff (s : State) : State :=
  let bs := s.mm.barrels.filter (fun b => decide (b.vintage = 4 ∧ b.state = 1) && !s.mm.racking.any (fun x => x.1 == v4Key b.num) && !s.mm.rackdone.contains b.num)
  if ¬ rackMode s.gen.mode then s
  else match oldestBarrel bs with
    | none => s
    | some b => { s with mm := { s.mm with racking := s.mm.racking ++ [(v4Key b.num, [])] }, mx := { s.mx with dirty := true } }

/-- V4_RECLAIM (R196). -/
def execV4Reclaim (s : State) : Host.Outcome State Fault Refusal := .next (v4ReclaimEff s)

end Sys2Proof.Machine
end

