-- ==== Sys2Proof/Machine/Parity.lean ====
section
/-! DEFINITION. Stripe-journal snapshots, rebuild and the dissolution of a group: rows 173 to 177 and 253 of the table (R218, R222 to R229). -/
namespace Sys2Proof.Machine

/-! Snapshots (R218). -/

/-- Modes in which a snapshot is written every 1 ms. -/
def snapMode (m : Mode) : Bool := mediaMode m && m != .lowpower

/-- SNAPSHOT_WRITE: the snapshot is captured, and a pair's active sends it to its standby. -/
def snapshotWriteEff (s : State) : State :=
  if ¬ snapMode s.gen.mode ∨ s.sp.snapFly.isSome then s
  else
    let n := snapNow s
    mirror 6 [s.mx.csn, n.seq] { s with sp := { s.sp with snapFly := some n } }

/-- SNAPSHOT_WRITE (R218, Table 13.2). -/
def execSnapshotWrite (s : State) : Host.Outcome State Fault Refusal := .next (snapshotWriteEff s)

/-- SNAPSHOT_DURABLE: both copies have verified. -/
def snapshotDurableEff (copyFailed : Bool) (s : State) : State :=
  match s.sp.snapFly with
  | none => s
  | some n => snapDurableNow n (flagIf copyFailed Reg.SP_ERR.SJCOPY s)

/-- SNAPSHOT_DURABLE (R218, R219). -/
def execSnapshotDurable (copyFailed : Bool) (s : State) : Host.Outcome State Fault Refusal := .next (snapshotDurableEff copyFailed s)

/-! Rebuild (R223 to R226). -/

/-- The substitution that serves an original slot. -/
def substOf (d : Nat) (s : State) : Option Subst := s.sp.subst.find? (fun e => decide (e.src = d ∧ e.state ≠ 4))

/-- Change it. -/
def updSubst (d : Nat) (f : Subst → Subst) (s : State) : State :=
  { s with sp := { s.sp with subst := updFirst s.sp.subst (fun e => decide (e.src = d ∧ e.state ≠ 4)) f } }

/-- A row has to be rebuilt: its barrel is not free and holds valid data. -/
def rowNeeded (g : Group) (r : Nat) (s : State) : Bool :=
  let n := barrelNum g.num r
  s.mm.barrels.any (fun b => decide (b.num = n ∧ b.state = 1)) && !(validGrains (fun e => inBarrel n e s) s).isEmpty

/-- The lowest row from `r` up that has to be rebuilt, else the row count. -/
def nextNeeded (g : Group) (s : State) : (fuel r : Nat) → Nat
  | 0, r => r
  | n + 1, r => if g.rows ≤ r then g.rows else if rowNeeded g r s then r else nextNeeded g s n (r + 1)

/-- NEXTROW passes rows with nothing to rebuild; past the last the member is whole again. -/
def advanceRow (g : Group) (d r : Nat) (s : State) : State :=
  let r := nextNeeded g s (g.rows + 1) r
  let s := updSubst d (fun e => { e with nextRow := Nat.min r 8191 }) s
  if g.rows ≤ r then
    let s := updSubst d (fun e => { e with state := 3 }) s
    updGroup g.num (fun x => { x with missing := x.missing.filter (fun p => x.die p != d) }) s
  else s

/-- Groups that rebuild now. -/
def rebuildingGroups (s : State) : List Nat := ((s.sp.subst.filter (fun e => e.state == 2)).map (·.group)).eraseDups

/-- The substitution is durable in a snapshot. -/
def substDurable (e : Subst) (s : State) : Bool :=
  (s.nand.snaps.head?).any (fun n => n.subst.any (fun x => decide (x.src = e.src ∧ x.dst = e.dst)))

/-- The host data pages of a failed die's vat slots are bottled from the partner copies. -/
def bottleMember (g : Group) (d : Nat) (s : State) : State :=
  match g.pairPos (g.posOf d) with
  | none => s
  | some p => (List.range (getF Reg.MM_CFG.VATBLK s)).foldl (fun t v =>
      let ps := validGrains (fun e => inSlot g p v e t) t
      if ps = [] ∨ t.mm.racking.any (fun x => x.1 == bottleKey (g.die p) v) then t else startCopies (bottleKey (g.die p) v) [] ps t) s

/-- New vat slots are formed on the spare and the partner: the pair goes on with the next erased slot, and slots whose block is not good on the
spare are given up (R223 step 3). -/
def formSlots (g : Group) (d dst : Nat) (s : State) : State :=
  match g.pairPos (g.posOf d) with
  | none => s
  | some p =>
    let bad := (List.range (getF Reg.MM_CFG.VATBLK s)).filter (fun v => !((vatBlock g p v s).any (fun b => goodBlk s dst b)))
    let q := getPair g.num p s
    flagIf (bad != []) Reg.MM_ERR.VATSLOT
      (putPair { q with nextPage := slcPages, retired := bad.foldl (fun l v => addOnce l v) q.retired, gone := bad.foldl (fun l v => addOnce l v) q.gone } s)

/-- Groups that wait for a rebuild to start, in ascending order before one (R225). -/
def aheadOf (g : Nat) (s : State) : Nat :=
  ((s.sp.subst.filter (fun e => decide (e.state = 1 ∧ e.group < g) && !(rebuildingGroups s).contains e.group)).map (·.group)).eraseDups.length

/-- REBUILD_START: with the substitution durable and no row of the group in program, the open barrel closes short, the failed die's copies are
restored, and the rows follow. -/
def rebuildStartEff (die : Nat) (s : State) : State :=
  match substOf die s with
  | none => s
  | some e => match findGroup e.group s with
    | none => s
    | some g =>
      let room := (rebuildingGroups s).contains g.num || decide ((rebuildingGroups s).length + aheadOf g.num s < getF Reg.SP_REBCFG.MAXGRP s)
      if e.state ≠ 1 ∨ ¬ backgroundMode s.gen.mode ∨ ¬ substDurable e s ∨ ¬ atBoundary g.num s ∨ ¬ room then s
      else
        let s := match s.mm.openB.find? (fun b => b.group == g.num) with
          | some b => closeShort b.num s
          | none => s
        let mine := fun (x : SysPage) => decide (x.group = g.num) && (g.pairPos (g.posOf die) == some x.pos) && x.kind != 2
        let s := rewriteSysPages mine s
        let s := updSubst die (fun x => { x with state := 2, nextRow := 0 }) (formSlots g die e.dst (bottleMember g die s))
        advanceRow g die 0 s

/-- REBUILD_START (R223, R225). -/
def execRebuildStart (die : Nat) (s : State) : Host.Outcome State Fault Refusal := .next (rebuildStartEff die s)

/-- REBUILD_WORDLINE_DONE: a reconstructed wordline is on the spare, whose block was erased first where it had to be; wordlines come in order;
grains with three missing units are lost; the row's last wordline moves NEXTROW. -/
def rebuildWordlineDoneEff (die : Nat) (row wordline : Nat) (last : Bool) (lostGrains : List (Nat × Nat)) (s : State) : State :=
  match substOf die s with
  | none => s
  | some e => match findGroup e.group s with
    | none => s
    | some g =>
      if e.state ≠ 2 ∨ row ≠ e.nextRow ∨ s.mm.racking.any (fun x => x.1 == barrelNum g.num row) then s
      else
        let (d, b) := rowPlace g (g.posOf die) row s
        let s := if wordline = 0 ∧ (getBlk d b s).pptr ≠ 0 then eraseNow (d, b) s else s
        if (getBlk d b s).pptr ≠ 4 * wordline then s
        else
          let s := if lostGrains = [] then s else threeMissing lostGrains s
          let s := updBlk d b (fun x => { x with pptr := 4 * wordline + 4, age := if wordline = 0 then now s else x.age }) s
          if last then advanceRow g die (row + 1) s else s

/-- REBUILD_WORDLINE_DONE (R223, R226, R227). -/
def execRebuildWordlineDone (die : Nat) (row wordline : Nat) (last : Bool) (lostGrains : List (Nat × Nat)) (s : State) :
    Host.Outcome State Fault Refusal := .next (rebuildWordlineDoneEff die row wordline last lostGrains s)

/-! Dissolution (R228, R229). -/

/-- Valid granules of a group's barrels. -/
def groupGranules (g : Group) (s : State) : Nat :=
  sumOf ((s.mm.barrels.filter (fun b => barrelGroup b.num == g.num)).map (fun b => validGranules b.num s))

/-- Groups that may be dissolved: those that wait, and those with three missing members. -/
def dissolvable (s : State) : List Group :=
  s.sp.groups.filter (fun g => !g.dissolved && !g.dissolving && (g.waiting || decide (3 ≤ g.missing.length)) && canDissolve g s)

/-- The group is the one with the fewest valid granules. -/
def fewest (g : Group) (s : State) : Bool := (dissolvable s).all (fun x => decide (groupGranules g s ≤ groupGranules x s))

/-- Nothing of the group is left to move: every barrel has its RACKDONE record durable, and its vat slots hold nothing valid. -/
def groupEmpty (g : Group) (s : State) : Bool :=
  s.mm.barrels.all (fun b => barrelGroup b.num != g.num || b.state == 2) &&
  (validGrains (fun e => e.vhint == 5 && g.members.contains e.die) s).isEmpty

/-- The group's surviving dies become hot spares, and spares are assigned again. -/
def dissolved (g : Group) (s : State) : State :=
  let alive := (g.members.map (fun d => servingDie d s)).filter (fun d => !dieFailed d s)
  let s := updGroup g.num (fun x => { x with dissolved := true, dissolving := false, waiting := false }) s
  let s := { s with
    sp := { s.sp with spares := alive.foldl (fun l d => insSlot d l) s.sp.spares,
                      subst := s.sp.subst.map (fun (e : Subst) => if e.group = g.num then { e with state := 4 } else e) },
    fs := { s.fs with turn := s.fs.turn.filter (fun t => t.1 != g.num), prepared := s.fs.prepared.filter (fun x => x != g.num),
                      leaving := s.fs.leaving.filter (fun x => x != g.num) } }
  checkWaiting (assignSpares (flagOn Reg.SP_ERR.DISSOLVED s))

/-- GROUP_DISSOLUTION: one group at a time begins, racked out and bottled; once it is empty it is dissolved. -/
def groupDissolutionEff (group : Nat) (s : State) : State :=
  match findGroup group s with
  | none => s
  | some g =>
    if g.dissolving then (if groupEmpty g s then dissolved g s else s)
    else if ¬ backgroundMode s.gen.mode ∨ s.sp.groups.any (·.dissolving) ∨ ¬ (dissolvable s).any (fun x => x.num == group) ∨ ¬ fewest g s then s
    else
      let s := stopGroup group (updGroup group (fun x => { x with dissolving := true }) s)
      let s := (List.range (g.width / 2)).foldl (fun t p => bottleMember g (g.die p) t) s
      rewriteSysPages (fun x => decide (x.group = g.num)) s

/-- GROUP_DISSOLUTION (R228, R229). -/
def execGroupDissolution (group : Nat) (s : State) : Host.Outcome State Fault Refusal := .next (groupDissolutionEff group s)

/-! The substitution table's window. -/

/-- The selected entry is latched into SP_SUBDATA. -/
def latchSubst (i : Nat) (s : State) : State :=
  let e := (s.sp.subst[i]?).getD ⟨0, 0, 0, 0, 0⟩
  let s := setF Reg.SP_SUBDATA0.TO e.dst (setF Reg.SP_SUBDATA0.FROM e.src s)
  setF Reg.SP_SUBDATA1.NEXTROW e.nextRow (setF Reg.SP_SUBDATA1.STATE e.state (setF Reg.SP_SUBDATA1.GROUP e.group s))

/-- SP_SUBSEL_WRITE's effect. -/
def spSubselWriteEff (who : Writer) (index : Nat) (s : State) : State :=
  if ¬ setupOpen who s then s
  else if ¬ mayWrite who Reg.SP_SUBSEL.INDEX.reg s then genErr Reg.GEN_ERR.OWNWR Reg.SP_SUBSEL.INDEX.reg who s
  else latchSubst (index % 256) (setF Reg.SP_SUBSEL.INDEX index s)

/-- SP_SUBSEL_WRITE (Tables 8.7, 8.14 to 8.16). -/
def execSpSubselWrite (who : Writer) (index : Nat) (s : State) : Host.Outcome State Fault Refusal := .next (spSubselWriteEff who index s)

end Sys2Proof.Machine
end

