-- ==== Sys2Proof/Machine/Channels.lean ====
section
/-! DEFINITION. Sequencers, channel retraining and patch sets: rows 178 to 183 of the table (R259 to R272). -/
namespace Sys2Proof.Machine

/-! Faulted sequencers (R262 to R265). -/

/-- Reads booked on a channel's dies act as hard-decode failures (R137). -/
def chanReadsFail (c : Nat) (s : State) : State :=
  (s.cmds.map (·.id)).foldl (fun t i => (chanDies c t).foldl (fun u d => dieReadsFail i d u) t) s

/-- The PHY a sequencer serves. -/
def phyOf (q : Nat) (c : Cluster) : Option Nat := (c.chmap.zipIdx.find? (fun x => x.1 == q)).map (·.2)

/-- Whether a sequencer runs bank B. -/
def Cluster.seqOnB (c : Cluster) (q : Nat) : Bool := (c.onB[q]?).getD false

/-- The resume routine on one context record (Table 10.3): a read's result is discarded; a program without its confirm is issued again from its
first cycle; what was confirmed goes on, and a pending status is read. -/
def CtxRec.resumed (r : CtxRec) : CtxRec := match r.code with
  | .readIssued | .dataOut => { r with code := .idle }
  | .dataIn | .confirmed | .suspended | .statusPending | .idle => r

/-- The spare loads the context records of a PHY's dies and runs the channel resume routine (R264 steps 2 and 3). -/
def resumeRecs (k phy : Nat) (s : State) : State :=
  updCluster k (fun c => { c with ctx := c.ctx.map (fun r => if dieChan r.die = 8 * k + phy then r.resumed else r) }) s

/-- The spare takes over a PHY, on the bank its sequencer ran. -/
def takeOver (k phy q spare took : Nat) (s : State) : State :=
  let s := updCluster k (fun c => { c with chmap := c.chmap.set phy spare, spare := none, onB := c.onB.set spare (c.seqOnB q) }) s
  let s := setSat Reg.CS_TAKEOVER.LAST took (bump Reg.CS_TAKEOVER.COUNT (chanReadsFail (8 * k + phy) s))
  spareIn 1 ((s.cs.clusters.filter (fun c => c.spare.isSome)).length) (resumeRecs k phy s)

/-- With no spare the channel has no sequencer, and fails. -/
def noTakeOver (k phy : Nat) (s : State) : State :=
  let s := updCluster k (fun c => { c with chmap := c.chmap.set phy 15 }) (chanReadsFail (8 * k + phy) s)
  declareChannelFailed (8 * k + phy) s

/-- The activation leaves a cluster as it stands and goes on with the next (R271). -/
def stallActivation (k : Nat) (s : State) : State :=
  let s := flagOn Reg.CS_ACT.STALL s
  if k < 7 then { s with cs := { s.cs with act := some (k + 1, 0) } } else activationDone { s with cs := { s.cs with act := none } }

/-- A sequencer is faulted: recorded, out of service for good, and its PHY passes to the spare or its channel fails. -/
def seqFaulted (k q : Nat) (flag : Field) (took : Nat) (s : State) : State :=
  let c := getCluster k s
  if c.faulted.contains q then s
  else
    let s := setF Reg.CS_TAKEOVER.FAILSEQ (9 * k + q) (flagOn flag s)
    let s := unitOut 1 (9 * k + q) (updCluster k (fun c => { c with faulted := c.faulted ++ [q] }) s)
    let s := match phyOf q c with
      | some phy => (match c.spare with
        | some sp => takeOver k phy q sp took s
        | none => noTakeOver k phy s)
      | none => updCluster k (fun c => { c with spare := if c.spare = some q then none else c.spare }) s
    if s.cs.act.any (fun a => a.1 == k) then stallActivation k s else s

/-- SEQUENCER_FAULT (R262, R264, R265, R391). -/
def execSequencerFault (cluster : Fin 8) (seq : Fin 9) (cause : SeqFault) (tookTenthUs : Nat) (s : State) : Host.Outcome State Fault Refusal :=
  .next (seqFaulted cluster.val seq.val (match cause with
    | .microwordCheck => Reg.CS_ERR.MWCHK
    | _ => Reg.CS_ERR.SEQFAULT) tookTenthUs s)

/-- YIELD_TIMEOUT (R262, R264, R265). -/
def execYieldTimeout (cluster : Fin 8) (seq : Fin 9) (tookTenthUs : Nat) (s : State) : Host.Outcome State Fault Refusal :=
  .next (seqFaulted cluster.val seq.val Reg.CS_ERR.YIELDTO tookTenthUs s)

/-! Retraining (R260). -/

/-- CHANNEL_RETRAIN: steps 5 to 7 of R259 are placed; a temperature change counts from CS_TRAIN.TDELTA up. -/
def channelRetrainEff (channel : Fin 64) (tempDelta : Nat) (s : State) : State :=
  let c := channel.val
  if ¬ mediaMode s.gen.mode ∨ ¬ (s.cs.chans[c]?).any (·.ok) ∨ (0 < tempDelta ∧ tempDelta < getF Reg.CS_TRAIN.TDELTA s) then s
  else
    let s := { s with cs := { s.cs with chans := s.cs.chans.modify c (fun x => { x with retrain := 3 }) } }
    book ⟨.chan c, lineFree s.fs.bookings (.chan c) 12 (s.fs.bookings.length + 1) (fretNow s + 1), 12, 0, none, 0, 0, false, false⟩ s

/-- CHANNEL_RETRAIN (R260). -/
def execChannelRetrain (channel : Fin 64) (tempDelta : Nat) (s : State) : Host.Outcome State Fault Refusal := .next (channelRetrainEff channel tempDelta s)

/-- RETRAIN_STEP: two failures fail the channel; a die whose identification changed has failed (R215). -/
def retrainStepEff (channel : Fin 64) (failedTwice : Bool) (idChanged : List Nat) (s : State) : State :=
  let c := channel.val
  if (s.cs.chans[c]?).all (fun x => x.retrain == 0) then s
  else if failedTwice then declareChannelFailed c (chanReadsFail c (flagOn Reg.CS_ERR.TRAINFAIL s))
  else
    let s := { s with cs := { s.cs with chans := s.cs.chans.modify c (fun x => { x with retrain := x.retrain - 1 }) } }
    let bad := idChanged.filter (fun d => dieChan d == c)
    bad.foldl (fun t d => declareDieFailed d t) (flagIf (bad != []) Reg.CS_ERR.IDCHANGE s)

/-- RETRAIN_STEP (R260, R215). -/
def execRetrainStep (channel : Fin 64) (failedTwice : Bool) (idChanged : List Nat) (s : State) : Host.Outcome State Fault Refusal :=
  .next (retrainStepEff channel failedTwice idChanged s)

/-! Patch sets (R266, R268 to R271). -/

/-- One bit of CRC-8 with polynomial 0x07. -/
def crc8Bit (c : Nat) (b : Bool) : Nat :=
  let top := c.testBit 7 != b
  let d := c * 2 % 256
  if top then d ^^^ 7 else d

/-- The check of a microword: CRC-8 over bits [247:0], byte 0 first, most significant bit first, from 0 (log entry 48). -/
def wordChk (w : BitVec 256) : Nat :=
  (List.range 248).foldl (fun c i => crc8Bit c (w.getLsbD (i / 8 * 8 + (7 - i % 8)))) 0

/-- A microword the loader accepts: reserved bits 0, and a right CHK. -/
def wordOk (w : BitVec 256) : Bool := (w.toNat / 2 ^ 152 % 2 ^ 96 == 0) && (w.toNat / 2 ^ 248 == wordChk w)

/-- The number of the installed die profile, the reference profile (R178, Table 5.7). -/
def dieProfile : Nat := 1

/-- The loader's checks of a set's format (R269). -/
def setFormatOk (p : PatchSet) (s : State) : Bool :=
  p.magic == 0x544C4254 && p.romId == s.fuses.romId && (p.profile == 0xFFFF || p.profile == dieProfile) && decide (p.words.length ≤ 512) &&
  decide (p.matches_.length ≤ 32) && decide (p.yMax ≤ 2400) && p.matches_.all (fun m => decide (m.target < p.words.length)) && p.words.all wordOk

/-- A bank after a set was loaded and verified. -/
def loadedBank (p : PatchSet) : Bank := ⟨true, true, p.major, p.minor, p.build, p.setId, p.matches_, p.words⟩

/-- Sequencers in service that run a bank. -/
def bankUsed (c : Cluster) (b : Bool) : Bool := (List.range 9).any (fun q => !c.faulted.contains q && c.seqOnB q == b)

/-- Load a bank; a locked bank ignores it. -/
def loadBank (k : Nat) (b : Bool) (p : PatchSet) (s : State) : State :=
  updCluster k (fun c =>
    if b then (if c.bankB.locked then c else { c with bankB := loadedBank p }) else (if c.bankA.locked then c else { c with bankA := loadedBank p })) s

/-- A set that fails at start-up counts as a failed verification of the boot image (rows 4 and 5). -/
def startupSetFailed (s : State) : State := { s with gen := { s.gen with bootRow := if s.gen.bootRow = 0 ∧ s.gen.otherOk then 4 else 5 } }

/-- The flag of a set's failure. -/
def setFlag (p : PatchSet) (s : State) : Option Field :=
  if ¬ setFormatOk p s then some Reg.CS_ERR.PATCHFMT else if ¬ p.sigOk ∨ ¬ acceptFlags p.flagA p.flagB then some Reg.CS_ERR.PATCHSIG else none

/-- PATCH_SET_LOAD: at start-up into bank A; in an activation into the bank that no sequencer of the cluster uses. -/
def patchSetLoadEff (cluster : Fin 8) (p : PatchSet) (atStartup : Bool) (s : State) : State :=
  let k := cluster.val
  if atStartup then
    if s.gen.mode ≠ .boot then s
    else match setFlag p s with
      | some f => startupSetFailed (flagOn f s)
      | none => loadBank k false p s
  else if s.cs.act ≠ some (k, 0) then s
  else if (getCluster k s).spare.isNone then stallActivation k s
  else match setFlag p s with
    | some f => activationFailed (flagOn f s)
    | none =>
      let c := getCluster k s
      if ¬ bankUsed c true then loadBank k true p s else if ¬ bankUsed c false then loadBank k false p s else s

/-- PATCH_SET_LOAD (R268 to R271). -/
def execPatchSetLoad (cluster : Fin 8) (set : PatchSet) (atStartup : Bool) (s : State) : Host.Outcome State Fault Refusal :=
  .next (patchSetLoadEff cluster set atStartup s)

/-- The bank an activation moves a cluster to: before the first hand-off the one nobody uses, then the one the spare runs. -/
def newBank (c : Cluster) (n : Nat) : Bool :=
  if n = 0 then !c.seqOnB ((c.chmap[0]?).getD 0) else c.seqOnB (c.spare.getD 8)

/-- A bank that no sequencer uses is unlocked. -/
def unlockFree (c : Cluster) : Cluster :=
  { c with bankA := if bankUsed c false then c.bankA else { c.bankA with locked := false },
           bankB := if bankUsed c true then c.bankB else { c.bankB with locked := false } }

/-- One hand-off: the spare, on the new bank, takes the PHY; the released sequencer becomes the spare on the new bank. -/
def handOff (k n : Nat) (s : State) : State :=
  updCluster k (fun c => match c.spare with
    | none => c
    | some sp =>
      let b := newBank c n
      let old := (c.chmap[n]?).getD 15
      { c with chmap := c.chmap.set n sp, spare := some old, onB := (c.onB.set sp b).set old b }) s

/-- PATCH_HANDOFF: the hand-offs run in order; after the last of a cluster its old bank is unlocked, and the next cluster follows. -/
def patchHandoffEff (cluster phy : Fin 8) (s : State) : State :=
  let k := cluster.val
  let n := phy.val
  if s.cs.act ≠ some (k, n) then s
  else
    let c := getCluster k s
    let loaded := if newBank c n then c.bankB.locked else c.bankA.locked
    if c.spare.isNone then stallActivation k s
    else if ¬ loaded then s
    else
      let s := bump Reg.CS_ACT.HANDOFFS (resumeRecs k n (chanReadsFail (8 * k + n) (handOff k n s)))
      if n < 7 then { s with cs := { s.cs with act := some (k, n + 1) } }
      else
        let s := updCluster k unlockFree s
        if k < 7 then { s with cs := { s.cs with act := some (k + 1, 0) } } else activationDone { s with cs := { s.cs with act := none } }

/-- PATCH_HANDOFF (R271, R385). -/
def execPatchHandoff (cluster : Fin 8) (phy : Fin 8) (s : State) : Host.Outcome State Fault Refusal := .next (patchHandoffEff cluster phy s)

end Sys2Proof.Machine
end

