-- ==== Sys2Proof/Machine/Buffers.lean ====
section
/-! DEFINITION. Buffers and memory lines: rows 184 to 189 of the table (R283 to R299, R389, R391). -/
namespace Sys2Proof.Machine

/-! Device addresses of buffers (R278 to R280). -/

/-- First device address of the DRAM buffer pool (R279). -/
def poolBase (s : State) : Nat := 2 ^ 32 + 2 ^ 30 * (getF Reg.MX_CFG.REGION s + getF Reg.MX_CFG.PGCACHE s + 4)

/-- Device address of buffer `i`. -/
def bufAddr (i : Nat) (s : State) : Nat := if i < sramBufs then i * 4096 else poolBase s + (i - sramBufs) * 4096

/-- The buffer at a device address. -/
def bufAt (addr : Nat) (s : State) : Option Nat :=
  if addr < sramBufs * 4096 then some (addr / 4096)
  else if addr < poolBase s then none
  else
    let i := (addr - poolBase s) / 4096
    if i < dramBufs s then some (sramBufs + i) else none

/-- An address of DRAM (R279). -/
def isDram (addr : Nat) : Bool := decide (2 ^ 32 ≤ addr)

/-- The 64 lines of a buffer. -/
def bufLines (i : Nat) (s : State) : List Nat := (List.range 64).map (fun k => bufAddr i s / 64 + k)

/-! Allocation and free. -/

/-- BUFFER_ALLOCATE's effect: a request of 1 to 512 buffers is granted or failed. -/
def bufferAllocateEff (owner n : Nat) (vc0 : Bool) (s : State) : State :=
  if owner < 16 ∧ 1 ≤ n ∧ n ≤ 512 then (bpAlloc owner n vc0 s).2 else s

/-- BUFFER_ALLOCATE (R283, R284, R287). -/
def execBufferAllocate (owner n : Nat) (vc0 : Bool) (s : State) : Host.Outcome State Fault Refusal := .next (bufferAllocateEff owner n vc0 s)

/-- A free of a buffer whose state bit is 0. -/
def doubleFree (index owner : Nat) (s : State) : State :=
  logEvent 0x0201 2 9 true [index, owner] (flagOn Reg.BP_ERR.DBLFREE (bpErr index owner 0 s))

/-- An accepted free: open merge entries complete, poisoned lines become zeros, and the buffer goes back. -/
def acceptFree (index : Nat) (s : State) : State :=
  let ls := bufLines index s
  let s := mergesDone ls s
  putBuf index { s with me := { s.me with poisoned := s.me.poisoned.filter (fun l => !ls.contains l) } }

/-- BUFFER_FREE's effect. -/
def bufferFreeEff (index owner : Nat) (s : State) : State :=
  if (getBuf index s).used = false then doubleFree index owner s
  else if (getBuf index s).owner ≠ some owner then flagOn Reg.BP_ERR.OWNFREE (bpErr index owner 1 s)
  else acceptFree index s

/-- BUFFER_FREE (R285). -/
def execBufferFree (index owner : Nat) (s : State) : Host.Outcome State Fault Refusal := .next (bufferFreeEff index owner s)

/-- POOL_REBUILD_DONE's effect: a quarantined pool's list is every buffer whose state bit is 0, in ascending order. -/
def poolRebuildDoneEff (pool : Nat) (s : State) : State :=
  if (getPool pool s).quar then updPool pool (fun (P : Pool) => { P with quar := false, usable := [], head := [], fresh := 0 }) s else s

/-- POOL_REBUILD_DONE (R287). -/
def execPoolRebuildDone (pool : Nat) (s : State) : Host.Outcome State Fault Refusal := .next (poolRebuildDoneEff pool s)

/-! Rows and pages that fail twice (R296, R389, R391). -/

/-- 24 h in ns of device time. -/
def dayNs : Nat := 86400000000000

/-- Entries of the last 24 h. -/
def lastDay (s : State) (l : List Nat) : List Nat := l.filter (fun t => decide (now s < t + dayNs))

/-- Withdraw a buffer for good: a free one at once, a held one when its owner frees it. -/
def withdrawBuf (i : Nat) (s : State) : State :=
  if (getBuf i s).used then updBuf i (fun b => { b with withdrawn := true }) s
  else
    let s := updBuf i (fun b => { b with used := true, owner := none, withdrawn := true }) s
    updPool (poolOf i) (fun (P : Pool) => { P with head := P.head.filter (fun x => x != i), usable := P.usable.filter (fun x => x != i) }) s

/-- Withdraw a list of buffers. -/
def withdrawBufs (is : List Nat) (s : State) : State := is.foldl (fun t i => withdrawBuf i t) s

/-- A DRAM page failed twice within 24 h: it is mapped onto a page of the reserve, or its pool buffer is withdrawn. -/
def remapPage (page : Nat) (s : State) : State :=
  if s.me.remap.length < 4096 ∧ (lastDay s s.me.remapAt).length < 64 then
    let s := { s with me := { s.me with remap := s.me.remap ++ [page], remapAt := lastDay s s.me.remapAt ++ [now s] } }
    spareIn 7 (4096 - s.me.remap.length) s
  else
    let s := flagOn Reg.ME_ERR.REMAPFULL s
    match bufAt (page * 4096) s with
    | some i => withdrawBuf i s
    | none => s

/-- An SRAM row failed twice within 24 h: a spare row serves it, or its buffers are withdrawn; hardware state with no entry is fatal. -/
def repairRow (row : Nat) (hardware : Bool) (bufs : List Nat) (s : State) : State :=
  if s.me.repaired.length < 256 ∧ (lastDay s s.me.repairAt).length < 16 then
    let s := { s with me := { s.me with repaired := s.me.repaired ++ [row], repairAt := lastDay s s.me.repairAt ++ [now s] } }
    spareIn 6 (256 - s.me.repaired.length) s
  else
    let s := flagOn Reg.ME_ERR.REPAIRFULL s
    if hardware then fatalFault s else withdrawBufs bufs s

/-- Count a failure of a unit; `true` with the unit's earlier failures struck off when it is the second within 24 h. -/
def secondFailure (u : Nat) (l : List (Nat × Nat)) (s : State) : Bool × List (Nat × Nat) :=
  let l := l.filter (fun x => decide (now s < x.2 + dayNs))
  if l.any (fun x => x.1 == u) then (true, l.filter (fun x => x.1 != u)) else (false, l ++ [(u, now s)])

/-- The buffers with a line in an SRAM row. -/
def rowBufs (row : Nat) : List Nat :=
  (List.range sramBufs).filter (fun i => (List.range 64).any (fun k => Config.sramRow (i * 4096 + 64 * k) == row))

/-- Count a check failure against its DRAM page or SRAM row. -/
def countUnit (addr : Nat) (s : State) : State :=
  if isDram addr then
    let r := secondFailure (addr / 4096) s.me.pageFail s
    let s := { s with me := { s.me with pageFail := r.2 } }
    if r.1 then remapPage (addr / 4096) s else s
  else
    let row := Config.sramRow addr
    let r := secondFailure row s.me.rowFail s
    let s := { s with me := { s.me with rowFail := r.2 } }
    if r.1 then repairRow row (decide (sramBufs * 4096 ≤ addr)) (rowBufs row) s else s

/-! Restoring a line (Table 11.5). -/

/-- End of the path booked for a command, in frets. -/
def bookedEnd (id : Nat) (s : State) : Nat :=
  Nat.max (maxOf ((s.fs.bookings.filter (fun b => b.cmd == some id)).map (fun b => b.start + b.len))) (fretNow s)

/-- The command's room is at least 2 frets (R295). -/
def redmaRoom (c : IoCmd) (s : State) : Bool := match c.deadline with
  | some d => decide (bookedEnd c.id s + 2 ≤ d / 4000)
  | none => true

/-- A line of data not yet committed: read again from the host, or the command fails with 0h/04h (R295). -/
def restoreUncommitted (id : Nat) (ok : Bool) (s : State) : Bool × State :=
  match findCmd id s with
  | none => (ok, s)
  | some c => if c.csn.isNone ∧ (ok = false ∨ redmaRoom c s = false) then (false, finishCmd id 0 0x04 0 s) else (true, s)

/-- A source for a staged grain: a durable copy of it, or in a twin the peer's mirrored copy, which is not asked for in DRAIN (R299). -/
def stagedSource (r : Staged) (s : State) : Bool :=
  s.nand.copies.any (fun c => decide (c.nsid = r.nsid ∧ c.grain = r.grain ∧ c.csn = r.csn)) ||
  (s.gen.mode != .drain && decide (s.tw.st ≠ .none ∧ s.tw.st ≠ .lost ∧ s.tw.st ≠ .fenced) && decide (r.csn ≤ s.tw.ack))

/-- A line of committed data: without a source its grain is poisoned, when the line is part of its stored form. -/
def restoreCommitted (i : Nat) (inForm : Bool) (s : State) : Bool × State :=
  match findStaged i s with
  | none => (false, s)
  | some r =>
    if stagedSource r s then (true, s)
    else (false, r.bufs.foldl (fun t b => updBuf b (fun x => { x with poison := true }) t)
      (if inForm then updStaged i (fun x => { x with poisoned := true }) s else s))

/-- A host-read buffer: as a hard-decode failure of the codewords the data came from (R137). -/
def restoreRead (id : Nat) (s : State) : State :=
  match findCmd id s with
  | none => s
  | some c => match c.views.findSome? (fun v => match v.2 with
      | .media e => some (v.1, e)
      | _ => none) with
    | some x => claimAll id x.1 x.2 (updCmd id (fun y => { y with owed := if y.owed.contains x.1 then y.owed else y.owed ++ [x.1] }) s)
    | none => s

/-- Hold a map line until MAP_LINE_RESTORED (R294). -/
def holdLine (nsid grain : Nat) (s : State) : State :=
  { s with mx := { s.mx with heldLines := addOnce s.mx.heldLines (nsid, grain / 8 * 8) } }

/-- A block state table line comes back from its latest sweep copy: READS is the decoded code; ERASES is what the ERASEDONE records say. -/
def restoreBlock (d b : Nat) (s : State) : State :=
  updBlk d b (fun x => { x with reads := match s.nand.roots with
    | r :: _ => (sGet r.blocks .fresh (blkKey d b)).reads
    | [] => 0 }) s

/-- The next buffers of a pool that were never allocated, in the order of its list. -/
def freshBufs (p : Nat) (P : Pool) (s : State) : List Nat :=
  let h := expHole s
  (((List.range 256).map (fun k => P.fresh + k)).filter (fun k => decide (k < poolSize p s) && !(decide (8 ≤ p ∧ h.2 ≤ k ∧ k < h.2 + h.1)))).map (poolBuf p)

/-- A damaged link line: the buffer's pool is quarantined and keeps its first verified indices, at most 256 (R286, R287). -/
def quarantinePool (addr : Nat) (s : State) : State :=
  match bufAt addr s with
  | none => s
  | some i =>
    let p := poolOf i
    if (getPool p s).quar then s
    else
      let s := flagOn Reg.BP_ERR.LISTCHK (bpErr i (((getBuf i s).owner).getD 0) 2 s)
      updPool p (fun (P : Pool) => { P with
        quar := true, usable := (((P.head ++ freshBufs p P s).takeWhile (fun x => x != i)).filter (fun x => !(getBuf x s).used)).take 256,
        qcount := Nat.min (P.qcount + 1) 255 }) s

/-- Table 11.5, by kind of line: the outcome counted in ME_REFETCH, if any, and what follows. -/
def restoreLine (addr : Nat) (k : LineKind) (s : State) : Option Bool × State :=
  match k with
  | .hostWriteUncommitted cmd ok => let r := restoreUncommitted cmd ok s; (some r.1, r.2)
  | .hostWriteCommitted i inForm => let r := restoreCommitted i inForm s; (some r.1, r.2)
  | .mirrorReceive ok => (some ok, s)
  | .hostReadMedia cmd => (none, restoreRead cmd s)
  | .rackingBuffer => (some true, s)
  | .rebuildBuffer ok => (some ok, s)
  | .parity => (some true, s)
  | .mapCache good n g => if good then (some true, s) else (none, holdLine n g s)
  | .mapDram n g => (none, holdLine n g s)
  -- a line of 64 bytes holds four entries
  | .blockState d b => (some true, (List.range 4).foldl (fun t i => restoreBlock d (b / 4 * 4 + i) t) s)
  | .journalStaging => (some true, s)
  | .gareoTransmit ok => (some ok, s)
  | .gareoReceive => (none, s)
  | .digestSave ctx => (none, if (getCtx ctx s).st = 3 ∨ (getCtx ctx s).saving then dgFail [ctx] 5 s else s)
  | .cmb p line => (some false, s.updPort p (fun h => { h with cmbPoison := addOnce h.cmbPoison line }))
  | .coreData => (some false, { s with me := { s.me with poisoned := addOnce s.me.poisoned (addr / 64) } })
  | .coreCode => (some true, s)
  | .linkLine => (none, quarantinePool addr s)
  | .hardwareState => (some true, s)

/-- Every failure is counted and recorded (R293). -/
def chkRecorded (addr : Nat) (s : State) : State :=
  let s := { s with me := { s.me with last := addr } }
  setF Reg.ME_LASTHI.KIND 0 (flagOn Reg.ME_ERR.CHK (bump (if isDram addr then Reg.ME_CHKERR.DRAM else Reg.ME_CHKERR.SRAM) s))

/-- LINE_CHECK_FAILURE's effect. -/
def lineCheckFailureEff (address : Nat) (kind : LineKind) (s : State) : State :=
  let r := restoreLine address kind (chkRecorded address s)
  countUnit address (match r.1 with
    | some true => bump Reg.ME_REFETCH.RESTORED r.2
    | some false => bump Reg.ME_REFETCH.POISONED r.2
    | none => r.2)

/-- LINE_CHECK_FAILURE (R293 to R296, R389, R391). -/
def execLineCheckFailure (address : Nat) (kind : LineKind) (s : State) : Host.Outcome State Fault Refusal :=
  .next (lineCheckFailureEff address kind s)

/-! Stale generations and merge entries. -/

/-- STALE_GENERATION_ACCESS's effect: an access to a DRAM buffer with another generation than its current one. -/
def staleGenerationAccessEff (address index generation : Nat) (isWrite : Bool) (s : State) : State :=
  if index < sramBufs ∨ (getBuf index s).gen = generation then s
  else
    let s := { s with me := { s.me with last := address } }
    if isWrite then setF Reg.ME_LASTHI.KIND 2 (flagOn Reg.ME_ERR.STALEWR (bump Reg.ME_STALE.WR s))
    else setF Reg.ME_LASTHI.KIND 3 (flagOn Reg.ME_ERR.STALERD (bump Reg.ME_STALE.RD s))

/-- STALE_GENERATION_ACCESS (R290). -/
def execStaleGenerationAccess (address index generation : Nat) (isWrite : Bool) (s : State) : Host.Outcome State Fault Refusal :=
  .next (staleGenerationAccessEff address index generation isWrite s)

/-- MERGE_ENTRY_TIMEOUT's effect: the port's oldest entry completes. -/
def mergeEntryTimeoutEff (meport : Nat) (s : State) : State :=
  match s.me.merges.find? (fun m => m.port == meport) with
  | some m => mergeDone m.line s
  | none => s

/-- MERGE_ENTRY_TIMEOUT (R292). -/
def execMergeEntryTimeout (meport : Fin 8) (s : State) : Host.Outcome State Fault Refusal := .next (mergeEntryTimeoutEff meport.val s)

end Sys2Proof.Machine
end

