-- ==== Sys2Proof/Machine/Namespaces.lean ====
section
/-! DEFINITION. Namespace Management, Namespace Attachment, Format NVM, Sanitize and Seal (R94, R97, R108, R148, R247; Tables 4.3, 4.5, 4.11). -/
namespace Sys2Proof.Machine

/-- What every command on one namespace meets: its role and state (R419 step 4; log entry 35). -/
def nsRoleBad (n : Ns) (s : State) : Option (Nat × Nat) :=
  if n.moving then some (3, 0x03)
  else if ¬ n.owner ∨ s.gen.mode = .standby then some (3, 0x02)
  else if n.ingesting then some (7, 0x83)
  else if n.formatting then some (0, 0x84)
  else none

/-- Namespace Management create. -/
def nsCreateBody (h : AdminHdr) (d : NsDesc) (s : State) : State :=
  if s.gen.mode = .sealed then adminFail h 7 0x82 s
  else match createBad d s with
    | some (sct, sc) => adminFail h sct sc s
    | none => withData h 4096 (acceptNs h 0 (.create d)) s

/-- NAMESPACE_MANAGEMENT_CREATE (R97, R148, R155, R156, R244). -/
def execNamespaceManagementCreate (h : AdminHdr) (d : NsDesc) (s : State) : Host.Outcome State Fault Refusal :=
  .next (adminCmd h modesAll 0 (nsCreateBody h d) s)

/-- A namespace takes part in a migration session of this source. -/
def inSession (nsid : Nat) (s : State) : Bool := s.tw.mig.role == 1 && decide (2 ≤ s.tw.mig.phase ∧ s.tw.mig.phase ≤ 5) && s.tw.mig.nsids.contains nsid

/-- Namespace Management delete: later commands to it are refused, and it goes once the admitted ones have completed. -/
def nsDeleteBody (h : AdminHdr) (s : State) : State :=
  match findNs h.nsid s with
  | none => adminFail h 0 0x0B s
  | some n =>
    if s.gen.mode = .sealed then adminFail h 7 0x82 s
    else if n.leaving ≠ [] then adminFail h 0 0x0B s
    else if inSession h.nsid s then adminFail h 0 0x0C s
    else match nsRoleBad n s with
      | some (sct, sc) => adminFail h sct sc s
      | none => acceptNs h h.nsid .delete (updNs h.nsid (fun n => { n with leaving := n.attached }) s)

/-- NAMESPACE_MANAGEMENT_DELETE (R97). -/
def execNamespaceManagementDelete (h : AdminHdr) (s : State) : Host.Outcome State Fault Refusal :=
  .next (adminCmd h modesAll 0 (nsDeleteBody h) s)

/-- The CNTLIDs of the subsystem: both members' in a twin (R323). -/
def allCntlids (s : State) : List Nat :=
  if s.tw.st = .none then ownCntlids s else [1, 2, 3, 4]

/-- Namespace Attachment. -/
def nsAttachBody (h : AdminHdr) (attach : Bool) (ctrls : List Nat) (s : State) : State :=
  match findNs h.nsid s with
  | none => adminFail h 0 0x0B s
  | some n =>
    if beingDeleted h.nsid s then adminFail h 0 0x0B s
    else if ctrls = [] ∨ ctrls.any (fun c => !(allCntlids s).contains c) then adminFail h 1 0x1C s
    else if attach then
      if n.cutAway then adminFail h 1 0x16 s
      else if ctrls.any (fun c => n.attached.contains c) then adminFail h 1 0x18 s
      else withData h 4096 (fun t => adminOk h (mirror 3 [t.mx.csn, 5, h.nsid] (attachNs h.nsid true ctrls t))) s
    else if ctrls.any (fun c => !n.attached.contains c) then adminFail h 1 0x1A s
    else withData h 4096 (fun t => acceptNs h h.nsid (.detach ctrls) (updNs h.nsid (fun n => { n with leaving := ctrls.foldl addOnce n.leaving }) t)) s

/-- NAMESPACE_ATTACHMENT (R97, R339). -/
def execNamespaceAttachment (h : AdminHdr) (attach : Bool) (ctrls : List Nat) (s : State) : Host.Outcome State Fault Refusal :=
  .next (adminCmd h modesAll 0 (nsAttachBody h attach ctrls) s)

/-! Format and Sanitize. -/

/-- The data or the whole Y9 is sealed (R419 step 7). -/
def sealedFor (n : Ns) (s : State) : Bool := s.gen.mode == .sealed || n.sealInfo.isSome

/-- Format NVM with SES `ses`: the checks, then the wait for admitted commands. -/
def formatBody (h : AdminHdr) (lbaf : Nat) (mset : Bool) (pi pil ses : Nat) (s : State) : State :=
  if s.sh.sanState = 1 ∨ s.sh.sanState = 3 then adminFail h 0 0x1D s
  else match (findNs h.nsid s).filter (fun n => attachedTo h.port n s) with
    | none => adminFail h 0 0x0B s
    | some n =>
      match nsRoleBad n s with
      | some (sct, sc) => adminFail h sct sc s
      | none =>
        if sealedFor n s then adminFail h 7 0x82 s
        else if 2 < ses ∨ (ses = 2 ∧ ¬ n.xts) then adminFail h 0 0x02 s
        else if 4 < lbaf ∨ grainBytes n.grainCode < lbaBytes lbaf ∨ 3 < pi ∨ (0 < pi ∧ mdBytes lbaf = 0) then adminFail h 1 0x0A s
        else acceptNs h h.nsid (.format lbaf mset (pi + 8 * (pil % 2)) (ses == 1) (ses == 2)) (updNs h.nsid (fun n => { n with formatting := true }) s)

/-- FORMAT_NVM (R148, R153). -/
def execFormatNvm (h : AdminHdr) (lbaf : Nat) (mset : Bool) (pi pil ses : Nat) (s : State) : Host.Outcome State Fault Refusal :=
  .next (adminCmd h modesAll 0 (formatBody h lbaf mset pi pil ses) s)

/-- FORMAT_NVM_CRYPTO_ERASE: SES 2 (R247). -/
def execFormatNvmCryptoErase (h : AdminHdr) (lbaf : Nat) (mset : Bool) (pi pil : Nat) (s : State) : Host.Outcome State Fault Refusal :=
  .next (adminCmd h modesAll 0 (formatBody h lbaf mset pi pil 2) s)

/-- Sanitize: it begins at once and completes; it ends in the background. `kind` is 1 block erase, 3 crypto erase. -/
def sanitizeBody (h : AdminHdr) (noDealloc : Bool) (kind : Nat) (s : State) : State :=
  if s.sh.sanState = 1 ∨ s.sh.sanState = 3 then adminFail h 0 0x1D s
  else if s.gen.mode = .standby then adminFail h 3 0x02 s
  else if s.gen.mode = .sealed ∨ s.ns.any (fun n => n.sealInfo.isSome) then adminFail h 7 0x82 s
  else if noDealloc ∨ (kind = 3 ∧ s.ns.any (fun n => !n.xts)) then adminFail h 0 0x02 s
  else settleSanitize (adminOk h { s with sh := { s.sh with sanState := kind } })

/-- SANITIZE_BLOCK_ERASE (Table 4.3). -/
def execSanitizeBlockErase (h : AdminHdr) (noDealloc : Bool) (s : State) : Host.Outcome State Fault Refusal :=
  .next (adminCmd h modesAll 0 (sanitizeBody h noDealloc 1) s)

/-- SANITIZE_CRYPTO_ERASE (Table 4.3, R247). -/
def execSanitizeCryptoErase (h : AdminHdr) (noDealloc : Bool) (s : State) : Host.Outcome State Fault Refusal :=
  .next (adminCmd h modesAll 0 (sanitizeBody h noDealloc 3) s)

/-! Seal (R108, Table 4.11). -/

/-- SEAL_DEVICE: action 0h. -/
def execSealDevice (h : AdminHdr) (perm : Bool) (s : State) : Host.Outcome State Fault Refusal :=
  .next (adminCmd h modesAll 0 (fun t => if t.gen.mode = .service then acceptNs h 0 (.sealDevice perm) t else adminFail h 0 0x0C t) s)

/-- The device seal was made by command without the permanent flag. -/
def deviceSealLifts (s : State) : Bool := decide (s.gen.mode = .sealed) && !s.prov.exhaustSeal && (match s.prov.devSeal with
  | some (_, perm) => !perm
  | none => false)

/-- UNSEAL_DEVICE: action 1h, row 17. -/
def execUnsealDevice (h : AdminHdr) (s : State) : Host.Outcome State Fault Refusal :=
  .next (adminCmd h modesAll 0 (fun t =>
    if deviceSealLifts t then adminOk h (enterModeEv 17 .service { t with prov := { t.prov with devSeal := none } })
    else adminFail h 0 0x15 t) s)

/-- Action 2h. -/
def sealNsBody (h : AdminHdr) (perm : Bool) (s : State) : State :=
  match findNs h.nsid s with
  | none => adminFail h 0 0x0B s
  | some n =>
    if n.sealInfo.isSome then adminFail h 0 0x0C s
    else if beingDeleted h.nsid s then adminFail h 0 0x0B s
    else if ¬ n.owner ∨ s.gen.mode = .standby then adminFail h 3 0x02 s
    else if n.ingesting then adminFail h 7 0x83 s
    else acceptNs h h.nsid (.sealNs perm) s

/-- SEAL_NAMESPACE. -/
def execSealNamespace (h : AdminHdr) (perm : Bool) (s : State) : Host.Outcome State Fault Refusal :=
  .next (adminCmd h modesAll 0 (sealNsBody h perm) s)

/-- Action 3h: only a namespace seal made without the permanent flag. -/
def unsealNsBody (h : AdminHdr) (s : State) : State :=
  if beingDeleted h.nsid s then adminFail h 0 0x0B s
  else match (findNs h.nsid s).bind (·.sealInfo) with
  | some (_, false) => adminOk h (mirror 3 [s.mx.csn, 7, h.nsid] (unsealNsNow h.nsid s))
  | _ => adminFail h 0 0x15 s

/-- UNSEAL_NAMESPACE. -/
def execUnsealNamespace (h : AdminHdr) (s : State) : Host.Outcome State Fault Refusal := .next (adminCmd h modesAll 0 (unsealNsBody h) s)

end Sys2Proof.Machine
end

