-- ==== Sys2Proof/Machine/Links.lean ====
section
/-! DEFINITION. Gareo links, flits and streams: rows 190 to 196 and 203 to 205 of the table (R302 to R310, R314). -/
namespace Sys2Proof.Machine

/-! Links (R302, R304, R314). -/

/-- The link is enabled, the fabric island serves, and the power state keeps the link (R302, R405). -/
def linkUsable (k : Nat) (s : State) : Bool := (getF Reg.GF_CFG.LINKEN s).testBit k && fabricMode s.gen.mode && !ps4Cut k s

/-- What the trained lanes give: 2 four lanes, 3 a pair, 0 down. -/
def lanesState (lanes : BitVec 4) : Nat :=
  let n := lanes.toNat
  if n = 15 then 2 else if n % 4 = 3 ∨ n / 4 = 3 then 3 else 0

/-- The link comes up on the lanes that trained: its bookkeeping starts afresh. -/
def linkUp (k : Nat) (lanes : BitVec 4) (s : State) : State :=
  let st := lanesState lanes
  let s := updLink k (fun l => { l.fresh with st := st, lanes := lanes.toNat }) s
  flagIf (st == 3) Reg.GF_ERR.DEGRADE s

/-- A node whose unique ID is known. -/
def knownUid (u : Nat) (s : State) : Bool :=
  u == s.fuses.uid || s.gf.links.any (fun l => l.peerUid == u) || s.gf.lsrs.any (fun r => r.uid == u)

/-! Commands of links. -/

/-- GAREO_LINK_TRAINED's effect. -/
def gareoLinkTrainedEff (k : Nat) (lanes : BitVec 4) (reversed : Bool) (uid node plink : Nat) (s : State) : State :=
  if ¬ linkUsable k s ∨ (getLink k s).up ∨ lanesState lanes = 0 then s
  else
    let known := knownUid uid s
    let s := updLink k (fun l => { l with peerUid := uid, peerNode := node, peerLink := plink, reversed := reversed }) (linkUp k lanes s)
    let s := evFabric s
    if ¬ known then startDiscovery s
    else if s.gf.discovering then floodHello s
    else topologyChanged s

/-- GAREO_LINK_TRAINED (R302, R304, R312). -/
def execGareoLinkTrained (link : Fin 12) (lanes : BitVec 4) (reversed : Bool) (peerUid peerNode peerLink : Nat) (s : State) :
    Host.Outcome State Fault Refusal := .next (gareoLinkTrainedEff link.val lanes reversed peerUid peerNode peerLink s)

/-- A link that is up goes down and retrains; what the lost frames held back goes on. -/
def linkFails (k : Nat) (s : State) : State :=
  if ¬ (getLink k s).up then s
  else
    let s := updLink k (fun l => { l with st := 1 }) (linkDown k s)
    releaseAll (if s.gf.isCoord then distribute s else s)

/-- LINK_SILENCE_TIMEOUT (R304, R314). -/
def execLinkSilenceTimeout (link : Fin 12) (s : State) : Host.Outcome State Fault Refusal := .next (linkFails link.val s)

/-- LINK_RETRAIN_DONE's effect: the retrain is counted, and the link returns on the lanes that trained or stays down. -/
def linkRetrainDoneEff (k : Nat) (lanes : BitVec 4) (s : State) : State :=
  if ¬ linkUsable k s ∨ (getLink k s).up then s
  else
    let s := updLink k (fun l => { l with retrains := Nat.min (l.retrains + 1) 255 }) (linkUp k lanes s)
    evFabric (if lanesState lanes = 0 then s else topologyChanged s)

/-- LINK_RETRAIN_DONE (R304). -/
def execLinkRetrainDone (link : Fin 12) (lanes : BitVec 4) (s : State) : Host.Outcome State Fault Refusal :=
  .next (linkRetrainDoneEff link.val lanes s)

/-- LINK_RETRY_TIMER: a link that is still down is retrained again. -/
def linkRetryTimerEff (k : Nat) (s : State) : State :=
  if linkUsable k s ∧ (getLink k s).st = 0 then evFabric (updLink k (fun l => { l with st := 1 }) s) else s

/-- LINK_RETRY_TIMER (R304). -/
def execLinkRetryTimer (link : Fin 12) (s : State) : Host.Outcome State Fault Refusal := .next (linkRetryTimerEff link.val s)

/-! Streams (R308 to R310). -/

/-- Change a stream at this destination, opening it at XSEQ 0. -/
def updRxStream (vc src : Nat) (f : RxStream → RxStream) (s : State) : State :=
  let same := fun (x : RxStream) => decide (x.vc = vc ∧ x.src = src)
  let l := if s.gf.rxStreams.any same then s.gf.rxStreams else s.gf.rxStreams ++ [⟨vc, src, 0, [], 0⟩]
  { s with gf := { s.gf with rxStreams := updFirst l same f } }

/-- A stream at this destination. -/
def getRxStream (vc src : Nat) (s : State) : RxStream :=
  (s.gf.rxStreams.find? (fun x => decide (x.vc = vc ∧ x.src = src))).getD ⟨vc, src, 0, [], 0⟩

/-- Acknowledge a stream up to its last delivery in order. -/
def sendAck (vc src : Nat) (s : State) : State :=
  updRxStream vc src (fun x => { x with unacked := 0 }) (sendAckFlit vc src (emit (.ack vc src ((getRxStream vc src s).next - 1)) s))

/-- Ask for a frame again, or say why it was discarded. -/
def sendNak (vc src xseq cause : Nat) (s : State) : State :=
  sendAckFlit vc src (emit (.nak vc src xseq cause) s)

/-- A frame of a stream was delivered; every 16th is acknowledged at once. -/
def delivered (vc src : Nat) (s : State) : State :=
  let s := updRxStream vc src (fun x => { x with next := x.next + 1, unacked := x.unacked + 1 }) s
  if (getRxStream vc src s).unacked ≥ 16 then sendAck vc src s else s

/-- A frame discarded for its length or its FCRC (R310). -/
def frameDiscarded (vc src xseq : Nat) (len : Bool) (s : State) : State :=
  let s := flagOn Reg.GF_ERR.LENERR (bump (if len then Reg.GF_LENERR.LEN else Reg.GF_LENERR.FCRC) s)
  sendNak vc src xseq (if len then 1 else 2) s

/-- ACK_TIMER's effect. -/
def ackTimerEff (vc src : Nat) (s : State) : State := if (getRxStream vc src s).unacked > 0 then sendAck vc src s else s

/-- ACK_TIMER (R308). -/
def execAckTimer (vc : Fin 4) (src : Nat) (s : State) : Host.Outcome State Fault Refusal := .next (onFabric (ackTimerEff vc.val src) s)

/-- FRAME_RESEND_TIMEOUT's effect. -/
def frameResendTimeoutEff (vc dst xseq : Nat) (s : State) : State :=
  match s.gf.txFrames.find? (fun x => decide (x.vc = vc ∧ x.dst = dst ∧ x.xseq = xseq)) with
  | some fr => releaseAll (resendFrame fr s)
  | none => s

/-- FRAME_RESEND_TIMEOUT (R309). -/
def execFrameResendTimeout (vc : Fin 4) (dst xseq : Nat) (s : State) : Host.Outcome State Fault Refusal :=
  .next (onFabric (frameResendTimeoutEff vc.val dst xseq) s)

/-- An acknowledged mirrored commit record: the peer has applied up to its CSN (R22, R327). -/
def mirrorAcked (csn : Nat) (s : State) : State :=
  let s := { s with tw := { s.tw with ack := Nat.max s.tw.ack csn } }
  retryCommits { s with cmds := s.cmds.map (fun c => { c with acked := c.acked || c.csn.any (fun n => decide (n ≤ csn)) }) }

/-- ACK's effect: every frame of the stream up to the XSEQ is freed. -/
def ackEff (vc src xseq : Nat) (s : State) : State :=
  let cov := fun (x : TxFrame) => decide (x.vc = vc ∧ x.dst = src ∧ x.xseq ≤ xseq)
  let gone := s.gf.txFrames.filter cov
  let s := putBufs (gone.flatMap (·.bufs)) { s with gf := { s.gf with txFrames := s.gf.txFrames.filter (fun x => !cov x) } }
  gone.foldl (fun t fr => match fr.ftype, fr.info with
    | 0x10, [2, csn] => mirrorAcked csn t
    | _, _ => t) s

/-- ACK (R308, R309, R326). -/
def execAck (vc : Fin 4) (src xseq : Nat) (s : State) : Host.Outcome State Fault Refusal := .next (onFabric (ackEff vc.val src xseq) s)

/-- A rejected frame is not resent; HE reports it as Table 3.7, cause 3 (R317). -/
def frameRejected (fr : TxFrame) (s : State) : State :=
  let same := fun (x : TxFrame) => decide (x.vc = fr.vc ∧ x.dst = fr.dst ∧ x.xseq = fr.xseq)
  windowFail fr.ftype fr.dst 3 fr.info
    (putBufs fr.bufs { s with gf := { s.gf with txFrames := s.gf.txFrames.filter (fun x => !same x) } })

/-- NAK's effect. A gap where a failed frame stood is closed by a RESYNC that names the next frame still kept. -/
def nakEff (vc src xseq cause : Nat) (s : State) : State :=
  match s.gf.txFrames.find? (fun x => decide (x.vc = vc ∧ x.dst = src ∧ x.xseq = xseq)) with
  | some fr => releaseAll (if cause = 4 then frameRejected fr s else resendFrame fr s)
  | none =>
    if cause = 0 ∧ xseq < (getTxStream vc src s).next then rawSend 0 src 0x02 0 [vc, nextLive vc src xseq s] s else s

/-- NAK (R309, R310, R313, R317). -/
def execNak (vc : Fin 4) (src xseq cause : Nat) (s : State) : Host.Outcome State Fault Refusal := .next (onFabric (nakEff vc.val src xseq cause) s)

/-! Flits (R303 to R305, R307, R310). -/

/-- Little-endian value of bytes. -/
def leNat : List Byte → Nat
  | [] => 0
  | b :: t => b.toNat + 256 * leNat t

/-- Field of a byte list: offset and length. -/
def leAt (l : List Byte) (off n : Nat) : Nat := leNat ((l.drop off).take n)

/-- LEN is in the range of the frame type (Table 12.4); other types are reserved. -/
def lenOk (ftype len : Nat) : Bool := match ftype with
  | 0x01 => len == 64
  | 0x02 | 0x05 | 0x06 | 0x07 | 0x20 => len == 16
  | 0x03 => decide (16 ≤ len ∧ len ≤ 160)
  | 0x04 => len == 32
  | 0x10 | 0x23 | 0x32 => decide (16 ≤ len ∧ len ≤ 4096)
  | 0x21 | 0x22 => decide (1 ≤ len ∧ len ≤ 4096)
  | 0x30 => decide (64 ≤ len ∧ len ≤ 1024)
  | 0x31 => len == 4096
  | _ => false

/-- Bytes of the frame whose header starts a buffer: header, padded payload, trailer. -/
def frameBytes (b : List Byte) : Nat := 48 + ceilDiv (leAt b 6 2) 16 * 16

/-- A frame has arrived whole on a link: at its destination a failing one is discarded with its NAK; elsewhere it goes on, unless its hops
have run out. A good frame's effect comes with the row of its type. -/
def frameArrived (vc : Nat) (b : List Byte) (s : State) : State :=
  let dst := leAt b 0 2 % 4096
  let src := leAt b 2 2 % 4096
  let ftype := leAt b 4 1
  let hops := leAt b 5 1
  let len := leAt b 6 2
  let xseq := leAt b 8 4
  let body := 32 + ceilDiv len 16 * 16
  let lenBad := !lenOk ftype len || leAt b (body + 4) 2 != len || leAt b (body + 6) 2 != xseq % 65536
  let crcBad := leAt b body 4 != (crc32c (b.take body)).toNat
  if ftype = 0x01 ∨ s.gf.node = some dst then
    if lenBad then frameDiscarded vc src xseq true s
    else if crcBad then frameDiscarded vc src xseq false s
    else s
  else if hops ≤ 1 then sendNak vc src xseq 5 (flagOn Reg.GF_ERR.HOPDROP s)
  else
    let s := if lenBad ∨ crcBad then emit (.badTrailer vc src dst xseq) s else s
    match pickLink vc dst s with
    | some j => frameOut vc dst ftype xseq j (sendFlits j vc (ceilDiv b.length 240) s)
    | none => s

/-- Take every whole frame off a VC's bytes. Zeros after a frame fill the flit. -/
def takeFrames (vc : Nat) : Nat → List Byte → State → List Byte × State
  | 0, b, s => (b, s)
  | f + 1, b, s =>
    if b.all (fun x => x == 0) then ([], s)
    else if b.length < 16 then (b, s)
    else if leAt b 6 2 > 4096 then ([], frameDiscarded vc (leAt b 2 2 % 4096) (leAt b 8 4) true s)
    else if b.length < frameBytes b then (b, s)
    else takeFrames vc f (b.drop (frameBytes b)) (frameArrived vc (b.take (frameBytes b)) s)

/-- A data flit's payload joins its VC's bytes. A header inside the span that LEN declares, or none where the span ends, is a length error,
and reception goes on at the next header. -/
def payload (vc nh : Nat) (p have_ : List Byte) (s : State) : List Byte × State :=
  let fresh := fun (t : State) => if nh = 15 then ([], t) else takeFrames vc 16 (p.drop (16 * nh)) t
  if have_ = [] then fresh s
  else
    let need := frameBytes have_ - have_.length
    let bad := (nh != 15 && decide (16 * nh ≠ need)) || (nh == 15 && decide (need < 240) && (p.drop need).any (fun x => x != 0))
    if bad then fresh (frameDiscarded vc (leAt have_ 2 2 % 4096) (leAt have_ 8 4) true s)
    else takeFrames vc 16 (have_ ++ p) s

/-- ACKSEQ, and a NAK's resends out of the replay buffer; a flit resent four times takes the link down. -/
def takeAck (k ackseq : Nat) (nak : Bool) (s : State) : State :=
  let l := getLink k s
  let rest := if l.replay.any (fun x => x.1 == ackseq) then (l.replay.dropWhile (fun x => x.1 != ackseq)).drop 1 else l.replay
  let moved := rest.length != l.replay.length
  let again := (if moved then 0 else l.resent) + (if nak && rest != [] then 1 else 0)
  let out := if nak && decide (again < 4) then rest.length else 0
  let upd := fun (l : GLink) => { l with replay := rest, resent := again, retries := l.retries + (if nak then rest.length else 0), sent := l.sent + out }
  let s := updLink k upd s
  if ¬ nak then s
  else if again ≥ 4 then linkFails k s
  else emits (rest.map (fun x => .flit k false x.1)) s

/-- Credits come back, up to the receive buffer. -/
def takeCredit (k vc n : Nat) (s : State) : State :=
  updLink k (fun l => { l with credits := l.credits.modify vc (fun c => Nat.min (c + n) (([32, 448, 448, 96][vc]?).getD 0)) }) s

/-- The flit is discarded and answered with NAK. -/
def flitNak (k : Nat) (s : State) : State :=
  emit (.flit k true (getLink k s).rxSeq) s

/-- A good flit's data. -/
def takeDataFlit (k : Nat) (b : List Byte) (s : State) : State :=
  let kind := leAt b 0 1
  let vc := kind / 2 % 4
  let seq := leAt b 2 2 % 4096
  let l := getLink k s
  if ¬ l.up ∨ kind % 2 = 0 then s
  else if seq ≠ (l.rxSeq + 1) % 4096 then flitNak k s
  else
    let r := payload vc (kind / 16) ((b.drop 8).take 240) ((l.rxBytes[vc]?).getD []) s
    updLink k (fun l => { l with rxSeq := seq, rxBytes := l.rxBytes.set vc r.1 }) r.2

/-- FLIT_RECEIVED's effect. -/
def flitReceivedEff (k : Nat) (b : List Byte) (s : State) : State :=
  if ¬ (getLink k s).up ∨ b.length ≠ 256 then s
  else if leAt b 252 4 ≠ (crc32c (b.take 252)).toNat then flitNak k (updLink k (fun l => { l with crcErr := l.crcErr + 1 }) s)
  else
    let a := leAt b 4 2
    takeDataFlit k b (drainLink k (takeCredit k (leAt b 1 1 % 4) (leAt b 6 2 % 1024) (takeAck k (a % 4096) (a.testBit 15) s)))

/-- FLIT_RECEIVED (R303 to R305, R307, R310, R313). -/
def execFlitReceived (link : Fin 12) (bytes : List Byte) (s : State) : Host.Outcome State Fault Refusal :=
  .next (onFabric (flitReceivedEff link.val bytes) s)

end Sys2Proof.Machine
end

