-- ==== Sys2Proof/Machine/Fabric.lean ====
section
/-! DEFINITION. Discovery, routes, time and remote accesses: rows 197 to 203 and 206 to 214 of the table (R311 to R320, R72, R363). -/
namespace Sys2Proof.Machine

/-! Discovery (R312). -/

/-- A better candidate: a lower unique ID, or the same one over fewer hops. -/
def betterCand (uid dist : Nat) (s : State) : Bool := decide (dist ≤ 16 ∧ (uid < s.gf.candUid ∨ (uid = s.gf.candUid ∧ dist < s.gf.candDist)))

/-- HELLO's effect: a better candidate is taken, flooded again, and sent this node's report. -/
def helloEff (k uid candUid candDist : Nat) (s : State) : State :=
  if ¬ (getLink k s).up then s
  else
    let s := updLink k (fun l => { l with peerUid := uid }) s
    if betterCand candUid (candDist + 1) s then
      let s := { s with gf := { s.gf with
        candUid := candUid, candDist := candDist + 1, isCoord := false, discovering := true,
        discAt := if s.gf.discovering then s.gf.discAt else now s } }
      emit (.record s.gf.coordNode 0x30 (lsrFields s)) (floodHello s)
    else s

/-- HELLO (R312). -/
def execHello (link : Fin 12) (uid candUid candDist _epoch _pref : Nat) (s : State) : Host.Outcome State Fault Refusal :=
  .next (onFabric (helloEff link.val uid candUid candDist) s)

/-- DISCOVERY_QUIET_TIMEOUT's effect: a node that is still its own candidate declares itself coordinator. -/
def discoveryQuietTimeoutEff (s : State) : State :=
  if s.gf.discovering ∧ s.gf.candUid = s.fuses.uid then distribute { s with gf := { s.gf with isCoord := true, missed := 0 } } else s

/-- DISCOVERY_QUIET_TIMEOUT (R312, R313). -/
def execDiscoveryQuietTimeout (s : State) : Host.Outcome State Fault Refusal := .next (onFabric discoveryQuietTimeoutEff s)

/-- This node holds an ID that a node of lower unique ID holds as well: it is held out (R316). -/
def heldOutBy (uid : Nat) (node : Option Nat) (s : State) : State :=
  if s.gf.node.isSome ∧ s.gf.node = node ∧ uid < s.fuses.uid ∧ ¬ s.gf.heldOut then
    evFabric (flagOn Reg.GF_ERR.HELDOUT { s with gf := { s.gf with heldOut := true } })
  else s

/-- LSR's effect: the coordinator keeps the report and computes IDs and tables again. -/
def lsrEff (uid : Nat) (node pref : Option Nat) (links : List LinkReport) (s : State) : State :=
  let s := heldOutBy uid node s
  if s.gf.isCoord then
    distribute { s with gf := { s.gf with lsrs := insLsr ⟨uid, node, pref, links⟩ (s.gf.lsrs.filter (fun r => r.uid != uid)) } }
  else s

/-- LSR (R312, R313, R316). -/
def execLsr (uid : Nat) (node : Option Nat) (pref : Option Nat) (links : List LinkReport) (s : State) : Host.Outcome State Fault Refusal :=
  .next (onFabric (lsrEff uid node pref links) s)

/-- Put consecutive entries of a table. -/
def putRoutes (m : List (Nat × Route)) (i : Nat) : List Route → List (Nat × Route)
  | [] => m
  | r :: t => putRoutes (sPut m routeNone i r) (i + 1) t

/-- TABLE's effect: the set of a new epoch is kept aside. -/
def tableEff (epoch first : Nat) (entries : List Route) (s : State) : State :=
  let old := if s.gf.asideEpoch = epoch then s.gf.aside else []
  { s with gf := { s.gf with aside := putRoutes old first entries, asideEpoch := epoch } }

/-- TABLE (R315). -/
def execTable (epoch : Nat) (first : Nat) (entries : List Route) (s : State) : Host.Outcome State Fault Refusal :=
  .next (onFabric (tableEff epoch first entries) s)

/-- EPOCH (R315). -/
def execEpoch (num : Nat) (atNs : Nat) (s : State) : Host.Outcome State Fault Refusal :=
  .next (onFabric (fun s => { s with gf := { s.gf with epochAt := some (num, atNs) } }) s)

/-- The ID that a set gives this node: the entry that is valid with no hops. -/
def localNode (m : List (Nat × Route)) : Option Nat := (m.find? (fun e => e.2.valid && e.2.hops == 0)).map (·.1)

/-- EPOCH_APPLY's effect: at the time named, the set kept aside comes into force and discovery is over. -/
def epochApplyEff (s : State) : State :=
  match s.gf.epochAt with
  | none => s
  | some (num, at_) =>
    if s.gf.asideEpoch ≠ num then s
    else
      let s := advance (at_ - now s) s
      let node := match localNode s.gf.aside with
        | some n => some n
        | none => s.gf.node
      let s := if s.gf.discovering then setSat Reg.GF_DISC.LAST ((now s - s.gf.discAt) / 1000000) s else s
      { s with gf := { s.gf with routes := s.gf.aside, epoch := num, epochAt := none, discovering := false, node := node } }

/-- EPOCH_APPLY (R315). -/
def execEpochApply (s : State) : Host.Outcome State Fault Refusal := .next (onFabric epochApplyEff s)

/-! The coordinator's heartbeat (R316). -/

/-- COORDINATOR_HEARTBEAT's effect: a node sends its heartbeat; `answered` says whether the one before was answered. -/
def coordinatorHeartbeatEff (answered : Bool) (s : State) : State :=
  if s.gf.isCoord ∨ ¬ fabricMode s.gen.mode then s
  else sendFrame 0 s.gf.coordNode 0x03 0 [] { s with gf := { s.gf with missed := if answered then 0 else s.gf.missed + 1 } }

/-- COORDINATOR_HEARTBEAT (R316). -/
def execCoordinatorHeartbeat (answered : Bool) (s : State) : Host.Outcome State Fault Refusal := .next (coordinatorHeartbeatEff answered s)

/-- COORDINATOR_LOSS's effect: after three missed answers the nodes elect a new coordinator; IDs, tables and traffic stay. -/
def coordinatorLossEff (s : State) : State :=
  if ¬ s.gf.isCoord ∧ 3 ≤ s.gf.missed then startDiscovery { s with gf := { s.gf with missed := 0 } } else s

/-- COORDINATOR_LOSS (R316, R312). -/
def execCoordinatorLoss (s : State) : Host.Outcome State Fault Refusal := .next (onFabric coordinatorLossEff s)

/-- GF_NODE.REASSIGN's effect: management's write on a held-out node gives up its ID; discovery gives it a free one. -/
def gfNodeReassignEff (who : Writer) (s : State) : State :=
  if ¬ setupOpen who s then s
  else if who = .host ∨ ¬ mayWrite who Reg.GF_NODE.REASSIGN.reg s then genErr Reg.GEN_ERR.OWNWR Reg.GF_NODE.REASSIGN.reg who s
  else if s.gf.heldOut then startDiscovery { s with gf := { s.gf with node := none, heldOut := false } }
  else s

/-- GF_NODE_REASSIGN (R316, R49). -/
def execGfNodeReassign (who : Writer) (s : State) : Host.Outcome State Fault Refusal := .next (gfNodeReassignEff who s)

/-! Device time (R318, R319). -/

/-- The parent: the neighbour on PRIM toward the master. -/
def timeParent (s : State) : Option Nat :=
  let r := routeTo s.gf.coordNode s
  if r.valid ∧ r.prim < 12 then some (getLink r.prim s).peerNode else none

/-- TIME_EXCHANGE_TIMER's effect. -/
def timeExchangeTimerEff (s : State) : State :=
  if timeMaster s ∨ ¬ fabricMode s.gen.mode then s
  else match timeParent s with
    | some p => sendFrame 0 p 0x04 0 [] s
    | none => s

/-- TIME_EXCHANGE_TIMER (R318). -/
def execTimeExchangeTimer (s : State) : Host.Outcome State Fault Refusal := .next (timeExchangeTimerEff s)

/-- The offset of an exchange, ns: positive when this node is behind its parent. -/
def timeOffset (t1 t2 t3 t4 : Nat) : Int := (((t2 : Int) - t1) - ((t4 : Int) - t3)) / 2

/-- GF_TOFFS.OFFSET: two's complement, saturating. -/
def offsetField (o : Int) : Nat := ((max (-32768) (min 32767 o)) % 65536).toNat

/-- Correct device time by an exchange's offset. A node more than 4,000 ns ahead tells the master, which steps the fabric, and slews away the
remainder. -/
def correctOffset (o : Int) (s : State) : State :=
  if o ≥ 0 then correctBehind o.toNat s
  else if -4000 ≤ o then { s with gf := { s.gf with slew := o } }
  else
    let s := { s with gf := { s.gf with slew := -((o.natAbs % 4000 : Nat) : Int) } }
    sendFrame 0 s.gf.coordNode 0x04 0 [] (emit (.ctrl s.gf.coordNode 0x04 [o.natAbs - o.natAbs % 4000]) s)

/-- TIME's effect: the timestamps are complete, and what the master steps the fabric by comes with them. -/
def timeEff (t1 t2 t3 t4 masterStep : Nat) (s : State) : State :=
  let s := if masterStep < 4000 then s else timeStep (masterStep - masterStep % 4000) s
  if timeMaster s then s
  else
    let o := timeOffset t1 t2 t3 t4
    let good := if -20 ≤ o ∧ o ≤ 20 then s.gf.goodEx + 1 else 0
    let s := setF Reg.GF_TOFFS.OFFSET (offsetField o) (setF Reg.GF_TIMECTL.SYNCED (if 3 ≤ good then 1 else 0) s)
    correctOffset o { s with gf := { s.gf with goodEx := good } }

/-- TIME (R318, R319). -/
def execTime (t1 t2 t3 t4 : Nat) (masterStep : Nat) (s : State) : Host.Outcome State Fault Refusal := .next (onFabric (timeEff t1 t2 t3 t4 masterStep) s)

/-! Frames with a header: remote accesses and management (R308 to R310, R317, R72, R363). -/

/-- The read a response answers. -/
def pendOf (tag : Nat) (s : State) : Option (Nat × Port × Nat × Nat × Nat) := s.gf.pendRd.find? (fun x => x.1 == tag)

/-- An RDREQ takes effect: the region's data goes back, or NAK cause 4. -/
def rdreqRun (h : FrameHdr) (offset len : Nat) (s : State) : State :=
  if expSize s < offset + len ∨ ¬ isOn Reg.GF_EXPCTL.RDEN s then sendNak h.vc h.src h.xseq 4 s
  else
    let s := expReadPrep offset len s
    let bad := ((linesOf (expAddr offset s) len).filter (fun l => s.me.poisoned.contains l))
    let body := (getBytes s.me.exported offset len).map (·.toNat)
    sendFrame 2 h.src 0x21 h.tag [] (emit (.record h.src 0x21 (h.tag :: bad.length :: body)) s)

/-- An RDRESP takes effect: the host's window read completes, with EP if a line is poisoned (R72, R78, R298). -/
def rdrespRun (h : FrameHdr) (data : List Byte) (s : State) : State :=
  match pendOf h.tag s with
  | none => s
  | some x =>
    let s := { s with gf := { s.gf with pendRd := s.gf.pendRd.filter (fun y => y.1 != h.tag) } }
    let bad := h.poison != 0
    let s := if bad then bump (portF x.2.1 Reg.HE_EPCNT.A_COUNT Reg.HE_EPCNT.B_COUNT) (poisonConsumed h.addr s) else s
    readCpl x.2.1 x.2.2.1 h.addr data bad s

/-- The device lines that a frame's POISON marks, for a payload written at a device address. -/
def poisonLines (poison : Word64) (addr line : Nat) : Bool :=
  (List.range 64).any (fun i => poison.getLsbD i && (decide ((addr + 64 * i) / 64 = line) || decide ((addr + 64 * i + 63) / 64 = line)))

/-- A WRITE takes effect in the exported region, or is rejected with NAK cause 4. -/
def writeRun (h : FrameHdr) (offset : Nat) (data : List Byte) (s : State) : State :=
  if expSize s < offset + data.length ∨ ¬ isOn Reg.GF_EXPCTL.WREN s then sendNak h.vc h.src h.xseq 4 s
  else expWrite 5 offset data (poisonLines h.poison (expAddr offset s)) s

/-- A namespace with the identity its description gives, owned by the peer. -/
def createMirrored (d : NsDesc) (s : State) : State :=
  createNs { nsOf d d.nsid true s with nguid := d.nguid, eui := d.eui, ingesting := false, owner := false, migrated := false } s

/-- The segments of a namespace. -/
def segmentsOf (n : Ns) : List (Nat × Nat) := (List.range (ceilDiv (n.nsze * lbaBytes n.lbaf) (2 ^ 26))).map (fun i => (n.nsid, i))

/-- A MGMT frame takes effect: the descriptions that a new standby receives from its active make its namespaces, all still to be seeded
(R326, R342). SPDM exchanges and a session's descriptions act with the rows of SPDM and of MIGSTART. -/
def mgmtRun (h : FrameHdr) (spdm : Bool) (descs : List NsDesc) (s : State) : State :=
  if ¬ spdm ∧ s.gen.mode = .standby ∧ s.tw.st = .seeding ∧ ¬ s.tw.active ∧ h.src = s.tw.peer then
    descs.foldl (fun t d =>
      if (findNs d.nsid t).isSome then t
      else
        let t := createMirrored d t
        { t with tw := { t.tw with seedTodo := t.tw.seedTodo ++ ((findNs d.nsid t).map segmentsOf).getD [] } }) s
  else s

/-- What a delivered frame does. -/
def frameRun (c : Instr) (s : State) : State := match c with
  | .rdreq h offset len => rdreqRun h offset len s
  | .rdresp h data => rdrespRun h data s
  | .writeFrame h offset data => writeRun h offset data s
  | .mgmt h spdm descs => mgmtRun h spdm descs s
  | _ => s

/-- Deliver the frames held for a stream that are now in turn. -/
def deliverHeld (vc src : Nat) : Nat → State → State
  | 0, s => s
  | n + 1, s =>
    let x := getRxStream vc src s
    match x.early.find? (fun e => e.xseq == x.next) with
    | none => s
    | some e =>
      let s := updRxStream vc src (fun x => { x with early := x.early.filter (fun y => y.xseq != e.xseq) }) (putBufs e.bufs s)
      deliverHeld vc src n (frameRun e.cmd (delivered vc src s))

/-- A frame ahead of its turn is held in a receive buffer (owner 4), at most 1,024 ahead, and the gap is NAKed. -/
def holdEarly (h : FrameHdr) (c : Instr) (s : State) : State :=
  let x := getRxStream h.vc h.src s
  let s := sendNak h.vc h.src (if h.xseq > x.next + 1024 then h.xseq else x.next) 0 s
  if h.xseq > x.next + 1024 ∨ x.early.any (fun e => e.xseq == h.xseq) then s
  else match bpAlloc 4 1 (h.vc == 0) s with
    | (some is, t) => updRxStream h.vc h.src (fun x => { x with early := x.early ++ [⟨h.xseq, c, is⟩] }) t
    | (none, t) => t

/-- A frame for this node: its checks (R310), then its place in its stream (R308). `lenGood` is the payload's agreement with its type. -/
def receive (h : FrameHdr) (lenGood : Bool) (c : Instr) (s : State) : State :=
  if ¬ fabricMode s.gen.mode then s
  else if ¬ lenGood ∨ ¬ h.trailerAgrees then frameDiscarded h.vc h.src h.xseq true s
  else if ¬ h.fcrcOk then frameDiscarded h.vc h.src h.xseq false s
  else if ¬ h.linesOk then sendNak h.vc h.src h.xseq 3 s
  else
    let x := getRxStream h.vc h.src s
    if h.xseq < x.next then sendAck h.vc h.src s
    else if h.xseq > x.next then holdEarly h c s
    else deliverHeld h.vc h.src 1025 (frameRun c (delivered h.vc h.src s))

/-- RDREQ (R317, R308, R310). -/
def execRdreq (h : FrameHdr) (offset len : Nat) (s : State) : Host.Outcome State Fault Refusal :=
  .next (receive h (h.len == 16 && decide (1 ≤ len ∧ len ≤ 4096)) (.rdreq h offset len) s)

/-- RDRESP (R72, R310): exactly the length that its RDREQ asked for. -/
def execRdresp (h : FrameHdr) (data : List Byte) (s : State) : Host.Outcome State Fault Refusal :=
  .next (receive h (h.len == data.length && (match pendOf h.tag s with
    | some x => x.2.2.2.1 == data.length
    | none => true)) (.rdresp h data) s)

/-- WRITE_FRAME (R317, R71). -/
def execWriteFrame (h : FrameHdr) (offset : Nat) (data : List Byte) (s : State) : Host.Outcome State Fault Refusal :=
  .next (receive h (h.len == data.length && decide (1 ≤ data.length ∧ data.length ≤ 4096)) (.writeFrame h offset data) s)

/-- MGMT (R363, R342, R308). -/
def execMgmt (h : FrameHdr) (spdm : Bool) (descs : List NsDesc) (s : State) : Host.Outcome State Fault Refusal :=
  .next (receive h (decide (16 ≤ h.len ∧ h.len ≤ 4096)) (.mgmt h spdm descs) s)

/-- RESYNC's effect: held frames below the XSEQ named are discarded, and the stream expects it. -/
def resyncEff (vc src nextXseq : Nat) (s : State) : State :=
  let x := getRxStream vc src s
  if nextXseq < x.next then s
  else
    let gone := x.early.filter (fun e => decide (e.xseq < nextXseq))
    let s := updRxStream vc src (fun x => { x with next := nextXseq, early := x.early.filter (fun e => !decide (e.xseq < nextXseq)) })
      (putBufs (gone.flatMap (·.bufs)) s)
    deliverHeld vc src 1025 s

/-- RESYNC (R309). -/
def execResync (vc : Fin 4) (src nextXseq : Nat) (s : State) : Host.Outcome State Fault Refusal := .next (onFabric (resyncEff vc.val src nextXseq) s)

end Sys2Proof.Machine
end

