-- ==== Sys2Proof/Machine/TwinOps.lean ====
section
/-! DEFINITION. What the twin's and migration's commands share: ownership and rows 10, 11, 13 and 25, the CSN counter of a new active, the
takeover, the session's end (R22 to R24, R38, R163, R322 to R342). -/
namespace Sys2Proof.Machine

/-- TW_PAIR.STATE (Table 13.1). -/
def pairCode (s : State) : Nat := match s.tw.st with
  | .none => 0
  | .seeding => 1
  | .paired => 2
  | .solo => 3
  | .lost => 4
  | .fenced => 5

/-- Record the pair: peer and role, kept over restarts (R335). -/
def recordPair (p : Option (Nat × Bool)) (s : State) : State := { s with prov := { s.prov with pair := p } }

/-- Complete the command that waits for a handshake. -/
def waitCmdDone (sct sc dw0 : Nat) (s : State) : State :=
  match s.tw.waitCmd with
  | some (p, cid) => postCqe p 0 cid sct sc dw0 0 (updTw (fun t => { t with waitCmd := none }) s)
  | none => s

/-! Ownership (R322, R323). -/

/-- This member owns every namespace of the pair, or none. -/
def ownAll (on : Bool) (s : State) : State := { s with ns := s.ns.map (fun (n : Ns) => { n with owner := on }) }

/-- Row 10: STANDBY; every ANA group Inaccessible. -/
def rowTen (s : State) : State := evAna (ownAll false (enterMode 10 .standby s))

/-- Row 11: SERVICE; ANA Optimized for owned namespaces. -/
def rowEleven (s : State) : State := evAna (ownAll true (enterMode 11 .service s))

/-- The standby comes to serve: by row 11, or by row 25 under an exhaustion seal (R38). -/
def serveNow (s : State) : State :=
  if s.prov.exhaustSeal then evModeChanged (evAna (ownAll true (enterMode 25 .sealed s))) else rowEleven s

/-! The CSN counter (R18, R163, R331). -/

/-! The takeover (R330 to R332). -/

/-- Drop the touched bitmaps that `f` picks (R329): their buffers are free again. -/
def dropTouched (f : Nat × Nat → Bool) (s : State) : State :=
  let mine := fun (k : Nat) => f (k / 2 ^ 40, segOf (k / 2 ^ 40) (k % 2 ^ 40) s)
  let gone := s.tw.touchBufs.filter (fun x => f x.1)
  updTw (fun t => { t with
    touched := t.touched.filter (fun k => !mine k), touchBufs := t.touchBufs.filter (fun x => !f x.1),
    touchLost := t.touchLost.filter (fun x => !f x) }) (putBufs (gone.flatMap (·.2)) s)

/-- Drop granules held without a commit record, and every touched bitmap. -/
def dropGranules (s : State) : State :=
  updTw (fun t => { t with heldGranules := [] }) (putBufs (s.tw.heldGranules.flatMap (·.2)) (dropTouched (fun _ => true) s))

/-- TWIN_FENCE_OUT. -/
def fence (on : Bool) (s : State) : State := emit (.pin 2 on) { s with pins := { s.pins with fenceOut := on } }

/-- Takeover (Table 13.3): the peer is fenced, the counter starts above every CSN the peer can have assigned, and the namespaces are served
from here. `cause` is 0 heartbeats, 1 DRAIN notice; its duration is a free value. -/
def takeover (cause : Nat) (s : State) : State :=
  let h := s.tw.ack
  let s := dropGranules (fence true s)
  let s := raiseCsn (Nat.max h s.tw.hbCsn + 2 ^ 20 + 1) s
  let served := s.prov.exhaustSeal
  let s := serveNow s
  let s := if served then s else evModeChanged s
  let s := recordPair (some (s.tw.peer, true)) (updTw (fun t => { t with
    st := .lost, active := true, changed := some [], takeH := h, switching := false, switchSent := false, switchAt := none }) s)
  let s := setF Reg.TW_TAKE.CAUSE cause (setF Reg.TW_TAKE.LAST (Config.freeValue s.freeCtr % 2 ^ 12) (bump Reg.TW_TAKE.COUNT s))
  tickFree s

/-- Both heartbeat paths are lost at a standby (R330): in PAIRED it takes over; in SEEDING it moves to LOST. -/
def standbyAlone (cause : Nat) (s : State) : State :=
  match s.tw.st with
  | .paired => takeover cause s
  | .seeding => updTw (fun t => { t with st := .lost }) s
  | _ => s

/-! Segments (R338). -/

/-- The segments of every namespace. -/
def allSegments (s : State) : List (Nat × Nat) := s.ns.flatMap segmentsOf

/-- The grains of a segment. -/
def segGrains (n : Ns) (seg : Nat) : List Nat :=
  let per := 2 ^ 26 / grainBytes n.grainCode
  ((List.range per).map (fun i => seg * per + i)).filter (fun g => decide (g < n.grains))

/-- An LBA's plaintext as a segment digest takes it (R338): data and metadata; zeros throughout for a lost one. -/
def digestLba (n : Ns) (lba : Nat) (s : State) : List Byte :=
  let none_ := List.replicate (lbaBytes n.lbaf + mdBytes n.lbaf) 0
  let plain := fun (d : HostLba) => d.data ++ d.md
  match lookLba n lba s with
  | .lost => none_
  | .media e => match (copyAt n.nsid (lba / n.k) e s).bind (fun k => k.lbas[lba % n.k]?) with
    | some (.data d) => plain d
    | some .lost => none_
    | _ => plain (zeroLba n)
  | v => plain ((viewData n v).getD (zeroLba n))

/-- A piece digest (R338): SHA-512 over 256 KiB of LBA data in ascending order. -/
def pieceDigest (n : Ns) (seg i : Nat) (s : State) : List Byte :=
  let per := 2 ^ 18 / lbaBytes n.lbaf
  let first := seg * (2 ^ 26 / lbaBytes n.lbaf) + i * per
  shaDigest 0 ((((List.range per).map (first + ·)).filter (fun a => decide (a < n.nsze))).flatMap (fun a => digestLba n a s))

/-- The pieces of a segment: 256, fewer in a short last one. -/
def pieceCount (n : Ns) (seg : Nat) : Nat :=
  Nat.min 256 (ceilDiv (n.nsze - seg * (2 ^ 26 / lbaBytes n.lbaf)) (2 ^ 18 / lbaBytes n.lbaf))

/-- The segment digest (R338): SHA-512 over the piece digests in order, here as a number, its first byte the most significant. -/
def segDigest (nsid seg : Nat) (s : State) : Nat :=
  match findNs nsid s with
  | none => 0
  | some n =>
    (shaDigest 0 ((List.range (pieceCount n seg)).flatMap (fun i => pieceDigest n seg i s))).foldl (fun a b => 256 * a + b.toNat) 0

/-- Send a segment to a node on VC2: one MIGSEG frame, and the heads of its grains' records; its stored grains are read for it (R198). -/
def sendSegment (dst nsid seg : Nat) (s : State) : State :=
  match findNs nsid s with
  | none => s
  | some n =>
    let read := ((segGrains n seg).map (fun g => getEntry nsid g s)).filter (·.stored)
    sendFrame 2 dst 0x23 0 [] (emits ((segGrains n seg).map (fun g => Output.record dst 8 (grainHead nsid g s))) (countEntries read s))

/-! The end of a migration session (Table 13.5A). -/

/-- A session can still abort: it runs, CUTOVER has not been sent, and the sink has not sent CUTACK. -/
def canAbort (s : State) : Bool := decide (1 ≤ s.tw.mig.phase ∧ s.tw.mig.phase ≤ 4) && !s.tw.mig.cutSent

/-- Phase 6 at the source: the seals become permanent, the namespaces are detached, Changed Namespace List is posted. -/
def sourceDone (s : State) : State :=
  let s := s.tw.mig.nsids.foldl (fun t n =>
    evNsChanged n (setNs n (fun x => { x with sealInfo := x.sealInfo.map (fun y => (y.1, true)), attached := [], leaving := [], cutAway := true }) t)) s
  let s := { s with prov := { s.prov with migMark := 0 } }
  dropTransport (flagOff Reg.TW_ERR.CUTUNK (updMig (fun m => { m with phase := 6, unknown := false, cutDone := m.nsids }) s))

end Sys2Proof.Machine
end

