-- ==== Sys2Proof/Machine/TwinCtl.lean ====
section
/-! DEFINITION. Twin Control and Migration Control: rows 118 to 128 of the table (R334 to R341). -/
namespace Sys2Proof.Machine

/-- Command Sequence Error. -/
def seqError (h : AdminHdr) (s : State) : State := adminFail h 0 0x0C s

/-- A refused Twin Control command: the pair state in DW0 as in every completion of it (R336). -/
def twinError (h : AdminHdr) (s : State) : State := adminDone h 0 0x0C (pairCode s) 0 s

/-- The peer can be reached now. -/
def reachable (peer : Nat) (s : State) : Bool := (pickLink 0 peer s).isSome

/-- The lowest direct link to a peer. -/
def directLink (peer : Nat) (s : State) : Nat :=
  ((List.range 12).find? (fun k => (getLink k s).up && (getLink k s).peerNode == peer)).getD 0

/-! Twin Control. -/

/-- PAIR: the request goes out, and the command waits for the peer's answer. -/
def pairBody (h : AdminHdr) (peer idDigest : Nat) (ok : Bool) (s : State) : State :=
  if s.tw.st ≠ .none ∨ s.gen.mode ≠ .service ∨ s.tw.waitCmd.isSome ∨ ¬ ok ∨ ¬ reachable peer s then twinError h s
  else
    sendCtrl peer 0x03 [0, idDigest, s.ns.length] (updTw (fun t => { t with
      peer := peer, peerIdDigest := idDigest, waitCmd := some (h.port, h.cid) }) s)

/-- TWIN_CONTROL_PAIR (R336). -/
def execTwinControlPair (h : AdminHdr) (peer : Nat) (idDigest : Nat) (peerReachable : Bool) (s : State) : Host.Outcome State Fault Refusal :=
  .next (adminCmd h modesAll 64 (pairBody h peer idDigest peerReachable) s)

/-- SWITCH: new I/O is refused, and SWITCH goes once every admitted command has completed. -/
def switchBody (h : AdminHdr) (s : State) : State :=
  if s.tw.st ≠ .paired ∨ ¬ s.tw.active ∨ s.tw.switching ∨ s.tw.waitCmd.isSome then twinError h s
  else switchNow (updTw (fun t => { t with switching := true, switchSent := false, waitCmd := some (h.port, h.cid) }) s)

/-- TWIN_CONTROL_SWITCH (R334). -/
def execTwinControlSwitch (h : AdminHdr) (s : State) : Host.Outcome State Fault Refusal := .next (adminCmd h modesAll 0 (switchBody h) s)

/-- What a standby needs anew at PAIR and at REJOIN: the latency class table and the newest snapshot. -/
def mirrorTables (s : State) : State :=
  let s := mirror 4 ([s.mx.csn, 0x78] ++ classEntries 0x78 s) s
  match s.nand.snaps.head? with
  | some n => mirror 6 [s.mx.csn, n.seq] s
  | none => s

/-- REJOIN: the fence is released and the kind of rejoin chosen; a full reseed formats the returner's namespaces first. -/
def rejoinBody (h : AdminHdr) (peer idDigest returnerCsn : Nat) (s : State) : State :=
  if s.tw.st ≠ .lost ∨ ¬ s.tw.active ∨ peer ≠ s.tw.peer then twinError h s
  else if s.tw.peerIdDigest ≠ 0 ∧ s.tw.peerIdDigest ≠ idDigest then twinError h (flagOn Reg.TW_ERR.PEERID s)
  else
    let todo := match s.tw.changed with
      | some l => if returnerCsn ≤ s.tw.takeH then some l else none
      | none => none
    let s := fence false s
    let s := updTw (fun t => { t with
      st := if todo.getD (allSegments s) = [] then .paired else .seeding, seedTodo := todo.getD (allSegments s), seedFly := [], seedFull := todo.isNone, changed := none, peerIdDigest := idDigest,
      ack := s.mx.csn, stopped := [], pathALost := false, pathBLost := false }) s
    let s := sendCtrl peer 0x03 [2, idDigest, s.ns.length] s
    let s := if todo.isNone then s.ns.foldl (fun t n => mirror 3 [t.mx.csn, 3, n.nsid, n.lbaf] t) s else s
    let s := askDue (mirrorTables s)
    adminDone h 0 0 (pairCode s) 0 s

/-- TWIN_CONTROL_REJOIN (R335). -/
def execTwinControlRejoin (h : AdminHdr) (peer : Nat) (idDigest : Nat) (returnerCsn : Nat) (s : State) : Host.Outcome State Fault Refusal :=
  .next (adminCmd h modesAll 64 (rejoinBody h peer idDigest returnerCsn) s)

/-- A member that pairs no more. -/
def unpaired (s : State) : State :=
  dropTransport (recordPair none (dropGranules { s with tw := { Tw.reset with mig := s.tw.mig, hbSeq := s.tw.hbSeq } }))

/-- UNPAIR: the standby is told to delete its copies; the active becomes NONE, and its commits wait for nobody. -/
def unpairBody (h : AdminHdr) (s : State) : State :=
  if ¬ s.tw.active ∨ s.tw.switching ∨ s.tw.st = .none ∨ s.tw.st = .fenced then twinError h s
  else
    let ids := s.tw.winWait
    let s := unpaired (sendCtrl s.tw.peer 0x03 [3, s.tw.peerIdDigest, 0] s)
    let s := retryCommits (updTw (fun t => { t with winWait := ids }) s)
    adminDone h 0 0 (pairCode s) 0 s

/-- TWIN_CONTROL_UNPAIR (R336). -/
def execTwinControlUnpair (h : AdminHdr) (s : State) : Host.Outcome State Fault Refusal := .next (adminCmd h modesAll 0 (unpairBody h) s)

/-- RELEASE: row 11 for an unpaired member in STANDBY that owns no namespace. -/
def releaseBody (h : AdminHdr) (s : State) : State :=
  if s.tw.st ≠ .none ∨ s.gen.mode ≠ .standby ∨ s.ns ≠ [] then twinError h s
  else
    let s := rowEleven s
    adminDone h 0 0 (pairCode s) 0 s

/-- TWIN_CONTROL_RELEASE (R336). -/
def execTwinControlRelease (h : AdminHdr) (s : State) : Host.Outcome State Fault Refusal := .next (adminCmd h modesAll 0 (releaseBody h) s)

/-! Migration Control. -/

/-- No session runs at this end. -/
def noSession (s : State) : Bool := s.tw.mig.phase == 0 || s.tw.mig.phase == 6 || s.tw.mig.phase == 7

/-- ARM: the sink takes row 12 and waits for its source. -/
def armBody (h : AdminHdr) (peer idDigest : Nat) (s : State) : State :=
  if s.gen.mode ≠ .service ∨ s.ns ≠ [] ∨ s.tw.st ≠ .none ∨ ¬ noSession s then seqError h s
  else
    let s := enterModeEv 12 .ingest (updMig (fun _ => { Mig.none with phase := 1, role := 2, peer := peer, idDigest := idDigest }) s)
    adminOk h { s with prov := { s.prov with migMark := 0 } }

/-- MIGRATION_CONTROL_ARM (R337, R341). -/
def execMigrationControlArm (h : AdminHdr) (peer : Nat) (idDigest : Nat) (s : State) : Host.Outcome State Fault Refusal :=
  .next (adminCmd h modesAll 64 (armBody h peer idDigest) s)

/-- The namespaces named for a session: 1 to 1,024, all present, none twice, and none cut away before. -/
def startNsOk (nsids : List Nat) (s : State) : Bool :=
  decide (1 ≤ nsids.length ∧ nsids.length ≤ 1024 ∧ nsids.Nodup) && nsids.all (fun n => (findNs n s).any (fun x => !x.cutAway))

/-- START: the request and the descriptions go to the sink, and the command waits for its answer. -/
def startBody (h : AdminHdr) (auto : Bool) (peer idDigest : Nat) (nsids : List Nat) (s : State) : State :=
  if (s.gen.mode ≠ .service ∧ s.gen.mode ≠ .sealed) ∨ (s.tw.st ≠ .none ∧ ¬ s.tw.active) ∨ ¬ noSession s ∨ s.tw.waitCmd.isSome ∨
      ¬ startNsOk nsids s ∨ ¬ reachable peer s then seqError h s
  else
    let s := updTw (fun t => { t with
      waitCmd := some (h.port, h.cid), stopped := [],
      mig := { Mig.none with role := 1, peer := peer, auto := auto, nsids := nsids, idDigest := idDigest } }) s
    sendCtrl peer 0x10 [idDigest, nsids.length] (sendFrame 3 peer 0x32 0 [] s)

/-- MIGRATION_CONTROL_START (R337, R341). -/
def execMigrationControlStart (h : AdminHdr) (auto : Bool) (peer : Nat) (idDigest : Nat) (nsids : List Nat) (s : State) :
    Host.Outcome State Fault Refusal := .next (adminCmd h modesAll (68 + 4 * nsids.length) (startBody h auto peer idDigest nsids) s)

/-- The source enters SEALED: every namespace of the session that is not sealed yet is sealed, pending permanence. The session's own seals are
not recorded until CUTOVER, so that a restart before it lifts them (Table 13.5A). -/
def sealSession (s : State) : State :=
  let mine := s.tw.mig.nsids.filter (fun n => ((findNs n s).bind (·.sealInfo)).isNone)
  updMig (fun m => { m with phase := 4, sealed := mine }) (mine.foldl (fun t n => updNs n (fun x => { x with sealInfo := some (x.lastCsn, false) }) t) s)

/-- SEAL: phase SEALED, from FIRST or DIRTY. -/
def sealBody (h : AdminHdr) (s : State) : State :=
  if s.tw.mig.role = 1 ∧ (s.tw.mig.phase = 2 ∨ s.tw.mig.phase = 3) then adminOk h (sealSession s) else seqError h s

/-- MIGRATION_CONTROL_SEAL (R339, R341). -/
def execMigrationControlSeal (h : AdminHdr) (s : State) : Host.Outcome State Fault Refusal := .next (adminCmd h modesAll 0 (sealBody h) s)

/-- ABORT: the other end is told, and the session ends here. -/
def migAbortBody (h : AdminHdr) (s : State) : State :=
  if canAbort s then adminOk h (abortSession (sendCtrl s.tw.mig.peer 0x16 [0] s)) else seqError h s

/-- MIGRATION_CONTROL_ABORT (R340, R341). -/
def execMigrationControlAbort (h : AdminHdr) (s : State) : Host.Outcome State Fault Refusal := .next (adminCmd h modesAll 0 (migAbortBody h) s)

/-- TW_MIGSTAT.PHASE: 8 while the cutover's outcome is unknown. -/
def migPhase (s : State) : Nat := if s.tw.mig.unknown then 8 else s.tw.mig.phase

/-- DW0 of STATUS: phase, role, dirty segments. -/
def migStatus (s : State) : Nat := migPhase s + 16 * s.tw.mig.role + 256 * Nat.min s.tw.mig.dirty.length (2 ^ 24 - 1)

/-- MIGRATION_CONTROL_STATUS (R341). -/
def execMigrationControlStatus (h : AdminHdr) (s : State) : Host.Outcome State Fault Refusal :=
  .next (adminCmd h modesAll 0 (fun t => adminDone h 0 0 (migStatus t) 0 t) s)

/-- The source's namespaces come back: nothing was cut over. -/
def notCutOver (s : State) : State :=
  let ids := s.tw.mig.nsids
  let s := ids.foldl (fun t n => setNs n (fun x => { x with
    cutAway := false, sealInfo := if x.sealInfo.any (·.2) then x.sealInfo else none }) t) s
  let s := { s with prov := { s.prov with migMark := 0 } }
  flagOff Reg.TW_ERR.CUTUNK (evFabric (updMig (fun m => { Mig.none with phase := 7, role := 1, peer := m.peer }) s))

/-- RESOLVE: declares the outcome of a cutover that a restart left unknown. -/
def resolveBody (h : AdminHdr) (cutOver : Bool) (s : State) : State :=
  if ¬ s.tw.mig.unknown then seqError h s
  else adminOk h (if cutOver then sourceDone s else notCutOver s)

/-- MIGRATION_CONTROL_RESOLVE (R340, R341). -/
def execMigrationControlResolve (h : AdminHdr) (cutOver : Bool) (s : State) : Host.Outcome State Fault Refusal :=
  .next (adminCmd h modesAll 0 (resolveBody h cutOver) s)

end Sys2Proof.Machine
end

