-- ==== Sys2Proof/Machine/Twin.lean ====
section
/-! DEFINITION. Mirrored records, heartbeats, takeover, SOLO, pairing, switchover and seeding: rows 215 to 232 of the table (R227, R325 to R336,
R342). -/
namespace Sys2Proof.Machine

/-- A standby that applies what the active sends: under an exhaustion seal it stops (R38). -/
def standbyOn (s : State) : Bool :=
  s.gen.mode == .standby && !s.tw.active && (s.tw.st == .seeding || s.tw.st == .paired) && !s.prov.exhaustSeal

/-- A mirrored record was delivered: its frame counts in the stream (R308). -/
def recordIn (s : State) : State := delivered 1 s.tw.peer s

/-! Mirrored records (R326, R327). -/

/-- MIRROR_GRANULES's effect: the grain is held in Gareo receive buffers; without one its frame is not delivered. -/
def mirrorGranulesEff (g : GrainRec) (s : State) : State :=
  if ¬ standbyOn s then s
  else match bpAlloc 4 (Nat.max 1 (ceilDiv g.glen 8)) false s with
    | (some is, t) => recordIn (updTw (fun x => { x with heldGranules := x.heldGranules ++ [(g, is)] }) t)
    | (none, t) => t

/-- MIRROR_GRANULES (R326). -/
def execMirrorGranules (g : GrainRec) (s : State) : Host.Outcome State Fault Refusal := .next (mirrorGranulesEff g s)

/-- The changes of a commit record: each delta takes the data of the oldest held granules of its grain. -/
def recordChanges : List GrainRec → State → List Change × State
  | [], s => ([], s)
  | d :: t, s =>
    let same := fun (x : GrainRec × List Nat) => decide (x.1.nsid = d.nsid ∧ x.1.grain = d.grain)
    match (if d.dealloc ∨ d.lost then none else s.tw.heldGranules.find? same) with
    | some x =>
      let c := { recChange { d with lbas := x.1.lbas } s with bufs := x.2 }
      match recordChanges t (updTw (fun y => { y with heldGranules := y.heldGranules.eraseP same }) s) with
      | (cs, u) => (c :: cs, u)
    | none => match recordChanges t s with
      | (cs, u) => (recChange d s :: cs, u)

/-- The standby of a switchover becomes active once it has applied up to the CSN that SWITCH named (R334). -/
def finishSwitch (s : State) : State :=
  match s.tw.switchAt with
  | some n =>
    if s.tw.ack < n then s
    else
      let s := serveNow (dropGranules s)
      let s := recordPair (some (s.tw.peer, true)) (updTw (fun t => { t with active := true, switchAt := none, switching := false }) s)
      sendCtrl s.tw.peer 0x06 [s.tw.ack] s
  | none => s

/-- Apply one commit record under its CSN, the ceiling covering it first (R163). -/
def applyRecord (csn : Nat) (deltas : List GrainRec) (s : State) : State :=
  let s := coverCsn csn s
  let was := s.mx.csn
  let r := recordChanges deltas s
  let s := commitAll csn r.1 r.2
  finishSwitch (updTw (fun t => { t with ack := csn }) { s with mx := { s.mx with csn := Nat.max was csn } })

/-- MIRROR_COMMIT_RECORD's effect: records are applied in ascending CSN order; one already applied is only acknowledged. -/
def mirrorCommitRecordEff (csn : Nat) (deltas : List GrainRec) (s : State) : State :=
  if ¬ standbyOn s then s
  else
    let s := recordIn s
    if csn ≤ s.tw.ack then s else applyRecord csn deltas s

/-- MIRROR_COMMIT_RECORD (R23, R326, R327). -/
def execMirrorCommitRecord (csn : Nat) (deltas : List GrainRec) (s : State) : Host.Outcome State Fault Refusal :=
  .next (mirrorCommitRecordEff csn deltas s)

/-- Perform a mirrored namespace operation. A format in SEEDING is the returner's, with SES 1 (R335). -/
def mirroredOp (op : NsOp) (s : State) : State :=
  match op with
  | .create d => evNsChanged d.nsid (createMirrored d s)
  | .delete n => deleteNs n (evNsChanged n s)
  | .format n lbaf ext pi => formatNs n lbaf ext pi (s.tw.st == .seeding) s
  | .attach n on => attachNs n on (allCntlids s) s
  | .seal n csn perm => setNs n (fun x => { x with sealInfo := some (csn, perm) }) s
  | .unseal n => unsealNsNow n s

/-- MIRROR_NAMESPACE_OPERATION (R326). -/
def execMirrorNamespaceOperation (op : NsOp) (s : State) : Host.Outcome State Fault Refusal :=
  .next (if standbyOn s then mirroredOp op (recordIn s) else s)

/-- Replace entries of the latency class table: (class, fields). -/
def mirroredClasses (entries : List (Nat × List Nat)) (s : State) : State :=
  { s with sh := { s.sh with lct := s.sh.lct.zipIdx.map (fun x => match entries.find? (fun e => e.1 == x.2 + 3) with
    | some e => classOf e.2
    | none => x.1) } }

/-- MIRROR_LATENCY_CLASS_TABLE (R326). -/
def execMirrorLatencyClassTable (entries : List (Nat × List Nat)) (s : State) : Host.Outcome State Fault Refusal :=
  .next (if standbyOn s then mirroredClasses entries (recordIn s) else s)

/-- MIRROR_XTS_KEY (R326, R244): the key is wrapped again under this member's own key-encryption key, in two copies. -/
def execMirrorXtsKey (nsid : Nat) (_wrapped : Nat) (s : State) : Host.Outcome State Fault Refusal :=
  .next (if standbyOn s then putKey nsid 2 (setNs nsid (fun n => { n with keyGen := n.keyGen + 1 }) (recordIn s)) else s)

/-- MIRROR_SNAPSHOT (R326). -/
def execMirrorSnapshot (snap : Snap) (s : State) : Host.Outcome State Fault Refusal :=
  .next (if standbyOn s then updTw (fun t => { t with peerSnaps := (snap :: t.peerSnaps).take 2 }) (recordIn s) else s)

/-! Repair from the peer (R227). -/

/-- A pair whose members can ask each other. -/
def repairOn (s : State) : Bool := (s.tw.st == .seeding || s.tw.st == .paired || s.tw.st == .solo) && mediaMode s.gen.mode

/-- Store an accepted answer: V5 host data pages with the origin CSN, and a RACK record whose source is the lost entry. -/
def storeRepair (g : GrainRec) (e : MapEntry) (s : State) : State :=
  match takeVatPage (openPairs s) s with
  | none => s
  | some (l, s1) =>
    let loc := { vatEntry l.1 l.2.1 l.2.2.1 l.2.2.2 0 g.glen s1 with rgen := e.rgen }
    let s1 := vatProgrammed l s1
    let c : Copy := { loc := loc, nsid := g.nsid, grain := g.grain, csn := g.csn, vintage := 5, lbas := (recChange g s1).vals, vat := true, bad1 := false, bad2 := false }
    let s1 := putEntry g.nsid g.grain loc { s1 with nand := { s1.nand with copies := s1.nand.copies ++ [c] } }
    let s1 := jAppend (jRack g.nsid g.grain e loc) s1
    let s1 := bump Reg.SP_LOSTCNT.REPAIRED s1
    { s1 with lost := s1.lost.map (fun (x : LostExt) =>
        if x.nsid = g.nsid ∧ x.slba = grainSlba g.nsid g.grain s1 then { x with repaired := true } else x) }

/-- The origin CSN that log C4h gives a lost grain. -/
def lostCsnOf (g : GrainRec) (asked : Nat) (s : State) : Nat :=
  ((s.lost.find? (fun x => decide (x.nsid = g.nsid ∧ x.slba = grainSlba g.nsid g.grain s))).map (·.csn)).getD asked

/-- MIRROR_REPAIR's effect: a request is answered with the current stored form; an answer is stored if the entry is still lost and its CSN
suffices. -/
def mirrorRepairEff (isAnswer : Bool) (g : GrainRec) (lostCsn : Nat) (s : State) : State :=
  if ¬ repairOn s then s
  else
    let s := recordIn s
    if isAnswer then
      let e := getEntry g.nsid g.grain s
      if e.lost ∧ ¬ e.staged ∧ lostCsnOf g lostCsn s ≤ g.csn then storeRepair g e s else s
    else sendFrame 1 s.tw.peer 0x10 0 [7] (emit (.record s.tw.peer 7 (grainHead g.nsid g.grain s)) s)

/-- MIRROR_REPAIR (R227). -/
def execMirrorRepair (isAnswer : Bool) (g : GrainRec) (lostCsn : Nat) (s : State) : Host.Outcome State Fault Refusal :=
  .next (onFabric (mirrorRepairEff isAnswer g lostCsn) s)

/-! Heartbeats and takeover (R330 to R332). -/

/-- A member that heartbeats. -/
def beats (s : State) : Bool := s.tw.st != .none && s.tw.st != .fenced && fabricMode s.gen.mode

/-- HB goes first on the direct link of path A, and otherwise as GF routes it (R330). -/
def sendHb (fields : List Nat) (s : State) : State :=
  let p := s.tw.peer
  let l := getLink s.tw.hbLink s
  let via := if l.up ∧ l.peerNode = p then some s.tw.hbLink else pickLink 0 p s
  sendVia via 0 p 0x03 0 [] (payResync 0 p (emit (.ctrl p 0x01 fields) s))

/-- HB_SEND_TIMER's effect: HB on path A, a change of level on path B. -/
def hbSendTimerEff (s : State) : State :=
  if ¬ beats s then s
  else
    let n := (s.tw.hbSeq + 1) % 2 ^ 32
    let lvl := !s.pins.hbOut
    let s := { s with pins := { s.pins with hbOut := lvl } }
    sendHb [n, pairCode s, if s.tw.active then s.mx.csn else s.tw.ack] (emit (.pin 3 lvl) (updTw (fun t => { t with hbSeq := n }) s))

/-- HB_SEND_TIMER (R330, R331). -/
def execHbSendTimer (s : State) : Host.Outcome State Fault Refusal := .next (hbSendTimerEff s)

/-- HB's effect: path A is good, and the peer's CSN is remembered; the active's state PAIRED ends the standby's seeding. -/
def hbEff (peerState csn : Nat) (s : State) : State :=
  if s.tw.st = .none ∨ s.tw.st = .fenced then s
  else
    let s := updTw (fun t => { t with pathALost := false, hbCsn := Nat.max t.hbCsn csn }) s
    if standbyOn s ∧ s.tw.st = .seeding ∧ peerState = 2 then dropTouched (fun _ => true) (updTw (fun t => { t with st := .paired, seedTodo := [] }) s) else s

/-- HB (R330, R331). -/
def execHb (_seq peerState : Nat) (csn : Nat) (s : State) : Host.Outcome State Fault Refusal := .next (onFabric (hbEff peerState csn) s)

/-- HB_PATH_LOST's effect: one path lost is recorded and posted; both lost, the standby acts, unless a switchover runs (R333). -/
def hbPathLostEff (pathB : Bool) (sinceUs : Nat) (s : State) : State :=
  if sinceUs < 202 ∨ ¬ (s.tw.st = .seeding ∨ s.tw.st = .paired ∨ s.tw.st = .solo) then s
  else
    let s := updTw (fun t => if pathB then { t with pathBLost := true } else { t with pathALost := true }) s
    if ¬ (s.tw.pathALost ∧ s.tw.pathBLost) then evFabric (flagOn Reg.TW_ERR.HBPATH s)
    else if s.tw.active ∨ s.gen.mode ≠ .standby ∨ s.tw.switchAt.isSome then s
    else standbyAlone 0 s

/-- HB_PATH_LOST (R330, R331, R333). -/
def execHbPathLost (pathB : Bool) (sinceUs : Nat) (s : State) : Host.Outcome State Fault Refusal := .next (onFabric (hbPathLostEff pathB sinceUs) s)

/-- DRAIN_NOTICE's effect: the standby fences and takes over at once. -/
def drainNoticeEff (csn : Nat) (s : State) : State :=
  if s.tw.active ∨ s.gen.mode ≠ .standby then s
  else standbyAlone 1 (updTw (fun t => { t with hbCsn := Nat.max t.hbCsn csn }) s)

/-- DRAIN_NOTICE (R332). -/
def execDrainNotice (csn : Nat) (s : State) : Host.Outcome State Fault Refusal := .next (onFabric (drainNoticeEff csn) s)

/-- SOLO_ENTRY's effect: a write's acknowledgement is overdue. Commits wait on the window no longer. -/
def soloEntryEff (cmd : Nat) (s : State) : State :=
  match findCmd cmd s with
  | some c =>
    if s.tw.active ∧ s.tw.st = .paired ∧ changesData c.kind ∧ ¬ c.acked then
      retryCommits (evFabric (flagOn Reg.TW_ERR.SOLO (updTw (fun t => { t with st := .solo }) s)))
    else s
  | none => s

/-- SOLO_ENTRY (R328). -/
def execSoloEntry (cmd : Nat) (s : State) : Host.Outcome State Fault Refusal := .next (onFabric (soloEntryEff cmd) s)

/-- SOLO_EXIT's effect: the acknowledgements have reached the highest CSN, and both paths have been good for 10 ms. -/
def soloExitEff (goodMs : Nat) (s : State) : State :=
  if s.tw.active ∧ s.tw.st = .solo ∧ 10 ≤ goodMs ∧ s.mx.csn ≤ s.tw.ack ∧ ¬ s.tw.pathALost ∧ ¬ s.tw.pathBLost then
    evFabric (updTw (fun t => { t with st := .paired }) s)
  else s

/-- SOLO_EXIT (R328). -/
def execSoloExit (goodMs : Nat) (s : State) : Host.Outcome State Fault Refusal := .next (onFabric (soloExitEff goodMs) s)

/-! Pairing (R336). -/

/-- The standby's side of an accepted PAIR or REJOIN. -/
def becomeStandby (src : Nat) (s : State) : State :=
  let s := dropGranules s
  recordPair (some (src, false)) { s with tw := { Tw.reset with
    st := .seeding, active := false, peer := src, hbLink := directLink src s, seedTodo := allSegments s, repairDue := s.tw.repairDue, mig := s.tw.mig } }

/-- PAIRREQ's effect, by action: 0 PAIR, 2 REJOIN, 3 UNPAIR. -/
def pairreqEff (src action : Nat) (idOk : Bool) (s : State) : State :=
  let accept := fun (t : State) => sendCtrl src 0x04 [0] t
  let refuse := fun (t : State) => sendCtrl src 0x04 [1] t
  if ¬ fabricMode s.gen.mode then s
  else if ¬ idOk then refuse (flagOn Reg.TW_ERR.PEERID s)
  else match action with
    | 0 =>
      if s.tw.st = .none ∧ s.gen.mode = .service ∧ s.ns = [] ∧ noSession s then accept (rowTen (becomeStandby src s)) else refuse s
    | 2 =>
      if s.gen.mode = .standby ∧ s.prov.pair = some (src, false) then accept (becomeStandby src s) else refuse s
    | 3 =>
      if s.tw.st ≠ .none ∧ ¬ s.tw.active ∧ s.tw.peer = src then
        accept (unpaired (s.ns.foldl (fun t n => deleteNs n.nsid t) s))
      else refuse s
    | _ => refuse s

/-- PAIRREQ (R335, R336). -/
def execPairreq (src : Nat) (action : Nat) (idOk : Bool) (_nsCount : Nat) (s : State) : Host.Outcome State Fault Refusal :=
  .next (pairreqEff src action idOk s)

/-- The active's side of an accepted PAIR: SEEDING of every segment, which is over at once where there is none; the descriptions, the keys and the tables go to the standby. -/
def becomeActive (s : State) : State :=
  let p := s.tw.peer
  let s := updTw (fun t => { t with
    st := if allSegments s = [] then .paired else .seeding, active := true, ack := s.mx.csn, hbLink := directLink p s, seedTodo := allSegments s, seedFull := true, stopped := [],
    pathALost := false, pathBLost := false }) s
  let s := sendFrame 3 p 0x32 0 [] (recordPair (some (p, true)) { s with dg := { s.dg with transport := true } })
  mirrorTables ((s.ns.filter (·.xts)).foldl (fun t n => mirror 5 [t.mx.csn, n.nsid, sentKey p n.nsid t] t) s)

/-- PAIRACK's effect: it answers the PAIR that waits. -/
def pairackEff (accepted identityOk : Bool) (s : State) : State :=
  if s.tw.st ≠ .none ∨ s.tw.waitCmd.isNone ∨ s.tw.mig.role = 1 ∧ s.tw.mig.phase = 0 then s
  else if ¬ identityOk then waitCmdDone 0 0x0C (pairCode s) (flagOn Reg.TW_ERR.PEERID s)
  else if ¬ accepted then waitCmdDone 0 0x0C (pairCode s) s
  else
    let s := becomeActive s
    waitCmdDone 0 0 (pairCode s) s

/-- PAIRACK (R336). -/
def execPairack (accepted identityOk : Bool) (s : State) : Host.Outcome State Fault Refusal := .next (onFabric (pairackEff accepted identityOk) s)

/-! Switchover (R334). -/

/-- SWITCH's effect at the standby. -/
def switchEff (csn : Nat) (s : State) : State :=
  if standbyOn s ∧ s.tw.st = .paired then finishSwitch (updTw (fun t => { t with switching := true, switchAt := some csn }) s) else s

/-- SWITCH (R334). -/
def execSwitch (csn : Nat) (s : State) : Host.Outcome State Fault Refusal := .next (switchEff csn s)

/-- SWITCHACK's effect: the former active becomes standby by row 10, and the command completes; with both heartbeat paths lost it then acts as
a standby does (R333). -/
def switchackEff (csn : Nat) (s : State) : State :=
  if ¬ (s.tw.switching ∧ s.tw.active ∧ s.tw.switchSent) then s
  else
    let s := rowTen s
    let s := recordPair (some (s.tw.peer, false)) (updTw (fun t => { t with
      active := false, switching := false, switchSent := false, ack := Nat.max t.ack csn }) s)
    let s := waitCmdDone 0 0 (pairCode s) s
    if s.tw.pathALost ∧ s.tw.pathBLost then standbyAlone 0 s else s

/-- SWITCHACK (R334, R333). -/
def execSwitchack (csn : Nat) (s : State) : Host.Outcome State Fault Refusal := .next (onFabric (switchackEff csn) s)

/-! Seeding (R329). -/

/-- Strike a segment off the seeding, its digests having matched; with none left the pair becomes PAIRED. -/
def segSeeded (nsid seg : Nat) (s : State) : State :=
  let s := updTw (fun t => { t with
    seedFly := t.seedFly.filter (fun x => x != (nsid, seg)),
    seedTodo := t.seedTodo.filter (fun x => x != (nsid, seg)) }) (dropTouched (fun x => x == (nsid, seg)) s)
  if s.tw.seedTodo = [] then updTw (fun t => { t with st := .paired, seedFull := false }) s else s

/-- The standby's part: it stores every grain not touched since, and keeps its own copy of the others. A segment whose touched bitmap found no
buffer loses this seed; a later pass sends it again, and its bitmap starts afresh. The comparison of digests ends the segment (R329, R338). -/
def storeSeed (nsid seg : Nat) (grains : List GrainRec) (s : State) : State :=
  if s.tw.touchLost.contains (nsid, seg) then updTw (fun t => { t with touchLost := t.touchLost.filter (fun x => x != (nsid, seg)) }) s
  else
    updTw (fun t => { t with seedFly := addOnce t.seedFly (nsid, seg) })
      (grains.foldl (fun t g => if t.tw.touched.contains (gkey g.nsid g.grain) then t else storeGrain g t)
        (coverCsn (maxOf (grains.map (·.csn))) s))

/-- SEED_SEGMENT_SEND's effect, at the active and at the standby. -/
def seedSegmentSendEff (nsid seg : Nat) (grains : List GrainRec) (s : State) : State :=
  if s.tw.st ≠ .seeding ∨ ¬ s.tw.seedTodo.contains (nsid, seg) then s
  else if s.tw.active then
    if s.tw.stopped.contains 2 ∨ s.tw.seedFly.contains (nsid, seg) ∨ getF Reg.TW_MIGCFG.PAR s ≤ s.tw.seedFly.length then s
    else
      sendCtrl s.tw.peer 0x12 [nsid, seg, 1, segDigest nsid seg s]
        (sendSegment s.tw.peer nsid seg (updTw (fun t => { t with seedFly := t.seedFly ++ [(nsid, seg)] }) s))
  else if standbyOn s then storeSeed nsid seg grains s
  else s

/-- SEED_SEGMENT_SEND (R329). -/
def execSeedSegmentSend (nsid seg : Nat) (grains : List GrainRec) (s : State) : Host.Outcome State Fault Refusal :=
  .next (onFabric (seedSegmentSendEff nsid seg grains) s)

end Sys2Proof.Machine
end

