-- ==== Sys2Proof/Machine/Migration.lean ====
section
/-! DEFINITION. Migration messages: rows 233 to 244 of the table (R24, R337 to R342, Tables 13.5, 13.5A and 13.6). -/
namespace Sys2Proof.Machine

/-! The start (R337). -/

/-- What a MIGSTART finds: 0 accepted, 1 capacity, 2 identity, 3 state. -/
def migResult (src : Nat) (idOk : Bool) (descs : List NsDesc) (s : State) : Nat :=
  if s.tw.mig.role ≠ 2 ∨ s.tw.mig.phase ≠ 1 ∨ s.tw.mig.peer ≠ src then 3
  else if ¬ idOk then 2
  else
    let need := sumOf ((descs.filter (fun d => !d.thin)).map (fun d => d.ncap * lbaBytes d.lbaf))
    let pages := sumOf (descs.map (fun d => (nsOf d d.nsid true s).mapPages))
    if freeCapacity s < need ∨ maxPages < allPages s + pages then 1 else 0

/-- The sink creates a namespace of the session, its identity still the source's alone. -/
def createIngested (d : NsDesc) (s : State) : State :=
  let s := createNs { nsOf d d.nsid true s with nguid := 0, eui := 0 } s
  if d.xts then putKey d.nsid 2 (setNs d.nsid (fun n => { n with keyGen := n.keyGen + 1 }) s) else s

/-- MIGSTART's effect. -/
def migstartEff (src : Nat) (idOk : Bool) (descs : List NsDesc) (s : State) : State :=
  let r := migResult src idOk descs s
  let s := flagIf (r == 2) Reg.TW_ERR.PEERID s
  if r ≠ 0 then sendCtrl src 0x11 [r] s
  else
    let s := descs.foldl (fun t d => createIngested d t) s
    let s := updMig (fun m => { m with phase := 2, nsids := descs.map (·.nsid), pass := 1 }) s
    sendCtrl src 0x11 [0] { s with dg := { s.dg with transport := true } }

/-- MIGSTART (R337, Table 13.6). -/
def execMigstart (src : Nat) (idOk : Bool) (descs : List NsDesc) (s : State) : Host.Outcome State Fault Refusal :=
  .next (onFabric (migstartEff src idOk descs) s)

/-- The source begins FIRST: every segment once, the dirty bitmap armed and clear; the keys go under the transport key. -/
def beginFirst (s : State) : State :=
  let m := s.tw.mig
  let ns := s.ns.filter (fun n => m.nsids.contains n.nsid)
  let s := updMig (fun m => { m with phase := 2, pass := 1, todo := ns.flatMap segmentsOf, dirty := [] }) s
  let s := emits ((ns.filter (·.xts)).map (fun n => Output.record m.peer 5 [n.nsid, sentKey m.peer n.nsid s])) { s with dg := { s.dg with transport := true } }
  waitCmdDone 0 0 0 s

/-- MIGACK's effect: it answers the START that waits. -/
def migackEff (result : Nat) (s : State) : State :=
  if s.tw.mig.role ≠ 1 ∨ s.tw.mig.phase ≠ 0 ∨ s.tw.waitCmd.isNone then s
  else if result = 0 then beginFirst s
  else
    let s := if result = 1 then flagOn Reg.TW_ERR.SINKCAP s else if result = 2 then flagOn Reg.TW_ERR.PEERID s else s
    waitCmdDone 0 0x0C 0 (updMig (fun _ => Mig.none) s)

/-- MIGACK (R337, Table 13.6). -/
def execMigack (result : Nat) (s : State) : Host.Outcome State Fault Refusal := .next (onFabric (migackEff result) s)

/-! Segments (R338, R339). -/

/-- The source of a session in its passes. -/
def sourcing (s : State) : Bool := s.tw.mig.role == 1 && decide (2 ≤ s.tw.mig.phase ∧ s.tw.mig.phase ≤ 4)

/-- MIGRATION_SEGMENT_SEND's effect: the read clears the dirty bit, the records go on VC2, and SEGDIG follows with the segment's digest. -/
def migrationSegmentSendEff (nsid seg : Nat) (s : State) : State :=
  let m := s.tw.mig
  let sg := (nsid, seg)
  if ¬ sourcing s ∨ ¬ m.todo.contains sg ∨ getF Reg.TW_MIGCFG.PAR s ≤ m.flying.length ∨ s.tw.stopped.contains 2 then s
  else
    let s := updMig (fun m => { m with
      todo := m.todo.erase sg, dirty := m.dirty.filter (fun x => x != sg), matched := m.matched.filter (fun x => x != sg),
      flying := m.flying ++ [sg], sent := Nat.min (m.sent + 1) (2 ^ 32 - 1) }) s
    sendCtrl m.peer 0x12 [nsid, seg, m.pass, segDigest nsid seg s] (sendSegment m.peer nsid seg s)

/-- MIGRATION_SEGMENT_SEND (R338, R339). -/
def execMigrationSegmentSend (nsid seg : Nat) (s : State) : Host.Outcome State Fault Refusal := .next (onFabric (migrationSegmentSendEff nsid seg) s)

/-- MIGSEG's effect: the sink stores the record in place of any earlier copy, with its origin CSN; the counter stays. -/
def migsegEff (g : GrainRec) (s : State) : State :=
  if s.tw.mig.role = 2 ∧ s.gen.mode = .ingest ∧ (findNs g.nsid s).any (·.ingesting) then
    storeGrain g s
  else s

/-- MIGSEG (R24, R338). -/
def execMigseg (g : GrainRec) (s : State) : Host.Outcome State Fault Refusal := .next (migsegEff g s)

/-- The standby compares a seed's digests (R329): a match strikes the segment off; a mismatch, or a seed it dropped, is sent again. -/
def seedCompared (nsid seg pass : Nat) (same : Bool) (s : State) : State :=
  let ok := same && s.tw.seedFly.contains (nsid, seg)
  let s := if ok then segSeeded nsid seg s else updTw (fun t => { t with seedFly := t.seedFly.filter (fun x => x != (nsid, seg)) }) s
  sendCtrl s.tw.peer 0x13 [nsid, seg, pass, if ok then 0 else 1] s

/-- SEGDIG's effect: the sink, or the standby of a seeding, compares the digest with that of what it stored, accepts under R349, and
answers. `flip`: the one bit of the two flags that a fault flipped before they were read, if any. -/
def segdigEff (nsid seg pass theirs : Nat) (flip : Option (Fin 64)) (s : State) : State :=
  let ours := segDigest nsid seg s
  if standbyOn s ∧ s.tw.st = .seeding then seedCompared nsid seg pass (comparedAs (theirs == ours) flip) s
  else
  if s.tw.mig.role = 2 ∧ 2 ≤ s.tw.mig.phase ∧ s.tw.mig.phase ≤ 5 then
    sendCtrl s.tw.mig.peer 0x13 [nsid, seg, pass, if comparedAs (theirs == ours) flip then 0 else 1] (updMig (fun m => { m with pass := pass }) s)
  else s

/-- SEGDIG (R329, R338). -/
def execSegdig (nsid seg pass : Nat) (theirs : Nat) (flip : Option (Fin 64)) (s : State) : Host.Outcome State Fault Refusal :=
  .next (onFabric (segdigEff nsid seg pass theirs flip) s)

/-- Mismatches of a segment so far. -/
def missesOf (nsid seg : Nat) (s : State) : Nat :=
  ((s.tw.mig.misses.find? (fun x => decide (x.1 = nsid ∧ x.2.1 = seg))).map (·.2.2)).getD 0

/-- The answer to a seed (R329): a match strikes the segment off at the active; a mismatch leaves it to a later pass. -/
def seedAnswered (nsid seg result : Nat) (s : State) : State :=
  if result = 0 then segSeeded nsid seg s else updTw (fun t => { t with seedFly := t.seedFly.filter (fun x => x != (nsid, seg)) }) s

/-- SEGRES's effect: a match is kept; on a mismatch the segment is sent again, and a fourth of one segment aborts the session. -/
def segresEff (nsid seg result : Nat) (s : State) : State :=
  let sg := (nsid, seg)
  if s.tw.active ∧ s.tw.st = .seeding ∧ s.tw.seedFly.contains sg then seedAnswered nsid seg result s
  else if ¬ sourcing s ∨ ¬ s.tw.mig.flying.contains sg then s
  else
    let s := updMig (fun m => { m with flying := m.flying.erase sg }) s
    if result = 0 then updMig (fun m => { m with matched := addOnce m.matched sg }) s
    else
      let n := missesOf nsid seg s + 1
      let s := updMig (fun m => { m with
        misses := m.misses.filter (fun x => !decide (x.1 = nsid ∧ x.2.1 = seg)) ++ [(nsid, seg, n)] }) s
      if n ≥ 4 then abortSession (sendCtrl s.tw.mig.peer 0x16 [1] (flagOn Reg.TW_ERR.DIGEST s))
      else updMig (fun m => { m with todo := addOnce m.todo sg, resent := Nat.min (m.resent + 1) 255 }) s

/-- SEGRES (R329, R338). -/
def execSegres (nsid seg _pass result : Nat) (s : State) : Host.Outcome State Fault Refusal := .next (onFabric (segresEff nsid seg result) s)

/-! The passes and the cutover (R339). -/

/-- Another pass over the dirty segments. -/
def nextPass (phase : Nat) (s : State) : State :=
  updMig (fun m => { m with phase := phase, pass := Nat.min (m.pass + 1) 255, todo := m.dirty }) s

/-- Every segment's latest send has matched. -/
def allMatched (s : State) : Bool :=
  ((s.ns.filter (fun n => s.tw.mig.nsids.contains n.nsid)).flatMap segmentsOf).all (fun x => s.tw.mig.matched.contains x)

/-- One CUTOVER message per namespace, with its seal CSN, NGUID and EUI-64. -/
def cutoverMsg (peer n : Nat) (s : State) : State := match findNs n s with
  | some x => sendCtrl peer 0x14 [n, sealCsn n s, x.nguid, x.eui] s
  | none => s

/-- Phase CUTOVER: the seals and what was sent are recorded first, then CUTOVER goes for every namespace. -/
def sendCutover (s : State) : State :=
  let m := s.tw.mig
  let s := m.nsids.foldl (fun t n => setNs n (fun x => { x with
    sealInfo := some (x.lastCsn, (x.sealInfo.map (·.2)).getD false), cutAway := true }) t) s
  let s := { s with prov := { s.prov with migMark := 1 } }
  m.nsids.foldl (fun t n => cutoverMsg m.peer n t) (updMig (fun m => { m with phase := 5, cutSent := true }) s)

/-- DIRTY_PASS_END's effect: nothing of the pass is left to send or to be answered. -/
def dirtyPassEndEff (s : State) : State :=
  let m := s.tw.mig
  if ¬ sourcing s ∨ m.todo ≠ [] ∨ m.flying ≠ [] then s
  else if m.phase = 2 then nextPass 3 s
  else if m.phase = 3 then
    if m.auto ∧ m.dirty.length ≤ getF Reg.TW_MIGCFG.CUTSEGS s then nextPass 4 (sealSession s) else nextPass 3 s
  else if m.dirty ≠ [] then nextPass 4 s
  else if s.cmds.any (fun c => m.nsids.contains c.nsid && uncommitted c) then s
  else if allMatched s then sendCutover s
  else s

/-- DIRTY_PASS_END (R339). -/
def execDirtyPassEnd (s : State) : Host.Outcome State Fault Refusal := .next (onFabric dirtyPassEndEff s)

/-- The sink has taken every namespace over: identities durable, the counter above every origin and seal CSN, CUTACK, row 13. -/
def sinkDone (s : State) : State :=
  let m := s.tw.mig
  let top := maxOf (s.nand.copies.map (·.csn) ++ s.mx.staged.map (·.csn))
  let s := raiseCsn top { s with prov := { s.prov with migMark := 2 } }
  let s := sendCtrl m.peer 0x15 [m.nsids.length] (dropTransport (updMig (fun m => { m with phase := 6 }) s))
  m.nsids.foldl (fun t n => evNsChanged n t) (rowThirteen s)

/-- CUTOVER's effect at the sink. -/
def cutoverEff (nsid csn nguid eui : Nat) (last : Bool) (s : State) : State :=
  let m := s.tw.mig
  if m.role ≠ 2 ∨ m.phase < 2 ∨ 5 < m.phase ∨ s.gen.mode ≠ .ingest ∨ ¬ m.nsids.contains nsid then s
  else
    let s := setNs nsid (fun n => { n with nguid := nguid, eui := eui, ingesting := false }) s
    let s := raiseCsn csn (updMig (fun m => { m with phase := 5, cutDone := addOnce m.cutDone nsid }) s)
    if last ∧ m.nsids.all (fun n => s.tw.mig.cutDone.contains n) then sinkDone s else s

/-- CUTOVER (R24, R339). -/
def execCutover (nsid sealCsn nguid eui : Nat) (last : Bool) (s : State) : Host.Outcome State Fault Refusal :=
  .next (cutoverEff nsid sealCsn nguid eui last s)

/-- CUTACK's effect at the source: phase 6. -/
def cutackEff (count : Nat) (s : State) : State :=
  if s.tw.mig.role = 1 ∧ s.tw.mig.phase = 5 ∧ count = s.tw.mig.nsids.length then sourceDone s else s

/-- CUTACK (R339, R340). -/
def execCutack (count : Nat) (s : State) : Host.Outcome State Fault Refusal := .next (onFabric (cutackEff count) s)

/-- MIGRATION_ABORT_MESSAGE (R340): the other end aborted. -/
def execMigrationAbortMessage (_cause : Nat) (s : State) : Host.Outcome State Fault Refusal :=
  .next (onFabric (fun s => if canAbort s ∨ (s.tw.mig.role = 2 ∧ s.tw.mig.phase = 5) then abortSession s else s) s)

/-- MIGRATION_ROUTE_TIMEOUT's effect: the route has been lost for longer than 2 s. -/
def migrationRouteTimeoutEff (downMs : Nat) (s : State) : State := if 2000 < downMs ∧ canAbort s then abortSession s else s

/-- MIGRATION_ROUTE_TIMEOUT (R340). -/
def execMigrationRouteTimeout (downMs : Nat) (s : State) : Host.Outcome State Fault Refusal := .next (onFabric (migrationRouteTimeoutEff downMs) s)

/-- STOP (R342, R311): the named VC1 or VC2 traffic of the pair or session halts. -/
def execStop (vc : Nat) (_stream : Nat) (s : State) : Host.Outcome State Fault Refusal :=
  .next (onFabric (fun s => if vc = 1 ∨ vc = 2 then updTw (fun t => { t with stopped := addOnce t.stopped vc }) s else s) s)

end Sys2Proof.Machine
end

