-- ==== Sys2Proof/Machine/Spdm.lean ====
section
/-! DEFINITION. The SPDM 1.2 responder (rows 275 to 285 of the table; R363 to R365, R80). Message codes and layouts are those of SPDM 1.2; certificates,
signatures and ephemeral keys are free values (log entry 54). Transports: 0 I3C, 1 SMBus, 2 and 3 the DOE mailboxes of ports A and B,
4 Gareo. -/
namespace Sys2Proof.Machine

/-! Transports and answers. -/

/-- The host port of a DOE transport. -/
def doePort (t : Nat) : Port := if t = 3 then .b else .a

/-- The transport is a DOE mailbox. -/
def isDoe (t : Nat) : Bool := t == 2 || t == 3

/-- The responder answers on a transport: its cores run, and the transport serves. -/
def spdmServes (t : Nat) (s : State) : Bool :=
  s.mg.run && (match t with
    | 0 | 1 => miMode s
    | 2 | 3 => portExists (doePort t) s && s.gen.hostReleased
    | 4 => fabricMode s.gen.mode
    | _ => false)

/-- Words of a list of bytes, four at a time, the last padded with zeros. -/
def bytesWords : (n : Nat) → List Nat → List Word
  | 0, _ => []
  | n + 1, b => BitVec.ofNat 32 (b.getD 0 0 + 256 * b.getD 1 0 + 65536 * b.getD 2 0 + 16777216 * b.getD 3 0) :: bytesWords n (b.drop 4)

/-- Send a response. On a DOE mailbox the request is consumed and the response object is ready. -/
def spdmSend (t code : Nat) (data : List Nat) (s : State) : State :=
  let s := emit (.spdm t code data) s
  if isDoe t then
    let n := (4 + data.length + 3) / 4
    s.updPort (doePort t) (fun h => { h with
      doeReq := none, doeResp := [0x00010001#32, BitVec.ofNat 32 (n + 2)] ++ bytesWords n ([0x12, code, 0, 0] ++ data) })
  else s

/-- ERROR with a code: 1 invalid request, 4 unexpected request, 5 unspecified, 7 unsupported request. -/
def spdmError (t code : Nat) (s : State) : State := spdmSend t 0x7F [code, 0] s

/-- Step a connection has reached: 1 version, 2 capabilities, 3 algorithms. -/
def spdmStep (t : Nat) (s : State) : Nat := sGet s.dg.spdm 0 t

/-- A connection reaches a step. -/
def spdmAt (t n : Nat) (s : State) : State := { s with dg := { s.dg with spdm := sPut s.dg.spdm 0 t n } }

/-- A request on a transport that serves. -/
def spdmReq (t : Nat) (body : State → State) (s : State) : State := if spdmServes t s then body s else s

/-- A request that needs a finished negotiation. -/
def spdmAfter (t : Nat) (body : State → State) (s : State) : State :=
  spdmReq t (fun s => if spdmStep t s < 3 then spdmError t 4 s else body s) s

/-- `n` bytes that the spec does not fix. -/
def freeBytes (n : Nat) (s : State) : List Nat := (List.range n).map (fun i => Config.freeValue (s.freeCtr + i) % 256)

/-- Consume them. -/
def tickFrees (n : Nat) (s : State) : State := { s with freeCtr := s.freeCtr + n }

/-- Bytes of a digest held as a number. -/
def digestBytes (d : Nat) : List Nat := (beBytes 64 d).map (·.toNat)

/-- Bytes of an ECDSA P-521 signature. -/
def sigLen : Nat := 132

/-! Negotiation. -/

/-- GET_VERSION: 1.2; the connection starts anew and its sessions end. -/
def getVersionEff (t : Nat) (s : State) : State :=
  spdmReq t (fun s => spdmSend t 0x04 ([1] ++ le 2 0x1200)
    (spdmAt t 1 { s with dg := { s.dg with sessions := s.dg.sessions.filter (fun x => x.1 != t) } })) s

/-- GET_VERSION (R363). -/
def execGetVersion (transport : Nat) (s : State) : Host.Outcome State Fault Refusal := .next (getVersionEff transport s)

/-- Capability flags of a transport (Table 14.10): CERT, CHAL, MEAS signed; on MCTP and Gareo also ENCRYPT, MAC, MUT_AUTH and KEY_EX. -/
def capFlags (t : Nat) : Nat := 2 + 4 + 16 + (if isDoe t then 0 else 64 + 128 + 256 + 512)

/-- GET_CAPABILITIES: CTExponent 20. -/
def getCapabilitiesEff (t : Nat) (s : State) : State :=
  spdmReq t (fun s => if spdmStep t s < 1 then spdmError t 4 s
    else spdmSend t 0x61 ([0, 20, 0, 0] ++ le 4 (capFlags t)) (spdmAt t 2 s)) s

/-- GET_CAPABILITIES (R363). -/
def execGetCapabilities (transport : Nat) (s : State) : Host.Outcome State Fault Refusal := .next (getCapabilitiesEff transport s)

/-- The single algorithm of a kind, selected where the requester offers it. -/
def pickAlg (offered bit : Nat) : Nat := if offered.testBit bit then 2 ^ bit else 0

/-- NEGOTIATE_ALGORITHMS: P-521, SHA-512, secp521r1, AES-256-GCM. Without the signature and hash algorithms nothing more can be asked. -/
def negotiateEff (t asym hash dhe aead : Nat) (s : State) : State :=
  spdmReq t (fun s => if spdmStep t s < 2 then spdmError t 4 s
    else
      let a := pickAlg asym 8
      let h := pickAlg hash 2
      spdmSend t 0x63 (le 4 a ++ le 4 h ++ le 2 (pickAlg dhe 5) ++ le 2 (pickAlg aead 1))
        (if a = 0 ∨ h = 0 then s else spdmAt t 3 s)) s

/-- NEGOTIATE_ALGORITHMS (R363). -/
def execNegotiateAlgorithms (transport : Nat) (asym hash dhe aead : Nat) (s : State) : Host.Outcome State Fault Refusal :=
  .next (negotiateEff transport asym hash dhe aead s)

/-! Certificates. -/

/-- GET_DIGESTS: slot 0 always, slot 1 where the owner installed a chain. -/
def getDigestsEff (t : Nat) (s : State) : State :=
  spdmAfter t (fun s =>
    let one := if s.ff.cert1 = [] then [] else (shaDigest 0 s.ff.cert1).map (·.toNat)
    spdmSend t 0x01 ([if s.ff.cert1 = [] then 1 else 3] ++ freeBytes 64 s ++ one) (tickFrees 64 s)) s

/-- GET_DIGESTS (R363). -/
def execGetDigests (transport : Nat) (s : State) : Host.Outcome State Fault Refusal := .next (getDigestsEff transport s)

/-- GET_CERTIFICATE: a portion of a chain and what remains after it. Slot 0 is the vendor root, DAK and identity certificates, whose bytes the
spec does not give. -/
def getCertificateEff (t slot offset len : Nat) (s : State) : State :=
  spdmAfter t (fun s =>
    if slot = 0 then
      spdmSend t 0x02 ([0, 0] ++ le 2 len ++ le 2 (Config.freeValue (s.freeCtr + len) % 65536) ++ freeBytes len s) (tickFrees (len + 1) s)
    else if slot = 1 ∧ s.ff.cert1 ≠ [] ∧ offset < s.ff.cert1.length then
      let part := (s.ff.cert1.drop offset).take len
      spdmSend t 0x02 ([1, 0] ++ le 2 part.length ++ le 2 (s.ff.cert1.length - offset - part.length) ++ part.map (·.toNat)) s
    else spdmError t 1 s) s

/-- GET_CERTIFICATE (R363). -/
def execGetCertificate (transport slot offset len : Nat) (s : State) : Host.Outcome State Fault Refusal :=
  .next (getCertificateEff transport slot offset len s)

/-- SET_CERTIFICATE: slot 1 only, in PROVISION only, and only with the identity key as leaf. -/
def setCertificateEff (t slot : Nat) (chain : List Byte) (leafIsIdentity : Bool) (s : State) : State :=
  spdmAfter t (fun s =>
    if slot ≠ 1 ∨ s.gen.mode ≠ .provision ∨ ¬ leafIsIdentity then spdmError t 1 s
    else spdmSend t 0x6E [1, 0] { s with ff := { s.ff with cert1 := chain } }) s

/-- SET_CERTIFICATE (R363, Table 14.10). -/
def execSetCertificate (transport slot : Nat) (chain : List Byte) (leafIsIdentity : Bool) (s : State) : Host.Outcome State Fault Refusal :=
  .next (setCertificateEff transport slot chain leafIsIdentity s)

/-! Challenge and measurements. -/

/-- A request that draws from the generator waits while it serves none (R361). -/
def spdmDraw (i : SpdmHeld) (body : State → State) (s : State) : State :=
  if rngServes s then body (rngDraw s)
  else flagOn Reg.DG_ERR.RNG { s with dg := { s.dg with spdmWait := s.dg.spdmWait ++ [i] } }

/-- The slot of a signed request can sign: slot 0, or slot 1 with a chain; the identity key exists from the first provisioning commit on. -/
def canSign (slot : Nat) (s : State) : Bool := s.ff.identity && (slot == 0 || (slot == 1 && !s.ff.cert1.isEmpty))

/-- CHALLENGE: chain digest, nonce and a signature by the identity key. -/
def challengeEff (t slot nonce : Nat) (s : State) : State :=
  spdmAfter t (fun s =>
    if ¬ canSign slot s then spdmError t 1 s
    else spdmDraw (.challenge t slot nonce) (fun s =>
      spdmSend t 0x03 ([slot, 2 ^ slot] ++ freeBytes (64 + 32 + 64 + sigLen) s) (tickFrees (64 + 32 + 64 + sigLen) s)) s) s

/-- CHALLENGE (R363). -/
def execChallenge (transport slot : Nat) (nonce : Nat) (s : State) : Host.Outcome State Fault Refusal :=
  .next (challengeEff transport slot nonce s)

/-- The running image's SVN. -/
def runSvn (s : State) : Nat := (s.dg.runImg.map (·.svn)).getD 0

/-- A measurement block (Table 14.11): its bytes, given bytes for what the spec does not fix: the boot ROM identifier (4) or the provisioning
record's digest (64). Owner slot 3 is none. -/
def measBlock (index : Nat) (free : List Nat) (s : State) : List Nat := match index with
  | 1 => free.take 4 ++ le 4 s.fuses.romId
  | 6 => [s.fuses.arb % 256, runSvn s % 256, (ownerInForce s).getD 3, modeCode s.gen.mode]
  | 7 => free.take 64
  | n => digestBytes (s.dg.meas.getD (n - 2) 0)

/-- The data of MEASUREMENTS: index 0 asks for the number of blocks, 0xFF for all of them. -/
def measData (index : Nat) (free : List Nat) (s : State) : List Nat :=
  if index = 0 then [7]
  else if index = 0xFF then [7] ++ ([1, 2, 3, 4, 5, 6, 7].map (fun i => [i, (measBlock i free s).length] ++ measBlock i free s)).flatten
  else [1, index, (measBlock index free s).length] ++ measBlock index free s

/-- MEASUREMENTS, signed or not. -/
def measSend (t index : Nat) (signed : Bool) (s : State) : State :=
  let sig := if signed then freeBytes (64 + 32 + sigLen) s else []
  spdmSend t 0x60 (measData index (freeBytes 64 s) s ++ sig.drop 64) (tickFrees (64 + 32 + sigLen) s)

/-- GET_MEASUREMENTS. -/
def getMeasurementsEff (t index : Nat) (signed : Bool) (nonce : Nat) (s : State) : State :=
  spdmAfter t (fun s =>
    if 7 < index ∧ index ≠ 0xFF then spdmError t 1 s
    else if ¬ signed then measSend t index false s
    else if ¬ canSign 0 s then spdmError t 1 s
    else spdmDraw (.measurements t index nonce) (measSend t index true) s) s

/-- GET_MEASUREMENTS (R364). -/
def execGetMeasurements (transport index : Nat) (signed : Bool) (nonce : Nat) (s : State) : Host.Outcome State Fault Refusal :=
  .next (getMeasurementsEff transport index signed nonce s)

/-! Sessions. -/

/-- KEY_EXCHANGE: on MCTP and Gareo; mutual authentication is required on Gareo. -/
def keyExchangeEff (t session : Nat) (mutualAuth : Bool) (s : State) : State :=
  spdmAfter t (fun s =>
    if isDoe t then spdmError t 7 s
    else if ¬ canSign 0 s ∨ (t = 4 ∧ ¬ mutualAuth) ∨ s.dg.sessions.any (fun x => x.1 == t && x.2.1 == session) then spdmError t 1 s
    else spdmDraw (.keyExchange t session mutualAuth) (fun s =>
      spdmSend t 0x64 (le 2 session ++ freeBytes (32 + 132 + sigLen) s)
        (tickFrees (32 + 132 + sigLen) { s with dg := { s.dg with sessions := s.dg.sessions ++ [(t, session, false)] } })) s) s

/-- KEY_EXCHANGE (R363, R365). -/
def execKeyExchange (transport session : Nat) (mutualAuth : Bool) (s : State) : Host.Outcome State Fault Refusal :=
  .next (keyExchangeEff transport session mutualAuth s)

/-- FINISH: the session is authenticated. Over Gareo the peer's identity digest is checked, and the transport key is derived. -/
def finishEff (t session : Nat) (peerIdOk : Bool) (s : State) : State :=
  spdmAfter t (fun s =>
    let mine := fun (x : Nat × Nat × Bool) => x.1 == t && x.2.1 == session
    if isDoe t then spdmError t 7 s
    else if ¬ s.dg.sessions.any (fun x => mine x && !x.2.2) then spdmError t 4 s
    else if t = 4 ∧ ¬ peerIdOk then
      spdmError t 1 (flagOn Reg.TW_ERR.PEERID { s with dg := { s.dg with sessions := s.dg.sessions.filter (fun x => !mine x) } })
    else
      let ss := s.dg.sessions.map (fun x => if mine x then (x.1, x.2.1, true) else x)
      spdmSend t 0x65 (le 2 session) { s with dg := { s.dg with sessions := ss, transport := s.dg.transport || t == 4 } }) s

/-- FINISH (R363, R365). -/
def execFinish (transport session : Nat) (peerIdOk : Bool) (s : State) : Host.Outcome State Fault Refusal :=
  .next (finishEff transport session peerIdOk s)

/-- END_SESSION: the session ends; the transport key stays until the pairing or session it serves ends. -/
def endSessionEff (t session : Nat) (s : State) : State :=
  spdmAfter t (fun s =>
    let mine := fun (x : Nat × Nat × Bool) => x.1 == t && x.2.1 == session
    if isDoe t then spdmError t 7 s
    else if ¬ s.dg.sessions.any mine then spdmError t 4 s
    else spdmSend t 0x6C (le 2 session) { s with dg := { s.dg with sessions := s.dg.sessions.filter (fun x => !mine x) } }) s

/-- END_SESSION (R363). -/
def execEndSession (transport session : Nat) (s : State) : Host.Outcome State Fault Refusal := .next (endSessionEff transport session s)

/-! Requests that waited (R361). -/

/-- A request is taken up again. -/
def spdmAgain (i : SpdmHeld) (s : State) : State := match i with
  | .challenge t slot nonce => challengeEff t slot nonce s
  | .measurements t index nonce => getMeasurementsEff t index true nonce s
  | .keyExchange t session mutualAuth => keyExchangeEff t session mutualAuth s

/-- Once the generator serves again, the requests that waited are answered in order. -/
def spdmServe (s : State) : State :=
  if rngServes s then s.dg.spdmWait.foldl (fun t i => spdmAgain i t) { s with dg := { s.dg with spdmWait := [] } } else s

end Sys2Proof.Machine
end

