-- ==== Sys2Proof/Machine/Digest.lean ====
section
/-! DEFINITION. The digest engine, the audit and the generator's health: rows 245 to 252 and 294 of the table (R344 to R355, R359, R361, R254). -/
namespace Sys2Proof.Machine

/-! Lanes and the queue (R351 to R353). -/

/-- PRIO of a context, 5 for none. -/
def prioOf (i : Nat) (s : State) : Nat := (((getCtx i s).params).map (·.prio)).getD 5

/-- Queue by PRIO, then by arrival. -/
def insQueue (i : Nat) (s : State) : List Nat → List Nat
  | [] => [i]
  | j :: t => if prioOf i s < prioOf j s then i :: j :: t else j :: insQueue i s t

/-- A context waits for a lane. -/
def dgQueue (i : Nat) (s : State) : State := { s with dg := { s.dg with queue := insQueue i s s.dg.queue } }

/-- A context that can be preempted by a request of PRIO `p`: explicit, running, not already saving, of higher PRIO number. -/
def preemptible (p : Nat) (s : State) (i : Nat) : Bool :=
  let c := getCtx i s
  c.st == 2 && !c.saving && c.params.any (fun q => !q.snoop && decide (p < q.prio))

/-- The victim: the highest PRIO number and, among those, the one started most recently. -/
def victim (p : Nat) (s : State) : Option Nat :=
  ((List.range 64).filter (preemptible p s)).foldl (fun best i => match best with
    | none => some i
    | some j =>
      if prioOf j s < prioOf i s ∨ (prioOf j s = prioOf i s ∧ (getCtx j s).started < (getCtx i s).started) then some i else some j) none

/-- Give a context a lane, a victim's lane once it has been saved, or a place in the queue. -/
def takeLane (i : Nat) (p : DigestParams) (s : State) : State :=
  if lanesBusy s < s.dg.active then updCtx i (fun c => { c with st := 2 }) s
  else
    let s := dgQueue i (updCtx i (fun c => { c with st := 1 }) s)
    match victim p.prio s with
    | some v => updCtx v (fun c => { c with saving := true }) s
    | none => s

/-- A snoop context finds no lane within its limit, nor a lane to preempt (R351). -/
def snoopRefused (p : DigestParams) (s : State) : Bool :=
  p.snoop && (decide (s.dg.active - 4 ≤ snoopLanes s) || (decide (s.dg.active ≤ lanesBusy s) && (victim p.prio s).isNone))

/-- DIGEST_CONTEXT_OPEN's effect: with all 64 contexts in use, or no lane for a snoop, nothing is opened. -/
def digestContextOpenEff (p : DigestParams) (s : State) : State :=
  match freeCtx s with
  | none => s
  | some i =>
    if snoopRefused p s then s
    else
      let s := updCtx i (fun _ => { Ctx.closed with params := some p, started := s.dg.nextStart }) s
      fitSlots <| takeLane i p { s with dg := { s.dg with nextStart := s.dg.nextStart + 1 } }

/-- DIGEST_CONTEXT_OPEN (R345, R351, R352). -/
def execDigestContextOpen (p : DigestParams) (s : State) : Host.Outcome State Fault Refusal := .next (digestContextOpenEff p s)

/-- A keyed context's save is wrapped (R353). -/
def keyed (c : Ctx) : Bool := c.params.any (fun p => p.alg == 3)

/-- DIGEST_SAVE_DONE's effect: the save ends, the lane passes to the request in front, and the saved context waits for one; or a wrapped save
fails to unwrap. -/
def digestSaveDoneEff (i : Nat) (unwrapOk : Bool) (s : State) : State :=
  let c := getCtx i s
  if c.saving then
    let s := bump Reg.DG_PREEMPT.COUNT s
    let s := if keyed c then bump Reg.DG_PREEMPT.WRAPPED s else s
    let s := updCtx i (fun c => { c with st := 3, saving := false, kctxGen := s.dg.kctxGen }) s
    let s := dgFill 1 s
    let s := dgQueue i s
    dgFill s.dg.queue.length s
  else if keyed c ∧ ¬ unwrapOk ∧ (c.st = 2 ∨ c.st = 3) then dgFail [i] 4 (flagOn Reg.DG_ERR.UNWRAP s)
  else s

/-- DIGEST_SAVE_DONE (R352, R353). -/
def execDigestSaveDone (ctx : Fin 64) (unwrapOk : Bool) (s : State) : Host.Outcome State Fault Refusal :=
  .next (digestSaveDoneEff ctx.val unwrapOk s)

/-! Blocks (R346 to R348). -/

/-- L, the message length in bits, from the last 16 bytes. -/
def lengthField (m : List Byte) : Nat := beNat (m.drop (m.length - 16))

/-- The padding checks of R346 on the whole padded message of `n` blocks; for ALG 3, L counts the key block, which is not fed. -/
def paddingOk (alg n : Nat) (m : List Byte) : Bool :=
  let l := lengthField m
  let pos := l / 8 - (if alg = 3 then 128 else 0)
  let gap := (m.drop (pos + 1)).take (m.length - 16 - (pos + 1))
  decide (l % 8 = 0) && decide ((if alg = 3 then 1024 else 0) ≤ l) && decide (ceilDiv (l + 129) 1024 = if alg = 3 then n + 1 else n) &&
  m[pos]? == some 0x80 && gap.all (fun b => b == 0)

/-- A key of at most 128 bytes as the key block of HMAC (FIPS 198-1), each byte combined with a pad. -/
def keyBlock (key : List Byte) (pad : Byte) : List Byte := (key ++ List.replicate (128 - key.length) 0).map (fun b => b ^^^ pad)

/-- The digest of a padded message. -/
def digestOf (p : DigestParams) (m : List Byte) : List Byte :=
  if p.alg = 3 then
    let msg := m.take (lengthField m / 8 - 128)
    shaDigest 0 (keyBlock p.key 0x5C ++ shaDigest 0 (keyBlock p.key 0x36 ++ msg))
  else shaDigest p.alg (m.take (lengthField m / 8))

/-- An audit of a barrel reads each data unit once (R198, R355). -/
def auditReads (num : Nat) (s : State) : State :=
  match findGroup (barrelGroup num) s with
  | none => s
  | some g =>
    let r := barrelRow num
    let ms := (List.range g.width).filter (fun m => m != posP g r && m != posQ g r && !dieFailed (rowPlace g m r s).1 s)
    ms.foldl (fun t m => countReads (rowPlace g m r t).1 (rowPlace g m r t).2 qlcPages false t) s

/-- An audit context ended (R355): the first digest of a barrel is recorded; later ones are compared in MODE 1
and accepted under R349; a mismatch is confirmed by a second one. -/
def auditDigest (d : List Byte) (s : State) : State :=
  match s.dg.audit with
  | some (b :: rest) =>
    let s := auditReads b s
    let v := beNat d
    let onward := fun (t : State) =>
      { bump Reg.DG_AUDSTAT.DONE t with dg := { (bump Reg.DG_AUDSTAT.DONE t).dg with audit := if rest = [] then none else some rest, auditAgain := false } }
    match s.dg.barrelDigests.find? (fun x => x.1 == b) with
    -- the table is dirtied: a sweep writes it (R169)
    | none => onward { s with dg := { s.dg with barrelDigests := s.dg.barrelDigests ++ [(b, v)] }, mx := { s.mx with dirty := true } }
    | some x =>
      if compared (x.2 == v) then onward s
      else if ¬ s.dg.auditAgain then { s with dg := { s.dg with auditAgain := true } }
      else onward (logEvent 0x0601 2 12 false [b] (bump Reg.DG_AUDSTAT.MISMATCH (flagOn Reg.DG_ERR.AUDITMIS s)))
  | _ => s

/-- A context that has its last block: the padding check, then the digest or the flags; its lane is free. -/
def finishCtx (i : Nat) (p : DigestParams) (m : List Byte) (s : State) : State :=
  if ¬ paddingOk p.alg p.blocks m then
    dgFail [i] 2 (bump Reg.DG_LENERR.PAD (flagOn Reg.DG_ERR.PADDING s))
  else
    let d := digestOf p m
    let fl := flagsOf (p.compare && d == p.expect.take d.length && decide (d.length ≤ p.expect.length))
    let s := updCtx i (fun c => { c with st := 4, fed := [], result := if p.compare ∨ p.noRelease then [] else d, flagA := fl.1, flagB := fl.2 }) s
    let s := dgFill s.dg.queue.length (fitSlots s)
    match p.requester with
    | .audit => auditDigest d s
    | _ => s

/-- A context fails for its length: LENGTH_MISMATCH (R347). -/
def lengthFail (i : Nat) (s : State) : State :=
  let s := updCtx i (fun c => { c with flagA := 0xC33CA5A5, flagB := 0x3CC35A5A, result := [] }) s
  dgFail [i] 1 (bump Reg.DG_LENERR.LEN (flagOn Reg.DG_ERR.LENGTH s))

/-- DIGEST_BLOCK's effect: `last` says that the feed ends with this block. A context that is being saved takes no block. -/
def digestBlockEff (i : Nat) (block : List Byte) (poisoned last : Bool) (s : State) : State :=
  let c := getCtx i s
  match c.params with
  | none => s
  | some p =>
    if c.st = 4 then lengthFail i s
    else if c.st ≠ 2 ∨ c.saving then s
    else if poisoned then dgFail [i] 3 (poisonConsumed 0 s)
    else if block.length ≠ 128 ∨ (last ∧ c.done + 1 < p.blocks) ∨ p.blocks < c.done + 1 then lengthFail i s
    else
      let m := c.fed ++ block
      let s := updCtx i (fun c => { c with done := c.done + 1, fed := m }) s
      if c.done + 1 = p.blocks then finishCtx i p m s else s

/-- DIGEST_BLOCK (R346 to R348, R355, R298). -/
def execDigestBlock (ctx : Fin 64) (block : List Byte) (poisoned last : Bool) (s : State) : Host.Outcome State Fault Refusal :=
  .next (digestBlockEff ctx.val block poisoned last s)

/-! The audit (R355). -/

/-- A pass over every closed QLC barrel, in the modes that run background work. -/
def startAudit (s : State) : State :=
  if s.dg.audit.isSome ∨ ¬ isOn Reg.DG_AUDCTL.EN s ∨ ¬ backgroundMode s.gen.mode then s
  else
    let bs := (s.mm.barrels.filter (fun b => b.state == 1)).map (·.num)
    let s := setF Reg.DG_AUDSTAT.DONE 0 s
    { s with dg := { s.dg with audit := if bs = [] then none else some bs, auditAgain := false } }

/-- AUDIT_START's effect. -/
def auditStartEff (who : Writer) (s : State) : State :=
  if ¬ setupOpen who s then s
  else if ¬ mayWrite who Reg.DG_AUDCTL.START.reg s then genErr Reg.GEN_ERR.OWNWR Reg.DG_AUDCTL.START.reg who s
  else startAudit s

/-- AUDIT_START (R355, R49). -/
def execAuditStart (who : Writer) (s : State) : Host.Outcome State Fault Refusal := .next (auditStartEff who s)

/-- AUDIT_PERIOD_TIMER (R355): PERIOD days after the last start; PERIOD 0 starts passes only on START. -/
def execAuditPeriodTimer (s : State) : Host.Outcome State Fault Refusal :=
  .next (if getF Reg.DG_AUDCTL.PERIOD s = 0 then s else startAudit s)

/-! Trust, the generator and EC (R359, R361, R254). -/

/-- DG_SEC_ADVANCE's effect: management only. -/
def dgSecAdvanceEff (who : Writer) (s : State) : State :=
  if ¬ setupOpen who s then s
  else if who = .host ∨ ¬ mayWrite who Reg.DG_SEC.ADVANCE.reg s then genErr Reg.GEN_ERR.OWNWR Reg.DG_SEC.ADVANCE.reg who s
  else raiseArb s

/-- DG_SEC_ADVANCE (R359, R49). -/
def execDgSecAdvance (who : Writer) (s : State) : Host.Outcome State Fault Refusal := .next (dgSecAdvanceEff who s)

/-- RNG_HEALTH_FAILURE's effect: the generator serves no request. -/
def rngHealthFailureEff (s : State) : State := bump Reg.DG_RNG.FAILS (flagOn Reg.DG_ERR.RNG (flagOff Reg.DG_RNG.HEALTH s))

/-- RNG_HEALTH_FAILURE (R361). -/
def execRngHealthFailure (s : State) : Host.Outcome State Fault Refusal := .next (rngHealthFailureEff s)

/-- RNG_HEALTH_RESTORED (R361): the requesters that wait are served. -/
def execRngHealthRestored (s : State) : Host.Outcome State Fault Refusal :=
  .next (spdmServe (settleSanitize (settleNs (flagOn Reg.DG_RNG.HEALTH s))))

/-- EC_MAXCORR_CLR's effect. -/
def ecMaxcorrClrEff (who : Writer) (s : State) : State :=
  if ¬ setupOpen who s then s
  else if ¬ mayWrite who Reg.EC_MAXCORR.CLR.reg s then genErr Reg.GEN_ERR.OWNWR Reg.EC_MAXCORR.CLR.reg who s
  else setF Reg.EC_MAXCORR.MAX 0 s

/-- EC_MAXCORR_CLR (R254, R49). -/
def execEcMaxcorrClr (who : Writer) (s : State) : Host.Outcome State Fault Refusal := .next (ecMaxcorrClrEff who s)

end Sys2Proof.Machine
end

