-- ==== Sys2Proof/Machine/Mgmt.lean ====
section
/-! DEFINITION. Sahtex management: sensors and their actions, the event log's ring and acknowledgements, time marks, the watchdog, and the
firmware-flash commands (rows 254 to 263 and 295 of the table; R320, R367 to R382). -/
namespace Sys2Proof.Machine

/-! Sensors (R369, Table 15.1). -/

/-- Throttle level a temperature reaches, in 0.1 °C. -/
def levelReached (t : Int) : Nat := if 1020 ≤ t then 3 else if 990 ≤ t then 2 else if 950 ≤ t then 1 else 0

/-- Clear point of a throttle level. -/
def levelClear (n : Nat) : Int := if n = 3 then 990 else if n = 2 then 960 else 920

/-- The level that still holds, starting from `n`: a level clears only after 10 ms below its clear point. -/
def levelHeld (t : Int) (coolMs : Nat) : Nat → Nat
  | 0 => 0
  | n + 1 => if t < levelClear (n + 1) ∧ 10 ≤ coolMs then levelHeld t coolMs n else n + 1

/-- The next level of a cluster. -/
def nextLevel (t : Int) (coolMs prev : Nat) : Nat := Nat.max (levelReached t) (levelHeld t coolMs prev)

/-- The highest of some readings. -/
def hottest (ts : List Int) : Int := ts.foldl max (-2731)

/-- The reading that a cluster's throttle level follows: its own sensor and every sensor outside the clusters. -/
def clusterTemp (k : Nat) (x : SensorSample) : Int := hottest (x.temps.getD k 0 :: x.temps.drop 8)

/-- Composite Temperature in kelvin, rounded down from tenths. -/
def compositeK (x : SensorSample) : Nat := ((hottest x.temps + 2731) / 10).toNat

/-- Nominal voltage of V00 to V14, in mV (Table 17.4). -/
def railNominal : List Nat := [750, 750, 750, 750, 800, 800, 800, 850, 850, 1200, 1200, 1200, 1100, 1100, 1800]

/-- Rails with their MG_SENSEL number, reading and nominal voltage. -/
def rails (x : SensorSample) : List (Nat × Nat × Nat) := ((x.volts.zip railNominal).zipIdx).map (fun r => (24 + r.2, r.1.1, r.1.2))

/-- Maximum power of the power state in force, in mW (Table 4.12). -/
def psMaxMw : PowerState → Nat
  | .ps0 => 65000
  | .ps1 => 45000
  | .ps2 => 28000
  | .ps3 => 7000
  | .ps4 => 2800

/-- The power limit holds: above the maximum, until 10 ms below 95 % of it. -/
def nextPowerLim (x : SensorSample) (prev : Bool) (ps : PowerState) : Bool :=
  decide (psMaxMw ps < x.powerMw) || (prev && !(decide (x.powerMw * 100 < psMaxMw ps * 95) && decide (10 ≤ x.coolMs)))

/-- The throttle levels of the clusters after a sample; a change is a Latency Contract Changed event. -/
def applyLevels (x : SensorSample) (s : State) : State :=
  let lim := nextPowerLim x s.mg.powerLim s.sh.ps
  let ls := s.mg.levels.zipIdx.map (fun l => Nat.max (nextLevel (clusterTemp l.2 x) x.coolMs l.1) (if lim then 1 else 0))
  let changed := ls != s.mg.levels
  let s := { s with mg := { s.mg with powerLim := lim, levels := ls } }
  if changed then evLatency s else s

/-- The host's temperature threshold: the SMART event where a controller enables it. -/
def applyHostTemp (x : SensorSample) (s : State) : State :=
  let over_ := decide (s.sh.tOver ≤ compositeK x)
  let held := over_ || (s.mg.hotHost && !decide (10 ≤ x.coolMs))
  let s1 := { s with mg := { s.mg with hotHost := held } }
  if over_ ∧ ¬ s.mg.hotHost then
    let one := fun (p : Port) (t : State) => if (t.con p).aec.testBit 1 then postEvent p ⟨1, 0x01, 0x02⟩ t else t
    one .b (one .a s1)
  else s1

/-- Supply warnings: outside ±3 % for 1 ms, until 10 ms inside ±2.5 %. -/
def applySupplyWarn (x : SensorSample) (s : State) : State :=
  let bad := (rails x).filter (fun r => decide (1 ≤ x.warnMs) && decide (r.2.1 * 100 < r.2.2 * 97 ∨ r.2.2 * 103 < r.2.1 * 100))
  let inside := (rails x).filter (fun r => decide (10 ≤ x.coolMs) && decide (r.2.2 * 975 ≤ r.2.1 * 1000 ∧ r.2.1 * 1000 ≤ r.2.2 * 1025))
  let fresh := bad.filter (fun r => !s.mg.warn.contains r.1)
  let keep := s.mg.warn.filter (fun m => !inside.any (fun r => r.1 == m))
  let s1 := { s with mg := { s.mg with warn := keep ++ fresh.map (·.1) } }
  fresh.foldl (fun t r => flagOn Reg.MG_ERR.SUPPLY
    (logEvent 0x0401 1 14 true [r.1, r.2.1, if r.2.2 < r.2.1 then 1 else 0] t)) s1

/-- The monitors that trip a hardware condition. -/
def tripped (ms : List Nat) (s : State) : State := { s with mg := { s.mg with trip := ms.foldl addOnce s.mg.trip } }

/-- The hardware conditions: critical temperature and overvoltage are fatal; undervoltage is handled as PWR_FAIL_N (R409). -/
def applyHardware (x : SensorSample) (s : State) : State :=
  let hot := if 1 ≤ x.hotMs then (x.temps.zipIdx.filter (fun t => decide (1050 ≤ t.1))).map (·.2) else []
  let high := if 10 ≤ x.highUs then ((rails x).filter (fun r => decide (r.2.2 * 106 < r.2.1 * 100))).map (·.1) else []
  let low := if 10 ≤ x.lowUs then ((rails x).filter (fun r => decide (r.2.1 * 100 < r.2.2 * 94))).map (·.1) else []
  let s := tripped (hot ++ high ++ low) s
  let s := flagIf (!hot.isEmpty) Reg.MG_ERR.CRITTEMP s
  let s := flagIf (!high.isEmpty || !low.isEmpty) Reg.MG_ERR.SUPPLY s
  let s := if hot.isEmpty && high.isEmpty then s else fatalFault s
  if low.isEmpty then s else powerFail s

/-- A sample: firmware acts while the management image runs (R368); the hardware acts always. -/
def sensorSampleEff (x : SensorSample) (s : State) : State :=
  if s.gen.mode = .reset then s
  else
    let s := setF Reg.MG_HUSTAT.VOLT (x.volts.getD 15 0)
      { s with mg := { s.mg with sample := x }, sh := { s.sh with compTempK := compositeK x } }
    let s := if s.mg.run then applySupplyWarn x (applyHostTemp x (applyLevels x s)) else s
    applyHardware x s

/-- SENSOR_SAMPLE (R369, R368). -/
def execSensorSample (x : SensorSample) (s : State) : Host.Outcome State Fault Refusal := .next (sensorSampleEff x s)

/-! The event log (R372 to R376). -/

/-- Entries that may still be written now: RATE per second over 60 s, in bursts of at most 256 (R375). -/
def logBudget (s : State) : Nat :=
  let recent := s.mg.wrote.filter (fun w => decide (now s < w.1 + 60000000000))
  Nat.min 256 (60 * getF Reg.MG_LOGSTAT.RATE s - sumOf (recent.map (·.2)))

/-- Pending entries go to flash, oldest first, within the rate. -/
def eventLogFlushEff (count : Nat) (s : State) : State :=
  if s.gen.mode = .reset ∨ ¬ s.mg.run then s
  else
    let extra := if s.mg.droppedNow = 0 then 0 else 1
    let n := Nat.min (Nat.min count (logBudget s - extra)) s.mg.pend.length
    if n = 0 then s
    else
      let s := flushLog n s
      { s with mg := { s.mg with wrote := (s.mg.wrote.filter (fun w => decide (now s < w.1 + 60000000000))) ++ [(now s, n + extra)] } }

/-- EVENT_LOG_FLUSH (R375, R374). -/
def execEventLogFlush (count : Nat) (s : State) : Host.Outcome State Fault Refusal := .next (eventLogFlushEff count s)

/-- Bytes of DATA's fields, from byte 28 on (Table 15.2A, R396). -/
def entryWidths (code : Nat) : List Nat := match code with
  | 0x0001 | 0x0002 | 0x0601 => [4]
  | 0x0101 => [4, 2, 2, 8, 4, 8]
  | 0x0201 => [4, 1]
  | 0x0301 => [2, 2, 2, 2, 1]
  | 0x0401 => [1, 2, 1]
  | 0x0501 => [8]
  | 0x0E10 => [1, 4]
  | 0xF010 | 0xF011 | 0xF012 => [4]
  | _ => [1]

/-- Codes whose entries carry a count (Table 15.2A). -/
def entryCounted (code : Nat) : Bool := match code with
  | 0x0201 | 0x0301 | 0x0401 | 0x0501 | 0xF010 | 0xF011 | 0xF012 => true
  | _ => false

/-- The 64 bytes of an entry (Table 15.2). -/
def entryBytes (e : LogEntry) : List Nat :=
  let body := ((e.data.zip (entryWidths e.code)).flatMap (fun x => le x.2 x.1))
  let data := (body ++ List.replicate 28 0).take 28 ++ (if entryCounted e.code && decide (1 < e.count) then le 4 e.count else le 4 0)
  let bytes := le 8 e.dtime ++ le 8 e.csn ++ le 8 e.seq ++ le 2 e.code ++ [e.sev, e.src] ++ data
  bytes ++ le 4 (crc32c (bytes.map (BitVec.ofNat 8))).toNat

/-- An entry is acknowledged by a SEQ value: at or below it, within the 2^31 entries below the newest SEQ (Table 15.14). -/
def ackCovers (newest value seq : Nat) : Bool :=
  let dv := (newest + 2 ^ 32 - value % 2 ^ 32) % 2 ^ 32
  decide (newest - seq < 2 ^ 31 ∧ dv < 2 ^ 31 ∧ dv ≤ newest - seq)

/-- Acknowledge protected entries; a sector whose every entry is acknowledged can be erased, so the area is no longer full. -/
def ackProtected (value : Nat) (s : State) : State :=
  let newest := s.mg.nextSeq - 1
  let p := s.ff.prot.map (fun e => (e.1, e.2 || ackCovers newest value e.1.seq))
  let s := { s with ff := { s.ff with prot := p } }
  if (p.take 32).all (·.2) then flagOff Reg.MG_LOGSTAT.PFULL s else s

/-- A write of MG_LOGACK by the holder of the token. -/
def mgLogackWriteEff (who : Writer) (seq : Word) (s : State) : State :=
  if ¬ setupOpen who s then s
  else if ¬ mayWrite who Reg.MG_LOGACK.SEQ.reg s then genErr Reg.GEN_ERR.OWNWR Reg.MG_LOGACK.SEQ.reg who s
  else ackProtected seq.toNat s

/-- MG_LOGACK_WRITE (R374, Table 15.14). -/
def execMgLogackWrite (who : Writer) (seq : Word) (s : State) : Host.Outcome State Fault Refusal := .next (mgLogackWriteEff who seq s)

/-! Time marks, the watchdog, and the end of a management reset. -/

/-- TIME_MARK_WRITE: the newest time mark is device time now (R320). -/
def execTimeMarkWrite (s : State) : Host.Outcome State Fault Refusal :=
  .next (if s.gen.mode = .reset ∨ ¬ s.mg.run then s else { s with ff := { s.ff with timeMark := now s } })

/-- MG_WDOG_KICK: management restarts the period; it is firmware's own write, free of the token (R367, R49). -/
def execMgWdogKick (who : Writer) (s : State) : Host.Outcome State Fault Refusal :=
  .next (if ¬ setupOpen who s then s
    else if who = .host then genErr Reg.GEN_ERR.OWNWR Reg.MG_WDOG.KICK.reg who s
    else { s with mg := { s.mg with wdogAt := now s } })

/-- MANAGEMENT_RESET_END: the image runs again, the watchdog's period starts, and DOE requests that waited are taken (R367, R80). -/
def execManagementResetEnd (s : State) : Host.Outcome State Fault Refusal :=
  .next (if s.mg.run ∨ ¬ s.gen.bootVerified then s
    else doeResume .b (doeResume .a { s with mg := { s.mg with run := true, wdogAt := now s } }))

/-! The firmware flash (R377 to R382). -/

/-- An erased word. -/
def ffOnes : Nat := 2 ^ 64 - 1

/-- Sectors of the regions of Table 15.3, whose content the model holds in its own structure. -/
def ffStructured (sec : Nat) : Bool := decide (sec < 1169 ∨ (8192 ≤ sec ∧ sec < 9313) ∨ (10240 ≤ sec ∧ sec < 12288))

/-- The word at an aligned byte address. A word of a structured region that no command has written is a free value: the spec fixes the
region's content, not every byte of its form. -/
def ffWordAt (addr : Nat) (s : State) : Nat × State :=
  if s.ff.words.any (fun w => w.1 == addr) ∨ ¬ ffStructured (addr / 4096) ∨ s.ff.blank.contains (addr / 4096) then
    (sGet s.ff.words ffOnes addr, s)
  else (Config.freeValue s.freeCtr % 2 ^ 64, tickFree s)

/-- The byte address in FF_ADDR. -/
def ffAddr (s : State) : Nat := 8 * getF Reg.FF_ADDR.ADDR s

/-- The word in the data registers. -/
def ffData (s : State) : Nat := getF Reg.FF_DATALO.DATA s + 2 ^ 32 * getF Reg.FF_DATAHI.DATA s

/-- Show a word in the data registers. -/
def ffShow (w : Nat) (s : State) : State := setF Reg.FF_DATALO.DATA (w % 2 ^ 32) (setF Reg.FF_DATAHI.DATA (w / 2 ^ 32) s)

/-- A sector of the boot block that the boot selector names (R379). -/
def ffProtected (sec : Nat) (s : State) : Bool :=
  decide (slotSector s.ff.selBlock ≤ sec ∧ sec < slotSector s.ff.selBlock + 1024)

/-- Only management issues FF commands; a host's write is ignored with OWNWR (R379). A command written while one runs is refused with RANGE. -/
def ffCommand (who : Writer) (body : State → State) (s : State) : State :=
  if ¬ setupOpen who s then s
  else if who = .host then genErr Reg.GEN_ERR.OWNWR Reg.FF_CMD.OP.reg who s
  else if s.ff.busy.isSome then flagOn Reg.FF_STATUS.RANGE s
  else body s

/-- FF_READ: the word is read at once. -/
def ffReadEff (who : Writer) (s : State) : State :=
  ffCommand who (fun s => let r := ffWordAt (ffAddr s) s; ffShow r.1 r.2) s

/-- FF_READ (R377). -/
def execFfRead (who : Writer) (s : State) : Host.Outcome State Fault Refusal := .next (ffReadEff who s)

/-- FF_PROGRAM: refused on the selected boot block, and on a word that is not erased. -/
def ffProgramEff (who : Writer) (s : State) : State :=
  ffCommand who (fun s =>
    let a := ffAddr s
    if ffProtected (a / 4096) s then flagOn Reg.FF_STATUS.PROTECT s
    else
      let r := ffWordAt a s
      if r.1 ≠ ffOnes then flagOn Reg.FF_STATUS.NOTERASED r.2
      else flagOn Reg.FF_STATUS.BUSY { r.2 with ff := { r.2.ff with busy := some (2, a, ffData s) } }) s

/-- FF_PROGRAM (R379). -/
def execFfProgram (who : Writer) (s : State) : Host.Outcome State Fault Refusal := .next (ffProgramEff who s)

/-- Count of a sector: from its header, or from the BEGIN of an erase that did not end (R380, R381). -/
def ffCount (sec : Nat) (s : State) : Nat := match s.ff.half.find? (fun h => h.1 == sec) with
  | some h => h.2
  | none => sGet s.ff.erases 0 sec

/-- FF_ERASE: COUNT + 1 consecutive sectors of one bank; their BEGIN markers are written. -/
def ffEraseEff (who : Writer) (count : Nat) (s : State) : State :=
  ffCommand who (fun s =>
    let sec := ffAddr s / 4096
    let n := count % 4 + 1
    let secs := (List.range n).map (sec + ·)
    if sec / 8192 ≠ (sec + n - 1) / 8192 then flagOn Reg.FF_STATUS.RANGE s
    else if secs.any (fun x => ffProtected x s) then flagOn Reg.FF_STATUS.PROTECT s
    else
      let begun := secs.map (fun x => (x, Nat.min (ffCount x s + 1) 16777215))
      flagOn Reg.FF_STATUS.BUSY { s with ff := { s.ff with
        busy := some (3, sec, n), half := s.ff.half.filter (fun h => !secs.contains h.1) ++ begun } }) s

/-- FF_ERASE (R380). -/
def execFfErase (who : Writer) (count : Nat) (s : State) : Host.Outcome State Fault Refusal := .next (ffEraseEff who count s)

/-- FF_READHDR: a header word holds the sector's erase count and a CRC whose place the spec does not state: a free value (log entry 2). -/
def ffReadhdrEff (who : Writer) (s : State) : State :=
  ffCommand who (fun s => ffShow (Config.freeValue s.freeCtr % 2 ^ 64) (tickFree s)) s

/-- FF_READHDR (R377). -/
def execFfReadhdr (who : Writer) (s : State) : Host.Outcome State Fault Refusal := .next (ffReadhdrEff who s)

/-- A sector whose erase has ended: blank, its count as BEGIN gave it, END written. A slot loses its image. -/
def ffErased (sec : Nat) (s : State) : State :=
  let n := ffCount sec s
  let f := s.ff
  flagIf (decide (90000 < n)) Reg.MG_ERR.WEAR { s with ff := { f with
    words := f.words.filter (fun w => w.1 / 4096 != sec), blank := addOnce f.blank sec, erases := sPut f.erases 0 sec n,
    half := f.half.filter (fun h => h.1 != sec),
    slot1 := if sec < 1024 then none else f.slot1, slot2 := if 8192 ≤ sec ∧ sec < 9216 then none else f.slot2 } }

/-- FF_OPERATION_DONE: the program or erase ends, BUSY clears. A program that fails verify leaves its word at a free value; an erase that fails
keeps its BEGIN without an END. -/
def ffOperationDoneEff (ok : Bool) (s : State) : State :=
  match s.ff.busy with
  | none => s
  | some (op, a, x) =>
    let s := flagOff Reg.FF_STATUS.BUSY { s with ff := { s.ff with busy := none } }
    if op = 2 then
      if ok then { s with ff := { s.ff with words := sPut s.ff.words ffOnes a x } }
      else
        let w := Config.freeValue s.freeCtr % 2 ^ 64
        let s := tickFree s
        flagOn Reg.FF_STATUS.PROGFAIL { s with ff := { s.ff with words := sPut s.ff.words ffOnes a w } }
    else if ok then (List.range x).foldl (fun t i => ffErased (a + i) t) s
    else flagOn Reg.FF_STATUS.ERASEFAIL s

/-- FF_OPERATION_DONE (R377, R379, R380). -/
def execFfOperationDone (ok : Bool) (s : State) : Host.Outcome State Fault Refusal := .next (ffOperationDoneEff ok s)

end Sys2Proof.Machine
end

