-- ==== Sys2Proof/Machine/Mi.lean ====
section
/-! DEFINITION. NVMe-MI: the data structures and health polls, configuration, VPD, tunnelled admin commands and the event-log commands (rows 264 to
270, 273 and 274 of the table; R386, R387, Table 15.5). The response layouts are those of NVMe-MI 1.2 (log entry 53). -/
namespace Sys2Proof.Machine

/-- A response of the endpoint: it answers while MI is served (R386). -/
def miAnswer (f : State → State) (s : State) : State := if miMode s then f s else s

/-- Response status Success. -/
def miOk (data : List Nat) (s : State) : State := emit (.mi 0 data) s

/-- Response status Invalid Parameter. -/
def miBad (s : State) : State := emit (.mi 4 []) s

/-! Data structures. -/

/-- PCIe ports of the Y9, and its two sideband ports after them. -/
def miPcie (s : State) : Nat := if s.pins.bifur then 2 else 1

/-- NVM Subsystem Information: the number of ports from 0, and version 1.2. -/
def miSubsystem (s : State) : List Nat := [miPcie s + 1, 1, 2] ++ List.replicate 29 0

/-- Port Information of a PCIe port: type 1, its largest payload, and its link. -/
def miPciePort (p : Port) (s : State) : List Nat :=
  let h := s.port p
  [1, 0] ++ le 2 64 ++ le 4 0 ++ [2, h.rate, h.width, h.width, portNum p] ++ List.replicate 19 0

/-- Port Information of a sideband port (0 I3C, 1 SMBus): type 2, its MTU and, for SMBus, the frequencies. -/
def miSideband (t : Nat) (s : State) : List Nat :=
  [2, 0] ++ le 2 (s.mg.mtu.getD t 64) ++ le 4 0 ++ [0xA6, s.mg.smbusFreq, 0x3A, 3] ++ List.replicate 20 0

/-- Port Information by port identifier. -/
def miPort (id : Nat) (s : State) : Option (List Nat) :=
  let n := miPcie s
  if id < n then some (miPciePort (if id = 0 then .a else .b) s)
  else if id < n + 2 then some (miSideband (id - n) s)
  else none

/-- The controllers of this Y9 with an identifier not below one. -/
def miControllers (from_ : Nat) (s : State) : List Nat := (ownCntlids s).filter (fun c => decide (from_ ≤ c))

/-- Controller Information: the port it is on. -/
def miController (id : Nat) (s : State) : Option (List Nat) :=
  if (ownCntlids s).contains id then some ([if id = cntlid .a s then 0 else 1, 0, 0, 0, 0, 1] ++ List.replicate 26 0) else none

/-- The commands R386 lists, as pairs of message type and opcode. -/
def miCommands : List Nat := [0x02, 0x10] ++ (([0x00, 0x01, 0x02, 0x03, 0x04, 0x05].map (fun o => [0x08, o])).flatten) ++
  (([0x02, 0x06, 0x0A, 0x10, 0x11, 0x14].map (fun o => [0x10, o])).flatten)

/-- Read NVMe-MI Data Structure by DTYP: 0 subsystem, 1 port, 2 controller list, 3 controller, 4 optional commands. -/
def readNvmeMiEff (dtyp portid cntlid_ : Nat) (s : State) : State :=
  miAnswer (fun s => match dtyp with
    | 0 => miOk (miSubsystem s) s
    | 1 => match miPort portid s with
      | some d => miOk d s
      | none => miBad s
    | 2 => let cs := miControllers cntlid_ s
           miOk (le 2 cs.length ++ cs.flatMap (le 2)) s
    | 3 => match miController cntlid_ s with
      | some d => miOk d s
      | none => miBad s
    | 4 => miOk miCommands s
    | _ => miBad s) s

/-- READ_NVME_MI_DATA_STRUCTURE (R386). -/
def execReadNvmeMiDataStructure (dtyp portid cntlid : Nat) (s : State) : Host.Outcome State Fault Refusal :=
  .next (readNvmeMiEff dtyp portid cntlid s)

/-! Health. -/

/-- Subsystem status: drive functional (not in QUARANTINE), no reset required, and the links that are up. -/
def miNss (s : State) : Nat :=
  (if s.gen.mode = .quarantine then 0 else 32) + (if s.he.a.up then 8 else 0) + (if s.he.b.up then 4 else 0)

/-- NVM Subsystem Health Status Poll: the status, the warnings inverted, the temperature in °C, wear, and the controllers' present status
(ready, CFS, shutdown). The status is the present one, so a request to clear has nothing to clear (log entry 53). -/
def subsystemHealthEff (_clear : Bool) (s : State) : State :=
  miAnswer (fun s =>
    let ccs := (if rdy .a s || rdy .b s then 1 else 0) + (if s.ctl.a.cfs || s.ctl.b.cfs then 2 else 0) +
      (if s.ctl.a.shst = 2 ∨ s.ctl.b.shst = 2 then 4 else 0)
    let wear := Config.freeValue s.freeCtr % 256
    miOk ([miNss s, 255 - critWarning s, (s.sh.compTempK - 273) % 256, wear] ++ le 2 ccs ++ [0, 0]) (tickFree s)) s

/-- NVM_SUBSYSTEM_HEALTH_STATUS_POLL (R386). -/
def execNvmSubsystemHealthStatusPoll (clear : Bool) (s : State) : Host.Outcome State Fault Refusal := .next (subsystemHealthEff clear s)

/-- One controller's health: identifier, CSTS fields, temperature, wear, spare, critical warning. -/
def ctrlHealth (id wear : Nat) (s : State) : List Nat :=
  let p : Port := if id = cntlid .a s then .a else .b
  let c := s.con p
  let csts := (if rdy p s then 1 else 0) + (if c.cfs then 2 else 0) + 4 * c.shst
  le 2 id ++ le 2 csts ++ le 2 s.sh.compTempK ++ [wear, availableSpare s, critWarning s] ++ List.replicate 7 0

/-- Controller Health Status Poll from an identifier on, at most `maxCount` + 1 controllers. -/
def controllerHealthEff (startCtrl maxCount : Nat) (_clear : Bool) (s : State) : State :=
  miAnswer (fun s =>
    let wear := Config.freeValue s.freeCtr % 256
    let cs := (miControllers startCtrl s).take (maxCount + 1)
    miOk ([0, 0, cs.length, 0] ++ cs.flatMap (fun c => ctrlHealth c wear s)) (tickFree s)) s

/-- CONTROLLER_HEALTH_STATUS_POLL (R386). -/
def execControllerHealthStatusPoll (startCtrl maxCount : Nat) (clear : Bool) (s : State) : Host.Outcome State Fault Refusal :=
  .next (controllerHealthEff startCtrl maxCount clear s)

/-! Configuration and VPD. -/

/-- Configuration Get: 1 SMBus frequency, 3 MCTP transmission unit; transport 0 I3C, 1 SMBus. -/
def configurationGetEff (cfg transport : Nat) (s : State) : State :=
  miAnswer (fun s =>
    if 1 < transport then miBad s
    else match cfg with
      | 1 => miOk [s.mg.smbusFreq] s
      | 3 => miOk (le 2 (s.mg.mtu.getD transport 64)) s
      | _ => miBad s) s

/-- CONFIGURATION_GET (R386). -/
def execConfigurationGet (cfg : Nat) (transport : Nat) (s : State) : Host.Outcome State Fault Refusal :=
  .next (configurationGetEff cfg transport s)

/-- Configuration Set: frequency codes 1 to 3 are 100 kHz, 400 kHz and 1 MHz; a transmission unit is at least 64 bytes. -/
def configurationSetEff (cfg transport value : Nat) (s : State) : State :=
  miAnswer (fun s =>
    if 1 < transport then miBad s
    else match cfg with
      | 1 => if 1 ≤ value ∧ value ≤ 3 then miOk [] { s with mg := { s.mg with smbusFreq := value } } else miBad s
      | 3 => if 64 ≤ value ∧ value < 65536 then miOk [] { s with mg := { s.mg with mtu := s.mg.mtu.set transport value } } else miBad s
      | _ => miBad s) s

/-- CONFIGURATION_SET (R386). -/
def execConfigurationSet (cfg : Nat) (transport value : Nat) (s : State) : Host.Outcome State Fault Refusal :=
  .next (configurationSetEff cfg transport value s)

/-- VPD Read: the vital product data's content is not stated by the spec: each byte is a free value (log entry 2). -/
def vpdReadEff (_offset len : Nat) (s : State) : State :=
  miAnswer (fun s =>
    miOk ((List.range len).map (fun i => Config.freeValue (s.freeCtr + i) % 256)) { s with freeCtr := s.freeCtr + len }) s

/-- VPD_READ (R386). -/
def execVpdRead (offset len : Nat) (s : State) : Host.Outcome State Fault Refusal := .next (vpdReadEff offset len s)

/-! Tunnelled admin commands (R387). -/

/-- The header of a tunnelled command. -/
def miHdr (p : Port) (nsid : Nat) : AdminHdr := ⟨p, 0, 0, nsid, true, .prp [], true⟩

/-- Firmware Commit by its action (Table 15.4). -/
def miCommit (h : AdminHdr) (slot ca : Nat) (img : SlotImage) (s : State) : State :=
  match ca with
  | 0 => firmwareCommitBody h slot true false img s
  | 1 => firmwareCommitBody h slot true true img s
  | 2 => firmwareCommitBody h slot false true img s
  | 3 => firmwareActivateBody h slot img s
  | _ => adminFail h 0 0x02 s

/-- The commands MI tunnels, read from CDW10 on; `img` are the facts of the staged image a commit would verify. Others fail with Invalid
Command Opcode. -/
def miAdmin (h : AdminHdr) (opcode : Nat) (cdw : List Nat) (img : SlotImage) (s : State) : State :=
  let d := fun i => cdw.getD i 0
  match opcode with
  | 0x06 => adminCmd h modesBasic 0 (identifyBody h (d 0 % 256) (d 0 / 65536 % 65536)) s
  | 0x02 => adminCmd h modesBasic 0 (getLogPageBody h (d 0 % 256) (d 2 + 2 ^ 32 * d 3)
      (d 0 / 65536 % 65536 + 65536 * (d 1 % 65536) + 1) ((d 0).testBit 15)) s
  | 0x0A => adminCmd h modesFeature 0 (getFeaturesBody h (d 0 % 256) (d 0 / 256 % 8) (BitVec.ofNat 32 (d 1))) s
  | 0x11 => adminCmd h modesBasic 0 (firmwareImageDownloadBody h (4 * d 1) (4 * (d 0 + 1))) s
  | 0x10 => adminCmd h modesBasic 0 (miCommit h (d 0 % 8) (d 0 / 8 % 8) img) s
  | 0x14 => adminCmd h modesAll 0 (deviceSelfTestBody h (d 0 % 16)) s
  | _ => adminFail h 0 0x01 s

/-- MI_TUNNELLED_ADMIN_COMMAND (R386, R387, R93). -/
def execMiTunnelledAdminCommand (port : Port) (opcode nsid : Nat) (cdw : List Nat) (img : SlotImage) (s : State) :
    Host.Outcome State Fault Refusal :=
  .next (miAnswer (miAdmin (miHdr port nsid) opcode cdw img) s)

/-! Event-log commands (Table 15.5). -/

/-- Put an entry where its SEQ belongs. -/
def insBySeq (e : LogEntry) : List LogEntry → List LogEntry
  | [] => [e]
  | x :: t => if e.seq ≤ x.seq then e :: x :: t else x :: insBySeq e t

/-- Event Log Read: entries from a SEQ on in ascending order, 1 to 64 of them, from the ring or the protected area. -/
def eventLogReadEff (firstSeq count area : Nat) (s : State) : State :=
  miAnswer (fun s =>
    if count = 0 ∨ 64 < count ∨ 1 < area then miBad s
    else
      let all := if area = 0 then s.ff.ring else s.ff.prot.map (·.1)
      let hit := (all.filter (fun e => decide (firstSeq ≤ e.seq))).foldr insBySeq []
      miOk ((hit.take count).flatMap entryBytes) s) s

/-- EVENT_LOG_READ (R386, Table 15.5). -/
def execEventLogRead (firstSeq count area : Nat) (s : State) : Host.Outcome State Fault Refusal :=
  .next (eventLogReadEff firstSeq count area s)

/-- EVENT_LOG_ACKNOWLEDGE: as a write to MG_LOGACK by management (R374, Table 15.5). -/
def execEventLogAcknowledge (seq : Nat) (s : State) : Host.Outcome State Fault Refusal :=
  .next (miAnswer (fun s => miOk [] (mgLogackWriteEff .mgmt (BitVec.ofNat 32 seq) s)) s)

end Sys2Proof.Machine
end

