-- ==== Sys2Proof/Machine/FaultInj.lean ====
section
/-! DEFINITION. Single faults of cores, engines, lanes and SRAM rows, and fault injection (rows 286 to 293 of the table; R389 to R397). -/
namespace Sys2Proof.Machine

/-! Single faults (Tables 16.1 and 16.2). -/

/-- Units of a resource already out of service. -/
def unitsOut (r : Nat) (s : State) : Nat := (s.prov.outUnits.filter (fun u => u.1 == r)).length

/-- A unit of a counted resource leaves service, and the record keeps it. -/
def nextOut (r : Nat) (s : State) : State := unitOut r (unitsOut r s) s

/-- A policy core: a spare takes the role; with none the roles share the cores left, and below 12 the spare supply is exhausted. -/
def coreFault (s : State) : State :=
  let s := nextOut 0 s
  if 0 < s.mg.coreSpare then spareIn 0 (s.mg.coreSpare - 1) { s with mg := { s.mg with coreSpare := s.mg.coreSpare - 1 } }
  else
    let s := { s with mg := { s.mg with cores := s.mg.cores - 1 } }
    if s.mg.cores < 12 then spareExhausted 0 s else s

/-- An LDPC engine. -/
def engineFault (s : State) : State :=
  let s := nextOut 2 s
  if 0 < s.mg.engineSpare then spareIn 2 (s.mg.engineSpare - 1) { s with mg := { s.mg with engineSpare := s.mg.engineSpare - 1 } }
  else { s with mg := { s.mg with engines := s.mg.engines - 1 } }

/-- A digest lane: the context it served moves to the spare lane, or with no lane left it waits at the head of the queue. -/
def laneFault (ctx : Option Nat) (s : State) : State :=
  let s := nextOut 3 s
  if 0 < s.dg.spare then spareIn 3 (s.dg.spare - 1) { s with dg := { s.dg with spare := s.dg.spare - 1 } }
  else
    let s := { s with dg := { s.dg with active := s.dg.active - 1 } }
    match ctx with
    | none => s
    | some c =>
      if s.dg.active < lanesBusy s ∧ (getCtx c s).st = 2 then
        updCtx c (fun x => { x with st := 1 }) { s with dg := { s.dg with queue := c :: s.dg.queue } }
      else s

/-- A compress lane: the grain is compressed again on another. -/
def compressFault (s : State) : State :=
  let s := nextOut 4 s
  if 0 < s.mg.compSpare then spareIn 4 (s.mg.compSpare - 1) { s with mg := { s.mg with compSpare := s.mg.compSpare - 1 } }
  else { s with mg := { s.mg with comp := s.mg.comp - 1 } }

/-- A decompress lane leaves service; there is no spare. -/
def decompressFault (s : State) : State := nextOut 5 { s with mg := { s.mg with decomp := s.mg.decomp - 1 } }

/-- A single fault. -/
def unitFaultEff (unit : UnitFault) (s : State) : State :=
  if s.gen.mode = .reset then s
  else match unit with
    | .policyCore => coreFault s
    | .ldpcEngine => engineFault s
    | .digestLane ctx => laneFault ctx s
    | .compressLane => compressFault s
    | .decompressLane => decompressFault s
    | .sramRow row hardware bufs => repairRow row hardware bufs s

/-- POLICY_CORE_FAULT, and the other units the runtime sparing controller replaces (R389, R391, R392). -/
def execPolicyCoreFault (unit : UnitFault) (s : State) : Host.Outcome State Fault Refusal := .next (unitFaultEff unit s)

/-! Arming (R394). -/

/-- A write of an FI register with a row of its own: the writer holds the token (R49). -/
def fiWrite (who : Writer) (off : Nat) (body : State → State) (s : State) : State :=
  if ¬ setupOpen who s then s
  else if ¬ mayWrite who off s then genErr Reg.GEN_ERR.OWNWR off who s
  else body s

/-- The arming sequence is refused. -/
def fiKeyBad (s : State) : State := flagOn Reg.FI_ERR.KEY { s with fi := { s.fi with keyed := false } }

/-- FI_ARM.KEY: 0xF1A1 starts the sequence in SERVICE, 0x5E5E ends it; 0 is no write (R418). -/
def fiKeyEff (key : BitVec 16) (s : State) : State :=
  if key = 0 then s
  else if s.gen.mode ≠ .service then fiKeyBad s
  else if key = 0xF1A1 ∧ ¬ s.fi.keyed then { s with fi := { s.fi with keyed := true } }
  else if key = 0x5E5E ∧ s.fi.keyed then
    let s := { s with fi := { s.fi with keyed := false } }
    if s.fi.armed then s else fiArmed false s
  else fiKeyBad s

/-- FI_ARM_KEY (R394, Table 16.7). -/
def execFiArmKey (who : Writer) (key : BitVec 16) (s : State) : Host.Outcome State Fault Refusal :=
  .next (fiWrite who Reg.FI_ARM.KEY.reg (fiKeyEff key) s)

/-- FI_DISARM (R394). -/
def execFiDisarm (who : Writer) (s : State) : Host.Outcome State Fault Refusal :=
  .next (fiWrite who Reg.FI_ARM.DISARM.reg (fiDisarmed 0) s)

/-- FI_ARM_TIMEOUT: FI_CFG.TMO expires, in SERVICE only (R394). -/
def execFiArmTimeout (s : State) : Host.Outcome State Fault Refusal :=
  .next (if s.gen.mode = .service then fiDisarmed 1 s else s)

/-- FI_KEY_SEQUENCE_TIMEOUT: the first key lapses after 1 ms (R394). -/
def execFiKeySequenceTimeout (s : State) : Host.Outcome State Fault Refusal := .next { s with fi := { s.fi with keyed := false } }

/-! Enabling a mechanism (R395, Table 16.4). -/

/-- The SERVICE limit of the Gareo mechanism: VC1 to VC3, and RATE of 10 or more. -/
def gfLimit (v : Nat) : Bool := decide (1 ≤ fieldBits Reg.FI_GF.VC v) && decide (10 ≤ fieldBits Reg.FI_GF.RATE v)

/-- The SERVICE limit of the flash mechanism: the target's group has no missing member, and RATE of 10 or more. -/
def flLimit (v : Nat) (s : State) : Bool :=
  let d := fieldBits Reg.FI_FL.CHANNEL v * 32 + fieldBits Reg.FI_FL.POS v
  (groupOfDie d s).all (fun g => g.missing == []) && decide (10 ≤ fieldBits Reg.FI_FL.RATE v)

/-- A write of an injection register. A write that sets EN while FI is disarmed, or outside SERVICE and DIAGNOSTIC, is ignored; in SERVICE a
write that breaks a limit is ignored. Setting EN, or another target while EN is 1, starts the mechanism's count again. -/
def fiMechWrite (who : Writer) (en : Field) (mech : Nat) (limit : Bool) (value : Nat) (s : State) : State :=
  fiWrite who en.reg (fun s =>
    let on := fieldBits en value == 1
    if on ∧ ¬ isOn en s ∧ ¬ (s.fi.armed ∧ fiMode s.gen.mode) then flagOn Reg.FI_ERR.NOTARMED s
    else if on ∧ s.gen.mode = .service ∧ ¬ limit then genErr Reg.GEN_ERR.RANGE en.reg who s
    else
      let before := (fieldsAt en.reg).map (fun f => getF f s)
      let t := setF en (if on then 1 else 0) (writeFields who en.reg value s)
      if on ∧ (fieldsAt en.reg).map (fun f => getF f t) ≠ before then { t with fi := { t.fi with units := t.fi.units.set mech 0 } } else t) s

/-- FI_GF_EN (R395). -/
def execFiGfEn (who : Writer) (value : Word) (s : State) : Host.Outcome State Fault Refusal :=
  .next (fiMechWrite who Reg.FI_GF.EN 0 (gfLimit value.toNat) value.toNat s)

/-- FI_FL_EN (R395). -/
def execFiFlEn (who : Writer) (value : Word) (s : State) : Host.Outcome State Fault Refusal :=
  .next (fiMechWrite who Reg.FI_FL.EN 1 (flLimit value.toNat s) value.toNat s)

/-- FI_PCIE_EN: not permitted in SERVICE (R395). -/
def execFiPcieEn (who : Writer) (value : Word) (s : State) : Host.Outcome State Fault Refusal :=
  .next (fiMechWrite who Reg.FI_PCIE.EN 2 false value.toNat s)

end Sys2Proof.Machine
end

