-- ==== Sys2Proof/Machine/RegRead.lean ====
section
/-! DEFINITION. Reading BAR0: what each register field shows, the latched halves of 64-bit values, the window entries, the NVMe registers and the MSI-X
structures (rows 49 and 271 of the table; R8, R9, R52, R60, R81, R82, R386 and the field tables of every block). -/
namespace Sys2Proof.Machine

/-! Fields that show the state of a block. Every other field shows what is stored. -/

/-- A truth value as a bit. -/
def bit (b : Bool) : Nat := if b then 1 else 0

/-- A count that saturates at the width of its field. -/
def sat (w n : Nat) : Nat := Nat.min n (2 ^ w - 1)

/-- A number of bytes in GiB, rounded up. -/
def gibUp (bytes : Nat) : Nat := ceilDiv bytes (2 ^ 30)

/-- GEN and HE. -/
def showGenHe (s : State) : List (Field × Nat) :=
  let hw := fun (p : Port) => s.port p
  [(Reg.GEN_MODE.MODE, modeCode s.gen.mode), (Reg.GEN_MODE.PREV, modeCode s.gen.prev), (Reg.GEN_MODE.CAUSE, s.gen.cause),
   (Reg.GEN_OWNER.HOLDER, match s.gen.holder with
     | .none => 0
     | .host => 1
     | .mgmt => 2),
   (Reg.HE_LINKSTAT.BIFUR, bit s.pins.bifur), (Reg.HE_LINKSTAT.A_RATE, (hw .a).rate), (Reg.HE_LINKSTAT.A_WIDTH, (hw .a).width),
   (Reg.HE_LINKSTAT.A_FLIT, bit (hw .a).flit), (Reg.HE_LINKSTAT.A_UP, bit ((hw .a).up && !(hw .a).recovery)), (Reg.HE_LINKSTAT.B_RATE, (hw .b).rate),
   (Reg.HE_LINKSTAT.B_WIDTH, (hw .b).width), (Reg.HE_LINKSTAT.B_FLIT, bit (hw .b).flit), (Reg.HE_LINKSTAT.B_UP, bit ((hw .b).up && !(hw .b).recovery)),
   (Reg.HE_WINSTAT.A_GEN, (hw .a).winGen), (Reg.HE_WINSTAT.A_BUSY, bit (hw .a).copyBusy), (Reg.HE_WINSTAT.B_GEN, (hw .b).winGen),
   (Reg.HE_WINSTAT.B_BUSY, bit (hw .b).copyBusy),
   (Reg.QE_POLL.A_STOPPED, bit (pollStopped .a s)), (Reg.QE_POLL.B_STOPPED, bit (pollStopped .b s))]

/-- FS and MX. The high halves show what the last read of their low half latched. -/
def showFsMx (s : State) : List (Field × Nat) :=
  let dirty := (s.mx.cache.filter (·.2.2)).length
  [(Reg.FS_THROT.LEVEL, maxOf s.mg.levels),
   (Reg.FS_THROT.SHARE, sat 8 (maxOf ((List.range 8).map (fun k => withheld (256 * k) s)))),
   (Reg.FS_FRET.NUM, fretNow s), (Reg.MX_CSNLO.CSN, s.mx.csn), (Reg.MX_CEILLO.CEIL, s.nand.ceil), (Reg.MX_JSEQLO.SEQ, s.mx.jseq),
   (Reg.MX_LAG.RECORDS, sat 32 (s.mx.lag / 1024)), (Reg.MX_MAPUSE.USED, gibUp (regionUsed s)), (Reg.MX_MAPUSE.DIRTY, sat 16 (dirty / 256))]

/-- MM and SP. -/
def showMmSp (s : State) : List (Field × Nat) :=
  let live := s.sp.groups.filter (fun g => !g.dissolved)
  let some_ := fun (n : Nat) => live.filter (fun g => s.sp.subst.any (fun e => e.group == g.num && e.state == n))
  [(Reg.MM_FREE.FREE, sat 20 (freeBarrels s)), (Reg.MM_FREE.OPEN, sat 9 s.mm.openB.length),
   (Reg.MM_VATUSE.USED, sat 12 (gibUp (vatBytes s))), (Reg.MM_VATUSE.UNBOTTLED, sat 12 (gibUp (unbottledBytes s))),
   (Reg.SP_GEOM.GROUPS, s.sp.groups.length), (Reg.SP_GEOM.LIVE, live.length), (Reg.SP_GEOM.HOTSPARE, s.sp.spares.length),
   (Reg.SP_SJSEQLO.SEQ, s.sp.snapSeq),
   (Reg.SP_REBSTAT.DEGRADED, (live.filter (fun g => g.missing != [])).length), (Reg.SP_REBSTAT.REBUILDING, (some_ 2).length),
   (Reg.SP_REBSTAT.WAITING, (live.filter (·.waiting)).length), (Reg.SP_REBSTAT.DISSOLVING, bit (live.any (·.dissolving)))]

/-- The bank CS_CLSEL selects. -/
def selBank (s : State) : Option Bank :=
  (s.cs.clusters[getF Reg.CS_CLSEL.CLUSTER s]?).map (fun c => if isOn Reg.CS_CLSEL.BANK s then c.bankB else c.bankA)

/-- Channels from one on that are trained and served, as bits. -/
def chokBits (from_ : Nat) (s : State) : Nat :=
  sumOf ((List.range 32).map (fun i => if (s.cs.chans[from_ + i]?).any (·.ok) then 2 ^ i else 0))

/-- Sum of bits for the members of a list. -/
def bitsOf (l : List Nat) : Nat := sumOf (l.eraseDups.map (fun n => 2 ^ n))

/-- DC, EC and CS. -/
def showDcCs (s : State) : List (Field × Nat) :=
  let c := s.cs.clusters[getF Reg.CS_CLSEL.CLUSTER s]?
  let b := selBank s
  let m := b.bind (fun x => x.matches_[getF Reg.CS_MATCHSEL.INDEX s]?)
  let h := Config.baseMatrix (getF Reg.EC_HSEL.ROW s) (getF Reg.EC_HSEL.COL s)
  let both := fun (pick : Cluster → Bank) => bit (c.any (fun x => (pick x).loaded && (pick x).locked))
  [(Reg.DC_LANES.CACT, s.mg.comp), (Reg.DC_LANES.CSPARE, s.mg.compSpare), (Reg.DC_LANES.DACT, s.mg.decomp),
   (Reg.DC_SAVED.GRANULES, sat 32 (s.mx.saved / 2 ^ 20)), (Reg.DC_KEYS.USED, s.ff.keys.length),
   (Reg.EC_ENG.ACTIVE, s.mg.engines), (Reg.EC_ENG.SPARE, s.mg.engineSpare),
   (Reg.EC_HDATA.SHIFT, (h.map (·.val)).getD 0), (Reg.EC_HDATA.NONZERO, bit h.isSome),
   (Reg.CS_CHOK0.OK, chokBits 0 s), (Reg.CS_CHOK1.OK, chokBits 32 s),
   (Reg.CS_CLSTAT.SEQBANK, (c.map (fun x => bitsOf ((x.onB.zipIdx.filter (·.1)).map (·.2)))).getD 0),
   (Reg.CS_CLSTAT.SPARE, ((c.bind (·.spare)).getD 15)), (Reg.CS_CLSTAT.FAULTED, (c.map (fun x => bitsOf x.faulted)).getD 0),
   (Reg.CS_CLSTAT.LOCKA, both (·.bankA)), (Reg.CS_CLSTAT.LOCKB, both (·.bankB)),
   (Reg.CS_CHMAP.SEQ, (c.map (fun x => sumOf (x.chmap.zipIdx.map (fun e => e.1 * 16 ^ e.2)))).getD 0),
   (Reg.CS_PATCHVER.BUILD, (b.map (·.build)).getD 0), (Reg.CS_PATCHVER.MINOR, (b.map (·.minor)).getD 0),
   (Reg.CS_PATCHVER.MAJOR, (b.map (·.major)).getD 0), (Reg.CS_PATCHVER.SETID, (b.map (·.setId)).getD 0),
   (Reg.CS_ROMID.ROMID, s.fuses.romId),
   (Reg.CS_MATCHDATA.ROMADDR, (m.map (·.romAddr)).getD 0), (Reg.CS_MATCHDATA.TARGET, (m.map (·.target)).getD 0),
   (Reg.CS_MATCHDATA.EN, bit (m.any (·.enable))),
   (Reg.CS_ACT.BUSY, bit s.cs.act.isSome), (Reg.CS_ACT.CLUSTER, (s.cs.act.map (·.1)).getD 0), (Reg.CS_ACT.PHY, (s.cs.act.map (·.2)).getD 0)]

/-- GiB of DRAM below the buffer pool: map region, page cache and system area (R279). -/
def belowPool (s : State) : Nat := getF Reg.MX_CFG.REGION s + getF Reg.MX_CFG.PGCACHE s + 4

/-- BP and ME. Before the provisioning commit DRAM has no layout. -/
def showBpMe (s : State) : List (Field × Nat) :=
  let o := ownSel s
  let p := getF Reg.BP_POOLSEL.POOL s
  let laid := s.prov.valid
  [(Reg.BP_OWNUSE.USED, ownerUse o s), (Reg.BP_OWNFAIL.CAP, sat 16 (getOwner o s).failsCap), (Reg.BP_OWNFAIL.MIN, sat 16 (getOwner o s).failsMin),
   (Reg.BP_POOLSTAT.FREE, sat 21 (poolFree p s)), (Reg.BP_POOLSTAT.QUAR, bit (getPool p s).quar),
   (Reg.BP_POOLSTAT.QCOUNT, sat 8 (getPool p s).qcount), (Reg.BP_FREESRAM.FREE, memFree false s), (Reg.BP_FREEDRAM.FREE, memFree true s),
   (Reg.ME_DRAMINFO.SIZE, s.me.dramGiB), (Reg.ME_DRAMINFO.CHOK, s.me.chOk),
   (Reg.ME_POOLMAP.BASE, if laid then belowPool s else 0), (Reg.ME_POOLMAP.BUFS, if laid then dramBufs s / 4096 else 0),
   (Reg.ME_RESERVE.SIZE, if laid then s.me.dramGiB - belowPool s - 32 else 0), (Reg.ME_RESERVE.REMAP, s.me.remap.length),
   (Reg.ME_LASTLO.ADDR, s.me.last), (Reg.ME_REPAIR.SRAMUSED, s.me.repaired.length),
   (Reg.ME_MERGE.MERGES, sat 16 (s.me.mergeCnt / 65536))]

/-- Bundle, primary and alternate of a routing entry as GF_RTDATA shows them. -/
def rtShow (s : State) : List (Field × Nat) :=
  let n := getF Reg.GF_RTSEL.NODE s
  let r := (s.gf.routes.find? (fun x => x.1 == n)).map (·.2)
  [(Reg.GF_RTDATA.PRIM, (r.map (·.prim)).getD 15), (Reg.GF_RTDATA.ALT, (r.map (·.alt)).getD 15),
   (Reg.GF_RTDATA.BUNDLE, (r.map (·.bundle.toNat)).getD 0), (Reg.GF_RTDATA.HOPS, (r.map (·.hops)).getD 0),
   (Reg.GF_RTDATA.VALID, bit (r.any (·.valid))), (Reg.GF_RTDATA.LOCAL, bit (r.any (fun x => x.valid && x.hops == 0)))]

/-- GF. -/
def showGf (s : State) : List (Field × Nat) :=
  let k := getF Reg.GF_LINKSEL.LINK s
  let l := getLink k s
  let never := l.peerNode == 0xFFFF
  let depth := if timeMaster s then 0 else ((s.gf.routes.find? (fun x => x.1 == s.gf.coordNode)).map (·.2.hops)).getD 0
  [(Reg.GF_NODE.ID, s.gf.node.getD 0), (Reg.GF_NODE.VALID, bit s.gf.node.isSome), (Reg.GF_NODE.COORD, bit s.gf.isCoord),
   (Reg.GF_NODE.HELDOUT, bit s.gf.heldOut), (Reg.GF_NODE.TMASTER, bit (timeMaster s)), (Reg.GF_NODE.PREF, s.prov.prefNode.getD 0),
   (Reg.GF_COORD.NODE, s.gf.coordNode), (Reg.GF_COORD.EPOCH, s.gf.epoch % 65536),
   (Reg.GF_UID0.UID, s.fuses.uid), (Reg.GF_UID1.UID, s.fuses.uid / 2 ^ 32), (Reg.GF_UID2.UID, s.fuses.uid / 2 ^ 64),
   (Reg.GF_UID3.UID, s.fuses.uid / 2 ^ 96), (Reg.GF_EXPBASE.BASE, s.prov.expBase),
   (Reg.GF_LINKSTAT.STATE, l.st), (Reg.GF_LINKSTAT.REVERSED, bit l.reversed), (Reg.GF_LINKSTAT.LANES, l.lanes),
   (Reg.GF_LINKSTAT.PEERNODE, if never then 0 else l.peerNode), (Reg.GF_LINKSTAT.PEERLINK, if never then 0 else l.peerLink),
   (Reg.GF_LINKSTAT.RETRAINS, sat 8 l.retrains), (Reg.GF_LINKERR.CRC, sat 16 l.crcErr), (Reg.GF_LINKERR.REPLAY, sat 16 l.retries),
   (Reg.GF_TOFFS.DEPTH, sat 5 depth)] ++ rtShow s

/-- TW. -/
def showTw (s : State) : List (Field × Nat) :=
  let paired := decide (s.tw.st ≠ .none)
  let m := s.tw.mig
  [(Reg.TW_PAIR.STATE, pairCode s), (Reg.TW_PAIR.ACTIVE, bit s.tw.active), (Reg.TW_PAIR.PEER, s.tw.peer), (Reg.TW_PAIR.HBLINK, s.tw.hbLink),
   (Reg.TW_PAIR.PATHA, bit (paired && !s.tw.pathALost)), (Reg.TW_PAIR.PATHB, bit (paired && !s.tw.pathBLost)),
   (Reg.TW_PAIR.FENCEOUT, bit s.pins.fenceOut), (Reg.TW_PAIR.FENCEIN, bit s.pins.fenceIn), (Reg.TW_ACKLO.CSN, s.tw.ack),
   (Reg.TW_SEED.TODO, sat 24 s.tw.seedTodo.length), (Reg.TW_SEED.FULL, bit s.tw.seedFull),
   (Reg.TW_MIGSTAT.PHASE, migPhase s), (Reg.TW_MIGSTAT.ROLE, m.role), (Reg.TW_MIGSTAT.PEER, m.peer), (Reg.TW_MIGSTAT.PASS, sat 8 m.pass),
   (Reg.TW_MIGSEG.DIRTY, sat 24 m.dirty.length), (Reg.TW_MIGSEG.RESENT, sat 8 m.resent), (Reg.TW_MIGDONE.SENT, sat 32 m.sent)]

/-- The lane a running context holds: the spec does not say which of the free lanes a request takes (log entry 2). -/
def laneOf (i : Nat) (c : Ctx) : Nat := if c.st = 2 then Config.freeValue (2 ^ 40 + 64 * c.started + i) % 34 else 0x3F

/-- DG. -/
def showDg (s : State) : List (Field × Nat) :=
  let i := getF Reg.DG_CTXSEL.CTX s
  let c := getCtx i s
  [(Reg.DG_LANES.ACTIVE, s.dg.active), (Reg.DG_LANES.SPARE, s.dg.spare), (Reg.DG_LANES.SNOOP, snoopLanes s),
   (Reg.DG_LANES.FREE, s.dg.active - lanesBusy s), (Reg.DG_LANES.QUEUED, s.dg.queue.length),
   (Reg.DG_CTXSTAT.STATE, c.st), (Reg.DG_CTXSTAT.ALG, (c.params.map (·.alg)).getD 0), (Reg.DG_CTXSTAT.SNOOP, bit (c.params.any (·.snoop))),
   (Reg.DG_CTXSTAT.MODE, bit (c.params.any (·.compare))), (Reg.DG_CTXSTAT.PRIO, (c.params.map (fun p => p.prio - 1)).getD 0),
   (Reg.DG_CTXSTAT.LANE, laneOf i c), (Reg.DG_CTXSTAT.CAUSE, c.cause), (Reg.DG_CMPA.FLAG, c.flagA), (Reg.DG_CMPB.FLAG, c.flagB),
   (Reg.DG_AUDSTAT.ACTIVE, bit s.dg.audit.isSome), (Reg.DG_SEC.ARB, s.fuses.arb), (Reg.DG_SEC.SVN, runSvn s),
   (Reg.DG_SEC.OKSLOT, (ownerInForce s).getD 3),
   (Reg.DG_SEC.OKPROG, bitsOf ((s.fuses.owners.zipIdx.filter (fun o => o.1.1.isSome)).map (·.2))),
   (Reg.DG_SEC.OKREV, bitsOf ((s.fuses.owners.zipIdx.filter (fun o => o.1.2)).map (·.2)))]

/-- The reading of a monitor: 0.1 °C in two's complement, mV, or tens of mA. -/
def senValue (n : Nat) (s : State) : Nat :=
  let x := s.mg.sample
  if n < 24 then ((x.temps.getD n 0) % 65536).toNat else if n < 40 then x.volts.getD (n - 24) 0 else x.amps.getD (n - 40) 0

/-- A warning condition of Table 15.1 holds on a monitor. -/
def senWarn (n : Nat) (s : State) : Bool :=
  if n < 24 then decide (950 ≤ s.mg.sample.temps.getD n 0) else if n < 40 then s.mg.warn.contains n else s.mg.powerLim

/-- The dword of the log entry that MG_LOGSEL selects. -/
def logDword (s : State) : Nat :=
  let es := if isOn Reg.MG_LOGSEL.AREA s then s.ff.prot.map (·.1) else s.ff.ring
  match es.reverse[getF Reg.MG_LOGSEL.BACK s]? with
  | some e =>
    let b := (entryBytes e).drop (4 * getF Reg.MG_LOGSEL.DWORD s)
    b.getD 0 0 + 256 * b.getD 1 0 + 65536 * b.getD 2 0 + 16777216 * b.getD 3 0
  | none => 0

/-- The step of an activation as MG_UPD shows it: 4 cores, 5 tablature, 6 management reset. -/
def updStep (s : State) : Nat := match s.mg.activation with
  | some n => if n ≤ 1 then 4 else if n = 2 then 5 else 6
  | none => 0

/-- MG and FF. -/
def showMg (s : State) : List (Field × Nat) :=
  let n := getF Reg.MG_SENSEL.SENSOR s
  [(Reg.MG_STAT.RUN, bit s.mg.run), (Reg.MG_SENDATA.VALUE, senValue n s), (Reg.MG_SENDATA.WARN, bit (senWarn n s)),
   (Reg.MG_SENDATA.TRIP, bit (s.mg.trip.contains n)), (Reg.MG_LOGSTAT.UNACK, unackCount s), (Reg.MG_LOGDATA.DATA, logDword s),
   (Reg.MG_UPD.BUSY, bit s.mg.activation.isSome), (Reg.MG_UPD.STEP, updStep s),
   (Reg.MG_UPD.ROLE, if (s.mg.activation.getD 0) < 2 then 0 else 16), (Reg.MG_UPD.STAGED, sat 7 (ceilDiv (sumOf (s.sh.fwDown.map (·.2))) 65536)),
   (Reg.FF_WEAR.MAX, maxOf (s.ff.erases.map (·.2)))]

/-- The derived fields of the block an offset lies in. -/
def showBlock (off : Nat) (s : State) : List (Field × Nat) :=
  if off < 0x98000 then showGenHe s else if off < 0xA8000 then showFsMx s else if off < 0xB8000 then showMmSp s
  else if off < 0xC8000 then showDcCs s else if off < 0xD8000 then showBpMe s else if off < 0xE0000 then showGf s
  else if off < 0xE8000 then showTw s else if off < 0xF0000 then showDg s else showMg s

/-- What a field reads: derived from its block's state, 0 for a field that only takes writes, else the stored value. That a W1S field without
a stored bit reads 0 after its action is the model's choice where its map does not say so (log entry 104). -/
def readField (f : Field) (s : State) : Nat :=
  match (showBlock f.reg s).find? (fun x => x.1 == f) with
  | some x => x.2 % 2 ^ f.width
  | none => match f.acc with
    | .wo | .w1s => 0
    | _ => curVal f s % 2 ^ f.width

/-! Other registers of BAR0. -/

/-- One register of a window entry. -/
def Win.read (w : Win) (reg : Nat) : Nat :=
  if reg = 0 then bit w.en + 2 * bit w.rd + 4 * bit w.wr + 256 * w.size
  else if reg = 4 then w.base
  else if reg = 8 then w.tgt % 4096 * 2 ^ 20
  else w.tgt / 4096

/-- A register of a window table: staging or active set of a port; port B's are reserved in single-port mode. -/
def readWin (r : Nat) (s : State) : Nat :=
  let p : Port := if r < 0x3000 then .a else .b
  let h := s.port p
  if ¬ portExists p s then 0 else (sGet (if r / 0x1000 % 2 = 1 then h.staging else h.active) .zero (r % 0x1000 / 16)).read (r % 16)

/-- CAP (Table 4.1). -/
def nvmeCap (p : Port) (s : State) : Nat :=
  0xFFFF + 2 ^ 16 + 2 ^ 17 + 0x78 * 2 ^ 24 + 2 ^ 37 + 4 * 2 ^ 52 + (if cmbSizeMiB p s = 0 then 0 else 2 ^ 57)

/-- CC as the controller holds it. -/
def nvmeCc (c : Ctl) : Nat :=
  bit c.en + 16 * c.css + 128 * c.mps + 2048 * c.ams + 16384 * c.shn + 65536 * c.iosqes + 2 ^ 20 * c.iocqes

/-- CMBLOC and CMBSZ (R63): 0 without a CMB. -/
def nvmeCmb (p : Port) (s : State) : Nat × Nat :=
  let n := cmbSizeMiB p s
  if n = 0 then (0, 0) else (2, 1 + 4 + 8 + 16 + 2 * 256 + n * 4096)

/-- A dword of the NVMe registers of a port. -/
def readNvme (p : Port) (off : Nat) (s : State) : Nat :=
  let c := s.con p
  let hi := fun (v : Nat) => if off % 8 = 4 then v / 2 ^ 32 else v
  if off = 0 ∨ off = 4 then hi (nvmeCap p s)
  else if off = 8 then 0x00020000
  else if off = 0x14 then nvmeCc c
  else if off = 0x1C then bit (rdy p s) + 2 * bit c.cfs + 4 * c.shst
  else if off = 0x24 then c.asqs + 65536 * c.acqs
  else if off = 0x28 ∨ off = 0x2C then (if off = 0x28 then c.asq else c.asq / 2 ^ 32)
  else if off = 0x30 ∨ off = 0x34 then (if off = 0x30 then c.acq else c.acq / 2 ^ 32)
  else if off = 0x38 then (nvmeCmb p s).1
  else if off = 0x3C then (nvmeCmb p s).2
  else if off = 0x50 then 1 + 2 * bit (s.port p).cmse + (s.port p).cba % 2 ^ 32
  else if off = 0x54 then (s.port p).cba / 2 ^ 32
  else 0

/-- A dword of the host half of BAR0: NVMe registers, MSI-X table and PBA. -/
def readHostHalf (p : Port) (off : Nat) (s : State) : Nat :=
  if off < 0x1000 then readNvme p off s
  else if 0x8000 ≤ off ∧ off < 0x10000 then msixDword (s.port p) ((off - 0x8000) / 4)
  else if 0x10000 ≤ off ∧ off < 0x10100 then
    let first := (off - 0x10000) * 8
    bitsOf (((s.port p).pba.filter (fun v => decide (first ≤ v ∧ v < first + 32))).map (fun v => v - first))
  else 0

/-- A 32-bit register at a BAR0 offset; reserved offsets read 0. -/
def readReg (p : Port) (off : Nat) (s : State) : Nat :=
  if off < 0x80000 then readHostHalf p off s
  else if 0x89000 ≤ off ∧ off < 0x8D000 then readWin (off - 0x88000) s
  else ((fieldsAt off).map (fun f => readField f s * 2 ^ f.lo)).foldl (· + ·) 0

/-! Latched halves. -/

/-- Reading a low half latches the high half (chapters 6, 8, 11 and 13): the stored value of the high half's field. -/
def latch (off : Nat) (s : State) : State :=
  if off = Reg.MX_CSNLO.CSN.reg then setF Reg.MX_CSNHI.CSN (s.mx.csn / 2 ^ 32) s
  else if off = Reg.MX_CEILLO.CEIL.reg then setF Reg.MX_CEILHI.CEIL (s.nand.ceil / 2 ^ 32) s
  else if off = Reg.MX_JSEQLO.SEQ.reg then setF Reg.MX_JSEQHI.SEQ (s.mx.jseq / 2 ^ 32) s
  else if off = Reg.SP_SJSEQLO.SEQ.reg then setF Reg.SP_SJSEQHI.SEQ (s.sp.snapSeq / 2 ^ 32) s
  else if off = Reg.ME_LASTLO.ADDR.reg then setF Reg.ME_LASTHI.ADDR (s.me.last / 2 ^ 32) s
  else if off = Reg.TW_ACKLO.CSN.reg then setF Reg.TW_ACKHI.CSN (s.tw.ack / 2 ^ 32) s
  else s

/-- A register read at a BAR0 offset: the value goes out, and a low half latches its high half. -/
def readAt (offset : Nat) (s : State) : State :=
  let off := offset % 2 ^ 20 / 4 * 4
  emit (.reg off (readReg (offPort offset) off s)) (latch off s)

/-- A management core reads a device address (R28, R30, R31): the setup blocks stand at 0x1000_0000 plus their offset and the rest of that space
is reserved; an access that the Y9 does not perform is a synchronous bus error. Memory is no register, and a remote address goes out on a link. -/
def readDevice (addr : Nat) (s : State) : State :=
  match addrKind addr s with
  | .setup => if blockAddr addr then readAt (addr - 0x10000000) s else emit (.reg addr 0) s
  | .unmapped => emit (.busError addr) s
  | .remote => if (destOf addr s).isNone ∧ ¬ localOk addr 4 s then emit (.busError addr) s else s
  | .sram | .dram => s

/-- A register read. Reads are open to the host and to management (R49); a function that does not answer memory requests gives Unsupported
Request (R56). Management names a BAR0 offset, or beyond the two functions' BARs a device address. -/
def registerReadEff (who : Writer) (offset : Nat) (s : State) : State :=
  if ¬ setupOpen who s then s
  else if who = .host ∧ ¬ memOpen (offPort offset) s then
    (if portExists (offPort offset) s ∧ heAnswers s then urCpl (offPort offset) 0 s else s)
  else if who = .mgmt ∧ 2 ^ 21 ≤ offset then readDevice offset s
  else readAt offset s

/-- LATCHING_READ (R9, R52 and the 64-bit registers of MX, SP, ME and TW). -/
def execLatchingRead (who : Writer) (offset : Nat) (s : State) : Host.Outcome State Fault Refusal := .next (registerReadEff who offset s)

/-- SETUP_REGISTER_READ: vendor MI command C0h (R386, Table 15.5). -/
def execSetupRegisterRead (offset : Nat) (s : State) : Host.Outcome State Fault Refusal :=
  .next (miAnswer (fun s =>
    let off := offset % 2 ^ 20 / 4 * 4
    miOk [readReg (offPort offset) off s] (latch off s)) s)

end Sys2Proof.Machine
end

