-- ==== Sys2Proof/Machine/SetupBus.lean ====
section
/-! DEFINITION. A whole register write as the bus carries it: its plain fields, then the action of the register where it has one (rows 48 and 272 of
the table; R49, R418, R78, R386). -/
namespace Sys2Proof.Machine

/-- Whether a bit of a written value is set. -/
def actBit (f : Field) (value : Nat) : Bool := fieldBits f value != 0

/-- An action taken when its bit is written as 1. -/
def onBit (f : Field) (value : Nat) (act : State → State) (s : State) : State := if actBit f value then act s else s

/-- GEN_MODEREQ by TARGET (Table 2.8). -/
def busModereq (who : Writer) (value : Nat) (s : State) : State :=
  let key := BitVec.ofNat 16 (fieldBits Reg.GEN_MODEREQ.KEY value)
  match fieldBits Reg.GEN_MODEREQ.TARGET value with
  | 0xA => twoStep who key .diagnostic (decide (s.gen.mode = .service)) (fun t => { t with gen := { t.gen with diagPending := true } }) s
  | 0x4 => oneStep who key (decide (s.gen.mode = .diagnostic)) (fun t => enterModeEv 19 .service t) s
  | 0xB => oneStep who key (hostResetMode s.gen.mode) quarantineNow s
  | 0x3 => twoStep who key .provision (decide (s.gen.mode = .service ∧ s.ns = [])) (fun t => enterModeEv 22 .provision t) s
  | _ => if holds who s then modereqRefused who s else genErr Reg.GEN_ERR.OWNWR modereqOff who s

/-- GEN_OWNER: each action as its own row states (Table 2.9). The order of several actions of one write is the model's choice (log entry
105). -/
def busOwner (who : Writer) (value : Nat) (s : State) : State :=
  onBit Reg.GEN_OWNER.SEIZED value (genOwnerSeizedClearEff who)
    (onBit Reg.GEN_OWNER.SEIZE value (genOwnerSeizeEff who)
      (onBit Reg.GEN_OWNER.RELEASE value (genOwnerReleaseEff who) (onBit Reg.GEN_OWNER.CLAIM value (genOwnerClaimEff who) s)))

/-- GEN_RESET by KIND (Table 2.12). -/
def busReset (who : Writer) (value : Nat) (s : State) : State :=
  let key := BitVec.ofNat 16 (fieldBits Reg.GEN_RESET.KEY value)
  match fieldBits Reg.GEN_RESET.KIND value with
  | 1 => genResetY9Eff who key s
  | 2 => genResetManagementEff who key s
  | _ => s

/-- HE_WINCOMMIT (Table 3.18); port A acts before port B in one write (log entry 105). -/
def busWincommit (who : Writer) (value : Nat) (s : State) : State :=
  let copy := actBit Reg.HE_WINCOMMIT.COPY value
  onBit Reg.HE_WINCOMMIT.COMMIT_B value (wincommitEff .b who copy) (onBit Reg.HE_WINCOMMIT.COMMIT_A value (wincommitEff .a who copy) s)

/-- FF_CMD by OP (Table 15.18). -/
def busFfCmd (who : Writer) (value : Nat) (s : State) : State :=
  match fieldBits Reg.FF_CMD.OP value with
  | 1 => ffReadEff who s
  | 2 => ffProgramEff who s
  | 3 => ffEraseEff who (fieldBits Reg.FF_CMD.COUNT value) s
  | 4 => ffReadhdrEff who s
  | _ => ffCommand who (flagOn Reg.FF_STATUS.RANGE) s

/-- FI_ARM (Table 16.7); DISARM acts before KEY in one write (log entry 105). -/
def busFiArm (who : Writer) (value : Nat) (s : State) : State :=
  fiWrite who Reg.FI_ARM.KEY.reg (fun s =>
    fiKeyEff (BitVec.ofNat 16 (fieldBits Reg.FI_ARM.KEY value)) (onBit Reg.FI_ARM.DISARM value (fiDisarmed 0) s)) s

/-- The watchdog's KICK: management's alone, and ignored from a writer without the token (R49). -/
def busKick (who : Writer) (s : State) : State := if who = .host ∨ ¬ holds who s then s else { s with mg := { s.mg with wdogAt := now s } }

/-- The action of a register beside its plain fields. -/
def busAction (who : Writer) (off value : Nat) (s : State) : State :=
  if off = Reg.GEN_MODEREQ.KEY.reg then busModereq who value s
  else if off = Reg.GEN_RESET.KEY.reg then busReset who value s
  else if off = Reg.HE_WINCOMMIT.COPY.reg then busWincommit who value s
  else if off = Reg.HE_WINLOG.CLR.reg then onBit Reg.HE_WINLOG.CLR value (winlogClrEff who) s
  else if off = Reg.SP_DIEOUT.KEY.reg then
    spDieoutWriteEff who (fieldBits Reg.SP_DIEOUT.DIE value) (BitVec.ofNat 16 (fieldBits Reg.SP_DIEOUT.KEY value)) s
  else if off = Reg.SP_SUBSEL.INDEX.reg then spSubselWriteEff who (fieldBits Reg.SP_SUBSEL.INDEX value) s
  else if off = Reg.EC_MAXCORR.CLR.reg then onBit Reg.EC_MAXCORR.CLR value (ecMaxcorrClrEff who) s
  else if off = Reg.GF_NODE.REASSIGN.reg then onBit Reg.GF_NODE.REASSIGN value (gfNodeReassignEff who) s
  else if off = Reg.DG_AUDCTL.START.reg then onBit Reg.DG_AUDCTL.START value (auditStartEff who) s
  else if off = Reg.DG_SEC.ADVANCE.reg then onBit Reg.DG_SEC.ADVANCE value (dgSecAdvanceEff who) s
  else if off = Reg.MG_WDOG.KICK.reg then onBit Reg.MG_WDOG.KICK value (busKick who) s
  else if off = Reg.MG_LOGACK.SEQ.reg then mgLogackWriteEff who (BitVec.ofNat 32 value) s
  else if off = Reg.FF_CMD.OP.reg then busFfCmd who value s
  else s

/-- A write of one 32-bit register. GEN_OWNER answers either party; FI registers are arbitrated as a whole; any other register takes its plain
fields first. -/
def busWrite (who : Writer) (off value : Nat) (s : State) : State :=
  if ¬ setupOpen who s then s
  else if off = Reg.GEN_OWNER.CLAIM.reg then busOwner who value s
  else if off = Reg.FI_ARM.KEY.reg then busFiArm who value s
  else if off = Reg.FI_GF.EN.reg then fiMechWrite who Reg.FI_GF.EN 0 (gfLimit value) value s
  else if off = Reg.FI_FL.EN.reg then fiMechWrite who Reg.FI_FL.EN 1 (flLimit value s) value s
  else if off = Reg.FI_PCIE.EN.reg then fiMechWrite who Reg.FI_PCIE.EN 2 false value s
  else busAction who off value (writeReg who off value s)

/-- A register write at a BAR0 offset: a poisoned write by the host is discarded and sets POISRX (R78). The MSI-X table belongs to the
function. -/
def writeAt (who : Writer) (offset : Nat) (value : Word) (poisoned : Bool) (s : State) : State :=
  let p := offPort offset
  let off := offset % 2 ^ 20 / 4 * 4
  if who = .host ∧ ¬ memOpen p s then s
  else if poisoned ∧ who = .host then poisonRx p s
  else if off < 0x80000 then
    (if who = .host ∧ 0x8000 ≤ off ∧ off < 0x10000 then writeMsix p ((off - 0x8000) / 4) value.toNat s else s)
  else busWrite who off value.toNat s

/-- A management core writes a device address (R28, R30, R31): a setup block at 0x1000_0000 plus its offset; the rest of that space is reserved;
an access that the Y9 does not perform is a synchronous bus error. -/
def writeDevice (addr : Nat) (value : Word) (s : State) : State :=
  match addrKind addr s with
  | .setup => if blockAddr addr then writeAt .mgmt (addr - 0x10000000) value false s else s
  | .unmapped => emit (.busError addr) s
  | .remote => if (destOf addr s).isNone ∧ ¬ localOk addr 4 s then emit (.busError addr) s else s
  | .sram | .dram => s

/-- A register write: a BAR0 offset, or, by management beyond the two functions' BARs, a device address. -/
def registerWriteEff (who : Writer) (offset : Nat) (value : Word) (poisoned : Bool) (s : State) : State :=
  if who = .mgmt ∧ 2 ^ 21 ≤ offset then (if setupOpen who s then writeDevice offset value s else s)
  else writeAt who offset value poisoned s

/-- REGISTER_WRITE (R418, R49, R50, R78). -/
def execRegisterWrite (who : Writer) (offset : Nat) (value : Word) (poisoned : Bool) (s : State) : Host.Outcome State Fault Refusal :=
  .next (registerWriteEff who offset value poisoned s)

/-- SETUP_REGISTER_WRITE: vendor MI command C1h, a write by management (R386, Table 15.5). -/
def execSetupRegisterWrite (offset : Nat) (value : Word) (s : State) : Host.Outcome State Fault Refusal :=
  .next (miAnswer (fun s => miOk [] (registerWriteEff .mgmt offset value false s)) s)

end Sys2Proof.Machine
end

