-- ==== Sys2Proof/Machine/Dispatch.lean ====
section
/-! DEFINITION. The dispatch: one arm per command of the table, each a direct call of its meaning. -/
namespace Sys2Proof.Machine

/-- The effect of a command on everything but the queue. -/
def exec (i : Instr) (s : State) : Host.Outcome State Fault Refusal :=
  match i with
  | .porNAssert lowUs => Sys2Proof.Machine.execPorNAssert lowUs s
  | .porNDeassert bifur pwrHighUs => Sys2Proof.Machine.execPorNDeassert bifur pwrHighUs s
  | .pwrFailNAssert lowNs => Sys2Proof.Machine.execPwrFailNAssert lowNs s
  | .pwrFailNDeassert highUs => Sys2Proof.Machine.execPwrFailNDeassert highUs s
  | .drainFlushComplete => Sys2Proof.Machine.execDrainFlushComplete s
  | .twinFenceInAssert => Sys2Proof.Machine.execTwinFenceInAssert s
  | .twinFenceInDeassert => Sys2Proof.Machine.execTwinFenceInDeassert s
  | .twinHbInChange heldNs => Sys2Proof.Machine.execTwinHbInChange heldNs s
  | .tsyncInEdge => Sys2Proof.Machine.execTsyncInEdge s
  | .huGoodDeassert => Sys2Proof.Machine.execHuGoodDeassert s
  | .huGoodReassert => Sys2Proof.Machine.execHuGoodReassert s
  | .huSenseBelowVLow mv => Sys2Proof.Machine.execHuSenseBelowVLow mv s
  | .holdupVerificationStart v0mv => Sys2Proof.Machine.execHoldupVerificationStart v0mv s
  | .holdupVerificationEnd dvTenthMv => Sys2Proof.Machine.execHoldupVerificationEnd dvTenthMv s
  | .heRefclkLoss => Sys2Proof.Machine.execHeRefclkLoss s
  | .gfRefclkLoss => Sys2Proof.Machine.execGfRefclkLoss s
  | .mgXtalLoss what => Sys2Proof.Machine.execMgXtalLoss what s
  | .dramChannelTrainingLoss channel => Sys2Proof.Machine.execDramChannelTrainingLoss channel s
  | .bootImageVerify slot1 slot2 => Sys2Proof.Machine.execBootImageVerify slot1 slot2 s
  | .hostIslandRelease => Sys2Proof.Machine.execHostIslandRelease s
  | .dramTraining sizeGiB trained hpprFails => Sys2Proof.Machine.execDramTraining sizeGiB trained hpprFails s
  | .channelTraining channel failedTwice dies => Sys2Proof.Machine.execChannelTraining channel failedTwice dies s
  | .journalRootRead rootCopyBad anchorBad snapshotCopyBad peerSnapshot => Sys2Proof.Machine.execJournalRootRead rootCopyBad anchorBad snapshotCopyBad peerSnapshot s
  | .residentMapLoad => Sys2Proof.Machine.execResidentMapLoad s
  | .mapRecovery unreadableSegs unreadable replayMs scanMs => Sys2Proof.Machine.execMapRecovery unreadableSegs unreadable replayMs scanMs s
  | .halfErasedBlockRedo die block blankPass1 blankPass2 => Sys2Proof.Machine.execHalfErasedBlockRedo die block blankPass1 blankPass2 s
  | .openStripeCompletion unreadable => Sys2Proof.Machine.execOpenStripeCompletion unreadable s
  | .startupComplete durationMs => Sys2Proof.Machine.execStartupComplete durationMs s
  | .genResetY9 who key => Sys2Proof.Machine.execGenResetY9 who key s
  | .genResetManagement who key => Sys2Proof.Machine.execGenResetManagement who key s
  | .watchdogExpiry => Sys2Proof.Machine.execWatchdogExpiry s
  | .lockstepMismatch => Sys2Proof.Machine.execLockstepMismatch s
  | .conventionalReset cause => Sys2Proof.Machine.execConventionalReset cause s
  | .functionLevelReset port => Sys2Proof.Machine.execFunctionLevelReset port s
  | .ccEnSet port iosqes iocqes mps ams css asqs acqs asq acq => Sys2Proof.Machine.execCcEnSet port iosqes iocqes mps ams css asqs acqs asq acq s
  | .ccEnClear port => Sys2Proof.Machine.execCcEnClear port s
  | .shutdownNotification port shn => Sys2Proof.Machine.execShutdownNotification port shn s
  | .genModereqDiagnostic who key => Sys2Proof.Machine.execGenModereqDiagnostic who key s
  | .diagnosticEntry => Sys2Proof.Machine.execDiagnosticEntry s
  | .genModereqService who key => Sys2Proof.Machine.execGenModereqService who key s
  | .genModereqQuarantine who key => Sys2Proof.Machine.execGenModereqQuarantine who key s
  | .genModereqProvision who key => Sys2Proof.Machine.execGenModereqProvision who key s
  | .modereqKeyTimeout => Sys2Proof.Machine.execModereqKeyTimeout s
  | .provisioningCommit who => Sys2Proof.Machine.execProvisioningCommit who s
  | .genOwnerClaim who => Sys2Proof.Machine.execGenOwnerClaim who s
  | .genOwnerRelease who => Sys2Proof.Machine.execGenOwnerRelease who s
  | .genOwnerSeize who => Sys2Proof.Machine.execGenOwnerSeize who s
  | .genOwnerSeizedClear who => Sys2Proof.Machine.execGenOwnerSeizedClear who s
  | .registerWrite who offset value poisoned => Sys2Proof.Machine.execRegisterWrite who offset value poisoned s
  | .latchingRead who offset => Sys2Proof.Machine.execLatchingRead who offset s
  | .stagedCommitPoint point => Sys2Proof.Machine.execStagedCommitPoint point s
  | .bar0BadAccess port isRead offset len => Sys2Proof.Machine.execBar0BadAccess port isRead offset len s
  | .configBarWrite port dword value => Sys2Proof.Machine.execConfigBarWrite port dword value s
  | .sqTailDoorbell port qid value poisoned => Sys2Proof.Machine.execSqTailDoorbell port qid value poisoned s
  | .cqHeadDoorbell port qid value poisoned => Sys2Proof.Machine.execCqHeadDoorbell port qid value poisoned s
  | .sqeFetch port => Sys2Proof.Machine.execSqeFetch port s
  | .pollRound port => Sys2Proof.Machine.execPollRound port s
  | .pollCompletion port tails heads => Sys2Proof.Machine.execPollCompletion port tails heads s
  | .pollStop port idleUs finalTails => Sys2Proof.Machine.execPollStop port idleUs finalTails s
  | .cmbMmioRead port offset len tag => Sys2Proof.Machine.execCmbMmioRead port offset len tag s
  | .cmbMmioWrite port offset data ep => Sys2Proof.Machine.execCmbMmioWrite port offset data ep s
  | .windowTlpRead port offset len rid tag => Sys2Proof.Machine.execWindowTlpRead port offset len rid tag s
  | .windowTlpWrite port offset data rid ep => Sys2Proof.Machine.execWindowTlpWrite port offset data rid ep s
  | .windowWriteAck port dest => Sys2Proof.Machine.execWindowWriteAck port dest s
  | .unsupportedTlp port tag => Sys2Proof.Machine.execUnsupportedTlp port tag s
  | .malformedTlp port => Sys2Proof.Machine.execMalformedTlp port s
  | .heWincommitA who copy => Sys2Proof.Machine.execHeWincommitA who copy s
  | .heWincommitB who copy => Sys2Proof.Machine.execHeWincommitB who copy s
  | .windowCopyDone port => Sys2Proof.Machine.execWindowCopyDone port s
  | .heWinlogClr who => Sys2Proof.Machine.execHeWinlogClr who s
  | .hostReadCompletion port tag poisoned lbas slowNs => Sys2Proof.Machine.execHostReadCompletion port tag poisoned lbas slowNs s
  | .hostReadTimeout port tag => Sys2Proof.Machine.execHostReadTimeout port tag s
  | .linkTrained port rate width flit => Sys2Proof.Machine.execLinkTrained port rate width flit s
  | .linkRecoveryEntry port => Sys2Proof.Machine.execLinkRecoveryEntry port s
  | .linkRecoveryExit port durationUs => Sys2Proof.Machine.execLinkRecoveryExit port durationUs s
  | .surpriseDown port => Sys2Proof.Machine.execSurpriseDown port s
  | .l0pWidthChange port width durationNs => Sys2Proof.Machine.execL0pWidthChange port width durationNs s
  | .aspmL1Entry port idleUs l12 => Sys2Proof.Machine.execAspmL1Entry port idleUs l12 s
  | .d3hotEntry port => Sys2Proof.Machine.execD3hotEntry port s
  | .doeRequest port vendor objType dwords => Sys2Proof.Machine.execDoeRequest port vendor objType dwords s
  | .doeAbort port => Sys2Proof.Machine.execDoeAbort port s
  | .deleteIoSq h qid => Sys2Proof.Machine.execDeleteIoSq h qid s
  | .createIoSq h qid size cqid qprio base contiguous => Sys2Proof.Machine.execCreateIoSq h qid size cqid qprio base contiguous s
  | .getLogPage h lid offset numDwords rae => Sys2Proof.Machine.execGetLogPage h lid offset numDwords rae s
  | .deleteIoCq h qid => Sys2Proof.Machine.execDeleteIoCq h qid s
  | .createIoCq h qid size vector ien base contiguous => Sys2Proof.Machine.execCreateIoCq h qid size vector ien base contiguous s
  | .identify h cns cntid => Sys2Proof.Machine.execIdentify h cns cntid s
  | .abort h sqid cid => Sys2Proof.Machine.execAbort h sqid cid s
  | .setFeaturesArbitration h sv dw11 => Sys2Proof.Machine.execSetFeaturesArbitration h sv dw11 s
  | .setFeaturesPowerManagement h sv ps wh => Sys2Proof.Machine.execSetFeaturesPowerManagement h sv ps wh s
  | .powerStateEntry done => Sys2Proof.Machine.execPowerStateEntry done s
  | .setFeaturesTemperatureThreshold h sv tmpsel thsel kelvin => Sys2Proof.Machine.execSetFeaturesTemperatureThreshold h sv tmpsel thsel kelvin s
  | .setFeaturesVolatileWriteCache h sv wce => Sys2Proof.Machine.execSetFeaturesVolatileWriteCache h sv wce s
  | .setFeaturesNumberOfQueues h sv nsqr ncqr => Sys2Proof.Machine.execSetFeaturesNumberOfQueues h sv nsqr ncqr s
  | .setFeaturesInterruptCoalescing h sv thr time => Sys2Proof.Machine.execSetFeaturesInterruptCoalescing h sv thr time s
  | .setFeaturesInterruptVectorConfig h sv vector disable => Sys2Proof.Machine.execSetFeaturesInterruptVectorConfig h sv vector disable s
  | .setFeaturesAsyncEventConfig h sv dw11 => Sys2Proof.Machine.execSetFeaturesAsyncEventConfig h sv dw11 s
  | .setFeaturesLatencyClassTable h sv mask reservedMask entries => Sys2Proof.Machine.execSetFeaturesLatencyClassTable h sv mask reservedMask entries s
  | .setFeaturesQueueLatencyBinding h sv sqid cls => Sys2Proof.Machine.execSetFeaturesQueueLatencyBinding h sv sqid cls s
  | .setFeaturesWriteCacheProtection h sv => Sys2Proof.Machine.execSetFeaturesWriteCacheProtection h sv s
  | .getFeatures h fid sel dw11 => Sys2Proof.Machine.execGetFeatures h fid sel dw11 s
  | .asynchronousEventRequest h => Sys2Proof.Machine.execAsynchronousEventRequest h s
  | .namespaceManagementCreate h d => Sys2Proof.Machine.execNamespaceManagementCreate h d s
  | .namespaceManagementDelete h => Sys2Proof.Machine.execNamespaceManagementDelete h s
  | .namespaceAttachment h attach ctrls => Sys2Proof.Machine.execNamespaceAttachment h attach ctrls s
  | .firmwareImageDownload h offset length => Sys2Proof.Machine.execFirmwareImageDownload h offset length s
  | .firmwareCommitWrite h slot img => Sys2Proof.Machine.execFirmwareCommitWrite h slot img s
  | .firmwareCommitWriteSelect h slot img => Sys2Proof.Machine.execFirmwareCommitWriteSelect h slot img s
  | .firmwareCommitSelect h slot img => Sys2Proof.Machine.execFirmwareCommitSelect h slot img s
  | .firmwareCommitActivate h slot img => Sys2Proof.Machine.execFirmwareCommitActivate h slot img s
  | .deviceSelfTest h code => Sys2Proof.Machine.execDeviceSelfTest h code s
  | .directiveSend h dtype doper dspec enable tdtype => Sys2Proof.Machine.execDirectiveSend h dtype doper dspec enable tdtype s
  | .directiveReceive h dtype doper dspec nsr => Sys2Proof.Machine.execDirectiveReceive h dtype doper dspec nsr s
  | .doorbellBufferConfig h prp1 prp2 => Sys2Proof.Machine.execDoorbellBufferConfig h prp1 prp2 s
  | .formatNvm h lbaf mset pi pil ses => Sys2Proof.Machine.execFormatNvm h lbaf mset pi pil ses s
  | .formatNvmCryptoErase h lbaf mset pi pil => Sys2Proof.Machine.execFormatNvmCryptoErase h lbaf mset pi pil s
  | .sanitizeBlockErase h noDealloc => Sys2Proof.Machine.execSanitizeBlockErase h noDealloc s
  | .sanitizeCryptoErase h noDealloc => Sys2Proof.Machine.execSanitizeCryptoErase h noDealloc s
  | .twinControlPair h peer idDigest peerReachable => Sys2Proof.Machine.execTwinControlPair h peer idDigest peerReachable s
  | .twinControlSwitch h => Sys2Proof.Machine.execTwinControlSwitch h s
  | .twinControlRejoin h peer idDigest returnerCsn => Sys2Proof.Machine.execTwinControlRejoin h peer idDigest returnerCsn s
  | .twinControlUnpair h => Sys2Proof.Machine.execTwinControlUnpair h s
  | .twinControlRelease h => Sys2Proof.Machine.execTwinControlRelease h s
  | .migrationControlArm h peer idDigest => Sys2Proof.Machine.execMigrationControlArm h peer idDigest s
  | .migrationControlStart h auto peer idDigest nsids => Sys2Proof.Machine.execMigrationControlStart h auto peer idDigest nsids s
  | .migrationControlSeal h => Sys2Proof.Machine.execMigrationControlSeal h s
  | .migrationControlAbort h => Sys2Proof.Machine.execMigrationControlAbort h s
  | .migrationControlStatus h => Sys2Proof.Machine.execMigrationControlStatus h s
  | .migrationControlResolve h cutOver => Sys2Proof.Machine.execMigrationControlResolve h cutOver s
  | .sealDevice h perm => Sys2Proof.Machine.execSealDevice h perm s
  | .unsealDevice h => Sys2Proof.Machine.execUnsealDevice h s
  | .sealNamespace h perm => Sys2Proof.Machine.execSealNamespace h perm s
  | .unsealNamespace h => Sys2Proof.Machine.execUnsealNamespace h s
  | .read h slba nlb fua pr => Sys2Proof.Machine.execRead h slba nlb fua pr s
  | .write h slba nlb fua pr stream => Sys2Proof.Machine.execWrite h slba nlb fua pr stream s
  | .flush h => Sys2Proof.Machine.execFlush h s
  | .writeUncorrectable h slba nlb => Sys2Proof.Machine.execWriteUncorrectable h slba nlb s
  | .writeZeroes h slba nlb fua deac pr => Sys2Proof.Machine.execWriteZeroes h slba nlb fua deac pr s
  | .datasetManagement h ad ranges => Sys2Proof.Machine.execDatasetManagement h ad ranges s
  | .verify h slba nlb pr => Sys2Proof.Machine.execVerify h slba nlb pr s
  | .copy h sdlba format ranges fua prr prw => Sys2Proof.Machine.execCopy h sdlba format ranges fua prr prw s
  | .fixityDigest h slba nlb alg => Sys2Proof.Machine.execFixityDigest h slba nlb alg s
  | .mapPageLoaded cmd => Sys2Proof.Machine.execMapPageLoaded cmd s
  | .lc7AdmissionRetry cmd => Sys2Proof.Machine.execLc7AdmissionRetry cmd s
  | .dcForwardDone cmd => Sys2Proof.Machine.execDcForwardDone cmd s
  | .completionPost cmd => Sys2Proof.Machine.execCompletionPost cmd s
  | .partialGrainMerge stidx unreadableCause => Sys2Proof.Machine.execPartialGrainMerge stidx unreadableCause s
  | .wordlineProgramStart barrel member => Sys2Proof.Machine.execWordlineProgramStart barrel member s
  | .programVerifyDone die block page pass => Sys2Proof.Machine.execProgramVerifyDone die block page pass s
  | .gatherTimeout vintage => Sys2Proof.Machine.execGatherTimeout vintage s
  | .barrelOpen vintage group => Sys2Proof.Machine.execBarrelOpen vintage group s
  | .readRoundDone cmd lba result => Sys2Proof.Machine.execReadRoundDone cmd lba result s
  | .readReadyTimeout die afterRetrain cmd => Sys2Proof.Machine.execReadReadyTimeout die afterRetrain cmd s
  | .spDieoutWrite who die key => Sys2Proof.Machine.execSpDieoutWrite who die key s
  | .fretTick => Sys2Proof.Machine.execFretTick s
  | .suspendRequest die => Sys2Proof.Machine.execSuspendRequest die s
  | .vatTurnEnd group => Sys2Proof.Machine.execVatTurnEnd group s
  | .groupWordlineBoundary group => Sys2Proof.Machine.execGroupWordlineBoundary group s
  | .journalFlush => Sys2Proof.Machine.execJournalFlush s
  | .journalSegmentDurable copyFailed => Sys2Proof.Machine.execJournalSegmentDurable copyFailed s
  | .checkpointSweepStart => Sys2Proof.Machine.execCheckpointSweepStart s
  | .sweepTimeout => Sys2Proof.Machine.execSweepTimeout s
  | .sweepRootDurable copyFailed => Sys2Proof.Machine.execSweepRootDurable copyFailed s
  | .mapLineRestored nsid grain readable => Sys2Proof.Machine.execMapLineRestored nsid grain readable s
  | .rackingStart unreadable => Sys2Proof.Machine.execRackingStart unreadable s
  | .rackdoneDurable barrel => Sys2Proof.Machine.execRackdoneDurable barrel s
  | .eraseintDurable die block => Sys2Proof.Machine.execEraseintDurable die block s
  | .eraseDone die block pass => Sys2Proof.Machine.execEraseDone die block pass s
  | .bottlingStart die slot unreadable => Sys2Proof.Machine.execBottlingStart die slot unreadable s
  | .vatSlotErase die slot => Sys2Proof.Machine.execVatSlotErase die slot s
  | .ageRefresh barrel unreadable => Sys2Proof.Machine.execAgeRefresh barrel unreadable s
  | .blockRefresh die block unreadable => Sys2Proof.Machine.execBlockRefresh die block unreadable s
  | .v4Reclaim => Sys2Proof.Machine.execV4Reclaim s
  | .snapshotWrite => Sys2Proof.Machine.execSnapshotWrite s
  | .snapshotDurable copyFailed => Sys2Proof.Machine.execSnapshotDurable copyFailed s
  | .rebuildStart die => Sys2Proof.Machine.execRebuildStart die s
  | .rebuildWordlineDone die row wordline last lostGrains => Sys2Proof.Machine.execRebuildWordlineDone die row wordline last lostGrains s
  | .groupDissolution group => Sys2Proof.Machine.execGroupDissolution group s
  | .sequencerFault cluster seq cause tookTenthUs => Sys2Proof.Machine.execSequencerFault cluster seq cause tookTenthUs s
  | .yieldTimeout cluster seq tookTenthUs => Sys2Proof.Machine.execYieldTimeout cluster seq tookTenthUs s
  | .channelRetrain channel tempDelta => Sys2Proof.Machine.execChannelRetrain channel tempDelta s
  | .retrainStep channel failedTwice idChanged => Sys2Proof.Machine.execRetrainStep channel failedTwice idChanged s
  | .patchSetLoad cluster set atStartup => Sys2Proof.Machine.execPatchSetLoad cluster set atStartup s
  | .patchHandoff cluster phy => Sys2Proof.Machine.execPatchHandoff cluster phy s
  | .bufferAllocate owner n vc0 => Sys2Proof.Machine.execBufferAllocate owner n vc0 s
  | .bufferFree index owner => Sys2Proof.Machine.execBufferFree index owner s
  | .poolRebuildDone pool => Sys2Proof.Machine.execPoolRebuildDone pool s
  | .lineCheckFailure address kind => Sys2Proof.Machine.execLineCheckFailure address kind s
  | .staleGenerationAccess address index generation isWrite => Sys2Proof.Machine.execStaleGenerationAccess address index generation isWrite s
  | .mergeEntryTimeout meport => Sys2Proof.Machine.execMergeEntryTimeout meport s
  | .gareoLinkTrained link lanes reversed peerUid peerNode peerLink => Sys2Proof.Machine.execGareoLinkTrained link lanes reversed peerUid peerNode peerLink s
  | .flitReceived link bytes => Sys2Proof.Machine.execFlitReceived link bytes s
  | .linkSilenceTimeout link => Sys2Proof.Machine.execLinkSilenceTimeout link s
  | .linkRetrainDone link lanes => Sys2Proof.Machine.execLinkRetrainDone link lanes s
  | .linkRetryTimer link => Sys2Proof.Machine.execLinkRetryTimer link s
  | .ackTimer vc src => Sys2Proof.Machine.execAckTimer vc src s
  | .frameResendTimeout vc dst xseq => Sys2Proof.Machine.execFrameResendTimeout vc dst xseq s
  | .hello link uid candUid candDist epoch pref => Sys2Proof.Machine.execHello link uid candUid candDist epoch pref s
  | .discoveryQuietTimeout => Sys2Proof.Machine.execDiscoveryQuietTimeout s
  | .lsr uid node pref links => Sys2Proof.Machine.execLsr uid node pref links s
  | .table epoch first entries => Sys2Proof.Machine.execTable epoch first entries s
  | .epoch num atNs => Sys2Proof.Machine.execEpoch num atNs s
  | .epochApply => Sys2Proof.Machine.execEpochApply s
  | .resync vc src nextXseq => Sys2Proof.Machine.execResync vc src nextXseq s
  | .ack vc src xseq => Sys2Proof.Machine.execAck vc src xseq s
  | .nak vc src xseq cause => Sys2Proof.Machine.execNak vc src xseq cause s
  | .timeExchangeTimer => Sys2Proof.Machine.execTimeExchangeTimer s
  | .time t1 t2 t3 t4 masterStep => Sys2Proof.Machine.execTime t1 t2 t3 t4 masterStep s
  | .coordinatorHeartbeat answered => Sys2Proof.Machine.execCoordinatorHeartbeat answered s
  | .coordinatorLoss => Sys2Proof.Machine.execCoordinatorLoss s
  | .gfNodeReassign who => Sys2Proof.Machine.execGfNodeReassign who s
  | .rdreq h offset len => Sys2Proof.Machine.execRdreq h offset len s
  | .rdresp h data => Sys2Proof.Machine.execRdresp h data s
  | .writeFrame h offset data => Sys2Proof.Machine.execWriteFrame h offset data s
  | .mgmt h spdm descs => Sys2Proof.Machine.execMgmt h spdm descs s
  | .mirrorGranules g => Sys2Proof.Machine.execMirrorGranules g s
  | .mirrorCommitRecord csn deltas => Sys2Proof.Machine.execMirrorCommitRecord csn deltas s
  | .mirrorNamespaceOperation op => Sys2Proof.Machine.execMirrorNamespaceOperation op s
  | .mirrorLatencyClassTable entries => Sys2Proof.Machine.execMirrorLatencyClassTable entries s
  | .mirrorXtsKey nsid wrapped => Sys2Proof.Machine.execMirrorXtsKey nsid wrapped s
  | .mirrorSnapshot snap => Sys2Proof.Machine.execMirrorSnapshot snap s
  | .mirrorRepair isAnswer g lostCsn => Sys2Proof.Machine.execMirrorRepair isAnswer g lostCsn s
  | .hbSendTimer => Sys2Proof.Machine.execHbSendTimer s
  | .hb seq peerState csn => Sys2Proof.Machine.execHb seq peerState csn s
  | .hbPathLost pathB sinceUs => Sys2Proof.Machine.execHbPathLost pathB sinceUs s
  | .drainNotice csn => Sys2Proof.Machine.execDrainNotice csn s
  | .soloEntry cmd => Sys2Proof.Machine.execSoloEntry cmd s
  | .soloExit goodMs => Sys2Proof.Machine.execSoloExit goodMs s
  | .pairreq src action idOk nsCount => Sys2Proof.Machine.execPairreq src action idOk nsCount s
  | .pairack accepted identityOk => Sys2Proof.Machine.execPairack accepted identityOk s
  | .switch csn => Sys2Proof.Machine.execSwitch csn s
  | .switchack csn => Sys2Proof.Machine.execSwitchack csn s
  | .seedSegmentSend nsid seg grains => Sys2Proof.Machine.execSeedSegmentSend nsid seg grains s
  | .migstart src idOk descs => Sys2Proof.Machine.execMigstart src idOk descs s
  | .migack result => Sys2Proof.Machine.execMigack result s
  | .migrationSegmentSend nsid seg => Sys2Proof.Machine.execMigrationSegmentSend nsid seg s
  | .migseg g => Sys2Proof.Machine.execMigseg g s
  | .segdig nsid seg pass theirs flip => Sys2Proof.Machine.execSegdig nsid seg pass theirs flip s
  | .segres nsid seg pass result => Sys2Proof.Machine.execSegres nsid seg pass result s
  | .dirtyPassEnd => Sys2Proof.Machine.execDirtyPassEnd s
  | .cutover nsid sealCsn nguid eui last => Sys2Proof.Machine.execCutover nsid sealCsn nguid eui last s
  | .cutack count => Sys2Proof.Machine.execCutack count s
  | .migrationAbortMessage cause => Sys2Proof.Machine.execMigrationAbortMessage cause s
  | .migrationRouteTimeout downMs => Sys2Proof.Machine.execMigrationRouteTimeout downMs s
  | .stop vc stream => Sys2Proof.Machine.execStop vc stream s
  | .digestContextOpen p => Sys2Proof.Machine.execDigestContextOpen p s
  | .digestSaveDone ctx unwrapOk => Sys2Proof.Machine.execDigestSaveDone ctx unwrapOk s
  | .digestBlock ctx block poisoned last => Sys2Proof.Machine.execDigestBlock ctx block poisoned last s
  | .auditStart who => Sys2Proof.Machine.execAuditStart who s
  | .auditPeriodTimer => Sys2Proof.Machine.execAuditPeriodTimer s
  | .dgSecAdvance who => Sys2Proof.Machine.execDgSecAdvance who s
  | .rngHealthFailure => Sys2Proof.Machine.execRngHealthFailure s
  | .ecMaxcorrClr who => Sys2Proof.Machine.execEcMaxcorrClr who s
  | .spSubselWrite who index => Sys2Proof.Machine.execSpSubselWrite who index s
  | .sensorSample x => Sys2Proof.Machine.execSensorSample x s
  | .eventLogFlush count => Sys2Proof.Machine.execEventLogFlush count s
  | .timeMarkWrite => Sys2Proof.Machine.execTimeMarkWrite s
  | .mgWdogKick who => Sys2Proof.Machine.execMgWdogKick who s
  | .mgLogackWrite who seq => Sys2Proof.Machine.execMgLogackWrite who seq s
  | .ffRead who => Sys2Proof.Machine.execFfRead who s
  | .ffProgram who => Sys2Proof.Machine.execFfProgram who s
  | .ffErase who count => Sys2Proof.Machine.execFfErase who count s
  | .ffReadhdr who => Sys2Proof.Machine.execFfReadhdr who s
  | .ffOperationDone ok => Sys2Proof.Machine.execFfOperationDone ok s
  | .readNvmeMiDataStructure dtyp portid cntlid => Sys2Proof.Machine.execReadNvmeMiDataStructure dtyp portid cntlid s
  | .nvmSubsystemHealthStatusPoll clear => Sys2Proof.Machine.execNvmSubsystemHealthStatusPoll clear s
  | .controllerHealthStatusPoll startCtrl maxCount clear => Sys2Proof.Machine.execControllerHealthStatusPoll startCtrl maxCount clear s
  | .configurationGet cfg transport => Sys2Proof.Machine.execConfigurationGet cfg transport s
  | .configurationSet cfg transport value => Sys2Proof.Machine.execConfigurationSet cfg transport value s
  | .vpdRead offset len => Sys2Proof.Machine.execVpdRead offset len s
  | .miTunnelledAdminCommand port opcode nsid cdw img => Sys2Proof.Machine.execMiTunnelledAdminCommand port opcode nsid cdw img s
  | .setupRegisterRead offset => Sys2Proof.Machine.execSetupRegisterRead offset s
  | .setupRegisterWrite offset value => Sys2Proof.Machine.execSetupRegisterWrite offset value s
  | .eventLogRead firstSeq count area => Sys2Proof.Machine.execEventLogRead firstSeq count area s
  | .eventLogAcknowledge seq => Sys2Proof.Machine.execEventLogAcknowledge seq s
  | .getVersion transport => Sys2Proof.Machine.execGetVersion transport s
  | .getCapabilities transport => Sys2Proof.Machine.execGetCapabilities transport s
  | .negotiateAlgorithms transport asym hash dhe aead => Sys2Proof.Machine.execNegotiateAlgorithms transport asym hash dhe aead s
  | .getDigests transport => Sys2Proof.Machine.execGetDigests transport s
  | .getCertificate transport slot offset len => Sys2Proof.Machine.execGetCertificate transport slot offset len s
  | .setCertificate transport slot chain leafIsIdentity => Sys2Proof.Machine.execSetCertificate transport slot chain leafIsIdentity s
  | .challenge transport slot nonce => Sys2Proof.Machine.execChallenge transport slot nonce s
  | .getMeasurements transport index signed nonce => Sys2Proof.Machine.execGetMeasurements transport index signed nonce s
  | .keyExchange transport session mutualAuth => Sys2Proof.Machine.execKeyExchange transport session mutualAuth s
  | .finish transport session peerIdOk => Sys2Proof.Machine.execFinish transport session peerIdOk s
  | .endSession transport session => Sys2Proof.Machine.execEndSession transport session s
  | .policyCoreFault unit => Sys2Proof.Machine.execPolicyCoreFault unit s
  | .fiArmKey who key => Sys2Proof.Machine.execFiArmKey who key s
  | .fiDisarm who => Sys2Proof.Machine.execFiDisarm who s
  | .fiArmTimeout => Sys2Proof.Machine.execFiArmTimeout s
  | .fiGfEn who value => Sys2Proof.Machine.execFiGfEn who value s
  | .fiFlEn who value => Sys2Proof.Machine.execFiFlEn who value s
  | .fiPcieEn who value => Sys2Proof.Machine.execFiPcieEn who value s
  | .fiKeySequenceTimeout => Sys2Proof.Machine.execFiKeySequenceTimeout s
  | .rngHealthRestored => Sys2Proof.Machine.execRngHealthRestored s
  | .managementResetEnd => Sys2Proof.Machine.execManagementResetEnd s
  | .configRegisterWrite port reg value => Sys2Proof.Machine.execConfigRegisterWrite port reg value s
  | .aspmL1Exit port => Sys2Proof.Machine.execAspmL1Exit port s
  | .cmbmscWrite port cmse cba => Sys2Proof.Machine.execCmbmscWrite port cmse cba s
  | .deviceSelfTestComplete result => Sys2Proof.Machine.execDeviceSelfTestComplete result s
  | .interruptCoalescingTimeout port vector => Sys2Proof.Machine.execInterruptCoalescingTimeout port vector s

end Sys2Proof.Machine
end

