-- ==== Sys2Proof/Safety.lean ====
section
/-! DEFINITION. The terms the statements use: what a command leaves unchanged, the canonical form of memory, and runs of steps. -/
namespace Sys2Proof.Machine

/-- A place of the state that a frame names: a field of State, one field of a setup register (`reg`), every setup register of a
range of BAR0 offsets (`win`), or every setup register (`regs`). -/
inductive Fld where
  | pending
  | freeCtr
  | out
  | eff
  | time
  | pins
  | gen
  | he
  | ctl
  | sh
  | defFaults
  | lost
  | cmds
  | nextCmd
  | fs
  | mx
  | ns
  | nsWait
  | mm
  | sp
  | cs
  | bp
  | me
  | gf
  | tw
  | dg
  | mg
  | fi
  | nand
  | ff
  | prov
  | fuses
  | reg (f : Field)
  | win (lo hi : Nat)
  | regs
  deriving DecidableEq, Repr

/-- A number for each place, by which places are compared. -/
def Fld.code (f : Fld) : Nat := match f with
  | .pending => 0
  | .freeCtr => 1
  | .out => 2
  | .eff => 3
  | .time => 4
  | .pins => 5
  | .gen => 6
  | .he => 7
  | .ctl => 8
  | .sh => 9
  | .defFaults => 10
  | .lost => 11
  | .cmds => 12
  | .nextCmd => 13
  | .fs => 14
  | .mx => 15
  | .ns => 16
  | .nsWait => 17
  | .mm => 18
  | .sp => 19
  | .cs => 20
  | .bp => 21
  | .me => 22
  | .gf => 23
  | .tw => 24
  | .dg => 25
  | .mg => 26
  | .fi => 27
  | .nand => 28
  | .ff => 29
  | .prov => 30
  | .fuses => 31
  | .reg f => 64 + f.key
  | .win _ _ => 63
  | .regs => 62

/-- Naming `g` as changed allows a change of `f`. -/
def Fld.covers (g f : Fld) : Bool := match g, f with
  | .regs, .reg _ => true
  | .regs, .win _ _ => true
  | .win a b, .win c d => decide (a ≤ c) && decide (d ≤ b)
  | .win a b, .reg x => decide (a ≤ x.key / 8) && decide (x.key / 8 < b)
  | g, f => g.code == f.code

/-- A list of places allows a change of `f`. -/
def covered (w : List Fld) (f : Fld) : Bool := w.any (fun g => g.covers f)

/-- Every place that `v` allows, `w` allows. -/
def Within (v w : List Fld) : Prop := ∀ f, covered v f = true → covered w f = true

/-- A check of `Within` that walks two lists in the order of their places once. -/
def within (w v : List Fld) : Bool := match w with
  | [] => v.isEmpty
  | b :: t => within t (v.dropWhile b.covers)

/-- A place holds the same in two states. Registers together hold what each holds, which is a place of its own. -/
def same (f : Fld) (s t : State) : Prop := match f with
  | .pending => t.pending = s.pending
  | .freeCtr => t.freeCtr = s.freeCtr
  | .out => t.out = s.out
  | .eff => t.eff = s.eff
  | .time => t.time = s.time
  | .pins => t.pins = s.pins
  | .gen => t.gen = s.gen
  | .he => t.he = s.he
  | .ctl => t.ctl = s.ctl
  | .sh => t.sh = s.sh
  | .defFaults => t.defFaults = s.defFaults
  | .lost => t.lost = s.lost
  | .cmds => t.cmds = s.cmds
  | .nextCmd => t.nextCmd = s.nextCmd
  | .fs => t.fs = s.fs
  | .mx => t.mx = s.mx
  | .ns => t.ns = s.ns
  | .nsWait => t.nsWait = s.nsWait
  | .mm => t.mm = s.mm
  | .sp => t.sp = s.sp
  | .cs => t.cs = s.cs
  | .bp => t.bp = s.bp
  | .me => t.me = s.me
  | .gf => t.gf = s.gf
  | .tw => t.tw = s.tw
  | .dg => t.dg = s.dg
  | .mg => t.mg = s.mg
  | .fi => t.fi = s.fi
  | .nand => t.nand = s.nand
  | .ff => t.ff = s.ff
  | .prov => t.prov = s.prov
  | .fuses => t.fuses = s.fuses
  | .reg f => getF f t = getF f s
  | .win _ _ => True
  | .regs => True

/-- `t` differs from `s` at most in the places of `w`: every other field of the state, and every other field of every setup
register, is unchanged. -/
structure Only (w : List Fld) (s t : State) : Prop where
  /-- A place that `w` does not name is the same. -/
  keeps : ∀ f, covered w f = false → same f s t

/-- What posting a completion may change: what was sent, the ports, the controllers, the class counters of FS and the count
of held completions (R22, R85, R145). -/
def posting : List Fld := [.out, .he, .ctl, .fs, .reg Reg.QE_CQFULL.COUNT]

/-- What an event-log entry may change (R372, R375). -/
def logging : List Fld := [.mg, .reg Reg.MG_LOGSTAT.DROPPED, .reg Reg.MG_ERR.LOGDROP]

/-- What an allocation that BP revokes may change (R287). -/
def revoking : List Fld := [.bp, .reg Reg.BP_ERRBUF.INDEX, .reg Reg.BP_ERRBUF.OWNER, .reg Reg.BP_ERRBUF.CAUSE,
    .reg Reg.BP_ERR.REVOKE]

/-- What a window access logged in HE_WINLOG may change (R71). -/
def windowLog : List Fld := [.he, .out, .reg Reg.HE_WINLOG.COUNT, .reg Reg.HE_WINLOG.CAUSE, .reg Reg.HE_WINLOG.PORT,
    .reg Reg.HE_WINLOGLO.OFFSET, .reg Reg.HE_WINLOGHI.OFFSET, .reg Reg.HE_WINLOGHI.RID]

/-- What sending a frame may change: FI may injure it, and a transfer may fail (R308, R395). -/
def sending : List Fld := [.out, .gf, .fi, .reg Reg.GF_XFER.FAILED, .reg Reg.GF_ERR.XFERFAIL, .reg Reg.FI_CNT.INJECTED]

/-- What a disarming of FI may change beside the event log (R394). -/
def disarming : List Fld := [.fi, .reg Reg.FI_ARM.ARMED, .reg Reg.FI_ARM.DCAUSE, .reg Reg.FI_GF.EN, .reg Reg.FI_FL.EN,
    .reg Reg.FI_PCIE.EN]

/-- What consuming poison may change (R298). -/
def poisoned : List Fld := [.me, .reg Reg.ME_POISON.CONSUMED, .reg Reg.ME_LASTHI.KIND, .reg Reg.ME_ERR.POISON]

/-- What a setup write by a writer without the token changes (R49, Table 2.11). -/
def turnedAway : List Fld := [.reg Reg.GEN_ERR.OWNWR, .reg Reg.GEN_ERRADDR.OFFSET, .reg Reg.GEN_ERRADDR.SRC]

/-- A frame made of named groups of places and of single ones. -/
def places (gs : List (List Fld)) (l : List Fld) : List Fld := gs.flatten ++ l

/-- The byte stores are in canonical form: offsets rising, no entry that holds what an unlisted byte reads as (0). -/
def Memory.wf (s : State) : Bool := sWf s.me.exported 0 && sWf s.he.a.cmb 0 && sWf s.he.b.cmb 0

/-- The state in which an admin command is checked: a command of the admin queue has been fetched, and has ended LOWPOWER. -/
def arrived (h : AdminHdr) (s : State) : State := if h.tunnelled then s else wake (sqeArrived h.port 0 s)

/-- An admin command is taken and passes the checks that every admin command meets: it is tunnelled or its controller is ready, its mode
serves it, it is not fused and its reserved fields are zero. -/
def adminServed (h : AdminHdr) (modes : Mode → Bool) (s : State) : Bool :=
  (h.tunnelled || rdy h.port s) && modes (arrived h s).gen.mode && h.fuse == 0 && h.reservedZero

/-- The descriptors of an admin command of the admin queue or of NVMe-MI fit its data. -/
def dataFits (h : AdminHdr) (len : Nat) (s : State) : Bool := decide (len = 0) || (descCheck h.port h.data len none s).isNone

/-- FI is armed only in SERVICE and DIAGNOSTIC (R394). -/
def FiLegal (s : State) : Prop := s.fi.armed = true → fiMode s.gen.mode = true

/-- The provisioning record holds a mode that it records (R35), and LOWPOWER was entered from SERVICE or SEALED (rows 8 and 9 of
Table 2.2). -/
def ModesLegal (s : State) : Prop :=
  modeRecorded s.prov.mode = true ∧ (s.gen.mode = .lowpower → s.gen.lowFrom = .service ∨ s.gen.lowFrom = .sealed)

/-- No fuse is undone: the UID and the ROM ID are the same, and ARB did not fall (R359). -/
def FusesKept (s t : State) : Prop :=
  t.fuses.uid = s.fuses.uid ∧ t.fuses.romId = s.fuses.romId ∧ s.fuses.arb ≤ t.fuses.arb

/-- The fields of a map entry fit Table 6.1: a staged entry carries STIDX and no location, any other a location and no STIDX. -/
def MapEntry.fits (e : MapEntry) : Bool :=
  decide (e.glen < 256 ∧ e.rgen < 4 ∧ e.vhint < 8) &&
  (if e.staged then decide (e.stidx < 2 ^ 38 ∧ e.die = 0 ∧ e.block = 0 ∧ e.plane = 0 ∧ e.page = 0 ∧ e.goff = 0)
   else decide (e.stidx = 0 ∧ e.die < 2048 ∧ e.block < 16384 ∧ e.plane < 4 ∧ e.page < 2048 ∧ e.goff < 32))

/-- A step of the machine answers a next state. -/
def stepsTo (s t : State) : Prop := step s = .next t

/-- The states reached from `s` by steps. -/
inductive Reaches : State → State → Prop where
  | refl (s : State) : Reaches s s
  | step {s t u : State} : Reaches s t → stepsTo t u → Reaches s u

/-- A run of `n` steps stops nowhere: it ends neither in a fault nor in a refusal. -/
def neverStops (n : Nat) (s : State) : Prop := ∃ t, Host.Core.run Sys2Proof.core n s = .next t

end Sys2Proof.Machine
end

