-- ==== Sys2Proof/Conditions.lean ====
section
/-! DEFINITION. The conditions under which a command is let in, in the terms the statements use. -/
namespace Sys2Proof.Machine

/-- Step 10 and 11 of Table 4.13a for LC0 to LC6: what the command needs is free now, and its plan ends by its deadline within the
horizon of placements. The state with the command in flight, or `none` where it is turned away (R131, R134, R135). -/
def goesInBound (h : IoHdr) (n : Ns) (c : IoCmd) (bytes : Nat) (pages : Bool) (s : State) : Option State :=
  match classRow c.cls s with
  | none => none
  | some e =>
    let known := knownExt h s
    let past := pastExt h s
    let c := { c with deadline := some (c.t0 + 1000 * boundUs e c s + sumOf (known.map (·.2))) }
    if vatLacks c s ∨ laneLacks c s ∨ cacheLacks c pages s ∨ heldTouched n c s then none
    else match grantBufs c bytes s with
      | (none, _) => none
      | (some is, s1) =>
        let p := planIo n c bytes pages s1
        if c.deadline.getD 0 < p.1 * 4000 ∨ ¬ withinHorizon c.id p.2 then none
        else
          let s := if h.slowNs = 0 then p.2 else setSat Reg.QE_HOSTXS.LAST (h.slowNs / 1000) (bump Reg.QE_HOSTXS.COUNT p.2)
          let c := { c with bufs := is, planEnd := p.1, deadline := c.deadline.map (· + sumOf (past.map (·.2))) }
          some (admitted n c pages (known ++ past) (openFixity c bytes s))

/-- Steps 10 and 11 of Table 4.13a: no report of a deferred fault is due and the command gets what its class asks for. The state with
the command in flight, or `none` where it waits or is turned away. -/
def goesIn (h : IoHdr) (n : Ns) (c : IoCmd) (bytes : Nat) (s : State) : Option State :=
  if c.cls = 7 ∧ queueWaits c s then none
  else
    let pages := !(needPages n c s).isEmpty
    let c := if pages then c else lookup n c s
    if ¬ pages ∧ reportDue h.port (reportsOn c) s then none
    else if c.cls = 7 then (tryLc7 n c bytes pages s).map (fun x => admitted n x.1 pages [] x.2)
    else goesInBound h n c bytes pages s

end Sys2Proof.Machine
end

