-- ==== Sys2Proof/Machine/Stages.lean ====
section
/-! DEFINITION. The coding stages byte by byte: stored forms and the token stream (R236 to R240), shaping (R248), the place of
a codeword (R249), and the parity of a stripe (R210, R211). No command of the table carries a grain's stored bytes, so these are functions of their
own. -/
namespace Sys2Proof.Machine

/-! Bits. -/

/-- The bits of a byte, from bit 7 down to bit 0. -/
def byteBits (b : Byte) : List Bool :=
  [b.getLsbD 7, b.getLsbD 6, b.getLsbD 5, b.getLsbD 4, b.getLsbD 3, b.getLsbD 2, b.getLsbD 1, b.getLsbD 0]

/-- The bits of a string of bytes in reading order (R237, R248). -/
def streamBits (m : List Byte) : List Bool := m.flatMap byteBits

/-- `n` bits of a number, most significant first. -/
def natBits : (n : Nat) → Nat → List Bool
  | 0, _ => []
  | n + 1, v => decide (v / 2 ^ n % 2 = 1) :: natBits n v

/-- A number read from bits, most significant first. -/
def bitsNat : List Bool → Nat
  | [] => 0
  | b :: t => (if b then 2 ^ t.length else 0) + bitsNat t

/-- The next `n` bits of a stream as a number; `none` when the stream is at its end. -/
def takeBits (n : Nat) (l : List Bool) : Option (Nat × List Bool) :=
  if l.length < n then none else some (bitsNat (l.take n), l.drop n)

/-! The token stream (R237 to R239). -/

/-- The code of a symbol (Table 9.4). -/
def symCode (s : Nat) : List Bool :=
  if s = 272 then natBits 8 128
  else if s = 271 then natBits 6 30
  else if 256 ≤ s then natBits 5 (s - 256)
  else if s = 0 then natBits 7 62
  else if s = 255 then natBits 7 63
  else natBits 9 (257 + s)

/-- The next symbol of a stream (Table 9.4). -/
def nextSym (l : List Bool) : Option (Nat × List Bool) :=
  match takeBits 5 l with
  | none => none
  | some (v, r) =>
    if v < 15 then some (256 + v, r)
    else if v = 15 then match takeBits 1 r with
      | none => none
      | some (0, r) => some (271, r)
      | some (_, r) => match takeBits 1 r with
        | none => none
        | some (b, r) => some (255 * b, r)
    else match takeBits 3 r with
      | none => none
      | some (x, r) =>
        if v = 16 ∧ x = 0 then some (272, r)
        else match takeBits 1 r with
          | none => none
          | some (b, r) => some (16 * v + 2 * x + b - 257, r)

/-- BASE and the number of extra bits of a length symbol (Table 9.5). -/
def lenBase (s : Nat) : Nat × Nat :=
  if s < 264 then (4 + (s - 256), 0)
  else match s with
    | 264 => (12, 2)
    | 265 => (16, 4)
    | 266 => (32, 5)
    | 267 => (64, 6)
    | 268 => (128, 7)
    | 269 => (256, 8)
    | 270 => (512, 12)
    | _ => (4608, 16)

/-- A match copies `len` bytes one at a time, each from `dist` bytes back in the output (R238). -/
def copyMatch : (len dist : Nat) → List Byte → List Byte
  | 0, _, out => out
  | n + 1, dist, out => copyMatch n dist (out ++ [(out[out.length - dist]?).getD 0])

/-- decode of R239 up to symbol 272: the bytes and the bits that follow; `none` is a format error. `n` is the number of data bytes; every token
takes at least one bit, so a stream of f bits has at most f tokens. -/
def decodeTokens (n : Nat) : (fuel : Nat) → List Bool → List Byte → Option (List Byte × List Bool)
  | 0, _, _ => none
  | f + 1, l, out =>
    match nextSym l with
    | none => none
    | some (s, r) =>
      if s < 256 then decodeTokens n f r (out ++ [BitVec.ofNat 8 s])
      else if s = 272 then some (out, r)
      else
        let b := lenBase s
        match takeBits b.2 r with
        | none => none
        | some (x, r) => match takeBits 4 r with
          | none => none
          | some (nb, r) => match takeBits nb r with
            | none => none
            | some (y, r) =>
              let len := b.1 + x
              let dist := 2 ^ nb + y
              if out.length < dist ∨ n < out.length + len then none else decodeTokens n f r (copyMatch len dist out)

/-- decode(stream, clen, n) of R239. -/
def decodeStream (stream : List Byte) (clen n : Nat) (ucrc : Word) : Option (List Byte) :=
  let bits := streamBits (stream.take clen)
  match decodeTokens n (bits.length + 1) bits [] with
  | none => none
  | some (out, rest) =>
    if stream.length < clen ∨ out.length ≠ n ∨ rest.contains true ∨ crc32c out ≠ ucrc then none else some out

/-! Stored forms (R236, Table 9.3). -/

/-- Zero bytes up to the next granule boundary. -/
def padGranule (m : List Byte) : List Byte := m ++ List.replicate ((512 - m.length % 512) % 512) 0

/-- The raw form: data of the LBAs, then their metadata, padded. -/
def rawForm (lbas : List HostLba) : List Byte := padGranule (lbas.flatMap (·.data) ++ lbas.flatMap (·.md))

/-- The headed form's header (Table 9.3). -/
structure Headed where
  ver : Nat
  sizes : Nat
  mdsz : Nat
  clen : Nat
  ucrc : Nat
  marks : Nat
  deriving DecidableEq, Repr

/-- The 16 bytes of a header. -/
def Headed.bytes (h : Headed) : List Byte :=
  leBytes 1 h.ver ++ leBytes 1 h.sizes ++ leBytes 1 h.mdsz ++ [0] ++ leBytes 4 h.clen ++ leBytes 4 h.ucrc ++ leBytes 4 h.marks

/-- Little-endian value of bytes. -/
def leVal : List Byte → Nat
  | [] => 0
  | b :: t => b.toNat + 256 * leVal t

/-- Little-endian field of a byte string. -/
def leField (l : List Byte) (off n : Nat) : Nat := leVal ((l.drop off).take n)

/-- The header read from a form's first bytes. -/
def Headed.ofBytes (l : List Byte) : Headed :=
  ⟨leField l 0 1, leField l 1 1, leField l 2 1, leField l 4 4, leField l 8 4, leField l 12 4⟩

/-- MARKS of LBA `i`: 0 data, 1 deallocated, 2 lost, 3 never written. -/
def Headed.mark (h : Headed) (i : Nat) : Nat := h.marks / 4 ^ i % 4

/-- A headed form assembled: header, metadata of every LBA, token stream, padding. -/
def headedForm (h : Headed) (md stream : List Byte) : List Byte := padGranule (h.bytes ++ md ++ stream)

/-- A headed form is read (R239): `sizes` and `mdsz` are what the namespace has, `k` its LBAs per grain, `lba` its data bytes per LBA; `written i`
says that LBA `i` was ever written. The answer is the data of the unmarked LBAs, the metadata of all, and the marks. -/
def readHeaded (sizes mdsz k lba : Nat) (written : Nat → Bool) (form : List Byte) : Option (List Byte × List Byte × List Nat) :=
  let h := Headed.ofBytes form
  let marks := (List.range k).map h.mark
  let n := lba * (marks.filter (· == 0)).length
  let md := (form.drop 16).take (k * mdsz)
  let stream := (form.drop (16 + k * mdsz)).take h.clen
  let pad := form.drop (16 + k * mdsz + h.clen)
  if h.ver ≠ 1 ∨ h.sizes ≠ sizes ∨ h.mdsz ≠ mdsz ∨ (List.range k).any (fun i => h.mark i == 3 && written i) ∨ pad.any (· != 0) then none
  else if n = 0 then (if h.clen = 0 ∧ h.ucrc = 0 then some ([], md, marks) else none)
  else match decodeStream stream h.clen n (BitVec.ofNat 32 h.ucrc) with
    | none => none
    | some d => some (d, md, marks)

/-! Shaping (R248). -/

/-- Shape one group of 15 bits. -/
def shapeGroup (pol : Bool) (g : List Bool) : List Bool :=
  if 8 ≤ g.countP (· == pol) then pol :: g else (!pol) :: g.map (fun b => !b)

/-- Deshape one group of 16 bits. -/
def deshapeGroup (pol : Bool) (g : List Bool) : List Bool := match g with
  | [] => []
  | f :: t => if f = pol then t else t.map (fun b => !b)

/-- Shape a codeword's stored bits in `n` groups of 15. -/
def shapeBits (pol : Bool) : (n : Nat) → List Bool → List Bool
  | 0, _ => []
  | n + 1, l => shapeGroup pol (l.take 15) ++ shapeBits pol n (l.drop 15)

/-- Deshape `n` groups of 16 bits. -/
def deshapeBits (pol : Bool) : (n : Nat) → List Bool → List Bool
  | 0, _ => []
  | n + 1, l => deshapeGroup pol (l.take 16) ++ deshapeBits pol n (l.drop 16)

/-! Codewords (R249, R252). -/

/-- The byte offset of codeword `j` in its plane page. -/
def cwOffset (j : Nat) : Nat := 4640 * j

/-- The position of codeword `j` of a plane within its stripe unit. -/
def cwPosition (plane j : Nat) : Nat := 4 * plane + j

/-- A codeword's payload: 4,096 data bytes and 64 metadata bytes of the tag area (R171, R210). -/
def cwPayload (data tag : List Byte) (pos : Nat) : List Byte := data ++ (tag.drop (64 * pos)).take 64

/-! Parity (R210, R211): GF(2^8) with the polynomial 0x11D and g = 2. -/

/-- Multiplication by g. -/
def gfDouble (x : Byte) : Byte := if x.msb then (x <<< 1) ^^^ 0x1D else x <<< 1

/-- Product of two field elements. -/
def gfMul (a b : Byte) : Byte := (byteBits b).foldl (fun acc bit => gfDouble acc ^^^ (if bit then a else 0)) 0

/-- g to the power `i`. -/
def gfPow : Nat → Byte
  | 0 => 1
  | i + 1 => gfDouble (gfPow i)

/-- The square. -/
def gfSq (x : Byte) : Byte := gfMul x x

/-- The inverse, x to the power 254; 0 for 0. -/
def gfInv (x : Byte) : Byte :=
  let x2 := gfSq x
  let x4 := gfSq x2
  let x8 := gfSq x4
  let x16 := gfSq x8
  let x32 := gfSq x16
  let x64 := gfSq x32
  gfMul (gfMul (gfMul x2 x4) (gfMul x8 x16)) (gfMul (gfMul x32 x64) (gfSq x64))

/-- The quotient of two field elements. -/
def gfDiv (a b : Byte) : Byte := gfMul a (gfInv b)

/-- P of one byte position: the sum of the data members' bytes (R210). -/
def parityP (ds : List Byte) : Byte := ds.foldl (· ^^^ ·) 0

/-- Q of one byte position: the sum of g^i · D_i, from member `i` on. -/
def parityQ : (i : Nat) → List Byte → Byte
  | _, [] => 0
  | i, d :: t => gfMul d (gfPow i) ^^^ parityQ (i + 1) t

/-- The data units present at a position, the missing ones taken as 0: S_P and S_Q are P and Q combined with their terms (R211). -/
def syndromes (p q : Byte) (present : List Byte) : Byte × Byte := (p ^^^ parityP present, q ^^^ parityQ 0 present)

/-- Two missing data units a and b (R211). -/
def recoverTwo (a b : Nat) (sp sq : Byte) : Byte × Byte :=
  let da := gfDiv (sq ^^^ gfMul sp (gfPow b)) (gfPow a ^^^ gfPow b)
  (da, sp ^^^ da)

/-- One missing data unit, with P present or missing too (R211). -/
def recoverOne (a : Nat) (pThere : Bool) (sp sq : Byte) : Byte := if pThere then sp else gfDiv sq (gfPow a)

/-- P and Q of whole payloads, byte by byte. -/
def stripeParity (n : Nat) (ds : List (List Byte)) : List Byte × List Byte :=
  let at_ := fun (i : Nat) => ds.map (fun d => (d[i]?).getD 0)
  ((List.range n).map (fun i => parityP (at_ i)), (List.range n).map (fun i => parityQ 0 (at_ i)))

end Sys2Proof.Machine
end

