-- ==== Sys2Proof/Machine/Formats.lean ====
section
/-! DEFINITION. The byte formats of what the Y9 keeps on the media and in its tables: journal records and pages (R164, R165), the checkpoint root (R168),
tag areas (R171), barrel numbers (R181), block state table entries (R182), snapshot pages (R218), and the place of a die on its bus (R257). -/
namespace Sys2Proof.Machine

/-! The journal (Tables 6.3 and 6.5). -/

/-- B of a record: the entry it carries, or its number. -/
def JRec.bWord (r : JRec) : Nat := match r.be with
  | some e => e.word
  | none => r.b

/-- The 32 bytes of a record (Table 6.3). -/
def JRec.bytes (r : JRec) : List Byte :=
  leBytes 1 r.typ ++ leBytes 1 r.flags ++ leBytes 2 r.nsid ++ leBytes 4 r.aux ++ leBytes 8 r.key ++ leBytes 8 r.a ++ leBytes 8 r.bWord

/-- The NOP record that pads a page. -/
def jNop : JRec := ⟨0x00, 0, 0, 0, 0, 0, none, 0⟩

/-- The record bytes of one page: 2,048 records, padded with NOP. -/
def journalPage (rs : List JRec) : List Byte := (rs ++ List.replicate (2048 - rs.length) jNop).flatMap JRec.bytes

/-- The CSNs of a page's COMMIT records. -/
def commitCsns (rs : List JRec) : List Nat := (rs.filter (fun r => r.typ == 1)).map (·.a)

/-- The metadata of a journal page's first codeword (Table 6.5). -/
def journalMeta (page npage seq : Nat) (rs : List JRec) : List Byte :=
  let cs := commitCsns rs
  let head := leBytes 2 0x4A4E ++ leBytes 1 page ++ leBytes 1 npage ++ leBytes 4 (rs.filter (fun r => r.typ != 0)).length ++ leBytes 8 seq ++
    leBytes 8 (minOf cs.tail (cs.headD 0)) ++ leBytes 8 (maxOf cs)
  head ++ leBytes 4 (crc32c (head ++ journalPage rs)).toNat ++ List.replicate 28 0

/-! The checkpoint root (Table 6.6). -/

/-- The 32 KiB root: header, then the level-1 locations at byte 64 + 8i; the CRC covers the page with its own bytes taken as 0. -/
def rootPage (sweep replaySeq replayCsn : Nat) (clean : Bool) (l1 : List Nat) : List Byte :=
  let head := leBytes 4 0x4D585254 ++ leBytes 4 l1.length ++ leBytes 8 sweep ++ leBytes 8 replaySeq ++ leBytes 8 replayCsn ++
    leBytes 1 (if clean then 1 else 0) ++ List.replicate 27 0
  let body := l1.flatMap (leBytes 8) ++ List.replicate (32768 - 64 - 8 * l1.length) 0
  head ++ leBytes 4 (crc32c (head ++ [0, 0, 0, 0] ++ body)).toNat ++ body

/-! Tags (Tables 6.7 and 6.8). -/

/-- A tag entry. -/
structure Tag16 where
  origCsn : Nat
  grain : Nat
  nsid : Nat
  raw : Bool
  spans : Bool
  marks : Bool
  isMap : Bool
  glen : Nat
  deriving DecidableEq, Repr

/-- Bytes 13 and 14 of a tag entry: NSID and flags. -/
def Tag16.flags (t : Tag16) : Nat :=
  t.nsid + (if t.raw then 2 ^ 11 else 0) + (if t.spans then 2 ^ 12 else 0) + (if t.marks then 2 ^ 13 else 0) + (if t.isMap then 2 ^ 14 else 0)

/-- The 16 bytes of a tag entry. -/
def Tag16.bytes (t : Tag16) : List Byte := leBytes 8 t.origCsn ++ leBytes 5 t.grain ++ leBytes 2 t.flags ++ leBytes 1 t.glen

/-- The tag entry of 16 bytes. -/
def Tag16.ofBytes (l : List Byte) : Tag16 :=
  let f := leField l 13 2
  ⟨leField l 0 8, leField l 8 5, f % 2 ^ 11, f.testBit 11, f.testBit 12, f.testBit 13, f.testBit 14, leField l 15 1⟩

/-- A grain has a per-LBA mark (R150). -/
def Copy.marked (c : Copy) : Bool := c.lbas.any (fun v => match v with
  | .dealloc | .lost => true
  | _ => false)

/-- The tag entry of a grain's copy: RAW as the form was stored, SPANS when it reaches into the next unit (R171). -/
def Copy.tag (raw : Bool) (c : Copy) : Tag16 :=
  let unit := if c.vat then slcUnit else qlcUnit
  let g := if c.vat then 32 else 30
  ⟨c.csn, c.grain, c.nsid, raw, decide (unit < c.loc.plane * g + c.loc.goff + c.loc.glen), c.marked, false, c.loc.glen⟩

/-- The tag area of a unit (Table 6.7): header, then the entries in the order of their first granules. -/
def tagArea (barrel stripe member cont vintage : Nat) (ts : List Tag16) : List Byte :=
  let head := leBytes 4 barrel ++ leBytes 2 stripe ++ leBytes 1 member ++ leBytes 1 ts.length ++ leBytes 1 cont ++ leBytes 1 vintage ++
    List.replicate 6 0 ++ leBytes 8 (maxOf (ts.map (·.origCsn))) ++ List.replicate 38 0
  let body := ts.flatMap Tag16.bytes ++ List.replicate (960 - 16 * ts.length) 0
  head ++ leBytes 2 (crc16 0x1021 0xFFFF (head ++ body)).toNat ++ body

/-- Position of a copy's first granule in the barrel's or vat block's data: unit, then granule in it. -/
def Copy.unitOf (c : Copy) : Nat := c.loc.page
def Copy.start (c : Copy) : Nat := c.loc.plane * (if c.vat then 32 else 30) + c.loc.goff

/-- The tag area of a unit as the copies stored there give it (R171): those whose first granule lies in the unit, in the order of those
granules; CONT counts what the unit before left over; `raw` says whether a form was stored raw. -/
def unitArea (barrel member die block unit vintage : Nat) (cs : List Copy) (raw : Copy → Bool) : List Byte :=
  let size := if barrel.testBit 31 then slcUnit else qlcUnit
  let inUnit := fun (u : Nat) => cs.filter (fun c => decide (c.loc.die = die ∧ c.loc.block = block ∧ c.unitOf = u))
  let mine := (List.range size).flatMap (fun o => (inUnit unit).filter (fun c => c.start == o))
  let cont := if unit = 0 then 0 else maxOf ((inUnit (unit - 1)).map (fun c => c.start + c.loc.glen - size))
  tagArea barrel unit member cont vintage (mine.map (fun c => c.tag (raw c)))

/-- The tag of a map page or directory page (R168, Table 6.8): MAP set, GLEN 8, under the counter's value when it was written. -/
def mapTag (nsid page csn : Nat) : Tag16 := ⟨csn, page, nsid, true, false, false, true, 8⟩

/-- The barrel number of a vat page: bit 31, the die slot of the first copy, the vat slot (R181). -/
def vatNumber (die slot : Nat) : Nat := 2 ^ 31 + die + 2 ^ 11 * slot

/-! The block state table (Table 7.2). -/

/-- The 16-byte entry of a block; `state` is the code of log C0h, `row` the ROW field. -/
def Block.bytes (b : Block) (state : Nat) (slc : Bool) (row : Nat) : List Byte :=
  leBytes 4 (b.erases + 2 ^ 24 * state + (if b.intent then 2 ^ 27 else 0) + (if b.refresh then 2 ^ 28 else 0) + (if slc then 2 ^ 29 else 0)) ++
  leBytes 4 b.reads ++ leBytes 2 b.pptr ++ leBytes 2 row ++ leBytes 4 (b.age / 2 ^ 32)

/-! Lines of the memories (R286, R288 to R290). -/

/-- The check C of a line: CRC-32C of its 64 data bytes, its device address and its TAG, 0 on SRAM (R289). -/
def lineCheck (data : List Byte) (addr tag : Nat) : Word := crc32c (data ++ leBytes 8 addr ++ leBytes 1 tag)

/-- A stored line (Table 11.3): its data, CHK, POISON, TAG and the reserved metadata bits. -/
structure Line64 where
  data : List Byte
  chk : Word
  poison : Bool
  tag : Nat
  reserved : Nat
  deriving DecidableEq, Repr

/-- A line as it is written, good or poisoned (R289). -/
def storeLine (data : List Byte) (addr tag : Nat) (poison : Bool) : Line64 :=
  ⟨data, if poison then lineCheck data addr tag ^^^ 0xFFFFFFFF else lineCheck data addr tag, poison, tag, 0⟩

/-- What a read finds of a line: good, poisoned, or failing its check (R289). -/
inductive LineClass where
  | good
  | poisoned
  | fails
  deriving DecidableEq, Repr

/-- ME's classification of a line at an address whose TAG should be `want` (R289). -/
def Line64.classify (l : Line64) (addr want : Nat) : LineClass :=
  let c := lineCheck l.data addr l.tag
  if l.reserved ≠ 0 ∨ l.tag ≠ want then .fails
  else if ¬ l.poison ∧ l.chk = c then .good
  else if l.poison ∧ l.chk = c ^^^ 0xFFFFFFFF then .poisoned
  else .fails

/-- The TAG that R290 gives a device address: 0 on SRAM and on the link line of a free pool buffer, the generation of a used one, and the numbers
of the map region, the page cache and the system area. -/
def tagAt (addr : Nat) (s : State) : Nat :=
  let g := 2 ^ 30
  let map := 2 ^ 32 + g * getF Reg.MX_CFG.REGION s
  let cache := map + g * getF Reg.MX_CFG.PGCACHE s
  let sys := cache + 4 * g
  if addr < 2 ^ 32 then 0
  else if addr < map then 0xF0
  else if addr < cache then 0xF1
  else if addr < sys then 0xF2
  else
    let b := getBuf (sramBufs + (addr - sys) / 4096) s
    if b.used ∨ 64 ≤ (addr - sys) % 4096 then b.gen else 0

/-- The first 8 bytes of a free buffer's link line (R286): NEXT, and CHECK over NEXT and the buffer's own index. -/
def linkLine (index next : Nat) : List Byte := leBytes 4 next ++ leBytes 4 (crc32c (leBytes 4 next ++ leBytes 4 index)).toNat

/-- A link line is verified (R286): its line check passes with TAG 0x00, CHECK is right, and NEXT ends the list or is a free buffer of the same
pool. -/
def linkVerified (index addr : Nat) (l : Line64) (s : State) : Bool :=
  let next := leField l.data 0 4
  l.classify addr 0 == .good && l.data.take 8 == linkLine index next &&
    (next == 0xFFFFFFFF || (poolOf next == poolOf index && !(getBuf next s).used))

/-! Anchor records (R167). -/

/-- A location word in the form of Table 6.1 with STAGED = 0 and GLEN = 8: of the page of a vat block. -/
def pageWord (die block page : Nat) : Nat :=
  ({ MapEntry.initial with die := die, block := block, page := page, glen := 8, dealloc := false } : MapEntry).word

/-- The 128 bytes of an anchor record: sequence number, locations of the root's copies, SEQ of the first segment, current and next journal block
of each copy, and the CRC-32C over the rest. The spec gives no byte places: the order is the model's (log entry 111). -/
def Anchor.bytes (a : Anchor) (rootLocs blocks : List Nat) : List Byte :=
  let body := leBytes 8 a.seq ++ (List.range 2).flatMap (fun i => leBytes 8 ((rootLocs[i]?).getD 0)) ++ leBytes 8 a.firstSeq ++
    (List.range 4).flatMap (fun i => leBytes 8 ((blocks[i]?).getD 0)) ++ List.replicate 60 0
  body ++ leBytes 4 (crc32c body).toNat

/-! Snapshots (Tables 8.3 and 8.4). -/

/-- An open-stripe entry. -/
def OpenStripe.bytes (o : OpenStripe) : List Byte :=
  leBytes 4 o.barrel ++ leBytes 2 o.stripe ++ [0, 0] ++ leBytes 4 (o.verified.foldl (fun m p => m ||| 2 ^ p) 0) ++
  leBytes 1 (if o.started then 1 else 0) ++ [0, 0, 0]

/-- A substitution entry. -/
def Subst.bytes (e : Subst) : List Byte :=
  leBytes 2 e.src ++ leBytes 2 e.dst ++ leBytes 1 e.group ++ leBytes 1 e.state ++ leBytes 2 e.nextRow ++ List.replicate 8 0

/-- A void entry. -/
def VoidEnt.bytes (v : VoidEnt) : List Byte :=
  leBytes 4 v.barrel ++ leBytes 1 v.pos ++ [0] ++ leBytes 2 v.first ++ leBytes 2 v.count ++ leBytes 1 v.cause ++ List.replicate 5 0

/-- Entries at their place, the rest of the area zero. -/
def snapArea (n : Nat) (es : List (List Byte)) : List Byte := es.flatten ++ List.replicate (16 * (n - es.length)) 0

/-- A snapshot page (Table 8.3): 65,536 bytes; the CRC covers bytes 0 to 53,311 with its own bytes taken as 0. -/
def Snap.bytes (x : Snap) : List Byte :=
  let head := leBytes 2 0x534A ++ leBytes 2 x.opens.length ++ leBytes 2 x.subst.length ++ leBytes 2 x.voids.length ++ leBytes 8 x.seq ++
    leBytes 8 x.dtime ++ leBytes 8 x.csn ++ leBytes 8 x.jseq ++ List.replicate 20 0
  let body := snapArea 2048 (x.opens.map OpenStripe.bytes) ++ snapArea 256 (x.subst.map Subst.bytes) ++ snapArea 1024 (x.voids.map VoidEnt.bytes)
  head ++ leBytes 4 (crc32c (head ++ [0, 0, 0, 0] ++ body)).toNat ++ body ++ List.replicate 12224 0

/-! The bus of a die (Table 10.2). -/

/-- Chip enable and LUN address of a die position, on an unbuffered or a buffered bus. -/
def busPlace (buffered : Bool) (pos : Nat) : Nat × Nat := if buffered then (pos / 4, pos % 4) else (pos / 2, pos % 2)

end Sys2Proof.Machine
end

