-- ==== Sys2Proof/Certificates/Slice0/Obligations.lean ====
section
/-! DEFINITION. The statements for the provers: what each command does to the state and what it leaves unchanged, and the invariants, encodings and
round trips of the model. -/
open Sys2Proof Sys2Proof.Machine

/-- A step runs the command at the front of the queue: for every command c and state s, a step of s with c in front is exec of c on s with
the rest of the queue. With nothing waiting it idles. The queue and the idling are the model's choice (log entry 7). Rules: R15. -/
def Obligations.StepRunsFront : Prop :=
  (∀ (c : Instr) (rest : List Instr) (s : State), step { s with pending := c :: rest } = exec c { s with pending := rest }) ∧
  (∀ s : State, s.pending = [] → step s = .next s)

/-- R43, R47, R408, R409 and Table 2.2, rows 1, 14, 15, 23 and 24: what power-on reset, power failure and the end of DRAIN do, with all that
each leaves unchanged. -/
def Obligations.PowerOnAndFailure : Prop :=
  (∀ (lowUs : Nat) (s : State), 10 ≤ lowUs → ∃ t, exec (.porNAssert lowUs) s = .next t ∧ Only [.freeCtr, .out, .eff, .time, .pins, .gen,
      .he, .ctl, .sh, .defFaults, .lost, .cmds, .nextCmd, .fs, .mx, .ns, .nsWait, .mm, .sp, .cs, .bp, .me, .gf, .tw, .dg, .mg, .fi, .nand,
      .ff, .regs] s t ∧ t.gen.mode = .reset ∧ t.gen.cause = 24 ∧ t.pins.porN = false ∧ (∀ f, getF f t = f.rst) ∧ t.time.fabric =
      t.ff.timeMark + 10000000000 ∧ t.cmds = [] ∧ t.me.exported = []) ∧
  (∀ (lowUs : Nat) (s : State), lowUs < 10 → exec (.porNAssert lowUs) s = .next s) ∧
  (∀ (bifur : Bool) (pwrHighUs : Nat) (s : State), s.pins.porN = false → s.gen.mode = .reset → 1000 ≤ pwrHighUs → ∃ t,
      exec (.porNDeassert bifur pwrHighUs) s = .next t ∧ Only [.out, .pins, .gen, .he, .ctl, .fs, .cs, .bp, .dg, .mg, .fi, .prov,
      .win 0x80000 0x100000] s t ∧ t.gen.mode = .boot ∧ t.gen.cause = 1 ∧ t.pins.porN = true ∧ t.pins.pwrFailN = true ∧ t.pins.bifur =
      bifur) ∧
  (∀ (lowNs : Nat) (s : State), 1000 ≤ lowNs → mediaMode s.gen.mode = true → ∃ t, exec (.pwrFailNAssert lowNs) s = .next t ∧ Only [.out,
      .eff, .pins, .gen, .he, .ctl, .sh, .defFaults, .lost, .cmds, .nextCmd, .fs, .mx, .ns, .nsWait, .mm, .sp, .cs, .bp, .me, .gf, .tw, .dg,
      .mg, .fi, .nand, .prov, .win 0x80000 0x100000, .win 0x88000 0xF0000] s t ∧ t.gen.mode = .drain ∧ t.gen.cause = 14 ∧ t.gen.prev =
      s.gen.mode ∧ t.pins.pwrFailN = false ∧ isOn Reg.GEN_DRAIN.ACTIVE t = true ∧ t.cmds = [] ∧ t.mm.racking = []) ∧
  (∀ (lowNs : Nat) (s : State), 1000 ≤ lowNs → s.gen.mode = .boot ∨ s.gen.mode = .recovery ∨ s.gen.mode = .provision → ∃ t,
      exec (.pwrFailNAssert lowNs) s = .next t ∧ Only [.out, .eff, .pins, .gen, .he, .ctl, .sh, .defFaults, .lost, .cmds, .nextCmd, .fs,
      .mx, .ns, .nsWait, .mm, .sp, .cs, .bp, .me, .gf, .tw, .dg, .mg, .fi, .nand, .prov, .win 0x80000 0x100000, .win 0x88000 0xF0000] s t ∧
      t.gen.mode = .reset ∧ t.gen.cause = 23 ∧ t.cmds = []) ∧
  (∀ (lowNs : Nat) (s : State), lowNs < 1000 → exec (.pwrFailNAssert lowNs) s = .next s) ∧
  (∀ (highUs : Nat) (s : State), s.gen.mode ≠ .reset → exec (.pwrFailNDeassert highUs) s =
      .next ({ s with pins := { s.pins with pwrFailN := true } })) ∧
  (∀ (highUs : Nat) (s : State), s.gen.mode = .reset → s.pins.porN = true → 1000 ≤ highUs → ∃ t, exec (.pwrFailNDeassert highUs) s =
      .next t ∧ Only [.out, .pins, .gen, .he, .ctl, .fs, .cs, .bp, .dg, .mg, .fi, .prov, .win 0x80000 0x100000] s t ∧ t.gen.mode = .boot ∧
      t.gen.cause = 1 ∧ t.pins.pwrFailN = true) ∧
  (∀ (s : State), s.gen.mode = .drain → s.pins.pwrFailN = false → s.fi.armed = false → ∃ t, exec .drainFlushComplete s = .next t ∧
      Only [.out, .eff, .gen, .he, .ctl, .sh, .defFaults, .lost, .cmds, .nextCmd, .fs, .mx, .ns, .nsWait, .mm, .sp, .cs, .bp, .me, .gf, .tw,
      .dg, .mg, .fi, .nand, .ff, .prov, .win 0x80000 0x100000, .win 0x88000 0xF0000] s t ∧ t.gen.mode = .reset ∧ t.gen.cause = 15 ∧
      isOn Reg.GEN_RSTCAUSE.Y9RST t = true ∧ t.nand.drainDone = true ∧ t.mg.pend = [] ∧ isOn Reg.GEN_DRAIN.ACTIVE t = false ∧ t.cmds = [])

/-- The twin fence, the heartbeat pin and TSYNC_IN. Rules: R36, R335, R330, R412, R320, R319. -/
def Obligations.FenceAndSyncPins : Prop :=
  (∀ (s : State), s.gen.mode ≠ .reset ∧ s.gen.mode ≠ .drain ∧ s.gen.mode ≠ .quarantine → ∃ t, exec .twinFenceInAssert s = .next t ∧
      Only (places [posting, logging, revoking, disarming] [.pins, .gen, .cmds, .mx, .mm, .tw, .dg, .prov, .reg Reg.GEN_DRAIN.ACTIVE]) s t ∧
      t.gen.mode = .quarantine ∧ t.gen.cause = 20 ∧ t.gen.prev = s.gen.mode ∧ t.pins.fenceIn = true ∧ t.ctl.a.cfs = true ∧ t.ctl.b.cfs =
      true ∧ t.cmds = []) ∧
  (∀ (s : State), s.gen.mode = .reset ∨ s.gen.mode = .drain ∨ s.gen.mode = .quarantine → exec .twinFenceInAssert s =
      .next ({ s with pins := { s.pins with fenceIn := true } })) ∧
  (∀ (s : State), s.gen.mode = .quarantine → s.tw.st = .fenced → s.pins.porN = true → s.pins.pwrFailN = true → ∃ t,
      exec .twinFenceInDeassert s = .next t ∧ Only [.out, .eff, .pins, .gen, .he, .ctl, .sh, .defFaults, .lost, .cmds, .nextCmd, .fs, .mx,
      .ns, .nsWait, .mm, .sp, .cs, .bp, .me, .gf, .tw, .dg, .mg, .fi, .nand, .ff, .prov, .win 0x80000 0x100000, .win 0x88000 0xF0000] s t ∧
      t.gen.mode = .boot ∧ t.gen.cause = 1 ∧ t.pins.fenceIn = false ∧ t.cmds = []) ∧
  (∀ (s : State), s.tw.st ≠ .fenced ∨ s.gen.mode ≠ .quarantine → exec .twinFenceInDeassert s =
      .next ({ s with pins := { s.pins with fenceIn := false } })) ∧
  (∀ (heldNs : Nat) (s : State), 100 ≤ heldNs → exec (.twinHbInChange heldNs) s =
      .next ({ s with pins := { s.pins with hbIn := !s.pins.hbIn }, tw := { s.tw with pathBLost := false } })) ∧
  (∀ (heldNs : Nat) (s : State), heldNs < 100 → exec (.twinHbInChange heldNs) s = .next s) ∧
  (∀ (s : State), isOn Reg.GF_CFG.TSYNCEN s = true → s.gen.mode ≠ .reset → now s % 1000000000 ≤ 4000 → exec .tsyncInEdge s =
      .next ({ s with gf := { s.gf with slew := -((now s % 1000000000 : Nat) : Int) } })) ∧
  (∀ (s : State), isOn Reg.GF_CFG.TSYNCEN s = true → s.gen.mode ≠ .reset → 4000 < now s % 1000000000 → now s % 1000000000 < 999996000 → ∃ t,
      exec .tsyncInEdge s = .next t ∧ Only (places [logging] [.out, .time, .ctl, .cmds, .fs, .gf, .reg Reg.GF_TOFFS.STEPS,
      .reg Reg.GF_ERR.TIMESTEP]) s t ∧ now t = now s + (1000000000 - now s % 1000000000) / 4000 * 4000 ∧ t.gf.slew =
      (((1000000000 - now s % 1000000000) % 4000 : Nat) : Int) ∧ isOn Reg.GF_ERR.TIMESTEP t = true ∧ getF Reg.GF_TOFFS.STEPS t =
      Nat.min (getF Reg.GF_TOFFS.STEPS s + 1) (2 ^ Reg.GF_TOFFS.STEPS.width - 1)) ∧
  (∀ (s : State), isOn Reg.GF_CFG.TSYNCEN s = true → s.gen.mode ≠ .reset → 999996000 ≤ now s % 1000000000 → exec .tsyncInEdge s =
      .next ({ s with gf := { s.gf with slew := ((1000000000 - now s % 1000000000 : Nat) : Int) } }))

/-- Hold-up: charger, voltage and verification. Rules: R370, R371, R393. -/
def Obligations.HoldUpSupply : Prop :=
  (∀ (s : State), isOn Reg.GEN_HOLDUP.VERIFIED s = true → ∃ t, exec .huGoodDeassert s = .next t ∧ Only (places [posting, logging, revoking,
      windowLog, sending, poisoned] [.freeCtr, .pins, .sh, .defFaults, .lost, .mx, .mm, .tw, .reg Reg.GEN_HOLDUP.VERIFIED,
      .reg Reg.GEN_HOLDUP.WTHRU, .reg Reg.MG_ERR.HULOW]) s t ∧ isOn Reg.GEN_HOLDUP.VERIFIED t = false ∧ isOn Reg.GEN_HOLDUP.WTHRU t = true ∧
      isOn Reg.MG_ERR.HULOW t = true ∧ t.pins.huGood = false) ∧
  (∀ (s : State), isOn Reg.GEN_HOLDUP.VERIFIED s = false → exec .huGoodDeassert s =
      .next ({ s with pins := { s.pins with huGood := false } })) ∧
  (∀ (s : State), s.gen.mode ≠ .reset ∧ s.gen.mode ≠ .drain → ∃ t, exec .huGoodReassert s = .next t ∧ Only [.pins, .mg,
      .reg Reg.MG_HUSTAT.VOLT] s t ∧ t.pins.huGood = true ∧ t.pins.huTest = true ∧ t.mg.verifying = some (getF Reg.MG_HUSTAT.VOLT s)) ∧
  (∀ (mv : Nat) (s : State), isOn Reg.GEN_HOLDUP.VERIFIED s = true → holdupEnergy mv s.mg.capDen s < 3000 → ∃ t,
      exec (.huSenseBelowVLow mv) s = .next t ∧ Only (places [posting, logging, revoking, windowLog, sending, poisoned] [.freeCtr, .sh,
      .defFaults, .lost, .mx, .mm, .tw, .reg Reg.GEN_HOLDUP.VERIFIED, .reg Reg.GEN_HOLDUP.WTHRU, .reg Reg.MG_HUSTAT.VOLT,
      .reg Reg.MG_ERR.HULOW]) s t ∧ isOn Reg.GEN_HOLDUP.VERIFIED t = false ∧ isOn Reg.GEN_HOLDUP.WTHRU t = true ∧ isOn Reg.MG_ERR.HULOW t =
      true ∧ getF Reg.MG_HUSTAT.VOLT t = mv % 2 ^ Reg.MG_HUSTAT.VOLT.width) ∧
  (∀ (mv : Nat) (s : State), isOn Reg.GEN_HOLDUP.VERIFIED s = false ∨ 3000 ≤ holdupEnergy mv s.mg.capDen s → exec (.huSenseBelowVLow mv) s =
      .next (setF Reg.MG_HUSTAT.VOLT mv s)) ∧
  (∀ (v0mv : Nat) (s : State), s.gen.mode ≠ .reset ∧ s.gen.mode ≠ .drain → ∃ t, exec (.holdupVerificationStart v0mv) s = .next t ∧
      Only [.pins, .mg, .reg Reg.MG_HUSTAT.VOLT] s t ∧ t.pins.huTest = true ∧ t.mg.verifying = some v0mv ∧ getF Reg.MG_HUSTAT.VOLT t =
      v0mv % 2 ^ Reg.MG_HUSTAT.VOLT.width) ∧
  (∀ (dvTenthMv v0 : Nat) (s : State), s.mg.verifying = some v0 → s.pins.huGood = true → 3000 ≤ holdupEnergy v0 (dvTenthMv + 1) s → ∃ t,
      exec (.holdupVerificationEnd dvTenthMv) s = .next t ∧ Only (places [posting, logging, revoking, windowLog, sending,
      poisoned] [.freeCtr, .pins, .gen, .sh, .defFaults, .lost, .mx, .mm, .tw, .reg Reg.GEN_HOLDUP.ENERGY, .reg Reg.GEN_HOLDUP.VERIFIED,
      .reg Reg.GEN_HOLDUP.WTHRU, .reg Reg.MG_HUSTAT.CAP, .reg Reg.MG_ERR.HUFAIL]) s t ∧ isOn Reg.GEN_HOLDUP.VERIFIED t = true ∧
      t.gen.verifiedOnce = true ∧ t.pins.huTest = false ∧ t.mg.verifying = none ∧ t.mg.capDen = dvTenthMv + 1 ∧ getF Reg.MG_HUSTAT.CAP t =
      Nat.min (100000 / (dvTenthMv + 1)) (2 ^ Reg.MG_HUSTAT.CAP.width - 1) ∧ getF Reg.GEN_HOLDUP.ENERGY t =
      Nat.min (holdupEnergy v0 (dvTenthMv + 1) s) (2 ^ Reg.GEN_HOLDUP.ENERGY.width - 1)) ∧
  (∀ (dvTenthMv v0 : Nat) (s : State), s.mg.verifying = some v0 → isOn Reg.GEN_HOLDUP.VERIFIED s = true → holdupEnergy v0 (dvTenthMv +
      1) s < 3000 → ∃ t, exec (.holdupVerificationEnd dvTenthMv) s = .next t ∧ Only (places [posting, logging, revoking, windowLog, sending,
      poisoned] [.freeCtr, .pins, .gen, .sh, .defFaults, .lost, .mx, .mm, .tw, .reg Reg.GEN_HOLDUP.ENERGY, .reg Reg.GEN_HOLDUP.VERIFIED,
      .reg Reg.GEN_HOLDUP.WTHRU, .reg Reg.MG_HUSTAT.CAP, .reg Reg.MG_ERR.HUFAIL]) s t ∧ isOn Reg.GEN_HOLDUP.VERIFIED t = false ∧
      isOn Reg.GEN_HOLDUP.WTHRU t = true ∧ isOn Reg.MG_ERR.HUFAIL t = true ∧ t.pins.huTest = false)

/-- Loss of a clock or of DRAM training. Rules: R407, R59, R304, R390. -/
def Obligations.ClocksAndDramLost : Prop :=
  (∀ (p : Port) (s : State), (s.port p).up = true → (s.port p).l12 = false → ∃ t, exec .heRefclkLoss s = .next t ∧
      Only (places [revoking] [.he, .ctl, .cmds, .fs, .mx, .nsWait, .mm, .tw, .dg, .mg, .reg Reg.GEN_RSTCAUSE.PERST]) s t ∧ (t.port p).up =
      false ∧ (t.con p).en = false ∧ isOn Reg.GEN_RSTCAUSE.PERST t = true ∧ (∀ c ∈ t.cmds, c.port ≠ p)) ∧
  (∀ (s : State), ∃ t, exec .gfRefclkLoss s = .next t ∧ Only (places [posting, logging, revoking, windowLog, sending,
      poisoned] [.reg Reg.HE_EPCNT.A_COUNT, .reg Reg.HE_EPCNT.B_COUNT, .reg Reg.ME_MERGE.EVICT, .reg Reg.GF_XFER.RESENT,
      .reg Reg.GF_ERR.LINKDOWN]) s t ∧ (∀ k, k < 12 → (getLink k t).up = false)) ∧
  (∀ (what : ClockLoss) (s : State), s.gen.mode ≠ .reset ∧ s.gen.mode ≠ .drain ∧ s.gen.mode ≠ .quarantine → ∃ t, exec (.mgXtalLoss what) s =
      .next t ∧ Only (places [posting, logging, revoking, disarming] [.gen, .cmds, .mx, .mm, .tw, .dg, .prov,
      .reg Reg.GEN_DRAIN.ACTIVE]) s t ∧ t.gen.mode = .quarantine ∧ t.gen.cause = 20 ∧ t.ctl.a.cfs = true ∧ t.ctl.b.cfs = true ∧ t.cmds = []) ∧
  (∀ (channel : Fin 8) (s : State), dramFatalMode s.gen.mode = true → s.me.chOk.testBit channel.val = true → ∃ t,
      exec (.dramChannelTrainingLoss channel) s = .next t ∧ Only (places [posting, logging, revoking, disarming] [.gen, .cmds, .mx, .mm,
      .me, .tw, .dg, .prov, .reg Reg.GEN_DRAIN.ACTIVE]) s t ∧ t.me.chOk = s.me.chOk - 2 ^ channel.val ∧ t.gen.mode = .quarantine ∧
      t.gen.cause = 20) ∧
  (∀ (channel : Fin 8) (s : State), dramFatalMode s.gen.mode = false → s.me.chOk.testBit channel.val = true →
      exec (.dramChannelTrainingLoss channel) s = .next ({ s with me := { s.me with chOk := s.me.chOk - 2 ^ channel.val } }))

/-- The boot ROM verifies the blocks and chooses one. Rules: R358, R359, R381, R382, R40, R42, R312. -/
def Obligations.BootVerification : Prop :=
  (∀ (slot1 slot2 : SlotImage) (s : State), s.gen.mode = .boot → s.gen.bootVerified = false → s.gen.bootRow ≠ 5 → s.ff.half = [] →
      s.ff.selBlock = 0 → verifyImage slot1 s = 0 → ∃ t, exec (.bootImageVerify slot1 slot2) s = .next t ∧ Only [.gen, .dg, .mg, .ff,
      .reg Reg.GEN_START.BOOTBLK, .reg Reg.DG_SEC.BOOTFAIL, .reg Reg.DG_RNG.HEALTH, .reg Reg.DG_RNG.RESEEDS, .reg Reg.DG_ERR.BOOTFAIL,
      .reg Reg.MG_STAT.RUN, .reg Reg.MG_STAT.SLOT, .reg Reg.FF_WEAR.HALFERASED] s t ∧ t.gen.bootVerified = true ∧ t.gen.bootRow = 0 ∧
      t.mg.run = true ∧ t.dg.runImg = some slot1 ∧ t.dg.meas = measOf slot1 ∧ t.dg.kctxGen = s.dg.kctxGen + 1 ∧ isOn Reg.MG_STAT.RUN t =
      true ∧ getF Reg.MG_STAT.SLOT t = 0 ∧ getF Reg.GEN_START.BOOTBLK t = 0) ∧
  (∀ (slot1 slot2 : SlotImage) (s : State), s.gen.mode = .boot → s.gen.bootVerified = false → s.gen.bootRow ≠ 5 → s.ff.half = [] →
      s.ff.selBlock = 0 → verifyImage slot1 s ≠ 0 → verifyImage slot2 s = 0 → ∃ t, exec (.bootImageVerify slot1 slot2) s = .next t ∧
      Only [.gen, .dg, .mg, .ff, .reg Reg.GEN_START.BOOTBLK, .reg Reg.DG_SEC.BOOTFAIL, .reg Reg.DG_RNG.HEALTH, .reg Reg.DG_RNG.RESEEDS,
      .reg Reg.DG_ERR.BOOTFAIL, .reg Reg.MG_STAT.RUN, .reg Reg.MG_STAT.SLOT, .reg Reg.FF_WEAR.HALFERASED] s t ∧ t.gen.bootVerified = true ∧
      t.gen.bootRow = 4 ∧ t.mg.run = true ∧ t.dg.runImg = some slot2 ∧ getF Reg.MG_STAT.SLOT t = 1 ∧ getF Reg.GEN_START.BOOTBLK t = 1 ∧
      isOn Reg.DG_ERR.BOOTFAIL t = true ∧ getF Reg.DG_SEC.BOOTFAIL t = verifyImage slot1 s % 2 ^ Reg.DG_SEC.BOOTFAIL.width) ∧
  (∀ (slot1 slot2 : SlotImage) (s : State), s.gen.mode = .boot → s.gen.bootVerified = false → s.gen.bootRow ≠ 5 → s.ff.half = [] →
      s.ff.selBlock = 0 → verifyImage slot1 s ≠ 0 → verifyImage slot2 s ≠ 0 → ∃ t, exec (.bootImageVerify slot1 slot2) s = .next t ∧
      Only [.gen, .dg, .mg, .ff, .reg Reg.GEN_START.BOOTBLK, .reg Reg.DG_SEC.BOOTFAIL, .reg Reg.DG_RNG.HEALTH, .reg Reg.DG_RNG.RESEEDS,
      .reg Reg.DG_ERR.BOOTFAIL, .reg Reg.MG_STAT.RUN, .reg Reg.MG_STAT.SLOT, .reg Reg.FF_WEAR.HALFERASED] s t ∧ t.gen.bootVerified = false ∧
      t.gen.bootRow = 5 ∧ t.mg.run = s.mg.run ∧ t.dg = s.dg ∧ isOn Reg.DG_ERR.BOOTFAIL t = true) ∧
  (∀ (s : State), s.gen.mode = .boot → s.gen.bootVerified = true → s.gen.hostReleased = false → ∃ t, exec .hostIslandRelease s = .next t ∧
      Only [.out, .pins, .gen, .gf, .mg, .reg Reg.GF_DISC.COUNT] s t ∧ t.gen.hostReleased = true ∧ t.gen.mode = .boot ∧ t.gf.discovering =
      true ∧ t.gf.candUid = s.fuses.uid ∧ t.gf.candDist = 0 ∧ t.gf.isCoord = false ∧ t.pins.huTest = true ∧ t.mg.verifying =
      some (getF Reg.MG_HUSTAT.VOLT s) ∧ getF Reg.GF_DISC.COUNT t = Nat.min (getF Reg.GF_DISC.COUNT s +
      1) (2 ^ Reg.GF_DISC.COUNT.width - 1))

/-- Training of DRAM and of the channels, roots and the resident map. Rules: R258, R259, R296, R167, R173, R220, R39, R163. -/
def Obligations.MediaAndDramTraining : Prop :=
  (∀ (sizeGiB : Nat) (trained : BitVec 8) (hpprFails : List Nat) (s : State), trainMode s.gen.mode = true → ∃ t,
      exec (.dramTraining sizeGiB trained hpprFails) s = .next t ∧ Only [.me, .reg Reg.ME_REPAIR.HPPR] s t ∧ t.me.dramGiB = sizeGiB ∧
      t.me.chOk = trained.toNat ∧ t.me.poisoned = [] ∧ t.me.remap = s.me.remap.filter (fun p => hpprFails.contains p) ∧ t.me.exported =
      s.me.exported ∧ getF Reg.ME_REPAIR.HPPR t = 0) ∧
  (∀ (channel : Fin 64) (failedTwice : Option TrainStep) (dies : List DieFound) (s : State), trainMode s.gen.mode = true → failedTwice =
      none → s.prov.valid = false → ∃ t, exec (.channelTraining channel failedTwice dies) s = .next t ∧ Only (places [posting, logging,
      revoking, windowLog, sending, disarming] [.gen, .sh, .lost, .mx, .ns, .mm, .sp, .cs, .tw, .dg, .nand, .ff, .prov,
      .reg Reg.MX_ERR.CEILHOLD, .reg Reg.MM_ERR.SHORTCLOSE, .reg Reg.SP_LOSTCNT.POSITIONS, .reg Reg.SP_ERR.NOSPARE,
      .reg Reg.SP_ERR.THREEMISS, .reg Reg.SP_ERR.SPAREFAIL, .reg Reg.CS_ERR.TRAINFAIL, .reg Reg.FI_ERR.REALFAULT]) s t ∧ (∀ x,
      t.cs.chans[channel.val]? = some x → x.ok = true ∧ x.retrain = 0) ∧ (∀ k, k ≠ channel.val → t.cs.chans[k]? = s.cs.chans[k]?) ∧
      t.nand.dies = (discoverDies channel.val (dies.filter (fun f => decide (f.pos < diePositions s))) s.nand).dies ∧ t.nand.factoryBad =
      (discoverDies channel.val (dies.filter (fun f => decide (f.pos < diePositions s))) s.nand).factoryBad ∧ t.sp = s.sp ∧ t.prov = s.prov) ∧
  (∀ (channel : Fin 64) (failedTwice : Option TrainStep) (step : TrainStep) (dies : List DieFound) (s : State), trainMode s.gen.mode =
      true → failedTwice = some step → s.prov.valid = false → ∃ t, exec (.channelTraining channel failedTwice dies) s = .next t ∧
      Only (places [posting, logging, revoking, windowLog, sending, disarming] [.gen, .sh, .lost, .mx, .ns, .mm, .sp, .cs, .tw, .dg, .nand,
      .ff, .prov, .reg Reg.MX_ERR.CEILHOLD, .reg Reg.MM_ERR.SHORTCLOSE, .reg Reg.SP_LOSTCNT.POSITIONS, .reg Reg.SP_ERR.NOSPARE,
      .reg Reg.SP_ERR.THREEMISS, .reg Reg.SP_ERR.SPAREFAIL, .reg Reg.CS_ERR.TRAINFAIL, .reg Reg.FI_ERR.REALFAULT]) s t ∧ (∀ x,
      t.cs.chans[channel.val]? = some x → x.ok = false) ∧ isOn Reg.CS_ERR.TRAINFAIL t = true ∧ t.nand.dies = s.nand.dies ∧ t.sp = s.sp) ∧
  (∀ (rootCopyBad anchorBad snapshotCopyBad : Bool) (peerSnapshot : Option Snap) (s : State), s.gen.mode = .boot → s.prov.valid = true →
      s.prov.pair = none → ∃ t, exec (.journalRootRead rootCopyBad anchorBad snapshotCopyBad peerSnapshot) s = .next t ∧ Only [.sp,
      .reg Reg.GEN_START.KIND, .reg Reg.GEN_START.DRAINOK, .reg Reg.MX_ERR.ROOTCOPY, .reg Reg.SP_ERR.SJCOPY, .reg Reg.SP_ERR.SJLOST] s t ∧
      t.sp.taken = s.nand.snaps.head? ∧ t.sp.snapSeq = (s.nand.snaps.head?.map (·.seq)).getD 0 ∧ getF Reg.GEN_START.KIND t =
      (if cleanKind s then 0 else 1) ∧ getF Reg.GEN_START.DRAINOK t = (if s.nand.drainDone then 1 else 0) ∧ ((rootCopyBad || anchorBad) =
      true → isOn Reg.MX_ERR.ROOTCOPY t = true) ∧ (snapshotCopyBad = true → isOn Reg.SP_ERR.SJCOPY t = true) ∧ (s.nand.snaps = [] →
      isOn Reg.SP_ERR.SJLOST t = true)) ∧
  (∀ (s : State), s.gen.mode = .boot → s.prov.valid = true → ∃ t, exec .residentMapLoad s = .next t ∧ Only [.mx, .ns, .mm, .dg] s t ∧ t.ns =
      s.prov.ns.map (withCsns (((newestRoot s).map (·.nsCsn)).getD [])) ∧ t.mx.csn = s.nand.ceil ∧ t.mx.ceil = s.nand.ceil ∧ t.mx.map =
      ((newestRoot s).map (·.map)).getD [] ∧ t.mx.staged = [] ∧ t.mx.jseq = maxOf (s.nand.segs.map (·.seq)) ∧ t.mm.vat = s.nand.phys.vat ∧
      t.dg.barrelDigests = ((newestRoot s).map (·.digests)).getD [])

/-- Recovery after a power loss and the end of start-up. Rules: R34, R35, R38, R173, R174, R197, R203, R221, R335. -/
def Obligations.MapRecoveryAndStart : Prop :=
  (∀ (unreadableSegs : List Nat) (unreadable : List (Nat × Nat)) (replayMs scanMs : Nat) (s : State), s.gen.mode = .boot → s.prov.valid =
      true → getF Reg.GEN_START.KIND s = 1 → s.mx.recovered = false → ∃ t, exec (.mapRecovery unreadableSegs unreadable replayMs scanMs) s =
      .next t ∧ Only (places [posting, logging, revoking, windowLog, sending] [.sh, .defFaults, .lost, .mx, .ns, .mm, .tw, .nand,
      .reg Reg.GEN_START.DRAINOK, .reg Reg.MX_STARTUP.REPLAY, .reg Reg.MX_STARTUP.SCAN, .reg Reg.MX_SCAN.BARRELS, .reg Reg.MX_SCAN.DUPS,
      .reg Reg.MX_ERR.JNLCOPY, .reg Reg.MX_ERR.JNLGAP, .reg Reg.MM_ERR.SHORTCLOSE]) s t ∧ t.mx.recovered = true ∧ t.mx.jpend = [] ∧
      t.mx.jfly = none ∧ getF Reg.MX_STARTUP.REPLAY t = Nat.min replayMs (2 ^ Reg.MX_STARTUP.REPLAY.width - 1) ∧
      getF Reg.MX_STARTUP.SCAN t = Nat.min scanMs (2 ^ Reg.MX_STARTUP.SCAN.width - 1)) ∧
  (∀ (unreadableSegs : List Nat) (unreadable : List (Nat × Nat)) (replayMs scanMs : Nat) (s : State), getF Reg.GEN_START.KIND s ≠ 1 →
      exec (.mapRecovery unreadableSegs unreadable replayMs scanMs) s = .next s) ∧
  (∀ (die block : Nat) (blankPass1 blankPass2 : Bool) (s : State), s.mx.redo.contains (die, block) = true → blankPass1 = true ∨ blankPass2 =
      true → ∃ t, exec (.halfErasedBlockRedo die block blankPass1 blankPass2) s = .next t ∧ Only (places [posting, logging, revoking,
      windowLog, sending, disarming] [.gen, .sh, .lost, .mx, .ns, .mm, .sp, .cs, .tw, .dg, .nand, .ff, .prov, .reg Reg.MX_ERR.CEILHOLD,
      .reg Reg.MM_RETIRE.COUNT, .reg Reg.MM_RETLAST.DIE, .reg Reg.MM_RETLAST.BLOCK, .reg Reg.MM_RETLAST.CAUSE, .reg Reg.MM_ERR.BLANKFAIL,
      .reg Reg.MM_ERR.SHORTCLOSE, .reg Reg.MM_ERR.ROWWD, .reg Reg.SP_LOSTCNT.POSITIONS, .reg Reg.SP_ERR.NOSPARE, .reg Reg.SP_ERR.THREEMISS,
      .reg Reg.SP_ERR.SPAREFAIL, .reg Reg.FI_ERR.REALFAULT]) s t ∧ (getBlk die block t).erases = Nat.min ((getBlk die block s).erases +
      (if blankPass1 then 2 else 3)) 16777215 ∧ (getBlk die block t).reads = 0 ∧ t.mx.redo = s.mx.redo.filter (fun x => decide (x ≠ (die,
      block))) ∧ (blankPass1 = false → isOn Reg.MM_ERR.BLANKFAIL t = true)) ∧
  (∀ (unreadable : List (Nat × Nat)) (s : State), s.gen.mode = .boot → s.prov.valid = true → s.sp.stripesDone = false → ∃ t,
      exec (.openStripeCompletion unreadable) s = .next t ∧ Only (places [posting, logging, revoking, windowLog, sending] [.sh, .defFaults,
      .lost, .mx, .mm, .sp, .tw, .nand, .reg Reg.SP_ERR.ORPHAN]) s t ∧ t.sp.stripesDone = true ∧ (getF Reg.GEN_START.KIND s ≠ 1 → t =
      { s with sp := { s.sp with stripesDone := true } })) ∧
  (∀ (durationMs : Nat) (s : State), s.gen.mode = .boot → s.gen.bootRow = 5 → ∃ t, exec (.startupComplete durationMs) s = .next t ∧
      Only (places [posting, logging, revoking, windowLog, sending, disarming] [.freeCtr, .gen, .cmds, .mx, .ns, .mm, .tw, .dg, .nand, .ff,
      .prov, .fuses, .reg Reg.GEN_START.DURATION, .reg Reg.GEN_DRAIN.ACTIVE, .reg Reg.MX_ERR.CEILHOLD, .reg Reg.DC_ERR.UNWRAP,
      .reg Reg.DC_ERR.CEKEY, .reg Reg.TW_ERR.CUTUNK]) s t ∧ t.gen.mode = .quarantine ∧ t.gen.cause = 5 ∧ t.ctl.a.cfs = true ∧ t.ctl.b.cfs =
      true) ∧
  (∀ (durationMs : Nat) (s : State), s.gen.mode = .boot → s.gen.bootRow = 4 → s.gen.bootVerified = true → ∃ t,
      exec (.startupComplete durationMs) s = .next t ∧ Only (places [posting, logging, revoking, windowLog, sending, disarming] [.freeCtr,
      .gen, .cmds, .mx, .ns, .mm, .tw, .dg, .nand, .ff, .prov, .fuses, .reg Reg.GEN_START.DURATION, .reg Reg.GEN_DRAIN.ACTIVE,
      .reg Reg.MX_ERR.CEILHOLD, .reg Reg.DC_ERR.UNWRAP, .reg Reg.DC_ERR.CEKEY, .reg Reg.TW_ERR.CUTUNK]) s t ∧ t.gen.mode = .recovery ∧
      t.gen.cause = 4) ∧
  (∀ (durationMs : Nat) (s : State), s.gen.mode = .boot → s.gen.bootRow = 0 → s.gen.bootVerified = true → s.pins.fenceIn = true → ∃ t,
      exec (.startupComplete durationMs) s = .next t ∧ Only (places [posting, logging, revoking, windowLog, sending, disarming] [.freeCtr,
      .gen, .cmds, .mx, .ns, .mm, .tw, .dg, .nand, .ff, .prov, .fuses, .reg Reg.GEN_START.DURATION, .reg Reg.GEN_DRAIN.ACTIVE,
      .reg Reg.MX_ERR.CEILHOLD, .reg Reg.DC_ERR.UNWRAP, .reg Reg.DC_ERR.CEKEY, .reg Reg.TW_ERR.CUTUNK]) s t ∧ t.gen.mode = .quarantine ∧
      t.gen.cause = 5) ∧
  (∀ (durationMs : Nat) (s : State), s.gen.mode = .boot → s.gen.bootRow = 0 → s.gen.bootVerified = true → s.pins.fenceIn = false →
      s.prov.valid = false → ∃ t, exec (.startupComplete durationMs) s = .next t ∧ Only (places [posting, logging, revoking, windowLog,
      sending, disarming] [.freeCtr, .gen, .cmds, .mx, .ns, .mm, .tw, .dg, .nand, .ff, .prov, .fuses, .reg Reg.GEN_START.DURATION,
      .reg Reg.GEN_DRAIN.ACTIVE, .reg Reg.MX_ERR.CEILHOLD, .reg Reg.DC_ERR.UNWRAP, .reg Reg.DC_ERR.CEKEY, .reg Reg.TW_ERR.CUTUNK]) s t ∧
      t.gen.mode = .provision ∧ t.gen.cause = 3 ∧ t.gen.holder = .mgmt) ∧
  (∀ (durationMs : Nat) (s : State), s.gen.mode = .boot → s.gen.bootRow = 0 → s.gen.bootVerified = true → s.pins.fenceIn = false →
      s.prov.valid = true → s.prov.migMark ≠ 1 → startMode s ≠ .ingest → ∃ t, exec (.startupComplete durationMs) s = .next t ∧
      Only (places [posting, logging, revoking, windowLog, sending, disarming] [.freeCtr, .gen, .cmds, .mx, .ns, .mm, .tw, .dg, .nand, .ff,
      .prov, .fuses, .reg Reg.GEN_START.DURATION, .reg Reg.GEN_DRAIN.ACTIVE, .reg Reg.MX_ERR.CEILHOLD, .reg Reg.DC_ERR.UNWRAP,
      .reg Reg.DC_ERR.CEKEY, .reg Reg.TW_ERR.CUTUNK]) s t ∧ t.gen.mode = startMode s ∧ t.gen.cause = 2 ∧ t.gen.prev = .boot ∧ t.gen.holder =
      (if s.prov.keepToken then .mgmt else .none))

/-- The resets that management and its own checks cause. Rules: R43, R49, R367, R80, R353. -/
def Obligations.ResetRequests : Prop :=
  (∀ (who : Writer) (key : BitVec 16) (s : State), who = .mgmt → key = 0x7B4D → s.gen.holder = .mgmt → s.gen.mode ≠ .reset ∧
      s.gen.mode ≠ .drain → (s.gen.mode = .quarantine → s.pins.fenceIn = false) → ∃ t, exec (.genResetY9 who key) s = .next t ∧ Only [.out,
      .eff, .gen, .he, .ctl, .sh, .defFaults, .lost, .cmds, .nextCmd, .fs, .mx, .ns, .nsWait, .mm, .sp, .cs, .bp, .me, .gf, .tw, .dg, .mg,
      .fi, .nand, .ff, .prov, .win 0x80000 0x100000, .win 0x88000 0xF0000] s t ∧ t.cmds = [] ∧ t.pins = s.pins ∧ t.gen.bootVerified =
      false ∧ t.gen.hostReleased = false ∧ (s.pins.porN = true ∧ s.pins.pwrFailN = true → t.gen.mode = .boot ∧ t.gen.cause = 1) ∧
      (s.pins.porN = false ∨ s.pins.pwrFailN = false → t.gen.mode = .reset ∧ t.ctl = ⟨.reset, .reset⟩)) ∧
  (∀ (who : Writer) (key : BitVec 16) (s : State), holds who s = false → ∃ t, exec (.genResetY9 who key) s = .next t ∧
      Only (places [turnedAway] []) s t ∧ isOn Reg.GEN_ERR.OWNWR t = true ∧ getF Reg.GEN_ERRADDR.OFFSET t = 0x80018 ∧
      getF Reg.GEN_ERRADDR.SRC t = writerSrc who ∧ t.gen = s.gen) ∧
  (∀ (who : Writer) (key : BitVec 16) (s : State), holds who s = true → key = 0x7B4D → s.gen.mode ≠ .reset ∧ s.gen.mode ≠ .drain → ∃ t,
      exec (.genResetManagement who key) s = .next t ∧ Only (places [posting, logging, revoking, disarming, turnedAway] [.freeCtr, .gen,
      .cmds, .mx, .mm, .tw, .dg, .ff, .prov, .reg Reg.GEN_RSTCAUSE.MGRST, .reg Reg.GEN_DRAIN.ACTIVE, .reg Reg.MG_STAT.MGRESETS,
      .reg Reg.MG_WDOG.PERIOD, .reg Reg.FF_STATUS.BUSY]) s t ∧ t.mg.run = false ∧ t.dg.sessions = [] ∧ t.dg.kctxGen = s.dg.kctxGen + 1 ∧
      isOn Reg.GEN_RSTCAUSE.MGRST t = true ∧ ((s.mg.resets.filter (fun x => decide (now s < x + 10000000000))).length < 2 → t.gen = s.gen ∧
      t.cmds = s.cmds ∧ t.he.a.doeBusy = true ∧ t.he.b.doeBusy = true ∧ t.ff.busy = none) ∧
      (2 ≤ (s.mg.resets.filter (fun x => decide (now s < x + 10000000000))).length → t.gen.mode = .quarantine ∧ (s.gen.mode ≠ .quarantine →
      t.gen.cause = 20))) ∧
  (∀ (who : Writer) (key : BitVec 16) (s : State), holds who s = false → ∃ t, exec (.genResetManagement who key) s = .next t ∧
      Only (places [turnedAway] []) s t ∧ isOn Reg.GEN_ERR.OWNWR t = true ∧ getF Reg.GEN_ERRADDR.OFFSET t = 0x80018 ∧
      getF Reg.GEN_ERRADDR.SRC t = writerSrc who ∧ t.gen = s.gen) ∧
  (∀ (s : State), s.mg.run = true → s.gen.mode ≠ .reset ∧ s.gen.mode ≠ .drain → ∃ t, exec .watchdogExpiry s = .next t ∧
      Only (places [posting, logging, revoking, disarming] [.freeCtr, .gen, .cmds, .mx, .mm, .tw, .dg, .ff, .prov,
      .reg Reg.GEN_RSTCAUSE.WDOG, .reg Reg.GEN_DRAIN.ACTIVE, .reg Reg.MG_STAT.MGRESETS, .reg Reg.MG_WDOG.PERIOD,
      .reg Reg.FF_STATUS.BUSY]) s t ∧ t.mg.run = false ∧ t.dg.sessions = [] ∧ t.dg.kctxGen = s.dg.kctxGen + 1 ∧
      isOn Reg.GEN_RSTCAUSE.WDOG t = true ∧ ((s.mg.resets.filter (fun x => decide (now s < x + 10000000000))).length < 2 → t.gen = s.gen ∧
      t.cmds = s.cmds ∧ t.he.a.doeBusy = true ∧ t.he.b.doeBusy = true ∧ t.ff.busy = none) ∧
      (2 ≤ (s.mg.resets.filter (fun x => decide (now s < x + 10000000000))).length → t.gen.mode = .quarantine ∧ (s.gen.mode ≠ .quarantine →
      t.gen.cause = 20))) ∧
  (∀ (s : State), s.gen.mode ≠ .reset ∧ s.gen.mode ≠ .drain → ∃ t,
      exec .lockstepMismatch s = .next t ∧ Only (places [posting, logging, revoking, disarming] [.freeCtr, .gen, .cmds, .mx, .mm, .tw, .dg, .ff, .prov, .reg Reg.GEN_RSTCAUSE.LOCKSTEP, .reg Reg.GEN_DRAIN.ACTIVE, .reg Reg.MG_STAT.MGRESETS, .reg Reg.MG_WDOG.PERIOD, .reg Reg.FF_STATUS.BUSY]) s t ∧ t.mg.run = false ∧ t.dg.sessions = [] ∧ t.dg.kctxGen = s.dg.kctxGen + 1 ∧ isOn Reg.GEN_RSTCAUSE.LOCKSTEP t = true ∧ ((s.mg.resets.filter (fun x => decide (now s < x + 10000000000))).length < 2 → t.gen = s.gen ∧ t.cmds = s.cmds ∧ t.he.a.doeBusy = true ∧ t.he.b.doeBusy = true ∧ t.ff.busy = none) ∧ (2 ≤ (s.mg.resets.filter (fun x => decide (now s < x + 10000000000))).length → t.gen.mode = .quarantine ∧ (s.gen.mode ≠ .quarantine → t.gen.cause = 20))) ∧
  (∀ (s : State), s.mg.run = false → exec .watchdogExpiry s = .next s) ∧
  (∀ (who : Writer) (key : BitVec 16) (s : State), holds who s = true → who = .host ∨ key ≠ 0x7B4D → exec (.genResetY9 who key) s = .next s) ∧
  (∀ (who : Writer) (key : BitVec 16) (s : State), holds who s = true → key ≠ 0x7B4D → exec (.genResetManagement who key) s = .next s)

/-- Conventional reset, FLR, CC.EN and the shutdown notification. Rules: R43, R44, R45, R79, R82, R65. -/
def Obligations.HostSideResets : Prop :=
  (∀ (cause : ConventionalCause) (s : State), hostResetMode s.gen.mode = true → ∃ t, exec (.conventionalReset cause) s = .next t ∧
      Only [.he, .ctl, .cmds, .fs, .mx, .nsWait, .mm, .bp, .tw, .dg, .mg, .regs] s t ∧ t.he.a.up = false ∧ t.he.b.up = false ∧ t.he.a.cmb =
      s.he.a.cmb ∧ t.he.b.cmb = s.he.b.cmb ∧ t.he.a.active = [] ∧ t.ctl.a.en = false ∧ t.ctl.b.en = false ∧ t.ctl.a.sqs = [] ∧ t.ctl.b.sqs =
      [] ∧ isOn Reg.GEN_RSTCAUSE.PERST t = true ∧ (∀ c ∈ t.cmds, c.port ≠ .a ∧ c.port ≠ .b)) ∧
  (∀ (port : Port) (s : State), hostResetMode s.gen.mode = true → portExists port s = true → ∃ t, exec (.functionLevelReset port) s =
      .next t ∧ Only (places [revoking] [.he, .ctl, .cmds, .fs, .mx, .nsWait, .mm, .tw, .dg, .mg, .reg Reg.GEN_RSTCAUSE.FLR0,
      .reg Reg.GEN_RSTCAUSE.FLR1]) s t ∧ (t.con port).en = false ∧ (t.con port).sqs = [] ∧ (t.port port).command = 0 ∧ (t.port port).up =
      (s.port port).up ∧ (t.port port).cmb = (s.port port).cmb ∧ (t.port port).active = (s.port port).active ∧
      isOn (portF port Reg.GEN_RSTCAUSE.FLR0 Reg.GEN_RSTCAUSE.FLR1) t = true ∧ (∀ c ∈ t.cmds, c.port ≠ port)) ∧
  (∀ (port : Port) (iosqes iocqes mps ams css : Nat) (asqs acqs : Nat) (asq acq : Nat) (s : State), portExists port s = true →
      s.gen.hostReleased = true → (s.port port).d3hot = false → (s.con port).en = false → hostResetMode s.gen.mode = true →
      ccInvalid iosqes iocqes mps ams asqs acqs = false → ∃ t, exec (.ccEnSet port iosqes iocqes mps ams css asqs acqs asq acq) s =
      .next t ∧ Only [.gen, .ctl] s t ∧ (t.con port).en = true ∧ (t.con port).cfs = (s.con port).cfs ∧ (t.con port).sqs =
      [adminSq asqs asq] ∧ (t.con port).cqs = [adminCq acqs acq]) ∧
  (∀ (port : Port) (iosqes iocqes mps ams css : Nat) (asqs acqs : Nat) (asq acq : Nat) (s : State), portExists port s = true →
      s.gen.hostReleased = true → (s.port port).d3hot = false → (s.con port).en = false → hostResetMode s.gen.mode = true →
      ccInvalid iosqes iocqes mps ams asqs acqs = true → ∃ t, exec (.ccEnSet port iosqes iocqes mps ams css asqs acqs asq acq) s = .next t ∧
      Only [.gen, .ctl] s t ∧ (t.con port).cfs = true ∧ (t.con port).sqs = [] ∧ rdy port t = false) ∧
  (∀ (port : Port) (s : State), hostResetMode s.gen.mode = true → (s.con port).en = true → (s.port port).d3hot = false → ∃ t,
      exec (.ccEnClear port) s = .next t ∧ Only (places [revoking] [.ctl, .cmds, .fs, .mx, .nsWait, .mm, .tw, .dg, .mg]) s t ∧
      (t.con port).en = false ∧ (t.con port).sqs = [] ∧ (t.con port).cqs = [] ∧ (t.con port).aers = [] ∧ (t.con port).cfs =
      decide (s.gen.mode = .quarantine) ∧ (∀ c ∈ t.cmds, c.port ≠ port)) ∧
  (∀ (port : Port) (shn : BitVec 2) (s : State), hostResetMode s.gen.mode = true → portExists port s = true → s.gen.mode ≠ .quarantine →
      shn = 1 ∨ shn = 2 → (s.port port).d3hot = false → ∃ t, exec (.shutdownNotification port shn) s = .next t ∧ Only (places [posting,
      logging, poisoned] [.gen, .sh, .defFaults, .lost, .mx, .mm, .sp, .bp, .nand, .reg Reg.MX_CKPT.SWEEPS]) s t ∧ (t.con port).shst = 2 ∧
      (t.con port).shn = shn.toNat ∧ (mediaMode s.gen.mode = true → s.mx.recovered = true → t.gen.cleanStop = true)) ∧
  (∀ (port : Port) (shn : BitVec 2) (s : State), hostResetMode s.gen.mode = true → portExists port s = true → s.gen.mode ≠ .quarantine →
      shn ≠ 1 ∧ shn ≠ 2 → (s.port port).d3hot = false → exec (.shutdownNotification port shn) s =
      .next (s.updCon port (fun c => { c with shn := shn.toNat })))

/-- GEN_MODEREQ: the keys, the token and the modes a request may name. Rules: R34, R36, R49. -/
def Obligations.ModeRequests : Prop :=
  (∀ (who : Writer) (key : BitVec 16) (s : State), holds who s = true → s.gen.mode = .service → key = 0xA1A1 →
      exec (.genModereqDiagnostic who key) s = .next ({ s with gen := { s.gen with reqTarget := some .diagnostic } })) ∧
  (∀ (who : Writer) (key : BitVec 16) (s : State), holds who s = true → s.gen.mode = .service → key = 0x5E5E → s.gen.reqTarget =
      some .diagnostic → exec (.genModereqDiagnostic who key) s =
      .next ({ s with gen := { s.gen with reqTarget := none, diagPending := true } })) ∧
  (∀ (who : Writer) (key : BitVec 16) (s : State), holds who s = true → s.gen.mode ≠ .service → key ≠ 0 → ∃ t,
      exec (.genModereqDiagnostic who key) s = .next t ∧ Only [.gen, .reg Reg.GEN_ERR.MODEREQ, .reg Reg.GEN_ERRADDR.OFFSET,
      .reg Reg.GEN_ERRADDR.SRC] s t ∧ isOn Reg.GEN_ERR.MODEREQ t = true ∧ getF Reg.GEN_ERRADDR.OFFSET t = 0x80008 ∧
      getF Reg.GEN_ERRADDR.SRC t = writerSrc who ∧ t.gen = { s.gen with reqTarget := none }) ∧
  (∀ (who : Writer) (key : BitVec 16) (s : State), holds who s = false → ∃ t, exec (.genModereqDiagnostic who key) s = .next t ∧
      Only (places [turnedAway] []) s t ∧ isOn Reg.GEN_ERR.OWNWR t = true ∧ getF Reg.GEN_ERRADDR.OFFSET t = 0x80008 ∧
      getF Reg.GEN_ERRADDR.SRC t = writerSrc who ∧ t.gen = s.gen) ∧
  (∀ (s : State), s.gen.mode = .service → s.gen.diagPending = true → boundedDone s = true → ∃ t, exec .diagnosticEntry s = .next t ∧
      Only (places [posting, logging, disarming] [.gen, .prov]) s t ∧ t.gen.mode = .diagnostic ∧ t.gen.cause = 18 ∧ t.gen.prev = .service ∧
      t.gen.diagPending = false ∧ t.cmds = s.cmds) ∧
  (∀ (s : State), s.gen.mode ≠ .service ∨ s.gen.diagPending = false ∨ boundedDone s = false → exec .diagnosticEntry s = .next s) ∧
  (∀ (who : Writer) (key : BitVec 16) (s : State), holds who s = true → s.gen.mode = .diagnostic → key = 0x5E5E → ∃ t,
      exec (.genModereqService who key) s = .next t ∧ Only (places [posting, logging, disarming, turnedAway] [.gen, .prov,
      .reg Reg.GEN_ERR.MODEREQ]) s t ∧ t.gen.mode = .service ∧ t.gen.cause = 19 ∧ t.gen.prev = .diagnostic) ∧
  (∀ (who : Writer) (key : BitVec 16) (s : State), holds who s = true → s.gen.mode ≠ .diagnostic → key ≠ 0 → ∃ t,
      exec (.genModereqService who key) s = .next t ∧ Only [.gen, .reg Reg.GEN_ERR.MODEREQ, .reg Reg.GEN_ERRADDR.OFFSET,
      .reg Reg.GEN_ERRADDR.SRC] s t ∧ isOn Reg.GEN_ERR.MODEREQ t = true ∧ getF Reg.GEN_ERRADDR.OFFSET t = 0x80008 ∧
      getF Reg.GEN_ERRADDR.SRC t = writerSrc who ∧ t.gen = { s.gen with reqTarget := none }) ∧
  (∀ (who : Writer) (key : BitVec 16) (s : State), holds who s = true → hostResetMode s.gen.mode = true → s.gen.mode ≠ .quarantine → key =
      0x5E5E → ∃ t, exec (.genModereqQuarantine who key) s = .next t ∧ Only (places [posting, logging, revoking, disarming,
      turnedAway] [.gen, .cmds, .mx, .mm, .tw, .dg, .prov, .reg Reg.GEN_ERR.MODEREQ, .reg Reg.GEN_DRAIN.ACTIVE]) s t ∧ t.gen.mode =
      .quarantine ∧ t.gen.cause = 20 ∧ t.ctl.a.cfs = true ∧ t.ctl.b.cfs = true) ∧
  (∀ (who : Writer) (key : BitVec 16) (s : State), holds who s = true → s.gen.mode = .service → s.ns = [] → key = 0x5E5E → s.gen.reqTarget =
      some .provision → ∃ t, exec (.genModereqProvision who key) s = .next t ∧ Only (places [posting, logging, disarming, turnedAway] [.gen,
      .prov, .reg Reg.GEN_ERR.MODEREQ]) s t ∧ t.gen.mode = .provision ∧ t.gen.cause = 22 ∧ t.gen.reqTarget = none) ∧
  (∀ (who : Writer) (key : BitVec 16) (s : State), holds who s = true → s.gen.mode = .service → s.ns ≠ [] → key ≠ 0 → ∃ t,
      exec (.genModereqProvision who key) s = .next t ∧ Only [.gen, .reg Reg.GEN_ERR.MODEREQ, .reg Reg.GEN_ERRADDR.OFFSET,
      .reg Reg.GEN_ERRADDR.SRC] s t ∧ isOn Reg.GEN_ERR.MODEREQ t = true ∧ getF Reg.GEN_ERRADDR.OFFSET t = 0x80008 ∧
      getF Reg.GEN_ERRADDR.SRC t = writerSrc who ∧ t.gen = { s.gen with reqTarget := none }) ∧
  (∀ (s : State), exec .modereqKeyTimeout s = .next ({ s with gen := { s.gen with reqTarget := none } })) ∧
  (∀ (who : Writer) (key : BitVec 16) (s : State), holds who s = true → key = 0 → exec (.genModereqDiagnostic who key) s = .next s)

/-- The provisioning commit and the setup token. Rules: R34, R38, R49, R50, R213, R317. -/
def Obligations.ProvisioningAndToken : Prop :=
  (∀ (who : Writer) (s : State), s.gen.mode = .provision → holds who s = true → commitBad s = false → worstStartup s ≤ 55000 → ∃ t,
      exec (.provisioningCommit who) s = .next t ∧ Only (places [posting, logging, disarming, turnedAway] [.freeCtr, .gen, .mx, .mm, .sp,
      .bp, .nand, .ff, .prov, .reg Reg.GEN_ERR.RANGE, .reg Reg.GEN_START.SLOWGEO, .reg Reg.MM_RETIRE.COUNT]) s t ∧ t.gen.mode = .service ∧
      t.gen.cause = 6 ∧ t.prov.valid = true ∧ t.ff.identity = true) ∧
  (∀ (who : Writer) (s : State), s.gen.mode = .provision → holds who s = true → commitBad s = true → ∃ t, exec (.provisioningCommit who) s =
      .next t ∧ Only [.freeCtr, .reg Reg.GEN_ERR.RANGE, .reg Reg.GEN_ERRADDR.OFFSET, .reg Reg.GEN_ERRADDR.SRC] s t ∧
      isOn Reg.GEN_ERR.RANGE t = true ∧ getF Reg.GEN_ERRADDR.SRC t = writerSrc who ∧ t.prov = s.prov ∧ t.gen = s.gen) ∧
  (∀ (who : Writer) (s : State), s.gen.mode ≠ .provision → exec (.provisioningCommit who) s = .next s) ∧
  (∀ (who : Writer) (s : State), s.gen.holder = .none → exec (.genOwnerClaim who) s =
      .next ({ s with gen := { s.gen with holder := writerHolder who } })) ∧
  (∀ (who : Writer) (s : State), s.gen.holder ≠ .none → holds who s = false → ∃ t, exec (.genOwnerClaim who) s = .next t ∧
      Only (places [turnedAway] []) s t ∧ isOn Reg.GEN_ERR.OWNWR t = true ∧ getF Reg.GEN_ERRADDR.OFFSET t = 0x8000C ∧
      getF Reg.GEN_ERRADDR.SRC t = writerSrc who ∧ t.gen = s.gen) ∧
  (∀ (who : Writer) (s : State), holds who s = true → exec (.genOwnerClaim who) s = .next s) ∧
  (∀ (who : Writer) (s : State), holds who s = true → exec (.genOwnerRelease who) s =
      .next ({ s with gen := { s.gen with holder := .none } })) ∧
  (∀ (who : Writer) (s : State), holds who s = false → ∃ t, exec (.genOwnerRelease who) s = .next t ∧ Only (places [turnedAway] []) s t ∧
      isOn Reg.GEN_ERR.OWNWR t = true ∧ getF Reg.GEN_ERRADDR.OFFSET t = 0x8000C ∧ getF Reg.GEN_ERRADDR.SRC t = writerSrc who ∧ t.gen =
      s.gen) ∧
  (∀ (s : State), s.gen.holder ≠ .mgmt → ∃ t, exec (.genOwnerSeize .mgmt) s = .next t ∧ Only (places [posting, turnedAway] [.gen,
      .reg Reg.GEN_OWNER.SEIZED]) s t ∧ t.gen.holder = .mgmt ∧ isOn Reg.GEN_OWNER.SEIZED t = true ∧ t.gen.mode = s.gen.mode) ∧
  (∀ (s : State), ∃ t, exec (.genOwnerSeize .host) s = .next t ∧ Only (places [turnedAway] []) s t ∧ isOn Reg.GEN_ERR.OWNWR t = true ∧
      getF Reg.GEN_ERRADDR.OFFSET t = 0x8000C ∧ getF Reg.GEN_ERRADDR.SRC t = 1 ∧ t.gen = s.gen) ∧
  (∀ (who : Writer) (s : State), holds who s = true → exec (.genOwnerSeizedClear who) s = .next (setF Reg.GEN_OWNER.SEIZED 0 s)) ∧
  (∀ (who : Writer) (s : State), holds who s = false → ∃ t, exec (.genOwnerSeizedClear who) s = .next t ∧
      Only (places [turnedAway] []) s t ∧ isOn Reg.GEN_ERR.OWNWR t = true ∧ getF Reg.GEN_ERRADDR.OFFSET t = 0x8000C ∧
      getF Reg.GEN_ERRADDR.SRC t = writerSrc who ∧ t.gen = s.gen) ∧
  (∀ (who : Writer) (s : State), s.gen.mode = .provision → holds who s = true → commitBad s = false → ∃ t,
      exec (.provisioningCommit who) s = .next t ∧ Only (places [posting, logging, disarming, turnedAway] [.freeCtr, .gen, .mx, .mm, .sp,
      .bp, .nand, .ff, .prov, .reg Reg.GEN_ERR.RANGE, .reg Reg.GEN_START.SLOWGEO, .reg Reg.MM_RETIRE.COUNT]) s t ∧ (55000 < worstStartup s →
      isOn Reg.GEN_START.SLOWGEO t = true ∧ t = flagOn Reg.GEN_START.SLOWGEO s))

/-- Register writes, latching reads and staged commits. Rules: R418, R78, R51, R61. -/
def Obligations.SetupRegisters : Prop :=
  (∀ (who : Writer) (offset : Nat) (value : Word) (poisoned : Bool) (s : State), who = .host → memOpen (offPort offset) s = false →
      exec (.registerWrite who offset value poisoned) s = .next s) ∧
  (∀ (who : Writer) (offset : Nat) (value : Word) (poisoned : Bool) (s : State), who = .host → memOpen (offPort offset) s = true →
      poisoned = true → ∃ t, exec (.registerWrite who offset value poisoned) s = .next t ∧ Only [.freeCtr, .out, .eff, .gen, .he, .ctl, .sh,
      .defFaults, .lost, .cmds, .nextCmd, .fs, .mx, .ns, .nsWait, .mm, .sp, .cs, .bp, .me, .gf, .tw, .dg, .mg, .fi, .nand, .ff, .prov,
      .fuses, .regs] s t ∧ isOn (portF (offPort offset) Reg.HE_ERRSTAT.A_POISRX Reg.HE_ERRSTAT.B_POISRX) t = true ∧ t =
      poisonRx (offPort offset) s) ∧
  (∀ (value : Word) (poisoned : Bool) (s : State), setupOpen .mgmt s = true → holds .mgmt s = true → ∃ t,
      exec (.registerWrite .mgmt Reg.MM_STREAM.HOT.reg value poisoned) s = .next t ∧ Only [.reg Reg.MM_STREAM.HOT] s t ∧
      getF Reg.MM_STREAM.HOT t = value.toNat % 65536) ∧
  (∀ (value : Word) (poisoned : Bool) (s : State), setupOpen .mgmt s = true → holds .mgmt s = false → ∃ t,
      exec (.registerWrite .mgmt Reg.MM_STREAM.HOT.reg value poisoned) s = .next t ∧ Only (places [turnedAway] []) s t ∧
      isOn Reg.GEN_ERR.OWNWR t = true ∧ getF Reg.GEN_ERRADDR.OFFSET t = 0xa8008) ∧
  (∀ (value : Word) (poisoned : Bool) (s : State), setupOpen .mgmt s = true → holds .mgmt s = true → blocksEnabled s = true →
      value.toNat % 2 ≠ getF Reg.DC_CFG.SHAPEPOL s → ∃ t, exec (.registerWrite .mgmt Reg.DC_CFG.SHAPEPOL.reg value poisoned) s = .next t ∧
      Only [.reg Reg.GEN_ERR.LOCKWR, .reg Reg.GEN_ERRADDR.OFFSET, .reg Reg.GEN_ERRADDR.SRC] s t ∧ isOn Reg.GEN_ERR.LOCKWR t = true ∧
      getF Reg.GEN_ERRADDR.OFFSET t = 0xb8000) ∧
  (∀ (who : Writer) (offset : Nat) (s : State), setupOpen who s = true → (who = .host → memOpen (offPort offset) s = true) → offset =
      Reg.MX_CSNLO.CSN.reg → ∃ t, exec (.latchingRead who offset) s = .next t ∧ Only [.out, .he, .reg Reg.MX_CSNHI.CSN,
      .reg Reg.MX_CEILHI.CEIL, .reg Reg.MX_JSEQHI.SEQ, .reg Reg.SP_SJSEQHI.SEQ, .reg Reg.ME_LASTHI.ADDR, .reg Reg.TW_ACKHI.CSN] s t ∧
      t.out = .reg offset (readReg .a offset s) :: s.out ∧ getF Reg.MX_CSNHI.CSN t = s.mx.csn / 2 ^ 32 % 2 ^ Reg.MX_CSNHI.CSN.width) ∧
  (∀ (who : Writer) (offset : Nat) (s : State), setupOpen who s = false → exec (.latchingRead who offset) s = .next s) ∧
  (∀ (s : State), exec (.stagedCommitPoint .journalFlush) s = .next (putEff Reg.GEN_DRAIN.DIRTYCAP (getF Reg.GEN_DRAIN.DIRTYCAP s) s)) ∧
  (∀ (s : State), exec (.stagedCommitPoint .turnEnd) s = .next (putEff Reg.FS_VAT.GROUPS (getF Reg.FS_VAT.GROUPS s) s)) ∧
  (∀ (s : State), exec (.stagedCommitPoint .sweepStart) s = .next (putEff Reg.MX_CKPT.RATE (getF Reg.MX_CKPT.RATE s) s)) ∧
  (∀ (boundary value : Nat) (s : State), s.fs.horizon = [(boundary, Reg.FS_CFG.WINRDS.key, value)] → boundary < fretNow s →
      exec (.stagedCommitPoint .horizonBoundary) s = .next ({ putEff Reg.FS_CFG.WINRDS value s with fs := { s.fs with horizon := [] } })) ∧
  (∀ (port : Port) (dword : Fin 6) (value : Word) (s : State), portExists port s = true → heAnswers s = true →
      exec (.configBarWrite port dword value) s =
      .next (configDone port (s.updPort port (fun h => { h with bars := h.bars.set dword.val (BitVec.ofNat 32 (value.toNat / 2 ^ (barShape port dword.val s).2 * 2 ^ (barShape port dword.val s).2)) })))) ∧
  (∀ (who : Writer) (offset : Nat) (value : Word) (poisoned : Bool) (s : State), setupOpen who s = true → (who = .host →
      memOpen (offPort offset) s = true ∧ poisoned = false) → offset < 2 ^ 21 → 0x80000 ≤ offset % 2 ^ 20 → ∃ t,
      exec (.registerWrite who offset value poisoned) s = .next t ∧ Only [.freeCtr, .out, .eff, .gen, .he, .ctl, .sh, .defFaults, .lost,
      .cmds, .nextCmd, .fs, .mx, .ns, .nsWait, .mm, .sp, .cs, .bp, .me, .gf, .tw, .dg, .mg, .fi, .nand, .ff, .prov, .fuses, .regs] s t ∧ t =
      busWrite who (offset % 2 ^ 20 / 4 * 4) value.toNat s) ∧
  (∀ (offset : Nat) (value : Word) (poisoned : Bool) (s : State), setupOpen .mgmt s = true → 0x10080000 ≤ offset → offset < 0x10100000 →
      isRemote offset = false → ∃ t, exec (.registerWrite .mgmt offset value poisoned) s = .next t ∧ Only [.freeCtr, .out, .eff, .gen, .he,
      .ctl, .sh, .defFaults, .lost, .cmds, .nextCmd, .fs, .mx, .ns, .nsWait, .mm, .sp, .cs, .bp, .me, .gf, .tw, .dg, .mg, .fi, .nand, .ff,
      .prov, .fuses, .regs] s t ∧ t = busWrite .mgmt ((offset - 0x10000000) % 2 ^ 20 / 4 * 4) value.toNat s) ∧
  (∀ (offset : Nat) (value : Word) (poisoned : Bool) (s : State), setupOpen .mgmt s = true → 2 ^ 21 ≤ offset → addrKind offset s =
      .unmapped → exec (.registerWrite .mgmt offset value poisoned) s = .next (emit (.busError offset) s)) ∧
  (∀ (who : Writer) (offset : Nat) (s : State), setupOpen who s = true → (who = .host → memOpen (offPort offset) s = true) →
      offset < 2 ^ 21 → ∃ t, exec (.latchingRead who offset) s = .next t ∧ Only [.out, .he, .reg Reg.MX_CSNHI.CSN, .reg Reg.MX_CEILHI.CEIL,
      .reg Reg.MX_JSEQHI.SEQ, .reg Reg.SP_SJSEQHI.SEQ, .reg Reg.ME_LASTHI.ADDR, .reg Reg.TW_ACKHI.CSN] s t ∧ t.out =
      .reg (offset % 2 ^ 20 / 4 * 4) (readReg (offPort offset) (offset % 2 ^ 20 / 4 * 4) s) :: s.out ∧ t.regs =
      (latch (offset % 2 ^ 20 / 4 * 4) s).regs) ∧
  (∀ (who : Writer) (offset : Nat) (s : State), setupOpen who s = true → who = .host → memOpen (offPort offset) s = false →
      portExists (offPort offset) s = true → heAnswers s = true → ∃ t, exec (.latchingRead who offset) s = .next t ∧ Only [.out, .he,
      .reg Reg.MX_CSNHI.CSN, .reg Reg.MX_CEILHI.CEIL, .reg Reg.MX_JSEQHI.SEQ, .reg Reg.SP_SJSEQHI.SEQ, .reg Reg.ME_LASTHI.ADDR,
      .reg Reg.TW_ACKHI.CSN] s t ∧ t.out.head? = some (.tlpCpl (offPort offset) 0 cplUR [] false)) ∧
  (∀ (s : State), ∃ t, exec (.stagedCommitPoint .horizonBoundary) s = .next t ∧ Only [.eff, .fs] s t ∧ t.fs.horizon =
      s.fs.horizon.filter (fun x => decide (¬ x.1 < fretNow s)) ∧ t.eff =
      (s.fs.horizon.filter (fun x => decide (x.1 < fretNow s))).foldl (fun e x => match (stagedFields .horizonBoundary).find? (fun f => f.key == x.2.1) with | some f => sPut e f.rst f.key x.2.2 | none => e) s.eff) ∧
  (∀ (port : Port) (dword : Fin 6) (value : Word) (s : State), portExists port s = true → s.gen.hostReleased = false → s.gen.mode ≠ .reset →
      exec (.configBarWrite port dword value) s = .next (emit (.tlpCpl port 0 cplRRS [] false) s))

/-- Doorbells, the SQE fetch and shadow polling. Rules: R86, R88, R89, R90, R117, R78. -/
def Obligations.DoorbellsAndFetch : Prop :=
  (∀ (port : Port) (qid value : Nat) (poisoned : Bool) (q : Sq) (s : State), doorbellTaken port poisoned s = true →
      (s.con port).sqs.find? (fun x => x.qid == qid) = some q → value < q.size → lowState s = none →
      ((s.con port).shadow.isSome && !(s.con port).polling) = false → ∃ t, exec (.sqTailDoorbell port qid value poisoned) s = .next t ∧
      Only (places [posting, logging, disarming] [.gen, .sh, .prov, .reg Reg.HE_ERRSTAT.A_POISRX, .reg Reg.HE_ERRSTAT.B_POISRX]) s t ∧
      (t.con port).sqs = updFirst (s.con port).sqs (fun x => x.qid == qid) (fun x => x.observe value (now s)) ∧ (t.con port).cqs =
      (s.con port).cqs ∧ t.cmds = s.cmds) ∧
  (∀ (port : Port) (qid value : Nat) (poisoned : Bool) (s : State), memOpen port s = true → poisoned = true → ∃ t,
      exec (.sqTailDoorbell port qid value poisoned) s = .next t ∧ Only (places [posting, logging, disarming] [.gen, .sh, .prov,
      .reg Reg.HE_ERRSTAT.A_POISRX, .reg Reg.HE_ERRSTAT.B_POISRX]) s t ∧
      isOn (portF port Reg.HE_ERRSTAT.A_POISRX Reg.HE_ERRSTAT.B_POISRX) t = true ∧ t.ctl = s.ctl ∧ t.cmds = s.cmds) ∧
  (∀ (port : Port) (qid value : Nat) (poisoned : Bool) (s : State), memOpen port s = false → ∃ t,
      exec (.sqTailDoorbell port qid value poisoned) s = .next t ∧ Only (places [posting, logging, disarming] [.gen, .sh, .prov,
      .reg Reg.HE_ERRSTAT.A_POISRX, .reg Reg.HE_ERRSTAT.B_POISRX]) s t ∧ t.ctl = s.ctl ∧ t.out = s.out ∧ t.cmds = s.cmds ∧ (∀ f, getF f t =
      getF f s)) ∧
  (∀ (port : Port) (qid value : Nat) (poisoned : Bool) (q : Cq) (s : State), doorbellTaken port poisoned s = true →
      (s.con port).cqs.find? (fun x => x.qid == qid) = some q → value < q.size → q.held = [] → lowState s = none →
      ((s.con port).shadow.isSome && !(s.con port).polling) = false → (s.con port).sqs.filter (fun x => x.deleting.isSome) = [] → ∃ t,
      exec (.cqHeadDoorbell port qid value poisoned) s = .next t ∧ Only (places [posting, logging, disarming] [.gen, .sh, .prov,
      .reg Reg.HE_ERRSTAT.A_POISRX, .reg Reg.HE_ERRSTAT.B_POISRX, .reg Reg.QE_CQFULL.LAST]) s t ∧ (t.con port).cqs =
      updFirst (s.con port).cqs (fun x => x.qid == qid) (fun x => { x with head := value }) ∧ (t.con port).sqs = (s.con port).sqs ∧ t.cmds =
      s.cmds) ∧
  (∀ (port : Port) (q : Sq) (s : State), rdy port s = true → s.gen.mode ≠ .lowpower → fetchRoom port s = true →
      (s.con port).sqs.find? (fun x => x.qid == 0 && x.ready) = some q → inCmb port (q.base + 64 * q.head) s = false → ∃ t,
      exec (.sqeFetch port) s = .next t ∧ Only (places [poisoned] [.out, .he, .ctl, .reg Reg.HE_ERRSTAT.A_SQEFAIL,
      .reg Reg.HE_ERRSTAT.B_SQEFAIL]) s t ∧ t.out = .hostRead port (freeTag (s.port port)) (.sqe q.qid q.head) :: s.out ∧
      (t.port port).tags = (s.port port).tags ++ [⟨freeTag (s.port port), .sqe q.qid q.head, 2, false⟩] ∧ t.cmds = s.cmds) ∧
  (∀ (port : Port) (s : State), rdy port s = false ∨ s.gen.mode = .lowpower ∨ fetchRoom port s = false → exec (.sqeFetch port) s = .next s) ∧
  (∀ (port : Port) (s : State), rdy port s = true → (s.con port).shadow.isSome = true → (s.con port).polling = true → (s.con port).pollOut =
      false → pollReads port s ≠ [] → (s.port port).tags.length + (pollReads port s).length ≤ tagLimit port s → ∃ t,
      exec (.pollRound port) s = .next t ∧ Only [.out, .he, .ctl] s t ∧ t = pollIssue port s ∧ t.cmds = s.cmds) ∧
  (∀ (port : Port) (tails heads : List (Nat × Nat)) (s : State), (s.con port).pollOut = false → exec (.pollCompletion port tails heads) s =
      .next s) ∧
  (∀ (port : Port) (tails heads : List (Nat × Nat)) (s : State), (s.con port).pollOut = true → ∃ t,
      exec (.pollCompletion port tails heads) s = .next t ∧ Only (places [posting, logging, disarming] [.gen, .sh, .prov,
      .reg Reg.QE_CQFULL.LAST]) s t ∧ t =
      (fun u : State => if (u.con port).polling then eventIdxPolled port u else u) ((heads.foldl (fun t x => shadowHead port x t) (tails.foldl (fun t x => shadowTail port x t) (pollReturned port s))).updCon port (fun c => { c with polling := c.polling || ((heads.foldl (fun t x => shadowHead port x t) (tails.foldl (fun t x => shadowTail port x t) (pollReturned port s))).con port).sqs.map (·.tail) != ((pollReturned port s).con port).sqs.map (·.tail) }))) ∧
  (∀ (port : Port) (idleUs : Nat) (finalTails : List (Nat × Nat)) (s : State), (s.con port).shadow.isSome = true → (s.con port).polling =
      true → (100 ≤ idleUs ∧ portBusy port s = false) ∨ s.gen.mode = .lowpower → ∃ t, exec (.pollStop port idleUs finalTails) s = .next t ∧
      Only (places [posting, logging, disarming] [.gen, .sh, .prov, .reg Reg.QE_CQFULL.LAST]) s t ∧ t =
      pollCompletionEff port finalTails [] (stopPolling port s)) ∧
  (∀ (port : Port) (qid value : Nat) (poisoned : Bool) (q : Sq) (s : State), doorbellTaken port poisoned s = true →
      (s.con port).sqs.find? (fun x => x.qid == qid) = some q → value < q.size → ∃ t, exec (.sqTailDoorbell port qid value poisoned) s =
      .next t ∧ Only (places [posting, logging, disarming] [.gen, .sh, .prov, .reg Reg.HE_ERRSTAT.A_POISRX,
      .reg Reg.HE_ERRSTAT.B_POISRX]) s t ∧ t =
      resumePolling port (updSq port qid (fun x => x.observe value (now s)) (wakeDoorbell (doorbellIn port poisoned s)))) ∧
  (∀ (port : Port) (qid value : Nat) (poisoned : Bool) (s : State), doorbellTaken port poisoned s = true →
      (s.con port).sqs.find? (fun x => x.qid == qid) = none → ∃ t, exec (.sqTailDoorbell port qid value poisoned) s = .next t ∧
      Only (places [posting, logging, disarming] [.gen, .sh, .prov, .reg Reg.HE_ERRSTAT.A_POISRX, .reg Reg.HE_ERRSTAT.B_POISRX]) s t ∧ t =
      badDoorbell port qid true (doorbellIn port poisoned s) ∧ t.cmds = s.cmds) ∧
  (∀ (port : Port) (qid value : Nat) (poisoned : Bool) (q : Cq) (s : State), doorbellTaken port poisoned s = true →
      (s.con port).cqs.find? (fun x => x.qid == qid) = some q → value < q.size → ∃ t, exec (.cqHeadDoorbell port qid value poisoned) s =
      .next t ∧ Only (places [posting, logging, disarming] [.gen, .sh, .prov, .reg Reg.HE_ERRSTAT.A_POISRX, .reg Reg.HE_ERRSTAT.B_POISRX,
      .reg Reg.QE_CQFULL.LAST]) s t ∧ t = resumePolling port (cqHeadSeen port qid value (wakeDoorbell (doorbellIn port poisoned s)))) ∧
  (∀ (port : Port) (q : Sq) (s : State), rdy port s = true → s.gen.mode ≠ .lowpower → fetchRoom port s = true →
      (s.con port).sqs.find? (fun x => x.qid == 0 && x.ready) = some q → ∃ t, exec (.sqeFetch port) s = .next t ∧
      Only (places [poisoned] [.out, .he, .ctl, .reg Reg.HE_ERRSTAT.A_SQEFAIL, .reg Reg.HE_ERRSTAT.B_SQEFAIL]) s t ∧ t =
      fetchFrom port q s ∧ t.cmds = s.cmds) ∧
  (∀ (port : Port) (q : Sq) (c : Ctl) (s : State), rdy port s = true → s.gen.mode ≠ .lowpower → fetchRoom port s = true →
      (s.con port).sqs.find? (fun x => x.qid == 0 && x.ready) = none →
      arbitrate { s.con port with sqs := (s.con port).sqs.filter (fun x => !s.cmds.any (fun c => decide (c.port = port ∧ c.sq = x.qid ∧ c.stage = .waiting))) } =
      some (q, c) → ∃ t, exec (.sqeFetch port) s = .next t ∧ Only (places [poisoned] [.out, .he, .ctl, .reg Reg.HE_ERRSTAT.A_SQEFAIL,
      .reg Reg.HE_ERRSTAT.B_SQEFAIL]) s t ∧ t = fetchFrom port q (s.updCon port (fun _ => { c with sqs := (s.con port).sqs }))) ∧
  (∀ (port : Port) (idleUs : Nat) (finalTails : List (Nat × Nat)) (s : State), (s.con port).shadow.isSome = false ∨ (s.con port).polling =
      false ∨ (idleUs < 100 ∧ s.gen.mode ≠ .lowpower) → exec (.pollStop port idleUs finalTails) s = .next s)

/-- CMB accesses, window TLPs and the window sets. Rules: R60, R67, R68, R69, R70, R73, R74, R75, R56, R78. -/
def Obligations.CmbAndWindows : Prop :=
  (∀ (port : Port) (offset len tag : Nat) (s : State), memServed port s = true → offset + len ≤ cmbBytes port s →
      (linesOf offset len).any (fun l => (s.port port).cmbPoison.contains l) = false → ∃ t, exec (.cmbMmioRead port offset len tag) s =
      .next t ∧ Only (places [poisoned] [.out, .he, .reg Reg.HE_EPCNT.A_COUNT, .reg Reg.HE_EPCNT.B_COUNT]) s t ∧ t =
      readCpl port tag offset (getBytes (s.port port).cmb offset len) false (mergesDone ((linesOf offset len).map (cmbLineKey port)) s) ∧
      (t.port port).cmb = (s.port port).cmb) ∧
  (∀ (port : Port) (offset len tag : Nat) (s : State), portExists port s = true → heAnswers s = true → memServed port s = false ∨
      cmbBytes port s < offset + len → ∃ t, exec (.cmbMmioRead port offset len tag) s = .next t ∧ Only (places [poisoned] [.out, .he,
      .reg Reg.HE_EPCNT.A_COUNT, .reg Reg.HE_EPCNT.B_COUNT]) s t ∧ t = urCpl port tag s ∧ t.out.head? =
      some (.tlpCpl port tag cplUR [] false)) ∧
  (∀ (port : Port) (offset : Nat) (data : List Byte) (ep : Bool) (s : State), memServed port s = true → offset +
      data.length ≤ cmbBytes port s → ∃ t, exec (.cmbMmioWrite port offset data ep) s = .next t ∧ Only [.out, .he, .me,
      .reg Reg.HE_ERRSTAT.A_POISRX, .reg Reg.HE_ERRSTAT.B_POISRX, .reg Reg.ME_MERGE.EVICT] s t ∧ (t.port port).cmb =
      putBytes (s.port port).cmb offset data ∧ (t.port port).active = (s.port port).active ∧ (ep = true →
      isOn (portF port Reg.HE_ERRSTAT.A_POISRX Reg.HE_ERRSTAT.B_POISRX) t = true)) ∧
  (∀ (port : Port) (offset : Nat) (data : List Byte) (ep : Bool) (s : State), memServed port s = false ∨ cmbBytes port s < offset +
      data.length → exec (.cmbMmioWrite port offset data ep) s = .next s) ∧
  (∀ (port : Port) (offset len rid tag : Nat) (w : Win) (s : State), memServed port s = true → isOn Reg.HE_CFG.APMODE s = true →
      findWin (s.port port).active offset = some w → w.rd = true → ∃ t, exec (.windowTlpRead port offset len rid tag) s = .next t ∧
      Only (places [logging, revoking, windowLog, sending, poisoned] [.reg Reg.HE_EPCNT.A_COUNT, .reg Reg.HE_EPCNT.B_COUNT,
      .reg Reg.ME_MERGE.EVICT]) s t ∧ t = winSubmit port ⟨offset, destOf (w.addr offset) s, true, w.addr offset, len, tag, [], false⟩ s) ∧
  (∀ (port : Port) (offset len rid tag : Nat) (s : State), portExists port s = true → heAnswers s = true → isOn Reg.HE_CFG.APMODE s = true →
      (memServed port s = false ∨ ∀ w, findWin (s.port port).active offset = some w → w.rd = false) → ∃ t,
      exec (.windowTlpRead port offset len rid tag) s = .next t ∧ Only (places [logging, revoking, windowLog, sending,
      poisoned] [.reg Reg.HE_EPCNT.A_COUNT, .reg Reg.HE_EPCNT.B_COUNT, .reg Reg.ME_MERGE.EVICT]) s t ∧ t = urCpl port tag s ∧ t.out.head? =
      some (.tlpCpl port tag cplUR [] false)) ∧
  (∀ (port : Port) (offset : Nat) (data : List Byte) (rid : Nat) (ep : Bool) (w : Win) (s : State), memServed port s = true →
      isOn Reg.HE_CFG.APMODE s = true → findWin (s.port port).active offset = some w → w.wr = true →
      mustWait (destOf (w.addr offset) s) (s.port port) = true → ∃ t, exec (.windowTlpWrite port offset data rid ep) s = .next t ∧
      Only (places [logging, revoking, windowLog, sending, poisoned] [.reg Reg.HE_ERRSTAT.A_POISRX, .reg Reg.HE_ERRSTAT.B_POISRX,
      .reg Reg.HE_EPCNT.A_COUNT, .reg Reg.HE_EPCNT.B_COUNT, .reg Reg.ME_MERGE.EVICT]) s t ∧ (t.port port).heldTlps =
      (s.port port).heldTlps ++ [⟨offset, destOf (w.addr offset) s, false, w.addr offset, data.length, rid, data, ep⟩]) ∧
  (∀ (port : Port) (offset : Nat) (data : List Byte) (rid : Nat) (ep : Bool) (s : State), memServed port s = true →
      isOn Reg.HE_CFG.APMODE s = true → findWin (s.port port).active offset = none → ep = false →
      exec (.windowTlpWrite port offset data rid ep) s = .next (winLog port 0 offset rid s)) ∧
  (∀ (port : Port) (dest : Option Nat) (s : State), ∃ t, exec (.windowWriteAck port dest) s = .next t ∧ Only (places [logging, revoking,
      windowLog, sending, poisoned] [.reg Reg.HE_EPCNT.A_COUNT, .reg Reg.HE_EPCNT.B_COUNT, .reg Reg.ME_MERGE.EVICT]) s t ∧ t =
      releaseHeld port (s.updPort port (fun h => { h with unacked := h.unacked.erase dest })) ∧ ((s.port port).heldTlps = [] →
      (t.port port).unacked = (s.port port).unacked.erase dest ∧ (t.port port).heldTlps = [] ∧ t.out = s.out)) ∧
  (∀ (port : Port) (tag : Nat) (s : State), portExists port s = true → heAnswers s = true → ∃ t, exec (.unsupportedTlp port tag) s =
      .next t ∧ Only [.out, .he] s t ∧ t = urCpl port tag s ∧ t.out.head? = some (.tlpCpl port tag cplUR [] false)) ∧
  (∀ (port : Port) (s : State), portExists port s = true → s.gen.mode ≠ .reset → ∃ t, exec (.malformedTlp port) s = .next t ∧ Only [.out,
      .he] s t ∧ t = pcieError port aerMalformed false s ∧ ((s.port port).aer.ueMask.testBit aerMalformed = false → t.out =
      .tlpErr port (if (s.port port).aer.ueSev.testBit aerMalformed then 2 else 1) :: s.out)) ∧
  (∀ (who : Writer) (copy : Bool) (s : State), setupOpen who s = true → holds who s = true → (s.port .a).copyBusy = false →
      winBad (s.port .a).staging s (s.port .a).staging = none → ∃ t, exec (.heWincommitA who copy) s = .next t ∧
      Only (places [turnedAway] [.he, .reg Reg.HE_WINSTAT.A_BAD, .reg Reg.HE_WINSTAT.A_BUSYWR, .reg Reg.HE_WINSTAT.B_BAD,
      .reg Reg.HE_WINSTAT.B_BUSYWR, .reg Reg.HE_WINBAD.IDX, .reg Reg.HE_WINBAD.CAUSE, .reg Reg.HE_WINBAD.PORT]) s t ∧ (t.port .a).active =
      (s.port .a).staging ∧ (t.port .a).staging = (s.port .a).active ∧ (t.port .a).winGen = ((s.port .a).winGen + 1) % 256 ∧
      (t.port .a).copyBusy = copy ∧ t.port .b = s.port .b ∧ getF Reg.HE_WINSTAT.A_BAD t = 0) ∧
  (∀ (who : Writer) (copy : Bool) (s : State), setupOpen who s = true → holds who s = true → s.pins.bifur = true → (s.port .b).copyBusy =
      false → winBad (s.port .b).staging s (s.port .b).staging = none → ∃ t, exec (.heWincommitB who copy) s = .next t ∧
      Only (places [turnedAway] [.he, .reg Reg.HE_WINSTAT.A_BAD, .reg Reg.HE_WINSTAT.A_BUSYWR, .reg Reg.HE_WINSTAT.B_BAD,
      .reg Reg.HE_WINSTAT.B_BUSYWR, .reg Reg.HE_WINBAD.IDX, .reg Reg.HE_WINBAD.CAUSE, .reg Reg.HE_WINBAD.PORT]) s t ∧ (t.port .b).active =
      (s.port .b).staging ∧ (t.port .b).staging = (s.port .b).active ∧ (t.port .b).winGen = ((s.port .b).winGen + 1) % 256 ∧
      (t.port .b).copyBusy = copy ∧ t.port .a = s.port .a ∧ getF Reg.HE_WINSTAT.B_BAD t = 0) ∧
  (∀ (who : Writer) (copy : Bool) (s : State), setupOpen who s = true → holds who s = false → ∃ t, exec (.heWincommitA who copy) s =
      .next t ∧ Only (places [turnedAway] []) s t ∧ isOn Reg.GEN_ERR.OWNWR t = true ∧ t.he = s.he) ∧
  (∀ (port : Port) (s : State), (s.port port).copyBusy = true → ∃ t, exec (.windowCopyDone port) s = .next t ∧ Only [.he] s t ∧
      (t.port port).staging = (s.port port).active ∧ (t.port port).copyBusy = false ∧ (t.port port).active = (s.port port).active) ∧
  (∀ (who : Writer) (s : State), setupOpen who s = true → holds who s = true → exec (.heWinlogClr who) s =
      .next (setF Reg.HE_WINLOG.COUNT 0 s)) ∧
  (∀ (port : Port) (offset len tag : Nat) (s : State), memServed port s = true → offset + len ≤ cmbBytes port s →
      (linesOf offset len).any (fun l => (s.port port).cmbPoison.contains l) = true → ∃ t, exec (.cmbMmioRead port offset len tag) s =
      .next t ∧ Only (places [poisoned] [.out, .he, .reg Reg.HE_EPCNT.A_COUNT, .reg Reg.HE_EPCNT.B_COUNT]) s t ∧ t =
      readCpl port tag offset (getBytes (s.port port).cmb offset len) true (bump (portF port Reg.HE_EPCNT.A_COUNT Reg.HE_EPCNT.B_COUNT) (poisonConsumed (offset % 2 ^ 48) (mergesDone ((linesOf offset len).map (cmbLineKey port)) s)))) ∧
  (∀ (port : Port) (offset : Nat) (data : List Byte) (rid : Nat) (ep : Bool) (w : Win) (s : State), memServed port s = true →
      isOn Reg.HE_CFG.APMODE s = true → findWin (s.port port).active offset = some w → w.wr = true → ep = false → ∃ t,
      exec (.windowTlpWrite port offset data rid ep) s = .next t ∧ Only (places [logging, revoking, windowLog, sending,
      poisoned] [.reg Reg.HE_ERRSTAT.A_POISRX, .reg Reg.HE_ERRSTAT.B_POISRX, .reg Reg.HE_EPCNT.A_COUNT, .reg Reg.HE_EPCNT.B_COUNT,
      .reg Reg.ME_MERGE.EVICT]) s t ∧ t = winSubmit port ⟨offset, destOf (w.addr offset) s, false, w.addr offset, data.length, rid, data,
      false⟩ s) ∧
  (∀ (port : Port) (offset : Nat) (data : List Byte) (rid : Nat) (ep : Bool) (w : Win) (s : State), memServed port s = true →
      isOn Reg.HE_CFG.APMODE s = true → findWin (s.port port).active offset = some w → w.wr = true → ep = true → ∃ t,
      exec (.windowTlpWrite port offset data rid ep) s = .next t ∧ Only (places [logging, revoking, windowLog, sending,
      poisoned] [.reg Reg.HE_ERRSTAT.A_POISRX, .reg Reg.HE_ERRSTAT.B_POISRX, .reg Reg.HE_EPCNT.A_COUNT, .reg Reg.HE_EPCNT.B_COUNT,
      .reg Reg.ME_MERGE.EVICT]) s t ∧ t = winSubmit port ⟨offset, destOf (w.addr offset) (poisonRx port s), false, w.addr offset,
      data.length, rid, data, true⟩ (poisonRx port s)) ∧
  (∀ (port : Port) (offset : Nat) (data : List Byte) (rid : Nat) (ep : Bool) (w : Win) (s : State), memServed port s = true →
      isOn Reg.HE_CFG.APMODE s = true → findWin (s.port port).active offset = some w → w.wr = false → ep = false →
      exec (.windowTlpWrite port offset data rid ep) s = .next (winLog port 1 offset rid s)) ∧
  (∀ (who : Writer) (copy : Bool) (s : State), setupOpen who s = true → holds who s = true → ∃ t, exec (.heWincommitA who copy) s =
      .next t ∧ Only (places [turnedAway] [.he, .reg Reg.HE_WINSTAT.A_BAD, .reg Reg.HE_WINSTAT.A_BUSYWR, .reg Reg.HE_WINSTAT.B_BAD,
      .reg Reg.HE_WINSTAT.B_BUSYWR, .reg Reg.HE_WINBAD.IDX, .reg Reg.HE_WINBAD.CAUSE, .reg Reg.HE_WINBAD.PORT]) s t ∧ t =
      winCommit .a copy s) ∧
  (∀ (who : Writer) (copy : Bool) (s : State), setupOpen who s = true → holds who s = true → ∃ t, exec (.heWincommitB who copy) s =
      .next t ∧ Only (places [turnedAway] [.he, .reg Reg.HE_WINSTAT.A_BAD, .reg Reg.HE_WINSTAT.A_BUSYWR, .reg Reg.HE_WINSTAT.B_BAD,
      .reg Reg.HE_WINSTAT.B_BUSYWR, .reg Reg.HE_WINBAD.IDX, .reg Reg.HE_WINBAD.CAUSE, .reg Reg.HE_WINBAD.PORT]) s t ∧ t =
      winCommit .b copy s) ∧
  (∀ (port : Port) (s : State), (s.port port).copyBusy = false → exec (.windowCopyDone port) s = .next s)

/-- Read completions, link events, power states and DOE. Rules: R55, R57, R59, R64, R66, R76, R77, R79, R80, R365. -/
def Obligations.HostLink : Prop :=
  (∀ (port : Port) (tag : Nat) (poisoned : Bool) (lbas : List HostLba) (slowNs : Nat) (s : State),
      (s.port port).tags.find? (fun x => x.tag == tag) = none → ∃ t, exec (.hostReadCompletion port tag poisoned lbas slowNs) s = .next t ∧
      Only (places [posting, logging, revoking, windowLog, sending, disarming] [.freeCtr, .gen, .sh, .cmds, .mx, .ns, .nsWait, .mm, .me,
      .tw, .dg, .nand, .ff, .prov, .reg Reg.HE_ERRSTAT.A_POISRX, .reg Reg.HE_ERRSTAT.A_UNEXP, .reg Reg.HE_ERRSTAT.A_SQEFAIL,
      .reg Reg.HE_ERRSTAT.B_POISRX, .reg Reg.HE_ERRSTAT.B_UNEXP, .reg Reg.HE_ERRSTAT.B_SQEFAIL, .reg Reg.QE_HOSTXS.LAST,
      .reg Reg.QE_HOSTXS.COUNT, .reg Reg.MM_ERR.SHORTCLOSE, .reg Reg.DG_RNG.RESEEDS]) s t ∧
      isOn (portF port Reg.HE_ERRSTAT.A_UNEXP Reg.HE_ERRSTAT.B_UNEXP) t = true ∧ t =
      pcieError port aerUnexp true (flagOn (portF port Reg.HE_ERRSTAT.A_UNEXP Reg.HE_ERRSTAT.B_UNEXP) s)) ∧
  (∀ (port : Port) (tag : Nat) (poisoned : Bool) (lbas : List HostLba) (slowNs : Nat) (e : Tag) (s : State),
      (s.port port).tags.find? (fun x => x.tag == tag) = some e → e.dead = true → ∃ t,
      exec (.hostReadCompletion port tag poisoned lbas slowNs) s = .next t ∧ Only (places [posting, logging, revoking, windowLog, sending,
      disarming] [.freeCtr, .gen, .sh, .cmds, .mx, .ns, .nsWait, .mm, .me, .tw, .dg, .nand, .ff, .prov, .reg Reg.HE_ERRSTAT.A_POISRX,
      .reg Reg.HE_ERRSTAT.A_UNEXP, .reg Reg.HE_ERRSTAT.A_SQEFAIL, .reg Reg.HE_ERRSTAT.B_POISRX, .reg Reg.HE_ERRSTAT.B_UNEXP,
      .reg Reg.HE_ERRSTAT.B_SQEFAIL, .reg Reg.QE_HOSTXS.LAST, .reg Reg.QE_HOSTXS.COUNT, .reg Reg.MM_ERR.SHORTCLOSE,
      .reg Reg.DG_RNG.RESEEDS]) s t ∧ t = issueReads port (dropTag port tag s)) ∧
  (∀ (port : Port) (tag : Nat) (e : Tag) (s : State), (s.port port).tags.find? (fun x => x.tag == tag) = some e → ∃ t,
      exec (.hostReadTimeout port tag) s = .next t ∧ Only (places [posting, logging, revoking, windowLog, sending, disarming] [.freeCtr,
      .gen, .sh, .cmds, .mx, .ns, .nsWait, .mm, .tw, .dg, .nand, .ff, .prov, .reg Reg.HE_ERRSTAT.A_CTO, .reg Reg.HE_ERRSTAT.A_SQEFAIL,
      .reg Reg.HE_ERRSTAT.B_CTO, .reg Reg.HE_ERRSTAT.B_SQEFAIL, .reg Reg.MM_ERR.SHORTCLOSE, .reg Reg.DG_RNG.RESEEDS]) s t ∧
      isOn (portF port Reg.HE_ERRSTAT.A_CTO Reg.HE_ERRSTAT.B_CTO) (pcieError port aerCto false (flagOn (portF port Reg.HE_ERRSTAT.A_CTO Reg.HE_ERRSTAT.B_CTO) s)) =
      true ∧ t =
      (if e.dead then issueReads port (dropTag port tag (pcieError port aerCto false (flagOn (portF port Reg.HE_ERRSTAT.A_CTO Reg.HE_ERRSTAT.B_CTO) s))) else readRetry port e (pcieError port aerCto false (flagOn (portF port Reg.HE_ERRSTAT.A_CTO Reg.HE_ERRSTAT.B_CTO) s)))) ∧
  (∀ (port : Port) (tag : Nat) (s : State), (s.port port).tags.find? (fun x => x.tag == tag) = none → exec (.hostReadTimeout port tag) s =
      .next s) ∧
  (∀ (port : Port) (rate width : Nat) (flit : Bool) (s : State), portExists port s = true → s.gen.mode ≠ .reset → ∃ t,
      exec (.linkTrained port rate width flit) s = .next t ∧ Only [.he] s t ∧ (t.port port).up = true ∧ (t.port port).rate =
      (if flit then Nat.min rate (Nat.min (getF Reg.HE_CFG.MAXRATE s) 5) else Nat.min (Nat.min rate (Nat.min (getF Reg.HE_CFG.MAXRATE s) 5)) 4) ∧
      (t.port port).width = Nat.min width (if s.pins.bifur then 8 else 16) ∧ (t.port port).flit = flit ∧ (t.port port).recovery = false ∧
      (t.port port).l1 = false) ∧
  (∀ (port : Port) (s : State), (s.port port).up = true → (s.port port).recovery = false → ∃ t, exec (.linkRecoveryEntry port) s = .next t ∧
      Only [.he, .reg Reg.HE_LINKREC_A.COUNT, .reg Reg.HE_LINKREC_B.COUNT] s t ∧ (t.port port).recovery = true ∧ (t.port port).l1 = false ∧
      getF (portF port Reg.HE_LINKREC_A.COUNT Reg.HE_LINKREC_B.COUNT) t =
      Nat.min (getF (portF port Reg.HE_LINKREC_A.COUNT Reg.HE_LINKREC_B.COUNT) s + 1) (2 ^ Reg.HE_LINKREC_A.COUNT.width - 1)) ∧
  (∀ (port : Port) (durationUs : Nat) (s : State), (s.port port).recovery = true → ∃ t, exec (.linkRecoveryExit port durationUs) s =
      .next t ∧ Only [.he, .ctl, .cmds, .fs, .reg Reg.HE_LINKREC_A.LAST, .reg Reg.HE_LINKREC_B.LAST] s t ∧ (t.port port).recovery = false ∧
      getF (portF port Reg.HE_LINKREC_A.LAST Reg.HE_LINKREC_B.LAST) t = Nat.min durationUs (2 ^ Reg.HE_LINKREC_A.LAST.width - 1) ∧ t =
      extendPort port 2 (1000 * durationUs) ((setSat (portF port Reg.HE_LINKREC_A.LAST Reg.HE_LINKREC_B.LAST) durationUs s).updPort port (fun h => { h with recovery := false }))) ∧
  (∀ (port : Port) (s : State), (s.port port).up = true → ∃ t, exec (.surpriseDown port) s = .next t ∧ Only (places [revoking] [.he, .ctl,
      .cmds, .fs, .mx, .nsWait, .mm, .tw, .dg, .mg, .reg Reg.GEN_RSTCAUSE.PERST]) s t ∧ (t.port port).up = false ∧ (t.con port).en = false ∧
      (t.con port).sqs = [] ∧ isOn Reg.GEN_RSTCAUSE.PERST t = true ∧ (t.port port).cmb = (s.port port).cmb ∧ (∀ c ∈ t.cmds, c.port ≠ port)) ∧
  (∀ (port : Port) (s : State), (s.port port).up = false → exec (.surpriseDown port) s = .next s) ∧
  (∀ (port : Port) (width durationNs : Nat) (s : State), (s.port port).up = true → ∃ t, exec (.l0pWidthChange port width durationNs) s =
      .next t ∧ Only [.he, .ctl, .cmds, .fs] s t ∧ (t.port port).width = width ∧ (t.port port).up = true ∧ t =
      extendPort port 3 durationNs (s.updPort port (fun h => { h with width := width }))) ∧
  (∀ (port : Port) (idleUs : Nat) (l12 : Bool) (s : State), l1Allowed port idleUs s = true → exec (.aspmL1Entry port idleUs l12) s =
      .next (s.updPort port (fun h => { h with l1 := true, l12 := l12 }))) ∧
  (∀ (port : Port) (s : State), portExists port s = true → s.gen.hostReleased = true → (s.con port).en = false ∨ (s.con port).shst = 2 →
      exec (.d3hotEntry port) s = .next (s.updPort port (fun h => { h with d3hot := true }))) ∧
  (∀ (port : Port) (s : State), (s.con port).en = true → (s.con port).shst ≠ 2 → exec (.d3hotEntry port) s = .next s) ∧
  (∀ (port : Port) (vendor objType : Nat) (dwords : List Word) (s : State), portExists port s = true → heAnswers s = true →
      dwords.length ≤ 2048 → vendor = 1 → (s.port port).doeBusy = false → ∃ t, exec (.doeRequest port vendor objType dwords) s = .next t ∧
      Only [.he] s t ∧ t = doeTake port objType dwords s ∧ (objType = 1 → (t.port port).doeReq = some dwords) ∧ (objType = 0 →
      (t.port port).doeReq = none ∧ (t.port port).doeResp = doeDiscovery ((dwords[2]?.getD 0).toNat % 256))) ∧
  (∀ (port : Port) (vendor objType : Nat) (dwords : List Word) (s : State), portExists port s = true → heAnswers s = true →
      dwords.length ≤ 2048 → vendor = 1 → (s.port port).doeBusy = true → exec (.doeRequest port vendor objType dwords) s =
      .next (s.updPort port (fun h => { h with doeWait := some (objType, dwords) }))) ∧
  (∀ (port : Port) (s : State), exec (.doeAbort port) s =
      .next (s.updPort port (fun h => { h with doeReq := none, doeResp := [], doeWait := none }))) ∧
  (∀ (port : Port) (tag : Nat) (poisoned : Bool) (lbas : List HostLba) (slowNs : Nat) (e : Tag) (s : State),
      (s.port port).tags.find? (fun x => x.tag == tag) = some e → e.dead = false → poisoned = true → ∃ t,
      exec (.hostReadCompletion port tag poisoned lbas slowNs) s = .next t ∧ Only (places [posting, logging, revoking, windowLog, sending,
      disarming] [.freeCtr, .gen, .sh, .cmds, .mx, .ns, .nsWait, .mm, .me, .tw, .dg, .nand, .ff, .prov, .reg Reg.HE_ERRSTAT.A_POISRX,
      .reg Reg.HE_ERRSTAT.A_UNEXP, .reg Reg.HE_ERRSTAT.A_SQEFAIL, .reg Reg.HE_ERRSTAT.B_POISRX, .reg Reg.HE_ERRSTAT.B_UNEXP,
      .reg Reg.HE_ERRSTAT.B_SQEFAIL, .reg Reg.QE_HOSTXS.LAST, .reg Reg.QE_HOSTXS.COUNT, .reg Reg.MM_ERR.SHORTCLOSE,
      .reg Reg.DG_RNG.RESEEDS]) s t ∧ t = readRetry port e (poisonRx port s)) ∧
  (∀ (port : Port) (tag : Nat) (poisoned : Bool) (lbas : List HostLba) (slowNs : Nat) (e : Tag) (s : State),
      (s.port port).tags.find? (fun x => x.tag == tag) = some e → e.dead = false → poisoned = false → ∃ t,
      exec (.hostReadCompletion port tag poisoned lbas slowNs) s = .next t ∧ Only (places [posting, logging, revoking, windowLog, sending,
      disarming] [.freeCtr, .gen, .sh, .cmds, .mx, .ns, .nsWait, .mm, .me, .tw, .dg, .nand, .ff, .prov, .reg Reg.HE_ERRSTAT.A_POISRX,
      .reg Reg.HE_ERRSTAT.A_UNEXP, .reg Reg.HE_ERRSTAT.A_SQEFAIL, .reg Reg.HE_ERRSTAT.B_POISRX, .reg Reg.HE_ERRSTAT.B_UNEXP,
      .reg Reg.HE_ERRSTAT.B_SQEFAIL, .reg Reg.QE_HOSTXS.LAST, .reg Reg.QE_HOSTXS.COUNT, .reg Reg.MM_ERR.SHORTCLOSE,
      .reg Reg.DG_RNG.RESEEDS]) s t ∧ t = readArrived port e lbas slowNs s) ∧
  (∀ (port : Port) (idleUs : Nat) (l12 : Bool) (s : State), l1Allowed port idleUs s = false → exec (.aspmL1Entry port idleUs l12) s =
      .next s)

/-- Create and delete I/O queues, Get Log Page, Identify and Abort. Rules: R83, R84, R85, R91, R92, R93, R95. -/
def Obligations.QueueCommands : Prop :=
  (∀ (h : AdminHdr) (qid size cqid qprio base : Nat) (contiguous : Bool) (s : State), adminServed h modesBasic s = true →
      createSqBad h qid size cqid base contiguous (arrived h s) = none → ∃ t, exec (.createIoSq h qid size cqid qprio base contiguous) s =
      .next t ∧ Only (places [posting, logging, disarming] [.gen, .sh, .prov]) s t ∧ t =
      adminOk h (eventIdxNew h.port ((arrived h s).updCon h.port (fun c => { c with sqs := c.sqs.filter (fun x => decide (x.qid < qid)) ++ [⟨qid, size + 1, cqid, qprio % 4, base, 0, 0, 7, [], none, c.shadow.isSome, [], none⟩] ++ c.sqs.filter (fun x => decide (qid < x.qid)) })))) ∧
  (∀ (h : AdminHdr) (qid size cqid qprio base : Nat) (contiguous : Bool) (s : State), adminServed h modesBasic s = true → qid = 0 → ∃ t,
      exec (.createIoSq h qid size cqid qprio base contiguous) s = .next t ∧ Only (places [posting, logging, disarming] [.gen, .sh,
      .prov]) s t ∧ t = adminFail h 1 0x01 (arrived h s)) ∧
  (∀ (h : AdminHdr) (qid size vector : Nat) (ien : Bool) (base : Nat) (contiguous : Bool) (s : State), adminServed h modesBasic s = true →
      createCqBad h qid size vector base contiguous (arrived h s) = none → ∃ t, exec (.createIoCq h qid size vector ien base contiguous) s =
      .next t ∧ Only (places [posting, logging, disarming] [.gen, .sh, .prov]) s t ∧ t =
      adminOk h (eventIdxNew h.port ((arrived h s).updCon h.port (fun c => { c with cqs := c.cqs ++ [⟨qid, size + 1, vector, ien, base, 0, 0, true, [], c.shadow.isSome⟩] })))) ∧
  (∀ (h : AdminHdr) (qid : Nat) (s : State), adminServed h modesBasic s = true → qid ≠ 0 →
      ((arrived h s).con h.port).sqs.any (fun q => q.qid == qid && q.deleting.isNone) = true → ∃ t, exec (.deleteIoSq h qid) s = .next t ∧
      Only (places [posting, logging, disarming] [.gen, .sh, .prov]) s t ∧ t =
      finishDeletes h.port (updSq h.port qid (fun q => { q with deleting := some h.cid }) (arrived h s))) ∧
  (∀ (h : AdminHdr) (qid : Nat) (s : State), adminServed h modesBasic s = true → qid = 0 → ∃ t, exec (.deleteIoSq h qid) s = .next t ∧
      Only (places [posting, logging, disarming] [.gen, .sh, .prov]) s t ∧ t = adminFail h 1 0x01 (arrived h s)) ∧
  (∀ (h : AdminHdr) (qid : Nat) (s : State), adminServed h modesBasic s = true → qid ≠ 0 →
      ((arrived h s).con h.port).cqs.any (fun q => q.qid == qid) = true → ((arrived h s).con h.port).sqs.any (fun q => q.cq == qid) =
      false → ∃ t, exec (.deleteIoCq h qid) s = .next t ∧ Only (places [posting, logging, disarming] [.gen, .sh, .prov]) s t ∧ t =
      adminOk h ((arrived h s).updCon h.port (fun c => { c with cqs := c.cqs.filter (fun x => x.qid != qid) }))) ∧
  (∀ (h : AdminHdr) (qid : Nat) (s : State), adminServed h modesBasic s = true → qid ≠ 0 →
      ((arrived h s).con h.port).cqs.any (fun q => q.qid == qid) = true → ((arrived h s).con h.port).sqs.any (fun q => q.cq == qid) = true →
      ∃ t, exec (.deleteIoCq h qid) s = .next t ∧ Only (places [posting, logging, disarming] [.gen, .sh, .prov]) s t ∧ t =
      adminFail h 1 0x0C (arrived h s)) ∧
  (∀ (h : AdminHdr) (lid offset numDwords : Nat) (rae : Bool) (pg : Page) (s : State), adminServed h modesBasic s = true →
      logPage h.port lid (arrived h s) = some pg → offset % 4 = 0 → offset < pg.len → (lid = 0x02 → h.nsid = 0 ∨ h.nsid = 0xFFFFFFFF) →
      dataFits h (4 * numDwords) (arrived h s) = true → ∃ t, exec (.getLogPage h lid offset numDwords rae) s = .next t ∧
      Only (places [posting, logging, disarming] [.freeCtr, .gen, .sh, .me, .prov, .reg Reg.ME_MERGE.EVICT]) s t ∧ (t =
      adminOk h ((fun u : State => if rae then u else logRead h.port lid u) ((fun u : State => if lid = 0x02 ∨ lid =
      0x0C then { u with freeCtr := u.freeCtr + 8 } else u) (adminData h (pg.slice offset (4 * numDwords)) (arrived h s)))))) ∧
  (∀ (h : AdminHdr) (cns cntid : Nat) (pg : Page) (s : State), adminServed h modesBasic s = true → identPage h cns cntid (arrived h s) =
      .inl pg → dataFits h 4096 (arrived h s) = true → ∃ t, exec (.identify h cns cntid) s = .next t ∧ Only (places [posting, logging,
      disarming] [.gen, .sh, .me, .prov, .reg Reg.ME_MERGE.EVICT]) s t ∧ t = adminOk h (adminData h (pg.slice 0 4096) (arrived h s))) ∧
  (∀ (h : AdminHdr) (sqid : Nat) (cid : BitVec 16) (s : State), adminServed h modesBasic s = true →
      (abortsOut h.port (arrived h s)).length < 4 → ∃ t, exec (.abort h sqid cid) s = .next t ∧ Only (places [posting, logging,
      disarming] [.gen, .sh, .prov]) s t ∧ t =
      adminDone h 0 0 1 0 ((arrived h s).updCon h.port (fun c => { c with aborts := abortsOut h.port (arrived h s) ++ [h.cid] }))) ∧
  (∀ (h : AdminHdr) (sqid : Nat) (cid : BitVec 16) (s : State), adminServed h modesBasic s = true →
      4 ≤ (abortsOut h.port (arrived h s)).length → ∃ t, exec (.abort h sqid cid) s = .next t ∧ Only (places [posting, logging,
      disarming] [.gen, .sh, .prov]) s t ∧ t = adminFail h 1 0x03 (arrived h s)) ∧
  (∀ (h : AdminHdr) (lid offset numDwords : Nat) (rae : Bool) (s : State), adminServed h modesBasic s = true →
      logPage h.port lid (arrived h s) = none → ∃ t, exec (.getLogPage h lid offset numDwords rae) s = .next t ∧ Only (places [posting,
      logging, disarming] [.freeCtr, .gen, .sh, .me, .prov, .reg Reg.ME_MERGE.EVICT]) s t ∧ t = adminFail h 1 0x09 (arrived h s))

/-- Set Features and Get Features. Rules: R98, R99, R100, R101, R102, R103, R117, R404, R405. -/
def Obligations.SetFeatures : Prop :=
  (∀ (h : AdminHdr) (sv : Bool) (dw11 : Word) (s : State), adminServed h modesFeature s = true → sv = false → ∃ t,
      exec (.setFeaturesArbitration h sv dw11) s = .next t ∧ Only (places [posting, logging, disarming] [.gen, .sh, .prov]) s t ∧ t =
      adminOk h ((arrived h s).updCon h.port (fun c => { c with arb := dw11.toNat }))) ∧
  (∀ (h : AdminHdr) (sv : Bool) (dw11 : Word) (s : State), adminServed h modesFeature s = true → sv = true → ∃ t,
      exec (.setFeaturesArbitration h sv dw11) s = .next t ∧ Only (places [posting, logging, disarming] [.gen, .sh, .prov]) s t ∧ t =
      adminFail h 1 0x0D (arrived h s)) ∧
  (∀ (h : AdminHdr) (sv : Bool) (ps wh : Nat) (p : PowerState) (s : State), adminServed h modesFeature s = true → sv = false → psOf ps =
      some p → ps ≤ 2 → wh = 0 → ∃ t, exec (.setFeaturesPowerManagement h sv ps wh) s = .next t ∧ Only (places [posting, logging,
      disarming] [.gen, .sh, .prov]) s t ∧ t = adminOk h { (arrived h s) with sh := { (arrived h s).sh with ps := p, psOp := p } }) ∧
  (∀ (h : AdminHdr) (sv : Bool) (ps wh : Nat) (p : PowerState) (s : State), adminServed h modesFeature s = true → sv = false → psOf ps =
      some p → 2 < ps → wh = 0 → ((arrived h s).gen.mode = .service ∨ (arrived h s).gen.mode = .sealed) → ∃ t,
      exec (.setFeaturesPowerManagement h sv ps wh) s = .next t ∧ Only (places [posting, logging, disarming] [.gen, .sh, .prov]) s t ∧ t =
      (let v := adminOk h (arrived h s); { v with sh := { v.sh with ps := p }, gen := { v.gen with psEntry := some p } })) ∧
  (∀ (p : PowerState) (s : State), s.gen.psEntry = some p → (s.gen.mode = .service ∨ s.gen.mode = .sealed) → ∃ t,
      exec (.powerStateEntry true) s = .next t ∧ Only (places [posting, logging, revoking, windowLog, sending, disarming, poisoned] [.gen,
      .sh, .defFaults, .lost, .mx, .mm, .sp, .nand, .prov, .reg Reg.GF_XFER.RESENT, .reg Reg.GF_ERR.LINKDOWN,
      .reg Reg.GF_ERR.HELDOUT]) s t ∧ t.gen.mode = .lowpower ∧ t.gen.cause = 8 ∧ t.gen.psEntry = none ∧ t.gen.lowFrom = s.gen.mode ∧ t =
      (let u := if p = .ps4 then journalNow (flushStaged s) else s; let v := snapDurableNow (snapNow u) u;
      ps4Links (stopPolling .b (stopPolling .a (enterMode 8 .lowpower { v with gen := { v.gen with psEntry := none, lowFrom := v.gen.mode } }))))) ∧
  (∀ (p : PowerState) (s : State), s.gen.psEntry = some p → s.gen.mode ≠ .service → s.gen.mode ≠ .sealed → exec (.powerStateEntry true) s =
      .next ({ s with gen := { s.gen with psEntry := none }, sh := { s.sh with ps := s.sh.psOp } })) ∧
  (∀ (done : Bool) (s : State), s.gen.psEntry = none ∨ done = false → exec (.powerStateEntry done) s = .next s) ∧
  (∀ (h : AdminHdr) (sv : Bool) (tmpsel thsel kelvin : Nat) (s : State), adminServed h modesFeature s = true → sv = false → tmpsel = 0 →
      thsel ≤ 1 → ∃ t, exec (.setFeaturesTemperatureThreshold h sv tmpsel thsel kelvin) s = .next t ∧ Only (places [posting, logging,
      disarming] [.gen, .sh, .prov]) s t ∧ t = adminOk h (if thsel =
      0 then { (arrived h s) with sh := { (arrived h s).sh with tOver := kelvin % 65536 } } else { (arrived h s) with sh := { (arrived h s).sh with tUnder := kelvin % 65536 } })) ∧
  (∀ (h : AdminHdr) (sv wce : Bool) (s : State), adminServed h modesFeature s = true → sv = false → ∃ t,
      exec (.setFeaturesVolatileWriteCache h sv wce) s = .next t ∧ Only (places [posting, logging, disarming] [.gen, .sh, .prov]) s t ∧ t =
      adminOk h { (arrived h s) with sh := { (arrived h s).sh with wce := wce } }) ∧
  (∀ (h : AdminHdr) (sv : Bool) (nsqr ncqr : Nat) (s : State), adminServed h modesFeature s = true → sv = false → nsqr ≠ 0xFFFF →
      ncqr ≠ 0xFFFF → ((arrived h s).con h.port).nqSet = false → hasIoQueue ((arrived h s).con h.port) = false → ∃ t,
      exec (.setFeaturesNumberOfQueues h sv nsqr ncqr) s = .next t ∧ Only (places [posting, logging, disarming] [.gen, .sh, .prov]) s t ∧
      t = adminDone h 0 0 (Nat.min nsqr 2047 +
      65536 * Nat.min ncqr 2047) 0 ((arrived h s).updCon h.port (fun c => { c with nqSet := true, nsq := Nat.min nsqr 2047 + 1, ncq := Nat.min ncqr 2047 + 1 }))) ∧
  (∀ (h : AdminHdr) (sv : Bool) (thr time : Nat) (s : State), adminServed h modesFeature s = true → sv = false → ∃ t,
      exec (.setFeaturesInterruptCoalescing h sv thr time) s = .next t ∧ Only (places [posting, logging, disarming] [.gen, .sh,
      .prov]) s t ∧ t = adminOk h ((arrived h s).updCon h.port (fun c => { c with icThr := thr % 256, icTime := time % 256 }))) ∧
  (∀ (h : AdminHdr) (sv : Bool) (vector : Nat) (disable : Bool) (s : State), adminServed h modesFeature s = true → sv = false →
      vector < 2048 → ∃ t, exec (.setFeaturesInterruptVectorConfig h sv vector disable) s = .next t ∧ Only (places [posting, logging,
      disarming] [.gen, .sh, .prov]) s t ∧ t =
      adminOk h ((arrived h s).updCon h.port (fun c => { c with icOff := if disable then addOnce c.icOff vector else c.icOff.filter (fun v => v != vector) }))) ∧
  (∀ (h : AdminHdr) (sv : Bool) (dw11 : Word) (s : State), adminServed h modesFeature s = true → sv = false → ∃ t,
      exec (.setFeaturesAsyncEventConfig h sv dw11) s = .next t ∧ Only (places [posting, logging, disarming] [.gen, .sh, .prov]) s t ∧ t =
      adminOk h ((arrived h s).updCon h.port (fun c => { c with aec := dw11.toNat }))) ∧
  (∀ (h : AdminHdr) (sv : Bool) (mask : BitVec 8) (reservedMask : Bool) (entries : List (List Nat)) (s : State),
      adminServed h modesFeature s = true → sv = false → reservedMask = false → mask.toNat % 8 = 0 → mask.toNat.testBit 7 = false → [3, 4,
      5, 6].any (fun k => mask.toNat.testBit k && !classOk ((entries[k]?).getD [])) = false → dataFits h 256 (arrived h s) = true → ∃ t,
      exec (.setFeaturesLatencyClassTable h sv mask reservedMask entries) s = .next t ∧ Only (places [posting, logging, revoking, windowLog,
      sending, disarming] [.gen, .sh, .prov]) s t ∧ t =
      (let v := { (arrived h s) with sh := { (arrived h s).sh with lct := replaceClasses mask.toNat entries (arrived h s).sh.lct } };
      mirror 4 ([v.mx.csn, mask.toNat] ++ classEntries mask.toNat v) (adminOk h v))) ∧
  (∀ (h : AdminHdr) (sv : Bool) (sqid cls : Nat) (s : State), adminServed h modesFeature s = true → sv = false → sqid ≠ 0 →
      ((arrived h s).con h.port).sqs.any (fun q => q.qid == sqid) = true → ∃ t, exec (.setFeaturesQueueLatencyBinding h sv sqid cls) s =
      .next t ∧ Only (places [posting, logging, disarming] [.gen, .sh, .prov]) s t ∧ t =
      adminOk h (updSq h.port sqid (fun q => { q with cls := cls % 8 }) (arrived h s))) ∧
  (∀ (h : AdminHdr) (sv : Bool) (s : State), adminServed h modesFeature s = true → sv = false → ∃ t,
      exec (.setFeaturesWriteCacheProtection h sv) s = .next t ∧ Only (places [posting, logging, disarming] [.gen, .sh, .prov]) s t ∧ t =
      adminFail h 1 0x0E (arrived h s)) ∧
  (∀ (h : AdminHdr) (fid sel : Nat) (dw11 : Word) (v : Nat) (s : State), adminServed h modesFeature s = true → sel = 0 → fid ≠ 0xC0 →
      featureNow h fid dw11 (arrived h s) = some v → ∃ t, exec (.getFeatures h fid sel dw11) s = .next t ∧ Only (places [posting, logging,
      disarming] [.gen, .sh, .me, .prov, .reg Reg.ME_MERGE.EVICT]) s t ∧ t = adminDone h 0 0 v 0 (arrived h s)) ∧
  (∀ (h : AdminHdr) (fid sel : Nat) (dw11 : Word) (s : State), adminServed h modesFeature s = true → 1 < sel → ∃ t,
      exec (.getFeatures h fid sel dw11) s = .next t ∧ Only (places [posting, logging, disarming] [.gen, .sh, .me, .prov,
      .reg Reg.ME_MERGE.EVICT]) s t ∧ t = adminFail h 0 0x02 (arrived h s)) ∧
  (∀ (h : AdminHdr) (s : State), adminServed h modesBasic s = true → ((arrived h s).con h.port).events = [] →
      ((arrived h s).con h.port).aers.length < 16 → ∃ t, exec (.asynchronousEventRequest h) s = .next t ∧ Only (places [posting, logging,
      disarming] [.gen, .sh, .prov]) s t ∧ t = (arrived h s).updCon h.port (fun c => { c with aers := c.aers ++ [h.cid] })) ∧
  (∀ (h : AdminHdr) (e : AsyncEvent) (rest : List AsyncEvent) (s : State), adminServed h modesBasic s = true →
      ((arrived h s).con h.port).events = e :: rest → ∃ t, exec (.asynchronousEventRequest h) s = .next t ∧ Only (places [posting, logging,
      disarming] [.gen, .sh, .prov]) s t ∧ t = adminDone h 0 0 e.dw0 0 ((arrived h s).updCon h.port (fun c => { c with events := rest }))) ∧
  (∀ (h : AdminHdr) (fid sel : Nat) (dw11 : Word) (s : State), adminServed h modesFeature s = true → sel ≤ 1 → fid = 0xC0 →
      dataFits h 256 (arrived h s) = true → ∃ t, exec (.getFeatures h fid sel dw11) s = .next t ∧ Only (places [posting, logging,
      disarming] [.gen, .sh, .me, .prov, .reg Reg.ME_MERGE.EVICT]) s t ∧ t = adminOk h (adminData h ((classTable (if sel =
      1 then { (arrived h s) with sh := .reset } else (arrived h s))).slice 0 256) (arrived h s))) ∧
  (∀ (h : AdminHdr) (fid sel : Nat) (dw11 : Word) (v : Nat) (s : State), adminServed h modesFeature s = true → sel = 1 → fid ≠ 0xC0 →
      featureDefault h fid dw11 (arrived h s) = some v → ∃ t, exec (.getFeatures h fid sel dw11) s = .next t ∧ Only (places [posting,
      logging, disarming] [.gen, .sh, .me, .prov, .reg Reg.ME_MERGE.EVICT]) s t ∧ t = adminDone h 0 0 v 0 (arrived h s))

/-- Namespace management, firmware, self-test, directives and sanitize. Rules: R97, R104, R105, R106, R107, R108, R233, R244, R247, R361. -/
def Obligations.NamespaceAndFirmware : Prop :=
  (∀ (h : AdminHdr) (d : NsDesc) (s : State), adminServed h modesAll s = true → (arrived h s).gen.mode ≠ .sealed →
      createBad d (arrived h s) = none → dataFits h 4096 (arrived h s) = true → ∃ t, exec (.namespaceManagementCreate h d) s = .next t ∧
      Only (places [posting, logging, revoking, windowLog, sending, disarming] [.freeCtr, .gen, .sh, .mx, .ns, .nsWait, .mm, .dg, .nand,
      .ff, .prov, .reg Reg.MM_ERR.SHORTCLOSE, .reg Reg.DG_RNG.RESEEDS]) s t ∧ t = acceptNs h 0 (.create d) (arrived h s)) ∧
  (∀ (h : AdminHdr) (d : NsDesc) (s : State), adminServed h modesAll s = true → (arrived h s).gen.mode = .sealed → ∃ t,
      exec (.namespaceManagementCreate h d) s = .next t ∧ Only (places [posting, logging, revoking, windowLog, sending,
      disarming] [.freeCtr, .gen, .sh, .mx, .ns, .nsWait, .mm, .dg, .nand, .ff, .prov, .reg Reg.MM_ERR.SHORTCLOSE,
      .reg Reg.DG_RNG.RESEEDS]) s t ∧ t = adminFail h 7 0x82 (arrived h s)) ∧
  (∀ (h : AdminHdr) (n : Ns) (s : State), adminServed h modesAll s = true → findNs h.nsid (arrived h s) = some n →
      (arrived h s).gen.mode ≠ .sealed → n.leaving = [] → inSession h.nsid (arrived h s) = false → nsRoleBad n (arrived h s) = none → ∃ t,
      exec (.namespaceManagementDelete h) s = .next t ∧ Only (places [posting, logging, revoking, windowLog, sending, disarming] [.freeCtr,
      .gen, .sh, .mx, .ns, .nsWait, .mm, .dg, .nand, .ff, .prov, .reg Reg.MM_ERR.SHORTCLOSE, .reg Reg.DG_RNG.RESEEDS]) s t ∧ t =
      acceptNs h h.nsid .delete (updNs h.nsid (fun n => { n with leaving := n.attached }) (arrived h s))) ∧
  (∀ (h : AdminHdr) (attach : Bool) (ctrls : List Nat) (n : Ns) (s : State), adminServed h modesAll s = true → attach = true →
      findNs h.nsid (arrived h s) = some n → ctrls ≠ [] → beingDeleted h.nsid (arrived h s) = false →
      ctrls.any (fun c => !(allCntlids (arrived h s)).contains c) = false → n.cutAway = false → ctrls.any (fun c => n.attached.contains c) =
      false → dataFits h 4096 (arrived h s) = true → ∃ t, exec (.namespaceAttachment h attach ctrls) s = .next t ∧ Only (places [posting,
      logging, revoking, windowLog, sending, disarming] [.freeCtr, .gen, .sh, .mx, .ns, .nsWait, .mm, .dg, .nand, .ff, .prov,
      .reg Reg.MM_ERR.SHORTCLOSE, .reg Reg.DG_RNG.RESEEDS]) s t ∧ t = adminOk h (mirror 3 [(arrived h s).mx.csn, 5,
      h.nsid] (attachNs h.nsid true ctrls (arrived h s)))) ∧
  (∀ (h : AdminHdr) (attach : Bool) (ctrls : List Nat) (n : Ns) (s : State), adminServed h modesAll s = true → attach = false →
      findNs h.nsid (arrived h s) = some n → ctrls ≠ [] → beingDeleted h.nsid (arrived h s) = false →
      ctrls.any (fun c => !(allCntlids (arrived h s)).contains c) = false → ctrls.any (fun c => !n.attached.contains c) = false →
      dataFits h 4096 (arrived h s) = true → ∃ t, exec (.namespaceAttachment h attach ctrls) s = .next t ∧ Only (places [posting, logging,
      revoking, windowLog, sending, disarming] [.freeCtr, .gen, .sh, .mx, .ns, .nsWait, .mm, .dg, .nand, .ff, .prov,
      .reg Reg.MM_ERR.SHORTCLOSE, .reg Reg.DG_RNG.RESEEDS]) s t ∧ t =
      acceptNs h h.nsid (.detach ctrls) (updNs h.nsid (fun n => { n with leaving := ctrls.foldl addOnce n.leaving }) (arrived h s))) ∧
  (∀ (h : AdminHdr) (offset length : Nat) (s : State), adminServed h modesBasic s = true → offset % 4 = 0 → length % 4 = 0 → offset +
      length ≤ imageMax → dataFits h length (arrived h s) = true → ∃ t, exec (.firmwareImageDownload h offset length) s = .next t ∧
      Only (places [posting, logging, disarming] [.gen, .sh, .prov]) s t ∧ t =
      adminOk h { (arrived h s) with sh := { (arrived h s).sh with fwDown := (arrived h s).sh.fwDown ++ [(offset, length)] } }) ∧
  (∀ (h : AdminHdr) (slot : Nat) (img : SlotImage) (blk : Nat) (v : State) (s : State), adminServed h modesBasic s = true →
      (arrived h s).mg.activation = none → slotBlk slot (arrived h s) = some blk → commitSlot true false blk img (arrived h s) = (none, v) →
      ∃ t, exec (.firmwareCommitWrite h slot img) s = .next t ∧ Only (places [posting, logging, disarming] [.gen, .sh, .ff, .prov,
      .reg Reg.MG_ERR.WEAR]) s t ∧ t = adminOk h v) ∧
  (∀ (h : AdminHdr) (slot : Nat) (img : SlotImage) (blk : Nat) (v : State) (s : State), adminServed h modesBasic s = true →
      (arrived h s).mg.activation = none → slotBlk slot (arrived h s) = some blk → commitSlot true true blk img (arrived h s) = (none, v) →
      ∃ t, exec (.firmwareCommitWriteSelect h slot img) s = .next t ∧ Only (places [posting, logging, disarming] [.gen, .sh, .ff, .prov,
      .reg Reg.MG_ERR.WEAR]) s t ∧ t = adminOk h v) ∧
  (∀ (h : AdminHdr) (slot : Nat) (img : SlotImage) (blk : Nat) (v : State) (s : State), adminServed h modesBasic s = true →
      (arrived h s).mg.activation = none → slotBlk slot (arrived h s) = some blk → commitSlot false true blk img (arrived h s) = (none, v) →
      ∃ t, exec (.firmwareCommitSelect h slot img) s = .next t ∧ Only (places [posting, logging, disarming] [.gen, .sh, .ff, .prov,
      .reg Reg.MG_ERR.WEAR]) s t ∧ t = adminOk h v) ∧
  (∀ (h : AdminHdr) (slot : Nat) (img : SlotImage) (blk : Nat) (v : State) (s : State), adminServed h modesBasic s = true →
      (arrived h s).mg.activation = none → rebuildOrMigration (arrived h s) = false → slotBlk slot (arrived h s) = some blk →
      commitSlot ((arrived h s).sh.fwDown != []) true blk img (arrived h s) = (none, v) → ∃ t, exec (.firmwareCommitActivate h slot img) s =
      .next t ∧ Only [.freeCtr, .out, .eff, .gen, .he, .ctl, .sh, .defFaults, .lost, .cmds, .nextCmd, .fs, .mx, .ns, .nsWait, .mm, .sp, .cs,
      .bp, .me, .gf, .tw, .dg, .mg, .fi, .nand, .ff, .prov, .fuses, .win 0x80000 0x100000, .win 0x88000 0xF0000] s t ∧ t = (if v.gen.mode =
      .recovery then y9Reset false 7 (adminOk h v) else startActivation h blk v)) ∧
  (∀ (h : AdminHdr) (code : Nat) (s : State), adminServed h modesAll s = true → code = 1 ∨ code = 2 → ((arrived h s).con h.port).selfTest =
      none → ∃ t, exec (.deviceSelfTest h code) s = .next t ∧ Only (places [posting, logging, disarming] [.gen, .sh, .prov]) s t ∧ t =
      adminOk h ((arrived h s).updCon h.port (fun c => { c with selfTest := some code }))) ∧
  (∀ (h : AdminHdr) (code k : Nat) (s : State), adminServed h modesAll s = true → code = 0xF → ((arrived h s).con h.port).selfTest =
      some k → ∃ t, exec (.deviceSelfTest h code) s = .next t ∧ Only (places [posting, logging, disarming] [.gen, .sh, .prov]) s t ∧ t =
      adminOk h ((arrived h s).updCon h.port (fun c => { c with selfTest := none, selfTests := ((k, 1) :: c.selfTests).take 20 }))) ∧
  (∀ (h : AdminHdr) (dtype doper dspec : Nat) (enable : Bool) (tdtype : Nat) (s : State), adminServed h modesAll s = true →
      nsHere h (arrived h s) = true → dtype = 0 → doper = 1 → tdtype = 1 → enable = true → ∃ t,
      exec (.directiveSend h dtype doper dspec enable tdtype) s = .next t ∧ Only (places [posting, logging, disarming] [.gen, .sh,
      .prov]) s t ∧ t = adminOk h ((arrived h s).updCon h.port (fun c => { c with streamsOn := addOnce c.streamsOn h.nsid }))) ∧
  (∀ (h : AdminHdr) (dtype doper dspec nsr : Nat) (s : State), adminServed h modesAll s = true → nsHere h (arrived h s) = true → dtype = 1 →
      doper = 3 → ((arrived h s).con h.port).streamsOn.contains h.nsid = true → ∃ t, exec (.directiveReceive h dtype doper dspec nsr) s =
      .next t ∧ Only (places [posting, logging, disarming] [.gen, .sh, .me, .prov, .reg Reg.ME_MERGE.EVICT]) s t ∧ t =
      adminDone h 0 0 (Nat.min nsr (16 - streamsTaken ((arrived h s).con h.port))) 0 ((arrived h s).updCon h.port (fun c => { c with streamRes := c.streamRes ++ [(h.nsid, Nat.min nsr (16 - streamsTaken ((arrived h s).con h.port)))] }))) ∧
  (∀ (h : AdminHdr) (prp1 prp2 : Nat) (s : State), adminServed h modesBasic s = true → hasIoQueue ((arrived h s).con h.port) = false →
      prp1 % hostPage h.port (arrived h s) = 0 ∧ prp2 % hostPage h.port (arrived h s) = 0 → inOwnBar h.port prp1 (arrived h s) = false ∧
      inOwnBar h.port prp2 (arrived h s) = false → ∃ t, exec (.doorbellBufferConfig h prp1 prp2) s = .next t ∧ Only (places [posting,
      logging, disarming] [.gen, .sh, .prov]) s t ∧ t =
      adminOk h ((arrived h s).updCon h.port (fun c => { c with shadow := some (prp1, prp2), polling := true, eventIdx := [] }))) ∧
  (∀ (h : AdminHdr) (lbaf : Nat) (mset : Bool) (pi pil ses : Nat) (n : Ns) (s : State), adminServed h modesAll s = true →
      (arrived h s).sh.sanState ≠ 1 ∧ (arrived h s).sh.sanState ≠ 3 →
      (findNs h.nsid (arrived h s)).filter (fun n => attachedTo h.port n (arrived h s)) = some n → nsRoleBad n (arrived h s) = none →
      sealedFor n (arrived h s) = false → (ses ≤ 2 ∧ (ses = 2 → n.xts = true)) → (lbaf ≤ 4 ∧ lbaBytes lbaf ≤ grainBytes n.grainCode ∧
      pi ≤ 3 ∧ (0 < pi → mdBytes lbaf ≠ 0)) → ∃ t, exec (.formatNvm h lbaf mset pi pil ses) s = .next t ∧ Only (places [posting, logging,
      revoking, windowLog, sending, disarming] [.freeCtr, .gen, .sh, .mx, .ns, .nsWait, .mm, .dg, .nand, .ff, .prov,
      .reg Reg.MM_ERR.SHORTCLOSE, .reg Reg.DG_RNG.RESEEDS]) s t ∧ t = acceptNs h h.nsid (.format lbaf mset (pi + 8 * (pil % 2)) (ses ==
      1) (ses == 2)) (updNs h.nsid (fun n => { n with formatting := true }) (arrived h s))) ∧
  (∀ (h : AdminHdr) (lbaf : Nat) (mset : Bool) (pi pil : Nat) (n : Ns) (s : State), adminServed h modesAll s = true →
      (arrived h s).sh.sanState ≠ 1 ∧ (arrived h s).sh.sanState ≠ 3 →
      (findNs h.nsid (arrived h s)).filter (fun n => attachedTo h.port n (arrived h s)) = some n → nsRoleBad n (arrived h s) = none →
      sealedFor n (arrived h s) = false → n.xts = true → (lbaf ≤ 4 ∧ lbaBytes lbaf ≤ grainBytes n.grainCode ∧ pi ≤ 3 ∧ (0 < pi →
      mdBytes lbaf ≠ 0)) → ∃ t, exec (.formatNvmCryptoErase h lbaf mset pi pil) s = .next t ∧ Only (places [posting, logging, revoking,
      windowLog, sending, disarming] [.freeCtr, .gen, .sh, .mx, .ns, .nsWait, .mm, .dg, .nand, .ff, .prov, .reg Reg.MM_ERR.SHORTCLOSE,
      .reg Reg.DG_RNG.RESEEDS]) s t ∧ t = acceptNs h h.nsid (.format lbaf mset (pi + 8 * (pil % 2)) ((2 : Nat) == 1) ((2 : Nat) ==
      2)) (updNs h.nsid (fun n => { n with formatting := true }) (arrived h s))) ∧
  (∀ (h : AdminHdr) (noDealloc : Bool) (s : State), adminServed h modesAll s = true → (arrived h s).sh.sanState ≠ 1 ∧
      (arrived h s).sh.sanState ≠ 3 → (arrived h s).gen.mode ≠ .standby ∧ (arrived h s).gen.mode ≠ .sealed →
      (arrived h s).ns.any (fun n => n.sealInfo.isSome) = false → noDealloc = false → ∃ t, exec (.sanitizeBlockErase h noDealloc) s =
      .next t ∧ Only (places [posting, logging, revoking, windowLog, sending, disarming] [.freeCtr, .gen, .sh, .mx, .ns, .mm, .dg, .nand,
      .ff, .prov, .reg Reg.MM_ERR.SHORTCLOSE, .reg Reg.DG_RNG.RESEEDS]) s t ∧ t =
      settleSanitize (adminOk h { (arrived h s) with sh := { (arrived h s).sh with sanState := 1 } })) ∧
  (∀ (h : AdminHdr) (noDealloc : Bool) (s : State), adminServed h modesAll s = true → (arrived h s).sh.sanState ≠ 1 ∧
      (arrived h s).sh.sanState ≠ 3 → (arrived h s).gen.mode ≠ .standby ∧ (arrived h s).gen.mode ≠ .sealed →
      (arrived h s).ns.any (fun n => n.sealInfo.isSome) = false → noDealloc = false → (arrived h s).ns.any (fun n => !n.xts) = false → ∃ t,
      exec (.sanitizeCryptoErase h noDealloc) s = .next t ∧ Only (places [posting, logging, revoking, windowLog, sending,
      disarming] [.freeCtr, .gen, .sh, .mx, .ns, .mm, .dg, .nand, .ff, .prov, .reg Reg.MM_ERR.SHORTCLOSE, .reg Reg.DG_RNG.RESEEDS]) s t ∧
      t = settleSanitize (adminOk h { (arrived h s) with sh := { (arrived h s).sh with sanState := 3 } })) ∧
  (∀ (h : AdminHdr) (noDealloc : Bool) (s : State), adminServed h modesAll s = true → (arrived h s).sh.sanState = 1 ∨
      (arrived h s).sh.sanState = 3 → ∃ t, exec (.sanitizeBlockErase h noDealloc) s = .next t ∧ Only (places [posting, logging, revoking,
      windowLog, sending, disarming] [.freeCtr, .gen, .sh, .mx, .ns, .mm, .dg, .nand, .ff, .prov, .reg Reg.MM_ERR.SHORTCLOSE,
      .reg Reg.DG_RNG.RESEEDS]) s t ∧ t = adminFail h 0 0x1D (arrived h s)) ∧
  (∀ (h : AdminHdr) (dtype doper dspec : Nat) (enable : Bool) (tdtype : Nat) (s : State), adminServed h modesAll s = true →
      nsHere h (arrived h s) = true → dtype = 0 → doper = 1 → tdtype = 1 → enable = false → ∃ t,
      exec (.directiveSend h dtype doper dspec enable tdtype) s = .next t ∧ Only (places [posting, logging, disarming] [.gen, .sh,
      .prov]) s t ∧ t =
      adminOk h ((arrived h s).updCon h.port (fun c => { c with streams := c.streams.filter (fun x => x.1 != h.nsid), streamRes := c.streamRes.filter (fun x => x.1 != h.nsid), streamsOn := c.streamsOn.filter (fun x => x != h.nsid) }))) ∧
  (∀ (h : AdminHdr) (dtype doper dspec : Nat) (enable : Bool) (tdtype : Nat) (s : State), adminServed h modesAll s = true →
      nsHere h (arrived h s) = true → dtype = 1 → doper = 1 → ((arrived h s).con h.port).streamsOn.contains h.nsid = true → ∃ t,
      exec (.directiveSend h dtype doper dspec enable tdtype) s = .next t ∧ Only (places [posting, logging, disarming] [.gen, .sh,
      .prov]) s t ∧ t =
      adminOk h ((arrived h s).updCon h.port (fun c => { c with streams := c.streams.filter (fun x => x != (h.nsid, dspec)) }))) ∧
  (∀ (h : AdminHdr) (dtype doper dspec : Nat) (enable : Bool) (tdtype : Nat) (s : State), adminServed h modesAll s = true →
      nsHere h (arrived h s) = true → dtype = 1 → doper = 2 → ((arrived h s).con h.port).streamsOn.contains h.nsid = true → ∃ t,
      exec (.directiveSend h dtype doper dspec enable tdtype) s = .next t ∧ Only (places [posting, logging, disarming] [.gen, .sh,
      .prov]) s t ∧ t =
      adminOk h ((arrived h s).updCon h.port (fun c => { c with streams := c.streams.filter (fun x => x.1 != h.nsid), streamRes := c.streamRes.filter (fun x => x.1 != h.nsid) }))) ∧
  (∀ (h : AdminHdr) (dtype doper dspec nsr : Nat) (s : State), adminServed h modesAll s = true → nsHere h (arrived h s) = true → dtype = 0 →
      doper = 1 → dataFits h 4096 (arrived h s) = true → ∃ t, exec (.directiveReceive h dtype doper dspec nsr) s = .next t ∧
      Only (places [posting, logging, disarming] [.gen, .sh, .me, .prov, .reg Reg.ME_MERGE.EVICT]) s t ∧ t =
      adminOk h (adminData h ((Page.of 4096 [(0, [3]), (32,
      [if ((arrived h s).con h.port).streamsOn.contains h.nsid then 3 else 1])]).slice 0 4096) (arrived h s))) ∧
  (∀ (h : AdminHdr) (dtype doper dspec nsr : Nat) (s : State), adminServed h modesAll s = true → nsHere h (arrived h s) = true → dtype = 1 →
      doper = 1 → dataFits h 32 (arrived h s) = true → ∃ t, exec (.directiveReceive h dtype doper dspec nsr) s = .next t ∧
      Only (places [posting, logging, disarming] [.gen, .sh, .me, .prov, .reg Reg.ME_MERGE.EVICT]) s t ∧ t =
      adminOk h (adminData h ((Page.of 32 [(0, le 2 16 ++ le 2 (16 - streamsTaken ((arrived h s).con h.port)) ++
      le 2 ((arrived h s).con h.port).streams.length), (22, le 2 (sumOf ((((arrived h s).con h.port).streamRes.filter (fun x => x.1 ==
      h.nsid)).map (·.2))) ++ le 2 (((arrived h s).con h.port).streams.filter (fun x => x.1 ==
      h.nsid)).length)]).slice 0 32) (arrived h s))) ∧
  (∀ (h : AdminHdr) (dtype doper dspec nsr : Nat) (s : State), adminServed h modesAll s = true → nsHere h (arrived h s) = true → dtype = 1 →
      doper = 2 → ((arrived h s).con h.port).streamsOn.contains h.nsid = true → dataFits h 34 (arrived h s) = true → ∃ t,
      exec (.directiveReceive h dtype doper dspec nsr) s = .next t ∧ Only (places [posting, logging, disarming] [.gen, .sh, .me, .prov,
      .reg Reg.ME_MERGE.EVICT]) s t ∧ t = adminOk h (adminData h ((Page.of 34 [(0,
      le 2 (((arrived h s).con h.port).streams.filter (fun x => x.1 == h.nsid)).length ++
      (((arrived h s).con h.port).streams.filter (fun x => x.1 == h.nsid)).flatMap (fun x => le 2 x.2))]).slice 0 34) (arrived h s))) ∧
  (∀ (h : AdminHdr) (code : Nat) (s : State), adminServed h modesAll s = true → code = 0xF → ((arrived h s).con h.port).selfTest = none →
      ∃ t, exec (.deviceSelfTest h code) s = .next t ∧ Only (places [posting, logging, disarming] [.gen, .sh, .prov]) s t ∧ t =
      adminOk h (arrived h s))

/-- Twin control, migration control and the seals. Rules: R108, R322, R323, R325, R329, R335, R337, R338, R339, R341, R342, R35. -/
def Obligations.TwinMigrationSeal : Prop :=
  (∀ (h : AdminHdr) (s : State), adminServed h modesAll s = true → (arrived h s).tw.st = .paired → (arrived h s).tw.active = true →
      (arrived h s).tw.switching = false → (arrived h s).tw.waitCmd = none → ∃ t, exec (.twinControlSwitch h) s = .next t ∧
      Only (places [posting, logging, revoking, windowLog, sending, disarming] [.gen, .sh, .tw, .prov]) s t ∧ t =
      switchNow (updTw (fun t => { t with switching := true, switchSent := false, waitCmd := some (h.port, h.cid) }) (arrived h s))) ∧
  (∀ (h : AdminHdr) (s : State), adminServed h modesAll s = true → (arrived h s).tw.st ≠ .paired ∨ (arrived h s).tw.active = false → ∃ t,
      exec (.twinControlSwitch h) s = .next t ∧ Only (places [posting, logging, revoking, windowLog, sending, disarming] [.gen, .sh, .tw,
      .prov]) s t ∧ t = twinError h (arrived h s)) ∧
  (∀ (h : AdminHdr) (s : State), adminServed h modesAll s = true → (arrived h s).tw.active = true → (arrived h s).tw.switching = false →
      (arrived h s).tw.st ≠ .none ∧ (arrived h s).tw.st ≠ .fenced → ∃ t, exec (.twinControlUnpair h) s = .next t ∧ Only (places [posting,
      logging, revoking, windowLog, sending, disarming, poisoned] [.freeCtr, .gen, .sh, .defFaults, .lost, .cmds, .mx, .ns, .mm, .tw, .dg,
      .prov, .reg Reg.MX_ERR.CEILHOLD, .reg Reg.TW_ERR.WINHOLD, .reg Reg.TW_ERR.TOUCHFULL]) s t ∧ t =
      (let v := unpaired (sendCtrl (arrived h s).tw.peer 0x03 [3, (arrived h s).tw.peerIdDigest, 0] (arrived h s));
      let w := retryCommits (updTw (fun t => { t with winWait := (arrived h s).tw.winWait }) v); adminDone h 0 0 (pairCode w) 0 w)) ∧
  (∀ (h : AdminHdr) (s : State), adminServed h modesAll s = true → (arrived h s).tw.st = .none → (arrived h s).gen.mode = .standby →
      (arrived h s).ns = [] → ∃ t, exec (.twinControlRelease h) s = .next t ∧ Only (places [posting, logging, disarming] [.gen, .sh, .ns,
      .prov]) s t ∧ t = adminDone h 0 0 (pairCode (rowEleven (arrived h s))) 0 (rowEleven (arrived h s))) ∧
  (∀ (h : AdminHdr) (s : State), adminServed h modesAll s = true → (arrived h s).tw.mig.role = 1 → (arrived h s).tw.mig.phase = 2 ∨
      (arrived h s).tw.mig.phase = 3 → ∃ t, exec (.migrationControlSeal h) s = .next t ∧ Only (places [posting, logging, disarming] [.gen,
      .sh, .ns, .tw, .prov]) s t ∧ t = adminOk h (sealSession (arrived h s))) ∧
  (∀ (h : AdminHdr) (s : State), adminServed h modesAll s = true → canAbort (arrived h s) = true → ∃ t, exec (.migrationControlAbort h) s =
      .next t ∧ Only (places [posting, logging, revoking, windowLog, sending, disarming] [.gen, .sh, .mx, .ns, .mm, .tw, .dg, .nand, .ff,
      .prov, .reg Reg.MX_ERR.CEILHOLD]) s t ∧ t = adminOk h (abortSession (sendCtrl (arrived h s).tw.mig.peer 0x16 [0] (arrived h s)))) ∧
  (∀ (h : AdminHdr) (s : State), adminServed h modesAll s = true → canAbort (arrived h s) = false → ∃ t, exec (.migrationControlAbort h) s =
      .next t ∧ Only (places [posting, logging, revoking, windowLog, sending, disarming] [.gen, .sh, .mx, .ns, .mm, .tw, .dg, .nand, .ff,
      .prov, .reg Reg.MX_ERR.CEILHOLD]) s t ∧ t = seqError h (arrived h s)) ∧
  (∀ (h : AdminHdr) (s : State), adminServed h modesAll s = true → ∃ t, exec (.migrationControlStatus h) s = .next t ∧
      Only (places [posting, logging, disarming] [.gen, .sh, .prov]) s t ∧ t = adminDone h 0 0 (migStatus (arrived h s)) 0 (arrived h s)) ∧
  (∀ (h : AdminHdr) (cutOver : Bool) (s : State), adminServed h modesAll s = true → (arrived h s).tw.mig.unknown = true → ∃ t,
      exec (.migrationControlResolve h cutOver) s = .next t ∧ Only (places [posting, logging, disarming] [.gen, .sh, .ns, .tw, .dg, .prov,
      .reg Reg.TW_ERR.CUTUNK]) s t ∧ t = adminOk h (if cutOver then sourceDone (arrived h s) else notCutOver (arrived h s))) ∧
  (∀ (h : AdminHdr) (perm : Bool) (s : State), adminServed h modesAll s = true → (arrived h s).gen.mode = .service → ∃ t,
      exec (.sealDevice h perm) s = .next t ∧ Only (places [posting, logging, revoking, windowLog, sending, disarming] [.freeCtr, .gen, .sh,
      .mx, .ns, .nsWait, .mm, .dg, .nand, .ff, .prov, .reg Reg.MM_ERR.SHORTCLOSE, .reg Reg.DG_RNG.RESEEDS]) s t ∧ t =
      acceptNs h 0 (.sealDevice perm) (arrived h s)) ∧
  (∀ (h : AdminHdr) (perm : Bool) (s : State), adminServed h modesAll s = true → (arrived h s).gen.mode ≠ .service → ∃ t,
      exec (.sealDevice h perm) s = .next t ∧ Only (places [posting, logging, revoking, windowLog, sending, disarming] [.freeCtr, .gen, .sh,
      .mx, .ns, .nsWait, .mm, .dg, .nand, .ff, .prov, .reg Reg.MM_ERR.SHORTCLOSE, .reg Reg.DG_RNG.RESEEDS]) s t ∧ t =
      adminFail h 0 0x0C (arrived h s)) ∧
  (∀ (h : AdminHdr) (s : State), adminServed h modesAll s = true → deviceSealLifts (arrived h s) = true → ∃ t, exec (.unsealDevice h) s =
      .next t ∧ Only (places [posting, logging, disarming] [.gen, .sh, .prov]) s t ∧ t =
      adminOk h (enterModeEv 17 .service { (arrived h s) with prov := { (arrived h s).prov with devSeal := none } })) ∧
  (∀ (h : AdminHdr) (s : State), adminServed h modesAll s = true → deviceSealLifts (arrived h s) = false → ∃ t, exec (.unsealDevice h) s =
      .next t ∧ Only (places [posting, logging, disarming] [.gen, .sh, .prov]) s t ∧ t = adminFail h 0 0x15 (arrived h s)) ∧
  (∀ (h : AdminHdr) (perm : Bool) (n : Ns) (s : State), adminServed h modesAll s = true → findNs h.nsid (arrived h s) = some n →
      n.sealInfo = none → beingDeleted h.nsid (arrived h s) = false → n.owner = true → (arrived h s).gen.mode ≠ .standby → n.ingesting =
      false → ∃ t, exec (.sealNamespace h perm) s = .next t ∧ Only (places [posting, logging, revoking, windowLog, sending,
      disarming] [.freeCtr, .gen, .sh, .mx, .ns, .nsWait, .mm, .dg, .nand, .ff, .prov, .reg Reg.MM_ERR.SHORTCLOSE,
      .reg Reg.DG_RNG.RESEEDS]) s t ∧ t = acceptNs h h.nsid (.sealNs perm) (arrived h s)) ∧
  (∀ (h : AdminHdr) (csn : Nat) (s : State), adminServed h modesAll s = true → beingDeleted h.nsid (arrived h s) = false →
      (findNs h.nsid (arrived h s)).bind (·.sealInfo) = some (csn, false) → ∃ t, exec (.unsealNamespace h) s = .next t ∧
      Only (places [posting, logging, revoking, windowLog, sending, disarming] [.gen, .sh, .ns, .prov]) s t ∧ t =
      adminOk h (mirror 3 [(arrived h s).mx.csn, 7, h.nsid] (unsealNsNow h.nsid (arrived h s)))) ∧
  (∀ (h : AdminHdr) (csn : Nat) (s : State), adminServed h modesAll s = true → beingDeleted h.nsid (arrived h s) = false →
      (findNs h.nsid (arrived h s)).bind (·.sealInfo) = some (csn, true) → ∃ t, exec (.unsealNamespace h) s = .next t ∧
      Only (places [posting, logging, revoking, windowLog, sending, disarming] [.gen, .sh, .ns, .prov]) s t ∧ t =
      adminFail h 0 0x15 (arrived h s)) ∧
  (∀ (h : AdminHdr) (peer idDigest : Nat) (peerReachable : Bool) (s : State), adminServed h modesAll s = true →
      descCheck h.port h.data 64 none (arrived h s) = none → (arrived h s).tw.st = .none → (arrived h s).gen.mode = .service →
      (arrived h s).tw.waitCmd = none → peerReachable = true → reachable peer (arrived h s) = true → ∃ t,
      exec (.twinControlPair h peer idDigest peerReachable) s = .next t ∧ Only (places [posting, logging, revoking, windowLog, sending,
      disarming] [.gen, .sh, .tw, .prov]) s t ∧ t = sendCtrl peer 0x03 [0, idDigest,
      (arrived h s).ns.length] (updTw (fun t => { t with peer := peer, peerIdDigest := idDigest, waitCmd := some (h.port, h.cid) }) (arrived h s))) ∧
  (∀ (h : AdminHdr) (peer idDigest returnerCsn : Nat) (s : State), adminServed h modesAll s = true →
      descCheck h.port h.data 64 none (arrived h s) = none → (arrived h s).tw.st ≠ .lost ∨ (arrived h s).tw.active = false ∨
      peer ≠ (arrived h s).tw.peer → ∃ t, exec (.twinControlRejoin h peer idDigest returnerCsn) s = .next t ∧ Only (places [posting,
      logging, revoking, windowLog, sending, disarming] [.pins, .gen, .sh, .tw, .prov, .reg Reg.TW_ERR.PEERID]) s t ∧ t =
      twinError h (arrived h s)) ∧
  (∀ (h : AdminHdr) (peer idDigest returnerCsn : Nat) (s : State), adminServed h modesAll s = true →
      descCheck h.port h.data 64 none (arrived h s) = none → s.tw.st = .lost → s.tw.active = true → peer = s.tw.peer → s.tw.peerIdDigest =
      idDigest → s.tw.changed = none → ∃ t, exec (.twinControlRejoin h peer idDigest returnerCsn) s = .next t ∧ Only (places [posting,
      logging, revoking, windowLog, sending, disarming] [.pins, .gen, .sh, .tw, .prov, .reg Reg.TW_ERR.PEERID]) s t ∧ t.tw.seedFull = true ∧
      t.tw.changed = none ∧ t.tw.peerIdDigest = idDigest ∧ t.tw.seedTodo = allSegments (fence false (arrived h s)) ∧ (t.tw.st = .seeding ∨
      t.tw.st = .paired)) ∧
  (∀ (h : AdminHdr) (peer idDigest : Nat) (s : State), adminServed h modesAll s = true → descCheck h.port h.data 64 none (arrived h s) =
      none → (arrived h s).gen.mode = .service → (arrived h s).ns = [] → (arrived h s).tw.st = .none → noSession (arrived h s) = true → ∃ t,
      exec (.migrationControlArm h peer idDigest) s = .next t ∧ Only (places [posting, logging, disarming] [.gen, .sh, .tw, .prov]) s t ∧
      t =
      (let v := enterModeEv 12 .ingest (updMig (fun _ => { Mig.none with phase := 1, role := 2, peer := peer, idDigest := idDigest }) (arrived h s));
      adminOk h { v with prov := { v.prov with migMark := 0 } })) ∧
  (∀ (h : AdminHdr) (auto : Bool) (peer idDigest : Nat) (nsids : List Nat) (s : State), adminServed h modesAll s = true →
      descCheck h.port h.data (68 + 4 * nsids.length) none (arrived h s) = none → (arrived h s).gen.mode = .service ∨
      (arrived h s).gen.mode = .sealed → ((arrived h s).tw.st = .none ∨ (arrived h s).tw.active = true) → noSession (arrived h s) = true →
      (arrived h s).tw.waitCmd = none → startNsOk nsids (arrived h s) = true → reachable peer (arrived h s) = true → ∃ t,
      exec (.migrationControlStart h auto peer idDigest nsids) s = .next t ∧ Only (places [posting, logging, revoking, windowLog, sending,
      disarming] [.gen, .sh, .tw, .prov]) s t ∧ t = sendCtrl peer 0x10 [idDigest,
      nsids.length] (sendFrame 3 peer 0x32 0 [] (updTw (fun t => { t with waitCmd := some (h.port, h.cid), stopped := [], mig := { Mig.none with role := 1, peer := peer, auto := auto, nsids := nsids, idDigest := idDigest } }) (arrived h s)))) ∧
  (∀ (h : AdminHdr) (peer idDigest returnerCsn : Nat) (s : State), adminServed h modesAll s = true →
      descCheck h.port h.data 64 none (arrived h s) = none → (arrived h s).tw.st = .lost → (arrived h s).tw.active = true → peer =
      (arrived h s).tw.peer → ((arrived h s).tw.peerIdDigest = 0 ∨ (arrived h s).tw.peerIdDigest = idDigest) → ∃ t,
      exec (.twinControlRejoin h peer idDigest returnerCsn) s = .next t ∧ Only (places [posting, logging, revoking, windowLog, sending,
      disarming] [.pins, .gen, .sh, .tw, .prov, .reg Reg.TW_ERR.PEERID]) s t ∧ t =
      (let todo := match (arrived h s).tw.changed with | some l => if returnerCsn ≤ (arrived h s).tw.takeH then some l else none | none => none; let u := fence false (arrived h s); let v := updTw (fun t => { t with st := if todo.getD (allSegments u) = [] then .paired else .seeding, seedTodo := todo.getD (allSegments u), seedFly := [], seedFull := todo.isNone, changed := none, peerIdDigest := idDigest, ack := u.mx.csn, stopped := [], pathALost := false, pathBLost := false }) u; let w := sendCtrl peer 0x03 [2, idDigest, v.ns.length] v; let x := if todo.isNone then w.ns.foldl (fun t n => mirror 3 [t.mx.csn, 3, n.nsid, n.lbaf] t) w else w; let y := askDue (mirrorTables x); adminDone h 0 0 (pairCode y) 0 y))

/-- Read, Write, Flush, Write Uncorrectable, Write Zeroes, Dataset Management, Verify, Copy and Fixity Digest are admitted. Rules: R109,
R110, R111, R112, R113, R115, R116, R118, R130, R131. -/
def Obligations.IoCommandsAdmitted : Prop :=
  (∀ (h : IoHdr) (slba nlb : Nat) (fua : Bool) (pr : PrInfo) (n : Ns) (s : State), rdy h.port s = true →
      ioTarget h (sqeArrived h.port h.sq s) = .inl n → dataFields nlb pr n = none → rangeOk n (slba, nlb) = true →
      classBad (classOfSq h.port h.sq (sqeArrived h.port h.sq s)) (nlb * lbaBytes n.lbaf) n (sqeArrived h.port h.sq s) = false →
      (0 < moveBytes n pr nlb → descCheck h.port h.data (moveBytes n pr nlb) (mdPair n pr nlb h) (sqeArrived h.port h.sq s) = none) → ∃ t,
      exec (.read h slba nlb fua pr) s = .next t ∧ Only (places [posting, logging, revoking, windowLog, sending, disarming,
      poisoned] [.freeCtr, .gen, .sh, .defFaults, .lost, .cmds, .nextCmd, .mx, .ns, .nsWait, .mm, .tw, .dg, .nand, .ff, .prov,
      .reg Reg.HE_EPCNT.A_COUNT, .reg Reg.HE_EPCNT.B_COUNT, .reg Reg.QE_REFUSE.COUNT, .reg Reg.QE_HOSTXS.LAST, .reg Reg.QE_HOSTXS.COUNT,
      .reg Reg.MX_PGMISS.COUNT, .reg Reg.MX_ERR.CEILHOLD, .reg Reg.MM_ERR.SHORTCLOSE, .reg Reg.MM_ERR.VATFULL, .reg Reg.DC_PIERR.GUARD,
      .reg Reg.DC_PIERR.APP, .reg Reg.DC_PIERR.REF, .reg Reg.ME_MERGE.EVICT, .reg Reg.TW_ERR.WINHOLD, .reg Reg.TW_ERR.TOUCHFULL,
      .reg Reg.DG_RNG.RESEEDS]) s t ∧ t =
      admission h n { ioDraft h .read (sqeArrived h.port h.sq s) with slba := slba, nlb := nlb, fua := fua, prr := pr, addrs := dataPieces (hostPage h.port (sqeArrived h.port h.sq s)) h.data (moveBytes n pr nlb), mdAddrs := ((mdPair n pr nlb h).map (·.pieces)).getD [] } (nlb * lbaBytes n.lbaf) (sqeArrived h.port h.sq s)) ∧
  (∀ (h : IoHdr) (slba nlb : Nat) (fua : Bool) (pr : PrInfo) (stream : Nat) (n : Ns) (s : State), rdy h.port s = true →
      ioTarget h (sqeArrived h.port h.sq s) = .inl n → dataFields nlb pr n = none → rangeOk n (slba, nlb) = true →
      sealedNs n (sqeArrived h.port h.sq s) = false →
      classBad (classOfSq h.port h.sq (sqeArrived h.port h.sq s)) (nlb * lbaBytes n.lbaf) n (sqeArrived h.port h.sq s) = false →
      (0 < moveBytes n pr nlb → descCheck h.port h.data (moveBytes n pr nlb) (mdPair n pr nlb h) (sqeArrived h.port h.sq s) = none) → ∃ t,
      exec (.write h slba nlb fua pr stream) s = .next t ∧ Only (places [posting, logging, revoking, windowLog, sending, disarming,
      poisoned] [.freeCtr, .gen, .sh, .defFaults, .lost, .cmds, .nextCmd, .mx, .ns, .nsWait, .mm, .tw, .dg, .nand, .ff, .prov,
      .reg Reg.HE_EPCNT.A_COUNT, .reg Reg.HE_EPCNT.B_COUNT, .reg Reg.QE_REFUSE.COUNT, .reg Reg.QE_HOSTXS.LAST, .reg Reg.QE_HOSTXS.COUNT,
      .reg Reg.MX_PGMISS.COUNT, .reg Reg.MX_ERR.CEILHOLD, .reg Reg.MM_ERR.SHORTCLOSE, .reg Reg.MM_ERR.VATFULL, .reg Reg.DC_PIERR.GUARD,
      .reg Reg.DC_PIERR.APP, .reg Reg.DC_PIERR.REF, .reg Reg.ME_MERGE.EVICT, .reg Reg.TW_ERR.WINHOLD, .reg Reg.TW_ERR.TOUCHFULL,
      .reg Reg.DG_RNG.RESEEDS]) s t ∧ t =
      admission h n { ioDraft h .write (sqeArrived h.port h.sq s) with slba := slba, nlb := nlb, fua := asFua fua (sqeArrived h.port h.sq s), prw := pr, stream := stream, addrs := dataPieces (hostPage h.port (sqeArrived h.port h.sq s)) h.data (moveBytes n pr nlb), mdAddrs := ((mdPair n pr nlb h).map (·.pieces)).getD [] } (nlb * lbaBytes n.lbaf) (sqeArrived h.port h.sq s)) ∧
  (∀ (h : IoHdr)  (n : Ns) (s : State), rdy h.port s = true → ioTarget h (sqeArrived h.port h.sq s) = .inl n →
      classBad (classOfSq h.port h.sq (sqeArrived h.port h.sq s)) 0 n (sqeArrived h.port h.sq s) = false → h.nsid ≠ 0xFFFFFFFF → ∃ t,
      exec (.flush h) s = .next t ∧ Only (places [posting, logging, revoking, windowLog, sending, disarming, poisoned] [.freeCtr, .gen, .sh,
      .defFaults, .lost, .cmds, .nextCmd, .mx, .ns, .nsWait, .mm, .tw, .dg, .nand, .ff, .prov, .reg Reg.HE_EPCNT.A_COUNT,
      .reg Reg.HE_EPCNT.B_COUNT, .reg Reg.QE_REFUSE.COUNT, .reg Reg.QE_HOSTXS.LAST, .reg Reg.QE_HOSTXS.COUNT, .reg Reg.MX_PGMISS.COUNT,
      .reg Reg.MX_ERR.CEILHOLD, .reg Reg.MM_ERR.SHORTCLOSE, .reg Reg.MM_ERR.VATFULL, .reg Reg.DC_PIERR.GUARD, .reg Reg.DC_PIERR.APP,
      .reg Reg.DC_PIERR.REF, .reg Reg.ME_MERGE.EVICT, .reg Reg.TW_ERR.WINHOLD, .reg Reg.TW_ERR.TOUCHFULL, .reg Reg.DG_RNG.RESEEDS]) s t ∧
      t =
      admission h n { ioDraft h .flush (sqeArrived h.port h.sq s) with flushCsn := ((findNs h.nsid (sqeArrived h.port h.sq s)).map (·.lastCsn)).getD 0, addrs := dataPieces (hostPage h.port (sqeArrived h.port h.sq s)) h.data 0 } 0 (sqeArrived h.port h.sq s)) ∧
  (∀ (h : IoHdr) (slba nlb : Nat) (n : Ns) (s : State), rdy h.port s = true → ioTarget h (sqeArrived h.port h.sq s) = .inl n →
      rangeOk n (slba, nlb) = true → sealedNs n (sqeArrived h.port h.sq s) = false →
      classBad (classOfSq h.port h.sq (sqeArrived h.port h.sq s)) 0 n (sqeArrived h.port h.sq s) = false → ∃ t,
      exec (.writeUncorrectable h slba nlb) s = .next t ∧ Only (places [posting, logging, revoking, windowLog, sending, disarming,
      poisoned] [.freeCtr, .gen, .sh, .defFaults, .lost, .cmds, .nextCmd, .mx, .ns, .nsWait, .mm, .tw, .dg, .nand, .ff, .prov,
      .reg Reg.HE_EPCNT.A_COUNT, .reg Reg.HE_EPCNT.B_COUNT, .reg Reg.QE_REFUSE.COUNT, .reg Reg.QE_HOSTXS.LAST, .reg Reg.QE_HOSTXS.COUNT,
      .reg Reg.MX_PGMISS.COUNT, .reg Reg.MX_ERR.CEILHOLD, .reg Reg.MM_ERR.SHORTCLOSE, .reg Reg.MM_ERR.VATFULL, .reg Reg.DC_PIERR.GUARD,
      .reg Reg.DC_PIERR.APP, .reg Reg.DC_PIERR.REF, .reg Reg.ME_MERGE.EVICT, .reg Reg.TW_ERR.WINHOLD, .reg Reg.TW_ERR.TOUCHFULL,
      .reg Reg.DG_RNG.RESEEDS]) s t ∧ t =
      admission h n { ioDraft h .writeUncor (sqeArrived h.port h.sq s) with slba := slba, nlb := nlb, fua := asFua false (sqeArrived h.port h.sq s), addrs := dataPieces (hostPage h.port (sqeArrived h.port h.sq s)) h.data 0 } 0 (sqeArrived h.port h.sq s)) ∧
  (∀ (h : IoHdr) (slba nlb : Nat) (fua deac : Bool) (pr : PrInfo) (n : Ns) (s : State), rdy h.port s = true →
      ioTarget h (sqeArrived h.port h.sq s) = .inl n → prValid n pr = true → rangeOk n (slba, nlb) = true →
      sealedNs n (sqeArrived h.port h.sq s) = false →
      classBad (classOfSq h.port h.sq (sqeArrived h.port h.sq s)) 0 n (sqeArrived h.port h.sq s) = false → ∃ t,
      exec (.writeZeroes h slba nlb fua deac pr) s = .next t ∧ Only (places [posting, logging, revoking, windowLog, sending, disarming,
      poisoned] [.freeCtr, .gen, .sh, .defFaults, .lost, .cmds, .nextCmd, .mx, .ns, .nsWait, .mm, .tw, .dg, .nand, .ff, .prov,
      .reg Reg.HE_EPCNT.A_COUNT, .reg Reg.HE_EPCNT.B_COUNT, .reg Reg.QE_REFUSE.COUNT, .reg Reg.QE_HOSTXS.LAST, .reg Reg.QE_HOSTXS.COUNT,
      .reg Reg.MX_PGMISS.COUNT, .reg Reg.MX_ERR.CEILHOLD, .reg Reg.MM_ERR.SHORTCLOSE, .reg Reg.MM_ERR.VATFULL, .reg Reg.DC_PIERR.GUARD,
      .reg Reg.DC_PIERR.APP, .reg Reg.DC_PIERR.REF, .reg Reg.ME_MERGE.EVICT, .reg Reg.TW_ERR.WINHOLD, .reg Reg.TW_ERR.TOUCHFULL,
      .reg Reg.DG_RNG.RESEEDS]) s t ∧ t =
      admission h n { ioDraft h .writeZeroes (sqeArrived h.port h.sq s) with slba := slba, nlb := nlb, fua := asFua fua (sqeArrived h.port h.sq s), addrs := dataPieces (hostPage h.port (sqeArrived h.port h.sq s)) h.data 0 } 0 (sqeArrived h.port h.sq s)) ∧
  (∀ (h : IoHdr) (ad : Bool) (ranges : List (Nat × Nat)) (n : Ns) (s : State), rdy h.port s = true → ioTarget h (sqeArrived h.port h.sq s) =
      .inl n → ranges ≠ [] ∧ ranges.length ≤ 256 → sealedNs n (sqeArrived h.port h.sq s) = false →
      classBad (classOfSq h.port h.sq (sqeArrived h.port h.sq s)) 0 n (sqeArrived h.port h.sq s) = false →
      descCheck h.port h.data (16 * ranges.length) none (sqeArrived h.port h.sq s) = none → 0 < 16 * ranges.length → ad = true →
      ranges.all (rangeOk n) = true → ∃ t, exec (.datasetManagement h ad ranges) s = .next t ∧ Only (places [posting, logging, revoking,
      windowLog, sending, disarming, poisoned] [.freeCtr, .gen, .sh, .defFaults, .lost, .cmds, .nextCmd, .mx, .ns, .nsWait, .mm, .tw, .dg,
      .nand, .ff, .prov, .reg Reg.HE_EPCNT.A_COUNT, .reg Reg.HE_EPCNT.B_COUNT, .reg Reg.QE_REFUSE.COUNT, .reg Reg.QE_HOSTXS.LAST,
      .reg Reg.QE_HOSTXS.COUNT, .reg Reg.MX_PGMISS.COUNT, .reg Reg.MX_ERR.CEILHOLD, .reg Reg.MM_ERR.SHORTCLOSE, .reg Reg.MM_ERR.VATFULL,
      .reg Reg.DC_PIERR.GUARD, .reg Reg.DC_PIERR.APP, .reg Reg.DC_PIERR.REF, .reg Reg.ME_MERGE.EVICT, .reg Reg.TW_ERR.WINHOLD,
      .reg Reg.TW_ERR.TOUCHFULL, .reg Reg.DG_RNG.RESEEDS]) s t ∧ t =
      admission h n { ioDraft h .dsm (sqeArrived h.port h.sq s) with ranges := ranges, fua := asFua false (sqeArrived h.port h.sq s), addrs := dataPieces (hostPage h.port (sqeArrived h.port h.sq s)) h.data (16 * ranges.length) } 0 (sqeArrived h.port h.sq s)) ∧
  (∀ (h : IoHdr) (ad : Bool) (ranges : List (Nat × Nat)) (s : State), ad = false → ∃ t, exec (.datasetManagement h ad ranges) s = .next t ∧
      Only (places [posting, logging, revoking, windowLog, sending, disarming, poisoned] [.freeCtr, .gen, .sh, .defFaults, .lost, .cmds,
      .nextCmd, .mx, .ns, .nsWait, .mm, .tw, .dg, .nand, .ff, .prov, .reg Reg.HE_EPCNT.A_COUNT, .reg Reg.HE_EPCNT.B_COUNT,
      .reg Reg.QE_REFUSE.COUNT, .reg Reg.QE_HOSTXS.LAST, .reg Reg.QE_HOSTXS.COUNT, .reg Reg.MX_PGMISS.COUNT, .reg Reg.MX_ERR.CEILHOLD,
      .reg Reg.MM_ERR.SHORTCLOSE, .reg Reg.MM_ERR.VATFULL, .reg Reg.DC_PIERR.GUARD, .reg Reg.DC_PIERR.APP, .reg Reg.DC_PIERR.REF,
      .reg Reg.ME_MERGE.EVICT, .reg Reg.TW_ERR.WINHOLD, .reg Reg.TW_ERR.TOUCHFULL, .reg Reg.DG_RNG.RESEEDS]) s t ∧ t = dsmHint h ranges s) ∧
  (∀ (h : IoHdr) (slba nlb : Nat) (pr : PrInfo) (n : Ns) (s : State), rdy h.port s = true → ioTarget h (sqeArrived h.port h.sq s) = .inl n →
      dataFields nlb pr n = none → rangeOk n (slba, nlb) = true →
      classBad (classOfSq h.port h.sq (sqeArrived h.port h.sq s)) (nlb * lbaBytes n.lbaf) n (sqeArrived h.port h.sq s) = false → ∃ t,
      exec (.verify h slba nlb pr) s = .next t ∧ Only (places [posting, logging, revoking, windowLog, sending, disarming,
      poisoned] [.freeCtr, .gen, .sh, .defFaults, .lost, .cmds, .nextCmd, .mx, .ns, .nsWait, .mm, .tw, .dg, .nand, .ff, .prov,
      .reg Reg.HE_EPCNT.A_COUNT, .reg Reg.HE_EPCNT.B_COUNT, .reg Reg.QE_REFUSE.COUNT, .reg Reg.QE_HOSTXS.LAST, .reg Reg.QE_HOSTXS.COUNT,
      .reg Reg.MX_PGMISS.COUNT, .reg Reg.MX_ERR.CEILHOLD, .reg Reg.MM_ERR.SHORTCLOSE, .reg Reg.MM_ERR.VATFULL, .reg Reg.DC_PIERR.GUARD,
      .reg Reg.DC_PIERR.APP, .reg Reg.DC_PIERR.REF, .reg Reg.ME_MERGE.EVICT, .reg Reg.TW_ERR.WINHOLD, .reg Reg.TW_ERR.TOUCHFULL,
      .reg Reg.DG_RNG.RESEEDS]) s t ∧ t =
      admission h n { ioDraft h .verify (sqeArrived h.port h.sq s) with slba := slba, nlb := nlb, prr := pr, addrs := dataPieces (hostPage h.port (sqeArrived h.port h.sq s)) h.data 0 } (nlb * lbaBytes n.lbaf) (sqeArrived h.port h.sq s)) ∧
  (∀ (h : IoHdr) (sdlba format src nlb : Nat) (fua : Bool) (prr prw : PrInfo) (n : Ns) (s : State), rdy h.port s = true →
      ioTarget h (sqeArrived h.port h.sq s) = .inl n → format = copyFormat n ∧ dataFields nlb prr n = none ∧ prValid n prw = true →
      rangeOk n (src, nlb) = true → rangeOk n (sdlba, nlb) = true → sealedNs n (sqeArrived h.port h.sq s) = false →
      classBad (classOfSq h.port h.sq (sqeArrived h.port h.sq s)) (nlb * lbaBytes n.lbaf) n (sqeArrived h.port h.sq s) = false →
      descCheck h.port h.data ((if copyFormat n = 1 then 40 else 32)) none (sqeArrived h.port h.sq s) = none → 0 < (if copyFormat n =
      1 then 40 else 32) → ∃ t, exec (.copy h sdlba format [(src, nlb)] fua prr prw) s = .next t ∧ Only (places [posting, logging, revoking,
      windowLog, sending, disarming, poisoned] [.freeCtr, .gen, .sh, .defFaults, .lost, .cmds, .nextCmd, .mx, .ns, .nsWait, .mm, .tw, .dg,
      .nand, .ff, .prov, .reg Reg.HE_EPCNT.A_COUNT, .reg Reg.HE_EPCNT.B_COUNT, .reg Reg.QE_REFUSE.COUNT, .reg Reg.QE_HOSTXS.LAST,
      .reg Reg.QE_HOSTXS.COUNT, .reg Reg.MX_PGMISS.COUNT, .reg Reg.MX_ERR.CEILHOLD, .reg Reg.MM_ERR.SHORTCLOSE, .reg Reg.MM_ERR.VATFULL,
      .reg Reg.DC_PIERR.GUARD, .reg Reg.DC_PIERR.APP, .reg Reg.DC_PIERR.REF, .reg Reg.ME_MERGE.EVICT, .reg Reg.TW_ERR.WINHOLD,
      .reg Reg.TW_ERR.TOUCHFULL, .reg Reg.DG_RNG.RESEEDS]) s t ∧ t =
      admission h n { ioDraft h .copy (sqeArrived h.port h.sq s) with slba := src, nlb := nlb, dst := sdlba, fua := asFua fua (sqeArrived h.port h.sq s), prr := prr, prw := prw, addrs := dataPieces (hostPage h.port (sqeArrived h.port h.sq s)) h.data ((if copyFormat n = 1 then 40 else 32)) } (nlb * lbaBytes n.lbaf) (sqeArrived h.port h.sq s)) ∧
  (∀ (h : IoHdr) (slba nlb alg : Nat) (n : Ns) (s : State), rdy h.port s = true → ioTarget h (sqeArrived h.port h.sq s) = .inl n → alg < 3 ∧
      nlb ≤ 2 ^ 32 → rangeOk n (slba, nlb) = true →
      classBad (classOfSq h.port h.sq (sqeArrived h.port h.sq s)) (nlb * lbaBytes n.lbaf) n (sqeArrived h.port h.sq s) = false →
      descCheck h.port h.data (64) none (sqeArrived h.port h.sq s) = none → 0 < 64 → ∃ t, exec (.fixityDigest h slba nlb alg) s = .next t ∧
      Only (places [posting, logging, revoking, windowLog, sending, disarming, poisoned] [.freeCtr, .gen, .sh, .defFaults, .lost, .cmds,
      .nextCmd, .mx, .ns, .nsWait, .mm, .tw, .dg, .nand, .ff, .prov, .reg Reg.HE_EPCNT.A_COUNT, .reg Reg.HE_EPCNT.B_COUNT,
      .reg Reg.QE_REFUSE.COUNT, .reg Reg.QE_HOSTXS.LAST, .reg Reg.QE_HOSTXS.COUNT, .reg Reg.MX_PGMISS.COUNT, .reg Reg.MX_ERR.CEILHOLD,
      .reg Reg.MM_ERR.SHORTCLOSE, .reg Reg.MM_ERR.VATFULL, .reg Reg.DC_PIERR.GUARD, .reg Reg.DC_PIERR.APP, .reg Reg.DC_PIERR.REF,
      .reg Reg.ME_MERGE.EVICT, .reg Reg.TW_ERR.WINHOLD, .reg Reg.TW_ERR.TOUCHFULL, .reg Reg.DG_RNG.RESEEDS]) s t ∧ t =
      admission h n { ioDraft h .fixity (sqeArrived h.port h.sq s) with slba := slba, nlb := nlb, alg := alg, addrs := dataPieces (hostPage h.port (sqeArrived h.port h.sq s)) h.data 64 } (nlb * lbaBytes n.lbaf) (sqeArrived h.port h.sq s)) ∧
  (∀ (h : IoHdr) (slba nlb : Nat) (fua : Bool) (pr : PrInfo) (stream : Nat) (n : Ns) (s : State), rdy h.port s = true →
      ioTarget h (sqeArrived h.port h.sq s) = .inl n → dataFields nlb pr n = none → rangeOk n (slba, nlb) = true →
      sealedNs n (sqeArrived h.port h.sq s) = true → ∃ t, exec (.write h slba nlb fua pr stream) s = .next t ∧ Only (places [posting,
      logging, revoking, windowLog, sending, disarming, poisoned] [.freeCtr, .gen, .sh, .defFaults, .lost, .cmds, .nextCmd, .mx, .ns,
      .nsWait, .mm, .tw, .dg, .nand, .ff, .prov, .reg Reg.HE_EPCNT.A_COUNT, .reg Reg.HE_EPCNT.B_COUNT, .reg Reg.QE_REFUSE.COUNT,
      .reg Reg.QE_HOSTXS.LAST, .reg Reg.QE_HOSTXS.COUNT, .reg Reg.MX_PGMISS.COUNT, .reg Reg.MX_ERR.CEILHOLD, .reg Reg.MM_ERR.SHORTCLOSE,
      .reg Reg.MM_ERR.VATFULL, .reg Reg.DC_PIERR.GUARD, .reg Reg.DC_PIERR.APP, .reg Reg.DC_PIERR.REF, .reg Reg.ME_MERGE.EVICT,
      .reg Reg.TW_ERR.WINHOLD, .reg Reg.TW_ERR.TOUCHFULL, .reg Reg.DG_RNG.RESEEDS]) s t ∧ t = ioFail h 7 0x82 0 (sqeArrived h.port h.sq s)) ∧
  (∀ (h : IoHdr) (slba nlb : Nat) (fua : Bool) (pr : PrInfo) (n : Ns) (s : State), rdy h.port s = true →
      ioTarget h (sqeArrived h.port h.sq s) = .inl n → dataFields nlb pr n = none → rangeOk n (slba, nlb) = false → ∃ t,
      exec (.read h slba nlb fua pr) s = .next t ∧ Only (places [posting, logging, revoking, windowLog, sending, disarming,
      poisoned] [.freeCtr, .gen, .sh, .defFaults, .lost, .cmds, .nextCmd, .mx, .ns, .nsWait, .mm, .tw, .dg, .nand, .ff, .prov,
      .reg Reg.HE_EPCNT.A_COUNT, .reg Reg.HE_EPCNT.B_COUNT, .reg Reg.QE_REFUSE.COUNT, .reg Reg.QE_HOSTXS.LAST, .reg Reg.QE_HOSTXS.COUNT,
      .reg Reg.MX_PGMISS.COUNT, .reg Reg.MX_ERR.CEILHOLD, .reg Reg.MM_ERR.SHORTCLOSE, .reg Reg.MM_ERR.VATFULL, .reg Reg.DC_PIERR.GUARD,
      .reg Reg.DC_PIERR.APP, .reg Reg.DC_PIERR.REF, .reg Reg.ME_MERGE.EVICT, .reg Reg.TW_ERR.WINHOLD, .reg Reg.TW_ERR.TOUCHFULL,
      .reg Reg.DG_RNG.RESEEDS]) s t ∧ t = ioFail h 0 0x80 0 (sqeArrived h.port h.sq s)) ∧
  (∀ (h : IoHdr) (slba nlb : Nat) (fua : Bool) (pr : PrInfo) (s : State), rdy h.port s = true → modesAll s.gen.mode = true → h.fuse = 0 →
      h.reservedZero = true → s.sh.sanState = 0 → findNs h.nsid s = none → ∃ t, exec (.read h slba nlb fua pr) s = .next t ∧
      Only (places [posting, logging, revoking, windowLog, sending, disarming, poisoned] [.freeCtr, .gen, .sh, .defFaults, .lost, .cmds,
      .nextCmd, .mx, .ns, .nsWait, .mm, .tw, .dg, .nand, .ff, .prov, .reg Reg.HE_EPCNT.A_COUNT, .reg Reg.HE_EPCNT.B_COUNT,
      .reg Reg.QE_REFUSE.COUNT, .reg Reg.QE_HOSTXS.LAST, .reg Reg.QE_HOSTXS.COUNT, .reg Reg.MX_PGMISS.COUNT, .reg Reg.MX_ERR.CEILHOLD,
      .reg Reg.MM_ERR.SHORTCLOSE, .reg Reg.MM_ERR.VATFULL, .reg Reg.DC_PIERR.GUARD, .reg Reg.DC_PIERR.APP, .reg Reg.DC_PIERR.REF,
      .reg Reg.ME_MERGE.EVICT, .reg Reg.TW_ERR.WINHOLD, .reg Reg.TW_ERR.TOUCHFULL, .reg Reg.DG_RNG.RESEEDS]) s t ∧ t =
      ioFail h 0 0x0B 0 (sqeArrived h.port h.sq s)) ∧
  (∀ (h : IoHdr) (slba nlb : Nat) (fua : Bool) (pr : PrInfo) (n : Ns) (s : State), rdy h.port s = true →
      ioTarget h (sqeArrived h.port h.sq s) = .inl n → dataFields nlb pr n = none → rangeOk n (slba, nlb) = true →
      classBad (classOfSq h.port h.sq (sqeArrived h.port h.sq s)) (nlb * lbaBytes n.lbaf) n (sqeArrived h.port h.sq s) = false →
      (0 < moveBytes n pr nlb → descCheck h.port h.data (moveBytes n pr nlb) (mdPair n pr nlb h) (sqeArrived h.port h.sq s) = none) →
      (goesIn h n { ioDraft h .read (sqeArrived h.port h.sq s) with slba := slba, nlb := nlb, fua := fua, prr := pr, addrs := dataPieces (hostPage h.port (sqeArrived h.port h.sq s)) h.data (moveBytes n pr nlb), mdAddrs := ((mdPair n pr nlb h).map (·.pieces)).getD [] } (nlb * lbaBytes n.lbaf) (sqeArrived h.port h.sq s)).isSome =
      true → ∃ t, exec (.read h slba nlb fua pr) s = .next t ∧ Only (places [posting, logging, revoking, windowLog, sending, disarming,
      poisoned] [.freeCtr, .gen, .sh, .defFaults, .lost, .cmds, .nextCmd, .mx, .ns, .nsWait, .mm, .tw, .dg, .nand, .ff, .prov,
      .reg Reg.HE_EPCNT.A_COUNT, .reg Reg.HE_EPCNT.B_COUNT, .reg Reg.QE_REFUSE.COUNT, .reg Reg.QE_HOSTXS.LAST, .reg Reg.QE_HOSTXS.COUNT,
      .reg Reg.MX_PGMISS.COUNT, .reg Reg.MX_ERR.CEILHOLD, .reg Reg.MM_ERR.SHORTCLOSE, .reg Reg.MM_ERR.VATFULL, .reg Reg.DC_PIERR.GUARD,
      .reg Reg.DC_PIERR.APP, .reg Reg.DC_PIERR.REF, .reg Reg.ME_MERGE.EVICT, .reg Reg.TW_ERR.WINHOLD, .reg Reg.TW_ERR.TOUCHFULL,
      .reg Reg.DG_RNG.RESEEDS]) s t ∧
      goesIn h n { ioDraft h .read (sqeArrived h.port h.sq s) with slba := slba, nlb := nlb, fua := fua, prr := pr, addrs := dataPieces (hostPage h.port (sqeArrived h.port h.sq s)) h.data (moveBytes n pr nlb), mdAddrs := ((mdPair n pr nlb h).map (·.pieces)).getD [] } (nlb * lbaBytes n.lbaf) (sqeArrived h.port h.sq s) =
      some t) ∧
  (∀ (h : IoHdr) (slba nlb : Nat) (fua : Bool) (pr : PrInfo) (stream : Nat) (n : Ns) (s : State), rdy h.port s = true →
      ioTarget h (sqeArrived h.port h.sq s) = .inl n → dataFields nlb pr n = none → rangeOk n (slba, nlb) = true →
      sealedNs n (sqeArrived h.port h.sq s) = false →
      classBad (classOfSq h.port h.sq (sqeArrived h.port h.sq s)) (nlb * lbaBytes n.lbaf) n (sqeArrived h.port h.sq s) = false →
      (0 < moveBytes n pr nlb → descCheck h.port h.data (moveBytes n pr nlb) (mdPair n pr nlb h) (sqeArrived h.port h.sq s) = none) →
      (goesIn h n { ioDraft h .write (sqeArrived h.port h.sq s) with slba := slba, nlb := nlb, fua := asFua fua (sqeArrived h.port h.sq s), prw := pr, stream := stream, addrs := dataPieces (hostPage h.port (sqeArrived h.port h.sq s)) h.data (moveBytes n pr nlb), mdAddrs := ((mdPair n pr nlb h).map (·.pieces)).getD [] } (nlb * lbaBytes n.lbaf) (sqeArrived h.port h.sq s)).isSome =
      true → ∃ t, exec (.write h slba nlb fua pr stream) s = .next t ∧ Only (places [posting, logging, revoking, windowLog, sending,
      disarming, poisoned] [.freeCtr, .gen, .sh, .defFaults, .lost, .cmds, .nextCmd, .mx, .ns, .nsWait, .mm, .tw, .dg, .nand, .ff, .prov,
      .reg Reg.HE_EPCNT.A_COUNT, .reg Reg.HE_EPCNT.B_COUNT, .reg Reg.QE_REFUSE.COUNT, .reg Reg.QE_HOSTXS.LAST, .reg Reg.QE_HOSTXS.COUNT,
      .reg Reg.MX_PGMISS.COUNT, .reg Reg.MX_ERR.CEILHOLD, .reg Reg.MM_ERR.SHORTCLOSE, .reg Reg.MM_ERR.VATFULL, .reg Reg.DC_PIERR.GUARD,
      .reg Reg.DC_PIERR.APP, .reg Reg.DC_PIERR.REF, .reg Reg.ME_MERGE.EVICT, .reg Reg.TW_ERR.WINHOLD, .reg Reg.TW_ERR.TOUCHFULL,
      .reg Reg.DG_RNG.RESEEDS]) s t ∧
      goesIn h n { ioDraft h .write (sqeArrived h.port h.sq s) with slba := slba, nlb := nlb, fua := asFua fua (sqeArrived h.port h.sq s), prw := pr, stream := stream, addrs := dataPieces (hostPage h.port (sqeArrived h.port h.sq s)) h.data (moveBytes n pr nlb), mdAddrs := ((mdPair n pr nlb h).map (·.pieces)).getD [] } (nlb * lbaBytes n.lbaf) (sqeArrived h.port h.sq s) =
      some t) ∧
  (∀ (h : IoHdr)  (n : Ns) (s : State), rdy h.port s = true → ioTarget h (sqeArrived h.port h.sq s) = .inl n →
      classBad (classOfSq h.port h.sq (sqeArrived h.port h.sq s)) 0 n (sqeArrived h.port h.sq s) = false → h.nsid ≠ 0xFFFFFFFF →
      (goesIn h n { ioDraft h .flush (sqeArrived h.port h.sq s) with flushCsn := ((findNs h.nsid (sqeArrived h.port h.sq s)).map (·.lastCsn)).getD 0, addrs := dataPieces (hostPage h.port (sqeArrived h.port h.sq s)) h.data 0 } 0 (sqeArrived h.port h.sq s)).isSome =
      true → ∃ t, exec (.flush h) s = .next t ∧ Only (places [posting, logging, revoking, windowLog, sending, disarming,
      poisoned] [.freeCtr, .gen, .sh, .defFaults, .lost, .cmds, .nextCmd, .mx, .ns, .nsWait, .mm, .tw, .dg, .nand, .ff, .prov,
      .reg Reg.HE_EPCNT.A_COUNT, .reg Reg.HE_EPCNT.B_COUNT, .reg Reg.QE_REFUSE.COUNT, .reg Reg.QE_HOSTXS.LAST, .reg Reg.QE_HOSTXS.COUNT,
      .reg Reg.MX_PGMISS.COUNT, .reg Reg.MX_ERR.CEILHOLD, .reg Reg.MM_ERR.SHORTCLOSE, .reg Reg.MM_ERR.VATFULL, .reg Reg.DC_PIERR.GUARD,
      .reg Reg.DC_PIERR.APP, .reg Reg.DC_PIERR.REF, .reg Reg.ME_MERGE.EVICT, .reg Reg.TW_ERR.WINHOLD, .reg Reg.TW_ERR.TOUCHFULL,
      .reg Reg.DG_RNG.RESEEDS]) s t ∧
      goesIn h n { ioDraft h .flush (sqeArrived h.port h.sq s) with flushCsn := ((findNs h.nsid (sqeArrived h.port h.sq s)).map (·.lastCsn)).getD 0, addrs := dataPieces (hostPage h.port (sqeArrived h.port h.sq s)) h.data 0 } 0 (sqeArrived h.port h.sq s) =
      some t) ∧
  (∀ (h : IoHdr) (slba nlb : Nat) (n : Ns) (s : State), rdy h.port s = true → ioTarget h (sqeArrived h.port h.sq s) = .inl n →
      rangeOk n (slba, nlb) = true → sealedNs n (sqeArrived h.port h.sq s) = false →
      classBad (classOfSq h.port h.sq (sqeArrived h.port h.sq s)) 0 n (sqeArrived h.port h.sq s) = false →
      (goesIn h n { ioDraft h .writeUncor (sqeArrived h.port h.sq s) with slba := slba, nlb := nlb, fua := asFua false (sqeArrived h.port h.sq s), addrs := dataPieces (hostPage h.port (sqeArrived h.port h.sq s)) h.data 0 } 0 (sqeArrived h.port h.sq s)).isSome =
      true → ∃ t, exec (.writeUncorrectable h slba nlb) s = .next t ∧ Only (places [posting, logging, revoking, windowLog, sending,
      disarming, poisoned] [.freeCtr, .gen, .sh, .defFaults, .lost, .cmds, .nextCmd, .mx, .ns, .nsWait, .mm, .tw, .dg, .nand, .ff, .prov,
      .reg Reg.HE_EPCNT.A_COUNT, .reg Reg.HE_EPCNT.B_COUNT, .reg Reg.QE_REFUSE.COUNT, .reg Reg.QE_HOSTXS.LAST, .reg Reg.QE_HOSTXS.COUNT,
      .reg Reg.MX_PGMISS.COUNT, .reg Reg.MX_ERR.CEILHOLD, .reg Reg.MM_ERR.SHORTCLOSE, .reg Reg.MM_ERR.VATFULL, .reg Reg.DC_PIERR.GUARD,
      .reg Reg.DC_PIERR.APP, .reg Reg.DC_PIERR.REF, .reg Reg.ME_MERGE.EVICT, .reg Reg.TW_ERR.WINHOLD, .reg Reg.TW_ERR.TOUCHFULL,
      .reg Reg.DG_RNG.RESEEDS]) s t ∧
      goesIn h n { ioDraft h .writeUncor (sqeArrived h.port h.sq s) with slba := slba, nlb := nlb, fua := asFua false (sqeArrived h.port h.sq s), addrs := dataPieces (hostPage h.port (sqeArrived h.port h.sq s)) h.data 0 } 0 (sqeArrived h.port h.sq s) =
      some t) ∧
  (∀ (h : IoHdr) (slba nlb : Nat) (fua deac : Bool) (pr : PrInfo) (n : Ns) (s : State), rdy h.port s = true →
      ioTarget h (sqeArrived h.port h.sq s) = .inl n → prValid n pr = true → rangeOk n (slba, nlb) = true →
      sealedNs n (sqeArrived h.port h.sq s) = false →
      classBad (classOfSq h.port h.sq (sqeArrived h.port h.sq s)) 0 n (sqeArrived h.port h.sq s) = false →
      (goesIn h n { ioDraft h .writeZeroes (sqeArrived h.port h.sq s) with slba := slba, nlb := nlb, fua := asFua fua (sqeArrived h.port h.sq s), addrs := dataPieces (hostPage h.port (sqeArrived h.port h.sq s)) h.data 0 } 0 (sqeArrived h.port h.sq s)).isSome =
      true → ∃ t, exec (.writeZeroes h slba nlb fua deac pr) s = .next t ∧ Only (places [posting, logging, revoking, windowLog, sending,
      disarming, poisoned] [.freeCtr, .gen, .sh, .defFaults, .lost, .cmds, .nextCmd, .mx, .ns, .nsWait, .mm, .tw, .dg, .nand, .ff, .prov,
      .reg Reg.HE_EPCNT.A_COUNT, .reg Reg.HE_EPCNT.B_COUNT, .reg Reg.QE_REFUSE.COUNT, .reg Reg.QE_HOSTXS.LAST, .reg Reg.QE_HOSTXS.COUNT,
      .reg Reg.MX_PGMISS.COUNT, .reg Reg.MX_ERR.CEILHOLD, .reg Reg.MM_ERR.SHORTCLOSE, .reg Reg.MM_ERR.VATFULL, .reg Reg.DC_PIERR.GUARD,
      .reg Reg.DC_PIERR.APP, .reg Reg.DC_PIERR.REF, .reg Reg.ME_MERGE.EVICT, .reg Reg.TW_ERR.WINHOLD, .reg Reg.TW_ERR.TOUCHFULL,
      .reg Reg.DG_RNG.RESEEDS]) s t ∧
      goesIn h n { ioDraft h .writeZeroes (sqeArrived h.port h.sq s) with slba := slba, nlb := nlb, fua := asFua fua (sqeArrived h.port h.sq s), addrs := dataPieces (hostPage h.port (sqeArrived h.port h.sq s)) h.data 0 } 0 (sqeArrived h.port h.sq s) =
      some t) ∧
  (∀ (h : IoHdr) (ad : Bool) (ranges : List (Nat × Nat)) (n : Ns) (s : State), rdy h.port s = true → ioTarget h (sqeArrived h.port h.sq s) =
      .inl n → ranges ≠ [] ∧ ranges.length ≤ 256 → sealedNs n (sqeArrived h.port h.sq s) = false →
      classBad (classOfSq h.port h.sq (sqeArrived h.port h.sq s)) 0 n (sqeArrived h.port h.sq s) = false →
      descCheck h.port h.data (16 * ranges.length) none (sqeArrived h.port h.sq s) = none → 0 < 16 * ranges.length → ad = true →
      ranges.all (rangeOk n) = true →
      (goesIn h n { ioDraft h .dsm (sqeArrived h.port h.sq s) with ranges := ranges, fua := asFua false (sqeArrived h.port h.sq s), addrs := dataPieces (hostPage h.port (sqeArrived h.port h.sq s)) h.data (16 * ranges.length) } 0 (sqeArrived h.port h.sq s)).isSome =
      true → ∃ t, exec (.datasetManagement h ad ranges) s = .next t ∧ Only (places [posting, logging, revoking, windowLog, sending,
      disarming, poisoned] [.freeCtr, .gen, .sh, .defFaults, .lost, .cmds, .nextCmd, .mx, .ns, .nsWait, .mm, .tw, .dg, .nand, .ff, .prov,
      .reg Reg.HE_EPCNT.A_COUNT, .reg Reg.HE_EPCNT.B_COUNT, .reg Reg.QE_REFUSE.COUNT, .reg Reg.QE_HOSTXS.LAST, .reg Reg.QE_HOSTXS.COUNT,
      .reg Reg.MX_PGMISS.COUNT, .reg Reg.MX_ERR.CEILHOLD, .reg Reg.MM_ERR.SHORTCLOSE, .reg Reg.MM_ERR.VATFULL, .reg Reg.DC_PIERR.GUARD,
      .reg Reg.DC_PIERR.APP, .reg Reg.DC_PIERR.REF, .reg Reg.ME_MERGE.EVICT, .reg Reg.TW_ERR.WINHOLD, .reg Reg.TW_ERR.TOUCHFULL,
      .reg Reg.DG_RNG.RESEEDS]) s t ∧
      goesIn h n { ioDraft h .dsm (sqeArrived h.port h.sq s) with ranges := ranges, fua := asFua false (sqeArrived h.port h.sq s), addrs := dataPieces (hostPage h.port (sqeArrived h.port h.sq s)) h.data (16 * ranges.length) } 0 (sqeArrived h.port h.sq s) =
      some t) ∧
  (∀ (h : IoHdr) (slba nlb : Nat) (pr : PrInfo) (n : Ns) (s : State), rdy h.port s = true → ioTarget h (sqeArrived h.port h.sq s) = .inl n →
      dataFields nlb pr n = none → rangeOk n (slba, nlb) = true →
      classBad (classOfSq h.port h.sq (sqeArrived h.port h.sq s)) (nlb * lbaBytes n.lbaf) n (sqeArrived h.port h.sq s) = false →
      (goesIn h n { ioDraft h .verify (sqeArrived h.port h.sq s) with slba := slba, nlb := nlb, prr := pr, addrs := dataPieces (hostPage h.port (sqeArrived h.port h.sq s)) h.data 0 } (nlb * lbaBytes n.lbaf) (sqeArrived h.port h.sq s)).isSome =
      true → ∃ t, exec (.verify h slba nlb pr) s = .next t ∧ Only (places [posting, logging, revoking, windowLog, sending, disarming,
      poisoned] [.freeCtr, .gen, .sh, .defFaults, .lost, .cmds, .nextCmd, .mx, .ns, .nsWait, .mm, .tw, .dg, .nand, .ff, .prov,
      .reg Reg.HE_EPCNT.A_COUNT, .reg Reg.HE_EPCNT.B_COUNT, .reg Reg.QE_REFUSE.COUNT, .reg Reg.QE_HOSTXS.LAST, .reg Reg.QE_HOSTXS.COUNT,
      .reg Reg.MX_PGMISS.COUNT, .reg Reg.MX_ERR.CEILHOLD, .reg Reg.MM_ERR.SHORTCLOSE, .reg Reg.MM_ERR.VATFULL, .reg Reg.DC_PIERR.GUARD,
      .reg Reg.DC_PIERR.APP, .reg Reg.DC_PIERR.REF, .reg Reg.ME_MERGE.EVICT, .reg Reg.TW_ERR.WINHOLD, .reg Reg.TW_ERR.TOUCHFULL,
      .reg Reg.DG_RNG.RESEEDS]) s t ∧
      goesIn h n { ioDraft h .verify (sqeArrived h.port h.sq s) with slba := slba, nlb := nlb, prr := pr, addrs := dataPieces (hostPage h.port (sqeArrived h.port h.sq s)) h.data 0 } (nlb * lbaBytes n.lbaf) (sqeArrived h.port h.sq s) =
      some t) ∧
  (∀ (h : IoHdr) (sdlba format src nlb : Nat) (fua : Bool) (prr prw : PrInfo) (n : Ns) (s : State), rdy h.port s = true →
      ioTarget h (sqeArrived h.port h.sq s) = .inl n → format = copyFormat n ∧ dataFields nlb prr n = none ∧ prValid n prw = true →
      rangeOk n (src, nlb) = true → rangeOk n (sdlba, nlb) = true → sealedNs n (sqeArrived h.port h.sq s) = false →
      classBad (classOfSq h.port h.sq (sqeArrived h.port h.sq s)) (nlb * lbaBytes n.lbaf) n (sqeArrived h.port h.sq s) = false →
      descCheck h.port h.data ((if copyFormat n = 1 then 40 else 32)) none (sqeArrived h.port h.sq s) = none → 0 < (if copyFormat n =
      1 then 40 else 32) →
      (goesIn h n { ioDraft h .copy (sqeArrived h.port h.sq s) with slba := src, nlb := nlb, dst := sdlba, fua := asFua fua (sqeArrived h.port h.sq s), prr := prr, prw := prw, addrs := dataPieces (hostPage h.port (sqeArrived h.port h.sq s)) h.data ((if copyFormat n = 1 then 40 else 32)) } (nlb * lbaBytes n.lbaf) (sqeArrived h.port h.sq s)).isSome =
      true → ∃ t, exec (.copy h sdlba format [(src, nlb)] fua prr prw) s = .next t ∧ Only (places [posting, logging, revoking, windowLog,
      sending, disarming, poisoned] [.freeCtr, .gen, .sh, .defFaults, .lost, .cmds, .nextCmd, .mx, .ns, .nsWait, .mm, .tw, .dg, .nand, .ff,
      .prov, .reg Reg.HE_EPCNT.A_COUNT, .reg Reg.HE_EPCNT.B_COUNT, .reg Reg.QE_REFUSE.COUNT, .reg Reg.QE_HOSTXS.LAST,
      .reg Reg.QE_HOSTXS.COUNT, .reg Reg.MX_PGMISS.COUNT, .reg Reg.MX_ERR.CEILHOLD, .reg Reg.MM_ERR.SHORTCLOSE, .reg Reg.MM_ERR.VATFULL,
      .reg Reg.DC_PIERR.GUARD, .reg Reg.DC_PIERR.APP, .reg Reg.DC_PIERR.REF, .reg Reg.ME_MERGE.EVICT, .reg Reg.TW_ERR.WINHOLD,
      .reg Reg.TW_ERR.TOUCHFULL, .reg Reg.DG_RNG.RESEEDS]) s t ∧
      goesIn h n { ioDraft h .copy (sqeArrived h.port h.sq s) with slba := src, nlb := nlb, dst := sdlba, fua := asFua fua (sqeArrived h.port h.sq s), prr := prr, prw := prw, addrs := dataPieces (hostPage h.port (sqeArrived h.port h.sq s)) h.data ((if copyFormat n = 1 then 40 else 32)) } (nlb * lbaBytes n.lbaf) (sqeArrived h.port h.sq s) =
      some t) ∧
  (∀ (h : IoHdr) (slba nlb alg : Nat) (n : Ns) (s : State), rdy h.port s = true → ioTarget h (sqeArrived h.port h.sq s) = .inl n → alg < 3 ∧
      nlb ≤ 2 ^ 32 → rangeOk n (slba, nlb) = true →
      classBad (classOfSq h.port h.sq (sqeArrived h.port h.sq s)) (nlb * lbaBytes n.lbaf) n (sqeArrived h.port h.sq s) = false →
      descCheck h.port h.data (64) none (sqeArrived h.port h.sq s) = none → 0 < 64 →
      (goesIn h n { ioDraft h .fixity (sqeArrived h.port h.sq s) with slba := slba, nlb := nlb, alg := alg, addrs := dataPieces (hostPage h.port (sqeArrived h.port h.sq s)) h.data 64 } (nlb * lbaBytes n.lbaf) (sqeArrived h.port h.sq s)).isSome =
      true → ∃ t, exec (.fixityDigest h slba nlb alg) s = .next t ∧ Only (places [posting, logging, revoking, windowLog, sending, disarming,
      poisoned] [.freeCtr, .gen, .sh, .defFaults, .lost, .cmds, .nextCmd, .mx, .ns, .nsWait, .mm, .tw, .dg, .nand, .ff, .prov,
      .reg Reg.HE_EPCNT.A_COUNT, .reg Reg.HE_EPCNT.B_COUNT, .reg Reg.QE_REFUSE.COUNT, .reg Reg.QE_HOSTXS.LAST, .reg Reg.QE_HOSTXS.COUNT,
      .reg Reg.MX_PGMISS.COUNT, .reg Reg.MX_ERR.CEILHOLD, .reg Reg.MM_ERR.SHORTCLOSE, .reg Reg.MM_ERR.VATFULL, .reg Reg.DC_PIERR.GUARD,
      .reg Reg.DC_PIERR.APP, .reg Reg.DC_PIERR.REF, .reg Reg.ME_MERGE.EVICT, .reg Reg.TW_ERR.WINHOLD, .reg Reg.TW_ERR.TOUCHFULL,
      .reg Reg.DG_RNG.RESEEDS]) s t ∧
      goesIn h n { ioDraft h .fixity (sqeArrived h.port h.sq s) with slba := slba, nlb := nlb, alg := alg, addrs := dataPieces (hostPage h.port (sqeArrived h.port h.sq s)) h.data 64 } (nlb * lbaBytes n.lbaf) (sqeArrived h.port h.sq s) =
      some t) ∧
  (∀ (h : IoHdr) (s : State), rdy h.port s = true → h.nsid = 0xFFFFFFFF → modesAll (sqeArrived h.port h.sq s).gen.mode = true → h.fuse = 0 →
      h.reservedZero = true → (sqeArrived h.port h.sq s).sh.sanState ≠ 1 ∧ (sqeArrived h.port h.sq s).sh.sanState ≠ 3 →
      (sqeArrived h.port h.sq s).tw.switching = false → (sqeArrived h.port h.sq s).gen.mode ≠ .standby →
      (sqeArrived h.port h.sq s).gen.mode ≠ .ingest →
      (goesIn h allNs { ioDraft h .flush (sqeArrived h.port h.sq s) with flushCsn := (sqeArrived h.port h.sq s).mx.csn } 0 (sqeArrived h.port h.sq s)).isSome =
      true → ∃ t, exec (.flush h) s = .next t ∧ Only (places [posting, logging, revoking, windowLog, sending, disarming,
      poisoned] [.freeCtr, .gen, .sh, .defFaults, .lost, .cmds, .nextCmd, .mx, .ns, .nsWait, .mm, .tw, .dg, .nand, .ff, .prov,
      .reg Reg.HE_EPCNT.A_COUNT, .reg Reg.HE_EPCNT.B_COUNT, .reg Reg.QE_REFUSE.COUNT, .reg Reg.QE_HOSTXS.LAST, .reg Reg.QE_HOSTXS.COUNT,
      .reg Reg.MX_PGMISS.COUNT, .reg Reg.MX_ERR.CEILHOLD, .reg Reg.MM_ERR.SHORTCLOSE, .reg Reg.MM_ERR.VATFULL, .reg Reg.DC_PIERR.GUARD,
      .reg Reg.DC_PIERR.APP, .reg Reg.DC_PIERR.REF, .reg Reg.ME_MERGE.EVICT, .reg Reg.TW_ERR.WINHOLD, .reg Reg.TW_ERR.TOUCHFULL,
      .reg Reg.DG_RNG.RESEEDS]) s t ∧
      goesIn h allNs { ioDraft h .flush (sqeArrived h.port h.sq s) with flushCsn := (sqeArrived h.port h.sq s).mx.csn } 0 (sqeArrived h.port h.sq s) =
      some t) ∧
  (∀ (h : IoHdr) (ad : Bool) (ranges : List (Nat × Nat)) (n : Ns) (s : State), rdy h.port s = true → ioTarget h (sqeArrived h.port h.sq s) =
      .inl n → ad = false → ranges ≠ [] ∧ ranges.length ≤ 256 → ranges.all (rangeOk n) = true →
      classBad (classOfSq h.port h.sq (sqeArrived h.port h.sq s)) 0 n (sqeArrived h.port h.sq s) = false →
      descCheck h.port h.data (16 * ranges.length) none (sqeArrived h.port h.sq s) = none → reportDue h.port (fun x => x ==
      n.nsid) (sqeArrived h.port h.sq s) = false → ∃ t, exec (.datasetManagement h ad ranges) s = .next t ∧ Only (places [posting, logging,
      revoking, windowLog, sending, disarming, poisoned] [.freeCtr, .gen, .sh, .defFaults, .lost, .cmds, .nextCmd, .mx, .ns, .nsWait, .mm,
      .tw, .dg, .nand, .ff, .prov, .reg Reg.HE_EPCNT.A_COUNT, .reg Reg.HE_EPCNT.B_COUNT, .reg Reg.QE_REFUSE.COUNT, .reg Reg.QE_HOSTXS.LAST,
      .reg Reg.QE_HOSTXS.COUNT, .reg Reg.MX_PGMISS.COUNT, .reg Reg.MX_ERR.CEILHOLD, .reg Reg.MM_ERR.SHORTCLOSE, .reg Reg.MM_ERR.VATFULL,
      .reg Reg.DC_PIERR.GUARD, .reg Reg.DC_PIERR.APP, .reg Reg.DC_PIERR.REF, .reg Reg.ME_MERGE.EVICT, .reg Reg.TW_ERR.WINHOLD,
      .reg Reg.TW_ERR.TOUCHFULL, .reg Reg.DG_RNG.RESEEDS]) s t ∧ t = ioFail h 0 0 0 (sqeArrived h.port h.sq s))

/-- An I/O command loads its map pages, is admitted again, commits and completes. Rules: R116, R132, R149, R150, R152, R154, R163, R164,
R236, R412. -/
def Obligations.IoCommandStages : Prop :=
  (∀ (cmd : Nat) (c : IoCmd) (s : State), findCmd cmd s = some c → c.stage = .pages → findNs c.nsid s = none → ∃ t,
      exec (.mapPageLoaded cmd) s = .next t ∧ Only (places [posting, logging, revoking, windowLog, sending, disarming, poisoned] [.freeCtr,
      .gen, .sh, .defFaults, .lost, .cmds, .mx, .ns, .nsWait, .mm, .tw, .dg, .nand, .ff, .prov, .reg Reg.HE_EPCNT.A_COUNT,
      .reg Reg.HE_EPCNT.B_COUNT, .reg Reg.MX_PGMISS.COUNT, .reg Reg.MX_ERR.CEILHOLD, .reg Reg.MM_ERR.SHORTCLOSE, .reg Reg.DC_PIERR.GUARD,
      .reg Reg.DC_PIERR.APP, .reg Reg.DC_PIERR.REF, .reg Reg.ME_MERGE.EVICT, .reg Reg.TW_ERR.WINHOLD, .reg Reg.TW_ERR.TOUCHFULL,
      .reg Reg.DG_RNG.RESEEDS]) s t ∧ t = finishCmd cmd 0 0x0B 0 s) ∧
  (∀ (cmd : Nat) (c : IoCmd) (n : Ns) (s : State), findCmd cmd s = some c → c.stage = .pages → findNs c.nsid s = some n →
      reportDue c.port (reportsOn ({ lookup n c (touchPages n c s) with stage := .media } : IoCmd)) (touchPages n c s) = false → ∃ t,
      exec (.mapPageLoaded cmd) s = .next t ∧ Only (places [posting, logging, revoking, windowLog, sending, disarming, poisoned] [.freeCtr,
      .gen, .sh, .defFaults, .lost, .cmds, .mx, .ns, .nsWait, .mm, .tw, .dg, .nand, .ff, .prov, .reg Reg.HE_EPCNT.A_COUNT,
      .reg Reg.HE_EPCNT.B_COUNT, .reg Reg.MX_PGMISS.COUNT, .reg Reg.MX_ERR.CEILHOLD, .reg Reg.MM_ERR.SHORTCLOSE, .reg Reg.DC_PIERR.GUARD,
      .reg Reg.DC_PIERR.APP, .reg Reg.DC_PIERR.REF, .reg Reg.ME_MERGE.EVICT, .reg Reg.TW_ERR.WINHOLD, .reg Reg.TW_ERR.TOUCHFULL,
      .reg Reg.DG_RNG.RESEEDS]) s t ∧ t = (let u := touchPages n c s; let c2 : IoCmd := { lookup n c u with stage := .media };
      startCmd cmd (updCmd cmd (fun _ => c2) (bookReads c2.id c2.cls (c2.deadline.getD 0) (fretNow u +
      1) (pagesOf (mediaOf c2.views)) u).2))) ∧
  (∀ (cmd : Nat) (s : State), findCmd cmd s = none → exec (.mapPageLoaded cmd) s = .next s) ∧
  (∀ (cmd : Nat) (c c2 : IoCmd) (n : Ns) (u : State) (s : State), findCmd cmd s = some c → c.stage = .waiting → firstWaiting c s = true →
      (if c.nsid = 0xFFFFFFFF then some allNs else findNs c.nsid s) = some n → (c.nsid ≠ 0xFFFFFFFF → nsVisible c.port n s = true) →
      needPages n c s = [] → (c.looked = false → reportDue c.port (reportsOn c) s = false) →
      tryLc7 n (if c.looked then c else lookup n c s) (cmdBytes n (if c.looked then c else lookup n c s)) false s = some (c2, u) → ∃ t,
      exec (.lc7AdmissionRetry cmd) s = .next t ∧ Only (places [posting, logging, revoking, windowLog, sending, disarming,
      poisoned] [.freeCtr, .gen, .sh, .defFaults, .lost, .cmds, .mx, .ns, .nsWait, .mm, .tw, .dg, .nand, .ff, .prov,
      .reg Reg.HE_EPCNT.A_COUNT, .reg Reg.HE_EPCNT.B_COUNT, .reg Reg.MX_PGMISS.COUNT, .reg Reg.MX_ERR.CEILHOLD, .reg Reg.MM_ERR.SHORTCLOSE,
      .reg Reg.DC_PIERR.GUARD, .reg Reg.DC_PIERR.APP, .reg Reg.DC_PIERR.REF, .reg Reg.ME_MERGE.EVICT, .reg Reg.TW_ERR.WINHOLD,
      .reg Reg.TW_ERR.TOUCHFULL, .reg Reg.DG_RNG.RESEEDS]) s t ∧ t =
      startCmd cmd (touchPages n c (updClass c.cls (fun k => { k with admitted := k.admitted + 1 }) (updCmd cmd (fun _ => { c2 with stage := .media }) u)))) ∧
  (∀ (cmd : Nat) (c : IoCmd) (s : State), findCmd cmd s = some c → c.stage = .waiting → firstWaiting c s = true → c.nsid ≠ 0xFFFFFFFF →
      findNs c.nsid s = none → ∃ t, exec (.lc7AdmissionRetry cmd) s = .next t ∧ Only (places [posting, logging, revoking, windowLog,
      sending, disarming, poisoned] [.freeCtr, .gen, .sh, .defFaults, .lost, .cmds, .mx, .ns, .nsWait, .mm, .tw, .dg, .nand, .ff, .prov,
      .reg Reg.HE_EPCNT.A_COUNT, .reg Reg.HE_EPCNT.B_COUNT, .reg Reg.MX_PGMISS.COUNT, .reg Reg.MX_ERR.CEILHOLD, .reg Reg.MM_ERR.SHORTCLOSE,
      .reg Reg.DC_PIERR.GUARD, .reg Reg.DC_PIERR.APP, .reg Reg.DC_PIERR.REF, .reg Reg.ME_MERGE.EVICT, .reg Reg.TW_ERR.WINHOLD,
      .reg Reg.TW_ERR.TOUCHFULL, .reg Reg.DG_RNG.RESEEDS]) s t ∧ t = finishCmd cmd 0 0x0B 0 s) ∧
  (∀ (cmd : Nat) (c : IoCmd) (n : Ns) (s : State), findCmd cmd s = some c → c.stage = .forward → findNs c.nsid s = some n →
      piStrips n c.prw = true → noSpace n s = false → c.kind ≠ .copy → ∃ t, exec (.dcForwardDone cmd) s = .next t ∧ Only (places [posting,
      logging, revoking, windowLog, sending, disarming, poisoned] [.freeCtr, .gen, .sh, .defFaults, .lost, .cmds, .mx, .ns, .nsWait, .mm,
      .tw, .dg, .nand, .ff, .prov, .reg Reg.MX_ERR.CEILHOLD, .reg Reg.MM_ERR.SHORTCLOSE, .reg Reg.DC_PIERR.GUARD, .reg Reg.DC_PIERR.APP,
      .reg Reg.DC_PIERR.REF, .reg Reg.TW_ERR.WINHOLD, .reg Reg.TW_ERR.TOUCHFULL, .reg Reg.DG_RNG.RESEEDS]) s t ∧ t =
      commitCmd cmd ((grainsOf n c.slba c.nlb).foldl (fun t g => mirror 1 [t.mx.csn + 1, c.nsid,
      g] t) (updCmd cmd (fun x => { x with data := forwardData n c.prw c.data }) s))) ∧
  (∀ (cmd : Nat) (c : IoCmd) (n : Ns) (s : State), findCmd cmd s = some c → c.stage = .forward → findNs c.nsid s = some n →
      piStrips n c.prw = true → noSpace n s = true → ∃ t, exec (.dcForwardDone cmd) s = .next t ∧ Only (places [posting, logging, revoking,
      windowLog, sending, disarming, poisoned] [.freeCtr, .gen, .sh, .defFaults, .lost, .cmds, .mx, .ns, .nsWait, .mm, .tw, .dg, .nand, .ff,
      .prov, .reg Reg.MX_ERR.CEILHOLD, .reg Reg.MM_ERR.SHORTCLOSE, .reg Reg.DC_PIERR.GUARD, .reg Reg.DC_PIERR.APP, .reg Reg.DC_PIERR.REF,
      .reg Reg.TW_ERR.WINHOLD, .reg Reg.TW_ERR.TOUCHFULL, .reg Reg.DG_RNG.RESEEDS]) s t ∧ t = finishCmd cmd 0 0x81 0 s) ∧
  (∀ (cmd : Nat) (c : IoCmd) (s : State), findCmd cmd s = some c → mayComplete c s = true → s.nsWait = [] → s.sh.sanState = 0 →
      s.tw.switching = false → ∃ t, exec (.completionPost cmd) s = .next t ∧ Only (places [posting, logging, revoking, windowLog, sending,
      disarming] [.freeCtr, .gen, .sh, .cmds, .mx, .ns, .nsWait, .mm, .tw, .dg, .nand, .ff, .prov, .reg Reg.MM_ERR.SHORTCLOSE,
      .reg Reg.DG_RNG.RESEEDS]) s t ∧ (∀ x ∈ t.cmds, x.id ≠ cmd) ∧ t.mx.ceilWait = s.mx.ceilWait.filter (fun x => x != cmd) ∧
      t.sh.hostWrites = s.sh.hostWrites + (if c.kind = .write then 1 else 0)) ∧
  (∀ (cmd : Nat) (c : IoCmd) (s : State), findCmd cmd s = some c → mayComplete c s = false → exec (.completionPost cmd) s = .next s) ∧
  (∀ (stidx : Nat) (r : Staged) (s : State), findStaged stidx s = some r → r.merged = false → priorUnread r s = none → ∃ t,
      exec (.partialGrainMerge stidx none) s = .next t ∧ Only (places [posting, logging] [.sh, .lost, .mx]) s t ∧ t =
      updStaged stidx (fun r => { r with lbas := mergeLbas r.lbas (priorLbas r s), merged := true }) s) ∧
  (∀ (stidx cause : Nat) (r : Staged) (s : State), findStaged stidx s = some r → r.merged = false → ∃ t,
      exec (.partialGrainMerge stidx (some cause)) s = .next t ∧ Only (places [posting, logging] [.sh, .lost, .mx]) s t ∧ (∀ x,
      findStaged stidx t = some x → x.merged = true) ∧ t.sh.lostTotal = s.sh.lostTotal + (r.lbas.filter (fun x => x == .prior)).length ∧ t =
      (((r.lbas.zipIdx.filter (fun x => x.1 == .prior)).map (·.2)).foldl (fun t i => listLost r.nsid (grainSlba r.nsid r.grain t +
      i) 1 cause r.csn t) (updStaged stidx (fun r => { r with lbas := mergeLbas r.lbas (r.lbas.map (fun _ => .lost)), merged := true }) s))) ∧
  (∀ (stidx : Nat) (unreadableCause : Option Nat) (s : State), findStaged stidx s = none →
      exec (.partialGrainMerge stidx unreadableCause) s = .next s) ∧
  (∀ (cmd : Nat) (c c2 : IoCmd) (n : Ns) (u : State) (s : State), findCmd cmd s = some c → c.stage = .waiting → firstWaiting c s = true →
      (if c.nsid = 0xFFFFFFFF then some allNs else findNs c.nsid s) = some n → (c.nsid ≠ 0xFFFFFFFF → nsVisible c.port n s = true) →
      needPages n c s ≠ [] → tryLc7 n c (cmdBytes n c) true s = some (c2, u) → ∃ t, exec (.lc7AdmissionRetry cmd) s = .next t ∧
      Only (places [posting, logging, revoking, windowLog, sending, disarming, poisoned] [.freeCtr, .gen, .sh, .defFaults, .lost, .cmds,
      .mx, .ns, .nsWait, .mm, .tw, .dg, .nand, .ff, .prov, .reg Reg.HE_EPCNT.A_COUNT, .reg Reg.HE_EPCNT.B_COUNT, .reg Reg.MX_PGMISS.COUNT,
      .reg Reg.MX_ERR.CEILHOLD, .reg Reg.MM_ERR.SHORTCLOSE, .reg Reg.DC_PIERR.GUARD, .reg Reg.DC_PIERR.APP, .reg Reg.DC_PIERR.REF,
      .reg Reg.ME_MERGE.EVICT, .reg Reg.TW_ERR.WINHOLD, .reg Reg.TW_ERR.TOUCHFULL, .reg Reg.DG_RNG.RESEEDS]) s t ∧ t =
      updClass c.cls (fun k => { k with admitted := k.admitted + 1 }) (updCmd cmd (fun _ => { c2 with stage := .pages }) u)) ∧
  (∀ (cmd : Nat) (c : IoCmd) (n : Ns) (s : State), findCmd cmd s = some c → c.stage = .forward → findNs c.nsid s = some n →
      (piStrips n c.prw = true ∨ piFirst n c.prw (c.data.zipIdx.map (fun x => (x.2, x.1))) = none) → noSpace n s = false → ∃ t,
      exec (.dcForwardDone cmd) s = .next t ∧ Only (places [posting, logging, revoking, windowLog, sending, disarming, poisoned] [.freeCtr,
      .gen, .sh, .defFaults, .lost, .cmds, .mx, .ns, .nsWait, .mm, .tw, .dg, .nand, .ff, .prov, .reg Reg.MX_ERR.CEILHOLD,
      .reg Reg.MM_ERR.SHORTCLOSE, .reg Reg.DC_PIERR.GUARD, .reg Reg.DC_PIERR.APP, .reg Reg.DC_PIERR.REF, .reg Reg.TW_ERR.WINHOLD,
      .reg Reg.TW_ERR.TOUCHFULL, .reg Reg.DG_RNG.RESEEDS]) s t ∧ t = commitCmd cmd ((grainsOf n (if c.kind =
      .copy then c.dst else c.slba) c.nlb).foldl (fun t g => mirror 1 [t.mx.csn + 1, c.nsid,
      g] t) (updCmd cmd (fun x => { x with data := forwardData n c.prw c.data }) s))) ∧
  (∀ (cmd : Nat) (c : IoCmd) (s : State), findCmd cmd s = some c → mayComplete c s = true → ∃ t, exec (.completionPost cmd) s = .next t ∧
      Only (places [posting, logging, revoking, windowLog, sending, disarming] [.freeCtr, .gen, .sh, .cmds, .mx, .ns, .nsWait, .mm, .tw,
      .dg, .nand, .ff, .prov, .reg Reg.MM_ERR.SHORTCLOSE, .reg Reg.DG_RNG.RESEEDS]) s t ∧ t = finishCmd cmd 0 0 0 s) ∧
  (∀ (stidx : Nat) (r : Staged) (s : State), findStaged stidx s = some r → r.merged = false → ∃ t, exec (.partialGrainMerge stidx none) s =
      .next t ∧ Only (places [posting, logging] [.sh, .lost, .mx]) s t ∧ t = mergeStaged stidx s)

/-- Wordline programs, vat pages, opening a barrel and reading. Rules: R185, R186, R188, R189, R190, R127, R138, R139, R215, R199. -/
def Obligations.ProgramAndBarrels : Prop :=
  (∀ (barrel member : Nat) (b : OpenBarrel) (g : Group) (r : Row) (fresh : Bool) (s : State), s.mm.openB.find? (fun b => b.num == barrel) =
      some b → findGroup (barrelGroup barrel) s = some g → mediaMode s.gen.mode = true → b.durable = true → onTurn g.num s = false →
      s.fs.prepared.contains g.num = false → member < g.width → (g.missing.contains member = true → spareServes g member s = true) →
      nextRowOf b g member s = some (r, fresh) → ∃ t, exec (.wordlineProgramStart barrel member) s = .next t ∧ Only (places [posting,
      logging, revoking, windowLog, sending, poisoned] [.freeCtr, .sh, .defFaults, .lost, .mx, .mm, .sp, .cs, .tw, .nand,
      .reg Reg.MM_ERR.SHORTCLOSE, .reg Reg.SP_LOSTCNT.POSITIONS, .reg Reg.SP_ERR.THREEMISS, .reg Reg.CS_REFUSE.NOTERASED,
      .reg Reg.CS_REFUSE.ORDER, .reg Reg.CS_ERRLOC0.DIE, .reg Reg.CS_ERRLOC0.BLOCK, .reg Reg.CS_ERRLOC1.PAGE, .reg Reg.CS_ERRLOC1.PPTR,
      .reg Reg.CS_ERR.NOTERASED, .reg Reg.CS_ERR.ORDER]) s t ∧ t = startMember b g member r fresh s) ∧
  (∀ (barrel member : Nat) (s : State), mediaMode s.gen.mode = false → exec (.wordlineProgramStart barrel member) s = .next s) ∧
  (∀ (die block page : Nat) (pass : Bool) (g : Group) (m : Nat) (x : OpenBarrel) (r : Row) (s : State), memberOf die s = some (g, m) →
      vatPageAt g m block page s = none → rowOfProgram g m die block page s = some (x, r) → ∃ t,
      exec (.programVerifyDone die block page pass) s = .next t ∧ Only (places [posting, logging, revoking, windowLog, sending, disarming,
      poisoned] [.freeCtr, .gen, .sh, .defFaults, .lost, .mx, .ns, .mm, .sp, .cs, .tw, .dg, .nand, .ff, .prov, .reg Reg.GEN_HOLDUP.WTHRU,
      .reg Reg.MX_ERR.CEILHOLD, .reg Reg.MM_RETIRE.COUNT, .reg Reg.MM_RETLAST.DIE, .reg Reg.MM_RETLAST.BLOCK, .reg Reg.MM_RETLAST.CAUSE,
      .reg Reg.MM_ERR.SHORTCLOSE, .reg Reg.MM_ERR.ROWWD, .reg Reg.SP_LOSTCNT.POSITIONS, .reg Reg.SP_ERR.NOSPARE, .reg Reg.SP_ERR.THREEMISS,
      .reg Reg.SP_ERR.SPAREFAIL, .reg Reg.DC_RAWCNT.COUNT, .reg Reg.FI_ERR.REALFAULT]) s t ∧ t =
      (if pass then writeThroughExit (memberPassed x r m (segEnd die s)) else afterProgram x.num (retireBlock die block 0 (memberFailed x g r.w m (segEnd die s))))) ∧
  (∀ (die block page : Nat) (pass : Bool) (g : Group) (m : Nat) (v : VatPage) (s : State), memberOf die s = some (g, m) →
      vatPageAt g m block page s = some v → ∃ t, exec (.programVerifyDone die block page pass) s = .next t ∧ Only (places [posting, logging,
      revoking, windowLog, sending, disarming, poisoned] [.freeCtr, .gen, .sh, .defFaults, .lost, .mx, .ns, .mm, .sp, .cs, .tw, .dg, .nand,
      .ff, .prov, .reg Reg.GEN_HOLDUP.WTHRU, .reg Reg.MX_ERR.CEILHOLD, .reg Reg.MM_RETIRE.COUNT, .reg Reg.MM_RETLAST.DIE,
      .reg Reg.MM_RETLAST.BLOCK, .reg Reg.MM_RETLAST.CAUSE, .reg Reg.MM_ERR.SHORTCLOSE, .reg Reg.MM_ERR.ROWWD,
      .reg Reg.SP_LOSTCNT.POSITIONS, .reg Reg.SP_ERR.NOSPARE, .reg Reg.SP_ERR.THREEMISS, .reg Reg.SP_ERR.SPAREFAIL,
      .reg Reg.DC_RAWCNT.COUNT, .reg Reg.FI_ERR.REALFAULT]) s t ∧ t =
      departs (writeThroughExit (vatCopyDone g m die block v pass (ctxPut die .programSlc block page .idle s)))) ∧
  (∀ (die block page : Nat) (pass : Bool) (s : State), memberOf die s = none → exec (.programVerifyDone die block page pass) s = .next s) ∧
  (∀ (vintage : Fin 6) (s : State), mediaMode s.gen.mode = true → s.mx.staged.any (fun r => (r.vintage ==
      vintage.val && r.merged) && !r.queued && decide (r.born + r.tmo * 500000 ≤ now s)) = true → ∃ t, exec (.gatherTimeout vintage) s =
      .next t ∧ Only (places [posting, logging, revoking, windowLog, sending, poisoned] [.freeCtr, .sh, .defFaults, .lost, .mx, .mm,
      .tw]) s t ∧ t = (let u := withdrawSel (fun r => r.vintage == vintage.val && r.merged) s;
      let v := bookVat (waiting vintage.val u) [] u; if waiting vintage.val v =
      [] then v else { v with mm := { v.mm with gatherWait := addOnce v.mm.gatherWait vintage.val } })) ∧
  (∀ (vintage : Fin 6) (s : State), s.mx.staged = [] → exec (.gatherTimeout vintage) s = .next s) ∧
  (∀ (vintage : Fin 5) (group : Nat) (g : Group) (r : Nat) (s : State), findGroup group s = some g → freeBelow Reg.MM_RACK.FREECRIT s =
      false → mediaMode s.gen.mode = true → mayOpen g s = true → vintageOpens vintage.val s = true → mostPending vintage.val s = true →
      freeRow g s = some r → ∃ t, exec (.barrelOpen vintage group) s = .next t ∧ Only [.mx, .mm, .reg Reg.MM_ERR.FREECRIT] s t ∧
      t.mm.openB = s.mm.openB ++ [⟨barrelNum group r, group, vintage.val, false, 0, [], false⟩] ∧ t.mm.barrels = s.mm.barrels ++
      [⟨barrelNum group r, vintage.val, 0, s.mx.csn, false, 0, 0⟩] ∧ t.mx.jpend = s.mx.jpend ++
      [jOpen vintage.val (barrelNum group r) s.mx.csn] ∧ t.mx.map = s.mx.map) ∧
  (∀ (vintage : Fin 5) (group : Nat) (s : State), findGroup group s = none → exec (.barrelOpen vintage group) s = .next s) ∧
  (∀ (cmd lba : Nat) (result : DecodeResult) (c : IoCmd) (n : Ns) (e : MapEntry) (s : State), findCmd cmd s = some c → findNs c.nsid s =
      some n → c.owed.contains lba = true → c.views.find? (fun x => x.1 == lba) = some (lba, .media e) → ∃ t,
      exec (.readRoundDone cmd lba result) s = .next t ∧ Only (places [posting, logging, revoking, windowLog, sending, disarming,
      poisoned] [.freeCtr, .time, .gen, .sh, .lost, .cmds, .mx, .ns, .nsWait, .mm, .tw, .dg, .nand, .ff, .prov, .reg Reg.HE_EPCNT.A_COUNT,
      .reg Reg.HE_EPCNT.B_COUNT, .reg Reg.FS_CONT.CLAIMS, .reg Reg.FS_CONT.DISPL, .reg Reg.FS_CONT.BEYOND, .reg Reg.MM_ERR.SHORTCLOSE,
      .reg Reg.SP_RECON.UNITS, .reg Reg.SP_RECON.TWOMISS, .reg Reg.SP_LOSTCNT.POSITIONS, .reg Reg.SP_ERR.THREEMISS, .reg Reg.DC_PIERR.GUARD,
      .reg Reg.DC_PIERR.APP, .reg Reg.DC_PIERR.REF, .reg Reg.DC_FMTERR.COUNT, .reg Reg.DC_FMTERR.UNREC, .reg Reg.DC_ERR.FMT,
      .reg Reg.EC_HARD.FAIL, .reg Reg.EC_SOFT.OK, .reg Reg.EC_SOFT.FAIL, .reg Reg.EC_MAXCORR.MAX, .reg Reg.ME_MERGE.EVICT,
      .reg Reg.DG_RNG.RESEEDS]) s t ∧ t = (let r := fiRead (servingDie e.die s) e.glen result s; roundDone cmd lba n e c r.1 r.2)) ∧
  (∀ (die : Nat) (afterRetrain : Bool) (s : State), s.sp.suspects.contains die = false ∨ afterRetrain = false →
      exec (.readReadyTimeout die afterRetrain none) s = .next ({ s with sp := { s.sp with suspects := addOnce s.sp.suspects die } })) ∧
  (∀ (die : Nat) (afterRetrain : Bool) (s : State), s.sp.suspects.contains die = true → afterRetrain = true → ∃ t,
      exec (.readReadyTimeout die afterRetrain none) s = .next t ∧ Only (places [posting, logging, revoking, windowLog, sending,
      disarming] [.freeCtr, .gen, .sh, .lost, .cmds, .mx, .ns, .mm, .sp, .cs, .tw, .dg, .nand, .ff, .prov, .reg Reg.FS_CONT.CLAIMS,
      .reg Reg.FS_CONT.DISPL, .reg Reg.FS_CONT.BEYOND, .reg Reg.MX_ERR.CEILHOLD, .reg Reg.MM_ERR.SHORTCLOSE, .reg Reg.SP_LOSTCNT.POSITIONS,
      .reg Reg.SP_ERR.NOSPARE, .reg Reg.SP_ERR.THREEMISS, .reg Reg.SP_ERR.SPAREFAIL, .reg Reg.FI_ERR.REALFAULT]) s t ∧ t =
      declareDieFailed die { s with sp := { s.sp with suspects := s.sp.suspects.filter (fun x => x != die) } }) ∧
  (∀ (who : Writer) (die : Nat) (key : BitVec 16) (s : State), setupOpen who s = true → mayWrite who Reg.SP_DIEOUT.DIE.reg s = true → key =
      0x0D1E → dieOutOk die s = true → ∃ t, exec (.spDieoutWrite who die key) s = .next t ∧ Only (places [posting, logging, revoking,
      windowLog, sending, disarming, turnedAway] [.gen, .sh, .lost, .mx, .ns, .mm, .sp, .cs, .tw, .dg, .nand, .ff, .prov,
      .reg Reg.MX_ERR.CEILHOLD, .reg Reg.MM_ERR.SHORTCLOSE, .reg Reg.SP_LOSTCNT.POSITIONS, .reg Reg.SP_ERR.NOSPARE,
      .reg Reg.SP_ERR.THREEMISS, .reg Reg.SP_ERR.SPAREFAIL, .reg Reg.SP_ERR.DIEOUT, .reg Reg.FI_ERR.REALFAULT]) s t ∧ t =
      declareDieFailed die s) ∧
  (∀ (who : Writer) (die : Nat) (key : BitVec 16) (s : State), setupOpen who s = true → mayWrite who Reg.SP_DIEOUT.DIE.reg s = true →
      key ≠ 0x0D1E → key ≠ 0 → exec (.spDieoutWrite who die key) s = .next (flagOn Reg.SP_ERR.DIEOUT s)) ∧
  (∀ (vintage : Fin 5) (group : Nat) (g : Group) (r : Nat) (u : State) (s : State), findGroup group s = some g → u =
      flagIf (freeBelow Reg.MM_RACK.FREECRIT s) Reg.MM_ERR.FREECRIT s → mediaMode u.gen.mode = true → mayOpen g u = true →
      vintageOpens vintage.val u = true → mostPending vintage.val u = true → freeRow g u = some r → ∃ t,
      exec (.barrelOpen vintage group) s = .next t ∧ Only [.mx, .mm, .reg Reg.MM_ERR.FREECRIT] s t ∧ t =
      jAppend (jOpen vintage.val (barrelNum group r) u.mx.csn) { u with mm := { u.mm with openB := u.mm.openB ++ [⟨barrelNum group r, group, vintage.val, false, 0, [], false⟩], barrels := u.mm.barrels ++ [⟨barrelNum group r, vintage.val, 0, u.mx.csn, false, 0, 0⟩] } }) ∧
  (∀ (die : Nat) (afterRetrain : Bool) (cmd : Option Nat) (s : State), ∃ t, exec (.readReadyTimeout die afterRetrain cmd) s = .next t ∧
      Only (places [posting, logging, revoking, windowLog, sending, disarming] [.freeCtr, .gen, .sh, .lost, .cmds, .mx, .ns, .mm, .sp, .cs,
      .tw, .dg, .nand, .ff, .prov, .reg Reg.FS_CONT.CLAIMS, .reg Reg.FS_CONT.DISPL, .reg Reg.FS_CONT.BEYOND, .reg Reg.MX_ERR.CEILHOLD,
      .reg Reg.MM_ERR.SHORTCLOSE, .reg Reg.SP_LOSTCNT.POSITIONS, .reg Reg.SP_ERR.NOSPARE, .reg Reg.SP_ERR.THREEMISS,
      .reg Reg.SP_ERR.SPAREFAIL, .reg Reg.FI_ERR.REALFAULT]) s t ∧ t =
      (let u := (match cmd with | some c => dieReadsFail c die s | none => s); if u.sp.suspects.contains die ∧
      afterRetrain then declareDieFailed die { u with sp := { u.sp with suspects := u.sp.suspects.filter (fun x => x != die) } } else { u with sp := { u.sp with suspects := addOnce u.sp.suspects die } })) ∧
  (∀ (who : Writer) (die : Nat) (key : BitVec 16) (s : State), setupOpen who s = true → mayWrite who Reg.SP_DIEOUT.DIE.reg s = true → key =
      0x0D1E → dieOutOk die s = false → exec (.spDieoutWrite who die key) s = .next (flagOn Reg.SP_ERR.DIEOUT s)) ∧
  (∀ (who : Writer) (die : Nat) (key : BitVec 16) (s : State), setupOpen who s = true → mayWrite who Reg.SP_DIEOUT.DIE.reg s = true → key =
      0 → exec (.spDieoutWrite who die key) s = .next s)

/-- The fret tick, suspension, vat turns, the journal and the checkpoint. Rules: R121, R126, R146, R129, R161, R165, R166, R168, R169, R170,
R51, R305. -/
def Obligations.FretsAndJournal : Prop :=
  (∀ (s : State), ∃ t, exec .fretTick s = .next t ∧ Only (places [posting, logging, revoking, windowLog, sending, disarming] [.freeCtr,
      .eff, .time, .gen, .sh, .cmds, .mx, .ns, .nsWait, .mm, .cs, .dg, .nand, .ff, .prov, .reg Reg.MM_ERR.SHORTCLOSE,
      .reg Reg.DG_RNG.RESEEDS]) s t ∧ now t = (fretNow s + 1) * 4000 ∧ t = (let u := trimFrets (ctxTick (slewStep (advance ((fretNow s +
      1) * 4000 - now s) s))); let v := resumeDies { u with fs := { u.fs with segs := u.fs.segs.map (nextSeg u) } };
      let w := issueReads .b (issueReads .a (commitHorizon v)); let x := (if w.mm.boost ∧
      boostEnds w then { w with mm := { w.mm with boost := false } } else w); fiTlps (settleSanitize (settleNs x)))) ∧
  (∀ (die : Nat) (s : State), inSegments die s = true → s.fs.windows.any (fun w => decide (w.die = die ∧ fretNow s ≤ w.opens ∧
      w.opens ≤ fretNow s + 5)) = true → exec (.suspendRequest die) s =
      .next (ctxCode die .suspended { s with fs := { s.fs with suspended := addOnce s.fs.suspended die } })) ∧
  (∀ (die : Nat) (s : State), inSegments die s = false → exec (.suspendRequest die) s = .next s) ∧
  (∀ (group : Nat) (x : Nat × Nat) (s : State), s.fs.turn.find? (fun t => t.1 == group) = some x → x.2 + turnFrets ≤ fretNow s →
      s.fs.leaving.contains group = false → ∃ t, exec (.vatTurnEnd group) s = .next t ∧ Only [.eff, .fs] s t ∧ t =
      (let u := commitPoint .turnEnd s; let v := { u with fs := { u.fs with leaving := u.fs.leaving ++ [group] } };
      let stay := (v.fs.turn.filter (fun x => !v.fs.leaving.contains x.1)).map (·.1); let held := stay.length + v.fs.prepared.length;
      departs (prepare (inForce Reg.FS_VAT.GROUPS u - held) { v with fs := { v.fs with leaving := v.fs.leaving ++ stay.take (held - inForce Reg.FS_VAT.GROUPS u) } }))) ∧
  (∀ (group : Nat) (s : State), s.fs.turn = [] → exec (.vatTurnEnd group) s = .next s) ∧
  (∀ (group : Nat) (s : State), s.fs.prepared.contains group = true → atBoundary group s = true → exec (.groupWordlineBoundary group) s =
      .next (retryGather (departs { s with fs := { s.fs with prepared := s.fs.prepared.filter (fun g => g != group), turn := s.fs.turn ++ [(group, fretNow s)] } }))) ∧
  (∀ (s : State), mediaMode s.gen.mode = true → s.mx.jfly = none → flushDue s = true → ∃ t, exec .journalFlush s = .next t ∧ Only [.eff,
      .fs, .mx, .reg Reg.MX_ERR.REPLAYOVER] s t ∧ t.mx.jfly = some (s.mx.jseq + 1, s.mx.jpend.take segmentMax) ∧ t.mx.jpend =
      s.mx.jpend.drop segmentMax ∧ t.mx.flushAt = now s ∧ (isOn Reg.MX_ERR.REPLAYOVER t = true ∨ replayOver s = false) ∧ t =
      (let u := flagIf (replayOver s) Reg.MX_ERR.REPLAYOVER (commitPoint .journalFlush s);
      { u with mx := { u.mx with jfly := some (u.mx.jseq + 1, u.mx.jpend.take segmentMax), jpend := u.mx.jpend.drop segmentMax, flushAt := now u } })) ∧
  (∀ (copyFailed : Bool) (seq : Nat) (recs : List JRec) (s : State), s.mx.jfly = some (seq, recs) → ∃ t,
      exec (.journalSegmentDurable copyFailed) s = .next t ∧ Only (places [posting, logging, revoking, windowLog, sending,
      poisoned] [.freeCtr, .sh, .defFaults, .lost, .cmds, .mx, .ns, .mm, .tw, .nand, .reg Reg.MX_ERR.JNLCOPY, .reg Reg.MX_ERR.CEILHOLD,
      .reg Reg.MM_ERR.VATSLOT, .reg Reg.TW_ERR.WINHOLD, .reg Reg.TW_ERR.TOUCHFULL]) s t ∧ t =
      (let u := flagIf copyFailed Reg.MX_ERR.JNLCOPY s;
      let v := { u with mx := { u.mx with jfly := none, jseq := seq, jlast := if lastCsnOf recs = 0 then u.mx.jlast else lastCsnOf recs, ceil := (ceilOf recs).getD s.mx.ceil, ceilPend := if (ceilOf recs).isSome then none else u.mx.ceilPend }, nand := { u.nand with ceil := (ceilOf recs).getD s.mx.ceil, segs := u.nand.segs ++ [⟨seq, recs, 2⟩] } };
      retryCommits (freeErased (openDurable recs (segmentPages seq recs.length v))))) ∧
  (∀ (s : State), mediaMode s.gen.mode = true → s.mx.sweep = none → s.mx.dirty = true → ∃ t, exec .checkpointSweepStart s = .next t ∧
      Only [.eff, .fs, .mx] s t ∧ (∃ r, t.mx.sweep = some r ∧ r.sweep = nextSweep s ∧ r.replaySeq = s.mx.jseq + 1) ∧ t.mx.dirty = false ∧
      t = sweepStart s) ∧
  (∀ (s : State), mediaMode s.gen.mode = true → s.mx.sweep = none → s.mx.rootAt + 10000000000 ≤ now s → ∃ t, exec .sweepTimeout s =
      .next t ∧ Only [.eff, .fs, .mx] s t ∧ (∃ r, t.mx.sweep = some r ∧ r.sweep = nextSweep s ∧ r.replaySeq = s.mx.jseq + 1) ∧ t.mx.dirty =
      false ∧ t = sweepStart s) ∧
  (∀ (copyFailed : Bool) (r : Root) (s : State), s.mx.sweep = some r → ∃ t, exec (.sweepRootDurable copyFailed) s = .next t ∧ Only [.mx,
      .mm, .nand, .reg Reg.MX_CKPT.SWEEPS, .reg Reg.MX_ERR.ROOTCOPY, .reg Reg.MX_ERR.REPLAYOVER] s t ∧ t =
      (let seq := replayPoint r.replaySeq s; let u := rootDurable (rootNow false r.sweep seq s) (flagIf copyFailed Reg.MX_ERR.ROOTCOPY s);
      let v := { u with nand := { u.nand with segs := u.nand.segs.filter (fun g => decide (minOf (u.nand.roots.map (·.replaySeq)) seq ≤ g.seq)) }, mx := { u.mx with dirty := s.mx.dirty, lag := lagFrom seq u, cache := u.mx.cache.map (fun x => (x.1, x.2.1, false)) } };
      v4Done (flagIf (replayOver v) Reg.MX_ERR.REPLAYOVER v))) ∧
  (∀ (nsid grain : Nat) (readable : Bool) (s : State), s.mx.heldLines.contains (nsid, grain / 8 * 8) = true → readable = true →
      exec (.mapLineRestored nsid grain readable) s =
      .next ({ s with mx := { s.mx with heldLines := s.mx.heldLines.filter (fun x => x != (nsid, grain / 8 * 8)) } })) ∧
  (∀ (nsid grain : Nat) (readable : Bool) (s : State), s.mx.heldLines = [] → exec (.mapLineRestored nsid grain readable) s = .next s) ∧
  (∀ (nsid grain : Nat) (readable : Bool) (s : State), s.mx.heldLines.contains (nsid, grain / 8 * 8) = true → readable = false → ∃ t,
      exec (.mapLineRestored nsid grain readable) s = .next t ∧ Only (places [posting, logging, revoking, windowLog, sending] [.sh, .lost,
      .mx, .tw]) s t ∧ t =
      (lineGrains nsid grain { s with mx := { s.mx with heldLines := s.mx.heldLines.filter (fun x => x != (nsid, grain / 8 * 8)) } }).foldl (fun t g => if (getEntry nsid g t).lost then t else if ¬ (getEntry nsid g t).staged then loseStored nsid g 6 t else (match findStaged (getEntry nsid g t).stidx t with | some r => askRepair nsid g r.csn (releaseStaged r.stidx (markLost nsid g 6 r.csn t)) | none => t)) { s with mx := { s.mx with heldLines := s.mx.heldLines.filter (fun x => x != (nsid, grain / 8 * 8)) } })

/-- Racking, erases, bottling and refresh. Rules: R191, R192, R193, R194, R195, R196, R197, R198, R200, R201, R204, R205. -/
def Obligations.RackingAndErase : Prop :=
  (∀ (unreadable : List (Nat × Nat)) (b : Barrel) (u : State) (s : State), u =
      flagIf (rackMode (rackWatch s).gen.mode && freeBelow Reg.MM_RACK.FREECRIT (rackWatch s)) Reg.MM_ERR.FREECRIT (rackWatch s) →
      rackMode u.gen.mode = true → rackingNow u = false → rackWanted u = true → rackSource u = some b → ∃ t,
      exec (.rackingStart unreadable) s = .next t ∧ Only (places [posting, logging, revoking, windowLog, sending] [.sh, .lost, .mx, .mm,
      .tw, .reg Reg.MM_ERR.FREECRIT, .reg Reg.SP_LOSTCNT.POSITIONS, .reg Reg.SP_ERR.THREEMISS]) s t ∧ t = rackBarrel b.num unreadable u) ∧
  (∀ (unreadable : List (Nat × Nat)) (u : State) (s : State), u =
      flagIf (rackMode (rackWatch s).gen.mode && freeBelow Reg.MM_RACK.FREECRIT (rackWatch s)) Reg.MM_ERR.FREECRIT (rackWatch s) →
      (rackMode u.gen.mode = false ∨ rackingNow u = true ∨ rackWanted u = false ∨ rackSource u = none) → ∃ t,
      exec (.rackingStart unreadable) s = .next t ∧ Only (places [posting, logging, revoking, windowLog, sending] [.sh, .lost, .mx, .mm,
      .tw, .reg Reg.MM_ERR.FREECRIT, .reg Reg.SP_LOSTCNT.POSITIONS, .reg Reg.SP_ERR.THREEMISS]) s t ∧ t = u) ∧
  (∀ (barrel : Nat) (s : State), s.mm.rackdone.contains barrel = true → recPending (fun r => r.typ == 0x06 && r.key == barrel) s = false →
      readsPending (fun e => inBarrel barrel e s) s = false → ∃ t, exec (.rackdoneDurable barrel) s = .next t ∧ Only [.mx, .mm, .dg] s t ∧
      t =
      (let u : State := { s with mm := { s.mm with rackdone := s.mm.rackdone.filter (fun x => x != barrel), barrels := updFirst s.mm.barrels (fun x => x.num == barrel) (fun x => { x with state := 2 }) }, dg := { s.dg with barrelDigests := s.dg.barrelDigests.filter (·.1 != barrel) } };
      (barrelBlocks barrel u).foldl (fun t x => startErase x.1 x.2 t) u)) ∧
  (∀ (barrel : Nat) (s : State), s.mm.rackdone.contains barrel = false → exec (.rackdoneDurable barrel) s = .next s) ∧
  (∀ (die block : Nat) (s : State), intentAt die block false s = true → eraseIntPending die block s = false → ∃ t,
      exec (.eraseintDurable die block) s = .next t ∧ Only [.fs, .mx, .mm, .cs] s t ∧ t =
      (let u : State := { s with mm := { s.mm with eraseInt := s.mm.eraseInt.map (fun x => if x.1 = die ∧ x.2.1 = block then (x.1, x.2.1, true) else x) } };
      ctxPut die .erase block 0 .confirmed (segStart die (updBlk die block (fun x => { x with intent := true }) u)))) ∧
  (∀ (die block : Nat) (s : State), intentAt die block false s = false → exec (.eraseintDurable die block) s = .next s) ∧
  (∀ (die block : Nat) (pass : Bool) (s : State), intentAt die block true s = true → ∃ t, exec (.eraseDone die block pass) s = .next t ∧
      Only (places [posting, logging, revoking, windowLog, sending, disarming] [.gen, .sh, .lost, .mx, .ns, .mm, .sp, .cs, .tw, .dg, .nand,
      .ff, .prov, .reg Reg.MX_ERR.CEILHOLD, .reg Reg.MM_RETIRE.COUNT, .reg Reg.MM_RETLAST.DIE, .reg Reg.MM_RETLAST.BLOCK,
      .reg Reg.MM_RETLAST.CAUSE, .reg Reg.MM_ERR.SHORTCLOSE, .reg Reg.MM_ERR.ROWWD, .reg Reg.SP_LOSTCNT.POSITIONS, .reg Reg.SP_ERR.NOSPARE,
      .reg Reg.SP_ERR.THREEMISS, .reg Reg.SP_ERR.SPAREFAIL, .reg Reg.FI_ERR.REALFAULT]) s t ∧ t =
      (let u := segEnd die { s with mm := { s.mm with eraseInt := s.mm.eraseInt.filter (fun x => decide (¬ (x.1 = die ∧ x.2.1 = block))) } };
      let n := Nat.min ((getBlk die block u).erases + 1) 16777215; let v := updBlk die block (fun k => { k with erases := n }) u;
      if pass then jAppend (jEraseDone die block v.mx.csn n 1 false) (wipeBlock die block v) else jAppend (jEraseDone die block v.mx.csn n 1 true) (retireBlock die block 1 v))) ∧
  (∀ (die block : Nat) (pass : Bool) (s : State), intentAt die block true s = false → exec (.eraseDone die block pass) s = .next s) ∧
  (∀ (die slot : Nat) (unreadable : List (Nat × Nat)) (s : State), bottleMode s.gen.mode = true → (slotRetired die slot s = true ∨
      retiredWaits s = false) → ∃ t, exec (.bottlingStart die slot unreadable) s = .next t ∧ Only (places [posting, logging, revoking,
      windowLog, sending] [.sh, .lost, .mx, .mm, .tw, .reg Reg.SP_LOSTCNT.POSITIONS, .reg Reg.SP_ERR.THREEMISS]) s t ∧ t =
      bottleSlot die slot unreadable s) ∧
  (∀ (die slot : Nat) (unreadable : List (Nat × Nat)) (s : State), bottleMode s.gen.mode = false →
      exec (.bottlingStart die slot unreadable) s = .next s) ∧
  (∀ (die slot b : Nat) (g : Group) (m : Nat) (s : State), pairOf die s = some (g, m) → ((getPair g.num m s).full.head? = some slot ∨
      ((getPair g.num m s).retired.contains slot && !(getPair g.num m s).gone.contains slot && !(getPair g.num m s).erasing.contains slot) =
      true) → slotReclaimable g m slot s = true → vatBlock g m slot s = some b → ∃ t, exec (.vatSlotErase die slot) s = .next t ∧ Only [.mx,
      .mm] s t ∧ t = (let p := getPair g.num m s;
      let u := putPair { p with full := p.full.filter (fun v => v != slot), erasing := addOnce p.erasing slot } s;
      ((vatDies g m u).filter (fun d => !(getBlk d b u).retired)).foldl (fun t d => startErase d b t) u)) ∧
  (∀ (die slot : Nat) (s : State), pairOf die s = none → exec (.vatSlotErase die slot) s = .next s) ∧
  (∀ (barrel : Nat) (unreadable : List (Nat × Nat)) (s : State), refreshMode s.gen.mode = true → (rackable s).any (fun b => b.num ==
      barrel) = true → tooOld barrel s = true → ∃ t, exec (.ageRefresh barrel unreadable) s = .next t ∧ Only (places [posting, logging,
      revoking, windowLog, sending] [.sh, .lost, .mx, .mm, .tw, .reg Reg.MM_REFCNT.AGE, .reg Reg.SP_LOSTCNT.POSITIONS,
      .reg Reg.SP_ERR.THREEMISS]) s t ∧ t = bump Reg.MM_REFCNT.AGE (rackBarrel barrel unreadable s) ∧ getF Reg.MM_REFCNT.AGE t =
      Nat.min (getF Reg.MM_REFCNT.AGE (rackBarrel barrel unreadable s) + 1) (2 ^ Reg.MM_REFCNT.AGE.width - 1)) ∧
  (∀ (barrel : Nat) (unreadable : List (Nat × Nat)) (s : State), tooOld barrel s = false → exec (.ageRefresh barrel unreadable) s = .next s)

/-- Refresh, vintage 4 reclaim, snapshots, rebuild and dissolution. Rules: R197, R206, R218, R219, R223, R225, R226, R228. -/
def Obligations.RefreshSnapshotRebuild : Prop :=
  (∀ (die block : Nat) (unreadable : List (Nat × Nat)) (g : Group) (m p v : Nat) (s : State), refreshMode s.gen.mode = true →
      (getBlk die block s).refresh = true → memberOf die s = some (g, m) → slotOfBlock g m block s = some (p, v) →
      s.mm.racking.any (fun x => x.1 == bottleKey (g.die p) v) = false → ∃ t, exec (.blockRefresh die block unreadable) s = .next t ∧
      Only (places [posting, logging, revoking, windowLog, sending] [.sh, .lost, .mx, .mm, .tw, .reg Reg.MM_REFCNT.BLOCK,
      .reg Reg.SP_LOSTCNT.POSITIONS, .reg Reg.SP_ERR.THREEMISS]) s t ∧ t = bump Reg.MM_REFCNT.BLOCK (bottleSlot (g.die p) v unreadable s)) ∧
  (∀ (die block : Nat) (unreadable : List (Nat × Nat)) (s : State), (getBlk die block s).refresh = false →
      exec (.blockRefresh die block unreadable) s = .next s) ∧
  (∀ (b : Barrel) (s : State), rackMode s.gen.mode = true → oldestBarrel (s.mm.barrels.filter (fun b => decide (b.vintage = 4 ∧ b.state =
      1) && !s.mm.racking.any (fun x => x.1 == v4Key b.num) && !s.mm.rackdone.contains b.num)) = some b → ∃ t, exec .v4Reclaim s = .next t ∧
      Only [.mx, .mm] s t ∧ t.mm.racking = s.mm.racking ++ [(v4Key b.num, [])] ∧ t.mm.barrels = s.mm.barrels ∧ t.mx.map = s.mx.map ∧
      t.mx.dirty = true) ∧
  (∀ (s : State), s.mm.barrels = [] → exec .v4Reclaim s = .next s) ∧
  (∀ (s : State), snapMode s.gen.mode = true → s.sp.snapFly = none → ∃ t, exec .snapshotWrite s = .next t ∧ Only (places [logging, revoking,
      windowLog, sending] [.sp]) s t ∧ t.sp.snapFly = some (snapNow s) ∧ t.nand = s.nand) ∧
  (∀ (s : State), s.sp.snapFly ≠ none → exec .snapshotWrite s = .next s) ∧
  (∀ (copyFailed : Bool) (n : Snap) (s : State), s.sp.snapFly = some n → ∃ t, exec (.snapshotDurable copyFailed) s = .next t ∧ Only [.mx,
      .mm, .sp, .nand, .reg Reg.SP_ERR.SJCOPY] s t ∧ t = snapDurableNow n (flagIf copyFailed Reg.SP_ERR.SJCOPY s) ∧ (copyFailed = true →
      isOn Reg.SP_ERR.SJCOPY t = true)) ∧
  (∀ (copyFailed : Bool) (s : State), s.sp.snapFly = none → exec (.snapshotDurable copyFailed) s = .next s) ∧
  (∀ (die : Nat) (e : Subst) (g : Group) (s : State), substOf die s = some e → findGroup e.group s = some g → e.state = 1 →
      backgroundMode s.gen.mode = true → substDurable e s = true → atBoundary g.num s = true →
      ((rebuildingGroups s).contains g.num || decide ((rebuildingGroups s).length + aheadOf g.num s < getF Reg.SP_REBCFG.MAXGRP s)) = true →
      ∃ t, exec (.rebuildStart die) s = .next t ∧ Only (places [posting, logging, revoking, windowLog, sending] [.sh, .lost, .mx, .mm, .sp,
      .tw, .nand, .reg Reg.MM_ERR.SHORTCLOSE, .reg Reg.MM_ERR.VATSLOT, .reg Reg.SP_LOSTCNT.POSITIONS, .reg Reg.SP_ERR.THREEMISS]) s t ∧ t =
      (let u := (match s.mm.openB.find? (fun b => b.group == g.num) with | some b => closeShort b.num s | none => s);
      let v := rewriteSysPages (fun x => decide (x.group = g.num) && (g.pairPos (g.posOf die) == some x.pos) && x.kind != 2) u;
      advanceRow g die 0 (updSubst die (fun x => { x with state := 2, nextRow := 0 }) (formSlots g die e.dst (bottleMember g die v))))) ∧
  (∀ (die : Nat) (e : Subst) (s : State), substOf die s = some e → substDurable e s = false → exec (.rebuildStart die) s = .next s) ∧
  (∀ (die row wordline : Nat) (last : Bool) (lostGrains : List (Nat × Nat)) (e : Subst) (g : Group) (u : State) (s : State), substOf die s =
      some e → findGroup e.group s = some g → e.state = 2 → row = e.nextRow → s.mm.racking.any (fun x => x.1 == barrelNum g.num row) =
      false → u = (if wordline = 0 ∧
      (getBlk (rowPlace g (g.posOf die) row s).1 (rowPlace g (g.posOf die) row s).2 s).pptr ≠ 0 then eraseNow (rowPlace g (g.posOf die) row s) s else s) →
      (getBlk (rowPlace g (g.posOf die) row s).1 (rowPlace g (g.posOf die) row s).2 u).pptr = 4 * wordline → ∃ t,
      exec (.rebuildWordlineDone die row wordline last lostGrains) s = .next t ∧ Only (places [posting, logging, revoking, windowLog,
      sending] [.sh, .lost, .mx, .mm, .sp, .tw, .nand, .reg Reg.SP_LOSTCNT.POSITIONS, .reg Reg.SP_ERR.THREEMISS]) s t ∧ t =
      (let v := if lostGrains = [] then u else threeMissing lostGrains u;
      let w := updBlk (rowPlace g (g.posOf die) row s).1 (rowPlace g (g.posOf die) row s).2 (fun x => { x with pptr := 4 * wordline + 4, age := if wordline = 0 then now v else x.age }) v;
      if last then advanceRow g die (row + 1) w else w)) ∧
  (∀ (die row wordline : Nat) (last : Bool) (lostGrains : List (Nat × Nat)) (e : Subst) (s : State), substOf die s = some e →
      row ≠ e.nextRow → exec (.rebuildWordlineDone die row wordline last lostGrains) s = .next s) ∧
  (∀ (group : Nat) (g : Group) (s : State), findGroup group s = some g → g.dissolving = true → groupEmpty g s = true → ∃ t,
      exec (.groupDissolution group) s = .next t ∧ Only (places [posting, logging, revoking, windowLog, sending, disarming] [.gen, .sh,
      .lost, .mx, .ns, .mm, .sp, .tw, .dg, .nand, .ff, .prov, .reg Reg.MX_ERR.CEILHOLD, .reg Reg.MM_ERR.SHORTCLOSE,
      .reg Reg.SP_LOSTCNT.POSITIONS, .reg Reg.SP_ERR.NOSPARE, .reg Reg.SP_ERR.THREEMISS, .reg Reg.SP_ERR.DISSOLVED,
      .reg Reg.FI_ERR.REALFAULT]) s t ∧ t = dissolved g s ∧ isOn Reg.SP_ERR.DISSOLVED t = true) ∧
  (∀ (group : Nat) (g : Group) (s : State), findGroup group s = some g → g.dissolving = false → backgroundMode s.gen.mode = true →
      s.sp.groups.any (·.dissolving) = false → (dissolvable s).any (fun x => x.num == group) = true → fewest g s = true → ∃ t,
      exec (.groupDissolution group) s = .next t ∧ Only (places [posting, logging, revoking, windowLog, sending, disarming] [.gen, .sh,
      .lost, .mx, .ns, .mm, .sp, .tw, .dg, .nand, .ff, .prov, .reg Reg.MX_ERR.CEILHOLD, .reg Reg.MM_ERR.SHORTCLOSE,
      .reg Reg.SP_LOSTCNT.POSITIONS, .reg Reg.SP_ERR.NOSPARE, .reg Reg.SP_ERR.THREEMISS, .reg Reg.SP_ERR.DISSOLVED,
      .reg Reg.FI_ERR.REALFAULT]) s t ∧ t = rewriteSysPages (fun x => decide (x.group =
      g.num)) ((List.range (g.width / 2)).foldl (fun t p => bottleMember g (g.die p) t) (stopGroup group (updGroup group (fun x => { x with dissolving := true }) s)))) ∧
  (∀ (group : Nat) (s : State), findGroup group s = none → exec (.groupDissolution group) s = .next s) ∧
  (∀ (die block : Nat) (unreadable : List (Nat × Nat)) (g : Group) (m : Nat) (s : State), refreshMode s.gen.mode = true →
      (getBlk die block s).refresh = true → memberOf die s = some (g, m) → slotOfBlock g m block s = none →
      (barrelOf g m die block s).any (fun n => s.mm.racking.any (fun x => x.1 == n)) = false → s.mm.racking.any (fun x => x.1 ==
      refreshKey die block) = false → validGrains (fun e => decide (e.vhint ≠ 5 ∧ e.die = g.die m ∧ e.block =
      (match barrelOf g m die block s with | some n => rowBlock g m (barrelRow n) s | none => block))) s ≠ [] → ∃ t,
      exec (.blockRefresh die block unreadable) s = .next t ∧ Only (places [posting, logging, revoking, windowLog, sending] [.sh, .lost,
      .mx, .mm, .tw, .reg Reg.MM_REFCNT.BLOCK, .reg Reg.SP_LOSTCNT.POSITIONS, .reg Reg.SP_ERR.THREEMISS]) s t ∧ t =
      bump Reg.MM_REFCNT.BLOCK (startCopies (refreshKey die block) unreadable (validGrains (fun e => decide (e.vhint ≠ 5 ∧ e.die = g.die m ∧
      e.block = (match barrelOf g m die block s with | some n => rowBlock g m (barrelRow n) s | none => block))) s) s))

/-- Sequencer faults, retraining and patch sets. Rules: R262, R264, R265, R263, R268, R269, R270, R271. -/
def Obligations.SequencersAndPatches : Prop :=
  (∀ (cluster : Fin 8) (seq : Fin 9) (cause : SeqFault) (took : Nat) (phy sp : Nat) (f : Field) (u : State) (s : State),
      (getCluster cluster.val s).faulted.contains seq.val = false → phyOf seq.val (getCluster cluster.val s) = some phy →
      (getCluster cluster.val s).spare = some sp → f = (match cause with | .microwordCheck => Reg.CS_ERR.MWCHK | _ => Reg.CS_ERR.SEQFAULT) →
      u = takeOver cluster.val phy seq.val sp took (unitOut 1 (9 * cluster.val +
      seq.val) (updCluster cluster.val (fun c => { c with faulted := c.faulted ++ [seq.val] }) (setF Reg.CS_TAKEOVER.FAILSEQ (9 * cluster.val +
      seq.val) (flagOn f s)))) → ∃ t, exec (.sequencerFault cluster seq cause took) s = .next t ∧ Only (places [posting, logging, revoking,
      windowLog, sending, disarming] [.freeCtr, .gen, .sh, .lost, .cmds, .mx, .ns, .mm, .sp, .cs, .tw, .dg, .nand, .ff, .prov, .fuses,
      .reg Reg.GEN_RSTCAUSE.MGRST, .reg Reg.GEN_DRAIN.ACTIVE, .reg Reg.FS_CONT.CLAIMS, .reg Reg.FS_CONT.DISPL, .reg Reg.FS_CONT.BEYOND,
      .reg Reg.MX_ERR.CEILHOLD, .reg Reg.MM_ERR.SHORTCLOSE, .reg Reg.SP_LOSTCNT.POSITIONS, .reg Reg.SP_ERR.NOSPARE,
      .reg Reg.SP_ERR.THREEMISS, .reg Reg.SP_ERR.SPAREFAIL, .reg Reg.CS_ACT.STALL, .reg Reg.CS_TAKEOVER.COUNT, .reg Reg.CS_TAKEOVER.LAST,
      .reg Reg.CS_TAKEOVER.FAILSEQ, .reg Reg.CS_ERR.MWCHK, .reg Reg.CS_ERR.SEQFAULT, .reg Reg.MG_STAT.MGRESETS, .reg Reg.MG_WDOG.PERIOD,
      .reg Reg.FF_STATUS.BUSY, .reg Reg.FI_ERR.REALFAULT]) s t ∧ t = (if u.cs.act.any (fun a => a.1 ==
      cluster.val) then stallActivation cluster.val u else u)) ∧
  (∀ (cluster : Fin 8) (seq : Fin 9) (cause : SeqFault) (took : Nat) (s : State), (getCluster cluster.val s).faulted.contains seq.val =
      true → exec (.sequencerFault cluster seq cause took) s = .next s) ∧
  (∀ (cluster : Fin 8) (seq : Fin 9) (took : Nat) (phy : Nat) (s : State), (getCluster cluster.val s).faulted.contains seq.val = false →
      phyOf seq.val (getCluster cluster.val s) = some phy → (getCluster cluster.val s).spare = none → ∃ t,
      exec (.yieldTimeout cluster seq took) s = .next t ∧ Only (places [posting, logging, revoking, windowLog, sending,
      disarming] [.freeCtr, .gen, .sh, .lost, .cmds, .mx, .ns, .mm, .sp, .cs, .tw, .dg, .nand, .ff, .prov, .fuses,
      .reg Reg.GEN_RSTCAUSE.MGRST, .reg Reg.GEN_DRAIN.ACTIVE, .reg Reg.FS_CONT.CLAIMS, .reg Reg.FS_CONT.DISPL, .reg Reg.FS_CONT.BEYOND,
      .reg Reg.MX_ERR.CEILHOLD, .reg Reg.MM_ERR.SHORTCLOSE, .reg Reg.SP_LOSTCNT.POSITIONS, .reg Reg.SP_ERR.NOSPARE,
      .reg Reg.SP_ERR.THREEMISS, .reg Reg.SP_ERR.SPAREFAIL, .reg Reg.CS_ACT.STALL, .reg Reg.CS_TAKEOVER.COUNT, .reg Reg.CS_TAKEOVER.LAST,
      .reg Reg.CS_TAKEOVER.FAILSEQ, .reg Reg.CS_ERR.YIELDTO, .reg Reg.MG_STAT.MGRESETS, .reg Reg.MG_WDOG.PERIOD, .reg Reg.FF_STATUS.BUSY,
      .reg Reg.FI_ERR.REALFAULT]) s t ∧ t = (let v := noTakeOver cluster.val phy (unitOut 1 (9 * cluster.val +
      seq.val) (updCluster cluster.val (fun c => { c with faulted := c.faulted ++ [seq.val] }) (setF Reg.CS_TAKEOVER.FAILSEQ (9 * cluster.val +
      seq.val) (flagOn Reg.CS_ERR.YIELDTO s)))); if v.cs.act.any (fun a => a.1 == cluster.val) then stallActivation cluster.val v else v)) ∧
  (∀ (cluster : Fin 8) (seq : Fin 9) (took : Nat) (s : State), (getCluster cluster.val s).faulted.contains seq.val = true →
      exec (.yieldTimeout cluster seq took) s = .next s) ∧
  (∀ (channel : Fin 64) (tempDelta : Nat) (x : Channel) (s : State), mediaMode s.gen.mode = true → s.cs.chans[channel.val]? = some x →
      x.ok = true → tempDelta = 0 ∨ getF Reg.CS_TRAIN.TDELTA s ≤ tempDelta → ∃ t, exec (.channelRetrain channel tempDelta) s = .next t ∧
      Only [.fs, .cs] s t ∧ t.cs.chans[channel.val]? = some { x with retrain := 3 } ∧ t.fs.bookings = s.fs.bookings ++ [⟨.chan channel.val,
      lineFree s.fs.bookings (.chan channel.val) 12 (s.fs.bookings.length + 1) (fretNow s + 1), 12, 0, none, 0, 0, false, false⟩]) ∧
  (∀ (channel : Fin 64) (tempDelta : Nat) (s : State), (s.cs.chans[channel.val]?).any (·.ok) = false →
      exec (.channelRetrain channel tempDelta) s = .next s) ∧
  (∀ (channel : Fin 64) (failedTwice : Bool) (x : Channel) (s : State), s.cs.chans[channel.val]? = some x → x.retrain ≠ 0 → failedTwice =
      false → ∃ t, exec (.retrainStep channel failedTwice []) s = .next t ∧ Only (places [posting, logging, revoking, windowLog, sending,
      disarming] [.freeCtr, .gen, .sh, .lost, .cmds, .mx, .ns, .mm, .sp, .cs, .tw, .dg, .nand, .ff, .prov, .reg Reg.FS_CONT.CLAIMS,
      .reg Reg.FS_CONT.DISPL, .reg Reg.FS_CONT.BEYOND, .reg Reg.MX_ERR.CEILHOLD, .reg Reg.MM_ERR.SHORTCLOSE, .reg Reg.SP_LOSTCNT.POSITIONS,
      .reg Reg.SP_ERR.NOSPARE, .reg Reg.SP_ERR.THREEMISS, .reg Reg.SP_ERR.SPAREFAIL, .reg Reg.CS_ERR.TRAINFAIL, .reg Reg.CS_ERR.IDCHANGE,
      .reg Reg.FI_ERR.REALFAULT]) s t ∧ t.cs.chans[channel.val]? = some { x with retrain := x.retrain - 1 } ∧ t.sp = s.sp) ∧
  (∀ (channel : Fin 64) (failedTwice : Bool) (idChanged : List Nat) (x : Channel) (s : State), s.cs.chans[channel.val]? = some x →
      x.retrain ≠ 0 → failedTwice = true → ∃ t, exec (.retrainStep channel failedTwice idChanged) s = .next t ∧ Only (places [posting,
      logging, revoking, windowLog, sending, disarming] [.freeCtr, .gen, .sh, .lost, .cmds, .mx, .ns, .mm, .sp, .cs, .tw, .dg, .nand, .ff,
      .prov, .reg Reg.FS_CONT.CLAIMS, .reg Reg.FS_CONT.DISPL, .reg Reg.FS_CONT.BEYOND, .reg Reg.MX_ERR.CEILHOLD, .reg Reg.MM_ERR.SHORTCLOSE,
      .reg Reg.SP_LOSTCNT.POSITIONS, .reg Reg.SP_ERR.NOSPARE, .reg Reg.SP_ERR.THREEMISS, .reg Reg.SP_ERR.SPAREFAIL,
      .reg Reg.CS_ERR.TRAINFAIL, .reg Reg.CS_ERR.IDCHANGE, .reg Reg.FI_ERR.REALFAULT]) s t ∧ t =
      declareChannelFailed channel.val (chanReadsFail channel.val (flagOn Reg.CS_ERR.TRAINFAIL s))) ∧
  (∀ (channel : Fin 64) (failedTwice : Bool) (idChanged : List Nat) (x : Channel) (s : State), s.cs.chans[channel.val]? = some x →
      x.retrain = 0 → exec (.retrainStep channel failedTwice idChanged) s = .next s) ∧
  (∀ (cluster : Fin 8) (p : PatchSet) (atStartup : Bool) (s : State), atStartup = true → s.gen.mode = .boot → setFormatOk p s = true →
      p.sigOk = true → acceptFlags p.flagA p.flagB = true → ∃ t, exec (.patchSetLoad cluster p atStartup) s = .next t ∧
      Only (places [posting, logging, revoking, disarming] [.freeCtr, .gen, .cmds, .mx, .mm, .cs, .tw, .dg, .ff, .prov, .fuses,
      .reg Reg.GEN_RSTCAUSE.MGRST, .reg Reg.GEN_DRAIN.ACTIVE, .reg Reg.CS_ACT.STALL, .reg Reg.CS_ERR.PATCHSIG, .reg Reg.CS_ERR.PATCHFMT,
      .reg Reg.MG_STAT.MGRESETS, .reg Reg.MG_WDOG.PERIOD, .reg Reg.FF_STATUS.BUSY]) s t ∧ t = loadBank cluster.val false p s) ∧
  (∀ (cluster : Fin 8) (p : PatchSet) (atStartup : Bool) (s : State), atStartup = true → s.gen.mode = .boot → setFormatOk p s = false → ∃ t,
      exec (.patchSetLoad cluster p atStartup) s = .next t ∧ Only (places [posting, logging, revoking, disarming] [.freeCtr, .gen, .cmds,
      .mx, .mm, .cs, .tw, .dg, .ff, .prov, .fuses, .reg Reg.GEN_RSTCAUSE.MGRST, .reg Reg.GEN_DRAIN.ACTIVE, .reg Reg.CS_ACT.STALL,
      .reg Reg.CS_ERR.PATCHSIG, .reg Reg.CS_ERR.PATCHFMT, .reg Reg.MG_STAT.MGRESETS, .reg Reg.MG_WDOG.PERIOD,
      .reg Reg.FF_STATUS.BUSY]) s t ∧ t = startupSetFailed (flagOn Reg.CS_ERR.PATCHFMT s) ∧ isOn Reg.CS_ERR.PATCHFMT t = true) ∧
  (∀ (cluster : Fin 8) (p : PatchSet) (atStartup : Bool) (s : State), atStartup = false → s.cs.act = some (cluster.val, 0) →
      (getCluster cluster.val s).spare ≠ none → setFormatOk p s = true → p.sigOk = false → ∃ t, exec (.patchSetLoad cluster p atStartup) s =
      .next t ∧ Only (places [posting, logging, revoking, disarming] [.freeCtr, .gen, .cmds, .mx, .mm, .cs, .tw, .dg, .ff, .prov, .fuses,
      .reg Reg.GEN_RSTCAUSE.MGRST, .reg Reg.GEN_DRAIN.ACTIVE, .reg Reg.CS_ACT.STALL, .reg Reg.CS_ERR.PATCHSIG, .reg Reg.CS_ERR.PATCHFMT,
      .reg Reg.MG_STAT.MGRESETS, .reg Reg.MG_WDOG.PERIOD, .reg Reg.FF_STATUS.BUSY]) s t ∧ t =
      activationFailed (flagOn Reg.CS_ERR.PATCHSIG s)) ∧
  (∀ (cluster : Fin 8) (p : PatchSet) (atStartup : Bool) (s : State), atStartup = false → s.cs.act = none →
      exec (.patchSetLoad cluster p atStartup) s = .next s) ∧
  (∀ (cluster phy : Fin 8) (s : State), s.cs.act = some (cluster.val, phy.val) → (getCluster cluster.val s).spare.isNone = false →
      (if newBank (getCluster cluster.val s) phy.val then (getCluster cluster.val s).bankB.locked else (getCluster cluster.val s).bankA.locked) =
      true → ∃ t, exec (.patchHandoff cluster phy) s = .next t ∧ Only (places [posting, logging, revoking, disarming] [.freeCtr, .gen,
      .cmds, .mx, .mm, .cs, .tw, .dg, .ff, .prov, .fuses, .reg Reg.GEN_RSTCAUSE.MGRST, .reg Reg.GEN_DRAIN.ACTIVE, .reg Reg.FS_CONT.CLAIMS,
      .reg Reg.FS_CONT.DISPL, .reg Reg.FS_CONT.BEYOND, .reg Reg.CS_ACT.STALL, .reg Reg.CS_ACT.HANDOFFS, .reg Reg.MG_STAT.MGRESETS,
      .reg Reg.MG_WDOG.PERIOD, .reg Reg.FF_STATUS.BUSY]) s t ∧ t =
      (let u := bump Reg.CS_ACT.HANDOFFS (resumeRecs cluster.val phy.val (chanReadsFail (8 * cluster.val +
      phy.val) (handOff cluster.val phy.val s)));
      if phy.val < 7 then { u with cs := { u.cs with act := some (cluster.val, phy.val + 1) } } else (let v := updCluster cluster.val unlockFree u;
      if cluster.val < 7 then { v with cs := { v.cs with act := some (cluster.val + 1, 0) } } else activationDone { v with cs := { v.cs with act := none } }))) ∧
  (∀ (cluster phy : Fin 8) (s : State), s.cs.act = none → exec (.patchHandoff cluster phy) s = .next s) ∧
  (∀ (cluster : Fin 8) (seq : Fin 9) (cause : SeqFault) (took : Nat) (phy : Nat) (s : State),
      (getCluster cluster.val s).faulted.contains seq.val = false → phyOf seq.val (getCluster cluster.val s) = some phy →
      (getCluster cluster.val s).spare = none → ∃ t, exec (.sequencerFault cluster seq cause took) s = .next t ∧ Only (places [posting,
      logging, revoking, windowLog, sending, disarming] [.freeCtr, .gen, .sh, .lost, .cmds, .mx, .ns, .mm, .sp, .cs, .tw, .dg, .nand, .ff,
      .prov, .fuses, .reg Reg.GEN_RSTCAUSE.MGRST, .reg Reg.GEN_DRAIN.ACTIVE, .reg Reg.FS_CONT.CLAIMS, .reg Reg.FS_CONT.DISPL,
      .reg Reg.FS_CONT.BEYOND, .reg Reg.MX_ERR.CEILHOLD, .reg Reg.MM_ERR.SHORTCLOSE, .reg Reg.SP_LOSTCNT.POSITIONS, .reg Reg.SP_ERR.NOSPARE,
      .reg Reg.SP_ERR.THREEMISS, .reg Reg.SP_ERR.SPAREFAIL, .reg Reg.CS_ACT.STALL, .reg Reg.CS_TAKEOVER.COUNT, .reg Reg.CS_TAKEOVER.LAST,
      .reg Reg.CS_TAKEOVER.FAILSEQ, .reg Reg.CS_ERR.MWCHK, .reg Reg.CS_ERR.SEQFAULT, .reg Reg.MG_STAT.MGRESETS, .reg Reg.MG_WDOG.PERIOD,
      .reg Reg.FF_STATUS.BUSY, .reg Reg.FI_ERR.REALFAULT]) s t ∧ t = (let v := noTakeOver cluster.val phy (unitOut 1 (9 * cluster.val +
      seq.val) (updCluster cluster.val (fun c => { c with faulted := c.faulted ++ [seq.val] }) (setF Reg.CS_TAKEOVER.FAILSEQ (9 * cluster.val +
      seq.val) (flagOn (match cause with | .microwordCheck => Reg.CS_ERR.MWCHK | _ => Reg.CS_ERR.SEQFAULT) s))));
      if v.cs.act.any (fun a => a.1 == cluster.val) then stallActivation cluster.val v else v)) ∧
  (∀ (cluster : Fin 8) (seq : Fin 9) (cause : SeqFault) (took : Nat) (s : State), (getCluster cluster.val s).faulted.contains seq.val =
      false → phyOf seq.val (getCluster cluster.val s) = none → ∃ t, exec (.sequencerFault cluster seq cause took) s = .next t ∧
      Only (places [posting, logging, revoking, windowLog, sending, disarming] [.freeCtr, .gen, .sh, .lost, .cmds, .mx, .ns, .mm, .sp, .cs,
      .tw, .dg, .nand, .ff, .prov, .fuses, .reg Reg.GEN_RSTCAUSE.MGRST, .reg Reg.GEN_DRAIN.ACTIVE, .reg Reg.FS_CONT.CLAIMS,
      .reg Reg.FS_CONT.DISPL, .reg Reg.FS_CONT.BEYOND, .reg Reg.MX_ERR.CEILHOLD, .reg Reg.MM_ERR.SHORTCLOSE, .reg Reg.SP_LOSTCNT.POSITIONS,
      .reg Reg.SP_ERR.NOSPARE, .reg Reg.SP_ERR.THREEMISS, .reg Reg.SP_ERR.SPAREFAIL, .reg Reg.CS_ACT.STALL, .reg Reg.CS_TAKEOVER.COUNT,
      .reg Reg.CS_TAKEOVER.LAST, .reg Reg.CS_TAKEOVER.FAILSEQ, .reg Reg.CS_ERR.MWCHK, .reg Reg.CS_ERR.SEQFAULT, .reg Reg.MG_STAT.MGRESETS,
      .reg Reg.MG_WDOG.PERIOD, .reg Reg.FF_STATUS.BUSY, .reg Reg.FI_ERR.REALFAULT]) s t ∧ t =
      (let v := updCluster cluster.val (fun c => { c with spare := if c.spare = some seq.val then none else c.spare }) (unitOut 1 (9 * cluster.val +
      seq.val) (updCluster cluster.val (fun c => { c with faulted := c.faulted ++ [seq.val] }) (setF Reg.CS_TAKEOVER.FAILSEQ (9 * cluster.val +
      seq.val) (flagOn (match cause with | .microwordCheck => Reg.CS_ERR.MWCHK | _ => Reg.CS_ERR.SEQFAULT) s))));
      if v.cs.act.any (fun a => a.1 == cluster.val) then stallActivation cluster.val v else v)) ∧
  (∀ (cluster : Fin 8) (seq : Fin 9) (took : Nat) (phy sp : Nat) (s : State), (getCluster cluster.val s).faulted.contains seq.val = false →
      phyOf seq.val (getCluster cluster.val s) = some phy → (getCluster cluster.val s).spare = some sp → ∃ t,
      exec (.yieldTimeout cluster seq took) s = .next t ∧ Only (places [posting, logging, revoking, windowLog, sending,
      disarming] [.freeCtr, .gen, .sh, .lost, .cmds, .mx, .ns, .mm, .sp, .cs, .tw, .dg, .nand, .ff, .prov, .fuses,
      .reg Reg.GEN_RSTCAUSE.MGRST, .reg Reg.GEN_DRAIN.ACTIVE, .reg Reg.FS_CONT.CLAIMS, .reg Reg.FS_CONT.DISPL, .reg Reg.FS_CONT.BEYOND,
      .reg Reg.MX_ERR.CEILHOLD, .reg Reg.MM_ERR.SHORTCLOSE, .reg Reg.SP_LOSTCNT.POSITIONS, .reg Reg.SP_ERR.NOSPARE,
      .reg Reg.SP_ERR.THREEMISS, .reg Reg.SP_ERR.SPAREFAIL, .reg Reg.CS_ACT.STALL, .reg Reg.CS_TAKEOVER.COUNT, .reg Reg.CS_TAKEOVER.LAST,
      .reg Reg.CS_TAKEOVER.FAILSEQ, .reg Reg.CS_ERR.YIELDTO, .reg Reg.MG_STAT.MGRESETS, .reg Reg.MG_WDOG.PERIOD, .reg Reg.FF_STATUS.BUSY,
      .reg Reg.FI_ERR.REALFAULT]) s t ∧ t = (let v := takeOver cluster.val phy seq.val sp took (unitOut 1 (9 * cluster.val +
      seq.val) (updCluster cluster.val (fun c => { c with faulted := c.faulted ++ [seq.val] }) (setF Reg.CS_TAKEOVER.FAILSEQ (9 * cluster.val +
      seq.val) (flagOn Reg.CS_ERR.YIELDTO s)))); if v.cs.act.any (fun a => a.1 == cluster.val) then stallActivation cluster.val v else v)) ∧
  (∀ (cluster : Fin 8) (seq : Fin 9) (took : Nat) (s : State), (getCluster cluster.val s).faulted.contains seq.val = false →
      phyOf seq.val (getCluster cluster.val s) = none → ∃ t, exec (.yieldTimeout cluster seq took) s = .next t ∧ Only (places [posting,
      logging, revoking, windowLog, sending, disarming] [.freeCtr, .gen, .sh, .lost, .cmds, .mx, .ns, .mm, .sp, .cs, .tw, .dg, .nand, .ff,
      .prov, .fuses, .reg Reg.GEN_RSTCAUSE.MGRST, .reg Reg.GEN_DRAIN.ACTIVE, .reg Reg.FS_CONT.CLAIMS, .reg Reg.FS_CONT.DISPL,
      .reg Reg.FS_CONT.BEYOND, .reg Reg.MX_ERR.CEILHOLD, .reg Reg.MM_ERR.SHORTCLOSE, .reg Reg.SP_LOSTCNT.POSITIONS, .reg Reg.SP_ERR.NOSPARE,
      .reg Reg.SP_ERR.THREEMISS, .reg Reg.SP_ERR.SPAREFAIL, .reg Reg.CS_ACT.STALL, .reg Reg.CS_TAKEOVER.COUNT, .reg Reg.CS_TAKEOVER.LAST,
      .reg Reg.CS_TAKEOVER.FAILSEQ, .reg Reg.CS_ERR.YIELDTO, .reg Reg.MG_STAT.MGRESETS, .reg Reg.MG_WDOG.PERIOD, .reg Reg.FF_STATUS.BUSY,
      .reg Reg.FI_ERR.REALFAULT]) s t ∧ t =
      (let v := updCluster cluster.val (fun c => { c with spare := if c.spare = some seq.val then none else c.spare }) (unitOut 1 (9 * cluster.val +
      seq.val) (updCluster cluster.val (fun c => { c with faulted := c.faulted ++ [seq.val] }) (setF Reg.CS_TAKEOVER.FAILSEQ (9 * cluster.val +
      seq.val) (flagOn Reg.CS_ERR.YIELDTO s)))); if v.cs.act.any (fun a => a.1 == cluster.val) then stallActivation cluster.val v else v)) ∧
  (∀ (cluster : Fin 8) (p : PatchSet) (atStartup : Bool) (s : State), atStartup = false → s.cs.act = some (cluster.val, 0) →
      (getCluster cluster.val s).spare.isSome = true → setFormatOk p s = true → p.sigOk = true → acceptFlags p.flagA p.flagB = true →
      bankUsed (getCluster cluster.val s) true = false → ∃ t, exec (.patchSetLoad cluster p atStartup) s = .next t ∧ Only (places [posting,
      logging, revoking, disarming] [.freeCtr, .gen, .cmds, .mx, .mm, .cs, .tw, .dg, .ff, .prov, .fuses, .reg Reg.GEN_RSTCAUSE.MGRST,
      .reg Reg.GEN_DRAIN.ACTIVE, .reg Reg.CS_ACT.STALL, .reg Reg.CS_ERR.PATCHSIG, .reg Reg.CS_ERR.PATCHFMT, .reg Reg.MG_STAT.MGRESETS,
      .reg Reg.MG_WDOG.PERIOD, .reg Reg.FF_STATUS.BUSY]) s t ∧ t = loadBank cluster.val true p s) ∧
  (∀ (cluster : Fin 8) (p : PatchSet) (atStartup : Bool) (s : State), atStartup = false → s.cs.act = some (cluster.val, 0) →
      (getCluster cluster.val s).spare.isSome = true → setFormatOk p s = true → p.sigOk = true → acceptFlags p.flagA p.flagB = true →
      bankUsed (getCluster cluster.val s) true = true → bankUsed (getCluster cluster.val s) false = false → ∃ t,
      exec (.patchSetLoad cluster p atStartup) s = .next t ∧ Only (places [posting, logging, revoking, disarming] [.freeCtr, .gen, .cmds,
      .mx, .mm, .cs, .tw, .dg, .ff, .prov, .fuses, .reg Reg.GEN_RSTCAUSE.MGRST, .reg Reg.GEN_DRAIN.ACTIVE, .reg Reg.CS_ACT.STALL,
      .reg Reg.CS_ERR.PATCHSIG, .reg Reg.CS_ERR.PATCHFMT, .reg Reg.MG_STAT.MGRESETS, .reg Reg.MG_WDOG.PERIOD,
      .reg Reg.FF_STATUS.BUSY]) s t ∧ t = loadBank cluster.val false p s)

/-- Buffers, pools, line checks, stale accesses and merge entries. Rules: R283, R285, R287, R291, R293, R294, R288. -/
def Obligations.BuffersAndLines : Prop :=
  (∀ (owner : Fin 16) (n : Nat) (vc0 : Bool) (is : List Nat) (u : State) (s : State), 1 ≤ n → n ≤ 512 → allocCheck owner.val n vc0 s =
      none → takeBufs owner.val n s = (is, true, u) → ∃ t, exec (.bufferAllocate owner n vc0) s = .next t ∧
      Only (places [revoking] []) s t ∧ t = u) ∧
  (∀ (owner : Fin 16) (n : Nat) (vc0 : Bool) (why : AllocFail) (s : State), 1 ≤ n → n ≤ 512 → allocCheck owner.val n vc0 s = some why → ∃ t,
      exec (.bufferAllocate owner n vc0) s = .next t ∧ Only (places [revoking] []) s t ∧ t = allocFailed owner.val why s ∧ t.bp.bufs =
      s.bp.bufs ∧ t.bp.pools = s.bp.pools) ∧
  (∀ (owner : Fin 16) (n : Nat) (vc0 : Bool) (s : State), (n = 0 ∨ 512 < n) → exec (.bufferAllocate owner n vc0) s = .next s) ∧
  (∀ (index : Nat) (owner : Fin 16) (s : State), (getBuf index s).used = false → ∃ t, exec (.bufferFree index owner) s = .next t ∧
      Only (places [logging] [.bp, .me, .reg Reg.BP_ERRBUF.INDEX, .reg Reg.BP_ERRBUF.OWNER, .reg Reg.BP_ERRBUF.CAUSE,
      .reg Reg.BP_ERR.DBLFREE, .reg Reg.BP_ERR.OWNFREE]) s t ∧ isOn Reg.BP_ERR.DBLFREE t = true ∧ getF Reg.BP_ERRBUF.INDEX t =
      index % 2 ^ Reg.BP_ERRBUF.INDEX.width ∧ getF Reg.BP_ERRBUF.OWNER t = owner.val % 2 ^ Reg.BP_ERRBUF.OWNER.width ∧
      getF Reg.BP_ERRBUF.CAUSE t = 0 ∧ t.bp = s.bp ∧ t = doubleFree index owner.val s) ∧
  (∀ (index : Nat) (owner : Fin 16) (s : State), (getBuf index s).used = true → (getBuf index s).owner ≠ some owner.val → ∃ t,
      exec (.bufferFree index owner) s = .next t ∧ Only (places [logging] [.bp, .me, .reg Reg.BP_ERRBUF.INDEX, .reg Reg.BP_ERRBUF.OWNER,
      .reg Reg.BP_ERRBUF.CAUSE, .reg Reg.BP_ERR.DBLFREE, .reg Reg.BP_ERR.OWNFREE]) s t ∧ isOn Reg.BP_ERR.OWNFREE t = true ∧
      getF Reg.BP_ERRBUF.INDEX t = index % 2 ^ Reg.BP_ERRBUF.INDEX.width ∧ getF Reg.BP_ERRBUF.CAUSE t = 1 ∧ t.bp = s.bp) ∧
  (∀ (index : Nat) (owner : Fin 16) (s : State), (getBuf index s).used = true → (getBuf index s).owner = some owner.val → ∃ t,
      exec (.bufferFree index owner) s = .next t ∧ Only (places [logging] [.bp, .me, .reg Reg.BP_ERRBUF.INDEX, .reg Reg.BP_ERRBUF.OWNER,
      .reg Reg.BP_ERRBUF.CAUSE, .reg Reg.BP_ERR.DBLFREE, .reg Reg.BP_ERR.OWNFREE]) s t ∧ t = acceptFree index s ∧ (∀ l ∈ bufLines index s,
      t.me.poisoned.contains l = false)) ∧
  (∀ (pool : Fin 16) (s : State), (getPool pool.val s).quar = true → pool.val < s.bp.pools.length → ∃ t, exec (.poolRebuildDone pool) s =
      .next t ∧ Only [.bp] s t ∧ getPool pool.val t = { getPool pool.val s with quar := false, usable := [], head := [], fresh := 0 } ∧
      t.bp.bufs = s.bp.bufs) ∧
  (∀ (pool : Fin 16) (s : State), (getPool pool.val s).quar = false → exec (.poolRebuildDone pool) s = .next s) ∧
  (∀ (address : Nat) (kind : LineKind) (s : State), kind = .parity → ∃ t, exec (.lineCheckFailure address kind) s = .next t ∧
      Only (places [posting, logging, revoking, windowLog, sending, disarming] [.freeCtr, .gen, .sh, .cmds, .mx, .ns, .nsWait, .mm, .me,
      .tw, .dg, .nand, .ff, .prov, .reg Reg.GEN_DRAIN.ACTIVE, .reg Reg.FS_CONT.CLAIMS, .reg Reg.FS_CONT.DISPL, .reg Reg.FS_CONT.BEYOND,
      .reg Reg.MM_ERR.SHORTCLOSE, .reg Reg.BP_ERR.LISTCHK, .reg Reg.ME_CHKERR.SRAM, .reg Reg.ME_CHKERR.DRAM, .reg Reg.ME_REFETCH.RESTORED,
      .reg Reg.ME_REFETCH.POISONED, .reg Reg.ME_LASTHI.KIND, .reg Reg.ME_ERR.CHK, .reg Reg.ME_ERR.REMAPFULL, .reg Reg.ME_ERR.REPAIRFULL,
      .reg Reg.DG_RNG.RESEEDS, .reg Reg.FI_ERR.REALFAULT]) s t ∧ t =
      countUnit address (bump Reg.ME_REFETCH.RESTORED (chkRecorded address s))) ∧
  (∀ (address : Nat) (kind : LineKind) (s : State), kind = .mirrorReceive false → ∃ t, exec (.lineCheckFailure address kind) s = .next t ∧
      Only (places [posting, logging, revoking, windowLog, sending, disarming] [.freeCtr, .gen, .sh, .cmds, .mx, .ns, .nsWait, .mm, .me,
      .tw, .dg, .nand, .ff, .prov, .reg Reg.GEN_DRAIN.ACTIVE, .reg Reg.FS_CONT.CLAIMS, .reg Reg.FS_CONT.DISPL, .reg Reg.FS_CONT.BEYOND,
      .reg Reg.MM_ERR.SHORTCLOSE, .reg Reg.BP_ERR.LISTCHK, .reg Reg.ME_CHKERR.SRAM, .reg Reg.ME_CHKERR.DRAM, .reg Reg.ME_REFETCH.RESTORED,
      .reg Reg.ME_REFETCH.POISONED, .reg Reg.ME_LASTHI.KIND, .reg Reg.ME_ERR.CHK, .reg Reg.ME_ERR.REMAPFULL, .reg Reg.ME_ERR.REPAIRFULL,
      .reg Reg.DG_RNG.RESEEDS, .reg Reg.FI_ERR.REALFAULT]) s t ∧ t =
      countUnit address (bump Reg.ME_REFETCH.POISONED (chkRecorded address s))) ∧
  (∀ (address index generation : Nat) (isWrite : Bool) (s : State), sramBufs ≤ index → (getBuf index s).gen ≠ generation → isWrite = true →
      ∃ t, exec (.staleGenerationAccess address index generation isWrite) s = .next t ∧ Only [.me, .reg Reg.ME_LASTHI.KIND,
      .reg Reg.ME_STALE.WR, .reg Reg.ME_STALE.RD, .reg Reg.ME_ERR.STALEWR, .reg Reg.ME_ERR.STALERD] s t ∧ isOn Reg.ME_ERR.STALEWR t = true ∧
      getF Reg.ME_STALE.WR t = Nat.min (getF Reg.ME_STALE.WR s + 1) (2 ^ Reg.ME_STALE.WR.width - 1) ∧ getF Reg.ME_LASTHI.KIND t = 2 ∧
      t.me.last = address ∧ t.bp = s.bp) ∧
  (∀ (address index generation : Nat) (isWrite : Bool) (s : State), sramBufs ≤ index → (getBuf index s).gen ≠ generation → isWrite = false →
      ∃ t, exec (.staleGenerationAccess address index generation isWrite) s = .next t ∧ Only [.me, .reg Reg.ME_LASTHI.KIND,
      .reg Reg.ME_STALE.WR, .reg Reg.ME_STALE.RD, .reg Reg.ME_ERR.STALEWR, .reg Reg.ME_ERR.STALERD] s t ∧ isOn Reg.ME_ERR.STALERD t = true ∧
      getF Reg.ME_STALE.RD t = Nat.min (getF Reg.ME_STALE.RD s + 1) (2 ^ Reg.ME_STALE.RD.width - 1) ∧ getF Reg.ME_LASTHI.KIND t = 3 ∧
      t.me.last = address) ∧
  (∀ (address index generation : Nat) (isWrite : Bool) (s : State), (getBuf index s).gen = generation →
      exec (.staleGenerationAccess address index generation isWrite) s = .next s) ∧
  (∀ (meport : Fin 8) (m : Merge) (s : State), s.me.merges.find? (fun m => m.port == meport.val) = some m → ∃ t,
      exec (.mergeEntryTimeout meport) s = .next t ∧ Only [.me] s t ∧ t.me.merges = s.me.merges.filter (fun x => x.line != m.line) ∧
      t.me.mergeCnt = s.me.mergeCnt + 1 ∧ t = mergeDone m.line s) ∧
  (∀ (meport : Fin 8) (s : State), s.me.merges = [] → exec (.mergeEntryTimeout meport) s = .next s) ∧
  (∀ (owner : Fin 16) (n : Nat) (vc0 : Bool) (is : List Nat) (u : State) (s : State), 1 ≤ n → n ≤ 512 → allocCheck owner.val n vc0 s =
      none → takeBufs owner.val n s = (is, false, u) → ∃ t, exec (.bufferAllocate owner n vc0) s = .next t ∧
      Only (places [revoking] []) s t ∧ t = flagOn Reg.BP_ERR.REVOKE (bpErr (is.getLast?.getD 0) owner.val 3 (putBufs is u))) ∧
  (∀ (address : Nat) (kind : LineKind) (s : State), ∃ t, exec (.lineCheckFailure address kind) s = .next t ∧ Only (places [posting, logging,
      revoking, windowLog, sending, disarming] [.freeCtr, .gen, .sh, .cmds, .mx, .ns, .nsWait, .mm, .me, .tw, .dg, .nand, .ff, .prov,
      .reg Reg.GEN_DRAIN.ACTIVE, .reg Reg.FS_CONT.CLAIMS, .reg Reg.FS_CONT.DISPL, .reg Reg.FS_CONT.BEYOND, .reg Reg.MM_ERR.SHORTCLOSE,
      .reg Reg.BP_ERR.LISTCHK, .reg Reg.ME_CHKERR.SRAM, .reg Reg.ME_CHKERR.DRAM, .reg Reg.ME_REFETCH.RESTORED, .reg Reg.ME_REFETCH.POISONED,
      .reg Reg.ME_LASTHI.KIND, .reg Reg.ME_ERR.CHK, .reg Reg.ME_ERR.REMAPFULL, .reg Reg.ME_ERR.REPAIRFULL, .reg Reg.DG_RNG.RESEEDS,
      .reg Reg.FI_ERR.REALFAULT]) s t ∧ t = (let r := restoreLine address kind (chkRecorded address s);
      countUnit address (match r.1 with | some true => bump Reg.ME_REFETCH.RESTORED r.2 | some false => bump Reg.ME_REFETCH.POISONED r.2 | none => r.2)))

/-- Gareo links: training, flits, failure and retraining. Rules: R302, R303, R304, R305, R307, R314. -/
def Obligations.LinksAndFlits : Prop :=
  (∀ (link : Fin 12) (lanes : BitVec 4) (reversed : Bool) (uid node plink : Nat) (s : State), linkUsable link.val s = true →
      (getLink link.val s).up = false → lanesState lanes ≠ 0 → knownUid uid s = false → ∃ t,
      exec (.gareoLinkTrained link lanes reversed uid node plink) s = .next t ∧ Only (places [posting, logging, revoking, windowLog,
      sending] [.reg Reg.GF_DISC.COUNT, .reg Reg.GF_ERR.DEGRADE, .reg Reg.GF_ERR.HELDOUT]) s t ∧ t =
      startDiscovery (evFabric (updLink link.val (fun l => { l with peerUid := uid, peerNode := node, peerLink := plink, reversed := reversed }) (linkUp link.val lanes s)))) ∧
  (∀ (link : Fin 12) (lanes : BitVec 4) (reversed : Bool) (uid node plink : Nat) (s : State), linkUsable link.val s = true →
      (getLink link.val s).up = false → lanesState lanes ≠ 0 → knownUid uid s = true →
      (evFabric (updLink link.val (fun l => { l with peerUid := uid, peerNode := node, peerLink := plink, reversed := reversed }) (linkUp link.val lanes s))).gf.discovering =
      false → ∃ t, exec (.gareoLinkTrained link lanes reversed uid node plink) s = .next t ∧ Only (places [posting, logging, revoking,
      windowLog, sending] [.reg Reg.GF_DISC.COUNT, .reg Reg.GF_ERR.DEGRADE, .reg Reg.GF_ERR.HELDOUT]) s t ∧ t =
      topologyChanged (evFabric (updLink link.val (fun l => { l with peerUid := uid, peerNode := node, peerLink := plink, reversed := reversed }) (linkUp link.val lanes s)))) ∧
  (∀ (link : Fin 12) (lanes : BitVec 4) (reversed : Bool) (uid node plink : Nat) (s : State), lanesState lanes = 0 →
      exec (.gareoLinkTrained link lanes reversed uid node plink) s = .next s) ∧
  (∀ (link : Fin 12) (bytes : List Byte) (s : State), fabricMode s.gen.mode = true → (getLink link.val s).up = true → bytes.length = 256 →
      leAt bytes 252 4 ≠ (crc32c (bytes.take 252)).toNat → link.val < s.gf.links.length → ∃ t, exec (.flitReceived link bytes) s = .next t ∧
      Only (places [posting, logging, revoking, windowLog, sending, poisoned] [.reg Reg.HE_EPCNT.A_COUNT, .reg Reg.HE_EPCNT.B_COUNT,
      .reg Reg.ME_MERGE.EVICT, .reg Reg.GF_LENERR.LEN, .reg Reg.GF_LENERR.FCRC, .reg Reg.GF_XFER.RESENT, .reg Reg.GF_ERR.LINKDOWN,
      .reg Reg.GF_ERR.LENERR, .reg Reg.GF_ERR.HOPDROP, .reg Reg.GF_ERR.HELDOUT]) s t ∧ getLink link.val t =
      { (getLink link.val s) with crcErr := (getLink link.val s).crcErr + 1 } ∧
      t.out.contains (.flit link.val true (getLink link.val s).rxSeq) = true ∧ t =
      flitNak link.val (updLink link.val (fun l => { l with crcErr := l.crcErr + 1 }) s)) ∧
  (∀ (link : Fin 12) (bytes : List Byte) (s : State), fabricMode s.gen.mode = true → (getLink link.val s).up = true → bytes.length = 256 →
      leAt bytes 252 4 = (crc32c (bytes.take 252)).toNat → ∃ t, exec (.flitReceived link bytes) s = .next t ∧ Only (places [posting,
      logging, revoking, windowLog, sending, poisoned] [.reg Reg.HE_EPCNT.A_COUNT, .reg Reg.HE_EPCNT.B_COUNT, .reg Reg.ME_MERGE.EVICT,
      .reg Reg.GF_LENERR.LEN, .reg Reg.GF_LENERR.FCRC, .reg Reg.GF_XFER.RESENT, .reg Reg.GF_ERR.LINKDOWN, .reg Reg.GF_ERR.LENERR,
      .reg Reg.GF_ERR.HOPDROP, .reg Reg.GF_ERR.HELDOUT]) s t ∧ t =
      takeDataFlit link.val bytes (drainLink link.val (takeCredit link.val (leAt bytes 1 1 % 4) (leAt bytes 6 2 % 1024) (takeAck link.val (leAt bytes 4 2 % 4096) ((leAt bytes 4 2).testBit 15) s)))) ∧
  (∀ (link : Fin 12) (bytes : List Byte) (s : State), bytes.length ≠ 256 → exec (.flitReceived link bytes) s = .next s) ∧
  (∀ (link : Fin 12) (s : State), (getLink link.val s).up = true → ∃ t, exec (.linkSilenceTimeout link) s = .next t ∧ Only (places [posting,
      logging, revoking, windowLog, sending, poisoned] [.reg Reg.HE_EPCNT.A_COUNT, .reg Reg.HE_EPCNT.B_COUNT, .reg Reg.ME_MERGE.EVICT,
      .reg Reg.GF_XFER.RESENT, .reg Reg.GF_ERR.LINKDOWN, .reg Reg.GF_ERR.HELDOUT]) s t ∧ t =
      (let u := updLink link.val (fun l => { l with st := 1 }) (linkDown link.val s);
      releaseAll (if u.gf.isCoord then distribute u else u))) ∧
  (∀ (link : Fin 12) (s : State), (getLink link.val s).up = false → exec (.linkSilenceTimeout link) s = .next s) ∧
  (∀ (link : Fin 12) (lanes : BitVec 4) (s : State), linkUsable link.val s = true → (getLink link.val s).up = false → lanesState lanes = 0 →
      ∃ t, exec (.linkRetrainDone link lanes) s = .next t ∧ Only (places [posting, logging, revoking, windowLog,
      sending] [.reg Reg.GF_ERR.DEGRADE, .reg Reg.GF_ERR.HELDOUT]) s t ∧ t =
      evFabric (updLink link.val (fun l => { l with retrains := Nat.min (l.retrains + 1) 255 }) (linkUp link.val lanes s))) ∧
  (∀ (link : Fin 12) (lanes : BitVec 4) (s : State), linkUsable link.val s = true → (getLink link.val s).up = false → lanesState lanes ≠ 0 →
      ∃ t, exec (.linkRetrainDone link lanes) s = .next t ∧ Only (places [posting, logging, revoking, windowLog,
      sending] [.reg Reg.GF_ERR.DEGRADE, .reg Reg.GF_ERR.HELDOUT]) s t ∧ t =
      evFabric (topologyChanged (updLink link.val (fun l => { l with retrains := Nat.min (l.retrains + 1) 255 }) (linkUp link.val lanes s)))) ∧
  (∀ (link : Fin 12) (s : State), linkUsable link.val s = true → (getLink link.val s).st = 0 → ∃ t, exec (.linkRetryTimer link) s =
      .next t ∧ Only (places [posting] [.gf]) s t ∧ t = evFabric (updLink link.val (fun l => { l with st := 1 }) s)) ∧
  (∀ (link : Fin 12) (s : State), (getLink link.val s).st ≠ 0 → exec (.linkRetryTimer link) s = .next s) ∧
  (∀ (link : Fin 12) (lanes : BitVec 4) (reversed : Bool) (uid node plink : Nat) (s : State), linkUsable link.val s = true →
      (getLink link.val s).up = false → lanesState lanes ≠ 0 → knownUid uid s = true →
      (evFabric (updLink link.val (fun l => { l with peerUid := uid, peerNode := node, peerLink := plink, reversed := reversed }) (linkUp link.val lanes s))).gf.discovering =
      true → ∃ t, exec (.gareoLinkTrained link lanes reversed uid node plink) s = .next t ∧ Only (places [posting, logging, revoking,
      windowLog, sending] [.reg Reg.GF_DISC.COUNT, .reg Reg.GF_ERR.DEGRADE, .reg Reg.GF_ERR.HELDOUT]) s t ∧ t =
      floodHello (evFabric (updLink link.val (fun l => { l with peerUid := uid, peerNode := node, peerLink := plink, reversed := reversed }) (linkUp link.val lanes s)))) ∧
  (∀ (link : Fin 12) (bytes : List Byte) (s : State), (fabricMode s.gen.mode = false ∨ (getLink link.val s).up = false) →
      exec (.flitReceived link bytes) s = .next s)

/-- Frame streams: acknowledgement, resend, resync. Rules: R308, R309, R310, R327. -/
def Obligations.FrameStreams : Prop :=
  (∀ (vc : Fin 4) (src : Nat) (s : State), fabricMode s.gen.mode = true → 0 < (getRxStream vc.val src s).unacked → ∃ t,
      exec (.ackTimer vc src) s = .next t ∧ Only [.out, .gf] s t ∧ t = sendAck vc.val src s) ∧
  (∀ (vc : Fin 4) (src : Nat) (s : State), (fabricMode s.gen.mode = false ∨ (getRxStream vc.val src s).unacked = 0) →
      exec (.ackTimer vc src) s = .next s) ∧
  (∀ (vc : Fin 4) (dst xseq : Nat) (fr : TxFrame) (s : State), fabricMode s.gen.mode = true → s.gf.txFrames.find? (fun x => decide (x.vc =
      vc.val ∧ x.dst = dst ∧ x.xseq = xseq)) = some fr → ∃ t, exec (.frameResendTimeout vc dst xseq) s = .next t ∧ Only (places [logging,
      revoking, windowLog, sending, poisoned] [.reg Reg.HE_EPCNT.A_COUNT, .reg Reg.HE_EPCNT.B_COUNT, .reg Reg.ME_MERGE.EVICT,
      .reg Reg.GF_XFER.RESENT]) s t ∧ t = releaseAll (resendFrame fr s)) ∧
  (∀ (vc : Fin 4) (dst xseq : Nat) (s : State), (fabricMode s.gen.mode = false ∨ s.gf.txFrames.find? (fun x => decide (x.vc = vc.val ∧
      x.dst = dst ∧ x.xseq = xseq)) = none) → exec (.frameResendTimeout vc dst xseq) s = .next s) ∧
  (∀ (vc : Fin 4) (src nextXseq : Nat) (s : State), fabricMode s.gen.mode = true → (getRxStream vc.val src s).next ≤ nextXseq → ∃ t,
      exec (.resync vc src nextXseq) s = .next t ∧ Only (places [logging, revoking, windowLog, sending, poisoned] [.freeCtr, .mx, .ns, .tw,
      .dg, .ff, .prov, .reg Reg.HE_EPCNT.A_COUNT, .reg Reg.HE_EPCNT.B_COUNT, .reg Reg.ME_MERGE.EVICT, .reg Reg.DG_RNG.RESEEDS]) s t ∧ t =
      deliverHeld vc.val src 1025 (updRxStream vc.val src (fun x => { x with next := nextXseq, early := x.early.filter (fun e => !decide (e.xseq < nextXseq)) }) (putBufs (((getRxStream vc.val src s).early.filter (fun e => decide (e.xseq < nextXseq))).flatMap (·.bufs)) s))) ∧
  (∀ (vc : Fin 4) (src nextXseq : Nat) (s : State), (fabricMode s.gen.mode = false ∨ nextXseq < (getRxStream vc.val src s).next) →
      exec (.resync vc src nextXseq) s = .next s) ∧
  (∀ (vc : Fin 4) (src xseq : Nat) (s : State), fabricMode s.gen.mode = true → ∃ t, exec (.ack vc src xseq) s = .next t ∧
      Only (places [posting, logging, revoking, windowLog, sending, poisoned] [.freeCtr, .sh, .defFaults, .lost, .cmds, .mx, .ns, .mm, .tw,
      .reg Reg.MX_ERR.CEILHOLD, .reg Reg.TW_ERR.WINHOLD, .reg Reg.TW_ERR.TOUCHFULL]) s t ∧ t =
      (let gone := s.gf.txFrames.filter (fun x => decide (x.vc = vc.val ∧ x.dst = src ∧ x.xseq ≤ xseq));
      gone.foldl (fun t fr => match fr.ftype, fr.info with | 0x10, [2, csn] => mirrorAcked csn t | _, _ => t) (putBufs (gone.flatMap (·.bufs)) { s with gf := { s.gf with txFrames := s.gf.txFrames.filter (fun x => !decide (x.vc = vc.val ∧ x.dst = src ∧ x.xseq ≤ xseq)) } }))) ∧
  (∀ (vc : Fin 4) (src xseq cause : Nat) (fr : TxFrame) (s : State), fabricMode s.gen.mode = true →
      s.gf.txFrames.find? (fun x => decide (x.vc = vc.val ∧ x.dst = src ∧ x.xseq = xseq)) = some fr → cause ≠ 4 → ∃ t,
      exec (.nak vc src xseq cause) s = .next t ∧ Only (places [logging, revoking, windowLog, sending, poisoned] [.reg Reg.HE_EPCNT.A_COUNT,
      .reg Reg.HE_EPCNT.B_COUNT, .reg Reg.ME_MERGE.EVICT, .reg Reg.GF_XFER.RESENT]) s t ∧ t = releaseAll (resendFrame fr s)) ∧
  (∀ (vc : Fin 4) (src xseq cause : Nat) (fr : TxFrame) (s : State), fabricMode s.gen.mode = true →
      s.gf.txFrames.find? (fun x => decide (x.vc = vc.val ∧ x.dst = src ∧ x.xseq = xseq)) = some fr → cause = 4 → ∃ t,
      exec (.nak vc src xseq cause) s = .next t ∧ Only (places [logging, revoking, windowLog, sending, poisoned] [.reg Reg.HE_EPCNT.A_COUNT,
      .reg Reg.HE_EPCNT.B_COUNT, .reg Reg.ME_MERGE.EVICT, .reg Reg.GF_XFER.RESENT]) s t ∧ t = releaseAll (frameRejected fr s)) ∧
  (∀ (vc : Fin 4) (src xseq cause : Nat) (s : State), fabricMode s.gen.mode = true → s.gf.txFrames.find? (fun x => decide (x.vc = vc.val ∧
      x.dst = src ∧ x.xseq = xseq)) = none → cause = 0 → xseq < (getTxStream vc.val src s).next → ∃ t, exec (.nak vc src xseq cause) s =
      .next t ∧ Only (places [logging, revoking, windowLog, sending, poisoned] [.reg Reg.HE_EPCNT.A_COUNT, .reg Reg.HE_EPCNT.B_COUNT,
      .reg Reg.ME_MERGE.EVICT, .reg Reg.GF_XFER.RESENT]) s t ∧ t = rawSend 0 src 0x02 0 [vc.val, nextLive vc.val src xseq s] s) ∧
  (∀ (vc : Fin 4) (src xseq cause : Nat) (s : State), (fabricMode s.gen.mode = false) → exec (.nak vc src xseq cause) s = .next s) ∧
  (∀ (vc : Fin 4) (src xseq : Nat) (s : State), (fabricMode s.gen.mode = false) → exec (.ack vc src xseq) s = .next s)

/-- Discovery, link-state reports, tables and epochs. Rules: R312, R313, R315, R316, R49. -/
def Obligations.DiscoveryAndRouting : Prop :=
  (∀ (link : Fin 12) (uid candUid candDist epoch pref : Nat) (s : State), fabricMode s.gen.mode = true → (getLink link.val s).up = true →
      betterCand candUid (candDist + 1) (updLink link.val (fun l => { l with peerUid := uid }) s) = true → ∃ t,
      exec (.hello link uid candUid candDist epoch pref) s = .next t ∧ Only [.out, .gf] s t ∧ t =
      (let u : State := (updLink link.val (fun l => { l with peerUid := uid }) s);
      let v : State := { u with gf := { u.gf with candUid := candUid, candDist := candDist + 1, isCoord := false, discovering := true, discAt := if u.gf.discovering then u.gf.discAt else now u } };
      emit (.record v.gf.coordNode 0x30 (lsrFields v)) (floodHello v))) ∧
  (∀ (link : Fin 12) (uid candUid candDist epoch pref : Nat) (s : State), fabricMode s.gen.mode = true → (getLink link.val s).up = true →
      betterCand candUid (candDist + 1) (updLink link.val (fun l => { l with peerUid := uid }) s) = false → ∃ t,
      exec (.hello link uid candUid candDist epoch pref) s = .next t ∧ Only [.out, .gf] s t ∧ t =
      (updLink link.val (fun l => { l with peerUid := uid }) s)) ∧
  (∀ (link : Fin 12) (uid candUid candDist epoch pref : Nat) (s : State), (fabricMode s.gen.mode = false ∨ (getLink link.val s).up =
      false) → exec (.hello link uid candUid candDist epoch pref) s = .next s) ∧
  (∀ (s : State), fabricMode s.gen.mode = true → s.gf.discovering = true → s.gf.candUid = s.fuses.uid → ∃ t, exec .discoveryQuietTimeout s =
      .next t ∧ Only (places [posting, logging, revoking, windowLog, sending] [.reg Reg.GF_ERR.HELDOUT]) s t ∧ t =
      distribute { s with gf := { s.gf with isCoord := true, missed := 0 } }) ∧
  (∀ (s : State), (fabricMode s.gen.mode = false ∨ s.gf.discovering = false ∨ s.gf.candUid ≠ s.fuses.uid) → exec .discoveryQuietTimeout s =
      .next s) ∧
  (∀ (uid : Nat) (node pref : Option Nat) (links : List LinkReport) (s : State), fabricMode s.gen.mode = true →
      (heldOutBy uid node s).gf.isCoord = true → ∃ t, exec (.lsr uid node pref links) s = .next t ∧ Only (places [posting, logging,
      revoking, windowLog, sending] [.reg Reg.GF_ERR.HELDOUT]) s t ∧ t = (let u := (heldOutBy uid node s);
      distribute { u with gf := { u.gf with lsrs := insLsr ⟨uid, node, pref, links⟩ (u.gf.lsrs.filter (fun r => r.uid != uid)) } })) ∧
  (∀ (uid : Nat) (node pref : Option Nat) (links : List LinkReport) (s : State), fabricMode s.gen.mode = true →
      (heldOutBy uid node s).gf.isCoord = false → ∃ t, exec (.lsr uid node pref links) s = .next t ∧ Only (places [posting, logging,
      revoking, windowLog, sending] [.reg Reg.GF_ERR.HELDOUT]) s t ∧ t = (heldOutBy uid node s)) ∧
  (∀ (epoch first : Nat) (entries : List Route) (s : State), fabricMode s.gen.mode = true → ∃ t, exec (.table epoch first entries) s =
      .next t ∧ Only [.gf] s t ∧ t.gf.asideEpoch = epoch ∧ t.gf.aside = putRoutes (if s.gf.asideEpoch =
      epoch then s.gf.aside else []) first entries ∧ t.gf.routes = s.gf.routes ∧ t.gf.epoch = s.gf.epoch) ∧
  (∀ (num atNs : Nat) (s : State), fabricMode s.gen.mode = true → ∃ t, exec (.epoch num atNs) s = .next t ∧ Only [.gf] s t ∧ t =
      { s with gf := { s.gf with epochAt := some (num, atNs) } }) ∧
  (∀ (num at_ : Nat) (s : State), fabricMode s.gen.mode = true → s.gf.epochAt = some (num, at_) → s.gf.asideEpoch = num → ∃ t,
      exec .epochApply s = .next t ∧ Only [.out, .time, .gf, .reg Reg.GF_DISC.LAST] s t ∧ t = (let u := advance (at_ - now s) s;
      let v := if u.gf.discovering then setSat Reg.GF_DISC.LAST ((now u - u.gf.discAt) / 1000000) u else u;
      { v with gf := { v.gf with routes := v.gf.aside, epoch := num, epochAt := none, discovering := false, node := (match localNode u.gf.aside with | some n => some n | none => u.gf.node) } })) ∧
  (∀ (s : State), (fabricMode s.gen.mode = false ∨ s.gf.epochAt = none) → exec .epochApply s = .next s) ∧
  (∀ (answered : Bool) (s : State), s.gf.isCoord = false → fabricMode s.gen.mode = true → ∃ t, exec (.coordinatorHeartbeat answered) s =
      .next t ∧ Only (places [logging, revoking, windowLog, sending] []) s t ∧ t =
      sendFrame 0 s.gf.coordNode 0x03 0 [] { s with gf := { s.gf with missed := if answered then 0 else s.gf.missed + 1 } }) ∧
  (∀ (answered : Bool) (s : State), s.gf.isCoord = true → exec (.coordinatorHeartbeat answered) s = .next s) ∧
  (∀ (s : State), fabricMode s.gen.mode = true → s.gf.isCoord = false → 3 ≤ s.gf.missed → ∃ t, exec .coordinatorLoss s = .next t ∧
      Only [.out, .gf, .reg Reg.GF_DISC.COUNT] s t ∧ t = startDiscovery { s with gf := { s.gf with missed := 0 } }) ∧
  (∀ (s : State), (fabricMode s.gen.mode = false ∨ s.gf.isCoord = true ∨ s.gf.missed < 3) → exec .coordinatorLoss s = .next s) ∧
  (∀ (who : Writer) (s : State), who ≠ .host → setupOpen who s = true → mayWrite who Reg.GF_NODE.REASSIGN.reg s = true → s.gf.heldOut =
      true → ∃ t, exec (.gfNodeReassign who) s = .next t ∧ Only (places [turnedAway] [.out, .gf, .reg Reg.GF_DISC.COUNT]) s t ∧ t =
      startDiscovery { s with gf := { s.gf with node := none, heldOut := false } }) ∧
  (∀ (who : Writer) (s : State), who = .host → setupOpen who s = true → exec (.gfNodeReassign who) s =
      .next (genErr Reg.GEN_ERR.OWNWR Reg.GF_NODE.REASSIGN.reg who s)) ∧
  (∀ (uid : Nat) (node pref : Option Nat) (links : List LinkReport) (s : State), fabricMode s.gen.mode = true → s.gf.isCoord = false →
      s.gf.node = node → node ≠ none → uid < s.fuses.uid → s.gf.heldOut = false → ∃ t, exec (.lsr uid node pref links) s = .next t ∧
      Only (places [posting, logging, revoking, windowLog, sending] [.reg Reg.GF_ERR.HELDOUT]) s t ∧ t.gf.heldOut = true ∧
      isOn Reg.GF_ERR.HELDOUT t = true ∧ t.gf.node = s.gf.node) ∧
  (∀ (who : Writer) (s : State), who ≠ .host → setupOpen who s = true → mayWrite who Reg.GF_NODE.REASSIGN.reg s = true → s.gf.heldOut =
      false → exec (.gfNodeReassign who) s = .next s)

/-- Device time over the fabric. Rules: R318, R319, R320. -/
def Obligations.DeviceTime : Prop :=
  (∀ (p : Nat) (s : State), timeMaster s = false → fabricMode s.gen.mode = true → timeParent s = some p → ∃ t, exec .timeExchangeTimer s =
      .next t ∧ Only (places [logging, revoking, windowLog, sending] []) s t ∧ t = sendFrame 0 p 0x04 0 [] s) ∧
  (∀ (s : State), timeMaster s = true → exec .timeExchangeTimer s = .next s) ∧
  (∀ (t1 t2 t3 t4 masterStep : Nat) (u : State) (o : Int) (good : Nat) (s : State), fabricMode s.gen.mode = true → u =
      (if masterStep < 4000 then s else timeStep (masterStep - masterStep % 4000) s) → timeMaster u = false → o = timeOffset t1 t2 t3 t4 →
      good = (if -20 ≤ o ∧ o ≤ 20 then u.gf.goodEx + 1 else 0) → ∃ t, exec (.time t1 t2 t3 t4 masterStep) s = .next t ∧
      Only (places [logging, revoking, windowLog, sending] [.time, .ctl, .cmds, .fs, .reg Reg.GF_TIMECTL.SYNCED, .reg Reg.GF_TOFFS.OFFSET,
      .reg Reg.GF_TOFFS.STEPS, .reg Reg.GF_ERR.TIMESTEP]) s t ∧ t =
      (let v := setF Reg.GF_TOFFS.OFFSET (offsetField o) (setF Reg.GF_TIMECTL.SYNCED (if 3 ≤ good then 1 else 0) u);
      correctOffset o { v with gf := { v.gf with goodEx := good } })) ∧
  (∀ (t1 t2 t3 t4 masterStep : Nat) (s : State), fabricMode s.gen.mode = true → masterStep < 4000 → timeMaster s = false →
      timeOffset t1 t2 t3 t4 < -20 → -4000 ≤ timeOffset t1 t2 t3 t4 → ∃ t, exec (.time t1 t2 t3 t4 masterStep) s = .next t ∧
      Only (places [logging, revoking, windowLog, sending] [.time, .ctl, .cmds, .fs, .reg Reg.GF_TIMECTL.SYNCED, .reg Reg.GF_TOFFS.OFFSET,
      .reg Reg.GF_TOFFS.STEPS, .reg Reg.GF_ERR.TIMESTEP]) s t ∧ t.gf.slew = timeOffset t1 t2 t3 t4 ∧ t.gf.goodEx = 0 ∧
      getF Reg.GF_TIMECTL.SYNCED t = 0 ∧ getF Reg.GF_TOFFS.OFFSET t = offsetField (timeOffset t1 t2 t3 t4) ∧ t.time = s.time) ∧
  (∀ (t1 t2 t3 t4 masterStep : Nat) (s : State), fabricMode s.gen.mode = true →
      timeMaster (if masterStep < 4000 then s else timeStep (masterStep - masterStep % 4000) s) = true → ∃ t,
      exec (.time t1 t2 t3 t4 masterStep) s = .next t ∧ Only (places [logging, revoking, windowLog, sending] [.time, .ctl, .cmds, .fs,
      .reg Reg.GF_TIMECTL.SYNCED, .reg Reg.GF_TOFFS.OFFSET, .reg Reg.GF_TOFFS.STEPS, .reg Reg.GF_ERR.TIMESTEP]) s t ∧ t =
      (if masterStep < 4000 then s else timeStep (masterStep - masterStep % 4000) s)) ∧
  (∀ (t1 t2 t3 t4 masterStep : Nat) (s : State), (fabricMode s.gen.mode = false) → exec (.time t1 t2 t3 t4 masterStep) s = .next s)

/-- Remote reads, writes and management frames. Rules: R308, R310, R317, R72, R363. -/
def Obligations.ReceivedFrames : Prop :=
  (∀ (h : FrameHdr) (offset len : Nat) (s : State), h.len = 16 → 1 ≤ len → len ≤ 4096 → fabricMode s.gen.mode = true → h.trailerAgrees =
      true → h.fcrcOk = true → h.linesOk = true → h.xseq = (getRxStream h.vc h.src s).next → ∃ t, exec (.rdreq h offset len) s = .next t ∧
      Only (places [logging, revoking, windowLog, sending, poisoned] [.freeCtr, .mx, .ns, .tw, .dg, .ff, .prov, .reg Reg.HE_EPCNT.A_COUNT,
      .reg Reg.HE_EPCNT.B_COUNT, .reg Reg.ME_MERGE.EVICT, .reg Reg.GF_LENERR.LEN, .reg Reg.GF_LENERR.FCRC, .reg Reg.GF_ERR.LENERR,
      .reg Reg.DG_RNG.RESEEDS]) s t ∧ t = deliverHeld h.vc h.src 1025 (rdreqRun h offset len (delivered h.vc h.src s))) ∧
  (∀ (h : FrameHdr) (offset len : Nat) (s : State), fabricMode s.gen.mode = true → (h.len ≠ 16 ∨ len = 0 ∨ 4096 < len ∨ h.trailerAgrees =
      false) → ∃ t, exec (.rdreq h offset len) s = .next t ∧ Only (places [logging, revoking, windowLog, sending, poisoned] [.freeCtr, .mx,
      .ns, .tw, .dg, .ff, .prov, .reg Reg.HE_EPCNT.A_COUNT, .reg Reg.HE_EPCNT.B_COUNT, .reg Reg.ME_MERGE.EVICT, .reg Reg.GF_LENERR.LEN,
      .reg Reg.GF_LENERR.FCRC, .reg Reg.GF_ERR.LENERR, .reg Reg.DG_RNG.RESEEDS]) s t ∧ t = frameDiscarded h.vc h.src h.xseq true s ∧
      isOn Reg.GF_ERR.LENERR t = true) ∧
  (∀ (h : FrameHdr) (offset len : Nat) (s : State), h.len = 16 → 1 ≤ len → len ≤ 4096 → fabricMode s.gen.mode = true → h.trailerAgrees =
      true → h.fcrcOk = true → h.linesOk = true → h.xseq < (getRxStream h.vc h.src s).next → ∃ t, exec (.rdreq h offset len) s = .next t ∧
      Only (places [logging, revoking, windowLog, sending, poisoned] [.freeCtr, .mx, .ns, .tw, .dg, .ff, .prov, .reg Reg.HE_EPCNT.A_COUNT,
      .reg Reg.HE_EPCNT.B_COUNT, .reg Reg.ME_MERGE.EVICT, .reg Reg.GF_LENERR.LEN, .reg Reg.GF_LENERR.FCRC, .reg Reg.GF_ERR.LENERR,
      .reg Reg.DG_RNG.RESEEDS]) s t ∧ t = sendAck h.vc h.src s) ∧
  (∀ (h : FrameHdr) (data : List Byte) (s : State), h.len = data.length → (pendOf h.tag s).all (fun x => x.2.2.2.1 == data.length) = true →
      fabricMode s.gen.mode = true → h.trailerAgrees = true → h.fcrcOk = true → h.linesOk = true → h.xseq =
      (getRxStream h.vc h.src s).next → ∃ t, exec (.rdresp h data) s = .next t ∧ Only (places [logging, revoking, windowLog, sending,
      poisoned] [.freeCtr, .mx, .ns, .tw, .dg, .ff, .prov, .reg Reg.HE_EPCNT.A_COUNT, .reg Reg.HE_EPCNT.B_COUNT, .reg Reg.ME_MERGE.EVICT,
      .reg Reg.GF_LENERR.LEN, .reg Reg.GF_LENERR.FCRC, .reg Reg.GF_ERR.LENERR, .reg Reg.DG_RNG.RESEEDS]) s t ∧ t =
      deliverHeld h.vc h.src 1025 (rdrespRun h data (delivered h.vc h.src s))) ∧
  (∀ (h : FrameHdr) (offset : Nat) (data : List Byte) (s : State), h.len = data.length → 1 ≤ data.length → data.length ≤ 4096 →
      fabricMode s.gen.mode = true → h.trailerAgrees = true → h.fcrcOk = true → h.linesOk = true → h.xseq =
      (getRxStream h.vc h.src s).next → ∃ t, exec (.writeFrame h offset data) s = .next t ∧ Only (places [logging, revoking, windowLog,
      sending, poisoned] [.freeCtr, .mx, .ns, .tw, .dg, .ff, .prov, .reg Reg.HE_EPCNT.A_COUNT, .reg Reg.HE_EPCNT.B_COUNT,
      .reg Reg.ME_MERGE.EVICT, .reg Reg.GF_LENERR.LEN, .reg Reg.GF_LENERR.FCRC, .reg Reg.GF_ERR.LENERR, .reg Reg.DG_RNG.RESEEDS]) s t ∧ t =
      deliverHeld h.vc h.src 1025 (writeRun h offset data (delivered h.vc h.src s))) ∧
  (∀ (h : FrameHdr) (offset : Nat) (data : List Byte) (s : State), h.len = data.length → 1 ≤ data.length → data.length ≤ 4096 →
      fabricMode s.gen.mode = true → h.trailerAgrees = true → h.fcrcOk = false → ∃ t, exec (.writeFrame h offset data) s = .next t ∧
      Only (places [logging, revoking, windowLog, sending, poisoned] [.freeCtr, .mx, .ns, .tw, .dg, .ff, .prov, .reg Reg.HE_EPCNT.A_COUNT,
      .reg Reg.HE_EPCNT.B_COUNT, .reg Reg.ME_MERGE.EVICT, .reg Reg.GF_LENERR.LEN, .reg Reg.GF_LENERR.FCRC, .reg Reg.GF_ERR.LENERR,
      .reg Reg.DG_RNG.RESEEDS]) s t ∧ t = frameDiscarded h.vc h.src h.xseq false s) ∧
  (∀ (h : FrameHdr) (spdm : Bool) (descs : List NsDesc) (s : State), 16 ≤ h.len → h.len ≤ 4096 → fabricMode s.gen.mode = true →
      h.trailerAgrees = true → h.fcrcOk = true → h.linesOk = true → h.xseq = (getRxStream h.vc h.src s).next → ∃ t,
      exec (.mgmt h spdm descs) s = .next t ∧ Only (places [logging, revoking, windowLog, sending, poisoned] [.freeCtr, .mx, .ns, .tw, .dg,
      .ff, .prov, .reg Reg.HE_EPCNT.A_COUNT, .reg Reg.HE_EPCNT.B_COUNT, .reg Reg.ME_MERGE.EVICT, .reg Reg.GF_LENERR.LEN,
      .reg Reg.GF_LENERR.FCRC, .reg Reg.GF_ERR.LENERR, .reg Reg.DG_RNG.RESEEDS]) s t ∧ t =
      deliverHeld h.vc h.src 1025 (mgmtRun h spdm descs (delivered h.vc h.src s))) ∧
  (∀ (h : FrameHdr) (spdm : Bool) (descs : List NsDesc) (s : State), fabricMode s.gen.mode = false → exec (.mgmt h spdm descs) s = .next s) ∧
  (∀ (h : FrameHdr) (offset : Nat) (data : List Byte) (s : State), h.len = data.length → 1 ≤ data.length → data.length ≤ 4096 →
      fabricMode s.gen.mode = true → h.trailerAgrees = true → h.fcrcOk = true → h.linesOk = true →
      (getRxStream h.vc h.src s).next < h.xseq → ∃ t, exec (.writeFrame h offset data) s = .next t ∧ Only (places [logging, revoking,
      windowLog, sending, poisoned] [.freeCtr, .mx, .ns, .tw, .dg, .ff, .prov, .reg Reg.HE_EPCNT.A_COUNT, .reg Reg.HE_EPCNT.B_COUNT,
      .reg Reg.ME_MERGE.EVICT, .reg Reg.GF_LENERR.LEN, .reg Reg.GF_LENERR.FCRC, .reg Reg.GF_ERR.LENERR, .reg Reg.DG_RNG.RESEEDS]) s t ∧ t =
      holdEarly h (.writeFrame h offset data) s)

/-- What a standby does with mirrored records. Rules: R322, R326, R327, R227, R244. -/
def Obligations.MirroredRecords : Prop :=
  (∀ (g : GrainRec) (is : List Nat) (u : State) (s : State), standbyOn s = true → bpAlloc 4 (Nat.max 1 (ceilDiv g.glen 8)) false s =
      (some is, u) → ∃ t, exec (.mirrorGranules g) s = .next t ∧ Only (places [revoking] [.out, .gf, .tw]) s t ∧ t =
      recordIn (updTw (fun x => { x with heldGranules := x.heldGranules ++ [(g, is)] }) u)) ∧
  (∀ (g : GrainRec) (s : State), standbyOn s = false → exec (.mirrorGranules g) s = .next s) ∧
  (∀ (csn : Nat) (deltas : List GrainRec) (s : State), standbyOn s = true → (recordIn s).tw.ack < csn → ∃ t,
      exec (.mirrorCommitRecord csn deltas) s = .next t ∧ Only (places [posting, logging, revoking, windowLog, sending,
      disarming] [.freeCtr, .gen, .lost, .mx, .ns, .mm, .tw, .nand, .prov, .reg Reg.MX_ERR.CEILHOLD, .reg Reg.TW_ERR.TOUCHFULL]) s t ∧ t =
      applyRecord csn deltas (recordIn s)) ∧
  (∀ (csn : Nat) (deltas : List GrainRec) (s : State), standbyOn s = true → csn ≤ (recordIn s).tw.ack → ∃ t,
      exec (.mirrorCommitRecord csn deltas) s = .next t ∧ Only (places [posting, logging, revoking, windowLog, sending,
      disarming] [.freeCtr, .gen, .lost, .mx, .ns, .mm, .tw, .nand, .prov, .reg Reg.MX_ERR.CEILHOLD, .reg Reg.TW_ERR.TOUCHFULL]) s t ∧ t =
      recordIn s) ∧
  (∀ (csn : Nat) (deltas : List GrainRec) (s : State), standbyOn s = false → exec (.mirrorCommitRecord csn deltas) s = .next s) ∧
  (∀ (op : NsOp) (s : State), standbyOn s = true → ∃ t, exec (.mirrorNamespaceOperation op) s = .next t ∧ Only (places [posting, logging,
      revoking, windowLog, sending] [.freeCtr, .mx, .ns, .mm, .dg, .nand, .ff, .prov, .reg Reg.MM_ERR.SHORTCLOSE,
      .reg Reg.DG_RNG.RESEEDS]) s t ∧ t = mirroredOp op (recordIn s)) ∧
  (∀ (op : NsOp) (s : State), standbyOn s = false → exec (.mirrorNamespaceOperation op) s = .next s) ∧
  (∀ (entries : List (Nat × List Nat)) (s : State), standbyOn s = true → ∃ t, exec (.mirrorLatencyClassTable entries) s = .next t ∧
      Only [.out, .sh, .gf] s t ∧ t = mirroredClasses entries (recordIn s)) ∧
  (∀ (entries : List (Nat × List Nat)) (s : State), standbyOn s = false → exec (.mirrorLatencyClassTable entries) s = .next s) ∧
  (∀ (nsid wrapped : Nat) (s : State), standbyOn s = true → ∃ t, exec (.mirrorXtsKey nsid wrapped) s = .next t ∧ Only [.freeCtr, .out, .ns,
      .gf, .ff, .prov] s t ∧ t = putKey nsid 2 (setNs nsid (fun n => { n with keyGen := n.keyGen + 1 }) (recordIn s))) ∧
  (∀ (nsid wrapped : Nat) (s : State), standbyOn s = false → exec (.mirrorXtsKey nsid wrapped) s = .next s) ∧
  (∀ (snap : Snap) (s : State), standbyOn s = true → ∃ t, exec (.mirrorSnapshot snap) s = .next t ∧ Only [.out, .gf, .tw] s t ∧ t =
      updTw (fun t => { t with peerSnaps := (snap :: t.peerSnaps).take 2 }) (recordIn s)) ∧
  (∀ (snap : Snap) (s : State), standbyOn s = false → exec (.mirrorSnapshot snap) s = .next s) ∧
  (∀ (isAnswer : Bool) (g : GrainRec) (lostCsn : Nat) (s : State), fabricMode s.gen.mode = true → repairOn s = true → isAnswer = false →
      ∃ t, exec (.mirrorRepair isAnswer g lostCsn) s = .next t ∧ Only (places [logging, revoking, windowLog, sending] [.lost, .mx, .mm,
      .nand, .reg Reg.SP_LOSTCNT.REPAIRED]) s t ∧ t =
      sendFrame 1 (recordIn s).tw.peer 0x10 0 [7] (emit (.record (recordIn s).tw.peer 7 (grainHead g.nsid g.grain (recordIn s))) (recordIn s))) ∧
  (∀ (isAnswer : Bool) (g : GrainRec) (lostCsn : Nat) (s : State), fabricMode s.gen.mode = true → repairOn s = true → isAnswer = true →
      (getEntry g.nsid g.grain (recordIn s)).lost = true → (getEntry g.nsid g.grain (recordIn s)).staged = false →
      lostCsnOf g lostCsn (recordIn s) ≤ g.csn → ∃ t, exec (.mirrorRepair isAnswer g lostCsn) s = .next t ∧ Only (places [logging, revoking,
      windowLog, sending] [.lost, .mx, .mm, .nand, .reg Reg.SP_LOSTCNT.REPAIRED]) s t ∧ t =
      storeRepair g (getEntry g.nsid g.grain (recordIn s)) (recordIn s)) ∧
  (∀ (isAnswer : Bool) (g : GrainRec) (lostCsn : Nat) (s : State), repairOn s = false → exec (.mirrorRepair isAnswer g lostCsn) s = .next s)

/-- Heartbeats, their loss, takeover and SOLO. Rules: R324, R328, R329, R330, R331, R332. -/
def Obligations.PairHeartbeat : Prop :=
  (∀ (s : State), beats s = true → ∃ t, exec .hbSendTimer s = .next t ∧ Only (places [logging, revoking, windowLog, sending] [.pins,
      .tw]) s t ∧ t.pins.hbOut = !s.pins.hbOut ∧ t.tw.hbSeq = (s.tw.hbSeq + 1) % 2 ^ 32 ∧ t =
      (let u : State := { s with pins := { s.pins with hbOut := !s.pins.hbOut } }; sendHb [(s.tw.hbSeq + 1) % 2 ^ 32, pairCode u,
      if s.tw.active then s.mx.csn else s.tw.ack] (emit (.pin 3 (!s.pins.hbOut)) (updTw (fun t => { t with hbSeq := (s.tw.hbSeq + 1) % 2 ^ 32 }) u)))) ∧
  (∀ (s : State), s.tw.st = .none → exec .hbSendTimer s = .next s) ∧
  (∀ (seq peerState csn : Nat) (s : State), fabricMode s.gen.mode = true → s.tw.st ≠ .none → s.tw.st ≠ .fenced →
      (standbyOn (updTw (fun t => { t with pathALost := false, hbCsn := Nat.max t.hbCsn csn }) s) = false ∨ s.tw.st ≠ .seeding ∨
      peerState ≠ 2) → ∃ t, exec (.hb seq peerState csn) s = .next t ∧ Only [.bp, .tw] s t ∧ t =
      (updTw (fun t => { t with pathALost := false, hbCsn := Nat.max t.hbCsn csn }) s)) ∧
  (∀ (seq peerState csn : Nat) (s : State), fabricMode s.gen.mode = true → s.tw.st = .seeding →
      standbyOn (updTw (fun t => { t with pathALost := false, hbCsn := Nat.max t.hbCsn csn }) s) = true → peerState = 2 → ∃ t,
      exec (.hb seq peerState csn) s = .next t ∧ Only [.bp, .tw] s t ∧ t =
      dropTouched (fun _ => true) (updTw (fun t => { t with st := .paired, seedTodo := [] }) (updTw (fun t => { t with pathALost := false, hbCsn := Nat.max t.hbCsn csn }) s))) ∧
  (∀ (seq peerState csn : Nat) (s : State), (fabricMode s.gen.mode = false ∨ s.tw.st = .none ∨ s.tw.st = .fenced) →
      exec (.hb seq peerState csn) s = .next s) ∧
  (∀ (pathB : Bool) (sinceUs : Nat) (s : State), fabricMode s.gen.mode = true → 202 ≤ sinceUs → (s.tw.st = .seeding ∨ s.tw.st = .paired ∨
      s.tw.st = .solo) →
      ((updTw (fun t => if pathB then { t with pathBLost := true } else { t with pathALost := true }) s).tw.pathALost && (updTw (fun t => if pathB then { t with pathBLost := true } else { t with pathALost := true }) s).tw.pathBLost) =
      false → ∃ t, exec (.hbPathLost pathB sinceUs) s = .next t ∧ Only (places [posting, logging, disarming] [.freeCtr, .pins, .gen, .mx,
      .ns, .mm, .bp, .tw, .nand, .prov, .reg Reg.MX_ERR.CEILHOLD, .reg Reg.TW_TAKE.COUNT, .reg Reg.TW_TAKE.LAST, .reg Reg.TW_TAKE.CAUSE,
      .reg Reg.TW_ERR.HBPATH]) s t ∧ t =
      evFabric (flagOn Reg.TW_ERR.HBPATH (updTw (fun t => if pathB then { t with pathBLost := true } else { t with pathALost := true }) s))) ∧
  (∀ (pathB : Bool) (sinceUs : Nat) (s : State), fabricMode s.gen.mode = true → 202 ≤ sinceUs → (s.tw.st = .seeding ∨ s.tw.st = .paired ∨
      s.tw.st = .solo) → (updTw (fun t => if pathB then { t with pathBLost := true } else { t with pathALost := true }) s).tw.pathALost =
      true → (updTw (fun t => if pathB then { t with pathBLost := true } else { t with pathALost := true }) s).tw.pathBLost = true →
      s.tw.active = false → s.gen.mode = .standby → s.tw.switchAt = none → ∃ t, exec (.hbPathLost pathB sinceUs) s = .next t ∧
      Only (places [posting, logging, disarming] [.freeCtr, .pins, .gen, .mx, .ns, .mm, .bp, .tw, .nand, .prov, .reg Reg.MX_ERR.CEILHOLD,
      .reg Reg.TW_TAKE.COUNT, .reg Reg.TW_TAKE.LAST, .reg Reg.TW_TAKE.CAUSE, .reg Reg.TW_ERR.HBPATH]) s t ∧ t =
      standbyAlone 0 (updTw (fun t => if pathB then { t with pathBLost := true } else { t with pathALost := true }) s)) ∧
  (∀ (pathB : Bool) (sinceUs : Nat) (s : State), (fabricMode s.gen.mode = false ∨ sinceUs < 202 ∨ s.tw.st = .none ∨ s.tw.st = .lost ∨
      s.tw.st = .fenced) → exec (.hbPathLost pathB sinceUs) s = .next s) ∧
  (∀ (csn : Nat) (s : State), fabricMode s.gen.mode = true → s.tw.active = false → s.gen.mode = .standby → s.tw.st = .paired → ∃ t,
      exec (.drainNotice csn) s = .next t ∧ Only (places [posting, logging, disarming] [.freeCtr, .pins, .gen, .mx, .ns, .mm, .bp, .tw,
      .nand, .prov, .reg Reg.MX_ERR.CEILHOLD, .reg Reg.TW_TAKE.COUNT, .reg Reg.TW_TAKE.LAST, .reg Reg.TW_TAKE.CAUSE]) s t ∧ t.tw.st =
      .lost ∧ getF Reg.TW_TAKE.CAUSE t = 1 ∧ t.pins.fenceOut = true ∧ Nat.max s.tw.ack (Nat.max s.tw.hbCsn csn) + 2 ^ 20 + 1 ≤ t.mx.csn ∧
      t = takeover 1 (updTw (fun t => { t with hbCsn := Nat.max t.hbCsn csn }) s)) ∧
  (∀ (csn : Nat) (s : State), (fabricMode s.gen.mode = false ∨ s.tw.active = true ∨ s.gen.mode ≠ .standby) → exec (.drainNotice csn) s =
      .next s) ∧
  (∀ (cmd : Nat) (c : IoCmd) (s : State), fabricMode s.gen.mode = true → findCmd cmd s = some c → s.tw.active = true → s.tw.st = .paired →
      changesData c.kind = true → c.acked = false → ∃ t, exec (.soloEntry cmd) s = .next t ∧ Only (places [posting, logging, revoking,
      windowLog, sending, poisoned] [.freeCtr, .sh, .defFaults, .lost, .cmds, .mx, .ns, .mm, .tw, .reg Reg.MX_ERR.CEILHOLD,
      .reg Reg.TW_ERR.WINHOLD, .reg Reg.TW_ERR.SOLO, .reg Reg.TW_ERR.TOUCHFULL]) s t ∧ t =
      retryCommits (evFabric (flagOn Reg.TW_ERR.SOLO (updTw (fun t => { t with st := .solo }) s)))) ∧
  (∀ (cmd : Nat) (s : State), (fabricMode s.gen.mode = false ∨ findCmd cmd s = none) → exec (.soloEntry cmd) s = .next s) ∧
  (∀ (goodMs : Nat) (s : State), fabricMode s.gen.mode = true → s.tw.active = true → s.tw.st = .solo → 10 ≤ goodMs → s.mx.csn ≤ s.tw.ack →
      s.tw.pathALost = false → s.tw.pathBLost = false → ∃ t, exec (.soloExit goodMs) s = .next t ∧ Only (places [posting] [.tw]) s t ∧ t =
      evFabric (updTw (fun t => { t with st := .paired }) s)) ∧
  (∀ (goodMs : Nat) (s : State), (fabricMode s.gen.mode = false ∨ goodMs < 10) → exec (.soloExit goodMs) s = .next s) ∧
  (∀ (pathB : Bool) (sinceUs : Nat) (s : State), fabricMode s.gen.mode = true → 202 ≤ sinceUs → (s.tw.st = .seeding ∨ s.tw.st = .paired ∨
      s.tw.st = .solo) → (updTw (fun t => if pathB then { t with pathBLost := true } else { t with pathALost := true }) s).tw.pathALost =
      true → (updTw (fun t => if pathB then { t with pathBLost := true } else { t with pathALost := true }) s).tw.pathBLost = true →
      s.tw.st = .paired → s.tw.active = false → s.gen.mode = .standby → s.tw.switchAt = none → ∃ t, exec (.hbPathLost pathB sinceUs) s =
      .next t ∧ Only (places [posting, logging, disarming] [.freeCtr, .pins, .gen, .mx, .ns, .mm, .bp, .tw, .nand, .prov,
      .reg Reg.MX_ERR.CEILHOLD, .reg Reg.TW_TAKE.COUNT, .reg Reg.TW_TAKE.LAST, .reg Reg.TW_TAKE.CAUSE, .reg Reg.TW_ERR.HBPATH]) s t ∧
      t.tw.st = .lost ∧ t.tw.active = true ∧ getF Reg.TW_TAKE.CAUSE t = 0) ∧
  (∀ (csn : Nat) (s : State), fabricMode s.gen.mode = true → s.tw.active = false → s.gen.mode = .standby → ∃ t, exec (.drainNotice csn) s =
      .next t ∧ Only (places [posting, logging, disarming] [.freeCtr, .pins, .gen, .mx, .ns, .mm, .bp, .tw, .nand, .prov,
      .reg Reg.MX_ERR.CEILHOLD, .reg Reg.TW_TAKE.COUNT, .reg Reg.TW_TAKE.LAST, .reg Reg.TW_TAKE.CAUSE]) s t ∧ t =
      standbyAlone 1 (updTw (fun t => { t with hbCsn := Nat.max t.hbCsn csn }) s))

/-- Pairing, the switch and seeding. Rules: R334, R335, R336, R322, R338, R342. -/
def Obligations.PairControl : Prop :=
  (∀ (src action : Nat) (idOk : Bool) (nsCount : Nat) (s : State), fabricMode s.gen.mode = true → idOk = true → action = 0 → s.tw.st =
      .none → s.gen.mode = .service → s.ns = [] → noSession s = true → ∃ t, exec (.pairreq src action idOk nsCount) s = .next t ∧
      Only (places [posting, logging, revoking, windowLog, sending, disarming] [.gen, .mx, .ns, .tw, .dg, .ff, .prov,
      .reg Reg.TW_ERR.PEERID]) s t ∧ t = sendCtrl src 0x04 [0] (rowTen (becomeStandby src s)) ∧ t.tw.st = .seeding ∧ t.tw.peer = src ∧
      t.gen.mode = .standby ∧ t.prov.pair = some (src, false)) ∧
  (∀ (src action : Nat) (idOk : Bool) (nsCount : Nat) (s : State), fabricMode s.gen.mode = true → idOk = false → ∃ t,
      exec (.pairreq src action idOk nsCount) s = .next t ∧ Only (places [posting, logging, revoking, windowLog, sending, disarming] [.gen,
      .mx, .ns, .tw, .dg, .ff, .prov, .reg Reg.TW_ERR.PEERID]) s t ∧ t = sendCtrl src 0x04 [1] (flagOn Reg.TW_ERR.PEERID s) ∧
      isOn Reg.TW_ERR.PEERID t = true ∧ t.tw = s.tw) ∧
  (∀ (src action : Nat) (idOk : Bool) (nsCount : Nat) (s : State), fabricMode s.gen.mode = true → idOk = true → action = 0 → s.ns ≠ [] →
      ∃ t, exec (.pairreq src action idOk nsCount) s = .next t ∧ Only (places [posting, logging, revoking, windowLog, sending,
      disarming] [.gen, .mx, .ns, .tw, .dg, .ff, .prov, .reg Reg.TW_ERR.PEERID]) s t ∧ t = sendCtrl src 0x04 [1] s) ∧
  (∀ (accepted identityOk : Bool) (s : State), fabricMode s.gen.mode = true → s.tw.st = .none → s.tw.waitCmd.isNone = false →
      (s.tw.mig.role = 1 → s.tw.mig.phase ≠ 0) → accepted = true → identityOk = true → ∃ t, exec (.pairack accepted identityOk) s =
      .next t ∧ Only (places [posting, logging, revoking, windowLog, sending] [.tw, .dg, .prov, .reg Reg.TW_ERR.PEERID]) s t ∧ t =
      waitCmdDone 0 0 (pairCode (becomeActive s)) (becomeActive s)) ∧
  (∀ (accepted identityOk : Bool) (s : State), fabricMode s.gen.mode = true → s.tw.st = .none → s.tw.waitCmd.isNone = false →
      (s.tw.mig.role = 1 → s.tw.mig.phase ≠ 0) → accepted = false → identityOk = true → ∃ t, exec (.pairack accepted identityOk) s =
      .next t ∧ Only (places [posting, logging, revoking, windowLog, sending] [.tw, .dg, .prov, .reg Reg.TW_ERR.PEERID]) s t ∧ t =
      waitCmdDone 0 0x0C (pairCode s) s) ∧
  (∀ (accepted identityOk : Bool) (s : State), (fabricMode s.gen.mode = false ∨ s.tw.waitCmd = none ∨ s.tw.st ≠ .none) →
      exec (.pairack accepted identityOk) s = .next s) ∧
  (∀ (csn : Nat) (s : State), standbyOn s = true → s.tw.st = .paired → ∃ t, exec (.switch csn) s = .next t ∧ Only (places [posting, logging,
      revoking, windowLog, sending, disarming] [.gen, .ns, .tw, .prov]) s t ∧ t =
      finishSwitch (updTw (fun t => { t with switching := true, switchAt := some csn }) s) ∧ (s.tw.ack < csn → t.tw.switching = true ∧
      t.tw.active = false)) ∧
  (∀ (csn : Nat) (s : State), standbyOn s = false → exec (.switch csn) s = .next s) ∧
  (∀ (csn : Nat) (s : State), fabricMode s.gen.mode = true → s.tw.switching = true → s.tw.active = true → s.tw.switchSent = true → ∃ t,
      exec (.switchack csn) s = .next t ∧ Only (places [posting, logging, disarming] [.freeCtr, .pins, .gen, .mx, .ns, .mm, .bp, .tw, .nand,
      .prov, .reg Reg.MX_ERR.CEILHOLD, .reg Reg.TW_TAKE.COUNT, .reg Reg.TW_TAKE.LAST, .reg Reg.TW_TAKE.CAUSE]) s t ∧ t = (let u := rowTen s;
      let v := recordPair (some (u.tw.peer,
      false)) (updTw (fun t => { t with active := false, switching := false, switchSent := false, ack := Nat.max t.ack csn }) u);
      let w := waitCmdDone 0 0 (pairCode v) v; if w.tw.pathALost ∧ w.tw.pathBLost then standbyAlone 0 w else w)) ∧
  (∀ (csn : Nat) (s : State), (fabricMode s.gen.mode = false ∨ s.tw.switching = false ∨ s.tw.active = false ∨ s.tw.switchSent = false) →
      exec (.switchack csn) s = .next s) ∧
  (∀ (nsid seg : Nat) (grains : List GrainRec) (s : State), fabricMode s.gen.mode = true → s.tw.st = .seeding →
      s.tw.seedTodo.contains (nsid, seg) = true → s.tw.active = true → s.tw.stopped.contains 2 = false → s.tw.seedFly.contains (nsid, seg) =
      false → s.tw.seedFly.length < getF Reg.TW_MIGCFG.PAR s → ∃ t, exec (.seedSegmentSend nsid seg grains) s = .next t ∧
      Only (places [posting, logging, revoking, windowLog, sending] [.freeCtr, .sh, .lost, .mx, .ns, .mm, .tw, .nand,
      .reg Reg.MX_ERR.CEILHOLD]) s t ∧ t = sendCtrl s.tw.peer 0x12 [nsid, seg, 1,
      segDigest nsid seg s] (sendSegment s.tw.peer nsid seg (updTw (fun t => { t with seedFly := t.seedFly ++ [(nsid, seg)] }) s))) ∧
  (∀ (nsid seg : Nat) (grains : List GrainRec) (s : State), fabricMode s.gen.mode = true → s.tw.st = .seeding →
      s.tw.seedTodo.contains (nsid, seg) = true → s.tw.active = false → standbyOn s = true → ∃ t,
      exec (.seedSegmentSend nsid seg grains) s = .next t ∧ Only (places [posting, logging, revoking, windowLog, sending] [.freeCtr, .sh,
      .lost, .mx, .ns, .mm, .tw, .nand, .reg Reg.MX_ERR.CEILHOLD]) s t ∧ t = storeSeed nsid seg grains s) ∧
  (∀ (nsid seg : Nat) (grains : List GrainRec) (s : State), (fabricMode s.gen.mode = false ∨ s.tw.st ≠ .seeding) →
      exec (.seedSegmentSend nsid seg grains) s = .next s) ∧
  (∀ (src action : Nat) (idOk : Bool) (nsCount : Nat) (s : State), fabricMode s.gen.mode = true → idOk = true → action = 2 → s.gen.mode =
      .standby → s.prov.pair = some (src, false) → ∃ t, exec (.pairreq src action idOk nsCount) s = .next t ∧ Only (places [posting,
      logging, revoking, windowLog, sending, disarming] [.gen, .mx, .ns, .tw, .dg, .ff, .prov, .reg Reg.TW_ERR.PEERID]) s t ∧ t =
      sendCtrl src 0x04 [0] (becomeStandby src s)) ∧
  (∀ (src action : Nat) (idOk : Bool) (nsCount : Nat) (s : State), fabricMode s.gen.mode = true → idOk = true → action = 3 →
      s.tw.st ≠ .none → s.tw.active = false → s.tw.peer = src → ∃ t, exec (.pairreq src action idOk nsCount) s = .next t ∧
      Only (places [posting, logging, revoking, windowLog, sending, disarming] [.gen, .mx, .ns, .tw, .dg, .ff, .prov,
      .reg Reg.TW_ERR.PEERID]) s t ∧ t = sendCtrl src 0x04 [0] (unpaired (s.ns.foldl (fun t n => deleteNs n.nsid t) s))) ∧
  (∀ (accepted identityOk : Bool) (s : State), fabricMode s.gen.mode = true → s.tw.st = .none → s.tw.waitCmd.isNone = false →
      (s.tw.mig.role = 1 → s.tw.mig.phase ≠ 0) → identityOk = false → ∃ t, exec (.pairack accepted identityOk) s = .next t ∧
      Only (places [posting, logging, revoking, windowLog, sending] [.tw, .dg, .prov, .reg Reg.TW_ERR.PEERID]) s t ∧ t =
      waitCmdDone 0 0x0C (pairCode s) (flagOn Reg.TW_ERR.PEERID s))

/-- Migration: start, segments, passes, cutover and abort. Rules: R337, R338, R339, R340, R341, R342. -/
def Obligations.MigrationSteps : Prop :=
  (∀ (src : Nat) (idOk : Bool) (descs : List NsDesc) (s : State), fabricMode s.gen.mode = true → migResult src idOk descs s = 0 → ∃ t,
      exec (.migstart src idOk descs) s = .next t ∧ Only (places [logging, revoking, windowLog, sending] [.freeCtr, .mx, .ns, .tw, .dg, .ff,
      .prov, .reg Reg.TW_ERR.PEERID, .reg Reg.DG_RNG.RESEEDS]) s t ∧ t.tw.mig.phase = 2 ∧ t.tw.mig.nsids = descs.map (·.nsid) ∧
      t.tw.mig.pass = 1 ∧ t.dg.transport = true ∧ t =
      sendCtrl src 0x11 [0] (let u := updMig (fun m => { m with phase := 2, nsids := descs.map (·.nsid), pass := 1 }) (descs.foldl (fun t d => createIngested d t) s);
      { u with dg := { u.dg with transport := true } })) ∧
  (∀ (src : Nat) (idOk : Bool) (descs : List NsDesc) (r : Nat) (s : State), fabricMode s.gen.mode = true → r = migResult src idOk descs s →
      r ≠ 0 → ∃ t, exec (.migstart src idOk descs) s = .next t ∧ Only (places [logging, revoking, windowLog, sending] [.freeCtr, .mx, .ns,
      .tw, .dg, .ff, .prov, .reg Reg.TW_ERR.PEERID, .reg Reg.DG_RNG.RESEEDS]) s t ∧ t = sendCtrl src 0x11 [r] (flagIf (r ==
      2) Reg.TW_ERR.PEERID s)) ∧
  (∀ (result : Nat) (s : State), fabricMode s.gen.mode = true → s.tw.mig.role = 1 → s.tw.mig.phase = 0 → s.tw.waitCmd.isNone = false →
      result = 0 → ∃ t, exec (.migack result) s = .next t ∧ Only (places [posting] [.tw, .dg, .reg Reg.TW_ERR.PEERID,
      .reg Reg.TW_ERR.SINKCAP]) s t ∧ t.tw.mig.phase = 2 ∧ t.tw.mig.pass = 1 ∧ t.dg.transport = true ∧ t = beginFirst s) ∧
  (∀ (result : Nat) (s : State), fabricMode s.gen.mode = true → s.tw.mig.role = 1 → s.tw.mig.phase = 0 → s.tw.waitCmd.isNone = false →
      result ≠ 0 → ∃ t, exec (.migack result) s = .next t ∧ Only (places [posting] [.tw, .dg, .reg Reg.TW_ERR.PEERID,
      .reg Reg.TW_ERR.SINKCAP]) s t ∧ t.tw.mig = Mig.none ∧ t = waitCmdDone 0 0x0C 0 (updMig (fun _ => Mig.none) (if result =
      1 then flagOn Reg.TW_ERR.SINKCAP s else if result = 2 then flagOn Reg.TW_ERR.PEERID s else s))) ∧
  (∀ (result : Nat) (s : State), (fabricMode s.gen.mode = false ∨ s.tw.mig.role ≠ 1 ∨ s.tw.mig.phase ≠ 0 ∨ s.tw.waitCmd = none) →
      exec (.migack result) s = .next s) ∧
  (∀ (nsid seg : Nat) (s : State), fabricMode s.gen.mode = true → sourcing s = true → s.tw.mig.todo.contains (nsid, seg) = true →
      s.tw.mig.flying.length < getF Reg.TW_MIGCFG.PAR s → s.tw.stopped.contains 2 = false → ∃ t, exec (.migrationSegmentSend nsid seg) s =
      .next t ∧ Only (places [logging, revoking, windowLog, sending] [.mx, .mm, .tw]) s t ∧ t.tw.mig.todo = s.tw.mig.todo.erase (nsid,
      seg) ∧ t.tw.mig.dirty = s.tw.mig.dirty.filter (fun x => x != (nsid, seg)) ∧ t.tw.mig.flying = s.tw.mig.flying ++ [(nsid, seg)] ∧
      t.tw.mig.sent = Nat.min (s.tw.mig.sent + 1) (2 ^ 32 - 1) ∧ t = sendCtrl s.tw.mig.peer 0x12 [nsid, seg, s.tw.mig.pass,
      segDigest nsid seg (updMig (fun m => { m with todo := m.todo.erase (nsid, seg), dirty := m.dirty.filter (fun x => x != (nsid, seg)), matched := m.matched.filter (fun x => x != (nsid, seg)), flying := m.flying ++ [(nsid, seg)], sent := Nat.min (m.sent + 1) (2 ^ 32 - 1) }) s)] (sendSegment s.tw.mig.peer nsid seg (updMig (fun m => { m with todo := m.todo.erase (nsid, seg), dirty := m.dirty.filter (fun x => x != (nsid, seg)), matched := m.matched.filter (fun x => x != (nsid, seg)), flying := m.flying ++ [(nsid, seg)], sent := Nat.min (m.sent + 1) (2 ^ 32 - 1) }) s))) ∧
  (∀ (nsid seg : Nat) (s : State), (fabricMode s.gen.mode = false ∨ sourcing s = false ∨ s.tw.mig.todo.contains (nsid, seg) = false ∨
      getF Reg.TW_MIGCFG.PAR s ≤ s.tw.mig.flying.length ∨ s.tw.stopped.contains 2 = true) → exec (.migrationSegmentSend nsid seg) s =
      .next s) ∧
  (∀ (g : GrainRec) (s : State), s.tw.mig.role = 2 → s.gen.mode = .ingest → (findNs g.nsid s).any (·.ingesting) = true → ∃ t,
      exec (.migseg g) s = .next t ∧ Only (places [posting, logging] [.freeCtr, .sh, .lost, .mx, .ns, .bp]) s t ∧ t = storeGrain g s) ∧
  (∀ (g : GrainRec) (s : State), (s.tw.mig.role ≠ 2 ∨ s.gen.mode ≠ .ingest ∨ (findNs g.nsid s).any (·.ingesting) = false) →
      exec (.migseg g) s = .next s) ∧
  (∀ (nsid seg pass theirs : Nat) (flip : Option (Fin 64)) (s : State), fabricMode s.gen.mode = true → (standbyOn s = false ∨
      s.tw.st ≠ .seeding) → s.tw.mig.role = 2 → 2 ≤ s.tw.mig.phase → s.tw.mig.phase ≤ 5 → ∃ t, exec (.segdig nsid seg pass theirs flip) s =
      .next t ∧ Only (places [logging, revoking, windowLog, sending] [.tw]) s t ∧ t = sendCtrl s.tw.mig.peer 0x13 [nsid, seg, pass,
      if theirs = segDigest nsid seg s ∧ flip = none then 0 else 1] (updMig (fun m => { m with pass := pass }) s)) ∧
  (∀ (nsid seg pass theirs : Nat) (flip : Option (Fin 64)) (s : State), (fabricMode s.gen.mode = false ∨ ((standbyOn s = false ∨
      s.tw.st ≠ .seeding) ∧ (s.tw.mig.role ≠ 2 ∨ s.tw.mig.phase < 2 ∨ 5 < s.tw.mig.phase))) → exec (.segdig nsid seg pass theirs flip) s =
      .next s) ∧
  (∀ (nsid seg pass result : Nat) (s : State), fabricMode s.gen.mode = true → (s.tw.active = false ∨ s.tw.st ≠ .seeding ∨
      s.tw.seedFly.contains (nsid, seg) = false) → sourcing s = true → s.tw.mig.flying.contains (nsid, seg) = true → result = 0 → ∃ t,
      exec (.segres nsid seg pass result) s = .next t ∧ Only (places [posting, logging, revoking, windowLog, sending, disarming] [.gen, .mx,
      .ns, .mm, .tw, .dg, .nand, .ff, .prov, .reg Reg.MX_ERR.CEILHOLD, .reg Reg.TW_ERR.DIGEST]) s t ∧ t.tw.mig =
      { s.tw.mig with flying := s.tw.mig.flying.erase (nsid, seg), matched := addOnce s.tw.mig.matched (nsid, seg) } ∧ t =
      updMig (fun m => { m with matched := addOnce m.matched (nsid, seg) }) (updMig (fun m => { m with flying := m.flying.erase (nsid, seg) }) s)) ∧
  (∀ (nsid seg pass result : Nat) (s : State), fabricMode s.gen.mode = true → (s.tw.active = false ∨ s.tw.st ≠ .seeding ∨
      s.tw.seedFly.contains (nsid, seg) = false) → sourcing s = true → s.tw.mig.flying.contains (nsid, seg) = true → result ≠ 0 →
      missesOf nsid seg s < 3 → ∃ t, exec (.segres nsid seg pass result) s = .next t ∧ Only (places [posting, logging, revoking, windowLog,
      sending, disarming] [.gen, .mx, .ns, .mm, .tw, .dg, .nand, .ff, .prov, .reg Reg.MX_ERR.CEILHOLD, .reg Reg.TW_ERR.DIGEST]) s t ∧
      t.tw.mig.flying = s.tw.mig.flying.erase (nsid, seg) ∧ t.tw.mig.todo = addOnce s.tw.mig.todo (nsid, seg) ∧ t.tw.mig.resent =
      Nat.min (s.tw.mig.resent + 1) 255 ∧ t.tw.mig.phase = s.tw.mig.phase ∧ t =
      updMig (fun m => { m with todo := addOnce m.todo (nsid, seg), resent := Nat.min (m.resent + 1) 255 }) (updMig (fun m => { m with misses := m.misses.filter (fun x => !decide (x.1 = nsid ∧ x.2.1 = seg)) ++ [(nsid, seg, missesOf nsid seg s + 1)] }) (updMig (fun m => { m with flying := m.flying.erase (nsid, seg) }) s))) ∧
  (∀ (nsid seg pass result : Nat) (s : State), fabricMode s.gen.mode = true → (s.tw.active = false ∨ s.tw.st ≠ .seeding ∨
      s.tw.seedFly.contains (nsid, seg) = false) → sourcing s = true → s.tw.mig.flying.contains (nsid, seg) = true → result ≠ 0 →
      3 ≤ missesOf nsid seg s → ∃ t, exec (.segres nsid seg pass result) s = .next t ∧ Only (places [posting, logging, revoking, windowLog,
      sending, disarming] [.gen, .mx, .ns, .mm, .tw, .dg, .nand, .ff, .prov, .reg Reg.MX_ERR.CEILHOLD, .reg Reg.TW_ERR.DIGEST]) s t ∧
      t.tw.mig.phase = 7 ∧ t =
      abortSession (sendCtrl s.tw.mig.peer 0x16 [1] (flagOn Reg.TW_ERR.DIGEST (updMig (fun m => { m with misses := m.misses.filter (fun x => !decide (x.1 = nsid ∧ x.2.1 = seg)) ++ [(nsid, seg, missesOf nsid seg s + 1)] }) (updMig (fun m => { m with flying := m.flying.erase (nsid, seg) }) s))))) ∧
  (∀ (s : State), fabricMode s.gen.mode = true → sourcing s = true → s.tw.mig.todo = [] → s.tw.mig.flying = [] → s.tw.mig.phase = 2 → ∃ t,
      exec .dirtyPassEnd s = .next t ∧ Only (places [logging, revoking, windowLog, sending] [.ns, .tw, .prov]) s t ∧ t.tw.mig =
      { s.tw.mig with phase := 3, pass := Nat.min (s.tw.mig.pass + 1) 255, todo := s.tw.mig.dirty } ∧ t = nextPass 3 s) ∧
  (∀ (s : State), fabricMode s.gen.mode = true → sourcing s = true → s.tw.mig.todo = [] → s.tw.mig.flying = [] → s.tw.mig.phase = 4 →
      s.tw.mig.dirty = [] → s.cmds.any (fun c => s.tw.mig.nsids.contains c.nsid && uncommitted c) = false → allMatched s = true → ∃ t,
      exec .dirtyPassEnd s = .next t ∧ Only (places [logging, revoking, windowLog, sending] [.ns, .tw, .prov]) s t ∧ t = sendCutover s) ∧
  (∀ (s : State), (fabricMode s.gen.mode = false ∨ sourcing s = false ∨ s.tw.mig.todo ≠ [] ∨ s.tw.mig.flying ≠ []) → exec .dirtyPassEnd s =
      .next s) ∧
  (∀ (nsid sealCsn nguid eui : Nat) (last : Bool) (s : State), s.tw.mig.role = 2 → 2 ≤ s.tw.mig.phase → s.tw.mig.phase ≤ 5 → s.gen.mode =
      .ingest → s.tw.mig.nsids.contains nsid = true → ¬ (last = true ∧
      s.tw.mig.nsids.all (fun n => (addOnce s.tw.mig.cutDone nsid).contains n) = true) → ∃ t,
      exec (.cutover nsid sealCsn nguid eui last) s = .next t ∧ Only (places [posting, logging, revoking, windowLog, sending,
      disarming] [.gen, .mx, .ns, .mm, .tw, .dg, .nand, .prov, .reg Reg.MX_ERR.CEILHOLD]) s t ∧ t =
      raiseCsn sealCsn (updMig (fun m => { m with phase := 5, cutDone := addOnce m.cutDone nsid }) (setNs nsid (fun n => { n with nguid := nguid, eui := eui, ingesting := false }) s)) ∧
      t.tw.mig.phase = 5 ∧ sealCsn ≤ t.mx.csn) ∧
  (∀ (nsid sealCsn nguid eui : Nat) (last : Bool) (s : State), (s.tw.mig.role ≠ 2 ∨ s.tw.mig.phase < 2 ∨ 5 < s.tw.mig.phase ∨
      s.gen.mode ≠ .ingest ∨ s.tw.mig.nsids.contains nsid = false) → exec (.cutover nsid sealCsn nguid eui last) s = .next s) ∧
  (∀ (count : Nat) (s : State), fabricMode s.gen.mode = true → s.tw.mig.role = 1 → s.tw.mig.phase = 5 → count = s.tw.mig.nsids.length → ∃ t,
      exec (.cutack count) s = .next t ∧ Only (places [posting] [.ns, .tw, .dg, .prov, .reg Reg.TW_ERR.CUTUNK]) s t ∧ t.tw.mig.phase = 6 ∧
      t.prov.migMark = 0 ∧ t = sourceDone s) ∧
  (∀ (count : Nat) (s : State), (fabricMode s.gen.mode = false ∨ s.tw.mig.role ≠ 1 ∨ s.tw.mig.phase ≠ 5 ∨ count ≠ s.tw.mig.nsids.length) →
      exec (.cutack count) s = .next s) ∧
  (∀ (cause : Nat) (s : State), fabricMode s.gen.mode = true → (canAbort s = true ∨ (s.tw.mig.role = 2 ∧ s.tw.mig.phase = 5)) → ∃ t,
      exec (.migrationAbortMessage cause) s = .next t ∧ Only (places [posting, logging, disarming] [.gen, .mx, .ns, .mm, .bp, .tw, .dg,
      .nand, .ff, .prov, .reg Reg.MX_ERR.CEILHOLD]) s t ∧ t.tw.mig.phase = 7 ∧ t = abortSession s) ∧
  (∀ (cause : Nat) (s : State), (fabricMode s.gen.mode = false ∨ ¬ (canAbort s = true ∨ (s.tw.mig.role = 2 ∧ s.tw.mig.phase = 5))) →
      exec (.migrationAbortMessage cause) s = .next s) ∧
  (∀ (downMs : Nat) (s : State), fabricMode s.gen.mode = true → 2000 < downMs → canAbort s = true → ∃ t,
      exec (.migrationRouteTimeout downMs) s = .next t ∧ Only (places [posting, logging, disarming] [.gen, .mx, .ns, .mm, .bp, .tw, .dg,
      .nand, .ff, .prov, .reg Reg.MX_ERR.CEILHOLD]) s t ∧ t.tw.mig.phase = 7 ∧ t = abortSession s) ∧
  (∀ (downMs : Nat) (s : State), (fabricMode s.gen.mode = false ∨ downMs ≤ 2000 ∨ canAbort s = false) →
      exec (.migrationRouteTimeout downMs) s = .next s) ∧
  (∀ (vc stream : Nat) (s : State), fabricMode s.gen.mode = true → (vc = 1 ∨ vc = 2) → ∃ t, exec (.stop vc stream) s = .next t ∧
      Only [.tw] s t ∧ t = updTw (fun t => { t with stopped := addOnce t.stopped vc }) s) ∧
  (∀ (vc stream : Nat) (s : State), (fabricMode s.gen.mode = false ∨ (vc ≠ 1 ∧ vc ≠ 2)) → exec (.stop vc stream) s = .next s) ∧
  (∀ (src : Nat) (idOk : Bool) (descs : List NsDesc) (s : State), (fabricMode s.gen.mode = false) → exec (.migstart src idOk descs) s =
      .next s) ∧
  (∀ (nsid seg pass theirs : Nat) (flip : Option (Fin 64)) (s : State), fabricMode s.gen.mode = true → standbyOn s = true → s.tw.st =
      .seeding → ∃ t, exec (.segdig nsid seg pass theirs flip) s = .next t ∧ Only (places [logging, revoking, windowLog,
      sending] [.tw]) s t ∧ t = seedCompared nsid seg pass ((theirs == segDigest nsid seg s) && flip.isNone) s) ∧
  (∀ (nsid seg pass result : Nat) (s : State), fabricMode s.gen.mode = true → s.tw.active = true → s.tw.st = .seeding →
      s.tw.seedFly.contains (nsid, seg) = true → ∃ t, exec (.segres nsid seg pass result) s = .next t ∧ Only (places [posting, logging,
      revoking, windowLog, sending, disarming] [.gen, .mx, .ns, .mm, .tw, .dg, .nand, .ff, .prov, .reg Reg.MX_ERR.CEILHOLD,
      .reg Reg.TW_ERR.DIGEST]) s t ∧ t = seedAnswered nsid seg result s) ∧
  (∀ (nsid seg pass result : Nat) (s : State), (fabricMode s.gen.mode = false ∨ ((s.tw.active = false ∨ s.tw.st ≠ .seeding ∨
      s.tw.seedFly.contains (nsid, seg) = false) ∧ (sourcing s = false ∨ s.tw.mig.flying.contains (nsid, seg) = false))) →
      exec (.segres nsid seg pass result) s = .next s) ∧
  (∀ (s : State), fabricMode s.gen.mode = true → sourcing s = true → s.tw.mig.todo = [] → s.tw.mig.flying = [] → s.tw.mig.phase = 3 →
      (s.tw.mig.auto = true ∧ s.tw.mig.dirty.length ≤ getF Reg.TW_MIGCFG.CUTSEGS s) → ∃ t, exec .dirtyPassEnd s = .next t ∧
      Only (places [logging, revoking, windowLog, sending] [.ns, .tw, .prov]) s t ∧ t = nextPass 4 (sealSession s)) ∧
  (∀ (s : State), fabricMode s.gen.mode = true → sourcing s = true → s.tw.mig.todo = [] → s.tw.mig.flying = [] → s.tw.mig.phase = 3 →
      ¬ (s.tw.mig.auto = true ∧ s.tw.mig.dirty.length ≤ getF Reg.TW_MIGCFG.CUTSEGS s) → ∃ t, exec .dirtyPassEnd s = .next t ∧
      Only (places [logging, revoking, windowLog, sending] [.ns, .tw, .prov]) s t ∧ t.tw.mig =
      { s.tw.mig with phase := 3, pass := Nat.min (s.tw.mig.pass + 1) 255, todo := s.tw.mig.dirty } ∧ t = nextPass 3 s) ∧
  (∀ (s : State), fabricMode s.gen.mode = true → sourcing s = true → s.tw.mig.todo = [] → s.tw.mig.flying = [] → s.tw.mig.phase = 4 →
      s.tw.mig.dirty ≠ [] → ∃ t, exec .dirtyPassEnd s = .next t ∧ Only (places [logging, revoking, windowLog, sending] [.ns, .tw,
      .prov]) s t ∧ t.tw.mig = { s.tw.mig with phase := 4, pass := Nat.min (s.tw.mig.pass + 1) 255, todo := s.tw.mig.dirty } ∧ t =
      nextPass 4 s) ∧
  (∀ (s : State), fabricMode s.gen.mode = true → sourcing s = true → s.tw.mig.todo = [] → s.tw.mig.flying = [] → s.tw.mig.phase = 4 →
      s.tw.mig.dirty = [] → (s.cmds.any (fun c => s.tw.mig.nsids.contains c.nsid && uncommitted c) = true ∨ allMatched s = false) → ∃ t,
      exec .dirtyPassEnd s = .next t ∧ Only (places [logging, revoking, windowLog, sending] [.ns, .tw, .prov]) s t ∧ t = s) ∧
  (∀ (nsid sealCsn nguid eui : Nat) (last : Bool) (s : State), s.tw.mig.role = 2 → 2 ≤ s.tw.mig.phase → s.tw.mig.phase ≤ 5 → s.gen.mode =
      .ingest → s.tw.mig.nsids.contains nsid = true → (last = true ∧
      s.tw.mig.nsids.all (fun n => (addOnce s.tw.mig.cutDone nsid).contains n) = true) → ∃ t,
      exec (.cutover nsid sealCsn nguid eui last) s = .next t ∧ Only (places [posting, logging, revoking, windowLog, sending,
      disarming] [.gen, .mx, .ns, .mm, .tw, .dg, .nand, .prov, .reg Reg.MX_ERR.CEILHOLD]) s t ∧ t =
      sinkDone (raiseCsn sealCsn (updMig (fun m => { m with phase := 5, cutDone := addOnce m.cutDone nsid }) (setNs nsid (fun n => { n with nguid := nguid, eui := eui, ingesting := false }) s))))

/-- Digest contexts, the audit, trust and the generator. Rules: R345, R346, R347, R352, R353, R355, R359, R361, R49. -/
def Obligations.DigestAndTrust : Prop :=
  (∀ (p : DigestParams) (i : Nat) (s : State), freeCtx s = some i → snoopRefused p s = false →
      lanesBusy (updCtx i (fun _ => { Ctx.closed with params := some p, started := s.dg.nextStart }) s) < s.dg.active → ∃ t,
      exec (.digestContextOpen p) s = .next t ∧ Only (places [revoking] [.dg]) s t ∧ t.dg.nextStart = s.dg.nextStart + 1 ∧ t =
      fitSlots (updCtx i (fun c => { c with st := 2 }) ({ (updCtx i (fun _ => { Ctx.closed with params := some p, started := s.dg.nextStart }) s) with dg := { (updCtx i (fun _ => { Ctx.closed with params := some p, started := s.dg.nextStart }) s).dg with nextStart := s.dg.nextStart + 1 } }))) ∧
  (∀ (p : DigestParams) (s : State), (freeCtx s = none ∨ snoopRefused p s = true) → exec (.digestContextOpen p) s = .next s) ∧
  (∀ (ctx : Fin 64) (unwrapOk : Bool) (s : State), (getCtx ctx.val s).saving = true → ∃ t, exec (.digestSaveDone ctx unwrapOk) s = .next t ∧
      Only (places [revoking] [.dg, .reg Reg.DG_PREEMPT.COUNT, .reg Reg.DG_PREEMPT.WRAPPED, .reg Reg.DG_ERR.UNWRAP]) s t ∧
      getF Reg.DG_PREEMPT.COUNT t = Nat.min (getF Reg.DG_PREEMPT.COUNT s + 1) (2 ^ Reg.DG_PREEMPT.COUNT.width - 1) ∧ t =
      (let u := dgQueue ctx.val (dgFill 1 (updCtx ctx.val (fun c => { c with st := 3, saving := false, kctxGen := s.dg.kctxGen }) (if keyed (getCtx ctx.val s) then bump Reg.DG_PREEMPT.WRAPPED (bump Reg.DG_PREEMPT.COUNT s) else bump Reg.DG_PREEMPT.COUNT s)));
      dgFill u.dg.queue.length u)) ∧
  (∀ (ctx : Fin 64) (unwrapOk : Bool) (s : State), (getCtx ctx.val s).saving = false → keyed (getCtx ctx.val s) = true → unwrapOk = false →
      ((getCtx ctx.val s).st = 2 ∨ (getCtx ctx.val s).st = 3) → ∃ t, exec (.digestSaveDone ctx unwrapOk) s = .next t ∧
      Only (places [revoking] [.dg, .reg Reg.DG_PREEMPT.COUNT, .reg Reg.DG_PREEMPT.WRAPPED, .reg Reg.DG_ERR.UNWRAP]) s t ∧
      isOn Reg.DG_ERR.UNWRAP t = true ∧ t = dgFail [ctx.val] 4 (flagOn Reg.DG_ERR.UNWRAP s)) ∧
  (∀ (ctx : Fin 64) (unwrapOk : Bool) (s : State), (getCtx ctx.val s).saving = false → (keyed (getCtx ctx.val s) = false ∨ unwrapOk = true ∨
      ((getCtx ctx.val s).st ≠ 2 ∧ (getCtx ctx.val s).st ≠ 3)) → exec (.digestSaveDone ctx unwrapOk) s = .next s) ∧
  (∀ (ctx : Fin 64) (block : List Byte) (poisoned last : Bool) (p : DigestParams) (s : State), (getCtx ctx.val s).params = some p →
      (getCtx ctx.val s).st = 2 → (getCtx ctx.val s).saving = false → poisoned = false → block.length = 128 → (last = true →
      p.blocks ≤ (getCtx ctx.val s).done + 1) → (getCtx ctx.val s).done + 1 < p.blocks → ∃ t,
      exec (.digestBlock ctx block poisoned last) s = .next t ∧ Only (places [logging, revoking, Machine.poisoned] [.mx, .mm, .dg,
      .reg Reg.DG_LENERR.LEN, .reg Reg.DG_LENERR.PAD, .reg Reg.DG_AUDSTAT.DONE, .reg Reg.DG_AUDSTAT.MISMATCH, .reg Reg.DG_ERR.LENGTH,
      .reg Reg.DG_ERR.PADDING, .reg Reg.DG_ERR.AUDITMIS]) s t ∧ t =
      updCtx ctx.val (fun c => { c with done := c.done + 1, fed := (getCtx ctx.val s).fed ++ block }) s) ∧
  (∀ (ctx : Fin 64) (block : List Byte) (poisoned last : Bool) (p : DigestParams) (s : State), (getCtx ctx.val s).params = some p →
      (getCtx ctx.val s).st = 2 → (getCtx ctx.val s).saving = false → poisoned = false → (block.length ≠ 128 ∨ (last = true ∧
      (getCtx ctx.val s).done + 1 < p.blocks) ∨ p.blocks < (getCtx ctx.val s).done + 1) → ∃ t,
      exec (.digestBlock ctx block poisoned last) s = .next t ∧ Only (places [logging, revoking, Machine.poisoned] [.mx, .mm, .dg,
      .reg Reg.DG_LENERR.LEN, .reg Reg.DG_LENERR.PAD, .reg Reg.DG_AUDSTAT.DONE, .reg Reg.DG_AUDSTAT.MISMATCH, .reg Reg.DG_ERR.LENGTH,
      .reg Reg.DG_ERR.PADDING, .reg Reg.DG_ERR.AUDITMIS]) s t ∧ isOn Reg.DG_ERR.LENGTH t = true ∧ t = lengthFail ctx.val s) ∧
  (∀ (ctx : Fin 64) (block : List Byte) (poisoned last : Bool) (p : DigestParams) (s : State), (getCtx ctx.val s).params = some p →
      (getCtx ctx.val s).st = 2 → (getCtx ctx.val s).saving = false → poisoned = true → ∃ t, exec (.digestBlock ctx block poisoned last) s =
      .next t ∧ Only (places [logging, revoking, Machine.poisoned] [.mx, .mm, .dg, .reg Reg.DG_LENERR.LEN, .reg Reg.DG_LENERR.PAD,
      .reg Reg.DG_AUDSTAT.DONE, .reg Reg.DG_AUDSTAT.MISMATCH, .reg Reg.DG_ERR.LENGTH, .reg Reg.DG_ERR.PADDING,
      .reg Reg.DG_ERR.AUDITMIS]) s t ∧ t = dgFail [ctx.val] 3 (poisonConsumed 0 s)) ∧
  (∀ (ctx : Fin 64) (block : List Byte) (poisoned last : Bool) (s : State), ((getCtx ctx.val s).params = none ∨ ((getCtx ctx.val s).st ≠ 4 ∧
      ((getCtx ctx.val s).st ≠ 2 ∨ (getCtx ctx.val s).saving = true))) → exec (.digestBlock ctx block poisoned last) s = .next s) ∧
  (∀ (who : Writer) (s : State), setupOpen who s = true → mayWrite who Reg.DG_AUDCTL.START.reg s = true → s.dg.audit = none →
      isOn Reg.DG_AUDCTL.EN s = true → backgroundMode s.gen.mode = true → (s.mm.barrels.filter (fun b => b.state == 1)) ≠ [] → ∃ t,
      exec (.auditStart who) s = .next t ∧ Only (places [turnedAway] [.dg, .reg Reg.DG_AUDSTAT.DONE]) s t ∧ t.dg.audit =
      some ((s.mm.barrels.filter (fun b => b.state == 1)).map (·.num)) ∧ t.dg.auditAgain = false ∧ getF Reg.DG_AUDSTAT.DONE t = 0 ∧
      t.dg.barrelDigests = s.dg.barrelDigests ∧ t = startAudit s) ∧
  (∀ (who : Writer) (s : State), setupOpen who s = true → mayWrite who Reg.DG_AUDCTL.START.reg s = false → exec (.auditStart who) s =
      .next (genErr Reg.GEN_ERR.OWNWR Reg.DG_AUDCTL.START.reg who s)) ∧
  (∀ (s : State), getF Reg.DG_AUDCTL.PERIOD s ≠ 0 → ∃ t, exec .auditPeriodTimer s = .next t ∧ Only [.dg, .reg Reg.DG_AUDSTAT.DONE] s t ∧ t =
      startAudit s) ∧
  (∀ (s : State), getF Reg.DG_AUDCTL.PERIOD s = 0 → exec .auditPeriodTimer s = .next s) ∧
  (∀ (who : Writer) (i : SlotImage) (s : State), who ≠ .host → setupOpen who s = true → mayWrite who Reg.DG_SEC.ADVANCE.reg s = true →
      s.dg.runImg = some i → ∃ t, exec (.dgSecAdvance who) s = .next t ∧ Only (places [turnedAway] [.fuses]) s t ∧ t.fuses.arb =
      Nat.max s.fuses.arb i.svn ∧ t.fuses.uid = s.fuses.uid ∧ t.fuses.owners = s.fuses.owners ∧ t = raiseArb s) ∧
  (∀ (who : Writer) (s : State), setupOpen who s = true → (who = .host ∨ mayWrite who Reg.DG_SEC.ADVANCE.reg s = false) →
      exec (.dgSecAdvance who) s = .next (genErr Reg.GEN_ERR.OWNWR Reg.DG_SEC.ADVANCE.reg who s)) ∧
  (∀ (s : State), ∃ t, exec .rngHealthFailure s = .next t ∧ Only [.reg Reg.DG_RNG.HEALTH, .reg Reg.DG_RNG.FAILS, .reg Reg.DG_ERR.RNG] s t ∧
      isOn Reg.DG_ERR.RNG t = true ∧ isOn Reg.DG_RNG.HEALTH t = false ∧ getF Reg.DG_RNG.FAILS t = Nat.min (getF Reg.DG_RNG.FAILS s +
      1) (2 ^ Reg.DG_RNG.FAILS.width - 1)) ∧
  (∀ (s : State), s.nsWait = [] → s.sh.sanState = 0 → s.dg.spdmWait = [] → ∃ t, exec .rngHealthRestored s = .next t ∧ Only (places [posting,
      logging, revoking, windowLog, sending, disarming] [.freeCtr, .gen, .sh, .mx, .ns, .nsWait, .mm, .dg, .nand, .ff, .prov,
      .reg Reg.MM_ERR.SHORTCLOSE, .reg Reg.DG_RNG.HEALTH, .reg Reg.DG_RNG.RESEEDS, .reg Reg.DG_ERR.RNG]) s t ∧ isOn Reg.DG_RNG.HEALTH t =
      true) ∧
  (∀ (who : Writer) (s : State), setupOpen who s = true → mayWrite who Reg.EC_MAXCORR.CLR.reg s = true → ∃ t, exec (.ecMaxcorrClr who) s =
      .next t ∧ Only (places [turnedAway] [.reg Reg.EC_MAXCORR.MAX]) s t ∧ getF Reg.EC_MAXCORR.MAX t = 0 ∧ t = setF Reg.EC_MAXCORR.MAX 0 s) ∧
  (∀ (who : Writer) (s : State), setupOpen who s = true → mayWrite who Reg.EC_MAXCORR.CLR.reg s = false → exec (.ecMaxcorrClr who) s =
      .next (genErr Reg.GEN_ERR.OWNWR Reg.EC_MAXCORR.CLR.reg who s)) ∧
  (∀ (who : Writer) (index : Nat) (e : Subst) (s : State), setupOpen who s = true → mayWrite who Reg.SP_SUBSEL.INDEX.reg s = true →
      index < 256 → s.sp.subst[index]? = some e → ∃ t, exec (.spSubselWrite who index) s = .next t ∧
      Only (places [turnedAway] [.reg Reg.SP_SUBSEL.INDEX, .reg Reg.SP_SUBDATA0.FROM, .reg Reg.SP_SUBDATA0.TO, .reg Reg.SP_SUBDATA1.GROUP,
      .reg Reg.SP_SUBDATA1.STATE, .reg Reg.SP_SUBDATA1.NEXTROW]) s t ∧ getF Reg.SP_SUBSEL.INDEX t = index % 2 ^ Reg.SP_SUBSEL.INDEX.width ∧
      getF Reg.SP_SUBDATA0.FROM t = e.src % 2 ^ Reg.SP_SUBDATA0.FROM.width ∧ getF Reg.SP_SUBDATA0.TO t =
      e.dst % 2 ^ Reg.SP_SUBDATA0.TO.width ∧ getF Reg.SP_SUBDATA1.GROUP t = e.group % 2 ^ Reg.SP_SUBDATA1.GROUP.width ∧
      getF Reg.SP_SUBDATA1.STATE t = e.state % 2 ^ Reg.SP_SUBDATA1.STATE.width ∧ getF Reg.SP_SUBDATA1.NEXTROW t =
      e.nextRow % 2 ^ Reg.SP_SUBDATA1.NEXTROW.width) ∧
  (∀ (who : Writer) (index : Nat) (s : State), setupOpen who s = true → mayWrite who Reg.SP_SUBSEL.INDEX.reg s = false →
      exec (.spSubselWrite who index) s = .next (genErr Reg.GEN_ERR.OWNWR Reg.SP_SUBSEL.INDEX.reg who s)) ∧
  (∀ (p : DigestParams) (i : Nat) (s : State), freeCtx s = some i → snoopRefused p s = false → ∃ t, exec (.digestContextOpen p) s =
      .next t ∧ Only (places [revoking] [.dg]) s t ∧ t =
      fitSlots (takeLane i p ({ (updCtx i (fun _ => { Ctx.closed with params := some p, started := s.dg.nextStart }) s) with dg := { (updCtx i (fun _ => { Ctx.closed with params := some p, started := s.dg.nextStart }) s).dg with nextStart := s.dg.nextStart + 1 } }))) ∧
  (∀ (ctx : Fin 64) (block : List Byte) (poisoned last : Bool) (p : DigestParams) (s : State), (getCtx ctx.val s).params = some p →
      (getCtx ctx.val s).st = 2 → (getCtx ctx.val s).saving = false → poisoned = false → block.length = 128 → (getCtx ctx.val s).done + 1 =
      p.blocks → ∃ t, exec (.digestBlock ctx block poisoned last) s = .next t ∧ Only (places [logging, revoking, Machine.poisoned] [.mx,
      .mm, .dg, .reg Reg.DG_LENERR.LEN, .reg Reg.DG_LENERR.PAD, .reg Reg.DG_AUDSTAT.DONE, .reg Reg.DG_AUDSTAT.MISMATCH,
      .reg Reg.DG_ERR.LENGTH, .reg Reg.DG_ERR.PADDING, .reg Reg.DG_ERR.AUDITMIS]) s t ∧ t = finishCtx ctx.val p ((getCtx ctx.val s).fed ++
      block) (updCtx ctx.val (fun c => { c with done := c.done + 1, fed := (getCtx ctx.val s).fed ++ block }) s)) ∧
  (∀ (ctx : Fin 64) (block : List Byte) (poisoned last : Bool) (p : DigestParams) (s : State), (getCtx ctx.val s).params = some p →
      (getCtx ctx.val s).st = 4 → ∃ t, exec (.digestBlock ctx block poisoned last) s = .next t ∧ Only (places [logging, revoking,
      Machine.poisoned] [.mx, .mm, .dg, .reg Reg.DG_LENERR.LEN, .reg Reg.DG_LENERR.PAD, .reg Reg.DG_AUDSTAT.DONE,
      .reg Reg.DG_AUDSTAT.MISMATCH, .reg Reg.DG_ERR.LENGTH, .reg Reg.DG_ERR.PADDING, .reg Reg.DG_ERR.AUDITMIS]) s t ∧ t =
      lengthFail ctx.val s) ∧
  (∀ (who : Writer) (s : State), setupOpen who s = true → mayWrite who Reg.DG_AUDCTL.START.reg s = true → ∃ t, exec (.auditStart who) s =
      .next t ∧ Only (places [turnedAway] [.dg, .reg Reg.DG_AUDSTAT.DONE]) s t ∧ t = startAudit s) ∧
  (∀ (who : Writer) (s : State), setupOpen who s = false → exec (.auditStart who) s = .next s) ∧
  (∀ (who : Writer) (s : State), who ≠ .host → setupOpen who s = true → mayWrite who Reg.DG_SEC.ADVANCE.reg s = true → ∃ t,
      exec (.dgSecAdvance who) s = .next t ∧ Only (places [turnedAway] [.fuses]) s t ∧ t = raiseArb s) ∧
  (∀ (who : Writer) (s : State), setupOpen who s = false → exec (.dgSecAdvance who) s = .next s) ∧
  (∀ (who : Writer) (s : State), setupOpen who s = false → exec (.ecMaxcorrClr who) s = .next s) ∧
  (∀ (who : Writer) (index : Nat) (s : State), setupOpen who s = false → exec (.spSubselWrite who index) s = .next s) ∧
  (∀ (s : State), ∃ t, exec .rngHealthRestored s = .next t ∧ Only (places [posting, logging, revoking, windowLog, sending,
      disarming] [.freeCtr, .gen, .sh, .mx, .ns, .nsWait, .mm, .dg, .nand, .ff, .prov, .reg Reg.MM_ERR.SHORTCLOSE, .reg Reg.DG_RNG.HEALTH,
      .reg Reg.DG_RNG.RESEEDS, .reg Reg.DG_ERR.RNG]) s t ∧ t = spdmServe (settleSanitize (settleNs (flagOn Reg.DG_RNG.HEALTH s)))) ∧
  (∀ (who : Writer) (index : Nat) (s : State), setupOpen who s = true → mayWrite who Reg.SP_SUBSEL.INDEX.reg s = true → ∃ t,
      exec (.spSubselWrite who index) s = .next t ∧ Only (places [turnedAway] [.reg Reg.SP_SUBSEL.INDEX, .reg Reg.SP_SUBDATA0.FROM,
      .reg Reg.SP_SUBDATA0.TO, .reg Reg.SP_SUBDATA1.GROUP, .reg Reg.SP_SUBDATA1.STATE, .reg Reg.SP_SUBDATA1.NEXTROW]) s t ∧ t =
      latchSubst (index % 256) (setF Reg.SP_SUBSEL.INDEX index s))

/-- Monitoring, the event log and the firmware flash. Rules: R368, R372, R374, R375, R376, R377, R379, R380, R320, R49. -/
def Obligations.ManagementAndFlash : Prop :=
  (∀ (x : SensorSample) (s : State), s.gen.mode ≠ .reset → s.mg.run = false → ∃ t, exec (.sensorSample x) s = .next t ∧ Only [.out, .eff,
      .pins, .gen, .he, .ctl, .sh, .defFaults, .lost, .cmds, .nextCmd, .fs, .mx, .ns, .nsWait, .mm, .sp, .cs, .bp, .me, .gf, .tw, .dg, .mg,
      .fi, .nand, .prov, .win 0x80000 0x100000, .win 0x88000 0xF0000] s t ∧ t =
      applyHardware x (setF Reg.MG_HUSTAT.VOLT (x.volts.getD 15 0) { s with mg := { s.mg with sample := x }, sh := { s.sh with compTempK := compositeK x } })) ∧
  (∀ (x : SensorSample) (s : State), s.gen.mode ≠ .reset → s.mg.run = true → ∃ t, exec (.sensorSample x) s = .next t ∧ Only [.out, .eff,
      .pins, .gen, .he, .ctl, .sh, .defFaults, .lost, .cmds, .nextCmd, .fs, .mx, .ns, .nsWait, .mm, .sp, .cs, .bp, .me, .gf, .tw, .dg, .mg,
      .fi, .nand, .prov, .win 0x80000 0x100000, .win 0x88000 0xF0000] s t ∧ t =
      applyHardware x (applySupplyWarn x (applyHostTemp x (applyLevels x (setF Reg.MG_HUSTAT.VOLT (x.volts.getD 15 0) { s with mg := { s.mg with sample := x }, sh := { s.sh with compTempK := compositeK x } }))))) ∧
  (∀ (x : SensorSample) (s : State), s.gen.mode = .reset → exec (.sensorSample x) s = .next s) ∧
  (∀ (count : Nat) (s : State), s.gen.mode ≠ .reset → s.mg.run = true → s.mg.droppedNow = 0 →
      0 < Nat.min (Nat.min count (logBudget s)) s.mg.pend.length → ∃ t, exec (.eventLogFlush count) s = .next t ∧ Only [.mg, .ff,
      .reg Reg.MG_LOGSTAT.PFULL] s t ∧ t.mg.pend = s.mg.pend.drop (Nat.min (Nat.min count (logBudget s)) s.mg.pend.length) ∧ t.mg.wrote =
      s.mg.wrote.filter (fun w => decide (now s < w.1 + 60000000000)) ++ [(now s, Nat.min (Nat.min count (logBudget s)) s.mg.pend.length)]) ∧
  (∀ (count : Nat) (s : State), (s.gen.mode = .reset ∨ s.mg.run = false ∨ Nat.min (Nat.min count (logBudget s - if s.mg.droppedNow =
      0 then 0 else 1)) s.mg.pend.length = 0) → exec (.eventLogFlush count) s = .next s) ∧
  (∀ (s : State), s.gen.mode ≠ .reset → s.mg.run = true → ∃ t, exec .timeMarkWrite s = .next t ∧ Only [.ff] s t ∧ t.ff =
      { s.ff with timeMark := now s }) ∧
  (∀ (s : State), (s.gen.mode = .reset ∨ s.mg.run = false) → exec .timeMarkWrite s = .next s) ∧
  (∀ (who : Writer) (s : State), who = .mgmt → setupOpen who s = true → ∃ t, exec (.mgWdogKick who) s = .next t ∧
      Only (places [turnedAway] [.mg]) s t ∧ t.mg = { s.mg with wdogAt := now s }) ∧
  (∀ (who : Writer) (s : State), who = .host → setupOpen who s = true → exec (.mgWdogKick who) s =
      .next (genErr Reg.GEN_ERR.OWNWR Reg.MG_WDOG.KICK.reg who s)) ∧
  (∀ (who : Writer) (seq : Word) (s : State), setupOpen who s = true → mayWrite who Reg.MG_LOGACK.SEQ.reg s = true → ∃ t,
      exec (.mgLogackWrite who seq) s = .next t ∧ Only (places [turnedAway] [.ff, .reg Reg.MG_LOGSTAT.PFULL]) s t ∧ t.ff.prot =
      s.ff.prot.map (fun e => (e.1, e.2 || ackCovers (s.mg.nextSeq - 1) seq.toNat e.1.seq)) ∧ t.ff.ring = s.ff.ring ∧ t =
      ackProtected seq.toNat s) ∧
  (∀ (who : Writer) (seq : Word) (s : State), setupOpen who s = true → mayWrite who Reg.MG_LOGACK.SEQ.reg s = false →
      exec (.mgLogackWrite who seq) s = .next (genErr Reg.GEN_ERR.OWNWR Reg.MG_LOGACK.SEQ.reg who s)) ∧
  (∀ (who : Writer) (s : State), who = .mgmt → setupOpen who s = true → s.ff.busy = none → s.ff.words.any (fun w => w.1 == ffAddr s) =
      true → ∃ t, exec (.ffRead who) s = .next t ∧ Only (places [turnedAway] [.freeCtr, .reg Reg.FF_DATALO.DATA, .reg Reg.FF_DATAHI.DATA,
      .reg Reg.FF_STATUS.RANGE]) s t ∧ getF Reg.FF_DATALO.DATA t = sGet s.ff.words ffOnes (ffAddr s) % 2 ^ 32 ∧ getF Reg.FF_DATAHI.DATA t =
      sGet s.ff.words ffOnes (ffAddr s) / 2 ^ 32 % 2 ^ 32 ∧ t.ff = s.ff) ∧
  (∀ (who : Writer) (s : State), who = .host → setupOpen who s = true → exec (.ffRead who) s =
      .next (genErr Reg.GEN_ERR.OWNWR Reg.FF_CMD.OP.reg who s)) ∧
  (∀ (who : Writer) (s : State), who = .mgmt → setupOpen who s = true → s.ff.busy ≠ none → ∃ t, exec (.ffRead who) s = .next t ∧
      Only (places [turnedAway] [.freeCtr, .reg Reg.FF_DATALO.DATA, .reg Reg.FF_DATAHI.DATA, .reg Reg.FF_STATUS.RANGE]) s t ∧
      isOn Reg.FF_STATUS.RANGE t = true ∧ t.ff = s.ff) ∧
  (∀ (who : Writer) (s : State), who = .mgmt → setupOpen who s = true → s.ff.busy = none → ffProtected (ffAddr s / 4096) s = true → ∃ t,
      exec (.ffProgram who) s = .next t ∧ Only (places [turnedAway] [.freeCtr, .ff, .reg Reg.FF_STATUS.BUSY, .reg Reg.FF_STATUS.NOTERASED,
      .reg Reg.FF_STATUS.PROTECT, .reg Reg.FF_STATUS.RANGE]) s t ∧ isOn Reg.FF_STATUS.PROTECT t = true ∧ t.ff = s.ff) ∧
  (∀ (who : Writer) (s : State), who = .mgmt → setupOpen who s = true → s.ff.busy = none → ffProtected (ffAddr s / 4096) s = false →
      ffWordAt (ffAddr s) s = (ffOnes, s) → ∃ t, exec (.ffProgram who) s = .next t ∧ Only (places [turnedAway] [.freeCtr, .ff,
      .reg Reg.FF_STATUS.BUSY, .reg Reg.FF_STATUS.NOTERASED, .reg Reg.FF_STATUS.PROTECT, .reg Reg.FF_STATUS.RANGE]) s t ∧
      isOn Reg.FF_STATUS.BUSY t = true ∧ t.ff = { s.ff with busy := some (2, ffAddr s, ffData s) }) ∧
  (∀ (who : Writer) (s : State), who = .mgmt → setupOpen who s = true → s.ff.busy = none → ffProtected (ffAddr s / 4096) s = false →
      s.ff.words.any (fun w => w.1 == ffAddr s) = true → sGet s.ff.words ffOnes (ffAddr s) ≠ ffOnes → ∃ t, exec (.ffProgram who) s =
      .next t ∧ Only (places [turnedAway] [.freeCtr, .ff, .reg Reg.FF_STATUS.BUSY, .reg Reg.FF_STATUS.NOTERASED, .reg Reg.FF_STATUS.PROTECT,
      .reg Reg.FF_STATUS.RANGE]) s t ∧ isOn Reg.FF_STATUS.NOTERASED t = true ∧ t.ff = s.ff) ∧
  (∀ (who : Writer) (count : Nat) (s : State), who = .mgmt → setupOpen who s = true → s.ff.busy = none → count = 0 →
      ffProtected (ffAddr s / 4096) s = true → ∃ t, exec (.ffErase who count) s = .next t ∧ Only (places [turnedAway] [.ff,
      .reg Reg.FF_STATUS.BUSY, .reg Reg.FF_STATUS.PROTECT, .reg Reg.FF_STATUS.RANGE]) s t ∧ isOn Reg.FF_STATUS.PROTECT t = true ∧ t.ff =
      s.ff) ∧
  (∀ (who : Writer) (count : Nat) (s : State), who = .mgmt → setupOpen who s = true → s.ff.busy = none → count = 0 →
      ffProtected (ffAddr s / 4096) s = false → ∃ t, exec (.ffErase who count) s = .next t ∧ Only (places [turnedAway] [.ff,
      .reg Reg.FF_STATUS.BUSY, .reg Reg.FF_STATUS.PROTECT, .reg Reg.FF_STATUS.RANGE]) s t ∧ isOn Reg.FF_STATUS.BUSY t = true ∧ t.ff.busy =
      some (3, ffAddr s / 4096, 1) ∧ t.ff.words = s.ff.words ∧ t.ff.erases = s.ff.erases) ∧
  (∀ (who : Writer) (s : State), who = .mgmt → setupOpen who s = true → s.ff.busy = none → ∃ t, exec (.ffReadhdr who) s = .next t ∧
      Only (places [turnedAway] [.freeCtr, .reg Reg.FF_DATALO.DATA, .reg Reg.FF_DATAHI.DATA, .reg Reg.FF_STATUS.RANGE]) s t ∧ t =
      ffShow (Config.freeValue s.freeCtr % 2 ^ 64) (tickFree s) ∧ t.ff = s.ff) ∧
  (∀ (who : Writer) (s : State), who = .host → setupOpen who s = true → exec (.ffReadhdr who) s =
      .next (genErr Reg.GEN_ERR.OWNWR Reg.FF_CMD.OP.reg who s)) ∧
  (∀ (ok : Bool) (a x : Nat) (s : State), s.ff.busy = some (2, a, x) → ok = true → ∃ t, exec (.ffOperationDone ok) s = .next t ∧
      Only [.freeCtr, .ff, .reg Reg.FF_STATUS.BUSY, .reg Reg.FF_STATUS.PROGFAIL, .reg Reg.FF_STATUS.ERASEFAIL, .reg Reg.MG_ERR.WEAR] s t ∧
      t.ff = { s.ff with busy := none, words := sPut s.ff.words ffOnes a x } ∧ isOn Reg.FF_STATUS.BUSY t = false) ∧
  (∀ (ok : Bool) (a x : Nat) (s : State), s.ff.busy = some (2, a, x) → ok = false → ∃ t, exec (.ffOperationDone ok) s = .next t ∧
      Only [.freeCtr, .ff, .reg Reg.FF_STATUS.BUSY, .reg Reg.FF_STATUS.PROGFAIL, .reg Reg.FF_STATUS.ERASEFAIL, .reg Reg.MG_ERR.WEAR] s t ∧
      t.ff.words = sPut s.ff.words ffOnes a (Config.freeValue s.freeCtr % 2 ^ 64) ∧ isOn Reg.FF_STATUS.PROGFAIL t = true) ∧
  (∀ (ok : Bool) (a x n : Nat) (s : State), s.ff.busy = some (n, a, x) → n ≠ 2 → ok = false → ∃ t, exec (.ffOperationDone ok) s = .next t ∧
      Only [.freeCtr, .ff, .reg Reg.FF_STATUS.BUSY, .reg Reg.FF_STATUS.PROGFAIL, .reg Reg.FF_STATUS.ERASEFAIL, .reg Reg.MG_ERR.WEAR] s t ∧
      t.ff = { s.ff with busy := none } ∧ isOn Reg.FF_STATUS.ERASEFAIL t = true ∧ isOn Reg.FF_STATUS.BUSY t = false) ∧
  (∀ (ok : Bool) (s : State), s.ff.busy = none → exec (.ffOperationDone ok) s = .next s) ∧
  (∀ (count n : Nat) (s : State), s.gen.mode ≠ .reset → s.mg.run = true → n = Nat.min (Nat.min count (logBudget s - if s.mg.droppedNow =
      0 then 0 else 1)) s.mg.pend.length → n ≠ 0 → ∃ t, exec (.eventLogFlush count) s = .next t ∧ Only [.mg, .ff,
      .reg Reg.MG_LOGSTAT.PFULL] s t ∧ t = (let u := flushLog n s;
      { u with mg := { u.mg with wrote := (u.mg.wrote.filter (fun w => decide (now u < w.1 + 60000000000))) ++ [(now u, n + if s.mg.droppedNow = 0 then 0 else 1)] } })) ∧
  (∀ (who : Writer) (s : State), setupOpen who s = false → exec (.mgWdogKick who) s = .next s) ∧
  (∀ (who : Writer) (seq : Word) (s : State), setupOpen who s = false → exec (.mgLogackWrite who seq) s = .next s) ∧
  (∀ (who : Writer) (s : State), who ≠ .host → setupOpen who s = true → s.ff.busy = none → ∃ t, exec (.ffRead who) s = .next t ∧
      Only (places [turnedAway] [.freeCtr, .reg Reg.FF_DATALO.DATA, .reg Reg.FF_DATAHI.DATA, .reg Reg.FF_STATUS.RANGE]) s t ∧ t =
      ffShow (ffWordAt (ffAddr s) s).1 (ffWordAt (ffAddr s) s).2) ∧
  (∀ (who : Writer) (s : State), who ≠ .host → setupOpen who s = true → s.ff.busy.isSome = true → ∃ t, exec (.ffRead who) s = .next t ∧
      Only (places [turnedAway] [.freeCtr, .reg Reg.FF_DATALO.DATA, .reg Reg.FF_DATAHI.DATA, .reg Reg.FF_STATUS.RANGE]) s t ∧
      isOn Reg.FF_STATUS.RANGE t = true ∧ t.ff = s.ff ∧ t = flagOn Reg.FF_STATUS.RANGE s) ∧
  (∀ (who : Writer) (s : State), setupOpen who s = false → exec (.ffRead who) s = .next s) ∧
  (∀ (who : Writer) (s : State), who ≠ .host → setupOpen who s = true → s.ff.busy = none → ∃ t, exec (.ffProgram who) s = .next t ∧
      Only (places [turnedAway] [.freeCtr, .ff, .reg Reg.FF_STATUS.BUSY, .reg Reg.FF_STATUS.NOTERASED, .reg Reg.FF_STATUS.PROTECT,
      .reg Reg.FF_STATUS.RANGE]) s t ∧ t =
      (if ffProtected (ffAddr s / 4096) s then flagOn Reg.FF_STATUS.PROTECT s else let r := ffWordAt (ffAddr s) s;
      if r.1 ≠ ffOnes then flagOn Reg.FF_STATUS.NOTERASED r.2 else flagOn Reg.FF_STATUS.BUSY { r.2 with ff := { r.2.ff with busy := some (2, ffAddr s, ffData s) } })) ∧
  (∀ (who : Writer) (s : State), who ≠ .host → setupOpen who s = true → s.ff.busy.isSome = true → ∃ t, exec (.ffProgram who) s = .next t ∧
      Only (places [turnedAway] [.freeCtr, .ff, .reg Reg.FF_STATUS.BUSY, .reg Reg.FF_STATUS.NOTERASED, .reg Reg.FF_STATUS.PROTECT,
      .reg Reg.FF_STATUS.RANGE]) s t ∧ isOn Reg.FF_STATUS.RANGE t = true ∧ t.ff = s.ff ∧ t = flagOn Reg.FF_STATUS.RANGE s) ∧
  (∀ (who : Writer) (s : State), setupOpen who s = false → exec (.ffProgram who) s = .next s) ∧
  (∀ (who : Writer) (s : State), who = .host → setupOpen who s = true → exec (.ffProgram who) s =
      .next (genErr Reg.GEN_ERR.OWNWR Reg.FF_CMD.OP.reg who s)) ∧
  (∀ (who : Writer) (count : Nat) (s : State), who ≠ .host → setupOpen who s = true → s.ff.busy = none → ∃ t, exec (.ffErase who count) s =
      .next t ∧ Only (places [turnedAway] [.ff, .reg Reg.FF_STATUS.BUSY, .reg Reg.FF_STATUS.PROTECT, .reg Reg.FF_STATUS.RANGE]) s t ∧ t =
      (let sec := ffAddr s / 4096; let n := count % 4 + 1; let secs := (List.range n).map (sec + ·); if sec / 8192 ≠ (sec +
      n - 1) / 8192 then flagOn Reg.FF_STATUS.RANGE s else if secs.any (fun x => ffProtected x s) then flagOn Reg.FF_STATUS.PROTECT s else flagOn Reg.FF_STATUS.BUSY { s with ff := { s.ff with busy := some (3, sec, n), half := s.ff.half.filter (fun h => !secs.contains h.1) ++ secs.map (fun x => (x, Nat.min (ffCount x s + 1) 16777215)) } })) ∧
  (∀ (who : Writer) (count : Nat) (s : State), who ≠ .host → setupOpen who s = true → s.ff.busy.isSome = true → ∃ t,
      exec (.ffErase who count) s = .next t ∧ Only (places [turnedAway] [.ff, .reg Reg.FF_STATUS.BUSY, .reg Reg.FF_STATUS.PROTECT,
      .reg Reg.FF_STATUS.RANGE]) s t ∧ isOn Reg.FF_STATUS.RANGE t = true ∧ t.ff = s.ff ∧ t = flagOn Reg.FF_STATUS.RANGE s) ∧
  (∀ (who : Writer) (count : Nat) (s : State), setupOpen who s = false → exec (.ffErase who count) s = .next s) ∧
  (∀ (who : Writer) (count : Nat) (s : State), who = .host → setupOpen who s = true → exec (.ffErase who count) s =
      .next (genErr Reg.GEN_ERR.OWNWR Reg.FF_CMD.OP.reg who s)) ∧
  (∀ (who : Writer) (s : State), who ≠ .host → setupOpen who s = true → s.ff.busy = none → ∃ t, exec (.ffReadhdr who) s = .next t ∧
      Only (places [turnedAway] [.freeCtr, .reg Reg.FF_DATALO.DATA, .reg Reg.FF_DATAHI.DATA, .reg Reg.FF_STATUS.RANGE]) s t ∧ t =
      ffShow (Config.freeValue s.freeCtr % 2 ^ 64) (tickFree s)) ∧
  (∀ (who : Writer) (s : State), who ≠ .host → setupOpen who s = true → s.ff.busy.isSome = true → ∃ t, exec (.ffReadhdr who) s = .next t ∧
      Only (places [turnedAway] [.freeCtr, .reg Reg.FF_DATALO.DATA, .reg Reg.FF_DATAHI.DATA, .reg Reg.FF_STATUS.RANGE]) s t ∧
      isOn Reg.FF_STATUS.RANGE t = true ∧ t.ff = s.ff ∧ t = flagOn Reg.FF_STATUS.RANGE s) ∧
  (∀ (who : Writer) (s : State), setupOpen who s = false → exec (.ffReadhdr who) s = .next s) ∧
  (∀ (ok : Bool) (a x n : Nat) (s : State), s.ff.busy = some (n, a, x) → n ≠ 2 → ok = true → ∃ t, exec (.ffOperationDone ok) s = .next t ∧
      Only [.freeCtr, .ff, .reg Reg.FF_STATUS.BUSY, .reg Reg.FF_STATUS.PROGFAIL, .reg Reg.FF_STATUS.ERASEFAIL, .reg Reg.MG_ERR.WEAR] s t ∧
      t = (List.range x).foldl (fun t i => ffErased (a + i) t) (flagOff Reg.FF_STATUS.BUSY { s with ff := { s.ff with busy := none } }))

/-- NVMe-MI commands. Rules: R386, R387, R373, R374, R418. -/
def Obligations.NvmeMiCommands : Prop :=
  (∀ (dtyp portid cntlid : Nat) (s : State), miMode s = true → dtyp = 0 → ∃ t, exec (.readNvmeMiDataStructure dtyp portid cntlid) s =
      .next t ∧ Only [.out] s t ∧ t = emit (.mi 0 (miSubsystem s)) s) ∧
  (∀ (dtyp portid cntlid : Nat) (s : State), miMode s = true → 5 ≤ dtyp → ∃ t, exec (.readNvmeMiDataStructure dtyp portid cntlid) s =
      .next t ∧ Only [.out] s t ∧ t = emit (.mi 4 []) s) ∧
  (∀ (dtyp portid cntlid : Nat) (s : State), miMode s = false → exec (.readNvmeMiDataStructure dtyp portid cntlid) s = .next s) ∧
  (∀ (clear : Bool) (s : State), miMode s = true → ∃ t, exec (.nvmSubsystemHealthStatusPoll clear) s = .next t ∧ Only [.freeCtr, .out] s t ∧
      t.freeCtr = s.freeCtr + 1 ∧ t.sh = s.sh ∧ t.ctl = s.ctl ∧ (t = emit (.mi 0 ([miNss s, 255 - critWarning s,
      (s.sh.compTempK - 273) % 256, Config.freeValue s.freeCtr % 256] ++ le 2 ((if rdy .a s || rdy .b s then 1 else 0) +
      (if s.ctl.a.cfs || s.ctl.b.cfs then 2 else 0) + (if s.ctl.a.shst = 2 ∨ s.ctl.b.shst = 2 then 4 else 0)) ++ [0, 0])) (tickFree s))) ∧
  (∀ (clear : Bool) (s : State), miMode s = false → exec (.nvmSubsystemHealthStatusPoll clear) s = .next s) ∧
  (∀ (startCtrl maxCount : Nat) (clear : Bool) (s : State), miMode s = true → ∃ t,
      exec (.controllerHealthStatusPoll startCtrl maxCount clear) s = .next t ∧ Only [.freeCtr, .out] s t ∧ t.freeCtr = s.freeCtr + 1 ∧ t =
      emit (.mi 0 ([0, 0, ((miControllers startCtrl s).take (maxCount + 1)).length, 0] ++ ((miControllers startCtrl s).take (maxCount +
      1)).flatMap (fun c => ctrlHealth c (Config.freeValue s.freeCtr % 256) s))) (tickFree s)) ∧
  (∀ (startCtrl maxCount : Nat) (clear : Bool) (s : State), miMode s = false →
      exec (.controllerHealthStatusPoll startCtrl maxCount clear) s = .next s) ∧
  (∀ (cfg transport : Nat) (s : State), miMode s = true → cfg = 3 → transport ≤ 1 → ∃ t, exec (.configurationGet cfg transport) s =
      .next t ∧ Only [.out] s t ∧ t = emit (.mi 0 (le 2 (s.mg.mtu.getD transport 64))) s) ∧
  (∀ (cfg transport : Nat) (s : State), miMode s = true → (1 < transport ∨ (cfg ≠ 1 ∧ cfg ≠ 3)) → ∃ t,
      exec (.configurationGet cfg transport) s = .next t ∧ Only [.out] s t ∧ t = emit (.mi 4 []) s) ∧
  (∀ (cfg transport : Nat) (s : State), miMode s = false → exec (.configurationGet cfg transport) s = .next s) ∧
  (∀ (cfg transport value : Nat) (s : State), miMode s = true → cfg = 3 → transport ≤ 1 → 64 ≤ value → value < 65536 → ∃ t,
      exec (.configurationSet cfg transport value) s = .next t ∧ Only [.out, .mg] s t ∧ t.mg.mtu = s.mg.mtu.set transport value ∧
      t.mg.smbusFreq = s.mg.smbusFreq ∧ t = emit (.mi 0 []) { s with mg := { s.mg with mtu := s.mg.mtu.set transport value } }) ∧
  (∀ (cfg transport value : Nat) (s : State), miMode s = true → (1 < transport ∨ (cfg ≠ 1 ∧ cfg ≠ 3) ∨ (cfg = 1 ∧ (value = 0 ∨ 4 ≤ value)) ∨
      (cfg = 3 ∧ (value < 64 ∨ 65536 ≤ value))) → ∃ t, exec (.configurationSet cfg transport value) s = .next t ∧ Only [.out, .mg] s t ∧ t =
      emit (.mi 4 []) s) ∧
  (∀ (cfg transport value : Nat) (s : State), miMode s = false → exec (.configurationSet cfg transport value) s = .next s) ∧
  (∀ (offset len : Nat) (s : State), miMode s = true → ∃ t, exec (.vpdRead offset len) s = .next t ∧ Only [.freeCtr, .out] s t ∧ t =
      emit (.mi 0 ((List.range len).map (fun i => Config.freeValue (s.freeCtr + i) % 256))) { s with freeCtr := s.freeCtr + len }) ∧
  (∀ (offset len : Nat) (s : State), miMode s = false → exec (.vpdRead offset len) s = .next s) ∧
  (∀ (port : Port) (opcode nsid : Nat) (cdw : List Nat) (img : SlotImage) (s : State), miMode s = true → opcode = 0x14 →
      adminServed (miHdr port nsid) modesAll s = true → ∃ t, exec (.miTunnelledAdminCommand port opcode nsid cdw img) s = .next t ∧
      Only [.freeCtr, .out, .eff, .gen, .he, .ctl, .sh, .defFaults, .lost, .cmds, .nextCmd, .fs, .mx, .ns, .nsWait, .mm, .sp, .cs, .bp, .me,
      .gf, .tw, .dg, .mg, .fi, .nand, .ff, .prov, .fuses, .win 0x80000 0x100000, .win 0x88000 0xF0000] s t ∧ t =
      deviceSelfTestBody (miHdr port nsid) (cdw.getD 0 0 % 16) (arrived (miHdr port nsid) s)) ∧
  (∀ (port : Port) (opcode nsid : Nat) (cdw : List Nat) (img : SlotImage) (s : State), miMode s = true → opcode ≠ 0x02 → opcode ≠ 0x06 →
      opcode ≠ 0x0A → opcode ≠ 0x10 → opcode ≠ 0x11 → opcode ≠ 0x14 → ∃ t, exec (.miTunnelledAdminCommand port opcode nsid cdw img) s =
      .next t ∧ Only [.freeCtr, .out, .eff, .gen, .he, .ctl, .sh, .defFaults, .lost, .cmds, .nextCmd, .fs, .mx, .ns, .nsWait, .mm, .sp, .cs,
      .bp, .me, .gf, .tw, .dg, .mg, .fi, .nand, .ff, .prov, .fuses, .win 0x80000 0x100000, .win 0x88000 0xF0000] s t ∧ t =
      adminFail (miHdr port nsid) 0 0x01 s) ∧
  (∀ (port : Port) (opcode nsid : Nat) (cdw : List Nat) (img : SlotImage) (s : State), miMode s = false →
      exec (.miTunnelledAdminCommand port opcode nsid cdw img) s = .next s) ∧
  (∀ (offset : Nat) (s : State), miMode s = true → ∃ t, exec (.setupRegisterRead offset) s = .next t ∧ Only [.out, .reg Reg.MX_CSNHI.CSN,
      .reg Reg.MX_CEILHI.CEIL, .reg Reg.MX_JSEQHI.SEQ, .reg Reg.SP_SJSEQHI.SEQ, .reg Reg.ME_LASTHI.ADDR, .reg Reg.TW_ACKHI.CSN] s t ∧ t =
      emit (.mi 0 [readReg (offPort offset) (offset % 2 ^ 20 / 4 * 4) s]) (latch (offset % 2 ^ 20 / 4 * 4) s)) ∧
  (∀ (offset : Nat) (s : State), miMode s = false → exec (.setupRegisterRead offset) s = .next s) ∧
  (∀ (offset : Nat) (value : Word) (s : State), miMode s = true → offset < 2 ^ 21 → 0x80000 ≤ offset % 2 ^ 20 / 4 * 4 → ∃ t,
      exec (.setupRegisterWrite offset value) s = .next t ∧ Only [.freeCtr, .out, .eff, .gen, .he, .ctl, .sh, .defFaults, .lost, .cmds,
      .nextCmd, .fs, .mx, .ns, .nsWait, .mm, .sp, .cs, .bp, .me, .gf, .tw, .dg, .mg, .fi, .nand, .ff, .prov, .fuses, .regs] s t ∧ t =
      emit (.mi 0 []) (busWrite .mgmt (offset % 2 ^ 20 / 4 * 4) value.toNat s)) ∧
  (∀ (offset : Nat) (value : Word) (s : State), miMode s = false → exec (.setupRegisterWrite offset value) s = .next s) ∧
  (∀ (firstSeq count area : Nat) (s : State), miMode s = true → 1 ≤ count → count ≤ 64 → area = 0 → ∃ t,
      exec (.eventLogRead firstSeq count area) s = .next t ∧ Only [.out] s t ∧ t =
      emit (.mi 0 ((((s.ff.ring.filter (fun e => decide (firstSeq ≤ e.seq))).foldr insBySeq []).take count).flatMap entryBytes)) s) ∧
  (∀ (firstSeq count area : Nat) (s : State), miMode s = true → (count = 0 ∨ 64 < count ∨ 1 < area) → ∃ t,
      exec (.eventLogRead firstSeq count area) s = .next t ∧ Only [.out] s t ∧ t = emit (.mi 4 []) s) ∧
  (∀ (firstSeq count area : Nat) (s : State), miMode s = false → exec (.eventLogRead firstSeq count area) s = .next s) ∧
  (∀ (seq : Nat) (s : State), miMode s = true → setupOpen .mgmt s = true → mayWrite .mgmt Reg.MG_LOGACK.SEQ.reg s = true → ∃ t,
      exec (.eventLogAcknowledge seq) s = .next t ∧ Only (places [turnedAway] [.out, .ff, .reg Reg.MG_LOGSTAT.PFULL]) s t ∧ t =
      emit (.mi 0 []) (ackProtected (BitVec.ofNat 32 seq).toNat s)) ∧
  (∀ (seq : Nat) (s : State), miMode s = false → exec (.eventLogAcknowledge seq) s = .next s) ∧
  (∀ (dtyp portid cntlid : Nat) (s : State), miMode s = true → dtyp = 1 → ∃ t, exec (.readNvmeMiDataStructure dtyp portid cntlid) s =
      .next t ∧ Only [.out] s t ∧ t = (match miPort portid s with | some d => emit (.mi 0 d) s | none => emit (.mi 4 []) s)) ∧
  (∀ (dtyp portid cntlid : Nat) (s : State), miMode s = true → dtyp = 2 → ∃ t, exec (.readNvmeMiDataStructure dtyp portid cntlid) s =
      .next t ∧ Only [.out] s t ∧ t = emit (.mi 0 (le 2 (miControllers cntlid s).length ++ (miControllers cntlid s).flatMap (le 2))) s) ∧
  (∀ (dtyp portid cntlid : Nat) (s : State), miMode s = true → dtyp = 3 → ∃ t, exec (.readNvmeMiDataStructure dtyp portid cntlid) s =
      .next t ∧ Only [.out] s t ∧ t = (match miController cntlid s with | some d => emit (.mi 0 d) s | none => emit (.mi 4 []) s)) ∧
  (∀ (dtyp portid cntlid : Nat) (s : State), miMode s = true → dtyp = 4 → ∃ t, exec (.readNvmeMiDataStructure dtyp portid cntlid) s =
      .next t ∧ Only [.out] s t ∧ t = emit (.mi 0 miCommands) s) ∧
  (∀ (cfg transport : Nat) (s : State), miMode s = true → cfg = 1 → transport ≤ 1 → ∃ t, exec (.configurationGet cfg transport) s =
      .next t ∧ Only [.out] s t ∧ t = emit (.mi 0 [s.mg.smbusFreq]) s) ∧
  (∀ (cfg transport value : Nat) (s : State), miMode s = true → cfg = 1 → transport ≤ 1 → 1 ≤ value → value ≤ 3 → ∃ t,
      exec (.configurationSet cfg transport value) s = .next t ∧ Only [.out, .mg] s t ∧ t.mg.smbusFreq = value ∧ t.mg.mtu = s.mg.mtu ∧ t =
      emit (.mi 0 []) { s with mg := { s.mg with smbusFreq := value } }) ∧
  (∀ (port : Port) (opcode nsid : Nat) (cdw : List Nat) (img : SlotImage) (s : State), miMode s = true → opcode = 0x14 → ∃ t,
      exec (.miTunnelledAdminCommand port opcode nsid cdw img) s = .next t ∧ Only [.freeCtr, .out, .eff, .gen, .he, .ctl, .sh, .defFaults,
      .lost, .cmds, .nextCmd, .fs, .mx, .ns, .nsWait, .mm, .sp, .cs, .bp, .me, .gf, .tw, .dg, .mg, .fi, .nand, .ff, .prov, .fuses,
      .win 0x80000 0x100000, .win 0x88000 0xF0000] s t ∧ t =
      adminCmd (miHdr port nsid) modesAll 0 (deviceSelfTestBody (miHdr port nsid) (cdw.getD 0 0 % 16)) s) ∧
  (∀ (port : Port) (opcode nsid : Nat) (cdw : List Nat) (img : SlotImage) (s : State), miMode s = true → opcode = 0x06 → ∃ t,
      exec (.miTunnelledAdminCommand port opcode nsid cdw img) s = .next t ∧ Only [.freeCtr, .out, .eff, .gen, .he, .ctl, .sh, .defFaults,
      .lost, .cmds, .nextCmd, .fs, .mx, .ns, .nsWait, .mm, .sp, .cs, .bp, .me, .gf, .tw, .dg, .mg, .fi, .nand, .ff, .prov, .fuses,
      .win 0x80000 0x100000, .win 0x88000 0xF0000] s t ∧ t =
      adminCmd (miHdr port nsid) modesBasic 0 (identifyBody (miHdr port nsid) (cdw.getD 0 0 % 256) (cdw.getD 0 0 / 65536 % 65536)) s) ∧
  (∀ (port : Port) (opcode nsid : Nat) (cdw : List Nat) (img : SlotImage) (s : State), miMode s = true → opcode = 0x02 → ∃ t,
      exec (.miTunnelledAdminCommand port opcode nsid cdw img) s = .next t ∧ Only [.freeCtr, .out, .eff, .gen, .he, .ctl, .sh, .defFaults,
      .lost, .cmds, .nextCmd, .fs, .mx, .ns, .nsWait, .mm, .sp, .cs, .bp, .me, .gf, .tw, .dg, .mg, .fi, .nand, .ff, .prov, .fuses,
      .win 0x80000 0x100000, .win 0x88000 0xF0000] s t ∧ t =
      adminCmd (miHdr port nsid) modesBasic 0 (getLogPageBody (miHdr port nsid) (cdw.getD 0 0 % 256) (cdw.getD 2 0 +
      2 ^ 32 * cdw.getD 3 0) (cdw.getD 0 0 / 65536 % 65536 + 65536 * (cdw.getD 1 0 % 65536) + 1) ((cdw.getD 0 0).testBit 15)) s) ∧
  (∀ (port : Port) (opcode nsid : Nat) (cdw : List Nat) (img : SlotImage) (s : State), miMode s = true → opcode = 0x0A → ∃ t,
      exec (.miTunnelledAdminCommand port opcode nsid cdw img) s = .next t ∧ Only [.freeCtr, .out, .eff, .gen, .he, .ctl, .sh, .defFaults,
      .lost, .cmds, .nextCmd, .fs, .mx, .ns, .nsWait, .mm, .sp, .cs, .bp, .me, .gf, .tw, .dg, .mg, .fi, .nand, .ff, .prov, .fuses,
      .win 0x80000 0x100000, .win 0x88000 0xF0000] s t ∧ t =
      adminCmd (miHdr port nsid) modesFeature 0 (getFeaturesBody (miHdr port nsid) (cdw.getD 0 0 % 256) (cdw.getD 0 0 / 256 % 8) (BitVec.ofNat 32 (cdw.getD 1 0))) s) ∧
  (∀ (port : Port) (opcode nsid : Nat) (cdw : List Nat) (img : SlotImage) (s : State), miMode s = true → opcode = 0x11 → ∃ t,
      exec (.miTunnelledAdminCommand port opcode nsid cdw img) s = .next t ∧ Only [.freeCtr, .out, .eff, .gen, .he, .ctl, .sh, .defFaults,
      .lost, .cmds, .nextCmd, .fs, .mx, .ns, .nsWait, .mm, .sp, .cs, .bp, .me, .gf, .tw, .dg, .mg, .fi, .nand, .ff, .prov, .fuses,
      .win 0x80000 0x100000, .win 0x88000 0xF0000] s t ∧ t =
      adminCmd (miHdr port nsid) modesBasic 0 (firmwareImageDownloadBody (miHdr port nsid) (4 * cdw.getD 1 0) (4 * (cdw.getD 0 0 + 1))) s) ∧
  (∀ (port : Port) (opcode nsid : Nat) (cdw : List Nat) (img : SlotImage) (s : State), miMode s = true → opcode = 0x10 → ∃ t,
      exec (.miTunnelledAdminCommand port opcode nsid cdw img) s = .next t ∧ Only [.freeCtr, .out, .eff, .gen, .he, .ctl, .sh, .defFaults,
      .lost, .cmds, .nextCmd, .fs, .mx, .ns, .nsWait, .mm, .sp, .cs, .bp, .me, .gf, .tw, .dg, .mg, .fi, .nand, .ff, .prov, .fuses,
      .win 0x80000 0x100000, .win 0x88000 0xF0000] s t ∧ t =
      adminCmd (miHdr port nsid) modesBasic 0 (miCommit (miHdr port nsid) (cdw.getD 0 0 % 8) (cdw.getD 0 0 / 8 % 8) img) s) ∧
  (∀ (offset : Nat) (value : Word) (s : State), miMode s = true → offset < 2 ^ 21 → offset % 2 ^ 20 / 4 * 4 < 0x80000 → ∃ t,
      exec (.setupRegisterWrite offset value) s = .next t ∧ Only [.freeCtr, .out, .eff, .gen, .he, .ctl, .sh, .defFaults, .lost, .cmds,
      .nextCmd, .fs, .mx, .ns, .nsWait, .mm, .sp, .cs, .bp, .me, .gf, .tw, .dg, .mg, .fi, .nand, .ff, .prov, .fuses, .regs] s t ∧ t =
      emit (.mi 0 []) s) ∧
  (∀ (offset : Nat) (value : Word) (s : State), miMode s = true → 2 ^ 21 ≤ offset → ∃ t, exec (.setupRegisterWrite offset value) s =
      .next t ∧ Only [.freeCtr, .out, .eff, .gen, .he, .ctl, .sh, .defFaults, .lost, .cmds, .nextCmd, .fs, .mx, .ns, .nsWait, .mm, .sp, .cs,
      .bp, .me, .gf, .tw, .dg, .mg, .fi, .nand, .ff, .prov, .fuses, .regs] s t ∧ t =
      emit (.mi 0 []) (if setupOpen .mgmt s then writeDevice offset value s else s)) ∧
  (∀ (firstSeq count area : Nat) (s : State), miMode s = true → 1 ≤ count → count ≤ 64 → area = 1 → ∃ t,
      exec (.eventLogRead firstSeq count area) s = .next t ∧ Only [.out] s t ∧ t =
      emit (.mi 0 (((((s.ff.prot.map (·.1)).filter (fun e => decide (firstSeq ≤ e.seq))).foldr insBySeq []).take count).flatMap entryBytes)) s) ∧
  (∀ (seq : Nat) (s : State), miMode s = true → ∃ t, exec (.eventLogAcknowledge seq) s = .next t ∧ Only (places [turnedAway] [.out, .ff,
      .reg Reg.MG_LOGSTAT.PFULL]) s t ∧ t = emit (.mi 0 []) (mgLogackWriteEff .mgmt (BitVec.ofNat 32 seq) s))

/-- The SPDM responder. Rules: R363, R361, R362, R364, R365, R80. -/
def Obligations.SpdmRequests : Prop :=
  (∀ (transport : Nat) (s : State), spdmServes transport s = true → ∃ t, exec (.getVersion transport) s = .next t ∧ Only [.out, .he,
      .dg] s t ∧ spdmStep transport t = 1 ∧ t.dg.sessions = s.dg.sessions.filter (fun x => x.1 != transport) ∧ t =
      spdmSend transport 0x04 ([1] ++
      le 2 0x1200) (spdmAt transport 1 { s with dg := { s.dg with sessions := s.dg.sessions.filter (fun x => x.1 != transport) } })) ∧
  (∀ (transport : Nat) (s : State), spdmServes transport s = false → exec (.getVersion transport) s = .next s) ∧
  (∀ (transport : Nat) (s : State), spdmServes transport s = true → 1 ≤ spdmStep transport s → ∃ t, exec (.getCapabilities transport) s =
      .next t ∧ Only [.out, .he, .dg] s t ∧ spdmStep transport t = 2 ∧ t = spdmSend transport 0x61 ([0, 20, 0, 0] ++
      le 4 (capFlags transport)) (spdmAt transport 2 s)) ∧
  (∀ (transport : Nat) (s : State), spdmServes transport s = true → spdmStep transport s = 0 → ∃ t, exec (.getCapabilities transport) s =
      .next t ∧ Only [.out, .he, .dg] s t ∧ t = spdmError transport 4 s) ∧
  (∀ (transport asym hash dhe aead : Nat) (s : State), spdmServes transport s = true → 2 ≤ spdmStep transport s → asym.testBit 8 = true →
      hash.testBit 2 = true → ∃ t, exec (.negotiateAlgorithms transport asym hash dhe aead) s = .next t ∧ Only [.out, .he, .dg] s t ∧
      spdmStep transport t = 3 ∧ t.dg.sessions = s.dg.sessions ∧ t = spdmSend transport 0x63 (le 4 256 ++ le 4 4 ++ le 2 (pickAlg dhe 5) ++
      le 2 (pickAlg aead 1)) (spdmAt transport 3 s)) ∧
  (∀ (transport asym hash dhe aead : Nat) (s : State), spdmServes transport s = true → spdmStep transport s < 2 → ∃ t,
      exec (.negotiateAlgorithms transport asym hash dhe aead) s = .next t ∧ Only [.out, .he, .dg] s t ∧ t = spdmError transport 4 s) ∧
  (∀ (transport : Nat) (s : State), spdmServes transport s = true → 3 ≤ spdmStep transport s → ∃ t, exec (.getDigests transport) s =
      .next t ∧ Only [.freeCtr, .out, .he] s t ∧ t = spdmSend transport 0x01 ([if s.ff.cert1 = [] then 1 else 3] ++ freeBytes 64 s ++
      (if s.ff.cert1 = [] then [] else (shaDigest 0 s.ff.cert1).map (·.toNat))) (tickFrees 64 s)) ∧
  (∀ (transport : Nat) (s : State), spdmServes transport s = true → spdmStep transport s < 3 → ∃ t, exec (.getDigests transport) s =
      .next t ∧ Only [.freeCtr, .out, .he] s t ∧ t = spdmError transport 4 s) ∧
  (∀ (transport slot offset len : Nat) (s : State), spdmServes transport s = true → 3 ≤ spdmStep transport s → slot = 1 → s.ff.cert1 ≠ [] →
      offset < s.ff.cert1.length → ∃ t, exec (.getCertificate transport slot offset len) s = .next t ∧ Only [.freeCtr, .out, .he] s t ∧ t =
      spdmSend transport 0x02 ([1, 0] ++ le 2 ((s.ff.cert1.drop offset).take len).length ++
      le 2 (s.ff.cert1.length - offset - ((s.ff.cert1.drop offset).take len).length) ++
      ((s.ff.cert1.drop offset).take len).map (·.toNat)) s) ∧
  (∀ (transport slot offset len : Nat) (s : State), spdmServes transport s = true → 3 ≤ spdmStep transport s → slot ≠ 0 → (slot ≠ 1 ∨
      s.ff.cert1 = [] ∨ s.ff.cert1.length ≤ offset) → ∃ t, exec (.getCertificate transport slot offset len) s = .next t ∧ Only [.freeCtr,
      .out, .he] s t ∧ t = spdmError transport 1 s) ∧
  (∀ (transport slot : Nat) (chain : List Byte) (leafIsIdentity : Bool) (s : State), spdmServes transport s = true →
      3 ≤ spdmStep transport s → slot = 1 → s.gen.mode = .provision → leafIsIdentity = true → ∃ t,
      exec (.setCertificate transport slot chain leafIsIdentity) s = .next t ∧ Only [.out, .he, .ff] s t ∧ t.ff.cert1 = chain ∧ t =
      spdmSend transport 0x6E [1, 0] { s with ff := { s.ff with cert1 := chain } }) ∧
  (∀ (transport slot : Nat) (chain : List Byte) (leafIsIdentity : Bool) (s : State), spdmServes transport s = true →
      3 ≤ spdmStep transport s → (slot ≠ 1 ∨ s.gen.mode ≠ .provision ∨ leafIsIdentity = false) → ∃ t,
      exec (.setCertificate transport slot chain leafIsIdentity) s = .next t ∧ Only [.out, .he, .ff] s t ∧ t.ff = s.ff ∧ t =
      spdmError transport 1 s) ∧
  (∀ (transport slot nonce : Nat) (s : State), spdmServes transport s = true → 3 ≤ spdmStep transport s → canSign slot s = true →
      rngServes s = true → ∃ t, exec (.challenge transport slot nonce) s = .next t ∧ Only [.freeCtr, .out, .he, .dg,
      .reg Reg.DG_RNG.RESEEDS, .reg Reg.DG_ERR.RNG] s t ∧ t = spdmSend transport 0x03 ([slot, 2 ^ slot] ++ freeBytes (64 + 32 + 64 +
      sigLen) (rngDraw s)) (tickFrees (64 + 32 + 64 + sigLen) (rngDraw s))) ∧
  (∀ (transport slot nonce : Nat) (s : State), spdmServes transport s = true → 3 ≤ spdmStep transport s → canSign slot s = true →
      rngServes s = false → ∃ t, exec (.challenge transport slot nonce) s = .next t ∧ Only [.freeCtr, .out, .he, .dg,
      .reg Reg.DG_RNG.RESEEDS, .reg Reg.DG_ERR.RNG] s t ∧ isOn Reg.DG_ERR.RNG t = true ∧ t =
      flagOn Reg.DG_ERR.RNG { s with dg := { s.dg with spdmWait := s.dg.spdmWait ++ [.challenge transport slot nonce] } }) ∧
  (∀ (transport index : Nat) (signed : Bool) (nonce : Nat) (s : State), spdmServes transport s = true → 3 ≤ spdmStep transport s →
      (index ≤ 7 ∨ index = 0xFF) → signed = false → ∃ t, exec (.getMeasurements transport index signed nonce) s = .next t ∧ Only [.freeCtr,
      .out, .he, .dg, .reg Reg.DG_RNG.RESEEDS, .reg Reg.DG_ERR.RNG] s t ∧ t = measSend transport index false s) ∧
  (∀ (transport index : Nat) (signed : Bool) (nonce : Nat) (s : State), spdmServes transport s = true → 3 ≤ spdmStep transport s →
      7 < index → index ≠ 0xFF → ∃ t, exec (.getMeasurements transport index signed nonce) s = .next t ∧ Only [.freeCtr, .out, .he, .dg,
      .reg Reg.DG_RNG.RESEEDS, .reg Reg.DG_ERR.RNG] s t ∧ t = spdmError transport 1 s) ∧
  (∀ (transport session : Nat) (mutualAuth : Bool) (s : State), spdmServes transport s = true → 3 ≤ spdmStep transport s → isDoe transport =
      false → canSign 0 s = true → (transport ≠ 4 ∨ mutualAuth = true) → s.dg.sessions.any (fun x => x.1 == transport && x.2.1 == session) =
      false → rngServes s = true → ∃ t, exec (.keyExchange transport session mutualAuth) s = .next t ∧ Only [.freeCtr, .out, .he, .dg,
      .reg Reg.DG_RNG.RESEEDS, .reg Reg.DG_ERR.RNG] s t ∧ t.dg.sessions = (rngDraw s).dg.sessions ++ [(transport, session, false)] ∧ t =
      spdmSend transport 0x64 (le 2 session ++ freeBytes (32 + 132 + sigLen) (rngDraw s)) (tickFrees (32 + 132 +
      sigLen) { rngDraw s with dg := { (rngDraw s).dg with sessions := (rngDraw s).dg.sessions ++ [(transport, session, false)] } })) ∧
  (∀ (transport session : Nat) (mutualAuth : Bool) (s : State), spdmServes transport s = true → 3 ≤ spdmStep transport s → isDoe transport =
      true → ∃ t, exec (.keyExchange transport session mutualAuth) s = .next t ∧ Only [.freeCtr, .out, .he, .dg, .reg Reg.DG_RNG.RESEEDS,
      .reg Reg.DG_ERR.RNG] s t ∧ t = spdmError transport 7 s) ∧
  (∀ (transport session : Nat) (peerIdOk : Bool) (s : State), spdmServes transport s = true → 3 ≤ spdmStep transport s → isDoe transport =
      false → s.dg.sessions.any (fun x => (x.1 == transport && x.2.1 == session) && !x.2.2) = true → (transport ≠ 4 ∨ peerIdOk = true) →
      ∃ t, exec (.finish transport session peerIdOk) s = .next t ∧ Only [.out, .he, .dg, .reg Reg.TW_ERR.PEERID] s t ∧ t.dg.transport =
      (s.dg.transport || transport == 4) ∧ t =
      spdmSend transport 0x65 (le 2 session) { s with dg := { s.dg with sessions := s.dg.sessions.map (fun x => if (x.1 == transport && x.2.1 == session) then (x.1, x.2.1, true) else x), transport := s.dg.transport || transport == 4 } }) ∧
  (∀ (transport session : Nat) (peerIdOk : Bool) (s : State), spdmServes transport s = true → 3 ≤ spdmStep transport s → transport = 4 →
      s.dg.sessions.any (fun x => (x.1 == transport && x.2.1 == session) && !x.2.2) = true → peerIdOk = false → ∃ t,
      exec (.finish transport session peerIdOk) s = .next t ∧ Only [.out, .he, .dg, .reg Reg.TW_ERR.PEERID] s t ∧ isOn Reg.TW_ERR.PEERID t =
      true ∧ t =
      spdmError transport 1 (flagOn Reg.TW_ERR.PEERID { s with dg := { s.dg with sessions := s.dg.sessions.filter (fun x => !(x.1 == transport && x.2.1 == session)) } })) ∧
  (∀ (transport session : Nat) (s : State), spdmServes transport s = true → 3 ≤ spdmStep transport s → isDoe transport = false →
      s.dg.sessions.any (fun x => (x.1 == transport && x.2.1 == session)) = true → ∃ t, exec (.endSession transport session) s = .next t ∧
      Only [.out, .he, .dg] s t ∧ t.dg.sessions = s.dg.sessions.filter (fun x => !(x.1 == transport && x.2.1 == session)) ∧ t =
      spdmSend transport 0x6C (le 2 session) { s with dg := { s.dg with sessions := s.dg.sessions.filter (fun x => !(x.1 == transport && x.2.1 == session)) } }) ∧
  (∀ (transport session : Nat) (s : State), spdmServes transport s = true → 3 ≤ spdmStep transport s → isDoe transport = false →
      s.dg.sessions.any (fun x => (x.1 == transport && x.2.1 == session)) = false → ∃ t, exec (.endSession transport session) s = .next t ∧
      Only [.out, .he, .dg] s t ∧ t = spdmError transport 4 s) ∧
  (∀ (transport asym hash dhe aead : Nat) (s : State), spdmServes transport s = true → 2 ≤ spdmStep transport s → (asym.testBit 8 = false ∨
      hash.testBit 2 = false) → ∃ t, exec (.negotiateAlgorithms transport asym hash dhe aead) s = .next t ∧ Only [.out, .he, .dg] s t ∧ t =
      spdmSend transport 0x63 (le 4 (pickAlg asym 8) ++ le 4 (pickAlg hash 2) ++ le 2 (pickAlg dhe 5) ++ le 2 (pickAlg aead 1)) s) ∧
  (∀ (transport slot offset len : Nat) (s : State), spdmServes transport s = true → 3 ≤ spdmStep transport s → slot = 0 → ∃ t,
      exec (.getCertificate transport slot offset len) s = .next t ∧ Only [.freeCtr, .out, .he] s t ∧ t = spdmSend transport 0x02 ([0, 0] ++
      le 2 len ++ le 2 (Config.freeValue (s.freeCtr + len) % 65536) ++ freeBytes len s) (tickFrees (len + 1) s)) ∧
  (∀ (transport slot offset len : Nat) (s : State), spdmServes transport s = true → spdmStep transport s < 3 → ∃ t,
      exec (.getCertificate transport slot offset len) s = .next t ∧ Only [.freeCtr, .out, .he] s t ∧ t = spdmError transport 4 s) ∧
  (∀ (transport slot : Nat) (chain : List Byte) (leafIsIdentity : Bool) (s : State), spdmServes transport s = true →
      spdmStep transport s < 3 → ∃ t, exec (.setCertificate transport slot chain leafIsIdentity) s = .next t ∧ Only [.out, .he, .ff] s t ∧
      t = spdmError transport 4 s) ∧
  (∀ (transport slot nonce : Nat) (s : State), spdmServes transport s = true → 3 ≤ spdmStep transport s → canSign slot s = false → ∃ t,
      exec (.challenge transport slot nonce) s = .next t ∧ Only [.freeCtr, .out, .he, .dg, .reg Reg.DG_RNG.RESEEDS,
      .reg Reg.DG_ERR.RNG] s t ∧ t = spdmError transport 1 s) ∧
  (∀ (transport slot nonce : Nat) (s : State), spdmServes transport s = true → spdmStep transport s < 3 → ∃ t,
      exec (.challenge transport slot nonce) s = .next t ∧ Only [.freeCtr, .out, .he, .dg, .reg Reg.DG_RNG.RESEEDS,
      .reg Reg.DG_ERR.RNG] s t ∧ t = spdmError transport 4 s) ∧
  (∀ (transport index : Nat) (signed : Bool) (nonce : Nat) (s : State), spdmServes transport s = true → 3 ≤ spdmStep transport s →
      (index ≤ 7 ∨ index = 0xFF) → signed = true → canSign 0 s = true → rngServes s = true → ∃ t,
      exec (.getMeasurements transport index signed nonce) s = .next t ∧ Only [.freeCtr, .out, .he, .dg, .reg Reg.DG_RNG.RESEEDS,
      .reg Reg.DG_ERR.RNG] s t ∧ t = measSend transport index true (rngDraw s)) ∧
  (∀ (transport index : Nat) (signed : Bool) (nonce : Nat) (s : State), spdmServes transport s = true → 3 ≤ spdmStep transport s →
      (index ≤ 7 ∨ index = 0xFF) → signed = true → canSign 0 s = true → rngServes s = false → ∃ t,
      exec (.getMeasurements transport index signed nonce) s = .next t ∧ Only [.freeCtr, .out, .he, .dg, .reg Reg.DG_RNG.RESEEDS,
      .reg Reg.DG_ERR.RNG] s t ∧ t =
      flagOn Reg.DG_ERR.RNG { s with dg := { s.dg with spdmWait := s.dg.spdmWait ++ [.measurements transport index nonce] } }) ∧
  (∀ (transport index : Nat) (signed : Bool) (nonce : Nat) (s : State), spdmServes transport s = true → 3 ≤ spdmStep transport s →
      (index ≤ 7 ∨ index = 0xFF) → signed = true → canSign 0 s = false → ∃ t, exec (.getMeasurements transport index signed nonce) s =
      .next t ∧ Only [.freeCtr, .out, .he, .dg, .reg Reg.DG_RNG.RESEEDS, .reg Reg.DG_ERR.RNG] s t ∧ t = spdmError transport 1 s) ∧
  (∀ (transport index : Nat) (signed : Bool) (nonce : Nat) (s : State), spdmServes transport s = true → spdmStep transport s < 3 → ∃ t,
      exec (.getMeasurements transport index signed nonce) s = .next t ∧ Only [.freeCtr, .out, .he, .dg, .reg Reg.DG_RNG.RESEEDS,
      .reg Reg.DG_ERR.RNG] s t ∧ t = spdmError transport 4 s) ∧
  (∀ (transport session : Nat) (mutualAuth : Bool) (s : State), spdmServes transport s = true → 3 ≤ spdmStep transport s → isDoe transport =
      false → canSign 0 s = true → (transport ≠ 4 ∨ mutualAuth = true) → s.dg.sessions.any (fun x => x.1 == transport && x.2.1 == session) =
      false → rngServes s = false → ∃ t, exec (.keyExchange transport session mutualAuth) s = .next t ∧ Only [.freeCtr, .out, .he, .dg,
      .reg Reg.DG_RNG.RESEEDS, .reg Reg.DG_ERR.RNG] s t ∧ t =
      flagOn Reg.DG_ERR.RNG { s with dg := { s.dg with spdmWait := s.dg.spdmWait ++ [.keyExchange transport session mutualAuth] } }) ∧
  (∀ (transport session : Nat) (mutualAuth : Bool) (s : State), spdmServes transport s = true → 3 ≤ spdmStep transport s → isDoe transport =
      false → (canSign 0 s = false ∨ (transport = 4 ∧ mutualAuth = false) ∨ s.dg.sessions.any (fun x => x.1 == transport && x.2.1 ==
      session) = true) → ∃ t, exec (.keyExchange transport session mutualAuth) s = .next t ∧ Only [.freeCtr, .out, .he, .dg,
      .reg Reg.DG_RNG.RESEEDS, .reg Reg.DG_ERR.RNG] s t ∧ t = spdmError transport 1 s) ∧
  (∀ (transport session : Nat) (mutualAuth : Bool) (s : State), spdmServes transport s = true → spdmStep transport s < 3 → ∃ t,
      exec (.keyExchange transport session mutualAuth) s = .next t ∧ Only [.freeCtr, .out, .he, .dg, .reg Reg.DG_RNG.RESEEDS,
      .reg Reg.DG_ERR.RNG] s t ∧ t = spdmError transport 4 s) ∧
  (∀ (transport session : Nat) (peerIdOk : Bool) (s : State), spdmServes transport s = true → 3 ≤ spdmStep transport s → isDoe transport =
      false → s.dg.sessions.any (fun x => (x.1 == transport && x.2.1 == session) && !x.2.2) = false → ∃ t,
      exec (.finish transport session peerIdOk) s = .next t ∧ Only [.out, .he, .dg, .reg Reg.TW_ERR.PEERID] s t ∧ t =
      spdmError transport 4 s) ∧
  (∀ (transport session : Nat) (peerIdOk : Bool) (s : State), spdmServes transport s = true → 3 ≤ spdmStep transport s → isDoe transport =
      true → ∃ t, exec (.finish transport session peerIdOk) s = .next t ∧ Only [.out, .he, .dg, .reg Reg.TW_ERR.PEERID] s t ∧ t =
      spdmError transport 7 s) ∧
  (∀ (transport session : Nat) (peerIdOk : Bool) (s : State), spdmServes transport s = true → spdmStep transport s < 3 → ∃ t,
      exec (.finish transport session peerIdOk) s = .next t ∧ Only [.out, .he, .dg, .reg Reg.TW_ERR.PEERID] s t ∧ t =
      spdmError transport 4 s) ∧
  (∀ (transport session : Nat) (s : State), spdmServes transport s = true → 3 ≤ spdmStep transport s → isDoe transport = true → ∃ t,
      exec (.endSession transport session) s = .next t ∧ Only [.out, .he, .dg] s t ∧ t = spdmError transport 7 s) ∧
  (∀ (transport session : Nat) (s : State), spdmServes transport s = true → spdmStep transport s < 3 → ∃ t,
      exec (.endSession transport session) s = .next t ∧ Only [.out, .he, .dg] s t ∧ t = spdmError transport 4 s) ∧
  (∀ (transport : Nat) (s : State), spdmServes transport s = false → exec (.getCapabilities transport) s = .next s) ∧
  (∀ (transport asym hash dhe aead : Nat) (s : State), spdmServes transport s = false →
      exec (.negotiateAlgorithms transport asym hash dhe aead) s = .next s) ∧
  (∀ (transport : Nat) (s : State), spdmServes transport s = false → exec (.getDigests transport) s = .next s) ∧
  (∀ (transport slot offset len : Nat) (s : State), spdmServes transport s = false → exec (.getCertificate transport slot offset len) s =
      .next s) ∧
  (∀ (transport slot : Nat) (chain : List Byte) (leafIsIdentity : Bool) (s : State), spdmServes transport s = false →
      exec (.setCertificate transport slot chain leafIsIdentity) s = .next s) ∧
  (∀ (transport slot nonce : Nat) (s : State), spdmServes transport s = false → exec (.challenge transport slot nonce) s = .next s) ∧
  (∀ (transport index : Nat) (signed : Bool) (nonce : Nat) (s : State), spdmServes transport s = false →
      exec (.getMeasurements transport index signed nonce) s = .next s) ∧
  (∀ (transport session : Nat) (mutualAuth : Bool) (s : State), spdmServes transport s = false →
      exec (.keyExchange transport session mutualAuth) s = .next s) ∧
  (∀ (transport session : Nat) (peerIdOk : Bool) (s : State), spdmServes transport s = false → exec (.finish transport session peerIdOk) s =
      .next s) ∧
  (∀ (transport session : Nat) (s : State), spdmServes transport s = false → exec (.endSession transport session) s = .next s)

/-- Unit faults and fault injection. Rules: R389, R391, R394, R395, R396, R49. -/
def Obligations.FaultsAndInjection : Prop :=
  (∀ (unit : UnitFault) (s : State), s.gen.mode ≠ .reset → unit = .policyCore → 0 < s.mg.coreSpare → ∃ t, exec (.policyCoreFault unit) s =
      .next t ∧ Only (places [posting, logging, revoking, windowLog, sending, disarming] [.gen, .sh, .cmds, .mx, .ns, .mm, .me, .tw, .dg,
      .nand, .ff, .prov, .reg Reg.GEN_DRAIN.ACTIVE, .reg Reg.MX_ERR.CEILHOLD, .reg Reg.ME_ERR.REPAIRFULL, .reg Reg.FI_ERR.REALFAULT]) s t ∧
      t.mg.coreSpare = s.mg.coreSpare - 1 ∧ t.mg.cores = s.mg.cores ∧ t =
      spareIn 0 ((nextOut 0 s).mg.coreSpare - 1) { (nextOut 0 s) with mg := { (nextOut 0 s).mg with coreSpare := (nextOut 0 s).mg.coreSpare - 1 } }) ∧
  (∀ (unit : UnitFault) (s : State), s.gen.mode ≠ .reset → unit = .decompressLane → ∃ t, exec (.policyCoreFault unit) s = .next t ∧
      Only (places [posting, logging, revoking, windowLog, sending, disarming] [.gen, .sh, .cmds, .mx, .ns, .mm, .me, .tw, .dg, .nand, .ff,
      .prov, .reg Reg.GEN_DRAIN.ACTIVE, .reg Reg.MX_ERR.CEILHOLD, .reg Reg.ME_ERR.REPAIRFULL, .reg Reg.FI_ERR.REALFAULT]) s t ∧
      t.mg.decomp = s.mg.decomp - 1 ∧ t = nextOut 5 { s with mg := { s.mg with decomp := s.mg.decomp - 1 } }) ∧
  (∀ (unit : UnitFault) (s : State), s.gen.mode = .reset → exec (.policyCoreFault unit) s = .next s) ∧
  (∀ (who : Writer) (key : BitVec 16) (s : State), setupOpen who s = true → mayWrite who Reg.FI_ARM.KEY.reg s = true → s.gen.mode =
      .service → key = 0xF1A1 → s.fi.keyed = false → ∃ t, exec (.fiArmKey who key) s = .next t ∧ Only (places [posting, logging,
      turnedAway] [.fi, .reg Reg.FI_ARM.ARMED, .reg Reg.FI_ERR.KEY]) s t ∧ t = { s with fi := { s.fi with keyed := true } }) ∧
  (∀ (who : Writer) (key : BitVec 16) (s : State), setupOpen who s = true → mayWrite who Reg.FI_ARM.KEY.reg s = true → s.gen.mode =
      .service → key = 0x5E5E → s.fi.keyed = true → s.fi.armed = false → ∃ t, exec (.fiArmKey who key) s = .next t ∧ Only (places [posting,
      logging, turnedAway] [.fi, .reg Reg.FI_ARM.ARMED, .reg Reg.FI_ERR.KEY]) s t ∧ t.fi.armed = true ∧ t.fi.keyed = false ∧
      isOn Reg.FI_ARM.ARMED t = true ∧ t = fiArmed false { s with fi := { s.fi with keyed := false } }) ∧
  (∀ (who : Writer) (key : BitVec 16) (s : State), setupOpen who s = true → mayWrite who Reg.FI_ARM.KEY.reg s = true → key ≠ 0 →
      (s.gen.mode ≠ .service ∨ (key ≠ 0xF1A1 ∧ key ≠ 0x5E5E) ∨ (key = 0xF1A1 ∧ s.fi.keyed = true) ∨ (key = 0x5E5E ∧ s.fi.keyed = false)) →
      ∃ t, exec (.fiArmKey who key) s = .next t ∧ Only (places [posting, logging, turnedAway] [.fi, .reg Reg.FI_ARM.ARMED,
      .reg Reg.FI_ERR.KEY]) s t ∧ isOn Reg.FI_ERR.KEY t = true ∧ t = flagOn Reg.FI_ERR.KEY { s with fi := { s.fi with keyed := false } }) ∧
  (∀ (who : Writer) (key : BitVec 16) (s : State), setupOpen who s = true → mayWrite who Reg.FI_ARM.KEY.reg s = false →
      exec (.fiArmKey who key) s = .next (genErr Reg.GEN_ERR.OWNWR Reg.FI_ARM.KEY.reg who s)) ∧
  (∀ (who : Writer) (s : State), setupOpen who s = true → mayWrite who Reg.FI_ARM.DISARM.reg s = true → s.fi.armed = true → ∃ t,
      exec (.fiDisarm who) s = .next t ∧ Only (places [logging, disarming, turnedAway] []) s t ∧ t.fi.armed = false ∧
      isOn Reg.FI_ARM.ARMED t = false ∧ getF Reg.FI_ARM.DCAUSE t = 0 ∧ isOn Reg.FI_GF.EN t = false ∧ isOn Reg.FI_FL.EN t = false ∧
      isOn Reg.FI_PCIE.EN t = false ∧ t = (let u := { s with fi := { s.fi with armed := false, keyed := false } };
      logEvent 0xF002 1 15 false [0] (flagOff Reg.FI_PCIE.EN (flagOff Reg.FI_FL.EN (flagOff Reg.FI_GF.EN (setF Reg.FI_ARM.DCAUSE 0 (flagOff Reg.FI_ARM.ARMED u))))))) ∧
  (∀ (who : Writer) (s : State), setupOpen who s = true → mayWrite who Reg.FI_ARM.DISARM.reg s = false → exec (.fiDisarm who) s =
      .next (genErr Reg.GEN_ERR.OWNWR Reg.FI_ARM.DISARM.reg who s)) ∧
  (∀ (s : State), s.gen.mode = .service → s.fi.armed = true → ∃ t, exec .fiArmTimeout s = .next t ∧ Only (places [logging,
      disarming] []) s t ∧ t.fi.armed = false ∧ getF Reg.FI_ARM.DCAUSE t = 1 ∧ isOn Reg.FI_GF.EN t = false ∧ t =
      (let u := { s with fi := { s.fi with armed := false, keyed := false } };
      logEvent 0xF002 1 15 false [1] (flagOff Reg.FI_PCIE.EN (flagOff Reg.FI_FL.EN (flagOff Reg.FI_GF.EN (setF Reg.FI_ARM.DCAUSE 1 (flagOff Reg.FI_ARM.ARMED u))))))) ∧
  (∀ (s : State), (s.gen.mode ≠ .service ∨ s.fi.armed = false) → exec .fiArmTimeout s = .next s) ∧
  (∀ (who : Writer) (value : Word) (s : State), setupOpen who s = true → mayWrite who Reg.FI_GF.EN.reg s = true →
      fieldBits Reg.FI_GF.EN value.toNat = 1 → (isOn Reg.FI_GF.EN s = true ∨ (s.fi.armed = true ∧ fiMode s.gen.mode = true)) →
      (s.gen.mode ≠ .service ∨ gfLimit value.toNat = true) → ∃ t, exec (.fiGfEn who value) s = .next t ∧ Only (places [turnedAway] [.fs,
      .bp, .fi, .reg Reg.GEN_ERR.LOCKWR, .reg Reg.GEN_ERR.RANGE, .win 0xf8008 0xf800c, .reg Reg.FI_ERR.NOTARMED]) s t ∧
      isOn Reg.FI_GF.EN t = true ∧ t =
      (if (fieldsAt Reg.FI_GF.EN.reg).map (fun f => getF f (setF Reg.FI_GF.EN 1 (writeFields who Reg.FI_GF.EN.reg value.toNat s))) =
      (fieldsAt Reg.FI_GF.EN.reg).map (fun f => getF f s) then (setF Reg.FI_GF.EN 1 (writeFields who Reg.FI_GF.EN.reg value.toNat s)) else { (setF Reg.FI_GF.EN 1 (writeFields who Reg.FI_GF.EN.reg value.toNat s)) with fi := { (setF Reg.FI_GF.EN 1 (writeFields who Reg.FI_GF.EN.reg value.toNat s)).fi with units := (setF Reg.FI_GF.EN 1 (writeFields who Reg.FI_GF.EN.reg value.toNat s)).fi.units.set 0 0 } })) ∧
  (∀ (who : Writer) (value : Word) (s : State), setupOpen who s = true → mayWrite who Reg.FI_GF.EN.reg s = true →
      fieldBits Reg.FI_GF.EN value.toNat = 1 → isOn Reg.FI_GF.EN s = false → (s.fi.armed = false ∨ fiMode s.gen.mode = false) → ∃ t,
      exec (.fiGfEn who value) s = .next t ∧ Only (places [turnedAway] [.fs, .bp, .fi, .reg Reg.GEN_ERR.LOCKWR, .reg Reg.GEN_ERR.RANGE,
      .win 0xf8008 0xf800c, .reg Reg.FI_ERR.NOTARMED]) s t ∧ t = flagOn Reg.FI_ERR.NOTARMED s) ∧
  (∀ (who : Writer) (value : Word) (s : State), setupOpen who s = true → mayWrite who Reg.FI_GF.EN.reg s = false →
      exec (.fiGfEn who value) s = .next (genErr Reg.GEN_ERR.OWNWR Reg.FI_GF.EN.reg who s)) ∧
  (∀ (who : Writer) (value : Word) (s : State), setupOpen who s = true → mayWrite who Reg.FI_FL.EN.reg s = true →
      fieldBits Reg.FI_FL.EN value.toNat = 1 → (isOn Reg.FI_FL.EN s = true ∨ (s.fi.armed = true ∧ fiMode s.gen.mode = true)) →
      (s.gen.mode ≠ .service ∨ flLimit value.toNat s = true) → ∃ t, exec (.fiFlEn who value) s = .next t ∧ Only (places [turnedAway] [.fs,
      .bp, .fi, .reg Reg.GEN_ERR.LOCKWR, .reg Reg.GEN_ERR.RANGE, .win 0xf800c 0xf8010, .reg Reg.FI_ERR.NOTARMED]) s t ∧
      isOn Reg.FI_FL.EN t = true ∧ t =
      (if (fieldsAt Reg.FI_FL.EN.reg).map (fun f => getF f (setF Reg.FI_FL.EN 1 (writeFields who Reg.FI_FL.EN.reg value.toNat s))) =
      (fieldsAt Reg.FI_FL.EN.reg).map (fun f => getF f s) then (setF Reg.FI_FL.EN 1 (writeFields who Reg.FI_FL.EN.reg value.toNat s)) else { (setF Reg.FI_FL.EN 1 (writeFields who Reg.FI_FL.EN.reg value.toNat s)) with fi := { (setF Reg.FI_FL.EN 1 (writeFields who Reg.FI_FL.EN.reg value.toNat s)).fi with units := (setF Reg.FI_FL.EN 1 (writeFields who Reg.FI_FL.EN.reg value.toNat s)).fi.units.set 1 0 } })) ∧
  (∀ (who : Writer) (value : Word) (s : State), setupOpen who s = true → mayWrite who Reg.FI_FL.EN.reg s = true →
      fieldBits Reg.FI_FL.EN value.toNat = 1 → (isOn Reg.FI_FL.EN s = true ∨ s.fi.armed = true) → s.gen.mode = .service →
      flLimit value.toNat s = false → ∃ t, exec (.fiFlEn who value) s = .next t ∧ Only (places [turnedAway] [.fs, .bp, .fi,
      .reg Reg.GEN_ERR.LOCKWR, .reg Reg.GEN_ERR.RANGE, .win 0xf800c 0xf8010, .reg Reg.FI_ERR.NOTARMED]) s t ∧ t =
      genErr Reg.GEN_ERR.RANGE Reg.FI_FL.EN.reg who s) ∧
  (∀ (who : Writer) (value : Word) (s : State), setupOpen who s = true → mayWrite who Reg.FI_FL.EN.reg s = false →
      exec (.fiFlEn who value) s = .next (genErr Reg.GEN_ERR.OWNWR Reg.FI_FL.EN.reg who s)) ∧
  (∀ (who : Writer) (value : Word) (s : State), setupOpen who s = true → mayWrite who Reg.FI_PCIE.EN.reg s = true →
      fieldBits Reg.FI_PCIE.EN value.toNat = 1 → (isOn Reg.FI_PCIE.EN s = true ∨ (s.fi.armed = true ∧ fiMode s.gen.mode = true)) →
      (s.gen.mode ≠ .service) → ∃ t, exec (.fiPcieEn who value) s = .next t ∧ Only (places [turnedAway] [.fs, .bp, .fi,
      .reg Reg.GEN_ERR.LOCKWR, .reg Reg.GEN_ERR.RANGE, .win 0xf8010 0xf8014, .reg Reg.FI_ERR.NOTARMED]) s t ∧ isOn Reg.FI_PCIE.EN t = true ∧
      t =
      (if (fieldsAt Reg.FI_PCIE.EN.reg).map (fun f => getF f (setF Reg.FI_PCIE.EN 1 (writeFields who Reg.FI_PCIE.EN.reg value.toNat s))) =
      (fieldsAt Reg.FI_PCIE.EN.reg).map (fun f => getF f s) then (setF Reg.FI_PCIE.EN 1 (writeFields who Reg.FI_PCIE.EN.reg value.toNat s)) else { (setF Reg.FI_PCIE.EN 1 (writeFields who Reg.FI_PCIE.EN.reg value.toNat s)) with fi := { (setF Reg.FI_PCIE.EN 1 (writeFields who Reg.FI_PCIE.EN.reg value.toNat s)).fi with units := (setF Reg.FI_PCIE.EN 1 (writeFields who Reg.FI_PCIE.EN.reg value.toNat s)).fi.units.set 2 0 } })) ∧
  (∀ (who : Writer) (value : Word) (s : State), setupOpen who s = true → mayWrite who Reg.FI_PCIE.EN.reg s = false →
      exec (.fiPcieEn who value) s = .next (genErr Reg.GEN_ERR.OWNWR Reg.FI_PCIE.EN.reg who s)) ∧
  (∀ (s : State), exec .fiKeySequenceTimeout s = .next ({ s with fi := { s.fi with keyed := false } })) ∧
  (∀ (unit : UnitFault) (s : State), s.gen.mode ≠ .reset → unit = .policyCore → s.mg.coreSpare = 0 → ∃ t, exec (.policyCoreFault unit) s =
      .next t ∧ Only (places [posting, logging, revoking, windowLog, sending, disarming] [.gen, .sh, .cmds, .mx, .ns, .mm, .me, .tw, .dg,
      .nand, .ff, .prov, .reg Reg.GEN_DRAIN.ACTIVE, .reg Reg.MX_ERR.CEILHOLD, .reg Reg.ME_ERR.REPAIRFULL, .reg Reg.FI_ERR.REALFAULT]) s t ∧
      t = (let u := { nextOut 0 s with mg := { (nextOut 0 s).mg with cores := (nextOut 0 s).mg.cores - 1 } };
      if u.mg.cores < 12 then spareExhausted 0 u else u)) ∧
  (∀ (unit : UnitFault) (s : State), s.gen.mode ≠ .reset → unit = .ldpcEngine → ∃ t, exec (.policyCoreFault unit) s = .next t ∧
      Only (places [posting, logging, revoking, windowLog, sending, disarming] [.gen, .sh, .cmds, .mx, .ns, .mm, .me, .tw, .dg, .nand, .ff,
      .prov, .reg Reg.GEN_DRAIN.ACTIVE, .reg Reg.MX_ERR.CEILHOLD, .reg Reg.ME_ERR.REPAIRFULL, .reg Reg.FI_ERR.REALFAULT]) s t ∧ t =
      engineFault s) ∧
  (∀ (unit : UnitFault) (ctx : Option Nat) (s : State), s.gen.mode ≠ .reset → unit = .digestLane ctx → ∃ t, exec (.policyCoreFault unit) s =
      .next t ∧ Only (places [posting, logging, revoking, windowLog, sending, disarming] [.gen, .sh, .cmds, .mx, .ns, .mm, .me, .tw, .dg,
      .nand, .ff, .prov, .reg Reg.GEN_DRAIN.ACTIVE, .reg Reg.MX_ERR.CEILHOLD, .reg Reg.ME_ERR.REPAIRFULL, .reg Reg.FI_ERR.REALFAULT]) s t ∧
      t = laneFault ctx s) ∧
  (∀ (unit : UnitFault) (s : State), s.gen.mode ≠ .reset → unit = .compressLane → ∃ t, exec (.policyCoreFault unit) s = .next t ∧
      Only (places [posting, logging, revoking, windowLog, sending, disarming] [.gen, .sh, .cmds, .mx, .ns, .mm, .me, .tw, .dg, .nand, .ff,
      .prov, .reg Reg.GEN_DRAIN.ACTIVE, .reg Reg.MX_ERR.CEILHOLD, .reg Reg.ME_ERR.REPAIRFULL, .reg Reg.FI_ERR.REALFAULT]) s t ∧ t =
      compressFault s) ∧
  (∀ (unit : UnitFault) (row : Nat) (hardware : Bool) (bufs : List Nat) (s : State), s.gen.mode ≠ .reset → unit =
      .sramRow row hardware bufs → ∃ t, exec (.policyCoreFault unit) s = .next t ∧ Only (places [posting, logging, revoking, windowLog,
      sending, disarming] [.gen, .sh, .cmds, .mx, .ns, .mm, .me, .tw, .dg, .nand, .ff, .prov, .reg Reg.GEN_DRAIN.ACTIVE,
      .reg Reg.MX_ERR.CEILHOLD, .reg Reg.ME_ERR.REPAIRFULL, .reg Reg.FI_ERR.REALFAULT]) s t ∧ t = repairRow row hardware bufs s) ∧
  (∀ (who : Writer) (key : BitVec 16) (s : State), setupOpen who s = true → mayWrite who Reg.FI_ARM.KEY.reg s = true → s.gen.mode =
      .service → key = 0x5E5E → s.fi.keyed = true → s.fi.armed = true → ∃ t, exec (.fiArmKey who key) s = .next t ∧ Only (places [posting,
      logging, turnedAway] [.fi, .reg Reg.FI_ARM.ARMED, .reg Reg.FI_ERR.KEY]) s t ∧ t = { s with fi := { s.fi with keyed := false } }) ∧
  (∀ (who : Writer) (key : BitVec 16) (s : State), setupOpen who s = false → exec (.fiArmKey who key) s = .next s) ∧
  (∀ (who : Writer) (key : BitVec 16) (s : State), key = 0 → mayWrite who Reg.FI_ARM.KEY.reg s = true → exec (.fiArmKey who key) s =
      .next s) ∧
  (∀ (who : Writer) (s : State), setupOpen who s = false → exec (.fiDisarm who) s = .next s) ∧
  (∀ (who : Writer) (s : State), mayWrite who Reg.FI_ARM.DISARM.reg s = true → s.fi.armed = false → exec (.fiDisarm who) s = .next s) ∧
  (∀ (who : Writer) (value : Word) (s : State), setupOpen who s = true → mayWrite who Reg.FI_GF.EN.reg s = true →
      fieldBits Reg.FI_GF.EN value.toNat = 1 → (isOn Reg.FI_GF.EN s = true ∨ s.fi.armed = true) → s.gen.mode = .service →
      gfLimit value.toNat = false → ∃ t, exec (.fiGfEn who value) s = .next t ∧ Only (places [turnedAway] [.fs, .bp, .fi,
      .reg Reg.GEN_ERR.LOCKWR, .reg Reg.GEN_ERR.RANGE, .win 0xf8008 0xf800c, .reg Reg.FI_ERR.NOTARMED]) s t ∧ t =
      genErr Reg.GEN_ERR.RANGE Reg.FI_GF.EN.reg who s) ∧
  (∀ (who : Writer) (value : Word) (s : State), setupOpen who s = true → mayWrite who Reg.FI_GF.EN.reg s = true →
      fieldBits Reg.FI_GF.EN value.toNat ≠ 1 → ∃ t, exec (.fiGfEn who value) s = .next t ∧ Only (places [turnedAway] [.fs, .bp, .fi,
      .reg Reg.GEN_ERR.LOCKWR, .reg Reg.GEN_ERR.RANGE, .win 0xf8008 0xf800c, .reg Reg.FI_ERR.NOTARMED]) s t ∧ isOn Reg.FI_GF.EN t = false ∧
      t = (setF Reg.FI_GF.EN 0 (writeFields who Reg.FI_GF.EN.reg value.toNat s))) ∧
  (∀ (who : Writer) (value : Word) (s : State), setupOpen who s = false → exec (.fiGfEn who value) s = .next s) ∧
  (∀ (who : Writer) (value : Word) (s : State), setupOpen who s = true → mayWrite who Reg.FI_FL.EN.reg s = true →
      fieldBits Reg.FI_FL.EN value.toNat = 1 → isOn Reg.FI_FL.EN s = false → (s.fi.armed = false ∨ fiMode s.gen.mode = false) → ∃ t,
      exec (.fiFlEn who value) s = .next t ∧ Only (places [turnedAway] [.fs, .bp, .fi, .reg Reg.GEN_ERR.LOCKWR, .reg Reg.GEN_ERR.RANGE,
      .win 0xf800c 0xf8010, .reg Reg.FI_ERR.NOTARMED]) s t ∧ t = flagOn Reg.FI_ERR.NOTARMED s) ∧
  (∀ (who : Writer) (value : Word) (s : State), setupOpen who s = true → mayWrite who Reg.FI_FL.EN.reg s = true →
      fieldBits Reg.FI_FL.EN value.toNat ≠ 1 → ∃ t, exec (.fiFlEn who value) s = .next t ∧ Only (places [turnedAway] [.fs, .bp, .fi,
      .reg Reg.GEN_ERR.LOCKWR, .reg Reg.GEN_ERR.RANGE, .win 0xf800c 0xf8010, .reg Reg.FI_ERR.NOTARMED]) s t ∧ isOn Reg.FI_FL.EN t = false ∧
      t = (setF Reg.FI_FL.EN 0 (writeFields who Reg.FI_FL.EN.reg value.toNat s))) ∧
  (∀ (who : Writer) (value : Word) (s : State), setupOpen who s = false → exec (.fiFlEn who value) s = .next s) ∧
  (∀ (who : Writer) (value : Word) (s : State), setupOpen who s = true → mayWrite who Reg.FI_PCIE.EN.reg s = true →
      fieldBits Reg.FI_PCIE.EN value.toNat = 1 → isOn Reg.FI_PCIE.EN s = false → (s.fi.armed = false ∨ fiMode s.gen.mode = false) → ∃ t,
      exec (.fiPcieEn who value) s = .next t ∧ Only (places [turnedAway] [.fs, .bp, .fi, .reg Reg.GEN_ERR.LOCKWR, .reg Reg.GEN_ERR.RANGE,
      .win 0xf8010 0xf8014, .reg Reg.FI_ERR.NOTARMED]) s t ∧ t = flagOn Reg.FI_ERR.NOTARMED s) ∧
  (∀ (who : Writer) (value : Word) (s : State), setupOpen who s = true → mayWrite who Reg.FI_PCIE.EN.reg s = true →
      fieldBits Reg.FI_PCIE.EN value.toNat = 1 → (isOn Reg.FI_PCIE.EN s = true ∨ s.fi.armed = true) → s.gen.mode = .service → ∃ t,
      exec (.fiPcieEn who value) s = .next t ∧ Only (places [turnedAway] [.fs, .bp, .fi, .reg Reg.GEN_ERR.LOCKWR, .reg Reg.GEN_ERR.RANGE,
      .win 0xf8010 0xf8014, .reg Reg.FI_ERR.NOTARMED]) s t ∧ t = genErr Reg.GEN_ERR.RANGE Reg.FI_PCIE.EN.reg who s) ∧
  (∀ (who : Writer) (value : Word) (s : State), setupOpen who s = true → mayWrite who Reg.FI_PCIE.EN.reg s = true →
      fieldBits Reg.FI_PCIE.EN value.toNat ≠ 1 → ∃ t, exec (.fiPcieEn who value) s = .next t ∧ Only (places [turnedAway] [.fs, .bp, .fi,
      .reg Reg.GEN_ERR.LOCKWR, .reg Reg.GEN_ERR.RANGE, .win 0xf8010 0xf8014, .reg Reg.FI_ERR.NOTARMED]) s t ∧ isOn Reg.FI_PCIE.EN t =
      false ∧ t = (setF Reg.FI_PCIE.EN 0 (writeFields who Reg.FI_PCIE.EN.reg value.toNat s))) ∧
  (∀ (who : Writer) (value : Word) (s : State), setupOpen who s = false → exec (.fiPcieEn who value) s = .next s)

/-- Configuration registers, ASPM, CMBMSC, self-test and coalescing. Rules: R56, R57, R64, R74, R94, R98, R368. -/
def Obligations.PortsAndTimers : Prop :=
  (∀ (s : State), s.mg.run = false → s.gen.bootVerified = true → ∃ t, exec .managementResetEnd s = .next t ∧ Only [.he, .mg] s t ∧ t.mg =
      { s.mg with run := true, wdogAt := now s } ∧ t =
      doeResume .b (doeResume .a { s with mg := { s.mg with run := true, wdogAt := now s } })) ∧
  (∀ (s : State), (s.mg.run = true ∨ s.gen.bootVerified = false) → exec .managementResetEnd s = .next s) ∧
  (∀ (port : Port) (reg : Nat) (value : Word) (s : State), portExists port s = true → heAnswers s = true → reg = 0x004 → ∃ t,
      exec (.configRegisterWrite port reg value) s = .next t ∧ Only [.out, .he] s t ∧ (t.port port) =
      { s.port port with command := value.toNat % 65536 } ∧ t = configDone port (configStore port reg value.toNat s)) ∧
  (∀ (port : Port) (reg : Nat) (value : Word) (s : State), portExists port s = true → heAnswers s = true → reg = 0x103 → ∃ t,
      exec (.configRegisterWrite port reg value) s = .next t ∧ Only [.out, .he] s t ∧ (t.port port) =
      { s.port port with aspmL1 := value.toNat.testBit 1, rcb := if value.toNat.testBit 3 then 128 else 64 } ∧ t =
      configDone port (configStore port reg value.toNat s)) ∧
  (∀ (port : Port) (reg : Nat) (value : Word) (s : State), (portExists port s = false ∨ heAnswers s = false) → ∃ t,
      exec (.configRegisterWrite port reg value) s = .next t ∧ Only [.out, .he] s t ∧ t = configRetry port s) ∧
  (∀ (port : Port) (s : State), ∃ t, exec (.aspmL1Exit port) s = .next t ∧ Only [.he] s t ∧ (t.port port) =
      { s.port port with l1 := false, l12 := false }) ∧
  (∀ (port : Port) (cmse : Bool) (cba : Nat) (s : State), memOpen port s = true → ∃ t, exec (.cmbmscWrite port cmse cba) s = .next t ∧
      Only [.he] s t ∧ (t.port port) = { s.port port with cmse := cmse, cba := cba % 2 ^ 64 / 4096 * 4096 }) ∧
  (∀ (port : Port) (cmse : Bool) (cba : Nat) (s : State), memOpen port s = false → exec (.cmbmscWrite port cmse cba) s = .next s) ∧
  (∀ (result : Nat) (s : State), ∃ t, exec (.deviceSelfTestComplete result) s = .next t ∧ Only [.ctl] s t ∧ t =
      selfTestDone .b result (selfTestDone .a result s)) ∧
  (∀ (port : Port) (vector : Nat) (s : State), sGet (s.con port).icPend 0 vector ≠ 0 → ∃ t,
      exec (.interruptCoalescingTimeout port vector) s = .next t ∧ Only [.out, .he, .ctl] s t ∧ t =
      msix port vector (s.updCon port (fun c => { c with icPend := sPut c.icPend 0 vector 0 })) ∧ sGet (t.con port).icPend 0 vector = 0) ∧
  (∀ (port : Port) (vector : Nat) (s : State), sGet (s.con port).icPend 0 vector = 0 → exec (.interruptCoalescingTimeout port vector) s =
      .next s) ∧
  (∀ (port : Port) (reg : Nat) (value : Word) (s : State), portExists port s = true → heAnswers s = true → ∃ t,
      exec (.configRegisterWrite port reg value) s = .next t ∧ Only [.out, .he] s t ∧ t =
      configDone port (configStore port reg value.toNat s)) ∧
  (∀ (port : Port) (reg : Nat) (value : Word) (s : State), portExists port s = true → heAnswers s = true → reg = 0x101 → ∃ t,
      exec (.configRegisterWrite port reg value) s = .next t ∧ Only [.out, .he] s t ∧ (t.port port) =
      { s.port port with mps := Nat.min (pcieSize (value.toNat / 32 % 8)) 512, mrrs := Nat.min (pcieSize (value.toNat / 4096 % 8)) 4096 } ∧
      t = configDone port (configStore port reg value.toNat s)) ∧
  (∀ (port : Port) (reg : Nat) (value : Word) (s : State), portExists port s = true → heAnswers s = true → reg = 0x102 → ∃ t,
      exec (.configRegisterWrite port reg value) s = .next t ∧ Only [.out, .he] s t ∧ (t.port port) =
      { s.port port with tag10 := value.toNat.testBit 12 } ∧ t = configDone port (configStore port reg value.toNat s)) ∧
  (∀ (result k : Nat) (s : State), s.ctl.a.selfTest = some k → ∃ t, exec (.deviceSelfTestComplete result) s = .next t ∧ Only [.ctl] s t ∧
      t.ctl.a.selfTest = none ∧ t.ctl.a.selfTests = ((k, result % 16) :: s.ctl.a.selfTests).take 20)

/-- Every command answers a next state and leaves the queue alone; a step takes exactly the front command off. No rule of the spec stops the
block on a command: where a command is refused, the refusal is its effect. Rules: R15. -/
def Obligations.EveryCommandCompletes : Prop :=
  (∀ (c : Instr) (s : State), ∃ t : State, exec c s = .next t ∧ t.pending = s.pending) ∧
  (∀ (s t : State), step s = .next t → t.pending = s.pending.tail)

/-- No run ends in a fault or a refusal: from every state, with any commands in its queue, a run of any number of steps answers a next
state. Rules: R15. -/
def Obligations.RunsNeverStop : Prop :=
  ∀ (n : Nat) (s : State), neverStops n s

/-- The state after reset: the mode is RESET, nothing waits or is in flight, FI is disarmed, no window is active, and every register field
holds the value of its Reset column, stored and in force. Rules: R8, R34, R394. -/
def Obligations.ResetState : Prop :=
  (State.reset.gen.mode = .reset) ∧
  (State.reset.pending = []) ∧
  ((∀ f : Field, getF f State.reset = f.rst)) ∧
  ((∀ f : Field, inForce f State.reset = f.rst)) ∧
  (State.reset.fi.armed = false) ∧
  (State.reset.cmds = []) ∧
  (State.reset.he.a.active = [] ∧ State.reset.he.b.active = [])

/-- A byte store (a CMB or the exported region) reads back what was written, and every other offset reads as before; writing keeps the
canonical form. Rules: R63, R317. -/
def Obligations.MemoryReadsBack : Prop :=
  (∀ (l : List (Nat × Byte)) (off k : Nat) (data : List Byte), sGet (putBytes l off data) 0 k = if off ≤ k ∧ k < off +
      data.length then data.getD (k - off) 0 else sGet l 0 k) ∧
  (∀ (l : List (Nat × Byte)) (off : Nat) (data : List Byte), sWf l 0 = true → sWf (putBytes l off data) 0 = true)

/-- The invariants hold after reset: canonical byte stores, in which an unwritten byte reads 0 (the model's choice, log entry 1), FI
disarmed, and a recorded mode (SERVICE for a part never provisioned, log entry 1). Rules: R35, R63, R317, R394. -/
def Obligations.InvariantsAtReset : Prop :=
  (Memory.wf State.reset = true) ∧
  (∀ k : Nat, sGet State.reset.me.exported 0 k = 0 ∧ sGet State.reset.he.a.cmb 0 k = 0 ∧ sGet State.reset.he.b.cmb 0 k = 0) ∧
  (FiLegal State.reset ∧ State.reset.fi.armed = false) ∧
  (ModesLegal State.reset ∧ State.reset.gen.mode ≠ .lowpower)

/-- Every step keeps the byte stores in canonical form: equal contents stay equal data. Rules: R63, R317. -/
def Obligations.MemoryStaysCanonical : Prop :=
  ∀ (s t : State), Memory.wf s = true → step s = .next t → Memory.wf t = true

/-- FI is armed only in SERVICE and DIAGNOSTIC: every step keeps it so, for leaving those modes disarms FI (R394). -/
def Obligations.FiArmedOnlyWhereAllowed : Prop :=
  ∀ (s t : State), FiLegal s → step s = .next t → FiLegal t

/-- The provisioning record holds only SERVICE, STANDBY, INGEST or SEALED (R35), and LOWPOWER returns only to SERVICE or SEALED (rows 8 and
9 of Table 2.2): every step keeps both. -/
def Obligations.RecordedModesStayLegal : Prop :=
  ∀ (s t : State), ModesLegal s → step s = .next t → ModesLegal t

/-- No step undoes a fuse: the UID and the ROM ID are the same, and ARB never falls (R359). -/
def Obligations.FusesNeverFall : Prop :=
  ∀ (s t : State), step s = .next t → FusesKept s t

/-- A map entry and its 64-bit word agree (R151, Table 6.1): every field stands in its bits, the reserved bits are written as 0 and ignored
when read, and the bytes are little-endian. -/
def Obligations.MapEntryLayout : Prop :=
  (∀ (e : MapEntry) (w : Nat), e.fits = true → w = e.word → w < 2 ^ 59 ∧ leVal (leBytes 8 w) = w ∧ (leBytes 8 w).length = 8 ∧
      w / 2 ^ 43 % 256 = e.glen ∧ w.testBit 51 = e.lost ∧ w.testBit 52 = e.dealloc ∧ w / 2 ^ 53 % 4 = e.rgen ∧ w / 2 ^ 55 % 8 = e.vhint ∧
      w.testBit 58 = e.staged ∧ (if e.staged then w % 2 ^ 38 = e.stidx else w % 2 ^ 11 = e.die ∧ w / 2 ^ 11 % 2 ^ 14 = e.block ∧
      w / 2 ^ 25 % 4 = e.plane ∧ w / 2 ^ 27 % 2 ^ 11 = e.page ∧ w / 2 ^ 38 % 32 = e.goff) ∧ MapEntry.ofWord w = e) ∧
  (∀ (e : MapEntry), e.fits = true → ∀ r : Nat, MapEntry.ofWord (e.word + 2 ^ 59 * r) = e)

/-- Tag entries (Tables 6.7 and 6.8) and the headers of stored forms (Table 9.3) read back from their bytes. Rules: R171, R236. -/
def Obligations.TagAndHeaderLayouts : Prop :=
  (∀ t : Tag16, t.origCsn < 2 ^ 64 → t.grain < 2 ^ 40 → t.nsid < 2 ^ 11 → t.glen < 256 → t.bytes.length = 16 ∧ Tag16.ofBytes t.bytes = t) ∧
  (∀ h : Headed, h.ver < 256 → h.sizes < 256 → h.mdsz < 256 → h.clen < 2 ^ 32 → h.ucrc < 2 ^ 32 → h.marks < 2 ^ 32 → h.bytes.length = 16 ∧
      Headed.ofBytes h.bytes = h)

/-- Two missing units of a stripe position are recovered (R210, R211): from P and Q, or, for one data unit, from P alone and from Q alone.
-/
def Obligations.ParityRecovery : Prop :=
  (∀ (ds : List Byte) (a b : Nat) (x y : Byte), ds.length ≤ 255 → a < b → ds[a]? = some x → ds[b]? = some y →
      recoverTwo a b (syndromes (parityP ds) (parityQ 0 ds) ((ds.set a 0).set b 0)).1 (syndromes (parityP ds) (parityQ 0 ds) ((ds.set a 0).set b 0)).2 =
      (x, y)) ∧
  (∀ (ds : List Byte) (a : Nat) (x : Byte) (pThere : Bool), ds.length ≤ 255 → ds[a]? = some x →
      recoverOne a pThere (syndromes (parityP ds) (parityQ 0 ds) (ds.set a 0)).1 (syndromes (parityP ds) (parityQ 0 ds) (ds.set a 0)).2 = x)

/-- Shaping (R248): deshaping undoes it, 15 bits become 16, and every group of 16 holds at least 8 bits of the polarity. -/
def Obligations.ShapingRoundTrip : Prop :=
  (∀ (pol : Bool) (n : Nat) (l : List Bool), l.length = 15 * n → (shapeBits pol n l).length = 16 * n ∧
      deshapeBits pol n (shapeBits pol n l) = l) ∧
  (∀ (pol : Bool) (g : List Bool), g.length = 15 → (shapeGroup pol g).length = 16 ∧ 8 ≤ (shapeGroup pol g).countP (· == pol))

/-- The static symbol code of Table 9.4 reads back whatever follows it, so no code is the beginning of another (R237). -/
def Obligations.TokenCodeRoundTrip : Prop :=
  (∀ (s : Nat) (rest : List Bool), s ≤ 272 → nextSym (symCode s ++ rest) = some (s, rest)) ∧
  (∀ (s u : Nat) (v w : List Bool), s ≤ 272 → u ≤ 272 → symCode s ++ v = symCode u ++ w → s = u ∧ v = w)

/-- Which accesses BAR0 accepts, and what becomes of the others (R62). An accepted access goes on to the register it names, by the rows of
that register. -/
def Obligations.Bar0Accesses : Prop :=
  (∀ off len : Nat, bar0Good off len = true ↔ (len = 4 ∧ off % 4 = 0) ∨ (len = 8 ∧ off % 8 = 0 ∧ (off = 0 ∨ off = 0x28 ∨ off = 0x30 ∨ off =
      0x50))) ∧
  (∀ (port : Port) (isRead : Bool) (offset len : Nat) (s : State), memOpen port s = true → bar0Good offset len = true →
      exec (.bar0BadAccess port isRead offset len) s = .next s) ∧
  (∀ (port : Port) (isRead : Bool) (offset len : Nat) (s : State), memOpen port s = true → bar0Good offset len = false → isRead = true →
      ∃ t, exec (.bar0BadAccess port isRead offset len) s = .next t ∧ Only [.out, .he, .reg Reg.HE_ERRSTAT.A_BADMMIO,
      .reg Reg.HE_ERRSTAT.B_BADMMIO] s t ∧ t.out.head? = some (.tlpCpl port 0 cplCA [] false) ∧ t = caCpl port 0 s) ∧
  (∀ (port : Port) (isRead : Bool) (offset len : Nat) (s : State), memOpen port s = true → bar0Good offset len = false → isRead = false →
      exec (.bar0BadAccess port isRead offset len) s = .next (setF (portF port Reg.HE_ERRSTAT.A_BADMMIO Reg.HE_ERRSTAT.B_BADMMIO) 1 s))

/-- How an admin command completes (R22, R85, R387). -/
def Obligations.CompletionEntries : Prop :=
  (∀ (h : AdminHdr) (sct sc dw0 dw1 : Nat) (s : State), h.tunnelled = true → adminDone h sct sc dw0 dw1 s = emit (.mi (sc + 256 * sct) [dw0,
      dw1]) s) ∧
  (∀ (h : AdminHdr) (sct sc dw0 dw1 : Nat) (q : Sq) (c : Cq) (s : State), h.tunnelled = false → (s.con h.port).sqs.find? (fun x => x.qid ==
      0) = some q → (s.con h.port).cqs.find? (fun x => x.qid == q.cq) = some c → c.hasRoom = true → c.held = [] → Output.cqe h.port ⟨c.qid,
      0, q.head, h.cid, sct, sc, dw0, dw1, c.phase⟩ ∈ (adminDone h sct sc dw0 dw1 s).out ∧ ((adminDone h sct sc dw0 dw1 s).con h.port).cqs =
      updFirst (s.con h.port).cqs (fun x => x.qid ==
      c.qid) (fun x => { x with tail := (x.tail + 1) % x.size, phase := if x.tail + 1 = x.size then !x.phase else x.phase })) ∧
  (∀ (h : AdminHdr) (sct sc dw0 dw1 : Nat) (q : Sq) (c : Cq) (s : State), h.tunnelled = false → (s.con h.port).sqs.find? (fun x => x.qid ==
      0) = some q → (s.con h.port).cqs.find? (fun x => x.qid == q.cq) = some c → c.hasRoom = false → adminDone h sct sc dw0 dw1 s =
      bump Reg.QE_CQFULL.COUNT (updCq h.port c.qid (fun x => { x with held := x.held ++ [⟨now s, ⟨c.qid, 0, q.head, h.cid, sct, sc, dw0, dw1, c.phase⟩, none⟩] }) s))

/-- A setup register field stores what fits it and touches no other; a count saturates at the field's largest value (R7, R8). -/
def Obligations.SetupFieldsStore : Prop :=
  (∀ (f : Field) (v : Nat) (s : State), getF f (setF f v s) = v % 2 ^ f.width) ∧
  (∀ (f g : Field) (v : Nat) (s : State), g.key ≠ f.key → getF g (setF f v s) = getF g s) ∧
  (∀ (f : Field) (n : Nat) (s : State), getF f (bumpBy f n s) = Nat.min (getF f s + n) (2 ^ f.width - 1)) ∧
  (∀ (f : Field) (v : Nat) (s : State), Only [.reg f] s (setF f v s))
end

