-- ==== Sys2Proof/Laws/Sparse.lean ====
section
/-! SUPPORT. The laws of the sparse stores: what is read after a write, that a write leaves every other key alone, and that it
keeps the canonical form. -/
namespace Sys2Proof.Machine

/-- Removing a key leaves every other key's value. -/
theorem sGet_sDel_ne {α : Type} (l : List (Nat × α)) (d : α) {k j : Nat} (h : j ≠ k) : sGet (sDel l k) d j = sGet l d j := by
  induction l with
  | nil => rfl
  | cons x t ih =>
    obtain ⟨k', v⟩ := x
    by_cases hk : k' = k
    · subst hk; simp [sDel, sGet, Ne.symm h, ih]
    · simp only [sDel, hk, if_false, sGet, ih]

/-- Inserting at a key leaves every other key's value. -/
theorem sGet_sIns_ne {α : Type} (l : List (Nat × α)) (d : α) {k j : Nat} (v : α) (h : j ≠ k) :
    sGet (sIns l k v) d j = sGet l d j := by
  induction l with
  | nil => simp [sIns, sGet, Ne.symm h]
  | cons x t ih =>
    obtain ⟨k', v'⟩ := x
    by_cases h1 : k < k'
    · simp [sIns, sGet, h1, Ne.symm h]
    · by_cases h2 : k = k'
      · subst h2; simp [sIns, sGet, Ne.symm h]
      · simp only [sIns, h1, h2, if_false, sGet, ih]

/-- A write leaves every other key's value. -/
theorem sGet_sPut_ne {α : Type} [DecidableEq α] (l : List (Nat × α)) (e d : α) {k j : Nat} (v : α) (h : j ≠ k) :
    sGet (sPut l e k v) d j = sGet l d j := by
  unfold sPut; split
  · exact sGet_sDel_ne l d h
  · exact sGet_sIns_ne l d v h

/-- The value inserted is the value read. -/
theorem sGet_sIns_self {α : Type} (l : List (Nat × α)) (d : α) (k : Nat) (v : α) : sGet (sIns l k v) d k = v := by
  induction l with
  | nil => simp [sIns, sGet]
  | cons x t ih =>
    obtain ⟨k', v'⟩ := x
    by_cases h1 : k < k'
    · simp [sIns, sGet, h1]
    · by_cases h2 : k = k'
      · subst h2; simp [sIns, sGet]
      · simp [sIns, sGet, h1, h2, Ne.symm h2, ih]

/-- Every key of a list is above `k`: `k` reads as the default. -/
theorem sGet_above {α : Type} (l : List (Nat × α)) (d : α) (k : Nat) (h : ∀ p ∈ l, k < p.1) : sGet l d k = d := by
  induction l with
  | nil => rfl
  | cons x t ih =>
    obtain ⟨k', v⟩ := x
    have := h (k', v) (by simp)
    have hk : k' ≠ k := by simp at this; omega
    simp only [sGet, hk, if_false]
    exact ih (fun p hp => h p (List.mem_cons_of_mem _ hp))

/-- The keys of the rest of a sorted list lie above its first. -/
theorem sSorted_cons {α : Type} {k : Nat} {v : α} {t : List (Nat × α)} :
    sSorted ((k, v) :: t) = true ↔ (∀ p ∈ t, k < p.1) ∧ sSorted t = true := by
  simp [sSorted]

/-- A removed key reads as the default. -/
theorem sGet_sDel_self {α : Type} (l : List (Nat × α)) (d : α) (k : Nat) : sGet (sDel l k) d k = d := by
  induction l with
  | nil => rfl
  | cons x t ih =>
    obtain ⟨k', v⟩ := x
    by_cases hk : k' = k
    · simp [sDel, hk, ih]
    · simp [sDel, sGet, hk, ih]

/-- A write is read back. -/
theorem sGet_sPut_self {α : Type} [DecidableEq α] (l : List (Nat × α)) (d : α) (k : Nat) (v : α) : sGet (sPut l d k v) d k = v := by
  unfold sPut; split
  · rename_i hv; rw [hv]; exact sGet_sDel_self l d k
  · exact sGet_sIns_self l d k v

/-- What removing a key leaves was there. -/
theorem mem_sDel {α : Type} {l : List (Nat × α)} {k : Nat} {p : Nat × α} (h : p ∈ sDel l k) : p ∈ l := by
  induction l with
  | nil => exact h
  | cons x t ih =>
    obtain ⟨k', v⟩ := x
    by_cases hk : k' = k
    · simp only [sDel, hk, if_true] at h; exact List.mem_cons_of_mem _ (ih h)
    · simp only [sDel, hk, if_false, List.mem_cons] at h ⊢
      exact h.imp id ih

/-- What an insertion leaves was there or is what was inserted. -/
theorem mem_sIns {α : Type} {l : List (Nat × α)} {k : Nat} {v : α} {p : Nat × α} (h : p ∈ sIns l k v) : p = (k, v) ∨ p ∈ l := by
  induction l with
  | nil => simp [sIns] at h; exact .inl h
  | cons x t ih =>
    obtain ⟨k', v'⟩ := x
    by_cases h1 : k < k'
    · simpa [sIns, h1] using h
    · by_cases h2 : k = k'
      · subst h2
        simp only [sIns, h1, if_false, if_true, List.mem_cons] at h ⊢
        exact h.imp id .inr
      · simp only [sIns, h1, h2, if_false, List.mem_cons] at h ⊢
        rcases h with h | h
        · exact .inr (.inl h)
        · exact (ih h).imp id .inr

/-- Removing a key keeps the list sorted. -/
theorem sSorted_sDel {α : Type} {l : List (Nat × α)} (k : Nat) (h : sSorted l = true) : sSorted (sDel l k) = true := by
  induction l with
  | nil => rfl
  | cons x t ih =>
    obtain ⟨k', v⟩ := x
    obtain ⟨h1, h2⟩ := sSorted_cons.mp h
    by_cases hk : k' = k
    · simpa [sDel, hk] using ih h2
    · simp only [sDel, hk, if_false]
      exact sSorted_cons.mpr ⟨fun p hp => h1 p (mem_sDel hp), ih h2⟩

/-- An insertion keeps the list sorted. -/
theorem sSorted_sIns {α : Type} {l : List (Nat × α)} (k : Nat) (v : α) (h : sSorted l = true) : sSorted (sIns l k v) = true := by
  induction l with
  | nil => simp [sIns, sSorted]
  | cons x t ih =>
    obtain ⟨k', v'⟩ := x
    obtain ⟨h1, h2⟩ := sSorted_cons.mp h
    by_cases hl : k < k'
    · simp only [sIns, hl, if_true]
      refine sSorted_cons.mpr ⟨fun p hp => ?_, h⟩
      rcases List.mem_cons.mp hp with hp | hp
      · rw [hp]; exact hl
      · exact lt_trans hl (h1 p hp)
    · by_cases hk : k = k'
      · subst hk
        simp only [sIns, hl, if_false, if_true]
        exact sSorted_cons.mpr ⟨h1, h2⟩
      · simp only [sIns, hl, hk, if_false]
        refine sSorted_cons.mpr ⟨fun p hp => ?_, ih h2⟩
        rcases mem_sIns hp with hp | hp
        · rw [hp]; show k' < k; omega
        · exact h1 p hp

/-- A write keeps the canonical form. -/
theorem sWf_sPut {α : Type} [DecidableEq α] {l : List (Nat × α)} {d : α} (k : Nat) (v : α) (h : sWf l d = true) :
    sWf (sPut l d k v) d = true := by
  simp only [sWf, Bool.and_eq_true, List.all_eq_true, decide_eq_true_eq] at h ⊢
  unfold sPut; split
  · exact ⟨sSorted_sDel k h.1, fun p hp => h.2 p (mem_sDel hp)⟩
  · rename_i hv
    refine ⟨sSorted_sIns k v h.1, fun p hp => ?_⟩
    rcases mem_sIns hp with hp | hp
    · rw [hp]; exact hv
    · exact h.2 p hp

/-- Keeping the entries whose key passes a test leaves the value at a key that passes. -/
theorem sGet_filter {α : Type} (l : List (Nat × α)) (d : α) (p : Nat × α → Bool) {j : Nat} (h : ∀ v, p (j, v) = true) :
    sGet (l.filter p) d j = sGet l d j := by
  induction l with
  | nil => rfl
  | cons x t ih =>
    obtain ⟨k, v⟩ := x
    by_cases hk : k = j
    · subst hk; simp [h v, sGet]
    · by_cases hp : p (k, v) <;> simp [hp, sGet, hk, ih]

end Sys2Proof.Machine
end

