-- ==== Sys2Proof/Laws/Only.lean ====
section
/-! SUPPORT. The laws of `Only`, by which the frames of composed operations follow from those of their parts: doing nothing, one
change after another, a choice, a fold, one law for each record update the meanings make, and the register writes. -/
namespace Sys2Proof.Machine

/-- Nothing changes. -/
theorem Only.refl (w : List Fld) (s : State) : Only w s s := ⟨fun f _ => by cases f <;> first | rfl | trivial⟩

/-- Two changes in a row. -/
theorem Only.trans {w : List Fld} {r s t : State} (h : Only w r s) (k : Only w s t) : Only w r t := by
  refine ⟨fun f hf => ?_⟩
  have a := h.keeps f hf
  have b := k.keeps f hf
  cases f <;> first | exact Eq.trans b a | trivial

/-- Naming a place allows what the places it covers allow. -/
theorem Fld.covers_trans {a b c : Fld} (h : a.covers b = true) (k : b.covers c = true) : a.covers c = true := by
  cases a <;> cases b <;> first
    | (simp only [Fld.covers, Fld.code, Bool.and_eq_true, beq_iff_eq, decide_eq_true_eq] at h; omega)
    | (cases c <;> simp only [Fld.covers, Fld.code, Bool.and_eq_true, beq_iff_eq, decide_eq_true_eq] at h k ⊢ <;> omega)

/-- What the check of two lists finds. -/
theorem Within.of {v w : List Fld} (h : within w v = true) : Within v w := by
  induction w generalizing v with
  | nil => intro f hf; cases v <;> simp_all [within, covered]
  | cons b t ih =>
    intro f hf
    simp only [covered, List.any_eq_true] at hf
    obtain ⟨g, hg, hc⟩ := hf
    rw [← List.takeWhile_append_dropWhile (p := b.covers) (l := v)] at hg
    rcases List.mem_append.mp hg with hg | hg
    · have := List.mem_takeWhile_imp hg
      simp only [covered, List.any_cons, Bool.or_eq_true]
      exact .inl (Fld.covers_trans this hc)
    · have := ih h f (by simp only [covered, List.any_eq_true]; exact ⟨g, hg, hc⟩)
      simp only [covered, List.any_cons, Bool.or_eq_true] at this ⊢
      exact .inr this

/-- The same, place by place. -/
theorem Within.ofAll {v w : List Fld} (h : v.all (covered w) = true) : Within v w := by
  intro f hf
  simp only [covered, List.any_eq_true] at hf
  obtain ⟨g, hg, hc⟩ := hf
  have := List.all_eq_true.mp h g hg
  simp only [covered, List.any_eq_true] at this ⊢
  obtain ⟨a, ha, hb⟩ := this
  exact ⟨a, ha, Fld.covers_trans hb hc⟩

/-- Lists within lists. -/
theorem Within.trans {v l w : List Fld} (h : Within v l) (k : Within l w) : Within v w := fun f hf => k f (h f hf)

/-- One place, in a list that another allows. -/
theorem Within.one {f : Fld} {l w : List Fld} (h : covered l f = true) (k : Within l w) : covered w f = true := k f h

/-- A place of a list alone. -/
theorem Within.single {f : Fld} {w : List Fld} (h : covered w f = true) : Within [f] w := by
  intro g hg
  simp only [covered, List.any_cons, List.any_nil, Bool.or_false, List.any_eq_true] at hg h ⊢
  obtain ⟨a, ha, hb⟩ := h
  exact ⟨a, ha, Fld.covers_trans hb hg⟩

/-- A change that keeps within fewer places. -/
theorem Only.mono {w v : List Fld} {s t : State} (h : Only v s t) (hw : Within v w) : Only w s t := by
  refine ⟨fun f hf => h.keeps f ?_⟩
  by_contra hc
  exact absurd (hw f (by simpa using hc)) (by simp [hf])

/-- One more operation after a change. -/
theorem Only.step {w v : List Fld} {r s t : State} (k : Only v s t) (hw : Within v w) (h : Only w r s) :
    Only w r t := h.trans (k.mono hw)

/-- A choice between two changes. -/
theorem Only.ite {w : List Fld} {c : Prop} [Decidable c] {r a b : State} (ha : Only w r a) (hb : Only w r b) :
    Only w r (if c then a else b) := by split <;> assumption

/-- A fold of changes. -/
theorem Only.foldl {β : Type} {w : List Fld} {r s : State} {g : State → β → State} {l : List β}
    (hg : ∀ t b, Only w r t → Only w r (g t b)) (h : Only w r s) : Only w r (l.foldl g s) := by
  induction l generalizing s with
  | nil => exact h
  | cons b l ih => exact ih (hg _ _ h)

/-- A fold of changes that also gathers something. -/
theorem Only.foldl2 {α β : Type} {w : List Fld} {r : State} {x : α × State} {g : α × State → β → α × State} {l : List β}
    (hg : ∀ y b, Only w r y.2 → Only w r (g y b).2) (h : Only w r x.2) : Only w r (l.foldl g x).2 := by
  induction l generalizing x with
  | nil => exact h
  | cons b l ih => exact ih (hg _ _ h)

/-- A change seen first of an intermediate state. -/
theorem Only.cut {w : List Fld} {r t : State} (x : State) (h : Only w r x) (k : Only w r x → Only w r t) : Only w r t := k h

/-- A change seen first of the state that comes second in a pair. -/
theorem Only.cut2 {α : Type} {w : List Fld} {r t : State} (x : α × State) (h : Only w r x.2) (k : Only w r x.2 → Only w r t) :
    Only w r t := k h

/-- A change seen first of the state that comes third. -/
theorem Only.cut3 {α β : Type} {w : List Fld} {r t : State} (x : α × β × State) (h : Only w r x.2.2)
    (k : Only w r x.2.2 → Only w r t) : Only w r t := k h

/-- A change seen first of an operation that is named. -/
theorem Only.cutF {w : List Fld} {r t : State} (x : State → State) (h : ∀ u, Only w r u → Only w r (x u))
    (k : (∀ u, Only w r u → Only w r (x u)) → Only w r t) : Only w r t := k h

/-- The same of one with an argument. -/
theorem Only.cutG {α : Type} {w : List Fld} {r t : State} (x : α → State → State) (h : ∀ a u, Only w r u → Only w r (x a u))
    (k : (∀ a u, Only w r u → Only w r (x a u)) → Only w r t) : Only w r t := k h

/-- The same of one with three arguments. -/
theorem Only.cutG3 {α β γ : Type} {w : List Fld} {r t : State} (x : α → β → γ → State → State)
    (h : ∀ a b c u, Only w r u → Only w r (x a b c u))
    (k : (∀ a b c u, Only w r u → Only w r (x a b c u)) → Only w r t) : Only w r t := k h

/-- The same of one with two arguments. -/
theorem Only.cutG2 {α β : Type} {w : List Fld} {r t : State} (x : α → β → State → State)
    (h : ∀ a b u, Only w r u → Only w r (x a b u))
    (k : (∀ a b u, Only w r u → Only w r (x a b u)) → Only w r t) : Only w r t := k h

/-- The same of one that answers a pair. -/
theorem Only.cutP {α : Type} {w : List Fld} {r t : State} (x : State → α × State) (h : ∀ u, Only w r u → Only w r (x u).2)
    (k : (∀ u, Only w r u → Only w r (x u).2) → Only w r t) : Only w r t := k h

/-- The same of one with the state first. -/
theorem Only.cutH {α : Type} {w : List Fld} {r t : State} (x : State → α → State) (h : ∀ u a, Only w r u → Only w r (x u a))
    (k : (∀ u a, Only w r u → Only w r (x u a)) → Only w r t) : Only w r t := k h

/-- The state in a pair, by an equation. -/
theorem Only.of_eq2 {α : Type} {w : List Fld} {s t : State} {x : α × State} {a : α} (h : x = (a, t)) (k : Only w s x.2) :
    Only w s t := by rw [h] at k; exact k

/-- The state that comes third, by an equation. -/
theorem Only.of_eq3 {α β : Type} {w : List Fld} {s t : State} {x : α × β × State} {a : α} {b : β} (h : x = (a, b, t))
    (k : Only w s x.2.2) : Only w s t := by rw [h] at k; exact k

/-- A change of `pending`. -/
theorem Only.upd_pending {w : List Fld} {r s : State} {x0} (h0 : covered w .pending = true) (h : Only w r s) :
    Only w r { s with pending := x0 } :=
  h.trans ⟨fun f hf => by cases f <;> first | rfl | trivial | exact absurd h0 (hf ▸ Bool.false_ne_true)⟩

/-- A change of `freeCtr`. -/
theorem Only.upd_freeCtr {w : List Fld} {r s : State} {x0} (h0 : covered w .freeCtr = true) (h : Only w r s) :
    Only w r { s with freeCtr := x0 } :=
  h.trans ⟨fun f hf => by cases f <;> first | rfl | trivial | exact absurd h0 (hf ▸ Bool.false_ne_true)⟩

/-- A change of `out`. -/
theorem Only.upd_out {w : List Fld} {r s : State} {x0} (h0 : covered w .out = true) (h : Only w r s) :
    Only w r { s with out := x0 } :=
  h.trans ⟨fun f hf => by cases f <;> first | rfl | trivial | exact absurd h0 (hf ▸ Bool.false_ne_true)⟩

/-- A change of `eff`. -/
theorem Only.upd_eff {w : List Fld} {r s : State} {x0} (h0 : covered w .eff = true) (h : Only w r s) :
    Only w r { s with eff := x0 } :=
  h.trans ⟨fun f hf => by cases f <;> first | rfl | trivial | exact absurd h0 (hf ▸ Bool.false_ne_true)⟩

/-- A change of `time`. -/
theorem Only.upd_time {w : List Fld} {r s : State} {x0} (h0 : covered w .time = true) (h : Only w r s) :
    Only w r { s with time := x0 } :=
  h.trans ⟨fun f hf => by cases f <;> first | rfl | trivial | exact absurd h0 (hf ▸ Bool.false_ne_true)⟩

/-- A change of `pins`. -/
theorem Only.upd_pins {w : List Fld} {r s : State} {x0} (h0 : covered w .pins = true) (h : Only w r s) :
    Only w r { s with pins := x0 } :=
  h.trans ⟨fun f hf => by cases f <;> first | rfl | trivial | exact absurd h0 (hf ▸ Bool.false_ne_true)⟩

/-- A change of `gen`. -/
theorem Only.upd_gen {w : List Fld} {r s : State} {x0} (h0 : covered w .gen = true) (h : Only w r s) :
    Only w r { s with gen := x0 } :=
  h.trans ⟨fun f hf => by cases f <;> first | rfl | trivial | exact absurd h0 (hf ▸ Bool.false_ne_true)⟩

/-- A change of `he`. -/
theorem Only.upd_he {w : List Fld} {r s : State} {x0} (h0 : covered w .he = true) (h : Only w r s) :
    Only w r { s with he := x0 } :=
  h.trans ⟨fun f hf => by cases f <;> first | rfl | trivial | exact absurd h0 (hf ▸ Bool.false_ne_true)⟩

/-- A change of `ctl`. -/
theorem Only.upd_ctl {w : List Fld} {r s : State} {x0} (h0 : covered w .ctl = true) (h : Only w r s) :
    Only w r { s with ctl := x0 } :=
  h.trans ⟨fun f hf => by cases f <;> first | rfl | trivial | exact absurd h0 (hf ▸ Bool.false_ne_true)⟩

/-- A change of `sh`. -/
theorem Only.upd_sh {w : List Fld} {r s : State} {x0} (h0 : covered w .sh = true) (h : Only w r s) :
    Only w r { s with sh := x0 } :=
  h.trans ⟨fun f hf => by cases f <;> first | rfl | trivial | exact absurd h0 (hf ▸ Bool.false_ne_true)⟩

/-- A change of `defFaults`. -/
theorem Only.upd_defFaults {w : List Fld} {r s : State} {x0} (h0 : covered w .defFaults = true) (h : Only w r s) :
    Only w r { s with defFaults := x0 } :=
  h.trans ⟨fun f hf => by cases f <;> first | rfl | trivial | exact absurd h0 (hf ▸ Bool.false_ne_true)⟩

/-- A change of `lost`. -/
theorem Only.upd_lost {w : List Fld} {r s : State} {x0} (h0 : covered w .lost = true) (h : Only w r s) :
    Only w r { s with lost := x0 } :=
  h.trans ⟨fun f hf => by cases f <;> first | rfl | trivial | exact absurd h0 (hf ▸ Bool.false_ne_true)⟩

/-- A change of `cmds`. -/
theorem Only.upd_cmds {w : List Fld} {r s : State} {x0} (h0 : covered w .cmds = true) (h : Only w r s) :
    Only w r { s with cmds := x0 } :=
  h.trans ⟨fun f hf => by cases f <;> first | rfl | trivial | exact absurd h0 (hf ▸ Bool.false_ne_true)⟩

/-- A change of `nextCmd`. -/
theorem Only.upd_nextCmd {w : List Fld} {r s : State} {x0} (h0 : covered w .nextCmd = true) (h : Only w r s) :
    Only w r { s with nextCmd := x0 } :=
  h.trans ⟨fun f hf => by cases f <;> first | rfl | trivial | exact absurd h0 (hf ▸ Bool.false_ne_true)⟩

/-- A change of `fs`. -/
theorem Only.upd_fs {w : List Fld} {r s : State} {x0} (h0 : covered w .fs = true) (h : Only w r s) :
    Only w r { s with fs := x0 } :=
  h.trans ⟨fun f hf => by cases f <;> first | rfl | trivial | exact absurd h0 (hf ▸ Bool.false_ne_true)⟩

/-- A change of `mx`. -/
theorem Only.upd_mx {w : List Fld} {r s : State} {x0} (h0 : covered w .mx = true) (h : Only w r s) :
    Only w r { s with mx := x0 } :=
  h.trans ⟨fun f hf => by cases f <;> first | rfl | trivial | exact absurd h0 (hf ▸ Bool.false_ne_true)⟩

/-- A change of `ns`. -/
theorem Only.upd_ns {w : List Fld} {r s : State} {x0} (h0 : covered w .ns = true) (h : Only w r s) :
    Only w r { s with ns := x0 } :=
  h.trans ⟨fun f hf => by cases f <;> first | rfl | trivial | exact absurd h0 (hf ▸ Bool.false_ne_true)⟩

/-- A change of `nsWait`. -/
theorem Only.upd_nsWait {w : List Fld} {r s : State} {x0} (h0 : covered w .nsWait = true) (h : Only w r s) :
    Only w r { s with nsWait := x0 } :=
  h.trans ⟨fun f hf => by cases f <;> first | rfl | trivial | exact absurd h0 (hf ▸ Bool.false_ne_true)⟩

/-- A change of `mm`. -/
theorem Only.upd_mm {w : List Fld} {r s : State} {x0} (h0 : covered w .mm = true) (h : Only w r s) :
    Only w r { s with mm := x0 } :=
  h.trans ⟨fun f hf => by cases f <;> first | rfl | trivial | exact absurd h0 (hf ▸ Bool.false_ne_true)⟩

/-- A change of `sp`. -/
theorem Only.upd_sp {w : List Fld} {r s : State} {x0} (h0 : covered w .sp = true) (h : Only w r s) :
    Only w r { s with sp := x0 } :=
  h.trans ⟨fun f hf => by cases f <;> first | rfl | trivial | exact absurd h0 (hf ▸ Bool.false_ne_true)⟩

/-- A change of `cs`. -/
theorem Only.upd_cs {w : List Fld} {r s : State} {x0} (h0 : covered w .cs = true) (h : Only w r s) :
    Only w r { s with cs := x0 } :=
  h.trans ⟨fun f hf => by cases f <;> first | rfl | trivial | exact absurd h0 (hf ▸ Bool.false_ne_true)⟩

/-- A change of `bp`. -/
theorem Only.upd_bp {w : List Fld} {r s : State} {x0} (h0 : covered w .bp = true) (h : Only w r s) :
    Only w r { s with bp := x0 } :=
  h.trans ⟨fun f hf => by cases f <;> first | rfl | trivial | exact absurd h0 (hf ▸ Bool.false_ne_true)⟩

/-- A change of `me`. -/
theorem Only.upd_me {w : List Fld} {r s : State} {x0} (h0 : covered w .me = true) (h : Only w r s) :
    Only w r { s with me := x0 } :=
  h.trans ⟨fun f hf => by cases f <;> first | rfl | trivial | exact absurd h0 (hf ▸ Bool.false_ne_true)⟩

/-- A change of `gf`. -/
theorem Only.upd_gf {w : List Fld} {r s : State} {x0} (h0 : covered w .gf = true) (h : Only w r s) :
    Only w r { s with gf := x0 } :=
  h.trans ⟨fun f hf => by cases f <;> first | rfl | trivial | exact absurd h0 (hf ▸ Bool.false_ne_true)⟩

/-- A change of `tw`. -/
theorem Only.upd_tw {w : List Fld} {r s : State} {x0} (h0 : covered w .tw = true) (h : Only w r s) :
    Only w r { s with tw := x0 } :=
  h.trans ⟨fun f hf => by cases f <;> first | rfl | trivial | exact absurd h0 (hf ▸ Bool.false_ne_true)⟩

/-- A change of `dg`. -/
theorem Only.upd_dg {w : List Fld} {r s : State} {x0} (h0 : covered w .dg = true) (h : Only w r s) :
    Only w r { s with dg := x0 } :=
  h.trans ⟨fun f hf => by cases f <;> first | rfl | trivial | exact absurd h0 (hf ▸ Bool.false_ne_true)⟩

/-- A change of `mg`. -/
theorem Only.upd_mg {w : List Fld} {r s : State} {x0} (h0 : covered w .mg = true) (h : Only w r s) :
    Only w r { s with mg := x0 } :=
  h.trans ⟨fun f hf => by cases f <;> first | rfl | trivial | exact absurd h0 (hf ▸ Bool.false_ne_true)⟩

/-- A change of `fi`. -/
theorem Only.upd_fi {w : List Fld} {r s : State} {x0} (h0 : covered w .fi = true) (h : Only w r s) :
    Only w r { s with fi := x0 } :=
  h.trans ⟨fun f hf => by cases f <;> first | rfl | trivial | exact absurd h0 (hf ▸ Bool.false_ne_true)⟩

/-- A change of `nand`. -/
theorem Only.upd_nand {w : List Fld} {r s : State} {x0} (h0 : covered w .nand = true) (h : Only w r s) :
    Only w r { s with nand := x0 } :=
  h.trans ⟨fun f hf => by cases f <;> first | rfl | trivial | exact absurd h0 (hf ▸ Bool.false_ne_true)⟩

/-- A change of `ff`. -/
theorem Only.upd_ff {w : List Fld} {r s : State} {x0} (h0 : covered w .ff = true) (h : Only w r s) :
    Only w r { s with ff := x0 } :=
  h.trans ⟨fun f hf => by cases f <;> first | rfl | trivial | exact absurd h0 (hf ▸ Bool.false_ne_true)⟩

/-- A change of `prov`. -/
theorem Only.upd_prov {w : List Fld} {r s : State} {x0} (h0 : covered w .prov = true) (h : Only w r s) :
    Only w r { s with prov := x0 } :=
  h.trans ⟨fun f hf => by cases f <;> first | rfl | trivial | exact absurd h0 (hf ▸ Bool.false_ne_true)⟩

/-- A change of `fuses`. -/
theorem Only.upd_fuses {w : List Fld} {r s : State} {x0} (h0 : covered w .fuses = true) (h : Only w r s) :
    Only w r { s with fuses := x0 } :=
  h.trans ⟨fun f hf => by cases f <;> first | rfl | trivial | exact absurd h0 (hf ▸ Bool.false_ne_true)⟩

/-- A change of `pins` and `tw`. -/
theorem Only.upd_pins_tw {w : List Fld} {r s : State} {x0} {x1} (h0 : covered w .pins = true) (h1 : covered w .tw = true) (h : Only w r s) :
    Only w r { s with pins := x0, tw := x1 } :=
  h.trans ⟨fun f hf => by cases f <;> first | rfl | trivial | exact absurd h0 (hf ▸ Bool.false_ne_true) | exact absurd h1 (hf ▸ Bool.false_ne_true)⟩

/-- A change of `pins` and `mg`. -/
theorem Only.upd_pins_mg {w : List Fld} {r s : State} {x0} {x1} (h0 : covered w .pins = true) (h1 : covered w .mg = true) (h : Only w r s) :
    Only w r { s with pins := x0, mg := x1 } :=
  h.trans ⟨fun f hf => by cases f <;> first | rfl | trivial | exact absurd h0 (hf ▸ Bool.false_ne_true) | exact absurd h1 (hf ▸ Bool.false_ne_true)⟩

/-- A change of `gen` and `ctl`. -/
theorem Only.upd_gen_ctl {w : List Fld} {r s : State} {x0} {x1} (h0 : covered w .gen = true) (h1 : covered w .ctl = true) (h : Only w r s) :
    Only w r { s with gen := x0, ctl := x1 } :=
  h.trans ⟨fun f hf => by cases f <;> first | rfl | trivial | exact absurd h0 (hf ▸ Bool.false_ne_true) | exact absurd h1 (hf ▸ Bool.false_ne_true)⟩

/-- A change of `gen` and `sh`. -/
theorem Only.upd_gen_sh {w : List Fld} {r s : State} {x0} {x1} (h0 : covered w .gen = true) (h1 : covered w .sh = true) (h : Only w r s) :
    Only w r { s with gen := x0, sh := x1 } :=
  h.trans ⟨fun f hf => by cases f <;> first | rfl | trivial | exact absurd h0 (hf ▸ Bool.false_ne_true) | exact absurd h1 (hf ▸ Bool.false_ne_true)⟩

/-- A change of `gen` and `mx`. -/
theorem Only.upd_gen_mx {w : List Fld} {r s : State} {x0} {x1} (h0 : covered w .gen = true) (h1 : covered w .mx = true) (h : Only w r s) :
    Only w r { s with gen := x0, mx := x1 } :=
  h.trans ⟨fun f hf => by cases f <;> first | rfl | trivial | exact absurd h0 (hf ▸ Bool.false_ne_true) | exact absurd h1 (hf ▸ Bool.false_ne_true)⟩

/-- A change of `gen` and `nand`. -/
theorem Only.upd_gen_nand {w : List Fld} {r s : State} {x0} {x1} (h0 : covered w .gen = true) (h1 : covered w .nand = true) (h : Only w r s) :
    Only w r { s with gen := x0, nand := x1 } :=
  h.trans ⟨fun f hf => by cases f <;> first | rfl | trivial | exact absurd h0 (hf ▸ Bool.false_ne_true) | exact absurd h1 (hf ▸ Bool.false_ne_true)⟩

/-- A change of `gen` and `prov`. -/
theorem Only.upd_gen_prov {w : List Fld} {r s : State} {x0} {x1} (h0 : covered w .gen = true) (h1 : covered w .prov = true) (h : Only w r s) :
    Only w r { s with gen := x0, prov := x1 } :=
  h.trans ⟨fun f hf => by cases f <;> first | rfl | trivial | exact absurd h0 (hf ▸ Bool.false_ne_true) | exact absurd h1 (hf ▸ Bool.false_ne_true)⟩

/-- A change of `ctl` and `sh`. -/
theorem Only.upd_ctl_sh {w : List Fld} {r s : State} {x0} {x1} (h0 : covered w .ctl = true) (h1 : covered w .sh = true) (h : Only w r s) :
    Only w r { s with ctl := x0, sh := x1 } :=
  h.trans ⟨fun f hf => by cases f <;> first | rfl | trivial | exact absurd h0 (hf ▸ Bool.false_ne_true) | exact absurd h1 (hf ▸ Bool.false_ne_true)⟩

/-- A change of `sh` and `defFaults`. -/
theorem Only.upd_sh_defFaults {w : List Fld} {r s : State} {x0} {x1} (h0 : covered w .sh = true) (h1 : covered w .defFaults = true) (h : Only w r s) :
    Only w r { s with sh := x0, defFaults := x1 } :=
  h.trans ⟨fun f hf => by cases f <;> first | rfl | trivial | exact absurd h0 (hf ▸ Bool.false_ne_true) | exact absurd h1 (hf ▸ Bool.false_ne_true)⟩

/-- A change of `sh` and `mg`. -/
theorem Only.upd_sh_mg {w : List Fld} {r s : State} {x0} {x1} (h0 : covered w .sh = true) (h1 : covered w .mg = true) (h : Only w r s) :
    Only w r { s with sh := x0, mg := x1 } :=
  h.trans ⟨fun f hf => by cases f <;> first | rfl | trivial | exact absurd h0 (hf ▸ Bool.false_ne_true) | exact absurd h1 (hf ▸ Bool.false_ne_true)⟩

/-- A change of `sh` and `ff`. -/
theorem Only.upd_sh_ff {w : List Fld} {r s : State} {x0} {x1} (h0 : covered w .sh = true) (h1 : covered w .ff = true) (h : Only w r s) :
    Only w r { s with sh := x0, ff := x1 } :=
  h.trans ⟨fun f hf => by cases f <;> first | rfl | trivial | exact absurd h0 (hf ▸ Bool.false_ne_true) | exact absurd h1 (hf ▸ Bool.false_ne_true)⟩

/-- A change of `cmds` and `nextCmd`. -/
theorem Only.upd_cmds_nextCmd {w : List Fld} {r s : State} {x0} {x1} (h0 : covered w .cmds = true) (h1 : covered w .nextCmd = true) (h : Only w r s) :
    Only w r { s with cmds := x0, nextCmd := x1 } :=
  h.trans ⟨fun f hf => by cases f <;> first | rfl | trivial | exact absurd h0 (hf ▸ Bool.false_ne_true) | exact absurd h1 (hf ▸ Bool.false_ne_true)⟩

/-- A change of `cmds` and `fs`. -/
theorem Only.upd_cmds_fs {w : List Fld} {r s : State} {x0} {x1} (h0 : covered w .cmds = true) (h1 : covered w .fs = true) (h : Only w r s) :
    Only w r { s with cmds := x0, fs := x1 } :=
  h.trans ⟨fun f hf => by cases f <;> first | rfl | trivial | exact absurd h0 (hf ▸ Bool.false_ne_true) | exact absurd h1 (hf ▸ Bool.false_ne_true)⟩

/-- A change of `fs` and `sp`. -/
theorem Only.upd_fs_sp {w : List Fld} {r s : State} {x0} {x1} (h0 : covered w .fs = true) (h1 : covered w .sp = true) (h : Only w r s) :
    Only w r { s with fs := x0, sp := x1 } :=
  h.trans ⟨fun f hf => by cases f <;> first | rfl | trivial | exact absurd h0 (hf ▸ Bool.false_ne_true) | exact absurd h1 (hf ▸ Bool.false_ne_true)⟩

/-- A change of `mx` and `ns`. -/
theorem Only.upd_mx_ns {w : List Fld} {r s : State} {x0} {x1} (h0 : covered w .mx = true) (h1 : covered w .ns = true) (h : Only w r s) :
    Only w r { s with mx := x0, ns := x1 } :=
  h.trans ⟨fun f hf => by cases f <;> first | rfl | trivial | exact absurd h0 (hf ▸ Bool.false_ne_true) | exact absurd h1 (hf ▸ Bool.false_ne_true)⟩

/-- A change of `mx` and `mm`. -/
theorem Only.upd_mx_mm {w : List Fld} {r s : State} {x0} {x1} (h0 : covered w .mx = true) (h1 : covered w .mm = true) (h : Only w r s) :
    Only w r { s with mx := x0, mm := x1 } :=
  h.trans ⟨fun f hf => by cases f <;> first | rfl | trivial | exact absurd h0 (hf ▸ Bool.false_ne_true) | exact absurd h1 (hf ▸ Bool.false_ne_true)⟩

/-- A change of `mx` and `tw`. -/
theorem Only.upd_mx_tw {w : List Fld} {r s : State} {x0} {x1} (h0 : covered w .mx = true) (h1 : covered w .tw = true) (h : Only w r s) :
    Only w r { s with mx := x0, tw := x1 } :=
  h.trans ⟨fun f hf => by cases f <;> first | rfl | trivial | exact absurd h0 (hf ▸ Bool.false_ne_true) | exact absurd h1 (hf ▸ Bool.false_ne_true)⟩

/-- A change of `mx` and `dg`. -/
theorem Only.upd_mx_dg {w : List Fld} {r s : State} {x0} {x1} (h0 : covered w .mx = true) (h1 : covered w .dg = true) (h : Only w r s) :
    Only w r { s with mx := x0, dg := x1 } :=
  h.trans ⟨fun f hf => by cases f <;> first | rfl | trivial | exact absurd h0 (hf ▸ Bool.false_ne_true) | exact absurd h1 (hf ▸ Bool.false_ne_true)⟩

/-- A change of `mx` and `nand`. -/
theorem Only.upd_mx_nand {w : List Fld} {r s : State} {x0} {x1} (h0 : covered w .mx = true) (h1 : covered w .nand = true) (h : Only w r s) :
    Only w r { s with mx := x0, nand := x1 } :=
  h.trans ⟨fun f hf => by cases f <;> first | rfl | trivial | exact absurd h0 (hf ▸ Bool.false_ne_true) | exact absurd h1 (hf ▸ Bool.false_ne_true)⟩

/-- A change of `ns` and `prov`. -/
theorem Only.upd_ns_prov {w : List Fld} {r s : State} {x0} {x1} (h0 : covered w .ns = true) (h1 : covered w .prov = true) (h : Only w r s) :
    Only w r { s with ns := x0, prov := x1 } :=
  h.trans ⟨fun f hf => by cases f <;> first | rfl | trivial | exact absurd h0 (hf ▸ Bool.false_ne_true) | exact absurd h1 (hf ▸ Bool.false_ne_true)⟩

/-- A change of `mm` and `dg`. -/
theorem Only.upd_mm_dg {w : List Fld} {r s : State} {x0} {x1} (h0 : covered w .mm = true) (h1 : covered w .dg = true) (h : Only w r s) :
    Only w r { s with mm := x0, dg := x1 } :=
  h.trans ⟨fun f hf => by cases f <;> first | rfl | trivial | exact absurd h0 (hf ▸ Bool.false_ne_true) | exact absurd h1 (hf ▸ Bool.false_ne_true)⟩

/-- A change of `mm` and `prov`. -/
theorem Only.upd_mm_prov {w : List Fld} {r s : State} {x0} {x1} (h0 : covered w .mm = true) (h1 : covered w .prov = true) (h : Only w r s) :
    Only w r { s with mm := x0, prov := x1 } :=
  h.trans ⟨fun f hf => by cases f <;> first | rfl | trivial | exact absurd h0 (hf ▸ Bool.false_ne_true) | exact absurd h1 (hf ▸ Bool.false_ne_true)⟩

/-- A change of `sp` and `cs`. -/
theorem Only.upd_sp_cs {w : List Fld} {r s : State} {x0} {x1} (h0 : covered w .sp = true) (h1 : covered w .cs = true) (h : Only w r s) :
    Only w r { s with sp := x0, cs := x1 } :=
  h.trans ⟨fun f hf => by cases f <;> first | rfl | trivial | exact absurd h0 (hf ▸ Bool.false_ne_true) | exact absurd h1 (hf ▸ Bool.false_ne_true)⟩

/-- A change of `sp` and `nand`. -/
theorem Only.upd_sp_nand {w : List Fld} {r s : State} {x0} {x1} (h0 : covered w .sp = true) (h1 : covered w .nand = true) (h : Only w r s) :
    Only w r { s with sp := x0, nand := x1 } :=
  h.trans ⟨fun f hf => by cases f <;> first | rfl | trivial | exact absurd h0 (hf ▸ Bool.false_ne_true) | exact absurd h1 (hf ▸ Bool.false_ne_true)⟩

/-- A change of `cs` and `mg`. -/
theorem Only.upd_cs_mg {w : List Fld} {r s : State} {x0} {x1} (h0 : covered w .cs = true) (h1 : covered w .mg = true) (h : Only w r s) :
    Only w r { s with cs := x0, mg := x1 } :=
  h.trans ⟨fun f hf => by cases f <;> first | rfl | trivial | exact absurd h0 (hf ▸ Bool.false_ne_true) | exact absurd h1 (hf ▸ Bool.false_ne_true)⟩

/-- A change of `tw` and `prov`. -/
theorem Only.upd_tw_prov {w : List Fld} {r s : State} {x0} {x1} (h0 : covered w .tw = true) (h1 : covered w .prov = true) (h : Only w r s) :
    Only w r { s with tw := x0, prov := x1 } :=
  h.trans ⟨fun f hf => by cases f <;> first | rfl | trivial | exact absurd h0 (hf ▸ Bool.false_ne_true) | exact absurd h1 (hf ▸ Bool.false_ne_true)⟩

/-- A change of `gen` and `dg` and `mg`. -/
theorem Only.upd_gen_dg_mg {w : List Fld} {r s : State} {x0} {x1} {x2} (h0 : covered w .gen = true) (h1 : covered w .dg = true) (h2 : covered w .mg = true) (h : Only w r s) :
    Only w r { s with gen := x0, dg := x1, mg := x2 } :=
  h.trans ⟨fun f hf => by cases f <;> first | rfl | trivial | exact absurd h0 (hf ▸ Bool.false_ne_true) | exact absurd h1 (hf ▸ Bool.false_ne_true) | exact absurd h2 (hf ▸ Bool.false_ne_true)⟩

/-- A change of `he` and `dg` and `mg`. -/
theorem Only.upd_he_dg_mg {w : List Fld} {r s : State} {x0} {x1} {x2} (h0 : covered w .he = true) (h1 : covered w .dg = true) (h2 : covered w .mg = true) (h : Only w r s) :
    Only w r { s with he := x0, dg := x1, mg := x2 } :=
  h.trans ⟨fun f hf => by cases f <;> first | rfl | trivial | exact absurd h0 (hf ▸ Bool.false_ne_true) | exact absurd h1 (hf ▸ Bool.false_ne_true) | exact absurd h2 (hf ▸ Bool.false_ne_true)⟩

/-- A change of `ctl` and `cmds` and `fs`. -/
theorem Only.upd_ctl_cmds_fs {w : List Fld} {r s : State} {x0} {x1} {x2} (h0 : covered w .ctl = true) (h1 : covered w .cmds = true) (h2 : covered w .fs = true) (h : Only w r s) :
    Only w r { s with ctl := x0, cmds := x1, fs := x2 } :=
  h.trans ⟨fun f hf => by cases f <;> first | rfl | trivial | exact absurd h0 (hf ▸ Bool.false_ne_true) | exact absurd h1 (hf ▸ Bool.false_ne_true) | exact absurd h2 (hf ▸ Bool.false_ne_true)⟩

/-- A change of `mx` and `ns` and `tw`. -/
theorem Only.upd_mx_ns_tw {w : List Fld} {r s : State} {x0} {x1} {x2} (h0 : covered w .mx = true) (h1 : covered w .ns = true) (h2 : covered w .tw = true) (h : Only w r s) :
    Only w r { s with mx := x0, ns := x1, tw := x2 } :=
  h.trans ⟨fun f hf => by cases f <;> first | rfl | trivial | exact absurd h0 (hf ▸ Bool.false_ne_true) | exact absurd h1 (hf ▸ Bool.false_ne_true) | exact absurd h2 (hf ▸ Bool.false_ne_true)⟩

/-- A change of `nsWait` and `tw` and `mg`. -/
theorem Only.upd_nsWait_tw_mg {w : List Fld} {r s : State} {x0} {x1} {x2} (h0 : covered w .nsWait = true) (h1 : covered w .tw = true) (h2 : covered w .mg = true) (h : Only w r s) :
    Only w r { s with nsWait := x0, tw := x1, mg := x2 } :=
  h.trans ⟨fun f hf => by cases f <;> first | rfl | trivial | exact absurd h0 (hf ▸ Bool.false_ne_true) | exact absurd h1 (hf ▸ Bool.false_ne_true) | exact absurd h2 (hf ▸ Bool.false_ne_true)⟩

/-- A change of `cs` and `dg` and `mg`. -/
theorem Only.upd_cs_dg_mg {w : List Fld} {r s : State} {x0} {x1} {x2} (h0 : covered w .cs = true) (h1 : covered w .dg = true) (h2 : covered w .mg = true) (h : Only w r s) :
    Only w r { s with cs := x0, dg := x1, mg := x2 } :=
  h.trans ⟨fun f hf => by cases f <;> first | rfl | trivial | exact absurd h0 (hf ▸ Bool.false_ne_true) | exact absurd h1 (hf ▸ Bool.false_ne_true) | exact absurd h2 (hf ▸ Bool.false_ne_true)⟩

/-- A change of `sh` and `cmds` and `mx` and `tw`. -/
theorem Only.upd_sh_cmds_mx_tw {w : List Fld} {r s : State} {x0} {x1} {x2} {x3} (h0 : covered w .sh = true) (h1 : covered w .cmds = true) (h2 : covered w .mx = true) (h3 : covered w .tw = true) (h : Only w r s) :
    Only w r { s with sh := x0, cmds := x1, mx := x2, tw := x3 } :=
  h.trans ⟨fun f hf => by cases f <;> first | rfl | trivial | exact absurd h0 (hf ▸ Bool.false_ne_true) | exact absurd h1 (hf ▸ Bool.false_ne_true) | exact absurd h2 (hf ▸ Bool.false_ne_true) | exact absurd h3 (hf ▸ Bool.false_ne_true)⟩

/-- A change of `fs` and `mx` and `ff` and `prov`. -/
theorem Only.upd_fs_mx_ff_prov {w : List Fld} {r s : State} {x0} {x1} {x2} {x3} (h0 : covered w .fs = true) (h1 : covered w .mx = true) (h2 : covered w .ff = true) (h3 : covered w .prov = true) (h : Only w r s) :
    Only w r { s with fs := x0, mx := x1, ff := x2, prov := x3 } :=
  h.trans ⟨fun f hf => by cases f <;> first | rfl | trivial | exact absurd h0 (hf ▸ Bool.false_ne_true) | exact absurd h1 (hf ▸ Bool.false_ne_true) | exact absurd h2 (hf ▸ Bool.false_ne_true) | exact absurd h3 (hf ▸ Bool.false_ne_true)⟩

/-- A change of `mx` and `ns` and `mm` and `dg`. -/
theorem Only.upd_mx_ns_mm_dg {w : List Fld} {r s : State} {x0} {x1} {x2} {x3} (h0 : covered w .mx = true) (h1 : covered w .ns = true) (h2 : covered w .mm = true) (h3 : covered w .dg = true) (h : Only w r s) :
    Only w r { s with mx := x0, ns := x1, mm := x2, dg := x3 } :=
  h.trans ⟨fun f hf => by cases f <;> first | rfl | trivial | exact absurd h0 (hf ▸ Bool.false_ne_true) | exact absurd h1 (hf ▸ Bool.false_ne_true) | exact absurd h2 (hf ▸ Bool.false_ne_true) | exact absurd h3 (hf ▸ Bool.false_ne_true)⟩

/-- A change of `cmds` and `fs` and `mx` and `mm` and `tw`. -/
theorem Only.upd_cmds_fs_mx_mm_tw {w : List Fld} {r s : State} {x0} {x1} {x2} {x3} {x4} (h0 : covered w .cmds = true) (h1 : covered w .fs = true) (h2 : covered w .mx = true) (h3 : covered w .mm = true) (h4 : covered w .tw = true) (h : Only w r s) :
    Only w r { s with cmds := x0, fs := x1, mx := x2, mm := x3, tw := x4 } :=
  h.trans ⟨fun f hf => by cases f <;> first | rfl | trivial | exact absurd h0 (hf ▸ Bool.false_ne_true) | exact absurd h1 (hf ▸ Bool.false_ne_true) | exact absurd h2 (hf ▸ Bool.false_ne_true) | exact absurd h3 (hf ▸ Bool.false_ne_true) | exact absurd h4 (hf ▸ Bool.false_ne_true)⟩

/-- A change of `pending` and `freeCtr` and `out` and `time` and `pins` and `gen` and `sh` and `lost` and `bp` and `me` and `mg` and `nand` and `ff` and `prov` and `fuses`. -/
theorem Only.upd_pending_freeCtr_out_time_pins_gen_sh_lost_bp_me_mg_nand_ff_prov_fuses {w : List Fld} {r s : State} {x0} {x1} {x2} {x3} {x4} {x5} {x6} {x7} {x8} {x9} {x10} {x11} {x12} {x13} {x14} (h0 : covered w .pending = true) (h1 : covered w .freeCtr = true) (h2 : covered w .out = true) (h3 : covered w .time = true) (h4 : covered w .pins = true) (h5 : covered w .gen = true) (h6 : covered w .sh = true) (h7 : covered w .lost = true) (h8 : covered w .bp = true) (h9 : covered w .me = true) (h10 : covered w .mg = true) (h11 : covered w .nand = true) (h12 : covered w .ff = true) (h13 : covered w .prov = true) (h14 : covered w .fuses = true) (h : Only w r s) :
    Only w r { s with pending := x0, freeCtr := x1, out := x2, time := x3, pins := x4, gen := x5, sh := x6, lost := x7, bp := x8, me := x9, mg := x10, nand := x11, ff := x12, prov := x13, fuses := x14 } :=
  h.trans ⟨fun f hf => by cases f <;> first | rfl | trivial | exact absurd h0 (hf ▸ Bool.false_ne_true) | exact absurd h1 (hf ▸ Bool.false_ne_true) | exact absurd h2 (hf ▸ Bool.false_ne_true) | exact absurd h3 (hf ▸ Bool.false_ne_true) | exact absurd h4 (hf ▸ Bool.false_ne_true) | exact absurd h5 (hf ▸ Bool.false_ne_true) | exact absurd h6 (hf ▸ Bool.false_ne_true) | exact absurd h7 (hf ▸ Bool.false_ne_true) | exact absurd h8 (hf ▸ Bool.false_ne_true) | exact absurd h9 (hf ▸ Bool.false_ne_true) | exact absurd h10 (hf ▸ Bool.false_ne_true) | exact absurd h11 (hf ▸ Bool.false_ne_true) | exact absurd h12 (hf ▸ Bool.false_ne_true) | exact absurd h13 (hf ▸ Bool.false_ne_true) | exact absurd h14 (hf ▸ Bool.false_ne_true)⟩

/-- A write of a register field. -/
theorem setF_only (f : Field) (v : Nat) (s : State) : Only [.reg f] s (setF f v s) := by
  refine ⟨fun g hg => ?_⟩
  cases g with
  | reg g =>
    have hk : g.key ≠ f.key := by
      intro h
      simp [covered, Fld.covers, Fld.code, h] at hg
    exact sGet_sPut_ne s.regs f.rst g.rst (v % 2 ^ f.width) hk
  | win lo hi => trivial
  | regs => trivial
  | _ => rfl

/-- A change of the register store that keeps every register outside the places named. -/
theorem Only.upd_regs {w : List Fld} {r s : State} {x : List (Nat × Nat)}
    (hx : ∀ f : Field, covered w (.reg f) = false → sGet x f.rst f.key = sGet s.regs f.rst f.key) (h : Only w r s) :
    Only w r { s with regs := x } :=
  h.trans ⟨fun f hf => by cases f <;> first | rfl | trivial | exact hx _ hf⟩

/-- What `flagOn` changes. -/
theorem flagOn_only (f : Field) (s : State) : Only [.reg f] s (flagOn f s) := setF_only f 1 s

/-- What `flagOff` changes. -/
theorem flagOff_only (f : Field) (s : State) : Only [.reg f] s (flagOff f s) := setF_only f 0 s

/-- What `flagIf` changes. -/
theorem flagIf_only (f : Field) (c : Bool) (s : State) : Only [.reg f] s (flagIf c f s) := by
  unfold flagIf; split
  · exact flagOn_only f s
  · exact Only.refl _ _

/-- What `bumpBy` changes. -/
theorem bumpBy_only (f : Field) (n : Nat) (s : State) : Only [.reg f] s (bumpBy f n s) := setF_only ..

/-- What `bump` changes. -/
theorem bump_only (f : Field) (s : State) : Only [.reg f] s (bump f s) := bumpBy_only ..

/-- What `setSat` changes. -/
theorem setSat_only (f : Field) (v : Nat) (s : State) : Only [.reg f] s (setSat f v s) := setF_only ..

/-- The same of a field that each port has. -/
theorem setF_port (p : Port) (f g : Field) (v : Nat) (s : State) : Only [.reg f, .reg g] s (setF (portF p f g) v s) := by
  cases p
  · exact (setF_only f v s).mono (.single (by simp [covered, Fld.covers]))
  · exact (setF_only g v s).mono (.single (by simp [covered, Fld.covers]))

/-- The same of a field that each port has. -/
theorem flagOn_port (p : Port) (f g : Field) (s : State) : Only [.reg f, .reg g] s (flagOn (portF p f g) s) := by
  cases p
  · exact (flagOn_only f  s).mono (.single (by simp [covered, Fld.covers]))
  · exact (flagOn_only g  s).mono (.single (by simp [covered, Fld.covers]))

/-- The same of a field that each port has. -/
theorem flagOff_port (p : Port) (f g : Field) (s : State) : Only [.reg f, .reg g] s (flagOff (portF p f g) s) := by
  cases p
  · exact (flagOff_only f  s).mono (.single (by simp [covered, Fld.covers]))
  · exact (flagOff_only g  s).mono (.single (by simp [covered, Fld.covers]))

/-- The same of a field that each port has. -/
theorem flagIf_port (p : Port) (f g : Field) (c : Bool) (s : State) : Only [.reg f, .reg g] s (flagIf c (portF p f g) s) := by
  cases p
  · exact (flagIf_only f c s).mono (.single (by simp [covered, Fld.covers]))
  · exact (flagIf_only g c s).mono (.single (by simp [covered, Fld.covers]))

/-- The same of a field that each port has. -/
theorem bumpBy_port (p : Port) (f g : Field) (n : Nat) (s : State) : Only [.reg f, .reg g] s (bumpBy (portF p f g) n s) := by
  cases p
  · exact (bumpBy_only f n s).mono (.single (by simp [covered, Fld.covers]))
  · exact (bumpBy_only g n s).mono (.single (by simp [covered, Fld.covers]))

/-- The same of a field that each port has. -/
theorem bump_port (p : Port) (f g : Field) (s : State) : Only [.reg f, .reg g] s (bump (portF p f g) s) := by
  cases p
  · exact (bump_only f  s).mono (.single (by simp [covered, Fld.covers]))
  · exact (bump_only g  s).mono (.single (by simp [covered, Fld.covers]))

/-- The same of a field that each port has. -/
theorem setSat_port (p : Port) (f g : Field) (v : Nat) (s : State) : Only [.reg f, .reg g] s (setSat (portF p f g) v s) := by
  cases p
  · exact (setSat_only f v s).mono (.single (by simp [covered, Fld.covers]))
  · exact (setSat_only g v s).mono (.single (by simp [covered, Fld.covers]))

end Sys2Proof.Machine
end

