-- ==== Sys2Proof/Laws/FrameFlags.lean ====
section
/-! SUPPORT. What each operation of Machine/Flags.lean may change, as `Only` states it: one lemma an operation, which later proofs cite
instead of unfolding it. -/
namespace Sys2Proof.Machine
set_option Elab.async false
set_option linter.all false

/-- What `genErr` may change. -/
theorem genErr_only (f : Field) (off : Nat) (w : Writer) (s : State) :
    Only [.reg f, .reg Reg.GEN_ERRADDR.OFFSET, .reg Reg.GEN_ERRADDR.SRC] s (genErr f off w s) :=
  Only.step (setF_only ..) (.single (by simp [covered, Fld.covers])) (Only.step (setF_only ..) (.single (by simp [covered, Fld.covers]))
    ((flagOn_only f s).mono (.single (by simp [covered, Fld.covers]))))

end Sys2Proof.Machine
end

