-- ==== Sys2Proof/Laws/FrameOps.lean ====
section
/-! SUPPORT. What each operation of Machine/Ops.lean may change, as `Only` states it: one lemma an operation, which later proofs cite
instead of unfolding it. -/
namespace Sys2Proof.Machine
set_option Elab.async false
set_option linter.all false

/-- What `State.updPort` may change. -/
theorem State.updPort_only (s : State) (p : Port) (f : HostPort → HostPort) :
    Only [.he] s (State.updPort s p f) := by
  unfold State.updPort
  repeat' first
    | intro _
    | with_reducible assumption
    | with_reducible exact Only.refl _ _
    | fail_if_no_progress (with_reducible apply Only.upd_he; decide +kernel)
    | with_reducible apply_assumption -exfalso -symm
    | split
    | dsimp only

/-- What `State.updCon` may change. -/
theorem State.updCon_only (s : State) (p : Port) (f : Ctl → Ctl) :
    Only [.ctl] s (State.updCon s p f) := by
  unfold State.updCon
  repeat' first
    | intro _
    | with_reducible assumption
    | with_reducible exact Only.refl _ _
    | fail_if_no_progress (with_reducible apply Only.upd_ctl; decide +kernel)
    | with_reducible apply_assumption -exfalso -symm
    | split
    | dsimp only

/-- What `emit` may change. -/
theorem emit_only (o : Output) (s : State) :
    Only [.out] s (emit o s) := by
  unfold emit
  repeat' first
    | intro _
    | with_reducible assumption
    | with_reducible exact Only.refl _ _
    | fail_if_no_progress (with_reducible apply Only.upd_out; decide +kernel)
    | with_reducible apply_assumption -exfalso -symm
    | split
    | dsimp only

/-- What `emits` may change. -/
theorem emits_only (os : List Output) (s : State) :
    Only [.out] s (emits os s) := by
  unfold emits
  repeat' first
    | intro _
    | with_reducible assumption
    | with_reducible exact Only.refl _ _
    | (with_reducible apply Only.step (emit_only ..); exact .of (by decide +kernel))
    | with_reducible refine Only.foldl (fun _ _ _ => ?_) ?_
    | with_reducible refine Only.foldl2 (fun _ _ _ => ?_) ?_
    | with_reducible apply_assumption -exfalso -symm
    | split
    | dsimp only

/-- What `pcieError` may change. -/
theorem pcieError_only (p : Port) (bit : Nat) (advisory : Bool) (s : State) :
    Only [.out,
    .he] s (pcieError p bit advisory s) := by
  unfold pcieError
  repeat' first
    | intro _
    | with_reducible assumption
    | with_reducible exact Only.refl _ _
    | (extract_lets +onlyGivenNames x; refine Only.cut x ?_ (fun _ => ?_); unfold x; clear x; rotate_left; clear_value x)
    | (extract_lets +onlyGivenNames x; refine Only.cut2 x ?_ (fun _ => ?_); unfold x; clear x; rotate_left; clear_value x)
    | (extract_lets +onlyGivenNames x; refine Only.cutF x ?_ (fun _ => ?_); unfold x; clear x; rotate_left; clear_value x)
    | (extract_lets +onlyGivenNames x; refine Only.cutG x ?_ (fun _ => ?_); unfold x; clear x; rotate_left; clear_value x)
    | (extract_lets +onlyGivenNames x; refine Only.cutG2 x ?_ (fun _ => ?_); unfold x; clear x; rotate_left; clear_value x)
    | (extract_lets +onlyGivenNames x; refine Only.cutG3 x ?_ (fun _ => ?_); unfold x; clear x; rotate_left; clear_value x)
    | (extract_lets +onlyGivenNames x; refine Only.cutH x ?_ (fun _ => ?_); unfold x; clear x; rotate_left; clear_value x)
    | (extract_lets +onlyGivenNames x; clear_value x)
    | with_reducible apply Only.ite
    | (with_reducible apply Only.step (State.updPort_only ..); exact .of (by decide +kernel))
    | (with_reducible apply Only.step (emit_only ..); exact .of (by decide +kernel))
    | with_reducible apply_assumption -exfalso -symm
    | split
    | dsimp only

/-- What `poisonRx` may change. -/
theorem poisonRx_only (p : Port) (s : State) :
    Only [.out, .he, .reg Reg.HE_ERRSTAT.A_POISRX,
    .reg Reg.HE_ERRSTAT.B_POISRX] s (poisonRx p s) := by
  unfold poisonRx
  repeat' first
    | intro _
    | with_reducible assumption
    | with_reducible exact Only.refl _ _
    | (with_reducible apply Only.step (flagOn_port ..); exact .of (by decide +kernel))
    | (with_reducible apply Only.step (flagOn_only ..); exact .of (by decide +kernel))
    | (with_reducible apply Only.step (pcieError_only ..); exact .of (by decide +kernel))
    | with_reducible apply_assumption -exfalso -symm
    | split
    | dsimp only

/-- What `urCpl` may change. -/
theorem urCpl_only (p : Port) (tag : Nat) (s : State) :
    Only [.out, .he] s (urCpl p tag s) := by
  unfold urCpl
  repeat' first
    | intro _
    | with_reducible assumption
    | with_reducible exact Only.refl _ _
    | (with_reducible apply Only.step (emit_only ..); exact .of (by decide +kernel))
    | (with_reducible apply Only.step (pcieError_only ..); exact .of (by decide +kernel))
    | with_reducible apply_assumption -exfalso -symm
    | split
    | dsimp only

/-- What `caCpl` may change. -/
theorem caCpl_only (p : Port) (tag : Nat) (s : State) :
    Only [.out, .he] s (caCpl p tag s) := by
  unfold caCpl
  repeat' first
    | intro _
    | with_reducible assumption
    | with_reducible exact Only.refl _ _
    | (with_reducible apply Only.step (emit_only ..); exact .of (by decide +kernel))
    | (with_reducible apply Only.step (pcieError_only ..); exact .of (by decide +kernel))
    | with_reducible apply_assumption -exfalso -symm
    | split
    | dsimp only

/-- What `readCpl` may change. -/
theorem readCpl_only (p : Port) (tag addr : Nat) (data : List Byte) (ep : Bool) (s : State) :
    Only [.out] s (readCpl p tag addr data ep s) := by
  unfold readCpl
  repeat' first
    | intro _
    | with_reducible assumption
    | with_reducible exact Only.refl _ _
    | (with_reducible apply Only.step (emits_only ..); exact .of (by decide +kernel))
    | with_reducible apply_assumption -exfalso -symm
    | split
    | dsimp only

/-- What `advance` may change. -/
theorem advance_only (ns : Nat) (s : State) :
    Only [.out, .time] s (advance ns s) := by
  unfold advance
  repeat' first
    | intro _
    | with_reducible assumption
    | with_reducible exact Only.refl _ _
    | (extract_lets +onlyGivenNames x; refine Only.cut x ?_ (fun _ => ?_); unfold x; clear x; rotate_left; clear_value x)
    | (extract_lets +onlyGivenNames x; refine Only.cut2 x ?_ (fun _ => ?_); unfold x; clear x; rotate_left; clear_value x)
    | (extract_lets +onlyGivenNames x; clear_value x)
    | with_reducible apply Only.ite
    | fail_if_no_progress (with_reducible apply Only.upd_time; decide +kernel)
    | (with_reducible apply Only.step (emits_only ..); exact .of (by decide +kernel))
    | with_reducible apply_assumption -exfalso -symm
    | split
    | dsimp only

/-- What `corrected` may change. -/
theorem corrected_only (d : Int) (s : State) :
    Only [.time] s (corrected d s) := by
  unfold corrected
  repeat' first
    | intro _
    | with_reducible assumption
    | with_reducible exact Only.refl _ _
    | fail_if_no_progress (with_reducible apply Only.upd_time; decide +kernel)
    | with_reducible apply_assumption -exfalso -symm
    | split
    | dsimp only

/-- What `tickFree` may change. -/
theorem tickFree_only (s : State) :
    Only [.freeCtr] s (tickFree s) := by
  unfold tickFree
  repeat' first
    | intro _
    | with_reducible assumption
    | with_reducible exact Only.refl _ _
    | fail_if_no_progress (with_reducible apply Only.upd_freeCtr; decide +kernel)
    | with_reducible apply_assumption -exfalso -symm
    | split
    | dsimp only

/-- What `logEvent` may change. -/
theorem logEvent_only (code sev src : Nat) (coalesce : Bool) (data : List Nat) (s : State) :
    Only [.mg,
    .reg Reg.MG_LOGSTAT.DROPPED, .reg Reg.MG_ERR.LOGDROP] s (logEvent code sev src coalesce data s) := by
  unfold logEvent
  repeat' first
    | intro _
    | with_reducible assumption
    | with_reducible exact Only.refl _ _
    | (extract_lets +onlyGivenNames x; refine Only.cut x ?_ (fun _ => ?_); unfold x; clear x; rotate_left; clear_value x)
    | (extract_lets +onlyGivenNames x; refine Only.cut2 x ?_ (fun _ => ?_); unfold x; clear x; rotate_left; clear_value x)
    | (extract_lets +onlyGivenNames x; clear_value x)
    | with_reducible apply Only.ite
    | fail_if_no_progress (with_reducible apply Only.upd_mg; decide +kernel)
    | (with_reducible apply Only.step (flagOn_only ..); exact .of (by decide +kernel))
    | (with_reducible apply Only.step (bump_only ..); exact .of (by decide +kernel))
    | with_reducible apply_assumption -exfalso -symm
    | split
    | dsimp only

/-- What `msix` may change. -/
theorem msix_only (p : Port) (v : Nat) (s : State) :
    Only [.out, .he] s (msix p v s) := by
  unfold msix
  repeat' first
    | intro _
    | with_reducible assumption
    | with_reducible exact Only.refl _ _
    | (extract_lets +onlyGivenNames x; refine Only.cut x ?_ (fun _ => ?_); unfold x; clear x; rotate_left; clear_value x)
    | (extract_lets +onlyGivenNames x; refine Only.cut2 x ?_ (fun _ => ?_); unfold x; clear x; rotate_left; clear_value x)
    | (extract_lets +onlyGivenNames x; refine Only.cutF x ?_ (fun _ => ?_); unfold x; clear x; rotate_left; clear_value x)
    | (extract_lets +onlyGivenNames x; refine Only.cutG x ?_ (fun _ => ?_); unfold x; clear x; rotate_left; clear_value x)
    | (extract_lets +onlyGivenNames x; refine Only.cutG2 x ?_ (fun _ => ?_); unfold x; clear x; rotate_left; clear_value x)
    | (extract_lets +onlyGivenNames x; refine Only.cutG3 x ?_ (fun _ => ?_); unfold x; clear x; rotate_left; clear_value x)
    | (extract_lets +onlyGivenNames x; refine Only.cutH x ?_ (fun _ => ?_); unfold x; clear x; rotate_left; clear_value x)
    | (extract_lets +onlyGivenNames x; clear_value x)
    | with_reducible apply Only.ite
    | (with_reducible apply Only.step (State.updPort_only ..); exact .of (by decide +kernel))
    | (with_reducible apply Only.step (emit_only ..); exact .of (by decide +kernel))
    | with_reducible apply_assumption -exfalso -symm
    | split
    | dsimp only

/-- What `cqInterrupt` may change. -/
theorem cqInterrupt_only (p : Port) (q : Cq) (s : State) :
    Only [.out, .he, .ctl] s (cqInterrupt p q s) := by
  unfold cqInterrupt
  repeat' first
    | intro _
    | with_reducible assumption
    | with_reducible exact Only.refl _ _
    | (extract_lets +onlyGivenNames x; refine Only.cut x ?_ (fun _ => ?_); unfold x; clear x; rotate_left; clear_value x)
    | (extract_lets +onlyGivenNames x; refine Only.cut2 x ?_ (fun _ => ?_); unfold x; clear x; rotate_left; clear_value x)
    | (extract_lets +onlyGivenNames x; refine Only.cutF x ?_ (fun _ => ?_); unfold x; clear x; rotate_left; clear_value x)
    | (extract_lets +onlyGivenNames x; refine Only.cutG x ?_ (fun _ => ?_); unfold x; clear x; rotate_left; clear_value x)
    | (extract_lets +onlyGivenNames x; refine Only.cutG2 x ?_ (fun _ => ?_); unfold x; clear x; rotate_left; clear_value x)
    | (extract_lets +onlyGivenNames x; refine Only.cutG3 x ?_ (fun _ => ?_); unfold x; clear x; rotate_left; clear_value x)
    | (extract_lets +onlyGivenNames x; refine Only.cutH x ?_ (fun _ => ?_); unfold x; clear x; rotate_left; clear_value x)
    | (extract_lets +onlyGivenNames x; clear_value x)
    | with_reducible apply Only.ite
    | (with_reducible apply Only.step (msix_only ..); exact .of (by decide +kernel))
    | (with_reducible apply Only.step (State.updCon_only ..); exact .of (by decide +kernel))
    | with_reducible apply_assumption -exfalso -symm
    | split
    | dsimp only

/-- What `updClass` may change. -/
theorem updClass_only (k : Nat) (f : ClassCnt → ClassCnt) (s : State) :
    Only [.fs] s (updClass k f s) := by
  unfold updClass
  repeat' first
    | intro _
    | with_reducible assumption
    | with_reducible exact Only.refl _ _
    | fail_if_no_progress (with_reducible apply Only.upd_fs; decide +kernel)
    | with_reducible apply_assumption -exfalso -symm
    | split
    | dsimp only

/-- What `countDone` may change. -/
theorem countDone_only (d : Done) (s : State) :
    Only [.fs] s (countDone d s) := by
  unfold countDone
  repeat' first
    | intro _
    | with_reducible assumption
    | with_reducible exact Only.refl _ _
    | (extract_lets +onlyGivenNames x; refine Only.cut x ?_ (fun _ => ?_); unfold x; clear x; rotate_left; clear_value x)
    | (extract_lets +onlyGivenNames x; refine Only.cut2 x ?_ (fun _ => ?_); unfold x; clear x; rotate_left; clear_value x)
    | (extract_lets +onlyGivenNames x; refine Only.cutF x ?_ (fun _ => ?_); unfold x; clear x; rotate_left; clear_value x)
    | (extract_lets +onlyGivenNames x; refine Only.cutG x ?_ (fun _ => ?_); unfold x; clear x; rotate_left; clear_value x)
    | (extract_lets +onlyGivenNames x; refine Only.cutG2 x ?_ (fun _ => ?_); unfold x; clear x; rotate_left; clear_value x)
    | (extract_lets +onlyGivenNames x; refine Only.cutG3 x ?_ (fun _ => ?_); unfold x; clear x; rotate_left; clear_value x)
    | (extract_lets +onlyGivenNames x; refine Only.cutH x ?_ (fun _ => ?_); unfold x; clear x; rotate_left; clear_value x)
    | (extract_lets +onlyGivenNames x; clear_value x)
    | with_reducible apply Only.ite
    | (with_reducible apply Only.step (updClass_only ..); exact .of (by decide +kernel))
    | with_reducible apply_assumption -exfalso -symm
    | split
    | dsimp only

/-- What `countDone?` may change. -/
theorem countDone?_only (d : Option Done) (s : State) :
    Only [.fs] s (countDone? d s) := by
  unfold countDone?
  repeat' first
    | intro _
    | with_reducible assumption
    | with_reducible exact Only.refl _ _
    | (with_reducible apply Only.step (countDone_only ..); exact .of (by decide +kernel))
    | with_reducible apply_assumption -exfalso -symm
    | split
    | dsimp only

/-- What `updCq` may change. -/
theorem updCq_only (p : Port) (q : Nat) (f : Cq → Cq) (s : State) :
    Only [.ctl] s (updCq p q f s) := by
  unfold updCq
  repeat' first
    | intro _
    | with_reducible assumption
    | with_reducible exact Only.refl _ _
    | (with_reducible apply Only.step (State.updCon_only ..); exact .of (by decide +kernel))
    | with_reducible apply_assumption -exfalso -symm
    | split
    | dsimp only

/-- What `updSq` may change. -/
theorem updSq_only (p : Port) (q : Nat) (f : Sq → Sq) (s : State) :
    Only [.ctl] s (updSq p q f s) := by
  unfold updSq
  repeat' first
    | intro _
    | with_reducible assumption
    | with_reducible exact Only.refl _ _
    | (with_reducible apply Only.step (State.updCon_only ..); exact .of (by decide +kernel))
    | with_reducible apply_assumption -exfalso -symm
    | split
    | dsimp only

/-- What `postDone` may change. -/
theorem postDone_only (p : Port) (sq : Nat) (cid : BitVec 16) (sct sc dw0 dw1 : Nat) (d : Option Done) (s : State) :
    Only [.out,
    .he, .ctl, .fs, .reg Reg.QE_CQFULL.COUNT] s (postDone p sq cid sct sc dw0 dw1 d s) := by
  unfold postDone
  repeat' first
    | intro _
    | with_reducible assumption
    | with_reducible exact Only.refl _ _
    | (extract_lets +onlyGivenNames x; refine Only.cut x ?_ (fun _ => ?_); unfold x; clear x; rotate_left; clear_value x)
    | (extract_lets +onlyGivenNames x; refine Only.cut2 x ?_ (fun _ => ?_); unfold x; clear x; rotate_left; clear_value x)
    | (extract_lets +onlyGivenNames x; refine Only.cutF x ?_ (fun _ => ?_); unfold x; clear x; rotate_left; clear_value x)
    | (extract_lets +onlyGivenNames x; refine Only.cutG x ?_ (fun _ => ?_); unfold x; clear x; rotate_left; clear_value x)
    | (extract_lets +onlyGivenNames x; refine Only.cutP x ?_ (fun _ => ?_); unfold x; clear x; rotate_left; clear_value x)
    | (extract_lets +onlyGivenNames x; refine Only.cutG2 x ?_ (fun _ => ?_); unfold x; clear x; rotate_left; clear_value x)
    | (extract_lets +onlyGivenNames x; refine Only.cutG3 x ?_ (fun _ => ?_); unfold x; clear x; rotate_left; clear_value x)
    | (extract_lets +onlyGivenNames x; refine Only.cutH x ?_ (fun _ => ?_); unfold x; clear x; rotate_left; clear_value x)
    | (extract_lets +onlyGivenNames x; clear_value x)
    | with_reducible apply Only.ite
    | fail_if_no_progress (with_reducible apply Only.upd_fs; decide +kernel)
    | (with_reducible apply Only.step (bump_only ..); exact .of (by decide +kernel))
    | (with_reducible apply Only.step (cqInterrupt_only ..); exact .of (by decide +kernel))
    | (with_reducible apply Only.step (emit_only ..); exact .of (by decide +kernel))
    | (with_reducible apply Only.step (countDone?_only ..); exact .of (by decide +kernel))
    | (with_reducible apply Only.step (updCq_only ..); exact .of (by decide +kernel))
    | with_reducible apply_assumption -exfalso -symm
    | split
    | dsimp only

/-- What `postCqe` may change. -/
theorem postCqe_only (p : Port) (sq : Nat) (cid : BitVec 16) (sct sc dw0 dw1 : Nat) (s : State) :
    Only [.out, .he, .ctl,
    .fs, .reg Reg.QE_CQFULL.COUNT] s (postCqe p sq cid sct sc dw0 dw1 s) := by
  unfold postCqe
  repeat' first
    | intro _
    | with_reducible assumption
    | with_reducible exact Only.refl _ _
    | (with_reducible apply Only.step (postDone_only ..); exact .of (by decide +kernel))
    | with_reducible apply_assumption -exfalso -symm
    | split
    | dsimp only

/-- What `releaseOne` may change. -/
theorem releaseOne_only (p : Port) (q : Cq) (h : HeldCqe) (s : State) :
    Only [.out, .he, .ctl, .fs,
    .reg Reg.QE_CQFULL.LAST] s (releaseOne p q h s) := by
  unfold releaseOne
  repeat' first
    | intro _
    | with_reducible assumption
    | with_reducible exact Only.refl _ _
    | (extract_lets +onlyGivenNames x; refine Only.cut x ?_ (fun _ => ?_); unfold x; clear x; rotate_left; clear_value x)
    | (extract_lets +onlyGivenNames x; refine Only.cut2 x ?_ (fun _ => ?_); unfold x; clear x; rotate_left; clear_value x)
    | (extract_lets +onlyGivenNames x; refine Only.cutF x ?_ (fun _ => ?_); unfold x; clear x; rotate_left; clear_value x)
    | (extract_lets +onlyGivenNames x; refine Only.cutG x ?_ (fun _ => ?_); unfold x; clear x; rotate_left; clear_value x)
    | (extract_lets +onlyGivenNames x; refine Only.cutP x ?_ (fun _ => ?_); unfold x; clear x; rotate_left; clear_value x)
    | (extract_lets +onlyGivenNames x; refine Only.cutG2 x ?_ (fun _ => ?_); unfold x; clear x; rotate_left; clear_value x)
    | (extract_lets +onlyGivenNames x; refine Only.cutG3 x ?_ (fun _ => ?_); unfold x; clear x; rotate_left; clear_value x)
    | (extract_lets +onlyGivenNames x; refine Only.cutH x ?_ (fun _ => ?_); unfold x; clear x; rotate_left; clear_value x)
    | (extract_lets +onlyGivenNames x; clear_value x)
    | with_reducible apply Only.ite
    | fail_if_no_progress (with_reducible apply Only.upd_fs; decide +kernel)
    | (with_reducible apply Only.step (setSat_only ..); exact .of (by decide +kernel))
    | (with_reducible apply Only.step (countDone_only ..); exact .of (by decide +kernel))
    | (with_reducible apply Only.step (updClass_only ..); exact .of (by decide +kernel))
    | (with_reducible apply Only.step (cqInterrupt_only ..); exact .of (by decide +kernel))
    | (with_reducible apply Only.step (emit_only ..); exact .of (by decide +kernel))
    | (with_reducible apply Only.step (updCq_only ..); exact .of (by decide +kernel))
    | with_reducible apply_assumption -exfalso -symm
    | split
    | dsimp only

/-- What `releaseHeldCqes` may change. -/
theorem releaseHeldCqes_only (p : Port) (qid : Nat) (m : Nat) :
    ∀ (s : State), Only [.out, .he, .ctl, .fs,
    .reg Reg.QE_CQFULL.LAST] s (releaseHeldCqes p qid m s) := by
  induction m with
  | zero =>
    intros; unfold releaseHeldCqes
    repeat' first
      | intro _
      | with_reducible assumption
      | with_reducible exact Only.refl _ _
      | with_reducible apply Only.ite
      | (with_reducible apply Only.step (releaseOne_only ..); exact .of (by decide +kernel))
      | (with_reducible apply Only.step (updCq_only ..); exact .of (by decide +kernel))
      | with_reducible apply_assumption -exfalso -symm
      | split
      | dsimp only
  | succ m ih =>
    intros; unfold releaseHeldCqes
    repeat' first
      | intro _
      | with_reducible assumption
      | with_reducible exact Only.refl _ _
      | with_reducible apply Only.ite
      | (with_reducible apply Only.step (releaseOne_only ..); exact .of (by decide +kernel))
      | (with_reducible apply Only.step (updCq_only ..); exact .of (by decide +kernel))
      | with_reducible refine Only.trans ?_ (ih _)
      | with_reducible apply_assumption -exfalso -symm
      | split
      | dsimp only

/-- What `postEvent` may change. -/
theorem postEvent_only (p : Port) (e : AsyncEvent) (s : State) :
    Only [.out, .he, .ctl, .fs,
    .reg Reg.QE_CQFULL.COUNT] s (postEvent p e s) := by
  unfold postEvent
  repeat' first
    | intro _
    | with_reducible assumption
    | with_reducible exact Only.refl _ _
    | (extract_lets +onlyGivenNames x; refine Only.cut x ?_ (fun _ => ?_); unfold x; clear x; rotate_left; clear_value x)
    | (extract_lets +onlyGivenNames x; refine Only.cut2 x ?_ (fun _ => ?_); unfold x; clear x; rotate_left; clear_value x)
    | (extract_lets +onlyGivenNames x; refine Only.cutF x ?_ (fun _ => ?_); unfold x; clear x; rotate_left; clear_value x)
    | (extract_lets +onlyGivenNames x; refine Only.cutG x ?_ (fun _ => ?_); unfold x; clear x; rotate_left; clear_value x)
    | (extract_lets +onlyGivenNames x; refine Only.cutG2 x ?_ (fun _ => ?_); unfold x; clear x; rotate_left; clear_value x)
    | (extract_lets +onlyGivenNames x; refine Only.cutG3 x ?_ (fun _ => ?_); unfold x; clear x; rotate_left; clear_value x)
    | (extract_lets +onlyGivenNames x; refine Only.cutH x ?_ (fun _ => ?_); unfold x; clear x; rotate_left; clear_value x)
    | (extract_lets +onlyGivenNames x; clear_value x)
    | with_reducible apply Only.ite
    | (with_reducible apply Only.step (postCqe_only ..); exact .of (by decide +kernel))
    | (with_reducible apply Only.step (State.updCon_only ..); exact .of (by decide +kernel))
    | with_reducible apply_assumption -exfalso -symm
    | split
    | dsimp only

/-- What `vendorEvent` may change. -/
theorem vendorEvent_only (info lid : Nat) (s : State) :
    Only [.out, .he, .ctl, .fs,
    .reg Reg.QE_CQFULL.COUNT] s (vendorEvent info lid s) := by
  unfold vendorEvent
  repeat' first
    | intro _
    | with_reducible assumption
    | with_reducible exact Only.refl _ _
    | (with_reducible apply Only.step (postEvent_only ..); exact .of (by decide +kernel))
    | with_reducible apply_assumption -exfalso -symm
    | split
    | dsimp only

/-- What `evModeChanged` may change. -/
theorem evModeChanged_only (s : State) :
    Only [.out, .he, .ctl, .fs, .reg Reg.QE_CQFULL.COUNT] s (evModeChanged s) := by
  unfold evModeChanged
  repeat' first
    | intro _
    | with_reducible assumption
    | with_reducible exact Only.refl _ _
    | (with_reducible apply Only.step (vendorEvent_only ..); exact .of (by decide +kernel))
    | with_reducible apply_assumption -exfalso -symm
    | split
    | dsimp only

/-- What `evDeferred` may change. -/
theorem evDeferred_only (s : State) :
    Only [.out, .he, .ctl, .fs, .reg Reg.QE_CQFULL.COUNT] s (evDeferred s) := by
  unfold evDeferred
  repeat' first
    | intro _
    | with_reducible assumption
    | with_reducible exact Only.refl _ _
    | (with_reducible apply Only.step (vendorEvent_only ..); exact .of (by decide +kernel))
    | with_reducible apply_assumption -exfalso -symm
    | split
    | dsimp only

/-- What `evLost` may change. -/
theorem evLost_only (s : State) :
    Only [.out, .he, .ctl, .fs, .reg Reg.QE_CQFULL.COUNT] s (evLost s) := by
  unfold evLost
  repeat' first
    | intro _
    | with_reducible assumption
    | with_reducible exact Only.refl _ _
    | (with_reducible apply Only.step (vendorEvent_only ..); exact .of (by decide +kernel))
    | with_reducible apply_assumption -exfalso -symm
    | split
    | dsimp only

/-- What `evLatency` may change. -/
theorem evLatency_only (s : State) :
    Only [.out, .he, .ctl, .fs, .reg Reg.QE_CQFULL.COUNT] s (evLatency s) := by
  unfold evLatency
  repeat' first
    | intro _
    | with_reducible assumption
    | with_reducible exact Only.refl _ _
    | (with_reducible apply Only.step (vendorEvent_only ..); exact .of (by decide +kernel))
    | with_reducible apply_assumption -exfalso -symm
    | split
    | dsimp only

/-- What `evFabric` may change. -/
theorem evFabric_only (s : State) :
    Only [.out, .he, .ctl, .fs, .reg Reg.QE_CQFULL.COUNT] s (evFabric s) := by
  unfold evFabric
  repeat' first
    | intro _
    | with_reducible assumption
    | with_reducible exact Only.refl _ _
    | (with_reducible apply Only.step (vendorEvent_only ..); exact .of (by decide +kernel))
    | with_reducible apply_assumption -exfalso -symm
    | split
    | dsimp only

/-- What `notice` may change. -/
theorem notice_only (bit info lid : Nat) (s : State) :
    Only [.out, .he, .ctl, .fs,
    .reg Reg.QE_CQFULL.COUNT] s (notice bit info lid s) := by
  unfold notice
  repeat' first
    | intro _
    | with_reducible assumption
    | with_reducible exact Only.refl _ _
    | (extract_lets +onlyGivenNames x; refine Only.cut x ?_ (fun _ => ?_); unfold x; clear x; rotate_left; clear_value x)
    | (extract_lets +onlyGivenNames x; refine Only.cut2 x ?_ (fun _ => ?_); unfold x; clear x; rotate_left; clear_value x)
    | (extract_lets +onlyGivenNames x; refine Only.cutF x ?_ (fun _ => ?_); unfold x; clear x; rotate_left; clear_value x)
    | (extract_lets +onlyGivenNames x; refine Only.cutG x ?_ (fun _ => ?_); unfold x; clear x; rotate_left; clear_value x)
    | (extract_lets +onlyGivenNames x; refine Only.cutG2 x ?_ (fun _ => ?_); unfold x; clear x; rotate_left; clear_value x)
    | (extract_lets +onlyGivenNames x; refine Only.cutG3 x ?_ (fun _ => ?_); unfold x; clear x; rotate_left; clear_value x)
    | (extract_lets +onlyGivenNames x; refine Only.cutH x ?_ (fun _ => ?_); unfold x; clear x; rotate_left; clear_value x)
    | (extract_lets +onlyGivenNames x; clear_value x)
    | with_reducible apply Only.ite
    | (with_reducible apply Only.step (postEvent_only ..); exact .of (by decide +kernel))
    | with_reducible apply_assumption -exfalso -symm
    | split
    | dsimp only

/-- What `evNsChanged` may change. -/
theorem evNsChanged_only (nsid : Nat) (s : State) :
    Only [.out, .he, .ctl, .fs,
    .reg Reg.QE_CQFULL.COUNT] s (evNsChanged nsid s) := by
  unfold evNsChanged
  repeat' first
    | intro _
    | with_reducible assumption
    | with_reducible exact Only.refl _ _
    | fail_if_no_progress (with_reducible apply Only.upd_ctl; decide +kernel)
    | (with_reducible apply Only.step (notice_only ..); exact .of (by decide +kernel))
    | with_reducible apply_assumption -exfalso -symm
    | split
    | dsimp only

/-- What `evAna` may change. -/
theorem evAna_only (s : State) :
    Only [.out, .he, .ctl, .fs, .reg Reg.QE_CQFULL.COUNT] s (evAna s) := by
  unfold evAna
  repeat' first
    | intro _
    | with_reducible assumption
    | with_reducible exact Only.refl _ _
    | (with_reducible apply Only.step (notice_only ..); exact .of (by decide +kernel))
    | with_reducible apply_assumption -exfalso -symm
    | split
    | dsimp only

/-- What `setMode` may change. -/
theorem setMode_only (row : Nat) (m : Mode) (s : State) :
    Only [.gen, .prov] s (setMode row m s) := by
  unfold setMode
  repeat' first
    | intro _
    | with_reducible assumption
    | with_reducible exact Only.refl _ _
    | with_reducible apply Only.ite
    | fail_if_no_progress (with_reducible apply Only.upd_gen_prov; decide +kernel; decide +kernel)
    | with_reducible apply_assumption -exfalso -symm
    | split
    | dsimp only

/-- What `fiDisarmed` may change. -/
theorem fiDisarmed_only (cause : Nat) (s : State) :
    Only [.mg, .fi, .reg Reg.MG_LOGSTAT.DROPPED, .reg Reg.MG_ERR.LOGDROP,
    .reg Reg.FI_ARM.ARMED, .reg Reg.FI_ARM.DCAUSE, .reg Reg.FI_GF.EN, .reg Reg.FI_FL.EN,
    .reg Reg.FI_PCIE.EN] s (fiDisarmed cause s) := by
  unfold fiDisarmed
  repeat' first
    | intro _
    | with_reducible assumption
    | with_reducible exact Only.refl _ _
    | (extract_lets +onlyGivenNames x; refine Only.cut x ?_ (fun _ => ?_); unfold x; clear x; rotate_left; clear_value x)
    | (extract_lets +onlyGivenNames x; refine Only.cut2 x ?_ (fun _ => ?_); unfold x; clear x; rotate_left; clear_value x)
    | (extract_lets +onlyGivenNames x; clear_value x)
    | with_reducible apply Only.ite
    | fail_if_no_progress (with_reducible apply Only.upd_fi; decide +kernel)
    | (with_reducible apply Only.step (setF_only ..); exact .of (by decide +kernel))
    | (with_reducible apply Only.step (flagOff_only ..); exact .of (by decide +kernel))
    | (with_reducible apply Only.step (logEvent_only ..); exact .of (by decide +kernel))
    | with_reducible apply_assumption -exfalso -symm
    | split
    | dsimp only

/-- What `fiArmed` may change. -/
theorem fiArmed_only (diag : Bool) (s : State) :
    Only [.out, .he, .ctl, .fs, .mg, .fi, .reg Reg.QE_CQFULL.COUNT,
    .reg Reg.MG_LOGSTAT.DROPPED, .reg Reg.MG_ERR.LOGDROP, .reg Reg.FI_ARM.ARMED] s (fiArmed diag s) := by
  unfold fiArmed
  repeat' first
    | intro _
    | with_reducible assumption
    | with_reducible exact Only.refl _ _
    | (extract_lets +onlyGivenNames x; refine Only.cut x ?_ (fun _ => ?_); unfold x; clear x; rotate_left; clear_value x)
    | (extract_lets +onlyGivenNames x; refine Only.cut2 x ?_ (fun _ => ?_); unfold x; clear x; rotate_left; clear_value x)
    | (extract_lets +onlyGivenNames x; clear_value x)
    | with_reducible apply Only.ite
    | fail_if_no_progress (with_reducible apply Only.upd_fi; decide +kernel)
    | (with_reducible apply Only.step (flagOn_only ..); exact .of (by decide +kernel))
    | (with_reducible apply Only.step (vendorEvent_only ..); exact .of (by decide +kernel))
    | (with_reducible apply Only.step (logEvent_only ..); exact .of (by decide +kernel))
    | with_reducible apply_assumption -exfalso -symm
    | split
    | dsimp only

/-- What `fiRealFault` may change. -/
theorem fiRealFault_only (s : State) :
    Only [.mg, .fi, .reg Reg.MG_LOGSTAT.DROPPED, .reg Reg.MG_ERR.LOGDROP,
    .reg Reg.FI_ARM.ARMED, .reg Reg.FI_ARM.DCAUSE, .reg Reg.FI_GF.EN, .reg Reg.FI_FL.EN, .reg Reg.FI_PCIE.EN,
    .reg Reg.FI_ERR.REALFAULT] s (fiRealFault s) := by
  unfold fiRealFault
  repeat' first
    | intro _
    | with_reducible assumption
    | with_reducible exact Only.refl _ _
    | with_reducible apply Only.ite
    | (with_reducible apply Only.step (flagOn_only ..); exact .of (by decide +kernel))
    | (with_reducible apply Only.step (fiDisarmed_only ..); exact .of (by decide +kernel))
    | with_reducible apply_assumption -exfalso -symm
    | split
    | dsimp only

/-- What `fiHits` may change. -/
theorem fiHits_only (i rate n : Nat) (s : State) :
    Only [.fi] s (fiHits i rate n s).2 := by
  unfold fiHits
  repeat' first
    | intro _
    | with_reducible assumption
    | with_reducible exact Only.refl _ _
    | (extract_lets +onlyGivenNames x; refine Only.cut x ?_ (fun _ => ?_); unfold x; clear x; rotate_left; clear_value x)
    | (extract_lets +onlyGivenNames x; refine Only.cut2 x ?_ (fun _ => ?_); unfold x; clear x; rotate_left; clear_value x)
    | (extract_lets +onlyGivenNames x; clear_value x)
    | fail_if_no_progress (with_reducible apply Only.upd_fi; decide +kernel)
    | with_reducible apply_assumption -exfalso -symm
    | split
    | dsimp only

/-- What `fiInjected` may change. -/
theorem fiInjected_only (n code data : Nat) (s : State) :
    Only [.mg, .reg Reg.MG_LOGSTAT.DROPPED, .reg Reg.MG_ERR.LOGDROP,
    .reg Reg.FI_CNT.INJECTED] s (fiInjected n code data s) := by
  unfold fiInjected
  repeat' first
    | intro _
    | with_reducible assumption
    | with_reducible exact Only.refl _ _
    | (with_reducible apply Only.step (bumpBy_only ..); exact .of (by decide +kernel))
    | (with_reducible apply Only.step (logEvent_only ..); exact .of (by decide +kernel))
    | with_reducible refine Only.foldl (fun _ _ _ => ?_) ?_
    | with_reducible refine Only.foldl2 (fun _ _ _ => ?_) ?_
    | with_reducible apply_assumption -exfalso -symm
    | split
    | dsimp only

/-- What `enterMode` may change. -/
theorem enterMode_only (row : Nat) (m : Mode) (s : State) :
    Only [.out, .gen, .he, .ctl, .fs, .mg, .fi, .prov,
    .reg Reg.QE_CQFULL.COUNT, .reg Reg.MG_LOGSTAT.DROPPED, .reg Reg.MG_ERR.LOGDROP, .reg Reg.FI_ARM.ARMED,
    .reg Reg.FI_ARM.DCAUSE, .reg Reg.FI_GF.EN, .reg Reg.FI_FL.EN, .reg Reg.FI_PCIE.EN] s (enterMode row m s) := by
  unfold enterMode
  repeat' first
    | intro _
    | with_reducible assumption
    | with_reducible exact Only.refl _ _
    | (extract_lets +onlyGivenNames x; refine Only.cut x ?_ (fun _ => ?_); unfold x; clear x; rotate_left; clear_value x)
    | (extract_lets +onlyGivenNames x; refine Only.cut2 x ?_ (fun _ => ?_); unfold x; clear x; rotate_left; clear_value x)
    | (extract_lets +onlyGivenNames x; clear_value x)
    | with_reducible apply Only.ite
    | (with_reducible apply Only.step (setMode_only ..); exact .of (by decide +kernel))
    | (with_reducible apply Only.step (fiArmed_only ..); exact .of (by decide +kernel))
    | (with_reducible apply Only.step (fiDisarmed_only ..); exact .of (by decide +kernel))
    | with_reducible apply_assumption -exfalso -symm
    | split
    | dsimp only

/-- What `onFabric` may change. -/
theorem onFabric_keep {w : List Fld} {r : State} {f : State → State} {s : State}
    (hSub : Within [] w)
    (hBody : ∀ u,
    Only w r u → Only w r (f u)) (hOnly : Only w r s) : Only w r (onFabric f s) := by
  unfold onFabric
  repeat' first
    | intro _
    | with_reducible assumption
    | with_reducible exact Only.refl _ _
    | with_reducible apply Only.ite
    | with_reducible apply_assumption -exfalso -symm
    | split
    | dsimp only

end Sys2Proof.Machine
end

