-- ==== Sys2Proof/Laws/FrameBufs.lean ====
section
/-! SUPPORT. What each operation of Machine/Bufs.lean may change, as `Only` states it: one lemma an operation, which later proofs cite
instead of unfolding it. -/
namespace Sys2Proof.Machine
set_option Elab.async false
set_option linter.all false

/-- What `updBuf` may change. -/
theorem updBuf_only (i : Nat) (f : Buf → Buf) (s : State) :
    Only [.bp] s (updBuf i f s) := by
  unfold updBuf
  repeat' first
    | intro _
    | with_reducible assumption
    | with_reducible exact Only.refl _ _
    | fail_if_no_progress (with_reducible apply Only.upd_bp; decide +kernel)
    | with_reducible apply_assumption -exfalso -symm
    | split
    | dsimp only

/-- What `updPool` may change. -/
theorem updPool_only (p : Nat) (f : Pool → Pool) (s : State) :
    Only [.bp] s (updPool p f s) := by
  unfold updPool
  repeat' first
    | intro _
    | with_reducible assumption
    | with_reducible exact Only.refl _ _
    | fail_if_no_progress (with_reducible apply Only.upd_bp; decide +kernel)
    | with_reducible apply_assumption -exfalso -symm
    | split
    | dsimp only

/-- What `updOwner` may change. -/
theorem updOwner_only (o : Nat) (f : Owner → Owner) (s : State) :
    Only [.bp] s (updOwner o f s) := by
  unfold updOwner
  repeat' first
    | intro _
    | with_reducible assumption
    | with_reducible exact Only.refl _ _
    | fail_if_no_progress (with_reducible apply Only.upd_bp; decide +kernel)
    | with_reducible apply_assumption -exfalso -symm
    | split
    | dsimp only

/-- What `popPool` may change. -/
theorem popPool_eq {p : Nat} {s : State} {a t} (hEq : popPool p s = some (a, t)) :
    Only [.bp] s t := by
  unfold popPool at hEq
  try dsimp only at hEq
  repeat' first
    | (cases hEq; done)
    | split at hEq
    | (simp only [Option.some.injEq, Prod.mk.injEq] at hEq; first | subst hEq | (obtain ⟨_, hEq⟩ := hEq; first | subst hEq | (obtain ⟨_, hEq⟩ := hEq; subst hEq)))
    | (simp at hEq; done)
  repeat' first
    | intro _
    | with_reducible assumption
    | with_reducible exact Only.refl _ _
    | (extract_lets +onlyGivenNames x; refine Only.cut x ?_ (fun _ => ?_); unfold x; clear x; rotate_left; clear_value x)
    | (extract_lets +onlyGivenNames x; refine Only.cut2 x ?_ (fun _ => ?_); unfold x; clear x; rotate_left; clear_value x)
    | (extract_lets +onlyGivenNames x; refine Only.cutF x ?_ (fun _ => ?_); unfold x; clear x; rotate_left; clear_value x)
    | (extract_lets +onlyGivenNames x; refine Only.cutG x ?_ (fun _ => ?_); unfold x; clear x; rotate_left; clear_value x)
    | (extract_lets +onlyGivenNames x; refine Only.cutG2 x ?_ (fun _ => ?_); unfold x; clear x; rotate_left; clear_value x)
    | (extract_lets +onlyGivenNames x; refine Only.cutG3 x ?_ (fun _ => ?_); unfold x; clear x; rotate_left; clear_value x)
    | (extract_lets +onlyGivenNames x; refine Only.cutH x ?_ (fun _ => ?_); unfold x; clear x; rotate_left; clear_value x)
    | (extract_lets +onlyGivenNames x; clear_value x)
    | with_reducible apply Only.ite
    | (with_reducible apply Only.step (updPool_only ..); exact .of (by decide +kernel))
    | with_reducible apply_assumption -exfalso -symm
    | split
    | dsimp only

/-- What `takeBuf` may change. -/
theorem takeBuf_eq {o : Nat} {s : State} {a t} (hEq : takeBuf o s = some (a, t)) :
    Only [.bp] s t := by
  unfold takeBuf at hEq
  try dsimp only at hEq
  repeat' first
    | (cases hEq; done)
    | split at hEq
    | (simp only [Option.some.injEq, Prod.mk.injEq] at hEq; first | subst hEq | (obtain ⟨_, hEq⟩ := hEq; first | subst hEq | (obtain ⟨_, hEq⟩ := hEq; subst hEq)))
    | (simp at hEq; done)
  repeat' first
    | intro _
    | with_reducible assumption
    | with_reducible exact Only.refl _ _
    | with_reducible refine Only.step (popPool_eq ‹_›) (.of (by decide +kernel)) ?_
    | (with_reducible apply Only.step (updBuf_only ..); exact .of (by decide +kernel))
    | with_reducible apply_assumption -exfalso -symm
    | split
    | dsimp only

/-- What `takeBufs` may change. -/
theorem takeBufs_only (o : Nat) (m : Nat) :
    ∀ (s : State), Only [.bp] s (takeBufs o m s).2.2 := by
  induction m with
  | zero =>
    intros; unfold takeBufs
    repeat' first
      | intro _
      | with_reducible assumption
      | with_reducible exact Only.refl _ _
      | with_reducible refine Only.step (takeBuf_eq ‹_›) (.of (by decide +kernel)) ?_
      | with_reducible apply_assumption -exfalso -symm
      | split
      | dsimp only
  | succ m ih =>
    intros; unfold takeBufs
    repeat' first
      | intro _
      | with_reducible assumption
      | with_reducible exact Only.refl _ _
      | with_reducible refine Only.step (takeBuf_eq ‹_›) (.of (by decide +kernel)) ?_
      | with_reducible refine Only.trans ?_ (ih _)
      | with_reducible refine Only.trans ?_ (Only.of_eq3 ‹_› (ih _))
      | with_reducible apply_assumption -exfalso -symm
      | split
      | dsimp only

/-- What `putBuf` may change. -/
theorem putBuf_only (i : Nat) (s : State) :
    Only [.bp] s (putBuf i s) := by
  unfold putBuf
  repeat' first
    | intro _
    | with_reducible assumption
    | with_reducible exact Only.refl _ _
    | (extract_lets +onlyGivenNames x; refine Only.cut x ?_ (fun _ => ?_); unfold x; clear x; rotate_left; clear_value x)
    | (extract_lets +onlyGivenNames x; refine Only.cut2 x ?_ (fun _ => ?_); unfold x; clear x; rotate_left; clear_value x)
    | (extract_lets +onlyGivenNames x; refine Only.cutF x ?_ (fun _ => ?_); unfold x; clear x; rotate_left; clear_value x)
    | (extract_lets +onlyGivenNames x; refine Only.cutG x ?_ (fun _ => ?_); unfold x; clear x; rotate_left; clear_value x)
    | (extract_lets +onlyGivenNames x; refine Only.cutG2 x ?_ (fun _ => ?_); unfold x; clear x; rotate_left; clear_value x)
    | (extract_lets +onlyGivenNames x; refine Only.cutG3 x ?_ (fun _ => ?_); unfold x; clear x; rotate_left; clear_value x)
    | (extract_lets +onlyGivenNames x; refine Only.cutH x ?_ (fun _ => ?_); unfold x; clear x; rotate_left; clear_value x)
    | (extract_lets +onlyGivenNames x; clear_value x)
    | with_reducible apply Only.ite
    | (with_reducible apply Only.step (updBuf_only ..); exact .of (by decide +kernel))
    | (with_reducible apply Only.step (updPool_only ..); exact .of (by decide +kernel))
    | with_reducible apply_assumption -exfalso -symm
    | split
    | dsimp only

/-- What `putBufs` may change. -/
theorem putBufs_only (is : List Nat) (s : State) :
    Only [.bp] s (putBufs is s) := by
  unfold putBufs
  repeat' first
    | intro _
    | with_reducible assumption
    | with_reducible exact Only.refl _ _
    | (with_reducible apply Only.step (putBuf_only ..); exact .of (by decide +kernel))
    | with_reducible refine Only.foldl (fun _ _ _ => ?_) ?_
    | with_reducible refine Only.foldl2 (fun _ _ _ => ?_) ?_
    | with_reducible apply_assumption -exfalso -symm
    | split
    | dsimp only

/-- What `allocFailed` may change. -/
theorem allocFailed_only (o : Nat) (why : AllocFail) (s : State) :
    Only [.bp] s (allocFailed o why s) := by
  unfold allocFailed
  repeat' first
    | intro _
    | with_reducible assumption
    | with_reducible exact Only.refl _ _
    | (with_reducible apply Only.step (updOwner_only ..); exact .of (by decide +kernel))
    | with_reducible apply_assumption -exfalso -symm
    | split
    | dsimp only

/-- What `bpErr` may change. -/
theorem bpErr_only (index owner cause : Nat) (s : State) :
    Only [.reg Reg.BP_ERRBUF.INDEX, .reg Reg.BP_ERRBUF.OWNER,
    .reg Reg.BP_ERRBUF.CAUSE] s (bpErr index owner cause s) := by
  unfold bpErr
  repeat' first
    | intro _
    | with_reducible assumption
    | with_reducible exact Only.refl _ _
    | (with_reducible apply Only.step (setF_only ..); exact .of (by decide +kernel))
    | with_reducible apply_assumption -exfalso -symm
    | split
    | dsimp only

/-- What `bpAlloc` may change. -/
theorem bpAlloc_only (o n : Nat) (vc0 : Bool) (s : State) :
    Only [.bp, .reg Reg.BP_ERRBUF.INDEX, .reg Reg.BP_ERRBUF.OWNER,
    .reg Reg.BP_ERRBUF.CAUSE, .reg Reg.BP_ERR.REVOKE] s (bpAlloc o n vc0 s).2 := by
  unfold bpAlloc
  repeat' first
    | intro _
    | with_reducible assumption
    | with_reducible exact Only.refl _ _
    | (with_reducible apply Only.step (flagOn_only ..); exact .of (by decide +kernel))
    | (with_reducible apply Only.step (allocFailed_only ..); exact .of (by decide +kernel))
    | (with_reducible apply Only.step (takeBufs_only ..); exact .of (by decide +kernel))
    | with_reducible refine Only.step (Only.of_eq2 ‹_› (takeBufs_only ..)) (.of (by decide +kernel)) ?_
    | with_reducible refine Only.step (Only.of_eq3 ‹_› (takeBufs_only ..)) (.of (by decide +kernel)) ?_
    | (with_reducible apply Only.step (bpErr_only ..); exact .of (by decide +kernel))
    | (with_reducible apply Only.step (putBufs_only ..); exact .of (by decide +kernel))
    | with_reducible apply_assumption -exfalso -symm
    | split
    | dsimp only

end Sys2Proof.Machine
end

