-- ==== Sys2Proof/Laws/FrameMedia.lean ====
section
/-! SUPPORT. What each operation of Machine/Media.lean may change, as `Only` states it: one lemma an operation, which later proofs cite
instead of unfolding it. -/
namespace Sys2Proof.Machine
set_option Elab.async false
set_option linter.all false

/-- What `updCluster` may change. -/
theorem updCluster_only (k : Nat) (f : Cluster → Cluster) (s : State) :
    Only [.cs] s (updCluster k f s) := by
  unfold updCluster
  repeat' first
    | intro _
    | with_reducible assumption
    | with_reducible exact Only.refl _ _
    | fail_if_no_progress (with_reducible apply Only.upd_cs; decide +kernel)
    | with_reducible apply_assumption -exfalso -symm
    | split
    | dsimp only

/-- What `ctxPut` may change. -/
theorem ctxPut_only (d : Nat) (op : DieOp) (b page : Nat) (code : CtxCode) (s : State) :
    Only [.cs] s (ctxPut d op b page code s) := by
  unfold ctxPut
  repeat' first
    | intro _
    | with_reducible assumption
    | with_reducible exact Only.refl _ _
    | (with_reducible apply Only.step (updCluster_only ..); exact .of (by decide +kernel))
    | with_reducible apply_assumption -exfalso -symm
    | split
    | dsimp only

/-- What `ctxCode` may change. -/
theorem ctxCode_only (d : Nat) (code : CtxCode) (s : State) :
    Only [.cs] s (ctxCode d code s) := by
  unfold ctxCode
  repeat' first
    | intro _
    | with_reducible assumption
    | with_reducible exact Only.refl _ _
    | with_reducible apply Only.ite
    | (with_reducible apply Only.step (updCluster_only ..); exact .of (by decide +kernel))
    | with_reducible apply_assumption -exfalso -symm
    | split
    | dsimp only

/-- What `updNs` may change. -/
theorem updNs_only (n : Nat) (f : Ns → Ns) (s : State) :
    Only [.ns] s (updNs n f s) := by
  unfold updNs
  repeat' first
    | intro _
    | with_reducible assumption
    | with_reducible exact Only.refl _ _
    | fail_if_no_progress (with_reducible apply Only.upd_ns; decide +kernel)
    | with_reducible apply_assumption -exfalso -symm
    | split
    | dsimp only

/-- What `putEntry` may change. -/
theorem putEntry_only (nsid grain : Nat) (e : MapEntry) (s : State) :
    Only [.mx] s (putEntry nsid grain e s) := by
  unfold putEntry
  repeat' first
    | intro _
    | with_reducible assumption
    | with_reducible exact Only.refl _ _
    | with_reducible apply Only.ite
    | fail_if_no_progress (with_reducible apply Only.upd_mx; decide +kernel)
    | with_reducible apply_assumption -exfalso -symm
    | split
    | dsimp only

/-- What `jAppend` may change. -/
theorem jAppend_only (r : JRec) (s : State) :
    Only [.mx] s (jAppend r s) := by
  unfold jAppend
  repeat' first
    | intro _
    | with_reducible assumption
    | with_reducible exact Only.refl _ _
    | fail_if_no_progress (with_reducible apply Only.upd_mx; decide +kernel)
    | with_reducible apply_assumption -exfalso -symm
    | split
    | dsimp only

/-- What `jAppends` may change. -/
theorem jAppends_only (rs : List JRec) (s : State) :
    Only [.mx] s (jAppends rs s) := by
  unfold jAppends
  repeat' first
    | intro _
    | with_reducible assumption
    | with_reducible exact Only.refl _ _
    | fail_if_no_progress (with_reducible apply Only.upd_mx; decide +kernel)
    | with_reducible apply_assumption -exfalso -symm
    | split
    | dsimp only

/-- What `updGroup` may change. -/
theorem updGroup_only (g : Nat) (f : Group → Group) (s : State) :
    Only [.sp] s (updGroup g f s) := by
  unfold updGroup
  repeat' first
    | intro _
    | with_reducible assumption
    | with_reducible exact Only.refl _ _
    | fail_if_no_progress (with_reducible apply Only.upd_sp; decide +kernel)
    | with_reducible apply_assumption -exfalso -symm
    | split
    | dsimp only

/-- What `updBlk` may change. -/
theorem updBlk_only (d b : Nat) (f : Block → Block) (s : State) :
    Only [.mx, .mm] s (updBlk d b f s) := by
  unfold updBlk
  repeat' first
    | intro _
    | with_reducible assumption
    | with_reducible exact Only.refl _ _
    | fail_if_no_progress (with_reducible apply Only.upd_mx_mm; decide +kernel; decide +kernel)
    | with_reducible apply_assumption -exfalso -symm
    | split
    | dsimp only

/-- What `spareIn` may change. -/
theorem spareIn_only (resource left : Nat) (s : State) :
    Only [.out, .he, .ctl, .fs, .mg, .fi, .reg Reg.QE_CQFULL.COUNT,
    .reg Reg.MG_LOGSTAT.DROPPED, .reg Reg.MG_ERR.LOGDROP, .reg Reg.FI_ARM.ARMED, .reg Reg.FI_ARM.DCAUSE, .reg Reg.FI_GF.EN,
    .reg Reg.FI_FL.EN, .reg Reg.FI_PCIE.EN, .reg Reg.FI_ERR.REALFAULT] s (spareIn resource left s) := by
  unfold spareIn
  repeat' first
    | intro _
    | with_reducible assumption
    | with_reducible exact Only.refl _ _
    | (with_reducible apply Only.step (fiRealFault_only ..); exact .of (by decide +kernel))
    | (with_reducible apply Only.step (vendorEvent_only ..); exact .of (by decide +kernel))
    | (with_reducible apply Only.step (logEvent_only ..); exact .of (by decide +kernel))
    | with_reducible apply_assumption -exfalso -symm
    | split
    | dsimp only

/-- What `unitOut` may change. -/
theorem unitOut_only (resource unit : Nat) (s : State) :
    Only [.prov] s (unitOut resource unit s) := by
  unfold unitOut
  repeat' first
    | intro _
    | with_reducible assumption
    | with_reducible exact Only.refl _ _
    | fail_if_no_progress (with_reducible apply Only.upd_prov; decide +kernel)
    | with_reducible apply_assumption -exfalso -symm
    | split
    | dsimp only

/-- What `recordExhaustSeal` may change. -/
theorem recordExhaustSeal_only (s : State) :
    Only [.mm, .prov] s (recordExhaustSeal s) := by
  unfold recordExhaustSeal
  repeat' first
    | intro _
    | with_reducible assumption
    | with_reducible exact Only.refl _ _
    | fail_if_no_progress (with_reducible apply Only.upd_mm_prov; decide +kernel; decide +kernel)
    | with_reducible apply_assumption -exfalso -symm
    | split
    | dsimp only

/-- What `enterModeEv` may change. -/
theorem enterModeEv_only (row : Nat) (m : Mode) (s : State) :
    Only [.out, .gen, .he, .ctl, .fs, .mg, .fi, .prov,
    .reg Reg.QE_CQFULL.COUNT, .reg Reg.MG_LOGSTAT.DROPPED, .reg Reg.MG_ERR.LOGDROP, .reg Reg.FI_ARM.ARMED,
    .reg Reg.FI_ARM.DCAUSE, .reg Reg.FI_GF.EN, .reg Reg.FI_FL.EN, .reg Reg.FI_PCIE.EN] s (enterModeEv row m s) := by
  unfold enterModeEv
  repeat' first
    | intro _
    | with_reducible assumption
    | with_reducible exact Only.refl _ _
    | (with_reducible apply Only.step (evModeChanged_only ..); exact .of (by decide +kernel))
    | (with_reducible apply Only.step (enterMode_only ..); exact .of (by decide +kernel))
    | with_reducible apply_assumption -exfalso -symm
    | split
    | dsimp only

/-- What `listLost` may change. -/
theorem listLost_only (nsid slba nlb cause csn : Nat) (s : State) :
    Only [.out, .he, .ctl, .sh, .lost, .fs, .mg,
    .reg Reg.QE_CQFULL.COUNT, .reg Reg.MG_LOGSTAT.DROPPED, .reg Reg.MG_ERR.LOGDROP] s (listLost nsid slba nlb cause csn s) := by
  unfold listLost
  repeat' first
    | intro _
    | with_reducible assumption
    | with_reducible exact Only.refl _ _
    | (extract_lets +onlyGivenNames x; refine Only.cut x ?_ (fun _ => ?_); unfold x; clear x; rotate_left; clear_value x)
    | (extract_lets +onlyGivenNames x; refine Only.cut2 x ?_ (fun _ => ?_); unfold x; clear x; rotate_left; clear_value x)
    | (extract_lets +onlyGivenNames x; clear_value x)
    | with_reducible apply Only.ite
    | fail_if_no_progress (with_reducible apply Only.upd_sh; decide +kernel)
    | fail_if_no_progress (with_reducible apply Only.upd_lost; decide +kernel)
    | (with_reducible apply Only.step (evLost_only ..); exact .of (by decide +kernel))
    | (with_reducible apply Only.step (logEvent_only ..); exact .of (by decide +kernel))
    | with_reducible apply_assumption -exfalso -symm
    | split
    | dsimp only

/-- What `deferFault` may change. -/
theorem deferFault_only (nsid cause csnFirst csnLast slba nlb : Nat) (s : State) :
    Only [.out, .he, .ctl, .sh, .defFaults,
    .fs, .reg Reg.QE_CQFULL.COUNT] s (deferFault nsid cause csnFirst csnLast slba nlb s) := by
  unfold deferFault
  repeat' first
    | intro _
    | with_reducible assumption
    | with_reducible exact Only.refl _ _
    | (extract_lets +onlyGivenNames x; refine Only.cut x ?_ (fun _ => ?_); unfold x; clear x; rotate_left; clear_value x)
    | (extract_lets +onlyGivenNames x; refine Only.cut2 x ?_ (fun _ => ?_); unfold x; clear x; rotate_left; clear_value x)
    | (extract_lets +onlyGivenNames x; clear_value x)
    | fail_if_no_progress (with_reducible apply Only.upd_sh_defFaults; decide +kernel; decide +kernel)
    | (with_reducible apply Only.step (evDeferred_only ..); exact .of (by decide +kernel))
    | with_reducible apply_assumption -exfalso -symm
    | split
    | dsimp only

/-- What `markLost` may change. -/
theorem markLost_only (nsid grain cause csn : Nat) (s : State) :
    Only [.out, .he, .ctl, .sh, .lost, .fs, .mx, .mg,
    .reg Reg.QE_CQFULL.COUNT, .reg Reg.MG_LOGSTAT.DROPPED, .reg Reg.MG_ERR.LOGDROP] s (markLost nsid grain cause csn s) := by
  unfold markLost
  repeat' first
    | intro _
    | with_reducible assumption
    | with_reducible exact Only.refl _ _
    | (extract_lets +onlyGivenNames x; refine Only.cut x ?_ (fun _ => ?_); unfold x; clear x; rotate_left; clear_value x)
    | (extract_lets +onlyGivenNames x; refine Only.cut2 x ?_ (fun _ => ?_); unfold x; clear x; rotate_left; clear_value x)
    | (extract_lets +onlyGivenNames x; clear_value x)
    | (with_reducible apply Only.step (jAppend_only ..); exact .of (by decide +kernel))
    | (with_reducible apply Only.step (putEntry_only ..); exact .of (by decide +kernel))
    | (with_reducible apply Only.step (listLost_only ..); exact .of (by decide +kernel))
    | with_reducible apply_assumption -exfalso -symm
    | split
    | dsimp only

/-- What `updStaged` may change. -/
theorem updStaged_only (i : Nat) (f : Staged → Staged) (s : State) :
    Only [.mx] s (updStaged i f s) := by
  unfold updStaged
  repeat' first
    | intro _
    | with_reducible assumption
    | with_reducible exact Only.refl _ _
    | fail_if_no_progress (with_reducible apply Only.upd_mx; decide +kernel)
    | with_reducible apply_assumption -exfalso -symm
    | split
    | dsimp only

/-- What `releaseStaged` may change. -/
theorem releaseStaged_only (i : Nat) (s : State) :
    Only [.mx, .bp] s (releaseStaged i s) := by
  unfold releaseStaged
  repeat' first
    | intro _
    | with_reducible assumption
    | with_reducible exact Only.refl _ _
    | (extract_lets +onlyGivenNames x; refine Only.cut x ?_ (fun _ => ?_); unfold x; clear x; rotate_left; clear_value x)
    | (extract_lets +onlyGivenNames x; refine Only.cut2 x ?_ (fun _ => ?_); unfold x; clear x; rotate_left; clear_value x)
    | (extract_lets +onlyGivenNames x; refine Only.cutF x ?_ (fun _ => ?_); unfold x; clear x; rotate_left; clear_value x)
    | (extract_lets +onlyGivenNames x; refine Only.cutG x ?_ (fun _ => ?_); unfold x; clear x; rotate_left; clear_value x)
    | (extract_lets +onlyGivenNames x; refine Only.cutG2 x ?_ (fun _ => ?_); unfold x; clear x; rotate_left; clear_value x)
    | (extract_lets +onlyGivenNames x; refine Only.cutG3 x ?_ (fun _ => ?_); unfold x; clear x; rotate_left; clear_value x)
    | (extract_lets +onlyGivenNames x; refine Only.cutH x ?_ (fun _ => ?_); unfold x; clear x; rotate_left; clear_value x)
    | (extract_lets +onlyGivenNames x; clear_value x)
    | with_reducible apply Only.ite
    | fail_if_no_progress (with_reducible apply Only.upd_mx; decide +kernel)
    | (with_reducible apply Only.step (putBufs_only ..); exact .of (by decide +kernel))
    | with_reducible apply_assumption -exfalso -symm
    | split
    | dsimp only

/-- What `unhold` may change. -/
theorem unhold_only (i : Nat) (s : State) :
    Only [.mx] s (unhold i s) := by
  unfold unhold
  repeat' first
    | intro _
    | with_reducible assumption
    | with_reducible exact Only.refl _ _
    | (with_reducible apply Only.step (updStaged_only ..); exact .of (by decide +kernel))
    | with_reducible apply_assumption -exfalso -symm
    | split
    | dsimp only

/-- What `placeStaged` may change. -/
theorem placeStaged_only (i : Nat) (loc : MapEntry) (s : State) :
    Only [.mx, .bp] s (placeStaged i loc s) := by
  unfold placeStaged
  repeat' first
    | intro _
    | with_reducible assumption
    | with_reducible exact Only.refl _ _
    | (extract_lets +onlyGivenNames x; refine Only.cut x ?_ (fun _ => ?_); unfold x; clear x; rotate_left; clear_value x)
    | (extract_lets +onlyGivenNames x; refine Only.cut2 x ?_ (fun _ => ?_); unfold x; clear x; rotate_left; clear_value x)
    | (extract_lets +onlyGivenNames x; clear_value x)
    | with_reducible apply Only.ite
    | (with_reducible apply Only.step (unhold_only ..); exact .of (by decide +kernel))
    | (with_reducible apply Only.step (releaseStaged_only ..); exact .of (by decide +kernel))
    | (with_reducible apply Only.step (jAppend_only ..); exact .of (by decide +kernel))
    | (with_reducible apply Only.step (putEntry_only ..); exact .of (by decide +kernel))
    | with_reducible apply_assumption -exfalso -symm
    | split
    | dsimp only

/-- What `swapEntry` may change. -/
theorem swapEntry_only (nsid grain : Nat) (src dst : MapEntry) (s : State) :
    Only [.mx] s (swapEntry nsid grain src dst s) := by
  unfold swapEntry
  repeat' first
    | intro _
    | with_reducible assumption
    | with_reducible exact Only.refl _ _
    | (extract_lets +onlyGivenNames x; refine Only.cut x ?_ (fun _ => ?_); unfold x; clear x; rotate_left; clear_value x)
    | (extract_lets +onlyGivenNames x; refine Only.cut2 x ?_ (fun _ => ?_); unfold x; clear x; rotate_left; clear_value x)
    | (extract_lets +onlyGivenNames x; refine Only.cutF x ?_ (fun _ => ?_); unfold x; clear x; rotate_left; clear_value x)
    | (extract_lets +onlyGivenNames x; refine Only.cutG x ?_ (fun _ => ?_); unfold x; clear x; rotate_left; clear_value x)
    | (extract_lets +onlyGivenNames x; refine Only.cutG2 x ?_ (fun _ => ?_); unfold x; clear x; rotate_left; clear_value x)
    | (extract_lets +onlyGivenNames x; refine Only.cutG3 x ?_ (fun _ => ?_); unfold x; clear x; rotate_left; clear_value x)
    | (extract_lets +onlyGivenNames x; refine Only.cutH x ?_ (fun _ => ?_); unfold x; clear x; rotate_left; clear_value x)
    | (extract_lets +onlyGivenNames x; clear_value x)
    | with_reducible apply Only.ite
    | (with_reducible apply Only.step (jAppend_only ..); exact .of (by decide +kernel))
    | (with_reducible apply Only.step (putEntry_only ..); exact .of (by decide +kernel))
    | (with_reducible apply Only.step (updStaged_only ..); exact .of (by decide +kernel))
    | with_reducible apply_assumption -exfalso -symm
    | split
    | dsimp only

/-- What `putPair` may change. -/
theorem putPair_only (p : VatPair) (s : State) :
    Only [.mm] s (putPair p s) := by
  unfold putPair
  repeat' first
    | intro _
    | with_reducible assumption
    | with_reducible exact Only.refl _ _
    | with_reducible apply Only.ite
    | fail_if_no_progress (with_reducible apply Only.upd_mm; decide +kernel)
    | with_reducible apply_assumption -exfalso -symm
    | split
    | dsimp only

/-- What `takeVatPage` may change, seen from its result. -/
theorem takeVatPage_eq {pairs : List (Nat × Nat)} {s : State} {a t} (hEq : takeVatPage pairs s = some (a, t)) :
    Only [.mm] s t := by
  induction pairs with
  | nil => simp [takeVatPage] at hEq
  | cons b l ih =>
    unfold takeVatPage at hEq
    split at hEq
    · simp only [Option.some.injEq, Prod.mk.injEq] at hEq
      rw [← hEq.2]
      exact putPair_only ..
    · exact ih hEq

/-- What `takeVatPages` may change. -/
theorem takeVatPages_only (pairs : List (Nat × Nat)) (m : Nat) :
    ∀ (s : State),
    Only [.mm] s (takeVatPages pairs m s).2 := by
  induction m with
  | zero =>
    intros; unfold takeVatPages
    repeat' first
      | intro _
      | with_reducible assumption
      | with_reducible exact Only.refl _ _
      | with_reducible refine Only.step (takeVatPage_eq ‹_›) (.of (by decide +kernel)) ?_
      | with_reducible apply_assumption -exfalso -symm
      | split
      | dsimp only
  | succ m ih =>
    intros; unfold takeVatPages
    repeat' first
      | intro _
      | with_reducible assumption
      | with_reducible exact Only.refl _ _
      | with_reducible refine Only.step (takeVatPage_eq ‹_›) (.of (by decide +kernel)) ?_
      | with_reducible refine Only.trans ?_ (ih _)
      | with_reducible refine Only.trans ?_ (Only.of_eq2 ‹_› (ih _))
      | with_reducible apply_assumption -exfalso -symm
      | split
      | dsimp only

/-- What `vatProgrammed` may change. -/
theorem vatProgrammed_only (l : Nat × Nat × Nat × Nat) (s : State) :
    Only [.mx, .mm] s (vatProgrammed l s) := by
  unfold vatProgrammed
  repeat' first
    | intro _
    | with_reducible assumption
    | with_reducible exact Only.refl _ _
    | (extract_lets +onlyGivenNames x; refine Only.cut x ?_ (fun _ => ?_); unfold x; clear x; rotate_left; clear_value x)
    | (extract_lets +onlyGivenNames x; refine Only.cut2 x ?_ (fun _ => ?_); unfold x; clear x; rotate_left; clear_value x)
    | (extract_lets +onlyGivenNames x; refine Only.cutF x ?_ (fun _ => ?_); unfold x; clear x; rotate_left; clear_value x)
    | (extract_lets +onlyGivenNames x; refine Only.cutG x ?_ (fun _ => ?_); unfold x; clear x; rotate_left; clear_value x)
    | (extract_lets +onlyGivenNames x; refine Only.cutP x ?_ (fun _ => ?_); unfold x; clear x; rotate_left; clear_value x)
    | (extract_lets +onlyGivenNames x; refine Only.cutG2 x ?_ (fun _ => ?_); unfold x; clear x; rotate_left; clear_value x)
    | (extract_lets +onlyGivenNames x; refine Only.cutG3 x ?_ (fun _ => ?_); unfold x; clear x; rotate_left; clear_value x)
    | (extract_lets +onlyGivenNames x; refine Only.cutH x ?_ (fun _ => ?_); unfold x; clear x; rotate_left; clear_value x)
    | (extract_lets +onlyGivenNames x; clear_value x)
    | with_reducible apply Only.ite
    | (with_reducible apply Only.step (updBlk_only ..); exact .of (by decide +kernel))
    | with_reducible refine Only.foldl (fun _ _ _ => ?_) ?_
    | with_reducible refine Only.foldl2 (fun _ _ _ => ?_) ?_
    | with_reducible apply_assumption -exfalso -symm
    | split
    | dsimp only

/-- What `vatFlush` may change. -/
theorem vatFlush_only (rs : List Staged) (s : State) :
    Only [.mx, .mm, .bp, .nand] s (vatFlush rs s) := by
  unfold vatFlush
  repeat' first
    | intro _
    | with_reducible assumption
    | with_reducible exact Only.refl _ _
    | (extract_lets +onlyGivenNames x; refine Only.cut x ?_ (fun _ => ?_); unfold x; clear x; rotate_left; clear_value x)
    | (extract_lets +onlyGivenNames x; refine Only.cut2 x ?_ (fun _ => ?_); unfold x; clear x; rotate_left; clear_value x)
    | (extract_lets +onlyGivenNames x; refine Only.cut3 x ?_ (fun _ => ?_); unfold x; clear x; rotate_left; clear_value x)
    | (extract_lets +onlyGivenNames x; refine Only.cutF x ?_ (fun _ => ?_); unfold x; clear x; rotate_left; clear_value x)
    | (extract_lets +onlyGivenNames x; refine Only.cutG x ?_ (fun _ => ?_); unfold x; clear x; rotate_left; clear_value x)
    | (extract_lets +onlyGivenNames x; refine Only.cutP x ?_ (fun _ => ?_); unfold x; clear x; rotate_left; clear_value x)
    | (extract_lets +onlyGivenNames x; refine Only.cutG2 x ?_ (fun _ => ?_); unfold x; clear x; rotate_left; clear_value x)
    | (extract_lets +onlyGivenNames x; refine Only.cutG3 x ?_ (fun _ => ?_); unfold x; clear x; rotate_left; clear_value x)
    | (extract_lets +onlyGivenNames x; refine Only.cutH x ?_ (fun _ => ?_); unfold x; clear x; rotate_left; clear_value x)
    | (extract_lets +onlyGivenNames x; clear_value x)
    | fail_if_no_progress (with_reducible apply Only.upd_nand; decide +kernel)
    | (with_reducible apply Only.step (takeVatPages_only ..); exact .of (by decide +kernel))
    | with_reducible refine Only.step (Only.of_eq2 ‹_› (takeVatPages_only ..)) (.of (by decide +kernel)) ?_
    | with_reducible refine Only.step (Only.of_eq3 ‹_› (takeVatPages_only ..)) (.of (by decide +kernel)) ?_
    | (with_reducible apply Only.step (vatProgrammed_only ..); exact .of (by decide +kernel))
    | (with_reducible apply Only.step (placeStaged_only ..); exact .of (by decide +kernel))
    | with_reducible refine Only.foldl (fun _ _ _ => ?_) ?_
    | with_reducible refine Only.foldl2 (fun _ _ _ => ?_) ?_
    | with_reducible apply_assumption -exfalso -symm
    | split
    | dsimp only

/-- What `mergeStaged` may change. -/
theorem mergeStaged_only (i : Nat) (s : State) :
    Only [.out, .he, .ctl, .sh, .lost, .fs, .mx, .mg, .reg Reg.QE_CQFULL.COUNT,
    .reg Reg.MG_LOGSTAT.DROPPED, .reg Reg.MG_ERR.LOGDROP] s (mergeStaged i s) := by
  unfold mergeStaged
  repeat' first
    | intro _
    | with_reducible assumption
    | with_reducible exact Only.refl _ _
    | (extract_lets +onlyGivenNames x; refine Only.cut x ?_ (fun _ => ?_); unfold x; clear x; rotate_left; clear_value x)
    | (extract_lets +onlyGivenNames x; refine Only.cut2 x ?_ (fun _ => ?_); unfold x; clear x; rotate_left; clear_value x)
    | (extract_lets +onlyGivenNames x; refine Only.cutF x ?_ (fun _ => ?_); unfold x; clear x; rotate_left; clear_value x)
    | (extract_lets +onlyGivenNames x; refine Only.cutG x ?_ (fun _ => ?_); unfold x; clear x; rotate_left; clear_value x)
    | (extract_lets +onlyGivenNames x; refine Only.cutP x ?_ (fun _ => ?_); unfold x; clear x; rotate_left; clear_value x)
    | (extract_lets +onlyGivenNames x; refine Only.cutG2 x ?_ (fun _ => ?_); unfold x; clear x; rotate_left; clear_value x)
    | (extract_lets +onlyGivenNames x; refine Only.cutG3 x ?_ (fun _ => ?_); unfold x; clear x; rotate_left; clear_value x)
    | (extract_lets +onlyGivenNames x; refine Only.cutH x ?_ (fun _ => ?_); unfold x; clear x; rotate_left; clear_value x)
    | (extract_lets +onlyGivenNames x; clear_value x)
    | (with_reducible apply Only.step (updStaged_only ..); exact .of (by decide +kernel))
    | (with_reducible apply Only.step (listLost_only ..); exact .of (by decide +kernel))
    | with_reducible refine Only.foldl (fun _ _ _ => ?_) ?_
    | with_reducible refine Only.foldl2 (fun _ _ _ => ?_) ?_
    | with_reducible apply_assumption -exfalso -symm
    | split
    | dsimp only

/-- What `poisonConsumed` may change. -/
theorem poisonConsumed_only (addr : Nat) (s : State) :
    Only [.me, .reg Reg.ME_POISON.CONSUMED, .reg Reg.ME_LASTHI.KIND,
    .reg Reg.ME_ERR.POISON] s (poisonConsumed addr s) := by
  unfold poisonConsumed
  repeat' first
    | intro _
    | with_reducible assumption
    | with_reducible exact Only.refl _ _
    | (extract_lets +onlyGivenNames x; refine Only.cut x ?_ (fun _ => ?_); unfold x; clear x; rotate_left; clear_value x)
    | (extract_lets +onlyGivenNames x; refine Only.cut2 x ?_ (fun _ => ?_); unfold x; clear x; rotate_left; clear_value x)
    | (extract_lets +onlyGivenNames x; clear_value x)
    | fail_if_no_progress (with_reducible apply Only.upd_me; decide +kernel)
    | (with_reducible apply Only.step (setF_only ..); exact .of (by decide +kernel))
    | (with_reducible apply Only.step (flagOn_only ..); exact .of (by decide +kernel))
    | (with_reducible apply Only.step (bump_only ..); exact .of (by decide +kernel))
    | with_reducible apply_assumption -exfalso -symm
    | split
    | dsimp only

/-- What `flushStaged` may change. -/
theorem flushStaged_only (s : State) :
    Only [.out, .he, .ctl, .sh, .defFaults, .lost, .fs, .mx, .mm, .bp, .me, .mg, .nand,
    .reg Reg.QE_CQFULL.COUNT, .reg Reg.ME_POISON.CONSUMED, .reg Reg.ME_LASTHI.KIND, .reg Reg.ME_ERR.POISON,
    .reg Reg.MG_LOGSTAT.DROPPED, .reg Reg.MG_ERR.LOGDROP] s (flushStaged s) := by
  unfold flushStaged
  repeat' first
    | intro _
    | with_reducible assumption
    | with_reducible exact Only.refl _ _
    | (extract_lets +onlyGivenNames x; refine Only.cut x ?_ (fun _ => ?_); unfold x; clear x; rotate_left; clear_value x)
    | (extract_lets +onlyGivenNames x; refine Only.cut2 x ?_ (fun _ => ?_); unfold x; clear x; rotate_left; clear_value x)
    | (extract_lets +onlyGivenNames x; refine Only.cutF x ?_ (fun _ => ?_); unfold x; clear x; rotate_left; clear_value x)
    | (extract_lets +onlyGivenNames x; refine Only.cutG x ?_ (fun _ => ?_); unfold x; clear x; rotate_left; clear_value x)
    | (extract_lets +onlyGivenNames x; refine Only.cutG2 x ?_ (fun _ => ?_); unfold x; clear x; rotate_left; clear_value x)
    | (extract_lets +onlyGivenNames x; refine Only.cutG3 x ?_ (fun _ => ?_); unfold x; clear x; rotate_left; clear_value x)
    | (extract_lets +onlyGivenNames x; refine Only.cutH x ?_ (fun _ => ?_); unfold x; clear x; rotate_left; clear_value x)
    | (extract_lets +onlyGivenNames x; clear_value x)
    | with_reducible apply Only.ite
    | (with_reducible apply Only.step (mergeStaged_only ..); exact .of (by decide +kernel))
    | (with_reducible apply Only.step (deferFault_only ..); exact .of (by decide +kernel))
    | (with_reducible apply Only.step (releaseStaged_only ..); exact .of (by decide +kernel))
    | (with_reducible apply Only.step (unhold_only ..); exact .of (by decide +kernel))
    | (with_reducible apply Only.step (markLost_only ..); exact .of (by decide +kernel))
    | (with_reducible apply Only.step (poisonConsumed_only ..); exact .of (by decide +kernel))
    | (with_reducible apply Only.step (vatFlush_only ..); exact .of (by decide +kernel))
    | with_reducible refine Only.foldl (fun _ _ _ => ?_) ?_
    | with_reducible refine Only.foldl2 (fun _ _ _ => ?_) ?_
    | with_reducible apply_assumption -exfalso -symm
    | split
    | dsimp only

/-- What `bookVatOn` may change. -/
theorem bookVatOn_only (pairs : List (Nat × Nat)) (rs : List Staged) (cmds : List Nat) (s : State) :
    Only [.mx,
    .mm] s (bookVatOn pairs rs cmds s) := by
  unfold bookVatOn
  repeat' first
    | intro _
    | with_reducible assumption
    | with_reducible exact Only.refl _ _
    | (extract_lets +onlyGivenNames x; refine Only.cut x ?_ (fun _ => ?_); unfold x; clear x; rotate_left; clear_value x)
    | (extract_lets +onlyGivenNames x; refine Only.cut2 x ?_ (fun _ => ?_); unfold x; clear x; rotate_left; clear_value x)
    | (extract_lets +onlyGivenNames x; refine Only.cut3 x ?_ (fun _ => ?_); unfold x; clear x; rotate_left; clear_value x)
    | (extract_lets +onlyGivenNames x; refine Only.cutF x ?_ (fun _ => ?_); unfold x; clear x; rotate_left; clear_value x)
    | (extract_lets +onlyGivenNames x; refine Only.cutG x ?_ (fun _ => ?_); unfold x; clear x; rotate_left; clear_value x)
    | (extract_lets +onlyGivenNames x; refine Only.cutP x ?_ (fun _ => ?_); unfold x; clear x; rotate_left; clear_value x)
    | (extract_lets +onlyGivenNames x; refine Only.cutG2 x ?_ (fun _ => ?_); unfold x; clear x; rotate_left; clear_value x)
    | (extract_lets +onlyGivenNames x; refine Only.cutG3 x ?_ (fun _ => ?_); unfold x; clear x; rotate_left; clear_value x)
    | (extract_lets +onlyGivenNames x; refine Only.cutH x ?_ (fun _ => ?_); unfold x; clear x; rotate_left; clear_value x)
    | (extract_lets +onlyGivenNames x; clear_value x)
    | with_reducible apply Only.ite
    | fail_if_no_progress (with_reducible apply Only.upd_mx_mm; decide +kernel; decide +kernel)
    | (with_reducible apply Only.step (takeVatPages_only ..); exact .of (by decide +kernel))
    | with_reducible refine Only.step (Only.of_eq2 ‹_› (takeVatPages_only ..)) (.of (by decide +kernel)) ?_
    | with_reducible refine Only.step (Only.of_eq3 ‹_› (takeVatPages_only ..)) (.of (by decide +kernel)) ?_
    | with_reducible apply_assumption -exfalso -symm
    | split
    | dsimp only

/-- What `bookVat` may change. -/
theorem bookVat_only (rs : List Staged) (cmds : List Nat) (s : State) :
    Only [.mx, .mm] s (bookVat rs cmds s) := by
  unfold bookVat
  repeat' first
    | intro _
    | with_reducible assumption
    | with_reducible exact Only.refl _ _
    | (with_reducible apply Only.step (bookVatOn_only ..); exact .of (by decide +kernel))
    | with_reducible apply_assumption -exfalso -symm
    | split
    | dsimp only

/-- What `takeSysPages` may change. -/
theorem takeSysPages_only (kind seq n : Nat) (s : State) :
    Only [.mx, .mm, .nand] s (takeSysPages kind seq n s) := by
  unfold takeSysPages
  repeat' first
    | intro _
    | with_reducible assumption
    | with_reducible exact Only.refl _ _
    | (extract_lets +onlyGivenNames x; refine Only.cut x ?_ (fun _ => ?_); unfold x; clear x; rotate_left; clear_value x)
    | (extract_lets +onlyGivenNames x; refine Only.cut2 x ?_ (fun _ => ?_); unfold x; clear x; rotate_left; clear_value x)
    | (extract_lets +onlyGivenNames x; refine Only.cut3 x ?_ (fun _ => ?_); unfold x; clear x; rotate_left; clear_value x)
    | (extract_lets +onlyGivenNames x; refine Only.cutF x ?_ (fun _ => ?_); unfold x; clear x; rotate_left; clear_value x)
    | (extract_lets +onlyGivenNames x; refine Only.cutG x ?_ (fun _ => ?_); unfold x; clear x; rotate_left; clear_value x)
    | (extract_lets +onlyGivenNames x; refine Only.cutP x ?_ (fun _ => ?_); unfold x; clear x; rotate_left; clear_value x)
    | (extract_lets +onlyGivenNames x; refine Only.cutG2 x ?_ (fun _ => ?_); unfold x; clear x; rotate_left; clear_value x)
    | (extract_lets +onlyGivenNames x; refine Only.cutG3 x ?_ (fun _ => ?_); unfold x; clear x; rotate_left; clear_value x)
    | (extract_lets +onlyGivenNames x; refine Only.cutH x ?_ (fun _ => ?_); unfold x; clear x; rotate_left; clear_value x)
    | (extract_lets +onlyGivenNames x; clear_value x)
    | fail_if_no_progress (with_reducible apply Only.upd_nand; decide +kernel)
    | (with_reducible apply Only.step (takeVatPages_only ..); exact .of (by decide +kernel))
    | with_reducible refine Only.step (Only.of_eq2 ‹_› (takeVatPages_only ..)) (.of (by decide +kernel)) ?_
    | with_reducible refine Only.step (Only.of_eq3 ‹_› (takeVatPages_only ..)) (.of (by decide +kernel)) ?_
    | (with_reducible apply Only.step (vatProgrammed_only ..); exact .of (by decide +kernel))
    | with_reducible refine Only.foldl (fun _ _ _ => ?_) ?_
    | with_reducible refine Only.foldl2 (fun _ _ _ => ?_) ?_
    | with_reducible apply_assumption -exfalso -symm
    | split
    | dsimp only

/-- What `anchorNow` may change. -/
theorem anchorNow_only (s : State) :
    Only [.nand] s (anchorNow s) := by
  unfold anchorNow
  repeat' first
    | intro _
    | with_reducible assumption
    | with_reducible exact Only.refl _ _
    | (extract_lets +onlyGivenNames x; refine Only.cut x ?_ (fun _ => ?_); unfold x; clear x; rotate_left; clear_value x)
    | (extract_lets +onlyGivenNames x; refine Only.cut2 x ?_ (fun _ => ?_); unfold x; clear x; rotate_left; clear_value x)
    | (extract_lets +onlyGivenNames x; refine Only.cutF x ?_ (fun _ => ?_); unfold x; clear x; rotate_left; clear_value x)
    | (extract_lets +onlyGivenNames x; refine Only.cutG x ?_ (fun _ => ?_); unfold x; clear x; rotate_left; clear_value x)
    | (extract_lets +onlyGivenNames x; refine Only.cutG2 x ?_ (fun _ => ?_); unfold x; clear x; rotate_left; clear_value x)
    | (extract_lets +onlyGivenNames x; refine Only.cutG3 x ?_ (fun _ => ?_); unfold x; clear x; rotate_left; clear_value x)
    | (extract_lets +onlyGivenNames x; refine Only.cutH x ?_ (fun _ => ?_); unfold x; clear x; rotate_left; clear_value x)
    | (extract_lets +onlyGivenNames x; clear_value x)
    | fail_if_no_progress (with_reducible apply Only.upd_nand; decide +kernel)
    | with_reducible apply_assumption -exfalso -symm
    | split
    | dsimp only

/-- What `segmentPages` may change. -/
theorem segmentPages_only (seq n : Nat) (s : State) :
    Only [.mx, .mm, .nand] s (segmentPages seq n s) := by
  unfold segmentPages
  repeat' first
    | intro _
    | with_reducible assumption
    | with_reducible exact Only.refl _ _
    | (extract_lets +onlyGivenNames x; refine Only.cut x ?_ (fun _ => ?_); unfold x; clear x; rotate_left; clear_value x)
    | (extract_lets +onlyGivenNames x; refine Only.cut2 x ?_ (fun _ => ?_); unfold x; clear x; rotate_left; clear_value x)
    | (extract_lets +onlyGivenNames x; clear_value x)
    | with_reducible apply Only.ite
    | (with_reducible apply Only.step (takeSysPages_only ..); exact .of (by decide +kernel))
    | (with_reducible apply Only.step (anchorNow_only ..); exact .of (by decide +kernel))
    | with_reducible apply_assumption -exfalso -symm
    | split
    | dsimp only

/-- What `rewriteSysPages` may change. -/
theorem rewriteSysPages_only (gone : SysPage → Bool) (s : State) :
    Only [.mx, .mm, .nand] s (rewriteSysPages gone s) := by
  unfold rewriteSysPages
  repeat' first
    | intro _
    | with_reducible assumption
    | with_reducible exact Only.refl _ _
    | (extract_lets +onlyGivenNames x; refine Only.cut x ?_ (fun _ => ?_); unfold x; clear x; rotate_left; clear_value x)
    | (extract_lets +onlyGivenNames x; refine Only.cut2 x ?_ (fun _ => ?_); unfold x; clear x; rotate_left; clear_value x)
    | (extract_lets +onlyGivenNames x; refine Only.cutF x ?_ (fun _ => ?_); unfold x; clear x; rotate_left; clear_value x)
    | (extract_lets +onlyGivenNames x; refine Only.cutG x ?_ (fun _ => ?_); unfold x; clear x; rotate_left; clear_value x)
    | (extract_lets +onlyGivenNames x; refine Only.cutG2 x ?_ (fun _ => ?_); unfold x; clear x; rotate_left; clear_value x)
    | (extract_lets +onlyGivenNames x; refine Only.cutG3 x ?_ (fun _ => ?_); unfold x; clear x; rotate_left; clear_value x)
    | (extract_lets +onlyGivenNames x; refine Only.cutH x ?_ (fun _ => ?_); unfold x; clear x; rotate_left; clear_value x)
    | (extract_lets +onlyGivenNames x; clear_value x)
    | with_reducible apply Only.ite
    | fail_if_no_progress (with_reducible apply Only.upd_nand; decide +kernel)
    | (with_reducible apply Only.step (anchorNow_only ..); exact .of (by decide +kernel))
    | (with_reducible apply Only.step (takeSysPages_only ..); exact .of (by decide +kernel))
    | with_reducible refine Only.foldl (fun _ _ _ => ?_) ?_
    | with_reducible refine Only.foldl2 (fun _ _ _ => ?_) ?_
    | with_reducible apply_assumption -exfalso -symm
    | split
    | dsimp only

/-- What `openDurable` may change. -/
theorem openDurable_only (rs : List JRec) (s : State) :
    Only [.mm] s (openDurable rs s) := by
  unfold openDurable
  repeat' first
    | intro _
    | with_reducible assumption
    | with_reducible exact Only.refl _ _
    | (extract_lets +onlyGivenNames x; refine Only.cut x ?_ (fun _ => ?_); unfold x; clear x; rotate_left; clear_value x)
    | (extract_lets +onlyGivenNames x; refine Only.cut2 x ?_ (fun _ => ?_); unfold x; clear x; rotate_left; clear_value x)
    | (extract_lets +onlyGivenNames x; refine Only.cutF x ?_ (fun _ => ?_); unfold x; clear x; rotate_left; clear_value x)
    | (extract_lets +onlyGivenNames x; refine Only.cutG x ?_ (fun _ => ?_); unfold x; clear x; rotate_left; clear_value x)
    | (extract_lets +onlyGivenNames x; refine Only.cutG2 x ?_ (fun _ => ?_); unfold x; clear x; rotate_left; clear_value x)
    | (extract_lets +onlyGivenNames x; refine Only.cutG3 x ?_ (fun _ => ?_); unfold x; clear x; rotate_left; clear_value x)
    | (extract_lets +onlyGivenNames x; refine Only.cutH x ?_ (fun _ => ?_); unfold x; clear x; rotate_left; clear_value x)
    | (extract_lets +onlyGivenNames x; clear_value x)
    | with_reducible apply Only.ite
    | fail_if_no_progress (with_reducible apply Only.upd_mm; decide +kernel)
    | with_reducible apply_assumption -exfalso -symm
    | split
    | dsimp only

/-- What `journalNow` may change. -/
theorem journalNow_only (s : State) :
    Only [.mx, .mm, .nand] s (journalNow s) := by
  unfold journalNow
  repeat' first
    | intro _
    | with_reducible assumption
    | with_reducible exact Only.refl _ _
    | (extract_lets +onlyGivenNames x; refine Only.cut x ?_ (fun _ => ?_); unfold x; clear x; rotate_left; clear_value x)
    | (extract_lets +onlyGivenNames x; refine Only.cut2 x ?_ (fun _ => ?_); unfold x; clear x; rotate_left; clear_value x)
    | (extract_lets +onlyGivenNames x; refine Only.cutF x ?_ (fun _ => ?_); unfold x; clear x; rotate_left; clear_value x)
    | (extract_lets +onlyGivenNames x; refine Only.cutG x ?_ (fun _ => ?_); unfold x; clear x; rotate_left; clear_value x)
    | (extract_lets +onlyGivenNames x; refine Only.cutG2 x ?_ (fun _ => ?_); unfold x; clear x; rotate_left; clear_value x)
    | (extract_lets +onlyGivenNames x; refine Only.cutG3 x ?_ (fun _ => ?_); unfold x; clear x; rotate_left; clear_value x)
    | (extract_lets +onlyGivenNames x; refine Only.cutH x ?_ (fun _ => ?_); unfold x; clear x; rotate_left; clear_value x)
    | (extract_lets +onlyGivenNames x; clear_value x)
    | with_reducible apply Only.ite
    | fail_if_no_progress (with_reducible apply Only.upd_mx_nand; decide +kernel; decide +kernel)
    | (with_reducible apply Only.step (segmentPages_only ..); exact .of (by decide +kernel))
    | (with_reducible apply Only.step (openDurable_only ..); exact .of (by decide +kernel))
    | with_reducible refine Only.foldl (fun _ _ _ => ?_) ?_
    | with_reducible refine Only.foldl2 (fun _ _ _ => ?_) ?_
    | with_reducible apply_assumption -exfalso -symm
    | split
    | dsimp only

/-- What `rootDurable` may change. -/
theorem rootDurable_only (r : Root) (s : State) :
    Only [.mx, .mm, .nand, .reg Reg.MX_CKPT.SWEEPS] s (rootDurable r s) := by
  unfold rootDurable
  repeat' first
    | intro _
    | with_reducible assumption
    | with_reducible exact Only.refl _ _
    | (extract_lets +onlyGivenNames x; refine Only.cut x ?_ (fun _ => ?_); unfold x; clear x; rotate_left; clear_value x)
    | (extract_lets +onlyGivenNames x; refine Only.cut2 x ?_ (fun _ => ?_); unfold x; clear x; rotate_left; clear_value x)
    | (extract_lets +onlyGivenNames x; refine Only.cutF x ?_ (fun _ => ?_); unfold x; clear x; rotate_left; clear_value x)
    | (extract_lets +onlyGivenNames x; refine Only.cutG x ?_ (fun _ => ?_); unfold x; clear x; rotate_left; clear_value x)
    | (extract_lets +onlyGivenNames x; refine Only.cutG2 x ?_ (fun _ => ?_); unfold x; clear x; rotate_left; clear_value x)
    | (extract_lets +onlyGivenNames x; refine Only.cutG3 x ?_ (fun _ => ?_); unfold x; clear x; rotate_left; clear_value x)
    | (extract_lets +onlyGivenNames x; refine Only.cutH x ?_ (fun _ => ?_); unfold x; clear x; rotate_left; clear_value x)
    | (extract_lets +onlyGivenNames x; clear_value x)
    | fail_if_no_progress (with_reducible apply Only.upd_nand; decide +kernel)
    | fail_if_no_progress (with_reducible apply Only.upd_mx; decide +kernel)
    | (with_reducible apply Only.step (setF_only ..); exact .of (by decide +kernel))
    | (with_reducible apply Only.step (takeSysPages_only ..); exact .of (by decide +kernel))
    | (with_reducible apply Only.step (anchorNow_only ..); exact .of (by decide +kernel))
    | with_reducible apply_assumption -exfalso -symm
    | split
    | dsimp only

/-- What `snapDurableNow` may change. -/
theorem snapDurableNow_only (n : Snap) (s : State) :
    Only [.mx, .mm, .sp, .nand] s (snapDurableNow n s) := by
  unfold snapDurableNow
  repeat' first
    | intro _
    | with_reducible assumption
    | with_reducible exact Only.refl _ _
    | fail_if_no_progress (with_reducible apply Only.upd_sp_nand; decide +kernel; decide +kernel)
    | (with_reducible apply Only.step (takeSysPages_only ..); exact .of (by decide +kernel))
    | with_reducible apply_assumption -exfalso -symm
    | split
    | dsimp only

/-- What `cleanStop` may change. -/
theorem cleanStop_only (s : State) :
    Only [.out, .gen, .he, .ctl, .sh, .defFaults, .lost, .fs, .mx, .mm, .sp, .bp, .me, .mg,
    .nand, .reg Reg.QE_CQFULL.COUNT, .reg Reg.MX_CKPT.SWEEPS, .reg Reg.ME_POISON.CONSUMED, .reg Reg.ME_LASTHI.KIND,
    .reg Reg.ME_ERR.POISON, .reg Reg.MG_LOGSTAT.DROPPED, .reg Reg.MG_ERR.LOGDROP] s (cleanStop s) := by
  unfold cleanStop
  repeat' first
    | intro _
    | with_reducible assumption
    | with_reducible exact Only.refl _ _
    | (extract_lets +onlyGivenNames x; refine Only.cut x ?_ (fun _ => ?_); unfold x; clear x; rotate_left; clear_value x)
    | (extract_lets +onlyGivenNames x; refine Only.cut2 x ?_ (fun _ => ?_); unfold x; clear x; rotate_left; clear_value x)
    | (extract_lets +onlyGivenNames x; clear_value x)
    | with_reducible apply Only.ite
    | fail_if_no_progress (with_reducible apply Only.upd_gen; decide +kernel)
    | fail_if_no_progress (with_reducible apply Only.upd_gen_mx; decide +kernel; decide +kernel)
    | (with_reducible apply Only.step (journalNow_only ..); exact .of (by decide +kernel))
    | (with_reducible apply Only.step (flushStaged_only ..); exact .of (by decide +kernel))
    | (with_reducible apply Only.step (snapDurableNow_only ..); exact .of (by decide +kernel))
    | (with_reducible apply Only.step (rootDurable_only ..); exact .of (by decide +kernel))
    | with_reducible apply_assumption -exfalso -symm
    | split
    | dsimp only

end Sys2Proof.Machine
end

