-- ==== Sys2Proof/Laws/FrameFabricOps.lean ====
section
/-! SUPPORT. What each operation of Machine/FabricOps.lean may change, as `Only` states it: one lemma an operation, which later proofs cite
instead of unfolding it. -/
namespace Sys2Proof.Machine
set_option Elab.async false
set_option linter.all false

/-- What `updLink` may change. -/
theorem updLink_only (k : Nat) (f : GLink → GLink) (s : State) :
    Only [.gf] s (updLink k f s) := by
  unfold updLink
  repeat' first
    | intro _
    | with_reducible assumption
    | with_reducible exact Only.refl _ _
    | fail_if_no_progress (with_reducible apply Only.upd_gf; decide +kernel)
    | with_reducible apply_assumption -exfalso -symm
    | split
    | dsimp only

/-- What `updTxStream` may change. -/
theorem updTxStream_only (vc dst : Nat) (f : TxStream → TxStream) (s : State) :
    Only [.gf] s (updTxStream vc dst f s) := by
  unfold updTxStream
  repeat' first
    | intro _
    | with_reducible assumption
    | with_reducible exact Only.refl _ _
    | (extract_lets +onlyGivenNames x; refine Only.cut x ?_ (fun _ => ?_); unfold x; clear x; rotate_left; clear_value x)
    | (extract_lets +onlyGivenNames x; refine Only.cut2 x ?_ (fun _ => ?_); unfold x; clear x; rotate_left; clear_value x)
    | (extract_lets +onlyGivenNames x; refine Only.cutF x ?_ (fun _ => ?_); unfold x; clear x; rotate_left; clear_value x)
    | (extract_lets +onlyGivenNames x; refine Only.cutG x ?_ (fun _ => ?_); unfold x; clear x; rotate_left; clear_value x)
    | (extract_lets +onlyGivenNames x; refine Only.cutG2 x ?_ (fun _ => ?_); unfold x; clear x; rotate_left; clear_value x)
    | (extract_lets +onlyGivenNames x; refine Only.cutG3 x ?_ (fun _ => ?_); unfold x; clear x; rotate_left; clear_value x)
    | (extract_lets +onlyGivenNames x; refine Only.cutH x ?_ (fun _ => ?_); unfold x; clear x; rotate_left; clear_value x)
    | (extract_lets +onlyGivenNames x; clear_value x)
    | with_reducible apply Only.ite
    | fail_if_no_progress (with_reducible apply Only.upd_gf; decide +kernel)
    | with_reducible apply_assumption -exfalso -symm
    | split
    | dsimp only

/-- What `winLog` may change. -/
theorem winLog_only (p : Port) (cause offset rid : Nat) (s : State) :
    Only [.reg Reg.HE_WINLOG.COUNT,
    .reg Reg.HE_WINLOG.CAUSE, .reg Reg.HE_WINLOG.PORT, .reg Reg.HE_WINLOGLO.OFFSET, .reg Reg.HE_WINLOGHI.OFFSET,
    .reg Reg.HE_WINLOGHI.RID] s (winLog p cause offset rid s) := by
  unfold winLog
  repeat' first
    | intro _
    | with_reducible assumption
    | with_reducible exact Only.refl _ _
    | (extract_lets +onlyGivenNames x; refine Only.cut x ?_ (fun _ => ?_); unfold x; clear x; rotate_left; clear_value x)
    | (extract_lets +onlyGivenNames x; refine Only.cut2 x ?_ (fun _ => ?_); unfold x; clear x; rotate_left; clear_value x)
    | (extract_lets +onlyGivenNames x; clear_value x)
    | with_reducible apply Only.ite
    | (with_reducible apply Only.step (setF_only ..); exact .of (by decide +kernel))
    | (with_reducible apply Only.step (bump_only ..); exact .of (by decide +kernel))
    | with_reducible apply_assumption -exfalso -symm
    | split
    | dsimp only

/-- What `windowFail` may change. -/
theorem windowFail_only (ftype dst cause : Nat) (info : List Nat) (s : State) :
    Only [.out, .he, .gf,
    .reg Reg.HE_WINLOG.COUNT, .reg Reg.HE_WINLOG.CAUSE, .reg Reg.HE_WINLOG.PORT, .reg Reg.HE_WINLOGLO.OFFSET,
    .reg Reg.HE_WINLOGHI.OFFSET, .reg Reg.HE_WINLOGHI.RID] s (windowFail ftype dst cause info s) := by
  unfold windowFail
  repeat' first
    | intro _
    | with_reducible assumption
    | with_reducible exact Only.refl _ _
    | with_reducible apply Only.ite
    | fail_if_no_progress (with_reducible apply Only.upd_gf; decide +kernel)
    | (with_reducible apply Only.step (caCpl_only ..); exact .of (by decide +kernel))
    | (with_reducible apply Only.step (winLog_only ..); exact .of (by decide +kernel))
    | (with_reducible apply Only.step (State.updPort_only ..); exact .of (by decide +kernel))
    | with_reducible apply_assumption -exfalso -symm
    | split
    | dsimp only

/-- What `frameFailed` may change. -/
theorem frameFailed_only (fr : TxFrame) (s : State) :
    Only [.out, .he, .bp, .gf, .reg Reg.HE_WINLOG.COUNT,
    .reg Reg.HE_WINLOG.CAUSE, .reg Reg.HE_WINLOG.PORT, .reg Reg.HE_WINLOGLO.OFFSET, .reg Reg.HE_WINLOGHI.OFFSET,
    .reg Reg.HE_WINLOGHI.RID, .reg Reg.GF_XFER.FAILED, .reg Reg.GF_ERR.XFERFAIL] s (frameFailed fr s) := by
  unfold frameFailed
  repeat' first
    | intro _
    | with_reducible assumption
    | with_reducible exact Only.refl _ _
    | (extract_lets +onlyGivenNames x; refine Only.cut x ?_ (fun _ => ?_); unfold x; clear x; rotate_left; clear_value x)
    | (extract_lets +onlyGivenNames x; refine Only.cut2 x ?_ (fun _ => ?_); unfold x; clear x; rotate_left; clear_value x)
    | (extract_lets +onlyGivenNames x; refine Only.cutF x ?_ (fun _ => ?_); unfold x; clear x; rotate_left; clear_value x)
    | (extract_lets +onlyGivenNames x; refine Only.cutG x ?_ (fun _ => ?_); unfold x; clear x; rotate_left; clear_value x)
    | (extract_lets +onlyGivenNames x; refine Only.cutG2 x ?_ (fun _ => ?_); unfold x; clear x; rotate_left; clear_value x)
    | (extract_lets +onlyGivenNames x; refine Only.cutG3 x ?_ (fun _ => ?_); unfold x; clear x; rotate_left; clear_value x)
    | (extract_lets +onlyGivenNames x; refine Only.cutH x ?_ (fun _ => ?_); unfold x; clear x; rotate_left; clear_value x)
    | (extract_lets +onlyGivenNames x; clear_value x)
    | fail_if_no_progress (with_reducible apply Only.upd_gf; decide +kernel)
    | (with_reducible apply Only.step (flagOn_only ..); exact .of (by decide +kernel))
    | (with_reducible apply Only.step (bump_only ..); exact .of (by decide +kernel))
    | (with_reducible apply Only.step (putBufs_only ..); exact .of (by decide +kernel))
    | (with_reducible apply Only.step (windowFail_only ..); exact .of (by decide +kernel))
    | (with_reducible apply Only.step (updTxStream_only ..); exact .of (by decide +kernel))
    | with_reducible apply_assumption -exfalso -symm
    | split
    | dsimp only

/-- What `fiGf` may change. -/
theorem fiGf_only (k vc n : Nat) (s : State) :
    Only [.mg, .fi, .reg Reg.MG_LOGSTAT.DROPPED, .reg Reg.MG_ERR.LOGDROP,
    .reg Reg.FI_CNT.INJECTED] s (fiGf k vc n s).2 := by
  unfold fiGf
  repeat' first
    | intro _
    | with_reducible assumption
    | with_reducible exact Only.refl _ _
    | (extract_lets +onlyGivenNames x; refine Only.cut x ?_ (fun _ => ?_); unfold x; clear x; rotate_left; clear_value x)
    | (extract_lets +onlyGivenNames x; refine Only.cut2 x ?_ (fun _ => ?_); unfold x; clear x; rotate_left; clear_value x)
    | (extract_lets +onlyGivenNames x; refine Only.cut3 x ?_ (fun _ => ?_); unfold x; clear x; rotate_left; clear_value x)
    | (extract_lets +onlyGivenNames x; clear_value x)
    | (with_reducible apply Only.step (fiHits_only ..); exact .of (by decide +kernel))
    | with_reducible refine Only.step (Only.of_eq2 ‹_› (fiHits_only ..)) (.of (by decide +kernel)) ?_
    | with_reducible refine Only.step (Only.of_eq3 ‹_› (fiHits_only ..)) (.of (by decide +kernel)) ?_
    | (with_reducible apply Only.step (fiInjected_only ..); exact .of (by decide +kernel))
    | with_reducible apply_assumption -exfalso -symm
    | split
    | dsimp only

/-- What `drainLink` may change. -/
theorem drainLink_only (k : Nat) (s : State) :
    Only [.gf] s (drainLink k s) := by
  unfold drainLink
  repeat' first
    | intro _
    | with_reducible assumption
    | with_reducible exact Only.refl _ _
    | (with_reducible apply Only.step (updLink_only ..); exact .of (by decide +kernel))
    | with_reducible refine Only.foldl (fun _ _ _ => ?_) ?_
    | with_reducible refine Only.foldl2 (fun _ _ _ => ?_) ?_
    | with_reducible apply_assumption -exfalso -symm
    | split
    | dsimp only

/-- What `sendFlits` may change. -/
theorem sendFlits_only (k vc n : Nat) (s : State) :
    Only [.gf, .mg, .fi, .reg Reg.MG_LOGSTAT.DROPPED,
    .reg Reg.MG_ERR.LOGDROP, .reg Reg.FI_CNT.INJECTED] s (sendFlits k vc n s) := by
  unfold sendFlits
  repeat' first
    | intro _
    | with_reducible assumption
    | with_reducible exact Only.refl _ _
    | (extract_lets +onlyGivenNames x; refine Only.cut x ?_ (fun _ => ?_); unfold x; clear x; rotate_left; clear_value x)
    | (extract_lets +onlyGivenNames x; refine Only.cut2 x ?_ (fun _ => ?_); unfold x; clear x; rotate_left; clear_value x)
    | (extract_lets +onlyGivenNames x; refine Only.cut3 x ?_ (fun _ => ?_); unfold x; clear x; rotate_left; clear_value x)
    | (extract_lets +onlyGivenNames x; refine Only.cutF x ?_ (fun _ => ?_); unfold x; clear x; rotate_left; clear_value x)
    | (extract_lets +onlyGivenNames x; refine Only.cutG x ?_ (fun _ => ?_); unfold x; clear x; rotate_left; clear_value x)
    | (extract_lets +onlyGivenNames x; refine Only.cutP x ?_ (fun _ => ?_); unfold x; clear x; rotate_left; clear_value x)
    | (extract_lets +onlyGivenNames x; refine Only.cutG2 x ?_ (fun _ => ?_); unfold x; clear x; rotate_left; clear_value x)
    | (extract_lets +onlyGivenNames x; refine Only.cutG3 x ?_ (fun _ => ?_); unfold x; clear x; rotate_left; clear_value x)
    | (extract_lets +onlyGivenNames x; refine Only.cutH x ?_ (fun _ => ?_); unfold x; clear x; rotate_left; clear_value x)
    | (extract_lets +onlyGivenNames x; clear_value x)
    | with_reducible apply Only.ite
    | (with_reducible apply Only.step (fiGf_only ..); exact .of (by decide +kernel))
    | with_reducible refine Only.step (Only.of_eq2 ‹_› (fiGf_only ..)) (.of (by decide +kernel)) ?_
    | with_reducible refine Only.step (Only.of_eq3 ‹_› (fiGf_only ..)) (.of (by decide +kernel)) ?_
    | (with_reducible apply Only.step (drainLink_only ..); exact .of (by decide +kernel))
    | (with_reducible apply Only.step (updLink_only ..); exact .of (by decide +kernel))
    | with_reducible apply_assumption -exfalso -symm
    | split
    | dsimp only

/-- What `sendAckFlit` may change. -/
theorem sendAckFlit_only (vc src : Nat) (s : State) :
    Only [.gf] s (sendAckFlit vc src s) := by
  unfold sendAckFlit
  repeat' first
    | intro _
    | with_reducible assumption
    | with_reducible exact Only.refl _ _
    | (with_reducible apply Only.step (drainLink_only ..); exact .of (by decide +kernel))
    | (with_reducible apply Only.step (updLink_only ..); exact .of (by decide +kernel))
    | with_reducible apply_assumption -exfalso -symm
    | split
    | dsimp only

/-- What `frameOut` may change. -/
theorem frameOut_only (vc dst ftype x k : Nat) (s : State) :
    Only [.out, .gf, .mg, .fi, .reg Reg.MG_LOGSTAT.DROPPED,
    .reg Reg.MG_ERR.LOGDROP, .reg Reg.FI_CNT.INJECTED] s (frameOut vc dst ftype x k s) := by
  unfold frameOut
  repeat' first
    | intro _
    | with_reducible assumption
    | with_reducible exact Only.refl _ _
    | (extract_lets +onlyGivenNames x; refine Only.cut x ?_ (fun _ => ?_); unfold x; clear x; rotate_left; clear_value x)
    | (extract_lets +onlyGivenNames x; refine Only.cut2 x ?_ (fun _ => ?_); unfold x; clear x; rotate_left; clear_value x)
    | (extract_lets +onlyGivenNames x; refine Only.cut3 x ?_ (fun _ => ?_); unfold x; clear x; rotate_left; clear_value x)
    | (extract_lets +onlyGivenNames x; refine Only.cutF x ?_ (fun _ => ?_); unfold x; clear x; rotate_left; clear_value x)
    | (extract_lets +onlyGivenNames x; refine Only.cutG x ?_ (fun _ => ?_); unfold x; clear x; rotate_left; clear_value x)
    | (extract_lets +onlyGivenNames x; refine Only.cutP x ?_ (fun _ => ?_); unfold x; clear x; rotate_left; clear_value x)
    | (extract_lets +onlyGivenNames x; refine Only.cutG2 x ?_ (fun _ => ?_); unfold x; clear x; rotate_left; clear_value x)
    | (extract_lets +onlyGivenNames x; refine Only.cutG3 x ?_ (fun _ => ?_); unfold x; clear x; rotate_left; clear_value x)
    | (extract_lets +onlyGivenNames x; refine Only.cutH x ?_ (fun _ => ?_); unfold x; clear x; rotate_left; clear_value x)
    | (extract_lets +onlyGivenNames x; clear_value x)
    | with_reducible apply Only.ite
    | fail_if_no_progress (with_reducible apply Only.upd_gf; decide +kernel)
    | (with_reducible apply Only.step (fiGf_only ..); exact .of (by decide +kernel))
    | with_reducible refine Only.step (Only.of_eq2 ‹_› (fiGf_only ..)) (.of (by decide +kernel)) ?_
    | with_reducible refine Only.step (Only.of_eq3 ‹_› (fiGf_only ..)) (.of (by decide +kernel)) ?_
    | (with_reducible apply Only.step (emits_only ..); exact .of (by decide +kernel))
    | (with_reducible apply Only.step (emit_only ..); exact .of (by decide +kernel))
    | with_reducible apply_assumption -exfalso -symm
    | split
    | dsimp only

/-- What `sendVia` may change. -/
theorem sendVia_only (via : Option Nat) (vc dst ftype tag : Nat) (info : List Nat) (s : State) :
    Only [.out, .he, .bp, .gf,
    .mg, .fi, .reg Reg.HE_WINLOG.COUNT, .reg Reg.HE_WINLOG.CAUSE, .reg Reg.HE_WINLOG.PORT, .reg Reg.HE_WINLOGLO.OFFSET,
    .reg Reg.HE_WINLOGHI.OFFSET, .reg Reg.HE_WINLOGHI.RID, .reg Reg.BP_ERRBUF.INDEX, .reg Reg.BP_ERRBUF.OWNER,
    .reg Reg.BP_ERRBUF.CAUSE, .reg Reg.BP_ERR.REVOKE, .reg Reg.GF_XFER.FAILED, .reg Reg.GF_ERR.XFERFAIL,
    .reg Reg.MG_LOGSTAT.DROPPED, .reg Reg.MG_ERR.LOGDROP,
    .reg Reg.FI_CNT.INJECTED] s (sendVia via vc dst ftype tag info s) := by
  unfold sendVia
  repeat' first
    | intro _
    | with_reducible assumption
    | with_reducible exact Only.refl _ _
    | (extract_lets +onlyGivenNames x; refine Only.cut x ?_ (fun _ => ?_); unfold x; clear x; rotate_left; clear_value x)
    | (extract_lets +onlyGivenNames x; refine Only.cut2 x ?_ (fun _ => ?_); unfold x; clear x; rotate_left; clear_value x)
    | (extract_lets +onlyGivenNames x; refine Only.cut3 x ?_ (fun _ => ?_); unfold x; clear x; rotate_left; clear_value x)
    | (extract_lets +onlyGivenNames x; refine Only.cutF x ?_ (fun _ => ?_); unfold x; clear x; rotate_left; clear_value x)
    | (extract_lets +onlyGivenNames x; refine Only.cutG x ?_ (fun _ => ?_); unfold x; clear x; rotate_left; clear_value x)
    | (extract_lets +onlyGivenNames x; refine Only.cutP x ?_ (fun _ => ?_); unfold x; clear x; rotate_left; clear_value x)
    | (extract_lets +onlyGivenNames x; refine Only.cutG2 x ?_ (fun _ => ?_); unfold x; clear x; rotate_left; clear_value x)
    | (extract_lets +onlyGivenNames x; refine Only.cutG3 x ?_ (fun _ => ?_); unfold x; clear x; rotate_left; clear_value x)
    | (extract_lets +onlyGivenNames x; refine Only.cutH x ?_ (fun _ => ?_); unfold x; clear x; rotate_left; clear_value x)
    | (extract_lets +onlyGivenNames x; clear_value x)
    | with_reducible apply Only.ite
    | fail_if_no_progress (with_reducible apply Only.upd_gf; decide +kernel)
    | (with_reducible apply Only.step (flagOn_only ..); exact .of (by decide +kernel))
    | (with_reducible apply Only.step (bump_only ..); exact .of (by decide +kernel))
    | (with_reducible apply Only.step (windowFail_only ..); exact .of (by decide +kernel))
    | (with_reducible apply Only.step (bpAlloc_only ..); exact .of (by decide +kernel))
    | with_reducible refine Only.step (Only.of_eq2 ‹_› (bpAlloc_only ..)) (.of (by decide +kernel)) ?_
    | with_reducible refine Only.step (Only.of_eq3 ‹_› (bpAlloc_only ..)) (.of (by decide +kernel)) ?_
    | (with_reducible apply Only.step (updTxStream_only ..); exact .of (by decide +kernel))
    | (with_reducible apply Only.step (frameOut_only ..); exact .of (by decide +kernel))
    | (with_reducible apply Only.step (sendFlits_only ..); exact .of (by decide +kernel))
    | with_reducible apply_assumption -exfalso -symm
    | split
    | dsimp only

/-- What `rawSend` may change. -/
theorem rawSend_only (vc dst ftype tag : Nat) (info : List Nat) (s : State) :
    Only [.out, .he, .bp, .gf, .mg, .fi,
    .reg Reg.HE_WINLOG.COUNT, .reg Reg.HE_WINLOG.CAUSE, .reg Reg.HE_WINLOG.PORT, .reg Reg.HE_WINLOGLO.OFFSET,
    .reg Reg.HE_WINLOGHI.OFFSET, .reg Reg.HE_WINLOGHI.RID, .reg Reg.BP_ERRBUF.INDEX, .reg Reg.BP_ERRBUF.OWNER,
    .reg Reg.BP_ERRBUF.CAUSE, .reg Reg.BP_ERR.REVOKE, .reg Reg.GF_XFER.FAILED, .reg Reg.GF_ERR.XFERFAIL,
    .reg Reg.MG_LOGSTAT.DROPPED, .reg Reg.MG_ERR.LOGDROP, .reg Reg.FI_CNT.INJECTED] s (rawSend vc dst ftype tag info s) := by
  unfold rawSend
  repeat' first
    | intro _
    | with_reducible assumption
    | with_reducible exact Only.refl _ _
    | (with_reducible apply Only.step (sendVia_only ..); exact .of (by decide +kernel))
    | with_reducible apply_assumption -exfalso -symm
    | split
    | dsimp only

/-- What `payResync` may change. -/
theorem payResync_only (vc dst : Nat) (s : State) :
    Only [.out, .he, .bp, .gf, .mg, .fi, .reg Reg.HE_WINLOG.COUNT,
    .reg Reg.HE_WINLOG.CAUSE, .reg Reg.HE_WINLOG.PORT, .reg Reg.HE_WINLOGLO.OFFSET, .reg Reg.HE_WINLOGHI.OFFSET,
    .reg Reg.HE_WINLOGHI.RID, .reg Reg.BP_ERRBUF.INDEX, .reg Reg.BP_ERRBUF.OWNER, .reg Reg.BP_ERRBUF.CAUSE,
    .reg Reg.BP_ERR.REVOKE, .reg Reg.GF_XFER.FAILED, .reg Reg.GF_ERR.XFERFAIL, .reg Reg.MG_LOGSTAT.DROPPED,
    .reg Reg.MG_ERR.LOGDROP, .reg Reg.FI_CNT.INJECTED] s (payResync vc dst s) := by
  unfold payResync
  repeat' first
    | intro _
    | with_reducible assumption
    | with_reducible exact Only.refl _ _
    | with_reducible apply Only.ite
    | (with_reducible apply Only.step (rawSend_only ..); exact .of (by decide +kernel))
    | (with_reducible apply Only.step (updTxStream_only ..); exact .of (by decide +kernel))
    | with_reducible apply_assumption -exfalso -symm
    | split
    | dsimp only

/-- What `sendFrame` may change. -/
theorem sendFrame_only (vc dst ftype tag : Nat) (info : List Nat) (s : State) :
    Only [.out, .he, .bp, .gf, .mg, .fi,
    .reg Reg.HE_WINLOG.COUNT, .reg Reg.HE_WINLOG.CAUSE, .reg Reg.HE_WINLOG.PORT, .reg Reg.HE_WINLOGLO.OFFSET,
    .reg Reg.HE_WINLOGHI.OFFSET, .reg Reg.HE_WINLOGHI.RID, .reg Reg.BP_ERRBUF.INDEX, .reg Reg.BP_ERRBUF.OWNER,
    .reg Reg.BP_ERRBUF.CAUSE, .reg Reg.BP_ERR.REVOKE, .reg Reg.GF_XFER.FAILED, .reg Reg.GF_ERR.XFERFAIL,
    .reg Reg.MG_LOGSTAT.DROPPED, .reg Reg.MG_ERR.LOGDROP, .reg Reg.FI_CNT.INJECTED] s (sendFrame vc dst ftype tag info s) := by
  unfold sendFrame
  repeat' first
    | intro _
    | with_reducible assumption
    | with_reducible exact Only.refl _ _
    | (with_reducible apply Only.step (rawSend_only ..); exact .of (by decide +kernel))
    | (with_reducible apply Only.step (payResync_only ..); exact .of (by decide +kernel))
    | with_reducible apply_assumption -exfalso -symm
    | split
    | dsimp only

/-- What `sendCtrl` may change. -/
theorem sendCtrl_only (dst msg : Nat) (fields : List Nat) (s : State) :
    Only [.out, .he, .bp, .gf, .mg, .fi,
    .reg Reg.HE_WINLOG.COUNT, .reg Reg.HE_WINLOG.CAUSE, .reg Reg.HE_WINLOG.PORT, .reg Reg.HE_WINLOGLO.OFFSET,
    .reg Reg.HE_WINLOGHI.OFFSET, .reg Reg.HE_WINLOGHI.RID, .reg Reg.BP_ERRBUF.INDEX, .reg Reg.BP_ERRBUF.OWNER,
    .reg Reg.BP_ERRBUF.CAUSE, .reg Reg.BP_ERR.REVOKE, .reg Reg.GF_XFER.FAILED, .reg Reg.GF_ERR.XFERFAIL,
    .reg Reg.MG_LOGSTAT.DROPPED, .reg Reg.MG_ERR.LOGDROP, .reg Reg.FI_CNT.INJECTED] s (sendCtrl dst msg fields s) := by
  unfold sendCtrl
  repeat' first
    | intro _
    | with_reducible assumption
    | with_reducible exact Only.refl _ _
    | (with_reducible apply Only.step (sendFrame_only ..); exact .of (by decide +kernel))
    | (with_reducible apply Only.step (emit_only ..); exact .of (by decide +kernel))
    | with_reducible apply_assumption -exfalso -symm
    | split
    | dsimp only

/-- What `mirror` may change. -/
theorem mirror_only (kind : Nat) (fields : List Nat) (s : State) :
    Only [.out, .he, .bp, .gf, .mg, .fi,
    .reg Reg.HE_WINLOG.COUNT, .reg Reg.HE_WINLOG.CAUSE, .reg Reg.HE_WINLOG.PORT, .reg Reg.HE_WINLOGLO.OFFSET,
    .reg Reg.HE_WINLOGHI.OFFSET, .reg Reg.HE_WINLOGHI.RID, .reg Reg.BP_ERRBUF.INDEX, .reg Reg.BP_ERRBUF.OWNER,
    .reg Reg.BP_ERRBUF.CAUSE, .reg Reg.BP_ERR.REVOKE, .reg Reg.GF_XFER.FAILED, .reg Reg.GF_ERR.XFERFAIL,
    .reg Reg.MG_LOGSTAT.DROPPED, .reg Reg.MG_ERR.LOGDROP, .reg Reg.FI_CNT.INJECTED] s (mirror kind fields s) := by
  unfold mirror
  repeat' first
    | intro _
    | with_reducible assumption
    | with_reducible exact Only.refl _ _
    | with_reducible apply Only.ite
    | (with_reducible apply Only.step (sendFrame_only ..); exact .of (by decide +kernel))
    | (with_reducible apply Only.step (emit_only ..); exact .of (by decide +kernel))
    | with_reducible apply_assumption -exfalso -symm
    | split
    | dsimp only

/-- What `resendFrame` may change. -/
theorem resendFrame_only (fr : TxFrame) (s : State) :
    Only [.out, .he, .bp, .gf, .mg, .fi, .reg Reg.HE_WINLOG.COUNT,
    .reg Reg.HE_WINLOG.CAUSE, .reg Reg.HE_WINLOG.PORT, .reg Reg.HE_WINLOGLO.OFFSET, .reg Reg.HE_WINLOGHI.OFFSET,
    .reg Reg.HE_WINLOGHI.RID, .reg Reg.BP_ERRBUF.INDEX, .reg Reg.BP_ERRBUF.OWNER, .reg Reg.BP_ERRBUF.CAUSE,
    .reg Reg.BP_ERR.REVOKE, .reg Reg.GF_XFER.RESENT, .reg Reg.GF_XFER.FAILED, .reg Reg.GF_ERR.XFERFAIL,
    .reg Reg.MG_LOGSTAT.DROPPED, .reg Reg.MG_ERR.LOGDROP, .reg Reg.FI_CNT.INJECTED] s (resendFrame fr s) := by
  unfold resendFrame
  repeat' first
    | intro _
    | with_reducible assumption
    | with_reducible exact Only.refl _ _
    | (extract_lets +onlyGivenNames x; refine Only.cut x ?_ (fun _ => ?_); unfold x; clear x; rotate_left; clear_value x)
    | (extract_lets +onlyGivenNames x; refine Only.cut2 x ?_ (fun _ => ?_); unfold x; clear x; rotate_left; clear_value x)
    | (extract_lets +onlyGivenNames x; refine Only.cutF x ?_ (fun _ => ?_); unfold x; clear x; rotate_left; clear_value x)
    | (extract_lets +onlyGivenNames x; refine Only.cutG x ?_ (fun _ => ?_); unfold x; clear x; rotate_left; clear_value x)
    | (extract_lets +onlyGivenNames x; refine Only.cutG2 x ?_ (fun _ => ?_); unfold x; clear x; rotate_left; clear_value x)
    | (extract_lets +onlyGivenNames x; refine Only.cutG3 x ?_ (fun _ => ?_); unfold x; clear x; rotate_left; clear_value x)
    | (extract_lets +onlyGivenNames x; refine Only.cutH x ?_ (fun _ => ?_); unfold x; clear x; rotate_left; clear_value x)
    | (extract_lets +onlyGivenNames x; clear_value x)
    | with_reducible apply Only.ite
    | fail_if_no_progress (with_reducible apply Only.upd_gf; decide +kernel)
    | (with_reducible apply Only.step (bump_only ..); exact .of (by decide +kernel))
    | (with_reducible apply Only.step (frameFailed_only ..); exact .of (by decide +kernel))
    | (with_reducible apply Only.step (payResync_only ..); exact .of (by decide +kernel))
    | (with_reducible apply Only.step (frameOut_only ..); exact .of (by decide +kernel))
    | (with_reducible apply Only.step (sendFlits_only ..); exact .of (by decide +kernel))
    | with_reducible apply_assumption -exfalso -symm
    | split
    | dsimp only

/-- What `sendLsr` may change. -/
theorem sendLsr_only (s : State) :
    Only [.out, .he, .bp, .gf, .mg, .fi, .reg Reg.HE_WINLOG.COUNT, .reg Reg.HE_WINLOG.CAUSE,
    .reg Reg.HE_WINLOG.PORT, .reg Reg.HE_WINLOGLO.OFFSET, .reg Reg.HE_WINLOGHI.OFFSET, .reg Reg.HE_WINLOGHI.RID,
    .reg Reg.BP_ERRBUF.INDEX, .reg Reg.BP_ERRBUF.OWNER, .reg Reg.BP_ERRBUF.CAUSE, .reg Reg.BP_ERR.REVOKE,
    .reg Reg.GF_XFER.FAILED, .reg Reg.GF_ERR.XFERFAIL, .reg Reg.MG_LOGSTAT.DROPPED, .reg Reg.MG_ERR.LOGDROP,
    .reg Reg.FI_CNT.INJECTED] s (sendLsr s) := by
  unfold sendLsr
  repeat' first
    | intro _
    | with_reducible assumption
    | with_reducible exact Only.refl _ _
    | with_reducible apply Only.ite
    | (with_reducible apply Only.step (sendFrame_only ..); exact .of (by decide +kernel))
    | (with_reducible apply Only.step (emit_only ..); exact .of (by decide +kernel))
    | with_reducible apply_assumption -exfalso -symm
    | split
    | dsimp only

/-- What `failRoutes` may change. -/
theorem failRoutes_only (s : State) :
    Only [.out, .he, .gf] s (failRoutes s) := by
  unfold failRoutes
  repeat' first
    | intro _
    | with_reducible assumption
    | with_reducible exact Only.refl _ _
    | (extract_lets +onlyGivenNames x; refine Only.cut x ?_ (fun _ => ?_); unfold x; clear x; rotate_left; clear_value x)
    | (extract_lets +onlyGivenNames x; refine Only.cut2 x ?_ (fun _ => ?_); unfold x; clear x; rotate_left; clear_value x)
    | (extract_lets +onlyGivenNames x; refine Only.cutF x ?_ (fun _ => ?_); unfold x; clear x; rotate_left; clear_value x)
    | (extract_lets +onlyGivenNames x; refine Only.cutG x ?_ (fun _ => ?_); unfold x; clear x; rotate_left; clear_value x)
    | (extract_lets +onlyGivenNames x; refine Only.cutP x ?_ (fun _ => ?_); unfold x; clear x; rotate_left; clear_value x)
    | (extract_lets +onlyGivenNames x; refine Only.cutG2 x ?_ (fun _ => ?_); unfold x; clear x; rotate_left; clear_value x)
    | (extract_lets +onlyGivenNames x; refine Only.cutG3 x ?_ (fun _ => ?_); unfold x; clear x; rotate_left; clear_value x)
    | (extract_lets +onlyGivenNames x; refine Only.cutH x ?_ (fun _ => ?_); unfold x; clear x; rotate_left; clear_value x)
    | (extract_lets +onlyGivenNames x; clear_value x)
    | fail_if_no_progress (with_reducible apply Only.upd_gf; decide +kernel)
    | (with_reducible apply Only.step (caCpl_only ..); exact .of (by decide +kernel))
    | with_reducible refine Only.foldl (fun _ _ _ => ?_) ?_
    | with_reducible refine Only.foldl2 (fun _ _ _ => ?_) ?_
    | with_reducible apply_assumption -exfalso -symm
    | split
    | dsimp only

/-- What `linkDown` may change. -/
theorem linkDown_only (k : Nat) (s : State) :
    Only [.out, .he, .ctl, .fs, .bp, .gf, .mg, .fi, .reg Reg.HE_WINLOG.COUNT,
    .reg Reg.HE_WINLOG.CAUSE, .reg Reg.HE_WINLOG.PORT, .reg Reg.HE_WINLOGLO.OFFSET, .reg Reg.HE_WINLOGHI.OFFSET,
    .reg Reg.HE_WINLOGHI.RID, .reg Reg.QE_CQFULL.COUNT, .reg Reg.BP_ERRBUF.INDEX, .reg Reg.BP_ERRBUF.OWNER,
    .reg Reg.BP_ERRBUF.CAUSE, .reg Reg.BP_ERR.REVOKE, .reg Reg.GF_XFER.RESENT, .reg Reg.GF_XFER.FAILED,
    .reg Reg.GF_ERR.LINKDOWN, .reg Reg.GF_ERR.XFERFAIL, .reg Reg.MG_LOGSTAT.DROPPED, .reg Reg.MG_ERR.LOGDROP,
    .reg Reg.FI_CNT.INJECTED] s (linkDown k s) := by
  unfold linkDown
  repeat' first
    | intro _
    | with_reducible assumption
    | with_reducible exact Only.refl _ _
    | (extract_lets +onlyGivenNames x; refine Only.cut x ?_ (fun _ => ?_); unfold x; clear x; rotate_left; clear_value x)
    | (extract_lets +onlyGivenNames x; refine Only.cut2 x ?_ (fun _ => ?_); unfold x; clear x; rotate_left; clear_value x)
    | (extract_lets +onlyGivenNames x; refine Only.cutF x ?_ (fun _ => ?_); unfold x; clear x; rotate_left; clear_value x)
    | (extract_lets +onlyGivenNames x; refine Only.cutG x ?_ (fun _ => ?_); unfold x; clear x; rotate_left; clear_value x)
    | (extract_lets +onlyGivenNames x; refine Only.cutP x ?_ (fun _ => ?_); unfold x; clear x; rotate_left; clear_value x)
    | (extract_lets +onlyGivenNames x; refine Only.cutG2 x ?_ (fun _ => ?_); unfold x; clear x; rotate_left; clear_value x)
    | (extract_lets +onlyGivenNames x; refine Only.cutG3 x ?_ (fun _ => ?_); unfold x; clear x; rotate_left; clear_value x)
    | (extract_lets +onlyGivenNames x; refine Only.cutH x ?_ (fun _ => ?_); unfold x; clear x; rotate_left; clear_value x)
    | (extract_lets +onlyGivenNames x; clear_value x)
    | with_reducible apply Only.ite
    | fail_if_no_progress (with_reducible apply Only.upd_gf; decide +kernel)
    | (with_reducible apply Only.step (flagOn_only ..); exact .of (by decide +kernel))
    | (with_reducible apply Only.step (updLink_only ..); exact .of (by decide +kernel))
    | (with_reducible apply Only.step (resendFrame_only ..); exact .of (by decide +kernel))
    | (with_reducible apply Only.step (failRoutes_only ..); exact .of (by decide +kernel))
    | (with_reducible apply Only.step (evFabric_only ..); exact .of (by decide +kernel))
    | (with_reducible apply Only.step (sendLsr_only ..); exact .of (by decide +kernel))
    | with_reducible refine Only.foldl (fun _ _ _ => ?_) ?_
    | with_reducible refine Only.foldl2 (fun _ _ _ => ?_) ?_
    | with_reducible apply_assumption -exfalso -symm
    | split
    | dsimp only

/-- What `allLinksDown` may change. -/
theorem allLinksDown_only (s : State) :
    Only [.out, .he, .ctl, .fs, .bp, .gf, .mg, .fi, .reg Reg.HE_WINLOG.COUNT,
    .reg Reg.HE_WINLOG.CAUSE, .reg Reg.HE_WINLOG.PORT, .reg Reg.HE_WINLOGLO.OFFSET, .reg Reg.HE_WINLOGHI.OFFSET,
    .reg Reg.HE_WINLOGHI.RID, .reg Reg.QE_CQFULL.COUNT, .reg Reg.BP_ERRBUF.INDEX, .reg Reg.BP_ERRBUF.OWNER,
    .reg Reg.BP_ERRBUF.CAUSE, .reg Reg.BP_ERR.REVOKE, .reg Reg.GF_XFER.RESENT, .reg Reg.GF_XFER.FAILED,
    .reg Reg.GF_ERR.LINKDOWN, .reg Reg.GF_ERR.XFERFAIL, .reg Reg.MG_LOGSTAT.DROPPED, .reg Reg.MG_ERR.LOGDROP,
    .reg Reg.FI_CNT.INJECTED] s (allLinksDown s) := by
  unfold allLinksDown
  repeat' first
    | intro _
    | with_reducible assumption
    | with_reducible exact Only.refl _ _
    | (with_reducible apply Only.step (linkDown_only ..); exact .of (by decide +kernel))
    | with_reducible refine Only.foldl (fun _ _ _ => ?_) ?_
    | with_reducible refine Only.foldl2 (fun _ _ _ => ?_) ?_
    | with_reducible apply_assumption -exfalso -symm
    | split
    | dsimp only

/-- What `sendTables` may change. -/
theorem sendTables_only (num at_ dst : Nat) (s : State) :
    Only [.out, .he, .bp, .gf, .mg, .fi, .reg Reg.HE_WINLOG.COUNT,
    .reg Reg.HE_WINLOG.CAUSE, .reg Reg.HE_WINLOG.PORT, .reg Reg.HE_WINLOGLO.OFFSET, .reg Reg.HE_WINLOGHI.OFFSET,
    .reg Reg.HE_WINLOGHI.RID, .reg Reg.BP_ERRBUF.INDEX, .reg Reg.BP_ERRBUF.OWNER, .reg Reg.BP_ERRBUF.CAUSE,
    .reg Reg.BP_ERR.REVOKE, .reg Reg.GF_XFER.FAILED, .reg Reg.GF_ERR.XFERFAIL, .reg Reg.MG_LOGSTAT.DROPPED,
    .reg Reg.MG_ERR.LOGDROP, .reg Reg.FI_CNT.INJECTED] s (sendTables num at_ dst s) := by
  unfold sendTables
  repeat' first
    | intro _
    | with_reducible assumption
    | with_reducible exact Only.refl _ _
    | (extract_lets +onlyGivenNames x; refine Only.cut x ?_ (fun _ => ?_); unfold x; clear x; rotate_left; clear_value x)
    | (extract_lets +onlyGivenNames x; refine Only.cut2 x ?_ (fun _ => ?_); unfold x; clear x; rotate_left; clear_value x)
    | (extract_lets +onlyGivenNames x; refine Only.cutF x ?_ (fun _ => ?_); unfold x; clear x; rotate_left; clear_value x)
    | (extract_lets +onlyGivenNames x; refine Only.cutG x ?_ (fun _ => ?_); unfold x; clear x; rotate_left; clear_value x)
    | (extract_lets +onlyGivenNames x; refine Only.cutG2 x ?_ (fun _ => ?_); unfold x; clear x; rotate_left; clear_value x)
    | (extract_lets +onlyGivenNames x; refine Only.cutG3 x ?_ (fun _ => ?_); unfold x; clear x; rotate_left; clear_value x)
    | (extract_lets +onlyGivenNames x; refine Only.cutH x ?_ (fun _ => ?_); unfold x; clear x; rotate_left; clear_value x)
    | (extract_lets +onlyGivenNames x; clear_value x)
    | (with_reducible apply Only.step (sendFrame_only ..); exact .of (by decide +kernel))
    | (with_reducible apply Only.step (emit_only ..); exact .of (by decide +kernel))
    | with_reducible refine Only.foldl (fun _ _ _ => ?_) ?_
    | with_reducible refine Only.foldl2 (fun _ _ _ => ?_) ?_
    | with_reducible apply_assumption -exfalso -symm
    | split
    | dsimp only

/-- What `distribute` may change. -/
theorem distribute_only (s : State) :
    Only [.out, .he, .ctl, .fs, .bp, .gf, .mg, .fi, .reg Reg.HE_WINLOG.COUNT,
    .reg Reg.HE_WINLOG.CAUSE, .reg Reg.HE_WINLOG.PORT, .reg Reg.HE_WINLOGLO.OFFSET, .reg Reg.HE_WINLOGHI.OFFSET,
    .reg Reg.HE_WINLOGHI.RID, .reg Reg.QE_CQFULL.COUNT, .reg Reg.BP_ERRBUF.INDEX, .reg Reg.BP_ERRBUF.OWNER,
    .reg Reg.BP_ERRBUF.CAUSE, .reg Reg.BP_ERR.REVOKE, .reg Reg.GF_XFER.FAILED, .reg Reg.GF_ERR.XFERFAIL,
    .reg Reg.GF_ERR.HELDOUT, .reg Reg.MG_LOGSTAT.DROPPED, .reg Reg.MG_ERR.LOGDROP,
    .reg Reg.FI_CNT.INJECTED] s (distribute s) := by
  unfold distribute
  repeat' first
    | intro _
    | with_reducible assumption
    | with_reducible exact Only.refl _ _
    | (extract_lets +onlyGivenNames x; refine Only.cut x ?_ (fun _ => ?_); unfold x; clear x; rotate_left; clear_value x)
    | (extract_lets +onlyGivenNames x; refine Only.cut2 x ?_ (fun _ => ?_); unfold x; clear x; rotate_left; clear_value x)
    | (extract_lets +onlyGivenNames x; refine Only.cutF x ?_ (fun _ => ?_); unfold x; clear x; rotate_left; clear_value x)
    | (extract_lets +onlyGivenNames x; refine Only.cutG x ?_ (fun _ => ?_); unfold x; clear x; rotate_left; clear_value x)
    | (extract_lets +onlyGivenNames x; refine Only.cutP x ?_ (fun _ => ?_); unfold x; clear x; rotate_left; clear_value x)
    | (extract_lets +onlyGivenNames x; refine Only.cutG2 x ?_ (fun _ => ?_); unfold x; clear x; rotate_left; clear_value x)
    | (extract_lets +onlyGivenNames x; refine Only.cutG3 x ?_ (fun _ => ?_); unfold x; clear x; rotate_left; clear_value x)
    | (extract_lets +onlyGivenNames x; refine Only.cutH x ?_ (fun _ => ?_); unfold x; clear x; rotate_left; clear_value x)
    | (extract_lets +onlyGivenNames x; clear_value x)
    | with_reducible apply Only.ite
    | fail_if_no_progress (with_reducible apply Only.upd_gf; decide +kernel)
    | (with_reducible apply Only.step (flagOn_only ..); exact .of (by decide +kernel))
    | (with_reducible apply Only.step (evFabric_only ..); exact .of (by decide +kernel))
    | (with_reducible apply Only.step (sendTables_only ..); exact .of (by decide +kernel))
    | with_reducible refine Only.foldl (fun _ _ _ => ?_) ?_
    | with_reducible refine Only.foldl2 (fun _ _ _ => ?_) ?_
    | with_reducible apply_assumption -exfalso -symm
    | split
    | dsimp only

/-- What `topologyChanged` may change. -/
theorem topologyChanged_only (s : State) :
    Only [.out, .he, .ctl, .fs, .bp, .gf, .mg, .fi, .reg Reg.HE_WINLOG.COUNT,
    .reg Reg.HE_WINLOG.CAUSE, .reg Reg.HE_WINLOG.PORT, .reg Reg.HE_WINLOGLO.OFFSET, .reg Reg.HE_WINLOGHI.OFFSET,
    .reg Reg.HE_WINLOGHI.RID, .reg Reg.QE_CQFULL.COUNT, .reg Reg.BP_ERRBUF.INDEX, .reg Reg.BP_ERRBUF.OWNER,
    .reg Reg.BP_ERRBUF.CAUSE, .reg Reg.BP_ERR.REVOKE, .reg Reg.GF_XFER.FAILED, .reg Reg.GF_ERR.XFERFAIL,
    .reg Reg.GF_ERR.HELDOUT, .reg Reg.MG_LOGSTAT.DROPPED, .reg Reg.MG_ERR.LOGDROP,
    .reg Reg.FI_CNT.INJECTED] s (topologyChanged s) := by
  unfold topologyChanged
  repeat' first
    | intro _
    | with_reducible assumption
    | with_reducible exact Only.refl _ _
    | with_reducible apply Only.ite
    | (with_reducible apply Only.step (distribute_only ..); exact .of (by decide +kernel))
    | (with_reducible apply Only.step (sendLsr_only ..); exact .of (by decide +kernel))
    | with_reducible apply_assumption -exfalso -symm
    | split
    | dsimp only

/-- What `ps4Links` may change. -/
theorem ps4Links_only (s : State) :
    Only [.out, .he, .ctl, .fs, .bp, .gf, .mg, .fi, .reg Reg.HE_WINLOG.COUNT,
    .reg Reg.HE_WINLOG.CAUSE, .reg Reg.HE_WINLOG.PORT, .reg Reg.HE_WINLOGLO.OFFSET, .reg Reg.HE_WINLOGHI.OFFSET,
    .reg Reg.HE_WINLOGHI.RID, .reg Reg.QE_CQFULL.COUNT, .reg Reg.BP_ERRBUF.INDEX, .reg Reg.BP_ERRBUF.OWNER,
    .reg Reg.BP_ERRBUF.CAUSE, .reg Reg.BP_ERR.REVOKE, .reg Reg.GF_XFER.RESENT, .reg Reg.GF_XFER.FAILED,
    .reg Reg.GF_ERR.LINKDOWN, .reg Reg.GF_ERR.XFERFAIL, .reg Reg.GF_ERR.HELDOUT, .reg Reg.MG_LOGSTAT.DROPPED,
    .reg Reg.MG_ERR.LOGDROP, .reg Reg.FI_CNT.INJECTED] s (ps4Links s) := by
  unfold ps4Links
  repeat' first
    | intro _
    | with_reducible assumption
    | with_reducible exact Only.refl _ _
    | (extract_lets +onlyGivenNames x; refine Only.cut x ?_ (fun _ => ?_); unfold x; clear x; rotate_left; clear_value x)
    | (extract_lets +onlyGivenNames x; refine Only.cut2 x ?_ (fun _ => ?_); unfold x; clear x; rotate_left; clear_value x)
    | (extract_lets +onlyGivenNames x; refine Only.cutF x ?_ (fun _ => ?_); unfold x; clear x; rotate_left; clear_value x)
    | (extract_lets +onlyGivenNames x; refine Only.cutG x ?_ (fun _ => ?_); unfold x; clear x; rotate_left; clear_value x)
    | (extract_lets +onlyGivenNames x; refine Only.cutG2 x ?_ (fun _ => ?_); unfold x; clear x; rotate_left; clear_value x)
    | (extract_lets +onlyGivenNames x; refine Only.cutG3 x ?_ (fun _ => ?_); unfold x; clear x; rotate_left; clear_value x)
    | (extract_lets +onlyGivenNames x; refine Only.cutH x ?_ (fun _ => ?_); unfold x; clear x; rotate_left; clear_value x)
    | (extract_lets +onlyGivenNames x; clear_value x)
    | with_reducible apply Only.ite
    | (with_reducible apply Only.step (linkDown_only ..); exact .of (by decide +kernel))
    | (with_reducible apply Only.step (distribute_only ..); exact .of (by decide +kernel))
    | with_reducible refine Only.foldl (fun _ _ _ => ?_) ?_
    | with_reducible refine Only.foldl2 (fun _ _ _ => ?_) ?_
    | with_reducible apply_assumption -exfalso -symm
    | split
    | dsimp only

end Sys2Proof.Machine
end

