-- ==== Sys2Proof/Laws/FrameMemOps.lean ====
section
/-! SUPPORT. What each operation of Machine/MemOps.lean may change, as `Only` states it: one lemma an operation, which later proofs cite
instead of unfolding it. -/
namespace Sys2Proof.Machine
set_option Elab.async false
set_option linter.all false

/-- What `mergeDone` may change. -/
theorem mergeDone_only (line : Nat) (s : State) :
    Only [.me] s (mergeDone line s) := by
  unfold mergeDone
  repeat' first
    | intro _
    | with_reducible assumption
    | with_reducible exact Only.refl _ _
    | with_reducible apply Only.ite
    | fail_if_no_progress (with_reducible apply Only.upd_me; decide +kernel)
    | with_reducible apply_assumption -exfalso -symm
    | split
    | dsimp only

/-- What `mergesDone` may change. -/
theorem mergesDone_only (ls : List Nat) (s : State) :
    Only [.me] s (mergesDone ls s) := by
  unfold mergesDone
  repeat' first
    | intro _
    | with_reducible assumption
    | with_reducible exact Only.refl _ _
    | (with_reducible apply Only.step (mergeDone_only ..); exact .of (by decide +kernel))
    | with_reducible refine Only.foldl (fun _ _ _ => ?_) ?_
    | with_reducible refine Only.foldl2 (fun _ _ _ => ?_) ?_
    | with_reducible apply_assumption -exfalso -symm
    | split
    | dsimp only

/-- What `mergeIn` may change. -/
theorem mergeIn_only (port line mask : Nat) (ep : Bool) (s : State) :
    Only [.me,
    .reg Reg.ME_MERGE.EVICT] s (mergeIn port line mask ep s) := by
  unfold mergeIn
  repeat' first
    | intro _
    | with_reducible assumption
    | with_reducible exact Only.refl _ _
    | (extract_lets +onlyGivenNames x; refine Only.cut x ?_ (fun _ => ?_); unfold x; clear x; rotate_left; clear_value x)
    | (extract_lets +onlyGivenNames x; refine Only.cut2 x ?_ (fun _ => ?_); unfold x; clear x; rotate_left; clear_value x)
    | (extract_lets +onlyGivenNames x; refine Only.cutF x ?_ (fun _ => ?_); unfold x; clear x; rotate_left; clear_value x)
    | (extract_lets +onlyGivenNames x; refine Only.cutG x ?_ (fun _ => ?_); unfold x; clear x; rotate_left; clear_value x)
    | (extract_lets +onlyGivenNames x; refine Only.cutG2 x ?_ (fun _ => ?_); unfold x; clear x; rotate_left; clear_value x)
    | (extract_lets +onlyGivenNames x; refine Only.cutG3 x ?_ (fun _ => ?_); unfold x; clear x; rotate_left; clear_value x)
    | (extract_lets +onlyGivenNames x; refine Only.cutH x ?_ (fun _ => ?_); unfold x; clear x; rotate_left; clear_value x)
    | (extract_lets +onlyGivenNames x; clear_value x)
    | with_reducible apply Only.ite
    | fail_if_no_progress (with_reducible apply Only.upd_me; decide +kernel)
    | (with_reducible apply Only.step (bump_only ..); exact .of (by decide +kernel))
    | (with_reducible apply Only.step (mergeDone_only ..); exact .of (by decide +kernel))
    | with_reducible apply_assumption -exfalso -symm
    | split
    | dsimp only

/-- What `lineWrite` may change. -/
theorem lineWrite_only (port key line mask : Nat) (ep : Bool) (pl : List Nat) (s : State) :
    Only [.me,
    .reg Reg.ME_MERGE.EVICT] s (lineWrite port key line mask ep pl s).2 := by
  unfold lineWrite
  repeat' first
    | intro _
    | with_reducible assumption
    | with_reducible exact Only.refl _ _
    | (extract_lets +onlyGivenNames x; refine Only.cut x ?_ (fun _ => ?_); unfold x; clear x; rotate_left; clear_value x)
    | (extract_lets +onlyGivenNames x; refine Only.cut2 x ?_ (fun _ => ?_); unfold x; clear x; rotate_left; clear_value x)
    | (extract_lets +onlyGivenNames x; refine Only.cutF x ?_ (fun _ => ?_); unfold x; clear x; rotate_left; clear_value x)
    | (extract_lets +onlyGivenNames x; refine Only.cutG x ?_ (fun _ => ?_); unfold x; clear x; rotate_left; clear_value x)
    | (extract_lets +onlyGivenNames x; refine Only.cutP x ?_ (fun _ => ?_); unfold x; clear x; rotate_left; clear_value x)
    | (extract_lets +onlyGivenNames x; refine Only.cutG2 x ?_ (fun _ => ?_); unfold x; clear x; rotate_left; clear_value x)
    | (extract_lets +onlyGivenNames x; refine Only.cutG3 x ?_ (fun _ => ?_); unfold x; clear x; rotate_left; clear_value x)
    | (extract_lets +onlyGivenNames x; refine Only.cutH x ?_ (fun _ => ?_); unfold x; clear x; rotate_left; clear_value x)
    | (extract_lets +onlyGivenNames x; clear_value x)
    | with_reducible apply Only.ite
    | (with_reducible apply Only.step (mergeDone_only ..); exact .of (by decide +kernel))
    | (with_reducible apply Only.step (mergeIn_only ..); exact .of (by decide +kernel))
    | with_reducible apply_assumption -exfalso -symm
    | split
    | dsimp only

/-- What `linesWrite` may change. -/
theorem linesWrite_only (port : Nat) (key : Nat → Nat) (off n : Nat) (ep : Nat → Bool) (pl : List Nat) (s : State) :
    Only [.me,
    .reg Reg.ME_MERGE.EVICT] s (linesWrite port key off n ep pl s).2 := by
  unfold linesWrite
  repeat' first
    | intro _
    | with_reducible assumption
    | with_reducible exact Only.refl _ _
    | (with_reducible apply Only.step (lineWrite_only ..); exact .of (by decide +kernel))
    | with_reducible refine Only.step (Only.of_eq2 ‹_› (lineWrite_only ..)) (.of (by decide +kernel)) ?_
    | with_reducible refine Only.step (Only.of_eq3 ‹_› (lineWrite_only ..)) (.of (by decide +kernel)) ?_
    | with_reducible refine Only.foldl (fun _ _ _ => ?_) ?_
    | with_reducible refine Only.foldl2 (fun _ _ _ => ?_) ?_
    | with_reducible apply_assumption -exfalso -symm
    | split
    | dsimp only

/-- What `expWrite` may change. -/
theorem expWrite_only (meport off : Nat) (data : List Byte) (ep : Nat → Bool) (s : State) :
    Only [.me,
    .reg Reg.ME_MERGE.EVICT] s (expWrite meport off data ep s) := by
  unfold expWrite
  repeat' first
    | intro _
    | with_reducible assumption
    | with_reducible exact Only.refl _ _
    | (extract_lets +onlyGivenNames x; refine Only.cut x ?_ (fun _ => ?_); unfold x; clear x; rotate_left; clear_value x)
    | (extract_lets +onlyGivenNames x; refine Only.cut2 x ?_ (fun _ => ?_); unfold x; clear x; rotate_left; clear_value x)
    | (extract_lets +onlyGivenNames x; refine Only.cut3 x ?_ (fun _ => ?_); unfold x; clear x; rotate_left; clear_value x)
    | (extract_lets +onlyGivenNames x; clear_value x)
    | fail_if_no_progress (with_reducible apply Only.upd_me; decide +kernel)
    | (with_reducible apply Only.step (linesWrite_only ..); exact .of (by decide +kernel))
    | with_reducible refine Only.step (Only.of_eq2 ‹_› (linesWrite_only ..)) (.of (by decide +kernel)) ?_
    | with_reducible refine Only.step (Only.of_eq3 ‹_› (linesWrite_only ..)) (.of (by decide +kernel)) ?_
    | with_reducible apply_assumption -exfalso -symm
    | split
    | dsimp only

/-- What `expReadPrep` may change. -/
theorem expReadPrep_only (off n : Nat) (s : State) :
    Only [.me] s (expReadPrep off n s) := by
  unfold expReadPrep
  repeat' first
    | intro _
    | with_reducible assumption
    | with_reducible exact Only.refl _ _
    | (with_reducible apply Only.step (mergesDone_only ..); exact .of (by decide +kernel))
    | with_reducible apply_assumption -exfalso -symm
    | split
    | dsimp only

end Sys2Proof.Machine
end

