-- ==== Sys2Proof/Laws/FrameWinOps.lean ====
section
/-! SUPPORT. What each operation of Machine/WinOps.lean may change, as `Only` states it: one lemma an operation, which later proofs cite
instead of unfolding it. -/
namespace Sys2Proof.Machine
set_option Elab.async false
set_option linter.all false

/-- What `localRead` may change. -/
theorem localRead_only (p : Port) (t : HeldTlp) (s : State) :
    Only [.out, .he, .me, .reg Reg.HE_EPCNT.A_COUNT,
    .reg Reg.HE_EPCNT.B_COUNT, .reg Reg.ME_POISON.CONSUMED, .reg Reg.ME_LASTHI.KIND,
    .reg Reg.ME_ERR.POISON] s (localRead p t s) := by
  unfold localRead
  repeat' first
    | intro _
    | with_reducible assumption
    | with_reducible exact Only.refl _ _
    | (extract_lets +onlyGivenNames x; refine Only.cut x ?_ (fun _ => ?_); unfold x; clear x; rotate_left; clear_value x)
    | (extract_lets +onlyGivenNames x; refine Only.cut2 x ?_ (fun _ => ?_); unfold x; clear x; rotate_left; clear_value x)
    | (extract_lets +onlyGivenNames x; clear_value x)
    | with_reducible apply Only.ite
    | (with_reducible apply Only.step (bump_port ..); exact .of (by decide +kernel))
    | (with_reducible apply Only.step (bump_only ..); exact .of (by decide +kernel))
    | (with_reducible apply Only.step (caCpl_only ..); exact .of (by decide +kernel))
    | (with_reducible apply Only.step (expReadPrep_only ..); exact .of (by decide +kernel))
    | (with_reducible apply Only.step (poisonConsumed_only ..); exact .of (by decide +kernel))
    | (with_reducible apply Only.step (readCpl_only ..); exact .of (by decide +kernel))
    | with_reducible apply_assumption -exfalso -symm
    | split
    | dsimp only

/-- What `winGo` may change. -/
theorem winGo_only (p : Port) (t : HeldTlp) (s : State) :
    Only [.out, .he, .bp, .me, .gf, .mg, .fi,
    .reg Reg.HE_EPCNT.A_COUNT, .reg Reg.HE_EPCNT.B_COUNT, .reg Reg.HE_WINLOG.COUNT, .reg Reg.HE_WINLOG.CAUSE,
    .reg Reg.HE_WINLOG.PORT, .reg Reg.HE_WINLOGLO.OFFSET, .reg Reg.HE_WINLOGHI.OFFSET, .reg Reg.HE_WINLOGHI.RID,
    .reg Reg.BP_ERRBUF.INDEX, .reg Reg.BP_ERRBUF.OWNER, .reg Reg.BP_ERRBUF.CAUSE, .reg Reg.BP_ERR.REVOKE,
    .reg Reg.ME_POISON.CONSUMED, .reg Reg.ME_LASTHI.KIND, .reg Reg.ME_MERGE.EVICT, .reg Reg.ME_ERR.POISON,
    .reg Reg.GF_XFER.FAILED, .reg Reg.GF_ERR.XFERFAIL, .reg Reg.MG_LOGSTAT.DROPPED, .reg Reg.MG_ERR.LOGDROP,
    .reg Reg.FI_CNT.INJECTED] s (winGo p t s) := by
  unfold winGo
  repeat' first
    | intro _
    | with_reducible assumption
    | with_reducible exact Only.refl _ _
    | (extract_lets +onlyGivenNames x; refine Only.cut x ?_ (fun _ => ?_); unfold x; clear x; rotate_left; clear_value x)
    | (extract_lets +onlyGivenNames x; refine Only.cut2 x ?_ (fun _ => ?_); unfold x; clear x; rotate_left; clear_value x)
    | (extract_lets +onlyGivenNames x; refine Only.cutF x ?_ (fun _ => ?_); unfold x; clear x; rotate_left; clear_value x)
    | (extract_lets +onlyGivenNames x; refine Only.cutG x ?_ (fun _ => ?_); unfold x; clear x; rotate_left; clear_value x)
    | (extract_lets +onlyGivenNames x; refine Only.cutG2 x ?_ (fun _ => ?_); unfold x; clear x; rotate_left; clear_value x)
    | (extract_lets +onlyGivenNames x; refine Only.cutG3 x ?_ (fun _ => ?_); unfold x; clear x; rotate_left; clear_value x)
    | (extract_lets +onlyGivenNames x; refine Only.cutH x ?_ (fun _ => ?_); unfold x; clear x; rotate_left; clear_value x)
    | (extract_lets +onlyGivenNames x; clear_value x)
    | with_reducible apply Only.ite
    | fail_if_no_progress (with_reducible apply Only.upd_gf; decide +kernel)
    | (with_reducible apply Only.step (localRead_only ..); exact .of (by decide +kernel))
    | (with_reducible apply Only.step (winLog_only ..); exact .of (by decide +kernel))
    | (with_reducible apply Only.step (expWrite_only ..); exact .of (by decide +kernel))
    | (with_reducible apply Only.step (State.updPort_only ..); exact .of (by decide +kernel))
    | (with_reducible apply Only.step (caCpl_only ..); exact .of (by decide +kernel))
    | (with_reducible apply Only.step (sendFrame_only ..); exact .of (by decide +kernel))
    | (with_reducible apply Only.step (emit_only ..); exact .of (by decide +kernel))
    | with_reducible apply_assumption -exfalso -symm
    | split
    | dsimp only

/-- What `winSubmit` may change. -/
theorem winSubmit_only (p : Port) (t : HeldTlp) (s : State) :
    Only [.out, .he, .bp, .me, .gf, .mg, .fi,
    .reg Reg.HE_EPCNT.A_COUNT, .reg Reg.HE_EPCNT.B_COUNT, .reg Reg.HE_WINLOG.COUNT, .reg Reg.HE_WINLOG.CAUSE,
    .reg Reg.HE_WINLOG.PORT, .reg Reg.HE_WINLOGLO.OFFSET, .reg Reg.HE_WINLOGHI.OFFSET, .reg Reg.HE_WINLOGHI.RID,
    .reg Reg.BP_ERRBUF.INDEX, .reg Reg.BP_ERRBUF.OWNER, .reg Reg.BP_ERRBUF.CAUSE, .reg Reg.BP_ERR.REVOKE,
    .reg Reg.ME_POISON.CONSUMED, .reg Reg.ME_LASTHI.KIND, .reg Reg.ME_MERGE.EVICT, .reg Reg.ME_ERR.POISON,
    .reg Reg.GF_XFER.FAILED, .reg Reg.GF_ERR.XFERFAIL, .reg Reg.MG_LOGSTAT.DROPPED, .reg Reg.MG_ERR.LOGDROP,
    .reg Reg.FI_CNT.INJECTED] s (winSubmit p t s) := by
  unfold winSubmit
  repeat' first
    | intro _
    | with_reducible assumption
    | with_reducible exact Only.refl _ _
    | with_reducible apply Only.ite
    | (with_reducible apply Only.step (State.updPort_only ..); exact .of (by decide +kernel))
    | (with_reducible apply Only.step (winGo_only ..); exact .of (by decide +kernel))
    | with_reducible apply_assumption -exfalso -symm
    | split
    | dsimp only

/-- What `releaseHeld` may change. -/
theorem releaseHeld_only (p : Port) (s : State) :
    Only [.out, .he, .bp, .me, .gf, .mg, .fi, .reg Reg.HE_EPCNT.A_COUNT,
    .reg Reg.HE_EPCNT.B_COUNT, .reg Reg.HE_WINLOG.COUNT, .reg Reg.HE_WINLOG.CAUSE, .reg Reg.HE_WINLOG.PORT,
    .reg Reg.HE_WINLOGLO.OFFSET, .reg Reg.HE_WINLOGHI.OFFSET, .reg Reg.HE_WINLOGHI.RID, .reg Reg.BP_ERRBUF.INDEX,
    .reg Reg.BP_ERRBUF.OWNER, .reg Reg.BP_ERRBUF.CAUSE, .reg Reg.BP_ERR.REVOKE, .reg Reg.ME_POISON.CONSUMED,
    .reg Reg.ME_LASTHI.KIND, .reg Reg.ME_MERGE.EVICT, .reg Reg.ME_ERR.POISON, .reg Reg.GF_XFER.FAILED, .reg Reg.GF_ERR.XFERFAIL,
    .reg Reg.MG_LOGSTAT.DROPPED, .reg Reg.MG_ERR.LOGDROP, .reg Reg.FI_CNT.INJECTED] s (releaseHeld p s) := by
  unfold releaseHeld
  repeat' first
    | intro _
    | with_reducible assumption
    | with_reducible exact Only.refl _ _
    | (extract_lets +onlyGivenNames x; refine Only.cut x ?_ (fun _ => ?_); unfold x; clear x; rotate_left; clear_value x)
    | (extract_lets +onlyGivenNames x; refine Only.cut2 x ?_ (fun _ => ?_); unfold x; clear x; rotate_left; clear_value x)
    | (extract_lets +onlyGivenNames x; refine Only.cutF x ?_ (fun _ => ?_); unfold x; clear x; rotate_left; clear_value x)
    | (extract_lets +onlyGivenNames x; refine Only.cutG x ?_ (fun _ => ?_); unfold x; clear x; rotate_left; clear_value x)
    | (extract_lets +onlyGivenNames x; refine Only.cutG2 x ?_ (fun _ => ?_); unfold x; clear x; rotate_left; clear_value x)
    | (extract_lets +onlyGivenNames x; refine Only.cutG3 x ?_ (fun _ => ?_); unfold x; clear x; rotate_left; clear_value x)
    | (extract_lets +onlyGivenNames x; refine Only.cutH x ?_ (fun _ => ?_); unfold x; clear x; rotate_left; clear_value x)
    | (extract_lets +onlyGivenNames x; clear_value x)
    | (with_reducible apply Only.step (winSubmit_only ..); exact .of (by decide +kernel))
    | (with_reducible apply Only.step (State.updPort_only ..); exact .of (by decide +kernel))
    | with_reducible refine Only.foldl (fun _ _ _ => ?_) ?_
    | with_reducible refine Only.foldl2 (fun _ _ _ => ?_) ?_
    | with_reducible apply_assumption -exfalso -symm
    | split
    | dsimp only

/-- What `releaseAll` may change. -/
theorem releaseAll_only (s : State) :
    Only [.out, .he, .bp, .me, .gf, .mg, .fi, .reg Reg.HE_EPCNT.A_COUNT,
    .reg Reg.HE_EPCNT.B_COUNT, .reg Reg.HE_WINLOG.COUNT, .reg Reg.HE_WINLOG.CAUSE, .reg Reg.HE_WINLOG.PORT,
    .reg Reg.HE_WINLOGLO.OFFSET, .reg Reg.HE_WINLOGHI.OFFSET, .reg Reg.HE_WINLOGHI.RID, .reg Reg.BP_ERRBUF.INDEX,
    .reg Reg.BP_ERRBUF.OWNER, .reg Reg.BP_ERRBUF.CAUSE, .reg Reg.BP_ERR.REVOKE, .reg Reg.ME_POISON.CONSUMED,
    .reg Reg.ME_LASTHI.KIND, .reg Reg.ME_MERGE.EVICT, .reg Reg.ME_ERR.POISON, .reg Reg.GF_XFER.FAILED, .reg Reg.GF_ERR.XFERFAIL,
    .reg Reg.MG_LOGSTAT.DROPPED, .reg Reg.MG_ERR.LOGDROP, .reg Reg.FI_CNT.INJECTED] s (releaseAll s) := by
  unfold releaseAll
  repeat' first
    | intro _
    | with_reducible assumption
    | with_reducible exact Only.refl _ _
    | (with_reducible apply Only.step (releaseHeld_only ..); exact .of (by decide +kernel))
    | with_reducible apply_assumption -exfalso -symm
    | split
    | dsimp only

end Sys2Proof.Machine
end

