-- ==== Sys2Proof/Laws/FrameResetOps.lean ====
section
/-! SUPPORT. What each operation of Machine/ResetOps.lean may change, as `Only` states it: one lemma an operation, which later proofs cite
instead of unfolding it. -/
namespace Sys2Proof.Machine
set_option Elab.async false
set_option linter.all false

/-- What `fitSlots` may change. -/
theorem fitSlots_only (s : State) :
    Only [.bp, .dg, .reg Reg.BP_ERRBUF.INDEX, .reg Reg.BP_ERRBUF.OWNER,
    .reg Reg.BP_ERRBUF.CAUSE, .reg Reg.BP_ERR.REVOKE] s (fitSlots s) := by
  unfold fitSlots
  repeat' first
    | intro _
    | with_reducible assumption
    | with_reducible exact Only.refl _ _
    | (extract_lets +onlyGivenNames x; refine Only.cut x ?_ (fun _ => ?_); unfold x; clear x; rotate_left; clear_value x)
    | (extract_lets +onlyGivenNames x; refine Only.cut2 x ?_ (fun _ => ?_); unfold x; clear x; rotate_left; clear_value x)
    | (extract_lets +onlyGivenNames x; refine Only.cut3 x ?_ (fun _ => ?_); unfold x; clear x; rotate_left; clear_value x)
    | (extract_lets +onlyGivenNames x; refine Only.cutF x ?_ (fun _ => ?_); unfold x; clear x; rotate_left; clear_value x)
    | (extract_lets +onlyGivenNames x; refine Only.cutG x ?_ (fun _ => ?_); unfold x; clear x; rotate_left; clear_value x)
    | (extract_lets +onlyGivenNames x; refine Only.cutP x ?_ (fun _ => ?_); unfold x; clear x; rotate_left; clear_value x)
    | (extract_lets +onlyGivenNames x; refine Only.cutG2 x ?_ (fun _ => ?_); unfold x; clear x; rotate_left; clear_value x)
    | (extract_lets +onlyGivenNames x; refine Only.cutG3 x ?_ (fun _ => ?_); unfold x; clear x; rotate_left; clear_value x)
    | (extract_lets +onlyGivenNames x; refine Only.cutH x ?_ (fun _ => ?_); unfold x; clear x; rotate_left; clear_value x)
    | (extract_lets +onlyGivenNames x; clear_value x)
    | with_reducible apply Only.ite
    | fail_if_no_progress (with_reducible apply Only.upd_dg; decide +kernel)
    | (with_reducible apply Only.step (bpAlloc_only ..); exact .of (by decide +kernel))
    | with_reducible refine Only.step (Only.of_eq2 ‹_› (bpAlloc_only ..)) (.of (by decide +kernel)) ?_
    | with_reducible refine Only.step (Only.of_eq3 ‹_› (bpAlloc_only ..)) (.of (by decide +kernel)) ?_
    | (with_reducible apply Only.step (putBufs_only ..); exact .of (by decide +kernel))
    | with_reducible apply_assumption -exfalso -symm
    | split
    | dsimp only

/-- What `closeFixity` may change. -/
theorem closeFixity_only (dead : Nat → Bool) (s : State) :
    Only [.bp, .dg, .reg Reg.BP_ERRBUF.INDEX,
    .reg Reg.BP_ERRBUF.OWNER, .reg Reg.BP_ERRBUF.CAUSE, .reg Reg.BP_ERR.REVOKE] s (closeFixity dead s) := by
  unfold closeFixity
  repeat' first
    | intro _
    | with_reducible assumption
    | with_reducible exact Only.refl _ _
    | fail_if_no_progress (with_reducible apply Only.upd_dg; decide +kernel)
    | (with_reducible apply Only.step (fitSlots_only ..); exact .of (by decide +kernel))
    | with_reducible apply_assumption -exfalso -symm
    | split
    | dsimp only

/-- What `killCmds` may change. -/
theorem killCmds_only (dead : IoCmd → Bool) (s : State) :
    Only [.cmds, .fs, .mx, .mm, .bp, .tw, .dg,
    .reg Reg.BP_ERRBUF.INDEX, .reg Reg.BP_ERRBUF.OWNER, .reg Reg.BP_ERRBUF.CAUSE,
    .reg Reg.BP_ERR.REVOKE] s (killCmds dead s) := by
  unfold killCmds
  repeat' first
    | intro _
    | with_reducible assumption
    | with_reducible exact Only.refl _ _
    | (extract_lets +onlyGivenNames x; refine Only.cut x ?_ (fun _ => ?_); unfold x; clear x; rotate_left; clear_value x)
    | (extract_lets +onlyGivenNames x; refine Only.cut2 x ?_ (fun _ => ?_); unfold x; clear x; rotate_left; clear_value x)
    | (extract_lets +onlyGivenNames x; refine Only.cutF x ?_ (fun _ => ?_); unfold x; clear x; rotate_left; clear_value x)
    | (extract_lets +onlyGivenNames x; refine Only.cutG x ?_ (fun _ => ?_); unfold x; clear x; rotate_left; clear_value x)
    | (extract_lets +onlyGivenNames x; refine Only.cutG2 x ?_ (fun _ => ?_); unfold x; clear x; rotate_left; clear_value x)
    | (extract_lets +onlyGivenNames x; refine Only.cutG3 x ?_ (fun _ => ?_); unfold x; clear x; rotate_left; clear_value x)
    | (extract_lets +onlyGivenNames x; refine Only.cutH x ?_ (fun _ => ?_); unfold x; clear x; rotate_left; clear_value x)
    | (extract_lets +onlyGivenNames x; clear_value x)
    | fail_if_no_progress (with_reducible apply Only.upd_cmds_fs_mx_mm_tw; decide +kernel; decide +kernel; decide +kernel; decide +kernel; decide +kernel)
    | fail_if_no_progress (with_reducible apply Only.upd_cmds; decide +kernel)
    | (with_reducible apply Only.step (closeFixity_only ..); exact .of (by decide +kernel))
    | (with_reducible apply Only.step (putBufs_only ..); exact .of (by decide +kernel))
    | (with_reducible apply Only.step (releaseStaged_only ..); exact .of (by decide +kernel))
    | with_reducible refine Only.foldl (fun _ _ _ => ?_) ?_
    | with_reducible refine Only.foldl2 (fun _ _ _ => ?_) ?_
    | with_reducible apply_assumption -exfalso -symm
    | split
    | dsimp only

/-- What `clearQe` may change. -/
theorem clearQe_only (p : Port) (s : State) :
    Only [.ctl, .cmds, .fs, .mx, .nsWait, .mm, .bp, .tw, .dg, .mg,
    .reg Reg.BP_ERRBUF.INDEX, .reg Reg.BP_ERRBUF.OWNER, .reg Reg.BP_ERRBUF.CAUSE, .reg Reg.BP_ERR.REVOKE] s (clearQe p s) := by
  unfold clearQe
  repeat' first
    | intro _
    | with_reducible assumption
    | with_reducible exact Only.refl _ _
    | (extract_lets +onlyGivenNames x; refine Only.cut x ?_ (fun _ => ?_); unfold x; clear x; rotate_left; clear_value x)
    | (extract_lets +onlyGivenNames x; refine Only.cut2 x ?_ (fun _ => ?_); unfold x; clear x; rotate_left; clear_value x)
    | (extract_lets +onlyGivenNames x; refine Only.cutF x ?_ (fun _ => ?_); unfold x; clear x; rotate_left; clear_value x)
    | (extract_lets +onlyGivenNames x; refine Only.cutG x ?_ (fun _ => ?_); unfold x; clear x; rotate_left; clear_value x)
    | (extract_lets +onlyGivenNames x; refine Only.cutP x ?_ (fun _ => ?_); unfold x; clear x; rotate_left; clear_value x)
    | (extract_lets +onlyGivenNames x; refine Only.cutG2 x ?_ (fun _ => ?_); unfold x; clear x; rotate_left; clear_value x)
    | (extract_lets +onlyGivenNames x; refine Only.cutG3 x ?_ (fun _ => ?_); unfold x; clear x; rotate_left; clear_value x)
    | (extract_lets +onlyGivenNames x; refine Only.cutH x ?_ (fun _ => ?_); unfold x; clear x; rotate_left; clear_value x)
    | (extract_lets +onlyGivenNames x; clear_value x)
    | with_reducible apply Only.ite
    | fail_if_no_progress (with_reducible apply Only.upd_nsWait_tw_mg; decide +kernel; decide +kernel; decide +kernel)
    | (with_reducible apply Only.step (killCmds_only ..); exact .of (by decide +kernel))
    | (with_reducible apply Only.step (State.updCon_only ..); exact .of (by decide +kernel))
    | with_reducible apply_assumption -exfalso -symm
    | split
    | dsimp only

/-- What `loadLocked` may change: registers of its range. -/
theorem loadLocked_only (lo hi : Nat) (s : State) : Only [.win lo hi] s (loadLocked lo hi s) := by
  unfold loadLocked
  split
  · exact Only.refl _ _
  · have key : ∀ (f : Field), covered [.win lo hi] (.reg f) = false → keyIn lo hi f.key = false := by
      intro f hf
      simpa [covered, Fld.covers, keyIn] using hf
    refine Only.foldl (fun t e ht => ?_) (Only.upd_regs (fun f hf => ?_) (Only.refl _ _))
    · split
      · rename_i hk
        refine Only.upd_regs (fun f hf => sGet_sIns_ne _ _ _ ?_) ht
        intro h
        have := key f hf
        rw [h] at this
        simp_all
      · exact ht
    · exact sGet_filter _ _ _ (fun v => by simp [key f hf])

/-- What `conventional` may change. -/
theorem conventional_only (s : State) : Only [.he, .ctl, .cmds, .fs, .mx, .nsWait, .mm, .bp, .tw, .dg, .mg, .regs] s (conventional s) := by
  unfold conventional
  dsimp only
  refine Only.step (loadLocked_only ..) (.of (by decide +kernel)) ?_
  refine Only.trans (s := clearQe .b (clearQe .a s))
    (Only.step (clearQe_only ..) (.of (by decide +kernel)) (Only.step (clearQe_only ..) (.of (by decide +kernel)) (Only.refl _ _))) ?_
  refine Only.upd_he (by decide +kernel) (Only.upd_regs (fun f hf => sGet_filter _ _ _ (fun v => ?_)) (Only.refl _ _))
  have : ¬ (0x88000 ≤ f.key / 8 ∧ f.key / 8 < 0x90000) := by
    intro h
    simp [covered, Fld.covers, h] at hf
  simp [this]

/-- What `conventionalPort` may change. -/
theorem conventionalPort_only (p : Port) (s : State) :
    Only [.he, .ctl, .cmds, .fs, .mx, .nsWait, .mm, .bp, .tw, .dg, .mg,
    .reg Reg.BP_ERRBUF.INDEX, .reg Reg.BP_ERRBUF.OWNER, .reg Reg.BP_ERRBUF.CAUSE,
    .reg Reg.BP_ERR.REVOKE] s (conventionalPort p s) := by
  unfold conventionalPort
  repeat' first
    | intro _
    | with_reducible assumption
    | with_reducible exact Only.refl _ _
    | (with_reducible apply Only.step (clearQe_only ..); exact .of (by decide +kernel))
    | (with_reducible apply Only.step (State.updPort_only ..); exact .of (by decide +kernel))
    | with_reducible apply_assumption -exfalso -symm
    | split
    | dsimp only

/-- What `updCtx` may change. -/
theorem updCtx_only (i : Nat) (f : Ctx → Ctx) (s : State) :
    Only [.dg] s (updCtx i f s) := by
  unfold updCtx
  repeat' first
    | intro _
    | with_reducible assumption
    | with_reducible exact Only.refl _ _
    | fail_if_no_progress (with_reducible apply Only.upd_dg; decide +kernel)
    | with_reducible apply_assumption -exfalso -symm
    | split
    | dsimp only

/-- What `dgFill` may change. -/
theorem dgFill_only (m : Nat) :
    ∀ (s : State), Only [.dg] s (dgFill m s) := by
  induction m with
  | zero =>
    intros; unfold dgFill
    repeat' first
      | intro _
      | with_reducible assumption
      | with_reducible exact Only.refl _ _
      | with_reducible apply Only.ite
      | fail_if_no_progress (with_reducible apply Only.upd_dg; decide +kernel)
      | (with_reducible apply Only.step (updCtx_only ..); exact .of (by decide +kernel))
      | with_reducible apply_assumption -exfalso -symm
      | split
      | dsimp only
  | succ m ih =>
    intros; unfold dgFill
    repeat' first
      | intro _
      | with_reducible assumption
      | with_reducible exact Only.refl _ _
      | with_reducible apply Only.ite
      | fail_if_no_progress (with_reducible apply Only.upd_dg; decide +kernel)
      | (with_reducible apply Only.step (updCtx_only ..); exact .of (by decide +kernel))
      | with_reducible refine Only.trans ?_ (ih _)
      | with_reducible apply_assumption -exfalso -symm
      | split
      | dsimp only

/-- What `dgFail` may change. -/
theorem dgFail_only (ids : List Nat) (cause : Nat) (s : State) :
    Only [.bp, .dg, .reg Reg.BP_ERRBUF.INDEX,
    .reg Reg.BP_ERRBUF.OWNER, .reg Reg.BP_ERRBUF.CAUSE, .reg Reg.BP_ERR.REVOKE] s (dgFail ids cause s) := by
  unfold dgFail
  repeat' first
    | intro _
    | with_reducible assumption
    | with_reducible exact Only.refl _ _
    | (extract_lets +onlyGivenNames x; refine Only.cut x ?_ (fun _ => ?_); unfold x; clear x; rotate_left; clear_value x)
    | (extract_lets +onlyGivenNames x; refine Only.cut2 x ?_ (fun _ => ?_); unfold x; clear x; rotate_left; clear_value x)
    | (extract_lets +onlyGivenNames x; refine Only.cut3 x ?_ (fun _ => ?_); unfold x; clear x; rotate_left; clear_value x)
    | (extract_lets +onlyGivenNames x; refine Only.cutF x ?_ (fun _ => ?_); unfold x; clear x; rotate_left; clear_value x)
    | (extract_lets +onlyGivenNames x; refine Only.cutG x ?_ (fun _ => ?_); unfold x; clear x; rotate_left; clear_value x)
    | (extract_lets +onlyGivenNames x; refine Only.cutG2 x ?_ (fun _ => ?_); unfold x; clear x; rotate_left; clear_value x)
    | (extract_lets +onlyGivenNames x; refine Only.cutG3 x ?_ (fun _ => ?_); unfold x; clear x; rotate_left; clear_value x)
    | (extract_lets +onlyGivenNames x; refine Only.cutH x ?_ (fun _ => ?_); unfold x; clear x; rotate_left; clear_value x)
    | (extract_lets +onlyGivenNames x; clear_value x)
    | fail_if_no_progress (with_reducible apply Only.upd_dg; decide +kernel)
    | (with_reducible apply Only.step (updCtx_only ..); exact .of (by decide +kernel))
    | (with_reducible apply Only.step (fitSlots_only ..); exact .of (by decide +kernel))
    | (with_reducible apply Only.step (dgFill_only ..); exact .of (by decide +kernel))
    | with_reducible refine Only.step (Only.of_eq2 ‹_› (dgFill_only ..)) (.of (by decide +kernel)) ?_
    | with_reducible refine Only.step (Only.of_eq3 ‹_› (dgFill_only ..)) (.of (by decide +kernel)) ?_
    | with_reducible refine Only.foldl (fun _ _ _ => ?_) ?_
    | with_reducible refine Only.foldl2 (fun _ _ _ => ?_) ?_
    | with_reducible apply_assumption -exfalso -symm
    | split
    | dsimp only

/-- What `abandonCopies` may change. -/
theorem abandonCopies_only (s : State) :
    Only [.mm] s (abandonCopies s) := by
  unfold abandonCopies
  repeat' first
    | intro _
    | with_reducible assumption
    | with_reducible exact Only.refl _ _
    | (extract_lets +onlyGivenNames x; refine Only.cut x ?_ (fun _ => ?_); unfold x; clear x; rotate_left; clear_value x)
    | (extract_lets +onlyGivenNames x; refine Only.cut2 x ?_ (fun _ => ?_); unfold x; clear x; rotate_left; clear_value x)
    | (extract_lets +onlyGivenNames x; refine Only.cutF x ?_ (fun _ => ?_); unfold x; clear x; rotate_left; clear_value x)
    | (extract_lets +onlyGivenNames x; refine Only.cutG x ?_ (fun _ => ?_); unfold x; clear x; rotate_left; clear_value x)
    | (extract_lets +onlyGivenNames x; refine Only.cutG2 x ?_ (fun _ => ?_); unfold x; clear x; rotate_left; clear_value x)
    | (extract_lets +onlyGivenNames x; refine Only.cutG3 x ?_ (fun _ => ?_); unfold x; clear x; rotate_left; clear_value x)
    | (extract_lets +onlyGivenNames x; refine Only.cutH x ?_ (fun _ => ?_); unfold x; clear x; rotate_left; clear_value x)
    | (extract_lets +onlyGivenNames x; clear_value x)
    | fail_if_no_progress (with_reducible apply Only.upd_mm; decide +kernel)
    | with_reducible apply_assumption -exfalso -symm
    | split
    | dsimp only

/-- What `enterQuarantine` may change. -/
theorem enterQuarantine_only (row : Nat) (s : State) :
    Only [.out, .gen, .he, .ctl, .cmds, .fs, .mx, .mm, .bp, .tw, .dg,
    .mg, .fi, .prov, .reg Reg.GEN_DRAIN.ACTIVE, .reg Reg.QE_CQFULL.COUNT, .reg Reg.BP_ERRBUF.INDEX, .reg Reg.BP_ERRBUF.OWNER,
    .reg Reg.BP_ERRBUF.CAUSE, .reg Reg.BP_ERR.REVOKE, .reg Reg.MG_LOGSTAT.DROPPED, .reg Reg.MG_ERR.LOGDROP,
    .reg Reg.FI_ARM.ARMED, .reg Reg.FI_ARM.DCAUSE, .reg Reg.FI_GF.EN, .reg Reg.FI_FL.EN,
    .reg Reg.FI_PCIE.EN] s (enterQuarantine row s) := by
  unfold enterQuarantine
  repeat' first
    | intro _
    | with_reducible assumption
    | with_reducible exact Only.refl _ _
    | (extract_lets +onlyGivenNames x; refine Only.cut x ?_ (fun _ => ?_); unfold x; clear x; rotate_left; clear_value x)
    | (extract_lets +onlyGivenNames x; refine Only.cut2 x ?_ (fun _ => ?_); unfold x; clear x; rotate_left; clear_value x)
    | (extract_lets +onlyGivenNames x; refine Only.cutF x ?_ (fun _ => ?_); unfold x; clear x; rotate_left; clear_value x)
    | (extract_lets +onlyGivenNames x; refine Only.cutG x ?_ (fun _ => ?_); unfold x; clear x; rotate_left; clear_value x)
    | (extract_lets +onlyGivenNames x; refine Only.cutG2 x ?_ (fun _ => ?_); unfold x; clear x; rotate_left; clear_value x)
    | (extract_lets +onlyGivenNames x; refine Only.cutG3 x ?_ (fun _ => ?_); unfold x; clear x; rotate_left; clear_value x)
    | (extract_lets +onlyGivenNames x; refine Only.cutH x ?_ (fun _ => ?_); unfold x; clear x; rotate_left; clear_value x)
    | (extract_lets +onlyGivenNames x; clear_value x)
    | with_reducible apply Only.ite
    | fail_if_no_progress (with_reducible apply Only.upd_tw_prov; decide +kernel; decide +kernel)
    | fail_if_no_progress (with_reducible apply Only.upd_gen_ctl; decide +kernel; decide +kernel)
    | (with_reducible apply Only.step (flagIf_only ..); exact .of (by decide +kernel))
    | (with_reducible apply Only.step (killCmds_only ..); exact .of (by decide +kernel))
    | (with_reducible apply Only.step (enterMode_only ..); exact .of (by decide +kernel))
    | (with_reducible apply Only.step (abandonCopies_only ..); exact .of (by decide +kernel))
    | (with_reducible apply Only.step (pcieError_only ..); exact .of (by decide +kernel))
    | with_reducible apply_assumption -exfalso -symm
    | split
    | dsimp only

/-- What `quarantineNow` may change. -/
theorem quarantineNow_only (s : State) :
    Only [.out, .gen, .he, .ctl, .cmds, .fs, .mx, .mm, .bp, .tw, .dg, .mg, .fi, .prov,
    .reg Reg.GEN_DRAIN.ACTIVE, .reg Reg.QE_CQFULL.COUNT, .reg Reg.BP_ERRBUF.INDEX, .reg Reg.BP_ERRBUF.OWNER,
    .reg Reg.BP_ERRBUF.CAUSE, .reg Reg.BP_ERR.REVOKE, .reg Reg.MG_LOGSTAT.DROPPED, .reg Reg.MG_ERR.LOGDROP,
    .reg Reg.FI_ARM.ARMED, .reg Reg.FI_ARM.DCAUSE, .reg Reg.FI_GF.EN, .reg Reg.FI_FL.EN,
    .reg Reg.FI_PCIE.EN] s (quarantineNow s) := by
  unfold quarantineNow
  repeat' first
    | intro _
    | with_reducible assumption
    | with_reducible exact Only.refl _ _
    | (with_reducible apply Only.step (enterQuarantine_only ..); exact .of (by decide +kernel))
    | with_reducible apply_assumption -exfalso -symm
    | split
    | dsimp only

/-- What `fatalFault` may change. -/
theorem fatalFault_only (s : State) :
    Only [.out, .gen, .he, .ctl, .cmds, .fs, .mx, .mm, .bp, .tw, .dg, .mg, .fi, .prov,
    .reg Reg.GEN_DRAIN.ACTIVE, .reg Reg.QE_CQFULL.COUNT, .reg Reg.BP_ERRBUF.INDEX, .reg Reg.BP_ERRBUF.OWNER,
    .reg Reg.BP_ERRBUF.CAUSE, .reg Reg.BP_ERR.REVOKE, .reg Reg.MG_LOGSTAT.DROPPED, .reg Reg.MG_ERR.LOGDROP,
    .reg Reg.FI_ARM.ARMED, .reg Reg.FI_ARM.DCAUSE, .reg Reg.FI_GF.EN, .reg Reg.FI_FL.EN,
    .reg Reg.FI_PCIE.EN] s (fatalFault s) := by
  unfold fatalFault
  repeat' first
    | intro _
    | with_reducible assumption
    | with_reducible exact Only.refl _ _
    | (with_reducible apply Only.step (quarantineNow_only ..); exact .of (by decide +kernel))
    | with_reducible apply_assumption -exfalso -symm
    | split
    | dsimp only

/-- What `applySparing` may change. -/
theorem applySparing_only (s : State) :
    Only [.cs, .dg, .mg] s (applySparing s) := by
  unfold applySparing
  repeat' first
    | intro _
    | with_reducible assumption
    | with_reducible exact Only.refl _ _
    | (extract_lets +onlyGivenNames x; refine Only.cut x ?_ (fun _ => ?_); unfold x; clear x; rotate_left; clear_value x)
    | (extract_lets +onlyGivenNames x; refine Only.cut2 x ?_ (fun _ => ?_); unfold x; clear x; rotate_left; clear_value x)
    | (extract_lets +onlyGivenNames x; refine Only.cutF x ?_ (fun _ => ?_); unfold x; clear x; rotate_left; clear_value x)
    | (extract_lets +onlyGivenNames x; refine Only.cutG x ?_ (fun _ => ?_); unfold x; clear x; rotate_left; clear_value x)
    | (extract_lets +onlyGivenNames x; refine Only.cutP x ?_ (fun _ => ?_); unfold x; clear x; rotate_left; clear_value x)
    | (extract_lets +onlyGivenNames x; refine Only.cutG2 x ?_ (fun _ => ?_); unfold x; clear x; rotate_left; clear_value x)
    | (extract_lets +onlyGivenNames x; refine Only.cutG3 x ?_ (fun _ => ?_); unfold x; clear x; rotate_left; clear_value x)
    | (extract_lets +onlyGivenNames x; refine Only.cutH x ?_ (fun _ => ?_); unfold x; clear x; rotate_left; clear_value x)
    | (extract_lets +onlyGivenNames x; clear_value x)
    | fail_if_no_progress (with_reducible apply Only.upd_cs_dg_mg; decide +kernel; decide +kernel; decide +kernel)
    | with_reducible refine Only.foldl (fun _ _ _ => ?_) ?_
    | with_reducible refine Only.foldl2 (fun _ _ _ => ?_) ?_
    | with_reducible apply_assumption -exfalso -symm
    | split
    | dsimp only

/-- What `rowOne` may change. -/
theorem rowOne_only (s : State) :
    Only [.out, .gen, .he, .ctl, .fs, .cs, .bp, .dg, .mg, .fi, .prov,
    .win 0x80000 0x100000] s (rowOne s) := by
  unfold rowOne
  repeat' first
    | intro _
    | with_reducible assumption
    | with_reducible exact Only.refl _ _
    | (extract_lets +onlyGivenNames x; refine Only.cut x ?_ (fun _ => ?_); unfold x; clear x; rotate_left; clear_value x)
    | (extract_lets +onlyGivenNames x; refine Only.cut2 x ?_ (fun _ => ?_); unfold x; clear x; rotate_left; clear_value x)
    | (extract_lets +onlyGivenNames x; refine Only.cutF x ?_ (fun _ => ?_); unfold x; clear x; rotate_left; clear_value x)
    | (extract_lets +onlyGivenNames x; refine Only.cutG x ?_ (fun _ => ?_); unfold x; clear x; rotate_left; clear_value x)
    | (extract_lets +onlyGivenNames x; refine Only.cutG2 x ?_ (fun _ => ?_); unfold x; clear x; rotate_left; clear_value x)
    | (extract_lets +onlyGivenNames x; refine Only.cutG3 x ?_ (fun _ => ?_); unfold x; clear x; rotate_left; clear_value x)
    | (extract_lets +onlyGivenNames x; refine Only.cutH x ?_ (fun _ => ?_); unfold x; clear x; rotate_left; clear_value x)
    | (extract_lets +onlyGivenNames x; clear_value x)
    | with_reducible apply Only.ite
    | (with_reducible apply Only.step (loadLocked_only ..); exact .of (by decide +kernel))
    | (with_reducible apply Only.step (updOwner_only ..); exact .of (by decide +kernel))
    | (with_reducible apply Only.step (enterMode_only ..); exact .of (by decide +kernel))
    | (with_reducible apply Only.step (applySparing_only ..); exact .of (by decide +kernel))
    | with_reducible refine Only.foldl (fun _ _ _ => ?_) ?_
    | with_reducible refine Only.foldl2 (fun _ _ _ => ?_) ?_
    | with_reducible apply_assumption -exfalso -symm
    | split
    | dsimp only

/-- What `clearIslands` may change. -/
theorem clearIslands_only (s : State) : Only [.eff, .he, .ctl, .sh, .cmds, .nextCmd, .fs, .mx, .ns, .nsWait, .mm, .sp, .cs, .bp, .me, .gf, .tw, .dg, .mg, .nand,
    .win 0x88000 0xF0000] s (clearIslands s) := by
  refine ⟨fun f hf => ?_⟩
  cases f with
  | reg f =>
    refine sGet_filter _ _ _ (fun v => ?_)
    have : ¬ (0x88000 ≤ f.key / 8 ∧ f.key / 8 < 0xF0000) := by
      intro h
      simp [covered, Fld.covers, h] at hf
    simp only [Bool.or_eq_true, decide_eq_true_eq]
    omega
  | win _ _ => trivial
  | regs => trivial
  | _ => first | rfl | exact absurd hf (by decide +kernel)

/-- What `y9Reset` may change. -/
theorem y9Reset_only (clean : Bool) (row : Nat) (s : State) :
    Only [.out, .eff, .gen, .he, .ctl, .sh, .defFaults, .lost,
    .cmds, .nextCmd, .fs, .mx, .ns, .nsWait, .mm, .sp, .cs, .bp, .me, .gf, .tw, .dg, .mg, .fi, .nand, .prov,
    .win 0x80000 0x100000, .win 0x88000 0xF0000] s (y9Reset clean row s) := by
  unfold y9Reset
  repeat' first
    | intro _
    | with_reducible assumption
    | with_reducible exact Only.refl _ _
    | (extract_lets +onlyGivenNames x; refine Only.cut x ?_ (fun _ => ?_); unfold x; clear x; rotate_left; clear_value x)
    | (extract_lets +onlyGivenNames x; refine Only.cut2 x ?_ (fun _ => ?_); unfold x; clear x; rotate_left; clear_value x)
    | (extract_lets +onlyGivenNames x; clear_value x)
    | with_reducible apply Only.ite
    | fail_if_no_progress (with_reducible apply Only.upd_gen; decide +kernel)
    | (with_reducible apply Only.step (flagOff_only ..); exact .of (by decide +kernel))
    | (with_reducible apply Only.step (flagIf_only ..); exact .of (by decide +kernel))
    | (with_reducible apply Only.step (cleanStop_only ..); exact .of (by decide +kernel))
    | (with_reducible apply Only.step (clearIslands_only ..); exact .of (by decide +kernel))
    | (with_reducible apply Only.step (enterMode_only ..); exact .of (by decide +kernel))
    | (with_reducible apply Only.step (rowOne_only ..); exact .of (by decide +kernel))
    | with_reducible apply_assumption -exfalso -symm
    | split
    | dsimp only

/-- What `abandonFf` may change. -/
theorem abandonFf_only (s : State) :
    Only [.freeCtr, .ff] s (abandonFf s) := by
  unfold abandonFf
  repeat' first
    | intro _
    | with_reducible assumption
    | with_reducible exact Only.refl _ _
    | (extract_lets +onlyGivenNames x; refine Only.cut x ?_ (fun _ => ?_); unfold x; clear x; rotate_left; clear_value x)
    | (extract_lets +onlyGivenNames x; refine Only.cut2 x ?_ (fun _ => ?_); unfold x; clear x; rotate_left; clear_value x)
    | (extract_lets +onlyGivenNames x; clear_value x)
    | with_reducible apply Only.ite
    | fail_if_no_progress (with_reducible apply Only.upd_ff; decide +kernel)
    | (with_reducible apply Only.step (tickFree_only ..); exact .of (by decide +kernel))
    | with_reducible apply_assumption -exfalso -symm
    | split
    | dsimp only

/-- What `powerOnReset` may change. -/
theorem powerOnReset_only (s : State) : Only [.freeCtr, .eff, .time, .pins, .gen, .he, .ctl, .sh, .defFaults, .cmds, .nextCmd, .fs, .mx, .ns, .nsWait, .mm, .sp, .cs, .bp,
    .me, .gf, .tw, .dg, .mg, .fi, .nand, .ff, .regs] s (powerOnReset s) := by
  unfold powerOnReset
  refine Only.trans (Only.step (abandonFf_only s) (.of (by decide +kernel)) (Only.refl _ _)) ?_
  refine ⟨fun f hf => ?_⟩
  cases f with
  | reg f => simp [covered, Fld.covers, Fld.code] at hf
  | win _ _ => trivial
  | regs => trivial
  | _ => first | rfl | exact absurd hf (by decide +kernel)

/-- What `managementReset` may change. -/
theorem managementReset_keep {w : List Fld} {r : State} {flag : Field} {s : State}
    (hSub : Within (List.append [.freeCtr,
    .out, .gen, .he, .ctl, .cmds, .fs, .mx, .mm, .bp, .tw, .dg, .mg, .fi, .ff, .prov, .reg Reg.GEN_DRAIN.ACTIVE,
    .reg Reg.QE_CQFULL.COUNT, .reg Reg.BP_ERRBUF.INDEX, .reg Reg.BP_ERRBUF.OWNER, .reg Reg.BP_ERRBUF.CAUSE,
    .reg Reg.BP_ERR.REVOKE, .reg Reg.MG_STAT.MGRESETS, .reg Reg.MG_WDOG.PERIOD, .reg Reg.MG_LOGSTAT.DROPPED,
    .reg Reg.FF_STATUS.BUSY, .reg Reg.MG_ERR.LOGDROP, .reg Reg.FI_ARM.ARMED, .reg Reg.FI_ARM.DCAUSE,
    .reg Reg.FI_GF.EN] [.reg Reg.FI_FL.EN,
    .reg Reg.FI_PCIE.EN]) w)
    (hFld : covered w (.reg flag) = true) (hOnly : Only w r s) : Only w r (managementReset flag s) := by
  unfold managementReset
  repeat' first
    | intro _
    | with_reducible assumption
    | with_reducible exact Only.refl _ _
    | (extract_lets +onlyGivenNames x; refine Only.cut x ?_ (fun _ => ?_); unfold x; clear x; rotate_left; clear_value x)
    | (extract_lets +onlyGivenNames x; refine Only.cut2 x ?_ (fun _ => ?_); unfold x; clear x; rotate_left; clear_value x)
    | (extract_lets +onlyGivenNames x; refine Only.cutF x ?_ (fun _ => ?_); unfold x; clear x; rotate_left; clear_value x)
    | (extract_lets +onlyGivenNames x; refine Only.cutG x ?_ (fun _ => ?_); unfold x; clear x; rotate_left; clear_value x)
    | (extract_lets +onlyGivenNames x; refine Only.cutP x ?_ (fun _ => ?_); unfold x; clear x; rotate_left; clear_value x)
    | (extract_lets +onlyGivenNames x; refine Only.cutG2 x ?_ (fun _ => ?_); unfold x; clear x; rotate_left; clear_value x)
    | (extract_lets +onlyGivenNames x; refine Only.cutG3 x ?_ (fun _ => ?_); unfold x; clear x; rotate_left; clear_value x)
    | (extract_lets +onlyGivenNames x; refine Only.cutH x ?_ (fun _ => ?_); unfold x; clear x; rotate_left; clear_value x)
    | (extract_lets +onlyGivenNames x; clear_value x)
    | with_reducible apply Only.ite
    | fail_if_no_progress (with_reducible apply Only.upd_he_dg_mg; exact Within.one (by decide +kernel) hSub; exact Within.one (by decide +kernel) hSub; exact Within.one (by decide +kernel) hSub)
    | (with_reducible apply Only.step (setF_only ..); first | exact .trans (.of (by decide +kernel)) hSub | exact .single hFld)
    | (with_reducible apply Only.step (flagOn_only ..); first | exact .trans (.of (by decide +kernel)) hSub | exact .single hFld)
    | (with_reducible apply Only.step (flagOff_only ..); first | exact .trans (.of (by decide +kernel)) hSub | exact .single hFld)
    | (with_reducible apply Only.step (bump_only ..); first | exact .trans (.of (by decide +kernel)) hSub | exact .single hFld)
    | (with_reducible apply Only.step (abandonFf_only ..); first | exact .trans (.of (by decide +kernel)) hSub | exact .single hFld)
    | (with_reducible apply Only.step (dgFail_only ..); first | exact .trans (.of (by decide +kernel)) hSub | exact .single hFld)
    | (with_reducible apply Only.step (fatalFault_only ..); first | exact .trans (.of (by decide +kernel)) hSub | exact .single hFld)
    | with_reducible apply_assumption -exfalso -symm
    | split
    | dsimp only

end Sys2Proof.Machine
end

