-- ==== Sys2Proof/Laws/FrameLogOps.lean ====
section
/-! SUPPORT. What each operation of Machine/LogOps.lean may change, as `Only` states it: one lemma an operation, which later proofs cite
instead of unfolding it. -/
namespace Sys2Proof.Machine
set_option Elab.async false
set_option linter.all false

/-- What `flashPut` may change. -/
theorem flashPut_only (e : LogEntry) (s : State) :
    Only [.ff, .reg Reg.MG_LOGSTAT.PFULL] s (flashPut e s) := by
  unfold flashPut
  repeat' first
    | intro _
    | with_reducible assumption
    | with_reducible exact Only.refl _ _
    | (extract_lets +onlyGivenNames x; refine Only.cut x ?_ (fun _ => ?_); unfold x; clear x; rotate_left; clear_value x)
    | (extract_lets +onlyGivenNames x; refine Only.cut2 x ?_ (fun _ => ?_); unfold x; clear x; rotate_left; clear_value x)
    | (extract_lets +onlyGivenNames x; clear_value x)
    | fail_if_no_progress (with_reducible apply Only.upd_ff; decide +kernel)
    | (with_reducible apply Only.step (flagIf_only ..); exact .of (by decide +kernel))
    | with_reducible apply_assumption -exfalso -symm
    | split
    | dsimp only

/-- What `recordDropped` may change. -/
theorem recordDropped_only (s : State) :
    Only [.mg, .ff, .reg Reg.MG_LOGSTAT.PFULL] s (recordDropped s) := by
  unfold recordDropped
  repeat' first
    | intro _
    | with_reducible assumption
    | with_reducible exact Only.refl _ _
    | (extract_lets +onlyGivenNames x; refine Only.cut x ?_ (fun _ => ?_); unfold x; clear x; rotate_left; clear_value x)
    | (extract_lets +onlyGivenNames x; refine Only.cut2 x ?_ (fun _ => ?_); unfold x; clear x; rotate_left; clear_value x)
    | (extract_lets +onlyGivenNames x; clear_value x)
    | with_reducible apply Only.ite
    | fail_if_no_progress (with_reducible apply Only.upd_mg; decide +kernel)
    | (with_reducible apply Only.step (flashPut_only ..); exact .of (by decide +kernel))
    | with_reducible apply_assumption -exfalso -symm
    | split
    | dsimp only

/-- What `flushLog` may change. -/
theorem flushLog_only (n : Nat) (s : State) :
    Only [.mg, .ff, .reg Reg.MG_LOGSTAT.PFULL] s (flushLog n s) := by
  unfold flushLog
  repeat' first
    | intro _
    | with_reducible assumption
    | with_reducible exact Only.refl _ _
    | (extract_lets +onlyGivenNames x; refine Only.cut x ?_ (fun _ => ?_); unfold x; clear x; rotate_left; clear_value x)
    | (extract_lets +onlyGivenNames x; refine Only.cut2 x ?_ (fun _ => ?_); unfold x; clear x; rotate_left; clear_value x)
    | (extract_lets +onlyGivenNames x; refine Only.cutF x ?_ (fun _ => ?_); unfold x; clear x; rotate_left; clear_value x)
    | (extract_lets +onlyGivenNames x; refine Only.cutG x ?_ (fun _ => ?_); unfold x; clear x; rotate_left; clear_value x)
    | (extract_lets +onlyGivenNames x; refine Only.cutG2 x ?_ (fun _ => ?_); unfold x; clear x; rotate_left; clear_value x)
    | (extract_lets +onlyGivenNames x; refine Only.cutG3 x ?_ (fun _ => ?_); unfold x; clear x; rotate_left; clear_value x)
    | (extract_lets +onlyGivenNames x; refine Only.cutH x ?_ (fun _ => ?_); unfold x; clear x; rotate_left; clear_value x)
    | (extract_lets +onlyGivenNames x; clear_value x)
    | with_reducible apply Only.ite
    | fail_if_no_progress (with_reducible apply Only.upd_mg; decide +kernel)
    | (with_reducible apply Only.step (recordDropped_only ..); exact .of (by decide +kernel))
    | (with_reducible apply Only.step (flashPut_only ..); exact .of (by decide +kernel))
    | with_reducible refine Only.foldl (fun _ _ _ => ?_) ?_
    | with_reducible refine Only.foldl2 (fun _ _ _ => ?_) ?_
    | with_reducible apply_assumption -exfalso -symm
    | split
    | dsimp only

/-- What `drainLog` may change. -/
theorem drainLog_only (s : State) :
    Only [.mg, .ff, .reg Reg.MG_LOGSTAT.PFULL] s (drainLog s) := by
  unfold drainLog
  repeat' first
    | intro _
    | with_reducible assumption
    | with_reducible exact Only.refl _ _
    | (extract_lets +onlyGivenNames x; refine Only.cut x ?_ (fun _ => ?_); unfold x; clear x; rotate_left; clear_value x)
    | (extract_lets +onlyGivenNames x; refine Only.cut2 x ?_ (fun _ => ?_); unfold x; clear x; rotate_left; clear_value x)
    | (extract_lets +onlyGivenNames x; refine Only.cutF x ?_ (fun _ => ?_); unfold x; clear x; rotate_left; clear_value x)
    | (extract_lets +onlyGivenNames x; refine Only.cutG x ?_ (fun _ => ?_); unfold x; clear x; rotate_left; clear_value x)
    | (extract_lets +onlyGivenNames x; refine Only.cutG2 x ?_ (fun _ => ?_); unfold x; clear x; rotate_left; clear_value x)
    | (extract_lets +onlyGivenNames x; refine Only.cutG3 x ?_ (fun _ => ?_); unfold x; clear x; rotate_left; clear_value x)
    | (extract_lets +onlyGivenNames x; refine Only.cutH x ?_ (fun _ => ?_); unfold x; clear x; rotate_left; clear_value x)
    | (extract_lets +onlyGivenNames x; clear_value x)
    | fail_if_no_progress (with_reducible apply Only.upd_mg; decide +kernel)
    | (with_reducible apply Only.step (flashPut_only ..); exact .of (by decide +kernel))
    | with_reducible refine Only.foldl (fun _ _ _ => ?_) ?_
    | with_reducible refine Only.foldl2 (fun _ _ _ => ?_) ?_
    | with_reducible apply_assumption -exfalso -symm
    | split
    | dsimp only

/-- What `timeStep` may change. -/
theorem timeStep_only (ns : Nat) (s : State) :
    Only [.out, .time, .ctl, .cmds, .fs, .mg, .reg Reg.GF_TOFFS.STEPS,
    .reg Reg.GF_ERR.TIMESTEP, .reg Reg.MG_LOGSTAT.DROPPED, .reg Reg.MG_ERR.LOGDROP] s (timeStep ns s) := by
  unfold timeStep
  repeat' first
    | intro _
    | with_reducible assumption
    | with_reducible exact Only.refl _ _
    | (extract_lets +onlyGivenNames x; refine Only.cut x ?_ (fun _ => ?_); unfold x; clear x; rotate_left; clear_value x)
    | (extract_lets +onlyGivenNames x; refine Only.cut2 x ?_ (fun _ => ?_); unfold x; clear x; rotate_left; clear_value x)
    | (extract_lets +onlyGivenNames x; refine Only.cutF x ?_ (fun _ => ?_); unfold x; clear x; rotate_left; clear_value x)
    | (extract_lets +onlyGivenNames x; refine Only.cutG x ?_ (fun _ => ?_); unfold x; clear x; rotate_left; clear_value x)
    | (extract_lets +onlyGivenNames x; refine Only.cutP x ?_ (fun _ => ?_); unfold x; clear x; rotate_left; clear_value x)
    | (extract_lets +onlyGivenNames x; refine Only.cutG2 x ?_ (fun _ => ?_); unfold x; clear x; rotate_left; clear_value x)
    | (extract_lets +onlyGivenNames x; refine Only.cutG3 x ?_ (fun _ => ?_); unfold x; clear x; rotate_left; clear_value x)
    | (extract_lets +onlyGivenNames x; refine Only.cutH x ?_ (fun _ => ?_); unfold x; clear x; rotate_left; clear_value x)
    | (extract_lets +onlyGivenNames x; clear_value x)
    | fail_if_no_progress (with_reducible apply Only.upd_ctl_cmds_fs; decide +kernel; decide +kernel; decide +kernel)
    | (with_reducible apply Only.step (flagOn_only ..); exact .of (by decide +kernel))
    | (with_reducible apply Only.step (bump_only ..); exact .of (by decide +kernel))
    | (with_reducible apply Only.step (corrected_only ..); exact .of (by decide +kernel))
    | (with_reducible apply Only.step (advance_only ..); exact .of (by decide +kernel))
    | (with_reducible apply Only.step (book_only ..); exact .of (by decide +kernel))
    | (with_reducible apply Only.step (logEvent_only ..); exact .of (by decide +kernel))
    | with_reducible apply_assumption -exfalso -symm
    | split
    | dsimp only

/-- What `correctBehind` may change. -/
theorem correctBehind_only (behind : Nat) (s : State) :
    Only [.out, .time, .ctl, .cmds, .fs, .gf, .mg,
    .reg Reg.GF_TOFFS.STEPS, .reg Reg.GF_ERR.TIMESTEP, .reg Reg.MG_LOGSTAT.DROPPED,
    .reg Reg.MG_ERR.LOGDROP] s (correctBehind behind s) := by
  unfold correctBehind
  repeat' first
    | intro _
    | with_reducible assumption
    | with_reducible exact Only.refl _ _
    | (extract_lets +onlyGivenNames x; refine Only.cut x ?_ (fun _ => ?_); unfold x; clear x; rotate_left; clear_value x)
    | (extract_lets +onlyGivenNames x; refine Only.cut2 x ?_ (fun _ => ?_); unfold x; clear x; rotate_left; clear_value x)
    | (extract_lets +onlyGivenNames x; clear_value x)
    | with_reducible apply Only.ite
    | fail_if_no_progress (with_reducible apply Only.upd_gf; decide +kernel)
    | (with_reducible apply Only.step (timeStep_only ..); exact .of (by decide +kernel))
    | with_reducible apply_assumption -exfalso -symm
    | split
    | dsimp only

/-- What `askRepair` may change. -/
theorem askRepair_only (nsid grain csn : Nat) (s : State) :
    Only [.out, .he, .bp, .gf, .tw, .mg, .fi,
    .reg Reg.HE_WINLOG.COUNT, .reg Reg.HE_WINLOG.CAUSE, .reg Reg.HE_WINLOG.PORT, .reg Reg.HE_WINLOGLO.OFFSET,
    .reg Reg.HE_WINLOGHI.OFFSET, .reg Reg.HE_WINLOGHI.RID, .reg Reg.BP_ERRBUF.INDEX, .reg Reg.BP_ERRBUF.OWNER,
    .reg Reg.BP_ERRBUF.CAUSE, .reg Reg.BP_ERR.REVOKE, .reg Reg.GF_XFER.FAILED, .reg Reg.GF_ERR.XFERFAIL,
    .reg Reg.MG_LOGSTAT.DROPPED, .reg Reg.MG_ERR.LOGDROP, .reg Reg.FI_CNT.INJECTED] s (askRepair nsid grain csn s) := by
  unfold askRepair
  repeat' first
    | intro _
    | with_reducible assumption
    | with_reducible exact Only.refl _ _
    | with_reducible apply Only.ite
    | fail_if_no_progress (with_reducible apply Only.upd_tw; decide +kernel)
    | (with_reducible apply Only.step (sendFrame_only ..); exact .of (by decide +kernel))
    | (with_reducible apply Only.step (emit_only ..); exact .of (by decide +kernel))
    | with_reducible apply_assumption -exfalso -symm
    | split
    | dsimp only

/-- What `askDue` may change. -/
theorem askDue_only (s : State) :
    Only [.out, .he, .bp, .gf, .tw, .mg, .fi, .reg Reg.HE_WINLOG.COUNT,
    .reg Reg.HE_WINLOG.CAUSE, .reg Reg.HE_WINLOG.PORT, .reg Reg.HE_WINLOGLO.OFFSET, .reg Reg.HE_WINLOGHI.OFFSET,
    .reg Reg.HE_WINLOGHI.RID, .reg Reg.BP_ERRBUF.INDEX, .reg Reg.BP_ERRBUF.OWNER, .reg Reg.BP_ERRBUF.CAUSE,
    .reg Reg.BP_ERR.REVOKE, .reg Reg.GF_XFER.FAILED, .reg Reg.GF_ERR.XFERFAIL, .reg Reg.MG_LOGSTAT.DROPPED,
    .reg Reg.MG_ERR.LOGDROP, .reg Reg.FI_CNT.INJECTED] s (askDue s) := by
  unfold askDue
  repeat' first
    | intro _
    | with_reducible assumption
    | with_reducible exact Only.refl _ _
    | fail_if_no_progress (with_reducible apply Only.upd_tw; decide +kernel)
    | (with_reducible apply Only.step (askRepair_only ..); exact .of (by decide +kernel))
    | with_reducible refine Only.foldl (fun _ _ _ => ?_) ?_
    | with_reducible refine Only.foldl2 (fun _ _ _ => ?_) ?_
    | with_reducible apply_assumption -exfalso -symm
    | split
    | dsimp only

/-- What `withdrawPoisoned` may change. -/
theorem withdrawPoisoned_only (r : Staged) (s : State) :
    Only (List.append [.freeCtr, .out, .he, .ctl, .sh, .defFaults,
    .lost, .fs, .mx, .bp, .me, .gf, .tw, .mg, .fi, .reg Reg.HE_WINLOG.COUNT, .reg Reg.HE_WINLOG.CAUSE, .reg Reg.HE_WINLOG.PORT,
    .reg Reg.HE_WINLOGLO.OFFSET, .reg Reg.HE_WINLOGHI.OFFSET, .reg Reg.HE_WINLOGHI.RID, .reg Reg.QE_CQFULL.COUNT,
    .reg Reg.BP_ERRBUF.INDEX, .reg Reg.BP_ERRBUF.OWNER, .reg Reg.BP_ERRBUF.CAUSE, .reg Reg.BP_ERR.REVOKE,
    .reg Reg.ME_POISON.CONSUMED, .reg Reg.ME_LASTHI.KIND, .reg Reg.ME_ERR.POISON,
    .reg Reg.GF_XFER.FAILED] [.reg Reg.GF_ERR.XFERFAIL, .reg Reg.MG_LOGSTAT.DROPPED, .reg Reg.MG_ERR.LOGDROP,
    .reg Reg.FI_CNT.INJECTED]) s (withdrawPoisoned r s) := by
  unfold withdrawPoisoned
  repeat' first
    | intro _
    | with_reducible assumption
    | with_reducible exact Only.refl _ _
    | (extract_lets +onlyGivenNames x; refine Only.cut x ?_ (fun _ => ?_); unfold x; clear x; rotate_left; clear_value x)
    | (extract_lets +onlyGivenNames x; refine Only.cut2 x ?_ (fun _ => ?_); unfold x; clear x; rotate_left; clear_value x)
    | (extract_lets +onlyGivenNames x; clear_value x)
    | with_reducible apply Only.ite
    | (with_reducible apply Only.step (unhold_only ..); exact .of (by decide +kernel))
    | (with_reducible apply Only.step (tickFree_only ..); exact .of (by decide +kernel))
    | (with_reducible apply Only.step (poisonConsumed_only ..); exact .of (by decide +kernel))
    | (with_reducible apply Only.step (askRepair_only ..); exact .of (by decide +kernel))
    | (with_reducible apply Only.step (deferFault_only ..); exact .of (by decide +kernel))
    | (with_reducible apply Only.step (releaseStaged_only ..); exact .of (by decide +kernel))
    | (with_reducible apply Only.step (markLost_only ..); exact .of (by decide +kernel))
    | with_reducible apply_assumption -exfalso -symm
    | split
    | dsimp only

/-- What `withdrawSel` may change. -/
theorem withdrawSel_only (f : Staged → Bool) (s : State) :
    Only (List.append [.freeCtr, .out, .he, .ctl, .sh, .defFaults,
    .lost, .fs, .mx, .bp, .me, .gf, .tw, .mg, .fi, .reg Reg.HE_WINLOG.COUNT, .reg Reg.HE_WINLOG.CAUSE, .reg Reg.HE_WINLOG.PORT,
    .reg Reg.HE_WINLOGLO.OFFSET, .reg Reg.HE_WINLOGHI.OFFSET, .reg Reg.HE_WINLOGHI.RID, .reg Reg.QE_CQFULL.COUNT,
    .reg Reg.BP_ERRBUF.INDEX, .reg Reg.BP_ERRBUF.OWNER, .reg Reg.BP_ERRBUF.CAUSE, .reg Reg.BP_ERR.REVOKE,
    .reg Reg.ME_POISON.CONSUMED, .reg Reg.ME_LASTHI.KIND, .reg Reg.ME_ERR.POISON,
    .reg Reg.GF_XFER.FAILED] [.reg Reg.GF_ERR.XFERFAIL, .reg Reg.MG_LOGSTAT.DROPPED, .reg Reg.MG_ERR.LOGDROP,
    .reg Reg.FI_CNT.INJECTED]) s (withdrawSel f s) := by
  unfold withdrawSel
  repeat' first
    | intro _
    | with_reducible assumption
    | with_reducible exact Only.refl _ _
    | (with_reducible apply Only.step (withdrawPoisoned_only ..); exact .of (by decide +kernel))
    | with_reducible refine Only.foldl (fun _ _ _ => ?_) ?_
    | with_reducible refine Only.foldl2 (fun _ _ _ => ?_) ?_
    | with_reducible apply_assumption -exfalso -symm
    | split
    | dsimp only

/-- What `readyForVat` may change. -/
theorem readyForVat_only (f : Staged → Bool) (s : State) :
    Only (List.append [.freeCtr, .out, .he, .ctl, .sh, .defFaults,
    .lost, .fs, .mx, .bp, .me, .gf, .tw, .mg, .fi, .reg Reg.HE_WINLOG.COUNT, .reg Reg.HE_WINLOG.CAUSE, .reg Reg.HE_WINLOG.PORT,
    .reg Reg.HE_WINLOGLO.OFFSET, .reg Reg.HE_WINLOGHI.OFFSET, .reg Reg.HE_WINLOGHI.RID, .reg Reg.QE_CQFULL.COUNT,
    .reg Reg.BP_ERRBUF.INDEX, .reg Reg.BP_ERRBUF.OWNER, .reg Reg.BP_ERRBUF.CAUSE, .reg Reg.BP_ERR.REVOKE,
    .reg Reg.ME_POISON.CONSUMED, .reg Reg.ME_LASTHI.KIND, .reg Reg.ME_ERR.POISON,
    .reg Reg.GF_XFER.FAILED] [.reg Reg.GF_ERR.XFERFAIL, .reg Reg.MG_LOGSTAT.DROPPED, .reg Reg.MG_ERR.LOGDROP,
    .reg Reg.FI_CNT.INJECTED]) s (readyForVat f s) := by
  unfold readyForVat
  repeat' first
    | intro _
    | with_reducible assumption
    | with_reducible exact Only.refl _ _
    | (with_reducible apply Only.step (withdrawSel_only ..); exact .of (by decide +kernel))
    | (with_reducible apply Only.step (mergeStaged_only ..); exact .of (by decide +kernel))
    | with_reducible refine Only.foldl (fun _ _ _ => ?_) ?_
    | with_reducible refine Only.foldl2 (fun _ _ _ => ?_) ?_
    | with_reducible apply_assumption -exfalso -symm
    | split
    | dsimp only

/-- What `writeThroughEnter` may change. -/
theorem writeThroughEnter_only (s : State) :
    Only (List.append [.freeCtr, .out, .he, .ctl, .sh, .defFaults, .lost, .fs, .mx,
    .mm, .bp, .me, .gf, .tw, .mg, .fi, .reg Reg.GEN_HOLDUP.VERIFIED, .reg Reg.GEN_HOLDUP.WTHRU, .reg Reg.HE_WINLOG.COUNT,
    .reg Reg.HE_WINLOG.CAUSE, .reg Reg.HE_WINLOG.PORT, .reg Reg.HE_WINLOGLO.OFFSET, .reg Reg.HE_WINLOGHI.OFFSET,
    .reg Reg.HE_WINLOGHI.RID, .reg Reg.QE_CQFULL.COUNT, .reg Reg.BP_ERRBUF.INDEX, .reg Reg.BP_ERRBUF.OWNER,
    .reg Reg.BP_ERRBUF.CAUSE, .reg Reg.BP_ERR.REVOKE, .reg Reg.ME_POISON.CONSUMED] [.reg Reg.ME_LASTHI.KIND,
    .reg Reg.ME_ERR.POISON, .reg Reg.GF_XFER.FAILED, .reg Reg.GF_ERR.XFERFAIL, .reg Reg.MG_LOGSTAT.DROPPED,
    .reg Reg.MG_ERR.LOGDROP, .reg Reg.FI_CNT.INJECTED]) s (writeThroughEnter s) := by
  unfold writeThroughEnter
  repeat' first
    | intro _
    | with_reducible assumption
    | with_reducible exact Only.refl _ _
    | (extract_lets +onlyGivenNames x; refine Only.cut x ?_ (fun _ => ?_); unfold x; clear x; rotate_left; clear_value x)
    | (extract_lets +onlyGivenNames x; refine Only.cut2 x ?_ (fun _ => ?_); unfold x; clear x; rotate_left; clear_value x)
    | (extract_lets +onlyGivenNames x; refine Only.cutF x ?_ (fun _ => ?_); unfold x; clear x; rotate_left; clear_value x)
    | (extract_lets +onlyGivenNames x; refine Only.cutG x ?_ (fun _ => ?_); unfold x; clear x; rotate_left; clear_value x)
    | (extract_lets +onlyGivenNames x; refine Only.cutG2 x ?_ (fun _ => ?_); unfold x; clear x; rotate_left; clear_value x)
    | (extract_lets +onlyGivenNames x; refine Only.cutG3 x ?_ (fun _ => ?_); unfold x; clear x; rotate_left; clear_value x)
    | (extract_lets +onlyGivenNames x; refine Only.cutH x ?_ (fun _ => ?_); unfold x; clear x; rotate_left; clear_value x)
    | (extract_lets +onlyGivenNames x; clear_value x)
    | with_reducible apply Only.ite
    | fail_if_no_progress (with_reducible apply Only.upd_mm; decide +kernel)
    | (with_reducible apply Only.step (flagOn_only ..); exact .of (by decide +kernel))
    | (with_reducible apply Only.step (flagOff_only ..); exact .of (by decide +kernel))
    | (with_reducible apply Only.step (vendorEvent_only ..); exact .of (by decide +kernel))
    | (with_reducible apply Only.step (readyForVat_only ..); exact .of (by decide +kernel))
    | (with_reducible apply Only.step (bookVat_only ..); exact .of (by decide +kernel))
    | with_reducible apply_assumption -exfalso -symm
    | split
    | dsimp only

/-- What `writeThroughExit` may change. -/
theorem writeThroughExit_only (s : State) :
    Only [.out, .he, .ctl, .fs, .mm, .reg Reg.GEN_HOLDUP.WTHRU,
    .reg Reg.QE_CQFULL.COUNT] s (writeThroughExit s) := by
  unfold writeThroughExit
  repeat' first
    | intro _
    | with_reducible assumption
    | with_reducible exact Only.refl _ _
    | with_reducible apply Only.ite
    | fail_if_no_progress (with_reducible apply Only.upd_mm; decide +kernel)
    | (with_reducible apply Only.step (flagOff_only ..); exact .of (by decide +kernel))
    | (with_reducible apply Only.step (vendorEvent_only ..); exact .of (by decide +kernel))
    | with_reducible apply_assumption -exfalso -symm
    | split
    | dsimp only

/-- What `completeMerges` may change. -/
theorem completeMerges_only (s : State) :
    Only [.me] s (completeMerges s) := by
  unfold completeMerges
  repeat' first
    | intro _
    | with_reducible assumption
    | with_reducible exact Only.refl _ _
    | fail_if_no_progress (with_reducible apply Only.upd_me; decide +kernel)
    | with_reducible apply_assumption -exfalso -symm
    | split
    | dsimp only

/-- What `enterDrain` may change. -/
theorem enterDrain_only (s : State) :
    Only (List.append [.out, .gen, .he, .ctl, .cmds, .fs, .mx, .mm, .bp, .gf, .tw, .dg,
    .mg, .fi, .nand, .prov, .reg Reg.GEN_DRAIN.ACTIVE, .reg Reg.HE_WINLOG.COUNT, .reg Reg.HE_WINLOG.CAUSE,
    .reg Reg.HE_WINLOG.PORT, .reg Reg.HE_WINLOGLO.OFFSET, .reg Reg.HE_WINLOGHI.OFFSET, .reg Reg.HE_WINLOGHI.RID,
    .reg Reg.QE_CQFULL.COUNT, .reg Reg.BP_ERRBUF.INDEX, .reg Reg.BP_ERRBUF.OWNER, .reg Reg.BP_ERRBUF.CAUSE,
    .reg Reg.BP_ERR.REVOKE, .reg Reg.GF_XFER.FAILED, .reg Reg.GF_ERR.XFERFAIL] [.reg Reg.MG_LOGSTAT.DROPPED,
    .reg Reg.MG_ERR.LOGDROP, .reg Reg.FI_ARM.ARMED, .reg Reg.FI_ARM.DCAUSE, .reg Reg.FI_GF.EN, .reg Reg.FI_FL.EN,
    .reg Reg.FI_PCIE.EN, .reg Reg.FI_CNT.INJECTED]) s (enterDrain s) := by
  unfold enterDrain
  repeat' first
    | intro _
    | with_reducible assumption
    | with_reducible exact Only.refl _ _
    | (extract_lets +onlyGivenNames x; refine Only.cut x ?_ (fun _ => ?_); unfold x; clear x; rotate_left; clear_value x)
    | (extract_lets +onlyGivenNames x; refine Only.cut2 x ?_ (fun _ => ?_); unfold x; clear x; rotate_left; clear_value x)
    | (extract_lets +onlyGivenNames x; refine Only.cutF x ?_ (fun _ => ?_); unfold x; clear x; rotate_left; clear_value x)
    | (extract_lets +onlyGivenNames x; refine Only.cutG x ?_ (fun _ => ?_); unfold x; clear x; rotate_left; clear_value x)
    | (extract_lets +onlyGivenNames x; refine Only.cutG2 x ?_ (fun _ => ?_); unfold x; clear x; rotate_left; clear_value x)
    | (extract_lets +onlyGivenNames x; refine Only.cutG3 x ?_ (fun _ => ?_); unfold x; clear x; rotate_left; clear_value x)
    | (extract_lets +onlyGivenNames x; refine Only.cutH x ?_ (fun _ => ?_); unfold x; clear x; rotate_left; clear_value x)
    | (extract_lets +onlyGivenNames x; clear_value x)
    | with_reducible apply Only.ite
    | fail_if_no_progress (with_reducible apply Only.upd_gen_nand; decide +kernel; decide +kernel)
    | (with_reducible apply Only.step (flagOn_only ..); exact .of (by decide +kernel))
    | (with_reducible apply Only.step (sendCtrl_only ..); exact .of (by decide +kernel))
    | (with_reducible apply Only.step (killCmds_only ..); exact .of (by decide +kernel))
    | (with_reducible apply Only.step (enterMode_only ..); exact .of (by decide +kernel))
    | (with_reducible apply Only.step (abandonCopies_only ..); exact .of (by decide +kernel))
    | with_reducible apply_assumption -exfalso -symm
    | split
    | dsimp only

/-- What `powerFail` may change. -/
theorem powerFail_only (s : State) :
    Only [.out, .eff, .pins, .gen, .he, .ctl, .sh, .defFaults, .lost, .cmds, .nextCmd, .fs,
    .mx, .ns, .nsWait, .mm, .sp, .cs, .bp, .me, .gf, .tw, .dg, .mg, .fi, .nand, .prov, .win 0x80000 0x100000,
    .win 0x88000 0xF0000] s (powerFail s) := by
  unfold powerFail
  repeat' first
    | intro _
    | with_reducible assumption
    | with_reducible exact Only.refl _ _
    | (extract_lets +onlyGivenNames x; refine Only.cut x ?_ (fun _ => ?_); unfold x; clear x; rotate_left; clear_value x)
    | (extract_lets +onlyGivenNames x; refine Only.cut2 x ?_ (fun _ => ?_); unfold x; clear x; rotate_left; clear_value x)
    | (extract_lets +onlyGivenNames x; clear_value x)
    | with_reducible apply Only.ite
    | fail_if_no_progress (with_reducible apply Only.upd_pins_mg; decide +kernel; decide +kernel)
    | (with_reducible apply Only.step (y9Reset_only ..); exact .of (by decide +kernel))
    | (with_reducible apply Only.step (enterDrain_only ..); exact .of (by decide +kernel))
    | with_reducible apply_assumption -exfalso -symm
    | split
    | dsimp only

end Sys2Proof.Machine
end

