-- ==== Sys2Proof/Laws/FrameNsCore.lean ====
section
/-! SUPPORT. What each operation of Machine/NsCore.lean may change, as `Only` states it: one lemma an operation, which later proofs cite
instead of unfolding it. -/
namespace Sys2Proof.Machine
set_option Elab.async false
set_option linter.all false

/-- What `saveNs` may change. -/
theorem saveNs_only (nsid : Nat) (s : State) :
    Only [.prov] s (saveNs nsid s) := by
  unfold saveNs
  repeat' first
    | intro _
    | with_reducible assumption
    | with_reducible exact Only.refl _ _
    | fail_if_no_progress (with_reducible apply Only.upd_prov; decide +kernel)
    | with_reducible apply_assumption -exfalso -symm
    | split
    | dsimp only

/-- What `setNs` may change. -/
theorem setNs_only (nsid : Nat) (f : Ns → Ns) (s : State) :
    Only [.ns, .prov] s (setNs nsid f s) := by
  unfold setNs
  repeat' first
    | intro _
    | with_reducible assumption
    | with_reducible exact Only.refl _ _
    | (with_reducible apply Only.step (saveNs_only ..); exact .of (by decide +kernel))
    | (with_reducible apply Only.step (updNs_only ..); exact .of (by decide +kernel))
    | with_reducible apply_assumption -exfalso -symm
    | split
    | dsimp only

/-- What `dropKey` may change. -/
theorem dropKey_only (nsid : Nat) (s : State) :
    Only [.ff] s (dropKey nsid s) := by
  unfold dropKey
  repeat' first
    | intro _
    | with_reducible assumption
    | with_reducible exact Only.refl _ _
    | fail_if_no_progress (with_reducible apply Only.upd_ff; decide +kernel)
    | with_reducible apply_assumption -exfalso -symm
    | split
    | dsimp only

/-- What `wrapKey` may change. -/
theorem wrapKey_only (nsid : Nat) (s : State) :
    Only [.freeCtr, .ff] s (wrapKey nsid s) := by
  unfold wrapKey
  repeat' first
    | intro _
    | with_reducible assumption
    | with_reducible exact Only.refl _ _
    | fail_if_no_progress (with_reducible apply Only.upd_ff; decide +kernel)
    | (with_reducible apply Only.step (tickFree_only ..); exact .of (by decide +kernel))
    | with_reducible apply_assumption -exfalso -symm
    | split
    | dsimp only

/-- What `putKey` may change. -/
theorem putKey_only (nsid copies : Nat) (s : State) :
    Only [.freeCtr, .ff] s (putKey nsid copies s) := by
  unfold putKey
  repeat' first
    | intro _
    | with_reducible assumption
    | with_reducible exact Only.refl _ _
    | fail_if_no_progress (with_reducible apply Only.upd_ff; decide +kernel)
    | (with_reducible apply Only.step (wrapKey_only ..); exact .of (by decide +kernel))
    | with_reducible apply_assumption -exfalso -symm
    | split
    | dsimp only

/-- What `deallocAll` may change. -/
theorem deallocAll_only (nsid : Nat) (s : State) :
    Only [.mx] s (deallocAll nsid s) := by
  unfold deallocAll
  repeat' first
    | intro _
    | with_reducible assumption
    | with_reducible exact Only.refl _ _
    | fail_if_no_progress (with_reducible apply Only.upd_mx; decide +kernel)
    | with_reducible apply_assumption -exfalso -symm
    | split
    | dsimp only

/-- What `clearGrains` may change. -/
theorem clearGrains_only (nsid : Nat) (s : State) :
    Only [.mx, .bp] s (clearGrains nsid s) := by
  unfold clearGrains
  repeat' first
    | intro _
    | with_reducible assumption
    | with_reducible exact Only.refl _ _
    | (extract_lets +onlyGivenNames x; refine Only.cut x ?_ (fun _ => ?_); unfold x; clear x; rotate_left; clear_value x)
    | (extract_lets +onlyGivenNames x; refine Only.cut2 x ?_ (fun _ => ?_); unfold x; clear x; rotate_left; clear_value x)
    | (extract_lets +onlyGivenNames x; refine Only.cutF x ?_ (fun _ => ?_); unfold x; clear x; rotate_left; clear_value x)
    | (extract_lets +onlyGivenNames x; refine Only.cutG x ?_ (fun _ => ?_); unfold x; clear x; rotate_left; clear_value x)
    | (extract_lets +onlyGivenNames x; refine Only.cutG2 x ?_ (fun _ => ?_); unfold x; clear x; rotate_left; clear_value x)
    | (extract_lets +onlyGivenNames x; refine Only.cutG3 x ?_ (fun _ => ?_); unfold x; clear x; rotate_left; clear_value x)
    | (extract_lets +onlyGivenNames x; refine Only.cutH x ?_ (fun _ => ?_); unfold x; clear x; rotate_left; clear_value x)
    | (extract_lets +onlyGivenNames x; clear_value x)
    | fail_if_no_progress (with_reducible apply Only.upd_mx; decide +kernel)
    | (with_reducible apply Only.step (deallocAll_only ..); exact .of (by decide +kernel))
    | (with_reducible apply Only.step (releaseStaged_only ..); exact .of (by decide +kernel))
    | with_reducible refine Only.foldl (fun _ _ _ => ?_) ?_
    | with_reducible refine Only.foldl2 (fun _ _ _ => ?_) ?_
    | with_reducible apply_assumption -exfalso -symm
    | split
    | dsimp only

/-- What `deleteNs` may change. -/
theorem deleteNs_only (nsid : Nat) (s : State) :
    Only [.mx, .ns, .bp, .ff, .prov] s (deleteNs nsid s) := by
  unfold deleteNs
  repeat' first
    | intro _
    | with_reducible assumption
    | with_reducible exact Only.refl _ _
    | (extract_lets +onlyGivenNames x; refine Only.cut x ?_ (fun _ => ?_); unfold x; clear x; rotate_left; clear_value x)
    | (extract_lets +onlyGivenNames x; refine Only.cut2 x ?_ (fun _ => ?_); unfold x; clear x; rotate_left; clear_value x)
    | (extract_lets +onlyGivenNames x; refine Only.cutF x ?_ (fun _ => ?_); unfold x; clear x; rotate_left; clear_value x)
    | (extract_lets +onlyGivenNames x; refine Only.cutG x ?_ (fun _ => ?_); unfold x; clear x; rotate_left; clear_value x)
    | (extract_lets +onlyGivenNames x; refine Only.cutG2 x ?_ (fun _ => ?_); unfold x; clear x; rotate_left; clear_value x)
    | (extract_lets +onlyGivenNames x; refine Only.cutG3 x ?_ (fun _ => ?_); unfold x; clear x; rotate_left; clear_value x)
    | (extract_lets +onlyGivenNames x; refine Only.cutH x ?_ (fun _ => ?_); unfold x; clear x; rotate_left; clear_value x)
    | (extract_lets +onlyGivenNames x; clear_value x)
    | fail_if_no_progress (with_reducible apply Only.upd_ns; decide +kernel)
    | (with_reducible apply Only.step (saveNs_only ..); exact .of (by decide +kernel))
    | (with_reducible apply Only.step (dropKey_only ..); exact .of (by decide +kernel))
    | (with_reducible apply Only.step (clearGrains_only ..); exact .of (by decide +kernel))
    | (with_reducible apply Only.step (jAppend_only ..); exact .of (by decide +kernel))
    | with_reducible apply_assumption -exfalso -symm
    | split
    | dsimp only

/-- What `unsealNsNow` may change. -/
theorem unsealNsNow_only (nsid : Nat) (s : State) :
    Only [.ns, .prov] s (unsealNsNow nsid s) := by
  unfold unsealNsNow
  repeat' first
    | intro _
    | with_reducible assumption
    | with_reducible exact Only.refl _ _
    | (with_reducible apply Only.step (setNs_only ..); exact .of (by decide +kernel))
    | with_reducible apply_assumption -exfalso -symm
    | split
    | dsimp only

/-- What `updTw` may change. -/
theorem updTw_only (f : Tw → Tw) (s : State) :
    Only [.tw] s (updTw f s) := by
  unfold updTw
  repeat' first
    | intro _
    | with_reducible assumption
    | with_reducible exact Only.refl _ _
    | fail_if_no_progress (with_reducible apply Only.upd_tw; decide +kernel)
    | with_reducible apply_assumption -exfalso -symm
    | split
    | dsimp only

/-- What `updMig` may change. -/
theorem updMig_only (f : Mig → Mig) (s : State) :
    Only [.tw] s (updMig f s) := by
  unfold updMig
  repeat' first
    | intro _
    | with_reducible assumption
    | with_reducible exact Only.refl _ _
    | (with_reducible apply Only.step (updTw_only ..); exact .of (by decide +kernel))
    | with_reducible apply_assumption -exfalso -symm
    | split
    | dsimp only

/-- What `rowThirteen` may change. -/
theorem rowThirteen_only (s : State) :
    Only [.out, .gen, .he, .ctl, .fs, .mg, .fi, .prov, .reg Reg.QE_CQFULL.COUNT,
    .reg Reg.MG_LOGSTAT.DROPPED, .reg Reg.MG_ERR.LOGDROP, .reg Reg.FI_ARM.ARMED, .reg Reg.FI_ARM.DCAUSE, .reg Reg.FI_GF.EN,
    .reg Reg.FI_FL.EN, .reg Reg.FI_PCIE.EN] s (rowThirteen s) := by
  unfold rowThirteen
  repeat' first
    | intro _
    | with_reducible assumption
    | with_reducible exact Only.refl _ _
    | (with_reducible apply Only.step (enterMode_only ..); exact .of (by decide +kernel))
    | with_reducible apply_assumption -exfalso -symm
    | split
    | dsimp only

/-- What `coverCsn` may change. -/
theorem coverCsn_only (csn : Nat) (s : State) :
    Only [.mx, .mm, .nand, .reg Reg.MX_ERR.CEILHOLD] s (coverCsn csn s) := by
  unfold coverCsn
  repeat' first
    | intro _
    | with_reducible assumption
    | with_reducible exact Only.refl _ _
    | (extract_lets +onlyGivenNames x; refine Only.cut x ?_ (fun _ => ?_); unfold x; clear x; rotate_left; clear_value x)
    | (extract_lets +onlyGivenNames x; refine Only.cut2 x ?_ (fun _ => ?_); unfold x; clear x; rotate_left; clear_value x)
    | (extract_lets +onlyGivenNames x; clear_value x)
    | with_reducible apply Only.ite
    | fail_if_no_progress (with_reducible apply Only.upd_mx; decide +kernel)
    | (with_reducible apply Only.step (flagOn_only ..); exact .of (by decide +kernel))
    | (with_reducible apply Only.step (journalNow_only ..); exact .of (by decide +kernel))
    | (with_reducible apply Only.step (jAppend_only ..); exact .of (by decide +kernel))
    | with_reducible apply_assumption -exfalso -symm
    | split
    | dsimp only

/-- What `raiseCsn` may change. -/
theorem raiseCsn_only (csn : Nat) (s : State) :
    Only [.mx, .mm, .nand, .reg Reg.MX_ERR.CEILHOLD] s (raiseCsn csn s) := by
  unfold raiseCsn
  repeat' first
    | intro _
    | with_reducible assumption
    | with_reducible exact Only.refl _ _
    | (extract_lets +onlyGivenNames x; refine Only.cut x ?_ (fun _ => ?_); unfold x; clear x; rotate_left; clear_value x)
    | (extract_lets +onlyGivenNames x; refine Only.cut2 x ?_ (fun _ => ?_); unfold x; clear x; rotate_left; clear_value x)
    | (extract_lets +onlyGivenNames x; clear_value x)
    | with_reducible apply Only.ite
    | fail_if_no_progress (with_reducible apply Only.upd_mx; decide +kernel)
    | (with_reducible apply Only.step (coverCsn_only ..); exact .of (by decide +kernel))
    | with_reducible apply_assumption -exfalso -symm
    | split
    | dsimp only

/-- What `liftSeals` may change. -/
theorem liftSeals_only (s : State) :
    Only [.ns, .prov] s (liftSeals s) := by
  unfold liftSeals
  repeat' first
    | intro _
    | with_reducible assumption
    | with_reducible exact Only.refl _ _
    | (with_reducible apply Only.step (unsealNsNow_only ..); exact .of (by decide +kernel))
    | with_reducible refine Only.foldl (fun _ _ _ => ?_) ?_
    | with_reducible refine Only.foldl2 (fun _ _ _ => ?_) ?_
    | with_reducible apply_assumption -exfalso -symm
    | split
    | dsimp only

/-- What `deleteIngested` may change. -/
theorem deleteIngested_only (s : State) :
    Only [.mx, .ns, .bp, .ff, .prov] s (deleteIngested s) := by
  unfold deleteIngested
  repeat' first
    | intro _
    | with_reducible assumption
    | with_reducible exact Only.refl _ _
    | (with_reducible apply Only.step (deleteNs_only ..); exact .of (by decide +kernel))
    | with_reducible refine Only.foldl (fun _ _ _ => ?_) ?_
    | with_reducible refine Only.foldl2 (fun _ _ _ => ?_) ?_
    | with_reducible apply_assumption -exfalso -symm
    | split
    | dsimp only

/-- What `dropTransport` may change. -/
theorem dropTransport_only (s : State) :
    Only [.dg] s (dropTransport s) := by
  unfold dropTransport
  repeat' first
    | intro _
    | with_reducible assumption
    | with_reducible exact Only.refl _ _
    | with_reducible apply Only.ite
    | fail_if_no_progress (with_reducible apply Only.upd_dg; decide +kernel)
    | with_reducible apply_assumption -exfalso -symm
    | split
    | dsimp only

/-- What `raiseToOrigins` may change. -/
theorem raiseToOrigins_only (s : State) :
    Only [.mx, .mm, .nand, .reg Reg.MX_ERR.CEILHOLD] s (raiseToOrigins s) := by
  unfold raiseToOrigins
  repeat' first
    | intro _
    | with_reducible assumption
    | with_reducible exact Only.refl _ _
    | (with_reducible apply Only.step (raiseCsn_only ..); exact .of (by decide +kernel))
    | with_reducible apply_assumption -exfalso -symm
    | split
    | dsimp only

/-- What `abortSession` may change. -/
theorem abortSession_only (s : State) :
    Only [.out, .gen, .he, .ctl, .fs, .mx, .ns, .mm, .bp, .tw, .dg, .mg, .fi, .nand,
    .ff, .prov, .reg Reg.QE_CQFULL.COUNT, .reg Reg.MX_ERR.CEILHOLD, .reg Reg.MG_LOGSTAT.DROPPED, .reg Reg.MG_ERR.LOGDROP,
    .reg Reg.FI_ARM.ARMED, .reg Reg.FI_ARM.DCAUSE, .reg Reg.FI_GF.EN, .reg Reg.FI_FL.EN,
    .reg Reg.FI_PCIE.EN] s (abortSession s) := by
  unfold abortSession
  repeat' first
    | intro _
    | with_reducible assumption
    | with_reducible exact Only.refl _ _
    | (extract_lets +onlyGivenNames x; refine Only.cut x ?_ (fun _ => ?_); unfold x; clear x; rotate_left; clear_value x)
    | (extract_lets +onlyGivenNames x; refine Only.cut2 x ?_ (fun _ => ?_); unfold x; clear x; rotate_left; clear_value x)
    | (extract_lets +onlyGivenNames x; refine Only.cutF x ?_ (fun _ => ?_); unfold x; clear x; rotate_left; clear_value x)
    | (extract_lets +onlyGivenNames x; refine Only.cutG x ?_ (fun _ => ?_); unfold x; clear x; rotate_left; clear_value x)
    | (extract_lets +onlyGivenNames x; refine Only.cutG2 x ?_ (fun _ => ?_); unfold x; clear x; rotate_left; clear_value x)
    | (extract_lets +onlyGivenNames x; refine Only.cutG3 x ?_ (fun _ => ?_); unfold x; clear x; rotate_left; clear_value x)
    | (extract_lets +onlyGivenNames x; refine Only.cutH x ?_ (fun _ => ?_); unfold x; clear x; rotate_left; clear_value x)
    | (extract_lets +onlyGivenNames x; clear_value x)
    | with_reducible apply Only.ite
    | (with_reducible apply Only.step (dropTransport_only ..); exact .of (by decide +kernel))
    | (with_reducible apply Only.step (updMig_only ..); exact .of (by decide +kernel))
    | (with_reducible apply Only.step (deleteIngested_only ..); exact .of (by decide +kernel))
    | (with_reducible apply Only.step (raiseToOrigins_only ..); exact .of (by decide +kernel))
    | (with_reducible apply Only.step (evModeChanged_only ..); exact .of (by decide +kernel))
    | (with_reducible apply Only.step (rowThirteen_only ..); exact .of (by decide +kernel))
    | (with_reducible apply Only.step (evFabric_only ..); exact .of (by decide +kernel))
    | (with_reducible apply Only.step (liftSeals_only ..); exact .of (by decide +kernel))
    | with_reducible apply_assumption -exfalso -symm
    | split
    | dsimp only

/-- What `spareExhausted` may change. -/
theorem spareExhausted_only (resource : Nat) (s : State) :
    Only (List.append [.out, .gen, .he, .ctl, .sh, .fs, .mx, .ns,
    .mm, .bp, .gf, .tw, .dg, .mg, .fi, .nand, .ff, .prov, .reg Reg.HE_WINLOG.COUNT, .reg Reg.HE_WINLOG.CAUSE,
    .reg Reg.HE_WINLOG.PORT, .reg Reg.HE_WINLOGLO.OFFSET, .reg Reg.HE_WINLOGHI.OFFSET, .reg Reg.HE_WINLOGHI.RID,
    .reg Reg.QE_CQFULL.COUNT, .reg Reg.MX_ERR.CEILHOLD, .reg Reg.BP_ERRBUF.INDEX, .reg Reg.BP_ERRBUF.OWNER,
    .reg Reg.BP_ERRBUF.CAUSE, .reg Reg.BP_ERR.REVOKE] [.reg Reg.GF_XFER.FAILED, .reg Reg.GF_ERR.XFERFAIL,
    .reg Reg.MG_LOGSTAT.DROPPED, .reg Reg.MG_ERR.LOGDROP, .reg Reg.FI_ARM.ARMED, .reg Reg.FI_ARM.DCAUSE, .reg Reg.FI_GF.EN,
    .reg Reg.FI_FL.EN, .reg Reg.FI_PCIE.EN, .reg Reg.FI_CNT.INJECTED]) s (spareExhausted resource s) := by
  unfold spareExhausted
  repeat' first
    | intro _
    | with_reducible assumption
    | with_reducible exact Only.refl _ _
    | (extract_lets +onlyGivenNames x; refine Only.cut x ?_ (fun _ => ?_); unfold x; clear x; rotate_left; clear_value x)
    | (extract_lets +onlyGivenNames x; refine Only.cut2 x ?_ (fun _ => ?_); unfold x; clear x; rotate_left; clear_value x)
    | (extract_lets +onlyGivenNames x; clear_value x)
    | with_reducible apply Only.ite
    | fail_if_no_progress (with_reducible apply Only.upd_sh; decide +kernel)
    | (with_reducible apply Only.step (logEvent_only ..); exact .of (by decide +kernel))
    | (with_reducible apply Only.step (recordExhaustSeal_only ..); exact .of (by decide +kernel))
    | (with_reducible apply Only.step (vendorEvent_only ..); exact .of (by decide +kernel))
    | (with_reducible apply Only.step (enterModeEv_only ..); exact .of (by decide +kernel))
    | (with_reducible apply Only.step (enterMode_only ..); exact .of (by decide +kernel))
    | (with_reducible apply Only.step (abortSession_only ..); exact .of (by decide +kernel))
    | (with_reducible apply Only.step (sendCtrl_only ..); exact .of (by decide +kernel))
    | with_reducible apply_assumption -exfalso -symm
    | split
    | dsimp only

end Sys2Proof.Machine
end

