-- ==== Sys2Proof/Laws/FrameSpOps.lean ====
section
/-! SUPPORT. What each operation of Machine/SpOps.lean may change, as `Only` states it: one lemma an operation, which later proofs cite
instead of unfolding it. -/
namespace Sys2Proof.Machine
set_option Elab.async false
set_option linter.all false

/-- What `swapPlaced` may change. -/
theorem swapPlaced_only (p : Placed) (s : State) :
    Only [.mx, .mm, .nand] s (swapPlaced p s) := by
  unfold swapPlaced
  repeat' first
    | intro _
    | with_reducible assumption
    | with_reducible exact Only.refl _ _
    | (extract_lets +onlyGivenNames x; refine Only.cut x ?_ (fun _ => ?_); unfold x; clear x; rotate_left; clear_value x)
    | (extract_lets +onlyGivenNames x; refine Only.cut2 x ?_ (fun _ => ?_); unfold x; clear x; rotate_left; clear_value x)
    | (extract_lets +onlyGivenNames x; refine Only.cutF x ?_ (fun _ => ?_); unfold x; clear x; rotate_left; clear_value x)
    | (extract_lets +onlyGivenNames x; refine Only.cutG x ?_ (fun _ => ?_); unfold x; clear x; rotate_left; clear_value x)
    | (extract_lets +onlyGivenNames x; refine Only.cutP x ?_ (fun _ => ?_); unfold x; clear x; rotate_left; clear_value x)
    | (extract_lets +onlyGivenNames x; refine Only.cutG2 x ?_ (fun _ => ?_); unfold x; clear x; rotate_left; clear_value x)
    | (extract_lets +onlyGivenNames x; refine Only.cutG3 x ?_ (fun _ => ?_); unfold x; clear x; rotate_left; clear_value x)
    | (extract_lets +onlyGivenNames x; refine Only.cutH x ?_ (fun _ => ?_); unfold x; clear x; rotate_left; clear_value x)
    | (extract_lets +onlyGivenNames x; clear_value x)
    | fail_if_no_progress (with_reducible apply Only.upd_nand; decide +kernel)
    | fail_if_no_progress (with_reducible apply Only.upd_mm; decide +kernel)
    | (with_reducible apply Only.step (swapEntry_only ..); exact .of (by decide +kernel))
    | with_reducible apply_assumption -exfalso -symm
    | split
    | dsimp only

/-- What `finishRacking` may change. -/
theorem finishRacking_only (s : State) :
    Only [.mx, .mm] s (finishRacking s) := by
  unfold finishRacking
  repeat' first
    | intro _
    | with_reducible assumption
    | with_reducible exact Only.refl _ _
    | (extract_lets +onlyGivenNames x; refine Only.cut x ?_ (fun _ => ?_); unfold x; clear x; rotate_left; clear_value x)
    | (extract_lets +onlyGivenNames x; refine Only.cut2 x ?_ (fun _ => ?_); unfold x; clear x; rotate_left; clear_value x)
    | (extract_lets +onlyGivenNames x; refine Only.cutF x ?_ (fun _ => ?_); unfold x; clear x; rotate_left; clear_value x)
    | (extract_lets +onlyGivenNames x; refine Only.cutG x ?_ (fun _ => ?_); unfold x; clear x; rotate_left; clear_value x)
    | (extract_lets +onlyGivenNames x; refine Only.cutP x ?_ (fun _ => ?_); unfold x; clear x; rotate_left; clear_value x)
    | (extract_lets +onlyGivenNames x; refine Only.cutG2 x ?_ (fun _ => ?_); unfold x; clear x; rotate_left; clear_value x)
    | (extract_lets +onlyGivenNames x; refine Only.cutG3 x ?_ (fun _ => ?_); unfold x; clear x; rotate_left; clear_value x)
    | (extract_lets +onlyGivenNames x; refine Only.cutH x ?_ (fun _ => ?_); unfold x; clear x; rotate_left; clear_value x)
    | (extract_lets +onlyGivenNames x; clear_value x)
    | with_reducible apply Only.ite
    | fail_if_no_progress (with_reducible apply Only.upd_mm; decide +kernel)
    | (with_reducible apply Only.step (jAppend_only ..); exact .of (by decide +kernel))
    | with_reducible refine Only.foldl (fun _ _ _ => ?_) ?_
    | with_reducible refine Only.foldl2 (fun _ _ _ => ?_) ?_
    | with_reducible apply_assumption -exfalso -symm
    | split
    | dsimp only

/-- What `settleBarrel` may change. -/
theorem settleBarrel_only (closed : Bool) (b : OpenBarrel) (s : State) :
    Only [.mx, .mm,
    .nand] s (settleBarrel closed b s) := by
  unfold settleBarrel
  repeat' first
    | intro _
    | with_reducible assumption
    | with_reducible exact Only.refl _ _
    | (extract_lets +onlyGivenNames x; refine Only.cut x ?_ (fun _ => ?_); unfold x; clear x; rotate_left; clear_value x)
    | (extract_lets +onlyGivenNames x; refine Only.cut2 x ?_ (fun _ => ?_); unfold x; clear x; rotate_left; clear_value x)
    | (extract_lets +onlyGivenNames x; refine Only.cutF x ?_ (fun _ => ?_); unfold x; clear x; rotate_left; clear_value x)
    | (extract_lets +onlyGivenNames x; refine Only.cutG x ?_ (fun _ => ?_); unfold x; clear x; rotate_left; clear_value x)
    | (extract_lets +onlyGivenNames x; refine Only.cutG2 x ?_ (fun _ => ?_); unfold x; clear x; rotate_left; clear_value x)
    | (extract_lets +onlyGivenNames x; refine Only.cutG3 x ?_ (fun _ => ?_); unfold x; clear x; rotate_left; clear_value x)
    | (extract_lets +onlyGivenNames x; refine Only.cutH x ?_ (fun _ => ?_); unfold x; clear x; rotate_left; clear_value x)
    | (extract_lets +onlyGivenNames x; clear_value x)
    | with_reducible apply Only.ite
    | fail_if_no_progress (with_reducible apply Only.upd_mm; decide +kernel)
    | (with_reducible apply Only.step (swapPlaced_only ..); exact .of (by decide +kernel))
    | (with_reducible apply Only.step (finishRacking_only ..); exact .of (by decide +kernel))
    | with_reducible refine Only.foldl (fun _ _ _ => ?_) ?_
    | with_reducible refine Only.foldl2 (fun _ _ _ => ?_) ?_
    | with_reducible apply_assumption -exfalso -symm
    | split
    | dsimp only

/-- What `unqueueRows` may change. -/
theorem unqueueRows_only (rows : List Row) (s : State) :
    Only [.mx] s (unqueueRows rows s) := by
  unfold unqueueRows
  repeat' first
    | intro _
    | with_reducible assumption
    | with_reducible exact Only.refl _ _
    | (extract_lets +onlyGivenNames x; refine Only.cut x ?_ (fun _ => ?_); unfold x; clear x; rotate_left; clear_value x)
    | (extract_lets +onlyGivenNames x; refine Only.cut2 x ?_ (fun _ => ?_); unfold x; clear x; rotate_left; clear_value x)
    | (extract_lets +onlyGivenNames x; refine Only.cutF x ?_ (fun _ => ?_); unfold x; clear x; rotate_left; clear_value x)
    | (extract_lets +onlyGivenNames x; refine Only.cutG x ?_ (fun _ => ?_); unfold x; clear x; rotate_left; clear_value x)
    | (extract_lets +onlyGivenNames x; refine Only.cutG2 x ?_ (fun _ => ?_); unfold x; clear x; rotate_left; clear_value x)
    | (extract_lets +onlyGivenNames x; refine Only.cutG3 x ?_ (fun _ => ?_); unfold x; clear x; rotate_left; clear_value x)
    | (extract_lets +onlyGivenNames x; refine Only.cutH x ?_ (fun _ => ?_); unfold x; clear x; rotate_left; clear_value x)
    | (extract_lets +onlyGivenNames x; clear_value x)
    | with_reducible apply Only.ite
    | fail_if_no_progress (with_reducible apply Only.upd_mx; decide +kernel)
    | with_reducible apply_assumption -exfalso -symm
    | split
    | dsimp only

/-- What `closeShort` may change. -/
theorem closeShort_only (num : Nat) (s : State) :
    Only [.mx, .mm, .nand,
    .reg Reg.MM_ERR.SHORTCLOSE] s (closeShort num s) := by
  unfold closeShort
  repeat' first
    | intro _
    | with_reducible assumption
    | with_reducible exact Only.refl _ _
    | (extract_lets +onlyGivenNames x; refine Only.cut x ?_ (fun _ => ?_); unfold x; clear x; rotate_left; clear_value x)
    | (extract_lets +onlyGivenNames x; refine Only.cut2 x ?_ (fun _ => ?_); unfold x; clear x; rotate_left; clear_value x)
    | (extract_lets +onlyGivenNames x; refine Only.cutF x ?_ (fun _ => ?_); unfold x; clear x; rotate_left; clear_value x)
    | (extract_lets +onlyGivenNames x; refine Only.cutG x ?_ (fun _ => ?_); unfold x; clear x; rotate_left; clear_value x)
    | (extract_lets +onlyGivenNames x; refine Only.cutG2 x ?_ (fun _ => ?_); unfold x; clear x; rotate_left; clear_value x)
    | (extract_lets +onlyGivenNames x; refine Only.cutG3 x ?_ (fun _ => ?_); unfold x; clear x; rotate_left; clear_value x)
    | (extract_lets +onlyGivenNames x; refine Only.cutH x ?_ (fun _ => ?_); unfold x; clear x; rotate_left; clear_value x)
    | (extract_lets +onlyGivenNames x; clear_value x)
    | fail_if_no_progress (with_reducible apply Only.upd_mm; decide +kernel)
    | (with_reducible apply Only.step (flagOn_only ..); exact .of (by decide +kernel))
    | (with_reducible apply Only.step (unqueueRows_only ..); exact .of (by decide +kernel))
    | (with_reducible apply Only.step (settleBarrel_only ..); exact .of (by decide +kernel))
    | (with_reducible apply Only.step (jAppend_only ..); exact .of (by decide +kernel))
    | with_reducible apply_assumption -exfalso -symm
    | split
    | dsimp only

/-- What `stopGroup` may change. -/
theorem stopGroup_only (g : Nat) (s : State) :
    Only [.mx, .mm, .nand, .reg Reg.MM_ERR.SHORTCLOSE] s (stopGroup g s) := by
  unfold stopGroup
  repeat' first
    | intro _
    | with_reducible assumption
    | with_reducible exact Only.refl _ _
    | (extract_lets +onlyGivenNames x; refine Only.cut x ?_ (fun _ => ?_); unfold x; clear x; rotate_left; clear_value x)
    | (extract_lets +onlyGivenNames x; refine Only.cut2 x ?_ (fun _ => ?_); unfold x; clear x; rotate_left; clear_value x)
    | (extract_lets +onlyGivenNames x; refine Only.cutF x ?_ (fun _ => ?_); unfold x; clear x; rotate_left; clear_value x)
    | (extract_lets +onlyGivenNames x; refine Only.cutG x ?_ (fun _ => ?_); unfold x; clear x; rotate_left; clear_value x)
    | (extract_lets +onlyGivenNames x; refine Only.cutG2 x ?_ (fun _ => ?_); unfold x; clear x; rotate_left; clear_value x)
    | (extract_lets +onlyGivenNames x; refine Only.cutG3 x ?_ (fun _ => ?_); unfold x; clear x; rotate_left; clear_value x)
    | (extract_lets +onlyGivenNames x; refine Only.cutH x ?_ (fun _ => ?_); unfold x; clear x; rotate_left; clear_value x)
    | (extract_lets +onlyGivenNames x; clear_value x)
    | with_reducible apply Only.ite
    | fail_if_no_progress (with_reducible apply Only.upd_mm; decide +kernel)
    | (with_reducible apply Only.step (unqueueRows_only ..); exact .of (by decide +kernel))
    | (with_reducible apply Only.step (closeShort_only ..); exact .of (by decide +kernel))
    | with_reducible apply_assumption -exfalso -symm
    | split
    | dsimp only

/-- What `loseStored` may change. -/
theorem loseStored_only (nsid grain cause : Nat) (s : State) :
    Only [.out, .he, .ctl, .sh, .lost, .fs, .mx, .bp, .gf, .tw,
    .mg, .fi, .reg Reg.HE_WINLOG.COUNT, .reg Reg.HE_WINLOG.CAUSE, .reg Reg.HE_WINLOG.PORT, .reg Reg.HE_WINLOGLO.OFFSET,
    .reg Reg.HE_WINLOGHI.OFFSET, .reg Reg.HE_WINLOGHI.RID, .reg Reg.QE_CQFULL.COUNT, .reg Reg.BP_ERRBUF.INDEX,
    .reg Reg.BP_ERRBUF.OWNER, .reg Reg.BP_ERRBUF.CAUSE, .reg Reg.BP_ERR.REVOKE, .reg Reg.GF_XFER.FAILED,
    .reg Reg.GF_ERR.XFERFAIL, .reg Reg.MG_LOGSTAT.DROPPED, .reg Reg.MG_ERR.LOGDROP,
    .reg Reg.FI_CNT.INJECTED] s (loseStored nsid grain cause s) := by
  unfold loseStored
  repeat' first
    | intro _
    | with_reducible assumption
    | with_reducible exact Only.refl _ _
    | (extract_lets +onlyGivenNames x; refine Only.cut x ?_ (fun _ => ?_); unfold x; clear x; rotate_left; clear_value x)
    | (extract_lets +onlyGivenNames x; refine Only.cut2 x ?_ (fun _ => ?_); unfold x; clear x; rotate_left; clear_value x)
    | (extract_lets +onlyGivenNames x; clear_value x)
    | (with_reducible apply Only.step (askRepair_only ..); exact .of (by decide +kernel))
    | (with_reducible apply Only.step (markLost_only ..); exact .of (by decide +kernel))
    | with_reducible apply_assumption -exfalso -symm
    | split
    | dsimp only

/-- What `threeMissing` may change. -/
theorem threeMissing_only (grains : List (Nat × Nat)) (s : State) :
    Only [.out, .he, .ctl, .sh, .lost, .fs, .mx, .bp, .gf,
    .tw, .mg, .fi, .reg Reg.HE_WINLOG.COUNT, .reg Reg.HE_WINLOG.CAUSE, .reg Reg.HE_WINLOG.PORT, .reg Reg.HE_WINLOGLO.OFFSET,
    .reg Reg.HE_WINLOGHI.OFFSET, .reg Reg.HE_WINLOGHI.RID, .reg Reg.QE_CQFULL.COUNT, .reg Reg.SP_LOSTCNT.POSITIONS,
    .reg Reg.SP_ERR.THREEMISS, .reg Reg.BP_ERRBUF.INDEX, .reg Reg.BP_ERRBUF.OWNER, .reg Reg.BP_ERRBUF.CAUSE,
    .reg Reg.BP_ERR.REVOKE, .reg Reg.GF_XFER.FAILED, .reg Reg.GF_ERR.XFERFAIL, .reg Reg.MG_LOGSTAT.DROPPED,
    .reg Reg.MG_ERR.LOGDROP, .reg Reg.FI_CNT.INJECTED] s (threeMissing grains s) := by
  unfold threeMissing
  repeat' first
    | intro _
    | with_reducible assumption
    | with_reducible exact Only.refl _ _
    | (extract_lets +onlyGivenNames x; refine Only.cut x ?_ (fun _ => ?_); unfold x; clear x; rotate_left; clear_value x)
    | (extract_lets +onlyGivenNames x; refine Only.cut2 x ?_ (fun _ => ?_); unfold x; clear x; rotate_left; clear_value x)
    | (extract_lets +onlyGivenNames x; refine Only.cutF x ?_ (fun _ => ?_); unfold x; clear x; rotate_left; clear_value x)
    | (extract_lets +onlyGivenNames x; refine Only.cutG x ?_ (fun _ => ?_); unfold x; clear x; rotate_left; clear_value x)
    | (extract_lets +onlyGivenNames x; refine Only.cutP x ?_ (fun _ => ?_); unfold x; clear x; rotate_left; clear_value x)
    | (extract_lets +onlyGivenNames x; refine Only.cutG2 x ?_ (fun _ => ?_); unfold x; clear x; rotate_left; clear_value x)
    | (extract_lets +onlyGivenNames x; refine Only.cutG3 x ?_ (fun _ => ?_); unfold x; clear x; rotate_left; clear_value x)
    | (extract_lets +onlyGivenNames x; refine Only.cutH x ?_ (fun _ => ?_); unfold x; clear x; rotate_left; clear_value x)
    | (extract_lets +onlyGivenNames x; clear_value x)
    | with_reducible apply Only.ite
    | (with_reducible apply Only.step (flagOn_only ..); exact .of (by decide +kernel))
    | (with_reducible apply Only.step (bump_only ..); exact .of (by decide +kernel))
    | (with_reducible apply Only.step (loseStored_only ..); exact .of (by decide +kernel))
    | with_reducible refine Only.foldl (fun _ _ _ => ?_) ?_
    | with_reducible refine Only.foldl2 (fun _ _ _ => ?_) ?_
    | with_reducible apply_assumption -exfalso -symm
    | split
    | dsimp only

/-- What `assignSpare` may change. -/
theorem assignSpare_only (g : Group) (pos : Nat) (s : State) :
    Only [.out, .he, .ctl, .fs, .sp, .mg, .fi,
    .reg Reg.QE_CQFULL.COUNT, .reg Reg.SP_ERR.NOSPARE, .reg Reg.MG_LOGSTAT.DROPPED, .reg Reg.MG_ERR.LOGDROP,
    .reg Reg.FI_ARM.ARMED, .reg Reg.FI_ARM.DCAUSE, .reg Reg.FI_GF.EN, .reg Reg.FI_FL.EN, .reg Reg.FI_PCIE.EN,
    .reg Reg.FI_ERR.REALFAULT] s (assignSpare g pos s) := by
  unfold assignSpare
  repeat' first
    | intro _
    | with_reducible assumption
    | with_reducible exact Only.refl _ _
    | (extract_lets +onlyGivenNames x; refine Only.cut x ?_ (fun _ => ?_); unfold x; clear x; rotate_left; clear_value x)
    | (extract_lets +onlyGivenNames x; refine Only.cut2 x ?_ (fun _ => ?_); unfold x; clear x; rotate_left; clear_value x)
    | (extract_lets +onlyGivenNames x; refine Only.cutF x ?_ (fun _ => ?_); unfold x; clear x; rotate_left; clear_value x)
    | (extract_lets +onlyGivenNames x; refine Only.cutG x ?_ (fun _ => ?_); unfold x; clear x; rotate_left; clear_value x)
    | (extract_lets +onlyGivenNames x; refine Only.cutG2 x ?_ (fun _ => ?_); unfold x; clear x; rotate_left; clear_value x)
    | (extract_lets +onlyGivenNames x; refine Only.cutG3 x ?_ (fun _ => ?_); unfold x; clear x; rotate_left; clear_value x)
    | (extract_lets +onlyGivenNames x; refine Only.cutH x ?_ (fun _ => ?_); unfold x; clear x; rotate_left; clear_value x)
    | (extract_lets +onlyGivenNames x; clear_value x)
    | with_reducible apply Only.ite
    | fail_if_no_progress (with_reducible apply Only.upd_sp; decide +kernel)
    | (with_reducible apply Only.step (flagOn_only ..); exact .of (by decide +kernel))
    | (with_reducible apply Only.step (spareIn_only ..); exact .of (by decide +kernel))
    | (with_reducible apply Only.step (updGroup_only ..); exact .of (by decide +kernel))
    | with_reducible apply_assumption -exfalso -symm
    | split
    | dsimp only

/-- What `assignSpares` may change. -/
theorem assignSpares_only (s : State) :
    Only [.out, .he, .ctl, .fs, .sp, .mg, .fi, .reg Reg.QE_CQFULL.COUNT,
    .reg Reg.SP_ERR.NOSPARE, .reg Reg.MG_LOGSTAT.DROPPED, .reg Reg.MG_ERR.LOGDROP, .reg Reg.FI_ARM.ARMED,
    .reg Reg.FI_ARM.DCAUSE, .reg Reg.FI_GF.EN, .reg Reg.FI_FL.EN, .reg Reg.FI_PCIE.EN,
    .reg Reg.FI_ERR.REALFAULT] s (assignSpares s) := by
  unfold assignSpares
  repeat' first
    | intro _
    | with_reducible assumption
    | with_reducible exact Only.refl _ _
    | with_reducible apply Only.ite
    | (with_reducible apply Only.step (assignSpare_only ..); exact .of (by decide +kernel))
    | with_reducible refine Only.foldl (fun _ _ _ => ?_) ?_
    | with_reducible refine Only.foldl2 (fun _ _ _ => ?_) ?_
    | with_reducible apply_assumption -exfalso -symm
    | split
    | dsimp only

/-- What `checkWaiting` may change. -/
theorem checkWaiting_only (s : State) :
    Only (List.append [.out, .gen, .he, .ctl, .sh, .fs, .mx, .ns, .mm, .bp, .gf, .tw,
    .dg, .mg, .fi, .nand, .ff, .prov, .reg Reg.HE_WINLOG.COUNT, .reg Reg.HE_WINLOG.CAUSE, .reg Reg.HE_WINLOG.PORT,
    .reg Reg.HE_WINLOGLO.OFFSET, .reg Reg.HE_WINLOGHI.OFFSET, .reg Reg.HE_WINLOGHI.RID, .reg Reg.QE_CQFULL.COUNT,
    .reg Reg.MX_ERR.CEILHOLD, .reg Reg.BP_ERRBUF.INDEX, .reg Reg.BP_ERRBUF.OWNER, .reg Reg.BP_ERRBUF.CAUSE,
    .reg Reg.BP_ERR.REVOKE] [.reg Reg.GF_XFER.FAILED, .reg Reg.GF_ERR.XFERFAIL, .reg Reg.MG_LOGSTAT.DROPPED,
    .reg Reg.MG_ERR.LOGDROP, .reg Reg.FI_ARM.ARMED, .reg Reg.FI_ARM.DCAUSE, .reg Reg.FI_GF.EN, .reg Reg.FI_FL.EN,
    .reg Reg.FI_PCIE.EN, .reg Reg.FI_CNT.INJECTED]) s (checkWaiting s) := by
  unfold checkWaiting
  repeat' first
    | intro _
    | with_reducible assumption
    | with_reducible exact Only.refl _ _
    | (extract_lets +onlyGivenNames x; refine Only.cut x ?_ (fun _ => ?_); unfold x; clear x; rotate_left; clear_value x)
    | (extract_lets +onlyGivenNames x; refine Only.cut2 x ?_ (fun _ => ?_); unfold x; clear x; rotate_left; clear_value x)
    | (extract_lets +onlyGivenNames x; refine Only.cutF x ?_ (fun _ => ?_); unfold x; clear x; rotate_left; clear_value x)
    | (extract_lets +onlyGivenNames x; refine Only.cutG x ?_ (fun _ => ?_); unfold x; clear x; rotate_left; clear_value x)
    | (extract_lets +onlyGivenNames x; refine Only.cutG2 x ?_ (fun _ => ?_); unfold x; clear x; rotate_left; clear_value x)
    | (extract_lets +onlyGivenNames x; refine Only.cutG3 x ?_ (fun _ => ?_); unfold x; clear x; rotate_left; clear_value x)
    | (extract_lets +onlyGivenNames x; refine Only.cutH x ?_ (fun _ => ?_); unfold x; clear x; rotate_left; clear_value x)
    | (extract_lets +onlyGivenNames x; clear_value x)
    | with_reducible apply Only.ite
    | (with_reducible apply Only.step (spareExhausted_only ..); exact .of (by decide +kernel))
    | with_reducible apply_assumption -exfalso -symm
    | split
    | dsimp only

/-- What `loseGroup` may change. -/
theorem loseGroup_only (g : Group) (s : State) :
    Only [.out, .he, .ctl, .sh, .lost, .fs, .mx, .bp, .gf, .tw, .mg, .fi,
    .reg Reg.HE_WINLOG.COUNT, .reg Reg.HE_WINLOG.CAUSE, .reg Reg.HE_WINLOG.PORT, .reg Reg.HE_WINLOGLO.OFFSET,
    .reg Reg.HE_WINLOGHI.OFFSET, .reg Reg.HE_WINLOGHI.RID, .reg Reg.QE_CQFULL.COUNT, .reg Reg.SP_LOSTCNT.POSITIONS,
    .reg Reg.SP_ERR.THREEMISS, .reg Reg.BP_ERRBUF.INDEX, .reg Reg.BP_ERRBUF.OWNER, .reg Reg.BP_ERRBUF.CAUSE,
    .reg Reg.BP_ERR.REVOKE, .reg Reg.GF_XFER.FAILED, .reg Reg.GF_ERR.XFERFAIL, .reg Reg.MG_LOGSTAT.DROPPED,
    .reg Reg.MG_ERR.LOGDROP, .reg Reg.FI_CNT.INJECTED] s (loseGroup g s) := by
  unfold loseGroup
  repeat' first
    | intro _
    | with_reducible assumption
    | with_reducible exact Only.refl _ _
    | (extract_lets +onlyGivenNames x; refine Only.cut x ?_ (fun _ => ?_); unfold x; clear x; rotate_left; clear_value x)
    | (extract_lets +onlyGivenNames x; refine Only.cut2 x ?_ (fun _ => ?_); unfold x; clear x; rotate_left; clear_value x)
    | (extract_lets +onlyGivenNames x; refine Only.cutF x ?_ (fun _ => ?_); unfold x; clear x; rotate_left; clear_value x)
    | (extract_lets +onlyGivenNames x; refine Only.cutG x ?_ (fun _ => ?_); unfold x; clear x; rotate_left; clear_value x)
    | (extract_lets +onlyGivenNames x; refine Only.cutP x ?_ (fun _ => ?_); unfold x; clear x; rotate_left; clear_value x)
    | (extract_lets +onlyGivenNames x; refine Only.cutG2 x ?_ (fun _ => ?_); unfold x; clear x; rotate_left; clear_value x)
    | (extract_lets +onlyGivenNames x; refine Only.cutG3 x ?_ (fun _ => ?_); unfold x; clear x; rotate_left; clear_value x)
    | (extract_lets +onlyGivenNames x; refine Only.cutH x ?_ (fun _ => ?_); unfold x; clear x; rotate_left; clear_value x)
    | (extract_lets +onlyGivenNames x; clear_value x)
    | (with_reducible apply Only.step (threeMissing_only ..); exact .of (by decide +kernel))
    | with_reducible apply_assumption -exfalso -symm
    | split
    | dsimp only

/-- What `vatCopiesGone` may change. -/
theorem vatCopiesGone_only (g : Group) (pos : Nat) (s : State) :
    Only [.nand] s (vatCopiesGone g pos s) := by
  unfold vatCopiesGone
  repeat' first
    | intro _
    | with_reducible assumption
    | with_reducible exact Only.refl _ _
    | (extract_lets +onlyGivenNames x; refine Only.cut x ?_ (fun _ => ?_); unfold x; clear x; rotate_left; clear_value x)
    | (extract_lets +onlyGivenNames x; refine Only.cut2 x ?_ (fun _ => ?_); unfold x; clear x; rotate_left; clear_value x)
    | (extract_lets +onlyGivenNames x; refine Only.cutF x ?_ (fun _ => ?_); unfold x; clear x; rotate_left; clear_value x)
    | (extract_lets +onlyGivenNames x; refine Only.cutG x ?_ (fun _ => ?_); unfold x; clear x; rotate_left; clear_value x)
    | (extract_lets +onlyGivenNames x; refine Only.cutG2 x ?_ (fun _ => ?_); unfold x; clear x; rotate_left; clear_value x)
    | (extract_lets +onlyGivenNames x; refine Only.cutG3 x ?_ (fun _ => ?_); unfold x; clear x; rotate_left; clear_value x)
    | (extract_lets +onlyGivenNames x; refine Only.cutH x ?_ (fun _ => ?_); unfold x; clear x; rotate_left; clear_value x)
    | (extract_lets +onlyGivenNames x; clear_value x)
    | with_reducible apply Only.ite
    | fail_if_no_progress (with_reducible apply Only.upd_nand; decide +kernel)
    | with_reducible apply_assumption -exfalso -symm
    | split
    | dsimp only

/-- What `memberMissing` may change. -/
theorem memberMissing_only (g : Group) (pos : Nat) (s : State) :
    Only (List.append [.out, .he, .ctl, .sh, .lost, .fs, .mx,
    .mm, .sp, .bp, .gf, .tw, .mg, .fi, .nand, .reg Reg.HE_WINLOG.COUNT, .reg Reg.HE_WINLOG.CAUSE, .reg Reg.HE_WINLOG.PORT,
    .reg Reg.HE_WINLOGLO.OFFSET, .reg Reg.HE_WINLOGHI.OFFSET, .reg Reg.HE_WINLOGHI.RID, .reg Reg.QE_CQFULL.COUNT,
    .reg Reg.MM_ERR.SHORTCLOSE, .reg Reg.SP_LOSTCNT.POSITIONS, .reg Reg.SP_ERR.THREEMISS, .reg Reg.BP_ERRBUF.INDEX,
    .reg Reg.BP_ERRBUF.OWNER, .reg Reg.BP_ERRBUF.CAUSE, .reg Reg.BP_ERR.REVOKE,
    .reg Reg.GF_XFER.FAILED] [.reg Reg.GF_ERR.XFERFAIL, .reg Reg.MG_LOGSTAT.DROPPED, .reg Reg.MG_ERR.LOGDROP,
    .reg Reg.FI_CNT.INJECTED]) s (memberMissing g pos s) := by
  unfold memberMissing
  repeat' first
    | intro _
    | with_reducible assumption
    | with_reducible exact Only.refl _ _
    | (extract_lets +onlyGivenNames x; refine Only.cut x ?_ (fun _ => ?_); unfold x; clear x; rotate_left; clear_value x)
    | (extract_lets +onlyGivenNames x; refine Only.cut2 x ?_ (fun _ => ?_); unfold x; clear x; rotate_left; clear_value x)
    | (extract_lets +onlyGivenNames x; refine Only.cutF x ?_ (fun _ => ?_); unfold x; clear x; rotate_left; clear_value x)
    | (extract_lets +onlyGivenNames x; refine Only.cutG x ?_ (fun _ => ?_); unfold x; clear x; rotate_left; clear_value x)
    | (extract_lets +onlyGivenNames x; refine Only.cutG2 x ?_ (fun _ => ?_); unfold x; clear x; rotate_left; clear_value x)
    | (extract_lets +onlyGivenNames x; refine Only.cutG3 x ?_ (fun _ => ?_); unfold x; clear x; rotate_left; clear_value x)
    | (extract_lets +onlyGivenNames x; refine Only.cutH x ?_ (fun _ => ?_); unfold x; clear x; rotate_left; clear_value x)
    | (extract_lets +onlyGivenNames x; clear_value x)
    | with_reducible apply Only.ite
    | (with_reducible apply Only.step (updGroup_only ..); exact .of (by decide +kernel))
    | (with_reducible apply Only.step (stopGroup_only ..); exact .of (by decide +kernel))
    | (with_reducible apply Only.step (vatCopiesGone_only ..); exact .of (by decide +kernel))
    | (with_reducible apply Only.step (loseGroup_only ..); exact .of (by decide +kernel))
    | with_reducible apply_assumption -exfalso -symm
    | split
    | dsimp only

/-- What `dieOut` may change. -/
theorem dieOut_only (d : Nat) (s : State) :
    Only (List.append [.out, .he, .ctl, .sh, .lost, .fs, .mx, .mm, .sp, .bp, .gf,
    .tw, .mg, .fi, .nand, .reg Reg.HE_WINLOG.COUNT, .reg Reg.HE_WINLOG.CAUSE, .reg Reg.HE_WINLOG.PORT,
    .reg Reg.HE_WINLOGLO.OFFSET, .reg Reg.HE_WINLOGHI.OFFSET, .reg Reg.HE_WINLOGHI.RID, .reg Reg.QE_CQFULL.COUNT,
    .reg Reg.MM_ERR.SHORTCLOSE, .reg Reg.SP_LOSTCNT.POSITIONS, .reg Reg.SP_ERR.THREEMISS, .reg Reg.SP_ERR.SPAREFAIL,
    .reg Reg.BP_ERRBUF.INDEX, .reg Reg.BP_ERRBUF.OWNER, .reg Reg.BP_ERRBUF.CAUSE,
    .reg Reg.BP_ERR.REVOKE] [.reg Reg.GF_XFER.FAILED, .reg Reg.GF_ERR.XFERFAIL, .reg Reg.MG_LOGSTAT.DROPPED,
    .reg Reg.MG_ERR.LOGDROP, .reg Reg.FI_CNT.INJECTED]) s (dieOut d s) := by
  unfold dieOut
  repeat' first
    | intro _
    | with_reducible assumption
    | with_reducible exact Only.refl _ _
    | (extract_lets +onlyGivenNames x; refine Only.cut x ?_ (fun _ => ?_); unfold x; clear x; rotate_left; clear_value x)
    | (extract_lets +onlyGivenNames x; refine Only.cut2 x ?_ (fun _ => ?_); unfold x; clear x; rotate_left; clear_value x)
    | (extract_lets +onlyGivenNames x; refine Only.cutF x ?_ (fun _ => ?_); unfold x; clear x; rotate_left; clear_value x)
    | (extract_lets +onlyGivenNames x; refine Only.cutG x ?_ (fun _ => ?_); unfold x; clear x; rotate_left; clear_value x)
    | (extract_lets +onlyGivenNames x; refine Only.cutG2 x ?_ (fun _ => ?_); unfold x; clear x; rotate_left; clear_value x)
    | (extract_lets +onlyGivenNames x; refine Only.cutG3 x ?_ (fun _ => ?_); unfold x; clear x; rotate_left; clear_value x)
    | (extract_lets +onlyGivenNames x; refine Only.cutH x ?_ (fun _ => ?_); unfold x; clear x; rotate_left; clear_value x)
    | (extract_lets +onlyGivenNames x; clear_value x)
    | with_reducible apply Only.ite
    | fail_if_no_progress (with_reducible apply Only.upd_sp; decide +kernel)
    | (with_reducible apply Only.step (flagOn_only ..); exact .of (by decide +kernel))
    | (with_reducible apply Only.step (memberMissing_only ..); exact .of (by decide +kernel))
    | with_reducible apply_assumption -exfalso -symm
    | split
    | dsimp only

/-- What `chanOut` may change. -/
theorem chanOut_only (c : Nat) (s : State) :
    Only (List.append [.out, .he, .ctl, .sh, .lost, .fs, .mx, .mm, .sp, .cs, .bp,
    .gf, .tw, .mg, .fi, .nand, .reg Reg.HE_WINLOG.COUNT, .reg Reg.HE_WINLOG.CAUSE, .reg Reg.HE_WINLOG.PORT,
    .reg Reg.HE_WINLOGLO.OFFSET, .reg Reg.HE_WINLOGHI.OFFSET, .reg Reg.HE_WINLOGHI.RID, .reg Reg.QE_CQFULL.COUNT,
    .reg Reg.MM_ERR.SHORTCLOSE, .reg Reg.SP_LOSTCNT.POSITIONS, .reg Reg.SP_ERR.THREEMISS, .reg Reg.SP_ERR.SPAREFAIL,
    .reg Reg.BP_ERRBUF.INDEX, .reg Reg.BP_ERRBUF.OWNER, .reg Reg.BP_ERRBUF.CAUSE] [.reg Reg.BP_ERR.REVOKE,
    .reg Reg.GF_XFER.FAILED, .reg Reg.GF_ERR.XFERFAIL, .reg Reg.MG_LOGSTAT.DROPPED, .reg Reg.MG_ERR.LOGDROP,
    .reg Reg.FI_CNT.INJECTED]) s (chanOut c s) := by
  unfold chanOut
  repeat' first
    | intro _
    | with_reducible assumption
    | with_reducible exact Only.refl _ _
    | (extract_lets +onlyGivenNames x; refine Only.cut x ?_ (fun _ => ?_); unfold x; clear x; rotate_left; clear_value x)
    | (extract_lets +onlyGivenNames x; refine Only.cut2 x ?_ (fun _ => ?_); unfold x; clear x; rotate_left; clear_value x)
    | (extract_lets +onlyGivenNames x; refine Only.cutF x ?_ (fun _ => ?_); unfold x; clear x; rotate_left; clear_value x)
    | (extract_lets +onlyGivenNames x; refine Only.cutG x ?_ (fun _ => ?_); unfold x; clear x; rotate_left; clear_value x)
    | (extract_lets +onlyGivenNames x; refine Only.cutG2 x ?_ (fun _ => ?_); unfold x; clear x; rotate_left; clear_value x)
    | (extract_lets +onlyGivenNames x; refine Only.cutG3 x ?_ (fun _ => ?_); unfold x; clear x; rotate_left; clear_value x)
    | (extract_lets +onlyGivenNames x; refine Only.cutH x ?_ (fun _ => ?_); unfold x; clear x; rotate_left; clear_value x)
    | (extract_lets +onlyGivenNames x; clear_value x)
    | with_reducible apply Only.ite
    | fail_if_no_progress (with_reducible apply Only.upd_sp_cs; decide +kernel; decide +kernel)
    | (with_reducible apply Only.step (dieOut_only ..); exact .of (by decide +kernel))
    | with_reducible refine Only.foldl (fun _ _ _ => ?_) ?_
    | with_reducible refine Only.foldl2 (fun _ _ _ => ?_) ?_
    | with_reducible apply_assumption -exfalso -symm
    | split
    | dsimp only

/-- What `declareDieFailed` may change. -/
theorem declareDieFailed_only (d : Nat) (s : State) :
    Only (List.append [.out, .gen, .he, .ctl, .sh, .lost, .fs, .mx, .ns,
    .mm, .sp, .cs, .bp, .gf, .tw, .dg, .mg, .fi, .nand, .ff, .prov, .reg Reg.HE_WINLOG.COUNT, .reg Reg.HE_WINLOG.CAUSE,
    .reg Reg.HE_WINLOG.PORT, .reg Reg.HE_WINLOGLO.OFFSET, .reg Reg.HE_WINLOGHI.OFFSET, .reg Reg.HE_WINLOGHI.RID,
    .reg Reg.QE_CQFULL.COUNT, .reg Reg.MX_ERR.CEILHOLD, .reg Reg.MM_ERR.SHORTCLOSE] [.reg Reg.SP_LOSTCNT.POSITIONS,
    .reg Reg.SP_ERR.NOSPARE, .reg Reg.SP_ERR.THREEMISS, .reg Reg.SP_ERR.SPAREFAIL, .reg Reg.BP_ERRBUF.INDEX,
    .reg Reg.BP_ERRBUF.OWNER, .reg Reg.BP_ERRBUF.CAUSE, .reg Reg.BP_ERR.REVOKE, .reg Reg.GF_XFER.FAILED,
    .reg Reg.GF_ERR.XFERFAIL, .reg Reg.MG_LOGSTAT.DROPPED, .reg Reg.MG_ERR.LOGDROP, .reg Reg.FI_ARM.ARMED,
    .reg Reg.FI_ARM.DCAUSE, .reg Reg.FI_GF.EN, .reg Reg.FI_FL.EN, .reg Reg.FI_PCIE.EN, .reg Reg.FI_CNT.INJECTED,
    .reg Reg.FI_ERR.REALFAULT]) s (declareDieFailed d s) := by
  unfold declareDieFailed
  repeat' first
    | intro _
    | with_reducible assumption
    | with_reducible exact Only.refl _ _
    | (extract_lets +onlyGivenNames x; refine Only.cut x ?_ (fun _ => ?_); unfold x; clear x; rotate_left; clear_value x)
    | (extract_lets +onlyGivenNames x; refine Only.cut2 x ?_ (fun _ => ?_); unfold x; clear x; rotate_left; clear_value x)
    | (extract_lets +onlyGivenNames x; refine Only.cutF x ?_ (fun _ => ?_); unfold x; clear x; rotate_left; clear_value x)
    | (extract_lets +onlyGivenNames x; refine Only.cutG x ?_ (fun _ => ?_); unfold x; clear x; rotate_left; clear_value x)
    | (extract_lets +onlyGivenNames x; refine Only.cutG2 x ?_ (fun _ => ?_); unfold x; clear x; rotate_left; clear_value x)
    | (extract_lets +onlyGivenNames x; refine Only.cutG3 x ?_ (fun _ => ?_); unfold x; clear x; rotate_left; clear_value x)
    | (extract_lets +onlyGivenNames x; refine Only.cutH x ?_ (fun _ => ?_); unfold x; clear x; rotate_left; clear_value x)
    | (extract_lets +onlyGivenNames x; clear_value x)
    | with_reducible apply Only.ite
    | (with_reducible apply Only.step (fiRealFault_only ..); exact .of (by decide +kernel))
    | (with_reducible apply Only.step (dieOut_only ..); exact .of (by decide +kernel))
    | (with_reducible apply Only.step (chanOut_only ..); exact .of (by decide +kernel))
    | (with_reducible apply Only.step (checkWaiting_only ..); exact .of (by decide +kernel))
    | (with_reducible apply Only.step (assignSpares_only ..); exact .of (by decide +kernel))
    | with_reducible apply_assumption -exfalso -symm
    | split
    | dsimp only

/-- What `declareChannelFailed` may change. -/
theorem declareChannelFailed_only (c : Nat) (s : State) :
    Only (List.append [.out, .gen, .he, .ctl, .sh, .lost, .fs, .mx,
    .ns, .mm, .sp, .cs, .bp, .gf, .tw, .dg, .mg, .fi, .nand, .ff, .prov, .reg Reg.HE_WINLOG.COUNT, .reg Reg.HE_WINLOG.CAUSE,
    .reg Reg.HE_WINLOG.PORT, .reg Reg.HE_WINLOGLO.OFFSET, .reg Reg.HE_WINLOGHI.OFFSET, .reg Reg.HE_WINLOGHI.RID,
    .reg Reg.QE_CQFULL.COUNT, .reg Reg.MX_ERR.CEILHOLD, .reg Reg.MM_ERR.SHORTCLOSE] [.reg Reg.SP_LOSTCNT.POSITIONS,
    .reg Reg.SP_ERR.NOSPARE, .reg Reg.SP_ERR.THREEMISS, .reg Reg.SP_ERR.SPAREFAIL, .reg Reg.BP_ERRBUF.INDEX,
    .reg Reg.BP_ERRBUF.OWNER, .reg Reg.BP_ERRBUF.CAUSE, .reg Reg.BP_ERR.REVOKE, .reg Reg.GF_XFER.FAILED,
    .reg Reg.GF_ERR.XFERFAIL, .reg Reg.MG_LOGSTAT.DROPPED, .reg Reg.MG_ERR.LOGDROP, .reg Reg.FI_ARM.ARMED,
    .reg Reg.FI_ARM.DCAUSE, .reg Reg.FI_GF.EN, .reg Reg.FI_FL.EN, .reg Reg.FI_PCIE.EN, .reg Reg.FI_CNT.INJECTED,
    .reg Reg.FI_ERR.REALFAULT]) s (declareChannelFailed c s) := by
  unfold declareChannelFailed
  repeat' first
    | intro _
    | with_reducible assumption
    | with_reducible exact Only.refl _ _
    | (with_reducible apply Only.step (checkWaiting_only ..); exact .of (by decide +kernel))
    | (with_reducible apply Only.step (assignSpares_only ..); exact .of (by decide +kernel))
    | (with_reducible apply Only.step (fiRealFault_only ..); exact .of (by decide +kernel))
    | (with_reducible apply Only.step (chanOut_only ..); exact .of (by decide +kernel))
    | with_reducible apply_assumption -exfalso -symm
    | split
    | dsimp only

/-- What `replaceBlock` may change. -/
theorem replaceBlock_only (d b : Nat) (s : State) :
    Only [.mx, .mm, .sp, .nand,
    .reg Reg.MM_ERR.ROWWD] s (replaceBlock d b s) := by
  unfold replaceBlock
  repeat' first
    | intro _
    | with_reducible assumption
    | with_reducible exact Only.refl _ _
    | (extract_lets +onlyGivenNames x; refine Only.cut x ?_ (fun _ => ?_); unfold x; clear x; rotate_left; clear_value x)
    | (extract_lets +onlyGivenNames x; refine Only.cut2 x ?_ (fun _ => ?_); unfold x; clear x; rotate_left; clear_value x)
    | (extract_lets +onlyGivenNames x; refine Only.cutF x ?_ (fun _ => ?_); unfold x; clear x; rotate_left; clear_value x)
    | (extract_lets +onlyGivenNames x; refine Only.cutG x ?_ (fun _ => ?_); unfold x; clear x; rotate_left; clear_value x)
    | (extract_lets +onlyGivenNames x; refine Only.cutG2 x ?_ (fun _ => ?_); unfold x; clear x; rotate_left; clear_value x)
    | (extract_lets +onlyGivenNames x; refine Only.cutG3 x ?_ (fun _ => ?_); unfold x; clear x; rotate_left; clear_value x)
    | (extract_lets +onlyGivenNames x; refine Only.cutH x ?_ (fun _ => ?_); unfold x; clear x; rotate_left; clear_value x)
    | (extract_lets +onlyGivenNames x; clear_value x)
    | fail_if_no_progress (with_reducible apply Only.upd_mm; decide +kernel)
    | (with_reducible apply Only.step (flagOn_only ..); exact .of (by decide +kernel))
    | (with_reducible apply Only.step (rewriteSysPages_only ..); exact .of (by decide +kernel))
    | (with_reducible apply Only.step (putPair_only ..); exact .of (by decide +kernel))
    | (with_reducible apply Only.step (updGroup_only ..); exact .of (by decide +kernel))
    | with_reducible apply_assumption -exfalso -symm
    | split
    | dsimp only

/-- What `retireBlock` may change. -/
theorem retireBlock_only (d b cause : Nat) (s : State) :
    Only (List.append [.out, .gen, .he, .ctl, .sh, .lost, .fs, .mx,
    .ns, .mm, .sp, .cs, .bp, .gf, .tw, .dg, .mg, .fi, .nand, .ff, .prov, .reg Reg.HE_WINLOG.COUNT, .reg Reg.HE_WINLOG.CAUSE,
    .reg Reg.HE_WINLOG.PORT, .reg Reg.HE_WINLOGLO.OFFSET, .reg Reg.HE_WINLOGHI.OFFSET, .reg Reg.HE_WINLOGHI.RID,
    .reg Reg.QE_CQFULL.COUNT, .reg Reg.MX_ERR.CEILHOLD, .reg Reg.MM_RETIRE.COUNT] [.reg Reg.MM_RETLAST.DIE,
    .reg Reg.MM_RETLAST.BLOCK, .reg Reg.MM_RETLAST.CAUSE, .reg Reg.MM_ERR.SHORTCLOSE, .reg Reg.MM_ERR.ROWWD,
    .reg Reg.SP_LOSTCNT.POSITIONS, .reg Reg.SP_ERR.NOSPARE, .reg Reg.SP_ERR.THREEMISS, .reg Reg.SP_ERR.SPAREFAIL,
    .reg Reg.BP_ERRBUF.INDEX, .reg Reg.BP_ERRBUF.OWNER, .reg Reg.BP_ERRBUF.CAUSE, .reg Reg.BP_ERR.REVOKE,
    .reg Reg.GF_XFER.FAILED, .reg Reg.GF_ERR.XFERFAIL, .reg Reg.MG_LOGSTAT.DROPPED, .reg Reg.MG_ERR.LOGDROP,
    .reg Reg.FI_ARM.ARMED, .reg Reg.FI_ARM.DCAUSE, .reg Reg.FI_GF.EN, .reg Reg.FI_FL.EN, .reg Reg.FI_PCIE.EN,
    .reg Reg.FI_CNT.INJECTED, .reg Reg.FI_ERR.REALFAULT]) s (retireBlock d b cause s) := by
  unfold retireBlock
  repeat' first
    | intro _
    | with_reducible assumption
    | with_reducible exact Only.refl _ _
    | (extract_lets +onlyGivenNames x; refine Only.cut x ?_ (fun _ => ?_); unfold x; clear x; rotate_left; clear_value x)
    | (extract_lets +onlyGivenNames x; refine Only.cut2 x ?_ (fun _ => ?_); unfold x; clear x; rotate_left; clear_value x)
    | (extract_lets +onlyGivenNames x; refine Only.cutF x ?_ (fun _ => ?_); unfold x; clear x; rotate_left; clear_value x)
    | (extract_lets +onlyGivenNames x; refine Only.cutG x ?_ (fun _ => ?_); unfold x; clear x; rotate_left; clear_value x)
    | (extract_lets +onlyGivenNames x; refine Only.cutP x ?_ (fun _ => ?_); unfold x; clear x; rotate_left; clear_value x)
    | (extract_lets +onlyGivenNames x; refine Only.cutG2 x ?_ (fun _ => ?_); unfold x; clear x; rotate_left; clear_value x)
    | (extract_lets +onlyGivenNames x; refine Only.cutG3 x ?_ (fun _ => ?_); unfold x; clear x; rotate_left; clear_value x)
    | (extract_lets +onlyGivenNames x; refine Only.cutH x ?_ (fun _ => ?_); unfold x; clear x; rotate_left; clear_value x)
    | (extract_lets +onlyGivenNames x; clear_value x)
    | with_reducible apply Only.ite
    | fail_if_no_progress (with_reducible apply Only.upd_mm; decide +kernel)
    | (with_reducible apply Only.step (setF_only ..); exact .of (by decide +kernel))
    | (with_reducible apply Only.step (bump_only ..); exact .of (by decide +kernel))
    | (with_reducible apply Only.step (updBlk_only ..); exact .of (by decide +kernel))
    | (with_reducible apply Only.step (replaceBlock_only ..); exact .of (by decide +kernel))
    | (with_reducible apply Only.step (declareDieFailed_only ..); exact .of (by decide +kernel))
    | (with_reducible apply Only.step (spareExhausted_only ..); exact .of (by decide +kernel))
    | with_reducible apply_assumption -exfalso -symm
    | split
    | dsimp only

/-- What `wantRefresh` may change. -/
theorem wantRefresh_only (d b : Nat) (s : State) :
    Only [.mx, .mm] s (wantRefresh d b s) := by
  unfold wantRefresh
  repeat' first
    | intro _
    | with_reducible assumption
    | with_reducible exact Only.refl _ _
    | (with_reducible apply Only.step (updBlk_only ..); exact .of (by decide +kernel))
    | with_reducible apply_assumption -exfalso -symm
    | split
    | dsimp only

/-- What `countRead` may change. -/
theorem countRead_only (d b : Nat) (slc : Bool) (s : State) :
    Only [.mx, .mm] s (countRead d b slc s) := by
  unfold countRead
  repeat' first
    | intro _
    | with_reducible assumption
    | with_reducible exact Only.refl _ _
    | (extract_lets +onlyGivenNames x; refine Only.cut x ?_ (fun _ => ?_); unfold x; clear x; rotate_left; clear_value x)
    | (extract_lets +onlyGivenNames x; refine Only.cut2 x ?_ (fun _ => ?_); unfold x; clear x; rotate_left; clear_value x)
    | (extract_lets +onlyGivenNames x; refine Only.cutF x ?_ (fun _ => ?_); unfold x; clear x; rotate_left; clear_value x)
    | (extract_lets +onlyGivenNames x; refine Only.cutG x ?_ (fun _ => ?_); unfold x; clear x; rotate_left; clear_value x)
    | (extract_lets +onlyGivenNames x; refine Only.cutG2 x ?_ (fun _ => ?_); unfold x; clear x; rotate_left; clear_value x)
    | (extract_lets +onlyGivenNames x; refine Only.cutG3 x ?_ (fun _ => ?_); unfold x; clear x; rotate_left; clear_value x)
    | (extract_lets +onlyGivenNames x; refine Only.cutH x ?_ (fun _ => ?_); unfold x; clear x; rotate_left; clear_value x)
    | (extract_lets +onlyGivenNames x; clear_value x)
    | with_reducible apply Only.ite
    | (with_reducible apply Only.step (updBlk_only ..); exact .of (by decide +kernel))
    | (with_reducible apply Only.step (wantRefresh_only ..); exact .of (by decide +kernel))
    | with_reducible apply_assumption -exfalso -symm
    | split
    | dsimp only

/-- What `countReads` may change. -/
theorem countReads_only (d b n : Nat) (slc : Bool) (s : State) :
    Only [.mx, .mm] s (countReads d b n slc s) := by
  unfold countReads
  repeat' first
    | intro _
    | with_reducible assumption
    | with_reducible exact Only.refl _ _
    | (extract_lets +onlyGivenNames x; refine Only.cut x ?_ (fun _ => ?_); unfold x; clear x; rotate_left; clear_value x)
    | (extract_lets +onlyGivenNames x; refine Only.cut2 x ?_ (fun _ => ?_); unfold x; clear x; rotate_left; clear_value x)
    | (extract_lets +onlyGivenNames x; refine Only.cutF x ?_ (fun _ => ?_); unfold x; clear x; rotate_left; clear_value x)
    | (extract_lets +onlyGivenNames x; refine Only.cutG x ?_ (fun _ => ?_); unfold x; clear x; rotate_left; clear_value x)
    | (extract_lets +onlyGivenNames x; refine Only.cutG2 x ?_ (fun _ => ?_); unfold x; clear x; rotate_left; clear_value x)
    | (extract_lets +onlyGivenNames x; refine Only.cutG3 x ?_ (fun _ => ?_); unfold x; clear x; rotate_left; clear_value x)
    | (extract_lets +onlyGivenNames x; refine Only.cutH x ?_ (fun _ => ?_); unfold x; clear x; rotate_left; clear_value x)
    | (extract_lets +onlyGivenNames x; clear_value x)
    | with_reducible apply Only.ite
    | (with_reducible apply Only.step (updBlk_only ..); exact .of (by decide +kernel))
    | (with_reducible apply Only.step (wantRefresh_only ..); exact .of (by decide +kernel))
    | with_reducible apply_assumption -exfalso -symm
    | split
    | dsimp only

/-- What `countEntries` may change. -/
theorem countEntries_only (es : List MapEntry) (s : State) :
    Only [.mx, .mm] s (countEntries es s) := by
  unfold countEntries
  repeat' first
    | intro _
    | with_reducible assumption
    | with_reducible exact Only.refl _ _
    | (extract_lets +onlyGivenNames x; refine Only.cut x ?_ (fun _ => ?_); unfold x; clear x; rotate_left; clear_value x)
    | (extract_lets +onlyGivenNames x; refine Only.cut2 x ?_ (fun _ => ?_); unfold x; clear x; rotate_left; clear_value x)
    | (extract_lets +onlyGivenNames x; refine Only.cutF x ?_ (fun _ => ?_); unfold x; clear x; rotate_left; clear_value x)
    | (extract_lets +onlyGivenNames x; refine Only.cutG x ?_ (fun _ => ?_); unfold x; clear x; rotate_left; clear_value x)
    | (extract_lets +onlyGivenNames x; refine Only.cutP x ?_ (fun _ => ?_); unfold x; clear x; rotate_left; clear_value x)
    | (extract_lets +onlyGivenNames x; refine Only.cutG2 x ?_ (fun _ => ?_); unfold x; clear x; rotate_left; clear_value x)
    | (extract_lets +onlyGivenNames x; refine Only.cutG3 x ?_ (fun _ => ?_); unfold x; clear x; rotate_left; clear_value x)
    | (extract_lets +onlyGivenNames x; refine Only.cutH x ?_ (fun _ => ?_); unfold x; clear x; rotate_left; clear_value x)
    | (extract_lets +onlyGivenNames x; clear_value x)
    | (with_reducible apply Only.step (countRead_only ..); exact .of (by decide +kernel))
    | with_reducible refine Only.foldl (fun _ _ _ => ?_) ?_
    | with_reducible refine Only.foldl2 (fun _ _ _ => ?_) ?_
    | with_reducible apply_assumption -exfalso -symm
    | split
    | dsimp only

/-- What `startErase` may change. -/
theorem startErase_only (d b : Nat) (s : State) :
    Only [.mx, .mm] s (startErase d b s) := by
  unfold startErase
  repeat' first
    | intro _
    | with_reducible assumption
    | with_reducible exact Only.refl _ _
    | fail_if_no_progress (with_reducible apply Only.upd_mm; decide +kernel)
    | (with_reducible apply Only.step (jAppend_only ..); exact .of (by decide +kernel))
    | with_reducible apply_assumption -exfalso -symm
    | split
    | dsimp only

/-- What `resumeErases` may change. -/
theorem resumeErases_only (s : State) :
    Only [.mx, .mm] s (resumeErases s) := by
  unfold resumeErases
  repeat' first
    | intro _
    | with_reducible assumption
    | with_reducible exact Only.refl _ _
    | (extract_lets +onlyGivenNames x; refine Only.cut x ?_ (fun _ => ?_); unfold x; clear x; rotate_left; clear_value x)
    | (extract_lets +onlyGivenNames x; refine Only.cut2 x ?_ (fun _ => ?_); unfold x; clear x; rotate_left; clear_value x)
    | (extract_lets +onlyGivenNames x; refine Only.cutF x ?_ (fun _ => ?_); unfold x; clear x; rotate_left; clear_value x)
    | (extract_lets +onlyGivenNames x; refine Only.cutG x ?_ (fun _ => ?_); unfold x; clear x; rotate_left; clear_value x)
    | (extract_lets +onlyGivenNames x; refine Only.cutP x ?_ (fun _ => ?_); unfold x; clear x; rotate_left; clear_value x)
    | (extract_lets +onlyGivenNames x; refine Only.cutG2 x ?_ (fun _ => ?_); unfold x; clear x; rotate_left; clear_value x)
    | (extract_lets +onlyGivenNames x; refine Only.cutG3 x ?_ (fun _ => ?_); unfold x; clear x; rotate_left; clear_value x)
    | (extract_lets +onlyGivenNames x; refine Only.cutH x ?_ (fun _ => ?_); unfold x; clear x; rotate_left; clear_value x)
    | (extract_lets +onlyGivenNames x; clear_value x)
    | (with_reducible apply Only.step (startErase_only ..); exact .of (by decide +kernel))
    | with_reducible refine Only.foldl (fun _ _ _ => ?_) ?_
    | with_reducible refine Only.foldl2 (fun _ _ _ => ?_) ?_
    | with_reducible apply_assumption -exfalso -symm
    | split
    | dsimp only

end Sys2Proof.Machine
end

