-- ==== Sys2Proof/Laws/FrameStartup.lean ====
section
/-! SUPPORT. What each operation of Machine/Startup.lean may change, as `Only` states it: one lemma an operation, which later proofs cite
instead of unfolding it. -/
namespace Sys2Proof.Machine
set_option Elab.async false
set_option linter.all false

/-- What `bootFailed` may change. -/
theorem bootFailed_only (code : Nat) (s : State) :
    Only [.reg Reg.DG_SEC.BOOTFAIL,
    .reg Reg.DG_ERR.BOOTFAIL] s (bootFailed code s) := by
  unfold bootFailed
  repeat' first
    | intro _
    | with_reducible assumption
    | with_reducible exact Only.refl _ _
    | (with_reducible apply Only.step (setF_only ..); exact .of (by decide +kernel))
    | (with_reducible apply Only.step (flagOn_only ..); exact .of (by decide +kernel))
    | with_reducible apply_assumption -exfalso -symm
    | split
    | dsimp only

/-- What `redoSectors` may change. -/
theorem redoSectors_only (s : State) :
    Only [.ff, .reg Reg.FF_WEAR.HALFERASED] s (redoSectors s) := by
  unfold redoSectors
  repeat' first
    | intro _
    | with_reducible assumption
    | with_reducible exact Only.refl _ _
    | (extract_lets +onlyGivenNames x; refine Only.cut x ?_ (fun _ => ?_); unfold x; clear x; rotate_left; clear_value x)
    | (extract_lets +onlyGivenNames x; refine Only.cut2 x ?_ (fun _ => ?_); unfold x; clear x; rotate_left; clear_value x)
    | (extract_lets +onlyGivenNames x; refine Only.cutF x ?_ (fun _ => ?_); unfold x; clear x; rotate_left; clear_value x)
    | (extract_lets +onlyGivenNames x; refine Only.cutG x ?_ (fun _ => ?_); unfold x; clear x; rotate_left; clear_value x)
    | (extract_lets +onlyGivenNames x; refine Only.cutP x ?_ (fun _ => ?_); unfold x; clear x; rotate_left; clear_value x)
    | (extract_lets +onlyGivenNames x; refine Only.cutG2 x ?_ (fun _ => ?_); unfold x; clear x; rotate_left; clear_value x)
    | (extract_lets +onlyGivenNames x; refine Only.cutG3 x ?_ (fun _ => ?_); unfold x; clear x; rotate_left; clear_value x)
    | (extract_lets +onlyGivenNames x; refine Only.cutH x ?_ (fun _ => ?_); unfold x; clear x; rotate_left; clear_value x)
    | (extract_lets +onlyGivenNames x; clear_value x)
    | with_reducible apply Only.ite
    | fail_if_no_progress (with_reducible apply Only.upd_ff; decide +kernel)
    | (with_reducible apply Only.step (setSat_only ..); exact .of (by decide +kernel))
    | with_reducible refine Only.foldl (fun _ _ _ => ?_) ?_
    | with_reducible refine Only.foldl2 (fun _ _ _ => ?_) ?_
    | with_reducible apply_assumption -exfalso -symm
    | split
    | dsimp only

/-- What `bootImageVerifyEff` may change. -/
theorem bootImageVerifyEff_only (slot1 slot2 : SlotImage) (s : State) :
    Only [.gen, .dg, .mg, .ff,
    .reg Reg.GEN_START.BOOTBLK, .reg Reg.DG_SEC.BOOTFAIL, .reg Reg.DG_RNG.HEALTH, .reg Reg.DG_RNG.RESEEDS,
    .reg Reg.DG_ERR.BOOTFAIL, .reg Reg.MG_STAT.RUN, .reg Reg.MG_STAT.SLOT,
    .reg Reg.FF_WEAR.HALFERASED] s (bootImageVerifyEff slot1 slot2 s) := by
  unfold bootImageVerifyEff
  repeat' first
    | intro _
    | with_reducible assumption
    | with_reducible exact Only.refl _ _
    | (extract_lets +onlyGivenNames x; refine Only.cut x ?_ (fun _ => ?_); unfold x; clear x; rotate_left; clear_value x)
    | (extract_lets +onlyGivenNames x; refine Only.cut2 x ?_ (fun _ => ?_); unfold x; clear x; rotate_left; clear_value x)
    | (extract_lets +onlyGivenNames x; refine Only.cutF x ?_ (fun _ => ?_); unfold x; clear x; rotate_left; clear_value x)
    | (extract_lets +onlyGivenNames x; refine Only.cutG x ?_ (fun _ => ?_); unfold x; clear x; rotate_left; clear_value x)
    | (extract_lets +onlyGivenNames x; refine Only.cutG2 x ?_ (fun _ => ?_); unfold x; clear x; rotate_left; clear_value x)
    | (extract_lets +onlyGivenNames x; refine Only.cutG3 x ?_ (fun _ => ?_); unfold x; clear x; rotate_left; clear_value x)
    | (extract_lets +onlyGivenNames x; refine Only.cutH x ?_ (fun _ => ?_); unfold x; clear x; rotate_left; clear_value x)
    | (extract_lets +onlyGivenNames x; clear_value x)
    | with_reducible apply Only.ite
    | fail_if_no_progress (with_reducible apply Only.upd_ff; decide +kernel)
    | fail_if_no_progress (with_reducible apply Only.upd_gen_dg_mg; decide +kernel; decide +kernel; decide +kernel)
    | fail_if_no_progress (with_reducible apply Only.upd_gen; decide +kernel)
    | (with_reducible apply Only.step (setF_only ..); exact .of (by decide +kernel))
    | (with_reducible apply Only.step (flagOn_only ..); exact .of (by decide +kernel))
    | (with_reducible apply Only.step (bump_only ..); exact .of (by decide +kernel))
    | (with_reducible apply Only.step (redoSectors_only ..); exact .of (by decide +kernel))
    | (with_reducible apply Only.step (bootFailed_only ..); exact .of (by decide +kernel))
    | with_reducible apply_assumption -exfalso -symm
    | split
    | dsimp only

/-- What `execBootImageVerify` may change. -/
theorem execBootImageVerify_only (slot1 slot2 : SlotImage) (s : State) :
    ∃ t,
    execBootImageVerify slot1 slot2 s = .next t ∧ Only [.gen, .dg, .mg, .ff, .reg Reg.GEN_START.BOOTBLK,
    .reg Reg.DG_SEC.BOOTFAIL, .reg Reg.DG_RNG.HEALTH, .reg Reg.DG_RNG.RESEEDS, .reg Reg.DG_ERR.BOOTFAIL, .reg Reg.MG_STAT.RUN,
    .reg Reg.MG_STAT.SLOT, .reg Reg.FF_WEAR.HALFERASED] s t := by
  unfold execBootImageVerify
  refine ⟨_, rfl, ?_⟩
  repeat' first
    | intro _
    | with_reducible assumption
    | with_reducible exact Only.refl _ _
    | (with_reducible apply Only.step (bootImageVerifyEff_only ..); exact .of (by decide +kernel))
    | with_reducible apply_assumption -exfalso -symm
    | split
    | dsimp only

/-- What `floodHello` may change. -/
theorem floodHello_only (s : State) :
    Only [.out] s (floodHello s) := by
  unfold floodHello
  repeat' first
    | intro _
    | with_reducible assumption
    | with_reducible exact Only.refl _ _
    | with_reducible apply Only.ite
    | (with_reducible apply Only.step (emit_only ..); exact .of (by decide +kernel))
    | with_reducible refine Only.foldl (fun _ _ _ => ?_) ?_
    | with_reducible refine Only.foldl2 (fun _ _ _ => ?_) ?_
    | with_reducible apply_assumption -exfalso -symm
    | split
    | dsimp only

/-- What `startDiscovery` may change. -/
theorem startDiscovery_only (s : State) :
    Only [.out, .gf, .reg Reg.GF_DISC.COUNT] s (startDiscovery s) := by
  unfold startDiscovery
  repeat' first
    | intro _
    | with_reducible assumption
    | with_reducible exact Only.refl _ _
    | fail_if_no_progress (with_reducible apply Only.upd_gf; decide +kernel)
    | (with_reducible apply Only.step (bump_only ..); exact .of (by decide +kernel))
    | (with_reducible apply Only.step (floodHello_only ..); exact .of (by decide +kernel))
    | with_reducible apply_assumption -exfalso -symm
    | split
    | dsimp only

/-- What `hostIslandReleaseEff` may change. -/
theorem hostIslandReleaseEff_only (s : State) :
    Only [.out, .pins, .gen, .gf, .mg,
    .reg Reg.GF_DISC.COUNT] s (hostIslandReleaseEff s) := by
  unfold hostIslandReleaseEff
  repeat' first
    | intro _
    | with_reducible assumption
    | with_reducible exact Only.refl _ _
    | (extract_lets +onlyGivenNames x; refine Only.cut x ?_ (fun _ => ?_); unfold x; clear x; rotate_left; clear_value x)
    | (extract_lets +onlyGivenNames x; refine Only.cut2 x ?_ (fun _ => ?_); unfold x; clear x; rotate_left; clear_value x)
    | (extract_lets +onlyGivenNames x; clear_value x)
    | with_reducible apply Only.ite
    | fail_if_no_progress (with_reducible apply Only.upd_gen; decide +kernel)
    | fail_if_no_progress (with_reducible apply Only.upd_pins_mg; decide +kernel; decide +kernel)
    | (with_reducible apply Only.step (startDiscovery_only ..); exact .of (by decide +kernel))
    | with_reducible apply_assumption -exfalso -symm
    | split
    | dsimp only

/-- What `execHostIslandRelease` may change. -/
theorem execHostIslandRelease_only (s : State) :
    ∃ t, execHostIslandRelease s = .next t ∧ Only [.out, .pins, .gen, .gf, .mg,
    .reg Reg.GF_DISC.COUNT] s t := by
  unfold execHostIslandRelease
  refine ⟨_, rfl, ?_⟩
  repeat' first
    | intro _
    | with_reducible assumption
    | with_reducible exact Only.refl _ _
    | (with_reducible apply Only.step (hostIslandReleaseEff_only ..); exact .of (by decide +kernel))
    | with_reducible apply_assumption -exfalso -symm
    | split
    | dsimp only

/-- What `dramTrainingEff` may change. -/
theorem dramTrainingEff_only (sizeGiB : Nat) (trained : BitVec 8) (hpprFails : List Nat) (s : State) :
    Only [.me,
    .reg Reg.ME_REPAIR.HPPR] s (dramTrainingEff sizeGiB trained hpprFails s) := by
  unfold dramTrainingEff
  repeat' first
    | intro _
    | with_reducible assumption
    | with_reducible exact Only.refl _ _
    | with_reducible apply Only.ite
    | fail_if_no_progress (with_reducible apply Only.upd_me; decide +kernel)
    | (with_reducible apply Only.step (setF_only ..); exact .of (by decide +kernel))
    | with_reducible apply_assumption -exfalso -symm
    | split
    | dsimp only

/-- What `execDramTraining` may change. -/
theorem execDramTraining_only (sizeGiB : Nat) (trained : BitVec 8) (hpprFails : List Nat) (s : State) :
    ∃ t,
    execDramTraining sizeGiB trained hpprFails s = .next t ∧ Only [.me, .reg Reg.ME_REPAIR.HPPR] s t := by
  unfold execDramTraining
  refine ⟨_, rfl, ?_⟩
  repeat' first
    | intro _
    | with_reducible assumption
    | with_reducible exact Only.refl _ _
    | (with_reducible apply Only.step (dramTrainingEff_only ..); exact .of (by decide +kernel))
    | with_reducible apply_assumption -exfalso -symm
    | split
    | dsimp only

/-- What `setIface` may change. -/
theorem setIface_only (d : Nat) (m : DieIface) (s : State) :
    Only [.nand] s (setIface d m s) := by
  unfold setIface
  repeat' first
    | intro _
    | with_reducible assumption
    | with_reducible exact Only.refl _ _
    | with_reducible apply Only.ite
    | fail_if_no_progress (with_reducible apply Only.upd_nand; decide +kernel)
    | with_reducible apply_assumption -exfalso -symm
    | split
    | dsimp only

/-- What `extendedRate` may change. -/
theorem extendedRate_only (d : Nat) (on : Bool) (s : State) :
    Only [.out, .nand] s (extendedRate d on s) := by
  unfold extendedRate
  repeat' first
    | intro _
    | with_reducible assumption
    | with_reducible exact Only.refl _ _
    | with_reducible apply Only.ite
    | (with_reducible apply Only.step (emit_only ..); exact .of (by decide +kernel))
    | (with_reducible apply Only.step (setIface_only ..); exact .of (by decide +kernel))
    | with_reducible apply_assumption -exfalso -symm
    | split
    | dsimp only

/-- What `dieReset` may change. -/
theorem dieReset_only (d : Nat) (s : State) :
    Only [.nand] s (dieReset d s) := by
  unfold dieReset
  repeat' first
    | intro _
    | with_reducible assumption
    | with_reducible exact Only.refl _ _
    | with_reducible apply Only.ite
    | (with_reducible apply Only.step (setIface_only ..); exact .of (by decide +kernel))
    | with_reducible apply_assumption -exfalso -symm
    | split
    | dsimp only

/-- What `toSdr` may change. -/
theorem toSdr_only (d : Nat) (s : State) :
    Only [.out, .nand] s (toSdr d s) := by
  unfold toSdr
  repeat' first
    | intro _
    | with_reducible assumption
    | with_reducible exact Only.refl _ _
    | with_reducible apply Only.ite
    | (with_reducible apply Only.step (dieReset_only ..); exact .of (by decide +kernel))
    | (with_reducible apply Only.step (extendedRate_only ..); exact .of (by decide +kernel))
    | with_reducible apply_assumption -exfalso -symm
    | split
    | dsimp only

/-- What `toService` may change. -/
theorem toService_only (d : Nat) (s : State) :
    Only [.out, .nand] s (toService d s) := by
  unfold toService
  repeat' first
    | intro _
    | with_reducible assumption
    | with_reducible exact Only.refl _ _
    | (with_reducible apply Only.step (setIface_only ..); exact .of (by decide +kernel))
    | (with_reducible apply Only.step (extendedRate_only ..); exact .of (by decide +kernel))
    | with_reducible apply_assumption -exfalso -symm
    | split
    | dsimp only

/-- What `trainIface` may change. -/
theorem trainIface_only (ds : List Nat) (failed : Option TrainStep) (s : State) :
    Only [.out,
    .nand] s (trainIface ds failed s) := by
  unfold trainIface
  repeat' first
    | intro _
    | with_reducible assumption
    | with_reducible exact Only.refl _ _
    | (with_reducible apply Only.step (toSdr_only ..); exact .of (by decide +kernel))
    | (with_reducible apply Only.step (toService_only ..); exact .of (by decide +kernel))
    | with_reducible refine Only.foldl (fun _ _ _ => ?_) ?_
    | with_reducible refine Only.foldl2 (fun _ _ _ => ?_) ?_
    | with_reducible apply_assumption -exfalso -symm
    | split
    | dsimp only

/-- What `channelTrainingEff` may change. -/
theorem channelTrainingEff_only (channel : Fin 64) (failedTwice : Option TrainStep) (dies : List DieFound) (s : State) :
    Only (List.append [.out,
    .gen, .he, .ctl, .sh, .lost, .fs, .mx, .ns, .mm, .sp, .cs, .bp, .gf, .tw, .dg, .mg, .fi, .nand, .ff, .prov,
    .reg Reg.HE_WINLOG.COUNT, .reg Reg.HE_WINLOG.CAUSE, .reg Reg.HE_WINLOG.PORT, .reg Reg.HE_WINLOGLO.OFFSET,
    .reg Reg.HE_WINLOGHI.OFFSET, .reg Reg.HE_WINLOGHI.RID, .reg Reg.QE_CQFULL.COUNT, .reg Reg.MX_ERR.CEILHOLD,
    .reg Reg.MM_ERR.SHORTCLOSE] [.reg Reg.SP_LOSTCNT.POSITIONS, .reg Reg.SP_ERR.NOSPARE, .reg Reg.SP_ERR.THREEMISS,
    .reg Reg.SP_ERR.SPAREFAIL, .reg Reg.CS_ERR.TRAINFAIL, .reg Reg.BP_ERRBUF.INDEX, .reg Reg.BP_ERRBUF.OWNER,
    .reg Reg.BP_ERRBUF.CAUSE, .reg Reg.BP_ERR.REVOKE, .reg Reg.GF_XFER.FAILED, .reg Reg.GF_ERR.XFERFAIL,
    .reg Reg.MG_LOGSTAT.DROPPED, .reg Reg.MG_ERR.LOGDROP, .reg Reg.FI_ARM.ARMED, .reg Reg.FI_ARM.DCAUSE, .reg Reg.FI_GF.EN,
    .reg Reg.FI_FL.EN, .reg Reg.FI_PCIE.EN, .reg Reg.FI_CNT.INJECTED,
    .reg Reg.FI_ERR.REALFAULT]) s (channelTrainingEff channel failedTwice dies s) := by
  unfold channelTrainingEff
  repeat' first
    | intro _
    | with_reducible assumption
    | with_reducible exact Only.refl _ _
    | (extract_lets +onlyGivenNames x; refine Only.cut x ?_ (fun _ => ?_); unfold x; clear x; rotate_left; clear_value x)
    | (extract_lets +onlyGivenNames x; refine Only.cut2 x ?_ (fun _ => ?_); unfold x; clear x; rotate_left; clear_value x)
    | (extract_lets +onlyGivenNames x; refine Only.cutF x ?_ (fun _ => ?_); unfold x; clear x; rotate_left; clear_value x)
    | (extract_lets +onlyGivenNames x; refine Only.cutG x ?_ (fun _ => ?_); unfold x; clear x; rotate_left; clear_value x)
    | (extract_lets +onlyGivenNames x; refine Only.cutG2 x ?_ (fun _ => ?_); unfold x; clear x; rotate_left; clear_value x)
    | (extract_lets +onlyGivenNames x; refine Only.cutG3 x ?_ (fun _ => ?_); unfold x; clear x; rotate_left; clear_value x)
    | (extract_lets +onlyGivenNames x; refine Only.cutH x ?_ (fun _ => ?_); unfold x; clear x; rotate_left; clear_value x)
    | (extract_lets +onlyGivenNames x; clear_value x)
    | with_reducible apply Only.ite
    | fail_if_no_progress (with_reducible apply Only.upd_cs; decide +kernel)
    | fail_if_no_progress (with_reducible apply Only.upd_nand; decide +kernel)
    | (with_reducible apply Only.step (flagOn_only ..); exact .of (by decide +kernel))
    | (with_reducible apply Only.step (trainIface_only ..); exact .of (by decide +kernel))
    | (with_reducible apply Only.step (declareChannelFailed_only ..); exact .of (by decide +kernel))
    | (with_reducible apply Only.step (declareDieFailed_only ..); exact .of (by decide +kernel))
    | with_reducible refine Only.foldl (fun _ _ _ => ?_) ?_
    | with_reducible refine Only.foldl2 (fun _ _ _ => ?_) ?_
    | with_reducible apply_assumption -exfalso -symm
    | split
    | dsimp only

/-- What `execChannelTraining` may change. -/
theorem execChannelTraining_only (channel : Fin 64) (failedTwice : Option TrainStep) (dies : List DieFound) (s : State) :
    ∃ t,
    execChannelTraining channel failedTwice dies s = .next t ∧ Only (List.append [.out, .gen, .he, .ctl, .sh, .lost, .fs, .mx,
    .ns, .mm, .sp, .cs, .bp, .gf, .tw, .dg, .mg, .fi, .nand, .ff, .prov, .reg Reg.HE_WINLOG.COUNT, .reg Reg.HE_WINLOG.CAUSE,
    .reg Reg.HE_WINLOG.PORT, .reg Reg.HE_WINLOGLO.OFFSET, .reg Reg.HE_WINLOGHI.OFFSET, .reg Reg.HE_WINLOGHI.RID,
    .reg Reg.QE_CQFULL.COUNT, .reg Reg.MX_ERR.CEILHOLD, .reg Reg.MM_ERR.SHORTCLOSE] [.reg Reg.SP_LOSTCNT.POSITIONS,
    .reg Reg.SP_ERR.NOSPARE, .reg Reg.SP_ERR.THREEMISS, .reg Reg.SP_ERR.SPAREFAIL, .reg Reg.CS_ERR.TRAINFAIL,
    .reg Reg.BP_ERRBUF.INDEX, .reg Reg.BP_ERRBUF.OWNER, .reg Reg.BP_ERRBUF.CAUSE, .reg Reg.BP_ERR.REVOKE,
    .reg Reg.GF_XFER.FAILED, .reg Reg.GF_ERR.XFERFAIL, .reg Reg.MG_LOGSTAT.DROPPED, .reg Reg.MG_ERR.LOGDROP,
    .reg Reg.FI_ARM.ARMED, .reg Reg.FI_ARM.DCAUSE, .reg Reg.FI_GF.EN, .reg Reg.FI_FL.EN, .reg Reg.FI_PCIE.EN,
    .reg Reg.FI_CNT.INJECTED, .reg Reg.FI_ERR.REALFAULT]) s t := by
  unfold execChannelTraining
  refine ⟨_, rfl, ?_⟩
  repeat' first
    | intro _
    | with_reducible assumption
    | with_reducible exact Only.refl _ _
    | (with_reducible apply Only.step (channelTrainingEff_only ..); exact .of (by decide +kernel))
    | with_reducible apply_assumption -exfalso -symm
    | split
    | dsimp only

/-- What `journalRootReadEff` may change. -/
theorem journalRootReadEff_only (rootCopyBad anchorBad snapshotCopyBad : Bool) (peerSnapshot : Option Snap) (s : State) :
    Only [.sp,
    .reg Reg.GEN_START.KIND, .reg Reg.GEN_START.DRAINOK, .reg Reg.MX_ERR.ROOTCOPY, .reg Reg.SP_ERR.SJCOPY,
    .reg Reg.SP_ERR.SJLOST] s (journalRootReadEff rootCopyBad anchorBad snapshotCopyBad peerSnapshot s) := by
  unfold journalRootReadEff
  repeat' first
    | intro _
    | with_reducible assumption
    | with_reducible exact Only.refl _ _
    | (extract_lets +onlyGivenNames x; refine Only.cut x ?_ (fun _ => ?_); unfold x; clear x; rotate_left; clear_value x)
    | (extract_lets +onlyGivenNames x; refine Only.cut2 x ?_ (fun _ => ?_); unfold x; clear x; rotate_left; clear_value x)
    | (extract_lets +onlyGivenNames x; refine Only.cutF x ?_ (fun _ => ?_); unfold x; clear x; rotate_left; clear_value x)
    | (extract_lets +onlyGivenNames x; refine Only.cutG x ?_ (fun _ => ?_); unfold x; clear x; rotate_left; clear_value x)
    | (extract_lets +onlyGivenNames x; refine Only.cutG2 x ?_ (fun _ => ?_); unfold x; clear x; rotate_left; clear_value x)
    | (extract_lets +onlyGivenNames x; refine Only.cutG3 x ?_ (fun _ => ?_); unfold x; clear x; rotate_left; clear_value x)
    | (extract_lets +onlyGivenNames x; refine Only.cutH x ?_ (fun _ => ?_); unfold x; clear x; rotate_left; clear_value x)
    | (extract_lets +onlyGivenNames x; clear_value x)
    | with_reducible apply Only.ite
    | fail_if_no_progress (with_reducible apply Only.upd_sp; decide +kernel)
    | (with_reducible apply Only.step (setF_only ..); exact .of (by decide +kernel))
    | (with_reducible apply Only.step (flagIf_only ..); exact .of (by decide +kernel))
    | with_reducible apply_assumption -exfalso -symm
    | split
    | dsimp only

/-- What `execJournalRootRead` may change. -/
theorem execJournalRootRead_only (rootCopyBad anchorBad snapshotCopyBad : Bool) (peerSnapshot : Option Snap) (s : State) :
    ∃ t,
    execJournalRootRead rootCopyBad anchorBad snapshotCopyBad peerSnapshot s = .next t ∧ Only [.sp, .reg Reg.GEN_START.KIND,
    .reg Reg.GEN_START.DRAINOK, .reg Reg.MX_ERR.ROOTCOPY, .reg Reg.SP_ERR.SJCOPY, .reg Reg.SP_ERR.SJLOST] s t := by
  unfold execJournalRootRead
  refine ⟨_, rfl, ?_⟩
  repeat' first
    | intro _
    | with_reducible assumption
    | with_reducible exact Only.refl _ _
    | (with_reducible apply Only.step (journalRootReadEff_only ..); exact .of (by decide +kernel))
    | with_reducible apply_assumption -exfalso -symm
    | split
    | dsimp only

/-- What `residentMapLoadEff` may change. -/
theorem residentMapLoadEff_only (s : State) :
    Only [.mx, .ns, .mm, .dg] s (residentMapLoadEff s) := by
  unfold residentMapLoadEff
  repeat' first
    | intro _
    | with_reducible assumption
    | with_reducible exact Only.refl _ _
    | (extract_lets +onlyGivenNames x; refine Only.cut x ?_ (fun _ => ?_); unfold x; clear x; rotate_left; clear_value x)
    | (extract_lets +onlyGivenNames x; refine Only.cut2 x ?_ (fun _ => ?_); unfold x; clear x; rotate_left; clear_value x)
    | (extract_lets +onlyGivenNames x; refine Only.cutF x ?_ (fun _ => ?_); unfold x; clear x; rotate_left; clear_value x)
    | (extract_lets +onlyGivenNames x; refine Only.cutG x ?_ (fun _ => ?_); unfold x; clear x; rotate_left; clear_value x)
    | (extract_lets +onlyGivenNames x; refine Only.cutG2 x ?_ (fun _ => ?_); unfold x; clear x; rotate_left; clear_value x)
    | (extract_lets +onlyGivenNames x; refine Only.cutG3 x ?_ (fun _ => ?_); unfold x; clear x; rotate_left; clear_value x)
    | (extract_lets +onlyGivenNames x; refine Only.cutH x ?_ (fun _ => ?_); unfold x; clear x; rotate_left; clear_value x)
    | (extract_lets +onlyGivenNames x; clear_value x)
    | with_reducible apply Only.ite
    | fail_if_no_progress (with_reducible apply Only.upd_mx_ns_mm_dg; decide +kernel; decide +kernel; decide +kernel; decide +kernel)
    | with_reducible apply_assumption -exfalso -symm
    | split
    | dsimp only

/-- What `execResidentMapLoad` may change. -/
theorem execResidentMapLoad_only (s : State) :
    ∃ t, execResidentMapLoad s = .next t ∧ Only [.mx, .ns, .mm, .dg] s t := by
  unfold execResidentMapLoad
  refine ⟨_, rfl, ?_⟩
  repeat' first
    | intro _
    | with_reducible assumption
    | with_reducible exact Only.refl _ _
    | (with_reducible apply Only.step (residentMapLoadEff_only ..); exact .of (by decide +kernel))
    | with_reducible apply_assumption -exfalso -symm
    | split
    | dsimp only

/-- What `loseAcked` may change. -/
theorem loseAcked_only (nsid grain csn : Nat) (s : State) :
    Only [.out, .he, .ctl, .sh, .defFaults, .lost, .fs, .mx, .bp,
    .gf, .tw, .mg, .fi, .reg Reg.HE_WINLOG.COUNT, .reg Reg.HE_WINLOG.CAUSE, .reg Reg.HE_WINLOG.PORT,
    .reg Reg.HE_WINLOGLO.OFFSET, .reg Reg.HE_WINLOGHI.OFFSET, .reg Reg.HE_WINLOGHI.RID, .reg Reg.QE_CQFULL.COUNT,
    .reg Reg.BP_ERRBUF.INDEX, .reg Reg.BP_ERRBUF.OWNER, .reg Reg.BP_ERRBUF.CAUSE, .reg Reg.BP_ERR.REVOKE,
    .reg Reg.GF_XFER.FAILED, .reg Reg.GF_ERR.XFERFAIL, .reg Reg.MG_LOGSTAT.DROPPED, .reg Reg.MG_ERR.LOGDROP,
    .reg Reg.FI_CNT.INJECTED] s (loseAcked nsid grain csn s) := by
  unfold loseAcked
  repeat' first
    | intro _
    | with_reducible assumption
    | with_reducible exact Only.refl _ _
    | (extract_lets +onlyGivenNames x; refine Only.cut x ?_ (fun _ => ?_); unfold x; clear x; rotate_left; clear_value x)
    | (extract_lets +onlyGivenNames x; refine Only.cut2 x ?_ (fun _ => ?_); unfold x; clear x; rotate_left; clear_value x)
    | (extract_lets +onlyGivenNames x; clear_value x)
    | (with_reducible apply Only.step (jAppend_only ..); exact .of (by decide +kernel))
    | (with_reducible apply Only.step (putEntry_only ..); exact .of (by decide +kernel))
    | (with_reducible apply Only.step (askRepair_only ..); exact .of (by decide +kernel))
    | (with_reducible apply Only.step (deferFault_only ..); exact .of (by decide +kernel))
    | (with_reducible apply Only.step (listLost_only ..); exact .of (by decide +kernel))
    | with_reducible apply_assumption -exfalso -symm
    | split
    | dsimp only

/-- What `mapRecoveryEff` may change. -/
theorem mapRecoveryEff_only (unreadableSegs : List Nat) (unreadable : List (Nat × Nat)) (replayMs scanMs : Nat) (s : State) :
    Only (List.append [.out,
    .he, .ctl, .sh, .defFaults, .lost, .fs, .mx, .ns, .mm, .bp, .gf, .tw, .mg, .fi, .nand, .reg Reg.GEN_START.DRAINOK,
    .reg Reg.HE_WINLOG.COUNT, .reg Reg.HE_WINLOG.CAUSE, .reg Reg.HE_WINLOG.PORT, .reg Reg.HE_WINLOGLO.OFFSET,
    .reg Reg.HE_WINLOGHI.OFFSET, .reg Reg.HE_WINLOGHI.RID, .reg Reg.QE_CQFULL.COUNT, .reg Reg.MX_STARTUP.REPLAY,
    .reg Reg.MX_STARTUP.SCAN, .reg Reg.MX_SCAN.BARRELS, .reg Reg.MX_SCAN.DUPS, .reg Reg.MX_ERR.JNLCOPY,
    .reg Reg.MX_ERR.JNLGAP] [.reg Reg.MM_ERR.SHORTCLOSE, .reg Reg.BP_ERRBUF.INDEX, .reg Reg.BP_ERRBUF.OWNER,
    .reg Reg.BP_ERRBUF.CAUSE, .reg Reg.BP_ERR.REVOKE, .reg Reg.GF_XFER.FAILED, .reg Reg.GF_ERR.XFERFAIL,
    .reg Reg.MG_LOGSTAT.DROPPED, .reg Reg.MG_ERR.LOGDROP,
    .reg Reg.FI_CNT.INJECTED]) s (mapRecoveryEff unreadableSegs unreadable replayMs scanMs s) := by
  unfold mapRecoveryEff
  repeat' first
    | intro _
    | with_reducible assumption
    | with_reducible exact Only.refl _ _
    | (extract_lets +onlyGivenNames x; refine Only.cut x ?_ (fun _ => ?_); unfold x; clear x; rotate_left; clear_value x)
    | (extract_lets +onlyGivenNames x; refine Only.cut2 x ?_ (fun _ => ?_); unfold x; clear x; rotate_left; clear_value x)
    | (extract_lets +onlyGivenNames x; refine Only.cutF x ?_ (fun _ => ?_); unfold x; clear x; rotate_left; clear_value x)
    | (extract_lets +onlyGivenNames x; refine Only.cutG x ?_ (fun _ => ?_); unfold x; clear x; rotate_left; clear_value x)
    | (extract_lets +onlyGivenNames x; refine Only.cutP x ?_ (fun _ => ?_); unfold x; clear x; rotate_left; clear_value x)
    | (extract_lets +onlyGivenNames x; refine Only.cutG2 x ?_ (fun _ => ?_); unfold x; clear x; rotate_left; clear_value x)
    | (extract_lets +onlyGivenNames x; refine Only.cutG3 x ?_ (fun _ => ?_); unfold x; clear x; rotate_left; clear_value x)
    | (extract_lets +onlyGivenNames x; refine Only.cutH x ?_ (fun _ => ?_); unfold x; clear x; rotate_left; clear_value x)
    | (extract_lets +onlyGivenNames x; clear_value x)
    | with_reducible apply Only.ite
    | fail_if_no_progress (with_reducible apply Only.upd_mx_ns; decide +kernel; decide +kernel)
    | fail_if_no_progress (with_reducible apply Only.upd_mx; decide +kernel)
    | (with_reducible apply Only.step (setF_only ..); exact .of (by decide +kernel))
    | (with_reducible apply Only.step (flagIf_only ..); exact .of (by decide +kernel))
    | (with_reducible apply Only.step (setSat_only ..); exact .of (by decide +kernel))
    | (with_reducible apply Only.step (jAppend_only ..); exact .of (by decide +kernel))
    | (with_reducible apply Only.step (loseAcked_only ..); exact .of (by decide +kernel))
    | (with_reducible apply Only.step (deferFault_only ..); exact .of (by decide +kernel))
    | (with_reducible apply Only.step (closeShort_only ..); exact .of (by decide +kernel))
    | (with_reducible apply Only.step (journalNow_only ..); exact .of (by decide +kernel))
    | with_reducible refine Only.foldl (fun _ _ _ => ?_) ?_
    | with_reducible refine Only.foldl2 (fun _ _ _ => ?_) ?_
    | with_reducible apply_assumption -exfalso -symm
    | split
    | dsimp only

/-- What `execMapRecovery` may change. -/
theorem execMapRecovery_only (unreadableSegs : List Nat) (unreadable : List (Nat × Nat)) (replayMs scanMs : Nat) (s : State) :
    ∃ t,
    execMapRecovery unreadableSegs unreadable replayMs scanMs s = .next t ∧ Only (List.append [.out, .he, .ctl, .sh, .defFaults,
    .lost, .fs, .mx, .ns, .mm, .bp, .gf, .tw, .mg, .fi, .nand, .reg Reg.GEN_START.DRAINOK, .reg Reg.HE_WINLOG.COUNT,
    .reg Reg.HE_WINLOG.CAUSE, .reg Reg.HE_WINLOG.PORT, .reg Reg.HE_WINLOGLO.OFFSET, .reg Reg.HE_WINLOGHI.OFFSET,
    .reg Reg.HE_WINLOGHI.RID, .reg Reg.QE_CQFULL.COUNT, .reg Reg.MX_STARTUP.REPLAY, .reg Reg.MX_STARTUP.SCAN,
    .reg Reg.MX_SCAN.BARRELS, .reg Reg.MX_SCAN.DUPS, .reg Reg.MX_ERR.JNLCOPY,
    .reg Reg.MX_ERR.JNLGAP] [.reg Reg.MM_ERR.SHORTCLOSE, .reg Reg.BP_ERRBUF.INDEX, .reg Reg.BP_ERRBUF.OWNER,
    .reg Reg.BP_ERRBUF.CAUSE, .reg Reg.BP_ERR.REVOKE, .reg Reg.GF_XFER.FAILED, .reg Reg.GF_ERR.XFERFAIL,
    .reg Reg.MG_LOGSTAT.DROPPED, .reg Reg.MG_ERR.LOGDROP, .reg Reg.FI_CNT.INJECTED]) s t := by
  unfold execMapRecovery
  refine ⟨_, rfl, ?_⟩
  repeat' first
    | intro _
    | with_reducible assumption
    | with_reducible exact Only.refl _ _
    | (with_reducible apply Only.step (mapRecoveryEff_only ..); exact .of (by decide +kernel))
    | with_reducible apply_assumption -exfalso -symm
    | split
    | dsimp only

/-- What `wipeBlock` may change. -/
theorem wipeBlock_only (d b : Nat) (s : State) :
    Only [.mx, .mm, .nand] s (wipeBlock d b s) := by
  unfold wipeBlock
  repeat' first
    | intro _
    | with_reducible assumption
    | with_reducible exact Only.refl _ _
    | (extract_lets +onlyGivenNames x; refine Only.cut x ?_ (fun _ => ?_); unfold x; clear x; rotate_left; clear_value x)
    | (extract_lets +onlyGivenNames x; refine Only.cut2 x ?_ (fun _ => ?_); unfold x; clear x; rotate_left; clear_value x)
    | (extract_lets +onlyGivenNames x; refine Only.cutF x ?_ (fun _ => ?_); unfold x; clear x; rotate_left; clear_value x)
    | (extract_lets +onlyGivenNames x; refine Only.cutG x ?_ (fun _ => ?_); unfold x; clear x; rotate_left; clear_value x)
    | (extract_lets +onlyGivenNames x; refine Only.cutG2 x ?_ (fun _ => ?_); unfold x; clear x; rotate_left; clear_value x)
    | (extract_lets +onlyGivenNames x; refine Only.cutG3 x ?_ (fun _ => ?_); unfold x; clear x; rotate_left; clear_value x)
    | (extract_lets +onlyGivenNames x; refine Only.cutH x ?_ (fun _ => ?_); unfold x; clear x; rotate_left; clear_value x)
    | (extract_lets +onlyGivenNames x; clear_value x)
    | fail_if_no_progress (with_reducible apply Only.upd_nand; decide +kernel)
    | (with_reducible apply Only.step (updBlk_only ..); exact .of (by decide +kernel))
    | with_reducible apply_assumption -exfalso -symm
    | split
    | dsimp only

/-- What `halfErasedBlockRedoEff` may change. -/
theorem halfErasedBlockRedoEff_only (die block : Nat) (blankPass1 blankPass2 : Bool) (s : State) :
    Only (List.append [.out,
    .gen, .he, .ctl, .sh, .lost, .fs, .mx, .ns, .mm, .sp, .cs, .bp, .gf, .tw, .dg, .mg, .fi, .nand, .ff, .prov,
    .reg Reg.HE_WINLOG.COUNT, .reg Reg.HE_WINLOG.CAUSE, .reg Reg.HE_WINLOG.PORT, .reg Reg.HE_WINLOGLO.OFFSET,
    .reg Reg.HE_WINLOGHI.OFFSET, .reg Reg.HE_WINLOGHI.RID, .reg Reg.QE_CQFULL.COUNT, .reg Reg.MX_ERR.CEILHOLD,
    .reg Reg.MM_RETIRE.COUNT] [.reg Reg.MM_RETLAST.DIE, .reg Reg.MM_RETLAST.BLOCK, .reg Reg.MM_RETLAST.CAUSE,
    .reg Reg.MM_ERR.BLANKFAIL, .reg Reg.MM_ERR.SHORTCLOSE, .reg Reg.MM_ERR.ROWWD, .reg Reg.SP_LOSTCNT.POSITIONS,
    .reg Reg.SP_ERR.NOSPARE, .reg Reg.SP_ERR.THREEMISS, .reg Reg.SP_ERR.SPAREFAIL, .reg Reg.BP_ERRBUF.INDEX,
    .reg Reg.BP_ERRBUF.OWNER, .reg Reg.BP_ERRBUF.CAUSE, .reg Reg.BP_ERR.REVOKE, .reg Reg.GF_XFER.FAILED,
    .reg Reg.GF_ERR.XFERFAIL, .reg Reg.MG_LOGSTAT.DROPPED, .reg Reg.MG_ERR.LOGDROP, .reg Reg.FI_ARM.ARMED,
    .reg Reg.FI_ARM.DCAUSE, .reg Reg.FI_GF.EN, .reg Reg.FI_FL.EN, .reg Reg.FI_PCIE.EN, .reg Reg.FI_CNT.INJECTED,
    .reg Reg.FI_ERR.REALFAULT]) s (halfErasedBlockRedoEff die block blankPass1 blankPass2 s) := by
  unfold halfErasedBlockRedoEff
  repeat' first
    | intro _
    | with_reducible assumption
    | with_reducible exact Only.refl _ _
    | (extract_lets +onlyGivenNames x; refine Only.cut x ?_ (fun _ => ?_); unfold x; clear x; rotate_left; clear_value x)
    | (extract_lets +onlyGivenNames x; refine Only.cut2 x ?_ (fun _ => ?_); unfold x; clear x; rotate_left; clear_value x)
    | (extract_lets +onlyGivenNames x; refine Only.cutF x ?_ (fun _ => ?_); unfold x; clear x; rotate_left; clear_value x)
    | (extract_lets +onlyGivenNames x; refine Only.cutG x ?_ (fun _ => ?_); unfold x; clear x; rotate_left; clear_value x)
    | (extract_lets +onlyGivenNames x; refine Only.cutG2 x ?_ (fun _ => ?_); unfold x; clear x; rotate_left; clear_value x)
    | (extract_lets +onlyGivenNames x; refine Only.cutG3 x ?_ (fun _ => ?_); unfold x; clear x; rotate_left; clear_value x)
    | (extract_lets +onlyGivenNames x; refine Only.cutH x ?_ (fun _ => ?_); unfold x; clear x; rotate_left; clear_value x)
    | (extract_lets +onlyGivenNames x; clear_value x)
    | with_reducible apply Only.ite
    | fail_if_no_progress (with_reducible apply Only.upd_mx; decide +kernel)
    | (with_reducible apply Only.step (flagIf_only ..); exact .of (by decide +kernel))
    | (with_reducible apply Only.step (wipeBlock_only ..); exact .of (by decide +kernel))
    | (with_reducible apply Only.step (updBlk_only ..); exact .of (by decide +kernel))
    | (with_reducible apply Only.step (jAppend_only ..); exact .of (by decide +kernel))
    | (with_reducible apply Only.step (retireBlock_only ..); exact .of (by decide +kernel))
    | with_reducible apply_assumption -exfalso -symm
    | split
    | dsimp only

/-- What `execHalfErasedBlockRedo` may change. -/
theorem execHalfErasedBlockRedo_only (die block : Nat) (blankPass1 blankPass2 : Bool) (s : State) :
    ∃ t,
    execHalfErasedBlockRedo die block blankPass1 blankPass2 s = .next t ∧ Only (List.append [.out, .gen, .he, .ctl, .sh, .lost,
    .fs, .mx, .ns, .mm, .sp, .cs, .bp, .gf, .tw, .dg, .mg, .fi, .nand, .ff, .prov, .reg Reg.HE_WINLOG.COUNT,
    .reg Reg.HE_WINLOG.CAUSE, .reg Reg.HE_WINLOG.PORT, .reg Reg.HE_WINLOGLO.OFFSET, .reg Reg.HE_WINLOGHI.OFFSET,
    .reg Reg.HE_WINLOGHI.RID, .reg Reg.QE_CQFULL.COUNT, .reg Reg.MX_ERR.CEILHOLD,
    .reg Reg.MM_RETIRE.COUNT] [.reg Reg.MM_RETLAST.DIE, .reg Reg.MM_RETLAST.BLOCK, .reg Reg.MM_RETLAST.CAUSE,
    .reg Reg.MM_ERR.BLANKFAIL, .reg Reg.MM_ERR.SHORTCLOSE, .reg Reg.MM_ERR.ROWWD, .reg Reg.SP_LOSTCNT.POSITIONS,
    .reg Reg.SP_ERR.NOSPARE, .reg Reg.SP_ERR.THREEMISS, .reg Reg.SP_ERR.SPAREFAIL, .reg Reg.BP_ERRBUF.INDEX,
    .reg Reg.BP_ERRBUF.OWNER, .reg Reg.BP_ERRBUF.CAUSE, .reg Reg.BP_ERR.REVOKE, .reg Reg.GF_XFER.FAILED,
    .reg Reg.GF_ERR.XFERFAIL, .reg Reg.MG_LOGSTAT.DROPPED, .reg Reg.MG_ERR.LOGDROP, .reg Reg.FI_ARM.ARMED,
    .reg Reg.FI_ARM.DCAUSE, .reg Reg.FI_GF.EN, .reg Reg.FI_FL.EN, .reg Reg.FI_PCIE.EN, .reg Reg.FI_CNT.INJECTED,
    .reg Reg.FI_ERR.REALFAULT]) s t := by
  unfold execHalfErasedBlockRedo
  refine ⟨_, rfl, ?_⟩
  repeat' first
    | intro _
    | with_reducible assumption
    | with_reducible exact Only.refl _ _
    | (with_reducible apply Only.step (halfErasedBlockRedoEff_only ..); exact .of (by decide +kernel))
    | with_reducible apply_assumption -exfalso -symm
    | split
    | dsimp only

/-- What `copyToVat` may change. -/
theorem copyToVat_only (nsid grain : Nat) (c : Copy) (s : State) :
    Only [.mx, .mm, .nand] s (copyToVat nsid grain c s) := by
  unfold copyToVat
  repeat' first
    | intro _
    | with_reducible assumption
    | with_reducible exact Only.refl _ _
    | (extract_lets +onlyGivenNames x; refine Only.cut x ?_ (fun _ => ?_); unfold x; clear x; rotate_left; clear_value x)
    | (extract_lets +onlyGivenNames x; refine Only.cut2 x ?_ (fun _ => ?_); unfold x; clear x; rotate_left; clear_value x)
    | (extract_lets +onlyGivenNames x; clear_value x)
    | fail_if_no_progress (with_reducible apply Only.upd_nand; decide +kernel)
    | with_reducible refine Only.step (takeVatPage_eq ‹_›) (.of (by decide +kernel)) ?_
    | (with_reducible apply Only.step (vatProgrammed_only ..); exact .of (by decide +kernel))
    | (with_reducible apply Only.step (swapEntry_only ..); exact .of (by decide +kernel))
    | with_reducible apply_assumption -exfalso -symm
    | split
    | dsimp only

/-- What `settleStripe` may change. -/
theorem settleStripe_only (unreadable : List (Nat × Nat)) (o : OpenStripe) (s : State) :
    Only (List.append [.out, .he, .ctl,
    .sh, .defFaults, .lost, .fs, .mx, .mm, .sp, .bp, .gf, .tw, .mg, .fi, .nand, .reg Reg.HE_WINLOG.COUNT,
    .reg Reg.HE_WINLOG.CAUSE, .reg Reg.HE_WINLOG.PORT, .reg Reg.HE_WINLOGLO.OFFSET, .reg Reg.HE_WINLOGHI.OFFSET,
    .reg Reg.HE_WINLOGHI.RID, .reg Reg.QE_CQFULL.COUNT, .reg Reg.SP_ERR.ORPHAN, .reg Reg.BP_ERRBUF.INDEX,
    .reg Reg.BP_ERRBUF.OWNER, .reg Reg.BP_ERRBUF.CAUSE, .reg Reg.BP_ERR.REVOKE, .reg Reg.GF_XFER.FAILED,
    .reg Reg.GF_ERR.XFERFAIL] [.reg Reg.MG_LOGSTAT.DROPPED, .reg Reg.MG_ERR.LOGDROP,
    .reg Reg.FI_CNT.INJECTED]) s (settleStripe unreadable o s) := by
  unfold settleStripe
  repeat' first
    | intro _
    | with_reducible assumption
    | with_reducible exact Only.refl _ _
    | (extract_lets +onlyGivenNames x; refine Only.cut x ?_ (fun _ => ?_); unfold x; clear x; rotate_left; clear_value x)
    | (extract_lets +onlyGivenNames x; refine Only.cut2 x ?_ (fun _ => ?_); unfold x; clear x; rotate_left; clear_value x)
    | (extract_lets +onlyGivenNames x; refine Only.cutF x ?_ (fun _ => ?_); unfold x; clear x; rotate_left; clear_value x)
    | (extract_lets +onlyGivenNames x; refine Only.cutG x ?_ (fun _ => ?_); unfold x; clear x; rotate_left; clear_value x)
    | (extract_lets +onlyGivenNames x; refine Only.cutP x ?_ (fun _ => ?_); unfold x; clear x; rotate_left; clear_value x)
    | (extract_lets +onlyGivenNames x; refine Only.cutG2 x ?_ (fun _ => ?_); unfold x; clear x; rotate_left; clear_value x)
    | (extract_lets +onlyGivenNames x; refine Only.cutG3 x ?_ (fun _ => ?_); unfold x; clear x; rotate_left; clear_value x)
    | (extract_lets +onlyGivenNames x; refine Only.cutH x ?_ (fun _ => ?_); unfold x; clear x; rotate_left; clear_value x)
    | (extract_lets +onlyGivenNames x; clear_value x)
    | with_reducible apply Only.ite
    | fail_if_no_progress (with_reducible apply Only.upd_sp; decide +kernel)
    | (with_reducible apply Only.step (flagOn_only ..); exact .of (by decide +kernel))
    | (with_reducible apply Only.step (loseAcked_only ..); exact .of (by decide +kernel))
    | (with_reducible apply Only.step (copyToVat_only ..); exact .of (by decide +kernel))
    | with_reducible refine Only.foldl (fun _ _ _ => ?_) ?_
    | with_reducible refine Only.foldl2 (fun _ _ _ => ?_) ?_
    | with_reducible apply_assumption -exfalso -symm
    | split
    | dsimp only

/-- What `openStripeCompletionEff` may change. -/
theorem openStripeCompletionEff_only (unreadable : List (Nat × Nat)) (s : State) :
    Only (List.append [.out, .he, .ctl, .sh,
    .defFaults, .lost, .fs, .mx, .mm, .sp, .bp, .gf, .tw, .mg, .fi, .nand, .reg Reg.HE_WINLOG.COUNT, .reg Reg.HE_WINLOG.CAUSE,
    .reg Reg.HE_WINLOG.PORT, .reg Reg.HE_WINLOGLO.OFFSET, .reg Reg.HE_WINLOGHI.OFFSET, .reg Reg.HE_WINLOGHI.RID,
    .reg Reg.QE_CQFULL.COUNT, .reg Reg.SP_ERR.ORPHAN, .reg Reg.BP_ERRBUF.INDEX, .reg Reg.BP_ERRBUF.OWNER,
    .reg Reg.BP_ERRBUF.CAUSE, .reg Reg.BP_ERR.REVOKE, .reg Reg.GF_XFER.FAILED,
    .reg Reg.GF_ERR.XFERFAIL] [.reg Reg.MG_LOGSTAT.DROPPED, .reg Reg.MG_ERR.LOGDROP,
    .reg Reg.FI_CNT.INJECTED]) s (openStripeCompletionEff unreadable s) := by
  unfold openStripeCompletionEff
  repeat' first
    | intro _
    | with_reducible assumption
    | with_reducible exact Only.refl _ _
    | (extract_lets +onlyGivenNames x; refine Only.cut x ?_ (fun _ => ?_); unfold x; clear x; rotate_left; clear_value x)
    | (extract_lets +onlyGivenNames x; refine Only.cut2 x ?_ (fun _ => ?_); unfold x; clear x; rotate_left; clear_value x)
    | (extract_lets +onlyGivenNames x; refine Only.cutF x ?_ (fun _ => ?_); unfold x; clear x; rotate_left; clear_value x)
    | (extract_lets +onlyGivenNames x; refine Only.cutG x ?_ (fun _ => ?_); unfold x; clear x; rotate_left; clear_value x)
    | (extract_lets +onlyGivenNames x; refine Only.cutG2 x ?_ (fun _ => ?_); unfold x; clear x; rotate_left; clear_value x)
    | (extract_lets +onlyGivenNames x; refine Only.cutG3 x ?_ (fun _ => ?_); unfold x; clear x; rotate_left; clear_value x)
    | (extract_lets +onlyGivenNames x; refine Only.cutH x ?_ (fun _ => ?_); unfold x; clear x; rotate_left; clear_value x)
    | (extract_lets +onlyGivenNames x; clear_value x)
    | with_reducible apply Only.ite
    | fail_if_no_progress (with_reducible apply Only.upd_sp; decide +kernel)
    | (with_reducible apply Only.step (settleStripe_only ..); exact .of (by decide +kernel))
    | with_reducible refine Only.foldl (fun _ _ _ => ?_) ?_
    | with_reducible refine Only.foldl2 (fun _ _ _ => ?_) ?_
    | with_reducible apply_assumption -exfalso -symm
    | split
    | dsimp only

/-- What `execOpenStripeCompletion` may change. -/
theorem execOpenStripeCompletion_only (unreadable : List (Nat × Nat)) (s : State) :
    ∃ t,
    execOpenStripeCompletion unreadable s = .next t ∧ Only (List.append [.out, .he, .ctl, .sh, .defFaults, .lost, .fs, .mx, .mm,
    .sp, .bp, .gf, .tw, .mg, .fi, .nand, .reg Reg.HE_WINLOG.COUNT, .reg Reg.HE_WINLOG.CAUSE, .reg Reg.HE_WINLOG.PORT,
    .reg Reg.HE_WINLOGLO.OFFSET, .reg Reg.HE_WINLOGHI.OFFSET, .reg Reg.HE_WINLOGHI.RID, .reg Reg.QE_CQFULL.COUNT,
    .reg Reg.SP_ERR.ORPHAN, .reg Reg.BP_ERRBUF.INDEX, .reg Reg.BP_ERRBUF.OWNER, .reg Reg.BP_ERRBUF.CAUSE,
    .reg Reg.BP_ERR.REVOKE, .reg Reg.GF_XFER.FAILED, .reg Reg.GF_ERR.XFERFAIL] [.reg Reg.MG_LOGSTAT.DROPPED,
    .reg Reg.MG_ERR.LOGDROP, .reg Reg.FI_CNT.INJECTED]) s t := by
  unfold execOpenStripeCompletion
  refine ⟨_, rfl, ?_⟩
  repeat' first
    | intro _
    | with_reducible assumption
    | with_reducible exact Only.refl _ _
    | (with_reducible apply Only.step (openStripeCompletionEff_only ..); exact .of (by decide +kernel))
    | with_reducible apply_assumption -exfalso -symm
    | split
    | dsimp only

/-- What `startNsKey` may change. -/
theorem startNsKey_only (n : Ns) (s : State) :
    Only [.freeCtr, .mx, .ns, .ff, .reg Reg.DC_ERR.UNWRAP,
    .reg Reg.DC_ERR.CEKEY] s (startNsKey n s) := by
  unfold startNsKey
  repeat' first
    | intro _
    | with_reducible assumption
    | with_reducible exact Only.refl _ _
    | (extract_lets +onlyGivenNames x; refine Only.cut x ?_ (fun _ => ?_); unfold x; clear x; rotate_left; clear_value x)
    | (extract_lets +onlyGivenNames x; refine Only.cut2 x ?_ (fun _ => ?_); unfold x; clear x; rotate_left; clear_value x)
    | (extract_lets +onlyGivenNames x; refine Only.cutF x ?_ (fun _ => ?_); unfold x; clear x; rotate_left; clear_value x)
    | (extract_lets +onlyGivenNames x; refine Only.cutG x ?_ (fun _ => ?_); unfold x; clear x; rotate_left; clear_value x)
    | (extract_lets +onlyGivenNames x; refine Only.cutG2 x ?_ (fun _ => ?_); unfold x; clear x; rotate_left; clear_value x)
    | (extract_lets +onlyGivenNames x; refine Only.cutG3 x ?_ (fun _ => ?_); unfold x; clear x; rotate_left; clear_value x)
    | (extract_lets +onlyGivenNames x; refine Only.cutH x ?_ (fun _ => ?_); unfold x; clear x; rotate_left; clear_value x)
    | (extract_lets +onlyGivenNames x; clear_value x)
    | with_reducible apply Only.ite
    | fail_if_no_progress (with_reducible apply Only.upd_ff; decide +kernel)
    | (with_reducible apply Only.step (flagOn_only ..); exact .of (by decide +kernel))
    | (with_reducible apply Only.step (deallocAll_only ..); exact .of (by decide +kernel))
    | (with_reducible apply Only.step (putKey_only ..); exact .of (by decide +kernel))
    | (with_reducible apply Only.step (dropKey_only ..); exact .of (by decide +kernel))
    | (with_reducible apply Only.step (updNs_only ..); exact .of (by decide +kernel))
    | (with_reducible apply Only.step (wrapKey_only ..); exact .of (by decide +kernel))
    | with_reducible apply_assumption -exfalso -symm
    | split
    | dsimp only

/-- What `startMigration` may change. -/
theorem startMigration_only (s : State) :
    Only [.out, .gen, .he, .ctl, .fs, .mx, .ns, .mm, .tw, .mg, .fi, .nand, .prov,
    .reg Reg.QE_CQFULL.COUNT, .reg Reg.MX_ERR.CEILHOLD, .reg Reg.TW_ERR.CUTUNK, .reg Reg.MG_LOGSTAT.DROPPED,
    .reg Reg.MG_ERR.LOGDROP, .reg Reg.FI_ARM.ARMED, .reg Reg.FI_ARM.DCAUSE, .reg Reg.FI_GF.EN, .reg Reg.FI_FL.EN,
    .reg Reg.FI_PCIE.EN] s (startMigration s) := by
  unfold startMigration
  repeat' first
    | intro _
    | with_reducible assumption
    | with_reducible exact Only.refl _ _
    | (extract_lets +onlyGivenNames x; refine Only.cut x ?_ (fun _ => ?_); unfold x; clear x; rotate_left; clear_value x)
    | (extract_lets +onlyGivenNames x; refine Only.cut2 x ?_ (fun _ => ?_); unfold x; clear x; rotate_left; clear_value x)
    | (extract_lets +onlyGivenNames x; refine Only.cutF x ?_ (fun _ => ?_); unfold x; clear x; rotate_left; clear_value x)
    | (extract_lets +onlyGivenNames x; refine Only.cutG x ?_ (fun _ => ?_); unfold x; clear x; rotate_left; clear_value x)
    | (extract_lets +onlyGivenNames x; refine Only.cutG2 x ?_ (fun _ => ?_); unfold x; clear x; rotate_left; clear_value x)
    | (extract_lets +onlyGivenNames x; refine Only.cutG3 x ?_ (fun _ => ?_); unfold x; clear x; rotate_left; clear_value x)
    | (extract_lets +onlyGivenNames x; refine Only.cutH x ?_ (fun _ => ?_); unfold x; clear x; rotate_left; clear_value x)
    | (extract_lets +onlyGivenNames x; clear_value x)
    | with_reducible apply Only.ite
    | fail_if_no_progress (with_reducible apply Only.upd_tw; decide +kernel)
    | fail_if_no_progress (with_reducible apply Only.upd_ns_prov; decide +kernel; decide +kernel)
    | (with_reducible apply Only.step (flagOn_only ..); exact .of (by decide +kernel))
    | (with_reducible apply Only.step (raiseToOrigins_only ..); exact .of (by decide +kernel))
    | (with_reducible apply Only.step (enterModeEv_only ..); exact .of (by decide +kernel))
    | with_reducible apply_assumption -exfalso -symm
    | split
    | dsimp only

/-- What `raiseArb` may change. -/
theorem raiseArb_only (s : State) :
    Only [.fuses] s (raiseArb s) := by
  unfold raiseArb
  repeat' first
    | intro _
    | with_reducible assumption
    | with_reducible exact Only.refl _ _
    | with_reducible apply Only.ite
    | fail_if_no_progress (with_reducible apply Only.upd_fuses; decide +kernel)
    | with_reducible apply_assumption -exfalso -symm
    | split
    | dsimp only

/-- What `startServe` may change. -/
theorem startServe_only (s : State) :
    Only (List.append [.freeCtr, .out, .gen, .he, .ctl, .fs, .mx, .ns, .mm, .bp, .gf, .tw,
    .mg, .fi, .nand, .ff, .prov, .fuses, .reg Reg.HE_WINLOG.COUNT, .reg Reg.HE_WINLOG.CAUSE, .reg Reg.HE_WINLOG.PORT,
    .reg Reg.HE_WINLOGLO.OFFSET, .reg Reg.HE_WINLOGHI.OFFSET, .reg Reg.HE_WINLOGHI.RID, .reg Reg.QE_CQFULL.COUNT,
    .reg Reg.MX_ERR.CEILHOLD, .reg Reg.DC_ERR.UNWRAP, .reg Reg.DC_ERR.CEKEY, .reg Reg.BP_ERRBUF.INDEX,
    .reg Reg.BP_ERRBUF.OWNER] [.reg Reg.BP_ERRBUF.CAUSE, .reg Reg.BP_ERR.REVOKE, .reg Reg.GF_XFER.FAILED,
    .reg Reg.GF_ERR.XFERFAIL, .reg Reg.TW_ERR.CUTUNK, .reg Reg.MG_LOGSTAT.DROPPED, .reg Reg.MG_ERR.LOGDROP,
    .reg Reg.FI_ARM.ARMED, .reg Reg.FI_ARM.DCAUSE, .reg Reg.FI_GF.EN, .reg Reg.FI_FL.EN, .reg Reg.FI_PCIE.EN,
    .reg Reg.FI_CNT.INJECTED]) s (startServe s) := by
  unfold startServe
  repeat' first
    | intro _
    | with_reducible assumption
    | with_reducible exact Only.refl _ _
    | (extract_lets +onlyGivenNames x; refine Only.cut x ?_ (fun _ => ?_); unfold x; clear x; rotate_left; clear_value x)
    | (extract_lets +onlyGivenNames x; refine Only.cut2 x ?_ (fun _ => ?_); unfold x; clear x; rotate_left; clear_value x)
    | (extract_lets +onlyGivenNames x; refine Only.cutF x ?_ (fun _ => ?_); unfold x; clear x; rotate_left; clear_value x)
    | (extract_lets +onlyGivenNames x; refine Only.cutG x ?_ (fun _ => ?_); unfold x; clear x; rotate_left; clear_value x)
    | (extract_lets +onlyGivenNames x; refine Only.cutG2 x ?_ (fun _ => ?_); unfold x; clear x; rotate_left; clear_value x)
    | (extract_lets +onlyGivenNames x; refine Only.cutG3 x ?_ (fun _ => ?_); unfold x; clear x; rotate_left; clear_value x)
    | (extract_lets +onlyGivenNames x; refine Only.cutH x ?_ (fun _ => ?_); unfold x; clear x; rotate_left; clear_value x)
    | (extract_lets +onlyGivenNames x; clear_value x)
    | with_reducible apply Only.ite
    | fail_if_no_progress (with_reducible apply Only.upd_mx_ns_tw; decide +kernel; decide +kernel; decide +kernel)
    | fail_if_no_progress (with_reducible apply Only.upd_fs; decide +kernel)
    | (with_reducible apply Only.step (journalNow_only ..); exact .of (by decide +kernel))
    | (with_reducible apply Only.step (jAppend_only ..); exact .of (by decide +kernel))
    | (with_reducible apply Only.step (startNsKey_only ..); exact .of (by decide +kernel))
    | (with_reducible apply Only.step (resumeErases_only ..); exact .of (by decide +kernel))
    | (with_reducible apply Only.step (askDue_only ..); exact .of (by decide +kernel))
    | (with_reducible apply Only.step (enterMode_only ..); exact .of (by decide +kernel))
    | (with_reducible apply Only.step (evModeChanged_only ..); exact .of (by decide +kernel))
    | (with_reducible apply Only.step (raiseArb_only ..); exact .of (by decide +kernel))
    | (with_reducible apply Only.step (startMigration_only ..); exact .of (by decide +kernel))
    | with_reducible refine Only.foldl (fun _ _ _ => ?_) ?_
    | with_reducible refine Only.foldl2 (fun _ _ _ => ?_) ?_
    | with_reducible apply_assumption -exfalso -symm
    | split
    | dsimp only

/-- What `startToken` may change. -/
theorem startToken_only (s : State) :
    Only [.gen] s (startToken s) := by
  unfold startToken
  repeat' first
    | intro _
    | with_reducible assumption
    | with_reducible exact Only.refl _ _
    | with_reducible apply Only.ite
    | fail_if_no_progress (with_reducible apply Only.upd_gen; decide +kernel)
    | with_reducible apply_assumption -exfalso -symm
    | split
    | dsimp only

/-- What `startDrainLost` may change. -/
theorem startDrainLost_only (s : State) :
    Only [.mg, .reg Reg.MG_LOGSTAT.DROPPED,
    .reg Reg.MG_ERR.LOGDROP] s (startDrainLost s) := by
  unfold startDrainLost
  repeat' first
    | intro _
    | with_reducible assumption
    | with_reducible exact Only.refl _ _
    | with_reducible apply Only.ite
    | fail_if_no_progress (with_reducible apply Only.upd_mg; decide +kernel)
    | (with_reducible apply Only.step (logEvent_only ..); exact .of (by decide +kernel))
    | with_reducible apply_assumption -exfalso -symm
    | split
    | dsimp only

/-- What `startupCompleteEff` may change. -/
theorem startupCompleteEff_only (durationMs : Nat) (s : State) :
    Only (List.append [.freeCtr, .out, .gen, .he, .ctl, .cmds,
    .fs, .mx, .ns, .mm, .bp, .gf, .tw, .dg, .mg, .fi, .nand, .ff, .prov, .fuses, .reg Reg.GEN_START.DURATION,
    .reg Reg.GEN_DRAIN.ACTIVE, .reg Reg.HE_WINLOG.COUNT, .reg Reg.HE_WINLOG.CAUSE, .reg Reg.HE_WINLOG.PORT,
    .reg Reg.HE_WINLOGLO.OFFSET, .reg Reg.HE_WINLOGHI.OFFSET, .reg Reg.HE_WINLOGHI.RID, .reg Reg.QE_CQFULL.COUNT,
    .reg Reg.MX_ERR.CEILHOLD] [.reg Reg.DC_ERR.UNWRAP, .reg Reg.DC_ERR.CEKEY, .reg Reg.BP_ERRBUF.INDEX,
    .reg Reg.BP_ERRBUF.OWNER, .reg Reg.BP_ERRBUF.CAUSE, .reg Reg.BP_ERR.REVOKE, .reg Reg.GF_XFER.FAILED,
    .reg Reg.GF_ERR.XFERFAIL, .reg Reg.TW_ERR.CUTUNK, .reg Reg.MG_LOGSTAT.DROPPED, .reg Reg.MG_ERR.LOGDROP,
    .reg Reg.FI_ARM.ARMED, .reg Reg.FI_ARM.DCAUSE, .reg Reg.FI_GF.EN, .reg Reg.FI_FL.EN, .reg Reg.FI_PCIE.EN,
    .reg Reg.FI_CNT.INJECTED]) s (startupCompleteEff durationMs s) := by
  unfold startupCompleteEff
  repeat' first
    | intro _
    | with_reducible assumption
    | with_reducible exact Only.refl _ _
    | (extract_lets +onlyGivenNames x; refine Only.cut x ?_ (fun _ => ?_); unfold x; clear x; rotate_left; clear_value x)
    | (extract_lets +onlyGivenNames x; refine Only.cut2 x ?_ (fun _ => ?_); unfold x; clear x; rotate_left; clear_value x)
    | (extract_lets +onlyGivenNames x; clear_value x)
    | with_reducible apply Only.ite
    | (with_reducible apply Only.step (setSat_only ..); exact .of (by decide +kernel))
    | (with_reducible apply Only.step (enterQuarantine_only ..); exact .of (by decide +kernel))
    | (with_reducible apply Only.step (startDrainLost_only ..); exact .of (by decide +kernel))
    | (with_reducible apply Only.step (startToken_only ..); exact .of (by decide +kernel))
    | (with_reducible apply Only.step (enterMode_only ..); exact .of (by decide +kernel))
    | (with_reducible apply Only.step (startServe_only ..); exact .of (by decide +kernel))
    | with_reducible apply_assumption -exfalso -symm
    | split
    | dsimp only

/-- What `execStartupComplete` may change. -/
theorem execStartupComplete_only (durationMs : Nat) (s : State) :
    ∃ t,
    execStartupComplete durationMs s = .next t ∧ Only (List.append [.freeCtr, .out, .gen, .he, .ctl, .cmds, .fs, .mx, .ns, .mm,
    .bp, .gf, .tw, .dg, .mg, .fi, .nand, .ff, .prov, .fuses, .reg Reg.GEN_START.DURATION, .reg Reg.GEN_DRAIN.ACTIVE,
    .reg Reg.HE_WINLOG.COUNT, .reg Reg.HE_WINLOG.CAUSE, .reg Reg.HE_WINLOG.PORT, .reg Reg.HE_WINLOGLO.OFFSET,
    .reg Reg.HE_WINLOGHI.OFFSET, .reg Reg.HE_WINLOGHI.RID, .reg Reg.QE_CQFULL.COUNT,
    .reg Reg.MX_ERR.CEILHOLD] [.reg Reg.DC_ERR.UNWRAP, .reg Reg.DC_ERR.CEKEY, .reg Reg.BP_ERRBUF.INDEX,
    .reg Reg.BP_ERRBUF.OWNER, .reg Reg.BP_ERRBUF.CAUSE, .reg Reg.BP_ERR.REVOKE, .reg Reg.GF_XFER.FAILED,
    .reg Reg.GF_ERR.XFERFAIL, .reg Reg.TW_ERR.CUTUNK, .reg Reg.MG_LOGSTAT.DROPPED, .reg Reg.MG_ERR.LOGDROP,
    .reg Reg.FI_ARM.ARMED, .reg Reg.FI_ARM.DCAUSE, .reg Reg.FI_GF.EN, .reg Reg.FI_FL.EN, .reg Reg.FI_PCIE.EN,
    .reg Reg.FI_CNT.INJECTED]) s t := by
  unfold execStartupComplete
  refine ⟨_, rfl, ?_⟩
  repeat' first
    | intro _
    | with_reducible assumption
    | with_reducible exact Only.refl _ _
    | (with_reducible apply Only.step (startupCompleteEff_only ..); exact .of (by decide +kernel))
    | with_reducible apply_assumption -exfalso -symm
    | split
    | dsimp only

end Sys2Proof.Machine
end

