-- ==== Sys2Proof/Laws/FrameDrain.lean ====
section
/-! SUPPORT. What each operation of Machine/Drain.lean may change, as `Only` states it: one lemma an operation, which later proofs cite
instead of unfolding it. -/
namespace Sys2Proof.Machine
set_option Elab.async false
set_option linter.all false

/-- What `programEnds` may change. -/
theorem programEnds_only (num w m : Nat) (s : State) :
    Only [.mx, .mm, .bp, .nand, .reg Reg.MM_ERR.SHORTCLOSE,
    .reg Reg.DC_RAWCNT.COUNT] s (programEnds num w m s) := by
  unfold programEnds
  repeat' first
    | intro _
    | with_reducible assumption
    | with_reducible exact Only.refl _ _
    | with_reducible apply Only.ite
    | (with_reducible apply Only.step (memberPassed_only ..); exact .of (by decide +kernel))
    | with_reducible apply_assumption -exfalso -symm
    | split
    | dsimp only

/-- What `drainPrograms` may change. -/
theorem drainPrograms_only (s : State) :
    Only [.mx, .mm, .bp, .nand, .reg Reg.MM_ERR.SHORTCLOSE,
    .reg Reg.DC_RAWCNT.COUNT] s (drainPrograms s) := by
  unfold drainPrograms
  repeat' first
    | intro _
    | with_reducible assumption
    | with_reducible exact Only.refl _ _
    | (with_reducible apply Only.step (programEnds_only ..); exact .of (by decide +kernel))
    | with_reducible refine Only.foldl (fun _ _ _ => ?_) ?_
    | with_reducible refine Only.foldl2 (fun _ _ _ => ?_) ?_
    | with_reducible apply_assumption -exfalso -symm
    | split
    | dsimp only

/-- What `drainVat` may change. -/
theorem drainVat_only (s : State) :
    Only [.out, .he, .ctl, .sh, .defFaults, .lost, .fs, .mx, .mm, .bp, .me, .mg, .nand,
    .reg Reg.QE_CQFULL.COUNT, .reg Reg.ME_POISON.CONSUMED, .reg Reg.ME_LASTHI.KIND, .reg Reg.ME_ERR.POISON,
    .reg Reg.MG_LOGSTAT.DROPPED, .reg Reg.MG_ERR.LOGDROP] s (drainVat s) := by
  unfold drainVat
  repeat' first
    | intro _
    | with_reducible assumption
    | with_reducible exact Only.refl _ _
    | (with_reducible apply Only.step (flushStaged_only ..); exact .of (by decide +kernel))
    | (with_reducible apply Only.step (completeMerges_only ..); exact .of (by decide +kernel))
    | with_reducible apply_assumption -exfalso -symm
    | split
    | dsimp only

/-- What `drainTail` may change. -/
theorem drainTail_only (s : State) :
    Only [.mx, .mm, .sp, .nand] s (drainTail s) := by
  unfold drainTail
  repeat' first
    | intro _
    | with_reducible assumption
    | with_reducible exact Only.refl _ _
    | (extract_lets +onlyGivenNames x; refine Only.cut x ?_ (fun _ => ?_); unfold x; clear x; rotate_left; clear_value x)
    | (extract_lets +onlyGivenNames x; refine Only.cut2 x ?_ (fun _ => ?_); unfold x; clear x; rotate_left; clear_value x)
    | (extract_lets +onlyGivenNames x; clear_value x)
    | (with_reducible apply Only.step (journalNow_only ..); exact .of (by decide +kernel))
    | (with_reducible apply Only.step (snapDurableNow_only ..); exact .of (by decide +kernel))
    | with_reducible apply_assumption -exfalso -symm
    | split
    | dsimp only

/-- What `drainRecord` may change. -/
theorem drainRecord_only (s : State) :
    Only [.mx, .mm, .mg, .nand, .ff, .reg Reg.MG_LOGSTAT.PFULL] s (drainRecord s) := by
  unfold drainRecord
  repeat' first
    | intro _
    | with_reducible assumption
    | with_reducible exact Only.refl _ _
    | (extract_lets +onlyGivenNames x; refine Only.cut x ?_ (fun _ => ?_); unfold x; clear x; rotate_left; clear_value x)
    | (extract_lets +onlyGivenNames x; refine Only.cut2 x ?_ (fun _ => ?_); unfold x; clear x; rotate_left; clear_value x)
    | (extract_lets +onlyGivenNames x; clear_value x)
    | fail_if_no_progress (with_reducible apply Only.upd_nand; decide +kernel)
    | (with_reducible apply Only.step (drainLog_only ..); exact .of (by decide +kernel))
    | (with_reducible apply Only.step (journalNow_only ..); exact .of (by decide +kernel))
    | (with_reducible apply Only.step (jAppend_only ..); exact .of (by decide +kernel))
    | with_reducible apply_assumption -exfalso -symm
    | split
    | dsimp only

/-- What `drainSteps` may change. -/
theorem drainSteps_only (n : Nat) (s : State) : Only [.out, .he, .ctl, .sh, .defFaults, .lost, .fs, .mx, .mm, .sp, .bp, .me, .mg, .nand, .ff, .reg Reg.QE_CQFULL.COUNT,
    .reg Reg.MM_ERR.SHORTCLOSE, .reg Reg.DC_RAWCNT.COUNT, .reg Reg.ME_POISON.CONSUMED, .reg Reg.ME_LASTHI.KIND,
    .reg Reg.ME_ERR.POISON, .reg Reg.MG_LOGSTAT.PFULL, .reg Reg.MG_LOGSTAT.DROPPED, .reg Reg.MG_ERR.LOGDROP] s (drainSteps n s) := by
  have key : ∀ (w : List Fld) (l : List (State → State)), (∀ f ∈ l, ∀ u, Only w u (f u)) → ∀ u, Only w u (l.foldl (fun t f => f t) u) := by
    intro w l
    induction l with
    | nil => intro _ u; exact Only.refl _ _
    | cons f l ih => intro h u; exact (h f (List.mem_cons_self ..) u).trans (ih (fun g hg => h g (List.mem_cons_of_mem _ hg)) _)
  unfold drainSteps
  refine key _ _ (fun f hf u => ?_) s
  have hf := List.mem_of_mem_take hf
  simp only [List.mem_cons, List.not_mem_nil, or_false] at hf
  rcases hf with rfl | rfl | rfl | rfl
  · exact (drainPrograms_only u).mono (.of (by decide +kernel))
  · exact (drainVat_only u).mono (.of (by decide +kernel))
  · exact (drainTail_only u).mono (.of (by decide +kernel))
  · exact (drainRecord_only u).mono (.of (by decide +kernel))

/-- What `drainFlush` may change. -/
theorem drainFlush_only (s : State) :
    Only [.out, .he, .ctl, .sh, .defFaults, .lost, .fs, .mx, .mm, .sp, .bp, .me, .mg,
    .nand, .ff, .reg Reg.QE_CQFULL.COUNT, .reg Reg.MM_ERR.SHORTCLOSE, .reg Reg.DC_RAWCNT.COUNT, .reg Reg.ME_POISON.CONSUMED,
    .reg Reg.ME_LASTHI.KIND, .reg Reg.ME_ERR.POISON, .reg Reg.MG_LOGSTAT.PFULL, .reg Reg.MG_LOGSTAT.DROPPED,
    .reg Reg.MG_ERR.LOGDROP] s (drainFlush s) := by
  unfold drainFlush
  repeat' first
    | intro _
    | with_reducible assumption
    | with_reducible exact Only.refl _ _
    | (with_reducible apply Only.step (drainSteps_only ..); exact .of (by decide +kernel))
    | with_reducible apply_assumption -exfalso -symm
    | split
    | dsimp only

/-- What `powerOnNow` may change. -/
theorem powerOnNow_only (s : State) :
    Only [.freeCtr, .out, .eff, .time, .pins, .gen, .he, .ctl, .sh, .defFaults, .lost,
    .cmds, .nextCmd, .fs, .mx, .ns, .nsWait, .mm, .sp, .cs, .bp, .me, .gf, .tw, .dg, .mg, .fi, .nand, .ff,
    .regs] s (powerOnNow s) := by
  unfold powerOnNow
  repeat' first
    | intro _
    | with_reducible assumption
    | with_reducible exact Only.refl _ _
    | with_reducible apply Only.ite
    | (with_reducible apply Only.step (powerOnReset_only ..); exact .of (by decide +kernel))
    | (with_reducible apply Only.step (drainSteps_only ..); exact .of (by decide +kernel))
    | (with_reducible apply Only.step (tickFree_only ..); exact .of (by decide +kernel))
    | with_reducible apply_assumption -exfalso -symm
    | split
    | dsimp only

/-- What `resetFromQuarantine` may change. -/
theorem resetFromQuarantine_only (s : State) :
    Only [.out, .eff, .gen, .he, .ctl, .sh, .defFaults, .lost, .cmds, .nextCmd,
    .fs, .mx, .ns, .nsWait, .mm, .sp, .cs, .bp, .me, .gf, .tw, .dg, .mg, .fi, .nand, .ff, .prov, .win 0x80000 0x100000,
    .win 0x88000 0xF0000] s (resetFromQuarantine s) := by
  unfold resetFromQuarantine
  repeat' first
    | intro _
    | with_reducible assumption
    | with_reducible exact Only.refl _ _
    | with_reducible apply Only.ite
    | (with_reducible apply Only.step (y9Reset_only ..); exact .of (by decide +kernel))
    | (with_reducible apply Only.step (drainFlush_only ..); exact .of (by decide +kernel))
    | with_reducible apply_assumption -exfalso -symm
    | split
    | dsimp only

end Sys2Proof.Machine
end

