-- ==== Sys2Proof/Laws/FramePower.lean ====
section
/-! SUPPORT. What each operation of Machine/Power.lean may change, as `Only` states it: one lemma an operation, which later proofs cite
instead of unfolding it. -/
namespace Sys2Proof.Machine
set_option Elab.async false
set_option linter.all false

/-- What `porNAssertEff` may change. -/
theorem porNAssertEff_only (lowUs : Nat) (s : State) :
    Only [.freeCtr, .out, .eff, .time, .pins, .gen, .he, .ctl, .sh,
    .defFaults, .lost, .cmds, .nextCmd, .fs, .mx, .ns, .nsWait, .mm, .sp, .cs, .bp, .me, .gf, .tw, .dg, .mg, .fi, .nand, .ff,
    .regs] s (porNAssertEff lowUs s) := by
  unfold porNAssertEff
  repeat' first
    | intro _
    | with_reducible assumption
    | with_reducible exact Only.refl _ _
    | with_reducible apply Only.ite
    | (with_reducible apply Only.step (powerOnNow_only ..); exact .of (by decide +kernel))
    | with_reducible apply_assumption -exfalso -symm
    | split
    | dsimp only

/-- What `execPorNAssert` may change. -/
theorem execPorNAssert_only (lowUs : Nat) (s : State) :
    ∃ t, execPorNAssert lowUs s = .next t ∧ Only [.freeCtr, .out, .eff,
    .time, .pins, .gen, .he, .ctl, .sh, .defFaults, .lost, .cmds, .nextCmd, .fs, .mx, .ns, .nsWait, .mm, .sp, .cs, .bp, .me,
    .gf, .tw, .dg, .mg, .fi, .nand, .ff, .regs] s t := by
  unfold execPorNAssert
  refine ⟨_, rfl, ?_⟩
  repeat' first
    | intro _
    | with_reducible assumption
    | with_reducible exact Only.refl _ _
    | (with_reducible apply Only.step (porNAssertEff_only ..); exact .of (by decide +kernel))
    | with_reducible apply_assumption -exfalso -symm
    | split
    | dsimp only

/-- What `porNDeassertEff` may change. -/
theorem porNDeassertEff_only (bifur : Bool) (pwrHighUs : Nat) (s : State) :
    Only [.out, .pins, .gen, .he, .ctl, .fs, .cs,
    .bp, .dg, .mg, .fi, .prov, .win 0x80000 0x100000] s (porNDeassertEff bifur pwrHighUs s) := by
  unfold porNDeassertEff
  repeat' first
    | intro _
    | with_reducible assumption
    | with_reducible exact Only.refl _ _
    | with_reducible apply Only.ite
    | fail_if_no_progress (with_reducible apply Only.upd_pins; decide +kernel)
    | (with_reducible apply Only.step (rowOne_only ..); exact .of (by decide +kernel))
    | with_reducible apply_assumption -exfalso -symm
    | split
    | dsimp only

/-- What `execPorNDeassert` may change. -/
theorem execPorNDeassert_only (bifur : Bool) (pwrHighUs : Nat) (s : State) :
    ∃ t,
    execPorNDeassert bifur pwrHighUs s = .next t ∧ Only [.out, .pins, .gen, .he, .ctl, .fs, .cs, .bp, .dg, .mg, .fi, .prov,
    .win 0x80000 0x100000] s t := by
  unfold execPorNDeassert
  refine ⟨_, rfl, ?_⟩
  repeat' first
    | intro _
    | with_reducible assumption
    | with_reducible exact Only.refl _ _
    | (with_reducible apply Only.step (porNDeassertEff_only ..); exact .of (by decide +kernel))
    | with_reducible apply_assumption -exfalso -symm
    | split
    | dsimp only

/-- What `pwrFailNAssertEff` may change. -/
theorem pwrFailNAssertEff_only (lowNs : Nat) (s : State) :
    Only [.out, .eff, .pins, .gen, .he, .ctl, .sh, .defFaults, .lost,
    .cmds, .nextCmd, .fs, .mx, .ns, .nsWait, .mm, .sp, .cs, .bp, .me, .gf, .tw, .dg, .mg, .fi, .nand, .prov,
    .win 0x80000 0x100000, .win 0x88000 0xF0000] s (pwrFailNAssertEff lowNs s) := by
  unfold pwrFailNAssertEff
  repeat' first
    | intro _
    | with_reducible assumption
    | with_reducible exact Only.refl _ _
    | with_reducible apply Only.ite
    | (with_reducible apply Only.step (powerFail_only ..); exact .of (by decide +kernel))
    | with_reducible apply_assumption -exfalso -symm
    | split
    | dsimp only

/-- What `execPwrFailNAssert` may change. -/
theorem execPwrFailNAssert_only (lowNs : Nat) (s : State) :
    ∃ t, execPwrFailNAssert lowNs s = .next t ∧ Only [.out, .eff,
    .pins, .gen, .he, .ctl, .sh, .defFaults, .lost, .cmds, .nextCmd, .fs, .mx, .ns, .nsWait, .mm, .sp, .cs, .bp, .me, .gf, .tw,
    .dg, .mg, .fi, .nand, .prov, .win 0x80000 0x100000, .win 0x88000 0xF0000] s t := by
  unfold execPwrFailNAssert
  refine ⟨_, rfl, ?_⟩
  repeat' first
    | intro _
    | with_reducible assumption
    | with_reducible exact Only.refl _ _
    | (with_reducible apply Only.step (pwrFailNAssertEff_only ..); exact .of (by decide +kernel))
    | with_reducible apply_assumption -exfalso -symm
    | split
    | dsimp only

/-- What `pwrFailNDeassertEff` may change. -/
theorem pwrFailNDeassertEff_only (highUs : Nat) (s : State) :
    Only [.out, .pins, .gen, .he, .ctl, .fs, .cs, .bp, .dg, .mg,
    .fi, .prov, .win 0x80000 0x100000] s (pwrFailNDeassertEff highUs s) := by
  unfold pwrFailNDeassertEff
  repeat' first
    | intro _
    | with_reducible assumption
    | with_reducible exact Only.refl _ _
    | with_reducible apply Only.ite
    | fail_if_no_progress (with_reducible apply Only.upd_pins; decide +kernel)
    | (with_reducible apply Only.step (rowOne_only ..); exact .of (by decide +kernel))
    | with_reducible apply_assumption -exfalso -symm
    | split
    | dsimp only

/-- What `execPwrFailNDeassert` may change. -/
theorem execPwrFailNDeassert_only (highUs : Nat) (s : State) :
    ∃ t, execPwrFailNDeassert highUs s = .next t ∧ Only [.out,
    .pins, .gen, .he, .ctl, .fs, .cs, .bp, .dg, .mg, .fi, .prov, .win 0x80000 0x100000] s t := by
  unfold execPwrFailNDeassert
  refine ⟨_, rfl, ?_⟩
  repeat' first
    | intro _
    | with_reducible assumption
    | with_reducible exact Only.refl _ _
    | (with_reducible apply Only.step (pwrFailNDeassertEff_only ..); exact .of (by decide +kernel))
    | with_reducible apply_assumption -exfalso -symm
    | split
    | dsimp only

/-- What `drainFlushCompleteEff` may change. -/
theorem drainFlushCompleteEff_only (s : State) :
    Only [.out, .eff, .gen, .he, .ctl, .sh, .defFaults, .lost, .cmds, .nextCmd,
    .fs, .mx, .ns, .nsWait, .mm, .sp, .cs, .bp, .me, .gf, .tw, .dg, .mg, .fi, .nand, .ff, .prov, .win 0x80000 0x100000,
    .win 0x88000 0xF0000] s (drainFlushCompleteEff s) := by
  unfold drainFlushCompleteEff
  repeat' first
    | intro _
    | with_reducible assumption
    | with_reducible exact Only.refl _ _
    | (extract_lets +onlyGivenNames x; refine Only.cut x ?_ (fun _ => ?_); unfold x; clear x; rotate_left; clear_value x)
    | (extract_lets +onlyGivenNames x; refine Only.cut2 x ?_ (fun _ => ?_); unfold x; clear x; rotate_left; clear_value x)
    | (extract_lets +onlyGivenNames x; clear_value x)
    | with_reducible apply Only.ite
    | fail_if_no_progress (with_reducible apply Only.upd_gen; decide +kernel)
    | (with_reducible apply Only.step (flagOff_only ..); exact .of (by decide +kernel))
    | (with_reducible apply Only.step (y9Reset_only ..); exact .of (by decide +kernel))
    | (with_reducible apply Only.step (drainFlush_only ..); exact .of (by decide +kernel))
    | with_reducible apply_assumption -exfalso -symm
    | split
    | dsimp only

/-- What `execDrainFlushComplete` may change. -/
theorem execDrainFlushComplete_only (s : State) :
    ∃ t, execDrainFlushComplete s = .next t ∧ Only [.out, .eff, .gen, .he,
    .ctl, .sh, .defFaults, .lost, .cmds, .nextCmd, .fs, .mx, .ns, .nsWait, .mm, .sp, .cs, .bp, .me, .gf, .tw, .dg, .mg, .fi,
    .nand, .ff, .prov, .win 0x80000 0x100000, .win 0x88000 0xF0000] s t := by
  unfold execDrainFlushComplete
  refine ⟨_, rfl, ?_⟩
  repeat' first
    | intro _
    | with_reducible assumption
    | with_reducible exact Only.refl _ _
    | (with_reducible apply Only.step (drainFlushCompleteEff_only ..); exact .of (by decide +kernel))
    | with_reducible apply_assumption -exfalso -symm
    | split
    | dsimp only

/-- What `twinFenceInAssertEff` may change. -/
theorem twinFenceInAssertEff_only (s : State) :
    Only [.out, .pins, .gen, .he, .ctl, .cmds, .fs, .mx, .mm, .bp, .tw, .dg,
    .mg, .fi, .prov, .reg Reg.GEN_DRAIN.ACTIVE, .reg Reg.QE_CQFULL.COUNT, .reg Reg.BP_ERRBUF.INDEX, .reg Reg.BP_ERRBUF.OWNER,
    .reg Reg.BP_ERRBUF.CAUSE, .reg Reg.BP_ERR.REVOKE, .reg Reg.MG_LOGSTAT.DROPPED, .reg Reg.MG_ERR.LOGDROP,
    .reg Reg.FI_ARM.ARMED, .reg Reg.FI_ARM.DCAUSE, .reg Reg.FI_GF.EN, .reg Reg.FI_FL.EN,
    .reg Reg.FI_PCIE.EN] s (twinFenceInAssertEff s) := by
  unfold twinFenceInAssertEff
  repeat' first
    | intro _
    | with_reducible assumption
    | with_reducible exact Only.refl _ _
    | fail_if_no_progress (with_reducible apply Only.upd_pins; decide +kernel)
    | (with_reducible apply Only.step (quarantineNow_only ..); exact .of (by decide +kernel))
    | with_reducible apply_assumption -exfalso -symm
    | split
    | dsimp only

/-- What `execTwinFenceInAssert` may change. -/
theorem execTwinFenceInAssert_only (s : State) :
    ∃ t, execTwinFenceInAssert s = .next t ∧ Only [.out, .pins, .gen, .he,
    .ctl, .cmds, .fs, .mx, .mm, .bp, .tw, .dg, .mg, .fi, .prov, .reg Reg.GEN_DRAIN.ACTIVE, .reg Reg.QE_CQFULL.COUNT,
    .reg Reg.BP_ERRBUF.INDEX, .reg Reg.BP_ERRBUF.OWNER, .reg Reg.BP_ERRBUF.CAUSE, .reg Reg.BP_ERR.REVOKE,
    .reg Reg.MG_LOGSTAT.DROPPED, .reg Reg.MG_ERR.LOGDROP, .reg Reg.FI_ARM.ARMED, .reg Reg.FI_ARM.DCAUSE, .reg Reg.FI_GF.EN,
    .reg Reg.FI_FL.EN, .reg Reg.FI_PCIE.EN] s t := by
  unfold execTwinFenceInAssert
  refine ⟨_, rfl, ?_⟩
  repeat' first
    | intro _
    | with_reducible assumption
    | with_reducible exact Only.refl _ _
    | (with_reducible apply Only.step (twinFenceInAssertEff_only ..); exact .of (by decide +kernel))
    | with_reducible apply_assumption -exfalso -symm
    | split
    | dsimp only

/-- What `twinFenceInDeassertEff` may change. -/
theorem twinFenceInDeassertEff_only (s : State) :
    Only [.out, .eff, .pins, .gen, .he, .ctl, .sh, .defFaults, .lost, .cmds,
    .nextCmd, .fs, .mx, .ns, .nsWait, .mm, .sp, .cs, .bp, .me, .gf, .tw, .dg, .mg, .fi, .nand, .ff, .prov,
    .win 0x80000 0x100000, .win 0x88000 0xF0000] s (twinFenceInDeassertEff s) := by
  unfold twinFenceInDeassertEff
  repeat' first
    | intro _
    | with_reducible assumption
    | with_reducible exact Only.refl _ _
    | (extract_lets +onlyGivenNames x; refine Only.cut x ?_ (fun _ => ?_); unfold x; clear x; rotate_left; clear_value x)
    | (extract_lets +onlyGivenNames x; refine Only.cut2 x ?_ (fun _ => ?_); unfold x; clear x; rotate_left; clear_value x)
    | (extract_lets +onlyGivenNames x; clear_value x)
    | with_reducible apply Only.ite
    | fail_if_no_progress (with_reducible apply Only.upd_pins; decide +kernel)
    | (with_reducible apply Only.step (resetFromQuarantine_only ..); exact .of (by decide +kernel))
    | with_reducible apply_assumption -exfalso -symm
    | split
    | dsimp only

/-- What `execTwinFenceInDeassert` may change. -/
theorem execTwinFenceInDeassert_only (s : State) :
    ∃ t, execTwinFenceInDeassert s = .next t ∧ Only [.out, .eff, .pins, .gen,
    .he, .ctl, .sh, .defFaults, .lost, .cmds, .nextCmd, .fs, .mx, .ns, .nsWait, .mm, .sp, .cs, .bp, .me, .gf, .tw, .dg, .mg,
    .fi, .nand, .ff, .prov, .win 0x80000 0x100000, .win 0x88000 0xF0000] s t := by
  unfold execTwinFenceInDeassert
  refine ⟨_, rfl, ?_⟩
  repeat' first
    | intro _
    | with_reducible assumption
    | with_reducible exact Only.refl _ _
    | (with_reducible apply Only.step (twinFenceInDeassertEff_only ..); exact .of (by decide +kernel))
    | with_reducible apply_assumption -exfalso -symm
    | split
    | dsimp only

/-- What `twinHbInChangeEff` may change. -/
theorem twinHbInChangeEff_only (heldNs : Nat) (s : State) :
    Only [.pins, .tw] s (twinHbInChangeEff heldNs s) := by
  unfold twinHbInChangeEff
  repeat' first
    | intro _
    | with_reducible assumption
    | with_reducible exact Only.refl _ _
    | with_reducible apply Only.ite
    | fail_if_no_progress (with_reducible apply Only.upd_pins_tw; decide +kernel; decide +kernel)
    | with_reducible apply_assumption -exfalso -symm
    | split
    | dsimp only

/-- What `execTwinHbInChange` may change. -/
theorem execTwinHbInChange_only (heldNs : Nat) (s : State) :
    ∃ t, execTwinHbInChange heldNs s = .next t ∧ Only [.pins,
    .tw] s t := by
  unfold execTwinHbInChange
  refine ⟨_, rfl, ?_⟩
  repeat' first
    | intro _
    | with_reducible assumption
    | with_reducible exact Only.refl _ _
    | (with_reducible apply Only.step (twinHbInChangeEff_only ..); exact .of (by decide +kernel))
    | with_reducible apply_assumption -exfalso -symm
    | split
    | dsimp only

/-- What `tsyncCorrect` may change. -/
theorem tsyncCorrect_only (m : Nat) (s : State) :
    Only [.out, .time, .ctl, .cmds, .fs, .gf, .mg, .reg Reg.GF_TOFFS.STEPS,
    .reg Reg.GF_ERR.TIMESTEP, .reg Reg.MG_LOGSTAT.DROPPED, .reg Reg.MG_ERR.LOGDROP] s (tsyncCorrect m s) := by
  unfold tsyncCorrect
  repeat' first
    | intro _
    | with_reducible assumption
    | with_reducible exact Only.refl _ _
    | (extract_lets +onlyGivenNames x; refine Only.cut x ?_ (fun _ => ?_); unfold x; clear x; rotate_left; clear_value x)
    | (extract_lets +onlyGivenNames x; refine Only.cut2 x ?_ (fun _ => ?_); unfold x; clear x; rotate_left; clear_value x)
    | (extract_lets +onlyGivenNames x; clear_value x)
    | with_reducible apply Only.ite
    | fail_if_no_progress (with_reducible apply Only.upd_gf; decide +kernel)
    | (with_reducible apply Only.step (timeStep_only ..); exact .of (by decide +kernel))
    | (with_reducible apply Only.step (correctBehind_only ..); exact .of (by decide +kernel))
    | with_reducible apply_assumption -exfalso -symm
    | split
    | dsimp only

/-- What `tsyncInEdgeEff` may change. -/
theorem tsyncInEdgeEff_only (s : State) :
    Only [.out, .time, .ctl, .cmds, .fs, .gf, .mg, .reg Reg.GF_TOFFS.STEPS,
    .reg Reg.GF_ERR.TIMESTEP, .reg Reg.MG_LOGSTAT.DROPPED, .reg Reg.MG_ERR.LOGDROP] s (tsyncInEdgeEff s) := by
  unfold tsyncInEdgeEff
  repeat' first
    | intro _
    | with_reducible assumption
    | with_reducible exact Only.refl _ _
    | with_reducible apply Only.ite
    | (with_reducible apply Only.step (tsyncCorrect_only ..); exact .of (by decide +kernel))
    | with_reducible apply_assumption -exfalso -symm
    | split
    | dsimp only

/-- What `execTsyncInEdge` may change. -/
theorem execTsyncInEdge_only (s : State) :
    ∃ t, execTsyncInEdge s = .next t ∧ Only [.out, .time, .ctl, .cmds, .fs, .gf, .mg,
    .reg Reg.GF_TOFFS.STEPS, .reg Reg.GF_ERR.TIMESTEP, .reg Reg.MG_LOGSTAT.DROPPED, .reg Reg.MG_ERR.LOGDROP] s t := by
  unfold execTsyncInEdge
  refine ⟨_, rfl, ?_⟩
  repeat' first
    | intro _
    | with_reducible assumption
    | with_reducible exact Only.refl _ _
    | (with_reducible apply Only.step (tsyncInEdgeEff_only ..); exact .of (by decide +kernel))
    | with_reducible apply_assumption -exfalso -symm
    | split
    | dsimp only

/-- What `huGoodDeassertEff` may change. -/
theorem huGoodDeassertEff_only (s : State) :
    Only (List.append [.freeCtr, .out, .pins, .he, .ctl, .sh, .defFaults, .lost,
    .fs, .mx, .mm, .bp, .me, .gf, .tw, .mg, .fi, .reg Reg.GEN_HOLDUP.VERIFIED, .reg Reg.GEN_HOLDUP.WTHRU,
    .reg Reg.HE_WINLOG.COUNT, .reg Reg.HE_WINLOG.CAUSE, .reg Reg.HE_WINLOG.PORT, .reg Reg.HE_WINLOGLO.OFFSET,
    .reg Reg.HE_WINLOGHI.OFFSET, .reg Reg.HE_WINLOGHI.RID, .reg Reg.QE_CQFULL.COUNT, .reg Reg.BP_ERRBUF.INDEX,
    .reg Reg.BP_ERRBUF.OWNER, .reg Reg.BP_ERRBUF.CAUSE, .reg Reg.BP_ERR.REVOKE] [.reg Reg.ME_POISON.CONSUMED,
    .reg Reg.ME_LASTHI.KIND, .reg Reg.ME_ERR.POISON, .reg Reg.GF_XFER.FAILED, .reg Reg.GF_ERR.XFERFAIL,
    .reg Reg.MG_LOGSTAT.DROPPED, .reg Reg.MG_ERR.HULOW, .reg Reg.MG_ERR.LOGDROP,
    .reg Reg.FI_CNT.INJECTED]) s (huGoodDeassertEff s) := by
  unfold huGoodDeassertEff
  repeat' first
    | intro _
    | with_reducible assumption
    | with_reducible exact Only.refl _ _
    | (extract_lets +onlyGivenNames x; refine Only.cut x ?_ (fun _ => ?_); unfold x; clear x; rotate_left; clear_value x)
    | (extract_lets +onlyGivenNames x; refine Only.cut2 x ?_ (fun _ => ?_); unfold x; clear x; rotate_left; clear_value x)
    | (extract_lets +onlyGivenNames x; clear_value x)
    | with_reducible apply Only.ite
    | fail_if_no_progress (with_reducible apply Only.upd_pins; decide +kernel)
    | (with_reducible apply Only.step (flagOn_only ..); exact .of (by decide +kernel))
    | (with_reducible apply Only.step (writeThroughEnter_only ..); exact .of (by decide +kernel))
    | with_reducible apply_assumption -exfalso -symm
    | split
    | dsimp only

/-- What `execHuGoodDeassert` may change. -/
theorem execHuGoodDeassert_only (s : State) :
    ∃ t, execHuGoodDeassert s = .next t ∧ Only (List.append [.freeCtr, .out,
    .pins, .he, .ctl, .sh, .defFaults, .lost, .fs, .mx, .mm, .bp, .me, .gf, .tw, .mg, .fi, .reg Reg.GEN_HOLDUP.VERIFIED,
    .reg Reg.GEN_HOLDUP.WTHRU, .reg Reg.HE_WINLOG.COUNT, .reg Reg.HE_WINLOG.CAUSE, .reg Reg.HE_WINLOG.PORT,
    .reg Reg.HE_WINLOGLO.OFFSET, .reg Reg.HE_WINLOGHI.OFFSET, .reg Reg.HE_WINLOGHI.RID, .reg Reg.QE_CQFULL.COUNT,
    .reg Reg.BP_ERRBUF.INDEX, .reg Reg.BP_ERRBUF.OWNER, .reg Reg.BP_ERRBUF.CAUSE,
    .reg Reg.BP_ERR.REVOKE] [.reg Reg.ME_POISON.CONSUMED, .reg Reg.ME_LASTHI.KIND, .reg Reg.ME_ERR.POISON,
    .reg Reg.GF_XFER.FAILED, .reg Reg.GF_ERR.XFERFAIL, .reg Reg.MG_LOGSTAT.DROPPED, .reg Reg.MG_ERR.HULOW,
    .reg Reg.MG_ERR.LOGDROP, .reg Reg.FI_CNT.INJECTED]) s t := by
  unfold execHuGoodDeassert
  refine ⟨_, rfl, ?_⟩
  repeat' first
    | intro _
    | with_reducible assumption
    | with_reducible exact Only.refl _ _
    | (with_reducible apply Only.step (huGoodDeassertEff_only ..); exact .of (by decide +kernel))
    | with_reducible apply_assumption -exfalso -symm
    | split
    | dsimp only

/-- What `startVerification` may change. -/
theorem startVerification_only (v0mv : Nat) (s : State) :
    Only [.pins, .mg,
    .reg Reg.MG_HUSTAT.VOLT] s (startVerification v0mv s) := by
  unfold startVerification
  repeat' first
    | intro _
    | with_reducible assumption
    | with_reducible exact Only.refl _ _
    | fail_if_no_progress (with_reducible apply Only.upd_pins_mg; decide +kernel; decide +kernel)
    | (with_reducible apply Only.step (setF_only ..); exact .of (by decide +kernel))
    | with_reducible apply_assumption -exfalso -symm
    | split
    | dsimp only

/-- What `huGoodReassertEff` may change. -/
theorem huGoodReassertEff_only (s : State) :
    Only [.pins, .mg, .reg Reg.MG_HUSTAT.VOLT] s (huGoodReassertEff s) := by
  unfold huGoodReassertEff
  repeat' first
    | intro _
    | with_reducible assumption
    | with_reducible exact Only.refl _ _
    | fail_if_no_progress (with_reducible apply Only.upd_pins; decide +kernel)
    | (with_reducible apply Only.step (startVerification_only ..); exact .of (by decide +kernel))
    | with_reducible apply_assumption -exfalso -symm
    | split
    | dsimp only

/-- What `execHuGoodReassert` may change. -/
theorem execHuGoodReassert_only (s : State) :
    ∃ t, execHuGoodReassert s = .next t ∧ Only [.pins, .mg,
    .reg Reg.MG_HUSTAT.VOLT] s t := by
  unfold execHuGoodReassert
  refine ⟨_, rfl, ?_⟩
  repeat' first
    | intro _
    | with_reducible assumption
    | with_reducible exact Only.refl _ _
    | (with_reducible apply Only.step (huGoodReassertEff_only ..); exact .of (by decide +kernel))
    | with_reducible apply_assumption -exfalso -symm
    | split
    | dsimp only

/-- What `huSenseBelowVLowEff` may change. -/
theorem huSenseBelowVLowEff_only (mv : Nat) (s : State) :
    Only (List.append [.freeCtr, .out, .he, .ctl, .sh, .defFaults,
    .lost, .fs, .mx, .mm, .bp, .me, .gf, .tw, .mg, .fi, .reg Reg.GEN_HOLDUP.VERIFIED, .reg Reg.GEN_HOLDUP.WTHRU,
    .reg Reg.HE_WINLOG.COUNT, .reg Reg.HE_WINLOG.CAUSE, .reg Reg.HE_WINLOG.PORT, .reg Reg.HE_WINLOGLO.OFFSET,
    .reg Reg.HE_WINLOGHI.OFFSET, .reg Reg.HE_WINLOGHI.RID, .reg Reg.QE_CQFULL.COUNT, .reg Reg.BP_ERRBUF.INDEX,
    .reg Reg.BP_ERRBUF.OWNER, .reg Reg.BP_ERRBUF.CAUSE, .reg Reg.BP_ERR.REVOKE,
    .reg Reg.ME_POISON.CONSUMED] [.reg Reg.ME_LASTHI.KIND, .reg Reg.ME_ERR.POISON, .reg Reg.GF_XFER.FAILED,
    .reg Reg.GF_ERR.XFERFAIL, .reg Reg.MG_HUSTAT.VOLT, .reg Reg.MG_LOGSTAT.DROPPED, .reg Reg.MG_ERR.HULOW,
    .reg Reg.MG_ERR.LOGDROP, .reg Reg.FI_CNT.INJECTED]) s (huSenseBelowVLowEff mv s) := by
  unfold huSenseBelowVLowEff
  repeat' first
    | intro _
    | with_reducible assumption
    | with_reducible exact Only.refl _ _
    | (extract_lets +onlyGivenNames x; refine Only.cut x ?_ (fun _ => ?_); unfold x; clear x; rotate_left; clear_value x)
    | (extract_lets +onlyGivenNames x; refine Only.cut2 x ?_ (fun _ => ?_); unfold x; clear x; rotate_left; clear_value x)
    | (extract_lets +onlyGivenNames x; clear_value x)
    | with_reducible apply Only.ite
    | (with_reducible apply Only.step (setF_only ..); exact .of (by decide +kernel))
    | (with_reducible apply Only.step (flagOn_only ..); exact .of (by decide +kernel))
    | (with_reducible apply Only.step (writeThroughEnter_only ..); exact .of (by decide +kernel))
    | with_reducible apply_assumption -exfalso -symm
    | split
    | dsimp only

/-- What `execHuSenseBelowVLow` may change. -/
theorem execHuSenseBelowVLow_only (mv : Nat) (s : State) :
    ∃ t,
    execHuSenseBelowVLow mv s = .next t ∧ Only (List.append [.freeCtr, .out, .he, .ctl, .sh, .defFaults, .lost, .fs, .mx, .mm,
    .bp, .me, .gf, .tw, .mg, .fi, .reg Reg.GEN_HOLDUP.VERIFIED, .reg Reg.GEN_HOLDUP.WTHRU, .reg Reg.HE_WINLOG.COUNT,
    .reg Reg.HE_WINLOG.CAUSE, .reg Reg.HE_WINLOG.PORT, .reg Reg.HE_WINLOGLO.OFFSET, .reg Reg.HE_WINLOGHI.OFFSET,
    .reg Reg.HE_WINLOGHI.RID, .reg Reg.QE_CQFULL.COUNT, .reg Reg.BP_ERRBUF.INDEX, .reg Reg.BP_ERRBUF.OWNER,
    .reg Reg.BP_ERRBUF.CAUSE, .reg Reg.BP_ERR.REVOKE, .reg Reg.ME_POISON.CONSUMED] [.reg Reg.ME_LASTHI.KIND,
    .reg Reg.ME_ERR.POISON, .reg Reg.GF_XFER.FAILED, .reg Reg.GF_ERR.XFERFAIL, .reg Reg.MG_HUSTAT.VOLT,
    .reg Reg.MG_LOGSTAT.DROPPED, .reg Reg.MG_ERR.HULOW, .reg Reg.MG_ERR.LOGDROP, .reg Reg.FI_CNT.INJECTED]) s t := by
  unfold execHuSenseBelowVLow
  refine ⟨_, rfl, ?_⟩
  repeat' first
    | intro _
    | with_reducible assumption
    | with_reducible exact Only.refl _ _
    | (with_reducible apply Only.step (huSenseBelowVLowEff_only ..); exact .of (by decide +kernel))
    | with_reducible apply_assumption -exfalso -symm
    | split
    | dsimp only

/-- What `execHoldupVerificationStart` may change. -/
theorem execHoldupVerificationStart_only (v0mv : Nat) (s : State) :
    ∃ t,
    execHoldupVerificationStart v0mv s = .next t ∧ Only [.pins, .mg, .reg Reg.MG_HUSTAT.VOLT] s t := by
  unfold execHoldupVerificationStart
  refine ⟨_, rfl, ?_⟩
  repeat' first
    | intro _
    | with_reducible assumption
    | with_reducible exact Only.refl _ _
    | (with_reducible apply Only.step (startVerification_only ..); exact .of (by decide +kernel))
    | with_reducible apply_assumption -exfalso -symm
    | split
    | dsimp only

/-- What `holdupVerificationEndEff` may change. -/
theorem holdupVerificationEndEff_only (dvTenthMv : Nat) (s : State) :
    Only (List.append [.freeCtr, .out, .pins, .gen, .he,
    .ctl, .sh, .defFaults, .lost, .fs, .mx, .mm, .bp, .me, .gf, .tw, .mg, .fi, .reg Reg.GEN_HOLDUP.ENERGY,
    .reg Reg.GEN_HOLDUP.VERIFIED, .reg Reg.GEN_HOLDUP.WTHRU, .reg Reg.HE_WINLOG.COUNT, .reg Reg.HE_WINLOG.CAUSE,
    .reg Reg.HE_WINLOG.PORT, .reg Reg.HE_WINLOGLO.OFFSET, .reg Reg.HE_WINLOGHI.OFFSET, .reg Reg.HE_WINLOGHI.RID,
    .reg Reg.QE_CQFULL.COUNT, .reg Reg.BP_ERRBUF.INDEX, .reg Reg.BP_ERRBUF.OWNER] [.reg Reg.BP_ERRBUF.CAUSE,
    .reg Reg.BP_ERR.REVOKE, .reg Reg.ME_POISON.CONSUMED, .reg Reg.ME_LASTHI.KIND, .reg Reg.ME_ERR.POISON,
    .reg Reg.GF_XFER.FAILED, .reg Reg.GF_ERR.XFERFAIL, .reg Reg.MG_HUSTAT.CAP, .reg Reg.MG_LOGSTAT.DROPPED,
    .reg Reg.MG_ERR.HUFAIL, .reg Reg.MG_ERR.LOGDROP, .reg Reg.FI_CNT.INJECTED]) s (holdupVerificationEndEff dvTenthMv s) := by
  unfold holdupVerificationEndEff
  repeat' first
    | intro _
    | with_reducible assumption
    | with_reducible exact Only.refl _ _
    | (extract_lets +onlyGivenNames x; refine Only.cut x ?_ (fun _ => ?_); unfold x; clear x; rotate_left; clear_value x)
    | (extract_lets +onlyGivenNames x; refine Only.cut2 x ?_ (fun _ => ?_); unfold x; clear x; rotate_left; clear_value x)
    | (extract_lets +onlyGivenNames x; clear_value x)
    | with_reducible apply Only.ite
    | fail_if_no_progress (with_reducible apply Only.upd_pins_mg; decide +kernel; decide +kernel)
    | fail_if_no_progress (with_reducible apply Only.upd_gen; decide +kernel)
    | (with_reducible apply Only.step (flagOn_only ..); exact .of (by decide +kernel))
    | (with_reducible apply Only.step (setSat_only ..); exact .of (by decide +kernel))
    | (with_reducible apply Only.step (writeThroughExit_only ..); exact .of (by decide +kernel))
    | (with_reducible apply Only.step (writeThroughEnter_only ..); exact .of (by decide +kernel))
    | with_reducible apply_assumption -exfalso -symm
    | split
    | dsimp only

/-- What `execHoldupVerificationEnd` may change. -/
theorem execHoldupVerificationEnd_only (dvTenthMv : Nat) (s : State) :
    ∃ t,
    execHoldupVerificationEnd dvTenthMv s = .next t ∧ Only (List.append [.freeCtr, .out, .pins, .gen, .he, .ctl, .sh,
    .defFaults, .lost, .fs, .mx, .mm, .bp, .me, .gf, .tw, .mg, .fi, .reg Reg.GEN_HOLDUP.ENERGY, .reg Reg.GEN_HOLDUP.VERIFIED,
    .reg Reg.GEN_HOLDUP.WTHRU, .reg Reg.HE_WINLOG.COUNT, .reg Reg.HE_WINLOG.CAUSE, .reg Reg.HE_WINLOG.PORT,
    .reg Reg.HE_WINLOGLO.OFFSET, .reg Reg.HE_WINLOGHI.OFFSET, .reg Reg.HE_WINLOGHI.RID, .reg Reg.QE_CQFULL.COUNT,
    .reg Reg.BP_ERRBUF.INDEX, .reg Reg.BP_ERRBUF.OWNER] [.reg Reg.BP_ERRBUF.CAUSE, .reg Reg.BP_ERR.REVOKE,
    .reg Reg.ME_POISON.CONSUMED, .reg Reg.ME_LASTHI.KIND, .reg Reg.ME_ERR.POISON, .reg Reg.GF_XFER.FAILED,
    .reg Reg.GF_ERR.XFERFAIL, .reg Reg.MG_HUSTAT.CAP, .reg Reg.MG_LOGSTAT.DROPPED, .reg Reg.MG_ERR.HUFAIL,
    .reg Reg.MG_ERR.LOGDROP, .reg Reg.FI_CNT.INJECTED]) s t := by
  unfold execHoldupVerificationEnd
  refine ⟨_, rfl, ?_⟩
  repeat' first
    | intro _
    | with_reducible assumption
    | with_reducible exact Only.refl _ _
    | (with_reducible apply Only.step (holdupVerificationEndEff_only ..); exact .of (by decide +kernel))
    | with_reducible apply_assumption -exfalso -symm
    | split
    | dsimp only

/-- What `portDown` may change. -/
theorem portDown_only (p : Port) (s : State) :
    Only [.he, .ctl, .cmds, .fs, .mx, .nsWait, .mm, .bp, .tw, .dg, .mg,
    .reg Reg.GEN_RSTCAUSE.PERST, .reg Reg.BP_ERRBUF.INDEX, .reg Reg.BP_ERRBUF.OWNER, .reg Reg.BP_ERRBUF.CAUSE,
    .reg Reg.BP_ERR.REVOKE] s (portDown p s) := by
  unfold portDown
  repeat' first
    | intro _
    | with_reducible assumption
    | with_reducible exact Only.refl _ _
    | (with_reducible apply Only.step (flagOn_only ..); exact .of (by decide +kernel))
    | (with_reducible apply Only.step (conventionalPort_only ..); exact .of (by decide +kernel))
    | with_reducible apply_assumption -exfalso -symm
    | split
    | dsimp only

/-- What `heRefclkLossEff` may change. -/
theorem heRefclkLossEff_only (s : State) :
    Only [.he, .ctl, .cmds, .fs, .mx, .nsWait, .mm, .bp, .tw, .dg, .mg,
    .reg Reg.GEN_RSTCAUSE.PERST, .reg Reg.BP_ERRBUF.INDEX, .reg Reg.BP_ERRBUF.OWNER, .reg Reg.BP_ERRBUF.CAUSE,
    .reg Reg.BP_ERR.REVOKE] s (heRefclkLossEff s) := by
  unfold heRefclkLossEff
  repeat' first
    | intro _
    | with_reducible assumption
    | with_reducible exact Only.refl _ _
    | (extract_lets +onlyGivenNames x; refine Only.cut x ?_ (fun _ => ?_); unfold x; clear x; rotate_left; clear_value x)
    | (extract_lets +onlyGivenNames x; refine Only.cut2 x ?_ (fun _ => ?_); unfold x; clear x; rotate_left; clear_value x)
    | (extract_lets +onlyGivenNames x; refine Only.cutF x ?_ (fun _ => ?_); unfold x; clear x; rotate_left; clear_value x)
    | (extract_lets +onlyGivenNames x; refine Only.cutG x ?_ (fun _ => ?_); unfold x; clear x; rotate_left; clear_value x)
    | (extract_lets +onlyGivenNames x; refine Only.cutG2 x ?_ (fun _ => ?_); unfold x; clear x; rotate_left; clear_value x)
    | (extract_lets +onlyGivenNames x; refine Only.cutG3 x ?_ (fun _ => ?_); unfold x; clear x; rotate_left; clear_value x)
    | (extract_lets +onlyGivenNames x; refine Only.cutH x ?_ (fun _ => ?_); unfold x; clear x; rotate_left; clear_value x)
    | (extract_lets +onlyGivenNames x; clear_value x)
    | with_reducible apply Only.ite
    | (with_reducible apply Only.step (portDown_only ..); exact .of (by decide +kernel))
    | with_reducible apply_assumption -exfalso -symm
    | split
    | dsimp only

/-- What `execHeRefclkLoss` may change. -/
theorem execHeRefclkLoss_only (s : State) :
    ∃ t, execHeRefclkLoss s = .next t ∧ Only [.he, .ctl, .cmds, .fs, .mx, .nsWait,
    .mm, .bp, .tw, .dg, .mg, .reg Reg.GEN_RSTCAUSE.PERST, .reg Reg.BP_ERRBUF.INDEX, .reg Reg.BP_ERRBUF.OWNER,
    .reg Reg.BP_ERRBUF.CAUSE, .reg Reg.BP_ERR.REVOKE] s t := by
  unfold execHeRefclkLoss
  refine ⟨_, rfl, ?_⟩
  repeat' first
    | intro _
    | with_reducible assumption
    | with_reducible exact Only.refl _ _
    | (with_reducible apply Only.step (heRefclkLossEff_only ..); exact .of (by decide +kernel))
    | with_reducible apply_assumption -exfalso -symm
    | split
    | dsimp only

/-- What `execGfRefclkLoss` may change. -/
theorem execGfRefclkLoss_only (s : State) :
    ∃ t, execGfRefclkLoss s = .next t ∧ Only (List.append [.out, .he, .ctl, .fs,
    .bp, .me, .gf, .mg, .fi, .reg Reg.HE_EPCNT.A_COUNT, .reg Reg.HE_EPCNT.B_COUNT, .reg Reg.HE_WINLOG.COUNT,
    .reg Reg.HE_WINLOG.CAUSE, .reg Reg.HE_WINLOG.PORT, .reg Reg.HE_WINLOGLO.OFFSET, .reg Reg.HE_WINLOGHI.OFFSET,
    .reg Reg.HE_WINLOGHI.RID, .reg Reg.QE_CQFULL.COUNT, .reg Reg.BP_ERRBUF.INDEX, .reg Reg.BP_ERRBUF.OWNER,
    .reg Reg.BP_ERRBUF.CAUSE, .reg Reg.BP_ERR.REVOKE, .reg Reg.ME_POISON.CONSUMED, .reg Reg.ME_LASTHI.KIND,
    .reg Reg.ME_MERGE.EVICT, .reg Reg.ME_ERR.POISON, .reg Reg.GF_XFER.RESENT, .reg Reg.GF_XFER.FAILED, .reg Reg.GF_ERR.LINKDOWN,
    .reg Reg.GF_ERR.XFERFAIL] [.reg Reg.MG_LOGSTAT.DROPPED, .reg Reg.MG_ERR.LOGDROP, .reg Reg.FI_CNT.INJECTED]) s t := by
  unfold execGfRefclkLoss
  refine ⟨_, rfl, ?_⟩
  repeat' first
    | intro _
    | with_reducible assumption
    | with_reducible exact Only.refl _ _
    | (with_reducible apply Only.step (releaseAll_only ..); exact .of (by decide +kernel))
    | (with_reducible apply Only.step (allLinksDown_only ..); exact .of (by decide +kernel))
    | with_reducible apply_assumption -exfalso -symm
    | split
    | dsimp only

/-- What `execMgXtalLoss` may change. -/
theorem execMgXtalLoss_only (_what : ClockLoss) (s : State) :
    ∃ t, execMgXtalLoss _what s = .next t ∧ Only [.out, .gen, .he,
    .ctl, .cmds, .fs, .mx, .mm, .bp, .tw, .dg, .mg, .fi, .prov, .reg Reg.GEN_DRAIN.ACTIVE, .reg Reg.QE_CQFULL.COUNT,
    .reg Reg.BP_ERRBUF.INDEX, .reg Reg.BP_ERRBUF.OWNER, .reg Reg.BP_ERRBUF.CAUSE, .reg Reg.BP_ERR.REVOKE,
    .reg Reg.MG_LOGSTAT.DROPPED, .reg Reg.MG_ERR.LOGDROP, .reg Reg.FI_ARM.ARMED, .reg Reg.FI_ARM.DCAUSE, .reg Reg.FI_GF.EN,
    .reg Reg.FI_FL.EN, .reg Reg.FI_PCIE.EN] s t := by
  unfold execMgXtalLoss
  refine ⟨_, rfl, ?_⟩
  repeat' first
    | intro _
    | with_reducible assumption
    | with_reducible exact Only.refl _ _
    | (with_reducible apply Only.step (fatalFault_only ..); exact .of (by decide +kernel))
    | with_reducible apply_assumption -exfalso -symm
    | split
    | dsimp only

/-- What `dramChannelTrainingLossEff` may change. -/
theorem dramChannelTrainingLossEff_only (channel : Fin 8) (s : State) :
    Only [.out, .gen, .he, .ctl, .cmds, .fs, .mx, .mm,
    .bp, .me, .tw, .dg, .mg, .fi, .prov, .reg Reg.GEN_DRAIN.ACTIVE, .reg Reg.QE_CQFULL.COUNT, .reg Reg.BP_ERRBUF.INDEX,
    .reg Reg.BP_ERRBUF.OWNER, .reg Reg.BP_ERRBUF.CAUSE, .reg Reg.BP_ERR.REVOKE, .reg Reg.MG_LOGSTAT.DROPPED,
    .reg Reg.MG_ERR.LOGDROP, .reg Reg.FI_ARM.ARMED, .reg Reg.FI_ARM.DCAUSE, .reg Reg.FI_GF.EN, .reg Reg.FI_FL.EN,
    .reg Reg.FI_PCIE.EN] s (dramChannelTrainingLossEff channel s) := by
  unfold dramChannelTrainingLossEff
  repeat' first
    | intro _
    | with_reducible assumption
    | with_reducible exact Only.refl _ _
    | (extract_lets +onlyGivenNames x; refine Only.cut x ?_ (fun _ => ?_); unfold x; clear x; rotate_left; clear_value x)
    | (extract_lets +onlyGivenNames x; refine Only.cut2 x ?_ (fun _ => ?_); unfold x; clear x; rotate_left; clear_value x)
    | (extract_lets +onlyGivenNames x; clear_value x)
    | with_reducible apply Only.ite
    | fail_if_no_progress (with_reducible apply Only.upd_me; decide +kernel)
    | (with_reducible apply Only.step (fatalFault_only ..); exact .of (by decide +kernel))
    | with_reducible apply_assumption -exfalso -symm
    | split
    | dsimp only

/-- What `execDramChannelTrainingLoss` may change. -/
theorem execDramChannelTrainingLoss_only (channel : Fin 8) (s : State) :
    ∃ t,
    execDramChannelTrainingLoss channel s = .next t ∧ Only [.out, .gen, .he, .ctl, .cmds, .fs, .mx, .mm, .bp, .me, .tw, .dg,
    .mg, .fi, .prov, .reg Reg.GEN_DRAIN.ACTIVE, .reg Reg.QE_CQFULL.COUNT, .reg Reg.BP_ERRBUF.INDEX, .reg Reg.BP_ERRBUF.OWNER,
    .reg Reg.BP_ERRBUF.CAUSE, .reg Reg.BP_ERR.REVOKE, .reg Reg.MG_LOGSTAT.DROPPED, .reg Reg.MG_ERR.LOGDROP,
    .reg Reg.FI_ARM.ARMED, .reg Reg.FI_ARM.DCAUSE, .reg Reg.FI_GF.EN, .reg Reg.FI_FL.EN, .reg Reg.FI_PCIE.EN] s t := by
  unfold execDramChannelTrainingLoss
  refine ⟨_, rfl, ?_⟩
  repeat' first
    | intro _
    | with_reducible assumption
    | with_reducible exact Only.refl _ _
    | (with_reducible apply Only.step (dramChannelTrainingLossEff_only ..); exact .of (by decide +kernel))
    | with_reducible apply_assumption -exfalso -symm
    | split
    | dsimp only

end Sys2Proof.Machine
end

