-- ==== Sys2Proof/Laws/FrameResets.lean ====
section
/-! SUPPORT. What each operation of Machine/Resets.lean may change, as `Only` states it: one lemma an operation, which later proofs cite
instead of unfolding it. -/
namespace Sys2Proof.Machine
set_option Elab.async false
set_option linter.all false

/-- What `requestY9Reset` may change. -/
theorem requestY9Reset_only (s : State) :
    Only [.out, .eff, .gen, .he, .ctl, .sh, .defFaults, .lost, .cmds, .nextCmd, .fs,
    .mx, .ns, .nsWait, .mm, .sp, .cs, .bp, .me, .gf, .tw, .dg, .mg, .fi, .nand, .ff, .prov, .win 0x80000 0x100000,
    .win 0x88000 0xF0000] s (requestY9Reset s) := by
  unfold requestY9Reset
  repeat' first
    | intro _
    | with_reducible assumption
    | with_reducible exact Only.refl _ _
    | with_reducible apply Only.ite
    | (with_reducible apply Only.step (y9Reset_only ..); exact .of (by decide +kernel))
    | (with_reducible apply Only.step (resetFromQuarantine_only ..); exact .of (by decide +kernel))
    | with_reducible apply_assumption -exfalso -symm
    | split
    | dsimp only

/-- What `genResetY9Eff` may change. -/
theorem genResetY9Eff_only (who : Writer) (key : BitVec 16) (s : State) :
    Only [.out, .eff, .gen, .he, .ctl, .sh,
    .defFaults, .lost, .cmds, .nextCmd, .fs, .mx, .ns, .nsWait, .mm, .sp, .cs, .bp, .me, .gf, .tw, .dg, .mg, .fi, .nand, .ff,
    .prov, .win 0x80000 0x100000, .win 0x88000 0xF0000] s (genResetY9Eff who key s) := by
  unfold genResetY9Eff
  repeat' first
    | intro _
    | with_reducible assumption
    | with_reducible exact Only.refl _ _
    | with_reducible apply Only.ite
    | (with_reducible apply Only.step (genErr_only ..); exact .of (by decide +kernel))
    | (with_reducible apply Only.step (requestY9Reset_only ..); exact .of (by decide +kernel))
    | with_reducible apply_assumption -exfalso -symm
    | split
    | dsimp only

/-- What `execGenResetY9` may change. -/
theorem execGenResetY9_only (who : Writer) (key : BitVec 16) (s : State) :
    ∃ t,
    execGenResetY9 who key s = .next t ∧ Only [.out, .eff, .gen, .he, .ctl, .sh, .defFaults, .lost, .cmds, .nextCmd, .fs, .mx,
    .ns, .nsWait, .mm, .sp, .cs, .bp, .me, .gf, .tw, .dg, .mg, .fi, .nand, .ff, .prov, .win 0x80000 0x100000,
    .win 0x88000 0xF0000] s t := by
  unfold execGenResetY9
  refine ⟨_, rfl, ?_⟩
  repeat' first
    | intro _
    | with_reducible assumption
    | with_reducible exact Only.refl _ _
    | (with_reducible apply Only.step (genResetY9Eff_only ..); exact .of (by decide +kernel))
    | with_reducible apply_assumption -exfalso -symm
    | split
    | dsimp only

/-- What `genResetManagementEff` may change. -/
theorem genResetManagementEff_only (who : Writer) (key : BitVec 16) (s : State) :
    Only (List.append [.freeCtr, .out, .gen,
    .he, .ctl, .cmds, .fs, .mx, .mm, .bp, .tw, .dg, .mg, .fi, .ff, .prov, .reg Reg.GEN_ERR.OWNWR, .reg Reg.GEN_ERRADDR.OFFSET,
    .reg Reg.GEN_ERRADDR.SRC, .reg Reg.GEN_RSTCAUSE.MGRST, .reg Reg.GEN_DRAIN.ACTIVE, .reg Reg.QE_CQFULL.COUNT,
    .reg Reg.BP_ERRBUF.INDEX, .reg Reg.BP_ERRBUF.OWNER, .reg Reg.BP_ERRBUF.CAUSE, .reg Reg.BP_ERR.REVOKE,
    .reg Reg.MG_STAT.MGRESETS, .reg Reg.MG_WDOG.PERIOD, .reg Reg.MG_LOGSTAT.DROPPED,
    .reg Reg.FF_STATUS.BUSY] [.reg Reg.MG_ERR.LOGDROP, .reg Reg.FI_ARM.ARMED, .reg Reg.FI_ARM.DCAUSE, .reg Reg.FI_GF.EN,
    .reg Reg.FI_FL.EN, .reg Reg.FI_PCIE.EN]) s (genResetManagementEff who key s) := by
  unfold genResetManagementEff
  repeat' first
    | intro _
    | with_reducible assumption
    | with_reducible exact Only.refl _ _
    | with_reducible apply Only.ite
    | (with_reducible apply Only.step (genErr_only ..); exact .of (by decide +kernel))
    | (with_reducible apply managementReset_keep; exact .of (by decide +kernel); decide +kernel)
    | with_reducible apply_assumption -exfalso -symm
    | split
    | dsimp only

/-- What `execGenResetManagement` may change. -/
theorem execGenResetManagement_only (who : Writer) (key : BitVec 16) (s : State) :
    ∃ t,
    execGenResetManagement who key s = .next t ∧ Only (List.append [.freeCtr, .out, .gen, .he, .ctl, .cmds, .fs, .mx, .mm, .bp,
    .tw, .dg, .mg, .fi, .ff, .prov, .reg Reg.GEN_ERR.OWNWR, .reg Reg.GEN_ERRADDR.OFFSET, .reg Reg.GEN_ERRADDR.SRC,
    .reg Reg.GEN_RSTCAUSE.MGRST, .reg Reg.GEN_DRAIN.ACTIVE, .reg Reg.QE_CQFULL.COUNT, .reg Reg.BP_ERRBUF.INDEX,
    .reg Reg.BP_ERRBUF.OWNER, .reg Reg.BP_ERRBUF.CAUSE, .reg Reg.BP_ERR.REVOKE, .reg Reg.MG_STAT.MGRESETS,
    .reg Reg.MG_WDOG.PERIOD, .reg Reg.MG_LOGSTAT.DROPPED, .reg Reg.FF_STATUS.BUSY] [.reg Reg.MG_ERR.LOGDROP,
    .reg Reg.FI_ARM.ARMED, .reg Reg.FI_ARM.DCAUSE, .reg Reg.FI_GF.EN, .reg Reg.FI_FL.EN, .reg Reg.FI_PCIE.EN]) s t := by
  unfold execGenResetManagement
  refine ⟨_, rfl, ?_⟩
  repeat' first
    | intro _
    | with_reducible assumption
    | with_reducible exact Only.refl _ _
    | (with_reducible apply Only.step (genResetManagementEff_only ..); exact .of (by decide +kernel))
    | with_reducible apply_assumption -exfalso -symm
    | split
    | dsimp only

/-- What `execWatchdogExpiry` may change. -/
theorem execWatchdogExpiry_only (s : State) :
    ∃ t, execWatchdogExpiry s = .next t ∧ Only (List.append [.freeCtr, .out, .gen,
    .he, .ctl, .cmds, .fs, .mx, .mm, .bp, .tw, .dg, .mg, .fi, .ff, .prov, .reg Reg.GEN_RSTCAUSE.WDOG, .reg Reg.GEN_DRAIN.ACTIVE,
    .reg Reg.QE_CQFULL.COUNT, .reg Reg.BP_ERRBUF.INDEX, .reg Reg.BP_ERRBUF.OWNER, .reg Reg.BP_ERRBUF.CAUSE,
    .reg Reg.BP_ERR.REVOKE, .reg Reg.MG_STAT.MGRESETS, .reg Reg.MG_WDOG.PERIOD, .reg Reg.MG_LOGSTAT.DROPPED,
    .reg Reg.FF_STATUS.BUSY, .reg Reg.MG_ERR.LOGDROP, .reg Reg.FI_ARM.ARMED, .reg Reg.FI_ARM.DCAUSE] [.reg Reg.FI_GF.EN,
    .reg Reg.FI_FL.EN, .reg Reg.FI_PCIE.EN]) s t := by
  unfold execWatchdogExpiry
  refine ⟨_, rfl, ?_⟩
  repeat' first
    | intro _
    | with_reducible assumption
    | with_reducible exact Only.refl _ _
    | with_reducible apply Only.ite
    | (with_reducible apply managementReset_keep; exact .of (by decide +kernel); decide +kernel)
    | with_reducible apply_assumption -exfalso -symm
    | split
    | dsimp only

/-- What `execLockstepMismatch` may change. -/
theorem execLockstepMismatch_only (s : State) :
    ∃ t, execLockstepMismatch s = .next t ∧ Only (List.append [.freeCtr, .out,
    .gen, .he, .ctl, .cmds, .fs, .mx, .mm, .bp, .tw, .dg, .mg, .fi, .ff, .prov, .reg Reg.GEN_RSTCAUSE.LOCKSTEP,
    .reg Reg.GEN_DRAIN.ACTIVE, .reg Reg.QE_CQFULL.COUNT, .reg Reg.BP_ERRBUF.INDEX, .reg Reg.BP_ERRBUF.OWNER,
    .reg Reg.BP_ERRBUF.CAUSE, .reg Reg.BP_ERR.REVOKE, .reg Reg.MG_STAT.MGRESETS, .reg Reg.MG_WDOG.PERIOD,
    .reg Reg.MG_LOGSTAT.DROPPED, .reg Reg.FF_STATUS.BUSY, .reg Reg.MG_ERR.LOGDROP, .reg Reg.FI_ARM.ARMED,
    .reg Reg.FI_ARM.DCAUSE] [.reg Reg.FI_GF.EN, .reg Reg.FI_FL.EN, .reg Reg.FI_PCIE.EN]) s t := by
  unfold execLockstepMismatch
  refine ⟨_, rfl, ?_⟩
  repeat' first
    | intro _
    | with_reducible assumption
    | with_reducible exact Only.refl _ _
    | (with_reducible apply managementReset_keep; exact .of (by decide +kernel); decide +kernel)
    | with_reducible apply_assumption -exfalso -symm
    | split
    | dsimp only

/-- What `conventionalResetEff` may change. -/
theorem conventionalResetEff_only (s : State) :
    Only [.he, .ctl, .cmds, .fs, .mx, .nsWait, .mm, .bp, .tw, .dg, .mg,
    .regs] s (conventionalResetEff s) := by
  unfold conventionalResetEff
  repeat' first
    | intro _
    | with_reducible assumption
    | with_reducible exact Only.refl _ _
    | with_reducible apply Only.ite
    | (with_reducible apply Only.step (flagOn_only ..); exact .of (by decide +kernel))
    | (with_reducible apply Only.step (conventional_only ..); exact .of (by decide +kernel))
    | with_reducible apply_assumption -exfalso -symm
    | split
    | dsimp only

/-- What `execConventionalReset` may change. -/
theorem execConventionalReset_only (_cause : ConventionalCause) (s : State) :
    ∃ t,
    execConventionalReset _cause s = .next t ∧ Only [.he, .ctl, .cmds, .fs, .mx, .nsWait, .mm, .bp, .tw, .dg, .mg,
    .regs] s t := by
  unfold execConventionalReset
  refine ⟨_, rfl, ?_⟩
  repeat' first
    | intro _
    | with_reducible assumption
    | with_reducible exact Only.refl _ _
    | (with_reducible apply Only.step (conventionalResetEff_only ..); exact .of (by decide +kernel))
    | with_reducible apply_assumption -exfalso -symm
    | split
    | dsimp only

/-- What `functionLevelResetEff` may change. -/
theorem functionLevelResetEff_only (port : Port) (s : State) :
    Only [.he, .ctl, .cmds, .fs, .mx, .nsWait, .mm, .bp, .tw,
    .dg, .mg, .reg Reg.GEN_RSTCAUSE.FLR0, .reg Reg.GEN_RSTCAUSE.FLR1, .reg Reg.BP_ERRBUF.INDEX, .reg Reg.BP_ERRBUF.OWNER,
    .reg Reg.BP_ERRBUF.CAUSE, .reg Reg.BP_ERR.REVOKE] s (functionLevelResetEff port s) := by
  unfold functionLevelResetEff
  repeat' first
    | intro _
    | with_reducible assumption
    | with_reducible exact Only.refl _ _
    | with_reducible apply Only.ite
    | (with_reducible apply Only.step (flagOn_port ..); exact .of (by decide +kernel))
    | (with_reducible apply Only.step (flagOn_only ..); exact .of (by decide +kernel))
    | (with_reducible apply Only.step (clearQe_only ..); exact .of (by decide +kernel))
    | (with_reducible apply Only.step (State.updPort_only ..); exact .of (by decide +kernel))
    | with_reducible apply_assumption -exfalso -symm
    | split
    | dsimp only

/-- What `execFunctionLevelReset` may change. -/
theorem execFunctionLevelReset_only (port : Port) (s : State) :
    ∃ t, execFunctionLevelReset port s = .next t ∧ Only [.he,
    .ctl, .cmds, .fs, .mx, .nsWait, .mm, .bp, .tw, .dg, .mg, .reg Reg.GEN_RSTCAUSE.FLR0, .reg Reg.GEN_RSTCAUSE.FLR1,
    .reg Reg.BP_ERRBUF.INDEX, .reg Reg.BP_ERRBUF.OWNER, .reg Reg.BP_ERRBUF.CAUSE, .reg Reg.BP_ERR.REVOKE] s t := by
  unfold execFunctionLevelReset
  refine ⟨_, rfl, ?_⟩
  repeat' first
    | intro _
    | with_reducible assumption
    | with_reducible exact Only.refl _ _
    | (with_reducible apply Only.step (functionLevelResetEff_only ..); exact .of (by decide +kernel))
    | with_reducible apply_assumption -exfalso -symm
    | split
    | dsimp only

/-- What `ccEnSetEff` may change. -/
theorem ccEnSetEff_only (port : Port) (iosqes iocqes mps ams css asqs acqs asq acq : Nat) (s : State) :
    Only [.gen,
    .ctl] s (ccEnSetEff port iosqes iocqes mps ams css asqs acqs asq acq s) := by
  unfold ccEnSetEff
  repeat' first
    | intro _
    | with_reducible assumption
    | with_reducible exact Only.refl _ _
    | (extract_lets +onlyGivenNames x; refine Only.cut x ?_ (fun _ => ?_); unfold x; clear x; rotate_left; clear_value x)
    | (extract_lets +onlyGivenNames x; refine Only.cut2 x ?_ (fun _ => ?_); unfold x; clear x; rotate_left; clear_value x)
    | (extract_lets +onlyGivenNames x; refine Only.cutF x ?_ (fun _ => ?_); unfold x; clear x; rotate_left; clear_value x)
    | (extract_lets +onlyGivenNames x; refine Only.cutG x ?_ (fun _ => ?_); unfold x; clear x; rotate_left; clear_value x)
    | (extract_lets +onlyGivenNames x; refine Only.cutG2 x ?_ (fun _ => ?_); unfold x; clear x; rotate_left; clear_value x)
    | (extract_lets +onlyGivenNames x; refine Only.cutG3 x ?_ (fun _ => ?_); unfold x; clear x; rotate_left; clear_value x)
    | (extract_lets +onlyGivenNames x; refine Only.cutH x ?_ (fun _ => ?_); unfold x; clear x; rotate_left; clear_value x)
    | (extract_lets +onlyGivenNames x; clear_value x)
    | with_reducible apply Only.ite
    | fail_if_no_progress (with_reducible apply Only.upd_gen; decide +kernel)
    | (with_reducible apply Only.step (State.updCon_only ..); exact .of (by decide +kernel))
    | with_reducible apply_assumption -exfalso -symm
    | split
    | dsimp only

/-- What `execCcEnSet` may change. -/
theorem execCcEnSet_only (port : Port) (iosqes iocqes mps ams css : Nat) (asqs acqs : Nat) (asq acq : Nat) (s : State) :
    ∃ t,
    execCcEnSet port iosqes iocqes mps ams css asqs acqs asq acq s = .next t ∧ Only [.gen, .ctl] s t := by
  unfold execCcEnSet
  refine ⟨_, rfl, ?_⟩
  repeat' first
    | intro _
    | with_reducible assumption
    | with_reducible exact Only.refl _ _
    | (with_reducible apply Only.step (ccEnSetEff_only ..); exact .of (by decide +kernel))
    | with_reducible apply_assumption -exfalso -symm
    | split
    | dsimp only

/-- What `ccEnClearEff` may change. -/
theorem ccEnClearEff_only (port : Port) (s : State) :
    Only [.ctl, .cmds, .fs, .mx, .nsWait, .mm, .bp, .tw, .dg, .mg,
    .reg Reg.BP_ERRBUF.INDEX, .reg Reg.BP_ERRBUF.OWNER, .reg Reg.BP_ERRBUF.CAUSE,
    .reg Reg.BP_ERR.REVOKE] s (ccEnClearEff port s) := by
  unfold ccEnClearEff
  repeat' first
    | intro _
    | with_reducible assumption
    | with_reducible exact Only.refl _ _
    | with_reducible apply Only.ite
    | (with_reducible apply Only.step (clearQe_only ..); exact .of (by decide +kernel))
    | with_reducible apply_assumption -exfalso -symm
    | split
    | dsimp only

/-- What `execCcEnClear` may change. -/
theorem execCcEnClear_only (port : Port) (s : State) :
    ∃ t, execCcEnClear port s = .next t ∧ Only [.ctl, .cmds, .fs, .mx,
    .nsWait, .mm, .bp, .tw, .dg, .mg, .reg Reg.BP_ERRBUF.INDEX, .reg Reg.BP_ERRBUF.OWNER, .reg Reg.BP_ERRBUF.CAUSE,
    .reg Reg.BP_ERR.REVOKE] s t := by
  unfold execCcEnClear
  refine ⟨_, rfl, ?_⟩
  repeat' first
    | intro _
    | with_reducible assumption
    | with_reducible exact Only.refl _ _
    | (with_reducible apply Only.step (ccEnClearEff_only ..); exact .of (by decide +kernel))
    | with_reducible apply_assumption -exfalso -symm
    | split
    | dsimp only

/-- What `shutdownNotificationEff` may change. -/
theorem shutdownNotificationEff_only (port : Port) (shn : BitVec 2) (s : State) :
    Only [.out, .gen, .he, .ctl, .sh,
    .defFaults, .lost, .fs, .mx, .mm, .sp, .bp, .me, .mg, .nand, .reg Reg.QE_CQFULL.COUNT, .reg Reg.MX_CKPT.SWEEPS,
    .reg Reg.ME_POISON.CONSUMED, .reg Reg.ME_LASTHI.KIND, .reg Reg.ME_ERR.POISON, .reg Reg.MG_LOGSTAT.DROPPED,
    .reg Reg.MG_ERR.LOGDROP] s (shutdownNotificationEff port shn s) := by
  unfold shutdownNotificationEff
  repeat' first
    | intro _
    | with_reducible assumption
    | with_reducible exact Only.refl _ _
    | (extract_lets +onlyGivenNames x; refine Only.cut x ?_ (fun _ => ?_); unfold x; clear x; rotate_left; clear_value x)
    | (extract_lets +onlyGivenNames x; refine Only.cut2 x ?_ (fun _ => ?_); unfold x; clear x; rotate_left; clear_value x)
    | (extract_lets +onlyGivenNames x; refine Only.cutF x ?_ (fun _ => ?_); unfold x; clear x; rotate_left; clear_value x)
    | (extract_lets +onlyGivenNames x; refine Only.cutG x ?_ (fun _ => ?_); unfold x; clear x; rotate_left; clear_value x)
    | (extract_lets +onlyGivenNames x; refine Only.cutG2 x ?_ (fun _ => ?_); unfold x; clear x; rotate_left; clear_value x)
    | (extract_lets +onlyGivenNames x; refine Only.cutG3 x ?_ (fun _ => ?_); unfold x; clear x; rotate_left; clear_value x)
    | (extract_lets +onlyGivenNames x; refine Only.cutH x ?_ (fun _ => ?_); unfold x; clear x; rotate_left; clear_value x)
    | (extract_lets +onlyGivenNames x; clear_value x)
    | with_reducible apply Only.ite
    | (with_reducible apply Only.step (cleanStop_only ..); exact .of (by decide +kernel))
    | (with_reducible apply Only.step (State.updCon_only ..); exact .of (by decide +kernel))
    | with_reducible apply_assumption -exfalso -symm
    | split
    | dsimp only

/-- What `execShutdownNotification` may change. -/
theorem execShutdownNotification_only (port : Port) (shn : BitVec 2) (s : State) :
    ∃ t,
    execShutdownNotification port shn s = .next t ∧ Only [.out, .gen, .he, .ctl, .sh, .defFaults, .lost, .fs, .mx, .mm, .sp,
    .bp, .me, .mg, .nand, .reg Reg.QE_CQFULL.COUNT, .reg Reg.MX_CKPT.SWEEPS, .reg Reg.ME_POISON.CONSUMED,
    .reg Reg.ME_LASTHI.KIND, .reg Reg.ME_ERR.POISON, .reg Reg.MG_LOGSTAT.DROPPED, .reg Reg.MG_ERR.LOGDROP] s t := by
  unfold execShutdownNotification
  refine ⟨_, rfl, ?_⟩
  repeat' first
    | intro _
    | with_reducible assumption
    | with_reducible exact Only.refl _ _
    | (with_reducible apply Only.step (shutdownNotificationEff_only ..); exact .of (by decide +kernel))
    | with_reducible apply_assumption -exfalso -symm
    | split
    | dsimp only

end Sys2Proof.Machine
end

