-- ==== Sys2Proof/Laws/FrameModes.lean ====
section
/-! SUPPORT. What each operation of Machine/Modes.lean may change, as `Only` states it: one lemma an operation, which later proofs cite
instead of unfolding it. -/
namespace Sys2Proof.Machine
set_option Elab.async false
set_option linter.all false

/-- What `modereqRefused` may change. -/
theorem modereqRefused_only (who : Writer) (s : State) :
    Only [.gen, .reg Reg.GEN_ERR.MODEREQ, .reg Reg.GEN_ERRADDR.OFFSET,
    .reg Reg.GEN_ERRADDR.SRC] s (modereqRefused who s) := by
  unfold modereqRefused
  repeat' first
    | intro _
    | with_reducible assumption
    | with_reducible exact Only.refl _ _
    | fail_if_no_progress (with_reducible apply Only.upd_gen; decide +kernel)
    | (with_reducible apply Only.step (genErr_only ..); exact .of (by decide +kernel))
    | with_reducible apply_assumption -exfalso -symm
    | split
    | dsimp only

/-- What `twoStep` may change. -/
theorem twoStep_keep {w : List Fld} {r : State} {who : Writer} {key : BitVec 16} {target : Mode} {allowed : Bool} {grant : State → State} {s : State}
    (hSub : Within [.gen,
    .reg Reg.GEN_ERR.OWNWR, .reg Reg.GEN_ERR.MODEREQ, .reg Reg.GEN_ERRADDR.OFFSET,
    .reg Reg.GEN_ERRADDR.SRC] w)
    (hBody : ∀ u,
    Only w r u → Only w r (grant u)) (hOnly : Only w r s) : Only w r (twoStep who key target allowed grant s) := by
  unfold twoStep
  repeat' first
    | intro _
    | with_reducible assumption
    | with_reducible exact Only.refl _ _
    | with_reducible apply Only.ite
    | fail_if_no_progress (with_reducible apply Only.upd_gen; exact Within.one (by decide +kernel) hSub)
    | (with_reducible apply Only.step (genErr_only ..); exact .trans (.of (by decide +kernel)) hSub)
    | (with_reducible apply Only.step (modereqRefused_only ..); exact .trans (.of (by decide +kernel)) hSub)
    | with_reducible apply_assumption -exfalso -symm
    | split
    | dsimp only

/-- What `execGenModereqDiagnostic` may change. -/
theorem execGenModereqDiagnostic_only (who : Writer) (key : BitVec 16) (s : State) :
    ∃ t,
    execGenModereqDiagnostic who key s = .next t ∧ Only [.gen, .reg Reg.GEN_ERR.OWNWR, .reg Reg.GEN_ERR.MODEREQ,
    .reg Reg.GEN_ERRADDR.OFFSET, .reg Reg.GEN_ERRADDR.SRC] s t := by
  unfold execGenModereqDiagnostic
  refine ⟨_, rfl, ?_⟩
  repeat' first
    | intro _
    | with_reducible assumption
    | with_reducible exact Only.refl _ _
    | fail_if_no_progress (with_reducible apply Only.upd_gen; decide +kernel)
    | (with_reducible apply twoStep_keep; exact .of (by decide +kernel))
    | with_reducible apply_assumption -exfalso -symm
    | split
    | dsimp only

/-- What `diagnosticEntryEff` may change. -/
theorem diagnosticEntryEff_only (s : State) :
    Only [.out, .gen, .he, .ctl, .fs, .mg, .fi, .prov, .reg Reg.QE_CQFULL.COUNT,
    .reg Reg.MG_LOGSTAT.DROPPED, .reg Reg.MG_ERR.LOGDROP, .reg Reg.FI_ARM.ARMED, .reg Reg.FI_ARM.DCAUSE, .reg Reg.FI_GF.EN,
    .reg Reg.FI_FL.EN, .reg Reg.FI_PCIE.EN] s (diagnosticEntryEff s) := by
  unfold diagnosticEntryEff
  repeat' first
    | intro _
    | with_reducible assumption
    | with_reducible exact Only.refl _ _
    | with_reducible apply Only.ite
    | fail_if_no_progress (with_reducible apply Only.upd_gen; decide +kernel)
    | (with_reducible apply Only.step (enterModeEv_only ..); exact .of (by decide +kernel))
    | with_reducible apply_assumption -exfalso -symm
    | split
    | dsimp only

/-- What `execDiagnosticEntry` may change. -/
theorem execDiagnosticEntry_only (s : State) :
    ∃ t, execDiagnosticEntry s = .next t ∧ Only [.out, .gen, .he, .ctl, .fs, .mg,
    .fi, .prov, .reg Reg.QE_CQFULL.COUNT, .reg Reg.MG_LOGSTAT.DROPPED, .reg Reg.MG_ERR.LOGDROP, .reg Reg.FI_ARM.ARMED,
    .reg Reg.FI_ARM.DCAUSE, .reg Reg.FI_GF.EN, .reg Reg.FI_FL.EN, .reg Reg.FI_PCIE.EN] s t := by
  unfold execDiagnosticEntry
  refine ⟨_, rfl, ?_⟩
  repeat' first
    | intro _
    | with_reducible assumption
    | with_reducible exact Only.refl _ _
    | (with_reducible apply Only.step (diagnosticEntryEff_only ..); exact .of (by decide +kernel))
    | with_reducible apply_assumption -exfalso -symm
    | split
    | dsimp only

/-- What `oneStep` may change. -/
theorem oneStep_keep {w : List Fld} {r : State} {who : Writer} {key : BitVec 16} {allowed : Bool} {grant : State → State} {s : State}
    (hSub : Within [.gen,
    .reg Reg.GEN_ERR.OWNWR, .reg Reg.GEN_ERR.MODEREQ, .reg Reg.GEN_ERRADDR.OFFSET,
    .reg Reg.GEN_ERRADDR.SRC] w)
    (hBody : ∀ u,
    Only w r u → Only w r (grant u)) (hOnly : Only w r s) : Only w r (oneStep who key allowed grant s) := by
  unfold oneStep
  repeat' first
    | intro _
    | with_reducible assumption
    | with_reducible exact Only.refl _ _
    | with_reducible apply Only.ite
    | fail_if_no_progress (with_reducible apply Only.upd_gen; exact Within.one (by decide +kernel) hSub)
    | (with_reducible apply Only.step (genErr_only ..); exact .trans (.of (by decide +kernel)) hSub)
    | (with_reducible apply Only.step (modereqRefused_only ..); exact .trans (.of (by decide +kernel)) hSub)
    | with_reducible apply_assumption -exfalso -symm
    | split
    | dsimp only

/-- What `execGenModereqService` may change. -/
theorem execGenModereqService_only (who : Writer) (key : BitVec 16) (s : State) :
    ∃ t,
    execGenModereqService who key s = .next t ∧ Only [.out, .gen, .he, .ctl, .fs, .mg, .fi, .prov, .reg Reg.GEN_ERR.OWNWR,
    .reg Reg.GEN_ERR.MODEREQ, .reg Reg.GEN_ERRADDR.OFFSET, .reg Reg.GEN_ERRADDR.SRC, .reg Reg.QE_CQFULL.COUNT,
    .reg Reg.MG_LOGSTAT.DROPPED, .reg Reg.MG_ERR.LOGDROP, .reg Reg.FI_ARM.ARMED, .reg Reg.FI_ARM.DCAUSE, .reg Reg.FI_GF.EN,
    .reg Reg.FI_FL.EN, .reg Reg.FI_PCIE.EN] s t := by
  unfold execGenModereqService
  refine ⟨_, rfl, ?_⟩
  repeat' first
    | intro _
    | with_reducible assumption
    | with_reducible exact Only.refl _ _
    | (with_reducible apply oneStep_keep; exact .of (by decide +kernel))
    | (with_reducible apply Only.step (enterModeEv_only ..); exact .of (by decide +kernel))
    | with_reducible apply_assumption -exfalso -symm
    | split
    | dsimp only

/-- What `execGenModereqQuarantine` may change. -/
theorem execGenModereqQuarantine_only (who : Writer) (key : BitVec 16) (s : State) :
    ∃ t,
    execGenModereqQuarantine who key s = .next t ∧ Only (List.append [.out, .gen, .he, .ctl, .cmds, .fs, .mx, .mm, .bp, .tw,
    .dg, .mg, .fi, .prov, .reg Reg.GEN_ERR.OWNWR, .reg Reg.GEN_ERR.MODEREQ, .reg Reg.GEN_ERRADDR.OFFSET,
    .reg Reg.GEN_ERRADDR.SRC, .reg Reg.GEN_DRAIN.ACTIVE, .reg Reg.QE_CQFULL.COUNT, .reg Reg.BP_ERRBUF.INDEX,
    .reg Reg.BP_ERRBUF.OWNER, .reg Reg.BP_ERRBUF.CAUSE, .reg Reg.BP_ERR.REVOKE, .reg Reg.MG_LOGSTAT.DROPPED,
    .reg Reg.MG_ERR.LOGDROP, .reg Reg.FI_ARM.ARMED, .reg Reg.FI_ARM.DCAUSE, .reg Reg.FI_GF.EN,
    .reg Reg.FI_FL.EN] [.reg Reg.FI_PCIE.EN]) s t := by
  unfold execGenModereqQuarantine
  refine ⟨_, rfl, ?_⟩
  repeat' first
    | intro _
    | with_reducible assumption
    | with_reducible exact Only.refl _ _
    | (with_reducible apply oneStep_keep; exact .of (by decide +kernel))
    | (with_reducible apply Only.step (quarantineNow_only ..); exact .of (by decide +kernel))
    | with_reducible apply_assumption -exfalso -symm
    | split
    | dsimp only

/-- What `execGenModereqProvision` may change. -/
theorem execGenModereqProvision_only (who : Writer) (key : BitVec 16) (s : State) :
    ∃ t,
    execGenModereqProvision who key s = .next t ∧ Only [.out, .gen, .he, .ctl, .fs, .mg, .fi, .prov, .reg Reg.GEN_ERR.OWNWR,
    .reg Reg.GEN_ERR.MODEREQ, .reg Reg.GEN_ERRADDR.OFFSET, .reg Reg.GEN_ERRADDR.SRC, .reg Reg.QE_CQFULL.COUNT,
    .reg Reg.MG_LOGSTAT.DROPPED, .reg Reg.MG_ERR.LOGDROP, .reg Reg.FI_ARM.ARMED, .reg Reg.FI_ARM.DCAUSE, .reg Reg.FI_GF.EN,
    .reg Reg.FI_FL.EN, .reg Reg.FI_PCIE.EN] s t := by
  unfold execGenModereqProvision
  refine ⟨_, rfl, ?_⟩
  repeat' first
    | intro _
    | with_reducible assumption
    | with_reducible exact Only.refl _ _
    | (with_reducible apply twoStep_keep; exact .of (by decide +kernel))
    | (with_reducible apply Only.step (enterModeEv_only ..); exact .of (by decide +kernel))
    | with_reducible apply_assumption -exfalso -symm
    | split
    | dsimp only

/-- What `execModereqKeyTimeout` may change. -/
theorem execModereqKeyTimeout_only (s : State) :
    ∃ t, execModereqKeyTimeout s = .next t ∧ Only [.gen] s t := by
  unfold execModereqKeyTimeout
  refine ⟨_, rfl, ?_⟩
  repeat' first
    | intro _
    | with_reducible assumption
    | with_reducible exact Only.refl _ _
    | fail_if_no_progress (with_reducible apply Only.upd_gen; decide +kernel)
    | with_reducible apply_assumption -exfalso -symm
    | split
    | dsimp only

/-- What `provision` may change. -/
theorem provision_only (s : State) :
    Only [.fs, .mx, .mm, .sp, .bp, .nand, .ff, .prov,
    .reg Reg.MM_RETIRE.COUNT] s (provision s) := by
  unfold provision
  repeat' first
    | intro _
    | with_reducible assumption
    | with_reducible exact Only.refl _ _
    | (extract_lets +onlyGivenNames x; refine Only.cut x ?_ (fun _ => ?_); unfold x; clear x; rotate_left; clear_value x)
    | (extract_lets +onlyGivenNames x; refine Only.cut2 x ?_ (fun _ => ?_); unfold x; clear x; rotate_left; clear_value x)
    | (extract_lets +onlyGivenNames x; refine Only.cutF x ?_ (fun _ => ?_); unfold x; clear x; rotate_left; clear_value x)
    | (extract_lets +onlyGivenNames x; refine Only.cutG x ?_ (fun _ => ?_); unfold x; clear x; rotate_left; clear_value x)
    | (extract_lets +onlyGivenNames x; refine Only.cutP x ?_ (fun _ => ?_); unfold x; clear x; rotate_left; clear_value x)
    | (extract_lets +onlyGivenNames x; refine Only.cutG2 x ?_ (fun _ => ?_); unfold x; clear x; rotate_left; clear_value x)
    | (extract_lets +onlyGivenNames x; refine Only.cutG3 x ?_ (fun _ => ?_); unfold x; clear x; rotate_left; clear_value x)
    | (extract_lets +onlyGivenNames x; refine Only.cutH x ?_ (fun _ => ?_); unfold x; clear x; rotate_left; clear_value x)
    | (extract_lets +onlyGivenNames x; clear_value x)
    | fail_if_no_progress (with_reducible apply Only.upd_prov; decide +kernel)
    | fail_if_no_progress (with_reducible apply Only.upd_sp; decide +kernel)
    | fail_if_no_progress (with_reducible apply Only.upd_fs_mx_ff_prov; decide +kernel; decide +kernel; decide +kernel; decide +kernel)
    | (with_reducible apply Only.step (bumpBy_only ..); exact .of (by decide +kernel))
    | (with_reducible apply Only.step (updOwner_only ..); exact .of (by decide +kernel))
    | (with_reducible apply Only.step (journalNow_only ..); exact .of (by decide +kernel))
    | (with_reducible apply Only.step (jAppend_only ..); exact .of (by decide +kernel))
    | (with_reducible apply Only.step (snapDurableNow_only ..); exact .of (by decide +kernel))
    | with_reducible apply_assumption -exfalso -symm
    | split
    | dsimp only

/-- What `provisioningCommitEff` may change. -/
theorem provisioningCommitEff_only (who : Writer) (s : State) :
    Only [.freeCtr, .out, .gen, .he, .ctl, .fs, .mx, .mm, .sp,
    .bp, .mg, .fi, .nand, .ff, .prov, .reg Reg.GEN_ERR.OWNWR, .reg Reg.GEN_ERR.RANGE, .reg Reg.GEN_ERRADDR.OFFSET,
    .reg Reg.GEN_ERRADDR.SRC, .reg Reg.GEN_START.SLOWGEO, .reg Reg.QE_CQFULL.COUNT, .reg Reg.MM_RETIRE.COUNT,
    .reg Reg.MG_LOGSTAT.DROPPED, .reg Reg.MG_ERR.LOGDROP, .reg Reg.FI_ARM.ARMED, .reg Reg.FI_ARM.DCAUSE, .reg Reg.FI_GF.EN,
    .reg Reg.FI_FL.EN, .reg Reg.FI_PCIE.EN] s (provisioningCommitEff who s) := by
  unfold provisioningCommitEff
  repeat' first
    | intro _
    | with_reducible assumption
    | with_reducible exact Only.refl _ _
    | with_reducible apply Only.ite
    | (with_reducible apply Only.step (flagOn_only ..); exact .of (by decide +kernel))
    | (with_reducible apply Only.step (genErr_only ..); exact .of (by decide +kernel))
    | (with_reducible apply Only.step (tickFree_only ..); exact .of (by decide +kernel))
    | (with_reducible apply Only.step (enterModeEv_only ..); exact .of (by decide +kernel))
    | (with_reducible apply Only.step (provision_only ..); exact .of (by decide +kernel))
    | with_reducible apply_assumption -exfalso -symm
    | split
    | dsimp only

/-- What `execProvisioningCommit` may change. -/
theorem execProvisioningCommit_only (who : Writer) (s : State) :
    ∃ t,
    execProvisioningCommit who s = .next t ∧ Only [.freeCtr, .out, .gen, .he, .ctl, .fs, .mx, .mm, .sp, .bp, .mg, .fi, .nand,
    .ff, .prov, .reg Reg.GEN_ERR.OWNWR, .reg Reg.GEN_ERR.RANGE, .reg Reg.GEN_ERRADDR.OFFSET, .reg Reg.GEN_ERRADDR.SRC,
    .reg Reg.GEN_START.SLOWGEO, .reg Reg.QE_CQFULL.COUNT, .reg Reg.MM_RETIRE.COUNT, .reg Reg.MG_LOGSTAT.DROPPED,
    .reg Reg.MG_ERR.LOGDROP, .reg Reg.FI_ARM.ARMED, .reg Reg.FI_ARM.DCAUSE, .reg Reg.FI_GF.EN, .reg Reg.FI_FL.EN,
    .reg Reg.FI_PCIE.EN] s t := by
  unfold execProvisioningCommit
  refine ⟨_, rfl, ?_⟩
  repeat' first
    | intro _
    | with_reducible assumption
    | with_reducible exact Only.refl _ _
    | (with_reducible apply Only.step (provisioningCommitEff_only ..); exact .of (by decide +kernel))
    | with_reducible apply_assumption -exfalso -symm
    | split
    | dsimp only

/-- What `genOwnerClaimEff` may change. -/
theorem genOwnerClaimEff_only (who : Writer) (s : State) :
    Only [.gen, .reg Reg.GEN_ERR.OWNWR, .reg Reg.GEN_ERRADDR.OFFSET,
    .reg Reg.GEN_ERRADDR.SRC] s (genOwnerClaimEff who s) := by
  unfold genOwnerClaimEff
  repeat' first
    | intro _
    | with_reducible assumption
    | with_reducible exact Only.refl _ _
    | with_reducible apply Only.ite
    | fail_if_no_progress (with_reducible apply Only.upd_gen; decide +kernel)
    | (with_reducible apply Only.step (genErr_only ..); exact .of (by decide +kernel))
    | with_reducible apply_assumption -exfalso -symm
    | split
    | dsimp only

/-- What `execGenOwnerClaim` may change. -/
theorem execGenOwnerClaim_only (who : Writer) (s : State) :
    ∃ t, execGenOwnerClaim who s = .next t ∧ Only [.gen,
    .reg Reg.GEN_ERR.OWNWR, .reg Reg.GEN_ERRADDR.OFFSET, .reg Reg.GEN_ERRADDR.SRC] s t := by
  unfold execGenOwnerClaim
  refine ⟨_, rfl, ?_⟩
  repeat' first
    | intro _
    | with_reducible assumption
    | with_reducible exact Only.refl _ _
    | (with_reducible apply Only.step (genOwnerClaimEff_only ..); exact .of (by decide +kernel))
    | with_reducible apply_assumption -exfalso -symm
    | split
    | dsimp only

/-- What `genOwnerReleaseEff` may change. -/
theorem genOwnerReleaseEff_only (who : Writer) (s : State) :
    Only [.gen, .reg Reg.GEN_ERR.OWNWR,
    .reg Reg.GEN_ERRADDR.OFFSET, .reg Reg.GEN_ERRADDR.SRC] s (genOwnerReleaseEff who s) := by
  unfold genOwnerReleaseEff
  repeat' first
    | intro _
    | with_reducible assumption
    | with_reducible exact Only.refl _ _
    | with_reducible apply Only.ite
    | fail_if_no_progress (with_reducible apply Only.upd_gen; decide +kernel)
    | (with_reducible apply Only.step (genErr_only ..); exact .of (by decide +kernel))
    | with_reducible apply_assumption -exfalso -symm
    | split
    | dsimp only

/-- What `execGenOwnerRelease` may change. -/
theorem execGenOwnerRelease_only (who : Writer) (s : State) :
    ∃ t, execGenOwnerRelease who s = .next t ∧ Only [.gen,
    .reg Reg.GEN_ERR.OWNWR, .reg Reg.GEN_ERRADDR.OFFSET, .reg Reg.GEN_ERRADDR.SRC] s t := by
  unfold execGenOwnerRelease
  refine ⟨_, rfl, ?_⟩
  repeat' first
    | intro _
    | with_reducible assumption
    | with_reducible exact Only.refl _ _
    | (with_reducible apply Only.step (genOwnerReleaseEff_only ..); exact .of (by decide +kernel))
    | with_reducible apply_assumption -exfalso -symm
    | split
    | dsimp only

/-- What `genOwnerSeizeEff` may change. -/
theorem genOwnerSeizeEff_only (who : Writer) (s : State) :
    Only [.out, .gen, .he, .ctl, .fs, .reg Reg.GEN_OWNER.SEIZED,
    .reg Reg.GEN_ERR.OWNWR, .reg Reg.GEN_ERRADDR.OFFSET, .reg Reg.GEN_ERRADDR.SRC,
    .reg Reg.QE_CQFULL.COUNT] s (genOwnerSeizeEff who s) := by
  unfold genOwnerSeizeEff
  repeat' first
    | intro _
    | with_reducible assumption
    | with_reducible exact Only.refl _ _
    | with_reducible apply Only.ite
    | fail_if_no_progress (with_reducible apply Only.upd_gen; decide +kernel)
    | (with_reducible apply Only.step (flagOn_only ..); exact .of (by decide +kernel))
    | (with_reducible apply Only.step (genErr_only ..); exact .of (by decide +kernel))
    | (with_reducible apply Only.step (evModeChanged_only ..); exact .of (by decide +kernel))
    | with_reducible apply_assumption -exfalso -symm
    | split
    | dsimp only

/-- What `execGenOwnerSeize` may change. -/
theorem execGenOwnerSeize_only (who : Writer) (s : State) :
    ∃ t, execGenOwnerSeize who s = .next t ∧ Only [.out, .gen, .he,
    .ctl, .fs, .reg Reg.GEN_OWNER.SEIZED, .reg Reg.GEN_ERR.OWNWR, .reg Reg.GEN_ERRADDR.OFFSET, .reg Reg.GEN_ERRADDR.SRC,
    .reg Reg.QE_CQFULL.COUNT] s t := by
  unfold execGenOwnerSeize
  refine ⟨_, rfl, ?_⟩
  repeat' first
    | intro _
    | with_reducible assumption
    | with_reducible exact Only.refl _ _
    | (with_reducible apply Only.step (genOwnerSeizeEff_only ..); exact .of (by decide +kernel))
    | with_reducible apply_assumption -exfalso -symm
    | split
    | dsimp only

/-- What `genOwnerSeizedClearEff` may change. -/
theorem genOwnerSeizedClearEff_only (who : Writer) (s : State) :
    Only [.reg Reg.GEN_OWNER.SEIZED, .reg Reg.GEN_ERR.OWNWR,
    .reg Reg.GEN_ERRADDR.OFFSET, .reg Reg.GEN_ERRADDR.SRC] s (genOwnerSeizedClearEff who s) := by
  unfold genOwnerSeizedClearEff
  repeat' first
    | intro _
    | with_reducible assumption
    | with_reducible exact Only.refl _ _
    | with_reducible apply Only.ite
    | (with_reducible apply Only.step (flagOff_only ..); exact .of (by decide +kernel))
    | (with_reducible apply Only.step (genErr_only ..); exact .of (by decide +kernel))
    | with_reducible apply_assumption -exfalso -symm
    | split
    | dsimp only

/-- What `execGenOwnerSeizedClear` may change. -/
theorem execGenOwnerSeizedClear_only (who : Writer) (s : State) :
    ∃ t,
    execGenOwnerSeizedClear who s = .next t ∧ Only [.reg Reg.GEN_OWNER.SEIZED, .reg Reg.GEN_ERR.OWNWR,
    .reg Reg.GEN_ERRADDR.OFFSET, .reg Reg.GEN_ERRADDR.SRC] s t := by
  unfold execGenOwnerSeizedClear
  refine ⟨_, rfl, ?_⟩
  repeat' first
    | intro _
    | with_reducible assumption
    | with_reducible exact Only.refl _ _
    | (with_reducible apply Only.step (genOwnerSeizedClearEff_only ..); exact .of (by decide +kernel))
    | with_reducible apply_assumption -exfalso -symm
    | split
    | dsimp only

end Sys2Proof.Machine
end

