-- ==== Sys2Proof/Laws/FrameSetup.lean ====
section
/-! SUPPORT. What each operation of Machine/Setup.lean may change, as `Only` states it: one lemma an operation, which later proofs cite
instead of unfolding it. -/
namespace Sys2Proof.Machine
set_option Elab.async false
set_option linter.all false

/-- What `storeField` may change. -/
theorem storeField_only (f : Field) (v : Nat) (s : State) : Only [.fs, .bp, .reg f] s (storeField f v s) := by
  unfold storeField
  split
  · exact (updOwner_only ..).mono (.single (by simp [covered, Fld.covers]))
  split
  · exact (updOwner_only ..).mono (.single (by simp [covered, Fld.covers]))
  split
  · exact (updOwner_only ..).mono (.single (by simp [covered, Fld.covers]))
  split
  · exact Only.step (setF_only ..) (.single (by simp [covered, Fld.covers])) (Only.upd_fs (by simp [covered, Fld.covers]) (Only.refl _ _))
  · exact Only.step (setF_only ..) (.single (by simp [covered, Fld.covers])) (Only.refl _ _)

/-- What `writeField` may change. -/
theorem writeField_only (who : Writer) (off value : Nat) (s : State) (f : Field) :
    Only (.reg f :: [.fs, .bp, .reg Reg.GEN_ERR.LOCKWR, .reg Reg.GEN_ERR.RANGE, .reg Reg.GEN_ERRADDR.OFFSET, .reg Reg.GEN_ERRADDR.SRC]) s (writeField who off value s f) := by
  have e : ∀ g : Field, covered [.fs, .bp, .reg Reg.GEN_ERR.LOCKWR, .reg Reg.GEN_ERR.RANGE, .reg Reg.GEN_ERRADDR.OFFSET, .reg Reg.GEN_ERRADDR.SRC] (.reg g) = true → Only (.reg f :: [.fs, .bp, .reg Reg.GEN_ERR.LOCKWR, .reg Reg.GEN_ERR.RANGE, .reg Reg.GEN_ERRADDR.OFFSET, .reg Reg.GEN_ERRADDR.SRC]) s (genErr g off who s) := by
    intro g hg
    refine (genErr_only g off who s).mono ?_
    intro x hx
    simp only [covered, List.any_cons, List.any_nil, Bool.or_eq_true, Bool.or_false] at hx hg ⊢
    rcases hx with hx | hx | hx
    · right
      rcases hg with h | h | h | h | h | h
      · exact .inl (Fld.covers_trans h hx)
      · exact .inr (.inl (Fld.covers_trans h hx))
      · exact .inr (.inr (.inl (Fld.covers_trans h hx)))
      · exact .inr (.inr (.inr (.inl (Fld.covers_trans h hx))))
      · exact .inr (.inr (.inr (.inr (.inl (Fld.covers_trans h hx)))))
      · exact .inr (.inr (.inr (.inr (.inr (Fld.covers_trans h hx)))))
    · exact .inr (.inr (.inr (.inr (.inr (.inl hx)))))
    · exact .inr (.inr (.inr (.inr (.inr (.inr hx)))))
  unfold writeField
  split
  · exact Only.refl _ _
  split
  · exact (flagOff_only f s).mono (.single (by simp [covered, Fld.covers]))
  split
  · exact e _ (by decide +kernel)
  split
  · exact Only.refl _ _
  split
  · exact e _ (by decide +kernel)
  · refine (storeField_only f _ s).mono ?_
    intro x hx
    simp only [covered, List.any_cons, List.any_nil, Bool.or_eq_true, Bool.or_false] at hx ⊢
    tauto

/-- The fields of a register lie in its four bytes. -/
theorem fieldsAt_key {off : Nat} {f : Field} (h : f ∈ fieldsAt off) : off ≤ f.key / 8 ∧ f.key / 8 < off + 4 := by
  have lo : (blockFields off).all (fun g => decide (g.lo < 32)) = true := by
    unfold blockFields
    split <;> decide +kernel
  unfold fieldsAt at h
  split at h
  · obtain ⟨h1, h2⟩ := List.mem_filter.mp h
    have : f.lo < 32 := by simpa using List.all_eq_true.mp lo f h1
    have : f.reg = off := by simpa using h2
    unfold Field.key
    omega
  · cases h

/-- What `writeFields` may change: the register itself, the horizon's notes, an owner's shares, and what reports a refused write. -/
theorem writeFields_win (who : Writer) (off value : Nat) (s : State) :
    Only [.win off (off + 4), .fs, .bp, .reg Reg.GEN_ERR.LOCKWR, .reg Reg.GEN_ERR.RANGE, .reg Reg.GEN_ERRADDR.OFFSET,
      .reg Reg.GEN_ERRADDR.SRC] s (writeFields who off value s) := by
  unfold writeFields
  split
  · exact (genErr_only ..).mono (.ofAll (by simp [covered, Fld.covers]))
  · have : ∀ (l : List Field) (t : State), (∀ f ∈ l, f ∈ fieldsAt off) →
        Only [.win off (off + 4), .fs, .bp, .reg Reg.GEN_ERR.LOCKWR, .reg Reg.GEN_ERR.RANGE, .reg Reg.GEN_ERRADDR.OFFSET,
          .reg Reg.GEN_ERRADDR.SRC] t (l.foldl (writeField who off value) t) := by
      intro l
      induction l with
      | nil => intro t _; exact Only.refl _ _
      | cons f l ih =>
        intro t hl
        refine Only.trans ?_ (ih _ (fun g hg => hl g (List.mem_cons_of_mem _ hg)))
        refine (writeField_only who off value t f).mono (.ofAll ?_)
        have hk := fieldsAt_key (hl f (List.mem_cons_self ..))
        simp [covered, Fld.covers, hk]
    exact this _ s (fun _ h => h)

/-- The same, with every setup register named. -/
theorem writeFields_only (who : Writer) (off value : Nat) (s : State) : Only [.fs, .bp, .regs] s (writeFields who off value s) :=
  (writeFields_win who off value s).mono (.ofAll (by simp [covered, Fld.covers, Fld.code]))

/-- What `writeStaging` may change. -/
theorem writeStaging_only (p : Port) (i reg value : Nat) (s : State) :
    Only [.he, .reg Reg.HE_WINSTAT.A_BUSYWR,
    .reg Reg.HE_WINSTAT.B_BUSYWR] s (writeStaging p i reg value s) := by
  unfold writeStaging
  repeat' first
    | intro _
    | with_reducible assumption
    | with_reducible exact Only.refl _ _
    | with_reducible apply Only.ite
    | (with_reducible apply Only.step (flagOn_port ..); exact .of (by decide +kernel))
    | (with_reducible apply Only.step (flagOn_only ..); exact .of (by decide +kernel))
    | (with_reducible apply Only.step (State.updPort_only ..); exact .of (by decide +kernel))
    | with_reducible apply_assumption -exfalso -symm
    | split
    | dsimp only

/-- What `writeMsix` may change. -/
theorem writeMsix_only (p : Port) (i value : Nat) (s : State) :
    Only [.out, .he] s (writeMsix p i value s) := by
  unfold writeMsix
  repeat' first
    | intro _
    | with_reducible assumption
    | with_reducible exact Only.refl _ _
    | (extract_lets +onlyGivenNames x; refine Only.cut x ?_ (fun _ => ?_); unfold x; clear x; rotate_left; clear_value x)
    | (extract_lets +onlyGivenNames x; refine Only.cut2 x ?_ (fun _ => ?_); unfold x; clear x; rotate_left; clear_value x)
    | (extract_lets +onlyGivenNames x; refine Only.cutF x ?_ (fun _ => ?_); unfold x; clear x; rotate_left; clear_value x)
    | (extract_lets +onlyGivenNames x; refine Only.cutG x ?_ (fun _ => ?_); unfold x; clear x; rotate_left; clear_value x)
    | (extract_lets +onlyGivenNames x; refine Only.cutG2 x ?_ (fun _ => ?_); unfold x; clear x; rotate_left; clear_value x)
    | (extract_lets +onlyGivenNames x; refine Only.cutG3 x ?_ (fun _ => ?_); unfold x; clear x; rotate_left; clear_value x)
    | (extract_lets +onlyGivenNames x; refine Only.cutH x ?_ (fun _ => ?_); unfold x; clear x; rotate_left; clear_value x)
    | (extract_lets +onlyGivenNames x; clear_value x)
    | with_reducible apply Only.ite
    | (with_reducible apply Only.step (State.updPort_only ..); exact .of (by decide +kernel))
    | (with_reducible apply Only.step (msix_only ..); exact .of (by decide +kernel))
    | with_reducible apply_assumption -exfalso -symm
    | split
    | dsimp only

/-- What `writeReg` may change. -/
theorem writeReg_only (who : Writer) (off value : Nat) (s : State) :
    Only [.he, .fs, .bp,
    .regs] s (writeReg who off value s) := by
  unfold writeReg
  repeat' first
    | intro _
    | with_reducible assumption
    | with_reducible exact Only.refl _ _
    | with_reducible apply Only.ite
    | (with_reducible apply Only.step (writeStaging_only ..); exact .of (by decide +kernel))
    | (with_reducible apply Only.step (genErr_only ..); exact .of (by decide +kernel))
    | (with_reducible apply Only.step (writeFields_only ..); exact .of (by decide +kernel))
    | with_reducible apply_assumption -exfalso -symm
    | split
    | dsimp only

/-- What `putEff` may change. -/
theorem putEff_only (f : Field) (v : Nat) (s : State) :
    Only [.eff] s (putEff f v s) := by
  unfold putEff
  repeat' first
    | intro _
    | with_reducible assumption
    | with_reducible exact Only.refl _ _
    | fail_if_no_progress (with_reducible apply Only.upd_eff; decide +kernel)
    | with_reducible apply_assumption -exfalso -symm
    | split
    | dsimp only

/-- What `commitHorizon` may change. -/
theorem commitHorizon_only (s : State) :
    Only [.eff, .fs] s (commitHorizon s) := by
  unfold commitHorizon
  repeat' first
    | intro _
    | with_reducible assumption
    | with_reducible exact Only.refl _ _
    | (extract_lets +onlyGivenNames x; refine Only.cut x ?_ (fun _ => ?_); unfold x; clear x; rotate_left; clear_value x)
    | (extract_lets +onlyGivenNames x; refine Only.cut2 x ?_ (fun _ => ?_); unfold x; clear x; rotate_left; clear_value x)
    | (extract_lets +onlyGivenNames x; refine Only.cutF x ?_ (fun _ => ?_); unfold x; clear x; rotate_left; clear_value x)
    | (extract_lets +onlyGivenNames x; refine Only.cutG x ?_ (fun _ => ?_); unfold x; clear x; rotate_left; clear_value x)
    | (extract_lets +onlyGivenNames x; refine Only.cutP x ?_ (fun _ => ?_); unfold x; clear x; rotate_left; clear_value x)
    | (extract_lets +onlyGivenNames x; refine Only.cutG2 x ?_ (fun _ => ?_); unfold x; clear x; rotate_left; clear_value x)
    | (extract_lets +onlyGivenNames x; refine Only.cutG3 x ?_ (fun _ => ?_); unfold x; clear x; rotate_left; clear_value x)
    | (extract_lets +onlyGivenNames x; refine Only.cutH x ?_ (fun _ => ?_); unfold x; clear x; rotate_left; clear_value x)
    | (extract_lets +onlyGivenNames x; clear_value x)
    | fail_if_no_progress (with_reducible apply Only.upd_fs; decide +kernel)
    | (with_reducible apply Only.step (putEff_only ..); exact .of (by decide +kernel))
    | with_reducible refine Only.foldl (fun _ _ _ => ?_) ?_
    | with_reducible refine Only.foldl2 (fun _ _ _ => ?_) ?_
    | with_reducible apply_assumption -exfalso -symm
    | split
    | dsimp only

/-- What `commitPoint` may change. -/
theorem commitPoint_only (p : CommitPoint) (s : State) :
    Only [.eff, .fs] s (commitPoint p s) := by
  unfold commitPoint
  repeat' first
    | intro _
    | with_reducible assumption
    | with_reducible exact Only.refl _ _
    | (with_reducible apply Only.step (commitHorizon_only ..); exact .of (by decide +kernel))
    | (with_reducible apply Only.step (putEff_only ..); exact .of (by decide +kernel))
    | with_reducible refine Only.foldl (fun _ _ _ => ?_) ?_
    | with_reducible refine Only.foldl2 (fun _ _ _ => ?_) ?_
    | with_reducible apply_assumption -exfalso -symm
    | split
    | dsimp only

/-- What `execStagedCommitPoint` may change. -/
theorem execStagedCommitPoint_only (point : CommitPoint) (s : State) :
    ∃ t,
    execStagedCommitPoint point s = .next t ∧ Only [.eff, .fs] s t := by
  unfold execStagedCommitPoint
  refine ⟨_, rfl, ?_⟩
  repeat' first
    | intro _
    | with_reducible assumption
    | with_reducible exact Only.refl _ _
    | (with_reducible apply Only.step (commitPoint_only ..); exact .of (by decide +kernel))
    | with_reducible apply_assumption -exfalso -symm
    | split
    | dsimp only

/-- What `bar0BadAccessEff` may change. -/
theorem bar0BadAccessEff_only (port : Port) (isRead : Bool) (offset len : Nat) (s : State) :
    Only [.out, .he,
    .reg Reg.HE_ERRSTAT.A_BADMMIO, .reg Reg.HE_ERRSTAT.B_BADMMIO] s (bar0BadAccessEff port isRead offset len s) := by
  unfold bar0BadAccessEff
  repeat' first
    | intro _
    | with_reducible assumption
    | with_reducible exact Only.refl _ _
    | with_reducible apply Only.ite
    | (with_reducible apply Only.step (flagOn_port ..); exact .of (by decide +kernel))
    | (with_reducible apply Only.step (flagOn_only ..); exact .of (by decide +kernel))
    | (with_reducible apply Only.step (urCpl_only ..); exact .of (by decide +kernel))
    | (with_reducible apply Only.step (caCpl_only ..); exact .of (by decide +kernel))
    | with_reducible apply_assumption -exfalso -symm
    | split
    | dsimp only

/-- What `execBar0BadAccess` may change. -/
theorem execBar0BadAccess_only (port : Port) (isRead : Bool) (offset len : Nat) (s : State) :
    ∃ t,
    execBar0BadAccess port isRead offset len s = .next t ∧ Only [.out, .he, .reg Reg.HE_ERRSTAT.A_BADMMIO,
    .reg Reg.HE_ERRSTAT.B_BADMMIO] s t := by
  unfold execBar0BadAccess
  refine ⟨_, rfl, ?_⟩
  repeat' first
    | intro _
    | with_reducible assumption
    | with_reducible exact Only.refl _ _
    | (with_reducible apply Only.step (bar0BadAccessEff_only ..); exact .of (by decide +kernel))
    | with_reducible apply_assumption -exfalso -symm
    | split
    | dsimp only

/-- What `configRetry` may change. -/
theorem configRetry_only (port : Port) (s : State) :
    Only [.out] s (configRetry port s) := by
  unfold configRetry
  repeat' first
    | intro _
    | with_reducible assumption
    | with_reducible exact Only.refl _ _
    | with_reducible apply Only.ite
    | (with_reducible apply Only.step (emit_only ..); exact .of (by decide +kernel))
    | with_reducible apply_assumption -exfalso -symm
    | split
    | dsimp only

/-- What `configDone` may change. -/
theorem configDone_only (port : Port) (s : State) :
    Only [.out] s (configDone port s) := by
  unfold configDone
  repeat' first
    | intro _
    | with_reducible assumption
    | with_reducible exact Only.refl _ _
    | (with_reducible apply Only.step (emit_only ..); exact .of (by decide +kernel))
    | with_reducible apply_assumption -exfalso -symm
    | split
    | dsimp only

/-- What `configBarWriteEff` may change. -/
theorem configBarWriteEff_only (port : Port) (dword : Fin 6) (value : Word) (s : State) :
    Only [.out,
    .he] s (configBarWriteEff port dword value s) := by
  unfold configBarWriteEff
  repeat' first
    | intro _
    | with_reducible assumption
    | with_reducible exact Only.refl _ _
    | (extract_lets +onlyGivenNames x; refine Only.cut x ?_ (fun _ => ?_); unfold x; clear x; rotate_left; clear_value x)
    | (extract_lets +onlyGivenNames x; refine Only.cut2 x ?_ (fun _ => ?_); unfold x; clear x; rotate_left; clear_value x)
    | (extract_lets +onlyGivenNames x; refine Only.cutF x ?_ (fun _ => ?_); unfold x; clear x; rotate_left; clear_value x)
    | (extract_lets +onlyGivenNames x; refine Only.cutG x ?_ (fun _ => ?_); unfold x; clear x; rotate_left; clear_value x)
    | (extract_lets +onlyGivenNames x; refine Only.cutP x ?_ (fun _ => ?_); unfold x; clear x; rotate_left; clear_value x)
    | (extract_lets +onlyGivenNames x; refine Only.cutG2 x ?_ (fun _ => ?_); unfold x; clear x; rotate_left; clear_value x)
    | (extract_lets +onlyGivenNames x; refine Only.cutG3 x ?_ (fun _ => ?_); unfold x; clear x; rotate_left; clear_value x)
    | (extract_lets +onlyGivenNames x; refine Only.cutH x ?_ (fun _ => ?_); unfold x; clear x; rotate_left; clear_value x)
    | (extract_lets +onlyGivenNames x; clear_value x)
    | with_reducible apply Only.ite
    | (with_reducible apply Only.step (configRetry_only ..); exact .of (by decide +kernel))
    | (with_reducible apply Only.step (configDone_only ..); exact .of (by decide +kernel))
    | (with_reducible apply Only.step (State.updPort_only ..); exact .of (by decide +kernel))
    | with_reducible apply_assumption -exfalso -symm
    | split
    | dsimp only

/-- What `execConfigBarWrite` may change. -/
theorem execConfigBarWrite_only (port : Port) (dword : Fin 6) (value : Word) (s : State) :
    ∃ t,
    execConfigBarWrite port dword value s = .next t ∧ Only [.out, .he] s t := by
  unfold execConfigBarWrite
  refine ⟨_, rfl, ?_⟩
  repeat' first
    | intro _
    | with_reducible assumption
    | with_reducible exact Only.refl _ _
    | (with_reducible apply Only.step (configBarWriteEff_only ..); exact .of (by decide +kernel))
    | with_reducible apply_assumption -exfalso -symm
    | split
    | dsimp only

end Sys2Proof.Machine
end

