-- ==== Sys2Proof/Laws/FrameHostPort.lean ====
section
/-! SUPPORT. What each operation of Machine/HostPort.lean may change, as `Only` states it: one lemma an operation, which later proofs cite
instead of unfolding it. -/
namespace Sys2Proof.Machine
set_option Elab.async false
set_option linter.all false

/-- What `cmbMmioReadEff` may change. -/
theorem cmbMmioReadEff_only (port : Port) (offset len : Nat) (tag : Nat) (s : State) :
    Only [.out, .he, .me,
    .reg Reg.HE_EPCNT.A_COUNT, .reg Reg.HE_EPCNT.B_COUNT, .reg Reg.ME_POISON.CONSUMED, .reg Reg.ME_LASTHI.KIND,
    .reg Reg.ME_ERR.POISON] s (cmbMmioReadEff port offset len tag s) := by
  unfold cmbMmioReadEff
  repeat' first
    | intro _
    | with_reducible assumption
    | with_reducible exact Only.refl _ _
    | (extract_lets +onlyGivenNames x; refine Only.cut x ?_ (fun _ => ?_); unfold x; clear x; rotate_left; clear_value x)
    | (extract_lets +onlyGivenNames x; refine Only.cut2 x ?_ (fun _ => ?_); unfold x; clear x; rotate_left; clear_value x)
    | (extract_lets +onlyGivenNames x; refine Only.cutF x ?_ (fun _ => ?_); unfold x; clear x; rotate_left; clear_value x)
    | (extract_lets +onlyGivenNames x; refine Only.cutG x ?_ (fun _ => ?_); unfold x; clear x; rotate_left; clear_value x)
    | (extract_lets +onlyGivenNames x; refine Only.cutG2 x ?_ (fun _ => ?_); unfold x; clear x; rotate_left; clear_value x)
    | (extract_lets +onlyGivenNames x; refine Only.cutG3 x ?_ (fun _ => ?_); unfold x; clear x; rotate_left; clear_value x)
    | (extract_lets +onlyGivenNames x; refine Only.cutH x ?_ (fun _ => ?_); unfold x; clear x; rotate_left; clear_value x)
    | (extract_lets +onlyGivenNames x; clear_value x)
    | with_reducible apply Only.ite
    | (with_reducible apply Only.step (bump_port ..); exact .of (by decide +kernel))
    | (with_reducible apply Only.step (bump_only ..); exact .of (by decide +kernel))
    | (with_reducible apply Only.step (urCpl_only ..); exact .of (by decide +kernel))
    | (with_reducible apply Only.step (mergesDone_only ..); exact .of (by decide +kernel))
    | (with_reducible apply Only.step (poisonConsumed_only ..); exact .of (by decide +kernel))
    | (with_reducible apply Only.step (readCpl_only ..); exact .of (by decide +kernel))
    | with_reducible apply_assumption -exfalso -symm
    | split
    | dsimp only

/-- What `execCmbMmioRead` may change. -/
theorem execCmbMmioRead_only (port : Port) (offset len : Nat) (tag : Nat) (s : State) :
    ∃ t,
    execCmbMmioRead port offset len tag s = .next t ∧ Only [.out, .he, .me, .reg Reg.HE_EPCNT.A_COUNT,
    .reg Reg.HE_EPCNT.B_COUNT, .reg Reg.ME_POISON.CONSUMED, .reg Reg.ME_LASTHI.KIND, .reg Reg.ME_ERR.POISON] s t := by
  unfold execCmbMmioRead
  refine ⟨_, rfl, ?_⟩
  repeat' first
    | intro _
    | with_reducible assumption
    | with_reducible exact Only.refl _ _
    | (with_reducible apply Only.step (cmbMmioReadEff_only ..); exact .of (by decide +kernel))
    | with_reducible apply_assumption -exfalso -symm
    | split
    | dsimp only

/-- What `cmbMmioWriteEff` may change. -/
theorem cmbMmioWriteEff_only (port : Port) (offset : Nat) (data : List Byte) (ep : Bool) (s : State) :
    Only [.out, .he, .me,
    .reg Reg.HE_ERRSTAT.A_POISRX, .reg Reg.HE_ERRSTAT.B_POISRX,
    .reg Reg.ME_MERGE.EVICT] s (cmbMmioWriteEff port offset data ep s) := by
  unfold cmbMmioWriteEff
  repeat' first
    | intro _
    | with_reducible assumption
    | with_reducible exact Only.refl _ _
    | (extract_lets +onlyGivenNames x; refine Only.cut x ?_ (fun _ => ?_); unfold x; clear x; rotate_left; clear_value x)
    | (extract_lets +onlyGivenNames x; refine Only.cut2 x ?_ (fun _ => ?_); unfold x; clear x; rotate_left; clear_value x)
    | (extract_lets +onlyGivenNames x; refine Only.cut3 x ?_ (fun _ => ?_); unfold x; clear x; rotate_left; clear_value x)
    | (extract_lets +onlyGivenNames x; refine Only.cutF x ?_ (fun _ => ?_); unfold x; clear x; rotate_left; clear_value x)
    | (extract_lets +onlyGivenNames x; refine Only.cutG x ?_ (fun _ => ?_); unfold x; clear x; rotate_left; clear_value x)
    | (extract_lets +onlyGivenNames x; refine Only.cutP x ?_ (fun _ => ?_); unfold x; clear x; rotate_left; clear_value x)
    | (extract_lets +onlyGivenNames x; refine Only.cutG2 x ?_ (fun _ => ?_); unfold x; clear x; rotate_left; clear_value x)
    | (extract_lets +onlyGivenNames x; refine Only.cutG3 x ?_ (fun _ => ?_); unfold x; clear x; rotate_left; clear_value x)
    | (extract_lets +onlyGivenNames x; refine Only.cutH x ?_ (fun _ => ?_); unfold x; clear x; rotate_left; clear_value x)
    | (extract_lets +onlyGivenNames x; clear_value x)
    | with_reducible apply Only.ite
    | (with_reducible apply Only.step (linesWrite_only ..); exact .of (by decide +kernel))
    | with_reducible refine Only.step (Only.of_eq2 ‹_› (linesWrite_only ..)) (.of (by decide +kernel)) ?_
    | with_reducible refine Only.step (Only.of_eq3 ‹_› (linesWrite_only ..)) (.of (by decide +kernel)) ?_
    | (with_reducible apply Only.step (State.updPort_only ..); exact .of (by decide +kernel))
    | (with_reducible apply Only.step (poisonRx_only ..); exact .of (by decide +kernel))
    | with_reducible apply_assumption -exfalso -symm
    | split
    | dsimp only

/-- What `execCmbMmioWrite` may change. -/
theorem execCmbMmioWrite_only (port : Port) (offset : Nat) (data : List Byte) (ep : Bool) (s : State) :
    ∃ t,
    execCmbMmioWrite port offset data ep s = .next t ∧ Only [.out, .he, .me, .reg Reg.HE_ERRSTAT.A_POISRX,
    .reg Reg.HE_ERRSTAT.B_POISRX, .reg Reg.ME_MERGE.EVICT] s t := by
  unfold execCmbMmioWrite
  refine ⟨_, rfl, ?_⟩
  repeat' first
    | intro _
    | with_reducible assumption
    | with_reducible exact Only.refl _ _
    | (with_reducible apply Only.step (cmbMmioWriteEff_only ..); exact .of (by decide +kernel))
    | with_reducible apply_assumption -exfalso -symm
    | split
    | dsimp only

/-- What `cmbmscWriteEff` may change. -/
theorem cmbmscWriteEff_only (port : Port) (cmse : Bool) (cba : Nat) (s : State) :
    Only [.he] s (cmbmscWriteEff port cmse cba s) := by
  unfold cmbmscWriteEff
  repeat' first
    | intro _
    | with_reducible assumption
    | with_reducible exact Only.refl _ _
    | with_reducible apply Only.ite
    | (with_reducible apply Only.step (State.updPort_only ..); exact .of (by decide +kernel))
    | with_reducible apply_assumption -exfalso -symm
    | split
    | dsimp only

/-- What `execCmbmscWrite` may change. -/
theorem execCmbmscWrite_only (port : Port) (cmse : Bool) (cba : Nat) (s : State) :
    ∃ t,
    execCmbmscWrite port cmse cba s = .next t ∧ Only [.he] s t := by
  unfold execCmbmscWrite
  refine ⟨_, rfl, ?_⟩
  repeat' first
    | intro _
    | with_reducible assumption
    | with_reducible exact Only.refl _ _
    | (with_reducible apply Only.step (cmbmscWriteEff_only ..); exact .of (by decide +kernel))
    | with_reducible apply_assumption -exfalso -symm
    | split
    | dsimp only

/-- What `windowTlpReadEff` may change. -/
theorem windowTlpReadEff_only (port : Port) (offset len _rid tag : Nat) (s : State) :
    Only [.out, .he, .bp, .me, .gf, .mg,
    .fi, .reg Reg.HE_EPCNT.A_COUNT, .reg Reg.HE_EPCNT.B_COUNT, .reg Reg.HE_WINLOG.COUNT, .reg Reg.HE_WINLOG.CAUSE,
    .reg Reg.HE_WINLOG.PORT, .reg Reg.HE_WINLOGLO.OFFSET, .reg Reg.HE_WINLOGHI.OFFSET, .reg Reg.HE_WINLOGHI.RID,
    .reg Reg.BP_ERRBUF.INDEX, .reg Reg.BP_ERRBUF.OWNER, .reg Reg.BP_ERRBUF.CAUSE, .reg Reg.BP_ERR.REVOKE,
    .reg Reg.ME_POISON.CONSUMED, .reg Reg.ME_LASTHI.KIND, .reg Reg.ME_MERGE.EVICT, .reg Reg.ME_ERR.POISON,
    .reg Reg.GF_XFER.FAILED, .reg Reg.GF_ERR.XFERFAIL, .reg Reg.MG_LOGSTAT.DROPPED, .reg Reg.MG_ERR.LOGDROP,
    .reg Reg.FI_CNT.INJECTED] s (windowTlpReadEff port offset len _rid tag s) := by
  unfold windowTlpReadEff
  repeat' first
    | intro _
    | with_reducible assumption
    | with_reducible exact Only.refl _ _
    | with_reducible apply Only.ite
    | (with_reducible apply Only.step (urCpl_only ..); exact .of (by decide +kernel))
    | (with_reducible apply Only.step (winSubmit_only ..); exact .of (by decide +kernel))
    | with_reducible apply_assumption -exfalso -symm
    | split
    | dsimp only

/-- What `execWindowTlpRead` may change. -/
theorem execWindowTlpRead_only (port : Port) (offset len rid tag : Nat) (s : State) :
    ∃ t,
    execWindowTlpRead port offset len rid tag s = .next t ∧ Only [.out, .he, .bp, .me, .gf, .mg, .fi, .reg Reg.HE_EPCNT.A_COUNT,
    .reg Reg.HE_EPCNT.B_COUNT, .reg Reg.HE_WINLOG.COUNT, .reg Reg.HE_WINLOG.CAUSE, .reg Reg.HE_WINLOG.PORT,
    .reg Reg.HE_WINLOGLO.OFFSET, .reg Reg.HE_WINLOGHI.OFFSET, .reg Reg.HE_WINLOGHI.RID, .reg Reg.BP_ERRBUF.INDEX,
    .reg Reg.BP_ERRBUF.OWNER, .reg Reg.BP_ERRBUF.CAUSE, .reg Reg.BP_ERR.REVOKE, .reg Reg.ME_POISON.CONSUMED,
    .reg Reg.ME_LASTHI.KIND, .reg Reg.ME_MERGE.EVICT, .reg Reg.ME_ERR.POISON, .reg Reg.GF_XFER.FAILED, .reg Reg.GF_ERR.XFERFAIL,
    .reg Reg.MG_LOGSTAT.DROPPED, .reg Reg.MG_ERR.LOGDROP, .reg Reg.FI_CNT.INJECTED] s t := by
  unfold execWindowTlpRead
  refine ⟨_, rfl, ?_⟩
  repeat' first
    | intro _
    | with_reducible assumption
    | with_reducible exact Only.refl _ _
    | (with_reducible apply Only.step (windowTlpReadEff_only ..); exact .of (by decide +kernel))
    | with_reducible apply_assumption -exfalso -symm
    | split
    | dsimp only

/-- What `windowTlpWriteEff` may change. -/
theorem windowTlpWriteEff_only (port : Port) (offset : Nat) (data : List Byte) (rid : Nat) (ep : Bool) (s : State) :
    Only [.out,
    .he, .bp, .me, .gf, .mg, .fi, .reg Reg.HE_ERRSTAT.A_POISRX, .reg Reg.HE_ERRSTAT.B_POISRX, .reg Reg.HE_EPCNT.A_COUNT,
    .reg Reg.HE_EPCNT.B_COUNT, .reg Reg.HE_WINLOG.COUNT, .reg Reg.HE_WINLOG.CAUSE, .reg Reg.HE_WINLOG.PORT,
    .reg Reg.HE_WINLOGLO.OFFSET, .reg Reg.HE_WINLOGHI.OFFSET, .reg Reg.HE_WINLOGHI.RID, .reg Reg.BP_ERRBUF.INDEX,
    .reg Reg.BP_ERRBUF.OWNER, .reg Reg.BP_ERRBUF.CAUSE, .reg Reg.BP_ERR.REVOKE, .reg Reg.ME_POISON.CONSUMED,
    .reg Reg.ME_LASTHI.KIND, .reg Reg.ME_MERGE.EVICT, .reg Reg.ME_ERR.POISON, .reg Reg.GF_XFER.FAILED, .reg Reg.GF_ERR.XFERFAIL,
    .reg Reg.MG_LOGSTAT.DROPPED, .reg Reg.MG_ERR.LOGDROP,
    .reg Reg.FI_CNT.INJECTED] s (windowTlpWriteEff port offset data rid ep s) := by
  unfold windowTlpWriteEff
  repeat' first
    | intro _
    | with_reducible assumption
    | with_reducible exact Only.refl _ _
    | (extract_lets +onlyGivenNames x; refine Only.cut x ?_ (fun _ => ?_); unfold x; clear x; rotate_left; clear_value x)
    | (extract_lets +onlyGivenNames x; refine Only.cut2 x ?_ (fun _ => ?_); unfold x; clear x; rotate_left; clear_value x)
    | (extract_lets +onlyGivenNames x; clear_value x)
    | with_reducible apply Only.ite
    | (with_reducible apply Only.step (poisonRx_only ..); exact .of (by decide +kernel))
    | (with_reducible apply Only.step (winLog_only ..); exact .of (by decide +kernel))
    | (with_reducible apply Only.step (winSubmit_only ..); exact .of (by decide +kernel))
    | with_reducible apply_assumption -exfalso -symm
    | split
    | dsimp only

/-- What `execWindowTlpWrite` may change. -/
theorem execWindowTlpWrite_only (port : Port) (offset : Nat) (data : List Byte) (rid : Nat) (ep : Bool) (s : State) :
    ∃ t,
    execWindowTlpWrite port offset data rid ep s = .next t ∧ Only [.out, .he, .bp, .me, .gf, .mg, .fi,
    .reg Reg.HE_ERRSTAT.A_POISRX, .reg Reg.HE_ERRSTAT.B_POISRX, .reg Reg.HE_EPCNT.A_COUNT, .reg Reg.HE_EPCNT.B_COUNT,
    .reg Reg.HE_WINLOG.COUNT, .reg Reg.HE_WINLOG.CAUSE, .reg Reg.HE_WINLOG.PORT, .reg Reg.HE_WINLOGLO.OFFSET,
    .reg Reg.HE_WINLOGHI.OFFSET, .reg Reg.HE_WINLOGHI.RID, .reg Reg.BP_ERRBUF.INDEX, .reg Reg.BP_ERRBUF.OWNER,
    .reg Reg.BP_ERRBUF.CAUSE, .reg Reg.BP_ERR.REVOKE, .reg Reg.ME_POISON.CONSUMED, .reg Reg.ME_LASTHI.KIND,
    .reg Reg.ME_MERGE.EVICT, .reg Reg.ME_ERR.POISON, .reg Reg.GF_XFER.FAILED, .reg Reg.GF_ERR.XFERFAIL,
    .reg Reg.MG_LOGSTAT.DROPPED, .reg Reg.MG_ERR.LOGDROP, .reg Reg.FI_CNT.INJECTED] s t := by
  unfold execWindowTlpWrite
  refine ⟨_, rfl, ?_⟩
  repeat' first
    | intro _
    | with_reducible assumption
    | with_reducible exact Only.refl _ _
    | (with_reducible apply Only.step (windowTlpWriteEff_only ..); exact .of (by decide +kernel))
    | with_reducible apply_assumption -exfalso -symm
    | split
    | dsimp only

/-- What `execWindowWriteAck` may change. -/
theorem execWindowWriteAck_only (port : Port) (dest : Option Nat) (s : State) :
    ∃ t,
    execWindowWriteAck port dest s = .next t ∧ Only [.out, .he, .bp, .me, .gf, .mg, .fi, .reg Reg.HE_EPCNT.A_COUNT,
    .reg Reg.HE_EPCNT.B_COUNT, .reg Reg.HE_WINLOG.COUNT, .reg Reg.HE_WINLOG.CAUSE, .reg Reg.HE_WINLOG.PORT,
    .reg Reg.HE_WINLOGLO.OFFSET, .reg Reg.HE_WINLOGHI.OFFSET, .reg Reg.HE_WINLOGHI.RID, .reg Reg.BP_ERRBUF.INDEX,
    .reg Reg.BP_ERRBUF.OWNER, .reg Reg.BP_ERRBUF.CAUSE, .reg Reg.BP_ERR.REVOKE, .reg Reg.ME_POISON.CONSUMED,
    .reg Reg.ME_LASTHI.KIND, .reg Reg.ME_MERGE.EVICT, .reg Reg.ME_ERR.POISON, .reg Reg.GF_XFER.FAILED, .reg Reg.GF_ERR.XFERFAIL,
    .reg Reg.MG_LOGSTAT.DROPPED, .reg Reg.MG_ERR.LOGDROP, .reg Reg.FI_CNT.INJECTED] s t := by
  unfold execWindowWriteAck
  refine ⟨_, rfl, ?_⟩
  repeat' first
    | intro _
    | with_reducible assumption
    | with_reducible exact Only.refl _ _
    | (with_reducible apply Only.step (releaseHeld_only ..); exact .of (by decide +kernel))
    | (with_reducible apply Only.step (State.updPort_only ..); exact .of (by decide +kernel))
    | with_reducible apply_assumption -exfalso -symm
    | split
    | dsimp only

/-- What `execUnsupportedTlp` may change. -/
theorem execUnsupportedTlp_only (port : Port) (tag : Nat) (s : State) :
    ∃ t,
    execUnsupportedTlp port tag s = .next t ∧ Only [.out, .he] s t := by
  unfold execUnsupportedTlp
  refine ⟨_, rfl, ?_⟩
  repeat' first
    | intro _
    | with_reducible assumption
    | with_reducible exact Only.refl _ _
    | with_reducible apply Only.ite
    | (with_reducible apply Only.step (urCpl_only ..); exact .of (by decide +kernel))
    | with_reducible apply_assumption -exfalso -symm
    | split
    | dsimp only

/-- What `execMalformedTlp` may change. -/
theorem execMalformedTlp_only (port : Port) (s : State) :
    ∃ t, execMalformedTlp port s = .next t ∧ Only [.out,
    .he] s t := by
  unfold execMalformedTlp
  refine ⟨_, rfl, ?_⟩
  repeat' first
    | intro _
    | with_reducible assumption
    | with_reducible exact Only.refl _ _
    | with_reducible apply Only.ite
    | (with_reducible apply Only.step (pcieError_only ..); exact .of (by decide +kernel))
    | with_reducible apply_assumption -exfalso -symm
    | split
    | dsimp only

/-- What `winCommit` may change. -/
theorem winCommit_only (p : Port) (copy : Bool) (s : State) :
    Only [.he, .reg Reg.HE_WINSTAT.A_BAD,
    .reg Reg.HE_WINSTAT.A_BUSYWR, .reg Reg.HE_WINSTAT.B_BAD, .reg Reg.HE_WINSTAT.B_BUSYWR, .reg Reg.HE_WINBAD.IDX,
    .reg Reg.HE_WINBAD.CAUSE, .reg Reg.HE_WINBAD.PORT] s (winCommit p copy s) := by
  unfold winCommit
  repeat' first
    | intro _
    | with_reducible assumption
    | with_reducible exact Only.refl _ _
    | (extract_lets +onlyGivenNames x; refine Only.cut x ?_ (fun _ => ?_); unfold x; clear x; rotate_left; clear_value x)
    | (extract_lets +onlyGivenNames x; refine Only.cut2 x ?_ (fun _ => ?_); unfold x; clear x; rotate_left; clear_value x)
    | (extract_lets +onlyGivenNames x; refine Only.cutF x ?_ (fun _ => ?_); unfold x; clear x; rotate_left; clear_value x)
    | (extract_lets +onlyGivenNames x; refine Only.cutG x ?_ (fun _ => ?_); unfold x; clear x; rotate_left; clear_value x)
    | (extract_lets +onlyGivenNames x; refine Only.cutG2 x ?_ (fun _ => ?_); unfold x; clear x; rotate_left; clear_value x)
    | (extract_lets +onlyGivenNames x; refine Only.cutG3 x ?_ (fun _ => ?_); unfold x; clear x; rotate_left; clear_value x)
    | (extract_lets +onlyGivenNames x; refine Only.cutH x ?_ (fun _ => ?_); unfold x; clear x; rotate_left; clear_value x)
    | (extract_lets +onlyGivenNames x; clear_value x)
    | with_reducible apply Only.ite
    | (with_reducible apply Only.step (setF_port ..); exact .of (by decide +kernel))
    | (with_reducible apply Only.step (setF_only ..); exact .of (by decide +kernel))
    | (with_reducible apply Only.step (flagOn_port ..); exact .of (by decide +kernel))
    | (with_reducible apply Only.step (flagOn_only ..); exact .of (by decide +kernel))
    | (with_reducible apply Only.step (flagOff_port ..); exact .of (by decide +kernel))
    | (with_reducible apply Only.step (flagOff_only ..); exact .of (by decide +kernel))
    | (with_reducible apply Only.step (State.updPort_only ..); exact .of (by decide +kernel))
    | with_reducible apply_assumption -exfalso -symm
    | split
    | dsimp only

/-- What `wincommitEff` may change. -/
theorem wincommitEff_only (p : Port) (who : Writer) (copy : Bool) (s : State) :
    Only [.he, .reg Reg.GEN_ERR.OWNWR,
    .reg Reg.GEN_ERRADDR.OFFSET, .reg Reg.GEN_ERRADDR.SRC, .reg Reg.HE_WINSTAT.A_BAD, .reg Reg.HE_WINSTAT.A_BUSYWR,
    .reg Reg.HE_WINSTAT.B_BAD, .reg Reg.HE_WINSTAT.B_BUSYWR, .reg Reg.HE_WINBAD.IDX, .reg Reg.HE_WINBAD.CAUSE,
    .reg Reg.HE_WINBAD.PORT] s (wincommitEff p who copy s) := by
  unfold wincommitEff
  repeat' first
    | intro _
    | with_reducible assumption
    | with_reducible exact Only.refl _ _
    | with_reducible apply Only.ite
    | (with_reducible apply Only.step (genErr_only ..); exact .of (by decide +kernel))
    | (with_reducible apply Only.step (winCommit_only ..); exact .of (by decide +kernel))
    | with_reducible apply_assumption -exfalso -symm
    | split
    | dsimp only

/-- What `execHeWincommitA` may change. -/
theorem execHeWincommitA_only (who : Writer) (copy : Bool) (s : State) :
    ∃ t,
    execHeWincommitA who copy s = .next t ∧ Only [.he, .reg Reg.GEN_ERR.OWNWR, .reg Reg.GEN_ERRADDR.OFFSET,
    .reg Reg.GEN_ERRADDR.SRC, .reg Reg.HE_WINSTAT.A_BAD, .reg Reg.HE_WINSTAT.A_BUSYWR, .reg Reg.HE_WINSTAT.B_BAD,
    .reg Reg.HE_WINSTAT.B_BUSYWR, .reg Reg.HE_WINBAD.IDX, .reg Reg.HE_WINBAD.CAUSE, .reg Reg.HE_WINBAD.PORT] s t := by
  unfold execHeWincommitA
  refine ⟨_, rfl, ?_⟩
  repeat' first
    | intro _
    | with_reducible assumption
    | with_reducible exact Only.refl _ _
    | (with_reducible apply Only.step (wincommitEff_only ..); exact .of (by decide +kernel))
    | with_reducible apply_assumption -exfalso -symm
    | split
    | dsimp only

/-- What `execHeWincommitB` may change. -/
theorem execHeWincommitB_only (who : Writer) (copy : Bool) (s : State) :
    ∃ t,
    execHeWincommitB who copy s = .next t ∧ Only [.he, .reg Reg.GEN_ERR.OWNWR, .reg Reg.GEN_ERRADDR.OFFSET,
    .reg Reg.GEN_ERRADDR.SRC, .reg Reg.HE_WINSTAT.A_BAD, .reg Reg.HE_WINSTAT.A_BUSYWR, .reg Reg.HE_WINSTAT.B_BAD,
    .reg Reg.HE_WINSTAT.B_BUSYWR, .reg Reg.HE_WINBAD.IDX, .reg Reg.HE_WINBAD.CAUSE, .reg Reg.HE_WINBAD.PORT] s t := by
  unfold execHeWincommitB
  refine ⟨_, rfl, ?_⟩
  repeat' first
    | intro _
    | with_reducible assumption
    | with_reducible exact Only.refl _ _
    | (with_reducible apply Only.step (wincommitEff_only ..); exact .of (by decide +kernel))
    | with_reducible apply_assumption -exfalso -symm
    | split
    | dsimp only

/-- What `execWindowCopyDone` may change. -/
theorem execWindowCopyDone_only (port : Port) (s : State) :
    ∃ t, execWindowCopyDone port s = .next t ∧ Only [.he] s t := by
  unfold execWindowCopyDone
  refine ⟨_, rfl, ?_⟩
  repeat' first
    | intro _
    | with_reducible assumption
    | with_reducible exact Only.refl _ _
    | with_reducible apply Only.ite
    | (with_reducible apply Only.step (State.updPort_only ..); exact .of (by decide +kernel))
    | with_reducible apply_assumption -exfalso -symm
    | split
    | dsimp only

/-- What `winlogClrEff` may change. -/
theorem winlogClrEff_only (who : Writer) (s : State) :
    Only [.reg Reg.GEN_ERR.OWNWR, .reg Reg.GEN_ERRADDR.OFFSET,
    .reg Reg.GEN_ERRADDR.SRC, .reg Reg.HE_WINLOG.COUNT] s (winlogClrEff who s) := by
  unfold winlogClrEff
  repeat' first
    | intro _
    | with_reducible assumption
    | with_reducible exact Only.refl _ _
    | with_reducible apply Only.ite
    | (with_reducible apply Only.step (setF_only ..); exact .of (by decide +kernel))
    | (with_reducible apply Only.step (genErr_only ..); exact .of (by decide +kernel))
    | with_reducible apply_assumption -exfalso -symm
    | split
    | dsimp only

/-- What `execHeWinlogClr` may change. -/
theorem execHeWinlogClr_only (who : Writer) (s : State) :
    ∃ t,
    execHeWinlogClr who s = .next t ∧ Only [.reg Reg.GEN_ERR.OWNWR, .reg Reg.GEN_ERRADDR.OFFSET, .reg Reg.GEN_ERRADDR.SRC,
    .reg Reg.HE_WINLOG.COUNT] s t := by
  unfold execHeWinlogClr
  refine ⟨_, rfl, ?_⟩
  repeat' first
    | intro _
    | with_reducible assumption
    | with_reducible exact Only.refl _ _
    | (with_reducible apply Only.step (winlogClrEff_only ..); exact .of (by decide +kernel))
    | with_reducible apply_assumption -exfalso -symm
    | split
    | dsimp only

/-- What `linkTrainedEff` may change. -/
theorem linkTrainedEff_only (port : Port) (rate width : Nat) (flit : Bool) (s : State) :
    Only [.he] s (linkTrainedEff port rate width flit s) := by
  unfold linkTrainedEff
  repeat' first
    | intro _
    | with_reducible assumption
    | with_reducible exact Only.refl _ _
    | (extract_lets +onlyGivenNames x; refine Only.cut x ?_ (fun _ => ?_); unfold x; clear x; rotate_left; clear_value x)
    | (extract_lets +onlyGivenNames x; refine Only.cut2 x ?_ (fun _ => ?_); unfold x; clear x; rotate_left; clear_value x)
    | (extract_lets +onlyGivenNames x; refine Only.cutF x ?_ (fun _ => ?_); unfold x; clear x; rotate_left; clear_value x)
    | (extract_lets +onlyGivenNames x; refine Only.cutG x ?_ (fun _ => ?_); unfold x; clear x; rotate_left; clear_value x)
    | (extract_lets +onlyGivenNames x; refine Only.cutG2 x ?_ (fun _ => ?_); unfold x; clear x; rotate_left; clear_value x)
    | (extract_lets +onlyGivenNames x; refine Only.cutG3 x ?_ (fun _ => ?_); unfold x; clear x; rotate_left; clear_value x)
    | (extract_lets +onlyGivenNames x; refine Only.cutH x ?_ (fun _ => ?_); unfold x; clear x; rotate_left; clear_value x)
    | (extract_lets +onlyGivenNames x; clear_value x)
    | with_reducible apply Only.ite
    | (with_reducible apply Only.step (State.updPort_only ..); exact .of (by decide +kernel))
    | with_reducible apply_assumption -exfalso -symm
    | split
    | dsimp only

/-- What `execLinkTrained` may change. -/
theorem execLinkTrained_only (port : Port) (rate width : Nat) (flit : Bool) (s : State) :
    ∃ t,
    execLinkTrained port rate width flit s = .next t ∧ Only [.he] s t := by
  unfold execLinkTrained
  refine ⟨_, rfl, ?_⟩
  repeat' first
    | intro _
    | with_reducible assumption
    | with_reducible exact Only.refl _ _
    | (with_reducible apply Only.step (linkTrainedEff_only ..); exact .of (by decide +kernel))
    | with_reducible apply_assumption -exfalso -symm
    | split
    | dsimp only

/-- What `extend` may change. -/
theorem extend_only (id cause ns : Nat) (s : State) :
    Only [.cmds, .fs] s (extend id cause ns s) := by
  unfold extend
  repeat' first
    | intro _
    | with_reducible assumption
    | with_reducible exact Only.refl _ _
    | (extract_lets +onlyGivenNames x; refine Only.cut x ?_ (fun _ => ?_); unfold x; clear x; rotate_left; clear_value x)
    | (extract_lets +onlyGivenNames x; refine Only.cut2 x ?_ (fun _ => ?_); unfold x; clear x; rotate_left; clear_value x)
    | (extract_lets +onlyGivenNames x; refine Only.cutF x ?_ (fun _ => ?_); unfold x; clear x; rotate_left; clear_value x)
    | (extract_lets +onlyGivenNames x; refine Only.cutG x ?_ (fun _ => ?_); unfold x; clear x; rotate_left; clear_value x)
    | (extract_lets +onlyGivenNames x; refine Only.cutP x ?_ (fun _ => ?_); unfold x; clear x; rotate_left; clear_value x)
    | (extract_lets +onlyGivenNames x; refine Only.cutG2 x ?_ (fun _ => ?_); unfold x; clear x; rotate_left; clear_value x)
    | (extract_lets +onlyGivenNames x; refine Only.cutG3 x ?_ (fun _ => ?_); unfold x; clear x; rotate_left; clear_value x)
    | (extract_lets +onlyGivenNames x; refine Only.cutH x ?_ (fun _ => ?_); unfold x; clear x; rotate_left; clear_value x)
    | (extract_lets +onlyGivenNames x; clear_value x)
    | with_reducible apply Only.ite
    | fail_if_no_progress (with_reducible apply Only.upd_cmds_fs; decide +kernel; decide +kernel)
    | with_reducible apply_assumption -exfalso -symm
    | split
    | dsimp only

/-- What `extendHeld` may change. -/
theorem extendHeld_only (p : Port) (cause ns : Nat) (s : State) :
    Only [.ctl, .fs] s (extendHeld p cause ns s) := by
  unfold extendHeld
  repeat' first
    | intro _
    | with_reducible assumption
    | with_reducible exact Only.refl _ _
    | (extract_lets +onlyGivenNames x; refine Only.cut x ?_ (fun _ => ?_); unfold x; clear x; rotate_left; clear_value x)
    | (extract_lets +onlyGivenNames x; refine Only.cut2 x ?_ (fun _ => ?_); unfold x; clear x; rotate_left; clear_value x)
    | (extract_lets +onlyGivenNames x; refine Only.cutF x ?_ (fun _ => ?_); unfold x; clear x; rotate_left; clear_value x)
    | (extract_lets +onlyGivenNames x; refine Only.cutG x ?_ (fun _ => ?_); unfold x; clear x; rotate_left; clear_value x)
    | (extract_lets +onlyGivenNames x; refine Only.cutP x ?_ (fun _ => ?_); unfold x; clear x; rotate_left; clear_value x)
    | (extract_lets +onlyGivenNames x; refine Only.cutG2 x ?_ (fun _ => ?_); unfold x; clear x; rotate_left; clear_value x)
    | (extract_lets +onlyGivenNames x; refine Only.cutG3 x ?_ (fun _ => ?_); unfold x; clear x; rotate_left; clear_value x)
    | (extract_lets +onlyGivenNames x; refine Only.cutH x ?_ (fun _ => ?_); unfold x; clear x; rotate_left; clear_value x)
    | (extract_lets +onlyGivenNames x; clear_value x)
    | with_reducible apply Only.ite
    | fail_if_no_progress (with_reducible apply Only.upd_fs; decide +kernel)
    | (with_reducible apply Only.step (State.updCon_only ..); exact .of (by decide +kernel))
    | with_reducible apply_assumption -exfalso -symm
    | split
    | dsimp only

/-- What `extendPort` may change. -/
theorem extendPort_only (p : Port) (cause ns : Nat) (s : State) :
    Only [.he, .ctl, .cmds,
    .fs] s (extendPort p cause ns s) := by
  unfold extendPort
  repeat' first
    | intro _
    | with_reducible assumption
    | with_reducible exact Only.refl _ _
    | (extract_lets +onlyGivenNames x; refine Only.cut x ?_ (fun _ => ?_); unfold x; clear x; rotate_left; clear_value x)
    | (extract_lets +onlyGivenNames x; refine Only.cut2 x ?_ (fun _ => ?_); unfold x; clear x; rotate_left; clear_value x)
    | (extract_lets +onlyGivenNames x; refine Only.cutF x ?_ (fun _ => ?_); unfold x; clear x; rotate_left; clear_value x)
    | (extract_lets +onlyGivenNames x; refine Only.cutG x ?_ (fun _ => ?_); unfold x; clear x; rotate_left; clear_value x)
    | (extract_lets +onlyGivenNames x; refine Only.cutG2 x ?_ (fun _ => ?_); unfold x; clear x; rotate_left; clear_value x)
    | (extract_lets +onlyGivenNames x; refine Only.cutG3 x ?_ (fun _ => ?_); unfold x; clear x; rotate_left; clear_value x)
    | (extract_lets +onlyGivenNames x; refine Only.cutH x ?_ (fun _ => ?_); unfold x; clear x; rotate_left; clear_value x)
    | (extract_lets +onlyGivenNames x; clear_value x)
    | with_reducible apply Only.ite
    | (with_reducible apply Only.step (extend_only ..); exact .of (by decide +kernel))
    | (with_reducible apply Only.step (extendHeld_only ..); exact .of (by decide +kernel))
    | (with_reducible apply Only.step (State.updPort_only ..); exact .of (by decide +kernel))
    | with_reducible refine Only.foldl (fun _ _ _ => ?_) ?_
    | with_reducible refine Only.foldl2 (fun _ _ _ => ?_) ?_
    | with_reducible apply_assumption -exfalso -symm
    | split
    | dsimp only

/-- What `linkRecoveryEntryEff` may change. -/
theorem linkRecoveryEntryEff_only (port : Port) (s : State) :
    Only [.he, .reg Reg.HE_LINKREC_A.COUNT,
    .reg Reg.HE_LINKREC_B.COUNT] s (linkRecoveryEntryEff port s) := by
  unfold linkRecoveryEntryEff
  repeat' first
    | intro _
    | with_reducible assumption
    | with_reducible exact Only.refl _ _
    | with_reducible apply Only.ite
    | (with_reducible apply Only.step (bump_port ..); exact .of (by decide +kernel))
    | (with_reducible apply Only.step (bump_only ..); exact .of (by decide +kernel))
    | (with_reducible apply Only.step (State.updPort_only ..); exact .of (by decide +kernel))
    | with_reducible apply_assumption -exfalso -symm
    | split
    | dsimp only

/-- What `execLinkRecoveryEntry` may change. -/
theorem execLinkRecoveryEntry_only (port : Port) (s : State) :
    ∃ t, execLinkRecoveryEntry port s = .next t ∧ Only [.he,
    .reg Reg.HE_LINKREC_A.COUNT, .reg Reg.HE_LINKREC_B.COUNT] s t := by
  unfold execLinkRecoveryEntry
  refine ⟨_, rfl, ?_⟩
  repeat' first
    | intro _
    | with_reducible assumption
    | with_reducible exact Only.refl _ _
    | (with_reducible apply Only.step (linkRecoveryEntryEff_only ..); exact .of (by decide +kernel))
    | with_reducible apply_assumption -exfalso -symm
    | split
    | dsimp only

/-- What `linkRecoveryExitEff` may change. -/
theorem linkRecoveryExitEff_only (port : Port) (durationUs : Nat) (s : State) :
    Only [.he, .ctl, .cmds, .fs,
    .reg Reg.HE_LINKREC_A.LAST, .reg Reg.HE_LINKREC_B.LAST] s (linkRecoveryExitEff port durationUs s) := by
  unfold linkRecoveryExitEff
  repeat' first
    | intro _
    | with_reducible assumption
    | with_reducible exact Only.refl _ _
    | (extract_lets +onlyGivenNames x; refine Only.cut x ?_ (fun _ => ?_); unfold x; clear x; rotate_left; clear_value x)
    | (extract_lets +onlyGivenNames x; refine Only.cut2 x ?_ (fun _ => ?_); unfold x; clear x; rotate_left; clear_value x)
    | (extract_lets +onlyGivenNames x; refine Only.cutF x ?_ (fun _ => ?_); unfold x; clear x; rotate_left; clear_value x)
    | (extract_lets +onlyGivenNames x; refine Only.cutG x ?_ (fun _ => ?_); unfold x; clear x; rotate_left; clear_value x)
    | (extract_lets +onlyGivenNames x; refine Only.cutG2 x ?_ (fun _ => ?_); unfold x; clear x; rotate_left; clear_value x)
    | (extract_lets +onlyGivenNames x; refine Only.cutG3 x ?_ (fun _ => ?_); unfold x; clear x; rotate_left; clear_value x)
    | (extract_lets +onlyGivenNames x; refine Only.cutH x ?_ (fun _ => ?_); unfold x; clear x; rotate_left; clear_value x)
    | (extract_lets +onlyGivenNames x; clear_value x)
    | with_reducible apply Only.ite
    | (with_reducible apply Only.step (setSat_port ..); exact .of (by decide +kernel))
    | (with_reducible apply Only.step (setSat_only ..); exact .of (by decide +kernel))
    | (with_reducible apply Only.step (extendPort_only ..); exact .of (by decide +kernel))
    | (with_reducible apply Only.step (State.updPort_only ..); exact .of (by decide +kernel))
    | with_reducible apply_assumption -exfalso -symm
    | split
    | dsimp only

/-- What `execLinkRecoveryExit` may change. -/
theorem execLinkRecoveryExit_only (port : Port) (durationUs : Nat) (s : State) :
    ∃ t,
    execLinkRecoveryExit port durationUs s = .next t ∧ Only [.he, .ctl, .cmds, .fs, .reg Reg.HE_LINKREC_A.LAST,
    .reg Reg.HE_LINKREC_B.LAST] s t := by
  unfold execLinkRecoveryExit
  refine ⟨_, rfl, ?_⟩
  repeat' first
    | intro _
    | with_reducible assumption
    | with_reducible exact Only.refl _ _
    | (with_reducible apply Only.step (linkRecoveryExitEff_only ..); exact .of (by decide +kernel))
    | with_reducible apply_assumption -exfalso -symm
    | split
    | dsimp only

/-- What `execSurpriseDown` may change. -/
theorem execSurpriseDown_only (port : Port) (s : State) :
    ∃ t, execSurpriseDown port s = .next t ∧ Only [.he, .ctl, .cmds,
    .fs, .mx, .nsWait, .mm, .bp, .tw, .dg, .mg, .reg Reg.GEN_RSTCAUSE.PERST, .reg Reg.BP_ERRBUF.INDEX, .reg Reg.BP_ERRBUF.OWNER,
    .reg Reg.BP_ERRBUF.CAUSE, .reg Reg.BP_ERR.REVOKE] s t := by
  unfold execSurpriseDown
  refine ⟨_, rfl, ?_⟩
  repeat' first
    | intro _
    | with_reducible assumption
    | with_reducible exact Only.refl _ _
    | with_reducible apply Only.ite
    | (with_reducible apply Only.step (portDown_only ..); exact .of (by decide +kernel))
    | with_reducible apply_assumption -exfalso -symm
    | split
    | dsimp only

/-- What `l0pWidthChangeEff` may change. -/
theorem l0pWidthChangeEff_only (port : Port) (width durationNs : Nat) (s : State) :
    Only [.he, .ctl, .cmds,
    .fs] s (l0pWidthChangeEff port width durationNs s) := by
  unfold l0pWidthChangeEff
  repeat' first
    | intro _
    | with_reducible assumption
    | with_reducible exact Only.refl _ _
    | with_reducible apply Only.ite
    | (with_reducible apply Only.step (extendPort_only ..); exact .of (by decide +kernel))
    | (with_reducible apply Only.step (State.updPort_only ..); exact .of (by decide +kernel))
    | with_reducible apply_assumption -exfalso -symm
    | split
    | dsimp only

/-- What `execL0pWidthChange` may change. -/
theorem execL0pWidthChange_only (port : Port) (width durationNs : Nat) (s : State) :
    ∃ t,
    execL0pWidthChange port width durationNs s = .next t ∧ Only [.he, .ctl, .cmds, .fs] s t := by
  unfold execL0pWidthChange
  refine ⟨_, rfl, ?_⟩
  repeat' first
    | intro _
    | with_reducible assumption
    | with_reducible exact Only.refl _ _
    | (with_reducible apply Only.step (l0pWidthChangeEff_only ..); exact .of (by decide +kernel))
    | with_reducible apply_assumption -exfalso -symm
    | split
    | dsimp only

/-- What `execAspmL1Entry` may change. -/
theorem execAspmL1Entry_only (port : Port) (idleUs : Nat) (l12 : Bool) (s : State) :
    ∃ t,
    execAspmL1Entry port idleUs l12 s = .next t ∧ Only [.he] s t := by
  unfold execAspmL1Entry
  refine ⟨_, rfl, ?_⟩
  repeat' first
    | intro _
    | with_reducible assumption
    | with_reducible exact Only.refl _ _
    | with_reducible apply Only.ite
    | (with_reducible apply Only.step (State.updPort_only ..); exact .of (by decide +kernel))
    | with_reducible apply_assumption -exfalso -symm
    | split
    | dsimp only

/-- What `execAspmL1Exit` may change. -/
theorem execAspmL1Exit_only (port : Port) (s : State) :
    ∃ t, execAspmL1Exit port s = .next t ∧ Only [.he] s t := by
  unfold execAspmL1Exit
  refine ⟨_, rfl, ?_⟩
  repeat' first
    | intro _
    | with_reducible assumption
    | with_reducible exact Only.refl _ _
    | (with_reducible apply Only.step (State.updPort_only ..); exact .of (by decide +kernel))
    | with_reducible apply_assumption -exfalso -symm
    | split
    | dsimp only

/-- What `execD3hotEntry` may change. -/
theorem execD3hotEntry_only (port : Port) (s : State) :
    ∃ t, execD3hotEntry port s = .next t ∧ Only [.he] s t := by
  unfold execD3hotEntry
  refine ⟨_, rfl, ?_⟩
  repeat' first
    | intro _
    | with_reducible assumption
    | with_reducible exact Only.refl _ _
    | with_reducible apply Only.ite
    | (with_reducible apply Only.step (State.updPort_only ..); exact .of (by decide +kernel))
    | with_reducible apply_assumption -exfalso -symm
    | split
    | dsimp only

/-- What `msixUnmask` may change. -/
theorem msixUnmask_only (p : Port) (s : State) :
    Only [.out, .he] s (msixUnmask p s) := by
  unfold msixUnmask
  repeat' first
    | intro _
    | with_reducible assumption
    | with_reducible exact Only.refl _ _
    | (extract_lets +onlyGivenNames x; refine Only.cut x ?_ (fun _ => ?_); unfold x; clear x; rotate_left; clear_value x)
    | (extract_lets +onlyGivenNames x; refine Only.cut2 x ?_ (fun _ => ?_); unfold x; clear x; rotate_left; clear_value x)
    | (extract_lets +onlyGivenNames x; refine Only.cutF x ?_ (fun _ => ?_); unfold x; clear x; rotate_left; clear_value x)
    | (extract_lets +onlyGivenNames x; refine Only.cutG x ?_ (fun _ => ?_); unfold x; clear x; rotate_left; clear_value x)
    | (extract_lets +onlyGivenNames x; refine Only.cutG2 x ?_ (fun _ => ?_); unfold x; clear x; rotate_left; clear_value x)
    | (extract_lets +onlyGivenNames x; refine Only.cutG3 x ?_ (fun _ => ?_); unfold x; clear x; rotate_left; clear_value x)
    | (extract_lets +onlyGivenNames x; refine Only.cutH x ?_ (fun _ => ?_); unfold x; clear x; rotate_left; clear_value x)
    | (extract_lets +onlyGivenNames x; clear_value x)
    | with_reducible apply Only.ite
    | (with_reducible apply Only.step (emit_only ..); exact .of (by decide +kernel))
    | (with_reducible apply Only.step (State.updPort_only ..); exact .of (by decide +kernel))
    | with_reducible refine Only.foldl (fun _ _ _ => ?_) ?_
    | with_reducible refine Only.foldl2 (fun _ _ _ => ?_) ?_
    | with_reducible apply_assumption -exfalso -symm
    | split
    | dsimp only

/-- What `updAer` may change. -/
theorem updAer_only (p : Port) (f : Aer → Aer) (s : State) :
    Only [.he] s (updAer p f s) := by
  unfold updAer
  repeat' first
    | intro _
    | with_reducible assumption
    | with_reducible exact Only.refl _ _
    | (with_reducible apply Only.step (State.updPort_only ..); exact .of (by decide +kernel))
    | with_reducible apply_assumption -exfalso -symm
    | split
    | dsimp only

/-- What `configStore` may change. -/
theorem configStore_only (port : Port) (reg v : Nat) (s : State) :
    Only [.out, .he] s (configStore port reg v s) := by
  unfold configStore
  repeat' first
    | intro _
    | with_reducible assumption
    | with_reducible exact Only.refl _ _
    | with_reducible apply Only.ite
    | (with_reducible apply Only.step (State.updPort_only ..); exact .of (by decide +kernel))
    | (with_reducible apply Only.step (msixUnmask_only ..); exact .of (by decide +kernel))
    | (with_reducible apply Only.step (updAer_only ..); exact .of (by decide +kernel))
    | with_reducible apply_assumption -exfalso -symm
    | split
    | dsimp only

/-- What `configRegisterWriteEff` may change. -/
theorem configRegisterWriteEff_only (port : Port) (reg : Nat) (value : Word) (s : State) :
    Only [.out,
    .he] s (configRegisterWriteEff port reg value s) := by
  unfold configRegisterWriteEff
  repeat' first
    | intro _
    | with_reducible assumption
    | with_reducible exact Only.refl _ _
    | with_reducible apply Only.ite
    | (with_reducible apply Only.step (configRetry_only ..); exact .of (by decide +kernel))
    | (with_reducible apply Only.step (configDone_only ..); exact .of (by decide +kernel))
    | (with_reducible apply Only.step (configStore_only ..); exact .of (by decide +kernel))
    | with_reducible apply_assumption -exfalso -symm
    | split
    | dsimp only

/-- What `execConfigRegisterWrite` may change. -/
theorem execConfigRegisterWrite_only (port : Port) (reg : Nat) (value : Word) (s : State) :
    ∃ t,
    execConfigRegisterWrite port reg value s = .next t ∧ Only [.out, .he] s t := by
  unfold execConfigRegisterWrite
  refine ⟨_, rfl, ?_⟩
  repeat' first
    | intro _
    | with_reducible assumption
    | with_reducible exact Only.refl _ _
    | (with_reducible apply Only.step (configRegisterWriteEff_only ..); exact .of (by decide +kernel))
    | with_reducible apply_assumption -exfalso -symm
    | split
    | dsimp only

/-- What `doeTake` may change. -/
theorem doeTake_only (port : Port) (objType : Nat) (dwords : List Word) (s : State) :
    Only [.he] s (doeTake port objType dwords s) := by
  unfold doeTake
  repeat' first
    | intro _
    | with_reducible assumption
    | with_reducible exact Only.refl _ _
    | (with_reducible apply Only.step (State.updPort_only ..); exact .of (by decide +kernel))
    | with_reducible apply_assumption -exfalso -symm
    | split
    | dsimp only

/-- What `doeRequestEff` may change. -/
theorem doeRequestEff_only (port : Port) (vendor objType : Nat) (dwords : List Word) (s : State) :
    Only [.he] s (doeRequestEff port vendor objType dwords s) := by
  unfold doeRequestEff
  repeat' first
    | intro _
    | with_reducible assumption
    | with_reducible exact Only.refl _ _
    | with_reducible apply Only.ite
    | (with_reducible apply Only.step (State.updPort_only ..); exact .of (by decide +kernel))
    | (with_reducible apply Only.step (doeTake_only ..); exact .of (by decide +kernel))
    | with_reducible apply_assumption -exfalso -symm
    | split
    | dsimp only

/-- What `doeResume` may change. -/
theorem doeResume_only (port : Port) (s : State) :
    Only [.he] s (doeResume port s) := by
  unfold doeResume
  repeat' first
    | intro _
    | with_reducible assumption
    | with_reducible exact Only.refl _ _
    | (extract_lets +onlyGivenNames x; refine Only.cut x ?_ (fun _ => ?_); unfold x; clear x; rotate_left; clear_value x)
    | (extract_lets +onlyGivenNames x; refine Only.cut2 x ?_ (fun _ => ?_); unfold x; clear x; rotate_left; clear_value x)
    | (extract_lets +onlyGivenNames x; refine Only.cutF x ?_ (fun _ => ?_); unfold x; clear x; rotate_left; clear_value x)
    | (extract_lets +onlyGivenNames x; refine Only.cutG x ?_ (fun _ => ?_); unfold x; clear x; rotate_left; clear_value x)
    | (extract_lets +onlyGivenNames x; refine Only.cutG2 x ?_ (fun _ => ?_); unfold x; clear x; rotate_left; clear_value x)
    | (extract_lets +onlyGivenNames x; refine Only.cutG3 x ?_ (fun _ => ?_); unfold x; clear x; rotate_left; clear_value x)
    | (extract_lets +onlyGivenNames x; refine Only.cutH x ?_ (fun _ => ?_); unfold x; clear x; rotate_left; clear_value x)
    | (extract_lets +onlyGivenNames x; clear_value x)
    | (with_reducible apply Only.step (State.updPort_only ..); exact .of (by decide +kernel))
    | (with_reducible apply Only.step (doeTake_only ..); exact .of (by decide +kernel))
    | with_reducible apply_assumption -exfalso -symm
    | split
    | dsimp only

/-- What `execDoeRequest` may change. -/
theorem execDoeRequest_only (port : Port) (vendor objType : Nat) (dwords : List Word) (s : State) :
    ∃ t,
    execDoeRequest port vendor objType dwords s = .next t ∧ Only [.he] s t := by
  unfold execDoeRequest
  refine ⟨_, rfl, ?_⟩
  repeat' first
    | intro _
    | with_reducible assumption
    | with_reducible exact Only.refl _ _
    | (with_reducible apply Only.step (doeRequestEff_only ..); exact .of (by decide +kernel))
    | with_reducible apply_assumption -exfalso -symm
    | split
    | dsimp only

/-- What `execDoeAbort` may change. -/
theorem execDoeAbort_only (port : Port) (s : State) :
    ∃ t, execDoeAbort port s = .next t ∧ Only [.he] s t := by
  unfold execDoeAbort
  refine ⟨_, rfl, ?_⟩
  repeat' first
    | intro _
    | with_reducible assumption
    | with_reducible exact Only.refl _ _
    | (with_reducible apply Only.step (State.updPort_only ..); exact .of (by decide +kernel))
    | with_reducible apply_assumption -exfalso -symm
    | split
    | dsimp only

end Sys2Proof.Machine
end

