-- ==== Sys2Proof/Laws/FrameQueues.lean ====
section
/-! SUPPORT. What each operation of Machine/Queues.lean may change, as `Only` states it: one lemma an operation, which later proofs cite
instead of unfolding it. -/
namespace Sys2Proof.Machine
set_option Elab.async false
set_option linter.all false

/-- What `issueFetch` may change. -/
theorem issueFetch_only (p : Port) (use : ReadUse) (retries : Nat) (s : State) :
    Only [.out,
    .he] s (issueFetch p use retries s) := by
  unfold issueFetch
  repeat' first
    | intro _
    | with_reducible assumption
    | with_reducible exact Only.refl _ _
    | (extract_lets +onlyGivenNames x; refine Only.cut x ?_ (fun _ => ?_); unfold x; clear x; rotate_left; clear_value x)
    | (extract_lets +onlyGivenNames x; refine Only.cut2 x ?_ (fun _ => ?_); unfold x; clear x; rotate_left; clear_value x)
    | (extract_lets +onlyGivenNames x; refine Only.cutF x ?_ (fun _ => ?_); unfold x; clear x; rotate_left; clear_value x)
    | (extract_lets +onlyGivenNames x; refine Only.cutG x ?_ (fun _ => ?_); unfold x; clear x; rotate_left; clear_value x)
    | (extract_lets +onlyGivenNames x; refine Only.cutG2 x ?_ (fun _ => ?_); unfold x; clear x; rotate_left; clear_value x)
    | (extract_lets +onlyGivenNames x; refine Only.cutG3 x ?_ (fun _ => ?_); unfold x; clear x; rotate_left; clear_value x)
    | (extract_lets +onlyGivenNames x; refine Only.cutH x ?_ (fun _ => ?_); unfold x; clear x; rotate_left; clear_value x)
    | (extract_lets +onlyGivenNames x; clear_value x)
    | (with_reducible apply Only.step (emit_only ..); exact .of (by decide +kernel))
    | (with_reducible apply Only.step (State.updPort_only ..); exact .of (by decide +kernel))
    | with_reducible apply_assumption -exfalso -symm
    | split
    | dsimp only

/-- What `wake` may change. -/
theorem wake_only (s : State) :
    Only [.out, .gen, .he, .ctl, .sh, .fs, .mg, .fi, .prov, .reg Reg.QE_CQFULL.COUNT,
    .reg Reg.MG_LOGSTAT.DROPPED, .reg Reg.MG_ERR.LOGDROP, .reg Reg.FI_ARM.ARMED, .reg Reg.FI_ARM.DCAUSE, .reg Reg.FI_GF.EN,
    .reg Reg.FI_FL.EN, .reg Reg.FI_PCIE.EN] s (wake s) := by
  unfold wake
  repeat' first
    | intro _
    | with_reducible assumption
    | with_reducible exact Only.refl _ _
    | with_reducible apply Only.ite
    | fail_if_no_progress (with_reducible apply Only.upd_sh; decide +kernel)
    | fail_if_no_progress (with_reducible apply Only.upd_gen_sh; decide +kernel; decide +kernel)
    | (with_reducible apply Only.step (enterMode_only ..); exact .of (by decide +kernel))
    | with_reducible apply_assumption -exfalso -symm
    | split
    | dsimp only

/-- What `wakeDoorbell` may change. -/
theorem wakeDoorbell_only (s : State) :
    Only [.out, .gen, .he, .ctl, .sh, .fs, .mg, .fi, .prov, .reg Reg.QE_CQFULL.COUNT,
    .reg Reg.MG_LOGSTAT.DROPPED, .reg Reg.MG_ERR.LOGDROP, .reg Reg.FI_ARM.ARMED, .reg Reg.FI_ARM.DCAUSE, .reg Reg.FI_GF.EN,
    .reg Reg.FI_FL.EN, .reg Reg.FI_PCIE.EN] s (wakeDoorbell s) := by
  unfold wakeDoorbell
  repeat' first
    | intro _
    | with_reducible assumption
    | with_reducible exact Only.refl _ _
    | (extract_lets +onlyGivenNames x; refine Only.cut x ?_ (fun _ => ?_); unfold x; clear x; rotate_left; clear_value x)
    | (extract_lets +onlyGivenNames x; refine Only.cut2 x ?_ (fun _ => ?_); unfold x; clear x; rotate_left; clear_value x)
    | (extract_lets +onlyGivenNames x; clear_value x)
    | with_reducible apply Only.ite
    | fail_if_no_progress (with_reducible apply Only.upd_sh; decide +kernel)
    | (with_reducible apply Only.step (wake_only ..); exact .of (by decide +kernel))
    | with_reducible apply_assumption -exfalso -symm
    | split
    | dsimp only

/-- What `putEventIdx` may change. -/
theorem putEventIdx_only (p : Port) (idx value : Nat) (s : State) :
    Only [.out, .ctl] s (putEventIdx p idx value s) := by
  unfold putEventIdx
  repeat' first
    | intro _
    | with_reducible assumption
    | with_reducible exact Only.refl _ _
    | (with_reducible apply Only.step (emit_only ..); exact .of (by decide +kernel))
    | (with_reducible apply Only.step (State.updCon_only ..); exact .of (by decide +kernel))
    | with_reducible apply_assumption -exfalso -symm
    | split
    | dsimp only

/-- What `moveEventIdx` may change. -/
theorem moveEventIdx_only (p : Port) (idx value : Nat) (s : State) :
    Only [.out, .ctl] s (moveEventIdx p idx value s) := by
  unfold moveEventIdx
  repeat' first
    | intro _
    | with_reducible assumption
    | with_reducible exact Only.refl _ _
    | with_reducible apply Only.ite
    | (with_reducible apply Only.step (putEventIdx_only ..); exact .of (by decide +kernel))
    | with_reducible apply_assumption -exfalso -symm
    | split
    | dsimp only

/-- What `eventIdxPolled` may change. -/
theorem eventIdxPolled_only (p : Port) (s : State) :
    Only [.out, .ctl] s (eventIdxPolled p s) := by
  unfold eventIdxPolled
  repeat' first
    | intro _
    | with_reducible assumption
    | with_reducible exact Only.refl _ _
    | (extract_lets +onlyGivenNames x; refine Only.cut x ?_ (fun _ => ?_); unfold x; clear x; rotate_left; clear_value x)
    | (extract_lets +onlyGivenNames x; refine Only.cut2 x ?_ (fun _ => ?_); unfold x; clear x; rotate_left; clear_value x)
    | (extract_lets +onlyGivenNames x; refine Only.cutF x ?_ (fun _ => ?_); unfold x; clear x; rotate_left; clear_value x)
    | (extract_lets +onlyGivenNames x; refine Only.cutG x ?_ (fun _ => ?_); unfold x; clear x; rotate_left; clear_value x)
    | (extract_lets +onlyGivenNames x; refine Only.cutG2 x ?_ (fun _ => ?_); unfold x; clear x; rotate_left; clear_value x)
    | (extract_lets +onlyGivenNames x; refine Only.cutG3 x ?_ (fun _ => ?_); unfold x; clear x; rotate_left; clear_value x)
    | (extract_lets +onlyGivenNames x; refine Only.cutH x ?_ (fun _ => ?_); unfold x; clear x; rotate_left; clear_value x)
    | (extract_lets +onlyGivenNames x; clear_value x)
    | (with_reducible apply Only.step (moveEventIdx_only ..); exact .of (by decide +kernel))
    | with_reducible refine Only.foldl (fun _ _ _ => ?_) ?_
    | with_reducible refine Only.foldl2 (fun _ _ _ => ?_) ?_
    | with_reducible apply_assumption -exfalso -symm
    | split
    | dsimp only

/-- What `eventIdxNew` may change. -/
theorem eventIdxNew_only (p : Port) (s : State) :
    Only [.out, .ctl] s (eventIdxNew p s) := by
  unfold eventIdxNew
  repeat' first
    | intro _
    | with_reducible assumption
    | with_reducible exact Only.refl _ _
    | with_reducible apply Only.ite
    | (with_reducible apply Only.step (eventIdxPolled_only ..); exact .of (by decide +kernel))
    | with_reducible apply_assumption -exfalso -symm
    | split
    | dsimp only

/-- What `resumePolling` may change. -/
theorem resumePolling_only (p : Port) (s : State) :
    Only [.out, .ctl] s (resumePolling p s) := by
  unfold resumePolling
  repeat' first
    | intro _
    | with_reducible assumption
    | with_reducible exact Only.refl _ _
    | with_reducible apply Only.ite
    | (with_reducible apply Only.step (eventIdxPolled_only ..); exact .of (by decide +kernel))
    | (with_reducible apply Only.step (State.updCon_only ..); exact .of (by decide +kernel))
    | with_reducible apply_assumption -exfalso -symm
    | split
    | dsimp only

/-- What `logErr` may change. -/
theorem logErr_only (p : Port) (sqid cid sct sc loc lba nsid : Nat) (s : State) :
    Only [.ctl] s (logErr p sqid cid sct sc loc lba nsid s) := by
  unfold logErr
  repeat' first
    | intro _
    | with_reducible assumption
    | with_reducible exact Only.refl _ _
    | (with_reducible apply Only.step (State.updCon_only ..); exact .of (by decide +kernel))
    | with_reducible apply_assumption -exfalso -symm
    | split
    | dsimp only

/-- What `badDoorbell` may change. -/
theorem badDoorbell_only (p : Port) (qid : Nat) (noQueue : Bool) (s : State) :
    Only [.out, .he, .ctl, .fs,
    .reg Reg.QE_CQFULL.COUNT] s (badDoorbell p qid noQueue s) := by
  unfold badDoorbell
  repeat' first
    | intro _
    | with_reducible assumption
    | with_reducible exact Only.refl _ _
    | (extract_lets +onlyGivenNames x; refine Only.cut x ?_ (fun _ => ?_); unfold x; clear x; rotate_left; clear_value x)
    | (extract_lets +onlyGivenNames x; refine Only.cut2 x ?_ (fun _ => ?_); unfold x; clear x; rotate_left; clear_value x)
    | (extract_lets +onlyGivenNames x; clear_value x)
    | with_reducible apply Only.ite
    | (with_reducible apply Only.step (logErr_only ..); exact .of (by decide +kernel))
    | (with_reducible apply Only.step (postEvent_only ..); exact .of (by decide +kernel))
    | with_reducible apply_assumption -exfalso -symm
    | split
    | dsimp only

/-- What `doorbellIn` may change. -/
theorem doorbellIn_only (p : Port) (poisoned : Bool) (s : State) :
    Only [.he, .reg Reg.HE_ERRSTAT.A_POISRX,
    .reg Reg.HE_ERRSTAT.B_POISRX] s (doorbellIn p poisoned s) := by
  unfold doorbellIn
  repeat' first
    | intro _
    | with_reducible assumption
    | with_reducible exact Only.refl _ _
    | (extract_lets +onlyGivenNames x; refine Only.cut x ?_ (fun _ => ?_); unfold x; clear x; rotate_left; clear_value x)
    | (extract_lets +onlyGivenNames x; refine Only.cut2 x ?_ (fun _ => ?_); unfold x; clear x; rotate_left; clear_value x)
    | (extract_lets +onlyGivenNames x; refine Only.cutF x ?_ (fun _ => ?_); unfold x; clear x; rotate_left; clear_value x)
    | (extract_lets +onlyGivenNames x; refine Only.cutG x ?_ (fun _ => ?_); unfold x; clear x; rotate_left; clear_value x)
    | (extract_lets +onlyGivenNames x; refine Only.cutG2 x ?_ (fun _ => ?_); unfold x; clear x; rotate_left; clear_value x)
    | (extract_lets +onlyGivenNames x; refine Only.cutG3 x ?_ (fun _ => ?_); unfold x; clear x; rotate_left; clear_value x)
    | (extract_lets +onlyGivenNames x; refine Only.cutH x ?_ (fun _ => ?_); unfold x; clear x; rotate_left; clear_value x)
    | (extract_lets +onlyGivenNames x; clear_value x)
    | (with_reducible apply Only.step (flagIf_port ..); exact .of (by decide +kernel))
    | (with_reducible apply Only.step (flagIf_only ..); exact .of (by decide +kernel))
    | (with_reducible apply Only.step (State.updPort_only ..); exact .of (by decide +kernel))
    | with_reducible apply_assumption -exfalso -symm
    | split
    | dsimp only

/-- What `sqTailDoorbellEff` may change. -/
theorem sqTailDoorbellEff_only (port : Port) (qid value : Nat) (poisoned : Bool) (s : State) :
    Only [.out, .gen, .he, .ctl,
    .sh, .fs, .mg, .fi, .prov, .reg Reg.HE_ERRSTAT.A_POISRX, .reg Reg.HE_ERRSTAT.B_POISRX, .reg Reg.QE_CQFULL.COUNT,
    .reg Reg.MG_LOGSTAT.DROPPED, .reg Reg.MG_ERR.LOGDROP, .reg Reg.FI_ARM.ARMED, .reg Reg.FI_ARM.DCAUSE, .reg Reg.FI_GF.EN,
    .reg Reg.FI_FL.EN, .reg Reg.FI_PCIE.EN] s (sqTailDoorbellEff port qid value poisoned s) := by
  unfold sqTailDoorbellEff
  repeat' first
    | intro _
    | with_reducible assumption
    | with_reducible exact Only.refl _ _
    | (extract_lets +onlyGivenNames x; refine Only.cut x ?_ (fun _ => ?_); unfold x; clear x; rotate_left; clear_value x)
    | (extract_lets +onlyGivenNames x; refine Only.cut2 x ?_ (fun _ => ?_); unfold x; clear x; rotate_left; clear_value x)
    | (extract_lets +onlyGivenNames x; refine Only.cutF x ?_ (fun _ => ?_); unfold x; clear x; rotate_left; clear_value x)
    | (extract_lets +onlyGivenNames x; refine Only.cutG x ?_ (fun _ => ?_); unfold x; clear x; rotate_left; clear_value x)
    | (extract_lets +onlyGivenNames x; refine Only.cutG2 x ?_ (fun _ => ?_); unfold x; clear x; rotate_left; clear_value x)
    | (extract_lets +onlyGivenNames x; refine Only.cutG3 x ?_ (fun _ => ?_); unfold x; clear x; rotate_left; clear_value x)
    | (extract_lets +onlyGivenNames x; refine Only.cutH x ?_ (fun _ => ?_); unfold x; clear x; rotate_left; clear_value x)
    | (extract_lets +onlyGivenNames x; clear_value x)
    | with_reducible apply Only.ite
    | (with_reducible apply Only.step (doorbellIn_only ..); exact .of (by decide +kernel))
    | (with_reducible apply Only.step (badDoorbell_only ..); exact .of (by decide +kernel))
    | (with_reducible apply Only.step (wakeDoorbell_only ..); exact .of (by decide +kernel))
    | (with_reducible apply Only.step (updSq_only ..); exact .of (by decide +kernel))
    | (with_reducible apply Only.step (resumePolling_only ..); exact .of (by decide +kernel))
    | with_reducible apply_assumption -exfalso -symm
    | split
    | dsimp only

/-- What `execSqTailDoorbell` may change. -/
theorem execSqTailDoorbell_only (port : Port) (qid value : Nat) (poisoned : Bool) (s : State) :
    ∃ t,
    execSqTailDoorbell port qid value poisoned s = .next t ∧ Only [.out, .gen, .he, .ctl, .sh, .fs, .mg, .fi, .prov,
    .reg Reg.HE_ERRSTAT.A_POISRX, .reg Reg.HE_ERRSTAT.B_POISRX, .reg Reg.QE_CQFULL.COUNT, .reg Reg.MG_LOGSTAT.DROPPED,
    .reg Reg.MG_ERR.LOGDROP, .reg Reg.FI_ARM.ARMED, .reg Reg.FI_ARM.DCAUSE, .reg Reg.FI_GF.EN, .reg Reg.FI_FL.EN,
    .reg Reg.FI_PCIE.EN] s t := by
  unfold execSqTailDoorbell
  refine ⟨_, rfl, ?_⟩
  repeat' first
    | intro _
    | with_reducible assumption
    | with_reducible exact Only.refl _ _
    | (with_reducible apply Only.step (sqTailDoorbellEff_only ..); exact .of (by decide +kernel))
    | with_reducible apply_assumption -exfalso -symm
    | split
    | dsimp only

/-- What `finishDeletes` may change. -/
theorem finishDeletes_only (p : Port) (s : State) :
    Only [.out, .he, .ctl, .fs,
    .reg Reg.QE_CQFULL.COUNT] s (finishDeletes p s) := by
  unfold finishDeletes
  repeat' first
    | intro _
    | with_reducible assumption
    | with_reducible exact Only.refl _ _
    | with_reducible apply Only.ite
    | (with_reducible apply Only.step (postCqe_only ..); exact .of (by decide +kernel))
    | (with_reducible apply Only.step (State.updCon_only ..); exact .of (by decide +kernel))
    | with_reducible refine Only.foldl (fun _ _ _ => ?_) ?_
    | with_reducible refine Only.foldl2 (fun _ _ _ => ?_) ?_
    | with_reducible apply_assumption -exfalso -symm
    | split
    | dsimp only

/-- What `cqHeadSeen` may change. -/
theorem cqHeadSeen_only (p : Port) (qid value : Nat) (s : State) :
    Only [.out, .he, .ctl, .fs, .reg Reg.QE_CQFULL.LAST,
    .reg Reg.QE_CQFULL.COUNT] s (cqHeadSeen p qid value s) := by
  unfold cqHeadSeen
  repeat' first
    | intro _
    | with_reducible assumption
    | with_reducible exact Only.refl _ _
    | (extract_lets +onlyGivenNames x; refine Only.cut x ?_ (fun _ => ?_); unfold x; clear x; rotate_left; clear_value x)
    | (extract_lets +onlyGivenNames x; refine Only.cut2 x ?_ (fun _ => ?_); unfold x; clear x; rotate_left; clear_value x)
    | (extract_lets +onlyGivenNames x; refine Only.cut3 x ?_ (fun _ => ?_); unfold x; clear x; rotate_left; clear_value x)
    | (extract_lets +onlyGivenNames x; refine Only.cutF x ?_ (fun _ => ?_); unfold x; clear x; rotate_left; clear_value x)
    | (extract_lets +onlyGivenNames x; refine Only.cutG x ?_ (fun _ => ?_); unfold x; clear x; rotate_left; clear_value x)
    | (extract_lets +onlyGivenNames x; refine Only.cutG2 x ?_ (fun _ => ?_); unfold x; clear x; rotate_left; clear_value x)
    | (extract_lets +onlyGivenNames x; refine Only.cutG3 x ?_ (fun _ => ?_); unfold x; clear x; rotate_left; clear_value x)
    | (extract_lets +onlyGivenNames x; refine Only.cutH x ?_ (fun _ => ?_); unfold x; clear x; rotate_left; clear_value x)
    | (extract_lets +onlyGivenNames x; clear_value x)
    | (with_reducible apply Only.step (updCq_only ..); exact .of (by decide +kernel))
    | (with_reducible apply Only.step (finishDeletes_only ..); exact .of (by decide +kernel))
    | (with_reducible apply Only.step (releaseHeldCqes_only ..); exact .of (by decide +kernel))
    | with_reducible refine Only.step (Only.of_eq2 ‹_› (releaseHeldCqes_only ..)) (.of (by decide +kernel)) ?_
    | with_reducible refine Only.step (Only.of_eq3 ‹_› (releaseHeldCqes_only ..)) (.of (by decide +kernel)) ?_
    | with_reducible apply_assumption -exfalso -symm
    | split
    | dsimp only

/-- What `cqHeadDoorbellEff` may change. -/
theorem cqHeadDoorbellEff_only (port : Port) (qid value : Nat) (poisoned : Bool) (s : State) :
    Only [.out, .gen, .he, .ctl,
    .sh, .fs, .mg, .fi, .prov, .reg Reg.HE_ERRSTAT.A_POISRX, .reg Reg.HE_ERRSTAT.B_POISRX, .reg Reg.QE_CQFULL.LAST,
    .reg Reg.QE_CQFULL.COUNT, .reg Reg.MG_LOGSTAT.DROPPED, .reg Reg.MG_ERR.LOGDROP, .reg Reg.FI_ARM.ARMED,
    .reg Reg.FI_ARM.DCAUSE, .reg Reg.FI_GF.EN, .reg Reg.FI_FL.EN,
    .reg Reg.FI_PCIE.EN] s (cqHeadDoorbellEff port qid value poisoned s) := by
  unfold cqHeadDoorbellEff
  repeat' first
    | intro _
    | with_reducible assumption
    | with_reducible exact Only.refl _ _
    | (extract_lets +onlyGivenNames x; refine Only.cut x ?_ (fun _ => ?_); unfold x; clear x; rotate_left; clear_value x)
    | (extract_lets +onlyGivenNames x; refine Only.cut2 x ?_ (fun _ => ?_); unfold x; clear x; rotate_left; clear_value x)
    | (extract_lets +onlyGivenNames x; refine Only.cutF x ?_ (fun _ => ?_); unfold x; clear x; rotate_left; clear_value x)
    | (extract_lets +onlyGivenNames x; refine Only.cutG x ?_ (fun _ => ?_); unfold x; clear x; rotate_left; clear_value x)
    | (extract_lets +onlyGivenNames x; refine Only.cutG2 x ?_ (fun _ => ?_); unfold x; clear x; rotate_left; clear_value x)
    | (extract_lets +onlyGivenNames x; refine Only.cutG3 x ?_ (fun _ => ?_); unfold x; clear x; rotate_left; clear_value x)
    | (extract_lets +onlyGivenNames x; refine Only.cutH x ?_ (fun _ => ?_); unfold x; clear x; rotate_left; clear_value x)
    | (extract_lets +onlyGivenNames x; clear_value x)
    | with_reducible apply Only.ite
    | (with_reducible apply Only.step (doorbellIn_only ..); exact .of (by decide +kernel))
    | (with_reducible apply Only.step (badDoorbell_only ..); exact .of (by decide +kernel))
    | (with_reducible apply Only.step (resumePolling_only ..); exact .of (by decide +kernel))
    | (with_reducible apply Only.step (cqHeadSeen_only ..); exact .of (by decide +kernel))
    | (with_reducible apply Only.step (wakeDoorbell_only ..); exact .of (by decide +kernel))
    | with_reducible apply_assumption -exfalso -symm
    | split
    | dsimp only

/-- What `execCqHeadDoorbell` may change. -/
theorem execCqHeadDoorbell_only (port : Port) (qid value : Nat) (poisoned : Bool) (s : State) :
    ∃ t,
    execCqHeadDoorbell port qid value poisoned s = .next t ∧ Only [.out, .gen, .he, .ctl, .sh, .fs, .mg, .fi, .prov,
    .reg Reg.HE_ERRSTAT.A_POISRX, .reg Reg.HE_ERRSTAT.B_POISRX, .reg Reg.QE_CQFULL.LAST, .reg Reg.QE_CQFULL.COUNT,
    .reg Reg.MG_LOGSTAT.DROPPED, .reg Reg.MG_ERR.LOGDROP, .reg Reg.FI_ARM.ARMED, .reg Reg.FI_ARM.DCAUSE, .reg Reg.FI_GF.EN,
    .reg Reg.FI_FL.EN, .reg Reg.FI_PCIE.EN] s t := by
  unfold execCqHeadDoorbell
  refine ⟨_, rfl, ?_⟩
  repeat' first
    | intro _
    | with_reducible assumption
    | with_reducible exact Only.refl _ _
    | (with_reducible apply Only.step (cqHeadDoorbellEff_only ..); exact .of (by decide +kernel))
    | with_reducible apply_assumption -exfalso -symm
    | split
    | dsimp only

/-- What `sqeGone` may change. -/
theorem sqeGone_only (p : Port) (sq : Nat) (s : State) :
    Only [.ctl] s (sqeGone p sq s) := by
  unfold sqeGone
  repeat' first
    | intro _
    | with_reducible assumption
    | with_reducible exact Only.refl _ _
    | (with_reducible apply Only.step (updSq_only ..); exact .of (by decide +kernel))
    | with_reducible apply_assumption -exfalso -symm
    | split
    | dsimp only

/-- What `sqeFailed` may change. -/
theorem sqeFailed_only (p : Port) (s : State) :
    Only [.ctl, .reg Reg.HE_ERRSTAT.A_SQEFAIL,
    .reg Reg.HE_ERRSTAT.B_SQEFAIL] s (sqeFailed p s) := by
  unfold sqeFailed
  repeat' first
    | intro _
    | with_reducible assumption
    | with_reducible exact Only.refl _ _
    | (with_reducible apply Only.step (flagOn_port ..); exact .of (by decide +kernel))
    | (with_reducible apply Only.step (flagOn_only ..); exact .of (by decide +kernel))
    | (with_reducible apply Only.step (State.updCon_only ..); exact .of (by decide +kernel))
    | with_reducible apply_assumption -exfalso -symm
    | split
    | dsimp only

/-- What `fetchFrom` may change. -/
theorem fetchFrom_only (p : Port) (q : Sq) (s : State) :
    Only [.out, .he, .ctl, .me, .reg Reg.HE_ERRSTAT.A_SQEFAIL,
    .reg Reg.HE_ERRSTAT.B_SQEFAIL, .reg Reg.ME_POISON.CONSUMED, .reg Reg.ME_LASTHI.KIND,
    .reg Reg.ME_ERR.POISON] s (fetchFrom p q s) := by
  unfold fetchFrom
  repeat' first
    | intro _
    | with_reducible assumption
    | with_reducible exact Only.refl _ _
    | (extract_lets +onlyGivenNames x; refine Only.cut x ?_ (fun _ => ?_); unfold x; clear x; rotate_left; clear_value x)
    | (extract_lets +onlyGivenNames x; refine Only.cut2 x ?_ (fun _ => ?_); unfold x; clear x; rotate_left; clear_value x)
    | (extract_lets +onlyGivenNames x; refine Only.cutF x ?_ (fun _ => ?_); unfold x; clear x; rotate_left; clear_value x)
    | (extract_lets +onlyGivenNames x; refine Only.cutG x ?_ (fun _ => ?_); unfold x; clear x; rotate_left; clear_value x)
    | (extract_lets +onlyGivenNames x; refine Only.cutG2 x ?_ (fun _ => ?_); unfold x; clear x; rotate_left; clear_value x)
    | (extract_lets +onlyGivenNames x; refine Only.cutG3 x ?_ (fun _ => ?_); unfold x; clear x; rotate_left; clear_value x)
    | (extract_lets +onlyGivenNames x; refine Only.cutH x ?_ (fun _ => ?_); unfold x; clear x; rotate_left; clear_value x)
    | (extract_lets +onlyGivenNames x; clear_value x)
    | with_reducible apply Only.ite
    | (with_reducible apply Only.step (updSq_only ..); exact .of (by decide +kernel))
    | (with_reducible apply Only.step (mergeDone_only ..); exact .of (by decide +kernel))
    | (with_reducible apply Only.step (sqeFailed_only ..); exact .of (by decide +kernel))
    | (with_reducible apply Only.step (poisonConsumed_only ..); exact .of (by decide +kernel))
    | (with_reducible apply Only.step (sqeGone_only ..); exact .of (by decide +kernel))
    | (with_reducible apply Only.step (issueFetch_only ..); exact .of (by decide +kernel))
    | with_reducible apply_assumption -exfalso -symm
    | split
    | dsimp only

/-- What `sqeFetchEff` may change. -/
theorem sqeFetchEff_only (port : Port) (s : State) :
    Only [.out, .he, .ctl, .me, .reg Reg.HE_ERRSTAT.A_SQEFAIL,
    .reg Reg.HE_ERRSTAT.B_SQEFAIL, .reg Reg.ME_POISON.CONSUMED, .reg Reg.ME_LASTHI.KIND,
    .reg Reg.ME_ERR.POISON] s (sqeFetchEff port s) := by
  unfold sqeFetchEff
  repeat' first
    | intro _
    | with_reducible assumption
    | with_reducible exact Only.refl _ _
    | (extract_lets +onlyGivenNames x; refine Only.cut x ?_ (fun _ => ?_); unfold x; clear x; rotate_left; clear_value x)
    | (extract_lets +onlyGivenNames x; refine Only.cut2 x ?_ (fun _ => ?_); unfold x; clear x; rotate_left; clear_value x)
    | (extract_lets +onlyGivenNames x; refine Only.cutF x ?_ (fun _ => ?_); unfold x; clear x; rotate_left; clear_value x)
    | (extract_lets +onlyGivenNames x; refine Only.cutG x ?_ (fun _ => ?_); unfold x; clear x; rotate_left; clear_value x)
    | (extract_lets +onlyGivenNames x; refine Only.cutG2 x ?_ (fun _ => ?_); unfold x; clear x; rotate_left; clear_value x)
    | (extract_lets +onlyGivenNames x; refine Only.cutG3 x ?_ (fun _ => ?_); unfold x; clear x; rotate_left; clear_value x)
    | (extract_lets +onlyGivenNames x; refine Only.cutH x ?_ (fun _ => ?_); unfold x; clear x; rotate_left; clear_value x)
    | (extract_lets +onlyGivenNames x; clear_value x)
    | with_reducible apply Only.ite
    | (with_reducible apply Only.step (fetchFrom_only ..); exact .of (by decide +kernel))
    | (with_reducible apply Only.step (State.updCon_only ..); exact .of (by decide +kernel))
    | with_reducible apply_assumption -exfalso -symm
    | split
    | dsimp only

/-- What `execSqeFetch` may change. -/
theorem execSqeFetch_only (port : Port) (s : State) :
    ∃ t, execSqeFetch port s = .next t ∧ Only [.out, .he, .ctl, .me,
    .reg Reg.HE_ERRSTAT.A_SQEFAIL, .reg Reg.HE_ERRSTAT.B_SQEFAIL, .reg Reg.ME_POISON.CONSUMED, .reg Reg.ME_LASTHI.KIND,
    .reg Reg.ME_ERR.POISON] s t := by
  unfold execSqeFetch
  refine ⟨_, rfl, ?_⟩
  repeat' first
    | intro _
    | with_reducible assumption
    | with_reducible exact Only.refl _ _
    | (with_reducible apply Only.step (sqeFetchEff_only ..); exact .of (by decide +kernel))
    | with_reducible apply_assumption -exfalso -symm
    | split
    | dsimp only

/-- What `sqeArrived` may change. -/
theorem sqeArrived_only (p : Port) (sq : Nat) (s : State) :
    Only [.he, .ctl] s (sqeArrived p sq s) := by
  unfold sqeArrived
  repeat' first
    | intro _
    | with_reducible assumption
    | with_reducible exact Only.refl _ _
    | (extract_lets +onlyGivenNames x; refine Only.cut x ?_ (fun _ => ?_); unfold x; clear x; rotate_left; clear_value x)
    | (extract_lets +onlyGivenNames x; refine Only.cut2 x ?_ (fun _ => ?_); unfold x; clear x; rotate_left; clear_value x)
    | (extract_lets +onlyGivenNames x; refine Only.cutF x ?_ (fun _ => ?_); unfold x; clear x; rotate_left; clear_value x)
    | (extract_lets +onlyGivenNames x; refine Only.cutG x ?_ (fun _ => ?_); unfold x; clear x; rotate_left; clear_value x)
    | (extract_lets +onlyGivenNames x; refine Only.cutG2 x ?_ (fun _ => ?_); unfold x; clear x; rotate_left; clear_value x)
    | (extract_lets +onlyGivenNames x; refine Only.cutG3 x ?_ (fun _ => ?_); unfold x; clear x; rotate_left; clear_value x)
    | (extract_lets +onlyGivenNames x; refine Only.cutH x ?_ (fun _ => ?_); unfold x; clear x; rotate_left; clear_value x)
    | (extract_lets +onlyGivenNames x; clear_value x)
    | (with_reducible apply Only.step (sqeGone_only ..); exact .of (by decide +kernel))
    | (with_reducible apply Only.step (State.updPort_only ..); exact .of (by decide +kernel))
    | with_reducible apply_assumption -exfalso -symm
    | split
    | dsimp only

/-- What `pollIssue` may change. -/
theorem pollIssue_only (p : Port) (s : State) :
    Only [.out, .he, .ctl] s (pollIssue p s) := by
  unfold pollIssue
  repeat' first
    | intro _
    | with_reducible assumption
    | with_reducible exact Only.refl _ _
    | (with_reducible apply Only.step (issueFetch_only ..); exact .of (by decide +kernel))
    | (with_reducible apply Only.step (State.updCon_only ..); exact .of (by decide +kernel))
    | with_reducible refine Only.foldl (fun _ _ _ => ?_) ?_
    | with_reducible refine Only.foldl2 (fun _ _ _ => ?_) ?_
    | with_reducible apply_assumption -exfalso -symm
    | split
    | dsimp only

/-- What `pollRoundEff` may change. -/
theorem pollRoundEff_only (port : Port) (s : State) :
    Only [.out, .he, .ctl] s (pollRoundEff port s) := by
  unfold pollRoundEff
  repeat' first
    | intro _
    | with_reducible assumption
    | with_reducible exact Only.refl _ _
    | (extract_lets +onlyGivenNames x; refine Only.cut x ?_ (fun _ => ?_); unfold x; clear x; rotate_left; clear_value x)
    | (extract_lets +onlyGivenNames x; refine Only.cut2 x ?_ (fun _ => ?_); unfold x; clear x; rotate_left; clear_value x)
    | (extract_lets +onlyGivenNames x; clear_value x)
    | with_reducible apply Only.ite
    | (with_reducible apply Only.step (pollIssue_only ..); exact .of (by decide +kernel))
    | with_reducible apply_assumption -exfalso -symm
    | split
    | dsimp only

/-- What `execPollRound` may change. -/
theorem execPollRound_only (port : Port) (s : State) :
    ∃ t, execPollRound port s = .next t ∧ Only [.out, .he,
    .ctl] s t := by
  unfold execPollRound
  refine ⟨_, rfl, ?_⟩
  repeat' first
    | intro _
    | with_reducible assumption
    | with_reducible exact Only.refl _ _
    | (with_reducible apply Only.step (pollRoundEff_only ..); exact .of (by decide +kernel))
    | with_reducible apply_assumption -exfalso -symm
    | split
    | dsimp only

/-- What `shadowTail` may change. -/
theorem shadowTail_only (p : Port) (x : Nat × Nat) (s : State) :
    Only [.out, .gen, .he, .ctl, .sh, .fs, .mg, .fi, .prov,
    .reg Reg.QE_CQFULL.COUNT, .reg Reg.MG_LOGSTAT.DROPPED, .reg Reg.MG_ERR.LOGDROP, .reg Reg.FI_ARM.ARMED,
    .reg Reg.FI_ARM.DCAUSE, .reg Reg.FI_GF.EN, .reg Reg.FI_FL.EN, .reg Reg.FI_PCIE.EN] s (shadowTail p x s) := by
  unfold shadowTail
  repeat' first
    | intro _
    | with_reducible assumption
    | with_reducible exact Only.refl _ _
    | (extract_lets +onlyGivenNames x; refine Only.cut x ?_ (fun _ => ?_); unfold x; clear x; rotate_left; clear_value x)
    | (extract_lets +onlyGivenNames x; refine Only.cut2 x ?_ (fun _ => ?_); unfold x; clear x; rotate_left; clear_value x)
    | (extract_lets +onlyGivenNames x; refine Only.cutF x ?_ (fun _ => ?_); unfold x; clear x; rotate_left; clear_value x)
    | (extract_lets +onlyGivenNames x; refine Only.cutG x ?_ (fun _ => ?_); unfold x; clear x; rotate_left; clear_value x)
    | (extract_lets +onlyGivenNames x; refine Only.cutP x ?_ (fun _ => ?_); unfold x; clear x; rotate_left; clear_value x)
    | (extract_lets +onlyGivenNames x; refine Only.cutG2 x ?_ (fun _ => ?_); unfold x; clear x; rotate_left; clear_value x)
    | (extract_lets +onlyGivenNames x; refine Only.cutG3 x ?_ (fun _ => ?_); unfold x; clear x; rotate_left; clear_value x)
    | (extract_lets +onlyGivenNames x; refine Only.cutH x ?_ (fun _ => ?_); unfold x; clear x; rotate_left; clear_value x)
    | (extract_lets +onlyGivenNames x; clear_value x)
    | with_reducible apply Only.ite
    | (with_reducible apply Only.step (wakeDoorbell_only ..); exact .of (by decide +kernel))
    | (with_reducible apply Only.step (updSq_only ..); exact .of (by decide +kernel))
    | with_reducible apply_assumption -exfalso -symm
    | split
    | dsimp only

/-- What `shadowHead` may change. -/
theorem shadowHead_only (p : Port) (x : Nat × Nat) (s : State) :
    Only [.out, .he, .ctl, .fs, .reg Reg.QE_CQFULL.LAST,
    .reg Reg.QE_CQFULL.COUNT] s (shadowHead p x s) := by
  unfold shadowHead
  repeat' first
    | intro _
    | with_reducible assumption
    | with_reducible exact Only.refl _ _
    | with_reducible apply Only.ite
    | (with_reducible apply Only.step (cqHeadSeen_only ..); exact .of (by decide +kernel))
    | with_reducible apply_assumption -exfalso -symm
    | split
    | dsimp only

/-- What `pollReturned` may change. -/
theorem pollReturned_only (p : Port) (s : State) :
    Only [.he, .ctl] s (pollReturned p s) := by
  unfold pollReturned
  repeat' first
    | intro _
    | with_reducible assumption
    | with_reducible exact Only.refl _ _
    | (extract_lets +onlyGivenNames x; refine Only.cut x ?_ (fun _ => ?_); unfold x; clear x; rotate_left; clear_value x)
    | (extract_lets +onlyGivenNames x; refine Only.cut2 x ?_ (fun _ => ?_); unfold x; clear x; rotate_left; clear_value x)
    | (extract_lets +onlyGivenNames x; refine Only.cutF x ?_ (fun _ => ?_); unfold x; clear x; rotate_left; clear_value x)
    | (extract_lets +onlyGivenNames x; refine Only.cutG x ?_ (fun _ => ?_); unfold x; clear x; rotate_left; clear_value x)
    | (extract_lets +onlyGivenNames x; refine Only.cutG2 x ?_ (fun _ => ?_); unfold x; clear x; rotate_left; clear_value x)
    | (extract_lets +onlyGivenNames x; refine Only.cutG3 x ?_ (fun _ => ?_); unfold x; clear x; rotate_left; clear_value x)
    | (extract_lets +onlyGivenNames x; refine Only.cutH x ?_ (fun _ => ?_); unfold x; clear x; rotate_left; clear_value x)
    | (extract_lets +onlyGivenNames x; clear_value x)
    | (with_reducible apply Only.step (State.updCon_only ..); exact .of (by decide +kernel))
    | (with_reducible apply Only.step (State.updPort_only ..); exact .of (by decide +kernel))
    | with_reducible apply_assumption -exfalso -symm
    | split
    | dsimp only

/-- What `pollCompletionEff` may change. -/
theorem pollCompletionEff_only (port : Port) (tails heads : List (Nat × Nat)) (s : State) :
    Only [.out, .gen, .he, .ctl,
    .sh, .fs, .mg, .fi, .prov, .reg Reg.QE_CQFULL.LAST, .reg Reg.QE_CQFULL.COUNT, .reg Reg.MG_LOGSTAT.DROPPED,
    .reg Reg.MG_ERR.LOGDROP, .reg Reg.FI_ARM.ARMED, .reg Reg.FI_ARM.DCAUSE, .reg Reg.FI_GF.EN, .reg Reg.FI_FL.EN,
    .reg Reg.FI_PCIE.EN] s (pollCompletionEff port tails heads s) := by
  unfold pollCompletionEff
  repeat' first
    | intro _
    | with_reducible assumption
    | with_reducible exact Only.refl _ _
    | (extract_lets +onlyGivenNames x; refine Only.cut x ?_ (fun _ => ?_); unfold x; clear x; rotate_left; clear_value x)
    | (extract_lets +onlyGivenNames x; refine Only.cut2 x ?_ (fun _ => ?_); unfold x; clear x; rotate_left; clear_value x)
    | (extract_lets +onlyGivenNames x; refine Only.cutF x ?_ (fun _ => ?_); unfold x; clear x; rotate_left; clear_value x)
    | (extract_lets +onlyGivenNames x; refine Only.cutG x ?_ (fun _ => ?_); unfold x; clear x; rotate_left; clear_value x)
    | (extract_lets +onlyGivenNames x; refine Only.cutG2 x ?_ (fun _ => ?_); unfold x; clear x; rotate_left; clear_value x)
    | (extract_lets +onlyGivenNames x; refine Only.cutG3 x ?_ (fun _ => ?_); unfold x; clear x; rotate_left; clear_value x)
    | (extract_lets +onlyGivenNames x; refine Only.cutH x ?_ (fun _ => ?_); unfold x; clear x; rotate_left; clear_value x)
    | (extract_lets +onlyGivenNames x; clear_value x)
    | with_reducible apply Only.ite
    | (with_reducible apply Only.step (pollReturned_only ..); exact .of (by decide +kernel))
    | (with_reducible apply Only.step (shadowTail_only ..); exact .of (by decide +kernel))
    | (with_reducible apply Only.step (shadowHead_only ..); exact .of (by decide +kernel))
    | (with_reducible apply Only.step (State.updCon_only ..); exact .of (by decide +kernel))
    | (with_reducible apply Only.step (eventIdxPolled_only ..); exact .of (by decide +kernel))
    | with_reducible refine Only.foldl (fun _ _ _ => ?_) ?_
    | with_reducible refine Only.foldl2 (fun _ _ _ => ?_) ?_
    | with_reducible apply_assumption -exfalso -symm
    | split
    | dsimp only

/-- What `execPollCompletion` may change. -/
theorem execPollCompletion_only (port : Port) (tails heads : List (Nat × Nat)) (s : State) :
    ∃ t,
    execPollCompletion port tails heads s = .next t ∧ Only [.out, .gen, .he, .ctl, .sh, .fs, .mg, .fi, .prov,
    .reg Reg.QE_CQFULL.LAST, .reg Reg.QE_CQFULL.COUNT, .reg Reg.MG_LOGSTAT.DROPPED, .reg Reg.MG_ERR.LOGDROP,
    .reg Reg.FI_ARM.ARMED, .reg Reg.FI_ARM.DCAUSE, .reg Reg.FI_GF.EN, .reg Reg.FI_FL.EN, .reg Reg.FI_PCIE.EN] s t := by
  unfold execPollCompletion
  refine ⟨_, rfl, ?_⟩
  repeat' first
    | intro _
    | with_reducible assumption
    | with_reducible exact Only.refl _ _
    | (with_reducible apply Only.step (pollCompletionEff_only ..); exact .of (by decide +kernel))
    | with_reducible apply_assumption -exfalso -symm
    | split
    | dsimp only

/-- What `eventIdxStopped` may change. -/
theorem eventIdxStopped_only (p : Port) (s : State) :
    Only [.out, .ctl] s (eventIdxStopped p s) := by
  unfold eventIdxStopped
  repeat' first
    | intro _
    | with_reducible assumption
    | with_reducible exact Only.refl _ _
    | (extract_lets +onlyGivenNames x; refine Only.cut x ?_ (fun _ => ?_); unfold x; clear x; rotate_left; clear_value x)
    | (extract_lets +onlyGivenNames x; refine Only.cut2 x ?_ (fun _ => ?_); unfold x; clear x; rotate_left; clear_value x)
    | (extract_lets +onlyGivenNames x; refine Only.cutF x ?_ (fun _ => ?_); unfold x; clear x; rotate_left; clear_value x)
    | (extract_lets +onlyGivenNames x; refine Only.cutG x ?_ (fun _ => ?_); unfold x; clear x; rotate_left; clear_value x)
    | (extract_lets +onlyGivenNames x; refine Only.cutG2 x ?_ (fun _ => ?_); unfold x; clear x; rotate_left; clear_value x)
    | (extract_lets +onlyGivenNames x; refine Only.cutG3 x ?_ (fun _ => ?_); unfold x; clear x; rotate_left; clear_value x)
    | (extract_lets +onlyGivenNames x; refine Only.cutH x ?_ (fun _ => ?_); unfold x; clear x; rotate_left; clear_value x)
    | (extract_lets +onlyGivenNames x; clear_value x)
    | (with_reducible apply Only.step (putEventIdx_only ..); exact .of (by decide +kernel))
    | with_reducible refine Only.foldl (fun _ _ _ => ?_) ?_
    | with_reducible refine Only.foldl2 (fun _ _ _ => ?_) ?_
    | with_reducible apply_assumption -exfalso -symm
    | split
    | dsimp only

/-- What `stopPolling` may change. -/
theorem stopPolling_only (p : Port) (s : State) :
    Only [.out, .he, .ctl] s (stopPolling p s) := by
  unfold stopPolling
  repeat' first
    | intro _
    | with_reducible assumption
    | with_reducible exact Only.refl _ _
    | with_reducible apply Only.ite
    | (with_reducible apply Only.step (pollIssue_only ..); exact .of (by decide +kernel))
    | (with_reducible apply Only.step (eventIdxStopped_only ..); exact .of (by decide +kernel))
    | (with_reducible apply Only.step (pollReturned_only ..); exact .of (by decide +kernel))
    | (with_reducible apply Only.step (State.updCon_only ..); exact .of (by decide +kernel))
    | with_reducible apply_assumption -exfalso -symm
    | split
    | dsimp only

/-- What `pollStopEff` may change. -/
theorem pollStopEff_only (port : Port) (idleUs : Nat) (finalTails : List (Nat × Nat)) (s : State) :
    Only [.out, .gen, .he,
    .ctl, .sh, .fs, .mg, .fi, .prov, .reg Reg.QE_CQFULL.LAST, .reg Reg.QE_CQFULL.COUNT, .reg Reg.MG_LOGSTAT.DROPPED,
    .reg Reg.MG_ERR.LOGDROP, .reg Reg.FI_ARM.ARMED, .reg Reg.FI_ARM.DCAUSE, .reg Reg.FI_GF.EN, .reg Reg.FI_FL.EN,
    .reg Reg.FI_PCIE.EN] s (pollStopEff port idleUs finalTails s) := by
  unfold pollStopEff
  repeat' first
    | intro _
    | with_reducible assumption
    | with_reducible exact Only.refl _ _
    | (extract_lets +onlyGivenNames x; refine Only.cut x ?_ (fun _ => ?_); unfold x; clear x; rotate_left; clear_value x)
    | (extract_lets +onlyGivenNames x; refine Only.cut2 x ?_ (fun _ => ?_); unfold x; clear x; rotate_left; clear_value x)
    | (extract_lets +onlyGivenNames x; clear_value x)
    | with_reducible apply Only.ite
    | (with_reducible apply Only.step (pollCompletionEff_only ..); exact .of (by decide +kernel))
    | (with_reducible apply Only.step (stopPolling_only ..); exact .of (by decide +kernel))
    | with_reducible apply_assumption -exfalso -symm
    | split
    | dsimp only

/-- What `execPollStop` may change. -/
theorem execPollStop_only (port : Port) (idleUs : Nat) (finalTails : List (Nat × Nat)) (s : State) :
    ∃ t,
    execPollStop port idleUs finalTails s = .next t ∧ Only [.out, .gen, .he, .ctl, .sh, .fs, .mg, .fi, .prov,
    .reg Reg.QE_CQFULL.LAST, .reg Reg.QE_CQFULL.COUNT, .reg Reg.MG_LOGSTAT.DROPPED, .reg Reg.MG_ERR.LOGDROP,
    .reg Reg.FI_ARM.ARMED, .reg Reg.FI_ARM.DCAUSE, .reg Reg.FI_GF.EN, .reg Reg.FI_FL.EN, .reg Reg.FI_PCIE.EN] s t := by
  unfold execPollStop
  refine ⟨_, rfl, ?_⟩
  repeat' first
    | intro _
    | with_reducible assumption
    | with_reducible exact Only.refl _ _
    | (with_reducible apply Only.step (pollStopEff_only ..); exact .of (by decide +kernel))
    | with_reducible apply_assumption -exfalso -symm
    | split
    | dsimp only

/-- What `execInterruptCoalescingTimeout` may change. -/
theorem execInterruptCoalescingTimeout_only (port : Port) (vector : Nat) (s : State) :
    ∃ t,
    execInterruptCoalescingTimeout port vector s = .next t ∧ Only [.out, .he, .ctl] s t := by
  unfold execInterruptCoalescingTimeout
  refine ⟨_, rfl, ?_⟩
  repeat' first
    | intro _
    | with_reducible assumption
    | with_reducible exact Only.refl _ _
    | with_reducible apply Only.ite
    | (with_reducible apply Only.step (msix_only ..); exact .of (by decide +kernel))
    | (with_reducible apply Only.step (State.updCon_only ..); exact .of (by decide +kernel))
    | with_reducible apply_assumption -exfalso -symm
    | split
    | dsimp only

end Sys2Proof.Machine
end

