-- ==== Sys2Proof/Laws/FrameOperands.lean ====
section
/-! SUPPORT. What each operation of Machine/Operands.lean may change, as `Only` states it: one lemma an operation, which later proofs cite
instead of unfolding it. -/
namespace Sys2Proof.Machine
set_option Elab.async false
set_option linter.all false

/-- What `cmbPut` may change. -/
theorem cmbPut_only (p : Port) (parts : List (Nat × Nat × Nat)) (pos : Nat) (bs : List Byte) (ep : Bool) (s : State) :
    Only [.he,
    .me, .reg Reg.ME_MERGE.EVICT] s (cmbPut p parts pos bs ep s) := by
  unfold cmbPut
  repeat' first
    | intro _
    | with_reducible assumption
    | with_reducible exact Only.refl _ _
    | (extract_lets +onlyGivenNames x; refine Only.cut x ?_ (fun _ => ?_); unfold x; clear x; rotate_left; clear_value x)
    | (extract_lets +onlyGivenNames x; refine Only.cut2 x ?_ (fun _ => ?_); unfold x; clear x; rotate_left; clear_value x)
    | (extract_lets +onlyGivenNames x; refine Only.cut3 x ?_ (fun _ => ?_); unfold x; clear x; rotate_left; clear_value x)
    | (extract_lets +onlyGivenNames x; refine Only.cutF x ?_ (fun _ => ?_); unfold x; clear x; rotate_left; clear_value x)
    | (extract_lets +onlyGivenNames x; refine Only.cutG x ?_ (fun _ => ?_); unfold x; clear x; rotate_left; clear_value x)
    | (extract_lets +onlyGivenNames x; refine Only.cutP x ?_ (fun _ => ?_); unfold x; clear x; rotate_left; clear_value x)
    | (extract_lets +onlyGivenNames x; refine Only.cutG2 x ?_ (fun _ => ?_); unfold x; clear x; rotate_left; clear_value x)
    | (extract_lets +onlyGivenNames x; refine Only.cutG3 x ?_ (fun _ => ?_); unfold x; clear x; rotate_left; clear_value x)
    | (extract_lets +onlyGivenNames x; refine Only.cutH x ?_ (fun _ => ?_); unfold x; clear x; rotate_left; clear_value x)
    | (extract_lets +onlyGivenNames x; clear_value x)
    | with_reducible apply Only.ite
    | (with_reducible apply Only.step (linesWrite_only ..); exact .of (by decide +kernel))
    | with_reducible refine Only.step (Only.of_eq2 ‹_› (linesWrite_only ..)) (.of (by decide +kernel)) ?_
    | with_reducible refine Only.step (Only.of_eq3 ‹_› (linesWrite_only ..)) (.of (by decide +kernel)) ?_
    | (with_reducible apply Only.step (State.updPort_only ..); exact .of (by decide +kernel))
    | with_reducible refine Only.foldl (fun _ _ _ => ?_) ?_
    | with_reducible refine Only.foldl2 (fun _ _ _ => ?_) ?_
    | with_reducible apply_assumption -exfalso -symm
    | split
    | dsimp only

/-- What `adminDone` may change. -/
theorem adminDone_only (h : AdminHdr) (sct sc dw0 dw1 : Nat) (s : State) :
    Only [.out, .he, .ctl, .fs,
    .reg Reg.QE_CQFULL.COUNT] s (adminDone h sct sc dw0 dw1 s) := by
  unfold adminDone
  repeat' first
    | intro _
    | with_reducible assumption
    | with_reducible exact Only.refl _ _
    | with_reducible apply Only.ite
    | (with_reducible apply Only.step (emit_only ..); exact .of (by decide +kernel))
    | (with_reducible apply Only.step (postCqe_only ..); exact .of (by decide +kernel))
    | with_reducible apply_assumption -exfalso -symm
    | split
    | dsimp only

/-- What `dataOut` may change. -/
theorem dataOut_only (p : Port) (cid : BitVec 16) (pieces : List (Nat × Nat)) (bytes : List Nat) (s : State) :
    Only [.out,
    .he, .me, .reg Reg.ME_MERGE.EVICT] s (dataOut p cid pieces bytes s) := by
  unfold dataOut
  repeat' first
    | intro _
    | with_reducible assumption
    | with_reducible exact Only.refl _ _
    | (extract_lets +onlyGivenNames x; refine Only.cut x ?_ (fun _ => ?_); unfold x; clear x; rotate_left; clear_value x)
    | (extract_lets +onlyGivenNames x; refine Only.cut2 x ?_ (fun _ => ?_); unfold x; clear x; rotate_left; clear_value x)
    | (extract_lets +onlyGivenNames x; clear_value x)
    | (with_reducible apply Only.step (cmbPut_only ..); exact .of (by decide +kernel))
    | (with_reducible apply Only.step (emits_only ..); exact .of (by decide +kernel))
    | with_reducible apply_assumption -exfalso -symm
    | split
    | dsimp only

/-- What `adminData` may change. -/
theorem adminData_only (h : AdminHdr) (bytes : List Nat) (s : State) :
    Only [.out, .he, .me,
    .reg Reg.ME_MERGE.EVICT] s (adminData h bytes s) := by
  unfold adminData
  repeat' first
    | intro _
    | with_reducible assumption
    | with_reducible exact Only.refl _ _
    | with_reducible apply Only.ite
    | (with_reducible apply Only.step (emit_only ..); exact .of (by decide +kernel))
    | (with_reducible apply Only.step (dataOut_only ..); exact .of (by decide +kernel))
    | with_reducible apply_assumption -exfalso -symm
    | split
    | dsimp only

/-- What `adminOk` may change. -/
theorem adminOk_only (h : AdminHdr) (s : State) :
    Only [.out, .he, .ctl, .fs,
    .reg Reg.QE_CQFULL.COUNT] s (adminOk h s) := by
  unfold adminOk
  repeat' first
    | intro _
    | with_reducible assumption
    | with_reducible exact Only.refl _ _
    | (with_reducible apply Only.step (adminDone_only ..); exact .of (by decide +kernel))
    | with_reducible apply_assumption -exfalso -symm
    | split
    | dsimp only

/-- What `adminFail` may change. -/
theorem adminFail_only (h : AdminHdr) (sct sc : Nat) (s : State) :
    Only [.out, .he, .ctl, .fs,
    .reg Reg.QE_CQFULL.COUNT] s (adminFail h sct sc s) := by
  unfold adminFail
  repeat' first
    | intro _
    | with_reducible assumption
    | with_reducible exact Only.refl _ _
    | (with_reducible apply Only.step (adminDone_only ..); exact .of (by decide +kernel))
    | with_reducible apply_assumption -exfalso -symm
    | split
    | dsimp only

/-- What `adminCmd` may change. -/
theorem adminCmd_keep {w : List Fld} {r : State} {h : AdminHdr} {modes : Mode → Bool} {len : Nat} {body : State → State} {s : State}
    (hSub : Within [.out,
    .gen, .he, .ctl, .sh, .fs, .mg, .fi, .prov, .reg Reg.QE_CQFULL.COUNT, .reg Reg.MG_LOGSTAT.DROPPED, .reg Reg.MG_ERR.LOGDROP,
    .reg Reg.FI_ARM.ARMED, .reg Reg.FI_ARM.DCAUSE, .reg Reg.FI_GF.EN, .reg Reg.FI_FL.EN,
    .reg Reg.FI_PCIE.EN] w)
    (hBody : ∀ u,
    Only w r u → Only w r (body u)) (hOnly : Only w r s) : Only w r (adminCmd h modes len body s) := by
  unfold adminCmd
  repeat' first
    | intro _
    | with_reducible assumption
    | with_reducible exact Only.refl _ _
    | (extract_lets +onlyGivenNames x; refine Only.cut x ?_ (fun _ => ?_); unfold x; clear x; rotate_left; clear_value x)
    | (extract_lets +onlyGivenNames x; refine Only.cut2 x ?_ (fun _ => ?_); unfold x; clear x; rotate_left; clear_value x)
    | (extract_lets +onlyGivenNames x; clear_value x)
    | with_reducible apply Only.ite
    | (with_reducible apply Only.step (wake_only ..); exact .trans (.of (by decide +kernel)) hSub)
    | (with_reducible apply Only.step (sqeArrived_only ..); exact .trans (.of (by decide +kernel)) hSub)
    | (with_reducible apply Only.step (adminFail_only ..); exact .trans (.of (by decide +kernel)) hSub)
    | with_reducible apply_assumption -exfalso -symm
    | split
    | dsimp only

end Sys2Proof.Machine
end

