-- ==== Sys2Proof/Laws/FrameAdmin.lean ====
section
/-! SUPPORT. What each operation of Machine/Admin.lean may change, as `Only` states it: one lemma an operation, which later proofs cite
instead of unfolding it. -/
namespace Sys2Proof.Machine
set_option Elab.async false
set_option linter.all false

/-- What `withData` may change. -/
theorem withData_keep {w : List Fld} {r : State} {h : AdminHdr} {len : Nat} {body : State → State} {s : State}
    (hSub : Within [.out,
    .he, .ctl, .fs, .reg Reg.QE_CQFULL.COUNT] w)
    (hBody : ∀ u,
    Only w r u → Only w r (body u)) (hOnly : Only w r s) : Only w r (withData h len body s) := by
  unfold withData
  repeat' first
    | intro _
    | with_reducible assumption
    | with_reducible exact Only.refl _ _
    | with_reducible apply Only.ite
    | (with_reducible apply Only.step (adminFail_only ..); exact .trans (.of (by decide +kernel)) hSub)
    | with_reducible apply_assumption -exfalso -symm
    | split
    | dsimp only

/-- What `adminPage` may change. -/
theorem adminPage_only (h : AdminHdr) (pg : Page) (off len : Nat) (s : State) :
    Only [.out, .he, .ctl, .fs, .me,
    .reg Reg.QE_CQFULL.COUNT, .reg Reg.ME_MERGE.EVICT] s (adminPage h pg off len s) := by
  unfold adminPage
  repeat' first
    | intro _
    | with_reducible assumption
    | with_reducible exact Only.refl _ _
    | (with_reducible apply withData_keep; exact .of (by decide +kernel))
    | (with_reducible apply Only.step (adminOk_only ..); exact .of (by decide +kernel))
    | (with_reducible apply Only.step (adminData_only ..); exact .of (by decide +kernel))
    | with_reducible apply_assumption -exfalso -symm
    | split
    | dsimp only

/-- What `deleteIoSqBody` may change. -/
theorem deleteIoSqBody_only (h : AdminHdr) (qid : Nat) (s : State) :
    Only [.out, .he, .ctl, .fs,
    .reg Reg.QE_CQFULL.COUNT] s (deleteIoSqBody h qid s) := by
  unfold deleteIoSqBody
  repeat' first
    | intro _
    | with_reducible assumption
    | with_reducible exact Only.refl _ _
    | with_reducible apply Only.ite
    | (with_reducible apply Only.step (adminFail_only ..); exact .of (by decide +kernel))
    | (with_reducible apply Only.step (finishDeletes_only ..); exact .of (by decide +kernel))
    | (with_reducible apply Only.step (updSq_only ..); exact .of (by decide +kernel))
    | with_reducible apply_assumption -exfalso -symm
    | split
    | dsimp only

/-- What `execDeleteIoSq` may change. -/
theorem execDeleteIoSq_only (h : AdminHdr) (qid : Nat) (s : State) :
    ∃ t, execDeleteIoSq h qid s = .next t ∧ Only [.out,
    .gen, .he, .ctl, .sh, .fs, .mg, .fi, .prov, .reg Reg.QE_CQFULL.COUNT, .reg Reg.MG_LOGSTAT.DROPPED, .reg Reg.MG_ERR.LOGDROP,
    .reg Reg.FI_ARM.ARMED, .reg Reg.FI_ARM.DCAUSE, .reg Reg.FI_GF.EN, .reg Reg.FI_FL.EN, .reg Reg.FI_PCIE.EN] s t := by
  unfold execDeleteIoSq
  refine ⟨_, rfl, ?_⟩
  repeat' first
    | intro _
    | with_reducible assumption
    | with_reducible exact Only.refl _ _
    | (with_reducible apply adminCmd_keep; exact .of (by decide +kernel))
    | (with_reducible apply Only.step (deleteIoSqBody_only ..); exact .of (by decide +kernel))
    | with_reducible apply_assumption -exfalso -symm
    | split
    | dsimp only

/-- What `createIoSqBody` may change. -/
theorem createIoSqBody_only (h : AdminHdr) (qid size cqid qprio base : Nat) (contiguous : Bool) (s : State) :
    Only [.out,
    .he, .ctl, .fs, .reg Reg.QE_CQFULL.COUNT] s (createIoSqBody h qid size cqid qprio base contiguous s) := by
  unfold createIoSqBody
  repeat' first
    | intro _
    | with_reducible assumption
    | with_reducible exact Only.refl _ _
    | (extract_lets +onlyGivenNames x; refine Only.cut x ?_ (fun _ => ?_); unfold x; clear x; rotate_left; clear_value x)
    | (extract_lets +onlyGivenNames x; refine Only.cut2 x ?_ (fun _ => ?_); unfold x; clear x; rotate_left; clear_value x)
    | (extract_lets +onlyGivenNames x; refine Only.cutF x ?_ (fun _ => ?_); unfold x; clear x; rotate_left; clear_value x)
    | (extract_lets +onlyGivenNames x; refine Only.cutG x ?_ (fun _ => ?_); unfold x; clear x; rotate_left; clear_value x)
    | (extract_lets +onlyGivenNames x; refine Only.cutG2 x ?_ (fun _ => ?_); unfold x; clear x; rotate_left; clear_value x)
    | (extract_lets +onlyGivenNames x; refine Only.cutG3 x ?_ (fun _ => ?_); unfold x; clear x; rotate_left; clear_value x)
    | (extract_lets +onlyGivenNames x; refine Only.cutH x ?_ (fun _ => ?_); unfold x; clear x; rotate_left; clear_value x)
    | (extract_lets +onlyGivenNames x; clear_value x)
    | (with_reducible apply Only.step (adminFail_only ..); exact .of (by decide +kernel))
    | (with_reducible apply Only.step (adminOk_only ..); exact .of (by decide +kernel))
    | (with_reducible apply Only.step (eventIdxNew_only ..); exact .of (by decide +kernel))
    | (with_reducible apply Only.step (State.updCon_only ..); exact .of (by decide +kernel))
    | with_reducible apply_assumption -exfalso -symm
    | split
    | dsimp only

/-- What `execCreateIoSq` may change. -/
theorem execCreateIoSq_only (h : AdminHdr) (qid size cqid qprio : Nat) (base : Nat) (contiguous : Bool) (s : State) :
    ∃ t,
    execCreateIoSq h qid size cqid qprio base contiguous s = .next t ∧ Only [.out, .gen, .he, .ctl, .sh, .fs, .mg, .fi, .prov,
    .reg Reg.QE_CQFULL.COUNT, .reg Reg.MG_LOGSTAT.DROPPED, .reg Reg.MG_ERR.LOGDROP, .reg Reg.FI_ARM.ARMED,
    .reg Reg.FI_ARM.DCAUSE, .reg Reg.FI_GF.EN, .reg Reg.FI_FL.EN, .reg Reg.FI_PCIE.EN] s t := by
  unfold execCreateIoSq
  refine ⟨_, rfl, ?_⟩
  repeat' first
    | intro _
    | with_reducible assumption
    | with_reducible exact Only.refl _ _
    | (with_reducible apply adminCmd_keep; exact .of (by decide +kernel))
    | (with_reducible apply Only.step (createIoSqBody_only ..); exact .of (by decide +kernel))
    | with_reducible apply_assumption -exfalso -symm
    | split
    | dsimp only

/-- What `deleteIoCqBody` may change. -/
theorem deleteIoCqBody_only (h : AdminHdr) (qid : Nat) (s : State) :
    Only [.out, .he, .ctl, .fs,
    .reg Reg.QE_CQFULL.COUNT] s (deleteIoCqBody h qid s) := by
  unfold deleteIoCqBody
  repeat' first
    | intro _
    | with_reducible assumption
    | with_reducible exact Only.refl _ _
    | (extract_lets +onlyGivenNames x; refine Only.cut x ?_ (fun _ => ?_); unfold x; clear x; rotate_left; clear_value x)
    | (extract_lets +onlyGivenNames x; refine Only.cut2 x ?_ (fun _ => ?_); unfold x; clear x; rotate_left; clear_value x)
    | (extract_lets +onlyGivenNames x; refine Only.cutF x ?_ (fun _ => ?_); unfold x; clear x; rotate_left; clear_value x)
    | (extract_lets +onlyGivenNames x; refine Only.cutG x ?_ (fun _ => ?_); unfold x; clear x; rotate_left; clear_value x)
    | (extract_lets +onlyGivenNames x; refine Only.cutG2 x ?_ (fun _ => ?_); unfold x; clear x; rotate_left; clear_value x)
    | (extract_lets +onlyGivenNames x; refine Only.cutG3 x ?_ (fun _ => ?_); unfold x; clear x; rotate_left; clear_value x)
    | (extract_lets +onlyGivenNames x; refine Only.cutH x ?_ (fun _ => ?_); unfold x; clear x; rotate_left; clear_value x)
    | (extract_lets +onlyGivenNames x; clear_value x)
    | with_reducible apply Only.ite
    | (with_reducible apply Only.step (adminFail_only ..); exact .of (by decide +kernel))
    | (with_reducible apply Only.step (adminOk_only ..); exact .of (by decide +kernel))
    | (with_reducible apply Only.step (State.updCon_only ..); exact .of (by decide +kernel))
    | with_reducible apply_assumption -exfalso -symm
    | split
    | dsimp only

/-- What `execDeleteIoCq` may change. -/
theorem execDeleteIoCq_only (h : AdminHdr) (qid : Nat) (s : State) :
    ∃ t, execDeleteIoCq h qid s = .next t ∧ Only [.out,
    .gen, .he, .ctl, .sh, .fs, .mg, .fi, .prov, .reg Reg.QE_CQFULL.COUNT, .reg Reg.MG_LOGSTAT.DROPPED, .reg Reg.MG_ERR.LOGDROP,
    .reg Reg.FI_ARM.ARMED, .reg Reg.FI_ARM.DCAUSE, .reg Reg.FI_GF.EN, .reg Reg.FI_FL.EN, .reg Reg.FI_PCIE.EN] s t := by
  unfold execDeleteIoCq
  refine ⟨_, rfl, ?_⟩
  repeat' first
    | intro _
    | with_reducible assumption
    | with_reducible exact Only.refl _ _
    | (with_reducible apply adminCmd_keep; exact .of (by decide +kernel))
    | (with_reducible apply Only.step (deleteIoCqBody_only ..); exact .of (by decide +kernel))
    | with_reducible apply_assumption -exfalso -symm
    | split
    | dsimp only

/-- What `createIoCqBody` may change. -/
theorem createIoCqBody_only (h : AdminHdr) (qid size vector : Nat) (ien : Bool) (base : Nat) (contiguous : Bool) (s : State) :
    Only [.out,
    .he, .ctl, .fs, .reg Reg.QE_CQFULL.COUNT] s (createIoCqBody h qid size vector ien base contiguous s) := by
  unfold createIoCqBody
  repeat' first
    | intro _
    | with_reducible assumption
    | with_reducible exact Only.refl _ _
    | (with_reducible apply Only.step (adminFail_only ..); exact .of (by decide +kernel))
    | (with_reducible apply Only.step (adminOk_only ..); exact .of (by decide +kernel))
    | (with_reducible apply Only.step (eventIdxNew_only ..); exact .of (by decide +kernel))
    | (with_reducible apply Only.step (State.updCon_only ..); exact .of (by decide +kernel))
    | with_reducible apply_assumption -exfalso -symm
    | split
    | dsimp only

/-- What `execCreateIoCq` may change. -/
theorem execCreateIoCq_only (h : AdminHdr) (qid size vector : Nat) (ien : Bool) (base : Nat) (contiguous : Bool) (s : State) :
    ∃ t,
    execCreateIoCq h qid size vector ien base contiguous s = .next t ∧ Only [.out, .gen, .he, .ctl, .sh, .fs, .mg, .fi, .prov,
    .reg Reg.QE_CQFULL.COUNT, .reg Reg.MG_LOGSTAT.DROPPED, .reg Reg.MG_ERR.LOGDROP, .reg Reg.FI_ARM.ARMED,
    .reg Reg.FI_ARM.DCAUSE, .reg Reg.FI_GF.EN, .reg Reg.FI_FL.EN, .reg Reg.FI_PCIE.EN] s t := by
  unfold execCreateIoCq
  refine ⟨_, rfl, ?_⟩
  repeat' first
    | intro _
    | with_reducible assumption
    | with_reducible exact Only.refl _ _
    | (with_reducible apply adminCmd_keep; exact .of (by decide +kernel))
    | (with_reducible apply Only.step (createIoCqBody_only ..); exact .of (by decide +kernel))
    | with_reducible apply_assumption -exfalso -symm
    | split
    | dsimp only

/-- What `logRead` may change. -/
theorem logRead_only (p : Port) (lid : Nat) (s : State) :
    Only [.ctl] s (logRead p lid s) := by
  unfold logRead
  repeat' first
    | intro _
    | with_reducible assumption
    | with_reducible exact Only.refl _ _
    | with_reducible apply Only.ite
    | (with_reducible apply Only.step (State.updCon_only ..); exact .of (by decide +kernel))
    | with_reducible apply_assumption -exfalso -symm
    | split
    | dsimp only

/-- What `getLogPageBody` may change. -/
theorem getLogPageBody_only (h : AdminHdr) (lid offset numDwords : Nat) (rae : Bool) (s : State) :
    Only [.freeCtr, .out,
    .he, .ctl, .fs, .me, .reg Reg.QE_CQFULL.COUNT,
    .reg Reg.ME_MERGE.EVICT] s (getLogPageBody h lid offset numDwords rae s) := by
  unfold getLogPageBody
  repeat' first
    | intro _
    | with_reducible assumption
    | with_reducible exact Only.refl _ _
    | (extract_lets +onlyGivenNames x; refine Only.cut x ?_ (fun _ => ?_); unfold x; clear x; rotate_left; clear_value x)
    | (extract_lets +onlyGivenNames x; refine Only.cut2 x ?_ (fun _ => ?_); unfold x; clear x; rotate_left; clear_value x)
    | (extract_lets +onlyGivenNames x; refine Only.cutF x ?_ (fun _ => ?_); unfold x; clear x; rotate_left; clear_value x)
    | (extract_lets +onlyGivenNames x; refine Only.cutG x ?_ (fun _ => ?_); unfold x; clear x; rotate_left; clear_value x)
    | (extract_lets +onlyGivenNames x; refine Only.cutG2 x ?_ (fun _ => ?_); unfold x; clear x; rotate_left; clear_value x)
    | (extract_lets +onlyGivenNames x; refine Only.cutG3 x ?_ (fun _ => ?_); unfold x; clear x; rotate_left; clear_value x)
    | (extract_lets +onlyGivenNames x; refine Only.cutH x ?_ (fun _ => ?_); unfold x; clear x; rotate_left; clear_value x)
    | (extract_lets +onlyGivenNames x; clear_value x)
    | with_reducible apply Only.ite
    | fail_if_no_progress (with_reducible apply Only.upd_freeCtr; decide +kernel)
    | (with_reducible apply Only.step (adminFail_only ..); exact .of (by decide +kernel))
    | (with_reducible apply withData_keep; exact .of (by decide +kernel))
    | (with_reducible apply Only.step (adminData_only ..); exact .of (by decide +kernel))
    | (with_reducible apply Only.step (adminOk_only ..); exact .of (by decide +kernel))
    | (with_reducible apply Only.step (logRead_only ..); exact .of (by decide +kernel))
    | with_reducible apply_assumption -exfalso -symm
    | split
    | dsimp only

/-- What `execGetLogPage` may change. -/
theorem execGetLogPage_only (h : AdminHdr) (lid : Nat) (offset numDwords : Nat) (rae : Bool) (s : State) :
    ∃ t,
    execGetLogPage h lid offset numDwords rae s = .next t ∧ Only [.freeCtr, .out, .gen, .he, .ctl, .sh, .fs, .me, .mg, .fi,
    .prov, .reg Reg.QE_CQFULL.COUNT, .reg Reg.ME_MERGE.EVICT, .reg Reg.MG_LOGSTAT.DROPPED, .reg Reg.MG_ERR.LOGDROP,
    .reg Reg.FI_ARM.ARMED, .reg Reg.FI_ARM.DCAUSE, .reg Reg.FI_GF.EN, .reg Reg.FI_FL.EN, .reg Reg.FI_PCIE.EN] s t := by
  unfold execGetLogPage
  refine ⟨_, rfl, ?_⟩
  repeat' first
    | intro _
    | with_reducible assumption
    | with_reducible exact Only.refl _ _
    | (with_reducible apply adminCmd_keep; exact .of (by decide +kernel))
    | (with_reducible apply Only.step (getLogPageBody_only ..); exact .of (by decide +kernel))
    | with_reducible apply_assumption -exfalso -symm
    | split
    | dsimp only

/-- What `identifyBody` may change. -/
theorem identifyBody_only (h : AdminHdr) (cns cntid : Nat) (s : State) :
    Only [.out, .he, .ctl, .fs, .me,
    .reg Reg.QE_CQFULL.COUNT, .reg Reg.ME_MERGE.EVICT] s (identifyBody h cns cntid s) := by
  unfold identifyBody
  repeat' first
    | intro _
    | with_reducible assumption
    | with_reducible exact Only.refl _ _
    | (with_reducible apply Only.step (adminPage_only ..); exact .of (by decide +kernel))
    | (with_reducible apply Only.step (adminFail_only ..); exact .of (by decide +kernel))
    | with_reducible apply_assumption -exfalso -symm
    | split
    | dsimp only

/-- What `execIdentify` may change. -/
theorem execIdentify_only (h : AdminHdr) (cns cntid : Nat) (s : State) :
    ∃ t,
    execIdentify h cns cntid s = .next t ∧ Only [.out, .gen, .he, .ctl, .sh, .fs, .me, .mg, .fi, .prov,
    .reg Reg.QE_CQFULL.COUNT, .reg Reg.ME_MERGE.EVICT, .reg Reg.MG_LOGSTAT.DROPPED, .reg Reg.MG_ERR.LOGDROP,
    .reg Reg.FI_ARM.ARMED, .reg Reg.FI_ARM.DCAUSE, .reg Reg.FI_GF.EN, .reg Reg.FI_FL.EN, .reg Reg.FI_PCIE.EN] s t := by
  unfold execIdentify
  refine ⟨_, rfl, ?_⟩
  repeat' first
    | intro _
    | with_reducible assumption
    | with_reducible exact Only.refl _ _
    | (with_reducible apply adminCmd_keep; exact .of (by decide +kernel))
    | (with_reducible apply Only.step (identifyBody_only ..); exact .of (by decide +kernel))
    | with_reducible apply_assumption -exfalso -symm
    | split
    | dsimp only

/-- What `abortBody` may change. -/
theorem abortBody_only (h : AdminHdr) (s : State) :
    Only [.out, .he, .ctl, .fs,
    .reg Reg.QE_CQFULL.COUNT] s (abortBody h s) := by
  unfold abortBody
  repeat' first
    | intro _
    | with_reducible assumption
    | with_reducible exact Only.refl _ _
    | (extract_lets +onlyGivenNames x; refine Only.cut x ?_ (fun _ => ?_); unfold x; clear x; rotate_left; clear_value x)
    | (extract_lets +onlyGivenNames x; refine Only.cut2 x ?_ (fun _ => ?_); unfold x; clear x; rotate_left; clear_value x)
    | (extract_lets +onlyGivenNames x; refine Only.cutF x ?_ (fun _ => ?_); unfold x; clear x; rotate_left; clear_value x)
    | (extract_lets +onlyGivenNames x; refine Only.cutG x ?_ (fun _ => ?_); unfold x; clear x; rotate_left; clear_value x)
    | (extract_lets +onlyGivenNames x; refine Only.cutG2 x ?_ (fun _ => ?_); unfold x; clear x; rotate_left; clear_value x)
    | (extract_lets +onlyGivenNames x; refine Only.cutG3 x ?_ (fun _ => ?_); unfold x; clear x; rotate_left; clear_value x)
    | (extract_lets +onlyGivenNames x; refine Only.cutH x ?_ (fun _ => ?_); unfold x; clear x; rotate_left; clear_value x)
    | (extract_lets +onlyGivenNames x; clear_value x)
    | with_reducible apply Only.ite
    | (with_reducible apply Only.step (adminFail_only ..); exact .of (by decide +kernel))
    | (with_reducible apply Only.step (adminDone_only ..); exact .of (by decide +kernel))
    | (with_reducible apply Only.step (State.updCon_only ..); exact .of (by decide +kernel))
    | with_reducible apply_assumption -exfalso -symm
    | split
    | dsimp only

/-- What `execAbort` may change. -/
theorem execAbort_only (h : AdminHdr) (_sqid : Nat) (_cid : BitVec 16) (s : State) :
    ∃ t,
    execAbort h _sqid _cid s = .next t ∧ Only [.out, .gen, .he, .ctl, .sh, .fs, .mg, .fi, .prov, .reg Reg.QE_CQFULL.COUNT,
    .reg Reg.MG_LOGSTAT.DROPPED, .reg Reg.MG_ERR.LOGDROP, .reg Reg.FI_ARM.ARMED, .reg Reg.FI_ARM.DCAUSE, .reg Reg.FI_GF.EN,
    .reg Reg.FI_FL.EN, .reg Reg.FI_PCIE.EN] s t := by
  unfold execAbort
  refine ⟨_, rfl, ?_⟩
  repeat' first
    | intro _
    | with_reducible assumption
    | with_reducible exact Only.refl _ _
    | (with_reducible apply adminCmd_keep; exact .of (by decide +kernel))
    | (with_reducible apply Only.step (abortBody_only ..); exact .of (by decide +kernel))
    | with_reducible apply_assumption -exfalso -symm
    | split
    | dsimp only

/-- What `asynchronousEventRequestBody` may change. -/
theorem asynchronousEventRequestBody_only (h : AdminHdr) (s : State) :
    Only [.out, .he, .ctl, .fs,
    .reg Reg.QE_CQFULL.COUNT] s (asynchronousEventRequestBody h s) := by
  unfold asynchronousEventRequestBody
  repeat' first
    | intro _
    | with_reducible assumption
    | with_reducible exact Only.refl _ _
    | (extract_lets +onlyGivenNames x; refine Only.cut x ?_ (fun _ => ?_); unfold x; clear x; rotate_left; clear_value x)
    | (extract_lets +onlyGivenNames x; refine Only.cut2 x ?_ (fun _ => ?_); unfold x; clear x; rotate_left; clear_value x)
    | (extract_lets +onlyGivenNames x; refine Only.cutF x ?_ (fun _ => ?_); unfold x; clear x; rotate_left; clear_value x)
    | (extract_lets +onlyGivenNames x; refine Only.cutG x ?_ (fun _ => ?_); unfold x; clear x; rotate_left; clear_value x)
    | (extract_lets +onlyGivenNames x; refine Only.cutG2 x ?_ (fun _ => ?_); unfold x; clear x; rotate_left; clear_value x)
    | (extract_lets +onlyGivenNames x; refine Only.cutG3 x ?_ (fun _ => ?_); unfold x; clear x; rotate_left; clear_value x)
    | (extract_lets +onlyGivenNames x; refine Only.cutH x ?_ (fun _ => ?_); unfold x; clear x; rotate_left; clear_value x)
    | (extract_lets +onlyGivenNames x; clear_value x)
    | with_reducible apply Only.ite
    | (with_reducible apply Only.step (adminDone_only ..); exact .of (by decide +kernel))
    | (with_reducible apply Only.step (State.updCon_only ..); exact .of (by decide +kernel))
    | (with_reducible apply Only.step (adminFail_only ..); exact .of (by decide +kernel))
    | with_reducible apply_assumption -exfalso -symm
    | split
    | dsimp only

/-- What `execAsynchronousEventRequest` may change. -/
theorem execAsynchronousEventRequest_only (h : AdminHdr) (s : State) :
    ∃ t,
    execAsynchronousEventRequest h s = .next t ∧ Only [.out, .gen, .he, .ctl, .sh, .fs, .mg, .fi, .prov,
    .reg Reg.QE_CQFULL.COUNT, .reg Reg.MG_LOGSTAT.DROPPED, .reg Reg.MG_ERR.LOGDROP, .reg Reg.FI_ARM.ARMED,
    .reg Reg.FI_ARM.DCAUSE, .reg Reg.FI_GF.EN, .reg Reg.FI_FL.EN, .reg Reg.FI_PCIE.EN] s t := by
  unfold execAsynchronousEventRequest
  refine ⟨_, rfl, ?_⟩
  repeat' first
    | intro _
    | with_reducible assumption
    | with_reducible exact Only.refl _ _
    | (with_reducible apply adminCmd_keep; exact .of (by decide +kernel))
    | (with_reducible apply Only.step (asynchronousEventRequestBody_only ..); exact .of (by decide +kernel))
    | with_reducible apply_assumption -exfalso -symm
    | split
    | dsimp only

/-- What `deviceSelfTestBody` may change. -/
theorem deviceSelfTestBody_only (h : AdminHdr) (code : Nat) (s : State) :
    Only [.out, .he, .ctl, .fs,
    .reg Reg.QE_CQFULL.COUNT] s (deviceSelfTestBody h code s) := by
  unfold deviceSelfTestBody
  repeat' first
    | intro _
    | with_reducible assumption
    | with_reducible exact Only.refl _ _
    | (extract_lets +onlyGivenNames x; refine Only.cut x ?_ (fun _ => ?_); unfold x; clear x; rotate_left; clear_value x)
    | (extract_lets +onlyGivenNames x; refine Only.cut2 x ?_ (fun _ => ?_); unfold x; clear x; rotate_left; clear_value x)
    | (extract_lets +onlyGivenNames x; refine Only.cutF x ?_ (fun _ => ?_); unfold x; clear x; rotate_left; clear_value x)
    | (extract_lets +onlyGivenNames x; refine Only.cutG x ?_ (fun _ => ?_); unfold x; clear x; rotate_left; clear_value x)
    | (extract_lets +onlyGivenNames x; refine Only.cutG2 x ?_ (fun _ => ?_); unfold x; clear x; rotate_left; clear_value x)
    | (extract_lets +onlyGivenNames x; refine Only.cutG3 x ?_ (fun _ => ?_); unfold x; clear x; rotate_left; clear_value x)
    | (extract_lets +onlyGivenNames x; refine Only.cutH x ?_ (fun _ => ?_); unfold x; clear x; rotate_left; clear_value x)
    | (extract_lets +onlyGivenNames x; clear_value x)
    | with_reducible apply Only.ite
    | (with_reducible apply Only.step (adminOk_only ..); exact .of (by decide +kernel))
    | (with_reducible apply Only.step (State.updCon_only ..); exact .of (by decide +kernel))
    | (with_reducible apply Only.step (adminFail_only ..); exact .of (by decide +kernel))
    | with_reducible apply_assumption -exfalso -symm
    | split
    | dsimp only

/-- What `execDeviceSelfTest` may change. -/
theorem execDeviceSelfTest_only (h : AdminHdr) (code : Nat) (s : State) :
    ∃ t,
    execDeviceSelfTest h code s = .next t ∧ Only [.out, .gen, .he, .ctl, .sh, .fs, .mg, .fi, .prov, .reg Reg.QE_CQFULL.COUNT,
    .reg Reg.MG_LOGSTAT.DROPPED, .reg Reg.MG_ERR.LOGDROP, .reg Reg.FI_ARM.ARMED, .reg Reg.FI_ARM.DCAUSE, .reg Reg.FI_GF.EN,
    .reg Reg.FI_FL.EN, .reg Reg.FI_PCIE.EN] s t := by
  unfold execDeviceSelfTest
  refine ⟨_, rfl, ?_⟩
  repeat' first
    | intro _
    | with_reducible assumption
    | with_reducible exact Only.refl _ _
    | (with_reducible apply adminCmd_keep; exact .of (by decide +kernel))
    | (with_reducible apply Only.step (deviceSelfTestBody_only ..); exact .of (by decide +kernel))
    | with_reducible apply_assumption -exfalso -symm
    | split
    | dsimp only

/-- What `selfTestDone` may change. -/
theorem selfTestDone_only (p : Port) (result : Nat) (s : State) :
    Only [.ctl] s (selfTestDone p result s) := by
  unfold selfTestDone
  repeat' first
    | intro _
    | with_reducible assumption
    | with_reducible exact Only.refl _ _
    | (with_reducible apply Only.step (State.updCon_only ..); exact .of (by decide +kernel))
    | with_reducible apply_assumption -exfalso -symm
    | split
    | dsimp only

/-- What `execDeviceSelfTestComplete` may change. -/
theorem execDeviceSelfTestComplete_only (result : Nat) (s : State) :
    ∃ t,
    execDeviceSelfTestComplete result s = .next t ∧ Only [.ctl] s t := by
  unfold execDeviceSelfTestComplete
  refine ⟨_, rfl, ?_⟩
  repeat' first
    | intro _
    | with_reducible assumption
    | with_reducible exact Only.refl _ _
    | (with_reducible apply Only.step (selfTestDone_only ..); exact .of (by decide +kernel))
    | with_reducible apply_assumption -exfalso -symm
    | split
    | dsimp only

/-- What `directiveSendBody` may change. -/
theorem directiveSendBody_only (h : AdminHdr) (dtype doper dspec : Nat) (enable : Bool) (tdtype : Nat) (s : State) :
    Only [.out,
    .he, .ctl, .fs, .reg Reg.QE_CQFULL.COUNT] s (directiveSendBody h dtype doper dspec enable tdtype s) := by
  unfold directiveSendBody
  repeat' first
    | intro _
    | with_reducible assumption
    | with_reducible exact Only.refl _ _
    | (extract_lets +onlyGivenNames x; refine Only.cut x ?_ (fun _ => ?_); unfold x; clear x; rotate_left; clear_value x)
    | (extract_lets +onlyGivenNames x; refine Only.cut2 x ?_ (fun _ => ?_); unfold x; clear x; rotate_left; clear_value x)
    | (extract_lets +onlyGivenNames x; refine Only.cutF x ?_ (fun _ => ?_); unfold x; clear x; rotate_left; clear_value x)
    | (extract_lets +onlyGivenNames x; refine Only.cutG x ?_ (fun _ => ?_); unfold x; clear x; rotate_left; clear_value x)
    | (extract_lets +onlyGivenNames x; refine Only.cutG2 x ?_ (fun _ => ?_); unfold x; clear x; rotate_left; clear_value x)
    | (extract_lets +onlyGivenNames x; refine Only.cutG3 x ?_ (fun _ => ?_); unfold x; clear x; rotate_left; clear_value x)
    | (extract_lets +onlyGivenNames x; refine Only.cutH x ?_ (fun _ => ?_); unfold x; clear x; rotate_left; clear_value x)
    | (extract_lets +onlyGivenNames x; clear_value x)
    | with_reducible apply Only.ite
    | (with_reducible apply Only.step (adminFail_only ..); exact .of (by decide +kernel))
    | (with_reducible apply Only.step (adminOk_only ..); exact .of (by decide +kernel))
    | (with_reducible apply Only.step (State.updCon_only ..); exact .of (by decide +kernel))
    | with_reducible apply_assumption -exfalso -symm
    | split
    | dsimp only

/-- What `execDirectiveSend` may change. -/
theorem execDirectiveSend_only (h : AdminHdr) (dtype doper dspec : Nat) (enable : Bool) (tdtype : Nat) (s : State) :
    ∃ t,
    execDirectiveSend h dtype doper dspec enable tdtype s = .next t ∧ Only [.out, .gen, .he, .ctl, .sh, .fs, .mg, .fi, .prov,
    .reg Reg.QE_CQFULL.COUNT, .reg Reg.MG_LOGSTAT.DROPPED, .reg Reg.MG_ERR.LOGDROP, .reg Reg.FI_ARM.ARMED,
    .reg Reg.FI_ARM.DCAUSE, .reg Reg.FI_GF.EN, .reg Reg.FI_FL.EN, .reg Reg.FI_PCIE.EN] s t := by
  unfold execDirectiveSend
  refine ⟨_, rfl, ?_⟩
  repeat' first
    | intro _
    | with_reducible assumption
    | with_reducible exact Only.refl _ _
    | (with_reducible apply adminCmd_keep; exact .of (by decide +kernel))
    | (with_reducible apply Only.step (directiveSendBody_only ..); exact .of (by decide +kernel))
    | with_reducible apply_assumption -exfalso -symm
    | split
    | dsimp only

/-- What `directiveReceiveBody` may change. -/
theorem directiveReceiveBody_only (h : AdminHdr) (dtype doper _dspec : Nat) (nsr : Nat) (s : State) :
    Only [.out, .he, .ctl,
    .fs, .me, .reg Reg.QE_CQFULL.COUNT, .reg Reg.ME_MERGE.EVICT] s (directiveReceiveBody h dtype doper _dspec nsr s) := by
  unfold directiveReceiveBody
  repeat' first
    | intro _
    | with_reducible assumption
    | with_reducible exact Only.refl _ _
    | (extract_lets +onlyGivenNames x; refine Only.cut x ?_ (fun _ => ?_); unfold x; clear x; rotate_left; clear_value x)
    | (extract_lets +onlyGivenNames x; refine Only.cut2 x ?_ (fun _ => ?_); unfold x; clear x; rotate_left; clear_value x)
    | (extract_lets +onlyGivenNames x; refine Only.cutF x ?_ (fun _ => ?_); unfold x; clear x; rotate_left; clear_value x)
    | (extract_lets +onlyGivenNames x; refine Only.cutG x ?_ (fun _ => ?_); unfold x; clear x; rotate_left; clear_value x)
    | (extract_lets +onlyGivenNames x; refine Only.cutP x ?_ (fun _ => ?_); unfold x; clear x; rotate_left; clear_value x)
    | (extract_lets +onlyGivenNames x; refine Only.cutG2 x ?_ (fun _ => ?_); unfold x; clear x; rotate_left; clear_value x)
    | (extract_lets +onlyGivenNames x; refine Only.cutG3 x ?_ (fun _ => ?_); unfold x; clear x; rotate_left; clear_value x)
    | (extract_lets +onlyGivenNames x; refine Only.cutH x ?_ (fun _ => ?_); unfold x; clear x; rotate_left; clear_value x)
    | (extract_lets +onlyGivenNames x; clear_value x)
    | with_reducible apply Only.ite
    | (with_reducible apply Only.step (adminFail_only ..); exact .of (by decide +kernel))
    | (with_reducible apply Only.step (adminPage_only ..); exact .of (by decide +kernel))
    | (with_reducible apply Only.step (adminDone_only ..); exact .of (by decide +kernel))
    | (with_reducible apply Only.step (State.updCon_only ..); exact .of (by decide +kernel))
    | with_reducible apply_assumption -exfalso -symm
    | split
    | dsimp only

/-- What `execDirectiveReceive` may change. -/
theorem execDirectiveReceive_only (h : AdminHdr) (dtype doper dspec : Nat) (nsr : Nat) (s : State) :
    ∃ t,
    execDirectiveReceive h dtype doper dspec nsr s = .next t ∧ Only [.out, .gen, .he, .ctl, .sh, .fs, .me, .mg, .fi, .prov,
    .reg Reg.QE_CQFULL.COUNT, .reg Reg.ME_MERGE.EVICT, .reg Reg.MG_LOGSTAT.DROPPED, .reg Reg.MG_ERR.LOGDROP,
    .reg Reg.FI_ARM.ARMED, .reg Reg.FI_ARM.DCAUSE, .reg Reg.FI_GF.EN, .reg Reg.FI_FL.EN, .reg Reg.FI_PCIE.EN] s t := by
  unfold execDirectiveReceive
  refine ⟨_, rfl, ?_⟩
  repeat' first
    | intro _
    | with_reducible assumption
    | with_reducible exact Only.refl _ _
    | (with_reducible apply adminCmd_keep; exact .of (by decide +kernel))
    | (with_reducible apply Only.step (directiveReceiveBody_only ..); exact .of (by decide +kernel))
    | with_reducible apply_assumption -exfalso -symm
    | split
    | dsimp only

/-- What `doorbellBufferConfigBody` may change. -/
theorem doorbellBufferConfigBody_only (h : AdminHdr) (prp1 prp2 : Nat) (s : State) :
    Only [.out, .he, .ctl, .fs,
    .reg Reg.QE_CQFULL.COUNT] s (doorbellBufferConfigBody h prp1 prp2 s) := by
  unfold doorbellBufferConfigBody
  repeat' first
    | intro _
    | with_reducible assumption
    | with_reducible exact Only.refl _ _
    | with_reducible apply Only.ite
    | (with_reducible apply Only.step (adminFail_only ..); exact .of (by decide +kernel))
    | (with_reducible apply Only.step (adminOk_only ..); exact .of (by decide +kernel))
    | (with_reducible apply Only.step (State.updCon_only ..); exact .of (by decide +kernel))
    | with_reducible apply_assumption -exfalso -symm
    | split
    | dsimp only

/-- What `execDoorbellBufferConfig` may change. -/
theorem execDoorbellBufferConfig_only (h : AdminHdr) (prp1 prp2 : Nat) (s : State) :
    ∃ t,
    execDoorbellBufferConfig h prp1 prp2 s = .next t ∧ Only [.out, .gen, .he, .ctl, .sh, .fs, .mg, .fi, .prov,
    .reg Reg.QE_CQFULL.COUNT, .reg Reg.MG_LOGSTAT.DROPPED, .reg Reg.MG_ERR.LOGDROP, .reg Reg.FI_ARM.ARMED,
    .reg Reg.FI_ARM.DCAUSE, .reg Reg.FI_GF.EN, .reg Reg.FI_FL.EN, .reg Reg.FI_PCIE.EN] s t := by
  unfold execDoorbellBufferConfig
  refine ⟨_, rfl, ?_⟩
  repeat' first
    | intro _
    | with_reducible assumption
    | with_reducible exact Only.refl _ _
    | (with_reducible apply adminCmd_keep; exact .of (by decide +kernel))
    | (with_reducible apply Only.step (doorbellBufferConfigBody_only ..); exact .of (by decide +kernel))
    | with_reducible apply_assumption -exfalso -symm
    | split
    | dsimp only

end Sys2Proof.Machine
end

