-- ==== Sys2Proof/Laws/FrameFeatures.lean ====
section
/-! SUPPORT. What each operation of Machine/Features.lean may change, as `Only` states it: one lemma an operation, which later proofs cite
instead of unfolding it. -/
namespace Sys2Proof.Machine
set_option Elab.async false
set_option linter.all false

/-- What `setFeature` may change. -/
theorem setFeature_keep {w : List Fld} {r : State} {h : AdminHdr} {sv : Bool} {body : State → State} {s : State}
    (hSub : Within [.out,
    .gen, .he, .ctl, .sh, .fs, .mg, .fi, .prov, .reg Reg.QE_CQFULL.COUNT, .reg Reg.MG_LOGSTAT.DROPPED, .reg Reg.MG_ERR.LOGDROP,
    .reg Reg.FI_ARM.ARMED, .reg Reg.FI_ARM.DCAUSE, .reg Reg.FI_GF.EN, .reg Reg.FI_FL.EN,
    .reg Reg.FI_PCIE.EN] w)
    (hBody : ∀ u,
    Only w r u → Only w r (body u)) (hOnly : Only w r s) : Only w r (setFeature h sv body s) := by
  unfold setFeature
  repeat' first
    | intro _
    | with_reducible assumption
    | with_reducible exact Only.refl _ _
    | with_reducible apply Only.ite
    | (with_reducible apply adminCmd_keep; exact .trans (.of (by decide +kernel)) hSub)
    | (with_reducible apply Only.step (adminFail_only ..); exact .trans (.of (by decide +kernel)) hSub)
    | with_reducible apply_assumption -exfalso -symm
    | split
    | dsimp only

/-- What `execSetFeaturesArbitration` may change. -/
theorem execSetFeaturesArbitration_only (h : AdminHdr) (sv : Bool) (dw11 : Word) (s : State) :
    ∃ t,
    execSetFeaturesArbitration h sv dw11 s = .next t ∧ Only [.out, .gen, .he, .ctl, .sh, .fs, .mg, .fi, .prov,
    .reg Reg.QE_CQFULL.COUNT, .reg Reg.MG_LOGSTAT.DROPPED, .reg Reg.MG_ERR.LOGDROP, .reg Reg.FI_ARM.ARMED,
    .reg Reg.FI_ARM.DCAUSE, .reg Reg.FI_GF.EN, .reg Reg.FI_FL.EN, .reg Reg.FI_PCIE.EN] s t := by
  unfold execSetFeaturesArbitration
  refine ⟨_, rfl, ?_⟩
  repeat' first
    | intro _
    | with_reducible assumption
    | with_reducible exact Only.refl _ _
    | (with_reducible apply setFeature_keep; exact .of (by decide +kernel))
    | (with_reducible apply Only.step (adminOk_only ..); exact .of (by decide +kernel))
    | (with_reducible apply Only.step (State.updCon_only ..); exact .of (by decide +kernel))
    | with_reducible apply_assumption -exfalso -symm
    | split
    | dsimp only

/-- What `setPowerBody` may change. -/
theorem setPowerBody_only (h : AdminHdr) (ps wh : Nat) (s : State) :
    Only [.out, .gen, .he, .ctl, .sh, .fs,
    .reg Reg.QE_CQFULL.COUNT] s (setPowerBody h ps wh s) := by
  unfold setPowerBody
  repeat' first
    | intro _
    | with_reducible assumption
    | with_reducible exact Only.refl _ _
    | (extract_lets +onlyGivenNames x; refine Only.cut x ?_ (fun _ => ?_); unfold x; clear x; rotate_left; clear_value x)
    | (extract_lets +onlyGivenNames x; refine Only.cut2 x ?_ (fun _ => ?_); unfold x; clear x; rotate_left; clear_value x)
    | (extract_lets +onlyGivenNames x; clear_value x)
    | with_reducible apply Only.ite
    | fail_if_no_progress (with_reducible apply Only.upd_sh; decide +kernel)
    | fail_if_no_progress (with_reducible apply Only.upd_gen_sh; decide +kernel; decide +kernel)
    | (with_reducible apply Only.step (adminFail_only ..); exact .of (by decide +kernel))
    | (with_reducible apply Only.step (adminOk_only ..); exact .of (by decide +kernel))
    | with_reducible apply_assumption -exfalso -symm
    | split
    | dsimp only

/-- What `execSetFeaturesPowerManagement` may change. -/
theorem execSetFeaturesPowerManagement_only (h : AdminHdr) (sv : Bool) (ps wh : Nat) (s : State) :
    ∃ t,
    execSetFeaturesPowerManagement h sv ps wh s = .next t ∧ Only [.out, .gen, .he, .ctl, .sh, .fs, .mg, .fi, .prov,
    .reg Reg.QE_CQFULL.COUNT, .reg Reg.MG_LOGSTAT.DROPPED, .reg Reg.MG_ERR.LOGDROP, .reg Reg.FI_ARM.ARMED,
    .reg Reg.FI_ARM.DCAUSE, .reg Reg.FI_GF.EN, .reg Reg.FI_FL.EN, .reg Reg.FI_PCIE.EN] s t := by
  unfold execSetFeaturesPowerManagement
  refine ⟨_, rfl, ?_⟩
  repeat' first
    | intro _
    | with_reducible assumption
    | with_reducible exact Only.refl _ _
    | (with_reducible apply setFeature_keep; exact .of (by decide +kernel))
    | (with_reducible apply Only.step (setPowerBody_only ..); exact .of (by decide +kernel))
    | with_reducible apply_assumption -exfalso -symm
    | split
    | dsimp only

/-- What `powerStateEntryEff` may change. -/
theorem powerStateEntryEff_only (done : Bool) (s : State) :
    Only (List.append [.out, .gen, .he, .ctl, .sh, .defFaults,
    .lost, .fs, .mx, .mm, .sp, .bp, .me, .gf, .mg, .fi, .nand, .prov, .reg Reg.HE_WINLOG.COUNT, .reg Reg.HE_WINLOG.CAUSE,
    .reg Reg.HE_WINLOG.PORT, .reg Reg.HE_WINLOGLO.OFFSET, .reg Reg.HE_WINLOGHI.OFFSET, .reg Reg.HE_WINLOGHI.RID,
    .reg Reg.QE_CQFULL.COUNT, .reg Reg.BP_ERRBUF.INDEX, .reg Reg.BP_ERRBUF.OWNER, .reg Reg.BP_ERRBUF.CAUSE,
    .reg Reg.BP_ERR.REVOKE, .reg Reg.ME_POISON.CONSUMED] [.reg Reg.ME_LASTHI.KIND, .reg Reg.ME_ERR.POISON,
    .reg Reg.GF_XFER.RESENT, .reg Reg.GF_XFER.FAILED, .reg Reg.GF_ERR.LINKDOWN, .reg Reg.GF_ERR.XFERFAIL,
    .reg Reg.GF_ERR.HELDOUT, .reg Reg.MG_LOGSTAT.DROPPED, .reg Reg.MG_ERR.LOGDROP, .reg Reg.FI_ARM.ARMED,
    .reg Reg.FI_ARM.DCAUSE, .reg Reg.FI_GF.EN, .reg Reg.FI_FL.EN, .reg Reg.FI_PCIE.EN,
    .reg Reg.FI_CNT.INJECTED]) s (powerStateEntryEff done s) := by
  unfold powerStateEntryEff
  repeat' first
    | intro _
    | with_reducible assumption
    | with_reducible exact Only.refl _ _
    | (extract_lets +onlyGivenNames x; refine Only.cut x ?_ (fun _ => ?_); unfold x; clear x; rotate_left; clear_value x)
    | (extract_lets +onlyGivenNames x; refine Only.cut2 x ?_ (fun _ => ?_); unfold x; clear x; rotate_left; clear_value x)
    | (extract_lets +onlyGivenNames x; clear_value x)
    | with_reducible apply Only.ite
    | fail_if_no_progress (with_reducible apply Only.upd_gen_sh; decide +kernel; decide +kernel)
    | fail_if_no_progress (with_reducible apply Only.upd_gen; decide +kernel)
    | (with_reducible apply Only.step (journalNow_only ..); exact .of (by decide +kernel))
    | (with_reducible apply Only.step (flushStaged_only ..); exact .of (by decide +kernel))
    | (with_reducible apply Only.step (snapDurableNow_only ..); exact .of (by decide +kernel))
    | (with_reducible apply Only.step (ps4Links_only ..); exact .of (by decide +kernel))
    | (with_reducible apply Only.step (stopPolling_only ..); exact .of (by decide +kernel))
    | (with_reducible apply Only.step (enterMode_only ..); exact .of (by decide +kernel))
    | with_reducible apply_assumption -exfalso -symm
    | split
    | dsimp only

/-- What `execPowerStateEntry` may change. -/
theorem execPowerStateEntry_only (done : Bool) (s : State) :
    ∃ t,
    execPowerStateEntry done s = .next t ∧ Only (List.append [.out, .gen, .he, .ctl, .sh, .defFaults, .lost, .fs, .mx, .mm, .sp,
    .bp, .me, .gf, .mg, .fi, .nand, .prov, .reg Reg.HE_WINLOG.COUNT, .reg Reg.HE_WINLOG.CAUSE, .reg Reg.HE_WINLOG.PORT,
    .reg Reg.HE_WINLOGLO.OFFSET, .reg Reg.HE_WINLOGHI.OFFSET, .reg Reg.HE_WINLOGHI.RID, .reg Reg.QE_CQFULL.COUNT,
    .reg Reg.BP_ERRBUF.INDEX, .reg Reg.BP_ERRBUF.OWNER, .reg Reg.BP_ERRBUF.CAUSE, .reg Reg.BP_ERR.REVOKE,
    .reg Reg.ME_POISON.CONSUMED] [.reg Reg.ME_LASTHI.KIND, .reg Reg.ME_ERR.POISON, .reg Reg.GF_XFER.RESENT,
    .reg Reg.GF_XFER.FAILED, .reg Reg.GF_ERR.LINKDOWN, .reg Reg.GF_ERR.XFERFAIL, .reg Reg.GF_ERR.HELDOUT,
    .reg Reg.MG_LOGSTAT.DROPPED, .reg Reg.MG_ERR.LOGDROP, .reg Reg.FI_ARM.ARMED, .reg Reg.FI_ARM.DCAUSE, .reg Reg.FI_GF.EN,
    .reg Reg.FI_FL.EN, .reg Reg.FI_PCIE.EN, .reg Reg.FI_CNT.INJECTED]) s t := by
  unfold execPowerStateEntry
  refine ⟨_, rfl, ?_⟩
  repeat' first
    | intro _
    | with_reducible assumption
    | with_reducible exact Only.refl _ _
    | (with_reducible apply Only.step (powerStateEntryEff_only ..); exact .of (by decide +kernel))
    | with_reducible apply_assumption -exfalso -symm
    | split
    | dsimp only

/-- What `setTempBody` may change. -/
theorem setTempBody_only (h : AdminHdr) (tmpsel thsel kelvin : Nat) (s : State) :
    Only [.out, .he, .ctl, .sh, .fs,
    .reg Reg.QE_CQFULL.COUNT] s (setTempBody h tmpsel thsel kelvin s) := by
  unfold setTempBody
  repeat' first
    | intro _
    | with_reducible assumption
    | with_reducible exact Only.refl _ _
    | with_reducible apply Only.ite
    | fail_if_no_progress (with_reducible apply Only.upd_sh; decide +kernel)
    | (with_reducible apply Only.step (adminFail_only ..); exact .of (by decide +kernel))
    | (with_reducible apply Only.step (adminOk_only ..); exact .of (by decide +kernel))
    | with_reducible apply_assumption -exfalso -symm
    | split
    | dsimp only

/-- What `execSetFeaturesTemperatureThreshold` may change. -/
theorem execSetFeaturesTemperatureThreshold_only (h : AdminHdr) (sv : Bool) (tmpsel thsel kelvin : Nat) (s : State) :
    ∃ t,
    execSetFeaturesTemperatureThreshold h sv tmpsel thsel kelvin s = .next t ∧ Only [.out, .gen, .he, .ctl, .sh, .fs, .mg, .fi,
    .prov, .reg Reg.QE_CQFULL.COUNT, .reg Reg.MG_LOGSTAT.DROPPED, .reg Reg.MG_ERR.LOGDROP, .reg Reg.FI_ARM.ARMED,
    .reg Reg.FI_ARM.DCAUSE, .reg Reg.FI_GF.EN, .reg Reg.FI_FL.EN, .reg Reg.FI_PCIE.EN] s t := by
  unfold execSetFeaturesTemperatureThreshold
  refine ⟨_, rfl, ?_⟩
  repeat' first
    | intro _
    | with_reducible assumption
    | with_reducible exact Only.refl _ _
    | (with_reducible apply setFeature_keep; exact .of (by decide +kernel))
    | (with_reducible apply Only.step (setTempBody_only ..); exact .of (by decide +kernel))
    | with_reducible apply_assumption -exfalso -symm
    | split
    | dsimp only

/-- What `execSetFeaturesVolatileWriteCache` may change. -/
theorem execSetFeaturesVolatileWriteCache_only (h : AdminHdr) (sv : Bool) (wce : Bool) (s : State) :
    ∃ t,
    execSetFeaturesVolatileWriteCache h sv wce s = .next t ∧ Only [.out, .gen, .he, .ctl, .sh, .fs, .mg, .fi, .prov,
    .reg Reg.QE_CQFULL.COUNT, .reg Reg.MG_LOGSTAT.DROPPED, .reg Reg.MG_ERR.LOGDROP, .reg Reg.FI_ARM.ARMED,
    .reg Reg.FI_ARM.DCAUSE, .reg Reg.FI_GF.EN, .reg Reg.FI_FL.EN, .reg Reg.FI_PCIE.EN] s t := by
  unfold execSetFeaturesVolatileWriteCache
  refine ⟨_, rfl, ?_⟩
  repeat' first
    | intro _
    | with_reducible assumption
    | with_reducible exact Only.refl _ _
    | fail_if_no_progress (with_reducible apply Only.upd_sh; decide +kernel)
    | (with_reducible apply setFeature_keep; exact .of (by decide +kernel))
    | (with_reducible apply Only.step (adminOk_only ..); exact .of (by decide +kernel))
    | with_reducible apply_assumption -exfalso -symm
    | split
    | dsimp only

/-- What `setNumQueuesBody` may change. -/
theorem setNumQueuesBody_only (h : AdminHdr) (nsqr ncqr : Nat) (s : State) :
    Only [.out, .he, .ctl, .fs,
    .reg Reg.QE_CQFULL.COUNT] s (setNumQueuesBody h nsqr ncqr s) := by
  unfold setNumQueuesBody
  repeat' first
    | intro _
    | with_reducible assumption
    | with_reducible exact Only.refl _ _
    | (extract_lets +onlyGivenNames x; refine Only.cut x ?_ (fun _ => ?_); unfold x; clear x; rotate_left; clear_value x)
    | (extract_lets +onlyGivenNames x; refine Only.cut2 x ?_ (fun _ => ?_); unfold x; clear x; rotate_left; clear_value x)
    | (extract_lets +onlyGivenNames x; refine Only.cutF x ?_ (fun _ => ?_); unfold x; clear x; rotate_left; clear_value x)
    | (extract_lets +onlyGivenNames x; refine Only.cutG x ?_ (fun _ => ?_); unfold x; clear x; rotate_left; clear_value x)
    | (extract_lets +onlyGivenNames x; refine Only.cutG2 x ?_ (fun _ => ?_); unfold x; clear x; rotate_left; clear_value x)
    | (extract_lets +onlyGivenNames x; refine Only.cutG3 x ?_ (fun _ => ?_); unfold x; clear x; rotate_left; clear_value x)
    | (extract_lets +onlyGivenNames x; refine Only.cutH x ?_ (fun _ => ?_); unfold x; clear x; rotate_left; clear_value x)
    | (extract_lets +onlyGivenNames x; clear_value x)
    | with_reducible apply Only.ite
    | (with_reducible apply Only.step (adminFail_only ..); exact .of (by decide +kernel))
    | (with_reducible apply Only.step (adminDone_only ..); exact .of (by decide +kernel))
    | (with_reducible apply Only.step (State.updCon_only ..); exact .of (by decide +kernel))
    | with_reducible apply_assumption -exfalso -symm
    | split
    | dsimp only

/-- What `execSetFeaturesNumberOfQueues` may change. -/
theorem execSetFeaturesNumberOfQueues_only (h : AdminHdr) (sv : Bool) (nsqr ncqr : Nat) (s : State) :
    ∃ t,
    execSetFeaturesNumberOfQueues h sv nsqr ncqr s = .next t ∧ Only [.out, .gen, .he, .ctl, .sh, .fs, .mg, .fi, .prov,
    .reg Reg.QE_CQFULL.COUNT, .reg Reg.MG_LOGSTAT.DROPPED, .reg Reg.MG_ERR.LOGDROP, .reg Reg.FI_ARM.ARMED,
    .reg Reg.FI_ARM.DCAUSE, .reg Reg.FI_GF.EN, .reg Reg.FI_FL.EN, .reg Reg.FI_PCIE.EN] s t := by
  unfold execSetFeaturesNumberOfQueues
  refine ⟨_, rfl, ?_⟩
  repeat' first
    | intro _
    | with_reducible assumption
    | with_reducible exact Only.refl _ _
    | (with_reducible apply setFeature_keep; exact .of (by decide +kernel))
    | (with_reducible apply Only.step (setNumQueuesBody_only ..); exact .of (by decide +kernel))
    | with_reducible apply_assumption -exfalso -symm
    | split
    | dsimp only

/-- What `execSetFeaturesInterruptCoalescing` may change. -/
theorem execSetFeaturesInterruptCoalescing_only (h : AdminHdr) (sv : Bool) (thr time : Nat) (s : State) :
    ∃ t,
    execSetFeaturesInterruptCoalescing h sv thr time s = .next t ∧ Only [.out, .gen, .he, .ctl, .sh, .fs, .mg, .fi, .prov,
    .reg Reg.QE_CQFULL.COUNT, .reg Reg.MG_LOGSTAT.DROPPED, .reg Reg.MG_ERR.LOGDROP, .reg Reg.FI_ARM.ARMED,
    .reg Reg.FI_ARM.DCAUSE, .reg Reg.FI_GF.EN, .reg Reg.FI_FL.EN, .reg Reg.FI_PCIE.EN] s t := by
  unfold execSetFeaturesInterruptCoalescing
  refine ⟨_, rfl, ?_⟩
  repeat' first
    | intro _
    | with_reducible assumption
    | with_reducible exact Only.refl _ _
    | (with_reducible apply setFeature_keep; exact .of (by decide +kernel))
    | (with_reducible apply Only.step (adminOk_only ..); exact .of (by decide +kernel))
    | (with_reducible apply Only.step (State.updCon_only ..); exact .of (by decide +kernel))
    | with_reducible apply_assumption -exfalso -symm
    | split
    | dsimp only

/-- What `setVectorBody` may change. -/
theorem setVectorBody_only (h : AdminHdr) (vector : Nat) (disable : Bool) (s : State) :
    Only [.out, .he, .ctl, .fs,
    .reg Reg.QE_CQFULL.COUNT] s (setVectorBody h vector disable s) := by
  unfold setVectorBody
  repeat' first
    | intro _
    | with_reducible assumption
    | with_reducible exact Only.refl _ _
    | with_reducible apply Only.ite
    | (with_reducible apply Only.step (adminFail_only ..); exact .of (by decide +kernel))
    | (with_reducible apply Only.step (adminOk_only ..); exact .of (by decide +kernel))
    | (with_reducible apply Only.step (State.updCon_only ..); exact .of (by decide +kernel))
    | with_reducible apply_assumption -exfalso -symm
    | split
    | dsimp only

/-- What `execSetFeaturesInterruptVectorConfig` may change. -/
theorem execSetFeaturesInterruptVectorConfig_only (h : AdminHdr) (sv : Bool) (vector : Nat) (disable : Bool) (s : State) :
    ∃ t,
    execSetFeaturesInterruptVectorConfig h sv vector disable s = .next t ∧ Only [.out, .gen, .he, .ctl, .sh, .fs, .mg, .fi,
    .prov, .reg Reg.QE_CQFULL.COUNT, .reg Reg.MG_LOGSTAT.DROPPED, .reg Reg.MG_ERR.LOGDROP, .reg Reg.FI_ARM.ARMED,
    .reg Reg.FI_ARM.DCAUSE, .reg Reg.FI_GF.EN, .reg Reg.FI_FL.EN, .reg Reg.FI_PCIE.EN] s t := by
  unfold execSetFeaturesInterruptVectorConfig
  refine ⟨_, rfl, ?_⟩
  repeat' first
    | intro _
    | with_reducible assumption
    | with_reducible exact Only.refl _ _
    | (with_reducible apply setFeature_keep; exact .of (by decide +kernel))
    | (with_reducible apply Only.step (setVectorBody_only ..); exact .of (by decide +kernel))
    | with_reducible apply_assumption -exfalso -symm
    | split
    | dsimp only

/-- What `execSetFeaturesAsyncEventConfig` may change. -/
theorem execSetFeaturesAsyncEventConfig_only (h : AdminHdr) (sv : Bool) (dw11 : Word) (s : State) :
    ∃ t,
    execSetFeaturesAsyncEventConfig h sv dw11 s = .next t ∧ Only [.out, .gen, .he, .ctl, .sh, .fs, .mg, .fi, .prov,
    .reg Reg.QE_CQFULL.COUNT, .reg Reg.MG_LOGSTAT.DROPPED, .reg Reg.MG_ERR.LOGDROP, .reg Reg.FI_ARM.ARMED,
    .reg Reg.FI_ARM.DCAUSE, .reg Reg.FI_GF.EN, .reg Reg.FI_FL.EN, .reg Reg.FI_PCIE.EN] s t := by
  unfold execSetFeaturesAsyncEventConfig
  refine ⟨_, rfl, ?_⟩
  repeat' first
    | intro _
    | with_reducible assumption
    | with_reducible exact Only.refl _ _
    | (with_reducible apply setFeature_keep; exact .of (by decide +kernel))
    | (with_reducible apply Only.step (adminOk_only ..); exact .of (by decide +kernel))
    | (with_reducible apply Only.step (State.updCon_only ..); exact .of (by decide +kernel))
    | with_reducible apply_assumption -exfalso -symm
    | split
    | dsimp only

/-- What `setClassesBody` may change. -/
theorem setClassesBody_only (h : AdminHdr) (mask : BitVec 8) (reservedMask : Bool) (entries : List (List Nat)) (s : State) :
    Only [.out,
    .he, .ctl, .sh, .fs, .bp, .gf, .mg, .fi, .reg Reg.HE_WINLOG.COUNT, .reg Reg.HE_WINLOG.CAUSE, .reg Reg.HE_WINLOG.PORT,
    .reg Reg.HE_WINLOGLO.OFFSET, .reg Reg.HE_WINLOGHI.OFFSET, .reg Reg.HE_WINLOGHI.RID, .reg Reg.QE_CQFULL.COUNT,
    .reg Reg.BP_ERRBUF.INDEX, .reg Reg.BP_ERRBUF.OWNER, .reg Reg.BP_ERRBUF.CAUSE, .reg Reg.BP_ERR.REVOKE,
    .reg Reg.GF_XFER.FAILED, .reg Reg.GF_ERR.XFERFAIL, .reg Reg.MG_LOGSTAT.DROPPED, .reg Reg.MG_ERR.LOGDROP,
    .reg Reg.FI_CNT.INJECTED] s (setClassesBody h mask reservedMask entries s) := by
  unfold setClassesBody
  repeat' first
    | intro _
    | with_reducible assumption
    | with_reducible exact Only.refl _ _
    | (extract_lets +onlyGivenNames x; refine Only.cut x ?_ (fun _ => ?_); unfold x; clear x; rotate_left; clear_value x)
    | (extract_lets +onlyGivenNames x; refine Only.cut2 x ?_ (fun _ => ?_); unfold x; clear x; rotate_left; clear_value x)
    | (extract_lets +onlyGivenNames x; refine Only.cutF x ?_ (fun _ => ?_); unfold x; clear x; rotate_left; clear_value x)
    | (extract_lets +onlyGivenNames x; refine Only.cutG x ?_ (fun _ => ?_); unfold x; clear x; rotate_left; clear_value x)
    | (extract_lets +onlyGivenNames x; refine Only.cutG2 x ?_ (fun _ => ?_); unfold x; clear x; rotate_left; clear_value x)
    | (extract_lets +onlyGivenNames x; refine Only.cutG3 x ?_ (fun _ => ?_); unfold x; clear x; rotate_left; clear_value x)
    | (extract_lets +onlyGivenNames x; refine Only.cutH x ?_ (fun _ => ?_); unfold x; clear x; rotate_left; clear_value x)
    | (extract_lets +onlyGivenNames x; clear_value x)
    | with_reducible apply Only.ite
    | fail_if_no_progress (with_reducible apply Only.upd_sh; decide +kernel)
    | (with_reducible apply Only.step (adminFail_only ..); exact .of (by decide +kernel))
    | (with_reducible apply withData_keep; exact .of (by decide +kernel))
    | (with_reducible apply Only.step (mirror_only ..); exact .of (by decide +kernel))
    | (with_reducible apply Only.step (adminOk_only ..); exact .of (by decide +kernel))
    | with_reducible apply_assumption -exfalso -symm
    | split
    | dsimp only

/-- What `execSetFeaturesLatencyClassTable` may change. -/
theorem execSetFeaturesLatencyClassTable_only (h : AdminHdr) (sv : Bool) (mask : BitVec 8) (reservedMask : Bool) (entries : List (List Nat)) (s : State) :
    ∃ t,
    execSetFeaturesLatencyClassTable h sv mask reservedMask entries s = .next t ∧ Only (List.append [.out, .gen, .he, .ctl, .sh,
    .fs, .bp, .gf, .mg, .fi, .prov, .reg Reg.HE_WINLOG.COUNT, .reg Reg.HE_WINLOG.CAUSE, .reg Reg.HE_WINLOG.PORT,
    .reg Reg.HE_WINLOGLO.OFFSET, .reg Reg.HE_WINLOGHI.OFFSET, .reg Reg.HE_WINLOGHI.RID, .reg Reg.QE_CQFULL.COUNT,
    .reg Reg.BP_ERRBUF.INDEX, .reg Reg.BP_ERRBUF.OWNER, .reg Reg.BP_ERRBUF.CAUSE, .reg Reg.BP_ERR.REVOKE,
    .reg Reg.GF_XFER.FAILED, .reg Reg.GF_ERR.XFERFAIL, .reg Reg.MG_LOGSTAT.DROPPED, .reg Reg.MG_ERR.LOGDROP,
    .reg Reg.FI_ARM.ARMED, .reg Reg.FI_ARM.DCAUSE, .reg Reg.FI_GF.EN, .reg Reg.FI_FL.EN] [.reg Reg.FI_PCIE.EN,
    .reg Reg.FI_CNT.INJECTED]) s t := by
  unfold execSetFeaturesLatencyClassTable
  refine ⟨_, rfl, ?_⟩
  repeat' first
    | intro _
    | with_reducible assumption
    | with_reducible exact Only.refl _ _
    | (with_reducible apply setFeature_keep; exact .of (by decide +kernel))
    | (with_reducible apply Only.step (setClassesBody_only ..); exact .of (by decide +kernel))
    | with_reducible apply_assumption -exfalso -symm
    | split
    | dsimp only

/-- What `setBindingBody` may change. -/
theorem setBindingBody_only (h : AdminHdr) (sqid cls : Nat) (s : State) :
    Only [.out, .he, .ctl, .fs,
    .reg Reg.QE_CQFULL.COUNT] s (setBindingBody h sqid cls s) := by
  unfold setBindingBody
  repeat' first
    | intro _
    | with_reducible assumption
    | with_reducible exact Only.refl _ _
    | with_reducible apply Only.ite
    | (with_reducible apply Only.step (adminFail_only ..); exact .of (by decide +kernel))
    | (with_reducible apply Only.step (adminOk_only ..); exact .of (by decide +kernel))
    | (with_reducible apply Only.step (updSq_only ..); exact .of (by decide +kernel))
    | with_reducible apply_assumption -exfalso -symm
    | split
    | dsimp only

/-- What `execSetFeaturesQueueLatencyBinding` may change. -/
theorem execSetFeaturesQueueLatencyBinding_only (h : AdminHdr) (sv : Bool) (sqid cls : Nat) (s : State) :
    ∃ t,
    execSetFeaturesQueueLatencyBinding h sv sqid cls s = .next t ∧ Only [.out, .gen, .he, .ctl, .sh, .fs, .mg, .fi, .prov,
    .reg Reg.QE_CQFULL.COUNT, .reg Reg.MG_LOGSTAT.DROPPED, .reg Reg.MG_ERR.LOGDROP, .reg Reg.FI_ARM.ARMED,
    .reg Reg.FI_ARM.DCAUSE, .reg Reg.FI_GF.EN, .reg Reg.FI_FL.EN, .reg Reg.FI_PCIE.EN] s t := by
  unfold execSetFeaturesQueueLatencyBinding
  refine ⟨_, rfl, ?_⟩
  repeat' first
    | intro _
    | with_reducible assumption
    | with_reducible exact Only.refl _ _
    | (with_reducible apply setFeature_keep; exact .of (by decide +kernel))
    | (with_reducible apply Only.step (setBindingBody_only ..); exact .of (by decide +kernel))
    | with_reducible apply_assumption -exfalso -symm
    | split
    | dsimp only

/-- What `execSetFeaturesWriteCacheProtection` may change. -/
theorem execSetFeaturesWriteCacheProtection_only (h : AdminHdr) (sv : Bool) (s : State) :
    ∃ t,
    execSetFeaturesWriteCacheProtection h sv s = .next t ∧ Only [.out, .gen, .he, .ctl, .sh, .fs, .mg, .fi, .prov,
    .reg Reg.QE_CQFULL.COUNT, .reg Reg.MG_LOGSTAT.DROPPED, .reg Reg.MG_ERR.LOGDROP, .reg Reg.FI_ARM.ARMED,
    .reg Reg.FI_ARM.DCAUSE, .reg Reg.FI_GF.EN, .reg Reg.FI_FL.EN, .reg Reg.FI_PCIE.EN] s t := by
  unfold execSetFeaturesWriteCacheProtection
  refine ⟨_, rfl, ?_⟩
  repeat' first
    | intro _
    | with_reducible assumption
    | with_reducible exact Only.refl _ _
    | (with_reducible apply setFeature_keep; exact .of (by decide +kernel))
    | (with_reducible apply Only.step (adminFail_only ..); exact .of (by decide +kernel))
    | with_reducible apply_assumption -exfalso -symm
    | split
    | dsimp only

/-- What `getFeaturesBody` may change. -/
theorem getFeaturesBody_only (h : AdminHdr) (fid sel : Nat) (dw11 : Word) (s : State) :
    Only [.out, .he, .ctl, .sh, .fs,
    .me, .reg Reg.QE_CQFULL.COUNT, .reg Reg.ME_MERGE.EVICT] s (getFeaturesBody h fid sel dw11 s) := by
  unfold getFeaturesBody
  repeat' first
    | intro _
    | with_reducible assumption
    | with_reducible exact Only.refl _ _
    | with_reducible apply Only.ite
    | fail_if_no_progress (with_reducible apply Only.upd_sh; decide +kernel)
    | (with_reducible apply Only.step (adminFail_only ..); exact .of (by decide +kernel))
    | (with_reducible apply Only.step (adminPage_only ..); exact .of (by decide +kernel))
    | (with_reducible apply Only.step (adminDone_only ..); exact .of (by decide +kernel))
    | with_reducible apply_assumption -exfalso -symm
    | split
    | dsimp only

/-- What `execGetFeatures` may change. -/
theorem execGetFeatures_only (h : AdminHdr) (fid sel : Nat) (dw11 : Word) (s : State) :
    ∃ t,
    execGetFeatures h fid sel dw11 s = .next t ∧ Only [.out, .gen, .he, .ctl, .sh, .fs, .me, .mg, .fi, .prov,
    .reg Reg.QE_CQFULL.COUNT, .reg Reg.ME_MERGE.EVICT, .reg Reg.MG_LOGSTAT.DROPPED, .reg Reg.MG_ERR.LOGDROP,
    .reg Reg.FI_ARM.ARMED, .reg Reg.FI_ARM.DCAUSE, .reg Reg.FI_GF.EN, .reg Reg.FI_FL.EN, .reg Reg.FI_PCIE.EN] s t := by
  unfold execGetFeatures
  refine ⟨_, rfl, ?_⟩
  repeat' first
    | intro _
    | with_reducible assumption
    | with_reducible exact Only.refl _ _
    | (with_reducible apply adminCmd_keep; exact .of (by decide +kernel))
    | (with_reducible apply Only.step (getFeaturesBody_only ..); exact .of (by decide +kernel))
    | with_reducible apply_assumption -exfalso -symm
    | split
    | dsimp only

end Sys2Proof.Machine
end

