-- ==== Sys2Proof/Laws/FrameFretOps.lean ====
section
/-! SUPPORT. What each operation of Machine/FretOps.lean may change, as `Only` states it: one lemma an operation, which later proofs cite
instead of unfolding it. -/
namespace Sys2Proof.Machine
set_option Elab.async false
set_option linter.all false

/-- What `book` may change. -/
theorem book_only (b : Booking) (s : State) :
    Only [.fs] s (book b s) := by
  unfold book
  repeat' first
    | intro _
    | with_reducible assumption
    | with_reducible exact Only.refl _ _
    | fail_if_no_progress (with_reducible apply Only.upd_fs; decide +kernel)
    | with_reducible apply_assumption -exfalso -symm
    | split
    | dsimp only

/-- What `placeLink` may change. -/
theorem placeLink_only (p : Port) (toHost : Bool) (cmd cls deadline : Nat) (m : Nat) :
    ∀ (f : Nat) (bytes : Nat) (s : State),
    Only [.fs] s (placeLink p toHost cmd cls deadline m f bytes s).2 := by
  induction m with
  | zero =>
    intros; unfold placeLink
    repeat' first
      | intro _
      | with_reducible assumption
      | with_reducible exact Only.refl _ _
      | (extract_lets +onlyGivenNames x; refine Only.cut x ?_ (fun _ => ?_); unfold x; clear x; rotate_left; clear_value x)
      | (extract_lets +onlyGivenNames x; refine Only.cut2 x ?_ (fun _ => ?_); unfold x; clear x; rotate_left; clear_value x)
      | (extract_lets +onlyGivenNames x; refine Only.cut3 x ?_ (fun _ => ?_); unfold x; clear x; rotate_left; clear_value x)
      | (extract_lets +onlyGivenNames x; clear_value x)
      | with_reducible apply Only.ite
      | (with_reducible apply Only.step (book_only ..); exact .of (by decide +kernel))
      | with_reducible apply_assumption -exfalso -symm
      | split
      | dsimp only
  | succ m ih =>
    intros; unfold placeLink
    repeat' first
      | intro _
      | with_reducible assumption
      | with_reducible exact Only.refl _ _
      | (extract_lets +onlyGivenNames x; refine Only.cut x ?_ (fun _ => ?_); unfold x; clear x; rotate_left; clear_value x)
      | (extract_lets +onlyGivenNames x; refine Only.cut2 x ?_ (fun _ => ?_); unfold x; clear x; rotate_left; clear_value x)
      | (extract_lets +onlyGivenNames x; refine Only.cut3 x ?_ (fun _ => ?_); unfold x; clear x; rotate_left; clear_value x)
      | (extract_lets +onlyGivenNames x; clear_value x)
      | with_reducible apply Only.ite
      | (with_reducible apply Only.step (book_only ..); exact .of (by decide +kernel))
      | with_reducible refine Only.trans ?_ (ih _ _ _)
      | with_reducible refine Only.trans ?_ (Only.of_eq2 ‹_› (ih _ _ _))
      | with_reducible apply_assumption -exfalso -symm
      | split
      | dsimp only

/-- What `bookRound` may change. -/
theorem bookRound_only (d f len n cw cmd cls deadline : Nat) (s : State) :
    Only [.fs] s (bookRound d f len n cw cmd cls deadline s).2 := by
  unfold bookRound
  repeat' first
    | intro _
    | with_reducible assumption
    | with_reducible exact Only.refl _ _
    | (extract_lets +onlyGivenNames x; refine Only.cut x ?_ (fun _ => ?_); unfold x; clear x; rotate_left; clear_value x)
    | (extract_lets +onlyGivenNames x; refine Only.cut2 x ?_ (fun _ => ?_); unfold x; clear x; rotate_left; clear_value x)
    | (extract_lets +onlyGivenNames x; clear_value x)
    | fail_if_no_progress (with_reducible apply Only.upd_fs; decide +kernel)
    | (with_reducible apply Only.step (book_only ..); exact .of (by decide +kernel))
    | with_reducible apply_assumption -exfalso -symm
    | split
    | dsimp only

/-- What `bookReads` may change. -/
theorem bookReads_only (cmd cls deadline f : Nat) (m : List PageRead) :
    ∀ (s : State),
    Only [.fs] s (bookReads cmd cls deadline f m s).2 := by
  induction m with
  | nil =>
    intros; unfold bookReads
    repeat' first
      | intro _
      | with_reducible assumption
      | with_reducible exact Only.refl _ _
      | (extract_lets +onlyGivenNames x; refine Only.cut x ?_ (fun _ => ?_); unfold x; clear x; rotate_left; clear_value x)
      | (extract_lets +onlyGivenNames x; refine Only.cut2 x ?_ (fun _ => ?_); unfold x; clear x; rotate_left; clear_value x)
      | (extract_lets +onlyGivenNames x; refine Only.cut3 x ?_ (fun _ => ?_); unfold x; clear x; rotate_left; clear_value x)
      | (extract_lets +onlyGivenNames x; refine Only.cutF x ?_ (fun _ => ?_); unfold x; clear x; rotate_left; clear_value x)
      | (extract_lets +onlyGivenNames x; refine Only.cutG x ?_ (fun _ => ?_); unfold x; clear x; rotate_left; clear_value x)
      | (extract_lets +onlyGivenNames x; refine Only.cutP x ?_ (fun _ => ?_); unfold x; clear x; rotate_left; clear_value x)
      | (extract_lets +onlyGivenNames x; refine Only.cutG2 x ?_ (fun _ => ?_); unfold x; clear x; rotate_left; clear_value x)
      | (extract_lets +onlyGivenNames x; refine Only.cutG3 x ?_ (fun _ => ?_); unfold x; clear x; rotate_left; clear_value x)
      | (extract_lets +onlyGivenNames x; refine Only.cutH x ?_ (fun _ => ?_); unfold x; clear x; rotate_left; clear_value x)
      | (extract_lets +onlyGivenNames x; clear_value x)
      | (with_reducible apply Only.step (bookRound_only ..); exact .of (by decide +kernel))
      | with_reducible refine Only.step (Only.of_eq2 ‹_› (bookRound_only ..)) (.of (by decide +kernel)) ?_
      | with_reducible refine Only.step (Only.of_eq3 ‹_› (bookRound_only ..)) (.of (by decide +kernel)) ?_
      | with_reducible refine Only.foldl (fun _ _ _ => ?_) ?_
      | with_reducible refine Only.foldl2 (fun _ _ _ => ?_) ?_
      | with_reducible apply_assumption -exfalso -symm
      | split
      | dsimp only
  | cons b m ih =>
    intros; unfold bookReads
    repeat' first
      | intro _
      | with_reducible assumption
      | with_reducible exact Only.refl _ _
      | (extract_lets +onlyGivenNames x; refine Only.cut x ?_ (fun _ => ?_); unfold x; clear x; rotate_left; clear_value x)
      | (extract_lets +onlyGivenNames x; refine Only.cut2 x ?_ (fun _ => ?_); unfold x; clear x; rotate_left; clear_value x)
      | (extract_lets +onlyGivenNames x; refine Only.cut3 x ?_ (fun _ => ?_); unfold x; clear x; rotate_left; clear_value x)
      | (extract_lets +onlyGivenNames x; refine Only.cutF x ?_ (fun _ => ?_); unfold x; clear x; rotate_left; clear_value x)
      | (extract_lets +onlyGivenNames x; refine Only.cutG x ?_ (fun _ => ?_); unfold x; clear x; rotate_left; clear_value x)
      | (extract_lets +onlyGivenNames x; refine Only.cutP x ?_ (fun _ => ?_); unfold x; clear x; rotate_left; clear_value x)
      | (extract_lets +onlyGivenNames x; refine Only.cutG2 x ?_ (fun _ => ?_); unfold x; clear x; rotate_left; clear_value x)
      | (extract_lets +onlyGivenNames x; refine Only.cutG3 x ?_ (fun _ => ?_); unfold x; clear x; rotate_left; clear_value x)
      | (extract_lets +onlyGivenNames x; refine Only.cutH x ?_ (fun _ => ?_); unfold x; clear x; rotate_left; clear_value x)
      | (extract_lets +onlyGivenNames x; clear_value x)
      | (with_reducible apply Only.step (bookRound_only ..); exact .of (by decide +kernel))
      | with_reducible refine Only.step (Only.of_eq2 ‹_› (bookRound_only ..)) (.of (by decide +kernel)) ?_
      | with_reducible refine Only.step (Only.of_eq3 ‹_› (bookRound_only ..)) (.of (by decide +kernel)) ?_
      | with_reducible refine Only.trans ?_ (ih _)
      | with_reducible refine Only.trans ?_ (Only.of_eq2 ‹_› (ih _))
      | with_reducible refine Only.foldl (fun _ _ _ => ?_) ?_
      | with_reducible refine Only.foldl2 (fun _ _ _ => ?_) ?_
      | with_reducible apply_assumption -exfalso -symm
      | split
      | dsimp only

/-- What `bookVatFrets` may change. -/
theorem bookVatFrets_only (cmd cls deadline f bytes : Nat) (s : State) :
    Only [.fs] s (bookVatFrets cmd cls deadline f bytes s).2 := by
  unfold bookVatFrets
  repeat' first
    | intro _
    | with_reducible assumption
    | with_reducible exact Only.refl _ _
    | (extract_lets +onlyGivenNames x; refine Only.cut x ?_ (fun _ => ?_); unfold x; clear x; rotate_left; clear_value x)
    | (extract_lets +onlyGivenNames x; refine Only.cut2 x ?_ (fun _ => ?_); unfold x; clear x; rotate_left; clear_value x)
    | (extract_lets +onlyGivenNames x; refine Only.cut3 x ?_ (fun _ => ?_); unfold x; clear x; rotate_left; clear_value x)
    | (extract_lets +onlyGivenNames x; refine Only.cutF x ?_ (fun _ => ?_); unfold x; clear x; rotate_left; clear_value x)
    | (extract_lets +onlyGivenNames x; refine Only.cutG x ?_ (fun _ => ?_); unfold x; clear x; rotate_left; clear_value x)
    | (extract_lets +onlyGivenNames x; refine Only.cutP x ?_ (fun _ => ?_); unfold x; clear x; rotate_left; clear_value x)
    | (extract_lets +onlyGivenNames x; refine Only.cutG2 x ?_ (fun _ => ?_); unfold x; clear x; rotate_left; clear_value x)
    | (extract_lets +onlyGivenNames x; refine Only.cutG3 x ?_ (fun _ => ?_); unfold x; clear x; rotate_left; clear_value x)
    | (extract_lets +onlyGivenNames x; refine Only.cutH x ?_ (fun _ => ?_); unfold x; clear x; rotate_left; clear_value x)
    | (extract_lets +onlyGivenNames x; clear_value x)
    | (with_reducible apply Only.step (book_only ..); exact .of (by decide +kernel))
    | with_reducible refine Only.foldl (fun _ _ _ => ?_) ?_
    | with_reducible refine Only.foldl2 (fun _ _ _ => ?_) ?_
    | with_reducible apply_assumption -exfalso -symm
    | split
    | dsimp only

/-- What `unbook` may change. -/
theorem unbook_only (id : Nat) (s : State) :
    Only [.fs] s (unbook id s) := by
  unfold unbook
  repeat' first
    | intro _
    | with_reducible assumption
    | with_reducible exact Only.refl _ _
    | fail_if_no_progress (with_reducible apply Only.upd_fs; decide +kernel)
    | with_reducible apply_assumption -exfalso -symm
    | split
    | dsimp only

/-- What `trimFrets` may change. -/
theorem trimFrets_only (s : State) :
    Only [.fs] s (trimFrets s) := by
  unfold trimFrets
  repeat' first
    | intro _
    | with_reducible assumption
    | with_reducible exact Only.refl _ _
    | (extract_lets +onlyGivenNames x; refine Only.cut x ?_ (fun _ => ?_); unfold x; clear x; rotate_left; clear_value x)
    | (extract_lets +onlyGivenNames x; refine Only.cut2 x ?_ (fun _ => ?_); unfold x; clear x; rotate_left; clear_value x)
    | (extract_lets +onlyGivenNames x; refine Only.cutF x ?_ (fun _ => ?_); unfold x; clear x; rotate_left; clear_value x)
    | (extract_lets +onlyGivenNames x; refine Only.cutG x ?_ (fun _ => ?_); unfold x; clear x; rotate_left; clear_value x)
    | (extract_lets +onlyGivenNames x; refine Only.cutG2 x ?_ (fun _ => ?_); unfold x; clear x; rotate_left; clear_value x)
    | (extract_lets +onlyGivenNames x; refine Only.cutG3 x ?_ (fun _ => ?_); unfold x; clear x; rotate_left; clear_value x)
    | (extract_lets +onlyGivenNames x; refine Only.cutH x ?_ (fun _ => ?_); unfold x; clear x; rotate_left; clear_value x)
    | (extract_lets +onlyGivenNames x; clear_value x)
    | fail_if_no_progress (with_reducible apply Only.upd_fs; decide +kernel)
    | with_reducible apply_assumption -exfalso -symm
    | split
    | dsimp only

end Sys2Proof.Machine
end

