-- ==== Sys2Proof/Laws/FrameAdmit.lean ====
section
/-! SUPPORT. What each operation of Machine/Admit.lean may change, as `Only` states it: one lemma an operation, which later proofs cite
instead of unfolding it. -/
namespace Sys2Proof.Machine
set_option Elab.async false
set_option linter.all false

/-- What `grantBufs` may change. -/
theorem grantBufs_only (c : IoCmd) (bytes : Nat) (s : State) :
    Only [.bp, .reg Reg.BP_ERRBUF.INDEX,
    .reg Reg.BP_ERRBUF.OWNER, .reg Reg.BP_ERRBUF.CAUSE, .reg Reg.BP_ERR.REVOKE] s (grantBufs c bytes s).2 := by
  unfold grantBufs
  repeat' first
    | intro _
    | with_reducible assumption
    | with_reducible exact Only.refl _ _
    | (extract_lets +onlyGivenNames x; refine Only.cut x ?_ (fun _ => ?_); unfold x; clear x; rotate_left; clear_value x)
    | (extract_lets +onlyGivenNames x; refine Only.cut2 x ?_ (fun _ => ?_); unfold x; clear x; rotate_left; clear_value x)
    | (extract_lets +onlyGivenNames x; refine Only.cut3 x ?_ (fun _ => ?_); unfold x; clear x; rotate_left; clear_value x)
    | (extract_lets +onlyGivenNames x; clear_value x)
    | with_reducible apply Only.ite
    | (with_reducible apply Only.step (bpAlloc_only ..); exact .of (by decide +kernel))
    | with_reducible refine Only.step (Only.of_eq2 ‹_› (bpAlloc_only ..)) (.of (by decide +kernel)) ?_
    | with_reducible refine Only.step (Only.of_eq3 ‹_› (bpAlloc_only ..)) (.of (by decide +kernel)) ?_
    | with_reducible apply_assumption -exfalso -symm
    | split
    | dsimp only

/-- What `cacheTouch` may change. -/
theorem cacheTouch_only (nsid page : Nat) (s : State) :
    Only [.mx,
    .reg Reg.MX_PGMISS.COUNT] s (cacheTouch nsid page s) := by
  unfold cacheTouch
  repeat' first
    | intro _
    | with_reducible assumption
    | with_reducible exact Only.refl _ _
    | (extract_lets +onlyGivenNames x; refine Only.cut x ?_ (fun _ => ?_); unfold x; clear x; rotate_left; clear_value x)
    | (extract_lets +onlyGivenNames x; refine Only.cut2 x ?_ (fun _ => ?_); unfold x; clear x; rotate_left; clear_value x)
    | (extract_lets +onlyGivenNames x; refine Only.cutF x ?_ (fun _ => ?_); unfold x; clear x; rotate_left; clear_value x)
    | (extract_lets +onlyGivenNames x; refine Only.cutG x ?_ (fun _ => ?_); unfold x; clear x; rotate_left; clear_value x)
    | (extract_lets +onlyGivenNames x; refine Only.cutP x ?_ (fun _ => ?_); unfold x; clear x; rotate_left; clear_value x)
    | (extract_lets +onlyGivenNames x; refine Only.cutG2 x ?_ (fun _ => ?_); unfold x; clear x; rotate_left; clear_value x)
    | (extract_lets +onlyGivenNames x; refine Only.cutG3 x ?_ (fun _ => ?_); unfold x; clear x; rotate_left; clear_value x)
    | (extract_lets +onlyGivenNames x; refine Only.cutH x ?_ (fun _ => ?_); unfold x; clear x; rotate_left; clear_value x)
    | (extract_lets +onlyGivenNames x; clear_value x)
    | with_reducible apply Only.ite
    | fail_if_no_progress (with_reducible apply Only.upd_mx; decide +kernel)
    | (with_reducible apply Only.step (bump_only ..); exact .of (by decide +kernel))
    | with_reducible apply_assumption -exfalso -symm
    | split
    | dsimp only

/-- What `openFixity` may change. -/
theorem openFixity_only (c : IoCmd) (bytes : Nat) (s : State) :
    Only [.bp, .dg, .reg Reg.BP_ERRBUF.INDEX,
    .reg Reg.BP_ERRBUF.OWNER, .reg Reg.BP_ERRBUF.CAUSE, .reg Reg.BP_ERR.REVOKE] s (openFixity c bytes s) := by
  unfold openFixity
  repeat' first
    | intro _
    | with_reducible assumption
    | with_reducible exact Only.refl _ _
    | (extract_lets +onlyGivenNames x; refine Only.cut x ?_ (fun _ => ?_); unfold x; clear x; rotate_left; clear_value x)
    | (extract_lets +onlyGivenNames x; refine Only.cut2 x ?_ (fun _ => ?_); unfold x; clear x; rotate_left; clear_value x)
    | (extract_lets +onlyGivenNames x; refine Only.cutF x ?_ (fun _ => ?_); unfold x; clear x; rotate_left; clear_value x)
    | (extract_lets +onlyGivenNames x; refine Only.cutG x ?_ (fun _ => ?_); unfold x; clear x; rotate_left; clear_value x)
    | (extract_lets +onlyGivenNames x; refine Only.cutG2 x ?_ (fun _ => ?_); unfold x; clear x; rotate_left; clear_value x)
    | (extract_lets +onlyGivenNames x; refine Only.cutG3 x ?_ (fun _ => ?_); unfold x; clear x; rotate_left; clear_value x)
    | (extract_lets +onlyGivenNames x; refine Only.cutH x ?_ (fun _ => ?_); unfold x; clear x; rotate_left; clear_value x)
    | (extract_lets +onlyGivenNames x; clear_value x)
    | with_reducible apply Only.ite
    | fail_if_no_progress (with_reducible apply Only.upd_dg; decide +kernel)
    | (with_reducible apply Only.step (updCtx_only ..); exact .of (by decide +kernel))
    | (with_reducible apply Only.step (fitSlots_only ..); exact .of (by decide +kernel))
    | with_reducible apply_assumption -exfalso -symm
    | split
    | dsimp only

/-- What `planCommit` may change. -/
theorem planCommit_only (c : IoCmd) (bytes f : Nat) (s : State) :
    Only [.fs] s (planCommit c bytes f s).2 := by
  unfold planCommit
  repeat' first
    | intro _
    | with_reducible assumption
    | with_reducible exact Only.refl _ _
    | (extract_lets +onlyGivenNames x; refine Only.cut x ?_ (fun _ => ?_); unfold x; clear x; rotate_left; clear_value x)
    | (extract_lets +onlyGivenNames x; refine Only.cut2 x ?_ (fun _ => ?_); unfold x; clear x; rotate_left; clear_value x)
    | (extract_lets +onlyGivenNames x; refine Only.cut3 x ?_ (fun _ => ?_); unfold x; clear x; rotate_left; clear_value x)
    | (extract_lets +onlyGivenNames x; clear_value x)
    | with_reducible apply Only.ite
    | (with_reducible apply Only.step (bookVatFrets_only ..); exact .of (by decide +kernel))
    | with_reducible refine Only.step (Only.of_eq2 ‹_› (bookVatFrets_only ..)) (.of (by decide +kernel)) ?_
    | with_reducible refine Only.step (Only.of_eq3 ‹_› (bookVatFrets_only ..)) (.of (by decide +kernel)) ?_
    | with_reducible apply_assumption -exfalso -symm
    | split
    | dsimp only

/-- What `planMedia` may change. -/
theorem planMedia_only (c : IoCmd) (f0 : Nat) (pages : Bool) (s : State) :
    Only [.fs] s (planMedia c f0 pages s).2.2 := by
  unfold planMedia
  repeat' first
    | intro _
    | with_reducible assumption
    | with_reducible exact Only.refl _ _
    | (extract_lets +onlyGivenNames x; refine Only.cut x ?_ (fun _ => ?_); unfold x; clear x; rotate_left; clear_value x)
    | (extract_lets +onlyGivenNames x; refine Only.cut2 x ?_ (fun _ => ?_); unfold x; clear x; rotate_left; clear_value x)
    | (extract_lets +onlyGivenNames x; refine Only.cut3 x ?_ (fun _ => ?_); unfold x; clear x; rotate_left; clear_value x)
    | (extract_lets +onlyGivenNames x; clear_value x)
    | with_reducible apply Only.ite
    | (with_reducible apply Only.step (bookReads_only ..); exact .of (by decide +kernel))
    | with_reducible refine Only.step (Only.of_eq2 ‹_› (bookReads_only ..)) (.of (by decide +kernel)) ?_
    | with_reducible refine Only.step (Only.of_eq3 ‹_› (bookReads_only ..)) (.of (by decide +kernel)) ?_
    | with_reducible apply_assumption -exfalso -symm
    | split
    | dsimp only

/-- What `planMerge` may change. -/
theorem planMerge_only (n : Ns) (c : IoCmd) (bytes f : Nat) (s : State) :
    Only [.fs] s (planMerge n c bytes f s).2 := by
  unfold planMerge
  repeat' first
    | intro _
    | with_reducible assumption
    | with_reducible exact Only.refl _ _
    | (extract_lets +onlyGivenNames x; refine Only.cut x ?_ (fun _ => ?_); unfold x; clear x; rotate_left; clear_value x)
    | (extract_lets +onlyGivenNames x; refine Only.cut2 x ?_ (fun _ => ?_); unfold x; clear x; rotate_left; clear_value x)
    | (extract_lets +onlyGivenNames x; refine Only.cut3 x ?_ (fun _ => ?_); unfold x; clear x; rotate_left; clear_value x)
    | (extract_lets +onlyGivenNames x; refine Only.cutF x ?_ (fun _ => ?_); unfold x; clear x; rotate_left; clear_value x)
    | (extract_lets +onlyGivenNames x; refine Only.cutG x ?_ (fun _ => ?_); unfold x; clear x; rotate_left; clear_value x)
    | (extract_lets +onlyGivenNames x; refine Only.cutP x ?_ (fun _ => ?_); unfold x; clear x; rotate_left; clear_value x)
    | (extract_lets +onlyGivenNames x; refine Only.cutG2 x ?_ (fun _ => ?_); unfold x; clear x; rotate_left; clear_value x)
    | (extract_lets +onlyGivenNames x; refine Only.cutG3 x ?_ (fun _ => ?_); unfold x; clear x; rotate_left; clear_value x)
    | (extract_lets +onlyGivenNames x; refine Only.cutH x ?_ (fun _ => ?_); unfold x; clear x; rotate_left; clear_value x)
    | (extract_lets +onlyGivenNames x; clear_value x)
    | (with_reducible apply Only.step (bookReads_only ..); exact .of (by decide +kernel))
    | with_reducible refine Only.step (Only.of_eq2 ‹_› (bookReads_only ..)) (.of (by decide +kernel)) ?_
    | with_reducible refine Only.step (Only.of_eq3 ‹_› (bookReads_only ..)) (.of (by decide +kernel)) ?_
    | (with_reducible apply Only.step (planCommit_only ..); exact .of (by decide +kernel))
    | with_reducible refine Only.step (Only.of_eq2 ‹_› (planCommit_only ..)) (.of (by decide +kernel)) ?_
    | with_reducible refine Only.step (Only.of_eq3 ‹_› (planCommit_only ..)) (.of (by decide +kernel)) ?_
    | with_reducible apply_assumption -exfalso -symm
    | split
    | dsimp only

/-- What `planIo` may change. -/
theorem planIo_only (n : Ns) (c : IoCmd) (bytes : Nat) (pages : Bool) (s : State) :
    Only [.fs] s (planIo n c bytes pages s).2 := by
  unfold planIo
  repeat' first
    | intro _
    | with_reducible assumption
    | with_reducible exact Only.refl _ _
    | (extract_lets +onlyGivenNames x; refine Only.cut x ?_ (fun _ => ?_); unfold x; clear x; rotate_left; clear_value x)
    | (extract_lets +onlyGivenNames x; refine Only.cut2 x ?_ (fun _ => ?_); unfold x; clear x; rotate_left; clear_value x)
    | (extract_lets +onlyGivenNames x; refine Only.cut3 x ?_ (fun _ => ?_); unfold x; clear x; rotate_left; clear_value x)
    | (extract_lets +onlyGivenNames x; clear_value x)
    | with_reducible apply Only.ite
    | (with_reducible apply Only.step (planMedia_only ..); exact .of (by decide +kernel))
    | with_reducible refine Only.step (Only.of_eq2 ‹_› (planMedia_only ..)) (.of (by decide +kernel)) ?_
    | with_reducible refine Only.step (Only.of_eq3 ‹_› (planMedia_only ..)) (.of (by decide +kernel)) ?_
    | (with_reducible apply Only.step (placeLink_only ..); exact .of (by decide +kernel))
    | with_reducible refine Only.step (Only.of_eq2 ‹_› (placeLink_only ..)) (.of (by decide +kernel)) ?_
    | with_reducible refine Only.step (Only.of_eq3 ‹_› (placeLink_only ..)) (.of (by decide +kernel)) ?_
    | (with_reducible apply Only.step (planMerge_only ..); exact .of (by decide +kernel))
    | with_reducible refine Only.step (Only.of_eq2 ‹_› (planMerge_only ..)) (.of (by decide +kernel)) ?_
    | with_reducible refine Only.step (Only.of_eq3 ‹_› (planMerge_only ..)) (.of (by decide +kernel)) ?_
    | (with_reducible apply Only.step (planCommit_only ..); exact .of (by decide +kernel))
    | with_reducible refine Only.step (Only.of_eq2 ‹_› (planCommit_only ..)) (.of (by decide +kernel)) ?_
    | with_reducible refine Only.step (Only.of_eq3 ‹_› (planCommit_only ..)) (.of (by decide +kernel)) ?_
    | with_reducible apply_assumption -exfalso -symm
    | split
    | dsimp only

/-- What `consumedHere` may change. -/
theorem consumedHere_only (s : State) :
    Only [.freeCtr, .me, .reg Reg.ME_POISON.CONSUMED, .reg Reg.ME_LASTHI.KIND,
    .reg Reg.ME_ERR.POISON] s (consumedHere s) := by
  unfold consumedHere
  repeat' first
    | intro _
    | with_reducible assumption
    | with_reducible exact Only.refl _ _
    | (with_reducible apply Only.step (tickFree_only ..); exact .of (by decide +kernel))
    | (with_reducible apply Only.step (poisonConsumed_only ..); exact .of (by decide +kernel))
    | with_reducible apply_assumption -exfalso -symm
    | split
    | dsimp only

/-- What `readsOut` may change. -/
theorem readsOut_only (n : Ns) (c : IoCmd) (m : List (Nat × Nat × HostLba)) :
    ∀ (s : State), Only [.freeCtr, .out, .he, .me,
    .reg Reg.HE_EPCNT.A_COUNT, .reg Reg.HE_EPCNT.B_COUNT, .reg Reg.ME_POISON.CONSUMED, .reg Reg.ME_LASTHI.KIND,
    .reg Reg.ME_MERGE.EVICT, .reg Reg.ME_ERR.POISON] s (readsOut n c m s).2 := by
  induction m with
  | nil =>
    intros; unfold readsOut
    repeat' first
      | intro _
      | with_reducible assumption
      | with_reducible exact Only.refl _ _
      | (extract_lets +onlyGivenNames x; refine Only.cut x ?_ (fun _ => ?_); unfold x; clear x; rotate_left; clear_value x)
      | (extract_lets +onlyGivenNames x; refine Only.cut2 x ?_ (fun _ => ?_); unfold x; clear x; rotate_left; clear_value x)
      | (extract_lets +onlyGivenNames x; refine Only.cut3 x ?_ (fun _ => ?_); unfold x; clear x; rotate_left; clear_value x)
      | (extract_lets +onlyGivenNames x; refine Only.cutF x ?_ (fun _ => ?_); unfold x; clear x; rotate_left; clear_value x)
      | (extract_lets +onlyGivenNames x; refine Only.cutG x ?_ (fun _ => ?_); unfold x; clear x; rotate_left; clear_value x)
      | (extract_lets +onlyGivenNames x; refine Only.cutP x ?_ (fun _ => ?_); unfold x; clear x; rotate_left; clear_value x)
      | (extract_lets +onlyGivenNames x; refine Only.cutG2 x ?_ (fun _ => ?_); unfold x; clear x; rotate_left; clear_value x)
      | (extract_lets +onlyGivenNames x; refine Only.cutG3 x ?_ (fun _ => ?_); unfold x; clear x; rotate_left; clear_value x)
      | (extract_lets +onlyGivenNames x; refine Only.cutH x ?_ (fun _ => ?_); unfold x; clear x; rotate_left; clear_value x)
      | (extract_lets +onlyGivenNames x; clear_value x)
      | with_reducible apply Only.ite
      | (with_reducible apply Only.step (bump_port ..); exact .of (by decide +kernel))
      | (with_reducible apply Only.step (bump_only ..); exact .of (by decide +kernel))
      | (with_reducible apply Only.step (cmbPut_only ..); exact .of (by decide +kernel))
      | (with_reducible apply Only.step (emits_only ..); exact .of (by decide +kernel))
      | (with_reducible apply Only.step (consumedHere_only ..); exact .of (by decide +kernel))
      | with_reducible refine Only.foldl (fun _ _ _ => ?_) ?_
      | with_reducible refine Only.foldl2 (fun _ _ _ => ?_) ?_
      | with_reducible apply_assumption -exfalso -symm
      | split
      | dsimp only
  | cons b m ih =>
    intros; unfold readsOut
    repeat' first
      | intro _
      | with_reducible assumption
      | with_reducible exact Only.refl _ _
      | (extract_lets +onlyGivenNames x; refine Only.cut x ?_ (fun _ => ?_); unfold x; clear x; rotate_left; clear_value x)
      | (extract_lets +onlyGivenNames x; refine Only.cut2 x ?_ (fun _ => ?_); unfold x; clear x; rotate_left; clear_value x)
      | (extract_lets +onlyGivenNames x; refine Only.cut3 x ?_ (fun _ => ?_); unfold x; clear x; rotate_left; clear_value x)
      | (extract_lets +onlyGivenNames x; refine Only.cutF x ?_ (fun _ => ?_); unfold x; clear x; rotate_left; clear_value x)
      | (extract_lets +onlyGivenNames x; refine Only.cutG x ?_ (fun _ => ?_); unfold x; clear x; rotate_left; clear_value x)
      | (extract_lets +onlyGivenNames x; refine Only.cutP x ?_ (fun _ => ?_); unfold x; clear x; rotate_left; clear_value x)
      | (extract_lets +onlyGivenNames x; refine Only.cutG2 x ?_ (fun _ => ?_); unfold x; clear x; rotate_left; clear_value x)
      | (extract_lets +onlyGivenNames x; refine Only.cutG3 x ?_ (fun _ => ?_); unfold x; clear x; rotate_left; clear_value x)
      | (extract_lets +onlyGivenNames x; refine Only.cutH x ?_ (fun _ => ?_); unfold x; clear x; rotate_left; clear_value x)
      | (extract_lets +onlyGivenNames x; clear_value x)
      | with_reducible apply Only.ite
      | (with_reducible apply Only.step (bump_port ..); exact .of (by decide +kernel))
      | (with_reducible apply Only.step (bump_only ..); exact .of (by decide +kernel))
      | (with_reducible apply Only.step (cmbPut_only ..); exact .of (by decide +kernel))
      | (with_reducible apply Only.step (emits_only ..); exact .of (by decide +kernel))
      | (with_reducible apply Only.step (consumedHere_only ..); exact .of (by decide +kernel))
      | with_reducible refine Only.trans ?_ (ih _)
      | with_reducible refine Only.trans ?_ (Only.of_eq2 ‹_› (ih _))
      | with_reducible refine Only.foldl (fun _ _ _ => ?_) ?_
      | with_reducible refine Only.foldl2 (fun _ _ _ => ?_) ?_
      | with_reducible apply_assumption -exfalso -symm
      | split
      | dsimp only

/-- What `dropClaims` may change. -/
theorem dropClaims_only (id : Nat) (s : State) :
    Only [.fs] s (dropClaims id s) := by
  unfold dropClaims
  repeat' first
    | intro _
    | with_reducible assumption
    | with_reducible exact Only.refl _ _
    | fail_if_no_progress (with_reducible apply Only.upd_fs; decide +kernel)
    | with_reducible apply_assumption -exfalso -symm
    | split
    | dsimp only

/-- What `readsDone` may change. -/
theorem readsDone_only (id : Nat) (s : State) :
    Only (List.append [.freeCtr, .out, .gen, .he, .ctl, .sh, .cmds, .fs, .mx,
    .ns, .nsWait, .mm, .bp, .me, .gf, .tw, .dg, .mg, .fi, .nand, .ff, .prov, .reg Reg.HE_EPCNT.A_COUNT,
    .reg Reg.HE_EPCNT.B_COUNT, .reg Reg.HE_WINLOG.COUNT, .reg Reg.HE_WINLOG.CAUSE, .reg Reg.HE_WINLOG.PORT,
    .reg Reg.HE_WINLOGLO.OFFSET, .reg Reg.HE_WINLOGHI.OFFSET, .reg Reg.HE_WINLOGHI.RID] [.reg Reg.QE_CQFULL.COUNT,
    .reg Reg.MM_ERR.SHORTCLOSE, .reg Reg.DC_PIERR.GUARD, .reg Reg.DC_PIERR.APP, .reg Reg.DC_PIERR.REF, .reg Reg.BP_ERRBUF.INDEX,
    .reg Reg.BP_ERRBUF.OWNER, .reg Reg.BP_ERRBUF.CAUSE, .reg Reg.BP_ERR.REVOKE, .reg Reg.ME_POISON.CONSUMED,
    .reg Reg.ME_LASTHI.KIND, .reg Reg.ME_MERGE.EVICT, .reg Reg.ME_ERR.POISON, .reg Reg.GF_XFER.FAILED, .reg Reg.GF_ERR.XFERFAIL,
    .reg Reg.DG_RNG.RESEEDS, .reg Reg.MG_LOGSTAT.DROPPED, .reg Reg.MG_ERR.LOGDROP, .reg Reg.FI_ARM.ARMED,
    .reg Reg.FI_ARM.DCAUSE, .reg Reg.FI_GF.EN, .reg Reg.FI_FL.EN, .reg Reg.FI_PCIE.EN,
    .reg Reg.FI_CNT.INJECTED]) s (readsDone id s) := by
  unfold readsDone
  repeat' first
    | intro _
    | with_reducible assumption
    | with_reducible exact Only.refl _ _
    | (extract_lets +onlyGivenNames x; refine Only.cut x ?_ (fun _ => ?_); unfold x; clear x; rotate_left; clear_value x)
    | (extract_lets +onlyGivenNames x; refine Only.cut2 x ?_ (fun _ => ?_); unfold x; clear x; rotate_left; clear_value x)
    | (extract_lets +onlyGivenNames x; refine Only.cut3 x ?_ (fun _ => ?_); unfold x; clear x; rotate_left; clear_value x)
    | (extract_lets +onlyGivenNames x; refine Only.cutF x ?_ (fun _ => ?_); unfold x; clear x; rotate_left; clear_value x)
    | (extract_lets +onlyGivenNames x; refine Only.cutG x ?_ (fun _ => ?_); unfold x; clear x; rotate_left; clear_value x)
    | (extract_lets +onlyGivenNames x; refine Only.cutP x ?_ (fun _ => ?_); unfold x; clear x; rotate_left; clear_value x)
    | (extract_lets +onlyGivenNames x; refine Only.cutG2 x ?_ (fun _ => ?_); unfold x; clear x; rotate_left; clear_value x)
    | (extract_lets +onlyGivenNames x; refine Only.cutG3 x ?_ (fun _ => ?_); unfold x; clear x; rotate_left; clear_value x)
    | (extract_lets +onlyGivenNames x; refine Only.cutH x ?_ (fun _ => ?_); unfold x; clear x; rotate_left; clear_value x)
    | (extract_lets +onlyGivenNames x; clear_value x)
    | with_reducible apply Only.ite
    | (with_reducible apply Only.step (finishCmd_only ..); exact .of (by decide +kernel))
    | (with_reducible apply Only.step (piCount_only ..); exact .of (by decide +kernel))
    | (with_reducible apply Only.step (readsOut_only ..); exact .of (by decide +kernel))
    | with_reducible refine Only.step (Only.of_eq2 ‹_› (readsOut_only ..)) (.of (by decide +kernel)) ?_
    | with_reducible refine Only.step (Only.of_eq3 ‹_› (readsOut_only ..)) (.of (by decide +kernel)) ?_
    | (with_reducible apply Only.step (consumedHere_only ..); exact .of (by decide +kernel))
    | (with_reducible apply Only.step (dataOut_only ..); exact .of (by decide +kernel))
    | (with_reducible apply Only.step (dropReaders_only ..); exact .of (by decide +kernel))
    | (with_reducible apply Only.step (dropClaims_only ..); exact .of (by decide +kernel))
    | (with_reducible apply Only.step (updCmd_only ..); exact .of (by decide +kernel))
    | with_reducible apply_assumption -exfalso -symm
    | split
    | dsimp only

/-- What `startCmd` may change. -/
theorem startCmd_only (id : Nat) (s : State) :
    Only (List.append [.freeCtr, .out, .gen, .he, .ctl, .sh, .defFaults, .lost,
    .cmds, .fs, .mx, .ns, .nsWait, .mm, .bp, .me, .gf, .tw, .dg, .mg, .fi, .nand, .ff, .prov, .reg Reg.HE_EPCNT.A_COUNT,
    .reg Reg.HE_EPCNT.B_COUNT, .reg Reg.HE_WINLOG.COUNT, .reg Reg.HE_WINLOG.CAUSE, .reg Reg.HE_WINLOG.PORT,
    .reg Reg.HE_WINLOGLO.OFFSET] [.reg Reg.HE_WINLOGHI.OFFSET, .reg Reg.HE_WINLOGHI.RID, .reg Reg.QE_CQFULL.COUNT,
    .reg Reg.MX_ERR.CEILHOLD, .reg Reg.MM_ERR.SHORTCLOSE, .reg Reg.DC_PIERR.GUARD, .reg Reg.DC_PIERR.APP, .reg Reg.DC_PIERR.REF,
    .reg Reg.BP_ERRBUF.INDEX, .reg Reg.BP_ERRBUF.OWNER, .reg Reg.BP_ERRBUF.CAUSE, .reg Reg.BP_ERR.REVOKE,
    .reg Reg.ME_POISON.CONSUMED, .reg Reg.ME_LASTHI.KIND, .reg Reg.ME_MERGE.EVICT, .reg Reg.ME_ERR.POISON,
    .reg Reg.GF_XFER.FAILED, .reg Reg.GF_ERR.XFERFAIL, .reg Reg.TW_ERR.WINHOLD, .reg Reg.TW_ERR.TOUCHFULL,
    .reg Reg.DG_RNG.RESEEDS, .reg Reg.MG_LOGSTAT.DROPPED, .reg Reg.MG_ERR.LOGDROP, .reg Reg.FI_ARM.ARMED,
    .reg Reg.FI_ARM.DCAUSE, .reg Reg.FI_GF.EN, .reg Reg.FI_FL.EN, .reg Reg.FI_PCIE.EN,
    .reg Reg.FI_CNT.INJECTED]) s (startCmd id s) := by
  unfold startCmd
  repeat' first
    | intro _
    | with_reducible assumption
    | with_reducible exact Only.refl _ _
    | (extract_lets +onlyGivenNames x; refine Only.cut x ?_ (fun _ => ?_); unfold x; clear x; rotate_left; clear_value x)
    | (extract_lets +onlyGivenNames x; refine Only.cut2 x ?_ (fun _ => ?_); unfold x; clear x; rotate_left; clear_value x)
    | (extract_lets +onlyGivenNames x; refine Only.cutF x ?_ (fun _ => ?_); unfold x; clear x; rotate_left; clear_value x)
    | (extract_lets +onlyGivenNames x; refine Only.cutG x ?_ (fun _ => ?_); unfold x; clear x; rotate_left; clear_value x)
    | (extract_lets +onlyGivenNames x; refine Only.cutG2 x ?_ (fun _ => ?_); unfold x; clear x; rotate_left; clear_value x)
    | (extract_lets +onlyGivenNames x; refine Only.cutG3 x ?_ (fun _ => ?_); unfold x; clear x; rotate_left; clear_value x)
    | (extract_lets +onlyGivenNames x; refine Only.cutH x ?_ (fun _ => ?_); unfold x; clear x; rotate_left; clear_value x)
    | (extract_lets +onlyGivenNames x; clear_value x)
    | with_reducible apply Only.ite
    | (with_reducible apply Only.step (addReaders_only ..); exact .of (by decide +kernel))
    | (with_reducible apply Only.step (readsDone_only ..); exact .of (by decide +kernel))
    | (with_reducible apply Only.step (startData_only ..); exact .of (by decide +kernel))
    | (with_reducible apply Only.step (readyForVat_only ..); exact .of (by decide +kernel))
    | (with_reducible apply Only.step (holdStaged_only ..); exact .of (by decide +kernel))
    | (with_reducible apply Only.step (updCmd_only ..); exact .of (by decide +kernel))
    | (with_reducible apply Only.step (bookVat_only ..); exact .of (by decide +kernel))
    | (with_reducible apply Only.step (commitCmd_only ..); exact .of (by decide +kernel))
    | with_reducible apply_assumption -exfalso -symm
    | split
    | dsimp only

/-- What `touchPages` may change. -/
theorem touchPages_only (n : Ns) (c : IoCmd) (s : State) :
    Only [.mx, .reg Reg.MX_PGMISS.COUNT] s (touchPages n c s) := by
  unfold touchPages
  repeat' first
    | intro _
    | with_reducible assumption
    | with_reducible exact Only.refl _ _
    | (with_reducible apply Only.step (cacheTouch_only ..); exact .of (by decide +kernel))
    | with_reducible refine Only.foldl (fun _ _ _ => ?_) ?_
    | with_reducible refine Only.foldl2 (fun _ _ _ => ?_) ?_
    | with_reducible apply_assumption -exfalso -symm
    | split
    | dsimp only

/-- What `admitted` may change. -/
theorem admitted_only (n : Ns) (c : IoCmd) (pages : Bool) (ext : List (Nat × Nat)) (s : State) :
    Only (List.append [.freeCtr,
    .out, .gen, .he, .ctl, .sh, .defFaults, .lost, .cmds, .nextCmd, .fs, .mx, .ns, .nsWait, .mm, .bp, .me, .gf, .tw, .dg, .mg,
    .fi, .nand, .ff, .prov, .reg Reg.HE_EPCNT.A_COUNT, .reg Reg.HE_EPCNT.B_COUNT, .reg Reg.HE_WINLOG.COUNT,
    .reg Reg.HE_WINLOG.CAUSE, .reg Reg.HE_WINLOG.PORT] (List.append [.reg Reg.HE_WINLOGLO.OFFSET, .reg Reg.HE_WINLOGHI.OFFSET,
    .reg Reg.HE_WINLOGHI.RID, .reg Reg.QE_CQFULL.COUNT, .reg Reg.MX_PGMISS.COUNT, .reg Reg.MX_ERR.CEILHOLD,
    .reg Reg.MM_ERR.SHORTCLOSE, .reg Reg.DC_PIERR.GUARD, .reg Reg.DC_PIERR.APP, .reg Reg.DC_PIERR.REF, .reg Reg.BP_ERRBUF.INDEX,
    .reg Reg.BP_ERRBUF.OWNER, .reg Reg.BP_ERRBUF.CAUSE, .reg Reg.BP_ERR.REVOKE, .reg Reg.ME_POISON.CONSUMED,
    .reg Reg.ME_LASTHI.KIND, .reg Reg.ME_MERGE.EVICT, .reg Reg.ME_ERR.POISON, .reg Reg.GF_XFER.FAILED, .reg Reg.GF_ERR.XFERFAIL,
    .reg Reg.TW_ERR.WINHOLD, .reg Reg.TW_ERR.TOUCHFULL, .reg Reg.DG_RNG.RESEEDS, .reg Reg.MG_LOGSTAT.DROPPED,
    .reg Reg.MG_ERR.LOGDROP, .reg Reg.FI_ARM.ARMED, .reg Reg.FI_ARM.DCAUSE, .reg Reg.FI_GF.EN, .reg Reg.FI_FL.EN,
    .reg Reg.FI_PCIE.EN] [.reg Reg.FI_CNT.INJECTED])) s (admitted n c pages ext s) := by
  unfold admitted
  repeat' first
    | intro _
    | with_reducible assumption
    | with_reducible exact Only.refl _ _
    | (extract_lets +onlyGivenNames x; refine Only.cut x ?_ (fun _ => ?_); unfold x; clear x; rotate_left; clear_value x)
    | (extract_lets +onlyGivenNames x; refine Only.cut2 x ?_ (fun _ => ?_); unfold x; clear x; rotate_left; clear_value x)
    | (extract_lets +onlyGivenNames x; refine Only.cutF x ?_ (fun _ => ?_); unfold x; clear x; rotate_left; clear_value x)
    | (extract_lets +onlyGivenNames x; refine Only.cutG x ?_ (fun _ => ?_); unfold x; clear x; rotate_left; clear_value x)
    | (extract_lets +onlyGivenNames x; refine Only.cutP x ?_ (fun _ => ?_); unfold x; clear x; rotate_left; clear_value x)
    | (extract_lets +onlyGivenNames x; refine Only.cutG2 x ?_ (fun _ => ?_); unfold x; clear x; rotate_left; clear_value x)
    | (extract_lets +onlyGivenNames x; refine Only.cutG3 x ?_ (fun _ => ?_); unfold x; clear x; rotate_left; clear_value x)
    | (extract_lets +onlyGivenNames x; refine Only.cutH x ?_ (fun _ => ?_); unfold x; clear x; rotate_left; clear_value x)
    | (extract_lets +onlyGivenNames x; clear_value x)
    | with_reducible apply Only.ite
    | fail_if_no_progress (with_reducible apply Only.upd_cmds_nextCmd; decide +kernel; decide +kernel)
    | (with_reducible apply Only.step (updClass_only ..); exact .of (by decide +kernel))
    | (with_reducible apply Only.step (extend_only ..); exact .of (by decide +kernel))
    | (with_reducible apply Only.step (startCmd_only ..); exact .of (by decide +kernel))
    | (with_reducible apply Only.step (touchPages_only ..); exact .of (by decide +kernel))
    | with_reducible refine Only.foldl (fun _ _ _ => ?_) ?_
    | with_reducible refine Only.foldl2 (fun _ _ _ => ?_) ?_
    | with_reducible apply_assumption -exfalso -symm
    | split
    | dsimp only

/-- What `admitBound` may change. -/
theorem admitBound_only (h : IoHdr) (n : Ns) (c : IoCmd) (bytes : Nat) (pages : Bool) (s : State) :
    Only (List.append [.freeCtr,
    .out, .gen, .he, .ctl, .sh, .defFaults, .lost, .cmds, .nextCmd, .fs, .mx, .ns, .nsWait, .mm, .bp, .me, .gf, .tw, .dg, .mg,
    .fi, .nand, .ff, .prov, .reg Reg.HE_EPCNT.A_COUNT, .reg Reg.HE_EPCNT.B_COUNT, .reg Reg.HE_WINLOG.COUNT,
    .reg Reg.HE_WINLOG.CAUSE, .reg Reg.HE_WINLOG.PORT] (List.append [.reg Reg.HE_WINLOGLO.OFFSET, .reg Reg.HE_WINLOGHI.OFFSET,
    .reg Reg.HE_WINLOGHI.RID, .reg Reg.QE_REFUSE.COUNT, .reg Reg.QE_HOSTXS.LAST, .reg Reg.QE_HOSTXS.COUNT,
    .reg Reg.QE_CQFULL.COUNT, .reg Reg.MX_PGMISS.COUNT, .reg Reg.MX_ERR.CEILHOLD, .reg Reg.MM_ERR.SHORTCLOSE,
    .reg Reg.MM_ERR.VATFULL, .reg Reg.DC_PIERR.GUARD, .reg Reg.DC_PIERR.APP, .reg Reg.DC_PIERR.REF, .reg Reg.BP_ERRBUF.INDEX,
    .reg Reg.BP_ERRBUF.OWNER, .reg Reg.BP_ERRBUF.CAUSE, .reg Reg.BP_ERR.REVOKE, .reg Reg.ME_POISON.CONSUMED,
    .reg Reg.ME_LASTHI.KIND, .reg Reg.ME_MERGE.EVICT, .reg Reg.ME_ERR.POISON, .reg Reg.GF_XFER.FAILED, .reg Reg.GF_ERR.XFERFAIL,
    .reg Reg.TW_ERR.WINHOLD, .reg Reg.TW_ERR.TOUCHFULL, .reg Reg.DG_RNG.RESEEDS, .reg Reg.MG_LOGSTAT.DROPPED,
    .reg Reg.MG_ERR.LOGDROP, .reg Reg.FI_ARM.ARMED] [.reg Reg.FI_ARM.DCAUSE, .reg Reg.FI_GF.EN, .reg Reg.FI_FL.EN,
    .reg Reg.FI_PCIE.EN, .reg Reg.FI_CNT.INJECTED])) s (admitBound h n c bytes pages s) := by
  unfold admitBound
  repeat' first
    | intro _
    | with_reducible assumption
    | with_reducible exact Only.refl _ _
    | (extract_lets +onlyGivenNames x; refine Only.cut x ?_ (fun _ => ?_); unfold x; clear x; rotate_left; clear_value x)
    | (extract_lets +onlyGivenNames x; refine Only.cut2 x ?_ (fun _ => ?_); unfold x; clear x; rotate_left; clear_value x)
    | (extract_lets +onlyGivenNames x; refine Only.cut3 x ?_ (fun _ => ?_); unfold x; clear x; rotate_left; clear_value x)
    | (extract_lets +onlyGivenNames x; clear_value x)
    | with_reducible apply Only.ite
    | fail_if_no_progress (with_reducible apply Only.upd_mm; decide +kernel)
    | (with_reducible apply Only.step (flagOn_only ..); exact .of (by decide +kernel))
    | (with_reducible apply Only.step (bump_only ..); exact .of (by decide +kernel))
    | (with_reducible apply Only.step (setSat_only ..); exact .of (by decide +kernel))
    | (with_reducible apply Only.step (ioRefuse_only ..); exact .of (by decide +kernel))
    | (with_reducible apply Only.step (planIo_only ..); exact .of (by decide +kernel))
    | with_reducible refine Only.step (Only.of_eq2 ‹_› (planIo_only ..)) (.of (by decide +kernel)) ?_
    | with_reducible refine Only.step (Only.of_eq3 ‹_› (planIo_only ..)) (.of (by decide +kernel)) ?_
    | (with_reducible apply Only.step (grantBufs_only ..); exact .of (by decide +kernel))
    | with_reducible refine Only.step (Only.of_eq2 ‹_› (grantBufs_only ..)) (.of (by decide +kernel)) ?_
    | with_reducible refine Only.step (Only.of_eq3 ‹_› (grantBufs_only ..)) (.of (by decide +kernel)) ?_
    | (with_reducible apply Only.step (putBufs_only ..); exact .of (by decide +kernel))
    | (with_reducible apply Only.step (admitted_only ..); exact .of (by decide +kernel))
    | (with_reducible apply Only.step (openFixity_only ..); exact .of (by decide +kernel))
    | with_reducible apply_assumption -exfalso -symm
    | split
    | dsimp only

/-- What `tryLc7` may change. -/
theorem tryLc7_eq {n : Ns} {c : IoCmd} {bytes : Nat} {pages : Bool} {s : State} {a t} (hEq : tryLc7 n c bytes pages s = some (a,
    t)) :
    Only [.fs, .bp, .dg, .reg Reg.BP_ERRBUF.INDEX, .reg Reg.BP_ERRBUF.OWNER, .reg Reg.BP_ERRBUF.CAUSE,
    .reg Reg.BP_ERR.REVOKE] s t := by
  unfold tryLc7 at hEq
  try dsimp only at hEq
  repeat' first
    | (cases hEq; done)
    | split at hEq
    | (simp only [Option.some.injEq, Prod.mk.injEq] at hEq; first | subst hEq | (obtain ⟨_, hEq⟩ := hEq; first | subst hEq | (obtain ⟨_, hEq⟩ := hEq; subst hEq)))
    | (simp at hEq; done)
  repeat' first
    | intro _
    | with_reducible assumption
    | with_reducible exact Only.refl _ _
    | (extract_lets +onlyGivenNames x; refine Only.cut x ?_ (fun _ => ?_); unfold x; clear x; rotate_left; clear_value x)
    | (extract_lets +onlyGivenNames x; refine Only.cut2 x ?_ (fun _ => ?_); unfold x; clear x; rotate_left; clear_value x)
    | (extract_lets +onlyGivenNames x; refine Only.cut3 x ?_ (fun _ => ?_); unfold x; clear x; rotate_left; clear_value x)
    | (extract_lets +onlyGivenNames x; clear_value x)
    | with_reducible apply Only.ite
    | (with_reducible apply Only.step (grantBufs_only ..); exact .of (by decide +kernel))
    | with_reducible refine Only.step (Only.of_eq2 ‹_› (grantBufs_only ..)) (.of (by decide +kernel)) ?_
    | with_reducible refine Only.step (Only.of_eq3 ‹_› (grantBufs_only ..)) (.of (by decide +kernel)) ?_
    | (with_reducible apply Only.step (planIo_only ..); exact .of (by decide +kernel))
    | with_reducible refine Only.step (Only.of_eq2 ‹_› (planIo_only ..)) (.of (by decide +kernel)) ?_
    | with_reducible refine Only.step (Only.of_eq3 ‹_› (planIo_only ..)) (.of (by decide +kernel)) ?_
    | (with_reducible apply Only.step (openFixity_only ..); exact .of (by decide +kernel))
    | with_reducible apply_assumption -exfalso -symm
    | split
    | dsimp only

/-- What `waitLc7` may change. -/
theorem waitLc7_only (c : IoCmd) (s : State) :
    Only [.cmds, .nextCmd] s (waitLc7 c s) := by
  unfold waitLc7
  repeat' first
    | intro _
    | with_reducible assumption
    | with_reducible exact Only.refl _ _
    | fail_if_no_progress (with_reducible apply Only.upd_cmds_nextCmd; decide +kernel; decide +kernel)
    | with_reducible apply_assumption -exfalso -symm
    | split
    | dsimp only

/-- What `admitLc7` may change. -/
theorem admitLc7_only (n : Ns) (c : IoCmd) (bytes : Nat) (pages : Bool) (s : State) :
    Only (List.append [.freeCtr, .out,
    .gen, .he, .ctl, .sh, .defFaults, .lost, .cmds, .nextCmd, .fs, .mx, .ns, .nsWait, .mm, .bp, .me, .gf, .tw, .dg, .mg, .fi,
    .nand, .ff, .prov, .reg Reg.HE_EPCNT.A_COUNT, .reg Reg.HE_EPCNT.B_COUNT, .reg Reg.HE_WINLOG.COUNT, .reg Reg.HE_WINLOG.CAUSE,
    .reg Reg.HE_WINLOG.PORT] (List.append [.reg Reg.HE_WINLOGLO.OFFSET, .reg Reg.HE_WINLOGHI.OFFSET, .reg Reg.HE_WINLOGHI.RID,
    .reg Reg.QE_CQFULL.COUNT, .reg Reg.MX_PGMISS.COUNT, .reg Reg.MX_ERR.CEILHOLD, .reg Reg.MM_ERR.SHORTCLOSE,
    .reg Reg.DC_PIERR.GUARD, .reg Reg.DC_PIERR.APP, .reg Reg.DC_PIERR.REF, .reg Reg.BP_ERRBUF.INDEX, .reg Reg.BP_ERRBUF.OWNER,
    .reg Reg.BP_ERRBUF.CAUSE, .reg Reg.BP_ERR.REVOKE, .reg Reg.ME_POISON.CONSUMED, .reg Reg.ME_LASTHI.KIND,
    .reg Reg.ME_MERGE.EVICT, .reg Reg.ME_ERR.POISON, .reg Reg.GF_XFER.FAILED, .reg Reg.GF_ERR.XFERFAIL, .reg Reg.TW_ERR.WINHOLD,
    .reg Reg.TW_ERR.TOUCHFULL, .reg Reg.DG_RNG.RESEEDS, .reg Reg.MG_LOGSTAT.DROPPED, .reg Reg.MG_ERR.LOGDROP,
    .reg Reg.FI_ARM.ARMED, .reg Reg.FI_ARM.DCAUSE, .reg Reg.FI_GF.EN, .reg Reg.FI_FL.EN,
    .reg Reg.FI_PCIE.EN] [.reg Reg.FI_CNT.INJECTED])) s (admitLc7 n c bytes pages s) := by
  unfold admitLc7
  repeat' first
    | intro _
    | with_reducible assumption
    | with_reducible exact Only.refl _ _
    | with_reducible refine Only.step (tryLc7_eq ‹_›) (.of (by decide +kernel)) ?_
    | (with_reducible apply Only.step (admitted_only ..); exact .of (by decide +kernel))
    | (with_reducible apply Only.step (waitLc7_only ..); exact .of (by decide +kernel))
    | with_reducible apply_assumption -exfalso -symm
    | split
    | dsimp only

/-- What `admission` may change. -/
theorem admission_only (h : IoHdr) (n : Ns) (c : IoCmd) (bytes : Nat) (s : State) :
    Only (List.append [.freeCtr, .out, .gen,
    .he, .ctl, .sh, .defFaults, .lost, .cmds, .nextCmd, .fs, .mx, .ns, .nsWait, .mm, .bp, .me, .gf, .tw, .dg, .mg, .fi, .nand,
    .ff, .prov, .reg Reg.HE_EPCNT.A_COUNT, .reg Reg.HE_EPCNT.B_COUNT, .reg Reg.HE_WINLOG.COUNT, .reg Reg.HE_WINLOG.CAUSE,
    .reg Reg.HE_WINLOG.PORT] (List.append [.reg Reg.HE_WINLOGLO.OFFSET, .reg Reg.HE_WINLOGHI.OFFSET, .reg Reg.HE_WINLOGHI.RID,
    .reg Reg.QE_REFUSE.COUNT, .reg Reg.QE_HOSTXS.LAST, .reg Reg.QE_HOSTXS.COUNT, .reg Reg.QE_CQFULL.COUNT,
    .reg Reg.MX_PGMISS.COUNT, .reg Reg.MX_ERR.CEILHOLD, .reg Reg.MM_ERR.SHORTCLOSE, .reg Reg.MM_ERR.VATFULL,
    .reg Reg.DC_PIERR.GUARD, .reg Reg.DC_PIERR.APP, .reg Reg.DC_PIERR.REF, .reg Reg.BP_ERRBUF.INDEX, .reg Reg.BP_ERRBUF.OWNER,
    .reg Reg.BP_ERRBUF.CAUSE, .reg Reg.BP_ERR.REVOKE, .reg Reg.ME_POISON.CONSUMED, .reg Reg.ME_LASTHI.KIND,
    .reg Reg.ME_MERGE.EVICT, .reg Reg.ME_ERR.POISON, .reg Reg.GF_XFER.FAILED, .reg Reg.GF_ERR.XFERFAIL, .reg Reg.TW_ERR.WINHOLD,
    .reg Reg.TW_ERR.TOUCHFULL, .reg Reg.DG_RNG.RESEEDS, .reg Reg.MG_LOGSTAT.DROPPED, .reg Reg.MG_ERR.LOGDROP,
    .reg Reg.FI_ARM.ARMED] [.reg Reg.FI_ARM.DCAUSE, .reg Reg.FI_GF.EN, .reg Reg.FI_FL.EN, .reg Reg.FI_PCIE.EN,
    .reg Reg.FI_CNT.INJECTED])) s (admission h n c bytes s) := by
  unfold admission
  repeat' first
    | intro _
    | with_reducible assumption
    | with_reducible exact Only.refl _ _
    | (extract_lets +onlyGivenNames x; refine Only.cut x ?_ (fun _ => ?_); unfold x; clear x; rotate_left; clear_value x)
    | (extract_lets +onlyGivenNames x; refine Only.cut2 x ?_ (fun _ => ?_); unfold x; clear x; rotate_left; clear_value x)
    | (extract_lets +onlyGivenNames x; clear_value x)
    | with_reducible apply Only.ite
    | (with_reducible apply Only.step (waitLc7_only ..); exact .of (by decide +kernel))
    | (with_reducible apply Only.step (ioFail_only ..); exact .of (by decide +kernel))
    | (with_reducible apply Only.step (deliverReports_only ..); exact .of (by decide +kernel))
    | (with_reducible apply Only.step (admitLc7_only ..); exact .of (by decide +kernel))
    | (with_reducible apply Only.step (admitBound_only ..); exact .of (by decide +kernel))
    | with_reducible apply_assumption -exfalso -symm
    | split
    | dsimp only

/-- What `ioRun` may change. -/
theorem ioRun_only (h : IoHdr) (mk : State → IoPlan) (s : State) :
    Only (List.append [.freeCtr, .out, .gen, .he, .ctl, .sh,
    .defFaults, .lost, .cmds, .nextCmd, .fs, .mx, .ns, .nsWait, .mm, .bp, .me, .gf, .tw, .dg, .mg, .fi, .nand, .ff, .prov,
    .reg Reg.HE_EPCNT.A_COUNT, .reg Reg.HE_EPCNT.B_COUNT, .reg Reg.HE_WINLOG.COUNT, .reg Reg.HE_WINLOG.CAUSE,
    .reg Reg.HE_WINLOG.PORT] (List.append [.reg Reg.HE_WINLOGLO.OFFSET, .reg Reg.HE_WINLOGHI.OFFSET, .reg Reg.HE_WINLOGHI.RID,
    .reg Reg.QE_REFUSE.COUNT, .reg Reg.QE_HOSTXS.LAST, .reg Reg.QE_HOSTXS.COUNT, .reg Reg.QE_CQFULL.COUNT,
    .reg Reg.MX_PGMISS.COUNT, .reg Reg.MX_ERR.CEILHOLD, .reg Reg.MM_ERR.SHORTCLOSE, .reg Reg.MM_ERR.VATFULL,
    .reg Reg.DC_PIERR.GUARD, .reg Reg.DC_PIERR.APP, .reg Reg.DC_PIERR.REF, .reg Reg.BP_ERRBUF.INDEX, .reg Reg.BP_ERRBUF.OWNER,
    .reg Reg.BP_ERRBUF.CAUSE, .reg Reg.BP_ERR.REVOKE, .reg Reg.ME_POISON.CONSUMED, .reg Reg.ME_LASTHI.KIND,
    .reg Reg.ME_MERGE.EVICT, .reg Reg.ME_ERR.POISON, .reg Reg.GF_XFER.FAILED, .reg Reg.GF_ERR.XFERFAIL, .reg Reg.TW_ERR.WINHOLD,
    .reg Reg.TW_ERR.TOUCHFULL, .reg Reg.DG_RNG.RESEEDS, .reg Reg.MG_LOGSTAT.DROPPED, .reg Reg.MG_ERR.LOGDROP,
    .reg Reg.FI_ARM.ARMED] [.reg Reg.FI_ARM.DCAUSE, .reg Reg.FI_GF.EN, .reg Reg.FI_FL.EN, .reg Reg.FI_PCIE.EN,
    .reg Reg.FI_CNT.INJECTED])) s (ioRun h mk s) := by
  unfold ioRun
  repeat' first
    | intro _
    | with_reducible assumption
    | with_reducible exact Only.refl _ _
    | (extract_lets +onlyGivenNames x; refine Only.cut x ?_ (fun _ => ?_); unfold x; clear x; rotate_left; clear_value x)
    | (extract_lets +onlyGivenNames x; refine Only.cut2 x ?_ (fun _ => ?_); unfold x; clear x; rotate_left; clear_value x)
    | (extract_lets +onlyGivenNames x; clear_value x)
    | with_reducible apply Only.ite
    | (with_reducible apply Only.step (sqeArrived_only ..); exact .of (by decide +kernel))
    | (with_reducible apply Only.step (ioFail_only ..); exact .of (by decide +kernel))
    | (with_reducible apply Only.step (ioRefuse_only ..); exact .of (by decide +kernel))
    | (with_reducible apply Only.step (admission_only ..); exact .of (by decide +kernel))
    | with_reducible apply_assumption -exfalso -symm
    | split
    | dsimp only

end Sys2Proof.Machine
end

