-- ==== Sys2Proof/Laws/FrameFirmware.lean ====
section
/-! SUPPORT. What each operation of Machine/Firmware.lean may change, as `Only` states it: one lemma an operation, which later proofs cite
instead of unfolding it. -/
namespace Sys2Proof.Machine
set_option Elab.async false
set_option linter.all false

/-- What `firmwareImageDownloadBody` may change. -/
theorem firmwareImageDownloadBody_only (h : AdminHdr) (offset length : Nat) (s : State) :
    Only [.out, .he, .ctl, .sh, .fs,
    .reg Reg.QE_CQFULL.COUNT] s (firmwareImageDownloadBody h offset length s) := by
  unfold firmwareImageDownloadBody
  repeat' first
    | intro _
    | with_reducible assumption
    | with_reducible exact Only.refl _ _
    | with_reducible apply Only.ite
    | fail_if_no_progress (with_reducible apply Only.upd_sh; decide +kernel)
    | (with_reducible apply Only.step (adminFail_only ..); exact .of (by decide +kernel))
    | (with_reducible apply withData_keep; exact .of (by decide +kernel))
    | (with_reducible apply Only.step (adminOk_only ..); exact .of (by decide +kernel))
    | with_reducible apply_assumption -exfalso -symm
    | split
    | dsimp only

/-- What `execFirmwareImageDownload` may change. -/
theorem execFirmwareImageDownload_only (h : AdminHdr) (offset length : Nat) (s : State) :
    ∃ t,
    execFirmwareImageDownload h offset length s = .next t ∧ Only [.out, .gen, .he, .ctl, .sh, .fs, .mg, .fi, .prov,
    .reg Reg.QE_CQFULL.COUNT, .reg Reg.MG_LOGSTAT.DROPPED, .reg Reg.MG_ERR.LOGDROP, .reg Reg.FI_ARM.ARMED,
    .reg Reg.FI_ARM.DCAUSE, .reg Reg.FI_GF.EN, .reg Reg.FI_FL.EN, .reg Reg.FI_PCIE.EN] s t := by
  unfold execFirmwareImageDownload
  refine ⟨_, rfl, ?_⟩
  repeat' first
    | intro _
    | with_reducible assumption
    | with_reducible exact Only.refl _ _
    | (with_reducible apply adminCmd_keep; exact .of (by decide +kernel))
    | (with_reducible apply Only.step (firmwareImageDownloadBody_only ..); exact .of (by decide +kernel))
    | with_reducible apply_assumption -exfalso -symm
    | split
    | dsimp only

/-- What `eraseSector` may change. -/
theorem eraseSector_only (sec : Nat) (s : State) :
    Only [.ff, .reg Reg.MG_ERR.WEAR] s (eraseSector sec s) := by
  unfold eraseSector
  repeat' first
    | intro _
    | with_reducible assumption
    | with_reducible exact Only.refl _ _
    | (extract_lets +onlyGivenNames x; refine Only.cut x ?_ (fun _ => ?_); unfold x; clear x; rotate_left; clear_value x)
    | (extract_lets +onlyGivenNames x; refine Only.cut2 x ?_ (fun _ => ?_); unfold x; clear x; rotate_left; clear_value x)
    | (extract_lets +onlyGivenNames x; refine Only.cutF x ?_ (fun _ => ?_); unfold x; clear x; rotate_left; clear_value x)
    | (extract_lets +onlyGivenNames x; refine Only.cutG x ?_ (fun _ => ?_); unfold x; clear x; rotate_left; clear_value x)
    | (extract_lets +onlyGivenNames x; refine Only.cutG2 x ?_ (fun _ => ?_); unfold x; clear x; rotate_left; clear_value x)
    | (extract_lets +onlyGivenNames x; refine Only.cutG3 x ?_ (fun _ => ?_); unfold x; clear x; rotate_left; clear_value x)
    | (extract_lets +onlyGivenNames x; refine Only.cutH x ?_ (fun _ => ?_); unfold x; clear x; rotate_left; clear_value x)
    | (extract_lets +onlyGivenNames x; clear_value x)
    | fail_if_no_progress (with_reducible apply Only.upd_ff; decide +kernel)
    | (with_reducible apply Only.step (flagIf_only ..); exact .of (by decide +kernel))
    | with_reducible apply_assumption -exfalso -symm
    | split
    | dsimp only

/-- What `writeSlot` may change. -/
theorem writeSlot_only (blk : Nat) (img : SlotImage) (s : State) :
    Only [.sh, .ff,
    .reg Reg.MG_ERR.WEAR] s (writeSlot blk img s) := by
  unfold writeSlot
  repeat' first
    | intro _
    | with_reducible assumption
    | with_reducible exact Only.refl _ _
    | (extract_lets +onlyGivenNames x; refine Only.cut x ?_ (fun _ => ?_); unfold x; clear x; rotate_left; clear_value x)
    | (extract_lets +onlyGivenNames x; refine Only.cut2 x ?_ (fun _ => ?_); unfold x; clear x; rotate_left; clear_value x)
    | (extract_lets +onlyGivenNames x; refine Only.cutF x ?_ (fun _ => ?_); unfold x; clear x; rotate_left; clear_value x)
    | (extract_lets +onlyGivenNames x; refine Only.cutG x ?_ (fun _ => ?_); unfold x; clear x; rotate_left; clear_value x)
    | (extract_lets +onlyGivenNames x; refine Only.cutG2 x ?_ (fun _ => ?_); unfold x; clear x; rotate_left; clear_value x)
    | (extract_lets +onlyGivenNames x; refine Only.cutG3 x ?_ (fun _ => ?_); unfold x; clear x; rotate_left; clear_value x)
    | (extract_lets +onlyGivenNames x; refine Only.cutH x ?_ (fun _ => ?_); unfold x; clear x; rotate_left; clear_value x)
    | (extract_lets +onlyGivenNames x; clear_value x)
    | with_reducible apply Only.ite
    | fail_if_no_progress (with_reducible apply Only.upd_sh_ff; decide +kernel; decide +kernel)
    | (with_reducible apply Only.step (eraseSector_only ..); exact .of (by decide +kernel))
    | with_reducible refine Only.foldl (fun _ _ _ => ?_) ?_
    | with_reducible refine Only.foldl2 (fun _ _ _ => ?_) ?_
    | with_reducible apply_assumption -exfalso -symm
    | split
    | dsimp only

/-- What `selectSlot` may change. -/
theorem selectSlot_only (blk : Nat) (s : State) :
    Only [.ff, .reg Reg.MG_ERR.WEAR] s (selectSlot blk s) := by
  unfold selectSlot
  repeat' first
    | intro _
    | with_reducible assumption
    | with_reducible exact Only.refl _ _
    | (extract_lets +onlyGivenNames x; refine Only.cut x ?_ (fun _ => ?_); unfold x; clear x; rotate_left; clear_value x)
    | (extract_lets +onlyGivenNames x; refine Only.cut2 x ?_ (fun _ => ?_); unfold x; clear x; rotate_left; clear_value x)
    | (extract_lets +onlyGivenNames x; clear_value x)
    | with_reducible apply Only.ite
    | fail_if_no_progress (with_reducible apply Only.upd_ff; decide +kernel)
    | (with_reducible apply Only.step (eraseSector_only ..); exact .of (by decide +kernel))
    | with_reducible apply_assumption -exfalso -symm
    | split
    | dsimp only

/-- What `commitSlot` may change. -/
theorem commitSlot_only (write select : Bool) (blk : Nat) (img : SlotImage) (s : State) :
    Only [.sh, .ff,
    .reg Reg.MG_ERR.WEAR] s (commitSlot write select blk img s).2 := by
  unfold commitSlot
  repeat' first
    | intro _
    | with_reducible assumption
    | with_reducible exact Only.refl _ _
    | (extract_lets +onlyGivenNames x; refine Only.cut x ?_ (fun _ => ?_); unfold x; clear x; rotate_left; clear_value x)
    | (extract_lets +onlyGivenNames x; refine Only.cut2 x ?_ (fun _ => ?_); unfold x; clear x; rotate_left; clear_value x)
    | (extract_lets +onlyGivenNames x; refine Only.cut3 x ?_ (fun _ => ?_); unfold x; clear x; rotate_left; clear_value x)
    | (extract_lets +onlyGivenNames x; clear_value x)
    | with_reducible apply Only.ite
    | (with_reducible apply Only.step (writeSlot_only ..); exact .of (by decide +kernel))
    | (with_reducible apply Only.step (selectSlot_only ..); exact .of (by decide +kernel))
    | with_reducible apply_assumption -exfalso -symm
    | split
    | dsimp only

/-- What `firmwareCommitBody` may change. -/
theorem firmwareCommitBody_only (h : AdminHdr) (slot : Nat) (write select : Bool) (img : SlotImage) (s : State) :
    Only [.out,
    .he, .ctl, .sh, .fs, .ff, .reg Reg.QE_CQFULL.COUNT,
    .reg Reg.MG_ERR.WEAR] s (firmwareCommitBody h slot write select img s) := by
  unfold firmwareCommitBody
  repeat' first
    | intro _
    | with_reducible assumption
    | with_reducible exact Only.refl _ _
    | with_reducible apply Only.ite
    | (with_reducible apply Only.step (adminFail_only ..); exact .of (by decide +kernel))
    | (with_reducible apply Only.step (commitSlot_only ..); exact .of (by decide +kernel))
    | with_reducible refine Only.step (Only.of_eq2 ‹_› (commitSlot_only ..)) (.of (by decide +kernel)) ?_
    | with_reducible refine Only.step (Only.of_eq3 ‹_› (commitSlot_only ..)) (.of (by decide +kernel)) ?_
    | (with_reducible apply Only.step (adminOk_only ..); exact .of (by decide +kernel))
    | with_reducible apply_assumption -exfalso -symm
    | split
    | dsimp only

/-- What `execFirmwareCommitWrite` may change. -/
theorem execFirmwareCommitWrite_only (h : AdminHdr) (slot : Nat) (img : SlotImage) (s : State) :
    ∃ t,
    execFirmwareCommitWrite h slot img s = .next t ∧ Only [.out, .gen, .he, .ctl, .sh, .fs, .mg, .fi, .ff, .prov,
    .reg Reg.QE_CQFULL.COUNT, .reg Reg.MG_LOGSTAT.DROPPED, .reg Reg.MG_ERR.LOGDROP, .reg Reg.MG_ERR.WEAR, .reg Reg.FI_ARM.ARMED,
    .reg Reg.FI_ARM.DCAUSE, .reg Reg.FI_GF.EN, .reg Reg.FI_FL.EN, .reg Reg.FI_PCIE.EN] s t := by
  unfold execFirmwareCommitWrite
  refine ⟨_, rfl, ?_⟩
  repeat' first
    | intro _
    | with_reducible assumption
    | with_reducible exact Only.refl _ _
    | (with_reducible apply adminCmd_keep; exact .of (by decide +kernel))
    | (with_reducible apply Only.step (firmwareCommitBody_only ..); exact .of (by decide +kernel))
    | with_reducible apply_assumption -exfalso -symm
    | split
    | dsimp only

/-- What `execFirmwareCommitWriteSelect` may change. -/
theorem execFirmwareCommitWriteSelect_only (h : AdminHdr) (slot : Nat) (img : SlotImage) (s : State) :
    ∃ t,
    execFirmwareCommitWriteSelect h slot img s = .next t ∧ Only [.out, .gen, .he, .ctl, .sh, .fs, .mg, .fi, .ff, .prov,
    .reg Reg.QE_CQFULL.COUNT, .reg Reg.MG_LOGSTAT.DROPPED, .reg Reg.MG_ERR.LOGDROP, .reg Reg.MG_ERR.WEAR, .reg Reg.FI_ARM.ARMED,
    .reg Reg.FI_ARM.DCAUSE, .reg Reg.FI_GF.EN, .reg Reg.FI_FL.EN, .reg Reg.FI_PCIE.EN] s t := by
  unfold execFirmwareCommitWriteSelect
  refine ⟨_, rfl, ?_⟩
  repeat' first
    | intro _
    | with_reducible assumption
    | with_reducible exact Only.refl _ _
    | (with_reducible apply adminCmd_keep; exact .of (by decide +kernel))
    | (with_reducible apply Only.step (firmwareCommitBody_only ..); exact .of (by decide +kernel))
    | with_reducible apply_assumption -exfalso -symm
    | split
    | dsimp only

/-- What `execFirmwareCommitSelect` may change. -/
theorem execFirmwareCommitSelect_only (h : AdminHdr) (slot : Nat) (img : SlotImage) (s : State) :
    ∃ t,
    execFirmwareCommitSelect h slot img s = .next t ∧ Only [.out, .gen, .he, .ctl, .sh, .fs, .mg, .fi, .ff, .prov,
    .reg Reg.QE_CQFULL.COUNT, .reg Reg.MG_LOGSTAT.DROPPED, .reg Reg.MG_ERR.LOGDROP, .reg Reg.MG_ERR.WEAR, .reg Reg.FI_ARM.ARMED,
    .reg Reg.FI_ARM.DCAUSE, .reg Reg.FI_GF.EN, .reg Reg.FI_FL.EN, .reg Reg.FI_PCIE.EN] s t := by
  unfold execFirmwareCommitSelect
  refine ⟨_, rfl, ?_⟩
  repeat' first
    | intro _
    | with_reducible assumption
    | with_reducible exact Only.refl _ _
    | (with_reducible apply adminCmd_keep; exact .of (by decide +kernel))
    | (with_reducible apply Only.step (firmwareCommitBody_only ..); exact .of (by decide +kernel))
    | with_reducible apply_assumption -exfalso -symm
    | split
    | dsimp only

/-- What `fwDone` may change. -/
theorem fwDone_only (sct sc : Nat) (s : State) :
    Only [.out, .he, .ctl, .fs, .mg,
    .reg Reg.QE_CQFULL.COUNT] s (fwDone sct sc s) := by
  unfold fwDone
  repeat' first
    | intro _
    | with_reducible assumption
    | with_reducible exact Only.refl _ _
    | (extract_lets +onlyGivenNames x; refine Only.cut x ?_ (fun _ => ?_); unfold x; clear x; rotate_left; clear_value x)
    | (extract_lets +onlyGivenNames x; refine Only.cut2 x ?_ (fun _ => ?_); unfold x; clear x; rotate_left; clear_value x)
    | (extract_lets +onlyGivenNames x; clear_value x)
    | with_reducible apply Only.ite
    | fail_if_no_progress (with_reducible apply Only.upd_mg; decide +kernel)
    | (with_reducible apply Only.step (emit_only ..); exact .of (by decide +kernel))
    | (with_reducible apply Only.step (postCqe_only ..); exact .of (by decide +kernel))
    | with_reducible apply_assumption -exfalso -symm
    | split
    | dsimp only

/-- What `activationDone` may change. -/
theorem activationDone_only (s : State) :
    Only (List.append [.freeCtr, .out, .gen, .he, .ctl, .cmds, .fs, .mx, .mm, .cs,
    .bp, .tw, .dg, .mg, .fi, .ff, .prov, .fuses, .reg Reg.GEN_RSTCAUSE.MGRST, .reg Reg.GEN_DRAIN.ACTIVE,
    .reg Reg.QE_CQFULL.COUNT, .reg Reg.BP_ERRBUF.INDEX, .reg Reg.BP_ERRBUF.OWNER, .reg Reg.BP_ERRBUF.CAUSE,
    .reg Reg.BP_ERR.REVOKE, .reg Reg.MG_STAT.MGRESETS, .reg Reg.MG_WDOG.PERIOD, .reg Reg.MG_LOGSTAT.DROPPED,
    .reg Reg.FF_STATUS.BUSY, .reg Reg.MG_ERR.LOGDROP] [.reg Reg.FI_ARM.ARMED, .reg Reg.FI_ARM.DCAUSE, .reg Reg.FI_GF.EN,
    .reg Reg.FI_FL.EN, .reg Reg.FI_PCIE.EN]) s (activationDone s) := by
  unfold activationDone
  repeat' first
    | intro _
    | with_reducible assumption
    | with_reducible exact Only.refl _ _
    | (extract_lets +onlyGivenNames x; refine Only.cut x ?_ (fun _ => ?_); unfold x; clear x; rotate_left; clear_value x)
    | (extract_lets +onlyGivenNames x; refine Only.cut2 x ?_ (fun _ => ?_); unfold x; clear x; rotate_left; clear_value x)
    | (extract_lets +onlyGivenNames x; clear_value x)
    | with_reducible apply Only.ite
    | fail_if_no_progress (with_reducible apply Only.upd_cs_mg; decide +kernel; decide +kernel)
    | fail_if_no_progress (with_reducible apply Only.upd_dg; decide +kernel)
    | (with_reducible apply Only.step (notice_only ..); exact .of (by decide +kernel))
    | (with_reducible apply Only.step (fwDone_only ..); exact .of (by decide +kernel))
    | (with_reducible apply managementReset_keep; exact .of (by decide +kernel); decide +kernel)
    | (with_reducible apply Only.step (raiseArb_only ..); exact .of (by decide +kernel))
    | with_reducible apply_assumption -exfalso -symm
    | split
    | dsimp only

/-- What `activationFailed` may change. -/
theorem activationFailed_only (s : State) :
    Only [.out, .he, .ctl, .fs, .cs, .mg,
    .reg Reg.QE_CQFULL.COUNT] s (activationFailed s) := by
  unfold activationFailed
  repeat' first
    | intro _
    | with_reducible assumption
    | with_reducible exact Only.refl _ _
    | fail_if_no_progress (with_reducible apply Only.upd_cs_mg; decide +kernel; decide +kernel)
    | (with_reducible apply Only.step (fwDone_only ..); exact .of (by decide +kernel))
    | with_reducible apply_assumption -exfalso -symm
    | split
    | dsimp only

/-- What `startActivation` may change. -/
theorem startActivation_only (h : AdminHdr) (blk : Nat) (s : State) :
    Only (List.append [.freeCtr, .out, .gen, .he, .ctl,
    .cmds, .fs, .mx, .mm, .cs, .bp, .tw, .dg, .mg, .fi, .ff, .prov, .fuses, .reg Reg.GEN_RSTCAUSE.MGRST,
    .reg Reg.GEN_DRAIN.ACTIVE, .reg Reg.QE_CQFULL.COUNT, .reg Reg.BP_ERRBUF.INDEX, .reg Reg.BP_ERRBUF.OWNER,
    .reg Reg.BP_ERRBUF.CAUSE, .reg Reg.BP_ERR.REVOKE, .reg Reg.MG_STAT.SLOT, .reg Reg.MG_STAT.MGRESETS, .reg Reg.MG_WDOG.PERIOD,
    .reg Reg.MG_LOGSTAT.DROPPED, .reg Reg.FF_STATUS.BUSY] [.reg Reg.MG_ERR.LOGDROP, .reg Reg.FI_ARM.ARMED,
    .reg Reg.FI_ARM.DCAUSE, .reg Reg.FI_GF.EN, .reg Reg.FI_FL.EN, .reg Reg.FI_PCIE.EN]) s (startActivation h blk s) := by
  unfold startActivation
  repeat' first
    | intro _
    | with_reducible assumption
    | with_reducible exact Only.refl _ _
    | (extract_lets +onlyGivenNames x; refine Only.cut x ?_ (fun _ => ?_); unfold x; clear x; rotate_left; clear_value x)
    | (extract_lets +onlyGivenNames x; refine Only.cut2 x ?_ (fun _ => ?_); unfold x; clear x; rotate_left; clear_value x)
    | (extract_lets +onlyGivenNames x; refine Only.cutF x ?_ (fun _ => ?_); unfold x; clear x; rotate_left; clear_value x)
    | (extract_lets +onlyGivenNames x; refine Only.cutG x ?_ (fun _ => ?_); unfold x; clear x; rotate_left; clear_value x)
    | (extract_lets +onlyGivenNames x; refine Only.cutG2 x ?_ (fun _ => ?_); unfold x; clear x; rotate_left; clear_value x)
    | (extract_lets +onlyGivenNames x; refine Only.cutG3 x ?_ (fun _ => ?_); unfold x; clear x; rotate_left; clear_value x)
    | (extract_lets +onlyGivenNames x; refine Only.cutH x ?_ (fun _ => ?_); unfold x; clear x; rotate_left; clear_value x)
    | (extract_lets +onlyGivenNames x; clear_value x)
    | with_reducible apply Only.ite
    | fail_if_no_progress (with_reducible apply Only.upd_mg; decide +kernel)
    | fail_if_no_progress (with_reducible apply Only.upd_cs; decide +kernel)
    | (with_reducible apply Only.step (setF_only ..); exact .of (by decide +kernel))
    | (with_reducible apply Only.step (activationDone_only ..); exact .of (by decide +kernel))
    | with_reducible apply_assumption -exfalso -symm
    | split
    | dsimp only

/-- What `firmwareActivateBody` may change. -/
theorem firmwareActivateBody_only (h : AdminHdr) (slot : Nat) (img : SlotImage) (s : State) :
    Only (List.append [.freeCtr,
    .out, .eff, .gen, .he, .ctl, .sh, .defFaults, .lost, .cmds, .nextCmd, .fs, .mx, .ns, .nsWait, .mm, .sp, .cs, .bp, .me, .gf,
    .tw, .dg, .mg, .fi, .nand, .ff, .prov, .fuses,
    .win 0x80000 0x100000] [.win 0x88000 0xF0000]) s (firmwareActivateBody h slot img s) := by
  unfold firmwareActivateBody
  repeat' first
    | intro _
    | with_reducible assumption
    | with_reducible exact Only.refl _ _
    | with_reducible apply Only.ite
    | (with_reducible apply Only.step (adminFail_only ..); exact .of (by decide +kernel))
    | (with_reducible apply Only.step (commitSlot_only ..); exact .of (by decide +kernel))
    | with_reducible refine Only.step (Only.of_eq2 ‹_› (commitSlot_only ..)) (.of (by decide +kernel)) ?_
    | with_reducible refine Only.step (Only.of_eq3 ‹_› (commitSlot_only ..)) (.of (by decide +kernel)) ?_
    | (with_reducible apply Only.step (y9Reset_only ..); exact .of (by decide +kernel))
    | (with_reducible apply Only.step (adminOk_only ..); exact .of (by decide +kernel))
    | (with_reducible apply Only.step (startActivation_only ..); exact .of (by decide +kernel))
    | with_reducible apply_assumption -exfalso -symm
    | split
    | dsimp only

/-- What `execFirmwareCommitActivate` may change. -/
theorem execFirmwareCommitActivate_only (h : AdminHdr) (slot : Nat) (img : SlotImage) (s : State) :
    ∃ t,
    execFirmwareCommitActivate h slot img s = .next t ∧ Only (List.append [.freeCtr, .out, .eff, .gen, .he, .ctl, .sh,
    .defFaults, .lost, .cmds, .nextCmd, .fs, .mx, .ns, .nsWait, .mm, .sp, .cs, .bp, .me, .gf, .tw, .dg, .mg, .fi, .nand, .ff,
    .prov, .fuses, .win 0x80000 0x100000] [.win 0x88000 0xF0000]) s t := by
  unfold execFirmwareCommitActivate
  refine ⟨_, rfl, ?_⟩
  repeat' first
    | intro _
    | with_reducible assumption
    | with_reducible exact Only.refl _ _
    | (with_reducible apply adminCmd_keep; exact .of (by decide +kernel))
    | (with_reducible apply Only.step (firmwareActivateBody_only ..); exact .of (by decide +kernel))
    | with_reducible apply_assumption -exfalso -symm
    | split
    | dsimp only

end Sys2Proof.Machine
end

