-- ==== Sys2Proof/Laws/FrameIo.lean ====
section
/-! SUPPORT. What each operation of Machine/Io.lean may change, as `Only` states it: one lemma an operation, which later proofs cite
instead of unfolding it. -/
namespace Sys2Proof.Machine
set_option Elab.async false
set_option linter.all false

/-- What `execRead` may change. -/
theorem execRead_only (h : IoHdr) (slba nlb : Nat) (fua : Bool) (pr : PrInfo) (s : State) :
    ∃ t,
    execRead h slba nlb fua pr s = .next t ∧ Only (List.append [.freeCtr, .out, .gen, .he, .ctl, .sh, .defFaults, .lost, .cmds,
    .nextCmd, .fs, .mx, .ns, .nsWait, .mm, .bp, .me, .gf, .tw, .dg, .mg, .fi, .nand, .ff, .prov, .reg Reg.HE_EPCNT.A_COUNT,
    .reg Reg.HE_EPCNT.B_COUNT, .reg Reg.HE_WINLOG.COUNT, .reg Reg.HE_WINLOG.CAUSE,
    .reg Reg.HE_WINLOG.PORT] (List.append [.reg Reg.HE_WINLOGLO.OFFSET, .reg Reg.HE_WINLOGHI.OFFSET, .reg Reg.HE_WINLOGHI.RID,
    .reg Reg.QE_REFUSE.COUNT, .reg Reg.QE_HOSTXS.LAST, .reg Reg.QE_HOSTXS.COUNT, .reg Reg.QE_CQFULL.COUNT,
    .reg Reg.MX_PGMISS.COUNT, .reg Reg.MX_ERR.CEILHOLD, .reg Reg.MM_ERR.SHORTCLOSE, .reg Reg.MM_ERR.VATFULL,
    .reg Reg.DC_PIERR.GUARD, .reg Reg.DC_PIERR.APP, .reg Reg.DC_PIERR.REF, .reg Reg.BP_ERRBUF.INDEX, .reg Reg.BP_ERRBUF.OWNER,
    .reg Reg.BP_ERRBUF.CAUSE, .reg Reg.BP_ERR.REVOKE, .reg Reg.ME_POISON.CONSUMED, .reg Reg.ME_LASTHI.KIND,
    .reg Reg.ME_MERGE.EVICT, .reg Reg.ME_ERR.POISON, .reg Reg.GF_XFER.FAILED, .reg Reg.GF_ERR.XFERFAIL, .reg Reg.TW_ERR.WINHOLD,
    .reg Reg.TW_ERR.TOUCHFULL, .reg Reg.DG_RNG.RESEEDS, .reg Reg.MG_LOGSTAT.DROPPED, .reg Reg.MG_ERR.LOGDROP,
    .reg Reg.FI_ARM.ARMED] [.reg Reg.FI_ARM.DCAUSE, .reg Reg.FI_GF.EN, .reg Reg.FI_FL.EN, .reg Reg.FI_PCIE.EN,
    .reg Reg.FI_CNT.INJECTED])) s t := by
  unfold execRead
  refine ⟨_, rfl, ?_⟩
  repeat' first
    | intro _
    | with_reducible assumption
    | with_reducible exact Only.refl _ _
    | (with_reducible apply Only.step (ioRun_only ..); exact .of (by decide +kernel))
    | with_reducible apply_assumption -exfalso -symm
    | split
    | dsimp only

/-- What `execWrite` may change. -/
theorem execWrite_only (h : IoHdr) (slba nlb : Nat) (fua : Bool) (pr : PrInfo) (stream : Nat) (s : State) :
    ∃ t,
    execWrite h slba nlb fua pr stream s = .next t ∧ Only (List.append [.freeCtr, .out, .gen, .he, .ctl, .sh, .defFaults, .lost,
    .cmds, .nextCmd, .fs, .mx, .ns, .nsWait, .mm, .bp, .me, .gf, .tw, .dg, .mg, .fi, .nand, .ff, .prov,
    .reg Reg.HE_EPCNT.A_COUNT, .reg Reg.HE_EPCNT.B_COUNT, .reg Reg.HE_WINLOG.COUNT, .reg Reg.HE_WINLOG.CAUSE,
    .reg Reg.HE_WINLOG.PORT] (List.append [.reg Reg.HE_WINLOGLO.OFFSET, .reg Reg.HE_WINLOGHI.OFFSET, .reg Reg.HE_WINLOGHI.RID,
    .reg Reg.QE_REFUSE.COUNT, .reg Reg.QE_HOSTXS.LAST, .reg Reg.QE_HOSTXS.COUNT, .reg Reg.QE_CQFULL.COUNT,
    .reg Reg.MX_PGMISS.COUNT, .reg Reg.MX_ERR.CEILHOLD, .reg Reg.MM_ERR.SHORTCLOSE, .reg Reg.MM_ERR.VATFULL,
    .reg Reg.DC_PIERR.GUARD, .reg Reg.DC_PIERR.APP, .reg Reg.DC_PIERR.REF, .reg Reg.BP_ERRBUF.INDEX, .reg Reg.BP_ERRBUF.OWNER,
    .reg Reg.BP_ERRBUF.CAUSE, .reg Reg.BP_ERR.REVOKE, .reg Reg.ME_POISON.CONSUMED, .reg Reg.ME_LASTHI.KIND,
    .reg Reg.ME_MERGE.EVICT, .reg Reg.ME_ERR.POISON, .reg Reg.GF_XFER.FAILED, .reg Reg.GF_ERR.XFERFAIL, .reg Reg.TW_ERR.WINHOLD,
    .reg Reg.TW_ERR.TOUCHFULL, .reg Reg.DG_RNG.RESEEDS, .reg Reg.MG_LOGSTAT.DROPPED, .reg Reg.MG_ERR.LOGDROP,
    .reg Reg.FI_ARM.ARMED] [.reg Reg.FI_ARM.DCAUSE, .reg Reg.FI_GF.EN, .reg Reg.FI_FL.EN, .reg Reg.FI_PCIE.EN,
    .reg Reg.FI_CNT.INJECTED])) s t := by
  unfold execWrite
  refine ⟨_, rfl, ?_⟩
  repeat' first
    | intro _
    | with_reducible assumption
    | with_reducible exact Only.refl _ _
    | (with_reducible apply Only.step (ioRun_only ..); exact .of (by decide +kernel))
    | with_reducible apply_assumption -exfalso -symm
    | split
    | dsimp only

/-- What `flushAll` may change. -/
theorem flushAll_only (h : IoHdr) (s : State) :
    Only (List.append [.freeCtr, .out, .gen, .he, .ctl, .sh, .defFaults, .lost,
    .cmds, .nextCmd, .fs, .mx, .ns, .nsWait, .mm, .bp, .me, .gf, .tw, .dg, .mg, .fi, .nand, .ff, .prov,
    .reg Reg.HE_EPCNT.A_COUNT, .reg Reg.HE_EPCNT.B_COUNT, .reg Reg.HE_WINLOG.COUNT, .reg Reg.HE_WINLOG.CAUSE,
    .reg Reg.HE_WINLOG.PORT] (List.append [.reg Reg.HE_WINLOGLO.OFFSET, .reg Reg.HE_WINLOGHI.OFFSET, .reg Reg.HE_WINLOGHI.RID,
    .reg Reg.QE_REFUSE.COUNT, .reg Reg.QE_HOSTXS.LAST, .reg Reg.QE_HOSTXS.COUNT, .reg Reg.QE_CQFULL.COUNT,
    .reg Reg.MX_PGMISS.COUNT, .reg Reg.MX_ERR.CEILHOLD, .reg Reg.MM_ERR.SHORTCLOSE, .reg Reg.MM_ERR.VATFULL,
    .reg Reg.DC_PIERR.GUARD, .reg Reg.DC_PIERR.APP, .reg Reg.DC_PIERR.REF, .reg Reg.BP_ERRBUF.INDEX, .reg Reg.BP_ERRBUF.OWNER,
    .reg Reg.BP_ERRBUF.CAUSE, .reg Reg.BP_ERR.REVOKE, .reg Reg.ME_POISON.CONSUMED, .reg Reg.ME_LASTHI.KIND,
    .reg Reg.ME_MERGE.EVICT, .reg Reg.ME_ERR.POISON, .reg Reg.GF_XFER.FAILED, .reg Reg.GF_ERR.XFERFAIL, .reg Reg.TW_ERR.WINHOLD,
    .reg Reg.TW_ERR.TOUCHFULL, .reg Reg.DG_RNG.RESEEDS, .reg Reg.MG_LOGSTAT.DROPPED, .reg Reg.MG_ERR.LOGDROP,
    .reg Reg.FI_ARM.ARMED] [.reg Reg.FI_ARM.DCAUSE, .reg Reg.FI_GF.EN, .reg Reg.FI_FL.EN, .reg Reg.FI_PCIE.EN,
    .reg Reg.FI_CNT.INJECTED])) s (flushAll h s) := by
  unfold flushAll
  repeat' first
    | intro _
    | with_reducible assumption
    | with_reducible exact Only.refl _ _
    | (extract_lets +onlyGivenNames x; refine Only.cut x ?_ (fun _ => ?_); unfold x; clear x; rotate_left; clear_value x)
    | (extract_lets +onlyGivenNames x; refine Only.cut2 x ?_ (fun _ => ?_); unfold x; clear x; rotate_left; clear_value x)
    | (extract_lets +onlyGivenNames x; clear_value x)
    | with_reducible apply Only.ite
    | (with_reducible apply Only.step (sqeArrived_only ..); exact .of (by decide +kernel))
    | (with_reducible apply Only.step (ioFail_only ..); exact .of (by decide +kernel))
    | (with_reducible apply Only.step (admission_only ..); exact .of (by decide +kernel))
    | with_reducible apply_assumption -exfalso -symm
    | split
    | dsimp only

/-- What `execFlush` may change. -/
theorem execFlush_only (h : IoHdr) (s : State) :
    ∃ t, execFlush h s = .next t ∧ Only (List.append [.freeCtr, .out, .gen,
    .he, .ctl, .sh, .defFaults, .lost, .cmds, .nextCmd, .fs, .mx, .ns, .nsWait, .mm, .bp, .me, .gf, .tw, .dg, .mg, .fi, .nand,
    .ff, .prov, .reg Reg.HE_EPCNT.A_COUNT, .reg Reg.HE_EPCNT.B_COUNT, .reg Reg.HE_WINLOG.COUNT, .reg Reg.HE_WINLOG.CAUSE,
    .reg Reg.HE_WINLOG.PORT] (List.append [.reg Reg.HE_WINLOGLO.OFFSET, .reg Reg.HE_WINLOGHI.OFFSET, .reg Reg.HE_WINLOGHI.RID,
    .reg Reg.QE_REFUSE.COUNT, .reg Reg.QE_HOSTXS.LAST, .reg Reg.QE_HOSTXS.COUNT, .reg Reg.QE_CQFULL.COUNT,
    .reg Reg.MX_PGMISS.COUNT, .reg Reg.MX_ERR.CEILHOLD, .reg Reg.MM_ERR.SHORTCLOSE, .reg Reg.MM_ERR.VATFULL,
    .reg Reg.DC_PIERR.GUARD, .reg Reg.DC_PIERR.APP, .reg Reg.DC_PIERR.REF, .reg Reg.BP_ERRBUF.INDEX, .reg Reg.BP_ERRBUF.OWNER,
    .reg Reg.BP_ERRBUF.CAUSE, .reg Reg.BP_ERR.REVOKE, .reg Reg.ME_POISON.CONSUMED, .reg Reg.ME_LASTHI.KIND,
    .reg Reg.ME_MERGE.EVICT, .reg Reg.ME_ERR.POISON, .reg Reg.GF_XFER.FAILED, .reg Reg.GF_ERR.XFERFAIL, .reg Reg.TW_ERR.WINHOLD,
    .reg Reg.TW_ERR.TOUCHFULL, .reg Reg.DG_RNG.RESEEDS, .reg Reg.MG_LOGSTAT.DROPPED, .reg Reg.MG_ERR.LOGDROP,
    .reg Reg.FI_ARM.ARMED] [.reg Reg.FI_ARM.DCAUSE, .reg Reg.FI_GF.EN, .reg Reg.FI_FL.EN, .reg Reg.FI_PCIE.EN,
    .reg Reg.FI_CNT.INJECTED])) s t := by
  unfold execFlush
  refine ⟨_, rfl, ?_⟩
  repeat' first
    | intro _
    | with_reducible assumption
    | with_reducible exact Only.refl _ _
    | with_reducible apply Only.ite
    | (with_reducible apply Only.step (flushAll_only ..); exact .of (by decide +kernel))
    | (with_reducible apply Only.step (ioRun_only ..); exact .of (by decide +kernel))
    | with_reducible apply_assumption -exfalso -symm
    | split
    | dsimp only

/-- What `execWriteUncorrectable` may change. -/
theorem execWriteUncorrectable_only (h : IoHdr) (slba nlb : Nat) (s : State) :
    ∃ t,
    execWriteUncorrectable h slba nlb s = .next t ∧ Only (List.append [.freeCtr, .out, .gen, .he, .ctl, .sh, .defFaults, .lost,
    .cmds, .nextCmd, .fs, .mx, .ns, .nsWait, .mm, .bp, .me, .gf, .tw, .dg, .mg, .fi, .nand, .ff, .prov,
    .reg Reg.HE_EPCNT.A_COUNT, .reg Reg.HE_EPCNT.B_COUNT, .reg Reg.HE_WINLOG.COUNT, .reg Reg.HE_WINLOG.CAUSE,
    .reg Reg.HE_WINLOG.PORT] (List.append [.reg Reg.HE_WINLOGLO.OFFSET, .reg Reg.HE_WINLOGHI.OFFSET, .reg Reg.HE_WINLOGHI.RID,
    .reg Reg.QE_REFUSE.COUNT, .reg Reg.QE_HOSTXS.LAST, .reg Reg.QE_HOSTXS.COUNT, .reg Reg.QE_CQFULL.COUNT,
    .reg Reg.MX_PGMISS.COUNT, .reg Reg.MX_ERR.CEILHOLD, .reg Reg.MM_ERR.SHORTCLOSE, .reg Reg.MM_ERR.VATFULL,
    .reg Reg.DC_PIERR.GUARD, .reg Reg.DC_PIERR.APP, .reg Reg.DC_PIERR.REF, .reg Reg.BP_ERRBUF.INDEX, .reg Reg.BP_ERRBUF.OWNER,
    .reg Reg.BP_ERRBUF.CAUSE, .reg Reg.BP_ERR.REVOKE, .reg Reg.ME_POISON.CONSUMED, .reg Reg.ME_LASTHI.KIND,
    .reg Reg.ME_MERGE.EVICT, .reg Reg.ME_ERR.POISON, .reg Reg.GF_XFER.FAILED, .reg Reg.GF_ERR.XFERFAIL, .reg Reg.TW_ERR.WINHOLD,
    .reg Reg.TW_ERR.TOUCHFULL, .reg Reg.DG_RNG.RESEEDS, .reg Reg.MG_LOGSTAT.DROPPED, .reg Reg.MG_ERR.LOGDROP,
    .reg Reg.FI_ARM.ARMED] [.reg Reg.FI_ARM.DCAUSE, .reg Reg.FI_GF.EN, .reg Reg.FI_FL.EN, .reg Reg.FI_PCIE.EN,
    .reg Reg.FI_CNT.INJECTED])) s t := by
  unfold execWriteUncorrectable
  refine ⟨_, rfl, ?_⟩
  repeat' first
    | intro _
    | with_reducible assumption
    | with_reducible exact Only.refl _ _
    | (with_reducible apply Only.step (ioRun_only ..); exact .of (by decide +kernel))
    | with_reducible apply_assumption -exfalso -symm
    | split
    | dsimp only

/-- What `execWriteZeroes` may change. -/
theorem execWriteZeroes_only (h : IoHdr) (slba nlb : Nat) (fua _deac : Bool) (pr : PrInfo) (s : State) :
    ∃ t,
    execWriteZeroes h slba nlb fua _deac pr s = .next t ∧ Only (List.append [.freeCtr, .out, .gen, .he, .ctl, .sh, .defFaults,
    .lost, .cmds, .nextCmd, .fs, .mx, .ns, .nsWait, .mm, .bp, .me, .gf, .tw, .dg, .mg, .fi, .nand, .ff, .prov,
    .reg Reg.HE_EPCNT.A_COUNT, .reg Reg.HE_EPCNT.B_COUNT, .reg Reg.HE_WINLOG.COUNT, .reg Reg.HE_WINLOG.CAUSE,
    .reg Reg.HE_WINLOG.PORT] (List.append [.reg Reg.HE_WINLOGLO.OFFSET, .reg Reg.HE_WINLOGHI.OFFSET, .reg Reg.HE_WINLOGHI.RID,
    .reg Reg.QE_REFUSE.COUNT, .reg Reg.QE_HOSTXS.LAST, .reg Reg.QE_HOSTXS.COUNT, .reg Reg.QE_CQFULL.COUNT,
    .reg Reg.MX_PGMISS.COUNT, .reg Reg.MX_ERR.CEILHOLD, .reg Reg.MM_ERR.SHORTCLOSE, .reg Reg.MM_ERR.VATFULL,
    .reg Reg.DC_PIERR.GUARD, .reg Reg.DC_PIERR.APP, .reg Reg.DC_PIERR.REF, .reg Reg.BP_ERRBUF.INDEX, .reg Reg.BP_ERRBUF.OWNER,
    .reg Reg.BP_ERRBUF.CAUSE, .reg Reg.BP_ERR.REVOKE, .reg Reg.ME_POISON.CONSUMED, .reg Reg.ME_LASTHI.KIND,
    .reg Reg.ME_MERGE.EVICT, .reg Reg.ME_ERR.POISON, .reg Reg.GF_XFER.FAILED, .reg Reg.GF_ERR.XFERFAIL, .reg Reg.TW_ERR.WINHOLD,
    .reg Reg.TW_ERR.TOUCHFULL, .reg Reg.DG_RNG.RESEEDS, .reg Reg.MG_LOGSTAT.DROPPED, .reg Reg.MG_ERR.LOGDROP,
    .reg Reg.FI_ARM.ARMED] [.reg Reg.FI_ARM.DCAUSE, .reg Reg.FI_GF.EN, .reg Reg.FI_FL.EN, .reg Reg.FI_PCIE.EN,
    .reg Reg.FI_CNT.INJECTED])) s t := by
  unfold execWriteZeroes
  refine ⟨_, rfl, ?_⟩
  repeat' first
    | intro _
    | with_reducible assumption
    | with_reducible exact Only.refl _ _
    | with_reducible apply Only.ite
    | (with_reducible apply Only.step (ioRun_only ..); exact .of (by decide +kernel))
    | with_reducible apply_assumption -exfalso -symm
    | split
    | dsimp only

/-- What `dsmHint` may change. -/
theorem dsmHint_only (h : IoHdr) (ranges : List (Nat × Nat)) (s : State) :
    Only [.out, .he, .ctl, .defFaults, .fs,
    .reg Reg.QE_REFUSE.COUNT, .reg Reg.QE_CQFULL.COUNT] s (dsmHint h ranges s) := by
  unfold dsmHint
  repeat' first
    | intro _
    | with_reducible assumption
    | with_reducible exact Only.refl _ _
    | (extract_lets +onlyGivenNames x; refine Only.cut x ?_ (fun _ => ?_); unfold x; clear x; rotate_left; clear_value x)
    | (extract_lets +onlyGivenNames x; refine Only.cut2 x ?_ (fun _ => ?_); unfold x; clear x; rotate_left; clear_value x)
    | (extract_lets +onlyGivenNames x; refine Only.cutF x ?_ (fun _ => ?_); unfold x; clear x; rotate_left; clear_value x)
    | (extract_lets +onlyGivenNames x; refine Only.cutG x ?_ (fun _ => ?_); unfold x; clear x; rotate_left; clear_value x)
    | (extract_lets +onlyGivenNames x; refine Only.cutP x ?_ (fun _ => ?_); unfold x; clear x; rotate_left; clear_value x)
    | (extract_lets +onlyGivenNames x; refine Only.cutG2 x ?_ (fun _ => ?_); unfold x; clear x; rotate_left; clear_value x)
    | (extract_lets +onlyGivenNames x; refine Only.cutG3 x ?_ (fun _ => ?_); unfold x; clear x; rotate_left; clear_value x)
    | (extract_lets +onlyGivenNames x; refine Only.cutH x ?_ (fun _ => ?_); unfold x; clear x; rotate_left; clear_value x)
    | (extract_lets +onlyGivenNames x; clear_value x)
    | with_reducible apply Only.ite
    | (with_reducible apply Only.step (sqeArrived_only ..); exact .of (by decide +kernel))
    | (with_reducible apply Only.step (ioFail_only ..); exact .of (by decide +kernel))
    | (with_reducible apply Only.step (ioRefuse_only ..); exact .of (by decide +kernel))
    | (with_reducible apply Only.step (deliverReports_only ..); exact .of (by decide +kernel))
    | with_reducible apply_assumption -exfalso -symm
    | split
    | dsimp only

/-- What `execDatasetManagement` may change. -/
theorem execDatasetManagement_only (h : IoHdr) (ad : Bool) (ranges : List (Nat × Nat)) (s : State) :
    ∃ t,
    execDatasetManagement h ad ranges s = .next t ∧ Only (List.append [.freeCtr, .out, .gen, .he, .ctl, .sh, .defFaults, .lost,
    .cmds, .nextCmd, .fs, .mx, .ns, .nsWait, .mm, .bp, .me, .gf, .tw, .dg, .mg, .fi, .nand, .ff, .prov,
    .reg Reg.HE_EPCNT.A_COUNT, .reg Reg.HE_EPCNT.B_COUNT, .reg Reg.HE_WINLOG.COUNT, .reg Reg.HE_WINLOG.CAUSE,
    .reg Reg.HE_WINLOG.PORT] (List.append [.reg Reg.HE_WINLOGLO.OFFSET, .reg Reg.HE_WINLOGHI.OFFSET, .reg Reg.HE_WINLOGHI.RID,
    .reg Reg.QE_REFUSE.COUNT, .reg Reg.QE_HOSTXS.LAST, .reg Reg.QE_HOSTXS.COUNT, .reg Reg.QE_CQFULL.COUNT,
    .reg Reg.MX_PGMISS.COUNT, .reg Reg.MX_ERR.CEILHOLD, .reg Reg.MM_ERR.SHORTCLOSE, .reg Reg.MM_ERR.VATFULL,
    .reg Reg.DC_PIERR.GUARD, .reg Reg.DC_PIERR.APP, .reg Reg.DC_PIERR.REF, .reg Reg.BP_ERRBUF.INDEX, .reg Reg.BP_ERRBUF.OWNER,
    .reg Reg.BP_ERRBUF.CAUSE, .reg Reg.BP_ERR.REVOKE, .reg Reg.ME_POISON.CONSUMED, .reg Reg.ME_LASTHI.KIND,
    .reg Reg.ME_MERGE.EVICT, .reg Reg.ME_ERR.POISON, .reg Reg.GF_XFER.FAILED, .reg Reg.GF_ERR.XFERFAIL, .reg Reg.TW_ERR.WINHOLD,
    .reg Reg.TW_ERR.TOUCHFULL, .reg Reg.DG_RNG.RESEEDS, .reg Reg.MG_LOGSTAT.DROPPED, .reg Reg.MG_ERR.LOGDROP,
    .reg Reg.FI_ARM.ARMED] [.reg Reg.FI_ARM.DCAUSE, .reg Reg.FI_GF.EN, .reg Reg.FI_FL.EN, .reg Reg.FI_PCIE.EN,
    .reg Reg.FI_CNT.INJECTED])) s t := by
  unfold execDatasetManagement
  refine ⟨_, rfl, ?_⟩
  repeat' first
    | intro _
    | with_reducible assumption
    | with_reducible exact Only.refl _ _
    | with_reducible apply Only.ite
    | (with_reducible apply Only.step (dsmHint_only ..); exact .of (by decide +kernel))
    | (with_reducible apply Only.step (ioRun_only ..); exact .of (by decide +kernel))
    | with_reducible apply_assumption -exfalso -symm
    | split
    | dsimp only

/-- What `execVerify` may change. -/
theorem execVerify_only (h : IoHdr) (slba nlb : Nat) (pr : PrInfo) (s : State) :
    ∃ t,
    execVerify h slba nlb pr s = .next t ∧ Only (List.append [.freeCtr, .out, .gen, .he, .ctl, .sh, .defFaults, .lost, .cmds,
    .nextCmd, .fs, .mx, .ns, .nsWait, .mm, .bp, .me, .gf, .tw, .dg, .mg, .fi, .nand, .ff, .prov, .reg Reg.HE_EPCNT.A_COUNT,
    .reg Reg.HE_EPCNT.B_COUNT, .reg Reg.HE_WINLOG.COUNT, .reg Reg.HE_WINLOG.CAUSE,
    .reg Reg.HE_WINLOG.PORT] (List.append [.reg Reg.HE_WINLOGLO.OFFSET, .reg Reg.HE_WINLOGHI.OFFSET, .reg Reg.HE_WINLOGHI.RID,
    .reg Reg.QE_REFUSE.COUNT, .reg Reg.QE_HOSTXS.LAST, .reg Reg.QE_HOSTXS.COUNT, .reg Reg.QE_CQFULL.COUNT,
    .reg Reg.MX_PGMISS.COUNT, .reg Reg.MX_ERR.CEILHOLD, .reg Reg.MM_ERR.SHORTCLOSE, .reg Reg.MM_ERR.VATFULL,
    .reg Reg.DC_PIERR.GUARD, .reg Reg.DC_PIERR.APP, .reg Reg.DC_PIERR.REF, .reg Reg.BP_ERRBUF.INDEX, .reg Reg.BP_ERRBUF.OWNER,
    .reg Reg.BP_ERRBUF.CAUSE, .reg Reg.BP_ERR.REVOKE, .reg Reg.ME_POISON.CONSUMED, .reg Reg.ME_LASTHI.KIND,
    .reg Reg.ME_MERGE.EVICT, .reg Reg.ME_ERR.POISON, .reg Reg.GF_XFER.FAILED, .reg Reg.GF_ERR.XFERFAIL, .reg Reg.TW_ERR.WINHOLD,
    .reg Reg.TW_ERR.TOUCHFULL, .reg Reg.DG_RNG.RESEEDS, .reg Reg.MG_LOGSTAT.DROPPED, .reg Reg.MG_ERR.LOGDROP,
    .reg Reg.FI_ARM.ARMED] [.reg Reg.FI_ARM.DCAUSE, .reg Reg.FI_GF.EN, .reg Reg.FI_FL.EN, .reg Reg.FI_PCIE.EN,
    .reg Reg.FI_CNT.INJECTED])) s t := by
  unfold execVerify
  refine ⟨_, rfl, ?_⟩
  repeat' first
    | intro _
    | with_reducible assumption
    | with_reducible exact Only.refl _ _
    | (with_reducible apply Only.step (ioRun_only ..); exact .of (by decide +kernel))
    | with_reducible apply_assumption -exfalso -symm
    | split
    | dsimp only

/-- What `execCopy` may change. -/
theorem execCopy_only (h : IoHdr) (sdlba : Nat) (format : Nat) (ranges : List (Nat × Nat)) (fua : Bool) (prr prw : PrInfo) (s : State) :
    ∃ t,
    execCopy h sdlba format ranges fua prr prw s = .next t ∧ Only (List.append [.freeCtr, .out, .gen, .he, .ctl, .sh,
    .defFaults, .lost, .cmds, .nextCmd, .fs, .mx, .ns, .nsWait, .mm, .bp, .me, .gf, .tw, .dg, .mg, .fi, .nand, .ff, .prov,
    .reg Reg.HE_EPCNT.A_COUNT, .reg Reg.HE_EPCNT.B_COUNT, .reg Reg.HE_WINLOG.COUNT, .reg Reg.HE_WINLOG.CAUSE,
    .reg Reg.HE_WINLOG.PORT] (List.append [.reg Reg.HE_WINLOGLO.OFFSET, .reg Reg.HE_WINLOGHI.OFFSET, .reg Reg.HE_WINLOGHI.RID,
    .reg Reg.QE_REFUSE.COUNT, .reg Reg.QE_HOSTXS.LAST, .reg Reg.QE_HOSTXS.COUNT, .reg Reg.QE_CQFULL.COUNT,
    .reg Reg.MX_PGMISS.COUNT, .reg Reg.MX_ERR.CEILHOLD, .reg Reg.MM_ERR.SHORTCLOSE, .reg Reg.MM_ERR.VATFULL,
    .reg Reg.DC_PIERR.GUARD, .reg Reg.DC_PIERR.APP, .reg Reg.DC_PIERR.REF, .reg Reg.BP_ERRBUF.INDEX, .reg Reg.BP_ERRBUF.OWNER,
    .reg Reg.BP_ERRBUF.CAUSE, .reg Reg.BP_ERR.REVOKE, .reg Reg.ME_POISON.CONSUMED, .reg Reg.ME_LASTHI.KIND,
    .reg Reg.ME_MERGE.EVICT, .reg Reg.ME_ERR.POISON, .reg Reg.GF_XFER.FAILED, .reg Reg.GF_ERR.XFERFAIL, .reg Reg.TW_ERR.WINHOLD,
    .reg Reg.TW_ERR.TOUCHFULL, .reg Reg.DG_RNG.RESEEDS, .reg Reg.MG_LOGSTAT.DROPPED, .reg Reg.MG_ERR.LOGDROP,
    .reg Reg.FI_ARM.ARMED] [.reg Reg.FI_ARM.DCAUSE, .reg Reg.FI_GF.EN, .reg Reg.FI_FL.EN, .reg Reg.FI_PCIE.EN,
    .reg Reg.FI_CNT.INJECTED])) s t := by
  unfold execCopy
  refine ⟨_, rfl, ?_⟩
  repeat' first
    | intro _
    | with_reducible assumption
    | with_reducible exact Only.refl _ _
    | (extract_lets +onlyGivenNames x; refine Only.cut x ?_ (fun _ => ?_); unfold x; clear x; rotate_left; clear_value x)
    | (extract_lets +onlyGivenNames x; refine Only.cut2 x ?_ (fun _ => ?_); unfold x; clear x; rotate_left; clear_value x)
    | (extract_lets +onlyGivenNames x; refine Only.cutF x ?_ (fun _ => ?_); unfold x; clear x; rotate_left; clear_value x)
    | (extract_lets +onlyGivenNames x; refine Only.cutG x ?_ (fun _ => ?_); unfold x; clear x; rotate_left; clear_value x)
    | (extract_lets +onlyGivenNames x; refine Only.cutP x ?_ (fun _ => ?_); unfold x; clear x; rotate_left; clear_value x)
    | (extract_lets +onlyGivenNames x; refine Only.cutG2 x ?_ (fun _ => ?_); unfold x; clear x; rotate_left; clear_value x)
    | (extract_lets +onlyGivenNames x; refine Only.cutG3 x ?_ (fun _ => ?_); unfold x; clear x; rotate_left; clear_value x)
    | (extract_lets +onlyGivenNames x; refine Only.cutH x ?_ (fun _ => ?_); unfold x; clear x; rotate_left; clear_value x)
    | (extract_lets +onlyGivenNames x; clear_value x)
    | with_reducible apply Only.ite
    | (with_reducible apply Only.step (ioRun_only ..); exact .of (by decide +kernel))
    | with_reducible apply_assumption -exfalso -symm
    | split
    | dsimp only

/-- What `execFixityDigest` may change. -/
theorem execFixityDigest_only (h : IoHdr) (slba nlb : Nat) (alg : Nat) (s : State) :
    ∃ t,
    execFixityDigest h slba nlb alg s = .next t ∧ Only (List.append [.freeCtr, .out, .gen, .he, .ctl, .sh, .defFaults, .lost,
    .cmds, .nextCmd, .fs, .mx, .ns, .nsWait, .mm, .bp, .me, .gf, .tw, .dg, .mg, .fi, .nand, .ff, .prov,
    .reg Reg.HE_EPCNT.A_COUNT, .reg Reg.HE_EPCNT.B_COUNT, .reg Reg.HE_WINLOG.COUNT, .reg Reg.HE_WINLOG.CAUSE,
    .reg Reg.HE_WINLOG.PORT] (List.append [.reg Reg.HE_WINLOGLO.OFFSET, .reg Reg.HE_WINLOGHI.OFFSET, .reg Reg.HE_WINLOGHI.RID,
    .reg Reg.QE_REFUSE.COUNT, .reg Reg.QE_HOSTXS.LAST, .reg Reg.QE_HOSTXS.COUNT, .reg Reg.QE_CQFULL.COUNT,
    .reg Reg.MX_PGMISS.COUNT, .reg Reg.MX_ERR.CEILHOLD, .reg Reg.MM_ERR.SHORTCLOSE, .reg Reg.MM_ERR.VATFULL,
    .reg Reg.DC_PIERR.GUARD, .reg Reg.DC_PIERR.APP, .reg Reg.DC_PIERR.REF, .reg Reg.BP_ERRBUF.INDEX, .reg Reg.BP_ERRBUF.OWNER,
    .reg Reg.BP_ERRBUF.CAUSE, .reg Reg.BP_ERR.REVOKE, .reg Reg.ME_POISON.CONSUMED, .reg Reg.ME_LASTHI.KIND,
    .reg Reg.ME_MERGE.EVICT, .reg Reg.ME_ERR.POISON, .reg Reg.GF_XFER.FAILED, .reg Reg.GF_ERR.XFERFAIL, .reg Reg.TW_ERR.WINHOLD,
    .reg Reg.TW_ERR.TOUCHFULL, .reg Reg.DG_RNG.RESEEDS, .reg Reg.MG_LOGSTAT.DROPPED, .reg Reg.MG_ERR.LOGDROP,
    .reg Reg.FI_ARM.ARMED] [.reg Reg.FI_ARM.DCAUSE, .reg Reg.FI_GF.EN, .reg Reg.FI_FL.EN, .reg Reg.FI_PCIE.EN,
    .reg Reg.FI_CNT.INJECTED])) s t := by
  unfold execFixityDigest
  refine ⟨_, rfl, ?_⟩
  repeat' first
    | intro _
    | with_reducible assumption
    | with_reducible exact Only.refl _ _
    | with_reducible apply Only.ite
    | (with_reducible apply Only.step (ioRun_only ..); exact .of (by decide +kernel))
    | with_reducible apply_assumption -exfalso -symm
    | split
    | dsimp only

/-- What `dropTag` may change. -/
theorem dropTag_only (p : Port) (tag : Nat) (s : State) :
    Only [.he] s (dropTag p tag s) := by
  unfold dropTag
  repeat' first
    | intro _
    | with_reducible assumption
    | with_reducible exact Only.refl _ _
    | (with_reducible apply Only.step (State.updPort_only ..); exact .of (by decide +kernel))
    | with_reducible apply_assumption -exfalso -symm
    | split
    | dsimp only

/-- What `reissue` may change. -/
theorem reissue_only (p : Port) (t : Tag) (s : State) :
    Only [.out, .he] s (reissue p t s) := by
  unfold reissue
  repeat' first
    | intro _
    | with_reducible assumption
    | with_reducible exact Only.refl _ _
    | (extract_lets +onlyGivenNames x; refine Only.cut x ?_ (fun _ => ?_); unfold x; clear x; rotate_left; clear_value x)
    | (extract_lets +onlyGivenNames x; refine Only.cut2 x ?_ (fun _ => ?_); unfold x; clear x; rotate_left; clear_value x)
    | (extract_lets +onlyGivenNames x; refine Only.cutF x ?_ (fun _ => ?_); unfold x; clear x; rotate_left; clear_value x)
    | (extract_lets +onlyGivenNames x; refine Only.cutG x ?_ (fun _ => ?_); unfold x; clear x; rotate_left; clear_value x)
    | (extract_lets +onlyGivenNames x; refine Only.cutG2 x ?_ (fun _ => ?_); unfold x; clear x; rotate_left; clear_value x)
    | (extract_lets +onlyGivenNames x; refine Only.cutG3 x ?_ (fun _ => ?_); unfold x; clear x; rotate_left; clear_value x)
    | (extract_lets +onlyGivenNames x; refine Only.cutH x ?_ (fun _ => ?_); unfold x; clear x; rotate_left; clear_value x)
    | (extract_lets +onlyGivenNames x; clear_value x)
    | (with_reducible apply Only.step (emit_only ..); exact .of (by decide +kernel))
    | (with_reducible apply Only.step (State.updPort_only ..); exact .of (by decide +kernel))
    | with_reducible apply_assumption -exfalso -symm
    | split
    | dsimp only

/-- What `readFailed` may change. -/
theorem readFailed_only (p : Port) (t : Tag) (s : State) :
    Only (List.append [.freeCtr, .out, .gen, .he, .ctl, .sh, .cmds,
    .fs, .mx, .ns, .nsWait, .mm, .bp, .gf, .tw, .dg, .mg, .fi, .nand, .ff, .prov, .reg Reg.HE_ERRSTAT.A_SQEFAIL,
    .reg Reg.HE_ERRSTAT.B_SQEFAIL, .reg Reg.HE_WINLOG.COUNT, .reg Reg.HE_WINLOG.CAUSE, .reg Reg.HE_WINLOG.PORT,
    .reg Reg.HE_WINLOGLO.OFFSET, .reg Reg.HE_WINLOGHI.OFFSET, .reg Reg.HE_WINLOGHI.RID,
    .reg Reg.QE_CQFULL.COUNT] [.reg Reg.MM_ERR.SHORTCLOSE, .reg Reg.BP_ERRBUF.INDEX, .reg Reg.BP_ERRBUF.OWNER,
    .reg Reg.BP_ERRBUF.CAUSE, .reg Reg.BP_ERR.REVOKE, .reg Reg.GF_XFER.FAILED, .reg Reg.GF_ERR.XFERFAIL,
    .reg Reg.DG_RNG.RESEEDS, .reg Reg.MG_LOGSTAT.DROPPED, .reg Reg.MG_ERR.LOGDROP, .reg Reg.FI_ARM.ARMED,
    .reg Reg.FI_ARM.DCAUSE, .reg Reg.FI_GF.EN, .reg Reg.FI_FL.EN, .reg Reg.FI_PCIE.EN,
    .reg Reg.FI_CNT.INJECTED]) s (readFailed p t s) := by
  unfold readFailed
  repeat' first
    | intro _
    | with_reducible assumption
    | with_reducible exact Only.refl _ _
    | (extract_lets +onlyGivenNames x; refine Only.cut x ?_ (fun _ => ?_); unfold x; clear x; rotate_left; clear_value x)
    | (extract_lets +onlyGivenNames x; refine Only.cut2 x ?_ (fun _ => ?_); unfold x; clear x; rotate_left; clear_value x)
    | (extract_lets +onlyGivenNames x; refine Only.cutF x ?_ (fun _ => ?_); unfold x; clear x; rotate_left; clear_value x)
    | (extract_lets +onlyGivenNames x; refine Only.cutG x ?_ (fun _ => ?_); unfold x; clear x; rotate_left; clear_value x)
    | (extract_lets +onlyGivenNames x; refine Only.cutG2 x ?_ (fun _ => ?_); unfold x; clear x; rotate_left; clear_value x)
    | (extract_lets +onlyGivenNames x; refine Only.cutG3 x ?_ (fun _ => ?_); unfold x; clear x; rotate_left; clear_value x)
    | (extract_lets +onlyGivenNames x; refine Only.cutH x ?_ (fun _ => ?_); unfold x; clear x; rotate_left; clear_value x)
    | (extract_lets +onlyGivenNames x; clear_value x)
    | (with_reducible apply Only.step (dropTag_only ..); exact .of (by decide +kernel))
    | (with_reducible apply Only.step (sqeFailed_only ..); exact .of (by decide +kernel))
    | (with_reducible apply Only.step (sqeGone_only ..); exact .of (by decide +kernel))
    | (with_reducible apply Only.step (finishCmd_only ..); exact .of (by decide +kernel))
    | (with_reducible apply Only.step (State.updCon_only ..); exact .of (by decide +kernel))
    | with_reducible apply_assumption -exfalso -symm
    | split
    | dsimp only

/-- What `readRetry` may change. -/
theorem readRetry_only (p : Port) (t : Tag) (s : State) :
    Only (List.append [.freeCtr, .out, .gen, .he, .ctl, .sh, .cmds,
    .fs, .mx, .ns, .nsWait, .mm, .bp, .gf, .tw, .dg, .mg, .fi, .nand, .ff, .prov, .reg Reg.HE_ERRSTAT.A_SQEFAIL,
    .reg Reg.HE_ERRSTAT.B_SQEFAIL, .reg Reg.HE_WINLOG.COUNT, .reg Reg.HE_WINLOG.CAUSE, .reg Reg.HE_WINLOG.PORT,
    .reg Reg.HE_WINLOGLO.OFFSET, .reg Reg.HE_WINLOGHI.OFFSET, .reg Reg.HE_WINLOGHI.RID,
    .reg Reg.QE_CQFULL.COUNT] [.reg Reg.MM_ERR.SHORTCLOSE, .reg Reg.BP_ERRBUF.INDEX, .reg Reg.BP_ERRBUF.OWNER,
    .reg Reg.BP_ERRBUF.CAUSE, .reg Reg.BP_ERR.REVOKE, .reg Reg.GF_XFER.FAILED, .reg Reg.GF_ERR.XFERFAIL,
    .reg Reg.DG_RNG.RESEEDS, .reg Reg.MG_LOGSTAT.DROPPED, .reg Reg.MG_ERR.LOGDROP, .reg Reg.FI_ARM.ARMED,
    .reg Reg.FI_ARM.DCAUSE, .reg Reg.FI_GF.EN, .reg Reg.FI_FL.EN, .reg Reg.FI_PCIE.EN,
    .reg Reg.FI_CNT.INJECTED]) s (readRetry p t s) := by
  unfold readRetry
  repeat' first
    | intro _
    | with_reducible assumption
    | with_reducible exact Only.refl _ _
    | with_reducible apply Only.ite
    | (with_reducible apply Only.step (readFailed_only ..); exact .of (by decide +kernel))
    | (with_reducible apply Only.step (reissue_only ..); exact .of (by decide +kernel))
    | with_reducible apply_assumption -exfalso -symm
    | split
    | dsimp only

/-- What `slowHost` may change. -/
theorem slowHost_only (id ns : Nat) (s : State) :
    Only [.cmds, .fs, .reg Reg.QE_HOSTXS.LAST,
    .reg Reg.QE_HOSTXS.COUNT] s (slowHost id ns s) := by
  unfold slowHost
  repeat' first
    | intro _
    | with_reducible assumption
    | with_reducible exact Only.refl _ _
    | (extract_lets +onlyGivenNames x; refine Only.cut x ?_ (fun _ => ?_); unfold x; clear x; rotate_left; clear_value x)
    | (extract_lets +onlyGivenNames x; refine Only.cut2 x ?_ (fun _ => ?_); unfold x; clear x; rotate_left; clear_value x)
    | (extract_lets +onlyGivenNames x; refine Only.cutF x ?_ (fun _ => ?_); unfold x; clear x; rotate_left; clear_value x)
    | (extract_lets +onlyGivenNames x; refine Only.cutG x ?_ (fun _ => ?_); unfold x; clear x; rotate_left; clear_value x)
    | (extract_lets +onlyGivenNames x; refine Only.cutG2 x ?_ (fun _ => ?_); unfold x; clear x; rotate_left; clear_value x)
    | (extract_lets +onlyGivenNames x; refine Only.cutG3 x ?_ (fun _ => ?_); unfold x; clear x; rotate_left; clear_value x)
    | (extract_lets +onlyGivenNames x; refine Only.cutH x ?_ (fun _ => ?_); unfold x; clear x; rotate_left; clear_value x)
    | (extract_lets +onlyGivenNames x; clear_value x)
    | with_reducible apply Only.ite
    | (with_reducible apply Only.step (bump_only ..); exact .of (by decide +kernel))
    | (with_reducible apply Only.step (setSat_only ..); exact .of (by decide +kernel))
    | (with_reducible apply Only.step (updCmd_only ..); exact .of (by decide +kernel))
    | (with_reducible apply Only.step (extend_only ..); exact .of (by decide +kernel))
    | with_reducible apply_assumption -exfalso -symm
    | split
    | dsimp only

/-- What `partArrived` may change. -/
theorem partArrived_only (id part : Nat) (lbas : List HostLba) (s : State) :
    Only [.cmds,
    .me] s (partArrived id part lbas s) := by
  unfold partArrived
  repeat' first
    | intro _
    | with_reducible assumption
    | with_reducible exact Only.refl _ _
    | (extract_lets +onlyGivenNames x; refine Only.cut x ?_ (fun _ => ?_); unfold x; clear x; rotate_left; clear_value x)
    | (extract_lets +onlyGivenNames x; refine Only.cut2 x ?_ (fun _ => ?_); unfold x; clear x; rotate_left; clear_value x)
    | (extract_lets +onlyGivenNames x; refine Only.cutF x ?_ (fun _ => ?_); unfold x; clear x; rotate_left; clear_value x)
    | (extract_lets +onlyGivenNames x; refine Only.cutG x ?_ (fun _ => ?_); unfold x; clear x; rotate_left; clear_value x)
    | (extract_lets +onlyGivenNames x; refine Only.cutP x ?_ (fun _ => ?_); unfold x; clear x; rotate_left; clear_value x)
    | (extract_lets +onlyGivenNames x; refine Only.cutG2 x ?_ (fun _ => ?_); unfold x; clear x; rotate_left; clear_value x)
    | (extract_lets +onlyGivenNames x; refine Only.cutG3 x ?_ (fun _ => ?_); unfold x; clear x; rotate_left; clear_value x)
    | (extract_lets +onlyGivenNames x; refine Only.cutH x ?_ (fun _ => ?_); unfold x; clear x; rotate_left; clear_value x)
    | (extract_lets +onlyGivenNames x; clear_value x)
    | with_reducible apply Only.ite
    | (with_reducible apply Only.step (updCmd_only ..); exact .of (by decide +kernel))
    | (with_reducible apply Only.step (takeData_only ..); exact .of (by decide +kernel))
    | with_reducible apply_assumption -exfalso -symm
    | split
    | dsimp only

/-- What `readArrived` may change. -/
theorem readArrived_only (p : Port) (t : Tag) (lbas : List HostLba) (slowNs : Nat) (s : State) :
    Only [.out, .he, .cmds,
    .fs, .me, .reg Reg.QE_HOSTXS.LAST, .reg Reg.QE_HOSTXS.COUNT] s (readArrived p t lbas slowNs s) := by
  unfold readArrived
  repeat' first
    | intro _
    | with_reducible assumption
    | with_reducible exact Only.refl _ _
    | (with_reducible apply Only.step (issueReads_only ..); exact .of (by decide +kernel))
    | (with_reducible apply Only.step (partArrived_only ..); exact .of (by decide +kernel))
    | (with_reducible apply Only.step (slowHost_only ..); exact .of (by decide +kernel))
    | (with_reducible apply Only.step (dropTag_only ..); exact .of (by decide +kernel))
    | with_reducible apply_assumption -exfalso -symm
    | split
    | dsimp only

/-- What `hostReadCompletionEff` may change. -/
theorem hostReadCompletionEff_only (port : Port) (tag : Nat) (poisoned : Bool) (lbas : List HostLba) (slowNs : Nat) (s : State) :
    Only (List.append [.freeCtr,
    .out, .gen, .he, .ctl, .sh, .cmds, .fs, .mx, .ns, .nsWait, .mm, .bp, .me, .gf, .tw, .dg, .mg, .fi, .nand, .ff, .prov,
    .reg Reg.HE_ERRSTAT.A_POISRX, .reg Reg.HE_ERRSTAT.A_UNEXP, .reg Reg.HE_ERRSTAT.A_SQEFAIL, .reg Reg.HE_ERRSTAT.B_POISRX,
    .reg Reg.HE_ERRSTAT.B_UNEXP, .reg Reg.HE_ERRSTAT.B_SQEFAIL, .reg Reg.HE_WINLOG.COUNT,
    .reg Reg.HE_WINLOG.CAUSE] [.reg Reg.HE_WINLOG.PORT, .reg Reg.HE_WINLOGLO.OFFSET, .reg Reg.HE_WINLOGHI.OFFSET,
    .reg Reg.HE_WINLOGHI.RID, .reg Reg.QE_HOSTXS.LAST, .reg Reg.QE_HOSTXS.COUNT, .reg Reg.QE_CQFULL.COUNT,
    .reg Reg.MM_ERR.SHORTCLOSE, .reg Reg.BP_ERRBUF.INDEX, .reg Reg.BP_ERRBUF.OWNER, .reg Reg.BP_ERRBUF.CAUSE,
    .reg Reg.BP_ERR.REVOKE, .reg Reg.GF_XFER.FAILED, .reg Reg.GF_ERR.XFERFAIL, .reg Reg.DG_RNG.RESEEDS,
    .reg Reg.MG_LOGSTAT.DROPPED, .reg Reg.MG_ERR.LOGDROP, .reg Reg.FI_ARM.ARMED, .reg Reg.FI_ARM.DCAUSE, .reg Reg.FI_GF.EN,
    .reg Reg.FI_FL.EN, .reg Reg.FI_PCIE.EN,
    .reg Reg.FI_CNT.INJECTED]) s (hostReadCompletionEff port tag poisoned lbas slowNs s) := by
  unfold hostReadCompletionEff
  repeat' first
    | intro _
    | with_reducible assumption
    | with_reducible exact Only.refl _ _
    | with_reducible apply Only.ite
    | (with_reducible apply Only.step (flagOn_port ..); exact .of (by decide +kernel))
    | (with_reducible apply Only.step (flagOn_only ..); exact .of (by decide +kernel))
    | (with_reducible apply Only.step (pcieError_only ..); exact .of (by decide +kernel))
    | (with_reducible apply Only.step (issueReads_only ..); exact .of (by decide +kernel))
    | (with_reducible apply Only.step (dropTag_only ..); exact .of (by decide +kernel))
    | (with_reducible apply Only.step (readRetry_only ..); exact .of (by decide +kernel))
    | (with_reducible apply Only.step (poisonRx_only ..); exact .of (by decide +kernel))
    | (with_reducible apply Only.step (readArrived_only ..); exact .of (by decide +kernel))
    | with_reducible apply_assumption -exfalso -symm
    | split
    | dsimp only

/-- What `execHostReadCompletion` may change. -/
theorem execHostReadCompletion_only (port : Port) (tag : Nat) (poisoned : Bool) (lbas : List HostLba) (slowNs : Nat) (s : State) :
    ∃ t,
    execHostReadCompletion port tag poisoned lbas slowNs s = .next t ∧ Only (List.append [.freeCtr, .out, .gen, .he, .ctl, .sh,
    .cmds, .fs, .mx, .ns, .nsWait, .mm, .bp, .me, .gf, .tw, .dg, .mg, .fi, .nand, .ff, .prov, .reg Reg.HE_ERRSTAT.A_POISRX,
    .reg Reg.HE_ERRSTAT.A_UNEXP, .reg Reg.HE_ERRSTAT.A_SQEFAIL, .reg Reg.HE_ERRSTAT.B_POISRX, .reg Reg.HE_ERRSTAT.B_UNEXP,
    .reg Reg.HE_ERRSTAT.B_SQEFAIL, .reg Reg.HE_WINLOG.COUNT, .reg Reg.HE_WINLOG.CAUSE] [.reg Reg.HE_WINLOG.PORT,
    .reg Reg.HE_WINLOGLO.OFFSET, .reg Reg.HE_WINLOGHI.OFFSET, .reg Reg.HE_WINLOGHI.RID, .reg Reg.QE_HOSTXS.LAST,
    .reg Reg.QE_HOSTXS.COUNT, .reg Reg.QE_CQFULL.COUNT, .reg Reg.MM_ERR.SHORTCLOSE, .reg Reg.BP_ERRBUF.INDEX,
    .reg Reg.BP_ERRBUF.OWNER, .reg Reg.BP_ERRBUF.CAUSE, .reg Reg.BP_ERR.REVOKE, .reg Reg.GF_XFER.FAILED,
    .reg Reg.GF_ERR.XFERFAIL, .reg Reg.DG_RNG.RESEEDS, .reg Reg.MG_LOGSTAT.DROPPED, .reg Reg.MG_ERR.LOGDROP,
    .reg Reg.FI_ARM.ARMED, .reg Reg.FI_ARM.DCAUSE, .reg Reg.FI_GF.EN, .reg Reg.FI_FL.EN, .reg Reg.FI_PCIE.EN,
    .reg Reg.FI_CNT.INJECTED]) s t := by
  unfold execHostReadCompletion
  refine ⟨_, rfl, ?_⟩
  repeat' first
    | intro _
    | with_reducible assumption
    | with_reducible exact Only.refl _ _
    | (with_reducible apply Only.step (hostReadCompletionEff_only ..); exact .of (by decide +kernel))
    | with_reducible apply_assumption -exfalso -symm
    | split
    | dsimp only

/-- What `hostReadTimeoutEff` may change. -/
theorem hostReadTimeoutEff_only (port : Port) (tag : Nat) (s : State) :
    Only (List.append [.freeCtr, .out, .gen, .he, .ctl,
    .sh, .cmds, .fs, .mx, .ns, .nsWait, .mm, .bp, .gf, .tw, .dg, .mg, .fi, .nand, .ff, .prov, .reg Reg.HE_ERRSTAT.A_CTO,
    .reg Reg.HE_ERRSTAT.A_SQEFAIL, .reg Reg.HE_ERRSTAT.B_CTO, .reg Reg.HE_ERRSTAT.B_SQEFAIL, .reg Reg.HE_WINLOG.COUNT,
    .reg Reg.HE_WINLOG.CAUSE, .reg Reg.HE_WINLOG.PORT, .reg Reg.HE_WINLOGLO.OFFSET,
    .reg Reg.HE_WINLOGHI.OFFSET] [.reg Reg.HE_WINLOGHI.RID, .reg Reg.QE_CQFULL.COUNT, .reg Reg.MM_ERR.SHORTCLOSE,
    .reg Reg.BP_ERRBUF.INDEX, .reg Reg.BP_ERRBUF.OWNER, .reg Reg.BP_ERRBUF.CAUSE, .reg Reg.BP_ERR.REVOKE,
    .reg Reg.GF_XFER.FAILED, .reg Reg.GF_ERR.XFERFAIL, .reg Reg.DG_RNG.RESEEDS, .reg Reg.MG_LOGSTAT.DROPPED,
    .reg Reg.MG_ERR.LOGDROP, .reg Reg.FI_ARM.ARMED, .reg Reg.FI_ARM.DCAUSE, .reg Reg.FI_GF.EN, .reg Reg.FI_FL.EN,
    .reg Reg.FI_PCIE.EN, .reg Reg.FI_CNT.INJECTED]) s (hostReadTimeoutEff port tag s) := by
  unfold hostReadTimeoutEff
  repeat' first
    | intro _
    | with_reducible assumption
    | with_reducible exact Only.refl _ _
    | (extract_lets +onlyGivenNames x; refine Only.cut x ?_ (fun _ => ?_); unfold x; clear x; rotate_left; clear_value x)
    | (extract_lets +onlyGivenNames x; refine Only.cut2 x ?_ (fun _ => ?_); unfold x; clear x; rotate_left; clear_value x)
    | (extract_lets +onlyGivenNames x; refine Only.cutF x ?_ (fun _ => ?_); unfold x; clear x; rotate_left; clear_value x)
    | (extract_lets +onlyGivenNames x; refine Only.cutG x ?_ (fun _ => ?_); unfold x; clear x; rotate_left; clear_value x)
    | (extract_lets +onlyGivenNames x; refine Only.cutG2 x ?_ (fun _ => ?_); unfold x; clear x; rotate_left; clear_value x)
    | (extract_lets +onlyGivenNames x; refine Only.cutG3 x ?_ (fun _ => ?_); unfold x; clear x; rotate_left; clear_value x)
    | (extract_lets +onlyGivenNames x; refine Only.cutH x ?_ (fun _ => ?_); unfold x; clear x; rotate_left; clear_value x)
    | (extract_lets +onlyGivenNames x; clear_value x)
    | with_reducible apply Only.ite
    | (with_reducible apply Only.step (flagOn_port ..); exact .of (by decide +kernel))
    | (with_reducible apply Only.step (flagOn_only ..); exact .of (by decide +kernel))
    | (with_reducible apply Only.step (pcieError_only ..); exact .of (by decide +kernel))
    | (with_reducible apply Only.step (issueReads_only ..); exact .of (by decide +kernel))
    | (with_reducible apply Only.step (dropTag_only ..); exact .of (by decide +kernel))
    | (with_reducible apply Only.step (readRetry_only ..); exact .of (by decide +kernel))
    | with_reducible apply_assumption -exfalso -symm
    | split
    | dsimp only

/-- What `execHostReadTimeout` may change. -/
theorem execHostReadTimeout_only (port : Port) (tag : Nat) (s : State) :
    ∃ t,
    execHostReadTimeout port tag s = .next t ∧ Only (List.append [.freeCtr, .out, .gen, .he, .ctl, .sh, .cmds, .fs, .mx, .ns,
    .nsWait, .mm, .bp, .gf, .tw, .dg, .mg, .fi, .nand, .ff, .prov, .reg Reg.HE_ERRSTAT.A_CTO, .reg Reg.HE_ERRSTAT.A_SQEFAIL,
    .reg Reg.HE_ERRSTAT.B_CTO, .reg Reg.HE_ERRSTAT.B_SQEFAIL, .reg Reg.HE_WINLOG.COUNT, .reg Reg.HE_WINLOG.CAUSE,
    .reg Reg.HE_WINLOG.PORT, .reg Reg.HE_WINLOGLO.OFFSET, .reg Reg.HE_WINLOGHI.OFFSET] [.reg Reg.HE_WINLOGHI.RID,
    .reg Reg.QE_CQFULL.COUNT, .reg Reg.MM_ERR.SHORTCLOSE, .reg Reg.BP_ERRBUF.INDEX, .reg Reg.BP_ERRBUF.OWNER,
    .reg Reg.BP_ERRBUF.CAUSE, .reg Reg.BP_ERR.REVOKE, .reg Reg.GF_XFER.FAILED, .reg Reg.GF_ERR.XFERFAIL,
    .reg Reg.DG_RNG.RESEEDS, .reg Reg.MG_LOGSTAT.DROPPED, .reg Reg.MG_ERR.LOGDROP, .reg Reg.FI_ARM.ARMED,
    .reg Reg.FI_ARM.DCAUSE, .reg Reg.FI_GF.EN, .reg Reg.FI_FL.EN, .reg Reg.FI_PCIE.EN, .reg Reg.FI_CNT.INJECTED]) s t := by
  unfold execHostReadTimeout
  refine ⟨_, rfl, ?_⟩
  repeat' first
    | intro _
    | with_reducible assumption
    | with_reducible exact Only.refl _ _
    | (with_reducible apply Only.step (hostReadTimeoutEff_only ..); exact .of (by decide +kernel))
    | with_reducible apply_assumption -exfalso -symm
    | split
    | dsimp only

/-- What `refuseLate` may change. -/
theorem refuseLate_only (c : IoCmd) (s : State) :
    Only (List.append [.freeCtr, .out, .gen, .he, .ctl, .sh, .defFaults,
    .cmds, .fs, .mx, .ns, .nsWait, .mm, .bp, .gf, .tw, .dg, .mg, .fi, .nand, .ff, .prov, .reg Reg.HE_WINLOG.COUNT,
    .reg Reg.HE_WINLOG.CAUSE, .reg Reg.HE_WINLOG.PORT, .reg Reg.HE_WINLOGLO.OFFSET, .reg Reg.HE_WINLOGHI.OFFSET,
    .reg Reg.HE_WINLOGHI.RID, .reg Reg.QE_CQFULL.COUNT, .reg Reg.MM_ERR.SHORTCLOSE] [.reg Reg.BP_ERRBUF.INDEX,
    .reg Reg.BP_ERRBUF.OWNER, .reg Reg.BP_ERRBUF.CAUSE, .reg Reg.BP_ERR.REVOKE, .reg Reg.GF_XFER.FAILED,
    .reg Reg.GF_ERR.XFERFAIL, .reg Reg.DG_RNG.RESEEDS, .reg Reg.MG_LOGSTAT.DROPPED, .reg Reg.MG_ERR.LOGDROP,
    .reg Reg.FI_ARM.ARMED, .reg Reg.FI_ARM.DCAUSE, .reg Reg.FI_GF.EN, .reg Reg.FI_FL.EN, .reg Reg.FI_PCIE.EN,
    .reg Reg.FI_CNT.INJECTED]) s (refuseLate c s) := by
  unfold refuseLate
  repeat' first
    | intro _
    | with_reducible assumption
    | with_reducible exact Only.refl _ _
    | (extract_lets +onlyGivenNames x; refine Only.cut x ?_ (fun _ => ?_); unfold x; clear x; rotate_left; clear_value x)
    | (extract_lets +onlyGivenNames x; refine Only.cut2 x ?_ (fun _ => ?_); unfold x; clear x; rotate_left; clear_value x)
    | (extract_lets +onlyGivenNames x; refine Only.cutF x ?_ (fun _ => ?_); unfold x; clear x; rotate_left; clear_value x)
    | (extract_lets +onlyGivenNames x; refine Only.cutG x ?_ (fun _ => ?_); unfold x; clear x; rotate_left; clear_value x)
    | (extract_lets +onlyGivenNames x; refine Only.cutG2 x ?_ (fun _ => ?_); unfold x; clear x; rotate_left; clear_value x)
    | (extract_lets +onlyGivenNames x; refine Only.cutG3 x ?_ (fun _ => ?_); unfold x; clear x; rotate_left; clear_value x)
    | (extract_lets +onlyGivenNames x; refine Only.cutH x ?_ (fun _ => ?_); unfold x; clear x; rotate_left; clear_value x)
    | (extract_lets +onlyGivenNames x; clear_value x)
    | fail_if_no_progress (with_reducible apply Only.upd_cmds; decide +kernel)
    | (with_reducible apply Only.step (closeFixity_only ..); exact .of (by decide +kernel))
    | (with_reducible apply Only.step (unbook_only ..); exact .of (by decide +kernel))
    | (with_reducible apply Only.step (putBufs_only ..); exact .of (by decide +kernel))
    | (with_reducible apply Only.step (afterCompletion_only ..); exact .of (by decide +kernel))
    | (with_reducible apply Only.step (postCqe_only ..); exact .of (by decide +kernel))
    | (with_reducible apply Only.step (deliverReports_only ..); exact .of (by decide +kernel))
    | with_reducible apply_assumption -exfalso -symm
    | split
    | dsimp only

/-- What `mapPageLoadedEff` may change. -/
theorem mapPageLoadedEff_only (cmd : Nat) (s : State) :
    Only (List.append [.freeCtr, .out, .gen, .he, .ctl, .sh, .defFaults,
    .lost, .cmds, .fs, .mx, .ns, .nsWait, .mm, .bp, .me, .gf, .tw, .dg, .mg, .fi, .nand, .ff, .prov, .reg Reg.HE_EPCNT.A_COUNT,
    .reg Reg.HE_EPCNT.B_COUNT, .reg Reg.HE_WINLOG.COUNT, .reg Reg.HE_WINLOG.CAUSE, .reg Reg.HE_WINLOG.PORT,
    .reg Reg.HE_WINLOGLO.OFFSET] [.reg Reg.HE_WINLOGHI.OFFSET, .reg Reg.HE_WINLOGHI.RID, .reg Reg.QE_CQFULL.COUNT,
    .reg Reg.MX_PGMISS.COUNT, .reg Reg.MX_ERR.CEILHOLD, .reg Reg.MM_ERR.SHORTCLOSE, .reg Reg.DC_PIERR.GUARD,
    .reg Reg.DC_PIERR.APP, .reg Reg.DC_PIERR.REF, .reg Reg.BP_ERRBUF.INDEX, .reg Reg.BP_ERRBUF.OWNER, .reg Reg.BP_ERRBUF.CAUSE,
    .reg Reg.BP_ERR.REVOKE, .reg Reg.ME_POISON.CONSUMED, .reg Reg.ME_LASTHI.KIND, .reg Reg.ME_MERGE.EVICT,
    .reg Reg.ME_ERR.POISON, .reg Reg.GF_XFER.FAILED, .reg Reg.GF_ERR.XFERFAIL, .reg Reg.TW_ERR.WINHOLD,
    .reg Reg.TW_ERR.TOUCHFULL, .reg Reg.DG_RNG.RESEEDS, .reg Reg.MG_LOGSTAT.DROPPED, .reg Reg.MG_ERR.LOGDROP,
    .reg Reg.FI_ARM.ARMED, .reg Reg.FI_ARM.DCAUSE, .reg Reg.FI_GF.EN, .reg Reg.FI_FL.EN, .reg Reg.FI_PCIE.EN,
    .reg Reg.FI_CNT.INJECTED]) s (mapPageLoadedEff cmd s) := by
  unfold mapPageLoadedEff
  repeat' first
    | intro _
    | with_reducible assumption
    | with_reducible exact Only.refl _ _
    | (extract_lets +onlyGivenNames x; refine Only.cut x ?_ (fun _ => ?_); unfold x; clear x; rotate_left; clear_value x)
    | (extract_lets +onlyGivenNames x; refine Only.cut2 x ?_ (fun _ => ?_); unfold x; clear x; rotate_left; clear_value x)
    | (extract_lets +onlyGivenNames x; refine Only.cut3 x ?_ (fun _ => ?_); unfold x; clear x; rotate_left; clear_value x)
    | (extract_lets +onlyGivenNames x; refine Only.cutF x ?_ (fun _ => ?_); unfold x; clear x; rotate_left; clear_value x)
    | (extract_lets +onlyGivenNames x; refine Only.cutG x ?_ (fun _ => ?_); unfold x; clear x; rotate_left; clear_value x)
    | (extract_lets +onlyGivenNames x; refine Only.cutP x ?_ (fun _ => ?_); unfold x; clear x; rotate_left; clear_value x)
    | (extract_lets +onlyGivenNames x; refine Only.cutG2 x ?_ (fun _ => ?_); unfold x; clear x; rotate_left; clear_value x)
    | (extract_lets +onlyGivenNames x; refine Only.cutG3 x ?_ (fun _ => ?_); unfold x; clear x; rotate_left; clear_value x)
    | (extract_lets +onlyGivenNames x; refine Only.cutH x ?_ (fun _ => ?_); unfold x; clear x; rotate_left; clear_value x)
    | (extract_lets +onlyGivenNames x; clear_value x)
    | with_reducible apply Only.ite
    | (with_reducible apply Only.step (finishCmd_only ..); exact .of (by decide +kernel))
    | (with_reducible apply Only.step (touchPages_only ..); exact .of (by decide +kernel))
    | (with_reducible apply Only.step (refuseLate_only ..); exact .of (by decide +kernel))
    | (with_reducible apply Only.step (bookReads_only ..); exact .of (by decide +kernel))
    | with_reducible refine Only.step (Only.of_eq2 ‹_› (bookReads_only ..)) (.of (by decide +kernel)) ?_
    | with_reducible refine Only.step (Only.of_eq3 ‹_› (bookReads_only ..)) (.of (by decide +kernel)) ?_
    | (with_reducible apply Only.step (startCmd_only ..); exact .of (by decide +kernel))
    | (with_reducible apply Only.step (updCmd_only ..); exact .of (by decide +kernel))
    | with_reducible apply_assumption -exfalso -symm
    | split
    | dsimp only

/-- What `execMapPageLoaded` may change. -/
theorem execMapPageLoaded_only (cmd : Nat) (s : State) :
    ∃ t,
    execMapPageLoaded cmd s = .next t ∧ Only (List.append [.freeCtr, .out, .gen, .he, .ctl, .sh, .defFaults, .lost, .cmds, .fs,
    .mx, .ns, .nsWait, .mm, .bp, .me, .gf, .tw, .dg, .mg, .fi, .nand, .ff, .prov, .reg Reg.HE_EPCNT.A_COUNT,
    .reg Reg.HE_EPCNT.B_COUNT, .reg Reg.HE_WINLOG.COUNT, .reg Reg.HE_WINLOG.CAUSE, .reg Reg.HE_WINLOG.PORT,
    .reg Reg.HE_WINLOGLO.OFFSET] [.reg Reg.HE_WINLOGHI.OFFSET, .reg Reg.HE_WINLOGHI.RID, .reg Reg.QE_CQFULL.COUNT,
    .reg Reg.MX_PGMISS.COUNT, .reg Reg.MX_ERR.CEILHOLD, .reg Reg.MM_ERR.SHORTCLOSE, .reg Reg.DC_PIERR.GUARD,
    .reg Reg.DC_PIERR.APP, .reg Reg.DC_PIERR.REF, .reg Reg.BP_ERRBUF.INDEX, .reg Reg.BP_ERRBUF.OWNER, .reg Reg.BP_ERRBUF.CAUSE,
    .reg Reg.BP_ERR.REVOKE, .reg Reg.ME_POISON.CONSUMED, .reg Reg.ME_LASTHI.KIND, .reg Reg.ME_MERGE.EVICT,
    .reg Reg.ME_ERR.POISON, .reg Reg.GF_XFER.FAILED, .reg Reg.GF_ERR.XFERFAIL, .reg Reg.TW_ERR.WINHOLD,
    .reg Reg.TW_ERR.TOUCHFULL, .reg Reg.DG_RNG.RESEEDS, .reg Reg.MG_LOGSTAT.DROPPED, .reg Reg.MG_ERR.LOGDROP,
    .reg Reg.FI_ARM.ARMED, .reg Reg.FI_ARM.DCAUSE, .reg Reg.FI_GF.EN, .reg Reg.FI_FL.EN, .reg Reg.FI_PCIE.EN,
    .reg Reg.FI_CNT.INJECTED]) s t := by
  unfold execMapPageLoaded
  refine ⟨_, rfl, ?_⟩
  repeat' first
    | intro _
    | with_reducible assumption
    | with_reducible exact Only.refl _ _
    | (with_reducible apply Only.step (mapPageLoadedEff_only ..); exact .of (by decide +kernel))
    | with_reducible apply_assumption -exfalso -symm
    | split
    | dsimp only

/-- What `lc7AdmissionRetryEff` may change. -/
theorem lc7AdmissionRetryEff_only (cmd : Nat) (s : State) :
    Only (List.append [.freeCtr, .out, .gen, .he, .ctl, .sh,
    .defFaults, .lost, .cmds, .fs, .mx, .ns, .nsWait, .mm, .bp, .me, .gf, .tw, .dg, .mg, .fi, .nand, .ff, .prov,
    .reg Reg.HE_EPCNT.A_COUNT, .reg Reg.HE_EPCNT.B_COUNT, .reg Reg.HE_WINLOG.COUNT, .reg Reg.HE_WINLOG.CAUSE,
    .reg Reg.HE_WINLOG.PORT, .reg Reg.HE_WINLOGLO.OFFSET] [.reg Reg.HE_WINLOGHI.OFFSET, .reg Reg.HE_WINLOGHI.RID,
    .reg Reg.QE_CQFULL.COUNT, .reg Reg.MX_PGMISS.COUNT, .reg Reg.MX_ERR.CEILHOLD, .reg Reg.MM_ERR.SHORTCLOSE,
    .reg Reg.DC_PIERR.GUARD, .reg Reg.DC_PIERR.APP, .reg Reg.DC_PIERR.REF, .reg Reg.BP_ERRBUF.INDEX, .reg Reg.BP_ERRBUF.OWNER,
    .reg Reg.BP_ERRBUF.CAUSE, .reg Reg.BP_ERR.REVOKE, .reg Reg.ME_POISON.CONSUMED, .reg Reg.ME_LASTHI.KIND,
    .reg Reg.ME_MERGE.EVICT, .reg Reg.ME_ERR.POISON, .reg Reg.GF_XFER.FAILED, .reg Reg.GF_ERR.XFERFAIL, .reg Reg.TW_ERR.WINHOLD,
    .reg Reg.TW_ERR.TOUCHFULL, .reg Reg.DG_RNG.RESEEDS, .reg Reg.MG_LOGSTAT.DROPPED, .reg Reg.MG_ERR.LOGDROP,
    .reg Reg.FI_ARM.ARMED, .reg Reg.FI_ARM.DCAUSE, .reg Reg.FI_GF.EN, .reg Reg.FI_FL.EN, .reg Reg.FI_PCIE.EN,
    .reg Reg.FI_CNT.INJECTED]) s (lc7AdmissionRetryEff cmd s) := by
  unfold lc7AdmissionRetryEff
  repeat' first
    | intro _
    | with_reducible assumption
    | with_reducible exact Only.refl _ _
    | (extract_lets +onlyGivenNames x; refine Only.cut x ?_ (fun _ => ?_); unfold x; clear x; rotate_left; clear_value x)
    | (extract_lets +onlyGivenNames x; refine Only.cut2 x ?_ (fun _ => ?_); unfold x; clear x; rotate_left; clear_value x)
    | (extract_lets +onlyGivenNames x; refine Only.cutF x ?_ (fun _ => ?_); unfold x; clear x; rotate_left; clear_value x)
    | (extract_lets +onlyGivenNames x; refine Only.cutG x ?_ (fun _ => ?_); unfold x; clear x; rotate_left; clear_value x)
    | (extract_lets +onlyGivenNames x; refine Only.cutG2 x ?_ (fun _ => ?_); unfold x; clear x; rotate_left; clear_value x)
    | (extract_lets +onlyGivenNames x; refine Only.cutG3 x ?_ (fun _ => ?_); unfold x; clear x; rotate_left; clear_value x)
    | (extract_lets +onlyGivenNames x; refine Only.cutH x ?_ (fun _ => ?_); unfold x; clear x; rotate_left; clear_value x)
    | (extract_lets +onlyGivenNames x; clear_value x)
    | with_reducible apply Only.ite
    | (with_reducible apply Only.step (finishCmd_only ..); exact .of (by decide +kernel))
    | (with_reducible apply Only.step (refuseLate_only ..); exact .of (by decide +kernel))
    | with_reducible refine Only.step (tryLc7_eq ‹_›) (.of (by decide +kernel)) ?_
    | (with_reducible apply Only.step (updCmd_only ..); exact .of (by decide +kernel))
    | (with_reducible apply Only.step (updClass_only ..); exact .of (by decide +kernel))
    | (with_reducible apply Only.step (startCmd_only ..); exact .of (by decide +kernel))
    | (with_reducible apply Only.step (touchPages_only ..); exact .of (by decide +kernel))
    | with_reducible apply_assumption -exfalso -symm
    | split
    | dsimp only

/-- What `execLc7AdmissionRetry` may change. -/
theorem execLc7AdmissionRetry_only (cmd : Nat) (s : State) :
    ∃ t,
    execLc7AdmissionRetry cmd s = .next t ∧ Only (List.append [.freeCtr, .out, .gen, .he, .ctl, .sh, .defFaults, .lost, .cmds,
    .fs, .mx, .ns, .nsWait, .mm, .bp, .me, .gf, .tw, .dg, .mg, .fi, .nand, .ff, .prov, .reg Reg.HE_EPCNT.A_COUNT,
    .reg Reg.HE_EPCNT.B_COUNT, .reg Reg.HE_WINLOG.COUNT, .reg Reg.HE_WINLOG.CAUSE, .reg Reg.HE_WINLOG.PORT,
    .reg Reg.HE_WINLOGLO.OFFSET] [.reg Reg.HE_WINLOGHI.OFFSET, .reg Reg.HE_WINLOGHI.RID, .reg Reg.QE_CQFULL.COUNT,
    .reg Reg.MX_PGMISS.COUNT, .reg Reg.MX_ERR.CEILHOLD, .reg Reg.MM_ERR.SHORTCLOSE, .reg Reg.DC_PIERR.GUARD,
    .reg Reg.DC_PIERR.APP, .reg Reg.DC_PIERR.REF, .reg Reg.BP_ERRBUF.INDEX, .reg Reg.BP_ERRBUF.OWNER, .reg Reg.BP_ERRBUF.CAUSE,
    .reg Reg.BP_ERR.REVOKE, .reg Reg.ME_POISON.CONSUMED, .reg Reg.ME_LASTHI.KIND, .reg Reg.ME_MERGE.EVICT,
    .reg Reg.ME_ERR.POISON, .reg Reg.GF_XFER.FAILED, .reg Reg.GF_ERR.XFERFAIL, .reg Reg.TW_ERR.WINHOLD,
    .reg Reg.TW_ERR.TOUCHFULL, .reg Reg.DG_RNG.RESEEDS, .reg Reg.MG_LOGSTAT.DROPPED, .reg Reg.MG_ERR.LOGDROP,
    .reg Reg.FI_ARM.ARMED, .reg Reg.FI_ARM.DCAUSE, .reg Reg.FI_GF.EN, .reg Reg.FI_FL.EN, .reg Reg.FI_PCIE.EN,
    .reg Reg.FI_CNT.INJECTED]) s t := by
  unfold execLc7AdmissionRetry
  refine ⟨_, rfl, ?_⟩
  repeat' first
    | intro _
    | with_reducible assumption
    | with_reducible exact Only.refl _ _
    | (with_reducible apply Only.step (lc7AdmissionRetryEff_only ..); exact .of (by decide +kernel))
    | with_reducible apply_assumption -exfalso -symm
    | split
    | dsimp only

/-- What `dcForwardDoneEff` may change. -/
theorem dcForwardDoneEff_only (cmd : Nat) (s : State) :
    Only (List.append [.freeCtr, .out, .gen, .he, .ctl, .sh, .defFaults,
    .lost, .cmds, .fs, .mx, .ns, .nsWait, .mm, .bp, .me, .gf, .tw, .dg, .mg, .fi, .nand, .ff, .prov, .reg Reg.HE_WINLOG.COUNT,
    .reg Reg.HE_WINLOG.CAUSE, .reg Reg.HE_WINLOG.PORT, .reg Reg.HE_WINLOGLO.OFFSET, .reg Reg.HE_WINLOGHI.OFFSET,
    .reg Reg.HE_WINLOGHI.RID] [.reg Reg.QE_CQFULL.COUNT, .reg Reg.MX_ERR.CEILHOLD, .reg Reg.MM_ERR.SHORTCLOSE,
    .reg Reg.DC_PIERR.GUARD, .reg Reg.DC_PIERR.APP, .reg Reg.DC_PIERR.REF, .reg Reg.BP_ERRBUF.INDEX, .reg Reg.BP_ERRBUF.OWNER,
    .reg Reg.BP_ERRBUF.CAUSE, .reg Reg.BP_ERR.REVOKE, .reg Reg.ME_POISON.CONSUMED, .reg Reg.ME_LASTHI.KIND,
    .reg Reg.ME_ERR.POISON, .reg Reg.GF_XFER.FAILED, .reg Reg.GF_ERR.XFERFAIL, .reg Reg.TW_ERR.WINHOLD,
    .reg Reg.TW_ERR.TOUCHFULL, .reg Reg.DG_RNG.RESEEDS, .reg Reg.MG_LOGSTAT.DROPPED, .reg Reg.MG_ERR.LOGDROP,
    .reg Reg.FI_ARM.ARMED, .reg Reg.FI_ARM.DCAUSE, .reg Reg.FI_GF.EN, .reg Reg.FI_FL.EN, .reg Reg.FI_PCIE.EN,
    .reg Reg.FI_CNT.INJECTED]) s (dcForwardDoneEff cmd s) := by
  unfold dcForwardDoneEff
  repeat' first
    | intro _
    | with_reducible assumption
    | with_reducible exact Only.refl _ _
    | (extract_lets +onlyGivenNames x; refine Only.cut x ?_ (fun _ => ?_); unfold x; clear x; rotate_left; clear_value x)
    | (extract_lets +onlyGivenNames x; refine Only.cut2 x ?_ (fun _ => ?_); unfold x; clear x; rotate_left; clear_value x)
    | (extract_lets +onlyGivenNames x; refine Only.cutF x ?_ (fun _ => ?_); unfold x; clear x; rotate_left; clear_value x)
    | (extract_lets +onlyGivenNames x; refine Only.cutG x ?_ (fun _ => ?_); unfold x; clear x; rotate_left; clear_value x)
    | (extract_lets +onlyGivenNames x; refine Only.cutP x ?_ (fun _ => ?_); unfold x; clear x; rotate_left; clear_value x)
    | (extract_lets +onlyGivenNames x; refine Only.cutG2 x ?_ (fun _ => ?_); unfold x; clear x; rotate_left; clear_value x)
    | (extract_lets +onlyGivenNames x; refine Only.cutG3 x ?_ (fun _ => ?_); unfold x; clear x; rotate_left; clear_value x)
    | (extract_lets +onlyGivenNames x; refine Only.cutH x ?_ (fun _ => ?_); unfold x; clear x; rotate_left; clear_value x)
    | (extract_lets +onlyGivenNames x; clear_value x)
    | with_reducible apply Only.ite
    | (with_reducible apply Only.step (finishCmd_only ..); exact .of (by decide +kernel))
    | (with_reducible apply Only.step (piCount_only ..); exact .of (by decide +kernel))
    | (with_reducible apply Only.step (updCmd_only ..); exact .of (by decide +kernel))
    | (with_reducible apply Only.step (mirror_only ..); exact .of (by decide +kernel))
    | (with_reducible apply Only.step (commitCmd_only ..); exact .of (by decide +kernel))
    | with_reducible refine Only.foldl (fun _ _ _ => ?_) ?_
    | with_reducible refine Only.foldl2 (fun _ _ _ => ?_) ?_
    | with_reducible apply_assumption -exfalso -symm
    | split
    | dsimp only

/-- What `execDcForwardDone` may change. -/
theorem execDcForwardDone_only (cmd : Nat) (s : State) :
    ∃ t,
    execDcForwardDone cmd s = .next t ∧ Only (List.append [.freeCtr, .out, .gen, .he, .ctl, .sh, .defFaults, .lost, .cmds, .fs,
    .mx, .ns, .nsWait, .mm, .bp, .me, .gf, .tw, .dg, .mg, .fi, .nand, .ff, .prov, .reg Reg.HE_WINLOG.COUNT,
    .reg Reg.HE_WINLOG.CAUSE, .reg Reg.HE_WINLOG.PORT, .reg Reg.HE_WINLOGLO.OFFSET, .reg Reg.HE_WINLOGHI.OFFSET,
    .reg Reg.HE_WINLOGHI.RID] [.reg Reg.QE_CQFULL.COUNT, .reg Reg.MX_ERR.CEILHOLD, .reg Reg.MM_ERR.SHORTCLOSE,
    .reg Reg.DC_PIERR.GUARD, .reg Reg.DC_PIERR.APP, .reg Reg.DC_PIERR.REF, .reg Reg.BP_ERRBUF.INDEX, .reg Reg.BP_ERRBUF.OWNER,
    .reg Reg.BP_ERRBUF.CAUSE, .reg Reg.BP_ERR.REVOKE, .reg Reg.ME_POISON.CONSUMED, .reg Reg.ME_LASTHI.KIND,
    .reg Reg.ME_ERR.POISON, .reg Reg.GF_XFER.FAILED, .reg Reg.GF_ERR.XFERFAIL, .reg Reg.TW_ERR.WINHOLD,
    .reg Reg.TW_ERR.TOUCHFULL, .reg Reg.DG_RNG.RESEEDS, .reg Reg.MG_LOGSTAT.DROPPED, .reg Reg.MG_ERR.LOGDROP,
    .reg Reg.FI_ARM.ARMED, .reg Reg.FI_ARM.DCAUSE, .reg Reg.FI_GF.EN, .reg Reg.FI_FL.EN, .reg Reg.FI_PCIE.EN,
    .reg Reg.FI_CNT.INJECTED]) s t := by
  unfold execDcForwardDone
  refine ⟨_, rfl, ?_⟩
  repeat' first
    | intro _
    | with_reducible assumption
    | with_reducible exact Only.refl _ _
    | (with_reducible apply Only.step (dcForwardDoneEff_only ..); exact .of (by decide +kernel))
    | with_reducible apply_assumption -exfalso -symm
    | split
    | dsimp only

/-- What `completionPostEff` may change. -/
theorem completionPostEff_only (cmd : Nat) (s : State) :
    Only (List.append [.freeCtr, .out, .gen, .he, .ctl, .sh, .cmds,
    .fs, .mx, .ns, .nsWait, .mm, .bp, .gf, .tw, .dg, .mg, .fi, .nand, .ff, .prov, .reg Reg.HE_WINLOG.COUNT,
    .reg Reg.HE_WINLOG.CAUSE, .reg Reg.HE_WINLOG.PORT, .reg Reg.HE_WINLOGLO.OFFSET, .reg Reg.HE_WINLOGHI.OFFSET,
    .reg Reg.HE_WINLOGHI.RID, .reg Reg.QE_CQFULL.COUNT, .reg Reg.MM_ERR.SHORTCLOSE,
    .reg Reg.BP_ERRBUF.INDEX] [.reg Reg.BP_ERRBUF.OWNER, .reg Reg.BP_ERRBUF.CAUSE, .reg Reg.BP_ERR.REVOKE,
    .reg Reg.GF_XFER.FAILED, .reg Reg.GF_ERR.XFERFAIL, .reg Reg.DG_RNG.RESEEDS, .reg Reg.MG_LOGSTAT.DROPPED,
    .reg Reg.MG_ERR.LOGDROP, .reg Reg.FI_ARM.ARMED, .reg Reg.FI_ARM.DCAUSE, .reg Reg.FI_GF.EN, .reg Reg.FI_FL.EN,
    .reg Reg.FI_PCIE.EN, .reg Reg.FI_CNT.INJECTED]) s (completionPostEff cmd s) := by
  unfold completionPostEff
  repeat' first
    | intro _
    | with_reducible assumption
    | with_reducible exact Only.refl _ _
    | with_reducible apply Only.ite
    | (with_reducible apply Only.step (finishCmd_only ..); exact .of (by decide +kernel))
    | with_reducible apply_assumption -exfalso -symm
    | split
    | dsimp only

/-- What `execCompletionPost` may change. -/
theorem execCompletionPost_only (cmd : Nat) (s : State) :
    ∃ t,
    execCompletionPost cmd s = .next t ∧ Only (List.append [.freeCtr, .out, .gen, .he, .ctl, .sh, .cmds, .fs, .mx, .ns, .nsWait,
    .mm, .bp, .gf, .tw, .dg, .mg, .fi, .nand, .ff, .prov, .reg Reg.HE_WINLOG.COUNT, .reg Reg.HE_WINLOG.CAUSE,
    .reg Reg.HE_WINLOG.PORT, .reg Reg.HE_WINLOGLO.OFFSET, .reg Reg.HE_WINLOGHI.OFFSET, .reg Reg.HE_WINLOGHI.RID,
    .reg Reg.QE_CQFULL.COUNT, .reg Reg.MM_ERR.SHORTCLOSE, .reg Reg.BP_ERRBUF.INDEX] [.reg Reg.BP_ERRBUF.OWNER,
    .reg Reg.BP_ERRBUF.CAUSE, .reg Reg.BP_ERR.REVOKE, .reg Reg.GF_XFER.FAILED, .reg Reg.GF_ERR.XFERFAIL,
    .reg Reg.DG_RNG.RESEEDS, .reg Reg.MG_LOGSTAT.DROPPED, .reg Reg.MG_ERR.LOGDROP, .reg Reg.FI_ARM.ARMED,
    .reg Reg.FI_ARM.DCAUSE, .reg Reg.FI_GF.EN, .reg Reg.FI_FL.EN, .reg Reg.FI_PCIE.EN, .reg Reg.FI_CNT.INJECTED]) s t := by
  unfold execCompletionPost
  refine ⟨_, rfl, ?_⟩
  repeat' first
    | intro _
    | with_reducible assumption
    | with_reducible exact Only.refl _ _
    | (with_reducible apply Only.step (completionPostEff_only ..); exact .of (by decide +kernel))
    | with_reducible apply_assumption -exfalso -symm
    | split
    | dsimp only

/-- What `partialGrainMergeEff` may change. -/
theorem partialGrainMergeEff_only (stidx : Nat) (unreadableCause : Option Nat) (s : State) :
    Only [.out, .he, .ctl, .sh,
    .lost, .fs, .mx, .mg, .reg Reg.QE_CQFULL.COUNT, .reg Reg.MG_LOGSTAT.DROPPED,
    .reg Reg.MG_ERR.LOGDROP] s (partialGrainMergeEff stidx unreadableCause s) := by
  unfold partialGrainMergeEff
  repeat' first
    | intro _
    | with_reducible assumption
    | with_reducible exact Only.refl _ _
    | (extract_lets +onlyGivenNames x; refine Only.cut x ?_ (fun _ => ?_); unfold x; clear x; rotate_left; clear_value x)
    | (extract_lets +onlyGivenNames x; refine Only.cut2 x ?_ (fun _ => ?_); unfold x; clear x; rotate_left; clear_value x)
    | (extract_lets +onlyGivenNames x; refine Only.cutF x ?_ (fun _ => ?_); unfold x; clear x; rotate_left; clear_value x)
    | (extract_lets +onlyGivenNames x; refine Only.cutG x ?_ (fun _ => ?_); unfold x; clear x; rotate_left; clear_value x)
    | (extract_lets +onlyGivenNames x; refine Only.cutP x ?_ (fun _ => ?_); unfold x; clear x; rotate_left; clear_value x)
    | (extract_lets +onlyGivenNames x; refine Only.cutG2 x ?_ (fun _ => ?_); unfold x; clear x; rotate_left; clear_value x)
    | (extract_lets +onlyGivenNames x; refine Only.cutG3 x ?_ (fun _ => ?_); unfold x; clear x; rotate_left; clear_value x)
    | (extract_lets +onlyGivenNames x; refine Only.cutH x ?_ (fun _ => ?_); unfold x; clear x; rotate_left; clear_value x)
    | (extract_lets +onlyGivenNames x; clear_value x)
    | with_reducible apply Only.ite
    | (with_reducible apply Only.step (mergeStaged_only ..); exact .of (by decide +kernel))
    | (with_reducible apply Only.step (updStaged_only ..); exact .of (by decide +kernel))
    | (with_reducible apply Only.step (listLost_only ..); exact .of (by decide +kernel))
    | with_reducible refine Only.foldl (fun _ _ _ => ?_) ?_
    | with_reducible refine Only.foldl2 (fun _ _ _ => ?_) ?_
    | with_reducible apply_assumption -exfalso -symm
    | split
    | dsimp only

/-- What `execPartialGrainMerge` may change. -/
theorem execPartialGrainMerge_only (stidx : Nat) (unreadableCause : Option Nat) (s : State) :
    ∃ t,
    execPartialGrainMerge stidx unreadableCause s = .next t ∧ Only [.out, .he, .ctl, .sh, .lost, .fs, .mx, .mg,
    .reg Reg.QE_CQFULL.COUNT, .reg Reg.MG_LOGSTAT.DROPPED, .reg Reg.MG_ERR.LOGDROP] s t := by
  unfold execPartialGrainMerge
  refine ⟨_, rfl, ?_⟩
  repeat' first
    | intro _
    | with_reducible assumption
    | with_reducible exact Only.refl _ _
    | (with_reducible apply Only.step (partialGrainMergeEff_only ..); exact .of (by decide +kernel))
    | with_reducible apply_assumption -exfalso -symm
    | split
    | dsimp only

/-- What `moveRound` may change. -/
theorem moveRound_eq {close : Nat} {b : Booking} {s : State} {t} (hEq : moveRound close b s = some t) :
    Only [.cmds,
    .fs] s t := by
  unfold moveRound at hEq
  try dsimp only at hEq
  repeat' first
    | (cases hEq; done)
    | split at hEq
    | (simp only [Option.some.injEq, Prod.mk.injEq] at hEq; first | subst hEq | (obtain ⟨_, hEq⟩ := hEq; first | subst hEq | (obtain ⟨_, hEq⟩ := hEq; subst hEq)))
    | (simp at hEq; done)
  repeat' first
    | intro _
    | with_reducible assumption
    | with_reducible exact Only.refl _ _
    | (extract_lets +onlyGivenNames x; refine Only.cut x ?_ (fun _ => ?_); unfold x; clear x; rotate_left; clear_value x)
    | (extract_lets +onlyGivenNames x; refine Only.cut2 x ?_ (fun _ => ?_); unfold x; clear x; rotate_left; clear_value x)
    | (extract_lets +onlyGivenNames x; refine Only.cut3 x ?_ (fun _ => ?_); unfold x; clear x; rotate_left; clear_value x)
    | (extract_lets +onlyGivenNames x; refine Only.cutF x ?_ (fun _ => ?_); unfold x; clear x; rotate_left; clear_value x)
    | (extract_lets +onlyGivenNames x; refine Only.cutG x ?_ (fun _ => ?_); unfold x; clear x; rotate_left; clear_value x)
    | (extract_lets +onlyGivenNames x; refine Only.cutP x ?_ (fun _ => ?_); unfold x; clear x; rotate_left; clear_value x)
    | (extract_lets +onlyGivenNames x; refine Only.cutG2 x ?_ (fun _ => ?_); unfold x; clear x; rotate_left; clear_value x)
    | (extract_lets +onlyGivenNames x; refine Only.cutG3 x ?_ (fun _ => ?_); unfold x; clear x; rotate_left; clear_value x)
    | (extract_lets +onlyGivenNames x; refine Only.cutH x ?_ (fun _ => ?_); unfold x; clear x; rotate_left; clear_value x)
    | (extract_lets +onlyGivenNames x; clear_value x)
    | with_reducible apply Only.ite
    | fail_if_no_progress (with_reducible apply Only.upd_fs; decide +kernel)
    | (with_reducible apply Only.step (bookRound_only ..); exact .of (by decide +kernel))
    | with_reducible refine Only.step (Only.of_eq2 ‹_› (bookRound_only ..)) (.of (by decide +kernel)) ?_
    | with_reducible refine Only.step (Only.of_eq3 ‹_› (bookRound_only ..)) (.of (by decide +kernel)) ?_
    | (with_reducible apply Only.step (placeLink_only ..); exact .of (by decide +kernel))
    | with_reducible refine Only.step (Only.of_eq2 ‹_› (placeLink_only ..)) (.of (by decide +kernel)) ?_
    | with_reducible refine Only.step (Only.of_eq3 ‹_› (placeLink_only ..)) (.of (by decide +kernel)) ?_
    | (with_reducible apply Only.step (updCmd_only ..); exact .of (by decide +kernel))
    | with_reducible apply_assumption -exfalso -symm
    | split
    | dsimp only

/-- What `displace` may change, seen from its result. -/
theorem displace_eq {d opens close : Nat} {s : State} {a b t} (hEq : displace d opens close s = some (a, b, t)) :
    Only [.cmds, .fs] s t := by
  unfold displace at hEq
  dsimp only at hEq
  split at hEq
  · cases hEq; exact Only.upd_fs (by decide +kernel) (Only.refl _ _)
  split at hEq
  · rename_i b' _
    cases hm : moveRound close b' s with
    | none =>
      simp only [hm, Option.map_none, Option.getD_none, Option.some.injEq, Prod.mk.injEq] at hEq
      obtain ⟨_, _, rfl⟩ := hEq
      exact Only.upd_fs (by decide +kernel) (Only.refl _ _)
    | some u =>
      simp only [hm, Option.map_some, Option.getD_some, Option.some.injEq, Prod.mk.injEq] at hEq
      obtain ⟨_, _, rfl⟩ := hEq
      exact (moveRound_eq hm).mono (.of (by decide +kernel))
  · obtain ⟨x, _, h⟩ := List.exists_of_findSome?_eq_some hEq
    simp only [Option.map_eq_some_iff, Prod.mk.injEq] at h
    obtain ⟨u, hu, _, _, rfl⟩ := h
    exact (moveRound_eq hu).mono (.of (by decide +kernel))

/-- What `bookClaim` may change. -/
theorem bookClaim_only (cmd d start len : Nat) (s : State) :
    Only [.fs] s (bookClaim cmd d start len s) := by
  unfold bookClaim
  repeat' first
    | intro _
    | with_reducible assumption
    | with_reducible exact Only.refl _ _
    | (extract_lets +onlyGivenNames x; refine Only.cut x ?_ (fun _ => ?_); unfold x; clear x; rotate_left; clear_value x)
    | (extract_lets +onlyGivenNames x; refine Only.cut2 x ?_ (fun _ => ?_); unfold x; clear x; rotate_left; clear_value x)
    | (extract_lets +onlyGivenNames x; clear_value x)
    | (with_reducible apply Only.step (book_only ..); exact .of (by decide +kernel))
    | with_reducible apply_assumption -exfalso -symm
    | split
    | dsimp only

/-- What `takeSlot` may change. -/
theorem takeSlot_only (w : Window) (s : State) :
    Only [.fs] s (takeSlot w s).2 := by
  unfold takeSlot
  repeat' first
    | intro _
    | with_reducible assumption
    | with_reducible exact Only.refl _ _
    | (extract_lets +onlyGivenNames x; refine Only.cut x ?_ (fun _ => ?_); unfold x; clear x; rotate_left; clear_value x)
    | (extract_lets +onlyGivenNames x; refine Only.cut2 x ?_ (fun _ => ?_); unfold x; clear x; rotate_left; clear_value x)
    | (extract_lets +onlyGivenNames x; refine Only.cutF x ?_ (fun _ => ?_); unfold x; clear x; rotate_left; clear_value x)
    | (extract_lets +onlyGivenNames x; refine Only.cutG x ?_ (fun _ => ?_); unfold x; clear x; rotate_left; clear_value x)
    | (extract_lets +onlyGivenNames x; refine Only.cutP x ?_ (fun _ => ?_); unfold x; clear x; rotate_left; clear_value x)
    | (extract_lets +onlyGivenNames x; refine Only.cutG2 x ?_ (fun _ => ?_); unfold x; clear x; rotate_left; clear_value x)
    | (extract_lets +onlyGivenNames x; refine Only.cutG3 x ?_ (fun _ => ?_); unfold x; clear x; rotate_left; clear_value x)
    | (extract_lets +onlyGivenNames x; refine Only.cutH x ?_ (fun _ => ?_); unfold x; clear x; rotate_left; clear_value x)
    | (extract_lets +onlyGivenNames x; clear_value x)
    | fail_if_no_progress (with_reducible apply Only.upd_fs; decide +kernel)
    | with_reducible apply_assumption -exfalso -symm
    | split
    | dsimp only

/-- What `earliestRound` may change. -/
theorem earliestRound_only (d : Nat) (s : State) :
    Only [.fs] s (earliestRound d s).2 := by
  unfold earliestRound
  repeat' first
    | intro _
    | with_reducible assumption
    | with_reducible exact Only.refl _ _
    | (extract_lets +onlyGivenNames x; refine Only.cut x ?_ (fun _ => ?_); unfold x; clear x; rotate_left; clear_value x)
    | (extract_lets +onlyGivenNames x; refine Only.cut2 x ?_ (fun _ => ?_); unfold x; clear x; rotate_left; clear_value x)
    | (extract_lets +onlyGivenNames x; refine Only.cut3 x ?_ (fun _ => ?_); unfold x; clear x; rotate_left; clear_value x)
    | (extract_lets +onlyGivenNames x; refine Only.cutF x ?_ (fun _ => ?_); unfold x; clear x; rotate_left; clear_value x)
    | (extract_lets +onlyGivenNames x; refine Only.cutG x ?_ (fun _ => ?_); unfold x; clear x; rotate_left; clear_value x)
    | (extract_lets +onlyGivenNames x; refine Only.cutP x ?_ (fun _ => ?_); unfold x; clear x; rotate_left; clear_value x)
    | (extract_lets +onlyGivenNames x; refine Only.cutG2 x ?_ (fun _ => ?_); unfold x; clear x; rotate_left; clear_value x)
    | (extract_lets +onlyGivenNames x; refine Only.cutG3 x ?_ (fun _ => ?_); unfold x; clear x; rotate_left; clear_value x)
    | (extract_lets +onlyGivenNames x; refine Only.cutH x ?_ (fun _ => ?_); unfold x; clear x; rotate_left; clear_value x)
    | (extract_lets +onlyGivenNames x; clear_value x)
    | fail_if_no_progress (with_reducible apply Only.upd_fs; decide +kernel)
    | (with_reducible apply Only.step (takeSlot_only ..); exact .of (by decide +kernel))
    | with_reducible refine Only.step (Only.of_eq2 ‹_› (takeSlot_only ..)) (.of (by decide +kernel)) ?_
    | with_reducible refine Only.step (Only.of_eq3 ‹_› (takeSlot_only ..)) (.of (by decide +kernel)) ?_
    | with_reducible apply_assumption -exfalso -symm
    | split
    | dsimp only

/-- What `claimLate` may change. -/
theorem claimLate_only (cmd d : Nat) (s : State) :
    Only [.cmds, .fs, .reg Reg.FS_CONT.BEYOND] s (claimLate cmd d s) := by
  unfold claimLate
  repeat' first
    | intro _
    | with_reducible assumption
    | with_reducible exact Only.refl _ _
    | (extract_lets +onlyGivenNames x; refine Only.cut x ?_ (fun _ => ?_); unfold x; clear x; rotate_left; clear_value x)
    | (extract_lets +onlyGivenNames x; refine Only.cut2 x ?_ (fun _ => ?_); unfold x; clear x; rotate_left; clear_value x)
    | (extract_lets +onlyGivenNames x; refine Only.cut3 x ?_ (fun _ => ?_); unfold x; clear x; rotate_left; clear_value x)
    | (extract_lets +onlyGivenNames x; refine Only.cutF x ?_ (fun _ => ?_); unfold x; clear x; rotate_left; clear_value x)
    | (extract_lets +onlyGivenNames x; refine Only.cutG x ?_ (fun _ => ?_); unfold x; clear x; rotate_left; clear_value x)
    | (extract_lets +onlyGivenNames x; refine Only.cutP x ?_ (fun _ => ?_); unfold x; clear x; rotate_left; clear_value x)
    | (extract_lets +onlyGivenNames x; refine Only.cutG2 x ?_ (fun _ => ?_); unfold x; clear x; rotate_left; clear_value x)
    | (extract_lets +onlyGivenNames x; refine Only.cutG3 x ?_ (fun _ => ?_); unfold x; clear x; rotate_left; clear_value x)
    | (extract_lets +onlyGivenNames x; refine Only.cutH x ?_ (fun _ => ?_); unfold x; clear x; rotate_left; clear_value x)
    | (extract_lets +onlyGivenNames x; clear_value x)
    | with_reducible apply Only.ite
    | (with_reducible apply Only.step (bump_only ..); exact .of (by decide +kernel))
    | (with_reducible apply Only.step (earliestRound_only ..); exact .of (by decide +kernel))
    | with_reducible refine Only.step (Only.of_eq2 ‹_› (earliestRound_only ..)) (.of (by decide +kernel)) ?_
    | with_reducible refine Only.step (Only.of_eq3 ‹_› (earliestRound_only ..)) (.of (by decide +kernel)) ?_
    | (with_reducible apply Only.step (bookClaim_only ..); exact .of (by decide +kernel))
    | (with_reducible apply Only.step (updCmd_only ..); exact .of (by decide +kernel))
    | with_reducible apply_assumption -exfalso -symm
    | split
    | dsimp only

/-- What `claimRound` may change. -/
theorem claimRound_only (cmd d : Nat) (s : State) :
    Only [.cmds, .fs, .reg Reg.FS_CONT.CLAIMS, .reg Reg.FS_CONT.DISPL,
    .reg Reg.FS_CONT.BEYOND] s (claimRound cmd d s) := by
  unfold claimRound
  repeat' first
    | intro _
    | with_reducible assumption
    | with_reducible exact Only.refl _ _
    | (extract_lets +onlyGivenNames x; refine Only.cut x ?_ (fun _ => ?_); unfold x; clear x; rotate_left; clear_value x)
    | (extract_lets +onlyGivenNames x; refine Only.cut2 x ?_ (fun _ => ?_); unfold x; clear x; rotate_left; clear_value x)
    | (extract_lets +onlyGivenNames x; refine Only.cut3 x ?_ (fun _ => ?_); unfold x; clear x; rotate_left; clear_value x)
    | (extract_lets +onlyGivenNames x; clear_value x)
    | with_reducible apply Only.ite
    | (with_reducible apply Only.step (bump_only ..); exact .of (by decide +kernel))
    | (with_reducible apply Only.step (bookClaim_only ..); exact .of (by decide +kernel))
    | (with_reducible apply Only.step (earliestRound_only ..); exact .of (by decide +kernel))
    | with_reducible refine Only.step (Only.of_eq2 ‹_› (earliestRound_only ..)) (.of (by decide +kernel)) ?_
    | with_reducible refine Only.step (Only.of_eq3 ‹_› (earliestRound_only ..)) (.of (by decide +kernel)) ?_
    | (with_reducible apply Only.step (takeSlot_only ..); exact .of (by decide +kernel))
    | with_reducible refine Only.step (Only.of_eq2 ‹_› (takeSlot_only ..)) (.of (by decide +kernel)) ?_
    | with_reducible refine Only.step (Only.of_eq3 ‹_› (takeSlot_only ..)) (.of (by decide +kernel)) ?_
    | with_reducible refine Only.step (displace_eq ‹_›) (.of (by decide +kernel)) ?_
    | (with_reducible apply Only.step (claimLate_only ..); exact .of (by decide +kernel))
    | with_reducible apply_assumption -exfalso -symm
    | split
    | dsimp only

/-- What `claimSoft` may change. -/
theorem claimSoft_only (cmd lba d : Nat) (s : State) :
    Only [.cmds, .fs, .reg Reg.FS_CONT.CLAIMS, .reg Reg.FS_CONT.DISPL,
    .reg Reg.FS_CONT.BEYOND] s (claimSoft cmd lba d s) := by
  unfold claimSoft
  repeat' first
    | intro _
    | with_reducible assumption
    | with_reducible exact Only.refl _ _
    | (with_reducible apply Only.step (claimRound_only ..); exact .of (by decide +kernel))
    | (with_reducible apply Only.step (updCmd_only ..); exact .of (by decide +kernel))
    | with_reducible apply_assumption -exfalso -symm
    | split
    | dsimp only

/-- What `claimAll` may change. -/
theorem claimAll_only (cmd lba : Nat) (e : MapEntry) (s : State) :
    Only [.freeCtr, .cmds, .fs, .reg Reg.FS_CONT.CLAIMS,
    .reg Reg.FS_CONT.DISPL, .reg Reg.FS_CONT.BEYOND] s (claimAll cmd lba e s) := by
  unfold claimAll
  repeat' first
    | intro _
    | with_reducible assumption
    | with_reducible exact Only.refl _ _
    | (extract_lets +onlyGivenNames x; refine Only.cut x ?_ (fun _ => ?_); unfold x; clear x; rotate_left; clear_value x)
    | (extract_lets +onlyGivenNames x; refine Only.cut2 x ?_ (fun _ => ?_); unfold x; clear x; rotate_left; clear_value x)
    | (extract_lets +onlyGivenNames x; refine Only.cutF x ?_ (fun _ => ?_); unfold x; clear x; rotate_left; clear_value x)
    | (extract_lets +onlyGivenNames x; refine Only.cutG x ?_ (fun _ => ?_); unfold x; clear x; rotate_left; clear_value x)
    | (extract_lets +onlyGivenNames x; refine Only.cutG2 x ?_ (fun _ => ?_); unfold x; clear x; rotate_left; clear_value x)
    | (extract_lets +onlyGivenNames x; refine Only.cutG3 x ?_ (fun _ => ?_); unfold x; clear x; rotate_left; clear_value x)
    | (extract_lets +onlyGivenNames x; refine Only.cutH x ?_ (fun _ => ?_); unfold x; clear x; rotate_left; clear_value x)
    | (extract_lets +onlyGivenNames x; clear_value x)
    | with_reducible apply Only.ite
    | (with_reducible apply Only.step (claimSoft_only ..); exact .of (by decide +kernel))
    | (with_reducible apply Only.step (claimRound_only ..); exact .of (by decide +kernel))
    | (with_reducible apply Only.step (tickFree_only ..); exact .of (by decide +kernel))
    | with_reducible refine Only.foldl (fun _ _ _ => ?_) ?_
    | with_reducible refine Only.foldl2 (fun _ _ _ => ?_) ?_
    | with_reducible apply_assumption -exfalso -symm
    | split
    | dsimp only

/-- What `lbaArrived` may change. -/
theorem lbaArrived_only (cmd lba : Nat) (s : State) :
    Only (List.append [.freeCtr, .out, .gen, .he, .ctl, .sh, .cmds, .fs,
    .mx, .ns, .nsWait, .mm, .bp, .me, .gf, .tw, .dg, .mg, .fi, .nand, .ff, .prov, .reg Reg.HE_EPCNT.A_COUNT,
    .reg Reg.HE_EPCNT.B_COUNT, .reg Reg.HE_WINLOG.COUNT, .reg Reg.HE_WINLOG.CAUSE, .reg Reg.HE_WINLOG.PORT,
    .reg Reg.HE_WINLOGLO.OFFSET, .reg Reg.HE_WINLOGHI.OFFSET, .reg Reg.HE_WINLOGHI.RID] [.reg Reg.QE_CQFULL.COUNT,
    .reg Reg.MM_ERR.SHORTCLOSE, .reg Reg.DC_PIERR.GUARD, .reg Reg.DC_PIERR.APP, .reg Reg.DC_PIERR.REF, .reg Reg.BP_ERRBUF.INDEX,
    .reg Reg.BP_ERRBUF.OWNER, .reg Reg.BP_ERRBUF.CAUSE, .reg Reg.BP_ERR.REVOKE, .reg Reg.ME_POISON.CONSUMED,
    .reg Reg.ME_LASTHI.KIND, .reg Reg.ME_MERGE.EVICT, .reg Reg.ME_ERR.POISON, .reg Reg.GF_XFER.FAILED, .reg Reg.GF_ERR.XFERFAIL,
    .reg Reg.DG_RNG.RESEEDS, .reg Reg.MG_LOGSTAT.DROPPED, .reg Reg.MG_ERR.LOGDROP, .reg Reg.FI_ARM.ARMED,
    .reg Reg.FI_ARM.DCAUSE, .reg Reg.FI_GF.EN, .reg Reg.FI_FL.EN, .reg Reg.FI_PCIE.EN,
    .reg Reg.FI_CNT.INJECTED]) s (lbaArrived cmd lba s) := by
  unfold lbaArrived
  repeat' first
    | intro _
    | with_reducible assumption
    | with_reducible exact Only.refl _ _
    | (extract_lets +onlyGivenNames x; refine Only.cut x ?_ (fun _ => ?_); unfold x; clear x; rotate_left; clear_value x)
    | (extract_lets +onlyGivenNames x; refine Only.cut2 x ?_ (fun _ => ?_); unfold x; clear x; rotate_left; clear_value x)
    | (extract_lets +onlyGivenNames x; refine Only.cutF x ?_ (fun _ => ?_); unfold x; clear x; rotate_left; clear_value x)
    | (extract_lets +onlyGivenNames x; refine Only.cutG x ?_ (fun _ => ?_); unfold x; clear x; rotate_left; clear_value x)
    | (extract_lets +onlyGivenNames x; refine Only.cutG2 x ?_ (fun _ => ?_); unfold x; clear x; rotate_left; clear_value x)
    | (extract_lets +onlyGivenNames x; refine Only.cutG3 x ?_ (fun _ => ?_); unfold x; clear x; rotate_left; clear_value x)
    | (extract_lets +onlyGivenNames x; refine Only.cutH x ?_ (fun _ => ?_); unfold x; clear x; rotate_left; clear_value x)
    | (extract_lets +onlyGivenNames x; clear_value x)
    | with_reducible apply Only.ite
    | (with_reducible apply Only.step (updCmd_only ..); exact .of (by decide +kernel))
    | (with_reducible apply Only.step (dropClaims_only ..); exact .of (by decide +kernel))
    | (with_reducible apply Only.step (readsDone_only ..); exact .of (by decide +kernel))
    | with_reducible apply_assumption -exfalso -symm
    | split
    | dsimp only

/-- What `viewLost` may change. -/
theorem viewLost_only (cmd grain : Nat) (n : Ns) (s : State) :
    Only [.cmds] s (viewLost cmd grain n s) := by
  unfold viewLost
  repeat' first
    | intro _
    | with_reducible assumption
    | with_reducible exact Only.refl _ _
    | with_reducible apply Only.ite
    | (with_reducible apply Only.step (updCmd_only ..); exact .of (by decide +kernel))
    | with_reducible apply_assumption -exfalso -symm
    | split
    | dsimp only

/-- What `decodeOk` may change. -/
theorem decodeOk_only (e : MapEntry) (corrected : Nat) (s : State) :
    Only [.time, .mx, .mm,
    .reg Reg.EC_MAXCORR.MAX] s (decodeOk e corrected s) := by
  unfold decodeOk
  repeat' first
    | intro _
    | with_reducible assumption
    | with_reducible exact Only.refl _ _
    | (extract_lets +onlyGivenNames x; refine Only.cut x ?_ (fun _ => ?_); unfold x; clear x; rotate_left; clear_value x)
    | (extract_lets +onlyGivenNames x; refine Only.cut2 x ?_ (fun _ => ?_); unfold x; clear x; rotate_left; clear_value x)
    | (extract_lets +onlyGivenNames x; clear_value x)
    | with_reducible apply Only.ite
    | (with_reducible apply Only.step (setSat_only ..); exact .of (by decide +kernel))
    | (with_reducible apply Only.step (corrected_only ..); exact .of (by decide +kernel))
    | (with_reducible apply Only.step (wantRefresh_only ..); exact .of (by decide +kernel))
    | with_reducible apply_assumption -exfalso -symm
    | split
    | dsimp only

/-- What `fiRead` may change. -/
theorem fiRead_only (d glen : Nat) (result : DecodeResult) (s : State) :
    Only [.mg, .fi, .reg Reg.MG_LOGSTAT.DROPPED,
    .reg Reg.MG_ERR.LOGDROP, .reg Reg.FI_CNT.INJECTED] s (fiRead d glen result s).2 := by
  unfold fiRead
  repeat' first
    | intro _
    | with_reducible assumption
    | with_reducible exact Only.refl _ _
    | (extract_lets +onlyGivenNames x; refine Only.cut x ?_ (fun _ => ?_); unfold x; clear x; rotate_left; clear_value x)
    | (extract_lets +onlyGivenNames x; refine Only.cut2 x ?_ (fun _ => ?_); unfold x; clear x; rotate_left; clear_value x)
    | (extract_lets +onlyGivenNames x; refine Only.cut3 x ?_ (fun _ => ?_); unfold x; clear x; rotate_left; clear_value x)
    | (extract_lets +onlyGivenNames x; clear_value x)
    | with_reducible apply Only.ite
    | (with_reducible apply Only.step (fiHits_only ..); exact .of (by decide +kernel))
    | with_reducible refine Only.step (Only.of_eq2 ‹_› (fiHits_only ..)) (.of (by decide +kernel)) ?_
    | with_reducible refine Only.step (Only.of_eq3 ‹_› (fiHits_only ..)) (.of (by decide +kernel)) ?_
    | (with_reducible apply Only.step (fiInjected_only ..); exact .of (by decide +kernel))
    | with_reducible apply_assumption -exfalso -symm
    | split
    | dsimp only

/-- What `roundDone` may change. -/
theorem roundDone_only (cmd lba : Nat) (n : Ns) (e : MapEntry) (c : IoCmd) (result : DecodeResult) (s : State) :
    Only (List.append [.freeCtr,
    .out, .time, .gen, .he, .ctl, .sh, .lost, .cmds, .fs, .mx, .ns, .nsWait, .mm, .bp, .me, .gf, .tw, .dg, .mg, .fi, .nand, .ff,
    .prov, .reg Reg.HE_EPCNT.A_COUNT, .reg Reg.HE_EPCNT.B_COUNT, .reg Reg.HE_WINLOG.COUNT, .reg Reg.HE_WINLOG.CAUSE,
    .reg Reg.HE_WINLOG.PORT, .reg Reg.HE_WINLOGLO.OFFSET] (List.append [.reg Reg.HE_WINLOGHI.OFFSET, .reg Reg.HE_WINLOGHI.RID,
    .reg Reg.QE_CQFULL.COUNT, .reg Reg.FS_CONT.CLAIMS, .reg Reg.FS_CONT.DISPL, .reg Reg.FS_CONT.BEYOND,
    .reg Reg.MM_ERR.SHORTCLOSE, .reg Reg.SP_RECON.UNITS, .reg Reg.SP_RECON.TWOMISS, .reg Reg.SP_LOSTCNT.POSITIONS,
    .reg Reg.SP_ERR.THREEMISS, .reg Reg.DC_PIERR.GUARD, .reg Reg.DC_PIERR.APP, .reg Reg.DC_PIERR.REF, .reg Reg.DC_FMTERR.COUNT,
    .reg Reg.DC_FMTERR.UNREC, .reg Reg.DC_ERR.FMT, .reg Reg.EC_HARD.FAIL, .reg Reg.EC_SOFT.OK, .reg Reg.EC_SOFT.FAIL,
    .reg Reg.EC_MAXCORR.MAX, .reg Reg.BP_ERRBUF.INDEX, .reg Reg.BP_ERRBUF.OWNER, .reg Reg.BP_ERRBUF.CAUSE,
    .reg Reg.BP_ERR.REVOKE, .reg Reg.ME_POISON.CONSUMED, .reg Reg.ME_LASTHI.KIND, .reg Reg.ME_MERGE.EVICT,
    .reg Reg.ME_ERR.POISON, .reg Reg.GF_XFER.FAILED] [.reg Reg.GF_ERR.XFERFAIL, .reg Reg.DG_RNG.RESEEDS,
    .reg Reg.MG_LOGSTAT.DROPPED, .reg Reg.MG_ERR.LOGDROP, .reg Reg.FI_ARM.ARMED, .reg Reg.FI_ARM.DCAUSE, .reg Reg.FI_GF.EN,
    .reg Reg.FI_FL.EN, .reg Reg.FI_PCIE.EN, .reg Reg.FI_CNT.INJECTED])) s (roundDone cmd lba n e c result s) := by
  unfold roundDone
  repeat' first
    | intro _
    | with_reducible assumption
    | with_reducible exact Only.refl _ _
    | (extract_lets +onlyGivenNames x; refine Only.cut x ?_ (fun _ => ?_); unfold x; clear x; rotate_left; clear_value x)
    | (extract_lets +onlyGivenNames x; refine Only.cut2 x ?_ (fun _ => ?_); unfold x; clear x; rotate_left; clear_value x)
    | (extract_lets +onlyGivenNames x; refine Only.cutF x ?_ (fun _ => ?_); unfold x; clear x; rotate_left; clear_value x)
    | (extract_lets +onlyGivenNames x; refine Only.cutG x ?_ (fun _ => ?_); unfold x; clear x; rotate_left; clear_value x)
    | (extract_lets +onlyGivenNames x; refine Only.cutP x ?_ (fun _ => ?_); unfold x; clear x; rotate_left; clear_value x)
    | (extract_lets +onlyGivenNames x; refine Only.cutG2 x ?_ (fun _ => ?_); unfold x; clear x; rotate_left; clear_value x)
    | (extract_lets +onlyGivenNames x; refine Only.cutG3 x ?_ (fun _ => ?_); unfold x; clear x; rotate_left; clear_value x)
    | (extract_lets +onlyGivenNames x; refine Only.cutH x ?_ (fun _ => ?_); unfold x; clear x; rotate_left; clear_value x)
    | (extract_lets +onlyGivenNames x; clear_value x)
    | with_reducible apply Only.ite
    | (with_reducible apply Only.step (flagOn_only ..); exact .of (by decide +kernel))
    | (with_reducible apply Only.step (bump_only ..); exact .of (by decide +kernel))
    | (with_reducible apply Only.step (countRead_only ..); exact .of (by decide +kernel))
    | (with_reducible apply Only.step (lbaArrived_only ..); exact .of (by decide +kernel))
    | (with_reducible apply Only.step (corrected_only ..); exact .of (by decide +kernel))
    | (with_reducible apply Only.step (decodeOk_only ..); exact .of (by decide +kernel))
    | (with_reducible apply Only.step (claimAll_only ..); exact .of (by decide +kernel))
    | (with_reducible apply Only.step (wantRefresh_only ..); exact .of (by decide +kernel))
    | (with_reducible apply Only.step (claimSoft_only ..); exact .of (by decide +kernel))
    | (with_reducible apply Only.step (loseStored_only ..); exact .of (by decide +kernel))
    | (with_reducible apply Only.step (viewLost_only ..); exact .of (by decide +kernel))
    | (with_reducible apply Only.step (threeMissing_only ..); exact .of (by decide +kernel))
    | with_reducible refine Only.foldl (fun _ _ _ => ?_) ?_
    | with_reducible refine Only.foldl2 (fun _ _ _ => ?_) ?_
    | with_reducible apply_assumption -exfalso -symm
    | split
    | dsimp only

/-- What `readRoundDoneEff` may change. -/
theorem readRoundDoneEff_only (cmd lba : Nat) (result : DecodeResult) (s : State) :
    Only (List.append [.freeCtr, .out,
    .time, .gen, .he, .ctl, .sh, .lost, .cmds, .fs, .mx, .ns, .nsWait, .mm, .bp, .me, .gf, .tw, .dg, .mg, .fi, .nand, .ff,
    .prov, .reg Reg.HE_EPCNT.A_COUNT, .reg Reg.HE_EPCNT.B_COUNT, .reg Reg.HE_WINLOG.COUNT, .reg Reg.HE_WINLOG.CAUSE,
    .reg Reg.HE_WINLOG.PORT, .reg Reg.HE_WINLOGLO.OFFSET] (List.append [.reg Reg.HE_WINLOGHI.OFFSET, .reg Reg.HE_WINLOGHI.RID,
    .reg Reg.QE_CQFULL.COUNT, .reg Reg.FS_CONT.CLAIMS, .reg Reg.FS_CONT.DISPL, .reg Reg.FS_CONT.BEYOND,
    .reg Reg.MM_ERR.SHORTCLOSE, .reg Reg.SP_RECON.UNITS, .reg Reg.SP_RECON.TWOMISS, .reg Reg.SP_LOSTCNT.POSITIONS,
    .reg Reg.SP_ERR.THREEMISS, .reg Reg.DC_PIERR.GUARD, .reg Reg.DC_PIERR.APP, .reg Reg.DC_PIERR.REF, .reg Reg.DC_FMTERR.COUNT,
    .reg Reg.DC_FMTERR.UNREC, .reg Reg.DC_ERR.FMT, .reg Reg.EC_HARD.FAIL, .reg Reg.EC_SOFT.OK, .reg Reg.EC_SOFT.FAIL,
    .reg Reg.EC_MAXCORR.MAX, .reg Reg.BP_ERRBUF.INDEX, .reg Reg.BP_ERRBUF.OWNER, .reg Reg.BP_ERRBUF.CAUSE,
    .reg Reg.BP_ERR.REVOKE, .reg Reg.ME_POISON.CONSUMED, .reg Reg.ME_LASTHI.KIND, .reg Reg.ME_MERGE.EVICT,
    .reg Reg.ME_ERR.POISON, .reg Reg.GF_XFER.FAILED] [.reg Reg.GF_ERR.XFERFAIL, .reg Reg.DG_RNG.RESEEDS,
    .reg Reg.MG_LOGSTAT.DROPPED, .reg Reg.MG_ERR.LOGDROP, .reg Reg.FI_ARM.ARMED, .reg Reg.FI_ARM.DCAUSE, .reg Reg.FI_GF.EN,
    .reg Reg.FI_FL.EN, .reg Reg.FI_PCIE.EN, .reg Reg.FI_CNT.INJECTED])) s (readRoundDoneEff cmd lba result s) := by
  unfold readRoundDoneEff
  repeat' first
    | intro _
    | with_reducible assumption
    | with_reducible exact Only.refl _ _
    | (extract_lets +onlyGivenNames x; refine Only.cut x ?_ (fun _ => ?_); unfold x; clear x; rotate_left; clear_value x)
    | (extract_lets +onlyGivenNames x; refine Only.cut2 x ?_ (fun _ => ?_); unfold x; clear x; rotate_left; clear_value x)
    | (extract_lets +onlyGivenNames x; refine Only.cut3 x ?_ (fun _ => ?_); unfold x; clear x; rotate_left; clear_value x)
    | (extract_lets +onlyGivenNames x; refine Only.cutF x ?_ (fun _ => ?_); unfold x; clear x; rotate_left; clear_value x)
    | (extract_lets +onlyGivenNames x; refine Only.cutG x ?_ (fun _ => ?_); unfold x; clear x; rotate_left; clear_value x)
    | (extract_lets +onlyGivenNames x; refine Only.cutP x ?_ (fun _ => ?_); unfold x; clear x; rotate_left; clear_value x)
    | (extract_lets +onlyGivenNames x; refine Only.cutG2 x ?_ (fun _ => ?_); unfold x; clear x; rotate_left; clear_value x)
    | (extract_lets +onlyGivenNames x; refine Only.cutG3 x ?_ (fun _ => ?_); unfold x; clear x; rotate_left; clear_value x)
    | (extract_lets +onlyGivenNames x; refine Only.cutH x ?_ (fun _ => ?_); unfold x; clear x; rotate_left; clear_value x)
    | (extract_lets +onlyGivenNames x; clear_value x)
    | with_reducible apply Only.ite
    | (with_reducible apply Only.step (fiRead_only ..); exact .of (by decide +kernel))
    | with_reducible refine Only.step (Only.of_eq2 ‹_› (fiRead_only ..)) (.of (by decide +kernel)) ?_
    | with_reducible refine Only.step (Only.of_eq3 ‹_› (fiRead_only ..)) (.of (by decide +kernel)) ?_
    | (with_reducible apply Only.step (roundDone_only ..); exact .of (by decide +kernel))
    | with_reducible apply_assumption -exfalso -symm
    | split
    | dsimp only

/-- What `execReadRoundDone` may change. -/
theorem execReadRoundDone_only (cmd : Nat) (lba : Nat) (result : DecodeResult) (s : State) :
    ∃ t,
    execReadRoundDone cmd lba result s = .next t ∧ Only (List.append [.freeCtr, .out, .time, .gen, .he, .ctl, .sh, .lost, .cmds,
    .fs, .mx, .ns, .nsWait, .mm, .bp, .me, .gf, .tw, .dg, .mg, .fi, .nand, .ff, .prov, .reg Reg.HE_EPCNT.A_COUNT,
    .reg Reg.HE_EPCNT.B_COUNT, .reg Reg.HE_WINLOG.COUNT, .reg Reg.HE_WINLOG.CAUSE, .reg Reg.HE_WINLOG.PORT,
    .reg Reg.HE_WINLOGLO.OFFSET] (List.append [.reg Reg.HE_WINLOGHI.OFFSET, .reg Reg.HE_WINLOGHI.RID, .reg Reg.QE_CQFULL.COUNT,
    .reg Reg.FS_CONT.CLAIMS, .reg Reg.FS_CONT.DISPL, .reg Reg.FS_CONT.BEYOND, .reg Reg.MM_ERR.SHORTCLOSE,
    .reg Reg.SP_RECON.UNITS, .reg Reg.SP_RECON.TWOMISS, .reg Reg.SP_LOSTCNT.POSITIONS, .reg Reg.SP_ERR.THREEMISS,
    .reg Reg.DC_PIERR.GUARD, .reg Reg.DC_PIERR.APP, .reg Reg.DC_PIERR.REF, .reg Reg.DC_FMTERR.COUNT, .reg Reg.DC_FMTERR.UNREC,
    .reg Reg.DC_ERR.FMT, .reg Reg.EC_HARD.FAIL, .reg Reg.EC_SOFT.OK, .reg Reg.EC_SOFT.FAIL, .reg Reg.EC_MAXCORR.MAX,
    .reg Reg.BP_ERRBUF.INDEX, .reg Reg.BP_ERRBUF.OWNER, .reg Reg.BP_ERRBUF.CAUSE, .reg Reg.BP_ERR.REVOKE,
    .reg Reg.ME_POISON.CONSUMED, .reg Reg.ME_LASTHI.KIND, .reg Reg.ME_MERGE.EVICT, .reg Reg.ME_ERR.POISON,
    .reg Reg.GF_XFER.FAILED] [.reg Reg.GF_ERR.XFERFAIL, .reg Reg.DG_RNG.RESEEDS, .reg Reg.MG_LOGSTAT.DROPPED,
    .reg Reg.MG_ERR.LOGDROP, .reg Reg.FI_ARM.ARMED, .reg Reg.FI_ARM.DCAUSE, .reg Reg.FI_GF.EN, .reg Reg.FI_FL.EN,
    .reg Reg.FI_PCIE.EN, .reg Reg.FI_CNT.INJECTED])) s t := by
  unfold execReadRoundDone
  refine ⟨_, rfl, ?_⟩
  repeat' first
    | intro _
    | with_reducible assumption
    | with_reducible exact Only.refl _ _
    | (with_reducible apply Only.step (readRoundDoneEff_only ..); exact .of (by decide +kernel))
    | with_reducible apply_assumption -exfalso -symm
    | split
    | dsimp only

end Sys2Proof.Machine
end

