-- ==== Sys2Proof/Laws/FrameChannels.lean ====
section
/-! SUPPORT. What each operation of Machine/Channels.lean may change, as `Only` states it: one lemma an operation, which later proofs cite
instead of unfolding it. -/
namespace Sys2Proof.Machine
set_option Elab.async false
set_option linter.all false

/-- What `chanReadsFail` may change. -/
theorem chanReadsFail_only (c : Nat) (s : State) :
    Only [.freeCtr, .cmds, .fs, .reg Reg.FS_CONT.CLAIMS,
    .reg Reg.FS_CONT.DISPL, .reg Reg.FS_CONT.BEYOND] s (chanReadsFail c s) := by
  unfold chanReadsFail
  repeat' first
    | intro _
    | with_reducible assumption
    | with_reducible exact Only.refl _ _
    | (with_reducible apply Only.step (dieReadsFail_only ..); exact .of (by decide +kernel))
    | with_reducible refine Only.foldl (fun _ _ _ => ?_) ?_
    | with_reducible refine Only.foldl2 (fun _ _ _ => ?_) ?_
    | with_reducible apply_assumption -exfalso -symm
    | split
    | dsimp only

/-- What `resumeRecs` may change. -/
theorem resumeRecs_only (k phy : Nat) (s : State) :
    Only [.cs] s (resumeRecs k phy s) := by
  unfold resumeRecs
  repeat' first
    | intro _
    | with_reducible assumption
    | with_reducible exact Only.refl _ _
    | with_reducible apply Only.ite
    | (with_reducible apply Only.step (updCluster_only ..); exact .of (by decide +kernel))
    | with_reducible apply_assumption -exfalso -symm
    | split
    | dsimp only

/-- What `takeOver` may change. -/
theorem takeOver_only (k phy q spare took : Nat) (s : State) :
    Only [.freeCtr, .out, .he, .ctl, .cmds, .fs, .cs, .mg, .fi,
    .reg Reg.QE_CQFULL.COUNT, .reg Reg.FS_CONT.CLAIMS, .reg Reg.FS_CONT.DISPL, .reg Reg.FS_CONT.BEYOND,
    .reg Reg.CS_TAKEOVER.COUNT, .reg Reg.CS_TAKEOVER.LAST, .reg Reg.MG_LOGSTAT.DROPPED, .reg Reg.MG_ERR.LOGDROP,
    .reg Reg.FI_ARM.ARMED, .reg Reg.FI_ARM.DCAUSE, .reg Reg.FI_GF.EN, .reg Reg.FI_FL.EN, .reg Reg.FI_PCIE.EN,
    .reg Reg.FI_ERR.REALFAULT] s (takeOver k phy q spare took s) := by
  unfold takeOver
  repeat' first
    | intro _
    | with_reducible assumption
    | with_reducible exact Only.refl _ _
    | (extract_lets +onlyGivenNames x; refine Only.cut x ?_ (fun _ => ?_); unfold x; clear x; rotate_left; clear_value x)
    | (extract_lets +onlyGivenNames x; refine Only.cut2 x ?_ (fun _ => ?_); unfold x; clear x; rotate_left; clear_value x)
    | (extract_lets +onlyGivenNames x; refine Only.cutF x ?_ (fun _ => ?_); unfold x; clear x; rotate_left; clear_value x)
    | (extract_lets +onlyGivenNames x; refine Only.cutG x ?_ (fun _ => ?_); unfold x; clear x; rotate_left; clear_value x)
    | (extract_lets +onlyGivenNames x; refine Only.cutG2 x ?_ (fun _ => ?_); unfold x; clear x; rotate_left; clear_value x)
    | (extract_lets +onlyGivenNames x; refine Only.cutG3 x ?_ (fun _ => ?_); unfold x; clear x; rotate_left; clear_value x)
    | (extract_lets +onlyGivenNames x; refine Only.cutH x ?_ (fun _ => ?_); unfold x; clear x; rotate_left; clear_value x)
    | (extract_lets +onlyGivenNames x; clear_value x)
    | (with_reducible apply Only.step (bump_only ..); exact .of (by decide +kernel))
    | (with_reducible apply Only.step (setSat_only ..); exact .of (by decide +kernel))
    | (with_reducible apply Only.step (updCluster_only ..); exact .of (by decide +kernel))
    | (with_reducible apply Only.step (chanReadsFail_only ..); exact .of (by decide +kernel))
    | (with_reducible apply Only.step (spareIn_only ..); exact .of (by decide +kernel))
    | (with_reducible apply Only.step (resumeRecs_only ..); exact .of (by decide +kernel))
    | with_reducible apply_assumption -exfalso -symm
    | split
    | dsimp only

/-- What `noTakeOver` may change. -/
theorem noTakeOver_only (k phy : Nat) (s : State) :
    Only (List.append [.freeCtr, .out, .gen, .he, .ctl, .sh, .lost, .cmds,
    .fs, .mx, .ns, .mm, .sp, .cs, .bp, .gf, .tw, .dg, .mg, .fi, .nand, .ff, .prov, .reg Reg.HE_WINLOG.COUNT,
    .reg Reg.HE_WINLOG.CAUSE, .reg Reg.HE_WINLOG.PORT, .reg Reg.HE_WINLOGLO.OFFSET, .reg Reg.HE_WINLOGHI.OFFSET,
    .reg Reg.HE_WINLOGHI.RID, .reg Reg.QE_CQFULL.COUNT] [.reg Reg.FS_CONT.CLAIMS, .reg Reg.FS_CONT.DISPL,
    .reg Reg.FS_CONT.BEYOND, .reg Reg.MX_ERR.CEILHOLD, .reg Reg.MM_ERR.SHORTCLOSE, .reg Reg.SP_LOSTCNT.POSITIONS,
    .reg Reg.SP_ERR.NOSPARE, .reg Reg.SP_ERR.THREEMISS, .reg Reg.SP_ERR.SPAREFAIL, .reg Reg.BP_ERRBUF.INDEX,
    .reg Reg.BP_ERRBUF.OWNER, .reg Reg.BP_ERRBUF.CAUSE, .reg Reg.BP_ERR.REVOKE, .reg Reg.GF_XFER.FAILED,
    .reg Reg.GF_ERR.XFERFAIL, .reg Reg.MG_LOGSTAT.DROPPED, .reg Reg.MG_ERR.LOGDROP, .reg Reg.FI_ARM.ARMED,
    .reg Reg.FI_ARM.DCAUSE, .reg Reg.FI_GF.EN, .reg Reg.FI_FL.EN, .reg Reg.FI_PCIE.EN, .reg Reg.FI_CNT.INJECTED,
    .reg Reg.FI_ERR.REALFAULT]) s (noTakeOver k phy s) := by
  unfold noTakeOver
  repeat' first
    | intro _
    | with_reducible assumption
    | with_reducible exact Only.refl _ _
    | (extract_lets +onlyGivenNames x; refine Only.cut x ?_ (fun _ => ?_); unfold x; clear x; rotate_left; clear_value x)
    | (extract_lets +onlyGivenNames x; refine Only.cut2 x ?_ (fun _ => ?_); unfold x; clear x; rotate_left; clear_value x)
    | (extract_lets +onlyGivenNames x; refine Only.cutF x ?_ (fun _ => ?_); unfold x; clear x; rotate_left; clear_value x)
    | (extract_lets +onlyGivenNames x; refine Only.cutG x ?_ (fun _ => ?_); unfold x; clear x; rotate_left; clear_value x)
    | (extract_lets +onlyGivenNames x; refine Only.cutG2 x ?_ (fun _ => ?_); unfold x; clear x; rotate_left; clear_value x)
    | (extract_lets +onlyGivenNames x; refine Only.cutG3 x ?_ (fun _ => ?_); unfold x; clear x; rotate_left; clear_value x)
    | (extract_lets +onlyGivenNames x; refine Only.cutH x ?_ (fun _ => ?_); unfold x; clear x; rotate_left; clear_value x)
    | (extract_lets +onlyGivenNames x; clear_value x)
    | (with_reducible apply Only.step (updCluster_only ..); exact .of (by decide +kernel))
    | (with_reducible apply Only.step (chanReadsFail_only ..); exact .of (by decide +kernel))
    | (with_reducible apply Only.step (declareChannelFailed_only ..); exact .of (by decide +kernel))
    | with_reducible apply_assumption -exfalso -symm
    | split
    | dsimp only

/-- What `stallActivation` may change. -/
theorem stallActivation_only (k : Nat) (s : State) :
    Only (List.append [.freeCtr, .out, .gen, .he, .ctl, .cmds, .fs, .mx,
    .mm, .cs, .bp, .tw, .dg, .mg, .fi, .ff, .prov, .fuses, .reg Reg.GEN_RSTCAUSE.MGRST, .reg Reg.GEN_DRAIN.ACTIVE,
    .reg Reg.QE_CQFULL.COUNT, .reg Reg.CS_ACT.STALL, .reg Reg.BP_ERRBUF.INDEX, .reg Reg.BP_ERRBUF.OWNER,
    .reg Reg.BP_ERRBUF.CAUSE, .reg Reg.BP_ERR.REVOKE, .reg Reg.MG_STAT.MGRESETS, .reg Reg.MG_WDOG.PERIOD,
    .reg Reg.MG_LOGSTAT.DROPPED, .reg Reg.FF_STATUS.BUSY] [.reg Reg.MG_ERR.LOGDROP, .reg Reg.FI_ARM.ARMED,
    .reg Reg.FI_ARM.DCAUSE, .reg Reg.FI_GF.EN, .reg Reg.FI_FL.EN, .reg Reg.FI_PCIE.EN]) s (stallActivation k s) := by
  unfold stallActivation
  repeat' first
    | intro _
    | with_reducible assumption
    | with_reducible exact Only.refl _ _
    | (extract_lets +onlyGivenNames x; refine Only.cut x ?_ (fun _ => ?_); unfold x; clear x; rotate_left; clear_value x)
    | (extract_lets +onlyGivenNames x; refine Only.cut2 x ?_ (fun _ => ?_); unfold x; clear x; rotate_left; clear_value x)
    | (extract_lets +onlyGivenNames x; clear_value x)
    | with_reducible apply Only.ite
    | fail_if_no_progress (with_reducible apply Only.upd_cs; decide +kernel)
    | (with_reducible apply Only.step (flagOn_only ..); exact .of (by decide +kernel))
    | (with_reducible apply Only.step (activationDone_only ..); exact .of (by decide +kernel))
    | with_reducible apply_assumption -exfalso -symm
    | split
    | dsimp only

/-- What `seqFaulted` may change. -/
theorem seqFaulted_keep {w : List Fld} {r : State} {k q : Nat} {flag : Field} {took : Nat} {s : State}
    (hSub : Within (List.append [.freeCtr,
    .out, .gen, .he, .ctl, .sh, .lost, .cmds, .fs, .mx, .ns, .mm, .sp, .cs, .bp, .gf, .tw, .dg, .mg, .fi, .nand, .ff, .prov,
    .fuses, .reg Reg.GEN_RSTCAUSE.MGRST, .reg Reg.GEN_DRAIN.ACTIVE, .reg Reg.HE_WINLOG.COUNT, .reg Reg.HE_WINLOG.CAUSE,
    .reg Reg.HE_WINLOG.PORT, .reg Reg.HE_WINLOGLO.OFFSET] (List.append [.reg Reg.HE_WINLOGHI.OFFSET, .reg Reg.HE_WINLOGHI.RID,
    .reg Reg.QE_CQFULL.COUNT, .reg Reg.FS_CONT.CLAIMS, .reg Reg.FS_CONT.DISPL, .reg Reg.FS_CONT.BEYOND,
    .reg Reg.MX_ERR.CEILHOLD, .reg Reg.MM_ERR.SHORTCLOSE, .reg Reg.SP_LOSTCNT.POSITIONS, .reg Reg.SP_ERR.NOSPARE,
    .reg Reg.SP_ERR.THREEMISS, .reg Reg.SP_ERR.SPAREFAIL, .reg Reg.CS_ACT.STALL, .reg Reg.CS_TAKEOVER.COUNT,
    .reg Reg.CS_TAKEOVER.LAST, .reg Reg.CS_TAKEOVER.FAILSEQ, .reg Reg.BP_ERRBUF.INDEX, .reg Reg.BP_ERRBUF.OWNER,
    .reg Reg.BP_ERRBUF.CAUSE, .reg Reg.BP_ERR.REVOKE, .reg Reg.GF_XFER.FAILED, .reg Reg.GF_ERR.XFERFAIL,
    .reg Reg.MG_STAT.MGRESETS, .reg Reg.MG_WDOG.PERIOD, .reg Reg.MG_LOGSTAT.DROPPED, .reg Reg.FF_STATUS.BUSY,
    .reg Reg.MG_ERR.LOGDROP, .reg Reg.FI_ARM.ARMED, .reg Reg.FI_ARM.DCAUSE, .reg Reg.FI_GF.EN] [.reg Reg.FI_FL.EN,
    .reg Reg.FI_PCIE.EN, .reg Reg.FI_CNT.INJECTED,
    .reg Reg.FI_ERR.REALFAULT])) w)
    (hFld : covered w (.reg flag) = true) (hOnly : Only w r s) : Only w r (seqFaulted k q flag took s) := by
  unfold seqFaulted
  repeat' first
    | intro _
    | with_reducible assumption
    | with_reducible exact Only.refl _ _
    | (extract_lets +onlyGivenNames x; refine Only.cut x ?_ (fun _ => ?_); unfold x; clear x; rotate_left; clear_value x)
    | (extract_lets +onlyGivenNames x; refine Only.cut2 x ?_ (fun _ => ?_); unfold x; clear x; rotate_left; clear_value x)
    | (extract_lets +onlyGivenNames x; refine Only.cutF x ?_ (fun _ => ?_); unfold x; clear x; rotate_left; clear_value x)
    | (extract_lets +onlyGivenNames x; refine Only.cutG x ?_ (fun _ => ?_); unfold x; clear x; rotate_left; clear_value x)
    | (extract_lets +onlyGivenNames x; refine Only.cutG2 x ?_ (fun _ => ?_); unfold x; clear x; rotate_left; clear_value x)
    | (extract_lets +onlyGivenNames x; refine Only.cutG3 x ?_ (fun _ => ?_); unfold x; clear x; rotate_left; clear_value x)
    | (extract_lets +onlyGivenNames x; refine Only.cutH x ?_ (fun _ => ?_); unfold x; clear x; rotate_left; clear_value x)
    | (extract_lets +onlyGivenNames x; clear_value x)
    | with_reducible apply Only.ite
    | (with_reducible apply Only.step (setF_only ..); first | exact .trans (.of (by decide +kernel)) hSub | exact .single hFld)
    | (with_reducible apply Only.step (flagOn_only ..); first | exact .trans (.of (by decide +kernel)) hSub | exact .single hFld)
    | (with_reducible apply Only.step (unitOut_only ..); first | exact .trans (.of (by decide +kernel)) hSub | exact .single hFld)
    | (with_reducible apply Only.step (updCluster_only ..); first | exact .trans (.of (by decide +kernel)) hSub | exact .single hFld)
    | (with_reducible apply Only.step (takeOver_only ..); first | exact .trans (.of (by decide +kernel)) hSub | exact .single hFld)
    | (with_reducible apply Only.step (noTakeOver_only ..); first | exact .trans (.of (by decide +kernel)) hSub | exact .single hFld)
    | (with_reducible apply Only.step (stallActivation_only ..); first | exact .trans (.of (by decide +kernel)) hSub | exact .single hFld)
    | with_reducible apply_assumption -exfalso -symm
    | split
    | dsimp only

/-- What `execSequencerFault` may change. -/
theorem execSequencerFault_only (cluster : Fin 8) (seq : Fin 9) (cause : SeqFault) (tookTenthUs : Nat) (s : State) :
    ∃ t,
    execSequencerFault cluster seq cause tookTenthUs s = .next t ∧ Only (List.append [.freeCtr, .out, .gen, .he, .ctl, .sh,
    .lost, .cmds, .fs, .mx, .ns, .mm, .sp, .cs, .bp, .gf, .tw, .dg, .mg, .fi, .nand, .ff, .prov, .fuses,
    .reg Reg.GEN_RSTCAUSE.MGRST, .reg Reg.GEN_DRAIN.ACTIVE, .reg Reg.HE_WINLOG.COUNT, .reg Reg.HE_WINLOG.CAUSE,
    .reg Reg.HE_WINLOG.PORT, .reg Reg.HE_WINLOGLO.OFFSET] (List.append [.reg Reg.HE_WINLOGHI.OFFSET, .reg Reg.HE_WINLOGHI.RID,
    .reg Reg.QE_CQFULL.COUNT, .reg Reg.FS_CONT.CLAIMS, .reg Reg.FS_CONT.DISPL, .reg Reg.FS_CONT.BEYOND,
    .reg Reg.MX_ERR.CEILHOLD, .reg Reg.MM_ERR.SHORTCLOSE, .reg Reg.SP_LOSTCNT.POSITIONS, .reg Reg.SP_ERR.NOSPARE,
    .reg Reg.SP_ERR.THREEMISS, .reg Reg.SP_ERR.SPAREFAIL, .reg Reg.CS_ACT.STALL, .reg Reg.CS_TAKEOVER.COUNT,
    .reg Reg.CS_TAKEOVER.LAST, .reg Reg.CS_TAKEOVER.FAILSEQ, .reg Reg.CS_ERR.MWCHK, .reg Reg.CS_ERR.SEQFAULT,
    .reg Reg.BP_ERRBUF.INDEX, .reg Reg.BP_ERRBUF.OWNER, .reg Reg.BP_ERRBUF.CAUSE, .reg Reg.BP_ERR.REVOKE,
    .reg Reg.GF_XFER.FAILED, .reg Reg.GF_ERR.XFERFAIL, .reg Reg.MG_STAT.MGRESETS, .reg Reg.MG_WDOG.PERIOD,
    .reg Reg.MG_LOGSTAT.DROPPED, .reg Reg.FF_STATUS.BUSY, .reg Reg.MG_ERR.LOGDROP,
    .reg Reg.FI_ARM.ARMED] [.reg Reg.FI_ARM.DCAUSE, .reg Reg.FI_GF.EN, .reg Reg.FI_FL.EN, .reg Reg.FI_PCIE.EN,
    .reg Reg.FI_CNT.INJECTED, .reg Reg.FI_ERR.REALFAULT])) s t := by
  unfold execSequencerFault
  refine ⟨_, rfl, ?_⟩
  repeat' first
    | intro _
    | with_reducible assumption
    | with_reducible exact Only.refl _ _
    | (with_reducible apply seqFaulted_keep; exact .of (by decide +kernel); decide +kernel)
    | with_reducible apply_assumption -exfalso -symm
    | split
    | dsimp only

/-- What `execYieldTimeout` may change. -/
theorem execYieldTimeout_only (cluster : Fin 8) (seq : Fin 9) (tookTenthUs : Nat) (s : State) :
    ∃ t,
    execYieldTimeout cluster seq tookTenthUs s = .next t ∧ Only (List.append [.freeCtr, .out, .gen, .he, .ctl, .sh, .lost,
    .cmds, .fs, .mx, .ns, .mm, .sp, .cs, .bp, .gf, .tw, .dg, .mg, .fi, .nand, .ff, .prov, .fuses, .reg Reg.GEN_RSTCAUSE.MGRST,
    .reg Reg.GEN_DRAIN.ACTIVE, .reg Reg.HE_WINLOG.COUNT, .reg Reg.HE_WINLOG.CAUSE, .reg Reg.HE_WINLOG.PORT,
    .reg Reg.HE_WINLOGLO.OFFSET] (List.append [.reg Reg.HE_WINLOGHI.OFFSET, .reg Reg.HE_WINLOGHI.RID, .reg Reg.QE_CQFULL.COUNT,
    .reg Reg.FS_CONT.CLAIMS, .reg Reg.FS_CONT.DISPL, .reg Reg.FS_CONT.BEYOND, .reg Reg.MX_ERR.CEILHOLD,
    .reg Reg.MM_ERR.SHORTCLOSE, .reg Reg.SP_LOSTCNT.POSITIONS, .reg Reg.SP_ERR.NOSPARE, .reg Reg.SP_ERR.THREEMISS,
    .reg Reg.SP_ERR.SPAREFAIL, .reg Reg.CS_ACT.STALL, .reg Reg.CS_TAKEOVER.COUNT, .reg Reg.CS_TAKEOVER.LAST,
    .reg Reg.CS_TAKEOVER.FAILSEQ, .reg Reg.CS_ERR.YIELDTO, .reg Reg.BP_ERRBUF.INDEX, .reg Reg.BP_ERRBUF.OWNER,
    .reg Reg.BP_ERRBUF.CAUSE, .reg Reg.BP_ERR.REVOKE, .reg Reg.GF_XFER.FAILED, .reg Reg.GF_ERR.XFERFAIL,
    .reg Reg.MG_STAT.MGRESETS, .reg Reg.MG_WDOG.PERIOD, .reg Reg.MG_LOGSTAT.DROPPED, .reg Reg.FF_STATUS.BUSY,
    .reg Reg.MG_ERR.LOGDROP, .reg Reg.FI_ARM.ARMED, .reg Reg.FI_ARM.DCAUSE] [.reg Reg.FI_GF.EN, .reg Reg.FI_FL.EN,
    .reg Reg.FI_PCIE.EN, .reg Reg.FI_CNT.INJECTED, .reg Reg.FI_ERR.REALFAULT])) s t := by
  unfold execYieldTimeout
  refine ⟨_, rfl, ?_⟩
  repeat' first
    | intro _
    | with_reducible assumption
    | with_reducible exact Only.refl _ _
    | (with_reducible apply seqFaulted_keep; exact .of (by decide +kernel); decide +kernel)
    | with_reducible apply_assumption -exfalso -symm
    | split
    | dsimp only

/-- What `channelRetrainEff` may change. -/
theorem channelRetrainEff_only (channel : Fin 64) (tempDelta : Nat) (s : State) :
    Only [.fs,
    .cs] s (channelRetrainEff channel tempDelta s) := by
  unfold channelRetrainEff
  repeat' first
    | intro _
    | with_reducible assumption
    | with_reducible exact Only.refl _ _
    | (extract_lets +onlyGivenNames x; refine Only.cut x ?_ (fun _ => ?_); unfold x; clear x; rotate_left; clear_value x)
    | (extract_lets +onlyGivenNames x; refine Only.cut2 x ?_ (fun _ => ?_); unfold x; clear x; rotate_left; clear_value x)
    | (extract_lets +onlyGivenNames x; refine Only.cutF x ?_ (fun _ => ?_); unfold x; clear x; rotate_left; clear_value x)
    | (extract_lets +onlyGivenNames x; refine Only.cutG x ?_ (fun _ => ?_); unfold x; clear x; rotate_left; clear_value x)
    | (extract_lets +onlyGivenNames x; refine Only.cutG2 x ?_ (fun _ => ?_); unfold x; clear x; rotate_left; clear_value x)
    | (extract_lets +onlyGivenNames x; refine Only.cutG3 x ?_ (fun _ => ?_); unfold x; clear x; rotate_left; clear_value x)
    | (extract_lets +onlyGivenNames x; refine Only.cutH x ?_ (fun _ => ?_); unfold x; clear x; rotate_left; clear_value x)
    | (extract_lets +onlyGivenNames x; clear_value x)
    | with_reducible apply Only.ite
    | fail_if_no_progress (with_reducible apply Only.upd_cs; decide +kernel)
    | (with_reducible apply Only.step (book_only ..); exact .of (by decide +kernel))
    | with_reducible apply_assumption -exfalso -symm
    | split
    | dsimp only

/-- What `execChannelRetrain` may change. -/
theorem execChannelRetrain_only (channel : Fin 64) (tempDelta : Nat) (s : State) :
    ∃ t,
    execChannelRetrain channel tempDelta s = .next t ∧ Only [.fs, .cs] s t := by
  unfold execChannelRetrain
  refine ⟨_, rfl, ?_⟩
  repeat' first
    | intro _
    | with_reducible assumption
    | with_reducible exact Only.refl _ _
    | (with_reducible apply Only.step (channelRetrainEff_only ..); exact .of (by decide +kernel))
    | with_reducible apply_assumption -exfalso -symm
    | split
    | dsimp only

/-- What `retrainStepEff` may change. -/
theorem retrainStepEff_only (channel : Fin 64) (failedTwice : Bool) (idChanged : List Nat) (s : State) :
    Only (List.append [.freeCtr,
    .out, .gen, .he, .ctl, .sh, .lost, .cmds, .fs, .mx, .ns, .mm, .sp, .cs, .bp, .gf, .tw, .dg, .mg, .fi, .nand, .ff, .prov,
    .reg Reg.HE_WINLOG.COUNT, .reg Reg.HE_WINLOG.CAUSE, .reg Reg.HE_WINLOG.PORT, .reg Reg.HE_WINLOGLO.OFFSET,
    .reg Reg.HE_WINLOGHI.OFFSET, .reg Reg.HE_WINLOGHI.RID, .reg Reg.QE_CQFULL.COUNT] [.reg Reg.FS_CONT.CLAIMS,
    .reg Reg.FS_CONT.DISPL, .reg Reg.FS_CONT.BEYOND, .reg Reg.MX_ERR.CEILHOLD, .reg Reg.MM_ERR.SHORTCLOSE,
    .reg Reg.SP_LOSTCNT.POSITIONS, .reg Reg.SP_ERR.NOSPARE, .reg Reg.SP_ERR.THREEMISS, .reg Reg.SP_ERR.SPAREFAIL,
    .reg Reg.CS_ERR.TRAINFAIL, .reg Reg.CS_ERR.IDCHANGE, .reg Reg.BP_ERRBUF.INDEX, .reg Reg.BP_ERRBUF.OWNER,
    .reg Reg.BP_ERRBUF.CAUSE, .reg Reg.BP_ERR.REVOKE, .reg Reg.GF_XFER.FAILED, .reg Reg.GF_ERR.XFERFAIL,
    .reg Reg.MG_LOGSTAT.DROPPED, .reg Reg.MG_ERR.LOGDROP, .reg Reg.FI_ARM.ARMED, .reg Reg.FI_ARM.DCAUSE, .reg Reg.FI_GF.EN,
    .reg Reg.FI_FL.EN, .reg Reg.FI_PCIE.EN, .reg Reg.FI_CNT.INJECTED,
    .reg Reg.FI_ERR.REALFAULT]) s (retrainStepEff channel failedTwice idChanged s) := by
  unfold retrainStepEff
  repeat' first
    | intro _
    | with_reducible assumption
    | with_reducible exact Only.refl _ _
    | (extract_lets +onlyGivenNames x; refine Only.cut x ?_ (fun _ => ?_); unfold x; clear x; rotate_left; clear_value x)
    | (extract_lets +onlyGivenNames x; refine Only.cut2 x ?_ (fun _ => ?_); unfold x; clear x; rotate_left; clear_value x)
    | (extract_lets +onlyGivenNames x; refine Only.cutF x ?_ (fun _ => ?_); unfold x; clear x; rotate_left; clear_value x)
    | (extract_lets +onlyGivenNames x; refine Only.cutG x ?_ (fun _ => ?_); unfold x; clear x; rotate_left; clear_value x)
    | (extract_lets +onlyGivenNames x; refine Only.cutG2 x ?_ (fun _ => ?_); unfold x; clear x; rotate_left; clear_value x)
    | (extract_lets +onlyGivenNames x; refine Only.cutG3 x ?_ (fun _ => ?_); unfold x; clear x; rotate_left; clear_value x)
    | (extract_lets +onlyGivenNames x; refine Only.cutH x ?_ (fun _ => ?_); unfold x; clear x; rotate_left; clear_value x)
    | (extract_lets +onlyGivenNames x; clear_value x)
    | with_reducible apply Only.ite
    | fail_if_no_progress (with_reducible apply Only.upd_cs; decide +kernel)
    | (with_reducible apply Only.step (flagOn_only ..); exact .of (by decide +kernel))
    | (with_reducible apply Only.step (flagIf_only ..); exact .of (by decide +kernel))
    | (with_reducible apply Only.step (declareChannelFailed_only ..); exact .of (by decide +kernel))
    | (with_reducible apply Only.step (chanReadsFail_only ..); exact .of (by decide +kernel))
    | (with_reducible apply Only.step (declareDieFailed_only ..); exact .of (by decide +kernel))
    | with_reducible refine Only.foldl (fun _ _ _ => ?_) ?_
    | with_reducible refine Only.foldl2 (fun _ _ _ => ?_) ?_
    | with_reducible apply_assumption -exfalso -symm
    | split
    | dsimp only

/-- What `execRetrainStep` may change. -/
theorem execRetrainStep_only (channel : Fin 64) (failedTwice : Bool) (idChanged : List Nat) (s : State) :
    ∃ t,
    execRetrainStep channel failedTwice idChanged s = .next t ∧ Only (List.append [.freeCtr, .out, .gen, .he, .ctl, .sh, .lost,
    .cmds, .fs, .mx, .ns, .mm, .sp, .cs, .bp, .gf, .tw, .dg, .mg, .fi, .nand, .ff, .prov, .reg Reg.HE_WINLOG.COUNT,
    .reg Reg.HE_WINLOG.CAUSE, .reg Reg.HE_WINLOG.PORT, .reg Reg.HE_WINLOGLO.OFFSET, .reg Reg.HE_WINLOGHI.OFFSET,
    .reg Reg.HE_WINLOGHI.RID, .reg Reg.QE_CQFULL.COUNT] [.reg Reg.FS_CONT.CLAIMS, .reg Reg.FS_CONT.DISPL,
    .reg Reg.FS_CONT.BEYOND, .reg Reg.MX_ERR.CEILHOLD, .reg Reg.MM_ERR.SHORTCLOSE, .reg Reg.SP_LOSTCNT.POSITIONS,
    .reg Reg.SP_ERR.NOSPARE, .reg Reg.SP_ERR.THREEMISS, .reg Reg.SP_ERR.SPAREFAIL, .reg Reg.CS_ERR.TRAINFAIL,
    .reg Reg.CS_ERR.IDCHANGE, .reg Reg.BP_ERRBUF.INDEX, .reg Reg.BP_ERRBUF.OWNER, .reg Reg.BP_ERRBUF.CAUSE,
    .reg Reg.BP_ERR.REVOKE, .reg Reg.GF_XFER.FAILED, .reg Reg.GF_ERR.XFERFAIL, .reg Reg.MG_LOGSTAT.DROPPED,
    .reg Reg.MG_ERR.LOGDROP, .reg Reg.FI_ARM.ARMED, .reg Reg.FI_ARM.DCAUSE, .reg Reg.FI_GF.EN, .reg Reg.FI_FL.EN,
    .reg Reg.FI_PCIE.EN, .reg Reg.FI_CNT.INJECTED, .reg Reg.FI_ERR.REALFAULT]) s t := by
  unfold execRetrainStep
  refine ⟨_, rfl, ?_⟩
  repeat' first
    | intro _
    | with_reducible assumption
    | with_reducible exact Only.refl _ _
    | (with_reducible apply Only.step (retrainStepEff_only ..); exact .of (by decide +kernel))
    | with_reducible apply_assumption -exfalso -symm
    | split
    | dsimp only

/-- What `loadBank` may change. -/
theorem loadBank_only (k : Nat) (b : Bool) (p : PatchSet) (s : State) :
    Only [.cs] s (loadBank k b p s) := by
  unfold loadBank
  repeat' first
    | intro _
    | with_reducible assumption
    | with_reducible exact Only.refl _ _
    | with_reducible apply Only.ite
    | (with_reducible apply Only.step (updCluster_only ..); exact .of (by decide +kernel))
    | with_reducible apply_assumption -exfalso -symm
    | split
    | dsimp only

/-- What `startupSetFailed` may change. -/
theorem startupSetFailed_only (s : State) :
    Only [.gen] s (startupSetFailed s) := by
  unfold startupSetFailed
  repeat' first
    | intro _
    | with_reducible assumption
    | with_reducible exact Only.refl _ _
    | with_reducible apply Only.ite
    | fail_if_no_progress (with_reducible apply Only.upd_gen; decide +kernel)
    | with_reducible apply_assumption -exfalso -symm
    | split
    | dsimp only

/-- The flag of a set's failure is one of two. -/
theorem setFlag_in {p : PatchSet} {s : State} {f : Field} {w : List Fld} (h : setFlag p s = some f)
    (hw : (covered w (.reg Reg.CS_ERR.PATCHFMT) && covered w (.reg Reg.CS_ERR.PATCHSIG)) = true := by decide +kernel) :
    covered w (.reg f) = true := by
  simp only [Bool.and_eq_true] at hw
  unfold setFlag at h
  split at h
  · cases h; exact hw.1
  split at h
  · cases h; exact hw.2
  · cases h

/-- What `patchSetLoadEff` may change. -/
theorem patchSetLoadEff_only (cluster : Fin 8) (p : PatchSet) (atStartup : Bool) (s : State) :
    Only (List.append [.freeCtr,
    .out, .gen, .he, .ctl, .cmds, .fs, .mx, .mm, .cs, .bp, .tw, .dg, .mg, .fi, .ff, .prov, .fuses, .reg Reg.GEN_RSTCAUSE.MGRST,
    .reg Reg.GEN_DRAIN.ACTIVE, .reg Reg.QE_CQFULL.COUNT, .reg Reg.CS_ACT.STALL, .reg Reg.CS_ERR.PATCHSIG,
    .reg Reg.CS_ERR.PATCHFMT, .reg Reg.BP_ERRBUF.INDEX, .reg Reg.BP_ERRBUF.OWNER, .reg Reg.BP_ERRBUF.CAUSE,
    .reg Reg.BP_ERR.REVOKE, .reg Reg.MG_STAT.MGRESETS, .reg Reg.MG_WDOG.PERIOD] [.reg Reg.MG_LOGSTAT.DROPPED,
    .reg Reg.FF_STATUS.BUSY, .reg Reg.MG_ERR.LOGDROP, .reg Reg.FI_ARM.ARMED, .reg Reg.FI_ARM.DCAUSE, .reg Reg.FI_GF.EN,
    .reg Reg.FI_FL.EN, .reg Reg.FI_PCIE.EN]) s (patchSetLoadEff cluster p atStartup s) := by
  unfold patchSetLoadEff
  repeat' first
    | intro _
    | with_reducible assumption
    | with_reducible exact Only.refl _ _
    | (extract_lets +onlyGivenNames x; refine Only.cut x ?_ (fun _ => ?_); unfold x; clear x; rotate_left; clear_value x)
    | (extract_lets +onlyGivenNames x; refine Only.cut2 x ?_ (fun _ => ?_); unfold x; clear x; rotate_left; clear_value x)
    | (extract_lets +onlyGivenNames x; clear_value x)
    | with_reducible apply Only.ite
    | (with_reducible apply Only.step (flagOn_only ..); exact .of (by decide +kernel))
    | (with_reducible apply Only.step (startupSetFailed_only ..); exact .of (by decide +kernel))
    | (with_reducible apply Only.step (loadBank_only ..); exact .of (by decide +kernel))
    | (with_reducible apply Only.step (stallActivation_only ..); exact .of (by decide +kernel))
    | (with_reducible apply Only.step (activationFailed_only ..); exact .of (by decide +kernel))
    | (with_reducible apply Only.step (flagOn_only ..); exact .single (setFlag_in ‹_›))
    | with_reducible apply_assumption -exfalso -symm
    | split
    | dsimp only

/-- What `execPatchSetLoad` may change. -/
theorem execPatchSetLoad_only (cluster : Fin 8) (set : PatchSet) (atStartup : Bool) (s : State) :
    ∃ t,
    execPatchSetLoad cluster set atStartup s = .next t ∧ Only (List.append [.freeCtr, .out, .gen, .he, .ctl, .cmds, .fs, .mx,
    .mm, .cs, .bp, .tw, .dg, .mg, .fi, .ff, .prov, .fuses, .reg Reg.GEN_RSTCAUSE.MGRST, .reg Reg.GEN_DRAIN.ACTIVE,
    .reg Reg.QE_CQFULL.COUNT, .reg Reg.CS_ACT.STALL, .reg Reg.CS_ERR.PATCHSIG, .reg Reg.CS_ERR.PATCHFMT,
    .reg Reg.BP_ERRBUF.INDEX, .reg Reg.BP_ERRBUF.OWNER, .reg Reg.BP_ERRBUF.CAUSE, .reg Reg.BP_ERR.REVOKE,
    .reg Reg.MG_STAT.MGRESETS, .reg Reg.MG_WDOG.PERIOD] [.reg Reg.MG_LOGSTAT.DROPPED, .reg Reg.FF_STATUS.BUSY,
    .reg Reg.MG_ERR.LOGDROP, .reg Reg.FI_ARM.ARMED, .reg Reg.FI_ARM.DCAUSE, .reg Reg.FI_GF.EN, .reg Reg.FI_FL.EN,
    .reg Reg.FI_PCIE.EN]) s t := by
  unfold execPatchSetLoad
  refine ⟨_, rfl, ?_⟩
  repeat' first
    | intro _
    | with_reducible assumption
    | with_reducible exact Only.refl _ _
    | (with_reducible apply Only.step (patchSetLoadEff_only ..); exact .of (by decide +kernel))
    | with_reducible apply_assumption -exfalso -symm
    | split
    | dsimp only

/-- What `handOff` may change. -/
theorem handOff_only (k n : Nat) (s : State) :
    Only [.cs] s (handOff k n s) := by
  unfold handOff
  repeat' first
    | intro _
    | with_reducible assumption
    | with_reducible exact Only.refl _ _
    | (extract_lets +onlyGivenNames x; refine Only.cut x ?_ (fun _ => ?_); unfold x; clear x; rotate_left; clear_value x)
    | (extract_lets +onlyGivenNames x; refine Only.cut2 x ?_ (fun _ => ?_); unfold x; clear x; rotate_left; clear_value x)
    | (extract_lets +onlyGivenNames x; refine Only.cutF x ?_ (fun _ => ?_); unfold x; clear x; rotate_left; clear_value x)
    | (extract_lets +onlyGivenNames x; refine Only.cutG x ?_ (fun _ => ?_); unfold x; clear x; rotate_left; clear_value x)
    | (extract_lets +onlyGivenNames x; refine Only.cutG2 x ?_ (fun _ => ?_); unfold x; clear x; rotate_left; clear_value x)
    | (extract_lets +onlyGivenNames x; refine Only.cutG3 x ?_ (fun _ => ?_); unfold x; clear x; rotate_left; clear_value x)
    | (extract_lets +onlyGivenNames x; refine Only.cutH x ?_ (fun _ => ?_); unfold x; clear x; rotate_left; clear_value x)
    | (extract_lets +onlyGivenNames x; clear_value x)
    | (with_reducible apply Only.step (updCluster_only ..); exact .of (by decide +kernel))
    | with_reducible apply_assumption -exfalso -symm
    | split
    | dsimp only

/-- What `patchHandoffEff` may change. -/
theorem patchHandoffEff_only (cluster phy : Fin 8) (s : State) :
    Only (List.append [.freeCtr, .out, .gen, .he, .ctl, .cmds,
    .fs, .mx, .mm, .cs, .bp, .tw, .dg, .mg, .fi, .ff, .prov, .fuses, .reg Reg.GEN_RSTCAUSE.MGRST, .reg Reg.GEN_DRAIN.ACTIVE,
    .reg Reg.QE_CQFULL.COUNT, .reg Reg.FS_CONT.CLAIMS, .reg Reg.FS_CONT.DISPL, .reg Reg.FS_CONT.BEYOND, .reg Reg.CS_ACT.STALL,
    .reg Reg.CS_ACT.HANDOFFS, .reg Reg.BP_ERRBUF.INDEX, .reg Reg.BP_ERRBUF.OWNER, .reg Reg.BP_ERRBUF.CAUSE,
    .reg Reg.BP_ERR.REVOKE] [.reg Reg.MG_STAT.MGRESETS, .reg Reg.MG_WDOG.PERIOD, .reg Reg.MG_LOGSTAT.DROPPED,
    .reg Reg.FF_STATUS.BUSY, .reg Reg.MG_ERR.LOGDROP, .reg Reg.FI_ARM.ARMED, .reg Reg.FI_ARM.DCAUSE, .reg Reg.FI_GF.EN,
    .reg Reg.FI_FL.EN, .reg Reg.FI_PCIE.EN]) s (patchHandoffEff cluster phy s) := by
  unfold patchHandoffEff
  repeat' first
    | intro _
    | with_reducible assumption
    | with_reducible exact Only.refl _ _
    | (extract_lets +onlyGivenNames x; refine Only.cut x ?_ (fun _ => ?_); unfold x; clear x; rotate_left; clear_value x)
    | (extract_lets +onlyGivenNames x; refine Only.cut2 x ?_ (fun _ => ?_); unfold x; clear x; rotate_left; clear_value x)
    | (extract_lets +onlyGivenNames x; clear_value x)
    | with_reducible apply Only.ite
    | fail_if_no_progress (with_reducible apply Only.upd_cs; decide +kernel)
    | (with_reducible apply Only.step (bump_only ..); exact .of (by decide +kernel))
    | (with_reducible apply Only.step (stallActivation_only ..); exact .of (by decide +kernel))
    | (with_reducible apply Only.step (resumeRecs_only ..); exact .of (by decide +kernel))
    | (with_reducible apply Only.step (chanReadsFail_only ..); exact .of (by decide +kernel))
    | (with_reducible apply Only.step (handOff_only ..); exact .of (by decide +kernel))
    | (with_reducible apply Only.step (updCluster_only ..); exact .of (by decide +kernel))
    | (with_reducible apply Only.step (activationDone_only ..); exact .of (by decide +kernel))
    | with_reducible apply_assumption -exfalso -symm
    | split
    | dsimp only

/-- What `execPatchHandoff` may change. -/
theorem execPatchHandoff_only (cluster : Fin 8) (phy : Fin 8) (s : State) :
    ∃ t,
    execPatchHandoff cluster phy s = .next t ∧ Only (List.append [.freeCtr, .out, .gen, .he, .ctl, .cmds, .fs, .mx, .mm, .cs,
    .bp, .tw, .dg, .mg, .fi, .ff, .prov, .fuses, .reg Reg.GEN_RSTCAUSE.MGRST, .reg Reg.GEN_DRAIN.ACTIVE,
    .reg Reg.QE_CQFULL.COUNT, .reg Reg.FS_CONT.CLAIMS, .reg Reg.FS_CONT.DISPL, .reg Reg.FS_CONT.BEYOND, .reg Reg.CS_ACT.STALL,
    .reg Reg.CS_ACT.HANDOFFS, .reg Reg.BP_ERRBUF.INDEX, .reg Reg.BP_ERRBUF.OWNER, .reg Reg.BP_ERRBUF.CAUSE,
    .reg Reg.BP_ERR.REVOKE] [.reg Reg.MG_STAT.MGRESETS, .reg Reg.MG_WDOG.PERIOD, .reg Reg.MG_LOGSTAT.DROPPED,
    .reg Reg.FF_STATUS.BUSY, .reg Reg.MG_ERR.LOGDROP, .reg Reg.FI_ARM.ARMED, .reg Reg.FI_ARM.DCAUSE, .reg Reg.FI_GF.EN,
    .reg Reg.FI_FL.EN, .reg Reg.FI_PCIE.EN]) s t := by
  unfold execPatchHandoff
  refine ⟨_, rfl, ?_⟩
  repeat' first
    | intro _
    | with_reducible assumption
    | with_reducible exact Only.refl _ _
    | (with_reducible apply Only.step (patchHandoffEff_only ..); exact .of (by decide +kernel))
    | with_reducible apply_assumption -exfalso -symm
    | split
    | dsimp only

end Sys2Proof.Machine
end

