-- ==== Sys2Proof/Laws/FrameBuffers.lean ====
section
/-! SUPPORT. What each operation of Machine/Buffers.lean may change, as `Only` states it: one lemma an operation, which later proofs cite
instead of unfolding it. -/
namespace Sys2Proof.Machine
set_option Elab.async false
set_option linter.all false

/-- What `bufferAllocateEff` may change. -/
theorem bufferAllocateEff_only (owner n : Nat) (vc0 : Bool) (s : State) :
    Only [.bp, .reg Reg.BP_ERRBUF.INDEX,
    .reg Reg.BP_ERRBUF.OWNER, .reg Reg.BP_ERRBUF.CAUSE, .reg Reg.BP_ERR.REVOKE] s (bufferAllocateEff owner n vc0 s) := by
  unfold bufferAllocateEff
  repeat' first
    | intro _
    | with_reducible assumption
    | with_reducible exact Only.refl _ _
    | with_reducible apply Only.ite
    | (with_reducible apply Only.step (bpAlloc_only ..); exact .of (by decide +kernel))
    | with_reducible refine Only.step (Only.of_eq2 ‹_› (bpAlloc_only ..)) (.of (by decide +kernel)) ?_
    | with_reducible refine Only.step (Only.of_eq3 ‹_› (bpAlloc_only ..)) (.of (by decide +kernel)) ?_
    | with_reducible apply_assumption -exfalso -symm
    | split
    | dsimp only

/-- What `execBufferAllocate` may change. -/
theorem execBufferAllocate_only (owner n : Nat) (vc0 : Bool) (s : State) :
    ∃ t,
    execBufferAllocate owner n vc0 s = .next t ∧ Only [.bp, .reg Reg.BP_ERRBUF.INDEX, .reg Reg.BP_ERRBUF.OWNER,
    .reg Reg.BP_ERRBUF.CAUSE, .reg Reg.BP_ERR.REVOKE] s t := by
  unfold execBufferAllocate
  refine ⟨_, rfl, ?_⟩
  repeat' first
    | intro _
    | with_reducible assumption
    | with_reducible exact Only.refl _ _
    | (with_reducible apply Only.step (bufferAllocateEff_only ..); exact .of (by decide +kernel))
    | with_reducible apply_assumption -exfalso -symm
    | split
    | dsimp only

/-- What `doubleFree` may change. -/
theorem doubleFree_only (index owner : Nat) (s : State) :
    Only [.mg, .reg Reg.BP_ERRBUF.INDEX, .reg Reg.BP_ERRBUF.OWNER,
    .reg Reg.BP_ERRBUF.CAUSE, .reg Reg.BP_ERR.DBLFREE, .reg Reg.MG_LOGSTAT.DROPPED,
    .reg Reg.MG_ERR.LOGDROP] s (doubleFree index owner s) := by
  unfold doubleFree
  repeat' first
    | intro _
    | with_reducible assumption
    | with_reducible exact Only.refl _ _
    | (with_reducible apply Only.step (flagOn_only ..); exact .of (by decide +kernel))
    | (with_reducible apply Only.step (logEvent_only ..); exact .of (by decide +kernel))
    | (with_reducible apply Only.step (bpErr_only ..); exact .of (by decide +kernel))
    | with_reducible apply_assumption -exfalso -symm
    | split
    | dsimp only

/-- What `acceptFree` may change. -/
theorem acceptFree_only (index : Nat) (s : State) :
    Only [.bp, .me] s (acceptFree index s) := by
  unfold acceptFree
  repeat' first
    | intro _
    | with_reducible assumption
    | with_reducible exact Only.refl _ _
    | (extract_lets +onlyGivenNames x; refine Only.cut x ?_ (fun _ => ?_); unfold x; clear x; rotate_left; clear_value x)
    | (extract_lets +onlyGivenNames x; refine Only.cut2 x ?_ (fun _ => ?_); unfold x; clear x; rotate_left; clear_value x)
    | (extract_lets +onlyGivenNames x; refine Only.cutF x ?_ (fun _ => ?_); unfold x; clear x; rotate_left; clear_value x)
    | (extract_lets +onlyGivenNames x; refine Only.cutG x ?_ (fun _ => ?_); unfold x; clear x; rotate_left; clear_value x)
    | (extract_lets +onlyGivenNames x; refine Only.cutG2 x ?_ (fun _ => ?_); unfold x; clear x; rotate_left; clear_value x)
    | (extract_lets +onlyGivenNames x; refine Only.cutG3 x ?_ (fun _ => ?_); unfold x; clear x; rotate_left; clear_value x)
    | (extract_lets +onlyGivenNames x; refine Only.cutH x ?_ (fun _ => ?_); unfold x; clear x; rotate_left; clear_value x)
    | (extract_lets +onlyGivenNames x; clear_value x)
    | fail_if_no_progress (with_reducible apply Only.upd_me; decide +kernel)
    | (with_reducible apply Only.step (mergesDone_only ..); exact .of (by decide +kernel))
    | (with_reducible apply Only.step (putBuf_only ..); exact .of (by decide +kernel))
    | with_reducible apply_assumption -exfalso -symm
    | split
    | dsimp only

/-- What `bufferFreeEff` may change. -/
theorem bufferFreeEff_only (index owner : Nat) (s : State) :
    Only [.bp, .me, .mg, .reg Reg.BP_ERRBUF.INDEX,
    .reg Reg.BP_ERRBUF.OWNER, .reg Reg.BP_ERRBUF.CAUSE, .reg Reg.BP_ERR.DBLFREE, .reg Reg.BP_ERR.OWNFREE,
    .reg Reg.MG_LOGSTAT.DROPPED, .reg Reg.MG_ERR.LOGDROP] s (bufferFreeEff index owner s) := by
  unfold bufferFreeEff
  repeat' first
    | intro _
    | with_reducible assumption
    | with_reducible exact Only.refl _ _
    | with_reducible apply Only.ite
    | (with_reducible apply Only.step (flagOn_only ..); exact .of (by decide +kernel))
    | (with_reducible apply Only.step (doubleFree_only ..); exact .of (by decide +kernel))
    | (with_reducible apply Only.step (bpErr_only ..); exact .of (by decide +kernel))
    | (with_reducible apply Only.step (acceptFree_only ..); exact .of (by decide +kernel))
    | with_reducible apply_assumption -exfalso -symm
    | split
    | dsimp only

/-- What `execBufferFree` may change. -/
theorem execBufferFree_only (index owner : Nat) (s : State) :
    ∃ t, execBufferFree index owner s = .next t ∧ Only [.bp, .me,
    .mg, .reg Reg.BP_ERRBUF.INDEX, .reg Reg.BP_ERRBUF.OWNER, .reg Reg.BP_ERRBUF.CAUSE, .reg Reg.BP_ERR.DBLFREE,
    .reg Reg.BP_ERR.OWNFREE, .reg Reg.MG_LOGSTAT.DROPPED, .reg Reg.MG_ERR.LOGDROP] s t := by
  unfold execBufferFree
  refine ⟨_, rfl, ?_⟩
  repeat' first
    | intro _
    | with_reducible assumption
    | with_reducible exact Only.refl _ _
    | (with_reducible apply Only.step (bufferFreeEff_only ..); exact .of (by decide +kernel))
    | with_reducible apply_assumption -exfalso -symm
    | split
    | dsimp only

/-- What `poolRebuildDoneEff` may change. -/
theorem poolRebuildDoneEff_only (pool : Nat) (s : State) :
    Only [.bp] s (poolRebuildDoneEff pool s) := by
  unfold poolRebuildDoneEff
  repeat' first
    | intro _
    | with_reducible assumption
    | with_reducible exact Only.refl _ _
    | with_reducible apply Only.ite
    | (with_reducible apply Only.step (updPool_only ..); exact .of (by decide +kernel))
    | with_reducible apply_assumption -exfalso -symm
    | split
    | dsimp only

/-- What `execPoolRebuildDone` may change. -/
theorem execPoolRebuildDone_only (pool : Nat) (s : State) :
    ∃ t, execPoolRebuildDone pool s = .next t ∧ Only [.bp] s t := by
  unfold execPoolRebuildDone
  refine ⟨_, rfl, ?_⟩
  repeat' first
    | intro _
    | with_reducible assumption
    | with_reducible exact Only.refl _ _
    | (with_reducible apply Only.step (poolRebuildDoneEff_only ..); exact .of (by decide +kernel))
    | with_reducible apply_assumption -exfalso -symm
    | split
    | dsimp only

/-- What `withdrawBuf` may change. -/
theorem withdrawBuf_only (i : Nat) (s : State) :
    Only [.bp] s (withdrawBuf i s) := by
  unfold withdrawBuf
  repeat' first
    | intro _
    | with_reducible assumption
    | with_reducible exact Only.refl _ _
    | (extract_lets +onlyGivenNames x; refine Only.cut x ?_ (fun _ => ?_); unfold x; clear x; rotate_left; clear_value x)
    | (extract_lets +onlyGivenNames x; refine Only.cut2 x ?_ (fun _ => ?_); unfold x; clear x; rotate_left; clear_value x)
    | (extract_lets +onlyGivenNames x; refine Only.cutF x ?_ (fun _ => ?_); unfold x; clear x; rotate_left; clear_value x)
    | (extract_lets +onlyGivenNames x; refine Only.cutG x ?_ (fun _ => ?_); unfold x; clear x; rotate_left; clear_value x)
    | (extract_lets +onlyGivenNames x; refine Only.cutG2 x ?_ (fun _ => ?_); unfold x; clear x; rotate_left; clear_value x)
    | (extract_lets +onlyGivenNames x; refine Only.cutG3 x ?_ (fun _ => ?_); unfold x; clear x; rotate_left; clear_value x)
    | (extract_lets +onlyGivenNames x; refine Only.cutH x ?_ (fun _ => ?_); unfold x; clear x; rotate_left; clear_value x)
    | (extract_lets +onlyGivenNames x; clear_value x)
    | with_reducible apply Only.ite
    | (with_reducible apply Only.step (updBuf_only ..); exact .of (by decide +kernel))
    | (with_reducible apply Only.step (updPool_only ..); exact .of (by decide +kernel))
    | with_reducible apply_assumption -exfalso -symm
    | split
    | dsimp only

/-- What `withdrawBufs` may change. -/
theorem withdrawBufs_only (is : List Nat) (s : State) :
    Only [.bp] s (withdrawBufs is s) := by
  unfold withdrawBufs
  repeat' first
    | intro _
    | with_reducible assumption
    | with_reducible exact Only.refl _ _
    | (with_reducible apply Only.step (withdrawBuf_only ..); exact .of (by decide +kernel))
    | with_reducible refine Only.foldl (fun _ _ _ => ?_) ?_
    | with_reducible refine Only.foldl2 (fun _ _ _ => ?_) ?_
    | with_reducible apply_assumption -exfalso -symm
    | split
    | dsimp only

/-- What `remapPage` may change. -/
theorem remapPage_only (page : Nat) (s : State) :
    Only [.out, .he, .ctl, .fs, .bp, .me, .mg, .fi, .reg Reg.QE_CQFULL.COUNT,
    .reg Reg.ME_ERR.REMAPFULL, .reg Reg.MG_LOGSTAT.DROPPED, .reg Reg.MG_ERR.LOGDROP, .reg Reg.FI_ARM.ARMED,
    .reg Reg.FI_ARM.DCAUSE, .reg Reg.FI_GF.EN, .reg Reg.FI_FL.EN, .reg Reg.FI_PCIE.EN,
    .reg Reg.FI_ERR.REALFAULT] s (remapPage page s) := by
  unfold remapPage
  repeat' first
    | intro _
    | with_reducible assumption
    | with_reducible exact Only.refl _ _
    | (extract_lets +onlyGivenNames x; refine Only.cut x ?_ (fun _ => ?_); unfold x; clear x; rotate_left; clear_value x)
    | (extract_lets +onlyGivenNames x; refine Only.cut2 x ?_ (fun _ => ?_); unfold x; clear x; rotate_left; clear_value x)
    | (extract_lets +onlyGivenNames x; clear_value x)
    | with_reducible apply Only.ite
    | fail_if_no_progress (with_reducible apply Only.upd_me; decide +kernel)
    | (with_reducible apply Only.step (flagOn_only ..); exact .of (by decide +kernel))
    | (with_reducible apply Only.step (spareIn_only ..); exact .of (by decide +kernel))
    | (with_reducible apply Only.step (withdrawBuf_only ..); exact .of (by decide +kernel))
    | with_reducible apply_assumption -exfalso -symm
    | split
    | dsimp only

/-- What `repairRow` may change. -/
theorem repairRow_only (row : Nat) (hardware : Bool) (bufs : List Nat) (s : State) :
    Only [.out, .gen, .he, .ctl, .cmds,
    .fs, .mx, .mm, .bp, .me, .tw, .dg, .mg, .fi, .prov, .reg Reg.GEN_DRAIN.ACTIVE, .reg Reg.QE_CQFULL.COUNT,
    .reg Reg.BP_ERRBUF.INDEX, .reg Reg.BP_ERRBUF.OWNER, .reg Reg.BP_ERRBUF.CAUSE, .reg Reg.BP_ERR.REVOKE,
    .reg Reg.ME_ERR.REPAIRFULL, .reg Reg.MG_LOGSTAT.DROPPED, .reg Reg.MG_ERR.LOGDROP, .reg Reg.FI_ARM.ARMED,
    .reg Reg.FI_ARM.DCAUSE, .reg Reg.FI_GF.EN, .reg Reg.FI_FL.EN, .reg Reg.FI_PCIE.EN,
    .reg Reg.FI_ERR.REALFAULT] s (repairRow row hardware bufs s) := by
  unfold repairRow
  repeat' first
    | intro _
    | with_reducible assumption
    | with_reducible exact Only.refl _ _
    | (extract_lets +onlyGivenNames x; refine Only.cut x ?_ (fun _ => ?_); unfold x; clear x; rotate_left; clear_value x)
    | (extract_lets +onlyGivenNames x; refine Only.cut2 x ?_ (fun _ => ?_); unfold x; clear x; rotate_left; clear_value x)
    | (extract_lets +onlyGivenNames x; clear_value x)
    | with_reducible apply Only.ite
    | fail_if_no_progress (with_reducible apply Only.upd_me; decide +kernel)
    | (with_reducible apply Only.step (flagOn_only ..); exact .of (by decide +kernel))
    | (with_reducible apply Only.step (spareIn_only ..); exact .of (by decide +kernel))
    | (with_reducible apply Only.step (fatalFault_only ..); exact .of (by decide +kernel))
    | (with_reducible apply Only.step (withdrawBufs_only ..); exact .of (by decide +kernel))
    | with_reducible apply_assumption -exfalso -symm
    | split
    | dsimp only

/-- What `countUnit` may change. -/
theorem countUnit_only (addr : Nat) (s : State) :
    Only (List.append [.out, .gen, .he, .ctl, .cmds, .fs, .mx, .mm, .bp, .me,
    .tw, .dg, .mg, .fi, .prov, .reg Reg.GEN_DRAIN.ACTIVE, .reg Reg.QE_CQFULL.COUNT, .reg Reg.BP_ERRBUF.INDEX,
    .reg Reg.BP_ERRBUF.OWNER, .reg Reg.BP_ERRBUF.CAUSE, .reg Reg.BP_ERR.REVOKE, .reg Reg.ME_ERR.REMAPFULL,
    .reg Reg.ME_ERR.REPAIRFULL, .reg Reg.MG_LOGSTAT.DROPPED, .reg Reg.MG_ERR.LOGDROP, .reg Reg.FI_ARM.ARMED,
    .reg Reg.FI_ARM.DCAUSE, .reg Reg.FI_GF.EN, .reg Reg.FI_FL.EN,
    .reg Reg.FI_PCIE.EN] [.reg Reg.FI_ERR.REALFAULT]) s (countUnit addr s) := by
  unfold countUnit
  repeat' first
    | intro _
    | with_reducible assumption
    | with_reducible exact Only.refl _ _
    | (extract_lets +onlyGivenNames x; refine Only.cut x ?_ (fun _ => ?_); unfold x; clear x; rotate_left; clear_value x)
    | (extract_lets +onlyGivenNames x; refine Only.cut2 x ?_ (fun _ => ?_); unfold x; clear x; rotate_left; clear_value x)
    | (extract_lets +onlyGivenNames x; clear_value x)
    | with_reducible apply Only.ite
    | fail_if_no_progress (with_reducible apply Only.upd_me; decide +kernel)
    | (with_reducible apply Only.step (remapPage_only ..); exact .of (by decide +kernel))
    | (with_reducible apply Only.step (repairRow_only ..); exact .of (by decide +kernel))
    | with_reducible apply_assumption -exfalso -symm
    | split
    | dsimp only

/-- What `restoreUncommitted` may change. -/
theorem restoreUncommitted_only (id : Nat) (ok : Bool) (s : State) :
    Only (List.append [.freeCtr, .out, .gen, .he, .ctl,
    .sh, .cmds, .fs, .mx, .ns, .nsWait, .mm, .bp, .gf, .tw, .dg, .mg, .fi, .nand, .ff, .prov, .reg Reg.HE_WINLOG.COUNT,
    .reg Reg.HE_WINLOG.CAUSE, .reg Reg.HE_WINLOG.PORT, .reg Reg.HE_WINLOGLO.OFFSET, .reg Reg.HE_WINLOGHI.OFFSET,
    .reg Reg.HE_WINLOGHI.RID, .reg Reg.QE_CQFULL.COUNT, .reg Reg.MM_ERR.SHORTCLOSE,
    .reg Reg.BP_ERRBUF.INDEX] [.reg Reg.BP_ERRBUF.OWNER, .reg Reg.BP_ERRBUF.CAUSE, .reg Reg.BP_ERR.REVOKE,
    .reg Reg.GF_XFER.FAILED, .reg Reg.GF_ERR.XFERFAIL, .reg Reg.DG_RNG.RESEEDS, .reg Reg.MG_LOGSTAT.DROPPED,
    .reg Reg.MG_ERR.LOGDROP, .reg Reg.FI_ARM.ARMED, .reg Reg.FI_ARM.DCAUSE, .reg Reg.FI_GF.EN, .reg Reg.FI_FL.EN,
    .reg Reg.FI_PCIE.EN, .reg Reg.FI_CNT.INJECTED]) s (restoreUncommitted id ok s).2 := by
  unfold restoreUncommitted
  repeat' first
    | intro _
    | with_reducible assumption
    | with_reducible exact Only.refl _ _
    | with_reducible apply Only.ite
    | (with_reducible apply Only.step (finishCmd_only ..); exact .of (by decide +kernel))
    | with_reducible apply_assumption -exfalso -symm
    | split
    | dsimp only

/-- What `restoreCommitted` may change. -/
theorem restoreCommitted_only (i : Nat) (inForm : Bool) (s : State) :
    Only [.mx,
    .bp] s (restoreCommitted i inForm s).2 := by
  unfold restoreCommitted
  repeat' first
    | intro _
    | with_reducible assumption
    | with_reducible exact Only.refl _ _
    | with_reducible apply Only.ite
    | (with_reducible apply Only.step (updBuf_only ..); exact .of (by decide +kernel))
    | (with_reducible apply Only.step (updStaged_only ..); exact .of (by decide +kernel))
    | with_reducible refine Only.foldl (fun _ _ _ => ?_) ?_
    | with_reducible refine Only.foldl2 (fun _ _ _ => ?_) ?_
    | with_reducible apply_assumption -exfalso -symm
    | split
    | dsimp only

/-- What `restoreRead` may change. -/
theorem restoreRead_only (id : Nat) (s : State) :
    Only [.freeCtr, .cmds, .fs, .reg Reg.FS_CONT.CLAIMS,
    .reg Reg.FS_CONT.DISPL, .reg Reg.FS_CONT.BEYOND] s (restoreRead id s) := by
  unfold restoreRead
  repeat' first
    | intro _
    | with_reducible assumption
    | with_reducible exact Only.refl _ _
    | with_reducible apply Only.ite
    | (with_reducible apply Only.step (claimAll_only ..); exact .of (by decide +kernel))
    | (with_reducible apply Only.step (updCmd_only ..); exact .of (by decide +kernel))
    | with_reducible apply_assumption -exfalso -symm
    | split
    | dsimp only

/-- What `holdLine` may change. -/
theorem holdLine_only (nsid grain : Nat) (s : State) :
    Only [.mx] s (holdLine nsid grain s) := by
  unfold holdLine
  repeat' first
    | intro _
    | with_reducible assumption
    | with_reducible exact Only.refl _ _
    | fail_if_no_progress (with_reducible apply Only.upd_mx; decide +kernel)
    | with_reducible apply_assumption -exfalso -symm
    | split
    | dsimp only

/-- What `restoreBlock` may change. -/
theorem restoreBlock_only (d b : Nat) (s : State) :
    Only [.mx, .mm] s (restoreBlock d b s) := by
  unfold restoreBlock
  repeat' first
    | intro _
    | with_reducible assumption
    | with_reducible exact Only.refl _ _
    | (with_reducible apply Only.step (updBlk_only ..); exact .of (by decide +kernel))
    | with_reducible apply_assumption -exfalso -symm
    | split
    | dsimp only

/-- What `quarantinePool` may change. -/
theorem quarantinePool_only (addr : Nat) (s : State) :
    Only [.bp, .reg Reg.BP_ERRBUF.INDEX, .reg Reg.BP_ERRBUF.OWNER,
    .reg Reg.BP_ERRBUF.CAUSE, .reg Reg.BP_ERR.LISTCHK] s (quarantinePool addr s) := by
  unfold quarantinePool
  repeat' first
    | intro _
    | with_reducible assumption
    | with_reducible exact Only.refl _ _
    | (extract_lets +onlyGivenNames x; refine Only.cut x ?_ (fun _ => ?_); unfold x; clear x; rotate_left; clear_value x)
    | (extract_lets +onlyGivenNames x; refine Only.cut2 x ?_ (fun _ => ?_); unfold x; clear x; rotate_left; clear_value x)
    | (extract_lets +onlyGivenNames x; refine Only.cutF x ?_ (fun _ => ?_); unfold x; clear x; rotate_left; clear_value x)
    | (extract_lets +onlyGivenNames x; refine Only.cutG x ?_ (fun _ => ?_); unfold x; clear x; rotate_left; clear_value x)
    | (extract_lets +onlyGivenNames x; refine Only.cutG2 x ?_ (fun _ => ?_); unfold x; clear x; rotate_left; clear_value x)
    | (extract_lets +onlyGivenNames x; refine Only.cutG3 x ?_ (fun _ => ?_); unfold x; clear x; rotate_left; clear_value x)
    | (extract_lets +onlyGivenNames x; refine Only.cutH x ?_ (fun _ => ?_); unfold x; clear x; rotate_left; clear_value x)
    | (extract_lets +onlyGivenNames x; clear_value x)
    | with_reducible apply Only.ite
    | (with_reducible apply Only.step (flagOn_only ..); exact .of (by decide +kernel))
    | (with_reducible apply Only.step (bpErr_only ..); exact .of (by decide +kernel))
    | (with_reducible apply Only.step (updPool_only ..); exact .of (by decide +kernel))
    | with_reducible apply_assumption -exfalso -symm
    | split
    | dsimp only

/-- What `restoreLine` may change. -/
theorem restoreLine_only (addr : Nat) (k : LineKind) (s : State) :
    Only (List.append [.freeCtr, .out, .gen, .he, .ctl, .sh,
    .cmds, .fs, .mx, .ns, .nsWait, .mm, .bp, .me, .gf, .tw, .dg, .mg, .fi, .nand, .ff, .prov, .reg Reg.HE_WINLOG.COUNT,
    .reg Reg.HE_WINLOG.CAUSE, .reg Reg.HE_WINLOG.PORT, .reg Reg.HE_WINLOGLO.OFFSET, .reg Reg.HE_WINLOGHI.OFFSET,
    .reg Reg.HE_WINLOGHI.RID, .reg Reg.QE_CQFULL.COUNT, .reg Reg.FS_CONT.CLAIMS] [.reg Reg.FS_CONT.DISPL,
    .reg Reg.FS_CONT.BEYOND, .reg Reg.MM_ERR.SHORTCLOSE, .reg Reg.BP_ERRBUF.INDEX, .reg Reg.BP_ERRBUF.OWNER,
    .reg Reg.BP_ERRBUF.CAUSE, .reg Reg.BP_ERR.LISTCHK, .reg Reg.BP_ERR.REVOKE, .reg Reg.GF_XFER.FAILED,
    .reg Reg.GF_ERR.XFERFAIL, .reg Reg.DG_RNG.RESEEDS, .reg Reg.MG_LOGSTAT.DROPPED, .reg Reg.MG_ERR.LOGDROP,
    .reg Reg.FI_ARM.ARMED, .reg Reg.FI_ARM.DCAUSE, .reg Reg.FI_GF.EN, .reg Reg.FI_FL.EN, .reg Reg.FI_PCIE.EN,
    .reg Reg.FI_CNT.INJECTED]) s (restoreLine addr k s).2 := by
  unfold restoreLine
  repeat' first
    | intro _
    | with_reducible assumption
    | with_reducible exact Only.refl _ _
    | (extract_lets +onlyGivenNames x; refine Only.cut x ?_ (fun _ => ?_); unfold x; clear x; rotate_left; clear_value x)
    | (extract_lets +onlyGivenNames x; refine Only.cut2 x ?_ (fun _ => ?_); unfold x; clear x; rotate_left; clear_value x)
    | (extract_lets +onlyGivenNames x; refine Only.cut3 x ?_ (fun _ => ?_); unfold x; clear x; rotate_left; clear_value x)
    | (extract_lets +onlyGivenNames x; refine Only.cutF x ?_ (fun _ => ?_); unfold x; clear x; rotate_left; clear_value x)
    | (extract_lets +onlyGivenNames x; refine Only.cutG x ?_ (fun _ => ?_); unfold x; clear x; rotate_left; clear_value x)
    | (extract_lets +onlyGivenNames x; refine Only.cutP x ?_ (fun _ => ?_); unfold x; clear x; rotate_left; clear_value x)
    | (extract_lets +onlyGivenNames x; refine Only.cutG2 x ?_ (fun _ => ?_); unfold x; clear x; rotate_left; clear_value x)
    | (extract_lets +onlyGivenNames x; refine Only.cutG3 x ?_ (fun _ => ?_); unfold x; clear x; rotate_left; clear_value x)
    | (extract_lets +onlyGivenNames x; refine Only.cutH x ?_ (fun _ => ?_); unfold x; clear x; rotate_left; clear_value x)
    | (extract_lets +onlyGivenNames x; clear_value x)
    | with_reducible apply Only.ite
    | fail_if_no_progress (with_reducible apply Only.upd_me; decide +kernel)
    | (with_reducible apply Only.step (restoreUncommitted_only ..); exact .of (by decide +kernel))
    | with_reducible refine Only.step (Only.of_eq2 ‹_› (restoreUncommitted_only ..)) (.of (by decide +kernel)) ?_
    | with_reducible refine Only.step (Only.of_eq3 ‹_› (restoreUncommitted_only ..)) (.of (by decide +kernel)) ?_
    | (with_reducible apply Only.step (restoreCommitted_only ..); exact .of (by decide +kernel))
    | with_reducible refine Only.step (Only.of_eq2 ‹_› (restoreCommitted_only ..)) (.of (by decide +kernel)) ?_
    | with_reducible refine Only.step (Only.of_eq3 ‹_› (restoreCommitted_only ..)) (.of (by decide +kernel)) ?_
    | (with_reducible apply Only.step (restoreRead_only ..); exact .of (by decide +kernel))
    | (with_reducible apply Only.step (holdLine_only ..); exact .of (by decide +kernel))
    | (with_reducible apply Only.step (restoreBlock_only ..); exact .of (by decide +kernel))
    | (with_reducible apply Only.step (dgFail_only ..); exact .of (by decide +kernel))
    | (with_reducible apply Only.step (State.updPort_only ..); exact .of (by decide +kernel))
    | (with_reducible apply Only.step (quarantinePool_only ..); exact .of (by decide +kernel))
    | with_reducible refine Only.foldl (fun _ _ _ => ?_) ?_
    | with_reducible refine Only.foldl2 (fun _ _ _ => ?_) ?_
    | with_reducible apply_assumption -exfalso -symm
    | split
    | dsimp only

/-- What `chkRecorded` may change. -/
theorem chkRecorded_only (addr : Nat) (s : State) :
    Only [.me, .reg Reg.ME_CHKERR.SRAM, .reg Reg.ME_CHKERR.DRAM,
    .reg Reg.ME_LASTHI.KIND, .reg Reg.ME_ERR.CHK] s (chkRecorded addr s) := by
  unfold chkRecorded
  repeat' first
    | intro _
    | with_reducible assumption
    | with_reducible exact Only.refl _ _
    | (extract_lets +onlyGivenNames x; refine Only.cut x ?_ (fun _ => ?_); unfold x; clear x; rotate_left; clear_value x)
    | (extract_lets +onlyGivenNames x; refine Only.cut2 x ?_ (fun _ => ?_); unfold x; clear x; rotate_left; clear_value x)
    | (extract_lets +onlyGivenNames x; clear_value x)
    | with_reducible apply Only.ite
    | fail_if_no_progress (with_reducible apply Only.upd_me; decide +kernel)
    | (with_reducible apply Only.step (setF_only ..); exact .of (by decide +kernel))
    | (with_reducible apply Only.step (flagOn_only ..); exact .of (by decide +kernel))
    | (with_reducible apply Only.step (bump_only ..); exact .of (by decide +kernel))
    | with_reducible apply_assumption -exfalso -symm
    | split
    | dsimp only

/-- What `lineCheckFailureEff` may change. -/
theorem lineCheckFailureEff_only (address : Nat) (kind : LineKind) (s : State) :
    Only (List.append [.freeCtr, .out, .gen,
    .he, .ctl, .sh, .cmds, .fs, .mx, .ns, .nsWait, .mm, .bp, .me, .gf, .tw, .dg, .mg, .fi, .nand, .ff, .prov,
    .reg Reg.GEN_DRAIN.ACTIVE, .reg Reg.HE_WINLOG.COUNT, .reg Reg.HE_WINLOG.CAUSE, .reg Reg.HE_WINLOG.PORT,
    .reg Reg.HE_WINLOGLO.OFFSET, .reg Reg.HE_WINLOGHI.OFFSET, .reg Reg.HE_WINLOGHI.RID,
    .reg Reg.QE_CQFULL.COUNT] [.reg Reg.FS_CONT.CLAIMS, .reg Reg.FS_CONT.DISPL, .reg Reg.FS_CONT.BEYOND,
    .reg Reg.MM_ERR.SHORTCLOSE, .reg Reg.BP_ERRBUF.INDEX, .reg Reg.BP_ERRBUF.OWNER, .reg Reg.BP_ERRBUF.CAUSE,
    .reg Reg.BP_ERR.LISTCHK, .reg Reg.BP_ERR.REVOKE, .reg Reg.ME_CHKERR.SRAM, .reg Reg.ME_CHKERR.DRAM,
    .reg Reg.ME_REFETCH.RESTORED, .reg Reg.ME_REFETCH.POISONED, .reg Reg.ME_LASTHI.KIND, .reg Reg.ME_ERR.CHK,
    .reg Reg.ME_ERR.REMAPFULL, .reg Reg.ME_ERR.REPAIRFULL, .reg Reg.GF_XFER.FAILED, .reg Reg.GF_ERR.XFERFAIL,
    .reg Reg.DG_RNG.RESEEDS, .reg Reg.MG_LOGSTAT.DROPPED, .reg Reg.MG_ERR.LOGDROP, .reg Reg.FI_ARM.ARMED,
    .reg Reg.FI_ARM.DCAUSE, .reg Reg.FI_GF.EN, .reg Reg.FI_FL.EN, .reg Reg.FI_PCIE.EN, .reg Reg.FI_CNT.INJECTED,
    .reg Reg.FI_ERR.REALFAULT]) s (lineCheckFailureEff address kind s) := by
  unfold lineCheckFailureEff
  repeat' first
    | intro _
    | with_reducible assumption
    | with_reducible exact Only.refl _ _
    | (extract_lets +onlyGivenNames x; refine Only.cut x ?_ (fun _ => ?_); unfold x; clear x; rotate_left; clear_value x)
    | (extract_lets +onlyGivenNames x; refine Only.cut2 x ?_ (fun _ => ?_); unfold x; clear x; rotate_left; clear_value x)
    | (extract_lets +onlyGivenNames x; refine Only.cut3 x ?_ (fun _ => ?_); unfold x; clear x; rotate_left; clear_value x)
    | (extract_lets +onlyGivenNames x; clear_value x)
    | (with_reducible apply Only.step (bump_only ..); exact .of (by decide +kernel))
    | (with_reducible apply Only.step (restoreLine_only ..); exact .of (by decide +kernel))
    | with_reducible refine Only.step (Only.of_eq2 ‹_› (restoreLine_only ..)) (.of (by decide +kernel)) ?_
    | with_reducible refine Only.step (Only.of_eq3 ‹_› (restoreLine_only ..)) (.of (by decide +kernel)) ?_
    | (with_reducible apply Only.step (chkRecorded_only ..); exact .of (by decide +kernel))
    | (with_reducible apply Only.step (countUnit_only ..); exact .of (by decide +kernel))
    | with_reducible apply_assumption -exfalso -symm
    | split
    | dsimp only

/-- What `execLineCheckFailure` may change. -/
theorem execLineCheckFailure_only (address : Nat) (kind : LineKind) (s : State) :
    ∃ t,
    execLineCheckFailure address kind s = .next t ∧ Only (List.append [.freeCtr, .out, .gen, .he, .ctl, .sh, .cmds, .fs, .mx,
    .ns, .nsWait, .mm, .bp, .me, .gf, .tw, .dg, .mg, .fi, .nand, .ff, .prov, .reg Reg.GEN_DRAIN.ACTIVE,
    .reg Reg.HE_WINLOG.COUNT, .reg Reg.HE_WINLOG.CAUSE, .reg Reg.HE_WINLOG.PORT, .reg Reg.HE_WINLOGLO.OFFSET,
    .reg Reg.HE_WINLOGHI.OFFSET, .reg Reg.HE_WINLOGHI.RID, .reg Reg.QE_CQFULL.COUNT] [.reg Reg.FS_CONT.CLAIMS,
    .reg Reg.FS_CONT.DISPL, .reg Reg.FS_CONT.BEYOND, .reg Reg.MM_ERR.SHORTCLOSE, .reg Reg.BP_ERRBUF.INDEX,
    .reg Reg.BP_ERRBUF.OWNER, .reg Reg.BP_ERRBUF.CAUSE, .reg Reg.BP_ERR.LISTCHK, .reg Reg.BP_ERR.REVOKE,
    .reg Reg.ME_CHKERR.SRAM, .reg Reg.ME_CHKERR.DRAM, .reg Reg.ME_REFETCH.RESTORED, .reg Reg.ME_REFETCH.POISONED,
    .reg Reg.ME_LASTHI.KIND, .reg Reg.ME_ERR.CHK, .reg Reg.ME_ERR.REMAPFULL, .reg Reg.ME_ERR.REPAIRFULL,
    .reg Reg.GF_XFER.FAILED, .reg Reg.GF_ERR.XFERFAIL, .reg Reg.DG_RNG.RESEEDS, .reg Reg.MG_LOGSTAT.DROPPED,
    .reg Reg.MG_ERR.LOGDROP, .reg Reg.FI_ARM.ARMED, .reg Reg.FI_ARM.DCAUSE, .reg Reg.FI_GF.EN, .reg Reg.FI_FL.EN,
    .reg Reg.FI_PCIE.EN, .reg Reg.FI_CNT.INJECTED, .reg Reg.FI_ERR.REALFAULT]) s t := by
  unfold execLineCheckFailure
  refine ⟨_, rfl, ?_⟩
  repeat' first
    | intro _
    | with_reducible assumption
    | with_reducible exact Only.refl _ _
    | (with_reducible apply Only.step (lineCheckFailureEff_only ..); exact .of (by decide +kernel))
    | with_reducible apply_assumption -exfalso -symm
    | split
    | dsimp only

/-- What `staleGenerationAccessEff` may change. -/
theorem staleGenerationAccessEff_only (address index generation : Nat) (isWrite : Bool) (s : State) :
    Only [.me,
    .reg Reg.ME_LASTHI.KIND, .reg Reg.ME_STALE.WR, .reg Reg.ME_STALE.RD, .reg Reg.ME_ERR.STALEWR,
    .reg Reg.ME_ERR.STALERD] s (staleGenerationAccessEff address index generation isWrite s) := by
  unfold staleGenerationAccessEff
  repeat' first
    | intro _
    | with_reducible assumption
    | with_reducible exact Only.refl _ _
    | (extract_lets +onlyGivenNames x; refine Only.cut x ?_ (fun _ => ?_); unfold x; clear x; rotate_left; clear_value x)
    | (extract_lets +onlyGivenNames x; refine Only.cut2 x ?_ (fun _ => ?_); unfold x; clear x; rotate_left; clear_value x)
    | (extract_lets +onlyGivenNames x; clear_value x)
    | with_reducible apply Only.ite
    | fail_if_no_progress (with_reducible apply Only.upd_me; decide +kernel)
    | (with_reducible apply Only.step (setF_only ..); exact .of (by decide +kernel))
    | (with_reducible apply Only.step (flagOn_only ..); exact .of (by decide +kernel))
    | (with_reducible apply Only.step (bump_only ..); exact .of (by decide +kernel))
    | with_reducible apply_assumption -exfalso -symm
    | split
    | dsimp only

/-- What `execStaleGenerationAccess` may change. -/
theorem execStaleGenerationAccess_only (address index generation : Nat) (isWrite : Bool) (s : State) :
    ∃ t,
    execStaleGenerationAccess address index generation isWrite s = .next t ∧ Only [.me, .reg Reg.ME_LASTHI.KIND,
    .reg Reg.ME_STALE.WR, .reg Reg.ME_STALE.RD, .reg Reg.ME_ERR.STALEWR, .reg Reg.ME_ERR.STALERD] s t := by
  unfold execStaleGenerationAccess
  refine ⟨_, rfl, ?_⟩
  repeat' first
    | intro _
    | with_reducible assumption
    | with_reducible exact Only.refl _ _
    | (with_reducible apply Only.step (staleGenerationAccessEff_only ..); exact .of (by decide +kernel))
    | with_reducible apply_assumption -exfalso -symm
    | split
    | dsimp only

/-- What `mergeEntryTimeoutEff` may change. -/
theorem mergeEntryTimeoutEff_only (meport : Nat) (s : State) :
    Only [.me] s (mergeEntryTimeoutEff meport s) := by
  unfold mergeEntryTimeoutEff
  repeat' first
    | intro _
    | with_reducible assumption
    | with_reducible exact Only.refl _ _
    | (with_reducible apply Only.step (mergeDone_only ..); exact .of (by decide +kernel))
    | with_reducible apply_assumption -exfalso -symm
    | split
    | dsimp only

/-- What `execMergeEntryTimeout` may change. -/
theorem execMergeEntryTimeout_only (meport : Fin 8) (s : State) :
    ∃ t,
    execMergeEntryTimeout meport s = .next t ∧ Only [.me] s t := by
  unfold execMergeEntryTimeout
  refine ⟨_, rfl, ?_⟩
  repeat' first
    | intro _
    | with_reducible assumption
    | with_reducible exact Only.refl _ _
    | (with_reducible apply Only.step (mergeEntryTimeoutEff_only ..); exact .of (by decide +kernel))
    | with_reducible apply_assumption -exfalso -symm
    | split
    | dsimp only

end Sys2Proof.Machine
end

