-- ==== Sys2Proof/Laws/FrameSpdm.lean ====
section
/-! SUPPORT. What each operation of Machine/Spdm.lean may change, as `Only` states it: one lemma an operation, which later proofs cite
instead of unfolding it. -/
namespace Sys2Proof.Machine
set_option Elab.async false
set_option linter.all false

/-- What `spdmSend` may change. -/
theorem spdmSend_only (t code : Nat) (data : List Nat) (s : State) :
    Only [.out, .he] s (spdmSend t code data s) := by
  unfold spdmSend
  repeat' first
    | intro _
    | with_reducible assumption
    | with_reducible exact Only.refl _ _
    | (extract_lets +onlyGivenNames x; refine Only.cut x ?_ (fun _ => ?_); unfold x; clear x; rotate_left; clear_value x)
    | (extract_lets +onlyGivenNames x; refine Only.cut2 x ?_ (fun _ => ?_); unfold x; clear x; rotate_left; clear_value x)
    | (extract_lets +onlyGivenNames x; refine Only.cutF x ?_ (fun _ => ?_); unfold x; clear x; rotate_left; clear_value x)
    | (extract_lets +onlyGivenNames x; refine Only.cutG x ?_ (fun _ => ?_); unfold x; clear x; rotate_left; clear_value x)
    | (extract_lets +onlyGivenNames x; refine Only.cutG2 x ?_ (fun _ => ?_); unfold x; clear x; rotate_left; clear_value x)
    | (extract_lets +onlyGivenNames x; refine Only.cutG3 x ?_ (fun _ => ?_); unfold x; clear x; rotate_left; clear_value x)
    | (extract_lets +onlyGivenNames x; refine Only.cutH x ?_ (fun _ => ?_); unfold x; clear x; rotate_left; clear_value x)
    | (extract_lets +onlyGivenNames x; clear_value x)
    | with_reducible apply Only.ite
    | (with_reducible apply Only.step (emit_only ..); exact .of (by decide +kernel))
    | (with_reducible apply Only.step (State.updPort_only ..); exact .of (by decide +kernel))
    | with_reducible apply_assumption -exfalso -symm
    | split
    | dsimp only

/-- What `spdmError` may change. -/
theorem spdmError_only (t code : Nat) (s : State) :
    Only [.out, .he] s (spdmError t code s) := by
  unfold spdmError
  repeat' first
    | intro _
    | with_reducible assumption
    | with_reducible exact Only.refl _ _
    | (with_reducible apply Only.step (spdmSend_only ..); exact .of (by decide +kernel))
    | with_reducible apply_assumption -exfalso -symm
    | split
    | dsimp only

/-- What `spdmAt` may change. -/
theorem spdmAt_only (t n : Nat) (s : State) :
    Only [.dg] s (spdmAt t n s) := by
  unfold spdmAt
  repeat' first
    | intro _
    | with_reducible assumption
    | with_reducible exact Only.refl _ _
    | fail_if_no_progress (with_reducible apply Only.upd_dg; decide +kernel)
    | with_reducible apply_assumption -exfalso -symm
    | split
    | dsimp only

/-- What `spdmReq` may change. -/
theorem spdmReq_keep {w : List Fld} {r : State} {t : Nat} {body : State → State} {s : State}
    (hSub : Within [] w)
    (hBody : ∀ u,
    Only w r u → Only w r (body u)) (hOnly : Only w r s) : Only w r (spdmReq t body s) := by
  unfold spdmReq
  repeat' first
    | intro _
    | with_reducible assumption
    | with_reducible exact Only.refl _ _
    | with_reducible apply Only.ite
    | with_reducible apply_assumption -exfalso -symm
    | split
    | dsimp only

/-- What `spdmAfter` may change. -/
theorem spdmAfter_keep {w : List Fld} {r : State} {t : Nat} {body : State → State} {s : State}
    (hSub : Within [.out,
    .he] w)
    (hBody : ∀ u, Only w r u → Only w r (body u)) (hOnly : Only w r s) : Only w r (spdmAfter t body s) := by
  unfold spdmAfter
  repeat' first
    | intro _
    | with_reducible assumption
    | with_reducible exact Only.refl _ _
    | with_reducible apply Only.ite
    | (with_reducible apply spdmReq_keep; exact .trans (.of (by decide +kernel)) hSub)
    | (with_reducible apply Only.step (spdmError_only ..); exact .trans (.of (by decide +kernel)) hSub)
    | with_reducible apply_assumption -exfalso -symm
    | split
    | dsimp only

/-- What `tickFrees` may change. -/
theorem tickFrees_only (n : Nat) (s : State) :
    Only [.freeCtr] s (tickFrees n s) := by
  unfold tickFrees
  repeat' first
    | intro _
    | with_reducible assumption
    | with_reducible exact Only.refl _ _
    | fail_if_no_progress (with_reducible apply Only.upd_freeCtr; decide +kernel)
    | with_reducible apply_assumption -exfalso -symm
    | split
    | dsimp only

/-- What `getVersionEff` may change. -/
theorem getVersionEff_only (t : Nat) (s : State) :
    Only [.out, .he, .dg] s (getVersionEff t s) := by
  unfold getVersionEff
  repeat' first
    | intro _
    | with_reducible assumption
    | with_reducible exact Only.refl _ _
    | fail_if_no_progress (with_reducible apply Only.upd_dg; decide +kernel)
    | (with_reducible apply spdmReq_keep; exact .of (by decide +kernel))
    | (with_reducible apply Only.step (spdmSend_only ..); exact .of (by decide +kernel))
    | (with_reducible apply Only.step (spdmAt_only ..); exact .of (by decide +kernel))
    | with_reducible apply_assumption -exfalso -symm
    | split
    | dsimp only

/-- What `execGetVersion` may change. -/
theorem execGetVersion_only (transport : Nat) (s : State) :
    ∃ t, execGetVersion transport s = .next t ∧ Only [.out, .he,
    .dg] s t := by
  unfold execGetVersion
  refine ⟨_, rfl, ?_⟩
  repeat' first
    | intro _
    | with_reducible assumption
    | with_reducible exact Only.refl _ _
    | (with_reducible apply Only.step (getVersionEff_only ..); exact .of (by decide +kernel))
    | with_reducible apply_assumption -exfalso -symm
    | split
    | dsimp only

/-- What `getCapabilitiesEff` may change. -/
theorem getCapabilitiesEff_only (t : Nat) (s : State) :
    Only [.out, .he, .dg] s (getCapabilitiesEff t s) := by
  unfold getCapabilitiesEff
  repeat' first
    | intro _
    | with_reducible assumption
    | with_reducible exact Only.refl _ _
    | with_reducible apply Only.ite
    | (with_reducible apply spdmReq_keep; exact .of (by decide +kernel))
    | (with_reducible apply Only.step (spdmError_only ..); exact .of (by decide +kernel))
    | (with_reducible apply Only.step (spdmSend_only ..); exact .of (by decide +kernel))
    | (with_reducible apply Only.step (spdmAt_only ..); exact .of (by decide +kernel))
    | with_reducible apply_assumption -exfalso -symm
    | split
    | dsimp only

/-- What `execGetCapabilities` may change. -/
theorem execGetCapabilities_only (transport : Nat) (s : State) :
    ∃ t,
    execGetCapabilities transport s = .next t ∧ Only [.out, .he, .dg] s t := by
  unfold execGetCapabilities
  refine ⟨_, rfl, ?_⟩
  repeat' first
    | intro _
    | with_reducible assumption
    | with_reducible exact Only.refl _ _
    | (with_reducible apply Only.step (getCapabilitiesEff_only ..); exact .of (by decide +kernel))
    | with_reducible apply_assumption -exfalso -symm
    | split
    | dsimp only

/-- What `negotiateEff` may change. -/
theorem negotiateEff_only (t asym hash dhe aead : Nat) (s : State) :
    Only [.out, .he,
    .dg] s (negotiateEff t asym hash dhe aead s) := by
  unfold negotiateEff
  repeat' first
    | intro _
    | with_reducible assumption
    | with_reducible exact Only.refl _ _
    | (extract_lets +onlyGivenNames x; refine Only.cut x ?_ (fun _ => ?_); unfold x; clear x; rotate_left; clear_value x)
    | (extract_lets +onlyGivenNames x; refine Only.cut2 x ?_ (fun _ => ?_); unfold x; clear x; rotate_left; clear_value x)
    | (extract_lets +onlyGivenNames x; refine Only.cutF x ?_ (fun _ => ?_); unfold x; clear x; rotate_left; clear_value x)
    | (extract_lets +onlyGivenNames x; refine Only.cutG x ?_ (fun _ => ?_); unfold x; clear x; rotate_left; clear_value x)
    | (extract_lets +onlyGivenNames x; refine Only.cutG2 x ?_ (fun _ => ?_); unfold x; clear x; rotate_left; clear_value x)
    | (extract_lets +onlyGivenNames x; refine Only.cutG3 x ?_ (fun _ => ?_); unfold x; clear x; rotate_left; clear_value x)
    | (extract_lets +onlyGivenNames x; refine Only.cutH x ?_ (fun _ => ?_); unfold x; clear x; rotate_left; clear_value x)
    | (extract_lets +onlyGivenNames x; clear_value x)
    | with_reducible apply Only.ite
    | (with_reducible apply spdmReq_keep; exact .of (by decide +kernel))
    | (with_reducible apply Only.step (spdmError_only ..); exact .of (by decide +kernel))
    | (with_reducible apply Only.step (spdmSend_only ..); exact .of (by decide +kernel))
    | (with_reducible apply Only.step (spdmAt_only ..); exact .of (by decide +kernel))
    | with_reducible apply_assumption -exfalso -symm
    | split
    | dsimp only

/-- What `execNegotiateAlgorithms` may change. -/
theorem execNegotiateAlgorithms_only (transport : Nat) (asym hash dhe aead : Nat) (s : State) :
    ∃ t,
    execNegotiateAlgorithms transport asym hash dhe aead s = .next t ∧ Only [.out, .he, .dg] s t := by
  unfold execNegotiateAlgorithms
  refine ⟨_, rfl, ?_⟩
  repeat' first
    | intro _
    | with_reducible assumption
    | with_reducible exact Only.refl _ _
    | (with_reducible apply Only.step (negotiateEff_only ..); exact .of (by decide +kernel))
    | with_reducible apply_assumption -exfalso -symm
    | split
    | dsimp only

/-- What `getDigestsEff` may change. -/
theorem getDigestsEff_only (t : Nat) (s : State) :
    Only [.freeCtr, .out, .he] s (getDigestsEff t s) := by
  unfold getDigestsEff
  repeat' first
    | intro _
    | with_reducible assumption
    | with_reducible exact Only.refl _ _
    | (extract_lets +onlyGivenNames x; refine Only.cut x ?_ (fun _ => ?_); unfold x; clear x; rotate_left; clear_value x)
    | (extract_lets +onlyGivenNames x; refine Only.cut2 x ?_ (fun _ => ?_); unfold x; clear x; rotate_left; clear_value x)
    | (extract_lets +onlyGivenNames x; refine Only.cutF x ?_ (fun _ => ?_); unfold x; clear x; rotate_left; clear_value x)
    | (extract_lets +onlyGivenNames x; refine Only.cutG x ?_ (fun _ => ?_); unfold x; clear x; rotate_left; clear_value x)
    | (extract_lets +onlyGivenNames x; refine Only.cutG2 x ?_ (fun _ => ?_); unfold x; clear x; rotate_left; clear_value x)
    | (extract_lets +onlyGivenNames x; refine Only.cutG3 x ?_ (fun _ => ?_); unfold x; clear x; rotate_left; clear_value x)
    | (extract_lets +onlyGivenNames x; refine Only.cutH x ?_ (fun _ => ?_); unfold x; clear x; rotate_left; clear_value x)
    | (extract_lets +onlyGivenNames x; clear_value x)
    | with_reducible apply Only.ite
    | (with_reducible apply spdmAfter_keep; exact .of (by decide +kernel))
    | (with_reducible apply Only.step (spdmSend_only ..); exact .of (by decide +kernel))
    | (with_reducible apply Only.step (tickFrees_only ..); exact .of (by decide +kernel))
    | with_reducible apply_assumption -exfalso -symm
    | split
    | dsimp only

/-- What `execGetDigests` may change. -/
theorem execGetDigests_only (transport : Nat) (s : State) :
    ∃ t, execGetDigests transport s = .next t ∧ Only [.freeCtr,
    .out, .he] s t := by
  unfold execGetDigests
  refine ⟨_, rfl, ?_⟩
  repeat' first
    | intro _
    | with_reducible assumption
    | with_reducible exact Only.refl _ _
    | (with_reducible apply Only.step (getDigestsEff_only ..); exact .of (by decide +kernel))
    | with_reducible apply_assumption -exfalso -symm
    | split
    | dsimp only

/-- What `getCertificateEff` may change. -/
theorem getCertificateEff_only (t slot offset len : Nat) (s : State) :
    Only [.freeCtr, .out,
    .he] s (getCertificateEff t slot offset len s) := by
  unfold getCertificateEff
  repeat' first
    | intro _
    | with_reducible assumption
    | with_reducible exact Only.refl _ _
    | (extract_lets +onlyGivenNames x; refine Only.cut x ?_ (fun _ => ?_); unfold x; clear x; rotate_left; clear_value x)
    | (extract_lets +onlyGivenNames x; refine Only.cut2 x ?_ (fun _ => ?_); unfold x; clear x; rotate_left; clear_value x)
    | (extract_lets +onlyGivenNames x; refine Only.cutF x ?_ (fun _ => ?_); unfold x; clear x; rotate_left; clear_value x)
    | (extract_lets +onlyGivenNames x; refine Only.cutG x ?_ (fun _ => ?_); unfold x; clear x; rotate_left; clear_value x)
    | (extract_lets +onlyGivenNames x; refine Only.cutG2 x ?_ (fun _ => ?_); unfold x; clear x; rotate_left; clear_value x)
    | (extract_lets +onlyGivenNames x; refine Only.cutG3 x ?_ (fun _ => ?_); unfold x; clear x; rotate_left; clear_value x)
    | (extract_lets +onlyGivenNames x; refine Only.cutH x ?_ (fun _ => ?_); unfold x; clear x; rotate_left; clear_value x)
    | (extract_lets +onlyGivenNames x; clear_value x)
    | with_reducible apply Only.ite
    | (with_reducible apply spdmAfter_keep; exact .of (by decide +kernel))
    | (with_reducible apply Only.step (spdmSend_only ..); exact .of (by decide +kernel))
    | (with_reducible apply Only.step (tickFrees_only ..); exact .of (by decide +kernel))
    | (with_reducible apply Only.step (spdmError_only ..); exact .of (by decide +kernel))
    | with_reducible apply_assumption -exfalso -symm
    | split
    | dsimp only

/-- What `execGetCertificate` may change. -/
theorem execGetCertificate_only (transport slot offset len : Nat) (s : State) :
    ∃ t,
    execGetCertificate transport slot offset len s = .next t ∧ Only [.freeCtr, .out, .he] s t := by
  unfold execGetCertificate
  refine ⟨_, rfl, ?_⟩
  repeat' first
    | intro _
    | with_reducible assumption
    | with_reducible exact Only.refl _ _
    | (with_reducible apply Only.step (getCertificateEff_only ..); exact .of (by decide +kernel))
    | with_reducible apply_assumption -exfalso -symm
    | split
    | dsimp only

/-- What `setCertificateEff` may change. -/
theorem setCertificateEff_only (t slot : Nat) (chain : List Byte) (leafIsIdentity : Bool) (s : State) :
    Only [.out, .he,
    .ff] s (setCertificateEff t slot chain leafIsIdentity s) := by
  unfold setCertificateEff
  repeat' first
    | intro _
    | with_reducible assumption
    | with_reducible exact Only.refl _ _
    | with_reducible apply Only.ite
    | fail_if_no_progress (with_reducible apply Only.upd_ff; decide +kernel)
    | (with_reducible apply spdmAfter_keep; exact .of (by decide +kernel))
    | (with_reducible apply Only.step (spdmError_only ..); exact .of (by decide +kernel))
    | (with_reducible apply Only.step (spdmSend_only ..); exact .of (by decide +kernel))
    | with_reducible apply_assumption -exfalso -symm
    | split
    | dsimp only

/-- What `execSetCertificate` may change. -/
theorem execSetCertificate_only (transport slot : Nat) (chain : List Byte) (leafIsIdentity : Bool) (s : State) :
    ∃ t,
    execSetCertificate transport slot chain leafIsIdentity s = .next t ∧ Only [.out, .he, .ff] s t := by
  unfold execSetCertificate
  refine ⟨_, rfl, ?_⟩
  repeat' first
    | intro _
    | with_reducible assumption
    | with_reducible exact Only.refl _ _
    | (with_reducible apply Only.step (setCertificateEff_only ..); exact .of (by decide +kernel))
    | with_reducible apply_assumption -exfalso -symm
    | split
    | dsimp only

/-- What `spdmDraw` may change. -/
theorem spdmDraw_keep {w : List Fld} {r : State} {i : SpdmHeld} {body : State → State} {s : State}
    (hSub : Within [.freeCtr,
    .dg, .reg Reg.DG_RNG.RESEEDS, .reg Reg.DG_ERR.RNG] w)
    (hBody : ∀ u,
    Only w r u → Only w r (body u)) (hOnly : Only w r s) : Only w r (spdmDraw i body s) := by
  unfold spdmDraw
  repeat' first
    | intro _
    | with_reducible assumption
    | with_reducible exact Only.refl _ _
    | with_reducible apply Only.ite
    | fail_if_no_progress (with_reducible apply Only.upd_dg; exact Within.one (by decide +kernel) hSub)
    | (with_reducible apply Only.step (flagOn_only ..); exact .trans (.of (by decide +kernel)) hSub)
    | (with_reducible apply Only.step (rngDraw_only ..); exact .trans (.of (by decide +kernel)) hSub)
    | with_reducible apply_assumption -exfalso -symm
    | split
    | dsimp only

/-- What `challengeEff` may change. -/
theorem challengeEff_only (t slot nonce : Nat) (s : State) :
    Only [.freeCtr, .out, .he, .dg, .reg Reg.DG_RNG.RESEEDS,
    .reg Reg.DG_ERR.RNG] s (challengeEff t slot nonce s) := by
  unfold challengeEff
  repeat' first
    | intro _
    | with_reducible assumption
    | with_reducible exact Only.refl _ _
    | with_reducible apply Only.ite
    | (with_reducible apply spdmAfter_keep; exact .of (by decide +kernel))
    | (with_reducible apply Only.step (spdmError_only ..); exact .of (by decide +kernel))
    | (with_reducible apply spdmDraw_keep; exact .of (by decide +kernel))
    | (with_reducible apply Only.step (spdmSend_only ..); exact .of (by decide +kernel))
    | (with_reducible apply Only.step (tickFrees_only ..); exact .of (by decide +kernel))
    | with_reducible apply_assumption -exfalso -symm
    | split
    | dsimp only

/-- What `execChallenge` may change. -/
theorem execChallenge_only (transport slot : Nat) (nonce : Nat) (s : State) :
    ∃ t,
    execChallenge transport slot nonce s = .next t ∧ Only [.freeCtr, .out, .he, .dg, .reg Reg.DG_RNG.RESEEDS,
    .reg Reg.DG_ERR.RNG] s t := by
  unfold execChallenge
  refine ⟨_, rfl, ?_⟩
  repeat' first
    | intro _
    | with_reducible assumption
    | with_reducible exact Only.refl _ _
    | (with_reducible apply Only.step (challengeEff_only ..); exact .of (by decide +kernel))
    | with_reducible apply_assumption -exfalso -symm
    | split
    | dsimp only

/-- What `measSend` may change. -/
theorem measSend_only (t index : Nat) (signed : Bool) (s : State) :
    Only [.freeCtr, .out,
    .he] s (measSend t index signed s) := by
  unfold measSend
  repeat' first
    | intro _
    | with_reducible assumption
    | with_reducible exact Only.refl _ _
    | (extract_lets +onlyGivenNames x; refine Only.cut x ?_ (fun _ => ?_); unfold x; clear x; rotate_left; clear_value x)
    | (extract_lets +onlyGivenNames x; refine Only.cut2 x ?_ (fun _ => ?_); unfold x; clear x; rotate_left; clear_value x)
    | (extract_lets +onlyGivenNames x; clear_value x)
    | with_reducible apply Only.ite
    | (with_reducible apply Only.step (spdmSend_only ..); exact .of (by decide +kernel))
    | (with_reducible apply Only.step (tickFrees_only ..); exact .of (by decide +kernel))
    | with_reducible apply_assumption -exfalso -symm
    | split
    | dsimp only

/-- What `getMeasurementsEff` may change. -/
theorem getMeasurementsEff_only (t index : Nat) (signed : Bool) (nonce : Nat) (s : State) :
    Only [.freeCtr, .out, .he, .dg,
    .reg Reg.DG_RNG.RESEEDS, .reg Reg.DG_ERR.RNG] s (getMeasurementsEff t index signed nonce s) := by
  unfold getMeasurementsEff
  repeat' first
    | intro _
    | with_reducible assumption
    | with_reducible exact Only.refl _ _
    | with_reducible apply Only.ite
    | (with_reducible apply spdmAfter_keep; exact .of (by decide +kernel))
    | (with_reducible apply Only.step (spdmError_only ..); exact .of (by decide +kernel))
    | (with_reducible apply Only.step (measSend_only ..); exact .of (by decide +kernel))
    | (with_reducible apply spdmDraw_keep; exact .of (by decide +kernel))
    | with_reducible apply_assumption -exfalso -symm
    | split
    | dsimp only

/-- What `execGetMeasurements` may change. -/
theorem execGetMeasurements_only (transport index : Nat) (signed : Bool) (nonce : Nat) (s : State) :
    ∃ t,
    execGetMeasurements transport index signed nonce s = .next t ∧ Only [.freeCtr, .out, .he, .dg, .reg Reg.DG_RNG.RESEEDS,
    .reg Reg.DG_ERR.RNG] s t := by
  unfold execGetMeasurements
  refine ⟨_, rfl, ?_⟩
  repeat' first
    | intro _
    | with_reducible assumption
    | with_reducible exact Only.refl _ _
    | (with_reducible apply Only.step (getMeasurementsEff_only ..); exact .of (by decide +kernel))
    | with_reducible apply_assumption -exfalso -symm
    | split
    | dsimp only

/-- What `keyExchangeEff` may change. -/
theorem keyExchangeEff_only (t session : Nat) (mutualAuth : Bool) (s : State) :
    Only [.freeCtr, .out, .he, .dg,
    .reg Reg.DG_RNG.RESEEDS, .reg Reg.DG_ERR.RNG] s (keyExchangeEff t session mutualAuth s) := by
  unfold keyExchangeEff
  repeat' first
    | intro _
    | with_reducible assumption
    | with_reducible exact Only.refl _ _
    | with_reducible apply Only.ite
    | fail_if_no_progress (with_reducible apply Only.upd_dg; decide +kernel)
    | (with_reducible apply spdmAfter_keep; exact .of (by decide +kernel))
    | (with_reducible apply Only.step (spdmError_only ..); exact .of (by decide +kernel))
    | (with_reducible apply spdmDraw_keep; exact .of (by decide +kernel))
    | (with_reducible apply Only.step (spdmSend_only ..); exact .of (by decide +kernel))
    | (with_reducible apply Only.step (tickFrees_only ..); exact .of (by decide +kernel))
    | with_reducible apply_assumption -exfalso -symm
    | split
    | dsimp only

/-- What `execKeyExchange` may change. -/
theorem execKeyExchange_only (transport session : Nat) (mutualAuth : Bool) (s : State) :
    ∃ t,
    execKeyExchange transport session mutualAuth s = .next t ∧ Only [.freeCtr, .out, .he, .dg, .reg Reg.DG_RNG.RESEEDS,
    .reg Reg.DG_ERR.RNG] s t := by
  unfold execKeyExchange
  refine ⟨_, rfl, ?_⟩
  repeat' first
    | intro _
    | with_reducible assumption
    | with_reducible exact Only.refl _ _
    | (with_reducible apply Only.step (keyExchangeEff_only ..); exact .of (by decide +kernel))
    | with_reducible apply_assumption -exfalso -symm
    | split
    | dsimp only

/-- What `finishEff` may change. -/
theorem finishEff_only (t session : Nat) (peerIdOk : Bool) (s : State) :
    Only [.out, .he, .dg,
    .reg Reg.TW_ERR.PEERID] s (finishEff t session peerIdOk s) := by
  unfold finishEff
  repeat' first
    | intro _
    | with_reducible assumption
    | with_reducible exact Only.refl _ _
    | (extract_lets +onlyGivenNames x; refine Only.cut x ?_ (fun _ => ?_); unfold x; clear x; rotate_left; clear_value x)
    | (extract_lets +onlyGivenNames x; refine Only.cut2 x ?_ (fun _ => ?_); unfold x; clear x; rotate_left; clear_value x)
    | (extract_lets +onlyGivenNames x; refine Only.cutF x ?_ (fun _ => ?_); unfold x; clear x; rotate_left; clear_value x)
    | (extract_lets +onlyGivenNames x; refine Only.cutG x ?_ (fun _ => ?_); unfold x; clear x; rotate_left; clear_value x)
    | (extract_lets +onlyGivenNames x; refine Only.cutP x ?_ (fun _ => ?_); unfold x; clear x; rotate_left; clear_value x)
    | (extract_lets +onlyGivenNames x; refine Only.cutG2 x ?_ (fun _ => ?_); unfold x; clear x; rotate_left; clear_value x)
    | (extract_lets +onlyGivenNames x; refine Only.cutG3 x ?_ (fun _ => ?_); unfold x; clear x; rotate_left; clear_value x)
    | (extract_lets +onlyGivenNames x; refine Only.cutH x ?_ (fun _ => ?_); unfold x; clear x; rotate_left; clear_value x)
    | (extract_lets +onlyGivenNames x; clear_value x)
    | with_reducible apply Only.ite
    | fail_if_no_progress (with_reducible apply Only.upd_dg; decide +kernel)
    | (with_reducible apply Only.step (flagOn_only ..); exact .of (by decide +kernel))
    | (with_reducible apply spdmAfter_keep; exact .of (by decide +kernel))
    | (with_reducible apply Only.step (spdmError_only ..); exact .of (by decide +kernel))
    | (with_reducible apply Only.step (spdmSend_only ..); exact .of (by decide +kernel))
    | with_reducible apply_assumption -exfalso -symm
    | split
    | dsimp only

/-- What `execFinish` may change. -/
theorem execFinish_only (transport session : Nat) (peerIdOk : Bool) (s : State) :
    ∃ t,
    execFinish transport session peerIdOk s = .next t ∧ Only [.out, .he, .dg, .reg Reg.TW_ERR.PEERID] s t := by
  unfold execFinish
  refine ⟨_, rfl, ?_⟩
  repeat' first
    | intro _
    | with_reducible assumption
    | with_reducible exact Only.refl _ _
    | (with_reducible apply Only.step (finishEff_only ..); exact .of (by decide +kernel))
    | with_reducible apply_assumption -exfalso -symm
    | split
    | dsimp only

/-- What `endSessionEff` may change. -/
theorem endSessionEff_only (t session : Nat) (s : State) :
    Only [.out, .he, .dg] s (endSessionEff t session s) := by
  unfold endSessionEff
  repeat' first
    | intro _
    | with_reducible assumption
    | with_reducible exact Only.refl _ _
    | (extract_lets +onlyGivenNames x; refine Only.cut x ?_ (fun _ => ?_); unfold x; clear x; rotate_left; clear_value x)
    | (extract_lets +onlyGivenNames x; refine Only.cut2 x ?_ (fun _ => ?_); unfold x; clear x; rotate_left; clear_value x)
    | (extract_lets +onlyGivenNames x; refine Only.cutF x ?_ (fun _ => ?_); unfold x; clear x; rotate_left; clear_value x)
    | (extract_lets +onlyGivenNames x; refine Only.cutG x ?_ (fun _ => ?_); unfold x; clear x; rotate_left; clear_value x)
    | (extract_lets +onlyGivenNames x; refine Only.cutP x ?_ (fun _ => ?_); unfold x; clear x; rotate_left; clear_value x)
    | (extract_lets +onlyGivenNames x; refine Only.cutG2 x ?_ (fun _ => ?_); unfold x; clear x; rotate_left; clear_value x)
    | (extract_lets +onlyGivenNames x; refine Only.cutG3 x ?_ (fun _ => ?_); unfold x; clear x; rotate_left; clear_value x)
    | (extract_lets +onlyGivenNames x; refine Only.cutH x ?_ (fun _ => ?_); unfold x; clear x; rotate_left; clear_value x)
    | (extract_lets +onlyGivenNames x; clear_value x)
    | with_reducible apply Only.ite
    | fail_if_no_progress (with_reducible apply Only.upd_dg; decide +kernel)
    | (with_reducible apply spdmAfter_keep; exact .of (by decide +kernel))
    | (with_reducible apply Only.step (spdmError_only ..); exact .of (by decide +kernel))
    | (with_reducible apply Only.step (spdmSend_only ..); exact .of (by decide +kernel))
    | with_reducible apply_assumption -exfalso -symm
    | split
    | dsimp only

/-- What `execEndSession` may change. -/
theorem execEndSession_only (transport session : Nat) (s : State) :
    ∃ t,
    execEndSession transport session s = .next t ∧ Only [.out, .he, .dg] s t := by
  unfold execEndSession
  refine ⟨_, rfl, ?_⟩
  repeat' first
    | intro _
    | with_reducible assumption
    | with_reducible exact Only.refl _ _
    | (with_reducible apply Only.step (endSessionEff_only ..); exact .of (by decide +kernel))
    | with_reducible apply_assumption -exfalso -symm
    | split
    | dsimp only

/-- What `spdmAgain` may change. -/
theorem spdmAgain_only (i : SpdmHeld) (s : State) :
    Only [.freeCtr, .out, .he, .dg, .reg Reg.DG_RNG.RESEEDS,
    .reg Reg.DG_ERR.RNG] s (spdmAgain i s) := by
  unfold spdmAgain
  repeat' first
    | intro _
    | with_reducible assumption
    | with_reducible exact Only.refl _ _
    | (with_reducible apply Only.step (challengeEff_only ..); exact .of (by decide +kernel))
    | (with_reducible apply Only.step (getMeasurementsEff_only ..); exact .of (by decide +kernel))
    | (with_reducible apply Only.step (keyExchangeEff_only ..); exact .of (by decide +kernel))
    | with_reducible apply_assumption -exfalso -symm
    | split
    | dsimp only

/-- What `spdmServe` may change. -/
theorem spdmServe_only (s : State) :
    Only [.freeCtr, .out, .he, .dg, .reg Reg.DG_RNG.RESEEDS,
    .reg Reg.DG_ERR.RNG] s (spdmServe s) := by
  unfold spdmServe
  repeat' first
    | intro _
    | with_reducible assumption
    | with_reducible exact Only.refl _ _
    | with_reducible apply Only.ite
    | fail_if_no_progress (with_reducible apply Only.upd_dg; decide +kernel)
    | (with_reducible apply Only.step (spdmAgain_only ..); exact .of (by decide +kernel))
    | with_reducible refine Only.foldl (fun _ _ _ => ?_) ?_
    | with_reducible refine Only.foldl2 (fun _ _ _ => ?_) ?_
    | with_reducible apply_assumption -exfalso -symm
    | split
    | dsimp only

end Sys2Proof.Machine
end

