-- ==== Sys2Proof/Laws/FrameMi.lean ====
section
/-! SUPPORT. What each operation of Machine/Mi.lean may change, as `Only` states it: one lemma an operation, which later proofs cite
instead of unfolding it. -/
namespace Sys2Proof.Machine
set_option Elab.async false
set_option linter.all false

/-- What `miAnswer` may change. -/
theorem miAnswer_keep {w : List Fld} {r : State} {f : State → State} {s : State}
    (hSub : Within [] w)
    (hBody : ∀ u,
    Only w r u → Only w r (f u)) (hOnly : Only w r s) : Only w r (miAnswer f s) := by
  unfold miAnswer
  repeat' first
    | intro _
    | with_reducible assumption
    | with_reducible exact Only.refl _ _
    | with_reducible apply Only.ite
    | with_reducible apply_assumption -exfalso -symm
    | split
    | dsimp only

/-- What `miOk` may change. -/
theorem miOk_only (data : List Nat) (s : State) :
    Only [.out] s (miOk data s) := by
  unfold miOk
  repeat' first
    | intro _
    | with_reducible assumption
    | with_reducible exact Only.refl _ _
    | (with_reducible apply Only.step (emit_only ..); exact .of (by decide +kernel))
    | with_reducible apply_assumption -exfalso -symm
    | split
    | dsimp only

/-- What `miBad` may change. -/
theorem miBad_only (s : State) :
    Only [.out] s (miBad s) := by
  unfold miBad
  repeat' first
    | intro _
    | with_reducible assumption
    | with_reducible exact Only.refl _ _
    | (with_reducible apply Only.step (emit_only ..); exact .of (by decide +kernel))
    | with_reducible apply_assumption -exfalso -symm
    | split
    | dsimp only

/-- What `readNvmeMiEff` may change. -/
theorem readNvmeMiEff_only (dtyp portid cntlid_ : Nat) (s : State) :
    Only [.out] s (readNvmeMiEff dtyp portid cntlid_ s) := by
  unfold readNvmeMiEff
  repeat' first
    | intro _
    | with_reducible assumption
    | with_reducible exact Only.refl _ _
    | (extract_lets +onlyGivenNames x; refine Only.cut x ?_ (fun _ => ?_); unfold x; clear x; rotate_left; clear_value x)
    | (extract_lets +onlyGivenNames x; refine Only.cut2 x ?_ (fun _ => ?_); unfold x; clear x; rotate_left; clear_value x)
    | (extract_lets +onlyGivenNames x; refine Only.cutF x ?_ (fun _ => ?_); unfold x; clear x; rotate_left; clear_value x)
    | (extract_lets +onlyGivenNames x; refine Only.cutG x ?_ (fun _ => ?_); unfold x; clear x; rotate_left; clear_value x)
    | (extract_lets +onlyGivenNames x; refine Only.cutG2 x ?_ (fun _ => ?_); unfold x; clear x; rotate_left; clear_value x)
    | (extract_lets +onlyGivenNames x; refine Only.cutG3 x ?_ (fun _ => ?_); unfold x; clear x; rotate_left; clear_value x)
    | (extract_lets +onlyGivenNames x; refine Only.cutH x ?_ (fun _ => ?_); unfold x; clear x; rotate_left; clear_value x)
    | (extract_lets +onlyGivenNames x; clear_value x)
    | (with_reducible apply miAnswer_keep; exact .of (by decide +kernel))
    | (with_reducible apply Only.step (miOk_only ..); exact .of (by decide +kernel))
    | (with_reducible apply Only.step (miBad_only ..); exact .of (by decide +kernel))
    | with_reducible apply_assumption -exfalso -symm
    | split
    | dsimp only

/-- What `execReadNvmeMiDataStructure` may change. -/
theorem execReadNvmeMiDataStructure_only (dtyp portid cntlid : Nat) (s : State) :
    ∃ t,
    execReadNvmeMiDataStructure dtyp portid cntlid s = .next t ∧ Only [.out] s t := by
  unfold execReadNvmeMiDataStructure
  refine ⟨_, rfl, ?_⟩
  repeat' first
    | intro _
    | with_reducible assumption
    | with_reducible exact Only.refl _ _
    | (with_reducible apply Only.step (readNvmeMiEff_only ..); exact .of (by decide +kernel))
    | with_reducible apply_assumption -exfalso -symm
    | split
    | dsimp only

/-- What `subsystemHealthEff` may change. -/
theorem subsystemHealthEff_only (_clear : Bool) (s : State) :
    Only [.freeCtr, .out] s (subsystemHealthEff _clear s) := by
  unfold subsystemHealthEff
  repeat' first
    | intro _
    | with_reducible assumption
    | with_reducible exact Only.refl _ _
    | (extract_lets +onlyGivenNames x; refine Only.cut x ?_ (fun _ => ?_); unfold x; clear x; rotate_left; clear_value x)
    | (extract_lets +onlyGivenNames x; refine Only.cut2 x ?_ (fun _ => ?_); unfold x; clear x; rotate_left; clear_value x)
    | (extract_lets +onlyGivenNames x; refine Only.cutF x ?_ (fun _ => ?_); unfold x; clear x; rotate_left; clear_value x)
    | (extract_lets +onlyGivenNames x; refine Only.cutG x ?_ (fun _ => ?_); unfold x; clear x; rotate_left; clear_value x)
    | (extract_lets +onlyGivenNames x; refine Only.cutG2 x ?_ (fun _ => ?_); unfold x; clear x; rotate_left; clear_value x)
    | (extract_lets +onlyGivenNames x; refine Only.cutG3 x ?_ (fun _ => ?_); unfold x; clear x; rotate_left; clear_value x)
    | (extract_lets +onlyGivenNames x; refine Only.cutH x ?_ (fun _ => ?_); unfold x; clear x; rotate_left; clear_value x)
    | (extract_lets +onlyGivenNames x; clear_value x)
    | with_reducible apply Only.ite
    | (with_reducible apply miAnswer_keep; exact .of (by decide +kernel))
    | (with_reducible apply Only.step (miOk_only ..); exact .of (by decide +kernel))
    | (with_reducible apply Only.step (tickFree_only ..); exact .of (by decide +kernel))
    | with_reducible apply_assumption -exfalso -symm
    | split
    | dsimp only

/-- What `execNvmSubsystemHealthStatusPoll` may change. -/
theorem execNvmSubsystemHealthStatusPoll_only (clear : Bool) (s : State) :
    ∃ t,
    execNvmSubsystemHealthStatusPoll clear s = .next t ∧ Only [.freeCtr, .out] s t := by
  unfold execNvmSubsystemHealthStatusPoll
  refine ⟨_, rfl, ?_⟩
  repeat' first
    | intro _
    | with_reducible assumption
    | with_reducible exact Only.refl _ _
    | (with_reducible apply Only.step (subsystemHealthEff_only ..); exact .of (by decide +kernel))
    | with_reducible apply_assumption -exfalso -symm
    | split
    | dsimp only

/-- What `controllerHealthEff` may change. -/
theorem controllerHealthEff_only (startCtrl maxCount : Nat) (_clear : Bool) (s : State) :
    Only [.freeCtr,
    .out] s (controllerHealthEff startCtrl maxCount _clear s) := by
  unfold controllerHealthEff
  repeat' first
    | intro _
    | with_reducible assumption
    | with_reducible exact Only.refl _ _
    | (extract_lets +onlyGivenNames x; refine Only.cut x ?_ (fun _ => ?_); unfold x; clear x; rotate_left; clear_value x)
    | (extract_lets +onlyGivenNames x; refine Only.cut2 x ?_ (fun _ => ?_); unfold x; clear x; rotate_left; clear_value x)
    | (extract_lets +onlyGivenNames x; refine Only.cutF x ?_ (fun _ => ?_); unfold x; clear x; rotate_left; clear_value x)
    | (extract_lets +onlyGivenNames x; refine Only.cutG x ?_ (fun _ => ?_); unfold x; clear x; rotate_left; clear_value x)
    | (extract_lets +onlyGivenNames x; refine Only.cutG2 x ?_ (fun _ => ?_); unfold x; clear x; rotate_left; clear_value x)
    | (extract_lets +onlyGivenNames x; refine Only.cutG3 x ?_ (fun _ => ?_); unfold x; clear x; rotate_left; clear_value x)
    | (extract_lets +onlyGivenNames x; refine Only.cutH x ?_ (fun _ => ?_); unfold x; clear x; rotate_left; clear_value x)
    | (extract_lets +onlyGivenNames x; clear_value x)
    | (with_reducible apply miAnswer_keep; exact .of (by decide +kernel))
    | (with_reducible apply Only.step (miOk_only ..); exact .of (by decide +kernel))
    | (with_reducible apply Only.step (tickFree_only ..); exact .of (by decide +kernel))
    | with_reducible apply_assumption -exfalso -symm
    | split
    | dsimp only

/-- What `execControllerHealthStatusPoll` may change. -/
theorem execControllerHealthStatusPoll_only (startCtrl maxCount : Nat) (clear : Bool) (s : State) :
    ∃ t,
    execControllerHealthStatusPoll startCtrl maxCount clear s = .next t ∧ Only [.freeCtr, .out] s t := by
  unfold execControllerHealthStatusPoll
  refine ⟨_, rfl, ?_⟩
  repeat' first
    | intro _
    | with_reducible assumption
    | with_reducible exact Only.refl _ _
    | (with_reducible apply Only.step (controllerHealthEff_only ..); exact .of (by decide +kernel))
    | with_reducible apply_assumption -exfalso -symm
    | split
    | dsimp only

/-- What `configurationGetEff` may change. -/
theorem configurationGetEff_only (cfg transport : Nat) (s : State) :
    Only [.out] s (configurationGetEff cfg transport s) := by
  unfold configurationGetEff
  repeat' first
    | intro _
    | with_reducible assumption
    | with_reducible exact Only.refl _ _
    | with_reducible apply Only.ite
    | (with_reducible apply miAnswer_keep; exact .of (by decide +kernel))
    | (with_reducible apply Only.step (miBad_only ..); exact .of (by decide +kernel))
    | (with_reducible apply Only.step (miOk_only ..); exact .of (by decide +kernel))
    | with_reducible apply_assumption -exfalso -symm
    | split
    | dsimp only

/-- What `execConfigurationGet` may change. -/
theorem execConfigurationGet_only (cfg : Nat) (transport : Nat) (s : State) :
    ∃ t,
    execConfigurationGet cfg transport s = .next t ∧ Only [.out] s t := by
  unfold execConfigurationGet
  refine ⟨_, rfl, ?_⟩
  repeat' first
    | intro _
    | with_reducible assumption
    | with_reducible exact Only.refl _ _
    | (with_reducible apply Only.step (configurationGetEff_only ..); exact .of (by decide +kernel))
    | with_reducible apply_assumption -exfalso -symm
    | split
    | dsimp only

/-- What `configurationSetEff` may change. -/
theorem configurationSetEff_only (cfg transport value : Nat) (s : State) :
    Only [.out,
    .mg] s (configurationSetEff cfg transport value s) := by
  unfold configurationSetEff
  repeat' first
    | intro _
    | with_reducible assumption
    | with_reducible exact Only.refl _ _
    | with_reducible apply Only.ite
    | fail_if_no_progress (with_reducible apply Only.upd_mg; decide +kernel)
    | (with_reducible apply miAnswer_keep; exact .of (by decide +kernel))
    | (with_reducible apply Only.step (miBad_only ..); exact .of (by decide +kernel))
    | (with_reducible apply Only.step (miOk_only ..); exact .of (by decide +kernel))
    | with_reducible apply_assumption -exfalso -symm
    | split
    | dsimp only

/-- What `execConfigurationSet` may change. -/
theorem execConfigurationSet_only (cfg : Nat) (transport value : Nat) (s : State) :
    ∃ t,
    execConfigurationSet cfg transport value s = .next t ∧ Only [.out, .mg] s t := by
  unfold execConfigurationSet
  refine ⟨_, rfl, ?_⟩
  repeat' first
    | intro _
    | with_reducible assumption
    | with_reducible exact Only.refl _ _
    | (with_reducible apply Only.step (configurationSetEff_only ..); exact .of (by decide +kernel))
    | with_reducible apply_assumption -exfalso -symm
    | split
    | dsimp only

/-- What `vpdReadEff` may change. -/
theorem vpdReadEff_only (_offset len : Nat) (s : State) :
    Only [.freeCtr, .out] s (vpdReadEff _offset len s) := by
  unfold vpdReadEff
  repeat' first
    | intro _
    | with_reducible assumption
    | with_reducible exact Only.refl _ _
    | fail_if_no_progress (with_reducible apply Only.upd_freeCtr; decide +kernel)
    | (with_reducible apply miAnswer_keep; exact .of (by decide +kernel))
    | (with_reducible apply Only.step (miOk_only ..); exact .of (by decide +kernel))
    | with_reducible apply_assumption -exfalso -symm
    | split
    | dsimp only

/-- What `execVpdRead` may change. -/
theorem execVpdRead_only (offset len : Nat) (s : State) :
    ∃ t, execVpdRead offset len s = .next t ∧ Only [.freeCtr,
    .out] s t := by
  unfold execVpdRead
  refine ⟨_, rfl, ?_⟩
  repeat' first
    | intro _
    | with_reducible assumption
    | with_reducible exact Only.refl _ _
    | (with_reducible apply Only.step (vpdReadEff_only ..); exact .of (by decide +kernel))
    | with_reducible apply_assumption -exfalso -symm
    | split
    | dsimp only

/-- What `miCommit` may change. -/
theorem miCommit_only (h : AdminHdr) (slot ca : Nat) (img : SlotImage) (s : State) :
    Only (List.append [.freeCtr, .out,
    .eff, .gen, .he, .ctl, .sh, .defFaults, .lost, .cmds, .nextCmd, .fs, .mx, .ns, .nsWait, .mm, .sp, .cs, .bp, .me, .gf, .tw,
    .dg, .mg, .fi, .nand, .ff, .prov, .fuses, .win 0x80000 0x100000] [.win 0x88000 0xF0000]) s (miCommit h slot ca img s) := by
  unfold miCommit
  repeat' first
    | intro _
    | with_reducible assumption
    | with_reducible exact Only.refl _ _
    | (with_reducible apply Only.step (firmwareCommitBody_only ..); exact .of (by decide +kernel))
    | (with_reducible apply Only.step (firmwareActivateBody_only ..); exact .of (by decide +kernel))
    | (with_reducible apply Only.step (adminFail_only ..); exact .of (by decide +kernel))
    | with_reducible apply_assumption -exfalso -symm
    | split
    | dsimp only

/-- What `miAdmin` may change. -/
theorem miAdmin_only (h : AdminHdr) (opcode : Nat) (cdw : List Nat) (img : SlotImage) (s : State) :
    Only (List.append [.freeCtr,
    .out, .eff, .gen, .he, .ctl, .sh, .defFaults, .lost, .cmds, .nextCmd, .fs, .mx, .ns, .nsWait, .mm, .sp, .cs, .bp, .me, .gf,
    .tw, .dg, .mg, .fi, .nand, .ff, .prov, .fuses,
    .win 0x80000 0x100000] [.win 0x88000 0xF0000]) s (miAdmin h opcode cdw img s) := by
  unfold miAdmin
  repeat' first
    | intro _
    | with_reducible assumption
    | with_reducible exact Only.refl _ _
    | (extract_lets +onlyGivenNames x; refine Only.cut x ?_ (fun _ => ?_); unfold x; clear x; rotate_left; clear_value x)
    | (extract_lets +onlyGivenNames x; refine Only.cut2 x ?_ (fun _ => ?_); unfold x; clear x; rotate_left; clear_value x)
    | (extract_lets +onlyGivenNames x; refine Only.cutF x ?_ (fun _ => ?_); unfold x; clear x; rotate_left; clear_value x)
    | (extract_lets +onlyGivenNames x; refine Only.cutG x ?_ (fun _ => ?_); unfold x; clear x; rotate_left; clear_value x)
    | (extract_lets +onlyGivenNames x; refine Only.cutG2 x ?_ (fun _ => ?_); unfold x; clear x; rotate_left; clear_value x)
    | (extract_lets +onlyGivenNames x; refine Only.cutG3 x ?_ (fun _ => ?_); unfold x; clear x; rotate_left; clear_value x)
    | (extract_lets +onlyGivenNames x; refine Only.cutH x ?_ (fun _ => ?_); unfold x; clear x; rotate_left; clear_value x)
    | (extract_lets +onlyGivenNames x; clear_value x)
    | (with_reducible apply adminCmd_keep; exact .of (by decide +kernel))
    | (with_reducible apply Only.step (identifyBody_only ..); exact .of (by decide +kernel))
    | (with_reducible apply Only.step (getLogPageBody_only ..); exact .of (by decide +kernel))
    | (with_reducible apply Only.step (getFeaturesBody_only ..); exact .of (by decide +kernel))
    | (with_reducible apply Only.step (firmwareImageDownloadBody_only ..); exact .of (by decide +kernel))
    | (with_reducible apply Only.step (miCommit_only ..); exact .of (by decide +kernel))
    | (with_reducible apply Only.step (deviceSelfTestBody_only ..); exact .of (by decide +kernel))
    | (with_reducible apply Only.step (adminFail_only ..); exact .of (by decide +kernel))
    | with_reducible apply_assumption -exfalso -symm
    | split
    | dsimp only

/-- What `execMiTunnelledAdminCommand` may change. -/
theorem execMiTunnelledAdminCommand_only (port : Port) (opcode nsid : Nat) (cdw : List Nat) (img : SlotImage) (s : State) :
    ∃ t,
    execMiTunnelledAdminCommand port opcode nsid cdw img s = .next t ∧ Only (List.append [.freeCtr, .out, .eff, .gen, .he, .ctl,
    .sh, .defFaults, .lost, .cmds, .nextCmd, .fs, .mx, .ns, .nsWait, .mm, .sp, .cs, .bp, .me, .gf, .tw, .dg, .mg, .fi, .nand,
    .ff, .prov, .fuses, .win 0x80000 0x100000] [.win 0x88000 0xF0000]) s t := by
  unfold execMiTunnelledAdminCommand
  refine ⟨_, rfl, ?_⟩
  repeat' first
    | intro _
    | with_reducible assumption
    | with_reducible exact Only.refl _ _
    | (with_reducible apply miAnswer_keep; exact .of (by decide +kernel))
    | (with_reducible apply Only.step (miAdmin_only ..); exact .of (by decide +kernel))
    | with_reducible apply_assumption -exfalso -symm
    | split
    | dsimp only

/-- What `eventLogReadEff` may change. -/
theorem eventLogReadEff_only (firstSeq count area : Nat) (s : State) :
    Only [.out] s (eventLogReadEff firstSeq count area s) := by
  unfold eventLogReadEff
  repeat' first
    | intro _
    | with_reducible assumption
    | with_reducible exact Only.refl _ _
    | (extract_lets +onlyGivenNames x; refine Only.cut x ?_ (fun _ => ?_); unfold x; clear x; rotate_left; clear_value x)
    | (extract_lets +onlyGivenNames x; refine Only.cut2 x ?_ (fun _ => ?_); unfold x; clear x; rotate_left; clear_value x)
    | (extract_lets +onlyGivenNames x; refine Only.cutF x ?_ (fun _ => ?_); unfold x; clear x; rotate_left; clear_value x)
    | (extract_lets +onlyGivenNames x; refine Only.cutG x ?_ (fun _ => ?_); unfold x; clear x; rotate_left; clear_value x)
    | (extract_lets +onlyGivenNames x; refine Only.cutG2 x ?_ (fun _ => ?_); unfold x; clear x; rotate_left; clear_value x)
    | (extract_lets +onlyGivenNames x; refine Only.cutG3 x ?_ (fun _ => ?_); unfold x; clear x; rotate_left; clear_value x)
    | (extract_lets +onlyGivenNames x; refine Only.cutH x ?_ (fun _ => ?_); unfold x; clear x; rotate_left; clear_value x)
    | (extract_lets +onlyGivenNames x; clear_value x)
    | with_reducible apply Only.ite
    | (with_reducible apply miAnswer_keep; exact .of (by decide +kernel))
    | (with_reducible apply Only.step (miBad_only ..); exact .of (by decide +kernel))
    | (with_reducible apply Only.step (miOk_only ..); exact .of (by decide +kernel))
    | with_reducible apply_assumption -exfalso -symm
    | split
    | dsimp only

/-- What `execEventLogRead` may change. -/
theorem execEventLogRead_only (firstSeq count area : Nat) (s : State) :
    ∃ t,
    execEventLogRead firstSeq count area s = .next t ∧ Only [.out] s t := by
  unfold execEventLogRead
  refine ⟨_, rfl, ?_⟩
  repeat' first
    | intro _
    | with_reducible assumption
    | with_reducible exact Only.refl _ _
    | (with_reducible apply Only.step (eventLogReadEff_only ..); exact .of (by decide +kernel))
    | with_reducible apply_assumption -exfalso -symm
    | split
    | dsimp only

/-- What `execEventLogAcknowledge` may change. -/
theorem execEventLogAcknowledge_only (seq : Nat) (s : State) :
    ∃ t, execEventLogAcknowledge seq s = .next t ∧ Only [.out,
    .ff, .reg Reg.GEN_ERR.OWNWR, .reg Reg.GEN_ERRADDR.OFFSET, .reg Reg.GEN_ERRADDR.SRC, .reg Reg.MG_LOGSTAT.PFULL] s t := by
  unfold execEventLogAcknowledge
  refine ⟨_, rfl, ?_⟩
  repeat' first
    | intro _
    | with_reducible assumption
    | with_reducible exact Only.refl _ _
    | (with_reducible apply miAnswer_keep; exact .of (by decide +kernel))
    | (with_reducible apply Only.step (miOk_only ..); exact .of (by decide +kernel))
    | (with_reducible apply Only.step (mgLogackWriteEff_only ..); exact .of (by decide +kernel))
    | with_reducible apply_assumption -exfalso -symm
    | split
    | dsimp only

end Sys2Proof.Machine
end

