-- ==== Sys2Proof/Laws/FrameFaultInj.lean ====
section
/-! SUPPORT. What each operation of Machine/FaultInj.lean may change, as `Only` states it: one lemma an operation, which later proofs cite
instead of unfolding it. -/
namespace Sys2Proof.Machine
set_option Elab.async false
set_option linter.all false

/-- What `nextOut` may change. -/
theorem nextOut_only (r : Nat) (s : State) :
    Only [.prov] s (nextOut r s) := by
  unfold nextOut
  repeat' first
    | intro _
    | with_reducible assumption
    | with_reducible exact Only.refl _ _
    | (with_reducible apply Only.step (unitOut_only ..); exact .of (by decide +kernel))
    | with_reducible apply_assumption -exfalso -symm
    | split
    | dsimp only

/-- What `coreFault` may change. -/
theorem coreFault_only (s : State) :
    Only (List.append [.out, .gen, .he, .ctl, .sh, .fs, .mx, .ns, .mm, .bp, .gf, .tw, .dg,
    .mg, .fi, .nand, .ff, .prov, .reg Reg.HE_WINLOG.COUNT, .reg Reg.HE_WINLOG.CAUSE, .reg Reg.HE_WINLOG.PORT,
    .reg Reg.HE_WINLOGLO.OFFSET, .reg Reg.HE_WINLOGHI.OFFSET, .reg Reg.HE_WINLOGHI.RID, .reg Reg.QE_CQFULL.COUNT,
    .reg Reg.MX_ERR.CEILHOLD, .reg Reg.BP_ERRBUF.INDEX, .reg Reg.BP_ERRBUF.OWNER, .reg Reg.BP_ERRBUF.CAUSE,
    .reg Reg.BP_ERR.REVOKE] [.reg Reg.GF_XFER.FAILED, .reg Reg.GF_ERR.XFERFAIL, .reg Reg.MG_LOGSTAT.DROPPED,
    .reg Reg.MG_ERR.LOGDROP, .reg Reg.FI_ARM.ARMED, .reg Reg.FI_ARM.DCAUSE, .reg Reg.FI_GF.EN, .reg Reg.FI_FL.EN,
    .reg Reg.FI_PCIE.EN, .reg Reg.FI_CNT.INJECTED, .reg Reg.FI_ERR.REALFAULT]) s (coreFault s) := by
  unfold coreFault
  repeat' first
    | intro _
    | with_reducible assumption
    | with_reducible exact Only.refl _ _
    | (extract_lets +onlyGivenNames x; refine Only.cut x ?_ (fun _ => ?_); unfold x; clear x; rotate_left; clear_value x)
    | (extract_lets +onlyGivenNames x; refine Only.cut2 x ?_ (fun _ => ?_); unfold x; clear x; rotate_left; clear_value x)
    | (extract_lets +onlyGivenNames x; clear_value x)
    | with_reducible apply Only.ite
    | fail_if_no_progress (with_reducible apply Only.upd_mg; decide +kernel)
    | (with_reducible apply Only.step (nextOut_only ..); exact .of (by decide +kernel))
    | (with_reducible apply Only.step (spareIn_only ..); exact .of (by decide +kernel))
    | (with_reducible apply Only.step (spareExhausted_only ..); exact .of (by decide +kernel))
    | with_reducible apply_assumption -exfalso -symm
    | split
    | dsimp only

/-- What `engineFault` may change. -/
theorem engineFault_only (s : State) :
    Only [.out, .he, .ctl, .fs, .mg, .fi, .prov, .reg Reg.QE_CQFULL.COUNT,
    .reg Reg.MG_LOGSTAT.DROPPED, .reg Reg.MG_ERR.LOGDROP, .reg Reg.FI_ARM.ARMED, .reg Reg.FI_ARM.DCAUSE, .reg Reg.FI_GF.EN,
    .reg Reg.FI_FL.EN, .reg Reg.FI_PCIE.EN, .reg Reg.FI_ERR.REALFAULT] s (engineFault s) := by
  unfold engineFault
  repeat' first
    | intro _
    | with_reducible assumption
    | with_reducible exact Only.refl _ _
    | (extract_lets +onlyGivenNames x; refine Only.cut x ?_ (fun _ => ?_); unfold x; clear x; rotate_left; clear_value x)
    | (extract_lets +onlyGivenNames x; refine Only.cut2 x ?_ (fun _ => ?_); unfold x; clear x; rotate_left; clear_value x)
    | (extract_lets +onlyGivenNames x; clear_value x)
    | with_reducible apply Only.ite
    | fail_if_no_progress (with_reducible apply Only.upd_mg; decide +kernel)
    | (with_reducible apply Only.step (nextOut_only ..); exact .of (by decide +kernel))
    | (with_reducible apply Only.step (spareIn_only ..); exact .of (by decide +kernel))
    | with_reducible apply_assumption -exfalso -symm
    | split
    | dsimp only

/-- What `laneFault` may change. -/
theorem laneFault_only (ctx : Option Nat) (s : State) :
    Only [.out, .he, .ctl, .fs, .dg, .mg, .fi, .prov,
    .reg Reg.QE_CQFULL.COUNT, .reg Reg.MG_LOGSTAT.DROPPED, .reg Reg.MG_ERR.LOGDROP, .reg Reg.FI_ARM.ARMED,
    .reg Reg.FI_ARM.DCAUSE, .reg Reg.FI_GF.EN, .reg Reg.FI_FL.EN, .reg Reg.FI_PCIE.EN,
    .reg Reg.FI_ERR.REALFAULT] s (laneFault ctx s) := by
  unfold laneFault
  repeat' first
    | intro _
    | with_reducible assumption
    | with_reducible exact Only.refl _ _
    | (extract_lets +onlyGivenNames x; refine Only.cut x ?_ (fun _ => ?_); unfold x; clear x; rotate_left; clear_value x)
    | (extract_lets +onlyGivenNames x; refine Only.cut2 x ?_ (fun _ => ?_); unfold x; clear x; rotate_left; clear_value x)
    | (extract_lets +onlyGivenNames x; refine Only.cutF x ?_ (fun _ => ?_); unfold x; clear x; rotate_left; clear_value x)
    | (extract_lets +onlyGivenNames x; refine Only.cutG x ?_ (fun _ => ?_); unfold x; clear x; rotate_left; clear_value x)
    | (extract_lets +onlyGivenNames x; refine Only.cutG2 x ?_ (fun _ => ?_); unfold x; clear x; rotate_left; clear_value x)
    | (extract_lets +onlyGivenNames x; refine Only.cutG3 x ?_ (fun _ => ?_); unfold x; clear x; rotate_left; clear_value x)
    | (extract_lets +onlyGivenNames x; refine Only.cutH x ?_ (fun _ => ?_); unfold x; clear x; rotate_left; clear_value x)
    | (extract_lets +onlyGivenNames x; clear_value x)
    | with_reducible apply Only.ite
    | fail_if_no_progress (with_reducible apply Only.upd_dg; decide +kernel)
    | (with_reducible apply Only.step (nextOut_only ..); exact .of (by decide +kernel))
    | (with_reducible apply Only.step (spareIn_only ..); exact .of (by decide +kernel))
    | (with_reducible apply Only.step (updCtx_only ..); exact .of (by decide +kernel))
    | with_reducible apply_assumption -exfalso -symm
    | split
    | dsimp only

/-- What `compressFault` may change. -/
theorem compressFault_only (s : State) :
    Only [.out, .he, .ctl, .fs, .mg, .fi, .prov, .reg Reg.QE_CQFULL.COUNT,
    .reg Reg.MG_LOGSTAT.DROPPED, .reg Reg.MG_ERR.LOGDROP, .reg Reg.FI_ARM.ARMED, .reg Reg.FI_ARM.DCAUSE, .reg Reg.FI_GF.EN,
    .reg Reg.FI_FL.EN, .reg Reg.FI_PCIE.EN, .reg Reg.FI_ERR.REALFAULT] s (compressFault s) := by
  unfold compressFault
  repeat' first
    | intro _
    | with_reducible assumption
    | with_reducible exact Only.refl _ _
    | (extract_lets +onlyGivenNames x; refine Only.cut x ?_ (fun _ => ?_); unfold x; clear x; rotate_left; clear_value x)
    | (extract_lets +onlyGivenNames x; refine Only.cut2 x ?_ (fun _ => ?_); unfold x; clear x; rotate_left; clear_value x)
    | (extract_lets +onlyGivenNames x; clear_value x)
    | with_reducible apply Only.ite
    | fail_if_no_progress (with_reducible apply Only.upd_mg; decide +kernel)
    | (with_reducible apply Only.step (nextOut_only ..); exact .of (by decide +kernel))
    | (with_reducible apply Only.step (spareIn_only ..); exact .of (by decide +kernel))
    | with_reducible apply_assumption -exfalso -symm
    | split
    | dsimp only

/-- What `decompressFault` may change. -/
theorem decompressFault_only (s : State) :
    Only [.mg, .prov] s (decompressFault s) := by
  unfold decompressFault
  repeat' first
    | intro _
    | with_reducible assumption
    | with_reducible exact Only.refl _ _
    | fail_if_no_progress (with_reducible apply Only.upd_mg; decide +kernel)
    | (with_reducible apply Only.step (nextOut_only ..); exact .of (by decide +kernel))
    | with_reducible apply_assumption -exfalso -symm
    | split
    | dsimp only

/-- What `unitFaultEff` may change. -/
theorem unitFaultEff_only (unit : UnitFault) (s : State) :
    Only (List.append [.out, .gen, .he, .ctl, .sh, .cmds, .fs, .mx,
    .ns, .mm, .bp, .me, .gf, .tw, .dg, .mg, .fi, .nand, .ff, .prov, .reg Reg.GEN_DRAIN.ACTIVE, .reg Reg.HE_WINLOG.COUNT,
    .reg Reg.HE_WINLOG.CAUSE, .reg Reg.HE_WINLOG.PORT, .reg Reg.HE_WINLOGLO.OFFSET, .reg Reg.HE_WINLOGHI.OFFSET,
    .reg Reg.HE_WINLOGHI.RID, .reg Reg.QE_CQFULL.COUNT, .reg Reg.MX_ERR.CEILHOLD,
    .reg Reg.BP_ERRBUF.INDEX] [.reg Reg.BP_ERRBUF.OWNER, .reg Reg.BP_ERRBUF.CAUSE, .reg Reg.BP_ERR.REVOKE,
    .reg Reg.ME_ERR.REPAIRFULL, .reg Reg.GF_XFER.FAILED, .reg Reg.GF_ERR.XFERFAIL, .reg Reg.MG_LOGSTAT.DROPPED,
    .reg Reg.MG_ERR.LOGDROP, .reg Reg.FI_ARM.ARMED, .reg Reg.FI_ARM.DCAUSE, .reg Reg.FI_GF.EN, .reg Reg.FI_FL.EN,
    .reg Reg.FI_PCIE.EN, .reg Reg.FI_CNT.INJECTED, .reg Reg.FI_ERR.REALFAULT]) s (unitFaultEff unit s) := by
  unfold unitFaultEff
  repeat' first
    | intro _
    | with_reducible assumption
    | with_reducible exact Only.refl _ _
    | with_reducible apply Only.ite
    | (with_reducible apply Only.step (coreFault_only ..); exact .of (by decide +kernel))
    | (with_reducible apply Only.step (engineFault_only ..); exact .of (by decide +kernel))
    | (with_reducible apply Only.step (laneFault_only ..); exact .of (by decide +kernel))
    | (with_reducible apply Only.step (compressFault_only ..); exact .of (by decide +kernel))
    | (with_reducible apply Only.step (decompressFault_only ..); exact .of (by decide +kernel))
    | (with_reducible apply Only.step (repairRow_only ..); exact .of (by decide +kernel))
    | with_reducible apply_assumption -exfalso -symm
    | split
    | dsimp only

/-- What `execPolicyCoreFault` may change. -/
theorem execPolicyCoreFault_only (unit : UnitFault) (s : State) :
    ∃ t,
    execPolicyCoreFault unit s = .next t ∧ Only (List.append [.out, .gen, .he, .ctl, .sh, .cmds, .fs, .mx, .ns, .mm, .bp, .me,
    .gf, .tw, .dg, .mg, .fi, .nand, .ff, .prov, .reg Reg.GEN_DRAIN.ACTIVE, .reg Reg.HE_WINLOG.COUNT, .reg Reg.HE_WINLOG.CAUSE,
    .reg Reg.HE_WINLOG.PORT, .reg Reg.HE_WINLOGLO.OFFSET, .reg Reg.HE_WINLOGHI.OFFSET, .reg Reg.HE_WINLOGHI.RID,
    .reg Reg.QE_CQFULL.COUNT, .reg Reg.MX_ERR.CEILHOLD, .reg Reg.BP_ERRBUF.INDEX] [.reg Reg.BP_ERRBUF.OWNER,
    .reg Reg.BP_ERRBUF.CAUSE, .reg Reg.BP_ERR.REVOKE, .reg Reg.ME_ERR.REPAIRFULL, .reg Reg.GF_XFER.FAILED,
    .reg Reg.GF_ERR.XFERFAIL, .reg Reg.MG_LOGSTAT.DROPPED, .reg Reg.MG_ERR.LOGDROP, .reg Reg.FI_ARM.ARMED,
    .reg Reg.FI_ARM.DCAUSE, .reg Reg.FI_GF.EN, .reg Reg.FI_FL.EN, .reg Reg.FI_PCIE.EN, .reg Reg.FI_CNT.INJECTED,
    .reg Reg.FI_ERR.REALFAULT]) s t := by
  unfold execPolicyCoreFault
  refine ⟨_, rfl, ?_⟩
  repeat' first
    | intro _
    | with_reducible assumption
    | with_reducible exact Only.refl _ _
    | (with_reducible apply Only.step (unitFaultEff_only ..); exact .of (by decide +kernel))
    | with_reducible apply_assumption -exfalso -symm
    | split
    | dsimp only

/-- What `fiWrite` may change. -/
theorem fiWrite_keep {w : List Fld} {r : State} {who : Writer} {off : Nat} {body : State → State} {s : State}
    (hSub : Within [.reg Reg.GEN_ERR.OWNWR,
    .reg Reg.GEN_ERRADDR.OFFSET, .reg Reg.GEN_ERRADDR.SRC] w)
    (hBody : ∀ u,
    Only w r u → Only w r (body u)) (hOnly : Only w r s) : Only w r (fiWrite who off body s) := by
  unfold fiWrite
  repeat' first
    | intro _
    | with_reducible assumption
    | with_reducible exact Only.refl _ _
    | with_reducible apply Only.ite
    | (with_reducible apply Only.step (genErr_only ..); exact .trans (.of (by decide +kernel)) hSub)
    | with_reducible apply_assumption -exfalso -symm
    | split
    | dsimp only

/-- What `fiKeyBad` may change. -/
theorem fiKeyBad_only (s : State) :
    Only [.fi, .reg Reg.FI_ERR.KEY] s (fiKeyBad s) := by
  unfold fiKeyBad
  repeat' first
    | intro _
    | with_reducible assumption
    | with_reducible exact Only.refl _ _
    | fail_if_no_progress (with_reducible apply Only.upd_fi; decide +kernel)
    | (with_reducible apply Only.step (flagOn_only ..); exact .of (by decide +kernel))
    | with_reducible apply_assumption -exfalso -symm
    | split
    | dsimp only

/-- What `fiKeyEff` may change. -/
theorem fiKeyEff_only (key : BitVec 16) (s : State) :
    Only [.out, .he, .ctl, .fs, .mg, .fi, .reg Reg.QE_CQFULL.COUNT,
    .reg Reg.MG_LOGSTAT.DROPPED, .reg Reg.MG_ERR.LOGDROP, .reg Reg.FI_ARM.ARMED, .reg Reg.FI_ERR.KEY] s (fiKeyEff key s) := by
  unfold fiKeyEff
  repeat' first
    | intro _
    | with_reducible assumption
    | with_reducible exact Only.refl _ _
    | (extract_lets +onlyGivenNames x; refine Only.cut x ?_ (fun _ => ?_); unfold x; clear x; rotate_left; clear_value x)
    | (extract_lets +onlyGivenNames x; refine Only.cut2 x ?_ (fun _ => ?_); unfold x; clear x; rotate_left; clear_value x)
    | (extract_lets +onlyGivenNames x; clear_value x)
    | with_reducible apply Only.ite
    | fail_if_no_progress (with_reducible apply Only.upd_fi; decide +kernel)
    | (with_reducible apply Only.step (fiKeyBad_only ..); exact .of (by decide +kernel))
    | (with_reducible apply Only.step (fiArmed_only ..); exact .of (by decide +kernel))
    | with_reducible apply_assumption -exfalso -symm
    | split
    | dsimp only

/-- What `execFiArmKey` may change. -/
theorem execFiArmKey_only (who : Writer) (key : BitVec 16) (s : State) :
    ∃ t, execFiArmKey who key s = .next t ∧ Only [.out,
    .he, .ctl, .fs, .mg, .fi, .reg Reg.GEN_ERR.OWNWR, .reg Reg.GEN_ERRADDR.OFFSET, .reg Reg.GEN_ERRADDR.SRC,
    .reg Reg.QE_CQFULL.COUNT, .reg Reg.MG_LOGSTAT.DROPPED, .reg Reg.MG_ERR.LOGDROP, .reg Reg.FI_ARM.ARMED,
    .reg Reg.FI_ERR.KEY] s t := by
  unfold execFiArmKey
  refine ⟨_, rfl, ?_⟩
  repeat' first
    | intro _
    | with_reducible assumption
    | with_reducible exact Only.refl _ _
    | (with_reducible apply fiWrite_keep; exact .of (by decide +kernel))
    | (with_reducible apply Only.step (fiKeyEff_only ..); exact .of (by decide +kernel))
    | with_reducible apply_assumption -exfalso -symm
    | split
    | dsimp only

/-- What `execFiDisarm` may change. -/
theorem execFiDisarm_only (who : Writer) (s : State) :
    ∃ t, execFiDisarm who s = .next t ∧ Only [.mg, .fi,
    .reg Reg.GEN_ERR.OWNWR, .reg Reg.GEN_ERRADDR.OFFSET, .reg Reg.GEN_ERRADDR.SRC, .reg Reg.MG_LOGSTAT.DROPPED,
    .reg Reg.MG_ERR.LOGDROP, .reg Reg.FI_ARM.ARMED, .reg Reg.FI_ARM.DCAUSE, .reg Reg.FI_GF.EN, .reg Reg.FI_FL.EN,
    .reg Reg.FI_PCIE.EN] s t := by
  unfold execFiDisarm
  refine ⟨_, rfl, ?_⟩
  repeat' first
    | intro _
    | with_reducible assumption
    | with_reducible exact Only.refl _ _
    | (with_reducible apply fiWrite_keep; exact .of (by decide +kernel))
    | (with_reducible apply Only.step (fiDisarmed_only ..); exact .of (by decide +kernel))
    | with_reducible apply_assumption -exfalso -symm
    | split
    | dsimp only

/-- What `execFiArmTimeout` may change. -/
theorem execFiArmTimeout_only (s : State) :
    ∃ t, execFiArmTimeout s = .next t ∧ Only [.mg, .fi, .reg Reg.MG_LOGSTAT.DROPPED,
    .reg Reg.MG_ERR.LOGDROP, .reg Reg.FI_ARM.ARMED, .reg Reg.FI_ARM.DCAUSE, .reg Reg.FI_GF.EN, .reg Reg.FI_FL.EN,
    .reg Reg.FI_PCIE.EN] s t := by
  unfold execFiArmTimeout
  refine ⟨_, rfl, ?_⟩
  repeat' first
    | intro _
    | with_reducible assumption
    | with_reducible exact Only.refl _ _
    | with_reducible apply Only.ite
    | (with_reducible apply Only.step (fiDisarmed_only ..); exact .of (by decide +kernel))
    | with_reducible apply_assumption -exfalso -symm
    | split
    | dsimp only

/-- What `execFiKeySequenceTimeout` may change. -/
theorem execFiKeySequenceTimeout_only (s : State) :
    ∃ t, execFiKeySequenceTimeout s = .next t ∧ Only [.fi] s t := by
  unfold execFiKeySequenceTimeout
  refine ⟨_, rfl, ?_⟩
  repeat' first
    | intro _
    | with_reducible assumption
    | with_reducible exact Only.refl _ _
    | fail_if_no_progress (with_reducible apply Only.upd_fi; decide +kernel)
    | with_reducible apply_assumption -exfalso -symm
    | split
    | dsimp only

/-- What `fiMechWrite` may change. -/
theorem fiMechWrite_only (who : Writer) (en : Field) (mech : Nat) (limit : Bool) (value : Nat) (s : State) :
    Only (.win en.reg (en.reg + 4) :: .reg en :: [.fs, .bp, .fi, .reg Reg.GEN_ERR.LOCKWR, .reg Reg.GEN_ERR.OWNWR, .reg Reg.GEN_ERR.RANGE, .reg Reg.GEN_ERRADDR.OFFSET,
    .reg Reg.GEN_ERRADDR.SRC, .reg Reg.FI_ERR.NOTARMED]) s (fiMechWrite who en mech limit value s) := by
  unfold fiMechWrite
  refine fiWrite_keep (.ofAll (by simp [covered, Fld.covers])) (fun u hu => ?_) (Only.refl _ _)
  dsimp only
  split
  · exact Only.step (flagOn_only ..) (.single (by simp [covered, Fld.covers])) hu
  split
  · exact Only.step (genErr_only ..) (.ofAll (by simp [covered, Fld.covers])) hu
  have k : ∀ v, Only (.win en.reg (en.reg + 4) :: .reg en :: [.fs, .bp, .fi, .reg Reg.GEN_ERR.LOCKWR, .reg Reg.GEN_ERR.OWNWR, .reg Reg.GEN_ERR.RANGE, .reg Reg.GEN_ERRADDR.OFFSET,
    .reg Reg.GEN_ERRADDR.SRC, .reg Reg.FI_ERR.NOTARMED]) s (setF en v (writeFields who en.reg value u)) := fun v =>
    Only.step (setF_only ..) (.single (by simp [covered, Fld.covers]))
      (Only.step (writeFields_win who en.reg value u) (.ofAll (by simp [covered, Fld.covers])) hu)
  with_reducible apply Only.ite
  · exact Only.upd_fi (by simp [covered, Fld.covers, Fld.code]) (k _)
  · exact k _

/-- What `execFiGfEn` may change. -/
theorem execFiGfEn_only (who : Writer) (value : Word) (s : State) :
    ∃ t, execFiGfEn who value s = .next t ∧ Only [.fs, .bp,
    .fi, .reg Reg.GEN_ERR.LOCKWR, .reg Reg.GEN_ERR.OWNWR, .reg Reg.GEN_ERR.RANGE, .reg Reg.GEN_ERRADDR.OFFSET,
    .reg Reg.GEN_ERRADDR.SRC, .win 0xf8008 0xf800c, .reg Reg.FI_ERR.NOTARMED] s t := by
  unfold execFiGfEn
  refine ⟨_, rfl, ?_⟩
  repeat' first
    | intro _
    | with_reducible assumption
    | with_reducible exact Only.refl _ _
    | (with_reducible apply Only.step (fiMechWrite_only ..); exact .of (by decide +kernel))
    | (with_reducible apply Only.step (fiMechWrite_only ..); exact .ofAll (by decide +kernel))
    | with_reducible apply_assumption -exfalso -symm
    | split
    | dsimp only

/-- What `execFiFlEn` may change. -/
theorem execFiFlEn_only (who : Writer) (value : Word) (s : State) :
    ∃ t, execFiFlEn who value s = .next t ∧ Only [.fs, .bp,
    .fi, .reg Reg.GEN_ERR.LOCKWR, .reg Reg.GEN_ERR.OWNWR, .reg Reg.GEN_ERR.RANGE, .reg Reg.GEN_ERRADDR.OFFSET,
    .reg Reg.GEN_ERRADDR.SRC, .win 0xf800c 0xf8010, .reg Reg.FI_ERR.NOTARMED] s t := by
  unfold execFiFlEn
  refine ⟨_, rfl, ?_⟩
  repeat' first
    | intro _
    | with_reducible assumption
    | with_reducible exact Only.refl _ _
    | (with_reducible apply Only.step (fiMechWrite_only ..); exact .of (by decide +kernel))
    | (with_reducible apply Only.step (fiMechWrite_only ..); exact .ofAll (by decide +kernel))
    | with_reducible apply_assumption -exfalso -symm
    | split
    | dsimp only

/-- What `execFiPcieEn` may change. -/
theorem execFiPcieEn_only (who : Writer) (value : Word) (s : State) :
    ∃ t, execFiPcieEn who value s = .next t ∧ Only [.fs,
    .bp, .fi, .reg Reg.GEN_ERR.LOCKWR, .reg Reg.GEN_ERR.OWNWR, .reg Reg.GEN_ERR.RANGE, .reg Reg.GEN_ERRADDR.OFFSET,
    .reg Reg.GEN_ERRADDR.SRC, .win 0xf8010 0xf8014, .reg Reg.FI_ERR.NOTARMED] s t := by
  unfold execFiPcieEn
  refine ⟨_, rfl, ?_⟩
  repeat' first
    | intro _
    | with_reducible assumption
    | with_reducible exact Only.refl _ _
    | (with_reducible apply Only.step (fiMechWrite_only ..); exact .of (by decide +kernel))
    | (with_reducible apply Only.step (fiMechWrite_only ..); exact .ofAll (by decide +kernel))
    | with_reducible apply_assumption -exfalso -symm
    | split
    | dsimp only

end Sys2Proof.Machine
end

