-- ==== Sys2Proof/Laws/FrameRegRead.lean ====
section
/-! SUPPORT. What each operation of Machine/RegRead.lean may change, as `Only` states it: one lemma an operation, which later proofs cite
instead of unfolding it. -/
namespace Sys2Proof.Machine
set_option Elab.async false
set_option linter.all false

/-- What `latch` may change. -/
theorem latch_only (off : Nat) (s : State) :
    Only [.reg Reg.MX_CSNHI.CSN, .reg Reg.MX_CEILHI.CEIL, .reg Reg.MX_JSEQHI.SEQ,
    .reg Reg.SP_SJSEQHI.SEQ, .reg Reg.ME_LASTHI.ADDR, .reg Reg.TW_ACKHI.CSN] s (latch off s) := by
  unfold latch
  repeat' first
    | intro _
    | with_reducible assumption
    | with_reducible exact Only.refl _ _
    | with_reducible apply Only.ite
    | (with_reducible apply Only.step (setF_only ..); exact .of (by decide +kernel))
    | with_reducible apply_assumption -exfalso -symm
    | split
    | dsimp only

/-- What `readAt` may change. -/
theorem readAt_only (offset : Nat) (s : State) :
    Only [.out, .reg Reg.MX_CSNHI.CSN, .reg Reg.MX_CEILHI.CEIL,
    .reg Reg.MX_JSEQHI.SEQ, .reg Reg.SP_SJSEQHI.SEQ, .reg Reg.ME_LASTHI.ADDR, .reg Reg.TW_ACKHI.CSN] s (readAt offset s) := by
  unfold readAt
  repeat' first
    | intro _
    | with_reducible assumption
    | with_reducible exact Only.refl _ _
    | (extract_lets +onlyGivenNames x; refine Only.cut x ?_ (fun _ => ?_); unfold x; clear x; rotate_left; clear_value x)
    | (extract_lets +onlyGivenNames x; refine Only.cut2 x ?_ (fun _ => ?_); unfold x; clear x; rotate_left; clear_value x)
    | (extract_lets +onlyGivenNames x; clear_value x)
    | (with_reducible apply Only.step (emit_only ..); exact .of (by decide +kernel))
    | (with_reducible apply Only.step (latch_only ..); exact .of (by decide +kernel))
    | with_reducible apply_assumption -exfalso -symm
    | split
    | dsimp only

/-- What `readDevice` may change. -/
theorem readDevice_only (addr : Nat) (s : State) :
    Only [.out, .reg Reg.MX_CSNHI.CSN, .reg Reg.MX_CEILHI.CEIL,
    .reg Reg.MX_JSEQHI.SEQ, .reg Reg.SP_SJSEQHI.SEQ, .reg Reg.ME_LASTHI.ADDR, .reg Reg.TW_ACKHI.CSN] s (readDevice addr s) := by
  unfold readDevice
  repeat' first
    | intro _
    | with_reducible assumption
    | with_reducible exact Only.refl _ _
    | with_reducible apply Only.ite
    | (with_reducible apply Only.step (readAt_only ..); exact .of (by decide +kernel))
    | (with_reducible apply Only.step (emit_only ..); exact .of (by decide +kernel))
    | with_reducible apply_assumption -exfalso -symm
    | split
    | dsimp only

/-- What `registerReadEff` may change. -/
theorem registerReadEff_only (who : Writer) (offset : Nat) (s : State) :
    Only [.out, .he, .reg Reg.MX_CSNHI.CSN,
    .reg Reg.MX_CEILHI.CEIL, .reg Reg.MX_JSEQHI.SEQ, .reg Reg.SP_SJSEQHI.SEQ, .reg Reg.ME_LASTHI.ADDR,
    .reg Reg.TW_ACKHI.CSN] s (registerReadEff who offset s) := by
  unfold registerReadEff
  repeat' first
    | intro _
    | with_reducible assumption
    | with_reducible exact Only.refl _ _
    | with_reducible apply Only.ite
    | (with_reducible apply Only.step (urCpl_only ..); exact .of (by decide +kernel))
    | (with_reducible apply Only.step (readDevice_only ..); exact .of (by decide +kernel))
    | (with_reducible apply Only.step (readAt_only ..); exact .of (by decide +kernel))
    | with_reducible apply_assumption -exfalso -symm
    | split
    | dsimp only

/-- What `execLatchingRead` may change. -/
theorem execLatchingRead_only (who : Writer) (offset : Nat) (s : State) :
    ∃ t,
    execLatchingRead who offset s = .next t ∧ Only [.out, .he, .reg Reg.MX_CSNHI.CSN, .reg Reg.MX_CEILHI.CEIL,
    .reg Reg.MX_JSEQHI.SEQ, .reg Reg.SP_SJSEQHI.SEQ, .reg Reg.ME_LASTHI.ADDR, .reg Reg.TW_ACKHI.CSN] s t := by
  unfold execLatchingRead
  refine ⟨_, rfl, ?_⟩
  repeat' first
    | intro _
    | with_reducible assumption
    | with_reducible exact Only.refl _ _
    | (with_reducible apply Only.step (registerReadEff_only ..); exact .of (by decide +kernel))
    | with_reducible apply_assumption -exfalso -symm
    | split
    | dsimp only

/-- What `execSetupRegisterRead` may change. -/
theorem execSetupRegisterRead_only (offset : Nat) (s : State) :
    ∃ t, execSetupRegisterRead offset s = .next t ∧ Only [.out,
    .reg Reg.MX_CSNHI.CSN, .reg Reg.MX_CEILHI.CEIL, .reg Reg.MX_JSEQHI.SEQ, .reg Reg.SP_SJSEQHI.SEQ, .reg Reg.ME_LASTHI.ADDR,
    .reg Reg.TW_ACKHI.CSN] s t := by
  unfold execSetupRegisterRead
  refine ⟨_, rfl, ?_⟩
  repeat' first
    | intro _
    | with_reducible assumption
    | with_reducible exact Only.refl _ _
    | (extract_lets +onlyGivenNames x; refine Only.cut x ?_ (fun _ => ?_); unfold x; clear x; rotate_left; clear_value x)
    | (extract_lets +onlyGivenNames x; refine Only.cut2 x ?_ (fun _ => ?_); unfold x; clear x; rotate_left; clear_value x)
    | (extract_lets +onlyGivenNames x; refine Only.cutF x ?_ (fun _ => ?_); unfold x; clear x; rotate_left; clear_value x)
    | (extract_lets +onlyGivenNames x; refine Only.cutG x ?_ (fun _ => ?_); unfold x; clear x; rotate_left; clear_value x)
    | (extract_lets +onlyGivenNames x; refine Only.cutG2 x ?_ (fun _ => ?_); unfold x; clear x; rotate_left; clear_value x)
    | (extract_lets +onlyGivenNames x; refine Only.cutG3 x ?_ (fun _ => ?_); unfold x; clear x; rotate_left; clear_value x)
    | (extract_lets +onlyGivenNames x; refine Only.cutH x ?_ (fun _ => ?_); unfold x; clear x; rotate_left; clear_value x)
    | (extract_lets +onlyGivenNames x; clear_value x)
    | (with_reducible apply miAnswer_keep; exact .of (by decide +kernel))
    | (with_reducible apply Only.step (miOk_only ..); exact .of (by decide +kernel))
    | (with_reducible apply Only.step (latch_only ..); exact .of (by decide +kernel))
    | with_reducible apply_assumption -exfalso -symm
    | split
    | dsimp only

end Sys2Proof.Machine
end

