-- ==== Sys2Proof/Laws/FrameSetupBus.lean ====
section
/-! SUPPORT. What each operation of Machine/SetupBus.lean may change, as `Only` states it: one lemma an operation, which later proofs cite
instead of unfolding it. -/
namespace Sys2Proof.Machine
set_option Elab.async false
set_option linter.all false

/-- What `onBit` may change. -/
theorem onBit_keep {w : List Fld} {r : State} {f : Field} {value : Nat} {act : State → State} {s : State}
    (hSub : Within [] w)
    (hBody : ∀ u,
    Only w r u → Only w r (act u)) (hOnly : Only w r s) : Only w r (onBit f value act s) := by
  unfold onBit
  repeat' first
    | intro _
    | with_reducible assumption
    | with_reducible exact Only.refl _ _
    | with_reducible apply Only.ite
    | with_reducible apply_assumption -exfalso -symm
    | split
    | dsimp only

/-- What `busModereq` may change. -/
theorem busModereq_only (who : Writer) (value : Nat) (s : State) :
    Only (List.append [.out, .gen, .he, .ctl, .cmds, .fs,
    .mx, .mm, .bp, .tw, .dg, .mg, .fi, .prov, .reg Reg.GEN_ERR.OWNWR, .reg Reg.GEN_ERR.MODEREQ, .reg Reg.GEN_ERRADDR.OFFSET,
    .reg Reg.GEN_ERRADDR.SRC, .reg Reg.GEN_DRAIN.ACTIVE, .reg Reg.QE_CQFULL.COUNT, .reg Reg.BP_ERRBUF.INDEX,
    .reg Reg.BP_ERRBUF.OWNER, .reg Reg.BP_ERRBUF.CAUSE, .reg Reg.BP_ERR.REVOKE, .reg Reg.MG_LOGSTAT.DROPPED,
    .reg Reg.MG_ERR.LOGDROP, .reg Reg.FI_ARM.ARMED, .reg Reg.FI_ARM.DCAUSE, .reg Reg.FI_GF.EN,
    .reg Reg.FI_FL.EN] [.reg Reg.FI_PCIE.EN]) s (busModereq who value s) := by
  unfold busModereq
  repeat' first
    | intro _
    | with_reducible assumption
    | with_reducible exact Only.refl _ _
    | (extract_lets +onlyGivenNames x; refine Only.cut x ?_ (fun _ => ?_); unfold x; clear x; rotate_left; clear_value x)
    | (extract_lets +onlyGivenNames x; refine Only.cut2 x ?_ (fun _ => ?_); unfold x; clear x; rotate_left; clear_value x)
    | (extract_lets +onlyGivenNames x; refine Only.cutF x ?_ (fun _ => ?_); unfold x; clear x; rotate_left; clear_value x)
    | (extract_lets +onlyGivenNames x; refine Only.cutG x ?_ (fun _ => ?_); unfold x; clear x; rotate_left; clear_value x)
    | (extract_lets +onlyGivenNames x; refine Only.cutG2 x ?_ (fun _ => ?_); unfold x; clear x; rotate_left; clear_value x)
    | (extract_lets +onlyGivenNames x; refine Only.cutG3 x ?_ (fun _ => ?_); unfold x; clear x; rotate_left; clear_value x)
    | (extract_lets +onlyGivenNames x; refine Only.cutH x ?_ (fun _ => ?_); unfold x; clear x; rotate_left; clear_value x)
    | (extract_lets +onlyGivenNames x; clear_value x)
    | with_reducible apply Only.ite
    | fail_if_no_progress (with_reducible apply Only.upd_gen; decide +kernel)
    | (with_reducible apply twoStep_keep; exact .of (by decide +kernel))
    | (with_reducible apply oneStep_keep; exact .of (by decide +kernel))
    | (with_reducible apply Only.step (enterModeEv_only ..); exact .of (by decide +kernel))
    | (with_reducible apply Only.step (quarantineNow_only ..); exact .of (by decide +kernel))
    | (with_reducible apply Only.step (modereqRefused_only ..); exact .of (by decide +kernel))
    | (with_reducible apply Only.step (genErr_only ..); exact .of (by decide +kernel))
    | with_reducible apply_assumption -exfalso -symm
    | split
    | dsimp only

/-- What `busOwner` may change. -/
theorem busOwner_only (who : Writer) (value : Nat) (s : State) :
    Only [.out, .gen, .he, .ctl, .fs,
    .reg Reg.GEN_OWNER.SEIZED, .reg Reg.GEN_ERR.OWNWR, .reg Reg.GEN_ERRADDR.OFFSET, .reg Reg.GEN_ERRADDR.SRC,
    .reg Reg.QE_CQFULL.COUNT] s (busOwner who value s) := by
  unfold busOwner
  repeat' first
    | intro _
    | with_reducible assumption
    | with_reducible exact Only.refl _ _
    | (with_reducible apply onBit_keep; exact .of (by decide +kernel))
    | (with_reducible apply Only.step (genOwnerSeizedClearEff_only ..); exact .of (by decide +kernel))
    | (with_reducible apply Only.step (genOwnerSeizeEff_only ..); exact .of (by decide +kernel))
    | (with_reducible apply Only.step (genOwnerReleaseEff_only ..); exact .of (by decide +kernel))
    | (with_reducible apply Only.step (genOwnerClaimEff_only ..); exact .of (by decide +kernel))
    | with_reducible apply_assumption -exfalso -symm
    | split
    | dsimp only

/-- What `busReset` may change. -/
theorem busReset_only (who : Writer) (value : Nat) (s : State) :
    Only [.freeCtr, .out, .eff, .gen, .he, .ctl, .sh,
    .defFaults, .lost, .cmds, .nextCmd, .fs, .mx, .ns, .nsWait, .mm, .sp, .cs, .bp, .me, .gf, .tw, .dg, .mg, .fi, .nand, .ff,
    .prov, .win 0x80000 0x100000, .win 0x88000 0xF0000] s (busReset who value s) := by
  unfold busReset
  repeat' first
    | intro _
    | with_reducible assumption
    | with_reducible exact Only.refl _ _
    | (extract_lets +onlyGivenNames x; refine Only.cut x ?_ (fun _ => ?_); unfold x; clear x; rotate_left; clear_value x)
    | (extract_lets +onlyGivenNames x; refine Only.cut2 x ?_ (fun _ => ?_); unfold x; clear x; rotate_left; clear_value x)
    | (extract_lets +onlyGivenNames x; clear_value x)
    | (with_reducible apply Only.step (genResetY9Eff_only ..); exact .of (by decide +kernel))
    | (with_reducible apply Only.step (genResetManagementEff_only ..); exact .of (by decide +kernel))
    | with_reducible apply_assumption -exfalso -symm
    | split
    | dsimp only

/-- What `busWincommit` may change. -/
theorem busWincommit_only (who : Writer) (value : Nat) (s : State) :
    Only [.he, .reg Reg.GEN_ERR.OWNWR,
    .reg Reg.GEN_ERRADDR.OFFSET, .reg Reg.GEN_ERRADDR.SRC, .reg Reg.HE_WINSTAT.A_BAD, .reg Reg.HE_WINSTAT.A_BUSYWR,
    .reg Reg.HE_WINSTAT.B_BAD, .reg Reg.HE_WINSTAT.B_BUSYWR, .reg Reg.HE_WINBAD.IDX, .reg Reg.HE_WINBAD.CAUSE,
    .reg Reg.HE_WINBAD.PORT] s (busWincommit who value s) := by
  unfold busWincommit
  repeat' first
    | intro _
    | with_reducible assumption
    | with_reducible exact Only.refl _ _
    | (extract_lets +onlyGivenNames x; refine Only.cut x ?_ (fun _ => ?_); unfold x; clear x; rotate_left; clear_value x)
    | (extract_lets +onlyGivenNames x; refine Only.cut2 x ?_ (fun _ => ?_); unfold x; clear x; rotate_left; clear_value x)
    | (extract_lets +onlyGivenNames x; clear_value x)
    | (with_reducible apply onBit_keep; exact .of (by decide +kernel))
    | (with_reducible apply Only.step (wincommitEff_only ..); exact .of (by decide +kernel))
    | with_reducible apply_assumption -exfalso -symm
    | split
    | dsimp only

/-- What `busFfCmd` may change. -/
theorem busFfCmd_only (who : Writer) (value : Nat) (s : State) :
    Only [.freeCtr, .ff, .reg Reg.GEN_ERR.OWNWR,
    .reg Reg.GEN_ERRADDR.OFFSET, .reg Reg.GEN_ERRADDR.SRC, .reg Reg.FF_DATALO.DATA, .reg Reg.FF_DATAHI.DATA,
    .reg Reg.FF_STATUS.BUSY, .reg Reg.FF_STATUS.NOTERASED, .reg Reg.FF_STATUS.PROTECT,
    .reg Reg.FF_STATUS.RANGE] s (busFfCmd who value s) := by
  unfold busFfCmd
  repeat' first
    | intro _
    | with_reducible assumption
    | with_reducible exact Only.refl _ _
    | (with_reducible apply Only.step (flagOn_only ..); exact .of (by decide +kernel))
    | (with_reducible apply Only.step (ffReadEff_only ..); exact .of (by decide +kernel))
    | (with_reducible apply Only.step (ffProgramEff_only ..); exact .of (by decide +kernel))
    | (with_reducible apply Only.step (ffEraseEff_only ..); exact .of (by decide +kernel))
    | (with_reducible apply Only.step (ffReadhdrEff_only ..); exact .of (by decide +kernel))
    | (with_reducible apply ffCommand_keep; exact .of (by decide +kernel))
    | with_reducible apply_assumption -exfalso -symm
    | split
    | dsimp only

/-- What `busFiArm` may change. -/
theorem busFiArm_only (who : Writer) (value : Nat) (s : State) :
    Only [.out, .he, .ctl, .fs, .mg, .fi,
    .reg Reg.GEN_ERR.OWNWR, .reg Reg.GEN_ERRADDR.OFFSET, .reg Reg.GEN_ERRADDR.SRC, .reg Reg.QE_CQFULL.COUNT,
    .reg Reg.MG_LOGSTAT.DROPPED, .reg Reg.MG_ERR.LOGDROP, .reg Reg.FI_ARM.ARMED, .reg Reg.FI_ARM.DCAUSE, .reg Reg.FI_GF.EN,
    .reg Reg.FI_FL.EN, .reg Reg.FI_PCIE.EN, .reg Reg.FI_ERR.KEY] s (busFiArm who value s) := by
  unfold busFiArm
  repeat' first
    | intro _
    | with_reducible assumption
    | with_reducible exact Only.refl _ _
    | (with_reducible apply fiWrite_keep; exact .of (by decide +kernel))
    | (with_reducible apply Only.step (fiKeyEff_only ..); exact .of (by decide +kernel))
    | (with_reducible apply onBit_keep; exact .of (by decide +kernel))
    | (with_reducible apply Only.step (fiDisarmed_only ..); exact .of (by decide +kernel))
    | with_reducible apply_assumption -exfalso -symm
    | split
    | dsimp only

/-- What `busKick` may change. -/
theorem busKick_only (who : Writer) (s : State) :
    Only [.mg] s (busKick who s) := by
  unfold busKick
  repeat' first
    | intro _
    | with_reducible assumption
    | with_reducible exact Only.refl _ _
    | with_reducible apply Only.ite
    | fail_if_no_progress (with_reducible apply Only.upd_mg; decide +kernel)
    | with_reducible apply_assumption -exfalso -symm
    | split
    | dsimp only

/-- What `busAction` may change. -/
theorem busAction_only (who : Writer) (off value : Nat) (s : State) :
    Only (List.append [.freeCtr, .out, .eff, .gen, .he,
    .ctl, .sh, .defFaults, .lost, .cmds, .nextCmd, .fs, .mx, .ns, .nsWait, .mm, .sp, .cs, .bp, .me, .gf, .tw, .dg, .mg, .fi,
    .nand, .ff, .prov, .fuses, .win 0x80000 0x100000] [.win 0x88000 0xF0000]) s (busAction who off value s) := by
  unfold busAction
  repeat' first
    | intro _
    | with_reducible assumption
    | with_reducible exact Only.refl _ _
    | with_reducible apply Only.ite
    | (with_reducible apply Only.step (busModereq_only ..); exact .of (by decide +kernel))
    | (with_reducible apply Only.step (busReset_only ..); exact .of (by decide +kernel))
    | (with_reducible apply Only.step (busWincommit_only ..); exact .of (by decide +kernel))
    | (with_reducible apply onBit_keep; exact .of (by decide +kernel))
    | (with_reducible apply Only.step (winlogClrEff_only ..); exact .of (by decide +kernel))
    | (with_reducible apply Only.step (spDieoutWriteEff_only ..); exact .of (by decide +kernel))
    | (with_reducible apply Only.step (spSubselWriteEff_only ..); exact .of (by decide +kernel))
    | (with_reducible apply Only.step (ecMaxcorrClrEff_only ..); exact .of (by decide +kernel))
    | (with_reducible apply Only.step (gfNodeReassignEff_only ..); exact .of (by decide +kernel))
    | (with_reducible apply Only.step (auditStartEff_only ..); exact .of (by decide +kernel))
    | (with_reducible apply Only.step (dgSecAdvanceEff_only ..); exact .of (by decide +kernel))
    | (with_reducible apply Only.step (busKick_only ..); exact .of (by decide +kernel))
    | (with_reducible apply Only.step (mgLogackWriteEff_only ..); exact .of (by decide +kernel))
    | (with_reducible apply Only.step (busFfCmd_only ..); exact .of (by decide +kernel))
    | with_reducible apply_assumption -exfalso -symm
    | split
    | dsimp only

/-- What `busWrite` may change. -/
theorem busWrite_only (who : Writer) (off value : Nat) (s : State) :
    Only [.freeCtr, .out, .eff, .gen, .he, .ctl, .sh,
    .defFaults, .lost, .cmds, .nextCmd, .fs, .mx, .ns, .nsWait, .mm, .sp, .cs, .bp, .me, .gf, .tw, .dg, .mg, .fi, .nand, .ff,
    .prov, .fuses, .regs] s (busWrite who off value s) := by
  unfold busWrite
  repeat' first
    | intro _
    | with_reducible assumption
    | with_reducible exact Only.refl _ _
    | with_reducible apply Only.ite
    | (with_reducible apply Only.step (busOwner_only ..); exact .of (by decide +kernel))
    | (with_reducible apply Only.step (busFiArm_only ..); exact .of (by decide +kernel))
    | (with_reducible apply Only.step (fiMechWrite_only ..); exact .of (by decide +kernel))
    | (with_reducible apply Only.step (busAction_only ..); exact .of (by decide +kernel))
    | (with_reducible apply Only.step (writeReg_only ..); exact .of (by decide +kernel))
    | (with_reducible apply Only.step (fiMechWrite_only ..); exact .ofAll (by decide +kernel))
    | with_reducible apply_assumption -exfalso -symm
    | split
    | dsimp only

/-- What `writeAt` may change. -/
theorem writeAt_only (who : Writer) (offset : Nat) (value : Word) (poisoned : Bool) (s : State) :
    Only [.freeCtr, .out,
    .eff, .gen, .he, .ctl, .sh, .defFaults, .lost, .cmds, .nextCmd, .fs, .mx, .ns, .nsWait, .mm, .sp, .cs, .bp, .me, .gf, .tw,
    .dg, .mg, .fi, .nand, .ff, .prov, .fuses, .regs] s (writeAt who offset value poisoned s) := by
  unfold writeAt
  repeat' first
    | intro _
    | with_reducible assumption
    | with_reducible exact Only.refl _ _
    | (extract_lets +onlyGivenNames x; refine Only.cut x ?_ (fun _ => ?_); unfold x; clear x; rotate_left; clear_value x)
    | (extract_lets +onlyGivenNames x; refine Only.cut2 x ?_ (fun _ => ?_); unfold x; clear x; rotate_left; clear_value x)
    | (extract_lets +onlyGivenNames x; clear_value x)
    | with_reducible apply Only.ite
    | (with_reducible apply Only.step (poisonRx_only ..); exact .of (by decide +kernel))
    | (with_reducible apply Only.step (writeMsix_only ..); exact .of (by decide +kernel))
    | (with_reducible apply Only.step (busWrite_only ..); exact .of (by decide +kernel))
    | with_reducible apply_assumption -exfalso -symm
    | split
    | dsimp only

/-- What `writeDevice` may change. -/
theorem writeDevice_only (addr : Nat) (value : Word) (s : State) :
    Only [.freeCtr, .out, .eff, .gen, .he, .ctl, .sh,
    .defFaults, .lost, .cmds, .nextCmd, .fs, .mx, .ns, .nsWait, .mm, .sp, .cs, .bp, .me, .gf, .tw, .dg, .mg, .fi, .nand, .ff,
    .prov, .fuses, .regs] s (writeDevice addr value s) := by
  unfold writeDevice
  repeat' first
    | intro _
    | with_reducible assumption
    | with_reducible exact Only.refl _ _
    | with_reducible apply Only.ite
    | (with_reducible apply Only.step (writeAt_only ..); exact .of (by decide +kernel))
    | (with_reducible apply Only.step (emit_only ..); exact .of (by decide +kernel))
    | with_reducible apply_assumption -exfalso -symm
    | split
    | dsimp only

/-- What `registerWriteEff` may change. -/
theorem registerWriteEff_only (who : Writer) (offset : Nat) (value : Word) (poisoned : Bool) (s : State) :
    Only [.freeCtr,
    .out, .eff, .gen, .he, .ctl, .sh, .defFaults, .lost, .cmds, .nextCmd, .fs, .mx, .ns, .nsWait, .mm, .sp, .cs, .bp, .me, .gf,
    .tw, .dg, .mg, .fi, .nand, .ff, .prov, .fuses, .regs] s (registerWriteEff who offset value poisoned s) := by
  unfold registerWriteEff
  repeat' first
    | intro _
    | with_reducible assumption
    | with_reducible exact Only.refl _ _
    | with_reducible apply Only.ite
    | (with_reducible apply Only.step (writeDevice_only ..); exact .of (by decide +kernel))
    | (with_reducible apply Only.step (writeAt_only ..); exact .of (by decide +kernel))
    | with_reducible apply_assumption -exfalso -symm
    | split
    | dsimp only

/-- What `execRegisterWrite` may change. -/
theorem execRegisterWrite_only (who : Writer) (offset : Nat) (value : Word) (poisoned : Bool) (s : State) :
    ∃ t,
    execRegisterWrite who offset value poisoned s = .next t ∧ Only [.freeCtr, .out, .eff, .gen, .he, .ctl, .sh, .defFaults,
    .lost, .cmds, .nextCmd, .fs, .mx, .ns, .nsWait, .mm, .sp, .cs, .bp, .me, .gf, .tw, .dg, .mg, .fi, .nand, .ff, .prov, .fuses,
    .regs] s t := by
  unfold execRegisterWrite
  refine ⟨_, rfl, ?_⟩
  repeat' first
    | intro _
    | with_reducible assumption
    | with_reducible exact Only.refl _ _
    | (with_reducible apply Only.step (registerWriteEff_only ..); exact .of (by decide +kernel))
    | with_reducible apply_assumption -exfalso -symm
    | split
    | dsimp only

/-- What `execSetupRegisterWrite` may change. -/
theorem execSetupRegisterWrite_only (offset : Nat) (value : Word) (s : State) :
    ∃ t,
    execSetupRegisterWrite offset value s = .next t ∧ Only [.freeCtr, .out, .eff, .gen, .he, .ctl, .sh, .defFaults, .lost,
    .cmds, .nextCmd, .fs, .mx, .ns, .nsWait, .mm, .sp, .cs, .bp, .me, .gf, .tw, .dg, .mg, .fi, .nand, .ff, .prov, .fuses,
    .regs] s t := by
  unfold execSetupRegisterWrite
  refine ⟨_, rfl, ?_⟩
  repeat' first
    | intro _
    | with_reducible assumption
    | with_reducible exact Only.refl _ _
    | (with_reducible apply miAnswer_keep; exact .of (by decide +kernel))
    | (with_reducible apply Only.step (miOk_only ..); exact .of (by decide +kernel))
    | (with_reducible apply Only.step (registerWriteEff_only ..); exact .of (by decide +kernel))
    | with_reducible apply_assumption -exfalso -symm
    | split
    | dsimp only

end Sys2Proof.Machine
end

