-- ==== Sys2Proof/WellFormed.lean ====
section
/-! DEFINITION. When a command is well formed: its operands are values that the fields of the spec's command, frame or event can hold. Nothing a
command means depends on this check; a command with other operands is one that nobody can send. -/
namespace Sys2Proof

/-- A 16-bit value. -/
def u16 (n : Nat) : Bool := decide (n < 65536)
/-- A die slot (Table 6.1). -/
def dieOk (d : Nat) : Bool := decide (d < 2048)
/-- A multi-plane block of the reference profile (Table 7.1). -/
def blockOk (b : Nat) : Bool := decide (b < 5461)
/-- A node ID (R29). -/
def node12 (n : Nat) : Bool := decide (n < 4096)
/-- A tag of 14 bits (R74). -/
def tag14 (t : Nat) : Bool := decide (t < 16384)
/-- The length of a memory TLP or of a frame's payload. -/
def tlpLen (n : Nat) : Bool := decide (1 ≤ n ∧ n ≤ 4096)
/-- A setup register's offset in BAR0; bit 20 says which function's BAR0 the host used (R62). -/
def regOffset (o : Nat) : Bool := decide (o < 2 ^ 21 ∧ o % 4 = 0)
/-- A range of LBAs as a command's fields can give it: SLBA of 64 bits, 1 to 65,536 LBAs. -/
def lbaRange (slba nlb : Nat) : Bool := decide (slba < 2 ^ 64 ∧ 1 ≤ nlb ∧ nlb ≤ 65536)

/-- An admin command's header. -/
def AdminHdr.ok (h : AdminHdr) : Bool := decide (h.nsid < 2 ^ 32)
/-- An I/O command's header: it came from an I/O queue. -/
def IoHdr.ok (h : IoHdr) : Bool := decide (1 ≤ h.sq) && u16 h.sq && decide (h.nsid < 2 ^ 32)
/-- A frame's header (Table 12.3). -/
def FrameHdr.ok (h : FrameHdr) : Bool :=
  decide (h.link < 12 ∧ h.vc < 4 ∧ h.ftype < 256 ∧ h.hops ≤ 16 ∧ h.len ≤ 4096 ∧ h.xseq < 2 ^ 32 ∧ h.tag < 2 ^ 32 ∧ h.addr < 2 ^ 64) &&
  node12 h.src && node12 h.dst
/-- A stored grain as a stream carries it. -/
def GrainRec.ok (g : GrainRec) : Bool :=
  decide (1 ≤ g.nsid ∧ g.nsid ≤ 1024 ∧ g.grain < 2 ^ 40 ∧ g.csn < 2 ^ 64 ∧ g.glen < 256 ∧ g.cause < 256 ∧ g.lbas.length ≤ 16)
/-- A namespace's description (Tables 4.5, 13.6). -/
def NsDesc.ok (d : NsDesc) : Bool :=
  decide (d.nsid < 2 ^ 32 ∧ d.nsze < 2 ^ 64 ∧ d.ncap < 2 ^ 64 ∧ d.lbaf < 16 ∧ d.dps < 256 ∧ d.nmic < 256 ∧ d.grainCode < 4 ∧ d.nguid < 2 ^ 128 ∧
    d.eui < 2 ^ 64)

/-- A command is well formed. -/
def Instr.wellFormed (i : Instr) : Bool :=
  match i with
  | .porNAssert _ => true
  | .porNDeassert _ _ => true
  | .pwrFailNAssert _ => true
  | .pwrFailNDeassert _ => true
  | .drainFlushComplete => true
  | .twinFenceInAssert => true
  | .twinFenceInDeassert => true
  | .twinHbInChange _ => true
  | .tsyncInEdge => true
  | .huGoodDeassert => true
  | .huGoodReassert => true
  | .huSenseBelowVLow _ => true
  | .holdupVerificationStart _ => true
  | .holdupVerificationEnd _ => true
  | .heRefclkLoss => true
  | .gfRefclkLoss => true
  | .mgXtalLoss _ => true
  | .dramChannelTrainingLoss _ => true
  | .bootImageVerify _ _ => true
  | .hostIslandRelease => true
  | .dramTraining _ _ _ => true
  | .channelTraining _ _ dies => dies.all (fun f => decide (f.pos < 32)) && (dies.map (·.pos)).eraseDups.length == dies.length
  | .journalRootRead _ _ _ _ => true
  | .residentMapLoad => true
  | .mapRecovery _ _ _ _ => true
  | .halfErasedBlockRedo die block _ _ => dieOk die && blockOk block
  | .openStripeCompletion _ => true
  | .startupComplete _ => true
  | .genResetY9 _ _ => true
  | .genResetManagement _ _ => true
  | .watchdogExpiry => true
  | .lockstepMismatch => true
  | .conventionalReset _ => true
  | .functionLevelReset _ => true
  | .ccEnSet _ iosqes iocqes mps ams css asqs acqs asq acq => decide (iosqes < 16 ∧ iocqes < 16 ∧ mps < 16 ∧ ams < 8 ∧ css < 8 ∧ asqs < 4096 ∧ acqs < 4096 ∧ asq % 4096 = 0 ∧ acq % 4096 = 0)
  | .ccEnClear _ => true
  | .shutdownNotification _ _ => true
  | .genModereqDiagnostic _ _ => true
  | .diagnosticEntry => true
  | .genModereqService _ _ => true
  | .genModereqQuarantine _ _ => true
  | .genModereqProvision _ _ => true
  | .modereqKeyTimeout => true
  | .provisioningCommit _ => true
  | .genOwnerClaim _ => true
  | .genOwnerRelease _ => true
  | .genOwnerSeize _ => true
  | .genOwnerSeizedClear _ => true
  | .registerWrite _ offset _ _ => regOffset offset
  | .latchingRead _ offset => regOffset offset
  | .stagedCommitPoint _ => true
  | .bar0BadAccess _ _ offset len => decide (offset < 2 ^ 20 ∧ 0 < len)
  | .configBarWrite _ _ _ => true
  | .sqTailDoorbell _ qid value _ => u16 qid && u16 value
  | .cqHeadDoorbell _ qid value _ => u16 qid && u16 value
  | .sqeFetch _ => true
  | .pollRound _ => true
  | .pollCompletion _ _ _ => true
  | .pollStop _ _ _ => true
  | .cmbMmioRead _ _ len tag => tlpLen len && tag14 tag
  | .cmbMmioWrite _ _ data _ => tlpLen data.length
  | .windowTlpRead _ _ len rid tag => tlpLen len && u16 rid && tag14 tag
  | .windowTlpWrite _ _ data rid _ => tlpLen data.length && u16 rid
  | .windowWriteAck _ _ => true
  | .unsupportedTlp _ tag => tag14 tag
  | .malformedTlp _ => true
  | .heWincommitA _ _ => true
  | .heWincommitB _ _ => true
  | .windowCopyDone _ => true
  | .heWinlogClr _ => true
  | .hostReadCompletion _ tag _ _ _ => tag14 tag
  | .hostReadTimeout _ tag => tag14 tag
  | .linkTrained _ rate width _ => decide (rate < 8) && [1, 2, 4, 8, 16].contains width
  | .linkRecoveryEntry _ => true
  | .linkRecoveryExit _ _ => true
  | .surpriseDown _ => true
  | .l0pWidthChange _ _ _ => true
  | .aspmL1Entry _ _ _ => true
  | .d3hotEntry _ => true
  | .doeRequest _ vendor objType dwords => u16 vendor && decide (objType < 256) && decide (2 ≤ dwords.length ∧ dwords.length ≤ 2 ^ 18)
  | .doeAbort _ => true
  | .deleteIoSq h qid => h.ok && u16 qid
  | .createIoSq h qid size cqid qprio _ _ => h.ok && u16 qid && decide (1 ≤ size ∧ size ≤ 65536) && u16 cqid && decide (qprio < 4)
  | .getLogPage h lid offset numDwords _ => h.ok && decide (lid < 256 ∧ offset < 2 ^ 64 ∧ 0 < numDwords ∧ numDwords ≤ 2 ^ 32)
  | .deleteIoCq h qid => h.ok && u16 qid
  | .createIoCq h qid size vector _ _ _ => h.ok && u16 qid && decide (1 ≤ size ∧ size ≤ 65536) && u16 vector
  | .identify h cns cntid => h.ok && decide (cns < 256) && u16 cntid
  | .abort h sqid _ => h.ok && u16 sqid
  | .setFeaturesArbitration h _ _ => h.ok
  | .setFeaturesPowerManagement h _ ps wh => h.ok && decide (ps < 32 ∧ wh < 8)
  | .powerStateEntry _ => true
  | .setFeaturesTemperatureThreshold h _ tmpsel thsel kelvin => h.ok && decide (tmpsel < 16 ∧ thsel < 4) && u16 kelvin
  | .setFeaturesVolatileWriteCache h _ _ => h.ok
  | .setFeaturesNumberOfQueues h _ nsqr ncqr => h.ok && u16 nsqr && u16 ncqr
  | .setFeaturesInterruptCoalescing h _ thr agg => h.ok && decide (thr < 256 ∧ agg < 256)
  | .setFeaturesInterruptVectorConfig h _ vector _ => h.ok && u16 vector
  | .setFeaturesAsyncEventConfig h _ _ => h.ok
  | .setFeaturesLatencyClassTable h _ _ _ entries => h.ok && entries.all (fun e => e.length == 5)
  | .setFeaturesQueueLatencyBinding h _ sqid cls => h.ok && u16 sqid && decide (cls < 256)
  | .setFeaturesWriteCacheProtection h _ => h.ok
  | .getFeatures h fid sel _ => h.ok && decide (fid < 256 ∧ sel < 8)
  | .asynchronousEventRequest h => h.ok
  | .namespaceManagementCreate h d => h.ok && d.ok
  | .namespaceManagementDelete h => h.ok
  | .namespaceAttachment h _ ctrls => h.ok && ctrls.all u16
  | .firmwareImageDownload h offset length => h.ok && decide (offset % 4 = 0 ∧ length % 4 = 0 ∧ 0 < length)
  | .firmwareCommitWrite h slot _ => h.ok && decide (slot < 8)
  | .firmwareCommitWriteSelect h slot _ => h.ok && decide (slot < 8)
  | .firmwareCommitSelect h slot _ => h.ok && decide (slot < 8)
  | .firmwareCommitActivate h slot _ => h.ok && decide (slot < 8)
  | .deviceSelfTest h code => h.ok && decide (code < 16)
  | .directiveSend h dtype doper dspec _ tdtype => h.ok && decide (dtype < 256 ∧ doper < 256 ∧ tdtype < 256) && u16 dspec
  | .directiveReceive h dtype doper dspec nsr => h.ok && decide (dtype < 256 ∧ doper < 256) && u16 dspec && u16 nsr
  | .doorbellBufferConfig h prp1 prp2 => h.ok && decide (prp1 < 2 ^ 64 ∧ prp2 < 2 ^ 64)
  | .formatNvm h lbaf _ pi pil ses => h.ok && decide (lbaf < 16 ∧ pi < 8 ∧ pil < 2 ∧ ses < 8)
  | .formatNvmCryptoErase h lbaf _ pi pil => h.ok && decide (lbaf < 16 ∧ pi < 8 ∧ pil < 2)
  | .sanitizeBlockErase h _ => h.ok
  | .sanitizeCryptoErase h _ => h.ok
  | .twinControlPair h peer _ _ => h.ok && node12 peer
  | .twinControlSwitch h => h.ok
  | .twinControlRejoin h peer _ returnerCsn => h.ok && node12 peer && decide (returnerCsn < 2 ^ 64)
  | .twinControlUnpair h => h.ok
  | .twinControlRelease h => h.ok
  | .migrationControlArm h peer _ => h.ok && node12 peer
  | .migrationControlStart h _ peer _ nsids => h.ok && node12 peer && nsids.all (fun n => decide (1 ≤ n ∧ n ≤ 1024))
  | .migrationControlSeal h => h.ok
  | .migrationControlAbort h => h.ok
  | .migrationControlStatus h => h.ok
  | .migrationControlResolve h _ => h.ok
  | .sealDevice h _ => h.ok
  | .unsealDevice h => h.ok
  | .sealNamespace h _ => h.ok
  | .unsealNamespace h => h.ok
  | .read h slba nlb _ _ => h.ok && lbaRange slba nlb
  | .write h slba nlb _ _ stream => h.ok && lbaRange slba nlb && u16 stream
  | .flush h => h.ok
  | .writeUncorrectable h slba nlb => h.ok && lbaRange slba nlb
  | .writeZeroes h slba nlb _ _ _ => h.ok && lbaRange slba nlb
  | .datasetManagement h _ ranges => h.ok && decide (1 ≤ ranges.length ∧ ranges.length ≤ 256)
  | .verify h slba nlb _ => h.ok && lbaRange slba nlb
  | .copy h sdlba format ranges _ _ _ => h.ok && decide (sdlba < 2 ^ 64 ∧ format < 16 ∧ 1 ≤ ranges.length ∧ ranges.length ≤ 256)
  | .fixityDigest h slba nlb alg => h.ok && lbaRange slba nlb && decide (alg < 256)
  | .mapPageLoaded _ => true
  | .lc7AdmissionRetry _ => true
  | .dcForwardDone _ => true
  | .completionPost _ => true
  | .partialGrainMerge _ _ => true
  | .wordlineProgramStart _ _ => true
  | .programVerifyDone die block page _ => dieOk die && blockOk block && decide (page < 1536)
  | .gatherTimeout _ => true
  | .barrelOpen _ _ => true
  | .readRoundDone _ _ _ => true
  | .readReadyTimeout die _ _ => dieOk die
  | .spDieoutWrite _ die _ => dieOk die
  | .fretTick => true
  | .suspendRequest die => dieOk die
  | .vatTurnEnd _ => true
  | .groupWordlineBoundary _ => true
  | .journalFlush => true
  | .journalSegmentDurable _ => true
  | .checkpointSweepStart => true
  | .sweepTimeout => true
  | .sweepRootDurable _ => true
  | .mapLineRestored nsid grain _ => decide (1 ≤ nsid ∧ nsid ≤ 1024 ∧ grain < 2 ^ 40)
  | .rackingStart _ => true
  | .rackdoneDurable _ => true
  | .eraseintDurable die block => dieOk die && blockOk block
  | .eraseDone die block _ => dieOk die && blockOk block
  | .bottlingStart die slot _ => dieOk die && decide (slot < 127)
  | .vatSlotErase die slot => dieOk die && decide (slot < 127)
  | .ageRefresh _ _ => true
  | .blockRefresh die block _ => dieOk die && blockOk block
  | .v4Reclaim => true
  | .snapshotWrite => true
  | .snapshotDurable _ => true
  | .rebuildStart die => dieOk die
  | .rebuildWordlineDone die row wordline _ _ => dieOk die && decide (row < 5461 ∧ wordline < 384)
  | .groupDissolution _ => true
  | .sequencerFault _ _ _ _ => true
  | .yieldTimeout _ _ _ => true
  | .channelRetrain _ _ => true
  | .retrainStep _ _ idChanged => idChanged.all dieOk
  | .patchSetLoad _ set _ => decide (set.matches_.length ≤ 32)
  | .patchHandoff _ _ => true
  | .bufferAllocate _ _ _ => true
  | .bufferFree _ _ => true
  | .poolRebuildDone _ => true
  | .lineCheckFailure address _ => decide (address < 2 ^ 48)
  | .staleGenerationAccess address _ generation _ => decide (address < 2 ^ 48 ∧ generation < 256)
  | .mergeEntryTimeout _ => true
  | .gareoLinkTrained _ _ _ peerUid peerNode peerLink => decide (peerUid < 2 ^ 64 ∧ peerLink < 256) && u16 peerNode
  | .flitReceived _ bytes => bytes.length == 256
  | .linkSilenceTimeout _ => true
  | .linkRetrainDone _ _ => true
  | .linkRetryTimer _ => true
  | .ackTimer _ src => node12 src
  | .frameResendTimeout _ dst xseq => node12 dst && decide (xseq < 2 ^ 32)
  | .hello _ uid candUid _ ep pref => decide (uid < 2 ^ 64 ∧ candUid < 2 ^ 64) && u16 ep && u16 pref
  | .discoveryQuietTimeout => true
  | .lsr uid _ _ links => decide (uid < 2 ^ 64) && decide (links.length ≤ 12)
  | .table ep first entries => u16 ep && decide (first + entries.length ≤ 4096)
  | .epoch num atNs => u16 num && decide (atNs < 2 ^ 64)
  | .epochApply => true
  | .resync _ src nextXseq => node12 src && decide (nextXseq < 2 ^ 32)
  | .ack _ src xseq => node12 src && decide (xseq < 2 ^ 32)
  | .nak _ src xseq cause => node12 src && decide (xseq < 2 ^ 32 ∧ cause < 6)
  | .timeExchangeTimer => true
  | .time .. => true
  | .coordinatorHeartbeat _ => true
  | .coordinatorLoss => true
  | .gfNodeReassign _ => true
  | .rdreq h _ len => h.ok && tlpLen len
  | .rdresp h data => h.ok && tlpLen data.length
  | .writeFrame h _ data => h.ok && tlpLen data.length
  | .mgmt h _ descs => h.ok && descs.all NsDesc.ok
  | .mirrorGranules g => g.ok
  | .mirrorCommitRecord csn deltas => decide (csn < 2 ^ 64) && deltas.all GrainRec.ok
  | .mirrorNamespaceOperation _ => true
  | .mirrorLatencyClassTable _ => true
  | .mirrorXtsKey nsid _ => decide (1 ≤ nsid ∧ nsid ≤ 1024)
  | .mirrorSnapshot _ => true
  | .mirrorRepair _ g lostCsn => g.ok && decide (lostCsn < 2 ^ 64)
  | .hbSendTimer => true
  | .hb seq peerState csn => decide (seq < 2 ^ 32 ∧ peerState < 6 ∧ csn < 2 ^ 64)
  | .hbPathLost _ _ => true
  | .drainNotice csn => decide (csn < 2 ^ 64)
  | .soloEntry _ => true
  | .soloExit _ => true
  | .pairreq src action _ nsCount => node12 src && decide (action < 256 ∧ nsCount ≤ 1024)
  | .pairack _ _ => true
  | .switch csn => decide (csn < 2 ^ 64)
  | .switchack csn => decide (csn < 2 ^ 64)
  | .seedSegmentSend _ _ grains => grains.all GrainRec.ok
  | .migstart src _ descs => node12 src && descs.all NsDesc.ok
  | .migack _ => true
  | .migrationSegmentSend _ _ => true
  | .migseg g => g.ok
  | .segdig _ _ _ _ _ => true
  | .segres _ _ _ _ => true
  | .dirtyPassEnd => true
  | .cutover nsid sealCsn nguid eui _ => decide (1 ≤ nsid ∧ nsid ≤ 1024 ∧ sealCsn < 2 ^ 64 ∧ nguid < 2 ^ 128 ∧ eui < 2 ^ 64)
  | .cutack _ => true
  | .migrationAbortMessage _ => true
  | .migrationRouteTimeout _ => true
  | .stop _ _ => true
  | .digestContextOpen p => decide (p.alg < 4 ∧ p.prio < 256)
  | .digestSaveDone _ _ => true
  | .digestBlock _ block _ last => decide (block.length ≤ 128) && (last || block.length == 128)
  | .auditStart _ => true
  | .auditPeriodTimer => true
  | .dgSecAdvance _ => true
  | .rngHealthFailure => true
  | .ecMaxcorrClr _ => true
  | .spSubselWrite _ index => decide (index < 256)
  | .sensorSample x => decide (x.temps.length = 24 ∧ x.volts.length = 16 ∧ x.amps.length = 4)
  | .eventLogFlush count => decide (count ≤ 256)
  | .timeMarkWrite => true
  | .mgWdogKick _ => true
  | .mgLogackWrite _ _ => true
  | .ffRead _ => true
  | .ffProgram _ => true
  | .ffErase _ count => decide (count < 2 ^ 16)
  | .ffReadhdr _ => true
  | .ffOperationDone _ => true
  | .readNvmeMiDataStructure dtyp portid cntlid => decide (dtyp < 256 ∧ portid < 256) && u16 cntlid
  | .nvmSubsystemHealthStatusPoll _ => true
  | .controllerHealthStatusPoll _ _ _ => true
  | .configurationGet _ _ => true
  | .configurationSet _ _ _ => true
  | .vpdRead offset len => u16 offset && u16 len
  | .miTunnelledAdminCommand _ opcode nsid cdw _ => decide (opcode < 256 ∧ nsid < 2 ^ 32) && cdw.all (fun w => decide (w < 2 ^ 32))
  | .setupRegisterRead offset => decide (offset < 2 ^ 20 ∧ offset % 4 = 0)
  | .setupRegisterWrite offset _ => decide (offset < 2 ^ 20 ∧ offset % 4 = 0)
  | .eventLogRead firstSeq _ area => decide (firstSeq < 2 ^ 32 ∧ area < 2)
  | .eventLogAcknowledge seq => decide (seq < 2 ^ 32)
  | .getVersion _ => true
  | .getCapabilities _ => true
  | .negotiateAlgorithms _ _ _ _ _ => true
  | .getDigests _ => true
  | .getCertificate transport slot offset len => decide (transport < 5 ∧ slot < 8) && u16 offset && u16 len
  | .setCertificate transport slot _ _ => decide (transport < 5 ∧ slot < 8)
  | .challenge transport slot nonce => decide (transport < 5 ∧ slot < 256 ∧ nonce < 2 ^ 256)
  | .getMeasurements transport index _ nonce => decide (transport < 5 ∧ index < 256 ∧ nonce < 2 ^ 256)
  | .keyExchange _ _ _ => true
  | .finish _ _ _ => true
  | .endSession _ _ => true
  | .policyCoreFault _ => true
  | .fiArmKey _ _ => true
  | .fiDisarm _ => true
  | .fiArmTimeout => true
  | .fiGfEn _ _ => true
  | .fiFlEn _ _ => true
  | .fiPcieEn _ _ => true
  | .fiKeySequenceTimeout => true
  | .rngHealthRestored => true
  | .managementResetEnd => true
  | .configRegisterWrite _ reg _ => decide (reg < 4096 ∧ reg % 4 = 0)
  | .aspmL1Exit _ => true
  | .cmbmscWrite _ _ cba => decide (cba < 2 ^ 64 ∧ cba % 4096 = 0)
  | .deviceSelfTestComplete _ => true
  | .interruptCoalescingTimeout _ vector => decide (vector < 2048)

end Sys2Proof
end

