-- ==== Sys2Proof/Tests/Slice0.lean ====
section
/-! SUPPORT. Tests: for every statement, a state and operands that meet the hypotheses of each of its clauses; well-formed and ill-formed
commands; and the worked examples and tables of the spec. -/
namespace Sys2Proof.Tests
set_option Elab.async false
open Sys2Proof Sys2Proof.Machine

/-! States and operands the tests use. -/

/-- The state after reset in another mode. -/
def inMode (m : Mode) : State := { State.reset with gen := { Gen.reset with mode := m } }
/-- The state after reset in another mode, with a verified block and the host island released. -/
def released (m : Mode) : State := { State.reset with gen := { Gen.reset with mode := m, hostReleased := true, bootVerified := true } }
/-- A namespace of eight blocks that this device owns. -/
def aNs : Ns := ⟨1, 8, 8, 0, false, 0, 0, 0, false, false, 0, 0, [1], none, 0, false, false, true, false, true, 0, [], false, 0, false, 0⟩
/-- The header of a command that NVMe-MI carried. -/
def aHdr : AdminHdr := ⟨.a, 7, 0, 1, true, .prp [0x10000000000, 0x20000000000], true⟩
/-- The header of a command of the admin queue. -/
def qHdr : AdminHdr := ⟨.a, 7, 0, 1, true, .prp [0x10000000000, 0x20000000000], false⟩
/-- A ready controller with an I/O queue pair. -/
def aCtl : Ctl := { Ctl.reset with en := true, nsq := 8, ncq := 8, sqs := [adminSq 3 0, { adminSq 3 0 with qid := 1, cq := 1, cls := 7 }], cqs := [adminCq 3 0, ⟨1, 4, 1, true, 0, 0, 0, true, [], false⟩] }
/-- A state that serves I/O commands on one namespace. -/
def ioState : State := { released .service with ctl := ⟨aCtl, .reset⟩, ns := [aNs] }
/-- The header of an I/O command. -/
def ioHdr : IoHdr := ⟨.a, 1, 9, 0, true, 1, .prp [0x10000000000, 0x20000000000], .unused, 0, 0⟩
/-- An I/O command in flight, at some stage. -/
def aCmd (k : IoKind) (st : Stage) : IoCmd := { ioDraft ioHdr k ioState with id := 5, nlb := 1, stage := st }
/-- A state with that command in flight. -/
def cmdState (k : IoKind) (st : Stage) : State := { ioState with cmds := [aCmd k st] }
/-- A staged grain. -/
def aStaged : Staged := ⟨3, 1, 0, 1, [.prior], .initial, 0, 0, 4096, 0, 8, false, false, false, [], false, [], []⟩
/-- A group of eight dies, on eight channels. -/
def aGroup : Group := ⟨0, [0, 32, 64, 96, 128, 160, 192, 224], 4, [], [], false, false, false⟩
/-- A map entry of a stored grain. -/
def anEntry : MapEntry := { MapEntry.initial with die := 3, dealloc := false, glen := 64 }
/-- The state in SERVICE with one group. -/
def grpState : State := setF Reg.MM_RACK.FREECRIT 0 { inMode .service with sp := { Sp.reset with groups := [aGroup] } }
/-- A finished barrel of that group. -/
def aBarrel : Barrel := ⟨0, 0, 1, 0, false, 0, 0⟩
/-- An open barrel with one row, started on the given members. -/
def anOpen (l : List Nat) : OpenBarrel := ⟨0, 0, 0, true, 1, [⟨0, [], l, [], []⟩], false⟩
/-- A page of the group's first vat pair. -/
def aVat : VatPage := ⟨0, 0, 0, 0, [], [], []⟩
/-- A link that is up, to node 9. -/
def aLink : GLink := { GLink.reset with st := 2, lanes := 15, peerUid := 77, peerNode := 9 }
/-- A node with a route to node 9 over link 0. -/
def routed (m : Mode) : State := { inMode m with gf := { Gf.reset with node := some 1, coordNode := 9, links := aLink :: List.replicate 11 .reset, routes := [(9, ⟨0, 12, 1, 1, true⟩)] } }
/-- A frame header from node 9 that passes every check. -/
def frm (typ len vc : Nat) : FrameHdr := ⟨0, vc, 9, 1, typ, 1, len, 0, 4, 0, 0, true, true, true⟩
/-- A standby of a pair with node 9. -/
def standbyState : State := { routed .standby with tw := { Tw.reset with st := .paired, peer := 9 } }
/-- A mirrored grain. -/
def aGrain : GrainRec := ⟨1, 0, 5, 8, true, false, 0, 0, []⟩
/-- That standby, with 64 GiB of DRAM. -/
def dramStandby : State := { standbyState with me := { Me.reset with dramGiB := 256, chOk := 15 } }
/-- A window of 1 MiB onto remote node 9, readable and writable. -/
def aWin : Win := ⟨true, true, true, 0, 0, 134512640⟩
/-- That state with a link of full width and speed, a verified hold-up supply, the write cache on and 256 GiB of DRAM. -/
def ioUp : State := { setF Reg.GEN_HOLDUP.WTHRU 0 ioState with
  he := ⟨{ ioState.he.a with width := 16, rate := 5, flit := true }, .reset⟩, sh := { ioState.sh with wce := true },
  me := { Me.reset with dramGiB := 256, chOk := 15 } }
/-- The reference device in PROVISION: 2,048 dies and 256 GiB of DRAM. -/
def refDevice : State := { inMode .provision with nand := { Nand.reset with dies := List.range 2048 }, me := { Me.reset with dramGiB := 256, chOk := 15 } }
/-- A description of a namespace. -/
def aDesc : NsDesc := ⟨0, 8, 8, 0, false, 0, 0, 0, false, true, true, 0, 0⟩
/-- A firmware image that verifies. -/
def anImage : SlotImage := ⟨true, 0x5A5AC33C, 0xA5A53CC3, true, false, none, false, 6, false, 0, [], 0⟩
/-- Parameters of a digest. -/
def aParams : DigestParams := ⟨.audit, 0, false, 1, 1, false, [], [], false⟩
/-- A sample of the sensors. -/
def aSample : SensorSample := ⟨List.replicate 24 25, List.replicate 16 0, List.replicate 4 0, 0, 0, 0, 0, 0, 0⟩
/-- A patch set. -/
def aPatch : PatchSet := ⟨0, 1, 0, 0, 1, 0, 0, 0, [], [], true, 0x5A5AC33C, 0xA5A53CC3⟩
/-- Erasing sectors leaves the fuses alone. -/
theorem eraseSectors_fuses (f : Nat → Nat) (l : List Nat) (s : State) : (l.foldl (fun t i => eraseSector (f i) t) s).fuses = s.fuses := by
  induction l generalizing s with
  | nil => rfl
  | cons a l ih =>
    rw [List.foldl_cons, ih]
    simp only [eraseSector, flagIf, flagOn, setF]
    split <;> rfl
/-- Whether an image verifies depends on the fuses alone. -/
theorem verifyImage_of_fuses {s t : State} (i : SlotImage) (h : s.fuses = t.fuses) : verifyImage i s = verifyImage i t := by
  unfold verifyImage ownerInForce
  rw [h]
/-- A staged image that verifies is written to slot 2. -/
theorem commit_writes (select : Bool) (i : SlotImage) (s : State) (h0 : writeBad 1 s = none) (h1 : verifyImage i s = 0) :
    commitSlot true select 1 i s = (none, (commitSlot true select 1 i s).2) := by
  have hv : slotImage 1 (writeSlot 1 i s) = some i := by
    simp only [slotImage, writeSlot]
    rw [verifyImage_of_fuses (t := s) i (eraseSectors_fuses (fun n => slotSector 1 + n) _ s), h1]
    rfl
  refine Prod.ext ?_ rfl
  simp [commitSlot, h0, hv]

/-! Worked examples and tables. -/

/-- What a step or a command answers is a next state, and that state has a property. -/
def nextHas (o : Host.Outcome State Fault Refusal) (p : State → Bool) : Bool := match o with
  | .next t => p t
  | .fault _ => false
  | .refused _ => false
/-- The example of R29: node 0x2A5, offset 0x1_2340_0000. -/
theorem test_remoteAddress : isRemote 0x952923400000 = true ∧ remoteNode 0x952923400000 = 0x2A5 ∧ remoteOff 0x952923400000 = 0x123400000 := by
  decide +kernel
/-- The example of R201: READS = 100,000 is stored as 0xD9 and comes back as 102,400. -/
theorem test_readsCode : readsCode 100000 256 0 = 0xD9 ∧ readsValue 0xD9 = 102400 ∧ readsValue 0xFF = 507904 := by decide +kernel
/-- R153: the entry at namespace creation. -/
theorem test_initialEntry : MapEntry.initial.word = 0x0010000000000000 := by decide +kernel
/-- Table 6.1: one bit of each field of an entry, and STAGED with an index. -/
theorem test_entryBits : (MapEntry.word { MapEntry.initial with die := 1, block := 1, plane := 1, page := 1, goff := 1, glen := 1, lost := true, dealloc := false, rgen := 1, vhint := 1 }) =
    0x00A8084008000000 + 0x2000000 + 0x801 ∧ (MapEntry.word { MapEntry.initial with dealloc := false, staged := true, stidx := 5, vhint := 6 }) = 0x0700000000000005 := by
  decide +kernel
/-- Worked example of chapter 6: 100 TiB and 700 TiB with 4 KiB LBAs, by grain size. -/
theorem test_mapSizes :
    (Ns.mapPages { aNs with nsze := 100 * 2 ^ 28, grainCode := 0 }, Ns.mapPages { aNs with nsze := 100 * 2 ^ 28, grainCode := 1 },
      Ns.mapPages { aNs with nsze := 700 * 2 ^ 28, grainCode := 2 }) = (52428800, 13107200, 22937600) := by decide +kernel
/-- Worked example of chapter 9: the first literal, the length symbol, its base, and the end symbol. -/
theorem test_tokenCodes : bitsNat (symCode 0x59) = 0b101011010 ∧ (symCode 0x59).length = 9 ∧ bitsNat (symCode 271) = 0b011110 ∧ (symCode 271).length = 6 ∧
    lenBase 271 = (4608, 16) ∧ bitsNat (symCode 272) = 0b10000000 ∧ (symCode 272).length = 8 := by decide +kernel
/-- A short stream by the rules of R237 to R239: three literals and a match of length 4 at distance 1. -/
theorem test_tokenStream : (decodeTokens 7 100 (symCode 65 ++ symCode 66 ++ symCode 67 ++ symCode 256 ++ natBits 4 0 ++ natBits 0 0 ++ symCode 272) []).map
    (·.1) = some [65, 66, 67, 67, 67, 67, 67] := by decide +kernel
/-- R210: g^8 = x^8 = x^4 + x^3 + x^2 + 1, the field's polynomial 0x11D. -/
theorem test_fieldPolynomial : gfPow 8 = 0x1D ∧ gfPow 255 = 1 ∧ gfMul 0x80 2 = 0x1D := by decide +kernel
/-- R248: a group with fewer than 8 ones is inverted under polarity 1. -/
theorem test_shapeGroup : shapeGroup true (List.replicate 8 false ++ List.replicate 7 true) = false :: (List.replicate 8 true ++ List.replicate 7 false) := by
  decide +kernel
/-- R181: row 5 of group 3, and the vat page of slot 2 of die 7. -/
theorem test_barrelNumbers : barrelNum 3 5 = 0x6005 ∧ vatNumber 7 2 = 0x80001007 := by decide +kernel
/-- Table 10.2: position 13 of each bus. -/
theorem test_busPlaces : busPlace false 13 = (6, 1) ∧ busPlace true 13 = (3, 1) := by decide +kernel
/-- Worked example of chapter 15: the reference bank is verified. -/
theorem test_holdupBank : (let s := setF Reg.MG_HUCFG.VMIN 600 (setF Reg.MG_HUCFG.EFF 85 { inMode .service with pins := { Pins.reset with huGood := true } })
    let t := holdupVerificationEndEff 150 (startVerification 12000 s)
    (getF Reg.MG_HUSTAT.CAP t, getF Reg.GEN_HOLDUP.ENERGY t, isOn Reg.GEN_HOLDUP.VERIFIED t)) = (662, 3039, true) := by decide +kernel
/-- Worked example of chapter 15: a sag to 11.94 V ends protection, 11.95 V does not. -/
theorem test_holdupThreshold : (let s := flagOn Reg.GEN_HOLDUP.VERIFIED { inMode .service with mg := { Mg.reset with capDen := 151 } }
    (isOn Reg.MG_ERR.HULOW (huSenseBelowVLowEff 11940 s), isOn Reg.MG_ERR.HULOW (huSenseBelowVLowEff 11950 s))) = (true, false) := by decide +kernel
/-- Row 1 of Table 2.2: POR_N is released with the supply good, and the mode is BOOT. -/
theorem test_powerOn : nextHas (step { State.reset with pending := [.porNDeassert false 1000, .hostIslandRelease] }) (fun t => t.gen.mode == .boot && t.pending.length == 1) = true := by
  decide +kernel
/-- R408: a POR_N pulse below 10 µs is filtered out. -/
theorem test_porFilter : nextHas (exec (.porNAssert 9) (inMode .service)) (fun t => t.gen.mode == .service) = true := by decide +kernel
/-- The table spells no bits: no word is a command, and placing a word changes nothing. -/
theorem test_noWords : decodeTableWord 32 0 = none ∧ (State.reset.withFetchWord 32 0).pending = [] := by decide +kernel
/-- FIPS 197, the example of appendix C.3: AES with a key of 256 bits. -/
theorem test_aes256 : aesBlock (aesKeys (List.range 32)) [0x00,0x11,0x22,0x33,0x44,0x55,0x66,0x77,0x88,0x99,0xaa,0xbb,0xcc,0xdd,0xee,0xff] =
  [0x8e,0xa2,0xb7,0xca,0x51,0x67,0x45,0xbf,0xea,0xfc,0x49,0x90,0x4b,0x49,0x60,0x89] := by decide +kernel
/-- RFC 3394, section 4.6: a wrapped key of 256 bits is unwrapped. -/
theorem test_keyUnwrap : keyUnwrap (List.range 32) [0x28c9f404c4b810f4,0xcbccb35cfb87f826,0x3f5786e2d80ed326,0xcbc7f0e71a99f43b,0xfb988b9b7a02dd21] =
 some [0x0011223344556677,0x8899AABBCCDDEEFF,0x0001020304050607,0x08090A0B0C0D0E0F] := by decide +kernel
/-- IEEE 1619, appendix B, vector 10: the first 32 bytes under XTS-AES-256. -/
theorem test_xts256 :
    xtsEncrypt (numBe 32 0x2718281828459045235360287471352662497757247093699959574966967627)
      (numBe 32 0x3141592653589793238462643383279502884197169399375105820974944592) (numLe 16 0xff) (List.range 32) =
      numBe 32 0x1c3b3a102f770386e4836c99e370cf9bea00803f5e482357a4ae12d414a3e63b := by decide +kernel

/-! Well-formed and ill-formed commands. -/

/-- From channelTraining to windowTlpWrite: a well-formed command of each. -/
theorem test_wellFormed_channelTraining_to_windowTlpWrite : ∀ i ∈ ([.channelTraining 0 none [],
    .halfErasedBlockRedo 1 1 true true,
    .ccEnSet .a 1 1 1 1 1 1 1 0 0,
    .registerWrite .mgmt 0 0 true,
    .latchingRead .mgmt 0,
    .bar0BadAccess .a true 0 1,
    .sqTailDoorbell .a 1 1 true,
    .cqHeadDoorbell .a 1 1 true,
    .cmbMmioRead .a 0 1 1,
    .cmbMmioWrite .a 0 [0] true,
    .windowTlpRead .a 0 1 1 1,
    .windowTlpWrite .a 0 [0] 1 true] : List Instr), i.wellFormed = true := by
  decide +kernel
/-- One operand out of its range, for each check: refused. -/
theorem test_illFormed_channelTraining_to_windowTlpWrite_0 : ∀ i ∈ ([.channelTraining 0 none [⟨32, true, []⟩],
    .channelTraining 0 none [⟨1, true, []⟩, ⟨1, true, []⟩],
    .halfErasedBlockRedo 2048 1 true true,
    .halfErasedBlockRedo 1 5461 true true,
    .ccEnSet .a 16 1 1 1 1 1 1 0 0,
    .ccEnSet .a 1 16 1 1 1 1 1 0 0,
    .ccEnSet .a 1 1 16 1 1 1 1 0 0,
    .ccEnSet .a 1 1 1 8 1 1 1 0 0,
    .ccEnSet .a 1 1 1 1 8 1 1 0 0,
    .ccEnSet .a 1 1 1 1 1 4096 1 0 0,
    .ccEnSet .a 1 1 1 1 1 1 4096 0 0,
    .ccEnSet .a 1 1 1 1 1 1 1 1 0,
    .ccEnSet .a 1 1 1 1 1 1 1 0 1,
    .registerWrite .mgmt 2 0 true,
    .latchingRead .mgmt 2,
    .bar0BadAccess .a true (2 ^ 20) 1,
    .bar0BadAccess .a true 0 0,
    .sqTailDoorbell .a 65536 1 true,
    .sqTailDoorbell .a 1 65536 true,
    .cqHeadDoorbell .a 65536 1 true,
    .cqHeadDoorbell .a 1 65536 true,
    .cmbMmioRead .a 0 4097 1,
    .cmbMmioRead .a 0 1 16384,
    .cmbMmioWrite .a 0 [] true] : List Instr), i.wellFormed = false := by
  decide +kernel
/-- One operand out of its range, for each check: refused. -/
theorem test_illFormed_channelTraining_to_windowTlpWrite_1 : ∀ i ∈ ([.windowTlpRead .a 0 4097 1 1,
    .windowTlpRead .a 0 1 65536 1,
    .windowTlpRead .a 0 1 1 16384,
    .windowTlpWrite .a 0 [] 1 true,
    .windowTlpWrite .a 0 [0] 65536 true] : List Instr), i.wellFormed = false := by
  decide +kernel
/-- From unsupportedTlp to abort: a well-formed command of each. -/
theorem test_wellFormed_unsupportedTlp_to_abort : ∀ i ∈ ([.unsupportedTlp .a 1,
    .hostReadCompletion .a 1 true [] 1,
    .hostReadTimeout .a 1,
    .linkTrained .a 1 1 true,
    .doeRequest .a 1 1 [0, 0],
    .deleteIoSq aHdr 1,
    .createIoSq aHdr 1 2 1 1 1 true,
    .getLogPage aHdr 1 0 1 true,
    .deleteIoCq aHdr 1,
    .createIoCq aHdr 1 2 1 true 1 true,
    .identify aHdr 1 1,
    .abort aHdr 1 0] : List Instr), i.wellFormed = true := by
  decide +kernel
/-- One operand out of its range, for each check: refused. -/
theorem test_illFormed_unsupportedTlp_to_abort_0 : ∀ i ∈ ([.unsupportedTlp .a 16384,
    .hostReadCompletion .a 16384 true [] 1,
    .hostReadTimeout .a 16384,
    .linkTrained .a 8 1 true,
    .linkTrained .a 1 3 true,
    .doeRequest .a 65536 1 [0, 0],
    .doeRequest .a 1 256 [0, 0],
    .doeRequest .a 1 1 [0],
    .deleteIoSq { aHdr with nsid := 2 ^ 32 } 1,
    .deleteIoSq aHdr 65536,
    .createIoSq aHdr 65536 2 1 1 1 true,
    .createIoSq aHdr 1 0 1 1 1 true,
    .createIoSq aHdr 1 (65536 + 1) 1 1 1 true,
    .createIoSq aHdr 1 2 65536 1 1 true,
    .createIoSq aHdr 1 2 1 4 1 true,
    .getLogPage aHdr 256 0 1 true,
    .getLogPage aHdr 1 (2 ^ 64) 1 true,
    .getLogPage aHdr 1 0 0 true,
    .getLogPage aHdr 1 0 (2 ^ 32 + 1) true,
    .deleteIoCq aHdr 65536,
    .createIoCq aHdr 65536 2 1 true 1 true,
    .createIoCq aHdr 1 0 1 true 1 true,
    .createIoCq aHdr 1 (65536 + 1) 1 true 1 true,
    .createIoCq aHdr 1 2 65536 true 1 true] : List Instr), i.wellFormed = false := by
  decide +kernel
/-- One operand out of its range, for each check: refused. -/
theorem test_illFormed_unsupportedTlp_to_abort_1 : ∀ i ∈ ([.identify aHdr 256 1,
    .identify aHdr 1 65536,
    .abort aHdr 65536 0] : List Instr), i.wellFormed = false := by
  decide +kernel
/-- From setFeaturesArbitration to getFeatures: a well-formed command of each. -/
theorem test_wellFormed_setFeaturesArbitration_to_getFeatures : ∀ i ∈ ([.setFeaturesArbitration aHdr true 0,
    .setFeaturesPowerManagement aHdr true 1 1,
    .setFeaturesTemperatureThreshold aHdr true 1 1 1,
    .setFeaturesVolatileWriteCache aHdr true true,
    .setFeaturesNumberOfQueues aHdr true 1 1,
    .setFeaturesInterruptCoalescing aHdr true 1 1,
    .setFeaturesInterruptVectorConfig aHdr true 1 true,
    .setFeaturesAsyncEventConfig aHdr true 0,
    .setFeaturesLatencyClassTable aHdr true 0 true [[1, 2, 3, 4, 5]],
    .setFeaturesQueueLatencyBinding aHdr true 1 1,
    .setFeaturesWriteCacheProtection aHdr true,
    .getFeatures aHdr 1 1 0] : List Instr), i.wellFormed = true := by
  decide +kernel
/-- One operand out of its range, for each check: refused. -/
theorem test_illFormed_setFeaturesArbitration_to_getFeatures_0 : ∀ i ∈ ([.setFeaturesPowerManagement aHdr true 32 1,
    .setFeaturesPowerManagement aHdr true 1 8,
    .setFeaturesTemperatureThreshold aHdr true 16 1 1,
    .setFeaturesTemperatureThreshold aHdr true 1 4 1,
    .setFeaturesTemperatureThreshold aHdr true 1 1 65536,
    .setFeaturesNumberOfQueues aHdr true 65536 1,
    .setFeaturesNumberOfQueues aHdr true 1 65536,
    .setFeaturesInterruptCoalescing aHdr true 256 1,
    .setFeaturesInterruptCoalescing aHdr true 1 256,
    .setFeaturesInterruptVectorConfig aHdr true 65536 true,
    .setFeaturesLatencyClassTable aHdr true 0 true [[1, 2]],
    .setFeaturesQueueLatencyBinding aHdr true 65536 1,
    .setFeaturesQueueLatencyBinding aHdr true 1 256,
    .getFeatures aHdr 256 1 0,
    .getFeatures aHdr 1 8 0] : List Instr), i.wellFormed = false := by
  decide +kernel
/-- From asynchronousEventRequest to directiveReceive: a well-formed command of each. -/
theorem test_wellFormed_asynchronousEventRequest_to_directiveReceive : ∀ i ∈ ([.asynchronousEventRequest aHdr,
    .namespaceManagementCreate aHdr aDesc,
    .namespaceManagementDelete aHdr,
    .namespaceAttachment aHdr true [1],
    .firmwareImageDownload aHdr 0 4,
    .firmwareCommitWrite aHdr 1 anImage,
    .firmwareCommitWriteSelect aHdr 1 anImage,
    .firmwareCommitSelect aHdr 1 anImage,
    .firmwareCommitActivate aHdr 1 anImage,
    .deviceSelfTest aHdr 1,
    .directiveSend aHdr 1 1 1 true 1,
    .directiveReceive aHdr 1 1 1 1] : List Instr), i.wellFormed = true := by
  decide +kernel
/-- One operand out of its range, for each check: refused. -/
theorem test_illFormed_asynchronousEventRequest_to_directiveReceive_0 : ∀ i ∈ ([.namespaceManagementCreate aHdr { aDesc with lbaf := 16 },
    .namespaceAttachment aHdr true [65536],
    .firmwareImageDownload aHdr 1 4,
    .firmwareImageDownload aHdr 0 1,
    .firmwareImageDownload aHdr 0 0,
    .firmwareCommitWrite aHdr 8 anImage,
    .firmwareCommitWriteSelect aHdr 8 anImage,
    .firmwareCommitSelect aHdr 8 anImage,
    .firmwareCommitActivate aHdr 8 anImage,
    .deviceSelfTest aHdr 16,
    .directiveSend aHdr 256 1 1 true 1,
    .directiveSend aHdr 1 256 1 true 1,
    .directiveSend aHdr 1 1 1 true 256,
    .directiveSend aHdr 1 1 65536 true 1,
    .directiveReceive aHdr 256 1 1 1,
    .directiveReceive aHdr 1 256 1 1,
    .directiveReceive aHdr 1 1 65536 1,
    .directiveReceive aHdr 1 1 1 65536,
    .namespaceManagementCreate aHdr { aDesc with nsze := 2 ^ 64 },
    .namespaceManagementCreate aHdr { aDesc with ncap := 2 ^ 64 },
    .namespaceManagementCreate aHdr { aDesc with dps := 256 },
    .namespaceManagementCreate aHdr { aDesc with nmic := 256 },
    .namespaceManagementCreate aHdr { aDesc with grainCode := 4 },
    .namespaceManagementCreate aHdr { aDesc with nguid := 2 ^ 128 }] : List Instr), i.wellFormed = false := by
  decide +kernel
/-- One operand out of its range, for each check: refused. -/
theorem test_illFormed_asynchronousEventRequest_to_directiveReceive_1 : ∀ i ∈ ([.namespaceManagementCreate aHdr { aDesc with eui := 2 ^ 64 },
    .namespaceManagementCreate aHdr { aDesc with nsid := 2 ^ 32 }] : List Instr), i.wellFormed = false := by
  decide +kernel
/-- From doorbellBufferConfig to migrationControlStart: a well-formed command of each. -/
theorem test_wellFormed_doorbellBufferConfig_to_migrationControlStart : ∀ i ∈ ([.doorbellBufferConfig aHdr 1 1,
    .formatNvm aHdr 1 true 1 1 1,
    .formatNvmCryptoErase aHdr 1 true 1 1,
    .sanitizeBlockErase aHdr true,
    .sanitizeCryptoErase aHdr true,
    .twinControlPair aHdr 1 1 true,
    .twinControlSwitch aHdr,
    .twinControlRejoin aHdr 1 1 1,
    .twinControlUnpair aHdr,
    .twinControlRelease aHdr,
    .migrationControlArm aHdr 1 1,
    .migrationControlStart aHdr true 1 1 [1]] : List Instr), i.wellFormed = true := by
  decide +kernel
/-- One operand out of its range, for each check: refused. -/
theorem test_illFormed_doorbellBufferConfig_to_migrationControlStart_0 : ∀ i ∈ ([.doorbellBufferConfig aHdr (2 ^ 64) 1,
    .doorbellBufferConfig aHdr 1 (2 ^ 64),
    .formatNvm aHdr 16 true 1 1 1,
    .formatNvm aHdr 1 true 8 1 1,
    .formatNvm aHdr 1 true 1 2 1,
    .formatNvm aHdr 1 true 1 1 8,
    .formatNvmCryptoErase aHdr 16 true 1 1,
    .formatNvmCryptoErase aHdr 1 true 8 1,
    .formatNvmCryptoErase aHdr 1 true 1 2,
    .twinControlPair aHdr 4096 1 true,
    .twinControlRejoin aHdr 4096 1 1,
    .twinControlRejoin aHdr 1 1 (2 ^ 64),
    .migrationControlArm aHdr 4096 1,
    .migrationControlStart aHdr true 4096 1 [1],
    .migrationControlStart aHdr true 1 1 [0]] : List Instr), i.wellFormed = false := by
  decide +kernel
/-- From migrationControlSeal to writeUncorrectable: a well-formed command of each. -/
theorem test_wellFormed_migrationControlSeal_to_writeUncorrectable : ∀ i ∈ ([.migrationControlSeal aHdr,
    .migrationControlAbort aHdr,
    .migrationControlStatus aHdr,
    .migrationControlResolve aHdr true,
    .sealDevice aHdr true,
    .unsealDevice aHdr,
    .sealNamespace aHdr true,
    .unsealNamespace aHdr,
    .read ioHdr 0 1 true ⟨false, false, false, false, 0, 0, 0⟩,
    .write ioHdr 0 1 true ⟨false, false, false, false, 0, 0, 0⟩ 1,
    .flush ioHdr,
    .writeUncorrectable ioHdr 0 1] : List Instr), i.wellFormed = true := by
  decide +kernel
/-- One operand out of its range, for each check: refused. -/
theorem test_illFormed_migrationControlSeal_to_writeUncorrectable_0 : ∀ i ∈ ([.read { ioHdr with nsid := 2 ^ 32 } 0 1 true ⟨false, false, false, false, 0, 0, 0⟩,
    .read ioHdr 0 0 true ⟨false, false, false, false, 0, 0, 0⟩,
    .write ioHdr 0 0 true ⟨false, false, false, false, 0, 0, 0⟩ 1,
    .write ioHdr 0 1 true ⟨false, false, false, false, 0, 0, 0⟩ 65536,
    .writeUncorrectable ioHdr 0 0,
    .flush { ioHdr with sq := 0 },
    .flush { ioHdr with sq := 65536 }] : List Instr), i.wellFormed = false := by
  decide +kernel
/-- From writeZeroes to eraseDone: a well-formed command of each. -/
theorem test_wellFormed_writeZeroes_to_eraseDone : ∀ i ∈ ([.writeZeroes ioHdr 0 1 true true ⟨false, false, false, false, 0, 0, 0⟩,
    .datasetManagement ioHdr true [(0, 1)],
    .verify ioHdr 0 1 ⟨false, false, false, false, 0, 0, 0⟩,
    .copy ioHdr 1 1 [(0, 1)] true ⟨false, false, false, false, 0, 0, 0⟩ ⟨false, false, false, false, 0, 0, 0⟩,
    .fixityDigest ioHdr 0 1 1,
    .programVerifyDone 1 1 1 true,
    .readReadyTimeout 1 true none,
    .spDieoutWrite .mgmt 1 0,
    .suspendRequest 1,
    .mapLineRestored 1 1 true,
    .eraseintDurable 1 1,
    .eraseDone 1 1 true] : List Instr), i.wellFormed = true := by
  decide +kernel
/-- One operand out of its range, for each check: refused. -/
theorem test_illFormed_writeZeroes_to_eraseDone_0 : ∀ i ∈ ([.writeZeroes ioHdr 0 0 true true ⟨false, false, false, false, 0, 0, 0⟩,
    .datasetManagement ioHdr true [],
    .datasetManagement ioHdr true (List.replicate 257 (0, 1)),
    .verify ioHdr 0 0 ⟨false, false, false, false, 0, 0, 0⟩,
    .copy ioHdr (2 ^ 64) 1 [(0, 1)] true ⟨false, false, false, false, 0, 0, 0⟩ ⟨false, false, false, false, 0, 0, 0⟩,
    .copy ioHdr 1 16 [(0, 1)] true ⟨false, false, false, false, 0, 0, 0⟩ ⟨false, false, false, false, 0, 0, 0⟩,
    .copy ioHdr 1 1 [] true ⟨false, false, false, false, 0, 0, 0⟩ ⟨false, false, false, false, 0, 0, 0⟩,
    .copy ioHdr 1 1 (List.replicate 257 (0, 1)) true ⟨false, false, false, false, 0, 0, 0⟩ ⟨false, false, false, false, 0, 0, 0⟩,
    .fixityDigest ioHdr 0 0 1,
    .fixityDigest ioHdr 0 1 256,
    .programVerifyDone 2048 1 1 true,
    .programVerifyDone 1 5461 1 true,
    .programVerifyDone 1 1 1536 true,
    .readReadyTimeout 2048 true none,
    .spDieoutWrite .mgmt 2048 0,
    .suspendRequest 2048,
    .mapLineRestored 0 1 true,
    .mapLineRestored (1024 + 1) 1 true,
    .mapLineRestored 1 (2 ^ 40) true,
    .eraseintDurable 2048 1,
    .eraseintDurable 1 5461,
    .eraseDone 2048 1 true,
    .eraseDone 1 5461 true] : List Instr), i.wellFormed = false := by
  decide +kernel
/-- From bottlingStart to ackTimer: a well-formed command of each. -/
theorem test_wellFormed_bottlingStart_to_ackTimer : ∀ i ∈ ([.bottlingStart 1 1 [(0, 1)],
    .vatSlotErase 1 1,
    .blockRefresh 1 1 [(0, 1)],
    .rebuildStart 1,
    .rebuildWordlineDone 1 1 1 true [(0, 1)],
    .retrainStep 0 true [1],
    .patchSetLoad 0 aPatch true,
    .lineCheckFailure 1 .parity,
    .staleGenerationAccess 1 1 1 true,
    .gareoLinkTrained 0 0 true 1 1 1,
    .flitReceived 0 (List.replicate 256 0),
    .ackTimer 0 1] : List Instr), i.wellFormed = true := by
  decide +kernel
/-- One operand out of its range, for each check: refused. -/
theorem test_illFormed_bottlingStart_to_ackTimer_0 : ∀ i ∈ ([.bottlingStart 2048 1 [(0, 1)],
    .bottlingStart 1 127 [(0, 1)],
    .vatSlotErase 2048 1,
    .vatSlotErase 1 127,
    .blockRefresh 2048 1 [(0, 1)],
    .blockRefresh 1 5461 [(0, 1)],
    .rebuildStart 2048,
    .rebuildWordlineDone 2048 1 1 true [(0, 1)],
    .rebuildWordlineDone 1 5461 1 true [(0, 1)],
    .rebuildWordlineDone 1 1 384 true [(0, 1)],
    .retrainStep 0 true [2048],
    .patchSetLoad 0 { aPatch with matches_ := List.replicate 33 ⟨0, 0, true⟩ } true,
    .lineCheckFailure (2 ^ 48) .parity,
    .staleGenerationAccess (2 ^ 48) 1 1 true,
    .staleGenerationAccess 1 1 256 true,
    .gareoLinkTrained 0 0 true (2 ^ 64) 1 1,
    .gareoLinkTrained 0 0 true 1 1 256,
    .gareoLinkTrained 0 0 true 1 65536 1,
    .flitReceived 0 [],
    .ackTimer 0 4096] : List Instr), i.wellFormed = false := by
  decide +kernel
/-- From frameResendTimeout to mgmt: a well-formed command of each. -/
theorem test_wellFormed_frameResendTimeout_to_mgmt : ∀ i ∈ ([.frameResendTimeout 0 1 1,
    .hello 0 1 1 1 1 1,
    .lsr 1 none none [],
    .table 1 0 [],
    .epoch 1 1,
    .resync 0 1 1,
    .ack 0 1 1,
    .nak 0 1 1 1,
    .rdreq (frm 0 1 0) 0 1,
    .rdresp (frm 0 1 0) [0],
    .writeFrame (frm 0 1 0) 0 [0],
    .mgmt (frm 0 1 0) true []] : List Instr), i.wellFormed = true := by
  decide +kernel
/-- One operand out of its range, for each check: refused. -/
theorem test_illFormed_frameResendTimeout_to_mgmt_0 : ∀ i ∈ ([.frameResendTimeout 0 4096 1,
    .frameResendTimeout 0 1 (2 ^ 32),
    .hello 0 (2 ^ 64) 1 1 1 1,
    .hello 0 1 (2 ^ 64) 1 1 1,
    .hello 0 1 1 1 65536 1,
    .hello 0 1 1 1 1 65536,
    .lsr (2 ^ 64) none none [],
    .lsr 1 none none (List.replicate 13 ⟨0, 0, 0, true⟩),
    .table 65536 0 [],
    .table 1 4097 [],
    .epoch 65536 1,
    .epoch 1 (2 ^ 64),
    .resync 0 4096 1,
    .resync 0 1 (2 ^ 32),
    .ack 0 4096 1,
    .ack 0 1 (2 ^ 32),
    .nak 0 4096 1 1,
    .nak 0 1 (2 ^ 32) 1,
    .nak 0 1 1 6,
    .rdreq { frm 0 1 0 with hops := 17 } 0 1,
    .rdreq (frm 0 1 0) 0 4097,
    .rdresp (frm 0 1 0) [],
    .writeFrame (frm 0 1 0) 0 [],
    .mgmt (frm 0 1 0) true [{ aDesc with nsid := 2 ^ 32 }]] : List Instr), i.wellFormed = false := by
  decide +kernel
/-- One operand out of its range, for each check: refused. -/
theorem test_illFormed_frameResendTimeout_to_mgmt_1 : ∀ i ∈ ([.rdresp { frm 0 1 0 with link := 12 } [0],
    .rdresp { frm 0 1 0 with vc := 4 } [0],
    .rdresp { frm 0 1 0 with ftype := 256 } [0],
    .rdresp { frm 0 1 0 with len := 4097 } [0],
    .rdresp { frm 0 1 0 with xseq := 2 ^ 32 } [0],
    .rdresp { frm 0 1 0 with tag := 2 ^ 32 } [0],
    .rdresp { frm 0 1 0 with addr := 2 ^ 64 } [0],
    .rdresp { frm 0 1 0 with src := 4096 } [0],
    .rdresp { frm 0 1 0 with dst := 4096 } [0]] : List Instr), i.wellFormed = false := by
  decide +kernel
/-- From mirrorGranules to migseg: a well-formed command of each. -/
theorem test_wellFormed_mirrorGranules_to_migseg : ∀ i ∈ ([.mirrorGranules aGrain,
    .mirrorCommitRecord 1 [],
    .mirrorXtsKey 1 1,
    .mirrorRepair true aGrain 1,
    .hb 1 1 1,
    .drainNotice 1,
    .pairreq 1 1 true 1,
    .switch 1,
    .switchack 1,
    .seedSegmentSend 1 1 [],
    .migstart 1 true [],
    .migseg aGrain] : List Instr), i.wellFormed = true := by
  decide +kernel
/-- One operand out of its range, for each check: refused. -/
theorem test_illFormed_mirrorGranules_to_migseg_0 : ∀ i ∈ ([.mirrorGranules { aGrain with glen := 256 },
    .mirrorCommitRecord (2 ^ 64) [],
    .mirrorCommitRecord 1 [{ aGrain with nsid := 0 }],
    .mirrorXtsKey 0 1,
    .mirrorXtsKey (1024 + 1) 1,
    .mirrorRepair true { aGrain with glen := 256 } 1,
    .mirrorRepair true aGrain (2 ^ 64),
    .hb (2 ^ 32) 1 1,
    .hb 1 6 1,
    .hb 1 1 (2 ^ 64),
    .drainNotice (2 ^ 64),
    .pairreq 4096 1 true 1,
    .pairreq 1 256 true 1,
    .pairreq 1 1 true (1024 + 1),
    .switch (2 ^ 64),
    .switchack (2 ^ 64),
    .seedSegmentSend 1 1 [{ aGrain with grain := 2 ^ 40 }],
    .migstart 4096 true [],
    .migstart 1 true [{ aDesc with nsid := 2 ^ 32 }],
    .migseg { aGrain with glen := 256 },
    .migseg { aGrain with nsid := 0 },
    .migseg { aGrain with nsid := 1025 },
    .migseg { aGrain with grain := 2 ^ 40 },
    .migseg { aGrain with csn := 2 ^ 64 }] : List Instr), i.wellFormed = false := by
  decide +kernel
/-- One operand out of its range, for each check: refused. -/
theorem test_illFormed_mirrorGranules_to_migseg_1 : ∀ i ∈ ([.migseg { aGrain with cause := 256 },
    .migseg { aGrain with lbas := List.replicate 17 ⟨[], []⟩ }] : List Instr), i.wellFormed = false := by
  decide +kernel
/-- From cutover to setupRegisterWrite: a well-formed command of each. -/
theorem test_wellFormed_cutover_to_setupRegisterWrite : ∀ i ∈ ([.cutover 1 1 1 1 true,
    .digestContextOpen aParams,
    .digestBlock 0 (List.replicate 128 0) true true,
    .spSubselWrite .mgmt 1,
    .sensorSample aSample,
    .eventLogFlush 1,
    .ffErase .mgmt 1,
    .readNvmeMiDataStructure 1 1 1,
    .vpdRead 0 1,
    .miTunnelledAdminCommand .a 1 1 [1] anImage,
    .setupRegisterRead 0,
    .setupRegisterWrite 0 0] : List Instr), i.wellFormed = true := by
  decide +kernel
/-- One operand out of its range, for each check: refused. -/
theorem test_illFormed_cutover_to_setupRegisterWrite_0 : ∀ i ∈ ([.cutover 0 1 1 1 true,
    .cutover (1024 + 1) 1 1 1 true,
    .cutover 1 (2 ^ 64) 1 1 true,
    .cutover 1 1 (2 ^ 128) 1 true,
    .cutover 1 1 1 (2 ^ 64) true,
    .digestContextOpen { aParams with alg := 4 },
    .digestContextOpen { aParams with prio := 256 },
    .digestBlock 0 (List.replicate 129 0) true true,
    .digestBlock 0 [] true false,
    .spSubselWrite .mgmt 256,
    .sensorSample { aSample with temps := [] },
    .sensorSample { aSample with volts := [] },
    .sensorSample { aSample with amps := [] },
    .eventLogFlush (256 + 1),
    .ffErase .mgmt (2 ^ 16),
    .readNvmeMiDataStructure 256 1 1,
    .readNvmeMiDataStructure 1 256 1,
    .readNvmeMiDataStructure 1 1 65536,
    .vpdRead 65536 1,
    .vpdRead 0 65536,
    .miTunnelledAdminCommand .a 256 1 [1] anImage,
    .miTunnelledAdminCommand .a 1 (2 ^ 32) [1] anImage,
    .miTunnelledAdminCommand .a 1 1 [2 ^ 32] anImage,
    .setupRegisterRead (2 ^ 20)] : List Instr), i.wellFormed = false := by
  decide +kernel
/-- One operand out of its range, for each check: refused. -/
theorem test_illFormed_cutover_to_setupRegisterWrite_1 : ∀ i ∈ ([.setupRegisterRead 1,
    .setupRegisterWrite (2 ^ 20) 0,
    .setupRegisterWrite 1 0] : List Instr), i.wellFormed = false := by
  decide +kernel
/-- From eventLogRead to interruptCoalescingTimeout: a well-formed command of each. -/
theorem test_wellFormed_eventLogRead_to_interruptCoalescingTimeout : ∀ i ∈ ([.eventLogRead 1 1 1,
    .eventLogAcknowledge 1,
    .getCertificate 1 1 0 1,
    .setCertificate 1 1 [] true,
    .challenge 1 1 1,
    .getMeasurements 1 1 true 1,
    .configRegisterWrite .a 0 0,
    .cmbmscWrite .a true 0,
    .interruptCoalescingTimeout .a 1] : List Instr), i.wellFormed = true := by
  decide +kernel
/-- One operand out of its range, for each check: refused. -/
theorem test_illFormed_eventLogRead_to_interruptCoalescingTimeout_0 : ∀ i ∈ ([.eventLogRead (2 ^ 32) 1 1,
    .eventLogRead 1 1 2,
    .eventLogAcknowledge (2 ^ 32),
    .getCertificate 5 1 0 1,
    .getCertificate 1 8 0 1,
    .getCertificate 1 1 65536 1,
    .getCertificate 1 1 0 65536,
    .setCertificate 5 1 [] true,
    .setCertificate 1 8 [] true,
    .challenge 5 1 1,
    .challenge 1 256 1,
    .challenge 1 1 (2 ^ 256),
    .getMeasurements 5 1 true 1,
    .getMeasurements 1 256 true 1,
    .getMeasurements 1 1 true (2 ^ 256),
    .configRegisterWrite .a 4096 0,
    .configRegisterWrite .a 1 0,
    .cmbmscWrite .a true (2 ^ 64),
    .cmbmscWrite .a true 1,
    .interruptCoalescingTimeout .a 2048] : List Instr), i.wellFormed = false := by
  decide +kernel

/-! Witnesses: the hypotheses of each clause that has any, in the order of the clauses. -/

/-- Clauses 2 of StepRunsFront. -/
theorem test_wit_StepRunsFront :
    ∃ s : State, s.pending = [] :=
  ⟨State.reset, rfl⟩

/-- Clauses 1, 2, 3, 4, 5, 6, 7, 8, 9 of PowerOnAndFailure. -/
theorem test_wit_PowerOnAndFailure :
    (∃ (lowUs : Nat) (s : State), 10 ≤ lowUs) ∧
    (∃ (lowUs : Nat) (s : State), lowUs < 10) ∧
    (∃ (pwrHighUs : Nat) (s : State), s.pins.porN = false ∧ s.gen.mode = .reset ∧ 1000 ≤ pwrHighUs) ∧
    (∃ (lowNs : Nat) (s : State), 1000 ≤ lowNs ∧ mediaMode s.gen.mode = true) ∧
    (∃ (lowNs : Nat) (s : State), 1000 ≤ lowNs ∧ (s.gen.mode = .boot ∨ s.gen.mode = .recovery ∨ s.gen.mode = .provision)) ∧
    (∃ (lowNs : Nat) (s : State), lowNs < 1000) ∧
    (∃ (s : State), s.gen.mode ≠ .reset) ∧
    (∃ (highUs : Nat) (s : State), s.gen.mode = .reset ∧ s.pins.porN = true ∧ 1000 ≤ highUs) ∧
    (∃ (s : State), s.gen.mode = .drain ∧ s.pins.pwrFailN = false ∧ s.fi.armed = false) :=
  ⟨⟨10, State.reset, by decide +kernel⟩,
    ⟨9, State.reset, by decide +kernel⟩,
    ⟨1000, State.reset, by decide +kernel⟩,
    ⟨1000, inMode .service, by decide +kernel⟩,
    ⟨1000, inMode .boot, by decide +kernel⟩,
    ⟨999, State.reset, by decide +kernel⟩,
    ⟨inMode .drain, by decide +kernel⟩,
    ⟨1000, { State.reset with pins := { Pins.reset with porN := true } }, by decide +kernel⟩,
    ⟨inMode .drain, by decide +kernel⟩⟩

/-- Clauses 1, 2, 3, 4, 5, 6, 7, 8, 9 of FenceAndSyncPins. -/
theorem test_wit_FenceAndSyncPins :
    (∃ (s : State), s.gen.mode ≠ .reset ∧ s.gen.mode ≠ .drain ∧ s.gen.mode ≠ .quarantine) ∧
    (∃ (s : State), (s.gen.mode = .reset ∨ s.gen.mode = .drain ∨ s.gen.mode = .quarantine)) ∧
    (∃ (s : State), s.gen.mode = .quarantine ∧ s.tw.st = .fenced ∧ s.pins.porN = true ∧ s.pins.pwrFailN = true) ∧
    (∃ (s : State), (s.tw.st ≠ .fenced ∨ s.gen.mode ≠ .quarantine)) ∧
    (∃ (heldNs : Nat) (s : State), 100 ≤ heldNs) ∧
    (∃ (heldNs : Nat) (s : State), heldNs < 100) ∧
    (∃ (s : State), isOn Reg.GF_CFG.TSYNCEN s = true ∧ s.gen.mode ≠ .reset ∧ now s % 1000000000 ≤ 4000) ∧
    (∃ (s : State), isOn Reg.GF_CFG.TSYNCEN s = true ∧ s.gen.mode ≠ .reset ∧ 4000 < now s % 1000000000 ∧ now s % 1000000000 < 999996000) ∧
    (∃ (s : State), isOn Reg.GF_CFG.TSYNCEN s = true ∧ s.gen.mode ≠ .reset ∧ 999996000 ≤ now s % 1000000000) :=
  ⟨⟨inMode .service, by decide +kernel⟩,
    ⟨inMode .drain, by decide +kernel⟩,
    ⟨{ inMode .quarantine with tw := { Tw.reset with st := .fenced }, pins := { Pins.reset with porN := true, pwrFailN := true } },
        by decide +kernel⟩,
    ⟨inMode .service, by decide +kernel⟩,
    ⟨100, State.reset, by decide +kernel⟩,
    ⟨99, State.reset, by decide +kernel⟩,
    ⟨setF Reg.GF_CFG.TSYNCEN 1 (inMode .service), by decide +kernel⟩,
    ⟨setF Reg.GF_CFG.TSYNCEN 1 { inMode .service with time := ⟨500000000, 500000000, 0⟩ }, by decide +kernel⟩,
    ⟨setF Reg.GF_CFG.TSYNCEN 1 { inMode .service with time := ⟨999999000, 999999000, 0⟩ }, by decide +kernel⟩⟩

/-- Clauses 1, 2, 3, 4, 5, 6, 7, 8 of HoldUpSupply. -/
theorem test_wit_HoldUpSupply :
    (∃ (s : State), isOn Reg.GEN_HOLDUP.VERIFIED s = true) ∧
    (∃ (s : State), isOn Reg.GEN_HOLDUP.VERIFIED s = false) ∧
    (∃ (s : State), s.gen.mode ≠ .reset ∧ s.gen.mode ≠ .drain) ∧
    (∃ (mv : Nat) (s : State), isOn Reg.GEN_HOLDUP.VERIFIED s = true ∧ holdupEnergy mv s.mg.capDen s < 3000) ∧
    (∃ (mv : Nat) (s : State), (isOn Reg.GEN_HOLDUP.VERIFIED s = false ∨ 3000 ≤ holdupEnergy mv s.mg.capDen s)) ∧
    (∃ (s : State), s.gen.mode ≠ .reset ∧ s.gen.mode ≠ .drain) ∧
    (∃ (dvTenthMv : Nat) (v0 : Nat) (s : State), s.mg.verifying = some v0 ∧ s.pins.huGood = true ∧ 3000 ≤ holdupEnergy v0 (dvTenthMv + 1) s) ∧
    (∃ (dvTenthMv : Nat) (v0 : Nat) (s : State), s.mg.verifying = some v0 ∧ isOn Reg.GEN_HOLDUP.VERIFIED s = true ∧
        holdupEnergy v0 (dvTenthMv + 1) s < 3000) :=
  ⟨⟨flagOn Reg.GEN_HOLDUP.VERIFIED (inMode .service), by decide +kernel⟩,
    ⟨State.reset, by decide +kernel⟩,
    ⟨inMode .service, by decide +kernel⟩,
    ⟨0, flagOn Reg.GEN_HOLDUP.VERIFIED (inMode .service), by decide +kernel⟩,
    ⟨0, State.reset, by decide +kernel⟩,
    ⟨inMode .service, by decide +kernel⟩,
    ⟨0, 20000, { inMode .service with mg := { Mg.reset with verifying := some 20000 } }, by decide +kernel⟩,
    ⟨0, 0, { flagOn Reg.GEN_HOLDUP.VERIFIED (inMode .service) with mg := { Mg.reset with verifying := some 0 } }, by decide +kernel⟩⟩

/-- Clauses 1, 3, 4, 5 of ClocksAndDramLost. -/
theorem test_wit_ClocksAndDramLost :
    (∃ (p : Port) (s : State), (s.port p).up = true ∧ (s.port p).l12 = false) ∧
    (∃ (s : State), s.gen.mode ≠ .reset ∧ s.gen.mode ≠ .drain ∧ s.gen.mode ≠ .quarantine) ∧
    (∃ (channel : Fin 8) (s : State), dramFatalMode s.gen.mode = true ∧ s.me.chOk.testBit channel.val = true) ∧
    (∃ (channel : Fin 8) (s : State), dramFatalMode s.gen.mode = false ∧ s.me.chOk.testBit channel.val = true) :=
  ⟨⟨.a, { State.reset with he := ⟨{ HostPort.reset with up := true }, .reset⟩ }, by decide +kernel⟩,
    ⟨inMode .service, by decide +kernel⟩,
    ⟨0, { inMode .service with me := { Me.reset with chOk := 255 } }, by decide +kernel⟩,
    ⟨0, { inMode .boot with me := { Me.reset with chOk := 255 } }, by decide +kernel⟩⟩

/-- Clauses 1, 2, 3, 4 of BootVerification. -/
theorem test_wit_BootVerification :
    (∃ (slot1 : SlotImage) (s : State), s.gen.mode = .boot ∧ s.gen.bootVerified = false ∧ s.gen.bootRow ≠ 5 ∧ s.ff.half = [] ∧
        s.ff.selBlock = 0 ∧ verifyImage slot1 s = 0) ∧
    (∃ (slot1 : SlotImage) (slot2 : SlotImage) (s : State), s.gen.mode = .boot ∧ s.gen.bootVerified = false ∧ s.gen.bootRow ≠ 5 ∧
        s.ff.half = [] ∧ s.ff.selBlock = 0 ∧ verifyImage slot1 s ≠ 0 ∧ verifyImage slot2 s = 0) ∧
    (∃ (slot1 : SlotImage) (slot2 : SlotImage) (s : State), s.gen.mode = .boot ∧ s.gen.bootVerified = false ∧ s.gen.bootRow ≠ 5 ∧
        s.ff.half = [] ∧ s.ff.selBlock = 0 ∧ verifyImage slot1 s ≠ 0 ∧ verifyImage slot2 s ≠ 0) ∧
    (∃ (s : State), s.gen.mode = .boot ∧ s.gen.bootVerified = true ∧ s.gen.hostReleased = false) :=
  ⟨⟨⟨true, 0x5A5AC33C, 0xA5A53CC3, true, false, none, false, 0, false, 0, [], 0⟩, inMode .boot, by decide +kernel⟩,
    ⟨⟨false, 0x5A5AC33C, 0xA5A53CC3, true, false, none, false, 0, false, 0, [], 0⟩, ⟨true, 0x5A5AC33C, 0xA5A53CC3, true, false, none, false,
        0, false, 0, [], 0⟩, inMode .boot, by decide +kernel⟩,
    ⟨⟨false, 0x5A5AC33C, 0xA5A53CC3, true, false, none, false, 0, false, 0, [], 0⟩, ⟨false, 0x5A5AC33C, 0xA5A53CC3, true, false, none,
        false, 0, false, 0, [], 0⟩, inMode .boot, by decide +kernel⟩,
    ⟨{ inMode .boot with gen := { Gen.reset with mode := .boot, bootVerified := true } }, by decide +kernel⟩⟩

/-- Clauses 1, 2, 3, 4, 5 of MediaAndDramTraining. -/
theorem test_wit_MediaAndDramTraining :
    (∃ (s : State), trainMode s.gen.mode = true) ∧
    (∃ (failedTwice : Option TrainStep) (s : State), trainMode s.gen.mode = true ∧ failedTwice = none ∧ s.prov.valid = false) ∧
    (∃ (failedTwice : Option TrainStep) (step : TrainStep) (s : State), trainMode s.gen.mode = true ∧ failedTwice = some step ∧
        s.prov.valid = false) ∧
    (∃ (s : State), s.gen.mode = .boot ∧ s.prov.valid = true ∧ s.prov.pair = none) ∧
    (∃ (s : State), s.gen.mode = .boot ∧ s.prov.valid = true) :=
  ⟨⟨inMode .boot, by decide +kernel⟩,
    ⟨none, inMode .boot, by decide +kernel⟩,
    ⟨some .zq, .zq, inMode .boot, by decide +kernel⟩,
    ⟨{ inMode .boot with prov := { Prov.reset with valid := true } }, by decide +kernel⟩,
    ⟨{ inMode .boot with prov := { Prov.reset with valid := true } }, by decide +kernel⟩⟩

/-- Clauses 1, 2, 3, 4, 5, 6, 7, 8, 9 of MapRecoveryAndStart. -/
theorem test_wit_MapRecoveryAndStart :
    (∃ (s : State), s.gen.mode = .boot ∧ s.prov.valid = true ∧ getF Reg.GEN_START.KIND s = 1 ∧ s.mx.recovered = false) ∧
    (∃ (s : State), getF Reg.GEN_START.KIND s ≠ 1) ∧
    (∃ (die : Nat) (block : Nat) (blankPass1 : Bool) (blankPass2 : Bool) (s : State), s.mx.redo.contains (die, block) = true ∧ (blankPass1 =
        true ∨ blankPass2 = true)) ∧
    (∃ (s : State), s.gen.mode = .boot ∧ s.prov.valid = true ∧ s.sp.stripesDone = false) ∧
    (∃ (s : State), s.gen.mode = .boot ∧ s.gen.bootRow = 5) ∧
    (∃ (s : State), s.gen.mode = .boot ∧ s.gen.bootRow = 4 ∧ s.gen.bootVerified = true) ∧
    (∃ (s : State), s.gen.mode = .boot ∧ s.gen.bootRow = 0 ∧ s.gen.bootVerified = true ∧ s.pins.fenceIn = true) ∧
    (∃ (s : State), s.gen.mode = .boot ∧ s.gen.bootRow = 0 ∧ s.gen.bootVerified = true ∧ s.pins.fenceIn = false ∧ s.prov.valid = false) ∧
    (∃ (s : State), s.gen.mode = .boot ∧ s.gen.bootRow = 0 ∧ s.gen.bootVerified = true ∧ s.pins.fenceIn = false ∧ s.prov.valid = true ∧
        s.prov.migMark ≠ 1 ∧ startMode s ≠ .ingest) :=
  ⟨⟨setF Reg.GEN_START.KIND 1 { inMode .boot with prov := { Prov.reset with valid := true } }, by decide +kernel⟩,
    ⟨State.reset, by decide +kernel⟩,
    ⟨3, 4, true, false, { State.reset with mx := { Mx.reset with redo := [(3, 4)] } }, by decide +kernel⟩,
    ⟨{ inMode .boot with prov := { Prov.reset with valid := true } }, by decide +kernel⟩,
    ⟨{ inMode .boot with gen := { Gen.reset with mode := .boot, bootRow := 5 } }, by decide +kernel⟩,
    ⟨{ inMode .boot with gen := { Gen.reset with mode := .boot, bootRow := 4, bootVerified := true } }, by decide +kernel⟩,
    ⟨{ inMode .boot with gen := { Gen.reset with mode := .boot, bootVerified := true }, pins := { Pins.reset with fenceIn := true } },
        by decide +kernel⟩,
    ⟨{ inMode .boot with gen := { Gen.reset with mode := .boot, bootVerified := true } }, by decide +kernel⟩,
    ⟨{ inMode .boot with gen := { Gen.reset with mode := .boot, bootVerified := true }, prov := { Prov.reset with valid := true } },
        by decide +kernel⟩⟩

/-- Clauses 1, 2, 3, 4, 5, 6, 7, 8, 9 of ResetRequests. -/
theorem test_wit_ResetRequests :
    (∃ (who : Writer) (key : BitVec 16) (s : State), who = .mgmt ∧ key = 0x7B4D ∧ s.gen.holder = .mgmt ∧ s.gen.mode ≠ .reset ∧
        s.gen.mode ≠ .drain ∧ ((s.gen.mode = .quarantine → s.pins.fenceIn = false))) ∧
    (∃ (who : Writer) (s : State), holds who s = false) ∧
    (∃ (who : Writer) (key : BitVec 16) (s : State), holds who s = true ∧ key = 0x7B4D ∧ s.gen.mode ≠ .reset ∧ s.gen.mode ≠ .drain) ∧
    (∃ (who : Writer) (s : State), holds who s = false) ∧
    (∃ (s : State), s.mg.run = true ∧ s.gen.mode ≠ .reset ∧ s.gen.mode ≠ .drain) ∧
    (∃ (s : State), s.gen.mode ≠ .reset ∧ s.gen.mode ≠ .drain) ∧
    (∃ (s : State), s.mg.run = false) ∧
    (∃ (who : Writer) (key : BitVec 16) (s : State), holds who s = true ∧ (who = .host ∨ key ≠ 0x7B4D)) ∧
    (∃ (who : Writer) (key : BitVec 16) (s : State), holds who s = true ∧ key ≠ 0x7B4D) :=
  ⟨⟨.mgmt, 0x7B4D,
        { State.reset with gen := { Gen.reset with mode := .recovery, holder := .mgmt }, pins := { Pins.reset with porN := true, pwrFailN := true } },
        by decide +kernel⟩,
    ⟨.host, inMode .service, by decide +kernel⟩,
    ⟨.mgmt, 0x7B4D, { State.reset with gen := { Gen.reset with mode := .service, holder := .mgmt } }, by decide +kernel⟩,
    ⟨.host, inMode .service, by decide +kernel⟩,
    ⟨{ inMode .service with mg := { Mg.reset with run := true, resets := [0, 0] } }, by decide +kernel⟩,
    ⟨{ inMode .diagnostic with mg := { Mg.reset with run := true, resets := [0] } }, by decide +kernel⟩,
    ⟨State.reset, by decide +kernel⟩,
    ⟨.mgmt, 0, { State.reset with gen := { Gen.reset with mode := .service, holder := .mgmt } }, by decide +kernel⟩,
    ⟨.mgmt, 0, { State.reset with gen := { Gen.reset with mode := .service, holder := .mgmt } }, by decide +kernel⟩⟩

/-- Clauses 1, 2, 3, 4, 5, 6, 7 of HostSideResets. -/
theorem test_wit_HostSideResets :
    (∃ (s : State), hostResetMode s.gen.mode = true) ∧
    (∃ (port : Port) (s : State), hostResetMode s.gen.mode = true ∧ portExists port s = true) ∧
    (∃ (port : Port) (iosqes : Nat) (iocqes : Nat) (mps : Nat) (ams : Nat) (asqs : Nat) (acqs : Nat) (s : State), portExists port s = true ∧
        s.gen.hostReleased = true ∧ (s.port port).d3hot = false ∧ (s.con port).en = false ∧ hostResetMode s.gen.mode = true ∧
        ccInvalid iosqes iocqes mps ams asqs acqs = false) ∧
    (∃ (port : Port) (iosqes : Nat) (iocqes : Nat) (mps : Nat) (ams : Nat) (asqs : Nat) (acqs : Nat) (s : State), portExists port s = true ∧
        s.gen.hostReleased = true ∧ (s.port port).d3hot = false ∧ (s.con port).en = false ∧ hostResetMode s.gen.mode = true ∧
        ccInvalid iosqes iocqes mps ams asqs acqs = true) ∧
    (∃ (port : Port) (s : State), hostResetMode s.gen.mode = true ∧ (s.con port).en = true ∧ (s.port port).d3hot = false) ∧
    (∃ (port : Port) (shn : BitVec 2) (s : State), hostResetMode s.gen.mode = true ∧ portExists port s = true ∧ s.gen.mode ≠ .quarantine ∧
        (shn = 1 ∨ shn = 2) ∧ (s.port port).d3hot = false) ∧
    (∃ (port : Port) (shn : BitVec 2) (s : State), hostResetMode s.gen.mode = true ∧ portExists port s = true ∧ s.gen.mode ≠ .quarantine ∧
        shn ≠ 1 ∧ shn ≠ 2 ∧ (s.port port).d3hot = false) :=
  ⟨⟨inMode .service, by decide +kernel⟩,
    ⟨.a, inMode .service, by decide +kernel⟩,
    ⟨.a, 6, 4, 0, 0, 1, 1, released .service, by decide +kernel⟩,
    ⟨.a, 0, 4, 0, 0, 1, 1, released .service, by decide +kernel⟩,
    ⟨.a, { inMode .service with ctl := ⟨{ Ctl.reset with en := true }, .reset⟩ }, by decide +kernel⟩,
    ⟨.a, 1, inMode .service, by decide +kernel⟩,
    ⟨.a, 0, inMode .service, by decide +kernel⟩⟩

/-- Clauses 1, 2, 3, 4, 5, 6, 7, 8, 9, 10, 11, 13 of ModeRequests. -/
theorem test_wit_ModeRequests :
    (∃ (who : Writer) (key : BitVec 16) (s : State), holds who s = true ∧ s.gen.mode = .service ∧ key = 0xA1A1) ∧
    (∃ (who : Writer) (key : BitVec 16) (s : State), holds who s = true ∧ s.gen.mode = .service ∧ key = 0x5E5E ∧ s.gen.reqTarget =
        some .diagnostic) ∧
    (∃ (who : Writer) (key : BitVec 16) (s : State), holds who s = true ∧ s.gen.mode ≠ .service ∧ key ≠ 0) ∧
    (∃ (who : Writer) (s : State), holds who s = false) ∧
    (∃ (s : State), s.gen.mode = .service ∧ s.gen.diagPending = true ∧ boundedDone s = true) ∧
    (∃ (s : State), (s.gen.mode ≠ .service ∨ s.gen.diagPending = false ∨ boundedDone s = false)) ∧
    (∃ (who : Writer) (key : BitVec 16) (s : State), holds who s = true ∧ s.gen.mode = .diagnostic ∧ key = 0x5E5E) ∧
    (∃ (who : Writer) (key : BitVec 16) (s : State), holds who s = true ∧ s.gen.mode ≠ .diagnostic ∧ key ≠ 0) ∧
    (∃ (who : Writer) (key : BitVec 16) (s : State), holds who s = true ∧ hostResetMode s.gen.mode = true ∧ s.gen.mode ≠ .quarantine ∧ key =
        0x5E5E) ∧
    (∃ (who : Writer) (key : BitVec 16) (s : State), holds who s = true ∧ s.gen.mode = .service ∧ s.ns = [] ∧ key = 0x5E5E ∧
        s.gen.reqTarget = some .provision) ∧
    (∃ (who : Writer) (key : BitVec 16) (s : State), holds who s = true ∧ s.gen.mode = .service ∧ s.ns ≠ [] ∧ key ≠ 0) ∧
    (∃ (who : Writer) (key : BitVec 16) (s : State), holds who s = true ∧ key = 0) :=
  ⟨⟨.mgmt, 0xA1A1, { State.reset with gen := { Gen.reset with mode := .service, holder := .mgmt } }, by decide +kernel⟩,
    ⟨.mgmt, 0x5E5E, { State.reset with gen := { Gen.reset with mode := .service, holder := .mgmt, reqTarget := some .diagnostic } },
        by decide +kernel⟩,
    ⟨.mgmt, 0x5E5E, { State.reset with gen := { Gen.reset with mode := .diagnostic, holder := .mgmt } }, by decide +kernel⟩,
    ⟨.host, { State.reset with gen := { Gen.reset with mode := .service, holder := .mgmt } }, by decide +kernel⟩,
    ⟨{ inMode .service with gen := { Gen.reset with mode := .service, diagPending := true } }, by decide +kernel⟩,
    ⟨State.reset, by decide +kernel⟩,
    ⟨.mgmt, 0x5E5E, { State.reset with gen := { Gen.reset with mode := .diagnostic, holder := .mgmt } }, by decide +kernel⟩,
    ⟨.mgmt, 0x5E5E, { State.reset with gen := { Gen.reset with mode := .service, holder := .mgmt } }, by decide +kernel⟩,
    ⟨.mgmt, 0x5E5E, { State.reset with gen := { Gen.reset with mode := .service, holder := .mgmt } }, by decide +kernel⟩,
    ⟨.mgmt, 0x5E5E, { State.reset with gen := { Gen.reset with mode := .service, holder := .mgmt, reqTarget := some .provision } },
        by decide +kernel⟩,
    ⟨.mgmt, 0x5E5E, { State.reset with gen := { Gen.reset with mode := .service, holder := .mgmt }, ns := [aNs] }, by decide +kernel⟩,
    ⟨.mgmt, 0, { State.reset with gen := { Gen.reset with mode := .service, holder := .mgmt } }, by decide +kernel⟩⟩

/-- Clauses 1, 2, 3, 4, 5, 6, 7, 8, 9, 11, 12, 13 of ProvisioningAndToken. -/
theorem test_wit_ProvisioningAndToken :
    (∃ (who : Writer) (s : State), s.gen.mode = .provision ∧ holds who s = true ∧ commitBad s = false ∧ worstStartup s ≤ 55000) ∧
    (∃ (who : Writer) (s : State), s.gen.mode = .provision ∧ holds who s = true ∧ commitBad s = true) ∧
    (∃ (s : State), s.gen.mode ≠ .provision) ∧
    (∃ (s : State), s.gen.holder = .none) ∧
    (∃ (who : Writer) (s : State), s.gen.holder ≠ .none ∧ holds who s = false) ∧
    (∃ (who : Writer) (s : State), holds who s = true) ∧
    (∃ (who : Writer) (s : State), holds who s = true) ∧
    (∃ (who : Writer) (s : State), holds who s = false) ∧
    (∃ (s : State), s.gen.holder ≠ .mgmt) ∧
    (∃ (who : Writer) (s : State), holds who s = true) ∧
    (∃ (who : Writer) (s : State), holds who s = false) ∧
    (∃ (who : Writer) (s : State), s.gen.mode = .provision ∧ holds who s = true ∧ commitBad s = false) :=
  ⟨⟨.mgmt, refDevice, by decide +kernel⟩,
    ⟨.mgmt, { State.reset with gen := { Gen.reset with mode := .provision, holder := .mgmt } }, by decide +kernel⟩,
    ⟨State.reset, by decide +kernel⟩,
    ⟨{ State.reset with gen := { Gen.reset with holder := .none } }, by decide +kernel⟩,
    ⟨.host, { State.reset with gen := { Gen.reset with mode := .service, holder := .mgmt } }, by decide +kernel⟩,
    ⟨.mgmt, { State.reset with gen := { Gen.reset with mode := .service, holder := .mgmt } }, by decide +kernel⟩,
    ⟨.mgmt, { State.reset with gen := { Gen.reset with mode := .service, holder := .mgmt } }, by decide +kernel⟩,
    ⟨.host, { State.reset with gen := { Gen.reset with mode := .service, holder := .mgmt } }, by decide +kernel⟩,
    ⟨{ State.reset with gen := { Gen.reset with holder := .host } }, by decide +kernel⟩,
    ⟨.mgmt, { State.reset with gen := { Gen.reset with mode := .service, holder := .mgmt } }, by decide +kernel⟩,
    ⟨.host, { State.reset with gen := { Gen.reset with mode := .service, holder := .mgmt } }, by decide +kernel⟩,
    ⟨.mgmt, refDevice, by decide +kernel⟩⟩

/-- Clauses 1, 2, 3, 4, 5, 6, 7, 11, 12, 13, 14, 15, 16, 17, 19 of SetupRegisters. -/
theorem test_wit_SetupRegisters :
    (∃ (who : Writer) (offset : Nat) (s : State), who = .host ∧ memOpen (offPort offset) s = false) ∧
    (∃ (who : Writer) (offset : Nat) (poisoned : Bool) (s : State), who = .host ∧ memOpen (offPort offset) s = true ∧ poisoned = true) ∧
    (∃ (s : State), setupOpen .mgmt s = true ∧ holds .mgmt s = true) ∧
    (∃ (s : State), setupOpen .mgmt s = true ∧ holds .mgmt s = false) ∧
    (∃ (value : Word) (s : State), setupOpen .mgmt s = true ∧ holds .mgmt s = true ∧ blocksEnabled s = true ∧
        value.toNat % 2 ≠ getF Reg.DC_CFG.SHAPEPOL s) ∧
    (∃ (who : Writer) (offset : Nat) (s : State), setupOpen who s = true ∧ ((who = .host → memOpen (offPort offset) s = true)) ∧ offset =
        Reg.MX_CSNLO.CSN.reg) ∧
    (∃ (who : Writer) (s : State), setupOpen who s = false) ∧
    (∃ (boundary : Nat) (value : Nat) (s : State), s.fs.horizon = [(boundary, Reg.FS_CFG.WINRDS.key, value)] ∧ boundary < fretNow s) ∧
    (∃ (port : Port) (s : State), portExists port s = true ∧ heAnswers s = true) ∧
    (∃ (who : Writer) (offset : Nat) (poisoned : Bool) (s : State), setupOpen who s = true ∧ ((who = .host → memOpen (offPort offset) s =
        true ∧ poisoned = false)) ∧ offset < 2 ^ 21 ∧ 0x80000 ≤ offset % 2 ^ 20) ∧
    (∃ (offset : Nat) (s : State), setupOpen .mgmt s = true ∧ 0x10080000 ≤ offset ∧ offset < 0x10100000 ∧ isRemote offset = false) ∧
    (∃ (offset : Nat) (s : State), setupOpen .mgmt s = true ∧ 2 ^ 21 ≤ offset ∧ addrKind offset s = .unmapped) ∧
    (∃ (who : Writer) (offset : Nat) (s : State), setupOpen who s = true ∧ ((who = .host → memOpen (offPort offset) s = true)) ∧
        offset < 2 ^ 21) ∧
    (∃ (who : Writer) (offset : Nat) (s : State), setupOpen who s = true ∧ who = .host ∧ memOpen (offPort offset) s = false ∧
        portExists (offPort offset) s = true ∧ heAnswers s = true) ∧
    (∃ (port : Port) (s : State), portExists port s = true ∧ s.gen.hostReleased = false ∧ s.gen.mode ≠ .reset) :=
  ⟨⟨.host, 0, State.reset, by decide +kernel⟩,
    ⟨.host, 0, true, { released .service with he := ⟨{ HostPort.reset with command := 2 }, .reset⟩ }, by decide +kernel⟩,
    ⟨{ State.reset with gen := { Gen.reset with mode := .service, holder := .mgmt } }, by decide +kernel⟩,
    ⟨{ inMode .service with gen := { (inMode .service).gen with holder := .host } }, by decide +kernel⟩,
    ⟨0, { State.reset with gen := { Gen.reset with mode := .service, holder := .mgmt } }, by decide +kernel⟩,
    ⟨.mgmt, Reg.MX_CSNLO.CSN.reg, inMode .service, by decide +kernel⟩,
    ⟨.host, State.reset, by decide +kernel⟩,
    ⟨0, 3, { inMode .service with fs := { Fs.reset with horizon := [(0, Reg.FS_CFG.WINRDS.key, 3)] }, time := ⟨3200000, 3200000, 0⟩ },
        by decide +kernel⟩,
    ⟨.a, released .service, by decide +kernel⟩,
    ⟨.mgmt, 0xA8008, false, { inMode .service with gen := { (inMode .service).gen with holder := .mgmt } }, by decide +kernel⟩,
    ⟨0x100A8008, { inMode .service with gen := { (inMode .service).gen with holder := .mgmt } }, by decide +kernel⟩,
    ⟨0x3000000, inMode .service, by decide +kernel⟩,
    ⟨.mgmt, 0x80004, inMode .service, by decide +kernel⟩,
    ⟨.host, 0x80004, released .service, by decide +kernel⟩,
    ⟨.a, inMode .boot, by decide +kernel⟩⟩

/-- Clauses 1, 2, 3, 4, 5, 6, 7, 8, 9, 10, 11, 12, 13, 14, 15, 16 of DoorbellsAndFetch. -/
theorem test_wit_DoorbellsAndFetch :
    (∃ (port : Port) (qid : Nat) (value : Nat) (poisoned : Bool) (q : Sq) (s : State), doorbellTaken port poisoned s = true ∧
        (s.con port).sqs.find? (fun x => x.qid == qid) = some q ∧ value < q.size ∧ lowState s = none ∧
        ((s.con port).shadow.isSome && !(s.con port).polling) = false) ∧
    (∃ (port : Port) (poisoned : Bool) (s : State), memOpen port s = true ∧ poisoned = true) ∧
    (∃ (port : Port) (s : State), memOpen port s = false) ∧
    (∃ (port : Port) (qid : Nat) (value : Nat) (poisoned : Bool) (q : Cq) (s : State), doorbellTaken port poisoned s = true ∧
        (s.con port).cqs.find? (fun x => x.qid == qid) = some q ∧ value < q.size ∧ q.held = [] ∧ lowState s = none ∧
        ((s.con port).shadow.isSome && !(s.con port).polling) = false ∧ (s.con port).sqs.filter (fun x => x.deleting.isSome) = []) ∧
    (∃ (port : Port) (q : Sq) (s : State), rdy port s = true ∧ s.gen.mode ≠ .lowpower ∧ fetchRoom port s = true ∧
        (s.con port).sqs.find? (fun x => x.qid == 0 && x.ready) = some q ∧ inCmb port (q.base + 64 * q.head) s = false) ∧
    (∃ (port : Port) (s : State), (rdy port s = false ∨ s.gen.mode = .lowpower ∨ fetchRoom port s = false)) ∧
    (∃ (port : Port) (s : State), rdy port s = true ∧ (s.con port).shadow.isSome = true ∧ (s.con port).polling = true ∧
        (s.con port).pollOut = false ∧ pollReads port s ≠ [] ∧ (s.port port).tags.length + (pollReads port s).length ≤ tagLimit port s) ∧
    (∃ (port : Port) (s : State), (s.con port).pollOut = false) ∧
    (∃ (port : Port) (s : State), (s.con port).pollOut = true) ∧
    (∃ (port : Port) (idleUs : Nat) (s : State), (s.con port).shadow.isSome = true ∧ (s.con port).polling = true ∧ ((100 ≤ idleUs ∧
        portBusy port s = false) ∨ s.gen.mode = .lowpower)) ∧
    (∃ (port : Port) (qid : Nat) (value : Nat) (poisoned : Bool) (q : Sq) (s : State), doorbellTaken port poisoned s = true ∧
        (s.con port).sqs.find? (fun x => x.qid == qid) = some q ∧ value < q.size) ∧
    (∃ (port : Port) (qid : Nat) (poisoned : Bool) (s : State), doorbellTaken port poisoned s = true ∧
        (s.con port).sqs.find? (fun x => x.qid == qid) = none) ∧
    (∃ (port : Port) (qid : Nat) (value : Nat) (poisoned : Bool) (q : Cq) (s : State), doorbellTaken port poisoned s = true ∧
        (s.con port).cqs.find? (fun x => x.qid == qid) = some q ∧ value < q.size) ∧
    (∃ (port : Port) (q : Sq) (s : State), rdy port s = true ∧ s.gen.mode ≠ .lowpower ∧ fetchRoom port s = true ∧
        (s.con port).sqs.find? (fun x => x.qid == 0 && x.ready) = some q) ∧
    (∃ (port : Port) (q : Sq) (c : Ctl) (s : State), rdy port s = true ∧ s.gen.mode ≠ .lowpower ∧ fetchRoom port s = true ∧
        (s.con port).sqs.find? (fun x => x.qid == 0 && x.ready) = none ∧
        arbitrate { s.con port with sqs := (s.con port).sqs.filter (fun x => !s.cmds.any (fun c => decide (c.port = port ∧ c.sq = x.qid ∧ c.stage = .waiting))) } =
        some (q, c)) ∧
    (∃ (port : Port) (idleUs : Nat) (s : State), ((s.con port).shadow.isSome = false ∨ (s.con port).polling = false ∨ (idleUs < 100 ∧
        s.gen.mode ≠ .lowpower))) :=
  ⟨⟨.a, 0, 2, false, adminSq 3 0,
        { released .service with he := ⟨{ HostPort.reset with command := 2 }, .reset⟩, ctl := ⟨{ Ctl.reset with en := true, sqs := [adminSq 3 0], cqs := [adminCq 3 0] }, .reset⟩ },
        by decide +kernel⟩,
    ⟨.a, true,
        { released .service with he := ⟨{ HostPort.reset with command := 2 }, .reset⟩, ctl := ⟨{ Ctl.reset with en := true, sqs := [adminSq 3 0], cqs := [adminCq 3 0] }, .reset⟩ },
        by decide +kernel⟩,
    ⟨.a, inMode .service, by decide +kernel⟩,
    ⟨.a, 0, 2, false, adminCq 3 0,
        { released .service with he := ⟨{ HostPort.reset with command := 2 }, .reset⟩, ctl := ⟨{ Ctl.reset with en := true, sqs := [adminSq 3 0], cqs := [adminCq 3 0] }, .reset⟩ },
        by decide +kernel⟩,
    ⟨.a, { adminSq 3 0 with tail := 1 },
        { released .service with he := ⟨{ HostPort.reset with command := 2 }, .reset⟩, ctl := ⟨{ Ctl.reset with en := true, sqs := [{ adminSq 3 0 with tail := 1 }], cqs := [adminCq 3 0] }, .reset⟩ },
        by decide +kernel⟩,
    ⟨.a, State.reset, by decide +kernel⟩,
    ⟨.a,
        { released .service with he := ⟨{ HostPort.reset with command := 2 }, .reset⟩, ctl := ⟨{ Ctl.reset with en := true, shadow := some (0, 0), polling := true, sqs := [{ adminSq 3 0 with polled := true }], cqs := [adminCq 3 0] }, .reset⟩ },
        by decide +kernel⟩,
    ⟨.a, State.reset, by decide +kernel⟩,
    ⟨.a, { State.reset with ctl := ⟨{ Ctl.reset with pollOut := true }, .reset⟩ }, by decide +kernel⟩,
    ⟨.a, 100,
        { released .service with he := ⟨{ HostPort.reset with command := 2 }, .reset⟩, ctl := ⟨{ Ctl.reset with en := true, shadow := some (0, 0), polling := true, sqs := [{ adminSq 3 0 with polled := true }], cqs := [adminCq 3 0] }, .reset⟩ },
        by decide +kernel⟩,
    ⟨.a, 0, 2, false, adminSq 3 0,
        { released .lowpower with he := ⟨{ HostPort.reset with command := 2 }, .reset⟩, ctl := ⟨{ Ctl.reset with en := true, sqs := [adminSq 3 0], cqs := [adminCq 3 0] }, .reset⟩ },
        by decide +kernel⟩,
    ⟨.a, 9, false,
        { released .service with he := ⟨{ HostPort.reset with command := 2 }, .reset⟩, ctl := ⟨{ Ctl.reset with en := true, sqs := [adminSq 3 0], cqs := [adminCq 3 0] }, .reset⟩ },
        by decide +kernel⟩,
    ⟨.a, 0, 2, false, adminCq 3 0,
        { released .lowpower with he := ⟨{ HostPort.reset with command := 2 }, .reset⟩, ctl := ⟨{ Ctl.reset with en := true, sqs := [adminSq 3 0], cqs := [adminCq 3 0] }, .reset⟩ },
        by decide +kernel⟩,
    ⟨.a, { adminSq 3 0 with tail := 1 },
        { released .service with he := ⟨{ HostPort.reset with command := 2 }, .reset⟩, ctl := ⟨{ Ctl.reset with en := true, sqs := [{ adminSq 3 0 with tail := 1 }], cqs := [adminCq 3 0] }, .reset⟩ },
        by decide +kernel⟩,
    ⟨.a, { adminSq 3 0 with qid := 1, tail := 1 },
        ((arbitrate { (Ctl.reset) with en := true, sqs := [adminSq 3 0, { adminSq 3 0 with qid := 1, tail := 1 }], cqs := [adminCq 3 0] }).getD (adminSq 3 0,
        Ctl.reset)).2,
        { released .service with he := ⟨{ HostPort.reset with command := 2 }, .reset⟩, ctl := ⟨{ Ctl.reset with en := true, sqs := [adminSq 3 0, { adminSq 3 0 with qid := 1, tail := 1 }], cqs := [adminCq 3 0] }, .reset⟩ },
        by decide +kernel⟩,
    ⟨.a, 0, State.reset, by decide +kernel⟩⟩

/-- Clauses 1, 2, 3, 4, 5, 6, 7, 8, 10, 11, 12, 13, 14, 15, 16, 17, 18, 19, 20, 21, 22, 23 of CmbAndWindows. -/
theorem test_wit_CmbAndWindows :
    (∃ (port : Port) (offset : Nat) (len : Nat) (s : State), memServed port s = true ∧ offset + len ≤ cmbBytes port s ∧
        (linesOf offset len).any (fun l => (s.port port).cmbPoison.contains l) = false) ∧
    (∃ (port : Port) (offset : Nat) (len : Nat) (s : State), portExists port s = true ∧ heAnswers s = true ∧ (memServed port s = false ∨
        cmbBytes port s < offset + len)) ∧
    (∃ (port : Port) (offset : Nat) (data : List Byte) (s : State), memServed port s = true ∧ offset + data.length ≤ cmbBytes port s) ∧
    (∃ (port : Port) (offset : Nat) (data : List Byte) (s : State), (memServed port s = false ∨ cmbBytes port s < offset + data.length)) ∧
    (∃ (port : Port) (offset : Nat) (w : Win) (s : State), memServed port s = true ∧ isOn Reg.HE_CFG.APMODE s = true ∧
        findWin (s.port port).active offset = some w ∧ w.rd = true) ∧
    (∃ (port : Port) (offset : Nat) (s : State), portExists port s = true ∧ heAnswers s = true ∧ isOn Reg.HE_CFG.APMODE s = true ∧
        (memServed port s = false ∨ ∀ w, findWin (s.port port).active offset = some w → w.rd = false)) ∧
    (∃ (port : Port) (offset : Nat) (w : Win) (s : State), memServed port s = true ∧ isOn Reg.HE_CFG.APMODE s = true ∧
        findWin (s.port port).active offset = some w ∧ w.wr = true ∧ mustWait (destOf (w.addr offset) s) (s.port port) = true) ∧
    (∃ (port : Port) (offset : Nat) (ep : Bool) (s : State), memServed port s = true ∧ isOn Reg.HE_CFG.APMODE s = true ∧
        findWin (s.port port).active offset = none ∧ ep = false) ∧
    (∃ (port : Port) (s : State), portExists port s = true ∧ heAnswers s = true) ∧
    (∃ (port : Port) (s : State), portExists port s = true ∧ s.gen.mode ≠ .reset) ∧
    (∃ (who : Writer) (s : State), setupOpen who s = true ∧ holds who s = true ∧ (s.port .a).copyBusy = false ∧
        winBad (s.port .a).staging s (s.port .a).staging = none) ∧
    (∃ (who : Writer) (s : State), setupOpen who s = true ∧ holds who s = true ∧ s.pins.bifur = true ∧ (s.port .b).copyBusy = false ∧
        winBad (s.port .b).staging s (s.port .b).staging = none) ∧
    (∃ (who : Writer) (s : State), setupOpen who s = true ∧ holds who s = false) ∧
    (∃ (port : Port) (s : State), (s.port port).copyBusy = true) ∧
    (∃ (who : Writer) (s : State), setupOpen who s = true ∧ holds who s = true) ∧
    (∃ (port : Port) (offset : Nat) (len : Nat) (s : State), memServed port s = true ∧ offset + len ≤ cmbBytes port s ∧
        (linesOf offset len).any (fun l => (s.port port).cmbPoison.contains l) = true) ∧
    (∃ (port : Port) (offset : Nat) (ep : Bool) (w : Win) (s : State), memServed port s = true ∧ isOn Reg.HE_CFG.APMODE s = true ∧
        findWin (s.port port).active offset = some w ∧ w.wr = true ∧ ep = false) ∧
    (∃ (port : Port) (offset : Nat) (ep : Bool) (w : Win) (s : State), memServed port s = true ∧ isOn Reg.HE_CFG.APMODE s = true ∧
        findWin (s.port port).active offset = some w ∧ w.wr = true ∧ ep = true) ∧
    (∃ (port : Port) (offset : Nat) (ep : Bool) (w : Win) (s : State), memServed port s = true ∧ isOn Reg.HE_CFG.APMODE s = true ∧
        findWin (s.port port).active offset = some w ∧ w.wr = false ∧ ep = false) ∧
    (∃ (who : Writer) (s : State), setupOpen who s = true ∧ holds who s = true) ∧
    (∃ (who : Writer) (s : State), setupOpen who s = true ∧ holds who s = true) ∧
    (∃ (port : Port) (s : State), (s.port port).copyBusy = false) :=
  ⟨⟨.a, 0, 4, setF Reg.HE_CFG.CMBSZ_A 1 { released .service with he := ⟨{ HostPort.reset with command := 2 }, .reset⟩ }, by decide +kernel⟩,
    ⟨.a, 0, 4, { released .service with he := ⟨{ HostPort.reset with command := 2 }, .reset⟩ }, by decide +kernel⟩,
    ⟨.a, 0, [1, 2], setF Reg.HE_CFG.CMBSZ_A 1 { released .service with he := ⟨{ HostPort.reset with command := 2 }, .reset⟩ },
        by decide +kernel⟩,
    ⟨.a, 0, [1, 2], { released .service with he := ⟨{ HostPort.reset with command := 2 }, .reset⟩ }, by decide +kernel⟩,
    ⟨.a, 64, aWin,
        setF Reg.HE_CFG.APMODE 1 { released .service with he := ⟨{ HostPort.reset with command := 2, active := [(0, aWin)] }, .reset⟩ },
        by decide +kernel⟩,
    ⟨.a, 0, setF Reg.HE_CFG.APMODE 1 { released .service with he := ⟨{ HostPort.reset with command := 2 }, .reset⟩ }, by decide +kernel⟩,
    ⟨.a, 64, aWin,
        setF Reg.HE_CFG.APMODE 1 { released .service with he := ⟨{ HostPort.reset with command := 2, active := [(0, aWin)], unacked := [some 5] }, .reset⟩ },
        by decide +kernel⟩,
    ⟨.a, 0, false, setF Reg.HE_CFG.APMODE 1 { released .service with he := ⟨{ HostPort.reset with command := 2 }, .reset⟩ },
        by decide +kernel⟩,
    ⟨.a, released .service, by decide +kernel⟩,
    ⟨.a, released .service, by decide +kernel⟩,
    ⟨.mgmt, { released .service with pins := { Pins.reset with bifur := true }, gen := { (released .service).gen with holder := .mgmt } },
        by decide +kernel⟩,
    ⟨.mgmt, { released .service with pins := { Pins.reset with bifur := true }, gen := { (released .service).gen with holder := .mgmt } },
        by decide +kernel⟩,
    ⟨.mgmt, { released .service with gen := { (released .service).gen with holder := .host } }, by decide +kernel⟩,
    ⟨.a, { State.reset with he := ⟨{ HostPort.reset with copyBusy := true }, .reset⟩ }, by decide +kernel⟩,
    ⟨.mgmt, inMode .service, by decide +kernel⟩,
    ⟨.a, 0, 4, setF Reg.HE_CFG.CMBSZ_A 1 { released .service with he := ⟨{ HostPort.reset with command := 2, cmbPoison := [0] }, .reset⟩ },
        by decide +kernel⟩,
    ⟨.a, 64, false, aWin,
        setF Reg.HE_CFG.APMODE 1 { released .service with he := ⟨{ HostPort.reset with command := 2, active := [(0, aWin)] }, .reset⟩ },
        by decide +kernel⟩,
    ⟨.a, 64, true, aWin,
        setF Reg.HE_CFG.APMODE 1 { released .service with he := ⟨{ HostPort.reset with command := 2, active := [(0, aWin)] }, .reset⟩ },
        by decide +kernel⟩,
    ⟨.a, 64, false, { aWin with wr := false },
        setF Reg.HE_CFG.APMODE 1 { released .service with he := ⟨{ HostPort.reset with command := 2, active := [(0, { aWin with wr := false })] }, .reset⟩ },
        by decide +kernel⟩,
    ⟨.mgmt, { released .service with gen := { (released .service).gen with holder := .mgmt } }, by decide +kernel⟩,
    ⟨.mgmt, { released .service with gen := { (released .service).gen with holder := .mgmt } }, by decide +kernel⟩,
    ⟨.a, State.reset, by decide +kernel⟩⟩

/-- Clauses 1, 2, 3, 4, 5, 6, 7, 8, 9, 10, 11, 12, 13, 14, 15, 17, 18, 19 of HostLink. -/
theorem test_wit_HostLink :
    (∃ (port : Port) (tag : Nat) (s : State), (s.port port).tags.find? (fun x => x.tag == tag) = none) ∧
    (∃ (port : Port) (tag : Nat) (e : Tag) (s : State), (s.port port).tags.find? (fun x => x.tag == tag) = some e ∧ e.dead = true) ∧
    (∃ (port : Port) (tag : Nat) (e : Tag) (s : State), (s.port port).tags.find? (fun x => x.tag == tag) = some e) ∧
    (∃ (port : Port) (tag : Nat) (s : State), (s.port port).tags.find? (fun x => x.tag == tag) = none) ∧
    (∃ (port : Port) (s : State), portExists port s = true ∧ s.gen.mode ≠ .reset) ∧
    (∃ (port : Port) (s : State), (s.port port).up = true ∧ (s.port port).recovery = false) ∧
    (∃ (port : Port) (s : State), (s.port port).recovery = true) ∧
    (∃ (port : Port) (s : State), (s.port port).up = true) ∧
    (∃ (port : Port) (s : State), (s.port port).up = false) ∧
    (∃ (port : Port) (s : State), (s.port port).up = true) ∧
    (∃ (port : Port) (idleUs : Nat) (s : State), l1Allowed port idleUs s = true) ∧
    (∃ (port : Port) (s : State), portExists port s = true ∧ s.gen.hostReleased = true ∧ ((s.con port).en = false ∨ (s.con port).shst = 2)) ∧
    (∃ (port : Port) (s : State), (s.con port).en = true ∧ (s.con port).shst ≠ 2) ∧
    (∃ (port : Port) (vendor : Nat) (dwords : List Word) (s : State), portExists port s = true ∧ heAnswers s = true ∧ dwords.length ≤ 2048 ∧
        vendor = 1 ∧ (s.port port).doeBusy = false) ∧
    (∃ (port : Port) (vendor : Nat) (dwords : List Word) (s : State), portExists port s = true ∧ heAnswers s = true ∧ dwords.length ≤ 2048 ∧
        vendor = 1 ∧ (s.port port).doeBusy = true) ∧
    (∃ (port : Port) (tag : Nat) (poisoned : Bool) (e : Tag) (s : State), (s.port port).tags.find? (fun x => x.tag == tag) = some e ∧
        e.dead = false ∧ poisoned = true) ∧
    (∃ (port : Port) (tag : Nat) (poisoned : Bool) (e : Tag) (s : State), (s.port port).tags.find? (fun x => x.tag == tag) = some e ∧
        e.dead = false ∧ poisoned = false) ∧
    (∃ (port : Port) (idleUs : Nat) (s : State), l1Allowed port idleUs s = false) :=
  ⟨⟨.a, 1, State.reset, by decide +kernel⟩,
    ⟨.a, 5, ⟨5, .poll 0 64, 0, true⟩, { State.reset with he := ⟨{ HostPort.reset with tags := [⟨5, .poll 0 64, 0, true⟩] }, .reset⟩ },
        by decide +kernel⟩,
    ⟨.a, 5, ⟨5, .poll 0 64, 0, false⟩, { State.reset with he := ⟨{ HostPort.reset with tags := [⟨5, .poll 0 64, 0, false⟩] }, .reset⟩ },
        by decide +kernel⟩,
    ⟨.a, 1, State.reset, by decide +kernel⟩,
    ⟨.a, inMode .service, by decide +kernel⟩,
    ⟨.a, { State.reset with he := ⟨{ HostPort.reset with up := true }, .reset⟩ }, by decide +kernel⟩,
    ⟨.a, { State.reset with he := ⟨{ HostPort.reset with recovery := true }, .reset⟩ }, by decide +kernel⟩,
    ⟨.a, { State.reset with he := ⟨{ HostPort.reset with up := true }, .reset⟩ }, by decide +kernel⟩,
    ⟨.a, State.reset, by decide +kernel⟩,
    ⟨.a, { State.reset with he := ⟨{ HostPort.reset with up := true }, .reset⟩ }, by decide +kernel⟩,
    ⟨.a, 16, { State.reset with he := ⟨{ HostPort.reset with up := true, aspmL1 := true }, .reset⟩ }, by decide +kernel⟩,
    ⟨.a, released .service, by decide +kernel⟩,
    ⟨.a, { released .service with ctl := ⟨{ Ctl.reset with en := true }, .reset⟩ }, by decide +kernel⟩,
    ⟨.a, 1, [], released .service, by decide +kernel⟩,
    ⟨.a, 1, [], { released .service with he := ⟨{ HostPort.reset with doeBusy := true }, .reset⟩ }, by decide +kernel⟩,
    ⟨.a, 5, true, ⟨5, .poll 0 64, 0, false⟩,
        { State.reset with he := ⟨{ HostPort.reset with tags := [⟨5, .poll 0 64, 0, false⟩] }, .reset⟩ }, by decide +kernel⟩,
    ⟨.a, 5, false, ⟨5, .poll 0 64, 0, false⟩,
        { State.reset with he := ⟨{ HostPort.reset with tags := [⟨5, .poll 0 64, 0, false⟩] }, .reset⟩ }, by decide +kernel⟩,
    ⟨.a, 0, State.reset, by decide +kernel⟩⟩

/-- Clauses 1, 2, 3, 4, 5, 6, 7, 8, 9, 10, 11, 12 of QueueCommands. -/
theorem test_wit_QueueCommands :
    (∃ (h : AdminHdr) (qid : Nat) (size : Nat) (cqid : Nat) (base : Nat) (contiguous : Bool) (s : State), adminServed h modesBasic s =
        true ∧ createSqBad h qid size cqid base contiguous (arrived h s) = none) ∧
    (∃ (h : AdminHdr) (qid : Nat) (s : State), adminServed h modesBasic s = true ∧ qid = 0) ∧
    (∃ (h : AdminHdr) (qid : Nat) (size : Nat) (vector : Nat) (base : Nat) (contiguous : Bool) (s : State), adminServed h modesBasic s =
        true ∧ createCqBad h qid size vector base contiguous (arrived h s) = none) ∧
    (∃ (h : AdminHdr) (qid : Nat) (s : State), adminServed h modesBasic s = true ∧ qid ≠ 0 ∧
        ((arrived h s).con h.port).sqs.any (fun q => q.qid == qid && q.deleting.isNone) = true) ∧
    (∃ (h : AdminHdr) (qid : Nat) (s : State), adminServed h modesBasic s = true ∧ qid = 0) ∧
    (∃ (h : AdminHdr) (qid : Nat) (s : State), adminServed h modesBasic s = true ∧ qid ≠ 0 ∧
        ((arrived h s).con h.port).cqs.any (fun q => q.qid == qid) = true ∧ ((arrived h s).con h.port).sqs.any (fun q => q.cq == qid) =
        false) ∧
    (∃ (h : AdminHdr) (qid : Nat) (s : State), adminServed h modesBasic s = true ∧ qid ≠ 0 ∧
        ((arrived h s).con h.port).cqs.any (fun q => q.qid == qid) = true ∧ ((arrived h s).con h.port).sqs.any (fun q => q.cq == qid) =
        true) ∧
    (∃ (h : AdminHdr) (lid : Nat) (offset : Nat) (numDwords : Nat) (pg : Page) (s : State), adminServed h modesBasic s = true ∧
        logPage h.port lid (arrived h s) = some pg ∧ offset % 4 = 0 ∧ offset < pg.len ∧ ((lid = 0x02 → h.nsid = 0 ∨ h.nsid = 0xFFFFFFFF)) ∧
        dataFits h (4 * numDwords) (arrived h s) = true) ∧
    (∃ (h : AdminHdr) (cns : Nat) (cntid : Nat) (pg : Page) (s : State), adminServed h modesBasic s = true ∧
        identPage h cns cntid (arrived h s) = .inl pg ∧ dataFits h 4096 (arrived h s) = true) ∧
    (∃ (h : AdminHdr) (s : State), adminServed h modesBasic s = true ∧ (abortsOut h.port (arrived h s)).length < 4) ∧
    (∃ (h : AdminHdr) (s : State), adminServed h modesBasic s = true ∧ 4 ≤ (abortsOut h.port (arrived h s)).length) ∧
    (∃ (h : AdminHdr) (lid : Nat) (s : State), adminServed h modesBasic s = true ∧ logPage h.port lid (arrived h s) = none) :=
  ⟨⟨aHdr, 1, 3, 1, 0x10000000000, true,
        { inMode .service with ctl := ⟨{ Ctl.reset with en := true, nsq := 8, ncq := 8, sqs := [adminSq 3 0], cqs := [adminCq 3 0, ⟨1, 4, 1, true, 0, 0, 0, true, [], false⟩] }, .reset⟩ },
        by decide +kernel⟩,
    ⟨aHdr, 0,
        { inMode .service with ctl := ⟨{ Ctl.reset with en := true, nsq := 8, ncq := 8, sqs := [adminSq 3 0], cqs := [adminCq 3 0, ⟨1, 4, 1, true, 0, 0, 0, true, [], false⟩] }, .reset⟩ },
        by decide +kernel⟩,
    ⟨aHdr, 2, 3, 1, 0x10000000000, true,
        { inMode .service with ctl := ⟨{ Ctl.reset with en := true, nsq := 8, ncq := 8, sqs := [adminSq 3 0], cqs := [adminCq 3 0, ⟨1, 4, 1, true, 0, 0, 0, true, [], false⟩] }, .reset⟩ },
        by decide +kernel⟩,
    ⟨aHdr, 1,
        { inMode .service with ctl := ⟨{ Ctl.reset with en := true, nsq := 8, ncq := 8, sqs := [adminSq 3 0, { adminSq 3 0 with qid := 1, cq := 1 }], cqs := [adminCq 3 0, ⟨1, 4, 1, true, 0, 0, 0, true, [], false⟩] }, .reset⟩ },
        by decide +kernel⟩,
    ⟨aHdr, 0,
        { inMode .service with ctl := ⟨{ Ctl.reset with en := true, nsq := 8, ncq := 8, sqs := [adminSq 3 0], cqs := [adminCq 3 0, ⟨1, 4, 1, true, 0, 0, 0, true, [], false⟩] }, .reset⟩ },
        by decide +kernel⟩,
    ⟨aHdr, 1,
        { inMode .service with ctl := ⟨{ Ctl.reset with en := true, nsq := 8, ncq := 8, sqs := [adminSq 3 0], cqs := [adminCq 3 0, ⟨1, 4, 1, true, 0, 0, 0, true, [], false⟩] }, .reset⟩ },
        by decide +kernel⟩,
    ⟨aHdr, 1,
        { inMode .service with ctl := ⟨{ Ctl.reset with en := true, nsq := 8, ncq := 8, sqs := [adminSq 3 0, { adminSq 3 0 with qid := 1, cq := 1 }], cqs := [adminCq 3 0, ⟨1, 4, 1, true, 0, 0, 0, true, [], false⟩] }, .reset⟩ },
        by decide +kernel⟩,
    ⟨aHdr, 0x81, 0, 2, logSanitize (inMode .service), inMode .service, by decide +kernel, rfl, by decide +kernel⟩,
    ⟨aHdr, 1, 0, identController .a (inMode .service), inMode .service, by decide +kernel, rfl, by decide +kernel⟩,
    ⟨aHdr, inMode .service, by decide +kernel⟩,
    ⟨aHdr,
        { inMode .service with ctl := ⟨{ aCtl with aborts := [1, 2, 3, 4], cqs := [{ adminCq 3 0 with held := [⟨0, ⟨0, 0, 0, 1, 0, 0, 0, 0, true⟩, none⟩, ⟨0, ⟨0, 0, 0, 2, 0, 0, 0, 0, true⟩, none⟩, ⟨0, ⟨0, 0, 0, 3, 0, 0, 0, 0, true⟩, none⟩, ⟨0, ⟨0, 0, 0, 4, 0, 0, 0, 0, true⟩, none⟩] }] }, .reset⟩ },
        by decide +kernel⟩,
    ⟨aHdr, 0x99, inMode .service, by decide +kernel⟩⟩

/-- Clauses 1, 2, 3, 4, 5, 6, 7, 8, 9, 10, 11, 12, 13, 14, 15, 16, 17, 18, 19, 20, 21, 22 of SetFeatures. -/
theorem test_wit_SetFeatures :
    (∃ (h : AdminHdr) (sv : Bool) (s : State), adminServed h modesFeature s = true ∧ sv = false) ∧
    (∃ (h : AdminHdr) (sv : Bool) (s : State), adminServed h modesFeature s = true ∧ sv = true) ∧
    (∃ (h : AdminHdr) (sv : Bool) (ps : Nat) (wh : Nat) (p : PowerState) (s : State), adminServed h modesFeature s = true ∧ sv = false ∧
        psOf ps = some p ∧ ps ≤ 2 ∧ wh = 0) ∧
    (∃ (h : AdminHdr) (sv : Bool) (ps : Nat) (wh : Nat) (p : PowerState) (s : State), adminServed h modesFeature s = true ∧ sv = false ∧
        psOf ps = some p ∧ 2 < ps ∧ wh = 0 ∧ (((arrived h s).gen.mode = .service ∨ (arrived h s).gen.mode = .sealed))) ∧
    (∃ (p : PowerState) (s : State), s.gen.psEntry = some p ∧ ((s.gen.mode = .service ∨ s.gen.mode = .sealed))) ∧
    (∃ (p : PowerState) (s : State), s.gen.psEntry = some p ∧ s.gen.mode ≠ .service ∧ s.gen.mode ≠ .sealed) ∧
    (∃ (done : Bool) (s : State), (s.gen.psEntry = none ∨ done = false)) ∧
    (∃ (h : AdminHdr) (sv : Bool) (tmpsel : Nat) (thsel : Nat) (s : State), adminServed h modesFeature s = true ∧ sv = false ∧ tmpsel = 0 ∧
        thsel ≤ 1) ∧
    (∃ (h : AdminHdr) (sv : Bool) (s : State), adminServed h modesFeature s = true ∧ sv = false) ∧
    (∃ (h : AdminHdr) (sv : Bool) (nsqr : Nat) (ncqr : Nat) (s : State), adminServed h modesFeature s = true ∧ sv = false ∧ nsqr ≠ 0xFFFF ∧
        ncqr ≠ 0xFFFF ∧ ((arrived h s).con h.port).nqSet = false ∧ hasIoQueue ((arrived h s).con h.port) = false) ∧
    (∃ (h : AdminHdr) (sv : Bool) (s : State), adminServed h modesFeature s = true ∧ sv = false) ∧
    (∃ (h : AdminHdr) (sv : Bool) (vector : Nat) (s : State), adminServed h modesFeature s = true ∧ sv = false ∧ vector < 2048) ∧
    (∃ (h : AdminHdr) (sv : Bool) (s : State), adminServed h modesFeature s = true ∧ sv = false) ∧
    (∃ (h : AdminHdr) (sv : Bool) (mask : BitVec 8) (reservedMask : Bool) (entries : List (List Nat)) (s : State),
        adminServed h modesFeature s = true ∧ sv = false ∧ reservedMask = false ∧ mask.toNat % 8 = 0 ∧ mask.toNat.testBit 7 = false ∧ [3, 4,
        5, 6].any (fun k => mask.toNat.testBit k && !classOk ((entries[k]?).getD [])) = false ∧ dataFits h 256 (arrived h s) = true) ∧
    (∃ (h : AdminHdr) (sv : Bool) (sqid : Nat) (s : State), adminServed h modesFeature s = true ∧ sv = false ∧ sqid ≠ 0 ∧
        ((arrived h s).con h.port).sqs.any (fun q => q.qid == sqid) = true) ∧
    (∃ (h : AdminHdr) (sv : Bool) (s : State), adminServed h modesFeature s = true ∧ sv = false) ∧
    (∃ (h : AdminHdr) (fid : Nat) (sel : Nat) (dw11 : Word) (v : Nat) (s : State), adminServed h modesFeature s = true ∧ sel = 0 ∧
        fid ≠ 0xC0 ∧ featureNow h fid dw11 (arrived h s) = some v) ∧
    (∃ (h : AdminHdr) (sel : Nat) (s : State), adminServed h modesFeature s = true ∧ 1 < sel) ∧
    (∃ (h : AdminHdr) (s : State), adminServed h modesBasic s = true ∧ ((arrived h s).con h.port).events = [] ∧
        ((arrived h s).con h.port).aers.length < 16) ∧
    (∃ (h : AdminHdr) (e : AsyncEvent) (rest : List AsyncEvent) (s : State), adminServed h modesBasic s = true ∧
        ((arrived h s).con h.port).events = e :: rest) ∧
    (∃ (h : AdminHdr) (fid : Nat) (sel : Nat) (s : State), adminServed h modesFeature s = true ∧ sel ≤ 1 ∧ fid = 0xC0 ∧
        dataFits h 256 (arrived h s) = true) ∧
    (∃ (h : AdminHdr) (fid : Nat) (sel : Nat) (dw11 : Word) (v : Nat) (s : State), adminServed h modesFeature s = true ∧ sel = 1 ∧
        fid ≠ 0xC0 ∧ featureDefault h fid dw11 (arrived h s) = some v) :=
  ⟨⟨aHdr, false, inMode .service, by decide +kernel⟩,
    ⟨aHdr, true, inMode .service, by decide +kernel⟩,
    ⟨aHdr, false, 1, 0, .ps1, inMode .service, by decide +kernel⟩,
    ⟨aHdr, false, 3, 0, .ps3, inMode .service, by decide +kernel⟩,
    ⟨.ps3, { inMode .service with gen := { Gen.reset with mode := .service, psEntry := some .ps3 } }, by decide +kernel⟩,
    ⟨.ps3, { inMode .standby with gen := { Gen.reset with mode := .standby, psEntry := some .ps3 } }, by decide +kernel⟩,
    ⟨true, State.reset, by decide +kernel⟩,
    ⟨aHdr, false, 0, 1, inMode .service, by decide +kernel⟩,
    ⟨aHdr, false, inMode .service, by decide +kernel⟩,
    ⟨aHdr, false, 5, 5, inMode .service, by decide +kernel⟩,
    ⟨aHdr, false, inMode .service, by decide +kernel⟩,
    ⟨aHdr, false, 5, inMode .service, by decide +kernel⟩,
    ⟨aHdr, false, inMode .service, by decide +kernel⟩,
    ⟨aHdr, false, 0, false, [], inMode .service, by decide +kernel⟩,
    ⟨aHdr, false, 1,
        { inMode .service with ctl := ⟨{ Ctl.reset with en := true, nsq := 8, ncq := 8, sqs := [adminSq 3 0, { adminSq 3 0 with qid := 1, cq := 1 }], cqs := [adminCq 3 0, ⟨1, 4, 1, true, 0, 0, 0, true, [], false⟩] }, .reset⟩ },
        by decide +kernel⟩,
    ⟨aHdr, false, inMode .service, by decide +kernel⟩,
    ⟨aHdr, 6, 0, 0, 1, inMode .service, by decide +kernel⟩,
    ⟨aHdr, 2, inMode .service, by decide +kernel⟩,
    ⟨aHdr, inMode .service, by decide +kernel⟩,
    ⟨aHdr, ⟨1, 2, 3⟩, [], { inMode .service with ctl := ⟨{ aCtl with events := [⟨1, 2, 3⟩] }, .reset⟩ }, by decide +kernel⟩,
    ⟨aHdr, 0xC0, 0, inMode .service, by decide +kernel⟩,
    ⟨aHdr, 0x01, 1, 0, 0, inMode .service, by decide +kernel⟩⟩

/-- Clauses 1, 2, 3, 4, 5, 6, 7, 8, 9, 10, 11, 12, 13, 14, 15, 16, 17, 18, 19, 20, 21, 22, 23, 24, 25, 26, 27 of NamespaceAndFirmware. -/
theorem test_wit_NamespaceAndFirmware :
    (∃ (h : AdminHdr) (d : NsDesc) (s : State), adminServed h modesAll s = true ∧ (arrived h s).gen.mode ≠ .sealed ∧
        createBad d (arrived h s) = none ∧ dataFits h 4096 (arrived h s) = true) ∧
    (∃ (h : AdminHdr) (s : State), adminServed h modesAll s = true ∧ (arrived h s).gen.mode = .sealed) ∧
    (∃ (h : AdminHdr) (n : Ns) (s : State), adminServed h modesAll s = true ∧ findNs h.nsid (arrived h s) = some n ∧
        (arrived h s).gen.mode ≠ .sealed ∧ n.leaving = [] ∧ inSession h.nsid (arrived h s) = false ∧ nsRoleBad n (arrived h s) = none) ∧
    (∃ (h : AdminHdr) (attach : Bool) (ctrls : List Nat) (n : Ns) (s : State), adminServed h modesAll s = true ∧ attach = true ∧
        findNs h.nsid (arrived h s) = some n ∧ ctrls ≠ [] ∧ beingDeleted h.nsid (arrived h s) = false ∧
        ctrls.any (fun c => !(allCntlids (arrived h s)).contains c) = false ∧ n.cutAway = false ∧
        ctrls.any (fun c => n.attached.contains c) = false ∧ dataFits h 4096 (arrived h s) = true) ∧
    (∃ (h : AdminHdr) (attach : Bool) (ctrls : List Nat) (n : Ns) (s : State), adminServed h modesAll s = true ∧ attach = false ∧
        findNs h.nsid (arrived h s) = some n ∧ ctrls ≠ [] ∧ beingDeleted h.nsid (arrived h s) = false ∧
        ctrls.any (fun c => !(allCntlids (arrived h s)).contains c) = false ∧ ctrls.any (fun c => !n.attached.contains c) = false ∧
        dataFits h 4096 (arrived h s) = true) ∧
    (∃ (h : AdminHdr) (offset : Nat) (length : Nat) (s : State), adminServed h modesBasic s = true ∧ offset % 4 = 0 ∧ length % 4 = 0 ∧
        offset + length ≤ imageMax ∧ dataFits h length (arrived h s) = true) ∧
    (∃ (h : AdminHdr) (slot : Nat) (img : SlotImage) (blk : Nat) (v : State) (s : State), adminServed h modesBasic s = true ∧
        (arrived h s).mg.activation = none ∧ slotBlk slot (arrived h s) = some blk ∧ commitSlot true false blk img (arrived h s) = (none,
        v)) ∧
    (∃ (h : AdminHdr) (slot : Nat) (img : SlotImage) (blk : Nat) (v : State) (s : State), adminServed h modesBasic s = true ∧
        (arrived h s).mg.activation = none ∧ slotBlk slot (arrived h s) = some blk ∧ commitSlot true true blk img (arrived h s) = (none, v)) ∧
    (∃ (h : AdminHdr) (slot : Nat) (img : SlotImage) (blk : Nat) (v : State) (s : State), adminServed h modesBasic s = true ∧
        (arrived h s).mg.activation = none ∧ slotBlk slot (arrived h s) = some blk ∧ commitSlot false true blk img (arrived h s) = (none,
        v)) ∧
    (∃ (h : AdminHdr) (slot : Nat) (img : SlotImage) (blk : Nat) (v : State) (s : State), adminServed h modesBasic s = true ∧
        (arrived h s).mg.activation = none ∧ rebuildOrMigration (arrived h s) = false ∧ slotBlk slot (arrived h s) = some blk ∧
        commitSlot ((arrived h s).sh.fwDown != []) true blk img (arrived h s) = (none, v)) ∧
    (∃ (h : AdminHdr) (code : Nat) (s : State), adminServed h modesAll s = true ∧ (code = 1 ∨ code = 2) ∧
        ((arrived h s).con h.port).selfTest = none) ∧
    (∃ (h : AdminHdr) (code : Nat) (k : Nat) (s : State), adminServed h modesAll s = true ∧ code = 0xF ∧
        ((arrived h s).con h.port).selfTest = some k) ∧
    (∃ (h : AdminHdr) (dtype : Nat) (doper : Nat) (enable : Bool) (tdtype : Nat) (s : State), adminServed h modesAll s = true ∧
        nsHere h (arrived h s) = true ∧ dtype = 0 ∧ doper = 1 ∧ tdtype = 1 ∧ enable = true) ∧
    (∃ (h : AdminHdr) (dtype : Nat) (doper : Nat) (s : State), adminServed h modesAll s = true ∧ nsHere h (arrived h s) = true ∧ dtype = 1 ∧
        doper = 3 ∧ ((arrived h s).con h.port).streamsOn.contains h.nsid = true) ∧
    (∃ (h : AdminHdr) (prp1 : Nat) (prp2 : Nat) (s : State), adminServed h modesBasic s = true ∧ hasIoQueue ((arrived h s).con h.port) =
        false ∧ prp1 % hostPage h.port (arrived h s) = 0 ∧ prp2 % hostPage h.port (arrived h s) = 0 ∧ inOwnBar h.port prp1 (arrived h s) =
        false ∧ inOwnBar h.port prp2 (arrived h s) = false) ∧
    (∃ (h : AdminHdr) (lbaf : Nat) (pi : Nat) (ses : Nat) (n : Ns) (s : State), adminServed h modesAll s = true ∧
        (arrived h s).sh.sanState ≠ 1 ∧ (arrived h s).sh.sanState ≠ 3 ∧
        (findNs h.nsid (arrived h s)).filter (fun n => attachedTo h.port n (arrived h s)) = some n ∧ nsRoleBad n (arrived h s) = none ∧
        sealedFor n (arrived h s) = false ∧ (ses ≤ 2 ∧ (ses = 2 → n.xts = true)) ∧ (lbaf ≤ 4 ∧ lbaBytes lbaf ≤ grainBytes n.grainCode ∧
        pi ≤ 3 ∧ (0 < pi → mdBytes lbaf ≠ 0))) ∧
    (∃ (h : AdminHdr) (lbaf : Nat) (pi : Nat) (n : Ns) (s : State), adminServed h modesAll s = true ∧ (arrived h s).sh.sanState ≠ 1 ∧
        (arrived h s).sh.sanState ≠ 3 ∧ (findNs h.nsid (arrived h s)).filter (fun n => attachedTo h.port n (arrived h s)) = some n ∧
        nsRoleBad n (arrived h s) = none ∧ sealedFor n (arrived h s) = false ∧ n.xts = true ∧ (lbaf ≤ 4 ∧
        lbaBytes lbaf ≤ grainBytes n.grainCode ∧ pi ≤ 3 ∧ (0 < pi → mdBytes lbaf ≠ 0))) ∧
    (∃ (h : AdminHdr) (noDealloc : Bool) (s : State), adminServed h modesAll s = true ∧ (arrived h s).sh.sanState ≠ 1 ∧
        (arrived h s).sh.sanState ≠ 3 ∧ (arrived h s).gen.mode ≠ .standby ∧ (arrived h s).gen.mode ≠ .sealed ∧
        (arrived h s).ns.any (fun n => n.sealInfo.isSome) = false ∧ noDealloc = false) ∧
    (∃ (h : AdminHdr) (noDealloc : Bool) (s : State), adminServed h modesAll s = true ∧ (arrived h s).sh.sanState ≠ 1 ∧
        (arrived h s).sh.sanState ≠ 3 ∧ (arrived h s).gen.mode ≠ .standby ∧ (arrived h s).gen.mode ≠ .sealed ∧
        (arrived h s).ns.any (fun n => n.sealInfo.isSome) = false ∧ noDealloc = false ∧ (arrived h s).ns.any (fun n => !n.xts) = false) ∧
    (∃ (h : AdminHdr) (s : State), adminServed h modesAll s = true ∧ ((arrived h s).sh.sanState = 1 ∨ (arrived h s).sh.sanState = 3)) ∧
    (∃ (h : AdminHdr) (dtype : Nat) (doper : Nat) (enable : Bool) (tdtype : Nat) (s : State), adminServed h modesAll s = true ∧
        nsHere h (arrived h s) = true ∧ dtype = 0 ∧ doper = 1 ∧ tdtype = 1 ∧ enable = false) ∧
    (∃ (h : AdminHdr) (dtype : Nat) (doper : Nat) (s : State), adminServed h modesAll s = true ∧ nsHere h (arrived h s) = true ∧ dtype = 1 ∧
        doper = 1 ∧ ((arrived h s).con h.port).streamsOn.contains h.nsid = true) ∧
    (∃ (h : AdminHdr) (dtype : Nat) (doper : Nat) (s : State), adminServed h modesAll s = true ∧ nsHere h (arrived h s) = true ∧ dtype = 1 ∧
        doper = 2 ∧ ((arrived h s).con h.port).streamsOn.contains h.nsid = true) ∧
    (∃ (h : AdminHdr) (dtype : Nat) (doper : Nat) (s : State), adminServed h modesAll s = true ∧ nsHere h (arrived h s) = true ∧ dtype = 0 ∧
        doper = 1 ∧ dataFits h 4096 (arrived h s) = true) ∧
    (∃ (h : AdminHdr) (dtype : Nat) (doper : Nat) (s : State), adminServed h modesAll s = true ∧ nsHere h (arrived h s) = true ∧ dtype = 1 ∧
        doper = 1 ∧ dataFits h 32 (arrived h s) = true) ∧
    (∃ (h : AdminHdr) (dtype : Nat) (doper : Nat) (s : State), adminServed h modesAll s = true ∧ nsHere h (arrived h s) = true ∧ dtype = 1 ∧
        doper = 2 ∧ ((arrived h s).con h.port).streamsOn.contains h.nsid = true ∧ dataFits h 34 (arrived h s) = true) ∧
    (∃ (h : AdminHdr) (code : Nat) (s : State), adminServed h modesAll s = true ∧ code = 0xF ∧ ((arrived h s).con h.port).selfTest = none) :=
  ⟨⟨aHdr, ⟨0, 8, 8, 0, false, 0, 0, 0, false, true, true, 0, 0⟩, inMode .service, by decide +kernel⟩,
    ⟨aHdr, inMode .sealed, by decide +kernel⟩,
    ⟨aHdr, aNs, { inMode .service with ns := [aNs] }, by decide +kernel⟩,
    ⟨aHdr, true, [2], aNs, { inMode .service with ns := [aNs], pins := { Pins.reset with bifur := true } }, by decide +kernel⟩,
    ⟨aHdr, false, [1], aNs, { inMode .service with ns := [aNs] }, by decide +kernel⟩,
    ⟨aHdr, 0, 64, inMode .service, by decide +kernel⟩,
    ⟨aHdr, 2, ⟨true, 0x5A5AC33C, 0xA5A53CC3, true, false, none, false, 6, false, 0, [], 0⟩, 1, (commitSlot true false 1 ⟨true, 0x5A5AC33C,
        0xA5A53CC3, true, false, none, false, 6, false, 0, [],
        0⟩ { inMode .service with sh := { Shared.reset with fwDown := [(0, 4096)] } }).2,
        { inMode .service with sh := { Shared.reset with fwDown := [(0, 4096)] } }, by decide +kernel, by decide +kernel, by decide +kernel,
        commit_writes _ _ _ (by decide +kernel) (by decide +kernel)⟩,
    ⟨aHdr, 2, ⟨true, 0x5A5AC33C, 0xA5A53CC3, true, false, none, false, 6, false, 0, [], 0⟩, 1, (commitSlot true true 1 ⟨true, 0x5A5AC33C,
        0xA5A53CC3, true, false, none, false, 6, false, 0, [],
        0⟩ { inMode .service with sh := { Shared.reset with fwDown := [(0, 4096)] } }).2,
        { inMode .service with sh := { Shared.reset with fwDown := [(0, 4096)] } }, by decide +kernel, by decide +kernel, by decide +kernel,
        commit_writes _ _ _ (by decide +kernel) (by decide +kernel)⟩,
    ⟨aHdr, 2, ⟨true, 0x5A5AC33C, 0xA5A53CC3, true, false, none, false, 6, false, 0, [], 0⟩, 1, (commitSlot false true 1 ⟨true, 0x5A5AC33C,
        0xA5A53CC3, true, false, none, false, 6, false, 0, [],
        0⟩ { inMode .service with ff := { Ff.reset with slot2 := some (⟨true, 0x5A5AC33C, 0xA5A53CC3, true, false, none, false, 6, false, 0, [], 0⟩ : SlotImage) } }).2,
        { inMode .service with ff := { Ff.reset with slot2 := some (⟨true, 0x5A5AC33C, 0xA5A53CC3, true, false, none, false, 6, false, 0, [], 0⟩ : SlotImage) } },
        by decide +kernel⟩,
    ⟨aHdr, 2, ⟨true, 0x5A5AC33C, 0xA5A53CC3, true, false, none, false, 6, false, 0, [], 0⟩, 1, (commitSlot false true 1 ⟨true, 0x5A5AC33C,
        0xA5A53CC3, true, false, none, false, 6, false, 0, [],
        0⟩ { inMode .service with ff := { Ff.reset with slot2 := some (⟨true, 0x5A5AC33C, 0xA5A53CC3, true, false, none, false, 6, false, 0, [], 0⟩ : SlotImage) } }).2,
        { inMode .service with ff := { Ff.reset with slot2 := some (⟨true, 0x5A5AC33C, 0xA5A53CC3, true, false, none, false, 6, false, 0, [], 0⟩ : SlotImage) } },
        by decide +kernel⟩,
    ⟨aHdr, 2, inMode .service, by decide +kernel⟩,
    ⟨aHdr, 15, 1, { inMode .service with ctl := ⟨{ Ctl.reset with selfTest := some 1 }, .reset⟩ }, by decide +kernel⟩,
    ⟨aHdr, 0, 1, true, 1, { inMode .service with ns := [aNs] }, by decide +kernel⟩,
    ⟨aHdr, 1, 3, { inMode .service with ns := [aNs], ctl := ⟨{ Ctl.reset with streamsOn := [1] }, .reset⟩ }, by decide +kernel⟩,
    ⟨aHdr, 0x10000000000, 0x20000000000, inMode .service, by decide +kernel⟩,
    ⟨aHdr, 0, 0, 2, { aNs with xts := true }, { ioState with ns := [{ aNs with xts := true }] }, by decide +kernel⟩,
    ⟨aHdr, 0, 0, { aNs with xts := true }, { ioState with ns := [{ aNs with xts := true }] }, by decide +kernel⟩,
    ⟨aHdr, false, inMode .service, by decide +kernel⟩,
    ⟨aHdr, false, inMode .service, by decide +kernel⟩,
    ⟨aHdr, { inMode .service with sh := { Shared.reset with sanState := 1 } }, by decide +kernel⟩,
    ⟨aHdr, 0, 1, false, 1, { inMode .service with ns := [aNs] }, by decide +kernel⟩,
    ⟨aHdr, 1, 1, { inMode .service with ns := [aNs], ctl := ⟨{ Ctl.reset with streamsOn := [1] }, .reset⟩ }, by decide +kernel⟩,
    ⟨aHdr, 1, 2, { inMode .service with ns := [aNs], ctl := ⟨{ Ctl.reset with streamsOn := [1] }, .reset⟩ }, by decide +kernel⟩,
    ⟨aHdr, 0, 1, { inMode .service with ns := [aNs] }, by decide +kernel⟩,
    ⟨aHdr, 1, 1, { inMode .service with ns := [aNs] }, by decide +kernel⟩,
    ⟨aHdr, 1, 2, { inMode .service with ns := [aNs], ctl := ⟨{ Ctl.reset with streamsOn := [1] }, .reset⟩ }, by decide +kernel⟩,
    ⟨aHdr, 0xF, inMode .service, by decide +kernel⟩⟩

/-- Clauses 1, 2, 3, 4, 5, 6, 7, 8, 9, 10, 11, 12, 13, 14, 15, 16, 17, 18, 19, 20, 21, 22 of TwinMigrationSeal. -/
theorem test_wit_TwinMigrationSeal :
    (∃ (h : AdminHdr) (s : State), adminServed h modesAll s = true ∧ (arrived h s).tw.st = .paired ∧ (arrived h s).tw.active = true ∧
        (arrived h s).tw.switching = false ∧ (arrived h s).tw.waitCmd = none) ∧
    (∃ (h : AdminHdr) (s : State), adminServed h modesAll s = true ∧ ((arrived h s).tw.st ≠ .paired ∨ (arrived h s).tw.active = false)) ∧
    (∃ (h : AdminHdr) (s : State), adminServed h modesAll s = true ∧ (arrived h s).tw.active = true ∧ (arrived h s).tw.switching = false ∧
        (arrived h s).tw.st ≠ .none ∧ (arrived h s).tw.st ≠ .fenced) ∧
    (∃ (h : AdminHdr) (s : State), adminServed h modesAll s = true ∧ (arrived h s).tw.st = .none ∧ (arrived h s).gen.mode = .standby ∧
        (arrived h s).ns = []) ∧
    (∃ (h : AdminHdr) (s : State), adminServed h modesAll s = true ∧ (arrived h s).tw.mig.role = 1 ∧ ((arrived h s).tw.mig.phase = 2 ∨
        (arrived h s).tw.mig.phase = 3)) ∧
    (∃ (h : AdminHdr) (s : State), adminServed h modesAll s = true ∧ canAbort (arrived h s) = true) ∧
    (∃ (h : AdminHdr) (s : State), adminServed h modesAll s = true ∧ canAbort (arrived h s) = false) ∧
    (∃ (h : AdminHdr) (s : State), adminServed h modesAll s = true) ∧
    (∃ (h : AdminHdr) (s : State), adminServed h modesAll s = true ∧ (arrived h s).tw.mig.unknown = true) ∧
    (∃ (h : AdminHdr) (s : State), adminServed h modesAll s = true ∧ (arrived h s).gen.mode = .service) ∧
    (∃ (h : AdminHdr) (s : State), adminServed h modesAll s = true ∧ (arrived h s).gen.mode ≠ .service) ∧
    (∃ (h : AdminHdr) (s : State), adminServed h modesAll s = true ∧ deviceSealLifts (arrived h s) = true) ∧
    (∃ (h : AdminHdr) (s : State), adminServed h modesAll s = true ∧ deviceSealLifts (arrived h s) = false) ∧
    (∃ (h : AdminHdr) (n : Ns) (s : State), adminServed h modesAll s = true ∧ findNs h.nsid (arrived h s) = some n ∧ n.sealInfo = none ∧
        beingDeleted h.nsid (arrived h s) = false ∧ n.owner = true ∧ (arrived h s).gen.mode ≠ .standby ∧ n.ingesting = false) ∧
    (∃ (h : AdminHdr) (csn : Nat) (s : State), adminServed h modesAll s = true ∧ beingDeleted h.nsid (arrived h s) = false ∧
        (findNs h.nsid (arrived h s)).bind (·.sealInfo) = some (csn, false)) ∧
    (∃ (h : AdminHdr) (csn : Nat) (s : State), adminServed h modesAll s = true ∧ beingDeleted h.nsid (arrived h s) = false ∧
        (findNs h.nsid (arrived h s)).bind (·.sealInfo) = some (csn, true)) ∧
    (∃ (h : AdminHdr) (peer : Nat) (peerReachable : Bool) (s : State), adminServed h modesAll s = true ∧
        descCheck h.port h.data 64 none (arrived h s) = none ∧ (arrived h s).tw.st = .none ∧ (arrived h s).gen.mode = .service ∧
        (arrived h s).tw.waitCmd = none ∧ peerReachable = true ∧ reachable peer (arrived h s) = true) ∧
    (∃ (h : AdminHdr) (peer : Nat) (s : State), adminServed h modesAll s = true ∧ descCheck h.port h.data 64 none (arrived h s) = none ∧
        ((arrived h s).tw.st ≠ .lost ∨ (arrived h s).tw.active = false ∨ peer ≠ (arrived h s).tw.peer)) ∧
    (∃ (h : AdminHdr) (peer : Nat) (idDigest : Nat) (s : State), adminServed h modesAll s = true ∧
        descCheck h.port h.data 64 none (arrived h s) = none ∧ s.tw.st = .lost ∧ s.tw.active = true ∧ peer = s.tw.peer ∧ s.tw.peerIdDigest =
        idDigest ∧ s.tw.changed = none) ∧
    (∃ (h : AdminHdr) (s : State), adminServed h modesAll s = true ∧ descCheck h.port h.data 64 none (arrived h s) = none ∧
        (arrived h s).gen.mode = .service ∧ (arrived h s).ns = [] ∧ (arrived h s).tw.st = .none ∧ noSession (arrived h s) = true) ∧
    (∃ (h : AdminHdr) (peer : Nat) (nsids : List Nat) (s : State), adminServed h modesAll s = true ∧ descCheck h.port h.data (68 +
        4 * nsids.length) none (arrived h s) = none ∧ ((arrived h s).gen.mode = .service ∨ (arrived h s).gen.mode = .sealed) ∧
        (((arrived h s).tw.st = .none ∨ (arrived h s).tw.active = true)) ∧ noSession (arrived h s) = true ∧ (arrived h s).tw.waitCmd =
        none ∧ startNsOk nsids (arrived h s) = true ∧ reachable peer (arrived h s) = true) ∧
    (∃ (h : AdminHdr) (peer : Nat) (idDigest : Nat) (s : State), adminServed h modesAll s = true ∧
        descCheck h.port h.data 64 none (arrived h s) = none ∧ (arrived h s).tw.st = .lost ∧ (arrived h s).tw.active = true ∧ peer =
        (arrived h s).tw.peer ∧ (((arrived h s).tw.peerIdDigest = 0 ∨ (arrived h s).tw.peerIdDigest = idDigest))) :=
  ⟨⟨aHdr, { inMode .service with tw := { Tw.reset with st := .paired, active := true } }, by decide +kernel⟩,
    ⟨aHdr, inMode .service, by decide +kernel⟩,
    ⟨aHdr, { inMode .service with tw := { Tw.reset with st := .lost, active := true } }, by decide +kernel⟩,
    ⟨aHdr, inMode .standby, by decide +kernel⟩,
    ⟨aHdr, { routed .service with tw := { Tw.reset with mig := { Mig.none with peer := 9, role := 1, phase := 2 } } }, by decide +kernel⟩,
    ⟨aHdr, { routed .service with tw := { Tw.reset with mig := { Mig.none with peer := 9, role := 1, phase := 2 } } }, by decide +kernel⟩,
    ⟨aHdr, inMode .service, by decide +kernel⟩,
    ⟨aHdr, inMode .service, by decide +kernel⟩,
    ⟨aHdr, { routed .service with tw := { Tw.reset with mig := { Mig.none with peer := 9, role := 1, phase := 5, unknown := true } } },
        by decide +kernel⟩,
    ⟨aHdr, inMode .service, by decide +kernel⟩,
    ⟨aHdr, inMode .diagnostic, by decide +kernel⟩,
    ⟨aHdr, { inMode .sealed with prov := { Prov.reset with devSeal := some (5, false) } }, by decide +kernel⟩,
    ⟨aHdr, { inMode .sealed with prov := { Prov.reset with devSeal := some (5, true) } }, by decide +kernel⟩,
    ⟨aHdr, aNs, { inMode .service with ns := [aNs] }, by decide +kernel⟩,
    ⟨aHdr, 5, { inMode .service with ns := [{ aNs with sealInfo := some (5, false) }] }, by decide +kernel⟩,
    ⟨aHdr, 5, { inMode .service with ns := [{ aNs with sealInfo := some (5, true) }] }, by decide +kernel⟩,
    ⟨aHdr, 9, true, routed .service, by decide +kernel⟩,
    ⟨aHdr, 1, inMode .service, by decide +kernel⟩,
    ⟨aHdr, 3, 4,
        { inMode .service with tw := { Tw.reset with st := .lost, active := true, peer := 3, peerIdDigest := 4, changed := none } },
        by decide +kernel⟩,
    ⟨aHdr, inMode .service, by decide +kernel⟩,
    ⟨aHdr, 9, [1], { routed .service with ns := [aNs] }, by decide +kernel⟩,
    ⟨aHdr, 3, 4,
        { inMode .service with tw := { Tw.reset with st := .lost, active := true, peer := 3, peerIdDigest := 4, changed := none } },
        by decide +kernel⟩⟩

/-- Clauses 1, 2, 3, 4, 5, 6, 7, 8, 9, 10, 11, 12, 13, 14, 15, 16, 17, 18, 19, 20, 21, 22, 23, 24 of IoCommandsAdmitted. -/
theorem test_wit_IoCommandsAdmitted :
    (∃ (h : IoHdr) (slba : Nat) (nlb : Nat) (pr : PrInfo) (n : Ns) (s : State), rdy h.port s = true ∧
        ioTarget h (sqeArrived h.port h.sq s) = .inl n ∧ dataFields nlb pr n = none ∧ rangeOk n (slba, nlb) = true ∧
        classBad (classOfSq h.port h.sq (sqeArrived h.port h.sq s)) (nlb * lbaBytes n.lbaf) n (sqeArrived h.port h.sq s) = false ∧
        ((0 < moveBytes n pr nlb → descCheck h.port h.data (moveBytes n pr nlb) (mdPair n pr nlb h) (sqeArrived h.port h.sq s) = none))) ∧
    (∃ (h : IoHdr) (slba : Nat) (nlb : Nat) (pr : PrInfo) (n : Ns) (s : State), rdy h.port s = true ∧
        ioTarget h (sqeArrived h.port h.sq s) = .inl n ∧ dataFields nlb pr n = none ∧ rangeOk n (slba, nlb) = true ∧
        sealedNs n (sqeArrived h.port h.sq s) = false ∧
        classBad (classOfSq h.port h.sq (sqeArrived h.port h.sq s)) (nlb * lbaBytes n.lbaf) n (sqeArrived h.port h.sq s) = false ∧
        ((0 < moveBytes n pr nlb → descCheck h.port h.data (moveBytes n pr nlb) (mdPair n pr nlb h) (sqeArrived h.port h.sq s) = none))) ∧
    (∃ (h : IoHdr) (n : Ns) (s : State), rdy h.port s = true ∧ ioTarget h (sqeArrived h.port h.sq s) = .inl n ∧
        classBad (classOfSq h.port h.sq (sqeArrived h.port h.sq s)) 0 n (sqeArrived h.port h.sq s) = false ∧ h.nsid ≠ 0xFFFFFFFF) ∧
    (∃ (h : IoHdr) (slba : Nat) (nlb : Nat) (n : Ns) (s : State), rdy h.port s = true ∧ ioTarget h (sqeArrived h.port h.sq s) = .inl n ∧
        rangeOk n (slba, nlb) = true ∧ sealedNs n (sqeArrived h.port h.sq s) = false ∧
        classBad (classOfSq h.port h.sq (sqeArrived h.port h.sq s)) 0 n (sqeArrived h.port h.sq s) = false) ∧
    (∃ (h : IoHdr) (slba : Nat) (nlb : Nat) (pr : PrInfo) (n : Ns) (s : State), rdy h.port s = true ∧
        ioTarget h (sqeArrived h.port h.sq s) = .inl n ∧ prValid n pr = true ∧ rangeOk n (slba, nlb) = true ∧
        sealedNs n (sqeArrived h.port h.sq s) = false ∧
        classBad (classOfSq h.port h.sq (sqeArrived h.port h.sq s)) 0 n (sqeArrived h.port h.sq s) = false) ∧
    (∃ (h : IoHdr) (ad : Bool) (ranges : List (Nat × Nat)) (n : Ns) (s : State), rdy h.port s = true ∧
        ioTarget h (sqeArrived h.port h.sq s) = .inl n ∧ ranges ≠ [] ∧ ranges.length ≤ 256 ∧ sealedNs n (sqeArrived h.port h.sq s) = false ∧
        classBad (classOfSq h.port h.sq (sqeArrived h.port h.sq s)) 0 n (sqeArrived h.port h.sq s) = false ∧
        descCheck h.port h.data (16 * ranges.length) none (sqeArrived h.port h.sq s) = none ∧ 0 < 16 * ranges.length ∧ ad = true ∧
        ranges.all (rangeOk n) = true) ∧
    (∃ (ad : Bool) (s : State), ad = false) ∧
    (∃ (h : IoHdr) (slba : Nat) (nlb : Nat) (pr : PrInfo) (n : Ns) (s : State), rdy h.port s = true ∧
        ioTarget h (sqeArrived h.port h.sq s) = .inl n ∧ dataFields nlb pr n = none ∧ rangeOk n (slba, nlb) = true ∧
        classBad (classOfSq h.port h.sq (sqeArrived h.port h.sq s)) (nlb * lbaBytes n.lbaf) n (sqeArrived h.port h.sq s) = false) ∧
    (∃ (h : IoHdr) (sdlba : Nat) (format : Nat) (src : Nat) (nlb : Nat) (prr : PrInfo) (prw : PrInfo) (n : Ns) (s : State), rdy h.port s =
        true ∧ ioTarget h (sqeArrived h.port h.sq s) = .inl n ∧ format = copyFormat n ∧ dataFields nlb prr n = none ∧ prValid n prw = true ∧
        rangeOk n (src, nlb) = true ∧ rangeOk n (sdlba, nlb) = true ∧ sealedNs n (sqeArrived h.port h.sq s) = false ∧
        classBad (classOfSq h.port h.sq (sqeArrived h.port h.sq s)) (nlb * lbaBytes n.lbaf) n (sqeArrived h.port h.sq s) = false ∧
        descCheck h.port h.data ((if copyFormat n = 1 then 40 else 32)) none (sqeArrived h.port h.sq s) = none ∧ 0 < (if copyFormat n =
        1 then 40 else 32)) ∧
    (∃ (h : IoHdr) (slba : Nat) (nlb : Nat) (alg : Nat) (n : Ns) (s : State), rdy h.port s = true ∧ ioTarget h (sqeArrived h.port h.sq s) =
        .inl n ∧ alg < 3 ∧ nlb ≤ 2 ^ 32 ∧ rangeOk n (slba, nlb) = true ∧
        classBad (classOfSq h.port h.sq (sqeArrived h.port h.sq s)) (nlb * lbaBytes n.lbaf) n (sqeArrived h.port h.sq s) = false ∧
        descCheck h.port h.data (64) none (sqeArrived h.port h.sq s) = none ∧ 0 < 64) ∧
    (∃ (h : IoHdr) (slba : Nat) (nlb : Nat) (pr : PrInfo) (n : Ns) (s : State), rdy h.port s = true ∧
        ioTarget h (sqeArrived h.port h.sq s) = .inl n ∧ dataFields nlb pr n = none ∧ rangeOk n (slba, nlb) = true ∧
        sealedNs n (sqeArrived h.port h.sq s) = true) ∧
    (∃ (h : IoHdr) (slba : Nat) (nlb : Nat) (pr : PrInfo) (n : Ns) (s : State), rdy h.port s = true ∧
        ioTarget h (sqeArrived h.port h.sq s) = .inl n ∧ dataFields nlb pr n = none ∧ rangeOk n (slba, nlb) = false) ∧
    (∃ (h : IoHdr) (s : State), rdy h.port s = true ∧ modesAll s.gen.mode = true ∧ h.fuse = 0 ∧ h.reservedZero = true ∧ s.sh.sanState = 0 ∧
        findNs h.nsid s = none) ∧
    (∃ (h : IoHdr) (slba : Nat) (nlb : Nat) (fua : Bool) (pr : PrInfo) (n : Ns) (s : State), rdy h.port s = true ∧
        ioTarget h (sqeArrived h.port h.sq s) = .inl n ∧ dataFields nlb pr n = none ∧ rangeOk n (slba, nlb) = true ∧
        classBad (classOfSq h.port h.sq (sqeArrived h.port h.sq s)) (nlb * lbaBytes n.lbaf) n (sqeArrived h.port h.sq s) = false ∧
        ((0 < moveBytes n pr nlb → descCheck h.port h.data (moveBytes n pr nlb) (mdPair n pr nlb h) (sqeArrived h.port h.sq s) = none)) ∧
        (goesIn h n { ioDraft h .read (sqeArrived h.port h.sq s) with slba := slba, nlb := nlb, fua := fua, prr := pr, addrs := dataPieces (hostPage h.port (sqeArrived h.port h.sq s)) h.data (moveBytes n pr nlb), mdAddrs := ((mdPair n pr nlb h).map (·.pieces)).getD [] } (nlb * lbaBytes n.lbaf) (sqeArrived h.port h.sq s)).isSome =
        true) ∧
    (∃ (h : IoHdr) (slba : Nat) (nlb : Nat) (fua : Bool) (pr : PrInfo) (stream : Nat) (n : Ns) (s : State), rdy h.port s = true ∧
        ioTarget h (sqeArrived h.port h.sq s) = .inl n ∧ dataFields nlb pr n = none ∧ rangeOk n (slba, nlb) = true ∧
        sealedNs n (sqeArrived h.port h.sq s) = false ∧
        classBad (classOfSq h.port h.sq (sqeArrived h.port h.sq s)) (nlb * lbaBytes n.lbaf) n (sqeArrived h.port h.sq s) = false ∧
        ((0 < moveBytes n pr nlb → descCheck h.port h.data (moveBytes n pr nlb) (mdPair n pr nlb h) (sqeArrived h.port h.sq s) = none)) ∧
        (goesIn h n { ioDraft h .write (sqeArrived h.port h.sq s) with slba := slba, nlb := nlb, fua := asFua fua (sqeArrived h.port h.sq s), prw := pr, stream := stream, addrs := dataPieces (hostPage h.port (sqeArrived h.port h.sq s)) h.data (moveBytes n pr nlb), mdAddrs := ((mdPair n pr nlb h).map (·.pieces)).getD [] } (nlb * lbaBytes n.lbaf) (sqeArrived h.port h.sq s)).isSome =
        true) ∧
    (∃ (h : IoHdr) (n : Ns) (s : State), rdy h.port s = true ∧ ioTarget h (sqeArrived h.port h.sq s) = .inl n ∧
        classBad (classOfSq h.port h.sq (sqeArrived h.port h.sq s)) 0 n (sqeArrived h.port h.sq s) = false ∧ h.nsid ≠ 0xFFFFFFFF ∧
        (goesIn h n { ioDraft h .flush (sqeArrived h.port h.sq s) with flushCsn := ((findNs h.nsid (sqeArrived h.port h.sq s)).map (·.lastCsn)).getD 0, addrs := dataPieces (hostPage h.port (sqeArrived h.port h.sq s)) h.data 0 } 0 (sqeArrived h.port h.sq s)).isSome =
        true) ∧
    (∃ (h : IoHdr) (slba : Nat) (nlb : Nat) (n : Ns) (s : State), rdy h.port s = true ∧ ioTarget h (sqeArrived h.port h.sq s) = .inl n ∧
        rangeOk n (slba, nlb) = true ∧ sealedNs n (sqeArrived h.port h.sq s) = false ∧
        classBad (classOfSq h.port h.sq (sqeArrived h.port h.sq s)) 0 n (sqeArrived h.port h.sq s) = false ∧
        (goesIn h n { ioDraft h .writeUncor (sqeArrived h.port h.sq s) with slba := slba, nlb := nlb, fua := asFua false (sqeArrived h.port h.sq s), addrs := dataPieces (hostPage h.port (sqeArrived h.port h.sq s)) h.data 0 } 0 (sqeArrived h.port h.sq s)).isSome =
        true) ∧
    (∃ (h : IoHdr) (slba : Nat) (nlb : Nat) (fua : Bool) (pr : PrInfo) (n : Ns) (s : State), rdy h.port s = true ∧
        ioTarget h (sqeArrived h.port h.sq s) = .inl n ∧ prValid n pr = true ∧ rangeOk n (slba, nlb) = true ∧
        sealedNs n (sqeArrived h.port h.sq s) = false ∧
        classBad (classOfSq h.port h.sq (sqeArrived h.port h.sq s)) 0 n (sqeArrived h.port h.sq s) = false ∧
        (goesIn h n { ioDraft h .writeZeroes (sqeArrived h.port h.sq s) with slba := slba, nlb := nlb, fua := asFua fua (sqeArrived h.port h.sq s), addrs := dataPieces (hostPage h.port (sqeArrived h.port h.sq s)) h.data 0 } 0 (sqeArrived h.port h.sq s)).isSome =
        true) ∧
    (∃ (h : IoHdr) (ad : Bool) (ranges : List (Nat × Nat)) (n : Ns) (s : State), rdy h.port s = true ∧
        ioTarget h (sqeArrived h.port h.sq s) = .inl n ∧ ranges ≠ [] ∧ ranges.length ≤ 256 ∧ sealedNs n (sqeArrived h.port h.sq s) = false ∧
        classBad (classOfSq h.port h.sq (sqeArrived h.port h.sq s)) 0 n (sqeArrived h.port h.sq s) = false ∧
        descCheck h.port h.data (16 * ranges.length) none (sqeArrived h.port h.sq s) = none ∧ 0 < 16 * ranges.length ∧ ad = true ∧
        ranges.all (rangeOk n) = true ∧
        (goesIn h n { ioDraft h .dsm (sqeArrived h.port h.sq s) with ranges := ranges, fua := asFua false (sqeArrived h.port h.sq s), addrs := dataPieces (hostPage h.port (sqeArrived h.port h.sq s)) h.data (16 * ranges.length) } 0 (sqeArrived h.port h.sq s)).isSome =
        true) ∧
    (∃ (h : IoHdr) (slba : Nat) (nlb : Nat) (pr : PrInfo) (n : Ns) (s : State), rdy h.port s = true ∧
        ioTarget h (sqeArrived h.port h.sq s) = .inl n ∧ dataFields nlb pr n = none ∧ rangeOk n (slba, nlb) = true ∧
        classBad (classOfSq h.port h.sq (sqeArrived h.port h.sq s)) (nlb * lbaBytes n.lbaf) n (sqeArrived h.port h.sq s) = false ∧
        (goesIn h n { ioDraft h .verify (sqeArrived h.port h.sq s) with slba := slba, nlb := nlb, prr := pr, addrs := dataPieces (hostPage h.port (sqeArrived h.port h.sq s)) h.data 0 } (nlb * lbaBytes n.lbaf) (sqeArrived h.port h.sq s)).isSome =
        true) ∧
    (∃ (h : IoHdr) (sdlba : Nat) (format : Nat) (src : Nat) (nlb : Nat) (fua : Bool) (prr : PrInfo) (prw : PrInfo) (n : Ns) (s : State),
        rdy h.port s = true ∧ ioTarget h (sqeArrived h.port h.sq s) = .inl n ∧ format = copyFormat n ∧ dataFields nlb prr n = none ∧
        prValid n prw = true ∧ rangeOk n (src, nlb) = true ∧ rangeOk n (sdlba, nlb) = true ∧ sealedNs n (sqeArrived h.port h.sq s) = false ∧
        classBad (classOfSq h.port h.sq (sqeArrived h.port h.sq s)) (nlb * lbaBytes n.lbaf) n (sqeArrived h.port h.sq s) = false ∧
        descCheck h.port h.data ((if copyFormat n = 1 then 40 else 32)) none (sqeArrived h.port h.sq s) = none ∧ 0 < (if copyFormat n =
        1 then 40 else 32) ∧
        (goesIn h n { ioDraft h .copy (sqeArrived h.port h.sq s) with slba := src, nlb := nlb, dst := sdlba, fua := asFua fua (sqeArrived h.port h.sq s), prr := prr, prw := prw, addrs := dataPieces (hostPage h.port (sqeArrived h.port h.sq s)) h.data ((if copyFormat n = 1 then 40 else 32)) } (nlb * lbaBytes n.lbaf) (sqeArrived h.port h.sq s)).isSome =
        true) ∧
    (∃ (h : IoHdr) (slba : Nat) (nlb : Nat) (alg : Nat) (n : Ns) (s : State), rdy h.port s = true ∧ ioTarget h (sqeArrived h.port h.sq s) =
        .inl n ∧ alg < 3 ∧ nlb ≤ 2 ^ 32 ∧ rangeOk n (slba, nlb) = true ∧
        classBad (classOfSq h.port h.sq (sqeArrived h.port h.sq s)) (nlb * lbaBytes n.lbaf) n (sqeArrived h.port h.sq s) = false ∧
        descCheck h.port h.data (64) none (sqeArrived h.port h.sq s) = none ∧ 0 < 64 ∧
        (goesIn h n { ioDraft h .fixity (sqeArrived h.port h.sq s) with slba := slba, nlb := nlb, alg := alg, addrs := dataPieces (hostPage h.port (sqeArrived h.port h.sq s)) h.data 64 } (nlb * lbaBytes n.lbaf) (sqeArrived h.port h.sq s)).isSome =
        true) ∧
    (∃ (h : IoHdr) (s : State), rdy h.port s = true ∧ h.nsid = 0xFFFFFFFF ∧ modesAll (sqeArrived h.port h.sq s).gen.mode = true ∧ h.fuse =
        0 ∧ h.reservedZero = true ∧ (sqeArrived h.port h.sq s).sh.sanState ≠ 1 ∧ (sqeArrived h.port h.sq s).sh.sanState ≠ 3 ∧
        (sqeArrived h.port h.sq s).tw.switching = false ∧ (sqeArrived h.port h.sq s).gen.mode ≠ .standby ∧
        (sqeArrived h.port h.sq s).gen.mode ≠ .ingest ∧
        (goesIn h allNs { ioDraft h .flush (sqeArrived h.port h.sq s) with flushCsn := (sqeArrived h.port h.sq s).mx.csn } 0 (sqeArrived h.port h.sq s)).isSome =
        true) ∧
    (∃ (h : IoHdr) (ad : Bool) (ranges : List (Nat × Nat)) (n : Ns) (s : State), rdy h.port s = true ∧
        ioTarget h (sqeArrived h.port h.sq s) = .inl n ∧ ad = false ∧ ranges ≠ [] ∧ ranges.length ≤ 256 ∧ ranges.all (rangeOk n) = true ∧
        classBad (classOfSq h.port h.sq (sqeArrived h.port h.sq s)) 0 n (sqeArrived h.port h.sq s) = false ∧
        descCheck h.port h.data (16 * ranges.length) none (sqeArrived h.port h.sq s) = none ∧ reportDue h.port (fun x => x ==
        n.nsid) (sqeArrived h.port h.sq s) = false) :=
  ⟨⟨ioHdr, 0, 1, ⟨false, false, false, false, 0, 0, 0⟩, aNs, ioState, by decide +kernel⟩,
    ⟨ioHdr, 0, 1, ⟨false, false, false, false, 0, 0, 0⟩, aNs, ioState, by decide +kernel⟩,
    ⟨ioHdr, aNs, ioState, by decide +kernel⟩,
    ⟨ioHdr, 0, 1, aNs, ioState, by decide +kernel⟩,
    ⟨ioHdr, 0, 1, ⟨false, false, false, false, 0, 0, 0⟩, aNs, ioState, by decide +kernel⟩,
    ⟨ioHdr, true, [(0, 1)], aNs, ioState, by decide +kernel⟩,
    ⟨false, ioState, by decide +kernel⟩,
    ⟨ioHdr, 0, 1, ⟨false, false, false, false, 0, 0, 0⟩, aNs, ioState, by decide +kernel⟩,
    ⟨ioHdr, 4, copyFormat aNs, 0, 1, ⟨false, false, false, false, 0, 0, 0⟩, ⟨false, false, false, false, 0, 0, 0⟩, aNs, ioState,
        by decide +kernel⟩,
    ⟨ioHdr, 0, 1, 2, aNs, ioState, by decide +kernel⟩,
    ⟨ioHdr, 0, 1, ⟨false, false, false, false, 0, 0, 0⟩, { aNs with sealInfo := some (0, false) },
        { ioState with ns := [{ aNs with sealInfo := some (0, false) }] }, by decide +kernel⟩,
    ⟨ioHdr, 8, 1, ⟨false, false, false, false, 0, 0, 0⟩, aNs, ioState, by decide +kernel⟩,
    ⟨{ ioHdr with nsid := 2 }, ioState, by decide +kernel⟩,
    ⟨ioHdr, 0, 1, false, ⟨false, false, false, false, 0, 0, 0⟩, aNs, ioUp, by decide +kernel⟩,
    ⟨ioHdr, 0, 1, false, ⟨false, false, false, false, 0, 0, 0⟩, 0, aNs, ioUp, by decide +kernel⟩,
    ⟨ioHdr, aNs, ioState, by decide +kernel⟩,
    ⟨ioHdr, 0, 1, aNs, ioUp, by decide +kernel⟩,
    ⟨ioHdr, 0, 1, false, ⟨false, false, false, false, 0, 0, 0⟩, aNs, ioUp, by decide +kernel⟩,
    ⟨ioHdr, true, [(0, 1)], aNs, ioUp, by decide +kernel⟩,
    ⟨ioHdr, 0, 1, ⟨false, false, false, false, 0, 0, 0⟩, aNs, ioState, by decide +kernel⟩,
    ⟨ioHdr, 4, copyFormat aNs, 0, 1, false, ⟨false, false, false, false, 0, 0, 0⟩, ⟨false, false, false, false, 0, 0, 0⟩, aNs, ioUp,
        by decide +kernel⟩,
    ⟨ioHdr, 0, 1, 2, aNs, ioState, by decide +kernel⟩,
    ⟨{ ioHdr with nsid := 0xFFFFFFFF }, ioState, by decide +kernel⟩,
    ⟨ioHdr, false, [(0, 1)], aNs, ioState, by decide +kernel⟩⟩

/-- Clauses 1, 2, 3, 4, 5, 6, 7, 8, 9, 10, 11, 12, 13, 14, 15, 16 of IoCommandStages. -/
theorem test_wit_IoCommandStages :
    (∃ (cmd : Nat) (c : IoCmd) (s : State), findCmd cmd s = some c ∧ c.stage = .pages ∧ findNs c.nsid s = none) ∧
    (∃ (cmd : Nat) (c : IoCmd) (n : Ns) (s : State), findCmd cmd s = some c ∧ c.stage = .pages ∧ findNs c.nsid s = some n ∧
        reportDue c.port (reportsOn ({ lookup n c (touchPages n c s) with stage := .media } : IoCmd)) (touchPages n c s) = false) ∧
    (∃ (cmd : Nat) (s : State), findCmd cmd s = none) ∧
    (∃ (cmd : Nat) (c : IoCmd) (c2 : IoCmd) (n : Ns) (u : State) (s : State), findCmd cmd s = some c ∧ c.stage = .waiting ∧
        firstWaiting c s = true ∧ (if c.nsid = 0xFFFFFFFF then some allNs else findNs c.nsid s) = some n ∧ ((c.nsid ≠ 0xFFFFFFFF →
        nsVisible c.port n s = true)) ∧ needPages n c s = [] ∧ ((c.looked = false → reportDue c.port (reportsOn c) s = false)) ∧
        tryLc7 n (if c.looked then c else lookup n c s) (cmdBytes n (if c.looked then c else lookup n c s)) false s = some (c2, u)) ∧
    (∃ (cmd : Nat) (c : IoCmd) (s : State), findCmd cmd s = some c ∧ c.stage = .waiting ∧ firstWaiting c s = true ∧ c.nsid ≠ 0xFFFFFFFF ∧
        findNs c.nsid s = none) ∧
    (∃ (cmd : Nat) (c : IoCmd) (n : Ns) (s : State), findCmd cmd s = some c ∧ c.stage = .forward ∧ findNs c.nsid s = some n ∧
        piStrips n c.prw = true ∧ noSpace n s = false ∧ c.kind ≠ .copy) ∧
    (∃ (cmd : Nat) (c : IoCmd) (n : Ns) (s : State), findCmd cmd s = some c ∧ c.stage = .forward ∧ findNs c.nsid s = some n ∧
        piStrips n c.prw = true ∧ noSpace n s = true) ∧
    (∃ (cmd : Nat) (c : IoCmd) (s : State), findCmd cmd s = some c ∧ mayComplete c s = true ∧ s.nsWait = [] ∧ s.sh.sanState = 0 ∧
        s.tw.switching = false) ∧
    (∃ (cmd : Nat) (c : IoCmd) (s : State), findCmd cmd s = some c ∧ mayComplete c s = false) ∧
    (∃ (stidx : Nat) (r : Staged) (s : State), findStaged stidx s = some r ∧ r.merged = false ∧ priorUnread r s = none) ∧
    (∃ (stidx : Nat) (r : Staged) (s : State), findStaged stidx s = some r ∧ r.merged = false) ∧
    (∃ (stidx : Nat) (s : State), findStaged stidx s = none) ∧
    (∃ (cmd : Nat) (c : IoCmd) (c2 : IoCmd) (n : Ns) (u : State) (s : State), findCmd cmd s = some c ∧ c.stage = .waiting ∧
        firstWaiting c s = true ∧ (if c.nsid = 0xFFFFFFFF then some allNs else findNs c.nsid s) = some n ∧ ((c.nsid ≠ 0xFFFFFFFF →
        nsVisible c.port n s = true)) ∧ needPages n c s ≠ [] ∧ tryLc7 n c (cmdBytes n c) true s = some (c2, u)) ∧
    (∃ (cmd : Nat) (c : IoCmd) (n : Ns) (s : State), findCmd cmd s = some c ∧ c.stage = .forward ∧ findNs c.nsid s = some n ∧
        ((piStrips n c.prw = true ∨ piFirst n c.prw (c.data.zipIdx.map (fun x => (x.2, x.1))) = none)) ∧ noSpace n s = false) ∧
    (∃ (cmd : Nat) (c : IoCmd) (s : State), findCmd cmd s = some c ∧ mayComplete c s = true) ∧
    (∃ (stidx : Nat) (r : Staged) (s : State), findStaged stidx s = some r ∧ r.merged = false) :=
  ⟨⟨5, aCmd .read .pages, { cmdState .read .pages with ns := [] }, by decide +kernel⟩,
    ⟨5, aCmd .read .pages, aNs, cmdState .read .pages, by decide +kernel⟩,
    ⟨5, ioState, by decide +kernel⟩,
    ⟨5, aCmd .flush .waiting,
        ((tryLc7 aNs (lookup aNs (aCmd .flush .waiting) (cmdState .flush .waiting)) (cmdBytes aNs (aCmd .flush .waiting)) false (cmdState .flush .waiting)).getD (aCmd .flush .waiting,
        ioState)).1, aNs,
        ((tryLc7 aNs (lookup aNs (aCmd .flush .waiting) (cmdState .flush .waiting)) (cmdBytes aNs (aCmd .flush .waiting)) false (cmdState .flush .waiting)).getD (aCmd .flush .waiting,
        ioState)).2, cmdState .flush .waiting, by decide +kernel⟩,
    ⟨5, aCmd .flush .waiting, { cmdState .flush .waiting with ns := [] }, by decide +kernel⟩,
    ⟨5, { aCmd .write .forward with prw := ⟨true, false, false, false, 0, 0, 0⟩ }, { aNs with dps := 1, lbaf := 1 },
        { ioState with ns := [{ aNs with dps := 1, lbaf := 1 }], cmds := [{ aCmd .write .forward with prw := ⟨true, false, false, false, 0, 0, 0⟩ }] },
        by decide +kernel⟩,
    ⟨5, { aCmd .write .forward with prw := ⟨true, false, false, false, 0, 0, 0⟩ }, { aNs with dps := 1, lbaf := 1, thin := true },
        { ioState with ns := [{ aNs with dps := 1, lbaf := 1, thin := true }], mx := { Mx.reset with map := [(2 ^ 40, anEntry)] }, cmds := [{ aCmd .write .forward with prw := ⟨true, false, false, false, 0, 0, 0⟩ }] },
        by decide +kernel⟩,
    ⟨5, aCmd .flush .commit, cmdState .flush .commit, by decide +kernel⟩,
    ⟨5, aCmd .write .commit, cmdState .write .commit, by decide +kernel⟩,
    ⟨3, aStaged, { inMode .service with mx := { Mx.reset with staged := [aStaged] } }, by decide +kernel⟩,
    ⟨3, aStaged, { inMode .service with mx := { Mx.reset with staged := [aStaged] } }, by decide +kernel⟩,
    ⟨3, inMode .service, by decide +kernel⟩,
    ⟨5, aCmd .read .waiting,
        ((tryLc7 { aNs with resident := false } (aCmd .read .waiting) (cmdBytes { aNs with resident := false } (aCmd .read .waiting)) true { ioUp with ns := [{ aNs with resident := false }], cmds := [aCmd .read .waiting] }).getD (aCmd .read .waiting,
        ioState)).1, { aNs with resident := false },
        ((tryLc7 { aNs with resident := false } (aCmd .read .waiting) (cmdBytes { aNs with resident := false } (aCmd .read .waiting)) true { ioUp with ns := [{ aNs with resident := false }], cmds := [aCmd .read .waiting] }).getD (aCmd .read .waiting,
        ioState)).2, { ioUp with ns := [{ aNs with resident := false }], cmds := [aCmd .read .waiting] }, by decide +kernel⟩,
    ⟨5, { aCmd .write .forward with prw := ⟨true, false, false, false, 0, 0, 0⟩ }, { aNs with dps := 1, lbaf := 1 },
        { ioState with ns := [{ aNs with dps := 1, lbaf := 1 }], cmds := [{ aCmd .write .forward with prw := ⟨true, false, false, false, 0, 0, 0⟩ }] },
        by decide +kernel⟩,
    ⟨5, aCmd .flush .commit, cmdState .flush .commit, by decide +kernel⟩,
    ⟨3, aStaged, { inMode .service with mx := { Mx.reset with staged := [aStaged] } }, by decide +kernel⟩⟩

/-- Clauses 1, 2, 3, 4, 5, 6, 7, 8, 9, 10, 11, 12, 13, 14, 15, 17, 18 of ProgramAndBarrels. -/
theorem test_wit_ProgramAndBarrels :
    (∃ (barrel : Nat) (member : Nat) (b : OpenBarrel) (g : Group) (r : Row) (fresh : Bool) (s : State), s.mm.openB.find? (fun b => b.num ==
        barrel) = some b ∧ findGroup (barrelGroup barrel) s = some g ∧ mediaMode s.gen.mode = true ∧ b.durable = true ∧ onTurn g.num s =
        false ∧ s.fs.prepared.contains g.num = false ∧ member < g.width ∧ ((g.missing.contains member = true → spareServes g member s =
        true)) ∧ nextRowOf b g member s = some (r, fresh)) ∧
    (∃ (s : State), mediaMode s.gen.mode = false) ∧
    (∃ (die : Nat) (block : Nat) (page : Nat) (g : Group) (m : Nat) (x : OpenBarrel) (r : Row) (s : State), memberOf die s = some (g, m) ∧
        vatPageAt g m block page s = none ∧ rowOfProgram g m die block page s = some (x, r)) ∧
    (∃ (die : Nat) (block : Nat) (page : Nat) (g : Group) (m : Nat) (v : VatPage) (s : State), memberOf die s = some (g, m) ∧
        vatPageAt g m block page s = some v) ∧
    (∃ (die : Nat) (s : State), memberOf die s = none) ∧
    (∃ (vintage : Fin 6) (s : State), mediaMode s.gen.mode = true ∧ s.mx.staged.any (fun r => (r.vintage ==
        vintage.val && r.merged) && !r.queued && decide (r.born + r.tmo * 500000 ≤ now s)) = true) ∧
    (∃ (s : State), s.mx.staged = []) ∧
    (∃ (vintage : Fin 5) (group : Nat) (g : Group) (r : Nat) (s : State), findGroup group s = some g ∧ freeBelow Reg.MM_RACK.FREECRIT s =
        false ∧ mediaMode s.gen.mode = true ∧ mayOpen g s = true ∧ vintageOpens vintage.val s = true ∧ mostPending vintage.val s = true ∧
        freeRow g s = some r) ∧
    (∃ (group : Nat) (s : State), findGroup group s = none) ∧
    (∃ (cmd : Nat) (lba : Nat) (c : IoCmd) (n : Ns) (e : MapEntry) (s : State), findCmd cmd s = some c ∧ findNs c.nsid s = some n ∧
        c.owed.contains lba = true ∧ c.views.find? (fun x => x.1 == lba) = some (lba, .media e)) ∧
    (∃ (die : Nat) (afterRetrain : Bool) (s : State), (s.sp.suspects.contains die = false ∨ afterRetrain = false)) ∧
    (∃ (die : Nat) (afterRetrain : Bool) (s : State), s.sp.suspects.contains die = true ∧ afterRetrain = true) ∧
    (∃ (who : Writer) (die : Nat) (key : BitVec 16) (s : State), setupOpen who s = true ∧ mayWrite who Reg.SP_DIEOUT.DIE.reg s = true ∧
        key = 0x0D1E ∧ dieOutOk die s = true) ∧
    (∃ (who : Writer) (key : BitVec 16) (s : State), setupOpen who s = true ∧ mayWrite who Reg.SP_DIEOUT.DIE.reg s = true ∧ key ≠ 0x0D1E ∧
        key ≠ 0) ∧
    (∃ (vintage : Fin 5) (group : Nat) (g : Group) (r : Nat) (u : State) (s : State), findGroup group s = some g ∧ u =
        flagIf (freeBelow Reg.MM_RACK.FREECRIT s) Reg.MM_ERR.FREECRIT s ∧ mediaMode u.gen.mode = true ∧ mayOpen g u = true ∧
        vintageOpens vintage.val u = true ∧ mostPending vintage.val u = true ∧ freeRow g u = some r) ∧
    (∃ (who : Writer) (die : Nat) (key : BitVec 16) (s : State), setupOpen who s = true ∧ mayWrite who Reg.SP_DIEOUT.DIE.reg s = true ∧
        key = 0x0D1E ∧ dieOutOk die s = false) ∧
    (∃ (who : Writer) (key : BitVec 16) (s : State), setupOpen who s = true ∧ mayWrite who Reg.SP_DIEOUT.DIE.reg s = true ∧ key = 0) :=
  ⟨⟨0, 0, anOpen [], aGroup, ⟨0, [], [], [], []⟩, false, { grpState with mm := { Mm.reset with openB := [anOpen []] } }, by decide +kernel⟩,
    ⟨State.reset, by decide +kernel⟩,
    ⟨0, (rowPlace aGroup 0 0 grpState).2, 0, aGroup, 0, anOpen [0], ⟨0, [], [0], [], []⟩,
        { grpState with mm := { Mm.reset with openB := [anOpen [0]] } }, by decide +kernel⟩,
    ⟨0, (vatBlock aGroup 0 0 grpState).getD 0, 0, aGroup, 0, aVat, { grpState with mm := { Mm.reset with vatPages := [aVat] } },
        by decide +kernel⟩,
    ⟨0, State.reset, by decide +kernel⟩,
    ⟨0, { inMode .service with mx := { Mx.reset with staged := [{ aStaged with merged := true, tmo := 0 }] } }, by decide +kernel⟩,
    ⟨inMode .service, by decide +kernel⟩,
    ⟨0, 0, aGroup, 0, { grpState with mx := { Mx.reset with staged := [{ aStaged with merged := true }] } }, by decide +kernel⟩,
    ⟨0, inMode .service, by decide +kernel⟩,
    ⟨5, 0, { aCmd .read .media with owed := [0], views := [(0, .media anEntry)] }, aNs, anEntry,
        { ioState with cmds := [{ aCmd .read .media with owed := [0], views := [(0, .media anEntry)] }] }, by decide +kernel⟩,
    ⟨3, false, State.reset, by decide +kernel⟩,
    ⟨3, true, { State.reset with sp := { Sp.reset with suspects := [3] } }, by decide +kernel⟩,
    ⟨.mgmt, 3, 0x0D1E,
        { State.reset with gen := { Gen.reset with mode := .service, holder := .mgmt }, sp := { Sp.reset with spares := [3] } },
        by decide +kernel⟩,
    ⟨.mgmt, 1, { State.reset with gen := { Gen.reset with mode := .service, holder := .mgmt } }, by decide +kernel⟩,
    ⟨0, 0, aGroup, 0,
        flagIf (freeBelow Reg.MM_RACK.FREECRIT ({ grpState with mx := { Mx.reset with staged := [{ aStaged with merged := true }] } })) Reg.MM_ERR.FREECRIT ({ grpState with mx := { Mx.reset with staged := [{ aStaged with merged := true }] } }),
        { grpState with mx := { Mx.reset with staged := [{ aStaged with merged := true }] } }, by decide +kernel⟩,
    ⟨.mgmt, 3, 0x0D1E, { State.reset with gen := { Gen.reset with mode := .service, holder := .mgmt } }, by decide +kernel⟩,
    ⟨.mgmt, 0, { State.reset with gen := { Gen.reset with mode := .service, holder := .mgmt } }, by decide +kernel⟩⟩

/-- Clauses 2, 3, 4, 5, 6, 7, 8, 9, 10, 11, 12, 13, 14 of FretsAndJournal. -/
theorem test_wit_FretsAndJournal :
    (∃ (die : Nat) (s : State), inSegments die s = true ∧ s.fs.windows.any (fun w => decide (w.die = die ∧ fretNow s ≤ w.opens ∧
        w.opens ≤ fretNow s + 5)) = true) ∧
    (∃ (die : Nat) (s : State), inSegments die s = false) ∧
    (∃ (group : Nat) (x : Nat × Nat) (s : State), s.fs.turn.find? (fun t => t.1 == group) = some x ∧ x.2 + turnFrets ≤ fretNow s ∧
        s.fs.leaving.contains group = false) ∧
    (∃ (s : State), s.fs.turn = []) ∧
    (∃ (group : Nat) (s : State), s.fs.prepared.contains group = true ∧ atBoundary group s = true) ∧
    (∃ (s : State), mediaMode s.gen.mode = true ∧ s.mx.jfly = none ∧ flushDue s = true) ∧
    (∃ (seq : Nat) (recs : List JRec) (s : State), s.mx.jfly = some (seq, recs)) ∧
    (∃ (s : State), mediaMode s.gen.mode = true ∧ s.mx.sweep = none ∧ s.mx.dirty = true) ∧
    (∃ (s : State), mediaMode s.gen.mode = true ∧ s.mx.sweep = none ∧ s.mx.rootAt + 10000000000 ≤ now s) ∧
    (∃ (r : Root) (s : State), s.mx.sweep = some r) ∧
    (∃ (nsid : Nat) (grain : Nat) (readable : Bool) (s : State), s.mx.heldLines.contains (nsid, grain / 8 * 8) = true ∧ readable = true) ∧
    (∃ (s : State), s.mx.heldLines = []) ∧
    (∃ (nsid : Nat) (grain : Nat) (readable : Bool) (s : State), s.mx.heldLines.contains (nsid, grain / 8 * 8) = true ∧ readable = false) :=
  ⟨⟨3,
        { State.reset with fs := { Fs.reset with segs := [(3, 9)], windows := [⟨3, 803750000, 1, 0, 0⟩] }, time := ⟨3215000000000, 3215000000000, 0⟩ },
        by decide +kernel⟩,
    ⟨3, State.reset, by decide +kernel⟩,
    ⟨0, (0, 0), { inMode .service with fs := { Fs.reset with turn := [(0, 0)] }, time := ⟨4000 * turnFrets, 4000 * turnFrets, 0⟩ },
        by decide +kernel⟩,
    ⟨State.reset, by decide +kernel⟩,
    ⟨0, { State.reset with fs := { Fs.reset with prepared := [0] } }, by decide +kernel⟩,
    ⟨{ inMode .service with mx := { Mx.reset with jpend := [⟨7, 0, 0, 0, 0, 0, none, 0⟩] } }, by decide +kernel⟩,
    ⟨1, [], { inMode .service with mx := { Mx.reset with jfly := some (1, []) } }, by decide +kernel⟩,
    ⟨{ inMode .service with mx := { Mx.reset with dirty := true } }, by decide +kernel⟩,
    ⟨{ inMode .service with time := ⟨10000000000, 10000000000, 0⟩ }, by decide +kernel⟩,
    ⟨⟨1, 1, 0, false, [], [], [], [], 2⟩,
        { inMode .service with mx := { Mx.reset with sweep := some ⟨1, 1, 0, false, [], [], [], [], 2⟩ } }, by decide +kernel⟩,
    ⟨1, 9, true, { inMode .service with mx := { Mx.reset with heldLines := [(1, 8)] } }, by decide +kernel⟩,
    ⟨State.reset, by decide +kernel⟩,
    ⟨1, 9, false, { inMode .service with mx := { Mx.reset with heldLines := [(1, 8)] } }, by decide +kernel⟩⟩

/-- Clauses 1, 2, 3, 4, 5, 6, 7, 8, 9, 10, 11, 12, 13, 14 of RackingAndErase. -/
theorem test_wit_RackingAndErase :
    (∃ (b : Barrel) (u : State) (s : State), u =
        flagIf (rackMode (rackWatch s).gen.mode && freeBelow Reg.MM_RACK.FREECRIT (rackWatch s)) Reg.MM_ERR.FREECRIT (rackWatch s) ∧
        rackMode u.gen.mode = true ∧ rackingNow u = false ∧ rackWanted u = true ∧ rackSource u = some b) ∧
    (∃ (u : State) (s : State), u =
        flagIf (rackMode (rackWatch s).gen.mode && freeBelow Reg.MM_RACK.FREECRIT (rackWatch s)) Reg.MM_ERR.FREECRIT (rackWatch s) ∧
        ((rackMode u.gen.mode = false ∨ rackingNow u = true ∨ rackWanted u = false ∨ rackSource u = none))) ∧
    (∃ (barrel : Nat) (s : State), s.mm.rackdone.contains barrel = true ∧ recPending (fun r => r.typ == 0x06 && r.key == barrel) s = false ∧
        readsPending (fun e => inBarrel barrel e s) s = false) ∧
    (∃ (barrel : Nat) (s : State), s.mm.rackdone.contains barrel = false) ∧
    (∃ (die : Nat) (block : Nat) (s : State), intentAt die block false s = true ∧ eraseIntPending die block s = false) ∧
    (∃ (die : Nat) (block : Nat) (s : State), intentAt die block false s = false) ∧
    (∃ (die : Nat) (block : Nat) (s : State), intentAt die block true s = true) ∧
    (∃ (die : Nat) (block : Nat) (s : State), intentAt die block true s = false) ∧
    (∃ (die : Nat) (slot : Nat) (s : State), bottleMode s.gen.mode = true ∧ ((slotRetired die slot s = true ∨ retiredWaits s = false))) ∧
    (∃ (s : State), bottleMode s.gen.mode = false) ∧
    (∃ (die : Nat) (slot : Nat) (b : Nat) (g : Group) (m : Nat) (s : State), pairOf die s = some (g, m) ∧ (((getPair g.num m s).full.head? =
        some slot ∨
        ((getPair g.num m s).retired.contains slot && !(getPair g.num m s).gone.contains slot && !(getPair g.num m s).erasing.contains slot) =
        true)) ∧ slotReclaimable g m slot s = true ∧ vatBlock g m slot s = some b) ∧
    (∃ (die : Nat) (s : State), pairOf die s = none) ∧
    (∃ (barrel : Nat) (s : State), refreshMode s.gen.mode = true ∧ (rackable s).any (fun b => b.num == barrel) = true ∧ tooOld barrel s =
        true) ∧
    (∃ (barrel : Nat) (s : State), tooOld barrel s = false) :=
  ⟨⟨aBarrel,
        flagIf (rackMode (rackWatch ({ grpState with mm := { Mm.reset with barrels := [aBarrel] } })).gen.mode && freeBelow Reg.MM_RACK.FREECRIT (rackWatch ({ grpState with mm := { Mm.reset with barrels := [aBarrel] } }))) Reg.MM_ERR.FREECRIT (rackWatch ({ grpState with mm := { Mm.reset with barrels := [aBarrel] } })),
        { grpState with mm := { Mm.reset with barrels := [aBarrel] } }, by decide +kernel⟩,
    ⟨flagIf (rackMode (rackWatch (State.reset)).gen.mode && freeBelow Reg.MM_RACK.FREECRIT (rackWatch (State.reset))) Reg.MM_ERR.FREECRIT (rackWatch (State.reset)),
        State.reset, by decide +kernel⟩,
    ⟨0, { grpState with mm := { Mm.reset with barrels := [aBarrel], rackdone := [0] } }, by decide +kernel⟩,
    ⟨0, State.reset, by decide +kernel⟩,
    ⟨3, 4, { inMode .service with mm := { Mm.reset with eraseInt := [(3, 4, false)] } }, by decide +kernel⟩,
    ⟨3, 4, State.reset, by decide +kernel⟩,
    ⟨3, 4, { inMode .service with mm := { Mm.reset with eraseInt := [(3, 4, true)] } }, by decide +kernel⟩,
    ⟨3, 4, State.reset, by decide +kernel⟩,
    ⟨0, 0,
        { grpState with mx := { Mx.reset with map := [(2 ^ 40, { anEntry with die := 0, vhint := 5, block := (vatBlock aGroup 0 0 grpState).getD 0 })] } },
        by decide +kernel⟩,
    ⟨State.reset, by decide +kernel⟩,
    ⟨0, 0, (vatBlock aGroup 0 0 grpState).getD 0, aGroup, 0,
        { grpState with mm := { Mm.reset with vat := [⟨0, 0, 1, 0, [0], [], [], []⟩] } }, by decide +kernel⟩,
    ⟨3, State.reset, by decide +kernel⟩,
    ⟨0, { grpState with mm := { Mm.reset with barrels := [aBarrel] }, time := ⟨3000000000000000, 3000000000000000, 0⟩ }, by decide +kernel⟩,
    ⟨0, State.reset, by decide +kernel⟩⟩

/-- Clauses 1, 2, 3, 4, 5, 6, 7, 8, 9, 10, 11, 12, 13, 14, 15, 16 of RefreshSnapshotRebuild. -/
theorem test_wit_RefreshSnapshotRebuild :
    (∃ (die : Nat) (block : Nat) (g : Group) (m : Nat) (p : Nat) (v : Nat) (s : State), refreshMode s.gen.mode = true ∧
        (getBlk die block s).refresh = true ∧ memberOf die s = some (g, m) ∧ slotOfBlock g m block s = some (p, v) ∧
        s.mm.racking.any (fun x => x.1 == bottleKey (g.die p) v) = false) ∧
    (∃ (die : Nat) (block : Nat) (s : State), (getBlk die block s).refresh = false) ∧
    (∃ (b : Barrel) (s : State), rackMode s.gen.mode = true ∧ oldestBarrel (s.mm.barrels.filter (fun b => decide (b.vintage = 4 ∧ b.state =
        1) && !s.mm.racking.any (fun x => x.1 == v4Key b.num) && !s.mm.rackdone.contains b.num)) = some b) ∧
    (∃ (s : State), s.mm.barrels = []) ∧
    (∃ (s : State), snapMode s.gen.mode = true ∧ s.sp.snapFly = none) ∧
    (∃ (s : State), s.sp.snapFly ≠ none) ∧
    (∃ (n : Snap) (s : State), s.sp.snapFly = some n) ∧
    (∃ (s : State), s.sp.snapFly = none) ∧
    (∃ (die : Nat) (e : Subst) (g : Group) (s : State), substOf die s = some e ∧ findGroup e.group s = some g ∧ e.state = 1 ∧
        backgroundMode s.gen.mode = true ∧ substDurable e s = true ∧ atBoundary g.num s = true ∧
        ((rebuildingGroups s).contains g.num || decide ((rebuildingGroups s).length + aheadOf g.num s < getF Reg.SP_REBCFG.MAXGRP s)) =
        true) ∧
    (∃ (die : Nat) (e : Subst) (s : State), substOf die s = some e ∧ substDurable e s = false) ∧
    (∃ (die : Nat) (row : Nat) (wordline : Nat) (e : Subst) (g : Group) (u : State) (s : State), substOf die s = some e ∧
        findGroup e.group s = some g ∧ e.state = 2 ∧ row = e.nextRow ∧ s.mm.racking.any (fun x => x.1 == barrelNum g.num row) = false ∧ u =
        (if wordline = 0 ∧
        (getBlk (rowPlace g (g.posOf die) row s).1 (rowPlace g (g.posOf die) row s).2 s).pptr ≠ 0 then eraseNow (rowPlace g (g.posOf die) row s) s else s) ∧
        (getBlk (rowPlace g (g.posOf die) row s).1 (rowPlace g (g.posOf die) row s).2 u).pptr = 4 * wordline) ∧
    (∃ (die : Nat) (row : Nat) (e : Subst) (s : State), substOf die s = some e ∧ row ≠ e.nextRow) ∧
    (∃ (group : Nat) (g : Group) (s : State), findGroup group s = some g ∧ g.dissolving = true ∧ groupEmpty g s = true) ∧
    (∃ (group : Nat) (g : Group) (s : State), findGroup group s = some g ∧ g.dissolving = false ∧ backgroundMode s.gen.mode = true ∧
        s.sp.groups.any (·.dissolving) = false ∧ (dissolvable s).any (fun x => x.num == group) = true ∧ fewest g s = true) ∧
    (∃ (group : Nat) (s : State), findGroup group s = none) ∧
    (∃ (die : Nat) (block : Nat) (g : Group) (m : Nat) (s : State), refreshMode s.gen.mode = true ∧ (getBlk die block s).refresh = true ∧
        memberOf die s = some (g, m) ∧ slotOfBlock g m block s = none ∧
        (barrelOf g m die block s).any (fun n => s.mm.racking.any (fun x => x.1 == n)) = false ∧ s.mm.racking.any (fun x => x.1 ==
        refreshKey die block) = false ∧ validGrains (fun e => decide (e.vhint ≠ 5 ∧ e.die = g.die m ∧ e.block =
        (match barrelOf g m die block s with | some n => rowBlock g m (barrelRow n) s | none => block))) s ≠ []) :=
  ⟨⟨0, (vatBlock aGroup 0 0 grpState).getD 0, aGroup, 0, 0, 0,
        updBlk 0 ((vatBlock aGroup 0 0 grpState).getD 0) (fun x => { x with refresh := true }) grpState, by decide +kernel⟩,
    ⟨0, 0, grpState, by decide +kernel⟩,
    ⟨⟨0, 4, 1, 0, false, 0, 0⟩, { grpState with mm := { Mm.reset with barrels := [⟨0, 4, 1, 0, false, 0, 0⟩] } }, by decide +kernel⟩,
    ⟨grpState, by decide +kernel⟩,
    ⟨inMode .service, by decide +kernel⟩,
    ⟨{ inMode .service with sp := { Sp.reset with snapFly := some ⟨1, 0, 0, 0, [], [], []⟩ } }, by decide +kernel⟩,
    ⟨⟨1, 0, 0, 0, [], [], []⟩, { inMode .service with sp := { Sp.reset with snapFly := some ⟨1, 0, 0, 0, [], [], []⟩ } }, by decide +kernel⟩,
    ⟨inMode .service, by decide +kernel⟩,
    ⟨0, ⟨0, 5, 0, 1, 0⟩, aGroup,
        { grpState with sp := { Sp.reset with groups := [aGroup], subst := [⟨0, 5, 0, 1, 0⟩] }, nand := { Nand.reset with snaps := [⟨1, 0, 0, 0, [], [⟨0, 5, 0, 1, 0⟩], []⟩] } },
        by decide +kernel⟩,
    ⟨0, ⟨0, 5, 0, 1, 0⟩, { grpState with sp := { Sp.reset with groups := [aGroup], subst := [⟨0, 5, 0, 1, 0⟩] } }, by decide +kernel⟩,
    ⟨0, 0, 2, ⟨0, 5, 0, 2, 0⟩, aGroup,
        updBlk (rowPlace aGroup 0 0 { grpState with sp := { Sp.reset with groups := [aGroup], subst := [⟨0, 5, 0, 2, 0⟩] } }).1 (rowPlace aGroup 0 0 { grpState with sp := { Sp.reset with groups := [aGroup], subst := [⟨0, 5, 0, 2, 0⟩] } }).2 (fun x => { x with pptr := 8 }) { grpState with sp := { Sp.reset with groups := [aGroup], subst := [⟨0, 5, 0, 2, 0⟩] } },
        updBlk (rowPlace aGroup 0 0 { grpState with sp := { Sp.reset with groups := [aGroup], subst := [⟨0, 5, 0, 2, 0⟩] } }).1 (rowPlace aGroup 0 0 { grpState with sp := { Sp.reset with groups := [aGroup], subst := [⟨0, 5, 0, 2, 0⟩] } }).2 (fun x => { x with pptr := 8 }) { grpState with sp := { Sp.reset with groups := [aGroup], subst := [⟨0, 5, 0, 2, 0⟩] } },
        by decide +kernel⟩,
    ⟨0, 1, ⟨0, 5, 0, 2, 0⟩, { grpState with sp := { Sp.reset with groups := [aGroup], subst := [⟨0, 5, 0, 2, 0⟩] } }, by decide +kernel⟩,
    ⟨0, { aGroup with dissolving := true }, { grpState with sp := { Sp.reset with groups := [{ aGroup with dissolving := true }] } },
        by decide +kernel⟩,
    ⟨0, { aGroup with waiting := true },
        { grpState with sp := { Sp.reset with groups := [{ aGroup with waiting := true }, { aGroup with num := 1, rows := 100000 }] } },
        by decide +kernel⟩,
    ⟨3, inMode .service, by decide +kernel⟩,
    ⟨0, 5000, aGroup, 0,
        updBlk 0 5000 (fun x => { x with refresh := true }) { grpState with mx := { Mx.reset with map := [(2 ^ 40, { anEntry with die := 0, block := 5000 })] } },
        by decide +kernel⟩⟩

/-- Clauses 1, 2, 3, 4, 5, 6, 7, 8, 9, 10, 11, 12, 13, 14, 15, 16, 17, 18, 19, 20, 21 of SequencersAndPatches. -/
theorem test_wit_SequencersAndPatches :
    (∃ (cluster : Fin 8) (seq : Fin 9) (cause : SeqFault) (took : Nat) (phy : Nat) (sp : Nat) (f : Field) (u : State) (s : State),
        (getCluster cluster.val s).faulted.contains seq.val = false ∧ phyOf seq.val (getCluster cluster.val s) = some phy ∧
        (getCluster cluster.val s).spare = some sp ∧ f =
        (match cause with | .microwordCheck => Reg.CS_ERR.MWCHK | _ => Reg.CS_ERR.SEQFAULT) ∧ u =
        takeOver cluster.val phy seq.val sp took (unitOut 1 (9 * cluster.val +
        seq.val) (updCluster cluster.val (fun c => { c with faulted := c.faulted ++ [seq.val] }) (setF Reg.CS_TAKEOVER.FAILSEQ (9 * cluster.val +
        seq.val) (flagOn f s))))) ∧
    (∃ (cluster : Fin 8) (seq : Fin 9) (s : State), (getCluster cluster.val s).faulted.contains seq.val = true) ∧
    (∃ (cluster : Fin 8) (seq : Fin 9) (phy : Nat) (s : State), (getCluster cluster.val s).faulted.contains seq.val = false ∧
        phyOf seq.val (getCluster cluster.val s) = some phy ∧ (getCluster cluster.val s).spare = none) ∧
    (∃ (cluster : Fin 8) (seq : Fin 9) (s : State), (getCluster cluster.val s).faulted.contains seq.val = true) ∧
    (∃ (channel : Fin 64) (tempDelta : Nat) (x : Channel) (s : State), mediaMode s.gen.mode = true ∧ s.cs.chans[channel.val]? = some x ∧
        x.ok = true ∧ (tempDelta = 0 ∨ getF Reg.CS_TRAIN.TDELTA s ≤ tempDelta)) ∧
    (∃ (channel : Fin 64) (s : State), (s.cs.chans[channel.val]?).any (·.ok) = false) ∧
    (∃ (channel : Fin 64) (failedTwice : Bool) (x : Channel) (s : State), s.cs.chans[channel.val]? = some x ∧ x.retrain ≠ 0 ∧ failedTwice =
        false) ∧
    (∃ (channel : Fin 64) (failedTwice : Bool) (x : Channel) (s : State), s.cs.chans[channel.val]? = some x ∧ x.retrain ≠ 0 ∧ failedTwice =
        true) ∧
    (∃ (channel : Fin 64) (x : Channel) (s : State), s.cs.chans[channel.val]? = some x ∧ x.retrain = 0) ∧
    (∃ (p : PatchSet) (atStartup : Bool) (s : State), atStartup = true ∧ s.gen.mode = .boot ∧ setFormatOk p s = true ∧ p.sigOk = true ∧
        acceptFlags p.flagA p.flagB = true) ∧
    (∃ (p : PatchSet) (atStartup : Bool) (s : State), atStartup = true ∧ s.gen.mode = .boot ∧ setFormatOk p s = false) ∧
    (∃ (cluster : Fin 8) (p : PatchSet) (atStartup : Bool) (s : State), atStartup = false ∧ s.cs.act = some (cluster.val, 0) ∧
        (getCluster cluster.val s).spare ≠ none ∧ setFormatOk p s = true ∧ p.sigOk = false) ∧
    (∃ (atStartup : Bool) (s : State), atStartup = false ∧ s.cs.act = none) ∧
    (∃ (cluster : Fin 8) (phy : Fin 8) (s : State), s.cs.act = some (cluster.val, phy.val) ∧ (getCluster cluster.val s).spare.isNone =
        false ∧
        (if newBank (getCluster cluster.val s) phy.val then (getCluster cluster.val s).bankB.locked else (getCluster cluster.val s).bankA.locked) =
        true) ∧
    (∃ (s : State), s.cs.act = none) ∧
    (∃ (cluster : Fin 8) (seq : Fin 9) (phy : Nat) (s : State), (getCluster cluster.val s).faulted.contains seq.val = false ∧
        phyOf seq.val (getCluster cluster.val s) = some phy ∧ (getCluster cluster.val s).spare = none) ∧
    (∃ (cluster : Fin 8) (seq : Fin 9) (s : State), (getCluster cluster.val s).faulted.contains seq.val = false ∧
        phyOf seq.val (getCluster cluster.val s) = none) ∧
    (∃ (cluster : Fin 8) (seq : Fin 9) (phy : Nat) (sp : Nat) (s : State), (getCluster cluster.val s).faulted.contains seq.val = false ∧
        phyOf seq.val (getCluster cluster.val s) = some phy ∧ (getCluster cluster.val s).spare = some sp) ∧
    (∃ (cluster : Fin 8) (seq : Fin 9) (s : State), (getCluster cluster.val s).faulted.contains seq.val = false ∧
        phyOf seq.val (getCluster cluster.val s) = none) ∧
    (∃ (cluster : Fin 8) (p : PatchSet) (atStartup : Bool) (s : State), atStartup = false ∧ s.cs.act = some (cluster.val, 0) ∧
        (getCluster cluster.val s).spare.isSome = true ∧ setFormatOk p s = true ∧ p.sigOk = true ∧ acceptFlags p.flagA p.flagB = true ∧
        bankUsed (getCluster cluster.val s) true = false) ∧
    (∃ (cluster : Fin 8) (p : PatchSet) (atStartup : Bool) (s : State), atStartup = false ∧ s.cs.act = some (cluster.val, 0) ∧
        (getCluster cluster.val s).spare.isSome = true ∧ setFormatOk p s = true ∧ p.sigOk = true ∧ acceptFlags p.flagA p.flagB = true ∧
        bankUsed (getCluster cluster.val s) true = true ∧ bankUsed (getCluster cluster.val s) false = false) :=
  ⟨⟨2, 3, .microwordCheck, 7, 3, 8, Reg.CS_ERR.MWCHK,
        takeOver 2 3 3 8 7 (unitOut 1 21 (updCluster 2 (fun c => { c with faulted := c.faulted ++ [3] }) (setF Reg.CS_TAKEOVER.FAILSEQ 21 (flagOn Reg.CS_ERR.MWCHK (inMode .service))))),
        inMode .service, by decide +kernel⟩,
    ⟨2, 3, updCluster 2 (fun c => { c with faulted := [3] }) (inMode .service), by decide +kernel⟩,
    ⟨2, 3, 3, updCluster 2 (fun c => { c with spare := none }) (inMode .service), by decide +kernel⟩,
    ⟨2, 3, updCluster 2 (fun c => { c with faulted := [3] }) (inMode .service), by decide +kernel⟩,
    ⟨5, 0, ⟨true, 0⟩, { inMode .service with cs := { Cs.reset with chans := List.replicate 64 ⟨true, 0⟩ } }, by decide +kernel⟩,
    ⟨5, inMode .service, by decide +kernel⟩,
    ⟨5, false, ⟨true, 2⟩, { inMode .service with cs := { Cs.reset with chans := List.replicate 64 ⟨true, 2⟩ } }, by decide +kernel⟩,
    ⟨5, true, ⟨true, 2⟩, { inMode .service with cs := { Cs.reset with chans := List.replicate 64 ⟨true, 2⟩ } }, by decide +kernel⟩,
    ⟨5, ⟨true, 0⟩, { inMode .service with cs := { Cs.reset with chans := List.replicate 64 ⟨true, 0⟩ } }, by decide +kernel⟩,
    ⟨⟨0x544C4254, 1, 2, 3, 4, 2400, 0, 0xFFFF, [], [], true, 0x5A5AC33C, 0xA5A53CC3⟩, true, inMode .boot, by decide +kernel⟩,
    ⟨⟨0, 1, 2, 3, 4, 2400, 0, 0xFFFF, [], [], true, 0x5A5AC33C, 0xA5A53CC3⟩, true, inMode .boot, by decide +kernel⟩,
    ⟨2, ⟨0x544C4254, 1, 2, 3, 4, 2400, 0, 0xFFFF, [], [], false, 0x5A5AC33C, 0xA5A53CC3⟩, false,
        { inMode .service with cs := { Cs.reset with act := some (2, 0) } }, by decide +kernel⟩,
    ⟨false, inMode .service, by decide +kernel⟩,
    ⟨2, 0,
        updCluster 2 (fun c => { c with bankB := { Bank.empty with locked := true } }) { inMode .service with cs := { Cs.reset with act := some (2, 0) } },
        by decide +kernel⟩,
    ⟨inMode .service, by decide +kernel⟩,
    ⟨2, 3, 3, updCluster 2 (fun c => { c with spare := none }) (inMode .service), by decide +kernel⟩,
    ⟨2, 8, inMode .service, by decide +kernel⟩,
    ⟨2, 3, 3, 8, inMode .service, by decide +kernel⟩,
    ⟨2, 8, inMode .service, by decide +kernel⟩,
    ⟨2, ⟨0x544C4254, 1, 2, 3, 4, 2400, 0, 0xFFFF, [], [], true, 0x5A5AC33C, 0xA5A53CC3⟩, false,
        { inMode .service with cs := { Cs.reset with act := some (2, 0) } }, by decide +kernel⟩,
    ⟨2, ⟨0x544C4254, 1, 2, 3, 4, 2400, 0, 0xFFFF, [], [], true, 0x5A5AC33C, 0xA5A53CC3⟩, false,
        updCluster 2 (fun c => { c with onB := List.replicate 9 true }) { inMode .service with cs := { Cs.reset with act := some (2, 0) } },
        by decide +kernel⟩⟩

/-- Clauses 1, 2, 3, 4, 5, 6, 7, 8, 9, 10, 11, 12, 13, 14, 15, 16 of BuffersAndLines. -/
theorem test_wit_BuffersAndLines :
    (∃ (owner : Fin 16) (n : Nat) (vc0 : Bool) (is : List Nat) (u : State) (s : State), 1 ≤ n ∧ n ≤ 512 ∧ allocCheck owner.val n vc0 s =
        none ∧ takeBufs owner.val n s = (is, true, u)) ∧
    (∃ (owner : Fin 16) (n : Nat) (vc0 : Bool) (why : AllocFail) (s : State), 1 ≤ n ∧ n ≤ 512 ∧ allocCheck owner.val n vc0 s = some why) ∧
    (∃ (n : Nat) (s : State), ((n = 0 ∨ 512 < n))) ∧
    (∃ (index : Nat) (s : State), (getBuf index s).used = false) ∧
    (∃ (index : Nat) (owner : Fin 16) (s : State), (getBuf index s).used = true ∧ (getBuf index s).owner ≠ some owner.val) ∧
    (∃ (index : Nat) (owner : Fin 16) (s : State), (getBuf index s).used = true ∧ (getBuf index s).owner = some owner.val) ∧
    (∃ (pool : Fin 16) (s : State), (getPool pool.val s).quar = true ∧ pool.val < s.bp.pools.length) ∧
    (∃ (pool : Fin 16) (s : State), (getPool pool.val s).quar = false) ∧
    (∃ (kind : LineKind) (s : State), kind = .parity) ∧
    (∃ (kind : LineKind) (s : State), kind = .mirrorReceive false) ∧
    (∃ (index : Nat) (generation : Nat) (isWrite : Bool) (s : State), sramBufs ≤ index ∧ (getBuf index s).gen ≠ generation ∧ isWrite = true) ∧
    (∃ (index : Nat) (generation : Nat) (isWrite : Bool) (s : State), sramBufs ≤ index ∧ (getBuf index s).gen ≠ generation ∧ isWrite =
        false) ∧
    (∃ (index : Nat) (generation : Nat) (s : State), (getBuf index s).gen = generation) ∧
    (∃ (meport : Fin 8) (m : Merge) (s : State), s.me.merges.find? (fun m => m.port == meport.val) = some m) ∧
    (∃ (s : State), s.me.merges = []) ∧
    (∃ (owner : Fin 16) (n : Nat) (vc0 : Bool) (is : List Nat) (u : State) (s : State), 1 ≤ n ∧ n ≤ 512 ∧ allocCheck owner.val n vc0 s =
        none ∧ takeBufs owner.val n s = (is, false, u)) :=
  ⟨⟨0, 2, false, (takeBufs 0 2 (inMode .service)).1, (takeBufs 0 2 (inMode .service)).2.2, inMode .service, by decide +kernel⟩,
    ⟨3, 2, false, .cap, { inMode .service with bp := { Bp.reset with owners := List.replicate 16 ⟨true, 0, 0, 0, 0⟩ } }, by decide +kernel⟩,
    ⟨600, inMode .service, by decide +kernel⟩,
    ⟨100, inMode .service, by decide +kernel⟩,
    ⟨100, 3, { inMode .service with bp := { Bp.reset with bufs := [(100, ⟨true, some 2, 0, false, false⟩)] } }, by decide +kernel⟩,
    ⟨100, 3, { inMode .service with bp := { Bp.reset with bufs := [(100, ⟨true, some 3, 0, false, false⟩)] } }, by decide +kernel⟩,
    ⟨3, { inMode .service with bp := { Bp.reset with pools := List.replicate 16 ⟨true, [], [], 0, 0⟩ } }, by decide +kernel⟩,
    ⟨3, inMode .service, by decide +kernel⟩,
    ⟨.parity, inMode .service, by decide +kernel⟩,
    ⟨.mirrorReceive false, inMode .service, by decide +kernel⟩,
    ⟨40000, 3, true, inMode .service, by decide +kernel⟩,
    ⟨40000, 3, false, inMode .service, by decide +kernel⟩,
    ⟨40000, 0, inMode .service, by decide +kernel⟩,
    ⟨2, ⟨2, 7, 1, false⟩, { inMode .service with me := { Me.reset with merges := [⟨2, 7, 1, false⟩] } }, by decide +kernel⟩,
    ⟨inMode .service, by decide +kernel⟩,
    ⟨0, 1, false, [], { inMode .service with bp := { Bp.reset with pools := List.replicate 16 ⟨false, [], [], 2 ^ 30, 0⟩ } },
        { inMode .service with bp := { Bp.reset with pools := List.replicate 16 ⟨false, [], [], 2 ^ 30, 0⟩ } }, by decide +kernel⟩⟩

set_option maxRecDepth 100000 in
/-- Clauses 1, 2, 3, 4, 5, 6, 7, 8, 9, 10, 11, 12, 13, 14 of LinksAndFlits. -/
theorem test_wit_LinksAndFlits :
    (∃ (link : Fin 12) (lanes : BitVec 4) (uid : Nat) (s : State), linkUsable link.val s = true ∧ (getLink link.val s).up = false ∧
        lanesState lanes ≠ 0 ∧ knownUid uid s = false) ∧
    (∃ (link : Fin 12) (lanes : BitVec 4) (reversed : Bool) (uid : Nat) (node : Nat) (plink : Nat) (s : State), linkUsable link.val s =
        true ∧ (getLink link.val s).up = false ∧ lanesState lanes ≠ 0 ∧ knownUid uid s = true ∧
        (evFabric (updLink link.val (fun l => { l with peerUid := uid, peerNode := node, peerLink := plink, reversed := reversed }) (linkUp link.val lanes s))).gf.discovering =
        false) ∧
    (∃ (lanes : BitVec 4) (s : State), lanesState lanes = 0) ∧
    (∃ (link : Fin 12) (bytes : List Byte) (s : State), fabricMode s.gen.mode = true ∧ (getLink link.val s).up = true ∧ bytes.length = 256 ∧
        leAt bytes 252 4 ≠ (crc32c (bytes.take 252)).toNat ∧ link.val < s.gf.links.length) ∧
    (∃ (link : Fin 12) (bytes : List Byte) (s : State), fabricMode s.gen.mode = true ∧ (getLink link.val s).up = true ∧ bytes.length = 256 ∧
        leAt bytes 252 4 = (crc32c (bytes.take 252)).toNat) ∧
    (∃ (bytes : List Byte) (s : State), bytes.length ≠ 256) ∧
    (∃ (link : Fin 12) (s : State), (getLink link.val s).up = true) ∧
    (∃ (link : Fin 12) (s : State), (getLink link.val s).up = false) ∧
    (∃ (link : Fin 12) (lanes : BitVec 4) (s : State), linkUsable link.val s = true ∧ (getLink link.val s).up = false ∧ lanesState lanes =
        0) ∧
    (∃ (link : Fin 12) (lanes : BitVec 4) (s : State), linkUsable link.val s = true ∧ (getLink link.val s).up = false ∧
        lanesState lanes ≠ 0) ∧
    (∃ (link : Fin 12) (s : State), linkUsable link.val s = true ∧ (getLink link.val s).st = 0) ∧
    (∃ (link : Fin 12) (s : State), (getLink link.val s).st ≠ 0) ∧
    (∃ (link : Fin 12) (lanes : BitVec 4) (reversed : Bool) (uid : Nat) (node : Nat) (plink : Nat) (s : State), linkUsable link.val s =
        true ∧ (getLink link.val s).up = false ∧ lanesState lanes ≠ 0 ∧ knownUid uid s = true ∧
        (evFabric (updLink link.val (fun l => { l with peerUid := uid, peerNode := node, peerLink := plink, reversed := reversed }) (linkUp link.val lanes s))).gf.discovering =
        true) ∧
    (∃ (link : Fin 12) (s : State), ((fabricMode s.gen.mode = false ∨ (getLink link.val s).up = false))) :=
  ⟨⟨3, 15, 77, setF Reg.GF_CFG.LINKEN 4095 (inMode .service), by decide +kernel⟩,
    ⟨3, 3, false, 77, 9, 2, setF Reg.GF_CFG.LINKEN 4095 (routed .service), by decide +kernel⟩,
    ⟨5, setF Reg.GF_CFG.LINKEN 4095 (inMode .service), by decide +kernel⟩,
    ⟨0, List.replicate 256 0, routed .service, by decide +kernel⟩,
    ⟨0, List.replicate 252 0 ++ (List.range 4).map (fun i => BitVec.ofNat 8 ((crc32c (List.replicate 252 0)).toNat / 256 ^ i)),
        routed .service, by decide +kernel⟩,
    ⟨[], routed .service, by decide +kernel⟩,
    ⟨0, routed .service, by decide +kernel⟩,
    ⟨1, routed .service, by decide +kernel⟩,
    ⟨3, 0, setF Reg.GF_CFG.LINKEN 4095 (inMode .service), by decide +kernel⟩,
    ⟨3, 15, setF Reg.GF_CFG.LINKEN 4095 (inMode .service), by decide +kernel⟩,
    ⟨3, setF Reg.GF_CFG.LINKEN 4095 (inMode .service), by decide +kernel⟩,
    ⟨0, routed .service, by decide +kernel⟩,
    ⟨3, 3, false, 77, 9, 2,
        { setF Reg.GF_CFG.LINKEN 4095 (routed .service) with gf := { (setF Reg.GF_CFG.LINKEN 4095 (routed .service)).gf with discovering := true } },
        by decide +kernel⟩,
    ⟨1, State.reset, by decide +kernel⟩⟩

/-- Clauses 1, 2, 3, 4, 5, 6, 7, 8, 9, 10, 11, 12 of FrameStreams. -/
theorem test_wit_FrameStreams :
    (∃ (vc : Fin 4) (src : Nat) (s : State), fabricMode s.gen.mode = true ∧ 0 < (getRxStream vc.val src s).unacked) ∧
    (∃ (vc : Fin 4) (src : Nat) (s : State), ((fabricMode s.gen.mode = false ∨ (getRxStream vc.val src s).unacked = 0))) ∧
    (∃ (vc : Fin 4) (dst : Nat) (xseq : Nat) (fr : TxFrame) (s : State), fabricMode s.gen.mode = true ∧
        s.gf.txFrames.find? (fun x => decide (x.vc = vc.val ∧ x.dst = dst ∧ x.xseq = xseq)) = some fr) ∧
    (∃ (vc : Fin 4) (dst : Nat) (xseq : Nat) (s : State), ((fabricMode s.gen.mode = false ∨ s.gf.txFrames.find? (fun x => decide (x.vc =
        vc.val ∧ x.dst = dst ∧ x.xseq = xseq)) = none))) ∧
    (∃ (vc : Fin 4) (src : Nat) (nextXseq : Nat) (s : State), fabricMode s.gen.mode = true ∧ (getRxStream vc.val src s).next ≤ nextXseq) ∧
    (∃ (vc : Fin 4) (src : Nat) (nextXseq : Nat) (s : State), ((fabricMode s.gen.mode = false ∨
        nextXseq < (getRxStream vc.val src s).next))) ∧
    (∃ (s : State), fabricMode s.gen.mode = true) ∧
    (∃ (vc : Fin 4) (src : Nat) (xseq : Nat) (cause : Nat) (fr : TxFrame) (s : State), fabricMode s.gen.mode = true ∧
        s.gf.txFrames.find? (fun x => decide (x.vc = vc.val ∧ x.dst = src ∧ x.xseq = xseq)) = some fr ∧ cause ≠ 4) ∧
    (∃ (vc : Fin 4) (src : Nat) (xseq : Nat) (cause : Nat) (fr : TxFrame) (s : State), fabricMode s.gen.mode = true ∧
        s.gf.txFrames.find? (fun x => decide (x.vc = vc.val ∧ x.dst = src ∧ x.xseq = xseq)) = some fr ∧ cause = 4) ∧
    (∃ (vc : Fin 4) (src : Nat) (xseq : Nat) (cause : Nat) (s : State), fabricMode s.gen.mode = true ∧
        s.gf.txFrames.find? (fun x => decide (x.vc = vc.val ∧ x.dst = src ∧ x.xseq = xseq)) = none ∧ cause = 0 ∧
        xseq < (getTxStream vc.val src s).next) ∧
    (∃ (s : State), (fabricMode s.gen.mode = false)) ∧
    (∃ (s : State), (fabricMode s.gen.mode = false)) :=
  ⟨⟨2, 9, { routed .service with gf := { (routed .service).gf with rxStreams := [⟨2, 9, 5, [], 3⟩] } }, by decide +kernel⟩,
    ⟨2, 9, routed .service, by decide +kernel⟩,
    ⟨2, 9, 6, ⟨2, 9, 6, 0x21, 0, 0, 4, [], []⟩,
        { routed .service with gf := { (routed .service).gf with txFrames := [⟨2, 9, 6, 0x21, 0, 0, 4, [], []⟩] } }, by decide +kernel⟩,
    ⟨2, 9, 6, routed .service, by decide +kernel⟩,
    ⟨2, 9, 7, { routed .service with gf := { (routed .service).gf with rxStreams := [⟨2, 9, 5, [], 3⟩] } }, by decide +kernel⟩,
    ⟨2, 9, 1, { routed .service with gf := { (routed .service).gf with rxStreams := [⟨2, 9, 5, [], 3⟩] } }, by decide +kernel⟩,
    ⟨{ routed .service with gf := { (routed .service).gf with txFrames := [⟨2, 9, 6, 0x21, 0, 0, 4, [], []⟩] } }, by decide +kernel⟩,
    ⟨2, 9, 6, 2, ⟨2, 9, 6, 0x21, 0, 0, 4, [], []⟩,
        { routed .service with gf := { (routed .service).gf with txFrames := [⟨2, 9, 6, 0x21, 0, 0, 4, [], []⟩] } }, by decide +kernel⟩,
    ⟨2, 9, 6, 4, ⟨2, 9, 6, 0x21, 0, 0, 4, [], []⟩,
        { routed .service with gf := { (routed .service).gf with txFrames := [⟨2, 9, 6, 0x21, 0, 0, 4, [], []⟩] } }, by decide +kernel⟩,
    ⟨2, 9, 6, 0, { routed .service with gf := { (routed .service).gf with txStreams := [⟨2, 9, 8, false⟩] } }, by decide +kernel⟩,
    ⟨State.reset, by decide +kernel⟩,
    ⟨State.reset, by decide +kernel⟩⟩

/-- Clauses 1, 2, 3, 4, 5, 6, 7, 8, 9, 10, 11, 12, 13, 14, 15, 16, 17, 18, 19 of DiscoveryAndRouting. -/
theorem test_wit_DiscoveryAndRouting :
    (∃ (link : Fin 12) (uid : Nat) (candUid : Nat) (candDist : Nat) (s : State), fabricMode s.gen.mode = true ∧ (getLink link.val s).up =
        true ∧ betterCand candUid (candDist + 1) (updLink link.val (fun l => { l with peerUid := uid }) s) = true) ∧
    (∃ (link : Fin 12) (uid : Nat) (candUid : Nat) (candDist : Nat) (s : State), fabricMode s.gen.mode = true ∧ (getLink link.val s).up =
        true ∧ betterCand candUid (candDist + 1) (updLink link.val (fun l => { l with peerUid := uid }) s) = false) ∧
    (∃ (link : Fin 12) (s : State), ((fabricMode s.gen.mode = false ∨ (getLink link.val s).up = false))) ∧
    (∃ (s : State), fabricMode s.gen.mode = true ∧ s.gf.discovering = true ∧ s.gf.candUid = s.fuses.uid) ∧
    (∃ (s : State), ((fabricMode s.gen.mode = false ∨ s.gf.discovering = false ∨ s.gf.candUid ≠ s.fuses.uid))) ∧
    (∃ (uid : Nat) (node : Option Nat) (s : State), fabricMode s.gen.mode = true ∧ (heldOutBy uid node s).gf.isCoord = true) ∧
    (∃ (uid : Nat) (node : Option Nat) (s : State), fabricMode s.gen.mode = true ∧ (heldOutBy uid node s).gf.isCoord = false) ∧
    (∃ (s : State), fabricMode s.gen.mode = true) ∧
    (∃ (s : State), fabricMode s.gen.mode = true) ∧
    (∃ (num : Nat) (at_ : Nat) (s : State), fabricMode s.gen.mode = true ∧ s.gf.epochAt = some (num, at_) ∧ s.gf.asideEpoch = num) ∧
    (∃ (s : State), ((fabricMode s.gen.mode = false ∨ s.gf.epochAt = none))) ∧
    (∃ (s : State), s.gf.isCoord = false ∧ fabricMode s.gen.mode = true) ∧
    (∃ (s : State), s.gf.isCoord = true) ∧
    (∃ (s : State), fabricMode s.gen.mode = true ∧ s.gf.isCoord = false ∧ 3 ≤ s.gf.missed) ∧
    (∃ (s : State), ((fabricMode s.gen.mode = false ∨ s.gf.isCoord = true ∨ s.gf.missed < 3))) ∧
    (∃ (who : Writer) (s : State), who ≠ .host ∧ setupOpen who s = true ∧ mayWrite who Reg.GF_NODE.REASSIGN.reg s = true ∧ s.gf.heldOut =
        true) ∧
    (∃ (who : Writer) (s : State), who = .host ∧ setupOpen who s = true) ∧
    (∃ (uid : Nat) (node : Option Nat) (s : State), fabricMode s.gen.mode = true ∧ s.gf.isCoord = false ∧ s.gf.node = node ∧ node ≠ none ∧
        uid < s.fuses.uid ∧ s.gf.heldOut = false) ∧
    (∃ (who : Writer) (s : State), who ≠ .host ∧ setupOpen who s = true ∧ mayWrite who Reg.GF_NODE.REASSIGN.reg s = true ∧ s.gf.heldOut =
        false) :=
  ⟨⟨0, 4, 3, 2, { routed .boot with gf := { (routed .boot).gf with candUid := 8 } }, by decide +kernel⟩,
    ⟨0, 4, 13, 2, routed .boot, by decide +kernel⟩,
    ⟨1, routed .boot, by decide +kernel⟩,
    ⟨{ inMode .service with gf := { Gf.reset with discovering := true } }, by decide +kernel⟩,
    ⟨{ inMode .service with gf := { Gf.reset with candUid := 4 } }, by decide +kernel⟩,
    ⟨4, some 3, { inMode .service with gf := { Gf.reset with isCoord := true } }, by decide +kernel⟩,
    ⟨4, some 3, { inMode .service with gf := { Gf.reset with node := some 3 }, fuses := { State.reset.fuses with uid := 9 } },
        by decide +kernel⟩,
    ⟨inMode .service, by decide +kernel⟩,
    ⟨inMode .service, by decide +kernel⟩,
    ⟨2, 500000,
        { inMode .service with gf := { Gf.reset with epochAt := some (2, 500000), asideEpoch := 2, aside := [(9, ⟨0, 12, 1, 1, true⟩)] } },
        by decide +kernel⟩,
    ⟨inMode .service, by decide +kernel⟩,
    ⟨routed .service, by decide +kernel⟩,
    ⟨{ inMode .service with gf := { Gf.reset with isCoord := true } }, by decide +kernel⟩,
    ⟨{ inMode .service with gf := { Gf.reset with missed := 3 } }, by decide +kernel⟩,
    ⟨routed .service, by decide +kernel⟩,
    ⟨.mgmt, { inMode .service with gf := { Gf.reset with heldOut := true, node := some 3 } }, by decide +kernel⟩,
    ⟨.host, released .service, by decide +kernel⟩,
    ⟨4, some 3, { inMode .service with gf := { Gf.reset with node := some 3 }, fuses := { State.reset.fuses with uid := 9 } },
        by decide +kernel⟩,
    ⟨.mgmt, { inMode .service with gf := { Gf.reset with heldOut := false, node := some 3 } }, by decide +kernel⟩⟩

/-- Clauses 1, 2, 3, 4, 5, 6 of DeviceTime. -/
theorem test_wit_DeviceTime :
    (∃ (p : Nat) (s : State), timeMaster s = false ∧ fabricMode s.gen.mode = true ∧ timeParent s = some p) ∧
    (∃ (s : State), timeMaster s = true) ∧
    (∃ (t1 : Nat) (t2 : Nat) (t3 : Nat) (t4 : Nat) (masterStep : Nat) (u : State) (o : Int) (good : Nat) (s : State),
        fabricMode s.gen.mode = true ∧ u = (if masterStep < 4000 then s else timeStep (masterStep - masterStep % 4000) s) ∧ timeMaster u =
        false ∧ o = timeOffset t1 t2 t3 t4 ∧ good = (if -20 ≤ o ∧ o ≤ 20 then u.gf.goodEx + 1 else 0)) ∧
    (∃ (t1 : Nat) (t2 : Nat) (t3 : Nat) (t4 : Nat) (masterStep : Nat) (s : State), fabricMode s.gen.mode = true ∧ masterStep < 4000 ∧
        timeMaster s = false ∧ timeOffset t1 t2 t3 t4 < -20 ∧ -4000 ≤ timeOffset t1 t2 t3 t4) ∧
    (∃ (masterStep : Nat) (s : State), fabricMode s.gen.mode = true ∧
        timeMaster (if masterStep < 4000 then s else timeStep (masterStep - masterStep % 4000) s) = true) ∧
    (∃ (s : State), (fabricMode s.gen.mode = false)) :=
  ⟨⟨9, routed .service, by decide +kernel⟩,
    ⟨{ inMode .service with gf := { Gf.reset with isCoord := true } }, by decide +kernel⟩,
    ⟨1000, 1010, 1020, 1030, 0, routed .service, 0, (routed .service).gf.goodEx + 1, routed .service, by decide +kernel⟩,
    ⟨1000, 100, 200, 1200, 0, routed .service, by decide +kernel⟩,
    ⟨0, { inMode .service with gf := { Gf.reset with isCoord := true } }, by decide +kernel⟩,
    ⟨State.reset, by decide +kernel⟩⟩

/-- Clauses 1, 2, 3, 4, 5, 6, 7, 8, 9 of ReceivedFrames. -/
theorem test_wit_ReceivedFrames :
    (∃ (h : FrameHdr) (len : Nat) (s : State), h.len = 16 ∧ 1 ≤ len ∧ len ≤ 4096 ∧ fabricMode s.gen.mode = true ∧ h.trailerAgrees = true ∧
        h.fcrcOk = true ∧ h.linesOk = true ∧ h.xseq = (getRxStream h.vc h.src s).next) ∧
    (∃ (h : FrameHdr) (len : Nat) (s : State), fabricMode s.gen.mode = true ∧ ((h.len ≠ 16 ∨ len = 0 ∨ 4096 < len ∨ h.trailerAgrees =
        false))) ∧
    (∃ (h : FrameHdr) (len : Nat) (s : State), h.len = 16 ∧ 1 ≤ len ∧ len ≤ 4096 ∧ fabricMode s.gen.mode = true ∧ h.trailerAgrees = true ∧
        h.fcrcOk = true ∧ h.linesOk = true ∧ h.xseq < (getRxStream h.vc h.src s).next) ∧
    (∃ (h : FrameHdr) (data : List Byte) (s : State), h.len = data.length ∧ (pendOf h.tag s).all (fun x => x.2.2.2.1 == data.length) =
        true ∧ fabricMode s.gen.mode = true ∧ h.trailerAgrees = true ∧ h.fcrcOk = true ∧ h.linesOk = true ∧ h.xseq =
        (getRxStream h.vc h.src s).next) ∧
    (∃ (h : FrameHdr) (data : List Byte) (s : State), h.len = data.length ∧ 1 ≤ data.length ∧ data.length ≤ 4096 ∧ fabricMode s.gen.mode =
        true ∧ h.trailerAgrees = true ∧ h.fcrcOk = true ∧ h.linesOk = true ∧ h.xseq = (getRxStream h.vc h.src s).next) ∧
    (∃ (h : FrameHdr) (data : List Byte) (s : State), h.len = data.length ∧ 1 ≤ data.length ∧ data.length ≤ 4096 ∧ fabricMode s.gen.mode =
        true ∧ h.trailerAgrees = true ∧ h.fcrcOk = false) ∧
    (∃ (h : FrameHdr) (s : State), 16 ≤ h.len ∧ h.len ≤ 4096 ∧ fabricMode s.gen.mode = true ∧ h.trailerAgrees = true ∧ h.fcrcOk = true ∧
        h.linesOk = true ∧ h.xseq = (getRxStream h.vc h.src s).next) ∧
    (∃ (s : State), fabricMode s.gen.mode = false) ∧
    (∃ (h : FrameHdr) (data : List Byte) (s : State), h.len = data.length ∧ 1 ≤ data.length ∧ data.length ≤ 4096 ∧ fabricMode s.gen.mode =
        true ∧ h.trailerAgrees = true ∧ h.fcrcOk = true ∧ h.linesOk = true ∧ (getRxStream h.vc h.src s).next < h.xseq) :=
  ⟨⟨frm 0x20 16 2, 64, routed .service, by decide +kernel⟩,
    ⟨frm 0x20 15 2, 64, routed .service, by decide +kernel⟩,
    ⟨frm 0x20 16 2, 64, { routed .service with gf := { (routed .service).gf with rxStreams := [⟨2, 9, 5, [], 3⟩] } }, by decide +kernel⟩,
    ⟨frm 0x21 1 2, [7], { routed .service with gf := { (routed .service).gf with pendRd := [(4, .a, 3, 1, 0)] } }, by decide +kernel⟩,
    ⟨frm 0x22 1 2, [7], routed .service, by decide +kernel⟩,
    ⟨{ frm 0x22 1 2 with fcrcOk := false }, [7], routed .service, by decide +kernel⟩,
    ⟨frm 0x30 64 3, routed .service, by decide +kernel⟩,
    ⟨inMode .drain, by decide +kernel⟩,
    ⟨{ frm 0x22 1 2 with xseq := 700 }, [7], routed .service, by decide +kernel⟩⟩

/-- Clauses 1, 2, 3, 4, 5, 6, 7, 8, 9, 10, 11, 12, 13, 14, 15, 16 of MirroredRecords. -/
theorem test_wit_MirroredRecords :
    (∃ (g : GrainRec) (is : List Nat) (u : State) (s : State), standbyOn s = true ∧ bpAlloc 4 (Nat.max 1 (ceilDiv g.glen 8)) false s =
        (some is, u)) ∧
    (∃ (s : State), standbyOn s = false) ∧
    (∃ (csn : Nat) (s : State), standbyOn s = true ∧ (recordIn s).tw.ack < csn) ∧
    (∃ (csn : Nat) (s : State), standbyOn s = true ∧ csn ≤ (recordIn s).tw.ack) ∧
    (∃ (s : State), standbyOn s = false) ∧
    (∃ (s : State), standbyOn s = true) ∧
    (∃ (s : State), standbyOn s = false) ∧
    (∃ (s : State), standbyOn s = true) ∧
    (∃ (s : State), standbyOn s = false) ∧
    (∃ (s : State), standbyOn s = true) ∧
    (∃ (s : State), standbyOn s = false) ∧
    (∃ (s : State), standbyOn s = true) ∧
    (∃ (s : State), standbyOn s = false) ∧
    (∃ (isAnswer : Bool) (s : State), fabricMode s.gen.mode = true ∧ repairOn s = true ∧ isAnswer = false) ∧
    (∃ (isAnswer : Bool) (g : GrainRec) (lostCsn : Nat) (s : State), fabricMode s.gen.mode = true ∧ repairOn s = true ∧ isAnswer = true ∧
        (getEntry g.nsid g.grain (recordIn s)).lost = true ∧ (getEntry g.nsid g.grain (recordIn s)).staged = false ∧
        lostCsnOf g lostCsn (recordIn s) ≤ g.csn) ∧
    (∃ (s : State), repairOn s = false) :=
  ⟨⟨aGrain, ((bpAlloc 4 1 false dramStandby).1).getD [], (bpAlloc 4 1 false dramStandby).2, dramStandby, by decide +kernel⟩,
    ⟨inMode .service, by decide +kernel⟩,
    ⟨5, standbyState, by decide +kernel⟩,
    ⟨0, standbyState, by decide +kernel⟩,
    ⟨inMode .service, by decide +kernel⟩,
    ⟨standbyState, by decide +kernel⟩,
    ⟨inMode .service, by decide +kernel⟩,
    ⟨standbyState, by decide +kernel⟩,
    ⟨inMode .service, by decide +kernel⟩,
    ⟨standbyState, by decide +kernel⟩,
    ⟨inMode .service, by decide +kernel⟩,
    ⟨standbyState, by decide +kernel⟩,
    ⟨inMode .service, by decide +kernel⟩,
    ⟨false, standbyState, by decide +kernel⟩,
    ⟨true, aGrain, 0, { standbyState with mx := { Mx.reset with map := [(2 ^ 40, { anEntry with lost := true })] } }, by decide +kernel⟩,
    ⟨inMode .service, by decide +kernel⟩⟩

/-- Clauses 1, 2, 3, 4, 5, 6, 7, 8, 9, 10, 11, 12, 13, 14, 15, 16 of PairHeartbeat. -/
theorem test_wit_PairHeartbeat :
    (∃ (s : State), beats s = true) ∧
    (∃ (s : State), s.tw.st = .none) ∧
    (∃ (peerState : Nat) (csn : Nat) (s : State), fabricMode s.gen.mode = true ∧ s.tw.st ≠ .none ∧ s.tw.st ≠ .fenced ∧
        ((standbyOn (updTw (fun t => { t with pathALost := false, hbCsn := Nat.max t.hbCsn csn }) s) = false ∨ s.tw.st ≠ .seeding ∨
        peerState ≠ 2))) ∧
    (∃ (peerState : Nat) (csn : Nat) (s : State), fabricMode s.gen.mode = true ∧ s.tw.st = .seeding ∧
        standbyOn (updTw (fun t => { t with pathALost := false, hbCsn := Nat.max t.hbCsn csn }) s) = true ∧ peerState = 2) ∧
    (∃ (s : State), ((fabricMode s.gen.mode = false ∨ s.tw.st = .none ∨ s.tw.st = .fenced))) ∧
    (∃ (pathB : Bool) (sinceUs : Nat) (s : State), fabricMode s.gen.mode = true ∧ 202 ≤ sinceUs ∧ ((s.tw.st = .seeding ∨ s.tw.st = .paired ∨
        s.tw.st = .solo)) ∧
        ((updTw (fun t => if pathB then { t with pathBLost := true } else { t with pathALost := true }) s).tw.pathALost && (updTw (fun t => if pathB then { t with pathBLost := true } else { t with pathALost := true }) s).tw.pathBLost) =
        false) ∧
    (∃ (pathB : Bool) (sinceUs : Nat) (s : State), fabricMode s.gen.mode = true ∧ 202 ≤ sinceUs ∧ ((s.tw.st = .seeding ∨ s.tw.st = .paired ∨
        s.tw.st = .solo)) ∧ (updTw (fun t => if pathB then { t with pathBLost := true } else { t with pathALost := true }) s).tw.pathALost =
        true ∧ (updTw (fun t => if pathB then { t with pathBLost := true } else { t with pathALost := true }) s).tw.pathBLost = true ∧
        s.tw.active = false ∧ s.gen.mode = .standby ∧ s.tw.switchAt = none) ∧
    (∃ (sinceUs : Nat) (s : State), ((fabricMode s.gen.mode = false ∨ sinceUs < 202 ∨ s.tw.st = .none ∨ s.tw.st = .lost ∨ s.tw.st =
        .fenced))) ∧
    (∃ (s : State), fabricMode s.gen.mode = true ∧ s.tw.active = false ∧ s.gen.mode = .standby ∧ s.tw.st = .paired) ∧
    (∃ (s : State), ((fabricMode s.gen.mode = false ∨ s.tw.active = true ∨ s.gen.mode ≠ .standby))) ∧
    (∃ (cmd : Nat) (c : IoCmd) (s : State), fabricMode s.gen.mode = true ∧ findCmd cmd s = some c ∧ s.tw.active = true ∧ s.tw.st = .paired ∧
        changesData c.kind = true ∧ c.acked = false) ∧
    (∃ (cmd : Nat) (s : State), ((fabricMode s.gen.mode = false ∨ findCmd cmd s = none))) ∧
    (∃ (goodMs : Nat) (s : State), fabricMode s.gen.mode = true ∧ s.tw.active = true ∧ s.tw.st = .solo ∧ 10 ≤ goodMs ∧ s.mx.csn ≤ s.tw.ack ∧
        s.tw.pathALost = false ∧ s.tw.pathBLost = false) ∧
    (∃ (goodMs : Nat) (s : State), ((fabricMode s.gen.mode = false ∨ goodMs < 10))) ∧
    (∃ (pathB : Bool) (sinceUs : Nat) (s : State), fabricMode s.gen.mode = true ∧ 202 ≤ sinceUs ∧ ((s.tw.st = .seeding ∨ s.tw.st = .paired ∨
        s.tw.st = .solo)) ∧ (updTw (fun t => if pathB then { t with pathBLost := true } else { t with pathALost := true }) s).tw.pathALost =
        true ∧ (updTw (fun t => if pathB then { t with pathBLost := true } else { t with pathALost := true }) s).tw.pathBLost = true ∧
        s.tw.st = .paired ∧ s.tw.active = false ∧ s.gen.mode = .standby ∧ s.tw.switchAt = none) ∧
    (∃ (s : State), fabricMode s.gen.mode = true ∧ s.tw.active = false ∧ s.gen.mode = .standby) :=
  ⟨⟨standbyState, by decide +kernel⟩,
    ⟨routed .service, by decide +kernel⟩,
    ⟨2, 9, standbyState, by decide +kernel⟩,
    ⟨2, 9, { routed .standby with tw := { Tw.reset with peer := 9, st := .seeding } }, by decide +kernel⟩,
    ⟨routed .service, by decide +kernel⟩,
    ⟨true, 300, standbyState, by decide +kernel⟩,
    ⟨true, 300, { routed .standby with tw := { Tw.reset with peer := 9, st := .paired, pathALost := true } }, by decide +kernel⟩,
    ⟨30, standbyState, by decide +kernel⟩,
    ⟨standbyState, by decide +kernel⟩,
    ⟨{ routed .service with tw := { Tw.reset with peer := 9, st := .paired, active := true } }, by decide +kernel⟩,
    ⟨5, aCmd .write .commit, { cmdState .write .commit with tw := { Tw.reset with st := .paired, active := true, peer := 9 } },
        by decide +kernel⟩,
    ⟨5, ioState, by decide +kernel⟩,
    ⟨10, { routed .service with tw := { Tw.reset with peer := 9, st := .solo, active := true } }, by decide +kernel⟩,
    ⟨3, { routed .service with tw := { Tw.reset with peer := 9, st := .solo, active := true } }, by decide +kernel⟩,
    ⟨true, 300, { routed .standby with tw := { Tw.reset with peer := 9, st := .paired, pathALost := true } }, by decide +kernel⟩,
    ⟨standbyState, by decide +kernel⟩⟩

/-- Clauses 1, 2, 3, 4, 5, 6, 7, 8, 9, 10, 11, 12, 13, 14, 15, 16 of PairControl. -/
theorem test_wit_PairControl :
    (∃ (action : Nat) (idOk : Bool) (s : State), fabricMode s.gen.mode = true ∧ idOk = true ∧ action = 0 ∧ s.tw.st = .none ∧ s.gen.mode =
        .service ∧ s.ns = [] ∧ noSession s = true) ∧
    (∃ (idOk : Bool) (s : State), fabricMode s.gen.mode = true ∧ idOk = false) ∧
    (∃ (action : Nat) (idOk : Bool) (s : State), fabricMode s.gen.mode = true ∧ idOk = true ∧ action = 0 ∧ s.ns ≠ []) ∧
    (∃ (accepted : Bool) (identityOk : Bool) (s : State), fabricMode s.gen.mode = true ∧ s.tw.st = .none ∧ s.tw.waitCmd.isNone = false ∧
        ((s.tw.mig.role = 1 → s.tw.mig.phase ≠ 0)) ∧ accepted = true ∧ identityOk = true) ∧
    (∃ (accepted : Bool) (identityOk : Bool) (s : State), fabricMode s.gen.mode = true ∧ s.tw.st = .none ∧ s.tw.waitCmd.isNone = false ∧
        ((s.tw.mig.role = 1 → s.tw.mig.phase ≠ 0)) ∧ accepted = false ∧ identityOk = true) ∧
    (∃ (s : State), ((fabricMode s.gen.mode = false ∨ s.tw.waitCmd = none ∨ s.tw.st ≠ .none))) ∧
    (∃ (s : State), standbyOn s = true ∧ s.tw.st = .paired) ∧
    (∃ (s : State), standbyOn s = false) ∧
    (∃ (s : State), fabricMode s.gen.mode = true ∧ s.tw.switching = true ∧ s.tw.active = true ∧ s.tw.switchSent = true) ∧
    (∃ (s : State), ((fabricMode s.gen.mode = false ∨ s.tw.switching = false ∨ s.tw.active = false ∨ s.tw.switchSent = false))) ∧
    (∃ (nsid : Nat) (seg : Nat) (s : State), fabricMode s.gen.mode = true ∧ s.tw.st = .seeding ∧ s.tw.seedTodo.contains (nsid, seg) = true ∧
        s.tw.active = true ∧ s.tw.stopped.contains 2 = false ∧ s.tw.seedFly.contains (nsid, seg) = false ∧
        s.tw.seedFly.length < getF Reg.TW_MIGCFG.PAR s) ∧
    (∃ (nsid : Nat) (seg : Nat) (s : State), fabricMode s.gen.mode = true ∧ s.tw.st = .seeding ∧ s.tw.seedTodo.contains (nsid, seg) = true ∧
        s.tw.active = false ∧ standbyOn s = true) ∧
    (∃ (s : State), ((fabricMode s.gen.mode = false ∨ s.tw.st ≠ .seeding))) ∧
    (∃ (src : Nat) (action : Nat) (idOk : Bool) (s : State), fabricMode s.gen.mode = true ∧ idOk = true ∧ action = 2 ∧ s.gen.mode =
        .standby ∧ s.prov.pair = some (src, false)) ∧
    (∃ (src : Nat) (action : Nat) (idOk : Bool) (s : State), fabricMode s.gen.mode = true ∧ idOk = true ∧ action = 3 ∧ s.tw.st ≠ .none ∧
        s.tw.active = false ∧ s.tw.peer = src) ∧
    (∃ (identityOk : Bool) (s : State), fabricMode s.gen.mode = true ∧ s.tw.st = .none ∧ s.tw.waitCmd.isNone = false ∧ ((s.tw.mig.role = 1 →
        s.tw.mig.phase ≠ 0)) ∧ identityOk = false) :=
  ⟨⟨0, true, routed .service, by decide +kernel⟩,
    ⟨false, routed .service, by decide +kernel⟩,
    ⟨0, true, { routed .service with ns := [aNs] }, by decide +kernel⟩,
    ⟨true, true, { routed .service with tw := { Tw.reset with peer := 9, waitCmd := some (.a, 7) } }, by decide +kernel⟩,
    ⟨false, true, { routed .service with tw := { Tw.reset with peer := 9, waitCmd := some (.a, 7) } }, by decide +kernel⟩,
    ⟨routed .service, by decide +kernel⟩,
    ⟨standbyState, by decide +kernel⟩,
    ⟨routed .service, by decide +kernel⟩,
    ⟨{ routed .service with tw := { Tw.reset with peer := 9, st := .paired, active := true, switching := true, switchSent := true } },
        by decide +kernel⟩,
    ⟨routed .service, by decide +kernel⟩,
    ⟨1, 0, { routed .service with tw := { Tw.reset with peer := 9, st := .seeding, active := true, seedTodo := [(1, 0)] } },
        by decide +kernel⟩,
    ⟨1, 0, { routed .standby with tw := { Tw.reset with peer := 9, st := .seeding, seedTodo := [(1, 0)] } }, by decide +kernel⟩,
    ⟨routed .service, by decide +kernel⟩,
    ⟨9, 2, true, { routed .standby with prov := { (routed .standby).prov with pair := some (9, false) } }, by decide +kernel⟩,
    ⟨9, 3, true, standbyState, by decide +kernel⟩,
    ⟨false, { routed .service with tw := { Tw.reset with peer := 9, waitCmd := some (.a, 7) } }, by decide +kernel⟩⟩

/-- Clauses 1, 2, 3, 4, 5, 6, 7, 8, 9, 10, 11, 12, 13, 14, 15, 16, 17, 18, 19, 20, 21, 22, 23, 24, 25, 26, 27, 28, 29, 30, 31, 32, 33, 34, 35, 36 of MigrationSteps. -/
theorem test_wit_MigrationSteps :
    (∃ (src : Nat) (idOk : Bool) (descs : List NsDesc) (s : State), fabricMode s.gen.mode = true ∧ migResult src idOk descs s = 0) ∧
    (∃ (src : Nat) (idOk : Bool) (descs : List NsDesc) (r : Nat) (s : State), fabricMode s.gen.mode = true ∧ r =
        migResult src idOk descs s ∧ r ≠ 0) ∧
    (∃ (result : Nat) (s : State), fabricMode s.gen.mode = true ∧ s.tw.mig.role = 1 ∧ s.tw.mig.phase = 0 ∧ s.tw.waitCmd.isNone = false ∧
        result = 0) ∧
    (∃ (result : Nat) (s : State), fabricMode s.gen.mode = true ∧ s.tw.mig.role = 1 ∧ s.tw.mig.phase = 0 ∧ s.tw.waitCmd.isNone = false ∧
        result ≠ 0) ∧
    (∃ (s : State), ((fabricMode s.gen.mode = false ∨ s.tw.mig.role ≠ 1 ∨ s.tw.mig.phase ≠ 0 ∨ s.tw.waitCmd = none))) ∧
    (∃ (nsid : Nat) (seg : Nat) (s : State), fabricMode s.gen.mode = true ∧ sourcing s = true ∧ s.tw.mig.todo.contains (nsid, seg) = true ∧
        s.tw.mig.flying.length < getF Reg.TW_MIGCFG.PAR s ∧ s.tw.stopped.contains 2 = false) ∧
    (∃ (nsid : Nat) (seg : Nat) (s : State), ((fabricMode s.gen.mode = false ∨ sourcing s = false ∨ s.tw.mig.todo.contains (nsid, seg) =
        false ∨ getF Reg.TW_MIGCFG.PAR s ≤ s.tw.mig.flying.length ∨ s.tw.stopped.contains 2 = true))) ∧
    (∃ (g : GrainRec) (s : State), s.tw.mig.role = 2 ∧ s.gen.mode = .ingest ∧ (findNs g.nsid s).any (·.ingesting) = true) ∧
    (∃ (g : GrainRec) (s : State), ((s.tw.mig.role ≠ 2 ∨ s.gen.mode ≠ .ingest ∨ (findNs g.nsid s).any (·.ingesting) = false))) ∧
    (∃ (s : State), fabricMode s.gen.mode = true ∧ ((standbyOn s = false ∨ s.tw.st ≠ .seeding)) ∧ s.tw.mig.role = 2 ∧ 2 ≤ s.tw.mig.phase ∧
        s.tw.mig.phase ≤ 5) ∧
    (∃ (s : State), ((fabricMode s.gen.mode = false ∨ ((standbyOn s = false ∨ s.tw.st ≠ .seeding) ∧ (s.tw.mig.role ≠ 2 ∨
        s.tw.mig.phase < 2 ∨ 5 < s.tw.mig.phase))))) ∧
    (∃ (nsid : Nat) (seg : Nat) (result : Nat) (s : State), fabricMode s.gen.mode = true ∧ ((s.tw.active = false ∨ s.tw.st ≠ .seeding ∨
        s.tw.seedFly.contains (nsid, seg) = false)) ∧ sourcing s = true ∧ s.tw.mig.flying.contains (nsid, seg) = true ∧ result = 0) ∧
    (∃ (nsid : Nat) (seg : Nat) (result : Nat) (s : State), fabricMode s.gen.mode = true ∧ ((s.tw.active = false ∨ s.tw.st ≠ .seeding ∨
        s.tw.seedFly.contains (nsid, seg) = false)) ∧ sourcing s = true ∧ s.tw.mig.flying.contains (nsid, seg) = true ∧ result ≠ 0 ∧
        missesOf nsid seg s < 3) ∧
    (∃ (nsid : Nat) (seg : Nat) (result : Nat) (s : State), fabricMode s.gen.mode = true ∧ ((s.tw.active = false ∨ s.tw.st ≠ .seeding ∨
        s.tw.seedFly.contains (nsid, seg) = false)) ∧ sourcing s = true ∧ s.tw.mig.flying.contains (nsid, seg) = true ∧ result ≠ 0 ∧
        3 ≤ missesOf nsid seg s) ∧
    (∃ (s : State), fabricMode s.gen.mode = true ∧ sourcing s = true ∧ s.tw.mig.todo = [] ∧ s.tw.mig.flying = [] ∧ s.tw.mig.phase = 2) ∧
    (∃ (s : State), fabricMode s.gen.mode = true ∧ sourcing s = true ∧ s.tw.mig.todo = [] ∧ s.tw.mig.flying = [] ∧ s.tw.mig.phase = 4 ∧
        s.tw.mig.dirty = [] ∧ s.cmds.any (fun c => s.tw.mig.nsids.contains c.nsid && uncommitted c) = false ∧ allMatched s = true) ∧
    (∃ (s : State), ((fabricMode s.gen.mode = false ∨ sourcing s = false ∨ s.tw.mig.todo ≠ [] ∨ s.tw.mig.flying ≠ []))) ∧
    (∃ (nsid : Nat) (last : Bool) (s : State), s.tw.mig.role = 2 ∧ 2 ≤ s.tw.mig.phase ∧ s.tw.mig.phase ≤ 5 ∧ s.gen.mode = .ingest ∧
        s.tw.mig.nsids.contains nsid = true ∧ ¬ (last = true ∧ s.tw.mig.nsids.all (fun n => (addOnce s.tw.mig.cutDone nsid).contains n) =
        true)) ∧
    (∃ (nsid : Nat) (s : State), ((s.tw.mig.role ≠ 2 ∨ s.tw.mig.phase < 2 ∨ 5 < s.tw.mig.phase ∨ s.gen.mode ≠ .ingest ∨
        s.tw.mig.nsids.contains nsid = false))) ∧
    (∃ (count : Nat) (s : State), fabricMode s.gen.mode = true ∧ s.tw.mig.role = 1 ∧ s.tw.mig.phase = 5 ∧ count = s.tw.mig.nsids.length) ∧
    (∃ (count : Nat) (s : State), ((fabricMode s.gen.mode = false ∨ s.tw.mig.role ≠ 1 ∨ s.tw.mig.phase ≠ 5 ∨
        count ≠ s.tw.mig.nsids.length))) ∧
    (∃ (s : State), fabricMode s.gen.mode = true ∧ ((canAbort s = true ∨ (s.tw.mig.role = 2 ∧ s.tw.mig.phase = 5)))) ∧
    (∃ (s : State), ((fabricMode s.gen.mode = false ∨ ¬ (canAbort s = true ∨ (s.tw.mig.role = 2 ∧ s.tw.mig.phase = 5))))) ∧
    (∃ (downMs : Nat) (s : State), fabricMode s.gen.mode = true ∧ 2000 < downMs ∧ canAbort s = true) ∧
    (∃ (downMs : Nat) (s : State), ((fabricMode s.gen.mode = false ∨ downMs ≤ 2000 ∨ canAbort s = false))) ∧
    (∃ (vc : Nat) (s : State), fabricMode s.gen.mode = true ∧ ((vc = 1 ∨ vc = 2))) ∧
    (∃ (vc : Nat) (s : State), ((fabricMode s.gen.mode = false ∨ (vc ≠ 1 ∧ vc ≠ 2)))) ∧
    (∃ (s : State), (fabricMode s.gen.mode = false)) ∧
    (∃ (s : State), fabricMode s.gen.mode = true ∧ standbyOn s = true ∧ s.tw.st = .seeding) ∧
    (∃ (nsid : Nat) (seg : Nat) (s : State), fabricMode s.gen.mode = true ∧ s.tw.active = true ∧ s.tw.st = .seeding ∧
        s.tw.seedFly.contains (nsid, seg) = true) ∧
    (∃ (nsid : Nat) (seg : Nat) (s : State), ((fabricMode s.gen.mode = false ∨ ((s.tw.active = false ∨ s.tw.st ≠ .seeding ∨
        s.tw.seedFly.contains (nsid, seg) = false) ∧ (sourcing s = false ∨ s.tw.mig.flying.contains (nsid, seg) = false))))) ∧
    (∃ (s : State), fabricMode s.gen.mode = true ∧ sourcing s = true ∧ s.tw.mig.todo = [] ∧ s.tw.mig.flying = [] ∧ s.tw.mig.phase = 3 ∧
        (s.tw.mig.auto = true ∧ s.tw.mig.dirty.length ≤ getF Reg.TW_MIGCFG.CUTSEGS s)) ∧
    (∃ (s : State), fabricMode s.gen.mode = true ∧ sourcing s = true ∧ s.tw.mig.todo = [] ∧ s.tw.mig.flying = [] ∧ s.tw.mig.phase = 3 ∧
        ¬ (s.tw.mig.auto = true ∧ s.tw.mig.dirty.length ≤ getF Reg.TW_MIGCFG.CUTSEGS s)) ∧
    (∃ (s : State), fabricMode s.gen.mode = true ∧ sourcing s = true ∧ s.tw.mig.todo = [] ∧ s.tw.mig.flying = [] ∧ s.tw.mig.phase = 4 ∧
        s.tw.mig.dirty ≠ []) ∧
    (∃ (s : State), fabricMode s.gen.mode = true ∧ sourcing s = true ∧ s.tw.mig.todo = [] ∧ s.tw.mig.flying = [] ∧ s.tw.mig.phase = 4 ∧
        s.tw.mig.dirty = [] ∧ ((s.cmds.any (fun c => s.tw.mig.nsids.contains c.nsid && uncommitted c) = true ∨ allMatched s = false))) ∧
    (∃ (nsid : Nat) (last : Bool) (s : State), s.tw.mig.role = 2 ∧ 2 ≤ s.tw.mig.phase ∧ s.tw.mig.phase ≤ 5 ∧ s.gen.mode = .ingest ∧
        s.tw.mig.nsids.contains nsid = true ∧ (last = true ∧ s.tw.mig.nsids.all (fun n => (addOnce s.tw.mig.cutDone nsid).contains n) =
        true)) :=
  ⟨⟨9, true, [], { routed .ingest with tw := { Tw.reset with peer := 9, mig := { Mig.none with peer := 9, role := 2, phase := 1 } } },
        by decide +kernel⟩,
    ⟨9, true, [], 3, routed .service, by decide +kernel⟩,
    ⟨0, { routed .service with tw := { Tw.reset with peer := 9, waitCmd := some (.a, 7), mig := { Mig.none with role := 1, peer := 9 } } },
        by decide +kernel⟩,
    ⟨1, { routed .service with tw := { Tw.reset with peer := 9, waitCmd := some (.a, 7), mig := { Mig.none with role := 1, peer := 9 } } },
        by decide +kernel⟩,
    ⟨routed .service, by decide +kernel⟩,
    ⟨1, 0,
        { routed .service with tw := { Tw.reset with peer := 9, mig := { Mig.none with peer := 9, role := 1, phase := 2, todo := [(1, 0)] } } },
        by decide +kernel⟩,
    ⟨1, 0, routed .service, by decide +kernel⟩,
    ⟨aGrain,
        { { routed .ingest with tw := { Tw.reset with peer := 9, mig := { Mig.none with peer := 9, role := 2, phase := 2, nsids := [1] } } } with ns := [{ aNs with ingesting := true }] },
        by decide +kernel⟩,
    ⟨aGrain, routed .service, by decide +kernel⟩,
    ⟨{ { routed .ingest with tw := { Tw.reset with peer := 9, mig := { Mig.none with peer := 9, role := 2, phase := 2, nsids := [1] } } } with ns := [{ aNs with ingesting := true }] },
        by decide +kernel⟩,
    ⟨routed .service, by decide +kernel⟩,
    ⟨1, 0, 0,
        { routed .service with tw := { Tw.reset with peer := 9, mig := { Mig.none with peer := 9, role := 1, phase := 2, flying := [(1, 0)] } } },
        by decide +kernel⟩,
    ⟨1, 0, 1,
        { routed .service with tw := { Tw.reset with peer := 9, mig := { Mig.none with peer := 9, role := 1, phase := 2, flying := [(1, 0)] } } },
        by decide +kernel⟩,
    ⟨1, 0, 1,
        { routed .service with tw := { Tw.reset with peer := 9, mig := { Mig.none with peer := 9, role := 1, phase := 2, flying := [(1, 0)], misses := [(1, 0, 3)] } } },
        by decide +kernel⟩,
    ⟨{ routed .service with tw := { Tw.reset with peer := 9, mig := { Mig.none with peer := 9, role := 1, phase := 2 } } },
        by decide +kernel⟩,
    ⟨{ routed .service with tw := { Tw.reset with peer := 9, mig := { Mig.none with peer := 9, role := 1, phase := 4 } } },
        by decide +kernel⟩,
    ⟨{ routed .service with tw := { Tw.reset with peer := 9, mig := { Mig.none with peer := 9, role := 1, phase := 2, flying := [(1, 0)] } } },
        by decide +kernel⟩,
    ⟨1, false,
        { { routed .ingest with tw := { Tw.reset with peer := 9, mig := { Mig.none with peer := 9, role := 2, phase := 2, nsids := [1] } } } with ns := [{ aNs with ingesting := true }] },
        by decide +kernel⟩,
    ⟨1, routed .service, by decide +kernel⟩,
    ⟨1,
        { { routed .service with tw := { Tw.reset with peer := 9, mig := { Mig.none with peer := 9, role := 1, phase := 5, nsids := [1] } } } with ns := [aNs] },
        by decide +kernel⟩,
    ⟨1, routed .service, by decide +kernel⟩,
    ⟨{ routed .service with tw := { Tw.reset with peer := 9, mig := { Mig.none with peer := 9, role := 1, phase := 2 } } },
        by decide +kernel⟩,
    ⟨routed .service, by decide +kernel⟩,
    ⟨2001, { routed .service with tw := { Tw.reset with peer := 9, mig := { Mig.none with peer := 9, role := 1, phase := 2 } } },
        by decide +kernel⟩,
    ⟨2000, { routed .service with tw := { Tw.reset with peer := 9, mig := { Mig.none with peer := 9, role := 1, phase := 2 } } },
        by decide +kernel⟩,
    ⟨2, standbyState, by decide +kernel⟩,
    ⟨3, standbyState, by decide +kernel⟩,
    ⟨{ State.reset with gen := { Gen.reset with mode := .quarantine } }, by decide +kernel⟩,
    ⟨{ standbyState with tw := { standbyState.tw with st := .seeding } }, by decide +kernel⟩,
    ⟨1, 0, { routed .service with tw := { Tw.reset with st := .seeding, active := true, seedFly := [(1, 0)] } }, by decide +kernel⟩,
    ⟨1, 0, routed .service, by decide +kernel⟩,
    ⟨{ routed .service with tw := { Tw.reset with peer := 9, mig := { Mig.none with peer := 9, role := 1, phase := 3, auto := true } } },
        by decide +kernel⟩,
    ⟨{ routed .service with tw := { Tw.reset with peer := 9, mig := { Mig.none with peer := 9, role := 1, phase := 3, auto := false } } },
        by decide +kernel⟩,
    ⟨{ routed .service with tw := { Tw.reset with peer := 9, mig := { Mig.none with peer := 9, role := 1, phase := 4, dirty := [(1, 0)] } } },
        by decide +kernel⟩,
    ⟨{ { routed .service with tw := { Tw.reset with peer := 9, mig := { Mig.none with peer := 9, role := 1, phase := 4, nsids := [1] } } } with ns := [aNs] },
        by decide +kernel⟩,
    ⟨1, true,
        { { routed .ingest with tw := { Tw.reset with peer := 9, mig := { Mig.none with peer := 9, role := 2, phase := 2, nsids := [1] } } } with ns := [{ aNs with ingesting := true }] },
        by decide +kernel⟩⟩

/-- Clauses 1, 2, 3, 4, 5, 6, 7, 8, 9, 10, 11, 12, 13, 14, 15, 17, 18, 19, 20, 21, 22, 23, 24, 25, 26, 27, 28, 29, 30, 32 of DigestAndTrust. -/
theorem test_wit_DigestAndTrust :
    (∃ (p : DigestParams) (i : Nat) (s : State), freeCtx s = some i ∧ snoopRefused p s = false ∧
        lanesBusy (updCtx i (fun _ => { Ctx.closed with params := some p, started := s.dg.nextStart }) s) < s.dg.active) ∧
    (∃ (p : DigestParams) (s : State), ((freeCtx s = none ∨ snoopRefused p s = true))) ∧
    (∃ (ctx : Fin 64) (s : State), (getCtx ctx.val s).saving = true) ∧
    (∃ (ctx : Fin 64) (unwrapOk : Bool) (s : State), (getCtx ctx.val s).saving = false ∧ keyed (getCtx ctx.val s) = true ∧ unwrapOk =
        false ∧ (((getCtx ctx.val s).st = 2 ∨ (getCtx ctx.val s).st = 3))) ∧
    (∃ (ctx : Fin 64) (unwrapOk : Bool) (s : State), (getCtx ctx.val s).saving = false ∧ ((keyed (getCtx ctx.val s) = false ∨ unwrapOk =
        true ∨ ((getCtx ctx.val s).st ≠ 2 ∧ (getCtx ctx.val s).st ≠ 3)))) ∧
    (∃ (ctx : Fin 64) (block : List Byte) (poisoned : Bool) (last : Bool) (p : DigestParams) (s : State), (getCtx ctx.val s).params =
        some p ∧ (getCtx ctx.val s).st = 2 ∧ (getCtx ctx.val s).saving = false ∧ poisoned = false ∧ block.length = 128 ∧ ((last = true →
        p.blocks ≤ (getCtx ctx.val s).done + 1)) ∧ (getCtx ctx.val s).done + 1 < p.blocks) ∧
    (∃ (ctx : Fin 64) (block : List Byte) (poisoned : Bool) (last : Bool) (p : DigestParams) (s : State), (getCtx ctx.val s).params =
        some p ∧ (getCtx ctx.val s).st = 2 ∧ (getCtx ctx.val s).saving = false ∧ poisoned = false ∧ ((block.length ≠ 128 ∨ (last = true ∧
        (getCtx ctx.val s).done + 1 < p.blocks) ∨ p.blocks < (getCtx ctx.val s).done + 1))) ∧
    (∃ (ctx : Fin 64) (poisoned : Bool) (p : DigestParams) (s : State), (getCtx ctx.val s).params = some p ∧ (getCtx ctx.val s).st = 2 ∧
        (getCtx ctx.val s).saving = false ∧ poisoned = true) ∧
    (∃ (ctx : Fin 64) (s : State), (((getCtx ctx.val s).params = none ∨ ((getCtx ctx.val s).st ≠ 4 ∧ ((getCtx ctx.val s).st ≠ 2 ∨
        (getCtx ctx.val s).saving = true))))) ∧
    (∃ (who : Writer) (s : State), setupOpen who s = true ∧ mayWrite who Reg.DG_AUDCTL.START.reg s = true ∧ s.dg.audit = none ∧
        isOn Reg.DG_AUDCTL.EN s = true ∧ backgroundMode s.gen.mode = true ∧ (s.mm.barrels.filter (fun b => b.state == 1)) ≠ []) ∧
    (∃ (who : Writer) (s : State), setupOpen who s = true ∧ mayWrite who Reg.DG_AUDCTL.START.reg s = false) ∧
    (∃ (s : State), getF Reg.DG_AUDCTL.PERIOD s ≠ 0) ∧
    (∃ (s : State), getF Reg.DG_AUDCTL.PERIOD s = 0) ∧
    (∃ (who : Writer) (i : SlotImage) (s : State), who ≠ .host ∧ setupOpen who s = true ∧ mayWrite who Reg.DG_SEC.ADVANCE.reg s = true ∧
        s.dg.runImg = some i) ∧
    (∃ (who : Writer) (s : State), setupOpen who s = true ∧ ((who = .host ∨ mayWrite who Reg.DG_SEC.ADVANCE.reg s = false))) ∧
    (∃ (s : State), s.nsWait = [] ∧ s.sh.sanState = 0 ∧ s.dg.spdmWait = []) ∧
    (∃ (who : Writer) (s : State), setupOpen who s = true ∧ mayWrite who Reg.EC_MAXCORR.CLR.reg s = true) ∧
    (∃ (who : Writer) (s : State), setupOpen who s = true ∧ mayWrite who Reg.EC_MAXCORR.CLR.reg s = false) ∧
    (∃ (who : Writer) (index : Nat) (e : Subst) (s : State), setupOpen who s = true ∧ mayWrite who Reg.SP_SUBSEL.INDEX.reg s = true ∧
        index < 256 ∧ s.sp.subst[index]? = some e) ∧
    (∃ (who : Writer) (s : State), setupOpen who s = true ∧ mayWrite who Reg.SP_SUBSEL.INDEX.reg s = false) ∧
    (∃ (p : DigestParams) (i : Nat) (s : State), freeCtx s = some i ∧ snoopRefused p s = false) ∧
    (∃ (ctx : Fin 64) (block : List Byte) (poisoned : Bool) (p : DigestParams) (s : State), (getCtx ctx.val s).params = some p ∧
        (getCtx ctx.val s).st = 2 ∧ (getCtx ctx.val s).saving = false ∧ poisoned = false ∧ block.length = 128 ∧ (getCtx ctx.val s).done +
        1 = p.blocks) ∧
    (∃ (ctx : Fin 64) (p : DigestParams) (s : State), (getCtx ctx.val s).params = some p ∧ (getCtx ctx.val s).st = 4) ∧
    (∃ (who : Writer) (s : State), setupOpen who s = true ∧ mayWrite who Reg.DG_AUDCTL.START.reg s = true) ∧
    (∃ (who : Writer) (s : State), setupOpen who s = false) ∧
    (∃ (who : Writer) (s : State), who ≠ .host ∧ setupOpen who s = true ∧ mayWrite who Reg.DG_SEC.ADVANCE.reg s = true) ∧
    (∃ (who : Writer) (s : State), setupOpen who s = false) ∧
    (∃ (who : Writer) (s : State), setupOpen who s = false) ∧
    (∃ (who : Writer) (s : State), setupOpen who s = false) ∧
    (∃ (who : Writer) (s : State), setupOpen who s = true ∧ mayWrite who Reg.SP_SUBSEL.INDEX.reg s = true) :=
  ⟨⟨⟨.audit, 1, false, 2, 2, false, [], [], false⟩, 0, inMode .service, by decide +kernel⟩,
    ⟨⟨.audit, 1, false, 2, 2, false, [], [], false⟩,
        { inMode .service with dg := { Dg.reset with ctxs := (List.range 64).map (fun i => (i, { Ctx.closed with st := 1 })) } },
        by decide +kernel⟩,
    ⟨3,
        { inMode .service with dg := { Dg.reset with ctxs := [(3, { Ctx.closed with st := 2, saving := true, params := some ⟨.audit, 1, false, 2, 2, false, [], [], false⟩ })] } },
        by decide +kernel⟩,
    ⟨3, false,
        { inMode .service with dg := { Dg.reset with ctxs := [(3, { Ctx.closed with st := 3, params := some { (⟨.audit, 1, false, 2, 2, false, [], [], false⟩ : DigestParams) with alg := 3 } })] } },
        by decide +kernel⟩,
    ⟨3, true, inMode .service, by decide +kernel⟩,
    ⟨3, List.replicate 128 7, false, false, ⟨.audit, 1, false, 2, 2, false, [], [], false⟩,
        { inMode .service with dg := { Dg.reset with ctxs := [(3, { Ctx.closed with st := 2, params := some ⟨.audit, 1, false, 2, 2, false, [], [], false⟩ })] } },
        by decide +kernel⟩,
    ⟨3, [], false, false, ⟨.audit, 1, false, 2, 2, false, [], [], false⟩,
        { inMode .service with dg := { Dg.reset with ctxs := [(3, { Ctx.closed with st := 2, params := some ⟨.audit, 1, false, 2, 2, false, [], [], false⟩ })] } },
        by decide +kernel⟩,
    ⟨3, true, ⟨.audit, 1, false, 2, 2, false, [], [], false⟩,
        { inMode .service with dg := { Dg.reset with ctxs := [(3, { Ctx.closed with st := 2, params := some ⟨.audit, 1, false, 2, 2, false, [], [], false⟩ })] } },
        by decide +kernel⟩,
    ⟨3, inMode .service, by decide +kernel⟩,
    ⟨.mgmt,
        setF Reg.DG_AUDCTL.EN 1 { { State.reset with gen := { Gen.reset with mode := .service, holder := .mgmt, hostReleased := true } } with mm := { Mm.reset with barrels := [aBarrel] } },
        by decide +kernel⟩,
    ⟨.host, { State.reset with gen := { Gen.reset with mode := .service, holder := .mgmt, hostReleased := true } }, by decide +kernel⟩,
    ⟨setF Reg.DG_AUDCTL.PERIOD 5 ({ State.reset with gen := { Gen.reset with mode := .service, holder := .mgmt, hostReleased := true } }),
        by decide +kernel⟩,
    ⟨setF Reg.DG_AUDCTL.PERIOD 0 (inMode .service), by decide +kernel⟩,
    ⟨.mgmt, ⟨true, 0x5A5AC33C, 0xA5A53CC3, true, false, none, false, 6, false, 0, [], 0⟩,
        { { State.reset with gen := { Gen.reset with mode := .service, holder := .mgmt, hostReleased := true } } with dg := { Dg.reset with runImg := some ⟨true, 0x5A5AC33C, 0xA5A53CC3, true, false, none, false, 6, false, 0, [], 0⟩ } },
        by decide +kernel⟩,
    ⟨.host, { State.reset with gen := { Gen.reset with mode := .service, holder := .mgmt, hostReleased := true } }, by decide +kernel⟩,
    ⟨inMode .service, by decide +kernel⟩,
    ⟨.mgmt, { State.reset with gen := { Gen.reset with mode := .service, holder := .mgmt, hostReleased := true } }, by decide +kernel⟩,
    ⟨.host, { State.reset with gen := { Gen.reset with mode := .service, holder := .mgmt, hostReleased := true } }, by decide +kernel⟩,
    ⟨.mgmt, 0, ⟨4, 5, 6, 1, 9⟩,
        { { State.reset with gen := { Gen.reset with mode := .service, holder := .mgmt, hostReleased := true } } with sp := { Sp.reset with subst := [⟨4, 5, 6, 1, 9⟩] } },
        by decide +kernel⟩,
    ⟨.host, { State.reset with gen := { Gen.reset with mode := .service, holder := .mgmt, hostReleased := true } }, by decide +kernel⟩,
    ⟨⟨.audit, 1, false, 2, 2, false, [], [], false⟩, 0, inMode .service, by decide +kernel⟩,
    ⟨3, List.replicate 128 7, false, ⟨.audit, 1, false, 2, 1, false, [], [], false⟩,
        { inMode .service with dg := { Dg.reset with ctxs := [(3, { Ctx.closed with st := 2, params := some ⟨.audit, 1, false, 2, 1, false, [], [], false⟩ })] } },
        by decide +kernel⟩,
    ⟨3, ⟨.audit, 1, false, 2, 2, false, [], [], false⟩,
        { inMode .service with dg := { Dg.reset with ctxs := [(3, { Ctx.closed with st := 4, params := some ⟨.audit, 1, false, 2, 2, false, [], [], false⟩ })] } },
        by decide +kernel⟩,
    ⟨.mgmt,
        setF Reg.DG_AUDCTL.EN 1 { { State.reset with gen := { Gen.reset with mode := .service, holder := .mgmt, hostReleased := true } } with mm := { Mm.reset with barrels := [aBarrel] } },
        by decide +kernel⟩,
    ⟨.host, { State.reset with gen := { Gen.reset with mode := .service, holder := .mgmt } }, by decide +kernel⟩,
    ⟨.mgmt,
        { { State.reset with gen := { Gen.reset with mode := .service, holder := .mgmt, hostReleased := true } } with dg := { Dg.reset with runImg := some ⟨true, 0x5A5AC33C, 0xA5A53CC3, true, false, none, false, 6, false, 0, [], 0⟩ } },
        by decide +kernel⟩,
    ⟨.host, { State.reset with gen := { Gen.reset with mode := .service, holder := .mgmt } }, by decide +kernel⟩,
    ⟨.host, { State.reset with gen := { Gen.reset with mode := .service, holder := .mgmt } }, by decide +kernel⟩,
    ⟨.host, { State.reset with gen := { Gen.reset with mode := .service, holder := .mgmt } }, by decide +kernel⟩,
    ⟨.mgmt,
        { { State.reset with gen := { Gen.reset with mode := .service, holder := .mgmt, hostReleased := true } } with sp := { Sp.reset with subst := [⟨4, 5, 6, 1, 9⟩] } },
        by decide +kernel⟩⟩

/-- Clauses 1, 2, 3, 4, 5, 6, 7, 8, 9, 10, 11, 12, 13, 14, 15, 16, 17, 18, 19, 20, 21, 22, 23, 24, 25, 26, 27, 28, 29, 30, 31, 32, 33, 34, 35, 36, 37, 38, 39, 40, 41, 42, 43 of ManagementAndFlash. -/
theorem test_wit_ManagementAndFlash :
    (∃ (s : State), s.gen.mode ≠ .reset ∧ s.mg.run = false) ∧
    (∃ (s : State), s.gen.mode ≠ .reset ∧ s.mg.run = true) ∧
    (∃ (s : State), s.gen.mode = .reset) ∧
    (∃ (count : Nat) (s : State), s.gen.mode ≠ .reset ∧ s.mg.run = true ∧ s.mg.droppedNow = 0 ∧
        0 < Nat.min (Nat.min count (logBudget s)) s.mg.pend.length) ∧
    (∃ (count : Nat) (s : State), ((s.gen.mode = .reset ∨ s.mg.run = false ∨ Nat.min (Nat.min count (logBudget s - if s.mg.droppedNow =
        0 then 0 else 1)) s.mg.pend.length = 0))) ∧
    (∃ (s : State), s.gen.mode ≠ .reset ∧ s.mg.run = true) ∧
    (∃ (s : State), ((s.gen.mode = .reset ∨ s.mg.run = false))) ∧
    (∃ (who : Writer) (s : State), who = .mgmt ∧ setupOpen who s = true) ∧
    (∃ (who : Writer) (s : State), who = .host ∧ setupOpen who s = true) ∧
    (∃ (who : Writer) (s : State), setupOpen who s = true ∧ mayWrite who Reg.MG_LOGACK.SEQ.reg s = true) ∧
    (∃ (who : Writer) (s : State), setupOpen who s = true ∧ mayWrite who Reg.MG_LOGACK.SEQ.reg s = false) ∧
    (∃ (who : Writer) (s : State), who = .mgmt ∧ setupOpen who s = true ∧ s.ff.busy = none ∧ s.ff.words.any (fun w => w.1 == ffAddr s) =
        true) ∧
    (∃ (who : Writer) (s : State), who = .host ∧ setupOpen who s = true) ∧
    (∃ (who : Writer) (s : State), who = .mgmt ∧ setupOpen who s = true ∧ s.ff.busy ≠ none) ∧
    (∃ (who : Writer) (s : State), who = .mgmt ∧ setupOpen who s = true ∧ s.ff.busy = none ∧ ffProtected (ffAddr s / 4096) s = true) ∧
    (∃ (who : Writer) (s : State), who = .mgmt ∧ setupOpen who s = true ∧ s.ff.busy = none ∧ ffProtected (ffAddr s / 4096) s = false ∧
        ffWordAt (ffAddr s) s = (ffOnes, s)) ∧
    (∃ (who : Writer) (s : State), who = .mgmt ∧ setupOpen who s = true ∧ s.ff.busy = none ∧ ffProtected (ffAddr s / 4096) s = false ∧
        s.ff.words.any (fun w => w.1 == ffAddr s) = true ∧ sGet s.ff.words ffOnes (ffAddr s) ≠ ffOnes) ∧
    (∃ (who : Writer) (count : Nat) (s : State), who = .mgmt ∧ setupOpen who s = true ∧ s.ff.busy = none ∧ count = 0 ∧
        ffProtected (ffAddr s / 4096) s = true) ∧
    (∃ (who : Writer) (count : Nat) (s : State), who = .mgmt ∧ setupOpen who s = true ∧ s.ff.busy = none ∧ count = 0 ∧
        ffProtected (ffAddr s / 4096) s = false) ∧
    (∃ (who : Writer) (s : State), who = .mgmt ∧ setupOpen who s = true ∧ s.ff.busy = none) ∧
    (∃ (who : Writer) (s : State), who = .host ∧ setupOpen who s = true) ∧
    (∃ (ok : Bool) (a : Nat) (x : Nat) (s : State), s.ff.busy = some (2, a, x) ∧ ok = true) ∧
    (∃ (ok : Bool) (a : Nat) (x : Nat) (s : State), s.ff.busy = some (2, a, x) ∧ ok = false) ∧
    (∃ (ok : Bool) (a : Nat) (x : Nat) (n : Nat) (s : State), s.ff.busy = some (n, a, x) ∧ n ≠ 2 ∧ ok = false) ∧
    (∃ (s : State), s.ff.busy = none) ∧
    (∃ (count : Nat) (n : Nat) (s : State), s.gen.mode ≠ .reset ∧ s.mg.run = true ∧ n =
        Nat.min (Nat.min count (logBudget s - if s.mg.droppedNow = 0 then 0 else 1)) s.mg.pend.length ∧ n ≠ 0) ∧
    (∃ (who : Writer) (s : State), setupOpen who s = false) ∧
    (∃ (who : Writer) (s : State), setupOpen who s = false) ∧
    (∃ (who : Writer) (s : State), who ≠ .host ∧ setupOpen who s = true ∧ s.ff.busy = none) ∧
    (∃ (who : Writer) (s : State), who ≠ .host ∧ setupOpen who s = true ∧ s.ff.busy.isSome = true) ∧
    (∃ (who : Writer) (s : State), setupOpen who s = false) ∧
    (∃ (who : Writer) (s : State), who ≠ .host ∧ setupOpen who s = true ∧ s.ff.busy = none) ∧
    (∃ (who : Writer) (s : State), who ≠ .host ∧ setupOpen who s = true ∧ s.ff.busy.isSome = true) ∧
    (∃ (who : Writer) (s : State), setupOpen who s = false) ∧
    (∃ (who : Writer) (s : State), who = .host ∧ setupOpen who s = true) ∧
    (∃ (who : Writer) (s : State), who ≠ .host ∧ setupOpen who s = true ∧ s.ff.busy = none) ∧
    (∃ (who : Writer) (s : State), who ≠ .host ∧ setupOpen who s = true ∧ s.ff.busy.isSome = true) ∧
    (∃ (who : Writer) (s : State), setupOpen who s = false) ∧
    (∃ (who : Writer) (s : State), who = .host ∧ setupOpen who s = true) ∧
    (∃ (who : Writer) (s : State), who ≠ .host ∧ setupOpen who s = true ∧ s.ff.busy = none) ∧
    (∃ (who : Writer) (s : State), who ≠ .host ∧ setupOpen who s = true ∧ s.ff.busy.isSome = true) ∧
    (∃ (who : Writer) (s : State), setupOpen who s = false) ∧
    (∃ (ok : Bool) (a : Nat) (x : Nat) (n : Nat) (s : State), s.ff.busy = some (n, a, x) ∧ n ≠ 2 ∧ ok = true) :=
  ⟨⟨inMode .service, by decide +kernel⟩,
    ⟨{ inMode .service with mg := { Mg.reset with run := true } }, by decide +kernel⟩,
    ⟨State.reset, by decide +kernel⟩,
    ⟨4, setF Reg.MG_LOGSTAT.RATE 10 { inMode .service with mg := { Mg.reset with run := true, pend := [⟨0, 0, 1, 1, 0, 0, [], 1⟩] } },
        by decide +kernel⟩,
    ⟨4, inMode .service, by decide +kernel⟩,
    ⟨{ inMode .service with mg := { Mg.reset with run := true } }, by decide +kernel⟩,
    ⟨inMode .service, by decide +kernel⟩,
    ⟨.mgmt, { State.reset with gen := { Gen.reset with mode := .service, holder := .mgmt, hostReleased := true } }, by decide +kernel⟩,
    ⟨.host, { State.reset with gen := { Gen.reset with mode := .service, holder := .mgmt, hostReleased := true } }, by decide +kernel⟩,
    ⟨.mgmt,
        { { State.reset with gen := { Gen.reset with mode := .service, holder := .mgmt, hostReleased := true } } with ff := { Ff.reset with prot := [(⟨0, 0, 3, 1, 0, 0, [], 1⟩, false)] } },
        by decide +kernel⟩,
    ⟨.host, { State.reset with gen := { Gen.reset with mode := .service, holder := .mgmt, hostReleased := true } }, by decide +kernel⟩,
    ⟨.mgmt,
        { { State.reset with gen := { Gen.reset with mode := .service, holder := .mgmt, hostReleased := true } } with ff := { Ff.reset with words := [(0, 77)] } },
        by decide +kernel⟩,
    ⟨.host, { State.reset with gen := { Gen.reset with mode := .service, holder := .mgmt, hostReleased := true } }, by decide +kernel⟩,
    ⟨.mgmt,
        { { State.reset with gen := { Gen.reset with mode := .service, holder := .mgmt, hostReleased := true } } with ff := { Ff.reset with busy := some (2, 0, 5) } },
        by decide +kernel⟩,
    ⟨.mgmt, { State.reset with gen := { Gen.reset with mode := .service, holder := .mgmt, hostReleased := true } }, by decide +kernel⟩,
    ⟨.mgmt,
        setF Reg.FF_ADDR.ADDR 1048576 { { State.reset with gen := { Gen.reset with mode := .service, holder := .mgmt, hostReleased := true } } with ff := { Ff.reset with blank := [2048] } },
        by decide +kernel⟩,
    ⟨.mgmt,
        setF Reg.FF_ADDR.ADDR 1048576 { { State.reset with gen := { Gen.reset with mode := .service, holder := .mgmt, hostReleased := true } } with ff := { Ff.reset with words := [(8388608, 5)] } },
        by decide +kernel⟩,
    ⟨.mgmt, 0, { State.reset with gen := { Gen.reset with mode := .service, holder := .mgmt, hostReleased := true } }, by decide +kernel⟩,
    ⟨.mgmt, 0,
        setF Reg.FF_ADDR.ADDR 1048576 ({ State.reset with gen := { Gen.reset with mode := .service, holder := .mgmt, hostReleased := true } }),
        by decide +kernel⟩,
    ⟨.mgmt, { State.reset with gen := { Gen.reset with mode := .service, holder := .mgmt, hostReleased := true } }, by decide +kernel⟩,
    ⟨.host, { State.reset with gen := { Gen.reset with mode := .service, holder := .mgmt, hostReleased := true } }, by decide +kernel⟩,
    ⟨true, 0, 5,
        { { State.reset with gen := { Gen.reset with mode := .service, holder := .mgmt, hostReleased := true } } with ff := { Ff.reset with busy := some (2, 0, 5) } },
        by decide +kernel⟩,
    ⟨false, 0, 5,
        { { State.reset with gen := { Gen.reset with mode := .service, holder := .mgmt, hostReleased := true } } with ff := { Ff.reset with busy := some (2, 0, 5) } },
        by decide +kernel⟩,
    ⟨false, 9, 1, 3,
        { { State.reset with gen := { Gen.reset with mode := .service, holder := .mgmt, hostReleased := true } } with ff := { Ff.reset with busy := some (3, 9, 1) } },
        by decide +kernel⟩,
    ⟨State.reset, by decide +kernel⟩,
    ⟨4, 1, setF Reg.MG_LOGSTAT.RATE 10 { inMode .service with mg := { Mg.reset with run := true, pend := [⟨0, 0, 1, 1, 0, 0, [], 1⟩] } },
        by decide +kernel⟩,
    ⟨.host, { State.reset with gen := { Gen.reset with mode := .service, holder := .mgmt } }, by decide +kernel⟩,
    ⟨.host, { State.reset with gen := { Gen.reset with mode := .service, holder := .mgmt } }, by decide +kernel⟩,
    ⟨.mgmt,
        { { State.reset with gen := { Gen.reset with mode := .service, holder := .mgmt, hostReleased := true } } with ff := { Ff.reset with words := [(0, 77)] } },
        by decide +kernel⟩,
    ⟨.mgmt,
        { { State.reset with gen := { Gen.reset with mode := .service, holder := .mgmt, hostReleased := true } } with ff := { Ff.reset with busy := some (2, 0, 5) } },
        by decide +kernel⟩,
    ⟨.host, { State.reset with gen := { Gen.reset with mode := .service, holder := .mgmt } }, by decide +kernel⟩,
    ⟨.mgmt, { State.reset with gen := { Gen.reset with mode := .service, holder := .mgmt, hostReleased := true } }, by decide +kernel⟩,
    ⟨.mgmt,
        { { State.reset with gen := { Gen.reset with mode := .service, holder := .mgmt, hostReleased := true } } with ff := { Ff.reset with busy := some (2, 0, 5) } },
        by decide +kernel⟩,
    ⟨.host, { State.reset with gen := { Gen.reset with mode := .service, holder := .mgmt } }, by decide +kernel⟩,
    ⟨.host, { State.reset with gen := { Gen.reset with mode := .service, holder := .mgmt, hostReleased := true } }, by decide +kernel⟩,
    ⟨.mgmt,
        setF Reg.FF_ADDR.ADDR 1048576 ({ State.reset with gen := { Gen.reset with mode := .service, holder := .mgmt, hostReleased := true } }),
        by decide +kernel⟩,
    ⟨.mgmt,
        { { State.reset with gen := { Gen.reset with mode := .service, holder := .mgmt, hostReleased := true } } with ff := { Ff.reset with busy := some (2, 0, 5) } },
        by decide +kernel⟩,
    ⟨.host, { State.reset with gen := { Gen.reset with mode := .service, holder := .mgmt } }, by decide +kernel⟩,
    ⟨.host, { State.reset with gen := { Gen.reset with mode := .service, holder := .mgmt, hostReleased := true } }, by decide +kernel⟩,
    ⟨.mgmt, { State.reset with gen := { Gen.reset with mode := .service, holder := .mgmt, hostReleased := true } }, by decide +kernel⟩,
    ⟨.mgmt,
        { { State.reset with gen := { Gen.reset with mode := .service, holder := .mgmt, hostReleased := true } } with ff := { Ff.reset with busy := some (2, 0, 5) } },
        by decide +kernel⟩,
    ⟨.host, { State.reset with gen := { Gen.reset with mode := .service, holder := .mgmt } }, by decide +kernel⟩,
    ⟨true, 9, 1, 3,
        { { State.reset with gen := { Gen.reset with mode := .service, holder := .mgmt, hostReleased := true } } with ff := { Ff.reset with busy := some (3, 9, 1) } },
        by decide +kernel⟩⟩

/-- Clauses 1, 2, 3, 4, 5, 6, 7, 8, 9, 10, 11, 12, 13, 14, 15, 16, 17, 18, 19, 20, 21, 22, 23, 24, 25, 26, 27, 28, 29, 30, 31, 32, 33, 34, 35, 36, 37, 38, 39, 40, 41, 42, 43 of NvmeMiCommands. -/
theorem test_wit_NvmeMiCommands :
    (∃ (dtyp : Nat) (s : State), miMode s = true ∧ dtyp = 0) ∧
    (∃ (dtyp : Nat) (s : State), miMode s = true ∧ 5 ≤ dtyp) ∧
    (∃ (s : State), miMode s = false) ∧
    (∃ (s : State), miMode s = true) ∧
    (∃ (s : State), miMode s = false) ∧
    (∃ (s : State), miMode s = true) ∧
    (∃ (s : State), miMode s = false) ∧
    (∃ (cfg : Nat) (transport : Nat) (s : State), miMode s = true ∧ cfg = 3 ∧ transport ≤ 1) ∧
    (∃ (cfg : Nat) (transport : Nat) (s : State), miMode s = true ∧ ((1 < transport ∨ (cfg ≠ 1 ∧ cfg ≠ 3)))) ∧
    (∃ (s : State), miMode s = false) ∧
    (∃ (cfg : Nat) (transport : Nat) (value : Nat) (s : State), miMode s = true ∧ cfg = 3 ∧ transport ≤ 1 ∧ 64 ≤ value ∧ value < 65536) ∧
    (∃ (cfg : Nat) (transport : Nat) (value : Nat) (s : State), miMode s = true ∧ ((1 < transport ∨ (cfg ≠ 1 ∧ cfg ≠ 3) ∨ (cfg = 1 ∧
        (value = 0 ∨ 4 ≤ value)) ∨ (cfg = 3 ∧ (value < 64 ∨ 65536 ≤ value))))) ∧
    (∃ (s : State), miMode s = false) ∧
    (∃ (s : State), miMode s = true) ∧
    (∃ (s : State), miMode s = false) ∧
    (∃ (port : Port) (opcode : Nat) (nsid : Nat) (s : State), miMode s = true ∧ opcode = 0x14 ∧ adminServed (miHdr port nsid) modesAll s =
        true) ∧
    (∃ (opcode : Nat) (s : State), miMode s = true ∧ opcode ≠ 0x02 ∧ opcode ≠ 0x06 ∧ opcode ≠ 0x0A ∧ opcode ≠ 0x10 ∧ opcode ≠ 0x11 ∧
        opcode ≠ 0x14) ∧
    (∃ (s : State), miMode s = false) ∧
    (∃ (s : State), miMode s = true) ∧
    (∃ (s : State), miMode s = false) ∧
    (∃ (offset : Nat) (s : State), miMode s = true ∧ offset < 2 ^ 21 ∧ 0x80000 ≤ offset % 2 ^ 20 / 4 * 4) ∧
    (∃ (s : State), miMode s = false) ∧
    (∃ (count : Nat) (area : Nat) (s : State), miMode s = true ∧ 1 ≤ count ∧ count ≤ 64 ∧ area = 0) ∧
    (∃ (count : Nat) (area : Nat) (s : State), miMode s = true ∧ ((count = 0 ∨ 64 < count ∨ 1 < area))) ∧
    (∃ (s : State), miMode s = false) ∧
    (∃ (s : State), miMode s = true ∧ setupOpen .mgmt s = true ∧ mayWrite .mgmt Reg.MG_LOGACK.SEQ.reg s = true) ∧
    (∃ (s : State), miMode s = false) ∧
    (∃ (dtyp : Nat) (s : State), miMode s = true ∧ dtyp = 1) ∧
    (∃ (dtyp : Nat) (s : State), miMode s = true ∧ dtyp = 2) ∧
    (∃ (dtyp : Nat) (s : State), miMode s = true ∧ dtyp = 3) ∧
    (∃ (dtyp : Nat) (s : State), miMode s = true ∧ dtyp = 4) ∧
    (∃ (cfg : Nat) (transport : Nat) (s : State), miMode s = true ∧ cfg = 1 ∧ transport ≤ 1) ∧
    (∃ (cfg : Nat) (transport : Nat) (value : Nat) (s : State), miMode s = true ∧ cfg = 1 ∧ transport ≤ 1 ∧ 1 ≤ value ∧ value ≤ 3) ∧
    (∃ (opcode : Nat) (s : State), miMode s = true ∧ opcode = 0x14) ∧
    (∃ (opcode : Nat) (s : State), miMode s = true ∧ opcode = 0x06) ∧
    (∃ (opcode : Nat) (s : State), miMode s = true ∧ opcode = 0x02) ∧
    (∃ (opcode : Nat) (s : State), miMode s = true ∧ opcode = 0x0A) ∧
    (∃ (opcode : Nat) (s : State), miMode s = true ∧ opcode = 0x11) ∧
    (∃ (opcode : Nat) (s : State), miMode s = true ∧ opcode = 0x10) ∧
    (∃ (offset : Nat) (s : State), miMode s = true ∧ offset < 2 ^ 21 ∧ offset % 2 ^ 20 / 4 * 4 < 0x80000) ∧
    (∃ (offset : Nat) (s : State), miMode s = true ∧ 2 ^ 21 ≤ offset) ∧
    (∃ (count : Nat) (area : Nat) (s : State), miMode s = true ∧ 1 ≤ count ∧ count ≤ 64 ∧ area = 1) ∧
    (∃ (s : State), miMode s = true) :=
  ⟨⟨0, { inMode .service with mg := { Mg.reset with run := true } }, by decide +kernel⟩,
    ⟨5, { inMode .service with mg := { Mg.reset with run := true } }, by decide +kernel⟩,
    ⟨inMode .service, by decide +kernel⟩,
    ⟨{ inMode .service with mg := { Mg.reset with run := true } }, by decide +kernel⟩,
    ⟨inMode .service, by decide +kernel⟩,
    ⟨{ inMode .service with mg := { Mg.reset with run := true } }, by decide +kernel⟩,
    ⟨inMode .service, by decide +kernel⟩,
    ⟨3, 1, { inMode .service with mg := { Mg.reset with run := true } }, by decide +kernel⟩,
    ⟨1, 2, { inMode .service with mg := { Mg.reset with run := true } }, by decide +kernel⟩,
    ⟨inMode .service, by decide +kernel⟩,
    ⟨3, 1, 64, { inMode .service with mg := { Mg.reset with run := true } }, by decide +kernel⟩,
    ⟨1, 0, 4, { inMode .service with mg := { Mg.reset with run := true } }, by decide +kernel⟩,
    ⟨inMode .service, by decide +kernel⟩,
    ⟨{ inMode .service with mg := { Mg.reset with run := true } }, by decide +kernel⟩,
    ⟨inMode .service, by decide +kernel⟩,
    ⟨.a, 0x14, 0, { inMode .service with mg := { Mg.reset with run := true } }, by decide +kernel⟩,
    ⟨0x99, { inMode .service with mg := { Mg.reset with run := true } }, by decide +kernel⟩,
    ⟨inMode .service, by decide +kernel⟩,
    ⟨{ inMode .service with mg := { Mg.reset with run := true } }, by decide +kernel⟩,
    ⟨inMode .service, by decide +kernel⟩,
    ⟨0x80000, { inMode .service with mg := { Mg.reset with run := true } }, by decide +kernel⟩,
    ⟨inMode .service, by decide +kernel⟩,
    ⟨4, 0, { inMode .service with mg := { Mg.reset with run := true } }, by decide +kernel⟩,
    ⟨65, 0, { inMode .service with mg := { Mg.reset with run := true } }, by decide +kernel⟩,
    ⟨inMode .service, by decide +kernel⟩,
    ⟨{ State.reset with gen := { Gen.reset with mode := .service, holder := .mgmt, hostReleased := true }, mg := { Mg.reset with run := true } },
        by decide +kernel⟩,
    ⟨inMode .service, by decide +kernel⟩,
    ⟨1, { inMode .service with mg := { Mg.reset with run := true } }, by decide +kernel⟩,
    ⟨2, { inMode .service with mg := { Mg.reset with run := true } }, by decide +kernel⟩,
    ⟨3, { inMode .service with mg := { Mg.reset with run := true } }, by decide +kernel⟩,
    ⟨4, { inMode .service with mg := { Mg.reset with run := true } }, by decide +kernel⟩,
    ⟨1, 0, { inMode .service with mg := { Mg.reset with run := true } }, by decide +kernel⟩,
    ⟨1, 0, 2, { inMode .service with mg := { Mg.reset with run := true } }, by decide +kernel⟩,
    ⟨0x14, { inMode .service with mg := { Mg.reset with run := true } }, by decide +kernel⟩,
    ⟨0x06, { inMode .service with mg := { Mg.reset with run := true } }, by decide +kernel⟩,
    ⟨0x02, { inMode .service with mg := { Mg.reset with run := true } }, by decide +kernel⟩,
    ⟨0x0A, { inMode .service with mg := { Mg.reset with run := true } }, by decide +kernel⟩,
    ⟨0x11, { inMode .service with mg := { Mg.reset with run := true } }, by decide +kernel⟩,
    ⟨0x10, { inMode .service with mg := { Mg.reset with run := true } }, by decide +kernel⟩,
    ⟨0, { inMode .service with mg := { Mg.reset with run := true } }, by decide +kernel⟩,
    ⟨0x10000000, { inMode .service with mg := { Mg.reset with run := true } }, by decide +kernel⟩,
    ⟨4, 1, { inMode .service with mg := { Mg.reset with run := true } }, by decide +kernel⟩,
    ⟨{ inMode .service with mg := { Mg.reset with run := true } }, by decide +kernel⟩⟩

/-- Clauses 1, 2, 3, 4, 5, 6, 7, 8, 9, 10, 11, 12, 13, 14, 15, 16, 17, 18, 19, 20, 21, 22, 23, 24, 25, 26, 27, 28, 29, 30, 31, 32, 33, 34, 35, 36, 37, 38, 39, 40, 41, 42, 43, 44, 45, 46, 47, 48, 49, 50 of SpdmRequests. -/
theorem test_wit_SpdmRequests :
    (∃ (transport : Nat) (s : State), spdmServes transport s = true) ∧
    (∃ (transport : Nat) (s : State), spdmServes transport s = false) ∧
    (∃ (transport : Nat) (s : State), spdmServes transport s = true ∧ 1 ≤ spdmStep transport s) ∧
    (∃ (transport : Nat) (s : State), spdmServes transport s = true ∧ spdmStep transport s = 0) ∧
    (∃ (transport : Nat) (asym : Nat) (hash : Nat) (s : State), spdmServes transport s = true ∧ 2 ≤ spdmStep transport s ∧ asym.testBit 8 =
        true ∧ hash.testBit 2 = true) ∧
    (∃ (transport : Nat) (s : State), spdmServes transport s = true ∧ spdmStep transport s < 2) ∧
    (∃ (transport : Nat) (s : State), spdmServes transport s = true ∧ 3 ≤ spdmStep transport s) ∧
    (∃ (transport : Nat) (s : State), spdmServes transport s = true ∧ spdmStep transport s < 3) ∧
    (∃ (transport : Nat) (slot : Nat) (offset : Nat) (s : State), spdmServes transport s = true ∧ 3 ≤ spdmStep transport s ∧ slot = 1 ∧
        s.ff.cert1 ≠ [] ∧ offset < s.ff.cert1.length) ∧
    (∃ (transport : Nat) (slot : Nat) (offset : Nat) (s : State), spdmServes transport s = true ∧ 3 ≤ spdmStep transport s ∧ slot ≠ 0 ∧
        ((slot ≠ 1 ∨ s.ff.cert1 = [] ∨ s.ff.cert1.length ≤ offset))) ∧
    (∃ (transport : Nat) (slot : Nat) (leafIsIdentity : Bool) (s : State), spdmServes transport s = true ∧ 3 ≤ spdmStep transport s ∧ slot =
        1 ∧ s.gen.mode = .provision ∧ leafIsIdentity = true) ∧
    (∃ (transport : Nat) (slot : Nat) (leafIsIdentity : Bool) (s : State), spdmServes transport s = true ∧ 3 ≤ spdmStep transport s ∧
        ((slot ≠ 1 ∨ s.gen.mode ≠ .provision ∨ leafIsIdentity = false))) ∧
    (∃ (transport : Nat) (slot : Nat) (s : State), spdmServes transport s = true ∧ 3 ≤ spdmStep transport s ∧ canSign slot s = true ∧
        rngServes s = true) ∧
    (∃ (transport : Nat) (slot : Nat) (s : State), spdmServes transport s = true ∧ 3 ≤ spdmStep transport s ∧ canSign slot s = true ∧
        rngServes s = false) ∧
    (∃ (transport : Nat) (index : Nat) (signed : Bool) (s : State), spdmServes transport s = true ∧ 3 ≤ spdmStep transport s ∧ ((index ≤ 7 ∨
        index = 0xFF)) ∧ signed = false) ∧
    (∃ (transport : Nat) (index : Nat) (s : State), spdmServes transport s = true ∧ 3 ≤ spdmStep transport s ∧ 7 < index ∧ index ≠ 0xFF) ∧
    (∃ (transport : Nat) (session : Nat) (mutualAuth : Bool) (s : State), spdmServes transport s = true ∧ 3 ≤ spdmStep transport s ∧
        isDoe transport = false ∧ canSign 0 s = true ∧ ((transport ≠ 4 ∨ mutualAuth = true)) ∧ s.dg.sessions.any (fun x => x.1 ==
        transport && x.2.1 == session) = false ∧ rngServes s = true) ∧
    (∃ (transport : Nat) (s : State), spdmServes transport s = true ∧ 3 ≤ spdmStep transport s ∧ isDoe transport = true) ∧
    (∃ (transport : Nat) (session : Nat) (peerIdOk : Bool) (s : State), spdmServes transport s = true ∧ 3 ≤ spdmStep transport s ∧
        isDoe transport = false ∧ s.dg.sessions.any (fun x => (x.1 == transport && x.2.1 == session) && !x.2.2) = true ∧ ((transport ≠ 4 ∨
        peerIdOk = true))) ∧
    (∃ (transport : Nat) (session : Nat) (peerIdOk : Bool) (s : State), spdmServes transport s = true ∧ 3 ≤ spdmStep transport s ∧
        transport = 4 ∧ s.dg.sessions.any (fun x => (x.1 == transport && x.2.1 == session) && !x.2.2) = true ∧ peerIdOk = false) ∧
    (∃ (transport : Nat) (session : Nat) (s : State), spdmServes transport s = true ∧ 3 ≤ spdmStep transport s ∧ isDoe transport = false ∧
        s.dg.sessions.any (fun x => (x.1 == transport && x.2.1 == session)) = true) ∧
    (∃ (transport : Nat) (session : Nat) (s : State), spdmServes transport s = true ∧ 3 ≤ spdmStep transport s ∧ isDoe transport = false ∧
        s.dg.sessions.any (fun x => (x.1 == transport && x.2.1 == session)) = false) ∧
    (∃ (transport : Nat) (asym : Nat) (hash : Nat) (s : State), spdmServes transport s = true ∧ 2 ≤ spdmStep transport s ∧
        ((asym.testBit 8 = false ∨ hash.testBit 2 = false))) ∧
    (∃ (transport : Nat) (slot : Nat) (s : State), spdmServes transport s = true ∧ 3 ≤ spdmStep transport s ∧ slot = 0) ∧
    (∃ (transport : Nat) (s : State), spdmServes transport s = true ∧ spdmStep transport s < 3) ∧
    (∃ (transport : Nat) (s : State), spdmServes transport s = true ∧ spdmStep transport s < 3) ∧
    (∃ (transport : Nat) (slot : Nat) (s : State), spdmServes transport s = true ∧ 3 ≤ spdmStep transport s ∧ canSign slot s = false) ∧
    (∃ (transport : Nat) (s : State), spdmServes transport s = true ∧ spdmStep transport s < 3) ∧
    (∃ (transport : Nat) (index : Nat) (signed : Bool) (s : State), spdmServes transport s = true ∧ 3 ≤ spdmStep transport s ∧ ((index ≤ 7 ∨
        index = 0xFF)) ∧ signed = true ∧ canSign 0 s = true ∧ rngServes s = true) ∧
    (∃ (transport : Nat) (index : Nat) (signed : Bool) (s : State), spdmServes transport s = true ∧ 3 ≤ spdmStep transport s ∧ ((index ≤ 7 ∨
        index = 0xFF)) ∧ signed = true ∧ canSign 0 s = true ∧ rngServes s = false) ∧
    (∃ (transport : Nat) (index : Nat) (signed : Bool) (s : State), spdmServes transport s = true ∧ 3 ≤ spdmStep transport s ∧ ((index ≤ 7 ∨
        index = 0xFF)) ∧ signed = true ∧ canSign 0 s = false) ∧
    (∃ (transport : Nat) (s : State), spdmServes transport s = true ∧ spdmStep transport s < 3) ∧
    (∃ (transport : Nat) (session : Nat) (mutualAuth : Bool) (s : State), spdmServes transport s = true ∧ 3 ≤ spdmStep transport s ∧
        isDoe transport = false ∧ canSign 0 s = true ∧ ((transport ≠ 4 ∨ mutualAuth = true)) ∧ s.dg.sessions.any (fun x => x.1 ==
        transport && x.2.1 == session) = false ∧ rngServes s = false) ∧
    (∃ (transport : Nat) (session : Nat) (mutualAuth : Bool) (s : State), spdmServes transport s = true ∧ 3 ≤ spdmStep transport s ∧
        isDoe transport = false ∧ ((canSign 0 s = false ∨ (transport = 4 ∧ mutualAuth = false) ∨ s.dg.sessions.any (fun x => x.1 ==
        transport && x.2.1 == session) = true))) ∧
    (∃ (transport : Nat) (s : State), spdmServes transport s = true ∧ spdmStep transport s < 3) ∧
    (∃ (transport : Nat) (session : Nat) (s : State), spdmServes transport s = true ∧ 3 ≤ spdmStep transport s ∧ isDoe transport = false ∧
        s.dg.sessions.any (fun x => (x.1 == transport && x.2.1 == session) && !x.2.2) = false) ∧
    (∃ (transport : Nat) (s : State), spdmServes transport s = true ∧ 3 ≤ spdmStep transport s ∧ isDoe transport = true) ∧
    (∃ (transport : Nat) (s : State), spdmServes transport s = true ∧ spdmStep transport s < 3) ∧
    (∃ (transport : Nat) (s : State), spdmServes transport s = true ∧ 3 ≤ spdmStep transport s ∧ isDoe transport = true) ∧
    (∃ (transport : Nat) (s : State), spdmServes transport s = true ∧ spdmStep transport s < 3) ∧
    (∃ (transport : Nat) (s : State), spdmServes transport s = false) ∧
    (∃ (transport : Nat) (s : State), spdmServes transport s = false) ∧
    (∃ (transport : Nat) (s : State), spdmServes transport s = false) ∧
    (∃ (transport : Nat) (s : State), spdmServes transport s = false) ∧
    (∃ (transport : Nat) (s : State), spdmServes transport s = false) ∧
    (∃ (transport : Nat) (s : State), spdmServes transport s = false) ∧
    (∃ (transport : Nat) (s : State), spdmServes transport s = false) ∧
    (∃ (transport : Nat) (s : State), spdmServes transport s = false) ∧
    (∃ (transport : Nat) (s : State), spdmServes transport s = false) ∧
    (∃ (transport : Nat) (s : State), spdmServes transport s = false) :=
  ⟨⟨0, { inMode .service with mg := { Mg.reset with run := true } }, by decide +kernel⟩,
    ⟨0, State.reset, by decide +kernel⟩,
    ⟨0,
        { State.reset with gen := { Gen.reset with mode := .provision, holder := .mgmt, hostReleased := true }, mg := { Mg.reset with run := true }, dg := { Dg.reset with spdm := [(0, 3), (4, 3)] }, ff := { Ff.reset with identity := true } },
        by decide +kernel⟩,
    ⟨0, { inMode .service with mg := { Mg.reset with run := true } }, by decide +kernel⟩,
    ⟨0, 256, 4,
        { State.reset with gen := { Gen.reset with mode := .provision, holder := .mgmt, hostReleased := true }, mg := { Mg.reset with run := true }, dg := { Dg.reset with spdm := [(0, 3), (4, 3)] }, ff := { Ff.reset with identity := true } },
        by decide +kernel⟩,
    ⟨0, { inMode .service with mg := { Mg.reset with run := true } }, by decide +kernel⟩,
    ⟨0,
        { State.reset with gen := { Gen.reset with mode := .provision, holder := .mgmt, hostReleased := true }, mg := { Mg.reset with run := true }, dg := { Dg.reset with spdm := [(0, 3), (4, 3)] }, ff := { Ff.reset with identity := true } },
        by decide +kernel⟩,
    ⟨0, { inMode .service with mg := { Mg.reset with run := true } }, by decide +kernel⟩,
    ⟨0, 1, 1,
        { { State.reset with gen := { Gen.reset with mode := .provision, holder := .mgmt, hostReleased := true }, mg := { Mg.reset with run := true }, dg := { Dg.reset with spdm := [(0, 3), (4, 3)] }, ff := { Ff.reset with identity := true } } with ff := { Ff.reset with cert1 := [1, 2, 3, 4] } },
        by decide +kernel⟩,
    ⟨0, 2, 0,
        { State.reset with gen := { Gen.reset with mode := .provision, holder := .mgmt, hostReleased := true }, mg := { Mg.reset with run := true }, dg := { Dg.reset with spdm := [(0, 3), (4, 3)] }, ff := { Ff.reset with identity := true } },
        by decide +kernel⟩,
    ⟨0, 1, true,
        { State.reset with gen := { Gen.reset with mode := .provision, holder := .mgmt, hostReleased := true }, mg := { Mg.reset with run := true }, dg := { Dg.reset with spdm := [(0, 3), (4, 3)] }, ff := { Ff.reset with identity := true } },
        by decide +kernel⟩,
    ⟨0, 1, true,
        { { State.reset with gen := { Gen.reset with mode := .provision, holder := .mgmt, hostReleased := true }, mg := { Mg.reset with run := true }, dg := { Dg.reset with spdm := [(0, 3), (4, 3)] }, ff := { Ff.reset with identity := true } } with gen := (inMode .service).gen },
        by decide +kernel⟩,
    ⟨0, 0,
        setF Reg.DG_RNG.HEALTH 1 ({ State.reset with gen := { Gen.reset with mode := .provision, holder := .mgmt, hostReleased := true }, mg := { Mg.reset with run := true }, dg := { Dg.reset with spdm := [(0, 3), (4, 3)] }, ff := { Ff.reset with identity := true } }),
        by decide +kernel⟩,
    ⟨0, 0,
        setF Reg.DG_RNG.HEALTH 0 ({ State.reset with gen := { Gen.reset with mode := .provision, holder := .mgmt, hostReleased := true }, mg := { Mg.reset with run := true }, dg := { Dg.reset with spdm := [(0, 3), (4, 3)] }, ff := { Ff.reset with identity := true } }),
        by decide +kernel⟩,
    ⟨0, 1, false,
        { State.reset with gen := { Gen.reset with mode := .provision, holder := .mgmt, hostReleased := true }, mg := { Mg.reset with run := true }, dg := { Dg.reset with spdm := [(0, 3), (4, 3)] }, ff := { Ff.reset with identity := true } },
        by decide +kernel⟩,
    ⟨0, 8,
        { State.reset with gen := { Gen.reset with mode := .provision, holder := .mgmt, hostReleased := true }, mg := { Mg.reset with run := true }, dg := { Dg.reset with spdm := [(0, 3), (4, 3)] }, ff := { Ff.reset with identity := true } },
        by decide +kernel⟩,
    ⟨0, 5, true,
        setF Reg.DG_RNG.HEALTH 1 ({ State.reset with gen := { Gen.reset with mode := .provision, holder := .mgmt, hostReleased := true }, mg := { Mg.reset with run := true }, dg := { Dg.reset with spdm := [(0, 3), (4, 3)] }, ff := { Ff.reset with identity := true } }),
        by decide +kernel⟩,
    ⟨2,
        { { State.reset with gen := { Gen.reset with mode := .provision, holder := .mgmt, hostReleased := true }, mg := { Mg.reset with run := true }, dg := { Dg.reset with spdm := [(0, 3), (4, 3)] }, ff := { Ff.reset with identity := true } } with dg := { Dg.reset with spdm := [(2, 3)] } },
        by decide +kernel⟩,
    ⟨4, 5, true,
        { { State.reset with gen := { Gen.reset with mode := .provision, holder := .mgmt, hostReleased := true }, mg := { Mg.reset with run := true }, dg := { Dg.reset with spdm := [(0, 3), (4, 3)] }, ff := { Ff.reset with identity := true } } with dg := { Dg.reset with spdm := [(4, 3)], sessions := [(4, 5, false)] } },
        by decide +kernel⟩,
    ⟨4, 5, false,
        { { State.reset with gen := { Gen.reset with mode := .provision, holder := .mgmt, hostReleased := true }, mg := { Mg.reset with run := true }, dg := { Dg.reset with spdm := [(0, 3), (4, 3)] }, ff := { Ff.reset with identity := true } } with dg := { Dg.reset with spdm := [(4, 3)], sessions := [(4, 5, false)] } },
        by decide +kernel⟩,
    ⟨0, 5,
        { { State.reset with gen := { Gen.reset with mode := .provision, holder := .mgmt, hostReleased := true }, mg := { Mg.reset with run := true }, dg := { Dg.reset with spdm := [(0, 3), (4, 3)] }, ff := { Ff.reset with identity := true } } with dg := { Dg.reset with spdm := [(0, 3)], sessions := [(0, 5, true)] } },
        by decide +kernel⟩,
    ⟨0, 5,
        { State.reset with gen := { Gen.reset with mode := .provision, holder := .mgmt, hostReleased := true }, mg := { Mg.reset with run := true }, dg := { Dg.reset with spdm := [(0, 3), (4, 3)] }, ff := { Ff.reset with identity := true } },
        by decide +kernel⟩,
    ⟨0, 0, 4,
        { State.reset with gen := { Gen.reset with mode := .provision, holder := .mgmt, hostReleased := true }, mg := { Mg.reset with run := true }, dg := { Dg.reset with spdm := [(0, 3), (4, 3)] }, ff := { Ff.reset with identity := true } },
        by decide +kernel⟩,
    ⟨0, 0,
        { State.reset with gen := { Gen.reset with mode := .provision, holder := .mgmt, hostReleased := true }, mg := { Mg.reset with run := true }, dg := { Dg.reset with spdm := [(0, 3), (4, 3)] }, ff := { Ff.reset with identity := true } },
        by decide +kernel⟩,
    ⟨0, { inMode .service with mg := { Mg.reset with run := true } }, by decide +kernel⟩,
    ⟨0, { inMode .service with mg := { Mg.reset with run := true } }, by decide +kernel⟩,
    ⟨0, 2,
        { State.reset with gen := { Gen.reset with mode := .provision, holder := .mgmt, hostReleased := true }, mg := { Mg.reset with run := true }, dg := { Dg.reset with spdm := [(0, 3), (4, 3)] }, ff := { Ff.reset with identity := true } },
        by decide +kernel⟩,
    ⟨0, { inMode .service with mg := { Mg.reset with run := true } }, by decide +kernel⟩,
    ⟨0, 1, true,
        setF Reg.DG_RNG.HEALTH 1 ({ State.reset with gen := { Gen.reset with mode := .provision, holder := .mgmt, hostReleased := true }, mg := { Mg.reset with run := true }, dg := { Dg.reset with spdm := [(0, 3), (4, 3)] }, ff := { Ff.reset with identity := true } }),
        by decide +kernel⟩,
    ⟨0, 1, true,
        setF Reg.DG_RNG.HEALTH 0 ({ State.reset with gen := { Gen.reset with mode := .provision, holder := .mgmt, hostReleased := true }, mg := { Mg.reset with run := true }, dg := { Dg.reset with spdm := [(0, 3), (4, 3)] }, ff := { Ff.reset with identity := true } }),
        by decide +kernel⟩,
    ⟨0, 1, true,
        { { State.reset with gen := { Gen.reset with mode := .provision, holder := .mgmt, hostReleased := true }, mg := { Mg.reset with run := true }, dg := { Dg.reset with spdm := [(0, 3), (4, 3)] }, ff := { Ff.reset with identity := true } } with ff := Ff.reset },
        by decide +kernel⟩,
    ⟨0, { inMode .service with mg := { Mg.reset with run := true } }, by decide +kernel⟩,
    ⟨0, 5, true,
        setF Reg.DG_RNG.HEALTH 0 ({ State.reset with gen := { Gen.reset with mode := .provision, holder := .mgmt, hostReleased := true }, mg := { Mg.reset with run := true }, dg := { Dg.reset with spdm := [(0, 3), (4, 3)] }, ff := { Ff.reset with identity := true } }),
        by decide +kernel⟩,
    ⟨0, 5, true,
        { { State.reset with gen := { Gen.reset with mode := .provision, holder := .mgmt, hostReleased := true }, mg := { Mg.reset with run := true }, dg := { Dg.reset with spdm := [(0, 3), (4, 3)] }, ff := { Ff.reset with identity := true } } with ff := Ff.reset },
        by decide +kernel⟩,
    ⟨0, { inMode .service with mg := { Mg.reset with run := true } }, by decide +kernel⟩,
    ⟨0, 5,
        { State.reset with gen := { Gen.reset with mode := .provision, holder := .mgmt, hostReleased := true }, mg := { Mg.reset with run := true }, dg := { Dg.reset with spdm := [(0, 3), (4, 3)] }, ff := { Ff.reset with identity := true } },
        by decide +kernel⟩,
    ⟨2,
        { { State.reset with gen := { Gen.reset with mode := .provision, holder := .mgmt, hostReleased := true }, mg := { Mg.reset with run := true }, dg := { Dg.reset with spdm := [(0, 3), (4, 3)] }, ff := { Ff.reset with identity := true } } with dg := { Dg.reset with spdm := [(2, 3)] } },
        by decide +kernel⟩,
    ⟨0, { inMode .service with mg := { Mg.reset with run := true } }, by decide +kernel⟩,
    ⟨2,
        { { State.reset with gen := { Gen.reset with mode := .provision, holder := .mgmt, hostReleased := true }, mg := { Mg.reset with run := true }, dg := { Dg.reset with spdm := [(0, 3), (4, 3)] }, ff := { Ff.reset with identity := true } } with dg := { Dg.reset with spdm := [(2, 3)] } },
        by decide +kernel⟩,
    ⟨0, { inMode .service with mg := { Mg.reset with run := true } }, by decide +kernel⟩,
    ⟨0, State.reset, by decide +kernel⟩,
    ⟨0, State.reset, by decide +kernel⟩,
    ⟨0, State.reset, by decide +kernel⟩,
    ⟨0, State.reset, by decide +kernel⟩,
    ⟨0, State.reset, by decide +kernel⟩,
    ⟨0, State.reset, by decide +kernel⟩,
    ⟨0, State.reset, by decide +kernel⟩,
    ⟨0, State.reset, by decide +kernel⟩,
    ⟨0, State.reset, by decide +kernel⟩,
    ⟨0, State.reset, by decide +kernel⟩⟩

/-- Clauses 1, 2, 3, 4, 5, 6, 7, 8, 9, 10, 11, 12, 13, 14, 15, 16, 17, 18, 19, 21, 22, 23, 24, 25, 26, 27, 28, 29, 30, 31, 32, 33, 34, 35, 36, 37, 38, 39, 40 of FaultsAndInjection. -/
theorem test_wit_FaultsAndInjection :
    (∃ (unit : UnitFault) (s : State), s.gen.mode ≠ .reset ∧ unit = .policyCore ∧ 0 < s.mg.coreSpare) ∧
    (∃ (unit : UnitFault) (s : State), s.gen.mode ≠ .reset ∧ unit = .decompressLane) ∧
    (∃ (s : State), s.gen.mode = .reset) ∧
    (∃ (who : Writer) (key : BitVec 16) (s : State), setupOpen who s = true ∧ mayWrite who Reg.FI_ARM.KEY.reg s = true ∧ s.gen.mode =
        .service ∧ key = 0xF1A1 ∧ s.fi.keyed = false) ∧
    (∃ (who : Writer) (key : BitVec 16) (s : State), setupOpen who s = true ∧ mayWrite who Reg.FI_ARM.KEY.reg s = true ∧ s.gen.mode =
        .service ∧ key = 0x5E5E ∧ s.fi.keyed = true ∧ s.fi.armed = false) ∧
    (∃ (who : Writer) (key : BitVec 16) (s : State), setupOpen who s = true ∧ mayWrite who Reg.FI_ARM.KEY.reg s = true ∧ key ≠ 0 ∧
        ((s.gen.mode ≠ .service ∨ (key ≠ 0xF1A1 ∧ key ≠ 0x5E5E) ∨ (key = 0xF1A1 ∧ s.fi.keyed = true) ∨ (key = 0x5E5E ∧ s.fi.keyed =
        false)))) ∧
    (∃ (who : Writer) (s : State), setupOpen who s = true ∧ mayWrite who Reg.FI_ARM.KEY.reg s = false) ∧
    (∃ (who : Writer) (s : State), setupOpen who s = true ∧ mayWrite who Reg.FI_ARM.DISARM.reg s = true ∧ s.fi.armed = true) ∧
    (∃ (who : Writer) (s : State), setupOpen who s = true ∧ mayWrite who Reg.FI_ARM.DISARM.reg s = false) ∧
    (∃ (s : State), s.gen.mode = .service ∧ s.fi.armed = true) ∧
    (∃ (s : State), ((s.gen.mode ≠ .service ∨ s.fi.armed = false))) ∧
    (∃ (who : Writer) (value : Word) (s : State), setupOpen who s = true ∧ mayWrite who Reg.FI_GF.EN.reg s = true ∧
        fieldBits Reg.FI_GF.EN value.toNat = 1 ∧ ((isOn Reg.FI_GF.EN s = true ∨ (s.fi.armed = true ∧ fiMode s.gen.mode = true))) ∧
        ((s.gen.mode ≠ .service ∨ gfLimit value.toNat = true))) ∧
    (∃ (who : Writer) (value : Word) (s : State), setupOpen who s = true ∧ mayWrite who Reg.FI_GF.EN.reg s = true ∧
        fieldBits Reg.FI_GF.EN value.toNat = 1 ∧ isOn Reg.FI_GF.EN s = false ∧ ((s.fi.armed = false ∨ fiMode s.gen.mode = false))) ∧
    (∃ (who : Writer) (s : State), setupOpen who s = true ∧ mayWrite who Reg.FI_GF.EN.reg s = false) ∧
    (∃ (who : Writer) (value : Word) (s : State), setupOpen who s = true ∧ mayWrite who Reg.FI_FL.EN.reg s = true ∧
        fieldBits Reg.FI_FL.EN value.toNat = 1 ∧ ((isOn Reg.FI_FL.EN s = true ∨ (s.fi.armed = true ∧ fiMode s.gen.mode = true))) ∧
        ((s.gen.mode ≠ .service ∨ flLimit value.toNat s = true))) ∧
    (∃ (who : Writer) (value : Word) (s : State), setupOpen who s = true ∧ mayWrite who Reg.FI_FL.EN.reg s = true ∧
        fieldBits Reg.FI_FL.EN value.toNat = 1 ∧ ((isOn Reg.FI_FL.EN s = true ∨ s.fi.armed = true)) ∧ s.gen.mode = .service ∧
        flLimit value.toNat s = false) ∧
    (∃ (who : Writer) (s : State), setupOpen who s = true ∧ mayWrite who Reg.FI_FL.EN.reg s = false) ∧
    (∃ (who : Writer) (value : Word) (s : State), setupOpen who s = true ∧ mayWrite who Reg.FI_PCIE.EN.reg s = true ∧
        fieldBits Reg.FI_PCIE.EN value.toNat = 1 ∧ ((isOn Reg.FI_PCIE.EN s = true ∨ (s.fi.armed = true ∧ fiMode s.gen.mode = true))) ∧
        (s.gen.mode ≠ .service)) ∧
    (∃ (who : Writer) (s : State), setupOpen who s = true ∧ mayWrite who Reg.FI_PCIE.EN.reg s = false) ∧
    (∃ (unit : UnitFault) (s : State), s.gen.mode ≠ .reset ∧ unit = .policyCore ∧ s.mg.coreSpare = 0) ∧
    (∃ (unit : UnitFault) (s : State), s.gen.mode ≠ .reset ∧ unit = .ldpcEngine) ∧
    (∃ (unit : UnitFault) (ctx : Option Nat) (s : State), s.gen.mode ≠ .reset ∧ unit = .digestLane ctx) ∧
    (∃ (unit : UnitFault) (s : State), s.gen.mode ≠ .reset ∧ unit = .compressLane) ∧
    (∃ (unit : UnitFault) (row : Nat) (hardware : Bool) (bufs : List Nat) (s : State), s.gen.mode ≠ .reset ∧ unit =
        .sramRow row hardware bufs) ∧
    (∃ (who : Writer) (key : BitVec 16) (s : State), setupOpen who s = true ∧ mayWrite who Reg.FI_ARM.KEY.reg s = true ∧ s.gen.mode =
        .service ∧ key = 0x5E5E ∧ s.fi.keyed = true ∧ s.fi.armed = true) ∧
    (∃ (who : Writer) (s : State), setupOpen who s = false) ∧
    (∃ (who : Writer) (key : BitVec 16) (s : State), key = 0 ∧ mayWrite who Reg.FI_ARM.KEY.reg s = true) ∧
    (∃ (who : Writer) (s : State), setupOpen who s = false) ∧
    (∃ (who : Writer) (s : State), mayWrite who Reg.FI_ARM.DISARM.reg s = true ∧ s.fi.armed = false) ∧
    (∃ (who : Writer) (value : Word) (s : State), setupOpen who s = true ∧ mayWrite who Reg.FI_GF.EN.reg s = true ∧
        fieldBits Reg.FI_GF.EN value.toNat = 1 ∧ ((isOn Reg.FI_GF.EN s = true ∨ s.fi.armed = true)) ∧ s.gen.mode = .service ∧
        gfLimit value.toNat = false) ∧
    (∃ (who : Writer) (value : Word) (s : State), setupOpen who s = true ∧ mayWrite who Reg.FI_GF.EN.reg s = true ∧
        fieldBits Reg.FI_GF.EN value.toNat ≠ 1) ∧
    (∃ (who : Writer) (s : State), setupOpen who s = false) ∧
    (∃ (who : Writer) (value : Word) (s : State), setupOpen who s = true ∧ mayWrite who Reg.FI_FL.EN.reg s = true ∧
        fieldBits Reg.FI_FL.EN value.toNat = 1 ∧ isOn Reg.FI_FL.EN s = false ∧ ((s.fi.armed = false ∨ fiMode s.gen.mode = false))) ∧
    (∃ (who : Writer) (value : Word) (s : State), setupOpen who s = true ∧ mayWrite who Reg.FI_FL.EN.reg s = true ∧
        fieldBits Reg.FI_FL.EN value.toNat ≠ 1) ∧
    (∃ (who : Writer) (s : State), setupOpen who s = false) ∧
    (∃ (who : Writer) (value : Word) (s : State), setupOpen who s = true ∧ mayWrite who Reg.FI_PCIE.EN.reg s = true ∧
        fieldBits Reg.FI_PCIE.EN value.toNat = 1 ∧ isOn Reg.FI_PCIE.EN s = false ∧ ((s.fi.armed = false ∨ fiMode s.gen.mode = false))) ∧
    (∃ (who : Writer) (value : Word) (s : State), setupOpen who s = true ∧ mayWrite who Reg.FI_PCIE.EN.reg s = true ∧
        fieldBits Reg.FI_PCIE.EN value.toNat = 1 ∧ ((isOn Reg.FI_PCIE.EN s = true ∨ s.fi.armed = true)) ∧ s.gen.mode = .service) ∧
    (∃ (who : Writer) (value : Word) (s : State), setupOpen who s = true ∧ mayWrite who Reg.FI_PCIE.EN.reg s = true ∧
        fieldBits Reg.FI_PCIE.EN value.toNat ≠ 1) ∧
    (∃ (who : Writer) (s : State), setupOpen who s = false) :=
  ⟨⟨.policyCore, inMode .service, by decide +kernel⟩,
    ⟨.decompressLane, inMode .service, by decide +kernel⟩,
    ⟨State.reset, by decide +kernel⟩,
    ⟨.mgmt, 0xF1A1, { State.reset with gen := { Gen.reset with mode := .service, holder := .mgmt, hostReleased := true } },
        by decide +kernel⟩,
    ⟨.mgmt, 0x5E5E,
        { State.reset with gen := { Gen.reset with mode := .service, holder := .mgmt, hostReleased := true } , fi := ⟨false, true, [0, 0, 0]⟩ },
        by decide +kernel⟩,
    ⟨.mgmt, 0x1234,
        { State.reset with gen := { Gen.reset with mode := .service, holder := .mgmt, hostReleased := true } , fi := ⟨false, true, [0, 0, 0]⟩ },
        by decide +kernel⟩,
    ⟨.host, { State.reset with gen := { Gen.reset with mode := .service, holder := .mgmt, hostReleased := true } }, by decide +kernel⟩,
    ⟨.mgmt,
        setF Reg.FI_ARM.ARMED 1 (setF Reg.FI_GF.EN 1 ({ State.reset with gen := { Gen.reset with mode := .service, holder := .mgmt, hostReleased := true } , fi := ⟨true, false, [0, 0, 0]⟩ })),
        by decide +kernel⟩,
    ⟨.host, { State.reset with gen := { Gen.reset with mode := .service, holder := .mgmt, hostReleased := true } }, by decide +kernel⟩,
    ⟨{ State.reset with gen := { Gen.reset with mode := .service, holder := .mgmt, hostReleased := true } , fi := ⟨true, false, [0, 0, 0]⟩ },
        by decide +kernel⟩,
    ⟨State.reset, by decide +kernel⟩,
    ⟨.mgmt, 8192, { State.reset with gen := { Gen.reset with mode := .diagnostic, holder := .mgmt }, fi := ⟨true, false, [0, 0, 0]⟩ },
        by decide +kernel⟩,
    ⟨.mgmt, 8192, { State.reset with gen := { Gen.reset with mode := .service, holder := .mgmt, hostReleased := true } }, by decide +kernel⟩,
    ⟨.host, { State.reset with gen := { Gen.reset with mode := .service, holder := .mgmt, hostReleased := true } }, by decide +kernel⟩,
    ⟨.mgmt, 67108864, { State.reset with gen := { Gen.reset with mode := .diagnostic, holder := .mgmt }, fi := ⟨true, false, [0, 0, 0]⟩ },
        by decide +kernel⟩,
    ⟨.mgmt, 67108864,
        { State.reset with gen := { Gen.reset with mode := .service, holder := .mgmt, hostReleased := true } , fi := ⟨true, false, [0, 0, 0]⟩ },
        by decide +kernel⟩,
    ⟨.host, { State.reset with gen := { Gen.reset with mode := .service, holder := .mgmt, hostReleased := true } }, by decide +kernel⟩,
    ⟨.mgmt, 64, { State.reset with gen := { Gen.reset with mode := .diagnostic, holder := .mgmt }, fi := ⟨true, false, [0, 0, 0]⟩ },
        by decide +kernel⟩,
    ⟨.host, { State.reset with gen := { Gen.reset with mode := .service, holder := .mgmt, hostReleased := true } }, by decide +kernel⟩,
    ⟨.policyCore, { inMode .service with mg := { Mg.reset with coreSpare := 0 } }, by decide +kernel⟩,
    ⟨.ldpcEngine, inMode .service, by decide +kernel⟩,
    ⟨.digestLane none, none, inMode .service, by decide +kernel⟩,
    ⟨.compressLane, inMode .service, by decide +kernel⟩,
    ⟨.sramRow 4 false [], 4, false, [], inMode .service, by decide +kernel⟩,
    ⟨.mgmt, 0x5E5E,
        { State.reset with gen := { Gen.reset with mode := .service, holder := .mgmt, hostReleased := true } , fi := ⟨true, true, [0, 0, 0]⟩ },
        by decide +kernel⟩,
    ⟨.host, { State.reset with gen := { Gen.reset with mode := .service, holder := .mgmt } }, by decide +kernel⟩,
    ⟨.mgmt, 0, { State.reset with gen := { Gen.reset with mode := .service, holder := .mgmt, hostReleased := true } }, by decide +kernel⟩,
    ⟨.host, { State.reset with gen := { Gen.reset with mode := .service, holder := .mgmt } }, by decide +kernel⟩,
    ⟨.mgmt, { State.reset with gen := { Gen.reset with mode := .service, holder := .mgmt, hostReleased := true } }, by decide +kernel⟩,
    ⟨.mgmt, 8192,
        { State.reset with gen := { Gen.reset with mode := .service, holder := .mgmt, hostReleased := true } , fi := ⟨true, false, [0, 0, 0]⟩ },
        by decide +kernel⟩,
    ⟨.mgmt, 0, { State.reset with gen := { Gen.reset with mode := .service, holder := .mgmt, hostReleased := true } }, by decide +kernel⟩,
    ⟨.host, { State.reset with gen := { Gen.reset with mode := .service, holder := .mgmt } }, by decide +kernel⟩,
    ⟨.mgmt, 67108864, { State.reset with gen := { Gen.reset with mode := .service, holder := .mgmt, hostReleased := true } },
        by decide +kernel⟩,
    ⟨.mgmt, 0, { State.reset with gen := { Gen.reset with mode := .service, holder := .mgmt, hostReleased := true } }, by decide +kernel⟩,
    ⟨.host, { State.reset with gen := { Gen.reset with mode := .service, holder := .mgmt } }, by decide +kernel⟩,
    ⟨.mgmt, 64, { State.reset with gen := { Gen.reset with mode := .service, holder := .mgmt, hostReleased := true } }, by decide +kernel⟩,
    ⟨.mgmt, 64,
        { State.reset with gen := { Gen.reset with mode := .service, holder := .mgmt, hostReleased := true } , fi := ⟨true, false, [0, 0, 0]⟩ },
        by decide +kernel⟩,
    ⟨.mgmt, 0, { State.reset with gen := { Gen.reset with mode := .service, holder := .mgmt, hostReleased := true } }, by decide +kernel⟩,
    ⟨.host, { State.reset with gen := { Gen.reset with mode := .service, holder := .mgmt } }, by decide +kernel⟩⟩

/-- Clauses 1, 2, 3, 4, 5, 7, 8, 10, 11, 12, 13, 14, 15 of PortsAndTimers. -/
theorem test_wit_PortsAndTimers :
    (∃ (s : State), s.mg.run = false ∧ s.gen.bootVerified = true) ∧
    (∃ (s : State), ((s.mg.run = true ∨ s.gen.bootVerified = false))) ∧
    (∃ (port : Port) (reg : Nat) (s : State), portExists port s = true ∧ heAnswers s = true ∧ reg = 0x004) ∧
    (∃ (port : Port) (reg : Nat) (s : State), portExists port s = true ∧ heAnswers s = true ∧ reg = 0x103) ∧
    (∃ (port : Port) (s : State), ((portExists port s = false ∨ heAnswers s = false))) ∧
    (∃ (port : Port) (s : State), memOpen port s = true) ∧
    (∃ (port : Port) (s : State), memOpen port s = false) ∧
    (∃ (port : Port) (vector : Nat) (s : State), sGet (s.con port).icPend 0 vector ≠ 0) ∧
    (∃ (port : Port) (vector : Nat) (s : State), sGet (s.con port).icPend 0 vector = 0) ∧
    (∃ (port : Port) (s : State), portExists port s = true ∧ heAnswers s = true) ∧
    (∃ (port : Port) (reg : Nat) (s : State), portExists port s = true ∧ heAnswers s = true ∧ reg = 0x101) ∧
    (∃ (port : Port) (reg : Nat) (s : State), portExists port s = true ∧ heAnswers s = true ∧ reg = 0x102) ∧
    (∃ (k : Nat) (s : State), s.ctl.a.selfTest = some k) :=
  ⟨⟨released .service, by decide +kernel⟩,
    ⟨State.reset, by decide +kernel⟩,
    ⟨.a, 4, released .service, by decide +kernel⟩,
    ⟨.a, 0x103, released .service, by decide +kernel⟩,
    ⟨.a, State.reset, by decide +kernel⟩,
    ⟨.a, { released .service with he := ⟨{ HostPort.reset with command := 2 }, .reset⟩ }, by decide +kernel⟩,
    ⟨.a, State.reset, by decide +kernel⟩,
    ⟨.a, 1, { inMode .service with ctl := ⟨{ Ctl.reset with icPend := [(1, 3)] }, .reset⟩ }, by decide +kernel⟩,
    ⟨.a, 1, State.reset, by decide +kernel⟩,
    ⟨.a, released .service, by decide +kernel⟩,
    ⟨.a, 0x101, released .service, by decide +kernel⟩,
    ⟨.a, 0x102, released .service, by decide +kernel⟩,
    ⟨1, { inMode .service with ctl := ⟨{ Ctl.reset with selfTest := some 1 }, .reset⟩ }, by decide +kernel⟩⟩

/-- Clauses 2 of EveryCommandCompletes. -/
theorem test_wit_EveryCommandCompletes :
    ∃ s t : State, step s = .next t :=
  ⟨State.reset, State.reset, rfl⟩

/-- Clauses 2 of MemoryReadsBack. -/
theorem test_wit_MemoryReadsBack :
    ∃ l : List (Nat × Byte), sWf l 0 = true :=
  ⟨[(3, 1)], by decide⟩

/-- MemoryStaysCanonical. -/
theorem test_wit_MemoryStaysCanonical :
    ∃ s t : State, Memory.wf s = true ∧ step s = .next t :=
  ⟨State.reset, State.reset, by decide +kernel, rfl⟩

/-- FiArmedOnlyWhereAllowed. -/
theorem test_wit_FiArmedOnlyWhereAllowed :
    ∃ s t : State, s.fi.armed = true ∧ FiLegal s ∧ step s = .next t :=
  ⟨{ inMode .service with fi := ⟨true, false, [0, 0, 0]⟩ }, { inMode .service with fi := ⟨true, false, [0, 0, 0]⟩ }, rfl, fun _ => rfl, rfl⟩

/-- RecordedModesStayLegal. -/
theorem test_wit_RecordedModesStayLegal :
    ∃ s t : State, s.gen.mode = .lowpower ∧ ModesLegal s ∧ step s = .next t :=
  ⟨inMode .lowpower, inMode .lowpower, rfl, ⟨rfl, fun _ => .inl rfl⟩, rfl⟩

/-- FusesNeverFall. -/
theorem test_wit_FusesNeverFall :
    ∃ s t : State, step s = .next t :=
  ⟨State.reset, State.reset, rfl⟩

/-- Clauses 1, 2 of MapEntryLayout. -/
theorem test_wit_MapEntryLayout :
    (∃ (e : MapEntry) (w : Nat), e.fits = true ∧ w = e.word ∧ e.staged = false ∧ e.die = 2047 ∧ e.block = 16383 ∧ e.plane = 3 ∧ e.page =
        2047 ∧ e.goff = 31 ∧ e.glen = 255) ∧
    (∃ e : MapEntry, e.fits = true ∧ e.staged = true ∧ e.stidx = 2 ^ 38 - 1) :=
  ⟨⟨⟨2047, 16383, 3, 2047, 31, 255, true, true, 3, 7, false, 0⟩, _, by decide +kernel, rfl, rfl, rfl, rfl, rfl, rfl, rfl, rfl⟩,
    ⟨⟨0, 0, 0, 0, 0, 8, false, false, 1, 6, true, 2 ^ 38 - 1⟩, by decide +kernel, rfl, rfl⟩⟩

/-- Clauses 1, 2 of TagAndHeaderLayouts. -/
theorem test_wit_TagAndHeaderLayouts :
    (∃ t : Tag16, t.origCsn < 2 ^ 64 ∧ t.grain < 2 ^ 40 ∧ t.nsid < 2 ^ 11 ∧ t.glen < 256 ∧ t.isMap = true) ∧
    (∃ h : Headed, h.ver < 256 ∧ h.sizes < 256 ∧ h.mdsz < 256 ∧ h.clen < 2 ^ 32 ∧ h.ucrc < 2 ^ 32 ∧ h.marks < 2 ^ 32) :=
  ⟨⟨⟨2 ^ 64 - 1, 2 ^ 40 - 1, 2047, true, true, true, true, 255⟩, by decide, by decide, by decide, by decide, rfl⟩,
    ⟨⟨255, 255, 255, 2 ^ 32 - 1, 2 ^ 32 - 1, 2 ^ 32 - 1⟩, by decide⟩⟩

/-- Clauses 1, 2 of ParityRecovery. -/
theorem test_wit_ParityRecovery :
    (∃ (ds : List Byte) (a b : Nat) (x y : Byte), ds.length ≤ 255 ∧ a < b ∧ ds[a]? = some x ∧ ds[b]? = some y) ∧
    (∃ (ds : List Byte) (a : Nat) (x : Byte), ds.length ≤ 255 ∧ ds[a]? = some x) :=
  ⟨⟨[1, 2, 255], 0, 2, 1, 255, by decide, by decide, rfl, rfl⟩,
    ⟨[1, 2, 255], 2, 255, by decide, rfl⟩⟩

/-- Clauses 1, 2 of ShapingRoundTrip. -/
theorem test_wit_ShapingRoundTrip :
    (∃ (n : Nat) (l : List Bool), l.length = 15 * n ∧ 0 < n) ∧
    (∃ g : List Bool, g.length = 15) :=
  ⟨⟨1, List.replicate 15 true, rfl, by decide⟩,
    ⟨List.replicate 15 false, rfl⟩⟩

/-- Clauses 1, 2 of TokenCodeRoundTrip. -/
theorem test_wit_TokenCodeRoundTrip :
    (∃ s : Nat, s ≤ 272) ∧
    (∃ (s u : Nat) (v w : List Bool), s ≤ 272 ∧ u ≤ 272 ∧ symCode s ++ v = symCode u ++ w) :=
  ⟨⟨272, by decide⟩,
    ⟨0, 0, [], [], by decide, by decide, rfl⟩⟩

/-- Clauses 2, 3, 4 of Bar0Accesses. -/
theorem test_wit_Bar0Accesses :
    (∃ (port : Port) (offset : Nat) (len : Nat) (s : State), memOpen port s = true ∧ bar0Good offset len = true) ∧
    (∃ (port : Port) (isRead : Bool) (offset : Nat) (len : Nat) (s : State), memOpen port s = true ∧ bar0Good offset len = false ∧ isRead =
        true) ∧
    (∃ (port : Port) (isRead : Bool) (offset : Nat) (len : Nat) (s : State), memOpen port s = true ∧ bar0Good offset len = false ∧ isRead =
        false) :=
  ⟨⟨.a, 4, 4, { released .service with he := ⟨{ HostPort.reset with command := 2 }, .reset⟩ }, by decide +kernel⟩,
    ⟨.a, true, 1, 4, { released .service with he := ⟨{ HostPort.reset with command := 2 }, .reset⟩ }, by decide +kernel⟩,
    ⟨.b, false, 1, 4,
        { (released .service) with pins := { Pins.reset with bifur := true }, he := ⟨.reset, { HostPort.reset with command := 2 }⟩ },
        by decide +kernel⟩⟩

/-- Clauses 1, 2, 3 of CompletionEntries. -/
theorem test_wit_CompletionEntries :
    (∃ h : AdminHdr, h.tunnelled = true) ∧
    (∃ (h : AdminHdr) (q : Sq) (c : Cq) (s : State), h.tunnelled = false ∧ (s.con h.port).sqs.find? (fun x => x.qid == 0) = some q ∧
        (s.con h.port).cqs.find? (fun x => x.qid == q.cq) = some c ∧ c.hasRoom = true ∧ c.held = []) ∧
    (∃ (h : AdminHdr) (q : Sq) (c : Cq) (s : State), h.tunnelled = false ∧ (s.con h.port).sqs.find? (fun x => x.qid == 0) = some q ∧
        (s.con h.port).cqs.find? (fun x => x.qid == q.cq) = some c ∧ c.hasRoom = false) :=
  ⟨⟨aHdr, rfl⟩,
    ⟨qHdr, adminSq 3 0, adminCq 3 0, { inMode .service with ctl := ⟨aCtl, .reset⟩ }, by decide +kernel⟩,
    ⟨qHdr, adminSq 3 0, { adminCq 3 0 with tail := 3 },
        { inMode .service with ctl := ⟨{ aCtl with cqs := [{ adminCq 3 0 with tail := 3 }] }, .reset⟩ }, by decide +kernel⟩⟩

/-- Clauses 2 of SetupFieldsStore. -/
theorem test_wit_SetupFieldsStore :
    ∃ f g : Field, g.key ≠ f.key :=
  ⟨Reg.FI_ARM.ARMED, Reg.GEN_START.SLOWGEO, by decide⟩

end Sys2Proof.Tests
end

section
/-! SUPPORT. The scope chapter's statements: how a register field stores a value, the state after reset, and the register bus (writes,
latching reads, commit points and BARs). Rules R7 to R9, R34, R51, R61, R78, R394, R418. -/
namespace Sys2Proof.Machine

/-! A field reads back what was stored in it, cut to its width; a field elsewhere keeps its value. -/

/-- R8: a stored value is read back, cut to the field's width. -/
@[simp] theorem getF_setF_self (f : Field) (v : Nat) (s : State) : getF f (setF f v s) = v % 2 ^ f.width :=
  sGet_sPut_self s.regs f.rst f.key (v % 2 ^ f.width)

/-- A store leaves every field that lies elsewhere. -/
theorem getF_setF_ne {f g : Field} (v : Nat) (s : State) (h : g.key ≠ f.key) : getF g (setF f v s) = getF g s :=
  sGet_sPut_ne s.regs f.rst g.rst (v % 2 ^ f.width) h

/-- A count stops at the largest value of its field. -/
theorem getF_bumpBy_self (f : Field) (n : Nat) (s : State) :
    getF f (bumpBy f n s) = Nat.min (getF f s + n) (2 ^ f.width - 1) := by
  have hfits : Nat.min (getF f s + n) (2 ^ f.width - 1) < 2 ^ f.width :=
    lt_of_le_of_lt (Nat.min_le_right _ _) (Nat.sub_lt (Nat.two_pow_pos _) Nat.one_pos)
  rw [bumpBy, getF_setF_self, Nat.mod_eq_of_lt hfits]

/-- A field that a change does not name keeps its value. -/
theorem Only.getF_eq {w : List Fld} {s t : State} (h : Only w s t) {f : Field} (hf : covered w (.reg f) = false) :
    getF f t = getF f s := h.keeps (.reg f) hf

/-- A flag that was set is on, also after a change that does not name it. -/
theorem isOn_of_only_flagOn {w : List Fld} {f : Field} {s t : State} (h : Only w (flagOn f s) t)
    (hf : covered w (.reg f) = false) (hw : f.width ≠ 0) : isOn f t = true := by
  have h1 : 1 % 2 ^ f.width = 1 := Nat.mod_eq_of_lt (Nat.one_lt_two_pow hw)
  rw [isOn, h.getF_eq hf, flagOn, getF_setF_self, h1, beq_self_eq_true]

/-- A reported setup error sets its flag (Table 2.11). -/
theorem isOn_genErr {f : Field} (off : Nat) (w : Writer) (s : State)
    (hf : covered [.reg Reg.GEN_ERRADDR.OFFSET, .reg Reg.GEN_ERRADDR.SRC] (.reg f) = false) (hw : f.width ≠ 0) :
    isOn f (genErr f off w s) = true := by
  refine isOn_of_only_flagOn (s := s) (Only.trans (s := setF Reg.GEN_ERRADDR.OFFSET off (flagOn f s)) ?_ ?_) hf hw
  · exact (setF_only ..).mono (.single (by decide))
  · exact (setF_only ..).mono (.single (by decide))

/-- A reported setup error records its offset (Table 2.11). -/
theorem getF_offset_genErr (f : Field) (off : Nat) (w : Writer) (s : State) :
    getF Reg.GEN_ERRADDR.OFFSET (genErr f off w s) = off % 2 ^ 20 := by
  rw [genErr, getF_setF_ne _ _ (by decide), getF_setF_self]
  rfl

/-- Settles O60: a field is one key of the register store, and `bumpBy` stores a value that fits. -/
theorem setupFieldsStore : Obligations.SetupFieldsStore :=
  ⟨getF_setF_self, fun _ _ v s h => getF_setF_ne v s h, getF_bumpBy_self, setF_only⟩

/-! The state after reset. -/

/-- R8: after reset no field has a stored value, so each reads its Reset column. -/
theorem getF_reset (f : Field) : getF f State.reset = f.rst := rfl

/-- R8, R51: after reset the value in force of each field is that of its Reset column. -/
theorem inForce_reset (f : Field) : inForce f State.reset = f.rst := rfl

/-- Settles O46: the register stores are empty after reset, and every other place named holds its reset value. -/
theorem resetState : Obligations.ResetState :=
  ⟨rfl, rfl, getF_reset, inForce_reset, rfl, rfl, rfl, rfl⟩

/-! Where a register write goes (R418, R49, R78). -/

/-- A BAR0 offset is written through the function it names. -/
theorem registerWriteEff_bar0 {who : Writer} {offset : Nat} (value : Word) (poisoned : Bool) (s : State)
    (h : who = .host ∨ offset < 2 ^ 21) : registerWriteEff who offset value poisoned s = writeAt who offset value poisoned s := by
  refine if_neg fun ⟨hm, hge⟩ => ?_
  rcases h with rfl | h
  · cases hm
  · omega

/-- Beyond the two functions' BARs management names a device address. -/
theorem registerWriteEff_device {offset : Nat} (value : Word) (poisoned : Bool) {s : State} (h : 2 ^ 21 ≤ offset)
    (hopen : setupOpen .mgmt s = true) : registerWriteEff .mgmt offset value poisoned s = writeDevice offset value s := by
  rw [registerWriteEff, if_pos ⟨rfl, h⟩, if_pos hopen]

/-- A host write to a function that does not answer memory requests is dropped. -/
theorem writeAt_closed {offset : Nat} (value : Word) (poisoned : Bool) {s : State} (h : memOpen (offPort offset) s = false) :
    writeAt .host offset value poisoned s = s :=
  if_pos ⟨rfl, by simp [h]⟩

/-- R78: a poisoned host write is discarded and reported. -/
theorem writeAt_poisoned {offset : Nat} (value : Word) {s : State} (h : memOpen (offPort offset) s = true) :
    writeAt .host offset value true s = poisonRx (offPort offset) s := by
  simp only [writeAt, h, not_true_eq_false, and_false, and_self, if_true, if_false]

/-- Any other write to the setup space reaches the register bus. -/
theorem writeAt_setup {who : Writer} {offset : Nat} (value : Word) {poisoned : Bool} {s : State}
    (hhost : who = .host → memOpen (offPort offset) s = true ∧ poisoned = false) (hoff : 0x80000 ≤ offset % 2 ^ 20) :
    writeAt who offset value poisoned s = busWrite who (offset % 2 ^ 20 / 4 * 4) value.toNat s := by
  have hclosed : ¬ (who = .host ∧ ¬ memOpen (offPort offset) s = true) := fun h => h.2 (hhost h.1).1
  have hpoison : ¬ (poisoned = true ∧ who = .host) := fun h => Bool.false_ne_true ((hhost h.2).2.symm.trans h.1)
  have hlow : ¬ offset % 2 ^ 20 / 4 * 4 < 0x80000 := by omega
  simp only [writeAt, if_neg hclosed, if_neg hpoison, if_neg hlow]

/-- R31: the setup blocks' device addresses lie in the setup range of Table 1.6. -/
theorem addrKind_setup {addr : Nat} (s : State) (hr : isRemote addr = false) (hlo : 0x10080000 ≤ addr) (hhi : addr < 0x10100000) :
    addrKind addr s = .setup := by
  have h1 : ¬ addr < 0x3000000 := by omega
  have h2 : ¬ addr < 0x10000000 := by omega
  have h3 : addr < 0x20000000 := by omega
  simp only [addrKind, hr, Bool.false_eq_true, h1, h2, h3, if_true, if_false]

/-- R31: management's write at the device address of a setup block reaches the register bus at the block's BAR0 offset. -/
theorem writeDevice_setup {addr : Nat} (value : Word) {s : State} (hr : isRemote addr = false) (hlo : 0x10080000 ≤ addr)
    (hhi : addr < 0x10100000) :
    writeDevice addr value s = busWrite .mgmt ((addr - 0x10000000) % 2 ^ 20 / 4 * 4) value.toNat s := by
  have hblock : blockAddr addr = true := decide_eq_true ⟨hlo, hhi⟩
  have hoff : 0x80000 ≤ (addr - 0x10000000) % 2 ^ 20 := by omega
  rw [writeDevice, addrKind_setup s hr hlo hhi]
  exact (if_pos hblock).trans (writeAt_setup value Writer.noConfusion hoff)

/-- R28: a management write to an unmapped address is a bus error. -/
theorem writeDevice_unmapped {addr : Nat} (value : Word) {s : State} (h : addrKind addr s = .unmapped) :
    writeDevice addr value s = emit (.busError addr) s := by
  rw [writeDevice, h]

/-! A write that has no action beside its fields. -/

/-- The registers whose write does more than store fields: `busWrite` and `busAction` name them. -/
def actionRegs : List Nat :=
  [Reg.GEN_OWNER.CLAIM.reg, Reg.FI_ARM.KEY.reg, Reg.FI_GF.EN.reg, Reg.FI_FL.EN.reg, Reg.FI_PCIE.EN.reg, Reg.GEN_MODEREQ.KEY.reg,
   Reg.GEN_RESET.KEY.reg, Reg.HE_WINCOMMIT.COPY.reg, Reg.HE_WINLOG.CLR.reg, Reg.SP_DIEOUT.KEY.reg, Reg.SP_SUBSEL.INDEX.reg,
   Reg.EC_MAXCORR.CLR.reg, Reg.GF_NODE.REASSIGN.reg, Reg.DG_AUDCTL.START.reg, Reg.DG_SEC.ADVANCE.reg, Reg.MG_WDOG.KICK.reg,
   Reg.MG_LOGACK.SEQ.reg, Reg.FF_CMD.OP.reg]

/-- A register without an action takes its fields and nothing else. -/
theorem busWrite_plain {who : Writer} {off : Nat} (value : Nat) {s : State} (hopen : setupOpen who s = true) (h : off ∉ actionRegs) :
    busWrite who off value s = writeReg who off value s := by
  simp only [actionRegs, List.mem_cons, List.not_mem_nil, or_false, not_or] at h
  simp only [busWrite, busAction, hopen, h, not_true_eq_false, if_false]

/-- R49: outside the FF registers the token holder may write. -/
theorem mayWrite_of_not_ffReg (who : Writer) {off : Nat} (s : State) (h : ffReg off = false) : mayWrite who off s = holds who s :=
  if_neg (by simp [h])

/-- R49: a writer without the token is refused. -/
theorem writeReg_refused {who : Writer} {off : Nat} (value : Nat) {s : State} (hopen : setupOpen who s = true)
    (hstage : stagingAt off = none) (hfields : fieldsAt off ≠ []) (hff : ffReg off = false) (hholds : holds who s = false) :
    writeReg who off value s = genErr Reg.GEN_ERR.OWNWR off who s := by
  simp only [writeReg, hopen, hstage, hfields, mayWrite_of_not_ffReg who s hff, hholds, Bool.false_eq_true, not_true_eq_false,
    not_false_eq_true, if_true, if_false]

/-- A register of one field, which is no budget share, is written by writing that field. -/
theorem writeReg_one_field {who : Writer} {off : Nat} {f : Field} (value : Nat) {s : State} (hopen : setupOpen who s = true)
    (hstage : stagingAt off = none) (hfields : fieldsAt off = [f]) (hff : ffReg off = false) (hholds : holds who s = true)
    (hbudget : ∀ g ∈ budgetFields, g.reg ≠ off) : writeReg who off value s = writeField who off value s f := by
  have hunder : budgetOver off value s = false := by
    have hnone : budgetFields.any (fun g => g.reg == off && fieldWritten g value s) = false :=
      List.any_eq_false.mpr fun g hg => by simp [hbudget g hg]
    rw [budgetOver, hnone, Bool.false_and]
  simp only [writeReg, writeFields, hopen, hstage, hfields, mayWrite_of_not_ffReg who s hff, hholds, hunder, not_true_eq_false,
    if_false, List.cons_ne_nil, Bool.false_eq_true, List.foldl_cons, List.foldl_nil]

/-- Management writes a register without an action at its BAR0 offset. -/
theorem registerWriteEff_mgmt_plain {off : Nat} (value : Word) (poisoned : Bool) {s : State} (hopen : setupOpen .mgmt s = true)
    (hlo : 0x80000 ≤ off) (hhi : off < 2 ^ 20) (halign : off % 4 = 0) (h : off ∉ actionRegs) :
    registerWriteEff .mgmt off value poisoned s = writeReg .mgmt off value.toNat s := by
  have hoff : off % 2 ^ 20 / 4 * 4 = off := by omega
  rw [registerWriteEff_bar0 value poisoned s (.inr (by omega)), writeAt_setup value Writer.noConfusion (by omega), hoff,
    busWrite_plain value.toNat hopen h]

/-! A field that takes any value of its range (R418) and a Locked field (R50). -/

/-- The fields that `curVal`, `inRange` and `storeField` give a place or a condition of their own (R282, log entry 30, Table 10.8). -/
def ruledFields : List Field :=
  [Reg.MM_RACK.FREELO, Reg.MM_RACK.FREEHI, Reg.MM_RACK.FREECRIT, Reg.CS_CFG.RATE, Reg.BP_OWNMEM.MEM, Reg.BP_OWNMIN.MIN,
   Reg.BP_OWNCAP.CAP]

/-- Any other field shows what is stored. -/
theorem curVal_of_not_ruled {f : Field} (s : State) (h : f ∉ ruledFields) : curVal f s = getF f s := by
  simp only [ruledFields, List.mem_cons, List.not_mem_nil, or_false, not_or] at h
  simp only [curVal, h, if_false]

/-- Any other field has its stated range as its one condition. -/
theorem inRange_of_not_ruled {f : Field} (value : Nat) (s : State) (h : f ∉ ruledFields) :
    inRange f value s = decide (f.rmin ≤ fieldBits f value ∧ fieldBits f value ≤ f.rmax) := by
  simp only [ruledFields, List.mem_cons, List.not_mem_nil, or_false, not_or] at h
  simp only [inRange, h, if_false, Bool.and_true]

/-- Any other field that takes effect at once is stored as it is. -/
theorem storeField_live {f : Field} (v : Nat) (s : State) (h : f ∉ ruledFields) (ht : f.tim = .live) : storeField f v s = setF f v s := by
  simp only [ruledFields, List.mem_cons, List.not_mem_nil, or_false, not_or] at h
  simp only [storeField, h, ht, if_false]

/-- An RW field is written by a value that differs from the stored one (R418). -/
theorem fieldWritten_rw {f : Field} (value : Nat) (s : State) (h : f ∉ ruledFields) (ha : f.acc = .rw) (hrow : ownRowField f = false) :
    fieldWritten f value s = (fieldBits f value != getF f s) := by
  simp only [fieldWritten, ha, hrow, curVal_of_not_ruled s h, Bool.not_false, Bool.true_and]

/-- R418: a live field takes a value of its range, and nothing else changes. -/
theorem writeField_live (who : Writer) (off : Nat) {value : Nat} (s : State) {f : Field} (h : f ∉ ruledFields) (ha : f.acc = .rw)
    (hrow : ownRowField f = false) (ht : f.tim = .live) (hrange : f.rmin ≤ fieldBits f value ∧ fieldBits f value ≤ f.rmax) :
    Only [.reg f] s (writeField who off value s f) ∧ getF f (writeField who off value s f) = fieldBits f value := by
  have hwritten := fieldWritten_rw value s h ha hrow
  by_cases hsame : fieldBits f value = getF f s
  · have hskip : writeField who off value s f = s := if_pos (by simp [hwritten, hsame])
    rw [hskip]
    exact ⟨Only.refl _ _, hsame.symm⟩
  · have hin : inRange f value s = true := (inRange_of_not_ruled value s h).trans (decide_eq_true hrange)
    have hstore : writeField who off value s f = setF f (fieldBits f value) s := by
      simp [writeField, hwritten, hsame, ha, ht, hin, storeField_live _ s h ht]
    rw [hstore, getF_setF_self]
    exact ⟨setF_only .., Nat.mod_mod _ _⟩

/-- R50: once the blocks are enabled, a write that would change a Locked field is refused. -/
theorem writeField_locked (who : Writer) (off : Nat) {value : Nat} {s : State} {f : Field} (h : f ∉ ruledFields) (ha : f.acc = .rw)
    (hrow : ownRowField f = false) (ht : f.tim = .locked) (hen : blocksEnabled s = true) (hne : fieldBits f value ≠ getF f s) :
    writeField who off value s f = genErr Reg.GEN_ERR.LOCKWR off who s := by
  simp [writeField, fieldWritten_rw value s h ha hrow, hne, ha, ht, hen]

/-! Where a register read goes (R9, R52, R56). -/

/-- An open read of a BAR0 offset answers that register. -/
theorem registerReadEff_bar0 {who : Writer} {offset : Nat} {s : State} (hopen : setupOpen who s = true)
    (hhost : who = .host → memOpen (offPort offset) s = true) (h : offset < 2 ^ 21) : registerReadEff who offset s = readAt offset s := by
  have hclosed : ¬ (who = .host ∧ ¬ memOpen (offPort offset) s = true) := fun h => h.2 (hhost h.1)
  have hdevice : ¬ (who = .mgmt ∧ 2 ^ 21 ≤ offset) := fun h => by omega
  simp only [registerReadEff, hopen, not_true_eq_false, if_neg hclosed, if_neg hdevice, if_false]

/-- While the setup space does not answer a reader, a read has no effect. -/
theorem registerReadEff_closed {who : Writer} (offset : Nat) {s : State} (h : setupOpen who s = false) :
    registerReadEff who offset s = s := if_pos (by simp [h])

/-- R56: a host read of a function that does not answer memory requests is an Unsupported Request. -/
theorem registerReadEff_unsupported {offset : Nat} {s : State} (hopen : setupOpen .host s = true)
    (hmem : memOpen (offPort offset) s = false) (hport : portExists (offPort offset) s = true) (hans : heAnswers s = true) :
    registerReadEff .host offset s = urCpl (offPort offset) 0 s := by
  simp only [registerReadEff, hopen, hmem, hport, hans, Bool.false_eq_true, not_true_eq_false, not_false_eq_true, and_self,
    if_true, if_false]

/-- A latch stores register fields only. -/
theorem latch_out (off : Nat) (s : State) : (latch off s).out = s.out := (latch_only off s).keeps .out rfl

/-- A read sends the register's value, in front of what was sent before. -/
theorem readAt_out (offset : Nat) (s : State) :
    (readAt offset s).out = .reg (offset % 2 ^ 20 / 4 * 4) (readReg (offPort offset) (offset % 2 ^ 20 / 4 * 4) s) :: s.out :=
  congrArg _ (latch_out _ s)

/-- A read changes the registers by its latch alone. -/
theorem readAt_regs (offset : Nat) (s : State) : (readAt offset s).regs = (latch (offset % 2 ^ 20 / 4 * 4) s).regs := rfl

/-- Reading MX_CSNLO latches the counter's high half into MX_CSNHI. -/
theorem getF_csnhi_readAt (s : State) :
    getF Reg.MX_CSNHI.CSN (readAt Reg.MX_CSNLO.CSN.reg s) = s.mx.csn / 2 ^ 32 % 2 ^ Reg.MX_CSNHI.CSN.width :=
  getF_setF_self Reg.MX_CSNHI.CSN (s.mx.csn / 2 ^ 32) s

/-! Commit points (R51, R146). -/

/-- What one due horizon-boundary write does to the values in force. -/
def dueEff (e : List (Nat × Nat)) (x : Nat × Nat × Nat) : List (Nat × Nat) :=
  match (stagedFields .horizonBoundary).find? (fun f => f.key == x.2.1) with
  | some f => sPut e f.rst f.key x.2.2
  | none => e

/-- Changes of the values in force, one after another, are one change of the values in force. -/
theorem foldl_eff {β : Type} {g : State → β → State} {d : List (Nat × Nat) → β → List (Nat × Nat)}
    (hg : ∀ t x, g t x = { t with eff := d t.eff x }) (l : List β) (t : State) :
    l.foldl g t = { t with eff := l.foldl d t.eff } := by
  induction l generalizing t with
  | nil => rfl
  | cons x l ih => rw [List.foldl_cons, ih, hg]; rfl

/-- A due write put in force, as `commitHorizon` does it. -/
def commitDue (t : State) (x : Nat × Nat × Nat) : State :=
  match (stagedFields .horizonBoundary).find? (fun f => f.key == x.2.1) with
  | some f => putEff f x.2.2 t
  | none => t

/-- A due write changes the values in force and nothing else. -/
theorem commitDue_eq (t : State) (x : Nat × Nat × Nat) : commitDue t x = { t with eff := dueEff t.eff x } := by
  cases h : (stagedFields .horizonBoundary).find? (fun f => f.key == x.2.1) with
  | none => simp only [commitDue, dueEff, h]
  | some f => simp only [commitDue, dueEff, h, putEff]

/-- The notes of the writes that are not yet due. -/
def keepLater (t : State) : State :=
  { t with fs := { t.fs with horizon := t.fs.horizon.filter (fun x => decide (¬ x.1 < fretNow t)) } }

/-- R146: a horizon boundary puts the due writes in force in order, and keeps the others noted. -/
theorem commitHorizon_eq (s : State) :
    commitHorizon s = keepLater { s with
      eff := (s.fs.horizon.filter (fun x => decide (x.1 < fretNow s))).foldl dueEff s.eff } :=
  congrArg keepLater (foldl_eff commitDue_eq _ s)

/-- A boundary that has passed puts its one write in force. -/
theorem commitHorizon_one {boundary : Nat} (value : Nat) {s : State} {f : Field}
    (hf : (stagedFields .horizonBoundary).find? (fun g => g.key == f.key) = some f)
    (hone : s.fs.horizon = [(boundary, f.key, value)]) (hdue : boundary < fretNow s) :
    commitHorizon s = { putEff f value s with fs := { s.fs with horizon := [] } } := by
  have he : dueEff s.eff (boundary, f.key, value) = sPut s.eff f.rst f.key value := by simp only [dueEff, hf]
  have hnow : boundary < s.time.fabric / 4000 := hdue
  rw [commitHorizon_eq]
  simp [keepLater, fretNow, hone, hnow, he, putEff]

/-! The BARs (R40, R61). -/

/-- R61: a BAR of a port that answers keeps the address bits at and above its size. -/
theorem configBarWriteEff_served {port : Port} (dword : Fin 6) (value : Word) {s : State} (hport : portExists port s = true)
    (hans : heAnswers s = true) :
    configBarWriteEff port dword value s = configDone port (s.updPort port (fun h => { h with
      bars := h.bars.set dword.val
        (BitVec.ofNat 32 (value.toNat / 2 ^ (barShape port dword.val s).2 * 2 ^ (barShape port dword.val s).2)) })) :=
  if_neg (by simp [hport, hans])

/-- R40: until the host island is released a configuration write is answered with Request Retry Status. -/
theorem configBarWriteEff_unreleased {port : Port} (dword : Fin 6) (value : Word) {s : State} (hport : portExists port s = true)
    (hrel : s.gen.hostReleased = false) (hmode : s.gen.mode ≠ .reset) :
    configBarWriteEff port dword value s = emit (.tlpCpl port 0 cplRRS [] false) s := by
  have hans : heAnswers s = false := by simp [heAnswers, hrel]
  have hretry : configBarWriteEff port dword value s = configRetry port s := if_pos (by simp [hans])
  rw [hretry]
  exact if_pos ⟨hport, by simp [hrel], hmode⟩

/-! The meanings behind the four commands. -/

/-- The dispatch of REGISTER_WRITE. -/
theorem exec_registerWrite (who : Writer) (offset : Nat) (value : Word) (poisoned : Bool) (s : State) :
    exec (.registerWrite who offset value poisoned) s = .next (registerWriteEff who offset value poisoned s) := rfl

/-- The dispatch of LATCHING_READ. -/
theorem exec_latchingRead (who : Writer) (offset : Nat) (s : State) :
    exec (.latchingRead who offset) s = .next (registerReadEff who offset s) := rfl

/-- The dispatch of STAGED_COMMIT_POINT. -/
theorem exec_stagedCommitPoint (point : CommitPoint) (s : State) : exec (.stagedCommitPoint point) s = .next (commitPoint point s) := rfl

/-- The dispatch of CONFIG_BAR_WRITE. -/
theorem exec_configBarWrite (port : Port) (dword : Fin 6) (value : Word) (s : State) :
    exec (.configBarWrite port dword value) s = .next (configBarWriteEff port dword value s) := rfl

/-! The registers the statement names. -/

/-- R78: a poisoned write received sets POISRX of its port. -/
theorem isOn_poisonRx (p : Port) (s : State) : isOn (portF p Reg.HE_ERRSTAT.A_POISRX Reg.HE_ERRSTAT.B_POISRX) (poisonRx p s) = true := by
  cases p <;> exact isOn_of_only_flagOn (pcieError_only ..) (by decide) (by decide)

/-- MM_STREAM.HOT takes any value of its 16 bits. -/
theorem writeField_hot (who : Writer) (off value : Nat) (s : State) :
    Only [.reg Reg.MM_STREAM.HOT] s (writeField who off value s Reg.MM_STREAM.HOT) ∧
      getF Reg.MM_STREAM.HOT (writeField who off value s Reg.MM_STREAM.HOT) = value % 65536 := by
  have hbits : fieldBits Reg.MM_STREAM.HOT value = value % 65536 := by simp [fieldBits, Reg.MM_STREAM.HOT]
  have hrange : Reg.MM_STREAM.HOT.rmin ≤ fieldBits Reg.MM_STREAM.HOT value ∧
      fieldBits Reg.MM_STREAM.HOT value ≤ Reg.MM_STREAM.HOT.rmax :=
    ⟨Nat.zero_le _, hbits ▸ Nat.le_of_lt_succ (Nat.mod_lt _ (by decide))⟩
  exact hbits ▸ writeField_live who off s (by decide) rfl (by decide) rfl hrange

/-- MM_STREAM.HOT is the one field of its register, which has no action. -/
theorem registerWriteEff_hot (value : Word) (poisoned : Bool) {s : State} (hopen : setupOpen .mgmt s = true)
    (hholds : holds .mgmt s = true) :
    registerWriteEff .mgmt Reg.MM_STREAM.HOT.reg value poisoned s =
      writeField .mgmt Reg.MM_STREAM.HOT.reg value.toNat s Reg.MM_STREAM.HOT := by
  rw [registerWriteEff_mgmt_plain value poisoned hopen (by decide) (by decide) (by decide) (by decide),
    writeReg_one_field (f := Reg.MM_STREAM.HOT) value.toNat hopen (by decide) (by decide +kernel) (by decide) hholds (by decide)]

/-- R49: management without the token is refused MM_STREAM. -/
theorem registerWriteEff_hot_refused (value : Word) (poisoned : Bool) {s : State} (hopen : setupOpen .mgmt s = true)
    (hholds : holds .mgmt s = false) :
    registerWriteEff .mgmt Reg.MM_STREAM.HOT.reg value poisoned s = genErr Reg.GEN_ERR.OWNWR Reg.MM_STREAM.HOT.reg .mgmt s := by
  rw [registerWriteEff_mgmt_plain value poisoned hopen (by decide) (by decide) (by decide) (by decide),
    writeReg_refused value.toNat hopen (by decide) (by decide +kernel) (by decide) hholds]

/-- DC_CFG.SHAPEPOL is the one field of its register, and Locked. -/
theorem registerWriteEff_shapepol_locked {value : Word} (poisoned : Bool) {s : State} (hopen : setupOpen .mgmt s = true)
    (hholds : holds .mgmt s = true) (hen : blocksEnabled s = true) (hne : value.toNat % 2 ≠ getF Reg.DC_CFG.SHAPEPOL s) :
    registerWriteEff .mgmt Reg.DC_CFG.SHAPEPOL.reg value poisoned s =
      genErr Reg.GEN_ERR.LOCKWR Reg.DC_CFG.SHAPEPOL.reg .mgmt s := by
  have hbits : fieldBits Reg.DC_CFG.SHAPEPOL value.toNat = value.toNat % 2 := by simp [fieldBits, Reg.DC_CFG.SHAPEPOL]
  rw [registerWriteEff_mgmt_plain value poisoned hopen (by decide) (by decide) (by decide) (by decide),
    writeReg_one_field (f := Reg.DC_CFG.SHAPEPOL) value.toNat hopen (by decide) (by decide +kernel) (by decide) hholds (by decide),
    writeField_locked .mgmt _ (by decide) rfl (by decide) rfl hen (hbits ▸ hne)]

/-- Settles O13: each clause is where the bus leads one kind of write or read, or what one commit point does. -/
theorem setupRegisters : Obligations.SetupRegisters := by
  refine ⟨?_, ?_, ?_, ?_, ?_, ?_, ?_, fun _ => rfl, fun _ => rfl, fun _ => rfl, ?_, ?_, ?_, ?_, ?_, ?_, ?_, ?_, ?_⟩
  · -- A host write to a function that does not answer.
    rintro who offset value poisoned s rfl hmem
    rw [exec_registerWrite, registerWriteEff_bar0 value poisoned s (.inl rfl), writeAt_closed value poisoned hmem]
  · -- A poisoned host write.
    rintro who offset value poisoned s rfl hmem rfl
    have he := (registerWriteEff_bar0 value true s (.inl rfl)).trans (writeAt_poisoned value hmem)
    exact ⟨_, exec_registerWrite .., registerWriteEff_only .., he ▸ isOn_poisonRx _ s, he⟩
  · -- A plain field.
    intro value poisoned s hopen hholds
    obtain ⟨honly, hval⟩ := writeField_hot .mgmt Reg.MM_STREAM.HOT.reg value.toNat s
    exact ⟨_, (exec_registerWrite ..).trans (congrArg _ (registerWriteEff_hot value poisoned hopen hholds)), honly, hval⟩
  · -- A writer without the token.
    intro value poisoned s hopen hholds
    exact ⟨_, (exec_registerWrite ..).trans (congrArg _ (registerWriteEff_hot_refused value poisoned hopen hholds)),
      genErr_only .., isOn_genErr _ _ s (by decide) (by decide), getF_offset_genErr ..⟩
  · -- A changed Locked field.
    intro value poisoned s hopen hholds hen hne
    exact ⟨_, (exec_registerWrite ..).trans (congrArg _ (registerWriteEff_shapepol_locked poisoned hopen hholds hen hne)),
      genErr_only .., isOn_genErr _ _ s (by decide) (by decide), getF_offset_genErr ..⟩
  · -- MX_CSNLO.
    rintro who offset s hopen hhost rfl
    have he := registerReadEff_bar0 hopen hhost (by decide)
    exact ⟨_, exec_latchingRead .., registerReadEff_only .., he ▸ readAt_out _ s, he ▸ getF_csnhi_readAt s⟩
  · -- A read while the setup space is closed.
    intro who offset s hopen
    rw [exec_latchingRead, registerReadEff_closed offset hopen]
  · -- A horizon boundary with one write noted.
    intro boundary value s hone hdue
    exact congrArg _ (commitHorizon_one value rfl hone hdue)
  · -- A BAR of a port that answers.
    intro port dword value s hport hans
    rw [exec_configBarWrite, configBarWriteEff_served dword value hport hans]
  · -- Any other write of a BAR0 offset.
    intro who offset value poisoned s _ hhost hlt hsetup
    exact ⟨_, exec_registerWrite .., registerWriteEff_only ..,
      (registerWriteEff_bar0 value poisoned s (.inr hlt)).trans (writeAt_setup value hhost hsetup)⟩
  · -- Any other write of a setup block's device address.
    intro offset value poisoned s hopen hlo hhi hremote
    exact ⟨_, exec_registerWrite .., registerWriteEff_only ..,
      (registerWriteEff_device value poisoned (by omega) hopen).trans (writeDevice_setup value hremote hlo hhi)⟩
  · -- An unmapped device address.
    intro offset value poisoned s hopen hge hkind
    rw [exec_registerWrite, registerWriteEff_device value poisoned hge hopen, writeDevice_unmapped value hkind]
  · -- Any open read of a BAR0 offset.
    intro who offset s hopen hhost hlt
    have he := registerReadEff_bar0 hopen hhost hlt
    exact ⟨_, exec_latchingRead .., registerReadEff_only .., he ▸ readAt_out offset s, he ▸ readAt_regs offset s⟩
  · -- A host read of a function that does not answer.
    rintro who offset s hopen rfl hmem hport hans
    have he := registerReadEff_unsupported hopen hmem hport hans
    exact ⟨_, exec_latchingRead .., registerReadEff_only .., he ▸ rfl⟩
  · -- A horizon boundary with any writes noted.
    intro s
    have he := commitHorizon_eq s
    exact ⟨_, exec_stagedCommitPoint .., commitPoint_only .., congrArg (fun t => t.fs.horizon) he, congrArg State.eff he⟩
  · -- A BAR before the host island is released.
    intro port dword value s hport hrel hmode
    rw [exec_configBarWrite, configBarWriteEff_unreleased dword value hport hrel hmode]

end Sys2Proof.Machine
end

section
/-! SUPPORT. The architecture chapter's statements: that every command completes, that a step takes one command off the queue, and how
an admin command completes. Rules R15, R22, R85. -/
namespace Sys2Proof.Machine

/-! Every command answers a next state and leaves the queue alone. -/

/-- An outcome that is a next state, by a change that does not name the queue, keeps the queue. -/
theorem Only.answersKeepingQueue {w : List Fld} {s : State} {o : Host.Outcome State Fault Refusal}
    (h : ∃ t, o = .next t ∧ Only w s t) (hw : covered w .pending = false := by rfl) : ∃ t, o = .next t ∧ t.pending = s.pending := by
  obtain ⟨t, ht, honly⟩ := h
  exact ⟨t, ht, honly.keeps .pending hw⟩

/-- The frame of each command says that it answers a next state, and does not name the queue. Operands are named where the
meaning ignores one, which unification then cannot find. -/
theorem exec_answersKeepingQueue (c : Instr) (s : State) : ∃ t, exec c s = .next t ∧ t.pending = s.pending := by
  cases c with
  | porNAssert => exact Only.answersKeepingQueue (execPorNAssert_only ..)
  | porNDeassert => exact Only.answersKeepingQueue (execPorNDeassert_only ..)
  | pwrFailNAssert => exact Only.answersKeepingQueue (execPwrFailNAssert_only ..)
  | pwrFailNDeassert => exact Only.answersKeepingQueue (execPwrFailNDeassert_only ..)
  | drainFlushComplete => exact Only.answersKeepingQueue (execDrainFlushComplete_only ..)
  | twinFenceInAssert => exact Only.answersKeepingQueue (execTwinFenceInAssert_only ..)
  | twinFenceInDeassert => exact Only.answersKeepingQueue (execTwinFenceInDeassert_only ..)
  | twinHbInChange => exact Only.answersKeepingQueue (execTwinHbInChange_only ..)
  | tsyncInEdge => exact Only.answersKeepingQueue (execTsyncInEdge_only ..)
  | huGoodDeassert => exact Only.answersKeepingQueue (execHuGoodDeassert_only ..)
  | huGoodReassert => exact Only.answersKeepingQueue (execHuGoodReassert_only ..)
  | huSenseBelowVLow => exact Only.answersKeepingQueue (execHuSenseBelowVLow_only ..)
  | holdupVerificationStart => exact Only.answersKeepingQueue (execHoldupVerificationStart_only ..)
  | holdupVerificationEnd => exact Only.answersKeepingQueue (execHoldupVerificationEnd_only ..)
  | heRefclkLoss => exact Only.answersKeepingQueue (execHeRefclkLoss_only ..)
  | gfRefclkLoss => exact Only.answersKeepingQueue (execGfRefclkLoss_only ..)
  | mgXtalLoss what => exact Only.answersKeepingQueue (execMgXtalLoss_only what s)
  | dramChannelTrainingLoss => exact Only.answersKeepingQueue (execDramChannelTrainingLoss_only ..)
  | bootImageVerify => exact Only.answersKeepingQueue (execBootImageVerify_only ..)
  | hostIslandRelease => exact Only.answersKeepingQueue (execHostIslandRelease_only ..)
  | dramTraining => exact Only.answersKeepingQueue (execDramTraining_only ..)
  | channelTraining => exact Only.answersKeepingQueue (execChannelTraining_only ..)
  | journalRootRead => exact Only.answersKeepingQueue (execJournalRootRead_only ..)
  | residentMapLoad => exact Only.answersKeepingQueue (execResidentMapLoad_only ..)
  | mapRecovery => exact Only.answersKeepingQueue (execMapRecovery_only ..)
  | halfErasedBlockRedo => exact Only.answersKeepingQueue (execHalfErasedBlockRedo_only ..)
  | openStripeCompletion => exact Only.answersKeepingQueue (execOpenStripeCompletion_only ..)
  | startupComplete => exact Only.answersKeepingQueue (execStartupComplete_only ..)
  | genResetY9 => exact Only.answersKeepingQueue (execGenResetY9_only ..)
  | genResetManagement => exact Only.answersKeepingQueue (execGenResetManagement_only ..)
  | watchdogExpiry => exact Only.answersKeepingQueue (execWatchdogExpiry_only ..)
  | lockstepMismatch => exact Only.answersKeepingQueue (execLockstepMismatch_only ..)
  | conventionalReset cause => exact Only.answersKeepingQueue (execConventionalReset_only cause s)
  | functionLevelReset => exact Only.answersKeepingQueue (execFunctionLevelReset_only ..)
  | ccEnSet => exact Only.answersKeepingQueue (execCcEnSet_only ..)
  | ccEnClear => exact Only.answersKeepingQueue (execCcEnClear_only ..)
  | shutdownNotification => exact Only.answersKeepingQueue (execShutdownNotification_only ..)
  | genModereqDiagnostic => exact Only.answersKeepingQueue (execGenModereqDiagnostic_only ..)
  | diagnosticEntry => exact Only.answersKeepingQueue (execDiagnosticEntry_only ..)
  | genModereqService => exact Only.answersKeepingQueue (execGenModereqService_only ..)
  | genModereqQuarantine => exact Only.answersKeepingQueue (execGenModereqQuarantine_only ..)
  | genModereqProvision => exact Only.answersKeepingQueue (execGenModereqProvision_only ..)
  | modereqKeyTimeout => exact Only.answersKeepingQueue (execModereqKeyTimeout_only ..)
  | provisioningCommit => exact Only.answersKeepingQueue (execProvisioningCommit_only ..)
  | genOwnerClaim => exact Only.answersKeepingQueue (execGenOwnerClaim_only ..)
  | genOwnerRelease => exact Only.answersKeepingQueue (execGenOwnerRelease_only ..)
  | genOwnerSeize => exact Only.answersKeepingQueue (execGenOwnerSeize_only ..)
  | genOwnerSeizedClear => exact Only.answersKeepingQueue (execGenOwnerSeizedClear_only ..)
  | registerWrite => exact Only.answersKeepingQueue (execRegisterWrite_only ..)
  | latchingRead => exact Only.answersKeepingQueue (execLatchingRead_only ..)
  | stagedCommitPoint => exact Only.answersKeepingQueue (execStagedCommitPoint_only ..)
  | bar0BadAccess => exact Only.answersKeepingQueue (execBar0BadAccess_only ..)
  | configBarWrite => exact Only.answersKeepingQueue (execConfigBarWrite_only ..)
  | sqTailDoorbell => exact Only.answersKeepingQueue (execSqTailDoorbell_only ..)
  | cqHeadDoorbell => exact Only.answersKeepingQueue (execCqHeadDoorbell_only ..)
  | sqeFetch => exact Only.answersKeepingQueue (execSqeFetch_only ..)
  | pollRound => exact Only.answersKeepingQueue (execPollRound_only ..)
  | pollCompletion => exact Only.answersKeepingQueue (execPollCompletion_only ..)
  | pollStop => exact Only.answersKeepingQueue (execPollStop_only ..)
  | cmbMmioRead => exact Only.answersKeepingQueue (execCmbMmioRead_only ..)
  | cmbMmioWrite => exact Only.answersKeepingQueue (execCmbMmioWrite_only ..)
  | windowTlpRead => exact Only.answersKeepingQueue (execWindowTlpRead_only ..)
  | windowTlpWrite => exact Only.answersKeepingQueue (execWindowTlpWrite_only ..)
  | windowWriteAck => exact Only.answersKeepingQueue (execWindowWriteAck_only ..)
  | unsupportedTlp => exact Only.answersKeepingQueue (execUnsupportedTlp_only ..)
  | malformedTlp => exact Only.answersKeepingQueue (execMalformedTlp_only ..)
  | heWincommitA => exact Only.answersKeepingQueue (execHeWincommitA_only ..)
  | heWincommitB => exact Only.answersKeepingQueue (execHeWincommitB_only ..)
  | windowCopyDone => exact Only.answersKeepingQueue (execWindowCopyDone_only ..)
  | heWinlogClr => exact Only.answersKeepingQueue (execHeWinlogClr_only ..)
  | hostReadCompletion => exact Only.answersKeepingQueue (execHostReadCompletion_only ..)
  | hostReadTimeout => exact Only.answersKeepingQueue (execHostReadTimeout_only ..)
  | linkTrained => exact Only.answersKeepingQueue (execLinkTrained_only ..)
  | linkRecoveryEntry => exact Only.answersKeepingQueue (execLinkRecoveryEntry_only ..)
  | linkRecoveryExit => exact Only.answersKeepingQueue (execLinkRecoveryExit_only ..)
  | surpriseDown => exact Only.answersKeepingQueue (execSurpriseDown_only ..)
  | l0pWidthChange => exact Only.answersKeepingQueue (execL0pWidthChange_only ..)
  | aspmL1Entry => exact Only.answersKeepingQueue (execAspmL1Entry_only ..)
  | d3hotEntry => exact Only.answersKeepingQueue (execD3hotEntry_only ..)
  | doeRequest => exact Only.answersKeepingQueue (execDoeRequest_only ..)
  | doeAbort => exact Only.answersKeepingQueue (execDoeAbort_only ..)
  | deleteIoSq => exact Only.answersKeepingQueue (execDeleteIoSq_only ..)
  | createIoSq => exact Only.answersKeepingQueue (execCreateIoSq_only ..)
  | getLogPage => exact Only.answersKeepingQueue (execGetLogPage_only ..)
  | deleteIoCq => exact Only.answersKeepingQueue (execDeleteIoCq_only ..)
  | createIoCq => exact Only.answersKeepingQueue (execCreateIoCq_only ..)
  | identify => exact Only.answersKeepingQueue (execIdentify_only ..)
  | abort h sqid cid => exact Only.answersKeepingQueue (execAbort_only h sqid cid s)
  | setFeaturesArbitration => exact Only.answersKeepingQueue (execSetFeaturesArbitration_only ..)
  | setFeaturesPowerManagement => exact Only.answersKeepingQueue (execSetFeaturesPowerManagement_only ..)
  | powerStateEntry => exact Only.answersKeepingQueue (execPowerStateEntry_only ..)
  | setFeaturesTemperatureThreshold => exact Only.answersKeepingQueue (execSetFeaturesTemperatureThreshold_only ..)
  | setFeaturesVolatileWriteCache => exact Only.answersKeepingQueue (execSetFeaturesVolatileWriteCache_only ..)
  | setFeaturesNumberOfQueues => exact Only.answersKeepingQueue (execSetFeaturesNumberOfQueues_only ..)
  | setFeaturesInterruptCoalescing => exact Only.answersKeepingQueue (execSetFeaturesInterruptCoalescing_only ..)
  | setFeaturesInterruptVectorConfig => exact Only.answersKeepingQueue (execSetFeaturesInterruptVectorConfig_only ..)
  | setFeaturesAsyncEventConfig => exact Only.answersKeepingQueue (execSetFeaturesAsyncEventConfig_only ..)
  | setFeaturesLatencyClassTable => exact Only.answersKeepingQueue (execSetFeaturesLatencyClassTable_only ..)
  | setFeaturesQueueLatencyBinding => exact Only.answersKeepingQueue (execSetFeaturesQueueLatencyBinding_only ..)
  | setFeaturesWriteCacheProtection => exact Only.answersKeepingQueue (execSetFeaturesWriteCacheProtection_only ..)
  | getFeatures => exact Only.answersKeepingQueue (execGetFeatures_only ..)
  | asynchronousEventRequest => exact Only.answersKeepingQueue (execAsynchronousEventRequest_only ..)
  | namespaceManagementCreate => exact Only.answersKeepingQueue (execNamespaceManagementCreate_only ..)
  | namespaceManagementDelete => exact Only.answersKeepingQueue (execNamespaceManagementDelete_only ..)
  | namespaceAttachment => exact Only.answersKeepingQueue (execNamespaceAttachment_only ..)
  | firmwareImageDownload => exact Only.answersKeepingQueue (execFirmwareImageDownload_only ..)
  | firmwareCommitWrite => exact Only.answersKeepingQueue (execFirmwareCommitWrite_only ..)
  | firmwareCommitWriteSelect => exact Only.answersKeepingQueue (execFirmwareCommitWriteSelect_only ..)
  | firmwareCommitSelect => exact Only.answersKeepingQueue (execFirmwareCommitSelect_only ..)
  | firmwareCommitActivate => exact Only.answersKeepingQueue (execFirmwareCommitActivate_only ..)
  | deviceSelfTest => exact Only.answersKeepingQueue (execDeviceSelfTest_only ..)
  | directiveSend => exact Only.answersKeepingQueue (execDirectiveSend_only ..)
  | directiveReceive => exact Only.answersKeepingQueue (execDirectiveReceive_only ..)
  | doorbellBufferConfig => exact Only.answersKeepingQueue (execDoorbellBufferConfig_only ..)
  | formatNvm => exact Only.answersKeepingQueue (execFormatNvm_only ..)
  | formatNvmCryptoErase => exact Only.answersKeepingQueue (execFormatNvmCryptoErase_only ..)
  | sanitizeBlockErase => exact Only.answersKeepingQueue (execSanitizeBlockErase_only ..)
  | sanitizeCryptoErase => exact Only.answersKeepingQueue (execSanitizeCryptoErase_only ..)
  | twinControlPair => exact Only.answersKeepingQueue (execTwinControlPair_only ..)
  | twinControlSwitch => exact Only.answersKeepingQueue (execTwinControlSwitch_only ..)
  | twinControlRejoin => exact Only.answersKeepingQueue (execTwinControlRejoin_only ..)
  | twinControlUnpair => exact Only.answersKeepingQueue (execTwinControlUnpair_only ..)
  | twinControlRelease => exact Only.answersKeepingQueue (execTwinControlRelease_only ..)
  | migrationControlArm => exact Only.answersKeepingQueue (execMigrationControlArm_only ..)
  | migrationControlStart => exact Only.answersKeepingQueue (execMigrationControlStart_only ..)
  | migrationControlSeal => exact Only.answersKeepingQueue (execMigrationControlSeal_only ..)
  | migrationControlAbort => exact Only.answersKeepingQueue (execMigrationControlAbort_only ..)
  | migrationControlStatus => exact Only.answersKeepingQueue (execMigrationControlStatus_only ..)
  | migrationControlResolve => exact Only.answersKeepingQueue (execMigrationControlResolve_only ..)
  | sealDevice => exact Only.answersKeepingQueue (execSealDevice_only ..)
  | unsealDevice => exact Only.answersKeepingQueue (execUnsealDevice_only ..)
  | sealNamespace => exact Only.answersKeepingQueue (execSealNamespace_only ..)
  | unsealNamespace => exact Only.answersKeepingQueue (execUnsealNamespace_only ..)
  | read => exact Only.answersKeepingQueue (execRead_only ..)
  | write => exact Only.answersKeepingQueue (execWrite_only ..)
  | flush => exact Only.answersKeepingQueue (execFlush_only ..)
  | writeUncorrectable => exact Only.answersKeepingQueue (execWriteUncorrectable_only ..)
  | writeZeroes h slba nlb fua deac pr => exact Only.answersKeepingQueue (execWriteZeroes_only h slba nlb fua deac pr s)
  | datasetManagement => exact Only.answersKeepingQueue (execDatasetManagement_only ..)
  | verify => exact Only.answersKeepingQueue (execVerify_only ..)
  | copy => exact Only.answersKeepingQueue (execCopy_only ..)
  | fixityDigest => exact Only.answersKeepingQueue (execFixityDigest_only ..)
  | mapPageLoaded => exact Only.answersKeepingQueue (execMapPageLoaded_only ..)
  | lc7AdmissionRetry => exact Only.answersKeepingQueue (execLc7AdmissionRetry_only ..)
  | dcForwardDone => exact Only.answersKeepingQueue (execDcForwardDone_only ..)
  | completionPost => exact Only.answersKeepingQueue (execCompletionPost_only ..)
  | partialGrainMerge => exact Only.answersKeepingQueue (execPartialGrainMerge_only ..)
  | wordlineProgramStart => exact Only.answersKeepingQueue (execWordlineProgramStart_only ..)
  | programVerifyDone => exact Only.answersKeepingQueue (execProgramVerifyDone_only ..)
  | gatherTimeout => exact Only.answersKeepingQueue (execGatherTimeout_only ..)
  | barrelOpen => exact Only.answersKeepingQueue (execBarrelOpen_only ..)
  | readRoundDone => exact Only.answersKeepingQueue (execReadRoundDone_only ..)
  | readReadyTimeout => exact Only.answersKeepingQueue (execReadReadyTimeout_only ..)
  | spDieoutWrite => exact Only.answersKeepingQueue (execSpDieoutWrite_only ..)
  | fretTick => exact Only.answersKeepingQueue (execFretTick_only ..)
  | suspendRequest => exact Only.answersKeepingQueue (execSuspendRequest_only ..)
  | vatTurnEnd => exact Only.answersKeepingQueue (execVatTurnEnd_only ..)
  | groupWordlineBoundary => exact Only.answersKeepingQueue (execGroupWordlineBoundary_only ..)
  | journalFlush => exact Only.answersKeepingQueue (execJournalFlush_only ..)
  | journalSegmentDurable => exact Only.answersKeepingQueue (execJournalSegmentDurable_only ..)
  | checkpointSweepStart => exact Only.answersKeepingQueue (execCheckpointSweepStart_only ..)
  | sweepTimeout => exact Only.answersKeepingQueue (execSweepTimeout_only ..)
  | sweepRootDurable => exact Only.answersKeepingQueue (execSweepRootDurable_only ..)
  | mapLineRestored => exact Only.answersKeepingQueue (execMapLineRestored_only ..)
  | rackingStart => exact Only.answersKeepingQueue (execRackingStart_only ..)
  | rackdoneDurable => exact Only.answersKeepingQueue (execRackdoneDurable_only ..)
  | eraseintDurable => exact Only.answersKeepingQueue (execEraseintDurable_only ..)
  | eraseDone => exact Only.answersKeepingQueue (execEraseDone_only ..)
  | bottlingStart => exact Only.answersKeepingQueue (execBottlingStart_only ..)
  | vatSlotErase => exact Only.answersKeepingQueue (execVatSlotErase_only ..)
  | ageRefresh => exact Only.answersKeepingQueue (execAgeRefresh_only ..)
  | blockRefresh => exact Only.answersKeepingQueue (execBlockRefresh_only ..)
  | v4Reclaim => exact Only.answersKeepingQueue (execV4Reclaim_only ..)
  | snapshotWrite => exact Only.answersKeepingQueue (execSnapshotWrite_only ..)
  | snapshotDurable => exact Only.answersKeepingQueue (execSnapshotDurable_only ..)
  | rebuildStart => exact Only.answersKeepingQueue (execRebuildStart_only ..)
  | rebuildWordlineDone => exact Only.answersKeepingQueue (execRebuildWordlineDone_only ..)
  | groupDissolution => exact Only.answersKeepingQueue (execGroupDissolution_only ..)
  | sequencerFault => exact Only.answersKeepingQueue (execSequencerFault_only ..)
  | yieldTimeout => exact Only.answersKeepingQueue (execYieldTimeout_only ..)
  | channelRetrain => exact Only.answersKeepingQueue (execChannelRetrain_only ..)
  | retrainStep => exact Only.answersKeepingQueue (execRetrainStep_only ..)
  | patchSetLoad => exact Only.answersKeepingQueue (execPatchSetLoad_only ..)
  | patchHandoff => exact Only.answersKeepingQueue (execPatchHandoff_only ..)
  | bufferAllocate => exact Only.answersKeepingQueue (execBufferAllocate_only ..)
  | bufferFree => exact Only.answersKeepingQueue (execBufferFree_only ..)
  | poolRebuildDone => exact Only.answersKeepingQueue (execPoolRebuildDone_only ..)
  | lineCheckFailure => exact Only.answersKeepingQueue (execLineCheckFailure_only ..)
  | staleGenerationAccess => exact Only.answersKeepingQueue (execStaleGenerationAccess_only ..)
  | mergeEntryTimeout => exact Only.answersKeepingQueue (execMergeEntryTimeout_only ..)
  | gareoLinkTrained => exact Only.answersKeepingQueue (execGareoLinkTrained_only ..)
  | flitReceived => exact Only.answersKeepingQueue (execFlitReceived_only ..)
  | linkSilenceTimeout => exact Only.answersKeepingQueue (execLinkSilenceTimeout_only ..)
  | linkRetrainDone => exact Only.answersKeepingQueue (execLinkRetrainDone_only ..)
  | linkRetryTimer => exact Only.answersKeepingQueue (execLinkRetryTimer_only ..)
  | ackTimer => exact Only.answersKeepingQueue (execAckTimer_only ..)
  | frameResendTimeout => exact Only.answersKeepingQueue (execFrameResendTimeout_only ..)
  | hello link uid candUid candDist epoch pref => exact Only.answersKeepingQueue (execHello_only link uid candUid candDist epoch pref s)
  | discoveryQuietTimeout => exact Only.answersKeepingQueue (execDiscoveryQuietTimeout_only ..)
  | lsr => exact Only.answersKeepingQueue (execLsr_only ..)
  | table => exact Only.answersKeepingQueue (execTable_only ..)
  | epoch => exact Only.answersKeepingQueue (execEpoch_only ..)
  | epochApply => exact Only.answersKeepingQueue (execEpochApply_only ..)
  | resync => exact Only.answersKeepingQueue (execResync_only ..)
  | ack => exact Only.answersKeepingQueue (execAck_only ..)
  | nak => exact Only.answersKeepingQueue (execNak_only ..)
  | timeExchangeTimer => exact Only.answersKeepingQueue (execTimeExchangeTimer_only ..)
  | time => exact Only.answersKeepingQueue (execTime_only ..)
  | coordinatorHeartbeat => exact Only.answersKeepingQueue (execCoordinatorHeartbeat_only ..)
  | coordinatorLoss => exact Only.answersKeepingQueue (execCoordinatorLoss_only ..)
  | gfNodeReassign => exact Only.answersKeepingQueue (execGfNodeReassign_only ..)
  | rdreq => exact Only.answersKeepingQueue (execRdreq_only ..)
  | rdresp => exact Only.answersKeepingQueue (execRdresp_only ..)
  | writeFrame => exact Only.answersKeepingQueue (execWriteFrame_only ..)
  | mgmt => exact Only.answersKeepingQueue (execMgmt_only ..)
  | mirrorGranules => exact Only.answersKeepingQueue (execMirrorGranules_only ..)
  | mirrorCommitRecord => exact Only.answersKeepingQueue (execMirrorCommitRecord_only ..)
  | mirrorNamespaceOperation => exact Only.answersKeepingQueue (execMirrorNamespaceOperation_only ..)
  | mirrorLatencyClassTable => exact Only.answersKeepingQueue (execMirrorLatencyClassTable_only ..)
  | mirrorXtsKey nsid wrapped => exact Only.answersKeepingQueue (execMirrorXtsKey_only nsid wrapped s)
  | mirrorSnapshot => exact Only.answersKeepingQueue (execMirrorSnapshot_only ..)
  | mirrorRepair => exact Only.answersKeepingQueue (execMirrorRepair_only ..)
  | hbSendTimer => exact Only.answersKeepingQueue (execHbSendTimer_only ..)
  | hb seq peerState csn => exact Only.answersKeepingQueue (execHb_only seq peerState csn s)
  | hbPathLost => exact Only.answersKeepingQueue (execHbPathLost_only ..)
  | drainNotice => exact Only.answersKeepingQueue (execDrainNotice_only ..)
  | soloEntry => exact Only.answersKeepingQueue (execSoloEntry_only ..)
  | soloExit => exact Only.answersKeepingQueue (execSoloExit_only ..)
  | pairreq src action idOk nsCount => exact Only.answersKeepingQueue (execPairreq_only src action idOk nsCount s)
  | pairack => exact Only.answersKeepingQueue (execPairack_only ..)
  | switch => exact Only.answersKeepingQueue (execSwitch_only ..)
  | switchack => exact Only.answersKeepingQueue (execSwitchack_only ..)
  | seedSegmentSend => exact Only.answersKeepingQueue (execSeedSegmentSend_only ..)
  | migstart => exact Only.answersKeepingQueue (execMigstart_only ..)
  | migack => exact Only.answersKeepingQueue (execMigack_only ..)
  | migrationSegmentSend => exact Only.answersKeepingQueue (execMigrationSegmentSend_only ..)
  | migseg => exact Only.answersKeepingQueue (execMigseg_only ..)
  | segdig => exact Only.answersKeepingQueue (execSegdig_only ..)
  | segres nsid seg pass result => exact Only.answersKeepingQueue (execSegres_only nsid seg pass result s)
  | dirtyPassEnd => exact Only.answersKeepingQueue (execDirtyPassEnd_only ..)
  | cutover => exact Only.answersKeepingQueue (execCutover_only ..)
  | cutack => exact Only.answersKeepingQueue (execCutack_only ..)
  | migrationAbortMessage cause => exact Only.answersKeepingQueue (execMigrationAbortMessage_only cause s)
  | migrationRouteTimeout => exact Only.answersKeepingQueue (execMigrationRouteTimeout_only ..)
  | stop vc stream => exact Only.answersKeepingQueue (execStop_only vc stream s)
  | digestContextOpen => exact Only.answersKeepingQueue (execDigestContextOpen_only ..)
  | digestSaveDone => exact Only.answersKeepingQueue (execDigestSaveDone_only ..)
  | digestBlock => exact Only.answersKeepingQueue (execDigestBlock_only ..)
  | auditStart => exact Only.answersKeepingQueue (execAuditStart_only ..)
  | auditPeriodTimer => exact Only.answersKeepingQueue (execAuditPeriodTimer_only ..)
  | dgSecAdvance => exact Only.answersKeepingQueue (execDgSecAdvance_only ..)
  | rngHealthFailure => exact Only.answersKeepingQueue (execRngHealthFailure_only ..)
  | ecMaxcorrClr => exact Only.answersKeepingQueue (execEcMaxcorrClr_only ..)
  | spSubselWrite => exact Only.answersKeepingQueue (execSpSubselWrite_only ..)
  | sensorSample => exact Only.answersKeepingQueue (execSensorSample_only ..)
  | eventLogFlush => exact Only.answersKeepingQueue (execEventLogFlush_only ..)
  | timeMarkWrite => exact Only.answersKeepingQueue (execTimeMarkWrite_only ..)
  | mgWdogKick => exact Only.answersKeepingQueue (execMgWdogKick_only ..)
  | mgLogackWrite => exact Only.answersKeepingQueue (execMgLogackWrite_only ..)
  | ffRead => exact Only.answersKeepingQueue (execFfRead_only ..)
  | ffProgram => exact Only.answersKeepingQueue (execFfProgram_only ..)
  | ffErase => exact Only.answersKeepingQueue (execFfErase_only ..)
  | ffReadhdr => exact Only.answersKeepingQueue (execFfReadhdr_only ..)
  | ffOperationDone => exact Only.answersKeepingQueue (execFfOperationDone_only ..)
  | readNvmeMiDataStructure => exact Only.answersKeepingQueue (execReadNvmeMiDataStructure_only ..)
  | nvmSubsystemHealthStatusPoll => exact Only.answersKeepingQueue (execNvmSubsystemHealthStatusPoll_only ..)
  | controllerHealthStatusPoll => exact Only.answersKeepingQueue (execControllerHealthStatusPoll_only ..)
  | configurationGet => exact Only.answersKeepingQueue (execConfigurationGet_only ..)
  | configurationSet => exact Only.answersKeepingQueue (execConfigurationSet_only ..)
  | vpdRead => exact Only.answersKeepingQueue (execVpdRead_only ..)
  | miTunnelledAdminCommand => exact Only.answersKeepingQueue (execMiTunnelledAdminCommand_only ..)
  | setupRegisterRead => exact Only.answersKeepingQueue (execSetupRegisterRead_only ..)
  | setupRegisterWrite => exact Only.answersKeepingQueue (execSetupRegisterWrite_only ..)
  | eventLogRead => exact Only.answersKeepingQueue (execEventLogRead_only ..)
  | eventLogAcknowledge => exact Only.answersKeepingQueue (execEventLogAcknowledge_only ..)
  | getVersion => exact Only.answersKeepingQueue (execGetVersion_only ..)
  | getCapabilities => exact Only.answersKeepingQueue (execGetCapabilities_only ..)
  | negotiateAlgorithms => exact Only.answersKeepingQueue (execNegotiateAlgorithms_only ..)
  | getDigests => exact Only.answersKeepingQueue (execGetDigests_only ..)
  | getCertificate => exact Only.answersKeepingQueue (execGetCertificate_only ..)
  | setCertificate => exact Only.answersKeepingQueue (execSetCertificate_only ..)
  | challenge => exact Only.answersKeepingQueue (execChallenge_only ..)
  | getMeasurements => exact Only.answersKeepingQueue (execGetMeasurements_only ..)
  | keyExchange => exact Only.answersKeepingQueue (execKeyExchange_only ..)
  | finish => exact Only.answersKeepingQueue (execFinish_only ..)
  | endSession => exact Only.answersKeepingQueue (execEndSession_only ..)
  | policyCoreFault => exact Only.answersKeepingQueue (execPolicyCoreFault_only ..)
  | fiArmKey => exact Only.answersKeepingQueue (execFiArmKey_only ..)
  | fiDisarm => exact Only.answersKeepingQueue (execFiDisarm_only ..)
  | fiArmTimeout => exact Only.answersKeepingQueue (execFiArmTimeout_only ..)
  | fiGfEn => exact Only.answersKeepingQueue (execFiGfEn_only ..)
  | fiFlEn => exact Only.answersKeepingQueue (execFiFlEn_only ..)
  | fiPcieEn => exact Only.answersKeepingQueue (execFiPcieEn_only ..)
  | fiKeySequenceTimeout => exact Only.answersKeepingQueue (execFiKeySequenceTimeout_only ..)
  | rngHealthRestored => exact Only.answersKeepingQueue (execRngHealthRestored_only ..)
  | managementResetEnd => exact Only.answersKeepingQueue (execManagementResetEnd_only ..)
  | configRegisterWrite => exact Only.answersKeepingQueue (execConfigRegisterWrite_only ..)
  | aspmL1Exit => exact Only.answersKeepingQueue (execAspmL1Exit_only ..)
  | cmbmscWrite => exact Only.answersKeepingQueue (execCmbmscWrite_only ..)
  | deviceSelfTestComplete => exact Only.answersKeepingQueue (execDeviceSelfTestComplete_only ..)
  | interruptCoalescingTimeout => exact Only.answersKeepingQueue (execInterruptCoalescingTimeout_only ..)

/-- A step with a command waiting takes it off the queue and runs it. -/
theorem step_cons {c : Instr} {rest : List Instr} {s : State} (h : s.pending = c :: rest) :
    step s = exec c { s with pending := rest } := by
  rw [step, h]

/-- A step with nothing waiting changes nothing. -/
theorem step_nil {s : State} (h : s.pending = []) : step s = .next s := by
  rw [step, h]

/-- Settles O1: the two branches of `step`. -/
theorem stepRunsFront : Obligations.StepRunsFront :=
  ⟨fun _ _ _ => step_cons rfl, fun _ => step_nil⟩

/-- A step answers a next state, with the front command taken off the queue. -/
theorem step_answersTail (s : State) : ∃ t, step s = .next t ∧ t.pending = s.pending.tail := by
  cases h : s.pending with
  | nil => exact ⟨s, step_nil h, h⟩
  | cons c rest =>
    rw [step_cons h]
    exact exec_answersKeepingQueue c { s with pending := rest }

/-- Settles O44: the frame of each command gives the first clause, and with it a step's answer, which is its only one, the second. -/
theorem everyCommandCompletes : Obligations.EveryCommandCompletes := by
  refine ⟨exec_answersKeepingQueue, fun s t ht => ?_⟩
  obtain ⟨u, hu, htail⟩ := step_answersTail s
  cases ht.symm.trans hu
  exact htail

/-- A run goes on from the state that its first step answers. -/
theorem run_succ_of_step {M : Host.Core} {s t : M.State} (h : M.step s = .next t) (n : Nat) : M.run (n + 1) s = M.run n t := by
  simp only [Host.Core.run, h]

/-- Settles O45, by induction on the number of steps: each step answers a next state, from which the rest of the run goes on. -/
theorem runsNeverStop : Obligations.RunsNeverStop := by
  intro n
  induction n with
  | zero => exact fun s => ⟨s, rfl⟩
  | succ n ih =>
    intro s
    obtain ⟨t, ht, _⟩ := step_answersTail s
    obtain ⟨u, hu⟩ := ih t
    exact ⟨u, (run_succ_of_step (M := core) ht n).trans hu⟩

/-! A completion whose queue is full (R85). -/

/-- Log C2h counts an event of cause 1. -/
def countHeld (s : State) : State := { s with fs := { s.fs with exts := s.fs.exts.modify 1 (fun e => (e.1 + 1, e.2)) } }

/-- R85: a completion that finds its queue full is held, and counted in log C2h and in QE_CQFULL. -/
theorem postDone_full {p : Port} {sq : Nat} {q : Sq} {c : Cq} {s : State} (cid : BitVec 16) (sct sc dw0 dw1 : Nat) (d : Option Done)
    (hsq : (s.con p).sqs.find? (fun x => x.qid == sq) = some q) (hcq : (s.con p).cqs.find? (fun x => x.qid == q.cq) = some c)
    (hfull : c.hasRoom = false) :
    postDone p sq cid sct sc dw0 dw1 d s = bump Reg.QE_CQFULL.COUNT (updCq p c.qid (fun x => { x with
      held := x.held ++ [⟨now s, ⟨c.qid, sq, q.head, cid, sct, sc, dw0, dw1, c.phase⟩, d⟩] }) (countHeld s)) := by
  simp only [postDone, hsq, hcq, hfull, Bool.false_eq_true, false_and, if_false]
  rfl

/-- Holding a completion leaves log C2h alone, which only `countHeld` changes. -/
theorem bump_updCq_fs (f : Field) (p : Port) (qid : Nat) (g : Cq → Cq) (s : State) : (bump f (updCq p qid g s)).fs = s.fs := rfl

/-- A ready controller whose admin completion queue of two entries holds one that the host has not taken. -/
def adminQueueFull : State :=
  { State.reset with
    gen := { Gen.reset with mode := .service }
    ctl := ⟨{ Ctl.reset with en := true, sqs := [adminSq 1 0], cqs := [{ adminCq 1 0 with tail := 1 }] }, .reset⟩ }

/-- Refutes O59: R85 has a held completion counted in log C2h, as `postDone_full` states, and the third clause leaves that count out.
On `adminQueueFull` the count goes from 0 to 1. -/
theorem not_completionEntries : ¬ Obligations.CompletionEntries := by
  rintro ⟨-, -, hheld⟩
  have hclause := hheld ⟨.a, 7, 0, 0, true, .unread, false⟩ 0 0 0 0 (adminSq 1 0) { adminCq 1 0 with tail := 1 } adminQueueFull
    rfl rfl rfl rfl
  have hmodel := postDone_full (p := .a) (sq := 0) (q := adminSq 1 0) (c := { adminCq 1 0 with tail := 1 }) (s := adminQueueFull)
    7 0 0 0 0 none rfl rfl rfl
  have hcount : (countHeld adminQueueFull).fs.exts = adminQueueFull.fs.exts := by
    have h := congrArg (fun t => t.fs.exts) (hmodel.symm.trans hclause)
    simpa only [bump_updCq_fs] using h
  exact absurd hcount (by decide)

end Sys2Proof.Machine
end

section
/-! SUPPORT. The byte stores (the exported region and the memory buffers of the two ports): what is read back after a write, and the laws by
which an operation's effect on them follows from those of its parts. Rules R63, R317. -/
namespace Sys2Proof.Machine

/-! Bytes written are read back. -/

/-- A byte written is read back where it was written, and every other byte reads as before. -/
theorem sGet_putBytes (l : List (Nat × Byte)) (off k : Nat) (data : List Byte) :
    sGet (putBytes l off data) 0 k = if off ≤ k ∧ k < off + data.length then data.getD (k - off) 0 else sGet l 0 k := by
  induction data generalizing l off with
  | nil => exact (if_neg (by simp only [List.length_nil]; omega)).symm
  | cons b t ih =>
    rw [putBytes, ih]
    rcases Nat.lt_trichotomy k off with hlt | rfl | hgt
    · rw [if_neg (by omega), if_neg (by omega), sGet_sPut_ne l 0 0 b hlt.ne]
    · rw [if_neg (by omega), if_pos (by simp), sGet_sPut_self, Nat.sub_self, List.getD_cons_zero]
    · have hrange : off + 1 ≤ k ∧ k < off + 1 + t.length ↔ off ≤ k ∧ k < off + (b :: t).length := by
        simp only [List.length_cons]; omega
      obtain ⟨i, rfl⟩ := Nat.exists_eq_add_of_lt hgt
      simp only [hrange, sGet_sPut_ne l 0 0 b hgt.ne', show off + i + 1 - off = i + 1 by omega,
        show off + i + 1 - (off + 1) = i by omega, List.getD_cons_succ]

/-- Writing bytes keeps the canonical form. -/
theorem sWf_putBytes {l : List (Nat × Byte)} (off : Nat) (data : List Byte) (h : sWf l 0 = true) :
    sWf (putBytes l off data) 0 = true := by
  induction data generalizing l off with
  | nil => exact h
  | cons b t ih => exact ih (off + 1) (sWf_sPut off b h)

/-- Settles O47: by induction on the bytes, each of which is one `sPut`. -/
theorem memoryReadsBack : Obligations.MemoryReadsBack :=
  ⟨sGet_putBytes, fun _ off data h => sWf_putBytes off data h⟩

/-! The three stores of a state. -/

/-- The byte stores of a state: the exported region and the memory buffers of the two ports. -/
def State.bytes (s : State) : List (Nat × Byte) × List (Nat × Byte) × List (Nat × Byte) := (s.me.exported, s.he.a.cmb, s.he.b.cmb)

/-- Under `bytes`, simp takes the operations of a state from the outermost inwards and leaves their arguments alone: which operations ran
decides what the stores hold, and the arguments are large. -/
@[congr] theorem bytes_congr (s : State) : s.bytes = s.bytes := rfl

/-- The stores of a state written out field by field. In parentheses, `rfl` is no step that the kernel must find again in each use. -/
@[simp] theorem bytes_mk (pending freeCtr out regs eff time pins gen he ctl sh defFaults lost cmds nextCmd fs mx ns nsWait mm sp cs bp me
    gf tw dg mg fi nand ff prov fuses) :
    State.bytes ⟨pending, freeCtr, out, regs, eff, time, pins, gen, he, ctl, sh, defFaults, lost, cmds, nextCmd, fs, mx, ns, nsWait, mm,
      sp, cs, bp, me, gf, tw, dg, mg, fi, nand, ff, prov, fuses⟩ = (me.exported, he.a.cmb, he.b.cmb) := (rfl)

/-- The three stores together are the stores of the state. -/
@[simp] theorem bytes_eta (s : State) : (s.me.exported, s.he.a.cmb, s.he.b.cmb) = s.bytes := (rfl)

/-- The stores of a choice. -/
@[simp] theorem bytes_ite (c : Prop) [Decidable c] (s t : State) : (if c then s else t).bytes = if c then s.bytes else t.bytes :=
  apply_ite ..

/-- Changes one after another, each of which leaves the stores alone. -/
@[simp] theorem bytes_foldl {β : Type} {g : State → β → State} (hg : ∀ t b, (g t b).bytes = t.bytes) (l : List β) (s : State) :
    (l.foldl g s).bytes = s.bytes := by
  induction l generalizing s with
  | nil => rfl
  | cons b l ih => exact (ih _).trans (hg s b)

/-- The same of changes that also gather something. -/
@[simp] theorem bytes_foldl_snd {α β : Type} {g : α × State → β → α × State} (hg : ∀ y b, (g y b).2.bytes = y.2.bytes) (l : List β)
    (x : α × State) : (l.foldl g x).2.bytes = x.2.bytes := by
  induction l generalizing x with
  | nil => rfl
  | cons b l ih => exact (ih _).trans (hg x b)

/-- The same of the changes of one list. -/
theorem bytes_foldl_of_mem {β : Type} {g : State → β → State} {l : List β} (hg : ∀ t, ∀ b ∈ l, (g t b).bytes = t.bytes) (s : State) :
    (l.foldl g s).bytes = s.bytes := by
  induction l generalizing s with
  | nil => rfl
  | cons b l ih => exact (ih (fun t c hc => hg t c (List.mem_cons_of_mem b hc)) _).trans (hg s b List.mem_cons_self)

/-- A change that names neither the memories nor the ports leaves the stores alone. -/
theorem Only.bytes {w : List Fld} {s t : State} (h : Only w s t) (hm : covered w .me = false := by rfl)
    (hh : covered w .he = false := by rfl) : t.bytes = s.bytes := by
  have hme : t.me = s.me := h.keeps .me hm
  have hhe : t.he = s.he := h.keeps .he hh
  rw [State.bytes, State.bytes, hme, hhe]

/-- A change of a port that keeps its memory buffer. -/
@[simp] theorem bytes_updPort {f : HostPort → HostPort} (hf : ∀ h, (f h).cmb = h.cmb) (p : Port) (s : State) :
    (s.updPort p f).bytes = s.bytes := by
  cases p <;> simp [State.updPort, Two.set, Two.get, hf]

/-- R65: a Conventional reset keeps the memory buffer. -/
@[simp] theorem HostPort.conventional_cmb (h : HostPort) : h.conventional.cmb = h.cmb := (rfl)

/-- R79: a function level reset keeps the memory buffer. -/
@[simp] theorem HostPort.flr_cmb (h : HostPort) : h.flr.cmb = h.cmb := (rfl)

/-- A write of a register field, of which the other register writes are made. -/
@[simp] theorem bytes_setF (f : Field) (v : Nat) (s : State) : (setF f v s).bytes = s.bytes := (rfl)

/-! The canonical form of the three stores. -/

/-- Offsets rising, no entry that holds 0. -/
def canonical (b : List (Nat × Byte) × List (Nat × Byte) × List (Nat × Byte)) : Bool := sWf b.1 0 && sWf b.2.1 0 && sWf b.2.2 0

/-- The invariant speaks of the stores alone. -/
theorem wf_eq_canonical (s : State) : Memory.wf s = canonical s.bytes := rfl

/-- Each of the three is in canonical form. -/
theorem canonical_mk {a b c : List (Nat × Byte)} : canonical (a, b, c) = true ↔ sWf a 0 = true ∧ sWf b 0 = true ∧ sWf c 0 = true := by
  simp [canonical, and_assoc]

/-- The canonical form of a choice. -/
@[simp] theorem canonical_ite (c : Prop) [Decidable c] (x y : List (Nat × Byte) × List (Nat × Byte) × List (Nat × Byte)) :
    canonical (if c then x else y) = if c then canonical x else canonical y := apply_ite ..

/-- Changes one after another, each of which keeps the canonical form. -/
theorem canonical_foldl {β : Type} {g : State → β → State} (hg : ∀ t b, canonical t.bytes = true → canonical (g t b).bytes = true)
    (l : List β) {s : State} (h : canonical s.bytes = true) : canonical (l.foldl g s).bytes = true := by
  induction l generalizing s with
  | nil => exact h
  | cons b l ih => exact ih (hg s b h)

/-- A change that keeps the canonical form. -/
def KeepsCanonical (f : State → State) : Prop := ∀ t, canonical t.bytes = true → canonical (f t).bytes = true

/-- Bytes written into a port's memory buffer. -/
theorem canonical_putCmb {p : Port} {f : HostPort → HostPort} {off : Nat} {data : List Byte} {s : State}
    (hf : ∀ h, (f h).cmb = putBytes h.cmb off data) (h : canonical s.bytes = true) : canonical (s.updPort p f).bytes = true := by
  obtain ⟨he, ha, hb⟩ := canonical_mk.mp h
  cases p with
  | a => exact canonical_mk.mpr ⟨he, by simpa [State.updPort, Two.set, Two.get, hf] using sWf_putBytes off data ha, hb⟩
  | b => exact canonical_mk.mpr ⟨he, ha, by simpa [State.updPort, Two.set, Two.get, hf] using sWf_putBytes off data hb⟩

end Sys2Proof.Machine
end

section
/-! SUPPORT. The operations of the shared layers, from outputs to modes
that leave the byte stores alone: one lemma for each, tagged simp, by which the operations made of it follow. An operation whose
frame names neither the ports nor the memories needs no more than its frame. -/
namespace Sys2Proof.Machine
-- Many short theorems elaborated at once would need a thread each.
set_option Elab.async false

/-! The register writes. -/

@[simp] theorem bytes_flagOn (f : Field) (s : State) : (flagOn f s).bytes = s.bytes := (rfl)
@[simp] theorem bytes_flagOff (f : Field) (s : State) : (flagOff f s).bytes = s.bytes := (rfl)
@[simp] theorem bytes_flagIf (c : Bool) (f : Field) (s : State) : (flagIf c f s).bytes = s.bytes := by unfold flagIf; split <;> rfl
@[simp] theorem bytes_bump (f : Field) (s : State) : (bump f s).bytes = s.bytes := (rfl)
@[simp] theorem bytes_setSat (f : Field) (v : Nat) (s : State) : (setSat f v s).bytes = s.bytes := (rfl)
@[simp] theorem bytes_genErr (f : Field) (off : Nat) (w : Writer) (s : State) : (genErr f off w s).bytes = s.bytes := (rfl)

/-! Machine/Ops.lean -/

@[simp] theorem bytes_updCon (p : Port) (f : Ctl → Ctl) (s : State) : (s.updCon p f).bytes = s.bytes := (rfl)
@[simp] theorem bytes_emit (o : Output) (s : State) : (emit o s).bytes = s.bytes := (rfl)
@[simp] theorem bytes_emits (os : List Output) (s : State) : (emits os s).bytes = s.bytes := (emits_only ..).bytes
@[simp] theorem bytes_pcieError (p : Port) (bit : Nat) (advisory : Bool) (s : State) : (pcieError p bit advisory s).bytes = s.bytes := by
  simp [pcieError]
@[simp] theorem bytes_poisonRx (p : Port) (s : State) : (poisonRx p s).bytes = s.bytes := by simp [poisonRx]
@[simp] theorem bytes_urCpl (p : Port) (tag : Nat) (s : State) : (urCpl p tag s).bytes = s.bytes := by simp [urCpl]
@[simp] theorem bytes_caCpl (p : Port) (tag : Nat) (s : State) : (caCpl p tag s).bytes = s.bytes := by simp [caCpl]
@[simp] theorem bytes_readCpl (p : Port) (tag addr : Nat) (data : List Byte) (ep : Bool) (s : State) :
    (readCpl p tag addr data ep s).bytes = s.bytes :=
  (readCpl_only ..).bytes
@[simp] theorem bytes_advance (ns : Nat) (s : State) : (advance ns s).bytes = s.bytes := (advance_only ..).bytes
@[simp] theorem bytes_tickFree (s : State) : (tickFree s).bytes = s.bytes := (tickFree_only ..).bytes
@[simp] theorem bytes_logEvent (code sev src : Nat) (coalesce : Bool) (data : List Nat) (s : State) :
    (logEvent code sev src coalesce data s).bytes = s.bytes :=
  (logEvent_only ..).bytes
@[simp] theorem bytes_msix (p : Port) (v : Nat) (s : State) : (msix p v s).bytes = s.bytes := by simp [msix]
@[simp] theorem bytes_cqInterrupt (p : Port) (q : Cq) (s : State) : (cqInterrupt p q s).bytes = s.bytes := by simp [cqInterrupt]
@[simp] theorem bytes_updClass (k : Nat) (f : ClassCnt → ClassCnt) (s : State) : (updClass k f s).bytes = s.bytes :=
  (updClass_only ..).bytes
@[simp] theorem bytes_countDone (d : Done) (s : State) : (countDone d s).bytes = s.bytes := (countDone_only ..).bytes
@[simp] theorem bytes_countDone? (d : Option Done) (s : State) : (countDone? d s).bytes = s.bytes := (countDone?_only ..).bytes
@[simp] theorem bytes_updCq (p : Port) (q : Nat) (f : Cq → Cq) (s : State) : (updCq p q f s).bytes = s.bytes := (updCq_only ..).bytes
@[simp] theorem bytes_updSq (p : Port) (q : Nat) (f : Sq → Sq) (s : State) : (updSq p q f s).bytes = s.bytes := (updSq_only ..).bytes
@[simp] theorem bytes_postDone (p : Port) (sq : Nat) (cid : BitVec 16) (sct sc dw0 dw1 : Nat) (d : Option Done) (s : State) :
    (postDone p sq cid sct sc dw0 dw1 d s).bytes = s.bytes := by
  unfold postDone; (repeat' split) <;> simp
@[simp] theorem bytes_postCqe (p : Port) (sq : Nat) (cid : BitVec 16) (sct sc dw0 dw1 : Nat) (s : State) :
    (postCqe p sq cid sct sc dw0 dw1 s).bytes = s.bytes := by
  simp [postCqe]
@[simp] theorem bytes_releaseOne (p : Port) (q : Cq) (h : HeldCqe) (s : State) : (releaseOne p q h s).bytes = s.bytes := by
  unfold releaseOne; split <;> simp
@[simp] theorem bytes_releaseHeldCqes (p : Port) (qid n : Nat) (s : State) : (releaseHeldCqes p qid n s).bytes = s.bytes := by
  induction n generalizing s with
  | zero => rfl
  | succ n ih => unfold releaseHeldCqes; (repeat' split) <;> simp [ih]
@[simp] theorem bytes_postEvent (p : Port) (e : AsyncEvent) (s : State) : (postEvent p e s).bytes = s.bytes := by
  simp only [postEvent]; (repeat' split) <;> simp
@[simp] theorem bytes_vendorEvent (info lid : Nat) (s : State) : (vendorEvent info lid s).bytes = s.bytes := by simp [vendorEvent]
@[simp] theorem bytes_evModeChanged (s : State) : (evModeChanged s).bytes = s.bytes := by simp [evModeChanged]
@[simp] theorem bytes_evDeferred (s : State) : (evDeferred s).bytes = s.bytes := by simp [evDeferred]
@[simp] theorem bytes_evLost (s : State) : (evLost s).bytes = s.bytes := by simp [evLost]
@[simp] theorem bytes_evLatency (s : State) : (evLatency s).bytes = s.bytes := by simp [evLatency]
@[simp] theorem bytes_evFabric (s : State) : (evFabric s).bytes = s.bytes := by simp [evFabric]
@[simp] theorem bytes_notice (bit info lid : Nat) (s : State) : (notice bit info lid s).bytes = s.bytes := by simp [notice]
@[simp] theorem bytes_evNsChanged (nsid : Nat) (s : State) : (evNsChanged nsid s).bytes = s.bytes := by simp [evNsChanged]
@[simp] theorem bytes_evAna (s : State) : (evAna s).bytes = s.bytes := by simp [evAna]
@[simp] theorem bytes_setMode (row : Nat) (m : Mode) (s : State) : (setMode row m s).bytes = s.bytes := by simp [setMode]
@[simp] theorem bytes_fiDisarmed (cause : Nat) (s : State) : (fiDisarmed cause s).bytes = s.bytes := (fiDisarmed_only ..).bytes
@[simp] theorem bytes_fiArmed (diag : Bool) (s : State) : (fiArmed diag s).bytes = s.bytes := by simp [fiArmed]
@[simp] theorem bytes_fiRealFault (s : State) : (fiRealFault s).bytes = s.bytes := (fiRealFault_only ..).bytes
@[simp] theorem bytes_enterMode (row : Nat) (m : Mode) (s : State) : (enterMode row m s).bytes = s.bytes := by simp [enterMode]
@[simp] theorem bytes_onFabric {f : State → State} (hf : ∀ t, (f t).bytes = t.bytes) (s : State) : (onFabric f s).bytes = s.bytes := by
  simp [onFabric, hf]

/-! Machine/Bufs.lean -/

@[simp] theorem bytes_updOwner (o : Nat) (f : Owner → Owner) (s : State) : (updOwner o f s).bytes = s.bytes := (updOwner_only ..).bytes
@[simp] theorem bytes_putBuf (i : Nat) (s : State) : (putBuf i s).bytes = s.bytes := (putBuf_only ..).bytes
@[simp] theorem bytes_putBufs (is : List Nat) (s : State) : (putBufs is s).bytes = s.bytes := (putBufs_only ..).bytes
@[simp] theorem bytes_bpErr (index owner cause : Nat) (s : State) : (bpErr index owner cause s).bytes = s.bytes := (bpErr_only ..).bytes
@[simp] theorem bytes_bpAlloc (o n : Nat) (vc0 : Bool) (s : State) : (bpAlloc o n vc0 s).2.bytes = s.bytes := (bpAlloc_only ..).bytes

/-! Machine/Media.lean -/

@[simp] theorem bytes_updCluster (k : Nat) (f : Cluster → Cluster) (s : State) : (updCluster k f s).bytes = s.bytes :=
  (updCluster_only ..).bytes
@[simp] theorem bytes_ctxPut (d : Nat) (op : DieOp) (b page : Nat) (code : CtxCode) (s : State) :
    (ctxPut d op b page code s).bytes = s.bytes :=
  (ctxPut_only ..).bytes
@[simp] theorem bytes_updNs (n : Nat) (f : Ns → Ns) (s : State) : (updNs n f s).bytes = s.bytes := (updNs_only ..).bytes
@[simp] theorem bytes_putEntry (nsid grain : Nat) (e : MapEntry) (s : State) : (putEntry nsid grain e s).bytes = s.bytes :=
  (putEntry_only ..).bytes
@[simp] theorem bytes_jAppend (r : JRec) (s : State) : (jAppend r s).bytes = s.bytes := (jAppend_only ..).bytes
@[simp] theorem bytes_updGroup (g : Nat) (f : Group → Group) (s : State) : (updGroup g f s).bytes = s.bytes := (updGroup_only ..).bytes
@[simp] theorem bytes_updBlk (d b : Nat) (f : Block → Block) (s : State) : (updBlk d b f s).bytes = s.bytes := (updBlk_only ..).bytes
@[simp] theorem bytes_spareIn (resource left : Nat) (s : State) : (spareIn resource left s).bytes = s.bytes := by simp [spareIn]
@[simp] theorem bytes_unitOut (resource unit : Nat) (s : State) : (unitOut resource unit s).bytes = s.bytes := (unitOut_only ..).bytes
@[simp] theorem bytes_recordExhaustSeal (s : State) : (recordExhaustSeal s).bytes = s.bytes := (recordExhaustSeal_only ..).bytes
@[simp] theorem bytes_enterModeEv (row : Nat) (m : Mode) (s : State) : (enterModeEv row m s).bytes = s.bytes := by simp [enterModeEv]
@[simp] theorem bytes_listLost (nsid slba nlb cause csn : Nat) (s : State) : (listLost nsid slba nlb cause csn s).bytes = s.bytes := by
  simp [listLost]
@[simp] theorem bytes_deferFault (nsid cause csnFirst csnLast slba nlb : Nat) (s : State) :
    (deferFault nsid cause csnFirst csnLast slba nlb s).bytes = s.bytes := by
  simp [deferFault]
@[simp] theorem bytes_markLost (nsid grain cause csn : Nat) (s : State) : (markLost nsid grain cause csn s).bytes = s.bytes := by
  simp [markLost]
@[simp] theorem bytes_updStaged (i : Nat) (f : Staged → Staged) (s : State) : (updStaged i f s).bytes = s.bytes := (updStaged_only ..).bytes
@[simp] theorem bytes_releaseStaged (i : Nat) (s : State) : (releaseStaged i s).bytes = s.bytes := (releaseStaged_only ..).bytes
@[simp] theorem bytes_unhold (i : Nat) (s : State) : (unhold i s).bytes = s.bytes := (unhold_only ..).bytes
@[simp] theorem bytes_vatFlush (rs : List Staged) (s : State) : (vatFlush rs s).bytes = s.bytes := (vatFlush_only ..).bytes
@[simp] theorem bytes_mergeStaged (i : Nat) (s : State) : (mergeStaged i s).bytes = s.bytes := by
  unfold mergeStaged; (repeat' split) <;> simp
@[simp] theorem bytes_poisonConsumed (addr : Nat) (s : State) : (poisonConsumed addr s).bytes = s.bytes := by simp [poisonConsumed]
@[simp] theorem bytes_flushStaged (s : State) : (flushStaged s).bytes = s.bytes := by simp [flushStaged]
@[simp] theorem bytes_bookVatOn (pairs : List (Nat × Nat)) (rs : List Staged) (cmds : List Nat) (s : State) :
    (bookVatOn pairs rs cmds s).bytes = s.bytes :=
  (bookVatOn_only ..).bytes
@[simp] theorem bytes_bookVat (rs : List Staged) (cmds : List Nat) (s : State) : (bookVat rs cmds s).bytes = s.bytes :=
  (bookVat_only ..).bytes
@[simp] theorem bytes_segmentPages (seq n : Nat) (s : State) : (segmentPages seq n s).bytes = s.bytes := (segmentPages_only ..).bytes
@[simp] theorem bytes_rewriteSysPages (gone : SysPage → Bool) (s : State) : (rewriteSysPages gone s).bytes = s.bytes :=
  (rewriteSysPages_only ..).bytes
@[simp] theorem bytes_openDurable (rs : List JRec) (s : State) : (openDurable rs s).bytes = s.bytes := (openDurable_only ..).bytes
@[simp] theorem bytes_journalNow (s : State) : (journalNow s).bytes = s.bytes := (journalNow_only ..).bytes
@[simp] theorem bytes_rootDurable (r : Root) (s : State) : (rootDurable r s).bytes = s.bytes := (rootDurable_only ..).bytes
@[simp] theorem bytes_snapDurableNow (n : Snap) (s : State) : (snapDurableNow n s).bytes = s.bytes := (snapDurableNow_only ..).bytes
@[simp] theorem bytes_cleanStop (s : State) : (cleanStop s).bytes = s.bytes := by simp [cleanStop]

/-! Machine/FabricOps.lean -/

@[simp] theorem bytes_updLink (k : Nat) (f : GLink → GLink) (s : State) : (updLink k f s).bytes = s.bytes := (updLink_only ..).bytes
@[simp] theorem bytes_updTxStream (vc dst : Nat) (f : TxStream → TxStream) (s : State) : (updTxStream vc dst f s).bytes = s.bytes :=
  (updTxStream_only ..).bytes
@[simp] theorem bytes_winLog (p : Port) (cause offset rid : Nat) (s : State) : (winLog p cause offset rid s).bytes = s.bytes :=
  (winLog_only ..).bytes
@[simp] theorem bytes_windowFail (ftype dst cause : Nat) (info : List Nat) (s : State) :
    (windowFail ftype dst cause info s).bytes = s.bytes := by
  unfold windowFail; split <;> simp
@[simp] theorem bytes_frameFailed (fr : TxFrame) (s : State) : (frameFailed fr s).bytes = s.bytes := by simp [frameFailed]
@[simp] theorem bytes_drainLink (k : Nat) (s : State) : (drainLink k s).bytes = s.bytes := (drainLink_only ..).bytes
@[simp] theorem bytes_sendFlits (k vc n : Nat) (s : State) : (sendFlits k vc n s).bytes = s.bytes := (sendFlits_only ..).bytes
@[simp] theorem bytes_frameOut (vc dst ftype x k : Nat) (s : State) : (frameOut vc dst ftype x k s).bytes = s.bytes :=
  (frameOut_only ..).bytes
@[simp] theorem bytes_sendVia (via : Option Nat) (vc dst ftype tag : Nat) (info : List Nat) (s : State) :
    (sendVia via vc dst ftype tag info s).bytes = s.bytes := by
  unfold sendVia; split <;> simp
@[simp] theorem bytes_rawSend (vc dst ftype tag : Nat) (info : List Nat) (s : State) :
    (rawSend vc dst ftype tag info s).bytes = s.bytes := by
  simp [rawSend]
@[simp] theorem bytes_payResync (vc dst : Nat) (s : State) : (payResync vc dst s).bytes = s.bytes := by simp [payResync]
@[simp] theorem bytes_sendFrame (vc dst ftype tag : Nat) (info : List Nat) (s : State) :
    (sendFrame vc dst ftype tag info s).bytes = s.bytes := by
  simp [sendFrame]
@[simp] theorem bytes_sendCtrl (dst msg : Nat) (fields : List Nat) (s : State) : (sendCtrl dst msg fields s).bytes = s.bytes := by
  simp [sendCtrl]
@[simp] theorem bytes_mirror (kind : Nat) (fields : List Nat) (s : State) : (mirror kind fields s).bytes = s.bytes := by
  unfold mirror; split <;> simp
@[simp] theorem bytes_resendFrame (fr : TxFrame) (s : State) : (resendFrame fr s).bytes = s.bytes := by
  unfold resendFrame; (repeat' split) <;> simp
@[simp] theorem bytes_sendLsr (s : State) : (sendLsr s).bytes = s.bytes := by simp [sendLsr]
@[simp] theorem bytes_failRoutes (s : State) : (failRoutes s).bytes = s.bytes := by simp [failRoutes]
@[simp] theorem bytes_linkDown (k : Nat) (s : State) : (linkDown k s).bytes = s.bytes := by simp [linkDown]
@[simp] theorem bytes_allLinksDown (s : State) : (allLinksDown s).bytes = s.bytes := by simp [allLinksDown]
@[simp] theorem bytes_sendTables (num at_ dst : Nat) (s : State) : (sendTables num at_ dst s).bytes = s.bytes := by simp [sendTables]
@[simp] theorem bytes_distribute (s : State) : (distribute s).bytes = s.bytes := by simp only [distribute]; (repeat' split) <;> simp
@[simp] theorem bytes_topologyChanged (s : State) : (topologyChanged s).bytes = s.bytes := by simp [topologyChanged]
@[simp] theorem bytes_ps4Links (s : State) : (ps4Links s).bytes = s.bytes := by simp [ps4Links]

/-! Machine/MemOps.lean -/

@[simp] theorem bytes_mergeDone (line : Nat) (s : State) : (mergeDone line s).bytes = s.bytes := by simp [mergeDone]
@[simp] theorem bytes_mergesDone (ls : List Nat) (s : State) : (mergesDone ls s).bytes = s.bytes := by simp [mergesDone]
@[simp] theorem bytes_mergeIn (port line mask : Nat) (ep : Bool) (s : State) : (mergeIn port line mask ep s).bytes = s.bytes := by
  simp only [mergeIn]; (repeat' split) <;> simp
@[simp] theorem bytes_lineWrite (port key line mask : Nat) (ep : Bool) (pl : List Nat) (s : State) :
    (lineWrite port key line mask ep pl s).2.bytes = s.bytes := by
  unfold lineWrite; split <;> simp
@[simp] theorem bytes_linesWrite (port : Nat) (key : Nat → Nat) (off n : Nat) (ep : Nat → Bool) (pl : List Nat) (s : State) :
    (linesWrite port key off n ep pl s).2.bytes = s.bytes := bytes_foldl_snd (fun _ _ => bytes_lineWrite ..) _ _
@[simp] theorem bytes_expReadPrep (off n : Nat) (s : State) : (expReadPrep off n s).bytes = s.bytes := by simp [expReadPrep]

/-! Machine/WinOps.lean -/

@[simp] theorem bytes_localRead (p : Port) (t : HeldTlp) (s : State) : (localRead p t s).bytes = s.bytes := by simp [localRead]

/-! Machine/ResetOps.lean -/

@[simp] theorem bytes_closeFixity (dead : Nat → Bool) (s : State) : (closeFixity dead s).bytes = s.bytes := (closeFixity_only ..).bytes
@[simp] theorem bytes_killCmds (dead : IoCmd → Bool) (s : State) : (killCmds dead s).bytes = s.bytes := (killCmds_only ..).bytes
@[simp] theorem bytes_clearQe (p : Port) (s : State) : (clearQe p s).bytes = s.bytes := (clearQe_only ..).bytes
@[simp] theorem bytes_loadLocked (lo hi : Nat) (s : State) : (loadLocked lo hi s).bytes = s.bytes := (loadLocked_only ..).bytes
@[simp] theorem bytes_conventional (s : State) : (conventional s).bytes = s.bytes := by simp [conventional]
@[simp] theorem bytes_conventionalPort (p : Port) (s : State) : (conventionalPort p s).bytes = s.bytes := by
  rw [conventionalPort, bytes_updPort HostPort.conventional_cmb, bytes_clearQe]
@[simp] theorem bytes_updCtx (i : Nat) (f : Ctx → Ctx) (s : State) : (updCtx i f s).bytes = s.bytes := (updCtx_only ..).bytes
@[simp] theorem bytes_dgFill (n : Nat) (s : State) : (dgFill n s).bytes = s.bytes := (dgFill_only n s).bytes
@[simp] theorem bytes_dgFail (ids : List Nat) (cause : Nat) (s : State) : (dgFail ids cause s).bytes = s.bytes := (dgFail_only ..).bytes
@[simp] theorem bytes_abandonCopies (s : State) : (abandonCopies s).bytes = s.bytes := (abandonCopies_only ..).bytes
@[simp] theorem bytes_enterQuarantine (row : Nat) (s : State) : (enterQuarantine row s).bytes = s.bytes := by simp [enterQuarantine]
@[simp] theorem bytes_quarantineNow (s : State) : (quarantineNow s).bytes = s.bytes := by unfold quarantineNow; split <;> simp
@[simp] theorem bytes_fatalFault (s : State) : (fatalFault s).bytes = s.bytes := by unfold fatalFault; split <;> simp
@[simp] theorem bytes_applySparing (s : State) : (applySparing s).bytes = s.bytes := (applySparing_only ..).bytes
@[simp] theorem bytes_rowOne (s : State) : (rowOne s).bytes = s.bytes := by simp [rowOne]
@[simp] theorem bytes_abandonFf (s : State) : (abandonFf s).bytes = s.bytes := (abandonFf_only ..).bytes
@[simp] theorem bytes_managementReset (f : Field) (s : State) : (managementReset f s).bytes = s.bytes := by
  unfold managementReset; split <;> simp

/-! Machine/LogOps.lean -/

@[simp] theorem bytes_timeStep (ns : Nat) (s : State) : (timeStep ns s).bytes = s.bytes := (timeStep_only ..).bytes
@[simp] theorem bytes_correctBehind (behind : Nat) (s : State) : (correctBehind behind s).bytes = s.bytes := (correctBehind_only ..).bytes
@[simp] theorem bytes_askRepair (nsid grain csn : Nat) (s : State) : (askRepair nsid grain csn s).bytes = s.bytes := by
  unfold askRepair; (repeat' split) <;> simp
@[simp] theorem bytes_askDue (s : State) : (askDue s).bytes = s.bytes := by unfold askDue; split <;> simp
@[simp] theorem bytes_withdrawPoisoned (r : Staged) (s : State) : (withdrawPoisoned r s).bytes = s.bytes := by simp [withdrawPoisoned]
@[simp] theorem bytes_withdrawSel (f : Staged → Bool) (s : State) : (withdrawSel f s).bytes = s.bytes := by simp [withdrawSel]
@[simp] theorem bytes_readyForVat (f : Staged → Bool) (s : State) : (readyForVat f s).bytes = s.bytes := by simp [readyForVat]
@[simp] theorem bytes_writeThroughEnter (s : State) : (writeThroughEnter s).bytes = s.bytes := by simp [writeThroughEnter]
@[simp] theorem bytes_writeThroughExit (s : State) : (writeThroughExit s).bytes = s.bytes := by simp [writeThroughExit]
@[simp] theorem bytes_completeMerges (s : State) : (completeMerges s).bytes = s.bytes := by simp [completeMerges]
@[simp] theorem bytes_enterDrain (s : State) : (enterDrain s).bytes = s.bytes := by unfold enterDrain; split <;> simp

/-! Machine/NsCore.lean -/

@[simp] theorem bytes_saveNs (nsid : Nat) (s : State) : (saveNs nsid s).bytes = s.bytes := (saveNs_only ..).bytes
@[simp] theorem bytes_setNs (nsid : Nat) (f : Ns → Ns) (s : State) : (setNs nsid f s).bytes = s.bytes := (setNs_only ..).bytes
@[simp] theorem bytes_dropKey (nsid : Nat) (s : State) : (dropKey nsid s).bytes = s.bytes := (dropKey_only ..).bytes
@[simp] theorem bytes_putKey (nsid copies : Nat) (s : State) : (putKey nsid copies s).bytes = s.bytes := (putKey_only ..).bytes
@[simp] theorem bytes_clearGrains (nsid : Nat) (s : State) : (clearGrains nsid s).bytes = s.bytes := (clearGrains_only ..).bytes
@[simp] theorem bytes_deleteNs (nsid : Nat) (s : State) : (deleteNs nsid s).bytes = s.bytes := (deleteNs_only ..).bytes
@[simp] theorem bytes_unsealNsNow (nsid : Nat) (s : State) : (unsealNsNow nsid s).bytes = s.bytes := (unsealNsNow_only ..).bytes
@[simp] theorem bytes_updTw (f : Tw → Tw) (s : State) : (updTw f s).bytes = s.bytes := (updTw_only ..).bytes
@[simp] theorem bytes_updMig (f : Mig → Mig) (s : State) : (updMig f s).bytes = s.bytes := (updMig_only ..).bytes
@[simp] theorem bytes_rowThirteen (s : State) : (rowThirteen s).bytes = s.bytes := by simp [rowThirteen]
@[simp] theorem bytes_coverCsn (csn : Nat) (s : State) : (coverCsn csn s).bytes = s.bytes := (coverCsn_only ..).bytes
@[simp] theorem bytes_raiseCsn (csn : Nat) (s : State) : (raiseCsn csn s).bytes = s.bytes := (raiseCsn_only ..).bytes
@[simp] theorem bytes_liftSeals (s : State) : (liftSeals s).bytes = s.bytes := (liftSeals_only ..).bytes
@[simp] theorem bytes_deleteIngested (s : State) : (deleteIngested s).bytes = s.bytes := (deleteIngested_only ..).bytes
@[simp] theorem bytes_dropTransport (s : State) : (dropTransport s).bytes = s.bytes := (dropTransport_only ..).bytes
@[simp] theorem bytes_raiseToOrigins (s : State) : (raiseToOrigins s).bytes = s.bytes := (raiseToOrigins_only ..).bytes
@[simp] theorem bytes_abortSession (s : State) : (abortSession s).bytes = s.bytes := by simp [abortSession]
@[simp] theorem bytes_spareExhausted (resource : Nat) (s : State) : (spareExhausted resource s).bytes = s.bytes := by
  simp only [spareExhausted]; (repeat' split) <;> simp

/-! Machine/SpOps.lean -/

@[simp] theorem bytes_finishRacking (s : State) : (finishRacking s).bytes = s.bytes := (finishRacking_only ..).bytes
@[simp] theorem bytes_unqueueRows (rows : List Row) (s : State) : (unqueueRows rows s).bytes = s.bytes := (unqueueRows_only ..).bytes
@[simp] theorem bytes_closeShort (num : Nat) (s : State) : (closeShort num s).bytes = s.bytes := (closeShort_only ..).bytes
@[simp] theorem bytes_stopGroup (g : Nat) (s : State) : (stopGroup g s).bytes = s.bytes := (stopGroup_only ..).bytes
@[simp] theorem bytes_loseStored (nsid grain cause : Nat) (s : State) : (loseStored nsid grain cause s).bytes = s.bytes := by
  simp [loseStored]
@[simp] theorem bytes_threeMissing (grains : List (Nat × Nat)) (s : State) : (threeMissing grains s).bytes = s.bytes := by
  simp [threeMissing]
@[simp] theorem bytes_assignSpare (g : Group) (pos : Nat) (s : State) : (assignSpare g pos s).bytes = s.bytes := by
  unfold assignSpare; split <;> simp
@[simp] theorem bytes_assignSpares (s : State) : (assignSpares s).bytes = s.bytes := by
  unfold assignSpares; refine bytes_foldl (fun t g => ?_) _ _; (repeat' split) <;> simp
@[simp] theorem bytes_checkWaiting (s : State) : (checkWaiting s).bytes = s.bytes := by simp [checkWaiting]
@[simp] theorem bytes_loseGroup (g : Group) (s : State) : (loseGroup g s).bytes = s.bytes := by simp [loseGroup]
@[simp] theorem bytes_vatCopiesGone (g : Group) (pos : Nat) (s : State) : (vatCopiesGone g pos s).bytes = s.bytes :=
  (vatCopiesGone_only ..).bytes
@[simp] theorem bytes_memberMissing (g : Group) (pos : Nat) (s : State) : (memberMissing g pos s).bytes = s.bytes := by
  simp only [memberMissing]; (repeat' split) <;> simp
@[simp] theorem bytes_dieOut (d : Nat) (s : State) : (dieOut d s).bytes = s.bytes := by simp only [dieOut]; (repeat' split) <;> simp
@[simp] theorem bytes_chanOut (c : Nat) (s : State) : (chanOut c s).bytes = s.bytes := by simp [chanOut]
@[simp] theorem bytes_declareDieFailed (d : Nat) (s : State) : (declareDieFailed d s).bytes = s.bytes := by simp [declareDieFailed]
@[simp] theorem bytes_declareChannelFailed (c : Nat) (s : State) : (declareChannelFailed c s).bytes = s.bytes := by
  simp [declareChannelFailed]
@[simp] theorem bytes_replaceBlock (d b : Nat) (s : State) : (replaceBlock d b s).bytes = s.bytes := (replaceBlock_only ..).bytes
@[simp] theorem bytes_retireBlock (d b cause : Nat) (s : State) : (retireBlock d b cause s).bytes = s.bytes := by simp [retireBlock]
@[simp] theorem bytes_wantRefresh (d b : Nat) (s : State) : (wantRefresh d b s).bytes = s.bytes := (wantRefresh_only ..).bytes
@[simp] theorem bytes_countRead (d b : Nat) (slc : Bool) (s : State) : (countRead d b slc s).bytes = s.bytes := (countRead_only ..).bytes
@[simp] theorem bytes_countEntries (es : List MapEntry) (s : State) : (countEntries es s).bytes = s.bytes := (countEntries_only ..).bytes
@[simp] theorem bytes_resumeErases (s : State) : (resumeErases s).bytes = s.bytes := (resumeErases_only ..).bytes

/-! Machine/Startup.lean -/

@[simp] theorem bytes_floodHello (s : State) : (floodHello s).bytes = s.bytes := (floodHello_only ..).bytes
@[simp] theorem bytes_startDiscovery (s : State) : (startDiscovery s).bytes = s.bytes := (startDiscovery_only ..).bytes
@[simp] theorem bytes_dramTrainingEff (sizeGiB : Nat) (trained : BitVec 8) (hpprFails : List Nat) (s : State) :
    (dramTrainingEff sizeGiB trained hpprFails s).bytes = s.bytes := by
  simp [dramTrainingEff]
@[simp] theorem bytes_toSdr (d : Nat) (s : State) : (toSdr d s).bytes = s.bytes := (toSdr_only ..).bytes
@[simp] theorem bytes_toService (d : Nat) (s : State) : (toService d s).bytes = s.bytes := (toService_only ..).bytes
@[simp] theorem bytes_trainIface (ds : List Nat) (failed : Option TrainStep) (s : State) : (trainIface ds failed s).bytes = s.bytes := by
  unfold trainIface; split <;> simp
@[simp] theorem bytes_channelTrainingEff (channel : Fin 64) (failedTwice : Option TrainStep) (dies : List DieFound) (s : State) :
    (channelTrainingEff channel failedTwice dies s).bytes = s.bytes := by
  unfold channelTrainingEff; (repeat' split) <;> simp
@[simp] theorem bytes_loseAcked (nsid grain csn : Nat) (s : State) : (loseAcked nsid grain csn s).bytes = s.bytes := by simp [loseAcked]
@[simp] theorem bytes_mapRecoveryEff (unreadableSegs : List Nat) (unreadable : List (Nat × Nat)) (replayMs scanMs : Nat) (s : State) :
    (mapRecoveryEff unreadableSegs unreadable replayMs scanMs s).bytes = s.bytes := by
  simp [mapRecoveryEff]
@[simp] theorem bytes_wipeBlock (d b : Nat) (s : State) : (wipeBlock d b s).bytes = s.bytes := (wipeBlock_only ..).bytes
@[simp] theorem bytes_halfErasedBlockRedoEff (die block : Nat) (blankPass1 blankPass2 : Bool) (s : State) :
    (halfErasedBlockRedoEff die block blankPass1 blankPass2 s).bytes = s.bytes := by
  simp [halfErasedBlockRedoEff]
@[simp] theorem bytes_copyToVat (nsid grain : Nat) (c : Copy) (s : State) : (copyToVat nsid grain c s).bytes = s.bytes :=
  (copyToVat_only ..).bytes
@[simp] theorem bytes_settleStripe (unreadable : List (Nat × Nat)) (o : OpenStripe) (s : State) :
    (settleStripe unreadable o s).bytes = s.bytes := by
  unfold settleStripe
  (repeat' split) <;> try simp
  exact (bytes_foldl (fun t e => by (repeat' split) <;> simp) _ _).trans (bytes_flagOn ..)
@[simp] theorem bytes_openStripeCompletionEff (unreadable : List (Nat × Nat)) (s : State) :
    (openStripeCompletionEff unreadable s).bytes = s.bytes := by
  simp [openStripeCompletionEff]
@[simp] theorem bytes_startNsKey (n : Ns) (s : State) : (startNsKey n s).bytes = s.bytes := (startNsKey_only ..).bytes
@[simp] theorem bytes_startMigration (s : State) : (startMigration s).bytes = s.bytes := by simp [startMigration]
@[simp] theorem bytes_raiseArb (s : State) : (raiseArb s).bytes = s.bytes := (raiseArb_only ..).bytes
@[simp] theorem bytes_startServe (s : State) : (startServe s).bytes = s.bytes := by simp [startServe]
@[simp] theorem bytes_startToken (s : State) : (startToken s).bytes = s.bytes := (startToken_only ..).bytes
@[simp] theorem bytes_startDrainLost (s : State) : (startDrainLost s).bytes = s.bytes := (startDrainLost_only ..).bytes
@[simp] theorem bytes_startupCompleteEff (durationMs : Nat) (s : State) : (startupCompleteEff durationMs s).bytes = s.bytes := by
  simp [startupCompleteEff]

/-! Machine/MmOps.lean -/

@[simp] theorem bytes_updOpen (num : Nat) (f : OpenBarrel → OpenBarrel) (s : State) : (updOpen num f s).bytes = s.bytes :=
  (updOpen_only ..).bytes
@[simp] theorem bytes_updRow (num w : Nat) (f : Row → Row) (s : State) : (updRow num w f s).bytes = s.bytes := (updRow_only ..).bytes
@[simp] theorem bytes_addRow (num : Nat) (r : Row) (s : State) : (addRow num r s).bytes = s.bytes := (addRow_only ..).bytes
@[simp] theorem bytes_startCopies (key : Nat) (unreadable : List (Nat × Nat)) (ps : List Placed) (s : State) :
    (startCopies key unreadable ps s).bytes = s.bytes := by
  simp [startCopies]
@[simp] theorem bytes_refreshBefore (d b w : Nat) (s : State) : (refreshBefore d b w s).bytes = s.bytes := by simp [refreshBefore]
@[simp] theorem bytes_memberFailed (b : OpenBarrel) (g : Group) (w m : Nat) (s : State) : (memberFailed b g w m s).bytes = s.bytes := by
  simp [memberFailed]
@[simp] theorem bytes_afterProgram (num : Nat) (s : State) : (afterProgram num s).bytes = s.bytes := (afterProgram_only ..).bytes
@[simp] theorem bytes_memberPassed (x : OpenBarrel) (r : Row) (m : Nat) (s : State) : (memberPassed x r m s).bytes = s.bytes :=
  (memberPassed_only ..).bytes
@[simp] theorem bytes_refuseProgram (d b target why : Nat) (s : State) : (refuseProgram d b target why s).bytes = s.bytes :=
  (refuseProgram_only ..).bytes
@[simp] theorem bytes_eraseNow (x : Nat × Nat) (s : State) : (eraseNow x s).bytes = s.bytes := (eraseNow_only ..).bytes
@[simp] theorem bytes_freeErased (s : State) : (freeErased s).bytes = s.bytes := (freeErased_only ..).bytes
@[simp] theorem bytes_rackBarrel (num : Nat) (unreadable : List (Nat × Nat)) (s : State) :
    (rackBarrel num unreadable s).bytes = s.bytes := by
  simp [rackBarrel]
@[simp] theorem bytes_eraseNamespaces (gone : Nat → Bool) (s : State) : (eraseNamespaces gone s).bytes = s.bytes :=
  (eraseNamespaces_only ..).bytes

/-! Machine/Drain.lean -/

@[simp] theorem bytes_drainPrograms (s : State) : (drainPrograms s).bytes = s.bytes := (drainPrograms_only ..).bytes
@[simp] theorem bytes_drainVat (s : State) : (drainVat s).bytes = s.bytes := by simp [drainVat]
@[simp] theorem bytes_drainTail (s : State) : (drainTail s).bytes = s.bytes := (drainTail_only ..).bytes
@[simp] theorem bytes_drainRecord (s : State) : (drainRecord s).bytes = s.bytes := (drainRecord_only ..).bytes
@[simp] theorem bytes_drainSteps (n : Nat) (s : State) : (drainSteps n s).bytes = s.bytes := by
  refine bytes_foldl_of_mem (fun t f hf => ?_) s
  have hf := List.mem_of_mem_take hf
  simp only [List.mem_cons, List.not_mem_nil, or_false] at hf
  rcases hf with rfl | rfl | rfl | rfl <;> simp
@[simp] theorem bytes_drainFlush (s : State) : (drainFlush s).bytes = s.bytes := by simp [drainFlush]

/-! Machine/Power.lean -/

@[simp] theorem bytes_porNDeassertEff (bifur : Bool) (pwrHighUs : Nat) (s : State) :
    (porNDeassertEff bifur pwrHighUs s).bytes = s.bytes := by
  simp [porNDeassertEff]
@[simp] theorem bytes_pwrFailNDeassertEff (highUs : Nat) (s : State) : (pwrFailNDeassertEff highUs s).bytes = s.bytes := by
  simp [pwrFailNDeassertEff]
@[simp] theorem bytes_twinFenceInAssertEff (s : State) : (twinFenceInAssertEff s).bytes = s.bytes := by simp [twinFenceInAssertEff]
@[simp] theorem bytes_huGoodDeassertEff (s : State) : (huGoodDeassertEff s).bytes = s.bytes := by simp [huGoodDeassertEff]
@[simp] theorem bytes_huSenseBelowVLowEff (mv : Nat) (s : State) : (huSenseBelowVLowEff mv s).bytes = s.bytes := by
  simp [huSenseBelowVLowEff]
@[simp] theorem bytes_holdupVerificationEndEff (dvTenthMv : Nat) (s : State) : (holdupVerificationEndEff dvTenthMv s).bytes = s.bytes := by
  unfold holdupVerificationEndEff; split <;> simp
@[simp] theorem bytes_portDown (p : Port) (s : State) : (portDown p s).bytes = s.bytes := by simp [portDown]
@[simp] theorem bytes_heRefclkLossEff (s : State) : (heRefclkLossEff s).bytes = s.bytes := by simp [heRefclkLossEff]
@[simp] theorem bytes_dramChannelTrainingLossEff (channel : Fin 8) (s : State) :
    (dramChannelTrainingLossEff channel s).bytes = s.bytes := by
  simp [dramChannelTrainingLossEff]

/-! Machine/Resets.lean -/

@[simp] theorem bytes_genResetManagementEff (who : Writer) (key : BitVec 16) (s : State) :
    (genResetManagementEff who key s).bytes = s.bytes := by
  simp [genResetManagementEff]
@[simp] theorem bytes_conventionalResetEff (s : State) : (conventionalResetEff s).bytes = s.bytes := by simp [conventionalResetEff]
@[simp] theorem bytes_functionLevelResetEff (port : Port) (s : State) : (functionLevelResetEff port s).bytes = s.bytes := by
  simp [functionLevelResetEff, bytes_updPort HostPort.flr_cmb]
@[simp] theorem bytes_ccEnSetEff (port : Port) (iosqes iocqes mps ams css asqs acqs asq acq : Nat) (s : State) :
    (ccEnSetEff port iosqes iocqes mps ams css asqs acqs asq acq s).bytes = s.bytes := by
  simp [ccEnSetEff]
@[simp] theorem bytes_shutdownNotificationEff (port : Port) (shn : BitVec 2) (s : State) :
    (shutdownNotificationEff port shn s).bytes = s.bytes := by
  simp [shutdownNotificationEff]

/-! Machine/Modes.lean -/

@[simp] theorem bytes_modereqRefused (who : Writer) (s : State) : (modereqRefused who s).bytes = s.bytes := (modereqRefused_only ..).bytes
@[simp] theorem bytes_twoStep {grant : State → State} (hg : ∀ t, (grant t).bytes = t.bytes) (who : Writer) (key : BitVec 16) (target : Mode)
    (allowed : Bool) (s : State) : (twoStep who key target allowed grant s).bytes = s.bytes := by
  simp [twoStep, hg]
@[simp] theorem bytes_diagnosticEntryEff (s : State) : (diagnosticEntryEff s).bytes = s.bytes := by simp [diagnosticEntryEff]
@[simp] theorem bytes_oneStep {grant : State → State} (hg : ∀ t, (grant t).bytes = t.bytes) (who : Writer) (key : BitVec 16)
    (allowed : Bool) (s : State) : (oneStep who key allowed grant s).bytes = s.bytes := by
  simp [oneStep, hg]
@[simp] theorem bytes_provision (s : State) : (provision s).bytes = s.bytes := (provision_only ..).bytes
@[simp] theorem bytes_provisioningCommitEff (who : Writer) (s : State) : (provisioningCommitEff who s).bytes = s.bytes := by
  simp [provisioningCommitEff]
@[simp] theorem bytes_genOwnerClaimEff (who : Writer) (s : State) : (genOwnerClaimEff who s).bytes = s.bytes :=
  (genOwnerClaimEff_only ..).bytes
@[simp] theorem bytes_genOwnerReleaseEff (who : Writer) (s : State) : (genOwnerReleaseEff who s).bytes = s.bytes :=
  (genOwnerReleaseEff_only ..).bytes
@[simp] theorem bytes_genOwnerSeizeEff (who : Writer) (s : State) : (genOwnerSeizeEff who s).bytes = s.bytes := by
  unfold genOwnerSeizeEff; split <;> simp
@[simp] theorem bytes_genOwnerSeizedClearEff (who : Writer) (s : State) : (genOwnerSeizedClearEff who s).bytes = s.bytes :=
  (genOwnerSeizedClearEff_only ..).bytes

end Sys2Proof.Machine
end

section
/-! SUPPORT. The operations of the host ports, the queues and the commands
that leave the byte stores alone: one lemma for each, tagged simp, by which the operations made of it follow. An operation whose
frame names neither the ports nor the memories needs no more than its frame. -/
namespace Sys2Proof.Machine
-- Many short theorems elaborated at once would need a thread each.
set_option Elab.async false

/-! Machine/Setup.lean -/

@[simp] theorem bytes_writeFields (who : Writer) (off value : Nat) (s : State) : (writeFields who off value s).bytes = s.bytes :=
  (writeFields_only ..).bytes
@[simp] theorem bytes_writeStaging (p : Port) (i reg value : Nat) (s : State) : (writeStaging p i reg value s).bytes = s.bytes := by
  simp [writeStaging]
@[simp] theorem bytes_writeMsix (p : Port) (i value : Nat) (s : State) : (writeMsix p i value s).bytes = s.bytes := by simp [writeMsix]
@[simp] theorem bytes_writeReg (who : Writer) (off value : Nat) (s : State) : (writeReg who off value s).bytes = s.bytes := by
  unfold writeReg; (repeat' split) <;> simp
@[simp] theorem bytes_commitHorizon (s : State) : (commitHorizon s).bytes = s.bytes := (commitHorizon_only ..).bytes
@[simp] theorem bytes_bar0BadAccessEff (port : Port) (isRead : Bool) (offset len : Nat) (s : State) :
    (bar0BadAccessEff port isRead offset len s).bytes = s.bytes := by
  simp [bar0BadAccessEff]
@[simp] theorem bytes_configRetry (port : Port) (s : State) : (configRetry port s).bytes = s.bytes := (configRetry_only ..).bytes
@[simp] theorem bytes_configDone (port : Port) (s : State) : (configDone port s).bytes = s.bytes := (configDone_only ..).bytes
@[simp] theorem bytes_configBarWriteEff (port : Port) (dword : Fin 6) (value : Word) (s : State) :
    (configBarWriteEff port dword value s).bytes = s.bytes := by
  simp [configBarWriteEff]

/-! Machine/HostPort.lean -/

@[simp] theorem bytes_cmbMmioReadEff (port : Port) (offset len : Nat) (tag : Nat) (s : State) :
    (cmbMmioReadEff port offset len tag s).bytes = s.bytes := by
  simp [cmbMmioReadEff]
@[simp] theorem bytes_cmbmscWriteEff (port : Port) (cmse : Bool) (cba : Nat) (s : State) :
    (cmbmscWriteEff port cmse cba s).bytes = s.bytes := by
  simp [cmbmscWriteEff]
@[simp] theorem bytes_winCommit (p : Port) (copy : Bool) (s : State) : (winCommit p copy s).bytes = s.bytes := by
  unfold winCommit; (repeat' split) <;> simp
@[simp] theorem bytes_wincommitEff (p : Port) (who : Writer) (copy : Bool) (s : State) : (wincommitEff p who copy s).bytes = s.bytes := by
  simp [wincommitEff]
@[simp] theorem bytes_winlogClrEff (who : Writer) (s : State) : (winlogClrEff who s).bytes = s.bytes := (winlogClrEff_only ..).bytes
@[simp] theorem bytes_linkTrainedEff (port : Port) (rate width : Nat) (flit : Bool) (s : State) :
    (linkTrainedEff port rate width flit s).bytes = s.bytes := by
  simp [linkTrainedEff]
@[simp] theorem bytes_extend (id cause ns : Nat) (s : State) : (extend id cause ns s).bytes = s.bytes := (extend_only ..).bytes
@[simp] theorem bytes_extendHeld (p : Port) (cause ns : Nat) (s : State) : (extendHeld p cause ns s).bytes = s.bytes :=
  (extendHeld_only ..).bytes
@[simp] theorem bytes_extendPort (p : Port) (cause ns : Nat) (s : State) : (extendPort p cause ns s).bytes = s.bytes := by simp [extendPort]
@[simp] theorem bytes_linkRecoveryEntryEff (port : Port) (s : State) : (linkRecoveryEntryEff port s).bytes = s.bytes := by
  simp [linkRecoveryEntryEff]
@[simp] theorem bytes_linkRecoveryExitEff (port : Port) (durationUs : Nat) (s : State) :
    (linkRecoveryExitEff port durationUs s).bytes = s.bytes := by
  simp [linkRecoveryExitEff]
@[simp] theorem bytes_l0pWidthChangeEff (port : Port) (width durationNs : Nat) (s : State) :
    (l0pWidthChangeEff port width durationNs s).bytes = s.bytes := by
  simp [l0pWidthChangeEff]
@[simp] theorem bytes_msixUnmask (p : Port) (s : State) : (msixUnmask p s).bytes = s.bytes := by simp only [msixUnmask]; split <;> simp
@[simp] theorem bytes_updAer (p : Port) (f : Aer → Aer) (s : State) : (updAer p f s).bytes = s.bytes := by simp [updAer]
@[simp] theorem bytes_configStore (port : Port) (reg v : Nat) (s : State) : (configStore port reg v s).bytes = s.bytes := by
  unfold configStore; split <;> simp
@[simp] theorem bytes_configRegisterWriteEff (port : Port) (reg : Nat) (value : Word) (s : State) :
    (configRegisterWriteEff port reg value s).bytes = s.bytes := by
  simp [configRegisterWriteEff]
@[simp] theorem bytes_doeTake (port : Port) (objType : Nat) (dwords : List Word) (s : State) :
    (doeTake port objType dwords s).bytes = s.bytes := by
  unfold doeTake; split <;> simp
@[simp] theorem bytes_doeRequestEff (port : Port) (vendor objType : Nat) (dwords : List Word) (s : State) :
    (doeRequestEff port vendor objType dwords s).bytes = s.bytes := by
  simp [doeRequestEff]
@[simp] theorem bytes_doeResume (port : Port) (s : State) : (doeResume port s).bytes = s.bytes := by
  simp only [doeResume]; (repeat' split) <;> simp

/-! Machine/Queues.lean -/

@[simp] theorem bytes_issueFetch (p : Port) (use : ReadUse) (retries : Nat) (s : State) : (issueFetch p use retries s).bytes = s.bytes := by
  simp [issueFetch]
@[simp] theorem bytes_wake (s : State) : (wake s).bytes = s.bytes := by simp [wake]
@[simp] theorem bytes_wakeDoorbell (s : State) : (wakeDoorbell s).bytes = s.bytes := by unfold wakeDoorbell; split <;> simp
@[simp] theorem bytes_eventIdxPolled (p : Port) (s : State) : (eventIdxPolled p s).bytes = s.bytes := (eventIdxPolled_only ..).bytes
@[simp] theorem bytes_eventIdxNew (p : Port) (s : State) : (eventIdxNew p s).bytes = s.bytes := (eventIdxNew_only ..).bytes
@[simp] theorem bytes_resumePolling (p : Port) (s : State) : (resumePolling p s).bytes = s.bytes := (resumePolling_only ..).bytes
@[simp] theorem bytes_logErr (p : Port) (sqid cid sct sc loc lba nsid : Nat) (s : State) :
    (logErr p sqid cid sct sc loc lba nsid s).bytes = s.bytes :=
  (logErr_only ..).bytes
@[simp] theorem bytes_badDoorbell (p : Port) (qid : Nat) (noQueue : Bool) (s : State) : (badDoorbell p qid noQueue s).bytes = s.bytes := by
  simp [badDoorbell]
@[simp] theorem bytes_doorbellIn (p : Port) (poisoned : Bool) (s : State) : (doorbellIn p poisoned s).bytes = s.bytes := by
  simp [doorbellIn]
@[simp] theorem bytes_sqTailDoorbellEff (port : Port) (qid value : Nat) (poisoned : Bool) (s : State) :
    (sqTailDoorbellEff port qid value poisoned s).bytes = s.bytes := by
  simp only [sqTailDoorbellEff]; (repeat' split) <;> simp
@[simp] theorem bytes_finishDeletes (p : Port) (s : State) : (finishDeletes p s).bytes = s.bytes := by simp [finishDeletes]
@[simp] theorem bytes_cqHeadSeen (p : Port) (qid value : Nat) (s : State) : (cqHeadSeen p qid value s).bytes = s.bytes := by
  simp [cqHeadSeen]
@[simp] theorem bytes_cqHeadDoorbellEff (port : Port) (qid value : Nat) (poisoned : Bool) (s : State) :
    (cqHeadDoorbellEff port qid value poisoned s).bytes = s.bytes := by
  simp only [cqHeadDoorbellEff]; (repeat' split) <;> simp
@[simp] theorem bytes_sqeGone (p : Port) (sq : Nat) (s : State) : (sqeGone p sq s).bytes = s.bytes := (sqeGone_only ..).bytes
@[simp] theorem bytes_sqeFailed (p : Port) (s : State) : (sqeFailed p s).bytes = s.bytes := (sqeFailed_only ..).bytes
@[simp] theorem bytes_fetchFrom (p : Port) (q : Sq) (s : State) : (fetchFrom p q s).bytes = s.bytes := by simp [fetchFrom]
@[simp] theorem bytes_sqeFetchEff (port : Port) (s : State) : (sqeFetchEff port s).bytes = s.bytes := by
  simp only [sqeFetchEff]; (repeat' split) <;> simp
@[simp] theorem bytes_sqeArrived (p : Port) (sq : Nat) (s : State) : (sqeArrived p sq s).bytes = s.bytes := by simp [sqeArrived]
@[simp] theorem bytes_pollIssue (p : Port) (s : State) : (pollIssue p s).bytes = s.bytes := by simp [pollIssue]
@[simp] theorem bytes_pollRoundEff (port : Port) (s : State) : (pollRoundEff port s).bytes = s.bytes := by simp [pollRoundEff]
@[simp] theorem bytes_shadowTail (p : Port) (x : Nat × Nat) (s : State) : (shadowTail p x s).bytes = s.bytes := by
  unfold shadowTail; split <;> simp
@[simp] theorem bytes_shadowHead (p : Port) (x : Nat × Nat) (s : State) : (shadowHead p x s).bytes = s.bytes := by
  unfold shadowHead; split <;> simp
@[simp] theorem bytes_pollReturned (p : Port) (s : State) : (pollReturned p s).bytes = s.bytes := by simp [pollReturned]
@[simp] theorem bytes_pollCompletionEff (port : Port) (tails heads : List (Nat × Nat)) (s : State) :
    (pollCompletionEff port tails heads s).bytes = s.bytes := by
  simp [pollCompletionEff]
@[simp] theorem bytes_eventIdxStopped (p : Port) (s : State) : (eventIdxStopped p s).bytes = s.bytes := (eventIdxStopped_only ..).bytes
@[simp] theorem bytes_stopPolling (p : Port) (s : State) : (stopPolling p s).bytes = s.bytes := by simp [stopPolling]
@[simp] theorem bytes_pollStopEff (port : Port) (idleUs : Nat) (finalTails : List (Nat × Nat)) (s : State) :
    (pollStopEff port idleUs finalTails s).bytes = s.bytes := by
  simp [pollStopEff]

/-! Machine/Operands.lean -/

@[simp] theorem bytes_adminDone (h : AdminHdr) (sct sc dw0 dw1 : Nat) (s : State) : (adminDone h sct sc dw0 dw1 s).bytes = s.bytes := by
  simp [adminDone]
@[simp] theorem bytes_adminOk (h : AdminHdr) (s : State) : (adminOk h s).bytes = s.bytes := by simp [adminOk]
@[simp] theorem bytes_adminFail (h : AdminHdr) (sct sc : Nat) (s : State) : (adminFail h sct sc s).bytes = s.bytes := by simp [adminFail]
@[simp] theorem bytes_adminCmd {body : State → State} (hb : ∀ t, (body t).bytes = t.bytes) (h : AdminHdr) (modes : Mode → Bool) (len : Nat)
    (s : State) : (adminCmd h modes len body s).bytes = s.bytes := by
  simp only [adminCmd]; (repeat' split) <;> simp [hb]

/-! Machine/Admin.lean -/

@[simp] theorem bytes_withData {body : State → State} (hb : ∀ t, (body t).bytes = t.bytes) (h : AdminHdr) (len : Nat) (s : State) :
    (withData h len body s).bytes = s.bytes := by
  unfold withData; split <;> simp [hb]
@[simp] theorem bytes_deleteIoSqBody (h : AdminHdr) (qid : Nat) (s : State) : (deleteIoSqBody h qid s).bytes = s.bytes := by
  simp [deleteIoSqBody]
@[simp] theorem bytes_createIoSqBody (h : AdminHdr) (qid size cqid qprio base : Nat) (contiguous : Bool) (s : State) :
    (createIoSqBody h qid size cqid qprio base contiguous s).bytes = s.bytes := by
  unfold createIoSqBody; split <;> simp
@[simp] theorem bytes_deleteIoCqBody (h : AdminHdr) (qid : Nat) (s : State) : (deleteIoCqBody h qid s).bytes = s.bytes := by
  simp [deleteIoCqBody]
@[simp] theorem bytes_createIoCqBody (h : AdminHdr) (qid size vector : Nat) (ien : Bool) (base : Nat) (contiguous : Bool) (s : State) :
    (createIoCqBody h qid size vector ien base contiguous s).bytes = s.bytes := by
  unfold createIoCqBody; split <;> simp
@[simp] theorem bytes_logRead (p : Port) (lid : Nat) (s : State) : (logRead p lid s).bytes = s.bytes := (logRead_only ..).bytes
@[simp] theorem bytes_abortBody (h : AdminHdr) (s : State) : (abortBody h s).bytes = s.bytes := by simp [abortBody]
@[simp] theorem bytes_asynchronousEventRequestBody (h : AdminHdr) (s : State) : (asynchronousEventRequestBody h s).bytes = s.bytes := by
  simp only [asynchronousEventRequestBody]; (repeat' split) <;> simp
@[simp] theorem bytes_deviceSelfTestBody (h : AdminHdr) (code : Nat) (s : State) : (deviceSelfTestBody h code s).bytes = s.bytes := by
  simp only [deviceSelfTestBody]; (repeat' split) <;> simp
@[simp] theorem bytes_directiveSendBody (h : AdminHdr) (dtype doper dspec : Nat) (enable : Bool) (tdtype : Nat) (s : State) :
    (directiveSendBody h dtype doper dspec enable tdtype s).bytes = s.bytes := by
  unfold directiveSendBody; (repeat' split) <;> simp
@[simp] theorem bytes_doorbellBufferConfigBody (h : AdminHdr) (prp1 prp2 : Nat) (s : State) :
    (doorbellBufferConfigBody h prp1 prp2 s).bytes = s.bytes := by
  simp [doorbellBufferConfigBody]

/-! Machine/Features.lean -/

@[simp] theorem bytes_setFeature {body : State → State} (hb : ∀ t, (body t).bytes = t.bytes) (h : AdminHdr) (sv : Bool) (s : State) :
    (setFeature h sv body s).bytes = s.bytes := by
  simp [setFeature, hb]
@[simp] theorem bytes_setPowerBody (h : AdminHdr) (ps wh : Nat) (s : State) : (setPowerBody h ps wh s).bytes = s.bytes := by
  unfold setPowerBody; split <;> simp
@[simp] theorem bytes_powerStateEntryEff (done : Bool) (s : State) : (powerStateEntryEff done s).bytes = s.bytes := by
  unfold powerStateEntryEff; split <;> simp
@[simp] theorem bytes_setTempBody (h : AdminHdr) (tmpsel thsel kelvin : Nat) (s : State) :
    (setTempBody h tmpsel thsel kelvin s).bytes = s.bytes := by
  simp [setTempBody]
@[simp] theorem bytes_setNumQueuesBody (h : AdminHdr) (nsqr ncqr : Nat) (s : State) : (setNumQueuesBody h nsqr ncqr s).bytes = s.bytes := by
  simp [setNumQueuesBody]
@[simp] theorem bytes_setVectorBody (h : AdminHdr) (vector : Nat) (disable : Bool) (s : State) :
    (setVectorBody h vector disable s).bytes = s.bytes := by
  simp [setVectorBody]
@[simp] theorem bytes_setClassesBody (h : AdminHdr) (mask : BitVec 8) (reservedMask : Bool) (entries : List (List Nat)) (s : State) :
    (setClassesBody h mask reservedMask entries s).bytes = s.bytes := by
  simp [setClassesBody]
@[simp] theorem bytes_setBindingBody (h : AdminHdr) (sqid cls : Nat) (s : State) : (setBindingBody h sqid cls s).bytes = s.bytes := by
  simp [setBindingBody]

/-! Machine/NsOps.lean -/

@[simp] theorem bytes_rngDraw (s : State) : (rngDraw s).bytes = s.bytes := (rngDraw_only ..).bytes
@[simp] theorem bytes_drawKey (nsid : Nat) (s : State) : (drawKey nsid s).bytes = s.bytes := by simp [drawKey]
@[simp] theorem bytes_createNs (n : Ns) (s : State) : (createNs n s).bytes = s.bytes := by simp [createNs]
@[simp] theorem bytes_formatNs (nsid lbaf : Nat) (ext : Bool) (dps : Nat) (erase : Bool) (s : State) :
    (formatNs nsid lbaf ext dps erase s).bytes = s.bytes := by
  simp [formatNs]
@[simp] theorem bytes_sealNsNow (nsid : Nat) (perm : Bool) (s : State) : (sealNsNow nsid perm s).bytes = s.bytes :=
  (sealNsNow_only ..).bytes
@[simp] theorem bytes_attachNs (nsid : Nat) (on : Bool) (ctrls : List Nat) (s : State) : (attachNs nsid on ctrls s).bytes = s.bytes := by
  simp [attachNs]
@[simp] theorem bytes_waitDone (w : NsWait) (sct sc dw0 dw1 : Nat) (s : State) : (waitDone w sct sc dw0 dw1 s).bytes = s.bytes := by
  unfold waitDone; split <;> simp
@[simp] theorem bytes_sealDeviceNow (perm : Bool) (s : State) : (sealDeviceNow perm s).bytes = s.bytes := by simp [sealDeviceNow]
@[simp] theorem bytes_runWait (w : NsWait) (s : State) : (runWait w s).bytes = s.bytes := by unfold runWait; (repeat' split) <;> simp
@[simp] theorem bytes_beginCrypto (w : NsWait) (s : State) : (beginCrypto w s).bytes = s.bytes := (beginCrypto_only ..).bytes
@[simp] theorem bytes_settleNs (s : State) : (settleNs s).bytes = s.bytes := by simp [settleNs]
@[simp] theorem bytes_acceptNs (h : AdminHdr) (nsid : Nat) (op : NsWaitOp) (s : State) : (acceptNs h nsid op s).bytes = s.bytes := by
  simp [acceptNs]
@[simp] theorem bytes_settleSanitize (s : State) : (settleSanitize s).bytes = s.bytes := by simp [settleSanitize]

/-! Machine/Firmware.lean -/

@[simp] theorem bytes_firmwareImageDownloadBody (h : AdminHdr) (offset length : Nat) (s : State) :
    (firmwareImageDownloadBody h offset length s).bytes = s.bytes := by
  simp [firmwareImageDownloadBody]
@[simp] theorem bytes_firmwareCommitBody (h : AdminHdr) (slot : Nat) (write select : Bool) (img : SlotImage) (s : State) :
    (firmwareCommitBody h slot write select img s).bytes = s.bytes := by
  unfold firmwareCommitBody
  (repeat' split) <;> try simp
  all_goals simp [(Only.of_eq2 ‹_› (commitSlot_only ..)).bytes]
@[simp] theorem bytes_fwDone (sct sc : Nat) (s : State) : (fwDone sct sc s).bytes = s.bytes := by
  simp only [fwDone]; (repeat' split) <;> simp
@[simp] theorem bytes_activationDone (s : State) : (activationDone s).bytes = s.bytes := by
  simp only [activationDone]; (repeat' split) <;> simp
@[simp] theorem bytes_activationFailed (s : State) : (activationFailed s).bytes = s.bytes := by simp [activationFailed]
@[simp] theorem bytes_startActivation (h : AdminHdr) (blk : Nat) (s : State) : (startActivation h blk s).bytes = s.bytes := by
  simp [startActivation]

/-! Machine/Commit.lean -/

@[simp] theorem bytes_lostCleared (c : Change) (s : State) : (lostCleared c s).bytes = s.bytes := (lostCleared_only ..).bytes
@[simp] theorem bytes_stageGrain (csn : Nat) (host : Bool) (c : Change) (s : State) : (stageGrain csn host c s).bytes = s.bytes :=
  (stageGrain_only ..).bytes
@[simp] theorem bytes_commitAll (csn : Nat) (cs : List Change) (s : State) : (commitAll csn cs s).bytes = s.bytes :=
  (commitAll_only ..).bytes
@[simp] theorem bytes_storeGrain (g : GrainRec) (s : State) : (storeGrain g s).bytes = s.bytes := by
  simp only [storeGrain]; (repeat' split) <;> simp

/-! Machine/FretOps.lean -/

@[simp] theorem bytes_bookReads (cmd cls deadline f : Nat) (rs : List PageRead) (s : State) :
    (bookReads cmd cls deadline f rs s).2.bytes = s.bytes := (bookReads_only ..).bytes
@[simp] theorem bytes_unbook (id : Nat) (s : State) : (unbook id s).bytes = s.bytes := (unbook_only ..).bytes
@[simp] theorem bytes_trimFrets (s : State) : (trimFrets s).bytes = s.bytes := (trimFrets_only ..).bytes

/-! Machine/IoOps.lean -/

@[simp] theorem bytes_updCmd (id : Nat) (f : IoCmd → IoCmd) (s : State) : (updCmd id f s).bytes = s.bytes := (updCmd_only ..).bytes
@[simp] theorem bytes_piCount (sc : Nat) (s : State) : (piCount sc s).bytes = s.bytes := (piCount_only ..).bytes
@[simp] theorem bytes_ioFail (h : IoHdr) (sct sc dw0 : Nat) (s : State) : (ioFail h sct sc dw0 s).bytes = s.bytes := by simp [ioFail]
@[simp] theorem bytes_ioRefuse (h : IoHdr) (dw0 : Nat) (s : State) : (ioRefuse h dw0 s).bytes = s.bytes := by simp [ioRefuse]
@[simp] theorem bytes_deliverReports (p : Port) (on : Nat → Bool) (s : State) : (deliverReports p on s).bytes = s.bytes :=
  (deliverReports_only ..).bytes
@[simp] theorem bytes_addReaders (id : Nat) (vs : List (Nat × View)) (s : State) : (addReaders id vs s).bytes = s.bytes :=
  (addReaders_only ..).bytes
@[simp] theorem bytes_dropReaders (id : Nat) (s : State) : (dropReaders id s).bytes = s.bytes := (dropReaders_only ..).bytes
@[simp] theorem bytes_issueFor (p : Port) (id total n : Nat) (s : State) : (issueFor p id total n s).bytes = s.bytes := by
  induction n generalizing s with
  | zero => rfl
  | succ n ih => simp [issueFor, ih]
@[simp] theorem bytes_issueReads (p : Port) (s : State) : (issueReads p s).bytes = s.bytes := by simp [issueReads]
@[simp] theorem bytes_takeData (id : Nat) (ds : List HostLba) (s : State) : (takeData id ds s).bytes = s.bytes := by
  unfold takeData; (repeat' split) <;> simp
@[simp] theorem bytes_startData (id : Nat) (s : State) : (startData id s).bytes = s.bytes := by unfold startData; split <;> simp
@[simp] theorem bytes_switchNow (s : State) : (switchNow s).bytes = s.bytes := by simp [switchNow]
@[simp] theorem bytes_afterCompletion (p : Port) (s : State) : (afterCompletion p s).bytes = s.bytes := by simp [afterCompletion]
@[simp] theorem bytes_beyondExt (c : IoCmd) (s : State) : (beyondExt c s).2.bytes = s.bytes := by unfold beyondExt; split <;> simp
@[simp] theorem bytes_finishCmd (id sct sc dw0 : Nat) (s : State) : (finishCmd id sct sc dw0 s).bytes = s.bytes := by
  unfold finishCmd; split <;> simp
@[simp] theorem bytes_holdStaged (f : Staged → Bool) (s : State) : (holdStaged f s).bytes = s.bytes := (holdStaged_only ..).bytes
@[simp] theorem bytes_bookFua (id csn : Nat) (s : State) : (bookFua id csn s).bytes = s.bytes := by simp [bookFua]
@[simp] theorem bytes_commitCmd (id : Nat) (s : State) : (commitCmd id s).bytes = s.bytes := by unfold commitCmd; (repeat' split) <;> simp
@[simp] theorem bytes_retryCommits (s : State) : (retryCommits s).bytes = s.bytes := by simp [retryCommits]

/-! Machine/Admit.lean -/

@[simp] theorem bytes_openFixity (c : IoCmd) (bytes : Nat) (s : State) : (openFixity c bytes s).bytes = s.bytes :=
  (openFixity_only ..).bytes
@[simp] theorem bytes_planIo (n : Ns) (c : IoCmd) (bytes : Nat) (pages : Bool) (s : State) : (planIo n c bytes pages s).2.bytes = s.bytes :=
  (planIo_only ..).bytes
@[simp] theorem bytes_consumedHere (s : State) : (consumedHere s).bytes = s.bytes := by simp [consumedHere]
@[simp] theorem bytes_dropClaims (id : Nat) (s : State) : (dropClaims id s).bytes = s.bytes := (dropClaims_only ..).bytes
@[simp] theorem bytes_touchPages (n : Ns) (c : IoCmd) (s : State) : (touchPages n c s).bytes = s.bytes := (touchPages_only ..).bytes
theorem bytes_tryLc7 {n : Ns} {c : IoCmd} {b : Nat} {pages : Bool} {s : State} {x : IoCmd × State}
    (h : tryLc7 n c b pages s = some x) : x.2.bytes = s.bytes := by
  simp only [tryLc7] at h
  (repeat' split at h) <;> cases h
  simp [(Only.of_eq2 ‹_› (grantBufs_only ..)).bytes]
@[simp] theorem bytes_waitLc7 (c : IoCmd) (s : State) : (waitLc7 c s).bytes = s.bytes := (waitLc7_only ..).bytes

/-! Machine/Io.lean -/

@[simp] theorem bytes_dsmHint (h : IoHdr) (ranges : List (Nat × Nat)) (s : State) : (dsmHint h ranges s).bytes = s.bytes := by
  simp only [dsmHint]; (repeat' split) <;> simp
@[simp] theorem bytes_dropTag (p : Port) (tag : Nat) (s : State) : (dropTag p tag s).bytes = s.bytes := by simp [dropTag]
@[simp] theorem bytes_reissue (p : Port) (t : Tag) (s : State) : (reissue p t s).bytes = s.bytes := by simp [reissue]
@[simp] theorem bytes_readFailed (p : Port) (t : Tag) (s : State) : (readFailed p t s).bytes = s.bytes := by
  unfold readFailed; split <;> simp
@[simp] theorem bytes_readRetry (p : Port) (t : Tag) (s : State) : (readRetry p t s).bytes = s.bytes := by simp [readRetry]
@[simp] theorem bytes_slowHost (id ns : Nat) (s : State) : (slowHost id ns s).bytes = s.bytes := (slowHost_only ..).bytes
@[simp] theorem bytes_partArrived (id part : Nat) (lbas : List HostLba) (s : State) : (partArrived id part lbas s).bytes = s.bytes := by
  simp only [partArrived]; (repeat' split) <;> simp
@[simp] theorem bytes_readArrived (p : Port) (t : Tag) (lbas : List HostLba) (slowNs : Nat) (s : State) :
    (readArrived p t lbas slowNs s).bytes = s.bytes := by
  unfold readArrived; split <;> simp
@[simp] theorem bytes_hostReadCompletionEff (port : Port) (tag : Nat) (poisoned : Bool) (lbas : List HostLba) (slowNs : Nat) (s : State) :
    (hostReadCompletionEff port tag poisoned lbas slowNs s).bytes = s.bytes := by
  unfold hostReadCompletionEff; split <;> simp
@[simp] theorem bytes_hostReadTimeoutEff (port : Port) (tag : Nat) (s : State) : (hostReadTimeoutEff port tag s).bytes = s.bytes := by
  unfold hostReadTimeoutEff; split <;> simp
@[simp] theorem bytes_refuseLate (c : IoCmd) (s : State) : (refuseLate c s).bytes = s.bytes := by simp [refuseLate]
@[simp] theorem bytes_dcForwardDoneEff (cmd : Nat) (s : State) : (dcForwardDoneEff cmd s).bytes = s.bytes := by
  unfold dcForwardDoneEff; (repeat' split) <;> simp
@[simp] theorem bytes_completionPostEff (cmd : Nat) (s : State) : (completionPostEff cmd s).bytes = s.bytes := by
  unfold completionPostEff; split <;> simp
@[simp] theorem bytes_partialGrainMergeEff (stidx : Nat) (unreadableCause : Option Nat) (s : State) :
    (partialGrainMergeEff stidx unreadableCause s).bytes = s.bytes := by
  unfold partialGrainMergeEff; (repeat' split) <;> simp
@[simp] theorem bytes_claimSoft (cmd lba d : Nat) (s : State) : (claimSoft cmd lba d s).bytes = s.bytes := (claimSoft_only ..).bytes
@[simp] theorem bytes_claimAll (cmd lba : Nat) (e : MapEntry) (s : State) : (claimAll cmd lba e s).bytes = s.bytes :=
  (claimAll_only ..).bytes
@[simp] theorem bytes_viewLost (cmd grain : Nat) (n : Ns) (s : State) : (viewLost cmd grain n s).bytes = s.bytes := (viewLost_only ..).bytes
@[simp] theorem bytes_decodeOk (e : MapEntry) (corrected : Nat) (s : State) : (decodeOk e corrected s).bytes = s.bytes :=
  (decodeOk_only ..).bytes
@[simp] theorem bytes_fiRead (d glen : Nat) (result : DecodeResult) (s : State) : (fiRead d glen result s).2.bytes = s.bytes :=
  (fiRead_only ..).bytes

end Sys2Proof.Machine
end

section
/-! SUPPORT. The operations of the media, the fabric, the twin and management
that leave the byte stores alone: one lemma for each, tagged simp, by which the operations made of it follow. An operation whose
frame names neither the ports nor the memories needs no more than its frame. -/
namespace Sys2Proof.Machine
-- Many short theorems elaborated at once would need a thread each.
set_option Elab.async false

/-! Machine/Journal.lean -/

@[simp] theorem bytes_journalSegmentDurableEff (copyFailed : Bool) (s : State) :
    (journalSegmentDurableEff copyFailed s).bytes = s.bytes := by
  unfold journalSegmentDurableEff; split <;> simp
@[simp] theorem bytes_mapLineRestoredEff (nsid grain : Nat) (readable : Bool) (s : State) :
    (mapLineRestoredEff nsid grain readable s).bytes = s.bytes := by
  unfold mapLineRestoredEff
  (repeat' split) <;> try simp
  exact bytes_foldl (fun t e => by (repeat' split) <;> simp) _ _

/-! Machine/Program.lean -/

@[simp] theorem bytes_segStart (d : Nat) (s : State) : (segStart d s).bytes = s.bytes := (segStart_only ..).bytes
@[simp] theorem bytes_segEnd (d : Nat) (s : State) : (segEnd d s).bytes = s.bytes := (segEnd_only ..).bytes
@[simp] theorem bytes_withdrawRow (num w : Nat) (r : Row) (s : State) : (withdrawRow num w r s).bytes = s.bytes :=
  (bytes_foldl (fun t e => by split <;> simp) _ _).trans (bytes_updRow ..)
@[simp] theorem bytes_startMember (b : OpenBarrel) (g : Group) (m : Nat) (r : Row) (fresh : Bool) (s : State) :
    (startMember b g m r fresh s).bytes = s.bytes := by
  simp only [startMember]; (repeat' split) <;> simp
@[simp] theorem bytes_wordlineProgramStartEff (num m : Nat) (s : State) : (wordlineProgramStartEff num m s).bytes = s.bytes := by
  unfold wordlineProgramStartEff; (repeat' split) <;> simp
@[simp] theorem bytes_departs (s : State) : (departs s).bytes = s.bytes := (departs_only ..).bytes
@[simp] theorem bytes_vatPageDone (v : VatPage) (s : State) : (vatPageDone v s).bytes = s.bytes := (vatPageDone_only ..).bytes
@[simp] theorem bytes_vatCopyDone (g : Group) (m d b : Nat) (v : VatPage) (pass : Bool) (s : State) :
    (vatCopyDone g m d b v pass s).bytes = s.bytes := by
  simp [vatCopyDone]
@[simp] theorem bytes_programVerifyDoneEff (die block page : Nat) (pass : Bool) (s : State) :
    (programVerifyDoneEff die block page pass s).bytes = s.bytes := by
  unfold programVerifyDoneEff; (repeat' split) <;> simp
@[simp] theorem bytes_gatherTimeoutEff (vintage : Fin 6) (s : State) : (gatherTimeoutEff vintage s).bytes = s.bytes := by
  simp [gatherTimeoutEff]
@[simp] theorem bytes_dieReadsFail (cmd die : Nat) (s : State) : (dieReadsFail cmd die s).bytes = s.bytes := (dieReadsFail_only ..).bytes
@[simp] theorem bytes_readReadyTimeoutEff (die : Nat) (afterRetrain : Bool) (cmd : Option Nat) (s : State) :
    (readReadyTimeoutEff die afterRetrain cmd s).bytes = s.bytes := by
  unfold readReadyTimeoutEff; split <;> simp
@[simp] theorem bytes_spDieoutWriteEff (who : Writer) (die : Nat) (key : BitVec 16) (s : State) :
    (spDieoutWriteEff who die key s).bytes = s.bytes := by
  simp [spDieoutWriteEff]
@[simp] theorem bytes_slewStep (s : State) : (slewStep s).bytes = s.bytes := (slewStep_only ..).bytes
@[simp] theorem bytes_resumeDies (s : State) : (resumeDies s).bytes = s.bytes := (resumeDies_only ..).bytes
@[simp] theorem bytes_fiTlps (s : State) : (fiTlps s).bytes = s.bytes := (fiTlps_only ..).bytes

/-! Machine/Racking.lean -/

@[simp] theorem bytes_rackWatch (s : State) : (rackWatch s).bytes = s.bytes := (rackWatch_only ..).bytes
@[simp] theorem bytes_rackingStartEff (unreadable : List (Nat × Nat)) (s : State) : (rackingStartEff unreadable s).bytes = s.bytes := by
  simp only [rackingStartEff]; (repeat' split) <;> simp
@[simp] theorem bytes_eraseDoneEff (die block : Nat) (pass : Bool) (s : State) : (eraseDoneEff die block pass s).bytes = s.bytes := by
  simp [eraseDoneEff]
@[simp] theorem bytes_bottleSlot (die slot : Nat) (unreadable : List (Nat × Nat)) (s : State) :
    (bottleSlot die slot unreadable s).bytes = s.bytes := by
  unfold bottleSlot; split <;> simp
@[simp] theorem bytes_bottlingStartEff (die slot : Nat) (unreadable : List (Nat × Nat)) (s : State) :
    (bottlingStartEff die slot unreadable s).bytes = s.bytes := by
  simp [bottlingStartEff]
@[simp] theorem bytes_ageRefreshEff (barrel : Nat) (unreadable : List (Nat × Nat)) (s : State) :
    (ageRefreshEff barrel unreadable s).bytes = s.bytes := by
  simp [ageRefreshEff]
@[simp] theorem bytes_blockRefreshEff (die block : Nat) (unreadable : List (Nat × Nat)) (s : State) :
    (blockRefreshEff die block unreadable s).bytes = s.bytes := by
  unfold blockRefreshEff; (repeat' split) <;> simp

/-! Machine/Parity.lean -/

@[simp] theorem bytes_snapshotWriteEff (s : State) : (snapshotWriteEff s).bytes = s.bytes := by simp [snapshotWriteEff]
@[simp] theorem bytes_updSubst (d : Nat) (f : Subst → Subst) (s : State) : (updSubst d f s).bytes = s.bytes := (updSubst_only ..).bytes
@[simp] theorem bytes_advanceRow (g : Group) (d r : Nat) (s : State) : (advanceRow g d r s).bytes = s.bytes := (advanceRow_only ..).bytes
@[simp] theorem bytes_bottleMember (g : Group) (d : Nat) (s : State) : (bottleMember g d s).bytes = s.bytes := by
  unfold bottleMember; split <;> simp
@[simp] theorem bytes_formSlots (g : Group) (d dst : Nat) (s : State) : (formSlots g d dst s).bytes = s.bytes := (formSlots_only ..).bytes
@[simp] theorem bytes_rebuildStartEff (die : Nat) (s : State) : (rebuildStartEff die s).bytes = s.bytes := by
  unfold rebuildStartEff; (repeat' split) <;> simp
@[simp] theorem bytes_rebuildWordlineDoneEff (die : Nat) (row wordline : Nat) (last : Bool) (lostGrains : List (Nat × Nat)) (s : State) :
    (rebuildWordlineDoneEff die row wordline last lostGrains s).bytes = s.bytes := by
  unfold rebuildWordlineDoneEff; (repeat' split) <;> simp
@[simp] theorem bytes_dissolved (g : Group) (s : State) : (dissolved g s).bytes = s.bytes := by simp [dissolved]
@[simp] theorem bytes_groupDissolutionEff (group : Nat) (s : State) : (groupDissolutionEff group s).bytes = s.bytes := by
  unfold groupDissolutionEff; split <;> simp
@[simp] theorem bytes_spSubselWriteEff (who : Writer) (index : Nat) (s : State) : (spSubselWriteEff who index s).bytes = s.bytes :=
  (spSubselWriteEff_only ..).bytes

/-! Machine/Channels.lean -/

@[simp] theorem bytes_chanReadsFail (c : Nat) (s : State) : (chanReadsFail c s).bytes = s.bytes := (chanReadsFail_only ..).bytes
@[simp] theorem bytes_resumeRecs (k phy : Nat) (s : State) : (resumeRecs k phy s).bytes = s.bytes := (resumeRecs_only ..).bytes
@[simp] theorem bytes_takeOver (k phy q spare took : Nat) (s : State) : (takeOver k phy q spare took s).bytes = s.bytes := by
  simp [takeOver]
@[simp] theorem bytes_noTakeOver (k phy : Nat) (s : State) : (noTakeOver k phy s).bytes = s.bytes := by simp [noTakeOver]
@[simp] theorem bytes_stallActivation (k : Nat) (s : State) : (stallActivation k s).bytes = s.bytes := by simp [stallActivation]
@[simp] theorem bytes_seqFaulted (k q : Nat) (f : Field) (took : Nat) (s : State) : (seqFaulted k q f took s).bytes = s.bytes := by
  simp only [seqFaulted]; (repeat' split) <;> simp
@[simp] theorem bytes_retrainStepEff (channel : Fin 64) (failedTwice : Bool) (idChanged : List Nat) (s : State) :
    (retrainStepEff channel failedTwice idChanged s).bytes = s.bytes := by
  simp [retrainStepEff]
@[simp] theorem bytes_loadBank (k : Nat) (b : Bool) (p : PatchSet) (s : State) : (loadBank k b p s).bytes = s.bytes :=
  (loadBank_only ..).bytes
@[simp] theorem bytes_startupSetFailed (s : State) : (startupSetFailed s).bytes = s.bytes := (startupSetFailed_only ..).bytes
@[simp] theorem bytes_patchSetLoadEff (cluster : Fin 8) (p : PatchSet) (atStartup : Bool) (s : State) :
    (patchSetLoadEff cluster p atStartup s).bytes = s.bytes := by
  unfold patchSetLoadEff; (repeat' split) <;> simp
@[simp] theorem bytes_handOff (k n : Nat) (s : State) : (handOff k n s).bytes = s.bytes := (handOff_only ..).bytes
@[simp] theorem bytes_patchHandoffEff (cluster phy : Fin 8) (s : State) : (patchHandoffEff cluster phy s).bytes = s.bytes := by
  simp [patchHandoffEff]

/-! Machine/Buffers.lean -/

@[simp] theorem bytes_doubleFree (index owner : Nat) (s : State) : (doubleFree index owner s).bytes = s.bytes := (doubleFree_only ..).bytes
@[simp] theorem bytes_acceptFree (index : Nat) (s : State) : (acceptFree index s).bytes = s.bytes := by simp [acceptFree]
@[simp] theorem bytes_bufferFreeEff (index owner : Nat) (s : State) : (bufferFreeEff index owner s).bytes = s.bytes := by
  simp [bufferFreeEff]
@[simp] theorem bytes_withdrawBuf (i : Nat) (s : State) : (withdrawBuf i s).bytes = s.bytes := (withdrawBuf_only ..).bytes
@[simp] theorem bytes_withdrawBufs (is : List Nat) (s : State) : (withdrawBufs is s).bytes = s.bytes := (withdrawBufs_only ..).bytes
@[simp] theorem bytes_remapPage (page : Nat) (s : State) : (remapPage page s).bytes = s.bytes := by
  simp only [remapPage]; (repeat' split) <;> simp
@[simp] theorem bytes_repairRow (row : Nat) (hardware : Bool) (bufs : List Nat) (s : State) :
    (repairRow row hardware bufs s).bytes = s.bytes := by
  simp [repairRow]
@[simp] theorem bytes_countUnit (addr : Nat) (s : State) : (countUnit addr s).bytes = s.bytes := by simp [countUnit]
@[simp] theorem bytes_restoreUncommitted (id : Nat) (ok : Bool) (s : State) : (restoreUncommitted id ok s).2.bytes = s.bytes := by
  unfold restoreUncommitted; (repeat' split) <;> simp
@[simp] theorem bytes_restoreCommitted (i : Nat) (inForm : Bool) (s : State) : (restoreCommitted i inForm s).2.bytes = s.bytes :=
  (restoreCommitted_only ..).bytes
@[simp] theorem bytes_restoreRead (id : Nat) (s : State) : (restoreRead id s).bytes = s.bytes := (restoreRead_only ..).bytes
@[simp] theorem bytes_holdLine (nsid grain : Nat) (s : State) : (holdLine nsid grain s).bytes = s.bytes := (holdLine_only ..).bytes
@[simp] theorem bytes_restoreBlock (d b : Nat) (s : State) : (restoreBlock d b s).bytes = s.bytes := (restoreBlock_only ..).bytes
@[simp] theorem bytes_quarantinePool (addr : Nat) (s : State) : (quarantinePool addr s).bytes = s.bytes := (quarantinePool_only ..).bytes
@[simp] theorem bytes_restoreLine (addr : Nat) (k : LineKind) (s : State) : (restoreLine addr k s).2.bytes = s.bytes := by
  unfold restoreLine; (repeat' split) <;> simp
@[simp] theorem bytes_chkRecorded (addr : Nat) (s : State) : (chkRecorded addr s).bytes = s.bytes := by simp [chkRecorded]
@[simp] theorem bytes_lineCheckFailureEff (address : Nat) (kind : LineKind) (s : State) :
    (lineCheckFailureEff address kind s).bytes = s.bytes := by
  simp only [lineCheckFailureEff]; (repeat' split) <;> simp
@[simp] theorem bytes_staleGenerationAccessEff (address index generation : Nat) (isWrite : Bool) (s : State) :
    (staleGenerationAccessEff address index generation isWrite s).bytes = s.bytes := by
  simp [staleGenerationAccessEff]
@[simp] theorem bytes_mergeEntryTimeoutEff (meport : Nat) (s : State) : (mergeEntryTimeoutEff meport s).bytes = s.bytes := by
  unfold mergeEntryTimeoutEff; split <;> simp

/-! Machine/Namespaces.lean -/

@[simp] theorem bytes_nsCreateBody (h : AdminHdr) (d : NsDesc) (s : State) : (nsCreateBody h d s).bytes = s.bytes := by
  unfold nsCreateBody; (repeat' split) <;> simp
@[simp] theorem bytes_nsDeleteBody (h : AdminHdr) (s : State) : (nsDeleteBody h s).bytes = s.bytes := by
  unfold nsDeleteBody; (repeat' split) <;> simp
@[simp] theorem bytes_nsAttachBody (h : AdminHdr) (attach : Bool) (ctrls : List Nat) (s : State) :
    (nsAttachBody h attach ctrls s).bytes = s.bytes := by
  unfold nsAttachBody; split <;> simp
@[simp] theorem bytes_formatBody (h : AdminHdr) (lbaf : Nat) (mset : Bool) (pi pil ses : Nat) (s : State) :
    (formatBody h lbaf mset pi pil ses s).bytes = s.bytes := by
  unfold formatBody; (repeat' split) <;> simp
@[simp] theorem bytes_sanitizeBody (h : AdminHdr) (noDealloc : Bool) (kind : Nat) (s : State) :
    (sanitizeBody h noDealloc kind s).bytes = s.bytes := by
  simp [sanitizeBody]
@[simp] theorem bytes_sealNsBody (h : AdminHdr) (perm : Bool) (s : State) : (sealNsBody h perm s).bytes = s.bytes := by
  unfold sealNsBody; split <;> simp
@[simp] theorem bytes_unsealNsBody (h : AdminHdr) (s : State) : (unsealNsBody h s).bytes = s.bytes := by
  unfold unsealNsBody; (repeat' split) <;> simp

/-! Machine/Links.lean -/

@[simp] theorem bytes_linkUp (k : Nat) (lanes : BitVec 4) (s : State) : (linkUp k lanes s).bytes = s.bytes := (linkUp_only ..).bytes
@[simp] theorem bytes_gareoLinkTrainedEff (k : Nat) (lanes : BitVec 4) (reversed : Bool) (uid node plink : Nat) (s : State) :
    (gareoLinkTrainedEff k lanes reversed uid node plink s).bytes = s.bytes := by
  simp [gareoLinkTrainedEff]
@[simp] theorem bytes_linkRetrainDoneEff (k : Nat) (lanes : BitVec 4) (s : State) : (linkRetrainDoneEff k lanes s).bytes = s.bytes := by
  simp [linkRetrainDoneEff]
@[simp] theorem bytes_linkRetryTimerEff (k : Nat) (s : State) : (linkRetryTimerEff k s).bytes = s.bytes := by simp [linkRetryTimerEff]
@[simp] theorem bytes_updRxStream (vc src : Nat) (f : RxStream → RxStream) (s : State) : (updRxStream vc src f s).bytes = s.bytes :=
  (updRxStream_only ..).bytes
@[simp] theorem bytes_sendAck (vc src : Nat) (s : State) : (sendAck vc src s).bytes = s.bytes := (sendAck_only ..).bytes
@[simp] theorem bytes_sendNak (vc src xseq cause : Nat) (s : State) : (sendNak vc src xseq cause s).bytes = s.bytes :=
  (sendNak_only ..).bytes
@[simp] theorem bytes_delivered (vc src : Nat) (s : State) : (delivered vc src s).bytes = s.bytes := (delivered_only ..).bytes
@[simp] theorem bytes_frameDiscarded (vc src xseq : Nat) (len : Bool) (s : State) : (frameDiscarded vc src xseq len s).bytes = s.bytes :=
  (frameDiscarded_only ..).bytes
@[simp] theorem bytes_mirrorAcked (csn : Nat) (s : State) : (mirrorAcked csn s).bytes = s.bytes := by simp [mirrorAcked]
@[simp] theorem bytes_ackEff (vc src xseq : Nat) (s : State) : (ackEff vc src xseq s).bytes = s.bytes :=
  (bytes_foldl (fun t e => by split <;> simp) _ _).trans (by simp)
@[simp] theorem bytes_frameRejected (fr : TxFrame) (s : State) : (frameRejected fr s).bytes = s.bytes := by simp [frameRejected]
@[simp] theorem bytes_takeCredit (k vc n : Nat) (s : State) : (takeCredit k vc n s).bytes = s.bytes := (takeCredit_only ..).bytes
@[simp] theorem bytes_flitNak (k : Nat) (s : State) : (flitNak k s).bytes = s.bytes := (flitNak_only ..).bytes
@[simp] theorem bytes_takeDataFlit (k : Nat) (b : List Byte) (s : State) : (takeDataFlit k b s).bytes = s.bytes :=
  (takeDataFlit_only ..).bytes

/-! Machine/Fabric.lean -/

@[simp] theorem bytes_discoveryQuietTimeoutEff (s : State) : (discoveryQuietTimeoutEff s).bytes = s.bytes := by
  simp [discoveryQuietTimeoutEff]
@[simp] theorem bytes_heldOutBy (uid : Nat) (node : Option Nat) (s : State) : (heldOutBy uid node s).bytes = s.bytes := by simp [heldOutBy]
@[simp] theorem bytes_lsrEff (uid : Nat) (node pref : Option Nat) (links : List LinkReport) (s : State) :
    (lsrEff uid node pref links s).bytes = s.bytes := by
  simp [lsrEff]
@[simp] theorem bytes_coordinatorHeartbeatEff (answered : Bool) (s : State) : (coordinatorHeartbeatEff answered s).bytes = s.bytes := by
  simp [coordinatorHeartbeatEff]
@[simp] theorem bytes_gfNodeReassignEff (who : Writer) (s : State) : (gfNodeReassignEff who s).bytes = s.bytes :=
  (gfNodeReassignEff_only ..).bytes
@[simp] theorem bytes_timeExchangeTimerEff (s : State) : (timeExchangeTimerEff s).bytes = s.bytes := by
  unfold timeExchangeTimerEff; (repeat' split) <;> simp
@[simp] theorem bytes_correctOffset (o : Int) (s : State) : (correctOffset o s).bytes = s.bytes := by simp [correctOffset]
@[simp] theorem bytes_timeEff (t1 t2 t3 t4 masterStep : Nat) (s : State) : (timeEff t1 t2 t3 t4 masterStep s).bytes = s.bytes := by
  simp [timeEff]
@[simp] theorem bytes_rdreqRun (h : FrameHdr) (offset len : Nat) (s : State) : (rdreqRun h offset len s).bytes = s.bytes := by
  simp [rdreqRun]
@[simp] theorem bytes_rdrespRun (h : FrameHdr) (data : List Byte) (s : State) : (rdrespRun h data s).bytes = s.bytes := by
  unfold rdrespRun; split <;> simp
@[simp] theorem bytes_createMirrored (d : NsDesc) (s : State) : (createMirrored d s).bytes = s.bytes := by simp [createMirrored]
@[simp] theorem bytes_mgmtRun (h : FrameHdr) (spdm : Bool) (descs : List NsDesc) (s : State) :
    (mgmtRun h spdm descs s).bytes = s.bytes := by
  simp [mgmtRun]
@[simp] theorem bytes_holdEarly (h : FrameHdr) (c : Instr) (s : State) : (holdEarly h c s).bytes = s.bytes := (holdEarly_only ..).bytes

/-! Machine/TwinOps.lean -/

@[simp] theorem bytes_recordPair (p : Option (Nat × Bool)) (s : State) : (recordPair p s).bytes = s.bytes := (recordPair_only ..).bytes
@[simp] theorem bytes_waitCmdDone (sct sc dw0 : Nat) (s : State) : (waitCmdDone sct sc dw0 s).bytes = s.bytes := by
  unfold waitCmdDone; split <;> simp
@[simp] theorem bytes_ownAll (on : Bool) (s : State) : (ownAll on s).bytes = s.bytes := (ownAll_only ..).bytes
@[simp] theorem bytes_rowTen (s : State) : (rowTen s).bytes = s.bytes := by simp [rowTen]
@[simp] theorem bytes_rowEleven (s : State) : (rowEleven s).bytes = s.bytes := by simp [rowEleven]
@[simp] theorem bytes_serveNow (s : State) : (serveNow s).bytes = s.bytes := by simp [serveNow]
@[simp] theorem bytes_dropGranules (s : State) : (dropGranules s).bytes = s.bytes := (dropGranules_only ..).bytes
@[simp] theorem bytes_fence (on : Bool) (s : State) : (fence on s).bytes = s.bytes := (fence_only ..).bytes
@[simp] theorem bytes_takeover (cause : Nat) (s : State) : (takeover cause s).bytes = s.bytes := by
  unfold takeover; simp only [bytes_tickFree, bytes_setF, bytes_bump]; simp
@[simp] theorem bytes_standbyAlone (cause : Nat) (s : State) : (standbyAlone cause s).bytes = s.bytes := by
  unfold standbyAlone; split <;> simp
@[simp] theorem bytes_sendSegment (dst nsid seg : Nat) (s : State) : (sendSegment dst nsid seg s).bytes = s.bytes := by
  unfold sendSegment; split <;> simp
@[simp] theorem bytes_sourceDone (s : State) : (sourceDone s).bytes = s.bytes := by simp [sourceDone]

/-! Machine/TwinCtl.lean -/

@[simp] theorem bytes_seqError (h : AdminHdr) (s : State) : (seqError h s).bytes = s.bytes := by simp [seqError]
@[simp] theorem bytes_twinError (h : AdminHdr) (s : State) : (twinError h s).bytes = s.bytes := by simp [twinError]
@[simp] theorem bytes_pairBody (h : AdminHdr) (peer idDigest : Nat) (ok : Bool) (s : State) :
    (pairBody h peer idDigest ok s).bytes = s.bytes := by
  simp [pairBody]
@[simp] theorem bytes_switchBody (h : AdminHdr) (s : State) : (switchBody h s).bytes = s.bytes := by simp [switchBody]
@[simp] theorem bytes_mirrorTables (s : State) : (mirrorTables s).bytes = s.bytes := by simp only [mirrorTables]; (repeat' split) <;> simp
@[simp] theorem bytes_rejoinBody (h : AdminHdr) (peer idDigest returnerCsn : Nat) (s : State) :
    (rejoinBody h peer idDigest returnerCsn s).bytes = s.bytes := by
  simp [rejoinBody]
@[simp] theorem bytes_unpaired (s : State) : (unpaired s).bytes = s.bytes := (unpaired_only ..).bytes
@[simp] theorem bytes_unpairBody (h : AdminHdr) (s : State) : (unpairBody h s).bytes = s.bytes := by simp [unpairBody]
@[simp] theorem bytes_releaseBody (h : AdminHdr) (s : State) : (releaseBody h s).bytes = s.bytes := by simp [releaseBody]
@[simp] theorem bytes_armBody (h : AdminHdr) (peer idDigest : Nat) (s : State) : (armBody h peer idDigest s).bytes = s.bytes := by
  simp [armBody]
@[simp] theorem bytes_startBody (h : AdminHdr) (auto : Bool) (peer idDigest : Nat) (nsids : List Nat) (s : State) :
    (startBody h auto peer idDigest nsids s).bytes = s.bytes := by
  simp [startBody]
@[simp] theorem bytes_sealSession (s : State) : (sealSession s).bytes = s.bytes := (sealSession_only ..).bytes
@[simp] theorem bytes_sealBody (h : AdminHdr) (s : State) : (sealBody h s).bytes = s.bytes := by simp [sealBody]
@[simp] theorem bytes_migAbortBody (h : AdminHdr) (s : State) : (migAbortBody h s).bytes = s.bytes := by simp [migAbortBody]
@[simp] theorem bytes_notCutOver (s : State) : (notCutOver s).bytes = s.bytes := by simp [notCutOver]
@[simp] theorem bytes_resolveBody (h : AdminHdr) (cutOver : Bool) (s : State) : (resolveBody h cutOver s).bytes = s.bytes := by
  simp [resolveBody]

/-! Machine/Twin.lean -/

@[simp] theorem bytes_recordIn (s : State) : (recordIn s).bytes = s.bytes := (recordIn_only ..).bytes
@[simp] theorem bytes_recordChanges (ds : List GrainRec) (s : State) : (recordChanges ds s).2.bytes = s.bytes :=
  (recordChanges_only ..).bytes
@[simp] theorem bytes_finishSwitch (s : State) : (finishSwitch s).bytes = s.bytes := by unfold finishSwitch; split <;> simp
@[simp] theorem bytes_applyRecord (csn : Nat) (deltas : List GrainRec) (s : State) : (applyRecord csn deltas s).bytes = s.bytes := by
  simp [applyRecord]
@[simp] theorem bytes_mirrorCommitRecordEff (csn : Nat) (deltas : List GrainRec) (s : State) :
    (mirrorCommitRecordEff csn deltas s).bytes = s.bytes := by
  simp [mirrorCommitRecordEff]
@[simp] theorem bytes_mirroredOp (op : NsOp) (s : State) : (mirroredOp op s).bytes = s.bytes := by unfold mirroredOp; split <;> simp
@[simp] theorem bytes_storeRepair (g : GrainRec) (e : MapEntry) (s : State) : (storeRepair g e s).bytes = s.bytes :=
  (storeRepair_only ..).bytes
@[simp] theorem bytes_mirrorRepairEff (isAnswer : Bool) (g : GrainRec) (lostCsn : Nat) (s : State) :
    (mirrorRepairEff isAnswer g lostCsn s).bytes = s.bytes := by
  simp [mirrorRepairEff]
@[simp] theorem bytes_sendHb (fields : List Nat) (s : State) : (sendHb fields s).bytes = s.bytes := by simp [sendHb]
@[simp] theorem bytes_hbSendTimerEff (s : State) : (hbSendTimerEff s).bytes = s.bytes := by simp [hbSendTimerEff]
@[simp] theorem bytes_hbPathLostEff (pathB : Bool) (sinceUs : Nat) (s : State) : (hbPathLostEff pathB sinceUs s).bytes = s.bytes := by
  simp [hbPathLostEff]
@[simp] theorem bytes_drainNoticeEff (csn : Nat) (s : State) : (drainNoticeEff csn s).bytes = s.bytes := by simp [drainNoticeEff]
@[simp] theorem bytes_soloEntryEff (cmd : Nat) (s : State) : (soloEntryEff cmd s).bytes = s.bytes := by unfold soloEntryEff; split <;> simp
@[simp] theorem bytes_soloExitEff (goodMs : Nat) (s : State) : (soloExitEff goodMs s).bytes = s.bytes := by simp [soloExitEff]
@[simp] theorem bytes_becomeStandby (src : Nat) (s : State) : (becomeStandby src s).bytes = s.bytes := (becomeStandby_only ..).bytes
@[simp] theorem bytes_pairreqEff (src action : Nat) (idOk : Bool) (s : State) : (pairreqEff src action idOk s).bytes = s.bytes := by
  unfold pairreqEff; (repeat' split) <;> simp
@[simp] theorem bytes_becomeActive (s : State) : (becomeActive s).bytes = s.bytes := by simp [becomeActive]
@[simp] theorem bytes_pairackEff (accepted identityOk : Bool) (s : State) : (pairackEff accepted identityOk s).bytes = s.bytes := by
  simp [pairackEff]
@[simp] theorem bytes_switchEff (csn : Nat) (s : State) : (switchEff csn s).bytes = s.bytes := by simp [switchEff]
@[simp] theorem bytes_switchackEff (csn : Nat) (s : State) : (switchackEff csn s).bytes = s.bytes := by simp [switchackEff]
@[simp] theorem bytes_segSeeded (nsid seg : Nat) (s : State) : (segSeeded nsid seg s).bytes = s.bytes := (segSeeded_only ..).bytes
@[simp] theorem bytes_storeSeed (nsid seg : Nat) (grains : List GrainRec) (s : State) : (storeSeed nsid seg grains s).bytes = s.bytes := by
  simp [storeSeed]
@[simp] theorem bytes_seedSegmentSendEff (nsid seg : Nat) (grains : List GrainRec) (s : State) :
    (seedSegmentSendEff nsid seg grains s).bytes = s.bytes := by
  simp [seedSegmentSendEff]

/-! Machine/Migration.lean -/

@[simp] theorem bytes_createIngested (d : NsDesc) (s : State) : (createIngested d s).bytes = s.bytes := by simp [createIngested]
@[simp] theorem bytes_migstartEff (src : Nat) (idOk : Bool) (descs : List NsDesc) (s : State) :
    (migstartEff src idOk descs s).bytes = s.bytes := by
  simp [migstartEff]
@[simp] theorem bytes_beginFirst (s : State) : (beginFirst s).bytes = s.bytes := by simp [beginFirst]
@[simp] theorem bytes_migackEff (result : Nat) (s : State) : (migackEff result s).bytes = s.bytes := by simp [migackEff]
@[simp] theorem bytes_migrationSegmentSendEff (nsid seg : Nat) (s : State) : (migrationSegmentSendEff nsid seg s).bytes = s.bytes := by
  simp [migrationSegmentSendEff]
@[simp] theorem bytes_migsegEff (g : GrainRec) (s : State) : (migsegEff g s).bytes = s.bytes := by simp [migsegEff]
@[simp] theorem bytes_seedCompared (nsid seg pass : Nat) (same : Bool) (s : State) :
    (seedCompared nsid seg pass same s).bytes = s.bytes := by
  simp [seedCompared]
@[simp] theorem bytes_segdigEff (nsid seg pass theirs : Nat) (flip : Option (Fin 64)) (s : State) :
    (segdigEff nsid seg pass theirs flip s).bytes = s.bytes := by
  simp [segdigEff]
@[simp] theorem bytes_seedAnswered (nsid seg result : Nat) (s : State) : (seedAnswered nsid seg result s).bytes = s.bytes :=
  (seedAnswered_only ..).bytes
@[simp] theorem bytes_segresEff (nsid seg result : Nat) (s : State) : (segresEff nsid seg result s).bytes = s.bytes := by simp [segresEff]
@[simp] theorem bytes_nextPass (phase : Nat) (s : State) : (nextPass phase s).bytes = s.bytes := (nextPass_only ..).bytes
@[simp] theorem bytes_cutoverMsg (peer n : Nat) (s : State) : (cutoverMsg peer n s).bytes = s.bytes := by unfold cutoverMsg; split <;> simp
@[simp] theorem bytes_sendCutover (s : State) : (sendCutover s).bytes = s.bytes := by simp [sendCutover]
@[simp] theorem bytes_dirtyPassEndEff (s : State) : (dirtyPassEndEff s).bytes = s.bytes := by simp [dirtyPassEndEff]
@[simp] theorem bytes_sinkDone (s : State) : (sinkDone s).bytes = s.bytes := by simp [sinkDone]
@[simp] theorem bytes_cutoverEff (nsid csn nguid eui : Nat) (last : Bool) (s : State) :
    (cutoverEff nsid csn nguid eui last s).bytes = s.bytes := by
  simp [cutoverEff]
@[simp] theorem bytes_cutackEff (count : Nat) (s : State) : (cutackEff count s).bytes = s.bytes := by simp [cutackEff]
@[simp] theorem bytes_migrationRouteTimeoutEff (downMs : Nat) (s : State) : (migrationRouteTimeoutEff downMs s).bytes = s.bytes := by
  simp [migrationRouteTimeoutEff]

/-! Machine/Spdm.lean -/

@[simp] theorem bytes_spdmSend (t code : Nat) (data : List Nat) (s : State) : (spdmSend t code data s).bytes = s.bytes := by simp [spdmSend]
@[simp] theorem bytes_spdmError (t code : Nat) (s : State) : (spdmError t code s).bytes = s.bytes := by simp [spdmError]
@[simp] theorem bytes_spdmAt (t n : Nat) (s : State) : (spdmAt t n s).bytes = s.bytes := (spdmAt_only ..).bytes
@[simp] theorem bytes_spdmReq {body : State → State} (hb : ∀ t, (body t).bytes = t.bytes) (t : Nat) (s : State) :
    (spdmReq t body s).bytes = s.bytes := by
  simp [spdmReq, hb]
@[simp] theorem bytes_spdmAfter {body : State → State} (hb : ∀ t, (body t).bytes = t.bytes) (t : Nat) (s : State) :
    (spdmAfter t body s).bytes = s.bytes := by
  simp [spdmAfter, hb]
@[simp] theorem bytes_tickFrees (n : Nat) (s : State) : (tickFrees n s).bytes = s.bytes := (tickFrees_only ..).bytes
@[simp] theorem bytes_getVersionEff (t : Nat) (s : State) : (getVersionEff t s).bytes = s.bytes := by simp [getVersionEff]
@[simp] theorem bytes_getCapabilitiesEff (t : Nat) (s : State) : (getCapabilitiesEff t s).bytes = s.bytes := by simp [getCapabilitiesEff]
@[simp] theorem bytes_negotiateEff (t asym hash dhe aead : Nat) (s : State) : (negotiateEff t asym hash dhe aead s).bytes = s.bytes := by
  simp [negotiateEff]
@[simp] theorem bytes_getDigestsEff (t : Nat) (s : State) : (getDigestsEff t s).bytes = s.bytes := by simp [getDigestsEff]
@[simp] theorem bytes_getCertificateEff (t slot offset len : Nat) (s : State) :
    (getCertificateEff t slot offset len s).bytes = s.bytes := by
  simp [getCertificateEff]
@[simp] theorem bytes_setCertificateEff (t slot : Nat) (chain : List Byte) (leafIsIdentity : Bool) (s : State) :
    (setCertificateEff t slot chain leafIsIdentity s).bytes = s.bytes := by
  simp [setCertificateEff]
@[simp] theorem bytes_spdmDraw {body : State → State} (hb : ∀ t, (body t).bytes = t.bytes) (i : SpdmHeld) (s : State) :
    (spdmDraw i body s).bytes = s.bytes := by
  simp [spdmDraw, hb]
@[simp] theorem bytes_challengeEff (t slot nonce : Nat) (s : State) : (challengeEff t slot nonce s).bytes = s.bytes := by
  simp [challengeEff]
@[simp] theorem bytes_measSend (t index : Nat) (signed : Bool) (s : State) : (measSend t index signed s).bytes = s.bytes := by
  simp [measSend]
@[simp] theorem bytes_getMeasurementsEff (t index : Nat) (signed : Bool) (nonce : Nat) (s : State) :
    (getMeasurementsEff t index signed nonce s).bytes = s.bytes := by
  simp [getMeasurementsEff]
@[simp] theorem bytes_keyExchangeEff (t session : Nat) (mutualAuth : Bool) (s : State) :
    (keyExchangeEff t session mutualAuth s).bytes = s.bytes := by
  simp [keyExchangeEff]
@[simp] theorem bytes_finishEff (t session : Nat) (peerIdOk : Bool) (s : State) : (finishEff t session peerIdOk s).bytes = s.bytes := by
  simp [finishEff]
@[simp] theorem bytes_endSessionEff (t session : Nat) (s : State) : (endSessionEff t session s).bytes = s.bytes := by simp [endSessionEff]
@[simp] theorem bytes_spdmAgain (i : SpdmHeld) (s : State) : (spdmAgain i s).bytes = s.bytes := by unfold spdmAgain; split <;> simp
@[simp] theorem bytes_spdmServe (s : State) : (spdmServe s).bytes = s.bytes := by simp [spdmServe]

/-! Machine/Digest.lean -/

@[simp] theorem bytes_finishCtx (i : Nat) (p : DigestParams) (m : List Byte) (s : State) : (finishCtx i p m s).bytes = s.bytes :=
  (finishCtx_only ..).bytes
@[simp] theorem bytes_lengthFail (i : Nat) (s : State) : (lengthFail i s).bytes = s.bytes := (lengthFail_only ..).bytes
@[simp] theorem bytes_digestBlockEff (i : Nat) (block : List Byte) (poisoned last : Bool) (s : State) :
    (digestBlockEff i block poisoned last s).bytes = s.bytes := by
  simp only [digestBlockEff]; (repeat' split) <;> simp
@[simp] theorem bytes_auditStartEff (who : Writer) (s : State) : (auditStartEff who s).bytes = s.bytes := (auditStartEff_only ..).bytes
@[simp] theorem bytes_dgSecAdvanceEff (who : Writer) (s : State) : (dgSecAdvanceEff who s).bytes = s.bytes :=
  (dgSecAdvanceEff_only ..).bytes
@[simp] theorem bytes_ecMaxcorrClrEff (who : Writer) (s : State) : (ecMaxcorrClrEff who s).bytes = s.bytes :=
  (ecMaxcorrClrEff_only ..).bytes

/-! Machine/Mgmt.lean -/

@[simp] theorem bytes_applyLevels (x : SensorSample) (s : State) : (applyLevels x s).bytes = s.bytes := by simp [applyLevels]
@[simp] theorem bytes_applyHostTemp (x : SensorSample) (s : State) : (applyHostTemp x s).bytes = s.bytes := by simp [applyHostTemp]
@[simp] theorem bytes_applySupplyWarn (x : SensorSample) (s : State) : (applySupplyWarn x s).bytes = s.bytes :=
  (applySupplyWarn_only ..).bytes
@[simp] theorem bytes_tripped (ms : List Nat) (s : State) : (tripped ms s).bytes = s.bytes := (tripped_only ..).bytes
@[simp] theorem bytes_mgLogackWriteEff (who : Writer) (seq : Word) (s : State) : (mgLogackWriteEff who seq s).bytes = s.bytes :=
  (mgLogackWriteEff_only ..).bytes

/-! Machine/Mi.lean -/

@[simp] theorem bytes_miOk (data : List Nat) (s : State) : (miOk data s).bytes = s.bytes := (miOk_only ..).bytes

/-! Machine/FaultInj.lean -/

@[simp] theorem bytes_nextOut (r : Nat) (s : State) : (nextOut r s).bytes = s.bytes := (nextOut_only ..).bytes
@[simp] theorem bytes_coreFault (s : State) : (coreFault s).bytes = s.bytes := by simp [coreFault]
@[simp] theorem bytes_engineFault (s : State) : (engineFault s).bytes = s.bytes := by simp [engineFault]
@[simp] theorem bytes_laneFault (ctx : Option Nat) (s : State) : (laneFault ctx s).bytes = s.bytes := by unfold laneFault; split <;> simp
@[simp] theorem bytes_compressFault (s : State) : (compressFault s).bytes = s.bytes := by simp [compressFault]
@[simp] theorem bytes_decompressFault (s : State) : (decompressFault s).bytes = s.bytes := (decompressFault_only ..).bytes
@[simp] theorem bytes_unitFaultEff (unit : UnitFault) (s : State) : (unitFaultEff unit s).bytes = s.bytes := by
  unfold unitFaultEff; (repeat' split) <;> simp
@[simp] theorem bytes_fiWrite {body : State → State} (hb : ∀ t, (body t).bytes = t.bytes) (who : Writer) (off : Nat) (s : State) :
    (fiWrite who off body s).bytes = s.bytes := by
  simp [fiWrite, hb]
@[simp] theorem bytes_fiKeyBad (s : State) : (fiKeyBad s).bytes = s.bytes := (fiKeyBad_only ..).bytes
@[simp] theorem bytes_fiKeyEff (key : BitVec 16) (s : State) : (fiKeyEff key s).bytes = s.bytes := by simp [fiKeyEff]
@[simp] theorem bytes_fiMechWrite (who : Writer) (en : Field) (mech : Nat) (limit : Bool) (value : Nat) (s : State) :
    (fiMechWrite who en mech limit value s).bytes = s.bytes := by
  simp [fiMechWrite]

/-! Machine/RegRead.lean -/

@[simp] theorem bytes_readAt (offset : Nat) (s : State) : (readAt offset s).bytes = s.bytes := (readAt_only ..).bytes
@[simp] theorem bytes_readDevice (addr : Nat) (s : State) : (readDevice addr s).bytes = s.bytes := (readDevice_only ..).bytes
@[simp] theorem bytes_registerReadEff (who : Writer) (offset : Nat) (s : State) : (registerReadEff who offset s).bytes = s.bytes := by
  simp [registerReadEff]

/-! Machine/SetupBus.lean -/

@[simp] theorem bytes_onBit {act : State → State} (ha : ∀ t, (act t).bytes = t.bytes) (f : Field) (value : Nat) (s : State) :
    (onBit f value act s).bytes = s.bytes := by
  simp [onBit, ha]
@[simp] theorem bytes_busModereq (who : Writer) (value : Nat) (s : State) : (busModereq who value s).bytes = s.bytes := by
  unfold busModereq
  split
  · exact bytes_twoStep (by exact fun _ => rfl) ..
  all_goals simp
@[simp] theorem bytes_busOwner (who : Writer) (value : Nat) (s : State) : (busOwner who value s).bytes = s.bytes := by simp [busOwner]
@[simp] theorem bytes_busWincommit (who : Writer) (value : Nat) (s : State) : (busWincommit who value s).bytes = s.bytes := by
  simp [busWincommit]
@[simp] theorem bytes_busFfCmd (who : Writer) (value : Nat) (s : State) : (busFfCmd who value s).bytes = s.bytes := (busFfCmd_only ..).bytes
@[simp] theorem bytes_busFiArm (who : Writer) (value : Nat) (s : State) : (busFiArm who value s).bytes = s.bytes := by simp [busFiArm]
@[simp] theorem bytes_busKick (who : Writer) (s : State) : (busKick who s).bytes = s.bytes := (busKick_only ..).bytes

end Sys2Proof.Machine
end

section
/-! SUPPORT. The byte stores stay canonical: the operations that write bytes or empty a store, every command, and every step. An operation
that leaves the stores alone is rewritten away by its lemma above. Rules R43, R63 to R65, R317. -/
namespace Sys2Proof.Machine
-- Many short theorems elaborated at once would need a thread each.
set_option Elab.async false

/-! Windows and resets: a write into the exported region, and the resets that empty the stores (R43, R317). -/

@[simp] theorem canonical_expWrite (meport off : Nat) (data : List Byte) (ep : Nat → Bool) {s : State} (h : canonical s.bytes = true) :
    canonical (expWrite meport off data ep s).bytes = true := by
  have hr := h
  rw [← bytes_linesWrite meport id (expAddr off s) data.length ep s.me.poisoned s] at hr
  obtain ⟨he, ha, hb⟩ := canonical_mk.mp hr
  exact canonical_mk.mpr ⟨sWf_putBytes off data he, ha, hb⟩

@[simp] theorem canonical_winGo (p : Port) (t : HeldTlp) {s : State} (h : canonical s.bytes = true) :
    canonical (winGo p t s).bytes = true := by
  unfold winGo; (repeat' split) <;> simp [h]

@[simp] theorem canonical_winSubmit (p : Port) (t : HeldTlp) {s : State} (h : canonical s.bytes = true) :
    canonical (winSubmit p t s).bytes = true := by
  simp [winSubmit, h]
@[simp] theorem canonical_releaseHeld (p : Port) {s : State} (h : canonical s.bytes = true) : canonical (releaseHeld p s).bytes = true :=
  canonical_foldl (fun _ t hu => canonical_winSubmit p t hu) _ (by simp [h])
@[simp] theorem canonical_releaseAll {s : State} (h : canonical s.bytes = true) : canonical (releaseAll s).bytes = true := by
  simp [releaseAll, h]
@[simp] theorem canonical_clearIslands (s : State) : canonical (clearIslands s).bytes = true := (rfl)
@[simp] theorem canonical_y9Reset (clean : Bool) (row : Nat) (s : State) : canonical (y9Reset clean row s).bytes = true := by
  simp [y9Reset]
@[simp] theorem canonical_powerOnReset (s : State) : canonical (powerOnReset s).bytes = true := (rfl)
@[simp] theorem canonical_powerFail {s : State} (h : canonical s.bytes = true) : canonical (powerFail s).bytes = true := by
  simp only [powerFail]; (repeat' split) <;> simp [h]
@[simp] theorem canonical_powerOnNow (s : State) : canonical (powerOnNow s).bytes = true := by simp [powerOnNow]
@[simp] theorem canonical_resetFromQuarantine (s : State) : canonical (resetFromQuarantine s).bytes = true := by simp [resetFromQuarantine]
@[simp] theorem canonical_porNAssertEff (lowUs : Nat) {s : State} (h : canonical s.bytes = true) :
    canonical (porNAssertEff lowUs s).bytes = true := by
  simp [porNAssertEff, h]
@[simp] theorem canonical_pwrFailNAssertEff (lowNs : Nat) {s : State} (h : canonical s.bytes = true) :
    canonical (pwrFailNAssertEff lowNs s).bytes = true := by
  simp [pwrFailNAssertEff, h]
@[simp] theorem canonical_drainFlushCompleteEff {s : State} (h : canonical s.bytes = true) :
    canonical (drainFlushCompleteEff s).bytes = true := by
  unfold drainFlushCompleteEff; (repeat' split) <;> simp [h]
@[simp] theorem canonical_twinFenceInDeassertEff {s : State} (h : canonical s.bytes = true) :
    canonical (twinFenceInDeassertEff s).bytes = true := by
  simp [twinFenceInDeassertEff, h]
@[simp] theorem canonical_requestY9Reset {s : State} (h : canonical s.bytes = true) : canonical (requestY9Reset s).bytes = true := by
  unfold requestY9Reset; (repeat' split) <;> simp [h]
@[simp] theorem canonical_genResetY9Eff (who : Writer) (key : BitVec 16) {s : State} (h : canonical s.bytes = true) :
    canonical (genResetY9Eff who key s).bytes = true := by
  simp [genResetY9Eff, h]

/-! Writes into a memory buffer, by the host and by what a command returns (R64, R65). -/

@[simp] theorem canonical_cmbMmioWriteEff (port : Port) (offset : Nat) (data : List Byte) (ep : Bool)
    {s : State} (h : canonical s.bytes = true) :
    canonical (cmbMmioWriteEff port offset data ep s).bytes = true := by
  unfold cmbMmioWriteEff
  split
  · exact h
  dsimp only
  split
  · rw [bytes_poisonRx]; exact canonical_putCmb (fun _ => rfl) (by simpa using h)
  · exact canonical_putCmb (fun _ => rfl) (by simpa using h)
@[simp] theorem canonical_windowTlpReadEff (port : Port) (offset len rid tag : Nat) {s : State} (h : canonical s.bytes = true) :
    canonical (windowTlpReadEff port offset len rid tag s).bytes = true := by
  unfold windowTlpReadEff; (repeat' split) <;> simp [h]
@[simp] theorem canonical_windowTlpWriteEff (port : Port) (offset : Nat) (data : List Byte) (rid : Nat) (ep : Bool)
    {s : State} (h : canonical s.bytes = true) :
    canonical (windowTlpWriteEff port offset data rid ep s).bytes = true := by
  simp only [windowTlpWriteEff]; (repeat' split) <;> simp [h]
@[simp] theorem canonical_cmbPut (p : Port) (parts : List (Nat × Nat × Nat)) (pos : Nat) (bs : List Byte) (ep : Bool)
    {s : State} (h : canonical s.bytes = true) :
    canonical (cmbPut p parts pos bs ep s).bytes = true := by
  refine canonical_foldl (fun t q ht => ?_) _ h
  dsimp only
  split
  · exact canonical_putCmb (fun _ => rfl) (by simpa using ht)
  · exact ht
@[simp] theorem canonical_dataOut (p : Port) (cid : BitVec 16) (pieces : List (Nat × Nat)) (bytes : List Nat)
    {s : State} (h : canonical s.bytes = true) :
    canonical (dataOut p cid pieces bytes s).bytes = true := by
  simp [dataOut, h]
@[simp] theorem canonical_adminData (hd : AdminHdr) (bytes : List Nat) {s : State} (h : canonical s.bytes = true) :
    canonical (adminData hd bytes s).bytes = true := by
  simp [adminData, h]

/-! Admin commands that return data. -/

/-- A command whose data fits its descriptors. -/
theorem canonical_withData {body : State → State} (hb : KeepsCanonical body) (hd : AdminHdr) (len : Nat) {s : State}
    (h : canonical s.bytes = true) : canonical (withData hd len body s).bytes = true := by
  unfold withData; split
  · simp [h]
  · exact hb s h

/-- A command that passes the checks of every admin command. -/
theorem canonical_adminCmd {body : State → State} (hb : KeepsCanonical body) (hd : AdminHdr) (modes : Mode → Bool) (len : Nat)
    {s : State} (h : canonical s.bytes = true) :
    canonical (adminCmd hd modes len body s).bytes = true := by
  simp only [adminCmd]; (repeat' split) <;> simp [h, hb _]
@[simp] theorem canonical_adminPage (hd : AdminHdr) (pg : Page) (off len : Nat) {s : State} (h : canonical s.bytes = true) :
    canonical (adminPage hd pg off len s).bytes = true :=
  canonical_withData (fun t ht => by simp [ht]) hd len h
@[simp] theorem canonical_getLogPageBody (hd : AdminHdr) (lid offset numDwords : Nat) (rae : Bool)
    {s : State} (h : canonical s.bytes = true) :
    canonical (getLogPageBody hd lid offset numDwords rae s).bytes = true := by
  unfold getLogPageBody
  split
  · simp [h]
  split
  · simp [h]
  split
  · simp [h]
  exact canonical_withData (fun t ht => by simp [ht]) hd _ h
@[simp] theorem canonical_identifyBody (hd : AdminHdr) (cns cntid : Nat) {s : State} (h : canonical s.bytes = true) :
    canonical (identifyBody hd cns cntid s).bytes = true := by
  unfold identifyBody; split <;> simp [h]
@[simp] theorem canonical_directiveReceiveBody (hd : AdminHdr) (dtype doper dspec nsr : Nat) {s : State} (h : canonical s.bytes = true) :
    canonical (directiveReceiveBody hd dtype doper dspec nsr s).bytes = true := by
  simp only [directiveReceiveBody]; (repeat' split) <;> simp [h]
@[simp] theorem canonical_getFeaturesBody (hd : AdminHdr) (fid sel : Nat) (dw11 : Word) {s : State} (h : canonical s.bytes = true) :
    canonical (getFeaturesBody hd fid sel dw11 s).bytes = true := by
  unfold getFeaturesBody; (repeat' split) <;> simp [h]
@[simp] theorem canonical_firmwareActivateBody (hd : AdminHdr) (slot : Nat) (img : SlotImage) {s : State} (h : canonical s.bytes = true) :
    canonical (firmwareActivateBody hd slot img s).bytes = true := by
  unfold firmwareActivateBody
  (repeat' split) <;> try simp [h]
  all_goals simp [h, (Only.of_eq2 ‹_› (commitSlot_only ..)).bytes]

/-! I/O commands, whose reads return data. -/

@[simp] theorem canonical_readsOut (n : Ns) (c : IoCmd) (ls : List (Nat × Nat × HostLba)) {s : State} (h : canonical s.bytes = true) :
    canonical (readsOut n c ls s).2.bytes = true := by
  induction ls generalizing s with
  | nil => exact h
  | cons x ls ih =>
    obtain ⟨i, lba, d⟩ := x
    simp only [readsOut]; (repeat' split) <;> exact ih (by simp [h])
@[simp] theorem canonical_readsDone (id : Nat) {s : State} (h : canonical s.bytes = true) : canonical (readsDone id s).bytes = true := by
  unfold readsDone
  split
  · exact h
  split
  · simp [h]
  dsimp only
  split
  · simp [h]
  split <;> (repeat' split) <;> simp [h]
@[simp] theorem canonical_startCmd (id : Nat) {s : State} (h : canonical s.bytes = true) : canonical (startCmd id s).bytes = true := by
  unfold startCmd; (repeat' split) <;> simp [h]
@[simp] theorem canonical_admitted (n : Ns) (c : IoCmd) (pages : Bool) (ext : List (Nat × Nat)) {s : State}
    (h : canonical s.bytes = true) : canonical (admitted n c pages ext s).bytes = true := by
  simp [admitted, h]
@[simp] theorem canonical_admitBound (hd : IoHdr) (n : Ns) (c : IoCmd) (bytes : Nat) (pages : Bool)
    {s : State} (h : canonical s.bytes = true) :
    canonical (admitBound hd n c bytes pages s).bytes = true := by
  simp only [admitBound]
  split
  · exact h
  · split
    · simp [h]
    split
    · simp [h]
    split
    · simp [h]
    split <;> simp [h, (Only.of_eq2 ‹_› (grantBufs_only ..)).bytes]
@[simp] theorem canonical_admitLc7 (n : Ns) (c : IoCmd) (bytes : Nat) (pages : Bool) {s : State} (h : canonical s.bytes = true) :
    canonical (admitLc7 n c bytes pages s).bytes = true := by
  unfold admitLc7
  split
  · next c' t ht => exact canonical_admitted _ _ _ _ (by rw [show t.bytes = s.bytes from bytes_tryLc7 ht]; exact h)
  · simp [h]
@[simp] theorem canonical_admission (hd : IoHdr) (n : Ns) (c : IoCmd) (bytes : Nat) {s : State} (h : canonical s.bytes = true) :
    canonical (admission hd n c bytes s).bytes = true := by
  simp only [admission]; (repeat' split) <;> simp [h]
@[simp] theorem canonical_ioRun (hd : IoHdr) (mk : State → IoPlan) {s : State} (h : canonical s.bytes = true) :
    canonical (ioRun hd mk s).bytes = true := by
  simp only [ioRun]; (repeat' split) <;> simp [h]
@[simp] theorem canonical_flushAll (hd : IoHdr) {s : State} (h : canonical s.bytes = true) : canonical (flushAll hd s).bytes = true := by
  simp [flushAll, h]
@[simp] theorem canonical_mapPageLoadedEff (cmd : Nat) {s : State} (h : canonical s.bytes = true) :
    canonical (mapPageLoadedEff cmd s).bytes = true := by
  simp only [mapPageLoadedEff]; (repeat' split) <;> simp [h]
@[simp] theorem canonical_lc7AdmissionRetryEff (cmd : Nat) {s : State} (h : canonical s.bytes = true) :
    canonical (lc7AdmissionRetryEff cmd s).bytes = true := by
  simp only [lc7AdmissionRetryEff]
  (repeat' split) <;> try simp [h]
  all_goals simp [h, bytes_tryLc7 ‹_›]
@[simp] theorem canonical_lbaArrived (cmd lba : Nat) {s : State} (h : canonical s.bytes = true) :
    canonical (lbaArrived cmd lba s).bytes = true := by
  simp only [lbaArrived]; (repeat' split) <;> simp [h]
@[simp] theorem canonical_roundDone (cmd lba : Nat) (n : Ns) (e : MapEntry) (c : IoCmd) (result : DecodeResult) {s : State}
    (h : canonical s.bytes = true) : canonical (roundDone cmd lba n e c result s).bytes = true := by
  have hall (t : State) (ht : canonical t.bytes = true) :
      canonical ((grainLbas n c lba).foldl (fun t x => lbaArrived cmd x t) t).bytes = true :=
    canonical_foldl (fun u x hu => canonical_lbaArrived cmd x hu) _ ht
  simp only [roundDone]; (repeat' split) <;> simp [h, hall]
@[simp] theorem canonical_readRoundDoneEff (cmd lba : Nat) (result : DecodeResult) {s : State} (h : canonical s.bytes = true) :
    canonical (readRoundDoneEff cmd lba result s).bytes = true := by
  simp only [readRoundDoneEff]; (repeat' split) <;> simp [h]

/-! Frets, and frames that write the exported region or let window accesses go (R71, R317). -/

@[simp] theorem bytes_ctxTick (s : State) : (ctxTick s).bytes = s.bytes := (ctxTick_only ..).bytes
@[simp] theorem canonical_fretTickEff {s : State} (h : canonical s.bytes = true) : canonical (fretTickEff s).bytes = true := by
  simp [fretTickEff, h]
@[simp] theorem canonical_linkFails (k : Nat) {s : State} (h : canonical s.bytes = true) : canonical (linkFails k s).bytes = true := by
  simp [linkFails, h]
@[simp] theorem canonical_frameResendTimeoutEff (vc dst xseq : Nat) {s : State} (h : canonical s.bytes = true) :
    canonical (frameResendTimeoutEff vc dst xseq s).bytes = true := by
  unfold frameResendTimeoutEff; split <;> simp [h]
@[simp] theorem canonical_nakEff (vc src xseq cause : Nat) {s : State} (h : canonical s.bytes = true) :
    canonical (nakEff vc src xseq cause s).bytes = true := by
  unfold nakEff; split <;> simp [h]
@[simp] theorem canonical_takeAck (k ackseq : Nat) (nak : Bool) {s : State} (h : canonical s.bytes = true) :
    canonical (takeAck k ackseq nak s).bytes = true := by
  simp [takeAck, h]
@[simp] theorem canonical_flitReceivedEff (k : Nat) (b : List Byte) {s : State} (h : canonical s.bytes = true) :
    canonical (flitReceivedEff k b s).bytes = true := by
  simp [flitReceivedEff, h]
@[simp] theorem canonical_writeRun (hd : FrameHdr) (offset : Nat) (data : List Byte) {s : State} (h : canonical s.bytes = true) :
    canonical (writeRun hd offset data s).bytes = true := by
  simp [writeRun, h]
@[simp] theorem canonical_frameRun (c : Instr) {s : State} (h : canonical s.bytes = true) : canonical (frameRun c s).bytes = true := by
  unfold frameRun; split <;> simp [h]
@[simp] theorem canonical_deliverHeld (vc src n : Nat) {s : State} (h : canonical s.bytes = true) :
    canonical (deliverHeld vc src n s).bytes = true := by
  induction n generalizing s with
  | zero => exact h
  | succ n ih =>
    simp only [deliverHeld]
    split
    · exact h
    · exact ih (by simp [h])
@[simp] theorem canonical_receive (hd : FrameHdr) (lenGood : Bool) (c : Instr) {s : State} (h : canonical s.bytes = true) :
    canonical (receive hd lenGood c s).bytes = true := by
  simp [receive, h]
@[simp] theorem canonical_resyncEff (vc src nextXseq : Nat) {s : State} (h : canonical s.bytes = true) :
    canonical (resyncEff vc src nextXseq s).bytes = true := by
  simp [resyncEff, h]

/-! Commands and register writes that reset. -/

@[simp] theorem canonical_sensorSampleEff (x : SensorSample) {s : State} (h : canonical s.bytes = true) :
    canonical (sensorSampleEff x s).bytes = true := by
  simp [sensorSampleEff, applyHardware, h]
@[simp] theorem canonical_miCommit (hd : AdminHdr) (slot ca : Nat) (img : SlotImage) {s : State} (h : canonical s.bytes = true) :
    canonical (miCommit hd slot ca img s).bytes = true := by
  unfold miCommit; split <;> simp [h]
@[simp] theorem canonical_miAdmin (hd : AdminHdr) (opcode : Nat) (cdw : List Nat) (img : SlotImage)
    {s : State} (h : canonical s.bytes = true) :
    canonical (miAdmin hd opcode cdw img s).bytes = true := by
  simp only [miAdmin]
  split
  · exact canonical_adminCmd (fun _ ht => canonical_identifyBody _ _ _ ht) hd _ _ h
  · exact canonical_adminCmd (fun _ ht => canonical_getLogPageBody _ _ _ _ _ ht) hd _ _ h
  · exact canonical_adminCmd (fun _ ht => canonical_getFeaturesBody _ _ _ _ ht) hd _ _ h
  · simp [h]
  · exact canonical_adminCmd (fun _ ht => canonical_miCommit _ _ _ _ ht) hd _ _ h
  all_goals simp [h]
@[simp] theorem canonical_busAction (who : Writer) (off value : Nat) {s : State} (h : canonical s.bytes = true) :
    canonical (busAction who off value s).bytes = true := by
  have hreset : canonical (busReset who value s).bytes = true := by unfold busReset; (repeat' split) <;> simp [h]
  simp [busAction, h, hreset]
@[simp] theorem canonical_writeAt (who : Writer) (offset : Nat) (value : Word) (poisoned : Bool)
    {s : State} (h : canonical s.bytes = true) :
    canonical (writeAt who offset value poisoned s).bytes = true := by
  simp [writeAt, busWrite, h]
@[simp] theorem canonical_writeDevice (addr : Nat) (value : Word) {s : State} (h : canonical s.bytes = true) :
    canonical (writeDevice addr value s).bytes = true := by
  unfold writeDevice; split <;> simp [h]
@[simp] theorem canonical_registerWriteEff (who : Writer) (offset : Nat) (value : Word) (poisoned : Bool)
    {s : State} (h : canonical s.bytes = true) :
    canonical (registerWriteEff who offset value poisoned s).bytes = true := by
  simp [registerWriteEff, h]

/-! Every command. -/

/-- What the fabric brings. -/
theorem canonical_onFabric {f : State → State} (hf : KeepsCanonical f) {s : State}
    (h : canonical s.bytes = true) : canonical (onFabric f s).bytes = true := by
  simp [onFabric, hf s h, h]

/-- What NVMe-MI brings. -/
theorem canonical_miAnswer {f : State → State} (hf : KeepsCanonical f) {s : State}
    (h : canonical s.bytes = true) : canonical (miAnswer f s).bytes = true := by
  simp [miAnswer, hf s h, h]

/-- An outcome whose change names neither the memories nor the ports. -/
theorem Only.canonical {w : List Fld} {s : State} {o : Host.Outcome State Fault Refusal} (ho : ∃ t, o = .next t ∧ Only w s t)
    (h : Machine.canonical s.bytes = true) (hm : covered w .me = false := by rfl) (hh : covered w .he = false := by rfl) :
    ∃ t, o = .next t ∧ Machine.canonical t.bytes = true := by
  obtain ⟨t, ht, honly⟩ := ho
  exact ⟨t, ht, by rw [honly.bytes hm hh]; exact h⟩

/-- Every command keeps the canonical form: by its frame where that names neither the memories nor the ports, else by the lemma of its
effect. -/
theorem exec_canonical (c : Instr) {s : State} (h : canonical s.bytes = true) : ∃ t, exec c s = .next t ∧ canonical t.bytes = true := by
  cases c with
  | porNAssert => exact ⟨_, rfl, by simp [h]⟩
  | porNDeassert => exact ⟨_, rfl, by simp [h]⟩
  | pwrFailNAssert => exact ⟨_, rfl, by simp [h]⟩
  | pwrFailNDeassert => exact ⟨_, rfl, by simp [h]⟩
  | drainFlushComplete => exact ⟨_, rfl, by simp [h]⟩
  | twinFenceInAssert => exact ⟨_, rfl, by simp [h]⟩
  | twinFenceInDeassert => exact ⟨_, rfl, by simp [h]⟩
  | twinHbInChange => exact Only.canonical (execTwinHbInChange_only ..) h
  | tsyncInEdge => exact Only.canonical (execTsyncInEdge_only ..) h
  | huGoodDeassert => exact ⟨_, rfl, by simp [h]⟩
  | huGoodReassert => exact Only.canonical (execHuGoodReassert_only ..) h
  | huSenseBelowVLow => exact ⟨_, rfl, by simp [h]⟩
  | holdupVerificationStart => exact Only.canonical (execHoldupVerificationStart_only ..) h
  | holdupVerificationEnd => exact ⟨_, rfl, by simp [h]⟩
  | heRefclkLoss => exact ⟨_, rfl, by simp [h]⟩
  | gfRefclkLoss => exact ⟨_, rfl, by simp [h]⟩
  | mgXtalLoss => exact ⟨_, rfl, by simp [h]⟩
  | dramChannelTrainingLoss => exact ⟨_, rfl, by simp [h]⟩
  | bootImageVerify => exact Only.canonical (execBootImageVerify_only ..) h
  | hostIslandRelease => exact Only.canonical (execHostIslandRelease_only ..) h
  | dramTraining => exact ⟨_, rfl, by simp [h]⟩
  | channelTraining => exact ⟨_, rfl, by simp [h]⟩
  | journalRootRead => exact Only.canonical (execJournalRootRead_only ..) h
  | residentMapLoad => exact Only.canonical (execResidentMapLoad_only ..) h
  | mapRecovery => exact ⟨_, rfl, by simp [h]⟩
  | halfErasedBlockRedo => exact ⟨_, rfl, by simp [h]⟩
  | openStripeCompletion => exact ⟨_, rfl, by simp [h]⟩
  | startupComplete => exact ⟨_, rfl, by simp [h]⟩
  | genResetY9 => exact ⟨_, rfl, by simp [h]⟩
  | genResetManagement => exact ⟨_, rfl, by simp [h]⟩
  | watchdogExpiry => exact ⟨_, rfl, by simp [h]⟩
  | lockstepMismatch => exact ⟨_, rfl, by simp [h]⟩
  | conventionalReset => exact ⟨_, rfl, by simp [h]⟩
  | functionLevelReset => exact ⟨_, rfl, by simp [h]⟩
  | ccEnSet => exact ⟨_, rfl, by simp [h]⟩
  | ccEnClear => exact Only.canonical (execCcEnClear_only ..) h
  | shutdownNotification => exact ⟨_, rfl, by simp [h]⟩
  | genModereqDiagnostic => exact Only.canonical (execGenModereqDiagnostic_only ..) h
  | diagnosticEntry => exact ⟨_, rfl, by simp [h]⟩
  | genModereqService => exact ⟨_, rfl, by simp [h]⟩
  | genModereqQuarantine => exact ⟨_, rfl, by simp [h]⟩
  | genModereqProvision => exact ⟨_, rfl, by simp [h]⟩
  | modereqKeyTimeout => exact Only.canonical (execModereqKeyTimeout_only ..) h
  | provisioningCommit => exact ⟨_, rfl, by simp [h]⟩
  | genOwnerClaim => exact Only.canonical (execGenOwnerClaim_only ..) h
  | genOwnerRelease => exact Only.canonical (execGenOwnerRelease_only ..) h
  | genOwnerSeize => exact ⟨_, rfl, by simp [h]⟩
  | genOwnerSeizedClear => exact Only.canonical (execGenOwnerSeizedClear_only ..) h
  | registerWrite => exact ⟨_, rfl, by simp [h]⟩
  | latchingRead => exact ⟨_, rfl, by simp [h]⟩
  | stagedCommitPoint => exact Only.canonical (execStagedCommitPoint_only ..) h
  | bar0BadAccess => exact ⟨_, rfl, by simp [h]⟩
  | configBarWrite => exact ⟨_, rfl, by simp [h]⟩
  | sqTailDoorbell => exact ⟨_, rfl, by simp [h]⟩
  | cqHeadDoorbell => exact ⟨_, rfl, by simp [h]⟩
  | sqeFetch => exact ⟨_, rfl, by simp [h]⟩
  | pollRound => exact ⟨_, rfl, by simp [h]⟩
  | pollCompletion => exact ⟨_, rfl, by simp [h]⟩
  | pollStop => exact ⟨_, rfl, by simp [h]⟩
  | cmbMmioRead => exact ⟨_, rfl, by simp [h]⟩
  | cmbMmioWrite => exact ⟨_, rfl, by simp [h]⟩
  | windowTlpRead => exact ⟨_, rfl, by simp [h]⟩
  | windowTlpWrite => exact ⟨_, rfl, by simp [h]⟩
  | windowWriteAck => exact ⟨_, rfl, by simp [h]⟩
  | unsupportedTlp => exact ⟨_, rfl, by simp [h]⟩
  | malformedTlp => exact ⟨_, rfl, by simp [h]⟩
  | heWincommitA => exact ⟨_, rfl, by simp [h]⟩
  | heWincommitB => exact ⟨_, rfl, by simp [h]⟩
  | windowCopyDone => exact ⟨_, rfl, by simp [h]⟩
  | heWinlogClr => exact Only.canonical (execHeWinlogClr_only ..) h
  | hostReadCompletion => exact ⟨_, rfl, by simp [h]⟩
  | hostReadTimeout => exact ⟨_, rfl, by simp [h]⟩
  | linkTrained => exact ⟨_, rfl, by simp [h]⟩
  | linkRecoveryEntry => exact ⟨_, rfl, by simp [h]⟩
  | linkRecoveryExit => exact ⟨_, rfl, by simp [h]⟩
  | surpriseDown => exact ⟨_, rfl, by simp [h]⟩
  | l0pWidthChange => exact ⟨_, rfl, by simp [h]⟩
  | aspmL1Entry => exact ⟨_, rfl, by simp [h]⟩
  | d3hotEntry => exact ⟨_, rfl, by simp [h]⟩
  | doeRequest => exact ⟨_, rfl, by simp [h]⟩
  | doeAbort => exact ⟨_, rfl, by simp [h]⟩
  | deleteIoSq => exact ⟨_, rfl, by simp [h]⟩
  | createIoSq => exact ⟨_, rfl, by simp [h]⟩
  | getLogPage => exact ⟨_, rfl, canonical_adminCmd (fun _ ht => by simp [ht]) _ _ _ h⟩
  | deleteIoCq => exact ⟨_, rfl, by simp [h]⟩
  | createIoCq => exact ⟨_, rfl, by simp [h]⟩
  | identify => exact ⟨_, rfl, canonical_adminCmd (fun _ ht => by simp [ht]) _ _ _ h⟩
  | abort => exact ⟨_, rfl, by simp [h]⟩
  | setFeaturesArbitration => exact ⟨_, rfl, by simp [h]⟩
  | setFeaturesPowerManagement => exact ⟨_, rfl, by simp [h]⟩
  | powerStateEntry => exact ⟨_, rfl, by simp [h]⟩
  | setFeaturesTemperatureThreshold => exact ⟨_, rfl, by simp [h]⟩
  | setFeaturesVolatileWriteCache => exact ⟨_, rfl, by simp [h]⟩
  | setFeaturesNumberOfQueues => exact ⟨_, rfl, by simp [h]⟩
  | setFeaturesInterruptCoalescing => exact ⟨_, rfl, by simp [h]⟩
  | setFeaturesInterruptVectorConfig => exact ⟨_, rfl, by simp [h]⟩
  | setFeaturesAsyncEventConfig => exact ⟨_, rfl, by simp [h]⟩
  | setFeaturesLatencyClassTable => exact ⟨_, rfl, by simp [h]⟩
  | setFeaturesQueueLatencyBinding => exact ⟨_, rfl, by simp [h]⟩
  | setFeaturesWriteCacheProtection => exact ⟨_, rfl, by simp [h]⟩
  | getFeatures => exact ⟨_, rfl, canonical_adminCmd (fun _ ht => by simp [ht]) _ _ _ h⟩
  | asynchronousEventRequest => exact ⟨_, rfl, by simp [h]⟩
  | namespaceManagementCreate => exact ⟨_, rfl, by simp [h]⟩
  | namespaceManagementDelete => exact ⟨_, rfl, by simp [h]⟩
  | namespaceAttachment => exact ⟨_, rfl, by simp [h]⟩
  | firmwareImageDownload => exact ⟨_, rfl, by simp [h]⟩
  | firmwareCommitWrite => exact ⟨_, rfl, by simp [h]⟩
  | firmwareCommitWriteSelect => exact ⟨_, rfl, by simp [h]⟩
  | firmwareCommitSelect => exact ⟨_, rfl, by simp [h]⟩
  | firmwareCommitActivate => exact ⟨_, rfl, canonical_adminCmd (fun _ ht => by simp [ht]) _ _ _ h⟩
  | deviceSelfTest => exact ⟨_, rfl, by simp [h]⟩
  | directiveSend => exact ⟨_, rfl, by simp [h]⟩
  | directiveReceive => exact ⟨_, rfl, canonical_adminCmd (fun _ ht => by simp [ht]) _ _ _ h⟩
  | doorbellBufferConfig => exact ⟨_, rfl, by simp [h]⟩
  | formatNvm => exact ⟨_, rfl, by simp [h]⟩
  | formatNvmCryptoErase => exact ⟨_, rfl, by simp [h]⟩
  | sanitizeBlockErase => exact ⟨_, rfl, by simp [h]⟩
  | sanitizeCryptoErase => exact ⟨_, rfl, by simp [h]⟩
  | twinControlPair => exact ⟨_, rfl, by simp [h]⟩
  | twinControlSwitch => exact ⟨_, rfl, by simp [h]⟩
  | twinControlRejoin => exact ⟨_, rfl, by simp [h]⟩
  | twinControlUnpair => exact ⟨_, rfl, by simp [h]⟩
  | twinControlRelease => exact ⟨_, rfl, by simp [h]⟩
  | migrationControlArm => exact ⟨_, rfl, by simp [h]⟩
  | migrationControlStart => exact ⟨_, rfl, by simp [h]⟩
  | migrationControlSeal => exact ⟨_, rfl, by simp [h]⟩
  | migrationControlAbort => exact ⟨_, rfl, by simp [h]⟩
  | migrationControlStatus => exact ⟨_, rfl, by simp [h]⟩
  | migrationControlResolve => exact ⟨_, rfl, by simp [h]⟩
  | sealDevice => exact ⟨_, rfl, by simp [h]⟩
  | unsealDevice => exact ⟨_, rfl, by simp [h]⟩
  | sealNamespace => exact ⟨_, rfl, by simp [h]⟩
  | unsealNamespace => exact ⟨_, rfl, by simp [h]⟩
  | read => exact ⟨_, rfl, by simp [h]⟩
  | write => exact ⟨_, rfl, by simp [h]⟩
  | flush => exact ⟨_, rfl, by simp [h]⟩
  | writeUncorrectable => exact ⟨_, rfl, by simp [h]⟩
  | writeZeroes => exact ⟨_, rfl, by simp [h]⟩
  | datasetManagement => exact ⟨_, rfl, by simp [h]⟩
  | verify => exact ⟨_, rfl, by simp [h]⟩
  | copy => exact ⟨_, rfl, by simp [h]⟩
  | fixityDigest => exact ⟨_, rfl, by simp [h]⟩
  | mapPageLoaded => exact ⟨_, rfl, by simp [h]⟩
  | lc7AdmissionRetry => exact ⟨_, rfl, by simp [h]⟩
  | dcForwardDone => exact ⟨_, rfl, by simp [h]⟩
  | completionPost => exact ⟨_, rfl, by simp [h]⟩
  | partialGrainMerge => exact ⟨_, rfl, by simp [h]⟩
  | wordlineProgramStart => exact ⟨_, rfl, by simp [h]⟩
  | programVerifyDone => exact ⟨_, rfl, by simp [h]⟩
  | gatherTimeout => exact ⟨_, rfl, by simp [h]⟩
  | barrelOpen => exact Only.canonical (execBarrelOpen_only ..) h
  | readRoundDone => exact ⟨_, rfl, by simp [h]⟩
  | readReadyTimeout => exact ⟨_, rfl, by simp [h]⟩
  | spDieoutWrite => exact ⟨_, rfl, by simp [h]⟩
  | fretTick => exact ⟨_, rfl, by simp [h]⟩
  | suspendRequest => exact Only.canonical (execSuspendRequest_only ..) h
  | vatTurnEnd => exact Only.canonical (execVatTurnEnd_only ..) h
  | groupWordlineBoundary => exact Only.canonical (execGroupWordlineBoundary_only ..) h
  | journalFlush => exact Only.canonical (execJournalFlush_only ..) h
  | journalSegmentDurable => exact ⟨_, rfl, by simp [h]⟩
  | checkpointSweepStart => exact Only.canonical (execCheckpointSweepStart_only ..) h
  | sweepTimeout => exact Only.canonical (execSweepTimeout_only ..) h
  | sweepRootDurable => exact Only.canonical (execSweepRootDurable_only ..) h
  | mapLineRestored => exact ⟨_, rfl, by simp [h]⟩
  | rackingStart => exact ⟨_, rfl, by simp [h]⟩
  | rackdoneDurable => exact Only.canonical (execRackdoneDurable_only ..) h
  | eraseintDurable => exact Only.canonical (execEraseintDurable_only ..) h
  | eraseDone => exact ⟨_, rfl, by simp [h]⟩
  | bottlingStart => exact ⟨_, rfl, by simp [h]⟩
  | vatSlotErase => exact Only.canonical (execVatSlotErase_only ..) h
  | ageRefresh => exact ⟨_, rfl, by simp [h]⟩
  | blockRefresh => exact ⟨_, rfl, by simp [h]⟩
  | v4Reclaim => exact Only.canonical (execV4Reclaim_only ..) h
  | snapshotWrite => exact ⟨_, rfl, by simp [h]⟩
  | snapshotDurable => exact Only.canonical (execSnapshotDurable_only ..) h
  | rebuildStart => exact ⟨_, rfl, by simp [h]⟩
  | rebuildWordlineDone => exact ⟨_, rfl, by simp [h]⟩
  | groupDissolution => exact ⟨_, rfl, by simp [h]⟩
  | sequencerFault => exact ⟨_, rfl, by simp [h]⟩
  | yieldTimeout => exact ⟨_, rfl, by simp [h]⟩
  | channelRetrain => exact Only.canonical (execChannelRetrain_only ..) h
  | retrainStep => exact ⟨_, rfl, by simp [h]⟩
  | patchSetLoad => exact ⟨_, rfl, by simp [h]⟩
  | patchHandoff => exact ⟨_, rfl, by simp [h]⟩
  | bufferAllocate => exact Only.canonical (execBufferAllocate_only ..) h
  | bufferFree => exact ⟨_, rfl, by simp [h]⟩
  | poolRebuildDone => exact Only.canonical (execPoolRebuildDone_only ..) h
  | lineCheckFailure => exact ⟨_, rfl, by simp [h]⟩
  | staleGenerationAccess => exact ⟨_, rfl, by simp [h]⟩
  | mergeEntryTimeout => exact ⟨_, rfl, by simp [h]⟩
  | gareoLinkTrained => exact ⟨_, rfl, by simp [h]⟩
  | flitReceived => exact ⟨_, rfl, canonical_onFabric (fun _ ht => by simp [ht]) h⟩
  | linkSilenceTimeout => exact ⟨_, rfl, by simp [h]⟩
  | linkRetrainDone => exact ⟨_, rfl, by simp [h]⟩
  | linkRetryTimer => exact ⟨_, rfl, by simp [h]⟩
  | ackTimer => exact Only.canonical (execAckTimer_only ..) h
  | frameResendTimeout => exact ⟨_, rfl, canonical_onFabric (fun _ ht => by simp [ht]) h⟩
  | hello link uid candUid candDist epoch pref => exact Only.canonical (execHello_only link uid candUid candDist epoch pref s) h
  | discoveryQuietTimeout => exact ⟨_, rfl, by simp [h]⟩
  | lsr => exact ⟨_, rfl, by simp [h]⟩
  | table => exact Only.canonical (execTable_only ..) h
  | epoch => exact Only.canonical (execEpoch_only ..) h
  | epochApply => exact Only.canonical (execEpochApply_only ..) h
  | resync => exact ⟨_, rfl, canonical_onFabric (fun _ ht => by simp [ht]) h⟩
  | ack => exact ⟨_, rfl, by simp [h]⟩
  | nak => exact ⟨_, rfl, canonical_onFabric (fun _ ht => by simp [ht]) h⟩
  | timeExchangeTimer => exact ⟨_, rfl, by simp [h]⟩
  | time => exact ⟨_, rfl, by simp [h]⟩
  | coordinatorHeartbeat => exact ⟨_, rfl, by simp [h]⟩
  | coordinatorLoss => exact Only.canonical (execCoordinatorLoss_only ..) h
  | gfNodeReassign => exact Only.canonical (execGfNodeReassign_only ..) h
  | rdreq => exact ⟨_, rfl, by simp [h]⟩
  | rdresp => exact ⟨_, rfl, by simp [h]⟩
  | writeFrame => exact ⟨_, rfl, by simp [h]⟩
  | mgmt => exact ⟨_, rfl, by simp [h]⟩
  | mirrorGranules => exact Only.canonical (execMirrorGranules_only ..) h
  | mirrorCommitRecord => exact ⟨_, rfl, by simp [h]⟩
  | mirrorNamespaceOperation => exact ⟨_, rfl, by simp [h]⟩
  | mirrorLatencyClassTable => exact Only.canonical (execMirrorLatencyClassTable_only ..) h
  | mirrorXtsKey nsid wrapped => exact Only.canonical (execMirrorXtsKey_only nsid wrapped s) h
  | mirrorSnapshot => exact Only.canonical (execMirrorSnapshot_only ..) h
  | mirrorRepair => exact ⟨_, rfl, by simp [h]⟩
  | hbSendTimer => exact ⟨_, rfl, by simp [h]⟩
  | hb seq peerState csn => exact Only.canonical (execHb_only seq peerState csn s) h
  | hbPathLost => exact ⟨_, rfl, by simp [h]⟩
  | drainNotice => exact ⟨_, rfl, by simp [h]⟩
  | soloEntry => exact ⟨_, rfl, by simp [h]⟩
  | soloExit => exact ⟨_, rfl, by simp [h]⟩
  | pairreq => exact ⟨_, rfl, by simp [h]⟩
  | pairack => exact ⟨_, rfl, by simp [h]⟩
  | switch => exact ⟨_, rfl, by simp [h]⟩
  | switchack => exact ⟨_, rfl, by simp [h]⟩
  | seedSegmentSend => exact ⟨_, rfl, by simp [h]⟩
  | migstart => exact ⟨_, rfl, by simp [h]⟩
  | migack => exact ⟨_, rfl, by simp [h]⟩
  | migrationSegmentSend => exact ⟨_, rfl, by simp [h]⟩
  | migseg => exact ⟨_, rfl, by simp [h]⟩
  | segdig => exact ⟨_, rfl, by simp [h]⟩
  | segres => exact ⟨_, rfl, by simp [h]⟩
  | dirtyPassEnd => exact ⟨_, rfl, by simp [h]⟩
  | cutover => exact ⟨_, rfl, by simp [h]⟩
  | cutack => exact ⟨_, rfl, by simp [h]⟩
  | migrationAbortMessage => exact ⟨_, rfl, by simp [h]⟩
  | migrationRouteTimeout => exact ⟨_, rfl, by simp [h]⟩
  | stop vc stream => exact Only.canonical (execStop_only vc stream s) h
  | digestContextOpen => exact Only.canonical (execDigestContextOpen_only ..) h
  | digestSaveDone => exact Only.canonical (execDigestSaveDone_only ..) h
  | digestBlock => exact ⟨_, rfl, by simp [h]⟩
  | auditStart => exact Only.canonical (execAuditStart_only ..) h
  | auditPeriodTimer => exact Only.canonical (execAuditPeriodTimer_only ..) h
  | dgSecAdvance => exact Only.canonical (execDgSecAdvance_only ..) h
  | rngHealthFailure => exact Only.canonical (execRngHealthFailure_only ..) h
  | ecMaxcorrClr => exact Only.canonical (execEcMaxcorrClr_only ..) h
  | spSubselWrite => exact Only.canonical (execSpSubselWrite_only ..) h
  | sensorSample => exact ⟨_, rfl, by simp [h]⟩
  | eventLogFlush => exact Only.canonical (execEventLogFlush_only ..) h
  | timeMarkWrite => exact Only.canonical (execTimeMarkWrite_only ..) h
  | mgWdogKick => exact Only.canonical (execMgWdogKick_only ..) h
  | mgLogackWrite => exact Only.canonical (execMgLogackWrite_only ..) h
  | ffRead => exact Only.canonical (execFfRead_only ..) h
  | ffProgram => exact Only.canonical (execFfProgram_only ..) h
  | ffErase => exact Only.canonical (execFfErase_only ..) h
  | ffReadhdr => exact Only.canonical (execFfReadhdr_only ..) h
  | ffOperationDone => exact Only.canonical (execFfOperationDone_only ..) h
  | readNvmeMiDataStructure => exact Only.canonical (execReadNvmeMiDataStructure_only ..) h
  | nvmSubsystemHealthStatusPoll => exact Only.canonical (execNvmSubsystemHealthStatusPoll_only ..) h
  | controllerHealthStatusPoll => exact Only.canonical (execControllerHealthStatusPoll_only ..) h
  | configurationGet => exact Only.canonical (execConfigurationGet_only ..) h
  | configurationSet => exact Only.canonical (execConfigurationSet_only ..) h
  | vpdRead => exact Only.canonical (execVpdRead_only ..) h
  | miTunnelledAdminCommand => exact ⟨_, rfl, canonical_miAnswer (fun _ ht => by simp [ht]) h⟩
  | setupRegisterRead => exact Only.canonical (execSetupRegisterRead_only ..) h
  | setupRegisterWrite => exact ⟨_, rfl, canonical_miAnswer (fun _ ht => by simp [ht]) h⟩
  | eventLogRead => exact Only.canonical (execEventLogRead_only ..) h
  | eventLogAcknowledge => exact Only.canonical (execEventLogAcknowledge_only ..) h
  | getVersion => exact ⟨_, rfl, by simp [h]⟩
  | getCapabilities => exact ⟨_, rfl, by simp [h]⟩
  | negotiateAlgorithms => exact ⟨_, rfl, by simp [h]⟩
  | getDigests => exact ⟨_, rfl, by simp [h]⟩
  | getCertificate => exact ⟨_, rfl, by simp [h]⟩
  | setCertificate => exact ⟨_, rfl, by simp [h]⟩
  | challenge => exact ⟨_, rfl, by simp [h]⟩
  | getMeasurements => exact ⟨_, rfl, by simp [h]⟩
  | keyExchange => exact ⟨_, rfl, by simp [h]⟩
  | finish => exact ⟨_, rfl, by simp [h]⟩
  | endSession => exact ⟨_, rfl, by simp [h]⟩
  | policyCoreFault => exact ⟨_, rfl, by simp [h]⟩
  | fiArmKey => exact ⟨_, rfl, by simp [h]⟩
  | fiDisarm => exact Only.canonical (execFiDisarm_only ..) h
  | fiArmTimeout => exact Only.canonical (execFiArmTimeout_only ..) h
  | fiGfEn => exact Only.canonical (execFiGfEn_only ..) h
  | fiFlEn => exact Only.canonical (execFiFlEn_only ..) h
  | fiPcieEn => exact Only.canonical (execFiPcieEn_only ..) h
  | fiKeySequenceTimeout => exact Only.canonical (execFiKeySequenceTimeout_only ..) h
  | rngHealthRestored => exact ⟨_, rfl, by simp [h]⟩
  | managementResetEnd => exact ⟨_, rfl, by simp [h]⟩
  | configRegisterWrite => exact ⟨_, rfl, by simp [h]⟩
  | aspmL1Exit => exact ⟨_, rfl, by simp [h]⟩
  | cmbmscWrite => exact ⟨_, rfl, by simp [h]⟩
  | deviceSelfTestComplete => exact Only.canonical (execDeviceSelfTestComplete_only ..) h
  | interruptCoalescingTimeout => exact ⟨_, rfl, by simp [h]⟩

/-- A step runs the front command on the rest of the queue, or nothing. -/
theorem step_canonical {s : State} (h : canonical s.bytes = true) : ∃ t, step s = .next t ∧ canonical t.bytes = true := by
  cases hp : s.pending with
  | nil => exact ⟨s, step_nil hp, h⟩
  | cons c rest =>
    rw [step_cons hp]
    exact exec_canonical c (s := { s with pending := rest }) h

/-- Settles O49: every command keeps the canonical form, so every step does. -/
theorem memoryStaysCanonical : Obligations.MemoryStaysCanonical := by
  intro s t hs ht
  obtain ⟨u, hu, hcanonical⟩ := step_canonical (s := s) hs
  cases ht.symm.trans hu
  exact hcanonical

end Sys2Proof.Machine
end

section
/-! SUPPORT. The ports and the controllers: what is read back after a change, what an error report leaves, and which requests a function
answers. Rules R40, R56, R62, R77. -/
namespace Sys2Proof.Machine

/-! One of the two ports or controllers is changed. -/

/-- What was set is read back. -/
@[simp] theorem Two.get_set_self {α : Type} (t : Two α) (p : Port) (x : α) : (t.set p x).get p = x := by cases p <;> rfl

/-- The other one stays. -/
theorem Two.get_set_ne {α : Type} (t : Two α) {p q : Port} (x : α) (h : q ≠ p) : (t.set p x).get q = t.get q := by
  cases p <;> cases q <;> first | rfl | exact absurd rfl h

/-- A port reads back its change. -/
@[simp] theorem port_updPort_self (s : State) (p : Port) (f : HostPort → HostPort) : (s.updPort p f).port p = f (s.port p) :=
  Two.get_set_self ..

/-- A change of one port leaves the other. -/
theorem port_updPort_ne (s : State) {p q : Port} (f : HostPort → HostPort) (h : q ≠ p) : (s.updPort p f).port q = s.port q :=
  Two.get_set_ne _ _ h

/-- An output leaves the ports. -/
@[simp] theorem port_emit (o : Output) (s : State) (p : Port) : (emit o s).port p = s.port p := (rfl)

/-- A count leaves the ports. -/
@[simp] theorem port_bump (f : Field) (s : State) (p : Port) : (bump f s).port p = s.port p := (rfl)

/-- A controller reads back its change. -/
@[simp] theorem con_updCon_self (s : State) (p : Port) (f : Ctl → Ctl) : (s.updCon p f).con p = f (s.con p) := Two.get_set_self ..

/-- A change that does not name the host ports leaves them. -/
theorem Only.port_eq {w : List Fld} {s t : State} (h : Only w s t) (hw : covered w .he = false) (p : Port) : t.port p = s.port p :=
  congrArg (fun he => Two.get he p) (h.keeps .he hw)

/-- A change that does not name the controllers leaves them. -/
theorem Only.con_eq {w : List Fld} {s t : State} (h : Only w s t) (hw : covered w .ctl = false) (p : Port) : t.con p = s.con p :=
  congrArg (fun ctl => Two.get ctl p) (h.keeps .ctl hw)

/-- A frame of places that are no registers leaves every field. -/
theorem covered_reg_of_code_lt {w : List Fld} (f : Field) (h : ∀ g ∈ w, g.code < 62) : covered w (.reg f) = false := by
  refine List.any_eq_false.mpr fun g hg hcov => ?_
  have hcode := h g hg
  unfold Fld.covers at hcov
  split at hcov <;> simp [Fld.code] at hcode hcov
  omega

/-- A command's frame bounds the next state it is known to answer. -/
theorem only_of_next {w : List Fld} {s u : State} {x : Host.Outcome State Fault Refusal} (h : ∃ t, x = .next t ∧ Only w s t)
    (hx : x = .next u) : Only w s u := by
  obtain ⟨t, ht, hw⟩ := h
  cases ht.symm.trans hx
  exact hw

/-! Which requests a function answers. -/

/-- A function that answers memory requests exists, and HE answers. -/
theorem served_of_memOpen {p : Port} {s : State} (h : memOpen p s = true) : portExists p s = true ∧ heAnswers s = true := by
  simp only [memOpen, Bool.and_eq_true] at h
  exact h.1.1

/-- A function that serves its memory buffer and its windows answers memory requests. -/
theorem memOpen_of_memServed {p : Port} {s : State} (h : memServed p s = true) : memOpen p s = true := by
  simp only [memServed, Bool.and_eq_true] at h
  exact h.1

/-! Errors reported to the host (R77). -/

/-- An error report changes the AER registers of its port alone. -/
theorem port_pcieError (p : Port) (bit : Nat) (advisory : Bool) (s : State) :
    ∃ a, (pcieError p bit advisory s).port p = { s.port p with aer := a } := by
  simp only [pcieError]
  split
  · exact ⟨_, port_updPort_self ..⟩
  · exact ⟨_, (port_emit ..).trans (port_updPort_self ..)⟩

/-- A poisoned request received changes the AER registers of its port alone. -/
theorem port_poisonRx (p : Port) (s : State) : ∃ a, (poisonRx p s).port p = { s.port p with aer := a } := port_pcieError ..

/-- R77: an error that is not advisory is sent with the severity AER gives it, unless it is masked. -/
theorem out_pcieError {p : Port} {bit : Nat} {s : State} (h : (s.port p).aer.ueMask.testBit bit = false) :
    (pcieError p bit false s).out = .tlpErr p (if (s.port p).aer.ueSev.testBit bit then 2 else 1) :: s.out := by
  simp [pcieError, h, emit, State.updPort]

/-- A flag that each port has, set before an error report, is on after it. -/
theorem isOn_pcieError_portF (p q : Port) (bit : Nat) (advisory : Bool) {f g : Field} (s : State) (hf : f.width ≠ 0) (hg : g.width ≠ 0) :
    isOn (portF p f g) (pcieError q bit advisory (flagOn (portF p f g) s)) = true := by
  refine isOn_of_only_flagOn (pcieError_only ..) (covered_reg_of_code_lt _ (by decide)) ?_
  cases p
  · exact hf
  · exact hg

/-! Accesses to BAR0 (R62). -/

/-- R62: aligned 32-bit accesses, and aligned 64-bit ones to the 64-bit NVMe registers. -/
theorem bar0Good_iff (off len : Nat) : bar0Good off len = true ↔
    (len = 4 ∧ off % 4 = 0) ∨ (len = 8 ∧ off % 8 = 0 ∧ (off = 0 ∨ off = 0x28 ∨ off = 0x30 ∨ off = 0x50)) := by
  simp [bar0Good, nvme64, or_assoc, and_assoc]

/-- Where the function answers, the access decides. -/
theorem bar0BadAccessEff_open {port : Port} (isRead : Bool) (offset len : Nat) {s : State} (h : memOpen port s = true) :
    bar0BadAccessEff port isRead offset len s = if bar0Good offset len then s else if isRead then caCpl port 0 s
      else flagOn (portF port Reg.HE_ERRSTAT.A_BADMMIO Reg.HE_ERRSTAT.B_BADMMIO) s := by
  obtain ⟨hport, hans⟩ := served_of_memOpen h
  simp [bar0BadAccessEff, h, hport, hans]

/-- The dispatch of BAR0_BAD_ACCESS. -/
theorem exec_bar0BadAccess (port : Port) (isRead : Bool) (offset len : Nat) (s : State) :
    exec (.bar0BadAccess port isRead offset len) s = .next (bar0BadAccessEff port isRead offset len s) := rfl

/-- Settles O58: an open function's answer turns on `bar0Good`, which is R62's condition, and on the direction. -/
theorem bar0Accesses : Obligations.Bar0Accesses := by
  refine ⟨bar0Good_iff, ?_, ?_, ?_⟩
  · -- An accepted access.
    intro port isRead offset len s hopen hgood
    rw [exec_bar0BadAccess, bar0BadAccessEff_open isRead offset len hopen, if_pos hgood]
  · -- A refused read.
    rintro port isRead offset len s hopen hbad rfl
    have he : bar0BadAccessEff port true offset len s = caCpl port 0 s := by
      rw [bar0BadAccessEff_open true offset len hopen, hbad]; rfl
    exact ⟨_, exec_bar0BadAccess .., bar0BadAccessEff_only .., he ▸ rfl, he⟩
  · -- A refused write.
    rintro port isRead offset len s hopen hbad rfl
    rw [exec_bar0BadAccess, bar0BadAccessEff_open false offset len hopen, hbad]
    rfl

end Sys2Proof.Machine
end

section
/-! SUPPORT. The rest of a port's statements: configuration writes, ASPM, CMBMSC, self-tests, interrupt coalescing, and the end of a
management reset. Rules R40, R56, R57, R64, R74, R80, R94, R98, R367. -/
namespace Sys2Proof.Machine

/-! Configuration writes (R40, R56). -/

/-- R56: a port that answers stores the value and completes the request. -/
theorem configRegisterWriteEff_served {port : Port} (reg : Nat) (value : Word) {s : State} (hport : portExists port s = true)
    (hans : heAnswers s = true) :
    configRegisterWriteEff port reg value s = configDone port (configStore port reg value.toNat s) :=
  if_neg (by simp [hport, hans])

/-- R40: a port that does not answer asks for a retry, if anything. -/
theorem configRegisterWriteEff_unserved {port : Port} (reg : Nat) (value : Word) {s : State}
    (h : portExists port s = false ∨ heAnswers s = false) : configRegisterWriteEff port reg value s = configRetry port s :=
  if_pos (by simpa using h)

/-- The dispatch of CONFIG_REGISTER_WRITE. -/
theorem exec_configRegisterWrite (port : Port) (reg : Nat) (value : Word) (s : State) :
    exec (.configRegisterWrite port reg value) s = .next (configRegisterWriteEff port reg value s) := rfl

/-- What a served configuration write comes to, and the port it leaves. -/
theorem exec_configRegisterWrite_served {port : Port} (reg : Nat) (value : Word) {s : State} {h : HostPort}
    (hport : portExists port s = true) (hans : heAnswers s = true) (hstore : (configStore port reg value.toNat s).port port = h) :
    ∃ t, exec (.configRegisterWrite port reg value) s = .next t ∧ Only [.out, .he] s t ∧ t.port port = h ∧
      t = configDone port (configStore port reg value.toNat s) := by
  have he := configRegisterWriteEff_served reg value hport hans
  exact ⟨_, exec_configRegisterWrite .., configRegisterWriteEff_only .., he ▸ hstore, he⟩

/-! Self-tests, interrupt coalescing and the end of a management reset. -/

/-- Taking up a waiting DOE object changes the ports alone. -/
theorem doeResume_mg (p : Port) (s : State) : (doeResume p s).mg = s.mg := (doeResume_only p s).keeps .mg rfl

/-- A running self-test is recorded with its result. -/
theorem selfTestDone_running {p : Port} {k : Nat} (result : Nat) {s : State} (h : (s.con p).selfTest = some k) :
    selfTestDone p result s = s.updCon p (fun c =>
      { c with selfTest := none, selfTests := ((k, result % 16) :: c.selfTests).take 20 }) := by
  simp only [selfTestDone, h]

/-- The end of the self-test on one controller leaves the other. -/
theorem con_selfTestDone_ne {p q : Port} (result : Nat) (s : State) (h : q ≠ p) : (selfTestDone p result s).con q = s.con q := by
  unfold selfTestDone
  split
  · exact Two.get_set_ne _ _ h
  · rfl

/-- Sending an interrupt leaves the controllers. -/
theorem con_msix (p q : Port) (v : Nat) (s : State) : (msix p v s).con q = s.con q := (msix_only p v s).con_eq rfl q

/-- The dispatch of DEVICE_SELF_TEST_COMPLETE. -/
theorem exec_deviceSelfTestComplete (result : Nat) (s : State) :
    exec (.deviceSelfTestComplete result) s = .next (selfTestDone .b result (selfTestDone .a result s)) := rfl

/-- A self-test's end changes the controllers alone. -/
theorem selfTestDone_both_only (result : Nat) (s : State) : Only [.ctl] s (selfTestDone .b result (selfTestDone .a result s)) :=
  (selfTestDone_only ..).trans (selfTestDone_only ..)

/-- A vector with completions pending sends its message. -/
theorem exec_interruptCoalescingTimeout_pending {port : Port} {vector : Nat} {s : State} (h : sGet (s.con port).icPend 0 vector ≠ 0) :
    exec (.interruptCoalescingTimeout port vector) s =
      .next (msix port vector (s.updCon port (fun c => { c with icPend := sPut c.icPend 0 vector 0 }))) :=
  congrArg Host.Outcome.next (if_neg h)

/-- The end of a management reset lets a verified image run and takes up what waited. -/
theorem exec_managementResetEnd_verified {s : State} (hrun : s.mg.run = false) (hboot : s.gen.bootVerified = true) :
    exec .managementResetEnd s = .next (doeResume .b (doeResume .a { s with mg := { s.mg with run := true, wdogAt := now s } })) :=
  congrArg Host.Outcome.next (if_neg (by simp [hrun, hboot]))

/-- Settles O43: each clause is the one branch its hypotheses choose, and the port or controller that branch leaves. -/
theorem portsAndTimers : Obligations.PortsAndTimers := by
  refine ⟨?_, ?_, ?_, ?_, ?_, ?_, ?_, ?_, ?_, ?_, ?_, ?_, ?_, ?_, ?_⟩
  · -- The image runs again.
    intro s hrun hboot
    have he := exec_managementResetEnd_verified hrun hboot
    exact ⟨_, he, only_of_next (execManagementResetEnd_only s) he, (doeResume_mg ..).trans (doeResume_mg ..), rfl⟩
  · -- The image runs already, or is not verified.
    intro s h
    exact congrArg Host.Outcome.next (if_pos (by simpa using h))
  · -- Command.
    rintro port reg value s hport hans rfl
    exact exec_configRegisterWrite_served 0x004 value hport hans (port_updPort_self ..)
  · -- Link Control.
    rintro port reg value s hport hans rfl
    exact exec_configRegisterWrite_served 0x103 value hport hans (port_updPort_self ..)
  · -- A port that does not answer.
    intro port reg value s h
    exact ⟨_, exec_configRegisterWrite .., configRegisterWriteEff_only .., configRegisterWriteEff_unserved reg value h⟩
  · -- ASPM exit.
    intro port s
    exact ⟨_, rfl, only_of_next (execAspmL1Exit_only port s) rfl, port_updPort_self ..⟩
  · -- CMBMSC of a function that answers.
    intro port cmse cba s hopen
    have he : cmbmscWriteEff port cmse cba s = s.updPort port (fun h => { h with cmse := cmse, cba := cba % 2 ^ 64 / 4096 * 4096 }) :=
      if_neg (by simp [hopen])
    exact ⟨_, rfl, cmbmscWriteEff_only .., (congrArg (State.port · port) he).trans (port_updPort_self ..)⟩
  · -- CMBMSC of a function that does not.
    intro port cmse cba s hclosed
    exact congrArg Host.Outcome.next (if_pos (by simp [hclosed]))
  · -- A self-test ends.
    intro result s
    exact ⟨_, exec_deviceSelfTestComplete .., selfTestDone_both_only .., rfl⟩
  · -- A vector with completions pending.
    intro port vector s h
    have he := exec_interruptCoalescingTimeout_pending h
    refine ⟨_, he, only_of_next (execInterruptCoalescingTimeout_only port vector s) he, rfl, ?_⟩
    rw [con_msix, con_updCon_self]
    exact sGet_sPut_self (s.con port).icPend 0 vector 0
  · -- A vector with none.
    intro port vector s h
    exact congrArg Host.Outcome.next (if_pos h)
  · -- Any register.
    intro port reg value s hport hans
    exact ⟨_, exec_configRegisterWrite .., configRegisterWriteEff_only .., configRegisterWriteEff_served reg value hport hans⟩
  · -- Device Control.
    rintro port reg value s hport hans rfl
    exact exec_configRegisterWrite_served 0x101 value hport hans (port_updPort_self ..)
  · -- Device Control 2.
    rintro port reg value s hport hans rfl
    exact exec_configRegisterWrite_served 0x102 value hport hans (port_updPort_self ..)
  · -- A self-test of controller A is recorded.
    intro result k s h
    have hb : (selfTestDone .b result (selfTestDone .a result s)).con .a =
        { s.con .a with selfTest := none, selfTests := ((k, result % 16) :: (s.con .a).selfTests).take 20 } := by
      rw [con_selfTestDone_ne result _ Port.noConfusion, selfTestDone_running (p := .a) (s := s) result h, con_updCon_self]
    exact ⟨_, exec_deviceSelfTestComplete .., selfTestDone_both_only .., congrArg Ctl.selfTest hb, congrArg Ctl.selfTests hb⟩

end Sys2Proof.Machine
end

section
/-! SUPPORT. The host link: read completions and timeouts, training and recovery, Surprise Down, L1, D3hot and the DOE mailbox. Rules R44,
R54 to R59, R65, R76, R77, R80. -/
namespace Sys2Proof.Machine

/-! Completions and timeouts of the host reads that were issued (R76, R77). -/

/-- A completion of no outstanding tag is unexpected. -/
theorem hostReadCompletionEff_unexpected {port : Port} {tag : Nat} (poisoned : Bool) (lbas : List HostLba) (slowNs : Nat) {s : State}
    (h : (s.port port).tags.find? (fun x => x.tag == tag) = none) : hostReadCompletionEff port tag poisoned lbas slowNs s =
      pcieError port aerUnexp true (flagOn (portF port Reg.HE_ERRSTAT.A_UNEXP Reg.HE_ERRSTAT.B_UNEXP) s) := by
  simp only [hostReadCompletionEff, h]

/-- A completion of an outstanding tag frees it if its command is gone, is retried if it is poisoned, and else brings its data. -/
theorem hostReadCompletionEff_outstanding {port : Port} {tag : Nat} (poisoned : Bool) (lbas : List HostLba) (slowNs : Nat) {e : Tag}
    {s : State} (h : (s.port port).tags.find? (fun x => x.tag == tag) = some e) : hostReadCompletionEff port tag poisoned lbas slowNs s =
      if e.dead then issueReads port (dropTag port tag s) else if poisoned then readRetry port e (poisonRx port s)
      else readArrived port e lbas slowNs s := by
  simp only [hostReadCompletionEff, h]

/-- A timeout of an outstanding tag is reported; the tag is freed if its command is gone, and else the read is retried. -/
theorem hostReadTimeoutEff_outstanding {port : Port} {tag : Nat} {e : Tag} {s : State}
    (h : (s.port port).tags.find? (fun x => x.tag == tag) = some e) {u : State}
    (hu : u = pcieError port aerCto false (flagOn (portF port Reg.HE_ERRSTAT.A_CTO Reg.HE_ERRSTAT.B_CTO) s)) :
    hostReadTimeoutEff port tag s = if e.dead then issueReads port (dropTag port tag u) else readRetry port e u := by
  simp only [hostReadTimeoutEff, h, hu]

/-- The dispatch of HOST_READ_COMPLETION. -/
theorem exec_hostReadCompletion (port : Port) (tag : Nat) (poisoned : Bool) (lbas : List HostLba) (slowNs : Nat) (s : State) :
    exec (.hostReadCompletion port tag poisoned lbas slowNs) s = .next (hostReadCompletionEff port tag poisoned lbas slowNs s) := rfl

/-- The dispatch of HOST_READ_TIMEOUT. -/
theorem exec_hostReadTimeout (port : Port) (tag : Nat) (s : State) :
    exec (.hostReadTimeout port tag) s = .next (hostReadTimeoutEff port tag s) := rfl

/-! The link (R54, R58, R59). -/

/-- R54: the state of a port whose link is trained. -/
theorem port_linkTrainedEff {port : Port} (rate width : Nat) (flit : Bool) {s : State} (hport : portExists port s = true)
    (hmode : s.gen.mode ≠ .reset) : (linkTrainedEff port rate width flit s).port port = { s.port port with
      up := true,
      rate := if flit then Nat.min rate (Nat.min (getF Reg.HE_CFG.MAXRATE s) 5)
        else Nat.min (Nat.min rate (Nat.min (getF Reg.HE_CFG.MAXRATE s) 5)) 4,
      width := Nat.min width (if s.pins.bifur then 8 else 16), flit := flit, recovery := false, l1 := false, l12 := false } := by
  rw [linkTrainedEff, if_neg (by simp [hport, hmode])]
  exact port_updPort_self ..

/-- R59: an entry to recovery leaves L1 and is counted. -/
theorem linkRecoveryEntryEff_up {port : Port} {s : State} (hup : (s.port port).up = true) (hrec : (s.port port).recovery = false) :
    linkRecoveryEntryEff port s = bump (portF port Reg.HE_LINKREC_A.COUNT Reg.HE_LINKREC_B.COUNT)
      (s.updPort port (fun h => { h with recovery := true, l1 := false, l12 := false })) :=
  if_pos (by simp [hup, hrec])

/-- R59: the end of a stay in recovery records its duration and extends the commands in flight. -/
theorem linkRecoveryExitEff_recovering {port : Port} (durationUs : Nat) {s : State} (h : (s.port port).recovery = true) :
    linkRecoveryExitEff port durationUs s = extendPort port 2 (1000 * durationUs)
      ((setSat (portF port Reg.HE_LINKREC_A.LAST Reg.HE_LINKREC_B.LAST) durationUs s).updPort port (fun h => { h with recovery := false })) :=
  if_pos h

/-- R58: a width change of a link that is up is accepted and extends the commands in flight. -/
theorem l0pWidthChangeEff_up {port : Port} (width durationNs : Nat) {s : State} (h : (s.port port).up = true) :
    l0pWidthChangeEff port width durationNs s = extendPort port 3 durationNs (s.updPort port (fun h => { h with width := width })) :=
  if_pos h

/-- Extending a port's commands leaves of the port all but the stays it keeps. -/
theorem port_extendPort (p : Port) (cause ns : Nat) (s : State) : ∃ l, (extendPort p cause ns s).port p = { s.port p with stays := l } := by
  have hfold (ids : List Nat) : Only [.cmds, .fs] s (ids.foldl (fun t i => extend i cause ns t) s) :=
    Only.foldl (fun _ _ h => h.trans (extend_only ..)) (Only.refl _ _)
  have hport (ids : List Nat) : (extendHeld p cause ns (ids.foldl (fun t i => extend i cause ns t) s)).port p = s.port p :=
    ((extendHeld_only ..).port_eq rfl p).trans ((hfold ids).port_eq rfl p)
  simp only [extendPort, port_updPort_self, hport]
  exact ⟨_, rfl⟩

/-- A saturating store is read back, cut to the largest value of the field. -/
theorem getF_setSat_self (f : Field) (v : Nat) (s : State) : getF f (setSat f v s) = Nat.min v (2 ^ f.width - 1) := by
  have hfits : Nat.min v (2 ^ f.width - 1) < 2 ^ f.width :=
    lt_of_le_of_lt (Nat.min_le_right _ _) (Nat.sub_lt (Nat.two_pow_pos _) Nat.one_pos)
  rw [setSat, getF_setF_self, Nat.mod_eq_of_lt hfits]

/-! A port goes down (R44, R59). -/

/-- R44: of the commands, those that do not die stay. -/
theorem cmds_killCmds (dead : IoCmd → Bool) (s : State) :
    (killCmds dead s).cmds = s.cmds.filter (fun c => !((s.cmds.filter dead).map (·.id)).contains c.id) := by
  have hrelease (l : List Nat) (u : State) : (l.foldl (fun t i => releaseStaged i t) u).cmds = u.cmds :=
    (Only.foldl (fun _ _ h => h.trans (releaseStaged_only ..)) (Only.refl _ u)).keeps .cmds rfl
  have hclose : (closeFixity ((s.cmds.filter dead).map (·.id)).contains (putBufs ((s.cmds.filter dead).flatMap (·.bufs)) s)).cmds = s.cmds :=
    ((closeFixity_only ..).keeps .cmds rfl).trans ((putBufs_only ..).keeps .cmds rfl)
  exact (hrelease _ _).trans (congrArg _ hclose)

/-- No command that was to die is left. -/
theorem not_dead_of_mem_killCmds {dead : IoCmd → Bool} {s : State} {c : IoCmd} (h : c ∈ (killCmds dead s).cmds) : dead c = false := by
  rw [cmds_killCmds, List.mem_filter] at h
  obtain ⟨hmem, hlive⟩ := h
  by_contra hdead
  have hid : c.id ∈ (s.cmds.filter dead).map (·.id) :=
    List.mem_map_of_mem (List.mem_filter.mpr ⟨hmem, by simpa using hdead⟩)
  rw [List.contains_iff_mem.mpr hid] at hlive
  exact Bool.false_ne_true hlive

/-- Clearing one function ends its commands. -/
theorem cmds_clearQe (p : Port) (s : State) : (clearQe p s).cmds = (killCmds (fun c => decide (c.port = p)) s).cmds := by
  rw [clearQe, State.updCon]

/-- Clearing one function clears its controller. -/
theorem con_clearQe (p : Port) (s : State) : ∃ c : Ctl, ∃ b, (clearQe p s).con p = { c.cleared with cfs := b } :=
  ⟨_, _, (con_updCon_self (killCmds (fun c => decide (c.port = p)) s) p (fun c => { c.cleared with
    cfs := decide ((killCmds (fun c => decide (c.port = p)) s).gen.mode = .quarantine) }))⟩

/-- R59: a port that goes down takes its commands with it. -/
theorem port_ne_of_mem_portDown {p : Port} {s : State} {c : IoCmd} (h : c ∈ (portDown p s).cmds) : c.port ≠ p := by
  have hkeep : (portDown p s).cmds = (clearQe p s).cmds :=
    ((flagOn_only ..).keeps .cmds rfl).trans ((State.updPort_only ..).keeps .cmds rfl)
  rw [hkeep, cmds_clearQe] at h
  exact of_decide_eq_false (not_dead_of_mem_killCmds h)

/-- R59: the controller of a port that goes down is cleared. -/
theorem con_portDown (p : Port) (s : State) : ∃ c : Ctl, ∃ b, (portDown p s).con p = { c.cleared with cfs := b } := by
  rw [portDown, (flagOn_only ..).con_eq rfl, conventionalPort, (State.updPort_only ..).con_eq rfl]
  exact con_clearQe p s

/-- R59: a port that goes down takes its state after a Conventional reset. -/
theorem port_portDown (p : Port) (s : State) : (portDown p s).port p = (s.port p).conventional := by
  rw [portDown, (flagOn_only ..).port_eq rfl, conventionalPort, port_updPort_self, (clearQe_only ..).port_eq rfl]

/-! The DOE mailbox (R80). -/

/-- R80: an object that fits, of the one vendor, waits while a management reset runs, and else is taken. -/
theorem doeRequestEff_served {port : Port} (objType : Nat) {dwords : List Word} {s : State} (hport : portExists port s = true)
    (hans : heAnswers s = true) (hlen : dwords.length ≤ 2048) : doeRequestEff port 1 objType dwords s =
      if (s.port port).doeBusy then s.updPort port (fun h => { h with doeWait := some (objType, dwords) })
      else doeTake port objType dwords s :=
  if_neg (by simp [hport, hans, hlen])

/-- The dispatch of DOE_REQUEST. -/
theorem exec_doeRequest (port : Port) (vendor objType : Nat) (dwords : List Word) (s : State) :
    exec (.doeRequest port vendor objType dwords) s = .next (doeRequestEff port vendor objType dwords s) := rfl

/-! The statement. -/

/-- An entry to recovery reads back as counted. -/
theorem getF_linkRecoveryEntryEff {port : Port} {s : State} (hup : (s.port port).up = true) (hrec : (s.port port).recovery = false) :
    getF (portF port Reg.HE_LINKREC_A.COUNT Reg.HE_LINKREC_B.COUNT) (linkRecoveryEntryEff port s) =
      Nat.min (getF (portF port Reg.HE_LINKREC_A.COUNT Reg.HE_LINKREC_B.COUNT) s + 1) (2 ^ Reg.HE_LINKREC_A.COUNT.width - 1) := by
  rw [linkRecoveryEntryEff_up hup hrec, bump, getF_bumpBy_self]
  cases port <;> rfl

/-- The end of a stay in recovery reads back its duration. -/
theorem getF_linkRecoveryExitEff {port : Port} (durationUs : Nat) {s : State} (h : (s.port port).recovery = true) :
    getF (portF port Reg.HE_LINKREC_A.LAST Reg.HE_LINKREC_B.LAST) (linkRecoveryExitEff port durationUs s) =
      Nat.min durationUs (2 ^ Reg.HE_LINKREC_A.LAST.width - 1) := by
  have hkeep (u : State) (f : HostPort → HostPort) (g : Field) (ns : Nat) :
      getF g (extendPort port 2 ns (u.updPort port f)) = getF g u :=
    (extendPort_only ..).getF_eq (covered_reg_of_code_lt g (by decide))
  rw [linkRecoveryExitEff_recovering durationUs h, hkeep, getF_setSat_self]
  cases port <;> rfl

/-- Settles O16: each clause is the one branch its hypotheses choose; a port that goes down is the one long branch. -/
theorem hostLink : Obligations.HostLink := by
  refine ⟨?_, ?_, ?_, ?_, ?_, ?_, ?_, ?_, ?_, ?_, ?_, ?_, ?_, ?_, ?_, ?_, ?_, ?_, ?_⟩
  · -- A completion of no outstanding tag.
    intro port tag poisoned lbas slowNs s h
    have he := hostReadCompletionEff_unexpected poisoned lbas slowNs h
    exact ⟨_, exec_hostReadCompletion .., (hostReadCompletionEff_only ..).mono (.ofAll (by decide +kernel)),
      he ▸ isOn_pcieError_portF _ _ _ _ s (by decide) (by decide), he⟩
  · -- A completion for a command that is gone.
    intro port tag poisoned lbas slowNs e s h hdead
    exact ⟨_, exec_hostReadCompletion .., (hostReadCompletionEff_only ..).mono (.ofAll (by decide +kernel)),
      (hostReadCompletionEff_outstanding poisoned lbas slowNs h).trans (if_pos hdead)⟩
  · -- A timeout of an outstanding tag.
    intro port tag e s h
    exact ⟨_, exec_hostReadTimeout .., (hostReadTimeoutEff_only ..).mono (.ofAll (by decide +kernel)),
      isOn_pcieError_portF _ _ _ _ s (by decide) (by decide), hostReadTimeoutEff_outstanding h rfl⟩
  · -- A timeout of no outstanding tag.
    intro port tag s h
    rw [exec_hostReadTimeout, hostReadTimeoutEff, h]
  · -- Training ends.
    intro port rate width flit s hport hmode
    have he := port_linkTrainedEff rate width flit hport hmode
    exact ⟨_, rfl, linkTrainedEff_only .., congrArg HostPort.up he, congrArg HostPort.rate he, congrArg HostPort.width he,
      congrArg HostPort.flit he, congrArg HostPort.recovery he, congrArg HostPort.l1 he⟩
  · -- An entry to recovery.
    intro port s hup hrec
    have he : (linkRecoveryEntryEff port s).port port = { s.port port with recovery := true, l1 := false, l12 := false } := by
      rw [linkRecoveryEntryEff_up hup hrec, port_bump]
      exact port_updPort_self ..
    exact ⟨_, rfl, linkRecoveryEntryEff_only .., congrArg HostPort.recovery he, congrArg HostPort.l1 he,
      getF_linkRecoveryEntryEff hup hrec⟩
  · -- The end of a stay in recovery.
    intro port durationUs s hrec
    have he := linkRecoveryExitEff_recovering durationUs hrec
    obtain ⟨l, hport⟩ := port_extendPort port 2 (1000 * durationUs) ((setSat (portF port Reg.HE_LINKREC_A.LAST
      Reg.HE_LINKREC_B.LAST) durationUs s).updPort port (fun h => { h with recovery := false }))
    rw [port_updPort_self] at hport
    exact ⟨_, rfl, linkRecoveryExitEff_only .., he ▸ congrArg HostPort.recovery hport, getF_linkRecoveryExitEff durationUs hrec, he⟩
  · -- Surprise Down of a link that is up.
    intro port s hup
    have he : exec (.surpriseDown port) s = .next (portDown port s) := congrArg Host.Outcome.next (if_pos hup)
    obtain ⟨c, b, hcon⟩ := con_portDown port s
    have hport := port_portDown port s
    exact ⟨_, he, (portDown_only ..).mono (.ofAll (by decide +kernel)), congrArg HostPort.up hport, congrArg Ctl.en hcon,
      congrArg Ctl.sqs hcon, isOn_of_only_flagOn (Only.refl [] _) rfl (by decide), (congrArg HostPort.cmb hport :),
      fun _ hc => port_ne_of_mem_portDown hc⟩
  · -- Surprise Down of a link that is down.
    intro port s hdown
    exact congrArg Host.Outcome.next (if_neg (by simp [hdown]))
  · -- A width change.
    intro port width durationNs s hup
    have he := l0pWidthChangeEff_up width durationNs hup
    obtain ⟨l, hport⟩ := port_extendPort port 3 durationNs (s.updPort port (fun h => { h with width := width }))
    rw [port_updPort_self] at hport
    exact ⟨_, rfl, l0pWidthChangeEff_only .., he ▸ congrArg HostPort.width hport, he ▸ (congrArg HostPort.up hport).trans hup, he⟩
  · -- L1 that the conditions allow.
    intro port idleUs l12 s h
    exact congrArg Host.Outcome.next (if_pos h)
  · -- D3hot of a controller that is off or shut down.
    intro port s hport hrel h
    exact congrArg Host.Outcome.next (if_pos ⟨hport, hrel, by simpa using h⟩)
  · -- D3hot of a controller that is on.
    intro port s hen hshst
    exact congrArg Host.Outcome.next (if_neg (by simp [hen, hshst]))
  · -- A DOE object that is taken.
    rintro port vendor objType dwords s hport hans hlen rfl hbusy
    have he : doeRequestEff port 1 objType dwords s = doeTake port objType dwords s :=
      (doeRequestEff_served objType hport hans hlen).trans (if_neg (by simp [hbusy]))
    refine ⟨_, exec_doeRequest .., doeRequestEff_only .., he, ?_, ?_⟩
    · rintro rfl
      exact he ▸ congrArg HostPort.doeReq (port_updPort_self ..)
    · rintro rfl
      exact he ▸ ⟨congrArg HostPort.doeReq (port_updPort_self ..), congrArg HostPort.doeResp (port_updPort_self ..)⟩
  · -- A DOE object that waits.
    rintro port vendor objType dwords s hport hans hlen rfl hbusy
    rw [exec_doeRequest, doeRequestEff_served objType hport hans hlen, if_pos hbusy]
  · -- A DOE abort.
    exact fun _ _ => rfl
  · -- A poisoned completion.
    intro port tag poisoned lbas slowNs e s h hdead hpoison
    refine ⟨_, exec_hostReadCompletion .., (hostReadCompletionEff_only ..).mono (.ofAll (by decide +kernel)), ?_⟩
    rw [hostReadCompletionEff_outstanding poisoned lbas slowNs h, hdead, hpoison]
    rfl
  · -- A good completion.
    intro port tag poisoned lbas slowNs e s h hdead hgood
    refine ⟨_, exec_hostReadCompletion .., (hostReadCompletionEff_only ..).mono (.ofAll (by decide +kernel)), ?_⟩
    rw [hostReadCompletionEff_outstanding poisoned lbas slowNs h, hdead, hgood]
    rfl
  · -- L1 that the conditions do not allow.
    intro port idleUs l12 s h
    exact congrArg Host.Outcome.next (if_neg (by simp [h]))

end Sys2Proof.Machine
end

section
/-! SUPPORT. The controller memory buffer and the windows: accesses, the order of window accesses, and the window sets. Rules R56, R60, R65
to R71, R75, R77, R78. -/
namespace Sys2Proof.Machine

/-! A posted write arrives (R78). -/

/-- The state a posted write leaves before it is looked at: EP is reported. -/
def writeArrived (port : Port) (ep : Bool) (s : State) : State := if ep then poisonRx port s else s

/-- The report of EP changes the AER registers of its port alone. -/
theorem port_writeArrived (port : Port) (ep : Bool) (s : State) :
    ∃ a, (writeArrived port ep s).port port = { s.port port with aer := a } := by
  cases ep
  · exact ⟨(s.port port).aer, rfl⟩
  · exact port_poisonRx port s

/-! The controller memory buffer (R65, R78). -/

/-- A read within the buffer of a function that serves it completes the open merge entries first; poison is counted, and marks the data. -/
theorem cmbMmioReadEff_served {port : Port} {offset len : Nat} (tag : Nat) {s : State} (hserved : memServed port s = true)
    (hlen : offset + len ≤ cmbBytes port s) {u : State} (hu : u = mergesDone ((linesOf offset len).map (cmbLineKey port)) s) :
    cmbMmioReadEff port offset len tag s =
      if (linesOf offset len).any (fun l => (s.port port).cmbPoison.contains l) then
        readCpl port tag offset (getBytes (s.port port).cmb offset len) true
          (bump (portF port Reg.HE_EPCNT.A_COUNT Reg.HE_EPCNT.B_COUNT) (poisonConsumed (offset % 2 ^ 48) u))
      else readCpl port tag offset (getBytes (s.port port).cmb offset len) false u := by
  subst hu
  obtain ⟨hport, hans⟩ := served_of_memOpen (memOpen_of_memServed hserved)
  have hmerge := (mergesDone_only ((linesOf offset len).map (cmbLineKey port)) s).port_eq rfl port
  have hpoison (u : State) : (poisonConsumed (offset % 2 ^ 48) u).port port = u.port port := (poisonConsumed_only ..).port_eq rfl port
  rw [cmbMmioReadEff, if_neg (by simp [hport, hans]), if_neg (by simp [hserved, hlen])]
  simp only [hmerge]
  split
  · next hbad => rw [port_bump, hpoison, hmerge, hbad]
  · next hbad => rw [hmerge, Bool.eq_false_iff.mpr hbad]

/-- Any other read of a port that answers is an Unsupported Request. -/
theorem cmbMmioReadEff_unsupported {port : Port} {offset len : Nat} (tag : Nat) {s : State} (hport : portExists port s = true)
    (hans : heAnswers s = true) (h : memServed port s = false ∨ cmbBytes port s < offset + len) :
    cmbMmioReadEff port offset len tag s = urCpl port tag s := by
  rw [cmbMmioReadEff, if_neg (by simp [hport, hans]), if_pos (by simpa using h)]

/-- The completions of a read leave the ports. -/
theorem port_readCpl (p q : Port) (tag addr : Nat) (data : List Byte) (ep : Bool) (s : State) :
    (readCpl p tag addr data ep s).port q = s.port q := (readCpl_only ..).port_eq rfl q

/-- A write within the buffer of a function that serves it is applied line by line and stores its bytes; EP is reported. -/
theorem cmbMmioWriteEff_served {port : Port} {offset : Nat} {data : List Byte} (ep : Bool) {s : State} (hserved : memServed port s = true)
    (hlen : offset + data.length ≤ cmbBytes port s) : ∃ (u : State) (pl : List Nat), u.port port = s.port port ∧
      cmbMmioWriteEff port offset data ep s =
        writeArrived port ep (u.updPort port (fun h => { h with cmb := putBytes h.cmb offset data, cmbPoison := pl })) := by
  have hlines := linesWrite_only 0 (cmbLineKey port) offset data.length (fun _ => ep) (s.port port).cmbPoison s
  exact ⟨_, _, hlines.port_eq rfl port, if_neg (by simp [hserved, hlen])⟩

/-- The dispatch of CMB_MMIO_READ. -/
theorem exec_cmbMmioRead (port : Port) (offset len tag : Nat) (s : State) :
    exec (.cmbMmioRead port offset len tag) s = .next (cmbMmioReadEff port offset len tag s) := rfl

/-- The dispatch of CMB_MMIO_WRITE. -/
theorem exec_cmbMmioWrite (port : Port) (offset : Nat) (data : List Byte) (ep : Bool) (s : State) :
    exec (.cmbMmioWrite port offset data ep) s = .next (cmbMmioWriteEff port offset data ep s) := rfl

/-! Window accesses (R66, R70, R71). -/

/-- A read through an entry that permits it is submitted. -/
theorem windowTlpReadEff_permitted {port : Port} {offset : Nat} (len rid tag : Nat) {w : Win} {s : State}
    (hserved : memServed port s = true) (hap : isOn Reg.HE_CFG.APMODE s = true) (hwin : findWin (s.port port).active offset = some w)
    (hrd : w.rd = true) : windowTlpReadEff port offset len rid tag s =
      winSubmit port ⟨offset, destOf (w.addr offset) s, true, w.addr offset, len, tag, [], false⟩ s := by
  obtain ⟨hport, hans⟩ := served_of_memOpen (memOpen_of_memServed hserved)
  simp [windowTlpReadEff, hport, hans, hap, hserved, hwin, hrd]

/-- Any other read of a port that answers in window mode is an Unsupported Request. -/
theorem windowTlpReadEff_unsupported {port : Port} {offset : Nat} (len rid tag : Nat) {s : State} (hport : portExists port s = true)
    (hans : heAnswers s = true) (hap : isOn Reg.HE_CFG.APMODE s = true)
    (h : memServed port s = false ∨ ∀ w, findWin (s.port port).active offset = some w → w.rd = false) :
    windowTlpReadEff port offset len rid tag s = urCpl port tag s := by
  rw [windowTlpReadEff, if_neg (by simp [hport, hans, hap])]
  rcases h with hclosed | hrd
  · exact if_pos (by simp [hclosed])
  · split
    · rfl
    · split
      · rfl
      · rename_i w hwin
        exact if_pos (by simp [hrd w hwin])

/-- The report of EP leaves the destination of an address. -/
theorem destOf_writeArrived (addr : Nat) (port : Port) (ep : Bool) (s : State) :
    destOf addr (writeArrived port ep s) = destOf addr s := by
  have hgf : (writeArrived port ep s).gf = s.gf := by
    cases ep
    · rfl
    · exact (poisonRx_only port s).keeps .gf rfl
  rw [destOf, hgf, destOf]

/-- A posted write outside every entry is logged. -/
theorem windowTlpWriteEff_outside {port : Port} {offset : Nat} (data : List Byte) (rid : Nat) (ep : Bool) {s : State}
    (hserved : memServed port s = true) (hap : isOn Reg.HE_CFG.APMODE s = true) (hwin : findWin (s.port port).active offset = none) :
    windowTlpWriteEff port offset data rid ep s = winLog port 0 offset rid (writeArrived port ep s) := by
  obtain ⟨a, ha⟩ := port_writeArrived port ep s
  have hwin' : findWin ((writeArrived port ep s).port port).active offset = none := by rw [ha]; exact hwin
  rw [windowTlpWriteEff, if_neg (by simp [hserved, hap]), ← writeArrived]
  simp only [hwin']

/-- A posted write in an entry is submitted if the entry permits it, and else logged. -/
theorem windowTlpWriteEff_inside {port : Port} {offset : Nat} (data : List Byte) (rid : Nat) (ep : Bool) {w : Win} {s : State}
    (hserved : memServed port s = true) (hap : isOn Reg.HE_CFG.APMODE s = true) (hwin : findWin (s.port port).active offset = some w) :
    windowTlpWriteEff port offset data rid ep s = if w.wr then
        winSubmit port ⟨offset, destOf (w.addr offset) (writeArrived port ep s), false, w.addr offset, data.length, rid, data, ep⟩
          (writeArrived port ep s)
      else winLog port 1 offset rid (writeArrived port ep s) := by
  obtain ⟨a, ha⟩ := port_writeArrived port ep s
  have hwin' : findWin ((writeArrived port ep s).port port).active offset = some w := by rw [ha]; exact hwin
  rw [windowTlpWriteEff, if_neg (by simp [hserved, hap]), ← writeArrived]
  simp only [hwin', ite_not]

/-- R71: an access that must wait joins those that wait. -/
theorem winSubmit_waits {p : Port} {x : HeldTlp} {s : State} (h : mustWait x.dest (s.port p) = true) :
    winSubmit p x s = s.updPort p (fun h => { h with heldTlps := h.heldTlps ++ [x] }) := if_pos h

/-- With no access waiting there is none to submit again. -/
theorem releaseHeld_of_nil {p : Port} {s : State} (h : (s.port p).heldTlps = []) :
    releaseHeld p s = s.updPort p (fun h => { h with heldTlps := [] }) := by
  rw [releaseHeld, h, List.foldl_nil]

/-- The dispatch of WINDOW_TLP_READ. -/
theorem exec_windowTlpRead (port : Port) (offset len rid tag : Nat) (s : State) :
    exec (.windowTlpRead port offset len rid tag) s = .next (windowTlpReadEff port offset len rid tag s) := rfl

/-- The dispatch of WINDOW_TLP_WRITE. -/
theorem exec_windowTlpWrite (port : Port) (offset : Nat) (data : List Byte) (rid : Nat) (ep : Bool) (s : State) :
    exec (.windowTlpWrite port offset data rid ep) s = .next (windowTlpWriteEff port offset data rid ep s) := rfl

/-! The window sets (R67 to R69). -/

/-- The token's holder commits. -/
theorem wincommitEff_held (p : Port) {who : Writer} (copy : Bool) {s : State} (hopen : setupOpen who s = true)
    (hholds : holds who s = true) : wincommitEff p who copy s = winCommit p copy s := by
  simp [wincommitEff, hopen, hholds]

/-- A valid staging set becomes the active one. -/
theorem winCommit_valid {p : Port} (copy : Bool) {s : State} (hport : portExists p s = true) (hbusy : (s.port p).copyBusy = false)
    (hbad : winBad (s.port p).staging s (s.port p).staging = none) : winCommit p copy s =
      flagOff (portF p Reg.HE_WINSTAT.A_BAD Reg.HE_WINSTAT.B_BAD) (s.updPort p (fun h => { h with
        active := h.staging, staging := h.active, winGen := (h.winGen + 1) % 256, copyBusy := copy })) := by
  simp [winCommit, hport, hbusy, hbad]

/-- A flag that was cleared reads 0. -/
theorem getF_flagOff_self (f : Field) (s : State) : getF f (flagOff f s) = 0 := (getF_setF_self f 0 s).trans (Nat.zero_mod _)

/-- A cleared flag leaves the ports. -/
@[simp] theorem port_flagOff (f : Field) (s : State) (p : Port) : (flagOff f s).port p = s.port p := (rfl)

/-- A committed set is active, the former one is staged, the generation counts on and the other port stays. -/
theorem winCommit_valid_port {p q : Port} (copy : Bool) {s : State} (hport : portExists p s = true) (hbusy : (s.port p).copyBusy = false)
    (hbad : winBad (s.port p).staging s (s.port p).staging = none) (hne : q ≠ p) :
    (winCommit p copy s).port p = { s.port p with
      active := (s.port p).staging, staging := (s.port p).active, winGen := ((s.port p).winGen + 1) % 256, copyBusy := copy } ∧
    (winCommit p copy s).port q = s.port q ∧ getF (portF p Reg.HE_WINSTAT.A_BAD Reg.HE_WINSTAT.B_BAD) (winCommit p copy s) = 0 := by
  rw [winCommit_valid copy hport hbusy hbad, port_flagOff, port_flagOff, port_updPort_self, port_updPort_ne _ _ hne]
  exact ⟨rfl, rfl, getF_flagOff_self ..⟩

/-- The dispatch of HE_WINCOMMIT_A. -/
theorem exec_heWincommitA (who : Writer) (copy : Bool) (s : State) :
    exec (.heWincommitA who copy) s = .next (wincommitEff .a who copy s) := rfl

/-- The dispatch of HE_WINCOMMIT_B. -/
theorem exec_heWincommitB (who : Writer) (copy : Bool) (s : State) :
    exec (.heWincommitB who copy) s = .next (wincommitEff .b who copy s) := rfl

/-- Settles O15: each clause is the one branch its hypotheses choose, and what that branch leaves of its port. -/
theorem cmbAndWindows : Obligations.CmbAndWindows := by
  refine ⟨?_, ?_, ?_, ?_, ?_, ?_, ?_, ?_, ?_, ?_, ?_, ?_, ?_, ?_, ?_, ?_, ?_, ?_, ?_, ?_, ?_, ?_, ?_⟩
  · -- A CMB read of good lines.
    intro port offset len tag s hserved hlen hgood
    have he := (cmbMmioReadEff_served tag hserved hlen rfl).trans (if_neg (by simp only [hgood]; exact Bool.false_ne_true))
    refine ⟨_, exec_cmbMmioRead .., (cmbMmioReadEff_only ..).mono (.ofAll (by decide +kernel)), he, ?_⟩
    rw [he, port_readCpl, (mergesDone_only ..).port_eq rfl]
  · -- A CMB read that is not served, or beyond the buffer.
    intro port offset len tag s hport hans h
    have he := cmbMmioReadEff_unsupported tag hport hans h
    exact ⟨_, exec_cmbMmioRead .., (cmbMmioReadEff_only ..).mono (.ofAll (by decide +kernel)), he, he ▸ rfl⟩
  · -- A CMB write.
    intro port offset data ep s hserved hlen
    obtain ⟨u, pl, hu, he⟩ := cmbMmioWriteEff_served ep hserved hlen
    obtain ⟨a, ha⟩ := port_writeArrived port ep (u.updPort port (fun h => { h with cmb := putBytes h.cmb offset data, cmbPoison := pl }))
    rw [← he, port_updPort_self, hu] at ha
    refine ⟨_, exec_cmbMmioWrite .., cmbMmioWriteEff_only .., congrArg HostPort.cmb ha, (congrArg HostPort.active ha :), ?_⟩
    rintro rfl
    exact he ▸ isOn_poisonRx port _
  · -- A CMB write that is not served, or beyond the buffer.
    intro port offset data ep s h
    exact congrArg Host.Outcome.next (if_pos (by simpa using h))
  · -- A window read that its entry permits.
    intro port offset len rid tag w s hserved hap hwin hrd
    exact ⟨_, exec_windowTlpRead .., (windowTlpReadEff_only ..).mono (.ofAll (by decide +kernel)),
      windowTlpReadEff_permitted len rid tag hserved hap hwin hrd⟩
  · -- A window read that is not served, outside every entry, or not permitted.
    intro port offset len rid tag s hport hans hap h
    have he := windowTlpReadEff_unsupported len rid tag hport hans hap h
    exact ⟨_, exec_windowTlpRead .., (windowTlpReadEff_only ..).mono (.ofAll (by decide +kernel)), he, he ▸ rfl⟩
  · -- A window write that must wait.
    intro port offset data rid ep w s hserved hap hwin hwr hwait
    obtain ⟨a, ha⟩ := port_writeArrived port ep s
    have hwait' : mustWait (destOf (w.addr offset) s) ((writeArrived port ep s).port port) = true := by rw [ha]; exact hwait
    have he := (windowTlpWriteEff_inside data rid ep hserved hap hwin).trans (if_pos hwr)
    rw [destOf_writeArrived, winSubmit_waits hwait'] at he
    refine ⟨_, exec_windowTlpWrite .., (windowTlpWriteEff_only ..).mono (.ofAll (by decide +kernel)), ?_⟩
    rw [he, port_updPort_self, ha]
  · -- A window write outside every entry.
    rintro port offset data rid ep s hserved hap hwin rfl
    exact congrArg Host.Outcome.next (windowTlpWriteEff_outside data rid false hserved hap hwin)
  · -- An acknowledgement.
    intro port dest s
    refine ⟨_, rfl, (only_of_next (execWindowWriteAck_only port dest s) rfl).mono (.ofAll (by decide +kernel)), rfl, fun hnone => ?_⟩
    have hnone' : ((s.updPort port (fun h => { h with unacked := h.unacked.erase dest })).port port).heldTlps = [] := by
      rw [port_updPort_self]; exact hnone
    rw [releaseHeld_of_nil hnone', port_updPort_self, port_updPort_self]
    exact ⟨rfl, rfl, rfl⟩
  · -- An unsupported request.
    intro port tag s hport hans
    have he : exec (.unsupportedTlp port tag) s = .next (urCpl port tag s) := congrArg Host.Outcome.next (if_pos ⟨hport, hans⟩)
    exact ⟨_, he, urCpl_only .., rfl, rfl⟩
  · -- A malformed request.
    intro port s hport hmode
    have he : exec (.malformedTlp port) s = .next (pcieError port aerMalformed false s) :=
      congrArg Host.Outcome.next (if_pos ⟨hport, hmode⟩)
    exact ⟨_, he, pcieError_only .., rfl, out_pcieError⟩
  · -- A commit of port A's valid set.
    intro who copy s hopen hholds hbusy hbad
    have he := wincommitEff_held .a copy hopen hholds
    obtain ⟨hport, hother, hflag⟩ := winCommit_valid_port (p := .a) (q := .b) copy rfl hbusy hbad Port.noConfusion
    rw [← he] at hport hother hflag
    exact ⟨_, exec_heWincommitA .., (wincommitEff_only ..).mono (.ofAll (by decide +kernel)), congrArg HostPort.active hport,
      congrArg HostPort.staging hport, congrArg HostPort.winGen hport, congrArg HostPort.copyBusy hport, hother, hflag⟩
  · -- A commit of port B's valid set.
    intro who copy s hopen hholds hdual hbusy hbad
    have he := wincommitEff_held .b copy hopen hholds
    obtain ⟨hport, hother, hflag⟩ := winCommit_valid_port (p := .b) (q := .a) copy hdual hbusy hbad Port.noConfusion
    rw [← he] at hport hother hflag
    exact ⟨_, exec_heWincommitB .., (wincommitEff_only ..).mono (.ofAll (by decide +kernel)), congrArg HostPort.active hport,
      congrArg HostPort.staging hport, congrArg HostPort.winGen hport, congrArg HostPort.copyBusy hport, hother, hflag⟩
  · -- A commit without the token.
    intro who copy s hopen hholds
    have he : wincommitEff .a who copy s = genErr Reg.GEN_ERR.OWNWR wincommitOff who s := by simp [wincommitEff, hopen, hholds]
    rw [exec_heWincommitA, he]
    exact ⟨_, rfl, (genErr_only ..).mono (.ofAll (by decide +kernel)), isOn_genErr _ _ s (by decide) (by decide),
      (genErr_only ..).keeps .he rfl⟩
  · -- The copy of a set ends.
    intro port s hbusy
    have he : exec (.windowCopyDone port) s = .next (s.updPort port (fun h => { h with staging := h.active, copyBusy := false })) :=
      congrArg Host.Outcome.next (if_pos hbusy)
    have hport := port_updPort_self s port (fun h => { h with staging := h.active, copyBusy := false })
    exact ⟨_, he, State.updPort_only .., congrArg HostPort.staging hport, congrArg HostPort.copyBusy hport,
      (congrArg HostPort.active hport :)⟩
  · -- HE_WINLOG.CLR.
    intro who s hopen hholds
    exact congrArg Host.Outcome.next ((if_neg (by simp [hopen])).trans (if_neg (by simp [hholds])))
  · -- A CMB read of poisoned lines.
    intro port offset len tag s hserved hlen hbad
    exact ⟨_, exec_cmbMmioRead .., (cmbMmioReadEff_only ..).mono (.ofAll (by decide +kernel)),
      (cmbMmioReadEff_served tag hserved hlen rfl).trans (if_pos hbad)⟩
  · -- A window write that its entry permits.
    rintro port offset data rid ep w s hserved hap hwin hwr rfl
    exact ⟨_, exec_windowTlpWrite .., (windowTlpWriteEff_only ..).mono (.ofAll (by decide +kernel)),
      (windowTlpWriteEff_inside data rid false hserved hap hwin).trans (if_pos hwr)⟩
  · -- A poisoned one.
    rintro port offset data rid ep w s hserved hap hwin hwr rfl
    exact ⟨_, exec_windowTlpWrite .., (windowTlpWriteEff_only ..).mono (.ofAll (by decide +kernel)),
      (windowTlpWriteEff_inside data rid true hserved hap hwin).trans (if_pos hwr)⟩
  · -- A window write that its entry does not permit.
    rintro port offset data rid ep w s hserved hap hwin hwr rfl
    exact congrArg Host.Outcome.next ((windowTlpWriteEff_inside data rid false hserved hap hwin).trans (if_neg (by simp [hwr])))
  · -- Any commit of port A by the token's holder.
    intro who copy s hopen hholds
    exact ⟨_, exec_heWincommitA .., (wincommitEff_only ..).mono (.ofAll (by decide +kernel)), wincommitEff_held .a copy hopen hholds⟩
  · -- Any commit of port B by the token's holder.
    intro who copy s hopen hholds
    exact ⟨_, exec_heWincommitB .., (wincommitEff_only ..).mono (.ofAll (by decide +kernel)), wincommitEff_held .b copy hopen hholds⟩
  · -- No copy runs.
    intro port s hidle
    exact congrArg Host.Outcome.next (if_neg (by simp [hidle]))

end Sys2Proof.Machine
end

section
/-! SUPPORT. The translation chapter's statements: numbers stored least significant byte first, and the layouts that read back what was
written: map entries, tag entries and the headers of stored forms. Rules R151, R171 and R236. -/
namespace Sys2Proof.Machine

/-! Little-endian numbers. -/

@[simp] theorem length_leBytes (n v : Nat) : (leBytes n v).length = n := by
  induction n generalizing v with
  | zero => rfl
  | succ n ih => simp [leBytes, ih]

/-- `n` bytes hold a number cut to `8 n` bits. -/
theorem leVal_leBytes_mod (n v : Nat) : leVal (leBytes n v) = v % 256 ^ n := by
  induction n generalizing v with
  | zero => simp [leBytes, leVal, Nat.mod_one]
  | succ n ih => simp [leBytes, leVal, ih, Nat.pow_succ', Nat.mod_mul]

/-- A number that fits its bytes is read back. -/
theorem leVal_leBytes {n v : Nat} (h : v < 256 ^ n) : leVal (leBytes n v) = v :=
  (leVal_leBytes_mod n v).trans (Nat.mod_eq_of_lt h)

/-- The field at the beginning of a byte string. -/
@[simp] theorem leField_leBytes_append (n v : Nat) (l : List Byte) : leField (leBytes n v ++ l) 0 n = v % 256 ^ n := by
  simp [leField, leVal_leBytes_mod]

/-- The field that is a whole byte string. -/
@[simp] theorem leField_leBytes (n v : Nat) : leField (leBytes n v) 0 n = v % 256 ^ n := by
  simpa using leField_leBytes_append n v []

/-- A field that begins behind the first part of a byte string. -/
@[simp] theorem leField_append_right {l : List Byte} {off : Nat} (m : List Byte) (n : Nat) (h : l.length ≤ off) :
    leField (l ++ m) off n = leField m (off - l.length) n := by
  simp [leField, List.drop_append, List.drop_of_length_le h]

/-- A field that begins behind the first byte. -/
@[simp] theorem leField_cons_succ (b : Byte) (l : List Byte) (off n : Nat) : leField (b :: l) (off + 1) n = leField l off n := rfl

/-! Flags inside a number. -/

/-- A flag that stands at a place adds that place's weight. -/
theorem ite_eq_mul_toNat (b : Bool) (n : Nat) : (if b then n else 0) = n * b.toNat := by cases b <;> simp

/-- One bit of a number, read by division. -/
theorem testBit_eq_of_div_mod {w i : Nat} {b : Bool} (h : w / 2 ^ i % 2 = b.toNat) : w.testBit i = b := by
  rw [Nat.testBit_eq_decide_div_mod_eq, h]
  cases b <;> rfl

/-! Map entries (R151, Table 6.1). -/

/-- What Table 6.1 asks of an entry that is staged. -/
theorem MapEntry.fits_of_staged {e : MapEntry} (h : e.fits = true) (hs : e.staged = true) :
    e.stidx < 2 ^ 38 ∧ e.die = 0 ∧ e.block = 0 ∧ e.plane = 0 ∧ e.page = 0 ∧ e.goff = 0 := by
  simpa [fits, hs] using (Bool.and_eq_true_iff.mp h).2

/-- What Table 6.1 asks of an entry that is not staged. -/
theorem MapEntry.fits_of_placed {e : MapEntry} (h : e.fits = true) (hs : e.staged = false) :
    e.stidx = 0 ∧ e.die < 2048 ∧ e.block < 16384 ∧ e.plane < 4 ∧ e.page < 2048 ∧ e.goff < 32 := by
  simpa [fits, hs] using (Bool.and_eq_true_iff.mp h).2

/-- What Table 6.1 asks of every entry. -/
theorem MapEntry.fits_common {e : MapEntry} (h : e.fits = true) : e.glen < 256 ∧ e.rgen < 4 ∧ e.vhint < 8 :=
  of_decide_eq_true (Bool.and_eq_true_iff.mp h).1

/-- Bits [42:0] of an entry's word: the index of its staging record, or its location. -/
def MapEntry.low (e : MapEntry) : Nat :=
  if e.staged then e.stidx else e.die + 2 ^ 11 * e.block + 2 ^ 25 * e.plane + 2 ^ 27 * e.page + 2 ^ 38 * e.goff

/-- Bits [58:43] of an entry's word: what every entry has. -/
def MapEntry.high (e : MapEntry) : Nat :=
  e.glen + 2 ^ 8 * e.lost.toNat + 2 ^ 9 * e.dealloc.toNat + 2 ^ 10 * e.rgen + 2 ^ 12 * e.vhint + 2 ^ 15 * e.staged.toNat

theorem MapEntry.low_of_staged {e : MapEntry} (hs : e.staged = true) : e.low = e.stidx := if_pos hs

theorem MapEntry.low_of_placed {e : MapEntry} (hs : e.staged = false) :
    e.low = e.die + 2 ^ 11 * e.block + 2 ^ 25 * e.plane + 2 ^ 27 * e.page + 2 ^ 38 * e.goff := if_neg (by simp [hs])

/-- A word is its two parts: for a staged entry, GOFF is 0 and adds nothing. -/
theorem MapEntry.word_eq {e : MapEntry} (h : e.fits = true) : e.word = e.low + 2 ^ 43 * e.high := by
  simp only [word, high, ite_eq_mul_toNat]
  cases hs : e.staged with
  | true =>
    obtain ⟨-, -, -, -, -, hgoff⟩ := fits_of_staged h hs
    rw [low_of_staged hs, hgoff, if_pos rfl]
    ring
  | false =>
    rw [low_of_placed hs, if_neg Bool.false_ne_true]
    ring

/-- The low part stays below GLEN. -/
theorem MapEntry.low_lt {e : MapEntry} (h : e.fits = true) : e.low < 2 ^ 43 := by
  cases hs : e.staged with
  | true =>
    obtain ⟨hstidx, -⟩ := fits_of_staged h hs
    have := low_of_staged hs
    omega
  | false =>
    obtain ⟨-, hdie, hblock, hplane, hpage, hgoff⟩ := fits_of_placed h hs
    have := low_of_placed hs
    omega

/-- The high part stays below the reserved bits. -/
theorem MapEntry.high_lt {e : MapEntry} (h : e.fits = true) : e.high < 2 ^ 16 := by
  obtain ⟨hglen, hrgen, hvhint⟩ := fits_common h
  have hlost := e.lost.toNat_le
  have hdealloc := e.dealloc.toNat_le
  have hstaged := e.staged.toNat_le
  rw [high]
  omega

/-- A word leaves the reserved bits 0. -/
theorem MapEntry.word_lt {e : MapEntry} (h : e.fits = true) : e.word < 2 ^ 59 := by
  have hlow := low_lt h
  have hhigh := high_lt h
  rw [word_eq h]
  omega

/-- The fields of an entry stand in the bits of a word that Table 6.1 gives them; nothing is said of the reserved bits. -/
structure MapEntry.StandsIn (e : MapEntry) (w : Nat) : Prop where
  glen : w / 2 ^ 43 % 256 = e.glen
  lost : w.testBit 51 = e.lost
  dealloc : w.testBit 52 = e.dealloc
  rgen : w / 2 ^ 53 % 4 = e.rgen
  vhint : w / 2 ^ 55 % 8 = e.vhint
  staged : w.testBit 58 = e.staged
  stidx : e.staged = true → w % 2 ^ 38 = e.stidx
  location : e.staged = false → w % 2 ^ 11 = e.die ∧ w / 2 ^ 11 % 2 ^ 14 = e.block ∧ w / 2 ^ 25 % 4 = e.plane ∧
    w / 2 ^ 27 % 2 ^ 11 = e.page ∧ w / 2 ^ 38 % 32 = e.goff

/-- An entry's word holds its fields, whatever stands in the reserved bits. -/
theorem MapEntry.standsIn_word_add_reserved {e : MapEntry} (h : e.fits = true) (r : Nat) : e.StandsIn (e.word + 2 ^ 59 * r) := by
  obtain ⟨hglen, hrgen, hvhint⟩ := fits_common h
  have hlost := e.lost.toNat_le
  have hdealloc := e.dealloc.toNat_le
  have hstaged := e.staged.toNat_le
  have hlow := low_lt h
  rw [word_eq h, high]
  exact {
    glen := by omega
    lost := testBit_eq_of_div_mod (by omega)
    dealloc := testBit_eq_of_div_mod (by omega)
    rgen := by omega
    vhint := by omega
    staged := testBit_eq_of_div_mod (by omega)
    stidx := fun hs => by
      obtain ⟨hstidx, -⟩ := fits_of_staged h hs
      rw [low_of_staged hs]
      omega
    location := fun hs => by
      obtain ⟨-, hdie, hblock, hplane, hpage, hgoff⟩ := fits_of_placed h hs
      rw [low_of_placed hs]
      omega }

/-- Reading a word in which the fields of an entry stand gives that entry. -/
theorem MapEntry.StandsIn.ofWord_eq {e : MapEntry} {w : Nat} (hw : e.StandsIn w) (h : e.fits = true) : ofWord w = e := by
  obtain ⟨die, block, plane, page, goff, glen, lost, dealloc, rgen, vhint, staged, stidx⟩ := e
  cases staged with
  | true =>
    obtain ⟨-, rfl, rfl, rfl, rfl, rfl⟩ := fits_of_staged h rfl
    simp only [ofWord, hw.glen, hw.lost, hw.dealloc, hw.rgen, hw.vhint, hw.staged, hw.stidx rfl, if_true]
  | false =>
    obtain ⟨rfl, -⟩ := fits_of_placed h rfl
    obtain ⟨hdie, hblock, hplane, hpage, hgoff⟩ := hw.location rfl
    simp only [ofWord, hw.glen, hw.lost, hw.dealloc, hw.rgen, hw.vhint, hw.staged, hdie, hblock, hplane, hpage, hgoff,
      Bool.false_eq_true, if_false]

/-- Settles O53: an entry stands in its own word, whatever the reserved bits hold, and reading gives the entry that stands in a word. -/
theorem mapEntryLayout : Obligations.MapEntryLayout := by
  refine ⟨?_, fun e h r => (MapEntry.standsIn_word_add_reserved h r).ofWord_eq h⟩
  rintro e w h rfl
  have hlt := MapEntry.word_lt h
  have hw : e.StandsIn e.word := MapEntry.standsIn_word_add_reserved h 0
  refine ⟨hlt, leVal_leBytes (hlt.trans (by decide)), length_leBytes .., hw.glen, hw.lost, hw.dealloc, hw.rgen, hw.vhint, hw.staged, ?_,
    hw.ofWord_eq h⟩
  cases hs : e.staged with
  | true => exact hw.stidx hs
  | false => exact hw.location hs

/-! Tag entries (R171, Table 6.8). -/

/-- The flags of a tag entry as a sum. -/
theorem Tag16.flags_eq (t : Tag16) : t.flags = t.nsid + 2 ^ 11 * t.raw.toNat + 2 ^ 12 * t.spans.toNat + 2 ^ 13 * t.marks.toNat +
    2 ^ 14 * t.isMap.toNat := by
  simp only [flags, ite_eq_mul_toNat]

/-- Where the flags stand, and that bit 15 stays 0. -/
theorem Tag16.flags_fields {t : Tag16} (h : t.nsid < 2 ^ 11) :
    t.flags < 2 ^ 15 ∧ t.flags % 2 ^ 11 = t.nsid ∧ t.flags.testBit 11 = t.raw ∧ t.flags.testBit 12 = t.spans ∧
      t.flags.testBit 13 = t.marks ∧ t.flags.testBit 14 = t.isMap := by
  have hraw := t.raw.toNat_le
  have hspans := t.spans.toNat_le
  have hmarks := t.marks.toNat_le
  have hmap := t.isMap.toNat_le
  rw [flags_eq]
  exact ⟨by omega, by omega, testBit_eq_of_div_mod (by omega), testBit_eq_of_div_mod (by omega), testBit_eq_of_div_mod (by omega),
    testBit_eq_of_div_mod (by omega)⟩

/-- A tag entry takes 16 bytes. -/
theorem Tag16.length_bytes (t : Tag16) : t.bytes.length = 16 := by simp [bytes]

/-- A tag entry is read back from its bytes. -/
theorem Tag16.ofBytes_bytes {t : Tag16} (hcsn : t.origCsn < 2 ^ 64) (hgrain : t.grain < 2 ^ 40) (hnsid : t.nsid < 2 ^ 11)
    (hglen : t.glen < 256) : ofBytes t.bytes = t := by
  obtain ⟨hlt, hid, hraw, hspans, hmarks, hmap⟩ := flags_fields hnsid
  have hcsnAt : leField t.bytes 0 8 = t.origCsn := by simpa [bytes] using hcsn
  have hgrainAt : leField t.bytes 8 5 = t.grain := by simpa [bytes] using hgrain
  have hflagsAt : leField t.bytes 13 2 = t.flags := by simp [bytes]; omega
  have hglenAt : leField t.bytes 15 1 = t.glen := by simpa [bytes] using hglen
  simp only [ofBytes, hcsnAt, hgrainAt, hflagsAt, hglenAt, hid, hraw, hspans, hmarks, hmap]

/-! Headers of stored forms (R236, Table 9.3). -/

/-- A header takes 16 bytes. -/
theorem Headed.length_bytes (h : Headed) : h.bytes.length = 16 := by simp [bytes]

/-- A header is read back from its bytes. -/
theorem Headed.ofBytes_bytes {h : Headed} (hver : h.ver < 256) (hsizes : h.sizes < 256) (hmdsz : h.mdsz < 256) (hclen : h.clen < 2 ^ 32)
    (hucrc : h.ucrc < 2 ^ 32) (hmarks : h.marks < 2 ^ 32) : ofBytes h.bytes = h := by
  have hverAt : leField h.bytes 0 1 = h.ver := by simpa [bytes] using hver
  have hsizesAt : leField h.bytes 1 1 = h.sizes := by simpa [bytes] using hsizes
  have hmdszAt : leField h.bytes 2 1 = h.mdsz := by simpa [bytes] using hmdsz
  have hclenAt : leField h.bytes 4 4 = h.clen := by simpa [bytes] using hclen
  have hucrcAt : leField h.bytes 8 4 = h.ucrc := by simpa [bytes] using hucrc
  have hmarksAt : leField h.bytes 12 4 = h.marks := by simpa [bytes] using hmarks
  simp only [ofBytes, hverAt, hsizesAt, hmdszAt, hclenAt, hucrcAt, hmarksAt]

/-- Settles O54: each field lies behind the bytes of the fields before it, and fits its own. -/
theorem tagAndHeaderLayouts : Obligations.TagAndHeaderLayouts :=
  ⟨fun t hcsn hgrain hnsid hglen => ⟨t.length_bytes, Tag16.ofBytes_bytes hcsn hgrain hnsid hglen⟩,
    fun h hver hsizes hmdsz hclen hucrc hmarks => ⟨h.length_bytes, Headed.ofBytes_bytes hver hsizes hmdsz hclen hucrc hmarks⟩⟩

end Sys2Proof.Machine
end

section
/-! SUPPORT. Media management: wordline programs, the gather timeout, barrels, read rounds, and dies that give no ready or are declared
failed. Rules R137, R138, R161, R166, R185 to R190, R204, R215. -/
namespace Sys2Proof.Machine

/-! Wordline programs (R187) and their verification (R185, R188, R190). -/

/-- R187: a member in service of a group that takes QLC programs starts its next row of an opened barrel. -/
theorem wordlineProgramStartEff_starts {barrel member : Nat} {b : OpenBarrel} {g : Group} {r : Row} {fresh : Bool} {s : State}
    (hb : s.mm.openB.find? (fun b => b.num == barrel) = some b) (hg : findGroup (barrelGroup barrel) s = some g)
    (hmode : mediaMode s.gen.mode = true) (hdurable : b.durable = true) (hturn : onTurn g.num s = false)
    (hprep : s.fs.prepared.contains g.num = false) (hwidth : member < g.width)
    (hserves : g.missing.contains member = true → spareServes g member s = true) (hrow : nextRowOf b g member s = some (r, fresh)) :
    wordlineProgramStartEff barrel member s = startMember b g member r fresh s := by
  simp only [wordlineProgramStartEff, hb, hg, hrow]
  refine if_neg ?_
  simpa only [hmode, hdurable, hturn, hprep, Nat.not_le.mpr hwidth, not_true_eq_false, Bool.false_eq_true, false_or, not_and, not_not]
    using hserves

/-- In a mode that serves no media, no program starts. -/
theorem wordlineProgramStartEff_closed (barrel member : Nat) {s : State} (hmode : mediaMode s.gen.mode = false) :
    wordlineProgramStartEff barrel member s = s := by
  unfold wordlineProgramStartEff
  split
  · exact if_pos (.inl (by simp [hmode]))
  · rfl

/-- R188, R190: the program of a barrel's page stores what every member has verified, or retires the block. -/
theorem programVerifyDoneEff_row {die block page : Nat} (pass : Bool) {g : Group} {m : Nat} {x : OpenBarrel} {r : Row} {s : State}
    (hdie : memberOf die s = some (g, m)) (hvat : vatPageAt g m block page s = none)
    (hrow : rowOfProgram g m die block page s = some (x, r)) : programVerifyDoneEff die block page pass s =
      if pass then writeThroughExit (memberPassed x r m (segEnd die s))
      else afterProgram x.num (retireBlock die block 0 (memberFailed x g r.w m (segEnd die s))) := by
  simp only [programVerifyDoneEff, hdie, hvat, hrow]

/-- R185: the program of a booked vat page is one copy of that page. -/
theorem programVerifyDoneEff_vat {die block page : Nat} (pass : Bool) {g : Group} {m : Nat} {v : VatPage} {s : State}
    (hdie : memberOf die s = some (g, m)) (hvat : vatPageAt g m block page s = some v) : programVerifyDoneEff die block page pass s =
      departs (writeThroughExit (vatCopyDone g m die block v pass (ctxPut die .programSlc block page .idle s))) := by
  simp only [programVerifyDoneEff, hdie, hvat]

/-- The dispatch of PROGRAM_VERIFY_DONE. -/
theorem exec_programVerifyDone (die block page : Nat) (pass : Bool) (s : State) :
    exec (.programVerifyDone die block page pass) s = .next (programVerifyDoneEff die block page pass s) := rfl

/-! The gather timeout (R189) and the opening of a barrel (R166, R187, R192). -/

/-- R189: with nothing staged no grain waits. -/
theorem gatherTimeoutEff_of_nil (vintage : Fin 6) {s : State} (h : s.mx.staged = []) : gatherTimeoutEff vintage s = s :=
  if_neg (by simp [h])

/-- R187: a barrel opened is named by an OPEN record; below FREECRIT the flag is set first. -/
theorem barrelOpenEff_opens {vintage : Fin 5} {group : Nat} {g : Group} {r : Nat} {u s : State} (hg : findGroup group s = some g)
    (hu : u = flagIf (freeBelow Reg.MM_RACK.FREECRIT s) Reg.MM_ERR.FREECRIT s) (hmode : mediaMode u.gen.mode = true)
    (hmay : mayOpen g u = true) (hopens : vintageOpens vintage.val u = true) (hmost : mostPending vintage.val u = true)
    (hfree : freeRow g u = some r) : barrelOpenEff vintage group s =
      jAppend (jOpen vintage.val (barrelNum group r) u.mx.csn) { u with mm := { u.mm with
        openB := u.mm.openB ++ [⟨barrelNum group r, group, vintage.val, false, 0, [], false⟩],
        barrels := u.mm.barrels ++ [⟨barrelNum group r, vintage.val, 0, u.mx.csn, false, 0, 0⟩] } } := by
  simp only [barrelOpenEff, hg, ← hu, hmode, hmay, hopens, hmost, hfree, not_true_eq_false, or_self, if_false]

/-- The dispatch of BARREL_OPEN. -/
theorem exec_barrelOpen (vintage : Fin 5) (group : Nat) (s : State) :
    exec (.barrelOpen vintage group) s = .next (barrelOpenEff vintage group s) := rfl

/-! Read rounds (R137 to R140). -/

/-- A read round of an LBA owed does as its decode says, or as fault injection makes of it. -/
theorem readRoundDoneEff_owed {cmd lba : Nat} (result : DecodeResult) {c : IoCmd} {n : Ns} {e : MapEntry} {s : State}
    (hcmd : findCmd cmd s = some c) (hns : findNs c.nsid s = some n) (howed : c.owed.contains lba = true)
    (hview : c.views.find? (fun x => x.1 == lba) = some (lba, .media e)) : readRoundDoneEff cmd lba result s =
      roundDone cmd lba n e c (fiRead (servingDie e.die s) e.glen result s).1 (fiRead (servingDie e.die s) e.glen result s).2 := by
  simp only [readRoundDoneEff, hcmd, hns, howed, hview, not_true_eq_false, if_false]

/-! Dies that give no ready, and SP_DIEOUT (R215). -/

/-- The dispatch of READ_READY_TIMEOUT. -/
theorem exec_readReadyTimeout (die : Nat) (afterRetrain : Bool) (cmd : Option Nat) (s : State) :
    exec (.readReadyTimeout die afterRetrain cmd) s = .next (readReadyTimeoutEff die afterRetrain cmd s) := rfl

/-- R215: a timeout that is not the second after a retrain makes the die a suspect. -/
theorem readReadyTimeoutEff_suspects {die : Nat} {afterRetrain : Bool} {s : State}
    (h : s.sp.suspects.contains die = false ∨ afterRetrain = false) :
    readReadyTimeoutEff die afterRetrain none s = { s with sp := { s.sp with suspects := addOnce s.sp.suspects die } } :=
  if_neg fun ⟨hsuspect, hretrain⟩ => h.elim (fun h => Bool.false_ne_true (h.symm.trans hsuspect))
    (fun h => Bool.false_ne_true (h.symm.trans hretrain))

/-- R215: a suspect that times out again after a retrain is declared failed. -/
theorem readReadyTimeoutEff_fails {die : Nat} {afterRetrain : Bool} {s : State} (hsuspect : s.sp.suspects.contains die = true)
    (hretrain : afterRetrain = true) : readReadyTimeoutEff die afterRetrain none s =
      declareDieFailed die { s with sp := { s.sp with suspects := s.sp.suspects.filter (fun x => x != die) } } :=
  if_pos ⟨hsuspect, hretrain⟩

/-- The dispatch of SP_DIEOUT_WRITE. -/
theorem exec_spDieoutWrite (who : Writer) (die : Nat) (key : BitVec 16) (s : State) :
    exec (.spDieoutWrite who die key) s = .next (spDieoutWriteEff who die key s) := rfl

/-- Table 8.19: a write by the holder of the register is no write without a key, is refused without the right key or for a slot that may not
be named, and else declares the die failed. -/
theorem spDieoutWriteEff_held {who : Writer} (die : Nat) (key : BitVec 16) {s : State} (hopen : setupOpen who s = true)
    (hmay : mayWrite who Reg.SP_DIEOUT.DIE.reg s = true) : spDieoutWriteEff who die key s =
      if key = 0 then s else if key ≠ 0x0D1E ∨ ¬ dieOutOk die s then flagOn Reg.SP_ERR.DIEOUT s else declareDieFailed die s := by
  simp only [spDieoutWriteEff, hopen, hmay, not_true_eq_false, if_false]

/-! The statement. -/

/-- Settles O23: each clause is the one branch its hypotheses choose. -/
theorem programAndBarrels : Obligations.ProgramAndBarrels := by
  refine ⟨?_, ?_, ?_, ?_, ?_, ?_, ?_, ?_, ?_, ?_, ?_, ?_, ?_, ?_, ?_, ?_, ?_, ?_⟩
  · -- A member starts its next row.
    intro barrel member b g r fresh s hb hg hmode hdurable hturn hprep hwidth hserves hrow
    exact ⟨_, rfl, (wordlineProgramStartEff_only ..).mono (.ofAll (by decide +kernel)),
      wordlineProgramStartEff_starts hb hg hmode hdurable hturn hprep hwidth hserves hrow⟩
  · -- A mode that serves no media.
    intro barrel member s hmode
    exact congrArg Host.Outcome.next (wordlineProgramStartEff_closed barrel member hmode)
  · -- The program of a barrel's page.
    intro die block page pass g m x r s hdie hvat hrow
    exact ⟨_, exec_programVerifyDone .., (programVerifyDoneEff_only ..).mono (.ofAll (by decide +kernel)),
      programVerifyDoneEff_row pass hdie hvat hrow⟩
  · -- The program of a vat page.
    intro die block page pass g m v s hdie hvat
    exact ⟨_, exec_programVerifyDone .., (programVerifyDoneEff_only ..).mono (.ofAll (by decide +kernel)),
      programVerifyDoneEff_vat pass hdie hvat⟩
  · -- A die that is no member.
    intro die block page pass s hdie
    rw [exec_programVerifyDone, programVerifyDoneEff, hdie]
  · -- A vintage whose oldest grain has waited its timeout.
    intro vintage s hmode hwaits
    exact ⟨_, rfl, (gatherTimeoutEff_only ..).mono (.ofAll (by decide +kernel)), if_pos ⟨hmode, hwaits⟩⟩
  · -- Nothing staged.
    intro vintage s h
    exact congrArg Host.Outcome.next (gatherTimeoutEff_of_nil vintage h)
  · -- A barrel opened with enough free rows.
    intro vintage group g r s hg hcrit hmode hmay hopens hmost hfree
    have hu : s = flagIf (freeBelow Reg.MM_RACK.FREECRIT s) Reg.MM_ERR.FREECRIT s := by rw [hcrit, flagIf, if_neg Bool.false_ne_true]
    have he := barrelOpenEff_opens hg hu hmode hmay hopens hmost hfree
    exact ⟨_, exec_barrelOpen .., barrelOpenEff_only .., he ▸ rfl, he ▸ rfl, he ▸ rfl, he ▸ rfl⟩
  · -- A group that does not exist.
    intro vintage group s hg
    rw [exec_barrelOpen, barrelOpenEff, hg]
  · -- A read round of an LBA owed.
    intro cmd lba result c n e s hcmd hns howed hview
    exact ⟨_, rfl, (readRoundDoneEff_only ..).mono (.ofAll (by decide +kernel)), readRoundDoneEff_owed result hcmd hns howed hview⟩
  · -- A die late for the first time, or with no retrain between.
    intro die afterRetrain s h
    rw [exec_readReadyTimeout, readReadyTimeoutEff_suspects h]
  · -- A die late twice.
    intro die afterRetrain s hsuspect hretrain
    exact ⟨_, exec_readReadyTimeout .., (readReadyTimeoutEff_only ..).mono (.ofAll (by decide +kernel)),
      readReadyTimeoutEff_fails hsuspect hretrain⟩
  · -- SP_DIEOUT with the key.
    rintro who die key s hopen hmay rfl hok
    exact ⟨_, exec_spDieoutWrite .., (spDieoutWriteEff_only ..).mono (.ofAll (by decide +kernel)),
      (spDieoutWriteEff_held die _ hopen hmay).trans ((if_neg (by decide)).trans (if_neg (by simp [hok])))⟩
  · -- SP_DIEOUT with another key.
    intro who die key s hopen hmay hkey hzero
    rw [exec_spDieoutWrite, spDieoutWriteEff_held die key hopen hmay, if_neg hzero, if_pos (.inl hkey)]
  · -- A barrel opened with any number of free rows.
    intro vintage group g r u s hg hu hmode hmay hopens hmost hfree
    exact ⟨_, exec_barrelOpen .., barrelOpenEff_only .., barrelOpenEff_opens hg hu hmode hmay hopens hmost hfree⟩
  · -- A die late, with a command's reads on it or none.
    intro die afterRetrain cmd s
    exact ⟨_, exec_readReadyTimeout .., (readReadyTimeoutEff_only ..).mono (.ofAll (by decide +kernel)), rfl⟩
  · -- SP_DIEOUT with the key for a slot that it may not name.
    rintro who die key s hopen hmay rfl hbad
    rw [exec_spDieoutWrite, spDieoutWriteEff_held die _ hopen hmay, if_neg (by decide), if_pos (.inr (by simp [hbad]))]
  · -- SP_DIEOUT without a key.
    rintro who die key s hopen hmay rfl
    rw [exec_spDieoutWrite, spDieoutWriteEff_held die _ hopen hmay, if_pos rfl]

end Sys2Proof.Machine
end

section
/-! SUPPORT. Media management: racking, erases, bottling, vat slots and the refresh of old barrels. Rules R185, R191 to R195, R198, R200,
R202, R204, R205. -/
namespace Sys2Proof.Machine

/-! Racking (R192 to R195). -/

/-- The dispatch of RACKING_START. -/
theorem exec_rackingStart (unreadable : List (Nat × Nat)) (s : State) :
    exec (.rackingStart unreadable) s = .next (rackingStartEff unreadable s) := rfl

/-- R192, R193: with work for racking and none in progress, the next source is racked. -/
theorem rackingStartEff_racks (unreadable : List (Nat × Nat)) {b : Barrel} {u s : State}
    (hu : u = flagIf (rackMode (rackWatch s).gen.mode && freeBelow Reg.MM_RACK.FREECRIT (rackWatch s)) Reg.MM_ERR.FREECRIT (rackWatch s))
    (hmode : rackMode u.gen.mode = true) (hidle : rackingNow u = false) (hwanted : rackWanted u = true) (hsource : rackSource u = some b) :
    rackingStartEff unreadable s = rackBarrel b.num unreadable u := by
  simp only [rackingStartEff, ← hu, hmode, hidle, hwanted, hsource, not_true_eq_false, Bool.false_eq_true, or_self, if_false]

/-- Otherwise only the watermarks are looked at. -/
theorem rackingStartEff_rests (unreadable : List (Nat × Nat)) {u s : State}
    (hu : u = flagIf (rackMode (rackWatch s).gen.mode && freeBelow Reg.MM_RACK.FREECRIT (rackWatch s)) Reg.MM_ERR.FREECRIT (rackWatch s))
    (h : rackMode u.gen.mode = false ∨ rackingNow u = true ∨ rackWanted u = false ∨ rackSource u = none) :
    rackingStartEff unreadable s = u := by
  simp only [rackingStartEff, ← hu]
  rcases h with hmode | hbusy | hunwanted | hnone
  · exact if_pos (.inl (by simp [hmode]))
  · exact if_pos (.inr (.inl hbusy))
  · exact if_pos (.inr (.inr (by simp [hunwanted])))
  · rw [hnone, ite_self]

/-- The dispatch of RACKDONE_DURABLE. -/
theorem exec_rackdoneDurable (barrel : Nat) (s : State) : exec (.rackdoneDurable barrel) s = .next (rackdoneDurableEff barrel s) := rfl

/-! Erases (R200, R202). -/

/-- The dispatch of ERASEINT_DURABLE. -/
theorem exec_eraseintDurable (die block : Nat) (s : State) : exec (.eraseintDurable die block) s = .next (eraseintDurableEff die block s) := rfl

/-- The dispatch of ERASE_DONE. -/
theorem exec_eraseDone (die block : Nat) (pass : Bool) (s : State) :
    exec (.eraseDone die block pass) s = .next (eraseDoneEff die block pass s) := rfl

/-! The vat (R185, R191, R205). -/

/-- The dispatch of BOTTLING_START. -/
theorem exec_bottlingStart (die slot : Nat) (unreadable : List (Nat × Nat)) (s : State) :
    exec (.bottlingStart die slot unreadable) s = .next (bottlingStartEff die slot unreadable s) := rfl

/-- R185, R205: the oldest slot of a pair, or a retired one, is erased on its good dies once nothing in it is needed. -/
theorem vatSlotEraseEff_erases {die slot b : Nat} {g : Group} {m : Nat} {s : State} (hpair : pairOf die s = some (g, m))
    (hdue : (getPair g.num m s).full.head? = some slot ∨ ((getPair g.num m s).retired.contains slot &&
      !(getPair g.num m s).gone.contains slot && !(getPair g.num m s).erasing.contains slot) = true)
    (hclean : slotReclaimable g m slot s = true) (hblock : vatBlock g m slot s = some b) : vatSlotEraseEff die slot s =
      (let p := getPair g.num m s
       let u := putPair { p with full := p.full.filter (fun v => v != slot), erasing := addOnce p.erasing slot } s
       ((vatDies g m u).filter (fun d => !(getBlk d b u).retired)).foldl (fun t d => startErase d b t) u) := by
  simp only [vatSlotEraseEff, hpair, hblock]
  refine if_neg ?_
  rintro (⟨hnotOldest, hnotRetired⟩ | hunclean)
  · exact hdue.elim hnotOldest hnotRetired
  · exact hunclean hclean

/-- The dispatch of VAT_SLOT_ERASE. -/
theorem exec_vatSlotErase (die slot : Nat) (s : State) : exec (.vatSlotErase die slot) s = .next (vatSlotEraseEff die slot s) := rfl

/-! Refresh by age (R198). -/

/-- R198: a barrel past SCRUBDAYS is racked and counted. -/
theorem ageRefreshEff_old {barrel : Nat} (unreadable : List (Nat × Nat)) {s : State} (hmode : refreshMode s.gen.mode = true)
    (hrackable : (rackable s).any (fun b => b.num == barrel) = true) (hold : tooOld barrel s = true) :
    ageRefreshEff barrel unreadable s = bump Reg.MM_REFCNT.AGE (rackBarrel barrel unreadable s) :=
  if_pos ⟨hmode, hrackable, hold⟩

/-! The statement. -/

/-- Settles O25: each clause is the one branch its hypotheses choose. -/
theorem rackingAndErase : Obligations.RackingAndErase := by
  refine ⟨?_, ?_, ?_, ?_, ?_, ?_, ?_, ?_, ?_, ?_, ?_, ?_, ?_, ?_⟩
  · -- A source is racked.
    intro unreadable b u s hu hmode hidle hwanted hsource
    exact ⟨_, exec_rackingStart .., (rackingStartEff_only ..).mono (.ofAll (by decide +kernel)),
      rackingStartEff_racks unreadable hu hmode hidle hwanted hsource⟩
  · -- No source is taken.
    intro unreadable u s hu h
    exact ⟨_, exec_rackingStart .., (rackingStartEff_only ..).mono (.ofAll (by decide +kernel)), rackingStartEff_rests unreadable hu h⟩
  · -- A RACKDONE record durable, with no read that looked into the barrel.
    intro barrel s hdone hrec hreads
    exact ⟨_, exec_rackdoneDurable .., rackdoneDurableEff_only .., if_neg (by simpa [hrec, hreads] using hdone)⟩
  · -- A barrel whose racking has not ended.
    intro barrel s hdone
    exact congrArg Host.Outcome.next (if_pos (.inl (by simpa using hdone)))
  · -- A durable intent.
    intro die block s hintent hpending
    exact ⟨_, exec_eraseintDurable .., eraseintDurableEff_only .., if_neg (by simp [hintent, hpending])⟩
  · -- A block with no intent.
    intro die block s hintent
    exact congrArg Host.Outcome.next (if_pos (.inl (by simp [hintent])))
  · -- An erase done.
    intro die block pass s hintent
    exact ⟨_, exec_eraseDone .., (eraseDoneEff_only ..).mono (.ofAll (by decide +kernel)), if_neg (by simp [hintent])⟩
  · -- An erase that was not intended.
    intro die block pass s hintent
    exact congrArg Host.Outcome.next (if_pos (by simp [hintent]))
  · -- A slot that may be bottled.
    intro die slot unreadable s hmode hslot
    exact ⟨_, exec_bottlingStart .., (bottlingStartEff_only ..).mono (.ofAll (by decide +kernel)), if_pos ⟨hmode, by simpa using hslot⟩⟩
  · -- A mode that does not bottle.
    intro die slot unreadable s hmode
    exact congrArg Host.Outcome.next (if_neg (by simp [hmode]))
  · -- A slot with nothing needed.
    intro die slot b g m s hpair hdue hclean hblock
    exact ⟨_, exec_vatSlotErase .., vatSlotEraseEff_only .., vatSlotEraseEff_erases hpair hdue hclean hblock⟩
  · -- A die that holds no first copies.
    intro die slot s hpair
    rw [exec_vatSlotErase, vatSlotEraseEff, hpair]
  · -- A barrel past SCRUBDAYS.
    intro barrel unreadable s hmode hrackable hold
    have he := ageRefreshEff_old unreadable hmode hrackable hold
    exact ⟨_, rfl, (ageRefreshEff_only ..).mono (.ofAll (by decide +kernel)), he, he ▸ getF_bumpBy_self ..⟩
  · -- A barrel that is not too old.
    intro barrel unreadable s hyoung
    exact congrArg Host.Outcome.next (if_neg (by simp [hyoung]))

end Sys2Proof.Machine
end

section
/-! SUPPORT. Media management: the refresh of blocks, vintage 4 reclaim, snapshots, rebuild and the dissolution of a group. Rules R196, R199,
R218, R219, R223, R225, R226, R228, R229. -/
namespace Sys2Proof.Machine

/-! Refresh of a block (R199). -/

/-- The valid grains that the map places in a member's block of QLC wordlines: under the block of its row, where it has one (R217). -/
def memberGrains (g : Group) (m die block : Nat) (s : State) : List Placed :=
  validGrains (fun e => decide (e.vhint ≠ 5 ∧ e.die = g.die m ∧ e.block = (match barrelOf g m die block s with
    | some n => rowBlock g m (barrelRow n) s
    | none => block))) s

/-- R199: a vat block to refresh is bottled, unless its slot is being bottled. -/
theorem blockRefreshEff_vat {die block : Nat} (unreadable : List (Nat × Nat)) {g : Group} {m p v : Nat} {s : State}
    (hmode : refreshMode s.gen.mode = true) (hflag : (getBlk die block s).refresh = true) (hdie : memberOf die s = some (g, m))
    (hslot : slotOfBlock g m block s = some (p, v)) (hidle : s.mm.racking.any (fun x => x.1 == bottleKey (g.die p) v) = false) :
    blockRefreshEff die block unreadable s = bump Reg.MM_REFCNT.BLOCK (bottleSlot (g.die p) v unreadable s) := by
  simp only [blockRefreshEff, hmode, hflag, hdie, hslot, hidle, not_true_eq_false, or_self, Bool.false_eq_true, if_false]

/-- R199: the grains of any other block to refresh are copied, unless its barrel is racked or its copies are under way. -/
theorem blockRefreshEff_row {die block : Nat} (unreadable : List (Nat × Nat)) {g : Group} {m : Nat} {s : State}
    (hmode : refreshMode s.gen.mode = true) (hflag : (getBlk die block s).refresh = true) (hdie : memberOf die s = some (g, m))
    (hslot : slotOfBlock g m block s = none)
    (hbusy : (barrelOf g m die block s).any (fun n => s.mm.racking.any (fun x => x.1 == n)) = false)
    (hidle : s.mm.racking.any (fun x => x.1 == refreshKey die block) = false) (hgrains : memberGrains g m die block s ≠ []) :
    blockRefreshEff die block unreadable s =
      bump Reg.MM_REFCNT.BLOCK (startCopies (refreshKey die block) unreadable (memberGrains g m die block s) s) := by
  simp only [blockRefreshEff, hmode, hflag, hdie, hslot, hbusy, hidle, not_true_eq_false, or_self, Bool.false_eq_true, if_false, false_or,
    or_false]
  exact if_neg hgrains

/-- The dispatch of BLOCK_REFRESH. -/
theorem exec_blockRefresh (die block : Nat) (unreadable : List (Nat × Nat)) (s : State) :
    exec (.blockRefresh die block unreadable) s = .next (blockRefreshEff die block unreadable s) := rfl

/-! Vintage 4 (R196; log entry 92). -/

/-- The pages of the oldest closed barrel of vintage 4 are to be written again by the next sweep. -/
theorem v4ReclaimEff_reclaims {b : Barrel} {s : State} (hmode : rackMode s.gen.mode = true)
    (hb : oldestBarrel (s.mm.barrels.filter (fun b => decide (b.vintage = 4 ∧ b.state = 1) &&
      !s.mm.racking.any (fun x => x.1 == v4Key b.num) && !s.mm.rackdone.contains b.num)) = some b) :
    v4ReclaimEff s = { s with
      mm := { s.mm with racking := s.mm.racking ++ [(v4Key b.num, [])] }, mx := { s.mx with dirty := true } } := by
  simp only [v4ReclaimEff, hmode, hb, not_true_eq_false, if_false]

/-- With no barrel there is none of vintage 4. -/
theorem v4ReclaimEff_of_nil {s : State} (h : s.mm.barrels = []) : v4ReclaimEff s = s := by
  simp only [v4ReclaimEff, h, List.filter_nil, oldestBarrel, ite_self]

/-- The dispatch of V4_RECLAIM. -/
theorem exec_v4Reclaim (s : State) : exec .v4Reclaim s = .next (v4ReclaimEff s) := rfl

/-! Snapshots (R218, R219). -/

/-- R218: the snapshot of the present is in flight, and goes to a standby. -/
theorem snapshotWriteEff_captures {s : State} (hmode : snapMode s.gen.mode = true) (hnone : s.sp.snapFly = none) :
    snapshotWriteEff s = mirror 6 [s.mx.csn, (snapNow s).seq] { s with sp := { s.sp with snapFly := some (snapNow s) } } :=
  if_neg (by simp [hmode, hnone])

/-- The dispatch of SNAPSHOT_WRITE. -/
theorem exec_snapshotWrite (s : State) : exec .snapshotWrite s = .next (snapshotWriteEff s) := rfl

/-- R219: a snapshot in flight becomes durable; the flag says that a copy failed. -/
theorem snapshotDurableEff_inFlight (copyFailed : Bool) {n : Snap} {s : State} (h : s.sp.snapFly = some n) :
    snapshotDurableEff copyFailed s = snapDurableNow n (flagIf copyFailed Reg.SP_ERR.SJCOPY s) := by
  simp only [snapshotDurableEff, h]

/-- A failed copy is reported, and the snapshot's becoming durable leaves the flag. -/
theorem isOn_sjcopy_snapDurableNow (n : Snap) (s : State) : isOn Reg.SP_ERR.SJCOPY (snapDurableNow n (flagIf true Reg.SP_ERR.SJCOPY s)) = true :=
  isOn_of_only_flagOn (snapDurableNow_only ..) rfl (by decide)

/-- The dispatch of SNAPSHOT_DURABLE. -/
theorem exec_snapshotDurable (copyFailed : Bool) (s : State) :
    exec (.snapshotDurable copyFailed) s = .next (snapshotDurableEff copyFailed s) := rfl

/-! Rebuild (R223, R225, R226). -/

/-- R223: a rebuild does not start before its substitution is durable. -/
theorem rebuildStartEff_undurable {die : Nat} {e : Subst} {s : State} (he : substOf die s = some e) (hdurable : substDurable e s = false) :
    rebuildStartEff die s = s := by
  simp only [rebuildStartEff, he]
  split
  · rfl
  · exact if_pos (.inr (.inr (.inl (by simp [hdurable]))))

/-- The dispatch of REBUILD_START. -/
theorem exec_rebuildStart (die : Nat) (s : State) : exec (.rebuildStart die) s = .next (rebuildStartEff die s) := rfl

/-- R223, R226: the wordline that comes next moves the block's program pointer, and the last of a row moves NEXTROW. `u` is the state with
the spare's block erased, where the row begins on a block that is not. -/
theorem rebuildWordlineDoneEff_inOrder {die row wordline : Nat} (last : Bool) (lostGrains : List (Nat × Nat)) {e : Subst} {g : Group}
    {u s : State} (he : substOf die s = some e) (hg : findGroup e.group s = some g) (hstate : e.state = 2) (hrow : row = e.nextRow)
    (hidle : s.mm.racking.any (fun x => x.1 == barrelNum g.num row) = false) {d b : Nat} (hplace : rowPlace g (g.posOf die) row s = (d, b))
    (hu : u = if wordline = 0 ∧ (getBlk d b s).pptr ≠ 0 then eraseNow (d, b) s else s) (hpptr : (getBlk d b u).pptr = 4 * wordline) :
    rebuildWordlineDoneEff die row wordline last lostGrains s =
      (let v := if lostGrains = [] then u else threeMissing lostGrains u
       let w := updBlk d b (fun x => { x with pptr := 4 * wordline + 4, age := if wordline = 0 then now v else x.age }) v
       if last then advanceRow g die (row + 1) w else w) := by
  have hserved : ¬ (e.state ≠ 2 ∨ row ≠ e.nextRow ∨ s.mm.racking.any (fun x => x.1 == barrelNum g.num row) = true) := by
    rintro (h | h | h)
    · exact h hstate
    · exact h hrow
    · exact Bool.false_ne_true (hidle.symm.trans h)
  simp only [rebuildWordlineDoneEff, he, hg, if_neg hserved, hplace, ← hu]
  exact if_neg (not_not.mpr hpptr)

/-- R226: a row that is not the next one is not taken. -/
theorem rebuildWordlineDoneEff_outOfOrder {die row : Nat} (wordline : Nat) (last : Bool) (lostGrains : List (Nat × Nat)) {e : Subst}
    {s : State} (he : substOf die s = some e) (hrow : row ≠ e.nextRow) : rebuildWordlineDoneEff die row wordline last lostGrains s = s := by
  simp only [rebuildWordlineDoneEff, he]
  split
  · rfl
  · exact if_pos (.inr (.inl hrow))

/-- The dispatch of REBUILD_WORDLINE_DONE. -/
theorem exec_rebuildWordlineDone (die row wordline : Nat) (last : Bool) (lostGrains : List (Nat × Nat)) (s : State) :
    exec (.rebuildWordlineDone die row wordline last lostGrains) s =
      .next (rebuildWordlineDoneEff die row wordline last lostGrains s) := rfl

/-! Dissolution (R228, R229). -/

/-- R228: a group that dissolves and is empty is dissolved. -/
theorem groupDissolutionEff_empty {group : Nat} {g : Group} {s : State} (hg : findGroup group s = some g) (hdis : g.dissolving = true)
    (hempty : groupEmpty g s = true) : groupDissolutionEff group s = dissolved g s := by
  simp only [groupDissolutionEff, hg, hdis, hempty, if_true]

/-- Assigning spares again leaves SP_ERR.DISSOLVED, which was set before. -/
theorem isOn_dissolved (g : Group) (s : State) : isOn Reg.SP_ERR.DISSOLVED (dissolved g s) = true := by
  have hkeep (t : State) : getF Reg.SP_ERR.DISSOLVED (checkWaiting (assignSpares t)) = getF Reg.SP_ERR.DISSOLVED t :=
    ((checkWaiting_only _).getF_eq (by decide +kernel)).trans ((assignSpares_only _).getF_eq (by decide +kernel))
  rw [isOn, dissolved, hkeep, flagOn, getF_setF_self]
  rfl

/-- R228: the group with the fewest valid granules begins to dissolve: it is stopped, and what its vat slots hold is bottled. -/
theorem groupDissolutionEff_begins {group : Nat} {g : Group} {s : State} (hg : findGroup group s = some g) (hdis : g.dissolving = false)
    (hmode : backgroundMode s.gen.mode = true) (hnone : s.sp.groups.any (·.dissolving) = false)
    (hmay : (dissolvable s).any (fun x => x.num == group) = true) (hfewest : fewest g s = true) :
    groupDissolutionEff group s = rewriteSysPages (fun x => decide (x.group = g.num)) ((List.range (g.width / 2)).foldl
      (fun t p => bottleMember g (g.die p) t) (stopGroup group (updGroup group (fun x => { x with dissolving := true }) s))) := by
  simp only [groupDissolutionEff, hg, hdis, hmode, hnone, hmay, hfewest, not_true_eq_false, or_self, Bool.false_eq_true, if_false]

/-- The dispatch of GROUP_DISSOLUTION. -/
theorem exec_groupDissolution (group : Nat) (s : State) : exec (.groupDissolution group) s = .next (groupDissolutionEff group s) := rfl

/-! The statement. -/

/-- Settles O26: each clause is the one branch its hypotheses choose. -/
theorem refreshSnapshotRebuild : Obligations.RefreshSnapshotRebuild := by
  refine ⟨?_, ?_, ?_, ?_, ?_, ?_, ?_, ?_, ?_, ?_, ?_, ?_, ?_, ?_, ?_, ?_⟩
  · -- A vat block marked for refresh.
    intro die block unreadable g m p v s hmode hflag hdie hslot hidle
    exact ⟨_, exec_blockRefresh .., (blockRefreshEff_only ..).mono (.ofAll (by decide +kernel)),
      blockRefreshEff_vat unreadable hmode hflag hdie hslot hidle⟩
  · -- A block that is not marked.
    intro die block unreadable s hflag
    exact congrArg Host.Outcome.next (if_pos (.inr (by simp [hflag])))
  · -- A closed barrel of vintage 4.
    intro b s hmode hb
    have he := v4ReclaimEff_reclaims hmode hb
    exact ⟨_, exec_v4Reclaim s, v4ReclaimEff_only s, he ▸ rfl, he ▸ rfl, he ▸ rfl, he ▸ rfl⟩
  · -- No barrel.
    intro s h
    rw [exec_v4Reclaim, v4ReclaimEff_of_nil h]
  · -- A snapshot captured.
    intro s hmode hnone
    have he := snapshotWriteEff_captures hmode hnone
    exact ⟨_, exec_snapshotWrite s, (snapshotWriteEff_only s).mono (.ofAll (by decide +kernel)),
      he ▸ congrArg (·.snapFly) ((mirror_only ..).keeps .sp rfl), (snapshotWriteEff_only s).keeps .nand rfl⟩
  · -- A snapshot in flight already.
    intro s h
    exact congrArg Host.Outcome.next (if_pos (.inr (Option.isSome_iff_ne_none.mpr h)))
  · -- A snapshot durable.
    intro copyFailed n s h
    have he := snapshotDurableEff_inFlight copyFailed h
    refine ⟨_, exec_snapshotDurable .., snapshotDurableEff_only .., he, ?_⟩
    rintro rfl
    exact he ▸ isOn_sjcopy_snapDurableNow n s
  · -- No snapshot in flight.
    intro copyFailed s h
    rw [exec_snapshotDurable, snapshotDurableEff, h]
  · -- A rebuild starts.
    intro die e g s he hg hstate hmode hdurable hboundary hroom
    refine ⟨_, exec_rebuildStart die s, (rebuildStartEff_only die s).mono (.ofAll (by decide +kernel)), ?_⟩
    simp only [rebuildStartEff, he, hg]
    exact if_neg (by simp only [hstate, hmode, hdurable, hboundary, hroom, ne_eq, not_true_eq_false, or_self, not_false_eq_true])
  · -- A substitution that is not durable.
    intro die e s he hdurable
    rw [exec_rebuildStart, rebuildStartEff_undurable he hdurable]
  · -- The wordline that comes next.
    intro die row wordline last lostGrains e g u s he hg hstate hrow hidle hu hpptr
    exact ⟨_, exec_rebuildWordlineDone .., (rebuildWordlineDoneEff_only ..).mono (.ofAll (by decide +kernel)),
      rebuildWordlineDoneEff_inOrder last lostGrains he hg hstate hrow hidle rfl hu hpptr⟩
  · -- A row that is not the next one.
    intro die row wordline last lostGrains e s he hrow
    rw [exec_rebuildWordlineDone, rebuildWordlineDoneEff_outOfOrder wordline last lostGrains he hrow]
  · -- A group that dissolves and is empty.
    intro group g s hg hdis hempty
    have he := groupDissolutionEff_empty hg hdis hempty
    exact ⟨_, exec_groupDissolution .., (groupDissolutionEff_only ..).mono (.ofAll (by decide +kernel)), he, he ▸ isOn_dissolved g s⟩
  · -- A group that begins to dissolve.
    intro group g s hg hdis hmode hnone hmay hfewest
    exact ⟨_, exec_groupDissolution .., (groupDissolutionEff_only ..).mono (.ofAll (by decide +kernel)),
      groupDissolutionEff_begins hg hdis hmode hnone hmay hfewest⟩
  · -- A group that does not exist.
    intro group s hg
    rw [exec_groupDissolution, groupDissolutionEff, hg]
  · -- A block of QLC wordlines marked for refresh.
    intro die block unreadable g m s hmode hflag hdie hslot hbusy hidle hgrains
    exact ⟨_, exec_blockRefresh .., (blockRefreshEff_only ..).mono (.ofAll (by decide +kernel)),
      blockRefreshEff_row unreadable hmode hflag hdie hslot hbusy hidle hgrains⟩

end Sys2Proof.Machine
end

section
/-! SUPPORT. The field of stripe parity, GF(2^8) with g = 2, and the recovery of missing units from P and Q. Rules R210, R211. -/
namespace Sys2Proof.Machine

/-! The sum of the field is the exclusive or. -/

/-- A term that two sums share drops out of their sum. -/
theorem xor_xor_xor_cancel_middle (u v w : Byte) : (u ^^^ v) ^^^ (v ^^^ w) = u ^^^ w := by
  rw [BitVec.xor_assoc, ← BitVec.xor_assoc v, BitVec.xor_self, BitVec.zero_xor]

theorem xor_xor_xor_cancel_left (u v w : Byte) : (u ^^^ v) ^^^ (u ^^^ w) = v ^^^ w := by
  rw [BitVec.xor_comm u v, xor_xor_xor_cancel_middle]

theorem xor_xor_xor_cancel_right (u v w : Byte) : (u ^^^ w) ^^^ (v ^^^ w) = u ^^^ v := by
  rw [BitVec.xor_comm v w, xor_xor_xor_cancel_middle]

/-! The doubling. -/

/-- The reduction 0x1D is added exactly when bit 7 leaves the byte, and bit 7 of a sum is the sum of the bits 7. -/
theorem gfDouble_xor (x y : Byte) : gfDouble (x ^^^ y) = gfDouble x ^^^ gfDouble y := by
  have hshift : (x ^^^ y) <<< 1 = x <<< 1 ^^^ y <<< 1 := BitVec.shiftLeft_xor_distrib x y 1
  simp only [gfDouble, BitVec.msb_xor, hshift]
  cases x.msb <;> cases y.msb
  · rfl
  · exact BitVec.xor_assoc ..
  · change x <<< 1 ^^^ y <<< 1 ^^^ 0x1D = (x <<< 1 ^^^ 0x1D) ^^^ y <<< 1
    ac_rfl
  · exact (xor_xor_xor_cancel_right ..).symm

theorem gfDouble_injective : Function.Injective gfDouble := by
  intro x y h
  have hker : ∀ z : Byte, gfDouble z = 0 → z = 0 := by decide +kernel
  have hsum : gfDouble (x ^^^ y) = 0 := by rw [gfDouble_xor, h]; exact BitVec.xor_self
  exact BitVec.xor_eq_zero_iff.mp (hker _ hsum)

/-- The maps of the field that multiply by a constant: additive, and exchangeable with the doubling. -/
structure GfLinear (f : Byte → Byte) : Prop where
  map_xor : ∀ x y, f (x ^^^ y) = f x ^^^ f y
  map_double : ∀ x, f (gfDouble x) = gfDouble (f x)

theorem gfDouble_linear : GfLinear gfDouble := ⟨gfDouble_xor, fun _ => rfl⟩

theorem GfLinear.map_zero {f : Byte → Byte} (hf : GfLinear f) : f 0 = 0 := by
  simpa using hf.map_xor 0 0

/-! The product reads its right factor bit by bit, from bit 7. -/

/-- The step of the product by `a` at one bit of the right factor. -/
def gfStep (a acc : Byte) (bit : Bool) : Byte := gfDouble acc ^^^ (if bit then a else 0)

theorem gfMul_eq_foldl (a b : Byte) : gfMul a b = (byteBits b).foldl (gfStep a) 0 := rfl

theorem GfLinear.map_gfStep {f : Byte → Byte} (hf : GfLinear f) (a acc : Byte) (bit : Bool) :
    f (gfStep a acc bit) = gfStep (f a) (f acc) bit := by
  rw [gfStep, hf.map_xor, hf.map_double, apply_ite f, hf.map_zero, gfStep]

/-- A linear map passes through a product to its left factor. -/
theorem GfLinear.map_gfMul {f : Byte → Byte} (hf : GfLinear f) (a b : Byte) : f (gfMul a b) = gfMul (f a) b := by
  have hfold := List.foldl_hom f (l := byteBits b) (init := 0) fun acc bit => (hf.map_gfStep a acc bit).symm
  rw [gfMul_eq_foldl, ← hfold, hf.map_zero, gfMul_eq_foldl]

theorem gfStep_xor (a b u v : Byte) (bit : Bool) : gfStep (a ^^^ b) (u ^^^ v) bit = gfStep a u bit ^^^ gfStep b v bit := by
  simp only [gfStep, gfDouble_xor]
  cases bit
  · simp
  · simp only [if_true]
    ac_rfl

theorem foldl_gfStep_xor (a b : Byte) (bits : List Bool) (u v : Byte) :
    bits.foldl (gfStep (a ^^^ b)) (u ^^^ v) = bits.foldl (gfStep a) u ^^^ bits.foldl (gfStep b) v := by
  induction bits generalizing u v with
  | nil => rfl
  | cons bit bits ih => simp only [List.foldl_cons, gfStep_xor, ih]

theorem gfMul_xor_left (a b c : Byte) : gfMul (a ^^^ b) c = gfMul a c ^^^ gfMul b c :=
  foldl_gfStep_xor a b (byteBits c) 0 0

theorem gfMul_linear (c : Byte) : GfLinear (gfMul · c) :=
  ⟨fun a b => gfMul_xor_left a b c, fun a => (gfDouble_linear.map_gfMul a c).symm⟩

@[simp] theorem gfMul_one_left (x : Byte) : gfMul 1 x = x := by
  revert x
  decide +kernel

/-- A product by `b` is the linear map that takes 1 to `b`, so the factors exchange. -/
theorem gfMul_comm (a b : Byte) : gfMul a b = gfMul b a := by
  simpa only [gfMul_one_left] using (gfMul_linear b).map_gfMul 1 a

theorem gfMul_assoc (a b c : Byte) : gfMul (gfMul a b) c = gfMul a (gfMul b c) := by
  rw [gfMul_comm a b, (gfMul_linear c).map_gfMul b a, gfMul_comm]

theorem gfMul_xor_right (a b c : Byte) : gfMul a (b ^^^ c) = gfMul a b ^^^ gfMul a c := by
  rw [gfMul_comm, gfMul_xor_left, gfMul_comm b, gfMul_comm c]

theorem gfMul_gfInv {c : Byte} (hc : c ≠ 0) : gfMul c (gfInv c) = 1 := by
  revert c
  decide +kernel

/-- Division by what is not 0 undoes the product. -/
theorem gfDiv_gfMul_cancel (x : Byte) {c : Byte} (hc : c ≠ 0) : gfDiv (gfMul x c) c = x := by
  rw [gfDiv, gfMul_assoc, gfMul_gfInv hc, gfMul_comm, gfMul_one_left]

/-! The powers of g. -/

theorem gfPow_eq_iterate (i : Nat) : gfPow i = gfDouble^[i] 1 := by
  induction i with
  | zero => rfl
  | succ i ih => rw [gfPow, ih, Function.iterate_succ_apply']

theorem gfPow_ne_zero (i : Nat) : gfPow i ≠ 0 := by
  induction i with
  | zero => decide
  | succ i ih => exact gfDouble_linear.map_zero ▸ gfDouble_injective.ne ih

/-- No power of g below the 255th is 1 again. -/
theorem gfPow_ne_one : ∀ k < 255, 0 < k → gfPow k ≠ 1 := by
  decide +kernel

/-- Two members of a stripe have two different powers of g: a repetition would be a return to 1. -/
theorem gfPow_ne_of_lt {a b : Nat} (hab : a < b) (hb : b < 255) : gfPow a ≠ gfPow b := by
  intro h
  refine gfPow_ne_one (b - a) (by omega) (by omega) ?_
  rw [gfPow_eq_iterate]
  exact Function.iterate_cancel gfDouble_injective (by rw [← gfPow_eq_iterate, ← gfPow_eq_iterate, h])

/-! P and Q of a list in which one member changes. -/

theorem parityP_cons (d : Byte) (t : List Byte) : parityP (d :: t) = d ^^^ parityP t := by
  rw [parityP, List.foldl_cons, BitVec.xor_comm, List.foldl_assoc, parityP]

/-- P changes by the change of the member. -/
theorem parityP_set {ds : List Byte} {a : Nat} {x : Byte} (h : ds[a]? = some x) (v : Byte) :
    parityP ds ^^^ parityP (ds.set a v) = x ^^^ v := by
  induction ds generalizing a with
  | nil => cases h
  | cons d t ih =>
    cases a with
    | zero =>
      obtain rfl : d = x := Option.some.inj h
      rw [List.set_cons_zero, parityP_cons, parityP_cons, xor_xor_xor_cancel_right]
    | succ a =>
      have ht : t[a]? = some x := h
      rw [List.set_cons_succ, parityP_cons, parityP_cons, xor_xor_xor_cancel_left, ih ht]

/-- Q changes by the change of the member times its power of g. -/
theorem parityQ_set {ds : List Byte} {a : Nat} {x : Byte} (h : ds[a]? = some x) (v : Byte) (i : Nat) :
    parityQ i ds ^^^ parityQ i (ds.set a v) = gfMul (x ^^^ v) (gfPow (i + a)) := by
  induction ds generalizing a i with
  | nil => cases h
  | cons d t ih =>
    cases a with
    | zero =>
      obtain rfl : d = x := Option.some.inj h
      rw [List.set_cons_zero, parityQ, parityQ, xor_xor_xor_cancel_right, gfMul_xor_left, Nat.add_zero]
    | succ a =>
      have ht : t[a]? = some x := h
      rw [List.set_cons_succ, parityQ, parityQ, xor_xor_xor_cancel_left, ih ht, Nat.add_right_comm, Nat.add_assoc]

/-! The syndromes (R211), and what they recover. -/

/-- One data unit missing: S_P is its byte, S_Q the byte times its power of g. -/
theorem syndromes_of_one_missing {ds : List Byte} {a : Nat} {x : Byte} (h : ds[a]? = some x) :
    syndromes (parityP ds) (parityQ 0 ds) (ds.set a 0) = (x, gfMul x (gfPow a)) := by
  have hzero : x ^^^ 0 = x := BitVec.xor_zero
  rw [syndromes, parityP_set h, parityQ_set h, hzero, Nat.zero_add]

/-- Two data units missing: the syndromes are the sums of those of each. -/
theorem syndromes_of_two_missing {ds : List Byte} {a b : Nat} {x y : Byte} (hab : a ≠ b) (ha : ds[a]? = some x) (hb : ds[b]? = some y) :
    syndromes (parityP ds) (parityQ 0 ds) ((ds.set a 0).set b 0) = (x ^^^ y, gfMul x (gfPow a) ^^^ gfMul y (gfPow b)) := by
  have hb' : (ds.set a 0)[b]? = some y := by rw [List.getElem?_set_ne hab, hb]
  obtain ⟨hpa, hqa⟩ := Prod.mk.inj (syndromes_of_one_missing ha)
  obtain ⟨hpb, hqb⟩ := Prod.mk.inj (syndromes_of_one_missing hb')
  rw [syndromes, ← xor_xor_xor_cancel_middle (parityP ds) (parityP (ds.set a 0)),
    ← xor_xor_xor_cancel_middle (parityQ 0 ds) (parityQ 0 (ds.set a 0)), hpa, hpb, hqa, hqb]

/-- R211: S_Q and S_P times g^b together are the byte of unit a times g^a and g^b together, so the quotient is that byte. -/
theorem recoverTwo_of_syndromes {a b : Nat} (hne : gfPow a ≠ gfPow b) (x y : Byte) :
    recoverTwo a b (x ^^^ y) (gfMul x (gfPow a) ^^^ gfMul y (gfPow b)) = (x, y) := by
  have hnum : gfMul x (gfPow a) ^^^ gfMul y (gfPow b) ^^^ gfMul (x ^^^ y) (gfPow b) = gfMul x (gfPow a ^^^ gfPow b) := by
    rw [gfMul_xor_left, BitVec.xor_comm (gfMul x (gfPow b)), xor_xor_xor_cancel_middle, gfMul_xor_right]
  have hden : gfPow a ^^^ gfPow b ≠ 0 := fun h => hne (BitVec.xor_eq_zero_iff.mp h)
  have hrest : x ^^^ y ^^^ x = y := by rw [BitVec.xor_comm x y, BitVec.xor_assoc, BitVec.xor_self, BitVec.xor_zero]
  simp only [recoverTwo, hnum, gfDiv_gfMul_cancel x hden, hrest]

/-- R211: from P the missing byte is S_P itself, and from Q alone it is S_Q divided by the unit's power of g. -/
theorem recoverOne_of_syndromes (a : Nat) (pThere : Bool) (x : Byte) : recoverOne a pThere x (gfMul x (gfPow a)) = x := by
  cases pThere with
  | true => rfl
  | false => exact gfDiv_gfMul_cancel x (gfPow_ne_zero a)

/-- Settles O55: the syndromes name the missing bytes, and two powers of g below 255 differ, so the quotient of R211 exists. -/
theorem parityRecovery : Obligations.ParityRecovery := by
  unfold Obligations.ParityRecovery
  refine ⟨?_, ?_⟩
  · -- Two data units missing, P and Q present.
    intro ds a b x y hlen hab ha hb
    obtain ⟨hb_lt, -⟩ := List.getElem?_eq_some_iff.mp hb
    rw [syndromes_of_two_missing hab.ne ha hb]
    exact recoverTwo_of_syndromes (gfPow_ne_of_lt hab (by omega)) x y
  · -- One data unit missing, with or without P.
    intro ds a x pThere _ ha
    rw [syndromes_of_one_missing ha]
    exact recoverOne_of_syndromes a pThere x

end Sys2Proof.Machine
end

section
/-! SUPPORT. The coding chapter's statements: the groups of shaping, and the static symbol code of the token stream. Rules R237, R248. -/
namespace Sys2Proof.Machine

/-! Shaping, one group (R248). -/

@[simp] theorem length_shapeGroup (pol : Bool) (g : List Bool) : (shapeGroup pol g).length = g.length + 1 := by
  unfold shapeGroup
  split <;> simp

/-- Each bit of a group is of the polarity either as it is or inverted. -/
theorem countP_map_not (pol : Bool) (g : List Bool) : (g.map (fun b => !b)).countP (· == pol) = g.length - g.countP (· == pol) := by
  have hflip : (g.map (fun b => !b)).countP (· == pol) = g.countP (fun b => !(b == pol)) := by
    rw [List.countP_map]
    exact List.countP_congr fun b _ => by cases b <;> cases pol <;> decide
  have hsum := List.length_eq_countP_add_countP (· == pol) (l := g)
  simp only [Bool.not_eq_true, Bool.decide_eq_false] at hsum
  omega

/-- The flag says whether the bits were inverted, and inverting twice changes nothing. -/
@[simp] theorem deshapeGroup_shapeGroup (pol : Bool) (g : List Bool) : deshapeGroup pol (shapeGroup pol g) = g := by
  unfold shapeGroup
  split
  · exact if_pos rfl
  · have hback : (g.map (fun b => !b)).map (fun b => !b) = g := List.map_involutive_iff.mpr Bool.involutive_not g
    exact (if_neg (Bool.not_ne_self pol)).trans hback

/-- R248: of 15 bits at least 8 are of the polarity, or else at least 8 are of it once inverted. -/
theorem eight_le_countP_shapeGroup (pol : Bool) {g : List Bool} (hlen : g.length = 15) : 8 ≤ (shapeGroup pol g).countP (· == pol) := by
  unfold shapeGroup
  split
  case isTrue hmost =>
    exact hmost.trans (List.sublist_cons_self pol g).countP_le
  case isFalse hfew =>
    calc 8 ≤ g.length - g.countP (· == pol) := by omega
      _ = (g.map (fun b => !b)).countP (· == pol) := (countP_map_not pol g).symm
      _ ≤ _ := (List.sublist_cons_self _ _).countP_le

/-! Shaping, a string of groups (R248). -/

theorem length_shapeBits (pol : Bool) {n : Nat} {l : List Bool} (hlen : l.length = 15 * n) : (shapeBits pol n l).length = 16 * n := by
  induction n generalizing l with
  | zero => rfl
  | succ n ih =>
    have hrest : (l.drop 15).length = 15 * n := by rw [List.length_drop]; omega
    rw [shapeBits, List.length_append, length_shapeGroup, List.length_take, ih hrest]
    omega

/-- The first 16 bits of the shaped string are its first group, so the groups are deshaped one by one. -/
theorem deshapeBits_shapeBits (pol : Bool) {n : Nat} {l : List Bool} (hlen : l.length = 15 * n) :
    deshapeBits pol n (shapeBits pol n l) = l := by
  induction n generalizing l with
  | zero => exact (List.length_eq_zero_iff.mp hlen).symm
  | succ n ih =>
    have hgroup : (shapeGroup pol (l.take 15)).length = 16 := by rw [length_shapeGroup, List.length_take]; omega
    have hrest : (l.drop 15).length = 15 * n := by rw [List.length_drop]; omega
    rw [shapeBits, deshapeBits, List.take_left' hgroup, List.drop_left' hgroup, deshapeGroup_shapeGroup, ih hrest, List.take_append_drop]

/-- Settles O56: group by group, by induction on the number of groups. -/
theorem shapingRoundTrip : Obligations.ShapingRoundTrip :=
  ⟨fun pol _ _ hlen => ⟨length_shapeBits pol hlen, deshapeBits_shapeBits pol hlen⟩,
    fun pol g hlen => ⟨(length_shapeGroup pol g).trans (congrArg (· + 1) hlen), eight_le_countP_shapeGroup pol hlen⟩⟩

/-! Numbers as bits, most significant first (R237). -/

@[simp] theorem length_natBits (n v : Nat) : (natBits n v).length = n := by
  induction n with
  | zero => rfl
  | succ n ih => rw [natBits, List.length_cons, ih]

theorem bitsNat_natBits (n v : Nat) : bitsNat (natBits n v) = v % 2 ^ n := by
  induction n with
  | zero => exact (Nat.mod_one v).symm
  | succ n ih =>
    have hbit : (if decide (v / 2 ^ n % 2 = 1) = true then 2 ^ n else 0) = 2 ^ n * (v / 2 ^ n % 2) := by
      rcases Nat.mod_two_eq_zero_or_one (v / 2 ^ n) with h | h <;> simp [h]
    rw [natBits, bitsNat, length_natBits, ih, hbit, Nat.mod_pow_succ, Nat.add_comm]

/-- The bits of a number are those of its high part, then those of its low part. -/
theorem natBits_add (n k v : Nat) : natBits (n + k) v = natBits n (v / 2 ^ k) ++ natBits k v := by
  induction n with
  | zero => rw [Nat.zero_add]; rfl
  | succ n ih => rw [Nat.succ_add, natBits, natBits, ih, Nat.div_div_eq_div_mul, ← Nat.pow_add, Nat.add_comm k n, List.cons_append]

/-- Reading the first `n` bits of a code of `n + k` bits gives its high part, and its low part is still to be read. -/
theorem takeBits_natBits_add (n k v : Nat) (rest : List Bool) :
    takeBits n (natBits (n + k) v ++ rest) = some (v / 2 ^ k % 2 ^ n, natBits k v ++ rest) := by
  have hlong : ¬ (natBits n (v / 2 ^ k) ++ (natBits k v ++ rest)).length < n := by
    rw [List.length_append, length_natBits]; omega
  rw [natBits_add, List.append_assoc, takeBits, if_neg hlong, List.take_left' (length_natBits ..), List.drop_left' (length_natBits ..),
    bitsNat_natBits]

theorem takeBits_natBits (n v : Nat) (rest : List Bool) : takeBits n (natBits n v ++ rest) = some (v % 2 ^ n, rest) := by
  have h := takeBits_natBits_add n 0 v rest
  rw [Nat.pow_zero, Nat.div_one] at h
  exact h

/-! The codes of Table 9.4 by their length. The reader takes 5 bits, then 1 and 1 of a code that begins with 15, and 3 and 1 of one that
begins with 16 or more. -/

/-- The 5-bit codes, those below 15. -/
theorem nextSym_natBits_five {c : Nat} (hc : c < 15) (rest : List Bool) : nextSym (natBits 5 c ++ rest) = some (256 + c, rest) := by
  have hfirst := takeBits_natBits 5 c rest
  rw [Nat.mod_eq_of_lt (by omega)] at hfirst
  simp only [nextSym, hfirst, if_pos hc]

/-- The 6-bit code. -/
theorem nextSym_natBits_six (rest : List Bool) : nextSym (natBits 6 30 ++ rest) = some (271, rest) := by
  have hfirst : takeBits 5 (natBits 6 30 ++ rest) = some (15, natBits 1 30 ++ rest) := takeBits_natBits_add 5 1 30 rest
  have hsixth : takeBits 1 (natBits 1 30 ++ rest) = some (0, rest) := takeBits_natBits 1 30 rest
  simp only [nextSym, hfirst, hsixth, Nat.lt_irrefl, if_false, if_true]

/-- The two 7-bit codes. -/
theorem nextSym_natBits_seven {b : Nat} (hb : b < 2) (rest : List Bool) : nextSym (natBits 7 (62 + b) ++ rest) = some (255 * b, rest) := by
  have hfirst := takeBits_natBits_add 5 2 (62 + b) rest
  have hsixth := takeBits_natBits_add 1 1 (62 + b) rest
  have hlast := takeBits_natBits 1 (62 + b) rest
  rw [show (62 + b) / 2 ^ 2 % 2 ^ 5 = 15 by omega] at hfirst
  rw [show (62 + b) / 2 ^ 1 % 2 ^ 1 = 1 by omega] at hsixth
  rw [show (62 + b) % 2 ^ 1 = b by omega] at hlast
  simp only [nextSym, hfirst, hsixth, hlast, Nat.lt_irrefl, if_false, if_true]

/-- The 8-bit code. -/
theorem nextSym_natBits_eight (rest : List Bool) : nextSym (natBits 8 128 ++ rest) = some (272, rest) := by
  have hfirst : takeBits 5 (natBits 8 128 ++ rest) = some (16, natBits 3 128 ++ rest) := takeBits_natBits_add 5 3 128 rest
  have hlast : takeBits 3 (natBits 3 128 ++ rest) = some (0, rest) := takeBits_natBits 3 128 rest
  simp [nextSym, hfirst, hlast]

/-- The 9-bit codes, those that do not begin with the 8-bit one. -/
theorem nextSym_natBits_nine {c : Nat} (hlo : 258 ≤ c) (hhi : c < 512) (rest : List Bool) :
    nextSym (natBits 9 c ++ rest) = some (c - 257, rest) := by
  have hfirst := takeBits_natBits_add 5 4 c rest
  have hnext := takeBits_natBits_add 3 1 c rest
  have hlast := takeBits_natBits 1 c rest
  have hlong : ¬ c / 2 ^ 4 % 2 ^ 5 < 15 ∧ ¬ c / 2 ^ 4 % 2 ^ 5 = 15 := by omega
  have hlit : ¬ (c / 2 ^ 4 % 2 ^ 5 = 16 ∧ c / 2 ^ 1 % 2 ^ 3 = 0) := by omega
  have hparts : 16 * (c / 2 ^ 4 % 2 ^ 5) + 2 * (c / 2 ^ 1 % 2 ^ 3) + c % 2 ^ 1 - 257 = c - 257 := by omega
  simp only [nextSym, hfirst, hnext, hlast, hlong, hlit, hparts, if_false]

/-- R237: the next symbol of a symbol's code and what follows it is that symbol, with what follows left. -/
theorem nextSym_symCode {s : Nat} (hs : s ≤ 272) (rest : List Bool) : nextSym (symCode s ++ rest) = some (s, rest) := by
  unfold symCode
  split
  case isTrue h => rw [h]; exact nextSym_natBits_eight rest
  case isFalse h272 =>
  split
  case isTrue h => rw [h]; exact nextSym_natBits_six rest
  case isFalse h271 =>
  split
  case isTrue h => rw [nextSym_natBits_five (by omega), Nat.add_sub_cancel' h]
  case isFalse hlit =>
  split
  case isTrue h => rw [h]; exact nextSym_natBits_seven (b := 0) (by decide) rest
  case isFalse h0 =>
  split
  case isTrue h => rw [h]; exact nextSym_natBits_seven (b := 1) (by decide) rest
  case isFalse h255 => rw [nextSym_natBits_nine (by omega) (by omega), Nat.add_sub_cancel_left]

/-- Settles O57: two codes that begin the same stream are read by the same reader, so their symbols are the same. -/
theorem tokenCodeRoundTrip : Obligations.TokenCodeRoundTrip := by
  refine ⟨fun s rest hs => nextSym_symCode hs rest, ?_⟩
  intro s u v w hs hu heq
  have hread : some (s, v) = some (u, w) := by rw [← nextSym_symCode hs v, heq, nextSym_symCode hu w]
  exact Prod.mk.inj (Option.some.inj hread)

end Sys2Proof.Machine
end

section
/-! SUPPORT. Start-up: training of DRAM and of the channels, journal roots and snapshots, and the resident map. Rules R39, R163, R167, R173,
R220, R258, R259, R296. -/
namespace Sys2Proof.Machine

/-- A flag that a change does not name stays as it was. -/
theorem Only.isOn_eq {w : List Fld} {s t : State} (h : Only w s t) {f : Field} (hf : covered w (.reg f) = false) : isOn f t = isOn f s :=
  congrArg (· == 1) (h.getF_eq hf)

/-- A flag that was set is on. -/
theorem isOn_flagOn {f : Field} (s : State) (hw : f.width ≠ 0) : isOn f (flagOn f s) = true :=
  isOn_of_only_flagOn (Only.refl [] _) rfl hw

/-! DRAM training (R296). -/

/-- R296: what DRAM training finds is recorded, and a remap entry stays only where its hPPR failed. -/
theorem dramTrainingEff_trains (sizeGiB : Nat) (trained : BitVec 8) (hpprFails : List Nat) {s : State} (hmode : trainMode s.gen.mode = true) :
    dramTrainingEff sizeGiB trained hpprFails s = setF Reg.ME_REPAIR.HPPR 0 { s with
      me := { s.me with dramGiB := sizeGiB, chOk := trained.toNat, poisoned := [],
                        remap := s.me.remap.filter (fun p => hpprFails.contains p) } } :=
  if_pos hmode

/-- The dispatch of DRAM_TRAINING. -/
theorem exec_dramTraining (sizeGiB : Nat) (trained : BitVec 8) (hpprFails : List Nat) (s : State) :
    exec (.dramTraining sizeGiB trained hpprFails) s = .next (dramTrainingEff sizeGiB trained hpprFails s) := rfl

/-! Training a channel's interface changes which mode its dies run, and nothing else that the media hold (R256, R259). -/

/-- The media of two states differ at most in the modes that their dies run. -/
def SameButIface (s t : State) : Prop := ∃ i, t.nand = { s.nand with iface := i }

/-- Nothing changes. -/
theorem SameButIface.refl (s : State) : SameButIface s s := ⟨_, rfl⟩

/-- Two changes in a row. -/
theorem SameButIface.trans {r s t : State} (h : SameButIface r s) (k : SameButIface s t) : SameButIface r t := by
  obtain ⟨i, hi⟩ := h
  obtain ⟨j, hj⟩ := k
  exact ⟨j, by rw [hj, hi]⟩

/-- A fold of changes. -/
theorem SameButIface.foldl {β : Type} {g : State → β → State} (hg : ∀ t b, SameButIface t (g t b)) (l : List β) (s : State) :
    SameButIface s (l.foldl g s) := by
  induction l generalizing s with
  | nil => exact .refl s
  | cons b l ih => exact (hg s b).trans (ih (g s b))

/-- A die runs another mode. -/
theorem sameButIface_setIface (d : Nat) (m : DieIface) (s : State) : SameButIface s (setIface d m s) := ⟨_, rfl⟩

/-- R256: so it does when it enters or leaves the extended-rate mode. -/
theorem sameButIface_extendedRate (d : Nat) (on : Bool) (s : State) : SameButIface s (extendedRate d on s) := ⟨_, rfl⟩

/-- R256: a die Reset returns a die to SDR at most. -/
theorem sameButIface_dieReset (d : Nat) (s : State) : SameButIface s (dieReset d s) := by
  unfold dieReset
  split
  · exact .refl s
  · exact sameButIface_setIface ..

/-- R258: identification talks to a die in SDR. -/
theorem sameButIface_toSdr (d : Nat) (s : State) : SameButIface s (toSdr d s) := by
  unfold toSdr
  split
  · exact (sameButIface_extendedRate d false s).trans (sameButIface_dieReset ..)
  · exact sameButIface_dieReset ..

/-- R255: a die enters the service mode. -/
theorem sameButIface_toService (d : Nat) (s : State) : SameButIface s (toService d s) := by
  unfold toService
  split
  · exact sameButIface_setIface ..
  · exact sameButIface_setIface ..
  · exact (sameButIface_setIface d .nvddr3 s).trans (sameButIface_extendedRate ..)

/-- R259: as far as training came, its dies run SDR or the service mode. -/
theorem sameButIface_trainIface (ds : List Nat) (failed : Option TrainStep) (s : State) : SameButIface s (trainIface ds failed s) := by
  have hsdr := SameButIface.foldl (fun t d => sameButIface_toSdr d t) ds s
  have hservice := SameButIface.foldl (fun t d => (sameButIface_toSdr d t).trans (sameButIface_toService d _)) ds s
  unfold trainIface
  split
  · exact .refl s
  · exact hsdr
  · exact hsdr
  · exact hsdr
  · exact hservice
  · exact hservice
  · exact hservice
  · exact hservice

/-- What identification finds is kept die by die. -/
theorem discoverDies_cons (channel : Nat) (f : DieFound) (dies : List DieFound) (n : Nand) :
    discoverDies channel (f :: dies) n = discoverDies channel dies (discoverDies channel [f] n) := rfl

/-- R258: what identification finds on one die does not turn on the modes that the dies run. -/
theorem discoverDies_singleton_iface (channel : Nat) (f : DieFound) (n : Nand) (i : List (Nat × DieIface)) :
    discoverDies channel [f] { n with iface := i } = { discoverDies channel [f] n with iface := i } := by
  simp only [discoverDies, List.foldl_cons, List.foldl_nil]
  split
  · rfl
  · rfl

/-- R258: what identification finds does not turn on the modes that the dies run. -/
theorem discoverDies_iface (channel : Nat) (dies : List DieFound) (n : Nand) (i : List (Nat × DieIface)) :
    discoverDies channel dies { n with iface := i } = { discoverDies channel dies n with iface := i } := by
  induction dies generalizing n with
  | nil => rfl
  | cons f dies ih => rw [discoverDies_cons, discoverDies_singleton_iface, ih, ← discoverDies_cons]

/-! Channel training (R258, R259). -/

/-- A channel's training has ended. -/
def channelTrained (c : Nat) (ok : Bool) (s : State) : State :=
  { s with cs := { s.cs with chans := s.cs.chans.modify c (fun x => { x with ok := ok, retrain := 0 }) } }

/-- The dies found that the training of a channel talks to. -/
def trainedDies (c : Nat) (dies : List DieFound) (s : State) : List Nat :=
  (dies.filter (fun f => f.idMatches && decide (f.pos < diePositions s))).map (fun f => 32 * c + f.pos)

/-- After its training a channel is in service or not, and no retrain is in progress. -/
theorem chan_channelTrained {c : Nat} {ok : Bool} {s : State} {x : Channel} (h : (channelTrained c ok s).cs.chans[c]? = some x) :
    x.ok = ok ∧ x.retrain = 0 := by
  rw [channelTrained, List.getElem?_modify_eq, Option.map_eq_map, Option.map_eq_some_iff] at h
  obtain ⟨y, -, rfl⟩ := h
  exact ⟨rfl, rfl⟩

/-- The training of a channel leaves the other channels. -/
theorem chan_channelTrained_ne {c k : Nat} (ok : Bool) (s : State) (h : k ≠ c) : (channelTrained c ok s).cs.chans[k]? = s.cs.chans[k]? :=
  List.getElem?_modify_ne _ _ h.symm

/-- R258, R259: before provisioning a channel that trains is in service, and what it finds on its dies is kept. -/
theorem channelTrainingEff_finds (channel : Fin 64) (dies : List DieFound) {v s : State} (hmode : trainMode s.gen.mode = true)
    (hprov : s.prov.valid = false) (hv : v = trainIface (trainedDies channel.val dies s) none s) :
    channelTrainingEff channel none dies s = { channelTrained channel.val true v with
      nand := discoverDies channel.val (dies.filter (fun f => decide (f.pos < diePositions s))) v.nand } := by
  have honly : Only [.out, .nand] s v := hv ▸ trainIface_only ..
  have hvalid : v.prov.valid = false := by rw [honly.keeps .prov rfl, hprov]
  have hpos : diePositions (channelTrained channel.val true v) = diePositions s := by
    rw [diePositions, diePositions, isOn, isOn, ← honly.getF_eq (f := Reg.CS_CFG.BUF) (by decide +kernel)]
    rfl
  simp only [channelTrainingEff, hmode, not_true_eq_false, if_false]
  rw [trainedDies] at hv
  rw [← hv, if_neg (ne_true_of_eq_false hvalid)]
  exact congrArg (fun n => { channelTrained channel.val true v with
    nand := discoverDies channel.val (dies.filter (fun f => decide (f.pos < n))) v.nand }) hpos

/-- R259: before provisioning a channel on which a step failed twice is only reported and out of service. -/
theorem channelTrainingEff_fails (channel : Fin 64) (step : TrainStep) (dies : List DieFound) {s : State}
    (hmode : trainMode s.gen.mode = true) (hprov : s.prov.valid = false) :
    channelTrainingEff channel (some step) dies s = flagOn Reg.CS_ERR.TRAINFAIL
      (channelTrained channel.val false (trainIface (trainedDies channel.val dies s) (some step) s)) := by
  have hvalid : (trainIface (trainedDies channel.val dies s) (some step) s).prov.valid = false := by
    rw [(trainIface_only ..).keeps .prov rfl, hprov]
  simp only [channelTrainingEff, hmode, not_true_eq_false, if_false]
  exact if_neg (ne_true_of_eq_false hvalid)

/-- The dispatch of CHANNEL_TRAINING. -/
theorem exec_channelTraining (channel : Fin 64) (failedTwice : Option TrainStep) (dies : List DieFound) (s : State) :
    exec (.channelTraining channel failedTwice dies) s = .next (channelTrainingEff channel failedTwice dies s) := rfl

/-! Journal roots and snapshots (R39, R167, R173, R220). -/

/-- Steps 9 and 10 of the start-up run in BOOT of a provisioned Y9. -/
theorem startup_open {s : State} (hmode : s.gen.mode = .boot) (hvalid : s.prov.valid = true) :
    ¬ (s.gen.mode ≠ .boot ∨ ¬ s.prov.valid = true) := by
  simp [hmode, hvalid]

/-- The copies that could not be read are reported. -/
def rootsReported (rootBad snapshotBad : Bool) (s : State) : State :=
  flagIf snapshotBad Reg.SP_ERR.SJCOPY (flagIf rootBad Reg.MX_ERR.ROOTCOPY s)

/-- What reporting unreadable copies may change. -/
theorem rootsReported_only (rootBad snapshotBad : Bool) (s : State) :
    Only [.reg Reg.MX_ERR.ROOTCOPY, .reg Reg.SP_ERR.SJCOPY] s (rootsReported rootBad snapshotBad s) :=
  ((flagIf_only ..).mono (.single (by decide))).trans ((flagIf_only ..).mono (.single (by decide)))

/-- A root copy or an anchor that could not be read is reported. -/
theorem isOn_rootcopy_rootsReported (snapshotBad : Bool) (s : State) :
    isOn Reg.MX_ERR.ROOTCOPY (rootsReported true snapshotBad s) = true :=
  isOn_of_only_flagOn (flagIf_only ..) (by decide) (by decide)

/-- A snapshot copy that could not be read is reported. -/
theorem isOn_sjcopy_rootsReported (rootBad : Bool) (s : State) : isOn Reg.SP_ERR.SJCOPY (rootsReported rootBad true s) = true :=
  isOn_flagOn _ (by decide)

/-- SP's tables come from the snapshot taken, the media and the provisioning record; with no snapshot that is reported. -/
def snapshotLoaded (snap : Option Snap) (s : State) : State :=
  let p := s.nand.phys
  let subst := (snap.map (·.subst)).getD []
  let fails := p.failedDies ++ (subst.filterMap (fun e => if e.state = 4 then none else some e.src)).filter (fun d => !p.failedDies.contains d)
  flagIf snap.isNone Reg.SP_ERR.SJLOST { s with sp := { s.sp with
    snapSeq := (snap.map (·.seq)).getD 0, taken := snap, subst := subst, voids := (snap.map (·.voids)).getD [],
    groups := if p.groups.isEmpty then s.prov.groups else p.groups,
    spares := if p.groups.isEmpty then s.prov.spares else p.spares,
    failedDies := s.sp.failedDies ++ fails.filter (fun d => !s.sp.failedDies.contains d) } }

/-- What loading a snapshot may change. -/
theorem snapshotLoaded_only (snap : Option Snap) (s : State) : Only [.sp, .reg Reg.SP_ERR.SJLOST] s (snapshotLoaded snap s) :=
  (Only.upd_sp (by decide) (Only.refl _ s)).trans ((flagIf_only ..).mono (.single (by decide)))

/-- The snapshot loaded is the one taken. -/
theorem sp_snapshotLoaded (snap : Option Snap) (s : State) :
    (snapshotLoaded snap s).sp.taken = snap ∧ (snapshotLoaded snap s).sp.snapSeq = (snap.map (·.seq)).getD 0 := by
  cases snap
  · exact ⟨rfl, rfl⟩
  · exact ⟨rfl, rfl⟩

/-- The start-up kind, and whether a DRAIN completed, are set. -/
def startKindSet (s : State) : State :=
  setF Reg.GEN_START.DRAINOK (if s.nand.drainDone then 1 else 0) (setF Reg.GEN_START.KIND (if cleanKind s then 0 else 1) s)

/-- What setting the start-up kind may change. -/
theorem startKindSet_only (s : State) : Only [.reg Reg.GEN_START.KIND, .reg Reg.GEN_START.DRAINOK] s (startKindSet s) :=
  ((setF_only ..).mono (.single (by decide))).trans ((setF_only ..).mono (.single (by decide)))

/-- R39: KIND is 0 after a clean stop and else 1. -/
theorem getF_kind_startKindSet (s : State) : getF Reg.GEN_START.KIND (startKindSet s) = if cleanKind s then 0 else 1 := by
  rw [startKindSet, getF_setF_ne _ _ (by decide), getF_setF_self]
  split
  · rfl
  · rfl

/-- DRAINOK is 1 after a DRAIN that completed and else 0. -/
theorem getF_drainok_startKindSet (s : State) : getF Reg.GEN_START.DRAINOK (startKindSet s) = if s.nand.drainDone then 1 else 0 := by
  rw [startKindSet, getF_setF_self]
  split
  · rfl
  · rfl

/-- The start-up kind is a fact about the media and the last stop. -/
theorem cleanKind_congr {s t : State} (hnand : t.nand = s.nand) (hgen : t.gen = s.gen) : cleanKind t = cleanKind s := by
  simp only [cleanKind, newestRoot, hnand, hgen]

/-- R220: without the peer's snapshot the newest local one is taken. -/
theorem takenSnap_none (s : State) : takenSnap none s = s.nand.snaps.head? := by
  cases h : s.nand.snaps.head? with
  | none => simp only [takenSnap, h]
  | some a => simp only [takenSnap, h]

/-- R39, R167, R220: at start-up a provisioned Y9 that is no twin member takes the newest local snapshot, and sets the start-up kind. -/
theorem journalRootReadEff_local (rootCopyBad anchorBad snapshotCopyBad : Bool) (peer : Option Snap) {r s : State}
    (hmode : s.gen.mode = .boot) (hvalid : s.prov.valid = true) (hpair : s.prov.pair = none)
    (hr : r = rootsReported (rootCopyBad || anchorBad) snapshotCopyBad s) :
    journalRootReadEff rootCopyBad anchorBad snapshotCopyBad peer s = startKindSet (snapshotLoaded s.nand.snaps.head? r) := by
  have honly : Only [.reg Reg.MX_ERR.ROOTCOPY, .reg Reg.SP_ERR.SJCOPY] s r := hr ▸ rootsReported_only ..
  have htaken : takenSnap (if r.prov.pair.isSome then peer else none) r = s.nand.snaps.head? := by
    rw [honly.keeps .prov rfl, hpair, ← honly.keeps .nand rfl]
    exact takenSnap_none r
  rw [← htaken, hr]
  exact if_neg (startup_open hmode hvalid)

/-- Reporting, loading and setting the kind leave what the media hold and how the last stop was. -/
theorem cleanKind_snapshotLoaded (snap : Option Snap) (rootBad snapshotBad : Bool) (s : State) :
    cleanKind (snapshotLoaded snap (rootsReported rootBad snapshotBad s)) = cleanKind s :=
  cleanKind_congr
    (((snapshotLoaded_only ..).keeps .nand rfl).trans ((rootsReported_only ..).keeps .nand rfl))
    (((snapshotLoaded_only ..).keeps .gen rfl).trans ((rootsReported_only ..).keeps .gen rfl))

/-- The dispatch of JOURNAL_ROOT_READ. -/
theorem exec_journalRootRead (rootCopyBad anchorBad snapshotCopyBad : Bool) (peer : Option Snap) (s : State) :
    exec (.journalRootRead rootCopyBad anchorBad snapshotCopyBad peer) s =
      .next (journalRootReadEff rootCopyBad anchorBad snapshotCopyBad peer s) := rfl

/-! The resident map (R163, R173). -/

/-- The dispatch of RESIDENT_MAP_LOAD. -/
theorem exec_residentMapLoad (s : State) : exec .residentMapLoad s = .next (residentMapLoadEff s) := rfl

/-! The statement. -/

/-- Settles O7: each clause is the one branch its hypotheses choose, and what that branch leaves. -/
theorem mediaAndDramTraining : Obligations.MediaAndDramTraining := by
  refine ⟨?_, ?_, ?_, ?_, ?_⟩
  · -- DRAM trains.
    intro sizeGiB trained hpprFails s hmode
    have he := dramTrainingEff_trains sizeGiB trained hpprFails hmode
    refine ⟨_, exec_dramTraining .., dramTrainingEff_only .., he ▸ rfl, he ▸ rfl, he ▸ rfl, he ▸ rfl, he ▸ rfl, ?_⟩
    rw [he, getF_setF_self]
    rfl
  · -- A channel trains before provisioning.
    rintro channel _ dies s hmode rfl hprov
    have he := channelTrainingEff_finds channel dies hmode hprov rfl
    have honly := trainIface_only (trainedDies channel.val dies s) none s
    obtain ⟨i, hi⟩ := sameButIface_trainIface (trainedDies channel.val dies s) none s
    rw [hi, discoverDies_iface] at he
    refine ⟨_, exec_channelTraining .., (channelTrainingEff_only ..).mono (.ofAll (by decide +kernel)), ?_, ?_, ?_, ?_, ?_, ?_⟩
    · intro x hx
      rw [he] at hx
      exact chan_channelTrained hx
    · intro k hk
      rw [he, ← honly.keeps .cs rfl]
      exact chan_channelTrained_ne true _ hk
    · rw [he]
    · rw [he]
    · rw [he]
      exact honly.keeps .sp rfl
    · rw [he]
      exact honly.keeps .prov rfl
  · -- A step failed twice before provisioning.
    rintro channel _ step dies s hmode rfl hprov
    have he := channelTrainingEff_fails channel step dies hmode hprov
    obtain ⟨i, hi⟩ := sameButIface_trainIface (trainedDies channel.val dies s) (some step) s
    refine ⟨_, exec_channelTraining .., (channelTrainingEff_only ..).mono (.ofAll (by decide +kernel)), ?_, ?_, ?_, ?_⟩
    · intro x hx
      rw [he] at hx
      exact (chan_channelTrained hx).1
    · rw [he]
      exact isOn_flagOn _ (by decide)
    · rw [he]
      exact congrArg (·.dies) hi
    · rw [he]
      exact (trainIface_only ..).keeps .sp rfl
  · -- The roots and the newest local snapshot.
    intro rootCopyBad anchorBad snapshotCopyBad peer s hmode hvalid hpair
    have he := journalRootReadEff_local rootCopyBad anchorBad snapshotCopyBad peer hmode hvalid hpair rfl
    obtain ⟨htaken, hseq⟩ := sp_snapshotLoaded s.nand.snaps.head? (rootsReported (rootCopyBad || anchorBad) snapshotCopyBad s)
    have hload := snapshotLoaded_only s.nand.snaps.head? (rootsReported (rootCopyBad || anchorBad) snapshotCopyBad s)
    refine ⟨_, exec_journalRootRead .., journalRootReadEff_only .., ?_⟩
    have hkind := startKindSet_only (snapshotLoaded s.nand.snaps.head? (rootsReported (rootCopyBad || anchorBad) snapshotCopyBad s))
    rw [he]
    refine ⟨htaken, hseq, ?_, ?_, ?_, ?_, ?_⟩
    · rw [getF_kind_startKindSet, cleanKind_snapshotLoaded]
    · rw [getF_drainok_startKindSet, hload.keeps .nand rfl, (rootsReported_only ..).keeps .nand rfl]
    · intro hbad
      rw [hkind.isOn_eq (by decide), hload.isOn_eq (by decide), hbad]
      exact isOn_rootcopy_rootsReported ..
    · rintro rfl
      rw [hkind.isOn_eq (by decide), hload.isOn_eq (by decide)]
      exact isOn_sjcopy_rootsReported ..
    · intro hnone
      rw [hkind.isOn_eq (by decide), hnone]
      exact isOn_flagOn _ (by decide)
  · -- The resident map.
    intro s hmode hvalid
    refine ⟨_, exec_residentMapLoad s, residentMapLoadEff_only s, ?_⟩
    rw [residentMapLoadEff, if_neg (startup_open hmode hvalid)]
    exact ⟨rfl, rfl, rfl, rfl, rfl, rfl, rfl, rfl⟩

end Sys2Proof.Machine
end

section
/-! SUPPORT. Channel sequencers: their faults, the retraining of channels, and patch sets. Rules R259, R260,
R262, R264, R265, R269 to R271. -/
namespace Sys2Proof.Machine

/-! Faulted sequencers (R262, R264, R265). -/

/-- The next state that an outcome answers is the one its frame speaks of. -/
theorem Only.of_next {w : List Fld} {s u : State} {o : Host.Outcome State Fault Refusal} (h : ∃ t, o = .next t ∧ Only w s t)
    (ho : o = .next u) : Only w s u := by
  obtain ⟨t, ht, honly⟩ := h
  cases ho.symm.trans ht
  exact honly

/-- R262: the fault is flagged, its sequencer is named, and the sequencer is out of service for good. -/
def seqRecorded (k q : Nat) (flag : Field) (s : State) : State :=
  unitOut 1 (9 * k + q) (updCluster k (fun c => { c with faulted := c.faulted ++ [q] }) (setF Reg.CS_TAKEOVER.FAILSEQ (9 * k + q) (flagOn flag s)))

/-- R271: an activation that stands at this cluster leaves it. -/
def activationLeaves (k : Nat) (s : State) : State := if s.cs.act.any (fun a => a.1 == k) then stallActivation k s else s

section
variable {k q phy sp : Nat} {s : State} (flag : Field) (took : Nat)

/-- A sequencer that has faulted before is out of service already. -/
theorem seqFaulted_again (hold : (getCluster k s).faulted.contains q = true) : seqFaulted k q flag took s = s := if_pos hold

/-- R264: the spare takes over the PHY of a faulted sequencer. -/
theorem seqFaulted_spare (hnew : (getCluster k s).faulted.contains q = false) (hphy : phyOf q (getCluster k s) = some phy)
    (hspare : (getCluster k s).spare = some sp) :
    seqFaulted k q flag took s = activationLeaves k (takeOver k phy q sp took (seqRecorded k q flag s)) := by
  simp only [seqFaulted, hnew, hphy, hspare, Bool.false_eq_true, if_false]
  rfl

/-- R265: without a spare the channel of a faulted sequencer fails. -/
theorem seqFaulted_noSpare (hnew : (getCluster k s).faulted.contains q = false) (hphy : phyOf q (getCluster k s) = some phy)
    (hspare : (getCluster k s).spare = none) :
    seqFaulted k q flag took s = activationLeaves k (noTakeOver k phy (seqRecorded k q flag s)) := by
  simp only [seqFaulted, hnew, hphy, hspare, Bool.false_eq_true, if_false]
  rfl

/-- R264: a faulted sequencer that serves no PHY stays out of service for good, so it is no spare any more. -/
theorem seqFaulted_noPhy (hnew : (getCluster k s).faulted.contains q = false) (hphy : phyOf q (getCluster k s) = none) :
    seqFaulted k q flag took s = activationLeaves k
      (updCluster k (fun c => { c with spare := if c.spare = some q then none else c.spare }) (seqRecorded k q flag s)) := by
  simp only [seqFaulted, hnew, hphy, Bool.false_eq_true, if_false]
  rfl

end

/-- The dispatch of YIELD_TIMEOUT. -/
theorem exec_yieldTimeout (cluster : Fin 8) (seq : Fin 9) (took : Nat) (s : State) :
    exec (.yieldTimeout cluster seq took) s = .next (seqFaulted cluster.val seq.val Reg.CS_ERR.YIELDTO took s) := rfl

/-- The flag of a fault's cause (R262). -/
def seqFaultFlag : SeqFault → Field
  | .microwordCheck => Reg.CS_ERR.MWCHK
  | _ => Reg.CS_ERR.SEQFAULT

/-- The dispatch of SEQUENCER_FAULT. -/
theorem exec_sequencerFault (cluster : Fin 8) (seq : Fin 9) (cause : SeqFault) (took : Nat) (s : State) :
    exec (.sequencerFault cluster seq cause took) s = .next (seqFaulted cluster.val seq.val (seqFaultFlag cause) took s) := rfl

/-! Retraining (R258 to R260). -/

/-- R260: a retrain begins on a channel in service: three steps, with the channel booked for them. -/
theorem channelRetrainEff_begins {channel : Fin 64} {tempDelta : Nat} {x : Channel} {s : State} (hmode : mediaMode s.gen.mode = true)
    (hx : s.cs.chans[channel.val]? = some x) (hok : x.ok = true) (hdelta : tempDelta = 0 ∨ getF Reg.CS_TRAIN.TDELTA s ≤ tempDelta) :
    channelRetrainEff channel tempDelta s =
      book ⟨.chan channel.val, lineFree s.fs.bookings (.chan channel.val) 12 (s.fs.bookings.length + 1) (fretNow s + 1), 12, 0, none, 0, 0,
        false, false⟩ { s with cs := { s.cs with chans := s.cs.chans.modify channel.val (fun x => { x with retrain := 3 }) } } := by
  have hsmall : ¬ (0 < tempDelta ∧ tempDelta < getF Reg.CS_TRAIN.TDELTA s) := by omega
  refine if_neg ?_
  simp only [hmode, hx, Option.any_some, hok, not_true_eq_false, false_or]
  exact hsmall

/-- The dispatch of CHANNEL_RETRAIN. -/
theorem exec_channelRetrain (channel : Fin 64) (tempDelta : Nat) (s : State) :
    exec (.channelRetrain channel tempDelta) s = .next (channelRetrainEff channel tempDelta s) := rfl

section
variable {channel : Fin 64} {x : Channel} {s : State} (hx : s.cs.chans[channel.val]? = some x)
include hx

/-- A channel that is not retraining takes no step. -/
theorem retrainStepEff_idle (failedTwice : Bool) (idChanged : List Nat) (hidle : x.retrain = 0) :
    retrainStepEff channel failedTwice idChanged s = s :=
  if_pos (by simp [hx, hidle])

/-- R260: a retrain step that failed twice fails the channel, and with it the reads booked on it. -/
theorem retrainStepEff_fails (idChanged : List Nat) (hstep : x.retrain ≠ 0) : retrainStepEff channel true idChanged s =
    declareChannelFailed channel.val (chanReadsFail channel.val (flagOn Reg.CS_ERR.TRAINFAIL s)) :=
  if_neg (by simp [hx, hstep])

/-- A step on dies that are all the same as before counts down the steps left. -/
theorem retrainStepEff_passes (hstep : x.retrain ≠ 0) : retrainStepEff channel false [] s =
    { s with cs := { s.cs with chans := s.cs.chans.modify channel.val (fun x => { x with retrain := x.retrain - 1 }) } } :=
  if_neg (by simp [hx, hstep])

/-- A change of the channel is read back. -/
theorem chan_modify_self (f : Channel → Channel) : (s.cs.chans.modify channel.val f)[channel.val]? = some (f x) := by
  rw [List.getElem?_modify_eq, hx]
  rfl

end

/-- The dispatch of RETRAIN_STEP. -/
theorem exec_retrainStep (channel : Fin 64) (failedTwice : Bool) (idChanged : List Nat) (s : State) :
    exec (.retrainStep channel failedTwice idChanged) s = .next (retrainStepEff channel failedTwice idChanged s) := rfl

/-! Patch sets (R269, R270). -/

section
variable {p : PatchSet} {s : State}

/-- R269, R270: a set in the right format, signed and with both comparison flags, is taken. -/
theorem setFlag_good (hformat : setFormatOk p s = true) (hsig : p.sigOk = true) (hflags : acceptFlags p.flagA p.flagB = true) :
    setFlag p s = none := by
  simp only [setFlag, hformat, hsig, hflags, not_true_eq_false, or_self, if_false]

/-- R269: a set in another format is refused for that. -/
theorem setFlag_format (hformat : setFormatOk p s = false) : setFlag p s = some Reg.CS_ERR.PATCHFMT := if_pos (by simp [hformat])

/-- R270: a set in the right format is refused for its signature. -/
theorem setFlag_sig (hformat : setFormatOk p s = true) (hsig : p.sigOk = false) : setFlag p s = some Reg.CS_ERR.PATCHSIG := by
  rw [setFlag, if_neg (by simp [hformat]), if_pos (.inl (by simp [hsig]))]

variable {cluster : Fin 8}

/-- R270: at start-up a set that is taken goes into bank A. -/
theorem patchSetLoadEff_startup (hmode : s.gen.mode = .boot) (hgood : setFlag p s = none) :
    patchSetLoadEff cluster p true s = loadBank cluster.val false p s := by
  simp only [patchSetLoadEff, hmode, hgood, ne_eq, not_true_eq_false, if_true, if_false]

/-- R270: at start-up a set that is refused is flagged, and counts against the boot image. -/
theorem patchSetLoadEff_startupRefused {f : Field} (hmode : s.gen.mode = .boot) (hbad : setFlag p s = some f) :
    patchSetLoadEff cluster p true s = startupSetFailed (flagOn f s) := by
  simp only [patchSetLoadEff, hmode, hbad, ne_eq, not_true_eq_false, if_true, if_false]

/-- With no activation in progress no set is loaded. -/
theorem patchSetLoadEff_inactive (hact : s.cs.act = none) : patchSetLoadEff cluster p false s = s := by
  simp only [patchSetLoadEff, hact, Bool.false_eq_true, if_false]
  exact if_pos (by simp)

variable (hact : s.cs.act = some (cluster.val, 0)) (hspare : (getCluster cluster.val s).spare.isSome = true)
include hact hspare

/-- R270: an activation ends with a set that is refused. -/
theorem patchSetLoadEff_refused {f : Field} (hbad : setFlag p s = some f) :
    patchSetLoadEff cluster p false s = activationFailed (flagOn f s) := by
  have hnotNone := Option.isNone_eq_false_iff.mpr hspare
  simp only [patchSetLoadEff, hact, hnotNone, hbad, ne_eq, not_true_eq_false, Bool.false_eq_true, if_false]

/-- R270: an activation loads a bank that no sequencer uses, B before A. -/
theorem patchSetLoadEff_active (hgood : setFlag p s = none) : patchSetLoadEff cluster p false s =
    if bankUsed (getCluster cluster.val s) true = false then loadBank cluster.val true p s
    else if bankUsed (getCluster cluster.val s) false = false then loadBank cluster.val false p s else s := by
  have hnotNone := Option.isNone_eq_false_iff.mpr hspare
  simp only [patchSetLoadEff, hact, hnotNone, hgood, ne_eq, not_true_eq_false, Bool.false_eq_true, if_false, Bool.not_eq_true]

end

/-- The dispatch of PATCH_SET_LOAD. -/
theorem exec_patchSetLoad (cluster : Fin 8) (p : PatchSet) (atStartup : Bool) (s : State) :
    exec (.patchSetLoad cluster p atStartup) s = .next (patchSetLoadEff cluster p atStartup s) := rfl

/-! Hand-offs (R271). -/

/-- The dispatch of PATCH_HANDOFF. -/
theorem exec_patchHandoff (cluster phy : Fin 8) (s : State) :
    exec (.patchHandoff cluster phy) s = .next (patchHandoffEff cluster phy s) := rfl

/-- With no activation in progress no PHY is handed off. -/
theorem patchHandoffEff_inactive (cluster phy : Fin 8) {s : State} (hact : s.cs.act = none) : patchHandoffEff cluster phy s = s :=
  if_pos (by simp [hact])

/-! The statement. -/

/-- Settles O27: each clause is the one branch its hypotheses choose. -/
theorem sequencersAndPatches : Obligations.SequencersAndPatches := by
  refine ⟨?_, ?_, ?_, ?_, ?_, ?_, ?_, ?_, ?_, ?_, ?_, ?_, ?_, ?_, ?_, ?_, ?_, ?_, ?_, ?_, ?_⟩
  · -- A fault with a spare.
    rintro cluster seq cause took phy sp f u s hnew hphy hspare rfl rfl
    exact ⟨_, exec_sequencerFault .., (Only.of_next (execSequencerFault_only ..) rfl).mono (.ofAll (by decide +kernel)),
      seqFaulted_spare _ took hnew hphy hspare⟩
  · -- A fault of a sequencer out of service.
    intro cluster seq cause took s hold
    rw [exec_sequencerFault, seqFaulted_again _ took hold]
  · -- A lost yield without a spare.
    intro cluster seq took phy s hnew hphy hspare
    exact ⟨_, exec_yieldTimeout .., (Only.of_next (execYieldTimeout_only ..) rfl).mono (.ofAll (by decide +kernel)),
      seqFaulted_noSpare _ took hnew hphy hspare⟩
  · -- A lost yield of a sequencer out of service.
    intro cluster seq took s hold
    rw [exec_yieldTimeout, seqFaulted_again _ took hold]
  · -- A retrain begins.
    intro channel tempDelta x s hmode hx hok hdelta
    have he := channelRetrainEff_begins hmode hx hok hdelta
    exact ⟨_, exec_channelRetrain .., channelRetrainEff_only .., he ▸ chan_modify_self hx _, he ▸ rfl⟩
  · -- A channel out of service does not retrain.
    intro channel tempDelta s hout
    exact congrArg Host.Outcome.next (if_pos (.inr (.inl (by simp [hout]))))
  · -- A step passes.
    rintro channel _ x s hx hstep rfl
    have he := retrainStepEff_passes hx hstep
    exact ⟨_, exec_retrainStep .., (retrainStepEff_only ..).mono (.ofAll (by decide +kernel)), he ▸ chan_modify_self hx _, he ▸ rfl⟩
  · -- A step failed twice.
    rintro channel _ idChanged x s hx hstep rfl
    exact ⟨_, exec_retrainStep .., (retrainStepEff_only ..).mono (.ofAll (by decide +kernel)), retrainStepEff_fails hx idChanged hstep⟩
  · -- No retrain is in progress.
    intro channel failedTwice idChanged x s hx hidle
    rw [exec_retrainStep, retrainStepEff_idle hx failedTwice idChanged hidle]
  · -- A set at start-up.
    rintro cluster p _ s rfl hmode hformat hsig hflags
    exact ⟨_, exec_patchSetLoad .., (patchSetLoadEff_only ..).mono (.ofAll (by decide +kernel)),
      patchSetLoadEff_startup hmode (setFlag_good hformat hsig hflags)⟩
  · -- A set at start-up in another format.
    rintro cluster p _ s rfl hmode hformat
    have he : patchSetLoadEff cluster p true s = _ := patchSetLoadEff_startupRefused hmode (setFlag_format hformat)
    exact ⟨_, exec_patchSetLoad .., (patchSetLoadEff_only ..).mono (.ofAll (by decide +kernel)), he,
      he ▸ isOn_flagOn (f := Reg.CS_ERR.PATCHFMT) s (by decide)⟩
  · -- A set in an activation with a wrong signature.
    rintro cluster p _ s rfl hact hspare hformat hsig
    exact ⟨_, exec_patchSetLoad .., (patchSetLoadEff_only ..).mono (.ofAll (by decide +kernel)),
      patchSetLoadEff_refused hact (Option.isSome_iff_ne_none.mpr hspare) (setFlag_sig hformat hsig)⟩
  · -- A set without an activation.
    rintro cluster p _ s rfl hact
    rw [exec_patchSetLoad, patchSetLoadEff_inactive hact]
  · -- A hand-off to the spare, whose new bank is loaded.
    intro cluster phy s hact hspare hloaded
    refine ⟨_, exec_patchHandoff .., (patchHandoffEff_only ..).mono (.ofAll (by decide +kernel)), ?_⟩
    simp only [patchHandoffEff, hact, hspare, hloaded, ne_eq, not_true_eq_false, Bool.false_eq_true, if_false]
  · -- A hand-off without an activation.
    intro cluster phy s hact
    rw [exec_patchHandoff, patchHandoffEff_inactive cluster phy hact]
  · -- A fault without a spare.
    intro cluster seq cause took phy s hnew hphy hspare
    exact ⟨_, exec_sequencerFault .., (Only.of_next (execSequencerFault_only ..) rfl).mono (.ofAll (by decide +kernel)),
      seqFaulted_noSpare _ took hnew hphy hspare⟩
  · -- A fault of a sequencer that serves no PHY.
    intro cluster seq cause took s hnew hphy
    exact ⟨_, exec_sequencerFault .., (Only.of_next (execSequencerFault_only ..) rfl).mono (.ofAll (by decide +kernel)),
      seqFaulted_noPhy _ took hnew hphy⟩
  · -- A lost yield with a spare.
    intro cluster seq took phy sp s hnew hphy hspare
    exact ⟨_, exec_yieldTimeout .., (Only.of_next (execYieldTimeout_only ..) rfl).mono (.ofAll (by decide +kernel)),
      seqFaulted_spare _ took hnew hphy hspare⟩
  · -- A lost yield of a sequencer that serves no PHY.
    intro cluster seq took s hnew hphy
    exact ⟨_, exec_yieldTimeout .., (Only.of_next (execYieldTimeout_only ..) rfl).mono (.ofAll (by decide +kernel)),
      seqFaulted_noPhy _ took hnew hphy⟩
  · -- A set in an activation, with bank B free.
    rintro cluster p _ s rfl hact hspare hformat hsig hflags hfree
    exact ⟨_, exec_patchSetLoad .., (patchSetLoadEff_only ..).mono (.ofAll (by decide +kernel)),
      (patchSetLoadEff_active hact hspare (setFlag_good hformat hsig hflags)).trans (if_pos hfree)⟩
  · -- A set in an activation, with bank A free.
    rintro cluster p _ s rfl hact hspare hformat hsig hflags hused hfree
    exact ⟨_, exec_patchSetLoad .., (patchSetLoadEff_only ..).mono (.ofAll (by decide +kernel)),
      (patchSetLoadEff_active hact hspare (setFlag_good hformat hsig hflags)).trans
        ((if_neg (ne_false_of_eq_true hused)).trans (if_pos hfree))⟩

end Sys2Proof.Machine
end

section
/-! SUPPORT. Buffers and memory lines: allocation and free, the rebuild of a pool, failed line checks, stale accesses and merge entries.
Rules R280, R283, R285, R287, R290, R292, R293. -/
namespace Sys2Proof.Machine

/-! Allocation (R283, R287). -/

section
variable {o n : Nat} {vc0 : Bool} {s : State}

/-- R283: an allocation that the counts do not admit fails as a whole. -/
theorem bpAlloc_refused {why : AllocFail} (hcheck : allocCheck o n vc0 s = some why) :
    bpAlloc o n vc0 s = (none, allocFailed o why s) := by
  simp only [bpAlloc, hcheck]

/-- R283: an admitted allocation that the pools can deliver is granted. -/
theorem bpAlloc_granted {is : List Nat} {u : State} (hcheck : allocCheck o n vc0 s = none) (htake : takeBufs o n s = (is, true, u)) :
    bpAlloc o n vc0 s = (some is, u) := by
  simp only [bpAlloc, hcheck, htake]

/-- R287: an admitted allocation that no pool can deliver is revoked. -/
theorem bpAlloc_revoked {is : List Nat} {u : State} (hcheck : allocCheck o n vc0 s = none) (htake : takeBufs o n s = (is, false, u)) :
    bpAlloc o n vc0 s = (none, flagOn Reg.BP_ERR.REVOKE (bpErr (is.getLast?.getD 0) o 3 (putBufs is u))) := by
  simp only [bpAlloc, hcheck, htake]

end

/-- BP answers a request of 1 to 512 buffers. -/
theorem bufferAllocateEff_asked (owner : Fin 16) {n : Nat} (vc0 : Bool) (s : State) (hlo : 1 ≤ n) (hhi : n ≤ 512) :
    bufferAllocateEff owner.val n vc0 s = (bpAlloc owner.val n vc0 s).2 :=
  if_pos ⟨owner.isLt, hlo, hhi⟩

/-- A request of no buffer, or of more than 512, is none. -/
theorem bufferAllocateEff_unasked (owner : Nat) {n : Nat} (vc0 : Bool) (s : State) (hn : n = 0 ∨ 512 < n) :
    bufferAllocateEff owner n vc0 s = s :=
  if_neg (by omega)

/-- The dispatch of BUFFER_ALLOCATE. -/
theorem exec_bufferAllocate (owner : Fin 16) (n : Nat) (vc0 : Bool) (s : State) :
    exec (.bufferAllocate owner n vc0) s = .next (bufferAllocateEff owner.val n vc0 s) := rfl

/-! Errors of a free (R285). -/

section
variable (index owner cause : Nat) (s : State)

/-- BP_ERRBUF names the buffer. -/
theorem getF_index_bpErr : getF Reg.BP_ERRBUF.INDEX (bpErr index owner cause s) = index % 2 ^ Reg.BP_ERRBUF.INDEX.width := by
  rw [bpErr, getF_setF_ne _ _ (by decide), getF_setF_ne _ _ (by decide), getF_setF_self]

/-- BP_ERRBUF names the owner. -/
theorem getF_owner_bpErr : getF Reg.BP_ERRBUF.OWNER (bpErr index owner cause s) = owner % 2 ^ Reg.BP_ERRBUF.OWNER.width := by
  rw [bpErr, getF_setF_ne _ _ (by decide), getF_setF_self]

/-- BP_ERRBUF names the cause. -/
theorem getF_cause_bpErr : getF Reg.BP_ERRBUF.CAUSE (bpErr index owner cause s) = cause % 2 ^ Reg.BP_ERRBUF.CAUSE.width := by
  rw [bpErr, getF_setF_self]

/-- A double free changes its flag and the event log beside what BP_ERRBUF records. -/
theorem doubleFree_only_bpErr :
    Only (.reg Reg.BP_ERR.DBLFREE :: logging) (bpErr index owner 0 s) (doubleFree index owner s) := by
  have hlog := logEvent_only 0x0201 2 9 true [index, owner] (flagOn Reg.BP_ERR.DBLFREE (bpErr index owner 0 s))
  exact hlog.step (.ofAll (by decide)) ((flagOn_only ..).mono (.ofAll (by decide)))

/-- A double free is flagged, also after its entry in the event log. -/
theorem isOn_dblfree_doubleFree : isOn Reg.BP_ERR.DBLFREE (doubleFree index owner s) = true :=
  isOn_of_only_flagOn (logEvent_only ..) (by decide) (by decide)

end

/-! A free that is accepted (R285, R292). -/

/-- A buffer that goes back to its pool leaves the lines of the memories alone. -/
theorem me_putBuf (i : Nat) (s : State) : (putBuf i s).me = s.me := (putBuf_only ..).keeps .me rfl

/-- No line of a buffer stays poisoned when the buffer goes back. -/
theorem poisoned_acceptFree {index l : Nat} {s : State} (hl : l ∈ bufLines index s) :
    (acceptFree index s).me.poisoned.contains l = false := by
  rw [acceptFree, me_putBuf]
  simp [hl]

/-! BUFFER_FREE (R285). -/

section
variable {index owner : Nat} {s : State}

/-- A free of a buffer that is free already. -/
theorem bufferFreeEff_unused (hfree : (getBuf index s).used = false) : bufferFreeEff index owner s = doubleFree index owner s :=
  if_pos hfree

variable (hused : (getBuf index s).used = true)
include hused

/-- A free of a buffer that the owner does not hold is refused. -/
theorem bufferFreeEff_foreign (howner : (getBuf index s).owner ≠ some owner) :
    bufferFreeEff index owner s = flagOn Reg.BP_ERR.OWNFREE (bpErr index owner 1 s) :=
  (if_neg (ne_false_of_eq_true hused)).trans (if_pos howner)

/-- A free of a buffer that the owner holds is accepted. -/
theorem bufferFreeEff_own (howner : (getBuf index s).owner = some owner) : bufferFreeEff index owner s = acceptFree index s :=
  (if_neg (ne_false_of_eq_true hused)).trans (if_neg (not_not.mpr howner))

end

/-- The dispatch of BUFFER_FREE. -/
theorem exec_bufferFree (index : Nat) (owner : Fin 16) (s : State) :
    exec (.bufferFree index owner) s = .next (bufferFreeEff index owner.val s) := rfl

/-! The rebuild of a pool (R287). -/

/-- A change of a pool is read back. -/
theorem getPool_updPool_self {p : Nat} (f : Pool → Pool) {s : State} (hp : p < s.bp.pools.length) :
    getPool p (updPool p f s) = f (getPool p s) := by
  simp [getPool, updPool, hp]

/-- R287: a rebuilt pool leaves quarantine, and its list begins anew. -/
theorem poolRebuildDoneEff_quarantined {pool : Nat} {s : State} (hquar : (getPool pool s).quar = true) :
    poolRebuildDoneEff pool s = updPool pool (fun P => { P with quar := false, usable := [], head := [], fresh := 0 }) s :=
  if_pos hquar

/-- A pool that is not in quarantine is not rebuilt. -/
theorem poolRebuildDoneEff_idle {pool : Nat} {s : State} (hquar : (getPool pool s).quar = false) : poolRebuildDoneEff pool s = s :=
  if_neg (ne_true_of_eq_false hquar)

/-- The dispatch of POOL_REBUILD_DONE. -/
theorem exec_poolRebuildDone (pool : Fin 16) (s : State) :
    exec (.poolRebuildDone pool) s = .next (poolRebuildDoneEff pool.val s) := rfl

/-! Failed line checks (R293). -/

section
variable {address : Nat} {kind : LineKind} {s u : State}

/-- A line that is restored counts in ME_REFETCH.RESTORED, and its failure against its page or row. -/
theorem lineCheckFailureEff_restored (hline : restoreLine address kind (chkRecorded address s) = (some true, u)) :
    lineCheckFailureEff address kind s = countUnit address (bump Reg.ME_REFETCH.RESTORED u) := by
  simp only [lineCheckFailureEff, hline]

/-- A line that is poisoned counts in ME_REFETCH.POISONED, and its failure against its page or row. -/
theorem lineCheckFailureEff_poisoned (hline : restoreLine address kind (chkRecorded address s) = (some false, u)) :
    lineCheckFailureEff address kind s = countUnit address (bump Reg.ME_REFETCH.POISONED u) := by
  simp only [lineCheckFailureEff, hline]

end

/-- The dispatch of LINE_CHECK_FAILURE. -/
theorem exec_lineCheckFailure (address : Nat) (kind : LineKind) (s : State) :
    exec (.lineCheckFailure address kind) s = .next (lineCheckFailureEff address kind s) := rfl

/-! Stale accesses (R290). -/

/-- R290: the record of a stale access, with its count, its flag and its code in ME_LASTHI. -/
def staleRecorded (address kind : Nat) (flag count : Field) (s : State) : State :=
  setF Reg.ME_LASTHI.KIND kind (flagOn flag (bump count { s with me := { s.me with last := address } }))

section
variable (address kind : Nat) {flag count : Field} (s : State)

/-- ME_LASTHI carries the code of a stale access. -/
theorem getF_kind_staleRecorded : getF Reg.ME_LASTHI.KIND (staleRecorded address kind flag count s) = kind % 2 ^ Reg.ME_LASTHI.KIND.width :=
  getF_setF_self ..

/-- A stale access is flagged. -/
theorem isOn_staleRecorded (hkind : covered [.reg Reg.ME_LASTHI.KIND] (.reg flag) = false) (hw : flag.width ≠ 0) :
    isOn flag (staleRecorded address kind flag count s) = true :=
  isOn_of_only_flagOn (setF_only ..) hkind hw

/-- A stale access is counted, up to the largest value of its counter. -/
theorem getF_count_staleRecorded (hkind : count.key ≠ Reg.ME_LASTHI.KIND.key) (hflag : count.key ≠ flag.key) :
    getF count (staleRecorded address kind flag count s) = Nat.min (getF count s + 1) (2 ^ count.width - 1) := by
  rw [staleRecorded, getF_setF_ne _ _ hkind, flagOn, getF_setF_ne _ _ hflag, bump, getF_bumpBy_self]
  rfl

variable {index generation : Nat}

/-- R290: an access with the buffer's own generation is not stale. -/
theorem staleGenerationAccessEff_current (isWrite : Bool) {s : State} (hgen : (getBuf index s).gen = generation) :
    staleGenerationAccessEff address index generation isWrite s = s :=
  if_pos (.inr hgen)

variable {s : State} (hdram : sramBufs ≤ index) (hgen : (getBuf index s).gen ≠ generation)
include hdram hgen

/-- R290: a write with another generation is recorded as one. -/
theorem staleGenerationAccessEff_write :
    staleGenerationAccessEff address index generation true s = staleRecorded address 2 Reg.ME_ERR.STALEWR Reg.ME_STALE.WR s :=
  if_neg (not_or.mpr ⟨not_lt.mpr hdram, hgen⟩)

/-- R290: a read with another generation is recorded as one. -/
theorem staleGenerationAccessEff_read :
    staleGenerationAccessEff address index generation false s = staleRecorded address 3 Reg.ME_ERR.STALERD Reg.ME_STALE.RD s :=
  if_neg (not_or.mpr ⟨not_lt.mpr hdram, hgen⟩)

end

/-- The dispatch of STALE_GENERATION_ACCESS. -/
theorem exec_staleGenerationAccess (address index generation : Nat) (isWrite : Bool) (s : State) :
    exec (.staleGenerationAccess address index generation isWrite) s = .next (staleGenerationAccessEff address index generation isWrite s) := rfl

/-! Merge entries (R292). -/

/-- R292: the entry of a line completes: it goes, and counts as one merge. -/
theorem mergeDone_of_mem {m : Merge} {s : State} (hm : m ∈ s.me.merges) : mergeDone m.line s =
    { s with me := { s.me with merges := s.me.merges.filter (fun x => x.line != m.line), mergeCnt := s.me.mergeCnt + 1 } } :=
  if_pos (List.any_eq_true.mpr ⟨m, hm, beq_self_eq_true m.line⟩)

/-- The port's oldest entry completes. -/
theorem mergeEntryTimeoutEff_oldest {meport : Nat} {m : Merge} {s : State} (hm : s.me.merges.find? (fun m => m.port == meport) = some m) :
    mergeEntryTimeoutEff meport s = mergeDone m.line s := by
  simp only [mergeEntryTimeoutEff, hm]

/-- With no entry open none completes. -/
theorem mergeEntryTimeoutEff_none (meport : Nat) {s : State} (hnone : s.me.merges = []) : mergeEntryTimeoutEff meport s = s := by
  simp only [mergeEntryTimeoutEff, hnone, List.find?_nil]

/-- The dispatch of MERGE_ENTRY_TIMEOUT. -/
theorem exec_mergeEntryTimeout (meport : Fin 8) (s : State) :
    exec (.mergeEntryTimeout meport) s = .next (mergeEntryTimeoutEff meport.val s) := rfl

/-! The statement. -/

/-- Settles O28: each clause is the one branch its hypotheses choose, and what that branch leaves. -/
theorem buffersAndLines : Obligations.BuffersAndLines := by
  refine ⟨?_, ?_, ?_, ?_, ?_, ?_, ?_, ?_, ?_, ?_, ?_, ?_, ?_, ?_, ?_, ?_, ?_⟩
  · -- A grant.
    intro owner n vc0 is u s hlo hhi hcheck htake
    refine ⟨_, exec_bufferAllocate .., bufferAllocateEff_only .., ?_⟩
    rw [bufferAllocateEff_asked owner vc0 s hlo hhi, bpAlloc_granted hcheck htake]
  · -- A refusal.
    intro owner n vc0 why s hlo hhi hcheck
    refine ⟨_, exec_bufferAllocate .., bufferAllocateEff_only .., ?_⟩
    rw [bufferAllocateEff_asked owner vc0 s hlo hhi, bpAlloc_refused hcheck]
    exact ⟨rfl, rfl, rfl⟩
  · -- A request of no buffer or too many.
    intro owner n vc0 s hn
    rw [exec_bufferAllocate, bufferAllocateEff_unasked _ _ _ hn]
  · -- A free of a free buffer.
    intro index owner s hfree
    have herr := doubleFree_only_bpErr index owner.val s
    refine ⟨_, exec_bufferFree .., (bufferFreeEff_only ..).mono (.ofAll (by decide +kernel)), ?_⟩
    rw [bufferFreeEff_unused hfree]
    refine ⟨isOn_dblfree_doubleFree .., ?_, ?_, ?_, (doubleFree_only ..).keeps .bp rfl, rfl⟩
    · rw [herr.getF_eq (by decide), getF_index_bpErr]
    · rw [herr.getF_eq (by decide), getF_owner_bpErr]
    · rw [herr.getF_eq (by decide), getF_cause_bpErr, Nat.zero_mod]
  · -- A free by another owner.
    intro index owner s hused howner
    have herr := flagOn_only Reg.BP_ERR.OWNFREE (bpErr index owner.val 1 s)
    refine ⟨_, exec_bufferFree .., (bufferFreeEff_only ..).mono (.ofAll (by decide +kernel)), ?_⟩
    rw [bufferFreeEff_foreign hused howner]
    refine ⟨isOn_flagOn _ (by decide), ?_, ?_, rfl⟩
    · rw [herr.getF_eq (by decide), getF_index_bpErr]
    · rw [herr.getF_eq (by decide), getF_cause_bpErr]
      rfl
  · -- A free by the owner.
    intro index owner s hused howner
    refine ⟨_, exec_bufferFree .., (bufferFreeEff_only ..).mono (.ofAll (by decide +kernel)), ?_⟩
    rw [bufferFreeEff_own hused howner]
    exact ⟨rfl, fun l hl => poisoned_acceptFree hl⟩
  · -- A rebuilt pool.
    intro pool s hquar hpool
    refine ⟨_, exec_poolRebuildDone .., poolRebuildDoneEff_only .., ?_⟩
    rw [poolRebuildDoneEff_quarantined hquar]
    exact ⟨getPool_updPool_self _ hpool, rfl⟩
  · -- A pool outside quarantine.
    intro pool s hquar
    rw [exec_poolRebuildDone, poolRebuildDoneEff_idle hquar]
  · -- A parity line is restored.
    rintro address _ s rfl
    exact ⟨_, exec_lineCheckFailure .., (lineCheckFailureEff_only ..).mono (.ofAll (by decide +kernel)), lineCheckFailureEff_restored rfl⟩
  · -- A mirror line that the peer does not send again is poisoned.
    rintro address _ s rfl
    exact ⟨_, exec_lineCheckFailure .., (lineCheckFailureEff_only ..).mono (.ofAll (by decide +kernel)), lineCheckFailureEff_poisoned rfl⟩
  · -- A stale write.
    rintro address index generation _ s hdram hgen rfl
    refine ⟨_, exec_staleGenerationAccess .., staleGenerationAccessEff_only .., ?_⟩
    rw [staleGenerationAccessEff_write address hdram hgen]
    exact ⟨isOn_staleRecorded _ _ _ (by decide) (by decide), getF_count_staleRecorded _ _ _ (by decide) (by decide),
      getF_kind_staleRecorded .., rfl, rfl⟩
  · -- A stale read.
    rintro address index generation _ s hdram hgen rfl
    refine ⟨_, exec_staleGenerationAccess .., staleGenerationAccessEff_only .., ?_⟩
    rw [staleGenerationAccessEff_read address hdram hgen]
    exact ⟨isOn_staleRecorded _ _ _ (by decide) (by decide), getF_count_staleRecorded _ _ _ (by decide) (by decide),
      getF_kind_staleRecorded .., rfl⟩
  · -- An access with the current generation.
    intro address index generation isWrite s hgen
    rw [exec_staleGenerationAccess, staleGenerationAccessEff_current _ _ hgen]
  · -- A merge entry completes.
    intro meport m s hm
    refine ⟨_, exec_mergeEntryTimeout .., mergeEntryTimeoutEff_only .., ?_⟩
    rw [mergeEntryTimeoutEff_oldest hm, mergeDone_of_mem (List.mem_of_find?_eq_some hm)]
    exact ⟨rfl, rfl, rfl⟩
  · -- No merge entry is open.
    intro meport s hnone
    rw [exec_mergeEntryTimeout, mergeEntryTimeoutEff_none _ hnone]
  · -- A grant that is revoked.
    intro owner n vc0 is u s hlo hhi hcheck htake
    refine ⟨_, exec_bufferAllocate .., bufferAllocateEff_only .., ?_⟩
    rw [bufferAllocateEff_asked owner vc0 s hlo hhi, bpAlloc_revoked hcheck htake]
  · -- A failed line check of any kind.
    intro address kind s
    exact ⟨_, exec_lineCheckFailure .., (lineCheckFailureEff_only ..).mono (.ofAll (by decide +kernel)), rfl⟩

end Sys2Proof.Machine
end

section
/-! SUPPORT. The fuses: the UID and the ROM ID stand, and ARB only rises. The operations that raise it, every command, and every step. Rules
R358, R359, R383. -/
namespace Sys2Proof.Machine
set_option Elab.async false

/-! The order of fuses, and a change that does not name them. -/

theorem FusesKept.refl (s : State) : FusesKept s s := ⟨rfl, rfl, Nat.le_refl _⟩

theorem FusesKept.trans {r s t : State} (h : FusesKept r s) (k : FusesKept s t) : FusesKept r t := by
  obtain ⟨huid, hrom, harb⟩ := h
  obtain ⟨huid', hrom', harb'⟩ := k
  exact ⟨huid'.trans huid, hrom'.trans hrom, harb.trans harb'⟩

/-- Fuses that are the same are kept. -/
theorem FusesKept.of_eq {r s t : State} (h : FusesKept r s) (heq : t.fuses = s.fuses) : FusesKept r t :=
  h.trans (by rw [FusesKept, heq]; exact FusesKept.refl s)

/-- A change that does not name the fuses keeps them. -/
theorem FusesKept.only {w : List Fld} {r s t : State} (h : FusesKept r s) (ho : Only w s t) (hw : covered w .fuses = false := by rfl) :
    FusesKept r t := h.of_eq (ho.keeps .fuses hw)

/-- A choice between two states. -/
theorem FusesKept.ite {c : Prop} [Decidable c] {r a b : State} (ha : FusesKept r a) (hb : FusesKept r b) :
    FusesKept r (if c then a else b) := by split <;> assumption

/-! What raises ARB, and where it is done (R359). -/

section
variable {r s : State} (h : FusesKept r s)
include h

/-- R359: ARB takes the running image's version when that is higher. -/
theorem fusesKept_raiseArb : FusesKept r (raiseArb s) := by
  unfold raiseArb
  split
  · split
    · next hlt => exact h.trans ⟨rfl, rfl, hlt.le⟩
    · exact h
  · exact h

theorem fusesKept_dgSecAdvanceEff (who : Writer) : FusesKept r (dgSecAdvanceEff who s) := by
  unfold dgSecAdvanceEff
  split
  · exact h
  split
  · exact h.only (genErr_only ..)
  · exact fusesKept_raiseArb h

end

section
variable (s : State)

@[simp] theorem fuses_journalNow : (journalNow s).fuses = s.fuses := (journalNow_only ..).keeps .fuses rfl
@[simp] theorem fuses_jAppend (r : JRec) : (jAppend r s).fuses = s.fuses := (jAppend_only ..).keeps .fuses rfl
@[simp] theorem fuses_startNsKey (n : Ns) : (startNsKey n s).fuses = s.fuses := (startNsKey_only ..).keeps .fuses rfl
@[simp] theorem fuses_resumeErases : (resumeErases s).fuses = s.fuses := (resumeErases_only ..).keeps .fuses rfl
@[simp] theorem fuses_enterMode (row : Nat) (m : Mode) : (enterMode row m s).fuses = s.fuses := (enterMode_only ..).keeps .fuses rfl
@[simp] theorem fuses_askDue : (askDue s).fuses = s.fuses := (askDue_only ..).keeps .fuses rfl
theorem fuses_writeReg (who : Writer) (off value : Nat) : (writeReg who off value s).fuses = s.fuses :=
  (writeReg_only ..).keeps .fuses rfl
@[simp] theorem fuses_evModeChanged : (evModeChanged s).fuses = s.fuses := (evModeChanged_only ..).keeps .fuses rfl

/-- Changes that each leave the fuses alone leave them together. -/
theorem fuses_foldl {β : Type} {g : State → β → State} (hg : ∀ t b, (g t b).fuses = t.fuses) (l : List β) :
    (l.foldl g s).fuses = s.fuses := by
  induction l generalizing s with
  | nil => rfl
  | cons b l ih => exact (ih _).trans (hg s b)

end

section
variable {r s : State} (h : FusesKept r s)
include h

/-- Up to raising ARB, a start-up leaves the fuses alone. -/
theorem fusesKept_startServe : FusesKept r (startServe s) := by
  unfold startServe
  extract_lets m mx begun journaled keyed groups resumed fs turned old asked told
  have hkeyed : FusesKept r keyed :=
    (h.of_eq (t := journaled) (by simp [journaled, begun])).of_eq (fuses_foldl _ (fun t n => fuses_startNsKey t n) _)
  have hasked : FusesKept r asked := hkeyed.of_eq (by simp [asked, turned, resumed])
  have htold : FusesKept r told := FusesKept.ite (hasked.of_eq (fuses_evModeChanged _)) hasked
  exact (FusesKept.ite htold (fusesKept_raiseArb htold)).only (startMigration_only ..)

theorem fusesKept_startupCompleteEff (durationMs : Nat) : FusesKept r (startupCompleteEff durationMs s) := by
  have hdue : FusesKept r (startDrainLost (startToken s)) := (h.only (startToken_only ..)).only (startDrainLost_only ..)
  unfold startupCompleteEff
  split
  · exact h
  split
  · exact h.only (enterQuarantine_only ..)
  split
  · exact h
  dsimp only
  split
  · exact hdue.only (enterMode_only ..)
  split
  · exact hdue.only (enterQuarantine_only ..)
  split
  · exact hdue.only (enterMode_only ..)
  · exact fusesKept_startServe (hdue.only (setSat_only ..))

/-! Activation of an image (R383). -/

theorem fusesKept_managementReset (flag : Field) : FusesKept r (managementReset flag s) := by
  unfold managementReset
  split
  · exact h
  · exact h
  · extract_lets counted recent heA heB dg mg cleared stopped own failed
    have h4 : FusesKept r failed := (h.of_eq (t := stopped) ((abandonFf_only _).keeps .fuses rfl)).only (dgFail_only ..)
    exact FusesKept.ite (h4.only (fatalFault_only ..)) h4

theorem fusesKept_activationDone : FusesKept r (activationDone s) := by
  have hnotice : FusesKept r (notice 9 0x01 0x03 (fwDone 0 0 s)) := (h.only (fwDone_only ..)).only (notice_only ..)
  unfold activationDone
  extract_lets img noticed cs mg dropped reset dg
  have hreset : FusesKept r reset := fusesKept_managementReset (hnotice.of_eq (t := dropped) rfl) _
  clear_value img
  cases img with
  | none => exact hreset
  | some i => exact FusesKept.ite (hreset.of_eq rfl) (fusesKept_raiseArb (hreset.of_eq rfl))

theorem fusesKept_startActivation (hd : AdminHdr) (blk : Nat) : FusesKept r (startActivation hd blk s) := by
  unfold startActivation
  extract_lets img mg started
  have hstarted : FusesKept r started := h.of_eq rfl
  exact FusesKept.ite (hstarted.of_eq rfl) (fusesKept_activationDone hstarted)

theorem fusesKept_firmwareActivateBody (hd : AdminHdr) (slot : Nat) (img : SlotImage) :
    FusesKept r (firmwareActivateBody hd slot img s) := by
  unfold firmwareActivateBody
  split
  · exact h.only (adminFail_only ..)
  split
  · exact h.only (adminFail_only ..)
  split
  · next hc => exact (h.only (Only.of_eq2 hc (commitSlot_only ..))).only (adminFail_only ..)
  · next hc =>
    have hslot := h.only (Only.of_eq2 hc (commitSlot_only ..))
    split
    · exact (hslot.only (adminOk_only ..)).only (y9Reset_only ..)
    · exact fusesKept_startActivation hslot hd _

theorem fusesKept_miCommit (hd : AdminHdr) (slot ca : Nat) (img : SlotImage) : FusesKept r (miCommit hd slot ca img s) := by
  unfold miCommit
  split
  · exact h.only (firmwareCommitBody_only ..)
  · exact h.only (firmwareCommitBody_only ..)
  · exact h.only (firmwareCommitBody_only ..)
  · exact fusesKept_firmwareActivateBody h hd slot img
  · exact h.only (adminFail_only ..)

/-- R383: a cluster without a spare stalls the activation, which goes on with the next or ends. -/
theorem fusesKept_stallActivation (k : Nat) : FusesKept r (stallActivation k s) := by
  have hstall : FusesKept r (flagOn Reg.CS_ACT.STALL s) := h.only (flagOn_only ..)
  exact FusesKept.ite (hstall.of_eq rfl) (fusesKept_activationDone (hstall.of_eq rfl))

theorem fusesKept_seqFaulted (k q : Nat) (flag : Field) (took : Nat) : FusesKept r (seqFaulted k q flag took s) := by
  unfold seqFaulted
  extract_lets c flagged out replaced
  have hout : FusesKept r out := h.of_eq ((unitOut_only ..).keeps .fuses rfl)
  have hreplaced : FusesKept r replaced := by
    unfold replaced
    split
    · split
      · exact hout.only (takeOver_only ..)
      · exact hout.only (noTakeOver_only ..)
    · exact hout.only (updCluster_only ..)
  exact FusesKept.ite h (FusesKept.ite (fusesKept_stallActivation hreplaced k) hreplaced)

theorem fusesKept_patchSetLoadEff (cluster : Fin 8) (p : PatchSet) (atStartup : Bool) :
    FusesKept r (patchSetLoadEff cluster p atStartup s) := by
  unfold patchSetLoadEff
  extract_lets k c
  refine FusesKept.ite (FusesKept.ite h ?_) (FusesKept.ite h (FusesKept.ite (fusesKept_stallActivation h k) ?_))
  · split
    · exact (h.of_eq (t := flagOn _ s) rfl).only (startupSetFailed_only _)
    · exact h.only (loadBank_only ..)
  · split
    · exact (h.of_eq (t := flagOn _ s) rfl).only (activationFailed_only _)
    · exact FusesKept.ite (h.only (loadBank_only ..)) (FusesKept.ite (h.only (loadBank_only ..)) h)

theorem fusesKept_patchHandoffEff (cluster phy : Fin 8) : FusesKept r (patchHandoffEff cluster phy s) := by
  unfold patchHandoffEff
  extract_lets k n c loaded handed cs unlocked
  have hhanded : FusesKept r handed :=
    (((h.only (handOff_only ..)).only (chanReadsFail_only ..)).only (resumeRecs_only ..)).only (bump_only ..)
  have hunlocked : FusesKept r unlocked := hhanded.only (updCluster_only ..)
  refine FusesKept.ite h (FusesKept.ite (fusesKept_stallActivation h k) (FusesKept.ite h ?_))
  exact FusesKept.ite (hhanded.of_eq rfl) (FusesKept.ite (hunlocked.of_eq rfl) (fusesKept_activationDone (hunlocked.of_eq rfl)))

/-! The register bus (R418). -/

/-- An action bit of a write runs its action or does nothing. -/
theorem FusesKept.onBit {act : State → State} (f : Field) (value : Nat) (hact : FusesKept r (act s)) : FusesKept r (onBit f value act s) :=
  FusesKept.ite hact h

theorem fusesKept_busAction (who : Writer) (off value : Nat) : FusesKept r (busAction who off value s) := by
  unfold busAction
  refine FusesKept.ite (h.only (busModereq_only ..)) ?_
  refine FusesKept.ite (h.only (busReset_only ..)) ?_
  refine FusesKept.ite (h.only (busWincommit_only ..)) ?_
  refine FusesKept.ite (h.onBit _ _ (h.only (winlogClrEff_only ..))) ?_
  refine FusesKept.ite (h.only (spDieoutWriteEff_only ..)) ?_
  refine FusesKept.ite (h.only (spSubselWriteEff_only ..)) ?_
  refine FusesKept.ite (h.onBit _ _ (h.only (ecMaxcorrClrEff_only ..))) ?_
  refine FusesKept.ite (h.onBit _ _ (h.only (gfNodeReassignEff_only ..))) ?_
  refine FusesKept.ite (h.onBit _ _ (h.only (auditStartEff_only ..))) ?_
  refine FusesKept.ite (h.onBit _ _ (fusesKept_dgSecAdvanceEff h who)) ?_
  refine FusesKept.ite (h.onBit _ _ (h.only (busKick_only ..))) ?_
  refine FusesKept.ite (h.only (mgLogackWriteEff_only ..)) ?_
  exact FusesKept.ite (h.only (busFfCmd_only ..)) h

/-- Of the register bus only DG_SEC.ADVANCE reaches the fuses. -/
theorem fusesKept_busWrite (who : Writer) (off value : Nat) : FusesKept r (busWrite who off value s) := by
  unfold busWrite
  refine FusesKept.ite h ?_
  refine FusesKept.ite (h.only (busOwner_only ..)) ?_
  refine FusesKept.ite (h.only (busFiArm_only ..)) ?_
  refine FusesKept.ite (h.only (fiMechWrite_only ..)) ?_
  refine FusesKept.ite (h.only (fiMechWrite_only ..)) ?_
  refine FusesKept.ite (h.only (fiMechWrite_only ..)) ?_
  exact fusesKept_busAction (h.of_eq (fuses_writeReg ..)) who off value

theorem fusesKept_writeAt (who : Writer) (offset : Nat) (value : Word) (poisoned : Bool) :
    FusesKept r (writeAt who offset value poisoned s) := by
  unfold writeAt
  extract_lets p off
  refine FusesKept.ite h (FusesKept.ite (h.only (poisonRx_only ..)) (FusesKept.ite ?_ (fusesKept_busWrite h who off value.toNat)))
  exact FusesKept.ite (h.only (writeMsix_only ..)) h

theorem fusesKept_writeDevice (addr : Nat) (value : Word) : FusesKept r (writeDevice addr value s) := by
  unfold writeDevice
  split
  · exact FusesKept.ite (fusesKept_writeAt h ..) h
  · exact h.of_eq rfl
  · exact FusesKept.ite (h.of_eq rfl) h
  · exact h
  · exact h

theorem fusesKept_registerWriteEff (who : Writer) (offset : Nat) (value : Word) (poisoned : Bool) :
    FusesKept r (registerWriteEff who offset value poisoned s) :=
  FusesKept.ite (FusesKept.ite (fusesKept_writeDevice h ..) h) (fusesKept_writeAt h ..)

/-! Admin commands, of a queue and tunnelled. -/

/-- A command that passes the checks of every admin command. -/
theorem FusesKept.adminCmd {body : State → State} (hbody : ∀ t, FusesKept r t → FusesKept r (body t)) (hd : AdminHdr)
    (modes : Mode → Bool) (len : Nat) : FusesKept r (adminCmd hd modes len body s) := by
  unfold Machine.adminCmd
  extract_lets taken
  have htaken : FusesKept r taken := FusesKept.ite h ((h.only (sqeArrived_only ..)).only (wake_only _))
  refine FusesKept.ite h ?_
  split
  · exact htaken.only (adminFail_only ..)
  · exact hbody _ htaken

/-- Of the tunnelled commands only Firmware Commit reaches the fuses. -/
theorem fusesKept_miAdmin (hd : AdminHdr) (opcode : Nat) (cdw : List Nat) (img : SlotImage) :
    FusesKept r (miAdmin hd opcode cdw img s) := by
  unfold miAdmin
  split
  · exact h.adminCmd (fun t ht => ht.only (identifyBody_only ..)) ..
  · exact h.adminCmd (fun t ht => ht.only (getLogPageBody_only ..)) ..
  · exact h.adminCmd (fun t ht => ht.only (getFeaturesBody_only ..)) ..
  · exact h.adminCmd (fun t ht => ht.only (firmwareImageDownloadBody_only ..)) ..
  · exact h.adminCmd (fun t ht => fusesKept_miCommit ht ..) ..
  · exact h.adminCmd (fun t ht => ht.only (deviceSelfTestBody_only ..)) ..
  · exact h.only (adminFail_only ..)

/-- What NVMe-MI brings. -/
theorem FusesKept.miAnswer {f : State → State} (hf : FusesKept r (f s)) : FusesKept r (miAnswer f s) := FusesKept.ite hf h

end

/-! Every command. -/

/-- An outcome whose change does not name the fuses keeps them. -/
theorem Only.answersKeepingFuses {w : List Fld} {s : State} {o : Host.Outcome State Fault Refusal} (ho : ∃ t, o = .next t ∧ Only w s t)
    (hw : covered w .fuses = false := by rfl) : ∃ t, o = .next t ∧ FusesKept s t := by
  obtain ⟨t, ht, honly⟩ := ho
  exact ⟨t, ht, (FusesKept.refl s).only honly hw⟩

/-- Every command keeps the fuses: by its frame where that does not name them, else by the lemma of its effect. -/
theorem exec_keepsFuses (c : Instr) (s : State) : ∃ t, exec c s = .next t ∧ FusesKept s t := by
  have hs := FusesKept.refl s
  cases c with
  | porNAssert => exact Only.answersKeepingFuses (execPorNAssert_only ..)
  | porNDeassert => exact Only.answersKeepingFuses (execPorNDeassert_only ..)
  | pwrFailNAssert => exact Only.answersKeepingFuses (execPwrFailNAssert_only ..)
  | pwrFailNDeassert => exact Only.answersKeepingFuses (execPwrFailNDeassert_only ..)
  | drainFlushComplete => exact Only.answersKeepingFuses (execDrainFlushComplete_only ..)
  | twinFenceInAssert => exact Only.answersKeepingFuses (execTwinFenceInAssert_only ..)
  | twinFenceInDeassert => exact Only.answersKeepingFuses (execTwinFenceInDeassert_only ..)
  | twinHbInChange => exact Only.answersKeepingFuses (execTwinHbInChange_only ..)
  | tsyncInEdge => exact Only.answersKeepingFuses (execTsyncInEdge_only ..)
  | huGoodDeassert => exact Only.answersKeepingFuses (execHuGoodDeassert_only ..)
  | huGoodReassert => exact Only.answersKeepingFuses (execHuGoodReassert_only ..)
  | huSenseBelowVLow => exact Only.answersKeepingFuses (execHuSenseBelowVLow_only ..)
  | holdupVerificationStart => exact Only.answersKeepingFuses (execHoldupVerificationStart_only ..)
  | holdupVerificationEnd => exact Only.answersKeepingFuses (execHoldupVerificationEnd_only ..)
  | heRefclkLoss => exact Only.answersKeepingFuses (execHeRefclkLoss_only ..)
  | gfRefclkLoss => exact Only.answersKeepingFuses (execGfRefclkLoss_only ..)
  | mgXtalLoss what => exact Only.answersKeepingFuses (execMgXtalLoss_only what s)
  | dramChannelTrainingLoss => exact Only.answersKeepingFuses (execDramChannelTrainingLoss_only ..)
  | bootImageVerify => exact Only.answersKeepingFuses (execBootImageVerify_only ..)
  | hostIslandRelease => exact Only.answersKeepingFuses (execHostIslandRelease_only ..)
  | dramTraining => exact Only.answersKeepingFuses (execDramTraining_only ..)
  | channelTraining => exact Only.answersKeepingFuses (execChannelTraining_only ..)
  | journalRootRead => exact Only.answersKeepingFuses (execJournalRootRead_only ..)
  | residentMapLoad => exact Only.answersKeepingFuses (execResidentMapLoad_only ..)
  | mapRecovery => exact Only.answersKeepingFuses (execMapRecovery_only ..)
  | halfErasedBlockRedo => exact Only.answersKeepingFuses (execHalfErasedBlockRedo_only ..)
  | openStripeCompletion => exact Only.answersKeepingFuses (execOpenStripeCompletion_only ..)
  | startupComplete => exact ⟨_, rfl, fusesKept_startupCompleteEff hs _⟩
  | genResetY9 => exact Only.answersKeepingFuses (execGenResetY9_only ..)
  | genResetManagement => exact Only.answersKeepingFuses (execGenResetManagement_only ..)
  | watchdogExpiry => exact Only.answersKeepingFuses (execWatchdogExpiry_only ..)
  | lockstepMismatch => exact Only.answersKeepingFuses (execLockstepMismatch_only ..)
  | conventionalReset cause => exact Only.answersKeepingFuses (execConventionalReset_only cause s)
  | functionLevelReset => exact Only.answersKeepingFuses (execFunctionLevelReset_only ..)
  | ccEnSet => exact Only.answersKeepingFuses (execCcEnSet_only ..)
  | ccEnClear => exact Only.answersKeepingFuses (execCcEnClear_only ..)
  | shutdownNotification => exact Only.answersKeepingFuses (execShutdownNotification_only ..)
  | genModereqDiagnostic => exact Only.answersKeepingFuses (execGenModereqDiagnostic_only ..)
  | diagnosticEntry => exact Only.answersKeepingFuses (execDiagnosticEntry_only ..)
  | genModereqService => exact Only.answersKeepingFuses (execGenModereqService_only ..)
  | genModereqQuarantine => exact Only.answersKeepingFuses (execGenModereqQuarantine_only ..)
  | genModereqProvision => exact Only.answersKeepingFuses (execGenModereqProvision_only ..)
  | modereqKeyTimeout => exact Only.answersKeepingFuses (execModereqKeyTimeout_only ..)
  | provisioningCommit => exact Only.answersKeepingFuses (execProvisioningCommit_only ..)
  | genOwnerClaim => exact Only.answersKeepingFuses (execGenOwnerClaim_only ..)
  | genOwnerRelease => exact Only.answersKeepingFuses (execGenOwnerRelease_only ..)
  | genOwnerSeize => exact Only.answersKeepingFuses (execGenOwnerSeize_only ..)
  | genOwnerSeizedClear => exact Only.answersKeepingFuses (execGenOwnerSeizedClear_only ..)
  | registerWrite => exact ⟨_, rfl, fusesKept_registerWriteEff hs ..⟩
  | latchingRead => exact Only.answersKeepingFuses (execLatchingRead_only ..)
  | stagedCommitPoint => exact Only.answersKeepingFuses (execStagedCommitPoint_only ..)
  | bar0BadAccess => exact Only.answersKeepingFuses (execBar0BadAccess_only ..)
  | configBarWrite => exact Only.answersKeepingFuses (execConfigBarWrite_only ..)
  | sqTailDoorbell => exact Only.answersKeepingFuses (execSqTailDoorbell_only ..)
  | cqHeadDoorbell => exact Only.answersKeepingFuses (execCqHeadDoorbell_only ..)
  | sqeFetch => exact Only.answersKeepingFuses (execSqeFetch_only ..)
  | pollRound => exact Only.answersKeepingFuses (execPollRound_only ..)
  | pollCompletion => exact Only.answersKeepingFuses (execPollCompletion_only ..)
  | pollStop => exact Only.answersKeepingFuses (execPollStop_only ..)
  | cmbMmioRead => exact Only.answersKeepingFuses (execCmbMmioRead_only ..)
  | cmbMmioWrite => exact Only.answersKeepingFuses (execCmbMmioWrite_only ..)
  | windowTlpRead => exact Only.answersKeepingFuses (execWindowTlpRead_only ..)
  | windowTlpWrite => exact Only.answersKeepingFuses (execWindowTlpWrite_only ..)
  | windowWriteAck => exact Only.answersKeepingFuses (execWindowWriteAck_only ..)
  | unsupportedTlp => exact Only.answersKeepingFuses (execUnsupportedTlp_only ..)
  | malformedTlp => exact Only.answersKeepingFuses (execMalformedTlp_only ..)
  | heWincommitA => exact Only.answersKeepingFuses (execHeWincommitA_only ..)
  | heWincommitB => exact Only.answersKeepingFuses (execHeWincommitB_only ..)
  | windowCopyDone => exact Only.answersKeepingFuses (execWindowCopyDone_only ..)
  | heWinlogClr => exact Only.answersKeepingFuses (execHeWinlogClr_only ..)
  | hostReadCompletion => exact Only.answersKeepingFuses (execHostReadCompletion_only ..)
  | hostReadTimeout => exact Only.answersKeepingFuses (execHostReadTimeout_only ..)
  | linkTrained => exact Only.answersKeepingFuses (execLinkTrained_only ..)
  | linkRecoveryEntry => exact Only.answersKeepingFuses (execLinkRecoveryEntry_only ..)
  | linkRecoveryExit => exact Only.answersKeepingFuses (execLinkRecoveryExit_only ..)
  | surpriseDown => exact Only.answersKeepingFuses (execSurpriseDown_only ..)
  | l0pWidthChange => exact Only.answersKeepingFuses (execL0pWidthChange_only ..)
  | aspmL1Entry => exact Only.answersKeepingFuses (execAspmL1Entry_only ..)
  | d3hotEntry => exact Only.answersKeepingFuses (execD3hotEntry_only ..)
  | doeRequest => exact Only.answersKeepingFuses (execDoeRequest_only ..)
  | doeAbort => exact Only.answersKeepingFuses (execDoeAbort_only ..)
  | deleteIoSq => exact Only.answersKeepingFuses (execDeleteIoSq_only ..)
  | createIoSq => exact Only.answersKeepingFuses (execCreateIoSq_only ..)
  | getLogPage => exact Only.answersKeepingFuses (execGetLogPage_only ..)
  | deleteIoCq => exact Only.answersKeepingFuses (execDeleteIoCq_only ..)
  | createIoCq => exact Only.answersKeepingFuses (execCreateIoCq_only ..)
  | identify => exact Only.answersKeepingFuses (execIdentify_only ..)
  | abort h sqid cid => exact Only.answersKeepingFuses (execAbort_only h sqid cid s)
  | setFeaturesArbitration => exact Only.answersKeepingFuses (execSetFeaturesArbitration_only ..)
  | setFeaturesPowerManagement => exact Only.answersKeepingFuses (execSetFeaturesPowerManagement_only ..)
  | powerStateEntry => exact Only.answersKeepingFuses (execPowerStateEntry_only ..)
  | setFeaturesTemperatureThreshold => exact Only.answersKeepingFuses (execSetFeaturesTemperatureThreshold_only ..)
  | setFeaturesVolatileWriteCache => exact Only.answersKeepingFuses (execSetFeaturesVolatileWriteCache_only ..)
  | setFeaturesNumberOfQueues => exact Only.answersKeepingFuses (execSetFeaturesNumberOfQueues_only ..)
  | setFeaturesInterruptCoalescing => exact Only.answersKeepingFuses (execSetFeaturesInterruptCoalescing_only ..)
  | setFeaturesInterruptVectorConfig => exact Only.answersKeepingFuses (execSetFeaturesInterruptVectorConfig_only ..)
  | setFeaturesAsyncEventConfig => exact Only.answersKeepingFuses (execSetFeaturesAsyncEventConfig_only ..)
  | setFeaturesLatencyClassTable => exact Only.answersKeepingFuses (execSetFeaturesLatencyClassTable_only ..)
  | setFeaturesQueueLatencyBinding => exact Only.answersKeepingFuses (execSetFeaturesQueueLatencyBinding_only ..)
  | setFeaturesWriteCacheProtection => exact Only.answersKeepingFuses (execSetFeaturesWriteCacheProtection_only ..)
  | getFeatures => exact Only.answersKeepingFuses (execGetFeatures_only ..)
  | asynchronousEventRequest => exact Only.answersKeepingFuses (execAsynchronousEventRequest_only ..)
  | namespaceManagementCreate => exact Only.answersKeepingFuses (execNamespaceManagementCreate_only ..)
  | namespaceManagementDelete => exact Only.answersKeepingFuses (execNamespaceManagementDelete_only ..)
  | namespaceAttachment => exact Only.answersKeepingFuses (execNamespaceAttachment_only ..)
  | firmwareImageDownload => exact Only.answersKeepingFuses (execFirmwareImageDownload_only ..)
  | firmwareCommitWrite => exact Only.answersKeepingFuses (execFirmwareCommitWrite_only ..)
  | firmwareCommitWriteSelect => exact Only.answersKeepingFuses (execFirmwareCommitWriteSelect_only ..)
  | firmwareCommitSelect => exact Only.answersKeepingFuses (execFirmwareCommitSelect_only ..)
  | firmwareCommitActivate => exact ⟨_, rfl, hs.adminCmd (fun _ ht => fusesKept_firmwareActivateBody ht ..) ..⟩
  | deviceSelfTest => exact Only.answersKeepingFuses (execDeviceSelfTest_only ..)
  | directiveSend => exact Only.answersKeepingFuses (execDirectiveSend_only ..)
  | directiveReceive => exact Only.answersKeepingFuses (execDirectiveReceive_only ..)
  | doorbellBufferConfig => exact Only.answersKeepingFuses (execDoorbellBufferConfig_only ..)
  | formatNvm => exact Only.answersKeepingFuses (execFormatNvm_only ..)
  | formatNvmCryptoErase => exact Only.answersKeepingFuses (execFormatNvmCryptoErase_only ..)
  | sanitizeBlockErase => exact Only.answersKeepingFuses (execSanitizeBlockErase_only ..)
  | sanitizeCryptoErase => exact Only.answersKeepingFuses (execSanitizeCryptoErase_only ..)
  | twinControlPair => exact Only.answersKeepingFuses (execTwinControlPair_only ..)
  | twinControlSwitch => exact Only.answersKeepingFuses (execTwinControlSwitch_only ..)
  | twinControlRejoin => exact Only.answersKeepingFuses (execTwinControlRejoin_only ..)
  | twinControlUnpair => exact Only.answersKeepingFuses (execTwinControlUnpair_only ..)
  | twinControlRelease => exact Only.answersKeepingFuses (execTwinControlRelease_only ..)
  | migrationControlArm => exact Only.answersKeepingFuses (execMigrationControlArm_only ..)
  | migrationControlStart => exact Only.answersKeepingFuses (execMigrationControlStart_only ..)
  | migrationControlSeal => exact Only.answersKeepingFuses (execMigrationControlSeal_only ..)
  | migrationControlAbort => exact Only.answersKeepingFuses (execMigrationControlAbort_only ..)
  | migrationControlStatus => exact Only.answersKeepingFuses (execMigrationControlStatus_only ..)
  | migrationControlResolve => exact Only.answersKeepingFuses (execMigrationControlResolve_only ..)
  | sealDevice => exact Only.answersKeepingFuses (execSealDevice_only ..)
  | unsealDevice => exact Only.answersKeepingFuses (execUnsealDevice_only ..)
  | sealNamespace => exact Only.answersKeepingFuses (execSealNamespace_only ..)
  | unsealNamespace => exact Only.answersKeepingFuses (execUnsealNamespace_only ..)
  | read => exact Only.answersKeepingFuses (execRead_only ..)
  | write => exact Only.answersKeepingFuses (execWrite_only ..)
  | flush => exact Only.answersKeepingFuses (execFlush_only ..)
  | writeUncorrectable => exact Only.answersKeepingFuses (execWriteUncorrectable_only ..)
  | writeZeroes h slba nlb fua deac pr => exact Only.answersKeepingFuses (execWriteZeroes_only h slba nlb fua deac pr s)
  | datasetManagement => exact Only.answersKeepingFuses (execDatasetManagement_only ..)
  | verify => exact Only.answersKeepingFuses (execVerify_only ..)
  | copy => exact Only.answersKeepingFuses (execCopy_only ..)
  | fixityDigest => exact Only.answersKeepingFuses (execFixityDigest_only ..)
  | mapPageLoaded => exact Only.answersKeepingFuses (execMapPageLoaded_only ..)
  | lc7AdmissionRetry => exact Only.answersKeepingFuses (execLc7AdmissionRetry_only ..)
  | dcForwardDone => exact Only.answersKeepingFuses (execDcForwardDone_only ..)
  | completionPost => exact Only.answersKeepingFuses (execCompletionPost_only ..)
  | partialGrainMerge => exact Only.answersKeepingFuses (execPartialGrainMerge_only ..)
  | wordlineProgramStart => exact Only.answersKeepingFuses (execWordlineProgramStart_only ..)
  | programVerifyDone => exact Only.answersKeepingFuses (execProgramVerifyDone_only ..)
  | gatherTimeout => exact Only.answersKeepingFuses (execGatherTimeout_only ..)
  | barrelOpen => exact Only.answersKeepingFuses (execBarrelOpen_only ..)
  | readRoundDone => exact Only.answersKeepingFuses (execReadRoundDone_only ..)
  | readReadyTimeout => exact Only.answersKeepingFuses (execReadReadyTimeout_only ..)
  | spDieoutWrite => exact Only.answersKeepingFuses (execSpDieoutWrite_only ..)
  | fretTick => exact Only.answersKeepingFuses (execFretTick_only ..)
  | suspendRequest => exact Only.answersKeepingFuses (execSuspendRequest_only ..)
  | vatTurnEnd => exact Only.answersKeepingFuses (execVatTurnEnd_only ..)
  | groupWordlineBoundary => exact Only.answersKeepingFuses (execGroupWordlineBoundary_only ..)
  | journalFlush => exact Only.answersKeepingFuses (execJournalFlush_only ..)
  | journalSegmentDurable => exact Only.answersKeepingFuses (execJournalSegmentDurable_only ..)
  | checkpointSweepStart => exact Only.answersKeepingFuses (execCheckpointSweepStart_only ..)
  | sweepTimeout => exact Only.answersKeepingFuses (execSweepTimeout_only ..)
  | sweepRootDurable => exact Only.answersKeepingFuses (execSweepRootDurable_only ..)
  | mapLineRestored => exact Only.answersKeepingFuses (execMapLineRestored_only ..)
  | rackingStart => exact Only.answersKeepingFuses (execRackingStart_only ..)
  | rackdoneDurable => exact Only.answersKeepingFuses (execRackdoneDurable_only ..)
  | eraseintDurable => exact Only.answersKeepingFuses (execEraseintDurable_only ..)
  | eraseDone => exact Only.answersKeepingFuses (execEraseDone_only ..)
  | bottlingStart => exact Only.answersKeepingFuses (execBottlingStart_only ..)
  | vatSlotErase => exact Only.answersKeepingFuses (execVatSlotErase_only ..)
  | ageRefresh => exact Only.answersKeepingFuses (execAgeRefresh_only ..)
  | blockRefresh => exact Only.answersKeepingFuses (execBlockRefresh_only ..)
  | v4Reclaim => exact Only.answersKeepingFuses (execV4Reclaim_only ..)
  | snapshotWrite => exact Only.answersKeepingFuses (execSnapshotWrite_only ..)
  | snapshotDurable => exact Only.answersKeepingFuses (execSnapshotDurable_only ..)
  | rebuildStart => exact Only.answersKeepingFuses (execRebuildStart_only ..)
  | rebuildWordlineDone => exact Only.answersKeepingFuses (execRebuildWordlineDone_only ..)
  | groupDissolution => exact Only.answersKeepingFuses (execGroupDissolution_only ..)
  | sequencerFault => exact ⟨_, rfl, fusesKept_seqFaulted hs ..⟩
  | yieldTimeout => exact ⟨_, rfl, fusesKept_seqFaulted hs ..⟩
  | channelRetrain => exact Only.answersKeepingFuses (execChannelRetrain_only ..)
  | retrainStep => exact Only.answersKeepingFuses (execRetrainStep_only ..)
  | patchSetLoad => exact ⟨_, rfl, fusesKept_patchSetLoadEff hs ..⟩
  | patchHandoff => exact ⟨_, rfl, fusesKept_patchHandoffEff hs ..⟩
  | bufferAllocate => exact Only.answersKeepingFuses (execBufferAllocate_only ..)
  | bufferFree => exact Only.answersKeepingFuses (execBufferFree_only ..)
  | poolRebuildDone => exact Only.answersKeepingFuses (execPoolRebuildDone_only ..)
  | lineCheckFailure => exact Only.answersKeepingFuses (execLineCheckFailure_only ..)
  | staleGenerationAccess => exact Only.answersKeepingFuses (execStaleGenerationAccess_only ..)
  | mergeEntryTimeout => exact Only.answersKeepingFuses (execMergeEntryTimeout_only ..)
  | gareoLinkTrained => exact Only.answersKeepingFuses (execGareoLinkTrained_only ..)
  | flitReceived => exact Only.answersKeepingFuses (execFlitReceived_only ..)
  | linkSilenceTimeout => exact Only.answersKeepingFuses (execLinkSilenceTimeout_only ..)
  | linkRetrainDone => exact Only.answersKeepingFuses (execLinkRetrainDone_only ..)
  | linkRetryTimer => exact Only.answersKeepingFuses (execLinkRetryTimer_only ..)
  | ackTimer => exact Only.answersKeepingFuses (execAckTimer_only ..)
  | frameResendTimeout => exact Only.answersKeepingFuses (execFrameResendTimeout_only ..)
  | hello link uid candUid candDist epoch pref => exact Only.answersKeepingFuses (execHello_only link uid candUid candDist epoch pref s)
  | discoveryQuietTimeout => exact Only.answersKeepingFuses (execDiscoveryQuietTimeout_only ..)
  | lsr => exact Only.answersKeepingFuses (execLsr_only ..)
  | table => exact Only.answersKeepingFuses (execTable_only ..)
  | epoch => exact Only.answersKeepingFuses (execEpoch_only ..)
  | epochApply => exact Only.answersKeepingFuses (execEpochApply_only ..)
  | resync => exact Only.answersKeepingFuses (execResync_only ..)
  | ack => exact Only.answersKeepingFuses (execAck_only ..)
  | nak => exact Only.answersKeepingFuses (execNak_only ..)
  | timeExchangeTimer => exact Only.answersKeepingFuses (execTimeExchangeTimer_only ..)
  | time => exact Only.answersKeepingFuses (execTime_only ..)
  | coordinatorHeartbeat => exact Only.answersKeepingFuses (execCoordinatorHeartbeat_only ..)
  | coordinatorLoss => exact Only.answersKeepingFuses (execCoordinatorLoss_only ..)
  | gfNodeReassign => exact Only.answersKeepingFuses (execGfNodeReassign_only ..)
  | rdreq => exact Only.answersKeepingFuses (execRdreq_only ..)
  | rdresp => exact Only.answersKeepingFuses (execRdresp_only ..)
  | writeFrame => exact Only.answersKeepingFuses (execWriteFrame_only ..)
  | mgmt => exact Only.answersKeepingFuses (execMgmt_only ..)
  | mirrorGranules => exact Only.answersKeepingFuses (execMirrorGranules_only ..)
  | mirrorCommitRecord => exact Only.answersKeepingFuses (execMirrorCommitRecord_only ..)
  | mirrorNamespaceOperation => exact Only.answersKeepingFuses (execMirrorNamespaceOperation_only ..)
  | mirrorLatencyClassTable => exact Only.answersKeepingFuses (execMirrorLatencyClassTable_only ..)
  | mirrorXtsKey nsid wrapped => exact Only.answersKeepingFuses (execMirrorXtsKey_only nsid wrapped s)
  | mirrorSnapshot => exact Only.answersKeepingFuses (execMirrorSnapshot_only ..)
  | mirrorRepair => exact Only.answersKeepingFuses (execMirrorRepair_only ..)
  | hbSendTimer => exact Only.answersKeepingFuses (execHbSendTimer_only ..)
  | hb seq peerState csn => exact Only.answersKeepingFuses (execHb_only seq peerState csn s)
  | hbPathLost => exact Only.answersKeepingFuses (execHbPathLost_only ..)
  | drainNotice => exact Only.answersKeepingFuses (execDrainNotice_only ..)
  | soloEntry => exact Only.answersKeepingFuses (execSoloEntry_only ..)
  | soloExit => exact Only.answersKeepingFuses (execSoloExit_only ..)
  | pairreq src action idOk nsCount => exact Only.answersKeepingFuses (execPairreq_only src action idOk nsCount s)
  | pairack => exact Only.answersKeepingFuses (execPairack_only ..)
  | switch => exact Only.answersKeepingFuses (execSwitch_only ..)
  | switchack => exact Only.answersKeepingFuses (execSwitchack_only ..)
  | seedSegmentSend => exact Only.answersKeepingFuses (execSeedSegmentSend_only ..)
  | migstart => exact Only.answersKeepingFuses (execMigstart_only ..)
  | migack => exact Only.answersKeepingFuses (execMigack_only ..)
  | migrationSegmentSend => exact Only.answersKeepingFuses (execMigrationSegmentSend_only ..)
  | migseg => exact Only.answersKeepingFuses (execMigseg_only ..)
  | segdig => exact Only.answersKeepingFuses (execSegdig_only ..)
  | segres nsid seg pass result => exact Only.answersKeepingFuses (execSegres_only nsid seg pass result s)
  | dirtyPassEnd => exact Only.answersKeepingFuses (execDirtyPassEnd_only ..)
  | cutover => exact Only.answersKeepingFuses (execCutover_only ..)
  | cutack => exact Only.answersKeepingFuses (execCutack_only ..)
  | migrationAbortMessage cause => exact Only.answersKeepingFuses (execMigrationAbortMessage_only cause s)
  | migrationRouteTimeout => exact Only.answersKeepingFuses (execMigrationRouteTimeout_only ..)
  | stop vc stream => exact Only.answersKeepingFuses (execStop_only vc stream s)
  | digestContextOpen => exact Only.answersKeepingFuses (execDigestContextOpen_only ..)
  | digestSaveDone => exact Only.answersKeepingFuses (execDigestSaveDone_only ..)
  | digestBlock => exact Only.answersKeepingFuses (execDigestBlock_only ..)
  | auditStart => exact Only.answersKeepingFuses (execAuditStart_only ..)
  | auditPeriodTimer => exact Only.answersKeepingFuses (execAuditPeriodTimer_only ..)
  | dgSecAdvance => exact ⟨_, rfl, fusesKept_dgSecAdvanceEff hs _⟩
  | rngHealthFailure => exact Only.answersKeepingFuses (execRngHealthFailure_only ..)
  | ecMaxcorrClr => exact Only.answersKeepingFuses (execEcMaxcorrClr_only ..)
  | spSubselWrite => exact Only.answersKeepingFuses (execSpSubselWrite_only ..)
  | sensorSample => exact Only.answersKeepingFuses (execSensorSample_only ..)
  | eventLogFlush => exact Only.answersKeepingFuses (execEventLogFlush_only ..)
  | timeMarkWrite => exact Only.answersKeepingFuses (execTimeMarkWrite_only ..)
  | mgWdogKick => exact Only.answersKeepingFuses (execMgWdogKick_only ..)
  | mgLogackWrite => exact Only.answersKeepingFuses (execMgLogackWrite_only ..)
  | ffRead => exact Only.answersKeepingFuses (execFfRead_only ..)
  | ffProgram => exact Only.answersKeepingFuses (execFfProgram_only ..)
  | ffErase => exact Only.answersKeepingFuses (execFfErase_only ..)
  | ffReadhdr => exact Only.answersKeepingFuses (execFfReadhdr_only ..)
  | ffOperationDone => exact Only.answersKeepingFuses (execFfOperationDone_only ..)
  | readNvmeMiDataStructure => exact Only.answersKeepingFuses (execReadNvmeMiDataStructure_only ..)
  | nvmSubsystemHealthStatusPoll => exact Only.answersKeepingFuses (execNvmSubsystemHealthStatusPoll_only ..)
  | controllerHealthStatusPoll => exact Only.answersKeepingFuses (execControllerHealthStatusPoll_only ..)
  | configurationGet => exact Only.answersKeepingFuses (execConfigurationGet_only ..)
  | configurationSet => exact Only.answersKeepingFuses (execConfigurationSet_only ..)
  | vpdRead => exact Only.answersKeepingFuses (execVpdRead_only ..)
  | miTunnelledAdminCommand => exact ⟨_, rfl, hs.miAnswer (fusesKept_miAdmin hs ..)⟩
  | setupRegisterRead => exact Only.answersKeepingFuses (execSetupRegisterRead_only ..)
  | setupRegisterWrite => exact ⟨_, rfl, hs.miAnswer ((fusesKept_registerWriteEff hs ..).only (miOk_only ..))⟩
  | eventLogRead => exact Only.answersKeepingFuses (execEventLogRead_only ..)
  | eventLogAcknowledge => exact Only.answersKeepingFuses (execEventLogAcknowledge_only ..)
  | getVersion => exact Only.answersKeepingFuses (execGetVersion_only ..)
  | getCapabilities => exact Only.answersKeepingFuses (execGetCapabilities_only ..)
  | negotiateAlgorithms => exact Only.answersKeepingFuses (execNegotiateAlgorithms_only ..)
  | getDigests => exact Only.answersKeepingFuses (execGetDigests_only ..)
  | getCertificate => exact Only.answersKeepingFuses (execGetCertificate_only ..)
  | setCertificate => exact Only.answersKeepingFuses (execSetCertificate_only ..)
  | challenge => exact Only.answersKeepingFuses (execChallenge_only ..)
  | getMeasurements => exact Only.answersKeepingFuses (execGetMeasurements_only ..)
  | keyExchange => exact Only.answersKeepingFuses (execKeyExchange_only ..)
  | finish => exact Only.answersKeepingFuses (execFinish_only ..)
  | endSession => exact Only.answersKeepingFuses (execEndSession_only ..)
  | policyCoreFault => exact Only.answersKeepingFuses (execPolicyCoreFault_only ..)
  | fiArmKey => exact Only.answersKeepingFuses (execFiArmKey_only ..)
  | fiDisarm => exact Only.answersKeepingFuses (execFiDisarm_only ..)
  | fiArmTimeout => exact Only.answersKeepingFuses (execFiArmTimeout_only ..)
  | fiGfEn => exact Only.answersKeepingFuses (execFiGfEn_only ..)
  | fiFlEn => exact Only.answersKeepingFuses (execFiFlEn_only ..)
  | fiPcieEn => exact Only.answersKeepingFuses (execFiPcieEn_only ..)
  | fiKeySequenceTimeout => exact Only.answersKeepingFuses (execFiKeySequenceTimeout_only ..)
  | rngHealthRestored => exact Only.answersKeepingFuses (execRngHealthRestored_only ..)
  | managementResetEnd => exact Only.answersKeepingFuses (execManagementResetEnd_only ..)
  | configRegisterWrite => exact Only.answersKeepingFuses (execConfigRegisterWrite_only ..)
  | aspmL1Exit => exact Only.answersKeepingFuses (execAspmL1Exit_only ..)
  | cmbmscWrite => exact Only.answersKeepingFuses (execCmbmscWrite_only ..)
  | deviceSelfTestComplete => exact Only.answersKeepingFuses (execDeviceSelfTestComplete_only ..)
  | interruptCoalescingTimeout => exact Only.answersKeepingFuses (execInterruptCoalescingTimeout_only ..)

/-- A step runs the front command on the rest of the queue, or nothing. -/
theorem step_keepsFuses (s : State) : ∃ t, step s = .next t ∧ FusesKept s t := by
  cases hp : s.pending with
  | nil => exact ⟨s, step_nil hp, FusesKept.refl s⟩
  | cons c rest =>
    rw [step_cons hp]
    exact exec_keepsFuses c { s with pending := rest }

/-- Settles O52: every command keeps the fuses, so every step does. -/
theorem fusesNeverFall : Obligations.FusesNeverFall := by
  intro s t ht
  obtain ⟨u, hu, hkept⟩ := step_keepsFuses s
  cases ht.symm.trans hu
  exact hkept

end Sys2Proof.Machine
end

section
/-! SUPPORT. The arming of FI and the mode, seen together: the view of a state, what a choice, a fold and a frame do to it, and when it is
allowed. Rule R394. -/
namespace Sys2Proof.Machine
-- One theorem at a time: a thread for each would exhaust the memory the check allows.
set_option Elab.async false

/-- Whether FI is armed, and the mode. -/
def State.armMode (s : State) : Bool × Mode := (s.fi.armed, s.gen.mode)

/-- Under `armMode`, simp takes the operations of a state from the outermost inwards and leaves their arguments alone. -/
@[congr] theorem armMode_congr (s : State) : s.armMode = s.armMode := rfl

/-- The view of a state written out field by field. -/
@[simp] theorem armMode_mk (pending freeCtr out regs eff time pins gen he ctl sh defFaults lost cmds nextCmd fs mx ns nsWait mm sp cs bp me
    gf tw dg mg fi nand ff prov fuses) :
    State.armMode ⟨pending, freeCtr, out, regs, eff, time, pins, gen, he, ctl, sh, defFaults, lost, cmds, nextCmd, fs, mx, ns, nsWait, mm,
      sp, cs, bp, me, gf, tw, dg, mg, fi, nand, ff, prov, fuses⟩ = (fi.armed, gen.mode) := (rfl)

/-- The two together are the view of the state. -/
@[simp] theorem armMode_eta (s : State) : (s.fi.armed, s.gen.mode) = s.armMode := (rfl)

/-- The view of a choice. -/
@[simp] theorem armMode_ite (c : Prop) [Decidable c] (s t : State) :
    (if c then s else t).armMode = if c then s.armMode else t.armMode := apply_ite ..

/-- Changes one after another, each of which leaves the view alone. -/
@[simp] theorem armMode_foldl {β : Type} {g : State → β → State} (hg : ∀ t b, (g t b).armMode = t.armMode) (l : List β) (s : State) :
    (l.foldl g s).armMode = s.armMode := by
  induction l generalizing s with
  | nil => rfl
  | cons b l ih => exact (ih _).trans (hg s b)

/-- A change that names neither FI nor the mode leaves the view alone. -/
theorem Only.armMode {w : List Fld} {s t : State} (h : Only w s t) (hf : covered w .fi = false := by rfl)
    (hg : covered w .gen = false := by rfl) : t.armMode = s.armMode := by
  have hfi : t.fi = s.fi := h.keeps .fi hf
  have hgen : t.gen = s.gen := h.keeps .gen hg
  rw [State.armMode, State.armMode, hfi, hgen]

/-- A write of a register field, of which the other register writes are made. -/
@[simp] theorem armMode_setF (f : Field) (v : Nat) (s : State) : (setF f v s).armMode = s.armMode := (rfl)

/-- A change of a port leaves the view alone. -/
@[simp] theorem armMode_updPort (p : Port) (f : HostPort → HostPort) (s : State) : (s.updPort p f).armMode = s.armMode := (rfl)

/-- A change of a controller leaves the view alone. -/
@[simp] theorem armMode_updCon (p : Port) (f : Ctl → Ctl) (s : State) : (s.updCon p f).armMode = s.armMode := (rfl)

/-! When the view is allowed. -/

/-- FI is disarmed, or the mode is one in which it may be armed. -/
def armAllowed (v : Bool × Mode) : Bool := !v.1 || fiMode v.2

/-- The invariant speaks of the view alone. -/
theorem fiLegal_iff {s : State} : FiLegal s ↔ armAllowed s.armMode = true := by
  rw [FiLegal, armAllowed, State.armMode]
  cases s.fi.armed <;> simp

/-- A disarmed FI is allowed in every mode. -/
@[simp] theorem armAllowed_disarmed (m : Mode) : armAllowed (false, m) = true := (rfl)

/-- A choice between two views. -/
@[simp] theorem armAllowed_ite (c : Prop) [Decidable c] (x y : Bool × Mode) :
    armAllowed (if c then x else y) = if c then armAllowed x else armAllowed y := apply_ite ..

/-- Changes one after another, each of which keeps the view allowed. -/
theorem armAllowed_foldl {β : Type} {g : State → β → State} (hg : ∀ t b, armAllowed t.armMode = true → armAllowed (g t b).armMode = true)
    (l : List β) {s : State} (h : armAllowed s.armMode = true) : armAllowed (l.foldl g s).armMode = true := by
  induction l generalizing s with
  | nil => exact h
  | cons b l ih => exact ih (hg s b h)

/-- A change that keeps the view allowed. -/
def KeepsArmAllowed (f : State → State) : Prop := ∀ t, armAllowed t.armMode = true → armAllowed (f t).armMode = true

end Sys2Proof.Machine
end

section
/-! SUPPORT. What the shared operations do to the arming of FI and to the mode: one with an equation `armMode_…` changes neither, one with
a lemma `armAllowed_…` keeps them allowed. Rule R394. -/
namespace Sys2Proof.Machine
-- Many short theorems elaborated at once would need a thread each.
set_option Elab.async false

/-! Machine/Flags.lean -/

@[simp] theorem armMode_flagOn (f : Field) (s : State) : (flagOn f s).armMode = s.armMode := (rfl)
@[simp] theorem armMode_flagOff (f : Field) (s : State) : (flagOff f s).armMode = s.armMode := (rfl)
@[simp] theorem armMode_flagIf (f : Field) (c : Bool) (s : State) : (flagIf c f s).armMode = s.armMode := by simp [flagIf]
@[simp] theorem armMode_bump (f : Field) (s : State) : (bump f s).armMode = s.armMode := (rfl)
@[simp] theorem armMode_setSat (f : Field) (v : Nat) (s : State) : (setSat f v s).armMode = s.armMode := (rfl)
@[simp] theorem armMode_genErr (f : Field) (off : Nat) (w : Writer) (s : State) : (genErr f off w s).armMode = s.armMode := (rfl)

/-! Machine/Ops.lean -/

@[simp] theorem armMode_emit (o : Output) (s : State) : (emit o s).armMode = s.armMode := (emit_only ..).armMode
@[simp] theorem armMode_emits (os : List Output) (s : State) : (emits os s).armMode = s.armMode := (emits_only ..).armMode
@[simp] theorem armMode_pcieError (p : Port) (bit : Nat) (advisory : Bool) (s : State) : (pcieError p bit advisory s).armMode = s.armMode :=
  (pcieError_only ..).armMode
@[simp] theorem armMode_poisonRx (p : Port) (s : State) : (poisonRx p s).armMode = s.armMode := (poisonRx_only ..).armMode
@[simp] theorem armMode_urCpl (p : Port) (tag : Nat) (s : State) : (urCpl p tag s).armMode = s.armMode := (urCpl_only ..).armMode
@[simp] theorem armMode_caCpl (p : Port) (tag : Nat) (s : State) : (caCpl p tag s).armMode = s.armMode := (caCpl_only ..).armMode
@[simp] theorem armMode_advance (ns : Nat) (s : State) : (advance ns s).armMode = s.armMode := (advance_only ..).armMode
@[simp] theorem armMode_tickFree (s : State) : (tickFree s).armMode = s.armMode := (tickFree_only ..).armMode
@[simp] theorem armMode_logEvent (code sev src : Nat) (coalesce : Bool) (data : List Nat) (s : State) :
    (logEvent code sev src coalesce data s).armMode = s.armMode := (logEvent_only ..).armMode
@[simp] theorem armMode_updClass (k : Nat) (f : ClassCnt → ClassCnt) (s : State) : (updClass k f s).armMode = s.armMode :=
  (updClass_only ..).armMode
@[simp] theorem armMode_updSq (p : Port) (q : Nat) (f : Sq → Sq) (s : State) : (updSq p q f s).armMode = s.armMode :=
  (updSq_only ..).armMode
@[simp] theorem armMode_postDone (p : Port) (sq : Nat) (cid : BitVec 16) (sct sc dw0 dw1 : Nat) (d : Option Done) (s : State) :
    (postDone p sq cid sct sc dw0 dw1 d s).armMode = s.armMode := (postDone_only ..).armMode
@[simp] theorem armMode_postCqe (p : Port) (sq : Nat) (cid : BitVec 16) (sct sc dw0 dw1 : Nat) (s : State) :
    (postCqe p sq cid sct sc dw0 dw1 s).armMode = s.armMode := (postCqe_only ..).armMode
@[simp] theorem armMode_vendorEvent (info lid : Nat) (s : State) : (vendorEvent info lid s).armMode = s.armMode :=
  (vendorEvent_only ..).armMode
@[simp] theorem armMode_evModeChanged (s : State) : (evModeChanged s).armMode = s.armMode := (evModeChanged_only ..).armMode
@[simp] theorem armMode_evFabric (s : State) : (evFabric s).armMode = s.armMode := (evFabric_only ..).armMode
@[simp] theorem armMode_notice (bit info lid : Nat) (s : State) : (notice bit info lid s).armMode = s.armMode := (notice_only ..).armMode
@[simp] theorem armMode_evNsChanged (nsid : Nat) (s : State) : (evNsChanged nsid s).armMode = s.armMode := (evNsChanged_only ..).armMode
@[simp] theorem armMode_evAna (s : State) : (evAna s).armMode = s.armMode := (evAna_only ..).armMode
/-- R34: the mode changes, and FI is left as it is. -/
@[simp] theorem armMode_setMode (row : Nat) (m : Mode) (s : State) : (setMode row m s).armMode = (s.fi.armed, m) := (rfl)
/-- R394: FI is disarmed, in the same mode. -/
@[simp] theorem armMode_fiDisarmed (cause : Nat) (s : State) : (fiDisarmed cause s).armMode = (false, s.gen.mode) := by
  unfold fiDisarmed
  split
  · next harmed => rw [State.armMode, Bool.eq_false_iff.mpr harmed]
  · simp
/-- R394: FI is armed, in the same mode. -/
@[simp] theorem armMode_fiArmed (diag : Bool) (s : State) : (fiArmed diag s).armMode = (true, s.gen.mode) := by simp [fiArmed]
@[simp] theorem armAllowed_fiRealFault {s : State} (hs : armAllowed s.armMode = true) : armAllowed (fiRealFault s).armMode = true := by
  simp [fiRealFault, hs]
@[simp] theorem armMode_fiHits (i rate n : Nat) (s : State) : (fiHits i rate n s).2.armMode = s.armMode := by simp [fiHits]
@[simp] theorem armMode_fiInjected (n code data : Nat) (s : State) : (fiInjected n code data s).armMode = s.armMode :=
  (fiInjected_only ..).armMode
/-- R394: FI is disarmed on the way into a mode in which it may not be armed. -/
@[simp] theorem armAllowed_enterMode (row : Nat) (m : Mode) (s : State) : armAllowed (enterMode row m s).armMode = true := by
  unfold enterMode
  extract_lets changed
  have hmode : (fiDisarmed 2 changed).gen.mode = m := congrArg Prod.snd (armMode_fiDisarmed 2 changed)
  split
  · next hm => rw [armMode_fiArmed, hmode, hm]; rfl
  split
  · next hm =>
    split
    · simp
    · rw [armMode_setMode, armAllowed, hm, Bool.or_true]
  · simp
@[simp] theorem armMode_onFabric {f : State → State} (hf : ∀ t, (f t).armMode = t.armMode) (s : State) :
    (onFabric f s).armMode = s.armMode := by simp [onFabric, hf]
theorem armAllowed_onFabric {f : State → State} (hf : KeepsArmAllowed f) {s : State} (h : armAllowed s.armMode = true) :
    armAllowed (onFabric f s).armMode = true := by simp [onFabric, hf s h, h]

/-! Machine/Bufs.lean -/

@[simp] theorem armMode_putBufs (is : List Nat) (s : State) : (putBufs is s).armMode = s.armMode := (putBufs_only ..).armMode
@[simp] theorem armMode_bpAlloc (o n : Nat) (vc0 : Bool) (s : State) : (bpAlloc o n vc0 s).2.armMode = s.armMode :=
  (bpAlloc_only ..).armMode

/-! Machine/Media.lean -/

@[simp] theorem armMode_updCluster (k : Nat) (f : Cluster → Cluster) (s : State) : (updCluster k f s).armMode = s.armMode :=
  (updCluster_only ..).armMode
@[simp] theorem armMode_ctxPut (d : Nat) (op : DieOp) (b page : Nat) (code : CtxCode) (s : State) :
    (ctxPut d op b page code s).armMode = s.armMode := (ctxPut_only ..).armMode
@[simp] theorem armMode_updNs (n : Nat) (f : Ns → Ns) (s : State) : (updNs n f s).armMode = s.armMode := (updNs_only ..).armMode
@[simp] theorem armMode_putEntry (nsid grain : Nat) (e : MapEntry) (s : State) : (putEntry nsid grain e s).armMode = s.armMode :=
  (putEntry_only ..).armMode
@[simp] theorem armMode_jAppend (r : JRec) (s : State) : (jAppend r s).armMode = s.armMode := (jAppend_only ..).armMode
@[simp] theorem armMode_updGroup (g : Nat) (f : Group → Group) (s : State) : (updGroup g f s).armMode = s.armMode :=
  (updGroup_only ..).armMode
@[simp] theorem armMode_updBlk (d b : Nat) (f : Block → Block) (s : State) : (updBlk d b f s).armMode = s.armMode :=
  (updBlk_only ..).armMode
@[simp] theorem armAllowed_spareIn (resource left : Nat) {s : State} (hs : armAllowed s.armMode = true) :
    armAllowed (spareIn resource left s).armMode = true := by
  simp [spareIn, hs]
@[simp] theorem armMode_unitOut (resource unit : Nat) (s : State) : (unitOut resource unit s).armMode = s.armMode :=
  (unitOut_only ..).armMode
@[simp] theorem armMode_recordExhaustSeal (s : State) : (recordExhaustSeal s).armMode = s.armMode := (recordExhaustSeal_only ..).armMode
@[simp] theorem armAllowed_enterModeEv (row : Nat) (m : Mode) (s : State) : armAllowed (enterModeEv row m s).armMode = true := by
  simp [enterModeEv]
@[simp] theorem armMode_listLost (nsid slba nlb cause csn : Nat) (s : State) : (listLost nsid slba nlb cause csn s).armMode = s.armMode :=
  (listLost_only ..).armMode
@[simp] theorem armMode_deferFault (nsid cause csnFirst csnLast slba nlb : Nat) (s : State) :
    (deferFault nsid cause csnFirst csnLast slba nlb s).armMode = s.armMode := (deferFault_only ..).armMode
@[simp] theorem armMode_markLost (nsid grain cause csn : Nat) (s : State) : (markLost nsid grain cause csn s).armMode = s.armMode :=
  (markLost_only ..).armMode
@[simp] theorem armMode_releaseStaged (i : Nat) (s : State) : (releaseStaged i s).armMode = s.armMode := (releaseStaged_only ..).armMode
@[simp] theorem armMode_unhold (i : Nat) (s : State) : (unhold i s).armMode = s.armMode := (unhold_only ..).armMode
@[simp] theorem armMode_mergeStaged (i : Nat) (s : State) : (mergeStaged i s).armMode = s.armMode := (mergeStaged_only ..).armMode
@[simp] theorem armMode_poisonConsumed (addr : Nat) (s : State) : (poisonConsumed addr s).armMode = s.armMode :=
  (poisonConsumed_only ..).armMode
@[simp] theorem armMode_flushStaged (s : State) : (flushStaged s).armMode = s.armMode := (flushStaged_only ..).armMode
@[simp] theorem armMode_bookVatOn (pairs : List (Nat × Nat)) (rs : List Staged) (cmds : List Nat) (s : State) :
    (bookVatOn pairs rs cmds s).armMode = s.armMode := (bookVatOn_only ..).armMode
@[simp] theorem armMode_bookVat (rs : List Staged) (cmds : List Nat) (s : State) : (bookVat rs cmds s).armMode = s.armMode :=
  (bookVat_only ..).armMode
@[simp] theorem armMode_segmentPages (seq n : Nat) (s : State) : (segmentPages seq n s).armMode = s.armMode :=
  (segmentPages_only ..).armMode
@[simp] theorem armMode_rewriteSysPages (gone : SysPage → Bool) (s : State) : (rewriteSysPages gone s).armMode = s.armMode :=
  (rewriteSysPages_only ..).armMode
@[simp] theorem armMode_openDurable (rs : List JRec) (s : State) : (openDurable rs s).armMode = s.armMode := (openDurable_only ..).armMode
@[simp] theorem armMode_journalNow (s : State) : (journalNow s).armMode = s.armMode := (journalNow_only ..).armMode
@[simp] theorem armMode_rootDurable (r : Root) (s : State) : (rootDurable r s).armMode = s.armMode := (rootDurable_only ..).armMode
@[simp] theorem armMode_snapDurableNow (n : Snap) (s : State) : (snapDurableNow n s).armMode = s.armMode := (snapDurableNow_only ..).armMode
@[simp] theorem armMode_cleanStop (s : State) : (cleanStop s).armMode = s.armMode := by simp [cleanStop]

/-! Machine/FabricOps.lean -/

@[simp] theorem armMode_updLink (k : Nat) (f : GLink → GLink) (s : State) : (updLink k f s).armMode = s.armMode := (updLink_only ..).armMode
@[simp] theorem armMode_updTxStream (vc dst : Nat) (f : TxStream → TxStream) (s : State) : (updTxStream vc dst f s).armMode = s.armMode :=
  (updTxStream_only ..).armMode
@[simp] theorem armMode_winLog (p : Port) (cause offset rid : Nat) (s : State) : (winLog p cause offset rid s).armMode = s.armMode :=
  (winLog_only ..).armMode
@[simp] theorem armMode_windowFail (ftype dst cause : Nat) (info : List Nat) (s : State) :
    (windowFail ftype dst cause info s).armMode = s.armMode := (windowFail_only ..).armMode
@[simp] theorem armMode_frameFailed (fr : TxFrame) (s : State) : (frameFailed fr s).armMode = s.armMode := (frameFailed_only ..).armMode
@[simp] theorem armMode_fiGf (k vc n : Nat) (s : State) : (fiGf k vc n s).2.armMode = s.armMode := by simp [fiGf]
@[simp] theorem armMode_drainLink (k : Nat) (s : State) : (drainLink k s).armMode = s.armMode := (drainLink_only ..).armMode
@[simp] theorem armMode_sendFlits (k vc n : Nat) (s : State) : (sendFlits k vc n s).armMode = s.armMode := by simp [sendFlits]
@[simp] theorem armMode_frameOut (vc dst ftype x k : Nat) (s : State) : (frameOut vc dst ftype x k s).armMode = s.armMode := by
  simp [frameOut]
@[simp] theorem armMode_sendVia (via : Option Nat) (vc dst ftype tag : Nat) (info : List Nat) (s : State) :
    (sendVia via vc dst ftype tag info s).armMode = s.armMode := by
  unfold sendVia; split <;> simp
@[simp] theorem armMode_rawSend (vc dst ftype tag : Nat) (info : List Nat) (s : State) :
    (rawSend vc dst ftype tag info s).armMode = s.armMode := by
  simp [rawSend]
@[simp] theorem armMode_payResync (vc dst : Nat) (s : State) : (payResync vc dst s).armMode = s.armMode := by simp [payResync]
@[simp] theorem armMode_sendFrame (vc dst ftype tag : Nat) (info : List Nat) (s : State) :
    (sendFrame vc dst ftype tag info s).armMode = s.armMode := by
  simp [sendFrame]
@[simp] theorem armMode_sendCtrl (dst msg : Nat) (fields : List Nat) (s : State) : (sendCtrl dst msg fields s).armMode = s.armMode := by
  simp [sendCtrl]
@[simp] theorem armMode_mirror (kind : Nat) (fields : List Nat) (s : State) : (mirror kind fields s).armMode = s.armMode := by
  unfold mirror; split <;> simp
@[simp] theorem armMode_resendFrame (fr : TxFrame) (s : State) : (resendFrame fr s).armMode = s.armMode := by
  unfold resendFrame; (repeat' split) <;> simp
@[simp] theorem armMode_sendLsr (s : State) : (sendLsr s).armMode = s.armMode := by simp [sendLsr]
@[simp] theorem armMode_failRoutes (s : State) : (failRoutes s).armMode = s.armMode := (failRoutes_only ..).armMode
@[simp] theorem armMode_linkDown (k : Nat) (s : State) : (linkDown k s).armMode = s.armMode := by simp [linkDown]
@[simp] theorem armMode_allLinksDown (s : State) : (allLinksDown s).armMode = s.armMode := by simp [allLinksDown]
@[simp] theorem armMode_sendTables (num at_ dst : Nat) (s : State) : (sendTables num at_ dst s).armMode = s.armMode := by simp [sendTables]
@[simp] theorem armMode_distribute (s : State) : (distribute s).armMode = s.armMode := by simp only [distribute]; split <;> simp
@[simp] theorem armMode_topologyChanged (s : State) : (topologyChanged s).armMode = s.armMode := by simp [topologyChanged]
@[simp] theorem armMode_ps4Links (s : State) : (ps4Links s).armMode = s.armMode := by simp [ps4Links]

/-! Machine/MemOps.lean -/

@[simp] theorem armMode_expWrite (meport off : Nat) (data : List Byte) (ep : Nat → Bool) (s : State) :
    (expWrite meport off data ep s).armMode = s.armMode := (expWrite_only ..).armMode
@[simp] theorem armMode_expReadPrep (off n : Nat) (s : State) : (expReadPrep off n s).armMode = s.armMode := (expReadPrep_only ..).armMode

/-! Machine/WinOps.lean -/

@[simp] theorem armMode_localRead (p : Port) (t : HeldTlp) (s : State) : (localRead p t s).armMode = s.armMode :=
  (localRead_only ..).armMode
@[simp] theorem armMode_winGo (p : Port) (t : HeldTlp) (s : State) : (winGo p t s).armMode = s.armMode := by unfold winGo; split <;> simp
@[simp] theorem armMode_winSubmit (p : Port) (t : HeldTlp) (s : State) : (winSubmit p t s).armMode = s.armMode := by simp [winSubmit]
@[simp] theorem armMode_releaseHeld (p : Port) (s : State) : (releaseHeld p s).armMode = s.armMode := by simp [releaseHeld]
@[simp] theorem armMode_releaseAll (s : State) : (releaseAll s).armMode = s.armMode := by simp [releaseAll]

/-! Machine/ResetOps.lean -/

@[simp] theorem armMode_closeFixity (dead : Nat → Bool) (s : State) : (closeFixity dead s).armMode = s.armMode :=
  (closeFixity_only ..).armMode
@[simp] theorem armMode_updCtx (i : Nat) (f : Ctx → Ctx) (s : State) : (updCtx i f s).armMode = s.armMode := (updCtx_only ..).armMode
@[simp] theorem armMode_dgFill (n : Nat) (s : State) : (dgFill n s).armMode = s.armMode := (dgFill_only ..).armMode
@[simp] theorem armMode_dgFail (ids : List Nat) (cause : Nat) (s : State) : (dgFail ids cause s).armMode = s.armMode :=
  (dgFail_only ..).armMode
@[simp] theorem armMode_abandonCopies (s : State) : (abandonCopies s).armMode = s.armMode := (abandonCopies_only ..).armMode
@[simp] theorem armAllowed_enterQuarantine (row : Nat) (s : State) : armAllowed (enterQuarantine row s).armMode = true := by
  simp [enterQuarantine]
@[simp] theorem armAllowed_quarantineNow {s : State} (hs : armAllowed s.armMode = true) : armAllowed (quarantineNow s).armMode = true := by
  unfold quarantineNow; split <;> simp [hs]
@[simp] theorem armAllowed_fatalFault {s : State} (hs : armAllowed s.armMode = true) : armAllowed (fatalFault s).armMode = true := by
  unfold fatalFault; split <;> simp [hs]
@[simp] theorem armAllowed_rowOne {s : State} (hs : armAllowed s.armMode = true) : armAllowed (rowOne s).armMode = true := by
  simp [rowOne, hs]
@[simp] theorem armMode_clearIslands (s : State) : (clearIslands s).armMode = s.armMode := (clearIslands_only ..).armMode
@[simp] theorem armAllowed_y9Reset (clean : Bool) (row : Nat) (s : State) : armAllowed (y9Reset clean row s).armMode = true := by
  simp [y9Reset]
@[simp] theorem armMode_abandonFf (s : State) : (abandonFf s).armMode = s.armMode := (abandonFf_only ..).armMode
@[simp] theorem armAllowed_powerOnReset (s : State) : armAllowed (powerOnReset s).armMode = true := (rfl)
@[simp] theorem armAllowed_managementReset (flag : Field) {s : State} (h : armAllowed s.armMode = true) :
    armAllowed (managementReset flag s).armMode = true := by unfold managementReset; (repeat' split) <;> simp [h]

/-! Machine/LogOps.lean -/

@[simp] theorem armMode_timeStep (ns : Nat) (s : State) : (timeStep ns s).armMode = s.armMode := (timeStep_only ..).armMode
@[simp] theorem armMode_correctBehind (behind : Nat) (s : State) : (correctBehind behind s).armMode = s.armMode :=
  (correctBehind_only ..).armMode
@[simp] theorem armMode_askRepair (nsid grain csn : Nat) (s : State) : (askRepair nsid grain csn s).armMode = s.armMode := by
  unfold askRepair; (repeat' split) <;> simp
@[simp] theorem armMode_askDue (s : State) : (askDue s).armMode = s.armMode := by unfold askDue; split <;> simp
@[simp] theorem armMode_withdrawPoisoned (r : Staged) (s : State) : (withdrawPoisoned r s).armMode = s.armMode := by simp [withdrawPoisoned]
@[simp] theorem armMode_withdrawSel (f : Staged → Bool) (s : State) : (withdrawSel f s).armMode = s.armMode := by simp [withdrawSel]
@[simp] theorem armMode_readyForVat (f : Staged → Bool) (s : State) : (readyForVat f s).armMode = s.armMode := by simp [readyForVat]
@[simp] theorem armMode_writeThroughEnter (s : State) : (writeThroughEnter s).armMode = s.armMode := by simp [writeThroughEnter]
@[simp] theorem armMode_writeThroughExit (s : State) : (writeThroughExit s).armMode = s.armMode := (writeThroughExit_only ..).armMode
@[simp] theorem armAllowed_enterDrain (s : State) : armAllowed (enterDrain s).armMode = true := by simp [enterDrain]
@[simp] theorem armAllowed_powerFail {s : State} (hs : armAllowed s.armMode = true) : armAllowed (powerFail s).armMode = true := by
  simp only [powerFail]; split <;> simp [hs]

/-! Machine/NsCore.lean -/

@[simp] theorem armMode_saveNs (nsid : Nat) (s : State) : (saveNs nsid s).armMode = s.armMode := (saveNs_only ..).armMode
@[simp] theorem armMode_setNs (nsid : Nat) (f : Ns → Ns) (s : State) : (setNs nsid f s).armMode = s.armMode := (setNs_only ..).armMode
@[simp] theorem armMode_dropKey (nsid : Nat) (s : State) : (dropKey nsid s).armMode = s.armMode := (dropKey_only ..).armMode
@[simp] theorem armMode_putKey (nsid copies : Nat) (s : State) : (putKey nsid copies s).armMode = s.armMode := (putKey_only ..).armMode
@[simp] theorem armMode_clearGrains (nsid : Nat) (s : State) : (clearGrains nsid s).armMode = s.armMode := (clearGrains_only ..).armMode
@[simp] theorem armMode_deleteNs (nsid : Nat) (s : State) : (deleteNs nsid s).armMode = s.armMode := (deleteNs_only ..).armMode
@[simp] theorem armMode_unsealNsNow (nsid : Nat) (s : State) : (unsealNsNow nsid s).armMode = s.armMode := (unsealNsNow_only ..).armMode
@[simp] theorem armMode_updTw (f : Tw → Tw) (s : State) : (updTw f s).armMode = s.armMode := (updTw_only ..).armMode
@[simp] theorem armMode_updMig (f : Mig → Mig) (s : State) : (updMig f s).armMode = s.armMode := (updMig_only ..).armMode
@[simp] theorem armAllowed_rowThirteen (s : State) : armAllowed (rowThirteen s).armMode = true := by simp [rowThirteen]
@[simp] theorem armMode_coverCsn (csn : Nat) (s : State) : (coverCsn csn s).armMode = s.armMode := (coverCsn_only ..).armMode
@[simp] theorem armMode_raiseCsn (csn : Nat) (s : State) : (raiseCsn csn s).armMode = s.armMode := (raiseCsn_only ..).armMode
@[simp] theorem armMode_liftSeals (s : State) : (liftSeals s).armMode = s.armMode := (liftSeals_only ..).armMode
@[simp] theorem armMode_deleteIngested (s : State) : (deleteIngested s).armMode = s.armMode := (deleteIngested_only ..).armMode
@[simp] theorem armMode_dropTransport (s : State) : (dropTransport s).armMode = s.armMode := (dropTransport_only ..).armMode
@[simp] theorem armMode_raiseToOrigins (s : State) : (raiseToOrigins s).armMode = s.armMode := (raiseToOrigins_only ..).armMode
@[simp] theorem armAllowed_abortSession {s : State} (hs : armAllowed s.armMode = true) : armAllowed (abortSession s).armMode = true := by
  simp [abortSession, hs]
@[simp] theorem armAllowed_spareExhausted (resource : Nat) {s : State} (hs : armAllowed s.armMode = true) :
    armAllowed (spareExhausted resource s).armMode = true := by
  simp only [spareExhausted]; split <;> simp [hs]

/-! Machine/SpOps.lean -/

@[simp] theorem armMode_finishRacking (s : State) : (finishRacking s).armMode = s.armMode := (finishRacking_only ..).armMode
@[simp] theorem armMode_unqueueRows (rows : List Row) (s : State) : (unqueueRows rows s).armMode = s.armMode :=
  (unqueueRows_only ..).armMode
@[simp] theorem armMode_closeShort (num : Nat) (s : State) : (closeShort num s).armMode = s.armMode := (closeShort_only ..).armMode
@[simp] theorem armMode_stopGroup (g : Nat) (s : State) : (stopGroup g s).armMode = s.armMode := (stopGroup_only ..).armMode
@[simp] theorem armMode_loseStored (nsid grain cause : Nat) (s : State) : (loseStored nsid grain cause s).armMode = s.armMode := by
  simp [loseStored]
@[simp] theorem armMode_threeMissing (grains : List (Nat × Nat)) (s : State) : (threeMissing grains s).armMode = s.armMode := by
  simp [threeMissing]
@[simp] theorem armAllowed_assignSpare (g : Group) (pos : Nat) {s : State} (hs : armAllowed s.armMode = true) :
    armAllowed (assignSpare g pos s).armMode = true := by
  unfold assignSpare; split <;> simp [hs]
@[simp] theorem armAllowed_assignSpares  {s : State} (hs : armAllowed s.armMode = true) :
    armAllowed (assignSpares s).armMode = true := by
  refine armAllowed_foldl (fun t g ht => ?_) _ hs
  (repeat' split) <;> simp [ht, armAllowed_foldl (fun u p hu => armAllowed_assignSpare _ p hu)]
@[simp] theorem armAllowed_checkWaiting {s : State} (hs : armAllowed s.armMode = true) : armAllowed (checkWaiting s).armMode = true := by
  simp [checkWaiting, hs]
@[simp] theorem armMode_loseGroup (g : Group) (s : State) : (loseGroup g s).armMode = s.armMode := by simp [loseGroup]
@[simp] theorem armMode_vatCopiesGone (g : Group) (pos : Nat) (s : State) : (vatCopiesGone g pos s).armMode = s.armMode :=
  (vatCopiesGone_only ..).armMode
@[simp] theorem armMode_memberMissing (g : Group) (pos : Nat) (s : State) : (memberMissing g pos s).armMode = s.armMode := by
  simp only [memberMissing]; split <;> simp
@[simp] theorem armMode_dieOut (d : Nat) (s : State) : (dieOut d s).armMode = s.armMode := by simp only [dieOut]; (repeat' split) <;> simp
@[simp] theorem armMode_chanOut (c : Nat) (s : State) : (chanOut c s).armMode = s.armMode := by simp [chanOut]
@[simp] theorem armAllowed_declareDieFailed (d : Nat) {s : State} (hs : armAllowed s.armMode = true) :
    armAllowed (declareDieFailed d s).armMode = true := by
  have hout : armAllowed (fiRealFault (dieOut d s)).armMode = true := by simp [hs]
  exact armAllowed_checkWaiting (armAllowed_assignSpares (by simp [hout]))
@[simp] theorem armAllowed_declareChannelFailed (c : Nat) {s : State} (hs : armAllowed s.armMode = true) :
    armAllowed (declareChannelFailed c s).armMode = true :=
  armAllowed_checkWaiting (armAllowed_assignSpares (by simp [hs]))
@[simp] theorem armMode_replaceBlock (d b : Nat) (s : State) : (replaceBlock d b s).armMode = s.armMode := (replaceBlock_only ..).armMode
@[simp] theorem armAllowed_retireBlock (d b cause : Nat) {s : State} (hs : armAllowed s.armMode = true) :
    armAllowed (retireBlock d b cause s).armMode = true := by
  simp [retireBlock, hs]
@[simp] theorem armMode_wantRefresh (d b : Nat) (s : State) : (wantRefresh d b s).armMode = s.armMode := (wantRefresh_only ..).armMode
@[simp] theorem armMode_countRead (d b : Nat) (slc : Bool) (s : State) : (countRead d b slc s).armMode = s.armMode :=
  (countRead_only ..).armMode
@[simp] theorem armMode_countEntries (es : List MapEntry) (s : State) : (countEntries es s).armMode = s.armMode :=
  (countEntries_only ..).armMode

/-! Machine/Startup.lean -/

@[simp] theorem armMode_bootFailed (code : Nat) (s : State) : (bootFailed code s).armMode = s.armMode := (bootFailed_only ..).armMode
@[simp] theorem armMode_redoSectors (s : State) : (redoSectors s).armMode = s.armMode := (redoSectors_only ..).armMode
@[simp] theorem armMode_bootImageVerifyEff (slot1 slot2 : SlotImage) (s : State) :
    (bootImageVerifyEff slot1 slot2 s).armMode = s.armMode := by
  simp [bootImageVerifyEff]
@[simp] theorem armMode_floodHello (s : State) : (floodHello s).armMode = s.armMode := (floodHello_only ..).armMode
@[simp] theorem armMode_startDiscovery (s : State) : (startDiscovery s).armMode = s.armMode := (startDiscovery_only ..).armMode
@[simp] theorem armMode_hostIslandReleaseEff (s : State) : (hostIslandReleaseEff s).armMode = s.armMode := by simp [hostIslandReleaseEff]
@[simp] theorem armMode_trainIface (ds : List Nat) (failed : Option TrainStep) (s : State) : (trainIface ds failed s).armMode = s.armMode :=
  (trainIface_only ..).armMode
@[simp] theorem armAllowed_channelTrainingEff (channel : Fin 64) (failedTwice : Option TrainStep) (dies : List DieFound) {s : State}
    (hs : armAllowed s.armMode = true) :
    armAllowed (channelTrainingEff channel failedTwice dies s).armMode = true := by
  unfold channelTrainingEff
  (repeat' split) <;> simp [hs, armAllowed_foldl (fun u d hu => armAllowed_declareDieFailed d hu)]
@[simp] theorem armMode_loseAcked (nsid grain csn : Nat) (s : State) : (loseAcked nsid grain csn s).armMode = s.armMode := by
  simp [loseAcked]
@[simp] theorem armMode_mapRecoveryEff (unreadableSegs : List Nat) (unreadable : List (Nat × Nat)) (replayMs scanMs : Nat) (s : State) :
    (mapRecoveryEff unreadableSegs unreadable replayMs scanMs s).armMode = s.armMode := by
  simp [mapRecoveryEff]
@[simp] theorem armMode_wipeBlock (d b : Nat) (s : State) : (wipeBlock d b s).armMode = s.armMode := (wipeBlock_only ..).armMode
@[simp] theorem armAllowed_halfErasedBlockRedoEff (die block : Nat) (blankPass1 blankPass2 : Bool) {s : State}
    (hs : armAllowed s.armMode = true) :
    armAllowed (halfErasedBlockRedoEff die block blankPass1 blankPass2 s).armMode = true := by
  simp [halfErasedBlockRedoEff, hs]
@[simp] theorem armMode_copyToVat (nsid grain : Nat) (c : Copy) (s : State) : (copyToVat nsid grain c s).armMode = s.armMode :=
  (copyToVat_only ..).armMode
@[simp] theorem armMode_settleStripe (unreadable : List (Nat × Nat)) (o : OpenStripe) (s : State) :
    (settleStripe unreadable o s).armMode = s.armMode := by
  unfold settleStripe
  (repeat' split) <;> try simp
  exact (armMode_foldl (fun t e => by (repeat' split) <;> simp) _ _).trans (armMode_flagOn ..)
@[simp] theorem armMode_openStripeCompletionEff (unreadable : List (Nat × Nat)) (s : State) :
    (openStripeCompletionEff unreadable s).armMode = s.armMode := by
  simp [openStripeCompletionEff]
@[simp] theorem armAllowed_startMigration {s : State} (hs : armAllowed s.armMode = true) :
    armAllowed (startMigration s).armMode = true := by
  simp [startMigration, hs]
@[simp] theorem armMode_raiseArb (s : State) : (raiseArb s).armMode = s.armMode := (raiseArb_only ..).armMode
@[simp] theorem armAllowed_startServe (s : State) : armAllowed (startServe s).armMode = true := by simp [startServe]
@[simp] theorem armAllowed_startupCompleteEff (durationMs : Nat) {s : State} (hs : armAllowed s.armMode = true) :
    armAllowed (startupCompleteEff durationMs s).armMode = true := by
  simp [startupCompleteEff, hs]

/-! Machine/MmOps.lean -/

@[simp] theorem armMode_updOpen (num : Nat) (f : OpenBarrel → OpenBarrel) (s : State) : (updOpen num f s).armMode = s.armMode :=
  (updOpen_only ..).armMode
@[simp] theorem armMode_updRow (num w : Nat) (f : Row → Row) (s : State) : (updRow num w f s).armMode = s.armMode :=
  (updRow_only ..).armMode
@[simp] theorem armMode_addRow (num : Nat) (r : Row) (s : State) : (addRow num r s).armMode = s.armMode := (addRow_only ..).armMode
@[simp] theorem armMode_startCopies (key : Nat) (unreadable : List (Nat × Nat)) (ps : List Placed) (s : State) :
    (startCopies key unreadable ps s).armMode = s.armMode := by
  simp [startCopies]
@[simp] theorem armMode_refreshBefore (d b w : Nat) (s : State) : (refreshBefore d b w s).armMode = s.armMode := by simp [refreshBefore]
@[simp] theorem armMode_memberFailed (b : OpenBarrel) (g : Group) (w m : Nat) (s : State) :
    (memberFailed b g w m s).armMode = s.armMode := by
  simp [memberFailed]
@[simp] theorem armMode_afterProgram (num : Nat) (s : State) : (afterProgram num s).armMode = s.armMode := (afterProgram_only ..).armMode
@[simp] theorem armMode_memberPassed (x : OpenBarrel) (r : Row) (m : Nat) (s : State) : (memberPassed x r m s).armMode = s.armMode :=
  (memberPassed_only ..).armMode
@[simp] theorem armMode_refuseProgram (d b target why : Nat) (s : State) : (refuseProgram d b target why s).armMode = s.armMode :=
  (refuseProgram_only ..).armMode
@[simp] theorem armMode_eraseNow (x : Nat × Nat) (s : State) : (eraseNow x s).armMode = s.armMode := (eraseNow_only ..).armMode
@[simp] theorem armMode_freeErased (s : State) : (freeErased s).armMode = s.armMode := (freeErased_only ..).armMode
@[simp] theorem armMode_rackBarrel (num : Nat) (unreadable : List (Nat × Nat)) (s : State) :
    (rackBarrel num unreadable s).armMode = s.armMode := by
  simp [rackBarrel]
@[simp] theorem armMode_eraseNamespaces (gone : Nat → Bool) (s : State) : (eraseNamespaces gone s).armMode = s.armMode :=
  (eraseNamespaces_only ..).armMode

/-! Machine/Drain.lean -/

@[simp] theorem armMode_drainFlush (s : State) : (drainFlush s).armMode = s.armMode := (drainFlush_only ..).armMode
@[simp] theorem armAllowed_powerOnNow (s : State) : armAllowed (powerOnNow s).armMode = true := by simp [powerOnNow]
@[simp] theorem armAllowed_resetFromQuarantine (s : State) : armAllowed (resetFromQuarantine s).armMode = true := by
  simp [resetFromQuarantine]

/-! Machine/Power.lean -/

@[simp] theorem armAllowed_porNAssertEff (lowUs : Nat) {s : State} (hs : armAllowed s.armMode = true) :
    armAllowed (porNAssertEff lowUs s).armMode = true := by
  simp [porNAssertEff, hs]
@[simp] theorem armAllowed_porNDeassertEff (bifur : Bool) (pwrHighUs : Nat) {s : State} (hs : armAllowed s.armMode = true) :
    armAllowed (porNDeassertEff bifur pwrHighUs s).armMode = true := by
  simp [porNDeassertEff, hs]
@[simp] theorem armAllowed_pwrFailNAssertEff (lowNs : Nat) {s : State} (hs : armAllowed s.armMode = true) :
    armAllowed (pwrFailNAssertEff lowNs s).armMode = true := by
  simp [pwrFailNAssertEff, hs]
@[simp] theorem armAllowed_pwrFailNDeassertEff (highUs : Nat) {s : State} (hs : armAllowed s.armMode = true) :
    armAllowed (pwrFailNDeassertEff highUs s).armMode = true := by
  simp [pwrFailNDeassertEff, hs]
@[simp] theorem armAllowed_drainFlushCompleteEff {s : State} (hs : armAllowed s.armMode = true) :
    armAllowed (drainFlushCompleteEff s).armMode = true := by
  unfold drainFlushCompleteEff; split <;> simp [hs]
@[simp] theorem armAllowed_twinFenceInAssertEff {s : State} (hs : armAllowed s.armMode = true) :
    armAllowed (twinFenceInAssertEff s).armMode = true := by
  simp [twinFenceInAssertEff, hs]
@[simp] theorem armAllowed_twinFenceInDeassertEff {s : State} (hs : armAllowed s.armMode = true) :
    armAllowed (twinFenceInDeassertEff s).armMode = true := by
  simp [twinFenceInDeassertEff, hs]
@[simp] theorem armMode_huGoodDeassertEff (s : State) : (huGoodDeassertEff s).armMode = s.armMode := by simp [huGoodDeassertEff]
@[simp] theorem armMode_huSenseBelowVLowEff (mv : Nat) (s : State) : (huSenseBelowVLowEff mv s).armMode = s.armMode := by
  simp [huSenseBelowVLowEff]
@[simp] theorem armAllowed_holdupVerificationEndEff (dvTenthMv : Nat) {s : State} (hs : armAllowed s.armMode = true) :
    armAllowed (holdupVerificationEndEff dvTenthMv s).armMode = true := by
  unfold holdupVerificationEndEff; split <;> simp [hs]
@[simp] theorem armAllowed_dramChannelTrainingLossEff (channel : Fin 8) {s : State} (hs : armAllowed s.armMode = true) :
    armAllowed (dramChannelTrainingLossEff channel s).armMode = true := by
  simp [dramChannelTrainingLossEff, hs]

/-! Machine/Resets.lean -/

@[simp] theorem armAllowed_requestY9Reset {s : State} (hs : armAllowed s.armMode = true) :
    armAllowed (requestY9Reset s).armMode = true := by
  unfold requestY9Reset; split <;> simp [hs]
@[simp] theorem armAllowed_genResetY9Eff (who : Writer) (key : BitVec 16) {s : State} (hs : armAllowed s.armMode = true) :
    armAllowed (genResetY9Eff who key s).armMode = true := by
  simp [genResetY9Eff, hs]
@[simp] theorem armAllowed_genResetManagementEff (who : Writer) (key : BitVec 16) {s : State} (hs : armAllowed s.armMode = true) :
    armAllowed (genResetManagementEff who key s).armMode = true := by
  simp [genResetManagementEff, hs]
@[simp] theorem armMode_ccEnSetEff (port : Port) (iosqes iocqes mps ams css asqs acqs asq acq : Nat) (s : State) :
    (ccEnSetEff port iosqes iocqes mps ams css asqs acqs asq acq s).armMode = s.armMode := by
  simp [ccEnSetEff]
@[simp] theorem armMode_shutdownNotificationEff (port : Port) (shn : BitVec 2) (s : State) :
    (shutdownNotificationEff port shn s).armMode = s.armMode := by
  simp [shutdownNotificationEff]

/-! Machine/Modes.lean -/

@[simp] theorem armMode_modereqRefused (who : Writer) (s : State) : (modereqRefused who s).armMode = s.armMode := by simp [modereqRefused]
theorem armAllowed_twoStep {grant : State → State} (hg : KeepsArmAllowed grant) (who : Writer) (key : BitVec 16) (target : Mode)
    (allowed : Bool) {s : State} (h : armAllowed s.armMode = true) :
    armAllowed (twoStep who key target allowed grant s).armMode = true := by
  have hgrant := hg { s with gen := { s.gen with reqTarget := none } } (by simpa using h)
  simp [twoStep, h, hgrant]
@[simp] theorem armAllowed_diagnosticEntryEff {s : State} (hs : armAllowed s.armMode = true) :
    armAllowed (diagnosticEntryEff s).armMode = true := by
  simp [diagnosticEntryEff, hs]
theorem armAllowed_oneStep {grant : State → State} (hg : KeepsArmAllowed grant) (who : Writer) (key : BitVec 16) (allowed : Bool)
    {s : State} (h : armAllowed s.armMode = true) : armAllowed (oneStep who key allowed grant s).armMode = true := by
  have hgrant := hg { s with gen := { s.gen with reqTarget := none } } (by simpa using h)
  simp [oneStep, h, hgrant]
@[simp] theorem armAllowed_provisioningCommitEff (who : Writer) {s : State} (hs : armAllowed s.armMode = true) :
    armAllowed (provisioningCommitEff who s).armMode = true := by
  simp [provisioningCommitEff, hs]
@[simp] theorem armMode_genOwnerClaimEff (who : Writer) (s : State) : (genOwnerClaimEff who s).armMode = s.armMode := by
  simp [genOwnerClaimEff]
@[simp] theorem armMode_genOwnerReleaseEff (who : Writer) (s : State) : (genOwnerReleaseEff who s).armMode = s.armMode := by
  simp [genOwnerReleaseEff]
@[simp] theorem armMode_genOwnerSeizeEff (who : Writer) (s : State) : (genOwnerSeizeEff who s).armMode = s.armMode := by
  unfold genOwnerSeizeEff; split <;> simp
@[simp] theorem armMode_genOwnerSeizedClearEff (who : Writer) (s : State) : (genOwnerSeizedClearEff who s).armMode = s.armMode :=
  (genOwnerSeizedClearEff_only ..).armMode

/-! Machine/Setup.lean -/

@[simp] theorem armMode_writeFields (who : Writer) (off value : Nat) (s : State) : (writeFields who off value s).armMode = s.armMode :=
  (writeFields_only ..).armMode
@[simp] theorem armMode_writeMsix (p : Port) (i value : Nat) (s : State) : (writeMsix p i value s).armMode = s.armMode :=
  (writeMsix_only ..).armMode
@[simp] theorem armMode_writeReg (who : Writer) (off value : Nat) (s : State) : (writeReg who off value s).armMode = s.armMode :=
  (writeReg_only ..).armMode
@[simp] theorem armMode_commitHorizon (s : State) : (commitHorizon s).armMode = s.armMode := (commitHorizon_only ..).armMode

/-! Machine/HostPort.lean -/

@[simp] theorem armMode_windowTlpReadEff (port : Port) (offset len _rid tag : Nat) (s : State) :
    (windowTlpReadEff port offset len _rid tag s).armMode = s.armMode := by
  unfold windowTlpReadEff; (repeat' split) <;> simp
@[simp] theorem armMode_windowTlpWriteEff (port : Port) (offset : Nat) (data : List Byte) (rid : Nat) (ep : Bool) (s : State) :
    (windowTlpWriteEff port offset data rid ep s).armMode = s.armMode := by
  simp only [windowTlpWriteEff]; (repeat' split) <;> simp
@[simp] theorem armMode_winlogClrEff (who : Writer) (s : State) : (winlogClrEff who s).armMode = s.armMode := (winlogClrEff_only ..).armMode
@[simp] theorem armMode_extend (id cause ns : Nat) (s : State) : (extend id cause ns s).armMode = s.armMode := (extend_only ..).armMode

/-! Machine/Queues.lean -/

@[simp] theorem armAllowed_wake {s : State} (hs : armAllowed s.armMode = true) : armAllowed (wake s).armMode = true := by simp [wake, hs]
@[simp] theorem armAllowed_wakeDoorbell {s : State} (hs : armAllowed s.armMode = true) : armAllowed (wakeDoorbell s).armMode = true := by
  unfold wakeDoorbell; split <;> simp [hs]
@[simp] theorem armMode_eventIdxPolled (p : Port) (s : State) : (eventIdxPolled p s).armMode = s.armMode := (eventIdxPolled_only ..).armMode
@[simp] theorem armMode_resumePolling (p : Port) (s : State) : (resumePolling p s).armMode = s.armMode := (resumePolling_only ..).armMode
@[simp] theorem armMode_badDoorbell (p : Port) (qid : Nat) (noQueue : Bool) (s : State) :
    (badDoorbell p qid noQueue s).armMode = s.armMode := (badDoorbell_only ..).armMode
@[simp] theorem armMode_doorbellIn (p : Port) (poisoned : Bool) (s : State) : (doorbellIn p poisoned s).armMode = s.armMode :=
  (doorbellIn_only ..).armMode
@[simp] theorem armAllowed_sqTailDoorbellEff (port : Port) (qid value : Nat) (poisoned : Bool) {s : State}
    (hs : armAllowed s.armMode = true) :
    armAllowed (sqTailDoorbellEff port qid value poisoned s).armMode = true := by
  simp only [sqTailDoorbellEff]; (repeat' split) <;> simp [hs]
@[simp] theorem armMode_finishDeletes (p : Port) (s : State) : (finishDeletes p s).armMode = s.armMode := (finishDeletes_only ..).armMode
@[simp] theorem armMode_cqHeadSeen (p : Port) (qid value : Nat) (s : State) : (cqHeadSeen p qid value s).armMode = s.armMode :=
  (cqHeadSeen_only ..).armMode
@[simp] theorem armAllowed_cqHeadDoorbellEff (port : Port) (qid value : Nat) (poisoned : Bool) {s : State}
    (hs : armAllowed s.armMode = true) :
    armAllowed (cqHeadDoorbellEff port qid value poisoned s).armMode = true := by
  simp only [cqHeadDoorbellEff]; (repeat' split) <;> simp [hs]
@[simp] theorem armMode_sqeGone (p : Port) (sq : Nat) (s : State) : (sqeGone p sq s).armMode = s.armMode := (sqeGone_only ..).armMode
@[simp] theorem armMode_sqeFailed (p : Port) (s : State) : (sqeFailed p s).armMode = s.armMode := (sqeFailed_only ..).armMode
@[simp] theorem armMode_sqeArrived (p : Port) (sq : Nat) (s : State) : (sqeArrived p sq s).armMode = s.armMode :=
  (sqeArrived_only ..).armMode
@[simp] theorem armAllowed_shadowTail (p : Port) (x : Nat × Nat) {s : State} (hs : armAllowed s.armMode = true) :
    armAllowed (shadowTail p x s).armMode = true := by
  unfold shadowTail; split <;> simp [hs]
@[simp] theorem armMode_shadowHead (p : Port) (x : Nat × Nat) (s : State) : (shadowHead p x s).armMode = s.armMode :=
  (shadowHead_only ..).armMode
@[simp] theorem armMode_pollReturned (p : Port) (s : State) : (pollReturned p s).armMode = s.armMode := (pollReturned_only ..).armMode
@[simp] theorem armAllowed_pollCompletionEff (port : Port) (tails heads : List (Nat × Nat)) {s : State}
    (hs : armAllowed s.armMode = true) :
    armAllowed (pollCompletionEff port tails heads s).armMode = true := by
  have htails (t : State) (ht : armAllowed t.armMode = true) : armAllowed (tails.foldl (fun t x => shadowTail port x t) t).armMode = true :=
    armAllowed_foldl (fun u x hu => armAllowed_shadowTail port x hu) _ ht
  simp [pollCompletionEff, hs, htails]
@[simp] theorem armMode_stopPolling (p : Port) (s : State) : (stopPolling p s).armMode = s.armMode := (stopPolling_only ..).armMode
@[simp] theorem armAllowed_pollStopEff (port : Port) (idleUs : Nat) (finalTails : List (Nat × Nat)) {s : State}
    (hs : armAllowed s.armMode = true) :
    armAllowed (pollStopEff port idleUs finalTails s).armMode = true := by
  simp [pollStopEff, hs]

/-! Machine/Operands.lean -/

@[simp] theorem armMode_adminDone (h : AdminHdr) (sct sc dw0 dw1 : Nat) (s : State) : (adminDone h sct sc dw0 dw1 s).armMode = s.armMode :=
  (adminDone_only ..).armMode
@[simp] theorem armMode_dataOut (p : Port) (cid : BitVec 16) (pieces : List (Nat × Nat)) (bytes : List Nat) (s : State) :
    (dataOut p cid pieces bytes s).armMode = s.armMode := (dataOut_only ..).armMode
@[simp] theorem armMode_adminOk (h : AdminHdr) (s : State) : (adminOk h s).armMode = s.armMode := (adminOk_only ..).armMode
@[simp] theorem armMode_adminFail (h : AdminHdr) (sct sc : Nat) (s : State) : (adminFail h sct sc s).armMode = s.armMode :=
  (adminFail_only ..).armMode
theorem armAllowed_adminCmd {body : State → State} (hb : KeepsArmAllowed body) (hd : AdminHdr) (modes : Mode → Bool) (len : Nat)
    {s : State} (h : armAllowed s.armMode = true) : armAllowed (adminCmd hd modes len body s).armMode = true := by
  have htaken : armAllowed (wake (sqeArrived hd.port 0 s)).armMode = true := by simp [h]
  simp only [adminCmd]
  (repeat' split) <;> simp [h, hb _ h, htaken, hb _ htaken]

/-! Machine/Admin.lean -/

@[simp] theorem armMode_withData {body : State → State} (hb : ∀ t, (body t).armMode = t.armMode) (hd : AdminHdr) (len : Nat)
    (s : State) : (withData hd len body s).armMode = s.armMode := by unfold withData; split <;> simp [hb]
theorem armAllowed_withData {body : State → State} (hb : KeepsArmAllowed body) (hd : AdminHdr) (len : Nat) {s : State}
    (hs : armAllowed s.armMode = true) : armAllowed (withData hd len body s).armMode = true := by
  unfold withData; split <;> simp [hs, hb _ hs]
@[simp] theorem armMode_deleteIoSqBody (h : AdminHdr) (qid : Nat) (s : State) : (deleteIoSqBody h qid s).armMode = s.armMode :=
  (deleteIoSqBody_only ..).armMode
@[simp] theorem armMode_createIoSqBody (h : AdminHdr) (qid size cqid qprio base : Nat) (contiguous : Bool) (s : State) :
    (createIoSqBody h qid size cqid qprio base contiguous s).armMode = s.armMode := (createIoSqBody_only ..).armMode
@[simp] theorem armMode_deleteIoCqBody (h : AdminHdr) (qid : Nat) (s : State) : (deleteIoCqBody h qid s).armMode = s.armMode :=
  (deleteIoCqBody_only ..).armMode
@[simp] theorem armMode_createIoCqBody (h : AdminHdr) (qid size vector : Nat) (ien : Bool) (base : Nat) (contiguous : Bool) (s : State) :
    (createIoCqBody h qid size vector ien base contiguous s).armMode = s.armMode := (createIoCqBody_only ..).armMode
@[simp] theorem armMode_getLogPageBody (h : AdminHdr) (lid offset numDwords : Nat) (rae : Bool) (s : State) :
    (getLogPageBody h lid offset numDwords rae s).armMode = s.armMode := (getLogPageBody_only ..).armMode
@[simp] theorem armMode_identifyBody (h : AdminHdr) (cns cntid : Nat) (s : State) : (identifyBody h cns cntid s).armMode = s.armMode :=
  (identifyBody_only ..).armMode
@[simp] theorem armMode_abortBody (h : AdminHdr) (s : State) : (abortBody h s).armMode = s.armMode := (abortBody_only ..).armMode
@[simp] theorem armMode_asynchronousEventRequestBody (h : AdminHdr) (s : State) : (asynchronousEventRequestBody h s).armMode = s.armMode :=
  (asynchronousEventRequestBody_only ..).armMode
@[simp] theorem armMode_deviceSelfTestBody (h : AdminHdr) (code : Nat) (s : State) : (deviceSelfTestBody h code s).armMode = s.armMode :=
  (deviceSelfTestBody_only ..).armMode
@[simp] theorem armMode_directiveSendBody (h : AdminHdr) (dtype doper dspec : Nat) (enable : Bool) (tdtype : Nat) (s : State) :
    (directiveSendBody h dtype doper dspec enable tdtype s).armMode = s.armMode := (directiveSendBody_only ..).armMode
@[simp] theorem armMode_directiveReceiveBody (h : AdminHdr) (dtype doper _dspec : Nat) (nsr : Nat) (s : State) :
    (directiveReceiveBody h dtype doper _dspec nsr s).armMode = s.armMode := (directiveReceiveBody_only ..).armMode
@[simp] theorem armMode_doorbellBufferConfigBody (h : AdminHdr) (prp1 prp2 : Nat) (s : State) :
    (doorbellBufferConfigBody h prp1 prp2 s).armMode = s.armMode := (doorbellBufferConfigBody_only ..).armMode

/-! Machine/Features.lean -/

theorem armAllowed_setFeature {body : State → State} (hb : KeepsArmAllowed body) (hd : AdminHdr) (sv : Bool) {s : State}
    (h : armAllowed s.armMode = true) : armAllowed (setFeature hd sv body s).armMode = true :=
  armAllowed_adminCmd (fun t ht => by by_cases hsv : sv = true <;> simp [hsv, ht, hb t ht]) _ _ _ h
@[simp] theorem armMode_setPowerBody (h : AdminHdr) (ps wh : Nat) (s : State) : (setPowerBody h ps wh s).armMode = s.armMode := by
  unfold setPowerBody; split <;> simp
@[simp] theorem armAllowed_powerStateEntryEff (done : Bool) {s : State} (hs : armAllowed s.armMode = true) :
    armAllowed (powerStateEntryEff done s).armMode = true := by
  unfold powerStateEntryEff; split <;> simp [hs]
@[simp] theorem armMode_setTempBody (h : AdminHdr) (tmpsel thsel kelvin : Nat) (s : State) :
    (setTempBody h tmpsel thsel kelvin s).armMode = s.armMode := (setTempBody_only ..).armMode
@[simp] theorem armMode_setNumQueuesBody (h : AdminHdr) (nsqr ncqr : Nat) (s : State) :
    (setNumQueuesBody h nsqr ncqr s).armMode = s.armMode := (setNumQueuesBody_only ..).armMode
@[simp] theorem armMode_setVectorBody (h : AdminHdr) (vector : Nat) (disable : Bool) (s : State) :
    (setVectorBody h vector disable s).armMode = s.armMode := (setVectorBody_only ..).armMode
@[simp] theorem armMode_setClassesBody (h : AdminHdr) (mask : BitVec 8) (reservedMask : Bool) (entries : List (List Nat)) (s : State) :
    (setClassesBody h mask reservedMask entries s).armMode = s.armMode := by
  simp [setClassesBody]
@[simp] theorem armMode_setBindingBody (h : AdminHdr) (sqid cls : Nat) (s : State) : (setBindingBody h sqid cls s).armMode = s.armMode :=
  (setBindingBody_only ..).armMode
@[simp] theorem armMode_getFeaturesBody (h : AdminHdr) (fid sel : Nat) (dw11 : Word) (s : State) :
    (getFeaturesBody h fid sel dw11 s).armMode = s.armMode := (getFeaturesBody_only ..).armMode

/-! Machine/NsOps.lean -/

@[simp] theorem armMode_rngDraw (s : State) : (rngDraw s).armMode = s.armMode := (rngDraw_only ..).armMode
@[simp] theorem armMode_drawKey (nsid : Nat) (s : State) : (drawKey nsid s).armMode = s.armMode := by simp [drawKey]
@[simp] theorem armMode_createNs (n : Ns) (s : State) : (createNs n s).armMode = s.armMode := by simp [createNs]
@[simp] theorem armMode_formatNs (nsid lbaf : Nat) (ext : Bool) (dps : Nat) (erase : Bool) (s : State) :
    (formatNs nsid lbaf ext dps erase s).armMode = s.armMode := (formatNs_only ..).armMode
@[simp] theorem armMode_sealNsNow (nsid : Nat) (perm : Bool) (s : State) : (sealNsNow nsid perm s).armMode = s.armMode :=
  (sealNsNow_only ..).armMode
@[simp] theorem armMode_attachNs (nsid : Nat) (on : Bool) (ctrls : List Nat) (s : State) : (attachNs nsid on ctrls s).armMode = s.armMode :=
  (attachNs_only ..).armMode
@[simp] theorem armMode_waitDone (w : NsWait) (sct sc dw0 dw1 : Nat) (s : State) : (waitDone w sct sc dw0 dw1 s).armMode = s.armMode :=
  (waitDone_only ..).armMode
@[simp] theorem armAllowed_sealDeviceNow (perm : Bool) (s : State) : armAllowed (sealDeviceNow perm s).armMode = true := by
  simp [sealDeviceNow]
@[simp] theorem armAllowed_runWait (w : NsWait) {s : State} (hs : armAllowed s.armMode = true) :
    armAllowed (runWait w s).armMode = true := by
  unfold runWait; (repeat' split) <;> simp [hs]
@[simp] theorem armMode_beginCrypto (w : NsWait) (s : State) : (beginCrypto w s).armMode = s.armMode := (beginCrypto_only ..).armMode
@[simp] theorem armAllowed_settleNs {s : State} (hs : armAllowed s.armMode = true) : armAllowed (settleNs s).armMode = true :=
  armAllowed_foldl (fun t w ht => by simp [ht]) _ hs
@[simp] theorem armAllowed_acceptNs (h : AdminHdr) (nsid : Nat) (op : NsWaitOp) {s : State} (hs : armAllowed s.armMode = true) :
    armAllowed (acceptNs h nsid op s).armMode = true := by
  simp [acceptNs, hs]
@[simp] theorem armMode_settleSanitize (s : State) : (settleSanitize s).armMode = s.armMode := by simp [settleSanitize]

end Sys2Proof.Machine
end

section
/-! SUPPORT. What the effects of the commands do to FI's arming and to the mode. Rule R394. -/
namespace Sys2Proof.Machine
-- Many short theorems elaborated at once would need a thread each.
set_option Elab.async false

/-! Machine/Firmware.lean -/

@[simp] theorem armMode_firmwareImageDownloadBody (h : AdminHdr) (offset length : Nat) (s : State) :
    (firmwareImageDownloadBody h offset length s).armMode = s.armMode := (firmwareImageDownloadBody_only ..).armMode
@[simp] theorem armMode_firmwareCommitBody (h : AdminHdr) (slot : Nat) (write select : Bool) (img : SlotImage) (s : State) :
    (firmwareCommitBody h slot write select img s).armMode = s.armMode := (firmwareCommitBody_only ..).armMode
@[simp] theorem armMode_fwDone (sct sc : Nat) (s : State) : (fwDone sct sc s).armMode = s.armMode := (fwDone_only ..).armMode
@[simp] theorem armAllowed_activationDone {s : State} (hs : armAllowed s.armMode = true) :
    armAllowed (activationDone s).armMode = true := by
  simp only [activationDone]; split <;> simp [hs]
@[simp] theorem armMode_activationFailed (s : State) : (activationFailed s).armMode = s.armMode := (activationFailed_only ..).armMode
@[simp] theorem armAllowed_startActivation (h : AdminHdr) (blk : Nat) {s : State} (hs : armAllowed s.armMode = true) :
    armAllowed (startActivation h blk s).armMode = true := by
  simp [startActivation, hs]
@[simp] theorem armAllowed_firmwareActivateBody (h : AdminHdr) (slot : Nat) (img : SlotImage) {s : State}
    (hs : armAllowed s.armMode = true) :
    armAllowed (firmwareActivateBody h slot img s).armMode = true := by
  unfold firmwareActivateBody
  (repeat' split) <;> try simp [hs]
  all_goals simp [hs, (Only.of_eq2 ‹_› (commitSlot_only ..)).armMode]

/-! Machine/Commit.lean -/

@[simp] theorem armMode_commitAll (csn : Nat) (cs : List Change) (s : State) : (commitAll csn cs s).armMode = s.armMode :=
  (commitAll_only ..).armMode

/-! Machine/FretOps.lean -/

@[simp] theorem armMode_bookReads (cmd cls deadline f : Nat) (rs : List PageRead) (s : State) :
    (bookReads cmd cls deadline f rs s).2.armMode = s.armMode := (bookReads_only ..).armMode
@[simp] theorem armMode_unbook (id : Nat) (s : State) : (unbook id s).armMode = s.armMode := (unbook_only ..).armMode
@[simp] theorem armMode_trimFrets (s : State) : (trimFrets s).armMode = s.armMode := (trimFrets_only ..).armMode

/-! Machine/IoOps.lean -/

@[simp] theorem armMode_updCmd (id : Nat) (f : IoCmd → IoCmd) (s : State) : (updCmd id f s).armMode = s.armMode := (updCmd_only ..).armMode
@[simp] theorem armMode_piCount (sc : Nat) (s : State) : (piCount sc s).armMode = s.armMode := (piCount_only ..).armMode
@[simp] theorem armMode_ioFail (h : IoHdr) (sct sc dw0 : Nat) (s : State) : (ioFail h sct sc dw0 s).armMode = s.armMode :=
  (ioFail_only ..).armMode
@[simp] theorem armMode_ioRefuse (h : IoHdr) (dw0 : Nat) (s : State) : (ioRefuse h dw0 s).armMode = s.armMode := (ioRefuse_only ..).armMode
@[simp] theorem armMode_deliverReports (p : Port) (on : Nat → Bool) (s : State) : (deliverReports p on s).armMode = s.armMode :=
  (deliverReports_only ..).armMode
@[simp] theorem armMode_addReaders (id : Nat) (vs : List (Nat × View)) (s : State) : (addReaders id vs s).armMode = s.armMode :=
  (addReaders_only ..).armMode
@[simp] theorem armMode_dropReaders (id : Nat) (s : State) : (dropReaders id s).armMode = s.armMode := (dropReaders_only ..).armMode
@[simp] theorem armMode_issueReads (p : Port) (s : State) : (issueReads p s).armMode = s.armMode := (issueReads_only ..).armMode
@[simp] theorem armMode_startData (id : Nat) (s : State) : (startData id s).armMode = s.armMode := (startData_only ..).armMode
@[simp] theorem armMode_switchNow (s : State) : (switchNow s).armMode = s.armMode := by simp [switchNow]
@[simp] theorem armAllowed_afterCompletion (p : Port) {s : State} (hs : armAllowed s.armMode = true) :
    armAllowed (afterCompletion p s).armMode = true := by
  simp [afterCompletion, hs]
@[simp] theorem armMode_beyondExt (c : IoCmd) (s : State) : (beyondExt c s).2.armMode = s.armMode := (beyondExt_only ..).armMode
@[simp] theorem armAllowed_finishCmd (id sct sc dw0 : Nat) {s : State} (hs : armAllowed s.armMode = true) :
    armAllowed (finishCmd id sct sc dw0 s).armMode = true := by
  unfold finishCmd; split <;> simp [hs]
@[simp] theorem armMode_holdStaged (f : Staged → Bool) (s : State) : (holdStaged f s).armMode = s.armMode := (holdStaged_only ..).armMode
@[simp] theorem armMode_bookFua (id csn : Nat) (s : State) : (bookFua id csn s).armMode = s.armMode := by simp [bookFua]
@[simp] theorem armMode_commitCmd (id : Nat) (s : State) : (commitCmd id s).armMode = s.armMode := by
  unfold commitCmd; (repeat' split) <;> simp
@[simp] theorem armMode_retryCommits (s : State) : (retryCommits s).armMode = s.armMode := by simp [retryCommits]

/-! Machine/Admit.lean -/

@[simp] theorem armMode_openFixity (c : IoCmd) (bytes : Nat) (s : State) : (openFixity c bytes s).armMode = s.armMode :=
  (openFixity_only ..).armMode
@[simp] theorem armMode_planIo (n : Ns) (c : IoCmd) (bytes : Nat) (pages : Bool) (s : State) :
    (planIo n c bytes pages s).2.armMode = s.armMode := (planIo_only ..).armMode
@[simp] theorem armMode_consumedHere (s : State) : (consumedHere s).armMode = s.armMode := (consumedHere_only ..).armMode
@[simp] theorem armMode_readsOut (n : Ns) (c : IoCmd) (ls : List (Nat × Nat × HostLba)) (s : State) :
    (readsOut n c ls s).2.armMode = s.armMode := (readsOut_only ..).armMode
@[simp] theorem armMode_dropClaims (id : Nat) (s : State) : (dropClaims id s).armMode = s.armMode := (dropClaims_only ..).armMode
@[simp] theorem armAllowed_readsDone (id : Nat) {s : State} (hs : armAllowed s.armMode = true) :
    armAllowed (readsDone id s).armMode = true := by
  simp only [readsDone]; (repeat' split) <;> simp [hs]
@[simp] theorem armAllowed_startCmd (id : Nat) {s : State} (hs : armAllowed s.armMode = true) :
    armAllowed (startCmd id s).armMode = true := by
  unfold startCmd; (repeat' split) <;> simp [hs]
@[simp] theorem armMode_touchPages (n : Ns) (c : IoCmd) (s : State) : (touchPages n c s).armMode = s.armMode := (touchPages_only ..).armMode
@[simp] theorem armAllowed_admitted (n : Ns) (c : IoCmd) (pages : Bool) (ext : List (Nat × Nat)) {s : State}
    (hs : armAllowed s.armMode = true) :
    armAllowed (admitted n c pages ext s).armMode = true := by
  simp [admitted, hs]
@[simp] theorem armAllowed_admitBound (h : IoHdr) (n : Ns) (c : IoCmd) (bytes : Nat) (pages : Bool) {s : State}
    (hs : armAllowed s.armMode = true) :
    armAllowed (admitBound h n c bytes pages s).armMode = true := by
  simp only [admitBound]
  (repeat' split) <;> try simp [hs]
  all_goals simp [hs, (Only.of_eq2 ‹_› (grantBufs_only ..)).armMode]
@[simp] theorem armMode_waitLc7 (c : IoCmd) (s : State) : (waitLc7 c s).armMode = s.armMode := (waitLc7_only ..).armMode
theorem armMode_tryLc7 {n : Ns} {c : IoCmd} {b : Nat} {pages : Bool} {s : State} {x : IoCmd × State}
    (h : tryLc7 n c b pages s = some x) : x.2.armMode = s.armMode := by
  simp only [tryLc7] at h
  (repeat' split at h) <;> cases h
  simp [(Only.of_eq2 ‹_› (grantBufs_only ..)).armMode]
@[simp] theorem armAllowed_admitLc7 (n : Ns) (c : IoCmd) (bytes : Nat) (pages : Bool) {s : State} (hs : armAllowed s.armMode = true) :
    armAllowed (admitLc7 n c bytes pages s).armMode = true := by
  unfold admitLc7
  split
  · next c' t ht => exact armAllowed_admitted _ _ _ _ (by rw [show t.armMode = s.armMode from armMode_tryLc7 ht]; exact hs)
  · simp [hs]
@[simp] theorem armAllowed_admission (h : IoHdr) (n : Ns) (c : IoCmd) (bytes : Nat) {s : State} (hs : armAllowed s.armMode = true) :
    armAllowed (admission h n c bytes s).armMode = true := by
  simp [admission, hs]
@[simp] theorem armAllowed_ioRun (h : IoHdr) (mk : State → IoPlan) {s : State} (hs : armAllowed s.armMode = true) :
    armAllowed (ioRun h mk s).armMode = true := by
  simp only [ioRun]; (repeat' split) <;> simp [hs]

/-! Machine/Io.lean -/

@[simp] theorem armAllowed_flushAll (h : IoHdr) {s : State} (hs : armAllowed s.armMode = true) :
    armAllowed (flushAll h s).armMode = true := by
  simp [flushAll, hs]
@[simp] theorem armMode_dsmHint (h : IoHdr) (ranges : List (Nat × Nat)) (s : State) : (dsmHint h ranges s).armMode = s.armMode :=
  (dsmHint_only ..).armMode
@[simp] theorem armMode_dropTag (p : Port) (tag : Nat) (s : State) : (dropTag p tag s).armMode = s.armMode := (dropTag_only ..).armMode
@[simp] theorem armMode_reissue (p : Port) (t : Tag) (s : State) : (reissue p t s).armMode = s.armMode := (reissue_only ..).armMode
@[simp] theorem armAllowed_readFailed (p : Port) (t : Tag) {s : State} (hs : armAllowed s.armMode = true) :
    armAllowed (readFailed p t s).armMode = true := by
  unfold readFailed; split <;> simp [hs]
@[simp] theorem armAllowed_readRetry (p : Port) (t : Tag) {s : State} (hs : armAllowed s.armMode = true) :
    armAllowed (readRetry p t s).armMode = true := by
  simp [readRetry, hs]
@[simp] theorem armMode_readArrived (p : Port) (t : Tag) (lbas : List HostLba) (slowNs : Nat) (s : State) :
    (readArrived p t lbas slowNs s).armMode = s.armMode := (readArrived_only ..).armMode
@[simp] theorem armAllowed_hostReadCompletionEff (port : Port) (tag : Nat) (poisoned : Bool) (lbas : List HostLba) (slowNs : Nat)
    {s : State} (hs : armAllowed s.armMode = true) :
    armAllowed (hostReadCompletionEff port tag poisoned lbas slowNs s).armMode = true := by
  unfold hostReadCompletionEff; split <;> simp [hs]
@[simp] theorem armAllowed_hostReadTimeoutEff (port : Port) (tag : Nat) {s : State} (hs : armAllowed s.armMode = true) :
    armAllowed (hostReadTimeoutEff port tag s).armMode = true := by
  unfold hostReadTimeoutEff; split <;> simp [hs]
@[simp] theorem armAllowed_refuseLate (c : IoCmd) {s : State} (hs : armAllowed s.armMode = true) :
    armAllowed (refuseLate c s).armMode = true := by
  simp [refuseLate, hs]
@[simp] theorem armAllowed_mapPageLoadedEff (cmd : Nat) {s : State} (hs : armAllowed s.armMode = true) :
    armAllowed (mapPageLoadedEff cmd s).armMode = true := by
  unfold mapPageLoadedEff; (repeat' split) <;> simp [hs]
@[simp] theorem armAllowed_lc7AdmissionRetryEff (cmd : Nat) {s : State} (hs : armAllowed s.armMode = true) :
    armAllowed (lc7AdmissionRetryEff cmd s).armMode = true := by
  simp only [lc7AdmissionRetryEff]
  (repeat' split) <;> try simp [hs]
  all_goals simp [hs, armMode_tryLc7 ‹_›]
@[simp] theorem armAllowed_dcForwardDoneEff (cmd : Nat) {s : State} (hs : armAllowed s.armMode = true) :
    armAllowed (dcForwardDoneEff cmd s).armMode = true := by
  unfold dcForwardDoneEff; (repeat' split) <;> simp [hs]
@[simp] theorem armAllowed_completionPostEff (cmd : Nat) {s : State} (hs : armAllowed s.armMode = true) :
    armAllowed (completionPostEff cmd s).armMode = true := by
  unfold completionPostEff; split <;> simp [hs]
@[simp] theorem armMode_claimSoft (cmd lba d : Nat) (s : State) : (claimSoft cmd lba d s).armMode = s.armMode := (claimSoft_only ..).armMode
@[simp] theorem armMode_claimAll (cmd lba : Nat) (e : MapEntry) (s : State) : (claimAll cmd lba e s).armMode = s.armMode :=
  (claimAll_only ..).armMode
@[simp] theorem armAllowed_lbaArrived (cmd lba : Nat) {s : State} (hs : armAllowed s.armMode = true) :
    armAllowed (lbaArrived cmd lba s).armMode = true := by
  simp only [lbaArrived]; split <;> simp [hs]
@[simp] theorem armMode_viewLost (cmd grain : Nat) (n : Ns) (s : State) : (viewLost cmd grain n s).armMode = s.armMode :=
  (viewLost_only ..).armMode
@[simp] theorem armMode_decodeOk (e : MapEntry) (corrected : Nat) (s : State) : (decodeOk e corrected s).armMode = s.armMode :=
  (decodeOk_only ..).armMode
@[simp] theorem armMode_fiRead (d glen : Nat) (result : DecodeResult) (s : State) : (fiRead d glen result s).2.armMode = s.armMode := by
  simp only [fiRead]; (repeat' split) <;> simp
@[simp] theorem armAllowed_roundDone (cmd lba : Nat) (n : Ns) (e : MapEntry) (c : IoCmd) (result : DecodeResult) {s : State}
    (hs : armAllowed s.armMode = true) :
    armAllowed (roundDone cmd lba n e c result s).armMode = true := by
  have hall (t : State) (ht : armAllowed t.armMode = true) :
      armAllowed ((grainLbas n c lba).foldl (fun t x => lbaArrived cmd x t) t).armMode = true :=
    armAllowed_foldl (fun u x hu => armAllowed_lbaArrived cmd x hu) _ ht
  simp only [roundDone]; (repeat' split) <;> simp [hs, hall]
@[simp] theorem armAllowed_readRoundDoneEff (cmd lba : Nat) (result : DecodeResult) {s : State} (hs : armAllowed s.armMode = true) :
    armAllowed (readRoundDoneEff cmd lba result s).armMode = true := by
  unfold readRoundDoneEff; (repeat' split) <;> simp [hs]

/-! Machine/Journal.lean -/

@[simp] theorem armMode_journalSegmentDurableEff (copyFailed : Bool) (s : State) :
    (journalSegmentDurableEff copyFailed s).armMode = s.armMode := by
  unfold journalSegmentDurableEff; split <;> simp
@[simp] theorem armMode_mapLineRestoredEff (nsid grain : Nat) (readable : Bool) (s : State) :
    (mapLineRestoredEff nsid grain readable s).armMode = s.armMode := by
  unfold mapLineRestoredEff
  (repeat' split) <;> try simp
  exact armMode_foldl (fun t e => by (repeat' split) <;> simp) _ _

/-! Machine/Program.lean -/

@[simp] theorem armMode_segStart (d : Nat) (s : State) : (segStart d s).armMode = s.armMode := (segStart_only ..).armMode
@[simp] theorem armMode_segEnd (d : Nat) (s : State) : (segEnd d s).armMode = s.armMode := (segEnd_only ..).armMode
@[simp] theorem armMode_withdrawRow (num w : Nat) (r : Row) (s : State) : (withdrawRow num w r s).armMode = s.armMode :=
  (armMode_foldl (fun t e => by split <;> simp) _ _).trans (armMode_updRow ..)
@[simp] theorem armMode_startMember (b : OpenBarrel) (g : Group) (m : Nat) (r : Row) (fresh : Bool) (s : State) :
    (startMember b g m r fresh s).armMode = s.armMode := by
  simp only [startMember]; split <;> simp
@[simp] theorem armMode_wordlineProgramStartEff (num m : Nat) (s : State) : (wordlineProgramStartEff num m s).armMode = s.armMode := by
  unfold wordlineProgramStartEff; (repeat' split) <;> simp
@[simp] theorem armMode_departs (s : State) : (departs s).armMode = s.armMode := (departs_only ..).armMode
@[simp] theorem armMode_vatPageDone (v : VatPage) (s : State) : (vatPageDone v s).armMode = s.armMode := (vatPageDone_only ..).armMode
@[simp] theorem armAllowed_vatCopyDone (g : Group) (m d b : Nat) (v : VatPage) (pass : Bool) {s : State}
    (hs : armAllowed s.armMode = true) :
    armAllowed (vatCopyDone g m d b v pass s).armMode = true := by
  simp [vatCopyDone, hs]
@[simp] theorem armAllowed_programVerifyDoneEff (die block page : Nat) (pass : Bool) {s : State} (hs : armAllowed s.armMode = true) :
    armAllowed (programVerifyDoneEff die block page pass s).armMode = true := by
  unfold programVerifyDoneEff; (repeat' split) <;> simp [hs]
@[simp] theorem armMode_gatherTimeoutEff (vintage : Fin 6) (s : State) : (gatherTimeoutEff vintage s).armMode = s.armMode := by
  simp [gatherTimeoutEff]
@[simp] theorem armMode_dieReadsFail (cmd die : Nat) (s : State) : (dieReadsFail cmd die s).armMode = s.armMode :=
  (dieReadsFail_only ..).armMode
@[simp] theorem armAllowed_readReadyTimeoutEff (die : Nat) (afterRetrain : Bool) (cmd : Option Nat) {s : State}
    (hs : armAllowed s.armMode = true) :
    armAllowed (readReadyTimeoutEff die afterRetrain cmd s).armMode = true := by
  unfold readReadyTimeoutEff; split <;> simp [hs]
@[simp] theorem armAllowed_spDieoutWriteEff (who : Writer) (die : Nat) (key : BitVec 16) {s : State} (hs : armAllowed s.armMode = true) :
    armAllowed (spDieoutWriteEff who die key s).armMode = true := by
  simp [spDieoutWriteEff, hs]
@[simp] theorem armMode_slewStep (s : State) : (slewStep s).armMode = s.armMode := (slewStep_only ..).armMode
@[simp] theorem armMode_resumeDies (s : State) : (resumeDies s).armMode = s.armMode := (resumeDies_only ..).armMode
@[simp] theorem armMode_ctxTick (s : State) : (ctxTick s).armMode = s.armMode := (ctxTick_only ..).armMode
@[simp] theorem armMode_fiTlps (s : State) : (fiTlps s).armMode = s.armMode := (fiTlps_only ..).armMode
@[simp] theorem armAllowed_fretTickEff {s : State} (hs : armAllowed s.armMode = true) : armAllowed (fretTickEff s).armMode = true := by
  simp [fretTickEff, hs]

/-! Machine/Racking.lean -/

@[simp] theorem armMode_rackWatch (s : State) : (rackWatch s).armMode = s.armMode := (rackWatch_only ..).armMode
@[simp] theorem armMode_rackingStartEff (unreadable : List (Nat × Nat)) (s : State) :
    (rackingStartEff unreadable s).armMode = s.armMode := by
  simp only [rackingStartEff]; (repeat' split) <;> simp
@[simp] theorem armAllowed_eraseDoneEff (die block : Nat) (pass : Bool) {s : State} (hs : armAllowed s.armMode = true) :
    armAllowed (eraseDoneEff die block pass s).armMode = true := by
  simp [eraseDoneEff, hs]
@[simp] theorem armMode_bottleSlot (die slot : Nat) (unreadable : List (Nat × Nat)) (s : State) :
    (bottleSlot die slot unreadable s).armMode = s.armMode := by
  unfold bottleSlot; split <;> simp
@[simp] theorem armMode_bottlingStartEff (die slot : Nat) (unreadable : List (Nat × Nat)) (s : State) :
    (bottlingStartEff die slot unreadable s).armMode = s.armMode := by
  simp [bottlingStartEff]
@[simp] theorem armMode_ageRefreshEff (barrel : Nat) (unreadable : List (Nat × Nat)) (s : State) :
    (ageRefreshEff barrel unreadable s).armMode = s.armMode := by
  simp [ageRefreshEff]
@[simp] theorem armMode_blockRefreshEff (die block : Nat) (unreadable : List (Nat × Nat)) (s : State) :
    (blockRefreshEff die block unreadable s).armMode = s.armMode := by
  unfold blockRefreshEff; (repeat' split) <;> simp

/-! Machine/Parity.lean -/

@[simp] theorem armMode_snapshotWriteEff (s : State) : (snapshotWriteEff s).armMode = s.armMode := by simp [snapshotWriteEff]
@[simp] theorem armMode_updSubst (d : Nat) (f : Subst → Subst) (s : State) : (updSubst d f s).armMode = s.armMode :=
  (updSubst_only ..).armMode
@[simp] theorem armMode_advanceRow (g : Group) (d r : Nat) (s : State) : (advanceRow g d r s).armMode = s.armMode :=
  (advanceRow_only ..).armMode
@[simp] theorem armMode_bottleMember (g : Group) (d : Nat) (s : State) : (bottleMember g d s).armMode = s.armMode := by
  unfold bottleMember; split <;> simp
@[simp] theorem armMode_formSlots (g : Group) (d dst : Nat) (s : State) : (formSlots g d dst s).armMode = s.armMode :=
  (formSlots_only ..).armMode
@[simp] theorem armMode_rebuildStartEff (die : Nat) (s : State) : (rebuildStartEff die s).armMode = s.armMode := by
  unfold rebuildStartEff; (repeat' split) <;> simp
@[simp] theorem armMode_rebuildWordlineDoneEff (die : Nat) (row wordline : Nat) (last : Bool) (lostGrains : List (Nat × Nat)) (s : State) :
    (rebuildWordlineDoneEff die row wordline last lostGrains s).armMode = s.armMode := by
  unfold rebuildWordlineDoneEff; (repeat' split) <;> simp
@[simp] theorem armAllowed_dissolved (g : Group) {s : State} (hs : armAllowed s.armMode = true) :
    armAllowed (dissolved g s).armMode = true := by
  simp [dissolved, hs]
@[simp] theorem armAllowed_groupDissolutionEff (group : Nat) {s : State} (hs : armAllowed s.armMode = true) :
    armAllowed (groupDissolutionEff group s).armMode = true := by
  unfold groupDissolutionEff; split <;> simp [hs]
@[simp] theorem armMode_spSubselWriteEff (who : Writer) (index : Nat) (s : State) : (spSubselWriteEff who index s).armMode = s.armMode :=
  (spSubselWriteEff_only ..).armMode

/-! Machine/Channels.lean -/

@[simp] theorem armMode_chanReadsFail (c : Nat) (s : State) : (chanReadsFail c s).armMode = s.armMode := (chanReadsFail_only ..).armMode
@[simp] theorem armMode_resumeRecs (k phy : Nat) (s : State) : (resumeRecs k phy s).armMode = s.armMode := (resumeRecs_only ..).armMode
@[simp] theorem armAllowed_takeOver (k phy q spare took : Nat) {s : State} (hs : armAllowed s.armMode = true) :
    armAllowed (takeOver k phy q spare took s).armMode = true := by
  simp [takeOver, hs]
@[simp] theorem armAllowed_noTakeOver (k phy : Nat) {s : State} (hs : armAllowed s.armMode = true) :
    armAllowed (noTakeOver k phy s).armMode = true := by
  simp [noTakeOver, hs]
@[simp] theorem armAllowed_stallActivation (k : Nat) {s : State} (hs : armAllowed s.armMode = true) :
    armAllowed (stallActivation k s).armMode = true := by
  simp [stallActivation, hs]
@[simp] theorem armAllowed_seqFaulted (k q : Nat) (flag : Field) (took : Nat) {s : State} (h : armAllowed s.armMode = true) :
    armAllowed (seqFaulted k q flag took s).armMode = true := by simp only [seqFaulted]; (repeat' split) <;> simp [h]
@[simp] theorem armAllowed_retrainStepEff (channel : Fin 64) (failedTwice : Bool) (idChanged : List Nat) {s : State}
    (hs : armAllowed s.armMode = true) :
    armAllowed (retrainStepEff channel failedTwice idChanged s).armMode = true := by
  unfold retrainStepEff
  (repeat' split) <;> simp [hs, armAllowed_foldl (fun u d hu => armAllowed_declareDieFailed d hu)]
@[simp] theorem armMode_loadBank (k : Nat) (b : Bool) (p : PatchSet) (s : State) : (loadBank k b p s).armMode = s.armMode :=
  (loadBank_only ..).armMode
@[simp] theorem armMode_startupSetFailed (s : State) : (startupSetFailed s).armMode = s.armMode := by simp [startupSetFailed]
@[simp] theorem armAllowed_patchSetLoadEff (cluster : Fin 8) (p : PatchSet) (atStartup : Bool) {s : State}
    (hs : armAllowed s.armMode = true) :
    armAllowed (patchSetLoadEff cluster p atStartup s).armMode = true := by
  unfold patchSetLoadEff; (repeat' split) <;> simp [hs]
@[simp] theorem armMode_handOff (k n : Nat) (s : State) : (handOff k n s).armMode = s.armMode := (handOff_only ..).armMode
@[simp] theorem armAllowed_patchHandoffEff (cluster phy : Fin 8) {s : State} (hs : armAllowed s.armMode = true) :
    armAllowed (patchHandoffEff cluster phy s).armMode = true := by
  simp [patchHandoffEff, hs]

/-! Machine/Buffers.lean -/

@[simp] theorem armMode_withdrawBuf (i : Nat) (s : State) : (withdrawBuf i s).armMode = s.armMode := (withdrawBuf_only ..).armMode
@[simp] theorem armMode_withdrawBufs (is : List Nat) (s : State) : (withdrawBufs is s).armMode = s.armMode := (withdrawBufs_only ..).armMode
@[simp] theorem armAllowed_remapPage (page : Nat) {s : State} (hs : armAllowed s.armMode = true) :
    armAllowed (remapPage page s).armMode = true := by
  simp only [remapPage]; (repeat' split) <;> simp [hs]
@[simp] theorem armAllowed_repairRow (row : Nat) (hardware : Bool) (bufs : List Nat) {s : State} (hs : armAllowed s.armMode = true) :
    armAllowed (repairRow row hardware bufs s).armMode = true := by
  simp [repairRow, hs]
@[simp] theorem armAllowed_countUnit (addr : Nat) {s : State} (hs : armAllowed s.armMode = true) :
    armAllowed (countUnit addr s).armMode = true := by
  simp [countUnit, hs]
@[simp] theorem armAllowed_restoreUncommitted (id : Nat) (ok : Bool) {s : State} (hs : armAllowed s.armMode = true) :
    armAllowed (restoreUncommitted id ok s).2.armMode = true := by
  unfold restoreUncommitted; (repeat' split) <;> simp [hs]
@[simp] theorem armMode_restoreCommitted (i : Nat) (inForm : Bool) (s : State) : (restoreCommitted i inForm s).2.armMode = s.armMode :=
  (restoreCommitted_only ..).armMode
@[simp] theorem armMode_restoreRead (id : Nat) (s : State) : (restoreRead id s).armMode = s.armMode := (restoreRead_only ..).armMode
@[simp] theorem armMode_holdLine (nsid grain : Nat) (s : State) : (holdLine nsid grain s).armMode = s.armMode := (holdLine_only ..).armMode
@[simp] theorem armMode_restoreBlock (d b : Nat) (s : State) : (restoreBlock d b s).armMode = s.armMode := (restoreBlock_only ..).armMode
@[simp] theorem armMode_quarantinePool (addr : Nat) (s : State) : (quarantinePool addr s).armMode = s.armMode :=
  (quarantinePool_only ..).armMode
@[simp] theorem armAllowed_restoreLine (addr : Nat) (k : LineKind) {s : State} (hs : armAllowed s.armMode = true) :
    armAllowed (restoreLine addr k s).2.armMode = true := by
  unfold restoreLine; (repeat' split) <;> simp [hs]
@[simp] theorem armMode_chkRecorded (addr : Nat) (s : State) : (chkRecorded addr s).armMode = s.armMode := (chkRecorded_only ..).armMode
@[simp] theorem armAllowed_lineCheckFailureEff (address : Nat) (kind : LineKind) {s : State} (hs : armAllowed s.armMode = true) :
    armAllowed (lineCheckFailureEff address kind s).armMode = true := by
  simp only [lineCheckFailureEff]; split <;> simp [hs]

/-! Machine/Namespaces.lean -/

@[simp] theorem armAllowed_nsCreateBody (h : AdminHdr) (d : NsDesc) {s : State} (hs : armAllowed s.armMode = true) :
    armAllowed (nsCreateBody h d s).armMode = true := by
  unfold nsCreateBody
  (repeat' split) <;> simp [hs, armAllowed_withData (fun t ht => armAllowed_acceptNs h 0 _ ht)]
@[simp] theorem armAllowed_nsDeleteBody (h : AdminHdr) {s : State} (hs : armAllowed s.armMode = true) :
    armAllowed (nsDeleteBody h s).armMode = true := by
  unfold nsDeleteBody; (repeat' split) <;> simp [hs]
@[simp] theorem armAllowed_nsAttachBody (h : AdminHdr) (attach : Bool) (ctrls : List Nat) {s : State} (hs : armAllowed s.armMode = true) :
    armAllowed (nsAttachBody h attach ctrls s).armMode = true := by
  have hdetach : KeepsArmAllowed (fun t =>
      acceptNs h h.nsid (.detach ctrls) (updNs h.nsid (fun n => { n with leaving := ctrls.foldl addOnce n.leaving }) t)) :=
    fun t ht => by simp [ht]
  unfold nsAttachBody
  (repeat' split) <;> simp [hs, armAllowed_withData hdetach]
@[simp] theorem armAllowed_formatBody (h : AdminHdr) (lbaf : Nat) (mset : Bool) (pi pil ses : Nat) {s : State}
    (hs : armAllowed s.armMode = true) :
    armAllowed (formatBody h lbaf mset pi pil ses s).armMode = true := by
  unfold formatBody; (repeat' split) <;> simp [hs]
@[simp] theorem armMode_sanitizeBody (h : AdminHdr) (noDealloc : Bool) (kind : Nat) (s : State) :
    (sanitizeBody h noDealloc kind s).armMode = s.armMode := by
  simp [sanitizeBody]
@[simp] theorem armAllowed_sealNsBody (h : AdminHdr) (perm : Bool) {s : State} (hs : armAllowed s.armMode = true) :
    armAllowed (sealNsBody h perm s).armMode = true := by
  unfold sealNsBody; split <;> simp [hs]
@[simp] theorem armMode_unsealNsBody (h : AdminHdr) (s : State) : (unsealNsBody h s).armMode = s.armMode := by
  unfold unsealNsBody; (repeat' split) <;> simp

/-! Machine/Links.lean -/

@[simp] theorem armMode_linkUp (k : Nat) (lanes : BitVec 4) (s : State) : (linkUp k lanes s).armMode = s.armMode := (linkUp_only ..).armMode
@[simp] theorem armMode_gareoLinkTrainedEff (k : Nat) (lanes : BitVec 4) (reversed : Bool) (uid node plink : Nat) (s : State) :
    (gareoLinkTrainedEff k lanes reversed uid node plink s).armMode = s.armMode := by
  simp [gareoLinkTrainedEff]
@[simp] theorem armMode_linkFails (k : Nat) (s : State) : (linkFails k s).armMode = s.armMode := by simp [linkFails]
@[simp] theorem armMode_linkRetrainDoneEff (k : Nat) (lanes : BitVec 4) (s : State) :
    (linkRetrainDoneEff k lanes s).armMode = s.armMode := by
  simp [linkRetrainDoneEff]
@[simp] theorem armMode_updRxStream (vc src : Nat) (f : RxStream → RxStream) (s : State) : (updRxStream vc src f s).armMode = s.armMode :=
  (updRxStream_only ..).armMode
@[simp] theorem armMode_sendAck (vc src : Nat) (s : State) : (sendAck vc src s).armMode = s.armMode := (sendAck_only ..).armMode
@[simp] theorem armMode_sendNak (vc src xseq cause : Nat) (s : State) : (sendNak vc src xseq cause s).armMode = s.armMode :=
  (sendNak_only ..).armMode
@[simp] theorem armMode_delivered (vc src : Nat) (s : State) : (delivered vc src s).armMode = s.armMode := (delivered_only ..).armMode
@[simp] theorem armMode_frameDiscarded (vc src xseq : Nat) (len : Bool) (s : State) :
    (frameDiscarded vc src xseq len s).armMode = s.armMode := (frameDiscarded_only ..).armMode
@[simp] theorem armMode_frameResendTimeoutEff (vc dst xseq : Nat) (s : State) :
    (frameResendTimeoutEff vc dst xseq s).armMode = s.armMode := by
  unfold frameResendTimeoutEff; split <;> simp
@[simp] theorem armMode_mirrorAcked (csn : Nat) (s : State) : (mirrorAcked csn s).armMode = s.armMode := by simp [mirrorAcked]
@[simp] theorem armMode_ackEff (vc src xseq : Nat) (s : State) : (ackEff vc src xseq s).armMode = s.armMode :=
  (armMode_foldl (fun t e => by split <;> simp) _ _).trans (by simp)
@[simp] theorem armMode_frameRejected (fr : TxFrame) (s : State) : (frameRejected fr s).armMode = s.armMode :=
  (frameRejected_only ..).armMode
@[simp] theorem armMode_nakEff (vc src xseq cause : Nat) (s : State) : (nakEff vc src xseq cause s).armMode = s.armMode := by
  unfold nakEff; split <;> simp
@[simp] theorem armMode_frameArrived (vc : Nat) (b : List Byte) (s : State) : (frameArrived vc b s).armMode = s.armMode := by
  simp only [frameArrived]; (repeat' split) <;> simp
@[simp] theorem armMode_takeFrames (vc f : Nat) (b : List Byte) (s : State) : (takeFrames vc f b s).2.armMode = s.armMode := by
  induction f generalizing b s with
  | zero => rfl
  | succ f ih =>
    unfold takeFrames
    (repeat' split) <;> simp [ih]
@[simp] theorem armMode_payload (vc nh : Nat) (p have_ : List Byte) (s : State) : (payload vc nh p have_ s).2.armMode = s.armMode := by
  simp only [payload]; (repeat' split) <;> simp
@[simp] theorem armMode_takeAck (k ackseq : Nat) (nak : Bool) (s : State) : (takeAck k ackseq nak s).armMode = s.armMode := by
  simp [takeAck]
@[simp] theorem armMode_takeCredit (k vc n : Nat) (s : State) : (takeCredit k vc n s).armMode = s.armMode := (takeCredit_only ..).armMode
@[simp] theorem armMode_flitNak (k : Nat) (s : State) : (flitNak k s).armMode = s.armMode := (flitNak_only ..).armMode
@[simp] theorem armMode_takeDataFlit (k : Nat) (b : List Byte) (s : State) : (takeDataFlit k b s).armMode = s.armMode := by
  simp [takeDataFlit]
@[simp] theorem armMode_flitReceivedEff (k : Nat) (b : List Byte) (s : State) : (flitReceivedEff k b s).armMode = s.armMode := by
  simp [flitReceivedEff]

/-! Machine/Fabric.lean -/

@[simp] theorem armMode_discoveryQuietTimeoutEff (s : State) : (discoveryQuietTimeoutEff s).armMode = s.armMode := by
  simp [discoveryQuietTimeoutEff]
@[simp] theorem armMode_heldOutBy (uid : Nat) (node : Option Nat) (s : State) : (heldOutBy uid node s).armMode = s.armMode :=
  (heldOutBy_only ..).armMode
@[simp] theorem armMode_lsrEff (uid : Nat) (node pref : Option Nat) (links : List LinkReport) (s : State) :
    (lsrEff uid node pref links s).armMode = s.armMode := by
  simp [lsrEff]
@[simp] theorem armMode_coordinatorHeartbeatEff (answered : Bool) (s : State) :
    (coordinatorHeartbeatEff answered s).armMode = s.armMode := by
  simp [coordinatorHeartbeatEff]
@[simp] theorem armMode_gfNodeReassignEff (who : Writer) (s : State) : (gfNodeReassignEff who s).armMode = s.armMode :=
  (gfNodeReassignEff_only ..).armMode
@[simp] theorem armMode_timeExchangeTimerEff (s : State) : (timeExchangeTimerEff s).armMode = s.armMode := by
  unfold timeExchangeTimerEff; (repeat' split) <;> simp
@[simp] theorem armMode_correctOffset (o : Int) (s : State) : (correctOffset o s).armMode = s.armMode := by simp [correctOffset]
@[simp] theorem armMode_timeEff (t1 t2 t3 t4 masterStep : Nat) (s : State) : (timeEff t1 t2 t3 t4 masterStep s).armMode = s.armMode := by
  simp [timeEff]
@[simp] theorem armMode_rdreqRun (h : FrameHdr) (offset len : Nat) (s : State) : (rdreqRun h offset len s).armMode = s.armMode := by
  simp [rdreqRun]
@[simp] theorem armMode_rdrespRun (h : FrameHdr) (data : List Byte) (s : State) : (rdrespRun h data s).armMode = s.armMode :=
  (rdrespRun_only ..).armMode
@[simp] theorem armMode_writeRun (h : FrameHdr) (offset : Nat) (data : List Byte) (s : State) :
    (writeRun h offset data s).armMode = s.armMode := (writeRun_only ..).armMode
@[simp] theorem armMode_createMirrored (d : NsDesc) (s : State) : (createMirrored d s).armMode = s.armMode := by simp [createMirrored]
@[simp] theorem armMode_mgmtRun (h : FrameHdr) (spdm : Bool) (descs : List NsDesc) (s : State) :
    (mgmtRun h spdm descs s).armMode = s.armMode := by
  simp [mgmtRun]
@[simp] theorem armMode_frameRun (c : Instr) (s : State) : (frameRun c s).armMode = s.armMode := by unfold frameRun; split <;> simp
@[simp] theorem armMode_deliverHeld (vc src n : Nat) (s : State) : (deliverHeld vc src n s).armMode = s.armMode := by
  induction n generalizing s with
  | zero => rfl
  | succ n ih =>
    simp only [deliverHeld]
    split
    · rfl
    · simp [ih]
@[simp] theorem armMode_holdEarly (h : FrameHdr) (c : Instr) (s : State) : (holdEarly h c s).armMode = s.armMode :=
  (holdEarly_only ..).armMode
@[simp] theorem armMode_receive (h : FrameHdr) (lenGood : Bool) (c : Instr) (s : State) : (receive h lenGood c s).armMode = s.armMode := by
  simp [receive]
@[simp] theorem armMode_resyncEff (vc src nextXseq : Nat) (s : State) : (resyncEff vc src nextXseq s).armMode = s.armMode := by
  simp [resyncEff]

/-! Machine/TwinOps.lean -/

@[simp] theorem armMode_recordPair (p : Option (Nat × Bool)) (s : State) : (recordPair p s).armMode = s.armMode :=
  (recordPair_only ..).armMode
@[simp] theorem armMode_waitCmdDone (sct sc dw0 : Nat) (s : State) : (waitCmdDone sct sc dw0 s).armMode = s.armMode :=
  (waitCmdDone_only ..).armMode
@[simp] theorem armMode_ownAll (on : Bool) (s : State) : (ownAll on s).armMode = s.armMode := (ownAll_only ..).armMode
@[simp] theorem armAllowed_rowTen (s : State) : armAllowed (rowTen s).armMode = true := by simp [rowTen]
@[simp] theorem armAllowed_rowEleven (s : State) : armAllowed (rowEleven s).armMode = true := by simp [rowEleven]
@[simp] theorem armAllowed_serveNow (s : State) : armAllowed (serveNow s).armMode = true := by simp [serveNow]
@[simp] theorem armMode_fence (on : Bool) (s : State) : (fence on s).armMode = s.armMode := (fence_only ..).armMode
@[simp] theorem armAllowed_takeover (cause : Nat) (s : State) : armAllowed (takeover cause s).armMode = true := by simp [takeover]
@[simp] theorem armAllowed_standbyAlone (cause : Nat) {s : State} (hs : armAllowed s.armMode = true) :
    armAllowed (standbyAlone cause s).armMode = true := by
  unfold standbyAlone; split <;> simp [hs]
@[simp] theorem armMode_sendSegment (dst nsid seg : Nat) (s : State) : (sendSegment dst nsid seg s).armMode = s.armMode := by
  unfold sendSegment; split <;> simp

/-! Machine/TwinCtl.lean -/

@[simp] theorem armMode_seqError (h : AdminHdr) (s : State) : (seqError h s).armMode = s.armMode := (seqError_only ..).armMode
@[simp] theorem armMode_twinError (h : AdminHdr) (s : State) : (twinError h s).armMode = s.armMode := (twinError_only ..).armMode
@[simp] theorem armMode_pairBody (h : AdminHdr) (peer idDigest : Nat) (ok : Bool) (s : State) :
    (pairBody h peer idDigest ok s).armMode = s.armMode := by
  simp [pairBody]
@[simp] theorem armMode_switchBody (h : AdminHdr) (s : State) : (switchBody h s).armMode = s.armMode := by simp [switchBody]
@[simp] theorem armMode_mirrorTables (s : State) : (mirrorTables s).armMode = s.armMode := by simp only [mirrorTables]; split <;> simp
@[simp] theorem armMode_rejoinBody (h : AdminHdr) (peer idDigest returnerCsn : Nat) (s : State) :
    (rejoinBody h peer idDigest returnerCsn s).armMode = s.armMode := by
  simp [rejoinBody]
@[simp] theorem armMode_unpaired (s : State) : (unpaired s).armMode = s.armMode := (unpaired_only ..).armMode
@[simp] theorem armMode_unpairBody (h : AdminHdr) (s : State) : (unpairBody h s).armMode = s.armMode := by simp [unpairBody]
@[simp] theorem armAllowed_releaseBody (h : AdminHdr) {s : State} (hs : armAllowed s.armMode = true) :
    armAllowed (releaseBody h s).armMode = true := by
  simp [releaseBody, hs]
@[simp] theorem armAllowed_armBody (h : AdminHdr) (peer idDigest : Nat) {s : State} (hs : armAllowed s.armMode = true) :
    armAllowed (armBody h peer idDigest s).armMode = true := by
  simp [armBody, hs]
@[simp] theorem armMode_startBody (h : AdminHdr) (auto : Bool) (peer idDigest : Nat) (nsids : List Nat) (s : State) :
    (startBody h auto peer idDigest nsids s).armMode = s.armMode := by
  simp [startBody]
@[simp] theorem armMode_sealSession (s : State) : (sealSession s).armMode = s.armMode := (sealSession_only ..).armMode
@[simp] theorem armMode_sealBody (h : AdminHdr) (s : State) : (sealBody h s).armMode = s.armMode := (sealBody_only ..).armMode
@[simp] theorem armAllowed_migAbortBody (h : AdminHdr) {s : State} (hs : armAllowed s.armMode = true) :
    armAllowed (migAbortBody h s).armMode = true := by
  simp [migAbortBody, hs]
@[simp] theorem armMode_resolveBody (h : AdminHdr) (cutOver : Bool) (s : State) : (resolveBody h cutOver s).armMode = s.armMode :=
  (resolveBody_only ..).armMode

/-! Machine/Twin.lean -/

@[simp] theorem armMode_recordIn (s : State) : (recordIn s).armMode = s.armMode := (recordIn_only ..).armMode
@[simp] theorem armMode_recordChanges (gs : List GrainRec) (s : State) : (recordChanges gs s).2.armMode = s.armMode :=
  (recordChanges_only ..).armMode
@[simp] theorem armAllowed_finishSwitch {s : State} (hs : armAllowed s.armMode = true) : armAllowed (finishSwitch s).armMode = true := by
  unfold finishSwitch; split <;> simp [hs]
@[simp] theorem armAllowed_applyRecord (csn : Nat) (deltas : List GrainRec) {s : State} (hs : armAllowed s.armMode = true) :
    armAllowed (applyRecord csn deltas s).armMode = true := by
  simp [applyRecord, hs]
@[simp] theorem armAllowed_mirrorCommitRecordEff (csn : Nat) (deltas : List GrainRec) {s : State} (hs : armAllowed s.armMode = true) :
    armAllowed (mirrorCommitRecordEff csn deltas s).armMode = true := by
  simp [mirrorCommitRecordEff, hs]
@[simp] theorem armMode_mirroredOp (op : NsOp) (s : State) : (mirroredOp op s).armMode = s.armMode := by unfold mirroredOp; split <;> simp
@[simp] theorem armMode_storeRepair (g : GrainRec) (e : MapEntry) (s : State) : (storeRepair g e s).armMode = s.armMode :=
  (storeRepair_only ..).armMode
@[simp] theorem armMode_mirrorRepairEff (isAnswer : Bool) (g : GrainRec) (lostCsn : Nat) (s : State) :
    (mirrorRepairEff isAnswer g lostCsn s).armMode = s.armMode := by
  simp [mirrorRepairEff]
@[simp] theorem armMode_sendHb (fields : List Nat) (s : State) : (sendHb fields s).armMode = s.armMode := by simp [sendHb]
@[simp] theorem armMode_hbSendTimerEff (s : State) : (hbSendTimerEff s).armMode = s.armMode := by simp [hbSendTimerEff]
@[simp] theorem armAllowed_hbPathLostEff (pathB : Bool) (sinceUs : Nat) {s : State} (hs : armAllowed s.armMode = true) :
    armAllowed (hbPathLostEff pathB sinceUs s).armMode = true := by
  simp [hbPathLostEff, hs]
@[simp] theorem armAllowed_drainNoticeEff (csn : Nat) {s : State} (hs : armAllowed s.armMode = true) :
    armAllowed (drainNoticeEff csn s).armMode = true := by
  simp [drainNoticeEff, hs]
@[simp] theorem armMode_soloEntryEff (cmd : Nat) (s : State) : (soloEntryEff cmd s).armMode = s.armMode := by
  unfold soloEntryEff; split <;> simp
@[simp] theorem armMode_becomeStandby (src : Nat) (s : State) : (becomeStandby src s).armMode = s.armMode := (becomeStandby_only ..).armMode
@[simp] theorem armAllowed_pairreqEff (src action : Nat) (idOk : Bool) {s : State} (hs : armAllowed s.armMode = true) :
    armAllowed (pairreqEff src action idOk s).armMode = true := by
  unfold pairreqEff; (repeat' split) <;> simp [hs]
@[simp] theorem armMode_becomeActive (s : State) : (becomeActive s).armMode = s.armMode := by simp [becomeActive]
@[simp] theorem armMode_pairackEff (accepted identityOk : Bool) (s : State) : (pairackEff accepted identityOk s).armMode = s.armMode := by
  simp [pairackEff]
@[simp] theorem armAllowed_switchEff (csn : Nat) {s : State} (hs : armAllowed s.armMode = true) :
    armAllowed (switchEff csn s).armMode = true := by
  simp [switchEff, hs]
@[simp] theorem armAllowed_switchackEff (csn : Nat) {s : State} (hs : armAllowed s.armMode = true) :
    armAllowed (switchackEff csn s).armMode = true := by
  simp [switchackEff, hs]
@[simp] theorem armMode_segSeeded (nsid seg : Nat) (s : State) : (segSeeded nsid seg s).armMode = s.armMode := (segSeeded_only ..).armMode
@[simp] theorem armMode_storeSeed (nsid seg : Nat) (grains : List GrainRec) (s : State) :
    (storeSeed nsid seg grains s).armMode = s.armMode := (storeSeed_only ..).armMode
@[simp] theorem armMode_seedSegmentSendEff (nsid seg : Nat) (grains : List GrainRec) (s : State) :
    (seedSegmentSendEff nsid seg grains s).armMode = s.armMode := by
  simp [seedSegmentSendEff]

/-! Machine/Migration.lean -/

@[simp] theorem armMode_createIngested (d : NsDesc) (s : State) : (createIngested d s).armMode = s.armMode := by simp [createIngested]
@[simp] theorem armMode_migstartEff (src : Nat) (idOk : Bool) (descs : List NsDesc) (s : State) :
    (migstartEff src idOk descs s).armMode = s.armMode := by
  simp [migstartEff]
@[simp] theorem armMode_migrationSegmentSendEff (nsid seg : Nat) (s : State) :
    (migrationSegmentSendEff nsid seg s).armMode = s.armMode := by
  simp [migrationSegmentSendEff]
@[simp] theorem armMode_seedCompared (nsid seg pass : Nat) (same : Bool) (s : State) :
    (seedCompared nsid seg pass same s).armMode = s.armMode := by
  simp [seedCompared]
@[simp] theorem armMode_segdigEff (nsid seg pass theirs : Nat) (flip : Option (Fin 64)) (s : State) :
    (segdigEff nsid seg pass theirs flip s).armMode = s.armMode := by
  simp [segdigEff]
@[simp] theorem armMode_seedAnswered (nsid seg result : Nat) (s : State) : (seedAnswered nsid seg result s).armMode = s.armMode :=
  (seedAnswered_only ..).armMode
@[simp] theorem armAllowed_segresEff (nsid seg result : Nat) {s : State} (hs : armAllowed s.armMode = true) :
    armAllowed (segresEff nsid seg result s).armMode = true := by
  simp [segresEff, hs]
@[simp] theorem armMode_nextPass (phase : Nat) (s : State) : (nextPass phase s).armMode = s.armMode := (nextPass_only ..).armMode
@[simp] theorem armMode_cutoverMsg (peer n : Nat) (s : State) : (cutoverMsg peer n s).armMode = s.armMode := by
  unfold cutoverMsg; split <;> simp
@[simp] theorem armMode_sendCutover (s : State) : (sendCutover s).armMode = s.armMode := by simp [sendCutover]
@[simp] theorem armMode_dirtyPassEndEff (s : State) : (dirtyPassEndEff s).armMode = s.armMode := by simp [dirtyPassEndEff]
@[simp] theorem armAllowed_sinkDone (s : State) : armAllowed (sinkDone s).armMode = true := by simp [sinkDone]
@[simp] theorem armAllowed_cutoverEff (nsid csn nguid eui : Nat) (last : Bool) {s : State} (hs : armAllowed s.armMode = true) :
    armAllowed (cutoverEff nsid csn nguid eui last s).armMode = true := by
  simp [cutoverEff, hs]
@[simp] theorem armAllowed_migrationRouteTimeoutEff (downMs : Nat) {s : State} (hs : armAllowed s.armMode = true) :
    armAllowed (migrationRouteTimeoutEff downMs s).armMode = true := by
  simp [migrationRouteTimeoutEff, hs]

/-! Machine/Spdm.lean -/

@[simp] theorem armMode_spdmServe (s : State) : (spdmServe s).armMode = s.armMode := (spdmServe_only ..).armMode

/-! Machine/Digest.lean -/

@[simp] theorem armMode_auditStartEff (who : Writer) (s : State) : (auditStartEff who s).armMode = s.armMode :=
  (auditStartEff_only ..).armMode
@[simp] theorem armMode_dgSecAdvanceEff (who : Writer) (s : State) : (dgSecAdvanceEff who s).armMode = s.armMode :=
  (dgSecAdvanceEff_only ..).armMode
@[simp] theorem armMode_ecMaxcorrClrEff (who : Writer) (s : State) : (ecMaxcorrClrEff who s).armMode = s.armMode :=
  (ecMaxcorrClrEff_only ..).armMode

/-! Machine/Mgmt.lean -/

@[simp] theorem armMode_applyLevels (x : SensorSample) (s : State) : (applyLevels x s).armMode = s.armMode := (applyLevels_only ..).armMode
@[simp] theorem armMode_applyHostTemp (x : SensorSample) (s : State) : (applyHostTemp x s).armMode = s.armMode :=
  (applyHostTemp_only ..).armMode
@[simp] theorem armMode_applySupplyWarn (x : SensorSample) (s : State) : (applySupplyWarn x s).armMode = s.armMode :=
  (applySupplyWarn_only ..).armMode
@[simp] theorem armMode_tripped (ms : List Nat) (s : State) : (tripped ms s).armMode = s.armMode := (tripped_only ..).armMode
@[simp] theorem armAllowed_applyHardware (x : SensorSample) {s : State} (hs : armAllowed s.armMode = true) :
    armAllowed (applyHardware x s).armMode = true := by
  simp [applyHardware, hs]
@[simp] theorem armAllowed_sensorSampleEff (x : SensorSample) {s : State} (hs : armAllowed s.armMode = true) :
    armAllowed (sensorSampleEff x s).armMode = true := by
  simp [sensorSampleEff, hs]
@[simp] theorem armMode_mgLogackWriteEff (who : Writer) (seq : Word) (s : State) : (mgLogackWriteEff who seq s).armMode = s.armMode :=
  (mgLogackWriteEff_only ..).armMode

/-! Machine/Mi.lean -/

theorem armAllowed_miAnswer {f : State → State} (hf : KeepsArmAllowed f) {s : State} (h : armAllowed s.armMode = true) :
    armAllowed (miAnswer f s).armMode = true := by simp [miAnswer, hf s h, h]
@[simp] theorem armMode_miOk (data : List Nat) (s : State) : (miOk data s).armMode = s.armMode := (miOk_only ..).armMode
@[simp] theorem armAllowed_miCommit (h : AdminHdr) (slot ca : Nat) (img : SlotImage) {s : State} (hs : armAllowed s.armMode = true) :
    armAllowed (miCommit h slot ca img s).armMode = true := by
  unfold miCommit; split <;> simp [hs]
@[simp] theorem armAllowed_miAdmin (h : AdminHdr) (opcode : Nat) (cdw : List Nat) (img : SlotImage) {s : State}
    (hs : armAllowed s.armMode = true) :
    armAllowed (miAdmin h opcode cdw img s).armMode = true := by
  unfold miAdmin
  split
  · exact armAllowed_adminCmd (fun _ ht => by simp [ht]) _ _ _ hs
  · exact armAllowed_adminCmd (fun _ ht => by simp [ht]) _ _ _ hs
  · exact armAllowed_adminCmd (fun _ ht => by simp [ht]) _ _ _ hs
  · exact armAllowed_adminCmd (fun _ ht => by simp [ht]) _ _ _ hs
  · exact armAllowed_adminCmd (fun _ ht => armAllowed_miCommit _ _ _ _ ht) _ _ _ hs
  · exact armAllowed_adminCmd (fun _ ht => by simp [ht]) _ _ _ hs
  · simp [hs]

/-! Machine/FaultInj.lean -/

@[simp] theorem armMode_nextOut (r : Nat) (s : State) : (nextOut r s).armMode = s.armMode := (nextOut_only ..).armMode
@[simp] theorem armAllowed_coreFault {s : State} (hs : armAllowed s.armMode = true) : armAllowed (coreFault s).armMode = true := by
  simp [coreFault, hs]
@[simp] theorem armAllowed_engineFault {s : State} (hs : armAllowed s.armMode = true) : armAllowed (engineFault s).armMode = true := by
  simp [engineFault, hs]
@[simp] theorem armAllowed_laneFault (ctx : Option Nat) {s : State} (hs : armAllowed s.armMode = true) :
    armAllowed (laneFault ctx s).armMode = true := by
  unfold laneFault; split <;> simp [hs]
@[simp] theorem armAllowed_compressFault {s : State} (hs : armAllowed s.armMode = true) : armAllowed (compressFault s).armMode = true := by
  simp [compressFault, hs]
@[simp] theorem armMode_decompressFault (s : State) : (decompressFault s).armMode = s.armMode := (decompressFault_only ..).armMode
@[simp] theorem armAllowed_unitFaultEff (unit : UnitFault) {s : State} (hs : armAllowed s.armMode = true) :
    armAllowed (unitFaultEff unit s).armMode = true := by
  unfold unitFaultEff; (repeat' split) <;> simp [hs]
@[simp] theorem armMode_fiWrite {body : State → State} (hb : ∀ t, (body t).armMode = t.armMode) (who : Writer) (off : Nat) (s : State) :
    (fiWrite who off body s).armMode = s.armMode := by simp [fiWrite, hb]
theorem armAllowed_fiWrite {body : State → State} (hb : KeepsArmAllowed body) (who : Writer) (off : Nat) {s : State}
    (h : armAllowed s.armMode = true) : armAllowed (fiWrite who off body s).armMode = true := by simp [fiWrite, hb s h, h]
@[simp] theorem armMode_fiKeyBad (s : State) : (fiKeyBad s).armMode = s.armMode := by simp [fiKeyBad]
/-- R394: the second key arms FI, in SERVICE alone. -/
theorem armAllowed_fiKeyEff (key : BitVec 16) {s : State} (hs : armAllowed s.armMode = true) :
    armAllowed (fiKeyEff key s).armMode = true := by
  unfold fiKeyEff
  split
  · exact hs
  split
  · simp [hs]
  · next hmode =>
    split
    · exact hs
    split
    · extract_lets fi keyed
      split
      · exact hs
      · rw [armMode_fiArmed, armAllowed, show keyed.gen.mode = .service from not_not.mp hmode]; rfl
    · simp [hs]
@[simp] theorem armMode_fiMechWrite (who : Writer) (en : Field) (mech : Nat) (limit : Bool) (value : Nat) (s : State) :
    (fiMechWrite who en mech limit value s).armMode = s.armMode := by
  simp [fiMechWrite]

/-! Machine/SetupBus.lean -/

@[simp] theorem armMode_onBit {act : State → State} (ha : ∀ t, (act t).armMode = t.armMode) (f : Field) (value : Nat) (s : State) :
    (onBit f value act s).armMode = s.armMode := by simp [onBit, ha]
theorem armAllowed_onBit {act : State → State} (ha : KeepsArmAllowed act) (f : Field) (value : Nat) {s : State}
    (h : armAllowed s.armMode = true) : armAllowed (onBit f value act s).armMode = true := by simp [onBit, ha s h, h]
@[simp] theorem armAllowed_busModereq (who : Writer) (value : Nat) {s : State} (hs : armAllowed s.armMode = true) :
    armAllowed (busModereq who value s).armMode = true := by
  unfold busModereq
  extract_lets key
  split
  · exact armAllowed_twoStep (fun _ ht => by simpa using ht) _ _ _ _ hs
  · exact armAllowed_oneStep (fun _ ht => armAllowed_enterModeEv _ _ _) _ _ _ hs
  · exact armAllowed_oneStep (fun _ ht => armAllowed_quarantineNow ht) _ _ _ hs
  · exact armAllowed_twoStep (fun _ ht => armAllowed_enterModeEv _ _ _) _ _ _ _ hs
  · simp [hs]
@[simp] theorem armMode_busOwner (who : Writer) (value : Nat) (s : State) : (busOwner who value s).armMode = s.armMode := by simp [busOwner]
@[simp] theorem armAllowed_busReset (who : Writer) (value : Nat) {s : State} (hs : armAllowed s.armMode = true) :
    armAllowed (busReset who value s).armMode = true := by
  unfold busReset; split <;> simp [hs]
@[simp] theorem armMode_busWincommit (who : Writer) (value : Nat) (s : State) : (busWincommit who value s).armMode = s.armMode :=
  (busWincommit_only ..).armMode
@[simp] theorem armMode_busFfCmd (who : Writer) (value : Nat) (s : State) : (busFfCmd who value s).armMode = s.armMode :=
  (busFfCmd_only ..).armMode
@[simp] theorem armAllowed_busFiArm (who : Writer) (value : Nat) {s : State} (hs : armAllowed s.armMode = true) :
    armAllowed (busFiArm who value s).armMode = true := by
  refine armAllowed_fiWrite (fun t ht => armAllowed_fiKeyEff _ ?_) _ _ hs
  exact armAllowed_onBit (fun u _ => by simp) _ _ ht
@[simp] theorem armMode_busKick (who : Writer) (s : State) : (busKick who s).armMode = s.armMode := (busKick_only ..).armMode
@[simp] theorem armAllowed_busAction (who : Writer) (off value : Nat) {s : State} (hs : armAllowed s.armMode = true) :
    armAllowed (busAction who off value s).armMode = true := by
  simp [busAction, hs]
@[simp] theorem armAllowed_busWrite (who : Writer) (off value : Nat) {s : State} (hs : armAllowed s.armMode = true) :
    armAllowed (busWrite who off value s).armMode = true := by
  simp [busWrite, hs]
@[simp] theorem armAllowed_writeAt (who : Writer) (offset : Nat) (value : Word) (poisoned : Bool) {s : State}
    (hs : armAllowed s.armMode = true) :
    armAllowed (writeAt who offset value poisoned s).armMode = true := by
  simp [writeAt, hs]
@[simp] theorem armAllowed_writeDevice (addr : Nat) (value : Word) {s : State} (hs : armAllowed s.armMode = true) :
    armAllowed (writeDevice addr value s).armMode = true := by
  unfold writeDevice; split <;> simp [hs]
@[simp] theorem armAllowed_registerWriteEff (who : Writer) (offset : Nat) (value : Word) (poisoned : Bool) {s : State}
    (hs : armAllowed s.armMode = true) :
    armAllowed (registerWriteEff who offset value poisoned s).armMode = true := by
  simp [registerWriteEff, hs]

end Sys2Proof.Machine
end

section
/-! SUPPORT. FI is armed only where it may be: every command, and every step. Rule R394. -/
namespace Sys2Proof.Machine
-- Many short theorems elaborated at once would need a thread each.
set_option Elab.async false

/-- An outcome whose change names neither FI nor the mode. -/
theorem Only.answersArmAllowed {w : List Fld} {s : State} {o : Host.Outcome State Fault Refusal} (ho : ∃ t, o = .next t ∧ Only w s t)
    (hs : armAllowed s.armMode = true) (hf : covered w .fi = false := by rfl) (hg : covered w .gen = false := by rfl) :
    ∃ t, o = .next t ∧ armAllowed t.armMode = true := by
  obtain ⟨t, ht, honly⟩ := ho
  exact ⟨t, ht, by rw [honly.armMode hf hg]; exact hs⟩

/-- Every command keeps the view allowed: by its frame where that names neither FI nor the mode, else by the lemma of its effect. -/
theorem exec_armAllowed (c : Instr) {s : State} (hs : armAllowed s.armMode = true) :
    ∃ t, exec c s = .next t ∧ armAllowed t.armMode = true := by
  cases c with
  | porNAssert => exact ⟨_, rfl, by simp [hs]⟩
  | porNDeassert => exact ⟨_, rfl, by simp [hs]⟩
  | pwrFailNAssert => exact ⟨_, rfl, by simp [hs]⟩
  | pwrFailNDeassert => exact ⟨_, rfl, by simp [hs]⟩
  | drainFlushComplete => exact ⟨_, rfl, by simp [hs]⟩
  | twinFenceInAssert => exact ⟨_, rfl, by simp [hs]⟩
  | twinFenceInDeassert => exact ⟨_, rfl, by simp [hs]⟩
  | twinHbInChange => exact Only.answersArmAllowed (execTwinHbInChange_only ..) hs
  | tsyncInEdge => exact Only.answersArmAllowed (execTsyncInEdge_only ..) hs
  | huGoodDeassert => exact ⟨_, rfl, by simp [hs]⟩
  | huGoodReassert => exact Only.answersArmAllowed (execHuGoodReassert_only ..) hs
  | huSenseBelowVLow => exact ⟨_, rfl, by simp [hs]⟩
  | holdupVerificationStart => exact Only.answersArmAllowed (execHoldupVerificationStart_only ..) hs
  | holdupVerificationEnd => exact ⟨_, rfl, by simp [hs]⟩
  | heRefclkLoss => exact Only.answersArmAllowed (execHeRefclkLoss_only ..) hs
  | gfRefclkLoss => exact ⟨_, rfl, by simp [hs]⟩
  | mgXtalLoss => exact ⟨_, rfl, by simp [hs]⟩
  | dramChannelTrainingLoss => exact ⟨_, rfl, by simp [hs]⟩
  | bootImageVerify => exact ⟨_, rfl, by simp [hs]⟩
  | hostIslandRelease => exact ⟨_, rfl, by simp [hs]⟩
  | dramTraining => exact Only.answersArmAllowed (execDramTraining_only ..) hs
  | channelTraining => exact ⟨_, rfl, by simp [hs]⟩
  | journalRootRead => exact Only.answersArmAllowed (execJournalRootRead_only ..) hs
  | residentMapLoad => exact Only.answersArmAllowed (execResidentMapLoad_only ..) hs
  | mapRecovery => exact ⟨_, rfl, by simp [hs]⟩
  | halfErasedBlockRedo => exact ⟨_, rfl, by simp [hs]⟩
  | openStripeCompletion => exact ⟨_, rfl, by simp [hs]⟩
  | startupComplete => exact ⟨_, rfl, by simp [hs]⟩
  | genResetY9 => exact ⟨_, rfl, by simp [hs]⟩
  | genResetManagement => exact ⟨_, rfl, by simp [hs]⟩
  | watchdogExpiry => exact ⟨_, rfl, by simp [hs]⟩
  | lockstepMismatch => exact ⟨_, rfl, by simp [hs]⟩
  | conventionalReset cause => exact Only.answersArmAllowed (execConventionalReset_only cause s) hs
  | functionLevelReset => exact Only.answersArmAllowed (execFunctionLevelReset_only ..) hs
  | ccEnSet => exact ⟨_, rfl, by simp [hs]⟩
  | ccEnClear => exact Only.answersArmAllowed (execCcEnClear_only ..) hs
  | shutdownNotification => exact ⟨_, rfl, by simp [hs]⟩
  | genModereqDiagnostic => exact ⟨_, rfl, armAllowed_twoStep (fun _ ht => by simpa using ht) _ _ _ _ hs⟩
  | diagnosticEntry => exact ⟨_, rfl, by simp [hs]⟩
  | genModereqService => exact ⟨_, rfl, armAllowed_oneStep (fun _ _ => armAllowed_enterModeEv _ _ _) _ _ _ hs⟩
  | genModereqQuarantine => exact ⟨_, rfl, armAllowed_oneStep (fun _ ht => armAllowed_quarantineNow ht) _ _ _ hs⟩
  | genModereqProvision => exact ⟨_, rfl, armAllowed_twoStep (fun _ _ => armAllowed_enterModeEv _ _ _) _ _ _ _ hs⟩
  | modereqKeyTimeout => exact ⟨_, rfl, by simp [hs]⟩
  | provisioningCommit => exact ⟨_, rfl, by simp [hs]⟩
  | genOwnerClaim => exact ⟨_, rfl, by simp [hs]⟩
  | genOwnerRelease => exact ⟨_, rfl, by simp [hs]⟩
  | genOwnerSeize => exact ⟨_, rfl, by simp [hs]⟩
  | genOwnerSeizedClear => exact Only.answersArmAllowed (execGenOwnerSeizedClear_only ..) hs
  | registerWrite => exact ⟨_, rfl, by simp [hs]⟩
  | latchingRead => exact Only.answersArmAllowed (execLatchingRead_only ..) hs
  | stagedCommitPoint => exact Only.answersArmAllowed (execStagedCommitPoint_only ..) hs
  | bar0BadAccess => exact Only.answersArmAllowed (execBar0BadAccess_only ..) hs
  | configBarWrite => exact Only.answersArmAllowed (execConfigBarWrite_only ..) hs
  | sqTailDoorbell => exact ⟨_, rfl, by simp [hs]⟩
  | cqHeadDoorbell => exact ⟨_, rfl, by simp [hs]⟩
  | sqeFetch => exact Only.answersArmAllowed (execSqeFetch_only ..) hs
  | pollRound => exact Only.answersArmAllowed (execPollRound_only ..) hs
  | pollCompletion => exact ⟨_, rfl, by simp [hs]⟩
  | pollStop => exact ⟨_, rfl, by simp [hs]⟩
  | cmbMmioRead => exact Only.answersArmAllowed (execCmbMmioRead_only ..) hs
  | cmbMmioWrite => exact Only.answersArmAllowed (execCmbMmioWrite_only ..) hs
  | windowTlpRead => exact ⟨_, rfl, by simp [hs]⟩
  | windowTlpWrite => exact ⟨_, rfl, by simp [hs]⟩
  | windowWriteAck => exact ⟨_, rfl, by simp [hs]⟩
  | unsupportedTlp => exact Only.answersArmAllowed (execUnsupportedTlp_only ..) hs
  | malformedTlp => exact Only.answersArmAllowed (execMalformedTlp_only ..) hs
  | heWincommitA => exact Only.answersArmAllowed (execHeWincommitA_only ..) hs
  | heWincommitB => exact Only.answersArmAllowed (execHeWincommitB_only ..) hs
  | windowCopyDone => exact Only.answersArmAllowed (execWindowCopyDone_only ..) hs
  | heWinlogClr => exact Only.answersArmAllowed (execHeWinlogClr_only ..) hs
  | hostReadCompletion => exact ⟨_, rfl, by simp [hs]⟩
  | hostReadTimeout => exact ⟨_, rfl, by simp [hs]⟩
  | linkTrained => exact Only.answersArmAllowed (execLinkTrained_only ..) hs
  | linkRecoveryEntry => exact Only.answersArmAllowed (execLinkRecoveryEntry_only ..) hs
  | linkRecoveryExit => exact Only.answersArmAllowed (execLinkRecoveryExit_only ..) hs
  | surpriseDown => exact Only.answersArmAllowed (execSurpriseDown_only ..) hs
  | l0pWidthChange => exact Only.answersArmAllowed (execL0pWidthChange_only ..) hs
  | aspmL1Entry => exact Only.answersArmAllowed (execAspmL1Entry_only ..) hs
  | d3hotEntry => exact Only.answersArmAllowed (execD3hotEntry_only ..) hs
  | doeRequest => exact Only.answersArmAllowed (execDoeRequest_only ..) hs
  | doeAbort => exact Only.answersArmAllowed (execDoeAbort_only ..) hs
  | deleteIoSq => exact ⟨_, rfl, armAllowed_adminCmd (fun _ ht => by simp [ht]) _ _ _ hs⟩
  | createIoSq => exact ⟨_, rfl, armAllowed_adminCmd (fun _ ht => by simp [ht]) _ _ _ hs⟩
  | getLogPage => exact ⟨_, rfl, armAllowed_adminCmd (fun _ ht => by simp [ht]) _ _ _ hs⟩
  | deleteIoCq => exact ⟨_, rfl, armAllowed_adminCmd (fun _ ht => by simp [ht]) _ _ _ hs⟩
  | createIoCq => exact ⟨_, rfl, armAllowed_adminCmd (fun _ ht => by simp [ht]) _ _ _ hs⟩
  | identify => exact ⟨_, rfl, armAllowed_adminCmd (fun _ ht => by simp [ht]) _ _ _ hs⟩
  | abort => exact ⟨_, rfl, armAllowed_adminCmd (fun _ ht => by simp [ht]) _ _ _ hs⟩
  | setFeaturesArbitration => exact ⟨_, rfl, armAllowed_setFeature (fun _ ht => by simp [ht]) _ _ hs⟩
  | setFeaturesPowerManagement => exact ⟨_, rfl, armAllowed_setFeature (fun _ ht => by simp [ht]) _ _ hs⟩
  | powerStateEntry => exact ⟨_, rfl, by simp [hs]⟩
  | setFeaturesTemperatureThreshold => exact ⟨_, rfl, armAllowed_setFeature (fun _ ht => by simp [ht]) _ _ hs⟩
  | setFeaturesVolatileWriteCache => exact ⟨_, rfl, armAllowed_setFeature (fun _ ht => by simp [ht]) _ _ hs⟩
  | setFeaturesNumberOfQueues => exact ⟨_, rfl, armAllowed_setFeature (fun _ ht => by simp [ht]) _ _ hs⟩
  | setFeaturesInterruptCoalescing => exact ⟨_, rfl, armAllowed_setFeature (fun _ ht => by simp [ht]) _ _ hs⟩
  | setFeaturesInterruptVectorConfig => exact ⟨_, rfl, armAllowed_setFeature (fun _ ht => by simp [ht]) _ _ hs⟩
  | setFeaturesAsyncEventConfig => exact ⟨_, rfl, armAllowed_setFeature (fun _ ht => by simp [ht]) _ _ hs⟩
  | setFeaturesLatencyClassTable => exact ⟨_, rfl, armAllowed_setFeature (fun _ ht => by simp [ht]) _ _ hs⟩
  | setFeaturesQueueLatencyBinding => exact ⟨_, rfl, armAllowed_setFeature (fun _ ht => by simp [ht]) _ _ hs⟩
  | setFeaturesWriteCacheProtection => exact ⟨_, rfl, armAllowed_setFeature (fun _ ht => by simp [ht]) _ _ hs⟩
  | getFeatures => exact ⟨_, rfl, armAllowed_adminCmd (fun _ ht => by simp [ht]) _ _ _ hs⟩
  | asynchronousEventRequest => exact ⟨_, rfl, armAllowed_adminCmd (fun _ ht => by simp [ht]) _ _ _ hs⟩
  | namespaceManagementCreate => exact ⟨_, rfl, armAllowed_adminCmd (fun _ ht => by simp [ht]) _ _ _ hs⟩
  | namespaceManagementDelete => exact ⟨_, rfl, armAllowed_adminCmd (fun _ ht => by simp [ht]) _ _ _ hs⟩
  | namespaceAttachment => exact ⟨_, rfl, armAllowed_adminCmd (fun _ ht => by simp [ht]) _ _ _ hs⟩
  | firmwareImageDownload => exact ⟨_, rfl, armAllowed_adminCmd (fun _ ht => by simp [ht]) _ _ _ hs⟩
  | firmwareCommitWrite => exact ⟨_, rfl, armAllowed_adminCmd (fun _ ht => by simp [ht]) _ _ _ hs⟩
  | firmwareCommitWriteSelect => exact ⟨_, rfl, armAllowed_adminCmd (fun _ ht => by simp [ht]) _ _ _ hs⟩
  | firmwareCommitSelect => exact ⟨_, rfl, armAllowed_adminCmd (fun _ ht => by simp [ht]) _ _ _ hs⟩
  | firmwareCommitActivate => exact ⟨_, rfl, armAllowed_adminCmd (fun _ ht => by simp [ht]) _ _ _ hs⟩
  | deviceSelfTest => exact ⟨_, rfl, armAllowed_adminCmd (fun _ ht => by simp [ht]) _ _ _ hs⟩
  | directiveSend => exact ⟨_, rfl, armAllowed_adminCmd (fun _ ht => by simp [ht]) _ _ _ hs⟩
  | directiveReceive => exact ⟨_, rfl, armAllowed_adminCmd (fun _ ht => by simp [ht]) _ _ _ hs⟩
  | doorbellBufferConfig => exact ⟨_, rfl, armAllowed_adminCmd (fun _ ht => by simp [ht]) _ _ _ hs⟩
  | formatNvm => exact ⟨_, rfl, armAllowed_adminCmd (fun _ ht => by simp [ht]) _ _ _ hs⟩
  | formatNvmCryptoErase => exact ⟨_, rfl, armAllowed_adminCmd (fun _ ht => by simp [ht]) _ _ _ hs⟩
  | sanitizeBlockErase => exact ⟨_, rfl, armAllowed_adminCmd (fun _ ht => by simp [ht]) _ _ _ hs⟩
  | sanitizeCryptoErase => exact ⟨_, rfl, armAllowed_adminCmd (fun _ ht => by simp [ht]) _ _ _ hs⟩
  | twinControlPair => exact ⟨_, rfl, armAllowed_adminCmd (fun _ ht => by simp [ht]) _ _ _ hs⟩
  | twinControlSwitch => exact ⟨_, rfl, armAllowed_adminCmd (fun _ ht => by simp [ht]) _ _ _ hs⟩
  | twinControlRejoin => exact ⟨_, rfl, armAllowed_adminCmd (fun _ ht => by simp [ht]) _ _ _ hs⟩
  | twinControlUnpair => exact ⟨_, rfl, armAllowed_adminCmd (fun _ ht => by simp [ht]) _ _ _ hs⟩
  | twinControlRelease => exact ⟨_, rfl, armAllowed_adminCmd (fun _ ht => by simp [ht]) _ _ _ hs⟩
  | migrationControlArm => exact ⟨_, rfl, armAllowed_adminCmd (fun _ ht => by simp [ht]) _ _ _ hs⟩
  | migrationControlStart => exact ⟨_, rfl, armAllowed_adminCmd (fun _ ht => by simp [ht]) _ _ _ hs⟩
  | migrationControlSeal => exact ⟨_, rfl, armAllowed_adminCmd (fun _ ht => by simp [ht]) _ _ _ hs⟩
  | migrationControlAbort => exact ⟨_, rfl, armAllowed_adminCmd (fun _ ht => by simp [ht]) _ _ _ hs⟩
  | migrationControlStatus => exact ⟨_, rfl, armAllowed_adminCmd (fun _ ht => by simp [ht]) _ _ _ hs⟩
  | migrationControlResolve => exact ⟨_, rfl, armAllowed_adminCmd (fun _ ht => by simp [ht]) _ _ _ hs⟩
  | sealDevice => exact ⟨_, rfl, armAllowed_adminCmd (fun _ ht => by simp [ht]) _ _ _ hs⟩
  | unsealDevice => exact ⟨_, rfl, armAllowed_adminCmd (fun _ ht => by simp [ht]) _ _ _ hs⟩
  | sealNamespace => exact ⟨_, rfl, armAllowed_adminCmd (fun _ ht => by simp [ht]) _ _ _ hs⟩
  | unsealNamespace => exact ⟨_, rfl, armAllowed_adminCmd (fun _ ht => by simp [ht]) _ _ _ hs⟩
  | read => exact ⟨_, rfl, by simp [hs]⟩
  | write => exact ⟨_, rfl, by simp [hs]⟩
  | flush => exact ⟨_, rfl, by simp [hs]⟩
  | writeUncorrectable => exact ⟨_, rfl, by simp [hs]⟩
  | writeZeroes => exact ⟨_, rfl, by simp [hs]⟩
  | datasetManagement => exact ⟨_, rfl, by simp [hs]⟩
  | verify => exact ⟨_, rfl, by simp [hs]⟩
  | copy => exact ⟨_, rfl, by simp [hs]⟩
  | fixityDigest => exact ⟨_, rfl, by simp [hs]⟩
  | mapPageLoaded => exact ⟨_, rfl, by simp [hs]⟩
  | lc7AdmissionRetry => exact ⟨_, rfl, by simp [hs]⟩
  | dcForwardDone => exact ⟨_, rfl, by simp [hs]⟩
  | completionPost => exact ⟨_, rfl, by simp [hs]⟩
  | partialGrainMerge => exact Only.answersArmAllowed (execPartialGrainMerge_only ..) hs
  | wordlineProgramStart => exact ⟨_, rfl, by simp [hs]⟩
  | programVerifyDone => exact ⟨_, rfl, by simp [hs]⟩
  | gatherTimeout => exact ⟨_, rfl, by simp [hs]⟩
  | barrelOpen => exact Only.answersArmAllowed (execBarrelOpen_only ..) hs
  | readRoundDone => exact ⟨_, rfl, by simp [hs]⟩
  | readReadyTimeout => exact ⟨_, rfl, by simp [hs]⟩
  | spDieoutWrite => exact ⟨_, rfl, by simp [hs]⟩
  | fretTick => exact ⟨_, rfl, by simp [hs]⟩
  | suspendRequest => exact Only.answersArmAllowed (execSuspendRequest_only ..) hs
  | vatTurnEnd => exact Only.answersArmAllowed (execVatTurnEnd_only ..) hs
  | groupWordlineBoundary => exact Only.answersArmAllowed (execGroupWordlineBoundary_only ..) hs
  | journalFlush => exact Only.answersArmAllowed (execJournalFlush_only ..) hs
  | journalSegmentDurable => exact ⟨_, rfl, by simp [hs]⟩
  | checkpointSweepStart => exact Only.answersArmAllowed (execCheckpointSweepStart_only ..) hs
  | sweepTimeout => exact Only.answersArmAllowed (execSweepTimeout_only ..) hs
  | sweepRootDurable => exact Only.answersArmAllowed (execSweepRootDurable_only ..) hs
  | mapLineRestored => exact ⟨_, rfl, by simp [hs]⟩
  | rackingStart => exact ⟨_, rfl, by simp [hs]⟩
  | rackdoneDurable => exact Only.answersArmAllowed (execRackdoneDurable_only ..) hs
  | eraseintDurable => exact Only.answersArmAllowed (execEraseintDurable_only ..) hs
  | eraseDone => exact ⟨_, rfl, by simp [hs]⟩
  | bottlingStart => exact ⟨_, rfl, by simp [hs]⟩
  | vatSlotErase => exact Only.answersArmAllowed (execVatSlotErase_only ..) hs
  | ageRefresh => exact ⟨_, rfl, by simp [hs]⟩
  | blockRefresh => exact ⟨_, rfl, by simp [hs]⟩
  | v4Reclaim => exact Only.answersArmAllowed (execV4Reclaim_only ..) hs
  | snapshotWrite => exact ⟨_, rfl, by simp [hs]⟩
  | snapshotDurable => exact Only.answersArmAllowed (execSnapshotDurable_only ..) hs
  | rebuildStart => exact ⟨_, rfl, by simp [hs]⟩
  | rebuildWordlineDone => exact ⟨_, rfl, by simp [hs]⟩
  | groupDissolution => exact ⟨_, rfl, by simp [hs]⟩
  | sequencerFault => exact ⟨_, rfl, by simp [hs]⟩
  | yieldTimeout => exact ⟨_, rfl, by simp [hs]⟩
  | channelRetrain => exact Only.answersArmAllowed (execChannelRetrain_only ..) hs
  | retrainStep => exact ⟨_, rfl, by simp [hs]⟩
  | patchSetLoad => exact ⟨_, rfl, by simp [hs]⟩
  | patchHandoff => exact ⟨_, rfl, by simp [hs]⟩
  | bufferAllocate => exact Only.answersArmAllowed (execBufferAllocate_only ..) hs
  | bufferFree => exact Only.answersArmAllowed (execBufferFree_only ..) hs
  | poolRebuildDone => exact Only.answersArmAllowed (execPoolRebuildDone_only ..) hs
  | lineCheckFailure => exact ⟨_, rfl, by simp [hs]⟩
  | staleGenerationAccess => exact Only.answersArmAllowed (execStaleGenerationAccess_only ..) hs
  | mergeEntryTimeout => exact Only.answersArmAllowed (execMergeEntryTimeout_only ..) hs
  | gareoLinkTrained => exact ⟨_, rfl, by simp [hs]⟩
  | flitReceived => exact ⟨_, rfl, by simp [hs]⟩
  | linkSilenceTimeout => exact ⟨_, rfl, by simp [hs]⟩
  | linkRetrainDone => exact ⟨_, rfl, by simp [hs]⟩
  | linkRetryTimer => exact Only.answersArmAllowed (execLinkRetryTimer_only ..) hs
  | ackTimer => exact Only.answersArmAllowed (execAckTimer_only ..) hs
  | frameResendTimeout => exact ⟨_, rfl, by simp [hs]⟩
  | hello link uid candUid candDist epoch pref => exact Only.answersArmAllowed (execHello_only link uid candUid candDist epoch pref s) hs
  | discoveryQuietTimeout => exact ⟨_, rfl, by simp [hs]⟩
  | lsr => exact ⟨_, rfl, by simp [hs]⟩
  | table => exact Only.answersArmAllowed (execTable_only ..) hs
  | epoch => exact Only.answersArmAllowed (execEpoch_only ..) hs
  | epochApply => exact Only.answersArmAllowed (execEpochApply_only ..) hs
  | resync => exact ⟨_, rfl, by simp [hs]⟩
  | ack => exact ⟨_, rfl, by simp [hs]⟩
  | nak => exact ⟨_, rfl, by simp [hs]⟩
  | timeExchangeTimer => exact ⟨_, rfl, by simp [hs]⟩
  | time => exact ⟨_, rfl, by simp [hs]⟩
  | coordinatorHeartbeat => exact ⟨_, rfl, by simp [hs]⟩
  | coordinatorLoss => exact Only.answersArmAllowed (execCoordinatorLoss_only ..) hs
  | gfNodeReassign => exact Only.answersArmAllowed (execGfNodeReassign_only ..) hs
  | rdreq => exact ⟨_, rfl, by simp [hs]⟩
  | rdresp => exact ⟨_, rfl, by simp [hs]⟩
  | writeFrame => exact ⟨_, rfl, by simp [hs]⟩
  | mgmt => exact ⟨_, rfl, by simp [hs]⟩
  | mirrorGranules => exact Only.answersArmAllowed (execMirrorGranules_only ..) hs
  | mirrorCommitRecord => exact ⟨_, rfl, by simp [hs]⟩
  | mirrorNamespaceOperation => exact ⟨_, rfl, by simp [hs]⟩
  | mirrorLatencyClassTable => exact Only.answersArmAllowed (execMirrorLatencyClassTable_only ..) hs
  | mirrorXtsKey nsid wrapped => exact Only.answersArmAllowed (execMirrorXtsKey_only nsid wrapped s) hs
  | mirrorSnapshot => exact Only.answersArmAllowed (execMirrorSnapshot_only ..) hs
  | mirrorRepair => exact ⟨_, rfl, by simp [hs]⟩
  | hbSendTimer => exact ⟨_, rfl, by simp [hs]⟩
  | hb seq peerState csn => exact Only.answersArmAllowed (execHb_only seq peerState csn s) hs
  | hbPathLost => exact ⟨_, rfl, armAllowed_onFabric (fun _ ht => by simp [ht]) hs⟩
  | drainNotice => exact ⟨_, rfl, armAllowed_onFabric (fun _ ht => by simp [ht]) hs⟩
  | soloEntry => exact ⟨_, rfl, by simp [hs]⟩
  | soloExit => exact Only.answersArmAllowed (execSoloExit_only ..) hs
  | pairreq => exact ⟨_, rfl, by simp [hs]⟩
  | pairack => exact ⟨_, rfl, by simp [hs]⟩
  | switch => exact ⟨_, rfl, by simp [hs]⟩
  | switchack => exact ⟨_, rfl, armAllowed_onFabric (fun _ ht => by simp [ht]) hs⟩
  | seedSegmentSend => exact ⟨_, rfl, by simp [hs]⟩
  | migstart => exact ⟨_, rfl, by simp [hs]⟩
  | migack => exact Only.answersArmAllowed (execMigack_only ..) hs
  | migrationSegmentSend => exact ⟨_, rfl, by simp [hs]⟩
  | migseg => exact Only.answersArmAllowed (execMigseg_only ..) hs
  | segdig => exact ⟨_, rfl, by simp [hs]⟩
  | segres => exact ⟨_, rfl, armAllowed_onFabric (fun _ ht => by simp [ht]) hs⟩
  | dirtyPassEnd => exact ⟨_, rfl, by simp [hs]⟩
  | cutover => exact ⟨_, rfl, by simp [hs]⟩
  | cutack => exact Only.answersArmAllowed (execCutack_only ..) hs
  | migrationAbortMessage => exact ⟨_, rfl, armAllowed_onFabric (fun _ ht => by simp [ht]) hs⟩
  | migrationRouteTimeout => exact ⟨_, rfl, armAllowed_onFabric (fun _ ht => by simp [ht]) hs⟩
  | stop vc stream => exact Only.answersArmAllowed (execStop_only vc stream s) hs
  | digestContextOpen => exact Only.answersArmAllowed (execDigestContextOpen_only ..) hs
  | digestSaveDone => exact Only.answersArmAllowed (execDigestSaveDone_only ..) hs
  | digestBlock => exact Only.answersArmAllowed (execDigestBlock_only ..) hs
  | auditStart => exact Only.answersArmAllowed (execAuditStart_only ..) hs
  | auditPeriodTimer => exact Only.answersArmAllowed (execAuditPeriodTimer_only ..) hs
  | dgSecAdvance => exact Only.answersArmAllowed (execDgSecAdvance_only ..) hs
  | rngHealthFailure => exact Only.answersArmAllowed (execRngHealthFailure_only ..) hs
  | ecMaxcorrClr => exact Only.answersArmAllowed (execEcMaxcorrClr_only ..) hs
  | spSubselWrite => exact Only.answersArmAllowed (execSpSubselWrite_only ..) hs
  | sensorSample => exact ⟨_, rfl, by simp [hs]⟩
  | eventLogFlush => exact Only.answersArmAllowed (execEventLogFlush_only ..) hs
  | timeMarkWrite => exact Only.answersArmAllowed (execTimeMarkWrite_only ..) hs
  | mgWdogKick => exact Only.answersArmAllowed (execMgWdogKick_only ..) hs
  | mgLogackWrite => exact Only.answersArmAllowed (execMgLogackWrite_only ..) hs
  | ffRead => exact Only.answersArmAllowed (execFfRead_only ..) hs
  | ffProgram => exact Only.answersArmAllowed (execFfProgram_only ..) hs
  | ffErase => exact Only.answersArmAllowed (execFfErase_only ..) hs
  | ffReadhdr => exact Only.answersArmAllowed (execFfReadhdr_only ..) hs
  | ffOperationDone => exact Only.answersArmAllowed (execFfOperationDone_only ..) hs
  | readNvmeMiDataStructure => exact Only.answersArmAllowed (execReadNvmeMiDataStructure_only ..) hs
  | nvmSubsystemHealthStatusPoll => exact Only.answersArmAllowed (execNvmSubsystemHealthStatusPoll_only ..) hs
  | controllerHealthStatusPoll => exact Only.answersArmAllowed (execControllerHealthStatusPoll_only ..) hs
  | configurationGet => exact Only.answersArmAllowed (execConfigurationGet_only ..) hs
  | configurationSet => exact Only.answersArmAllowed (execConfigurationSet_only ..) hs
  | vpdRead => exact Only.answersArmAllowed (execVpdRead_only ..) hs
  | miTunnelledAdminCommand => exact ⟨_, rfl, armAllowed_miAnswer (fun _ ht => by simp [ht]) hs⟩
  | setupRegisterRead => exact Only.answersArmAllowed (execSetupRegisterRead_only ..) hs
  | setupRegisterWrite => exact ⟨_, rfl, armAllowed_miAnswer (fun _ ht => by simp [ht]) hs⟩
  | eventLogRead => exact Only.answersArmAllowed (execEventLogRead_only ..) hs
  | eventLogAcknowledge => exact Only.answersArmAllowed (execEventLogAcknowledge_only ..) hs
  | getVersion => exact Only.answersArmAllowed (execGetVersion_only ..) hs
  | getCapabilities => exact Only.answersArmAllowed (execGetCapabilities_only ..) hs
  | negotiateAlgorithms => exact Only.answersArmAllowed (execNegotiateAlgorithms_only ..) hs
  | getDigests => exact Only.answersArmAllowed (execGetDigests_only ..) hs
  | getCertificate => exact Only.answersArmAllowed (execGetCertificate_only ..) hs
  | setCertificate => exact Only.answersArmAllowed (execSetCertificate_only ..) hs
  | challenge => exact Only.answersArmAllowed (execChallenge_only ..) hs
  | getMeasurements => exact Only.answersArmAllowed (execGetMeasurements_only ..) hs
  | keyExchange => exact Only.answersArmAllowed (execKeyExchange_only ..) hs
  | finish => exact Only.answersArmAllowed (execFinish_only ..) hs
  | endSession => exact Only.answersArmAllowed (execEndSession_only ..) hs
  | policyCoreFault => exact ⟨_, rfl, by simp [hs]⟩
  | fiArmKey => exact ⟨_, rfl, armAllowed_fiWrite (fun _ ht => armAllowed_fiKeyEff _ ht) _ _ hs⟩
  | fiDisarm => exact ⟨_, rfl, armAllowed_fiWrite (fun _ _ => by simp) _ _ hs⟩
  | fiArmTimeout => exact ⟨_, rfl, by simp [hs]⟩
  | fiGfEn => exact ⟨_, rfl, by simp [hs]⟩
  | fiFlEn => exact ⟨_, rfl, by simp [hs]⟩
  | fiPcieEn => exact ⟨_, rfl, by simp [hs]⟩
  | fiKeySequenceTimeout => exact ⟨_, rfl, by simp [hs]⟩
  | rngHealthRestored => exact ⟨_, rfl, by simp [hs]⟩
  | managementResetEnd => exact Only.answersArmAllowed (execManagementResetEnd_only ..) hs
  | configRegisterWrite => exact Only.answersArmAllowed (execConfigRegisterWrite_only ..) hs
  | aspmL1Exit => exact Only.answersArmAllowed (execAspmL1Exit_only ..) hs
  | cmbmscWrite => exact Only.answersArmAllowed (execCmbmscWrite_only ..) hs
  | deviceSelfTestComplete => exact Only.answersArmAllowed (execDeviceSelfTestComplete_only ..) hs
  | interruptCoalescingTimeout => exact Only.answersArmAllowed (execInterruptCoalescingTimeout_only ..) hs

/-- A step runs the front command on the rest of the queue, or nothing. -/
theorem step_armAllowed {s : State} (hs : armAllowed s.armMode = true) : ∃ t, step s = .next t ∧ armAllowed t.armMode = true := by
  cases hp : s.pending with
  | nil => exact ⟨s, step_nil hp, hs⟩
  | cons c rest =>
    rw [step_cons hp]
    exact exec_armAllowed c (s := { s with pending := rest }) hs

/-- Settles O50: every command keeps the arming of FI allowed, so every step does. -/
theorem fiArmedOnlyWhereAllowed : Obligations.FiArmedOnlyWhereAllowed := by
  intro s t hs ht
  obtain ⟨u, hu, hallowed⟩ := step_armAllowed (fiLegal_iff.mp hs)
  cases ht.symm.trans hu
  exact fiLegal_iff.mpr hallowed

end Sys2Proof.Machine
end

section
/-! SUPPORT. The fabric's links: training, flits, a link that falls silent, retraining. Rules R302 to R307, R314. -/
namespace Sys2Proof.Machine
-- One theorem at a time: a thread for each would exhaust the memory the check allows.
set_option Elab.async false

/-! Events of the fabric, which reach the part only in the modes that serve it (Table 2.1). -/

section
variable {s : State} (f : State → State)

/-- In a mode that serves the fabric an event has its effect. -/
theorem onFabric_on (hmode : fabricMode s.gen.mode = true) : onFabric f s = f s := if_pos hmode

/-- In every other mode it has none. -/
theorem onFabric_off (hmode : fabricMode s.gen.mode = false) : onFabric f s = s := if_neg (ne_true_of_eq_false hmode)

variable {f} {c : Instr} (hexec : exec c s = .next (onFabric f s))
include hexec

/-- What a command of the fabric answers in a mode that serves the fabric. -/
theorem next_of_onFabric {u : State} (hmode : fabricMode s.gen.mode = true) (hu : f s = u) : exec c s = .next u := by
  rw [hexec, onFabric_on f hmode, hu]

/-- A command of the fabric that finds no such mode, or nothing to do, changes nothing. -/
theorem same_of_onFabric (hidle : fabricMode s.gen.mode = false ∨ f s = s) : exec c s = .next s := by
  rw [hexec]
  rcases hidle with hmode | hsame
  · rw [onFabric_off f hmode]
  · rw [onFabric, hsame, ite_self]

end

/-! Training (R302, R304, R305, R314). -/

section
variable {k : Nat} {lanes : BitVec 4} {s : State}

/-- R304: the link is up on the lanes it trained on, and its peer is recorded. -/
def peerRecorded (k : Nat) (lanes : BitVec 4) (reversed : Bool) (uid node plink : Nat) (s : State) : State :=
  evFabric (updLink k (fun l => { l with peerUid := uid, peerNode := node, peerLink := plink, reversed := reversed }) (linkUp k lanes s))

/-- A link that trains on no lane, or on a single one, stays down. -/
theorem gareoLinkTrainedEff_noLanes (reversed : Bool) (uid node plink : Nat) (hlanes : lanesState lanes = 0) :
    gareoLinkTrainedEff k lanes reversed uid node plink s = s :=
  if_pos (.inr (.inr hlanes))

variable (husable : linkUsable k s = true) (hdown : (getLink k s).up = false)
include husable hdown

/-- R304: what a link that trains does next turns on whether its peer is known and whether discovery runs. -/
theorem gareoLinkTrainedEff_up (reversed : Bool) (uid node plink : Nat) (hlanes : lanesState lanes ≠ 0) :
    gareoLinkTrainedEff k lanes reversed uid node plink s = (let u := peerRecorded k lanes reversed uid node plink s;
      if ¬ knownUid uid s then startDiscovery u else if u.gf.discovering then floodHello u else topologyChanged u) :=
  if_neg (by simp [husable, hdown, hlanes])

/-- R305: a retraining counts, and ends in a link that is up or stays down. -/
theorem linkRetrainDoneEff_usable : linkRetrainDoneEff k lanes s =
    (let u := updLink k (fun l => { l with retrains := Nat.min (l.retrains + 1) 255 }) (linkUp k lanes s);
      evFabric (if lanesState lanes = 0 then u else topologyChanged u)) :=
  if_neg (by simp [husable, hdown])

end

/-! Silence (R305). -/

section
variable {k : Nat} {s : State}

/-- R305: a silent link goes down to retrain, and a coordinator sends new tables. -/
theorem linkFails_up (hup : (getLink k s).up = true) : linkFails k s =
    (let u := updLink k (fun l => { l with st := 1 }) (linkDown k s);
      releaseAll (if u.gf.isCoord then distribute u else u)) :=
  if_neg (not_not.mpr hup)

/-- A link that is down cannot fall silent. -/
theorem linkFails_down (hdown : (getLink k s).up = false) : linkFails k s = s := if_pos (ne_true_of_eq_false hdown)

/-- R305: a link that is down is retrained. -/
theorem linkRetryTimerEff_down (husable : linkUsable k s = true) (hst : (getLink k s).st = 0) :
    linkRetryTimerEff k s = evFabric (updLink k (fun l => { l with st := 1 }) s) :=
  if_pos ⟨husable, hst⟩

/-- A link in another state is left alone. -/
theorem linkRetryTimerEff_idle (hst : (getLink k s).st ≠ 0) : linkRetryTimerEff k s = s := if_neg fun h => hst h.2

end

/-! Flits (R303, R307). -/

section
variable {k : Nat} {b : List Byte} {s : State}

/-- A link reads back its change. -/
theorem getLink_updLink_self (f : GLink → GLink) (hk : k < s.gf.links.length) : getLink k (updLink k f s) = f (getLink k s) := by
  simp [getLink, updLink, hk]

/-- Bytes that are no flit are ignored. -/
theorem flitReceivedEff_malformed (hlen : b.length ≠ 256) : flitReceivedEff k b s = s := if_pos (.inr hlen)

/-- A flit on a link that is down is ignored. -/
theorem flitReceivedEff_down (hdown : (getLink k s).up = false) : flitReceivedEff k b s = s :=
  if_pos (.inl (ne_true_of_eq_false hdown))

variable (hup : (getLink k s).up = true) (hlen : b.length = 256)
include hup hlen

/-- R303: a flit of wrong CRC is counted and answered with NAK. -/
theorem flitReceivedEff_badCrc (hcrc : leAt b 252 4 ≠ (crc32c (b.take 252)).toNat) :
    flitReceivedEff k b s = flitNak k (updLink k (fun l => { l with crcErr := l.crcErr + 1 }) s) :=
  (if_neg (by simp [hup, hlen])).trans (if_pos hcrc)

/-- R303, R307: a good flit acknowledges, returns credits and delivers its data. -/
theorem flitReceivedEff_good (hcrc : leAt b 252 4 = (crc32c (b.take 252)).toNat) :
    flitReceivedEff k b s = takeDataFlit k b (drainLink k (takeCredit k (leAt b 1 1 % 4) (leAt b 6 2 % 1024)
      (takeAck k (leAt b 4 2 % 4096) ((leAt b 4 2).testBit 15) s))) :=
  (if_neg (by simp [hup, hlen])).trans (if_neg (not_not.mpr hcrc))

end

/-- The dispatch of FLIT_RECEIVED. -/
theorem exec_flitReceived (link : Fin 12) (bytes : List Byte) (s : State) :
    exec (.flitReceived link bytes) s = .next (onFabric (flitReceivedEff link.val bytes) s) := rfl

/-- The dispatch of GAREO_LINK_TRAINED. -/
theorem exec_gareoLinkTrained (link : Fin 12) (lanes : BitVec 4) (reversed : Bool) (uid node plink : Nat) (s : State) :
    exec (.gareoLinkTrained link lanes reversed uid node plink) s =
      .next (gareoLinkTrainedEff link.val lanes reversed uid node plink s) := rfl

/-- The dispatch of LINK_SILENCE_TIMEOUT. -/
theorem exec_linkSilenceTimeout (link : Fin 12) (s : State) : exec (.linkSilenceTimeout link) s = .next (linkFails link.val s) := rfl

/-- The dispatch of LINK_RETRAIN_DONE. -/
theorem exec_linkRetrainDone (link : Fin 12) (lanes : BitVec 4) (s : State) :
    exec (.linkRetrainDone link lanes) s = .next (linkRetrainDoneEff link.val lanes s) := rfl

/-- The dispatch of LINK_RETRY_TIMER. -/
theorem exec_linkRetryTimer (link : Fin 12) (s : State) : exec (.linkRetryTimer link) s = .next (linkRetryTimerEff link.val s) := rfl

/-! The statement. -/

/-- Settles O29: each clause is the one branch its hypotheses choose. -/
theorem linksAndFlits : Obligations.LinksAndFlits := by
  refine ⟨?_, ?_, ?_, ?_, ?_, ?_, ?_, ?_, ?_, ?_, ?_, ?_, ?_, ?_⟩
  · -- A peer of unknown unique ID.
    intro link lanes reversed uid node plink s husable hdown hlanes hknown
    refine ⟨_, exec_gareoLinkTrained .., (gareoLinkTrainedEff_only ..).mono (.ofAll (by decide +kernel)), ?_⟩
    rw [gareoLinkTrainedEff_up husable hdown _ _ _ _ hlanes]
    exact if_pos (by simp [hknown])
  · -- A known peer, with no discovery running.
    intro link lanes reversed uid node plink s husable hdown hlanes hknown hquiet
    refine ⟨_, exec_gareoLinkTrained .., (gareoLinkTrainedEff_only ..).mono (.ofAll (by decide +kernel)), ?_⟩
    rw [gareoLinkTrainedEff_up husable hdown _ _ _ _ hlanes]
    exact (if_neg (not_not.mpr hknown)).trans (if_neg (ne_true_of_eq_false hquiet))
  · -- No lanes.
    intro link lanes reversed uid node plink s hlanes
    rw [exec_gareoLinkTrained, gareoLinkTrainedEff_noLanes _ _ _ _ hlanes]
  · -- A flit of wrong CRC.
    intro link bytes s hmode hup hlen hcrc hlink
    have hexec := next_of_onFabric (exec_flitReceived ..) hmode (flitReceivedEff_badCrc hup hlen hcrc)
    refine ⟨_, hexec, (only_of_next (execFlitReceived_only ..) hexec).mono (.ofAll (by decide +kernel)), getLink_updLink_self _ hlink, ?_, rfl⟩
    simp [flitNak, emit, getLink_updLink_self _ hlink]
  · -- A good flit.
    intro link bytes s hmode hup hlen hcrc
    have hexec := next_of_onFabric (exec_flitReceived ..) hmode (flitReceivedEff_good hup hlen hcrc)
    exact ⟨_, hexec, (only_of_next (execFlitReceived_only ..) hexec).mono (.ofAll (by decide +kernel)), rfl⟩
  · -- Bytes that are no flit.
    intro link bytes s hlen
    exact same_of_onFabric (exec_flitReceived ..) (.inr (flitReceivedEff_malformed hlen))
  · -- A link falls silent.
    intro link s hup
    exact ⟨_, exec_linkSilenceTimeout .., (linkFails_only ..).mono (.ofAll (by decide +kernel)), linkFails_up hup⟩
  · -- A link that is down.
    intro link s hdown
    rw [exec_linkSilenceTimeout, linkFails_down hdown]
  · -- A retraining that fails.
    intro link lanes s husable hdown hlanes
    refine ⟨_, exec_linkRetrainDone .., (linkRetrainDoneEff_only ..).mono (.ofAll (by decide +kernel)), ?_⟩
    rw [linkRetrainDoneEff_usable husable hdown]
    exact congrArg evFabric (if_pos hlanes)
  · -- A retraining that restores the link.
    intro link lanes s husable hdown hlanes
    refine ⟨_, exec_linkRetrainDone .., (linkRetrainDoneEff_only ..).mono (.ofAll (by decide +kernel)), ?_⟩
    rw [linkRetrainDoneEff_usable husable hdown]
    exact congrArg evFabric (if_neg hlanes)
  · -- A link that is down is retrained.
    intro link s husable hst
    exact ⟨_, exec_linkRetryTimer .., (linkRetryTimerEff_only ..).mono (.ofAll (by decide +kernel)), linkRetryTimerEff_down husable hst⟩
  · -- A link in another state.
    intro link s hst
    rw [exec_linkRetryTimer, linkRetryTimerEff_idle hst]
  · -- A known peer, while discovery runs.
    intro link lanes reversed uid node plink s husable hdown hlanes hknown hrunning
    refine ⟨_, exec_gareoLinkTrained .., (gareoLinkTrainedEff_only ..).mono (.ofAll (by decide +kernel)), ?_⟩
    rw [gareoLinkTrainedEff_up husable hdown _ _ _ _ hlanes]
    exact (if_neg (not_not.mpr hknown)).trans (if_pos hrunning)
  · -- A mode without fabric, or a link that is down.
    intro link bytes s hidle
    exact same_of_onFabric (exec_flitReceived ..) (hidle.imp_right flitReceivedEff_down)

end Sys2Proof.Machine
end

section
/-! SUPPORT. Frame streams: acknowledgement, resend, resync. Rules R308 to R310, R327. -/
namespace Sys2Proof.Machine
-- One theorem at a time: a thread for each would exhaust the memory the check allows.
set_option Elab.async false

/-! Acknowledging what was delivered (R308). -/

section
variable {vc src : Nat} {s : State}

/-- R308: a stream with deliveries to acknowledge is acknowledged. -/
theorem ackTimerEff_due (hdue : 0 < (getRxStream vc src s).unacked) : ackTimerEff vc src s = sendAck vc src s := if_pos hdue

/-- A stream with none is left alone. -/
theorem ackTimerEff_idle (hnone : (getRxStream vc src s).unacked = 0) : ackTimerEff vc src s = s :=
  if_neg (not_lt.mpr hnone.le)

end

/-! Frames that are kept for resending (R308, R309, R310). -/

section
variable {vc dst xseq : Nat} {s : State}

/-- The kept frame of a stream with an XSEQ. -/
def keptFrame (vc dst xseq : Nat) (s : State) : Option TxFrame :=
  s.gf.txFrames.find? (fun x => decide (x.vc = vc ∧ x.dst = dst ∧ x.xseq = xseq))

/-- R309: a kept frame is resent at its timeout. -/
theorem frameResendTimeoutEff_kept {fr : TxFrame} (hkept : keptFrame vc dst xseq s = some fr) :
    frameResendTimeoutEff vc dst xseq s = releaseAll (resendFrame fr s) := by
  rw [keptFrame] at hkept
  simp only [frameResendTimeoutEff, hkept]

/-- A frame that is no longer kept has no timeout. -/
theorem frameResendTimeoutEff_gone (hgone : keptFrame vc dst xseq s = none) : frameResendTimeoutEff vc dst xseq s = s := by
  rw [keptFrame] at hgone
  simp only [frameResendTimeoutEff, hgone]

/-- R310: a NAK of cause 4 rejects a kept frame. -/
theorem nakEff_rejects {fr : TxFrame} (hkept : keptFrame vc dst xseq s = some fr) :
    nakEff vc dst xseq 4 s = releaseAll (frameRejected fr s) := by
  rw [keptFrame] at hkept
  simp only [nakEff, hkept, if_true]

/-- R310: a NAK of another cause has a kept frame resent. -/
theorem nakEff_resends {fr : TxFrame} {cause : Nat} (hkept : keptFrame vc dst xseq s = some fr) (hcause : cause ≠ 4) :
    nakEff vc dst xseq cause s = releaseAll (resendFrame fr s) := by
  rw [keptFrame] at hkept
  simp only [nakEff, hkept, if_neg hcause]

/-- R310: a NAK for a frame that is no longer kept is answered with RESYNC to the next one that is. -/
theorem nakEff_resyncs (hgone : keptFrame vc dst xseq s = none) (hsent : xseq < (getTxStream vc dst s).next) :
    nakEff vc dst xseq 0 s = rawSend 0 dst 0x02 0 [vc, nextLive vc dst xseq s] s := by
  rw [keptFrame] at hgone
  simp only [nakEff, hgone, hsent, and_self, if_true]

end

/-! RESYNC (R310). -/

section
variable {vc src nextXseq : Nat} {s : State}

/-- A RESYNC to an XSEQ that was delivered already is ignored. -/
theorem resyncEff_behind (hold : nextXseq < (getRxStream vc src s).next) : resyncEff vc src nextXseq s = s := if_pos hold

/-- R310: the stream goes on at the XSEQ named, without what was held before it. -/
theorem resyncEff_ahead (hnew : (getRxStream vc src s).next ≤ nextXseq) : resyncEff vc src nextXseq s =
    deliverHeld vc src 1025 (updRxStream vc src
      (fun x => { x with next := nextXseq, early := x.early.filter (fun e => !decide (e.xseq < nextXseq)) })
      (putBufs (((getRxStream vc src s).early.filter (fun e => decide (e.xseq < nextXseq))).flatMap (·.bufs)) s)) :=
  if_neg (not_lt.mpr hnew)

end

/-! The statement. -/

/-- Settles O30: each clause is the one branch its hypotheses choose. -/
theorem frameStreams : Obligations.FrameStreams := by
  refine ⟨?_, ?_, ?_, ?_, ?_, ?_, ?_, ?_, ?_, ?_, ?_, ?_⟩
  · -- Deliveries to acknowledge.
    intro vc src s hmode hdue
    have hexec : exec (.ackTimer vc src) s = .next _ := next_of_onFabric rfl hmode (ackTimerEff_due hdue)
    exact ⟨_, hexec, (only_of_next (execAckTimer_only ..) hexec).mono (.ofAll (by decide +kernel)), rfl⟩
  · -- None.
    intro vc src s hidle
    exact same_of_onFabric (f := ackTimerEff vc.val src) rfl (hidle.imp_right ackTimerEff_idle)
  · -- A kept frame times out.
    intro vc dst xseq fr s hmode hkept
    have hexec : exec (.frameResendTimeout vc dst xseq) s = .next _ := next_of_onFabric rfl hmode (frameResendTimeoutEff_kept hkept)
    exact ⟨_, hexec, (only_of_next (execFrameResendTimeout_only ..) hexec).mono (.ofAll (by decide +kernel)), rfl⟩
  · -- A frame that is no longer kept.
    intro vc dst xseq s hidle
    exact same_of_onFabric (f := frameResendTimeoutEff vc.val dst xseq) rfl (hidle.imp_right frameResendTimeoutEff_gone)
  · -- RESYNC moves the stream on.
    intro vc src nextXseq s hmode hnew
    have hexec : exec (.resync vc src nextXseq) s = .next _ := next_of_onFabric rfl hmode (resyncEff_ahead hnew)
    exact ⟨_, hexec, (only_of_next (execResync_only ..) hexec).mono (.ofAll (by decide +kernel)), rfl⟩
  · -- RESYNC backwards.
    intro vc src nextXseq s hidle
    exact same_of_onFabric (f := resyncEff vc.val src nextXseq) rfl (hidle.imp_right resyncEff_behind)
  · -- ACK removes the frames up to its XSEQ.
    intro vc src xseq s hmode
    have hexec : exec (.ack vc src xseq) s = .next (ackEff vc.val src xseq s) := next_of_onFabric rfl hmode rfl
    exact ⟨_, hexec, (only_of_next (execAck_only ..) hexec).mono (.ofAll (by decide +kernel)), rfl⟩
  · -- NAK of a kept frame.
    intro vc src xseq cause fr s hmode hkept hcause
    have hexec : exec (.nak vc src xseq cause) s = .next _ := next_of_onFabric rfl hmode (nakEff_resends hkept hcause)
    exact ⟨_, hexec, (only_of_next (execNak_only ..) hexec).mono (.ofAll (by decide +kernel)), rfl⟩
  · -- NAK that rejects a frame.
    rintro vc src xseq _ fr s hmode hkept rfl
    have hexec : exec (.nak vc src xseq 4) s = .next _ := next_of_onFabric rfl hmode (nakEff_rejects hkept)
    exact ⟨_, hexec, (only_of_next (execNak_only ..) hexec).mono (.ofAll (by decide +kernel)), rfl⟩
  · -- NAK for a frame that is no longer kept.
    rintro vc src xseq _ s hmode hgone rfl hsent
    have hexec : exec (.nak vc src xseq 0) s = .next _ := next_of_onFabric rfl hmode (nakEff_resyncs hgone hsent)
    exact ⟨_, hexec, (only_of_next (execNak_only ..) hexec).mono (.ofAll (by decide +kernel)), rfl⟩
  · -- NAK in a mode without fabric.
    intro vc src xseq cause s hmode
    exact same_of_onFabric (f := nakEff vc.val src xseq cause) rfl (.inl hmode)
  · -- ACK in a mode without fabric.
    intro vc src xseq s hmode
    exact same_of_onFabric (f := ackEff vc.val src xseq) rfl (.inl hmode)

end Sys2Proof.Machine
end

section
/-! SUPPORT. Discovery, link-state reports, routing tables and epochs. Rules R312 to R316, R49. -/
namespace Sys2Proof.Machine
-- One theorem at a time: a thread for each would exhaust the memory the check allows.
set_option Elab.async false

/-! Candidates (R312, R313). -/

section
variable {k uid candUid candDist : Nat} {s : State}

/-- HELLO on a link that is down is ignored. -/
theorem helloEff_down (hdown : (getLink k s).up = false) : helloEff k uid candUid candDist s = s :=
  if_pos (ne_true_of_eq_false hdown)

/-- R312: a better candidate is taken, one hop further away, and told on. -/
theorem helloEff_better (hup : (getLink k s).up = true)
    (hbetter : betterCand candUid (candDist + 1) (updLink k (fun l => { l with peerUid := uid }) s) = true) :
    helloEff k uid candUid candDist s =
      (let u : State := updLink k (fun l => { l with peerUid := uid }) s
      let v : State := { u with gf := { u.gf with
        candUid := candUid, candDist := candDist + 1, isCoord := false, discovering := true
        discAt := if u.gf.discovering then u.gf.discAt else now u } }
      emit (.record v.gf.coordNode 0x30 (lsrFields v)) (floodHello v)) :=
  (if_neg (not_not.mpr hup)).trans (if_pos hbetter)

/-- R312: of a candidate that is no better only the neighbour is noted. -/
theorem helloEff_worse (hup : (getLink k s).up = true)
    (hworse : betterCand candUid (candDist + 1) (updLink k (fun l => { l with peerUid := uid }) s) = false) :
    helloEff k uid candUid candDist s = updLink k (fun l => { l with peerUid := uid }) s :=
  (if_neg (not_not.mpr hup)).trans (if_neg (ne_true_of_eq_false hworse))

/-- R313: a node that is still its own candidate after the quiet time is the coordinator. -/
theorem discoveryQuietTimeoutEff_own (hrunning : s.gf.discovering = true) (hown : s.gf.candUid = s.fuses.uid) :
    discoveryQuietTimeoutEff s = distribute { s with gf := { s.gf with isCoord := true, missed := 0 } } := if_pos ⟨hrunning, hown⟩

/-- The quiet time of a node that does not discover, or follows another candidate, has no effect. -/
theorem discoveryQuietTimeoutEff_other (hother : s.gf.discovering = false ∨ s.gf.candUid ≠ s.fuses.uid) :
    discoveryQuietTimeoutEff s = s :=
  if_neg fun ⟨hrunning, hown⟩ => hother.elim (ne_true_of_eq_false · hrunning) (· hown)

end

/-! Link-state reports and held-out nodes (R313, R316). -/

section
variable {uid : Nat} {node pref : Option Nat} {links : List LinkReport} {s : State}

/-- R313: the coordinator keeps a report and distributes again. -/
theorem lsrEff_coordinator (hcoord : (heldOutBy uid node s).gf.isCoord = true) : lsrEff uid node pref links s =
    (let u := heldOutBy uid node s
    distribute { u with gf := { u.gf with lsrs := insLsr ⟨uid, node, pref, links⟩ (u.gf.lsrs.filter (fun r => r.uid != uid)) } }) :=
  if_pos hcoord

/-- Another node only learns from it whether its own ID is taken. -/
theorem lsrEff_other (hother : (heldOutBy uid node s).gf.isCoord = false) : lsrEff uid node pref links s = heldOutBy uid node s :=
  if_neg (ne_true_of_eq_false hother)

/-- R316: a node whose ID a node of lower unique ID reports as its own is held out. -/
theorem heldOutBy_taken (hsame : s.gf.node = node) (hnode : node ≠ none) (hlower : uid < s.fuses.uid)
    (hnew : s.gf.heldOut = false) :
    heldOutBy uid node s = evFabric (flagOn Reg.GF_ERR.HELDOUT { s with gf := { s.gf with heldOut := true } }) :=
  if_pos ⟨hsame ▸ Option.isSome_iff_ne_none.mpr hnode, hsame, hlower, ne_true_of_eq_false hnew⟩

/-- Raising the fabric's event leaves the fabric's own state alone. -/
@[simp] theorem evFabric_gf (s : State) : (evFabric s).gf = s.gf := (evFabric_only s).keeps .gf rfl

/-- Raising the fabric's event leaves GF_ERR alone. -/
theorem isOn_heldOut_evFabric_flagOn (s : State) : isOn Reg.GF_ERR.HELDOUT (evFabric (flagOn Reg.GF_ERR.HELDOUT s)) = true :=
  isOn_of_only_flagOn (evFabric_only _) (by decide) (by decide)

/-- R316, R49: a held-out node that management reassigns gives up its ID and discovers again. -/
theorem gfNodeReassignEff_heldOut {who : Writer} (hwho : who ≠ .host) (hopen : setupOpen who s = true)
    (hown : mayWrite who Reg.GF_NODE.REASSIGN.reg s = true) (hheld : s.gf.heldOut = true) :
    gfNodeReassignEff who s = startDiscovery { s with gf := { s.gf with node := none, heldOut := false } } := by
  simp only [gfNodeReassignEff, hwho, hopen, hown, hheld, not_true_eq_false, or_false, if_false, if_true]

/-- A node that is not held out keeps its ID. -/
theorem gfNodeReassignEff_free {who : Writer} (hwho : who ≠ .host) (hopen : setupOpen who s = true)
    (hown : mayWrite who Reg.GF_NODE.REASSIGN.reg s = true) (hfree : s.gf.heldOut = false) : gfNodeReassignEff who s = s := by
  simp only [gfNodeReassignEff, hwho, hopen, hown, hfree, not_true_eq_false, or_false, if_false, Bool.false_eq_true]

/-- R49: the host may not reassign. -/
theorem gfNodeReassignEff_host (hopen : setupOpen .host s = true) :
    gfNodeReassignEff .host s = genErr Reg.GEN_ERR.OWNWR Reg.GF_NODE.REASSIGN.reg .host s :=
  (if_neg (not_not.mpr hopen)).trans (if_pos (.inl rfl))

end

/-! Tables and epochs (R315). -/

section
variable {s : State}

/-- R315: the table set kept aside comes into force with its epoch. -/
theorem epochApplyEff_due {num at_ : Nat} (hdue : s.gf.epochAt = some (num, at_)) (haside : s.gf.asideEpoch = num) : epochApplyEff s =
    (let u := advance (at_ - now s) s
    let v := if u.gf.discovering then setSat Reg.GF_DISC.LAST ((now u - u.gf.discAt) / 1000000) u else u
    { v with gf := { v.gf with
      routes := v.gf.aside, epoch := num, epochAt := none, discovering := false
      node := (match localNode u.gf.aside with | some n => some n | none => u.gf.node) } }) := by
  simp only [epochApplyEff, hdue, haside, ne_eq, not_true_eq_false, if_false] <;> rfl

/-- With no epoch announced nothing comes into force. -/
theorem epochApplyEff_none (hnone : s.gf.epochAt = none) : epochApplyEff s = s := by
  simp only [epochApplyEff, hnone]

end

/-! The coordinator's heartbeat (R314). -/

section
variable {answered : Bool} {s : State}

/-- R314: a node that is not the coordinator asks it, and counts what it does not answer. -/
theorem coordinatorHeartbeatEff_node (hnode : s.gf.isCoord = false) (hmode : fabricMode s.gen.mode = true) :
    coordinatorHeartbeatEff answered s =
      sendFrame 0 s.gf.coordNode 0x03 0 [] { s with gf := { s.gf with missed := if answered then 0 else s.gf.missed + 1 } } :=
  if_neg (by simp [hnode, hmode])

/-- The coordinator does not ask itself. -/
theorem coordinatorHeartbeatEff_coordinator (hcoord : s.gf.isCoord = true) : coordinatorHeartbeatEff answered s = s := if_pos (.inl hcoord)

/-- R314: three heartbeats without answer start discovery. -/
theorem coordinatorLossEff_lost (hnode : s.gf.isCoord = false) (hmissed : 3 ≤ s.gf.missed) :
    coordinatorLossEff s = startDiscovery { s with gf := { s.gf with missed := 0 } } := if_pos ⟨ne_true_of_eq_false hnode, hmissed⟩

/-- The coordinator, and a node that missed fewer, go on. -/
theorem coordinatorLossEff_alive (halive : s.gf.isCoord = true ∨ s.gf.missed < 3) : coordinatorLossEff s = s :=
  if_neg fun ⟨hnode, hmissed⟩ => halive.elim hnode (not_lt.mpr hmissed)

end

/-! The statement. -/

/-- Settles O31: each clause is the one branch its hypotheses choose. -/
theorem discoveryAndRouting : Obligations.DiscoveryAndRouting := by
  refine ⟨?_, ?_, ?_, ?_, ?_, ?_, ?_, ?_, ?_, ?_, ?_, ?_, ?_, ?_, ?_, ?_, ?_, ?_, ?_⟩
  · -- A better candidate.
    intro link uid candUid candDist ep pref s hmode hup hbetter
    have hexec : exec (.hello link uid candUid candDist ep pref) s = .next _ := next_of_onFabric rfl hmode (helloEff_better hup hbetter)
    exact ⟨_, hexec, (only_of_next (execHello_only link uid candUid candDist ep pref s) hexec).mono (.ofAll (by decide +kernel)), rfl⟩
  · -- A candidate that is no better.
    intro link uid candUid candDist ep pref s hmode hup hworse
    have hexec : exec (.hello link uid candUid candDist ep pref) s = .next _ := next_of_onFabric rfl hmode (helloEff_worse hup hworse)
    exact ⟨_, hexec, (only_of_next (execHello_only link uid candUid candDist ep pref s) hexec).mono (.ofAll (by decide +kernel)), rfl⟩
  · -- HELLO in a mode without fabric, or on a link that is down.
    intro link uid candUid candDist ep pref s hidle
    exact same_of_onFabric (f := helloEff link.val uid candUid candDist) rfl (hidle.imp_right helloEff_down)
  · -- The quiet time of a node that is its own candidate.
    intro s hmode hrunning hown
    have hexec : exec .discoveryQuietTimeout s = .next _ := next_of_onFabric rfl hmode (discoveryQuietTimeoutEff_own hrunning hown)
    exact ⟨_, hexec, (only_of_next (execDiscoveryQuietTimeout_only ..) hexec).mono (.ofAll (by decide +kernel)), rfl⟩
  · -- The quiet time of any other.
    intro s hidle
    exact same_of_onFabric (f := discoveryQuietTimeoutEff) rfl (hidle.imp_right discoveryQuietTimeoutEff_other)
  · -- A report reaches the coordinator.
    intro uid node pref links s hmode hcoord
    have hexec : exec (.lsr uid node pref links) s = .next _ := next_of_onFabric rfl hmode (lsrEff_coordinator hcoord)
    exact ⟨_, hexec, (only_of_next (execLsr_only ..) hexec).mono (.ofAll (by decide +kernel)), rfl⟩
  · -- A report reaches another node.
    intro uid node pref links s hmode hother
    have hexec : exec (.lsr uid node pref links) s = .next _ := next_of_onFabric rfl hmode (lsrEff_other hother)
    exact ⟨_, hexec, (only_of_next (execLsr_only ..) hexec).mono (.ofAll (by decide +kernel)), rfl⟩
  · -- A table of a new epoch is kept aside.
    intro ep first entries s hmode
    have hexec : exec (.table ep first entries) s = .next (tableEff ep first entries s) := next_of_onFabric rfl hmode rfl
    exact ⟨_, hexec, (only_of_next (execTable_only ..) hexec).mono (.ofAll (by decide +kernel)), rfl, rfl, rfl, rfl⟩
  · -- EPOCH names the time.
    intro num atNs s hmode
    have hexec : exec (.epoch num atNs) s = .next { s with gf := { s.gf with epochAt := some (num, atNs) } } :=
      next_of_onFabric rfl hmode rfl
    exact ⟨_, hexec, (only_of_next (execEpoch_only ..) hexec).mono (.ofAll (by decide +kernel)), rfl⟩
  · -- The time that EPOCH named.
    intro num at_ s hmode hdue haside
    have hexec : exec .epochApply s = .next _ := next_of_onFabric rfl hmode (epochApplyEff_due hdue haside)
    exact ⟨_, hexec, (only_of_next (execEpochApply_only ..) hexec).mono (.ofAll (by decide +kernel)), rfl⟩
  · -- No epoch announced.
    intro s hidle
    exact same_of_onFabric (f := epochApplyEff) rfl (hidle.imp_right epochApplyEff_none)
  · -- A node asks its coordinator.
    intro answered s hnode hmode
    exact ⟨_, rfl, (only_of_next (execCoordinatorHeartbeat_only ..) rfl).mono (.ofAll (by decide +kernel)),
      coordinatorHeartbeatEff_node hnode hmode⟩
  · -- The coordinator asks nobody.
    intro answered s hcoord
    exact congrArg Host.Outcome.next (coordinatorHeartbeatEff_coordinator hcoord)
  · -- The third heartbeat without answer.
    intro s hmode hnode hmissed
    have hexec : exec .coordinatorLoss s = .next _ := next_of_onFabric rfl hmode (coordinatorLossEff_lost hnode hmissed)
    exact ⟨_, hexec, (only_of_next (execCoordinatorLoss_only ..) hexec).mono (.ofAll (by decide +kernel)), rfl⟩
  · -- Fewer of them.
    intro s hidle
    exact same_of_onFabric (f := coordinatorLossEff) rfl (hidle.imp_right coordinatorLossEff_alive)
  · -- A held-out node is reassigned.
    intro who s hwho hopen hown hheld
    exact ⟨_, rfl, (only_of_next (execGfNodeReassign_only ..) rfl).mono (.ofAll (by decide +kernel)),
      gfNodeReassignEff_heldOut hwho hopen hown hheld⟩
  · -- The host reassigns.
    rintro who s rfl hopen
    exact congrArg Host.Outcome.next (gfNodeReassignEff_host hopen)
  · -- A node of lower unique ID reports this node's ID.
    intro uid node pref links s hmode hother hsame hnode hlower hnew
    have htaken := heldOutBy_taken hsame hnode hlower hnew
    have hstill : (heldOutBy uid node s).gf.isCoord = false := by rw [htaken, evFabric_gf]; exact hother
    have hexec : exec (.lsr uid node pref links) s = .next _ := next_of_onFabric rfl hmode ((lsrEff_other hstill).trans htaken)
    refine ⟨_, hexec, (only_of_next (execLsr_only ..) hexec).mono (.ofAll (by decide +kernel)), ?_, isOn_heldOut_evFabric_flagOn _, ?_⟩
    · rw [evFabric_gf]; rfl
    · rw [evFabric_gf]; rfl
  · -- A node that is not held out.
    intro who s hwho hopen hown hfree
    exact congrArg Host.Outcome.next (gfNodeReassignEff_free hwho hopen hown hfree)

end Sys2Proof.Machine
end

section
/-! SUPPORT. Device time over the fabric. Rules R318 to R320. -/
namespace Sys2Proof.Machine
-- One theorem at a time: a thread for each would exhaust the memory the check allows.
set_option Elab.async false

/-! The exchange with the parent (R318). -/

section
variable {s : State}

/-- R318: a node that is not the time master asks its parent for the time. -/
theorem timeExchangeTimerEff_node {p : Nat} (hnode : timeMaster s = false) (hmode : fabricMode s.gen.mode = true)
    (hparent : timeParent s = some p) : timeExchangeTimerEff s = sendFrame 0 p 0x04 0 [] s := by
  simp [timeExchangeTimerEff, hnode, hmode, hparent]

/-- The master asks nobody. -/
theorem timeExchangeTimerEff_master (hmaster : timeMaster s = true) : timeExchangeTimerEff s = s := if_pos (.inl hmaster)

end

/-! A completed exchange (R319, R320). -/

section
variable {t1 t2 t3 t4 masterStep : Nat} {s : State}

/-- R320: a step of the master's time is taken over in whole slots. -/
def masterStepped (masterStep : Nat) (s : State) : State :=
  if masterStep < 4000 then s else timeStep (masterStep - masterStep % 4000) s

/-- A step of less than a slot is none. -/
theorem masterStepped_small (hsmall : masterStep < 4000) : masterStepped masterStep s = s := if_pos hsmall

/-- R319: what a completed exchange with offset `o` sets, before device time is corrected. -/
def offsetNoted (o : Int) (good : Nat) (s : State) : State :=
  let v := setF Reg.GF_TOFFS.OFFSET (offsetField o) (setF Reg.GF_TIMECTL.SYNCED (if 3 ≤ good then 1 else 0) s)
  { v with gf := { v.gf with goodEx := good } }

/-- R319: the good exchanges in a row, after one of offset `o`. -/
def goodExchanges (o : Int) (s : State) : Nat := if -20 ≤ o ∧ o ≤ 20 then s.gf.goodEx + 1 else 0

/-- R319: a node that is not the master notes the offset and corrects its time. -/
theorem timeEff_node (hnode : timeMaster (masterStepped masterStep s) = false) : timeEff t1 t2 t3 t4 masterStep s =
    correctOffset (timeOffset t1 t2 t3 t4) (offsetNoted (timeOffset t1 t2 t3 t4)
      (goodExchanges (timeOffset t1 t2 t3 t4) (masterStepped masterStep s)) (masterStepped masterStep s)) :=
  if_neg (ne_true_of_eq_false hnode)

/-- The master itself corrects nothing. -/
theorem timeEff_master (hmaster : timeMaster (masterStepped masterStep s) = true) :
    timeEff t1 t2 t3 t4 masterStep s = masterStepped masterStep s := if_pos hmaster

/-- R319: a node that is ahead by a slot at most slows down. -/
theorem correctOffset_ahead {o : Int} (hahead : o < 0) (hslot : -4000 ≤ o) :
    correctOffset o s = { s with gf := { s.gf with slew := o } } :=
  (if_neg (not_le.mpr hahead)).trans (if_pos hslot)

/-- An exchange outside the 20 ns starts the count of good ones again. -/
theorem goodExchanges_bad {o : Int} (hbad : o < -20) : goodExchanges o s = 0 := if_neg (by omega)

/-- The field keeps the 16 bits of the offset. -/
theorem offsetField_lt (o : Int) : offsetField o < 2 ^ 16 := by
  unfold offsetField
  omega

end

/-! The statement. -/

/-- Settles O32: each clause is the one branch its hypotheses choose. -/
theorem deviceTime : Obligations.DeviceTime := by
  refine ⟨?_, ?_, ?_, ?_, ?_, ?_⟩
  · -- A node asks its parent.
    intro p s hnode hmode hparent
    exact ⟨_, rfl, (only_of_next (execTimeExchangeTimer_only ..) rfl).mono (.ofAll (by decide +kernel)),
      timeExchangeTimerEff_node hnode hmode hparent⟩
  · -- The master asks nobody.
    intro s hmaster
    exact congrArg Host.Outcome.next (timeExchangeTimerEff_master hmaster)
  · -- An exchange completes.
    rintro t1 t2 t3 t4 masterStep _ _ _ s hmode rfl hnode rfl rfl
    have hexec : exec (.time t1 t2 t3 t4 masterStep) s = .next _ := next_of_onFabric rfl hmode (timeEff_node hnode)
    exact ⟨_, hexec, (only_of_next (execTime_only ..) hexec).mono (.ofAll (by decide +kernel)), rfl⟩
  · -- An exchange with a node that is ahead by a slot at most.
    intro t1 t2 t3 t4 masterStep s hmode hsmall hnode hbad hslot
    have hsame : masterStepped masterStep s = s := masterStepped_small hsmall
    have heff := timeEff_node (t1 := t1) (t2 := t2) (t3 := t3) (t4 := t4) (hsame.symm ▸ hnode)
    rw [hsame, goodExchanges_bad hbad, correctOffset_ahead (by omega) hslot] at heff
    have hexec : exec (.time t1 t2 t3 t4 masterStep) s = .next _ := next_of_onFabric rfl hmode heff
    refine ⟨_, hexec, (only_of_next (execTime_only ..) hexec).mono (.ofAll (by decide +kernel)), rfl, rfl, ?_, ?_, rfl⟩
    · exact (getF_setF_ne _ _ (by decide)).trans (getF_setF_self _ _ _)
    · exact (getF_setF_self _ _ _).trans (Nat.mod_eq_of_lt (offsetField_lt _))
  · -- The master corrects nothing.
    intro t1 t2 t3 t4 masterStep s hmode hmaster
    have hexec : exec (.time t1 t2 t3 t4 masterStep) s = .next _ := next_of_onFabric rfl hmode (timeEff_master hmaster)
    exact ⟨_, hexec, (only_of_next (execTime_only ..) hexec).mono (.ofAll (by decide +kernel)), rfl⟩
  · -- A mode without fabric.
    intro t1 t2 t3 t4 masterStep s hmode
    exact same_of_onFabric (f := timeEff t1 t2 t3 t4 masterStep) rfl (.inl hmode)

end Sys2Proof.Machine
end

section
/-! SUPPORT. Remote reads, writes and management frames. Rules R308, R310, R317, R72, R363. -/
namespace Sys2Proof.Machine
-- One theorem at a time: a thread for each would exhaust the memory the check allows.
set_option Elab.async false

/-! A received frame's checks (R310) and its place in its stream (R308). -/

section
variable {h : FrameHdr} {lenGood : Bool} {c : Instr} {s : State}

/-- A mode without fabric receives no frame. -/
theorem receive_off (hmode : fabricMode s.gen.mode = false) : receive h lenGood c s = s := if_pos (ne_true_of_eq_false hmode)

variable (hmode : fabricMode s.gen.mode = true)
include hmode

/-- R310: a frame of wrong length, or whose trailer does not agree, is discarded. -/
theorem receive_badLength (hbad : lenGood = false ∨ h.trailerAgrees = false) :
    receive h lenGood c s = frameDiscarded h.vc h.src h.xseq true s :=
  (if_neg (not_not.mpr hmode)).trans (if_pos (hbad.imp ne_true_of_eq_false ne_true_of_eq_false))

variable (hlen : lenGood = true) (htrailer : h.trailerAgrees = true)
include hlen htrailer

/-- R310: so is a frame of wrong FCRC. -/
theorem receive_badFcrc (hfcrc : h.fcrcOk = false) : receive h lenGood c s = frameDiscarded h.vc h.src h.xseq false s := by
  simp only [receive, hmode, hlen, htrailer, hfcrc, not_true_eq_false, or_self, Bool.false_eq_true, not_false_eq_true, if_false, if_true]

variable (hfcrc : h.fcrcOk = true) (hlines : h.linesOk = true)
include hfcrc hlines

/-- A frame that passes its checks is handled by its place in its stream. -/
theorem receive_checked : receive h lenGood c s =
    if h.xseq < (getRxStream h.vc h.src s).next then sendAck h.vc h.src s
    else if h.xseq > (getRxStream h.vc h.src s).next then holdEarly h c s
    else deliverHeld h.vc h.src 1025 (frameRun c (delivered h.vc h.src s)) := by
  simp only [receive, hmode, hlen, htrailer, hfcrc, hlines, not_true_eq_false, or_self, if_false]

/-- R308: the next frame of its stream is delivered and acts, then the held frames that follow. -/
theorem receive_next (hnext : h.xseq = (getRxStream h.vc h.src s).next) :
    receive h lenGood c s = deliverHeld h.vc h.src 1025 (frameRun c (delivered h.vc h.src s)) :=
  (receive_checked hmode hlen htrailer hfcrc hlines).trans
    ((if_neg (not_lt.mpr hnext.ge)).trans (if_neg (not_lt.mpr hnext.le)))

/-- R308: a repeat is only acknowledged. -/
theorem receive_repeat (hold : h.xseq < (getRxStream h.vc h.src s).next) : receive h lenGood c s = sendAck h.vc h.src s :=
  (receive_checked hmode hlen htrailer hfcrc hlines).trans (if_pos hold)

/-- R308: an early frame is held. -/
theorem receive_early (hearly : (getRxStream h.vc h.src s).next < h.xseq) : receive h lenGood c s = holdEarly h c s :=
  (receive_checked hmode hlen htrailer hfcrc hlines).trans ((if_neg (not_lt.mpr hearly.le)).trans (if_pos hearly))

end

/-- R310: a frame discarded for its length sets GF_ERR.LENERR. -/
theorem isOn_lenErr_frameDiscarded (vc src xseq : Nat) (s : State) :
    isOn Reg.GF_ERR.LENERR (frameDiscarded vc src xseq true s) = true :=
  isOn_of_only_flagOn (sendNak_only ..) (by decide) (by decide)

/-! The statement. -/

/-- Settles O33: each frame takes the branch of `receive` that its checks and its XSEQ choose. -/
theorem receivedFrames : Obligations.ReceivedFrames := by
  refine ⟨?_, ?_, ?_, ?_, ?_, ?_, ?_, ?_, ?_⟩
  · -- RDREQ, next in its stream.
    intro h offset len s hlen hmin hmax hmode htrailer hfcrc hlines hnext
    exact ⟨_, rfl, (only_of_next (execRdreq_only ..) rfl).mono (.ofAll (by decide +kernel)),
      receive_next hmode (by simp [hlen, hmin, hmax]) htrailer hfcrc hlines hnext⟩
  · -- RDREQ of wrong length or trailer.
    intro h offset len s hmode hbad
    have hdiscarded : receive h (h.len == 16 && decide (1 ≤ len ∧ len ≤ 4096)) (.rdreq h offset len) s =
        frameDiscarded h.vc h.src h.xseq true s := by
      refine receive_badLength hmode ?_
      rw [← or_assoc, ← or_assoc] at hbad
      refine hbad.imp_left fun hwrong => ?_
      simp only [Bool.and_eq_false_iff, beq_eq_false_iff_ne, decide_eq_false_iff_not]
      omega
    exact ⟨_, rfl, (only_of_next (execRdreq_only ..) rfl).mono (.ofAll (by decide +kernel)), hdiscarded,
      (congrArg (isOn Reg.GF_ERR.LENERR) hdiscarded).trans (isOn_lenErr_frameDiscarded ..)⟩
  · -- RDREQ again.
    intro h offset len s hlen hmin hmax hmode htrailer hfcrc hlines hold
    exact ⟨_, rfl, (only_of_next (execRdreq_only ..) rfl).mono (.ofAll (by decide +kernel)),
      receive_repeat hmode (by simp [hlen, hmin, hmax]) htrailer hfcrc hlines hold⟩
  · -- RDRESP, next in its stream, of the length that was asked for.
    intro h data s hlen hasked hmode htrailer hfcrc hlines hnext
    refine ⟨_, rfl, (only_of_next (execRdresp_only ..) rfl).mono (.ofAll (by decide +kernel)),
      receive_next hmode ?_ htrailer hfcrc hlines hnext⟩
    cases hpend : pendOf h.tag s with
    | none => simp [hlen]
    | some x => simpa [hlen, hpend] using hasked
  · -- WRITE, next in its stream.
    intro h offset data s hlen hmin hmax hmode htrailer hfcrc hlines hnext
    exact ⟨_, rfl, (only_of_next (execWriteFrame_only ..) rfl).mono (.ofAll (by decide +kernel)),
      receive_next hmode (by simp [hlen, hmin, hmax]) htrailer hfcrc hlines hnext⟩
  · -- WRITE of wrong FCRC.
    intro h offset data s hlen hmin hmax hmode htrailer hfcrc
    exact ⟨_, rfl, (only_of_next (execWriteFrame_only ..) rfl).mono (.ofAll (by decide +kernel)),
      receive_badFcrc hmode (by simp [hlen, hmin, hmax]) htrailer hfcrc⟩
  · -- MGMT, next in its stream.
    intro h spdm descs s hmin hmax hmode htrailer hfcrc hlines hnext
    exact ⟨_, rfl, (only_of_next (execMgmt_only ..) rfl).mono (.ofAll (by decide +kernel)),
      receive_next hmode (by simp [hmin, hmax]) htrailer hfcrc hlines hnext⟩
  · -- MGMT in a mode without fabric.
    intro h spdm descs s hmode
    exact congrArg Host.Outcome.next (receive_off hmode)
  · -- WRITE ahead of its turn.
    intro h offset data s hlen hmin hmax hmode htrailer hfcrc hlines hearly
    exact ⟨_, rfl, (only_of_next (execWriteFrame_only ..) rfl).mono (.ofAll (by decide +kernel)),
      receive_early hmode (by simp [hlen, hmin, hmax]) htrailer hfcrc hlines hearly⟩

end Sys2Proof.Machine
end

section
/-! SUPPORT. What a standby does with mirrored records. Rules R322, R326, R327, R227, R244. -/
namespace Sys2Proof.Machine
-- One theorem at a time: a thread for each would exhaust the memory the check allows.
set_option Elab.async false

/-! Records of the stream (R322, R326, R327). -/

section
variable {s : State}

/-- A member that is no standby ignores granules. -/
theorem mirrorGranulesEff_off {g : GrainRec} (hoff : standbyOn s = false) : mirrorGranulesEff g s = s :=
  if_pos (ne_true_of_eq_false hoff)

/-- R326: a standby keeps granules in Gareo receive buffers until their commit record. -/
theorem mirrorGranulesEff_held {g : GrainRec} {is : List Nat} {u : State} (hon : standbyOn s = true)
    (hbufs : bpAlloc 4 (Nat.max 1 (ceilDiv g.glen 8)) false s = (some is, u)) :
    mirrorGranulesEff g s = recordIn (updTw (fun x => { x with heldGranules := x.heldGranules ++ [(g, is)] }) u) := by
  simp only [mirrorGranulesEff, hon, hbufs, not_true_eq_false, if_false]

section
variable {csn : Nat} {deltas : List GrainRec}

/-- A member that is no standby ignores commit records. -/
theorem mirrorCommitRecordEff_off (hoff : standbyOn s = false) : mirrorCommitRecordEff csn deltas s = s :=
  if_pos (ne_true_of_eq_false hoff)

/-- R327: a commit record newer than the last one applied is applied. -/
theorem mirrorCommitRecordEff_new (hon : standbyOn s = true) (hnew : (recordIn s).tw.ack < csn) :
    mirrorCommitRecordEff csn deltas s = applyRecord csn deltas (recordIn s) :=
  (if_neg (not_not.mpr hon)).trans (if_neg (not_le.mpr hnew))

/-- R327: an older one is only counted in. -/
theorem mirrorCommitRecordEff_old (hon : standbyOn s = true) (hold : csn ≤ (recordIn s).tw.ack) :
    mirrorCommitRecordEff csn deltas s = recordIn s :=
  (if_neg (not_not.mpr hon)).trans (if_pos hold)

end

/-! Repairs (R227). -/

section
variable {g : GrainRec} {lostCsn : Nat}

/-- A member without a mirror takes part in no repair. -/
theorem mirrorRepairEff_off {isAnswer : Bool} (hoff : repairOn s = false) : mirrorRepairEff isAnswer g lostCsn s = s :=
  if_pos (ne_true_of_eq_false hoff)

/-- R227: a request is answered with the stored form. -/
theorem mirrorRepairEff_request (hon : repairOn s = true) : mirrorRepairEff false g lostCsn s =
    sendFrame 1 (recordIn s).tw.peer 0x10 0 [7]
      (emit (.record (recordIn s).tw.peer 7 (grainHead g.nsid g.grain (recordIn s))) (recordIn s)) :=
  if_neg (not_not.mpr hon)

/-- R227: an answer no older than the loss restores a grain that is still lost. -/
theorem mirrorRepairEff_answer (hon : repairOn s = true) (hlost : (getEntry g.nsid g.grain (recordIn s)).lost = true)
    (hstored : (getEntry g.nsid g.grain (recordIn s)).staged = false) (hfresh : lostCsnOf g lostCsn (recordIn s) ≤ g.csn) :
    mirrorRepairEff true g lostCsn s = storeRepair g (getEntry g.nsid g.grain (recordIn s)) (recordIn s) := by
  simp only [mirrorRepairEff, hon, hlost, hstored, hfresh, Bool.false_eq_true, not_true_eq_false, not_false_eq_true, and_self,
    if_false, if_true]

end
end

/-! The statement. -/

/-- Settles O34: each clause is the one branch its hypotheses choose. -/
theorem mirroredRecords : Obligations.MirroredRecords := by
  refine ⟨?_, ?_, ?_, ?_, ?_, ?_, ?_, ?_, ?_, ?_, ?_, ?_, ?_, ?_, ?_, ?_⟩
  · -- Granules at a standby.
    intro g is u s hon hbufs
    exact ⟨_, rfl, (only_of_next (execMirrorGranules_only ..) rfl).mono (.ofAll (by decide +kernel)), mirrorGranulesEff_held hon hbufs⟩
  · -- Granules elsewhere.
    intro g s hoff
    exact congrArg Host.Outcome.next (mirrorGranulesEff_off hoff)
  · -- A new commit record.
    intro csn deltas s hon hnew
    exact ⟨_, rfl, (only_of_next (execMirrorCommitRecord_only ..) rfl).mono (.ofAll (by decide +kernel)),
      mirrorCommitRecordEff_new hon hnew⟩
  · -- An older commit record.
    intro csn deltas s hon hold
    exact ⟨_, rfl, (only_of_next (execMirrorCommitRecord_only ..) rfl).mono (.ofAll (by decide +kernel)),
      mirrorCommitRecordEff_old hon hold⟩
  · -- A commit record elsewhere.
    intro csn deltas s hoff
    exact congrArg Host.Outcome.next (mirrorCommitRecordEff_off hoff)
  · -- A namespace operation at a standby.
    intro op s hon
    exact ⟨_, rfl, (only_of_next (execMirrorNamespaceOperation_only ..) rfl).mono (.ofAll (by decide +kernel)), if_pos hon⟩
  · -- A namespace operation elsewhere.
    intro op s hoff
    exact congrArg Host.Outcome.next (if_neg (ne_true_of_eq_false hoff))
  · -- A latency-class table at a standby.
    intro entries s hon
    exact ⟨_, rfl, (only_of_next (execMirrorLatencyClassTable_only ..) rfl).mono (.ofAll (by decide +kernel)), if_pos hon⟩
  · -- A latency-class table elsewhere.
    intro entries s hoff
    exact congrArg Host.Outcome.next (if_neg (ne_true_of_eq_false hoff))
  · -- A key at a standby.
    intro nsid wrapped s hon
    exact ⟨_, rfl, (only_of_next (execMirrorXtsKey_only nsid wrapped s) rfl).mono (.ofAll (by decide +kernel)), if_pos hon⟩
  · -- A key elsewhere.
    intro nsid wrapped s hoff
    exact congrArg Host.Outcome.next (if_neg (ne_true_of_eq_false hoff))
  · -- A snapshot at a standby.
    intro snap s hon
    exact ⟨_, rfl, (only_of_next (execMirrorSnapshot_only ..) rfl).mono (.ofAll (by decide +kernel)), if_pos hon⟩
  · -- A snapshot elsewhere.
    intro snap s hoff
    exact congrArg Host.Outcome.next (if_neg (ne_true_of_eq_false hoff))
  · -- A repair request.
    rintro _ g lostCsn s hmode hon rfl
    have hexec : exec (.mirrorRepair false g lostCsn) s = .next _ := next_of_onFabric rfl hmode (mirrorRepairEff_request hon)
    exact ⟨_, hexec, (only_of_next (execMirrorRepair_only ..) hexec).mono (.ofAll (by decide +kernel)), rfl⟩
  · -- A repair's answer.
    rintro _ g lostCsn s hmode hon rfl hlost hstored hfresh
    have hexec : exec (.mirrorRepair true g lostCsn) s = .next _ :=
      next_of_onFabric rfl hmode (mirrorRepairEff_answer hon hlost hstored hfresh)
    exact ⟨_, hexec, (only_of_next (execMirrorRepair_only ..) hexec).mono (.ofAll (by decide +kernel)), rfl⟩
  · -- A repair without a mirror.
    intro isAnswer g lostCsn s hoff
    exact same_of_onFabric (f := mirrorRepairEff isAnswer g lostCsn) rfl (.inr (mirrorRepairEff_off hoff))

end Sys2Proof.Machine
end

section
/-! SUPPORT. The pair's heartbeats, their loss, takeover and SOLO. Rules R324, R328 to R332. -/
namespace Sys2Proof.Machine
-- One theorem at a time: a thread for each would exhaust the memory the check allows.
set_option Elab.async false

/-! Takeover (R329). -/

section
variable {s : State}

/-- A raised CSN is at least the one asked for. -/
theorem le_csn_raiseCsn (csn : Nat) (s : State) : csn ≤ (raiseCsn csn s).mx.csn := by
  unfold raiseCsn
  split
  · assumption
  · exact le_rfl

/-- R329: the peer is fenced, what is not applied is dropped, and the CSN rises above all that the peer may have used. -/
def takeoverRaised (s : State) : State :=
  let u := dropGranules (fence true s)
  raiseCsn (Nat.max s.tw.ack u.tw.hbCsn + 2 ^ 20 + 1) u

/-- R329: then the member serves. -/
def takeoverServed (u : State) : State := if u.prov.exhaustSeal then serveNow u else evModeChanged (serveNow u)

/-- What a takeover records of itself once the member serves. -/
def takeoverRecorded (cause ack : Nat) (u : State) : State :=
  let v := recordPair (some (u.tw.peer, true)) (updTw (fun t => { t with
    st := .lost, active := true, changed := some [], takeH := ack, switching := false, switchSent := false, switchAt := none }) u)
  tickFree (setF Reg.TW_TAKE.CAUSE cause (setF Reg.TW_TAKE.LAST (Config.freeValue v.freeCtr % 2 ^ 12) (bump Reg.TW_TAKE.COUNT v)))

/-- A takeover, step by step. -/
theorem takeover_eq (cause : Nat) (s : State) :
    takeover cause s = takeoverRecorded cause s.tw.ack (takeoverServed (takeoverRaised s)) := rfl

/-- TW_TAKE.CAUSE keeps the two bits of the cause. -/
theorem getF_takeCause_takeoverRecorded (cause ack : Nat) (u : State) :
    getF Reg.TW_TAKE.CAUSE (takeoverRecorded cause ack u) = cause % 2 ^ 2 :=
  getF_setF_self ..

/-- R329: the pair is lost to the member that takes over. -/
theorem takeover_st (cause : Nat) (s : State) : (takeover cause s).tw.st = .lost := by
  rw [takeover_eq]
  rfl

/-- R329: it is the active. -/
theorem takeover_active (cause : Nat) (s : State) : (takeover cause s).tw.active = true := by
  rw [takeover_eq]
  rfl

/-- TW_TAKE.CAUSE keeps the two bits of the cause. -/
theorem getF_takeCause_takeover (cause : Nat) (s : State) : getF Reg.TW_TAKE.CAUSE (takeover cause s) = cause % 2 ^ 2 := by
  rw [takeover_eq, getF_takeCause_takeoverRecorded]

/-- What serving changes. -/
theorem takeoverServed_only (u : State) :
    Only [.out, .gen, .he, .ctl, .fs, .ns, .mg, .fi, .prov, .reg Reg.QE_CQFULL.COUNT, .reg Reg.MG_LOGSTAT.DROPPED,
      .reg Reg.MG_ERR.LOGDROP, .reg Reg.FI_ARM.ARMED, .reg Reg.FI_ARM.DCAUSE, .reg Reg.FI_GF.EN, .reg Reg.FI_FL.EN, .reg Reg.FI_PCIE.EN]
      u (takeoverServed u) := by
  unfold takeoverServed
  split
  · exact serveNow_only _
  · exact (serveNow_only _).trans ((evModeChanged_only _).mono (.ofAll (by decide +kernel)))

/-- Raising the CSN leaves the fence up. -/
theorem takeoverRaised_pins (s : State) : (takeoverRaised s).pins = (fence true s).pins :=
  ((raiseCsn_only ..).keeps .pins rfl).trans ((dropGranules_only _).keeps .pins rfl)

/-- The record of a takeover leaves the pins alone. -/
theorem takeoverRecorded_pins (cause ack : Nat) (u : State) : (takeoverRecorded cause ack u).pins = u.pins := rfl

/-- The record of a takeover leaves the CSN alone. -/
theorem takeoverRecorded_mx (cause ack : Nat) (u : State) : (takeoverRecorded cause ack u).mx = u.mx := rfl

/-- R329: the fence stands. -/
theorem takeover_fenceOut (cause : Nat) (s : State) : (takeover cause s).pins.fenceOut = true := by
  rw [takeover_eq, takeoverRecorded_pins, (takeoverServed_only _).keeps .pins rfl, takeoverRaised_pins]
  rfl

/-- Dropping granules keeps the peer's CSN. -/
theorem dropGranules_hbCsn (s : State) : (dropGranules s).tw.hbCsn = s.tw.hbCsn := by
  have hput : ∀ (is : List Nat) (u : State), (putBufs is u).tw = u.tw := fun is u => (putBufs_only is u).keeps .tw rfl
  simp only [dropGranules, dropTouched, updTw, hput]

/-- R329: the CSN is raised above all that the peer may have used. -/
theorem takeoverRaised_csn (s : State) : Nat.max s.tw.ack s.tw.hbCsn + 2 ^ 20 + 1 ≤ (takeoverRaised s).mx.csn := by
  have hfence : (fence true s).tw = s.tw := (fence_only true s).keeps .tw rfl
  simp only [takeoverRaised, dropGranules_hbCsn, hfence]
  exact le_csn_raiseCsn _ _

/-- R329: so it is when the takeover is done. -/
theorem takeover_csn (cause : Nat) (s : State) : Nat.max s.tw.ack s.tw.hbCsn + 2 ^ 20 + 1 ≤ (takeover cause s).mx.csn := by
  rw [takeover_eq, takeoverRecorded_mx, (takeoverServed_only _).keeps .mx rfl]
  exact takeoverRaised_csn s

/-- R329: a paired standby that is alone takes over. -/
theorem standbyAlone_paired {cause : Nat} (hst : s.tw.st = .paired) : standbyAlone cause s = takeover cause s := by
  simp only [standbyAlone, hst]

end

/-! Heartbeats (R328). -/

section
variable {s : State}

/-- R328: a pairing member sends a heartbeat on both paths. -/
theorem hbSendTimerEff_beats (hbeats : beats s = true) : hbSendTimerEff s =
    (let u : State := { s with pins := { s.pins with hbOut := !s.pins.hbOut } }
    sendHb [(s.tw.hbSeq + 1) % 2 ^ 32, pairCode u, if s.tw.active then s.mx.csn else s.tw.ack]
      (emit (.pin 3 (!s.pins.hbOut)) (updTw (fun t => { t with hbSeq := (s.tw.hbSeq + 1) % 2 ^ 32 }) u))) :=
  if_neg (not_not.mpr hbeats)

/-- A member without a peer sends none. -/
theorem hbSendTimerEff_unpaired (hst : s.tw.st = .none) : hbSendTimerEff s = s := if_pos (by simp [beats, hst])

/-- A heartbeat leaves the pins alone. -/
theorem sendHb_pins (fields : List Nat) (s : State) : (sendHb fields s).pins = s.pins := (sendHb_only ..).keeps .pins rfl

/-- A heartbeat leaves the pair's state alone. -/
theorem sendHb_tw (fields : List Nat) (s : State) : (sendHb fields s).tw = s.tw := (sendHb_only ..).keeps .tw rfl

section
variable {peerState csn : Nat}

/-- R328: a heartbeat restores path A and carries the peer's CSN. -/
def hbNoted (csn : Nat) (s : State) : State := updTw (fun t => { t with pathALost := false, hbCsn := Nat.max t.hbCsn csn }) s

/-- A heartbeat to a member without a live pair is ignored. -/
theorem hbEff_unpaired (hst : s.tw.st = .none ∨ s.tw.st = .fenced) : hbEff peerState csn s = s := if_pos hst

/-- R324: at a seeding standby, a heartbeat of a paired active ends the seeding. -/
theorem hbEff_seeded (hst : s.tw.st = .seeding) (hon : standbyOn (hbNoted csn s) = true) : hbEff 2 csn s =
    dropTouched (fun _ => true) (updTw (fun t => { t with st := .paired, seedTodo := [] }) (hbNoted csn s)) :=
  (if_neg (by simp [hst])).trans (if_pos ⟨hon, hst, rfl⟩)

/-- Any other heartbeat is only noted. -/
theorem hbEff_noted (hpair : s.tw.st ≠ .none) (hlive : s.tw.st ≠ .fenced)
    (hother : standbyOn (hbNoted csn s) = false ∨ s.tw.st ≠ .seeding ∨ peerState ≠ 2) : hbEff peerState csn s = hbNoted csn s :=
  (if_neg (not_or.mpr ⟨hpair, hlive⟩)).trans
    (if_neg fun ⟨hon, hst, hpeer⟩ => hother.elim (ne_true_of_eq_false · hon) (·.elim (· hst) (· hpeer)))

end

/-! Loss of a path (R329, R330). -/

section
variable {pathB : Bool} {sinceUs : Nat}

/-- The path that fell silent. -/
def pathNoted (pathB : Bool) (s : State) : State :=
  updTw (fun t => if pathB then { t with pathBLost := true } else { t with pathALost := true }) s

/-- Noting a path keeps the pair's state. -/
@[simp] theorem pathNoted_st : (pathNoted pathB s).tw.st = s.tw.st := by cases pathB <;> rfl

/-- Noting a path keeps the member's part. -/
@[simp] theorem pathNoted_active : (pathNoted pathB s).tw.active = s.tw.active := by cases pathB <;> rfl

/-- Noting a path keeps a switch that waits. -/
@[simp] theorem pathNoted_switchAt : (pathNoted pathB s).tw.switchAt = s.tw.switchAt := by cases pathB <;> rfl

/-- Too short a silence, or a member without a live pair. -/
theorem hbPathLostEff_idle (hidle : sinceUs < 202 ∨ s.tw.st = .none ∨ s.tw.st = .lost ∨ s.tw.st = .fenced) :
    hbPathLostEff pathB sinceUs s = s :=
  if_pos (hidle.imp_right fun hst => by rcases hst with hst | hst | hst <;> simp [hst])

variable (hsilent : 202 ≤ sinceUs) (hst : s.tw.st = .seeding ∨ s.tw.st = .paired ∨ s.tw.st = .solo)
include hsilent hst

/-- R330: the loss of one path is an error. -/
theorem hbPathLostEff_one (hone : ((pathNoted pathB s).tw.pathALost && (pathNoted pathB s).tw.pathBLost) = false) :
    hbPathLostEff pathB sinceUs s = evFabric (flagOn Reg.TW_ERR.HBPATH (pathNoted pathB s)) :=
  (if_neg (not_or.mpr ⟨not_lt.mpr hsilent, not_not.mpr hst⟩)).trans (if_pos (by simpa [pathNoted] using hone))

/-- R329: a standby that lost both is alone. -/
theorem hbPathLostEff_both (hA : (pathNoted pathB s).tw.pathALost = true) (hB : (pathNoted pathB s).tw.pathBLost = true)
    (hstandby : s.tw.active = false) (hmode : s.gen.mode = .standby) (hswitch : s.tw.switchAt = none) :
    hbPathLostEff pathB sinceUs s = standbyAlone 0 (pathNoted pathB s) := by
  have hother : ¬ ((pathNoted pathB s).tw.active = true ∨ (pathNoted pathB s).gen.mode ≠ .standby ∨
      (pathNoted pathB s).tw.switchAt.isSome = true) := by
    rw [pathNoted_active, pathNoted_switchAt, hstandby, hswitch]
    exact fun h => by simp_all [pathNoted, updTw]
  exact (if_neg (not_or.mpr ⟨not_lt.mpr hsilent, not_not.mpr hst⟩)).trans
    ((if_neg (not_not.mpr ⟨hA, hB⟩)).trans (if_neg hother))

end

/-! A DRAIN notice (R331). -/

section
variable {csn : Nat}

/-- The CSN of a DRAIN notice. -/
def drainNoted (csn : Nat) (s : State) : State := updTw (fun t => { t with hbCsn := Nat.max t.hbCsn csn }) s

/-- A member that is no standby ignores the notice. -/
theorem drainNoticeEff_other (hother : s.tw.active = true ∨ s.gen.mode ≠ .standby) : drainNoticeEff csn s = s := if_pos hother

/-- R331: a standby is alone at once. -/
theorem drainNoticeEff_standby (hstandby : s.tw.active = false) (hmode : s.gen.mode = .standby) :
    drainNoticeEff csn s = standbyAlone 1 (drainNoted csn s) :=
  if_neg (not_or.mpr ⟨ne_true_of_eq_false hstandby, not_not.mpr hmode⟩)

end

/-! SOLO (R332). -/

/-- A command that is not there. -/
theorem soloEntryEff_gone {cmd : Nat} (hgone : findCmd cmd s = none) : soloEntryEff cmd s = s := by
  simp only [soloEntryEff, hgone]

/-- R332: a write whose acknowledgement is late makes the active SOLO. -/
theorem soloEntryEff_late {cmd : Nat} {c : IoCmd} (hcmd : findCmd cmd s = some c) (hactive : s.tw.active = true)
    (hst : s.tw.st = .paired) (hwrite : changesData c.kind = true) (hlate : c.acked = false) :
    soloEntryEff cmd s = retryCommits (evFabric (flagOn Reg.TW_ERR.SOLO (updTw (fun t => { t with st := .solo }) s))) := by
  simp only [soloEntryEff, hcmd, hactive, hst, hwrite, hlate, Bool.false_eq_true, not_false_eq_true, and_self, if_true]

/-- R332: 10 ms of good acknowledgements end SOLO. -/
theorem soloExitEff_good {goodMs : Nat} (hactive : s.tw.active = true) (hst : s.tw.st = .solo) (hgood : 10 ≤ goodMs)
    (hack : s.mx.csn ≤ s.tw.ack) (hA : s.tw.pathALost = false) (hB : s.tw.pathBLost = false) :
    soloExitEff goodMs s = evFabric (updTw (fun t => { t with st := .paired }) s) :=
  if_pos ⟨hactive, hst, hgood, hack, ne_true_of_eq_false hA, ne_true_of_eq_false hB⟩

/-- Fewer do not. -/
theorem soloExitEff_few {goodMs : Nat} (hfew : goodMs < 10) : soloExitEff goodMs s = s :=
  if_neg fun ⟨_, _, hgood, _⟩ => absurd hfew (not_lt.mpr hgood)

end

/-! The statement. -/

/-- Settles O35: each clause is the one branch its hypotheses choose; a takeover's results are what it sets last. -/
theorem pairHeartbeat : Obligations.PairHeartbeat := by
  refine ⟨?_, ?_, ?_, ?_, ?_, ?_, ?_, ?_, ?_, ?_, ?_, ?_, ?_, ?_, ?_, ?_⟩
  · -- A heartbeat is sent.
    intro s hbeats
    have heff := hbSendTimerEff_beats hbeats
    refine ⟨_, rfl, (only_of_next (execHbSendTimer_only ..) rfl).mono (.ofAll (by decide +kernel)), ?_, ?_, heff⟩
    · rw [heff, sendHb_pins]
      rfl
    · rw [heff, sendHb_tw]
      rfl
  · -- A member without a peer.
    intro s hst
    exact congrArg Host.Outcome.next (hbSendTimerEff_unpaired hst)
  · -- A heartbeat received.
    intro seq peerState csn s hmode hpair hlive hother
    have hexec : exec (.hb seq peerState csn) s = .next _ := next_of_onFabric rfl hmode (hbEff_noted hpair hlive hother)
    exact ⟨_, hexec, (only_of_next (execHb_only seq peerState csn s) hexec).mono (.ofAll (by decide +kernel)), rfl⟩
  · -- A heartbeat that ends the seeding.
    rintro seq _ csn s hmode hst hon rfl
    have hexec : exec (.hb seq 2 csn) s = .next _ := next_of_onFabric rfl hmode (hbEff_seeded hst hon)
    exact ⟨_, hexec, (only_of_next (execHb_only seq 2 csn s) hexec).mono (.ofAll (by decide +kernel)), rfl⟩
  · -- A heartbeat without a live pair.
    intro seq peerState csn s hidle
    exact same_of_onFabric (f := hbEff peerState csn) rfl (hidle.imp_right hbEff_unpaired)
  · -- One path is lost.
    intro pathB sinceUs s hmode hsilent hst hone
    have hexec : exec (.hbPathLost pathB sinceUs) s = .next _ := next_of_onFabric rfl hmode (hbPathLostEff_one hsilent hst hone)
    exact ⟨_, hexec, (only_of_next (execHbPathLost_only ..) hexec).mono (.ofAll (by decide +kernel)), rfl⟩
  · -- Both are lost.
    intro pathB sinceUs s hmode hsilent hst hA hB hstandby hstandbyMode hswitch
    have hexec : exec (.hbPathLost pathB sinceUs) s = .next _ :=
      next_of_onFabric rfl hmode (hbPathLostEff_both hsilent hst hA hB hstandby hstandbyMode hswitch)
    exact ⟨_, hexec, (only_of_next (execHbPathLost_only ..) hexec).mono (.ofAll (by decide +kernel)), rfl⟩
  · -- Too short a silence, or no live pair.
    intro pathB sinceUs s hidle
    exact same_of_onFabric (f := hbPathLostEff pathB sinceUs) rfl (hidle.imp_right hbPathLostEff_idle)
  · -- A DRAIN notice at a paired standby.
    intro csn s hmode hstandby hstandbyMode hst
    have hexec : exec (.drainNotice csn) s = .next (takeover 1 (drainNoted csn s)) :=
      next_of_onFabric rfl hmode ((drainNoticeEff_standby hstandby hstandbyMode).trans (standbyAlone_paired hst))
    exact ⟨_, hexec, (only_of_next (execDrainNotice_only ..) hexec).mono (.ofAll (by decide +kernel)), takeover_st ..,
      getF_takeCause_takeover .., takeover_fenceOut .., takeover_csn 1 (drainNoted csn s), rfl⟩
  · -- A DRAIN notice elsewhere.
    intro csn s hidle
    exact same_of_onFabric (f := drainNoticeEff csn) rfl (hidle.imp_right drainNoticeEff_other)
  · -- A late acknowledgement.
    intro cmd c s hmode hcmd hactive hst hwrite hlate
    have hexec : exec (.soloEntry cmd) s = .next _ := next_of_onFabric rfl hmode (soloEntryEff_late hcmd hactive hst hwrite hlate)
    exact ⟨_, hexec, (only_of_next (execSoloEntry_only ..) hexec).mono (.ofAll (by decide +kernel)), rfl⟩
  · -- No such command.
    intro cmd s hidle
    exact same_of_onFabric (f := soloEntryEff cmd) rfl (hidle.imp_right soloEntryEff_gone)
  · -- Good acknowledgements.
    intro goodMs s hmode hactive hst hgood hack hA hB
    have hexec : exec (.soloExit goodMs) s = .next _ := next_of_onFabric rfl hmode (soloExitEff_good hactive hst hgood hack hA hB)
    exact ⟨_, hexec, (only_of_next (execSoloExit_only ..) hexec).mono (.ofAll (by decide +kernel)), rfl⟩
  · -- Too few of them.
    intro goodMs s hidle
    exact same_of_onFabric (f := soloExitEff goodMs) rfl (hidle.imp_right soloExitEff_few)
  · -- Both paths are lost to a paired standby.
    intro pathB sinceUs s hmode hsilent hst hA hB hpaired hstandby hstandbyMode hswitch
    have hexec : exec (.hbPathLost pathB sinceUs) s = .next (takeover 0 (pathNoted pathB s)) :=
      next_of_onFabric rfl hmode ((hbPathLostEff_both hsilent hst hA hB hstandby hstandbyMode hswitch).trans
        (standbyAlone_paired (pathNoted_st.trans hpaired)))
    exact ⟨_, hexec, (only_of_next (execHbPathLost_only ..) hexec).mono (.ofAll (by decide +kernel)), takeover_st ..,
      takeover_active .., getF_takeCause_takeover ..⟩
  · -- A DRAIN notice at any standby.
    intro csn s hmode hstandby hstandbyMode
    have hexec : exec (.drainNotice csn) s = .next _ := next_of_onFabric rfl hmode (drainNoticeEff_standby hstandby hstandbyMode)
    exact ⟨_, hexec, (only_of_next (execDrainNotice_only ..) hexec).mono (.ofAll (by decide +kernel)), rfl⟩

end Sys2Proof.Machine
end

section
/-! SUPPORT. Pairing, the switch and seeding. Rules R334 to R336, R322, R338, R342. -/
namespace Sys2Proof.Machine
-- One theorem at a time: a thread for each would exhaust the memory the check allows.
set_option Elab.async false

/-! Requests to pair (R334). -/

section
variable {src action : Nat} {s : State}

/-- A row that enters STANDBY ends there, and keeps the pair's record. -/
theorem enterMode_standby (row : Nat) (s : State) :
    (enterMode row .standby s).gen.mode = .standby ∧ (enterMode row .standby s).prov.pair = s.prov.pair := by
  have hkept : Only _ (setMode row .standby s) (enterMode row .standby s) := fiDisarmed_only _ _
  have hpair : (setMode row .standby s).prov.pair = s.prov.pair := by
    simp only [setMode]
    split <;> rfl
  exact ⟨congrArg Gen.mode (hkept.keeps .gen rfl), (congrArg Prov.pair (hkept.keeps .prov rfl)).trans hpair⟩

/-- Row 10 enters STANDBY and keeps the pair's record. -/
theorem rowTen_standby (s : State) : (rowTen s).gen.mode = .standby ∧ (rowTen s).prov.pair = s.prov.pair := by
  have hgen : (rowTen s).gen = _ := (evAna_only _).keeps .gen rfl
  have hprov : (rowTen s).prov = _ := (evAna_only _).keeps .prov rfl
  rw [hgen, hprov]
  exact enterMode_standby 10 s

/-- A message leaves the pair's state alone. -/
theorem sendCtrl_tw (dst msg : Nat) (fields : List Nat) (s : State) : (sendCtrl dst msg fields s).tw = s.tw :=
  (sendCtrl_only ..).keeps .tw rfl

/-- Row 10 leaves the pair's state alone. -/
theorem rowTen_tw (s : State) : (rowTen s).tw = s.tw := (rowTen_only s).keeps .tw rfl

variable (hmode : fabricMode s.gen.mode = true)
include hmode

/-- R336: a peer of another identity is refused. -/
theorem pairreqEff_identity : pairreqEff src action false s = sendCtrl src 0x04 [1] (flagOn Reg.TW_ERR.PEERID s) :=
  (if_neg (not_not.mpr hmode)).trans (if_pos Bool.false_ne_true)

/-- A peer of the recorded identity is answered by what it asks. -/
theorem pairreqEff_known : pairreqEff src action true s =
    match action with
    | 0 =>
      if s.tw.st = .none ∧ s.gen.mode = .service ∧ s.ns = [] ∧ noSession s then sendCtrl src 0x04 [0] (rowTen (becomeStandby src s))
      else sendCtrl src 0x04 [1] s
    | 2 =>
      if s.gen.mode = .standby ∧ s.prov.pair = some (src, false) then sendCtrl src 0x04 [0] (becomeStandby src s)
      else sendCtrl src 0x04 [1] s
    | 3 =>
      if s.tw.st ≠ .none ∧ ¬ s.tw.active ∧ s.tw.peer = src then
        sendCtrl src 0x04 [0] (unpaired (s.ns.foldl (fun t n => deleteNs n.nsid t) s))
      else sendCtrl src 0x04 [1] s
    | _ => sendCtrl src 0x04 [1] s :=
  (if_neg (not_not.mpr hmode)).trans (if_neg (not_not.mpr rfl))

/-- R334: an unpaired member in SERVICE, without namespaces or session, becomes the standby. -/
theorem pairreqEff_pairs (hst : s.tw.st = .none) (hservice : s.gen.mode = .service) (hns : s.ns = []) (hsession : noSession s = true) :
    pairreqEff src 0 true s = sendCtrl src 0x04 [0] (rowTen (becomeStandby src s)) :=
  (pairreqEff_known hmode).trans (if_pos ⟨hst, hservice, hns, hsession⟩)

/-- R334: a member that owns a namespace refuses. -/
theorem pairreqEff_owner (hns : s.ns ≠ []) : pairreqEff src 0 true s = sendCtrl src 0x04 [1] s :=
  (pairreqEff_known hmode).trans (if_neg fun ⟨_, _, hnone, _⟩ => hns hnone)

/-- R334: a standby that comes back to its active is seeded again. -/
theorem pairreqEff_again (hstandby : s.gen.mode = .standby) (hpair : s.prov.pair = some (src, false)) :
    pairreqEff src 2 true s = sendCtrl src 0x04 [0] (becomeStandby src s) :=
  (pairreqEff_known hmode).trans (if_pos ⟨hstandby, hpair⟩)

/-- R334: a standby that its active lets go gives up its namespaces. -/
theorem pairreqEff_leaves (hst : s.tw.st ≠ .none) (hstandby : s.tw.active = false) (hpeer : s.tw.peer = src) :
    pairreqEff src 3 true s = sendCtrl src 0x04 [0] (unpaired (s.ns.foldl (fun t n => deleteNs n.nsid t) s)) :=
  (pairreqEff_known hmode).trans (if_pos ⟨hst, ne_true_of_eq_false hstandby, hpeer⟩)

end

/-! The answer to PAIR (R334, R336). -/

section
variable {accepted identityOk : Bool} {s : State}

/-- An answer that nothing waits for, or to a member that is paired. -/
theorem pairackEff_idle (hidle : s.tw.waitCmd = none ∨ s.tw.st ≠ .none) : pairackEff accepted identityOk s = s :=
  if_pos (hidle.symm.imp_right fun hnone => .inl (by rw [hnone]; rfl))

variable (hst : s.tw.st = .none) (hwait : s.tw.waitCmd.isNone = false) (hmig : s.tw.mig.role = 1 → s.tw.mig.phase ≠ 0)
include hst hwait hmig

/-- The answer that a PAIR waits for. -/
theorem pairackEff_awaited : pairackEff accepted identityOk s =
    if ¬ identityOk then waitCmdDone 0 0x0C (pairCode s) (flagOn Reg.TW_ERR.PEERID s)
    else if ¬ accepted then waitCmdDone 0 0x0C (pairCode s) s
    else waitCmdDone 0 0 (pairCode (becomeActive s)) (becomeActive s) :=
  if_neg (not_or.mpr ⟨not_not.mpr hst, not_or.mpr ⟨ne_true_of_eq_false hwait, fun ⟨hrole, hphase⟩ => hmig hrole hphase⟩⟩)

/-- R334: the peer accepts. -/
theorem pairackEff_accepted : pairackEff true true s = waitCmdDone 0 0 (pairCode (becomeActive s)) (becomeActive s) :=
  (pairackEff_awaited hst hwait hmig).trans ((if_neg (not_not.mpr rfl)).trans (if_neg (not_not.mpr rfl)))

/-- R334: it refuses. -/
theorem pairackEff_refused : pairackEff false true s = waitCmdDone 0 0x0C (pairCode s) s :=
  (pairackEff_awaited hst hwait hmig).trans ((if_neg (not_not.mpr rfl)).trans (if_pos Bool.false_ne_true))

/-- R336: its identity does not fit. -/
theorem pairackEff_identity : pairackEff accepted false s = waitCmdDone 0 0x0C (pairCode s) (flagOn Reg.TW_ERR.PEERID s) :=
  (pairackEff_awaited hst hwait hmig).trans (if_pos Bool.false_ne_true)

end

/-! The switch (R335). -/

section
variable {csn : Nat} {s : State}

/-- A member that is no standby takes no part in a switch. -/
theorem switchEff_off (hoff : standbyOn s = false) : switchEff csn s = s := if_neg fun h => ne_true_of_eq_false hoff h.1

/-- The switch that waits at the standby. -/
def switchNoted (csn : Nat) (s : State) : State := updTw (fun t => { t with switching := true, switchAt := some csn }) s

/-- R335: a paired standby switches once it has applied every record. -/
theorem switchEff_standby (hon : standbyOn s = true) (hst : s.tw.st = .paired) : switchEff csn s = finishSwitch (switchNoted csn s) :=
  if_pos ⟨hon, hst⟩

/-- R335: until then the switch waits. -/
theorem finishSwitch_early (hearly : s.tw.ack < csn) : finishSwitch (switchNoted csn s) = switchNoted csn s := if_pos hearly

/-- A standby is not the active. -/
theorem active_of_standbyOn (hon : standbyOn s = true) : s.tw.active = false := by
  simp only [standbyOn, Bool.and_eq_true, Bool.not_eq_true'] at hon
  exact hon.1.1.2

/-- An answer that no switch waits for. -/
theorem switchackEff_idle (hidle : s.tw.switching = false ∨ s.tw.active = false ∨ s.tw.switchSent = false) : switchackEff csn s = s :=
  if_pos fun ⟨hswitching, hactive, hsent⟩ =>
    hidle.elim (ne_true_of_eq_false · hswitching) (·.elim (ne_true_of_eq_false · hactive) (ne_true_of_eq_false · hsent))

/-- R335: the old active becomes the standby by row 10. -/
theorem switchackEff_switched (hswitching : s.tw.switching = true) (hactive : s.tw.active = true) (hsent : s.tw.switchSent = true) :
    switchackEff csn s = (let u := rowTen s
      let v := recordPair (some (u.tw.peer, false))
        (updTw (fun t => { t with active := false, switching := false, switchSent := false, ack := Nat.max t.ack csn }) u)
      let w := waitCmdDone 0 0 (pairCode v) v
      if w.tw.pathALost ∧ w.tw.pathBLost then standbyAlone 0 w else w) :=
  if_neg (not_not.mpr ⟨hswitching, hactive, hsent⟩)

end

/-! Seeding (R322, R338). -/

section
variable {nsid seg : Nat} {grains : List GrainRec} {s : State}

/-- A member that is not seeding. -/
theorem seedSegmentSendEff_idle (hst : s.tw.st ≠ .seeding) : seedSegmentSendEff nsid seg grains s = s := if_pos (.inl hst)

variable (hst : s.tw.st = .seeding) (htodo : s.tw.seedTodo.contains (nsid, seg) = true)
include hst htodo

/-- R338: the active sends a segment while TW_MIGCFG.PAR allows. -/
theorem seedSegmentSendEff_active (hactive : s.tw.active = true) (hgoing : s.tw.stopped.contains 2 = false)
    (hnew : s.tw.seedFly.contains (nsid, seg) = false) (hroom : s.tw.seedFly.length < getF Reg.TW_MIGCFG.PAR s) :
    seedSegmentSendEff nsid seg grains s = sendCtrl s.tw.peer 0x12 [nsid, seg, 1, segDigest nsid seg s]
      (sendSegment s.tw.peer nsid seg (updTw (fun t => { t with seedFly := t.seedFly ++ [(nsid, seg)] }) s)) := by
  simp only [seedSegmentSendEff, hst, htodo, hactive, hgoing, hnew, not_le.mpr hroom, ne_eq, not_true_eq_false, Bool.false_eq_true,
    or_self, if_false, if_true]

/-- R322: the standby stores it. -/
theorem seedSegmentSendEff_standby (hstandby : s.tw.active = false) (hon : standbyOn s = true) :
    seedSegmentSendEff nsid seg grains s = storeSeed nsid seg grains s := by
  simp only [seedSegmentSendEff, hst, htodo, hstandby, hon, ne_eq, not_true_eq_false, Bool.false_eq_true, or_self, if_false, if_true]

end

/-! The statement. -/

/-- Settles O36: each clause is the one branch its hypotheses choose. -/
theorem pairControl : Obligations.PairControl := by
  refine ⟨?_, ?_, ?_, ?_, ?_, ?_, ?_, ?_, ?_, ?_, ?_, ?_, ?_, ?_, ?_, ?_⟩
  · -- A request to pair that is accepted.
    rintro src _ _ nsCount s hmode rfl rfl hst hservice hns hsession
    have heff := pairreqEff_pairs (src := src) hmode hst hservice hns hsession
    have hexec : exec (.pairreq src 0 true nsCount) s = .next _ := congrArg Host.Outcome.next heff
    have hsent : Only _ (rowTen (becomeStandby src s)) _ := sendCtrl_only src 0x04 [0] _
    obtain ⟨hstandby, hpair⟩ := rowTen_standby (becomeStandby src s)
    refine ⟨_, hexec, (only_of_next (execPairreq_only src 0 true nsCount s) hexec).mono (.ofAll (by decide +kernel)), rfl,
      ?_, ?_, ?_, ?_⟩
    · rw [sendCtrl_tw, rowTen_tw]
      rfl
    · rw [sendCtrl_tw, rowTen_tw]
      rfl
    · exact (congrArg Gen.mode (hsent.keeps .gen rfl)).trans hstandby
    · exact (congrArg Prov.pair (hsent.keeps .prov rfl)).trans hpair
  · -- A peer of another identity.
    rintro src action _ nsCount s hmode rfl
    have hexec : exec (.pairreq src action false nsCount) s = .next _ := congrArg Host.Outcome.next (pairreqEff_identity hmode)
    exact ⟨_, hexec, (only_of_next (execPairreq_only src action false nsCount s) hexec).mono (.ofAll (by decide +kernel)), rfl,
      isOn_of_only_flagOn (sendCtrl_only ..) (by decide) (by decide), sendCtrl_tw ..⟩
  · -- A member that owns a namespace.
    rintro src _ _ nsCount s hmode rfl rfl hns
    have hexec : exec (.pairreq src 0 true nsCount) s = .next _ := congrArg Host.Outcome.next (pairreqEff_owner hmode hns)
    exact ⟨_, hexec, (only_of_next (execPairreq_only src 0 true nsCount s) hexec).mono (.ofAll (by decide +kernel)), rfl⟩
  · -- The peer accepts.
    rintro _ _ s hmode hst hwait hmig rfl rfl
    have hexec : exec (.pairack true true) s = .next _ := next_of_onFabric rfl hmode (pairackEff_accepted hst hwait hmig)
    exact ⟨_, hexec, (only_of_next (execPairack_only ..) hexec).mono (.ofAll (by decide +kernel)), rfl⟩
  · -- The peer refuses.
    rintro _ _ s hmode hst hwait hmig rfl rfl
    have hexec : exec (.pairack false true) s = .next _ := next_of_onFabric rfl hmode (pairackEff_refused hst hwait hmig)
    exact ⟨_, hexec, (only_of_next (execPairack_only ..) hexec).mono (.ofAll (by decide +kernel)), rfl⟩
  · -- An answer that nothing waits for.
    intro accepted identityOk s hidle
    exact same_of_onFabric (f := pairackEff accepted identityOk) rfl (hidle.imp_right pairackEff_idle)
  · -- A switch at a paired standby.
    intro csn s hon hst
    refine ⟨_, rfl, (only_of_next (execSwitch_only ..) rfl).mono (.ofAll (by decide +kernel)), switchEff_standby hon hst,
      fun hearly => ?_⟩
    rw [switchEff_standby hon hst, finishSwitch_early hearly]
    exact ⟨rfl, active_of_standbyOn hon⟩
  · -- A switch elsewhere.
    intro csn s hoff
    exact congrArg Host.Outcome.next (switchEff_off hoff)
  · -- The answer to a switch.
    intro csn s hmode hswitching hactive hsent
    have hexec : exec (.switchack csn) s = .next _ := next_of_onFabric rfl hmode (switchackEff_switched hswitching hactive hsent)
    exact ⟨_, hexec, (only_of_next (execSwitchack_only ..) hexec).mono (.ofAll (by decide +kernel)), rfl⟩
  · -- An answer that no switch waits for.
    intro csn s hidle
    exact same_of_onFabric (f := switchackEff csn) rfl (hidle.imp_right switchackEff_idle)
  · -- A segment is sent.
    intro nsid seg grains s hmode hst htodo hactive hgoing hnew hroom
    have hexec : exec (.seedSegmentSend nsid seg grains) s = .next _ :=
      next_of_onFabric rfl hmode (seedSegmentSendEff_active hst htodo hactive hgoing hnew hroom)
    exact ⟨_, hexec, (only_of_next (execSeedSegmentSend_only ..) hexec).mono (.ofAll (by decide +kernel)), rfl⟩
  · -- A segment is stored.
    intro nsid seg grains s hmode hst htodo hstandby hon
    have hexec : exec (.seedSegmentSend nsid seg grains) s = .next _ :=
      next_of_onFabric rfl hmode (seedSegmentSendEff_standby hst htodo hstandby hon)
    exact ⟨_, hexec, (only_of_next (execSeedSegmentSend_only ..) hexec).mono (.ofAll (by decide +kernel)), rfl⟩
  · -- A member that is not seeding.
    intro nsid seg grains s hidle
    exact same_of_onFabric (f := seedSegmentSendEff nsid seg grains) rfl (hidle.imp_right seedSegmentSendEff_idle)
  · -- A standby comes back.
    rintro src _ _ nsCount s hmode rfl rfl hstandby hpair
    have hexec : exec (.pairreq src 2 true nsCount) s = .next _ := congrArg Host.Outcome.next (pairreqEff_again hmode hstandby hpair)
    exact ⟨_, hexec, (only_of_next (execPairreq_only src 2 true nsCount s) hexec).mono (.ofAll (by decide +kernel)), rfl⟩
  · -- A standby is let go.
    rintro src _ _ nsCount s hmode rfl rfl hst hstandby hpeer
    have hexec : exec (.pairreq src 3 true nsCount) s = .next _ := congrArg Host.Outcome.next (pairreqEff_leaves hmode hst hstandby hpeer)
    exact ⟨_, hexec, (only_of_next (execPairreq_only src 3 true nsCount s) hexec).mono (.ofAll (by decide +kernel)), rfl⟩
  · -- The answer of a peer of another identity.
    rintro accepted _ s hmode hst hwait hmig rfl
    have hexec : exec (.pairack accepted false) s = .next _ := next_of_onFabric rfl hmode (pairackEff_identity hst hwait hmig)
    exact ⟨_, hexec, (only_of_next (execPairack_only ..) hexec).mono (.ofAll (by decide +kernel)), rfl⟩

end Sys2Proof.Machine
end

section
/-! SUPPORT. Migration: start, segments, passes, cutover and abort. Rules R337 to R342. -/
namespace Sys2Proof.Machine
-- One theorem at a time: a thread for each would exhaust the memory the check allows.
set_option Elab.async false

/-! What the shared steps of a session set. -/

section
variable {s : State}

/-- Completing the command that waits keeps the session. -/
theorem waitCmdDone_mig (sct sc dw0 : Nat) (s : State) : (waitCmdDone sct sc dw0 s).tw.mig = s.tw.mig := by
  unfold waitCmdDone
  split
  · exact (congrArg Tw.mig ((postCqe_only ..).keeps .tw rfl)).trans rfl
  · rfl

/-- Dropping the transport key keeps the session. -/
theorem dropTransport_tw (s : State) : (dropTransport s).tw = s.tw := by
  unfold dropTransport
  split <;> rfl

/-- Dropping the transport key keeps what is durable. -/
theorem dropTransport_prov (s : State) : (dropTransport s).prov = s.prov := by
  unfold dropTransport
  split <;> rfl

/-- The end of an aborted session. -/
def sessionAborted (s : State) : State := dropTransport (updMig (fun m => { Mig.none with phase := 7, role := m.role, peer := m.peer }) s)

/-- An aborted session is in phase 7. -/
theorem sessionAborted_phase (s : State) : (sessionAborted s).tw.mig.phase = 7 := by
  rw [sessionAborted, dropTransport_tw]
  rfl

/-- R340: an abort ends in phase 7. -/
theorem abortSession_phase (s : State) : (abortSession s).tw.mig.phase = 7 := by
  have hsink : ∀ u : State, (evModeChanged (rowThirteen u)).tw = u.tw := fun u =>
    ((evModeChanged_only _).keeps .tw rfl).trans ((enterMode_only 13 .service u).keeps .tw rfl)
  by_cases hrole : s.tw.mig.role = 2
  · have heff : abortSession s = if (sessionAborted (deleteIngested (raiseToOrigins s))).gen.mode = .ingest
        then evModeChanged (rowThirteen (sessionAborted (deleteIngested (raiseToOrigins s))))
        else sessionAborted (deleteIngested (raiseToOrigins s)) := if_pos hrole
    rw [heff]
    split
    · rw [hsink, sessionAborted_phase]
    · exact sessionAborted_phase _
  · have heff : abortSession s = sessionAborted (evFabric (liftSeals s)) := if_neg hrole
    rw [heff, sessionAborted_phase]

/-- R349: a comparison is accepted when the digests agree and no bit of its flags flipped. -/
theorem comparedAs_eq : ∀ (same : Bool) (flip : Option (Fin 64)), comparedAs same flip = (same && flip.isNone) := by decide +kernel

end

/-! The start (R337). -/

section
variable {src : Nat} {idOk : Bool} {descs : List NsDesc} {s : State}

/-- R337: the sink's namespaces and its part of a session that it accepts. -/
def sinkStarted (descs : List NsDesc) (s : State) : State :=
  let u := updMig (fun m => { m with phase := 2, nsids := descs.map (·.nsid), pass := 1 }) (descs.foldl (fun t d => createIngested d t) s)
  { u with dg := { u.dg with transport := true } }

/-- R337: the sink accepts. -/
theorem migstartEff_accepted (hok : migResult src idOk descs s = 0) :
    migstartEff src idOk descs s = sendCtrl src 0x11 [0] (sinkStarted descs s) := by
  simp only [migstartEff, hok, flagIf, ne_eq, not_true_eq_false, if_false] <;> rfl

/-- R337: the sink refuses, with its reason. -/
theorem migstartEff_refused {r : Nat} (hr : r = migResult src idOk descs s) (hbad : r ≠ 0) :
    migstartEff src idOk descs s = sendCtrl src 0x11 [r] (flagIf (r == 2) Reg.TW_ERR.PEERID s) := by
  subst hr
  exact if_pos hbad

/-- A message leaves the digest engine's state alone. -/
theorem sendCtrl_dg (dst msg : Nat) (fields : List Nat) (s : State) : (sendCtrl dst msg fields s).dg = s.dg :=
  (sendCtrl_only ..).keeps .dg rfl

section
variable {result : Nat}

/-- A MIGACK that no START waits for. -/
theorem migackEff_idle (hidle : s.tw.mig.role ≠ 1 ∨ s.tw.mig.phase ≠ 0 ∨ s.tw.waitCmd = none) : migackEff result s = s :=
  if_pos (hidle.imp_right (·.imp_right fun hnone => by rw [hnone]; rfl))

/-- What a START ends with when the sink refuses. -/
def startRefused (result : Nat) (s : State) : State :=
  waitCmdDone 0 0x0C 0 (updMig (fun _ => Mig.none)
    (if result = 1 then flagOn Reg.TW_ERR.SINKCAP s else if result = 2 then flagOn Reg.TW_ERR.PEERID s else s))

variable (hrole : s.tw.mig.role = 1) (hphase : s.tw.mig.phase = 0) (hwait : s.tw.waitCmd.isNone = false)
include hrole hphase hwait

/-- The MIGACK that a START waits for. -/
theorem migackEff_awaited : migackEff result s = if result = 0 then beginFirst s else startRefused result s :=
  if_neg (not_or.mpr ⟨not_not.mpr hrole, not_or.mpr ⟨not_not.mpr hphase, ne_true_of_eq_false hwait⟩⟩)

end

/-- R337: the source begins the FIRST pass, with the transport key. -/
theorem beginFirst_session (s : State) :
    (beginFirst s).tw.mig.phase = 2 ∧ (beginFirst s).tw.mig.pass = 1 ∧ (beginFirst s).dg.transport = true := by
  unfold beginFirst
  refine ⟨?_, ?_, ?_⟩
  · rw [waitCmdDone_mig, (emits_only ..).keeps .tw rfl]
    rfl
  · rw [waitCmdDone_mig, (emits_only ..).keeps .tw rfl]
    rfl
  · rw [(waitCmdDone_only ..).keeps .dg rfl, (emits_only ..).keeps .dg rfl]

/-- R337: a START that is refused leaves no session. -/
theorem startRefused_mig (result : Nat) (s : State) : (startRefused result s).tw.mig = Mig.none := by
  rw [startRefused, waitCmdDone_mig]
  rfl

end

/-! Segments (R338, R339). -/

section
variable {nsid seg : Nat} {s : State}

/-- R338: a segment that is read leaves the work list and the dirty list. -/
def segmentTaken (nsid seg : Nat) (s : State) : State :=
  updMig (fun m => { m with
    todo := m.todo.erase (nsid, seg), dirty := m.dirty.filter (fun x => x != (nsid, seg)),
    matched := m.matched.filter (fun x => x != (nsid, seg)), flying := m.flying ++ [(nsid, seg)],
    sent := Nat.min (m.sent + 1) (2 ^ 32 - 1) }) s

/-- A member that is no source, or may send no such segment now. -/
theorem migrationSegmentSendEff_idle (hidle : sourcing s = false ∨ s.tw.mig.todo.contains (nsid, seg) = false ∨
    getF Reg.TW_MIGCFG.PAR s ≤ s.tw.mig.flying.length ∨ s.tw.stopped.contains 2 = true) : migrationSegmentSendEff nsid seg s = s :=
  if_pos (hidle.imp ne_true_of_eq_false (·.imp_left ne_true_of_eq_false))

/-- R338: the source sends a segment and its digest. -/
theorem migrationSegmentSendEff_sent (hsource : sourcing s = true) (htodo : s.tw.mig.todo.contains (nsid, seg) = true)
    (hroom : s.tw.mig.flying.length < getF Reg.TW_MIGCFG.PAR s) (hgoing : s.tw.stopped.contains 2 = false) :
    migrationSegmentSendEff nsid seg s = sendCtrl s.tw.mig.peer 0x12
      [nsid, seg, s.tw.mig.pass, segDigest nsid seg (segmentTaken nsid seg s)]
      (sendSegment s.tw.mig.peer nsid seg (segmentTaken nsid seg s)) :=
  if_neg (not_or.mpr ⟨not_not.mpr hsource, not_or.mpr ⟨not_not.mpr htodo,
    not_or.mpr ⟨not_le.mpr hroom, ne_true_of_eq_false hgoing⟩⟩⟩)

/-- Sending leaves the session alone. -/
theorem sendSegment_tw (dst nsid seg : Nat) (s : State) : (sendSegment dst nsid seg s).tw = s.tw := (sendSegment_only ..).keeps .tw rfl

/-- R338: a record is the sink's only in a session, for a namespace being ingested. -/
theorem migsegEff_other {g : GrainRec} (hother : s.tw.mig.role ≠ 2 ∨ s.gen.mode ≠ .ingest ∨
    (findNs g.nsid s).any (·.ingesting) = false) : migsegEff g s = s :=
  if_neg fun ⟨hrole, hmode, hns⟩ => hother.elim (· hrole) (·.elim (· hmode) (ne_true_of_eq_false · hns))

section
variable {pass theirs : Nat} {flip : Option (Fin 64)}

/-- The standby of a seeding compares a seed. -/
theorem segdigEff_seed (hon : standbyOn s = true) (hst : s.tw.st = .seeding) : segdigEff nsid seg pass theirs flip s =
    seedCompared nsid seg pass ((theirs == segDigest nsid seg s) && flip.isNone) s := by
  rw [← comparedAs_eq]
  exact if_pos ⟨hon, hst⟩

variable (hseed : standbyOn s = false ∨ s.tw.st ≠ .seeding)
include hseed

/-- No standby of a seeding. -/
theorem not_seedingStandby : ¬ (standbyOn s = true ∧ s.tw.st = .seeding) :=
  fun ⟨hon, hst⟩ => hseed.elim (ne_true_of_eq_false · hon) (· hst)

/-- R338: the sink answers whether the digests agree. -/
theorem segdigEff_sink (hrole : s.tw.mig.role = 2) (hmin : 2 ≤ s.tw.mig.phase) (hmax : s.tw.mig.phase ≤ 5) :
    segdigEff nsid seg pass theirs flip s = sendCtrl s.tw.mig.peer 0x13
      [nsid, seg, pass, if theirs = segDigest nsid seg s ∧ flip = none then 0 else 1] (updMig (fun m => { m with pass := pass }) s) := by
  have hanswer : (if comparedAs (theirs == segDigest nsid seg s) flip then 0 else 1) =
      if theirs = segDigest nsid seg s ∧ flip = none then 0 else 1 := by
    simp only [comparedAs_eq, Bool.and_eq_true, beq_iff_eq, Option.isNone_iff_eq_none]
  rw [← hanswer]
  exact (if_neg (not_seedingStandby hseed)).trans (if_pos ⟨hrole, hmin, hmax⟩)

/-- No sink of a session in its passes. -/
theorem segdigEff_other (hother : s.tw.mig.role ≠ 2 ∨ s.tw.mig.phase < 2 ∨ 5 < s.tw.mig.phase) :
    segdigEff nsid seg pass theirs flip s = s :=
  (if_neg (not_seedingStandby hseed)).trans (if_neg fun ⟨hrole, hmin, hmax⟩ => by omega)

end

section
variable {result : Nat}

/-- The answer to a seed. -/
theorem segresEff_seed (hactive : s.tw.active = true) (hst : s.tw.st = .seeding) (hfly : s.tw.seedFly.contains (nsid, seg) = true) :
    segresEff nsid seg result s = seedAnswered nsid seg result s :=
  if_pos ⟨hactive, hst, hfly⟩

/-- A segment whose answer has come. -/
def segmentAnswered (nsid seg : Nat) (s : State) : State := updMig (fun m => { m with flying := m.flying.erase (nsid, seg) }) s

/-- A segment that missed once more. -/
def segmentMissed (nsid seg : Nat) (s : State) : State :=
  updMig (fun m => { m with misses := m.misses.filter (fun x => !decide (x.1 = nsid ∧ x.2.1 = seg)) ++
    [(nsid, seg, missesOf nsid seg s + 1)] }) (segmentAnswered nsid seg s)

variable (hseed : s.tw.active = false ∨ s.tw.st ≠ .seeding ∨ s.tw.seedFly.contains (nsid, seg) = false)
include hseed

/-- The answer is to no seed. -/
theorem not_seedFlying : ¬ (s.tw.active = true ∧ s.tw.st = .seeding ∧ s.tw.seedFly.contains (nsid, seg) = true) :=
  fun ⟨hactive, hst, hfly⟩ => hseed.elim (ne_true_of_eq_false · hactive) (·.elim (· hst) (ne_true_of_eq_false · hfly))

/-- An answer to nothing that was sent. -/
theorem segresEff_idle (hidle : sourcing s = false ∨ s.tw.mig.flying.contains (nsid, seg) = false) : segresEff nsid seg result s = s :=
  (if_neg (not_seedFlying hseed)).trans (if_pos (hidle.imp ne_true_of_eq_false ne_true_of_eq_false))

variable (hsource : sourcing s = true) (hfly : s.tw.mig.flying.contains (nsid, seg) = true)
include hsource hfly

/-- The source takes the answer to a segment it sent. -/
theorem segresEff_answered : segresEff nsid seg result s =
    if result = 0 then updMig (fun m => { m with matched := addOnce m.matched (nsid, seg) }) (segmentAnswered nsid seg s)
    else if missesOf nsid seg s + 1 ≥ 4 then
      abortSession (sendCtrl s.tw.mig.peer 0x16 [1] (flagOn Reg.TW_ERR.DIGEST (segmentMissed nsid seg s)))
    else updMig (fun m => { m with todo := addOnce m.todo (nsid, seg), resent := Nat.min (m.resent + 1) 255 })
      (segmentMissed nsid seg s) :=
  (if_neg (not_seedFlying hseed)).trans (if_neg (not_or.mpr ⟨not_not.mpr hsource, not_not.mpr hfly⟩))

/-- R338: a segment that misses is sent again. -/
theorem segresEff_again (hmiss : result ≠ 0) (hfew : missesOf nsid seg s < 3) : segresEff nsid seg result s =
    updMig (fun m => { m with todo := addOnce m.todo (nsid, seg), resent := Nat.min (m.resent + 1) 255 }) (segmentMissed nsid seg s) :=
  (segresEff_answered hseed hsource hfly).trans ((if_neg hmiss).trans (if_neg (by omega)))

/-- R338: the fourth miss of one segment aborts the session. -/
theorem segresEff_fourth (hmiss : result ≠ 0) (hmany : 3 ≤ missesOf nsid seg s) : segresEff nsid seg result s =
    abortSession (sendCtrl s.tw.mig.peer 0x16 [1] (flagOn Reg.TW_ERR.DIGEST (segmentMissed nsid seg s))) :=
  (segresEff_answered hseed hsource hfly).trans ((if_neg hmiss).trans (if_pos (by omega)))

end
end

/-! The passes (R339). -/

section
variable {s : State}

/-- Something of the pass is left, or the member is no source. -/
theorem dirtyPassEndEff_idle (hidle : sourcing s = false ∨ s.tw.mig.todo ≠ [] ∨ s.tw.mig.flying ≠ []) : dirtyPassEndEff s = s :=
  if_pos (hidle.imp_left ne_true_of_eq_false)

variable (hsource : sourcing s = true) (htodo : s.tw.mig.todo = []) (hflying : s.tw.mig.flying = [])
include hsource htodo hflying

/-- R339: a pass ends by the session's phase. -/
theorem dirtyPassEndEff_ended : dirtyPassEndEff s =
    if s.tw.mig.phase = 2 then nextPass 3 s
    else if s.tw.mig.phase = 3 then
      if s.tw.mig.auto ∧ s.tw.mig.dirty.length ≤ getF Reg.TW_MIGCFG.CUTSEGS s then nextPass 4 (sealSession s) else nextPass 3 s
    else if s.tw.mig.dirty ≠ [] then nextPass 4 s
    else if s.cmds.any (fun c => s.tw.mig.nsids.contains c.nsid && uncommitted c) then s
    else if allMatched s then sendCutover s
    else s :=
  if_neg (not_or.mpr ⟨not_not.mpr hsource, not_or.mpr ⟨not_not.mpr htodo, not_not.mpr hflying⟩⟩)

/-- R339: FIRST is followed by a pass over the dirty segments. -/
theorem dirtyPassEndEff_first (hphase : s.tw.mig.phase = 2) : dirtyPassEndEff s = nextPass 3 s :=
  (dirtyPassEndEff_ended hsource htodo hflying).trans (if_pos hphase)

/-- R339: a pass of phase 3 seals the session when few segments are dirty, else the next one follows. -/
theorem dirtyPassEndEff_dirty (hphase : s.tw.mig.phase = 3) : dirtyPassEndEff s =
    if s.tw.mig.auto ∧ s.tw.mig.dirty.length ≤ getF Reg.TW_MIGCFG.CUTSEGS s then nextPass 4 (sealSession s) else nextPass 3 s :=
  (dirtyPassEndEff_ended hsource htodo hflying).trans ((if_neg (by omega)).trans (if_pos hphase))

/-- R339: once sealed, what is still dirty is sent. -/
theorem dirtyPassEndEff_sealed (hphase : s.tw.mig.phase = 4) : dirtyPassEndEff s =
    if s.tw.mig.dirty ≠ [] then nextPass 4 s
    else if s.cmds.any (fun c => s.tw.mig.nsids.contains c.nsid && uncommitted c) then s
    else if allMatched s then sendCutover s
    else s :=
  (dirtyPassEndEff_ended hsource htodo hflying).trans ((if_neg (by omega)).trans (if_neg (by omega)))

/-- R339: CUTOVER goes when every segment has matched and no command is left. -/
theorem dirtyPassEndEff_cutover (hphase : s.tw.mig.phase = 4) (hclean : s.tw.mig.dirty = [])
    (hidle : s.cmds.any (fun c => s.tw.mig.nsids.contains c.nsid && uncommitted c) = false) (hmatched : allMatched s = true) :
    dirtyPassEndEff s = sendCutover s :=
  (dirtyPassEndEff_sealed hsource htodo hflying hphase).trans
    ((if_neg (not_not.mpr hclean)).trans ((if_neg (ne_true_of_eq_false hidle)).trans (if_pos hmatched)))

/-- R339: until then the session waits. -/
theorem dirtyPassEndEff_waits (hphase : s.tw.mig.phase = 4) (hclean : s.tw.mig.dirty = [])
    (hleft : s.cmds.any (fun c => s.tw.mig.nsids.contains c.nsid && uncommitted c) = true ∨ allMatched s = false) :
    dirtyPassEndEff s = s := by
  rw [dirtyPassEndEff_sealed hsource htodo hflying hphase, if_neg (not_not.mpr hclean)]
  rcases hleft with hcmds | hmissing
  · exact if_pos hcmds
  · rw [if_neg (ne_true_of_eq_false hmissing), ite_self]

end

/-! The cutover (R339). -/

section
variable {nsid csn nguid eui : Nat} {last : Bool} {s : State}

/-- R339: the namespace takes its identity, and the sink rises above the seal CSN. -/
def cutOver (nsid csn nguid eui : Nat) (s : State) : State :=
  raiseCsn csn (updMig (fun m => { m with phase := 5, cutDone := addOnce m.cutDone nsid })
    (setNs nsid (fun n => { n with nguid := nguid, eui := eui, ingesting := false }) s))

/-- Raising the CSN leaves the pair and its session alone. -/
theorem raiseCsn_tw (csn : Nat) (s : State) : (raiseCsn csn s).tw = s.tw := (raiseCsn_only ..).keeps .tw rfl

/-- A change of a namespace leaves the pair and its session alone. -/
theorem setNs_tw (nsid : Nat) (f : Ns → Ns) (s : State) : (setNs nsid f s).tw = s.tw := (setNs_only ..).keeps .tw rfl

/-- What the session holds after a namespace's cutover. -/
theorem cutOver_mig : (cutOver nsid csn nguid eui s).tw.mig =
    { s.tw.mig with phase := 5, cutDone := addOnce s.tw.mig.cutDone nsid } := by
  simp only [cutOver, raiseCsn_tw, updMig, updTw, setNs_tw]

/-- A CUTOVER that fits no session of the sink. -/
theorem cutoverEff_other (hother : s.tw.mig.role ≠ 2 ∨ s.tw.mig.phase < 2 ∨ 5 < s.tw.mig.phase ∨ s.gen.mode ≠ .ingest ∨
    s.tw.mig.nsids.contains nsid = false) : cutoverEff nsid csn nguid eui last s = s :=
  if_pos (hother.imp_right (·.imp_right (·.imp_right (·.imp_right ne_true_of_eq_false))))

variable (hrole : s.tw.mig.role = 2) (hmin : 2 ≤ s.tw.mig.phase) (hmax : s.tw.mig.phase ≤ 5) (hmode : s.gen.mode = .ingest)
  (hmine : s.tw.mig.nsids.contains nsid = true)
include hrole hmin hmax hmode hmine

/-- R339: a namespace of the session is cut over, and the last of them ends the session. -/
theorem cutoverEff_session : cutoverEff nsid csn nguid eui last s =
    if last ∧ s.tw.mig.nsids.all (fun n => (addOnce s.tw.mig.cutDone nsid).contains n) then sinkDone (cutOver nsid csn nguid eui s)
    else cutOver nsid csn nguid eui s := by
  have hdone : (cutOver nsid csn nguid eui s).tw.mig.cutDone = addOnce s.tw.mig.cutDone nsid := by rw [cutOver_mig]
  rw [← hdone]
  exact if_neg (not_or.mpr ⟨not_not.mpr hrole, not_or.mpr ⟨not_lt.mpr hmin, not_or.mpr ⟨not_lt.mpr hmax,
    not_or.mpr ⟨not_not.mpr hmode, not_not.mpr hmine⟩⟩⟩⟩)

end

section
variable {s : State}

/-- R339: the source's seals are permanent and its session has ended. -/
theorem sourceDone_session (s : State) : (sourceDone s).tw.mig.phase = 6 ∧ (sourceDone s).prov.migMark = 0 := by
  unfold sourceDone
  refine ⟨?_, ?_⟩
  · rw [dropTransport_tw]
    rfl
  · rw [dropTransport_prov]
    rfl

/-- A CUTACK that fits no cutover. -/
theorem cutackEff_other {count : Nat} (hother : s.tw.mig.role ≠ 1 ∨ s.tw.mig.phase ≠ 5 ∨ count ≠ s.tw.mig.nsids.length) :
    cutackEff count s = s :=
  if_neg fun ⟨hrole, hphase, hcount⟩ => hother.elim (· hrole) (·.elim (· hphase) (· hcount))

/-- R340: a route lost for over 2 s aborts. -/
theorem migrationRouteTimeoutEff_lost {downMs : Nat} (hlong : 2000 < downMs) (habort : canAbort s = true) :
    migrationRouteTimeoutEff downMs s = abortSession s := if_pos ⟨hlong, habort⟩

/-- A shorter loss, or a session that cannot abort. -/
theorem migrationRouteTimeoutEff_other {downMs : Nat} (hother : downMs ≤ 2000 ∨ canAbort s = false) :
    migrationRouteTimeoutEff downMs s = s :=
  if_neg fun ⟨hlong, habort⟩ => hother.elim (not_le.mpr hlong) (ne_true_of_eq_false · habort)

/-- R340: what the other end's abort does. -/
def peerAborted (s : State) : State := if canAbort s ∨ (s.tw.mig.role = 2 ∧ s.tw.mig.phase = 5) then abortSession s else s

/-- R342: what STOP halts. -/
def stopTaken (vc : Nat) (s : State) : State :=
  if vc = 1 ∨ vc = 2 then updTw (fun t => { t with stopped := addOnce t.stopped vc }) s else s

end

/-! The statement. -/

/-- Settles O37: each clause is the one branch its hypotheses choose. -/
theorem migrationSteps : Obligations.MigrationSteps := by
  refine ⟨?_, ?_, ?_, ?_, ?_, ?_, ?_, ?_, ?_, ?_, ?_, ?_, ?_, ?_, ?_, ?_, ?_, ?_, ?_, ?_, ?_, ?_, ?_, ?_, ?_, ?_, ?_, ?_, ?_, ?_,
    ?_, ?_, ?_, ?_, ?_, ?_⟩
  · -- The sink accepts a session.
    intro src idOk descs s hmode hok
    have hexec : exec (.migstart src idOk descs) s = .next _ := next_of_onFabric rfl hmode (migstartEff_accepted hok)
    refine ⟨_, hexec, (only_of_next (execMigstart_only ..) hexec).mono (.ofAll (by decide +kernel)), ?_, ?_, ?_, ?_, rfl⟩
    · rw [sendCtrl_tw]
      rfl
    · rw [sendCtrl_tw]
      rfl
    · rw [sendCtrl_tw]
      rfl
    · rw [sendCtrl_dg]
      rfl
  · -- The sink refuses it.
    intro src idOk descs r s hmode hr hbad
    have hexec : exec (.migstart src idOk descs) s = .next _ := next_of_onFabric rfl hmode (migstartEff_refused hr hbad)
    exact ⟨_, hexec, (only_of_next (execMigstart_only ..) hexec).mono (.ofAll (by decide +kernel)), rfl⟩
  · -- The source begins FIRST.
    rintro _ s hmode hrole hphase hwait rfl
    have hexec : exec (.migack 0) s = .next (beginFirst s) :=
      next_of_onFabric rfl hmode ((migackEff_awaited hrole hphase hwait).trans (if_pos rfl))
    obtain ⟨hnow, hpass, hkey⟩ := beginFirst_session s
    exact ⟨_, hexec, (only_of_next (execMigack_only ..) hexec).mono (.ofAll (by decide +kernel)), hnow, hpass, hkey, rfl⟩
  · -- START ends without a session.
    intro result s hmode hrole hphase hwait hbad
    have hexec : exec (.migack result) s = .next (startRefused result s) :=
      next_of_onFabric rfl hmode ((migackEff_awaited hrole hphase hwait).trans (if_neg hbad))
    exact ⟨_, hexec, (only_of_next (execMigack_only ..) hexec).mono (.ofAll (by decide +kernel)), startRefused_mig .., rfl⟩
  · -- No START waits.
    intro result s hidle
    exact same_of_onFabric (f := migackEff result) rfl (hidle.imp_right migackEff_idle)
  · -- A segment is sent.
    intro nsid seg s hmode hsource htodo hroom hgoing
    have hexec : exec (.migrationSegmentSend nsid seg) s = .next _ :=
      next_of_onFabric rfl hmode (migrationSegmentSendEff_sent hsource htodo hroom hgoing)
    refine ⟨_, hexec, (only_of_next (execMigrationSegmentSend_only ..) hexec).mono (.ofAll (by decide +kernel)), ?_, ?_, ?_, ?_, rfl⟩
    · rw [sendCtrl_tw, sendSegment_tw]
      rfl
    · rw [sendCtrl_tw, sendSegment_tw]
      rfl
    · rw [sendCtrl_tw, sendSegment_tw]
      rfl
    · rw [sendCtrl_tw, sendSegment_tw]
      rfl
  · -- None may be sent.
    intro nsid seg s hidle
    exact same_of_onFabric (f := migrationSegmentSendEff nsid seg) rfl (hidle.imp_right migrationSegmentSendEff_idle)
  · -- The sink stores a record.
    intro g s hrole hmode hns
    exact ⟨_, rfl, (only_of_next (execMigseg_only ..) rfl).mono (.ofAll (by decide +kernel)), if_pos ⟨hrole, hmode, hns⟩⟩
  · -- A record that is not the sink's.
    intro g s hother
    exact congrArg Host.Outcome.next (migsegEff_other hother)
  · -- The sink compares a digest.
    intro nsid seg pass theirs flip s hmode hseed hrole hmin hmax
    have hexec : exec (.segdig nsid seg pass theirs flip) s = .next _ :=
      next_of_onFabric rfl hmode (segdigEff_sink hseed hrole hmin hmax)
    exact ⟨_, hexec, (only_of_next (execSegdig_only ..) hexec).mono (.ofAll (by decide +kernel)), rfl⟩
  · -- A digest that is not the member's to compare.
    intro nsid seg pass theirs flip s hidle
    exact same_of_onFabric (f := segdigEff nsid seg pass theirs flip) rfl
      (hidle.imp_right fun ⟨hseed, hother⟩ => segdigEff_other hseed hother)
  · -- A segment matches.
    rintro nsid seg pass _ s hmode hseed hsource hfly rfl
    have hexec : exec (.segres nsid seg pass 0) s = .next _ :=
      next_of_onFabric rfl hmode ((segresEff_answered hseed hsource hfly).trans (if_pos rfl))
    exact ⟨_, hexec, (only_of_next (execSegres_only nsid seg pass 0 s) hexec).mono (.ofAll (by decide +kernel)), rfl, rfl⟩
  · -- It misses and is sent again.
    intro nsid seg pass result s hmode hseed hsource hfly hmiss hfew
    have hexec : exec (.segres nsid seg pass result) s = .next _ :=
      next_of_onFabric rfl hmode (segresEff_again hseed hsource hfly hmiss hfew)
    exact ⟨_, hexec, (only_of_next (execSegres_only nsid seg pass result s) hexec).mono (.ofAll (by decide +kernel)),
      rfl, rfl, rfl, rfl, rfl⟩
  · -- The fourth miss.
    intro nsid seg pass result s hmode hseed hsource hfly hmiss hmany
    have hexec : exec (.segres nsid seg pass result) s = .next _ :=
      next_of_onFabric rfl hmode (segresEff_fourth hseed hsource hfly hmiss hmany)
    exact ⟨_, hexec, (only_of_next (execSegres_only nsid seg pass result s) hexec).mono (.ofAll (by decide +kernel)),
      abortSession_phase _, rfl⟩
  · -- FIRST ends.
    intro s hmode hsource htodo hflying hphase
    have hexec : exec .dirtyPassEnd s = .next _ := next_of_onFabric rfl hmode (dirtyPassEndEff_first hsource htodo hflying hphase)
    exact ⟨_, hexec, (only_of_next (execDirtyPassEnd_only ..) hexec).mono (.ofAll (by decide +kernel)), rfl, rfl⟩
  · -- Every segment has matched.
    intro s hmode hsource htodo hflying hphase hclean hidle hmatched
    have hexec : exec .dirtyPassEnd s = .next _ :=
      next_of_onFabric rfl hmode (dirtyPassEndEff_cutover hsource htodo hflying hphase hclean hidle hmatched)
    exact ⟨_, hexec, (only_of_next (execDirtyPassEnd_only ..) hexec).mono (.ofAll (by decide +kernel)), rfl⟩
  · -- Something of the pass is left.
    intro s hidle
    exact same_of_onFabric (f := dirtyPassEndEff) rfl (hidle.imp_right dirtyPassEndEff_idle)
  · -- A namespace is cut over.
    intro nsid sealCsn nguid eui last s hrole hmin hmax hmode hmine hmore
    have heff : cutoverEff nsid sealCsn nguid eui last s = cutOver nsid sealCsn nguid eui s :=
      (cutoverEff_session hrole hmin hmax hmode hmine).trans (if_neg hmore)
    have hexec : exec (.cutover nsid sealCsn nguid eui last) s = .next _ := congrArg Host.Outcome.next heff
    exact ⟨_, hexec, (only_of_next (execCutover_only ..) hexec).mono (.ofAll (by decide +kernel)), rfl, congrArg Mig.phase cutOver_mig,
      le_csn_raiseCsn ..⟩
  · -- A CUTOVER of no session.
    intro nsid sealCsn nguid eui last s hother
    exact congrArg Host.Outcome.next (cutoverEff_other hother)
  · -- The sink has taken over.
    intro count s hmode hrole hphase hcount
    have hexec : exec (.cutack count) s = .next (sourceDone s) := next_of_onFabric rfl hmode (if_pos ⟨hrole, hphase, hcount⟩)
    obtain ⟨hended, hmark⟩ := sourceDone_session s
    exact ⟨_, hexec, (only_of_next (execCutack_only ..) hexec).mono (.ofAll (by decide +kernel)), hended, hmark, rfl⟩
  · -- A CUTACK of no cutover.
    intro count s hidle
    exact same_of_onFabric (f := cutackEff count) rfl (hidle.imp_right cutackEff_other)
  · -- The other end aborts.
    intro cause s hmode habort
    have hexec : exec (.migrationAbortMessage cause) s = .next (abortSession s) :=
      next_of_onFabric (f := peerAborted) rfl hmode (if_pos habort)
    exact ⟨_, hexec, (only_of_next (execMigrationAbortMessage_only cause s) hexec).mono (.ofAll (by decide +kernel)),
      abortSession_phase s, rfl⟩
  · -- It has no session to abort.
    intro cause s hidle
    exact same_of_onFabric (f := peerAborted) rfl (hidle.imp_right (if_neg ·))
  · -- The route is lost for too long.
    intro downMs s hmode hlong habort
    have hexec : exec (.migrationRouteTimeout downMs) s = .next _ := next_of_onFabric rfl hmode (migrationRouteTimeoutEff_lost hlong habort)
    exact ⟨_, hexec, (only_of_next (execMigrationRouteTimeout_only ..) hexec).mono (.ofAll (by decide +kernel)),
      abortSession_phase s, rfl⟩
  · -- A shorter loss.
    intro downMs s hidle
    exact same_of_onFabric (f := migrationRouteTimeoutEff downMs) rfl (hidle.imp_right migrationRouteTimeoutEff_other)
  · -- STOP of VC1 or VC2.
    intro vc stream s hmode hvc
    have hexec : exec (.stop vc stream) s = .next _ := next_of_onFabric (f := stopTaken vc) rfl hmode (if_pos hvc)
    exact ⟨_, hexec, (only_of_next (execStop_only vc stream s) hexec).mono (.ofAll (by decide +kernel)), rfl⟩
  · -- STOP of another.
    intro vc stream s hidle
    exact same_of_onFabric (f := stopTaken vc) rfl (hidle.imp_right fun ⟨hone, htwo⟩ => if_neg (not_or.mpr ⟨hone, htwo⟩))
  · -- MIGSTART in a mode without fabric.
    intro src idOk descs s hmode
    exact same_of_onFabric (f := migstartEff src idOk descs) rfl (.inl hmode)
  · -- The standby compares a seed.
    intro nsid seg pass theirs flip s hmode hon hst
    have hexec : exec (.segdig nsid seg pass theirs flip) s = .next _ := next_of_onFabric rfl hmode (segdigEff_seed hon hst)
    exact ⟨_, hexec, (only_of_next (execSegdig_only ..) hexec).mono (.ofAll (by decide +kernel)), rfl⟩
  · -- The active learns of a seed.
    intro nsid seg pass result s hmode hactive hst hfly
    have hexec : exec (.segres nsid seg pass result) s = .next _ := next_of_onFabric rfl hmode (segresEff_seed hactive hst hfly)
    exact ⟨_, hexec, (only_of_next (execSegres_only nsid seg pass result s) hexec).mono (.ofAll (by decide +kernel)), rfl⟩
  · -- An answer to nothing that was sent.
    intro nsid seg pass result s hidle
    exact same_of_onFabric (f := segresEff nsid seg result) rfl (hidle.imp_right fun ⟨hseed, hnone⟩ => segresEff_idle hseed hnone)
  · -- Few segments are dirty: the session is sealed.
    intro s hmode hsource htodo hflying hphase hfew
    have hexec : exec .dirtyPassEnd s = .next _ :=
      next_of_onFabric rfl hmode ((dirtyPassEndEff_dirty hsource htodo hflying hphase).trans (if_pos hfew))
    exact ⟨_, hexec, (only_of_next (execDirtyPassEnd_only ..) hexec).mono (.ofAll (by decide +kernel)), rfl⟩
  · -- Too many are: another pass.
    intro s hmode hsource htodo hflying hphase hmany
    have hexec : exec .dirtyPassEnd s = .next _ :=
      next_of_onFabric rfl hmode ((dirtyPassEndEff_dirty hsource htodo hflying hphase).trans (if_neg hmany))
    exact ⟨_, hexec, (only_of_next (execDirtyPassEnd_only ..) hexec).mono (.ofAll (by decide +kernel)), rfl, rfl⟩
  · -- A sealed session with dirty segments.
    intro s hmode hsource htodo hflying hphase hdirty
    have hexec : exec .dirtyPassEnd s = .next _ :=
      next_of_onFabric rfl hmode ((dirtyPassEndEff_sealed hsource htodo hflying hphase).trans (if_pos hdirty))
    exact ⟨_, hexec, (only_of_next (execDirtyPassEnd_only ..) hexec).mono (.ofAll (by decide +kernel)), rfl, rfl⟩
  · -- A sealed session that waits.
    intro s hmode hsource htodo hflying hphase hclean hleft
    have hexec : exec .dirtyPassEnd s = .next s :=
      next_of_onFabric rfl hmode (dirtyPassEndEff_waits hsource htodo hflying hphase hclean hleft)
    exact ⟨_, hexec, (only_of_next (execDirtyPassEnd_only ..) hexec).mono (.ofAll (by decide +kernel)), rfl⟩
  · -- The last namespace is cut over.
    intro nsid sealCsn nguid eui last s hrole hmin hmax hmode hmine hlast
    have heff : cutoverEff nsid sealCsn nguid eui last s = sinkDone (cutOver nsid sealCsn nguid eui s) :=
      (cutoverEff_session hrole hmin hmax hmode hmine).trans (if_pos hlast)
    have hexec : exec (.cutover nsid sealCsn nguid eui last) s = .next _ := congrArg Host.Outcome.next heff
    exact ⟨_, hexec, (only_of_next (execCutover_only ..) hexec).mono (.ofAll (by decide +kernel)), rfl⟩

end Sys2Proof.Machine
end

section
/-! SUPPORT. Digest contexts, the audit, trust and the generator. Rules R345 to R347, R352, R353, R355, R359, R361, R49. -/
namespace Sys2Proof.Machine
-- One theorem at a time: a thread for each would exhaust the memory the check allows.
set_option Elab.async false

/-! Setup writes (R49): outside the modes that take them nothing happens, and a writer without the token is turned away. -/

section
variable {who : Writer} {off : Nat} {s a b c : State}

/-- Setup is closed. -/
theorem setupWrite_closed (hclosed : setupOpen who s = false) : (if ¬ setupOpen who s then a else b) = a :=
  if_pos (ne_true_of_eq_false hclosed)

/-- R49: the writer may not write here. -/
theorem setupWrite_refused (hopen : setupOpen who s = true) (hother : mayWrite who off s = false) :
    (if ¬ setupOpen who s then a else if ¬ mayWrite who off s then b else c) = b :=
  (if_neg (not_not.mpr hopen)).trans (if_pos (ne_true_of_eq_false hother))

/-- The write is taken. -/
theorem setupWrite_taken (hopen : setupOpen who s = true) (hown : mayWrite who off s = true) :
    (if ¬ setupOpen who s then a else if ¬ mayWrite who off s then b else c) = c :=
  (if_neg (not_not.mpr hopen)).trans (if_neg (not_not.mpr hown))

/-- R49: the write is management's alone. -/
theorem mgmtWrite_refused (hopen : setupOpen who s = true) (hother : who = .host ∨ mayWrite who off s = false) :
    (if ¬ setupOpen who s then a else if who = .host ∨ ¬ mayWrite who off s then b else c) = b :=
  (if_neg (not_not.mpr hopen)).trans (if_pos (hother.imp_right ne_true_of_eq_false))

/-- Management's write is taken. -/
theorem mgmtWrite_taken (hwho : who ≠ .host) (hopen : setupOpen who s = true) (hown : mayWrite who off s = true) :
    (if ¬ setupOpen who s then a else if who = .host ∨ ¬ mayWrite who off s then b else c) = c :=
  (if_neg (not_not.mpr hopen)).trans (if_neg (not_or.mpr ⟨hwho, not_not.mpr hown⟩))

end

/-! Opening a context (R345, R352). -/

section
variable {p : DigestParams} {s : State}

/-- R345: a context that opens, before it has a lane. -/
def ctxOpened (p : DigestParams) (i : Nat) (s : State) : State :=
  let u := updCtx i (fun _ => { Ctx.closed with params := some p, started := s.dg.nextStart }) s
  { u with dg := { u.dg with nextStart := s.dg.nextStart + 1 } }

/-- R345: with no free context, or no lane for a snoop, none opens. -/
theorem digestContextOpenEff_refused (hrefused : freeCtx s = none ∨ snoopRefused p s = true) : digestContextOpenEff p s = s := by
  unfold digestContextOpenEff
  cases hfree : freeCtx s with
  | none => rfl
  | some i => exact if_pos (hrefused.resolve_left (by simp [hfree]))

/-- R345: the first free context opens and takes a lane or waits for one. -/
theorem digestContextOpenEff_opened {i : Nat} (hfree : freeCtx s = some i) (hroom : snoopRefused p s = false) :
    digestContextOpenEff p s = fitSlots (takeLane i p (ctxOpened p i s)) := by
  simp only [digestContextOpenEff, hfree, hroom, Bool.false_eq_true, if_false] <;> rfl

/-- R352: with a free lane it takes one. -/
theorem takeLane_free {i : Nat} (hlane : lanesBusy s < s.dg.active) : takeLane i p s = updCtx i (fun c => { c with st := 2 }) s :=
  if_pos hlane

/-- Filling slots keeps the number of contexts started: it changes buffers only. -/
theorem fitSlots_nextStart (s : State) : (fitSlots s).dg.nextStart = s.dg.nextStart := by
  have hput : ∀ (is : List Nat) (u : State), (putBufs is u).dg = u.dg := fun is u => (putBufs_only is u).keeps .dg rfl
  unfold fitSlots
  dsimp only
  split
  · have halloc : (bpAlloc 6 (ceilDiv (s.dg.ctxs.filter (fun c => decide (1 ≤ c.2.st ∧ c.2.st ≤ 3))).length 16 -
        s.dg.slotBufs.length) false s).2.dg = s.dg := (bpAlloc_only ..).keeps .dg rfl
    split <;> rename_i heq <;> rw [heq] at halloc <;> exact (congrArg Dg.nextStart halloc :)
  · rw [hput]

end

/-! Saves (R352, R353). -/

section
variable {i : Nat} {unwrapOk : Bool} {s : State}

/-- R353: a save is counted, and a wrapped one twice. -/
def saveCounted (c : Ctx) (s : State) : State :=
  if keyed c then bump Reg.DG_PREEMPT.WRAPPED (bump Reg.DG_PREEMPT.COUNT s) else bump Reg.DG_PREEMPT.COUNT s

/-- R352: the lane of a saved context passes on, and the context waits for one. -/
def lanePassed (i kctxGen : Nat) (s : State) : State :=
  let u := dgQueue i (dgFill 1 (updCtx i (fun c => { c with st := 3, saving := false, kctxGen := kctxGen }) s))
  dgFill u.dg.queue.length u

/-- A count of saves changes two fields. -/
theorem saveCounted_only (c : Ctx) (s : State) : Only [.reg Reg.DG_PREEMPT.COUNT, .reg Reg.DG_PREEMPT.WRAPPED] s (saveCounted c s) := by
  have hcount : Only [.reg Reg.DG_PREEMPT.COUNT, .reg Reg.DG_PREEMPT.WRAPPED] s (bump Reg.DG_PREEMPT.COUNT s) :=
    (bump_only ..).mono (.ofAll (by decide +kernel))
  unfold saveCounted
  split
  · exact hcount.trans ((bump_only ..).mono (.ofAll (by decide +kernel)))
  · exact hcount

/-- R353: DG_PREEMPT.COUNT counts every save. -/
theorem getF_count_saveCounted (c : Ctx) (s : State) : getF Reg.DG_PREEMPT.COUNT (saveCounted c s) =
    Nat.min (getF Reg.DG_PREEMPT.COUNT s + 1) (2 ^ Reg.DG_PREEMPT.COUNT.width - 1) := by
  unfold saveCounted
  split
  · exact ((bump_only ..).getF_eq (by decide)).trans (getF_bumpBy_self ..)
  · exact getF_bumpBy_self ..

/-- Passing a lane on changes the digest engine only. -/
theorem lanePassed_only (i kctxGen : Nat) (s : State) : Only [.dg] s (lanePassed i kctxGen s) :=
  ((updCtx_only ..).trans ((dgFill_only ..).trans (dgQueue_only ..))).trans (dgFill_only ..)

/-- R352: a save is done. -/
theorem digestSaveDoneEff_saved (hsaving : (getCtx i s).saving = true) :
    digestSaveDoneEff i unwrapOk s = lanePassed i s.dg.kctxGen (saveCounted (getCtx i s) s) := by
  have hgen : (saveCounted (getCtx i s) s).dg = s.dg := (saveCounted_only ..).keeps .dg rfl
  rw [← hgen]
  exact if_pos hsaving

variable (hidle : (getCtx i s).saving = false)
include hidle

/-- R353: a keyed save that fails to unwrap. -/
theorem digestSaveDoneEff_unwrapFails (hkeyed : keyed (getCtx i s) = true) (hst : (getCtx i s).st = 2 ∨ (getCtx i s).st = 3) :
    digestSaveDoneEff i false s = dgFail [i] 4 (flagOn Reg.DG_ERR.UNWRAP s) :=
  (if_neg (ne_true_of_eq_false hidle)).trans (if_pos ⟨hkeyed, Bool.false_ne_true, hst⟩)

/-- No save, and no failure to unwrap. -/
theorem digestSaveDoneEff_nothing (hother : keyed (getCtx i s) = false ∨ unwrapOk = true ∨
    ((getCtx i s).st ≠ 2 ∧ (getCtx i s).st ≠ 3)) : digestSaveDoneEff i unwrapOk s = s :=
  (if_neg (ne_true_of_eq_false hidle)).trans (if_neg fun ⟨hkeyed, hfails, hst⟩ =>
    hother.elim (ne_true_of_eq_false · hkeyed) (·.elim hfails fun hn => hst.elim hn.1 hn.2))

end

/-- A context that fails keeps an error flag that was set. -/
theorem isOn_dgFail_flagOn {f : Field} (ids : List Nat) (cause : Nat) (s : State)
    (hf : covered [.bp, .dg, .reg Reg.BP_ERRBUF.INDEX, .reg Reg.BP_ERRBUF.OWNER, .reg Reg.BP_ERRBUF.CAUSE, .reg Reg.BP_ERR.REVOKE]
      (.reg f) = false) (hw : f.width ≠ 0) : isOn f (dgFail ids cause (flagOn f s)) = true :=
  isOn_of_only_flagOn (dgFail_only ..) hf hw

/-- R347: a context of wrong length sets DG_ERR.LENGTH. -/
theorem isOn_length_lengthFail (i : Nat) (s : State) : isOn Reg.DG_ERR.LENGTH (lengthFail i s) = true := by
  have hfail : Only [.bp, .dg, .reg Reg.BP_ERRBUF.INDEX, .reg Reg.BP_ERRBUF.OWNER, .reg Reg.BP_ERRBUF.CAUSE, .reg Reg.BP_ERR.REVOKE,
      .reg Reg.DG_LENERR.LEN] (flagOn Reg.DG_ERR.LENGTH
        (updCtx i (fun c => { c with flagA := 0xC33CA5A5, flagB := 0x3CC35A5A, result := [] }) s)) (lengthFail i s) :=
    ((bump_only ..).mono (.ofAll (by decide +kernel))).trans ((dgFail_only ..).mono (.ofAll (by decide +kernel)))
  exact isOn_of_only_flagOn hfail (by decide) (by decide)

/-! Blocks (R346, R347). -/

section
variable {i : Nat} {block : List Byte} {poisoned last : Bool} {p : DigestParams} {s : State}

/-- R346: a block joins the message. -/
def blockFed (i : Nat) (block : List Byte) (s : State) : State :=
  updCtx i (fun c => { c with done := c.done + 1, fed := (getCtx i s).fed ++ block }) s

/-- A context that takes no block. -/
theorem digestBlockEff_idle (hidle : (getCtx i s).params = none ∨
    ((getCtx i s).st ≠ 4 ∧ ((getCtx i s).st ≠ 2 ∨ (getCtx i s).saving = true))) : digestBlockEff i block poisoned last s = s := by
  cases hparams : (getCtx i s).params with
  | none => simp only [digestBlockEff, hparams]
  | some p =>
    obtain ⟨hopen, hbusy⟩ := hidle.resolve_left (by simp [hparams])
    simp only [digestBlockEff, hparams]
    exact (if_neg hopen).trans (if_pos hbusy)

variable (hparams : (getCtx i s).params = some p)
include hparams

/-- R347: a block after the last one. -/
theorem digestBlockEff_over (hst : (getCtx i s).st = 4) : digestBlockEff i block poisoned last s = lengthFail i s := by
  simp only [digestBlockEff, hparams]
  exact if_pos hst

variable (hst : (getCtx i s).st = 2) (hfree : (getCtx i s).saving = false)
include hst hfree

/-- A running context takes a block. -/
theorem digestBlockEff_running : digestBlockEff i block poisoned last s =
    if poisoned then dgFail [i] 3 (poisonConsumed 0 s)
    else if block.length ≠ 128 ∨ (last ∧ (getCtx i s).done + 1 < p.blocks) ∨ p.blocks < (getCtx i s).done + 1 then lengthFail i s
    else if (getCtx i s).done + 1 = p.blocks then finishCtx i p ((getCtx i s).fed ++ block) (blockFed i block s)
    else blockFed i block s := by
  simp only [digestBlockEff, hparams]
  exact (if_neg (by omega)).trans (if_neg (not_or.mpr ⟨not_not.mpr hst, ne_true_of_eq_false hfree⟩))

/-- R298: a poisoned block ends the context. -/
theorem digestBlockEff_poisoned : digestBlockEff i block true last s = dgFail [i] 3 (poisonConsumed 0 s) :=
  (digestBlockEff_running hparams hst hfree).trans (if_pos rfl)

/-- R347: so does one of wrong length, or one too many, or an end too early. -/
theorem digestBlockEff_length
    (hbad : block.length ≠ 128 ∨ (last = true ∧ (getCtx i s).done + 1 < p.blocks) ∨ p.blocks < (getCtx i s).done + 1) :
    digestBlockEff i block false last s = lengthFail i s :=
  (digestBlockEff_running hparams hst hfree).trans ((if_neg Bool.false_ne_true).trans (if_pos hbad))

variable (hlen : block.length = 128)
include hlen

/-- R346: a block joins the message. -/
theorem digestBlockEff_fed (hlast : last = true → p.blocks ≤ (getCtx i s).done + 1) (hmore : (getCtx i s).done + 1 < p.blocks) :
    digestBlockEff i block false last s = blockFed i block s := by
  have hgood : ¬ (block.length ≠ 128 ∨ (last = true ∧ (getCtx i s).done + 1 < p.blocks) ∨ p.blocks < (getCtx i s).done + 1) := by
    rintro (hbad | ⟨hend, hearly⟩ | hmany)
    · exact hbad hlen
    · exact absurd (hlast hend) (not_le.mpr hearly)
    · omega
  exact (digestBlockEff_running hparams hst hfree).trans ((if_neg Bool.false_ne_true).trans ((if_neg hgood).trans (if_neg hmore.ne)))

/-- R346: the last block ends the message. -/
theorem digestBlockEff_finished (hend : (getCtx i s).done + 1 = p.blocks) :
    digestBlockEff i block false last s = finishCtx i p ((getCtx i s).fed ++ block) (blockFed i block s) := by
  have hgood : ¬ (block.length ≠ 128 ∨ (last = true ∧ (getCtx i s).done + 1 < p.blocks) ∨ p.blocks < (getCtx i s).done + 1) := by
    rintro (hbad | ⟨-, hearly⟩ | hmany)
    · exact hbad hlen
    · omega
    · omega
  exact (digestBlockEff_running hparams hst hfree).trans ((if_neg Bool.false_ne_true).trans ((if_neg hgood).trans (if_pos hend)))

end

/-! The audit (R355). -/

section
variable {s : State}

/-- R355: an audit reads every closed QLC barrel. -/
theorem startAudit_started (hnone : s.dg.audit = none) (hen : isOn Reg.DG_AUDCTL.EN s = true)
    (hmode : backgroundMode s.gen.mode = true) (hclosed : s.mm.barrels.filter (fun b => b.state == 1) ≠ []) : startAudit s =
    (let u := setF Reg.DG_AUDSTAT.DONE 0 s
    { u with dg := { u.dg with audit := some ((s.mm.barrels.filter (fun b => b.state == 1)).map (·.num)), auditAgain := false } }) := by
  have hsome : ¬ (s.mm.barrels.filter (fun b => b.state == 1)).map (·.num) = [] := by simpa using hclosed
  have hstart : ¬ (s.dg.audit.isSome = true ∨ ¬ isOn Reg.DG_AUDCTL.EN s = true ∨ ¬ backgroundMode s.gen.mode = true) := by
    simp [hnone, hen, hmode]
  simp only [startAudit, if_neg hstart, if_neg hsome]

/-! The anti-rollback fuses (R359). -/

/-- R359: raising the fuses takes them to the running image's version, and never down. -/
theorem raiseArb_arb {i : SlotImage} (himg : s.dg.runImg = some i) : (raiseArb s).fuses.arb = Nat.max s.fuses.arb i.svn := by
  simp only [raiseArb, himg]
  split
  · exact (Nat.max_eq_right (Nat.le_of_lt ‹_›)).symm
  · exact (Nat.max_eq_left (not_lt.mp ‹_›)).symm

/-- R359: the other fuses stay. -/
theorem raiseArb_others (s : State) : (raiseArb s).fuses.uid = s.fuses.uid ∧ (raiseArb s).fuses.owners = s.fuses.owners := by
  unfold raiseArb
  split
  · split
    · exact ⟨rfl, rfl⟩
    · exact ⟨rfl, rfl⟩
  · exact ⟨rfl, rfl⟩

/-! The generator (R361). -/

/-- R361: a failure is an error, clears the health and is counted. -/
theorem rngHealthFailureEff_flags (s : State) : isOn Reg.DG_ERR.RNG (rngHealthFailureEff s) = true ∧
    isOn Reg.DG_RNG.HEALTH (rngHealthFailureEff s) = false ∧ getF Reg.DG_RNG.FAILS (rngHealthFailureEff s) =
      Nat.min (getF Reg.DG_RNG.FAILS s + 1) (2 ^ Reg.DG_RNG.FAILS.width - 1) := by
  have herr : Only [.reg Reg.DG_RNG.FAILS] (flagOn Reg.DG_ERR.RNG (flagOff Reg.DG_RNG.HEALTH s)) (rngHealthFailureEff s) := bump_only ..
  have hhealth : getF Reg.DG_RNG.HEALTH (rngHealthFailureEff s) = 0 := by
    rw [herr.getF_eq (by decide), (flagOn_only ..).getF_eq (by decide), getF_flagOff_self]
  have hfails : getF Reg.DG_RNG.FAILS (flagOn Reg.DG_ERR.RNG (flagOff Reg.DG_RNG.HEALTH s)) = getF Reg.DG_RNG.FAILS s := by
    rw [(flagOn_only ..).getF_eq (by decide), flagOff, getF_setF_ne _ _ (by decide)]
  refine ⟨isOn_of_only_flagOn herr (by decide) (by decide), ?_, ?_⟩
  · rw [isOn, hhealth]
    rfl
  · rw [rngHealthFailureEff, bump, getF_bumpBy_self, hfails]

/-- With nothing waiting for the generator, its return sets only the health. -/
theorem rngRestored_idle (hns : s.nsWait = []) (hsan : s.sh.sanState = 0) (hspdm : s.dg.spdmWait = []) :
    isOn Reg.DG_RNG.HEALTH (spdmServe (settleSanitize (settleNs (flagOn Reg.DG_RNG.HEALTH s)))) = true := by
  have hsettled : settleNs (flagOn Reg.DG_RNG.HEALTH s) = flagOn Reg.DG_RNG.HEALTH s := by
    have hwait : (flagOn Reg.DG_RNG.HEALTH s).nsWait = [] := hns
    rw [settleNs, hwait, List.foldl_nil]
  have hsanitized : settleSanitize (flagOn Reg.DG_RNG.HEALTH s) = flagOn Reg.DG_RNG.HEALTH s := by
    have hstate : (flagOn Reg.DG_RNG.HEALTH s).sh.sanState = 0 := hsan
    exact if_pos (by simp [hstate])
  have hon : rngServes (flagOn Reg.DG_RNG.HEALTH s) = true := isOn_flagOn (f := Reg.DG_RNG.HEALTH) s (by decide)
  rw [hsettled, hsanitized, spdmServe, if_pos hon]
  have hwait : (flagOn Reg.DG_RNG.HEALTH s).dg.spdmWait = [] := hspdm
  rw [hwait, List.foldl_nil]
  exact hon

/-! Substitutions (R230). -/

/-- R230: SP_SUBSEL latches an entry of the substitution table. -/
theorem latchSubst_fields {i : Nat} {e : Subst} (he : s.sp.subst[i]? = some e) :
    getF Reg.SP_SUBDATA0.FROM (latchSubst i s) = e.src % 2 ^ Reg.SP_SUBDATA0.FROM.width ∧
    getF Reg.SP_SUBDATA0.TO (latchSubst i s) = e.dst % 2 ^ Reg.SP_SUBDATA0.TO.width ∧
    getF Reg.SP_SUBDATA1.GROUP (latchSubst i s) = e.group % 2 ^ Reg.SP_SUBDATA1.GROUP.width ∧
    getF Reg.SP_SUBDATA1.STATE (latchSubst i s) = e.state % 2 ^ Reg.SP_SUBDATA1.STATE.width ∧
    getF Reg.SP_SUBDATA1.NEXTROW (latchSubst i s) = e.nextRow % 2 ^ Reg.SP_SUBDATA1.NEXTROW.width := by
  simp only [latchSubst, he, Option.getD_some]
  refine ⟨?_, ?_, ?_, ?_, getF_setF_self ..⟩
  · rw [getF_setF_ne _ _ (by decide), getF_setF_ne _ _ (by decide), getF_setF_ne _ _ (by decide), getF_setF_ne _ _ (by decide),
      getF_setF_self]
  · rw [getF_setF_ne _ _ (by decide), getF_setF_ne _ _ (by decide), getF_setF_ne _ _ (by decide), getF_setF_self]
  · rw [getF_setF_ne _ _ (by decide), getF_setF_ne _ _ (by decide), getF_setF_self]
  · rw [getF_setF_ne _ _ (by decide), getF_setF_self]

/-- The latched entry leaves its index. -/
theorem latchSubst_index (i : Nat) (s : State) : getF Reg.SP_SUBSEL.INDEX (latchSubst i s) = getF Reg.SP_SUBSEL.INDEX s :=
  (latchSubst_only ..).getF_eq (by decide)

end

/-! The statement. -/

/-- Settles O38: each clause is the one branch its hypotheses choose. -/
theorem digestAndTrust : Obligations.DigestAndTrust := by
  refine ⟨?_, ?_, ?_, ?_, ?_, ?_, ?_, ?_, ?_, ?_, ?_, ?_, ?_, ?_, ?_, ?_, ?_, ?_, ?_, ?_, ?_, ?_, ?_, ?_, ?_, ?_, ?_, ?_, ?_, ?_,
    ?_, ?_⟩
  · -- A context opens and takes a lane.
    intro p i s hfree hroom hlane
    have heff := (digestContextOpenEff_opened hfree hroom).trans (congrArg fitSlots (takeLane_free hlane))
    refine ⟨_, rfl, (only_of_next (execDigestContextOpen_only ..) rfl).mono (.ofAll (by decide +kernel)), ?_, heff⟩
    rw [heff, fitSlots_nextStart]
    rfl
  · -- No context opens.
    intro p s hrefused
    exact congrArg Host.Outcome.next (digestContextOpenEff_refused hrefused)
  · -- A save is done.
    intro ctx unwrapOk s hsaving
    have heff := digestSaveDoneEff_saved (unwrapOk := unwrapOk) hsaving
    refine ⟨_, rfl, (only_of_next (execDigestSaveDone_only ..) rfl).mono (.ofAll (by decide +kernel)), ?_, heff⟩
    rw [heff, (lanePassed_only ..).getF_eq (by decide), getF_count_saveCounted]
  · -- A keyed save that fails to unwrap.
    rintro ctx _ s hidle hkeyed rfl hst
    have hexec : exec (.digestSaveDone ctx false) s = .next _ := congrArg Host.Outcome.next (digestSaveDoneEff_unwrapFails hidle hkeyed hst)
    exact ⟨_, hexec, (only_of_next (execDigestSaveDone_only ..) hexec).mono (.ofAll (by decide +kernel)),
      isOn_dgFail_flagOn _ _ _ (by decide) (by decide), rfl⟩
  · -- No save.
    intro ctx unwrapOk s hidle hother
    exact congrArg Host.Outcome.next (digestSaveDoneEff_nothing hidle hother)
  · -- A block joins the message.
    rintro ctx block _ last p s hparams hst hfree rfl hlen hlast hmore
    exact ⟨_, rfl, (only_of_next (execDigestBlock_only ..) rfl).mono (.ofAll (by decide +kernel)),
      digestBlockEff_fed hparams hst hfree hlen hlast hmore⟩
  · -- A block of wrong length.
    rintro ctx block _ last p s hparams hst hfree rfl hbad
    have hexec : exec (.digestBlock ctx block false last) s = .next _ :=
      congrArg Host.Outcome.next (digestBlockEff_length hparams hst hfree hbad)
    exact ⟨_, hexec, (only_of_next (execDigestBlock_only ..) hexec).mono (.ofAll (by decide +kernel)), isOn_length_lengthFail .., rfl⟩
  · -- A poisoned block.
    rintro ctx block _ last p s hparams hst hfree rfl
    exact ⟨_, rfl, (only_of_next (execDigestBlock_only ..) rfl).mono (.ofAll (by decide +kernel)),
      digestBlockEff_poisoned hparams hst hfree⟩
  · -- A context that takes no block.
    intro ctx block poisoned last s hidle
    exact congrArg Host.Outcome.next (digestBlockEff_idle hidle)
  · -- An audit starts.
    intro who s hopen hown hnone hen hmode hclosed
    have hexec : exec (.auditStart who) s = .next (startAudit s) := congrArg Host.Outcome.next (setupWrite_taken hopen hown)
    have hstarted := startAudit_started hnone hen hmode hclosed
    refine ⟨_, hexec, (only_of_next (execAuditStart_only ..) hexec).mono (.ofAll (by decide +kernel)), ?_⟩
    have hdone : getF Reg.DG_AUDSTAT.DONE (setF Reg.DG_AUDSTAT.DONE 0 s) = 0 := (getF_setF_self ..).trans (Nat.zero_mod _)
    rw [hstarted]
    exact ⟨rfl, rfl, hdone, rfl, rfl⟩
  · -- AUDIT_START without the token.
    intro who s hopen hother
    exact congrArg Host.Outcome.next (setupWrite_refused hopen hother)
  · -- The audit's period has passed.
    intro s hperiod
    exact ⟨_, rfl, (only_of_next (execAuditPeriodTimer_only ..) rfl).mono (.ofAll (by decide +kernel)), if_neg hperiod⟩
  · -- The audit has no period.
    intro s hnone
    exact congrArg Host.Outcome.next (if_pos hnone)
  · -- The fuses rise to the running image's version.
    intro who i s hwho hopen hown himg
    have hexec : exec (.dgSecAdvance who) s = .next (raiseArb s) := congrArg Host.Outcome.next (mgmtWrite_taken hwho hopen hown)
    obtain ⟨huid, howners⟩ := raiseArb_others s
    exact ⟨_, hexec, (only_of_next (execDgSecAdvance_only ..) hexec).mono (.ofAll (by decide +kernel)), raiseArb_arb himg,
      huid, howners, rfl⟩
  · -- DG_SEC.ADVANCE is management's.
    intro who s hopen hother
    exact congrArg Host.Outcome.next (mgmtWrite_refused hopen hother)
  · -- The generator fails.
    intro s
    exact ⟨_, rfl, (only_of_next (execRngHealthFailure_only ..) rfl).mono (.ofAll (by decide +kernel)), rngHealthFailureEff_flags s⟩
  · -- It is restored, and nothing waits for it.
    intro s hns hsan hspdm
    exact ⟨_, rfl, (only_of_next (execRngHealthRestored_only ..) rfl).mono (.ofAll (by decide +kernel)),
      rngRestored_idle hns hsan hspdm⟩
  · -- EC_MAXCORR clears.
    intro who s hopen hown
    have hexec : exec (.ecMaxcorrClr who) s = .next (setF Reg.EC_MAXCORR.MAX 0 s) :=
      congrArg Host.Outcome.next (setupWrite_taken hopen hown)
    exact ⟨_, hexec, (only_of_next (execEcMaxcorrClr_only ..) hexec).mono (.ofAll (by decide +kernel)),
      (getF_setF_self ..).trans (Nat.zero_mod _), rfl⟩
  · -- EC_MAXCORR without the token.
    intro who s hopen hother
    exact congrArg Host.Outcome.next (setupWrite_refused hopen hother)
  · -- SP_SUBSEL latches an entry.
    intro who index e s hopen hown hindex he
    have heff : spSubselWriteEff who index s = latchSubst index (setF Reg.SP_SUBSEL.INDEX index s) :=
      (setupWrite_taken hopen hown).trans (by rw [Nat.mod_eq_of_lt hindex])
    have hexec : exec (.spSubselWrite who index) s = .next _ := congrArg Host.Outcome.next heff
    exact ⟨_, hexec, (only_of_next (execSpSubselWrite_only ..) hexec).mono (.ofAll (by decide +kernel)),
      (latchSubst_index ..).trans (getF_setF_self ..), latchSubst_fields (s := setF Reg.SP_SUBSEL.INDEX index s) he⟩
  · -- SP_SUBSEL without the token.
    intro who index s hopen hother
    exact congrArg Host.Outcome.next (setupWrite_refused hopen hother)
  · -- A context opens.
    intro p i s hfree hroom
    exact ⟨_, rfl, (only_of_next (execDigestContextOpen_only ..) rfl).mono (.ofAll (by decide +kernel)),
      digestContextOpenEff_opened hfree hroom⟩
  · -- The last block of a message.
    rintro ctx block _ last p s hparams hst hfree rfl hlen hend
    exact ⟨_, rfl, (only_of_next (execDigestBlock_only ..) rfl).mono (.ofAll (by decide +kernel)),
      digestBlockEff_finished hparams hst hfree hlen hend⟩
  · -- A block after it.
    intro ctx block poisoned last p s hparams hst
    exact ⟨_, rfl, (only_of_next (execDigestBlock_only ..) rfl).mono (.ofAll (by decide +kernel)), digestBlockEff_over hparams hst⟩
  · -- AUDIT_START with the token.
    intro who s hopen hown
    exact ⟨_, rfl, (only_of_next (execAuditStart_only ..) rfl).mono (.ofAll (by decide +kernel)), setupWrite_taken hopen hown⟩
  · -- AUDIT_START where setup is closed.
    intro who s hclosed
    exact congrArg Host.Outcome.next (setupWrite_closed hclosed)
  · -- DG_SEC.ADVANCE by management.
    intro who s hwho hopen hown
    exact ⟨_, rfl, (only_of_next (execDgSecAdvance_only ..) rfl).mono (.ofAll (by decide +kernel)), mgmtWrite_taken hwho hopen hown⟩
  · -- DG_SEC.ADVANCE where setup is closed.
    intro who s hclosed
    exact congrArg Host.Outcome.next (setupWrite_closed hclosed)
  · -- EC_MAXCORR where setup is closed.
    intro who s hclosed
    exact congrArg Host.Outcome.next (setupWrite_closed hclosed)
  · -- SP_SUBSEL where setup is closed.
    intro who index s hclosed
    exact congrArg Host.Outcome.next (setupWrite_closed hclosed)
  · -- The generator is restored.
    intro s
    exact ⟨_, rfl, (only_of_next (execRngHealthRestored_only ..) rfl).mono (.ofAll (by decide +kernel)), rfl⟩
  · -- SP_SUBSEL with the token.
    intro who index s hopen hown
    exact ⟨_, rfl, (only_of_next (execSpSubselWrite_only ..) rfl).mono (.ofAll (by decide +kernel)), setupWrite_taken hopen hown⟩

end Sys2Proof.Machine
end

section
/-! SUPPORT. Monitoring, the event log, time marks, the watchdog and the firmware flash. Rules R368, R372, R374 to R377, R379, R380,
R320, R49. -/
namespace Sys2Proof.Machine
-- One theorem at a time: a thread for each would exhaust the memory the check allows.
set_option Elab.async false

/-! Sensors (R368, R369). -/

section
variable {x : SensorSample} {s : State}

/-- R369: a sample is kept, and MG_HUSTAT.VOLT and the composite temperature follow it. -/
def sampleKept (x : SensorSample) (s : State) : State :=
  setF Reg.MG_HUSTAT.VOLT (x.volts.getD 15 0) { s with mg := { s.mg with sample := x }, sh := { s.sh with compTempK := compositeK x } }

/-- In reset nothing is sampled. -/
theorem sensorSampleEff_reset (hmode : s.gen.mode = .reset) : sensorSampleEff x s = s := if_pos hmode

/-- R368: the hardware acts on a sample always, firmware while the management image runs. -/
theorem sensorSampleEff_sampled (hmode : s.gen.mode ≠ .reset) : sensorSampleEff x s =
    applyHardware x (if s.mg.run then applySupplyWarn x (applyHostTemp x (applyLevels x (sampleKept x s))) else sampleKept x s) :=
  if_neg hmode

end

/-! The event log (R374, R375). -/

section
variable {count : Nat} {s : State}

/-- R375: the entries that a flush of `count` may write, beside the record of dropped ones. -/
def flushCount (count : Nat) (s : State) : Nat :=
  Nat.min (Nat.min count (logBudget s - if s.mg.droppedNow = 0 then 0 else 1)) s.mg.pend.length

/-- With nothing dropped the whole budget is the entries'. -/
theorem flushCount_undropped (hnone : s.mg.droppedNow = 0) :
    flushCount count s = Nat.min (Nat.min count (logBudget s)) s.mg.pend.length := by
  rw [flushCount, if_pos hnone, Nat.sub_zero]

/-- The rate's record of a flush. -/
def flushRecorded (n extra : Nat) (u : State) : State :=
  { u with mg := { u.mg with wrote := (u.mg.wrote.filter (fun w => decide (now u < w.1 + 60000000000))) ++ [(now u, n + extra)] } }

/-- No flush: in reset, without firmware, or with nothing that may be written. -/
theorem eventLogFlushEff_nothing (hidle : s.gen.mode = .reset ∨ s.mg.run = false ∨ flushCount count s = 0) :
    eventLogFlushEff count s = s := by
  rw [← or_assoc] at hidle
  rcases hidle with hoff | hnone
  · exact if_pos (hoff.imp_right ne_true_of_eq_false)
  · have hflush : (if flushCount count s = 0 then s
        else flushRecorded (flushCount count s) (if s.mg.droppedNow = 0 then 0 else 1) (flushLog (flushCount count s) s)) = s :=
      if_pos hnone
    exact ite_eq_left_iff.mpr fun _ => hflush

/-- R375: a flush writes pending entries, oldest first. -/
theorem eventLogFlushEff_flushed (hmode : s.gen.mode ≠ .reset) (hrun : s.mg.run = true) (hsome : flushCount count s ≠ 0) :
    eventLogFlushEff count s =
      flushRecorded (flushCount count s) (if s.mg.droppedNow = 0 then 0 else 1) (flushLog (flushCount count s) s) :=
  (if_neg (not_or.mpr ⟨hmode, not_not.mpr hrun⟩)).trans (if_neg hsome)

/-- Writing entries to flash leaves management's state alone. -/
theorem foldl_flashPut_mg (w : List LogEntry) (s : State) : (w.foldl (fun t e => flashPut e t) s).mg = s.mg := by
  induction w generalizing s with
  | nil => rfl
  | cons e w ih => exact (ih (flashPut e s)).trans ((flashPut_only e s).keeps .mg rfl)

/-- R374: what is flushed is pending no more. -/
theorem flushLog_mg {n : Nat} (hnone : s.mg.droppedNow = 0) (hn : n ≠ 0) (hle : n ≤ s.mg.pend.length) :
    (flushLog n s).mg = { s.mg with pend := s.mg.pend.drop n } := by
  have hpend : s.mg.pend ≠ [] := fun h => by simp [h] at hle; exact hn hle
  have hrecord : recordDropped s = s := if_pos hnone
  simp only [flushLog, if_neg (not_or.mpr ⟨hn, hpend⟩), hrecord, foldl_flashPut_mg]

/-- A flush takes no time. -/
theorem now_flushLog (n : Nat) (s : State) : now (flushLog n s) = now s := congrArg Time.fabric ((flushLog_only n s).keeps .time rfl)

/-- R374: acknowledging leaves the ring alone and marks the protected entries that it covers. -/
theorem ackProtected_ff (value : Nat) (s : State) : (ackProtected value s).ff =
    { s.ff with prot := s.ff.prot.map (fun e => (e.1, e.2 || ackCovers (s.mg.nextSeq - 1) value e.1.seq)) } := by
  simp only [ackProtected]
  split <;> rfl

end

/-! Time marks and the watchdog (R320, R367). -/

section
variable {who : Writer} {s : State}

/-- In reset, or without firmware, no time mark is written. -/
theorem timeMark_off (hoff : s.gen.mode = .reset ∨ s.mg.run = false) : exec .timeMarkWrite s = .next s :=
  congrArg Host.Outcome.next (if_pos (hoff.imp_right ne_true_of_eq_false))

/-- R320: a time mark records device time. -/
theorem timeMark_written (hmode : s.gen.mode ≠ .reset) (hrun : s.mg.run = true) :
    exec .timeMarkWrite s = .next { s with ff := { s.ff with timeMark := now s } } :=
  congrArg Host.Outcome.next (if_neg (not_or.mpr ⟨hmode, not_not.mpr hrun⟩))

/-- R367: a kick restarts the watchdog's period. -/
theorem wdogKick_taken (hwho : who ≠ .host) (hopen : setupOpen who s = true) :
    exec (.mgWdogKick who) s = .next { s with mg := { s.mg with wdogAt := now s } } :=
  congrArg Host.Outcome.next ((if_neg (not_not.mpr hopen)).trans (if_neg hwho))

/-- R49: the host does not kick. -/
theorem wdogKick_host (hopen : setupOpen .host s = true) :
    exec (.mgWdogKick .host) s = .next (genErr Reg.GEN_ERR.OWNWR Reg.MG_WDOG.KICK.reg .host s) :=
  congrArg Host.Outcome.next ((if_neg (not_not.mpr hopen)).trans (if_pos rfl))

end

/-! Commands to the firmware flash (R377, R379). -/

section
variable {who : Writer} {body : State → State} {s : State}

/-- Setup is closed. -/
theorem ffCommand_closed (hclosed : setupOpen who s = false) : ffCommand who body s = s := if_pos (ne_true_of_eq_false hclosed)

/-- R379: the host commands nothing. -/
theorem ffCommand_host (hopen : setupOpen .host s = true) :
    ffCommand .host body s = genErr Reg.GEN_ERR.OWNWR Reg.FF_CMD.OP.reg .host s :=
  (if_neg (not_not.mpr hopen)).trans (if_pos rfl)

variable (hwho : who ≠ .host) (hopen : setupOpen who s = true)
include hwho hopen

/-- A command while one runs is refused. -/
theorem ffCommand_busy (hbusy : s.ff.busy.isSome = true) : ffCommand who body s = flagOn Reg.FF_STATUS.RANGE s :=
  (if_neg (not_not.mpr hopen)).trans ((if_neg hwho).trans (if_pos hbusy))

/-- Otherwise it runs. -/
theorem ffCommand_runs (hfree : s.ff.busy = none) : ffCommand who body s = body s :=
  (if_neg (not_not.mpr hopen)).trans ((if_neg hwho).trans (if_neg (by simp [hfree])))

end

section
variable {a w : Nat} {s : State}

/-- A word that was written is read back. -/
theorem ffWordAt_written (hwritten : s.ff.words.any (fun w => w.1 == a) = true) : ffWordAt a s = (sGet s.ff.words ffOnes a, s) :=
  if_pos (.inl hwritten)

/-- R377: FF_DATALO shows the low half of a word. -/
theorem getF_dataLo_ffShow (w : Nat) (s : State) : getF Reg.FF_DATALO.DATA (ffShow w s) = w % 2 ^ 32 :=
  (getF_setF_self ..).trans (Nat.mod_mod _ _)

/-- R377: FF_DATAHI shows the high half. -/
theorem getF_dataHi_ffShow (w : Nat) (s : State) : getF Reg.FF_DATAHI.DATA (ffShow w s) = w / 2 ^ 32 % 2 ^ 32 :=
  (getF_setF_ne _ _ (by decide)).trans (getF_setF_self ..)

/-- R379: what a program command does. -/
def ffProgrammed (s : State) : State :=
  if ffProtected (ffAddr s / 4096) s then flagOn Reg.FF_STATUS.PROTECT s
  else
    let r := ffWordAt (ffAddr s) s
    if r.1 ≠ ffOnes then flagOn Reg.FF_STATUS.NOTERASED r.2
    else flagOn Reg.FF_STATUS.BUSY { r.2 with ff := { r.2.ff with busy := some (2, ffAddr s, ffData s) } }

/-- R379: the selected boot block is protected. -/
theorem ffProgrammed_protected (hprot : ffProtected (ffAddr s / 4096) s = true) : ffProgrammed s = flagOn Reg.FF_STATUS.PROTECT s :=
  if_pos hprot

/-- R379: an erased word is programmed. -/
theorem ffProgrammed_erased (hprot : ffProtected (ffAddr s / 4096) s = false) (hword : ffWordAt (ffAddr s) s = (ffOnes, s)) :
    ffProgrammed s = flagOn Reg.FF_STATUS.BUSY { s with ff := { s.ff with busy := some (2, ffAddr s, ffData s) } } := by
  simp only [ffProgrammed, hprot, hword, Bool.false_eq_true, ne_eq, not_true_eq_false, if_false]

/-- R379: a word that is not erased is refused. -/
theorem ffProgrammed_notErased (hprot : ffProtected (ffAddr s / 4096) s = false)
    (hwritten : s.ff.words.any (fun w => w.1 == ffAddr s) = true) (hword : sGet s.ff.words ffOnes (ffAddr s) ≠ ffOnes) :
    ffProgrammed s = flagOn Reg.FF_STATUS.NOTERASED s := by
  simp only [ffProgrammed, hprot, ffWordAt_written hwritten, Bool.false_eq_true, ne_eq, hword, not_false_eq_true, if_false, if_true]

/-- R380: what an erase command does. -/
def ffEraseBegun (count : Nat) (s : State) : State :=
  let sec := ffAddr s / 4096
  let n := count % 4 + 1
  let secs := (List.range n).map (sec + ·)
  if sec / 8192 ≠ (sec + n - 1) / 8192 then flagOn Reg.FF_STATUS.RANGE s
  else if secs.any (fun x => ffProtected x s) then flagOn Reg.FF_STATUS.PROTECT s
  else flagOn Reg.FF_STATUS.BUSY { s with ff := { s.ff with
    busy := some (3, sec, n)
    half := s.ff.half.filter (fun h => !secs.contains h.1) ++ secs.map (fun x => (x, Nat.min (ffCount x s + 1) 16777215)) } }

/-- R380: an erase of one sector of the selected boot block. -/
theorem ffEraseBegun_protected (hprot : ffProtected (ffAddr s / 4096) s = true) : ffEraseBegun 0 s = flagOn Reg.FF_STATUS.PROTECT s := by
  simp [ffEraseBegun, hprot]

/-- R380: an erase of one other sector begins. -/
theorem ffEraseBegun_one (hprot : ffProtected (ffAddr s / 4096) s = false) : ffEraseBegun 0 s =
    flagOn Reg.FF_STATUS.BUSY { s with ff := { s.ff with
      busy := some (3, ffAddr s / 4096, 1)
      half := s.ff.half.filter (fun h => !([ffAddr s / 4096] : List Nat).contains h.1) ++
        [(ffAddr s / 4096, Nat.min (ffCount (ffAddr s / 4096) s + 1) 16777215)] } } := by
  simp [ffEraseBegun, hprot]

end

/-! The end of an operation (R379, R380). -/

section
variable {a x n : Nat} {s : State}

/-- No operation runs. -/
theorem ffOperationDoneEff_none {ok : Bool} (hnone : s.ff.busy = none) : ffOperationDoneEff ok s = s := by
  simp only [ffOperationDoneEff, hnone]

/-- The operation that ran has ended. -/
def ffIdle (s : State) : State := flagOff Reg.FF_STATUS.BUSY { s with ff := { s.ff with busy := none } }

/-- BUSY is clear. -/
theorem isOn_busy_ffIdle (s : State) : isOn Reg.FF_STATUS.BUSY (ffIdle s) = false := by
  rw [isOn, ffIdle, getF_flagOff_self]
  rfl

/-- R379: the word is programmed. -/
theorem ffOperationDoneEff_programmed (hbusy : s.ff.busy = some (2, a, x)) :
    ffOperationDoneEff true s = { ffIdle s with ff := { s.ff with busy := none, words := sPut s.ff.words ffOnes a x } } := by
  simp only [ffOperationDoneEff, hbusy, if_true] <;> rfl

/-- R379: a program that fails leaves a free value. -/
theorem ffOperationDoneEff_programFails (hbusy : s.ff.busy = some (2, a, x)) : ffOperationDoneEff false s =
    flagOn Reg.FF_STATUS.PROGFAIL { tickFree (ffIdle s) with
      ff := { s.ff with busy := none, words := sPut s.ff.words ffOnes a (Config.freeValue s.freeCtr % 2 ^ 64) } } := by
  simp only [ffOperationDoneEff, hbusy, if_true, Bool.false_eq_true, if_false] <;> rfl

/-- R380: an erase that fails. -/
theorem ffOperationDoneEff_eraseFails (hbusy : s.ff.busy = some (n, a, x)) (hop : n ≠ 2) :
    ffOperationDoneEff false s = flagOn Reg.FF_STATUS.ERASEFAIL (ffIdle s) := by
  simp only [ffOperationDoneEff, hbusy, hop, if_false, Bool.false_eq_true] <;> rfl

/-- R380: the sectors are erased. -/
theorem ffOperationDoneEff_erased (hbusy : s.ff.busy = some (n, a, x)) (hop : n ≠ 2) :
    ffOperationDoneEff true s = (List.range x).foldl (fun t i => ffErased (a + i) t) (ffIdle s) := by
  simp only [ffOperationDoneEff, hbusy, hop, if_false, if_true] <;> rfl

end

/-! The statement. -/

/-- Settles O39: each clause is the one branch its hypotheses choose. -/
theorem managementAndFlash : Obligations.ManagementAndFlash := by
  refine ⟨?_, ?_, ?_, ?_, ?_, ?_, ?_, ?_, ?_, ?_, ?_, ?_, ?_, ?_, ?_, ?_, ?_, ?_, ?_, ?_, ?_, ?_, ?_, ?_, ?_, ?_, ?_, ?_, ?_, ?_, ?_,
    ?_, ?_, ?_, ?_, ?_, ?_, ?_, ?_, ?_, ?_, ?_, ?_⟩
  · -- A sample without firmware.
    intro x s hmode hrun
    exact ⟨_, rfl, (only_of_next (execSensorSample_only ..) rfl).mono (.ofAll (by decide +kernel)),
      (sensorSampleEff_sampled hmode).trans (congrArg (applyHardware x) (if_neg (ne_true_of_eq_false hrun)))⟩
  · -- A sample with firmware.
    intro x s hmode hrun
    exact ⟨_, rfl, (only_of_next (execSensorSample_only ..) rfl).mono (.ofAll (by decide +kernel)),
      (sensorSampleEff_sampled hmode).trans (congrArg (applyHardware x) (if_pos hrun))⟩
  · -- A sample in reset.
    intro x s hmode
    exact congrArg Host.Outcome.next (sensorSampleEff_reset hmode)
  · -- A flush, with nothing dropped.
    intro count s hmode hrun hnone hsome
    rw [← flushCount_undropped hnone] at hsome ⊢
    have heff := eventLogFlushEff_flushed hmode hrun hsome.ne'
    have hmg := flushLog_mg hnone hsome.ne' (Nat.min_le_right _ _)
    refine ⟨_, rfl, (only_of_next (execEventLogFlush_only ..) rfl).mono (.ofAll (by decide +kernel)), ?_, ?_⟩
    · rw [heff, flushRecorded, hmg]
    · rw [heff, flushRecorded, hmg, now_flushLog, if_pos hnone, Nat.add_zero]
  · -- No flush.
    intro count s hidle
    exact congrArg Host.Outcome.next (eventLogFlushEff_nothing hidle)
  · -- A time mark.
    intro s hmode hrun
    have hexec := timeMark_written hmode hrun
    exact ⟨_, hexec, (only_of_next (execTimeMarkWrite_only ..) hexec).mono (.ofAll (by decide +kernel)), rfl⟩
  · -- No time mark.
    intro s hoff
    exact timeMark_off hoff
  · -- Management kicks the watchdog.
    rintro _ s rfl hopen
    have hexec := wdogKick_taken (who := .mgmt) (by decide) hopen
    exact ⟨_, hexec, (only_of_next (execMgWdogKick_only ..) hexec).mono (.ofAll (by decide +kernel)), rfl⟩
  · -- The host does.
    rintro _ s rfl hopen
    exact wdogKick_host hopen
  · -- An acknowledgement.
    intro who seq s hopen hown
    have hexec : exec (.mgLogackWrite who seq) s = .next (ackProtected seq.toNat s) :=
      congrArg Host.Outcome.next (setupWrite_taken hopen hown)
    refine ⟨_, hexec, (only_of_next (execMgLogackWrite_only ..) hexec).mono (.ofAll (by decide +kernel)), ?_, ?_, rfl⟩
    · rw [ackProtected_ff]
    · rw [ackProtected_ff]
  · -- An acknowledgement without the token.
    intro who seq s hopen hother
    exact congrArg Host.Outcome.next (setupWrite_refused hopen hother)
  · -- A written word is read.
    rintro _ s rfl hopen hfree hwritten
    have heff : ffReadEff .mgmt s = ffShow (sGet s.ff.words ffOnes (ffAddr s)) s :=
      (ffCommand_runs (by decide) hopen hfree).trans (by rw [ffWordAt_written hwritten])
    have hexec : exec (.ffRead .mgmt) s = .next _ := congrArg Host.Outcome.next heff
    exact ⟨_, hexec, (only_of_next (execFfRead_only ..) hexec).mono (.ofAll (by decide +kernel)), getF_dataLo_ffShow ..,
      getF_dataHi_ffShow .., rfl⟩
  · -- The host reads.
    rintro _ s rfl hopen
    exact congrArg Host.Outcome.next (ffCommand_host hopen)
  · -- A read while an operation runs.
    rintro _ s rfl hopen hbusy
    have hexec : exec (.ffRead .mgmt) s = .next (flagOn Reg.FF_STATUS.RANGE s) :=
      congrArg Host.Outcome.next (ffCommand_busy (by decide) hopen (Option.isSome_iff_ne_none.mpr hbusy))
    exact ⟨_, hexec, (only_of_next (execFfRead_only ..) hexec).mono (.ofAll (by decide +kernel)), isOn_flagOn _ (by decide), rfl⟩
  · -- A program of the selected boot block.
    rintro _ s rfl hopen hfree hprot
    have hexec : exec (.ffProgram .mgmt) s = .next _ :=
      congrArg Host.Outcome.next ((ffCommand_runs (by decide) hopen hfree).trans (ffProgrammed_protected hprot))
    exact ⟨_, hexec, (only_of_next (execFfProgram_only ..) hexec).mono (.ofAll (by decide +kernel)), isOn_flagOn _ (by decide), rfl⟩
  · -- A program of an erased word.
    rintro _ s rfl hopen hfree hprot hword
    have hexec : exec (.ffProgram .mgmt) s = .next _ :=
      congrArg Host.Outcome.next ((ffCommand_runs (by decide) hopen hfree).trans (ffProgrammed_erased hprot hword))
    exact ⟨_, hexec, (only_of_next (execFfProgram_only ..) hexec).mono (.ofAll (by decide +kernel)), isOn_flagOn _ (by decide), rfl⟩
  · -- A program of a word that is not erased.
    rintro _ s rfl hopen hfree hprot hwritten hword
    have hexec : exec (.ffProgram .mgmt) s = .next _ :=
      congrArg Host.Outcome.next ((ffCommand_runs (by decide) hopen hfree).trans (ffProgrammed_notErased hprot hwritten hword))
    exact ⟨_, hexec, (only_of_next (execFfProgram_only ..) hexec).mono (.ofAll (by decide +kernel)), isOn_flagOn _ (by decide), rfl⟩
  · -- An erase of the selected boot block.
    rintro _ _ s rfl hopen hfree rfl hprot
    have hexec : exec (.ffErase .mgmt 0) s = .next _ :=
      congrArg Host.Outcome.next ((ffCommand_runs (by decide) hopen hfree).trans (ffEraseBegun_protected hprot))
    exact ⟨_, hexec, (only_of_next (execFfErase_only ..) hexec).mono (.ofAll (by decide +kernel)), isOn_flagOn _ (by decide), rfl⟩
  · -- An erase of one other sector.
    rintro _ _ s rfl hopen hfree rfl hprot
    have hexec : exec (.ffErase .mgmt 0) s = .next _ :=
      congrArg Host.Outcome.next ((ffCommand_runs (by decide) hopen hfree).trans (ffEraseBegun_one hprot))
    exact ⟨_, hexec, (only_of_next (execFfErase_only ..) hexec).mono (.ofAll (by decide +kernel)), isOn_flagOn _ (by decide),
      rfl, rfl, rfl⟩
  · -- A header is read.
    rintro _ s rfl hopen hfree
    have hexec : exec (.ffReadhdr .mgmt) s = .next (ffShow (Config.freeValue s.freeCtr % 2 ^ 64) (tickFree s)) :=
      congrArg Host.Outcome.next (ffCommand_runs (by decide) hopen hfree)
    exact ⟨_, hexec, (only_of_next (execFfReadhdr_only ..) hexec).mono (.ofAll (by decide +kernel)), rfl, rfl⟩
  · -- The host reads one.
    rintro _ s rfl hopen
    exact congrArg Host.Outcome.next (ffCommand_host hopen)
  · -- A program ends.
    rintro _ a x s hbusy rfl
    have hexec : exec (.ffOperationDone true) s = .next _ := congrArg Host.Outcome.next (ffOperationDoneEff_programmed hbusy)
    exact ⟨_, hexec, (only_of_next (execFfOperationDone_only ..) hexec).mono (.ofAll (by decide +kernel)), rfl, isOn_busy_ffIdle s⟩
  · -- A program fails.
    rintro _ a x s hbusy rfl
    have hexec : exec (.ffOperationDone false) s = .next _ := congrArg Host.Outcome.next (ffOperationDoneEff_programFails hbusy)
    exact ⟨_, hexec, (only_of_next (execFfOperationDone_only ..) hexec).mono (.ofAll (by decide +kernel)), rfl,
      isOn_flagOn _ (by decide)⟩
  · -- An erase fails.
    rintro _ a x n s hbusy hop rfl
    have hexec : exec (.ffOperationDone false) s = .next _ := congrArg Host.Outcome.next (ffOperationDoneEff_eraseFails hbusy hop)
    exact ⟨_, hexec, (only_of_next (execFfOperationDone_only ..) hexec).mono (.ofAll (by decide +kernel)), rfl,
      isOn_flagOn _ (by decide), ((flagOn_only ..).isOn_eq (by decide)).trans (isOn_busy_ffIdle s)⟩
  · -- No operation runs.
    intro ok s hnone
    exact congrArg Host.Outcome.next (ffOperationDoneEff_none hnone)
  · -- A flush.
    rintro count _ s hmode hrun rfl hsome
    exact ⟨_, rfl, (only_of_next (execEventLogFlush_only ..) rfl).mono (.ofAll (by decide +kernel)),
      eventLogFlushEff_flushed hmode hrun hsome⟩
  · -- A kick where setup is closed.
    intro who s hclosed
    exact congrArg Host.Outcome.next (setupWrite_closed hclosed)
  · -- An acknowledgement where setup is closed.
    intro who seq s hclosed
    exact congrArg Host.Outcome.next (setupWrite_closed hclosed)
  · -- A word is read.
    intro who s hwho hopen hfree
    exact ⟨_, rfl, (only_of_next (execFfRead_only ..) rfl).mono (.ofAll (by decide +kernel)), ffCommand_runs hwho hopen hfree⟩
  · -- A read while an operation runs, by anyone but the host.
    intro who s hwho hopen hbusy
    have hexec : exec (.ffRead who) s = .next (flagOn Reg.FF_STATUS.RANGE s) :=
      congrArg Host.Outcome.next (ffCommand_busy hwho hopen hbusy)
    exact ⟨_, hexec, (only_of_next (execFfRead_only ..) hexec).mono (.ofAll (by decide +kernel)), isOn_flagOn _ (by decide), rfl, rfl⟩
  · -- A read where setup is closed.
    intro who s hclosed
    exact congrArg Host.Outcome.next (ffCommand_closed hclosed)
  · -- A program.
    intro who s hwho hopen hfree
    exact ⟨_, rfl, (only_of_next (execFfProgram_only ..) rfl).mono (.ofAll (by decide +kernel)), ffCommand_runs hwho hopen hfree⟩
  · -- A program while an operation runs.
    intro who s hwho hopen hbusy
    have hexec : exec (.ffProgram who) s = .next (flagOn Reg.FF_STATUS.RANGE s) :=
      congrArg Host.Outcome.next (ffCommand_busy hwho hopen hbusy)
    exact ⟨_, hexec, (only_of_next (execFfProgram_only ..) hexec).mono (.ofAll (by decide +kernel)), isOn_flagOn _ (by decide),
      rfl, rfl⟩
  · -- A program where setup is closed.
    intro who s hclosed
    exact congrArg Host.Outcome.next (ffCommand_closed hclosed)
  · -- The host programs.
    rintro _ s rfl hopen
    exact congrArg Host.Outcome.next (ffCommand_host hopen)
  · -- An erase.
    intro who count s hwho hopen hfree
    exact ⟨_, rfl, (only_of_next (execFfErase_only ..) rfl).mono (.ofAll (by decide +kernel)), ffCommand_runs hwho hopen hfree⟩
  · -- An erase while an operation runs.
    intro who count s hwho hopen hbusy
    have hexec : exec (.ffErase who count) s = .next (flagOn Reg.FF_STATUS.RANGE s) :=
      congrArg Host.Outcome.next (ffCommand_busy hwho hopen hbusy)
    exact ⟨_, hexec, (only_of_next (execFfErase_only ..) hexec).mono (.ofAll (by decide +kernel)), isOn_flagOn _ (by decide), rfl, rfl⟩
  · -- An erase where setup is closed.
    intro who count s hclosed
    exact congrArg Host.Outcome.next (ffCommand_closed hclosed)
  · -- The host erases.
    rintro _ count s rfl hopen
    exact congrArg Host.Outcome.next (ffCommand_host hopen)
  · -- A header read.
    intro who s hwho hopen hfree
    exact ⟨_, rfl, (only_of_next (execFfReadhdr_only ..) rfl).mono (.ofAll (by decide +kernel)), ffCommand_runs hwho hopen hfree⟩
  · -- A header read while an operation runs.
    intro who s hwho hopen hbusy
    have hexec : exec (.ffReadhdr who) s = .next (flagOn Reg.FF_STATUS.RANGE s) :=
      congrArg Host.Outcome.next (ffCommand_busy hwho hopen hbusy)
    exact ⟨_, hexec, (only_of_next (execFfReadhdr_only ..) hexec).mono (.ofAll (by decide +kernel)), isOn_flagOn _ (by decide),
      rfl, rfl⟩
  · -- A header read where setup is closed.
    intro who s hclosed
    exact congrArg Host.Outcome.next (ffCommand_closed hclosed)
  · -- An erase ends.
    rintro _ a x n s hbusy hop rfl
    exact ⟨_, rfl, (only_of_next (execFfOperationDone_only ..) rfl).mono (.ofAll (by decide +kernel)),
      ffOperationDoneEff_erased hbusy hop⟩

end Sys2Proof.Machine
end

section
/-! SUPPORT. NVMe-MI commands. Rules R386, R387, R373, R374, R418. -/
namespace Sys2Proof.Machine
-- One theorem at a time: a thread for each would exhaust the memory the check allows.
set_option Elab.async false

/-! The endpoint answers while NVMe-MI is served (R386). -/

section
variable {f : State → State} {s : State}

/-- R386: it answers. -/
theorem miAnswer_on (hmode : miMode s = true) : miAnswer f s = f s := if_pos hmode

/-- R386: in a mode that does not serve NVMe-MI nothing changes. -/
theorem miAnswer_off (hmode : miMode s = false) : miAnswer f s = s := if_neg (ne_true_of_eq_false hmode)

/-- A command of the endpoint changes nothing in such a mode. -/
theorem same_of_miAnswer {c : Instr} (hexec : exec c s = .next (miAnswer f s)) (hmode : miMode s = false) : exec c s = .next s := by
  rw [hexec, miAnswer_off hmode]

end

/-! Data structures (R386). -/

section
variable {dtyp portid cntlid : Nat} {s : State}

/-- An unknown data structure. -/
theorem readNvmeMiEff_unknown (hmode : miMode s = true) (hdtyp : 5 ≤ dtyp) : readNvmeMiEff dtyp portid cntlid s = emit (.mi 4 []) s := by
  obtain ⟨n, rfl⟩ := Nat.exists_eq_add_of_le' hdtyp
  exact miAnswer_on hmode

/-- R386: the information of a port, if there is one. -/
theorem readNvmeMiEff_port (hmode : miMode s = true) : readNvmeMiEff 1 portid cntlid s =
    match miPort portid s with
    | some d => emit (.mi 0 d) s
    | none => emit (.mi 4 []) s := (miAnswer_on hmode).trans rfl

/-- R386: the information of a controller, if there is one. -/
theorem readNvmeMiEff_controller (hmode : miMode s = true) : readNvmeMiEff 3 portid cntlid s =
    match miController cntlid s with
    | some d => emit (.mi 0 d) s
    | none => emit (.mi 4 []) s := (miAnswer_on hmode).trans rfl

end

/-! Configuration (R386). -/

section
variable {cfg transport value : Nat} {s : State}

/-- R386: the value of a known configuration. -/
theorem configurationGetEff_known (hmode : miMode s = true) (htransport : transport ≤ 1) : configurationGetEff cfg transport s =
    match cfg with
    | 1 => emit (.mi 0 [s.mg.smbusFreq]) s
    | 3 => emit (.mi 0 (le 2 (s.mg.mtu.getD transport 64))) s
    | _ => emit (.mi 4 []) s :=
  (miAnswer_on hmode).trans ((if_neg (not_lt.mpr htransport)).trans rfl)

/-- An unknown configuration or transport. -/
theorem configurationGetEff_unknown (hmode : miMode s = true) (hbad : 1 < transport ∨ (cfg ≠ 1 ∧ cfg ≠ 3)) :
    configurationGetEff cfg transport s = emit (.mi 4 []) s := by
  by_cases htransport : 1 < transport
  · exact (miAnswer_on hmode).trans (if_pos htransport)
  · obtain ⟨hone, hthree⟩ := hbad.resolve_left htransport
    rw [configurationGetEff_known hmode (not_lt.mp htransport)]
    split
    · exact absurd rfl hone
    · exact absurd rfl hthree
    · rfl

/-- R386: a known configuration is set within its range. -/
theorem configurationSetEff_known (hmode : miMode s = true) (htransport : transport ≤ 1) : configurationSetEff cfg transport value s =
    match cfg with
    | 1 => if 1 ≤ value ∧ value ≤ 3 then emit (.mi 0 []) { s with mg := { s.mg with smbusFreq := value } } else emit (.mi 4 []) s
    | 3 => if 64 ≤ value ∧ value < 65536 then emit (.mi 0 []) { s with mg := { s.mg with mtu := s.mg.mtu.set transport value } }
      else emit (.mi 4 []) s
    | _ => emit (.mi 4 []) s :=
  (miAnswer_on hmode).trans ((if_neg (not_lt.mpr htransport)).trans rfl)

/-- An unknown configuration or transport, or a value out of range. -/
theorem configurationSetEff_bad (hmode : miMode s = true) (hbad : 1 < transport ∨ (cfg ≠ 1 ∧ cfg ≠ 3) ∨
    (cfg = 1 ∧ (value = 0 ∨ 4 ≤ value)) ∨ (cfg = 3 ∧ (value < 64 ∨ 65536 ≤ value))) :
    configurationSetEff cfg transport value s = emit (.mi 4 []) s := by
  by_cases htransport : 1 < transport
  · exact (miAnswer_on hmode).trans (if_pos htransport)
  · rw [configurationSetEff_known hmode (not_lt.mp htransport)]
    split
    · exact if_neg (by omega)
    · exact if_neg (by omega)
    · rfl

end

/-! Tunnelled admin commands (R387). -/

section
variable {h : AdminHdr} {opcode : Nat} {cdw : List Nat} {img : SlotImage} {s : State}

/-- A command without data that its mode serves passes the checks. -/
theorem adminCheck_none {modes : Mode → Bool} (hmode : modes s.gen.mode = true) (hfuse : h.fuse = 0) (hzero : h.reservedZero = true) :
    adminCheck h modes 0 s = none :=
  (if_neg (not_not.mpr hmode)).trans ((if_neg (not_or.mpr ⟨not_not.mpr hfuse, not_not.mpr hzero⟩)).trans (if_pos rfl))

/-- An admin command that is served has its effect. -/
theorem adminCmd_served {modes : Mode → Bool} {body : State → State} (hserved : adminServed h modes s = true) :
    adminCmd h modes 0 body s = body (arrived h s) := by
  simp only [adminServed, Bool.and_eq_true, Bool.or_eq_true, beq_iff_eq] at hserved
  obtain ⟨⟨⟨hreached, hmode⟩, hfuse⟩, hzero⟩ := hserved
  have hgo : ¬ (¬ h.tunnelled = true ∧ ¬ rdy h.port s = true) := fun ⟨htunnel, hready⟩ => hreached.elim htunnel hready
  have hcheck := adminCheck_none hmode hfuse hzero
  rw [adminCmd, if_neg hgo]
  rw [arrived] at hcheck ⊢
  simp only [hcheck]

/-- R387: a command that MI does not tunnel fails. -/
theorem miAdmin_other (h02 : opcode ≠ 0x02) (h06 : opcode ≠ 0x06) (h0A : opcode ≠ 0x0A) (h10 : opcode ≠ 0x10)
    (h11 : opcode ≠ 0x11) (h14 : opcode ≠ 0x14) : miAdmin h opcode cdw img s = adminFail h 0 0x01 s := by
  unfold miAdmin
  split
  · exact absurd rfl h06
  · exact absurd rfl h02
  · exact absurd rfl h0A
  · exact absurd rfl h11
  · exact absurd rfl h10
  · exact absurd rfl h14
  · rfl

end

/-! Setup registers (R386, R418). -/

section
variable {offset : Nat} {value : Word} {s : State}

/-- Management writes a register of the functions' BARs. -/
theorem registerWriteEff_mgmt_register (hbar : offset < 2 ^ 21) (hsetup : 0x80000 ≤ offset % 2 ^ 20 / 4 * 4) :
    registerWriteEff .mgmt offset value false s = busWrite .mgmt (offset % 2 ^ 20 / 4 * 4) value.toNat s := by
  have hlow : ¬ (offset % 2 ^ 20 / 4 * 4 < 0x80000) := not_lt.mpr hsetup
  have hwriter : Writer.mgmt ≠ .host := by decide
  rw [registerWriteEff, if_neg fun h => absurd hbar (not_lt.mpr h.2)]
  simp only [writeAt, hwriter, hlow, false_and, and_false, if_false]

/-- Below the setup registers management writes nothing. -/
theorem registerWriteEff_mgmt_low (hbar : offset < 2 ^ 21) (hlow : offset % 2 ^ 20 / 4 * 4 < 0x80000) :
    registerWriteEff .mgmt offset value false s = s := by
  have hwriter : Writer.mgmt ≠ .host := by decide
  rw [registerWriteEff, if_neg fun h => absurd hbar (not_lt.mpr h.2)]
  simp only [writeAt, hwriter, hlow, false_and, and_false, if_false, if_true]

/-- Beyond the BARs the offset is a device address. -/
theorem registerWriteEff_mgmt_device (hdevice : 2 ^ 21 ≤ offset) :
    registerWriteEff .mgmt offset value false s = if setupOpen .mgmt s then writeDevice offset value s else s :=
  if_pos ⟨rfl, hdevice⟩

end

/-! Event-log commands (R373, R374). -/

section
variable {firstSeq count area : Nat} {s : State}

/-- R373: the entries read, from the ring or the protected area. -/
theorem eventLogReadEff_read (hmode : miMode s = true) (hmin : 1 ≤ count) (hmax : count ≤ 64) (harea : area ≤ 1) :
    eventLogReadEff firstSeq count area s = emit (.mi 0
      (((((if area = 0 then s.ff.ring else s.ff.prot.map (·.1)).filter (fun e => decide (firstSeq ≤ e.seq))).foldr insBySeq []).take
        count).flatMap entryBytes)) s :=
  (miAnswer_on hmode).trans ((if_neg (by omega)).trans rfl)

/-- A count or an area out of range. -/
theorem eventLogReadEff_bad (hmode : miMode s = true) (hbad : count = 0 ∨ 64 < count ∨ 1 < area) :
    eventLogReadEff firstSeq count area s = emit (.mi 4 []) s :=
  (miAnswer_on hmode).trans (if_pos hbad)

end

/-! The statement. -/

/-- Settles O40: each command is answered by the branch that its parameters choose. -/
theorem nvmeMiCommands : Obligations.NvmeMiCommands := by
  refine ⟨?_, ?_, ?_, ?_, ?_, ?_, ?_, ?_, ?_, ?_, ?_, ?_, ?_, ?_, ?_, ?_, ?_, ?_, ?_, ?_, ?_, ?_, ?_, ?_, ?_, ?_, ?_, ?_, ?_, ?_, ?_,
    ?_, ?_, ?_, ?_, ?_, ?_, ?_, ?_, ?_, ?_, ?_, ?_⟩
  · -- The subsystem.
    rintro _ portid cntlid s hmode rfl
    exact ⟨_, rfl, (only_of_next (execReadNvmeMiDataStructure_only ..) rfl).mono (.ofAll (by decide +kernel)),
      (miAnswer_on hmode).trans rfl⟩
  · -- An unknown data structure.
    intro dtyp portid cntlid s hmode hdtyp
    exact ⟨_, rfl, (only_of_next (execReadNvmeMiDataStructure_only ..) rfl).mono (.ofAll (by decide +kernel)),
      readNvmeMiEff_unknown hmode hdtyp⟩
  · -- No data structure is served.
    intro dtyp portid cntlid s hmode
    exact same_of_miAnswer rfl hmode
  · -- The subsystem's health.
    intro clear s hmode
    have hexec : exec (.nvmSubsystemHealthStatusPoll clear) s = .next _ := congrArg Host.Outcome.next (miAnswer_on hmode)
    exact ⟨_, hexec, (only_of_next (execNvmSubsystemHealthStatusPoll_only ..) hexec).mono (.ofAll (by decide +kernel)),
      rfl, rfl, rfl, rfl⟩
  · -- It is not served.
    intro clear s hmode
    exact same_of_miAnswer rfl hmode
  · -- The controllers' health.
    intro startCtrl maxCount clear s hmode
    have hexec : exec (.controllerHealthStatusPoll startCtrl maxCount clear) s = .next _ := congrArg Host.Outcome.next (miAnswer_on hmode)
    exact ⟨_, hexec, (only_of_next (execControllerHealthStatusPoll_only ..) hexec).mono (.ofAll (by decide +kernel)), rfl, rfl⟩
  · -- It is not served.
    intro startCtrl maxCount clear s hmode
    exact same_of_miAnswer rfl hmode
  · -- A transport's transmission unit.
    rintro _ transport s hmode rfl htransport
    exact ⟨_, rfl, (only_of_next (execConfigurationGet_only ..) rfl).mono (.ofAll (by decide +kernel)),
      configurationGetEff_known hmode htransport⟩
  · -- An unknown configuration.
    intro cfg transport s hmode hbad
    exact ⟨_, rfl, (only_of_next (execConfigurationGet_only ..) rfl).mono (.ofAll (by decide +kernel)),
      configurationGetEff_unknown hmode hbad⟩
  · -- No configuration is served.
    intro cfg transport s hmode
    exact same_of_miAnswer rfl hmode
  · -- A transmission unit is set.
    rintro _ transport value s hmode rfl htransport hmin hmax
    have hexec : exec (.configurationSet 3 transport value) s = .next _ :=
      congrArg Host.Outcome.next ((configurationSetEff_known hmode htransport).trans (if_pos ⟨hmin, hmax⟩))
    exact ⟨_, hexec, (only_of_next (execConfigurationSet_only ..) hexec).mono (.ofAll (by decide +kernel)), rfl, rfl, rfl⟩
  · -- A value that cannot be set.
    intro cfg transport value s hmode hbad
    exact ⟨_, rfl, (only_of_next (execConfigurationSet_only ..) rfl).mono (.ofAll (by decide +kernel)),
      configurationSetEff_bad hmode hbad⟩
  · -- None is set.
    intro cfg transport value s hmode
    exact same_of_miAnswer rfl hmode
  · -- VPD.
    intro offset len s hmode
    exact ⟨_, rfl, (only_of_next (execVpdRead_only ..) rfl).mono (.ofAll (by decide +kernel)), (miAnswer_on hmode).trans rfl⟩
  · -- No VPD.
    intro offset len s hmode
    exact same_of_miAnswer rfl hmode
  · -- A self-test that is served.
    rintro port _ nsid cdw img s hmode rfl hserved
    exact ⟨_, rfl, (only_of_next (execMiTunnelledAdminCommand_only ..) rfl).mono (.ofAll (by decide +kernel)),
      (miAnswer_on hmode).trans (adminCmd_served hserved)⟩
  · -- A command that MI does not tunnel.
    intro port opcode nsid cdw img s hmode h02 h06 h0A h10 h11 h14
    exact ⟨_, rfl, (only_of_next (execMiTunnelledAdminCommand_only ..) rfl).mono (.ofAll (by decide +kernel)),
      (miAnswer_on hmode).trans (miAdmin_other h02 h06 h0A h10 h11 h14)⟩
  · -- None is tunnelled.
    intro port opcode nsid cdw img s hmode
    exact same_of_miAnswer rfl hmode
  · -- A setup register is read.
    intro offset s hmode
    exact ⟨_, rfl, (only_of_next (execSetupRegisterRead_only ..) rfl).mono (.ofAll (by decide +kernel)), miAnswer_on hmode⟩
  · -- None is read.
    intro offset s hmode
    exact same_of_miAnswer rfl hmode
  · -- A setup register is written.
    intro offset value s hmode hbar hsetup
    exact ⟨_, rfl, (only_of_next (execSetupRegisterWrite_only ..) rfl).mono (.ofAll (by decide +kernel)),
      (miAnswer_on hmode).trans (congrArg (miOk []) (registerWriteEff_mgmt_register hbar hsetup))⟩
  · -- None is written.
    intro offset value s hmode
    exact same_of_miAnswer rfl hmode
  · -- Entries of the ring.
    rintro firstSeq count _ s hmode hmin hmax rfl
    exact ⟨_, rfl, (only_of_next (execEventLogRead_only ..) rfl).mono (.ofAll (by decide +kernel)),
      eventLogReadEff_read hmode hmin hmax (Nat.zero_le 1)⟩
  · -- A range that cannot be read.
    intro firstSeq count area s hmode hbad
    exact ⟨_, rfl, (only_of_next (execEventLogRead_only ..) rfl).mono (.ofAll (by decide +kernel)), eventLogReadEff_bad hmode hbad⟩
  · -- None is read.
    intro firstSeq count area s hmode
    exact same_of_miAnswer rfl hmode
  · -- Entries are acknowledged.
    intro seq s hmode hopen hown
    exact ⟨_, rfl, (only_of_next (execEventLogAcknowledge_only ..) rfl).mono (.ofAll (by decide +kernel)),
      (miAnswer_on hmode).trans (congrArg (miOk []) (setupWrite_taken hopen hown))⟩
  · -- None is acknowledged.
    intro seq s hmode
    exact same_of_miAnswer rfl hmode
  · -- A port.
    rintro _ portid cntlid s hmode rfl
    exact ⟨_, rfl, (only_of_next (execReadNvmeMiDataStructure_only ..) rfl).mono (.ofAll (by decide +kernel)), readNvmeMiEff_port hmode⟩
  · -- The controllers.
    rintro _ portid cntlid s hmode rfl
    exact ⟨_, rfl, (only_of_next (execReadNvmeMiDataStructure_only ..) rfl).mono (.ofAll (by decide +kernel)),
      (miAnswer_on hmode).trans rfl⟩
  · -- A controller.
    rintro _ portid cntlid s hmode rfl
    exact ⟨_, rfl, (only_of_next (execReadNvmeMiDataStructure_only ..) rfl).mono (.ofAll (by decide +kernel)),
      readNvmeMiEff_controller hmode⟩
  · -- The optional commands.
    rintro _ portid cntlid s hmode rfl
    exact ⟨_, rfl, (only_of_next (execReadNvmeMiDataStructure_only ..) rfl).mono (.ofAll (by decide +kernel)),
      (miAnswer_on hmode).trans rfl⟩
  · -- The SMBus frequency.
    rintro _ transport s hmode rfl htransport
    exact ⟨_, rfl, (only_of_next (execConfigurationGet_only ..) rfl).mono (.ofAll (by decide +kernel)),
      configurationGetEff_known hmode htransport⟩
  · -- It is set.
    rintro _ transport value s hmode rfl htransport hmin hmax
    have hexec : exec (.configurationSet 1 transport value) s = .next _ :=
      congrArg Host.Outcome.next ((configurationSetEff_known hmode htransport).trans (if_pos ⟨hmin, hmax⟩))
    exact ⟨_, hexec, (only_of_next (execConfigurationSet_only ..) hexec).mono (.ofAll (by decide +kernel)), rfl, rfl, rfl⟩
  · -- Device Self-test.
    rintro port _ nsid cdw img s hmode rfl
    exact ⟨_, rfl, (only_of_next (execMiTunnelledAdminCommand_only ..) rfl).mono (.ofAll (by decide +kernel)), miAnswer_on hmode⟩
  · -- Identify.
    rintro port _ nsid cdw img s hmode rfl
    exact ⟨_, rfl, (only_of_next (execMiTunnelledAdminCommand_only ..) rfl).mono (.ofAll (by decide +kernel)), miAnswer_on hmode⟩
  · -- Get Log Page.
    rintro port _ nsid cdw img s hmode rfl
    exact ⟨_, rfl, (only_of_next (execMiTunnelledAdminCommand_only ..) rfl).mono (.ofAll (by decide +kernel)), miAnswer_on hmode⟩
  · -- Get Features.
    rintro port _ nsid cdw img s hmode rfl
    exact ⟨_, rfl, (only_of_next (execMiTunnelledAdminCommand_only ..) rfl).mono (.ofAll (by decide +kernel)), miAnswer_on hmode⟩
  · -- Firmware Image Download.
    rintro port _ nsid cdw img s hmode rfl
    exact ⟨_, rfl, (only_of_next (execMiTunnelledAdminCommand_only ..) rfl).mono (.ofAll (by decide +kernel)), miAnswer_on hmode⟩
  · -- Firmware Commit.
    rintro port _ nsid cdw img s hmode rfl
    exact ⟨_, rfl, (only_of_next (execMiTunnelledAdminCommand_only ..) rfl).mono (.ofAll (by decide +kernel)), miAnswer_on hmode⟩
  · -- A write below the setup registers.
    intro offset value s hmode hbar hlow
    exact ⟨_, rfl, (only_of_next (execSetupRegisterWrite_only ..) rfl).mono (.ofAll (by decide +kernel)),
      (miAnswer_on hmode).trans (congrArg (miOk []) (registerWriteEff_mgmt_low hbar hlow))⟩
  · -- A write at a device address.
    intro offset value s hmode hdevice
    exact ⟨_, rfl, (only_of_next (execSetupRegisterWrite_only ..) rfl).mono (.ofAll (by decide +kernel)),
      (miAnswer_on hmode).trans (congrArg (miOk []) (registerWriteEff_mgmt_device hdevice))⟩
  · -- Entries of the protected area.
    rintro firstSeq count _ s hmode hmin hmax rfl
    exact ⟨_, rfl, (only_of_next (execEventLogRead_only ..) rfl).mono (.ofAll (by decide +kernel)),
      eventLogReadEff_read hmode hmin hmax le_rfl⟩
  · -- An acknowledgement, whatever it may do.
    intro seq s hmode
    exact ⟨_, rfl, (only_of_next (execEventLogAcknowledge_only ..) rfl).mono (.ofAll (by decide +kernel)), miAnswer_on hmode⟩

end Sys2Proof.Machine
end

section
/-! SUPPORT. The SPDM responder. Rules R363, R361, R362, R364, R365, R80. -/
namespace Sys2Proof.Machine
-- One theorem at a time: a thread for each would exhaust the memory the check allows.
set_option Elab.async false

/-! Serving and the negotiation (R363). -/

section
variable {tr : Nat} {body : State → State} {s : State}

/-- R363: a transport that serves takes a request. -/
theorem spdmReq_on (hserves : spdmServes tr s = true) : spdmReq tr body s = body s := if_pos hserves

/-- R363: one that does not answers nothing. -/
theorem spdmReq_off (hoff : spdmServes tr s = false) : spdmReq tr body s = s := if_neg (ne_true_of_eq_false hoff)

/-- R363: nor any later request. -/
theorem spdmAfter_off (hoff : spdmServes tr s = false) : spdmAfter tr body s = s := spdmReq_off hoff

/-- R363: before the negotiation is done a request is unexpected. -/
theorem spdmAfter_early (hserves : spdmServes tr s = true) (hearly : spdmStep tr s < 3) : spdmAfter tr body s = spdmError tr 4 s :=
  (spdmReq_on hserves).trans (if_pos hearly)

/-- R363: afterwards it is taken. -/
theorem spdmAfter_ready (hserves : spdmServes tr s = true) (hready : 3 ≤ spdmStep tr s) : spdmAfter tr body s = body s :=
  (spdmReq_on hserves).trans (if_neg (not_lt.mpr hready))

/-- A response leaves the responder's state alone. -/
theorem spdmSend_dg (tr code : Nat) (data : List Nat) (s : State) : (spdmSend tr code data s).dg = s.dg :=
  (spdmSend_only ..).keeps .dg rfl

/-- A response leaves the certificates alone. -/
theorem spdmSend_ff (tr code : Nat) (data : List Nat) (s : State) : (spdmSend tr code data s).ff = s.ff :=
  (spdmSend_only ..).keeps .ff rfl

/-- A response at a step leaves the connection there. -/
theorem spdmStep_spdmSend_spdmAt (tr code : Nat) (data : List Nat) (n : Nat) (s : State) :
    spdmStep tr (spdmSend tr code data (spdmAt tr n s)) = n := by
  rw [spdmStep, spdmSend_dg]
  exact sGet_sPut_self ..

/-! The generator (R361). -/

/-- R361: a request draws from a generator that serves. -/
theorem spdmDraw_on {i : SpdmHeld} (hrng : rngServes s = true) : spdmDraw i body s = body (rngDraw s) := if_pos hrng

/-- R361: without one it waits. -/
theorem spdmDraw_waits {i : SpdmHeld} (hrng : rngServes s = false) : spdmDraw i body s =
    flagOn Reg.DG_ERR.RNG { s with dg := { s.dg with spdmWait := s.dg.spdmWait ++ [i] } } :=
  if_neg (ne_true_of_eq_false hrng)

end

section
variable {tr : Nat} {s : State}

/-- R363: GET_CAPABILITIES comes after GET_VERSION. -/
theorem getCapabilitiesEff_early (hserves : spdmServes tr s = true) (hearly : spdmStep tr s = 0) :
    getCapabilitiesEff tr s = spdmError tr 4 s :=
  (spdmReq_on hserves).trans (if_pos (by omega))

/-- R363: the capabilities of the transport. -/
theorem getCapabilitiesEff_next (hserves : spdmServes tr s = true) (hready : 1 ≤ spdmStep tr s) :
    getCapabilitiesEff tr s = spdmSend tr 0x61 ([0, 20, 0, 0] ++ le 4 (capFlags tr)) (spdmAt tr 2 s) :=
  (spdmReq_on hserves).trans (if_neg (not_lt.mpr hready))

section
variable {asym hash dhe aead : Nat}

/-- R363: NEGOTIATE_ALGORITHMS comes after GET_CAPABILITIES. -/
theorem negotiateEff_early (hserves : spdmServes tr s = true) (hearly : spdmStep tr s < 2) :
    negotiateEff tr asym hash dhe aead s = spdmError tr 4 s :=
  (spdmReq_on hserves).trans (if_pos hearly)

/-- R363: the algorithms that both ends have. -/
theorem negotiateEff_next (hserves : spdmServes tr s = true) (hready : 2 ≤ spdmStep tr s) : negotiateEff tr asym hash dhe aead s =
    spdmSend tr 0x63 (le 4 (pickAlg asym 8) ++ le 4 (pickAlg hash 2) ++ le 2 (pickAlg dhe 5) ++ le 2 (pickAlg aead 1))
      (if pickAlg asym 8 = 0 ∨ pickAlg hash 2 = 0 then s else spdmAt tr 3 s) :=
  (spdmReq_on hserves).trans (if_neg (not_lt.mpr hready))

/-- An algorithm that is offered is picked. -/
theorem pickAlg_offered {offered bit : Nat} (hoffered : offered.testBit bit = true) : pickAlg offered bit = 2 ^ bit := if_pos hoffered

/-- One that is not is none. -/
theorem pickAlg_missing {offered bit : Nat} (hmissing : offered.testBit bit = false) : pickAlg offered bit = 0 :=
  if_neg (ne_true_of_eq_false hmissing)

/-- R363: with the signature and the hash algorithm the negotiation is done. -/
theorem negotiateEff_done (hserves : spdmServes tr s = true) (hready : 2 ≤ spdmStep tr s) (hasym : asym.testBit 8 = true)
    (hhash : hash.testBit 2 = true) : negotiateEff tr asym hash dhe aead s =
    spdmSend tr 0x63 (le 4 256 ++ le 4 4 ++ le 2 (pickAlg dhe 5) ++ le 2 (pickAlg aead 1)) (spdmAt tr 3 s) := by
  rw [negotiateEff_next hserves hready, pickAlg_offered hasym, pickAlg_offered hhash, if_neg (by decide)]
  rfl

/-- R363: without one of them it is not. -/
theorem negotiateEff_undone (hserves : spdmServes tr s = true) (hready : 2 ≤ spdmStep tr s)
    (hmissing : asym.testBit 8 = false ∨ hash.testBit 2 = false) : negotiateEff tr asym hash dhe aead s =
    spdmSend tr 0x63 (le 4 (pickAlg asym 8) ++ le 4 (pickAlg hash 2) ++ le 2 (pickAlg dhe 5) ++ le 2 (pickAlg aead 1)) s := by
  rw [negotiateEff_next hserves hready, if_pos (hmissing.imp pickAlg_missing pickAlg_missing)]

end
end

/-! Requests after the negotiation (R363 to R365). -/

section
variable {tr : Nat} {s : State} (hserves : spdmServes tr s = true) (hready : 3 ≤ spdmStep tr s)
include hserves hready

section
variable {offset len : Nat}

/-- R363: the vendor's chain is in slot 0. -/
theorem getCertificateEff_vendor : getCertificateEff tr 0 offset len s =
    spdmSend tr 0x02 ([0, 0] ++ le 2 len ++ le 2 (Config.freeValue (s.freeCtr + len) % 65536) ++ freeBytes len s)
      (tickFrees (len + 1) s) :=
  (spdmAfter_ready hserves hready).trans (if_pos rfl)

/-- R363: the owner's chain is in slot 1. -/
theorem getCertificateEff_owner (hchain : s.ff.cert1 ≠ []) (hoffset : offset < s.ff.cert1.length) : getCertificateEff tr 1 offset len s =
    spdmSend tr 0x02 ([1, 0] ++ le 2 ((s.ff.cert1.drop offset).take len).length ++
      le 2 (s.ff.cert1.length - offset - ((s.ff.cert1.drop offset).take len).length) ++
      ((s.ff.cert1.drop offset).take len).map (·.toNat)) s :=
  (spdmAfter_ready hserves hready).trans ((if_neg Nat.one_ne_zero).trans (if_pos ⟨rfl, hchain, hoffset⟩))

/-- R363: there is no other portion. -/
theorem getCertificateEff_none {slot : Nat} (hslot : slot ≠ 0) (hnone : slot ≠ 1 ∨ s.ff.cert1 = [] ∨ s.ff.cert1.length ≤ offset) :
    getCertificateEff tr slot offset len s = spdmError tr 1 s :=
  (spdmAfter_ready hserves hready).trans ((if_neg hslot).trans (if_neg fun ⟨hone, hchain, hoffset⟩ =>
    hnone.elim (· hone) (·.elim hchain (not_le.mpr hoffset))))

end

section
variable {slot : Nat} {chain : List Byte} {leafIsIdentity : Bool}

/-- R363: the owner's chain is set in PROVISION. -/
theorem setCertificateEff_set (hmode : s.gen.mode = .provision) :
    setCertificateEff tr 1 chain true s = spdmSend tr 0x6E [1, 0] { s with ff := { s.ff with cert1 := chain } } :=
  (spdmAfter_ready hserves hready).trans (if_neg (by simp [hmode]))

/-- R363: nothing else is set. -/
theorem setCertificateEff_refused (hbad : slot ≠ 1 ∨ s.gen.mode ≠ .provision ∨ leafIsIdentity = false) :
    setCertificateEff tr slot chain leafIsIdentity s = spdmError tr 1 s :=
  (spdmAfter_ready hserves hready).trans (if_pos (hbad.imp_right (·.imp_right ne_true_of_eq_false)))

end

section
variable {slot nonce : Nat}

/-- R363: a challenge of a slot that cannot sign. -/
theorem challengeEff_refused (hsign : canSign slot s = false) : challengeEff tr slot nonce s = spdmError tr 1 s :=
  (spdmAfter_ready hserves hready).trans (if_pos (ne_true_of_eq_false hsign))

variable (hsign : canSign slot s = true)
include hsign

/-- R363: a challenge draws from the generator and is signed. -/
theorem challengeEff_signed (hrng : rngServes s = true) : challengeEff tr slot nonce s =
    spdmSend tr 0x03 ([slot, 2 ^ slot] ++ freeBytes (64 + 32 + 64 + sigLen) (rngDraw s)) (tickFrees (64 + 32 + 64 + sigLen) (rngDraw s)) :=
  (spdmAfter_ready hserves hready).trans ((if_neg (not_not.mpr hsign)).trans (spdmDraw_on hrng))

/-- R361: it waits for the generator. -/
theorem challengeEff_waits (hrng : rngServes s = false) : challengeEff tr slot nonce s =
    flagOn Reg.DG_ERR.RNG { s with dg := { s.dg with spdmWait := s.dg.spdmWait ++ [.challenge tr slot nonce] } } :=
  (spdmAfter_ready hserves hready).trans ((if_neg (not_not.mpr hsign)).trans (spdmDraw_waits hrng))

end

section
variable {index nonce : Nat}

/-- R364: there is no such measurement. -/
theorem getMeasurementsEff_none {signed : Bool} (hhigh : 7 < index) (hall : index ≠ 0xFF) :
    getMeasurementsEff tr index signed nonce s = spdmError tr 1 s :=
  (spdmAfter_ready hserves hready).trans (if_pos ⟨hhigh, hall⟩)

variable (hindex : index ≤ 7 ∨ index = 0xFF)
include hindex

/-- R364: measurements by their index, signed where asked. -/
theorem getMeasurementsEff_known {signed : Bool} : getMeasurementsEff tr index signed nonce s =
    if ¬ signed then measSend tr index false s
    else if ¬ canSign 0 s then spdmError tr 1 s
    else spdmDraw (.measurements tr index nonce) (measSend tr index true) s :=
  (spdmAfter_ready hserves hready).trans (if_neg (by omega))

/-- R364: unsigned measurements. -/
theorem getMeasurementsEff_unsigned : getMeasurementsEff tr index false nonce s = measSend tr index false s :=
  (getMeasurementsEff_known hserves hready hindex).trans (if_pos Bool.false_ne_true)

/-- R364: without the identity key none is signed. -/
theorem getMeasurementsEff_refused (hsign : canSign 0 s = false) : getMeasurementsEff tr index true nonce s = spdmError tr 1 s :=
  (getMeasurementsEff_known hserves hready hindex).trans ((if_neg (not_not.mpr rfl)).trans (if_pos (ne_true_of_eq_false hsign)))

/-- R364: signed measurements draw from the generator. -/
theorem getMeasurementsEff_signed (hsign : canSign 0 s = true) : getMeasurementsEff tr index true nonce s =
    spdmDraw (.measurements tr index nonce) (measSend tr index true) s :=
  (getMeasurementsEff_known hserves hready hindex).trans ((if_neg (not_not.mpr rfl)).trans (if_neg (not_not.mpr hsign)))

end

/-! Sessions (R363, R365). -/

section
variable {session : Nat}

/-- The entry of a session. -/
def spdmMine (tr session : Nat) (x : Nat × Nat × Bool) : Bool := x.1 == tr && x.2.1 == session

section
variable {mutualAuth : Bool}

/-- R363: DOE has no sessions. -/
theorem keyExchangeEff_doe (hdoe : isDoe tr = true) : keyExchangeEff tr session mutualAuth s = spdmError tr 7 s :=
  (spdmAfter_ready hserves hready).trans (if_pos hdoe)

/-- R365: a session without an identity key, without mutual authentication over Gareo, or that is there already. -/
theorem keyExchangeEff_refused (hdoe : isDoe tr = false) (hbad : canSign 0 s = false ∨ (tr = 4 ∧ mutualAuth = false) ∨
    s.dg.sessions.any (spdmMine tr session) = true) : keyExchangeEff tr session mutualAuth s = spdmError tr 1 s :=
  (spdmAfter_ready hserves hready).trans ((if_neg (ne_true_of_eq_false hdoe)).trans
    (if_pos (hbad.imp ne_true_of_eq_false (·.imp_left fun h => ⟨h.1, ne_true_of_eq_false h.2⟩))))

/-- A session begins: its response and its entry. -/
def keyExchanged (tr session : Nat) (s : State) : State :=
  spdmSend tr 0x64 (le 2 session ++ freeBytes (32 + 132 + sigLen) s)
    (tickFrees (32 + 132 + sigLen) { s with dg := { s.dg with sessions := s.dg.sessions ++ [(tr, session, false)] } })

/-- R365: a new session draws from the generator. -/
theorem keyExchangeEff_new (hdoe : isDoe tr = false) (hsign : canSign 0 s = true) (hauth : tr ≠ 4 ∨ mutualAuth = true)
    (hnew : s.dg.sessions.any (spdmMine tr session) = false) : keyExchangeEff tr session mutualAuth s =
    spdmDraw (.keyExchange tr session mutualAuth) (keyExchanged tr session) s := by
  have hgood : ¬ (¬ canSign 0 s = true ∨ (tr = 4 ∧ ¬ mutualAuth = true) ∨ s.dg.sessions.any (spdmMine tr session) = true) := by
    rintro (hno | ⟨hgareo, hno⟩ | hold)
    · exact hno hsign
    · exact hauth.elim (· hgareo) hno
    · exact ne_true_of_eq_false hnew hold
  exact (spdmAfter_ready hserves hready).trans ((if_neg (ne_true_of_eq_false hdoe)).trans (if_neg hgood))

end

section
variable {peerIdOk : Bool}

/-- R363: DOE has no sessions. -/
theorem finishEff_doe (hdoe : isDoe tr = true) : finishEff tr session peerIdOk s = spdmError tr 7 s :=
  (spdmAfter_ready hserves hready).trans (if_pos hdoe)

variable (hdoe : isDoe tr = false)
include hdoe

/-- FINISH of no session that waits for it. -/
theorem finishEff_none (hnone : s.dg.sessions.any (fun x => spdmMine tr session x && !x.2.2) = false) :
    finishEff tr session peerIdOk s = spdmError tr 4 s :=
  (spdmAfter_ready hserves hready).trans ((if_neg (ne_true_of_eq_false hdoe)).trans (if_pos (ne_true_of_eq_false hnone)))

variable (hwaits : s.dg.sessions.any (fun x => spdmMine tr session x && !x.2.2) = true)
include hwaits

/-- R365: the session is authenticated, and over Gareo the transport key is there. -/
theorem finishEff_finished (hpeer : tr ≠ 4 ∨ peerIdOk = true) : finishEff tr session peerIdOk s =
    spdmSend tr 0x65 (le 2 session) { s with dg := { s.dg with
      sessions := s.dg.sessions.map (fun x => if spdmMine tr session x then (x.1, x.2.1, true) else x)
      transport := s.dg.transport || tr == 4 } } :=
  (spdmAfter_ready hserves hready).trans ((if_neg (ne_true_of_eq_false hdoe)).trans ((if_neg (not_not.mpr hwaits)).trans
    (if_neg fun ⟨hgareo, hbad⟩ => hpeer.elim (· hgareo) hbad)))

/-- R365: a peer of another identity ends the session. -/
theorem finishEff_identity (hgareo : tr = 4) : finishEff tr session false s =
    spdmError tr 1 (flagOn Reg.TW_ERR.PEERID
      { s with dg := { s.dg with sessions := s.dg.sessions.filter (fun x => !spdmMine tr session x) } }) :=
  (spdmAfter_ready hserves hready).trans ((if_neg (ne_true_of_eq_false hdoe)).trans ((if_neg (not_not.mpr hwaits)).trans
    (if_pos ⟨hgareo, Bool.false_ne_true⟩)))

end

/-- R363: DOE has no sessions. -/
theorem endSessionEff_doe (hdoe : isDoe tr = true) : endSessionEff tr session s = spdmError tr 7 s :=
  (spdmAfter_ready hserves hready).trans (if_pos hdoe)

/-- END_SESSION of no session. -/
theorem endSessionEff_none (hdoe : isDoe tr = false) (hnone : s.dg.sessions.any (spdmMine tr session) = false) :
    endSessionEff tr session s = spdmError tr 4 s :=
  (spdmAfter_ready hserves hready).trans ((if_neg (ne_true_of_eq_false hdoe)).trans (if_pos (ne_true_of_eq_false hnone)))

/-- R363: a session ends. -/
theorem endSessionEff_ended (hdoe : isDoe tr = false) (hthere : s.dg.sessions.any (spdmMine tr session) = true) :
    endSessionEff tr session s = spdmSend tr 0x6C (le 2 session)
      { s with dg := { s.dg with sessions := s.dg.sessions.filter (fun x => !spdmMine tr session x) } } :=
  (spdmAfter_ready hserves hready).trans ((if_neg (ne_true_of_eq_false hdoe)).trans (if_neg (not_not.mpr hthere)))

end
end

/-! The statement. -/

/-- Settles O41: each request is answered by the branch that the negotiation and its parameters choose. -/
theorem spdmRequests : Obligations.SpdmRequests := by
  refine ⟨?_, ?_, ?_, ?_, ?_, ?_, ?_, ?_, ?_, ?_, ?_, ?_, ?_, ?_, ?_, ?_, ?_, ?_, ?_, ?_, ?_, ?_, ?_, ?_, ?_, ?_, ?_, ?_, ?_, ?_, ?_,
    ?_, ?_, ?_, ?_, ?_, ?_, ?_, ?_, ?_, ?_, ?_, ?_, ?_, ?_, ?_, ?_, ?_, ?_, ?_⟩
  · -- GET_VERSION.
    intro tr s hserves
    have hexec : exec (.getVersion tr) s = .next _ := congrArg Host.Outcome.next (spdmReq_on hserves)
    refine ⟨_, hexec, (only_of_next (execGetVersion_only ..) hexec).mono (.ofAll (by decide +kernel)),
      spdmStep_spdmSend_spdmAt .., ?_, rfl⟩
    rw [spdmSend_dg]
    rfl
  · -- GET_VERSION where nothing serves.
    intro tr s hoff
    exact congrArg Host.Outcome.next (spdmReq_off hoff)
  · -- GET_CAPABILITIES.
    intro tr s hserves hready
    have hexec : exec (.getCapabilities tr) s = .next _ := congrArg Host.Outcome.next (getCapabilitiesEff_next hserves hready)
    exact ⟨_, hexec, (only_of_next (execGetCapabilities_only ..) hexec).mono (.ofAll (by decide +kernel)),
      spdmStep_spdmSend_spdmAt .., rfl⟩
  · -- GET_CAPABILITIES before GET_VERSION.
    intro tr s hserves hearly
    exact ⟨_, rfl, (only_of_next (execGetCapabilities_only ..) rfl).mono (.ofAll (by decide +kernel)),
      getCapabilitiesEff_early hserves hearly⟩
  · -- NEGOTIATE_ALGORITHMS.
    intro tr asym hash dhe aead s hserves hready hasym hhash
    have hexec : exec (.negotiateAlgorithms tr asym hash dhe aead) s = .next _ :=
      congrArg Host.Outcome.next (negotiateEff_done hserves hready hasym hhash)
    refine ⟨_, hexec, (only_of_next (execNegotiateAlgorithms_only ..) hexec).mono (.ofAll (by decide +kernel)),
      spdmStep_spdmSend_spdmAt .., ?_, rfl⟩
    rw [spdmSend_dg]
    rfl
  · -- NEGOTIATE_ALGORITHMS before GET_CAPABILITIES.
    intro tr asym hash dhe aead s hserves hearly
    exact ⟨_, rfl, (only_of_next (execNegotiateAlgorithms_only ..) rfl).mono (.ofAll (by decide +kernel)),
      negotiateEff_early hserves hearly⟩
  · -- GET_DIGESTS.
    intro tr s hserves hready
    exact ⟨_, rfl, (only_of_next (execGetDigests_only ..) rfl).mono (.ofAll (by decide +kernel)), spdmAfter_ready hserves hready⟩
  · -- GET_DIGESTS before the negotiation.
    intro tr s hserves hearly
    exact ⟨_, rfl, (only_of_next (execGetDigests_only ..) rfl).mono (.ofAll (by decide +kernel)), spdmAfter_early hserves hearly⟩
  · -- The owner's certificates.
    rintro tr _ offset len s hserves hready rfl hchain hoffset
    exact ⟨_, rfl, (only_of_next (execGetCertificate_only ..) rfl).mono (.ofAll (by decide +kernel)),
      getCertificateEff_owner hserves hready hchain hoffset⟩
  · -- No such certificates.
    intro tr slot offset len s hserves hready hslot hnone
    exact ⟨_, rfl, (only_of_next (execGetCertificate_only ..) rfl).mono (.ofAll (by decide +kernel)),
      getCertificateEff_none hserves hready hslot hnone⟩
  · -- The owner's certificates are set.
    rintro tr _ chain _ s hserves hready rfl hmode rfl
    have hexec : exec (.setCertificate tr 1 chain true) s = .next _ :=
      congrArg Host.Outcome.next (setCertificateEff_set hserves hready hmode)
    refine ⟨_, hexec, (only_of_next (execSetCertificate_only ..) hexec).mono (.ofAll (by decide +kernel)), ?_, rfl⟩
    rw [spdmSend_ff]
  · -- They are not.
    intro tr slot chain leafIsIdentity s hserves hready hbad
    have hexec : exec (.setCertificate tr slot chain leafIsIdentity) s = .next _ :=
      congrArg Host.Outcome.next (setCertificateEff_refused hserves hready hbad)
    exact ⟨_, hexec, (only_of_next (execSetCertificate_only ..) hexec).mono (.ofAll (by decide +kernel)), spdmSend_ff .., rfl⟩
  · -- A challenge.
    intro tr slot nonce s hserves hready hsign hrng
    exact ⟨_, rfl, (only_of_next (execChallenge_only ..) rfl).mono (.ofAll (by decide +kernel)),
      challengeEff_signed hserves hready hsign hrng⟩
  · -- A challenge that waits for the generator.
    intro tr slot nonce s hserves hready hsign hrng
    have hexec : exec (.challenge tr slot nonce) s = .next _ :=
      congrArg Host.Outcome.next (challengeEff_waits hserves hready hsign hrng)
    exact ⟨_, hexec, (only_of_next (execChallenge_only ..) hexec).mono (.ofAll (by decide +kernel)), isOn_flagOn _ (by decide), rfl⟩
  · -- Unsigned measurements.
    rintro tr index _ nonce s hserves hready hindex rfl
    exact ⟨_, rfl, (only_of_next (execGetMeasurements_only ..) rfl).mono (.ofAll (by decide +kernel)),
      getMeasurementsEff_unsigned hserves hready hindex⟩
  · -- No such measurement.
    intro tr index signed nonce s hserves hready hhigh hall
    exact ⟨_, rfl, (only_of_next (execGetMeasurements_only ..) rfl).mono (.ofAll (by decide +kernel)),
      getMeasurementsEff_none hserves hready hhigh hall⟩
  · -- A session begins.
    intro tr session mutualAuth s hserves hready hdoe hsign hauth hnew hrng
    have hexec : exec (.keyExchange tr session mutualAuth) s = .next (keyExchanged tr session (rngDraw s)) :=
      congrArg Host.Outcome.next ((keyExchangeEff_new hserves hready hdoe hsign hauth hnew).trans (spdmDraw_on hrng))
    refine ⟨_, hexec, (only_of_next (execKeyExchange_only ..) hexec).mono (.ofAll (by decide +kernel)), ?_, rfl⟩
    rw [keyExchanged, spdmSend_dg]
    rfl
  · -- KEY_EXCHANGE over DOE.
    intro tr session mutualAuth s hserves hready hdoe
    exact ⟨_, rfl, (only_of_next (execKeyExchange_only ..) rfl).mono (.ofAll (by decide +kernel)),
      keyExchangeEff_doe hserves hready hdoe⟩
  · -- A session is finished.
    intro tr session peerIdOk s hserves hready hdoe hwaits hpeer
    have hexec : exec (.finish tr session peerIdOk) s = .next _ :=
      congrArg Host.Outcome.next (finishEff_finished hserves hready hdoe hwaits hpeer)
    refine ⟨_, hexec, (only_of_next (execFinish_only ..) hexec).mono (.ofAll (by decide +kernel)), ?_, rfl⟩
    rw [spdmSend_dg]
  · -- A peer of another identity.
    rintro tr session _ s hserves hready hgareo hwaits rfl
    have hdoe : isDoe tr = false := by rw [hgareo]; rfl
    have hexec : exec (.finish tr session false) s = .next _ :=
      congrArg Host.Outcome.next (finishEff_identity hserves hready hdoe hwaits hgareo)
    exact ⟨_, hexec, (only_of_next (execFinish_only ..) hexec).mono (.ofAll (by decide +kernel)),
      isOn_of_only_flagOn (spdmError_only ..) (by decide) (by decide), rfl⟩
  · -- A session ends.
    intro tr session s hserves hready hdoe hthere
    have hexec : exec (.endSession tr session) s = .next _ :=
      congrArg Host.Outcome.next (endSessionEff_ended hserves hready hdoe hthere)
    refine ⟨_, hexec, (only_of_next (execEndSession_only ..) hexec).mono (.ofAll (by decide +kernel)), ?_, rfl⟩
    rw [spdmSend_dg]
    rfl
  · -- END_SESSION of no session.
    intro tr session s hserves hready hdoe hnone
    exact ⟨_, rfl, (only_of_next (execEndSession_only ..) rfl).mono (.ofAll (by decide +kernel)),
      endSessionEff_none hserves hready hdoe hnone⟩
  · -- NEGOTIATE_ALGORITHMS without a common signature or hash algorithm.
    intro tr asym hash dhe aead s hserves hready hmissing
    exact ⟨_, rfl, (only_of_next (execNegotiateAlgorithms_only ..) rfl).mono (.ofAll (by decide +kernel)),
      negotiateEff_undone hserves hready hmissing⟩
  · -- The vendor's certificates.
    rintro tr _ offset len s hserves hready rfl
    exact ⟨_, rfl, (only_of_next (execGetCertificate_only ..) rfl).mono (.ofAll (by decide +kernel)),
      getCertificateEff_vendor hserves hready⟩
  · -- GET_CERTIFICATE before the negotiation.
    intro tr slot offset len s hserves hearly
    exact ⟨_, rfl, (only_of_next (execGetCertificate_only ..) rfl).mono (.ofAll (by decide +kernel)), spdmAfter_early hserves hearly⟩
  · -- SET_CERTIFICATE before it.
    intro tr slot chain leafIsIdentity s hserves hearly
    exact ⟨_, rfl, (only_of_next (execSetCertificate_only ..) rfl).mono (.ofAll (by decide +kernel)), spdmAfter_early hserves hearly⟩
  · -- A challenge of a slot that cannot sign.
    intro tr slot nonce s hserves hready hsign
    exact ⟨_, rfl, (only_of_next (execChallenge_only ..) rfl).mono (.ofAll (by decide +kernel)),
      challengeEff_refused hserves hready hsign⟩
  · -- CHALLENGE before the negotiation.
    intro tr slot nonce s hserves hearly
    exact ⟨_, rfl, (only_of_next (execChallenge_only ..) rfl).mono (.ofAll (by decide +kernel)), spdmAfter_early hserves hearly⟩
  · -- Signed measurements.
    rintro tr index _ nonce s hserves hready hindex rfl hsign hrng
    exact ⟨_, rfl, (only_of_next (execGetMeasurements_only ..) rfl).mono (.ofAll (by decide +kernel)),
      (getMeasurementsEff_signed hserves hready hindex hsign).trans (spdmDraw_on hrng)⟩
  · -- Signed measurements that wait for the generator.
    rintro tr index _ nonce s hserves hready hindex rfl hsign hrng
    exact ⟨_, rfl, (only_of_next (execGetMeasurements_only ..) rfl).mono (.ofAll (by decide +kernel)),
      (getMeasurementsEff_signed hserves hready hindex hsign).trans (spdmDraw_waits hrng)⟩
  · -- Signed measurements without an identity key.
    rintro tr index _ nonce s hserves hready hindex rfl hsign
    exact ⟨_, rfl, (only_of_next (execGetMeasurements_only ..) rfl).mono (.ofAll (by decide +kernel)),
      getMeasurementsEff_refused hserves hready hindex hsign⟩
  · -- GET_MEASUREMENTS before the negotiation.
    intro tr index signed nonce s hserves hearly
    exact ⟨_, rfl, (only_of_next (execGetMeasurements_only ..) rfl).mono (.ofAll (by decide +kernel)), spdmAfter_early hserves hearly⟩
  · -- A session that waits for the generator.
    intro tr session mutualAuth s hserves hready hdoe hsign hauth hnew hrng
    exact ⟨_, rfl, (only_of_next (execKeyExchange_only ..) rfl).mono (.ofAll (by decide +kernel)),
      (keyExchangeEff_new hserves hready hdoe hsign hauth hnew).trans (spdmDraw_waits hrng)⟩
  · -- A session that is refused.
    intro tr session mutualAuth s hserves hready hdoe hbad
    exact ⟨_, rfl, (only_of_next (execKeyExchange_only ..) rfl).mono (.ofAll (by decide +kernel)),
      keyExchangeEff_refused hserves hready hdoe hbad⟩
  · -- KEY_EXCHANGE before the negotiation.
    intro tr session mutualAuth s hserves hearly
    exact ⟨_, rfl, (only_of_next (execKeyExchange_only ..) rfl).mono (.ofAll (by decide +kernel)), spdmAfter_early hserves hearly⟩
  · -- FINISH of no session that waits for it.
    intro tr session peerIdOk s hserves hready hdoe hnone
    exact ⟨_, rfl, (only_of_next (execFinish_only ..) rfl).mono (.ofAll (by decide +kernel)), finishEff_none hserves hready hdoe hnone⟩
  · -- FINISH over DOE.
    intro tr session peerIdOk s hserves hready hdoe
    exact ⟨_, rfl, (only_of_next (execFinish_only ..) rfl).mono (.ofAll (by decide +kernel)), finishEff_doe hserves hready hdoe⟩
  · -- FINISH before the negotiation.
    intro tr session peerIdOk s hserves hearly
    exact ⟨_, rfl, (only_of_next (execFinish_only ..) rfl).mono (.ofAll (by decide +kernel)), spdmAfter_early hserves hearly⟩
  · -- END_SESSION over DOE.
    intro tr session s hserves hready hdoe
    exact ⟨_, rfl, (only_of_next (execEndSession_only ..) rfl).mono (.ofAll (by decide +kernel)), endSessionEff_doe hserves hready hdoe⟩
  · -- END_SESSION before the negotiation.
    intro tr session s hserves hearly
    exact ⟨_, rfl, (only_of_next (execEndSession_only ..) rfl).mono (.ofAll (by decide +kernel)), spdmAfter_early hserves hearly⟩
  -- A transport that does not serve answers nothing.
  · exact fun tr s hoff => congrArg Host.Outcome.next (spdmReq_off hoff)
  · exact fun tr asym hash dhe aead s hoff => congrArg Host.Outcome.next (spdmReq_off hoff)
  · exact fun tr s hoff => congrArg Host.Outcome.next (spdmAfter_off hoff)
  · exact fun tr slot offset len s hoff => congrArg Host.Outcome.next (spdmAfter_off hoff)
  · exact fun tr slot chain leafIsIdentity s hoff => congrArg Host.Outcome.next (spdmAfter_off hoff)
  · exact fun tr slot nonce s hoff => congrArg Host.Outcome.next (spdmAfter_off hoff)
  · exact fun tr index signed nonce s hoff => congrArg Host.Outcome.next (spdmAfter_off hoff)
  · exact fun tr session mutualAuth s hoff => congrArg Host.Outcome.next (spdmAfter_off hoff)
  · exact fun tr session peerIdOk s hoff => congrArg Host.Outcome.next (spdmAfter_off hoff)
  · exact fun tr session s hoff => congrArg Host.Outcome.next (spdmAfter_off hoff)

end Sys2Proof.Machine
end

section
/-! SUPPORT. Unit faults and fault injection. Rules R389, R391, R394 to R396, R49. -/
namespace Sys2Proof.Machine
-- One theorem at a time: a thread for each would exhaust the memory the check allows.
set_option Elab.async false

/-! Unit faults (R389, R391). -/

section
variable {unit : UnitFault} {s : State}

/-- The spare cores, the cores and the decompress lanes in service. -/
def unitCounts (s : State) : Nat × Nat × Nat := (s.mg.coreSpare, s.mg.cores, s.mg.decomp)

/-- A change that leaves management's state alone leaves the counts alone. -/
theorem Only.unitCounts {w : List Fld} {s t : State} (h : Only w s t) (hw : covered w .mg = false) : unitCounts t = unitCounts s :=
  congrArg (fun m : Mg => (m.coreSpare, m.cores, m.decomp)) (h.keeps .mg hw)

/-- A log entry leaves the counts alone. -/
theorem logPut_counts (e : LogEntry) (coalesce : Bool) (m : Mg) : (logPut e coalesce m).1.coreSpare = m.coreSpare ∧
    (logPut e coalesce m).1.cores = m.cores ∧ (logPut e coalesce m).1.decomp = m.decomp := by
  unfold logPut
  dsimp only
  split
  · exact ⟨rfl, rfl, rfl⟩
  split
  · exact ⟨rfl, rfl, rfl⟩
  split
  · exact ⟨rfl, rfl, rfl⟩
  · exact ⟨rfl, rfl, rfl⟩

/-- An event in the log leaves the counts alone. -/
@[simp] theorem unitCounts_logEvent (code sev src : Nat) (coalesce : Bool) (data : List Nat) (s : State) :
    unitCounts (logEvent code sev src coalesce data s) = unitCounts s := by
  obtain ⟨hspare, hcores, hdecomp⟩ := logPut_counts ⟨now s, s.mx.csn, 0, code, sev, src, data, 1⟩ coalesce s.mg
  have hlogged : unitCounts { s with mg := (logPut ⟨now s, s.mx.csn, 0, code, sev, src, data, 1⟩ coalesce s.mg).1 } = unitCounts s := by
    simp only [unitCounts, hspare, hcores, hdecomp]
  unfold logEvent
  dsimp only
  split
  · exact hlogged
  · exact hlogged

/-- Disarming leaves the counts alone. -/
@[simp] theorem unitCounts_fiDisarmed (cause : Nat) (s : State) : unitCounts (fiDisarmed cause s) = unitCounts s := by
  unfold fiDisarmed
  split
  · rfl
  · exact (unitCounts_logEvent ..).trans rfl

/-- R391: a spare that takes a unit's place leaves the other counts alone. -/
theorem unitCounts_spareIn (resource left : Nat) (s : State) : unitCounts (spareIn resource left s) = unitCounts s := by
  have hevent : unitCounts (vendorEvent 0x12 0x02 (logEvent 0x0E10 1 14 false [resource, left] s)) = unitCounts s :=
    ((vendorEvent_only ..).unitCounts rfl).trans (unitCounts_logEvent ..)
  rw [spareIn, fiRealFault]
  split
  · exact (unitCounts_fiDisarmed ..).trans hevent
  · exact hevent

/-- A unit that leaves service leaves management's state alone. -/
theorem nextOut_mg (r : Nat) (s : State) : (nextOut r s).mg = s.mg := (unitOut_only ..).keeps .mg rfl

/-- In reset no unit fails. -/
theorem unitFaultEff_reset (hmode : s.gen.mode = .reset) : unitFaultEff unit s = s := if_pos hmode

/-- A fault of a unit. -/
theorem unitFaultEff_fault (hmode : s.gen.mode ≠ .reset) : unitFaultEff unit s =
    match unit with
    | .policyCore => coreFault s
    | .ldpcEngine => engineFault s
    | .digestLane ctx => laneFault ctx s
    | .compressLane => compressFault s
    | .decompressLane => decompressFault s
    | .sramRow row hardware bufs => repairRow row hardware bufs s :=
  (if_neg hmode).trans rfl

/-- R391: a spare core takes the role. -/
theorem coreFault_spare (hspare : 0 < s.mg.coreSpare) : coreFault s = spareIn 0 ((nextOut 0 s).mg.coreSpare - 1)
    { nextOut 0 s with mg := { (nextOut 0 s).mg with coreSpare := (nextOut 0 s).mg.coreSpare - 1 } } :=
  if_pos (by rw [nextOut_mg]; exact hspare)

/-- R389: without a spare the roles share the cores left. -/
theorem coreFault_shared (hspare : s.mg.coreSpare = 0) : coreFault s =
    (let u := { nextOut 0 s with mg := { (nextOut 0 s).mg with cores := (nextOut 0 s).mg.cores - 1 } }
    if u.mg.cores < 12 then spareExhausted 0 u else u) :=
  if_neg (by rw [nextOut_mg, hspare]; exact lt_irrefl 0)

/-- R391: the spare that takes the role is counted, and the cores stay. -/
theorem coreFault_counts (hspare : 0 < s.mg.coreSpare) :
    unitCounts (coreFault s) = (s.mg.coreSpare - 1, s.mg.cores, s.mg.decomp) := by
  rw [coreFault_spare hspare, unitCounts_spareIn]
  simp only [unitCounts, nextOut_mg]

end

/-! The keys (R394). -/

section
variable {who : Writer} {off : Nat} {body : State → State} {key : BitVec 16} {s : State}

/-- Setup is closed. -/
theorem fiWrite_closed (hclosed : setupOpen who s = false) : fiWrite who off body s = s := setupWrite_closed hclosed

/-- R49: the writer does not hold the token. -/
theorem fiWrite_refused (hopen : setupOpen who s = true) (hother : mayWrite who off s = false) :
    fiWrite who off body s = genErr Reg.GEN_ERR.OWNWR off who s := setupWrite_refused hopen hother

/-- The write is taken. -/
theorem fiWrite_taken (hopen : setupOpen who s = true) (hown : mayWrite who off s = true) : fiWrite who off body s = body s :=
  setupWrite_taken hopen hown

/-- A write that would change nothing changes nothing, open or closed. -/
theorem fiWrite_same (hown : mayWrite who off s = true) (hsame : body s = s) : fiWrite who off body s = s := by
  by_cases hopen : setupOpen who s = true
  · exact (fiWrite_taken hopen hown).trans hsame
  · exact fiWrite_closed (Bool.eq_false_iff.mpr hopen)

/-- R394: the first key starts the sequence. -/
theorem fiKeyEff_first (hmode : s.gen.mode = .service) (hkeyed : s.fi.keyed = false) :
    fiKeyEff 0xF1A1 s = { s with fi := { s.fi with keyed := true } } :=
  (if_neg (by decide)).trans ((if_neg (not_not.mpr hmode)).trans (if_pos ⟨rfl, ne_true_of_eq_false hkeyed⟩))

/-- R394: the second key ends it. -/
theorem fiKeyEff_second (hmode : s.gen.mode = .service) (hkeyed : s.fi.keyed = true) : fiKeyEff 0x5E5E s =
    if s.fi.armed then { s with fi := { s.fi with keyed := false } } else fiArmed false { s with fi := { s.fi with keyed := false } } :=
  (if_neg (by decide)).trans ((if_neg (not_not.mpr hmode)).trans ((if_neg fun h => absurd h.1 (by decide)).trans
    (if_pos ⟨rfl, hkeyed⟩)))

/-- R394: any other key, or a key out of turn, is refused. -/
theorem fiKeyEff_bad (hkey : key ≠ 0) (hbad : s.gen.mode ≠ .service ∨ (key ≠ 0xF1A1 ∧ key ≠ 0x5E5E) ∨
    (key = 0xF1A1 ∧ s.fi.keyed = true) ∨ (key = 0x5E5E ∧ s.fi.keyed = false)) : fiKeyEff key s = fiKeyBad s := by
  refine (if_neg hkey).trans ?_
  by_cases hmode : s.gen.mode = .service
  · have hturn := hbad.resolve_left (not_not.mpr hmode)
    have hfirst : ¬ (key = 0xF1A1 ∧ ¬ s.fi.keyed = true) := by
      rintro ⟨rfl, hno⟩
      rcases hturn with ⟨hother, -⟩ | ⟨-, hyes⟩ | ⟨hsecond, -⟩
      · exact hother rfl
      · exact hno hyes
      · exact absurd hsecond (by decide)
    have hsecond : ¬ (key = 0x5E5E ∧ s.fi.keyed = true) := by
      rintro ⟨rfl, hyes⟩
      rcases hturn with ⟨-, hother⟩ | ⟨hfirst, -⟩ | ⟨-, hno⟩
      · exact hother rfl
      · exact absurd hfirst (by decide)
      · exact ne_true_of_eq_false hno hyes
    exact (if_neg (not_not.mpr hmode)).trans ((if_neg hfirst).trans (if_neg hsecond))
  · exact if_pos hmode

/-- What arming changes besides FI and its flag. -/
theorem fiArmed_only_flagOn (diag : Bool) (s : State) :
    Only [.out, .he, .ctl, .fs, .mg, .reg Reg.QE_CQFULL.COUNT, .reg Reg.MG_LOGSTAT.DROPPED, .reg Reg.MG_ERR.LOGDROP]
      (flagOn Reg.FI_ARM.ARMED { s with fi := { s.fi with armed := true, keyed := false } }) (fiArmed diag s) :=
  ((logEvent_only ..).mono (.ofAll (by decide +kernel))).trans ((vendorEvent_only ..).mono (.ofAll (by decide +kernel)))

/-- R394: FI is armed, and the sequence has ended. -/
theorem fiArmed_fi (diag : Bool) (s : State) : (fiArmed diag s).fi = { s.fi with armed := true, keyed := false } :=
  (fiArmed_only_flagOn diag s).keeps .fi rfl

end

/-! Disarming (R394). -/

section
variable {cause : Nat} {s : State}

/-- R394: disarming clears every EN and notes its cause. -/
def fiCleared (cause : Nat) (s : State) : State :=
  let u := { s with fi := { s.fi with armed := false, keyed := false } }
  flagOff Reg.FI_PCIE.EN (flagOff Reg.FI_FL.EN (flagOff Reg.FI_GF.EN (setF Reg.FI_ARM.DCAUSE cause (flagOff Reg.FI_ARM.ARMED u))))

/-- Without arming there is nothing to disarm. -/
theorem fiDisarmed_disarmed (hoff : s.fi.armed = false) : fiDisarmed cause s = s := if_pos (ne_true_of_eq_false hoff)

/-- R394: disarming is logged. -/
theorem fiDisarmed_armed (harmed : s.fi.armed = true) : fiDisarmed cause s = logEvent 0xF002 1 15 false [cause] (fiCleared cause s) :=
  if_neg (not_not.mpr harmed)

/-- A flag that is 0 is off. -/
theorem isOn_eq_false_of_getF {f : Field} {t : State} (h : getF f t = 0) : isOn f t = false := by
  rw [isOn, h]
  rfl

/-- R394: what a disarming leaves. -/
theorem fiDisarmed_flags (harmed : s.fi.armed = true) : (fiDisarmed cause s).fi.armed = false ∧
    isOn Reg.FI_ARM.ARMED (fiDisarmed cause s) = false ∧ getF Reg.FI_ARM.DCAUSE (fiDisarmed cause s) = cause % 2 ^ 3 ∧
    isOn Reg.FI_GF.EN (fiDisarmed cause s) = false ∧ isOn Reg.FI_FL.EN (fiDisarmed cause s) = false ∧
    isOn Reg.FI_PCIE.EN (fiDisarmed cause s) = false := by
  have hlogged : Only _ (fiCleared cause s) _ := logEvent_only 0xF002 1 15 false [cause] _
  rw [fiDisarmed_armed harmed]
  refine ⟨congrArg Fi.armed (hlogged.keeps .fi rfl), isOn_eq_false_of_getF ?_, ?_, isOn_eq_false_of_getF ?_,
    isOn_eq_false_of_getF ?_, isOn_eq_false_of_getF ?_⟩
  · rw [hlogged.getF_eq (by decide)]
    simp only [fiCleared, flagOff]
    rw [getF_setF_ne _ _ (by decide), getF_setF_ne _ _ (by decide), getF_setF_ne _ _ (by decide), getF_setF_ne _ _ (by decide),
      getF_setF_self, Nat.zero_mod]
  · rw [hlogged.getF_eq (by decide)]
    simp only [fiCleared, flagOff]
    rw [getF_setF_ne _ _ (by decide), getF_setF_ne _ _ (by decide), getF_setF_ne _ _ (by decide), getF_setF_self]
    rfl
  · rw [hlogged.getF_eq (by decide)]
    simp only [fiCleared, flagOff]
    rw [getF_setF_ne _ _ (by decide), getF_setF_ne _ _ (by decide), getF_setF_self, Nat.zero_mod]
  · rw [hlogged.getF_eq (by decide)]
    simp only [fiCleared, flagOff]
    rw [getF_setF_ne _ _ (by decide), getF_setF_self, Nat.zero_mod]
  · rw [hlogged.getF_eq (by decide)]
    simp only [fiCleared, flagOff]
    rw [getF_setF_self, Nat.zero_mod]

end

/-! Enabling a mechanism (R395). -/

section
variable {who : Writer} {en : Field} {mech value : Nat} {limit : Bool} {s : State}

/-- R395: the fields of an injection register after a write, with EN as given. -/
def fiEnWritten (who : Writer) (en : Field) (value v : Nat) (s : State) : State := setF en v (writeFields who en.reg value s)

/-- R395: a write that changes a mechanism starts its count again. -/
def fiRecounted (en : Field) (mech : Nat) (s t : State) : State :=
  if (fieldsAt en.reg).map (fun f => getF f t) = (fieldsAt en.reg).map (fun f => getF f s) then t
  else { t with fi := { t.fi with units := t.fi.units.set mech 0 } }

/-- The count of a mechanism is no field of a register. -/
theorem isOn_fiRecounted (f en : Field) (mech : Nat) (s t : State) : isOn f (fiRecounted en mech s t) = isOn f t := by
  unfold fiRecounted
  split <;> rfl

/-- EN reads as it was written. -/
theorem isOn_fiEnWritten_one (hw : en.width ≠ 0) : isOn en (fiEnWritten who en value 1 s) = true := isOn_flagOn _ hw

/-- EN reads as it was written. -/
theorem isOn_fiEnWritten_zero : isOn en (fiEnWritten who en value 0 s) = false :=
  isOn_eq_false_of_getF ((getF_setF_self ..).trans (Nat.zero_mod _))

variable (hopen : setupOpen who s = true) (hown : mayWrite who en.reg s = true)
include hopen hown

/-- R395: EN is not set. -/
theorem fiMechWrite_off (hoff : fieldBits en value ≠ 1) : fiMechWrite who en mech limit value s = fiEnWritten who en value 0 s := by
  rw [fiMechWrite, fiWrite_taken hopen hown]
  simp only [beq_eq_false_iff_ne.mpr hoff, Bool.false_eq_true, false_and, if_false]
  rfl

variable (hon : fieldBits en value = 1)
include hon

/-- R395: EN is set while FI is disarmed, or in another mode. -/
theorem fiMechWrite_notArmed (hnew : isOn en s = false) (harm : s.fi.armed = false ∨ fiMode s.gen.mode = false) :
    fiMechWrite who en mech limit value s = flagOn Reg.FI_ERR.NOTARMED s := by
  have hdisarmed : ¬ (s.fi.armed = true ∧ fiMode s.gen.mode = true) := fun ⟨harmed, hmode⟩ =>
    harm.elim (ne_true_of_eq_false · harmed) (ne_true_of_eq_false · hmode)
  rw [fiMechWrite, fiWrite_taken hopen hown]
  exact if_pos ⟨beq_iff_eq.mpr hon, ne_true_of_eq_false hnew, hdisarmed⟩

variable (harm : isOn en s = true ∨ (s.fi.armed = true ∧ fiMode s.gen.mode = true))
include harm

/-- R395: EN may be set: the limit of SERVICE decides. -/
theorem fiMechWrite_allowed : fiMechWrite who en mech limit value s =
    if s.gen.mode = .service ∧ ¬ limit then genErr Reg.GEN_ERR.RANGE en.reg who s
    else fiRecounted en mech s (fiEnWritten who en value 1 s) := by
  have hset : ¬ (¬ isOn en s = true ∧ ¬ (s.fi.armed = true ∧ fiMode s.gen.mode = true)) := fun ⟨hnew, hdisarmed⟩ =>
    harm.elim hnew hdisarmed
  rw [fiMechWrite, fiWrite_taken hopen hown]
  simp only [beq_iff_eq.mpr hon, if_true, true_and, ne_eq, ite_not]
  rw [if_neg hset]
  rfl

/-- R395: in SERVICE a write that breaks a limit is refused. -/
theorem fiMechWrite_range (hmode : s.gen.mode = .service) (hlimit : limit = false) :
    fiMechWrite who en mech limit value s = genErr Reg.GEN_ERR.RANGE en.reg who s :=
  (fiMechWrite_allowed hopen hown hon harm).trans (if_pos ⟨hmode, ne_true_of_eq_false hlimit⟩)

/-- R395: EN is set. -/
theorem fiMechWrite_set (hlimit : s.gen.mode ≠ .service ∨ limit = true) :
    fiMechWrite who en mech limit value s = fiRecounted en mech s (fiEnWritten who en value 1 s) :=
  (fiMechWrite_allowed hopen hown hon harm).trans (if_neg fun ⟨hmode, hno⟩ => hlimit.elim (· hmode) hno)

end

/-- In SERVICE an armed FI may be enabled. -/
theorem fiMode_of_service {s : State} {p : Prop} (hmode : s.gen.mode = .service) (harm : p ∨ s.fi.armed = true) :
    p ∨ (s.fi.armed = true ∧ fiMode s.gen.mode = true) :=
  harm.imp_right fun h => ⟨h, by rw [hmode]; rfl⟩

/-! The statement. -/

/-- Settles O42: each clause is the one branch its hypotheses choose. -/
theorem faultsAndInjection : Obligations.FaultsAndInjection := by
  refine ⟨?_, ?_, ?_, ?_, ?_, ?_, ?_, ?_, ?_, ?_, ?_, ?_, ?_, ?_, ?_, ?_, ?_, ?_, ?_, ?_, ?_, ?_, ?_, ?_, ?_, ?_, ?_, ?_, ?_, ?_, ?_,
    ?_, ?_, ?_, ?_, ?_, ?_, ?_, ?_, ?_⟩
  · -- A policy core, with a spare.
    rintro _ s hmode rfl hspare
    have hexec : exec (.policyCoreFault .policyCore) s = .next (coreFault s) := congrArg Host.Outcome.next (unitFaultEff_fault hmode)
    have hcounts := coreFault_counts hspare
    exact ⟨_, hexec, (only_of_next (execPolicyCoreFault_only ..) hexec).mono (.ofAll (by decide +kernel)),
      congrArg Prod.fst hcounts, congrArg (·.2.1) hcounts, coreFault_spare hspare⟩
  · -- A decompress lane.
    rintro _ s hmode rfl
    have hexec : exec (.policyCoreFault .decompressLane) s = .next (decompressFault s) :=
      congrArg Host.Outcome.next (unitFaultEff_fault hmode)
    refine ⟨_, hexec, (only_of_next (execPolicyCoreFault_only ..) hexec).mono (.ofAll (by decide +kernel)), ?_, rfl⟩
    rw [decompressFault, nextOut_mg]
  · -- A fault in reset.
    intro unit s hmode
    exact congrArg Host.Outcome.next (unitFaultEff_reset hmode)
  · -- The first key.
    rintro who _ s hopen hown hmode rfl hkeyed
    exact ⟨_, rfl, (only_of_next (execFiArmKey_only ..) rfl).mono (.ofAll (by decide +kernel)),
      (fiWrite_taken hopen hown).trans (fiKeyEff_first hmode hkeyed)⟩
  · -- The second key.
    rintro who _ s hopen hown hmode rfl hkeyed hdisarmed
    have hexec : exec (.fiArmKey who 0x5E5E) s = .next (fiArmed false { s with fi := { s.fi with keyed := false } }) :=
      congrArg Host.Outcome.next ((fiWrite_taken hopen hown).trans
        ((fiKeyEff_second hmode hkeyed).trans (if_neg (ne_true_of_eq_false hdisarmed))))
    exact ⟨_, hexec, (only_of_next (execFiArmKey_only ..) hexec).mono (.ofAll (by decide +kernel)),
      congrArg Fi.armed (fiArmed_fi ..), congrArg Fi.keyed (fiArmed_fi ..),
      isOn_of_only_flagOn (fiArmed_only_flagOn ..) (by decide) (by decide), rfl⟩
  · -- A wrong key.
    intro who key s hopen hown hkey hbad
    have hexec : exec (.fiArmKey who key) s = .next (fiKeyBad s) :=
      congrArg Host.Outcome.next ((fiWrite_taken hopen hown).trans (fiKeyEff_bad hkey hbad))
    exact ⟨_, hexec, (only_of_next (execFiArmKey_only ..) hexec).mono (.ofAll (by decide +kernel)), isOn_flagOn _ (by decide), rfl⟩
  · -- A key without the token.
    intro who key s hopen hother
    exact congrArg Host.Outcome.next (fiWrite_refused hopen hother)
  · -- FI is disarmed.
    intro who s hopen hown harmed
    have hexec : exec (.fiDisarm who) s = .next (fiDisarmed 0 s) := congrArg Host.Outcome.next (fiWrite_taken hopen hown)
    obtain ⟨hoff, hflag, hcause, hgf, hfl, hpcie⟩ := fiDisarmed_flags (cause := 0) harmed
    exact ⟨_, hexec, (only_of_next (execFiDisarm_only ..) hexec).mono (.ofAll (by decide +kernel)), hoff, hflag, hcause, hgf, hfl, hpcie,
      fiDisarmed_armed harmed⟩
  · -- FI_ARM.DISARM without the token.
    intro who s hopen hother
    exact congrArg Host.Outcome.next (fiWrite_refused hopen hother)
  · -- The arming times out.
    intro s hmode harmed
    have hexec : exec .fiArmTimeout s = .next (fiDisarmed 1 s) := congrArg Host.Outcome.next (if_pos hmode)
    obtain ⟨hoff, -, hcause, hgf, -, -⟩ := fiDisarmed_flags (cause := 1) harmed
    exact ⟨_, hexec, (only_of_next (execFiArmTimeout_only ..) hexec).mono (.ofAll (by decide +kernel)), hoff, hcause, hgf,
      fiDisarmed_armed harmed⟩
  · -- It does not.
    intro s hidle
    refine congrArg Host.Outcome.next ?_
    rcases hidle with hmode | hoff
    · exact if_neg hmode
    · rw [fiDisarmed_disarmed hoff, ite_self]
  · -- FI_GF.EN is set.
    intro who value s hopen hown hon harm hlimit
    have hexec : exec (.fiGfEn who value) s = .next _ := congrArg Host.Outcome.next (fiMechWrite_set hopen hown hon harm hlimit)
    exact ⟨_, hexec, (only_of_next (execFiGfEn_only ..) hexec).mono (.ofAll (by decide +kernel)),
      (isOn_fiRecounted ..).trans (isOn_fiEnWritten_one (by decide)), rfl⟩
  · -- FI_GF.EN while FI is disarmed.
    intro who value s hopen hown hon hnew harm
    exact ⟨_, rfl, (only_of_next (execFiGfEn_only ..) rfl).mono (.ofAll (by decide +kernel)),
      fiMechWrite_notArmed hopen hown hon hnew harm⟩
  · -- FI_GF.EN without the token.
    intro who value s hopen hother
    exact congrArg Host.Outcome.next (fiWrite_refused hopen hother)
  · -- FI_FL.EN is set.
    intro who value s hopen hown hon harm hlimit
    have hexec : exec (.fiFlEn who value) s = .next _ := congrArg Host.Outcome.next (fiMechWrite_set hopen hown hon harm hlimit)
    exact ⟨_, hexec, (only_of_next (execFiFlEn_only ..) hexec).mono (.ofAll (by decide +kernel)),
      (isOn_fiRecounted ..).trans (isOn_fiEnWritten_one (by decide)), rfl⟩
  · -- FI_FL.EN beyond its limit.
    intro who value s hopen hown hon harm hmode hlimit
    exact ⟨_, rfl, (only_of_next (execFiFlEn_only ..) rfl).mono (.ofAll (by decide +kernel)),
      fiMechWrite_range hopen hown hon (fiMode_of_service hmode harm) hmode hlimit⟩
  · -- FI_FL.EN without the token.
    intro who value s hopen hother
    exact congrArg Host.Outcome.next (fiWrite_refused hopen hother)
  · -- FI_PCIE.EN is set.
    intro who value s hopen hown hon harm hmode
    have hexec : exec (.fiPcieEn who value) s = .next _ :=
      congrArg Host.Outcome.next (fiMechWrite_set hopen hown hon harm (.inl hmode))
    exact ⟨_, hexec, (only_of_next (execFiPcieEn_only ..) hexec).mono (.ofAll (by decide +kernel)),
      (isOn_fiRecounted ..).trans (isOn_fiEnWritten_one (by decide)), rfl⟩
  · -- FI_PCIE.EN without the token.
    intro who value s hopen hother
    exact congrArg Host.Outcome.next (fiWrite_refused hopen hother)
  · -- The key sequence times out.
    exact fun s => rfl
  · -- A policy core, without a spare.
    rintro _ s hmode rfl hspare
    exact ⟨_, rfl, (only_of_next (execPolicyCoreFault_only ..) rfl).mono (.ofAll (by decide +kernel)),
      (unitFaultEff_fault hmode).trans (coreFault_shared hspare)⟩
  · -- An LDPC engine.
    rintro _ s hmode rfl
    exact ⟨_, rfl, (only_of_next (execPolicyCoreFault_only ..) rfl).mono (.ofAll (by decide +kernel)), unitFaultEff_fault hmode⟩
  · -- A digest lane.
    rintro _ ctx s hmode rfl
    exact ⟨_, rfl, (only_of_next (execPolicyCoreFault_only ..) rfl).mono (.ofAll (by decide +kernel)), unitFaultEff_fault hmode⟩
  · -- A compress lane.
    rintro _ s hmode rfl
    exact ⟨_, rfl, (only_of_next (execPolicyCoreFault_only ..) rfl).mono (.ofAll (by decide +kernel)), unitFaultEff_fault hmode⟩
  · -- A row of SRAM.
    rintro _ row hardware bufs s hmode rfl
    exact ⟨_, rfl, (only_of_next (execPolicyCoreFault_only ..) rfl).mono (.ofAll (by decide +kernel)), unitFaultEff_fault hmode⟩
  · -- The second key while FI is armed.
    rintro who _ s hopen hown hmode rfl hkeyed harmed
    exact ⟨_, rfl, (only_of_next (execFiArmKey_only ..) rfl).mono (.ofAll (by decide +kernel)),
      (fiWrite_taken hopen hown).trans ((fiKeyEff_second hmode hkeyed).trans (if_pos harmed))⟩
  · -- A key where setup is closed.
    intro who key s hclosed
    exact congrArg Host.Outcome.next (fiWrite_closed hclosed)
  · -- Key 0 is no write.
    rintro who _ s rfl hown
    exact congrArg Host.Outcome.next (fiWrite_same hown (if_pos rfl))
  · -- FI_ARM.DISARM where setup is closed.
    intro who s hclosed
    exact congrArg Host.Outcome.next (fiWrite_closed hclosed)
  · -- FI_ARM.DISARM of a disarmed FI.
    intro who s hown hoff
    exact congrArg Host.Outcome.next (fiWrite_same hown (fiDisarmed_disarmed hoff))
  · -- FI_GF.EN beyond its limit.
    intro who value s hopen hown hon harm hmode hlimit
    exact ⟨_, rfl, (only_of_next (execFiGfEn_only ..) rfl).mono (.ofAll (by decide +kernel)),
      fiMechWrite_range hopen hown hon (fiMode_of_service hmode harm) hmode hlimit⟩
  · -- FI_GF.EN is cleared.
    intro who value s hopen hown hoff
    have hexec : exec (.fiGfEn who value) s = .next _ := congrArg Host.Outcome.next (fiMechWrite_off hopen hown hoff)
    exact ⟨_, hexec, (only_of_next (execFiGfEn_only ..) hexec).mono (.ofAll (by decide +kernel)), isOn_fiEnWritten_zero, rfl⟩
  · -- FI_GF.EN where setup is closed.
    intro who value s hclosed
    exact congrArg Host.Outcome.next (fiWrite_closed hclosed)
  · -- FI_FL.EN while FI is disarmed.
    intro who value s hopen hown hon hnew harm
    exact ⟨_, rfl, (only_of_next (execFiFlEn_only ..) rfl).mono (.ofAll (by decide +kernel)),
      fiMechWrite_notArmed hopen hown hon hnew harm⟩
  · -- FI_FL.EN is cleared.
    intro who value s hopen hown hoff
    have hexec : exec (.fiFlEn who value) s = .next _ := congrArg Host.Outcome.next (fiMechWrite_off hopen hown hoff)
    exact ⟨_, hexec, (only_of_next (execFiFlEn_only ..) hexec).mono (.ofAll (by decide +kernel)), isOn_fiEnWritten_zero, rfl⟩
  · -- FI_FL.EN where setup is closed.
    intro who value s hclosed
    exact congrArg Host.Outcome.next (fiWrite_closed hclosed)
  · -- FI_PCIE.EN while FI is disarmed.
    intro who value s hopen hown hon hnew harm
    exact ⟨_, rfl, (only_of_next (execFiPcieEn_only ..) rfl).mono (.ofAll (by decide +kernel)),
      fiMechWrite_notArmed hopen hown hon hnew harm⟩
  · -- FI_PCIE.EN in SERVICE.
    intro who value s hopen hown hon harm hmode
    exact ⟨_, rfl, (only_of_next (execFiPcieEn_only ..) rfl).mono (.ofAll (by decide +kernel)),
      fiMechWrite_range hopen hown hon (fiMode_of_service hmode harm) hmode rfl⟩
  · -- FI_PCIE.EN is cleared.
    intro who value s hopen hown hoff
    have hexec : exec (.fiPcieEn who value) s = .next _ := congrArg Host.Outcome.next (fiMechWrite_off hopen hown hoff)
    exact ⟨_, hexec, (only_of_next (execFiPcieEn_only ..) hexec).mono (.ofAll (by decide +kernel)), isOn_fiEnWritten_zero, rfl⟩
  · -- FI_PCIE.EN where setup is closed.
    intro who value s hclosed
    exact congrArg Host.Outcome.next (fiWrite_closed hclosed)

end Sys2Proof.Machine
end

section
/-! SUPPORT. Hold-up: charger, voltage and verification. Rules R370, R371, R393. -/
namespace Sys2Proof.Machine
-- One theorem at a time: a thread for each would exhaust the memory the check allows.
set_option Elab.async false

section
variable {s : State}

/-! Write-through. -/

/-- What entering write-through may change once its two flags are set: places with neither VERIFIED, nor WTHRU, nor a hold-up error. -/
def wtBooking : List Fld :=
  places [posting, logging, revoking, windowLog, sending, poisoned] [.freeCtr, .sh, .defFaults, .lost, .mx, .mm, .tw]

/-- Verified before, write-through clears VERIFIED, sets WTHRU and then books what is staged. -/
theorem writeThroughEnter_booking (hon : isOn Reg.GEN_HOLDUP.VERIFIED s = true) :
    Only wtBooking (flagOn Reg.GEN_HOLDUP.WTHRU (flagOff Reg.GEN_HOLDUP.VERIFIED s)) (writeThroughEnter s) := by
  rw [writeThroughEnter, if_neg (not_not_intro hon)]
  have hevent : Only wtBooking _ (vendorEvent 0x10 0xC2 (flagOn Reg.GEN_HOLDUP.WTHRU (flagOff Reg.GEN_HOLDUP.VERIFIED s))) :=
    (vendorEvent_only ..).mono (.ofAll (by decide +kernel))
  exact .step (bookVat_only ..) (.ofAll (by decide +kernel)) (.upd_mm rfl (.step (readyForVat_only ..) (.ofAll (by decide +kernel)) hevent))

/-- Write-through entered: VERIFIED is clear and WTHRU set. -/
theorem writeThroughEnter_flags (hon : isOn Reg.GEN_HOLDUP.VERIFIED s = true) :
    isOn Reg.GEN_HOLDUP.VERIFIED (writeThroughEnter s) = false ∧ isOn Reg.GEN_HOLDUP.WTHRU (writeThroughEnter s) = true := by
  have hbooked := writeThroughEnter_booking hon
  refine ⟨?_, isOn_of_only_flagOn hbooked (by decide) (by decide)⟩
  rw [hbooked.isOn_eq (by decide), (flagOn_only ..).isOn_eq (by decide)]
  exact isOn_eq_false_of_getF (getF_flagOff_self ..)

/-- An error flagged before write-through is entered: the error stays, and it was VERIFIED that write-through found. -/
theorem writeThroughEnter_flagged {e : Field} (he : covered [.reg e] (.reg Reg.GEN_HOLDUP.VERIFIED) = false)
    (hsaved : covered wtBooking (.reg e) = false) (hne : covered [.reg Reg.GEN_HOLDUP.VERIFIED, .reg Reg.GEN_HOLDUP.WTHRU] (.reg e) = false)
    (hw : e.width ≠ 0) (hon : isOn Reg.GEN_HOLDUP.VERIFIED s = true) :
    isOn Reg.GEN_HOLDUP.VERIFIED (writeThroughEnter (flagOn e s)) = false ∧
    isOn Reg.GEN_HOLDUP.WTHRU (writeThroughEnter (flagOn e s)) = true ∧ isOn e (writeThroughEnter (flagOn e s)) = true := by
  have hon' : isOn Reg.GEN_HOLDUP.VERIFIED (flagOn e s) = true := ((flagOn_only ..).isOn_eq he).trans hon
  obtain ⟨hver, hwt⟩ := writeThroughEnter_flags hon'
  have hflags : Only [.reg Reg.GEN_HOLDUP.VERIFIED, .reg Reg.GEN_HOLDUP.WTHRU] (flagOn e s)
      (flagOn Reg.GEN_HOLDUP.WTHRU (flagOff Reg.GEN_HOLDUP.VERIFIED (flagOn e s))) :=
    ((flagOff_only ..).mono (.ofAll (by decide +kernel))).trans ((flagOn_only ..).mono (.ofAll (by decide +kernel)))
  refine ⟨hver, hwt, ?_⟩
  rw [(writeThroughEnter_booking hon').isOn_eq hsaved, hflags.isOn_eq hne]
  exact isOn_flagOn _ hw

/-! The charger (R371, R393). -/

/-- The HU_GOOD pin at a level. -/
def huGoodAt (level : Bool) (s : State) : State := { s with pins := { s.pins with huGood := level } }

theorem huGoodDeassertEff_verified (hon : isOn Reg.GEN_HOLDUP.VERIFIED s = true) :
    huGoodDeassertEff s = writeThroughEnter (flagOn Reg.MG_ERR.HULOW (huGoodAt false s)) := if_pos hon

theorem huGoodDeassertEff_unverified (hoff : isOn Reg.GEN_HOLDUP.VERIFIED s = false) : huGoodDeassertEff s = huGoodAt false s :=
  if_neg (Bool.eq_false_iff.mp hoff)

/-! The start of a verification (R370). -/

/-- A verification under way from the voltage `v0mv`. -/
def verificationFrom (v0mv : Nat) (s : State) : State :=
  setF Reg.MG_HUSTAT.VOLT v0mv { s with pins := { s.pins with huTest := true }, mg := { s.mg with verifying := some v0mv } }

/-- Outside RESET and DRAIN a verification starts. -/
theorem startVerification_running (v0mv : Nat) (hmode : s.gen.mode ≠ .reset ∧ s.gen.mode ≠ .drain) :
    startVerification v0mv s = verificationFrom v0mv s := by
  obtain ⟨hreset, hdrain⟩ := hmode
  unfold startVerification
  split
  · exact absurd ‹_› hreset
  · exact absurd ‹_› hdrain
  · rfl

/-! The voltage below V_LOW (R371). -/

/-- Storing the measured voltage leaves every input of the energy alone. -/
theorem holdupEnergy_setVolt (mv v0mv den : Nat) : holdupEnergy v0mv den (setF Reg.MG_HUSTAT.VOLT mv s) = holdupEnergy v0mv den s := by
  unfold holdupEnergy
  rw [(setF_only ..).getF_eq (by decide), (setF_only ..).getF_eq (by decide)]

theorem huSenseBelowVLowEff_low {mv : Nat} (hon : isOn Reg.GEN_HOLDUP.VERIFIED s = true) (hlow : holdupEnergy mv s.mg.capDen s < 3000) :
    huSenseBelowVLowEff mv s = writeThroughEnter (flagOn Reg.MG_ERR.HULOW (setF Reg.MG_HUSTAT.VOLT mv s)) :=
  if_pos ⟨((setF_only ..).isOn_eq (by decide)).trans hon, (holdupEnergy_setVolt ..).trans_lt hlow⟩

theorem huSenseBelowVLowEff_enough {mv : Nat}
    (henough : isOn Reg.GEN_HOLDUP.VERIFIED s = false ∨ 3000 ≤ holdupEnergy mv s.mg.capDen s) :
    huSenseBelowVLowEff mv s = setF Reg.MG_HUSTAT.VOLT mv s := by
  refine if_neg fun hlow => ?_
  obtain ⟨hon, henergy⟩ := hlow
  rw [(setF_only ..).isOn_eq (by decide)] at hon
  have henergy : holdupEnergy mv s.mg.capDen s < 3000 := (holdupEnergy_setVolt ..).symm.trans_lt henergy
  rcases henough with hoff | hge
  · exact Bool.eq_false_iff.mp hoff hon
  · exact Nat.not_le_of_lt henergy hge

/-! The end of a verification (R370). -/

/-- A verification's result recorded: the capacitance, the energy, and no verification under way. -/
def holdupMeasured (v0 dvTenthMv : Nat) (s : State) : State :=
  let t := setSat Reg.GEN_HOLDUP.ENERGY (holdupEnergy v0 (dvTenthMv + 1) s) (setSat Reg.MG_HUSTAT.CAP (100000 / (dvTenthMv + 1)) s)
  { t with pins := { t.pins with huTest := false }, mg := { t.mg with verifying := none, capDen := dvTenthMv + 1 } }

theorem holdupMeasured_only (v0 dvTenthMv : Nat) (s : State) :
    Only [.pins, .mg, .reg Reg.GEN_HOLDUP.ENERGY, .reg Reg.MG_HUSTAT.CAP] s (holdupMeasured v0 dvTenthMv s) :=
  .upd_pins_mg rfl rfl (((setSat_only ..).mono (.ofAll (by decide +kernel))).trans ((setSat_only ..).mono (.ofAll (by decide +kernel))))

theorem getF_cap_holdupMeasured (v0 dvTenthMv : Nat) (s : State) : getF Reg.MG_HUSTAT.CAP (holdupMeasured v0 dvTenthMv s) =
    Nat.min (100000 / (dvTenthMv + 1)) (2 ^ Reg.MG_HUSTAT.CAP.width - 1) :=
  ((setSat_only Reg.GEN_HOLDUP.ENERGY _ (setSat Reg.MG_HUSTAT.CAP (100000 / (dvTenthMv + 1)) s)).getF_eq (by decide)).trans
    (getF_setSat_self ..)

theorem getF_energy_holdupMeasured (v0 dvTenthMv : Nat) (s : State) : getF Reg.GEN_HOLDUP.ENERGY (holdupMeasured v0 dvTenthMv s) =
    Nat.min (holdupEnergy v0 (dvTenthMv + 1) s) (2 ^ Reg.GEN_HOLDUP.ENERGY.width - 1) :=
  getF_setSat_self _ _ (setSat Reg.MG_HUSTAT.CAP (100000 / (dvTenthMv + 1)) s)

/-- VERIFIED set, and remembered as set once. -/
def holdupVerified (s : State) : State := flagOn Reg.GEN_HOLDUP.VERIFIED { s with gen := { s.gen with verifiedOnce := true } }

/-- A passed verification, write-through ended or not: VERIFIED, that it was verified once, and the pins, management's state and the other
hold-up registers as they were. -/
theorem writeThroughExit_holdupVerified (s : State) :
    Only [.out, .gen, .he, .ctl, .fs, .mm, .reg Reg.GEN_HOLDUP.VERIFIED, .reg Reg.GEN_HOLDUP.WTHRU, .reg Reg.QE_CQFULL.COUNT] s
      (writeThroughExit (holdupVerified s)) ∧
    isOn Reg.GEN_HOLDUP.VERIFIED (writeThroughExit (holdupVerified s)) = true ∧
    (writeThroughExit (holdupVerified s)).gen.verifiedOnce = true := by
  have hexit := writeThroughExit_only (holdupVerified s)
  have hgen : (holdupVerified s).gen.verifiedOnce = true := rfl
  have hflag : Only [.gen, .reg Reg.GEN_HOLDUP.VERIFIED] s (holdupVerified s) :=
    .step (flagOn_only ..) (.ofAll (by decide +kernel)) (.upd_gen rfl (.refl ..))
  exact ⟨.step hexit (.ofAll (by decide +kernel)) (hflag.mono (.ofAll (by decide +kernel))),
    (hexit.isOn_eq (by decide)).trans (isOn_flagOn _ (by decide)), (congrArg Gen.verifiedOnce (hexit.keeps .gen rfl)).trans hgen⟩

theorem holdupVerificationEndEff_passed {v0 dvTenthMv : Nat} (hver : s.mg.verifying = some v0) (hgood : s.pins.huGood = true)
    (henergy : 3000 ≤ holdupEnergy v0 (dvTenthMv + 1) s) :
    holdupVerificationEndEff dvTenthMv s = writeThroughExit (holdupVerified (holdupMeasured v0 dvTenthMv s)) := by
  unfold holdupVerificationEndEff
  simp only [hver]
  exact (if_pos henergy).trans (if_pos hgood)

theorem holdupVerificationEndEff_failed {v0 dvTenthMv : Nat} (hver : s.mg.verifying = some v0)
    (henergy : holdupEnergy v0 (dvTenthMv + 1) s < 3000) :
    holdupVerificationEndEff dvTenthMv s = writeThroughEnter (flagOn Reg.MG_ERR.HUFAIL (holdupMeasured v0 dvTenthMv s)) := by
  unfold holdupVerificationEndEff
  simp only [hver]
  exact if_neg (Nat.not_le_of_lt henergy)

end

/-- Settles O4, a clause at a time: `writeThroughEnter_flagged` for the charger, the voltage and a failed verification, the recorded
result of R370 for a passed one. -/
theorem holdUpSupply : Obligations.HoldUpSupply := by
  refine ⟨?_, ?_, ?_, ?_, ?_, ?_, ?_, ?_⟩
  · -- The charger fails while VERIFIED.
    intro s hon
    have hexec : exec .huGoodDeassert s = .next _ := congrArg Host.Outcome.next (huGoodDeassertEff_verified hon)
    obtain ⟨hver, hwt, hlow⟩ := writeThroughEnter_flagged (s := huGoodAt false s) (e := Reg.MG_ERR.HULOW) (by decide) (by decide)
      (by decide) (by decide) hon
    have hpins := (writeThroughEnter_only (flagOn Reg.MG_ERR.HULOW (huGoodAt false s))).keeps .pins rfl
    exact ⟨_, hexec, (only_of_next (execHuGoodDeassert_only ..) hexec).mono (.ofAll (by decide +kernel)), hver, hwt, hlow,
      congrArg Pins.huGood hpins⟩
  · -- The charger fails while not VERIFIED.
    intro s hoff
    exact congrArg Host.Outcome.next (huGoodDeassertEff_unverified hoff)
  · -- The charger is good again: a verification starts.
    intro s hmode
    have hexec : exec .huGoodReassert s = .next _ := congrArg Host.Outcome.next (startVerification_running (s := huGoodAt true s) _ hmode)
    exact ⟨_, hexec, (only_of_next (execHuGoodReassert_only ..) hexec).mono (.ofAll (by decide +kernel)), rfl, rfl, rfl⟩
  · -- The voltage leaves too little energy.
    intro mv s hon henergy
    have hexec : exec (.huSenseBelowVLow mv) s = .next _ := congrArg Host.Outcome.next (huSenseBelowVLowEff_low hon henergy)
    obtain ⟨hver, hwt, hlow⟩ := writeThroughEnter_flagged (s := setF Reg.MG_HUSTAT.VOLT mv s) (e := Reg.MG_ERR.HULOW) (by decide)
      (by decide) (by decide) (by decide) (((setF_only ..).isOn_eq (by decide)).trans hon)
    refine ⟨_, hexec, (only_of_next (execHuSenseBelowVLow_only ..) hexec).mono (.ofAll (by decide +kernel)), hver, hwt, hlow, ?_⟩
    rw [(writeThroughEnter_only ..).getF_eq (by decide), (flagOn_only ..).getF_eq (by decide)]
    exact getF_setF_self ..
  · -- The energy is enough, or nothing was verified.
    intro mv s henough
    exact congrArg Host.Outcome.next (huSenseBelowVLowEff_enough henough)
  · -- A verification starts at a given voltage.
    intro v0mv s hmode
    have hexec : exec (.holdupVerificationStart v0mv) s = .next _ := congrArg Host.Outcome.next (startVerification_running _ hmode)
    exact ⟨_, hexec, (only_of_next (execHoldupVerificationStart_only ..) hexec).mono (.ofAll (by decide +kernel)), rfl, rfl,
      getF_setF_self ..⟩
  · -- The verification passes.
    intro dvTenthMv v0 s hver hgood henergy
    have hexec : exec (.holdupVerificationEnd dvTenthMv) s = .next _ :=
      congrArg Host.Outcome.next (holdupVerificationEndEff_passed hver hgood henergy)
    obtain ⟨hkept, hverified, honce⟩ := writeThroughExit_holdupVerified (holdupMeasured v0 dvTenthMv s)
    have hpins : _ = (holdupMeasured v0 dvTenthMv s).pins := hkept.keeps .pins rfl
    have hmg : _ = (holdupMeasured v0 dvTenthMv s).mg := hkept.keeps .mg rfl
    exact ⟨_, hexec, (only_of_next (execHoldupVerificationEnd_only ..) hexec).mono (.ofAll (by decide +kernel)), hverified, honce,
      (congrArg Pins.huTest hpins).trans rfl, (congrArg Mg.verifying hmg).trans rfl, (congrArg Mg.capDen hmg).trans rfl,
      (hkept.getF_eq (by decide)).trans (getF_cap_holdupMeasured ..), (hkept.getF_eq (by decide)).trans (getF_energy_holdupMeasured ..)⟩
  · -- The verification fails.
    intro dvTenthMv v0 s hver hon henergy
    have hexec : exec (.holdupVerificationEnd dvTenthMv) s = .next _ :=
      congrArg Host.Outcome.next (holdupVerificationEndEff_failed hver henergy)
    obtain ⟨hver, hwt, hfail⟩ := writeThroughEnter_flagged (s := holdupMeasured v0 dvTenthMv s) (e := Reg.MG_ERR.HUFAIL) (by decide)
      (by decide) (by decide) (by decide) (((holdupMeasured_only ..).isOn_eq (by decide)).trans hon)
    have hpins := (writeThroughEnter_only (flagOn Reg.MG_ERR.HUFAIL (holdupMeasured v0 dvTenthMv s))).keeps .pins rfl
    exact ⟨_, hexec, (only_of_next (execHoldupVerificationEnd_only ..) hexec).mono (.ofAll (by decide +kernel)), hver, hwt, hfail,
      congrArg Pins.huTest hpins⟩

end Sys2Proof.Machine
end

section
/-! SUPPORT. The boot ROM's verification and the release of the islands. Rules R358, R359, R381, R382, R40, R42, R312. -/
namespace Sys2Proof.Machine
-- One theorem at a time: a thread for each would exhaust the memory the check allows.
set_option Elab.async false

section
variable {slot1 slot2 : SlotImage} {s : State}

/-! Boot verification (R358). -/

/-- The two blocks read with no sector to erase again. -/
def blocksRead (slot1 slot2 : SlotImage) (s : State) : State :=
  { redoSectors s with ff := { (redoSectors s).ff with slot1 := some slot1, slot2 := some slot2 } }

theorem blocksRead_only (slot1 slot2 : SlotImage) (s : State) : Only [.ff, .reg Reg.FF_WEAR.HALFERASED] s (blocksRead slot1 slot2 s) :=
  .upd_ff rfl (redoSectors_only s)

/-- Verification reads the fuses, which reading the blocks leaves alone. -/
theorem verifyImage_blocksRead (img : SlotImage) : verifyImage img (blocksRead slot1 slot2 s) = verifyImage img s :=
  Tests.verifyImage_of_fuses img ((blocksRead_only slot1 slot2 s).keeps .fuses rfl)

/-- The registers of a block that runs. -/
def blockRegs (blk : Nat) (s : State) : State :=
  flagOn Reg.DG_RNG.HEALTH (bump Reg.DG_RNG.RESEEDS (setF Reg.GEN_START.BOOTBLK blk (setF Reg.MG_STAT.SLOT blk (flagOn Reg.MG_STAT.RUN s))))

/-- The block `blk` with the image `img` runs, by the given row; `otherOk` says that the other block passes too. -/
def blockRuns (img : SlotImage) (blk row : Nat) (otherOk : Bool) (s : State) : State :=
  let t := blockRegs blk s
  { t with
    gen := { t.gen with bootVerified := true, bootRow := row, otherOk := otherOk },
    mg := { t.mg with run := true, wdogAt := now t },
    dg := { t.dg with runImg := some img, kctxGen := t.dg.kctxGen + 1, meas := measOf img } }

/-- No block runs: both codes recorded, the second last, and row 5. -/
def noBlockRuns (code1 code2 : Nat) (s : State) : State :=
  let t := bootFailed code2 (bootFailed code1 s)
  { t with gen := { t.gen with bootRow := 5 } }

/-- A boot that still has its verification to do. -/
def BootPending (s : State) : Prop := s.gen.mode = .boot ∧ s.gen.bootVerified = false ∧ s.gen.bootRow ≠ 5

/-- With no half-erased sector the selected block stays selected. -/
theorem redoSectors_selBlock (hhalf : s.ff.half = []) : (redoSectors s).ff.selBlock = s.ff.selBlock := by
  unfold redoSectors
  rw [hhalf]
  rfl

/-- Block 0 selected and no half-erased sector: the first block that passes runs, and with neither row 5 follows. -/
theorem bootImageVerifyEff_pending (hpend : BootPending s) (hhalf : s.ff.half = []) (hsel : s.ff.selBlock = 0) :
    bootImageVerifyEff slot1 slot2 s =
      if verifyImage slot1 s = 0 then blockRuns slot1 0 0 (decide (verifyImage slot2 s = 0)) (blocksRead slot1 slot2 s)
      else if verifyImage slot2 s = 0 then
        blockRuns slot2 1 4 (decide (verifyImage slot2 s = 0)) (bootFailed (verifyImage slot1 s) (blocksRead slot1 slot2 s))
      else noBlockRuns (verifyImage slot1 s) (verifyImage slot2 s) (blocksRead slot1 slot2 s) := by
  obtain ⟨hmode, hver, hrow⟩ := hpend
  have hread : (redoSectors s).ff.selBlock = 0 := (redoSectors_selBlock hhalf).trans hsel
  rw [← verifyImage_blocksRead (slot1 := slot1) (slot2 := slot2) slot1,
    ← verifyImage_blocksRead (slot1 := slot1) (slot2 := slot2) slot2]
  unfold bootImageVerifyEff blocksRead
  rw [if_neg (by simp [hmode, hver, hrow])]
  simp only [hhalf, hread]
  rfl

/-- What the registers of a running block are. -/
theorem blockRegs_only (blk : Nat) (s : State) : Only [.reg Reg.DG_RNG.HEALTH, .reg Reg.DG_RNG.RESEEDS, .reg Reg.GEN_START.BOOTBLK,
    .reg Reg.MG_STAT.SLOT, .reg Reg.MG_STAT.RUN] s (blockRegs blk s) := by
  refine .step (flagOn_only ..) (.ofAll (by decide +kernel)) (.step (bump_only ..) (.ofAll (by decide +kernel)) ?_)
  refine .step (setF_only ..) (.ofAll (by decide +kernel)) (.step (setF_only ..) (.ofAll (by decide +kernel)) ?_)
  exact (flagOn_only ..).mono (.ofAll (by decide +kernel))

/-- R358: the generator's two fields are other than those that tell which block runs. -/
theorem blockRegs_generator (blk : Nat) (s : State) : Only [.reg Reg.DG_RNG.HEALTH, .reg Reg.DG_RNG.RESEEDS]
    (setF Reg.GEN_START.BOOTBLK blk (setF Reg.MG_STAT.SLOT blk (flagOn Reg.MG_STAT.RUN s))) (blockRegs blk s) :=
  .step (flagOn_only ..) (.ofAll (by decide +kernel)) ((bump_only ..).mono (.ofAll (by decide +kernel)))

/-- R358: the registers tell that the management image runs, and from which block. -/
theorem blockRegs_read (blk : Nat) (s : State) : isOn Reg.MG_STAT.RUN (blockRegs blk s) = true ∧
    getF Reg.MG_STAT.SLOT (blockRegs blk s) = blk % 2 ^ Reg.MG_STAT.SLOT.width ∧
    getF Reg.GEN_START.BOOTBLK (blockRegs blk s) = blk % 2 ^ Reg.GEN_START.BOOTBLK.width := by
  have hgen := blockRegs_generator blk s
  refine ⟨?_, ?_, (hgen.getF_eq (by decide)).trans (getF_setF_self ..)⟩
  · rw [hgen.isOn_eq (by decide), (setF_only ..).isOn_eq (by decide), (setF_only ..).isOn_eq (by decide)]
    exact isOn_flagOn _ (by decide)
  · rw [hgen.getF_eq (by decide), (setF_only ..).getF_eq (by decide)]
    exact getF_setF_self ..

/-- R358: a failed verification leaves its code and the error. -/
theorem bootFailed_read (code : Nat) (s : State) : isOn Reg.DG_ERR.BOOTFAIL (bootFailed code s) = true ∧
    getF Reg.DG_SEC.BOOTFAIL (bootFailed code s) = code % 2 ^ Reg.DG_SEC.BOOTFAIL.width :=
  ⟨isOn_flagOn _ (by decide), ((flagOn_only ..).getF_eq (by decide)).trans (getF_setF_self ..)⟩

/-- What two failed blocks change leaves the digest state, and all of the general state but the row, alone. -/
theorem noBlockRuns_kept (code1 code2 : Nat) (s : State) : (noBlockRuns code1 code2 s).dg = s.dg ∧
    (noBlockRuns code1 code2 s).mg = s.mg ∧ (noBlockRuns code1 code2 s).gen = { s.gen with bootRow := 5 } := by
  have hfailed : Only _ s (bootFailed code2 (bootFailed code1 s)) := (bootFailed_only ..).trans (bootFailed_only ..)
  exact ⟨hfailed.keeps .dg rfl, hfailed.keeps .mg rfl, congrArg (fun g : Gen => { g with bootRow := 5 }) (hfailed.keeps .gen rfl)⟩

/-! The release of the islands (R40, R42, R312). -/

/-- The host island released, discovery under way and the self-test of the hold-up supply begun. -/
def islandReleased (s : State) : State :=
  let t := startDiscovery { s with gen := { s.gen with hostReleased := true } }
  { t with pins := { t.pins with huTest := true }, mg := { t.mg with verifying := some (getF Reg.MG_HUSTAT.VOLT t) } }

theorem hostIslandReleaseEff_verified (hmode : s.gen.mode = .boot) (hver : s.gen.bootVerified = true) (hrel : s.gen.hostReleased = false) :
    hostIslandReleaseEff s = islandReleased s := if_pos ⟨hmode, hver, Bool.eq_false_iff.mp hrel⟩

/-- R312: discovery starts with this node as its own candidate. -/
theorem startDiscovery_gf (s : State) : (startDiscovery s).gf =
    { s.gf with discovering := true, discAt := now s, candUid := s.fuses.uid, candDist := 0, isCoord := false, lsrs := [] } :=
  (floodHello_only _).keeps .gf rfl

/-- Discovery is not in the general state. -/
theorem startDiscovery_gen (s : State) : (startDiscovery s).gen = s.gen := (startDiscovery_only s).keeps .gen rfl

/-- Once discovery is under way the release changes pins and management's state only. -/
theorem islandReleased_discovery (s : State) :
    Only [.pins, .mg] (startDiscovery { s with gen := { s.gen with hostReleased := true } }) (islandReleased s) :=
  .upd_pins_mg rfl rfl (.refl ..)

/-- R40: the island is released, and the mode stays. -/
theorem islandReleased_gen (s : State) : (islandReleased s).gen = { s.gen with hostReleased := true } := by
  unfold islandReleased
  dsimp only
  exact startDiscovery_gen _

/-- R312: discovery is counted. -/
theorem getF_startDiscovery_count (s : State) : getF Reg.GF_DISC.COUNT (startDiscovery s) =
    Nat.min (getF Reg.GF_DISC.COUNT s + 1) (2 ^ Reg.GF_DISC.COUNT.width - 1) :=
  ((floodHello_only _).getF_eq (by decide)).trans (getF_bumpBy_self ..)

/-- R312: the released island searches for a coordinator. -/
theorem islandReleased_gf (s : State) : (islandReleased s).gf =
    { s.gf with discovering := true, discAt := now s, candUid := s.fuses.uid, candDist := 0, isCoord := false, lsrs := [] } := by
  unfold islandReleased
  dsimp only
  exact startDiscovery_gf _

/-- R312: the search is counted. -/
theorem islandReleased_count (s : State) : getF Reg.GF_DISC.COUNT (islandReleased s) =
    Nat.min (getF Reg.GF_DISC.COUNT s + 1) (2 ^ Reg.GF_DISC.COUNT.width - 1) :=
  ((islandReleased_discovery s).getF_eq (by decide)).trans
    (getF_startDiscovery_count { s with gen := { s.gen with hostReleased := true } })

/-- R42: the verification starts from the voltage read. -/
theorem islandReleased_verifying (s : State) : (islandReleased s).mg.verifying = some (getF Reg.MG_HUSTAT.VOLT s) := by
  have hvolt := (startDiscovery_only { s with gen := { s.gen with hostReleased := true } }).getF_eq (f := Reg.MG_HUSTAT.VOLT) (by decide)
  unfold islandReleased
  dsimp only
  rw [hvolt]
  rfl

end

/-- Settles O6: `bootImageVerifyEff_pending` gives each case of R358, and the release of the islands starts discovery and a hold-up
verification. -/
theorem bootVerification : Obligations.BootVerification := by
  refine ⟨?_, ?_, ?_, ?_⟩
  · -- The selected block passes.
    intro slot1 slot2 s hmode hver hrow hhalf hsel hok
    have hexec : exec (.bootImageVerify slot1 slot2) s = .next _ :=
      congrArg Host.Outcome.next ((bootImageVerifyEff_pending ⟨hmode, hver, hrow⟩ hhalf hsel).trans (if_pos hok))
    have hkctx : (blockRegs 0 (blocksRead slot1 slot2 s)).dg = s.dg :=
      ((blockRegs_only ..).keeps .dg rfl).trans ((blocksRead_only ..).keeps .dg rfl)
    obtain ⟨hrun, hslot, hblk⟩ := blockRegs_read 0 (blocksRead slot1 slot2 s)
    exact ⟨_, hexec, (only_of_next (execBootImageVerify_only ..) hexec).mono (.ofAll (by decide +kernel)), rfl, rfl, rfl, rfl, rfl,
      congrArg (fun d : Dg => d.kctxGen + 1) hkctx, hrun, hslot, hblk⟩
  · -- The selected block fails and the other passes.
    intro slot1 slot2 s hmode hver hrow hhalf hsel hbad hok
    have hexec : exec (.bootImageVerify slot1 slot2) s = .next _ :=
      congrArg Host.Outcome.next ((bootImageVerifyEff_pending ⟨hmode, hver, hrow⟩ hhalf hsel).trans ((if_neg hbad).trans (if_pos hok)))
    have hregs := blockRegs_only 1 (bootFailed (verifyImage slot1 s) (blocksRead slot1 slot2 s))
    obtain ⟨hrun, hslot, hblk⟩ := blockRegs_read 1 (bootFailed (verifyImage slot1 s) (blocksRead slot1 slot2 s))
    obtain ⟨hfail, hcode⟩ := bootFailed_read (verifyImage slot1 s) (blocksRead slot1 slot2 s)
    exact ⟨_, hexec, (only_of_next (execBootImageVerify_only ..) hexec).mono (.ofAll (by decide +kernel)), rfl, rfl, rfl, rfl, hslot,
      hblk, (hregs.isOn_eq (by decide)).trans hfail, (hregs.getF_eq (by decide)).trans hcode⟩
  · -- Both blocks fail.
    intro slot1 slot2 s hmode hver hrow hhalf hsel hbad1 hbad2
    have hexec : exec (.bootImageVerify slot1 slot2) s = .next _ :=
      congrArg Host.Outcome.next ((bootImageVerifyEff_pending ⟨hmode, hver, hrow⟩ hhalf hsel).trans
        ((if_neg hbad1).trans (if_neg hbad2)))
    obtain ⟨hdg, hmg, hgen⟩ := noBlockRuns_kept (verifyImage slot1 s) (verifyImage slot2 s) (blocksRead slot1 slot2 s)
    have hread := blocksRead_only slot1 slot2 s
    obtain ⟨hfail, -⟩ := bootFailed_read (verifyImage slot2 s) (bootFailed (verifyImage slot1 s) (blocksRead slot1 slot2 s))
    refine ⟨_, hexec, (only_of_next (execBootImageVerify_only ..) hexec).mono (.ofAll (by decide +kernel)), ?_, rfl, ?_,
      hdg.trans (hread.keeps .dg rfl), hfail⟩
    · rw [hgen]
      exact (congrArg Gen.bootVerified (hread.keeps .gen rfl)).trans hver
    · rw [hmg]
      exact congrArg Mg.run (hread.keeps .mg rfl)
  · -- The islands are released.
    intro s hmode hver hrel
    have hexec : exec .hostIslandRelease s = .next _ := congrArg Host.Outcome.next (hostIslandReleaseEff_verified hmode hver hrel)
    have hgen := islandReleased_gen s
    have hgf := islandReleased_gf s
    exact ⟨_, hexec, (only_of_next (execHostIslandRelease_only ..) hexec).mono (.ofAll (by decide +kernel)),
      congrArg Gen.hostReleased hgen, (congrArg Gen.mode hgen).trans hmode, congrArg Gf.discovering hgf, congrArg Gf.candUid hgf,
      congrArg Gf.candDist hgf, congrArg Gf.isCoord hgf, rfl, islandReleased_verifying s, islandReleased_count s⟩

end Sys2Proof.Machine
end

section
/-! SUPPORT. The states of the links: what sending a frame and releasing what is held leave of them, and a link that goes down. Rules R304,
R314. -/
namespace Sys2Proof.Machine
-- One theorem at a time: a thread for each would exhaust the memory the check allows.
set_option Elab.async false

/-! The view. -/

/-- The states of the links (R105), in their order. -/
def State.linkSts (s : State) : List Nat := s.gf.links.map (·.st)

/-- Under `linkSts`, simp takes the operations of a state from the outermost inwards and leaves their arguments alone. -/
@[congr] theorem linkSts_congr (s : State) : s.linkSts = s.linkSts := rfl

/-- The view of a state written out field by field. -/
@[simp] theorem linkSts_mk (pending freeCtr out regs eff time pins gen he ctl sh defFaults lost cmds nextCmd fs mx ns nsWait mm sp cs bp me
    gf tw dg mg fi nand ff prov fuses) :
    State.linkSts ⟨pending, freeCtr, out, regs, eff, time, pins, gen, he, ctl, sh, defFaults, lost, cmds, nextCmd, fs, mx, ns, nsWait, mm,
      sp, cs, bp, me, gf, tw, dg, mg, fi, nand, ff, prov, fuses⟩ = gf.links.map (·.st) := (rfl)

/-- The states written out are the view. -/
@[simp] theorem linkSts_eta (s : State) : s.gf.links.map (·.st) = s.linkSts := (rfl)

/-- The view of a choice. -/
@[simp] theorem linkSts_ite (c : Prop) [Decidable c] (s t : State) :
    (if c then s else t).linkSts = if c then s.linkSts else t.linkSts := apply_ite ..

/-- Changes one after another, each of which leaves the view alone. -/
theorem linkSts_foldl {β : Type} {g : State → β → State} (hg : ∀ t b, (g t b).linkSts = t.linkSts) (l : List β) (s : State) :
    (l.foldl g s).linkSts = s.linkSts := by
  induction l generalizing s with
  | nil => rfl
  | cons b l ih => exact (ih _).trans (hg s b)

/-- A change that does not name the fabric leaves the view alone. -/
theorem Only.linkSts {w : List Fld} {s t : State} (h : Only w s t) (hw : covered w .gf = false := by rfl) : t.linkSts = s.linkSts :=
  congrArg (fun g : Gf => g.links.map (fun l : GLink => l.st)) (h.keeps .gf hw)

/-- A link reads its state in the view; beyond the links it reads 0. -/
theorem getLink_st (k : Nat) (s : State) : (getLink k s).st = (s.linkSts[k]?).getD 0 := by
  unfold getLink State.linkSts
  rw [List.getElem?_map]
  cases s.gf.links[k]? <;> rfl

/-- A change of a link's bookkeeping that keeps its state. -/
theorem linkSts_updLink {f : GLink → GLink} (hf : ∀ l, (f l).st = l.st) (k : Nat) (s : State) :
    (updLink k f s).linkSts = s.linkSts := by
  refine List.ext_getElem? fun i => ?_
  simp only [updLink, State.linkSts, List.getElem?_map, List.getElem?_modify]
  cases s.gf.links[i]? with
  | none => rfl
  | some l =>
    by_cases hik : k = i
    · simp [hik, hf]
    · simp [hik]

/-- A change of a link that takes it down clears its entry. -/
theorem linkSts_updLink_zero {f : GLink → GLink} (hf : ∀ l, (f l).st = 0) (k : Nat) (s : State) :
    (updLink k f s).linkSts = s.linkSts.modify k (fun _ => 0) := by
  refine List.ext_getElem? fun i => ?_
  simp only [updLink, State.linkSts, List.getElem?_map, List.getElem?_modify]
  cases s.gf.links[i]? with
  | none => rfl
  | some l =>
    by_cases hik : k = i
    · simp [hik, hf]
    · simp [hik]

/-! Flits and frames (R303 to R309). -/

/-- A flit that starts keeps the link's state. -/
theorem startFlit_st (vc : Nat) (l : GLink) : (l.startFlit vc).st = l.st := by
  unfold GLink.startFlit
  split
  · rfl
  · rfl

/-- Flits that start keep the link's state. -/
theorem drain_st (w : Nat → Nat) (n : Nat) (l : GLink) : (l.drain w n).st = l.st := by
  induction n generalizing l with
  | zero => rfl
  | succ n ih =>
    unfold GLink.drain
    split
    · exact (ih _).trans (startFlit_st ..)
    · rfl

@[simp] theorem linkSts_drainLink (k : Nat) (s : State) : (drainLink k s).linkSts = s.linkSts := linkSts_updLink (fun _ => drain_st ..) k s

@[simp] theorem linkSts_updTxStream (vc dst : Nat) (f : TxStream → TxStream) (s : State) :
    (updTxStream vc dst f s).linkSts = s.linkSts := by simp [updTxStream]

@[simp] theorem linkSts_sendFlits (k vc n : Nat) (s : State) : (sendFlits k vc n s).linkSts = s.linkSts := by
  have hwait (t : State) : (updLink k (fun l => { l with waits := l.waits.modify vc (· + n) }) t).linkSts = t.linkSts :=
    linkSts_updLink (fun _ => by rfl) k t
  have hinjected : (fiGf k vc n s).2.linkSts = s.linkSts := (fiGf_only ..).linkSts
  simp [sendFlits, hwait, hinjected]

@[simp] theorem linkSts_windowFail (ftype dst cause : Nat) (info : List Nat) (s : State) :
    (windowFail ftype dst cause info s).linkSts = s.linkSts := by
  unfold windowFail
  split
  · split
    · exact (caCpl_only ..).linkSts.trans (linkSts_mk ..)
    · split
      · exact (winLog_only ..).linkSts.trans (State.updPort_only ..).linkSts
      · rfl
  · rfl

@[simp] theorem linkSts_frameFailed (fr : TxFrame) (s : State) : (frameFailed fr s).linkSts = s.linkSts := by
  have hflags (t : State) : (flagOn Reg.GF_ERR.XFERFAIL (bump Reg.GF_XFER.FAILED t)).linkSts = t.linkSts := rfl
  have hbufs (is : List Nat) : (putBufs is s).linkSts = s.linkSts := (putBufs_only ..).linkSts
  simp [frameFailed, hflags, hbufs]

@[simp] theorem linkSts_frameOut (vc dst ftype x k : Nat) (s : State) : (frameOut vc dst ftype x k s).linkSts = s.linkSts := by
  have hinjected (n : Nat) (t : State) : (fiGf k vc n t).2.linkSts = t.linkSts := (fiGf_only ..).linkSts
  have hemit (o : Output) (t : State) : (emit o t).linkSts = t.linkSts := (emit_only ..).linkSts
  have hemits (os : List Output) (t : State) : (emits os t).linkSts = t.linkSts := (emits_only ..).linkSts
  simp [frameOut, hinjected, hemit, hemits]

@[simp] theorem linkSts_rawSend (vc dst ftype tag : Nat) (info : List Nat) (s : State) :
    (rawSend vc dst ftype tag info s).linkSts = s.linkSts := by
  have hflags (t : State) : (flagOn Reg.GF_ERR.XFERFAIL (bump Reg.GF_XFER.FAILED t)).linkSts = t.linkSts := rfl
  have hbuf (o n : Nat) (vc0 : Bool) (t : State) : (bpAlloc o n vc0 t).2.linkSts = t.linkSts := (bpAlloc_only ..).linkSts
  unfold rawSend sendVia
  split
  · simp [hflags]
  · simp [hbuf]

@[simp] theorem linkSts_payResync (vc dst : Nat) (s : State) : (payResync vc dst s).linkSts = s.linkSts := by simp [payResync]

@[simp] theorem linkSts_sendFrame (vc dst ftype tag : Nat) (info : List Nat) (s : State) :
    (sendFrame vc dst ftype tag info s).linkSts = s.linkSts := by simp [sendFrame]

@[simp] theorem linkSts_resendFrame (fr : TxFrame) (s : State) : (resendFrame fr s).linkSts = s.linkSts := by
  have hcount (t : State) : (bump Reg.GF_XFER.RESENT t).linkSts = t.linkSts := rfl
  unfold resendFrame
  split
  · exact linkSts_frameFailed ..
  · split
    · exact linkSts_frameFailed ..
    · simp [hcount]

/-! Reports and routes (R314, R72). -/

@[simp] theorem linkSts_sendLsr (s : State) : (sendLsr s).linkSts = s.linkSts := by
  have hemit (o : Output) : (emit o s).linkSts = s.linkSts := (emit_only ..).linkSts
  simp [sendLsr, hemit]

@[simp] theorem linkSts_failRoutes (s : State) : (failRoutes s).linkSts = s.linkSts :=
  (linkSts_foldl (fun _ _ => (caCpl_only ..).linkSts) _ _).trans (linkSts_mk ..)

/-! What the host holds back (R69). -/

@[simp] theorem linkSts_winGo (p : Port) (t : HeldTlp) (s : State) : (winGo p t s).linkSts = s.linkSts := by
  have hemit (o : Output) (u : State) : (emit o u).linkSts = u.linkSts := (emit_only ..).linkSts
  have hport (f : HostPort → HostPort) (u : State) : (u.updPort p f).linkSts = u.linkSts := (State.updPort_only ..).linkSts
  have hlog (cause offset rid : Nat) (u : State) : (winLog p cause offset rid u).linkSts = u.linkSts := (winLog_only ..).linkSts
  have hread (u : State) : (localRead p t u).linkSts = u.linkSts := (localRead_only ..).linkSts
  have hwrite (off : Nat) (u : State) : (expWrite 0 off t.data (fun _ => t.ep) u).linkSts = u.linkSts := (expWrite_only ..).linkSts
  have hcpl (u : State) : (caCpl p t.tag u).linkSts = u.linkSts := (caCpl_only ..).linkSts
  unfold winGo
  split
  · simp [hport, hlog, hread, hwrite]
  · simp [hport, hlog, hcpl, hemit]

@[simp] theorem linkSts_releaseHeld (p : Port) (s : State) : (releaseHeld p s).linkSts = s.linkSts := by
  have hport (f : HostPort → HostPort) (u : State) : (u.updPort p f).linkSts = u.linkSts := (State.updPort_only ..).linkSts
  have hsubmit (u : State) (t : HeldTlp) : (winSubmit p t u).linkSts = u.linkSts := by simp [winSubmit, hport]
  exact (linkSts_foldl hsubmit _ _).trans (hport ..)

@[simp] theorem linkSts_releaseAll (s : State) : (releaseAll s).linkSts = s.linkSts := by simp [releaseAll]

/-! A link goes down (R304). -/

/-- Whether a state of R105 is up. -/
def stUp (n : Nat) : Bool := n == 2 || n == 3

/-- A link is up as its entry in the view says. -/
theorem getLink_up (k : Nat) (s : State) : (getLink k s).up = stUp ((s.linkSts[k]?).getD 0) := congrArg stUp (getLink_st k s)

/-- A link that is up goes down; the others keep their states. -/
theorem linkSts_linkDown_up {k : Nat} {s : State} (hup : (getLink k s).up = true) :
    (linkDown k s).linkSts = s.linkSts.modify k (fun _ => 0) := by
  have hdown : (updLink k (fun l => { l.fresh with st := 0 }) s).linkSts = s.linkSts.modify k (fun _ => 0) :=
    linkSts_updLink_zero (fun _ => rfl) k s
  have hflag (t : State) : (flagOn Reg.GF_ERR.LINKDOWN t).linkSts = t.linkSts := rfl
  have hevent (t : State) : (evFabric t).linkSts = t.linkSts := (evFabric_only ..).linkSts
  have hresend (t : State) (fr : TxFrame) :
      (updLink k (fun l => { l with reroutes := l.reroutes + 1 }) (resendFrame fr t)).linkSts = t.linkSts :=
    (linkSts_updLink (fun _ => by rfl) k _).trans (linkSts_resendFrame fr t)
  rw [linkDown, if_neg (not_not_intro hup), linkSts_failRoutes, hevent, linkSts_sendLsr, linkSts_foldl hresend, hflag]
  exact hdown

/-- R304: a link told to go down is down, and no link that was down comes up. -/
theorem linkDown_down (k : Nat) (s : State) : (getLink k (linkDown k s)).up = false ∧
    ∀ i, (getLink i s).up = false → (getLink i (linkDown k s)).up = false := by
  by_cases hup : (getLink k s).up = true
  · constructor
    · rw [getLink_up, linkSts_linkDown_up hup, List.getElem?_modify_eq]
      cases s.linkSts[k]? <;> rfl
    · intro i hi
      rw [getLink_up] at hi ⊢
      rw [linkSts_linkDown_up hup, List.getElem?_modify]
      cases hst : s.linkSts[i]? with
      | none => rfl
      | some n =>
        by_cases hki : k = i
        · simp [hki, stUp]
        · simpa [hki, hst] using hi
  · have hsame : linkDown k s = s := if_pos hup
    rw [hsame]
    exact ⟨Bool.eq_false_iff.mpr hup, fun _ hi => hi⟩

/-- Links told to go down one after another are down, and no link that was down comes up. -/
theorem foldl_linkDown_down (ks : List Nat) (s : State) (k : Nat) (hk : k ∈ ks ∨ (getLink k s).up = false) :
    (getLink k (ks.foldl (fun t k => linkDown k t) s)).up = false := by
  induction ks generalizing s with
  | nil => exact hk.resolve_left (List.not_mem_nil)
  | cons i ks ih =>
    obtain ⟨hdown, hstay⟩ := linkDown_down i s
    refine ih (linkDown i s) ?_
    rcases hk with hmem | hoff
    · rcases List.mem_cons.mp hmem with rfl | hmem
      · exact .inr hdown
      · exact .inl hmem
    · exact .inr (hstay k hoff)

/-- R304: after `allLinksDown` every link is down. -/
theorem allLinksDown_down {k : Nat} (s : State) (hk : k < 12) : (getLink k (allLinksDown s)).up = false :=
  foldl_linkDown_down _ s k (.inl (List.mem_range.mpr hk))

end Sys2Proof.Machine
end

section
/-! SUPPORT. Loss of a clock or of DRAM training. Rules R407, R59, R304, R390. -/
namespace Sys2Proof.Machine
-- One theorem at a time: a thread for each would exhaust the memory the check allows.
set_option Elab.async false

/-! The host's reference clock (R407, R59). -/

section
variable {p q : Port} {s : State}

/-- A change of one controller leaves the other alone. -/
theorem con_updCon_ne (s : State) (f : Ctl → Ctl) (h : p ≠ q) : (s.updCon q f).con p = s.con p := Two.get_set_ne _ _ h

/-- Clearing one function leaves the other's controller alone. -/
theorem con_clearQe_ne (h : p ≠ q) : (clearQe q s).con p = s.con p := by
  unfold clearQe
  extract_lets killed cleared
  have hcleared : cleared.con p = killed.con p := con_updCon_ne killed _ h
  exact hcleared.trans ((killCmds_only ..).con_eq rfl p)

/-- The other port's registers, controller and commands stay when a port goes down. -/
theorem portDown_other (hpq : q ≠ p) : (portDown q s).port p = s.port p ∧ (portDown q s).con p = s.con p ∧
    ∀ c ∈ (portDown q s).cmds, c ∈ s.cmds := by
  refine ⟨?_, ?_, ?_⟩
  · rw [portDown, (flagOn_only ..).port_eq rfl, conventionalPort, port_updPort_ne _ _ (Ne.symm hpq), (clearQe_only ..).port_eq rfl]
  · rw [portDown, (flagOn_only ..).con_eq rfl, conventionalPort, (State.updPort_only ..).con_eq rfl]
    exact con_clearQe_ne (Ne.symm hpq)
  · intro c hc
    have hkeep : (portDown q s).cmds = (clearQe q s).cmds :=
      ((flagOn_only ..).keeps .cmds rfl).trans ((State.updPort_only ..).keeps .cmds rfl)
    rw [hkeep, cmds_clearQe, cmds_killCmds] at hc
    exact List.mem_of_mem_filter hc

/-- What a lost reference does at one port: a Surprise Down where the link must be up. -/
def refclkLost (p : Port) (s : State) : State := if (s.port p).up ∧ ¬ (s.port p).l12 then portDown p s else s

/-- A port that has lost its link: it is down, its controller off, its commands gone, and the cause is told. -/
def LinkLost (p : Port) (s : State) : Prop :=
  (s.port p).up = false ∧ (s.con p).en = false ∧ isOn Reg.GEN_RSTCAUSE.PERST s = true ∧ ∀ c ∈ s.cmds, c.port ≠ p

/-- R59: a Surprise Down loses the link. -/
theorem linkLost_portDown (p : Port) (s : State) : LinkLost p (portDown p s) := by
  obtain ⟨c, b, hcon⟩ := con_portDown p s
  exact ⟨congrArg HostPort.up (port_portDown p s), congrArg Ctl.en hcon, isOn_flagOn _ (by decide),
    fun _ hc => port_ne_of_mem_portDown hc⟩

/-- The other port's loss leaves a lost link lost. -/
theorem LinkLost.refclkLost (h : LinkLost p s) (hpq : q ≠ p) : LinkLost p (refclkLost q s) := by
  obtain ⟨hup, hen, hcause, hcmds⟩ := h
  unfold Machine.refclkLost
  split
  · obtain ⟨hport, hcon, hsub⟩ := portDown_other (s := s) hpq
    exact ⟨hport ▸ hup, hcon ▸ hen, isOn_flagOn _ (by decide), fun c hc => hcmds c (hsub c hc)⟩
  · exact ⟨hup, hen, hcause, hcmds⟩

/-- R407: a link that must be up is lost, whatever the other port does first. -/
theorem linkLost_refclkLost (hup : (s.port p).up = true) (hl12 : (s.port p).l12 = false) : LinkLost p (refclkLost p s) := by
  rw [refclkLost, if_pos ⟨hup, by simp [hl12]⟩]
  exact linkLost_portDown p s

/-- The other port's loss leaves this port's link as it was. -/
theorem port_refclkLost_ne (hpq : q ≠ p) : (refclkLost q s).port p = s.port p := by
  unfold refclkLost
  split
  · exact (portDown_other hpq).1
  · rfl

/-- R407: each port whose link must be up loses it. -/
theorem heRefclkLossEff_lost (hup : (s.port p).up = true) (hl12 : (s.port p).l12 = false) : LinkLost p (heRefclkLossEff s) := by
  change LinkLost p (refclkLost .b (refclkLost .a s))
  cases p with
  | a => exact (linkLost_refclkLost hup hl12).refclkLost (by decide)
  | b =>
    have hport : (refclkLost .a s).port .b = s.port .b := port_refclkLost_ne (by decide)
    exact linkLost_refclkLost (hport ▸ hup) (hport ▸ hl12)

end

/-! QUARANTINE (R390). -/

section
variable {s : State}

/-- R390: QUARANTINE is entered by its row. -/
theorem enterMode_quarantine (row : Nat) (s : State) :
    (enterMode row .quarantine s).gen.mode = .quarantine ∧ (enterMode row .quarantine s).gen.cause = row ∧
    (enterMode row .quarantine s).cmds = s.cmds := by
  have hkept : Only _ (setMode row .quarantine s) (enterMode row .quarantine s) := fiDisarmed_only _ _
  exact ⟨congrArg Gen.mode (hkept.keeps .gen rfl), congrArg Gen.cause (hkept.keeps .gen rfl), hkept.keeps .cmds rfl⟩

/-- A device in QUARANTINE by a row: the mode and its cause, CFS on both controllers, and no command. -/
def Quarantined (row : Nat) (s : State) : Prop :=
  s.gen.mode = .quarantine ∧ s.gen.cause = row ∧ s.ctl.a.cfs = true ∧ s.ctl.b.cfs = true ∧ s.cmds = []

/-- What ends neither the mode, nor CFS, nor brings a command keeps a device in QUARANTINE. -/
theorem Quarantined.only {w : List Fld} {row : Nat} {s t : State} (h : Quarantined row s) (k : Only w s t) (hgen : covered w .gen = false)
    (hctl : covered w .ctl = false) (hcmds : covered w .cmds = false) : Quarantined row t := by
  have hg : t.gen = s.gen := k.keeps .gen hgen
  have hc : t.ctl = s.ctl := k.keeps .ctl hctl
  have hm : t.cmds = s.cmds := k.keeps .cmds hcmds
  rwa [Quarantined, hg, hc, hm]

/-- All commands die. -/
theorem cmds_killCmds_all (s : State) : (killCmds (fun _ => true) s).cmds = [] :=
  List.eq_nil_iff_forall_not_mem.mpr fun _ hc => Bool.false_ne_true (not_dead_of_mem_killCmds hc).symm

/-- R390: QUARANTINE once entered, the mark of a flush, the end of the copies and the errors told to the ports leave it so. -/
theorem quarantined_enterQuarantine (row : Nat) (s : State) : Quarantined row (enterQuarantine row s) := by
  unfold enterQuarantine
  extract_lets _ _ fenced flush killed entered _ _ _ held copied
  have hentered : Quarantined row held := by
    obtain ⟨hmode, hcause, hcmds⟩ := enterMode_quarantine row killed
    exact ⟨hmode, hcause, rfl, rfl, hcmds.trans (cmds_killCmds_all fenced)⟩
  have hcopied := (hentered.only (abandonCopies_only held) rfl rfl rfl).only (flagIf_only Reg.GEN_DRAIN.ACTIVE flush _) rfl rfl rfl
  have htold := hcopied.only (pcieError_only .a aerInternal false _) rfl rfl rfl
  split
  · exact htold.only (pcieError_only ..) rfl rfl rfl
  · exact htold

/-- R390: a fatal fault brings QUARANTINE by row 20. -/
theorem quarantined_fatalFault (hmode : s.gen.mode ≠ .reset ∧ s.gen.mode ≠ .drain ∧ s.gen.mode ≠ .quarantine) :
    Quarantined 20 (fatalFault s) := by
  obtain ⟨hreset, hdrain, hquar⟩ := hmode
  have hfault : fatalFault s = enterQuarantine 20 s := by
    unfold fatalFault quarantineNow
    cases hm : s.gen.mode <;> simp_all
  exact hfault ▸ quarantined_enterQuarantine 20 s

/-! DRAM training (R390). -/

/-- A channel's bit cleared. -/
def channelLost (channel : Fin 8) (s : State) : State := { s with me := { s.me with chOk := s.me.chOk - 2 ^ channel.val } }

theorem dramChannelTrainingLossEff_set {channel : Fin 8} (hbit : s.me.chOk.testBit channel.val = true) :
    dramChannelTrainingLossEff channel s =
      if dramFatalMode s.gen.mode then fatalFault (channelLost channel s) else channelLost channel s := by
  unfold dramChannelTrainingLossEff
  dsimp only
  rw [if_pos hbit]
  rfl

/-- A mode in which the loss is fatal is one that a fatal fault leaves. -/
theorem fatal_of_dramFatalMode {m : Mode} (h : dramFatalMode m = true) : m ≠ .reset ∧ m ≠ .drain ∧ m ≠ .quarantine := by
  cases m <;> simp_all [dramFatalMode]

end

/-- Settles O5: a lost link stays lost whatever the other port does, `linkDown` takes every link down in turn, and a fatal fault ends
in QUARANTINE. -/
theorem clocksAndDramLost : Obligations.ClocksAndDramLost := by
  refine ⟨?_, ?_, ?_, ?_, ?_⟩
  · -- The host's reference is lost.
    intro p s hup hl12
    obtain ⟨hdown, hen, hcause, hcmds⟩ := heRefclkLossEff_lost hup hl12
    exact ⟨_, rfl, (only_of_next (execHeRefclkLoss_only ..) rfl).mono (.ofAll (by decide +kernel)), hdown, hen, hcause, hcmds⟩
  · -- The fabric's reference is lost.
    intro s
    refine ⟨_, rfl, (only_of_next (execGfRefclkLoss_only s) rfl).mono (.ofAll (by decide +kernel)), fun k hk => ?_⟩
    rw [getLink_up, linkSts_releaseAll, ← getLink_up]
    exact allLinksDown_down s hk
  · -- The crystal, a PLL or an island clock is lost.
    intro what s hmode
    obtain ⟨hquar, hcause, ha, hb, hcmds⟩ := quarantined_fatalFault hmode
    exact ⟨_, rfl, (only_of_next (execMgXtalLoss_only what s) rfl).mono (.ofAll (by decide +kernel)), hquar, hcause, ha, hb, hcmds⟩
  · -- A DRAM channel loses training in an operating mode.
    intro channel s hmode hbit
    have hexec : exec (.dramChannelTrainingLoss channel) s = .next (fatalFault (channelLost channel s)) :=
      congrArg Host.Outcome.next ((dramChannelTrainingLossEff_set hbit).trans (if_pos hmode))
    obtain ⟨hquar, hcause, -⟩ := quarantined_fatalFault (s := channelLost channel s) (fatal_of_dramFatalMode hmode)
    have hme : (fatalFault (channelLost channel s)).me = _ := (fatalFault_only _).keeps .me rfl
    exact ⟨_, hexec, (only_of_next (execDramChannelTrainingLoss_only ..) hexec).mono (.ofAll (by decide +kernel)), congrArg Me.chOk hme,
      hquar, hcause⟩
  · -- A DRAM channel loses training in another mode.
    intro channel s hmode hbit
    exact congrArg Host.Outcome.next ((dramChannelTrainingLossEff_set hbit).trans (if_neg (Bool.eq_false_iff.mp hmode)))

end Sys2Proof.Machine
end

section
/-! SUPPORT. The recorded mode, the mode and the mode before LOWPOWER, seen together: the view of a state, what a choice, a fold and a
frame do to it, and when it is legal. Rules R34, R35. -/
namespace Sys2Proof.Machine
-- One theorem at a time: a thread for each would exhaust the memory the check allows.
set_option Elab.async false

/-- The recorded mode, the mode, and the mode to which LOWPOWER returns. -/
def State.modeView (s : State) : Mode × Mode × Mode := (s.prov.mode, s.gen.mode, s.gen.lowFrom)

/-- Under `modeView`, simp takes the operations of a state from the outermost inwards and leaves their arguments alone. -/
@[congr] theorem modeView_congr (s : State) : s.modeView = s.modeView := rfl

/-- The view of a state written out field by field. -/
@[simp] theorem modeView_mk (pending freeCtr out regs eff time pins gen he ctl sh defFaults lost cmds nextCmd fs mx ns nsWait mm sp cs bp me
    gf tw dg mg fi nand ff prov fuses) :
    State.modeView ⟨pending, freeCtr, out, regs, eff, time, pins, gen, he, ctl, sh, defFaults, lost, cmds, nextCmd, fs, mx, ns, nsWait, mm,
      sp, cs, bp, me, gf, tw, dg, mg, fi, nand, ff, prov, fuses⟩ = (prov.mode, gen.mode, gen.lowFrom) := (rfl)

/-- The three together are the view of the state. -/
@[simp] theorem modeView_eta (s : State) : (s.prov.mode, s.gen.mode, s.gen.lowFrom) = s.modeView := (rfl)

/-- The view of a choice. -/
@[simp] theorem modeView_ite (c : Prop) [Decidable c] (s t : State) :
    (if c then s else t).modeView = if c then s.modeView else t.modeView := apply_ite ..

/-- Changes one after another, each of which leaves the view alone. -/
@[simp] theorem modeView_foldl {β : Type} {g : State → β → State} (hg : ∀ t b, (g t b).modeView = t.modeView) (l : List β) (s : State) :
    (l.foldl g s).modeView = s.modeView := by
  induction l generalizing s with
  | nil => rfl
  | cons b l ih => exact (ih _).trans (hg s b)

/-- A change that names neither the modes nor the provisioning record leaves the view alone. -/
theorem Only.modeView {w : List Fld} {s t : State} (h : Only w s t) (hg : covered w .gen = false := by rfl)
    (hp : covered w .prov = false := by rfl) : t.modeView = s.modeView := by
  have hgen : t.gen = s.gen := h.keeps .gen hg
  have hprov : t.prov = s.prov := h.keeps .prov hp
  rw [State.modeView, State.modeView, hgen, hprov]

/-- A write of a register field, of which the other register writes are made. -/
@[simp] theorem modeView_setF (f : Field) (v : Nat) (s : State) : (setF f v s).modeView = s.modeView := (rfl)

/-- A change of a port leaves the view alone. -/
@[simp] theorem modeView_updPort (p : Port) (f : HostPort → HostPort) (s : State) : (s.updPort p f).modeView = s.modeView := (rfl)

/-- A change of a controller leaves the view alone. -/
@[simp] theorem modeView_updCon (p : Port) (f : Ctl → Ctl) (s : State) : (s.updCon p f).modeView = s.modeView := (rfl)

/-! When the view is legal. -/

/-- A mode that the record can hold (R35), and LOWPOWER entered from SERVICE or SEALED. -/
def modesOk (v : Mode × Mode × Mode) : Bool :=
  modeRecorded v.1 && (v.2.1 != .lowpower || v.2.2 == .service || v.2.2 == .sealed)

/-- The invariant speaks of the view alone. -/
theorem modesLegal_iff {s : State} : ModesLegal s ↔ modesOk s.modeView = true := by
  rw [ModesLegal, modesOk, State.modeView]
  cases s.gen.mode <;> simp

/-- A choice between two views. -/
@[simp] theorem modesOk_ite (c : Prop) [Decidable c] (x y : Mode × Mode × Mode) :
    modesOk (if c then x else y) = if c then modesOk x else modesOk y := apply_ite ..

/-- A legal view with a recorded mode in place of its own. -/
theorem modesOk_recorded {v : Mode × Mode × Mode} {m : Mode} (hm : modeRecorded m = true) (hv : modesOk v = true) :
    modesOk (m, v.2) = true := by
  simp only [modesOk, Bool.and_eq_true] at hv ⊢
  exact ⟨hm, hv.2⟩

/-- Changes one after another, each of which keeps the view legal. -/
theorem modesOk_foldl {β : Type} {g : State → β → State} (hg : ∀ t b, modesOk t.modeView = true → modesOk (g t b).modeView = true)
    (l : List β) {s : State} (h : modesOk s.modeView = true) : modesOk (l.foldl g s).modeView = true := by
  induction l generalizing s with
  | nil => exact h
  | cons b l ih => exact ih (hg s b h)

/-- A change that keeps the view legal. -/
def KeepsModesOk (f : State → State) : Prop := ∀ t, modesOk t.modeView = true → modesOk (f t).modeView = true

end Sys2Proof.Machine
end

section
/-! SUPPORT. What the shared operations do to the modes and their record: one with an equation `modeView_…` changes none of the three,
one with a lemma `modesOk_…` keeps them legal. Rules R34, R35. -/
namespace Sys2Proof.Machine
-- Many short theorems elaborated at once would need a thread each.
set_option Elab.async false

/-! Machine/Flags.lean -/

@[simp] theorem modeView_flagOn (f : Field) (s : State) : (flagOn f s).modeView = s.modeView := (rfl)
@[simp] theorem modeView_flagOff (f : Field) (s : State) : (flagOff f s).modeView = s.modeView := (rfl)
@[simp] theorem modeView_flagIf (f : Field) (c : Bool) (s : State) : (flagIf c f s).modeView = s.modeView := by simp [flagIf]
@[simp] theorem modeView_bumpBy (f : Field) (n : Nat) (s : State) : (bumpBy f n s).modeView = s.modeView := (rfl)
@[simp] theorem modeView_bump (f : Field) (s : State) : (bump f s).modeView = s.modeView := (rfl)
@[simp] theorem modeView_setSat (f : Field) (v : Nat) (s : State) : (setSat f v s).modeView = s.modeView := (rfl)
@[simp] theorem modeView_genErr (f : Field) (off : Nat) (w : Writer) (s : State) : (genErr f off w s).modeView = s.modeView := (rfl)

/-! Machine/Ops.lean -/

@[simp] theorem modeView_emit (o : Output) (s : State) : (emit o s).modeView = s.modeView := (emit_only ..).modeView
@[simp] theorem modeView_pcieError (p : Port) (bit : Nat) (advisory : Bool) (s : State) :
    (pcieError p bit advisory s).modeView = s.modeView := (pcieError_only ..).modeView
@[simp] theorem modeView_poisonRx (p : Port) (s : State) : (poisonRx p s).modeView = s.modeView := (poisonRx_only ..).modeView
@[simp] theorem modeView_advance (ns : Nat) (s : State) : (advance ns s).modeView = s.modeView := (advance_only ..).modeView
@[simp] theorem modeView_tickFree (s : State) : (tickFree s).modeView = s.modeView := (tickFree_only ..).modeView
@[simp] theorem modeView_logEvent (code sev src : Nat) (coalesce : Bool) (data : List Nat) (s : State) :
    (logEvent code sev src coalesce data s).modeView = s.modeView := (logEvent_only ..).modeView
@[simp] theorem modeView_updClass (k : Nat) (f : ClassCnt → ClassCnt) (s : State) : (updClass k f s).modeView = s.modeView :=
  (updClass_only ..).modeView
@[simp] theorem modeView_updSq (p : Port) (q : Nat) (f : Sq → Sq) (s : State) : (updSq p q f s).modeView = s.modeView :=
  (updSq_only ..).modeView
@[simp] theorem modeView_postDone (p : Port) (sq : Nat) (cid : BitVec 16) (sct sc dw0 dw1 : Nat) (d : Option Done) (s : State) :
    (postDone p sq cid sct sc dw0 dw1 d s).modeView = s.modeView := (postDone_only ..).modeView
@[simp] theorem modeView_postCqe (p : Port) (sq : Nat) (cid : BitVec 16) (sct sc dw0 dw1 : Nat) (s : State) :
    (postCqe p sq cid sct sc dw0 dw1 s).modeView = s.modeView := (postCqe_only ..).modeView
@[simp] theorem modeView_vendorEvent (info lid : Nat) (s : State) : (vendorEvent info lid s).modeView = s.modeView :=
  (vendorEvent_only ..).modeView
@[simp] theorem modeView_evModeChanged (s : State) : (evModeChanged s).modeView = s.modeView := (evModeChanged_only ..).modeView
@[simp] theorem modeView_evFabric (s : State) : (evFabric s).modeView = s.modeView := (evFabric_only ..).modeView
@[simp] theorem modeView_notice (bit info lid : Nat) (s : State) : (notice bit info lid s).modeView = s.modeView :=
  (notice_only ..).modeView
@[simp] theorem modeView_evNsChanged (nsid : Nat) (s : State) : (evNsChanged nsid s).modeView = s.modeView := (evNsChanged_only ..).modeView
@[simp] theorem modeView_evAna (s : State) : (evAna s).modeView = s.modeView := (evAna_only ..).modeView
/-- R34, R35: a mode other than LOWPOWER is entered, and recorded where it is one that is. -/
@[simp] theorem modesOk_setMode (row : Nat) {m : Mode} {s : State} (hm : m ≠ .lowpower) (hs : modesOk s.modeView = true) :
    modesOk (setMode row m s).modeView = true := by
  simp only [modesOk, State.modeView, setMode, Bool.and_eq_true] at hs ⊢
  refine ⟨?_, by simp [hm]⟩
  split
  · next hrec => exact hrec.1
  · exact hs.1
@[simp] theorem modeView_fiDisarmed (cause : Nat) (s : State) : (fiDisarmed cause s).modeView = s.modeView := (fiDisarmed_only ..).modeView
@[simp] theorem modeView_fiArmed (diag : Bool) (s : State) : (fiArmed diag s).modeView = s.modeView := (fiArmed_only ..).modeView
@[simp] theorem modeView_fiRealFault (s : State) : (fiRealFault s).modeView = s.modeView := (fiRealFault_only ..).modeView
@[simp] theorem modeView_enterMode (row : Nat) (m : Mode) (s : State) : (enterMode row m s).modeView = (setMode row m s).modeView := by
  simp [enterMode]
@[simp] theorem modeView_onFabric {f : State → State} (hf : ∀ t, (f t).modeView = t.modeView) (s : State) :
    (onFabric f s).modeView = s.modeView := by simp [onFabric, hf]
theorem modesOk_onFabric {f : State → State} (hf : KeepsModesOk f) {s : State} (h : modesOk s.modeView = true) :
    modesOk (onFabric f s).modeView = true := by simp [onFabric, hf s h, h]

/-! Machine/Bufs.lean -/

@[simp] theorem modeView_updOwner (o : Nat) (f : Owner → Owner) (s : State) : (updOwner o f s).modeView = s.modeView :=
  (updOwner_only ..).modeView
@[simp] theorem modeView_putBufs (is : List Nat) (s : State) : (putBufs is s).modeView = s.modeView := (putBufs_only ..).modeView

/-! Machine/Media.lean -/

@[simp] theorem modeView_updCluster (k : Nat) (f : Cluster → Cluster) (s : State) : (updCluster k f s).modeView = s.modeView :=
  (updCluster_only ..).modeView
@[simp] theorem modeView_ctxPut (d : Nat) (op : DieOp) (b page : Nat) (code : CtxCode) (s : State) :
    (ctxPut d op b page code s).modeView = s.modeView := (ctxPut_only ..).modeView
@[simp] theorem modeView_updNs (n : Nat) (f : Ns → Ns) (s : State) : (updNs n f s).modeView = s.modeView := (updNs_only ..).modeView
@[simp] theorem modeView_jAppend (r : JRec) (s : State) : (jAppend r s).modeView = s.modeView := (jAppend_only ..).modeView
@[simp] theorem modeView_updGroup (g : Nat) (f : Group → Group) (s : State) : (updGroup g f s).modeView = s.modeView :=
  (updGroup_only ..).modeView
@[simp] theorem modeView_updBlk (d b : Nat) (f : Block → Block) (s : State) : (updBlk d b f s).modeView = s.modeView :=
  (updBlk_only ..).modeView
@[simp] theorem modeView_spareIn (resource left : Nat) (s : State) : (spareIn resource left s).modeView = s.modeView :=
  (spareIn_only ..).modeView
@[simp] theorem modeView_unitOut (resource unit : Nat) (s : State) : (unitOut resource unit s).modeView = s.modeView := by simp [unitOut]
@[simp] theorem modeView_recordExhaustSeal (s : State) : (recordExhaustSeal s).modeView = s.modeView := by simp [recordExhaustSeal]
@[simp] theorem modeView_enterModeEv (row : Nat) (m : Mode) (s : State) : (enterModeEv row m s).modeView = (setMode row m s).modeView := by
  simp [enterModeEv]
@[simp] theorem modeView_flushStaged (s : State) : (flushStaged s).modeView = s.modeView := (flushStaged_only ..).modeView
@[simp] theorem modeView_bookVatOn (pairs : List (Nat × Nat)) (rs : List Staged) (cmds : List Nat) (s : State) :
    (bookVatOn pairs rs cmds s).modeView = s.modeView := (bookVatOn_only ..).modeView
@[simp] theorem modeView_bookVat (rs : List Staged) (cmds : List Nat) (s : State) : (bookVat rs cmds s).modeView = s.modeView :=
  (bookVat_only ..).modeView
@[simp] theorem modeView_rewriteSysPages (gone : SysPage → Bool) (s : State) : (rewriteSysPages gone s).modeView = s.modeView :=
  (rewriteSysPages_only ..).modeView
@[simp] theorem modeView_journalNow (s : State) : (journalNow s).modeView = s.modeView := (journalNow_only ..).modeView
@[simp] theorem modeView_rootDurable (r : Root) (s : State) : (rootDurable r s).modeView = s.modeView := (rootDurable_only ..).modeView
@[simp] theorem modeView_snapDurableNow (n : Snap) (s : State) : (snapDurableNow n s).modeView = s.modeView :=
  (snapDurableNow_only ..).modeView
@[simp] theorem modeView_cleanStop (s : State) : (cleanStop s).modeView = s.modeView := by simp [cleanStop]

/-! Machine/FabricOps.lean -/

@[simp] theorem modeView_sendFrame (vc dst ftype tag : Nat) (info : List Nat) (s : State) :
    (sendFrame vc dst ftype tag info s).modeView = s.modeView := (sendFrame_only ..).modeView
@[simp] theorem modeView_sendCtrl (dst msg : Nat) (fields : List Nat) (s : State) : (sendCtrl dst msg fields s).modeView = s.modeView :=
  (sendCtrl_only ..).modeView
@[simp] theorem modeView_mirror (kind : Nat) (fields : List Nat) (s : State) : (mirror kind fields s).modeView = s.modeView :=
  (mirror_only ..).modeView
@[simp] theorem modeView_ps4Links (s : State) : (ps4Links s).modeView = s.modeView := (ps4Links_only ..).modeView

/-! Machine/ResetOps.lean -/

@[simp] theorem modeView_closeFixity (dead : Nat → Bool) (s : State) : (closeFixity dead s).modeView = s.modeView :=
  (closeFixity_only ..).modeView
@[simp] theorem modeView_killCmds (dead : IoCmd → Bool) (s : State) : (killCmds dead s).modeView = s.modeView := (killCmds_only ..).modeView
@[simp] theorem modeView_loadLocked (lo hi : Nat) (s : State) : (loadLocked lo hi s).modeView = s.modeView := (loadLocked_only ..).modeView
@[simp] theorem modeView_updCtx (i : Nat) (f : Ctx → Ctx) (s : State) : (updCtx i f s).modeView = s.modeView := (updCtx_only ..).modeView
@[simp] theorem modeView_dgFill (m : Nat) : (dgFill m s).modeView = s.modeView := (dgFill_only ..).modeView
@[simp] theorem modeView_dgFail (ids : List Nat) (cause : Nat) (s : State) : (dgFail ids cause s).modeView = s.modeView :=
  (dgFail_only ..).modeView
@[simp] theorem modeView_abandonCopies (s : State) : (abandonCopies s).modeView = s.modeView := (abandonCopies_only ..).modeView
/-- R36, R335: a fenced member records STANDBY before the mode changes. -/
@[simp] theorem modesOk_enterQuarantine (row : Nat) {s : State} (hs : modesOk s.modeView = true) :
    modesOk (enterQuarantine row s).modeView = true := by
  have hfenced : modesOk (.standby, s.gen.mode, s.gen.lowFrom) = true := modesOk_recorded rfl hs
  simp [enterQuarantine, hs, hfenced]
@[simp] theorem modesOk_quarantineNow {s : State} (hs : modesOk s.modeView = true) : modesOk (quarantineNow s).modeView = true := by
  unfold quarantineNow; split <;> simp [hs]
@[simp] theorem modesOk_fatalFault {s : State} (hs : modesOk s.modeView = true) : modesOk (fatalFault s).modeView = true := by
  unfold fatalFault; split <;> simp [hs]
@[simp] theorem modeView_applySparing (s : State) : (applySparing s).modeView = s.modeView := (applySparing_only ..).modeView
@[simp] theorem modesOk_rowOne {s : State} (hs : modesOk s.modeView = true) : modesOk (rowOne s).modeView = true := by simp [rowOne, hs]
@[simp] theorem modeView_clearIslands (s : State) : (clearIslands s).modeView = s.modeView := (clearIslands_only ..).modeView
@[simp] theorem modesOk_y9Reset (clean : Bool) (row : Nat) {s : State} (hs : modesOk s.modeView = true) :
    modesOk (y9Reset clean row s).modeView = true := by
  simp [y9Reset, hs]
@[simp] theorem modeView_abandonFf (s : State) : (abandonFf s).modeView = s.modeView := (abandonFf_only ..).modeView
@[simp] theorem modesOk_powerOnReset {s : State} (hs : modesOk s.modeView = true) : modesOk (powerOnReset s).modeView = true := by
  have hprov : (powerOnReset s).prov.mode = s.prov.mode := congrArg Prov.mode ((abandonFf_only s).keeps .prov rfl)
  rw [modesOk, Bool.and_eq_true] at hs ⊢
  exact ⟨(congrArg modeRecorded hprov).trans hs.1, rfl⟩
@[simp] theorem modesOk_managementReset (flag : Field) {s : State} (h : modesOk s.modeView = true) :
    modesOk (managementReset flag s).modeView = true := by unfold managementReset; (repeat' split) <;> simp [h]

/-! Machine/LogOps.lean -/

@[simp] theorem modeView_askDue (s : State) : (askDue s).modeView = s.modeView := (askDue_only ..).modeView
@[simp] theorem modeView_withdrawSel (f : Staged → Bool) (s : State) : (withdrawSel f s).modeView = s.modeView :=
  (withdrawSel_only ..).modeView
@[simp] theorem modeView_readyForVat (f : Staged → Bool) (s : State) : (readyForVat f s).modeView = s.modeView :=
  (readyForVat_only ..).modeView
@[simp] theorem modeView_writeThroughEnter (s : State) : (writeThroughEnter s).modeView = s.modeView := (writeThroughEnter_only ..).modeView
@[simp] theorem modeView_writeThroughExit (s : State) : (writeThroughExit s).modeView = s.modeView := (writeThroughExit_only ..).modeView
@[simp] theorem modesOk_enterDrain {s : State} (hs : modesOk s.modeView = true) : modesOk (enterDrain s).modeView = true := by
  unfold enterDrain; split <;> simp [hs]
@[simp] theorem modesOk_powerFail {s : State} (hs : modesOk s.modeView = true) : modesOk (powerFail s).modeView = true := by
  simp only [powerFail]; split <;> simp [hs]

/-! Machine/NsCore.lean -/

@[simp] theorem modeView_saveNs (nsid : Nat) (s : State) : (saveNs nsid s).modeView = s.modeView := by unfold saveNs; split <;> simp
@[simp] theorem modeView_setNs (nsid : Nat) (f : Ns → Ns) (s : State) : (setNs nsid f s).modeView = s.modeView := by simp [setNs]
@[simp] theorem modeView_dropKey (nsid : Nat) (s : State) : (dropKey nsid s).modeView = s.modeView := (dropKey_only ..).modeView
@[simp] theorem modeView_putKey (nsid copies : Nat) (s : State) : (putKey nsid copies s).modeView = s.modeView := (putKey_only ..).modeView
@[simp] theorem modeView_clearGrains (nsid : Nat) (s : State) : (clearGrains nsid s).modeView = s.modeView := (clearGrains_only ..).modeView
@[simp] theorem modeView_deleteNs (nsid : Nat) (s : State) : (deleteNs nsid s).modeView = s.modeView := by simp [deleteNs]
@[simp] theorem modeView_unsealNsNow (nsid : Nat) (s : State) : (unsealNsNow nsid s).modeView = s.modeView := by simp [unsealNsNow]
@[simp] theorem modeView_updTw (f : Tw → Tw) (s : State) : (updTw f s).modeView = s.modeView := (updTw_only ..).modeView
@[simp] theorem modeView_updMig (f : Mig → Mig) (s : State) : (updMig f s).modeView = s.modeView := (updMig_only ..).modeView
@[simp] theorem modesOk_rowThirteen {s : State} (hs : modesOk s.modeView = true) : modesOk (rowThirteen s).modeView = true := by
  simp [rowThirteen, hs]
@[simp] theorem modeView_coverCsn (csn : Nat) (s : State) : (coverCsn csn s).modeView = s.modeView := (coverCsn_only ..).modeView
@[simp] theorem modeView_raiseCsn (csn : Nat) (s : State) : (raiseCsn csn s).modeView = s.modeView := (raiseCsn_only ..).modeView
@[simp] theorem modeView_liftSeals (s : State) : (liftSeals s).modeView = s.modeView := by simp [liftSeals]
@[simp] theorem modeView_deleteIngested (s : State) : (deleteIngested s).modeView = s.modeView := by simp [deleteIngested]
@[simp] theorem modeView_dropTransport (s : State) : (dropTransport s).modeView = s.modeView := (dropTransport_only ..).modeView
@[simp] theorem modeView_raiseToOrigins (s : State) : (raiseToOrigins s).modeView = s.modeView := (raiseToOrigins_only ..).modeView
@[simp] theorem modesOk_abortSession {s : State} (hs : modesOk s.modeView = true) : modesOk (abortSession s).modeView = true := by
  simp [abortSession, hs]
@[simp] theorem modesOk_spareExhausted (resource : Nat) {s : State} (hs : modesOk s.modeView = true) :
    modesOk (spareExhausted resource s).modeView = true := by
  simp only [spareExhausted]; split <;> simp [hs]

/-! Machine/SpOps.lean -/

@[simp] theorem modeView_stopGroup (g : Nat) (s : State) : (stopGroup g s).modeView = s.modeView := (stopGroup_only ..).modeView
@[simp] theorem modeView_loseStored (nsid grain cause : Nat) (s : State) : (loseStored nsid grain cause s).modeView = s.modeView :=
  (loseStored_only ..).modeView
@[simp] theorem modeView_threeMissing (grains : List (Nat × Nat)) (s : State) : (threeMissing grains s).modeView = s.modeView :=
  (threeMissing_only ..).modeView
@[simp] theorem modeView_assignSpares (s : State) : (assignSpares s).modeView = s.modeView := (assignSpares_only ..).modeView
@[simp] theorem modesOk_checkWaiting {s : State} (hs : modesOk s.modeView = true) : modesOk (checkWaiting s).modeView = true := by
  simp [checkWaiting, hs]
@[simp] theorem modeView_dieOut (d : Nat) (s : State) : (dieOut d s).modeView = s.modeView := (dieOut_only ..).modeView
@[simp] theorem modeView_chanOut (c : Nat) (s : State) : (chanOut c s).modeView = s.modeView := (chanOut_only ..).modeView
@[simp] theorem modesOk_declareDieFailed (d : Nat) {s : State} (hs : modesOk s.modeView = true) :
    modesOk (declareDieFailed d s).modeView = true := by
  simp [declareDieFailed, hs]
@[simp] theorem modesOk_declareChannelFailed (c : Nat) {s : State} (hs : modesOk s.modeView = true) :
    modesOk (declareChannelFailed c s).modeView = true := by
  simp [declareChannelFailed, hs]
@[simp] theorem modeView_replaceBlock (d b : Nat) (s : State) : (replaceBlock d b s).modeView = s.modeView :=
  (replaceBlock_only ..).modeView
@[simp] theorem modesOk_retireBlock (d b cause : Nat) {s : State} (hs : modesOk s.modeView = true) :
    modesOk (retireBlock d b cause s).modeView = true := by
  simp [retireBlock, hs]
@[simp] theorem modeView_wantRefresh (d b : Nat) (s : State) : (wantRefresh d b s).modeView = s.modeView := (wantRefresh_only ..).modeView
@[simp] theorem modeView_countRead (d b : Nat) (slc : Bool) (s : State) : (countRead d b slc s).modeView = s.modeView :=
  (countRead_only ..).modeView
@[simp] theorem modeView_resumeErases (s : State) : (resumeErases s).modeView = s.modeView := (resumeErases_only ..).modeView

/-! Machine/Startup.lean -/

@[simp] theorem modeView_bootFailed (code : Nat) (s : State) : (bootFailed code s).modeView = s.modeView := (bootFailed_only ..).modeView
@[simp] theorem modeView_redoSectors (s : State) : (redoSectors s).modeView = s.modeView := (redoSectors_only ..).modeView
@[simp] theorem modeView_bootImageVerifyEff (slot1 slot2 : SlotImage) (s : State) :
    (bootImageVerifyEff slot1 slot2 s).modeView = s.modeView := by
  simp [bootImageVerifyEff]
@[simp] theorem modeView_startDiscovery (s : State) : (startDiscovery s).modeView = s.modeView := (startDiscovery_only ..).modeView
@[simp] theorem modeView_hostIslandReleaseEff (s : State) : (hostIslandReleaseEff s).modeView = s.modeView := by simp [hostIslandReleaseEff]
@[simp] theorem modeView_trainIface (ds : List Nat) (failed : Option TrainStep) (s : State) :
    (trainIface ds failed s).modeView = s.modeView := (trainIface_only ..).modeView
@[simp] theorem modesOk_channelTrainingEff (channel : Fin 64) (failedTwice : Option TrainStep) (dies : List DieFound) {s : State}
    (hs : modesOk s.modeView = true) :
    modesOk (channelTrainingEff channel failedTwice dies s).modeView = true := by
  unfold channelTrainingEff
  (repeat' split) <;> simp [hs, modesOk_foldl (fun u d hu => modesOk_declareDieFailed d hu)]
@[simp] theorem modeView_wipeBlock (d b : Nat) (s : State) : (wipeBlock d b s).modeView = s.modeView := (wipeBlock_only ..).modeView
@[simp] theorem modesOk_halfErasedBlockRedoEff (die block : Nat) (blankPass1 blankPass2 : Bool) {s : State}
    (hs : modesOk s.modeView = true) :
    modesOk (halfErasedBlockRedoEff die block blankPass1 blankPass2 s).modeView = true := by
  simp [halfErasedBlockRedoEff, hs]
@[simp] theorem modeView_startNsKey (n : Ns) (s : State) : (startNsKey n s).modeView = s.modeView := (startNsKey_only ..).modeView
@[simp] theorem modesOk_startMigration {s : State} (hs : modesOk s.modeView = true) : modesOk (startMigration s).modeView = true := by
  simp [startMigration, hs]
@[simp] theorem modeView_raiseArb (s : State) : (raiseArb s).modeView = s.modeView := (raiseArb_only ..).modeView
/-- R35, R38: start-up ends in the recorded mode or, under an exhaustion seal, in SEALED. -/
theorem startMode_ne_lowpower {s : State} (hs : modesOk s.modeView = true) : startMode s ≠ .lowpower := by
  rw [modesOk, Bool.and_eq_true] at hs
  unfold startMode
  split
  · decide
  · exact fun hlow => by simp [State.modeView, hlow, modeRecorded] at hs
@[simp] theorem modesOk_startServe {s : State} (hs : modesOk s.modeView = true) : modesOk (startServe s).modeView = true := by
  have hlow := startMode_ne_lowpower hs
  unfold startServe
  extract_lets m _ ceiled journaled keyed groups erased _ turned old entered told raised
  have hturned : modesOk turned.modeView = true := by simp [turned, erased, keyed, journaled, ceiled, hs]
  have hentered : modesOk entered.modeView = true := by simp [entered, m, hlow, hturned]
  have htold : modesOk told.modeView = true := by simp [told, hentered]
  exact modesOk_startMigration (by simp [raised, htold])
@[simp] theorem modeView_startToken (s : State) : (startToken s).modeView = s.modeView := by simp [startToken]
@[simp] theorem modeView_startDrainLost (s : State) : (startDrainLost s).modeView = s.modeView := (startDrainLost_only ..).modeView
@[simp] theorem modesOk_startupCompleteEff (durationMs : Nat) {s : State} (hs : modesOk s.modeView = true) :
    modesOk (startupCompleteEff durationMs s).modeView = true := by
  simp [startupCompleteEff, hs]

/-! Machine/MmOps.lean -/

@[simp] theorem modeView_memberFailed (b : OpenBarrel) (g : Group) (w m : Nat) (s : State) :
    (memberFailed b g w m s).modeView = s.modeView := (memberFailed_only ..).modeView
@[simp] theorem modeView_afterProgram (num : Nat) (s : State) : (afterProgram num s).modeView = s.modeView :=
  (afterProgram_only ..).modeView
@[simp] theorem modeView_memberPassed (x : OpenBarrel) (r : Row) (m : Nat) (s : State) : (memberPassed x r m s).modeView = s.modeView :=
  (memberPassed_only ..).modeView
@[simp] theorem modeView_eraseNamespaces (gone : Nat → Bool) (s : State) : (eraseNamespaces gone s).modeView = s.modeView :=
  (eraseNamespaces_only ..).modeView

/-! Machine/Drain.lean -/

@[simp] theorem modeView_drainSteps (n : Nat) (s : State) : (drainSteps n s).modeView = s.modeView := (drainSteps_only ..).modeView
@[simp] theorem modeView_drainFlush (s : State) : (drainFlush s).modeView = s.modeView := (drainFlush_only ..).modeView
@[simp] theorem modesOk_powerOnNow {s : State} (hs : modesOk s.modeView = true) : modesOk (powerOnNow s).modeView = true := by
  simp [powerOnNow, hs]
@[simp] theorem modesOk_resetFromQuarantine {s : State} (hs : modesOk s.modeView = true) :
    modesOk (resetFromQuarantine s).modeView = true := by
  simp [resetFromQuarantine, hs]

/-! Machine/Power.lean -/

@[simp] theorem modesOk_porNAssertEff (lowUs : Nat) {s : State} (hs : modesOk s.modeView = true) :
    modesOk (porNAssertEff lowUs s).modeView = true := by
  simp [porNAssertEff, hs]
@[simp] theorem modesOk_porNDeassertEff (bifur : Bool) (pwrHighUs : Nat) {s : State} (hs : modesOk s.modeView = true) :
    modesOk (porNDeassertEff bifur pwrHighUs s).modeView = true := by
  simp [porNDeassertEff, hs]
@[simp] theorem modesOk_pwrFailNAssertEff (lowNs : Nat) {s : State} (hs : modesOk s.modeView = true) :
    modesOk (pwrFailNAssertEff lowNs s).modeView = true := by
  simp [pwrFailNAssertEff, hs]
@[simp] theorem modesOk_pwrFailNDeassertEff (highUs : Nat) {s : State} (hs : modesOk s.modeView = true) :
    modesOk (pwrFailNDeassertEff highUs s).modeView = true := by
  simp [pwrFailNDeassertEff, hs]
@[simp] theorem modesOk_drainFlushCompleteEff {s : State} (hs : modesOk s.modeView = true) :
    modesOk (drainFlushCompleteEff s).modeView = true := by
  unfold drainFlushCompleteEff; split <;> simp [hs]
@[simp] theorem modesOk_twinFenceInAssertEff {s : State} (hs : modesOk s.modeView = true) :
    modesOk (twinFenceInAssertEff s).modeView = true := by
  simp [twinFenceInAssertEff, hs]
@[simp] theorem modesOk_twinFenceInDeassertEff {s : State} (hs : modesOk s.modeView = true) :
    modesOk (twinFenceInDeassertEff s).modeView = true := by
  simp [twinFenceInDeassertEff, hs]
@[simp] theorem modeView_holdupVerificationEndEff (dvTenthMv : Nat) (s : State) :
    (holdupVerificationEndEff dvTenthMv s).modeView = s.modeView := by
  unfold holdupVerificationEndEff; split <;> simp
@[simp] theorem modesOk_dramChannelTrainingLossEff (channel : Fin 8) {s : State} (hs : modesOk s.modeView = true) :
    modesOk (dramChannelTrainingLossEff channel s).modeView = true := by
  simp [dramChannelTrainingLossEff, hs]

/-! Machine/Resets.lean -/

@[simp] theorem modesOk_requestY9Reset {s : State} (hs : modesOk s.modeView = true) : modesOk (requestY9Reset s).modeView = true := by
  unfold requestY9Reset; split <;> simp [hs]
@[simp] theorem modesOk_genResetY9Eff (who : Writer) (key : BitVec 16) {s : State} (hs : modesOk s.modeView = true) :
    modesOk (genResetY9Eff who key s).modeView = true := by
  simp [genResetY9Eff, hs]
@[simp] theorem modesOk_genResetManagementEff (who : Writer) (key : BitVec 16) {s : State} (hs : modesOk s.modeView = true) :
    modesOk (genResetManagementEff who key s).modeView = true := by
  simp [genResetManagementEff, hs]
@[simp] theorem modeView_ccEnSetEff (port : Port) (iosqes iocqes mps ams css asqs acqs asq acq : Nat) (s : State) :
    (ccEnSetEff port iosqes iocqes mps ams css asqs acqs asq acq s).modeView = s.modeView := by
  simp [ccEnSetEff]
@[simp] theorem modeView_shutdownNotificationEff (port : Port) (shn : BitVec 2) (s : State) :
    (shutdownNotificationEff port shn s).modeView = s.modeView := by
  simp [shutdownNotificationEff]

/-! Machine/Modes.lean -/

@[simp] theorem modeView_modereqRefused (who : Writer) (s : State) : (modereqRefused who s).modeView = s.modeView := by
  simp [modereqRefused]
theorem modesOk_twoStep {grant : State → State} (hg : KeepsModesOk grant) (who : Writer) (key : BitVec 16) (target : Mode)
    (allowed : Bool) {s : State} (h : modesOk s.modeView = true) :
    modesOk (twoStep who key target allowed grant s).modeView = true := by
  have hgrant := hg { s with gen := { s.gen with reqTarget := none } } (by simpa using h)
  simp [twoStep, h, hgrant]
@[simp] theorem modesOk_diagnosticEntryEff {s : State} (hs : modesOk s.modeView = true) :
    modesOk (diagnosticEntryEff s).modeView = true := by
  simp [diagnosticEntryEff, hs]
theorem modesOk_oneStep {grant : State → State} (hg : KeepsModesOk grant) (who : Writer) (key : BitVec 16) (allowed : Bool)
    {s : State} (h : modesOk s.modeView = true) : modesOk (oneStep who key allowed grant s).modeView = true := by
  have hgrant := hg { s with gen := { s.gen with reqTarget := none } } (by simpa using h)
  simp [oneStep, h, hgrant]
@[simp] theorem modeView_provision (s : State) : (provision s).modeView = s.modeView := by simp [provision]
@[simp] theorem modesOk_provisioningCommitEff (who : Writer) {s : State} (hs : modesOk s.modeView = true) :
    modesOk (provisioningCommitEff who s).modeView = true := by
  simp [provisioningCommitEff, hs]
@[simp] theorem modeView_genOwnerClaimEff (who : Writer) (s : State) : (genOwnerClaimEff who s).modeView = s.modeView := by
  simp [genOwnerClaimEff]
@[simp] theorem modeView_genOwnerReleaseEff (who : Writer) (s : State) : (genOwnerReleaseEff who s).modeView = s.modeView := by
  simp [genOwnerReleaseEff]
@[simp] theorem modeView_genOwnerSeizeEff (who : Writer) (s : State) : (genOwnerSeizeEff who s).modeView = s.modeView := by
  unfold genOwnerSeizeEff; split <;> simp
@[simp] theorem modeView_genOwnerSeizedClearEff (who : Writer) (s : State) : (genOwnerSeizedClearEff who s).modeView = s.modeView :=
  (genOwnerSeizedClearEff_only ..).modeView

/-! Machine/Setup.lean -/

@[simp] theorem modeView_writeFields (who : Writer) (off value : Nat) (s : State) : (writeFields who off value s).modeView = s.modeView :=
  (writeFields_only ..).modeView
@[simp] theorem modeView_writeMsix (p : Port) (i value : Nat) (s : State) : (writeMsix p i value s).modeView = s.modeView :=
  (writeMsix_only ..).modeView
@[simp] theorem modeView_writeReg (who : Writer) (off value : Nat) (s : State) : (writeReg who off value s).modeView = s.modeView :=
  (writeReg_only ..).modeView
@[simp] theorem modeView_commitHorizon (s : State) : (commitHorizon s).modeView = s.modeView := (commitHorizon_only ..).modeView

/-! Machine/HostPort.lean -/

@[simp] theorem modeView_winlogClrEff (who : Writer) (s : State) : (winlogClrEff who s).modeView = s.modeView :=
  (winlogClrEff_only ..).modeView
@[simp] theorem modeView_extend (id cause ns : Nat) (s : State) : (extend id cause ns s).modeView = s.modeView := (extend_only ..).modeView

/-! Machine/Queues.lean -/

/-- R117, row 9: LOWPOWER returns to the mode it was entered from. -/
@[simp] theorem modesOk_wake {s : State} (hs : modesOk s.modeView = true) : modesOk (wake s).modeView = true := by
  unfold wake
  split
  · next hlow =>
    have hfrom : s.gen.lowFrom ≠ .lowpower := fun h => by simp [modesOk, State.modeView, hlow, h] at hs
    simp [hs, hfrom]
  · simp [hs]
@[simp] theorem modesOk_wakeDoorbell {s : State} (hs : modesOk s.modeView = true) : modesOk (wakeDoorbell s).modeView = true := by
  unfold wakeDoorbell; split <;> simp [hs]
@[simp] theorem modeView_eventIdxPolled (p : Port) (s : State) : (eventIdxPolled p s).modeView = s.modeView :=
  (eventIdxPolled_only ..).modeView
@[simp] theorem modeView_resumePolling (p : Port) (s : State) : (resumePolling p s).modeView = s.modeView :=
  (resumePolling_only ..).modeView
@[simp] theorem modeView_badDoorbell (p : Port) (qid : Nat) (noQueue : Bool) (s : State) :
    (badDoorbell p qid noQueue s).modeView = s.modeView := (badDoorbell_only ..).modeView
@[simp] theorem modeView_doorbellIn (p : Port) (poisoned : Bool) (s : State) : (doorbellIn p poisoned s).modeView = s.modeView :=
  (doorbellIn_only ..).modeView
@[simp] theorem modesOk_sqTailDoorbellEff (port : Port) (qid value : Nat) (poisoned : Bool) {s : State} (hs : modesOk s.modeView = true) :
    modesOk (sqTailDoorbellEff port qid value poisoned s).modeView = true := by
  simp only [sqTailDoorbellEff]; (repeat' split) <;> simp [hs]
@[simp] theorem modeView_finishDeletes (p : Port) (s : State) : (finishDeletes p s).modeView = s.modeView :=
  (finishDeletes_only ..).modeView
@[simp] theorem modeView_cqHeadSeen (p : Port) (qid value : Nat) (s : State) : (cqHeadSeen p qid value s).modeView = s.modeView :=
  (cqHeadSeen_only ..).modeView
@[simp] theorem modesOk_cqHeadDoorbellEff (port : Port) (qid value : Nat) (poisoned : Bool) {s : State} (hs : modesOk s.modeView = true) :
    modesOk (cqHeadDoorbellEff port qid value poisoned s).modeView = true := by
  simp only [cqHeadDoorbellEff]; (repeat' split) <;> simp [hs]
@[simp] theorem modeView_sqeGone (p : Port) (sq : Nat) (s : State) : (sqeGone p sq s).modeView = s.modeView := (sqeGone_only ..).modeView
@[simp] theorem modeView_sqeFailed (p : Port) (s : State) : (sqeFailed p s).modeView = s.modeView := (sqeFailed_only ..).modeView
@[simp] theorem modeView_sqeArrived (p : Port) (sq : Nat) (s : State) : (sqeArrived p sq s).modeView = s.modeView :=
  (sqeArrived_only ..).modeView
@[simp] theorem modesOk_shadowTail (p : Port) (x : Nat × Nat) {s : State} (hs : modesOk s.modeView = true) :
    modesOk (shadowTail p x s).modeView = true := by
  unfold shadowTail; split <;> simp [hs]
@[simp] theorem modeView_shadowHead (p : Port) (x : Nat × Nat) (s : State) : (shadowHead p x s).modeView = s.modeView :=
  (shadowHead_only ..).modeView
@[simp] theorem modeView_pollReturned (p : Port) (s : State) : (pollReturned p s).modeView = s.modeView := (pollReturned_only ..).modeView
@[simp] theorem modesOk_pollCompletionEff (port : Port) (tails heads : List (Nat × Nat)) {s : State} (hs : modesOk s.modeView = true) :
    modesOk (pollCompletionEff port tails heads s).modeView = true := by
  have htails (t : State) (ht : modesOk t.modeView = true) : modesOk (tails.foldl (fun t x => shadowTail port x t) t).modeView = true :=
    modesOk_foldl (fun u x hu => modesOk_shadowTail port x hu) _ ht
  simp [pollCompletionEff, hs, htails]
@[simp] theorem modeView_stopPolling (p : Port) (s : State) : (stopPolling p s).modeView = s.modeView := (stopPolling_only ..).modeView
@[simp] theorem modesOk_pollStopEff (port : Port) (idleUs : Nat) (finalTails : List (Nat × Nat)) {s : State}
    (hs : modesOk s.modeView = true) :
    modesOk (pollStopEff port idleUs finalTails s).modeView = true := by
  simp [pollStopEff, hs]

/-! Machine/Operands.lean -/

@[simp] theorem modeView_adminDone (h : AdminHdr) (sct sc dw0 dw1 : Nat) (s : State) :
    (adminDone h sct sc dw0 dw1 s).modeView = s.modeView := (adminDone_only ..).modeView
@[simp] theorem modeView_dataOut (p : Port) (cid : BitVec 16) (pieces : List (Nat × Nat)) (bytes : List Nat) (s : State) :
    (dataOut p cid pieces bytes s).modeView = s.modeView := (dataOut_only ..).modeView
@[simp] theorem modeView_adminOk (h : AdminHdr) (s : State) : (adminOk h s).modeView = s.modeView := (adminOk_only ..).modeView
@[simp] theorem modeView_adminFail (h : AdminHdr) (sct sc : Nat) (s : State) : (adminFail h sct sc s).modeView = s.modeView :=
  (adminFail_only ..).modeView
theorem modesOk_adminCmd {body : State → State} (hb : KeepsModesOk body) (hd : AdminHdr) (modes : Mode → Bool) (len : Nat)
    {s : State} (h : modesOk s.modeView = true) : modesOk (adminCmd hd modes len body s).modeView = true := by
  have htaken : modesOk (wake (sqeArrived hd.port 0 s)).modeView = true := by simp [h]
  simp only [adminCmd]
  (repeat' split) <;> simp [h, hb _ h, htaken, hb _ htaken]

/-! Machine/Admin.lean -/

@[simp] theorem modeView_withData {body : State → State} (hb : ∀ t, (body t).modeView = t.modeView) (hd : AdminHdr) (len : Nat)
    (s : State) : (withData hd len body s).modeView = s.modeView := by unfold withData; split <;> simp [hb]
theorem modesOk_withData {body : State → State} (hb : KeepsModesOk body) (hd : AdminHdr) (len : Nat) {s : State}
    (hs : modesOk s.modeView = true) : modesOk (withData hd len body s).modeView = true := by
  unfold withData; split <;> simp [hs, hb _ hs]
@[simp] theorem modeView_deleteIoSqBody (h : AdminHdr) (qid : Nat) (s : State) : (deleteIoSqBody h qid s).modeView = s.modeView :=
  (deleteIoSqBody_only ..).modeView
@[simp] theorem modeView_createIoSqBody (h : AdminHdr) (qid size cqid qprio base : Nat) (contiguous : Bool) (s : State) :
    (createIoSqBody h qid size cqid qprio base contiguous s).modeView = s.modeView := (createIoSqBody_only ..).modeView
@[simp] theorem modeView_deleteIoCqBody (h : AdminHdr) (qid : Nat) (s : State) : (deleteIoCqBody h qid s).modeView = s.modeView :=
  (deleteIoCqBody_only ..).modeView
@[simp] theorem modeView_createIoCqBody (h : AdminHdr) (qid size vector : Nat) (ien : Bool) (base : Nat) (contiguous : Bool) (s : State) :
    (createIoCqBody h qid size vector ien base contiguous s).modeView = s.modeView := (createIoCqBody_only ..).modeView
@[simp] theorem modeView_getLogPageBody (h : AdminHdr) (lid offset numDwords : Nat) (rae : Bool) (s : State) :
    (getLogPageBody h lid offset numDwords rae s).modeView = s.modeView := (getLogPageBody_only ..).modeView
@[simp] theorem modeView_identifyBody (h : AdminHdr) (cns cntid : Nat) (s : State) : (identifyBody h cns cntid s).modeView = s.modeView :=
  (identifyBody_only ..).modeView
@[simp] theorem modeView_abortBody (h : AdminHdr) (s : State) : (abortBody h s).modeView = s.modeView := (abortBody_only ..).modeView
@[simp] theorem modeView_asynchronousEventRequestBody (h : AdminHdr) (s : State) :
    (asynchronousEventRequestBody h s).modeView = s.modeView := (asynchronousEventRequestBody_only ..).modeView
@[simp] theorem modeView_deviceSelfTestBody (h : AdminHdr) (code : Nat) (s : State) : (deviceSelfTestBody h code s).modeView = s.modeView :=
  (deviceSelfTestBody_only ..).modeView
@[simp] theorem modeView_directiveSendBody (h : AdminHdr) (dtype doper dspec : Nat) (enable : Bool) (tdtype : Nat) (s : State) :
    (directiveSendBody h dtype doper dspec enable tdtype s).modeView = s.modeView := (directiveSendBody_only ..).modeView
@[simp] theorem modeView_directiveReceiveBody (h : AdminHdr) (dtype doper _dspec : Nat) (nsr : Nat) (s : State) :
    (directiveReceiveBody h dtype doper _dspec nsr s).modeView = s.modeView := (directiveReceiveBody_only ..).modeView
@[simp] theorem modeView_doorbellBufferConfigBody (h : AdminHdr) (prp1 prp2 : Nat) (s : State) :
    (doorbellBufferConfigBody h prp1 prp2 s).modeView = s.modeView := (doorbellBufferConfigBody_only ..).modeView

/-! Machine/Features.lean -/

theorem modesOk_setFeature {body : State → State} (hb : KeepsModesOk body) (hd : AdminHdr) (sv : Bool) {s : State}
    (h : modesOk s.modeView = true) : modesOk (setFeature hd sv body s).modeView = true :=
  modesOk_adminCmd (fun t ht => by by_cases hsv : sv = true <;> simp [hsv, ht, hb t ht]) _ _ _ h
@[simp] theorem modeView_setPowerBody (h : AdminHdr) (ps wh : Nat) (s : State) : (setPowerBody h ps wh s).modeView = s.modeView := by
  unfold setPowerBody; split <;> simp
/-- Row 8: LOWPOWER is entered from SERVICE or SEALED, which it is to return to. -/
theorem modesOk_enterLowpower {s : State} (hs : modesOk s.modeView = true) (hmode : s.gen.mode = .service ∨ s.gen.mode = .sealed) :
    modesOk (setMode 8 .lowpower { s with gen := { s.gen with psEntry := none, lowFrom := s.gen.mode } }).modeView = true := by
  rw [modesOk, Bool.and_eq_true] at hs ⊢
  refine ⟨hs.1, ?_⟩
  rcases hmode with hm | hm <;> simp [State.modeView, setMode, hm]
@[simp] theorem modesOk_powerStateEntryEff (done : Bool) {s : State} (hs : modesOk s.modeView = true) :
    modesOk (powerStateEntryEff done s).modeView = true := by
  unfold powerStateEntryEff
  split
  · exact hs
  · split
    · exact hs
    split
    · simp [hs]
    · next hmode =>
      extract_lets durable snapped
      have hdurable : durable.modeView = s.modeView := by simp [durable]
      have hsnapped : snapped.modeView = s.modeView := by simp [snapped, hdurable]
      have hm : snapped.gen.mode = s.gen.mode := congrArg (·.2.1) hsnapped
      have hentered := modesOk_enterLowpower (s := snapped) (hsnapped ▸ hs) (hm ▸ (by tauto))
      simpa using hentered
@[simp] theorem modeView_setTempBody (h : AdminHdr) (tmpsel thsel kelvin : Nat) (s : State) :
    (setTempBody h tmpsel thsel kelvin s).modeView = s.modeView := (setTempBody_only ..).modeView
@[simp] theorem modeView_setNumQueuesBody (h : AdminHdr) (nsqr ncqr : Nat) (s : State) :
    (setNumQueuesBody h nsqr ncqr s).modeView = s.modeView := (setNumQueuesBody_only ..).modeView
@[simp] theorem modeView_setVectorBody (h : AdminHdr) (vector : Nat) (disable : Bool) (s : State) :
    (setVectorBody h vector disable s).modeView = s.modeView := (setVectorBody_only ..).modeView
@[simp] theorem modeView_setClassesBody (h : AdminHdr) (mask : BitVec 8) (reservedMask : Bool) (entries : List (List Nat)) (s : State) :
    (setClassesBody h mask reservedMask entries s).modeView = s.modeView := (setClassesBody_only ..).modeView
@[simp] theorem modeView_setBindingBody (h : AdminHdr) (sqid cls : Nat) (s : State) : (setBindingBody h sqid cls s).modeView = s.modeView :=
  (setBindingBody_only ..).modeView
@[simp] theorem modeView_getFeaturesBody (h : AdminHdr) (fid sel : Nat) (dw11 : Word) (s : State) :
    (getFeaturesBody h fid sel dw11 s).modeView = s.modeView := (getFeaturesBody_only ..).modeView

/-! Machine/NsOps.lean -/

@[simp] theorem modeView_drawKey (nsid : Nat) (s : State) : (drawKey nsid s).modeView = s.modeView := (drawKey_only ..).modeView
@[simp] theorem modeView_createNs (n : Ns) (s : State) : (createNs n s).modeView = s.modeView := by simp [createNs]
@[simp] theorem modeView_formatNs (nsid lbaf : Nat) (ext : Bool) (dps : Nat) (erase : Bool) (s : State) :
    (formatNs nsid lbaf ext dps erase s).modeView = s.modeView := by
  simp [formatNs]
@[simp] theorem modeView_sealNsNow (nsid : Nat) (perm : Bool) (s : State) : (sealNsNow nsid perm s).modeView = s.modeView := by
  simp [sealNsNow]
@[simp] theorem modeView_attachNs (nsid : Nat) (on : Bool) (ctrls : List Nat) (s : State) :
    (attachNs nsid on ctrls s).modeView = s.modeView := by
  simp [attachNs]
@[simp] theorem modeView_waitDone (w : NsWait) (sct sc dw0 dw1 : Nat) (s : State) : (waitDone w sct sc dw0 dw1 s).modeView = s.modeView :=
  (waitDone_only ..).modeView
@[simp] theorem modesOk_sealDeviceNow (perm : Bool) {s : State} (hs : modesOk s.modeView = true) :
    modesOk (sealDeviceNow perm s).modeView = true := by
  simp [sealDeviceNow, hs]
@[simp] theorem modesOk_runWait (w : NsWait) {s : State} (hs : modesOk s.modeView = true) : modesOk (runWait w s).modeView = true := by
  unfold runWait; (repeat' split) <;> simp [hs]
@[simp] theorem modeView_beginCrypto (w : NsWait) (s : State) : (beginCrypto w s).modeView = s.modeView := by
  unfold beginCrypto; split <;> simp
@[simp] theorem modesOk_settleNs {s : State} (hs : modesOk s.modeView = true) : modesOk (settleNs s).modeView = true :=
  modesOk_foldl (fun t w ht => by simp [ht]) _ hs
@[simp] theorem modesOk_acceptNs (h : AdminHdr) (nsid : Nat) (op : NsWaitOp) {s : State} (hs : modesOk s.modeView = true) :
    modesOk (acceptNs h nsid op s).modeView = true := by
  simp [acceptNs, hs]
@[simp] theorem modeView_settleSanitize (s : State) : (settleSanitize s).modeView = s.modeView := by simp [settleSanitize]

end Sys2Proof.Machine
end

section
/-! SUPPORT. What the effects of the commands do to the modes and their record. Rules R34, R35. -/
namespace Sys2Proof.Machine
-- Many short theorems elaborated at once would need a thread each.
set_option Elab.async false

/-! Machine/Firmware.lean -/

@[simp] theorem modeView_firmwareImageDownloadBody (h : AdminHdr) (offset length : Nat) (s : State) :
    (firmwareImageDownloadBody h offset length s).modeView = s.modeView := (firmwareImageDownloadBody_only ..).modeView
@[simp] theorem modeView_firmwareCommitBody (h : AdminHdr) (slot : Nat) (write select : Bool) (img : SlotImage) (s : State) :
    (firmwareCommitBody h slot write select img s).modeView = s.modeView := (firmwareCommitBody_only ..).modeView
@[simp] theorem modeView_fwDone (sct sc : Nat) (s : State) : (fwDone sct sc s).modeView = s.modeView := (fwDone_only ..).modeView
@[simp] theorem modesOk_activationDone {s : State} (hs : modesOk s.modeView = true) : modesOk (activationDone s).modeView = true := by
  simp only [activationDone]; split <;> simp [hs]
@[simp] theorem modeView_activationFailed (s : State) : (activationFailed s).modeView = s.modeView := (activationFailed_only ..).modeView
@[simp] theorem modesOk_startActivation (h : AdminHdr) (blk : Nat) {s : State} (hs : modesOk s.modeView = true) :
    modesOk (startActivation h blk s).modeView = true := by
  simp [startActivation, hs]
@[simp] theorem modesOk_firmwareActivateBody (h : AdminHdr) (slot : Nat) (img : SlotImage) {s : State} (hs : modesOk s.modeView = true) :
    modesOk (firmwareActivateBody h slot img s).modeView = true := by
  unfold firmwareActivateBody
  (repeat' split) <;> try simp [hs]
  all_goals simp [hs, (Only.of_eq2 ‹_› (commitSlot_only ..)).modeView]

/-! Machine/Commit.lean -/

@[simp] theorem modeView_commitAll (csn : Nat) (cs : List Change) (s : State) : (commitAll csn cs s).modeView = s.modeView :=
  (commitAll_only ..).modeView

/-! Machine/FretOps.lean -/

@[simp] theorem modeView_bookReads (cmd cls deadline f : Nat) (m : List PageRead) :
    (bookReads cmd cls deadline f m s).2.modeView = s.modeView := (bookReads_only ..).modeView
@[simp] theorem modeView_unbook (id : Nat) (s : State) : (unbook id s).modeView = s.modeView := (unbook_only ..).modeView
@[simp] theorem modeView_trimFrets (s : State) : (trimFrets s).modeView = s.modeView := (trimFrets_only ..).modeView

/-! Machine/IoOps.lean -/

@[simp] theorem modeView_updCmd (id : Nat) (f : IoCmd → IoCmd) (s : State) : (updCmd id f s).modeView = s.modeView :=
  (updCmd_only ..).modeView
@[simp] theorem modeView_piCount (sc : Nat) (s : State) : (piCount sc s).modeView = s.modeView := (piCount_only ..).modeView
@[simp] theorem modeView_ioFail (h : IoHdr) (sct sc dw0 : Nat) (s : State) : (ioFail h sct sc dw0 s).modeView = s.modeView :=
  (ioFail_only ..).modeView
@[simp] theorem modeView_ioRefuse (h : IoHdr) (dw0 : Nat) (s : State) : (ioRefuse h dw0 s).modeView = s.modeView :=
  (ioRefuse_only ..).modeView
@[simp] theorem modeView_deliverReports (p : Port) (on : Nat → Bool) (s : State) : (deliverReports p on s).modeView = s.modeView :=
  (deliverReports_only ..).modeView
@[simp] theorem modeView_addReaders (id : Nat) (vs : List (Nat × View)) (s : State) : (addReaders id vs s).modeView = s.modeView :=
  (addReaders_only ..).modeView
@[simp] theorem modeView_dropReaders (id : Nat) (s : State) : (dropReaders id s).modeView = s.modeView := (dropReaders_only ..).modeView
@[simp] theorem modeView_issueReads (p : Port) (s : State) : (issueReads p s).modeView = s.modeView := (issueReads_only ..).modeView
@[simp] theorem modeView_startData (id : Nat) (s : State) : (startData id s).modeView = s.modeView := (startData_only ..).modeView
@[simp] theorem modeView_switchNow (s : State) : (switchNow s).modeView = s.modeView := (switchNow_only ..).modeView
@[simp] theorem modesOk_afterCompletion (p : Port) {s : State} (hs : modesOk s.modeView = true) :
    modesOk (afterCompletion p s).modeView = true := by
  simp [afterCompletion, hs]
@[simp] theorem modeView_beyondExt (c : IoCmd) (s : State) : (beyondExt c s).2.modeView = s.modeView := (beyondExt_only ..).modeView
@[simp] theorem modesOk_finishCmd (id sct sc dw0 : Nat) {s : State} (hs : modesOk s.modeView = true) :
    modesOk (finishCmd id sct sc dw0 s).modeView = true := by
  unfold finishCmd; split <;> simp [hs]
@[simp] theorem modeView_holdStaged (f : Staged → Bool) (s : State) : (holdStaged f s).modeView = s.modeView :=
  (holdStaged_only ..).modeView
@[simp] theorem modeView_commitCmd (id : Nat) (s : State) : (commitCmd id s).modeView = s.modeView := (commitCmd_only ..).modeView
@[simp] theorem modeView_retryCommits (s : State) : (retryCommits s).modeView = s.modeView := (retryCommits_only ..).modeView

/-! Machine/Admit.lean -/

@[simp] theorem modeView_openFixity (c : IoCmd) (bytes : Nat) (s : State) : (openFixity c bytes s).modeView = s.modeView :=
  (openFixity_only ..).modeView
@[simp] theorem modeView_planIo (n : Ns) (c : IoCmd) (bytes : Nat) (pages : Bool) (s : State) :
    (planIo n c bytes pages s).2.modeView = s.modeView := (planIo_only ..).modeView
@[simp] theorem modeView_consumedHere (s : State) : (consumedHere s).modeView = s.modeView := (consumedHere_only ..).modeView
@[simp] theorem modeView_readsOut (n : Ns) (c : IoCmd) (m : List (Nat × Nat × HostLba)) : (readsOut n c m s).2.modeView = s.modeView :=
  (readsOut_only ..).modeView
@[simp] theorem modeView_dropClaims (id : Nat) (s : State) : (dropClaims id s).modeView = s.modeView := (dropClaims_only ..).modeView
@[simp] theorem modesOk_readsDone (id : Nat) {s : State} (hs : modesOk s.modeView = true) : modesOk (readsDone id s).modeView = true := by
  simp only [readsDone]; (repeat' split) <;> simp [hs]
@[simp] theorem modesOk_startCmd (id : Nat) {s : State} (hs : modesOk s.modeView = true) : modesOk (startCmd id s).modeView = true := by
  unfold startCmd; (repeat' split) <;> simp [hs]
@[simp] theorem modeView_touchPages (n : Ns) (c : IoCmd) (s : State) : (touchPages n c s).modeView = s.modeView :=
  (touchPages_only ..).modeView
@[simp] theorem modesOk_admitted (n : Ns) (c : IoCmd) (pages : Bool) (ext : List (Nat × Nat)) {s : State} (hs : modesOk s.modeView = true) :
    modesOk (admitted n c pages ext s).modeView = true := by
  simp [admitted, hs]
@[simp] theorem modesOk_admitBound (h : IoHdr) (n : Ns) (c : IoCmd) (bytes : Nat) (pages : Bool) {s : State}
    (hs : modesOk s.modeView = true) :
    modesOk (admitBound h n c bytes pages s).modeView = true := by
  simp only [admitBound]
  (repeat' split) <;> try simp [hs]
  all_goals simp [hs, (Only.of_eq2 ‹_› (grantBufs_only ..)).modeView]
@[simp] theorem modeView_waitLc7 (c : IoCmd) (s : State) : (waitLc7 c s).modeView = s.modeView := (waitLc7_only ..).modeView
theorem modeView_tryLc7 {n : Ns} {c : IoCmd} {b : Nat} {pages : Bool} {s : State} {x : IoCmd × State}
    (h : tryLc7 n c b pages s = some x) : x.2.modeView = s.modeView := by
  simp only [tryLc7] at h
  (repeat' split at h) <;> cases h
  simp [(Only.of_eq2 ‹_› (grantBufs_only ..)).modeView]
@[simp] theorem modesOk_admitLc7 (n : Ns) (c : IoCmd) (bytes : Nat) (pages : Bool) {s : State} (hs : modesOk s.modeView = true) :
    modesOk (admitLc7 n c bytes pages s).modeView = true := by
  unfold admitLc7
  split
  · next c' t ht => exact modesOk_admitted _ _ _ _ (by rw [show t.modeView = s.modeView from modeView_tryLc7 ht]; exact hs)
  · simp [hs]
@[simp] theorem modesOk_admission (h : IoHdr) (n : Ns) (c : IoCmd) (bytes : Nat) {s : State} (hs : modesOk s.modeView = true) :
    modesOk (admission h n c bytes s).modeView = true := by
  simp [admission, hs]
@[simp] theorem modesOk_ioRun (h : IoHdr) (mk : State → IoPlan) {s : State} (hs : modesOk s.modeView = true) :
    modesOk (ioRun h mk s).modeView = true := by
  simp only [ioRun]; (repeat' split) <;> simp [hs]

/-! Machine/Io.lean -/

@[simp] theorem modesOk_flushAll (h : IoHdr) {s : State} (hs : modesOk s.modeView = true) : modesOk (flushAll h s).modeView = true := by
  simp [flushAll, hs]
@[simp] theorem modeView_dsmHint (h : IoHdr) (ranges : List (Nat × Nat)) (s : State) : (dsmHint h ranges s).modeView = s.modeView :=
  (dsmHint_only ..).modeView
@[simp] theorem modeView_dropTag (p : Port) (tag : Nat) (s : State) : (dropTag p tag s).modeView = s.modeView := (dropTag_only ..).modeView
@[simp] theorem modeView_reissue (p : Port) (t : Tag) (s : State) : (reissue p t s).modeView = s.modeView := (reissue_only ..).modeView
@[simp] theorem modesOk_readFailed (p : Port) (t : Tag) {s : State} (hs : modesOk s.modeView = true) :
    modesOk (readFailed p t s).modeView = true := by
  unfold readFailed; split <;> simp [hs]
@[simp] theorem modesOk_readRetry (p : Port) (t : Tag) {s : State} (hs : modesOk s.modeView = true) :
    modesOk (readRetry p t s).modeView = true := by
  simp [readRetry, hs]
@[simp] theorem modeView_readArrived (p : Port) (t : Tag) (lbas : List HostLba) (slowNs : Nat) (s : State) :
    (readArrived p t lbas slowNs s).modeView = s.modeView := (readArrived_only ..).modeView
@[simp] theorem modesOk_hostReadCompletionEff (port : Port) (tag : Nat) (poisoned : Bool) (lbas : List HostLba) (slowNs : Nat)
    {s : State} (hs : modesOk s.modeView = true) :
    modesOk (hostReadCompletionEff port tag poisoned lbas slowNs s).modeView = true := by
  unfold hostReadCompletionEff; split <;> simp [hs]
@[simp] theorem modesOk_hostReadTimeoutEff (port : Port) (tag : Nat) {s : State} (hs : modesOk s.modeView = true) :
    modesOk (hostReadTimeoutEff port tag s).modeView = true := by
  unfold hostReadTimeoutEff; split <;> simp [hs]
@[simp] theorem modesOk_refuseLate (c : IoCmd) {s : State} (hs : modesOk s.modeView = true) : modesOk (refuseLate c s).modeView = true := by
  simp [refuseLate, hs]
@[simp] theorem modesOk_mapPageLoadedEff (cmd : Nat) {s : State} (hs : modesOk s.modeView = true) :
    modesOk (mapPageLoadedEff cmd s).modeView = true := by
  unfold mapPageLoadedEff; (repeat' split) <;> simp [hs]
@[simp] theorem modesOk_lc7AdmissionRetryEff (cmd : Nat) {s : State} (hs : modesOk s.modeView = true) :
    modesOk (lc7AdmissionRetryEff cmd s).modeView = true := by
  simp only [lc7AdmissionRetryEff]
  (repeat' split) <;> try simp [hs]
  all_goals simp [hs, modeView_tryLc7 ‹_›]
@[simp] theorem modesOk_dcForwardDoneEff (cmd : Nat) {s : State} (hs : modesOk s.modeView = true) :
    modesOk (dcForwardDoneEff cmd s).modeView = true := by
  unfold dcForwardDoneEff; (repeat' split) <;> simp [hs]
@[simp] theorem modesOk_completionPostEff (cmd : Nat) {s : State} (hs : modesOk s.modeView = true) :
    modesOk (completionPostEff cmd s).modeView = true := by
  unfold completionPostEff; split <;> simp [hs]
@[simp] theorem modeView_claimSoft (cmd lba d : Nat) (s : State) : (claimSoft cmd lba d s).modeView = s.modeView :=
  (claimSoft_only ..).modeView
@[simp] theorem modeView_claimAll (cmd lba : Nat) (e : MapEntry) (s : State) : (claimAll cmd lba e s).modeView = s.modeView :=
  (claimAll_only ..).modeView
@[simp] theorem modesOk_lbaArrived (cmd lba : Nat) {s : State} (hs : modesOk s.modeView = true) :
    modesOk (lbaArrived cmd lba s).modeView = true := by
  simp only [lbaArrived]; split <;> simp [hs]
@[simp] theorem modeView_viewLost (cmd grain : Nat) (n : Ns) (s : State) : (viewLost cmd grain n s).modeView = s.modeView :=
  (viewLost_only ..).modeView
@[simp] theorem modeView_decodeOk (e : MapEntry) (corrected : Nat) (s : State) : (decodeOk e corrected s).modeView = s.modeView :=
  (decodeOk_only ..).modeView
@[simp] theorem modeView_fiRead (d glen : Nat) (result : DecodeResult) (s : State) : (fiRead d glen result s).2.modeView = s.modeView :=
  (fiRead_only ..).modeView
@[simp] theorem modesOk_roundDone (cmd lba : Nat) (n : Ns) (e : MapEntry) (c : IoCmd) (result : DecodeResult) {s : State}
    (hs : modesOk s.modeView = true) :
    modesOk (roundDone cmd lba n e c result s).modeView = true := by
  have hall (t : State) (ht : modesOk t.modeView = true) :
      modesOk ((grainLbas n c lba).foldl (fun t x => lbaArrived cmd x t) t).modeView = true :=
    modesOk_foldl (fun u x hu => modesOk_lbaArrived cmd x hu) _ ht
  simp only [roundDone]; (repeat' split) <;> simp [hs, hall]
@[simp] theorem modesOk_readRoundDoneEff (cmd lba : Nat) (result : DecodeResult) {s : State} (hs : modesOk s.modeView = true) :
    modesOk (readRoundDoneEff cmd lba result s).modeView = true := by
  unfold readRoundDoneEff; (repeat' split) <;> simp [hs]

/-! Machine/Program.lean -/

@[simp] theorem modeView_segEnd (d : Nat) (s : State) : (segEnd d s).modeView = s.modeView := (segEnd_only ..).modeView
@[simp] theorem modeView_departs (s : State) : (departs s).modeView = s.modeView := (departs_only ..).modeView
@[simp] theorem modeView_vatPageDone (v : VatPage) (s : State) : (vatPageDone v s).modeView = s.modeView := (vatPageDone_only ..).modeView
@[simp] theorem modesOk_vatCopyDone (g : Group) (m d b : Nat) (v : VatPage) (pass : Bool) {s : State} (hs : modesOk s.modeView = true) :
    modesOk (vatCopyDone g m d b v pass s).modeView = true := by
  simp [vatCopyDone, hs]
@[simp] theorem modesOk_programVerifyDoneEff (die block page : Nat) (pass : Bool) {s : State} (hs : modesOk s.modeView = true) :
    modesOk (programVerifyDoneEff die block page pass s).modeView = true := by
  unfold programVerifyDoneEff; (repeat' split) <;> simp [hs]
@[simp] theorem modeView_dieReadsFail (cmd die : Nat) (s : State) : (dieReadsFail cmd die s).modeView = s.modeView :=
  (dieReadsFail_only ..).modeView
@[simp] theorem modesOk_readReadyTimeoutEff (die : Nat) (afterRetrain : Bool) (cmd : Option Nat) {s : State}
    (hs : modesOk s.modeView = true) :
    modesOk (readReadyTimeoutEff die afterRetrain cmd s).modeView = true := by
  unfold readReadyTimeoutEff; split <;> simp [hs]
@[simp] theorem modesOk_spDieoutWriteEff (who : Writer) (die : Nat) (key : BitVec 16) {s : State} (hs : modesOk s.modeView = true) :
    modesOk (spDieoutWriteEff who die key s).modeView = true := by
  simp [spDieoutWriteEff, hs]
@[simp] theorem modeView_slewStep (s : State) : (slewStep s).modeView = s.modeView := (slewStep_only ..).modeView
@[simp] theorem modeView_resumeDies (s : State) : (resumeDies s).modeView = s.modeView := (resumeDies_only ..).modeView
@[simp] theorem modeView_ctxTick (s : State) : (ctxTick s).modeView = s.modeView := (ctxTick_only ..).modeView
@[simp] theorem modeView_fiTlps (s : State) : (fiTlps s).modeView = s.modeView := (fiTlps_only ..).modeView
@[simp] theorem modesOk_fretTickEff {s : State} (hs : modesOk s.modeView = true) : modesOk (fretTickEff s).modeView = true := by
  simp [fretTickEff, hs]

/-! Machine/Racking.lean -/

@[simp] theorem modesOk_eraseDoneEff (die block : Nat) (pass : Bool) {s : State} (hs : modesOk s.modeView = true) :
    modesOk (eraseDoneEff die block pass s).modeView = true := by
  simp [eraseDoneEff, hs]

/-! Machine/Parity.lean -/

@[simp] theorem modeView_bottleMember (g : Group) (d : Nat) (s : State) : (bottleMember g d s).modeView = s.modeView :=
  (bottleMember_only ..).modeView
@[simp] theorem modesOk_dissolved (g : Group) {s : State} (hs : modesOk s.modeView = true) : modesOk (dissolved g s).modeView = true := by
  simp [dissolved, hs]
@[simp] theorem modesOk_groupDissolutionEff (group : Nat) {s : State} (hs : modesOk s.modeView = true) :
    modesOk (groupDissolutionEff group s).modeView = true := by
  unfold groupDissolutionEff; split <;> simp [hs]
@[simp] theorem modeView_spSubselWriteEff (who : Writer) (index : Nat) (s : State) : (spSubselWriteEff who index s).modeView = s.modeView :=
  (spSubselWriteEff_only ..).modeView

/-! Machine/Channels.lean -/

@[simp] theorem modeView_chanReadsFail (c : Nat) (s : State) : (chanReadsFail c s).modeView = s.modeView := (chanReadsFail_only ..).modeView
@[simp] theorem modeView_resumeRecs (k phy : Nat) (s : State) : (resumeRecs k phy s).modeView = s.modeView := (resumeRecs_only ..).modeView
@[simp] theorem modeView_takeOver (k phy q spare took : Nat) (s : State) : (takeOver k phy q spare took s).modeView = s.modeView :=
  (takeOver_only ..).modeView
@[simp] theorem modesOk_noTakeOver (k phy : Nat) {s : State} (hs : modesOk s.modeView = true) :
    modesOk (noTakeOver k phy s).modeView = true := by
  simp [noTakeOver, hs]
@[simp] theorem modesOk_stallActivation (k : Nat) {s : State} (hs : modesOk s.modeView = true) :
    modesOk (stallActivation k s).modeView = true := by
  simp [stallActivation, hs]
@[simp] theorem modesOk_seqFaulted (k q : Nat) (flag : Field) (took : Nat) {s : State} (h : modesOk s.modeView = true) :
    modesOk (seqFaulted k q flag took s).modeView = true := by simp only [seqFaulted]; (repeat' split) <;> simp [h]
@[simp] theorem modesOk_retrainStepEff (channel : Fin 64) (failedTwice : Bool) (idChanged : List Nat) {s : State}
    (hs : modesOk s.modeView = true) :
    modesOk (retrainStepEff channel failedTwice idChanged s).modeView = true := by
  unfold retrainStepEff
  (repeat' split) <;> simp [hs, modesOk_foldl (fun u d hu => modesOk_declareDieFailed d hu)]
@[simp] theorem modeView_loadBank (k : Nat) (b : Bool) (p : PatchSet) (s : State) : (loadBank k b p s).modeView = s.modeView :=
  (loadBank_only ..).modeView
@[simp] theorem modeView_startupSetFailed (s : State) : (startupSetFailed s).modeView = s.modeView := by simp [startupSetFailed]
@[simp] theorem modesOk_patchSetLoadEff (cluster : Fin 8) (p : PatchSet) (atStartup : Bool) {s : State} (hs : modesOk s.modeView = true) :
    modesOk (patchSetLoadEff cluster p atStartup s).modeView = true := by
  unfold patchSetLoadEff; (repeat' split) <;> simp [hs]
@[simp] theorem modeView_handOff (k n : Nat) (s : State) : (handOff k n s).modeView = s.modeView := (handOff_only ..).modeView
@[simp] theorem modesOk_patchHandoffEff (cluster phy : Fin 8) {s : State} (hs : modesOk s.modeView = true) :
    modesOk (patchHandoffEff cluster phy s).modeView = true := by
  simp [patchHandoffEff, hs]

/-! Machine/Buffers.lean -/

@[simp] theorem modeView_withdrawBufs (is : List Nat) (s : State) : (withdrawBufs is s).modeView = s.modeView :=
  (withdrawBufs_only ..).modeView
@[simp] theorem modeView_remapPage (page : Nat) (s : State) : (remapPage page s).modeView = s.modeView := (remapPage_only ..).modeView
@[simp] theorem modesOk_repairRow (row : Nat) (hardware : Bool) (bufs : List Nat) {s : State} (hs : modesOk s.modeView = true) :
    modesOk (repairRow row hardware bufs s).modeView = true := by
  simp [repairRow, hs]
@[simp] theorem modesOk_countUnit (addr : Nat) {s : State} (hs : modesOk s.modeView = true) :
    modesOk (countUnit addr s).modeView = true := by
  simp [countUnit, hs]
@[simp] theorem modesOk_restoreUncommitted (id : Nat) (ok : Bool) {s : State} (hs : modesOk s.modeView = true) :
    modesOk (restoreUncommitted id ok s).2.modeView = true := by
  unfold restoreUncommitted; (repeat' split) <;> simp [hs]
@[simp] theorem modeView_restoreCommitted (i : Nat) (inForm : Bool) (s : State) : (restoreCommitted i inForm s).2.modeView = s.modeView :=
  (restoreCommitted_only ..).modeView
@[simp] theorem modeView_restoreRead (id : Nat) (s : State) : (restoreRead id s).modeView = s.modeView := (restoreRead_only ..).modeView
@[simp] theorem modeView_holdLine (nsid grain : Nat) (s : State) : (holdLine nsid grain s).modeView = s.modeView :=
  (holdLine_only ..).modeView
@[simp] theorem modeView_restoreBlock (d b : Nat) (s : State) : (restoreBlock d b s).modeView = s.modeView :=
  (restoreBlock_only ..).modeView
@[simp] theorem modeView_quarantinePool (addr : Nat) (s : State) : (quarantinePool addr s).modeView = s.modeView :=
  (quarantinePool_only ..).modeView
@[simp] theorem modesOk_restoreLine (addr : Nat) (k : LineKind) {s : State} (hs : modesOk s.modeView = true) :
    modesOk (restoreLine addr k s).2.modeView = true := by
  unfold restoreLine; (repeat' split) <;> simp [hs]
@[simp] theorem modeView_chkRecorded (addr : Nat) (s : State) : (chkRecorded addr s).modeView = s.modeView := (chkRecorded_only ..).modeView
@[simp] theorem modesOk_lineCheckFailureEff (address : Nat) (kind : LineKind) {s : State} (hs : modesOk s.modeView = true) :
    modesOk (lineCheckFailureEff address kind s).modeView = true := by
  simp only [lineCheckFailureEff]; split <;> simp [hs]

/-! Machine/Namespaces.lean -/

@[simp] theorem modesOk_nsCreateBody (h : AdminHdr) (d : NsDesc) {s : State} (hs : modesOk s.modeView = true) :
    modesOk (nsCreateBody h d s).modeView = true := by
  unfold nsCreateBody
  (repeat' split) <;> simp [hs, modesOk_withData (fun t ht => modesOk_acceptNs h 0 _ ht)]
@[simp] theorem modesOk_nsDeleteBody (h : AdminHdr) {s : State} (hs : modesOk s.modeView = true) :
    modesOk (nsDeleteBody h s).modeView = true := by
  unfold nsDeleteBody; (repeat' split) <;> simp [hs]
@[simp] theorem modesOk_nsAttachBody (h : AdminHdr) (attach : Bool) (ctrls : List Nat) {s : State} (hs : modesOk s.modeView = true) :
    modesOk (nsAttachBody h attach ctrls s).modeView = true := by
  have hdetach : KeepsModesOk (fun t =>
      acceptNs h h.nsid (.detach ctrls) (updNs h.nsid (fun n => { n with leaving := ctrls.foldl addOnce n.leaving }) t)) :=
    fun t ht => by simp [ht]
  unfold nsAttachBody
  (repeat' split) <;> simp [hs, modesOk_withData hdetach]
@[simp] theorem modesOk_formatBody (h : AdminHdr) (lbaf : Nat) (mset : Bool) (pi pil ses : Nat) {s : State}
    (hs : modesOk s.modeView = true) :
    modesOk (formatBody h lbaf mset pi pil ses s).modeView = true := by
  unfold formatBody; (repeat' split) <;> simp [hs]
@[simp] theorem modeView_sanitizeBody (h : AdminHdr) (noDealloc : Bool) (kind : Nat) (s : State) :
    (sanitizeBody h noDealloc kind s).modeView = s.modeView := by
  simp [sanitizeBody]
@[simp] theorem modesOk_sealNsBody (h : AdminHdr) (perm : Bool) {s : State} (hs : modesOk s.modeView = true) :
    modesOk (sealNsBody h perm s).modeView = true := by
  unfold sealNsBody; split <;> simp [hs]
@[simp] theorem modeView_unsealNsBody (h : AdminHdr) (s : State) : (unsealNsBody h s).modeView = s.modeView := by
  unfold unsealNsBody; (repeat' split) <;> simp

/-! Machine/Links.lean -/

@[simp] theorem modeView_updRxStream (vc src : Nat) (f : RxStream → RxStream) (s : State) :
    (updRxStream vc src f s).modeView = s.modeView := (updRxStream_only ..).modeView
@[simp] theorem modeView_sendAck (vc src : Nat) (s : State) : (sendAck vc src s).modeView = s.modeView := (sendAck_only ..).modeView
@[simp] theorem modeView_sendNak (vc src xseq cause : Nat) (s : State) : (sendNak vc src xseq cause s).modeView = s.modeView :=
  (sendNak_only ..).modeView
@[simp] theorem modeView_delivered (vc src : Nat) (s : State) : (delivered vc src s).modeView = s.modeView := (delivered_only ..).modeView
@[simp] theorem modeView_frameDiscarded (vc src xseq : Nat) (len : Bool) (s : State) :
    (frameDiscarded vc src xseq len s).modeView = s.modeView := (frameDiscarded_only ..).modeView

/-! Machine/Fabric.lean -/

@[simp] theorem modeView_gfNodeReassignEff (who : Writer) (s : State) : (gfNodeReassignEff who s).modeView = s.modeView :=
  (gfNodeReassignEff_only ..).modeView
@[simp] theorem modeView_rdreqRun (h : FrameHdr) (offset len : Nat) (s : State) : (rdreqRun h offset len s).modeView = s.modeView :=
  (rdreqRun_only ..).modeView
@[simp] theorem modeView_rdrespRun (h : FrameHdr) (data : List Byte) (s : State) : (rdrespRun h data s).modeView = s.modeView :=
  (rdrespRun_only ..).modeView
@[simp] theorem modeView_writeRun (h : FrameHdr) (offset : Nat) (data : List Byte) (s : State) :
    (writeRun h offset data s).modeView = s.modeView := (writeRun_only ..).modeView
@[simp] theorem modeView_createMirrored (d : NsDesc) (s : State) : (createMirrored d s).modeView = s.modeView := by simp [createMirrored]
@[simp] theorem modeView_mgmtRun (h : FrameHdr) (spdm : Bool) (descs : List NsDesc) (s : State) :
    (mgmtRun h spdm descs s).modeView = s.modeView := by
  simp [mgmtRun]
@[simp] theorem modeView_frameRun (c : Instr) (s : State) : (frameRun c s).modeView = s.modeView := by unfold frameRun; split <;> simp
@[simp] theorem modeView_deliverHeld (vc src n : Nat) (s : State) : (deliverHeld vc src n s).modeView = s.modeView := by
  induction n generalizing s with
  | zero => rfl
  | succ n ih =>
    simp only [deliverHeld]
    split
    · rfl
    · simp [ih]
@[simp] theorem modeView_holdEarly (h : FrameHdr) (c : Instr) (s : State) : (holdEarly h c s).modeView = s.modeView :=
  (holdEarly_only ..).modeView
@[simp] theorem modeView_receive (h : FrameHdr) (lenGood : Bool) (c : Instr) (s : State) :
    (receive h lenGood c s).modeView = s.modeView := by
  simp [receive]
@[simp] theorem modeView_resyncEff (vc src nextXseq : Nat) (s : State) : (resyncEff vc src nextXseq s).modeView = s.modeView := by
  simp [resyncEff]

/-! Machine/TwinOps.lean -/

@[simp] theorem modeView_recordPair (p : Option (Nat × Bool)) (s : State) : (recordPair p s).modeView = s.modeView := by simp [recordPair]
@[simp] theorem modeView_waitCmdDone (sct sc dw0 : Nat) (s : State) : (waitCmdDone sct sc dw0 s).modeView = s.modeView :=
  (waitCmdDone_only ..).modeView
@[simp] theorem modeView_ownAll (on : Bool) (s : State) : (ownAll on s).modeView = s.modeView := (ownAll_only ..).modeView
@[simp] theorem modesOk_rowTen {s : State} (hs : modesOk s.modeView = true) : modesOk (rowTen s).modeView = true := by simp [rowTen, hs]
@[simp] theorem modesOk_rowEleven {s : State} (hs : modesOk s.modeView = true) : modesOk (rowEleven s).modeView = true := by
  simp [rowEleven, hs]
@[simp] theorem modesOk_serveNow {s : State} (hs : modesOk s.modeView = true) : modesOk (serveNow s).modeView = true := by
  simp [serveNow, hs]
@[simp] theorem modeView_dropGranules (s : State) : (dropGranules s).modeView = s.modeView := (dropGranules_only ..).modeView
@[simp] theorem modeView_fence (on : Bool) (s : State) : (fence on s).modeView = s.modeView := (fence_only ..).modeView
@[simp] theorem modesOk_takeover (cause : Nat) {s : State} (hs : modesOk s.modeView = true) :
    modesOk (takeover cause s).modeView = true := by
  simp [takeover, hs]
@[simp] theorem modesOk_standbyAlone (cause : Nat) {s : State} (hs : modesOk s.modeView = true) :
    modesOk (standbyAlone cause s).modeView = true := by
  unfold standbyAlone; split <;> simp [hs]
@[simp] theorem modeView_sourceDone (s : State) : (sourceDone s).modeView = s.modeView := by simp [sourceDone]

/-! Machine/TwinCtl.lean -/

@[simp] theorem modeView_seqError (h : AdminHdr) (s : State) : (seqError h s).modeView = s.modeView := (seqError_only ..).modeView
@[simp] theorem modeView_twinError (h : AdminHdr) (s : State) : (twinError h s).modeView = s.modeView := (twinError_only ..).modeView
@[simp] theorem modeView_pairBody (h : AdminHdr) (peer idDigest : Nat) (ok : Bool) (s : State) :
    (pairBody h peer idDigest ok s).modeView = s.modeView := (pairBody_only ..).modeView
@[simp] theorem modeView_switchBody (h : AdminHdr) (s : State) : (switchBody h s).modeView = s.modeView := (switchBody_only ..).modeView
@[simp] theorem modeView_mirrorTables (s : State) : (mirrorTables s).modeView = s.modeView := (mirrorTables_only ..).modeView
@[simp] theorem modeView_rejoinBody (h : AdminHdr) (peer idDigest returnerCsn : Nat) (s : State) :
    (rejoinBody h peer idDigest returnerCsn s).modeView = s.modeView := (rejoinBody_only ..).modeView
@[simp] theorem modeView_unpaired (s : State) : (unpaired s).modeView = s.modeView := by simp [unpaired]
@[simp] theorem modeView_unpairBody (h : AdminHdr) (s : State) : (unpairBody h s).modeView = s.modeView := by simp [unpairBody]
@[simp] theorem modesOk_releaseBody (h : AdminHdr) {s : State} (hs : modesOk s.modeView = true) :
    modesOk (releaseBody h s).modeView = true := by
  simp [releaseBody, hs]
@[simp] theorem modesOk_armBody (h : AdminHdr) (peer idDigest : Nat) {s : State} (hs : modesOk s.modeView = true) :
    modesOk (armBody h peer idDigest s).modeView = true := by
  simp [armBody, hs]
@[simp] theorem modeView_startBody (h : AdminHdr) (auto : Bool) (peer idDigest : Nat) (nsids : List Nat) (s : State) :
    (startBody h auto peer idDigest nsids s).modeView = s.modeView := (startBody_only ..).modeView
@[simp] theorem modeView_sealSession (s : State) : (sealSession s).modeView = s.modeView := (sealSession_only ..).modeView
@[simp] theorem modeView_sealBody (h : AdminHdr) (s : State) : (sealBody h s).modeView = s.modeView := (sealBody_only ..).modeView
@[simp] theorem modesOk_migAbortBody (h : AdminHdr) {s : State} (hs : modesOk s.modeView = true) :
    modesOk (migAbortBody h s).modeView = true := by
  simp [migAbortBody, hs]
@[simp] theorem modeView_notCutOver (s : State) : (notCutOver s).modeView = s.modeView := by simp [notCutOver]
@[simp] theorem modeView_resolveBody (h : AdminHdr) (cutOver : Bool) (s : State) : (resolveBody h cutOver s).modeView = s.modeView := by
  simp [resolveBody]

/-! Machine/Twin.lean -/

@[simp] theorem modeView_recordIn (s : State) : (recordIn s).modeView = s.modeView := (recordIn_only ..).modeView
@[simp] theorem modeView_recordChanges (m : List GrainRec) : (recordChanges m s).2.modeView = s.modeView := (recordChanges_only ..).modeView
@[simp] theorem modesOk_finishSwitch {s : State} (hs : modesOk s.modeView = true) : modesOk (finishSwitch s).modeView = true := by
  unfold finishSwitch; split <;> simp [hs]
@[simp] theorem modesOk_applyRecord (csn : Nat) (deltas : List GrainRec) {s : State} (hs : modesOk s.modeView = true) :
    modesOk (applyRecord csn deltas s).modeView = true := by
  simp [applyRecord, hs]
@[simp] theorem modesOk_mirrorCommitRecordEff (csn : Nat) (deltas : List GrainRec) {s : State} (hs : modesOk s.modeView = true) :
    modesOk (mirrorCommitRecordEff csn deltas s).modeView = true := by
  simp [mirrorCommitRecordEff, hs]
@[simp] theorem modeView_mirroredOp (op : NsOp) (s : State) : (mirroredOp op s).modeView = s.modeView := by
  unfold mirroredOp; split <;> simp
@[simp] theorem modesOk_hbPathLostEff (pathB : Bool) (sinceUs : Nat) {s : State} (hs : modesOk s.modeView = true) :
    modesOk (hbPathLostEff pathB sinceUs s).modeView = true := by
  simp [hbPathLostEff, hs]
@[simp] theorem modesOk_drainNoticeEff (csn : Nat) {s : State} (hs : modesOk s.modeView = true) :
    modesOk (drainNoticeEff csn s).modeView = true := by
  simp [drainNoticeEff, hs]
@[simp] theorem modeView_becomeStandby (src : Nat) (s : State) : (becomeStandby src s).modeView = s.modeView := by simp [becomeStandby]
@[simp] theorem modesOk_pairreqEff (src action : Nat) (idOk : Bool) {s : State} (hs : modesOk s.modeView = true) :
    modesOk (pairreqEff src action idOk s).modeView = true := by
  unfold pairreqEff; (repeat' split) <;> simp [hs]
@[simp] theorem modeView_becomeActive (s : State) : (becomeActive s).modeView = s.modeView := by simp [becomeActive]
@[simp] theorem modeView_pairackEff (accepted identityOk : Bool) (s : State) :
    (pairackEff accepted identityOk s).modeView = s.modeView := by
  simp [pairackEff]
@[simp] theorem modesOk_switchEff (csn : Nat) {s : State} (hs : modesOk s.modeView = true) : modesOk (switchEff csn s).modeView = true := by
  simp [switchEff, hs]
@[simp] theorem modesOk_switchackEff (csn : Nat) {s : State} (hs : modesOk s.modeView = true) :
    modesOk (switchackEff csn s).modeView = true := by
  simp [switchackEff, hs]

/-! Machine/Migration.lean -/

@[simp] theorem modeView_createIngested (d : NsDesc) (s : State) : (createIngested d s).modeView = s.modeView := by simp [createIngested]
@[simp] theorem modeView_migstartEff (src : Nat) (idOk : Bool) (descs : List NsDesc) (s : State) :
    (migstartEff src idOk descs s).modeView = s.modeView := by
  simp [migstartEff]
@[simp] theorem modeView_seedAnswered (nsid seg result : Nat) (s : State) : (seedAnswered nsid seg result s).modeView = s.modeView :=
  (seedAnswered_only ..).modeView
@[simp] theorem modesOk_segresEff (nsid seg result : Nat) {s : State} (hs : modesOk s.modeView = true) :
    modesOk (segresEff nsid seg result s).modeView = true := by
  simp [segresEff, hs]
@[simp] theorem modeView_nextPass (phase : Nat) (s : State) : (nextPass phase s).modeView = s.modeView := (nextPass_only ..).modeView
@[simp] theorem modeView_cutoverMsg (peer n : Nat) (s : State) : (cutoverMsg peer n s).modeView = s.modeView :=
  (cutoverMsg_only ..).modeView
@[simp] theorem modeView_sendCutover (s : State) : (sendCutover s).modeView = s.modeView := by simp [sendCutover]
@[simp] theorem modeView_dirtyPassEndEff (s : State) : (dirtyPassEndEff s).modeView = s.modeView := by simp [dirtyPassEndEff]
@[simp] theorem modesOk_sinkDone {s : State} (hs : modesOk s.modeView = true) : modesOk (sinkDone s).modeView = true := by
  simp [sinkDone, hs]
@[simp] theorem modesOk_cutoverEff (nsid csn nguid eui : Nat) (last : Bool) {s : State} (hs : modesOk s.modeView = true) :
    modesOk (cutoverEff nsid csn nguid eui last s).modeView = true := by
  simp [cutoverEff, hs]
@[simp] theorem modeView_cutackEff (count : Nat) (s : State) : (cutackEff count s).modeView = s.modeView := by simp [cutackEff]
@[simp] theorem modesOk_migrationRouteTimeoutEff (downMs : Nat) {s : State} (hs : modesOk s.modeView = true) :
    modesOk (migrationRouteTimeoutEff downMs s).modeView = true := by
  simp [migrationRouteTimeoutEff, hs]

/-! Machine/Spdm.lean -/

@[simp] theorem modeView_spdmServe (s : State) : (spdmServe s).modeView = s.modeView := (spdmServe_only ..).modeView

/-! Machine/Digest.lean -/

@[simp] theorem modeView_auditStartEff (who : Writer) (s : State) : (auditStartEff who s).modeView = s.modeView :=
  (auditStartEff_only ..).modeView
@[simp] theorem modeView_dgSecAdvanceEff (who : Writer) (s : State) : (dgSecAdvanceEff who s).modeView = s.modeView :=
  (dgSecAdvanceEff_only ..).modeView
@[simp] theorem modeView_ecMaxcorrClrEff (who : Writer) (s : State) : (ecMaxcorrClrEff who s).modeView = s.modeView :=
  (ecMaxcorrClrEff_only ..).modeView

/-! Machine/Mgmt.lean -/

@[simp] theorem modeView_applyLevels (x : SensorSample) (s : State) : (applyLevels x s).modeView = s.modeView :=
  (applyLevels_only ..).modeView
@[simp] theorem modeView_applyHostTemp (x : SensorSample) (s : State) : (applyHostTemp x s).modeView = s.modeView :=
  (applyHostTemp_only ..).modeView
@[simp] theorem modeView_applySupplyWarn (x : SensorSample) (s : State) : (applySupplyWarn x s).modeView = s.modeView :=
  (applySupplyWarn_only ..).modeView
@[simp] theorem modeView_tripped (ms : List Nat) (s : State) : (tripped ms s).modeView = s.modeView := (tripped_only ..).modeView
@[simp] theorem modesOk_applyHardware (x : SensorSample) {s : State} (hs : modesOk s.modeView = true) :
    modesOk (applyHardware x s).modeView = true := by
  simp [applyHardware, hs]
@[simp] theorem modesOk_sensorSampleEff (x : SensorSample) {s : State} (hs : modesOk s.modeView = true) :
    modesOk (sensorSampleEff x s).modeView = true := by
  simp [sensorSampleEff, hs]
@[simp] theorem modeView_mgLogackWriteEff (who : Writer) (seq : Word) (s : State) : (mgLogackWriteEff who seq s).modeView = s.modeView :=
  (mgLogackWriteEff_only ..).modeView

/-! Machine/Mi.lean -/

theorem modesOk_miAnswer {f : State → State} (hf : KeepsModesOk f) {s : State} (h : modesOk s.modeView = true) :
    modesOk (miAnswer f s).modeView = true := by simp [miAnswer, hf s h, h]
@[simp] theorem modeView_miOk (data : List Nat) (s : State) : (miOk data s).modeView = s.modeView := (miOk_only ..).modeView
@[simp] theorem modesOk_miCommit (h : AdminHdr) (slot ca : Nat) (img : SlotImage) {s : State} (hs : modesOk s.modeView = true) :
    modesOk (miCommit h slot ca img s).modeView = true := by
  unfold miCommit; split <;> simp [hs]
@[simp] theorem modesOk_miAdmin (h : AdminHdr) (opcode : Nat) (cdw : List Nat) (img : SlotImage) {s : State}
    (hs : modesOk s.modeView = true) :
    modesOk (miAdmin h opcode cdw img s).modeView = true := by
  unfold miAdmin
  split
  · exact modesOk_adminCmd (fun _ ht => by simp [ht]) _ _ _ hs
  · exact modesOk_adminCmd (fun _ ht => by simp [ht]) _ _ _ hs
  · exact modesOk_adminCmd (fun _ ht => by simp [ht]) _ _ _ hs
  · exact modesOk_adminCmd (fun _ ht => by simp [ht]) _ _ _ hs
  · exact modesOk_adminCmd (fun _ ht => modesOk_miCommit _ _ _ _ ht) _ _ _ hs
  · exact modesOk_adminCmd (fun _ ht => by simp [ht]) _ _ _ hs
  · simp [hs]

/-! Machine/FaultInj.lean -/

@[simp] theorem modeView_nextOut (r : Nat) (s : State) : (nextOut r s).modeView = s.modeView := by simp [nextOut]
@[simp] theorem modesOk_coreFault {s : State} (hs : modesOk s.modeView = true) : modesOk (coreFault s).modeView = true := by
  simp [coreFault, hs]
@[simp] theorem modeView_engineFault (s : State) : (engineFault s).modeView = s.modeView := by simp [engineFault]
@[simp] theorem modeView_laneFault (ctx : Option Nat) (s : State) : (laneFault ctx s).modeView = s.modeView := by
  unfold laneFault; split <;> simp
@[simp] theorem modeView_compressFault (s : State) : (compressFault s).modeView = s.modeView := by simp [compressFault]
@[simp] theorem modeView_decompressFault (s : State) : (decompressFault s).modeView = s.modeView := by simp [decompressFault]
@[simp] theorem modesOk_unitFaultEff (unit : UnitFault) {s : State} (hs : modesOk s.modeView = true) :
    modesOk (unitFaultEff unit s).modeView = true := by
  unfold unitFaultEff; (repeat' split) <;> simp [hs]
@[simp] theorem modeView_fiWrite {body : State → State} (hb : ∀ t, (body t).modeView = t.modeView) (who : Writer) (off : Nat)
    (s : State) :
    (fiWrite who off body s).modeView = s.modeView := by simp [fiWrite, hb]
@[simp] theorem modeView_fiMechWrite (who : Writer) (en : Field) (mech : Nat) (limit : Bool) (value : Nat) (s : State) :
    (fiMechWrite who en mech limit value s).modeView = s.modeView := by
  simp [fiMechWrite]

/-! Machine/SetupBus.lean -/

@[simp] theorem modeView_onBit {act : State → State} (ha : ∀ t, (act t).modeView = t.modeView) (f : Field) (value : Nat) (s : State) :
    (onBit f value act s).modeView = s.modeView := by simp [onBit, ha]
@[simp] theorem modesOk_busModereq (who : Writer) (value : Nat) {s : State} (hs : modesOk s.modeView = true) :
    modesOk (busModereq who value s).modeView = true := by
  unfold busModereq
  extract_lets key
  split
  · exact modesOk_twoStep (fun _ ht => by simpa using ht) _ _ _ _ hs
  · exact modesOk_oneStep (fun _ ht => by simp [ht]) _ _ _ hs
  · exact modesOk_oneStep (fun _ ht => modesOk_quarantineNow ht) _ _ _ hs
  · exact modesOk_twoStep (fun _ ht => by simp [ht]) _ _ _ _ hs
  · simp [hs]
@[simp] theorem modeView_busOwner (who : Writer) (value : Nat) (s : State) : (busOwner who value s).modeView = s.modeView := by
  simp [busOwner]
@[simp] theorem modesOk_busReset (who : Writer) (value : Nat) {s : State} (hs : modesOk s.modeView = true) :
    modesOk (busReset who value s).modeView = true := by
  unfold busReset; split <;> simp [hs]
@[simp] theorem modeView_busWincommit (who : Writer) (value : Nat) (s : State) : (busWincommit who value s).modeView = s.modeView :=
  (busWincommit_only ..).modeView
@[simp] theorem modeView_busFfCmd (who : Writer) (value : Nat) (s : State) : (busFfCmd who value s).modeView = s.modeView :=
  (busFfCmd_only ..).modeView
@[simp] theorem modeView_busFiArm (who : Writer) (value : Nat) (s : State) : (busFiArm who value s).modeView = s.modeView :=
  (busFiArm_only ..).modeView
@[simp] theorem modeView_busKick (who : Writer) (s : State) : (busKick who s).modeView = s.modeView := (busKick_only ..).modeView
@[simp] theorem modesOk_busAction (who : Writer) (off value : Nat) {s : State} (hs : modesOk s.modeView = true) :
    modesOk (busAction who off value s).modeView = true := by
  simp [busAction, hs]
@[simp] theorem modesOk_busWrite (who : Writer) (off value : Nat) {s : State} (hs : modesOk s.modeView = true) :
    modesOk (busWrite who off value s).modeView = true := by
  simp [busWrite, hs]
@[simp] theorem modesOk_writeAt (who : Writer) (offset : Nat) (value : Word) (poisoned : Bool) {s : State}
    (hs : modesOk s.modeView = true) :
    modesOk (writeAt who offset value poisoned s).modeView = true := by
  simp [writeAt, hs]
@[simp] theorem modesOk_writeDevice (addr : Nat) (value : Word) {s : State} (hs : modesOk s.modeView = true) :
    modesOk (writeDevice addr value s).modeView = true := by
  unfold writeDevice; split <;> simp [hs]
@[simp] theorem modesOk_registerWriteEff (who : Writer) (offset : Nat) (value : Word) (poisoned : Bool) {s : State}
    (hs : modesOk s.modeView = true) :
    modesOk (registerWriteEff who offset value poisoned s).modeView = true := by
  simp [registerWriteEff, hs]

end Sys2Proof.Machine
end

section
/-! SUPPORT. The recorded mode and the mode before LOWPOWER stay legal: every command, and every step. Rules R34, R35. -/
namespace Sys2Proof.Machine
-- One theorem at a time: a thread for each would exhaust the memory the check allows.
set_option Elab.async false

/-- An outcome whose change names neither the modes nor the provisioning record. -/
theorem Only.answersModesOk {w : List Fld} {s : State} {o : Host.Outcome State Fault Refusal} (ho : ∃ t, o = .next t ∧ Only w s t)
    (hs : modesOk s.modeView = true) (hg : covered w .gen = false := by rfl) (hp : covered w .prov = false := by rfl) :
    ∃ t, o = .next t ∧ modesOk t.modeView = true := by
  obtain ⟨t, ht, honly⟩ := ho
  exact ⟨t, ht, by rw [honly.modeView hg hp]; exact hs⟩

/-- Every command keeps the view legal: by its frame where that names neither the modes nor the record, else by the lemma of its effect. -/
theorem exec_modesOk (c : Instr) {s : State} (hs : modesOk s.modeView = true) :
    ∃ t, exec c s = .next t ∧ modesOk t.modeView = true := by
  cases c with
  | porNAssert => exact ⟨_, rfl, by simp [hs]⟩
  | porNDeassert => exact ⟨_, rfl, by simp [hs]⟩
  | pwrFailNAssert => exact ⟨_, rfl, by simp [hs]⟩
  | pwrFailNDeassert => exact ⟨_, rfl, by simp [hs]⟩
  | drainFlushComplete => exact ⟨_, rfl, by simp [hs]⟩
  | twinFenceInAssert => exact ⟨_, rfl, by simp [hs]⟩
  | twinFenceInDeassert => exact ⟨_, rfl, by simp [hs]⟩
  | twinHbInChange => exact Only.answersModesOk (execTwinHbInChange_only ..) hs
  | tsyncInEdge => exact Only.answersModesOk (execTsyncInEdge_only ..) hs
  | huGoodDeassert => exact Only.answersModesOk (execHuGoodDeassert_only ..) hs
  | huGoodReassert => exact Only.answersModesOk (execHuGoodReassert_only ..) hs
  | huSenseBelowVLow => exact Only.answersModesOk (execHuSenseBelowVLow_only ..) hs
  | holdupVerificationStart => exact Only.answersModesOk (execHoldupVerificationStart_only ..) hs
  | holdupVerificationEnd => exact ⟨_, rfl, by simp [hs]⟩
  | heRefclkLoss => exact Only.answersModesOk (execHeRefclkLoss_only ..) hs
  | gfRefclkLoss => exact Only.answersModesOk (execGfRefclkLoss_only ..) hs
  | mgXtalLoss => exact ⟨_, rfl, by simp [hs]⟩
  | dramChannelTrainingLoss => exact ⟨_, rfl, by simp [hs]⟩
  | bootImageVerify => exact ⟨_, rfl, by simp [hs]⟩
  | hostIslandRelease => exact ⟨_, rfl, by simp [hs]⟩
  | dramTraining => exact Only.answersModesOk (execDramTraining_only ..) hs
  | channelTraining => exact ⟨_, rfl, by simp [hs]⟩
  | journalRootRead => exact Only.answersModesOk (execJournalRootRead_only ..) hs
  | residentMapLoad => exact Only.answersModesOk (execResidentMapLoad_only ..) hs
  | mapRecovery => exact Only.answersModesOk (execMapRecovery_only ..) hs
  | halfErasedBlockRedo => exact ⟨_, rfl, by simp [hs]⟩
  | openStripeCompletion => exact Only.answersModesOk (execOpenStripeCompletion_only ..) hs
  | startupComplete => exact ⟨_, rfl, by simp [hs]⟩
  | genResetY9 => exact ⟨_, rfl, by simp [hs]⟩
  | genResetManagement => exact ⟨_, rfl, by simp [hs]⟩
  | watchdogExpiry => exact ⟨_, rfl, by simp [hs]⟩
  | lockstepMismatch => exact ⟨_, rfl, by simp [hs]⟩
  | conventionalReset cause => exact Only.answersModesOk (execConventionalReset_only cause s) hs
  | functionLevelReset => exact Only.answersModesOk (execFunctionLevelReset_only ..) hs
  | ccEnSet => exact ⟨_, rfl, by simp [hs]⟩
  | ccEnClear => exact Only.answersModesOk (execCcEnClear_only ..) hs
  | shutdownNotification => exact ⟨_, rfl, by simp [hs]⟩
  | genModereqDiagnostic => exact ⟨_, rfl, modesOk_twoStep (fun _ ht => by simpa using ht) _ _ _ _ hs⟩
  | diagnosticEntry => exact ⟨_, rfl, by simp [hs]⟩
  | genModereqService => exact ⟨_, rfl, modesOk_oneStep (fun _ ht => by simp [ht]) _ _ _ hs⟩
  | genModereqQuarantine => exact ⟨_, rfl, modesOk_oneStep (fun _ ht => modesOk_quarantineNow ht) _ _ _ hs⟩
  | genModereqProvision => exact ⟨_, rfl, modesOk_twoStep (fun _ ht => by simp [ht]) _ _ _ _ hs⟩
  | modereqKeyTimeout => exact ⟨_, rfl, by simp [hs]⟩
  | provisioningCommit => exact ⟨_, rfl, by simp [hs]⟩
  | genOwnerClaim => exact ⟨_, rfl, by simp [hs]⟩
  | genOwnerRelease => exact ⟨_, rfl, by simp [hs]⟩
  | genOwnerSeize => exact ⟨_, rfl, by simp [hs]⟩
  | genOwnerSeizedClear => exact Only.answersModesOk (execGenOwnerSeizedClear_only ..) hs
  | registerWrite => exact ⟨_, rfl, by simp [hs]⟩
  | latchingRead => exact Only.answersModesOk (execLatchingRead_only ..) hs
  | stagedCommitPoint => exact Only.answersModesOk (execStagedCommitPoint_only ..) hs
  | bar0BadAccess => exact Only.answersModesOk (execBar0BadAccess_only ..) hs
  | configBarWrite => exact Only.answersModesOk (execConfigBarWrite_only ..) hs
  | sqTailDoorbell => exact ⟨_, rfl, by simp [hs]⟩
  | cqHeadDoorbell => exact ⟨_, rfl, by simp [hs]⟩
  | sqeFetch => exact Only.answersModesOk (execSqeFetch_only ..) hs
  | pollRound => exact Only.answersModesOk (execPollRound_only ..) hs
  | pollCompletion => exact ⟨_, rfl, by simp [hs]⟩
  | pollStop => exact ⟨_, rfl, by simp [hs]⟩
  | cmbMmioRead => exact Only.answersModesOk (execCmbMmioRead_only ..) hs
  | cmbMmioWrite => exact Only.answersModesOk (execCmbMmioWrite_only ..) hs
  | windowTlpRead => exact Only.answersModesOk (execWindowTlpRead_only ..) hs
  | windowTlpWrite => exact Only.answersModesOk (execWindowTlpWrite_only ..) hs
  | windowWriteAck => exact Only.answersModesOk (execWindowWriteAck_only ..) hs
  | unsupportedTlp => exact Only.answersModesOk (execUnsupportedTlp_only ..) hs
  | malformedTlp => exact Only.answersModesOk (execMalformedTlp_only ..) hs
  | heWincommitA => exact Only.answersModesOk (execHeWincommitA_only ..) hs
  | heWincommitB => exact Only.answersModesOk (execHeWincommitB_only ..) hs
  | windowCopyDone => exact Only.answersModesOk (execWindowCopyDone_only ..) hs
  | heWinlogClr => exact Only.answersModesOk (execHeWinlogClr_only ..) hs
  | hostReadCompletion => exact ⟨_, rfl, by simp [hs]⟩
  | hostReadTimeout => exact ⟨_, rfl, by simp [hs]⟩
  | linkTrained => exact Only.answersModesOk (execLinkTrained_only ..) hs
  | linkRecoveryEntry => exact Only.answersModesOk (execLinkRecoveryEntry_only ..) hs
  | linkRecoveryExit => exact Only.answersModesOk (execLinkRecoveryExit_only ..) hs
  | surpriseDown => exact Only.answersModesOk (execSurpriseDown_only ..) hs
  | l0pWidthChange => exact Only.answersModesOk (execL0pWidthChange_only ..) hs
  | aspmL1Entry => exact Only.answersModesOk (execAspmL1Entry_only ..) hs
  | d3hotEntry => exact Only.answersModesOk (execD3hotEntry_only ..) hs
  | doeRequest => exact Only.answersModesOk (execDoeRequest_only ..) hs
  | doeAbort => exact Only.answersModesOk (execDoeAbort_only ..) hs
  | deleteIoSq => exact ⟨_, rfl, modesOk_adminCmd (fun _ ht => by simp [ht]) _ _ _ hs⟩
  | createIoSq => exact ⟨_, rfl, modesOk_adminCmd (fun _ ht => by simp [ht]) _ _ _ hs⟩
  | getLogPage => exact ⟨_, rfl, modesOk_adminCmd (fun _ ht => by simp [ht]) _ _ _ hs⟩
  | deleteIoCq => exact ⟨_, rfl, modesOk_adminCmd (fun _ ht => by simp [ht]) _ _ _ hs⟩
  | createIoCq => exact ⟨_, rfl, modesOk_adminCmd (fun _ ht => by simp [ht]) _ _ _ hs⟩
  | identify => exact ⟨_, rfl, modesOk_adminCmd (fun _ ht => by simp [ht]) _ _ _ hs⟩
  | abort => exact ⟨_, rfl, modesOk_adminCmd (fun _ ht => by simp [ht]) _ _ _ hs⟩
  | setFeaturesArbitration => exact ⟨_, rfl, modesOk_setFeature (fun _ ht => by simp [ht]) _ _ hs⟩
  | setFeaturesPowerManagement => exact ⟨_, rfl, modesOk_setFeature (fun _ ht => by simp [ht]) _ _ hs⟩
  | powerStateEntry => exact ⟨_, rfl, by simp [hs]⟩
  | setFeaturesTemperatureThreshold => exact ⟨_, rfl, modesOk_setFeature (fun _ ht => by simp [ht]) _ _ hs⟩
  | setFeaturesVolatileWriteCache => exact ⟨_, rfl, modesOk_setFeature (fun _ ht => by simp [ht]) _ _ hs⟩
  | setFeaturesNumberOfQueues => exact ⟨_, rfl, modesOk_setFeature (fun _ ht => by simp [ht]) _ _ hs⟩
  | setFeaturesInterruptCoalescing => exact ⟨_, rfl, modesOk_setFeature (fun _ ht => by simp [ht]) _ _ hs⟩
  | setFeaturesInterruptVectorConfig => exact ⟨_, rfl, modesOk_setFeature (fun _ ht => by simp [ht]) _ _ hs⟩
  | setFeaturesAsyncEventConfig => exact ⟨_, rfl, modesOk_setFeature (fun _ ht => by simp [ht]) _ _ hs⟩
  | setFeaturesLatencyClassTable => exact ⟨_, rfl, modesOk_setFeature (fun _ ht => by simp [ht]) _ _ hs⟩
  | setFeaturesQueueLatencyBinding => exact ⟨_, rfl, modesOk_setFeature (fun _ ht => by simp [ht]) _ _ hs⟩
  | setFeaturesWriteCacheProtection => exact ⟨_, rfl, modesOk_setFeature (fun _ ht => by simp [ht]) _ _ hs⟩
  | getFeatures => exact ⟨_, rfl, modesOk_adminCmd (fun _ ht => by simp [ht]) _ _ _ hs⟩
  | asynchronousEventRequest => exact ⟨_, rfl, modesOk_adminCmd (fun _ ht => by simp [ht]) _ _ _ hs⟩
  | namespaceManagementCreate => exact ⟨_, rfl, modesOk_adminCmd (fun _ ht => by simp [ht]) _ _ _ hs⟩
  | namespaceManagementDelete => exact ⟨_, rfl, modesOk_adminCmd (fun _ ht => by simp [ht]) _ _ _ hs⟩
  | namespaceAttachment => exact ⟨_, rfl, modesOk_adminCmd (fun _ ht => by simp [ht]) _ _ _ hs⟩
  | firmwareImageDownload => exact ⟨_, rfl, modesOk_adminCmd (fun _ ht => by simp [ht]) _ _ _ hs⟩
  | firmwareCommitWrite => exact ⟨_, rfl, modesOk_adminCmd (fun _ ht => by simp [ht]) _ _ _ hs⟩
  | firmwareCommitWriteSelect => exact ⟨_, rfl, modesOk_adminCmd (fun _ ht => by simp [ht]) _ _ _ hs⟩
  | firmwareCommitSelect => exact ⟨_, rfl, modesOk_adminCmd (fun _ ht => by simp [ht]) _ _ _ hs⟩
  | firmwareCommitActivate => exact ⟨_, rfl, modesOk_adminCmd (fun _ ht => by simp [ht]) _ _ _ hs⟩
  | deviceSelfTest => exact ⟨_, rfl, modesOk_adminCmd (fun _ ht => by simp [ht]) _ _ _ hs⟩
  | directiveSend => exact ⟨_, rfl, modesOk_adminCmd (fun _ ht => by simp [ht]) _ _ _ hs⟩
  | directiveReceive => exact ⟨_, rfl, modesOk_adminCmd (fun _ ht => by simp [ht]) _ _ _ hs⟩
  | doorbellBufferConfig => exact ⟨_, rfl, modesOk_adminCmd (fun _ ht => by simp [ht]) _ _ _ hs⟩
  | formatNvm => exact ⟨_, rfl, modesOk_adminCmd (fun _ ht => by simp [ht]) _ _ _ hs⟩
  | formatNvmCryptoErase => exact ⟨_, rfl, modesOk_adminCmd (fun _ ht => by simp [ht]) _ _ _ hs⟩
  | sanitizeBlockErase => exact ⟨_, rfl, modesOk_adminCmd (fun _ ht => by simp [ht]) _ _ _ hs⟩
  | sanitizeCryptoErase => exact ⟨_, rfl, modesOk_adminCmd (fun _ ht => by simp [ht]) _ _ _ hs⟩
  | twinControlPair => exact ⟨_, rfl, modesOk_adminCmd (fun _ ht => by simp [ht]) _ _ _ hs⟩
  | twinControlSwitch => exact ⟨_, rfl, modesOk_adminCmd (fun _ ht => by simp [ht]) _ _ _ hs⟩
  | twinControlRejoin => exact ⟨_, rfl, modesOk_adminCmd (fun _ ht => by simp [ht]) _ _ _ hs⟩
  | twinControlUnpair => exact ⟨_, rfl, modesOk_adminCmd (fun _ ht => by simp [ht]) _ _ _ hs⟩
  | twinControlRelease => exact ⟨_, rfl, modesOk_adminCmd (fun _ ht => by simp [ht]) _ _ _ hs⟩
  | migrationControlArm => exact ⟨_, rfl, modesOk_adminCmd (fun _ ht => by simp [ht]) _ _ _ hs⟩
  | migrationControlStart => exact ⟨_, rfl, modesOk_adminCmd (fun _ ht => by simp [ht]) _ _ _ hs⟩
  | migrationControlSeal => exact ⟨_, rfl, modesOk_adminCmd (fun _ ht => by simp [ht]) _ _ _ hs⟩
  | migrationControlAbort => exact ⟨_, rfl, modesOk_adminCmd (fun _ ht => by simp [ht]) _ _ _ hs⟩
  | migrationControlStatus => exact ⟨_, rfl, modesOk_adminCmd (fun _ ht => by simp [ht]) _ _ _ hs⟩
  | migrationControlResolve => exact ⟨_, rfl, modesOk_adminCmd (fun _ ht => by simp [ht]) _ _ _ hs⟩
  | sealDevice => exact ⟨_, rfl, modesOk_adminCmd (fun _ ht => by simp [ht]) _ _ _ hs⟩
  | unsealDevice => exact ⟨_, rfl, modesOk_adminCmd (fun _ ht => by simp [ht]) _ _ _ hs⟩
  | sealNamespace => exact ⟨_, rfl, modesOk_adminCmd (fun _ ht => by simp [ht]) _ _ _ hs⟩
  | unsealNamespace => exact ⟨_, rfl, modesOk_adminCmd (fun _ ht => by simp [ht]) _ _ _ hs⟩
  | read => exact ⟨_, rfl, by simp [hs]⟩
  | write => exact ⟨_, rfl, by simp [hs]⟩
  | flush => exact ⟨_, rfl, by simp [hs]⟩
  | writeUncorrectable => exact ⟨_, rfl, by simp [hs]⟩
  | writeZeroes => exact ⟨_, rfl, by simp [hs]⟩
  | datasetManagement => exact ⟨_, rfl, by simp [hs]⟩
  | verify => exact ⟨_, rfl, by simp [hs]⟩
  | copy => exact ⟨_, rfl, by simp [hs]⟩
  | fixityDigest => exact ⟨_, rfl, by simp [hs]⟩
  | mapPageLoaded => exact ⟨_, rfl, by simp [hs]⟩
  | lc7AdmissionRetry => exact ⟨_, rfl, by simp [hs]⟩
  | dcForwardDone => exact ⟨_, rfl, by simp [hs]⟩
  | completionPost => exact ⟨_, rfl, by simp [hs]⟩
  | partialGrainMerge => exact Only.answersModesOk (execPartialGrainMerge_only ..) hs
  | wordlineProgramStart => exact Only.answersModesOk (execWordlineProgramStart_only ..) hs
  | programVerifyDone => exact ⟨_, rfl, by simp [hs]⟩
  | gatherTimeout => exact Only.answersModesOk (execGatherTimeout_only ..) hs
  | barrelOpen => exact Only.answersModesOk (execBarrelOpen_only ..) hs
  | readRoundDone => exact ⟨_, rfl, by simp [hs]⟩
  | readReadyTimeout => exact ⟨_, rfl, by simp [hs]⟩
  | spDieoutWrite => exact ⟨_, rfl, by simp [hs]⟩
  | fretTick => exact ⟨_, rfl, by simp [hs]⟩
  | suspendRequest => exact Only.answersModesOk (execSuspendRequest_only ..) hs
  | vatTurnEnd => exact Only.answersModesOk (execVatTurnEnd_only ..) hs
  | groupWordlineBoundary => exact Only.answersModesOk (execGroupWordlineBoundary_only ..) hs
  | journalFlush => exact Only.answersModesOk (execJournalFlush_only ..) hs
  | journalSegmentDurable => exact Only.answersModesOk (execJournalSegmentDurable_only ..) hs
  | checkpointSweepStart => exact Only.answersModesOk (execCheckpointSweepStart_only ..) hs
  | sweepTimeout => exact Only.answersModesOk (execSweepTimeout_only ..) hs
  | sweepRootDurable => exact Only.answersModesOk (execSweepRootDurable_only ..) hs
  | mapLineRestored => exact Only.answersModesOk (execMapLineRestored_only ..) hs
  | rackingStart => exact Only.answersModesOk (execRackingStart_only ..) hs
  | rackdoneDurable => exact Only.answersModesOk (execRackdoneDurable_only ..) hs
  | eraseintDurable => exact Only.answersModesOk (execEraseintDurable_only ..) hs
  | eraseDone => exact ⟨_, rfl, by simp [hs]⟩
  | bottlingStart => exact Only.answersModesOk (execBottlingStart_only ..) hs
  | vatSlotErase => exact Only.answersModesOk (execVatSlotErase_only ..) hs
  | ageRefresh => exact Only.answersModesOk (execAgeRefresh_only ..) hs
  | blockRefresh => exact Only.answersModesOk (execBlockRefresh_only ..) hs
  | v4Reclaim => exact Only.answersModesOk (execV4Reclaim_only ..) hs
  | snapshotWrite => exact Only.answersModesOk (execSnapshotWrite_only ..) hs
  | snapshotDurable => exact Only.answersModesOk (execSnapshotDurable_only ..) hs
  | rebuildStart => exact Only.answersModesOk (execRebuildStart_only ..) hs
  | rebuildWordlineDone => exact Only.answersModesOk (execRebuildWordlineDone_only ..) hs
  | groupDissolution => exact ⟨_, rfl, by simp [hs]⟩
  | sequencerFault => exact ⟨_, rfl, by simp [hs]⟩
  | yieldTimeout => exact ⟨_, rfl, by simp [hs]⟩
  | channelRetrain => exact Only.answersModesOk (execChannelRetrain_only ..) hs
  | retrainStep => exact ⟨_, rfl, by simp [hs]⟩
  | patchSetLoad => exact ⟨_, rfl, by simp [hs]⟩
  | patchHandoff => exact ⟨_, rfl, by simp [hs]⟩
  | bufferAllocate => exact Only.answersModesOk (execBufferAllocate_only ..) hs
  | bufferFree => exact Only.answersModesOk (execBufferFree_only ..) hs
  | poolRebuildDone => exact Only.answersModesOk (execPoolRebuildDone_only ..) hs
  | lineCheckFailure => exact ⟨_, rfl, by simp [hs]⟩
  | staleGenerationAccess => exact Only.answersModesOk (execStaleGenerationAccess_only ..) hs
  | mergeEntryTimeout => exact Only.answersModesOk (execMergeEntryTimeout_only ..) hs
  | gareoLinkTrained => exact Only.answersModesOk (execGareoLinkTrained_only ..) hs
  | flitReceived => exact Only.answersModesOk (execFlitReceived_only ..) hs
  | linkSilenceTimeout => exact Only.answersModesOk (execLinkSilenceTimeout_only ..) hs
  | linkRetrainDone => exact Only.answersModesOk (execLinkRetrainDone_only ..) hs
  | linkRetryTimer => exact Only.answersModesOk (execLinkRetryTimer_only ..) hs
  | ackTimer => exact Only.answersModesOk (execAckTimer_only ..) hs
  | frameResendTimeout => exact Only.answersModesOk (execFrameResendTimeout_only ..) hs
  | hello link uid candUid candDist epoch pref => exact Only.answersModesOk (execHello_only link uid candUid candDist epoch pref s) hs
  | discoveryQuietTimeout => exact Only.answersModesOk (execDiscoveryQuietTimeout_only ..) hs
  | lsr => exact Only.answersModesOk (execLsr_only ..) hs
  | table => exact Only.answersModesOk (execTable_only ..) hs
  | epoch => exact Only.answersModesOk (execEpoch_only ..) hs
  | epochApply => exact Only.answersModesOk (execEpochApply_only ..) hs
  | resync => exact ⟨_, rfl, by simp [hs]⟩
  | ack => exact Only.answersModesOk (execAck_only ..) hs
  | nak => exact Only.answersModesOk (execNak_only ..) hs
  | timeExchangeTimer => exact Only.answersModesOk (execTimeExchangeTimer_only ..) hs
  | time => exact Only.answersModesOk (execTime_only ..) hs
  | coordinatorHeartbeat => exact Only.answersModesOk (execCoordinatorHeartbeat_only ..) hs
  | coordinatorLoss => exact Only.answersModesOk (execCoordinatorLoss_only ..) hs
  | gfNodeReassign => exact Only.answersModesOk (execGfNodeReassign_only ..) hs
  | rdreq => exact ⟨_, rfl, by simp [hs]⟩
  | rdresp => exact ⟨_, rfl, by simp [hs]⟩
  | writeFrame => exact ⟨_, rfl, by simp [hs]⟩
  | mgmt => exact ⟨_, rfl, by simp [hs]⟩
  | mirrorGranules => exact Only.answersModesOk (execMirrorGranules_only ..) hs
  | mirrorCommitRecord => exact ⟨_, rfl, by simp [hs]⟩
  | mirrorNamespaceOperation => exact ⟨_, rfl, by simp [hs]⟩
  | mirrorLatencyClassTable => exact Only.answersModesOk (execMirrorLatencyClassTable_only ..) hs
  | mirrorXtsKey => exact ⟨_, rfl, by simp [hs]⟩
  | mirrorSnapshot => exact Only.answersModesOk (execMirrorSnapshot_only ..) hs
  | mirrorRepair => exact Only.answersModesOk (execMirrorRepair_only ..) hs
  | hbSendTimer => exact Only.answersModesOk (execHbSendTimer_only ..) hs
  | hb seq peerState csn => exact Only.answersModesOk (execHb_only seq peerState csn s) hs
  | hbPathLost => exact ⟨_, rfl, modesOk_onFabric (fun _ ht => by simp [ht]) hs⟩
  | drainNotice => exact ⟨_, rfl, modesOk_onFabric (fun _ ht => by simp [ht]) hs⟩
  | soloEntry => exact Only.answersModesOk (execSoloEntry_only ..) hs
  | soloExit => exact Only.answersModesOk (execSoloExit_only ..) hs
  | pairreq => exact ⟨_, rfl, by simp [hs]⟩
  | pairack => exact ⟨_, rfl, by simp [hs]⟩
  | switch => exact ⟨_, rfl, by simp [hs]⟩
  | switchack => exact ⟨_, rfl, modesOk_onFabric (fun _ ht => by simp [ht]) hs⟩
  | seedSegmentSend => exact Only.answersModesOk (execSeedSegmentSend_only ..) hs
  | migstart => exact ⟨_, rfl, by simp [hs]⟩
  | migack => exact Only.answersModesOk (execMigack_only ..) hs
  | migrationSegmentSend => exact Only.answersModesOk (execMigrationSegmentSend_only ..) hs
  | migseg => exact Only.answersModesOk (execMigseg_only ..) hs
  | segdig => exact Only.answersModesOk (execSegdig_only ..) hs
  | segres => exact ⟨_, rfl, modesOk_onFabric (fun _ ht => by simp [ht]) hs⟩
  | dirtyPassEnd => exact ⟨_, rfl, by simp [hs]⟩
  | cutover => exact ⟨_, rfl, by simp [hs]⟩
  | cutack => exact ⟨_, rfl, by simp [hs]⟩
  | migrationAbortMessage => exact ⟨_, rfl, modesOk_onFabric (fun _ ht => by simp [ht]) hs⟩
  | migrationRouteTimeout => exact ⟨_, rfl, modesOk_onFabric (fun _ ht => by simp [ht]) hs⟩
  | stop vc stream => exact Only.answersModesOk (execStop_only vc stream s) hs
  | digestContextOpen => exact Only.answersModesOk (execDigestContextOpen_only ..) hs
  | digestSaveDone => exact Only.answersModesOk (execDigestSaveDone_only ..) hs
  | digestBlock => exact Only.answersModesOk (execDigestBlock_only ..) hs
  | auditStart => exact Only.answersModesOk (execAuditStart_only ..) hs
  | auditPeriodTimer => exact Only.answersModesOk (execAuditPeriodTimer_only ..) hs
  | dgSecAdvance => exact Only.answersModesOk (execDgSecAdvance_only ..) hs
  | rngHealthFailure => exact Only.answersModesOk (execRngHealthFailure_only ..) hs
  | ecMaxcorrClr => exact Only.answersModesOk (execEcMaxcorrClr_only ..) hs
  | spSubselWrite => exact Only.answersModesOk (execSpSubselWrite_only ..) hs
  | sensorSample => exact ⟨_, rfl, by simp [hs]⟩
  | eventLogFlush => exact Only.answersModesOk (execEventLogFlush_only ..) hs
  | timeMarkWrite => exact Only.answersModesOk (execTimeMarkWrite_only ..) hs
  | mgWdogKick => exact Only.answersModesOk (execMgWdogKick_only ..) hs
  | mgLogackWrite => exact Only.answersModesOk (execMgLogackWrite_only ..) hs
  | ffRead => exact Only.answersModesOk (execFfRead_only ..) hs
  | ffProgram => exact Only.answersModesOk (execFfProgram_only ..) hs
  | ffErase => exact Only.answersModesOk (execFfErase_only ..) hs
  | ffReadhdr => exact Only.answersModesOk (execFfReadhdr_only ..) hs
  | ffOperationDone => exact Only.answersModesOk (execFfOperationDone_only ..) hs
  | readNvmeMiDataStructure => exact Only.answersModesOk (execReadNvmeMiDataStructure_only ..) hs
  | nvmSubsystemHealthStatusPoll => exact Only.answersModesOk (execNvmSubsystemHealthStatusPoll_only ..) hs
  | controllerHealthStatusPoll => exact Only.answersModesOk (execControllerHealthStatusPoll_only ..) hs
  | configurationGet => exact Only.answersModesOk (execConfigurationGet_only ..) hs
  | configurationSet => exact Only.answersModesOk (execConfigurationSet_only ..) hs
  | vpdRead => exact Only.answersModesOk (execVpdRead_only ..) hs
  | miTunnelledAdminCommand => exact ⟨_, rfl, modesOk_miAnswer (fun _ ht => by simp [ht]) hs⟩
  | setupRegisterRead => exact Only.answersModesOk (execSetupRegisterRead_only ..) hs
  | setupRegisterWrite => exact ⟨_, rfl, modesOk_miAnswer (fun _ ht => by simp [ht]) hs⟩
  | eventLogRead => exact Only.answersModesOk (execEventLogRead_only ..) hs
  | eventLogAcknowledge => exact Only.answersModesOk (execEventLogAcknowledge_only ..) hs
  | getVersion => exact Only.answersModesOk (execGetVersion_only ..) hs
  | getCapabilities => exact Only.answersModesOk (execGetCapabilities_only ..) hs
  | negotiateAlgorithms => exact Only.answersModesOk (execNegotiateAlgorithms_only ..) hs
  | getDigests => exact Only.answersModesOk (execGetDigests_only ..) hs
  | getCertificate => exact Only.answersModesOk (execGetCertificate_only ..) hs
  | setCertificate => exact Only.answersModesOk (execSetCertificate_only ..) hs
  | challenge => exact Only.answersModesOk (execChallenge_only ..) hs
  | getMeasurements => exact Only.answersModesOk (execGetMeasurements_only ..) hs
  | keyExchange => exact Only.answersModesOk (execKeyExchange_only ..) hs
  | finish => exact Only.answersModesOk (execFinish_only ..) hs
  | endSession => exact Only.answersModesOk (execEndSession_only ..) hs
  | policyCoreFault => exact ⟨_, rfl, by simp [hs]⟩
  | fiArmKey => exact Only.answersModesOk (execFiArmKey_only ..) hs
  | fiDisarm => exact Only.answersModesOk (execFiDisarm_only ..) hs
  | fiArmTimeout => exact Only.answersModesOk (execFiArmTimeout_only ..) hs
  | fiGfEn => exact Only.answersModesOk (execFiGfEn_only ..) hs
  | fiFlEn => exact Only.answersModesOk (execFiFlEn_only ..) hs
  | fiPcieEn => exact Only.answersModesOk (execFiPcieEn_only ..) hs
  | fiKeySequenceTimeout => exact Only.answersModesOk (execFiKeySequenceTimeout_only ..) hs
  | rngHealthRestored => exact ⟨_, rfl, by simp [hs]⟩
  | managementResetEnd => exact Only.answersModesOk (execManagementResetEnd_only ..) hs
  | configRegisterWrite => exact Only.answersModesOk (execConfigRegisterWrite_only ..) hs
  | aspmL1Exit => exact Only.answersModesOk (execAspmL1Exit_only ..) hs
  | cmbmscWrite => exact Only.answersModesOk (execCmbmscWrite_only ..) hs
  | deviceSelfTestComplete => exact Only.answersModesOk (execDeviceSelfTestComplete_only ..) hs
  | interruptCoalescingTimeout => exact Only.answersModesOk (execInterruptCoalescingTimeout_only ..) hs

/-- A step runs the front command on the rest of the queue, or nothing. -/
theorem step_modesOk {s : State} (hs : modesOk s.modeView = true) : ∃ t, step s = .next t ∧ modesOk t.modeView = true := by
  cases hp : s.pending with
  | nil => exact ⟨s, step_nil hp, hs⟩
  | cons c rest =>
    rw [step_cons hp]
    exact exec_modesOk c (s := { s with pending := rest }) hs

/-- Settles O51: every command keeps the recorded mode and the mode before LOWPOWER legal, so every step does. -/
theorem recordedModesStayLegal : Obligations.RecordedModesStayLegal := by
  intro s t hs ht
  obtain ⟨u, hu, hlegal⟩ := step_modesOk (modesLegal_iff.mp hs)
  cases ht.symm.trans hu
  exact modesLegal_iff.mpr hlegal

/-- Settles O48: each store is empty, FI disarmed, the mode RESET and the recorded mode SERVICE. -/
theorem invariantsAtReset : Obligations.InvariantsAtReset := by
  refine ⟨by decide +kernel, fun k => ⟨rfl, rfl, rfl⟩, ⟨fun harmed => ?_, rfl⟩, modesLegal_iff.mpr rfl, by decide⟩
  exact absurd harmed (by decide)

end Sys2Proof.Machine
end
section
/-! SUPPORT. What a change of mode, the flush of DRAIN and a Y9 reset leave: the mode and its cause, the pins, the commands. Rules R34, R43,
R47, R394. -/
namespace Sys2Proof.Machine
-- One theorem at a time: a thread for each would exhaust the memory the check allows.
set_option Elab.async false

section
variable {row : Nat} {m : Mode} {s : State}

/-! A change of mode (R34). -/

/-- What FI does on a change of mode (R394) is no part of the mode. -/
theorem enterMode_gen (row : Nat) (m : Mode) (s : State) : (enterMode row m s).gen = (setMode row m s).gen := by
  have hdisarmed (cause : Nat) (t : State) : (fiDisarmed cause t).gen = t.gen := (fiDisarmed_only cause t).keeps .gen rfl
  have harmed (t : State) : (fiArmed true t).gen = t.gen := (fiArmed_only true t).keeps .gen rfl
  unfold enterMode
  extract_lets u
  split
  · exact (harmed _).trans (hdisarmed ..)
  split
  · split
    · exact hdisarmed ..
    · rfl
  · exact hdisarmed ..

/-- R394: nor of the provisioning record. -/
theorem enterMode_prov (row : Nat) (m : Mode) (s : State) : (enterMode row m s).prov = (setMode row m s).prov := by
  have hdisarmed (cause : Nat) (t : State) : (fiDisarmed cause t).prov = t.prov := (fiDisarmed_only cause t).keeps .prov rfl
  have harmed (t : State) : (fiArmed true t).prov = t.prov := (fiArmed_only true t).keeps .prov rfl
  unfold enterMode
  extract_lets u
  split
  · exact (harmed _).trans (hdisarmed ..)
  split
  · split
    · exact hdisarmed ..
    · rfl
  · exact hdisarmed ..

/-- R34: a change of mode keeps the record valid. -/
theorem enterMode_valid (row : Nat) (m : Mode) (s : State) : (enterMode row m s).prov.valid = s.prov.valid := by
  rw [enterMode_prov, setMode]
  split <;> rfl

/-- R34: the mode, the row that entered it, and the mode before. -/
theorem enterMode_mode (row : Nat) (m : Mode) (s : State) :
    (enterMode row m s).gen.mode = m ∧ (enterMode row m s).gen.cause = row ∧ (enterMode row m s).gen.prev = s.gen.mode := by
  rw [enterMode_gen]
  exact ⟨rfl, rfl, rfl⟩

/-- The notice of a mode's change is no part of it. -/
theorem enterModeEv_gen (row : Nat) (m : Mode) (s : State) : (enterModeEv row m s).gen = (setMode row m s).gen :=
  ((evModeChanged_only _).keeps .gen rfl).trans (enterMode_gen row m s)

/-- R34: the mode, the row that entered it, and the mode before, after the notice. -/
theorem enterModeEv_mode (row : Nat) (m : Mode) (s : State) :
    (enterModeEv row m s).gen.mode = m ∧ (enterModeEv row m s).gen.cause = row ∧ (enterModeEv row m s).gen.prev = s.gen.mode := by
  rw [enterModeEv_gen]
  exact ⟨rfl, rfl, rfl⟩

/-- R390: QUARANTINE remembers the mode it was entered from. -/
theorem enterQuarantine_prev (row : Nat) (s : State) : (enterQuarantine row s).gen.prev = s.gen.mode := by
  unfold enterQuarantine
  extract_lets _ _ fenced flush killed entered _ _ _ held copied told
  have hfenced : fenced.gen = s.gen := by
    unfold fenced
    split <;> rfl
  have hkilled : killed.gen = s.gen := ((killCmds_only ..).keeps .gen rfl).trans hfenced
  have hentered : entered.gen.prev = s.gen.mode := (enterMode_mode row .quarantine killed).2.2.trans (congrArg Gen.mode hkilled)
  have hcopied : copied.gen = held.gen := ((flagIf_only ..).keeps .gen rfl).trans ((abandonCopies_only held).keeps .gen rfl)
  have htold : told.gen = held.gen := ((pcieError_only ..).keeps .gen rfl).trans hcopied
  split
  · exact (congrArg Gen.prev (((pcieError_only ..).keeps .gen rfl).trans htold)).trans hentered
  · exact (congrArg Gen.prev htold).trans hentered

/-- Row 20 outside RESET, DRAIN and QUARANTINE (R36). -/
theorem quarantineNow_enters (h : s.gen.mode ≠ .reset ∧ s.gen.mode ≠ .drain ∧ s.gen.mode ≠ .quarantine) :
    quarantineNow s = enterQuarantine 20 s := by
  obtain ⟨hreset, hdrain, hquar⟩ := h
  unfold quarantineNow
  cases hm : s.gen.mode <;> simp_all

/-- In RESET, DRAIN and QUARANTINE row 20 changes nothing. -/
theorem quarantineNow_stays (h : s.gen.mode = .reset ∨ s.gen.mode = .drain ∨ s.gen.mode = .quarantine) : quarantineNow s = s := by
  unfold quarantineNow
  rcases h with h | h | h <;> rw [h]

/-! Row 1 (R409). -/

/-- Row 1 enters BOOT. -/
theorem rowOne_boots (hmode : s.gen.mode = .reset) (hpor : s.pins.porN = true) (hpwr : s.pins.pwrFailN = true) :
    (rowOne s).gen.mode = .boot ∧ (rowOne s).gen.cause = 1 ∧ (rowOne s).gen.bootVerified = s.gen.bootVerified ∧
    (rowOne s).gen.hostReleased = s.gen.hostReleased := by
  rw [rowOne, if_pos ⟨hmode, hpor, hpwr⟩]
  extract_lets locked owners region
  have howners : owners.gen = s.gen :=
    (Only.foldl (r := locked) (w := [.bp]) (fun t o h => h.trans (updOwner_only o _ t)) (Only.refl ..) |>.keeps .gen rfl).trans
      ((loadLocked_only ..).keeps .gen rfl)
  have hspared (t : State) : (applySparing t).gen = t.gen := (applySparing_only t).keeps .gen rfl
  have hregion (f : Owner → Owner) (t : State) : (updOwner 10 f t).gen = t.gen := (updOwner_only 10 f t).keeps .gen rfl
  rw [enterMode_gen]
  have hbefore := (hspared (updOwner 10 (fun o => { o with min := region, cap := region }) owners)).trans ((hregion ..).trans howners)
  exact ⟨rfl, rfl, congrArg (·.bootVerified) hbefore, congrArg (·.hostReleased) hbefore⟩

/-- While POR_N or PWR_FAIL_N is low, row 1 waits. -/
theorem rowOne_waits (h : s.pins.porN = false ∨ s.pins.pwrFailN = false) : rowOne s = s := by
  refine if_neg fun ⟨_, hpor, hpwr⟩ => ?_
  rcases h with h | h
  · exact Bool.false_ne_true (h.symm.trans hpor)
  · exact Bool.false_ne_true (h.symm.trans hpwr)

/-! A Y9 reset (R43). -/

/-- The device held in RESET by a row: its mode and cause, the pins of `s`, nothing in flight, and neither verified nor released. -/
structure InReset (row : Nat) (s u : State) : Prop where
  mode : u.gen.mode = .reset
  cause : u.gen.cause = row
  unverified : u.gen.bootVerified = false
  unreleased : u.gen.hostReleased = false
  pins : u.pins = s.pins
  cmds : u.cmds = []
  ctl : u.ctl = ⟨.reset, .reset⟩
  drained : isOn Reg.GEN_DRAIN.ACTIVE u = false
  told : row ≠ 23 → isOn Reg.GEN_RSTCAUSE.Y9RST u = true

/-- R43: a Y9 reset goes through RESET, from which row 1 follows while the pins allow it. -/
theorem y9Reset_inReset (clean : Bool) (row : Nat) (s : State) : ∃ u, y9Reset clean row s = rowOne u ∧ InReset row s u := by
  unfold y9Reset
  extract_lets _ stopped done cleared flagged _ held
  have hflagged : flagged.gen = (setMode row .reset stopped).gen :=
    ((flagOff_only ..).keeps .gen rfl).trans (((flagIf_only ..).keeps .gen rfl).trans (enterMode_gen ..))
  have hpins : flagged.pins = s.pins := by
    refine ((flagOff_only ..).keeps .pins rfl).trans (((flagIf_only ..).keeps .pins rfl).trans
      (((enterMode_only ..).keeps .pins rfl).trans ?_))
    unfold stopped
    split
    · exact (cleanStop_only s).keeps .pins rfl
    · rfl
  have hcleared : flagged.cmds = [] ∧ flagged.ctl = ⟨.reset, .reset⟩ :=
    ⟨((flagOff_only ..).keeps .cmds rfl).trans ((flagIf_only ..).keeps .cmds rfl),
      ((flagOff_only ..).keeps .ctl rfl).trans ((flagIf_only ..).keeps .ctl rfl)⟩
  have hdrained : isOn Reg.GEN_DRAIN.ACTIVE flagged = false := isOn_eq_false_of_getF (getF_flagOff_self ..)
  have htold (hrow : row ≠ 23) : isOn Reg.GEN_RSTCAUSE.Y9RST flagged = true := by
    have hon : isOn Reg.GEN_RSTCAUSE.Y9RST (flagIf (row != 23) Reg.GEN_RSTCAUSE.Y9RST cleared) = true := by
      rw [flagIf, if_pos (bne_iff_ne.mpr hrow)]
      exact isOn_flagOn _ (by decide)
    exact ((flagOff_only Reg.GEN_DRAIN.ACTIVE _).isOn_eq (by decide)).trans hon
  exact ⟨held, rfl, congrArg Gen.mode hflagged, congrArg Gen.cause hflagged, rfl, rfl, hpins, hcleared.1, hcleared.2, hdrained, htold⟩

/-- R43, R409: with POR_N and PWR_FAIL_N high a Y9 reset ends in BOOT. -/
theorem y9Reset_boots (clean : Bool) (row : Nat) (hpor : s.pins.porN = true) (hpwr : s.pins.pwrFailN = true) :
    (y9Reset clean row s).gen.mode = .boot ∧ (y9Reset clean row s).gen.cause = 1 ∧ (y9Reset clean row s).cmds = [] := by
  obtain ⟨u, hu, hheld⟩ := y9Reset_inReset clean row s
  have hpins := hheld.pins
  obtain ⟨hmode, hcause, -, -⟩ := rowOne_boots hheld.mode (hpins ▸ hpor) (hpins ▸ hpwr)
  have hcmds : (rowOne u).cmds = u.cmds := (rowOne_only u).keeps .cmds rfl
  exact hu ▸ ⟨hmode, hcause, hcmds.trans hheld.cmds⟩

/-- With one of them low it ends in RESET. -/
theorem y9Reset_held (clean : Bool) (row : Nat) (hlow : s.pins.porN = false ∨ s.pins.pwrFailN = false) :
    InReset row s (y9Reset clean row s) := by
  obtain ⟨u, hu, hheld⟩ := y9Reset_inReset clean row s
  rw [hu, rowOne_waits (hheld.pins ▸ hlow)]
  exact hheld

end

end Sys2Proof.Machine
end
section
/-! SUPPORT. Power-on reset, power failure and the end of DRAIN. Rules R36, R43, R47, R320, R408, R409. -/
namespace Sys2Proof.Machine
-- One theorem at a time: a thread for each would exhaust the memory the check allows.
set_option Elab.async false

section
variable {s : State}

/-! Power-on reset (R43, R408). -/

/-- What a power-on reset leaves: the state after reset, with device time at the newest time mark plus 10 s. -/
structure PoweredOn (u : State) : Prop where
  mode : u.gen.mode = .reset
  cause : u.gen.cause = 24
  por : u.pins.porN = false
  regs : ∀ f, getF f u = f.rst
  time : u.time.fabric = u.ff.timeMark + 10000000000
  cmds : u.cmds = []
  exported : u.me.exported = []

/-- R43, R320: every island is reset. -/
theorem poweredOn_powerOnReset (s : State) : PoweredOn (powerOnReset s) := ⟨rfl, rfl, rfl, fun _ => rfl, rfl, rfl, rfl⟩

/-- R43: a flush that is cut short changes nothing of it. -/
theorem poweredOn_powerOnNow (s : State) : PoweredOn (powerOnNow s) := by
  unfold powerOnNow
  split
  · exact poweredOn_powerOnReset _
  · exact poweredOn_powerOnReset s

/-! DRAIN (R47, R36). -/

/-- The device in DRAIN by row 14 from the mode `m`: nothing in flight, and no copy under way. -/
structure Draining (m : Mode) (s u : State) : Prop where
  mode : u.gen.mode = .drain
  cause : u.gen.cause = 14
  prev : u.gen.prev = m
  pins : u.pins = s.pins
  active : isOn Reg.GEN_DRAIN.ACTIVE u = true
  cmds : u.cmds = []
  racking : u.mm.racking = []

/-- R47: row 14. -/
theorem draining_enterDrain (s : State) : Draining s.gen.mode s (enterDrain s) := by
  unfold enterDrain
  extract_lets noticed killed entered _ _ held
  have hnoticed : noticed.gen = s.gen ∧ noticed.pins = s.pins := by
    unfold noticed
    split
    · exact ⟨rfl, rfl⟩
    · exact ⟨rfl, rfl⟩
    · split
      · exact ⟨rfl, rfl⟩
      · exact ⟨(sendCtrl_only ..).keeps .gen rfl, (sendCtrl_only ..).keeps .pins rfl⟩
  obtain ⟨hgen, hpins⟩ := hnoticed
  have hkilled : killed.gen = s.gen := ((killCmds_only ..).keeps .gen rfl).trans hgen
  obtain ⟨hmode, hcause, hprev⟩ := enterMode_mode 14 .drain killed
  have hheld : (abandonCopies held).gen = held.gen := (abandonCopies_only held).keeps .gen rfl
  have hcmds : entered.cmds = [] := ((enterMode_only ..).keeps .cmds rfl).trans (cmds_killCmds_all noticed)
  have hpin : entered.pins = s.pins :=
    ((enterMode_only ..).keeps .pins rfl).trans (((killCmds_only ..).keeps .pins rfl).trans hpins)
  exact ⟨hmode, hcause, hprev.trans (congrArg Gen.mode hkilled), hpin, isOn_flagOn _ (by decide), hcmds, rfl⟩

/-- A mode that serves media enters DRAIN when power fails. -/
theorem powerFail_media (h : mediaMode s.gen.mode = true) : powerFail s =
    enterDrain { s with pins := { s.pins with pwrFailN := false, huTest := false }, mg := { s.mg with verifying := none } } := by
  unfold powerFail
  cases hm : s.gen.mode <;> simp_all [mediaMode]

/-- BOOT, RECOVERY and PROVISION go to RESET by row 23. -/
theorem powerFail_start (h : s.gen.mode = .boot ∨ s.gen.mode = .recovery ∨ s.gen.mode = .provision) : powerFail s =
    y9Reset false 23 { s with pins := { s.pins with pwrFailN := false, huTest := false }, mg := { s.mg with verifying := none } } := by
  unfold powerFail
  rcases h with h | h | h <;> simp [h]

/-! The end of the flush (row 15). -/

/-- A Y9 reset without a clean stop, held in RESET, leaves the pending entries and the DRAIN-complete record; FI, disarmed, logs nothing. -/
theorem y9Reset_keepsDrainRecord {row : Nat} (hlow : s.pins.porN = false ∨ s.pins.pwrFailN = false) (hoff : s.fi.armed = false) :
    (y9Reset false row s).mg.pend = s.mg.pend ∧ (y9Reset false row s).nand.drainDone = s.nand.drainDone := by
  have hentered (t : State) (ht : t.fi.armed = false) : enterMode row .reset t = setMode row .reset t := fiDisarmed_disarmed ht
  unfold y9Reset
  extract_lets _ stopped done cleared flagged _ held
  have hpins : flagged.pins = s.pins :=
    ((flagOff_only ..).keeps .pins rfl).trans (((flagIf_only ..).keeps .pins rfl).trans ((enterMode_only ..).keeps .pins rfl))
  have hwaits : rowOne held = held := rowOne_waits (hpins.symm ▸ hlow)
  rw [hwaits]
  have hcleared : flagged.mg = cleared.mg ∧ flagged.nand = cleared.nand :=
    ⟨((flagOff_only ..).keeps .mg rfl).trans ((flagIf_only ..).keeps .mg rfl),
      ((flagOff_only ..).keeps .nand rfl).trans ((flagIf_only ..).keeps .nand rfl)⟩
  obtain ⟨hmg, hnand⟩ := hcleared
  refine ⟨(congrArg Mg.pend hmg).trans ?_, (congrArg Nand.drainDone hnand).trans ?_⟩
  · have hset : cleared = clearIslands (setMode row .reset stopped) := congrArg clearIslands (hentered stopped hoff)
    rw [hset]
    rfl
  · exact congrArg (·.drainDone) ((enterMode_only row .reset stopped).keeps .nand rfl)

/-- Steps 4 to 7 of Table 2.4: no entry waits, and the record stands. -/
theorem drainFlush_record (s : State) : (drainFlush s).mg.pend = [] ∧ (drainFlush s).nand.drainDone = true := ⟨rfl, rfl⟩

end

/-- Settles O2: a power-on reset is the state after reset, DRAIN and RESET are entered by their rows, and the end of the flush is a Y9
reset that PWR_FAIL_N holds in RESET. -/
theorem powerOnAndFailure : Obligations.PowerOnAndFailure := by
  refine ⟨?_, ?_, ?_, ?_, ?_, ?_, ?_, ?_, ?_⟩
  · -- POR_N low for 10 µs.
    intro lowUs s hlong
    have hexec : exec (.porNAssert lowUs) s = .next (powerOnNow s) := congrArg Host.Outcome.next (if_neg (by omega))
    have h := poweredOn_powerOnNow s
    exact ⟨_, hexec, (only_of_next (execPorNAssert_only ..) hexec).mono (.ofAll (by decide +kernel)), h.mode, h.cause, h.por, h.regs,
      h.time, h.cmds, h.exported⟩
  · -- A shorter pulse.
    exact fun lowUs s hshort => congrArg Host.Outcome.next (if_pos hshort)
  · -- POR_N deasserts.
    intro bifur pwrHighUs s hlow hmode hlong
    have hexec : exec (.porNDeassert bifur pwrHighUs) s =
        .next (rowOne { s with pins := { s.pins with porN := true, bifur := bifur, pwrFailN := true } }) := by
      have heff : porNDeassertEff bifur pwrHighUs s =
          rowOne { s with pins := { s.pins with porN := true, bifur := bifur, pwrFailN := true } } := by
        rw [porNDeassertEff, if_neg (by simp [hlow]), decide_eq_true hlong]
      exact congrArg Host.Outcome.next heff
    obtain ⟨hboot, hcause, -⟩ := rowOne_boots (s := { s with pins := { s.pins with porN := true, bifur := bifur, pwrFailN := true } })
      hmode rfl rfl
    have hpins := (rowOne_only { s with pins := { s.pins with porN := true, bifur := bifur, pwrFailN := true } }).keeps .pins rfl
    exact ⟨_, hexec, (only_of_next (execPorNDeassert_only ..) hexec).mono (.ofAll (by decide +kernel)), hboot, hcause,
      congrArg Pins.porN hpins, congrArg Pins.pwrFailN hpins, congrArg Pins.bifur hpins⟩
  · -- Power fails in a mode that serves media.
    intro lowNs s hlong hmode
    have hexec : exec (.pwrFailNAssert lowNs) s = .next (enterDrain _) :=
      congrArg Host.Outcome.next ((if_neg (by omega)).trans (powerFail_media hmode))
    have h := draining_enterDrain
      { s with pins := { s.pins with pwrFailN := false, huTest := false }, mg := { s.mg with verifying := none } }
    exact ⟨_, hexec, (only_of_next (execPwrFailNAssert_only ..) hexec).mono (.ofAll (by decide +kernel)), h.mode, h.cause, h.prev,
      congrArg Pins.pwrFailN h.pins, h.active, h.cmds, h.racking⟩
  · -- Power fails during start-up.
    intro lowNs s hlong hmode
    have hexec : exec (.pwrFailNAssert lowNs) s = .next (y9Reset false 23 _) :=
      congrArg Host.Outcome.next ((if_neg (by omega)).trans (powerFail_start hmode))
    have h := y9Reset_held false 23
      (s := { s with pins := { s.pins with pwrFailN := false, huTest := false }, mg := { s.mg with verifying := none } }) (.inr rfl)
    exact ⟨_, hexec, (only_of_next (execPwrFailNAssert_only ..) hexec).mono (.ofAll (by decide +kernel)), h.mode, h.cause, h.cmds⟩
  · -- A shorter pulse.
    exact fun lowNs s hshort => congrArg Host.Outcome.next (if_pos hshort)
  · -- PWR_FAIL_N deasserts outside RESET.
    exact fun highUs s hmode => congrArg Host.Outcome.next (if_neg hmode)
  · -- PWR_FAIL_N deasserts in RESET.
    intro highUs s hmode hpor hlong
    have hexec : exec (.pwrFailNDeassert highUs) s = .next (rowOne { s with pins := { s.pins with pwrFailN := true } }) :=
      congrArg Host.Outcome.next ((if_pos hmode).trans (if_neg (by omega)))
    obtain ⟨hboot, hcause, -⟩ := rowOne_boots (s := { s with pins := { s.pins with pwrFailN := true } }) hmode hpor rfl
    have hpins := (rowOne_only { s with pins := { s.pins with pwrFailN := true } }).keeps .pins rfl
    exact ⟨_, hexec, (only_of_next (execPwrFailNDeassert_only ..) hexec).mono (.ofAll (by decide +kernel)), hboot, hcause,
      congrArg Pins.pwrFailN hpins⟩
  · -- The flush of DRAIN ends.
    intro s hmode hlow hoff
    have hexec : exec .drainFlushComplete s = .next (y9Reset false 15 (drainFlush s)) := by
      have heff : drainFlushCompleteEff s = y9Reset false 15 (drainFlush s) := by rw [drainFlushCompleteEff, hmode]
      exact congrArg Host.Outcome.next heff
    have hpins : (drainFlush s).pins = s.pins := (drainFlush_only s).keeps .pins rfl
    have hfi : (drainFlush s).fi = s.fi := (drainFlush_only s).keeps .fi rfl
    have hheld : (drainFlush s).pins.porN = false ∨ (drainFlush s).pins.pwrFailN = false := .inr (hpins ▸ hlow)
    have h := y9Reset_held false 15 hheld
    obtain ⟨hpend, hdone⟩ := y9Reset_keepsDrainRecord (row := 15) hheld (hfi ▸ hoff)
    obtain ⟨hnone, hrecord⟩ := drainFlush_record s
    exact ⟨_, hexec, (only_of_next (execDrainFlushComplete_only ..) hexec).mono (.ofAll (by decide +kernel)), h.mode, h.cause,
      h.told (by decide), hdone.trans hrecord, hpend.trans hnone, h.drained, h.cmds⟩

end Sys2Proof.Machine
end
section
/-! SUPPORT. The twin's fence and heartbeat pins, and TSYNC_IN. Rules R36, R335, R319, R320, R330, R412. -/
namespace Sys2Proof.Machine
-- One theorem at a time: a thread for each would exhaust the memory the check allows.
set_option Elab.async false

section
variable {ns m : Nat} {s : State}

/-! A step of device time (R320). -/

/-- The clock moves by the step. -/
theorem now_timeStep (ns : Nat) (s : State) : now (timeStep ns s) = now s + ns := by
  have hadvance : now (advance ns s) = now s + ns := by
    unfold advance
    extract_lets t pulse _ moved
    split
    · exact congrArg (·.fabric) ((emits_only _ moved).keeps .time rfl)
    · rfl
  have hcorrected : now (corrected ns (advance ns s)) = now (advance ns s) := rfl
  unfold timeStep
  extract_lets _ moved _ _ _ _ _ _ _ _ stepped
  have hlogged : (logEvent 0x0501 0 11 true [ns] stepped).time = stepped.time := (logEvent_only ..).keeps .time rfl
  exact (congrArg (·.fabric) hlogged).trans (hcorrected.trans hadvance)

/-- The step is counted, and told. -/
theorem timeStep_counted (ns : Nat) (s : State) : isOn Reg.GF_ERR.TIMESTEP (timeStep ns s) = true ∧
    getF Reg.GF_TOFFS.STEPS (timeStep ns s) = Nat.min (getF Reg.GF_TOFFS.STEPS s + 1) (2 ^ Reg.GF_TOFFS.STEPS.width - 1) := by
  unfold timeStep
  extract_lets _ moved _ _ _ _ _ _ _ _ stepped
  refine ⟨isOn_flagOn _ (by decide), ?_⟩
  have hmoved : getF Reg.GF_TOFFS.STEPS moved = getF Reg.GF_TOFFS.STEPS s :=
    ((corrected_only ..).getF_eq (by decide)).trans ((advance_only ..).getF_eq (by decide))
  have hlogged : getF Reg.GF_TOFFS.STEPS (logEvent 0x0501 0 11 true [ns] stepped) = getF Reg.GF_TOFFS.STEPS s :=
    ((logEvent_only ..).getF_eq (by decide)).trans hmoved
  rw [(flagOn_only ..).getF_eq (by decide), bump, getF_bumpBy_self, hlogged]

/-- Device time goes forward to the whole second: in whole slots at once, the rest by slewing. -/
def steppedTo (d : Nat) (s : State) : State :=
  let u := timeStep (d - d % 4000) s
  { u with gf := { u.gf with slew := (d % 4000 : Nat) } }

/-- R320: a master that is ahead by a slot at most slows down. -/
theorem tsyncCorrect_slot (hm : m ≤ 4000) : tsyncCorrect m s = { s with gf := { s.gf with slew := -(m : Int) } } := if_pos hm

/-- R320: one further from the whole second is stepped forward to it. -/
theorem tsyncCorrect_steps (hlo : 4000 < m) (hhi : m < 999996000) : tsyncCorrect m s = steppedTo (1000000000 - m) s := by
  unfold tsyncCorrect
  rw [if_neg (by omega)]
  split
  · rfl
  · exact if_neg (by omega)

/-- R320: one that is behind by a slot at most speeds up. -/
theorem tsyncCorrect_behind (hlo : 999996000 ≤ m) :
    tsyncCorrect m s = { s with gf := { s.gf with slew := ((1000000000 - m : Nat) : Int) } } := by
  unfold tsyncCorrect
  rw [if_neg (by omega), if_neg (by omega)]
  exact if_pos (by omega)

/-- R320: an edge corrects a time master that takes it. -/
theorem tsyncInEdgeEff_master (hon : isOn Reg.GF_CFG.TSYNCEN s = true) (hmode : s.gen.mode ≠ .reset) :
    tsyncInEdgeEff s = tsyncCorrect (now s % 1000000000) s := if_pos ⟨hon, hmode⟩

/-! The fence (R335). -/

/-- The TWIN_FENCE_IN pin at a level. -/
def fenceAt (level : Bool) (s : State) : State := { s with pins := { s.pins with fenceIn := level } }

/-- R36: the fence takes every mode but three to QUARANTINE by row 20. -/
theorem twinFenceInAssertEff_enters (h : s.gen.mode ≠ .reset ∧ s.gen.mode ≠ .drain ∧ s.gen.mode ≠ .quarantine) :
    twinFenceInAssertEff s = enterQuarantine 20 (fenceAt true s) := quarantineNow_enters (s := fenceAt true s) h

/-- R335: a fenced member resets itself when the fence is released, its entry flush done first. -/
theorem twinFenceInDeassertEff_resets (hmode : s.gen.mode = .quarantine) (hst : s.tw.st = .fenced) :
    twinFenceInDeassertEff s = resetFromQuarantine (fenceAt false s) := if_pos ⟨hmode, hst⟩

/-- R36: the state that a Y9 reset from QUARANTINE starts from: the entry flush leaves the pins alone. -/
theorem flushed_pins (s : State) : (if s.gen.quarFlush then drainFlush s else s).pins = s.pins := by
  split
  · exact (drainFlush_only s).keeps .pins rfl
  · rfl

/-- QUARANTINE leaves the pins to the outside. -/
theorem enterQuarantine_pins (row : Nat) (s : State) : (enterQuarantine row s).pins = s.pins :=
  (enterQuarantine_only row s).keeps .pins rfl

end

/-- Settles O3: QUARANTINE by row 20, a Y9 reset of the fenced member, and the three corrections of a time master. -/
theorem fenceAndSyncPins : Obligations.FenceAndSyncPins := by
  refine ⟨?_, ?_, ?_, ?_, ?_, ?_, ?_, ?_, ?_⟩
  · -- The fence asserts.
    intro s hmode
    have hexec : exec .twinFenceInAssert s = .next (enterQuarantine 20 (fenceAt true s)) :=
      congrArg Host.Outcome.next (twinFenceInAssertEff_enters hmode)
    obtain ⟨hquar, hcause, ha, hb, hcmds⟩ := quarantined_enterQuarantine 20 (fenceAt true s)
    exact ⟨_, hexec, (only_of_next (execTwinFenceInAssert_only _) hexec).mono (.ofAll (by decide +kernel)), hquar, hcause,
      enterQuarantine_prev 20 (fenceAt true s), congrArg Pins.fenceIn (enterQuarantine_pins ..), ha, hb, hcmds⟩
  · -- The fence asserts where row 20 does not apply.
    exact fun s hmode => congrArg Host.Outcome.next (quarantineNow_stays (s := fenceAt true s) hmode)
  · -- The fence is released by a fenced member.
    intro s hmode hst hpor hpwr
    have hexec : exec .twinFenceInDeassert s = .next (resetFromQuarantine (fenceAt false s)) :=
      congrArg Host.Outcome.next (twinFenceInDeassertEff_resets hmode hst)
    have hpins := flushed_pins (fenceAt false s)
    obtain ⟨hboot, hcause, hcmds⟩ := y9Reset_boots
      (s := if (fenceAt false s).gen.quarFlush then drainFlush (fenceAt false s) else fenceAt false s)
      false 21 (by rw [hpins]; exact hpor) (by rw [hpins]; exact hpwr)
    have hreset : (resetFromQuarantine (fenceAt false s)).pins = _ := (y9Reset_only ..).keeps .pins rfl
    exact ⟨_, hexec, (only_of_next (execTwinFenceInDeassert_only _) hexec).mono (.ofAll (by decide +kernel)), hboot, hcause,
      congrArg Pins.fenceIn (hreset.trans hpins), hcmds⟩
  · -- The fence is released otherwise.
    intro s hfree
    exact congrArg Host.Outcome.next (if_neg fun h => hfree.elim (fun hst => hst h.2) (fun hmode => hmode h.1))
  · -- A heartbeat on path B.
    exact fun heldNs s hlong => congrArg Host.Outcome.next (if_neg (by omega))
  · -- A level held for less.
    exact fun heldNs s hshort => congrArg Host.Outcome.next (if_pos hshort)
  · -- Ahead by a slot at most.
    intro s hon hmode hslot
    exact congrArg Host.Outcome.next ((tsyncInEdgeEff_master hon hmode).trans (tsyncCorrect_slot hslot))
  · -- Further from the whole second.
    intro s hon hmode hlo hhi
    have hexec : exec .tsyncInEdge s = .next (steppedTo (1000000000 - now s % 1000000000) s) :=
      congrArg Host.Outcome.next ((tsyncInEdgeEff_master hon hmode).trans (tsyncCorrect_steps hlo hhi))
    obtain ⟨htold, hcount⟩ := timeStep_counted (1000000000 - now s % 1000000000 - (1000000000 - now s % 1000000000) % 4000) s
    refine ⟨_, hexec, (only_of_next (execTsyncInEdge_only s) hexec).mono (.ofAll (by decide +kernel)), ?_, rfl, htold, hcount⟩
    have hnow := now_timeStep (1000000000 - now s % 1000000000 - (1000000000 - now s % 1000000000) % 4000) s
    have hslots : 1000000000 - now s % 1000000000 - (1000000000 - now s % 1000000000) % 4000 =
        (1000000000 - now s % 1000000000) / 4000 * 4000 := by omega
    exact hnow.trans (congrArg (now s + ·) hslots)
  · -- Behind by a slot at most.
    intro s hon hmode hlo
    exact congrArg Host.Outcome.next ((tsyncInEdgeEff_master hon hmode).trans (tsyncCorrect_behind hlo))

end Sys2Proof.Machine
end
section
/-! SUPPORT. The resets that management and its own checks cause. Rules R43, R49, R80, R353, R367. -/
namespace Sys2Proof.Machine
-- One theorem at a time: a thread for each would exhaust the memory the check allows.
set_option Elab.async false

section
variable {s : State}

/-! What a management reset sets and a fault after it keeps: whether management runs, the sessions and the generation of KCTX. -/

/-- Whether management runs, its sessions, and the generation of the context key. -/
def mgmtView (s : State) : Bool × List (Nat × Nat × Bool) × Nat := (s.mg.run, s.dg.sessions, s.dg.kctxGen)

/-- What changes neither management nor the digest engine leaves the view alone. -/
theorem Only.mgmtView {w : List Fld} {s t : State} (h : Only w s t) (hm : covered w .mg = false) (hd : covered w .dg = false) :
    Machine.mgmtView t = Machine.mgmtView s := by
  have hmg : t.mg = s.mg := h.keeps .mg hm
  have hdg : t.dg = s.dg := h.keeps .dg hd
  rw [Machine.mgmtView, Machine.mgmtView, hmg, hdg]

/-- R372: an entry of the event log leaves management running or not. -/
theorem mgmtView_logEvent (code sev src : Nat) (coalesce : Bool) (data : List Nat) (s : State) :
    mgmtView (logEvent code sev src coalesce data s) = mgmtView s := by
  have hput (e : LogEntry) (m : Mg) : (logPut e coalesce m).1.run = m.run := by
    unfold logPut
    (repeat' split) <;> rfl
  have hlogged (t : State) : mgmtView (flagOn Reg.MG_ERR.LOGDROP (bump Reg.MG_LOGSTAT.DROPPED t)) = mgmtView t := rfl
  unfold logEvent
  extract_lets r logged
  have hentry : mgmtView logged = mgmtView s := by
    rw [mgmtView, mgmtView]
    exact congrArg (·, s.dg.sessions, s.dg.kctxGen) (hput ..)
  split
  · exact (hlogged _).trans hentry
  · exact hentry

/-- R394: FI's disarming does too. -/
theorem mgmtView_fiDisarmed (cause : Nat) (s : State) : mgmtView (fiDisarmed cause s) = mgmtView s := by
  by_cases harmed : s.fi.armed = true
  · rw [fiDisarmed_armed harmed, mgmtView_logEvent]
    rfl
  · rw [fiDisarmed_disarmed (Bool.eq_false_iff.mpr harmed)]

/-- R345: save slots follow the contexts; sessions and keys stay. -/
theorem mgmtView_fitSlots (s : State) : mgmtView (fitSlots s) = mgmtView s := by
  unfold fitSlots
  extract_lets need have_
  split
  · split
    · next is t ht => exact (Only.of_eq2 ht (bpAlloc_only ..)).mgmtView rfl rfl
    · next t ht => exact (Only.of_eq2 ht (bpAlloc_only ..)).mgmtView rfl rfl
  · exact (putBufs_only ..).mgmtView rfl rfl

/-- R44: commands that end leave management and its sessions alone. -/
theorem mgmtView_killCmds (dead : IoCmd → Bool) (s : State) : mgmtView (killCmds dead s) = mgmtView s := by
  unfold killCmds
  extract_lets ids closed live _ _ _ _ freed
  have hclosed : mgmtView closed = mgmtView s :=
    (mgmtView_fitSlots _).trans ((putBufs_only ..).mgmtView rfl rfl)
  have hreleased : mgmtView ((freed.mx.staged.map (·.stidx)).foldl (fun t i => releaseStaged i t) freed) = mgmtView freed :=
    (Only.foldl (w := [.mx, .bp]) (r := freed) (fun t i h => h.trans (releaseStaged_only i t)) (Only.refl ..)).mgmtView rfl rfl
  exact hreleased.trans hclosed

/-- R36: entering QUARANTINE leaves management and its sessions alone. -/
theorem mgmtView_enterQuarantine (row : Nat) (s : State) : mgmtView (enterQuarantine row s) = mgmtView s := by
  unfold enterQuarantine
  extract_lets _ _ fenced flush killed entered _ _ _ held copied told
  have hfenced : mgmtView fenced = mgmtView s := by
    unfold fenced
    split <;> rfl
  have hheld : mgmtView held = mgmtView s :=
    (mgmtView_fiDisarmed ..).trans ((mgmtView_killCmds ..).trans hfenced)
  have hcopied : mgmtView copied = mgmtView s :=
    ((flagIf_only ..).mgmtView rfl rfl).trans (((abandonCopies_only held).mgmtView rfl rfl).trans hheld)
  have htold : mgmtView told = mgmtView s := ((pcieError_only ..).mgmtView rfl rfl).trans hcopied
  split
  · exact ((pcieError_only ..).mgmtView rfl rfl).trans htold
  · exact htold

/-- R390: so does a fatal fault. -/
theorem mgmtView_fatalFault (s : State) : mgmtView (fatalFault s) = mgmtView s := by
  unfold fatalFault quarantineNow
  split
  · rfl
  · rfl
  · rfl
  · split
    · rfl
    · rfl
    · rfl
    · exact mgmtView_enterQuarantine 20 s

/-! The digest contexts that fail (R353). -/

/-- Contexts that win lanes leave sessions and keys alone. -/
theorem mgmtView_dgFill (n : Nat) (s : State) : mgmtView (dgFill n s) = mgmtView s := by
  induction n generalizing s with
  | zero => rfl
  | succ n ih =>
    unfold dgFill
    split
    · rfl
    · split
      · exact ih _
      · rfl

/-- Contexts that fail do too. -/
theorem mgmtView_dgFail (ids : List Nat) (cause : Nat) (s : State) : mgmtView (dgFail ids cause s) = mgmtView s := by
  have hfold (g : Ctx → Ctx) (l : List Nat) (t : State) : mgmtView (l.foldl (fun t i => updCtx i g t) t) = mgmtView t := by
    induction l generalizing t with
    | nil => rfl
    | cons i l ih => exact ih _
  exact (mgmtView_dgFill ..).trans ((mgmtView_fitSlots _).trans (hfold ..))

/-! A management reset (R367). -/

/-- Management after its reset, before a fatal fault may follow. -/
structure MgmtCleared (flag : Field) (s u : State) : Prop where
  view : mgmtView u = (false, [], s.dg.kctxGen + 1)
  told : isOn flag u = true
  gen : u.gen = s.gen
  cmds : u.cmds = s.cmds
  doeA : u.he.a.doeBusy = true
  doeB : u.he.b.doeBusy = true
  busy : u.ff.busy = none

/-- R367, R378: the FF command is abandoned. -/
theorem abandonFf_busy (s : State) : (abandonFf s).ff.busy = none := by
  unfold abandonFf
  split <;> rfl

/-- The places that a management reset writes beside its flag: no cause of a reset. -/
def mgmtResetFrame : List Fld := places [revoking] [.freeCtr, .he, .dg, .mg, .ff, .reg Reg.MG_WDOG.PERIOD, .reg Reg.FF_STATUS.BUSY]

/-- The places that a fatal fault writes: no cause of a reset. -/
def faultFrame : List Fld := places [posting, logging, revoking, disarming] [.gen, .cmds, .mx, .mm, .tw, .dg, .prov,
  .reg Reg.GEN_DRAIN.ACTIVE]

/-- How many management resets fell within the last 10 s. -/
def recentResets (s : State) : Nat := (s.mg.resets.filter (fun x => decide (now s < x + 10000000000))).length

/-- R367: outside RESET and DRAIN a management reset clears management; the third within 10 s is a fatal fault. -/
theorem managementReset_cleared {flag : Field} (hflag : covered mgmtResetFrame (.reg flag) = false) (hw : flag.width ≠ 0)
    (hmode : s.gen.mode ≠ .reset ∧ s.gen.mode ≠ .drain) : ∃ u, MgmtCleared flag s u ∧
    managementReset flag s = if 2 ≤ recentResets s then fatalFault u else u := by
  obtain ⟨hreset, hdrain⟩ := hmode
  unfold managementReset
  split
  · exact absurd ‹_› hreset
  · exact absurd ‹_› hdrain
  extract_lets flagged recent _ _ _ _ cleared stopped own failed
  have hstopped : Only [.freeCtr, .ff, .reg Reg.MG_WDOG.PERIOD, .reg Reg.FF_STATUS.BUSY] cleared stopped :=
    (((setF_only ..).mono (.ofAll (by decide +kernel))).trans ((abandonFf_only _).mono (.ofAll (by decide +kernel)))).trans
      ((flagOff_only ..).mono (.ofAll (by decide +kernel)))
  have hfailed : Only mgmtResetFrame cleared failed :=
    (hstopped.mono (.ofAll (by decide +kernel))).trans ((dgFail_only own 6 stopped).mono (.ofAll (by decide +kernel)))
  have hall : Only mgmtResetFrame flagged failed := .trans ⟨fun f hf => by cases f <;> first | rfl | trivial⟩ hfailed
  have hhe : failed.he = cleared.he := ((dgFail_only own 6 stopped).keeps .he rfl).trans (hstopped.keeps .he rfl)
  have hff : failed.ff = stopped.ff := (dgFail_only own 6 stopped).keeps .ff rfl
  refine ⟨failed, ⟨?_, ?_, ?_, ?_, ?_, ?_, ?_⟩, ?_⟩
  · exact (mgmtView_dgFail ..).trans (hstopped.mgmtView rfl rfl)
  · exact isOn_of_only_flagOn hall hflag hw
  · exact hall.keeps .gen rfl
  · exact hall.keeps .cmds rfl
  · rw [hhe]
  · rw [hhe]
  · rw [hff]
    exact abandonFf_busy _
  · have hlen : recent.length = recentResets s + 1 := List.length_append
    rw [hlen]
    exact if_congr (by omega) rfl rfl

/-- What R367 says of a management reset by the cause `flag`. -/
structure MgmtReset (flag : Field) (s t : State) : Prop where
  run : t.mg.run = false
  sessions : t.dg.sessions = []
  kctx : t.dg.kctxGen = s.dg.kctxGen + 1
  told : isOn flag t = true
  fresh : recentResets s < 2 → t.gen = s.gen ∧ t.cmds = s.cmds ∧ t.he.a.doeBusy = true ∧ t.he.b.doeBusy = true ∧ t.ff.busy = none
  third : 2 ≤ recentResets s → t.gen.mode = .quarantine ∧ (s.gen.mode ≠ .quarantine → t.gen.cause = 20)

/-- R390: a fatal fault outside RESET and DRAIN leaves QUARANTINE. -/
theorem fatalFault_mode (hmode : s.gen.mode ≠ .reset ∧ s.gen.mode ≠ .drain) :
    (fatalFault s).gen.mode = .quarantine ∧ (s.gen.mode ≠ .quarantine → (fatalFault s).gen.cause = 20) := by
  obtain ⟨hreset, hdrain⟩ := hmode
  by_cases hquar : s.gen.mode = .quarantine
  · have hstays : fatalFault s = s := by rw [fatalFault, hquar]
    exact ⟨(congrArg (·.gen.mode) hstays).trans hquar, fun h => absurd hquar h⟩
  · obtain ⟨hm, hcause, -⟩ := quarantined_fatalFault ⟨hreset, hdrain, hquar⟩
    exact ⟨hm, fun _ => hcause⟩

/-- R367: a management reset, whether or not a fatal fault follows. -/
theorem mgmtReset_managementReset {flag : Field} (hflag : covered mgmtResetFrame (.reg flag) = false)
    (hfault : covered faultFrame (.reg flag) = false) (hw : flag.width ≠ 0)
    (hmode : s.gen.mode ≠ .reset ∧ s.gen.mode ≠ .drain) : MgmtReset flag s (managementReset flag s) := by
  obtain ⟨u, hu, heq⟩ := managementReset_cleared hflag hw hmode
  have hview : mgmtView (managementReset flag s) = (false, [], s.dg.kctxGen + 1) := by
    rw [heq]
    split
    · exact (mgmtView_fatalFault u).trans hu.view
    · exact hu.view
  have htold : isOn flag (managementReset flag s) = true := by
    rw [heq]
    split
    · have hframe : Only faultFrame u (fatalFault u) := (fatalFault_only u).mono (.ofAll (by decide +kernel))
      exact (hframe.isOn_eq hfault).trans hu.told
    · exact hu.told
  refine ⟨congrArg (·.1) hview, congrArg (·.2.1) hview, congrArg (·.2.2) hview, htold, fun hfew => ?_, fun hmany => ?_⟩
  · rw [heq, if_neg (by omega)]
    exact ⟨hu.gen, hu.cmds, hu.doeA, hu.doeB, hu.busy⟩
  · rw [heq, if_pos hmany]
    have hgen := hu.gen
    exact hgen ▸ fatalFault_mode (hgen.symm ▸ hmode)

/-! GEN_RESET (R43, R49). -/

/-- A write of GEN_RESET without the token is refused. -/
theorem turnedAway_genErr (off : Nat) (hoff : off < 2 ^ 20) (who : Writer) (s : State) :
    Only (places [turnedAway] []) s (genErr Reg.GEN_ERR.OWNWR off who s) ∧
      isOn Reg.GEN_ERR.OWNWR (genErr Reg.GEN_ERR.OWNWR off who s) = true ∧
    getF Reg.GEN_ERRADDR.OFFSET (genErr Reg.GEN_ERR.OWNWR off who s) = off ∧
    getF Reg.GEN_ERRADDR.SRC (genErr Reg.GEN_ERR.OWNWR off who s) = writerSrc who ∧ (genErr Reg.GEN_ERR.OWNWR off who s).gen = s.gen := by
  refine ⟨(genErr_only ..).mono (.ofAll (by decide +kernel)), isOn_genErr _ _ _ (by decide) (by decide),
    (getF_offset_genErr ..).trans (Nat.mod_eq_of_lt hoff), ?_, rfl⟩
  rw [genErr, getF_setF_self]
  cases who <;> rfl

/-- R43: a requested Y9 reset outside RESET and DRAIN, and in QUARANTINE with the fence released, is a Y9 reset from the present pins. -/
theorem requestY9Reset_resets (hmode : s.gen.mode ≠ .reset ∧ s.gen.mode ≠ .drain)
    (hfence : s.gen.mode = .quarantine → s.pins.fenceIn = false) :
    ∃ clean row u, requestY9Reset s = y9Reset clean row u ∧ u.pins = s.pins := by
  obtain ⟨hreset, hdrain⟩ := hmode
  unfold requestY9Reset
  split
  · exact absurd ‹_› hreset
  · exact absurd ‹_› hdrain
  · exact ⟨_, _, _, rfl, rfl⟩
  · next hquar =>
    refine ⟨false, 21, _, if_neg (by simp [hfence hquar]), ?_⟩
    split
    · exact (drainFlush_only s).keeps .pins rfl
    · rfl
  · exact ⟨_, _, _, rfl, rfl⟩

end

/-- Settles O9: a Y9 reset goes through RESET, and a management reset by either cause clears management and, the third time, is a fatal
fault. -/
theorem resetRequests : Obligations.ResetRequests := by
  refine ⟨?_, ?_, ?_, ?_, ?_, ?_, ?_, ?_, ?_⟩
  · -- GEN_RESET.KIND = 001 by management.
    rintro _ _ s rfl rfl hown hmode hfence
    have hholds : holds .mgmt s = true := decide_eq_true hown
    obtain ⟨clean, row, u, heff, hpins⟩ := requestY9Reset_resets hmode hfence
    have hexec : exec (.genResetY9 .mgmt 0x7B4D) s = .next (y9Reset clean row u) :=
      congrArg Host.Outcome.next ((if_neg (not_not_intro hholds)).trans ((if_pos ⟨rfl, rfl⟩).trans heff))
    obtain ⟨v, hv, hheld⟩ := y9Reset_inReset clean row u
    have hvpins := hheld.pins.trans hpins
    refine ⟨_, hexec, (only_of_next (execGenResetY9_only ..) hexec).mono (.ofAll (by decide +kernel)), ?_⟩
    rw [hv]
    have hkeep := rowOne_only v
    have hcmds : (rowOne v).cmds = [] := (hkeep.keeps .cmds rfl).trans hheld.cmds
    have hpin : (rowOne v).pins = s.pins := (hkeep.keeps .pins rfl).trans hvpins
    refine ⟨hcmds, hpin, ?_⟩
    by_cases hhigh : s.pins.porN = true ∧ s.pins.pwrFailN = true
    · obtain ⟨hboot, hcause, hver, hrel⟩ := rowOne_boots hheld.mode (hvpins ▸ hhigh.1) (hvpins ▸ hhigh.2)
      refine ⟨hver.trans hheld.unverified, hrel.trans hheld.unreleased, fun _ => ⟨hboot, hcause⟩, fun hlow => ?_⟩
      simp [hhigh] at hlow
    · have hlow : v.pins.porN = false ∨ v.pins.pwrFailN = false := by
        rw [hvpins]
        simpa only [Bool.not_eq_true] using Decidable.not_and_iff_or_not.mp hhigh
      rw [rowOne_waits hlow]
      exact ⟨hheld.unverified, hheld.unreleased, fun h => absurd h hhigh, fun _ => ⟨hheld.mode, hheld.ctl⟩⟩
  · -- GEN_RESET.KIND = 001 without the token.
    intro who key s hother
    have hexec : exec (.genResetY9 who key) s = .next (genErr Reg.GEN_ERR.OWNWR 0x80018 who s) :=
      congrArg Host.Outcome.next (if_pos (ne_true_of_eq_false hother))
    exact ⟨_, hexec, turnedAway_genErr _ (by decide) who s⟩
  · -- GEN_RESET.KIND = 010.
    rintro who _ s hown rfl hmode
    have hexec : exec (.genResetManagement who 0x7B4D) s = .next (managementReset Reg.GEN_RSTCAUSE.MGRST s) :=
      congrArg Host.Outcome.next ((if_neg (not_not_intro hown)).trans (if_pos rfl))
    have h := mgmtReset_managementReset (flag := Reg.GEN_RSTCAUSE.MGRST) (by decide +kernel) (by decide +kernel) (by decide) hmode
    exact ⟨_, hexec, (only_of_next (execGenResetManagement_only ..) hexec).mono (.ofAll (by decide +kernel)), h.run, h.sessions, h.kctx,
      h.told, h.fresh, h.third⟩
  · -- GEN_RESET.KIND = 010 without the token.
    intro who key s hother
    have hexec : exec (.genResetManagement who key) s = .next (genErr Reg.GEN_ERR.OWNWR 0x80018 who s) :=
      congrArg Host.Outcome.next (if_pos (ne_true_of_eq_false hother))
    exact ⟨_, hexec, turnedAway_genErr _ (by decide) who s⟩
  · -- The watchdog while management runs.
    intro s hrun hmode
    have hexec : exec .watchdogExpiry s = .next (managementReset Reg.GEN_RSTCAUSE.WDOG s) := congrArg Host.Outcome.next (if_pos hrun)
    have h := mgmtReset_managementReset (flag := Reg.GEN_RSTCAUSE.WDOG) (by decide +kernel) (by decide +kernel) (by decide) hmode
    exact ⟨_, hexec, (only_of_next (execWatchdogExpiry_only ..) hexec).mono (.ofAll (by decide +kernel)), h.run, h.sessions, h.kctx,
      h.told, h.fresh, h.third⟩
  · -- A lockstep mismatch.
    intro s hmode
    have h := mgmtReset_managementReset (flag := Reg.GEN_RSTCAUSE.LOCKSTEP) (by decide +kernel) (by decide +kernel) (by decide) hmode
    exact ⟨_, rfl, (only_of_next (execLockstepMismatch_only s) rfl).mono (.ofAll (by decide +kernel)), h.run, h.sessions, h.kctx,
      h.told, h.fresh, h.third⟩
  · -- The watchdog while it does not.
    exact fun s hoff => congrArg Host.Outcome.next (if_neg (ne_true_of_eq_false hoff))
  · -- GEN_RESET.KIND = 001 by the host, or without the key.
    intro who key s hown hbad
    have hno : ¬(who = .mgmt ∧ key = 0x7B4D) := fun ⟨hwho, hkey⟩ => hbad.elim (fun h => by simp [h] at hwho) (fun h => h hkey)
    exact congrArg Host.Outcome.next ((if_neg (not_not_intro hown)).trans (if_neg hno))
  · -- GEN_RESET.KIND = 010 without the key.
    exact fun who key s hown hbad => congrArg Host.Outcome.next ((if_neg (not_not_intro hown)).trans (if_neg hbad))

end Sys2Proof.Machine
end

section
/-! SUPPORT. The resets that a host causes, the enable of a controller and its shutdown. Rules R43 to R45, R65, R79, R82. -/
namespace Sys2Proof.Machine
-- One theorem at a time: a thread for each would exhaust the memory the check allows.
set_option Elab.async false

section
variable {p q : Port} {s : State}

/-! Clearing a function (Table 2.4a). -/

/-- R82: a cleared controller is disabled and has no queue. -/
structure Cleared (c : Ctl) : Prop where
  en : c.en = false
  sqs : c.sqs = []
  cqs : c.cqs = []
  aers : c.aers = []

/-- Clearing a function clears its controller. -/
theorem cleared_clearQe (p : Port) (s : State) : Cleared ((clearQe p s).con p) := by
  obtain ⟨c, b, hcon⟩ := con_clearQe p s
  rw [hcon]
  exact ⟨rfl, rfl, rfl, rfl⟩

/-- Table 2.1: QUARANTINE holds CSTS.CFS at 1 while the function is cleared. -/
theorem cfs_clearQe (p : Port) (s : State) : ((clearQe p s).con p).cfs = decide (s.gen.mode = .quarantine) := by
  have hgen : (killCmds (fun c => decide (c.port = p)) s).gen = s.gen := (killCmds_only ..).keeps .gen rfl
  rw [← hgen]
  exact congrArg Ctl.cfs (con_updCon_self (killCmds (fun c => decide (c.port = p)) s) p (fun c => { c.cleared with
    cfs := decide ((killCmds (fun c => decide (c.port = p)) s).gen.mode = .quarantine) }))

/-- R44: a cleared function has no command left. -/
theorem port_ne_of_mem_clearQe {c : IoCmd} (h : c ∈ (clearQe p s).cmds) : c.port ≠ p := by
  rw [cmds_clearQe] at h
  exact of_decide_eq_false (not_dead_of_mem_killCmds h)

/-- Clearing a function brings back no command. -/
theorem mem_of_mem_clearQe {c : IoCmd} (h : c ∈ (clearQe p s).cmds) : c ∈ s.cmds := by
  rw [cmds_clearQe, cmds_killCmds] at h
  exact List.mem_of_mem_filter h

/-! A Conventional reset (R43). -/

/-- Table 2.4a: a Conventional reset clears both ports, but for the CMB contents, and both functions. -/
structure ConventionallyReset (s t : State) : Prop where
  he : t.he = ⟨s.he.a.conventional, s.he.b.conventional⟩
  a : Cleared t.ctl.a
  b : Cleared t.ctl.b
  cmds : ∀ c ∈ t.cmds, c.port ≠ .a ∧ c.port ≠ .b

/-- R43: `conventional` is such a reset. -/
theorem conventionallyReset (s : State) : ConventionallyReset s (conventional s) := by
  unfold conventional
  extract_lets cleared reset
  have hkeep : Only [.regs] reset (loadLocked 0x88000 0x90000 reset) := (loadLocked_only ..).mono (.ofAll (by decide +kernel))
  have hhe : cleared.he = s.he := ((clearQe_only ..).keeps .he rfl).trans ((clearQe_only ..).keeps .he rfl)
  have hctl : (loadLocked 0x88000 0x90000 reset).ctl = cleared.ctl := hkeep.keeps .ctl rfl
  have hcmds : (loadLocked 0x88000 0x90000 reset).cmds = cleared.cmds := hkeep.keeps .cmds rfl
  have ha : cleared.ctl.a = (clearQe .a s).ctl.a := con_clearQe_ne (p := .a) (q := .b) (by decide)
  refine ⟨(hkeep.keeps .he rfl).trans (by rw [← hhe]), ?_, ?_, fun c hc => ?_⟩
  · rw [hctl, ha]
    exact cleared_clearQe .a s
  · rw [hctl]
    exact cleared_clearQe .b (clearQe .a s)
  · rw [hcmds] at hc
    exact ⟨port_ne_of_mem_clearQe (mem_of_mem_clearQe hc), port_ne_of_mem_clearQe hc⟩

/-! CC.EN (R82). -/

/-- R82: CC.EN is taken while the function exists, is released, is not in D3hot, is disabled, and the mode allows a host's reset. -/
theorem exec_ccEnSet_taken {iosqes iocqes mps ams css asqs acqs asq acq : Nat} (hport : portExists p s = true)
    (hrel : s.gen.hostReleased = true) (hd3 : (s.port p).d3hot = false) (hen : (s.con p).en = false)
    (hmode : hostResetMode s.gen.mode = true) :
    exec (.ccEnSet p iosqes iocqes mps ams css asqs acqs asq acq) s =
      .next ({ s with gen := { s.gen with cleanStop := false } }.updCon p (fun c =>
        { c with en := true, iosqes := iosqes, iocqes := iocqes, mps := mps, ams := ams, css := css, asqs := asqs, acqs := acqs,
                 asq := asq, acq := acq, cfs := c.cfs || ccInvalid iosqes iocqes mps ams asqs acqs, shst := 0,
                 sqs := if ccInvalid iosqes iocqes mps ams asqs acqs then [] else [adminSq asqs asq],
                 cqs := if ccInvalid iosqes iocqes mps ams asqs acqs then [] else [adminCq acqs acq] })) :=
  congrArg Host.Outcome.next (if_neg (by simp [hport, hrel, hd3, hen, hmode]))

/-! The shutdown notification (R45). -/

/-- R45: a clean stop is recorded. -/
theorem cleanStop_gen (s : State) : (cleanStop s).gen.cleanStop = true := by
  unfold cleanStop
  split <;> rfl

/-- R45: a notification is taken outside QUARANTINE while the function exists and is not in D3hot. -/
theorem exec_shutdownNotification_taken {shn : BitVec 2} (hmode : hostResetMode s.gen.mode = true) (hport : portExists p s = true)
    (hquar : s.gen.mode ≠ .quarantine) (hd3 : (s.port p).d3hot = false) :
    exec (.shutdownNotification p shn) s = .next (if shn = 1 ∨ shn = 2 then
      (if mediaMode s.gen.mode ∧ s.mx.recovered then cleanStop s else s).updCon p (fun c => { c with shn := shn.toNat, shst := 2 })
      else s.updCon p (fun c => { c with shn := shn.toNat })) :=
  congrArg Host.Outcome.next (if_neg (by simp [hport, hquar, hd3, hmode]))

end

/-- Settles O10: each host-side reset clears the functions it names, and a shutdown ends with SHST = 10b. -/
theorem hostSideResets : Obligations.HostSideResets := by
  refine ⟨?_, ?_, ?_, ?_, ?_, ?_, ?_⟩
  · -- A Conventional reset.
    intro cause s hmode
    have hexec : exec (.conventionalReset cause) s = .next (flagOn Reg.GEN_RSTCAUSE.PERST (conventional s)) :=
      congrArg Host.Outcome.next (if_pos hmode)
    have h := conventionallyReset s
    have hhe : (flagOn Reg.GEN_RSTCAUSE.PERST (conventional s)).he = ⟨s.he.a.conventional, s.he.b.conventional⟩ := h.he
    refine ⟨_, hexec, (only_of_next (execConventionalReset_only cause s) hexec).mono (.ofAll (by decide +kernel)),
      ?_, ?_, ?_, ?_, ?_, h.a.en,
      h.b.en, h.a.sqs, h.b.sqs, isOn_flagOn _ (by decide), h.cmds⟩
    all_goals
      rw [hhe]
      rfl
  · -- An FLR.
    intro port s hmode hport
    have hexec : exec (.functionLevelReset port) s = .next (flagOn (portF port Reg.GEN_RSTCAUSE.FLR0 Reg.GEN_RSTCAUSE.FLR1)
        ((clearQe port s).updPort port HostPort.flr)) := congrArg Host.Outcome.next (if_pos ⟨hmode, hport⟩)
    have hp : (flagOn (portF port Reg.GEN_RSTCAUSE.FLR0 Reg.GEN_RSTCAUSE.FLR1)
        ((clearQe port s).updPort port HostPort.flr)).port port = (s.port port).flr := by
      rw [(flagOn_only ..).port_eq (by cases port <;> rfl), port_updPort_self, (clearQe_only ..).port_eq rfl]
    have hc := cleared_clearQe port s
    refine ⟨_, hexec, (only_of_next (execFunctionLevelReset_only ..) hexec).mono (.ofAll (by decide +kernel)), hc.en, hc.sqs, ?_⟩
    rw [hp]
    exact ⟨rfl, rfl, rfl, rfl, isOn_flagOn _ (by cases port <;> decide), fun _ => port_ne_of_mem_clearQe⟩
  · -- CC.EN set with a valid configuration.
    intro port iosqes iocqes mps ams css asqs acqs asq acq s hport hrel hd3 hen hmode hvalid
    have hexec := exec_ccEnSet_taken (iosqes := iosqes) (iocqes := iocqes) (mps := mps) (ams := ams) (css := css)
      (asqs := asqs) (acqs := acqs) (asq := asq) (acq := acq) hport hrel hd3 hen hmode
    refine ⟨_, hexec, (only_of_next (execCcEnSet_only ..) hexec).mono (.ofAll (by decide +kernel)), ?_⟩
    rw [con_updCon_self, hvalid]
    exact ⟨rfl, Bool.or_false _, rfl, rfl⟩
  · -- CC.EN set with an invalid one.
    intro port iosqes iocqes mps ams css asqs acqs asq acq s hport hrel hd3 hen hmode hbad
    have hexec := exec_ccEnSet_taken (iosqes := iosqes) (iocqes := iocqes) (mps := mps) (ams := ams) (css := css)
      (asqs := asqs) (acqs := acqs) (asq := asq) (acq := acq) hport hrel hd3 hen hmode
    refine ⟨_, hexec, (only_of_next (execCcEnSet_only ..) hexec).mono (.ofAll (by decide +kernel)), ?_⟩
    rw [rdy, con_updCon_self, hbad]
    exact ⟨Bool.or_true _, rfl, by simp⟩
  · -- CC.EN cleared.
    intro port s hmode hen hd3
    have hexec : exec (.ccEnClear port) s = .next (clearQe port s) :=
      congrArg Host.Outcome.next (if_pos ⟨hmode, hen, ne_true_of_eq_false hd3⟩)
    have hc := cleared_clearQe port s
    exact ⟨_, hexec, (only_of_next (execCcEnClear_only ..) hexec).mono (.ofAll (by decide +kernel)), hc.en, hc.sqs, hc.cqs, hc.aers,
      cfs_clearQe port s, fun _ => port_ne_of_mem_clearQe⟩
  · -- A shutdown notification.
    intro port shn s hmode hport hquar hshn hd3
    have hexec := (exec_shutdownNotification_taken hmode hport hquar hd3).trans (congrArg Host.Outcome.next (if_pos hshn))
    refine ⟨_, hexec, (only_of_next (execShutdownNotification_only ..) hexec).mono (.ofAll (by decide +kernel)), ?_, ?_,
      fun hmedia hrec => ?_⟩
    · rw [con_updCon_self]
    · rw [con_updCon_self]
    · rw [if_pos ⟨hmedia, hrec⟩]
      exact cleanStop_gen s
  · -- CC.SHN with no notification.
    intro port shn s hmode hport hquar hshn hd3
    exact (exec_shutdownNotification_taken hmode hport hquar hd3).trans (congrArg Host.Outcome.next (if_neg (not_or.mpr hshn)))

end Sys2Proof.Machine
end

section
/-! SUPPORT. Mode requests by GEN_MODEREQ. Rules R34, R36, R49. -/
namespace Sys2Proof.Machine
-- One theorem at a time: a thread for each would exhaust the memory the check allows.
set_option Elab.async false

section
variable {who : Writer} {key : BitVec 16} {target : Mode} {allowed : Bool} {grant : State → State} {s : State}

/-! The two forms of a request (Table 2.8). -/

/-- A request that the mode allows waits, after its first key, for the second. -/
theorem twoStep_first (hown : holds who s = true) (hallowed : allowed = true) :
    twoStep who 0xA1A1 target allowed grant s = { s with gen := { s.gen with reqTarget := some target } } := by
  simp [twoStep, hown, hallowed]

/-- The second key grants it. -/
theorem twoStep_second (hown : holds who s = true) (hallowed : allowed = true) (htarget : s.gen.reqTarget = some target) :
    twoStep who 0x5E5E target allowed grant s = grant { s with gen := { s.gen with reqTarget := none } } := by
  simp [twoStep, hown, hallowed, htarget]

/-- A request that the mode does not allow is refused. -/
theorem twoStep_refused (hown : holds who s = true) (hkey : key ≠ 0) (hallowed : allowed = false) :
    twoStep who key target allowed grant s = modereqRefused who s :=
  (if_neg (not_not_intro hown)).trans ((if_neg hkey).trans (if_pos (ne_true_of_eq_false hallowed)))

/-- KEY 0 writes nothing. -/
theorem twoStep_none (hown : holds who s = true) : twoStep who 0 target allowed grant s = s := by
  simp [twoStep, hown]

/-- A request of one step is granted by its key where the mode allows it. -/
theorem oneStep_granted (hown : holds who s = true) (hallowed : allowed = true) :
    oneStep who 0x5E5E allowed grant s = grant { s with gen := { s.gen with reqTarget := none } } := by
  simp [oneStep, hown, hallowed]

/-- And refused where it does not. -/
theorem oneStep_refused (hown : holds who s = true) (hkey : key ≠ 0) (hallowed : allowed = false) :
    oneStep who key allowed grant s = modereqRefused who s :=
  (if_neg (not_not_intro hown)).trans ((if_neg hkey).trans (if_neg fun h => ne_true_of_eq_false hallowed h.1))

/-- Table 2.8: a refusal sets MODEREQ with the offset and the writer, and forgets a first key. -/
theorem modereqRefused_tells (who : Writer) (s : State) :
    Only [.gen, .reg Reg.GEN_ERR.MODEREQ, .reg Reg.GEN_ERRADDR.OFFSET, .reg Reg.GEN_ERRADDR.SRC] s (modereqRefused who s) ∧
    isOn Reg.GEN_ERR.MODEREQ (modereqRefused who s) = true ∧ getF Reg.GEN_ERRADDR.OFFSET (modereqRefused who s) = 0x80008 ∧
    getF Reg.GEN_ERRADDR.SRC (modereqRefused who s) = writerSrc who ∧ (modereqRefused who s).gen = { s.gen with reqTarget := none } := by
  refine ⟨modereqRefused_only who s, isOn_genErr _ _ _ (by decide) (by decide), getF_offset_genErr .., ?_, rfl⟩
  rw [modereqRefused, genErr, getF_setF_self]
  cases who <;> rfl

/-- R34 row 20: outside RESET, DRAIN and QUARANTINE a granted request enters QUARANTINE. -/
theorem quarantined_quarantineNow (hmode : hostResetMode s.gen.mode = true) (hquar : s.gen.mode ≠ .quarantine) :
    Quarantined 20 (quarantineNow s) := by
  have hreset : s.gen.mode ≠ .reset := fun h => by simp [h, hostResetMode] at hmode
  have hdrain : s.gen.mode ≠ .drain := fun h => by simp [h, hostResetMode] at hmode
  rw [quarantineNow_enters ⟨hreset, hdrain, hquar⟩]
  exact quarantined_enterQuarantine 20 s

end

/-- Settles O11: the keys, the token and the mode decide what becomes of a request. -/
theorem modeRequests : Obligations.ModeRequests := by
  refine ⟨?_, ?_, ?_, ?_, ?_, ?_, ?_, ?_, ?_, ?_, ?_, ?_, ?_⟩
  · -- The first key of DIAGNOSTIC.
    rintro who _ s hown hmode rfl
    exact congrArg Host.Outcome.next (twoStep_first hown (decide_eq_true hmode))
  · -- The second.
    rintro who _ s hown hmode rfl htarget
    exact congrArg Host.Outcome.next (twoStep_second hown (decide_eq_true hmode) htarget)
  · -- DIAGNOSTIC outside SERVICE.
    intro who key s hown hmode hkey
    exact ⟨_, congrArg Host.Outcome.next (twoStep_refused hown hkey (decide_eq_false hmode)), modereqRefused_tells who s⟩
  · -- Without the token.
    intro who key s hother
    exact ⟨_, congrArg Host.Outcome.next (if_pos (ne_true_of_eq_false hother)), turnedAway_genErr _ (by decide) who s⟩
  · -- Row 18: no command under a bound is left.
    intro s hmode hpend hdone
    have hexec : exec .diagnosticEntry s = .next (enterModeEv 18 .diagnostic { s with gen := { s.gen with diagPending := false } }) :=
      congrArg Host.Outcome.next (if_pos ⟨hmode, hpend, hdone⟩)
    refine ⟨_, hexec, (only_of_next (execDiagnosticEntry_only s) hexec).mono (.ofAll (by decide +kernel)), ?_, ?_, ?_, ?_, ?_⟩
    · rw [enterModeEv_gen]
      rfl
    · rw [enterModeEv_gen]
      rfl
    · rw [enterModeEv_gen]
      exact hmode
    · rw [enterModeEv_gen]
      rfl
    · exact (enterModeEv_only ..).keeps .cmds rfl
  · -- Row 18 does not apply.
    intro s hwait
    refine congrArg Host.Outcome.next (if_neg fun ⟨hmode, hpend, hdone⟩ => ?_)
    rcases hwait with h | h | h
    · exact h hmode
    · exact Bool.false_ne_true (h.symm.trans hpend)
    · exact Bool.false_ne_true (h.symm.trans hdone)
  · -- Row 19.
    rintro who _ s hown hmode rfl
    have hexec : exec (.genModereqService who 0x5E5E) s =
        .next (enterModeEv 19 .service { s with gen := { s.gen with reqTarget := none } }) :=
      congrArg Host.Outcome.next (oneStep_granted hown (decide_eq_true hmode))
    obtain ⟨hm, hcause, hprev⟩ := enterModeEv_mode 19 .service { s with gen := { s.gen with reqTarget := none } }
    exact ⟨_, hexec, (only_of_next (execGenModereqService_only ..) hexec).mono (.ofAll (by decide +kernel)), hm, hcause, hprev.trans hmode⟩
  · -- SERVICE outside DIAGNOSTIC.
    intro who key s hown hmode hkey
    exact ⟨_, congrArg Host.Outcome.next (oneStep_refused hown hkey (decide_eq_false hmode)), modereqRefused_tells who s⟩
  · -- Row 20.
    rintro who _ s hown hmode hquar rfl
    have hexec : exec (.genModereqQuarantine who 0x5E5E) s = .next (quarantineNow { s with gen := { s.gen with reqTarget := none } }) :=
      congrArg Host.Outcome.next (oneStep_granted hown hmode)
    obtain ⟨hm, hcause, ha, hb, -⟩ := quarantined_quarantineNow (s := { s with gen := { s.gen with reqTarget := none } }) hmode hquar
    exact ⟨_, hexec, (only_of_next (execGenModereqQuarantine_only ..) hexec).mono (.ofAll (by decide +kernel)), hm, hcause, ha, hb⟩
  · -- Row 22.
    rintro who _ s hown hmode hempty rfl htarget
    have hexec : exec (.genModereqProvision who 0x5E5E) s =
        .next (enterModeEv 22 .provision { s with gen := { s.gen with reqTarget := none } }) :=
      congrArg Host.Outcome.next (twoStep_second hown (decide_eq_true ⟨hmode, hempty⟩) htarget)
    obtain ⟨hm, hcause, -⟩ := enterModeEv_mode 22 .provision { s with gen := { s.gen with reqTarget := none } }
    refine ⟨_, hexec, (only_of_next (execGenModereqProvision_only ..) hexec).mono (.ofAll (by decide +kernel)), hm, hcause, ?_⟩
    rw [enterModeEv_gen]
    rfl
  · -- PROVISION with a namespace.
    intro who key s hown hmode hns hkey
    exact ⟨_, congrArg Host.Outcome.next (twoStep_refused hown hkey (decide_eq_false fun h => hns h.2)), modereqRefused_tells who s⟩
  · -- The first key lapses.
    exact fun s => rfl
  · -- KEY 0.
    rintro who _ s hown rfl
    exact congrArg Host.Outcome.next (twoStep_none hown)

end Sys2Proof.Machine
end

section
/-! SUPPORT. The provisioning commit and the setup token. Rules R34, R38, R49, R50, R213, R317. -/
namespace Sys2Proof.Machine
-- One theorem at a time: a thread for each would exhaust the memory the check allows.
set_option Elab.async false

section
variable {who : Writer} {s : State}

/-! The commit (R50). -/

/-- R50: a commit leaves a valid record and the device's identity. -/
theorem provision_recorded (s : State) : (provision s).prov.valid = true ∧ (provision s).ff.identity = true := by
  unfold provision
  extract_lets _ bad l gs exp base locked _ grouped owned cap _ _ _ _ recorded counted journalled
  have hcounted : Only [.reg Reg.MM_RETIRE.COUNT] recorded counted := bumpBy_only ..
  have hjournalled : Only [.mx, .mm, .nand] counted journalled :=
    ((jAppend_only ..).mono (.ofAll (by decide +kernel))).trans (journalNow_only _)
  constructor
  · have hprov := ((snapDurableNow_only { snapNow journalled with seq := 1 } journalled).keeps .prov rfl).trans
      ((hjournalled.keeps .prov rfl).trans (hcounted.keeps .prov rfl))
    exact congrArg Prov.valid hprov
  · have hff := ((snapDurableNow_only { snapNow journalled with seq := 1 } journalled).keeps .ff rfl).trans
      ((hjournalled.keeps .ff rfl).trans (hcounted.keeps .ff rfl))
    exact congrArg Ff.identity hff

/-- R50: in PROVISION a commit by the holder with every value admissible enters SERVICE or sets SLOWGEO. -/
theorem exec_provisioningCommit_admissible (hmode : s.gen.mode = .provision) (hown : holds who s = true) (hgood : commitBad s = false) :
    exec (.provisioningCommit who) s =
      .next (if 55000 < worstStartup s then flagOn Reg.GEN_START.SLOWGEO s else enterModeEv 6 .service (provision s)) :=
  congrArg Host.Outcome.next ((if_neg (not_not_intro hmode)).trans ((if_neg (not_not_intro hown)).trans
    (if_neg (ne_true_of_eq_false hgood))))

end

/-- Settles O12: a commit is recorded, refused or too slow, and the token moves only as R49 says. -/
theorem provisioningAndToken : Obligations.ProvisioningAndToken := by
  refine ⟨?_, ?_, ?_, ?_, ?_, ?_, ?_, ?_, ?_, ?_, ?_, ?_, ?_⟩
  · -- A commit that is admissible.
    intro who s hmode hown hgood hfast
    have hexec : exec (.provisioningCommit who) s = .next (enterModeEv 6 .service (provision s)) :=
      (exec_provisioningCommit_admissible hmode hown hgood).trans (congrArg Host.Outcome.next (if_neg (Nat.not_lt.mpr hfast)))
    obtain ⟨hm, hcause, -⟩ := enterModeEv_mode 6 .service (provision s)
    obtain ⟨hvalid, hident⟩ := provision_recorded s
    refine ⟨_, hexec, (only_of_next (execProvisioningCommit_only ..) hexec).mono (.ofAll (by decide +kernel)), hm, hcause, ?_, ?_⟩
    · exact (congrArg Prov.valid ((evModeChanged_only _).keeps .prov rfl)).trans ((enterMode_valid ..).trans hvalid)
    · exact (congrArg Ff.identity ((enterModeEv_only ..).keeps .ff rfl)).trans hident
  · -- A value out of range.
    intro who s hmode hown hbad
    have hexec : exec (.provisioningCommit who) s =
        .next (genErr Reg.GEN_ERR.RANGE (Config.freeValue s.freeCtr % 2 ^ 20) who (tickFree s)) :=
      congrArg Host.Outcome.next ((if_neg (not_not_intro hmode)).trans ((if_neg (not_not_intro hown)).trans (if_pos hbad)))
    have hsrc : getF Reg.GEN_ERRADDR.SRC (genErr Reg.GEN_ERR.RANGE (Config.freeValue s.freeCtr % 2 ^ 20) who (tickFree s)) =
        writerSrc who := by
      rw [genErr, getF_setF_self]
      cases who <;> rfl
    exact ⟨_, hexec, ((tickFree_only s).mono (.ofAll (by decide +kernel))).trans ((genErr_only ..).mono (.ofAll (by decide +kernel))),
      isOn_genErr _ _ _ (by decide) (by decide), hsrc, rfl, rfl⟩
  · -- A commit outside PROVISION.
    exact fun who s hmode => congrArg Host.Outcome.next (if_pos hmode)
  · -- CLAIM of a free token.
    exact fun who s hfree => congrArg Host.Outcome.next (if_pos hfree)
  · -- CLAIM of another's.
    intro who s hheld hother
    exact ⟨_, congrArg Host.Outcome.next ((if_neg hheld).trans (if_neg (ne_true_of_eq_false hother))),
      turnedAway_genErr _ (by decide) who s⟩
  · -- CLAIM by the holder.
    intro who s hown
    have hheld : s.gen.holder ≠ .none := by
      rw [show s.gen.holder = writerHolder who from of_decide_eq_true hown]
      cases who <;> decide
    exact congrArg Host.Outcome.next ((if_neg hheld).trans (if_pos hown))
  · -- RELEASE by the holder.
    exact fun who s hown => congrArg Host.Outcome.next (if_pos hown)
  · -- RELEASE by another.
    intro who s hother
    exact ⟨_, congrArg Host.Outcome.next (if_neg (ne_true_of_eq_false hother)), turnedAway_genErr _ (by decide) who s⟩
  · -- SEIZE by management.
    intro s hother
    have hexec : exec (.genOwnerSeize .mgmt) s =
        .next (evModeChanged (flagOn Reg.GEN_OWNER.SEIZED { s with gen := { s.gen with holder := .mgmt } })) :=
      congrArg Host.Outcome.next (if_neg hother)
    have hgen : (evModeChanged (flagOn Reg.GEN_OWNER.SEIZED { s with gen := { s.gen with holder := .mgmt } })).gen =
        { s.gen with holder := .mgmt } := (evModeChanged_only _).keeps .gen rfl
    exact ⟨_, hexec, (only_of_next (execGenOwnerSeize_only ..) hexec).mono (.ofAll (by decide +kernel)), (congrArg Gen.holder hgen :),
      isOn_of_only_flagOn (evModeChanged_only _) (by decide) (by decide), (congrArg Gen.mode hgen :)⟩
  · -- SEIZE by the host.
    exact fun s => ⟨_, rfl, turnedAway_genErr _ (by decide) .host s⟩
  · -- SEIZED cleared by the holder.
    exact fun who s hown => congrArg Host.Outcome.next (if_pos hown)
  · -- SEIZED cleared by another.
    intro who s hother
    exact ⟨_, congrArg Host.Outcome.next (if_neg (ne_true_of_eq_false hother)), turnedAway_genErr _ (by decide) who s⟩
  · -- A geometry that starts too slowly.
    intro who s hmode hown hgood
    have hexec := exec_provisioningCommit_admissible hmode hown hgood
    refine ⟨_, hexec, (only_of_next (execProvisioningCommit_only ..) hexec).mono (.ofAll (by decide +kernel)), fun hslow => ?_⟩
    rw [if_pos hslow]
    exact ⟨isOn_flagOn _ (by decide), rfl⟩

end Sys2Proof.Machine
end

section
/-! SUPPORT. Doorbells, the fetch of an entry and shadow polling. Rules R78, R86, R88 to R90, R117. -/
namespace Sys2Proof.Machine
-- One theorem at a time: a thread for each would exhaust the memory the check allows.
set_option Elab.async false

section
variable {p : Port} {poisoned : Bool} {qid value : Nat} {s : State}

/-! What precedes a doorbell's effect. -/

/-- The port after a doorbell's write: out of L1. -/
theorem port_doorbellIn (p : Port) (poisoned : Bool) (s : State) :
    (doorbellIn p poisoned s).port p = { s.port p with l1 := false, l12 := false } := by
  have hflag (t : State) (c : Bool) : (flagIf c (portF p Reg.HE_ERRSTAT.A_POISRX Reg.HE_ERRSTAT.B_POISRX) t).port p = t.port p := by
    cases p <;> exact (flagIf_only ..).port_eq rfl _
  exact (hflag ..).trans (port_updPort_self ..)

/-- Leaving L1 opens or closes nothing. -/
theorem memOpen_doorbellIn (p : Port) (poisoned : Bool) (s : State) : memOpen p (doorbellIn p poisoned s) = memOpen p s := by
  have hport := port_doorbellIn p poisoned s
  have hpins : (doorbellIn p poisoned s).pins = s.pins := (doorbellIn_only ..).keeps .pins rfl
  have hgen : (doorbellIn p poisoned s).gen = s.gen := (doorbellIn_only ..).keeps .gen rfl
  rw [memOpen, memOpen, hport, heAnswers, heAnswers, hgen]
  cases p with
  | a => rfl
  | b => rw [portExists, portExists, hpins]

/-- A poisoned write to a function that answers is flagged. -/
theorem doorbellIn_poisoned (h : memOpen p s = true) : isOn (portF p Reg.HE_ERRSTAT.A_POISRX Reg.HE_ERRSTAT.B_POISRX)
    (doorbellIn p true s) = true := by
  have hopen : memOpen p (s.updPort p (fun h => { h with l1 := false, l12 := false })) = true := by
    refine Eq.trans ?_ h
    cases p <;> rfl
  unfold doorbellIn
  extract_lets left
  rw [hopen]
  exact isOn_flagOn _ (by cases p <;> decide)

/-- A write to one that does not answer only leaves L1. -/
theorem regs_doorbellIn_closed (h : memOpen p s = false) : (doorbellIn p poisoned s).regs = s.regs := by
  have hclosed : memOpen p (s.updPort p (fun h => { h with l1 := false, l12 := false })) = false := by
    refine Eq.trans ?_ h
    cases p <;> rfl
  unfold doorbellIn
  extract_lets left
  rw [hclosed, Bool.and_false]
  rfl

/-- Nor does it make a controller ready or not. -/
theorem rdy_doorbellIn (p : Port) (poisoned : Bool) (s : State) : rdy p (doorbellIn p poisoned s) = rdy p s := by
  have hcon := (doorbellIn_only p poisoned s).con_eq rfl p
  have hpins : (doorbellIn p poisoned s).pins = s.pins := (doorbellIn_only ..).keeps .pins rfl
  have hgen : (doorbellIn p poisoned s).gen = s.gen := (doorbellIn_only ..).keeps .gen rfl
  rw [rdy, rdy, hcon, hgen]
  cases p with
  | a => rfl
  | b => rw [portExists, portExists, hpins]

/-- A doorbell that is taken is taken after the write came in. -/
theorem doorbellTaken_doorbellIn (p : Port) (poisoned : Bool) (s : State) :
    doorbellTaken p poisoned (doorbellIn p poisoned s) = doorbellTaken p poisoned s := by
  rw [doorbellTaken, doorbellTaken, memOpen_doorbellIn, rdy_doorbellIn]

/-- Where no function answers memory requests a doorbell is not taken. -/
theorem doorbellTaken_closed (h : memOpen p s = false) : doorbellTaken p poisoned s = false := by
  rw [doorbellTaken, h, Bool.false_and, Bool.false_and]

/-- A poisoned one is not either. -/
theorem doorbellTaken_poisoned (p : Port) (s : State) : doorbellTaken p true s = false := by
  rw [doorbellTaken, Bool.not_true, Bool.and_false, Bool.false_and]

/-- A tail doorbell that is not taken only leaves L1 and flags poison. -/
theorem exec_sqTailDoorbell_dropped (h : doorbellTaken p poisoned s = false) :
    exec (.sqTailDoorbell p qid value poisoned) s = .next (doorbellIn p poisoned s) := by
  rw [← doorbellTaken_doorbellIn] at h
  exact congrArg Host.Outcome.next (if_pos (ne_true_of_eq_false h))

/-- R86: a tail in range of an existing queue is observed, after the Y9 woke. -/
theorem exec_sqTailDoorbell_observed {q : Sq} (h : doorbellTaken p poisoned s = true)
    (hq : (s.con p).sqs.find? (fun x => x.qid == qid) = some q) (hv : value < q.size) :
    exec (.sqTailDoorbell p qid value poisoned) s =
      .next (resumePolling p (updSq p qid (fun x => x.observe value (now s)) (wakeDoorbell (doorbellIn p poisoned s)))) := by
  have hnow : now (wakeDoorbell (doorbellIn p poisoned s)) = now s :=
    congrArg (·.fabric) (((wakeDoorbell_only _).keeps .time rfl).trans ((doorbellIn_only ..).keeps .time rfl))
  rw [← doorbellTaken_doorbellIn] at h
  rw [← (doorbellIn_only p poisoned s).con_eq rfl p] at hq
  have heff : sqTailDoorbellEff p qid value poisoned s = _ := if_neg (not_not_intro h)
  rw [hq] at heff
  refine congrArg Host.Outcome.next (heff.trans ((if_neg (Nat.not_le.mpr hv)).trans ?_))
  change resumePolling p (updSq p qid (fun q => q.observe value (now (wakeDoorbell (doorbellIn p poisoned s)))) _) = _
  rw [hnow]

/-- R86: a tail doorbell of no queue is recorded in the error log. -/
theorem exec_sqTailDoorbell_unknown (h : doorbellTaken p poisoned s = true)
    (hq : (s.con p).sqs.find? (fun x => x.qid == qid) = none) :
    exec (.sqTailDoorbell p qid value poisoned) s = .next (badDoorbell p qid true (doorbellIn p poisoned s)) := by
  rw [← doorbellTaken_doorbellIn] at h
  rw [← (doorbellIn_only p poisoned s).con_eq rfl p] at hq
  have heff : sqTailDoorbellEff p qid value poisoned s = _ := if_neg (not_not_intro h)
  rw [hq] at heff
  exact congrArg Host.Outcome.next heff

/-- R85: a head in range of an existing completion queue is seen, after the Y9 woke. -/
theorem exec_cqHeadDoorbell_seen {q : Cq} (h : doorbellTaken p poisoned s = true)
    (hq : (s.con p).cqs.find? (fun x => x.qid == qid) = some q) (hv : value < q.size) :
    exec (.cqHeadDoorbell p qid value poisoned) s =
      .next (resumePolling p (cqHeadSeen p qid value (wakeDoorbell (doorbellIn p poisoned s)))) := by
  rw [← doorbellTaken_doorbellIn] at h
  rw [← (doorbellIn_only p poisoned s).con_eq rfl p] at hq
  have heff : cqHeadDoorbellEff p qid value poisoned s = _ := if_neg (not_not_intro h)
  rw [hq] at heff
  exact congrArg Host.Outcome.next (heff.trans (if_neg (Nat.not_le.mpr hv)))

/-! Awake, with polling on or without a shadow buffer. -/

/-- R117: a Y9 in its operational state is awake. -/
theorem wakeDoorbell_awake (h : lowState s = none) : wakeDoorbell s = s := by
  rw [wakeDoorbell, h]

/-- The write of a doorbell changes no power state. -/
theorem lowState_doorbellIn (p : Port) (poisoned : Bool) (s : State) : lowState (doorbellIn p poisoned s) = lowState s := by
  have hgen : (doorbellIn p poisoned s).gen = s.gen := (doorbellIn_only ..).keeps .gen rfl
  have hsh : (doorbellIn p poisoned s).sh = s.sh := (doorbellIn_only ..).keeps .sh rfl
  rw [lowState, lowState, hgen, hsh]

/-- R91: polling that had not stopped does not resume. -/
theorem resumePolling_on (h : ((s.con p).shadow.isSome && !(s.con p).polling) = false) : resumePolling p s = s :=
  if_neg (by simpa using h)

/-! The head of a completion queue (R85). -/

/-- A search that an update cannot mislead finds the updated element. -/
theorem find?_updFirst {α : Type} {f : α → α} {c : α → Bool} (hc : ∀ x, c (f x) = c x) (l : List α) :
    (updFirst l c f).find? c = (l.find? c).map f := by
  induction l with
  | nil => rfl
  | cons x l ih =>
    cases hx : c x with
    | true => simp [updFirst, hx, hc]
    | false => simp [updFirst, hx, ih]

/-- With no completion held and no queue being deleted a head that moves moves nothing else. -/
theorem cqHeadSeen_plain {q : Cq} (hq : (s.con p).cqs.find? (fun x => x.qid == qid) = some q) (hheld : q.held = [])
    (hdel : (s.con p).sqs.filter (fun x => x.deleting.isSome) = []) :
    cqHeadSeen p qid value s = updCq p qid (fun q => { q with head := value }) s := by
  have hfind : ((updCq p qid (fun q => { q with head := value }) s).con p).cqs.find? (fun x => x.qid == qid) =
      some { q with head := value } := by
    rw [updCq, con_updCon_self]
    refine (find?_updFirst (c := fun x : Cq => x.qid == qid) (f := fun q => { q with head := value }) (fun _ => rfl) _).trans ?_
    rw [hq, Option.map_some]
  unfold cqHeadSeen
  extract_lets moved n
  have hn : n = 0 := by
    unfold n
    rw [hfind, Option.map_some, hheld]
    rfl
  have hsqs : (moved.con p).sqs = (s.con p).sqs := by
    unfold moved
    rw [updCq, con_updCon_self]
  rw [hn, releaseHeldCqes, finishDeletes, hsqs, hdel]
  rfl

/-! The fetch (R92). -/

/-- R92: the admin queue is fetched first. -/
theorem exec_sqeFetch_admin {q : Sq} (hrdy : rdy p s = true) (hmode : s.gen.mode ≠ .lowpower) (hroom : fetchRoom p s = true)
    (hq : (s.con p).sqs.find? (fun x => x.qid == 0 && x.ready) = some q) : exec (.sqeFetch p) s = .next (fetchFrom p q s) := by
  have heff : sqeFetchEff p s = _ := if_neg (by simp [hrdy, hmode, hroom])
  rw [hq] at heff
  exact congrArg Host.Outcome.next heff

/-- R92: an entry outside the CMB is fetched by a read under a free tag. -/
theorem fetchFrom_host {q : Sq} (h : inCmb p (q.base + 64 * q.head) s = false) :
    (fetchFrom p q s).out = .hostRead p (freeTag (s.port p)) (.sqe q.qid q.head) :: s.out ∧
    ((fetchFrom p q s).port p).tags = (s.port p).tags ++ [⟨freeTag (s.port p), .sqe q.qid q.head, 2, false⟩] := by
  unfold fetchFrom
  extract_lets adv addr advanced line merged
  have hport : advanced.port p = s.port p := (updSq_only ..).port_eq rfl p
  have hhost : ¬ inCmb p addr advanced = true := ne_true_of_eq_false h
  rw [if_neg hhost, issueFetch, hport]
  refine ⟨rfl, ?_⟩
  rw [(emit_only ..).port_eq rfl, port_updPort_self, hport]

/-- R93: after it the queue that arbitration picks. -/
theorem exec_sqeFetch_arbitrated {q : Sq} {c : Ctl} (hrdy : rdy p s = true) (hmode : s.gen.mode ≠ .lowpower)
    (hroom : fetchRoom p s = true) (hnone : (s.con p).sqs.find? (fun x => x.qid == 0 && x.ready) = none)
    (harb : arbitrate { s.con p with sqs := (s.con p).sqs.filter (fun x =>
        !s.cmds.any (fun c => decide (c.port = p ∧ c.sq = x.qid ∧ c.stage = .waiting))) } = some (q, c)) :
    exec (.sqeFetch p) s = .next (fetchFrom p q (s.updCon p (fun _ => { c with sqs := (s.con p).sqs }))) := by
  have heff : sqeFetchEff p s = _ := if_neg (by simp [hrdy, hmode, hroom])
  rw [hnone] at heff
  refine congrArg Host.Outcome.next (heff.trans ?_)
  simp only [harb]

end

/-- Settles O14: each doorbell and poll is taken only where R86 to R91 say so, and then does what they say. -/
theorem doorbellsAndFetch : Obligations.DoorbellsAndFetch := by
  refine ⟨?_, ?_, ?_, ?_, ?_, ?_, ?_, ?_, ?_, ?_, ?_, ?_, ?_, ?_, ?_, ?_⟩
  · -- A tail doorbell in range while awake.
    intro port qid value poisoned q s htaken hq hv hlow hpoll
    have hexec := exec_sqTailDoorbell_observed htaken hq hv
    have hawake := wakeDoorbell_awake ((lowState_doorbellIn port poisoned s).trans hlow)
    rw [hawake, resumePolling_on (by rw [updSq, con_updCon_self, (doorbellIn_only ..).con_eq rfl]; exact hpoll)] at hexec
    have hframe := only_of_next (execSqTailDoorbell_only ..) hexec
    refine ⟨_, hexec, hframe.mono (.ofAll (by decide +kernel)), ?_, ?_, hframe.keeps .cmds rfl⟩
    · rw [updSq, con_updCon_self, (doorbellIn_only ..).con_eq rfl]
    · rw [updSq, con_updCon_self, (doorbellIn_only ..).con_eq rfl]
  · -- A poisoned tail doorbell.
    rintro port qid value _ s hopen rfl
    have hexec := exec_sqTailDoorbell_dropped (qid := qid) (value := value) (doorbellTaken_poisoned port s)
    have hframe := only_of_next (execSqTailDoorbell_only ..) hexec
    exact ⟨_, hexec, hframe.mono (.ofAll (by decide +kernel)), doorbellIn_poisoned hopen, (doorbellIn_only ..).keeps .ctl rfl,
      hframe.keeps .cmds rfl⟩
  · -- No function answers memory requests.
    intro port qid value poisoned s hclosed
    have hexec := exec_sqTailDoorbell_dropped (qid := qid) (value := value) (doorbellTaken_closed (poisoned := poisoned) hclosed)
    have hframe := only_of_next (execSqTailDoorbell_only ..) hexec
    refine ⟨_, hexec, hframe.mono (.ofAll (by decide +kernel)), (doorbellIn_only ..).keeps .ctl rfl, (doorbellIn_only ..).keeps .out rfl,
      hframe.keeps .cmds rfl, fun f => ?_⟩
    rw [getF, getF, regs_doorbellIn_closed hclosed]
  · -- A head doorbell in range while awake.
    intro port qid value poisoned q s htaken hq hv hheld hlow hpoll hdel
    have hcon := (doorbellIn_only port poisoned s).con_eq rfl port
    have hexec := exec_cqHeadDoorbell_seen htaken hq hv
    rw [wakeDoorbell_awake ((lowState_doorbellIn port poisoned s).trans hlow), cqHeadSeen_plain (hcon ▸ hq) hheld (hcon ▸ hdel),
      resumePolling_on (by rw [updCq, con_updCon_self, hcon]; exact hpoll)] at hexec
    have hframe := only_of_next (execCqHeadDoorbell_only ..) hexec
    refine ⟨_, hexec, hframe.mono (.ofAll (by decide +kernel)), ?_, ?_, hframe.keeps .cmds rfl⟩
    · rw [updCq, con_updCon_self, hcon]
    · rw [updCq, con_updCon_self, hcon]
  · -- The admin queue's fetch by a host read.
    intro port q s hrdy hmode hroom hq hcmb
    have hexec := exec_sqeFetch_admin hrdy hmode hroom hq
    have hframe := only_of_next (execSqeFetch_only ..) hexec
    obtain ⟨hout, htags⟩ := fetchFrom_host hcmb
    exact ⟨_, hexec, hframe.mono (.ofAll (by decide +kernel)), hout, htags, hframe.keeps .cmds rfl⟩
  · -- No fetch.
    intro port s hno
    refine congrArg Host.Outcome.next (if_pos ?_)
    rcases hno with h | h | h <;> simp [h]
  · -- A poll round.
    intro port s hrdy hshadow hpoll hout hreads htags
    have hexec : exec (.pollRound port) s = .next (pollIssue port s) :=
      congrArg Host.Outcome.next (if_pos ⟨hrdy, hshadow, hpoll, ne_true_of_eq_false hout, hreads, htags⟩)
    have hframe := only_of_next (execPollRound_only ..) hexec
    exact ⟨_, hexec, hframe.mono (.ofAll (by decide +kernel)), rfl, hframe.keeps .cmds rfl⟩
  · -- No round is outstanding.
    exact fun port tails heads s hout => congrArg Host.Outcome.next (if_pos (ne_true_of_eq_false hout))
  · -- A round's completion.
    intro port tails heads s hout
    have hexec : exec (.pollCompletion port tails heads) s = .next _ := congrArg Host.Outcome.next (if_neg (not_not_intro hout))
    exact ⟨_, hexec, (only_of_next (execPollCompletion_only ..) hexec).mono (.ofAll (by decide +kernel)), rfl⟩
  · -- Polling stops.
    intro port idleUs finalTails s hshadow hpoll hquiet
    have hstop : (decide (100 ≤ idleUs) && !portBusy port s) = true ∨ s.gen.mode = .lowpower :=
      hquiet.imp_left fun ⟨hidle, hbusy⟩ => by simp [hidle, hbusy]
    have hexec : exec (.pollStop port idleUs finalTails) s = .next (pollCompletionEff port finalTails [] (stopPolling port s)) :=
      congrArg Host.Outcome.next (if_pos ⟨hshadow, hpoll, hstop⟩)
    exact ⟨_, hexec, (only_of_next (execPollStop_only ..) hexec).mono (.ofAll (by decide +kernel)), rfl⟩
  · -- A tail doorbell in range.
    intro port qid value poisoned q s htaken hq hv
    have hexec := exec_sqTailDoorbell_observed htaken hq hv
    exact ⟨_, hexec, (only_of_next (execSqTailDoorbell_only ..) hexec).mono (.ofAll (by decide +kernel)), rfl⟩
  · -- A tail doorbell of no queue.
    intro port qid value poisoned s htaken hq
    have hexec := exec_sqTailDoorbell_unknown (value := value) htaken hq
    have hframe := only_of_next (execSqTailDoorbell_only ..) hexec
    exact ⟨_, hexec, hframe.mono (.ofAll (by decide +kernel)), rfl, hframe.keeps .cmds rfl⟩
  · -- A head doorbell in range.
    intro port qid value poisoned q s htaken hq hv
    have hexec := exec_cqHeadDoorbell_seen htaken hq hv
    exact ⟨_, hexec, (only_of_next (execCqHeadDoorbell_only ..) hexec).mono (.ofAll (by decide +kernel)), rfl⟩
  · -- The admin queue's fetch.
    intro port q s hrdy hmode hroom hq
    have hexec := exec_sqeFetch_admin hrdy hmode hroom hq
    have hframe := only_of_next (execSqeFetch_only ..) hexec
    exact ⟨_, hexec, hframe.mono (.ofAll (by decide +kernel)), rfl, hframe.keeps .cmds rfl⟩
  · -- The arbitrated fetch.
    intro port q c s hrdy hmode hroom hnone harb
    have hexec := exec_sqeFetch_arbitrated hrdy hmode hroom hnone harb
    exact ⟨_, hexec, (only_of_next (execSqeFetch_only ..) hexec).mono (.ofAll (by decide +kernel)), rfl⟩
  · -- Polling goes on.
    intro port idleUs finalTails s hgo
    refine congrArg Host.Outcome.next (if_neg fun ⟨hshadow, hpoll, hstop⟩ => ?_)
    rcases hgo with h | h | ⟨hidle, hmode⟩
    · exact Bool.false_ne_true (h.symm.trans hshadow)
    · exact Bool.false_ne_true (h.symm.trans hpoll)
    · have hquiet : (decide (100 ≤ idleUs) && !portBusy port s) = true := hstop.resolve_right hmode
      simp at hquiet
      omega

end Sys2Proof.Machine
end

section
/-! SUPPORT. Recovery after a power loss and the end of start-up. Rules R34, R35, R38, R173, R174, R197, R203, R221, R335. -/
namespace Sys2Proof.Machine
-- One theorem at a time: a thread for each would exhaust the memory the check allows.
set_option Elab.async false

section
variable {s : State}

/-! A journal written at once (R163, R166): nothing is left pending or in flight. -/

/-- What of the map the writing of journal pages leaves alone: that it is recovered, and what the journal has pending and in flight. -/
def journalView (s : State) : Bool × List JRec × Option (Nat × List JRec) := (s.mx.recovered, s.mx.jpend, s.mx.jfly)

/-- What changes no map state leaves the view alone. -/
theorem Only.journalView {w : List Fld} {s t : State} (h : Only w s t) (hm : covered w .mx = false) :
    Machine.journalView t = Machine.journalView s := by
  have hmx : t.mx = s.mx := h.keeps .mx hm
  rw [Machine.journalView, Machine.journalView, hmx]

/-- A page programmed in the vat. -/
theorem journalView_vatProgrammed (l : Nat × Nat × Nat × Nat) (s : State) : journalView (vatProgrammed l s) = journalView s := by
  have hfold (f : Nat → State → Block → Block) (b : Nat) (ds : List Nat) (t : State) :
      journalView (ds.foldl (fun t d => updBlk d b (f d t) t) t) = journalView t := by
    induction ds generalizing t with
    | nil => rfl
    | cons d ds ih => exact ih _
  unfold vatProgrammed
  split
  · rfl
  · exact hfold ..

/-- Pages taken from the vat. -/
theorem journalView_takeVatPages (pairs : List (Nat × Nat)) (n : Nat) (s : State) :
    journalView (takeVatPages pairs n s).2 = journalView s := (takeVatPages_only ..).journalView rfl

/-- System pages written. -/
theorem journalView_takeSysPages (kind seq n : Nat) (s : State) : journalView (takeSysPages kind seq n s) = journalView s := by
  have hfold (ls : List (Nat × Nat × Nat × Nat)) (t : State) :
      journalView (ls.foldl (fun t l => vatProgrammed l t) t) = journalView t := by
    induction ls generalizing t with
    | nil => rfl
    | cons l ls ih => exact (ih _).trans (journalView_vatProgrammed l t)
  exact (hfold ..).trans (journalView_takeVatPages ..)

/-- The pages of one segment. -/
theorem journalView_segmentPages (seq n : Nat) (s : State) : journalView (segmentPages seq n s) = journalView s := by
  unfold segmentPages
  extract_lets before taken
  have htaken : journalView taken = journalView s := journalView_takeSysPages ..
  split <;> exact htaken

/-- R166: after a journal written at once nothing is pending or in flight. -/
theorem journalView_journalNow (s : State) : journalView (journalNow s) = (s.mx.recovered, [], none) := by
  have hfold (gs : List Segment) (t : State) :
      journalView (gs.foldl (fun t g => segmentPages g.seq g.recs.length t) t) = journalView t := by
    induction gs generalizing t with
    | nil => rfl
    | cons g gs ih => exact (ih _).trans (journalView_segmentPages ..)
  unfold journalNow
  extract_lets _ _ _ segs _ _ written
  have hwritten : journalView written = (s.mx.recovered, [], none) := rfl
  exact (hfold ..).trans (((openDurable_only ..).journalView rfl).trans hwritten)

end

section
variable {s : State}

/-! The recovery (R173 to R176, R197). -/

/-- What recovery changes after it has told its times. -/
def recoveryFrame : List Fld := places [posting, logging, revoking, windowLog, sending] [.sh, .defFaults, .lost, .mx, .ns, .mm, .tw,
  .nand, .reg Reg.GEN_START.DRAINOK, .reg Reg.MX_SCAN.BARRELS, .reg Reg.MX_SCAN.DUPS, .reg Reg.MM_ERR.SHORTCLOSE]

/-- What recovery leaves: the map recovered, the journal written, the times told. -/
structure Recovered (replayMs scanMs : Nat) (t : State) : Prop where
  journal : journalView t = (true, [], none)
  replay : getF Reg.MX_STARTUP.REPLAY t = Nat.min replayMs (2 ^ Reg.MX_STARTUP.REPLAY.width - 1)
  scan : getF Reg.MX_STARTUP.SCAN t = Nat.min scanMs (2 ^ Reg.MX_STARTUP.SCAN.width - 1)

/-- R173: in BOOT, after a power loss, a valid record's map is recovered. -/
theorem mapRecoveryEff_recovered (unreadableSegs : List Nat) (unreadable : List (Nat × Nat)) (replayMs scanMs : Nat)
    (hmode : s.gen.mode = .boot) (hvalid : s.prov.valid = true) (hkind : getF Reg.GEN_START.KIND s = 1) (hrec : s.mx.recovered = false) :
    Recovered replayMs scanMs (mapRecoveryEff unreadableSegs unreadable replayMs scanMs s) := by
  unfold mapRecoveryEff
  rw [if_neg (by simp [hmode, hvalid, hkind, hrec])]
  extract_lets root from_ rcsn segs gap intents r0 r1 placed found tags r2 lostG resolved touched noted timed counted last _ mapped
    drained placedBack lost doubted closed _ ceiled written _
  have hcounted : Only recoveryFrame timed counted :=
    ((setSat_only Reg.MX_SCAN.DUPS tags.length timed).mono (.ofAll (by decide +kernel))).trans
      ((setSat_only Reg.MX_SCAN.BARRELS touched.length _).mono (.ofAll (by decide +kernel)))
  have hdrained : Only recoveryFrame timed drained :=
    (Only.upd_mx_ns (by decide +kernel) (by decide +kernel) hcounted).trans ((setF_only ..).mono (.ofAll (by decide +kernel)))
  have hplaced : Only recoveryFrame timed placedBack :=
    .foldl (fun t x h => h.trans ((jAppend_only ..).mono (.ofAll (by decide +kernel)))) hdrained
  have hlost : Only recoveryFrame timed lost :=
    .foldl (fun t x h => h.trans ((loseAcked_only ..).mono (.ofAll (by decide +kernel)))) hplaced
  have hdoubted : Only recoveryFrame timed doubted :=
    .ite hlost (.foldl (fun t n h => h.trans ((deferFault_only ..).mono (.ofAll (by decide +kernel)))) hlost)
  have hclosed : Only recoveryFrame timed closed :=
    .foldl (fun t b h => h.trans ((closeShort_only ..).mono (.ofAll (by decide +kernel)))) hdoubted
  have hceiled : Only recoveryFrame timed ceiled :=
    (Only.upd_mx (by decide +kernel) hclosed).trans ((jAppend_only ..).mono (.ofAll (by decide +kernel)))
  have hwritten : Only recoveryFrame timed written := hceiled.trans ((journalNow_only _).mono (.ofAll (by decide +kernel)))
  refine ⟨journalView_journalNow ceiled, ?_, ?_⟩
  · exact (hwritten.getF_eq (by decide +kernel)).trans (getF_setSat_self ..)
  · exact (hwritten.getF_eq (by decide +kernel)).trans ((getF_setF_ne _ _ (by decide)).trans (getF_setSat_self ..))

/-! A half-erased block (R203). -/

/-- A block's entry after a change of it. -/
theorem getBlk_updBlk_self (d b : Nat) (f : Block → Block) (s : State) : getBlk d b (updBlk d b f s) = f (getBlk d b s) :=
  sGet_sPut_self ..

/-- R203: a redo that ends with a blank block. -/
theorem halfErasedBlockRedoEff_blank {die block : Nat} {blankPass1 blankPass2 : Bool} (hredo : s.mx.redo.contains (die, block) = true)
    (hblank : blankPass1 = true ∨ blankPass2 = true) :
    ∃ t, halfErasedBlockRedoEff die block blankPass1 blankPass2 s = t ∧
      (getBlk die block t).erases = Nat.min ((getBlk die block s).erases + (if blankPass1 then 2 else 3)) 16777215 ∧
      (getBlk die block t).reads = 0 ∧ t.mx.redo = s.mx.redo.filter (fun x => decide (x ≠ (die, block))) ∧
      (blankPass1 = false → isOn Reg.MM_ERR.BLANKFAIL t = true) := by
  refine ⟨_, rfl, ?_⟩
  unfold halfErasedBlockRedoEff
  rw [if_neg (not_not_intro hredo)]
  extract_lets ops bad count wiped counted flagged _ noted
  have hbad : ¬ bad = true := by rcases hblank with h | h <;> simp [bad, h]
  rw [if_neg hbad]
  have hflagged : flagged.mm = counted.mm := (flagIf_only ..).keeps .mm rfl
  have hmx : flagged.mx = counted.mx := (flagIf_only ..).keeps .mx rfl
  have hblk : getBlk die block noted = getBlk die block counted := congrArg (fun m : Mm => sGet m.blocks .fresh (blkKey die block)) hflagged
  have hcounted : getBlk die block counted = { getBlk die block wiped with erases := count } := getBlk_updBlk_self ..
  have hwiped : (getBlk die block wiped).reads = 0 := congrArg Block.reads (getBlk_updBlk_self ..)
  refine ⟨?_, ?_, ?_, fun hfirst => ?_⟩
  · rw [hblk, hcounted]
  · rw [hblk, hcounted]
    exact hwiped
  · change flagged.mx.redo.filter _ = _
    rw [hmx]
    rfl
  · change isOn Reg.MM_ERR.BLANKFAIL (flagIf (!blankPass1) Reg.MM_ERR.BLANKFAIL counted) = true
    rw [hfirst]
    exact isOn_flagOn _ (by decide)

/-! The end of start-up (R34, R35). -/

/-- What the token and the event log take at start-up is no part of the mode, and leaves the record alone. -/
theorem startDrainLost_startToken (s : State) : (startDrainLost (startToken s)).gen = (startToken s).gen ∧
    (startDrainLost (startToken s)).prov = s.prov ∧ (startDrainLost (startToken s)).pins = s.pins := by
  have hlost := startDrainLost_only (startToken s)
  have htoken := startToken_only s
  exact ⟨hlost.keeps .gen rfl, (hlost.keeps .prov rfl).trans (htoken.keeps .prov rfl),
    (hlost.keeps .pins rfl).trans (htoken.keeps .pins rfl)⟩

/-- Table 2.9: the token after start-up is management's, unless a valid record releases it. -/
theorem startToken_gen (s : State) : (startToken s).gen =
    { s.gen with holder := if s.prov.valid ∧ ¬ s.prov.keepToken then .none else .mgmt } := by
  unfold startToken
  split <;> rfl

/-- R34: with a verified block start-up ends by row 4, 5, 3 or 2. -/
theorem exec_startupComplete_verified {durationMs : Nat} (hmode : s.gen.mode = .boot) (hrow : s.gen.bootRow ≠ 5)
    (hver : s.gen.bootVerified = true) : exec (.startupComplete durationMs) s =
      .next (if s.gen.bootRow = 4 then enterMode 4 .recovery (startDrainLost (startToken s))
        else if (startDrainLost (startToken s)).pins.fenceIn then enterQuarantine 5 (startDrainLost (startToken s))
        else if ¬ (startDrainLost (startToken s)).prov.valid then enterMode 3 .provision (startDrainLost (startToken s))
        else startServe (setSat Reg.GEN_START.DURATION durationMs (startDrainLost (startToken s)))) := by
  have hrowOf : (startDrainLost (startToken s)).gen.bootRow = s.gen.bootRow := by
    rw [(startDrainLost_startToken s).1, startToken_gen]
  rw [← hrowOf]
  exact congrArg Host.Outcome.next ((if_neg (not_not_intro hmode)).trans ((if_neg hrow).trans (if_neg (not_not_intro hver))))

/-- What start-up changes before the mode. -/
def startFrame : List Fld := [.freeCtr, .fs, .mx, .ns, .ff, .mm, .nand, .tw, .reg Reg.DC_ERR.UNWRAP, .reg Reg.DC_ERR.CEKEY]

/-- R35: a start that enters no INGEST and interrupts no migration ends in the recorded mode, by row 2. -/
theorem startServe_gen (hmark : s.prov.migMark ≠ 1) (hmode : startMode s ≠ .ingest) :
    (startServe s).gen = (setMode 2 (startMode s) s).gen := by
  unfold startServe
  extract_lets m _ opened journalled keyed groups resumed _ turned old entered told armed
  have hjournalled : Only startFrame s journalled :=
    .trans (.trans (.upd_mx_ns_tw rfl rfl rfl (.refl ..)) ((jAppend_only ..).mono (.ofAll (by decide +kernel))))
      ((journalNow_only _).mono (.ofAll (by decide +kernel)))
  have hkeyed : Only startFrame s keyed :=
    .foldl (fun t n h => h.trans ((startNsKey_only n t).mono (.ofAll (by decide +kernel)))) hjournalled
  have hturned : Only startFrame s turned :=
    .upd_fs rfl (hkeyed.trans ((resumeErases_only keyed).mono (.ofAll (by decide +kernel))))
  have hmodeOf : (setMode 2 m turned).gen = (setMode 2 m s).gen := by
    rw [setMode, setMode, hturned.keeps .gen rfl]
  have hmarkOf : (setMode 2 m turned).prov.migMark = s.prov.migMark := by
    rw [setMode, hturned.keeps .prov rfl]
    split <;> rfl
  have hentered : entered.gen = (setMode 2 m s).gen ∧ entered.prov.migMark = s.prov.migMark := by
    refine ⟨((askDue_only _).keeps .gen rfl).trans ((enterMode_gen ..).trans hmodeOf), ?_⟩
    exact (congrArg Prov.migMark (((askDue_only _).keeps .prov rfl).trans (enterMode_prov ..))).trans hmarkOf
  have htold : Only (places [posting] []) entered told :=
    .ite ((evModeChanged_only _).mono (.ofAll (by decide +kernel))) (.refl ..)
  have harmed : Only (places [posting] [.fuses]) entered armed :=
    .ite (htold.mono (.ofAll (by decide +kernel)))
      ((htold.mono (.ofAll (by decide +kernel))).trans ((raiseArb_only _).mono (.ofAll (by decide +kernel))))
  have hgen : armed.gen = (setMode 2 m s).gen := (harmed.keeps .gen rfl).trans hentered.1
  have hprov : armed.prov.migMark ≠ 1 := by
    rw [harmed.keeps .prov rfl, hentered.2]
    exact hmark
  have hnot : armed.gen.mode ≠ .ingest := by
    rw [hgen]
    exact hmode
  rw [startMigration, if_neg hprov, if_neg hnot]
  exact hgen

end

/-- Settles O8: recovery, the redo of half-erased blocks, the open stripes and the row that ends start-up. -/
theorem mapRecoveryAndStart : Obligations.MapRecoveryAndStart := by
  refine ⟨?_, ?_, ?_, ?_, ?_, ?_, ?_, ?_, ?_⟩
  · -- Recovery after a power loss.
    intro us u replayMs scanMs s hmode hvalid hkind hrec
    have hexec : exec (.mapRecovery us u replayMs scanMs) s = .next (mapRecoveryEff us u replayMs scanMs s) := rfl
    obtain ⟨hjournal, hreplay, hscan⟩ := mapRecoveryEff_recovered us u replayMs scanMs hmode hvalid hkind hrec
    exact ⟨_, hexec, (only_of_next (execMapRecovery_only ..) hexec).mono (.ofAll (by decide +kernel)), congrArg (·.1) hjournal,
      congrArg (·.2.1) hjournal, congrArg (·.2.2) hjournal, hreplay, hscan⟩
  · -- No power loss.
    exact fun us u replayMs scanMs s hkind => congrArg Host.Outcome.next (if_pos (.inr (.inr (.inl hkind))))
  · -- A half-erased block.
    intro die block blankPass1 blankPass2 s hredo hblank
    obtain ⟨t, ht, herases, hreads, hleft, htold⟩ := halfErasedBlockRedoEff_blank hredo hblank
    have hexec : exec (.halfErasedBlockRedo die block blankPass1 blankPass2) s = .next t := congrArg Host.Outcome.next ht
    exact ⟨t, hexec, (only_of_next (execHalfErasedBlockRedo_only ..) hexec).mono (.ofAll (by decide +kernel)), herases, hreads,
      hleft, htold⟩
  · -- The open stripes.
    intro unreadable s hmode hvalid hopen
    have hexec : exec (.openStripeCompletion unreadable) s = .next _ :=
      congrArg Host.Outcome.next (if_neg (by simp [hmode, hvalid, hopen]))
    refine ⟨_, hexec, (only_of_next (execOpenStripeCompletion_only ..) hexec).mono (.ofAll (by decide +kernel)), rfl, fun hkind => ?_⟩
    rw [if_pos hkind]
    rfl
  · -- Row 5 without a verified block.
    intro durationMs s hmode hrow
    have hexec : exec (.startupComplete durationMs) s = .next (enterQuarantine 5 s) :=
      congrArg Host.Outcome.next ((if_neg (not_not_intro hmode)).trans (if_pos hrow))
    obtain ⟨hm, hcause, ha, hb, -⟩ := quarantined_enterQuarantine 5 s
    exact ⟨_, hexec, (only_of_next (execStartupComplete_only ..) hexec).mono (.ofAll (by decide +kernel)), hm, hcause, ha, hb⟩
  · -- Row 4.
    intro durationMs s hmode hrow hver
    have hexec : exec (.startupComplete durationMs) s = .next (enterMode 4 .recovery (startDrainLost (startToken s))) :=
      (exec_startupComplete_verified hmode (by simp [hrow]) hver).trans (congrArg Host.Outcome.next (if_pos hrow))
    obtain ⟨hm, hcause, -⟩ := enterMode_mode 4 .recovery (startDrainLost (startToken s))
    exact ⟨_, hexec, (only_of_next (execStartupComplete_only ..) hexec).mono (.ofAll (by decide +kernel)), hm, hcause⟩
  · -- Row 5 under the fence.
    intro durationMs s hmode hrow hver hfence
    obtain ⟨-, -, hpins⟩ := startDrainLost_startToken s
    have hexec : exec (.startupComplete durationMs) s = .next (enterQuarantine 5 (startDrainLost (startToken s))) :=
      (exec_startupComplete_verified hmode (by simp [hrow]) hver).trans (congrArg Host.Outcome.next
        ((if_neg (by simp [hrow])).trans (if_pos (hpins ▸ hfence))))
    obtain ⟨hm, hcause, -⟩ := quarantined_enterQuarantine 5 (startDrainLost (startToken s))
    exact ⟨_, hexec, (only_of_next (execStartupComplete_only ..) hexec).mono (.ofAll (by decide +kernel)), hm, hcause⟩
  · -- Row 3.
    intro durationMs s hmode hrow hver hfence hinvalid
    obtain ⟨hgen, hprov, hpins⟩ := startDrainLost_startToken s
    have hexec : exec (.startupComplete durationMs) s = .next (enterMode 3 .provision (startDrainLost (startToken s))) :=
      (exec_startupComplete_verified hmode (by simp [hrow]) hver).trans (congrArg Host.Outcome.next
        ((if_neg (by simp [hrow])).trans ((if_neg (by simp [hpins, hfence])).trans (if_pos (by simp [hprov, hinvalid])))))
    obtain ⟨hm, hcause, -⟩ := enterMode_mode 3 .provision (startDrainLost (startToken s))
    refine ⟨_, hexec, (only_of_next (execStartupComplete_only ..) hexec).mono (.ofAll (by decide +kernel)), hm, hcause, ?_⟩
    rw [enterMode_gen, setMode, hgen, startToken_gen]
    exact if_neg (by simp [hinvalid])
  · -- Row 2.
    intro durationMs s hmode hrow hver hfence hvalid hmark hstart
    obtain ⟨hgen, hprov, hpins⟩ := startDrainLost_startToken s
    have hexec : exec (.startupComplete durationMs) s =
        .next (startServe (setSat Reg.GEN_START.DURATION durationMs (startDrainLost (startToken s)))) :=
      (exec_startupComplete_verified hmode (by simp [hrow]) hver).trans (congrArg Host.Outcome.next
        ((if_neg (by simp [hrow])).trans ((if_neg (by simp [hpins, hfence])).trans (if_neg (by simp [hprov, hvalid])))))
    have hsat := setSat_only Reg.GEN_START.DURATION durationMs (startDrainLost (startToken s))
    have hprovOf : (setSat Reg.GEN_START.DURATION durationMs (startDrainLost (startToken s))).prov = s.prov := hprov
    have hmodeOf : startMode (setSat Reg.GEN_START.DURATION durationMs (startDrainLost (startToken s))) = startMode s := by
      rw [startMode, hprovOf, startMode]
    have hserve := startServe_gen (s := setSat Reg.GEN_START.DURATION durationMs (startDrainLost (startToken s)))
      (by rw [hprovOf]; exact hmark) (by rw [hmodeOf]; exact hstart)
    have hgenOf : (setSat Reg.GEN_START.DURATION durationMs (startDrainLost (startToken s))).gen = (startToken s).gen := hgen
    rw [hmodeOf, setMode, hgenOf, startToken_gen] at hserve
    refine ⟨_, hexec, (only_of_next (execStartupComplete_only ..) hexec).mono (.ofAll (by decide +kernel)), ?_⟩
    rw [hserve]
    refine ⟨rfl, rfl, hmode, ?_⟩
    cases hkeep : s.prov.keepToken <;> simp [hvalid]

end Sys2Proof.Machine
end

section
/-! SUPPORT. How an admin command that is served answers, and what its frame and its effect make of an obligation. Rules R94, R119. -/
namespace Sys2Proof.Machine
-- One theorem at a time: a thread for each would exhaust the memory the check allows.
set_option Elab.async false

section
variable {h : AdminHdr} {modes : Mode → Bool} {body : State → State} {s e : State}

/-- A command with the effect `e` changes what its frame allows, and answers with `e`. -/
theorem next_only_eq {v w : List Fld} {o : Host.Outcome State Fault Refusal} (hframe : ∃ t, o = .next t ∧ Only v s t) (heff : o = .next e)
    (hw : v.all (covered w) = true) : ∃ t, o = .next t ∧ Only w s t ∧ t = e :=
  ⟨e, heff, (only_of_next hframe heff).mono (.ofAll hw), rfl⟩

/-- An admin command that is served has the effect of its body. -/
theorem adminCmd_next (hserved : adminServed h modes s = true) (heff : body (arrived h s) = e) :
    (.next (adminCmd h modes 0 body s) : Host.Outcome State Fault Refusal) = .next e :=
  congrArg Host.Outcome.next ((adminCmd_served hserved).trans heff)

/-- A Set Features that does not ask for saving has the effect of its feature. -/
theorem setFeature_next (hserved : adminServed h modesFeature s = true) (heff : body (arrived h s) = e) :
    (.next (setFeature h false body s) : Host.Outcome State Fault Refusal) = .next e :=
  adminCmd_next hserved heff

/-- Descriptors that fit let the body run. -/
theorem withData_fits {len : Nat} (hfits : dataFits h len s = true) : withData h len body s = body s := by
  have hnone : (if len = 0 then none else descCheck h.port h.data len none s) = none := by
    rcases Bool.or_eq_true _ _ ▸ hfits with hzero | hgood
    · exact if_pos (of_decide_eq_true hzero)
    · rw [Option.isNone_iff_eq_none.mp hgood, ite_self]
  rw [withData, hnone]

/-- A page is returned where the descriptors fit it. -/
theorem adminPage_fits {pg : Page} {off len : Nat} (hfits : dataFits h len s = true) :
    adminPage h pg off len s = adminOk h (adminData h (pg.slice off len) s) := withData_fits hfits

end
end Sys2Proof.Machine
end

section
/-! SUPPORT. Create and delete I/O queues, Get Log Page, Identify and Abort. Rules R83, R84, R96, R97, R102, R113, R120. -/
namespace Sys2Proof.Machine
-- One theorem at a time: a thread for each would exhaust the memory the check allows.
set_option Elab.async false

section
variable {h : AdminHdr} {qid size vector cqid qprio base : Nat} {ien contiguous : Bool} {s : State}

/-- R83: a submission queue that passes the checks is made, in the order of the identifiers. -/
theorem createIoSqBody_good (hgood : createSqBad h qid size cqid base contiguous s = none) :
    createIoSqBody h qid size cqid qprio base contiguous s = adminOk h (eventIdxNew h.port (s.updCon h.port (fun c =>
      { c with sqs := c.sqs.filter (fun x => decide (x.qid < qid)) ++
          [⟨qid, size + 1, cqid, qprio % 4, base, 0, 0, 7, [], none, c.shadow.isSome, [], none⟩] ++
          c.sqs.filter (fun x => decide (qid < x.qid)) }))) := by
  rw [createIoSqBody, hgood]

/-- R83: identifier 0 is the admin queue's. -/
theorem createIoSqBody_zero : createIoSqBody h 0 size cqid qprio base contiguous s = adminFail h 1 0x01 s := by
  have hbad : createSqBad h 0 size cqid base contiguous s = some (1, 0x01) := by simp [createSqBad]
  rw [createIoSqBody, hbad]

/-- R83: a completion queue that passes the checks is made. -/
theorem createIoCqBody_good (hgood : createCqBad h qid size vector base contiguous s = none) :
    createIoCqBody h qid size vector ien base contiguous s = adminOk h (eventIdxNew h.port (s.updCon h.port (fun c =>
      { c with cqs := c.cqs ++ [⟨qid, size + 1, vector, ien, base, 0, 0, true, [], c.shadow.isSome⟩] }))) := by
  rw [createIoCqBody, hgood]

/-- R84: a submission queue that exists is marked, and leaves when it is idle. -/
theorem deleteIoSqBody_marked (hqid : qid ≠ 0) (hq : (s.con h.port).sqs.any (fun q => q.qid == qid && q.deleting.isNone) = true) :
    deleteIoSqBody h qid s = finishDeletes h.port (updSq h.port qid (fun q => { q with deleting := some h.cid }) s) :=
  if_neg (by simp only [hqid, hq, not_true, or_self, not_false_iff])

/-- R84: a completion queue that no submission queue uses is removed. -/
theorem deleteIoCqBody_unused (hqid : qid ≠ 0) (hq : (s.con h.port).cqs.any (fun q => q.qid == qid) = true)
    (hfree : (s.con h.port).sqs.any (fun q => q.cq == qid) = false) :
    deleteIoCqBody h qid s = adminOk h (s.updCon h.port (fun c => { c with cqs := c.cqs.filter (fun x => x.qid != qid) })) :=
  (if_neg (by simp only [hqid, hq, not_true, or_self, not_false_iff])).trans (if_neg (ne_true_of_eq_false hfree))

/-- R84: one that a submission queue uses is kept. -/
theorem deleteIoCqBody_used (hqid : qid ≠ 0) (hq : (s.con h.port).cqs.any (fun q => q.qid == qid) = true)
    (hused : (s.con h.port).sqs.any (fun q => q.cq == qid) = true) : deleteIoCqBody h qid s = adminFail h 1 0x0C s :=
  (if_neg (by simp only [hqid, hq, not_true, or_self, not_false_iff])).trans (if_pos hused)

/-- R102, R120: a log page that is known is returned, and a read without RAE clears its events. -/
theorem getLogPageBody_known {lid offset numDwords : Nat} {rae : Bool} {pg : Page} (hpage : logPage h.port lid s = some pg)
    (halign : offset % 4 = 0) (hin : offset < pg.len) (hnsid : lid = 0x02 → h.nsid = 0 ∨ h.nsid = 0xFFFFFFFF)
    (hfits : dataFits h (4 * numDwords) s = true) : getLogPageBody h lid offset numDwords rae s =
      adminOk h ((fun u : State => if rae then u else logRead h.port lid u)
        ((fun u : State => if lid = 0x02 ∨ lid = 0x0C then { u with freeCtr := u.freeCtr + 8 } else u)
          (adminData h (pg.slice offset (4 * numDwords)) s))) := by
  have hoff : ¬ (offset % 4 ≠ 0 ∨ pg.len ≤ offset) := by omega
  have hns : ¬ (lid = 0x02 ∧ h.nsid ≠ 0 ∧ h.nsid ≠ 0xFFFFFFFF) := fun ⟨hlid, hz, hall⟩ => (hnsid hlid).elim hz hall
  rw [getLogPageBody, hpage]
  exact (if_neg hoff).trans ((if_neg hns).trans (withData_fits hfits))

/-- R102: an unknown log page is refused. -/
theorem getLogPageBody_unknown {lid offset numDwords : Nat} {rae : Bool} (hpage : logPage h.port lid s = none) :
    getLogPageBody h lid offset numDwords rae s = adminFail h 1 0x09 s := by
  rw [getLogPageBody, hpage]

/-- R96: an Identify structure that exists is returned. -/
theorem identifyBody_known {cns cntid : Nat} {pg : Page} (hpage : identPage h cns cntid s = .inl pg) (hfits : dataFits h 4096 s = true) :
    identifyBody h cns cntid s = adminOk h (adminData h (pg.slice 0 4096) s) := by
  rw [identifyBody, hpage]
  exact adminPage_fits hfits

end

/-- Settles O17: each command on a queue or a page, once served, has the effect of its body. -/
theorem queueCommands : Obligations.QueueCommands := by
  refine ⟨?_, ?_, ?_, ?_, ?_, ?_, ?_, ?_, ?_, ?_, ?_, ?_⟩
  · -- Create I/O SQ.
    intro h qid size cqid qprio base contiguous s hserved hgood
    exact next_only_eq (execCreateIoSq_only ..) (adminCmd_next hserved (createIoSqBody_good hgood)) (by decide +kernel)
  · -- Create I/O SQ with identifier 0.
    rintro h _ size cqid qprio base contiguous s hserved rfl
    exact next_only_eq (execCreateIoSq_only ..) (adminCmd_next hserved createIoSqBody_zero) (by decide +kernel)
  · -- Create I/O CQ.
    intro h qid size vector ien base contiguous s hserved hgood
    exact next_only_eq (execCreateIoCq_only ..) (adminCmd_next hserved (createIoCqBody_good hgood)) (by decide +kernel)
  · -- Delete I/O SQ.
    intro h qid s hserved hqid hq
    exact next_only_eq (execDeleteIoSq_only ..) (adminCmd_next hserved (deleteIoSqBody_marked hqid hq)) (by decide +kernel)
  · -- Delete I/O SQ of the admin queue.
    rintro h _ s hserved rfl
    exact next_only_eq (execDeleteIoSq_only ..) (adminCmd_next hserved (if_pos (.inl rfl))) (by decide +kernel)
  · -- Delete I/O CQ.
    intro h qid s hserved hqid hq hfree
    exact next_only_eq (execDeleteIoCq_only ..) (adminCmd_next hserved (deleteIoCqBody_unused hqid hq hfree)) (by decide +kernel)
  · -- Delete I/O CQ while in use.
    intro h qid s hserved hqid hq hused
    exact next_only_eq (execDeleteIoCq_only ..) (adminCmd_next hserved (deleteIoCqBody_used hqid hq hused)) (by decide +kernel)
  · -- Get Log Page.
    intro h lid offset numDwords rae pg s hserved hpage halign hin hnsid hfits
    exact next_only_eq (execGetLogPage_only ..) (adminCmd_next hserved (getLogPageBody_known hpage halign hin hnsid hfits))
      (by decide +kernel)
  · -- Identify.
    intro h cns cntid pg s hserved hpage hfits
    exact next_only_eq (execIdentify_only ..) (adminCmd_next hserved (identifyBody_known hpage hfits)) (by decide +kernel)
  · -- Abort.
    intro h sqid cid s hserved hroom
    exact next_only_eq (execAbort_only h sqid cid s) (adminCmd_next hserved (if_neg (Nat.not_le.mpr hroom))) (by decide +kernel)
  · -- A fifth Abort.
    intro h sqid cid s hserved hfull
    exact next_only_eq (execAbort_only h sqid cid s) (adminCmd_next hserved (if_pos hfull)) (by decide +kernel)
  · -- Get Log Page of no page.
    intro h lid offset numDwords rae s hserved hpage
    exact next_only_eq (execGetLogPage_only ..) (adminCmd_next hserved (getLogPageBody_unknown hpage)) (by decide +kernel)

end Sys2Proof.Machine
end

section
/-! SUPPORT. Set Features, Get Features and asynchronous events. Rules R83, R98 to R103, R117, R120, R404, R405. -/
namespace Sys2Proof.Machine
-- One theorem at a time: a thread for each would exhaust the memory the check allows.
set_option Elab.async false

section
variable {h : AdminHdr} {s : State}

/-! Power states (R117, R404). -/

/-- R404: PS0 to PS2 are entered at once. -/
theorem setPowerBody_operational {ps : Nat} {p : PowerState} (hps : psOf ps = some p) (hle : ps ≤ 2) :
    setPowerBody h ps 0 s = adminOk h { s with sh := { s.sh with ps := p, psOp := p } } := by
  rw [setPowerBody, hps]
  exact (if_neg (not_not_intro rfl)).trans (if_pos hle)

/-- R404: PS3 and PS4 are accepted in SERVICE and SEALED, and their entry begins after the completion. -/
theorem setPowerBody_low {ps : Nat} {p : PowerState} (hps : psOf ps = some p) (hgt : 2 < ps)
    (hmode : s.gen.mode = .service ∨ s.gen.mode = .sealed) :
    setPowerBody h ps 0 s =
      { adminOk h s with sh := { (adminOk h s).sh with ps := p }, gen := { (adminOk h s).gen with psEntry := some p } } := by
  rw [setPowerBody, hps]
  exact (if_neg (not_not_intro rfl)).trans ((if_neg (Nat.not_le.mpr hgt)).trans (if_pos hmode))

/-- The state from which row 8 is taken: in PS4 everything acknowledged is durable, and one snapshot is. -/
def settledForLow (p : PowerState) (s : State) : State :=
  snapDurableNow (snapNow (if p = .ps4 then journalNow (flushStaged s) else s)) (if p = .ps4 then journalNow (flushStaged s) else s)

/-- What LOWPOWER is entered with. -/
def enteredLow (p : PowerState) (s : State) : State :=
  enterMode 8 .lowpower { settledForLow p s with
    gen := { (settledForLow p s).gen with psEntry := none, lowFrom := (settledForLow p s).gen.mode } }

/-- R405: the entry that ends in SERVICE or SEALED takes row 8. -/
theorem exec_powerStateEntry_enters {p : PowerState} (hentry : s.gen.psEntry = some p)
    (hmode : s.gen.mode = .service ∨ s.gen.mode = .sealed) :
    exec (.powerStateEntry true) s = .next (ps4Links (stopPolling .b (stopPolling .a (enteredLow p s)))) := by
  have hin : ¬ (s.gen.mode ≠ .service ∧ s.gen.mode ≠ .sealed) := by tauto
  refine congrArg Host.Outcome.next ?_
  rw [powerStateEntryEff, hentry]
  exact (if_neg (not_not_intro rfl)).trans (if_neg hin)

/-- Making everything durable changes no mode. -/
theorem settledForLow_gen (p : PowerState) (s : State) : (settledForLow p s).gen = s.gen := by
  refine ((snapDurableNow_only ..).keeps .gen rfl).trans ?_
  split
  · exact ((journalNow_only _).keeps .gen rfl).trans ((flushStaged_only s).keeps .gen rfl)
  · rfl

/-- Row 8 remembers the mode it left. -/
theorem lowpower_gen (p : PowerState) (s : State) : (ps4Links (stopPolling .b (stopPolling .a (enteredLow p s)))).gen =
    (setMode 8 .lowpower { s with gen := { s.gen with psEntry := none, lowFrom := s.gen.mode } }).gen := by
  have hpolling (t : State) : (stopPolling .b (stopPolling .a t)).gen = t.gen :=
    ((stopPolling_only ..).keeps .gen rfl).trans ((stopPolling_only ..).keeps .gen rfl)
  refine ((ps4Links_only _).keeps .gen rfl).trans ((hpolling _).trans ((enterMode_gen ..).trans ?_))
  rw [setMode, settledForLow_gen]
  rfl

/-- An entry that ends in another mode is abandoned. -/
theorem exec_powerStateEntry_abandoned {p : PowerState} (hentry : s.gen.psEntry = some p)
    (hservice : s.gen.mode ≠ .service) (hsealed : s.gen.mode ≠ .sealed) : exec (.powerStateEntry true) s =
      .next { s with gen := { s.gen with psEntry := none }, sh := { s.sh with ps := s.sh.psOp } } := by
  refine congrArg Host.Outcome.next ?_
  rw [powerStateEntryEff, hentry]
  exact (if_neg (not_not_intro rfl)).trans (if_pos ⟨hservice, hsealed⟩)

/-! The other features. -/

/-- Table 4.6: a threshold of the Composite Temperature is set. -/
theorem setTempBody_set {thsel kelvin : Nat} (hsel : thsel ≤ 1) : setTempBody h 0 thsel kelvin s =
    adminOk h (if thsel = 0 then { s with sh := { s.sh with tOver := kelvin % 65536 } }
      else { s with sh := { s.sh with tUnder := kelvin % 65536 } }) :=
  (if_neg (by omega)).trans (apply_ite (adminOk h) ..).symm

/-- R83: the number of queues is set once, before any I/O queue. -/
theorem setNumQueuesBody_first {nsqr ncqr : Nat} (hsq : nsqr ≠ 0xFFFF) (hcq : ncqr ≠ 0xFFFF) (hfirst : (s.con h.port).nqSet = false)
    (hnone : hasIoQueue (s.con h.port) = false) : setNumQueuesBody h nsqr ncqr s =
      adminDone h 0 0 (Nat.min nsqr 2047 + 65536 * Nat.min ncqr 2047) 0
        (s.updCon h.port (fun c => { c with nqSet := true, nsq := Nat.min nsqr 2047 + 1, ncq := Nat.min ncqr 2047 + 1 })) :=
  (if_neg (not_or.mpr ⟨hsq, hcq⟩)).trans (if_neg (by simp only [hfirst, hnone, Bool.false_eq_true, or_self, not_false_iff]))

/-- R99: entries of the class table that meet the conditions replace those of the mask, and the table is mirrored. -/
theorem setClassesBody_good {mask : BitVec 8} {entries : List (List Nat)} (hlow : mask.toNat % 8 = 0) (hhigh : mask.toNat.testBit 7 = false)
    (hgood : [3, 4, 5, 6].any (fun k => mask.toNat.testBit k && !classOk ((entries[k]?).getD [])) = false)
    (hfits : dataFits h 256 s = true) : setClassesBody h mask false entries s =
      (let v := { s with sh := { s.sh with lct := replaceClasses mask.toNat entries s.sh.lct } }
      mirror 4 ([v.mx.csn, mask.toNat] ++ classEntries mask.toNat v) (adminOk h v)) :=
  (if_neg (by simp only [hlow, hhigh, hgood, Bool.false_eq_true, ne_eq, not_true, or_self, not_false_iff])).trans (withData_fits hfits)

/-- R100: an existing I/O queue takes its class. -/
theorem setBindingBody_known {sqid cls : Nat} (hne : sqid ≠ 0) (hq : (s.con h.port).sqs.any (fun q => q.qid == sqid) = true) :
    setBindingBody h sqid cls s = adminOk h (updSq h.port sqid (fun q => { q with cls := cls % 8 }) s) :=
  if_neg (by simp only [hne, hq, not_true, or_self, not_false_iff])

/-- R98: a feature's value in force. -/
theorem getFeaturesBody_now {fid v : Nat} {dw11 : Word} (hfid : fid ≠ 0xC0) (hv : featureNow h fid dw11 s = some v) :
    getFeaturesBody h fid 0 dw11 s = adminDone h 0 0 v 0 s := by
  refine (if_neg (by omega)).trans ((if_neg hfid).trans ?_)
  rw [if_neg (by omega), hv]

/-- R98: a feature's default. -/
theorem getFeaturesBody_default {fid v : Nat} {dw11 : Word} (hfid : fid ≠ 0xC0) (hv : featureDefault h fid dw11 s = some v) :
    getFeaturesBody h fid 1 dw11 s = adminDone h 0 0 v 0 s := by
  refine (if_neg (by omega)).trans ((if_neg hfid).trans ?_)
  rw [if_pos rfl, hv]

/-- R99: the class table is returned through the data pointer. -/
theorem getFeaturesBody_classes {sel : Nat} {dw11 : Word} (hsel : sel ≤ 1) (hfits : dataFits h 256 s = true) :
    getFeaturesBody h 0xC0 sel dw11 s =
      adminOk h (adminData h ((classTable (if sel = 1 then { s with sh := .reset } else s)).slice 0 256) s) :=
  (if_neg (Nat.not_lt.mpr hsel)).trans ((if_pos rfl).trans (adminPage_fits hfits))

/-- R120: with no event waiting a request waits. -/
theorem asynchronousEventRequestBody_waits (hnone : (s.con h.port).events = []) (hroom : (s.con h.port).aers.length < 16) :
    asynchronousEventRequestBody h s = s.updCon h.port (fun c => { c with aers := c.aers ++ [h.cid] }) := by
  rw [asynchronousEventRequestBody, hnone]
  exact if_neg (Nat.not_le.mpr hroom)

/-- R120: the oldest waiting event goes out on it. -/
theorem asynchronousEventRequestBody_answers {e : AsyncEvent} {rest : List AsyncEvent} (hev : (s.con h.port).events = e :: rest) :
    asynchronousEventRequestBody h s = adminDone h 0 0 e.dw0 0 (s.updCon h.port (fun c => { c with events := rest })) := by
  rw [asynchronousEventRequestBody, hev]

end

/-- Settles O18: each feature, once served, is set, entered or returned as its body says. -/
theorem setFeatures : Obligations.SetFeatures := by
  refine ⟨?_, ?_, ?_, ?_, ?_, ?_, ?_, ?_, ?_, ?_, ?_, ?_, ?_, ?_, ?_, ?_, ?_, ?_, ?_, ?_, ?_, ?_⟩
  · -- Arbitration.
    rintro h _ dw11 s hserved rfl
    exact next_only_eq (execSetFeaturesArbitration_only ..) (setFeature_next hserved rfl) (by decide +kernel)
  · -- A Set that asks for saving.
    rintro h _ dw11 s hserved rfl
    exact next_only_eq (execSetFeaturesArbitration_only ..) (adminCmd_next hserved (if_pos rfl)) (by decide +kernel)
  · -- PS0 to PS2.
    rintro h _ ps _ p s hserved rfl hps hle rfl
    exact next_only_eq (execSetFeaturesPowerManagement_only ..) (setFeature_next hserved (setPowerBody_operational hps hle))
      (by decide +kernel)
  · -- PS3 and PS4.
    rintro h _ ps _ p s hserved rfl hps hgt rfl hmode
    exact next_only_eq (execSetFeaturesPowerManagement_only ..) (setFeature_next hserved (setPowerBody_low hps hgt hmode))
      (by decide +kernel)
  · -- Row 8.
    intro p s hentry hmode
    have hexec := exec_powerStateEntry_enters hentry hmode
    refine ⟨_, hexec, (only_of_next (execPowerStateEntry_only ..) hexec).mono (.ofAll (by decide +kernel)), ?_, ?_, ?_, ?_, rfl⟩
    all_goals
      rw [lowpower_gen]
      rfl
  · -- The entry is abandoned.
    exact fun p s hentry hservice hsealed => exec_powerStateEntry_abandoned hentry hservice hsealed
  · -- No entry, or one that has not finished.
    intro done s hno
    refine congrArg Host.Outcome.next ?_
    unfold powerStateEntryEff
    split
    · rfl
    · next p hp =>
      have hdone : done = false := hno.resolve_left (by simp [hp])
      exact if_pos (ne_true_of_eq_false hdone)
  · -- Temperature Threshold.
    rintro h _ _ thsel kelvin s hserved rfl rfl hsel
    exact next_only_eq (execSetFeaturesTemperatureThreshold_only ..) (setFeature_next hserved (setTempBody_set hsel)) (by decide +kernel)
  · -- Volatile Write Cache.
    rintro h _ wce s hserved rfl
    exact next_only_eq (execSetFeaturesVolatileWriteCache_only ..) (setFeature_next hserved rfl) (by decide +kernel)
  · -- Number of Queues.
    rintro h _ nsqr ncqr s hserved rfl hsq hcq hfirst hnone
    exact next_only_eq (execSetFeaturesNumberOfQueues_only ..) (setFeature_next hserved (setNumQueuesBody_first hsq hcq hfirst hnone))
      (by decide +kernel)
  · -- Interrupt Coalescing.
    rintro h _ thr time s hserved rfl
    exact next_only_eq (execSetFeaturesInterruptCoalescing_only ..) (setFeature_next hserved rfl) (by decide +kernel)
  · -- Interrupt Vector Configuration.
    rintro h _ vector disable s hserved rfl hvec
    exact next_only_eq (execSetFeaturesInterruptVectorConfig_only ..) (setFeature_next hserved (if_neg (Nat.not_le.mpr hvec)))
      (by decide +kernel)
  · -- Asynchronous Event Configuration.
    rintro h _ dw11 s hserved rfl
    exact next_only_eq (execSetFeaturesAsyncEventConfig_only ..) (setFeature_next hserved rfl) (by decide +kernel)
  · -- The Latency Class Table.
    rintro h _ mask _ entries s hserved rfl rfl hlow hhigh hgood hfits
    exact next_only_eq (execSetFeaturesLatencyClassTable_only ..) (setFeature_next hserved (setClassesBody_good hlow hhigh hgood hfits))
      (by decide +kernel)
  · -- Queue Latency Binding.
    rintro h _ sqid cls s hserved rfl hne hq
    exact next_only_eq (execSetFeaturesQueueLatencyBinding_only ..) (setFeature_next hserved (setBindingBody_known hne hq))
      (by decide +kernel)
  · -- Write Cache Protection.
    rintro h _ s hserved rfl
    exact next_only_eq (execSetFeaturesWriteCacheProtection_only ..) (setFeature_next hserved rfl) (by decide +kernel)
  · -- Get Features: the value in force.
    rintro h fid _ dw11 v s hserved rfl hfid hv
    exact next_only_eq (execGetFeatures_only ..) (adminCmd_next hserved (getFeaturesBody_now hfid hv)) (by decide +kernel)
  · -- Get Features: no such select.
    intro h fid sel dw11 s hserved hsel
    exact next_only_eq (execGetFeatures_only ..) (adminCmd_next hserved (if_pos hsel)) (by decide +kernel)
  · -- An event request waits.
    intro h s hserved hnone hroom
    exact next_only_eq (execAsynchronousEventRequest_only ..) (adminCmd_next hserved (asynchronousEventRequestBody_waits hnone hroom))
      (by decide +kernel)
  · -- An event request is answered.
    intro h e rest s hserved hev
    exact next_only_eq (execAsynchronousEventRequest_only ..) (adminCmd_next hserved (asynchronousEventRequestBody_answers hev))
      (by decide +kernel)
  · -- Get Features: the class table.
    rintro h _ sel dw11 s hserved hsel rfl hfits
    exact next_only_eq (execGetFeatures_only ..) (adminCmd_next hserved (getFeaturesBody_classes hsel hfits)) (by decide +kernel)
  · -- Get Features: the default.
    rintro h fid _ dw11 v s hserved rfl hfid hv
    exact next_only_eq (execGetFeatures_only ..) (adminCmd_next hserved (getFeaturesBody_default hfid hv)) (by decide +kernel)

end Sys2Proof.Machine
end

section
/-! SUPPORT. Namespace management, firmware, self-test, directives and sanitize. Rules R87, R94, R97, R104 to R108, R233, R244, R246, R247,
R361, R383 to R385. -/
namespace Sys2Proof.Machine
-- One theorem at a time: a thread for each would exhaust the memory the check allows.
set_option Elab.async false

section
variable {h : AdminHdr} {n : Ns} {s v : State}

/-! Namespaces (R97). -/

/-- R97: a description that passes the checks is accepted. -/
theorem nsCreateBody_good {d : NsDesc} (hmode : s.gen.mode ≠ .sealed) (hgood : createBad d s = none) (hfits : dataFits h 4096 s = true) :
    nsCreateBody h d s = acceptNs h 0 (.create d) s := by
  rw [nsCreateBody, if_neg hmode, hgood]
  exact withData_fits hfits

/-- R97: a delete that nothing forbids is accepted, and the namespace begins to leave. -/
theorem nsDeleteBody_good (hns : findNs h.nsid s = some n) (hmode : s.gen.mode ≠ .sealed) (hstays : n.leaving = [])
    (hsession : inSession h.nsid s = false) (hrole : nsRoleBad n s = none) :
    nsDeleteBody h s = acceptNs h h.nsid .delete (updNs h.nsid (fun n => { n with leaving := n.attached }) s) := by
  simp only [nsDeleteBody, hns, hmode, hstays, hsession, hrole, ne_eq, not_true, Bool.false_eq_true, if_false]

/-- R97: an attach to controllers that do not have the namespace adds them. -/
theorem nsAttachBody_attaches {ctrls : List Nat} (hns : findNs h.nsid s = some n) (hsome : ctrls ≠ [])
    (hlive : beingDeleted h.nsid s = false)
    (hknown : ctrls.any (fun c => !(allCntlids s).contains c) = false) (hcut : n.cutAway = false)
    (hnew : ctrls.any (fun c => n.attached.contains c) = false) (hfits : dataFits h 4096 s = true) :
    nsAttachBody h true ctrls s = adminOk h (mirror 3 [s.mx.csn, 5, h.nsid] (attachNs h.nsid true ctrls s)) := by
  simp only [nsAttachBody, hns, hlive, hsome, hknown, hcut, hnew, Bool.false_eq_true, or_self, if_false, if_true, withData_fits hfits]

/-- R97: a detach from controllers that have it is accepted, and it begins to leave them. -/
theorem nsAttachBody_detaches {ctrls : List Nat} (hns : findNs h.nsid s = some n) (hsome : ctrls ≠ [])
    (hlive : beingDeleted h.nsid s = false)
    (hknown : ctrls.any (fun c => !(allCntlids s).contains c) = false) (hall : ctrls.any (fun c => !n.attached.contains c) = false)
    (hfits : dataFits h 4096 s = true) : nsAttachBody h false ctrls s =
      acceptNs h h.nsid (.detach ctrls) (updNs h.nsid (fun n => { n with leaving := ctrls.foldl addOnce n.leaving }) s) := by
  simp only [nsAttachBody, hns, hlive, hsome, hknown, hall, Bool.false_eq_true, or_self, if_false, withData_fits hfits]

/-- R148: a format that nothing forbids, to a format that the grains allow, is accepted. -/
theorem formatBody_good {lbaf pi pil ses : Nat} {mset : Bool} (hsan : s.sh.sanState ≠ 1 ∧ s.sh.sanState ≠ 3)
    (hns : (findNs h.nsid s).filter (fun n => attachedTo h.port n s) = some n) (hrole : nsRoleBad n s = none)
    (hopen : sealedFor n s = false) (hses : ses ≤ 2 ∧ (ses = 2 → n.xts = true))
    (hlbaf : lbaf ≤ 4 ∧ lbaBytes lbaf ≤ grainBytes n.grainCode ∧ pi ≤ 3 ∧ (0 < pi → mdBytes lbaf ≠ 0)) :
    formatBody h lbaf mset pi pil ses s = acceptNs h h.nsid (.format lbaf mset (pi + 8 * (pil % 2)) (ses == 1) (ses == 2))
      (updNs h.nsid (fun n => { n with formatting := true }) s) := by
  obtain ⟨hle, hxts⟩ := hses
  obtain ⟨hfmt, hgrain, hpi, hmd⟩ := hlbaf
  have hses' : ¬ (2 < ses ∨ (ses = 2 ∧ ¬ n.xts = true)) := fun hbad =>
    hbad.elim (fun hgt => by omega) (fun ⟨htwo, hno⟩ => hno (hxts htwo))
  have hlbaf' : ¬ (4 < lbaf ∨ grainBytes n.grainCode < lbaBytes lbaf ∨ 3 < pi ∨ (0 < pi ∧ mdBytes lbaf = 0)) := by
    rintro (hbad | hbad | hbad | ⟨hpos, hzero⟩)
    · omega
    · omega
    · omega
    · exact hmd hpos hzero
  rw [formatBody, if_neg (not_or.mpr hsan), hns]
  simp only [hrole, hopen, Bool.false_eq_true, if_false, if_neg hses', if_neg hlbaf']

/-! Sanitize (R247). -/

/-- A sanitize begins while none runs and nothing is sealed. -/
theorem sanitizeBody_begins {kind : Nat} (hsan : s.sh.sanState ≠ 1 ∧ s.sh.sanState ≠ 3)
    (hmode : s.gen.mode ≠ .standby ∧ s.gen.mode ≠ .sealed)
    (hopen : s.ns.any (fun n => n.sealInfo.isSome) = false) (hkind : kind = 3 → s.ns.any (fun n => !n.xts) = false) :
    sanitizeBody h false kind s = settleSanitize (adminOk h { s with sh := { s.sh with sanState := kind } }) := by
  have hxts : ¬ (false = true ∨ (kind = 3 ∧ s.ns.any (fun n => !n.xts) = true)) := by
    rintro (hbad | ⟨hthree, hbad⟩)
    · cases hbad
    · exact Bool.false_ne_true ((hkind hthree).symm.trans hbad)
  rw [sanitizeBody, if_neg (not_or.mpr hsan), if_neg hmode.1,
    if_neg (by simp only [hmode.2, hopen, Bool.false_eq_true, or_self, not_false_iff]),
    if_neg hxts]

/-! Firmware (R383 to R385). -/

/-- R383: a piece of an image that is aligned and fits joins it. -/
theorem firmwareImageDownloadBody_joins {offset length : Nat} (hoff : offset % 4 = 0) (hlen : length % 4 = 0)
    (hin : offset + length ≤ imageMax) (hfits : dataFits h length s = true) : firmwareImageDownloadBody h offset length s =
      adminOk h { s with sh := { s.sh with fwDown := s.sh.fwDown ++ [(offset, length)] } } :=
  (if_neg (by omega)).trans (withData_fits hfits)

/-- R384: a commit that succeeds answers. -/
theorem firmwareCommitBody_commits {slot blk : Nat} {write select : Bool} {img : SlotImage} (hidle : s.mg.activation = none)
    (hslot : slotBlk slot s = some blk) (hcommit : commitSlot write select blk img s = (none, v)) :
    firmwareCommitBody h slot write select img s = adminOk h v := by
  simp only [firmwareCommitBody, hidle, hslot, hcommit, Option.isSome_none, Bool.false_eq_true, if_false]

/-- R385: a commit that succeeds then activates: row 7 in RECOVERY, else the rolling activation. -/
theorem firmwareActivateBody_activates {slot blk : Nat} {img : SlotImage} (hidle : s.mg.activation = none)
    (hquiet : rebuildOrMigration s = false) (hslot : slotBlk slot s = some blk)
    (hcommit : commitSlot (s.sh.fwDown != []) true blk img s = (none, v)) : firmwareActivateBody h slot img s =
      if v.gen.mode = .recovery then y9Reset false 7 (adminOk h v) else startActivation h blk v := by
  simp only [firmwareActivateBody, hidle, hquiet, hslot, hcommit, Option.isSome_none, Bool.false_eq_true, or_self, if_false]

/-! Self-tests, shadow doorbells and directives. -/

/-- Table 4.3: a self-test starts while none runs. -/
theorem deviceSelfTestBody_starts {code : Nat} (hcode : code = 1 ∨ code = 2) (hidle : (s.con h.port).selfTest = none) :
    deviceSelfTestBody h code s = adminOk h (s.updCon h.port (fun c => { c with selfTest := some code })) := by
  have hno : ¬ (s.con h.port).selfTest.isSome = true := by simp [hidle]
  rcases hcode with rfl | rfl
  · exact if_neg hno
  · exact if_neg hno

/-- Code Fh ends the one that runs. -/
theorem deviceSelfTestBody_aborts {k : Nat} (hrun : (s.con h.port).selfTest = some k) : deviceSelfTestBody h 0xF s =
    adminOk h (s.updCon h.port (fun c => { c with selfTest := none, selfTests := ((k, 1) :: c.selfTests).take 20 })) := by
  simp only [deviceSelfTestBody, hrun]

/-- With none running it does nothing. -/
theorem deviceSelfTestBody_idle (hidle : (s.con h.port).selfTest = none) : deviceSelfTestBody h 0xF s = adminOk h s := by
  simp only [deviceSelfTestBody, hidle]

/-- R87: shadow doorbells begin, and polling with them. -/
theorem doorbellBufferConfigBody_begins {prp1 prp2 : Nat} (hnone : hasIoQueue (s.con h.port) = false)
    (halign : prp1 % hostPage h.port s = 0 ∧ prp2 % hostPage h.port s = 0)
    (hbar : inOwnBar h.port prp1 s = false ∧ inOwnBar h.port prp2 s = false) : doorbellBufferConfigBody h prp1 prp2 s =
      adminOk h (s.updCon h.port (fun c => { c with shadow := some (prp1, prp2), polling := true, eventIdx := [] })) := by
  simp only [doorbellBufferConfigBody, hnone, halign, hbar, ne_eq, not_true, Bool.false_eq_true, or_self, if_false]

end

/-- Settles O19: each command, once served and not forbidden, is accepted, refused or done as its body says. -/
theorem namespaceAndFirmware : Obligations.NamespaceAndFirmware := by
  refine ⟨?_, ?_, ?_, ?_, ?_, ?_, ?_, ?_, ?_, ?_, ?_, ?_, ?_, ?_, ?_, ?_, ?_, ?_, ?_, ?_, ?_, ?_, ?_, ?_, ?_, ?_, ?_⟩
  · -- Create.
    intro h d s hserved hmode hgood hfits
    exact next_only_eq (execNamespaceManagementCreate_only ..) (adminCmd_next hserved (nsCreateBody_good hmode hgood hfits))
      (by decide +kernel)
  · -- Create under the device seal.
    intro h d s hserved hmode
    exact next_only_eq (execNamespaceManagementCreate_only ..) (adminCmd_next hserved (if_pos hmode)) (by decide +kernel)
  · -- Delete.
    intro h n s hserved hns hmode hstays hsession hrole
    exact next_only_eq (execNamespaceManagementDelete_only ..)
      (adminCmd_next hserved (nsDeleteBody_good hns hmode hstays hsession hrole)) (by decide +kernel)
  · -- Attach.
    rintro h _ ctrls n s hserved rfl hns hsome hlive hknown hcut hnew hfits
    exact next_only_eq (execNamespaceAttachment_only ..)
      (adminCmd_next hserved (nsAttachBody_attaches hns hsome hlive hknown hcut hnew hfits)) (by decide +kernel)
  · -- Detach.
    rintro h _ ctrls n s hserved rfl hns hsome hlive hknown hall hfits
    exact next_only_eq (execNamespaceAttachment_only ..)
      (adminCmd_next hserved (nsAttachBody_detaches hns hsome hlive hknown hall hfits)) (by decide +kernel)
  · -- Firmware Image Download.
    intro h offset length s hserved hoff hlen hin hfits
    exact next_only_eq (execFirmwareImageDownload_only ..)
      (adminCmd_next hserved (firmwareImageDownloadBody_joins hoff hlen hin hfits)) (by decide +kernel)
  · -- Firmware Commit, action 000b.
    intro h slot img blk v s hserved hidle hslot hcommit
    exact next_only_eq (execFirmwareCommitWrite_only ..)
      (adminCmd_next hserved (firmwareCommitBody_commits hidle hslot hcommit)) (by decide +kernel)
  · -- Action 001b.
    intro h slot img blk v s hserved hidle hslot hcommit
    exact next_only_eq (execFirmwareCommitWriteSelect_only ..)
      (adminCmd_next hserved (firmwareCommitBody_commits hidle hslot hcommit)) (by decide +kernel)
  · -- Action 010b.
    intro h slot img blk v s hserved hidle hslot hcommit
    exact next_only_eq (execFirmwareCommitSelect_only ..)
      (adminCmd_next hserved (firmwareCommitBody_commits hidle hslot hcommit)) (by decide +kernel)
  · -- Action 011b.
    intro h slot img blk v s hserved hidle hquiet hslot hcommit
    exact next_only_eq (execFirmwareCommitActivate_only ..)
      (adminCmd_next hserved (firmwareActivateBody_activates hidle hquiet hslot hcommit)) (by decide +kernel)
  · -- A self-test starts.
    intro h code s hserved hcode hidle
    exact next_only_eq (execDeviceSelfTest_only ..) (adminCmd_next hserved (deviceSelfTestBody_starts hcode hidle)) (by decide +kernel)
  · -- A self-test is aborted.
    rintro h _ k s hserved rfl hrun
    exact next_only_eq (execDeviceSelfTest_only ..) (adminCmd_next hserved (deviceSelfTestBody_aborts hrun)) (by decide +kernel)
  · -- Streams are enabled.
    rintro h _ _ dspec _ _ s hserved hhere rfl rfl rfl rfl
    exact next_only_eq (execDirectiveSend_only ..) (adminCmd_next hserved (if_neg (not_not_intro hhere))) (by decide +kernel)
  · -- Stream resources are allocated.
    rintro h _ _ dspec nsr s hserved hhere rfl rfl hon
    exact next_only_eq (execDirectiveReceive_only ..)
      (adminCmd_next hserved ((if_neg (not_not_intro hhere)).trans (if_neg (not_not_intro hon)))) (by decide +kernel)
  · -- Doorbell Buffer Config.
    intro h prp1 prp2 s hserved hnone halign hbar
    exact next_only_eq (execDoorbellBufferConfig_only ..)
      (adminCmd_next hserved (doorbellBufferConfigBody_begins hnone halign hbar)) (by decide +kernel)
  · -- Format NVM.
    intro h lbaf mset pi pil ses n s hserved hsan hns hrole hopen hses hlbaf
    exact next_only_eq (execFormatNvm_only ..)
      (adminCmd_next hserved (formatBody_good hsan hns hrole hopen hses hlbaf)) (by decide +kernel)
  · -- Format NVM with a crypto erase.
    intro h lbaf mset pi pil n s hserved hsan hns hrole hopen hxts hlbaf
    exact next_only_eq (execFormatNvmCryptoErase_only ..)
      (adminCmd_next hserved (formatBody_good hsan hns hrole hopen ⟨Nat.le_refl _, fun _ => hxts⟩ hlbaf)) (by decide +kernel)
  · -- Sanitize with a block erase.
    rintro h _ s hserved hsan hmode hopen rfl
    exact next_only_eq (execSanitizeBlockErase_only ..)
      (adminCmd_next hserved (sanitizeBody_begins hsan hmode hopen nofun)) (by decide +kernel)
  · -- Sanitize with a crypto erase.
    rintro h _ s hserved hsan hmode hopen rfl hxts
    exact next_only_eq (execSanitizeCryptoErase_only ..)
      (adminCmd_next hserved (sanitizeBody_begins hsan hmode hopen fun _ => hxts)) (by decide +kernel)
  · -- Sanitize while one runs.
    intro h noDealloc s hserved hsan
    exact next_only_eq (execSanitizeBlockErase_only ..) (adminCmd_next hserved (if_pos hsan)) (by decide +kernel)
  · -- Streams are disabled.
    rintro h _ _ dspec _ _ s hserved hhere rfl rfl rfl rfl
    exact next_only_eq (execDirectiveSend_only ..) (adminCmd_next hserved (if_neg (not_not_intro hhere))) (by decide +kernel)
  · -- One stream identifier is released.
    rintro h _ _ dspec enable tdtype s hserved hhere rfl rfl hon
    exact next_only_eq (execDirectiveSend_only ..)
      (adminCmd_next hserved ((if_neg (not_not_intro hhere)).trans (if_neg (not_not_intro hon)))) (by decide +kernel)
  · -- Every stream resource is released.
    rintro h _ _ dspec enable tdtype s hserved hhere rfl rfl hon
    exact next_only_eq (execDirectiveSend_only ..)
      (adminCmd_next hserved ((if_neg (not_not_intro hhere)).trans (if_neg (not_not_intro hon)))) (by decide +kernel)
  · -- Directive Receive: the directives.
    rintro h _ _ dspec nsr s hserved hhere rfl rfl hfits
    exact next_only_eq (execDirectiveReceive_only ..)
      (adminCmd_next hserved ((if_neg (not_not_intro hhere)).trans (adminPage_fits hfits))) (by decide +kernel)
  · -- Directive Receive: the parameters of Streams.
    rintro h _ _ dspec nsr s hserved hhere rfl rfl hfits
    exact next_only_eq (execDirectiveReceive_only ..)
      (adminCmd_next hserved ((if_neg (not_not_intro hhere)).trans (adminPage_fits hfits))) (by decide +kernel)
  · -- Directive Receive: the status of Streams.
    rintro h _ _ dspec nsr s hserved hhere rfl rfl hon hfits
    exact next_only_eq (execDirectiveReceive_only ..) (adminCmd_next hserved
      ((if_neg (not_not_intro hhere)).trans ((if_neg (not_not_intro hon)).trans (adminPage_fits hfits)))) (by decide +kernel)
  · -- Code Fh with no self-test.
    rintro h _ s hserved rfl hidle
    exact next_only_eq (execDeviceSelfTest_only ..) (adminCmd_next hserved (deviceSelfTestBody_idle hidle)) (by decide +kernel)

end Sys2Proof.Machine
end

section
/-! SUPPORT. Twin control, migration control and the seals. Rules R35, R108, R322, R323, R325, R329, R334 to R342. -/
namespace Sys2Proof.Machine
-- One theorem at a time: a thread for each would exhaust the memory the check allows.
set_option Elab.async false

section
variable {h : AdminHdr} {s : State}

/-- An admin command whose data its descriptors fit has the effect of its body. -/
theorem adminCmd_next_data {modes : Mode → Bool} {len : Nat} {body : State → State} {e : State} (hserved : adminServed h modes s = true)
    (hdata : descCheck h.port h.data len none (arrived h s) = none) (heff : body (arrived h s) = e) :
    (.next (adminCmd h modes len body s) : Host.Outcome State Fault Refusal) = .next e := by
  simp only [adminServed, Bool.and_eq_true, Bool.or_eq_true, beq_iff_eq] at hserved
  obtain ⟨⟨⟨hreached, hmode⟩, hfuse⟩, hzero⟩ := hserved
  have hgo : ¬ (¬ h.tunnelled = true ∧ ¬ rdy h.port s = true) := fun ⟨htunnel, hready⟩ => hreached.elim htunnel hready
  have hcheck : adminCheck h modes len (arrived h s) = none :=
    (if_neg (not_not_intro hmode)).trans ((if_neg (by simp [hfuse, hzero])).trans (by rw [hdata, ite_self]))
  refine congrArg Host.Outcome.next (Eq.trans ?_ heff)
  rw [adminCmd, if_neg hgo]
  rw [arrived] at hcheck ⊢
  simp only [hcheck]

/-- The arrival of a command leaves the pair alone. -/
theorem tw_arrived (h : AdminHdr) (s : State) : (arrived h s).tw = s.tw := by
  unfold arrived
  split
  · rfl
  · exact ((wake_only _).keeps .tw rfl).trans ((sqeArrived_only ..).keeps .tw rfl)

/-! Twin Control (R334 to R336). -/

/-- R334: an active member of a pair that does nothing of the kind begins a switchover. -/
theorem switchBody_begins (hst : s.tw.st = .paired) (hactive : s.tw.active = true) (hidle : s.tw.switching = false)
    (hfree : s.tw.waitCmd = none) : switchBody h s =
      switchNow (updTw (fun t => { t with switching := true, switchSent := false, waitCmd := some (h.port, h.cid) }) s) :=
  if_neg (by simp [hst, hactive, hidle, hfree])

/-- R336: a member of no pair cannot. -/
theorem switchBody_refused (hno : s.tw.st ≠ .paired ∨ s.tw.active = false) : switchBody h s = twinError h s :=
  if_pos (hno.imp_right fun hpassive => .inl (ne_true_of_eq_false hpassive))

/-- R336: the active member unpairs. -/
theorem unpairBody_unpairs (hactive : s.tw.active = true) (hidle : s.tw.switching = false) (hst : s.tw.st ≠ .none ∧ s.tw.st ≠ .fenced) :
    unpairBody h s = (let v := unpaired (sendCtrl s.tw.peer 0x03 [3, s.tw.peerIdDigest, 0] s)
      let w := retryCommits (updTw (fun t => { t with winWait := s.tw.winWait }) v)
      adminDone h 0 0 (pairCode w) 0 w) :=
  if_neg (by simp [hactive, hidle, hst])

/-- R336: an unpaired member in STANDBY without namespaces is released by row 11. -/
theorem releaseBody_releases (hst : s.tw.st = .none) (hmode : s.gen.mode = .standby) (hns : s.ns = []) :
    releaseBody h s = adminDone h 0 0 (pairCode (rowEleven s)) 0 (rowEleven s) :=
  if_neg (by simp [hst, hmode, hns])

/-- R336: an unpaired member in SERVICE asks a peer that it reaches. -/
theorem pairBody_asks {peer idDigest : Nat} (hst : s.tw.st = .none) (hmode : s.gen.mode = .service) (hfree : s.tw.waitCmd = none)
    (hreach : reachable peer s = true) : pairBody h peer idDigest true s = sendCtrl peer 0x03 [0, idDigest, s.ns.length]
      (updTw (fun t => { t with peer := peer, peerIdDigest := idDigest, waitCmd := some (h.port, h.cid) }) s) :=
  if_neg (by simp [hst, hmode, hfree, hreach])

/-- R335: only a member that lost this peer takes it back. -/
theorem rejoinBody_refused {peer idDigest returnerCsn : Nat} (hno : s.tw.st ≠ .lost ∨ s.tw.active = false ∨ peer ≠ s.tw.peer) :
    rejoinBody h peer idDigest returnerCsn s = twinError h s :=
  if_pos (hno.imp_right (Or.imp_left ne_true_of_eq_false))

/-- What a rejoin has to seed: the changed segments where the returner was not ahead of the takeover, `none` for everything. -/
def rejoinTodo (returnerCsn : Nat) (s : State) : Option (List (Nat × Nat)) :=
  match s.tw.changed with
  | some l => if returnerCsn ≤ s.tw.takeH then some l else none
  | none => none

/-- The pair as a rejoin leaves it: seeding, or paired where nothing is to seed. -/
def rejoined (idDigest : Nat) (todo : Option (List (Nat × Nat))) (s : State) : State :=
  updTw (fun t => { t with
    st := if todo.getD (allSegments s) = [] then .paired else .seeding, seedTodo := todo.getD (allSegments s), seedFly := [],
    seedFull := todo.isNone, changed := none, peerIdDigest := idDigest, ack := s.mx.csn, stopped := [], pathALost := false,
    pathBLost := false }) s

/-- What the returner is then told: the request, the namespaces to format for a full reseed, the tables, and the repairs asked of it. -/
def rejoinTold (peer idDigest : Nat) (todo : Option (List (Nat × Nat))) (s : State) : State :=
  askDue (mirrorTables (if todo.isNone then
    (sendCtrl peer 0x03 [2, idDigest, s.ns.length] s).ns.foldl (fun t n => mirror 3 [t.mx.csn, 3, n.nsid, n.lbaf] t)
      (sendCtrl peer 0x03 [2, idDigest, s.ns.length] s)
    else sendCtrl peer 0x03 [2, idDigest, s.ns.length] s))

/-- R335: a peer that was lost, of the recorded identity or of none, rejoins. -/
theorem rejoinBody_rejoins {peer idDigest returnerCsn : Nat} (hst : s.tw.st = .lost)
    (hactive : s.tw.active = true) (hpeer : peer = s.tw.peer)
    (hid : s.tw.peerIdDigest = 0 ∨ s.tw.peerIdDigest = idDigest) : rejoinBody h peer idDigest returnerCsn s =
      (let told := rejoinTold peer idDigest (rejoinTodo returnerCsn s) (rejoined idDigest (rejoinTodo returnerCsn s) (fence false s))
      adminDone h 0 0 (pairCode told) 0 told) := by
  have hlost : ¬ (s.tw.st ≠ .lost ∨ ¬ s.tw.active = true ∨ peer ≠ s.tw.peer) := by simp [hst, hactive, hpeer]
  have hsame : ¬ (s.tw.peerIdDigest ≠ 0 ∧ s.tw.peerIdDigest ≠ idDigest) := fun ⟨hz, hne⟩ => hid.elim hz hne
  exact (if_neg hlost).trans (if_neg hsame)

/-- The pair's state but for the repairs that wait. -/
def pairView (s : State) : Tw := { s.tw with repairDue := [] }

/-- What leaves the pair alone leaves the view alone. -/
theorem Only.pairView {w : List Fld} {s t : State} (k : Only w s t) (htw : covered w .tw = false) :
    Machine.pairView t = Machine.pairView s := by
  rw [Machine.pairView, Machine.pairView, k.keeps .tw htw]

/-- R227: asking for a repair, or putting it off, is no change of the pair. -/
theorem pairView_askRepair (nsid grain csn : Nat) (s : State) : pairView (askRepair nsid grain csn s) = pairView s := by
  have hsent : pairView (sendFrame 1 s.tw.peer 0x10 0 [] (emit (.record s.tw.peer 7 [nsid, grain, csn]) s)) = pairView s :=
    ((sendFrame_only ..).pairView rfl).trans ((emit_only ..).pairView rfl)
  unfold askRepair
  (repeat' split) <;> first | rfl | exact hsent

/-- Nor is asking for all that are due. -/
theorem pairView_askDue (s : State) : pairView (askDue s) = pairView s := by
  have hfold (l : List (Nat × Nat × Nat)) (t : State) :
      pairView (l.foldl (fun t x => askRepair x.1 x.2.1 x.2.2 t) t) = pairView t := by
    induction l generalizing t with
    | nil => rfl
    | cons x l ih => exact (ih _).trans (pairView_askRepair ..)
  unfold askDue
  split <;> first | rfl | exact hfold ..

/-- R335: what the returner is told changes the pair no more. -/
theorem pairView_rejoinTold (peer idDigest : Nat) (todo : Option (List (Nat × Nat))) (s : State) :
    pairView (rejoinTold peer idDigest todo s) = pairView s := by
  have hasked : pairView (sendCtrl peer 0x03 [2, idDigest, s.ns.length] s) = pairView s := (sendCtrl_only ..).pairView rfl
  have hfold (l : List Ns) (t : State) : pairView (l.foldl (fun t n => mirror 3 [t.mx.csn, 3, n.nsid, n.lbaf] t) t) = pairView t := by
    induction l generalizing t with
    | nil => rfl
    | cons n l ih => exact (ih _).trans ((mirror_only ..).pairView rfl)
  refine (pairView_askDue _).trans (((mirrorTables_only _).pairView rfl).trans ?_)
  split
  · exact (hfold ..).trans hasked
  · exact hasked

/-- R329: everything is to seed, from the returner of that identity. -/
theorem seedsAll_of_pairView {idDigest : Nat} {t : State} (hview : pairView t = pairView (rejoined idDigest none s)) :
    t.tw.seedFull = true ∧ t.tw.changed = none ∧ t.tw.peerIdDigest = idDigest ∧ t.tw.seedTodo = allSegments s ∧
    (t.tw.st = .seeding ∨ t.tw.st = .paired) := by
  refine ⟨congrArg Tw.seedFull hview, congrArg Tw.changed hview, congrArg Tw.peerIdDigest hview, congrArg Tw.seedTodo hview, ?_⟩
  have hst : t.tw.st = if allSegments s = [] then .paired else .seeding := congrArg Tw.st hview
  rw [hst]
  split
  · exact .inr rfl
  · exact .inl rfl

/-! Migration Control (R337 to R341). -/

/-- R337: an empty member of no pair and no session arms itself by row 12. -/
theorem armBody_arms {peer idDigest : Nat} (hmode : s.gen.mode = .service) (hns : s.ns = []) (hst : s.tw.st = .none)
    (hfree : noSession s = true) : armBody h peer idDigest s =
      (let v := enterModeEv 12 .ingest (updMig (fun _ => { Mig.none with phase := 1, role := 2, peer := peer, idDigest := idDigest }) s)
      adminOk h { v with prov := { v.prov with migMark := 0 } }) :=
  if_neg (by simp [hmode, hns, hst, hfree])

/-- R337: a source with no session asks a sink that it reaches. -/
theorem startBody_asks {auto : Bool} {peer idDigest : Nat} {nsids : List Nat} (hmode : s.gen.mode = .service ∨ s.gen.mode = .sealed)
    (hst : s.tw.st = .none ∨ s.tw.active = true) (hfree : noSession s = true) (hwait : s.tw.waitCmd = none)
    (hns : startNsOk nsids s = true) (hreach : reachable peer s = true) : startBody h auto peer idDigest nsids s =
      sendCtrl peer 0x10 [idDigest, nsids.length] (sendFrame 3 peer 0x32 0 [] (updTw (fun t => { t with
        waitCmd := some (h.port, h.cid), stopped := [],
        mig := { Mig.none with role := 1, peer := peer, auto := auto, nsids := nsids, idDigest := idDigest } }) s)) := by
  have hin : ¬ (s.gen.mode ≠ .service ∧ s.gen.mode ≠ .sealed) := by tauto
  have hserves : ¬ (s.tw.st ≠ .none ∧ ¬ s.tw.active = true) := by tauto
  exact if_neg (by simp only [hin, hserves, hfree, hwait, hns, hreach, Option.isSome_none, Bool.false_eq_true, not_true, or_self,
    not_false_iff])

/-! The seals (R108). -/

/-- R108: a namespace that is not sealed, and not leaving, is sealed when its writes are done. -/
theorem sealNsBody_accepted {perm : Bool} {n : Ns} (hns : findNs h.nsid s = some n) (hopen : n.sealInfo = none)
    (hlive : beingDeleted h.nsid s = false) (howner : n.owner = true) (hmode : s.gen.mode ≠ .standby) (hhere : n.ingesting = false) :
    sealNsBody h perm s = acceptNs h h.nsid (.sealNs perm) s := by
  simp only [sealNsBody, hns, hopen, hlive, howner, hmode, hhere, Option.isSome_none, Bool.false_eq_true, not_true, or_self, if_false]

/-- R108: a namespace's seal that is not permanent is lifted. -/
theorem unsealNsBody_lifts {csn : Nat} (hlive : beingDeleted h.nsid s = false)
    (hseal : (findNs h.nsid s).bind (·.sealInfo) = some (csn, false)) :
    unsealNsBody h s = adminOk h (mirror 3 [s.mx.csn, 7, h.nsid] (unsealNsNow h.nsid s)) := by
  simp only [unsealNsBody, hlive, hseal, Bool.false_eq_true, if_false]

/-- R108: a permanent one stays. -/
theorem unsealNsBody_stays {csn : Nat} (hlive : beingDeleted h.nsid s = false)
    (hseal : (findNs h.nsid s).bind (·.sealInfo) = some (csn, true)) : unsealNsBody h s = adminFail h 0 0x15 s := by
  simp only [unsealNsBody, hlive, hseal, Bool.false_eq_true, if_false]

end

/-- Settles O20: each command, once served, is accepted in the states its rule names and refused in the others. -/
theorem twinMigrationSeal : Obligations.TwinMigrationSeal := by
  refine ⟨?_, ?_, ?_, ?_, ?_, ?_, ?_, ?_, ?_, ?_, ?_, ?_, ?_, ?_, ?_, ?_, ?_, ?_, ?_, ?_, ?_, ?_⟩
  · -- SWITCH.
    intro h s hserved hst hactive hidle hfree
    exact next_only_eq (execTwinControlSwitch_only ..) (adminCmd_next hserved (switchBody_begins hst hactive hidle hfree))
      (by decide +kernel)
  · -- SWITCH of no active member of a pair.
    intro h s hserved hno
    exact next_only_eq (execTwinControlSwitch_only ..) (adminCmd_next hserved (switchBody_refused hno)) (by decide +kernel)
  · -- UNPAIR.
    intro h s hserved hactive hidle hst
    exact next_only_eq (execTwinControlUnpair_only ..) (adminCmd_next hserved (unpairBody_unpairs hactive hidle hst)) (by decide +kernel)
  · -- RELEASE.
    intro h s hserved hst hmode hns
    exact next_only_eq (execTwinControlRelease_only ..) (adminCmd_next hserved (releaseBody_releases hst hmode hns)) (by decide +kernel)
  · -- Migration: SEAL.
    intro h s hserved hrole hphase
    exact next_only_eq (execMigrationControlSeal_only ..) (adminCmd_next hserved (if_pos ⟨hrole, hphase⟩)) (by decide +kernel)
  · -- Migration: ABORT.
    intro h s hserved hcan
    exact next_only_eq (execMigrationControlAbort_only ..) (adminCmd_next hserved (if_pos hcan)) (by decide +kernel)
  · -- Migration: ABORT too late.
    intro h s hserved hcannot
    exact next_only_eq (execMigrationControlAbort_only ..) (adminCmd_next hserved (if_neg (ne_true_of_eq_false hcannot)))
      (by decide +kernel)
  · -- Migration: STATUS.
    intro h s hserved
    exact next_only_eq (execMigrationControlStatus_only ..) (adminCmd_next hserved rfl) (by decide +kernel)
  · -- Migration: RESOLVE.
    intro h cutOver s hserved hunknown
    exact next_only_eq (execMigrationControlResolve_only ..) (adminCmd_next hserved (if_neg (not_not_intro hunknown))) (by decide +kernel)
  · -- SEAL DEVICE.
    intro h perm s hserved hmode
    exact next_only_eq (execSealDevice_only ..) (adminCmd_next hserved (if_pos hmode)) (by decide +kernel)
  · -- SEAL DEVICE outside SERVICE.
    intro h perm s hserved hmode
    exact next_only_eq (execSealDevice_only ..) (adminCmd_next hserved (if_neg hmode)) (by decide +kernel)
  · -- UNSEAL DEVICE.
    intro h s hserved hlifts
    exact next_only_eq (execUnsealDevice_only ..) (adminCmd_next hserved (if_pos hlifts)) (by decide +kernel)
  · -- UNSEAL DEVICE of a seal that stays.
    intro h s hserved hstays
    exact next_only_eq (execUnsealDevice_only ..) (adminCmd_next hserved (if_neg (ne_true_of_eq_false hstays))) (by decide +kernel)
  · -- SEAL NAMESPACE.
    intro h perm n s hserved hns hopen hlive howner hmode hhere
    exact next_only_eq (execSealNamespace_only ..)
      (adminCmd_next hserved (sealNsBody_accepted hns hopen hlive howner hmode hhere)) (by decide +kernel)
  · -- UNSEAL NAMESPACE.
    intro h csn s hserved hlive hseal
    exact next_only_eq (execUnsealNamespace_only ..) (adminCmd_next hserved (unsealNsBody_lifts hlive hseal)) (by decide +kernel)
  · -- UNSEAL NAMESPACE of a permanent seal.
    intro h csn s hserved hlive hseal
    exact next_only_eq (execUnsealNamespace_only ..) (adminCmd_next hserved (unsealNsBody_stays hlive hseal)) (by decide +kernel)
  · -- PAIR.
    rintro h peer idDigest _ s hserved hdata hst hmode hfree rfl hreach
    exact next_only_eq (execTwinControlPair_only ..) (adminCmd_next_data hserved hdata (pairBody_asks hst hmode hfree hreach))
      (by decide +kernel)
  · -- REJOIN of no lost peer.
    intro h peer idDigest returnerCsn s hserved hdata hno
    exact next_only_eq (execTwinControlRejoin_only ..) (adminCmd_next_data hserved hdata (rejoinBody_refused hno)) (by decide +kernel)
  · -- REJOIN with a full reseed.
    intro h peer idDigest returnerCsn s hserved hdata hst hactive hpeer hid hchanged
    rw [← tw_arrived h s] at hst hactive hpeer hid hchanged
    have hexec : exec (.twinControlRejoin h peer idDigest returnerCsn) s = .next _ :=
      adminCmd_next_data hserved hdata (rejoinBody_rejoins hst hactive hpeer (.inr hid))
    have htodo : rejoinTodo returnerCsn (arrived h s) = none := by rw [rejoinTodo, hchanged]
    refine ⟨_, hexec, (only_of_next (execTwinControlRejoin_only ..) hexec).mono (.ofAll (by decide +kernel)), ?_⟩
    rw [htodo]
    exact seedsAll_of_pairView (((adminDone_only ..).pairView rfl).trans (pairView_rejoinTold ..))
  · -- Migration: ARM.
    intro h peer idDigest s hserved hdata hmode hns hst hfree
    exact next_only_eq (execMigrationControlArm_only ..) (adminCmd_next_data hserved hdata (armBody_arms hmode hns hst hfree))
      (by decide +kernel)
  · -- Migration: START.
    intro h auto peer idDigest nsids s hserved hdata hmode hst hfree hwait hns hreach
    exact next_only_eq (execMigrationControlStart_only ..)
      (adminCmd_next_data hserved hdata (startBody_asks hmode hst hfree hwait hns hreach)) (by decide +kernel)
  · -- REJOIN.
    intro h peer idDigest returnerCsn s hserved hdata hst hactive hpeer hid
    exact next_only_eq (execTwinControlRejoin_only ..) (adminCmd_next_data hserved hdata (rejoinBody_rejoins hst hactive hpeer hid))
      (by decide +kernel)

end Sys2Proof.Machine
end

section
/-! PROOF. O21: the I/O commands go to admission. Rules R109 to R118, R130, R131. -/
namespace Sys2Proof.Machine
-- One theorem at a time: a thread for each would exhaust the memory the check allows.
set_option Elab.async false

section
variable {h : IoHdr} {n : Ns} {c : IoCmd} {bytes : Nat} {s t : State}

/-- A command on LC0 to LC6 that goes in is the one its admission puts in flight. -/
theorem admitBound_of_goesInBound {pages : Bool} (hin : goesInBound h n c bytes pages s = some t) : admitBound h n c bytes pages s = t := by
  unfold goesInBound at hin
  unfold admitBound
  cases hrow : classRow c.cls s with
  | none => rw [hrow] at hin; cases hin
  | some e =>
    simp only [hrow, Option.ite_none_left_eq_some, not_or] at hin
    obtain ⟨⟨hvat, hlane, hcache, hheld⟩, hin⟩ := hin
    simp only [hvat, hlane, hcache, hheld, or_self]
    split at hin
    · cases hin
    · rename_i is s1 hgrant
      simp only [if_false, Bool.false_eq_true]
      rw [Option.ite_none_left_eq_some] at hin
      obtain ⟨hplan, hin⟩ := hin
      rw [if_neg hplan]
      exact Option.some.inj hin

/-- A command that goes in is the one its admission puts in flight. -/
theorem admission_of_goesIn (hin : goesIn h n c bytes s = some t) : admission h n c bytes s = t := by
  rw [goesIn, Option.ite_none_left_eq_some] at hin
  obtain ⟨hwaits, hin⟩ := hin
  rw [admission, if_neg hwaits]
  simp only at hin ⊢
  generalize (!(needPages n c s).isEmpty) = pages at hin ⊢
  generalize (if pages = true then c else lookup n c s) = d at hin ⊢
  rw [Option.ite_none_left_eq_some] at hin
  obtain ⟨hreport, hin⟩ := hin
  rw [if_neg hreport]
  split at hin
  next hlc7 =>
    obtain ⟨x, htry, rfl⟩ := Option.map_eq_some_iff.mp hin
    rw [if_pos hlc7, admitLc7, htry]
  next hbound => rw [if_neg hbound]; exact admitBound_of_goesInBound hin

/-- `admission` is what goes in, where something goes in. -/
theorem goesIn_eq_admission (hin : (goesIn h n c bytes s).isSome = true) : goesIn h n c bytes s = some (admission h n c bytes s) := by
  obtain ⟨t, ht⟩ := Option.isSome_iff_exists.mp hin
  rw [ht, admission_of_goesIn ht]

end

section
variable {h : IoHdr} {n : Ns} {mk : State → IoPlan} {s a : State}

/-- A command that passes every check goes to admission. -/
theorem ioRun_admits (ha : sqeArrived h.port h.sq s = a) (hrdy : rdy h.port s = true) (htarget : ioTarget h a = .inl n)
    (hfields : (mk a).fieldsOk n = none) (hranges : (mk a).ranges.all (rangeOk n) = true)
    (hseal : changeKind (mk a).cmd.kind = true → sealedNs n a = false) (hclass : classBad (mk a).cmd.cls ((mk a).bytes n) n a = false)
    (hdesc : 0 < (mk a).moved n → descCheck h.port h.data ((mk a).moved n) ((mk a).md n) a = none) :
    ioRun h mk s = admission h n
      { (mk a).cmd with
        addrs := dataPieces (hostPage h.port a) h.data ((mk a).moved n)
        mdAddrs := (((mk a).md n).map (·.pieces)).getD [] } ((mk a).bytes n) a := by
  have hunsealed : ¬ (changeKind (mk a).cmd.kind = true ∧ sealedNs n a = true) := fun hboth => by simp [hseal hboth.1] at hboth
  have hdata : (if (mk a).moved n = 0 then none else descCheck h.port h.data ((mk a).moved n) ((mk a).md n) a) = none := by
    split
    next => rfl
    next hmoves => exact hdesc (Nat.pos_of_ne_zero hmoves)
  rw [ioRun, if_neg (not_not_intro hrdy)]
  simp only [ha, htarget, hfields, hranges, hclass, hdata, hunsealed, not_true, Bool.false_eq_true, if_false]

/-- A command on a namespace it may not change is completed with 7/82h. -/
theorem ioRun_sealed (ha : sqeArrived h.port h.sq s = a) (hrdy : rdy h.port s = true) (htarget : ioTarget h a = .inl n)
    (hfields : (mk a).fieldsOk n = none) (hranges : (mk a).ranges.all (rangeOk n) = true)
    (hseal : changeKind (mk a).cmd.kind = true ∧ sealedNs n a = true) : ioRun h mk s = ioFail h 7 0x82 0 a := by
  rw [ioRun, if_neg (not_not_intro hrdy)]
  simp only [ha, htarget, hfields, hranges, hseal, not_true, if_false, and_self, if_true]

/-- A command whose range goes beyond the namespace is completed with 0/80h. -/
theorem ioRun_beyond (ha : sqeArrived h.port h.sq s = a) (hrdy : rdy h.port s = true) (htarget : ioTarget h a = .inl n)
    (hfields : (mk a).fieldsOk n = none) (hranges : (mk a).ranges.all (rangeOk n) = false) : ioRun h mk s = ioFail h 0 0x80 0 a := by
  rw [ioRun, if_neg (not_not_intro hrdy)]
  simp only [ha, htarget, hfields, hranges, Bool.false_eq_true, not_false_iff, if_true]

/-- A command whose namespace, role or mode is wrong is completed with what says so. -/
theorem ioRun_astray {e : Nat × Nat} (ha : sqeArrived h.port h.sq s = a) (hrdy : rdy h.port s = true) (htarget : ioTarget h a = .inr e) :
    ioRun h mk s = ioFail h e.1 e.2 0 a := by
  rw [ioRun, if_neg (not_not_intro hrdy)]
  simp only [ha, htarget]

end

/-- Where no namespace has the identifier, a command finds none. -/
theorem ioTarget_missing {h : IoHdr} {s : State} (hmode : modesAll s.gen.mode = true) (hfuse : h.fuse = 0) (hres : h.reservedZero = true)
    (hsan : s.sh.sanState = 0) (hns : findNs h.nsid s = none) : ioTarget h s = .inr (0, 0x0B) := by
  simp [ioTarget, hmode, hfuse, hres, hsan, hns]

/-- Arrival of a command leaves the namespaces alone. -/
theorem findNs_sqeArrived (p : Port) (sq n : Nat) (s : State) : findNs n (sqeArrived p sq s) = findNs n s :=
  congrArg (List.find? (fun x : Ns => x.nsid == n)) ((sqeArrived_only p sq s).keeps .ns (by decide +kernel))

/-- A range that lies within the namespace is one of ranges that all do. -/
theorem all_rangeOk_singleton {n : Ns} {r : Nat × Nat} {b : Bool} (hrange : rangeOk n r = b) : [r].all (rangeOk n) = b := by
  rw [List.all_cons, List.all_nil, Bool.and_true, hrange]

/-- Two ranges lie within the namespace. -/
theorem all_rangeOk_pair {n : Ns} {r r' : Nat × Nat} (hfst : rangeOk n r = true) (hsnd : rangeOk n r' = true) :
    [r, r'].all (rangeOk n) = true := by
  rw [List.all_cons, hfst, Bool.true_and, all_rangeOk_singleton hsnd]

/-- What goes in is the state that the command leaves. -/
theorem next_only_goesIn {v w : List Fld} {o : Host.Outcome State Fault Refusal} {h : IoHdr} {n : Ns} {c : IoCmd} {bytes : Nat}
    {s a : State}
    (hframe : ∃ t, o = .next t ∧ Only v s t) (heff : o = .next (admission h n c bytes a)) (hin : (goesIn h n c bytes a).isSome = true)
    (hw : v.all (covered w) = true) : ∃ t, o = .next t ∧ Only w s t ∧ goesIn h n c bytes a = some t :=
  ⟨_, heff, (only_of_next hframe heff).mono (.ofAll hw), goesIn_eq_admission hin⟩

section
variable {h : IoHdr} {n : Ns} {s a : State}

/-- The fields that Dataset Management checks: one to 256 ranges. -/
theorem dsmFields_ok {ranges : List (Nat × Nat)} (hlen : ranges ≠ [] ∧ ranges.length ≤ 256) :
    (if ranges = [] ∨ 256 < ranges.length then some (0, 0x02) else none : Option (Nat × Nat)) = none :=
  if_neg (by simp only [hlen.1, false_or, not_lt, hlen.2])

/-- A Copy of one range in the format of its namespace has valid fields. -/
theorem copyFields_ok {format nlb src : Nat} {prr prw : PrInfo}
    (hfields : format = copyFormat n ∧ dataFields nlb prr n = none ∧ prValid n prw = true) :
    (if format ≠ copyFormat n ∨ [(src, nlb)].length ≠ 1 then some (0, 0x02)
      else match dataFields nlb prr n with
        | some e => some e
        | none => if prValid n prw then none else some (1, 0x81) : Option (Nat × Nat)) = none := by
  obtain ⟨hformat, hread, hwrite⟩ := hfields
  simp [hformat, hread, hwrite]

/-- The fields of a Fixity Digest: an algorithm that exists, at most 2^32 LBAs. -/
theorem fixityFields_ok {alg nlb : Nat} (hfields : alg < 3 ∧ nlb ≤ 2 ^ 32) :
    (if 3 ≤ alg ∨ 2 ^ 32 < nlb then some (0, 0x02) else none : Option (Nat × Nat)) = none :=
  if_neg (by omega)

/-- A Flush of all namespaces that nothing turns away goes to admission against `allNs`. -/
theorem flushAll_admits (ha : sqeArrived h.port h.sq s = a) (hrdy : rdy h.port s = true) (hmode : modesAll a.gen.mode = true)
    (hfuse : h.fuse = 0) (hres : h.reservedZero = true) (hsan : a.sh.sanState ≠ 1 ∧ a.sh.sanState ≠ 3) (hswitch : a.tw.switching = false)
    (hstandby : a.gen.mode ≠ .standby) (hingest : a.gen.mode ≠ .ingest) :
    flushAll h s = admission h allNs { ioDraft h .flush a with flushCsn := a.mx.csn } 0 a := by
  obtain ⟨hone, hthree⟩ := hsan
  rw [flushAll, if_neg (not_not_intro hrdy)]
  simp only [ha, hmode, hfuse, hres, hone, hthree, hswitch, hstandby, hingest, ne_eq, not_true, or_self, Bool.false_eq_true, if_false]

/-- A hint that nothing turns away has no effect and completes. -/
theorem dsmHint_completes {ranges : List (Nat × Nat)} (ha : sqeArrived h.port h.sq s = a) (hrdy : rdy h.port s = true)
    (htarget : ioTarget h a = .inl n) (hlen : ranges ≠ [] ∧ ranges.length ≤ 256) (hranges : ranges.all (rangeOk n) = true)
    (hclass : classBad (classOfSq h.port h.sq a) 0 n a = false) (hdesc : descCheck h.port h.data (16 * ranges.length) none a = none)
    (hreport : reportDue h.port (fun x => x == n.nsid) a = false) : dsmHint h ranges s = ioFail h 0 0 0 a := by
  obtain ⟨hsome, hfew⟩ := hlen
  rw [dsmHint, if_neg (not_not_intro hrdy)]
  simp only [ha, htarget, hsome, Nat.not_lt.mpr hfew, hranges, hclass, hdesc, hreport, not_true, or_self, Bool.false_eq_true, if_false]

end

section
variable {h : IoHdr} {n : Ns} {slba nlb : Nat} {s a : State}

/-- A Read on a namespace that does not exist is completed with 0/0Bh. -/
theorem read_missing {fua : Bool} {pr : PrInfo} (hrdy : rdy h.port s = true) (hmode : modesAll s.gen.mode = true) (hfuse : h.fuse = 0)
    (hres : h.reservedZero = true) (hsan : s.sh.sanState = 0) (hns : findNs h.nsid s = none) :
    execRead h slba nlb fua pr s = .next (ioFail h 0 0x0B 0 (sqeArrived h.port h.sq s)) := by
  have hgen : (sqeArrived h.port h.sq s).gen = s.gen := (sqeArrived_only ..).keeps .gen (by decide +kernel)
  have hsh : (sqeArrived h.port h.sq s).sh = s.sh := (sqeArrived_only ..).keeps .sh (by decide +kernel)
  exact congrArg Host.Outcome.next (ioRun_astray rfl hrdy
    (ioTarget_missing (hgen ▸ hmode) hfuse hres (hsh ▸ hsan) ((findNs_sqeArrived ..).trans hns)))

end

section
variable {h : IoHdr} {n : Ns} {slba nlb : Nat} {fua : Bool} {pr : PrInfo} {s a : State}
variable (ha : sqeArrived h.port h.sq s = a) (hrdy : rdy h.port s = true) (htarget : ioTarget h a = .inl n)
include ha hrdy htarget

/-! Each command that passes the checks, with its operands, class and pieces (R109 to R118). -/

/-- R109. -/
theorem execRead_admits (hfields : dataFields nlb pr n = none) (hrange : rangeOk n (slba, nlb) = true)
    (hclass : classBad (classOfSq h.port h.sq a) (nlb * lbaBytes n.lbaf) n a = false)
    (hdesc : 0 < moveBytes n pr nlb → descCheck h.port h.data (moveBytes n pr nlb) (mdPair n pr nlb h) a = none) :
    execRead h slba nlb fua pr s = .next (admission h n
      { ioDraft h .read a with
        slba := slba, nlb := nlb, fua := fua, prr := pr, addrs := dataPieces (hostPage h.port a) h.data (moveBytes n pr nlb),
        mdAddrs := ((mdPair n pr nlb h).map (·.pieces)).getD [] } (nlb * lbaBytes n.lbaf) a) :=
  congrArg Host.Outcome.next (ioRun_admits ha hrdy htarget hfields (all_rangeOk_singleton hrange) nofun hclass hdesc)

/-- R110. -/
theorem execWrite_admits {stream : Nat} (hfields : dataFields nlb pr n = none) (hrange : rangeOk n (slba, nlb) = true)
    (hseal : sealedNs n a = false) (hclass : classBad (classOfSq h.port h.sq a) (nlb * lbaBytes n.lbaf) n a = false)
    (hdesc : 0 < moveBytes n pr nlb → descCheck h.port h.data (moveBytes n pr nlb) (mdPair n pr nlb h) a = none) :
    execWrite h slba nlb fua pr stream s = .next (admission h n
      { ioDraft h .write a with
        slba := slba, nlb := nlb, fua := asFua fua a, prw := pr, stream := stream,
        addrs := dataPieces (hostPage h.port a) h.data (moveBytes n pr nlb),
        mdAddrs := ((mdPair n pr nlb h).map (·.pieces)).getD [] } (nlb * lbaBytes n.lbaf) a) :=
  congrArg Host.Outcome.next (ioRun_admits ha hrdy htarget hfields (all_rangeOk_singleton hrange) (fun _ => hseal) hclass hdesc)

/-- R112, for one namespace. -/
theorem execFlush_admits (hclass : classBad (classOfSq h.port h.sq a) 0 n a = false) (hnsid : h.nsid ≠ 0xFFFFFFFF) :
    execFlush h s = .next (admission h n
      { ioDraft h .flush a with
        flushCsn := ((findNs h.nsid a).map (·.lastCsn)).getD 0, addrs := dataPieces (hostPage h.port a) h.data 0 } 0 a) :=
  congrArg Host.Outcome.next ((if_neg hnsid).trans (ioRun_admits ha hrdy htarget rfl rfl nofun hclass nofun))

/-- R149. -/
theorem execWriteUncorrectable_admits (hrange : rangeOk n (slba, nlb) = true) (hseal : sealedNs n a = false)
    (hclass : classBad (classOfSq h.port h.sq a) 0 n a = false) :
    execWriteUncorrectable h slba nlb s = .next (admission h n
      { ioDraft h .writeUncor a with
        slba := slba, nlb := nlb, fua := asFua false a, addrs := dataPieces (hostPage h.port a) h.data 0 } 0 a) :=
  congrArg Host.Outcome.next (ioRun_admits ha hrdy htarget rfl (all_rangeOk_singleton hrange) (fun _ => hseal) hclass nofun)

/-- R111. -/
theorem execWriteZeroes_admits (deac : Bool) (hpr : prValid n pr = true) (hrange : rangeOk n (slba, nlb) = true)
    (hseal : sealedNs n a = false) (hclass : classBad (classOfSq h.port h.sq a) 0 n a = false) :
    execWriteZeroes h slba nlb fua deac pr s = .next (admission h n
      { ioDraft h .writeZeroes a with
        slba := slba, nlb := nlb, fua := asFua fua a, addrs := dataPieces (hostPage h.port a) h.data 0 } 0 a) :=
  congrArg Host.Outcome.next (ioRun_admits ha hrdy htarget (if_pos hpr) (all_rangeOk_singleton hrange) (fun _ => hseal) hclass nofun)

/-- R160. -/
theorem execDatasetManagement_admits {ad : Bool} {ranges : List (Nat × Nat)} (hlen : ranges ≠ [] ∧ ranges.length ≤ 256)
    (hseal : sealedNs n a = false) (hclass : classBad (classOfSq h.port h.sq a) 0 n a = false)
    (hdesc : descCheck h.port h.data (16 * ranges.length) none a = none) (had : ad = true) (hranges : ranges.all (rangeOk n) = true) :
    execDatasetManagement h ad ranges s = .next (admission h n
      { ioDraft h .dsm a with
        ranges := ranges, fua := asFua false a, addrs := dataPieces (hostPage h.port a) h.data (16 * ranges.length) } 0 a) :=
  congrArg Host.Outcome.next ((if_neg (not_not_intro had)).trans
    (ioRun_admits ha hrdy htarget (dsmFields_ok hlen) hranges (fun _ => hseal) hclass fun _ => hdesc))

/-- R235. -/
theorem execVerify_admits (hfields : dataFields nlb pr n = none) (hrange : rangeOk n (slba, nlb) = true)
    (hclass : classBad (classOfSq h.port h.sq a) (nlb * lbaBytes n.lbaf) n a = false) :
    execVerify h slba nlb pr s = .next (admission h n
      { ioDraft h .verify a with
        slba := slba, nlb := nlb, prr := pr, addrs := dataPieces (hostPage h.port a) h.data 0 } (nlb * lbaBytes n.lbaf) a) :=
  congrArg Host.Outcome.next (ioRun_admits ha hrdy htarget hfields (all_rangeOk_singleton hrange) nofun hclass nofun)

/-- R94. -/
theorem execCopy_admits {sdlba format src : Nat} {prr prw : PrInfo}
    (hfields : format = copyFormat n ∧ dataFields nlb prr n = none ∧ prValid n prw = true) (hsrc : rangeOk n (src, nlb) = true)
    (hdst : rangeOk n (sdlba, nlb) = true) (hseal : sealedNs n a = false)
    (hclass : classBad (classOfSq h.port h.sq a) (nlb * lbaBytes n.lbaf) n a = false)
    (hdesc : descCheck h.port h.data (if copyFormat n = 1 then 40 else 32) none a = none) :
    execCopy h sdlba format [(src, nlb)] fua prr prw s = .next (admission h n
      { ioDraft h .copy a with
        slba := src, nlb := nlb, dst := sdlba, fua := asFua fua a, prr := prr, prw := prw,
        addrs := dataPieces (hostPage h.port a) h.data (if copyFormat n = 1 then 40 else 32) } (nlb * lbaBytes n.lbaf) a) :=
  congrArg Host.Outcome.next (ioRun_admits ha hrdy htarget (copyFields_ok hfields) (all_rangeOk_pair hsrc hdst) (fun _ => hseal) hclass
    fun _ => hdesc)

/-- R354. -/
theorem execFixityDigest_admits {alg : Nat} (hfields : alg < 3 ∧ nlb ≤ 2 ^ 32) (hrange : rangeOk n (slba, nlb) = true)
    (hclass : classBad (classOfSq h.port h.sq a) (nlb * lbaBytes n.lbaf) n a = false)
    (hdesc : descCheck h.port h.data 64 none a = none) :
    execFixityDigest h slba nlb alg s = .next (admission h n
      { ioDraft h .fixity a with
        slba := slba, nlb := nlb, alg := alg, addrs := dataPieces (hostPage h.port a) h.data 64 } (nlb * lbaBytes n.lbaf) a) :=
  congrArg Host.Outcome.next (ioRun_admits ha hrdy htarget (fixityFields_ok hfields) (all_rangeOk_singleton hrange) nofun hclass
    fun _ => hdesc)

end

/-- Settles O21: every command that passes the checks is the one that `admission` gets, with its class, operands and pieces. -/
theorem ioCommandsAdmitted : Obligations.IoCommandsAdmitted := by
  unfold Obligations.IoCommandsAdmitted
  refine ⟨?read, ?write, ?flush, ?uncorrectable, ?zeroes, ?deallocate, ?hint, ?verify, ?copy, ?fixity, ?sealed, ?beyond, ?missing,
    ?readIn, ?writeIn, ?flushIn, ?uncorrectableIn, ?zeroesIn, ?deallocateIn, ?verifyIn, ?copyIn, ?fixityIn, ?flushAllIn, ?hintDone⟩
  case read =>
    intro h slba nlb fua pr n s hrdy htarget hfields hrange hclass hdesc
    exact next_only_eq (execRead_only h slba nlb fua pr s) (execRead_admits rfl hrdy htarget hfields hrange hclass hdesc)
      (by decide +kernel)
  case write =>
    intro h slba nlb fua pr stream n s hrdy htarget hfields hrange hseal hclass hdesc
    exact next_only_eq (execWrite_only h slba nlb fua pr stream s) (execWrite_admits rfl hrdy htarget hfields hrange hseal hclass hdesc)
      (by decide +kernel)
  case flush =>
    intro h n s hrdy htarget hclass hnsid
    exact next_only_eq (execFlush_only h s) (execFlush_admits rfl hrdy htarget hclass hnsid) (by decide +kernel)
  case uncorrectable =>
    intro h slba nlb n s hrdy htarget hrange hseal hclass
    exact next_only_eq (execWriteUncorrectable_only h slba nlb s) (execWriteUncorrectable_admits rfl hrdy htarget hrange hseal hclass)
      (by decide +kernel)
  case zeroes =>
    intro h slba nlb fua deac pr n s hrdy htarget hpr hrange hseal hclass
    exact next_only_eq (execWriteZeroes_only h slba nlb fua deac pr s)
      (execWriteZeroes_admits rfl hrdy htarget deac hpr hrange hseal hclass) (by decide +kernel)
  case deallocate =>
    intro h ad ranges n s hrdy htarget hlen hseal hclass hdesc _ had hranges
    exact next_only_eq (execDatasetManagement_only h ad ranges s)
      (execDatasetManagement_admits rfl hrdy htarget hlen hseal hclass hdesc had hranges) (by decide +kernel)
  case hint =>
    intro h ad ranges s had
    exact next_only_eq (execDatasetManagement_only h ad ranges s) (congrArg Host.Outcome.next (if_pos (by simp [had]))) (by decide +kernel)
  case verify =>
    intro h slba nlb pr n s hrdy htarget hfields hrange hclass
    exact next_only_eq (execVerify_only h slba nlb pr s) (execVerify_admits rfl hrdy htarget hfields hrange hclass) (by decide +kernel)
  case copy =>
    intro h sdlba format src nlb fua prr prw n s hrdy htarget hfields hsrc hdst hseal hclass hdesc _
    exact next_only_eq (execCopy_only h sdlba format [(src, nlb)] fua prr prw s)
      (execCopy_admits rfl hrdy htarget hfields hsrc hdst hseal hclass hdesc) (by decide +kernel)
  case fixity =>
    intro h slba nlb alg n s hrdy htarget hfields hrange hclass hdesc _
    exact next_only_eq (execFixityDigest_only h slba nlb alg s) (execFixityDigest_admits rfl hrdy htarget hfields hrange hclass hdesc)
      (by decide +kernel)
  case sealed =>
    intro h slba nlb fua pr stream n s hrdy htarget hfields hrange hseal
    exact next_only_eq (execWrite_only h slba nlb fua pr stream s) (congrArg Host.Outcome.next
      (ioRun_sealed rfl hrdy htarget hfields (all_rangeOk_singleton hrange) ⟨rfl, hseal⟩)) (by decide +kernel)
  case beyond =>
    intro h slba nlb fua pr n s hrdy htarget hfields hrange
    exact next_only_eq (execRead_only h slba nlb fua pr s) (congrArg Host.Outcome.next
      (ioRun_beyond rfl hrdy htarget hfields (all_rangeOk_singleton hrange))) (by decide +kernel)
  case missing =>
    intro h slba nlb fua pr s hrdy hmode hfuse hres hsan hns
    exact next_only_eq (execRead_only h slba nlb fua pr s) (read_missing hrdy hmode hfuse hres hsan hns) (by decide +kernel)
  case readIn =>
    intro h slba nlb fua pr n s hrdy htarget hfields hrange hclass hdesc hin
    exact next_only_goesIn (execRead_only h slba nlb fua pr s) (execRead_admits rfl hrdy htarget hfields hrange hclass hdesc) hin
      (by decide +kernel)
  case writeIn =>
    intro h slba nlb fua pr stream n s hrdy htarget hfields hrange hseal hclass hdesc hin
    exact next_only_goesIn (execWrite_only h slba nlb fua pr stream s)
      (execWrite_admits rfl hrdy htarget hfields hrange hseal hclass hdesc) hin (by decide +kernel)
  case flushIn =>
    intro h n s hrdy htarget hclass hnsid hin
    exact next_only_goesIn (execFlush_only h s) (execFlush_admits rfl hrdy htarget hclass hnsid) hin (by decide +kernel)
  case uncorrectableIn =>
    intro h slba nlb n s hrdy htarget hrange hseal hclass hin
    exact next_only_goesIn (execWriteUncorrectable_only h slba nlb s)
      (execWriteUncorrectable_admits rfl hrdy htarget hrange hseal hclass) hin (by decide +kernel)
  case zeroesIn =>
    intro h slba nlb fua deac pr n s hrdy htarget hpr hrange hseal hclass hin
    exact next_only_goesIn (execWriteZeroes_only h slba nlb fua deac pr s)
      (execWriteZeroes_admits rfl hrdy htarget deac hpr hrange hseal hclass) hin (by decide +kernel)
  case deallocateIn =>
    intro h ad ranges n s hrdy htarget hlen hseal hclass hdesc _ had hranges hin
    exact next_only_goesIn (execDatasetManagement_only h ad ranges s)
      (execDatasetManagement_admits rfl hrdy htarget hlen hseal hclass hdesc had hranges) hin (by decide +kernel)
  case verifyIn =>
    intro h slba nlb pr n s hrdy htarget hfields hrange hclass hin
    exact next_only_goesIn (execVerify_only h slba nlb pr s) (execVerify_admits rfl hrdy htarget hfields hrange hclass) hin
      (by decide +kernel)
  case copyIn =>
    intro h sdlba format src nlb fua prr prw n s hrdy htarget hfields hsrc hdst hseal hclass hdesc _ hin
    exact next_only_goesIn (execCopy_only h sdlba format [(src, nlb)] fua prr prw s)
      (execCopy_admits rfl hrdy htarget hfields hsrc hdst hseal hclass hdesc) hin (by decide +kernel)
  case fixityIn =>
    intro h slba nlb alg n s hrdy htarget hfields hrange hclass hdesc _ hin
    exact next_only_goesIn (execFixityDigest_only h slba nlb alg s)
      (execFixityDigest_admits rfl hrdy htarget hfields hrange hclass hdesc) hin (by decide +kernel)
  case flushAllIn =>
    intro h s hrdy hnsid hmode hfuse hres hsan hswitch hstandby hingest hin
    exact next_only_goesIn (execFlush_only h s) (congrArg Host.Outcome.next
      ((if_pos hnsid).trans (flushAll_admits rfl hrdy hmode hfuse hres hsan hswitch hstandby hingest))) hin (by decide +kernel)
  case hintDone =>
    intro h ad ranges n s hrdy htarget had hlen hranges hclass hdesc hreport
    exact next_only_eq (execDatasetManagement_only h ad ranges s) (congrArg Host.Outcome.next
      ((if_pos (by simp [had])).trans (dsmHint_completes rfl hrdy htarget hlen hranges hclass hdesc hreport))) (by decide +kernel)

end Sys2Proof.Machine
end

section
/-! PROOF. O22: the stages of an I/O command. Rules R22, R84, R116, R132, R149, R150, R152, R154, R163, R164, R236, R412. -/
namespace Sys2Proof.Machine
-- One theorem at a time: a thread for each would exhaust the memory the check allows.
set_option Elab.async false

section
variable {s t : State}

/-! What the end of a command leaves alone (R22). -/

/-- What a completion is counted by: the commands there are, who waits for the ceiling, the shared state, and what the commands wait for. -/
def endView (s : State) : List Nat × List Nat × Shared × List NsWait × Bool :=
  (s.cmds.map (·.id), s.mx.ceilWait, s.sh, s.nsWait, s.tw.switching)

/-- A change of other places leaves the view alone. -/
theorem Only.endView {w : List Fld} (h : Only w s t) (hcmds : covered w .cmds = false) (hmx : covered w .mx = false)
    (hsh : covered w .sh = false) (hwait : covered w .nsWait = false) (htw : covered w .tw = false) :
    Machine.endView t = Machine.endView s := by
  have hcmds : t.cmds = s.cmds := h.keeps .cmds hcmds
  have hmx : t.mx = s.mx := h.keeps .mx hmx
  have hsh : t.sh = s.sh := h.keeps .sh hsh
  have hwait : t.nsWait = s.nsWait := h.keeps .nsWait hwait
  have htw : t.tw = s.tw := h.keeps .tw htw
  simp only [Machine.endView, hcmds, hmx, hsh, hwait, htw]

/-- An update of the first element that `c` picks leaves alone what `f` keeps. -/
theorem map_updFirst {α β : Type} {f : α → α} {g : α → β} (hg : ∀ x, g (f x) = g x) (c : α → Bool) (l : List α) :
    (updFirst l c f).map g = l.map g := by
  induction l with
  | nil => rfl
  | cons x l ih => cases hx : c x <;> simp [updFirst, hx, hg, ih]

/-- A staging record that goes. -/
theorem endView_releaseStaged (i : Nat) (s : State) : endView (releaseStaged i s) = endView s := by
  unfold releaseStaged
  split
  · rfl
  · extract_lets e
    split
    · rfl
    · exact (putBufs_only ..).endView rfl rfl rfl rfl rfl

/-- The staging records that a command read. -/
theorem endView_dropReaders (id : Nat) (s : State) : endView (dropReaders id s) = endView s := by
  have hfold (l : List Nat) (t : State) : endView (l.foldl (fun t i => releaseStaged i t) t) = endView t := by
    induction l generalizing t with
    | nil => rfl
    | cons i l ih => exact (ih _).trans (endView_releaseStaged i t)
  exact hfold ..

/-- The data reads of one command. -/
theorem endView_issueFor (p : Port) (id total n : Nat) (s : State) : endView (issueFor p id total n s) = endView s := by
  induction n generalizing s with
  | zero => rfl
  | succ n ih =>
    unfold issueFor
    split
    · have hupd : endView (updCmd id (fun x => { x with toRead := n }) s) = endView s := by
        have hids := map_updFirst (f := fun x : IoCmd => { x with toRead := n }) (g := IoCmd.id) (fun _ => rfl) (fun c => c.id == id) s.cmds
        exact congrArg (fun l => (l, s.mx.ceilWait, s.sh, s.nsWait, s.tw.switching)) hids
      exact (ih _).trans (((issueFetch_only ..).endView rfl rfl rfl rfl rfl).trans hupd)
    · rfl

/-- The data reads of a port. -/
theorem endView_issueReads (p : Port) (s : State) : endView (issueReads p s) = endView s := by
  have hfold (l : List IoCmd) (t : State) :
      endView (l.foldl (fun t c => if c.port = p ∧ c.stage = .dataIn then issueFor p c.id c.reads c.toRead t else t) t) = endView t := by
    induction l generalizing t with
    | nil => rfl
    | cons c l ih =>
      refine (ih _).trans ?_
      dsimp only
      split
      · exact endView_issueFor ..
      · rfl
  exact hfold ..

/-- R22: after a command left with nothing waiting, no switchover and no Sanitize, only its queues and the other commands' reads move. -/
theorem endView_afterCompletion (p : Port) (hwait : s.nsWait = []) (hsan : s.sh.sanState = 0) (hswitch : s.tw.switching = false) :
    endView (afterCompletion p s) = endView s := by
  have hswitched : switchNow s = s := if_neg (by simp [hswitch])
  have hdeleted : endView (finishDeletes p s) = endView s := (finishDeletes_only ..).endView rfl rfl rfl rfl rfl
  have hnone : (finishDeletes p s).nsWait = [] := ((finishDeletes_only p s).keeps .nsWait rfl).trans hwait
  have hidle : (finishDeletes p s).sh.sanState = 0 :=
    (congrArg Shared.sanState ((finishDeletes_only p s).keeps .sh rfl)).trans hsan
  have hsettled : settleNs (finishDeletes p s) = finishDeletes p s := by rw [settleNs, hnone, List.foldl_nil]
  have hsanitized : settleSanitize (finishDeletes p s) = finishDeletes p s := by simp [settleSanitize, hidle]
  rw [afterCompletion, hswitched, hsettled, hsanitized, endView_issueReads, hdeleted]

/-! The end of a command. -/

/-- What a command holds is released: buffers, bookings, the records it read, and the digest context of a Fixity Digest. -/
def cmdReleased (id : Nat) (c : IoCmd) (s : State) : State :=
  let s := dropReaders id (unbook id (putBufs c.bufs s))
  if c.kind = .fixity then (let t := closeFixity (fun k => k == id) s; dgFill t.dg.queue.length t) else s

/-- A command is counted and leaves. -/
def cmdGone (id : Nat) (c : IoCmd) (s : State) : State :=
  { s with
    sh := { s.sh with hostReads := s.sh.hostReads + (if c.kind = .read then 1 else 0),
                      hostWrites := s.sh.hostWrites + (if c.kind = .write then 1 else 0) },
    cmds := s.cmds.filter (fun x => x.id != id),
    mx := { s.mx with ceilWait := s.mx.ceilWait.filter (fun x => x != id) },
    tw := { s.tw with winWait := s.tw.winWait.filter (fun x => x != id) } }

/-- Its completion entry is posted. -/
def cmdPosted (c : IoCmd) (sct sc dw0 : Nat) (s : State) : State :=
  postDone c.port c.sq c.cid sct sc dw0 0 (some ⟨c.cls, doneKind c, c.t0, c.deadline, c.ext⟩) s

/-- The end of a command, step by step: what it holds goes, it leaves, its completion is posted, and what waited goes on. -/
theorem finishCmd_eq {id sct sc dw0 : Nat} {c : IoCmd} (hc : findCmd id s = some c) :
    finishCmd id sct sc dw0 s =
      let d := (beyondExt c s).1
      afterCompletion d.port (cmdPosted d sct sc dw0 (cmdGone id d (cmdReleased id d (beyondExt c s).2))) := by
  rw [finishCmd, hc]
  rfl

/-- What a command held is no place of the view. -/
theorem endView_cmdReleased (id : Nat) (c : IoCmd) (s : State) : endView (cmdReleased id c s) = endView s := by
  unfold cmdReleased
  extract_lets dropped closed
  have hdropped : endView dropped = endView s :=
    (endView_dropReaders ..).trans (((unbook_only ..).endView rfl rfl rfl rfl rfl).trans ((putBufs_only ..).endView rfl rfl rfl rfl rfl))
  split
  · exact ((dgFill_only ..).endView rfl rfl rfl rfl rfl).trans (((closeFixity_only ..).endView rfl rfl rfl rfl rfl).trans hdropped)
  · exact hdropped

/-- A late end changes no command's kind. -/
theorem beyondExt_kind (c : IoCmd) (s : State) : (beyondExt c s).1.kind = c.kind := by
  unfold beyondExt
  split <;> rfl

/-- R22: a command that ends with nothing waiting on the commands is gone, waits for nothing, and is counted as a write if it is one. -/
theorem finishCmd_ends {id sct sc dw0 : Nat} {c : IoCmd} (hc : findCmd id s = some c) (hwait : s.nsWait = []) (hsan : s.sh.sanState = 0)
    (hswitch : s.tw.switching = false) : (∀ x ∈ (finishCmd id sct sc dw0 s).cmds, x.id ≠ id) ∧
      (finishCmd id sct sc dw0 s).mx.ceilWait = s.mx.ceilWait.filter (fun x => x != id) ∧
      (finishCmd id sct sc dw0 s).sh.hostWrites = s.sh.hostWrites + (if c.kind = .write then 1 else 0) := by
  obtain ⟨d, hd⟩ : ∃ d, d = (beyondExt c s).1 := ⟨_, rfl⟩
  have hkind : d.kind = c.kind := hd ▸ beyondExt_kind c s
  obtain ⟨r, hr⟩ : ∃ r, r = cmdReleased id d (beyondExt c s).2 := ⟨_, rfl⟩
  have hreleased : endView r = endView s :=
    hr ▸ (endView_cmdReleased ..).trans ((beyondExt_only ..).endView rfl rfl rfl rfl rfl)
  simp only [endView, Prod.mk.injEq] at hreleased
  obtain ⟨-, hceil, hsh, hnone, htw⟩ := hreleased
  obtain ⟨q, hq⟩ : ∃ q, q = cmdPosted d sct sc dw0 (cmdGone id d r) := ⟨_, rfl⟩
  have hposted : Only [.out, .he, .ctl, .fs, .reg Reg.QE_CQFULL.COUNT] (cmdGone id d r) q := hq ▸ postDone_only ..
  have hqwait : q.nsWait = [] := (hposted.keeps .nsWait rfl).trans (hnone.trans hwait)
  have hqsan : q.sh.sanState = 0 := (congrArg Shared.sanState (hposted.keeps .sh rfl)).trans ((congrArg Shared.sanState hsh).trans hsan)
  have hqswitch : q.tw.switching = false := (congrArg Tw.switching (hposted.keeps .tw rfl)).trans (htw.trans hswitch)
  have hend : endView (finishCmd id sct sc dw0 s) = endView (cmdGone id d r) := by
    rw [finishCmd_eq hc]
    simp only [← hd, ← hr, ← hq]
    exact (endView_afterCompletion _ hqwait hqsan hqswitch).trans (hposted.endView rfl rfl rfl rfl rfl)
  simp only [endView, cmdGone, Prod.mk.injEq] at hend
  obtain ⟨hids, hceils, hshared, -, -⟩ := hend
  refine ⟨fun x hx => ?_, hceils.trans (by rw [hceil]), (congrArg Shared.hostWrites hshared).trans (by rw [hsh, hkind])⟩
  have hmem : x.id ∈ (r.cmds.filter (fun x => x.id != id)).map (·.id) := hids ▸ List.mem_map_of_mem hx
  obtain ⟨y, hy, hyid⟩ := List.mem_map.mp hmem
  exact hyid ▸ bne_iff_ne.mp (List.mem_filter.mp hy).2

/-! The merge of a partial grain (R149, R150). -/

/-- A lost extent listed is counted. -/
theorem listLost_lostTotal (nsid slba nlb cause csn : Nat) (s : State) :
    (listLost nsid slba nlb cause csn s).sh.lostTotal = s.sh.lostTotal + 1 := by
  unfold listLost
  extract_lets e counted _ _ listed
  have hlisted : listed.sh.lostTotal = s.sh.lostTotal + 1 := by
    unfold listed
    split
    · rfl
    · split <;> rfl
  exact (congrArg Shared.lostTotal (((evLost_only ..).keeps .sh rfl).trans ((logEvent_only ..).keeps .sh rfl))).trans hlisted

/-- Lost extents listed one after the other are counted, and change no staging record. -/
theorem foldl_listLost {β : Type} {f : β → State → State}
    (hf : ∀ b t, ∃ nsid slba nlb cause csn, f b t = listLost nsid slba nlb cause csn t)
    (l : List β) (s : State) : (l.foldl (fun t b => f b t) s).sh.lostTotal = s.sh.lostTotal + l.length ∧
      (l.foldl (fun t b => f b t) s).mx = s.mx := by
  induction l generalizing s with
  | nil => exact ⟨rfl, rfl⟩
  | cons b l ih =>
    obtain ⟨nsid, slba, nlb, cause, csn, hb⟩ := hf b s
    obtain ⟨htotal, hmx⟩ := ih (f b s)
    rw [List.foldl_cons, htotal, hmx, hb, listLost_lostTotal, List.length_cons]
    exact ⟨by omega, (listLost_only ..).keeps .mx rfl⟩

/-- The staging record that an update names is the updated one. -/
theorem findStaged_updStaged {f : Staged → Staged} {i : Nat} (hf : ∀ r, (f r).stidx = r.stidx) :
    findStaged i (updStaged i f s) = (findStaged i s).map f :=
  find?_updFirst (c := fun r : Staged => r.stidx == i) (fun r => by rw [hf]) s.mx.staged

end

/-! The stages. -/

section
variable {cmd stidx : Nat} {c : IoCmd} {n : Ns} {r : Staged} {s : State}

/-- R134: with the map pages loaded and no deferred fault to report the media reads are booked and the command starts. -/
theorem mapPageLoadedEff_starts (hc : findCmd cmd s = some c) (hstage : c.stage = .pages) (hn : findNs c.nsid s = some n)
    (hreport : reportDue c.port (reportsOn ({ lookup n c (touchPages n c s) with stage := .media } : IoCmd)) (touchPages n c s) = false) :
    mapPageLoadedEff cmd s = (let u := touchPages n c s; let c2 : IoCmd := { lookup n c u with stage := .media };
      startCmd cmd (updCmd cmd (fun _ => c2) (bookReads c2.id c2.cls (c2.deadline.getD 0) (fretNow u + 1)
        (pagesOf (mediaOf c2.views)) u).2)) := by
  have hport : (lookup n c (touchPages n c s)).port = c.port := by
    unfold lookup
    extract_lets looked views
    split <;> rfl
  rw [mapPageLoadedEff, hc]
  simp only [hstage, hn, ne_eq, not_true, if_false]
  exact if_neg (Bool.not_eq_true _ ▸ (congrArg (fun p => reportDue p _ _) hport).trans hreport)

/-- A command whose namespace is gone ends when its map pages come. -/
theorem mapPageLoadedEff_gone (hc : findCmd cmd s = some c) (hstage : c.stage = .pages) (hn : findNs c.nsid s = none) :
    mapPageLoadedEff cmd s = finishCmd cmd 0 0x0B 0 s := by
  simp only [mapPageLoadedEff, hc, hstage, hn, ne_eq, not_true, if_false]

/-- R136: the first waiting command of its queue whose namespace is gone ends. -/
theorem lc7AdmissionRetryEff_gone (hc : findCmd cmd s = some c) (hstage : c.stage = .waiting) (hfirst : firstWaiting c s = true)
    (hall : c.nsid ≠ 0xFFFFFFFF) (hn : findNs c.nsid s = none) : lc7AdmissionRetryEff cmd s = finishCmd cmd 0 0x0B 0 s := by
  simp only [lc7AdmissionRetryEff, hc, hstage, hfirst, hall, hn, ne_eq, not_true, or_self, if_false]

/-- R136: the first waiting command of its queue that gets what it needs is in flight, and waits for its map pages or starts. -/
theorem lc7AdmissionRetryEff_admits {c2 : IoCmd} {u : State} {pages : Bool} (hc : findCmd cmd s = some c) (hstage : c.stage = .waiting)
    (hfirst : firstWaiting c s = true) (hn : (if c.nsid = 0xFFFFFFFF then some allNs else findNs c.nsid s) = some n)
    (hvisible : c.nsid ≠ 0xFFFFFFFF → nsVisible c.port n s = true) (hpages : (!(needPages n c s).isEmpty) = pages)
    (hreport : pages = false → c.looked = false → reportDue c.port (reportsOn c) s = false)
    (htry : tryLc7 n (if pages = true ∨ c.looked = true then c else lookup n c s)
      (cmdBytes n (if pages = true ∨ c.looked = true then c else lookup n c s)) pages s = some (c2, u)) :
    lc7AdmissionRetryEff cmd s =
      (let t := updClass c.cls (fun k => { k with admitted := k.admitted + 1 })
        (updCmd cmd (fun _ => { c2 with stage := if pages then .pages else .media }) u)
      if pages then t else startCmd cmd (touchPages n c t)) := by
  have hseen : ¬ (c.nsid ≠ 0xFFFFFFFF ∧ ¬ nsVisible c.port n s = true) := fun hblind => hblind.2 (hvisible hblind.1)
  have hquiet : ¬ (¬ pages = true ∧ ¬ c.looked = true ∧ reportDue c.port (reportsOn c) s = true) := by
    rintro ⟨hnone, hnew, hdue⟩
    simp [hreport (Bool.eq_false_iff.mpr hnone) (Bool.eq_false_iff.mpr hnew)] at hdue
  rw [lc7AdmissionRetryEff, hc]
  simp only [hstage, hfirst, hn, ne_eq, not_true, or_self, if_false]
  rw [if_neg hseen]
  simp only [hpages, htry, if_neg hquiet]

/-- R235: a write whose protection information is stripped or right goes on to commit. -/
theorem dcForwardDoneEff_commits (hc : findCmd cmd s = some c) (hstage : c.stage = .forward) (hn : findNs c.nsid s = some n)
    (hpi : piStrips n c.prw = true ∨ piFirst n c.prw (c.data.zipIdx.map (fun x => (x.2, x.1))) = none) (hspace : noSpace n s = false) :
    dcForwardDoneEff cmd s = commitCmd cmd ((grainsOf n (if c.kind = .copy then c.dst else c.slba) c.nlb).foldl
      (fun t g => mirror 1 [t.mx.csn + 1, c.nsid, g] t) (updCmd cmd (fun x => { x with data := forwardData n c.prw c.data }) s)) := by
  have hgood : (if piStrips n c.prw then none else piFirst n c.prw (c.data.zipIdx.map (fun x => (x.2, x.1)))) = none := by
    rcases hpi with hstrip | hgood
    · exact if_pos hstrip
    · rw [hgood, ite_self]
  simp only [dcForwardDoneEff, hc, hstage, hn, hgood, hspace, ne_eq, not_true, Bool.false_eq_true, if_false]

/-- R243: a write that finds no space ends with 0/81h. -/
theorem dcForwardDoneEff_full (hc : findCmd cmd s = some c) (hstage : c.stage = .forward) (hn : findNs c.nsid s = some n)
    (hpi : piStrips n c.prw = true) (hspace : noSpace n s = true) : dcForwardDoneEff cmd s = finishCmd cmd 0 0x81 0 s := by
  simp only [dcForwardDoneEff, hc, hstage, hn, hpi, hspace, ne_eq, not_true, if_true, if_false]

/-- R22: a command that may complete does. -/
theorem completionPostEff_completes (hc : findCmd cmd s = some c) (hmay : mayComplete c s = true) :
    completionPostEff cmd s = finishCmd cmd 0 0 0 s := by
  simp only [completionPostEff, hc, hmay, if_true]

/-- R149: a partial grain not merged yet is merged. -/
theorem partialGrainMergeEff_merges (hr : findStaged stidx s = some r) (hmerged : r.merged = false) :
    partialGrainMergeEff stidx none s = mergeStaged stidx s := by
  simp only [partialGrainMergeEff, hr, hmerged, Bool.false_eq_true, if_false]

/-- R149: a prior copy that reads gives the grain what it did not write. -/
theorem mergeStaged_reads (hr : findStaged stidx s = some r) (hprior : priorUnread r s = none) :
    mergeStaged stidx s = updStaged stidx (fun r => { r with lbas := mergeLbas r.lbas (priorLbas r s), merged := true }) s := by
  simp only [mergeStaged, hr, hprior]

/-- R150: where the prior copy does not read the grain takes lost marks, one listed extent each. -/
theorem partialGrainMergeEff_lost {cause : Nat} (hr : findStaged stidx s = some r) (hmerged : r.merged = false) :
    (∀ x, findStaged stidx (partialGrainMergeEff stidx (some cause) s) = some x → x.merged = true) ∧
      (partialGrainMergeEff stidx (some cause) s).sh.lostTotal = s.sh.lostTotal + (r.lbas.filter (fun x => x == .prior)).length ∧
      partialGrainMergeEff stidx (some cause) s = ((r.lbas.zipIdx.filter (fun x => x.1 == .prior)).map (·.2)).foldl
        (fun t i => listLost r.nsid (grainSlba r.nsid r.grain t + i) 1 cause r.csn t)
        (updStaged stidx (fun r => { r with lbas := mergeLbas r.lbas (r.lbas.map (fun _ => .lost)), merged := true }) s) := by
  obtain ⟨u, hu⟩ : ∃ u, u = updStaged stidx
      (fun r => { r with lbas := mergeLbas r.lbas (r.lbas.map (fun _ => .lost)), merged := true }) s := ⟨_, rfl⟩
  obtain ⟨l, hl⟩ : ∃ l, l = (r.lbas.zipIdx.filter (fun x => x.1 == .prior)).map (·.2) := ⟨_, rfl⟩
  have heff : partialGrainMergeEff stidx (some cause) s =
      l.foldl (fun t i => listLost r.nsid (grainSlba r.nsid r.grain t + i) 1 cause r.csn t) u := by
    simp only [partialGrainMergeEff, hr, hmerged, Bool.false_eq_true, if_false, hl, hu]
  have hlen : l.length = (r.lbas.filter (fun x => x == .prior)).length := by
    rw [hl, List.length_map, ← List.length_map Prod.fst]
    refine congrArg List.length ((List.filter_map (f := Prod.fst) (p := fun x => x == LbaVal.prior)).symm.trans ?_)
    rw [List.zipIdx_map_fst]
  obtain ⟨htotal, hmx⟩ := foldl_listLost (f := fun i t => listLost r.nsid (grainSlba r.nsid r.grain t + i) 1 cause r.csn t)
    (fun _ _ => ⟨_, _, _, _, _, rfl⟩) l u
  rw [← hl, ← hu, heff]
  refine ⟨fun x hx => ?_, htotal.trans (by rw [hlen, hu]; rfl), rfl⟩
  have hfound : findStaged stidx u = some x := by rwa [findStaged, hmx] at hx
  rw [hu, findStaged_updStaged (by exact fun _ => rfl), hr] at hfound
  exact Option.some.inj hfound ▸ rfl

end

/-- Settles O22: each stage is the effect of its step, and a command that ends leaves as `finishCmd_ends` says. -/
theorem ioCommandStages : Obligations.IoCommandStages := by
  unfold Obligations.IoCommandStages
  refine ⟨?pagesGone, ?pages, ?pagesNone, ?retry, ?retryGone, ?forward, ?full, ?completes, ?holds, ?merge, ?lost, ?mergeNone, ?retryPages,
    ?forwardChecked, ?done, ?merged⟩
  case pagesGone =>
    intro cmd c s hc hstage hn
    exact next_only_eq (execMapPageLoaded_only cmd s) (congrArg Host.Outcome.next (mapPageLoadedEff_gone hc hstage hn)) (by decide +kernel)
  case pages =>
    intro cmd c n s hc hstage hn hreport
    exact next_only_eq (execMapPageLoaded_only cmd s) (congrArg Host.Outcome.next (mapPageLoadedEff_starts hc hstage hn hreport))
      (by decide +kernel)
  case pagesNone =>
    intro cmd s hc
    exact congrArg Host.Outcome.next (by rw [mapPageLoadedEff, hc])
  case retry =>
    intro cmd c c2 n u s hc hstage hfirst hn hvisible hpages hreport htry
    exact next_only_eq (execLc7AdmissionRetry_only cmd s) (congrArg Host.Outcome.next
      (lc7AdmissionRetryEff_admits (pages := false) hc hstage hfirst hn hvisible (by rw [hpages]; rfl) (fun _ => hreport) (by
        simpa only [Bool.false_eq_true, false_or] using htry))) (by decide +kernel)
  case retryGone =>
    intro cmd c s hc hstage hfirst hall hn
    exact next_only_eq (execLc7AdmissionRetry_only cmd s)
      (congrArg Host.Outcome.next (lc7AdmissionRetryEff_gone hc hstage hfirst hall hn)) (by decide +kernel)
  case forward =>
    intro cmd c n s hc hstage hn hstrip hspace hkind
    have heff := dcForwardDoneEff_commits hc hstage hn (.inl hstrip) hspace
    rw [if_neg hkind] at heff
    exact next_only_eq (execDcForwardDone_only cmd s) (congrArg Host.Outcome.next heff) (by decide +kernel)
  case full =>
    intro cmd c n s hc hstage hn hstrip hspace
    exact next_only_eq (execDcForwardDone_only cmd s) (congrArg Host.Outcome.next (dcForwardDoneEff_full hc hstage hn hstrip hspace))
      (by decide +kernel)
  case completes =>
    intro cmd c s hc hmay hwait hsan hswitch
    have heff : execCompletionPost cmd s = .next (finishCmd cmd 0 0 0 s) := congrArg Host.Outcome.next (completionPostEff_completes hc hmay)
    exact ⟨_, heff, (only_of_next (execCompletionPost_only cmd s) heff).mono (.ofAll (by decide +kernel)),
      finishCmd_ends hc hwait hsan hswitch⟩
  case holds =>
    intro cmd c s hc hmay
    exact congrArg Host.Outcome.next (by simp only [completionPostEff, hc, hmay, Bool.false_eq_true, if_false])
  case merge =>
    intro stidx r s hr hmerged hprior
    exact next_only_eq (execPartialGrainMerge_only stidx none s) (congrArg Host.Outcome.next
      ((partialGrainMergeEff_merges hr hmerged).trans (mergeStaged_reads hr hprior))) (by decide +kernel)
  case lost =>
    intro stidx cause r s hr hmerged
    exact ⟨_, rfl, (only_of_next (execPartialGrainMerge_only stidx (some cause) s) rfl).mono (.ofAll (by decide +kernel)),
      partialGrainMergeEff_lost hr hmerged⟩
  case mergeNone =>
    intro stidx cause s hr
    exact congrArg Host.Outcome.next (by rw [partialGrainMergeEff, hr])
  case retryPages =>
    intro cmd c c2 n u s hc hstage hfirst hn hvisible hpages htry
    exact next_only_eq (execLc7AdmissionRetry_only cmd s) (congrArg Host.Outcome.next
      (lc7AdmissionRetryEff_admits (pages := true) hc hstage hfirst hn hvisible (by simp [hpages]) nofun (by
        simpa only [true_or, if_true] using htry))) (by decide +kernel)
  case forwardChecked =>
    intro cmd c n s hc hstage hn hpi hspace
    exact next_only_eq (execDcForwardDone_only cmd s) (congrArg Host.Outcome.next (dcForwardDoneEff_commits hc hstage hn hpi hspace))
      (by decide +kernel)
  case done =>
    intro cmd c s hc hmay
    exact next_only_eq (execCompletionPost_only cmd s) (congrArg Host.Outcome.next (completionPostEff_completes hc hmay))
      (by decide +kernel)
  case merged =>
    intro stidx r s hr hmerged
    exact next_only_eq (execPartialGrainMerge_only stidx none s) (congrArg Host.Outcome.next (partialGrainMergeEff_merges hr hmerged))
      (by decide +kernel)

end Sys2Proof.Machine
end

section
/-! PROOF. O24: frets, vat turns, the journal and the checkpoint. Rules R51, R122, R126, R128, R129, R146, R165 to R170, R274, R294. -/
namespace Sys2Proof.Machine
-- One theorem at a time: a thread for each would exhaust the memory the check allows.
set_option Elab.async false

section
variable {s t : State}

/-! Device time over a fret tick (R122). -/

/-- A change of other places leaves device time alone. -/
theorem Only.now {w : List Fld} (h : Only w s t) (ht : covered w .time = false) : Machine.now t = Machine.now s :=
  congrArg Time.fabric (h.keeps .time ht)

/-- Device time advances. -/
theorem now_advance (ns : Nat) (s : State) : now (advance ns s) = now s + ns := by
  unfold advance
  extract_lets t pulse _ advanced
  split
  · exact (emits_only ..).now rfl
  · rfl

/-- A slewing step corrects the crystal's count and not device time. -/
theorem now_slewStep (s : State) : now (slewStep s) = now s := by
  unfold slewStep
  split <;> rfl

/-- The end of the boost takes no time. -/
theorem now_boostEnded (s : State) :
    now (if s.mm.boost ∧ boostEnds s then { s with mm := { s.mm with boost := false } } else s) = now s := by
  split <;> rfl

/-- R122: a fret tick ends at the next boundary of 4 µs. -/
theorem now_fretTickEff (s : State) : now (fretTickEff s) = (fretNow s + 1) * 4000 := by
  have hdue : now s + ((fretNow s + 1) * 4000 - now s) = (fretNow s + 1) * 4000 := by
    have hfret : fretNow s = now s / 4000 := rfl
    omega
  unfold fretTickEff
  extract_lets moved trimmed _ resumed issued _ unboosted
  have hmoved : now moved = (fretNow s + 1) * 4000 := (now_slewStep _).trans ((now_advance ..).trans hdue)
  have htrimmed : now trimmed = now moved := ((trimFrets_only ..).now rfl).trans ((ctxTick_only ..).now rfl)
  have hresumed : now resumed = now trimmed := (resumeDies_only ..).now rfl
  have hissued : now issued = now resumed :=
    ((issueReads_only ..).now rfl).trans (((issueReads_only ..).now rfl).trans ((commitHorizon_only ..).now rfl))
  have hunboosted : now unboosted = now issued := now_boostEnded issued
  have hsettled : now (fiTlps (settleSanitize (settleNs unboosted))) = now unboosted :=
    ((fiTlps_only ..).now rfl).trans (((settleSanitize_only ..).now rfl).trans ((settleNs_only ..).now rfl))
  rw [hsettled, hunboosted, hissued, hresumed, htrimmed, hmoved]

/-! Suspension and vat turns (R128, R274). -/

variable {die group : Nat}

/-- R274: a die in its program segments whose window is about to open is suspended. -/
theorem suspendRequestEff_suspends (hseg : inSegments die s = true) (hdue : s.fs.windows.any (fun w => decide (w.die = die ∧
      fretNow s ≤ w.opens ∧ w.opens ≤ fretNow s + 5)) = true) : suspendRequestEff die s =
    ctxCode die .suspended { s with fs := { s.fs with suspended := addOnce s.fs.suspended die } } := if_pos ⟨hseg, hdue⟩

/-- R128: a turn whose frets are over ends, and as many groups are prepared as the count asks. -/
theorem vatTurnEndEff_ends {x : Nat × Nat} (hturn : s.fs.turn.find? (fun t => t.1 == group) = some x) (hover : x.2 + turnFrets ≤ fretNow s)
    (hstays : s.fs.leaving.contains group = false) : vatTurnEndEff group s =
      (let u := commitPoint .turnEnd s; let v := { u with fs := { u.fs with leaving := u.fs.leaving ++ [group] } };
      let stay := (v.fs.turn.filter (fun x => !v.fs.leaving.contains x.1)).map (·.1); let held := stay.length + v.fs.prepared.length;
      departs (prepare (inForce Reg.FS_VAT.GROUPS u - held)
        { v with fs := { v.fs with leaving := v.fs.leaving ++ stay.take (held - inForce Reg.FS_VAT.GROUPS u) } })) := by
  have hends : ¬ (fretNow s < x.2 + turnFrets ∨ s.fs.leaving.contains group = true) := by
    rintro (hearly | hleaves)
    · exact absurd hover (Nat.not_le.mpr hearly)
    · exact absurd (hleaves.symm.trans hstays) (by decide)
  unfold vatTurnEndEff
  rw [hturn]
  dsimp only
  rw [if_neg hends]

/-! The journal and the checkpoint (R165 to R170). -/

/-- R165: a due flush moves at most a segment of what is pending into flight. -/
theorem journalFlushEff_flushes (hmode : mediaMode s.gen.mode = true) (hidle : s.mx.jfly = none) (hdue : flushDue s = true) :
    journalFlushEff s = (let u := flagIf (replayOver s) Reg.MX_ERR.REPLAYOVER (commitPoint .journalFlush s);
      { u with mx := { u.mx with
          jfly := some (u.mx.jseq + 1, u.mx.jpend.take segmentMax), jpend := u.mx.jpend.drop segmentMax, flushAt := now u } }) :=
  if_neg (by simp only [hmode, hidle, hdue, Option.isSome_none, Bool.false_eq_true, not_true, or_self, not_false_iff])

/-- A change of the map state changes no flag. -/
theorem isOn_mx (f : Field) (m : Mx) (s : State) : isOn f { s with mx := m } = isOn f s := rfl

/-- R165, R170: what a due flush leaves in flight and pending, and the flag of a lag at its limit. -/
theorem journalFlushEff_moves (hmode : mediaMode s.gen.mode = true) (hidle : s.mx.jfly = none) (hdue : flushDue s = true) :
    (journalFlushEff s).mx.jfly = some (s.mx.jseq + 1, s.mx.jpend.take segmentMax) ∧
      (journalFlushEff s).mx.jpend = s.mx.jpend.drop segmentMax ∧ (journalFlushEff s).mx.flushAt = now s ∧
      (isOn Reg.MX_ERR.REPLAYOVER (journalFlushEff s) = true ∨ replayOver s = false) := by
  rw [journalFlushEff_flushes hmode hidle hdue]
  extract_lets u
  have hflagged : Only [.eff, .fs, .reg Reg.MX_ERR.REPLAYOVER] s u :=
    ((commitPoint_only ..).mono (.ofAll (by decide +kernel))).trans ((flagIf_only ..).mono (.ofAll (by decide +kernel)))
  have hmx : u.mx = s.mx := hflagged.keeps .mx rfl
  refine ⟨by rw [hmx], by rw [hmx], hflagged.now rfl, ?_⟩
  cases hover : replayOver s with
  | false => exact .inr rfl
  | true =>
    have hu : u = flagOn Reg.MX_ERR.REPLAYOVER (commitPoint .journalFlush s) := if_pos hover
    exact .inl ((isOn_mx ..).trans ((congrArg (isOn Reg.MX_ERR.REPLAYOVER) hu).trans (isOn_flagOn _ (by decide))))

/-- R166: a segment that is durable is the newest, and what waited for it goes on. -/
theorem journalSegmentDurableEff_durable {copyFailed : Bool} {seq : Nat} {recs : List JRec} (hfly : s.mx.jfly = some (seq, recs)) :
    journalSegmentDurableEff copyFailed s = (let u := flagIf copyFailed Reg.MX_ERR.JNLCOPY s;
      let v := { u with
        mx := { u.mx with
          jfly := none, jseq := seq, jlast := if lastCsnOf recs = 0 then u.mx.jlast else lastCsnOf recs,
          ceil := (ceilOf recs).getD s.mx.ceil, ceilPend := if (ceilOf recs).isSome then none else u.mx.ceilPend },
        nand := { u.nand with ceil := (ceilOf recs).getD s.mx.ceil, segs := u.nand.segs ++ [⟨seq, recs, 2⟩] } };
      retryCommits (freeErased (openDurable recs (segmentPages seq recs.length v)))) := by
  rw [journalSegmentDurableEff, hfly]

/-- R168, R169: a sweep starts with the next count at the end of the durable journal, and nothing is dirty. -/
theorem sweepStart_next (s : State) : (∃ r, (sweepStart s).mx.sweep = some r ∧ r.sweep = nextSweep s ∧ r.replaySeq = s.mx.jseq + 1) ∧
    (sweepStart s).mx.dirty = false := by
  have hmx : (commitPoint .sweepStart s).mx = s.mx := (commitPoint_only ..).keeps .mx rfl
  have hnand : (commitPoint .sweepStart s).nand = s.nand := (commitPoint_only ..).keeps .nand rfl
  exact ⟨⟨_, rfl, by rw [rootNow, nextSweep, hnand, nextSweep], by rw [rootNow, hmx]⟩, rfl⟩

/-- R169: a sweep starts as soon as something is dirty. -/
theorem checkpointSweepStartEff_starts (hmode : mediaMode s.gen.mode = true) (hidle : s.mx.sweep = none) (hdirty : s.mx.dirty = true) :
    checkpointSweepStartEff s = sweepStart s := if_pos ⟨hmode, Option.isNone_iff_eq_none.mpr hidle, hdirty⟩

/-- R169: a sweep starts 10 s after the newest root. -/
theorem sweepTimeoutEff_starts (hmode : mediaMode s.gen.mode = true) (hidle : s.mx.sweep = none)
    (hold : s.mx.rootAt + 10000000000 ≤ now s) : sweepTimeoutEff s = sweepStart s :=
  if_pos ⟨hmode, Option.isNone_iff_eq_none.mpr hidle, hold⟩

/-! Map lines (R294). -/

variable {nsid grain : Nat}

/-- R294: a line that is restored is held no longer. -/
theorem mapLineRestoredEff_readable (hheld : s.mx.heldLines.contains (nsid, grain / 8 * 8) = true) :
    mapLineRestoredEff nsid grain true s =
      { s with mx := { s.mx with heldLines := s.mx.heldLines.filter (fun x => x != (nsid, grain / 8 * 8)) } } := by
  simp only [mapLineRestoredEff, hheld, not_true, if_true, if_false]

/-- A line that is not held changes nothing. -/
theorem mapLineRestoredEff_free {readable : Bool} (hfree : s.mx.heldLines = []) : mapLineRestoredEff nsid grain readable s = s :=
  if_pos (by simp [hfree])

end

/-- Settles O24: each clause is the effect of its step; a fret tick's time and a sweep's root are `now_fretTickEff` and
`sweepStart_next`. -/
theorem fretsAndJournal : Obligations.FretsAndJournal := by
  unfold Obligations.FretsAndJournal
  refine ⟨?fret, ?suspend, ?suspendNot, ?turn, ?turnNone, ?boundary, ?flush, ?durable, ?sweep, ?timeout, ?root, ?restored, ?free, ?lost⟩
  case fret =>
    intro s
    exact ⟨_, rfl, (only_of_next (execFretTick_only s) rfl).mono (.ofAll (by decide +kernel)), now_fretTickEff s, rfl⟩
  case suspend =>
    intro die s hseg hdue
    exact congrArg Host.Outcome.next (suspendRequestEff_suspends hseg hdue)
  case suspendNot =>
    intro die s hseg
    exact congrArg Host.Outcome.next (if_neg (by simp [hseg]))
  case turn =>
    intro group x s hturn hover hstays
    exact next_only_eq (execVatTurnEnd_only group s) (congrArg Host.Outcome.next (vatTurnEndEff_ends hturn hover hstays)) (by decide +kernel)
  case turnNone =>
    intro group s hnone
    exact congrArg Host.Outcome.next (by rw [vatTurnEndEff, hnone, List.find?_nil])
  case boundary =>
    intro group s hprepared hboundary
    exact congrArg Host.Outcome.next (if_pos ⟨hprepared, hboundary⟩)
  case flush =>
    intro s hmode hidle hdue
    obtain ⟨hfly, hpend, hat, hover⟩ := journalFlushEff_moves hmode hidle hdue
    exact ⟨_, rfl, only_of_next (execJournalFlush_only s) rfl, hfly, hpend, hat, hover, journalFlushEff_flushes hmode hidle hdue⟩
  case durable =>
    intro copyFailed seq recs s hfly
    exact next_only_eq (execJournalSegmentDurable_only copyFailed s)
      (congrArg Host.Outcome.next (journalSegmentDurableEff_durable hfly)) (by decide +kernel)
  case sweep =>
    intro s hmode hidle hdirty
    have heff : execCheckpointSweepStart s = .next (sweepStart s) :=
      congrArg Host.Outcome.next (checkpointSweepStartEff_starts hmode hidle hdirty)
    exact ⟨_, heff, only_of_next (execCheckpointSweepStart_only s) heff, (sweepStart_next s).1, (sweepStart_next s).2, rfl⟩
  case timeout =>
    intro s hmode hidle hold
    have heff : execSweepTimeout s = .next (sweepStart s) := congrArg Host.Outcome.next (sweepTimeoutEff_starts hmode hidle hold)
    exact ⟨_, heff, only_of_next (execSweepTimeout_only s) heff, (sweepStart_next s).1, (sweepStart_next s).2, rfl⟩
  case root =>
    intro copyFailed r s hsweep
    exact next_only_eq (execSweepRootDurable_only copyFailed s) (congrArg Host.Outcome.next (by rw [sweepRootDurableEff, hsweep]))
      (by decide +kernel)
  case restored =>
    rintro nsid grain _ s hheld rfl
    exact congrArg Host.Outcome.next (mapLineRestoredEff_readable hheld)
  case free =>
    intro nsid grain readable s hfree
    exact congrArg Host.Outcome.next (mapLineRestoredEff_free hfree)
  case lost =>
    rintro nsid grain _ s hheld rfl
    exact next_only_eq (execMapLineRestored_only nsid grain false s)
      (congrArg Host.Outcome.next (by rw [mapLineRestoredEff, if_neg (not_not_intro hheld)]; rfl)) (by decide +kernel)

end Sys2Proof.Machine
end
